-- ==== Sys2Proof/Word.lean ====
section
/-! DEFINITION. The word types of the model. Register fields, counts and addresses are natural numbers cut to their
width where they are stored; a byte of memory is eight bits. -/

namespace Sys2Proof

/-- One byte of SDRAM, of the Reading Room or of a received datagram. -/
abbrev Byte := BitVec 8

/-- The low `w` bits of a number. -/
def low (w v : Nat) : Nat := v % 2 ^ w

end Sys2Proof
end

