-- ==== Sys2Proof/Machine/Operands.lean ====
section
/-! DEFINITION. Operands of commands that are records. -/

namespace Sys2Proof.Machine

/-- What one Sagger channel finds in a cycle: how long each contact has been low outside the test pulses, in sclk (ESTOP_A,
ESTOP_B, GUARD_A, GUARD_B); contacts that fail their test pulse, as a mask; steps of the safe encoder in the last 200,000 sclk;
transitions of the cycle in which A and B changed together (R516, R527, R529). -/
structure SagSample where
  low : List Nat
  pulse : Nat
  enc : Nat
  both : Nat
  deriving DecidableEq, Repr

end Sys2Proof.Machine
end

