-- ==== Sys2Proof/Syntax.lean ====
section
/-! DEFINITION. The commands of the block: one constructor per row of spec/opcode_table.json, in its order. A command is
what an outside party does to the block (a bus access, an edge, a received message) or a step of one of its own engines.
Operands carry what the step takes from outside the block; the meaning of each says what they are. -/

namespace Sys2Proof

open Machine (SagSample)

/-- The commands of spec/opcode_table.json. -/
inductive Instr where
  /-- REGISTER_WRITE, R15: A write to a register, field or aperture word that has no step of its own takes effect under its field class, lock binding and lock-out. -/
  | registerWrite (pg : Nat) (apt : Bool) (off : Nat) (data : Nat) (owner : Nat)
  /-- ACCESS_BUS_ERROR, R52: A register access that is narrower than 32 bits or not 4-byte aligned returns a bus error and has no effect. -/
  | accessBusError (addr : Nat) (size : Nat)
  /-- UNMAPPED_ACCESS, R53: An access to an unlisted page slot reads zero or is ignored and raises REG.UNMAPPED_ACCESS. -/
  | unmappedAccess (addr : Nat) (wr : Bool)
  /-- CONTROL_ENABLE, R60: A write of CONTROL.ENABLE starts or stops the page's function. -/
  | controlEnable (pg : Nat) (on : Bool)
  /-- CONTROL_HOLD, R58: A write of CONTROL.HOLD makes the function stop at its next boundary with its state kept, or resume. -/
  | controlHold (pg : Nat) (on : Bool)
  /-- CONTROL_QUIESCE, R117: Setting CONTROL.QUIESCE stops the function from issuing new fabric, Stacks Bus or SDRAM requests. -/
  | controlQuiesce (pg : Nat)
  /-- CONTROL_RELEASE_QUIESCE, R58: Clearing CONTROL.QUIESCE lets the function issue requests again. -/
  | controlReleaseQuiesce (pg : Nat)
  /-- CONTROL_FUNC_RESET, R119: A function reset stops the function, retires its requests, discards its unit data, resets its fields, restores ret fields and sets READY again. -/
  | controlFuncReset (pg : Nat) (owner : Nat)
  /-- QUIESCE_TIMEOUT, R118: STATUS.BUSY still being 1 at 20 µs after QUIESCE was set raises REG.QUIESCE_TIMEOUT. -/
  | quiesceTimeout (pg : Nat)
  /-- COMMIT_REQUEST, R65: A COMMIT.REQUEST makes a commit PENDING for the next or targeted boundary. -/
  | commitRequest (pg : Nat) (target : Nat) (en : Bool) (cancel : Bool) (owner : Nat)
  /-- COMMIT_CANCEL, R70: COMMIT.CANCEL returns a PENDING commit to IDLE. -/
  | commitCancel (pg : Nat) (owner : Nat)
  /-- COMMIT_LEAD_POINT, R65: Reaching the lead point moves a PENDING commit to FROZEN. -/
  | commitLeadPoint (pg : Nat)
  /-- COMMIT_SWAP, R65: At the reference instant every S field and S window of the page swaps and the state becomes COPYING. -/
  | commitSwap (pg : Nat)
  /-- COPY_BACK_DONE, R67: The end of the copy of the new active set into the shadow set returns COMMIT.STATE to IDLE. -/
  | copyBackDone (pg : Nat)
  /-- STOPPED_COMMIT_SWAP, R72: An untargeted commit pending on a stopped function swaps within 16 xclk without changing LAST_BOUNDARY. -/
  | stoppedCommitSwap (pg : Nat)
  /-- GROUP_REQUEST, R77: GROUP_CTRL.REQUEST makes a group commit PENDING for all its member pages. -/
  | groupRequest (g : Nat) (target : Nat) (en : Bool) (cancel : Bool) (owner : Nat)
  /-- GROUP_CANCEL, R70: GROUP_CTRL.CANCEL withdraws a PENDING group commit. -/
  | groupCancel (g : Nat) (owner : Nat)
  /-- GROUP_LEAD_POINT, R77: At the earliest member lead point the group freezes every member, all or none. -/
  | groupLeadPoint (g : Nat)
  /-- LOCK_ACQUIRE, R82: An ACQUIRE makes the writer the holder of a free lock. -/
  | lockAcquire (n : Nat) (owner : Nat)
  /-- LOCK_RELEASE, R86: A RELEASE by the holder frees the lock. -/
  | lockRelease (n : Nat) (owner : Nat)
  /-- LOCK_CLEAR_BROKEN, R85: A CLEAR_BROKEN by the holder clears the lock's BROKEN bit. -/
  | lockClearBroken (n : Nat) (owner : Nat)
  /-- EVENT_STATUS_CLEAR, R14: A write of 1 to an EVENT_STATUS bit clears it unless the event sets it in the same cycle. -/
  | eventStatusClear (pg : Nat) (mask : Nat)
  /-- EVENT_FORCE, R91: A write of 1 to EVENT_FORCE raises the event with argument all ones. -/
  | eventForce (pg : Nat) (mask : Nat)
  /-- POOL_DRAIN, R628: Once the main path accepts records, the reserved pool drains into the ring in SEQ order. -/
  | poolDrain
  /-- RING_HEADER_READ, R115: RING_CMD with OP 0x1 sends a header-read frame over the control ring. -/
  | ringHeaderRead (pg : Nat) (word : Nat) (owner : Nat)
  /-- RING_QUIESCE, R115: RING_CMD with OP 0x2 sends a quiesce frame over the control ring. -/
  | ringQuiesce (pg : Nat) (owner : Nat)
  /-- RING_RELEASE_QUIESCE, R115: RING_CMD with OP 0x3 sends a release-quiesce frame over the control ring. -/
  | ringReleaseQuiesce (pg : Nat) (owner : Nat)
  /-- RING_FUNC_RESET, R115: RING_CMD with OP 0x4 sends a function-reset frame over the control ring. -/
  | ringFuncReset (pg : Nat) (owner : Nat)
  /-- RING_FRAME_COMPLETE, R43: A ring frame returns to the ring controller, with its node executed or marked, and sets RING_STATUS.DONE. -/
  | ringFrameComplete (marked : Bool)
  /-- MODE_GO, R97: MODE_CTRL.GO requests a transition to REQ_MODE, checked once against Table 3-2. -/
  | modeGo (req : Nat) (stopNow : Bool) (owner : Nat)
  /-- MODE_CHANGE, R98: The end of a transition sets MODE to the new mode and raises REG.MODE_CHANGE. -/
  | modeChange
  /-- SAFE_HOLD_ENTRY, R102: A Safe-Hold cause bit setting stops strobes, demands drive off and stops data-path advance in order. -/
  | safeHoldEntry
  /-- SAFE_HOLD_CAUSE_CLEAR, R103: A write of 1 to a SAFE_HOLD_CAUSE bit clears it only while the cause is no longer present. -/
  | safeHoldCauseClear (mask : Nat) (owner : Nat)
  /-- AUTO_IDLE, R97: With AUTO_IDLE set, the part leaves Bisque for Idle by itself once its condition holds. -/
  | autoIdle
  /-- BISQUE_TIMEOUT, R110: A required page not READY after BISQUE_LIMIT ms raises REG.BISQUE_TIMEOUT. -/
  | bisqueTimeout
  /-- FUNCTION_READY, R108: A function sets STATUS.READY once its dependencies are READY and its ret fields are restored. -/
  | functionReady (pg : Nat)
  /-- PORST_RELEASE, R97: The release of PORST_n brings the part up into Bisque. -/
  | porstRelease (vddIoLost : Bool)
  /-- PORST_ASSERT, R622: PORST_n falling drops every rail enable, resets every die but the Sagger and puts the Sagger in STOPPED. -/
  | porstAssert
  /-- WAKE_PIN, R97: WAKE_n low for 1 µs with WAKE_PIN_EN wakes the part from Dormant into Bisque. -/
  | wakePin
  /-- WAKE_TIMER_EXPIRY, R97: The wake timer expiring with WAKE_TIMER_EN wakes the part from Dormant into Bisque. -/
  | wakeTimerExpiry
  /-- DORMANT_ENTRY, R105: After the journal closes and the rails fall, core power is removed and the part is Dormant. -/
  | dormantEntry
  /-- CHUNK_RECEIVED, R127: A Folio chunk datagram is accepted and its bytes are held for its folio. -/
  | chunkReceived (net : Nat) (v6 : Bool) (dst : Nat) (udp : Nat) (payload : List Byte)
  /-- RING_ALLOCATE, R145: Ingest allocates stream-ring space to the next item in order once space is free. -/
  | ringAllocate
  /-- REGION_FOLIO_START, R142: A region begins line 0 of a folio, which is the folio's deadline and the region boundary reference instant. -/
  | regionFolioStart (r : Nat)
  /-- CACHE_EVICT, R149: CACHE_EVICT.GO sets EVICT_PENDING on a cache entry. -/
  | cacheEvict (id : Nat) (owner : Nat)
  /-- EVICT_COMPLETE, R149: An evict-pending entry is freed once no folio refers to it. -/
  | evictComplete (id : Nat)
  /-- NEED_POINT, R150: An item reaches its need point and is tested for dispatch. -/
  | needPoint (p : Nat) (layer : Nat)
  /-- SLICE_DISPATCH, R157: An inflate engine takes the next slice of an item once the dispatch conditions hold. -/
  | sliceDispatch (r : Nat) (engine : Nat) (poison : Option Nat)
  /-- SLICE_END, R156: An engine finishes a slice or item and becomes free. -/
  | sliceEnd (r : Nat) (engine : Nat)
  /-- JOB_START, R170: JOB_CTRL.START starts a deflate or repack job on a slot. -/
  | jobStart (slot : Nat) (owner : Nat)
  /-- JOB_ABORT, R169: JOB_CTRL.ABORT ends the running job as failed with reason 0x05. -/
  | jobAbort (slot : Nat) (owner : Nat)
  /-- JOB_DONE, R161: A deflate job completes and raises CODEC.JOB_DONE. -/
  | jobDone (slot : Nat)
  /-- OUT_FULL, R165: Output that does not fit below DST_LIMIT ends the job as failed and raises CODEC.OUT_FULL. -/
  | outFull (slot : Nat)
  /-- JOB_SOURCE_FAULT, R163: A repack source fault or poisoned source read ends the job as failed. -/
  | jobSourceFault (slot : Nat) (poisoned : Bool)
  /-- LINE_COMPOSE, R189: Glaze composes a port's next line from its layers. -/
  | lineCompose (r : Nat)
  /-- RECT_LIST_DECODE, R193: A rectangle list is decoded and checked once its bytes are held. -/
  | rectListDecode (r : Nat) (poison : Option Nat)
  /-- LINE_SCREEN, R220: The screening engine screens a port's next composed line into its line buffer. -/
  | lineScreen (r : Nat) (reads : Option (Nat × Nat) × Bool)
  /-- THRESHOLD_WRITE, R213: A write to the threshold window or SLOT_DIM changes a slot's thresholds. -/
  | thresholdWrite (pg : Nat) (apt : Bool) (off : Nat) (data : Nat) (owner : Nat)
  /-- QUAD_TRANSITION, R227: A filtered quadrature transition changes the count under the selected decode. -/
  | quadTransition (ch : Nat) (reps : Nat) (ab : Nat) (ph : Nat)
  /-- INDEX_EVENT, R231: An index event records the index count and checks or corrects slip. -/
  | indexEvent (ch : Nat) (reps : Nat) (balls : Bool × Option Nat) (ph : Nat)
  /-- SWITCH_CODE_CHANGE, R232: A new three-switch code changes the count. -/
  | switchCodeChange (ch : Nat) (reps : Nat) (code : Nat) (ph : Nat)
  /-- SSI_FRAME_START, R234: At each SSI period the channel starts clocking a frame from the encoder. -/
  | ssiFrameStart (ch : Nat)
  /-- SSI_FRAME_END, R236: A completed SSI frame sets or advances the count. -/
  | ssiFrameEnd (ch : Nat) (reps : Nat) (raw : Nat) (par : Nat) (dataHigh : Bool) (gapHigh : Bool)
  /-- CH_PRESET, R238: CH_CTRL.PRESET sets every replica's count to POS_PRESET and restarts the observer. -/
  | chPreset (ch : Nat) (owner : Nat)
  /-- OBSERVER_TICK, R239: Every 1 µs the tracking observer updates position, speed and acceleration. -/
  | observerTick (ch : Nat)
  /-- REPLICA_MISMATCH_CLEAR, R245: A write of 1 to REPLICA_STATE.MISMATCH clears it and rearms the mismatch event. -/
  | replicaMismatchClear (ch : Nat) (owner : Nat)
  /-- DIV_SYNC, R248: DIV_CTRL.SYNC loads ACC with PHASE and clears BACKLOG. -/
  | divSync (d : Nat) (phase : Nat) (owner : Nat)
  /-- CMP_ARM, R249: A write to CMP_ARM arms the named compare units against their targets. -/
  | cmpArm (mask : Nat) (owner : Nat)
  /-- CMP_DISARM, R254: A write to CMP_DISARM disarms the named units without event. -/
  | cmpDisarm (mask : Nat) (owner : Nat)
  /-- COMPARE_MATCH, R252: An armed unit reaches its target, drives its output, syncs a divider or raises POS.COMPARE_MATCH. -/
  | compareMatch (u : Nat)
  /-- COUNT_CAPTURE, R256: A read of COUNT_LO or POS_LO captures the whole value for the requester's next high read. -/
  | countCapture (ch : Nat) (off : Nat) (owner : Nat)
  /-- PORT_ARMED, R265: Once the first LANE_AHEAD lines are sent the port enters ARMED and arms its folio-start comparator. -/
  | portArmed (port : Nat)
  /-- LINE_FIRE, R271: At a line's phase-0 strobe instant the port fires the line, frees its slot and sends a later line. -/
  | lineFire (port : Nat) (buf : Bool × Nat) (ptErr : Bool)
  /-- REPLAY_ERROR, R290: A poisoned replay read sends a zero line and raises FIRE.REPLAY_ERROR. -/
  | replayError (port : Nat) (line : Nat)
  /-- TICKLE_STROBE, R291: A port in TICKLE issues one strobe every tickle period. -/
  | tickleStrobe (port : Nat)
  /-- LANE_PLL_LOCK, R313: A cluster's lane PLL locks and its enabled lanes begin to transmit blocks. -/
  | lanePllLock (c : Nat)
  /-- LANE_PLL_LOCK_LOSS, R294: A cluster's lane PLL loses lock. -/
  | lanePllLockLoss (c : Nat)
  /-- LANE_MESSAGE_START, R311: A head lane starts the next waiting message in priority order. -/
  | laneMessageStart (port : Nat)
  /-- BLOCK_RECEIVED, R306: A receiver takes in a block and checks CRC, stuffing and BSEQ. -/
  | blockReceived (lane : Nat) (marker : List Bool) (gap : Nat) (bits : List Bool)
  /-- MARKER_MISS, R318: An expected marker that is absent or wrong counts as a miss. -/
  | markerMiss (lane : Nat)
  /-- STATUS_RECEIVED, R319: A STATUS message from the bridge updates the lane status. -/
  | statusReceived (port : Nat) (body : List Byte)
  /-- TEMP_RECEIVED, R319: A TEMP message updates HEAD_TEMP. -/
  | tempReceived (port : Nat) (body : List Byte)
  /-- BRIDGE_SILENT, R319: No good STATUS for 1 ms clears BRIDGE_ALIVE and raises LANE.BRIDGE_SILENT. -/
  | bridgeSilent (port : Nat)
  /-- LANE_TEMP_STALE, R319: No good TEMP for 10 ms sets TEMP_STALE and raises LANE.TEMP_STALE. -/
  | laneTempStale (port : Nat)
  /-- WAVE_DL_GO, R315: WAVE_DL_CTRL.GO starts downloading a waveform table as WAVE_LOAD messages. -/
  | waveDlGo (port : Nat) (table : Nat) (len : Nat) (poison : Option Nat) (owner : Nat)
  /-- WAVE_DL_TIMEOUT, R316: No matching STATUS within 1 ms of the last WAVE_LOAD fails the download. -/
  | waveDlTimeout (port : Nat)
  /-- BCFG_SEND, R323: BCFG_SEND queues a BRIDGE_CONFIG message. -/
  | bcfgSend (port : Nat) (owner : Nat)
  /-- SLOT_ENABLE, R326: Setting SLOT_CFG.EN starts a camera stream after checking it. -/
  | slotEnable (l : Nat) (v : Nat) (owner : Nat)
  /-- SLOT_DISABLE, R343: Clearing SLOT_CFG.EN closes an open frame as ABORTED and empties the tag FIFO. -/
  | slotDisable (l : Nat) (v : Nat) (owner : Nat)
  /-- CSI_LONG_PACKET, R329: A CSI-2 long packet is checked and its payload enters line assembly. -/
  | csiLongPacket (l : Nat) (vc : Nat) (dt : Nat) (ecc : Nat) (crcBad : Bool) (payload : List Byte)
  /-- CSI_FRAME_START, R338: A Frame Start packet opens a frame. -/
  | csiFrameStart (l : Nat) (vc : Nat) (num : Nat) (ecc : Nat)
  /-- CSI_FRAME_END, R338: A Frame End packet closes the open frame. -/
  | csiFrameEnd (l : Nat) (vc : Nat) (ecc : Nat)
  /-- CSI_LINE_START, R335: A Line Start packet opens a planar line. -/
  | csiLineStart (l : Nat) (vc : Nat) (ecc : Nat)
  /-- CSI_LINE_END, R335: A Line End packet closes a planar line. -/
  | csiLineEnd (l : Nat) (vc : Nat) (ecc : Nat)
  /-- PHY_ERROR, R331: A failed HS entry or deskew raises CAM.PHY_ERROR. -/
  | phyError (l : Nat) (kind : Nat) (lanes : Nat)
  /-- LINK_SILENT, R331: No long packet for 200 ms sets SILENT and raises CAM.LINK_SILENT. -/
  | linkSilent (l : Nat)
  /-- PAR_FRAME_START, R332: An active VSYNC edge starts a parallel-port frame. -/
  | parFrameStart (level : Bool)
  /-- PAR_LINE, R332: A DE run or HSYNC-timed run of samples forms a parallel-port line. -/
  | parLine (level : Bool) (data : List Nat)
  /-- PIPELINE_LINE, R344: The camera pipeline processes an assembled line to absorbances and a mapped line. -/
  | pipelineLine (st : Nat) (ue : Option (Nat × Bool)) (full : Nat)
  /-- CCI_TRANSACTION_END, R353: A CCI register transaction of an exposure sequence or direct operation ends. -/
  | cciTransactionEnd (l : Nat) (nack : Bool) (data : Nat)
  /-- CCI_DIRECT_WRITE, R354: CCI_CTRL.GO without READ starts a direct sensor register write. -/
  | cciDirectWrite (l : Nat) (owner : Nat)
  /-- CCI_DIRECT_READ, R354: CCI_CTRL.GO with READ starts a direct sensor register read. -/
  | cciDirectRead (l : Nat) (owner : Nat)
  /-- TRACKER_LINE, R366: The density tracker matches a mapped camera line to a Proof row and accumulates it. -/
  | trackerLine
  /-- SOLVE_PHASE1_END, R375: The tender cores finish solving the factors and update nozzle state. -/
  | solvePhase1End
  /-- GAIN_UPDATE_WRITE, R381: With the lock held and commits idle the tender core writes new gains and requests a commit. -/
  | gainUpdateWrite (r : Nat)
  /-- UPDATE_LOCK_TIMEOUT, R381: The screening lock not acquired within 100 ms leaves the port due. -/
  | updateLockTimeout (r : Nat)
  /-- UPDATE_REQ, R378: A write to UPDATE_REQ makes the named ports due. -/
  | updateReq (hi : Bool) (mask : Nat) (owner : Nat)
  /-- TDC_RUN, R383: TDC_CTRL.RUN starts a timing-converter calibration run on a die. -/
  | tdcRun (mask : Nat) (owner : Nat)
  /-- TDC_COLLECTION_END, R384: A converter reaching 2^20 edges or RUN_LIMIT ends the collection phase. -/
  | tdcCollectionEnd (d : Nat)
  /-- TDC_LOOPBACK_END, R386: The delay-line loopback measurement ends and each unit is accepted or rejected. -/
  | tdcLoopbackEnd (d : Nat) (launches : List (List (List (Option (Nat × Nat)))))
  /-- TDC_TABLE_SWAP, R387: New timing tables take effect in a cycle with no strobe in placement. -/
  | tdcTableSwap (d : Nat)
  /-- CAL_SAVE, R389: CAL_CTRL.SAVE writes the named calibration categories to the journal. -/
  | calSave (cats : Nat) (owner : Nat)
  /-- CAL_WITHDRAW, R389: CAL_CTRL.WITHDRAW clears VALID of the named categories. -/
  | calWithdraw (cats : Nat) (owner : Nat)
  /-- CAL_APPLY, R390: CAL_CTRL.APPLY delivers effective values of the named categories to their consumers. -/
  | calApply (cats : Nat) (owner : Nat)
  /-- CAL_CAPTURE_TDC, R390: CAL_CTRL.CAPTURE_TDC copies the active timing tables into categories 0 and 1. -/
  | calCaptureTdc (cats : Nat) (owner : Nat)
  /-- CAL_APPLY_DONE, R390: Every consumer having taken its values ends APPLY and raises DTRK.CAL_APPLY_DONE. -/
  | calApplyDone
  /-- MEM_REQUEST, R403: A request arrives at an SDRAM channel queue with hazard checks. -/
  | memRequest (cls : Nat) (addr : Nat) (wr : Bool) (port : Option Nat) (mask : Nat) (data : List Nat)
  /-- MEM_SCHEDULE, R400: At an issue opportunity the channel chooses the next command by its priority rules. -/
  | memSchedule (ch : Nat)
  /-- MEM_READ_DATA, R406: Read data of a burst returns and is decoded. -/
  | memReadData (ch : Nat) (flips : List (Nat × Nat))
  /-- ALERT_N_LOW, R408: ALERT_n sampled low starts a CA-parity replay. -/
  | alertNLow (ch : Nat)
  /-- REFRESH_DUE, R412: A REF becomes due at tREFI. -/
  | refreshDue (ch : Nat) (rank : Nat)
  /-- ZQ_DUE, R413: A ZQCS becomes due every ZQ_PERIOD ms. -/
  | zqDue (ch : Nat)
  /-- MEM_TEMP_STALE, R411: No temperature reading for 12 ms refreshes in band 1 and raises MEM.TEMP_STALE. -/
  | memTempStale (ch : Nat)
  /-- POWER_DOWN_ENTRY, R415: An idle channel with tolerance enters power-down. -/
  | powerDownEntry (ch : Nat)
  /-- SELF_REFRESH_ENTRY, R416: A channel idle for SR_IDLE with enough tolerance enters self-refresh. -/
  | selfRefreshEntry (ch : Nat)
  /-- MEM_FREQ_GO, R421: MEM_FREQ.GO requests a change of frequency point. -/
  | memFreqGo (point : Nat) (owner : Nat)
  /-- TRAIN_FULL, R421: TRAIN_CTRL.FULL requests a full training pass of all channels. -/
  | trainFull (owner : Nat)
  /-- TRAIN_CHECK, R421: TRAIN_CTRL.CHECK requests a training check of all channels. -/
  | trainCheck (owner : Nat)
  /-- TRAINING_END, R420: A training pass or check ends and stores or flags its result. -/
  | trainingEnd (ch : Nat) (ok : Bool) (step : Nat) (lane : Nat)
  /-- FREQ_DONE, R422: A completed frequency change sets the new point and raises MEM.FREQ_DONE. -/
  | freqDone
  /-- STACKS_REQUEST, R437: A requester presents a Stacks Bus request, stamped on arrival. -/
  | stacksRequest (ix : Nat) (sdram : Bool) (addr : Nat) (wr : Bool) (beats : Nat) (data : List Nat)
  /-- STACKS_TENURE_END, R438: At the end of a tenure the arbiter grants the oldest waiting request. -/
  | stacksTenureEnd (upsets : List (Nat × Nat))
  /-- STACKS_WATCHDOG, R440: An owner without progress for WD_LIMIT µs loses its grant, is masked and is reset or ended. -/
  | stacksWatchdog (moved : Nat)
  /-- SCRUB_READ, R431: The patrol scrubber reads and checks the next codeword. -/
  | scrubRead (die : Nat) (upset : Nat)
  /-- DIE_LINK_FLIT, R39: A flit arrives at a die-link endpoint and is checked. -/
  | dieLinkFlit (link : Nat) (dir : Nat) (seq : Nat) (crcBad : Bool)
  /-- DIE_LINK_TRAINING_LOST, R40: A die link losing training takes the link down. -/
  | dieLinkTrainingLost (link : Nat)
  /-- FRAME_RECEIVED, R448: A network frame is received, checked and forwarded by the switch. -/
  | frameReceived (n : Nat) (ps : Int) (fcsBad : Bool) (fecC : Nat) (fecU : Nat) (bytes : List Byte)
  /-- FRAME_TRANSMIT, R454: A queued frame starts on an egress port, with transparent-clock correction. -/
  | frameTransmit (n : Nat) (ps : Int)
  /-- HOST_TX_WRITE, R455: Advancing HOST_TX_WR hands filled slots to the switch for transmission. -/
  | hostTxWrite (wr : Nat) (owner : Nat)
  /-- NET_LINK_UP, R447: Block lock held 10 ms without fault sets LINK_UP and raises NET.LINK_UP. -/
  | netLinkUp (n : Nat)
  /-- NET_LINK_DOWN, R447: Loss of lock or a local fault clears LINK_UP and raises NET.LINK_DOWN. -/
  | netLinkDown (n : Nat) (cause : Nat)
  /-- ADDRESS_AGE_OUT, R452: A learned address without frames for AGE_TIME is removed. -/
  | addressAgeOut (vid : Nat) (mac : Nat)
  /-- TC_ENTRY_EXPIRY, R461: A two-step residence entry expires 1 s after its Sync left. -/
  | tcEntryExpiry
  /-- SYNC_RECEIVED, R465: A Sync from the parent gives an offset sample to the servo. -/
  | syncReceived (port : Nat) (src : Nat) (seq : Nat) (two : Bool) (t1 : Int) (corr : Int) (q : Int) (logInt : Int)
  /-- FOLLOW_UP_RECEIVED, R465: A Follow_Up completes a two-step Sync exchange. -/
  | followUpReceived (port : Nat) (src : Nat) (seq : Nat) (t1 : Int) (corr : Int)
  /-- DELAY_RESP_RECEIVED, R465: A Delay_Resp updates the mean path delay. -/
  | delayRespReceived (port : Nat) (src : Nat) (req : Nat) (seq : Nat) (t4 : Int) (corr : Int) (logInt : Int)
  /-- ANNOUNCE_RECEIVED, R463: An Announce updates the foreign-master table and parent selection. -/
  | announceReceived (port : Nat) (src : Nat) (gm : Nat) (steps : Nat) (utc : Nat) (logInt : Int)
  /-- DELAY_REQ_SEND, R464: At a random gap the clock sends a Delay_Req on the master port. -/
  | delayReqSend
  /-- ANNOUNCE_TIMEOUT, R463: A foreign master silent for ANN_TIMEOUT intervals is dropped. -/
  | announceTimeout
  /-- SYNC_LOSS, R475: No complete Sync for LOSS_SYNCS intervals is a loss of master. -/
  | syncLoss
  /-- PTP_REQUALIFY, R476: PTP_CTRL.REQUALIFY restarts qualification with the rate held. -/
  | ptpRequalify (allow : Bool) (owner : Nat)
  /-- CONV_COUNT_WRITE, R469: A count written to CONV_COUNT is converted to PTP time through the epoch log. -/
  | convCountWrite (count : Nat) (owner : Nat)
  /-- TIME_CAPTURE_READ, R468: A read of the time COUNT_LO captures count and time for the next reads. -/
  | timeCaptureRead (owner : Nat)
  /-- TRIG_ARM, R478: A write to TRIG_ARM arms the named time triggers. -/
  | trigArm (mask : Nat) (owner : Nat)
  /-- TRIG_DISARM, R487: A write to TRIG_DISARM disarms the named triggers. -/
  | trigDisarm (mask : Nat) (owner : Nat)
  /-- TRIGGER_FIRE, R478: Local time reaching a trigger target fires the trigger output and fclk event. -/
  | triggerFire (k : Nat)
  /-- TCAP_EDGE, R481: An edge on TCAP_IN is stamped into the capture FIFO. -/
  | tcapEdge (c : Nat) (rising : Bool)
  /-- CAP_POP, R481: A write to CAP_POP removes the oldest capture entry. -/
  | capPop (mask : Nat) (owner : Nat)
  /-- HEARTBEAT_SEND, R491: Every 50 µs the pair function sends a heartbeat on both paths. -/
  | heartbeatSend
  /-- RENEWAL, R501: A guarded active part renews its lease every 250 µs. -/
  | renewal
  /-- HEARTBEAT_RECEIVED, R493: A HEARTBEAT message from the partner updates role, lease and acknowledgement state. -/
  | heartbeatReceived (lane : Nat) (body : List Byte)
  /-- HB_PIN_FRAME_RECEIVED, R492: A good HB_IN frame is accepted as a pin heartbeat. -/
  | hbPinFrameReceived (frame : Nat)
  /-- HB_PATH_TIMEOUT, R493: No heartbeat on a path for 150 µs takes that path down. -/
  | hbPathTimeout (pin : Bool)
  /-- LEASE_EXPIRY, R502: A guarded active part whose count passes E fences. -/
  | leaseExpiry
  /-- TAKEOVER_TEST, R503: Every 1 µs a standby or first-start part tests the takeover conditions. -/
  | takeoverTest
  /-- PAIR_RELEASE, R502: PAIR_CTRL.RELEASE fences an active part. -/
  | pairRelease (claim : Bool) (owner : Nat)
  /-- PAIR_CLAIM, R504: PAIR_CTRL.CLAIM makes a LISTEN or FENCED part take the lease. -/
  | pairClaim (owner : Nat)
  /-- PAIR_JOIN, R508: PAIR_CTRL.JOIN sends SNAP_REQ and starts a rejoin. -/
  | pairJoin (owner : Nat)
  /-- LINE_CRC_RECEIVED, R495: A LINE_CRC from the partner is compared with the own line CRC. -/
  | lineCrcReceived (port : Nat) (folio : Nat) (line : Nat) (crc : Nat)
  /-- POS_LATCH_RECEIVED, R507: A POS_LATCH gives count-offset samples for each channel. -/
  | posLatchReceived (seq : Nat) (valid : Nat) (pos : List Nat)
  /-- MIRROR_WRITE_RECEIVED, R497: A MIRROR_WRITE is applied to the screening shadow window under the lock. -/
  | mirrorWriteReceived (region : Nat) (reg : Bool) (target : Nat) (off : Nat) (words : List Nat)
  /-- MIRROR_COMMIT_RECEIVED, R497: A MIRROR_COMMIT requests a commit with the same TARGET. -/
  | mirrorCommitReceived (region : Nat) (target : Nat)
  /-- MIRROR_LOCK_TIMEOUT, R497: The screening lock not acquired within 10 ms for a mirror message is late. -/
  | mirrorLockTimeout (region : Nat)
  /-- SNAP_REQ_RECEIVED, R508: The active part's snapshot engine sends the snapshot objects, JOIN_PORT and SNAP_END. -/
  | snapReqReceived
  /-- SNAP_DATA_RECEIVED, R508: The joining part writes SNAP_DATA bytes into its pages and windows. -/
  | snapDataReceived (object : Nat) (off : Nat) (data : List Byte)
  /-- JOIN_PORT_RECEIVED, R508: A JOIN_PORT gives the port's folio and start position for the rejoin. -/
  | joinPortReceived (port : Nat) (folio : Nat) (start : Nat)
  /-- SNAP_END_RECEIVED, R508: SNAP_END is checked and the joining ports are restarted at folio N + 2. -/
  | snapEndReceived (objects : Nat) (crc : Nat)
  /-- SNAP_TIMEOUT, R509: No SNAP_END within 100 ms of SNAP_REQ fails the rejoin. -/
  | snapTimeout
  /-- REJOIN_RETRY, R509: With AUTO_REJOIN the part retries a failed rejoin after 1 s. -/
  | rejoinRetry
  /-- PAIR_PLL_LOCK_LOSS, R298: The pair-lane PLL losing lock stops both pair transmit lanes. -/
  | pairPllLockLoss
  /-- SAGGER_POWER_ON, R515: VDD_SAG in range for 1 ms releases the channels to start the self-test. -/
  | saggerPowerOn
  /-- VDD_SAG_OUT_OF_RANGE, R515: VDD_SAG out of range de-energises every output and holds the channels in reset. -/
  | vddSagOutOfRange
  /-- SELFTEST_END, R524: The Sagger self-test ends in STOPPED or SAFE and page 0x0A0 sets READY. -/
  | selftestEnd (passed : Bool)
  /-- SAGGER_CYCLE, R516: Each Sagger channel samples inputs, writes output requests and exchanges results every cycle. -/
  | saggerCycle (chans : List SagSample) (senc : Nat) (resetN : Bool) (ov : Nat) (readback : List Nat) (found : List (Nat × Nat))
  /-- SAGGER_ADC_ROUND, R526: Every 500,000 sclk the Sagger converts its 16 temperature inputs and references. -/
  | saggerAdcRound (codes : List Nat) (ref300 : Nat) (ref1200 : Nat)
  /-- OV_COMPARATOR_TRIP, R528: A rail overvoltage comparator latches DRIVE_EN of its cluster off in hardware. -/
  | ovComparatorTrip (c : Nat) (b : Bool)
  /-- CHANNEL_WATCHDOG_TIMEOUT, R531: A channel failing to service its hardware watchdog goes out of service. -/
  | channelWatchdogTimeout (ch : Nat)
  /-- SAG_START, R522: SAG_CMD.START moves STOPPED to OPERATE when no trip is latched. -/
  | sagStart (owner : Nat)
  /-- SAG_STOP, R522: SAG_CMD.STOP moves OPERATE to STOPPED. -/
  | sagStop (start : Bool) (owner : Nat)
  /-- SAG_RESET, R523: SAG_CMD.RESET clears latched trips whose causes have ended. -/
  | sagReset (owner : Nat)
  /-- RESET_BUTTON_RELEASE, R523: The release of SAG_RESET_n after 50 ms to 3 s acts as a RESET when RESET_SOURCE allows. -/
  | resetButtonRelease (lowUs : Nat)
  /-- PARAM_KEY_WRITE, R535: A write to PARAM_KEY advances the parameter key sequence. -/
  | paramKeyWrite (value : Nat) (owner : Nat)
  /-- PARAM_COMMIT, R535: PARAM_CTRL.COMMIT after the keys makes the channels judge the staged parameter set. -/
  | paramCommit (owner : Nat)
  /-- HK_ROUND, R544: Every housekeeping round converts all 64 channels and updates levels, bands and supervision. -/
  | hkRound (raw : List (List Nat))
  /-- SLOWDOWN_SEND, R551: Every 100 ms during a request the slow-down datagram is sent. -/
  | slowdownSend
  /-- HEAD_SD_ACK, R552: A write to HEAD_SD_ACK clears a head shutdown latch when cool enough. -/
  | headSdAck (hi : Bool) (mask : Nat) (owner : Nat)
  /-- RAIL_STEP_DONE, R556: When every rail of a step is in window the sequencer waits DELAY_US and takes the next step. -/
  | railStepDone (readings : List (Nat × Nat))
  /-- RAIL_RISE_TIMEOUT, R558: A rail missing RISE_MS is at fault and stops the sequence. -/
  | railRiseTimeout (k : Nat)
  /-- RAIL_FALL_STEP, R557: When every rail of a step reads below 10 % or FALL_MS passes, the next step turns off. -/
  | railFallStep (readings : List (Nat × Nat))
  /-- PMBUS_POLL, R558: Every 1 ms the sequencer polls its PMBus rails. -/
  | pmbusPoll (readings : List (Nat × Nat × Nat))
  /-- PMBUS_TIMEOUT, R559: A PMBus transaction not done within 35 ms is retried once. -/
  | pmbusTimeout (k : Nat) (cmd : Nat)
  /-- PMB_ALERT, R559: PMB_ALERT_n asserted makes the sequencer read STATUS_WORD of every PMBus rail. -/
  | pmbAlert (words : List (Nat × Nat))
  /-- CLEAR_FAULT, R558: SEQ_CTRL.CLEAR_FAULT clears a rail fault whose rail is back in window. -/
  | clearFault (readings : List (Nat × Nat)) (owner : Nat)
  /-- CORE_OVERCURRENT, R561: A phase above PHASE_OC for 10 cycles stops switching. -/
  | coreOvercurrent (phase : Nat) (amps : Nat)
  /-- CORE_OUT_OF_WINDOW, R561: VDD_CORE outside its window for 100 µs is a fault of rail 0. -/
  | coreOutOfWindow (mv : Nat)
  /-- PHASE_SHED, R561: The load current crossing a shed threshold changes the number of switching phases. -/
  | phaseShed (load : Nat)
  /-- JOURNAL_RECORD_PROGRAMMED, R564: A journal record finishes programming and the next record or compaction follows. -/
  | journalRecordProgrammed (ok : Bool)
  /-- JOURNAL_CLOSE, R566: Thermal shutdown or Dormant entry completes the current record and programs CLOSE. -/
  | journalClose
  /-- JOURNAL_SAVE, R589: JOURNAL_CTRL.SAVE writes a page's ret fields as a journal object. -/
  | journalSave (pg : Nat) (owner : Nat)
  /-- CPU_WATCHDOG, R578: A host-core watchdog without a KICK for LIMIT ms bites and may reset the core. -/
  | cpuWatchdog (k : Nat)
  /-- WATCHDOG_KICK, R578: CPU_WD.KICK restarts a host core's watchdog count. -/
  | watchdogKick (k : Nat) (owner : Nat)
  /-- HOST_CORE_RELEASE, R585: Setting a CPU_CTRL.RELEASE bit starts host core k at HOST_ENTRY. -/
  | hostCoreRelease (mask : Nat) (owner : Nat)
  /-- TENDER_RUN, R582: A write of TENDER_CTRL.RUN halts or restarts a tender core. -/
  | tenderRun (mask : Nat) (owner : Nat)
  /-- TENDER_FAULT, R582: An unhandled trap or uncorrectable word halts the tender and raises CPU.TENDER_FAULT. -/
  | tenderFault (r : Nat) (kind : Nat) (addr : Nat)
  /-- CACHE_ERROR, R579: An uncorrectable cache error faults the access and raises CPU.CACHE_ERROR. -/
  | cacheError (core : Nat) (addr : Nat) (dirty : Bool)
  /-- BOOT_START, R585: Once the retained store is READY the boot ROM reads both slot headers. -/
  | bootStart (unread : Nat)
  /-- BOOT_CANDIDATE_END, R585: The checks of one boot candidate end, passing or failing. -/
  | bootCandidateEnd (errAt : Option Nat)
  /-- NOR_READ_PAGE, R588: NOR_CTRL.GO with OP 1 reads a NOR page into the buffer. -/
  | norReadPage (owner : Nat)
  /-- NOR_PROGRAM_PAGE, R588: NOR_CTRL.GO with OP 2 programs a NOR page from the buffer. -/
  | norProgramPage (owner : Nat)
  /-- NOR_ERASE_SECTOR, R588: NOR_CTRL.GO with OP 3 erases a 64 KiB NOR sector. -/
  | norEraseSector (owner : Nat)
  /-- NOR_OP_DONE, R588: A host NOR operation completes. -/
  | norOpDone
  /-- MBOX_PUSH, R590: A write to PUSH_HI pushes a 64-bit message into a mailbox FIFO. -/
  | mboxPush (m : Nat) (d : Nat) (hi : Nat) (owner : Nat)
  /-- MBOX_POP, R590: A read of POP_HI pops the oldest message. -/
  | mboxPop (m : Nat) (d : Nat) (owner : Nat)
  /-- CLAIM, R594: A read of CLAIM_k returns and claims the highest-priority pending interrupt. -/
  | claim (k : Nat)
  /-- COMPLETE, R594: A write to COMPLETE_k ends a claim. -/
  | complete (k : Nat) (ix : Nat) (owner : Nat)
  /-- L2_CLEAN, R576: L2_MAINT.GO with OP 1 cleans an L2 range. -/
  | l2Clean (owner : Nat)
  /-- L2_INVALIDATE, R576: L2_MAINT.GO with OP 2 invalidates an L2 range. -/
  | l2Invalidate (owner : Nat)
  /-- L2_CLEAN_INVALIDATE, R576: L2_MAINT.GO with OP 3 cleans and invalidates an L2 range. -/
  | l2CleanInvalidate (owner : Nat)
  /-- L2_MAINT_DONE, R576: An L2 maintenance operation completes and clears BUSY. -/
  | l2MaintDone (lines : List (Nat × List Nat))
  /-- PAIR_PLL_LOCK, R298: The pair-lane PLL of the hub die locks and both pair transmit lanes start sending blocks continuously, shown in PLANE_STATUS.PLL_LOCKED. -/
  | pairPllLock
  /-- MESSAGE_WHOLLY_SENT, R313: The last bit of a message on a head lane leaves, clearing BCFG_PENDING, starting the 1 ms wait of R316 after a final WAVE_LOAD and completing the sending of a LINE. -/
  | messageWhollySent (port : Nat)
  /-- TEST_SEQUENCE_LOCK, R320: In lane test mode the return receiver locks to the x^31 + x^28 + 1 sequence after 64 error-free bits and counts each later bit in error in RX_TEST_ERRORS. -/
  | testSequenceLock (port : Nat) (line : List Bool)
  /-- UPDATE_INTERVAL_EXPIRY, R378: MAX_INTERVAL seconds passing since a port's last accepted update, or since ENABLE, makes the port due and sets its DUE bit. -/
  | updateIntervalExpiry (p : Nat)
  /-- PARAM_KEY_TIMEOUT, R535: 100 µs passing after a key write without the next key or COMMIT ends the parameter key sequence without effect. -/
  | paramKeyTimeout
  /-- JOURNAL_ERASE_DONE, R564: The erase of the other journal area for compaction completes and the controller writes AREA_START, copies the latest objects and writes COMPACT_DONE. -/
  | journalEraseDone
  /-- EXTERNAL_POWER_LOSS, R623: Loss of external power in any state tears any journal program in progress, leaving the journal recoverable under R567 and the Sagger outputs off under R611. -/
  | externalPowerLoss
  deriving DecidableEq, Repr

end Sys2Proof
end

