-- ==== Sys2Proof/Machine/Codes.lean ====
section
/-! DEFINITION. Check codes over bytes and bits: CRC-32 of R135, Adler-32 of RFC 1950, the lane CRC and scrambler of R301 and
R302, and the ring CRC-8 of R41. -/

namespace Sys2Proof.Machine

/-- One bit of a reflected CRC with polynomial `poly`. -/
def crcBit (poly c : Nat) : Nat := if c % 2 = 1 then (c / 2) ^^^ poly else c / 2

/-- One byte of a reflected CRC. -/
def crcByte (poly c : Nat) (b : Byte) : Nat := (List.range 8).foldl (fun c _ => crcBit poly c) (c ^^^ b.toNat)

/-- CRC-32 of R135. -/
def crc32 (bs : List Byte) : Nat := (bs.foldl (crcByte 0xEDB88320) 0xFFFFFFFF) ^^^ 0xFFFFFFFF

/-- Adler-32 of RFC 1950. -/
def adler32 (bs : List Byte) : Nat :=
  let r := bs.foldl (fun (p : Nat × Nat) b =>
    let a := (p.1 + b.toNat) % 65521
    (a, (p.2 + a) % 65521)) (1, 0)
  r.2 * 65536 + r.1

/-- One bit of a CRC that shifts left, `w` bits wide. -/
def crcLeft (w poly c : Nat) (d : Bool) : Nat :=
  let top := (c / 2 ^ (w - 1) % 2 == 1) != d
  let c1 := c * 2 % 2 ^ w
  if top then c1 ^^^ poly else c1

/-- The CRC of a block payload, in transmission order (R302). -/
def laneCrc (bits : List Bool) : Nat := bits.foldl (crcLeft 16 0x1021) 0xFFFF

/-- The CHECK of a ring frame: CRC-8 with x^8 + x^2 + x + 1 (R41). -/
def ringCrc (bits : List Bool) : Nat := bits.foldl (crcLeft 8 0x07) 0

/-- The bits of a byte, least significant first. -/
def byteBits (b : Byte) : List Bool := (List.range 8).map (fun i => b.toNat / 2 ^ i % 2 == 1)

/-- The bits of bytes, least significant first (R299). -/
def bytesBits (bs : List Byte) : List Bool := bs.flatMap byteBits

/-- A number from bits, least significant first. -/
def bitsNat : List Bool → Nat
  | [] => 0
  | b :: bs => (if b then 1 else 0) + 2 * bitsNat bs

/-- Bytes from bits, least significant first; `n` bytes. -/
def bitsBytes : Nat → List Bool → List Byte
  | 0, _ => []
  | n + 1, bs => BitVec.ofNat 8 (bitsNat (bs.take 8)) :: bitsBytes n (bs.drop 8)

end Sys2Proof.Machine
end

