-- ==== Sys2Proof/Config.lean ====
section
/-! DEFINITION. What the spec leaves to the implementation or leaves open: constants without a body, so that no proof
can see their values, and the numbers of the modelled member, the KD48 (R1, Table 0-2). -/

namespace Sys2Proof

/-- A value that the spec does not give, the `n`-th one that the run has needed (`State.freeIx` counts them). -/
opaque Config.freeNat : Nat → Nat

/-- The value that the part uses for pi in the observer gains (R240), which the spec writes without a number format. -/
opaque Config.pi : Rat

/-- How the part rounds a real to a whole number where a rule gives a real value and no rounding. -/
opaque Config.roundReal : Rat → Int

/-- The signed square of the correlation coefficient that a tender core finds where a variance is 0 (R368), by the sums. -/
opaque Config.flatKappa : List Nat → Rat

/-- Where in a bin of a timing converter a measured phase stands, in fs from the bin's start: from the bin's width in 0.5 ps and its
number; taken modulo the width (R385). -/
opaque Config.inBin : Nat → Nat → Nat

/-- The DEFLATE stream, without framing, of a deflate engine for a source, LEVEL, SLICE_LINES and LINE_BYTES. R161 and R162 state
its properties (`streamConforms`) and not the search that makes it. -/
opaque Config.deflate : List (BitVec 8) → Nat → Nat → Nat → List (BitVec 8)

/-- XFL of the gzip header that a deflate engine writes, by LEVEL; R161 does not give it. -/
opaque Config.gzipXfl : Nat → BitVec 8

/-- What a job writes where R162 leaves no stream that meets R166, from the source and the number of bytes. -/
opaque Config.tightStream : List (BitVec 8) → Nat → List (BitVec 8)

/-- The number that `NET.RX_ERROR` shows for a kind of discarded frame: wrong FCS, runt, too long, MAC control, in the order of
R448; the spec names the kinds and not their numbers. -/
opaque Config.rxKind : Nat → Nat

/-- The bytes over which CFG_CRC is formed, from the register words of R498 in order; the spec does not lay them out. -/
opaque Config.cfgBytes : List Nat → List (BitVec 8)

/-- The payload byte of a COMPACT_DONE record, which the spec does not give (Table 17-7). -/
opaque Config.compactByte : BitVec 8

/-- What a byte of the NOR holds after a program of a byte that was not erased: from its old value and the new one. -/
opaque Config.norOver : BitVec 8 → BitVec 8 → BitVec 8

/-- What the input balls of a page show at an instant (ns) where no command carries them: the lanes of a camera link in high-speed
mode; MOD_ABS, RX_LOS and the remote fault received of a network port. -/
opaque Config.linesNow : Nat → Nat → Nat

/-- log2 of the bytes of the NOR device of the board: 32 MiB, the smallest that R583 allows. DESIGN CHOICE. -/
def Config.norSize : Nat := 25

/-- The fused minimum SEC_VERSION and the fused key hash of the modelled part (R585). DESIGN CHOICE. -/
def Config.minSecVersion : Nat := 0
def Config.keyHash : Nat := 0

/-- Head ports of the KD48 (Table 0-2). -/
def Config.ports : Nat := 48

/-- Clusters of the KD48 (Table 0-2). -/
def Config.clusters : Nat := 12

/-- Regions of the KD48, each with one tender core (Table 0-2). -/
def Config.regions : Nat := 4

end Sys2Proof
end

