-- ==== Sys2Proof/Machine/FieldTypes.lean ====
section
/-! DEFINITION. What a field table of the spec says of a field (R13, R15, R16, R10), and what Table 20-4 says of an
event. -/

namespace Sys2Proof.Machine

/-- Access codes, Table 0-4. -/
inductive Acc where
  | ro | rw | w1c | wo | rws
  deriving DecidableEq, Repr

/-- Field classes, Table 0-5: live, shadowed, held. -/
inductive Cls where
  | l | s | h
  deriving DecidableEq, Repr

/-- The column "After FUNC_RESET" (R16): the field keeps its value, takes a value, or is restored. -/
inductive Fr where
  | keep
  | to (v : Nat)
  | ret
  deriving DecidableEq, Repr

/-- The value after reset: one value, the page number's low byte, the instance number, or a value with exceptions. -/
inductive Dflt where
  | c (v : Nat)
  | page
  | idx
  | sp (v : Nat) (except : List (Nat × Nat))
  deriving DecidableEq, Repr

/-- One row of a field table, with `cnt` instances `stride` bytes apart. -/
structure Fld where
  off : Nat
  lo : Nat
  w : Nat
  acc : Acc
  cls : Cls
  dflt : Dflt
  fr : Fr
  cnt : Nat
  stride : Nat
  res : List (Nat × Nat)
  deriving DecidableEq, Repr

/-- A field with one instance and no reserved encoding. -/
def fld (off lo w : Nat) (acc : Acc) (cls : Cls) (dflt : Dflt) (fr : Fr) : Fld :=
  ⟨off, lo, w, acc, cls, dflt, fr, 1, 4, []⟩

/-- The same field repeated `cnt` times, `stride` bytes apart. -/
def Fld.arr (f : Fld) (cnt stride : Nat) : Fld := { f with cnt := cnt, stride := stride }

/-- The same field with reserved encodings, as inclusive ranges (R10). -/
def Fld.resv (f : Fld) (res : List (Nat × Nat)) : Fld := { f with res := res }

/-- An event of Table 20-4: code, severity, EVENT_STATUS bit, and the interval P of R633 in ns (0: none). -/
structure Ev where
  code : Nat
  sev : Nat
  bit : Nat
  rate : Nat
  deriving DecidableEq, Repr

end Sys2Proof.Machine
end

