-- ==== Sys2Proof/Machine/Events.lean ====
section
/-! DEFINITION. Table 20-4 with the EVENT_STATUS bits of the chapters' event tables (R88, R92, R631): code, severity of
Table 20-2 (0 information, 1 warning, 2 error, 3 fault), bit, and, in ns, the interval P of R633 (0: no such limit). -/

namespace Sys2Proof.Machine

/-- `POS.QUAD_ILLEGAL` -/
def Ev.posQuadIllegal : Ev := ⟨0x0100, 1, 0, 1000000⟩
/-- `POS.SWITCH_INVALID` -/
def Ev.posSwitchInvalid : Ev := ⟨0x0101, 1, 1, 1000000⟩
/-- `POS.SWITCH_SKIP` -/
def Ev.posSwitchSkip : Ev := ⟨0x0102, 1, 2, 1000000⟩
/-- `POS.INDEX_SLIP` -/
def Ev.posIndexSlip : Ev := ⟨0x0103, 1, 3, 0⟩
/-- `POS.SSI_ERROR` -/
def Ev.posSsiError : Ev := ⟨0x0104, 1, 4, 1000000⟩
/-- `POS.OBSERVER_UNLOCK` -/
def Ev.posObserverUnlock : Ev := ⟨0x0105, 1, 5, 0⟩
/-- `POS.REPLICA_MISMATCH` -/
def Ev.posReplicaMismatch : Ev := ⟨0x0106, 3, 6, 0⟩
/-- `POS.DIVIDER_LOST` -/
def Ev.posDividerLost : Ev := ⟨0x0110, 1, 0, 1000000⟩
/-- `POS.COMPARE_LATE` -/
def Ev.posCompareLate : Ev := ⟨0x0120, 1, 0, 0⟩
/-- `POS.COMPARE_MATCH` -/
def Ev.posCompareMatch : Ev := ⟨0x0121, 0, 1, 0⟩
/-- `FIRE.UNDERRUN` -/
def Ev.fireUnderrun : Ev := ⟨0x0200, 2, 0, 1000000⟩
/-- `FIRE.START_LATE` -/
def Ev.fireStartLate : Ev := ⟨0x0201, 1, 1, 0⟩
/-- `FIRE.OVERSPEED` -/
def Ev.fireOverspeed : Ev := ⟨0x0202, 1, 2, 1000000⟩
/-- `FIRE.BACKLOG_FAULT` -/
def Ev.fireBacklogFault : Ev := ⟨0x0203, 3, 3, 0⟩
/-- `FIRE.CONFIG_INVALID` -/
def Ev.fireConfigInvalid : Ev := ⟨0x0204, 2, 4, 0⟩
/-- `FIRE.PHASE_WRITE_DENIED` -/
def Ev.firePhaseWriteDenied : Ev := ⟨0x0205, 1, 5, 0⟩
/-- `FIRE.PREDICT_FALLBACK` -/
def Ev.firePredictFallback : Ev := ⟨0x0206, 1, 6, 0⟩
/-- `FIRE.OFFSET_CLIPPED` -/
def Ev.fireOffsetClipped : Ev := ⟨0x0207, 1, 7, 0⟩
/-- `FIRE.BUFFER_ERROR` -/
def Ev.fireBufferError : Ev := ⟨0x0208, 2, 8, 1000000⟩
/-- `FIRE.REPLAY_START` -/
def Ev.fireReplayStart : Ev := ⟨0x0209, 0, 9, 0⟩
/-- `FIRE.REPLAY_ERROR` -/
def Ev.fireReplayError : Ev := ⟨0x020A, 2, 10, 1000000⟩
/-- `FIRE.CLUSTER_FAULT` -/
def Ev.fireClusterFault : Ev := ⟨0x0210, 3, 0, 0⟩
/-- `LANE.RX_LOCK_LOST` -/
def Ev.laneRxLockLost : Ev := ⟨0x0300, 2, 0, 0⟩
/-- `LANE.RX_BLOCK_ERROR` -/
def Ev.laneRxBlockError : Ev := ⟨0x0301, 1, 1, 1000000⟩
/-- `LANE.MSG_BAD` -/
def Ev.laneMsgBad : Ev := ⟨0x0302, 1, 2, 1000000⟩
/-- `LANE.BRIDGE_SILENT` -/
def Ev.laneBridgeSilent : Ev := ⟨0x0303, 2, 3, 0⟩
/-- `LANE.TEMP_STALE` -/
def Ev.laneTempStale : Ev := ⟨0x0304, 1, 4, 0⟩
/-- `LANE.WAVE_LOAD_FAIL` -/
def Ev.laneWaveLoadFail : Ev := ⟨0x0305, 2, 5, 0⟩
/-- `LANE.WAVE_DL_REFUSED` -/
def Ev.laneWaveDlRefused : Ev := ⟨0x0306, 1, 6, 0⟩
/-- `LANE.BRIDGE_FAULT` -/
def Ev.laneBridgeFault : Ev := ⟨0x0307, 2, 7, 0⟩
/-- `LANE.WRONG_PORT` -/
def Ev.laneWrongPort : Ev := ⟨0x0308, 2, 8, 0⟩
/-- `LANE.LEASE_CONFLICT` -/
def Ev.laneLeaseConflict : Ev := ⟨0x0309, 2, 9, 0⟩
/-- `INGEST.FOLIO_MALFORMED` -/
def Ev.ingestFolioMalformed : Ev := ⟨0x0400, 2, 0, 0⟩
/-- `INGEST.FOLIO_LATE` -/
def Ev.ingestFolioLate : Ev := ⟨0x0401, 2, 1, 0⟩
/-- `INGEST.FOLIO_STALE` -/
def Ev.ingestFolioStale : Ev := ⟨0x0402, 1, 2, 0⟩
/-- `INGEST.ITEM_INVALID` -/
def Ev.ingestItemInvalid : Ev := ⟨0x0403, 2, 3, 0⟩
/-- `INGEST.CACHE_FULL` -/
def Ev.ingestCacheFull : Ev := ⟨0x0404, 1, 4, 0⟩
/-- `INGEST.RING_FULL` -/
def Ev.ingestRingFull : Ev := ⟨0x0405, 2, 5, 0⟩
/-- `INGEST.CHUNK_BAD` -/
def Ev.ingestChunkBad : Ev := ⟨0x0406, 1, 6, 0⟩
/-- `INGEST.STRIP_MISSING` -/
def Ev.ingestStripMissing : Ev := ⟨0x0413, 2, 3, 0⟩
/-- `CODEC.OUT_FULL` -/
def Ev.codecOutFull : Ev := ⟨0x0500, 2, 0, 0⟩
/-- `CODEC.JOB_FAILED` -/
def Ev.codecJobFailed : Ev := ⟨0x0501, 2, 1, 0⟩
/-- `CODEC.JOB_DONE` -/
def Ev.codecJobDone : Ev := ⟨0x0502, 0, 2, 0⟩
/-- `CODEC.CHECK_FAIL` -/
def Ev.codecCheckFail : Ev := ⟨0x0510, 2, 0, 0⟩
/-- `CODEC.STREAM_ERROR` -/
def Ev.codecStreamError : Ev := ⟨0x0511, 2, 1, 0⟩
/-- `CODEC.SLICE_MISS` -/
def Ev.codecSliceMiss : Ev := ⟨0x0512, 1, 2, 0⟩
/-- `GLAZE.TILE_INVALID` -/
def Ev.glazeTileInvalid : Ev := ⟨0x0600, 2, 0, 0⟩
/-- `GLAZE.TILE_MISSING` -/
def Ev.glazeTileMissing : Ev := ⟨0x0601, 2, 1, 0⟩
/-- `GLAZE.OVERLAY_LATE` -/
def Ev.glazeOverlayLate : Ev := ⟨0x0602, 1, 2, 0⟩
/-- `GLAZE.RECT_INVALID` -/
def Ev.glazeRectInvalid : Ev := ⟨0x0603, 1, 3, 0⟩
/-- `GLAZE.RECT_LIST_MISSING` -/
def Ev.glazeRectListMissing : Ev := ⟨0x0604, 1, 4, 0⟩
/-- `SCREEN.SLOT_IN_USE` -/
def Ev.screenSlotInUse : Ev := ⟨0x0700, 1, 0, 0⟩
/-- `SCREEN.CONFIG_INVALID` -/
def Ev.screenConfigInvalid : Ev := ⟨0x0701, 2, 1, 0⟩
/-- `SCREEN.TABLE_ERROR` -/
def Ev.screenTableError : Ev := ⟨0x0702, 2, 2, 0⟩
/-- `CAM.CRC_ERROR` -/
def Ev.camCrcError : Ev := ⟨0x0800, 1, 0, 1000000⟩
/-- `CAM.HEADER_DROP` -/
def Ev.camHeaderDrop : Ev := ⟨0x0801, 1, 1, 1000000⟩
/-- `CAM.PACKET_UNKNOWN` -/
def Ev.camPacketUnknown : Ev := ⟨0x0802, 1, 2, 1000000⟩
/-- `CAM.PHY_ERROR` -/
def Ev.camPhyError : Ev := ⟨0x0803, 1, 3, 1000000⟩
/-- `CAM.FRAME_MARKED` -/
def Ev.camFrameMarked : Ev := ⟨0x0804, 1, 4, 0⟩
/-- `CAM.TAG_SLIP` -/
def Ev.camTagSlip : Ev := ⟨0x0805, 1, 5, 1000000⟩
/-- `CAM.OVERFLOW` -/
def Ev.camOverflow : Ev := ⟨0x0806, 2, 6, 0⟩
/-- `CAM.EXPOSURE_LATE` -/
def Ev.camExposureLate : Ev := ⟨0x0807, 1, 7, 0⟩
/-- `CAM.CCI_NACK` -/
def Ev.camCciNack : Ev := ⟨0x0808, 2, 8, 0⟩
/-- `CAM.LINK_SILENT` -/
def Ev.camLinkSilent : Ev := ⟨0x0809, 2, 9, 0⟩
/-- `CAM.CONFIG_INVALID` -/
def Ev.camConfigInvalid : Ev := ⟨0x0810, 2, 0, 0⟩
/-- `CAM.STATS_OVERFLOW` -/
def Ev.camStatsOverflow : Ev := ⟨0x0811, 1, 1, 0⟩
/-- `CAM.PIPE_ERROR` -/
def Ev.camPipeError : Ev := ⟨0x0812, 2, 2, 0⟩
/-- `CAM.TAP_DROP` -/
def Ev.camTapDrop : Ev := ⟨0x0820, 1, 0, 1000000⟩
/-- `CAM.TAP_DONE` -/
def Ev.camTapDone : Ev := ⟨0x0821, 0, 1, 0⟩
/-- `DTRK.UPDATE_REJECTED` -/
def Ev.dtrkUpdateRejected : Ev := ⟨0x0900, 1, 0, 0⟩
/-- `DTRK.UPDATE_ACCEPTED` -/
def Ev.dtrkUpdateAccepted : Ev := ⟨0x0901, 0, 1, 0⟩
/-- `DTRK.NOZZLE_OUT` -/
def Ev.dtrkNozzleOut : Ev := ⟨0x0902, 2, 2, 0⟩
/-- `DTRK.LAG_STEP` -/
def Ev.dtrkLagStep : Ev := ⟨0x0903, 1, 3, 0⟩
/-- `DTRK.SOLVE_SKIPPED` -/
def Ev.dtrkSolveSkipped : Ev := ⟨0x0904, 1, 4, 0⟩
/-- `DTRK.UPDATE_DEFERRED` -/
def Ev.dtrkUpdateDeferred : Ev := ⟨0x0905, 1, 5, 0⟩
/-- `DTRK.CONFIG_INVALID` -/
def Ev.dtrkConfigInvalid : Ev := ⟨0x0906, 2, 6, 0⟩
/-- `DTRK.PROOF_DROP` -/
def Ev.dtrkProofDrop : Ev := ⟨0x0907, 1, 7, 1000000⟩
/-- `DTRK.ROW_MISS` -/
def Ev.dtrkRowMiss : Ev := ⟨0x0908, 1, 8, 1000000⟩
/-- `DTRK.CAL_SAVE_FAIL` -/
def Ev.dtrkCalSaveFail : Ev := ⟨0x0910, 2, 0, 0⟩
/-- `DTRK.CAL_APPLY_DONE` -/
def Ev.dtrkCalApplyDone : Ev := ⟨0x0911, 0, 1, 0⟩
/-- `TDC.RUN_ACCEPTED` -/
def Ev.tdcRunAccepted : Ev := ⟨0x0A00, 0, 0, 0⟩
/-- `TDC.RUN_REJECTED` -/
def Ev.tdcRunRejected : Ev := ⟨0x0A01, 1, 1, 0⟩
/-- `MEM.ECC_CORRECTED` -/
def Ev.memEccCorrected : Ev := ⟨0x0B00, 1, 0, 1000000⟩
/-- `MEM.ECC_UNCORRECTED` -/
def Ev.memEccUncorrected : Ev := ⟨0x0B01, 2, 1, 0⟩
/-- `MEM.CA_PARITY_RETRY` -/
def Ev.memCaParityRetry : Ev := ⟨0x0B02, 1, 2, 1000000⟩
/-- `MEM.CA_PARITY_FAIL` -/
def Ev.memCaParityFail : Ev := ⟨0x0B03, 3, 3, 0⟩
/-- `MEM.TRAIN_FAIL` -/
def Ev.memTrainFail : Ev := ⟨0x0B04, 3, 4, 0⟩
/-- `MEM.REFRESH_BAND` -/
def Ev.memRefreshBand : Ev := ⟨0x0B05, 0, 5, 0⟩
/-- `MEM.OVERTEMP` -/
def Ev.memOvertemp : Ev := ⟨0x0B06, 3, 6, 0⟩
/-- `MEM.TEMP_STALE` -/
def Ev.memTempStale : Ev := ⟨0x0B07, 1, 7, 0⟩
/-- `MEM.ADDR_RANGE` -/
def Ev.memAddrRange : Ev := ⟨0x0B10, 2, 0, 0⟩
/-- `MEM.RETUNE_REFUSED` -/
def Ev.memRetuneRefused : Ev := ⟨0x0B11, 1, 1, 0⟩
/-- `MEM.FREQ_DONE` -/
def Ev.memFreqDone : Ev := ⟨0x0B12, 0, 2, 0⟩
/-- `STK.SRAM_CORRECTED` -/
def Ev.stkSramCorrected : Ev := ⟨0x0C00, 1, 0, 1000000⟩
/-- `STK.SRAM_UNCORRECTED` -/
def Ev.stkSramUncorrected : Ev := ⟨0x0C01, 2, 1, 0⟩
/-- `STK.WATCHDOG` -/
def Ev.stkWatchdog : Ev := ⟨0x0C10, 3, 0, 0⟩
/-- `STK.DIE_LINK_RETRY` -/
def Ev.stkDieLinkRetry : Ev := ⟨0x0C11, 1, 1, 0⟩
/-- `STK.DIE_LINK_DOWN` -/
def Ev.stkDieLinkDown : Ev := ⟨0x0C12, 3, 2, 0⟩
/-- `NET.LINK_UP` -/
def Ev.netLinkUp : Ev := ⟨0x0D00, 0, 0, 0⟩
/-- `NET.LINK_DOWN` -/
def Ev.netLinkDown : Ev := ⟨0x0D01, 2, 1, 0⟩
/-- `NET.FEC_UNCORRECTED` -/
def Ev.netFecUncorrected : Ev := ⟨0x0D02, 1, 2, 1000000⟩
/-- `NET.RX_ERROR` -/
def Ev.netRxError : Ev := ⟨0x0D03, 1, 3, 1000000⟩
/-- `NET.BUFFER_DROP` -/
def Ev.netBufferDrop : Ev := ⟨0x0D10, 1, 0, 1000000⟩
/-- `NET.HOST_RING_FULL` -/
def Ev.netHostRingFull : Ev := ⟨0x0D11, 1, 1, 0⟩
/-- `NET.ADDR_CONFLICT` -/
def Ev.netAddrConflict : Ev := ⟨0x0D12, 2, 2, 1000000000⟩
/-- `PTP.STEP` -/
def Ev.ptpStep : Ev := ⟨0x0E00, 0, 0, 0⟩
/-- `PTP.LOCKED` -/
def Ev.ptpLocked : Ev := ⟨0x0E01, 0, 1, 0⟩
/-- `PTP.HOLDOVER` -/
def Ev.ptpHoldover : Ev := ⟨0x0E02, 1, 2, 0⟩
/-- `PTP.MASTER_CHANGE` -/
def Ev.ptpMasterChange : Ev := ⟨0x0E03, 1, 3, 0⟩
/-- `PTP.OFFSET_OUTLIER` -/
def Ev.ptpOffsetOutlier : Ev := ⟨0x0E04, 1, 4, 1000000000⟩
/-- `PTP.TC_NO_MATCH` -/
def Ev.ptpTcNoMatch : Ev := ⟨0x0E05, 1, 5, 1000000⟩
/-- `PTP.ADDR_CONFLICT` -/
def Ev.ptpAddrConflict : Ev := ⟨0x0E06, 2, 6, 1000000000⟩
/-- `PTP.TRIGGER_LATE` -/
def Ev.ptpTriggerLate : Ev := ⟨0x0E10, 1, 0, 0⟩
/-- `PTP.CAPTURE_OVERFLOW` -/
def Ev.ptpCaptureOverflow : Ev := ⟨0x0E11, 1, 1, 0⟩
/-- `PAIR.DIVERGED` -/
def Ev.pairDiverged : Ev := ⟨0x0F00, 2, 0, 1000000⟩
/-- `PAIR.TAKEOVER` -/
def Ev.pairTakeover : Ev := ⟨0x0F01, 3, 1, 0⟩
/-- `PAIR.FENCED` -/
def Ev.pairFenced : Ev := ⟨0x0F02, 3, 2, 0⟩
/-- `PAIR.HB_LOST` -/
def Ev.pairHbLost : Ev := ⟨0x0F03, 1, 3, 0⟩
/-- `PAIR.HB_RESTORED` -/
def Ev.pairHbRestored : Ev := ⟨0x0F04, 0, 4, 0⟩
/-- `PAIR.CFG_MISMATCH` -/
def Ev.pairCfgMismatch : Ev := ⟨0x0F05, 2, 5, 0⟩
/-- `PAIR.COUNT_SLIP` -/
def Ev.pairCountSlip : Ev := ⟨0x0F06, 2, 6, 0⟩
/-- `PAIR.MIRROR_LATE` -/
def Ev.pairMirrorLate : Ev := ⟨0x0F07, 1, 7, 0⟩
/-- `PAIR.SNAP_DONE` -/
def Ev.pairSnapDone : Ev := ⟨0x0F08, 0, 8, 0⟩
/-- `PAIR.SNAP_FAIL` -/
def Ev.pairSnapFail : Ev := ⟨0x0F09, 2, 9, 0⟩
/-- `PAIR.JOINED` -/
def Ev.pairJoined : Ev := ⟨0x0F0A, 0, 10, 0⟩
/-- `PAIR.RENEW_MISSED` -/
def Ev.pairRenewMissed : Ev := ⟨0x0F0B, 1, 11, 1000000⟩
/-- `SAG.STATE_CHANGE` -/
def Ev.sagStateChange : Ev := ⟨0x1000, 1, 0, 0⟩
/-- `SAG.TRIP` -/
def Ev.sagTrip : Ev := ⟨0x1001, 3, 1, 0⟩
/-- `SAG.CHANNEL_LOST` -/
def Ev.sagChannelLost : Ev := ⟨0x1002, 3, 2, 0⟩
/-- `SAG.DIAG_FAULT` -/
def Ev.sagDiagFault : Ev := ⟨0x1003, 2, 3, 0⟩
/-- `SAG.PARAM_ACCEPTED` -/
def Ev.sagParamAccepted : Ev := ⟨0x1004, 0, 4, 0⟩
/-- `SAG.PARAM_REJECTED` -/
def Ev.sagParamRejected : Ev := ⟨0x1005, 1, 5, 0⟩
/-- `SAG.RESTART_REFUSED` -/
def Ev.sagRestartRefused : Ev := ⟨0x1006, 1, 6, 0⟩
/-- `THERM.ADC_FAULT` -/
def Ev.thermAdcFault : Ev := ⟨0x1100, 2, 0, 1000000000⟩
/-- `THERM.SENSOR_FAULT` -/
def Ev.thermSensorFault : Ev := ⟨0x1101, 1, 1, 0⟩
/-- `THERM.SENSOR_DISAGREE` -/
def Ev.thermSensorDisagree : Ev := ⟨0x1102, 1, 2, 0⟩
/-- `THERM.DIE_LEVEL` -/
def Ev.thermDieLevel : Ev := ⟨0x1110, 1, 0, 0⟩
/-- `THERM.HEAD_LEVEL` -/
def Ev.thermHeadLevel : Ev := ⟨0x1111, 1, 1, 0⟩
/-- `THERM.BAND_CHANGE` -/
def Ev.thermBandChange : Ev := ⟨0x1112, 0, 2, 0⟩
/-- `THERM.TIMING_BAND` -/
def Ev.thermTimingBand : Ev := ⟨0x1113, 0, 3, 0⟩
/-- `THERM.SLOWDOWN_REQ` -/
def Ev.thermSlowdownReq : Ev := ⟨0x1114, 1, 4, 0⟩
/-- `THERM.CONFIG_INVALID` -/
def Ev.thermConfigInvalid : Ev := ⟨0x1115, 2, 5, 0⟩
/-- `PWR.SEQ_DONE` -/
def Ev.pwrSeqDone : Ev := ⟨0x1200, 0, 0, 0⟩
/-- `PWR.RAIL_FAULT` -/
def Ev.pwrRailFault : Ev := ⟨0x1201, 3, 1, 0⟩
/-- `PWR.PMBUS_ERROR` -/
def Ev.pwrPmbusError : Ev := ⟨0x1202, 1, 2, 1000000000⟩
/-- `PWR.CORE_FAULT` -/
def Ev.pwrCoreFault : Ev := ⟨0x1210, 3, 0, 0⟩
/-- `PWR.DRIVE_FAULT` -/
def Ev.pwrDriveFault : Ev := ⟨0x1220, 3, 0, 0⟩
/-- `PWR.JOURNAL_RECOVERED` -/
def Ev.pwrJournalRecovered : Ev := ⟨0x1230, 0, 0, 0⟩
/-- `BOOT.DONE` -/
def Ev.bootDone : Ev := ⟨0x1300, 0, 0, 0⟩
/-- `BOOT.IMAGE_FAIL` -/
def Ev.bootImageFail : Ev := ⟨0x1301, 2, 1, 0⟩
/-- `BOOT.NO_IMAGE` -/
def Ev.bootNoImage : Ev := ⟨0x1302, 3, 2, 0⟩
/-- `BOOT.NOR_REFUSED` -/
def Ev.bootNorRefused : Ev := ⟨0x1311, 1, 1, 0⟩
/-- `BOOT.SAVE_FAIL` -/
def Ev.bootSaveFail : Ev := ⟨0x1312, 2, 2, 0⟩
/-- `CPU.WATCHDOG` -/
def Ev.cpuWatchdog : Ev := ⟨0x1403, 3, 3, 0⟩
/-- `CPU.TENDER_FAULT` -/
def Ev.cpuTenderFault : Ev := ⟨0x1404, 3, 4, 0⟩
/-- `CPU.CACHE_ERROR` -/
def Ev.cpuCacheError : Ev := ⟨0x1405, 2, 5, 1000000⟩
/-- `CPU.MBOX_FULL` -/
def Ev.cpuMboxFull : Ev := ⟨0x1410, 1, 0, 0⟩
/-- `CPU.MBOX_DENIED` -/
def Ev.cpuMboxDenied : Ev := ⟨0x1411, 1, 1, 0⟩
/-- `REG.COMMIT_REFUSED` -/
def Ev.regCommitRefused : Ev := ⟨0x151A, 1, 26, 0⟩
/-- `REG.WRITE_LOCKED_OUT` -/
def Ev.regWriteLockedOut : Ev := ⟨0x151C, 1, 28, 0⟩
/-- `REG.WRITE_WHILE_FROZEN` -/
def Ev.regWriteWhileFrozen : Ev := ⟨0x151D, 1, 29, 0⟩
/-- `REG.COMMIT_LATE` -/
def Ev.regCommitLate : Ev := ⟨0x151E, 1, 30, 0⟩
/-- `REG.WRITE_WHILE_RUNNING` -/
def Ev.regWriteWhileRunning : Ev := ⟨0x151F, 1, 31, 0⟩
/-- `REG.MODE_CHANGE` -/
def Ev.regModeChange : Ev := ⟨0x1520, 0, 0, 0⟩
/-- `REG.MODE_REFUSED` -/
def Ev.regModeRefused : Ev := ⟨0x1521, 1, 1, 0⟩
/-- `REG.BISQUE_TIMEOUT` -/
def Ev.regBisqueTimeout : Ev := ⟨0x1522, 2, 2, 0⟩
/-- `REG.GROUP_INVALID` -/
def Ev.regGroupInvalid : Ev := ⟨0x1523, 2, 3, 0⟩
/-- `REG.GROUP_BROKEN` -/
def Ev.regGroupBroken : Ev := ⟨0x1524, 2, 4, 0⟩
/-- `REG.FUNC_RESET` -/
def Ev.regFuncReset : Ev := ⟨0x1530, 1, 0, 0⟩
/-- `REG.RING_ERROR` -/
def Ev.regRingError : Ev := ⟨0x1531, 2, 1, 0⟩
/-- `REG.QUIESCE_TIMEOUT` -/
def Ev.regQuiesceTimeout : Ev := ⟨0x1532, 2, 2, 0⟩
/-- `REG.RESTORE_FAIL` -/
def Ev.regRestoreFail : Ev := ⟨0x1533, 2, 3, 0⟩
/-- `REG.UNMAPPED_ACCESS` -/
def Ev.regUnmappedAccess : Ev := ⟨0x1534, 1, 4, 0⟩
/-- `LOCK.WRITE_DENIED` -/
def Ev.lockWriteDenied : Ev := ⟨0x161B, 1, 27, 0⟩
/-- `LOCK.BROKEN` -/
def Ev.lockBroken : Ev := ⟨0x1600, 2, 0, 0⟩
/-- `LOCK.RELEASE_DENIED` -/
def Ev.lockReleaseDenied : Ev := ⟨0x1601, 1, 1, 0⟩
/-- Every event of Table 20-4. -/
def eventTable : List Ev :=
  [Ev.posQuadIllegal, Ev.posSwitchInvalid, Ev.posSwitchSkip, Ev.posIndexSlip, Ev.posSsiError, Ev.posObserverUnlock, Ev.posReplicaMismatch, Ev.posDividerLost, Ev.posCompareLate, Ev.posCompareMatch, Ev.fireUnderrun, Ev.fireStartLate] ++
  [Ev.fireOverspeed, Ev.fireBacklogFault, Ev.fireConfigInvalid, Ev.firePhaseWriteDenied, Ev.firePredictFallback, Ev.fireOffsetClipped, Ev.fireBufferError, Ev.fireReplayStart, Ev.fireReplayError, Ev.fireClusterFault, Ev.laneRxLockLost, Ev.laneRxBlockError] ++
  [Ev.laneMsgBad, Ev.laneBridgeSilent, Ev.laneTempStale, Ev.laneWaveLoadFail, Ev.laneWaveDlRefused, Ev.laneBridgeFault, Ev.laneWrongPort, Ev.laneLeaseConflict, Ev.ingestFolioMalformed, Ev.ingestFolioLate, Ev.ingestFolioStale, Ev.ingestItemInvalid] ++
  [Ev.ingestCacheFull, Ev.ingestRingFull, Ev.ingestChunkBad, Ev.ingestStripMissing, Ev.codecOutFull, Ev.codecJobFailed, Ev.codecJobDone, Ev.codecCheckFail, Ev.codecStreamError, Ev.codecSliceMiss, Ev.glazeTileInvalid, Ev.glazeTileMissing] ++
  [Ev.glazeOverlayLate, Ev.glazeRectInvalid, Ev.glazeRectListMissing, Ev.screenSlotInUse, Ev.screenConfigInvalid, Ev.screenTableError, Ev.camCrcError, Ev.camHeaderDrop, Ev.camPacketUnknown, Ev.camPhyError, Ev.camFrameMarked, Ev.camTagSlip] ++
  [Ev.camOverflow, Ev.camExposureLate, Ev.camCciNack, Ev.camLinkSilent, Ev.camConfigInvalid, Ev.camStatsOverflow, Ev.camPipeError, Ev.camTapDrop, Ev.camTapDone, Ev.dtrkUpdateRejected, Ev.dtrkUpdateAccepted, Ev.dtrkNozzleOut] ++
  [Ev.dtrkLagStep, Ev.dtrkSolveSkipped, Ev.dtrkUpdateDeferred, Ev.dtrkConfigInvalid, Ev.dtrkProofDrop, Ev.dtrkRowMiss, Ev.dtrkCalSaveFail, Ev.dtrkCalApplyDone, Ev.tdcRunAccepted, Ev.tdcRunRejected, Ev.memEccCorrected, Ev.memEccUncorrected] ++
  [Ev.memCaParityRetry, Ev.memCaParityFail, Ev.memTrainFail, Ev.memRefreshBand, Ev.memOvertemp, Ev.memTempStale, Ev.memAddrRange, Ev.memRetuneRefused, Ev.memFreqDone, Ev.stkSramCorrected, Ev.stkSramUncorrected, Ev.stkWatchdog] ++
  [Ev.stkDieLinkRetry, Ev.stkDieLinkDown, Ev.netLinkUp, Ev.netLinkDown, Ev.netFecUncorrected, Ev.netRxError, Ev.netBufferDrop, Ev.netHostRingFull, Ev.netAddrConflict, Ev.ptpStep, Ev.ptpLocked, Ev.ptpHoldover] ++
  [Ev.ptpMasterChange, Ev.ptpOffsetOutlier, Ev.ptpTcNoMatch, Ev.ptpAddrConflict, Ev.ptpTriggerLate, Ev.ptpCaptureOverflow, Ev.pairDiverged, Ev.pairTakeover, Ev.pairFenced, Ev.pairHbLost, Ev.pairHbRestored, Ev.pairCfgMismatch] ++
  [Ev.pairCountSlip, Ev.pairMirrorLate, Ev.pairSnapDone, Ev.pairSnapFail, Ev.pairJoined, Ev.pairRenewMissed, Ev.sagStateChange, Ev.sagTrip, Ev.sagChannelLost, Ev.sagDiagFault, Ev.sagParamAccepted, Ev.sagParamRejected] ++
  [Ev.sagRestartRefused, Ev.thermAdcFault, Ev.thermSensorFault, Ev.thermSensorDisagree, Ev.thermDieLevel, Ev.thermHeadLevel, Ev.thermBandChange, Ev.thermTimingBand, Ev.thermSlowdownReq, Ev.thermConfigInvalid, Ev.pwrSeqDone, Ev.pwrRailFault] ++
  [Ev.pwrPmbusError, Ev.pwrCoreFault, Ev.pwrDriveFault, Ev.pwrJournalRecovered, Ev.bootDone, Ev.bootImageFail, Ev.bootNoImage, Ev.bootNorRefused, Ev.bootSaveFail, Ev.cpuWatchdog, Ev.cpuTenderFault, Ev.cpuCacheError] ++
  [Ev.cpuMboxFull, Ev.cpuMboxDenied, Ev.regCommitRefused, Ev.regWriteLockedOut, Ev.regWriteWhileFrozen, Ev.regCommitLate, Ev.regWriteWhileRunning, Ev.regModeChange, Ev.regModeRefused, Ev.regBisqueTimeout, Ev.regGroupInvalid, Ev.regGroupBroken] ++
  [Ev.regFuncReset, Ev.regRingError, Ev.regQuiesceTimeout, Ev.regRestoreFail, Ev.regUnmappedAccess, Ev.lockWriteDenied, Ev.lockBroken, Ev.lockReleaseDenied]
/-- The events that a page raises, the common ones of R88 among them. -/
def pageEvents (pg : Nat) : List Ev :=
  [Ev.regCommitRefused, Ev.regWriteLockedOut, Ev.regWriteWhileFrozen, Ev.regCommitLate, Ev.regWriteWhileRunning, Ev.lockWriteDenied] ++
  (if 2 ≤ pg ∧ pg < 3 then [Ev.regModeChange, Ev.regModeRefused, Ev.regBisqueTimeout, Ev.regGroupInvalid, Ev.regGroupBroken]
  else if 3 ≤ pg ∧ pg < 4 then [Ev.regFuncReset, Ev.regRingError, Ev.regQuiesceTimeout, Ev.regRestoreFail, Ev.regUnmappedAccess]
  else if 4 ≤ pg ∧ pg < 5 then [Ev.lockBroken, Ev.lockReleaseDenied]
  else if 8 ≤ pg ∧ pg < 12 then [Ev.posQuadIllegal, Ev.posSwitchInvalid, Ev.posSwitchSkip, Ev.posIndexSlip, Ev.posSsiError, Ev.posObserverUnlock, Ev.posReplicaMismatch]
  else if 12 ≤ pg ∧ pg < 13 then [Ev.posDividerLost]
  else if 13 ≤ pg ∧ pg < 14 then [Ev.posCompareLate, Ev.posCompareMatch]
  else if 16 ≤ pg ∧ pg < 64 then [Ev.fireUnderrun, Ev.fireStartLate, Ev.fireOverspeed, Ev.fireBacklogFault, Ev.fireConfigInvalid, Ev.firePhaseWriteDenied, Ev.firePredictFallback, Ev.fireOffsetClipped, Ev.fireBufferError, Ev.fireReplayStart, Ev.fireReplayError]
  else if 64 ≤ pg ∧ pg < 76 then [Ev.fireClusterFault]
  else if 80 ≤ pg ∧ pg < 92 then [Ev.laneRxLockLost, Ev.laneRxBlockError, Ev.laneMsgBad, Ev.laneBridgeSilent, Ev.laneTempStale, Ev.laneWaveLoadFail, Ev.laneWaveDlRefused, Ev.laneBridgeFault, Ev.laneWrongPort, Ev.laneLeaseConflict]
  else if 96 ≤ pg ∧ pg < 97 then [Ev.ingestFolioMalformed, Ev.ingestFolioLate, Ev.ingestFolioStale, Ev.ingestItemInvalid, Ev.ingestCacheFull, Ev.ingestRingFull, Ev.ingestChunkBad]
  else if 97 ≤ pg ∧ pg < 98 then [Ev.codecOutFull, Ev.codecJobFailed, Ev.codecJobDone]
  else if 98 ≤ pg ∧ pg < 102 then [Ev.ingestStripMissing, Ev.codecCheckFail, Ev.codecStreamError, Ev.codecSliceMiss]
  else if 104 ≤ pg ∧ pg < 108 then [Ev.glazeTileInvalid, Ev.glazeTileMissing, Ev.glazeOverlayLate, Ev.glazeRectInvalid, Ev.glazeRectListMissing]
  else if 108 ≤ pg ∧ pg < 112 then [Ev.screenSlotInUse, Ev.screenConfigInvalid, Ev.screenTableError]
  else if 112 ≤ pg ∧ pg < 115 then [Ev.camCrcError, Ev.camHeaderDrop, Ev.camPacketUnknown, Ev.camPhyError, Ev.camFrameMarked, Ev.camTagSlip, Ev.camOverflow, Ev.camExposureLate, Ev.camCciNack, Ev.camLinkSilent]
  else if 115 ≤ pg ∧ pg < 116 then [Ev.camConfigInvalid, Ev.camStatsOverflow, Ev.camPipeError]
  else if 116 ≤ pg ∧ pg < 117 then [Ev.camTapDrop, Ev.camTapDone]
  else if 120 ≤ pg ∧ pg < 121 then [Ev.dtrkUpdateRejected, Ev.dtrkUpdateAccepted, Ev.dtrkNozzleOut, Ev.dtrkLagStep, Ev.dtrkSolveSkipped, Ev.dtrkUpdateDeferred, Ev.dtrkConfigInvalid, Ev.dtrkProofDrop, Ev.dtrkRowMiss]
  else if 121 ≤ pg ∧ pg < 122 then [Ev.tdcRunAccepted, Ev.tdcRunRejected]
  else if 122 ≤ pg ∧ pg < 123 then [Ev.dtrkCalSaveFail, Ev.dtrkCalApplyDone]
  else if 128 ≤ pg ∧ pg < 132 then [Ev.memEccCorrected, Ev.memEccUncorrected, Ev.memCaParityRetry, Ev.memCaParityFail, Ev.memTrainFail, Ev.memRefreshBand, Ev.memOvertemp, Ev.memTempStale]
  else if 132 ≤ pg ∧ pg < 133 then [Ev.memAddrRange, Ev.memRetuneRefused, Ev.memFreqDone]
  else if 133 ≤ pg ∧ pg < 134 then [Ev.stkSramCorrected, Ev.stkSramUncorrected]
  else if 134 ≤ pg ∧ pg < 135 then [Ev.stkWatchdog, Ev.stkDieLinkRetry, Ev.stkDieLinkDown]
  else if 144 ≤ pg ∧ pg < 146 then [Ev.netLinkUp, Ev.netLinkDown, Ev.netFecUncorrected, Ev.netRxError]
  else if 146 ≤ pg ∧ pg < 147 then [Ev.netBufferDrop, Ev.netHostRingFull, Ev.netAddrConflict]
  else if 147 ≤ pg ∧ pg < 148 then [Ev.ptpStep, Ev.ptpLocked, Ev.ptpHoldover, Ev.ptpMasterChange, Ev.ptpOffsetOutlier, Ev.ptpTcNoMatch, Ev.ptpAddrConflict]
  else if 148 ≤ pg ∧ pg < 149 then [Ev.ptpTriggerLate, Ev.ptpCaptureOverflow]
  else if 152 ≤ pg ∧ pg < 153 then [Ev.pairDiverged, Ev.pairTakeover, Ev.pairFenced, Ev.pairHbLost, Ev.pairHbRestored, Ev.pairCfgMismatch, Ev.pairCountSlip, Ev.pairMirrorLate, Ev.pairSnapDone, Ev.pairSnapFail, Ev.pairJoined, Ev.pairRenewMissed]
  else if 160 ≤ pg ∧ pg < 161 then [Ev.sagStateChange, Ev.sagTrip, Ev.sagChannelLost, Ev.sagDiagFault, Ev.sagParamAccepted, Ev.sagParamRejected, Ev.sagRestartRefused]
  else if 168 ≤ pg ∧ pg < 169 then [Ev.thermAdcFault, Ev.thermSensorFault, Ev.thermSensorDisagree]
  else if 169 ≤ pg ∧ pg < 170 then [Ev.thermDieLevel, Ev.thermHeadLevel, Ev.thermBandChange, Ev.thermTimingBand, Ev.thermSlowdownReq, Ev.thermConfigInvalid]
  else if 170 ≤ pg ∧ pg < 171 then [Ev.pwrSeqDone, Ev.pwrRailFault, Ev.pwrPmbusError]
  else if 171 ≤ pg ∧ pg < 172 then [Ev.pwrCoreFault]
  else if 172 ≤ pg ∧ pg < 173 then [Ev.pwrDriveFault]
  else if 176 ≤ pg ∧ pg < 177 then [Ev.bootDone, Ev.bootImageFail, Ev.bootNoImage, Ev.cpuWatchdog, Ev.cpuTenderFault, Ev.cpuCacheError]
  else if 177 ≤ pg ∧ pg < 178 then [Ev.cpuMboxFull, Ev.cpuMboxDenied]
  else if 179 ≤ pg ∧ pg < 180 then [Ev.pwrJournalRecovered, Ev.bootNorRefused, Ev.bootSaveFail]
  else [])

end Sys2Proof.Machine
end

