-- ==== Sys2Proof/Machine/Fields.lean ====
section
/-! DEFINITION. The field tables of the spec, one constant per field: offset of the register in its page, lowest bit,
width, access code (R13), class (R15), value after reset, value after a function reset (R16), the number of instances and
the distance in bytes between two of them, and the reserved encodings (R10). For a `ret` field the reset value is the
default that its chapter gives where no retained record exists (R112). -/

namespace Sys2Proof.Machine

/-! Table of 02_register_conventions.md, R58. -/
def F.Hdr.BLOCK_CODE : Fld := fld 0x0 16 16 .ro .l (.c 0) .keep
def F.Hdr.INSTANCE : Fld := fld 0x0 8 8 .ro .l (.c 0) .keep
def F.Hdr.LAYOUT_VERSION : Fld := fld 0x0 0 8 .ro .l (.c 1) .keep
def F.Hdr.ACTIVE_SET : Fld := fld 0x4 5 1 .ro .l (.c 0) (.to 0)
def F.Hdr.COMMIT_PENDING : Fld := fld 0x4 4 1 .ro .l (.c 0) (.to 0)
def F.Hdr.LOCKED_OUT : Fld := fld 0x4 3 1 .ro .l (.c 1) (.to 1)
def F.Hdr.FAULT : Fld := fld 0x4 2 1 .ro .l (.c 0) (.to 0)
def F.Hdr.STATUS_BUSY : Fld := fld 0x4 1 1 .ro .l (.c 0) (.to 0)
def F.Hdr.READY : Fld := fld 0x4 0 1 .ro .l (.c 0) (.to 0)
def F.Hdr.HOLD : Fld := fld 0x8 3 1 .rw .l (.c 0) (.to 0)
def F.Hdr.QUIESCE : Fld := fld 0x8 2 1 .rw .l (.c 0) (.to 0)
def F.Hdr.FUNC_RESET : Fld := fld 0x8 1 1 .wo .l (.c 0) (.to 0)
def F.Hdr.ENABLE : Fld := fld 0x8 0 1 .rw .l (.c 0) (.to 0)
def F.Hdr.COMMIT_TARGET : Fld := fld 0xC 16 16 .rw .l (.c 0) (.to 0)
def F.Hdr.COMMIT_STATE : Fld := fld 0xC 12 2 .ro .l (.c 0) (.to 0)
def F.Hdr.LATE : Fld := fld 0xC 9 1 .ro .l (.c 0) (.to 0)
def F.Hdr.GROUPED : Fld := fld 0xC 8 1 .ro .l (.c 0) .keep
def F.Hdr.TARGET_EN : Fld := fld 0xC 2 1 .rw .l (.c 0) (.to 0)
def F.Hdr.CANCEL : Fld := fld 0xC 1 1 .wo .l (.c 0) (.to 0)
def F.Hdr.REQUEST : Fld := fld 0xC 0 1 .wo .l (.c 0) (.to 0)
def F.Hdr.EVENT_STATUS : Fld := fld 0x10 0 32 .w1c .l (.c 0) .keep
def F.Hdr.EVENT_ENABLE : Fld := fld 0x14 0 32 .rws .l (.c 0) .keep
def F.Hdr.EVENT_FORCE : Fld := fld 0x18 0 32 .wo .l (.c 0) (.to 0)
def F.Hdr.ROUTE_EN : Fld := fld 0x1C 16 1 .rws .l (.c 1) .keep
def F.Hdr.LINE : Fld := fld 0x1C 0 8 .rws .l .page .keep
def F.Hdr.LAST_BOUNDARY : Fld := fld 0x20 8 24 .ro .l (.c 0) (.to 0)
def F.Hdr.LATE_COUNT : Fld := fld 0x20 0 8 .ro .l (.c 0) (.to 0)
def F.Hdr.BOUND : Fld := fld 0x24 31 1 .ro .l (.c 0) .keep
def F.Hdr.LOCK_INDEX : Fld := fld 0x24 24 6 .ro .l (.c 0) .keep
def F.Hdr.HELD : Fld := fld 0x24 23 1 .ro .l (.c 0) .keep
def F.Hdr.BROKEN : Fld := fld 0x24 22 1 .ro .l (.c 0) .keep
def F.Hdr.OWNER : Fld := fld 0x24 8 8 .ro .l (.c 0) .keep
/-- Every field of this table. -/
def fieldsHdr : List Fld := [F.Hdr.BLOCK_CODE, F.Hdr.INSTANCE, F.Hdr.LAYOUT_VERSION, F.Hdr.ACTIVE_SET, F.Hdr.COMMIT_PENDING, F.Hdr.LOCKED_OUT, F.Hdr.FAULT, F.Hdr.STATUS_BUSY, F.Hdr.READY, F.Hdr.HOLD, F.Hdr.QUIESCE, F.Hdr.FUNC_RESET, F.Hdr.ENABLE, F.Hdr.COMMIT_TARGET, F.Hdr.COMMIT_STATE, F.Hdr.LATE, F.Hdr.GROUPED, F.Hdr.TARGET_EN, F.Hdr.CANCEL, F.Hdr.REQUEST, F.Hdr.EVENT_STATUS, F.Hdr.EVENT_ENABLE, F.Hdr.EVENT_FORCE, F.Hdr.ROUTE_EN, F.Hdr.LINE, F.Hdr.LAST_BOUNDARY, F.Hdr.LATE_COUNT, F.Hdr.BOUND, F.Hdr.LOCK_INDEX, F.Hdr.HELD, F.Hdr.BROKEN, F.Hdr.OWNER]

/-! Table of 02_register_conventions.md, R75. -/
def F.Group.GROUP_MASK_0 : Fld := (fld 0x400 0 32 .rw .l (.c 0) .keep).arr 8 0x40
def F.Group.GROUP_MASK_1 : Fld := (fld 0x404 0 32 .rw .l (.c 0) .keep).arr 8 0x40
def F.Group.GROUP_MASK_2 : Fld := (fld 0x408 0 32 .rw .l (.c 0) .keep).arr 8 0x40
def F.Group.GROUP_MASK_3 : Fld := (fld 0x40C 0 32 .rw .l (.c 0) .keep).arr 8 0x40
def F.Group.GROUP_MASK_4 : Fld := (fld 0x410 0 32 .rw .l (.c 0) .keep).arr 8 0x40
def F.Group.GROUP_MASK_5 : Fld := (fld 0x414 0 32 .rw .l (.c 0) .keep).arr 8 0x40
def F.Group.GROUP_MASK_6 : Fld := (fld 0x418 0 32 .rw .l (.c 0) .keep).arr 8 0x40
def F.Group.GROUP_MASK_7 : Fld := (fld 0x41C 0 32 .rw .l (.c 0) .keep).arr 8 0x40
def F.Group.GROUP_CTRL_TARGET : Fld := (fld 0x420 16 16 .rw .l (.c 0) (.to 0)).arr 8 0x40
def F.Group.TARGET_EN : Fld := (fld 0x420 2 1 .rw .l (.c 0) (.to 0)).arr 8 0x40
def F.Group.CANCEL : Fld := (fld 0x420 1 1 .wo .l (.c 0) (.to 0)).arr 8 0x40
def F.Group.REQUEST : Fld := (fld 0x420 0 1 .wo .l (.c 0) (.to 0)).arr 8 0x40
def F.Group.LAST_BOUNDARY : Fld := (fld 0x424 8 24 .ro .l (.c 0) .keep).arr 8 0x40
def F.Group.GROUP_STATE_STATE : Fld := (fld 0x424 0 2 .ro .l (.c 0) .keep).arr 8 0x40
/-- Every field of this table. -/
def fieldsGroup : List Fld := [F.Group.GROUP_MASK_0, F.Group.GROUP_MASK_1, F.Group.GROUP_MASK_2, F.Group.GROUP_MASK_3, F.Group.GROUP_MASK_4, F.Group.GROUP_MASK_5, F.Group.GROUP_MASK_6, F.Group.GROUP_MASK_7, F.Group.GROUP_CTRL_TARGET, F.Group.TARGET_EN, F.Group.CANCEL, F.Group.REQUEST, F.Group.LAST_BOUNDARY, F.Group.GROUP_STATE_STATE]

/-! Table of 02_register_conventions.md, R81, R87. -/
def F.Lock.HELD : Fld := (fld 0x40 31 1 .ro .l (.c 0) .keep).arr 64 0x4
def F.Lock.BROKEN : Fld := (fld 0x40 30 1 .ro .l (.c 0) .keep).arr 64 0x4
def F.Lock.OWNER : Fld := (fld 0x40 16 8 .ro .l (.c 0) .keep).arr 64 0x4
def F.Lock.CONTEXT : Fld := (fld 0x40 4 4 .wo .l (.c 0) (.to 0)).arr 64 0x4
def F.Lock.CLEAR_BROKEN : Fld := (fld 0x40 2 1 .wo .l (.c 0) (.to 0)).arr 64 0x4
def F.Lock.RELEASE : Fld := (fld 0x40 1 1 .wo .l (.c 0) (.to 0)).arr 64 0x4
def F.Lock.ACQUIRE : Fld := (fld 0x40 0 1 .wo .l (.c 0) (.to 0)).arr 64 0x4
def F.Lock.BIND_EN_0 : Fld := (fld 0x400 7 1 .rw .l (.c 0) .keep).arr 64 0x4
def F.Lock.BIND_IX_0 : Fld := (fld 0x400 0 6 .rw .l (.c 0) .keep).arr 64 0x4
def F.Lock.BIND_EN_1 : Fld := (fld 0x400 15 1 .rw .l (.c 0) .keep).arr 64 0x4
def F.Lock.BIND_IX_1 : Fld := (fld 0x400 8 6 .rw .l (.c 0) .keep).arr 64 0x4
def F.Lock.BIND_EN_2 : Fld := (fld 0x400 23 1 .rw .l (.c 0) .keep).arr 64 0x4
def F.Lock.BIND_IX_2 : Fld := (fld 0x400 16 6 .rw .l (.c 0) .keep).arr 64 0x4
def F.Lock.BIND_EN_3 : Fld := (fld 0x400 31 1 .rw .l (.c 0) .keep).arr 64 0x4
def F.Lock.BIND_IX_3 : Fld := (fld 0x400 24 6 .rw .l (.c 0) .keep).arr 64 0x4
/-- Every field of this table. -/
def fieldsLock : List Fld := [F.Lock.HELD, F.Lock.BROKEN, F.Lock.OWNER, F.Lock.CONTEXT, F.Lock.CLEAR_BROKEN, F.Lock.RELEASE, F.Lock.ACQUIRE, F.Lock.BIND_EN_0, F.Lock.BIND_IX_0, F.Lock.BIND_EN_1, F.Lock.BIND_IX_1, F.Lock.BIND_EN_2, F.Lock.BIND_IX_2, F.Lock.BIND_EN_3, F.Lock.BIND_IX_3]

/-! Table of 02_register_conventions.md, R94. -/
def F.Colo.PART_INFO_MEMBER : Fld := fld 0x40 16 16 .ro .l (.c 0x48) .keep
def F.Colo.STEPPING : Fld := fld 0x40 8 8 .ro .l (.c 0x10) .keep
def F.Colo.SERIAL_0 : Fld := fld 0x44 0 32 .ro .l (.c 0) .keep
def F.Colo.SERIAL_1 : Fld := fld 0x48 0 32 .ro .l (.c 0) .keep
def F.Colo.SYS_ADDR : Fld := fld 0x4C 0 14 .rw .h (.c 0) .keep
def F.Colo.FACTORY_CAL_VALID : Fld := fld 0x50 3 1 .ro .l (.c 0) .keep
def F.Colo.KEY_HASH_SET : Fld := fld 0x50 2 1 .ro .l (.c 0) .keep
def F.Colo.SECURE_BOOT : Fld := fld 0x50 1 1 .ro .l (.c 0) .keep
def F.Colo.FUSES_LOCKED : Fld := fld 0x50 0 1 .ro .l (.c 0) .keep
def F.Colo.FACTORY_CAL_CRC : Fld := fld 0x54 0 32 .ro .l (.c 0) .keep
/-- Every field of this table. -/
def fieldsColo : List Fld := [F.Colo.PART_INFO_MEMBER, F.Colo.STEPPING, F.Colo.SERIAL_0, F.Colo.SERIAL_1, F.Colo.SYS_ADDR, F.Colo.FACTORY_CAL_VALID, F.Colo.KEY_HASH_SET, F.Colo.SECURE_BOOT, F.Colo.FUSES_LOCKED, F.Colo.FACTORY_CAL_CRC]

/-! Table of 03_modes_and_bringup.md, R107. -/
def F.Mode.STOP_NOW : Fld := fld 0x40 8 1 .rw .l (.c 0) (.to 0)
def F.Mode.MODE_CTRL_GO : Fld := fld 0x40 4 1 .wo .l (.c 0) (.to 0)
def F.Mode.REQ_MODE : Fld := (fld 0x40 0 3 .rw .l (.c 0) (.to 0)).resv [(6, 7)]
def F.Mode.REFUSE_REASON : Fld := fld 0x44 24 8 .ro .l (.c 0) .keep
def F.Mode.PREV_MODE : Fld := fld 0x44 16 3 .ro .l (.c 0) .keep
def F.Mode.IN_TRANSITION : Fld := fld 0x44 12 1 .ro .l (.c 0) .keep
def F.Mode.TARGET_MODE : Fld := fld 0x44 8 3 .ro .l (.c 1) .keep
def F.Mode.MODE : Fld := fld 0x44 0 3 .ro .l (.c 1) .keep
def F.Mode.SAFE_HOLD_CAUSE : Fld := fld 0x48 0 7 .w1c .l (.c 0) .keep
def F.Mode.SAFE_HOLD_PRESENT : Fld := fld 0x4C 0 7 .ro .l (.c 0) .keep
def F.Mode.WAKE_DELAY : Fld := fld 0x50 8 24 .rw .l (.c 0) .keep
def F.Mode.WAKE_TIMER_EN : Fld := fld 0x50 1 1 .rw .l (.c 0) .keep
def F.Mode.WAKE_PIN_EN : Fld := fld 0x50 0 1 .rw .l (.c 1) .keep
def F.Mode.AUTO_IDLE : Fld := fld 0x54 16 1 .rw .l (.c 0) .keep
def F.Mode.BISQUE_LIMIT : Fld := fld 0x54 0 16 .rw .l (.c 1000) .keep
/-- Every field of this table. -/
def fieldsMode : List Fld := [F.Mode.STOP_NOW, F.Mode.MODE_CTRL_GO, F.Mode.REQ_MODE, F.Mode.REFUSE_REASON, F.Mode.PREV_MODE, F.Mode.IN_TRANSITION, F.Mode.TARGET_MODE, F.Mode.MODE, F.Mode.SAFE_HOLD_CAUSE, F.Mode.SAFE_HOLD_PRESENT, F.Mode.WAKE_DELAY, F.Mode.WAKE_TIMER_EN, F.Mode.WAKE_PIN_EN, F.Mode.AUTO_IDLE, F.Mode.BISQUE_LIMIT]

/-! Table of 03_modes_and_bringup.md, R114. -/
def F.Rdy.READY : Fld := (fld 0x40 0 32 .ro .l (.c 0) .keep).arr 8 0x4
def F.Rdy.REQUIRED : Fld := (fld 0x60 0 32 .rw .l (.sp 0 [(0, 0xFFFF3F3F), (1, 0xFFFFFFFF), (2, 0xFFF0FFF), (3, 0x608FF3F), (4, 0x18007F), (5, 0xF1F01)]) .keep).arr 8 0x4
def F.Rdy.RESTORED : Fld := (fld 0x80 0 32 .ro .l (.c 0) .keep).arr 8 0x4
def F.Rdy.RING_CMD_OP : Fld := fld 0xA0 28 4 .wo .l (.c 0) (.to 0)
def F.Rdy.PAGE : Fld := fld 0xA0 16 8 .wo .l (.c 0) (.to 0)
def F.Rdy.WORD : Fld := fld 0xA0 8 4 .wo .l (.c 0) (.to 0)
def F.Rdy.RING_CMD_GO : Fld := fld 0xA0 0 1 .wo .l (.c 0) (.to 0)
def F.Rdy.PENDING : Fld := fld 0xA4 31 1 .ro .l (.c 0) (.to 0)
def F.Rdy.DONE : Fld := fld 0xA4 30 1 .ro .l (.c 0) (.to 0)
def F.Rdy.ERROR : Fld := fld 0xA4 29 1 .ro .l (.c 0) (.to 0)
def F.Rdy.LAST_PAGE : Fld := fld 0xA4 0 8 .ro .l (.c 0) (.to 0)
def F.Rdy.RING_DATA : Fld := fld 0xA8 0 32 .ro .l (.c 0) (.to 0)
def F.Rdy.BISQUE_ELAPSED : Fld := fld 0xAC 0 16 .ro .l (.c 0) .keep
def F.Rdy.RESET_CAUSE : Fld := fld 0xB0 0 4 .ro .l (.c 1) .keep
/-- Every field of this table. -/
def fieldsRdy : List Fld := [F.Rdy.READY, F.Rdy.REQUIRED, F.Rdy.RESTORED, F.Rdy.RING_CMD_OP, F.Rdy.PAGE, F.Rdy.WORD, F.Rdy.RING_CMD_GO, F.Rdy.PENDING, F.Rdy.DONE, F.Rdy.ERROR, F.Rdy.LAST_PAGE, F.Rdy.RING_DATA, F.Rdy.BISQUE_ELAPSED, F.Rdy.RESET_CAUSE]

/-! Table of 04_folio_ingest_and_codec.md, R167. -/
def F.Ing.GRID : Fld := (fld 0x40 16 2 .rw .h (.c 1) .ret).resv [(3, 3)]
def F.Ing.SEGMENT_ID : Fld := fld 0x40 0 16 .rw .h (.c 0) .ret
def F.Ing.IPV6_EN : Fld := fld 0x44 18 1 .rw .h (.c 0) .ret
def F.Ing.PORT1_EN : Fld := fld 0x44 17 1 .rw .h (.c 1) .ret
def F.Ing.PORT0_EN : Fld := fld 0x44 16 1 .rw .h (.c 1) .ret
def F.Ing.UDP_PORT : Fld := fld 0x44 0 16 .rw .h (.c 19268) .ret
def F.Ing.GROUP4 : Fld := (fld 0x48 0 32 .rw .h (.c 0) .ret).arr 4 0x4
def F.Ing.GROUP6 : Fld := (fld 0x58 0 32 .rw .h (.c 0) .ret).arr 16 0x4
def F.Ing.RING_BASE : Fld := fld 0x98 0 23 .rw .h (.c 0) .ret
def F.Ing.RING_SIZE : Fld := fld 0x9C 0 23 .rw .h (.c 0) .ret
def F.Ing.CACHE_BASE : Fld := fld 0xA0 0 23 .rw .h (.c 0) .ret
def F.Ing.CACHE_SIZE : Fld := fld 0xA4 0 23 .rw .h (.c 0) .ret
def F.Ing.LATE_POLICY : Fld := fld 0xA8 0 1 .rw .s (.c 0) .ret
def F.Ing.CACHE_EVICT_GO : Fld := fld 0xAC 8 1 .wo .l (.c 0) (.to 0)
def F.Ing.ID : Fld := fld 0xAC 0 8 .wo .l (.c 0) (.to 0)
def F.Ing.EXPECTED_FOLIO : Fld := fld 0xB0 0 32 .ro .l (.c 0) (.to 0)
def F.Ing.CHUNK_BAD_COUNT : Fld := fld 0xB4 0 32 .ro .l (.c 0) (.to 0)
def F.Ing.CHUNK_OTHER_COUNT : Fld := fld 0xB8 0 32 .ro .l (.c 0) (.to 0)
def F.Ing.CHUNK_DUP_COUNT : Fld := fld 0xBC 0 32 .ro .l (.c 0) (.to 0)
def F.Ing.CHUNK_WINDOW_DROP : Fld := fld 0xC0 0 32 .ro .l (.c 0) (.to 0)
def F.Ing.CHUNK_EARLY_DROP : Fld := fld 0xC4 0 32 .ro .l (.c 0) (.to 0)
def F.Ing.BYTES_DROPPED : Fld := fld 0xC8 0 32 .ro .l (.c 0) (.to 0)
def F.Ing.RING_FREE : Fld := fld 0xCC 0 23 .ro .l (.c 0) (.to 0)
def F.Ing.CACHE_FREE : Fld := fld 0xD0 0 23 .ro .l (.c 0) (.to 0)
def F.Ing.INGEST_FIRST_FOLIO : Fld := fld 0xD4 0 32 .rw .h (.c 0) .ret
def F.Ing.INGEST_DEFAULT_LINES : Fld := (fld 0xD8 0 25 .rw .h (.c 16384) .ret).resv [(0, 0), (16777217, 33554431)]
def F.Ing.CACHE_ENTRY_VALID : Fld := (fld 0x400 31 1 .ro .l (.c 0) .keep).arr 256 0x4
def F.Ing.COMPLETE : Fld := (fld 0x400 30 1 .ro .l (.c 0) .keep).arr 256 0x4
def F.Ing.IN_USE : Fld := (fld 0x400 29 1 .ro .l (.c 0) .keep).arr 256 0x4
def F.Ing.EVICT_PENDING : Fld := (fld 0x400 28 1 .ro .l (.c 0) .keep).arr 256 0x4
def F.Ing.BAD_ITEMS : Fld := (fld 0x400 27 1 .ro .l (.c 0) .keep).arr 256 0x4
def F.Ing.SIZE : Fld := (fld 0x400 0 24 .ro .l (.c 0) .keep).arr 256 0x4
/-- Every field of this table. -/
def fieldsIng : List Fld := [F.Ing.GRID, F.Ing.SEGMENT_ID, F.Ing.IPV6_EN, F.Ing.PORT1_EN, F.Ing.PORT0_EN, F.Ing.UDP_PORT, F.Ing.GROUP4, F.Ing.GROUP6, F.Ing.RING_BASE, F.Ing.RING_SIZE, F.Ing.CACHE_BASE, F.Ing.CACHE_SIZE, F.Ing.LATE_POLICY, F.Ing.CACHE_EVICT_GO, F.Ing.ID, F.Ing.EXPECTED_FOLIO, F.Ing.CHUNK_BAD_COUNT, F.Ing.CHUNK_OTHER_COUNT, F.Ing.CHUNK_DUP_COUNT, F.Ing.CHUNK_WINDOW_DROP, F.Ing.CHUNK_EARLY_DROP, F.Ing.BYTES_DROPPED, F.Ing.RING_FREE, F.Ing.CACHE_FREE, F.Ing.INGEST_FIRST_FOLIO, F.Ing.INGEST_DEFAULT_LINES, F.Ing.CACHE_ENTRY_VALID, F.Ing.COMPLETE, F.Ing.IN_USE, F.Ing.EVICT_PENDING, F.Ing.BAD_ITEMS, F.Ing.SIZE]

/-! Table of 04_folio_ingest_and_codec.md, R168. -/
def F.Infl.VERIFY_FRAMING : Fld := fld 0x40 16 1 .rw .s (.c 1) .ret
def F.Infl.ENGINE_EN : Fld := fld 0x40 0 8 .rw .l (.c 255) .ret
def F.Infl.ITEMS_DONE : Fld := fld 0x44 0 32 .ro .l (.c 0) (.to 0)
def F.Infl.ITEMS_MISSING : Fld := fld 0x48 0 32 .ro .l (.c 0) (.to 0)
def F.Infl.CHECK_FAIL_COUNT : Fld := fld 0x4C 0 32 .ro .l (.c 0) (.to 0)
def F.Infl.STREAM_ERROR_COUNT : Fld := fld 0x50 0 32 .ro .l (.c 0) (.to 0)
def F.Infl.SLICE_MISS_COUNT : Fld := fld 0x54 0 32 .ro .l (.c 0) (.to 0)
def F.Infl.BOUND_ENGINES : Fld := fld 0x58 0 4 .ro .l (.c 0) (.to 0)
def F.Infl.LOAD : Fld := fld 0x5C 0 7 .ro .l (.c 0) (.to 0)
def F.Infl.ENGINE_STATE_BUSY : Fld := (fld 0x60 31 1 .ro .l (.c 0) (.to 0)).arr 8 0x4
def F.Infl.BOUND : Fld := (fld 0x60 30 1 .ro .l (.c 0) (.to 0)).arr 8 0x4
def F.Infl.PORT : Fld := (fld 0x60 16 6 .ro .l (.c 0) (.to 0)).arr 8 0x4
def F.Infl.ITEM : Fld := (fld 0x60 0 16 .ro .l (.c 0) (.to 0)).arr 8 0x4
/-- Every field of this table. -/
def fieldsInfl : List Fld := [F.Infl.VERIFY_FRAMING, F.Infl.ENGINE_EN, F.Infl.ITEMS_DONE, F.Infl.ITEMS_MISSING, F.Infl.CHECK_FAIL_COUNT, F.Infl.STREAM_ERROR_COUNT, F.Infl.SLICE_MISS_COUNT, F.Infl.BOUND_ENGINES, F.Infl.LOAD, F.Infl.ENGINE_STATE_BUSY, F.Infl.BOUND, F.Infl.PORT, F.Infl.ITEM]

/-! Table of 04_folio_ingest_and_codec.md, R169. -/
def F.Job.SRC_ADDR_LO : Fld := (fld 0x100 0 32 .rw .h (.c 0) (.to 0)).arr 4 0x40
def F.Job.SRC_ADDR_HI : Fld := (fld 0x104 0 8 .rw .h (.c 0) (.to 0)).arr 4 0x40
def F.Job.SRC_LEN : Fld := (fld 0x108 0 32 .rw .h (.c 0) (.to 0)).arr 4 0x40
def F.Job.DST_ADDR_LO : Fld := (fld 0x10C 0 32 .rw .h (.c 0) (.to 0)).arr 4 0x40
def F.Job.DST_ADDR_HI : Fld := (fld 0x110 0 8 .rw .h (.c 0) (.to 0)).arr 4 0x40
def F.Job.DST_LIMIT : Fld := (fld 0x114 0 32 .rw .h (.c 0) (.to 0)).arr 4 0x40
def F.Job.LINE_BYTES : Fld := (fld 0x118 16 16 .rw .h (.c 0) (.to 0)).arr 4 0x40
def F.Job.SLICE_LINES : Fld := ((fld 0x118 12 3 .rw .h (.c 0) (.to 0)).arr 4 0x40).resv [(5, 7)]
def F.Job.SRC_FRAMING : Fld := ((fld 0x118 8 2 .rw .h (.c 0) (.to 0)).arr 4 0x40).resv [(3, 3)]
def F.Job.REPACK : Fld := (fld 0x118 6 1 .rw .h (.c 0) (.to 0)).arr 4 0x40
def F.Job.FRAMING : Fld := ((fld 0x118 4 2 .rw .h (.c 0) (.to 0)).arr 4 0x40).resv [(3, 3)]
def F.Job.LEVEL : Fld := ((fld 0x118 0 4 .rw .h (.c 1) (.to 1)).arr 4 0x40).resv [(0, 0), (10, 15)]
def F.Job.ABORT : Fld := (fld 0x11C 1 1 .wo .l (.c 0) (.to 0)).arr 4 0x40
def F.Job.START : Fld := (fld 0x11C 0 1 .wo .l (.c 0) (.to 0)).arr 4 0x40
def F.Job.LEVEL_USED : Fld := (fld 0x120 16 4 .ro .l (.c 0) (.to 0)).arr 4 0x40
def F.Job.FAIL_REASON : Fld := (fld 0x120 8 8 .ro .l (.c 0) (.to 0)).arr 4 0x40
def F.Job.JOB_STATUS_STATE : Fld := (fld 0x120 0 2 .ro .l (.c 0) (.to 0)).arr 4 0x40
def F.Job.OUT_BYTES : Fld := (fld 0x124 0 32 .ro .l (.c 0) (.to 0)).arr 4 0x40
def F.Job.IN_BYTES : Fld := (fld 0x128 0 32 .ro .l (.c 0) (.to 0)).arr 4 0x40
def F.Job.RESULT_CRC : Fld := (fld 0x12C 0 32 .ro .l (.c 0) (.to 0)).arr 4 0x40
def F.Job.THROTTLE_LEVEL : Fld := fld 0x40 0 4 .rw .l (.c 2) .ret
def F.Job.JOB_DONE_COUNT : Fld := fld 0x44 0 32 .ro .l (.c 0) (.to 0)
/-- Every field of this table. -/
def fieldsJob : List Fld := [F.Job.SRC_ADDR_LO, F.Job.SRC_ADDR_HI, F.Job.SRC_LEN, F.Job.DST_ADDR_LO, F.Job.DST_ADDR_HI, F.Job.DST_LIMIT, F.Job.LINE_BYTES, F.Job.SLICE_LINES, F.Job.SRC_FRAMING, F.Job.REPACK, F.Job.FRAMING, F.Job.LEVEL, F.Job.ABORT, F.Job.START, F.Job.LEVEL_USED, F.Job.FAIL_REASON, F.Job.JOB_STATUS_STATE, F.Job.OUT_BYTES, F.Job.IN_BYTES, F.Job.RESULT_CRC, F.Job.THROTTLE_LEVEL, F.Job.JOB_DONE_COUNT]

/-! Table of 05_glaze_composition.md, R201. -/
def F.Glz.OVL_MARGIN : Fld := (fld 0x40 16 4 .rw .s (.c 4) .ret).resv [(0, 0)]
def F.Glz.RECT_EN : Fld := fld 0x40 8 1 .rw .s (.c 1) .ret
def F.Glz.LAYER_EN : Fld := fld 0x40 0 5 .rw .s (.c 31) .ret
def F.Glz.SVC_EN : Fld := fld 0x44 0 16 .rw .s (.c 0) .ret
def F.Glz.COMPOSED_LINES : Fld := fld 0x48 0 32 .ro .l (.c 0) (.to 0)
def F.Glz.TILES_DONE : Fld := fld 0x4C 0 32 .ro .l (.c 0) (.to 0)
def F.Glz.TILES_MISSING : Fld := fld 0x50 0 32 .ro .l (.c 0) (.to 0)
def F.Glz.LATE_LINES : Fld := fld 0x54 0 32 .ro .l (.c 0) (.to 0)
def F.Glz.ITEMS_SKIPPED : Fld := fld 0x58 0 32 .ro .l (.c 0) (.to 0)
def F.Glz.BYTES_SKIPPED : Fld := fld 0x5C 0 32 .ro .l (.c 0) (.to 0)
def F.Glz.LOAD : Fld := fld 0x60 0 7 .ro .l (.c 0) (.to 0)
def F.Glz.COUNT : Fld := fld 0x64 16 7 .ro .l (.c 0) (.to 0)
def F.Glz.LIST_OK : Fld := fld 0x64 0 1 .ro .l (.c 0) (.to 0)
def F.Glz.TYPE : Fld := ((fld 0x100 28 4 .rw .s (.c 0) .ret).arr 16 0x20).resv [(5, 15)]
def F.Glz.DIRECT : Fld := (fld 0x100 25 1 .rw .s (.c 0) .ret).arr 16 0x20
def F.Glz.KNOCKOUT : Fld := (fld 0x100 24 1 .rw .s (.c 0) .ret).arr 16 0x20
def F.Glz.PORT_MASK : Fld := (fld 0x100 0 12 .rw .s (.c 0) .ret).arr 16 0x20
def F.Glz.FIRST_LINE : Fld := (fld 0x104 0 24 .rw .s (.c 0) .ret).arr 16 0x20
def F.Glz.LINE_COUNT : Fld := (fld 0x108 0 24 .rw .s (.c 0) .ret).arr 16 0x20
def F.Glz.REPEAT_LINES : Fld := (fld 0x10C 0 24 .rw .s (.c 0) .ret).arr 16 0x20
def F.Glz.WIDTH : Fld := (fld 0x110 16 16 .rw .s (.c 0) .ret).arr 16 0x20
def F.Glz.X_START : Fld := (fld 0x110 0 16 .rw .s (.c 0) .ret).arr 16 0x20
def F.Glz.THICK : Fld := (fld 0x114 24 8 .rw .s (.c 0) .ret).arr 16 0x20
def F.Glz.ROW_LINES : Fld := (fld 0x114 16 8 .rw .s (.c 0) .ret).arr 16 0x20
def F.Glz.SERVICE_STEP : Fld := (fld 0x114 8 8 .rw .s (.c 0) .ret).arr 16 0x20
def F.Glz.VALUE : Fld := (fld 0x114 0 8 .rw .s (.c 0) .ret).arr 16 0x20
/-- Every field of this table. -/
def fieldsGlz : List Fld := [F.Glz.OVL_MARGIN, F.Glz.RECT_EN, F.Glz.LAYER_EN, F.Glz.SVC_EN, F.Glz.COMPOSED_LINES, F.Glz.TILES_DONE, F.Glz.TILES_MISSING, F.Glz.LATE_LINES, F.Glz.ITEMS_SKIPPED, F.Glz.BYTES_SKIPPED, F.Glz.LOAD, F.Glz.COUNT, F.Glz.LIST_OK, F.Glz.TYPE, F.Glz.DIRECT, F.Glz.KNOCKOUT, F.Glz.PORT_MASK, F.Glz.FIRST_LINE, F.Glz.LINE_COUNT, F.Glz.REPEAT_LINES, F.Glz.WIDTH, F.Glz.X_START, F.Glz.THICK, F.Glz.ROW_LINES, F.Glz.SERVICE_STEP, F.Glz.VALUE]

/-! Table of 06_screening.md, R223. -/
def F.Scr.SEG_ORIGIN : Fld := fld 0x40 0 20 .rw .s (.c 0) .ret
def F.Scr.SCREENED_LINES : Fld := fld 0x48 0 32 .ro .l (.c 0) (.to 0)
def F.Scr.LOAD : Fld := fld 0x4C 0 7 .ro .l (.c 0) (.to 0)
def F.Scr.TABLE_ERROR_COUNT : Fld := fld 0x50 0 32 .ro .l (.c 0) (.to 0)
def F.Scr.THR_WINDOW_SLOT : Fld := fld 0x60 0 3 .rw .l (.c 0) .keep
def F.Scr.SLOT_USE : Fld := fld 0x64 0 8 .ro .l (.c 0) (.to 0)
def F.Scr.COLOUR_SLOT : Fld := (fld 0x80 28 3 .rw .s .idx .ret).arr 8 0x4
def F.Scr.MAX_LEVEL : Fld := (fld 0x80 24 3 .rw .s (.c 7) .ret).arr 8 0x4
def F.Scr.REDIST_FACTOR : Fld := (fld 0x80 16 8 .rw .s (.c 128) .ret).arr 8 0x4
def F.Scr.Y_OFFSET : Fld := (fld 0x80 8 8 .rw .s (.c 0) .ret).arr 8 0x4
def F.Scr.X_OFFSET : Fld := (fld 0x80 0 8 .rw .s (.c 0) .ret).arr 8 0x4
def F.Scr.X_START : Fld := (fld 0xC0 16 16 .rw .s (.c 0) .ret).arr 12 0x8
def F.Scr.NOZZLES : Fld := ((fld 0xC0 0 13 .rw .s (.c 4096) .ret).arr 12 0x8).resv [(4097, 8191)]
def F.Scr.REDIST_EN : Fld := (fld 0xC4 24 1 .rw .s (.c 0) .ret).arr 12 0x8
def F.Scr.COLOUR : Fld := (fld 0xC4 16 3 .rw .s (.c 0) .ret).arr 12 0x8
def F.Scr.RAMP_HI_LEN : Fld := (fld 0xC4 8 7 .rw .s (.c 0) .ret).arr 12 0x8
def F.Scr.RAMP_LO_LEN : Fld := (fld 0xC4 0 7 .rw .s (.c 0) .ret).arr 12 0x8
def F.Scr.HEIGHT_M1 : Fld := (fld 0x140 8 8 .rw .l (.c 0) .keep).arr 8 0x4
def F.Scr.WIDTH_M1 : Fld := (fld 0x140 0 8 .rw .l (.c 0) .keep).arr 8 0x4
/-- Every field of this table. -/
def fieldsScr : List Fld := [F.Scr.SEG_ORIGIN, F.Scr.SCREENED_LINES, F.Scr.LOAD, F.Scr.TABLE_ERROR_COUNT, F.Scr.THR_WINDOW_SLOT, F.Scr.SLOT_USE, F.Scr.COLOUR_SLOT, F.Scr.MAX_LEVEL, F.Scr.REDIST_FACTOR, F.Scr.Y_OFFSET, F.Scr.X_OFFSET, F.Scr.X_START, F.Scr.NOZZLES, F.Scr.REDIST_EN, F.Scr.COLOUR, F.Scr.RAMP_HI_LEN, F.Scr.RAMP_LO_LEN, F.Scr.HEIGHT_M1, F.Scr.WIDTH_M1]

/-! Table of 07_position_feedback.md, R256. -/
def F.Pos.GLITCH : Fld := fld 0x40 24 8 .rw .h (.c 0) .ret
def F.Pos.DECODE : Fld := (fld 0x40 20 2 .rw .h (.c 2) .ret).resv [(3, 3)]
def F.Pos.DIR_INVERT : Fld := fld 0x40 18 1 .rw .h (.c 0) .ret
def F.Pos.Z_POL : Fld := fld 0x40 17 1 .rw .h (.c 0) .ret
def F.Pos.INDEX_GATE : Fld := (fld 0x40 12 3 .rw .h (.c 0) .ret).resv [(5, 7)]
def F.Pos.INDEX_POLICY : Fld := (fld 0x40 8 2 .rw .l (.c 0) .ret).resv [(3, 3)]
def F.Pos.MODE : Fld := (fld 0x40 0 2 .rw .h (.c 0) .ret).resv [(3, 3)]
def F.Pos.COUNTS_PER_INDEX : Fld := fld 0x44 0 32 .rw .l (.c 0) .ret
def F.Pos.OBS_BW : Fld := (fld 0x48 16 13 .rw .l (.c 200) .ret).resv [(0, 9), (5001, 8191)]
def F.Pos.LOCK_TOL : Fld := fld 0x48 8 8 .rw .l (.c 8) .ret
def F.Pos.UNLOCK_TOL : Fld := fld 0x48 0 8 .rw .l (.c 64) .ret
def F.Pos.SSI_DIV : Fld := (fld 0x4C 16 16 .rw .h (.c 50) .ret).resv [(0, 49)]
def F.Pos.SAMPLE_DELAY : Fld := fld 0x4C 8 8 .rw .h (.c 0) .ret
def F.Pos.GRAY : Fld := fld 0x4C 7 1 .rw .h (.c 0) .ret
def F.Pos.PARITY : Fld := (fld 0x4C 5 2 .rw .h (.c 0) .ret).resv [(3, 3)]
def F.Pos.BITS_M1 : Fld := (fld 0x4C 0 5 .rw .h (.c 23) .ret).resv [(0, 6)]
def F.Pos.PERIOD : Fld := (fld 0x50 24 8 .rw .h (.c 10) .ret).resv [(0, 0)]
def F.Pos.GAP : Fld := (fld 0x50 16 8 .rw .h (.c 20) .ret).resv [(0, 0)]
def F.Pos.MAX_STEP : Fld := fld 0x50 0 16 .rw .l (.c 0) .ret
def F.Pos.POS_PRESET_LO : Fld := fld 0x54 0 32 .rw .h (.c 0) .ret
def F.Pos.POS_PRESET_HI : Fld := fld 0x58 0 16 .rw .h (.c 0) .ret
def F.Pos.PRESET : Fld := fld 0x5C 0 1 .wo .h (.c 0) (.to 0)
def F.Pos.COUNT_LO : Fld := fld 0x60 0 32 .ro .l (.c 0) .keep
def F.Pos.COUNT_HI : Fld := fld 0x64 0 16 .ro .l (.c 0) .keep
def F.Pos.POS_LO : Fld := fld 0x68 0 32 .ro .l (.c 0) .keep
def F.Pos.POS_HI : Fld := fld 0x6C 0 32 .ro .l (.c 0) .keep
def F.Pos.SPEED : Fld := fld 0x70 0 32 .ro .l (.c 0) (.to 0)
def F.Pos.ACCEL : Fld := fld 0x74 0 32 .ro .l (.c 0) (.to 0)
def F.Pos.OBS_LOCKED : Fld := fld 0x78 31 1 .ro .l (.c 0) (.to 0)
def F.Pos.INDEX_REF_VALID : Fld := fld 0x78 30 1 .ro .l (.c 0) .keep
def F.Pos.DIRECTION : Fld := fld 0x78 29 1 .ro .l (.c 0) .keep
def F.Pos.SSI_VALID : Fld := fld 0x78 28 1 .ro .l (.c 0) (.to 0)
def F.Pos.SWITCH_CODE : Fld := fld 0x78 0 3 .ro .l (.c 0) .keep
def F.Pos.INDEX_POS_LO : Fld := fld 0x7C 0 32 .ro .l (.c 0) .keep
def F.Pos.INDEX_POS_HI : Fld := fld 0x80 0 16 .ro .l (.c 0) .keep
def F.Pos.INDEX_SLIP_LAST : Fld := fld 0x84 0 32 .ro .l (.c 0) .keep
def F.Pos.ILLEGAL_COUNT : Fld := fld 0x88 0 32 .ro .l (.c 0) (.to 0)
def F.Pos.SWITCH_INVALID_COUNT : Fld := fld 0x8C 0 32 .ro .l (.c 0) (.to 0)
def F.Pos.SWITCH_SKIP_COUNT : Fld := fld 0x90 0 32 .ro .l (.c 0) (.to 0)
def F.Pos.INDEX_SLIP_COUNT : Fld := fld 0x94 0 32 .ro .l (.c 0) (.to 0)
def F.Pos.SSI_ERROR_COUNT : Fld := fld 0x98 0 32 .ro .l (.c 0) (.to 0)
def F.Pos.MISMATCH : Fld := fld 0x9C 3 1 .w1c .l (.c 0) .keep
def F.Pos.DISAGREE : Fld := fld 0x9C 0 3 .ro .l (.c 0) .keep
def F.Pos.REPLICA_TOL : Fld := fld 0xA0 0 16 .rw .l (.c 1024) .ret
/-- Every field of this table. -/
def fieldsPos : List Fld :=
  [F.Pos.GLITCH, F.Pos.DECODE, F.Pos.DIR_INVERT, F.Pos.Z_POL, F.Pos.INDEX_GATE, F.Pos.INDEX_POLICY, F.Pos.MODE, F.Pos.COUNTS_PER_INDEX, F.Pos.OBS_BW, F.Pos.LOCK_TOL, F.Pos.UNLOCK_TOL, F.Pos.SSI_DIV, F.Pos.SAMPLE_DELAY, F.Pos.GRAY, F.Pos.PARITY, F.Pos.BITS_M1, F.Pos.PERIOD, F.Pos.GAP, F.Pos.MAX_STEP, F.Pos.POS_PRESET_LO, F.Pos.POS_PRESET_HI, F.Pos.PRESET, F.Pos.COUNT_LO, F.Pos.COUNT_HI, F.Pos.POS_LO, F.Pos.POS_HI, F.Pos.SPEED, F.Pos.ACCEL, F.Pos.OBS_LOCKED, F.Pos.INDEX_REF_VALID, F.Pos.DIRECTION, F.Pos.SSI_VALID, F.Pos.SWITCH_CODE, F.Pos.INDEX_POS_LO, F.Pos.INDEX_POS_HI, F.Pos.INDEX_SLIP_LAST, F.Pos.ILLEGAL_COUNT, F.Pos.SWITCH_INVALID_COUNT, F.Pos.SWITCH_SKIP_COUNT, F.Pos.INDEX_SLIP_COUNT] ++
  [F.Pos.SSI_ERROR_COUNT, F.Pos.MISMATCH, F.Pos.DISAGREE, F.Pos.REPLICA_TOL]

/-! Table of 07_position_feedback.md, R257. -/
def F.Div.N_IN_M1 : Fld := (fld 0x40 16 16 .rw .h (.c 0) .keep).arr 4 0x10
def F.Div.N_OUT_M1 : Fld := (fld 0x40 0 16 .rw .h (.c 0) .keep).arr 4 0x10
def F.Div.WIDTH : Fld := ((fld 0x44 16 16 .rw .h (.c 100) .keep).arr 4 0x10).resv [(0, 0)]
def F.Div.POL : Fld := (fld 0x44 8 1 .rw .h (.c 0) .keep).arr 4 0x10
def F.Div.SOURCE : Fld := (fld 0x44 4 2 .rw .h .idx .keep).arr 4 0x10
def F.Div.DIR_SWAP : Fld := (fld 0x44 1 1 .rw .h (.c 0) .keep).arr 4 0x10
def F.Div.DIV_CFG_EN : Fld := (fld 0x44 0 1 .rw .l (.c 0) .keep).arr 4 0x10
def F.Div.SYNC : Fld := (fld 0x48 31 1 .wo .l (.c 0) (.to 0)).arr 4 0x10
def F.Div.PHASE : Fld := (fld 0x48 0 16 .rw .l (.c 0) .keep).arr 4 0x10
def F.Div.BACKLOG : Fld := (fld 0x4C 16 16 .ro .l (.c 0) (.to 0)).arr 4 0x10
def F.Div.ACC : Fld := (fld 0x4C 0 16 .ro .l (.c 0) (.to 0)).arr 4 0x10
def F.Div.LOST_COUNT : Fld := (fld 0x80 0 32 .ro .l (.c 0) (.to 0)).arr 4 0x4
/-- Every field of this table. -/
def fieldsDiv : List Fld := [F.Div.N_IN_M1, F.Div.N_OUT_M1, F.Div.WIDTH, F.Div.POL, F.Div.SOURCE, F.Div.DIR_SWAP, F.Div.DIV_CFG_EN, F.Div.SYNC, F.Div.PHASE, F.Div.BACKLOG, F.Div.ACC, F.Div.LOST_COUNT]

/-! Table of 07_position_feedback.md, R258. -/
def F.Cmp.CMP_ARM : Fld := fld 0x40 0 32 .wo .l (.c 0) (.to 0)
def F.Cmp.CMP_DISARM : Fld := fld 0x44 0 32 .wo .l (.c 0) (.to 0)
def F.Cmp.CMP_ARMED : Fld := fld 0x48 0 32 .ro .l (.c 0) (.to 0)
def F.Cmp.CMP_LATE_COUNT : Fld := fld 0x4C 0 32 .ro .l (.c 0) (.to 0)
def F.Cmp.CMP_MATCH_COUNT : Fld := fld 0x50 0 32 .ro .l (.c 0) (.to 0)
def F.Cmp.CMP_TARGET_LO : Fld := (fld 0x100 0 32 .rw .h (.c 0) .keep).arr 32 0x10
def F.Cmp.CMP_TARGET_HI : Fld := (fld 0x104 0 32 .rw .h (.c 0) .keep).arr 32 0x10
def F.Cmp.WIDTH : Fld := (fld 0x108 16 16 .rw .h (.c 0) .keep).arr 32 0x10
def F.Cmp.OUT_SEL : Fld := ((fld 0x108 12 4 .rw .h (.c 0) .keep).arr 32 0x10).resv [(9, 15)]
def F.Cmp.EVENT_EN : Fld := (fld 0x108 10 1 .rw .h (.c 0) .keep).arr 32 0x10
def F.Cmp.SYNC_EN : Fld := (fld 0x108 9 1 .rw .h (.c 0) .keep).arr 32 0x10
def F.Cmp.SYNC_DIV : Fld := (fld 0x108 7 2 .rw .h (.c 0) .keep).arr 32 0x10
def F.Cmp.SRC : Fld := (fld 0x108 6 1 .rw .h (.c 0) .keep).arr 32 0x10
def F.Cmp.DIR : Fld := ((fld 0x108 4 2 .rw .h (.c 0) .keep).arr 32 0x10).resv [(3, 3)]
def F.Cmp.CHANNEL : Fld := (fld 0x108 2 2 .rw .h (.c 0) .keep).arr 32 0x10
def F.Cmp.LATE_POLICY : Fld := (fld 0x108 1 1 .rw .h (.c 0) .keep).arr 32 0x10
def F.Cmp.CMP_PERIOD : Fld := (fld 0x10C 0 32 .rw .h (.c 0) .keep).arr 32 0x10
/-- Every field of this table. -/
def fieldsCmp : List Fld := [F.Cmp.CMP_ARM, F.Cmp.CMP_DISARM, F.Cmp.CMP_ARMED, F.Cmp.CMP_LATE_COUNT, F.Cmp.CMP_MATCH_COUNT, F.Cmp.CMP_TARGET_LO, F.Cmp.CMP_TARGET_HI, F.Cmp.WIDTH, F.Cmp.OUT_SEL, F.Cmp.EVENT_EN, F.Cmp.SYNC_EN, F.Cmp.SYNC_DIV, F.Cmp.SRC, F.Cmp.DIR, F.Cmp.CHANNEL, F.Cmp.LATE_POLICY, F.Cmp.CMP_PERIOD]

/-! Table of 08_firing_sequencers.md, R293. -/
def F.Clu.PLL_LOCKED : Fld := fld 0x40 8 1 .ro .l (.c 0) (.to 0)
def F.Clu.PORT_RUNNING : Fld := fld 0x40 0 4 .ro .l (.c 0) (.to 0)
def F.Clu.LB_CORRECTED : Fld := fld 0x44 0 32 .ro .l (.c 0) (.to 0)
def F.Clu.LB_UNCORRECTED : Fld := fld 0x48 0 32 .ro .l (.c 0) (.to 0)
def F.Clu.PT_UNCORRECTED : Fld := fld 0x4C 0 32 .ro .l (.c 0) (.to 0)
/-- Every field of this table. -/
def fieldsClu : List Fld := [F.Clu.PLL_LOCKED, F.Clu.PORT_RUNNING, F.Clu.LB_CORRECTED, F.Clu.LB_UNCORRECTED, F.Clu.PT_UNCORRECTED]

/-! Table of 08_firing_sequencers.md, R295. -/
def F.Port.GRID : Fld := (fld 0x40 30 2 .rw .h (.c 1) .ret).resv [(3, 3)]
def F.Port.ENC_SRC : Fld := fld 0x40 28 2 .rw .h (.c 0) .ret
def F.Port.FIRE_MODE : Fld := fld 0x40 24 1 .rw .h (.c 0) .ret
def F.Port.START_SRC : Fld := (fld 0x40 20 2 .rw .h (.c 0) .ret).resv [(3, 3)]
def F.Port.TRIG_SEL : Fld := fld 0x40 16 3 .rw .h (.c 0) .ret
def F.Port.LANE_AHEAD : Fld := (fld 0x40 12 3 .rw .h (.c 2) .ret).resv [(0, 0), (5, 7)]
def F.Port.STROBE_WIDTH : Fld := (fld 0x40 0 12 .rw .h (.c 100) .ret).resv [(0, 1)]
def F.Port.LINE_PITCH : Fld := fld 0x44 0 32 .rw .h (.c 131072) .ret
def F.Port.MIN_PERIOD : Fld := fld 0x48 0 20 .rw .h (.c 8334) .ret
def F.Port.ORIGIN_LO : Fld := fld 0x4C 0 32 .rw .h (.c 0) .ret
def F.Port.ORIGIN_HI : Fld := fld 0x50 0 32 .rw .h (.c 0) .ret
def F.Port.START_FOLIO : Fld := fld 0x54 0 32 .rw .h (.c 0) .ret
def F.Port.START_STEP_LO : Fld := fld 0x58 0 32 .rw .h (.c 0) .ret
def F.Port.START_STEP_HI : Fld := fld 0x5C 0 16 .rw .h (.c 0) .ret
def F.Port.DW_OFFSET_LO : Fld := fld 0x60 0 32 .rw .s (.c 0) .ret
def F.Port.DW_OFFSET_HI : Fld := fld 0x64 0 16 .rw .s (.c 0) .ret
def F.Port.FLIGHT : Fld := fld 0x68 0 24 .rw .s (.c 0) .ret
def F.Port.PHASE_COUNT_M1 : Fld := fld 0x6C 0 4 .rw .s (.c 0) .ret
def F.Port.WATERMARK : Fld := (fld 0x70 16 4 .rw .l (.c 6) .ret).resv [(0, 0)]
def F.Port.MISS_POLICY : Fld := fld 0x70 8 1 .rw .l (.c 0) .ret
def F.Port.REPLAY_EN : Fld := fld 0x70 0 1 .rw .l (.c 0) .ret
def F.Port.REPLAY_BASE : Fld := fld 0x74 0 23 .rw .h (.c 0) .ret
def F.Port.REPLAY_SIZE : Fld := fld 0x78 0 23 .rw .h (.c 0) .ret
def F.Port.TICKLE_PERIOD : Fld := fld 0x7C 0 24 .rw .l (.c 200000) .ret
def F.Port.TICKLE_EN : Fld := fld 0x80 4 1 .rw .l (.c 0) .ret
def F.Port.TICKLE_WAVE : Fld := fld 0x80 0 4 .rw .l (.c 15) .ret
def F.Port.RUN_STATUS_STATE : Fld := fld 0x90 8 3 .ro .l (.c 0) (.to 0)
def F.Port.THROTTLED : Fld := fld 0x90 4 1 .ro .l (.c 0) (.to 0)
def F.Port.PREDICT_FALLBACK : Fld := fld 0x90 3 1 .ro .l (.c 0) (.to 0)
def F.Port.URGENT : Fld := fld 0x90 2 1 .ro .l (.c 0) (.to 0)
def F.Port.REPLAYING : Fld := fld 0x90 1 1 .ro .l (.c 0) (.to 0)
def F.Port.REPLAY_CLEAN : Fld := fld 0x90 0 1 .ro .l (.c 0) (.to 0)
def F.Port.FOLIO_NOW : Fld := fld 0x94 0 32 .ro .l (.c 0) (.to 0)
def F.Port.LINE_NOW : Fld := fld 0x98 0 24 .ro .l (.c 0) (.to 0)
def F.Port.LAT_TOL : Fld := fld 0x9C 0 16 .ro .l (.c 65535) (.to 65535)
def F.Port.HELD : Fld := fld 0xA0 16 5 .ro .l (.c 0) (.to 0)
def F.Port.READY : Fld := fld 0xA0 8 5 .ro .l (.c 0) (.to 0)
def F.Port.SENT : Fld := fld 0xA0 0 3 .ro .l (.c 0) (.to 0)
def F.Port.START_POS_LO : Fld := fld 0xA4 0 32 .ro .l (.c 0) (.to 0)
def F.Port.START_POS_HI : Fld := fld 0xA8 0 32 .ro .l (.c 0) (.to 0)
def F.Port.UNDERRUN_LINES : Fld := fld 0xAC 0 32 .ro .l (.c 0) (.to 0)
def F.Port.DELAYED_LINES : Fld := fld 0xB0 0 32 .ro .l (.c 0) (.to 0)
def F.Port.START_LATE_COUNT : Fld := fld 0xB4 0 32 .ro .l (.c 0) (.to 0)
def F.Port.REPLAYED_FOLIOS : Fld := fld 0xB8 0 32 .ro .l (.c 0) (.to 0)
def F.Port.BACKLOG : Fld := fld 0xBC 0 4 .ro .l (.c 0) (.to 0)
/-- Every field of this table. -/
def fieldsPort : List Fld :=
  [F.Port.GRID, F.Port.ENC_SRC, F.Port.FIRE_MODE, F.Port.START_SRC, F.Port.TRIG_SEL, F.Port.LANE_AHEAD, F.Port.STROBE_WIDTH, F.Port.LINE_PITCH, F.Port.MIN_PERIOD, F.Port.ORIGIN_LO, F.Port.ORIGIN_HI, F.Port.START_FOLIO, F.Port.START_STEP_LO, F.Port.START_STEP_HI, F.Port.DW_OFFSET_LO, F.Port.DW_OFFSET_HI, F.Port.FLIGHT, F.Port.PHASE_COUNT_M1, F.Port.WATERMARK, F.Port.MISS_POLICY, F.Port.REPLAY_EN, F.Port.REPLAY_BASE, F.Port.REPLAY_SIZE, F.Port.TICKLE_PERIOD, F.Port.TICKLE_EN, F.Port.TICKLE_WAVE, F.Port.RUN_STATUS_STATE, F.Port.THROTTLED, F.Port.PREDICT_FALLBACK, F.Port.URGENT, F.Port.REPLAYING, F.Port.REPLAY_CLEAN, F.Port.FOLIO_NOW, F.Port.LINE_NOW, F.Port.LAT_TOL, F.Port.HELD, F.Port.READY, F.Port.SENT, F.Port.START_POS_LO, F.Port.START_POS_HI] ++
  [F.Port.UNDERRUN_LINES, F.Port.DELAYED_LINES, F.Port.START_LATE_COUNT, F.Port.REPLAYED_FOLIOS, F.Port.BACKLOG]

/-! Table of 09_coil_head_lanes.md, R323. -/
def F.Lane.LANE_SUMMARY_BRIDGE_ALIVE : Fld := fld 0x40 8 4 .ro .l (.c 0) (.to 0)
def F.Lane.LANE_SUMMARY_RX_LOCKED : Fld := fld 0x40 0 4 .ro .l (.c 0) (.to 0)
def F.Lane.NEAR_LOOP : Fld := (fld 0x100 9 1 .rw .h (.c 0) .ret).arr 4 0x80
def F.Lane.TEST : Fld := (fld 0x100 8 1 .rw .h (.c 0) .ret).arr 4 0x80
def F.Lane.RX_EN : Fld := (fld 0x100 5 1 .rw .l (.c 1) .ret).arr 4 0x80
def F.Lane.TX_EN : Fld := (fld 0x100 4 1 .rw .l (.c 1) .ret).arr 4 0x80
def F.Lane.RATE : Fld := ((fld 0x100 0 2 .rw .h (.c 2) .ret).arr 4 0x80).resv [(3, 3)]
def F.Lane.TX_SWING : Fld := (fld 0x104 16 2 .rw .h (.c 2) .ret).arr 4 0x80
def F.Lane.DEEMPH : Fld := (fld 0x104 8 3 .rw .h (.c 2) .ret).arr 4 0x80
def F.Lane.RX_PEAK : Fld := (fld 0x104 0 4 .rw .h (.c 4) .ret).arr 4 0x80
def F.Lane.BAND_MAP : Fld := (fld 0x108 0 32 .rw .l (.c 1985229328) .ret).arr 4 0x80
def F.Lane.EQ_TAG : Fld := (fld 0x10C 0 32 .rw .h (.c 0) .ret).arr 4 0x80
def F.Lane.WAVE_DL_SRC_LO : Fld := (fld 0x110 0 32 .rw .l (.c 0) (.to 0)).arr 4 0x80
def F.Lane.WAVE_DL_SRC_HI : Fld := (fld 0x114 0 8 .rw .l (.c 0) (.to 0)).arr 4 0x80
def F.Lane.LEN : Fld := (fld 0x118 16 13 .rw .l (.c 0) (.to 0)).arr 4 0x80
def F.Lane.TABLE : Fld := (fld 0x118 8 4 .rw .l (.c 0) (.to 0)).arr 4 0x80
def F.Lane.WAVE_DL_CTRL_GO : Fld := (fld 0x118 0 1 .wo .l (.c 0) (.to 0)).arr 4 0x80
def F.Lane.WAVE_BAD : Fld := (fld 0x11C 16 16 .ro .l (.c 0) (.to 0)).arr 4 0x80
def F.Lane.WAVE_DL_STATE : Fld := (fld 0x11C 0 2 .ro .l (.c 0) (.to 0)).arr 4 0x80
def F.Lane.WAVE_DL_CRC : Fld := (fld 0x120 0 32 .ro .l (.c 0) (.to 0)).arr 4 0x80
def F.Lane.WORDS_M1 : Fld := ((fld 0x124 16 4 .rw .l (.c 0) (.to 0)).arr 4 0x80).resv [(13, 15)]
def F.Lane.BCFG_CTRL_ADDR : Fld := (fld 0x124 0 16 .rw .l (.c 0) (.to 0)).arr 4 0x80
def F.Lane.BCFG_SEND : Fld := (fld 0x128 0 1 .wo .l (.c 0) (.to 0)).arr 4 0x80
def F.Lane.BCFG_PENDING : Fld := (fld 0x12C 0 1 .ro .l (.c 0) (.to 0)).arr 4 0x80
def F.Lane.BCFG_WORD_0 : Fld := (fld 0x130 0 32 .rw .l (.c 0) (.to 0)).arr 4 0x80
def F.Lane.BCFG_WORD_1 : Fld := (fld 0x134 0 32 .rw .l (.c 0) (.to 0)).arr 4 0x80
def F.Lane.BCFG_WORD_2 : Fld := (fld 0x138 0 32 .rw .l (.c 0) (.to 0)).arr 4 0x80
def F.Lane.BCFG_WORD_3 : Fld := (fld 0x13C 0 32 .rw .l (.c 0) (.to 0)).arr 4 0x80
def F.Lane.BCFG_WORD_4 : Fld := (fld 0x140 0 32 .rw .l (.c 0) (.to 0)).arr 4 0x80
def F.Lane.BCFG_WORD_5 : Fld := (fld 0x144 0 32 .rw .l (.c 0) (.to 0)).arr 4 0x80
def F.Lane.BCFG_WORD_6 : Fld := (fld 0x148 0 32 .rw .l (.c 0) (.to 0)).arr 4 0x80
def F.Lane.BCFG_WORD_7 : Fld := (fld 0x14C 0 32 .rw .l (.c 0) (.to 0)).arr 4 0x80
def F.Lane.BCFG_WORD_8 : Fld := (fld 0x150 0 32 .rw .l (.c 0) (.to 0)).arr 4 0x80
def F.Lane.BCFG_WORD_9 : Fld := (fld 0x154 0 32 .rw .l (.c 0) (.to 0)).arr 4 0x80
def F.Lane.BCFG_WORD_10 : Fld := (fld 0x158 0 32 .rw .l (.c 0) (.to 0)).arr 4 0x80
def F.Lane.BCFG_WORD_11 : Fld := (fld 0x15C 0 32 .rw .l (.c 0) (.to 0)).arr 4 0x80
def F.Lane.BCFG_WORD_12 : Fld := (fld 0x160 0 32 .rw .l (.c 0) (.to 0)).arr 4 0x80
def F.Lane.ACTIVE_TABLE : Fld := (fld 0x164 24 4 .ro .l (.c 0) (.to 0)).arr 4 0x80
def F.Lane.SELECTED_TABLE : Fld := (fld 0x164 16 4 .ro .l (.c 0) (.to 0)).arr 4 0x80
def F.Lane.CFG_COUNT : Fld := (fld 0x164 8 8 .ro .l (.c 0) (.to 0)).arr 4 0x80
def F.Lane.IN_STEP : Fld := (fld 0x164 4 1 .ro .l (.c 0) (.to 0)).arr 4 0x80
def F.Lane.TEMP_STALE : Fld := (fld 0x164 3 1 .ro .l (.c 0) (.to 0)).arr 4 0x80
def F.Lane.LANE_STATUS_BRIDGE_ALIVE : Fld := (fld 0x164 2 1 .ro .l (.c 0) (.to 0)).arr 4 0x80
def F.Lane.TX_ACTIVE : Fld := (fld 0x164 1 1 .ro .l (.c 0) (.to 0)).arr 4 0x80
def F.Lane.LANE_STATUS_RX_LOCKED : Fld := (fld 0x164 0 1 .ro .l (.c 0) (.to 0)).arr 4 0x80
def F.Lane.RX_BLOCKS : Fld := (fld 0x168 0 32 .ro .l (.c 0) (.to 0)).arr 4 0x80
def F.Lane.RX_CRC_ERRORS : Fld := (fld 0x16C 0 32 .ro .l (.c 0) (.to 0)).arr 4 0x80
def F.Lane.RX_STUFF_ERRORS : Fld := (fld 0x170 0 32 .ro .l (.c 0) (.to 0)).arr 4 0x80
def F.Lane.RX_MSG_BAD : Fld := (fld 0x174 0 32 .ro .l (.c 0) (.to 0)).arr 4 0x80
def F.Lane.LOCK_LOSS_COUNT : Fld := (fld 0x178 0 16 .ro .l (.c 0) (.to 0)).arr 4 0x80
def F.Lane.BRIDGE_LINE_MISSING : Fld := (fld 0x178 16 16 .ro .l (.c 0) (.to 0)).arr 4 0x80
def F.Lane.SENSOR_1 : Fld := (fld 0x17C 16 16 .ro .l (.c 32768) (.to 32768)).arr 4 0x80
def F.Lane.SENSOR_0 : Fld := (fld 0x17C 0 16 .ro .l (.c 32768) (.to 32768)).arr 4 0x80
/-- Every field of this table. -/
def fieldsLane : List Fld :=
  [F.Lane.LANE_SUMMARY_BRIDGE_ALIVE, F.Lane.LANE_SUMMARY_RX_LOCKED, F.Lane.NEAR_LOOP, F.Lane.TEST, F.Lane.RX_EN, F.Lane.TX_EN, F.Lane.RATE, F.Lane.TX_SWING, F.Lane.DEEMPH, F.Lane.RX_PEAK, F.Lane.BAND_MAP, F.Lane.EQ_TAG, F.Lane.WAVE_DL_SRC_LO, F.Lane.WAVE_DL_SRC_HI, F.Lane.LEN, F.Lane.TABLE, F.Lane.WAVE_DL_CTRL_GO, F.Lane.WAVE_BAD, F.Lane.WAVE_DL_STATE, F.Lane.WAVE_DL_CRC, F.Lane.WORDS_M1, F.Lane.BCFG_CTRL_ADDR, F.Lane.BCFG_SEND, F.Lane.BCFG_PENDING, F.Lane.BCFG_WORD_0, F.Lane.BCFG_WORD_1, F.Lane.BCFG_WORD_2, F.Lane.BCFG_WORD_3, F.Lane.BCFG_WORD_4, F.Lane.BCFG_WORD_5, F.Lane.BCFG_WORD_6, F.Lane.BCFG_WORD_7, F.Lane.BCFG_WORD_8, F.Lane.BCFG_WORD_9, F.Lane.BCFG_WORD_10, F.Lane.BCFG_WORD_11, F.Lane.BCFG_WORD_12, F.Lane.ACTIVE_TABLE, F.Lane.SELECTED_TABLE, F.Lane.CFG_COUNT] ++
  [F.Lane.IN_STEP, F.Lane.TEMP_STALE, F.Lane.LANE_STATUS_BRIDGE_ALIVE, F.Lane.TX_ACTIVE, F.Lane.LANE_STATUS_RX_LOCKED, F.Lane.RX_BLOCKS, F.Lane.RX_CRC_ERRORS, F.Lane.RX_STUFF_ERRORS, F.Lane.RX_MSG_BAD, F.Lane.LOCK_LOSS_COUNT, F.Lane.BRIDGE_LINE_MISSING, F.Lane.SENSOR_1, F.Lane.SENSOR_0]

/-! Table of 10_inspection_cameras.md, R355. -/
def F.Cam.HS_SETTLE : Fld := (fld 0x40 24 8 .rw .h (.c 120) .ret).resv [(0, 84)]
def F.Cam.POL_SWAP : Fld := fld 0x40 16 4 .rw .h (.c 0) .ret
def F.Cam.LANE_MAP : Fld := fld 0x40 8 8 .rw .h (.c 228) .ret
def F.Cam.MASTER_SLOT : Fld := fld 0x40 4 2 .rw .h (.c 0) .ret
def F.Cam.LANES : Fld := (fld 0x40 0 2 .rw .h (.c 2) .ret).resv [(3, 3)]
def F.Cam.LINK_FRAME : Fld := fld 0x44 0 32 .ro .l (.c 0) (.to 0)
def F.Cam.ECC_CORRECTED : Fld := fld 0x48 0 32 .ro .l (.c 0) (.to 0)
def F.Cam.ECC_DROPPED : Fld := fld 0x4C 0 32 .ro .l (.c 0) (.to 0)
def F.Cam.CRC_ERRORS : Fld := fld 0x50 0 32 .ro .l (.c 0) (.to 0)
def F.Cam.UNKNOWN_PACKETS : Fld := fld 0x54 0 32 .ro .l (.c 0) (.to 0)
def F.Cam.PHY_ERRORS : Fld := fld 0x58 0 32 .ro .l (.c 0) (.to 0)
def F.Cam.SILENT : Fld := fld 0x5C 8 1 .ro .l (.c 0) (.to 0)
def F.Cam.HS_ACTIVE : Fld := fld 0x5C 0 5 .ro .l (.c 0) (.to 0)
def F.Cam.SPEED : Fld := (fld 0x60 0 2 .rw .l (.c 1) .ret).resv [(3, 3)]
def F.Cam.CCI_DIRECT_DEV : Fld := fld 0x64 24 7 .rw .l (.c 0) (.to 0)
def F.Cam.CCI_DIRECT_REG : Fld := fld 0x64 8 16 .rw .l (.c 0) (.to 0)
def F.Cam.CCI_DIRECT_DATA : Fld := fld 0x64 0 8 .rw .l (.c 0) (.to 0)
def F.Cam.READ : Fld := fld 0x68 1 1 .wo .l (.c 0) (.to 0)
def F.Cam.CCI_CTRL_GO : Fld := fld 0x68 0 1 .wo .l (.c 0) (.to 0)
def F.Cam.READ_DATA : Fld := fld 0x6C 8 8 .ro .l (.c 0) (.to 0)
def F.Cam.NACK : Fld := fld 0x6C 2 1 .ro .l (.c 0) (.to 0)
def F.Cam.DONE : Fld := fld 0x6C 1 1 .ro .l (.c 0) (.to 0)
def F.Cam.CCI_STATUS_BUSY : Fld := fld 0x6C 0 1 .ro .l (.c 0) (.to 0)
def F.Cam.EXP_ID : Fld := fld 0x70 8 8 .rw .s (.c 0) .ret
def F.Cam.EXP_COUNT : Fld := (fld 0x70 0 6 .rw .s (.c 0) .ret).resv [(33, 63)]
def F.Cam.LAST_ID : Fld := fld 0x74 8 8 .ro .l (.c 0) (.to 0)
def F.Cam.EXP_STATUS_STATE : Fld := fld 0x74 0 2 .ro .l (.c 0) (.to 0)
def F.Cam.EXP_ENTRY_DEV : Fld := (fld 0x100 24 7 .rw .s (.c 0) .ret).arr 32 0x4
def F.Cam.EXP_ENTRY_REG : Fld := (fld 0x100 8 16 .rw .s (.c 0) .ret).arr 32 0x4
def F.Cam.EXP_ENTRY_DATA : Fld := (fld 0x100 0 8 .rw .s (.c 0) .ret).arr 32 0x4
def F.Cam.SLOT_CFG_EN : Fld := (fld 0x200 31 1 .rw .l (.c 0) (.to 0)).arr 4 0x20
def F.Cam.VC : Fld := (fld 0x200 24 4 .rw .h .idx .ret).arr 4 0x20
def F.Cam.LSLE : Fld := (fld 0x200 21 1 .rw .h (.c 0) .ret).arr 4 0x20
def F.Cam.LAYOUT : Fld := (fld 0x200 20 1 .rw .h (.c 1) .ret).arr 4 0x20
def F.Cam.FRAME_MODE : Fld := (fld 0x200 16 1 .rw .h (.c 0) .ret).arr 4 0x20
def F.Cam.TAG_DIV : Fld := ((fld 0x200 12 3 .rw .h .idx .ret).arr 4 0x20).resv [(5, 7)]
def F.Cam.DT : Fld := ((fld 0x200 0 2 .rw .h (.c 1) .ret).arr 4 0x20).resv [(3, 3)]
def F.Cam.LINES_PER_FRAME : Fld := ((fld 0x204 16 16 .rw .h (.c 1000) .ret).arr 4 0x20).resv [(0, 0)]
def F.Cam.PIXELS : Fld := (fld 0x204 0 15 .rw .h (.c 16384) .ret).arr 4 0x20
def F.Cam.MAX_AGE : Fld := ((fld 0x208 16 16 .rw .l (.c 200) .ret).arr 4 0x20).resv [(0, 0)]
def F.Cam.PAD_VALUE : Fld := (fld 0x208 0 16 .rw .l (.c 0) .ret).arr 4 0x20
def F.Cam.FRAME_OPEN : Fld := (fld 0x20C 31 1 .ro .l (.c 0) (.to 0)).arr 4 0x20
def F.Cam.MISALIGNED : Fld := (fld 0x20C 30 1 .ro .l (.c 0) (.to 0)).arr 4 0x20
def F.Cam.TAG_LEVEL : Fld := (fld 0x20C 16 7 .ro .l (.c 0) (.to 0)).arr 4 0x20
def F.Cam.LINE_IN_FRAME : Fld := (fld 0x20C 0 16 .ro .l (.c 0) (.to 0)).arr 4 0x20
def F.Cam.SLOT_FRAMES : Fld := (fld 0x210 0 32 .ro .l (.c 0) (.to 0)).arr 4 0x20
def F.Cam.TAG_SLIPS : Fld := (fld 0x214 0 32 .ro .l (.c 0) (.to 0)).arr 4 0x20
def F.Cam.LINES_DROPPED : Fld := (fld 0x218 0 32 .ro .l (.c 0) (.to 0)).arr 4 0x20
/-- Every field of this table. -/
def fieldsCam : List Fld :=
  [F.Cam.HS_SETTLE, F.Cam.POL_SWAP, F.Cam.LANE_MAP, F.Cam.MASTER_SLOT, F.Cam.LANES, F.Cam.LINK_FRAME, F.Cam.ECC_CORRECTED, F.Cam.ECC_DROPPED, F.Cam.CRC_ERRORS, F.Cam.UNKNOWN_PACKETS, F.Cam.PHY_ERRORS, F.Cam.SILENT, F.Cam.HS_ACTIVE, F.Cam.SPEED, F.Cam.CCI_DIRECT_DEV, F.Cam.CCI_DIRECT_REG, F.Cam.CCI_DIRECT_DATA, F.Cam.READ, F.Cam.CCI_CTRL_GO, F.Cam.READ_DATA, F.Cam.NACK, F.Cam.DONE, F.Cam.CCI_STATUS_BUSY, F.Cam.EXP_ID, F.Cam.EXP_COUNT, F.Cam.LAST_ID, F.Cam.EXP_STATUS_STATE, F.Cam.EXP_ENTRY_DEV, F.Cam.EXP_ENTRY_REG, F.Cam.EXP_ENTRY_DATA, F.Cam.SLOT_CFG_EN, F.Cam.VC, F.Cam.LSLE, F.Cam.LAYOUT, F.Cam.FRAME_MODE, F.Cam.TAG_DIV, F.Cam.DT, F.Cam.LINES_PER_FRAME, F.Cam.PIXELS, F.Cam.MAX_AGE] ++
  [F.Cam.PAD_VALUE, F.Cam.FRAME_OPEN, F.Cam.MISALIGNED, F.Cam.TAG_LEVEL, F.Cam.LINE_IN_FRAME, F.Cam.SLOT_FRAMES, F.Cam.TAG_SLIPS, F.Cam.LINES_DROPPED]

/-! Table of 10_inspection_cameras.md, R355. -/
def F.Par.HSTART : Fld := fld 0x40 16 16 .rw .h (.c 0) .ret
def F.Par.BITS : Fld := (fld 0x40 8 5 .rw .h (.c 16) .ret).resv [(0, 7), (17, 31)]
def F.Par.PCLK_EDGE : Fld := fld 0x40 7 1 .rw .h (.c 0) .ret
def F.Par.VSYNC_POL : Fld := fld 0x40 6 1 .rw .h (.c 0) .ret
def F.Par.HSYNC_POL : Fld := fld 0x40 5 1 .rw .h (.c 0) .ret
def F.Par.DE_POL : Fld := fld 0x40 4 1 .rw .h (.c 0) .ret
def F.Par.SYNC_MODE : Fld := fld 0x40 2 1 .rw .h (.c 0) .ret
def F.Par.LAYOUT : Fld := fld 0x40 0 1 .rw .h (.c 0) .ret
/-- Every field of this table. -/
def fieldsPar : List Fld := [F.Par.HSTART, F.Par.BITS, F.Par.PCLK_EDGE, F.Par.VSYNC_POL, F.Par.HSYNC_POL, F.Par.DE_POL, F.Par.SYNC_MODE, F.Par.LAYOUT]

/-! Table of 10_inspection_cameras.md, R356. -/
def F.Pipe.KNOT_SHIFT : Fld := (fld 0x40 8 4 .rw .s (.c 6) .ret).resv [(0, 3), (9, 15)]
def F.Pipe.FRAME_SOURCE : Fld := (fld 0x40 0 2 .rw .h (.c 0) .ret).resv [(3, 3)]
def F.Pipe.MAP_UNITS : Fld := fld 0x44 0 17 .rw .s (.c 0) .ret
def F.Pipe.STATS_BASE : Fld := fld 0x48 0 23 .rw .h (.c 0) .ret
def F.Pipe.STATS_SIZE : Fld := fld 0x4C 0 23 .rw .h (.c 0) .ret
def F.Pipe.STATS_WR : Fld := fld 0x50 0 29 .ro .l (.c 0) (.to 0)
def F.Pipe.STATS_RD : Fld := fld 0x54 0 29 .rw .l (.c 0) (.to 0)
def F.Pipe.STATS_DROPPED : Fld := fld 0x58 0 32 .ro .l (.c 0) (.to 0)
def F.Pipe.PIPE_LOAD : Fld := fld 0x5C 0 7 .ro .l (.c 0) (.to 0)
def F.Pipe.PIPE_ERRORS : Fld := fld 0x60 0 32 .ro .l (.c 0) (.to 0)
def F.Pipe.COL_BASE : Fld := (fld 0x100 16 16 .rw .h (.sp 0 [(1, 16384), (3, 16384), (5, 16384), (7, 16384)]) .ret).arr 9 0x20
def F.Pipe.MAP_EN : Fld := (fld 0x100 3 1 .rw .s (.c 1) .ret).arr 9 0x20
def F.Pipe.XFORM_EN : Fld := (fld 0x100 2 1 .rw .s (.c 1) .ret).arr 9 0x20
def F.Pipe.FLAT_EN : Fld := (fld 0x100 1 1 .rw .s (.c 1) .ret).arr 9 0x20
def F.Pipe.DEFECT_EN : Fld := (fld 0x100 0 1 .rw .s (.c 1) .ret).arr 9 0x20
def F.Pipe.MATRIX_0 : Fld := (fld 0x104 0 16 .rw .s (.c 4096) .ret).arr 9 0x20
def F.Pipe.MATRIX_1 : Fld := (fld 0x104 16 16 .rw .s (.c 0) .ret).arr 9 0x20
def F.Pipe.MATRIX_2 : Fld := (fld 0x108 0 16 .rw .s (.c 0) .ret).arr 9 0x20
def F.Pipe.MATRIX_3 : Fld := (fld 0x108 16 16 .rw .s (.c 0) .ret).arr 9 0x20
def F.Pipe.MATRIX_4 : Fld := (fld 0x10C 0 16 .rw .s (.c 4096) .ret).arr 9 0x20
def F.Pipe.MATRIX_5 : Fld := (fld 0x10C 16 16 .rw .s (.c 0) .ret).arr 9 0x20
def F.Pipe.MATRIX_6 : Fld := (fld 0x110 0 16 .rw .s (.c 0) .ret).arr 9 0x20
def F.Pipe.MATRIX_7 : Fld := (fld 0x110 16 16 .rw .s (.c 0) .ret).arr 9 0x20
def F.Pipe.MATRIX_8 : Fld := (fld 0x114 0 16 .rw .s (.c 4096) .ret).arr 9 0x20
def F.Pipe.MATRIX_9 : Fld := (fld 0x114 16 16 .rw .s (.c 0) .ret).arr 9 0x20
def F.Pipe.MATRIX_10 : Fld := (fld 0x118 0 16 .rw .s (.c 0) .ret).arr 9 0x20
def F.Pipe.MATRIX_11 : Fld := (fld 0x118 16 16 .rw .s (.c 0) .ret).arr 9 0x20
def F.Pipe.STREAM_LINES : Fld := (fld 0x11C 0 32 .ro .l (.c 0) (.to 0)).arr 9 0x20
/-- Every field of this table. -/
def fieldsPipe : List Fld := [F.Pipe.KNOT_SHIFT, F.Pipe.FRAME_SOURCE, F.Pipe.MAP_UNITS, F.Pipe.STATS_BASE, F.Pipe.STATS_SIZE, F.Pipe.STATS_WR, F.Pipe.STATS_RD, F.Pipe.STATS_DROPPED, F.Pipe.PIPE_LOAD, F.Pipe.PIPE_ERRORS, F.Pipe.COL_BASE, F.Pipe.MAP_EN, F.Pipe.XFORM_EN, F.Pipe.FLAT_EN, F.Pipe.DEFECT_EN, F.Pipe.MATRIX_0, F.Pipe.MATRIX_1, F.Pipe.MATRIX_2, F.Pipe.MATRIX_3, F.Pipe.MATRIX_4, F.Pipe.MATRIX_5, F.Pipe.MATRIX_6, F.Pipe.MATRIX_7, F.Pipe.MATRIX_8, F.Pipe.MATRIX_9, F.Pipe.MATRIX_10, F.Pipe.MATRIX_11, F.Pipe.STREAM_LINES]

/-! Table of 10_inspection_cameras.md, R357. -/
def F.Tap.TAP_CFG_EN : Fld := (fld 0x100 31 1 .rw .s (.c 0) (.to 0)).arr 6 0x20
def F.Tap.STREAM : Fld := ((fld 0x100 16 4 .rw .s (.c 0) .ret).arr 6 0x20).resv [(9, 15)]
def F.Tap.POINT : Fld := ((fld 0x100 8 3 .rw .s (.c 0) .ret).arr 6 0x20).resv [(5, 7)]
def F.Tap.MODE : Fld := (fld 0x100 0 1 .rw .s (.c 0) .ret).arr 6 0x20
def F.Tap.TAP_BASE : Fld := (fld 0x104 0 23 .rw .s (.c 0) .ret).arr 6 0x20
def F.Tap.TAP_SIZE : Fld := (fld 0x108 0 23 .rw .s (.c 0) .ret).arr 6 0x20
def F.Tap.TAP_FRAMES : Fld := (fld 0x10C 0 16 .rw .s (.c 0) .ret).arr 6 0x20
def F.Tap.TAP_WR : Fld := (fld 0x110 0 29 .ro .l (.c 0) (.to 0)).arr 6 0x20
def F.Tap.TAP_LINES : Fld := (fld 0x114 0 32 .ro .l (.c 0) (.to 0)).arr 6 0x20
def F.Tap.TAP_DROPPED : Fld := (fld 0x118 0 32 .ro .l (.c 0) (.to 0)).arr 6 0x20
def F.Tap.TAP_STATE : Fld := (fld 0x11C 0 2 .ro .l (.c 0) (.to 0)).arr 6 0x20
/-- Every field of this table. -/
def fieldsTap : List Fld := [F.Tap.TAP_CFG_EN, F.Tap.STREAM, F.Tap.POINT, F.Tap.MODE, F.Tap.TAP_BASE, F.Tap.TAP_SIZE, F.Tap.TAP_FRAMES, F.Tap.TAP_WR, F.Tap.TAP_LINES, F.Tap.TAP_DROPPED, F.Tap.TAP_STATE]

/-! Table of 11_density_tracking_and_calibration.md, R391. -/
def F.Dtrk.COLOUR_EN : Fld := fld 0x40 24 8 .rw .h (.c 255) .ret
def F.Dtrk.SMOOTH : Fld := fld 0x40 20 3 .rw .s (.c 0) .ret
def F.Dtrk.OUT_POLICY : Fld := (fld 0x40 16 2 .rw .s (.c 1) .ret).resv [(3, 3)]
def F.Dtrk.OUT_CONFIRM : Fld := (fld 0x40 12 4 .rw .s (.c 2) .ret).resv [(0, 0)]
def F.Dtrk.LAG_AUTO : Fld := fld 0x40 8 1 .rw .s (.c 1) .ret
def F.Dtrk.PROOF_DIV : Fld := fld 0x40 4 2 .rw .h (.c 0) .ret
def F.Dtrk.PROOF_CHANNEL : Fld := fld 0x40 0 2 .rw .h (.c 0) .ret
def F.Dtrk.PROOF_BASE : Fld := fld 0x44 0 23 .rw .h (.c 0) .ret
def F.Dtrk.PROOF_ROWS : Fld := fld 0x48 0 16 .rw .h (.c 0) .ret
def F.Dtrk.PROOF_PORTS_LO : Fld := fld 0x4C 0 32 .rw .h (.c 0) .ret
def F.Dtrk.PROOF_PORTS_HI : Fld := fld 0x50 0 16 .rw .h (.c 0) .ret
def F.Dtrk.PROOF_W0_LO : Fld := fld 0x54 0 32 .rw .h (.c 0) .ret
def F.Dtrk.PROOF_W0_HI : Fld := fld 0x58 0 32 .rw .h (.c 0) .ret
def F.Dtrk.CAM_OFFSET_LO : Fld := fld 0x5C 0 32 .rw .s (.c 0) .ret
def F.Dtrk.CAM_OFFSET_HI : Fld := fld 0x60 0 16 .rw .s (.c 0) .ret
def F.Dtrk.LAG_ROWS : Fld := fld 0x64 0 8 .rw .l (.c 0) .keep
def F.Dtrk.MIN_ROWS : Fld := fld 0x68 16 16 .rw .s (.c 1024) .ret
def F.Dtrk.WINDOW_ROWS : Fld := (fld 0x68 0 16 .rw .s (.c 4096) .ret).resv [(0, 255)]
def F.Dtrk.LAG_MARGIN : Fld := fld 0x6C 24 8 .rw .s (.c 8) .ret
def F.Dtrk.COVER_MIN : Fld := fld 0x6C 0 16 .rw .s (.c 64) .ret
def F.Dtrk.PORT_REJECT_LIMIT : Fld := fld 0x70 16 13 .rw .s (.c 64) .ret
def F.Dtrk.PIVOT_MIN : Fld := fld 0x70 0 16 .rw .s (.c 3277) .ret
def F.Dtrk.GAIN_MAX : Fld := fld 0x74 16 16 .rw .s (.c 49152) .ret
def F.Dtrk.GAIN_MIN : Fld := fld 0x74 0 16 .rw .s (.c 19661) .ret
def F.Dtrk.OUTLIER_TOL : Fld := fld 0x78 16 16 .rw .s (.c 2621) .ret
def F.Dtrk.STEP_MAX : Fld := fld 0x78 0 16 .rw .s (.c 1638) .ret
def F.Dtrk.MAX_INTERVAL : Fld := fld 0x7C 16 16 .rw .s (.c 60) .ret
def F.Dtrk.OUT_FACTOR : Fld := fld 0x7C 0 16 .rw .s (.c 8192) .ret
def F.Dtrk.DT_CAL : Fld := fld 0x80 0 8 .rw .s (.c 24) .ret
def F.Dtrk.UPDATE_REQ_LO : Fld := fld 0x84 0 32 .wo .l (.c 0) (.to 0)
def F.Dtrk.UPDATE_REQ_HI : Fld := fld 0x88 0 16 .wo .l (.c 0) (.to 0)
def F.Dtrk.PAPER_A_1 : Fld := fld 0x8C 16 16 .rw .s (.c 0) .ret
def F.Dtrk.PAPER_A_0 : Fld := fld 0x8C 0 16 .rw .s (.c 0) .ret
def F.Dtrk.PAPER_A_2 : Fld := fld 0x90 0 16 .rw .s (.c 0) .ret
def F.Dtrk.M_1 : Fld := (fld 0xA0 16 16 .rw .s (.c 0) .ret).arr 8 0x8
def F.Dtrk.M_0 : Fld := (fld 0xA0 0 16 .rw .s (.c 0) .ret).arr 8 0x8
def F.Dtrk.M_2 : Fld := (fld 0xA4 0 16 .rw .s (.c 0) .ret).arr 8 0x8
def F.Dtrk.SOLVE_NUMBER : Fld := fld 0xE0 0 32 .ro .l (.c 0) (.to 0)
def F.Dtrk.LAG_LOCKED : Fld := fld 0xE4 9 1 .ro .l (.c 0) (.to 0)
def F.Dtrk.LAST_SKIP : Fld := fld 0xE4 4 4 .ro .l (.c 0) (.to 0)
def F.Dtrk.TRK_STATE_STATE : Fld := fld 0xE4 0 2 .ro .l (.c 0) (.to 0)
def F.Dtrk.ROWS_MATCHED : Fld := fld 0xE8 0 32 .ro .l (.c 0) (.to 0)
def F.Dtrk.ROWS_SKIPPED : Fld := fld 0xEC 0 32 .ro .l (.c 0) (.to 0)
def F.Dtrk.PROOF_DROPPED : Fld := fld 0xF0 0 32 .ro .l (.c 0) (.to 0)
def F.Dtrk.UPDATES_ACCEPTED : Fld := fld 0xF4 0 32 .ro .l (.c 0) (.to 0)
def F.Dtrk.NOZZLE_REJECTS : Fld := fld 0xF8 0 32 .ro .l (.c 0) (.to 0)
def F.Dtrk.NOZZLES_OUT : Fld := fld 0xFC 0 32 .ro .l (.c 0) (.to 0)
def F.Dtrk.DUE_LO : Fld := fld 0x100 0 32 .ro .l (.c 0) .keep
def F.Dtrk.DUE_HI : Fld := fld 0x104 0 16 .ro .l (.c 0) .keep
def F.Dtrk.SOLVE_TIME : Fld := fld 0x108 0 24 .ro .l (.c 0) (.to 0)
/-- Every field of this table. -/
def fieldsDtrk : List Fld :=
  [F.Dtrk.COLOUR_EN, F.Dtrk.SMOOTH, F.Dtrk.OUT_POLICY, F.Dtrk.OUT_CONFIRM, F.Dtrk.LAG_AUTO, F.Dtrk.PROOF_DIV, F.Dtrk.PROOF_CHANNEL, F.Dtrk.PROOF_BASE, F.Dtrk.PROOF_ROWS, F.Dtrk.PROOF_PORTS_LO, F.Dtrk.PROOF_PORTS_HI, F.Dtrk.PROOF_W0_LO, F.Dtrk.PROOF_W0_HI, F.Dtrk.CAM_OFFSET_LO, F.Dtrk.CAM_OFFSET_HI, F.Dtrk.LAG_ROWS, F.Dtrk.MIN_ROWS, F.Dtrk.WINDOW_ROWS, F.Dtrk.LAG_MARGIN, F.Dtrk.COVER_MIN, F.Dtrk.PORT_REJECT_LIMIT, F.Dtrk.PIVOT_MIN, F.Dtrk.GAIN_MAX, F.Dtrk.GAIN_MIN, F.Dtrk.OUTLIER_TOL, F.Dtrk.STEP_MAX, F.Dtrk.MAX_INTERVAL, F.Dtrk.OUT_FACTOR, F.Dtrk.DT_CAL, F.Dtrk.UPDATE_REQ_LO, F.Dtrk.UPDATE_REQ_HI, F.Dtrk.PAPER_A_1, F.Dtrk.PAPER_A_0, F.Dtrk.PAPER_A_2, F.Dtrk.M_1, F.Dtrk.M_0, F.Dtrk.M_2, F.Dtrk.SOLVE_NUMBER, F.Dtrk.LAG_LOCKED, F.Dtrk.LAST_SKIP] ++
  [F.Dtrk.TRK_STATE_STATE, F.Dtrk.ROWS_MATCHED, F.Dtrk.ROWS_SKIPPED, F.Dtrk.PROOF_DROPPED, F.Dtrk.UPDATES_ACCEPTED, F.Dtrk.NOZZLE_REJECTS, F.Dtrk.NOZZLES_OUT, F.Dtrk.DUE_LO, F.Dtrk.DUE_HI, F.Dtrk.SOLVE_TIME]

/-! Table of 11_density_tracking_and_calibration.md, R392. -/
def F.Tdc.DT_TDC : Fld := fld 0x40 24 8 .rw .l (.c 48) .ret
def F.Tdc.AUTO : Fld := fld 0x40 16 1 .rw .l (.c 1) .ret
def F.Tdc.LOOP_CHANNEL : Fld := fld 0x40 8 2 .rw .h (.c 0) .ret
def F.Tdc.RUN_LIMIT : Fld := fld 0x44 0 16 .rw .l (.c 600) .ret
def F.Tdc.RUN : Fld := fld 0x48 0 3 .wo .l (.c 0) (.to 0)
def F.Tdc.TDC_STATUS : Fld := fld 0x4C 0 6 .ro .l (.c 0) (.to 0)
def F.Tdc.RUNS : Fld := (fld 0x50 16 16 .ro .l (.c 0) .keep).arr 3 0x4
def F.Tdc.REF_TEMP : Fld := (fld 0x50 0 16 .ro .l (.c 400) .keep).arr 3 0x4
def F.Tdc.RUNS_REJECTED : Fld := fld 0x60 0 32 .ro .l (.c 0) (.to 0)
def F.Tdc.EDGE_MIN : Fld := (fld 0x64 0 21 .ro .l (.c 0) (.to 0)).arr 3 0x4
/-- Every field of this table. -/
def fieldsTdc : List Fld := [F.Tdc.DT_TDC, F.Tdc.AUTO, F.Tdc.LOOP_CHANNEL, F.Tdc.RUN_LIMIT, F.Tdc.RUN, F.Tdc.TDC_STATUS, F.Tdc.RUNS, F.Tdc.REF_TEMP, F.Tdc.RUNS_REJECTED, F.Tdc.EDGE_MIN]

/-! Table of 11_density_tracking_and_calibration.md, R393. -/
def F.Cal.CAL_VALID : Fld := fld 0x40 0 6 .ro .l (.c 0) .ret
def F.Cal.CAT : Fld := fld 0x44 16 6 .rw .l (.c 0) (.to 0)
def F.Cal.CAPTURE_TDC : Fld := fld 0x44 3 1 .wo .l (.c 0) (.to 0)
def F.Cal.WITHDRAW : Fld := fld 0x44 2 1 .wo .l (.c 0) (.to 0)
def F.Cal.SAVE : Fld := fld 0x44 1 1 .wo .l (.c 0) (.to 0)
def F.Cal.APPLY : Fld := fld 0x44 0 1 .wo .l (.c 0) (.to 0)
def F.Cal.DIRTY : Fld := fld 0x48 8 6 .ro .l (.c 0) .keep
def F.Cal.CAL_STATUS_STATE : Fld := fld 0x48 0 2 .ro .l (.c 0) (.to 0)
def F.Cal.USER_CRC : Fld := (fld 0x60 0 32 .ro .l (.c 0) .ret).arr 6 0x4
/-- Every field of this table. -/
def fieldsCal : List Fld := [F.Cal.CAL_VALID, F.Cal.CAT, F.Cal.CAPTURE_TDC, F.Cal.WITHDRAW, F.Cal.SAVE, F.Cal.APPLY, F.Cal.DIRTY, F.Cal.CAL_STATUS_STATE, F.Cal.USER_CRC]

/-! Table of 12_sdram_controller.md, R425. -/
def F.Mem.INTERLEAVE : Fld := (fld 0x40 16 2 .rw .h (.c 0) .ret).resv [(2, 3)]
def F.Mem.RANKS : Fld := fld 0x40 8 1 .rw .h (.c 0) .ret
def F.Mem.DENSITY : Fld := (fld 0x40 0 2 .rw .h (.c 1) .ret).resv [(2, 3)]
def F.Mem.CAPACITY : Fld := fld 0x44 0 24 .ro .l (.c 0) .keep
def F.Mem.REQ_POINT : Fld := (fld 0x48 16 2 .rw .l (.c 2) .ret).resv [(3, 3)]
def F.Mem.MEM_FREQ_GO : Fld := fld 0x48 0 1 .wo .l (.c 0) (.to 0)
def F.Mem.POINT : Fld := fld 0x4C 16 2 .ro .l (.c 0) .keep
def F.Mem.MEM_FREQ_STATUS_STATE : Fld := fld 0x4C 0 3 .ro .l (.c 0) (.to 0)
def F.Mem.SR_MARGIN : Fld := fld 0x50 24 8 .rw .l (.c 8) .ret
def F.Mem.SR_IDLE : Fld := (fld 0x50 12 12 .rw .l (.c 100) .ret).resv [(0, 0)]
def F.Mem.PD_IDLE : Fld := (fld 0x50 4 8 .rw .l (.c 8) .ret).resv [(0, 0)]
def F.Mem.SR_EN : Fld := fld 0x50 1 1 .rw .l (.c 1) .ret
def F.Mem.PD_EN : Fld := fld 0x50 0 1 .rw .l (.c 1) .ret
def F.Mem.AGE_CAP : Fld := (fld 0x54 16 16 .rw .l (.c 3200) .ret).resv [(0, 63)]
def F.Mem.WQ_HIGH : Fld := fld 0x54 8 6 .rw .l (.c 24) .ret
def F.Mem.WQ_LOW : Fld := fld 0x54 0 6 .rw .l (.c 8) .ret
def F.Mem.WB_CORRECTED : Fld := fld 0x58 8 1 .rw .l (.c 1) .ret
def F.Mem.ZQ_PERIOD : Fld := fld 0x58 0 8 .rw .l (.c 128) .ret
def F.Mem.PORT : Fld := fld 0x5C 16 6 .ro .l (.c 0) (.to 0)
def F.Mem.VALUE : Fld := fld 0x5C 0 16 .ro .l (.c 65535) (.to 65535)
def F.Mem.FULL : Fld := fld 0x60 1 1 .wo .l (.c 0) (.to 0)
def F.Mem.CHECK : Fld := fld 0x60 0 1 .wo .l (.c 0) (.to 0)
/-- Every field of this table. -/
def fieldsMem : List Fld := [F.Mem.INTERLEAVE, F.Mem.RANKS, F.Mem.DENSITY, F.Mem.CAPACITY, F.Mem.REQ_POINT, F.Mem.MEM_FREQ_GO, F.Mem.POINT, F.Mem.MEM_FREQ_STATUS_STATE, F.Mem.SR_MARGIN, F.Mem.SR_IDLE, F.Mem.PD_IDLE, F.Mem.SR_EN, F.Mem.PD_EN, F.Mem.AGE_CAP, F.Mem.WQ_HIGH, F.Mem.WQ_LOW, F.Mem.WB_CORRECTED, F.Mem.ZQ_PERIOD, F.Mem.PORT, F.Mem.VALUE, F.Mem.FULL, F.Mem.CHECK]

/-! Table of 12_sdram_controller.md, R426. -/
def F.Chan.TEMP_SRC : Fld := (fld 0x40 0 8 .rw .l (.c 255) .ret).resv [(64, 254)]
def F.Chan.POWER : Fld := fld 0x44 8 2 .ro .l (.c 0) .keep
def F.Chan.BAND : Fld := fld 0x44 4 2 .ro .l (.c 1) .keep
def F.Chan.TEMP_VALID : Fld := fld 0x44 2 1 .ro .l (.c 0) .keep
def F.Chan.TRAINED : Fld := fld 0x44 1 1 .ro .l (.c 0) .keep
def F.Chan.REPLAYING : Fld := fld 0x44 0 1 .ro .l (.c 0) (.to 0)
def F.Chan.CH_TEMP : Fld := fld 0x48 0 16 .ro .l (.c 0) .keep
def F.Chan.ECC_CE_COUNT : Fld := fld 0x4C 0 32 .ro .l (.c 0) (.to 0)
def F.Chan.ECC_UE_COUNT : Fld := fld 0x50 0 32 .ro .l (.c 0) (.to 0)
def F.Chan.LAST_UE_ADDR_LO : Fld := fld 0x54 6 26 .ro .l (.c 0) .keep
def F.Chan.LAST_UE_ADDR_HI : Fld := fld 0x58 0 3 .ro .l (.c 0) .keep
def F.Chan.CA_RETRIES : Fld := fld 0x5C 0 32 .ro .l (.c 0) (.to 0)
def F.Chan.SR_ENTRIES : Fld := fld 0x60 0 32 .ro .l (.c 0) (.to 0)
def F.Chan.SR_ABANDONED : Fld := fld 0x64 0 32 .ro .l (.c 0) (.to 0)
def F.Chan.RAW_STALLS : Fld := fld 0x68 0 32 .ro .l (.c 0) (.to 0)
def F.Chan.URGENT_READS : Fld := fld 0x6C 0 32 .ro .l (.c 0) (.to 0)
def F.Chan.POSTPONED : Fld := fld 0x70 16 4 .ro .l (.c 0) (.to 0)
def F.Chan.PULLED_IN : Fld := fld 0x70 0 4 .ro .l (.c 0) (.to 0)
def F.Chan.LOAD : Fld := fld 0x74 0 7 .ro .l (.c 0) (.to 0)
def F.Chan.FAIL_STEP : Fld := fld 0x78 24 8 .ro .l (.c 0) .keep
def F.Chan.FAIL_LANE : Fld := fld 0x78 16 4 .ro .l (.c 0) .keep
def F.Chan.TRAIN_STATUS_STATE : Fld := fld 0x78 8 2 .ro .l (.c 0) .keep
def F.Chan.POINT : Fld := fld 0x78 0 2 .ro .l (.c 0) .keep
/-- Every field of this table. -/
def fieldsChan : List Fld := [F.Chan.TEMP_SRC, F.Chan.POWER, F.Chan.BAND, F.Chan.TEMP_VALID, F.Chan.TRAINED, F.Chan.REPLAYING, F.Chan.CH_TEMP, F.Chan.ECC_CE_COUNT, F.Chan.ECC_UE_COUNT, F.Chan.LAST_UE_ADDR_LO, F.Chan.LAST_UE_ADDR_HI, F.Chan.CA_RETRIES, F.Chan.SR_ENTRIES, F.Chan.SR_ABANDONED, F.Chan.RAW_STALLS, F.Chan.URGENT_READS, F.Chan.POSTPONED, F.Chan.PULLED_IN, F.Chan.LOAD, F.Chan.FAIL_STEP, F.Chan.FAIL_LANE, F.Chan.TRAIN_STATUS_STATE, F.Chan.POINT]

/-! Table of 13_reading_room_and_stacks_bus.md, R442. -/
def F.Sram.SCRUB_EN : Fld := fld 0x40 0 1 .rw .l (.c 1) .ret
def F.Sram.SCRUB_PASSES : Fld := (fld 0x44 0 32 .ro .l (.c 0) (.to 0)).arr 3 0x4
def F.Sram.CE_COUNT : Fld := (fld 0x50 0 32 .ro .l (.c 0) (.to 0)).arr 3 0x4
def F.Sram.UE_COUNT : Fld := (fld 0x60 0 32 .ro .l (.c 0) (.to 0)).arr 3 0x4
def F.Sram.DIE : Fld := fld 0x70 30 2 .ro .l (.c 0) .keep
def F.Sram.SOURCE : Fld := fld 0x70 29 1 .ro .l (.c 0) .keep
def F.Sram.WORD : Fld := fld 0x70 0 23 .ro .l (.c 0) .keep
def F.Sram.INIT_STATUS : Fld := fld 0x74 0 3 .ro .l (.c 0) .keep
/-- Every field of this table. -/
def fieldsSram : List Fld := [F.Sram.SCRUB_EN, F.Sram.SCRUB_PASSES, F.Sram.CE_COUNT, F.Sram.UE_COUNT, F.Sram.DIE, F.Sram.SOURCE, F.Sram.WORD, F.Sram.INIT_STATUS]

/-! Table of 13_reading_room_and_stacks_bus.md, R443. -/
def F.Stk.WD_LIMIT : Fld := (fld 0x40 16 10 .rw .l (.c 50) .ret).resv [(0, 0)]
def F.Stk.TENURE_MAX : Fld := (fld 0x40 0 7 .rw .l (.c 16) .ret).resv [(0, 3), (65, 127)]
def F.Stk.OWNED : Fld := fld 0x44 20 1 .ro .l (.c 0) (.to 0)
def F.Stk.OWNER : Fld := fld 0x44 16 4 .ro .l (.c 0) (.to 0)
def F.Stk.PROGRESS : Fld := fld 0x44 0 6 .ro .l (.c 0) (.to 0)
def F.Stk.BEATS : Fld := fld 0x48 0 32 .ro .l (.c 0) (.to 0)
def F.Stk.PREEMPTIONS : Fld := fld 0x4C 0 32 .ro .l (.c 0) (.to 0)
def F.Stk.WD_BITES : Fld := fld 0x50 0 32 .ro .l (.c 0) (.to 0)
def F.Stk.WD_MASKED : Fld := fld 0x54 0 16 .ro .l (.c 0) (.to 0)
def F.Stk.LINK_RETRY_0 : Fld := fld 0x58 0 32 .ro .l (.c 0) (.to 0)
def F.Stk.LINK_RETRY_1 : Fld := fld 0x5C 0 32 .ro .l (.c 0) (.to 0)
def F.Stk.LINK_TRAINED : Fld := fld 0x60 0 2 .ro .l (.c 0) .keep
def F.Stk.WAIT_MAX : Fld := (fld 0x80 0 16 .ro .l (.c 0) (.to 0)).arr 16 0x4
/-- Every field of this table. -/
def fieldsStk : List Fld := [F.Stk.WD_LIMIT, F.Stk.TENURE_MAX, F.Stk.OWNED, F.Stk.OWNER, F.Stk.PROGRESS, F.Stk.BEATS, F.Stk.PREEMPTIONS, F.Stk.WD_BITES, F.Stk.WD_MASKED, F.Stk.LINK_RETRY_0, F.Stk.LINK_RETRY_1, F.Stk.LINK_TRAINED, F.Stk.WAIT_MAX]

/-! Table of 14_network_and_time.md, R484. -/
def F.Net.TX_EN : Fld := fld 0x40 8 1 .rw .l (.c 1) .ret
def F.Net.FEC : Fld := (fld 0x40 4 2 .rw .h (.c 2) .ret).resv [(3, 3)]
def F.Net.SPEED : Fld := fld 0x40 0 1 .rw .h (.c 1) .ret
def F.Net.PORT_DELAY_TX : Fld := fld 0x44 0 32 .rw .l (.c 0) .ret
def F.Net.PORT_DELAY_RX : Fld := fld 0x48 0 32 .rw .l (.c 0) .ret
def F.Net.MOD_ABS : Fld := fld 0x4C 6 1 .ro .l (.c 0) .keep
def F.Net.RX_LOS : Fld := fld 0x4C 5 1 .ro .l (.c 0) .keep
def F.Net.REMOTE_FAULT : Fld := fld 0x4C 4 1 .ro .l (.c 0) (.to 0)
def F.Net.LOCAL_FAULT : Fld := fld 0x4C 3 1 .ro .l (.c 0) (.to 0)
def F.Net.AM_LOCK : Fld := fld 0x4C 2 1 .ro .l (.c 0) (.to 0)
def F.Net.BLOCK_LOCK : Fld := fld 0x4C 1 1 .ro .l (.c 0) (.to 0)
def F.Net.LINK_UP : Fld := fld 0x4C 0 1 .ro .l (.c 0) (.to 0)
def F.Net.RX_FRAMES : Fld := fld 0x50 0 32 .ro .l (.c 0) (.to 0)
def F.Net.TX_FRAMES : Fld := fld 0x54 0 32 .ro .l (.c 0) (.to 0)
def F.Net.RX_FCS_ERRORS : Fld := fld 0x58 0 32 .ro .l (.c 0) (.to 0)
def F.Net.RX_RUNTS : Fld := fld 0x5C 0 32 .ro .l (.c 0) (.to 0)
def F.Net.RX_TOO_LONG : Fld := fld 0x60 0 32 .ro .l (.c 0) (.to 0)
def F.Net.RX_CONTROL : Fld := fld 0x64 0 32 .ro .l (.c 0) (.to 0)
def F.Net.FEC_CORRECTED : Fld := fld 0x68 0 32 .ro .l (.c 0) (.to 0)
def F.Net.FEC_UNCORRECTED : Fld := fld 0x6C 0 32 .ro .l (.c 0) (.to 0)
/-- Every field of this table. -/
def fieldsNet : List Fld := [F.Net.TX_EN, F.Net.FEC, F.Net.SPEED, F.Net.PORT_DELAY_TX, F.Net.PORT_DELAY_RX, F.Net.MOD_ABS, F.Net.RX_LOS, F.Net.REMOTE_FAULT, F.Net.LOCAL_FAULT, F.Net.AM_LOCK, F.Net.BLOCK_LOCK, F.Net.LINK_UP, F.Net.RX_FRAMES, F.Net.TX_FRAMES, F.Net.RX_FCS_ERRORS, F.Net.RX_RUNTS, F.Net.RX_TOO_LONG, F.Net.RX_CONTROL, F.Net.FEC_CORRECTED, F.Net.FEC_UNCORRECTED]

/-! Table of 14_network_and_time.md, R485. -/
def F.Sw.AGE_TIME : Fld := fld 0x40 16 16 .rw .l (.c 300) .ret
def F.Sw.HOST_PROMISC_MC : Fld := fld 0x40 8 1 .rw .l (.c 0) .ret
def F.Sw.QUEUE_LIMIT : Fld := fld 0x40 0 8 .rw .l (.c 128) .ret
def F.Sw.DEFAULT_PCP : Fld := (fld 0x44 12 3 .rw .l (.c 0) .ret).arr 3 0x4
def F.Sw.PVID : Fld := (fld 0x44 0 12 .rw .l (.c 1) .ret).arr 3 0x4
def F.Sw.IPV4_ADDR : Fld := fld 0x50 0 32 .rw .l (.c 0) .ret
def F.Sw.IPV6_ADDR : Fld := (fld 0x54 0 32 .rw .l (.c 0) .ret).arr 4 0x4
def F.Sw.HOST_RX_BASE : Fld := fld 0x64 0 23 .rw .h (.c 0) .ret
def F.Sw.HOST_RX_SIZE : Fld := fld 0x68 0 16 .rw .h (.c 0) .ret
def F.Sw.HOST_TX_BASE : Fld := fld 0x6C 0 23 .rw .h (.c 0) .ret
def F.Sw.HOST_TX_SIZE : Fld := fld 0x70 0 16 .rw .h (.c 0) .ret
def F.Sw.HOST_RX_WR : Fld := fld 0x74 0 16 .ro .l (.c 0) (.to 0)
def F.Sw.HOST_RX_RD : Fld := fld 0x78 0 16 .rw .l (.c 0) (.to 0)
def F.Sw.HOST_TX_WR : Fld := fld 0x7C 0 16 .rw .l (.c 0) (.to 0)
def F.Sw.HOST_TX_RD : Fld := fld 0x80 0 16 .ro .l (.c 0) (.to 0)
def F.Sw.VLAN_DROPS : Fld := fld 0x84 0 32 .ro .l (.c 0) (.to 0)
def F.Sw.BUFFER_DROPS : Fld := fld 0x88 0 32 .ro .l (.c 0) (.to 0)
def F.Sw.HOST_RX_DROPS : Fld := fld 0x8C 0 32 .ro .l (.c 0) (.to 0)
def F.Sw.LEARNED : Fld := fld 0x90 0 11 .ro .l (.c 0) (.to 0)
def F.Sw.VLAN_VALID : Fld := (fld 0x100 31 1 .rw .l (.sp 0 [(0, 1)]) .ret).arr 64 0x4
def F.Sw.VLAN_UNTAG : Fld := (fld 0x100 24 3 .rw .l (.sp 0 [(0, 7)]) .ret).arr 64 0x4
def F.Sw.VLAN_MEMBER : Fld := (fld 0x100 16 3 .rw .l (.sp 0 [(0, 7)]) .ret).arr 64 0x4
def F.Sw.VLAN_VID : Fld := (fld 0x100 0 12 .rw .l (.sp 0 [(0, 1)]) .ret).arr 64 0x4
def F.Sw.MAC_LO : Fld := (fld 0x200 0 32 .rw .l (.c 0) .ret).arr 64 0x8
def F.Sw.MCAST_VALID : Fld := (fld 0x204 31 1 .rw .l (.c 0) .ret).arr 64 0x8
def F.Sw.PORT_MASK : Fld := (fld 0x204 24 3 .rw .l (.c 0) .ret).arr 64 0x8
def F.Sw.MAC_HI : Fld := (fld 0x204 0 16 .rw .l (.c 0) .ret).arr 64 0x8
/-- Every field of this table. -/
def fieldsSw : List Fld := [F.Sw.AGE_TIME, F.Sw.HOST_PROMISC_MC, F.Sw.QUEUE_LIMIT, F.Sw.DEFAULT_PCP, F.Sw.PVID, F.Sw.IPV4_ADDR, F.Sw.IPV6_ADDR, F.Sw.HOST_RX_BASE, F.Sw.HOST_RX_SIZE, F.Sw.HOST_TX_BASE, F.Sw.HOST_TX_SIZE, F.Sw.HOST_RX_WR, F.Sw.HOST_RX_RD, F.Sw.HOST_TX_WR, F.Sw.HOST_TX_RD, F.Sw.VLAN_DROPS, F.Sw.BUFFER_DROPS, F.Sw.HOST_RX_DROPS, F.Sw.LEARNED, F.Sw.VLAN_VALID, F.Sw.VLAN_UNTAG, F.Sw.VLAN_MEMBER, F.Sw.VLAN_VID, F.Sw.MAC_LO, F.Sw.MCAST_VALID, F.Sw.PORT_MASK, F.Sw.MAC_HI]

/-! Table of 14_network_and_time.md, R486. -/
def F.Ptp.SDO_MINOR : Fld := fld 0x40 20 8 .rw .l (.c 0) .ret
def F.Ptp.SDO_MAJOR : Fld := fld 0x40 16 4 .rw .l (.c 0) .ret
def F.Ptp.DOMAIN : Fld := fld 0x40 8 8 .rw .l (.c 0) .ret
def F.Ptp.ANN_TIMEOUT : Fld := fld 0x40 4 4 .rw .l (.c 3) .ret
def F.Ptp.LOSS_SYNCS : Fld := fld 0x40 0 4 .rw .l (.c 4) .ret
def F.Ptp.DREQ_LOG : Fld := fld 0x44 24 8 .rw .l (.c 0) .ret
def F.Ptp.DELAY_FILT : Fld := fld 0x44 20 4 .rw .l (.c 4) .ret
def F.Ptp.QUAL_COUNT : Fld := fld 0x44 16 4 .rw .l (.c 8) .ret
def F.Ptp.QUAL_TOL : Fld := fld 0x44 0 16 .rw .l (.c 100) .ret
def F.Ptp.KI : Fld := fld 0x48 16 16 .rw .l (.c 256) .ret
def F.Ptp.KP : Fld := fld 0x48 0 16 .rw .l (.c 64) .ret
def F.Ptp.SLEW_MAX : Fld := fld 0x4C 16 16 .rw .l (.c 100) .ret
def F.Ptp.LOCK_TOL : Fld := fld 0x4C 0 16 .rw .l (.c 100) .ret
def F.Ptp.OUTLIER_NS : Fld := fld 0x50 0 32 .rw .l (.c 10000) .ret
def F.Ptp.REQUALIFY : Fld := fld 0x54 1 1 .wo .l (.c 0) (.to 0)
def F.Ptp.ALLOW_STEP : Fld := fld 0x54 0 1 .rw .h (.c 0) .keep
def F.Ptp.COUNT_LO : Fld := fld 0x58 0 32 .ro .l (.c 0) .keep
def F.Ptp.COUNT_HI : Fld := fld 0x5C 0 32 .ro .l (.c 0) .keep
def F.Ptp.TIME_SEC_LO : Fld := fld 0x60 0 32 .ro .l (.c 0) .keep
def F.Ptp.TIME_SEC_HI : Fld := fld 0x64 0 16 .ro .l (.c 0) .keep
def F.Ptp.TIME_NS : Fld := fld 0x68 0 30 .ro .l (.c 0) .keep
def F.Ptp.RATE_LO : Fld := fld 0x6C 0 32 .ro .l (.c 0) .keep
def F.Ptp.RATE_HI : Fld := fld 0x70 0 10 .ro .l (.c 512) .keep
def F.Ptp.TIME_VALID : Fld := fld 0x74 8 1 .ro .l (.c 0) .keep
def F.Ptp.MASTER_PORT : Fld := fld 0x74 4 2 .ro .l (.c 0) (.to 0)
def F.Ptp.SERVO : Fld := fld 0x74 0 3 .ro .l (.c 0) (.to 4)
def F.Ptp.THETA : Fld := fld 0x78 0 32 .ro .l (.c 0) (.to 0)
def F.Ptp.MPD : Fld := fld 0x7C 0 32 .ro .l (.c 0) (.to 0)
def F.Ptp.PARENT_ID_LO : Fld := fld 0x80 0 32 .ro .l (.c 0) (.to 0)
def F.Ptp.PARENT_ID_HI : Fld := fld 0x84 0 32 .ro .l (.c 0) (.to 0)
def F.Ptp.UTC_OFFSET : Fld := fld 0x88 0 16 .ro .l (.c 0) .keep
def F.Ptp.EPOCH_SEQ : Fld := fld 0x8C 0 32 .ro .l (.c 0) .keep
def F.Ptp.CONV_COUNT_LO : Fld := fld 0x90 0 32 .rw .l (.c 0) (.to 0)
def F.Ptp.CONV_COUNT_HI : Fld := fld 0x94 0 32 .rw .l (.c 0) (.to 0)
def F.Ptp.CONV_SEC_LO : Fld := fld 0x98 0 32 .ro .l (.c 0) (.to 0)
def F.Ptp.CONV_SEC_HI : Fld := fld 0x9C 0 16 .ro .l (.c 0) (.to 0)
def F.Ptp.CONV_NS : Fld := fld 0xA0 0 30 .ro .l (.c 0) (.to 0)
def F.Ptp.CONV_VALID : Fld := fld 0xA0 31 1 .ro .l (.c 0) (.to 0)
def F.Ptp.OUTLIERS : Fld := fld 0xA4 0 32 .ro .l (.c 0) (.to 0)
def F.Ptp.TC_NO_MATCH : Fld := fld 0xA8 0 32 .ro .l (.c 0) (.to 0)
def F.Ptp.PDELAY_DROPS : Fld := fld 0xAC 0 32 .ro .l (.c 0) (.to 0)
/-- Every field of this table. -/
def fieldsPtp : List Fld :=
  [F.Ptp.SDO_MINOR, F.Ptp.SDO_MAJOR, F.Ptp.DOMAIN, F.Ptp.ANN_TIMEOUT, F.Ptp.LOSS_SYNCS, F.Ptp.DREQ_LOG, F.Ptp.DELAY_FILT, F.Ptp.QUAL_COUNT, F.Ptp.QUAL_TOL, F.Ptp.KI, F.Ptp.KP, F.Ptp.SLEW_MAX, F.Ptp.LOCK_TOL, F.Ptp.OUTLIER_NS, F.Ptp.REQUALIFY, F.Ptp.ALLOW_STEP, F.Ptp.COUNT_LO, F.Ptp.COUNT_HI, F.Ptp.TIME_SEC_LO, F.Ptp.TIME_SEC_HI, F.Ptp.TIME_NS, F.Ptp.RATE_LO, F.Ptp.RATE_HI, F.Ptp.TIME_VALID, F.Ptp.MASTER_PORT, F.Ptp.SERVO, F.Ptp.THETA, F.Ptp.MPD, F.Ptp.PARENT_ID_LO, F.Ptp.PARENT_ID_HI, F.Ptp.UTC_OFFSET, F.Ptp.EPOCH_SEQ, F.Ptp.CONV_COUNT_LO, F.Ptp.CONV_COUNT_HI, F.Ptp.CONV_SEC_LO, F.Ptp.CONV_SEC_HI, F.Ptp.CONV_NS, F.Ptp.CONV_VALID, F.Ptp.OUTLIERS, F.Ptp.TC_NO_MATCH] ++
  [F.Ptp.PDELAY_DROPS]

/-! Table of 14_network_and_time.md, R487. -/
def F.Trig.TARGET_SEC_LO : Fld := (fld 0x100 0 32 .rw .h (.c 0) .keep).arr 8 0x20
def F.Trig.TARGET_SEC_HI : Fld := (fld 0x104 0 16 .rw .h (.c 0) .keep).arr 8 0x20
def F.Trig.TARGET_NS : Fld := (fld 0x108 0 30 .rw .h (.c 0) .keep).arr 8 0x20
def F.Trig.PERIOD_NS : Fld := (fld 0x10C 0 32 .rw .h (.c 0) .ret).arr 8 0x20
def F.Trig.WIDTH : Fld := (fld 0x110 16 16 .rw .h (.c 0) .ret).arr 8 0x20
def F.Trig.PERIOD_FRAC : Fld := (fld 0x110 0 16 .rw .h (.c 0) .ret).arr 8 0x20
def F.Trig.OUT_EN : Fld := (fld 0x114 2 1 .rw .h (.c 0) .ret).arr 8 0x20
def F.Trig.POL : Fld := (fld 0x114 1 1 .rw .h (.c 0) .ret).arr 8 0x20
def F.Trig.LATE_POLICY : Fld := (fld 0x114 0 1 .rw .h (.c 0) .ret).arr 8 0x20
def F.Trig.SKIPPED : Fld := (fld 0x118 0 32 .ro .l (.c 0) (.to 0)).arr 8 0x20
def F.Trig.TRIG_ARM : Fld := fld 0x40 0 8 .wo .l (.c 0) (.to 0)
def F.Trig.TRIG_DISARM : Fld := fld 0x44 0 8 .wo .l (.c 0) (.to 0)
def F.Trig.TRIG_ARMED : Fld := fld 0x48 0 8 .ro .l (.c 0) (.to 0)
def F.Trig.CAP_POP : Fld := fld 0x4C 0 4 .wo .l (.c 0) (.to 0)
/-- Every field of this table. -/
def fieldsTrig : List Fld := [F.Trig.TARGET_SEC_LO, F.Trig.TARGET_SEC_HI, F.Trig.TARGET_NS, F.Trig.PERIOD_NS, F.Trig.WIDTH, F.Trig.PERIOD_FRAC, F.Trig.OUT_EN, F.Trig.POL, F.Trig.LATE_POLICY, F.Trig.SKIPPED, F.Trig.TRIG_ARM, F.Trig.TRIG_DISARM, F.Trig.TRIG_ARMED, F.Trig.CAP_POP]

/-! Table of 14_network_and_time.md, R487. -/
def F.Cap.EDGE : Fld := (fld 0x200 0 2 .rw .l (.c 0) .ret).arr 4 0x20
def F.Cap.HEAD_COUNT_LO : Fld := (fld 0x204 0 32 .ro .l (.c 0) (.to 0)).arr 4 0x20
def F.Cap.HEAD_COUNT_HI : Fld := (fld 0x208 0 32 .ro .l (.c 0) (.to 0)).arr 4 0x20
def F.Cap.HEAD_SEC_LO : Fld := (fld 0x20C 0 32 .ro .l (.c 0) (.to 0)).arr 4 0x20
def F.Cap.HEAD_SEC_HI : Fld := (fld 0x210 0 16 .ro .l (.c 0) (.to 0)).arr 4 0x20
def F.Cap.HEAD_NS : Fld := (fld 0x214 0 30 .ro .l (.c 0) (.to 0)).arr 4 0x20
def F.Cap.HEAD_RISING : Fld := (fld 0x214 31 1 .ro .l (.c 0) (.to 0)).arr 4 0x20
def F.Cap.CAP_LEVEL : Fld := (fld 0x218 0 5 .ro .l (.c 0) (.to 0)).arr 4 0x20
/-- Every field of this table. -/
def fieldsCap : List Fld := [F.Cap.EDGE, F.Cap.HEAD_COUNT_LO, F.Cap.HEAD_COUNT_HI, F.Cap.HEAD_SEC_LO, F.Cap.HEAD_SEC_HI, F.Cap.HEAD_NS, F.Cap.HEAD_RISING, F.Cap.CAP_LEVEL]

/-! Table of 15_paired_operation.md, R512. -/
def F.Pair.FIRST_ACTIVE : Fld := fld 0x40 16 1 .rw .h (.c 0) .ret
def F.Pair.AUTO_REJOIN : Fld := fld 0x40 12 1 .rw .l (.c 1) .ret
def F.Pair.FENCE_ON_FAULT : Fld := fld 0x40 8 1 .rw .l (.c 1) .ret
def F.Pair.SIDE : Fld := fld 0x40 0 1 .rw .h (.c 0) .ret
def F.Pair.PAIR_PORTS_LO : Fld := fld 0x44 0 32 .rw .h (.c 4294967295) .ret
def F.Pair.PAIR_PORTS_HI : Fld := fld 0x48 0 16 .rw .h (.c 65535) .ret
def F.Pair.JOIN : Fld := fld 0x4C 2 1 .wo .l (.c 0) (.to 0)
def F.Pair.CLAIM : Fld := fld 0x4C 1 1 .wo .l (.c 0) (.to 0)
def F.Pair.RELEASE : Fld := fld 0x4C 0 1 .wo .l (.c 0) (.to 0)
def F.Pair.EPOCH : Fld := fld 0x50 16 14 .ro .l (.c 0) .keep
def F.Pair.PARTNER_ROLE : Fld := fld 0x50 12 3 .ro .l (.c 0) (.to 0)
def F.Pair.CFG_MATCH : Fld := fld 0x50 11 1 .ro .l (.c 0) (.to 0)
def F.Pair.HB_PIN_OK : Fld := fld 0x50 10 1 .ro .l (.c 0) (.to 0)
def F.Pair.HB_LANE_OK : Fld := fld 0x50 9 1 .ro .l (.c 0) (.to 0)
def F.Pair.GUARDED : Fld := fld 0x50 8 1 .ro .l (.c 0) (.to 0)
def F.Pair.FENCE_CAUSE : Fld := fld 0x50 4 3 .ro .l (.c 0) .keep
def F.Pair.ROLE : Fld := fld 0x50 0 3 .ro .l (.c 0) .keep
def F.Pair.LEASE_LEFT : Fld := fld 0x54 0 16 .ro .l (.c 0) (.to 0)
def F.Pair.PIN : Fld := fld 0x58 16 16 .ro .l (.c 65535) (.to 65535)
def F.Pair.LANE : Fld := fld 0x58 0 16 .ro .l (.c 65535) (.to 65535)
def F.Pair.RENEW_SEQ : Fld := fld 0x5C 8 8 .ro .l (.c 0) (.to 0)
def F.Pair.ACK_SEQ : Fld := fld 0x5C 0 8 .ro .l (.c 0) (.to 0)
def F.Pair.COUNT_OFFSET_LO : Fld := (fld 0x60 0 32 .ro .l (.c 0) (.to 0)).arr 4 0x8
def F.Pair.COUNT_OFFSET_HI : Fld := (fld 0x64 0 16 .ro .l (.c 0) (.to 0)).arr 4 0x8
def F.Pair.DIVERGED_LINES : Fld := fld 0x80 0 32 .ro .l (.c 0) (.to 0)
def F.Pair.LAST_DIV_FOLIO : Fld := fld 0x84 0 32 .ro .l (.c 0) (.to 0)
def F.Pair.PORT : Fld := fld 0x88 24 6 .ro .l (.c 0) (.to 0)
def F.Pair.LINE : Fld := fld 0x88 0 24 .ro .l (.c 0) (.to 0)
def F.Pair.DIVERGED_PORTS_LO : Fld := fld 0x8C 0 32 .w1c .l (.c 0) .keep
def F.Pair.DIVERGED_PORTS_HI : Fld := fld 0x90 0 16 .w1c .l (.c 0) .keep
def F.Pair.UNMATCHED_LINES : Fld := fld 0x94 0 32 .ro .l (.c 0) (.to 0)
def F.Pair.TAKEOVERS : Fld := fld 0x98 0 32 .ro .l (.c 0) .keep
def F.Pair.SNAP_STATUS_STATE : Fld := fld 0x9C 30 2 .ro .l (.c 0) (.to 0)
def F.Pair.UNITS : Fld := fld 0x9C 0 21 .ro .l (.c 0) (.to 0)
def F.Pair.JOIN_FOLIO : Fld := fld 0xA0 0 32 .ro .l (.c 0) (.to 0)
def F.Pair.MIRROR_LATE_COUNT : Fld := fld 0xA4 0 32 .ro .l (.c 0) (.to 0)
def F.Pair.CFG_CRC : Fld := fld 0xA8 0 32 .ro .l (.c 0) (.to 0)
def F.Pair.PARTNER_CFG_CRC : Fld := fld 0xAC 0 32 .ro .l (.c 0) (.to 0)
def F.Pair.PLANE_MSG_BAD : Fld := fld 0xB0 0 32 .ro .l (.c 0) (.to 0)
def F.Pair.TX_SWING : Fld := (fld 0xC0 16 2 .rw .h (.c 2) .ret).arr 2 0x4
def F.Pair.DEEMPH : Fld := (fld 0xC0 8 3 .rw .h (.c 2) .ret).arr 2 0x4
def F.Pair.RX_PEAK : Fld := (fld 0xC0 0 4 .rw .h (.c 4) .ret).arr 2 0x4
def F.Pair.PLANE_EQ_TAG : Fld := fld 0xC8 0 32 .rw .h (.c 0) .ret
def F.Pair.PLL_LOCKED : Fld := fld 0xCC 8 1 .ro .l (.c 0) .keep
def F.Pair.TX_ACTIVE : Fld := fld 0xCC 2 2 .ro .l (.c 0) (.to 0)
def F.Pair.RX_LOCKED : Fld := fld 0xCC 0 2 .ro .l (.c 0) (.to 0)
def F.Pair.PLANE_CRC_ERRORS : Fld := (fld 0xD0 0 32 .ro .l (.c 0) (.to 0)).arr 2 0x4
/-- Every field of this table. -/
def fieldsPair : List Fld :=
  [F.Pair.FIRST_ACTIVE, F.Pair.AUTO_REJOIN, F.Pair.FENCE_ON_FAULT, F.Pair.SIDE, F.Pair.PAIR_PORTS_LO, F.Pair.PAIR_PORTS_HI, F.Pair.JOIN, F.Pair.CLAIM, F.Pair.RELEASE, F.Pair.EPOCH, F.Pair.PARTNER_ROLE, F.Pair.CFG_MATCH, F.Pair.HB_PIN_OK, F.Pair.HB_LANE_OK, F.Pair.GUARDED, F.Pair.FENCE_CAUSE, F.Pair.ROLE, F.Pair.LEASE_LEFT, F.Pair.PIN, F.Pair.LANE, F.Pair.RENEW_SEQ, F.Pair.ACK_SEQ, F.Pair.COUNT_OFFSET_LO, F.Pair.COUNT_OFFSET_HI, F.Pair.DIVERGED_LINES, F.Pair.LAST_DIV_FOLIO, F.Pair.PORT, F.Pair.LINE, F.Pair.DIVERGED_PORTS_LO, F.Pair.DIVERGED_PORTS_HI, F.Pair.UNMATCHED_LINES, F.Pair.TAKEOVERS, F.Pair.SNAP_STATUS_STATE, F.Pair.UNITS, F.Pair.JOIN_FOLIO, F.Pair.MIRROR_LATE_COUNT, F.Pair.CFG_CRC, F.Pair.PARTNER_CFG_CRC, F.Pair.PLANE_MSG_BAD, F.Pair.TX_SWING] ++
  [F.Pair.DEEMPH, F.Pair.RX_PEAK, F.Pair.PLANE_EQ_TAG, F.Pair.PLL_LOCKED, F.Pair.TX_ACTIVE, F.Pair.RX_LOCKED, F.Pair.PLANE_CRC_ERRORS]

/-! Table of 16_sagger_safety.md, R537. -/
def F.Sag.CAUSE : Fld := fld 0x40 24 8 .ro .l (.c 0) .keep
def F.Sag.SAG_STATE_STATE : Fld := fld 0x40 16 2 .ro .l (.c 0) .keep
def F.Sag.REPLICA : Fld := fld 0x40 12 3 .ro .l (.c 0) .keep
def F.Sag.CHANNELS_OK : Fld := fld 0x40 8 3 .ro .l (.c 0) .keep
def F.Sag.PARAMS_VALID : Fld := fld 0x40 4 1 .ro .l (.c 0) .keep
def F.Sag.DRIVE_DEMAND : Fld := fld 0x40 1 1 .ro .l (.c 1) .keep
def F.Sag.OPERATE : Fld := fld 0x40 0 1 .ro .l (.c 0) .keep
def F.Sag.SAFE_STATE : Fld := fld 0x44 21 1 .ro .l (.c 1) .keep
def F.Sag.PRESS_STOP_REQ : Fld := fld 0x44 20 1 .ro .l (.c 1) .keep
def F.Sag.CURE_EN : Fld := fld 0x44 16 2 .ro .l (.c 0) .keep
def F.Sag.DRIVE_EN : Fld := fld 0x44 0 12 .ro .l (.c 0) .keep
def F.Sag.ESTOP_TRIP : Fld := fld 0x48 31 1 .ro .l (.c 0) .keep
def F.Sag.GUARD_TRIP : Fld := fld 0x48 30 1 .ro .l (.c 0) .keep
def F.Sag.CURE_TEMP_TRIP : Fld := fld 0x48 28 2 .ro .l (.c 0) .keep
def F.Sag.OV_TRIP : Fld := fld 0x48 16 12 .ro .l (.c 0) .keep
def F.Sag.STOP_TEMP_TRIP : Fld := fld 0x48 15 1 .ro .l (.c 0) .keep
def F.Sag.REPLICA_TRIP : Fld := fld 0x48 12 2 .ro .l (.c 0) .keep
def F.Sag.DRIVE_TEMP_TRIP : Fld := fld 0x48 0 12 .ro .l (.c 0) .keep
def F.Sag.SPEED : Fld := fld 0x4C 16 16 .ro .l (.c 0) .keep
def F.Sag.SENC_FAULT : Fld := fld 0x4C 4 1 .ro .l (.c 0) .keep
def F.Sag.SPEED_OK : Fld := fld 0x4C 0 2 .ro .l (.c 0) .keep
def F.Sag.RESET_N : Fld := fld 0x50 8 1 .ro .l (.c 0) .keep
def F.Sag.CONTACTS : Fld := fld 0x50 0 6 .ro .l (.c 0) .keep
def F.Sag.TEMP_CODE_ODD : Fld := (fld 0x54 16 12 .ro .l (.c 0) .keep).arr 8 0x4
def F.Sag.TEMP_CODE_EVEN : Fld := (fld 0x54 0 12 .ro .l (.c 0) .keep).arr 8 0x4
def F.Sag.DIAG_FAULTS : Fld := fld 0x74 0 32 .ro .l (.c 0) .keep
def F.Sag.TRIP_COUNT : Fld := fld 0x78 0 32 .ro .l (.c 0) .keep
def F.Sag.RESET : Fld := fld 0x80 2 1 .wo .l (.c 0) (.to 0)
def F.Sag.STOP : Fld := fld 0x80 1 1 .wo .l (.c 0) (.to 0)
def F.Sag.START : Fld := fld 0x80 0 1 .wo .l (.c 0) (.to 0)
def F.Sag.DRIVE_REQ : Fld := fld 0x84 0 12 .rw .l (.c 0) .keep
def F.Sag.PRESS_STOP : Fld := fld 0x88 8 1 .rw .l (.c 0) .keep
def F.Sag.CURE_REQ : Fld := fld 0x88 0 2 .rw .l (.c 0) .keep
def F.Sag.PARAM_KEY : Fld := fld 0x8C 0 32 .wo .l (.c 0) (.to 0)
def F.Sag.COMMIT : Fld := fld 0x90 0 1 .wo .l (.c 0) (.to 0)
def F.Sag.PARAM_STATUS_STEP : Fld := fld 0x94 8 2 .ro .l (.c 0) (.to 0)
def F.Sag.REASON : Fld := fld 0x94 0 8 .ro .l (.c 0) .keep
def F.Sag.ACTIVE_CRC : Fld := fld 0x98 0 32 .ro .l (.c 0) .keep
def F.Sag.PARAM_STAGE : Fld := (fld 0x400 0 32 .rw .l (.c 0) .keep).arr 64 0x4
def F.Sag.PARAM_ACTIVE : Fld := (fld 0x500 0 32 .ro .l (.c 0) .keep).arr 64 0x4
/-- Every field of this table. -/
def fieldsSag : List Fld := [F.Sag.CAUSE, F.Sag.SAG_STATE_STATE, F.Sag.REPLICA, F.Sag.CHANNELS_OK, F.Sag.PARAMS_VALID, F.Sag.DRIVE_DEMAND, F.Sag.OPERATE, F.Sag.SAFE_STATE, F.Sag.PRESS_STOP_REQ, F.Sag.CURE_EN, F.Sag.DRIVE_EN, F.Sag.ESTOP_TRIP, F.Sag.GUARD_TRIP, F.Sag.CURE_TEMP_TRIP, F.Sag.OV_TRIP, F.Sag.STOP_TEMP_TRIP, F.Sag.REPLICA_TRIP, F.Sag.DRIVE_TEMP_TRIP, F.Sag.SPEED, F.Sag.SENC_FAULT, F.Sag.SPEED_OK, F.Sag.RESET_N, F.Sag.CONTACTS, F.Sag.TEMP_CODE_ODD, F.Sag.TEMP_CODE_EVEN, F.Sag.DIAG_FAULTS, F.Sag.TRIP_COUNT, F.Sag.RESET, F.Sag.STOP, F.Sag.START, F.Sag.DRIVE_REQ, F.Sag.PRESS_STOP, F.Sag.CURE_REQ, F.Sag.PARAM_KEY, F.Sag.COMMIT, F.Sag.PARAM_STATUS_STEP, F.Sag.REASON, F.Sag.ACTIVE_CRC, F.Sag.PARAM_STAGE, F.Sag.PARAM_ACTIVE]

/-! Table of 17_thermal_and_power.md, R570. -/
def F.Hk.HK_ROUNDS : Fld := fld 0x40 0 32 .ro .l (.c 0) .keep
def F.Hk.BAD_ROUNDS : Fld := fld 0x44 16 16 .ro .l (.c 0) (.to 0)
def F.Hk.ADC_OK : Fld := fld 0x44 0 1 .ro .l (.c 0) (.to 0)
def F.Hk.TABLE : Fld := (fld 0x80 4 2 .rw .l (.c 0) .ret).arr 64 0x4
def F.Hk.CONV : Fld := (fld 0x80 0 2 .rw .l (.c 0) .ret).arr 64 0x4
def F.Hk.GAIN : Fld := (fld 0x180 16 16 .rw .l (.c 4096) .ret).arr 64 0x4
def F.Hk.OFFSET : Fld := (fld 0x180 0 16 .rw .l (.c 0) .ret).arr 64 0x4
def F.Hk.HK_VALUE_VALID : Fld := (fld 0x280 31 1 .ro .l (.c 0) (.to 0)).arr 64 0x4
def F.Hk.CODE : Fld := (fld 0x280 16 12 .ro .l (.c 0) (.to 0)).arr 64 0x4
def F.Hk.VALUE : Fld := (fld 0x280 0 16 .ro .l (.c 0) (.to 0)).arr 64 0x4
def F.Hk.PWL_0 : Fld := (fld 0x400 0 16 .rw .l (.c 0) .ret).arr 4 0x40
def F.Hk.PWL_1 : Fld := (fld 0x400 16 16 .rw .l (.c 0) .ret).arr 4 0x40
def F.Hk.PWL_2 : Fld := (fld 0x404 0 16 .rw .l (.c 0) .ret).arr 4 0x40
def F.Hk.PWL_3 : Fld := (fld 0x404 16 16 .rw .l (.c 0) .ret).arr 4 0x40
def F.Hk.PWL_4 : Fld := (fld 0x408 0 16 .rw .l (.c 0) .ret).arr 4 0x40
def F.Hk.PWL_5 : Fld := (fld 0x408 16 16 .rw .l (.c 0) .ret).arr 4 0x40
def F.Hk.PWL_6 : Fld := (fld 0x40C 0 16 .rw .l (.c 0) .ret).arr 4 0x40
def F.Hk.PWL_7 : Fld := (fld 0x40C 16 16 .rw .l (.c 0) .ret).arr 4 0x40
def F.Hk.PWL_8 : Fld := (fld 0x410 0 16 .rw .l (.c 0) .ret).arr 4 0x40
def F.Hk.PWL_9 : Fld := (fld 0x410 16 16 .rw .l (.c 0) .ret).arr 4 0x40
def F.Hk.PWL_10 : Fld := (fld 0x414 0 16 .rw .l (.c 0) .ret).arr 4 0x40
def F.Hk.PWL_11 : Fld := (fld 0x414 16 16 .rw .l (.c 0) .ret).arr 4 0x40
def F.Hk.PWL_12 : Fld := (fld 0x418 0 16 .rw .l (.c 0) .ret).arr 4 0x40
def F.Hk.PWL_13 : Fld := (fld 0x418 16 16 .rw .l (.c 0) .ret).arr 4 0x40
def F.Hk.PWL_14 : Fld := (fld 0x41C 0 16 .rw .l (.c 0) .ret).arr 4 0x40
def F.Hk.PWL_15 : Fld := (fld 0x41C 16 16 .rw .l (.c 0) .ret).arr 4 0x40
def F.Hk.PWL_16 : Fld := (fld 0x420 0 16 .rw .l (.c 0) .ret).arr 4 0x40
def F.Hk.PWL_17 : Fld := (fld 0x420 16 16 .rw .l (.c 0) .ret).arr 4 0x40
/-- Every field of this table. -/
def fieldsHk : List Fld := [F.Hk.HK_ROUNDS, F.Hk.BAD_ROUNDS, F.Hk.ADC_OK, F.Hk.TABLE, F.Hk.CONV, F.Hk.GAIN, F.Hk.OFFSET, F.Hk.HK_VALUE_VALID, F.Hk.CODE, F.Hk.VALUE, F.Hk.PWL_0, F.Hk.PWL_1, F.Hk.PWL_2, F.Hk.PWL_3, F.Hk.PWL_4, F.Hk.PWL_5, F.Hk.PWL_6, F.Hk.PWL_7, F.Hk.PWL_8, F.Hk.PWL_9, F.Hk.PWL_10, F.Hk.PWL_11, F.Hk.PWL_12, F.Hk.PWL_13, F.Hk.PWL_14, F.Hk.PWL_15, F.Hk.PWL_16, F.Hk.PWL_17]

/-! Table of 17_thermal_and_power.md, R571. -/
def F.Thm.SLOW_ACTIVE : Fld := fld 0x40 16 1 .ro .l (.c 0) .keep
def F.Thm.TIMING_BAND_1 : Fld := fld 0x40 12 2 .ro .l (.c 0) .keep
def F.Thm.TIMING_BAND_0 : Fld := fld 0x40 8 2 .ro .l (.c 0) .keep
def F.Thm.LEVEL_HUB : Fld := fld 0x40 0 2 .ro .l (.c 0) .keep
def F.Thm.LEVEL_R0 : Fld := fld 0x40 2 2 .ro .l (.c 0) .keep
def F.Thm.LEVEL_R1 : Fld := fld 0x40 4 2 .ro .l (.c 0) .keep
def F.Thm.DIE_TEMP_R0 : Fld := fld 0x44 16 16 .ro .l (.c 0) .keep
def F.Thm.DIE_TEMP_HUB : Fld := fld 0x44 0 16 .ro .l (.c 0) .keep
def F.Thm.DIE_TEMP_B : Fld := fld 0x48 0 16 .ro .l (.c 0) .keep
def F.Thm.REGION_TEMP_EVEN : Fld := (fld 0x4C 0 16 .ro .l (.c 0) .keep).arr 2 0x4
def F.Thm.REGION_TEMP_ODD : Fld := (fld 0x4C 16 16 .ro .l (.c 0) .keep).arr 2 0x4
def F.Thm.PAIR_TOL : Fld := fld 0x54 16 8 .rw .l (.c 64) .ret
def F.Thm.HEAD_STALE_THROTTLE : Fld := fld 0x54 8 1 .rw .l (.c 1) .ret
def F.Thm.SLOW_EN : Fld := fld 0x54 0 1 .rw .l (.c 0) .ret
def F.Thm.SLOW_DST_IP : Fld := fld 0x58 0 32 .rw .l (.c 0) .ret
def F.Thm.SLOW_DST_PORT : Fld := fld 0x5C 0 16 .rw .l (.c 19283) .ret
def F.Thm.TB_EDGE_2 : Fld := fld 0x60 16 16 .rw .l (.c 1440) .ret
def F.Thm.TB_EDGE_1 : Fld := fld 0x60 0 16 .rw .l (.c 960) .ret
def F.Thm.TB_HYST : Fld := fld 0x64 0 8 .rw .l (.c 48) .ret
def F.Thm.WIDTH_TRIM : Fld := (fld 0x68 8 8 .rw .l (.c 0) .ret).arr 3 0x4
def F.Thm.SKEW_TRIM : Fld := (fld 0x68 0 8 .rw .l (.c 0) .ret).arr 3 0x4
def F.Thm.HEAD_EN_0 : Fld := (fld 0x80 3 1 .rw .l (.c 0) .ret).arr 6 0x4
def F.Thm.HEAD_EN_1 : Fld := (fld 0x80 7 1 .rw .l (.c 0) .ret).arr 6 0x4
def F.Thm.HEAD_EN_2 : Fld := (fld 0x80 11 1 .rw .l (.c 0) .ret).arr 6 0x4
def F.Thm.HEAD_EN_3 : Fld := (fld 0x80 15 1 .rw .l (.c 0) .ret).arr 6 0x4
def F.Thm.HEAD_EN_4 : Fld := (fld 0x80 19 1 .rw .l (.c 0) .ret).arr 6 0x4
def F.Thm.HEAD_EN_5 : Fld := (fld 0x80 23 1 .rw .l (.c 0) .ret).arr 6 0x4
def F.Thm.HEAD_EN_6 : Fld := (fld 0x80 27 1 .rw .l (.c 0) .ret).arr 6 0x4
def F.Thm.HEAD_EN_7 : Fld := (fld 0x80 31 1 .rw .l (.c 0) .ret).arr 6 0x4
def F.Thm.HTYPE_0 : Fld := (fld 0x80 0 3 .rw .l (.c 0) .ret).arr 6 0x4
def F.Thm.HTYPE_1 : Fld := (fld 0x80 4 3 .rw .l (.c 0) .ret).arr 6 0x4
def F.Thm.HTYPE_2 : Fld := (fld 0x80 8 3 .rw .l (.c 0) .ret).arr 6 0x4
def F.Thm.HTYPE_3 : Fld := (fld 0x80 12 3 .rw .l (.c 0) .ret).arr 6 0x4
def F.Thm.HTYPE_4 : Fld := (fld 0x80 16 3 .rw .l (.c 0) .ret).arr 6 0x4
def F.Thm.HTYPE_5 : Fld := (fld 0x80 20 3 .rw .l (.c 0) .ret).arr 6 0x4
def F.Thm.HTYPE_6 : Fld := (fld 0x80 24 3 .rw .l (.c 0) .ret).arr 6 0x4
def F.Thm.HTYPE_7 : Fld := (fld 0x80 28 3 .rw .l (.c 0) .ret).arr 6 0x4
def F.Thm.HEAD_SD_ACK_LO : Fld := fld 0xA0 0 32 .wo .l (.c 0) (.to 0)
def F.Thm.HEAD_SD_ACK_HI : Fld := fld 0xA4 0 16 .wo .l (.c 0) (.to 0)
def F.Thm.H_THROTTLE : Fld := (fld 0x100 16 16 .rw .l (.c 960) .ret).arr 8 0x40
def F.Thm.H_WARN : Fld := (fld 0x100 0 16 .rw .l (.c 880) .ret).arr 8 0x40
def F.Thm.BAND_HYST : Fld := (fld 0x104 24 8 .rw .l (.c 16) .ret).arr 8 0x40
def F.Thm.BANDS_M1 : Fld := (fld 0x104 16 3 .rw .l (.c 0) .ret).arr 8 0x40
def F.Thm.H_SHUTDOWN : Fld := (fld 0x104 0 16 .rw .l (.c 1040) .ret).arr 8 0x40
def F.Thm.EDGE_1 : Fld := (fld 0x108 0 16 .rw .l (.c 0) .ret).arr 8 0x40
def F.Thm.EDGE_2 : Fld := (fld 0x108 16 16 .rw .l (.c 0) .ret).arr 8 0x40
def F.Thm.EDGE_3 : Fld := (fld 0x10C 0 16 .rw .l (.c 0) .ret).arr 8 0x40
def F.Thm.EDGE_4 : Fld := (fld 0x10C 16 16 .rw .l (.c 0) .ret).arr 8 0x40
def F.Thm.EDGE_5 : Fld := (fld 0x110 0 16 .rw .l (.c 0) .ret).arr 8 0x40
def F.Thm.EDGE_6 : Fld := (fld 0x110 16 16 .rw .l (.c 0) .ret).arr 8 0x40
def F.Thm.EDGE_7 : Fld := (fld 0x114 0 16 .rw .l (.c 0) .ret).arr 8 0x40
def F.Thm.HS_BAND_0 : Fld := (fld 0x300 5 3 .ro .l (.c 0) .keep).arr 12 0x4
def F.Thm.HS_BAND_1 : Fld := (fld 0x300 13 3 .ro .l (.c 0) .keep).arr 12 0x4
def F.Thm.HS_BAND_2 : Fld := (fld 0x300 21 3 .ro .l (.c 0) .keep).arr 12 0x4
def F.Thm.HS_BAND_3 : Fld := (fld 0x300 29 3 .ro .l (.c 0) .keep).arr 12 0x4
def F.Thm.HS_STALE_0 : Fld := (fld 0x300 4 1 .ro .l (.c 0) .keep).arr 12 0x4
def F.Thm.HS_STALE_1 : Fld := (fld 0x300 12 1 .ro .l (.c 0) .keep).arr 12 0x4
def F.Thm.HS_STALE_2 : Fld := (fld 0x300 20 1 .ro .l (.c 0) .keep).arr 12 0x4
def F.Thm.HS_STALE_3 : Fld := (fld 0x300 28 1 .ro .l (.c 0) .keep).arr 12 0x4
def F.Thm.HS_SD_LATCHED_0 : Fld := (fld 0x300 3 1 .ro .l (.c 0) .keep).arr 12 0x4
def F.Thm.HS_SD_LATCHED_1 : Fld := (fld 0x300 11 1 .ro .l (.c 0) .keep).arr 12 0x4
def F.Thm.HS_SD_LATCHED_2 : Fld := (fld 0x300 19 1 .ro .l (.c 0) .keep).arr 12 0x4
def F.Thm.HS_SD_LATCHED_3 : Fld := (fld 0x300 27 1 .ro .l (.c 0) .keep).arr 12 0x4
def F.Thm.HS_LEVEL_0 : Fld := (fld 0x300 0 2 .ro .l (.c 0) .keep).arr 12 0x4
def F.Thm.HS_LEVEL_1 : Fld := (fld 0x300 8 2 .ro .l (.c 0) .keep).arr 12 0x4
def F.Thm.HS_LEVEL_2 : Fld := (fld 0x300 16 2 .ro .l (.c 0) .keep).arr 12 0x4
def F.Thm.HS_LEVEL_3 : Fld := (fld 0x300 24 2 .ro .l (.c 0) .keep).arr 12 0x4
/-- Every field of this table. -/
def fieldsThm : List Fld :=
  [F.Thm.SLOW_ACTIVE, F.Thm.TIMING_BAND_1, F.Thm.TIMING_BAND_0, F.Thm.LEVEL_HUB, F.Thm.LEVEL_R0, F.Thm.LEVEL_R1, F.Thm.DIE_TEMP_R0, F.Thm.DIE_TEMP_HUB, F.Thm.DIE_TEMP_B, F.Thm.REGION_TEMP_EVEN, F.Thm.REGION_TEMP_ODD, F.Thm.PAIR_TOL, F.Thm.HEAD_STALE_THROTTLE, F.Thm.SLOW_EN, F.Thm.SLOW_DST_IP, F.Thm.SLOW_DST_PORT, F.Thm.TB_EDGE_2, F.Thm.TB_EDGE_1, F.Thm.TB_HYST, F.Thm.WIDTH_TRIM, F.Thm.SKEW_TRIM, F.Thm.HEAD_EN_0, F.Thm.HEAD_EN_1, F.Thm.HEAD_EN_2, F.Thm.HEAD_EN_3, F.Thm.HEAD_EN_4, F.Thm.HEAD_EN_5, F.Thm.HEAD_EN_6, F.Thm.HEAD_EN_7, F.Thm.HTYPE_0, F.Thm.HTYPE_1, F.Thm.HTYPE_2, F.Thm.HTYPE_3, F.Thm.HTYPE_4, F.Thm.HTYPE_5, F.Thm.HTYPE_6, F.Thm.HTYPE_7, F.Thm.HEAD_SD_ACK_LO, F.Thm.HEAD_SD_ACK_HI, F.Thm.H_THROTTLE] ++
  [F.Thm.H_WARN, F.Thm.BAND_HYST, F.Thm.BANDS_M1, F.Thm.H_SHUTDOWN, F.Thm.EDGE_1, F.Thm.EDGE_2, F.Thm.EDGE_3, F.Thm.EDGE_4, F.Thm.EDGE_5, F.Thm.EDGE_6, F.Thm.EDGE_7, F.Thm.HS_BAND_0, F.Thm.HS_BAND_1, F.Thm.HS_BAND_2, F.Thm.HS_BAND_3, F.Thm.HS_STALE_0, F.Thm.HS_STALE_1, F.Thm.HS_STALE_2, F.Thm.HS_STALE_3, F.Thm.HS_SD_LATCHED_0, F.Thm.HS_SD_LATCHED_1, F.Thm.HS_SD_LATCHED_2, F.Thm.HS_SD_LATCHED_3, F.Thm.HS_LEVEL_0, F.Thm.HS_LEVEL_1, F.Thm.HS_LEVEL_2, F.Thm.HS_LEVEL_3]

/-! Table of 17_thermal_and_power.md, R572. -/
def F.Seq.PMBUS_SPEED : Fld := (fld 0x40 16 2 .rw .l (.c 1) .ret).resv [(3, 3)]
def F.Seq.PEC_EN : Fld := fld 0x40 8 1 .rw .l (.c 1) .ret
def F.Seq.FAULT_DORMANT : Fld := fld 0x40 0 1 .rw .l (.c 0) .ret
def F.Seq.SEQ_STATUS_STEP : Fld := fld 0x44 16 4 .ro .l (.c 0) .keep
def F.Seq.SEQ_STATUS_STATE : Fld := fld 0x44 0 3 .ro .l (.c 0) .keep
def F.Seq.CLEAR_FAULT : Fld := fld 0x48 0 1 .wo .l (.c 0) (.to 0)
def F.Seq.PMBUS_ERRORS : Fld := fld 0x4C 0 32 .ro .l (.c 0) (.to 0)
def F.Seq.RAIL_EN : Fld := (fld 0x100 31 1 .rw .h (.sp 0 [(0, 1), (1, 1), (2, 1), (3, 1), (4, 1), (5, 1)]) .ret).arr 16 0x20
def F.Seq.RAIL_CTRL : Fld := (fld 0x100 28 2 .rw .h (.sp 0 [(0, 3), (1, 2), (2, 2), (3, 2), (4, 2)]) .ret).arr 16 0x20
def F.Seq.RAIL_STEP : Fld := (fld 0x100 24 4 .rw .h (.sp 0 [(1, 1), (2, 2), (3, 3), (4, 4), (5, 5)]) .ret).arr 16 0x20
def F.Seq.RAIL_ADDR : Fld := (fld 0x100 16 7 .rw .h (.sp 0 [(1, 65), (2, 66), (3, 67), (4, 68)]) .ret).arr 16 0x20
def F.Seq.RAIL_EN_PIN : Fld := (fld 0x100 8 4 .rw .h (.sp 0 [(0, 15), (2, 1), (3, 2), (4, 3), (5, 4)]) .ret).arr 16 0x20
def F.Seq.HK_CH : Fld := (fld 0x100 0 8 .rw .h (.c 255) .ret).arr 16 0x20
def F.Seq.NOM_MV : Fld := (fld 0x104 16 16 .rw .h (.sp 0 [(0, 750), (1, 800), (2, 900), (3, 2500), (4, 1200), (5, 600)]) .ret).arr 16 0x20
def F.Seq.UV : Fld := (fld 0x104 8 8 .rw .l (.sp 0 [(0, 10), (1, 10), (2, 10), (3, 10), (4, 10), (5, 10)]) .ret).arr 16 0x20
def F.Seq.OV : Fld := (fld 0x104 0 8 .rw .l (.sp 0 [(0, 10), (1, 10), (2, 10), (3, 10), (4, 10), (5, 10)]) .ret).arr 16 0x20
def F.Seq.DELAY_US : Fld := (fld 0x108 16 16 .rw .l (.sp 0 [(0, 100), (1, 100), (2, 100), (3, 100), (4, 100), (5, 100)]) .ret).arr 16 0x20
def F.Seq.RISE_MS : Fld := (fld 0x108 8 8 .rw .l (.sp 0 [(0, 2), (1, 5), (2, 5), (3, 5), (4, 5), (5, 2)]) .ret).arr 16 0x20
def F.Seq.FALL_MS : Fld := (fld 0x108 0 8 .rw .l (.sp 0 [(0, 10), (1, 10), (2, 10), (3, 10), (4, 10), (5, 10)]) .ret).arr 16 0x20
def F.Seq.READ_MV : Fld := (fld 0x10C 16 16 .ro .l (.c 0) (.to 0)).arr 16 0x20
def F.Seq.IOUT : Fld := (fld 0x10C 3 13 .ro .l (.c 0) (.to 0)).arr 16 0x20
def F.Seq.FAULT : Fld := (fld 0x10C 2 1 .ro .l (.c 0) .keep).arr 16 0x20
def F.Seq.IN_WINDOW : Fld := (fld 0x10C 1 1 .ro .l (.c 0) (.to 0)).arr 16 0x20
def F.Seq.ON : Fld := (fld 0x10C 0 1 .ro .l (.c 0) .keep).arr 16 0x20
/-- Every field of this table. -/
def fieldsSeq : List Fld := [F.Seq.PMBUS_SPEED, F.Seq.PEC_EN, F.Seq.FAULT_DORMANT, F.Seq.SEQ_STATUS_STEP, F.Seq.SEQ_STATUS_STATE, F.Seq.CLEAR_FAULT, F.Seq.PMBUS_ERRORS, F.Seq.RAIL_EN, F.Seq.RAIL_CTRL, F.Seq.RAIL_STEP, F.Seq.RAIL_ADDR, F.Seq.RAIL_EN_PIN, F.Seq.HK_CH, F.Seq.NOM_MV, F.Seq.UV, F.Seq.OV, F.Seq.DELAY_US, F.Seq.RISE_MS, F.Seq.FALL_MS, F.Seq.READ_MV, F.Seq.IOUT, F.Seq.FAULT, F.Seq.IN_WINDOW, F.Seq.ON]

/-! Table of 17_thermal_and_power.md, R573. -/
def F.Core.AVS_MARGIN : Fld := fld 0x40 24 8 .rw .l (.c 10) .ret
def F.Core.COLD_ADD : Fld := fld 0x40 16 8 .rw .l (.c 15) .ret
def F.Core.PHASE_OC : Fld := fld 0x40 0 8 .rw .l (.c 15) .ret
def F.Core.SHED_EN : Fld := fld 0x44 13 1 .rw .l (.c 1) .ret
def F.Core.AVS_EN : Fld := fld 0x44 12 1 .rw .l (.c 1) .ret
def F.Core.FSW : Fld := (fld 0x44 8 2 .rw .h (.c 1) .ret).resv [(3, 3)]
def F.Core.PHASE_EN : Fld := fld 0x44 0 8 .rw .h (.c 255) .ret
def F.Core.AVS_FUSE : Fld := fld 0x48 0 10 .ro .l (.c 750) .keep
def F.Core.TARGET_MV : Fld := fld 0x4C 16 10 .ro .l (.c 750) .keep
def F.Core.VOUT_MV : Fld := fld 0x4C 0 10 .ro .l (.c 0) .keep
def F.Core.PHASES : Fld := fld 0x50 24 8 .ro .l (.c 0) .keep
def F.Core.IOUT : Fld := fld 0x50 0 16 .ro .l (.c 0) .keep
/-- Every field of this table. -/
def fieldsCore : List Fld := [F.Core.AVS_MARGIN, F.Core.COLD_ADD, F.Core.PHASE_OC, F.Core.SHED_EN, F.Core.AVS_EN, F.Core.FSW, F.Core.PHASE_EN, F.Core.AVS_FUSE, F.Core.TARGET_MV, F.Core.VOUT_MV, F.Core.PHASES, F.Core.IOUT]

/-! Table of 17_thermal_and_power.md, R574. -/
def F.Drv.SUPERVISE : Fld := (fld 0x100 31 1 .rw .l (.c 0) .ret).arr 12 0x10
def F.Drv.HK_CH : Fld := (fld 0x100 16 8 .rw .l (.c 255) .ret).arr 12 0x10
def F.Drv.SENSE_PORT : Fld := (fld 0x100 8 2 .rw .l (.c 0) .ret).arr 12 0x10
def F.Drv.NOM_MV : Fld := (fld 0x104 16 16 .rw .l (.c 0) .ret).arr 12 0x10
def F.Drv.WIN : Fld := (fld 0x104 8 8 .rw .l (.c 20) .ret).arr 12 0x10
def F.Drv.OFF : Fld := (fld 0x104 0 8 .rw .l (.c 10) .ret).arr 12 0x10
def F.Drv.RISE_MS : Fld := (fld 0x108 16 16 .rw .l (.c 50) .ret).arr 12 0x10
def F.Drv.FALL_MS : Fld := (fld 0x108 0 16 .rw .l (.c 200) .ret).arr 12 0x10
def F.Drv.MV : Fld := (fld 0x10C 16 16 .ro .l (.c 0) (.to 0)).arr 12 0x10
def F.Drv.FAULT : Fld := (fld 0x10C 2 1 .ro .l (.c 0) (.to 0)).arr 12 0x10
def F.Drv.IN_WINDOW : Fld := (fld 0x10C 1 1 .ro .l (.c 0) (.to 0)).arr 12 0x10
def F.Drv.DRIVE_EN : Fld := (fld 0x10C 0 1 .ro .l (.c 0) (.to 0)).arr 12 0x10
/-- Every field of this table. -/
def fieldsDrv : List Fld := [F.Drv.SUPERVISE, F.Drv.HK_CH, F.Drv.SENSE_PORT, F.Drv.NOM_MV, F.Drv.WIN, F.Drv.OFF, F.Drv.RISE_MS, F.Drv.FALL_MS, F.Drv.MV, F.Drv.FAULT, F.Drv.IN_WINDOW, F.Drv.DRIVE_EN]

/-! Table of 18_control_processors.md, R596. -/
def F.Cpu.RELEASE : Fld := fld 0x40 1 3 .rw .l (.c 0) .keep
def F.Cpu.RUN : Fld := fld 0x44 0 4 .rw .l (.c 0) .keep
def F.Cpu.BASE : Fld := (fld 0x48 0 5 .rw .l (.c 0) .ret).arr 4 0x4
def F.Cpu.SEC_VERSION : Fld := fld 0x58 16 16 .ro .l (.c 0) .keep
def F.Cpu.SLOT : Fld := fld 0x58 8 1 .ro .l (.c 0) .keep
def F.Cpu.SIG_CHECKED : Fld := fld 0x58 4 1 .ro .l (.c 0) .keep
def F.Cpu.BOOTED : Fld := fld 0x58 0 1 .ro .l (.c 0) .keep
def F.Cpu.BOOT_SEQ : Fld := fld 0x5C 0 32 .ro .l (.c 0) .keep
def F.Cpu.BOOT_ENTRY : Fld := fld 0x60 0 32 .ro .l (.c 0) .keep
def F.Cpu.TENDER_FW_ID : Fld := fld 0x64 0 32 .ro .l (.c 0) .keep
def F.Cpu.BOOT_FAIL_B : Fld := fld 0x68 8 8 .ro .l (.c 0) .keep
def F.Cpu.BOOT_FAIL_A : Fld := fld 0x68 0 8 .ro .l (.c 0) .keep
def F.Cpu.LIMIT : Fld := (fld 0x70 16 16 .rw .l (.c 0) .ret).arr 4 0x4
def F.Cpu.ACTION : Fld := (fld 0x70 8 1 .rw .l (.c 0) .ret).arr 4 0x4
def F.Cpu.KICK : Fld := (fld 0x70 0 1 .wo .l (.c 0) (.to 0)).arr 4 0x4
def F.Cpu.L2_MAINT_ADDR_LO : Fld := fld 0x80 0 32 .rw .l (.c 0) (.to 0)
def F.Cpu.L2_MAINT_ADDR_HI : Fld := fld 0x84 0 8 .rw .l (.c 0) (.to 0)
def F.Cpu.L2_MAINT_LEN : Fld := fld 0x88 0 32 .rw .l (.c 0) (.to 0)
def F.Cpu.L2_MAINT_BUSY : Fld := fld 0x8C 8 1 .ro .l (.c 0) (.to 0)
def F.Cpu.L2_MAINT_GO : Fld := fld 0x8C 4 1 .wo .l (.c 0) (.to 0)
def F.Cpu.L2_MAINT_OP : Fld := fld 0x8C 0 2 .rw .l (.c 0) (.to 0)
/-- Every field of this table. -/
def fieldsCpu : List Fld := [F.Cpu.RELEASE, F.Cpu.RUN, F.Cpu.BASE, F.Cpu.SEC_VERSION, F.Cpu.SLOT, F.Cpu.SIG_CHECKED, F.Cpu.BOOTED, F.Cpu.BOOT_SEQ, F.Cpu.BOOT_ENTRY, F.Cpu.TENDER_FW_ID, F.Cpu.BOOT_FAIL_B, F.Cpu.BOOT_FAIL_A, F.Cpu.LIMIT, F.Cpu.ACTION, F.Cpu.KICK, F.Cpu.L2_MAINT_ADDR_LO, F.Cpu.L2_MAINT_ADDR_HI, F.Cpu.L2_MAINT_LEN, F.Cpu.L2_MAINT_BUSY, F.Cpu.L2_MAINT_GO, F.Cpu.L2_MAINT_OP]

/-! Table of 18_control_processors.md, R598. -/
def F.Irq.INT_MODE : Fld := (fld 0x40 8 1 .rw .l (.c 0) .ret).arr 8 0x4
def F.Irq.THRESH : Fld := (fld 0x40 0 3 .rw .l (.c 0) .ret).arr 8 0x4
def F.Irq.CLAIM : Fld := (fld 0x60 0 9 .ro .l (.c 511) (.to 511)).arr 8 0x4
def F.Irq.COMPLETE : Fld := (fld 0x80 0 9 .wo .l (.c 0) (.to 0)).arr 8 0x4
def F.Irq.PIN_THRESH : Fld := (fld 0xA0 0 3 .rw .l (.c 0) .ret).arr 4 0x4
def F.Irq.ROUTE_PRIO : Fld := (fld 0x400 16 3 .rw .l (.sp 1 [(0xA0, 7)]) .ret).arr 256 0x4
def F.Irq.ROUTE_TARGET : Fld := (fld 0x400 0 12 .rw .l (.sp 1 [(0xA0, 0x101)]) .ret).arr 256 0x4
/-- Every field of this table. -/
def fieldsIrq : List Fld := [F.Irq.INT_MODE, F.Irq.THRESH, F.Irq.CLAIM, F.Irq.COMPLETE, F.Irq.PIN_THRESH, F.Irq.ROUTE_PRIO, F.Irq.ROUTE_TARGET]

/-! Table of 18_control_processors.md, R599. -/
def F.Nor.NOR_SIZE : Fld := fld 0x40 0 6 .ro .l (.c 0) .keep
def F.Nor.NOR_ADDR : Fld := fld 0x44 0 25 .rw .l (.c 0) (.to 0)
def F.Nor.NOR_CTRL_GO : Fld := fld 0x48 4 1 .wo .l (.c 0) (.to 0)
def F.Nor.NOR_CTRL_OP : Fld := fld 0x48 0 2 .rw .l (.c 0) (.to 0)
def F.Nor.REFUSED : Fld := fld 0x4C 8 1 .ro .l (.c 0) (.to 0)
def F.Nor.NOR_STATUS_STATE : Fld := fld 0x4C 0 2 .ro .l (.c 0) (.to 0)
def F.Nor.SAVE : Fld := fld 0x50 16 1 .wo .l (.c 0) (.to 0)
def F.Nor.SAVE_PAGE : Fld := fld 0x50 0 8 .rw .l (.c 0) (.to 0)
def F.Nor.ACTIVE_AREA : Fld := fld 0x54 31 1 .ro .l (.c 0) .keep
def F.Nor.CLEAN : Fld := fld 0x54 30 1 .ro .l (.c 0) .keep
def F.Nor.SAVE_BUSY : Fld := fld 0x54 29 1 .ro .l (.c 0) (.to 0)
def F.Nor.FREE_SLOTS : Fld := fld 0x54 0 14 .ro .l (.c 0) .keep
def F.Nor.GENERATION : Fld := fld 0x58 0 32 .ro .l (.c 0) .keep
def F.Nor.LAST_SEQ : Fld := fld 0x5C 0 32 .ro .l (.c 0) .keep
/-- Every field of this table. -/
def fieldsNor : List Fld := [F.Nor.NOR_SIZE, F.Nor.NOR_ADDR, F.Nor.NOR_CTRL_GO, F.Nor.NOR_CTRL_OP, F.Nor.REFUSED, F.Nor.NOR_STATUS_STATE, F.Nor.SAVE, F.Nor.SAVE_PAGE, F.Nor.ACTIVE_AREA, F.Nor.CLEAN, F.Nor.SAVE_BUSY, F.Nor.FREE_SLOTS, F.Nor.GENERATION, F.Nor.LAST_SEQ]

/-! Table of 20_event_reference.md, R630. -/
def F.Led.LEDGER_BASE : Fld := fld 0x40 0 23 .rw .h (.c 0) .ret
def F.Led.LEDGER_SIZE : Fld := fld 0x44 0 16 .rw .h (.c 0) .ret
def F.Led.WRAP : Fld := fld 0x48 0 1 .rw .l (.c 1) .ret
def F.Led.LEDGER_WR : Fld := fld 0x4C 0 23 .ro .l (.c 0) .keep
def F.Led.LEDGER_RD : Fld := fld 0x50 0 23 .rw .l (.c 0) .keep
def F.Led.LEDGER_SEQ : Fld := fld 0x54 0 32 .ro .l (.c 0) .keep
def F.Led.LEDGER_LOST : Fld := fld 0x58 0 32 .ro .l (.c 0) .keep
def F.Led.POOL_LEVEL : Fld := fld 0x5C 0 7 .ro .l (.c 0) .keep
def F.Led.POOL_LOST : Fld := fld 0x60 0 32 .ro .l (.c 0) .keep
/-- Every field of this table. -/
def fieldsLed : List Fld := [F.Led.LEDGER_BASE, F.Led.LEDGER_SIZE, F.Led.WRAP, F.Led.LEDGER_WR, F.Led.LEDGER_RD, F.Led.LEDGER_SEQ, F.Led.LEDGER_LOST, F.Led.POOL_LEVEL, F.Led.POOL_LOST]

/-! Table of 18_control_processors.md, R597. -/
def F.Mbox.LEVEL_YX : Fld := (fld 0x40 16 5 .ro .l (.c 0) (.to 0)).arr 8 0x4
def F.Mbox.LEVEL_XY : Fld := (fld 0x40 0 5 .ro .l (.c 0) (.to 0)).arr 8 0x4
def F.Mbox.SAG_MB_DISAGREE : Fld := fld 0x60 0 32 .ro .l (.c 0) (.to 0)
def F.Mbox.PUSH_LO_XY : Fld := (fld 0x100 0 32 .wo .l (.c 0) (.to 0)).arr 8 0x20
def F.Mbox.PUSH_HI_XY : Fld := (fld 0x104 0 32 .wo .l (.c 0) (.to 0)).arr 8 0x20
def F.Mbox.POP_LO_XY : Fld := (fld 0x108 0 32 .ro .l (.c 0) (.to 0)).arr 8 0x20
def F.Mbox.POP_HI_XY : Fld := (fld 0x10C 0 32 .ro .l (.c 0) (.to 0)).arr 8 0x20
def F.Mbox.PUSH_LO_YX : Fld := (fld 0x110 0 32 .wo .l (.c 0) (.to 0)).arr 8 0x20
def F.Mbox.PUSH_HI_YX : Fld := (fld 0x114 0 32 .wo .l (.c 0) (.to 0)).arr 8 0x20
def F.Mbox.POP_LO_YX : Fld := (fld 0x118 0 32 .ro .l (.c 0) (.to 0)).arr 8 0x20
def F.Mbox.POP_HI_YX : Fld := (fld 0x11C 0 32 .ro .l (.c 0) (.to 0)).arr 8 0x20
/-- Every field of this table. -/
def fieldsMbox : List Fld := [F.Mbox.LEVEL_YX, F.Mbox.LEVEL_XY, F.Mbox.SAG_MB_DISAGREE, F.Mbox.PUSH_LO_XY, F.Mbox.PUSH_HI_XY, F.Mbox.POP_LO_XY, F.Mbox.POP_HI_XY, F.Mbox.PUSH_LO_YX, F.Mbox.PUSH_HI_YX, F.Mbox.POP_LO_YX, F.Mbox.POP_HI_YX]

end Sys2Proof.Machine
end

