-- ==== Sys2Proof/Machine/Tbl.lean ====
section
/-! DEFINITION. Sparse stores as data: a list of (key, value) pairs with rising keys. Registers, aperture words, memory
bytes and the tables of units are all held so. -/

namespace Sys2Proof.Machine

/-- A sparse store. -/
abbrev Tbl (α : Type) := List (Nat × α)

/-- The listed value of a key. -/
def tfind {α : Type} : Tbl α → Nat → Option α
  | [], _ => none
  | (k', v) :: t, k => if k' = k then some v else tfind t k

/-- The value of a key, `d` where it is not listed. -/
def tget {α : Type} (m : Tbl α) (k : Nat) (d : α) : α := (tfind m k).getD d

/-- The store without a key. -/
def tdel {α : Type} : Tbl α → Nat → Tbl α
  | [], _ => []
  | (k', v) :: t, k => if k' = k then tdel t k else (k', v) :: tdel t k

/-- The store with an entry placed before the first greater key. -/
def tins {α : Type} : Tbl α → Nat → α → Tbl α
  | [], k, v => [(k, v)]
  | (k', v') :: t, k, v => if k < k' then (k, v) :: (k', v') :: t else (k', v') :: tins t k v

/-- The store with the value of one key replaced. -/
def tput {α : Type} (m : Tbl α) (k : Nat) (v : α) : Tbl α := tins (tdel m k) k v

/-- As `tput`, but a value equal to what an unlisted key reads as removes the entry. -/
def tputD {α : Type} [DecidableEq α] (m : Tbl α) (k : Nat) (v d : α) : Tbl α :=
  if v = d then tdel m k else tput m k v

/-- Keys strictly rising. -/
def tsorted {α : Type} : Tbl α → Bool
  | [] => true
  | [_] => true
  | (k, _) :: (k', v') :: t => decide (k < k') && tsorted ((k', v') :: t)

/-- The canonical form: keys strictly rising, no entry equal to what an unlisted key reads as. -/
def twf {α : Type} [DecidableEq α] (m : Tbl α) (d : α) : Bool := tsorted m && m.all (fun e => decide (e.2 ≠ d))

/-- Keys listed in a range, with their values. -/
def trange {α : Type} (m : Tbl α) (lo hi : Nat) : Tbl α := m.filter (fun e => decide (lo ≤ e.1) && decide (e.1 < hi))

/-- The store without the keys of a range. -/
def tclear {α : Type} (m : Tbl α) (lo hi : Nat) : Tbl α := m.filter (fun e => !(decide (lo ≤ e.1) && decide (e.1 < hi)))

end Sys2Proof.Machine
end

