-- ==== Sys2Proof/Machine/Blocks.lean ====
section
/-! DEFINITION. The state that the spec gives the block beside its registers, block by block, as plain data. -/

namespace Sys2Proof.Machine

/-- What the last bus access returned to its requester. -/
inductive Resp where
  | none
  | data (v : Nat)
  | busError
  /-- SDRAM data marked as poisoned (R406) -/
  | poisoned
  deriving DecidableEq, Repr

/-- A Ledger record, Table 20-1. -/
structure LedgerRec where
  count : Nat
  epoch : Nat
  code : Nat
  source : Nat
  flags : Nat
  arg : Nat
  seq : Nat
  sys : Nat
  deriving DecidableEq, Repr

/-- The commit boundary of one page (R64 to R73) and the instant at which QUIESCE became 1 (R118). -/
structure Bnd where
  /-- number of the next boundary -/
  next : Nat := 0
  /-- its lead point has passed -/
  leadPassed : Bool := false
  /-- TARGET of the pending commit, none when it is untargeted -/
  tgt : Option Nat := none
  /-- a REQUEST held during COPYING: its TARGET where TARGET_EN was 1 -/
  held : Option (Option Nat) := none
  /-- shadow registers (offsets) and shadow aperture words (offset + 0x1000) written during COPYING -/
  written : List Nat := []
  quiesceAt : Option Nat := none
  /-- first boundary from which HOLD keeps the function stopped (R58) -/
  heldFrom : Option Nat := none
  /-- a function reset of the page has not completed (R45) -/
  resetting : Bool := false
  /-- instant of the last quiesce or release of quiesce that came over the control ring (R123) -/
  ringAt : Option Nat := none
  deriving DecidableEq, Repr

/-- A commit group (R75 to R79). -/
structure Grp where
  tgt : Option Nat := none
  /-- the pending group commit was carried past this boundary -/
  carried : Option Nat := none
  /-- boundary number of the frozen swap -/
  boundary : Nat := 0
  /-- members that have not swapped yet -/
  toSwap : List Nat := []
  /-- members whose copy-back is running -/
  copying : List Nat := []
  held : Option (Option Nat) := none
  deriving DecidableEq, Repr

/-- A request to the control ring (R41, R42): who 0 Sagger, 1 thermal shutdown, 2 Stacks watchdog, 3 host software; for a
function reset, the pages that have been reset since it was asked (R45). -/
structure RingReq where
  who : Nat
  op : Nat
  page : Nat
  word : Nat
  joined : List Nat := []
  deriving DecidableEq, Repr

/-- The ring controller: the frame on the ring, whether it has been resent, and the waiting requests. -/
structure RingX where
  onRing : Option RingReq := none
  resent : Bool := false
  waiting : List RingReq := []
  deriving DecidableEq, Repr

/-- What the mode page holds beside its registers. -/
structure ModeX where
  /-- PORST_n is asserted -/
  porst : Bool := false
  /-- instant of Bisque entry -/
  bisqueSince : Nat := 0
  /-- REG.BISQUE_TIMEOUT has been raised in this Bisque -/
  bisqueTimeout : Bool := false
  /-- entry to Dormant is under way: the journal closes and the rails fall -/
  toDormant : Bool := false
  /-- instant of Dormant entry -/
  dormantSince : Nat := 0
  /-- Dormant was entered by a thermal shutdown (R106) -/
  thermalDormant : Bool := false
  /-- the first housekeeping round after a thermal wake is still to come (R106) -/
  thermalCheck : Bool := false
  /-- wake-control values kept by the wake logic in Dormant: pin enable, timer enable, delay in ms -/
  wakePinEn : Bool := true
  wakeTimerEn : Bool := false
  wakeDelay : Nat := 0
  /-- the data path (ingest, inflate, Glaze, screening, solves) is stopped with its state kept (R102) -/
  pathStopped : Bool := false
  /-- instant and REQ_MODE of the last GO that was accepted (R104) -/
  goAt : Option (Nat × Nat) := none
  deriving DecidableEq, Repr

/-! ### Chapter 7: position -/

/-- One replica of a position channel (R30, R244): the decoder's references, the count, the observer (counts and fclk)
and the index reference. -/
structure Replica where
  /-- 48-bit count (R237) -/
  count : Nat := 0
  x : Rat := 0
  v : Rat := 0
  a : Rat := 0
  /-- instant of the observer's state: its last tick, start or restart -/
  since : Nat := 0
  /-- instant of the last start or restart (R243) -/
  started : Nat := 0
  /-- latest measurement not yet used: m, and its instant in 1/16 fclk -/
  meas : Option (Nat × Nat) := none
  /-- consecutive ticks within LOCK_TOL (R242) -/
  run : Nat := 0
  locked : Bool := false
  /-- index reference REF (R231) -/
  ref : Option Nat := none
  /-- reference pair, 2A + B (R227) -/
  ab : Nat := 0
  /-- last valid three-switch code, 0 before the first (R233) -/
  code : Nat := 0
  /-- last accepted SSI value since ENABLE (R236) -/
  ssi : Option Nat := none
  /-- filtered level of Z, and the filtered three-switch code -/
  z : Bool := false
  sw : Nat := 0
  /-- the glitch filter of each ball: sampled level, instant of its last change, phase bin of that edge (R226); keys: see
  `Replica.sample` -/
  raw : Tbl (Bool × Nat × Nat) := []
  deriving DecidableEq, Repr

/-- One position channel. -/
structure PosX where
  hub : Replica := {}
  r0 : Replica := {}
  r1 : Replica := {}
  /-- instant at which ENABLE became 0; the observer state holds (R225) -/
  heldAt : Option Nat := some 0
  /-- pairs (hub, r0), (hub, r1), (r0, r1) whose counts differed by one at the last tick (R244) -/
  apart : List Bool := [false, false, false]
  /-- instant of the last tick with a mismatch -/
  misAt : Option Nat := none
  /-- first falling edge of the SSI frame in progress (R234) -/
  frame : Option Nat := none
  /-- start of the last SSI frame, and the end of its gap -/
  lastStart : Option Nat := none
  gapEnd : Nat := 0
  /-- captures not yet consumed: requester agent * 2 + (0 count, 1 position), with the upper bits (R256) -/
  caps : Tbl Nat := []
  deriving DecidableEq, Repr

/-- What a divider holds beside its registers. -/
structure DivX where
  /-- pulses on its ball that have not ended when the last one was emitted, from and to in fclk (R247) -/
  spans : List (Nat × Nat) := []
  /-- instant of the last SYNC, and ACC and BACKLOG as the steps of that cycle see them (R248) -/
  syncAt : Option Nat := none
  oldAcc : Int := 0
  oldBack : Int := 0
  deriving DecidableEq, Repr

/-- What a compare unit holds beside its registers. -/
structure CmpX where
  /-- direction taken at arming: reverse (R249) -/
  rev : Bool := false
  /-- pulses that have not ended when the last one began: output 1 to 8, from and to at the ball in fclk (R253) -/
  spans : List (Nat × Nat × Nat) := []
  /-- the cycle in which the target that CMP_PERIOD has set is judged (R252) -/
  judgeAt : Option Nat := none
  /-- the cycle in which a DISARM has cleared the armed unit (R254) -/
  disAt : Option Nat := none
  deriving DecidableEq, Repr

end Sys2Proof.Machine
end

