-- ==== Sys2Proof/Machine/Blocks10.lean ====
section
/-! DEFINITION. The state of the processors, mailboxes, router and NOR beside their registers (chapter 18), and of the calibration store. -/

namespace Sys2Proof.Machine

/-- A message that Sagger channels have written: its 64 bits, when it was first written, the channels that have written it, and
whether it has been pushed (R591). -/
structure SagMsg where
  data : Nat
  first : Nat
  chans : Nat
  pushed : Bool
  deriving DecidableEq, Repr

/-- Processors and boot. -/
structure CpuX where
  /-- host cores that run, bit k -/
  running : Nat := 0
  /-- last KICK, LIMIT or start of each host core's watchdog -/
  kickAt : Tbl Nat := []
  /-- the boot ROM: 0 waits for the retained store, 1 tries a candidate, 2 has started core 0, 3 has found no image -/
  boot : Nat := 0
  /-- slot being tried and slots still to be tried -/
  slot : Nat := 0
  left : List Nat := []
  /-- tenders that a fault has halted -/
  halted : Nat := 0
  /-- mailbox FIFOs, oldest first; key 2 m + direction (0 X to Y) -/
  fifo : Tbl (List Nat) := []
  /-- PUSH_LO of each FIFO, and from key 16 on of each Sagger channel -/
  pushLo : Tbl Nat := []
  /-- messages that Sagger channels have written for the host -/
  sagOut : List SagMsg := []
  /-- inputs that a core has claimed and not completed -/
  claims : Tbl (List Nat) := []
  /-- the L2 maintenance that runs: operation, first line and number of lines (R576) -/
  l2Job : Option (Nat × Nat × Nat) := none
  /-- L2 lines that hold an uncorrectable word (R579) -/
  l2Bad : List Nat := []
  /-- the host operation on the NOR: OP and address -/
  norJob : Option (Nat × Nat) := none
  /-- NOR bytes outside the journal areas; an unlisted byte is erased -/
  nor : Tbl Byte := []
  deriving DecidableEq, Repr

/-- The calibration store. -/
structure CalX where
  /-- categories of the SAVE in progress not yet written, and those of it that failed -/
  saving : Nat := 0
  failed : Nat := 0
  /-- categories of the APPLY in progress, HK_ROUNDS at its start, and regions whose tender core has still to write -/
  applying : Nat := 0
  round : Nat := 0
  regions : List Nat := []
  /-- regions whose APPLY, on an ACTIVE part, is not yet committed (R496) -/
  mirror : List Nat := []
  deriving DecidableEq, Repr

end Sys2Proof.Machine
end

