-- ==== Sys2Proof/Machine/Blocks2.lean ====
section
/-! DEFINITION. The state of the data path beside its registers: folios, inflate, Glaze, screening, firing ports and Coil
lanes. -/

namespace Sys2Proof.Machine

/-! ### Chapters 4 to 6: folios, inflate, Glaze and screening -/

/-- A directory entry, Table 4-3, with the reason of R141 or R185 that makes it unusable (0: none). -/
structure Entry where
  ix : Nat
  type : Nat
  port : Nat
  coding : Nat
  format : Nat
  firstLine : Nat
  lineCount : Nat
  xOff : Nat
  width : Nat
  dataOff : Nat
  compLen : Nat
  origCrc : Nat
  compCrc : Nat
  /-- bytes 36 to 47 -/
  ext : List Nat
  bad : Nat
  /-- reason of Table 5-4 for an ignored tile, 0 for none -/
  tileBad : Nat := 0
  deriving DecidableEq, Repr

/-- An item of a folio as the inflate group's table holds it (R145, R150, R156). -/
structure Item where
  e : Entry
  /-- SDRAM space: address and length of each piece, none until allocated -/
  place : Option (List (Nat × Nat)) := none
  /-- the cache entry that the data comes from -/
  fromCache : Option Nat := none
  /-- the cache entry that holds the item's own strip, with its serial number; kept where a substitute prints (R151) -/
  home : Option (Nat × Nat) := none
  /-- 0 before its need point, 1 may be dispatched, 2 ended, 3 missing, 4 skipped -/
  st : Nat := 0
  /-- compressed bytes consumed up to the last restart -/
  inOff : Nat := 0
  /-- original data produced -/
  out : List Byte := []
  /-- engine that last took up the item, and the output count at which its history began -/
  engine : Option Nat := none
  hist : Nat := 0
  /-- decoded as unsliced from here on (R158) -/
  whole : Bool := false
  /-- the stream has been decoded to its end -/
  atEnd : Bool := false
  /-- ended by a stream error (R155) -/
  broken : Bool := false
  /-- the zlib or gzip check did not match -/
  frameBad : Bool := false
  /-- a substitute from the folio before (R151) -/
  sub : Bool := false
  /-- the copy path left bytes out (R195) -/
  part : Bool := false
  /-- GLAZE.OVERLAY_LATE has been raised for the tile (R189) -/
  late : Bool := false
  deriving DecidableEq, Repr

/-- An accepted folio header, Table 4-2. -/
structure Hdr where
  lines : Nat
  count : Nat
  flags : Nat
  cacheId : Nat
  len : Nat
  dirCrc : Nat
  deriving DecidableEq, Repr

/-- A folio that ingest holds. -/
structure Folio where
  n : Nat
  hdr : Option Hdr := none
  /-- header and directory are accepted, or ingest has created the folio (R143) -/
  known : Bool := false
  items : List Item := []
  /-- chunk payloads held until the directory is accepted: container offset, bytes -/
  raw : List (Nat × List Byte) := []
  /-- container bytes held, as ranges -/
  held : List (Nat × Nat) := []
  /-- chunks received, and those held early: offset, length and the ranges of bytes they brought (R133) -/
  chunks : Nat := 0
  early : List (Nat × Nat × List (Nat × Nat)) := []
  /-- chunks whose length is judged at the header, in the same form (R128) -/
  odd : List (Nat × Nat × List (Nat × Nat)) := []
  ringFull : Bool := false
  cacheFull : Bool := false
  deriving DecidableEq, Repr

/-- A strip of a cache entry (R147). -/
structure CStrip where
  e : Entry
  place : List (Nat × Nat)
  /-- held with COMP_CRC verified -/
  ok : Bool := false
  bad : Bool := false
  deriving DecidableEq, Repr

/-- A repeat-cache entry beside its register. -/
structure CEntry where
  lines : Nat := 0
  /-- serial number of the entry, so that a later one under the same CACHE_ID is told from it -/
  gen : Nat := 0
  strips : List CStrip := []
  deriving DecidableEq, Repr

/-- Ingest (page 0x060). -/
structure IngX where
  /-- folios whose deadline has not passed -/
  held : List Folio := []
  /-- folios whose deadline has passed and that a port may still print -/
  past : List Folio := []
  /-- folios beyond E whose deadline has passed -/
  passed : List Nat := []
  /-- ingest knows no folio E - 1 (R143) -/
  fresh : Bool := true
  /-- folio numbers with INGEST.FOLIO_STALE, with INGEST.CHUNK_BAD -/
  stale : List Nat := []
  badSeen : List Nat := []
  cache : Tbl CEntry := []
  /-- cache entries created so far -/
  made : Nat := 0
  deriving DecidableEq, Repr

/-- One inflate engine. -/
structure Engine where
  /-- folio and directory index of the item that it decodes -/
  cur : Option (Nat × Nat) := none
  bound : Bool := false
  deriving DecidableEq, Repr

/-- A rectangle, Table 5-6. -/
structure Rect where
  first : Nat
  count : Nat
  x : Nat
  width : Nat
  mask : Nat
  deriving DecidableEq, Repr

/-- A region's rectangle list of one folio (R191 to R193). -/
structure RectList where
  folio : Nat
  ix : Nat
  /-- 0 decoded and checked, else the cause of GLAZE.RECT_LIST_MISSING -/
  cause : Nat
  rects : List Rect
  deriving DecidableEq, Repr

/-- An earlier active set of a region's pages, for lines of folios before `until_` (R26, R74). -/
structure OldSet where
  until_ : Nat
  regs : Tbl Nat
  aptw : Tbl Nat
  deriving DecidableEq, Repr

/-- One region: inflate group, Glaze and screening. -/
structure RegionX where
  engines : Tbl Engine := []
  /-- the folio last begun (R142) -/
  begun : Option Nat := none
  old : List OldSet := []
  /-- lists decoded, and lists in use with their folio -/
  decoded : List RectList := []
  lists : List RectList := []
  /-- after a function reset lines are zero (Table 3-8): until a folio start, or for folios before one -/
  zero : Bool := false
  zeroBelow : Option Nat := none
  /-- table entries that read uncorrectable: table, index, folios of this run that have counted it (R222) -/
  badTab : List (Nat × Nat × List Nat) := []
  deriving DecidableEq, Repr

/-! ### Chapter 8: firing ports -/

/-- What a port carries for one folio on its way: start target, the set taken up at its reference instant, and the phases
of its table (R74, R261, R287). -/
structure FolioRun where
  n : Nat
  start : Option Nat
  /-- S of this folio less S of the folio before it, where it was formed under R261 -/
  gain : Option Int
  dw : Nat
  flight : Nat
  phases : List Nat
  replay : Bool
  /-- LINES where the port does not take them from the folio that ingest holds (R132, R167) -/
  lines : Option Nat := none
  deriving DecidableEq, Repr

/-- One line slot of the buffer (R279). -/
structure Slot where
  folio : Nat
  line : Nat
  /-- place of the line in the run -/
  seq : Nat
  /-- the request has gone out (R117) -/
  asked : Bool := true
  /-- levels of the complete line -/
  data : Option (List Nat) := none
  /-- the region has screened the line, whether or not its levels were still used (R220, R281) -/
  screened : Bool := false
  sent : Bool := false
  /-- wholly sent -/
  done : Bool := false
  /-- sent as a zero line -/
  zero : Bool := false
  /-- its replay read was poisoned (R290) -/
  bad : Bool := false
  deriving DecidableEq, Repr

/-- One firing port. -/
structure PortX where
  /-- lines requested and not yet fired, in order -/
  slots : List Slot := []
  /-- last line requested from the region, and last line with a slot; they differ while the port is quiesced (R117) -/
  lastReq : Option (Nat × Nat) := none
  lastLine : Option (Nat × Nat) := none
  /-- next line that Glaze composes, and composed lines waiting for screening -/
  compose : Option (Nat × Nat) := none
  composed : List (Nat × Nat × List Nat) := []
  runs : List FolioRun := []
  /-- due instants of the first slots, in 1/16 fclk -/
  due : List Nat := []
  /-- f of the last fired line, and the last fired line -/
  lastF : Option Nat := none
  fired : Option (Nat × Nat) := none
  /-- strobes of the last fired line, or the last tickle strobe: rise and fall in 1/16 fclk (R273, R291, R555) -/
  strobes : List (Nat × Nat) := []
  seq : Nat := 0
  /-- the folio being started, its START_SRC, and whether its start target stands -/
  start : Nat := 0
  src : Nat := 0
  started : Bool := false
  /-- ENABLE must go to 0 and back before the next run (R266) -/
  spent : Bool := false
  /-- the last line that fires, and the state that follows: 0 stopped, 6 held, 7 fault -/
  stopAt : Option (Nat × Nat) := none
  stopTo : Nat := 0
  /-- folios below this one have no items for this port (R132) -/
  noItems : Option Nat := none
  /-- rise of the last tickle strobe, or entry to TICKLE before the first; in 1/16 fclk -/
  tickled : Nat := 0
  /-- the port leaves TICKLE once the strobe in progress has ended -/
  leaving : Bool := false
  /-- the replay record: folio recorded, its LINES, lines written, clean so far (R288) -/
  recFolio : Option Nat := none
  recTotal : Nat := 0
  recLines : Nat := 0
  recClean : Bool := false
  /-- folios for which an event of R288 named the port -/
  dirty : List Nat := []
  deriving DecidableEq, Repr

/-! ### Chapter 9: Coil lanes -/

/-- A message on a lane (Table 9-5): its body, and for a LINE the port line that it carries. -/
structure Msg where
  type : Nat
  flags : Nat
  body : List Byte
  folio : Nat := 0
  line : Nat := 0
  deriving DecidableEq, Repr

/-- A block receiver (R306, R317, R318). -/
structure RxX where
  /-- BSEQ of the last marker -/
  seq : Option Nat := none
  /-- consecutive good markers while searching; consecutive misses while locked -/
  good : Nat := 0
  miss : Nat := 0
  /-- bytes of a message in progress; a message was lost, so CONT bytes are skipped -/
  part : List Byte := []
  lost : Bool := false
  /-- blocks discarded for their BSEQ -/
  seqErrs : Nat := 0
  deriving DecidableEq, Repr

/-- A block transmitter (R299 to R305, R320). -/
structure TxX where
  /-- blocks are sent, or the test sequence with this shift register -/
  on : Bool := false
  gen : Option Nat := none
  /-- count of the block in progress modulo 2^11, and the instant at which its marker began, in 1/32 ns; for the test sequence the
  instant of its next bit -/
  seq : Nat := 0
  start : Nat := 0
  /-- header of the block in progress, and the bytes of its message area chosen so far -/
  head : List Byte := []
  area : List Byte := []
  /-- bytes not yet chosen of the messages begun, in order; bytes of the first one have been chosen -/
  left : List (List Byte) := []
  mid : Bool := false
  /-- the last block sent, as it stood on the line -/
  last : List Bool := []
  deriving DecidableEq, Repr

/-- The check of the test sequence (R320): the last 31 bits, how many there are, the run of error-free bits, lock, and
RX_TEST_ERRORS. -/
structure TestX where
  hist : Nat := 0
  seen : Nat := 0
  run : Nat := 0
  lock : Bool := false
  errs : Nat := 0
  deriving DecidableEq, Repr

/-- One head lane. -/
structure LaneX where
  cur : Option Msg := none
  tx : TxX := {}
  /-- WAVE_SELECTs that wait: tickle form or the form of the head's band (R314) -/
  selects : List Bool := []
  lines : List Msg := []
  bcfg : Option Msg := none
  loads : List Msg := []
  /-- table last selected, and the band for which a selection was last required -/
  selected : Option Nat := none
  band : Option Nat := none
  /-- table of the download in progress; the final WAVE_LOAD was wholly sent at this instant (R316) -/
  dlTable : Nat := 0
  dlSent : Option Nat := none
  rx : RxX := {}
  lastStatus : Option Nat := none
  lastTemp : Option Nat := none
  /-- drive-rail voltage of the last good TEMP, mV -/
  drive : Nat := 0
  fault : Bool := false
  bothHold : Bool := false
  /-- LANE.WRONG_PORT has been raised since the lane last locked -/
  wrongPort : Bool := false
  test : TestX := {}
  deriving DecidableEq, Repr

end Sys2Proof.Machine
end

