-- ==== Sys2Proof/Machine/Blocks3.lean ====
section
/-! DEFINITION. The state of the inspection cameras beside their registers (chapter 10). -/

namespace Sys2Proof.Machine

/-- A scan line in assembly, or assembled and waiting for the pipeline (R335 to R342). -/
structure CamLine where
  /-- serial number of its frame in the slot, none while no frame is open -/
  ser : Option Nat := none
  /-- frame number, line within the frame, EXP_ID and EXP_UNCERTAIN of the frame -/
  n : Nat := 0
  ix : Nat := 0
  exp : Nat := 0
  unsure : Bool := false
  padded : Bool := false
  cut : Bool := false
  crc : Bool := false
  tagInvalid : Bool := false
  misaligned : Bool := false
  /-- packets beyond the third -/
  long : Bool := false
  /-- planes with fewer and with more pixels than PIXELS (R337) -/
  shorts : Nat := 0
  cuts : Nat := 0
  tag : Nat := 0
  tagTime : Nat := 0
  /-- the pipeline set that was active when the line entered line assembly -/
  set : Nat := 0
  /-- raw16 values of each plane, and how many samples were saturated -/
  planes : List (List Nat) := []
  sat : Nat := 0
  deriving DecidableEq, Repr

/-- A frame of a slot, open or closed with lines still in the pipeline (R338, Table 10-6). -/
structure FrameX where
  ser : Nat
  /-- the number that it takes at its first line -/
  n : Option Nat := none
  exp : Nat := 0
  unsure : Bool := false
  sensor : Nat := 0
  /-- lines of the frame, those delivered to the pipeline, and of these the ones not processed yet -/
  lines : Nat := 0
  delivered : Nat := 0
  pend : Nat := 0
  shortLines : Nat := 0
  longLines : Nat := 0
  crcLines : Nat := 0
  tagMissing : Nat := 0
  sat : Nat := 0
  invalid : Nat := 0
  firstTag : Option Nat := none
  lastTag : Option Nat := none
  /-- sums over valid pixels and their number, for reflectance and for absorbance -/
  sumR : List Nat := [0, 0, 0]
  sumA : List Nat := [0, 0, 0]
  validR : Nat := 0
  validA : Nat := 0
  longFrame : Bool := false
  crcError : Bool := false
  headerDrop : Bool := false
  feMissing : Bool := false
  tagSlip : Bool := false
  overflow : Bool := false
  aborted : Bool := false
  misaligned : Bool := false
  /-- CAM.PIPE_ERROR has been raised for this frame -/
  pipeErr : Bool := false
  /-- COUNT at the close -/
  endTime : Nat := 0
  /-- FLAGS at the close -/
  flags : Nat := 0
  deriving DecidableEq, Repr

/-- A stream's slot in line assembly. -/
structure CamSlot where
  frame : Option FrameX := none
  /-- closed frames whose last lines are still in the pipeline -/
  closing : List FrameX := []
  /-- serial number of the next frame -/
  ser : Nat := 0
  line : Option CamLine := none
  /-- a Line Start has opened a planar line (R335) -/
  lsOpen : Bool := false
  ready : List CamLine := []
  /-- tags: position, instant in ns, COUNT of that instant -/
  tags : List (Nat × Nat × Nat) := []
  misaligned : Bool := false
  deriving DecidableEq, Repr

/-- An exposure set that has swapped (R353). -/
structure ExpSeq where
  id : Nat
  f : Nat
  /-- writes not yet sent: entry, device, register, data -/
  left : List (Nat × Nat × Nat × Nat)
  late : Bool := false
  begun : Bool := false
  deriving DecidableEq, Repr

/-- One link page or the parallel page. -/
structure LinkX where
  /-- instant of the last accepted long packet, or of the first slot's enable -/
  lastLong : Nat := 0
  /-- sequences that run or wait, oldest first -/
  exps : List ExpSeq := []
  /-- from this frame on, this EXP_ID and EXP_UNCERTAIN; oldest first -/
  ids : List (Nat × Nat × Bool) := []
  /-- transaction on the balls: 0 none, 1 of a sequence, 2 direct -/
  run : Nat := 0
  /-- direct operation that waits or runs: read, device, register, data -/
  direct : Option (Bool × Nat × Nat × Nat) := none
  deriving DecidableEq, Repr

/-- One tap: the capture that waits for a frame start, and the serial of the first frame recorded. -/
structure TapX where
  arm : Bool := false
  first : Option Nat := none
  deriving DecidableEq, Repr

/-- A mapped line on its way to the density tracker (R348): grid units with their absorbances, none where invalid. -/
structure MapLine where
  stream : Nat
  n : Nat
  exp : Nat
  unsure : Bool
  flags : Nat
  tag : Nat
  xs : List (Nat × Option (Nat × Nat × Nat))
  deriving DecidableEq, Repr

/-- The camera pipeline and the taps. -/
structure PipeX where
  /-- number of the active set, and older sets that buffered lines still need: fields and words -/
  set : Nat := 0
  old : List (Nat × Tbl Nat × Tbl Nat) := []
  /-- CAM.STATS_OVERFLOW has been raised since a record was last written -/
  full : Bool := false
  taps : Tbl TapX := []
  mapped : List MapLine := []
  deriving DecidableEq, Repr

end Sys2Proof.Machine
end

