-- ==== Sys2Proof/Machine/Blocks4.lean ====
section
/-! DEFINITION. The state of the density tracker and of the timing calibration beside their registers (chapter 11). -/

namespace Sys2Proof.Machine

/-- The Proof row that a port is writing (R362, R364). -/
structure ProofPort where
  row : Nat
  /-- lines that landed in the row, and the sum of their volumes for each nozzle -/
  lines : Nat := 0
  sums : List Nat := []
  part : Bool := false
  /-- the slot holds a later row, so nothing is written -/
  drop : Bool := false
  deriving DecidableEq, Repr

/-- What the tracker keeps of a port (R378). -/
structure TrkPort where
  tref : Nat := 0
  /-- instant of the last accepted update -/
  accepted : Option Nat := none
  req : Bool := false
  deriving DecidableEq, Repr

/-- The density tracker. -/
structure TrkX where
  proof : Tbl ProofPort := []
  ports : Tbl TrkPort := []
  /-- instant at which ENABLE was set -/
  enabledAt : Nat := 0
  /-- start row of the window in progress, and EXP_ID of the first line used in it -/
  start : Option Nat := none
  exp : Option Nat := none
  /-- for each lag from -4 to 4: lines, and the sums of s, s^2, r, r^2 and s r -/
  lag : List (List Nat) := []
  /-- phase 1 runs since this instant -/
  solveAt : Option Nat := none
  /-- ports that phase 2 still has to take, since this instant -/
  pend : List Nat := []
  pendAt : Nat := 0
  /-- ports whose new values wait in a screening shadow set for their swap -/
  await : List Nat := []
  /-- nozzles to be marked MISSING at the next write: port, nozzle, OUT_POLICY -/
  toMiss : List (Nat × Nat × Nat) := []
  deriving DecidableEq, Repr

/-- A timing-calibration run of one die, and the tables that wait to take effect (R383 to R387). -/
structure TdcX where
  /-- die temperature at the start, and instant of the start -/
  temp : Nat := 0
  began : Nat := 0
  /-- edges in each bin, for each converter of the die -/
  hits : Tbl (List Nat) := []
  /-- a unit of the run has been rejected with reason 1 to 5, and RUN_REJECTED has been raised for the first one -/
  failed : Bool := false
  told : Bool := false
  /-- accepted tables: offset in the active windows of page 0x079, and bytes -/
  fresh : List (Nat × List Nat) := []
  deriving DecidableEq, Repr

end Sys2Proof.Machine
end

