-- ==== Sys2Proof/Machine/Blocks5.lean ====
section
/-! DEFINITION. The state of the SDRAM controller beside its registers (chapter 12). -/

namespace Sys2Proof.Machine

/-- A request for one 64-byte burst, as a channel queues it (R400, R403, R404). -/
structure MemReq where
  /-- order of arrival at the channel queue -/
  seq : Nat := 0
  /-- SDRAM address of the burst -/
  burst : Nat
  /-- requester class (R427) -/
  cls : Nat
  urgent : Bool := false
  wr : Bool
  /-- bit i: byte i of the burst is written -/
  mask : Nat := 0
  data : List Nat := []
  /-- instant of arrival at the queue -/
  since : Nat := 0
  /-- the 64 bytes and the uncorrectable words that the components give for its RD (R403) -/
  got : List Nat := []
  gotBad : List Nat := []
  deriving DecidableEq, Repr

/-- REF and ZQCS of one rank: postponed ones, ones that are due, and the instant at which the last REF became due with the
interval to the next one (R410, R412, R413). -/
structure MemRank where
  refs : Nat := 0
  refNow : Nat := 0
  refAt : Option Nat := none
  interval : Nat := 0
  zqs : Nat := 0
  zqNow : Nat := 0
  deriving DecidableEq, Repr

/-- A command in the retry buffer (R408): 0 RD, 1 WR, 2 ACT, 3 PRE, 4 REF, 5 ZQCS, 6 PREA, 7 SRE, 8 SRX, 9 ZQCL, 10 MRS, with
its burst address, rank or mode register, its instant and the request of an RD or WR. -/
structure MemCmd where
  kind : Nat
  arg : Nat
  issued : Nat
  req : Nat
  deriving DecidableEq, Repr

/-- One channel. -/
structure MemX where
  /-- requests that the fabric holds by credit -/
  wait : List MemReq := []
  reads : List MemReq := []
  writes : List MemReq := []
  /-- RD commands whose data has not returned; a write here is a merge of R404 -/
  flight : List MemReq := []
  seq : Nat := 0
  /-- open row of each bank, key rank * 8 + bank -/
  rows : Tbl Nat := []
  drain : Bool := false
  cmds : List MemCmd := []
  /-- consecutive alerts -/
  alerts : Nat := 0
  ranks : Tbl MemRank := []
  zqAt : Nat := 0
  /-- instant at which the last request ended -/
  idleAt : Nat := 0
  /-- training: 0 none, 1 check, 2 full pass; `auto` when a failed check leads on to a full pass (R420) -/
  train : Nat := 0
  auto : Bool := false
  fullRan : Bool := false
  /-- steps of R419 that the last full pass has completed on every byte lane -/
  steps : List Nat := []
  /-- training has passed since the last failure or since power-up -/
  ok : Bool := false
  /-- points with valid results in the retained store (R420) -/
  valid : List Nat := []
  /-- instant of the last temperature reading -/
  tempAt : Nat := 0
  deriving DecidableEq, Repr

/-- What the channels share: the point of a pending change and of a change in progress (R421 to R423). -/
structure MemCommon where
  pend : Option Nat := none
  chg : Option Nat := none
  deriving DecidableEq, Repr

end Sys2Proof.Machine
end

