-- ==== Sys2Proof/Machine/Blocks6.lean ====
section
/-! DEFINITION. The state of the Stacks Bus, of the scrubber and of the die-to-die links beside their registers (R38 to R40,
chapter 13). -/

namespace Sys2Proof.Machine

/-- A request of one Stacks Bus requester (R434). -/
structure StackReq where
  /-- the target is SDRAM, else the Reading Room -/
  sdram : Bool
  addr : Nat
  wr : Bool
  beats : Nat
  data : List Nat := []
  /-- xclk counts of arrival and of the stamp (R437, R438) -/
  arrived : Nat
  stamp : Nat
  /-- beats transferred -/
  done : Nat := 0
  /-- bytes read so far, and whether a burst of them is poisoned -/
  got : List Nat := []
  poisoned : Bool := false
  deriving DecidableEq, Repr

/-- The Stacks Bus: requests by requester, and the tenure in progress: owner, xclk of its first beat, length. -/
structure StackX where
  reqs : Tbl StackReq := []
  owner : Option Nat := none
  first : Nat := 0
  len : Nat := 0
  deriving DecidableEq, Repr

/-- The scrubber of a die: next word, and the instant of its last read. -/
structure ScrubX where
  word : Nat := 0
  last : Option Nat := none
  deriving DecidableEq, Repr

/-- One direction of a die-to-die link (R39): sequence number of the next flit, and consecutive failed replays of it while a
replay is awaited. -/
structure FlitX where
  next : Nat := 0
  replay : Option Nat := none
  deriving DecidableEq, Repr

end Sys2Proof.Machine
end

