-- ==== Sys2Proof/Machine/Blocks7.lean ====
section
/-! DEFINITION. The state of the network ports, the switch, the time clock and the time triggers beside their registers
(chapter 14). -/

namespace Sys2Proof.Machine

/-- A learned address (R452). -/
structure Learned where
  vid : Nat
  mac : Nat
  port : Nat
  seen : Nat
  deriving DecidableEq, Repr

/-- Key of a two-step Sync: sourcePortIdentity, domainNumber, sequenceId, egress port (R461). -/
structure TcKey where
  src : Nat
  dom : Nat
  seq : Nat
  out : Nat
  deriving DecidableEq, Repr

/-- What the transparent clock does with a queued frame as it leaves: nothing, add the residence time, note the residence time
of a two-step Sync, or take t3 of the part's own Delay_Req. -/
inductive TcKind where
  | plain
  | correct
  | twoStep (k : TcKey)
  | own (seq : Nat)
  deriving DecidableEq, Repr

/-- A frame in an egress queue: its bytes as they leave without FCS, the instant of its last byte's arrival, and for a PTP frame
the ingress stamp in 1/4 tsclk, the offset of its PTP header and its transport (0 IEEE 802.3, 1 UDP/IPv4, 2 UDP/IPv6). -/
structure QFrame where
  bytes : List Byte
  arrived : Nat
  kind : TcKind := .plain
  stamp : Int := 0
  off : Nat := 0
  l3 : Nat := 0
  deriving DecidableEq, Repr

/-- The residence time of a two-step Sync in 2^-16 ns, none until it has left, and the instant at which it left. -/
structure TcEntry where
  key : TcKey
  res : Option Int := none
  left : Nat := 0
  deriving DecidableEq, Repr

/-- The switch. -/
structure NetX where
  learned : List Learned := []
  /-- key: 4 * switch port + queue, oldest first -/
  queues : Tbl (List QFrame) := []
  /-- the last frame that left each switch port, and the instant at which the port is idle -/
  sent : Tbl (List Byte) := []
  idle : Tbl Nat := []
  /-- residence times, oldest first, and the Follow_Ups that wait for their Sync to leave -/
  tc : List TcEntry := []
  held : List (TcKey × QFrame) := []
  /-- NET.HOST_RING_FULL has been raised -/
  full : Bool := false
  /-- SYS_ADDR as of the last change of mode to Idle (R482) -/
  sys : Nat := 0
  deriving DecidableEq, Repr

/-- A foreign master on a port (R463): sourcePortIdentity, its data set in the order of comparison, and its announcements. -/
structure Foreign where
  src : Nat
  port : Nat
  /-- priority1, class, accuracy, variance, priority2, identity of the grandmaster as one number -/
  gm : Nat
  steps : Nat
  utc : Nat
  logAnn : Int
  seen : Nat
  l3 : Nat
  deriving DecidableEq, Repr

/-- A complete Sync: t1 + c_S and the local time of receipt in 2^-16 ns, and the stamp of receipt in 1/4 tsclk. -/
structure SyncX where
  master : Int
  t2 : Int
  q : Int
  deriving DecidableEq, Repr

/-- A change of EPOCH (Table 14-5): EPOCH_C, EPOCH_T in 2^-40 ns, RATE, step. -/
structure Epoch where
  c : Nat
  t : Nat
  rate : Nat
  step : Bool
  deriving DecidableEq, Repr

/-- The time clock. -/
structure PtpX where
  epochC : Nat := 0
  /-- EPOCH_T in 2^-40 ns -/
  epochT : Nat := 0
  /-- the epoch log, newest first, at most 256 -/
  log : List Epoch := []
  foreign : List Foreign := []
  /-- sourcePortIdentity of the parent -/
  parent : Option Nat := none
  /-- the rate estimate I -/
  rateI : Nat := 2 ^ 41
  mpd : Option Int := none
  theta : Int := 0
  /-- exchanges of the qualification, newest first: d_k and its Sync -/
  exch : List (Int × SyncX) := []
  /-- the last complete Sync, whether a Delay_Resp has used it, and a two-step Sync that waits for its Follow_Up -/
  last : Option SyncX := none
  used : Bool := false
  waiting : Option (Nat × Int × SyncX) := none
  /-- instant of the last complete Sync from the parent, and its logMessageInterval -/
  syncAt : Nat := 0
  syncLog : Int := 0
  within : Nat := 0
  outliers : Nat := 0
  /-- sequenceId of the last Delay_Req sent, its t3 once it has left, and the instant of the next one -/
  reqSeq : Nat := 0
  reqT3 : Option (Nat × Int) := none
  reqNext : Nat := 0
  /-- logMessageInterval of the last Delay_Resp -/
  respLog : Option Int := none
  /-- cause of the HOLDOVER that has begun and not ended -/
  hold : Option Nat := none
  /-- captures of R468 by requester: COUNT and T in 2^-40 ns -/
  caps : Tbl (Nat × Nat) := []
  deriving DecidableEq, Repr

/-- A time trigger: number of the next target, and the pulse on its ball, from and to in ns. -/
structure TrigX where
  j : Nat := 0
  from_ : Nat := 0
  to_ : Nat := 0
  deriving DecidableEq, Repr

/-- A capture FIFO, oldest first: count, T in ns, rising edge; and whether an overflow has been reported (R481). -/
structure TcapX where
  fifo : List (Nat × Nat × Bool) := []
  told : Bool := false
  deriving DecidableEq, Repr

end Sys2Proof.Machine
end

