-- ==== Sys2Proof/Machine/Blocks8.lean ====
section
/-! DEFINITION. The state of paired operation beside its registers (chapter 15). Instants are counts of tsclk. -/

namespace Sys2Proof.Machine

/-- A mirror message that has not been applied (R496, R497): the words of a write, or a commit. -/
structure MirrorOp where
  region : Nat
  target : Nat
  commit : Bool
  reg : Bool := false
  off : Nat := 0
  words : List Nat := []
  since : Nat
  deriving DecidableEq, Repr

/-- A rejoin (R508): instant of SNAP_REQ, CRC register over the bytes so far and their number, folio and start of each port,
how far it has come, and the lines 0 to 63 of each port's start folio that have matched. -/
structure JoinX where
  since : Nat
  crc : Nat := 0xFFFFFFFF
  bytes : Nat := 0
  ports : Tbl (Nat × Nat) := []
  /-- SNAP_END has been taken with a good CRC; the ports have been started again -/
  good : Bool := false
  ended : Bool := false
  matched : Tbl Nat := []
  deriving DecidableEq, Repr

/-- A snapshot as it was sent: objects, CRC of SNAP_END, and port, folio and start of each JOIN_PORT. -/
structure SnapX where
  objects : Nat
  crc : Nat
  ports : List (Nat × Nat × Nat)
  deriving DecidableEq, Repr

/-- What is known of a channel's count offset (R507): a sample has set it, and the frame of the last sample that differed. -/
structure OffsetX where
  set : Bool := false
  differed : Option Nat := none
  deriving DecidableEq, Repr

/-- The pair function. -/
structure PairX where
  /-- E of a guarded ACTIVE part, V of a STANDBY part that has acknowledged (R501) -/
  expiry : Option Nat := none
  view : Option Nat := none
  entered : Nat := 0
  enabledAt : Nat := 0
  /-- last RENEW_SEQ received from an ACTIVE part -/
  seen : Nat := 0
  /-- the last renewal, whether it has been acknowledged, and the next one -/
  renewT : Nat := 0
  renewAck : Bool := true
  renewAt : Nat := 0
  /-- last good heartbeat on each path, and whether PAIR.HB_LOST has been raised since -/
  laneAt : Option Nat := none
  pinAt : Option Nat := none
  laneLost : Bool := false
  pinLost : Bool := false
  /-- last ACTIVE heartbeat since ENABLE, and the last EPOCH received from an ACTIVE part -/
  activeAt : Option Nat := none
  epochSeen : Option Nat := none
  partnerMode : Nat := 0
  sbReady : Bool := false
  /-- a CLAIM waits for its conditions (R504) -/
  claim : Bool := false
  /-- the partner's CFG_CRC has matched at every heartbeat since -/
  cfgSince : Option Nat := none
  /-- line CRCs without partner: folio, line, CRC by port (R495) -/
  own : Tbl (List (Nat × Nat × Nat)) := []
  peer : Tbl (List (Nat × Nat × Nat)) := []
  peerLineAt : Option Nat := none
  offs : Tbl OffsetX := []
  /-- count of HB_OUT frames, the multiple of 25,000 tsclk at which the last heartbeat was due, and what was sent last -/
  frameSeq : Nat := 0
  slot : Nat := 0
  sentLane : List Byte := []
  sentPin : Nat := 0
  /-- FRAME_SEQ, VALID and positions: own latch of the last frame sent, and latches of frames received, newest first -/
  latchOut : Option (Nat × Nat × List Nat) := none
  latchIn : List (Nat × Nat × List Nat) := []
  mirror : List MirrorOp := []
  /-- body of the last message sent of each type of Table 15-2 but HEARTBEAT -/
  sent : Tbl (List Byte) := []
  join : Option JoinX := none
  retryAt : Option Nat := none
  snap : Option SnapX := none
  /-- receivers and transmitters of the two pair lanes -/
  rx : Tbl RxX := []
  tx : Tbl TxX := []
  deriving DecidableEq, Repr

end Sys2Proof.Machine
end

