-- ==== Sys2Proof/Machine/Blocks9.lean ====
section
/-! DEFINITION. The state of the Sagger, of housekeeping, of the rails and of the configuration journal beside their registers
(chapters 16 and 17). -/

namespace Sys2Proof.Machine

/-- The Sagger. -/
structure SagX where
  /-- 0 held by its power-on monitor, 1 in self-test, 2 running -/
  up : Nat := 1
  /-- contacts that are not closed, by ball as INPUTS has them, as voted at the last cycle -/
  openNow : Nat := 0
  /-- causes of SF4 present (bit 0 emergency stop, bit 1 guard), and pairs that have been open on both channels at once since
  they tripped (R523) -/
  present : Nat := 0
  both : Nat := 0
  /-- consecutive cycles in which a channel has differed from the other two -/
  differ : Tbl Nat := []
  /-- output balls whose readback differed in the last cycle; drive-off wire and mode code disagreed in the last period -/
  readBad : List Nat := []
  wireBad : Bool := false
  /-- the last ADC round failed on its references; inputs beyond their limits in the last good round -/
  adcBad : Bool := false
  tempBad : Nat := 0
  /-- replica mismatch that waits for the next cycle (R530) -/
  disagree : Nat := 0
  /-- last release of the reset button after 50 ms to 3 s -/
  releasedAt : Option Nat := none
  /-- requests that wait for the next cycle; for a RESET whether RESET_SOURCE is met -/
  start : Bool := false
  stop : Bool := false
  reset : Option Bool := none
  /-- comparators A and B that have latched, and clusters whose input lies above its threshold (R528) -/
  ovA : Nat := 0
  ovB : Nat := 0
  ovHigh : Nat := 0
  /-- instant of the last step of the key sequence -/
  keyAt : Nat := 0
  deriving DecidableEq, Repr

/-- Housekeeping and thermal. -/
structure HkX where
  /-- consecutive discarded rounds -/
  bad : Nat := 0
  /-- sensor pairs that differed in the last round, pairs and sensors whose event has been raised (R547) -/
  differ : List Nat := []
  told : List Nat := []
  faulty : List Nat := []
  /-- head types found invalid -/
  badTypes : List Nat := []
  /-- last slow-down datagram and count of datagrams (R551) -/
  slowAt : Nat := 0
  slowSeq : Nat := 0
  /-- DRIVE_EN at the last round, and for each cluster the round at which it last changed; clusters whose last sample failed
  (R562) -/
  drive : Nat := 0
  driveAt : Tbl Nat := []
  driveBad : List Nat := []
  deriving DecidableEq, Repr

/-- The rail sequencer. -/
structure RailX where
  /-- instant at which a rail was last turned on or off, and consecutive polls out of window -/
  turned : Tbl Nat := []
  out : Tbl Nat := []
  /-- every rail of the step in progress has been in window since -/
  okAt : Option Nat := none
  /-- why the rails go down: 1 Dormant, 2 a fault at power-up, 3 thermal shutdown -/
  why : Nat := 0
  /-- a rail fault takes the part to Dormant once Safe-Hold is entered (R558) -/
  dormant : Bool := false
  /-- PMBus transactions that are being retried: rail and command -/
  retry : List (Nat × Nat) := []
  /-- last STATUS_WORD of each PMBus rail -/
  status : Tbl Nat := []
  /-- the core regulator has stopped switching on an overcurrent -/
  coreStopped : Bool := false
  deriving DecidableEq, Repr

/-- A journal record, Table 17-7. -/
structure JRec where
  seq : Nat
  type : Nat
  key : Nat
  frag : Nat
  last : Bool
  data : List Byte
  deriving DecidableEq, Repr

/-- A written slot of a journal area: a good record, or one that was torn or failed to program. -/
inductive JSlot where
  | good (r : JRec)
  | torn (r : JRec)
  deriving DecidableEq, Repr

/-- An object to be written. -/
structure JObj where
  type : Nat
  key : Nat
  data : List Byte
  deriving DecidableEq, Repr

/-- The configuration journal. -/
structure JournalX where
  a : List JSlot := []
  b : List JSlot := []
  /-- objects that wait -/
  queue : List JObj := []
  /-- the object in progress and its next fragment; the record whose program has begun -/
  cur : Option (JObj × Nat) := none
  prog : Option JRec := none
  /-- the other area is being erased for compaction -/
  erasing : Bool := false
  /-- the journal closes, with the cause of its CLOSE; CLOSE has been written (R566) -/
  closing : Option Nat := none
  closed : Bool := false
  deriving DecidableEq, Repr

end Sys2Proof.Machine
end

