-- ==== Sys2Proof/Machine/State.lean ====
section
/-! DEFINITION. The state of the block, the outcomes other than a next state, and the state after reset. -/

namespace Sys2Proof.Machine

/-- No rule of the spec stops the block for good, so no step ends in a fault. -/
inductive Fault where
  deriving DecidableEq, Repr

/-- Why a command is refused. -/
inductive Refusal where
  /-- the command has no meaning in this model yet; raised by its arm of `exec`; safe -/
  | notModelled (mnemonic : String)
  deriving DecidableEq, Repr

/-- Everything the spec gives the block. -/
structure State where
  /-- time since power-on in ns, which is in fclk cycles (Table 0-3) -/
  now : Nat
  /-- commands waiting, first in first out -/
  pending : List Instr
  /-- register fields that differ from their reset value; key: see `Fld.key` -/
  regs : Tbl Nat
  /-- words of the table apertures (R54); key: page * 2^22 + byte offset -/
  aptw : Tbl Nat
  /-- SDRAM bytes by system address -/
  sdram : List Host.Cell
  /-- Reading Room bytes -/
  room : List Host.Cell
  /-- free values used so far (the model's own field) -/
  freeIx : Nat
  /-- what the last bus access returned -/
  resp : Resp
  /-- instant at which the time counter started (R466) -/
  countBase : Nat
  /-- instants kept: COUNT of the last record per page, event and die (R633), and the `now` at which a W1C bit was last set
  (R14), a record was last forced (R91) and a lock was last acquired (R83); keys: see `evKey`, `setKey`, `forceKey` and
  `lockKey` -/
  stamps : Tbl Nat
  /-- the reserved pool of the Ledger, oldest first (R628) -/
  pool : List LedgerRec
  bnd : Tbl Bnd
  grp : Tbl Grp
  ring : RingX
  mode : ModeX
  pos : Tbl PosX
  div : Tbl DivX
  cmp : Tbl CmpX
  ing : IngX
  regn : Tbl RegionX
  port : Tbl PortX
  lane : Tbl LaneX
  cam : Tbl CamSlot
  link : Tbl LinkX
  pipe : PipeX
  trk : TrkX
  tdc : Tbl TdcX
  memx : Tbl MemX
  memc : MemCommon
  /-- SDRAM words (address / 4) stored with their check bits XOR 3 (R407) -/
  memBad : List Nat
  /-- bits of SRAM codewords that differ from what was stored; key: die * 2^23 + word (R20, R432) -/
  sramErr : Tbl Nat
  stack : StackX
  scrub : Tbl ScrubX
  /-- key: 2 * link + direction -/
  flits : Tbl FlitX
  net : NetX
  ptp : PtpX
  trig : Tbl TrigX
  tcap : Tbl TcapX
  pair : PairX
  sag : SagX
  hk : HkX
  rail : RailX
  jrn : JournalX
  cpu : CpuX
  cal : CalX
  deriving DecidableEq, Repr

/-- Right after reset: PORST_n has just been released after power-on, the part is in Bisque and no page is READY. -/
def State.reset : State where
  now := 0
  pending := []
  regs := []
  aptw := []
  sdram := []
  room := []
  freeIx := 0
  resp := .none
  countBase := 0
  stamps := []
  pool := []
  bnd := []
  grp := []
  ring := {}
  mode := {}
  pos := []
  div := []
  cmp := []
  ing := {}
  regn := []
  port := []
  lane := []
  cam := []
  link := []
  pipe := {}
  trk := {}
  tdc := []
  memx := []
  memc := {}
  memBad := []
  sramErr := []
  stack := {}
  scrub := []
  flits := []
  net := {}
  ptp := {}
  trig := []
  tcap := []
  pair := {}
  sag := {}
  hk := {}
  rail := {}
  jrn := {}
  cpu := {}
  cal := {}

end Sys2Proof.Machine
end

