-- ==== Sys2Proof/Machine/Ops.lean ====
section
/-! DEFINITION. The named operations that every meaning uses: register fields, apertures, memory, free values, events and
the Ledger (R7, R13, R53, R54, R89, R625 to R633). -/

namespace Sys2Proof.Machine

/-- The outcome of a step of this block. -/
abbrev Out := Host.Outcome State Fault Refusal

/-! ### Register fields -/

/-- The key of instance `i` of a field on page `pg`. -/
def Fld.key (f : Fld) (pg i : Nat) : Nat := (pg * 4096 + (f.off + i * f.stride)) * 32 + f.lo

/-- The key of the shadow copy of a class S field (R56). -/
def Fld.shadowKey (f : Fld) (pg i : Nat) : Nat := (pg * 4096 + (f.off + 0x800 + i * f.stride)) * 32 + f.lo

/-- The value of a field after reset (R16). -/
def Fld.rst (f : Fld) (pg i : Nat) : Nat :=
  match f.dflt with
  | .c v => v
  | .page => pg % 256
  | .idx => i
  | .sp v e => ((e.find? (fun x => x.1 == i)).map (·.2)).getD v

/-- Instance `i` of a field on page `pg`. -/
def State.getI (s : State) (f : Fld) (pg i : Nat) : Nat := tget s.regs (f.key pg i) (f.rst pg i)

/-- A field with one instance. -/
def State.get (s : State) (f : Fld) (pg : Nat) : Nat := s.getI f pg 0

/-- A one-bit field. -/
def State.on (s : State) (f : Fld) (pg : Nat) : Bool := s.get f pg == 1

/-- One bit field of an instance. -/
def State.onI (s : State) (f : Fld) (pg i : Nat) : Bool := s.getI f pg i == 1

/-- The shadow copy of a class S field. -/
def State.getShadow (s : State) (f : Fld) (pg i : Nat) : Nat := tget s.regs (f.shadowKey pg i) (f.rst pg i)

/-- The state with instance `i` of a field set to the low bits of `v`. -/
def State.setI (s : State) (f : Fld) (pg i v : Nat) : State :=
  { s with regs := tputD s.regs (f.key pg i) (low f.w v) (f.rst pg i) }

/-- The state with a field of one instance set. -/
def State.set (s : State) (f : Fld) (pg v : Nat) : State := s.setI f pg 0 v

/-- The state with the shadow copy of a class S field set. -/
def State.setShadow (s : State) (f : Fld) (pg i v : Nat) : State :=
  { s with regs := tputD s.regs (f.shadowKey pg i) (low f.w v) (f.rst pg i) }

/-- A counter field advanced by `n`, saturating. -/
def State.satI (s : State) (f : Fld) (pg i n : Nat) : State :=
  s.setI f pg i (min (s.getI f pg i + n) (2 ^ f.w - 1))

/-- A counter field of one instance advanced by one, saturating. -/
def State.sat (s : State) (f : Fld) (pg : Nat) : State := s.satI f pg 0 1

/-- A counter field advanced by `n`, wrapping. -/
def State.wrapI (s : State) (f : Fld) (pg i n : Nat) : State := s.setI f pg i (s.getI f pg i + n)

/-- A counter field of one instance advanced by one, wrapping. -/
def State.wrap (s : State) (f : Fld) (pg : Nat) : State := s.wrapI f pg 0 1

/-- A bool as a bit. -/
def bit (b : Bool) : Nat := if b then 1 else 0

/-- Bit `i` of a number. -/
def bitAt (v i : Nat) : Bool := v / 2 ^ i % 2 == 1

/-- Bits `lo + w - 1` to `lo` of a number. -/
def bits (v lo w : Nat) : Nat := v / 2 ^ lo % 2 ^ w

/-- A number with bit `i` set. -/
def setBit (v i : Nat) : Nat := if bitAt v i then v else v + 2 ^ i

/-- A number with bit `i` cleared. -/
def clearBit (v i : Nat) : Nat := if bitAt v i then v - 2 ^ i else v

/-- Two's complement of `w` bits read as an integer (R8). -/
def sext (w v : Nat) : Int := if low w v < 2 ^ (w - 1) then (low w v : Int) else (low w v : Int) - (2 ^ w : Int)

/-- An integer cut to `w` bits, two's complement (R8). -/
def unsext (w : Nat) (x : Int) : Nat := (x % (2 ^ w : Int)).toNat

/-- An integer clamped to a range. -/
def clampI (lo hi x : Int) : Int := if x < lo then lo else if hi < x then hi else x

/-- Distance of two numbers. -/
def natDist (a b : Nat) : Nat := (a - b) + (b - a)

/-- A two-register value: low word and high part. -/
def State.get2 (s : State) (fl fh : Fld) (pg i : Nat) : Nat := s.getI fl pg i + s.getI fh pg i * 2 ^ fl.w

/-- Both registers of a two-register value set. -/
def State.set2 (s : State) (fl fh : Fld) (pg i v : Nat) : State := (s.setI fl pg i v).setI fh pg i (v / 2 ^ fl.w)

/-! ### Apertures and memory -/

/-- The key of the aperture word at byte offset `off` of page `pg` (R54). -/
def aptKey (pg off : Nat) : Nat := pg * 2 ^ 22 + off

/-- A byte of a byte store; an unlisted byte is zero. -/
def memByte (m : List Host.Cell) (a : Nat) : Byte := tget m a 0

/-- The store with one byte written; writing zero removes the entry. -/
def memSetByte (m : List Host.Cell) (a : Nat) (b : Byte) : List Host.Cell := tputD m a b 0

/-- The canonical form of a byte store. -/
abbrev Memory.wf (m : List Host.Cell) : Prop := twf m (0 : Byte) = true

/-- `n` bytes from an address up. -/
def memBytes (m : List Host.Cell) (a n : Nat) : List Byte :=
  let w := trange m a (a + n)
  (List.range n).map (fun i => memByte w (a + i))

/-- The cells of bytes from an address up, those that are zero left out. -/
def byteCells : Nat → List Byte → List Host.Cell
  | _, [] => []
  | a, b :: bs => if b = 0 then byteCells (a + 1) bs else (a, b) :: byteCells (a + 1) bs

/-- The store with bytes written from an address up. -/
def memWrite (m : List Host.Cell) (a : Nat) (bs : List Byte) : List Host.Cell :=
  m.filter (fun e => decide (e.1 < a)) ++ (byteCells a bs ++ m.filter (fun e => decide (a + bs.length ≤ e.1)))

/-- A little-endian number of bytes (R7). -/
def leNat : List Byte → Nat
  | [] => 0
  | b :: bs => b.toNat + 256 * leNat bs

/-- The `n` bytes of a number, little-endian (R7). -/
def leBytes : Nat → Nat → List Byte
  | 0, _ => []
  | n + 1, v => BitVec.ofNat 8 v :: leBytes n (v / 256)

/-- A big-endian number of bytes, as standard network headers have it (R7). -/
def beNat (bs : List Byte) : Nat := leNat bs.reverse

/-- The `n` bytes of a number, big-endian (R7). -/
def beBytes (n v : Nat) : List Byte := (leBytes n v).reverse

/-- A little-endian number read from memory. -/
def memLe (m : List Host.Cell) (a n : Nat) : Nat := leNat (memBytes m a n)

/-- A value that the spec does not give, and the state that has used it. -/
def State.free (s : State) : Nat × State := (Config.freeNat s.freeIx, { s with freeIx := s.freeIx + 1 })

/-! ### Time, events and the Ledger -/

/-- The time counter: tsclk (2 ns) since its start, as a Ledger record or a capture reads it (R37, R466). -/
def State.count (s : State) : Nat := (s.now - s.countBase + 1) / 2 % 2 ^ 64

/-- The page numbers used by name. -/
def pgMode : Nat := 0x002
def pgReady : Nat := 0x003
def pgLocks : Nat := 0x004
def pgLedger : Nat := 0x005
def pgPtp : Nat := 0x093
def pgMem : Nat := 0x084

/-- Ranks of an SDRAM channel. -/
def State.memRanks (s : State) : Nat := s.get F.Mem.RANKS pgMem + 1

/-- Data capacity of the four SDRAM channels in bytes (Table 12-1). -/
def State.memCapacity (s : State) : Nat := 4 * (2 ^ 32 * 2 ^ (s.get F.Mem.DENSITY pgMem) * s.memRanks)

/-- Slots of the Ledger ring: 128 records for each 4 KiB (Table 20-3). -/
def State.ledgerLen (s : State) : Nat := s.get F.Led.LEDGER_SIZE pgLedger * 128

/-- The ring is full when LEDGER_WR + 1 would equal LEDGER_RD (R627). -/
def State.ledgerFull (s : State) : Bool :=
  (s.get F.Led.LEDGER_WR pgLedger + 1) % s.ledgerLen == s.get F.Led.LEDGER_RD pgLedger

/-- The ring accepts a record (R627). -/
def State.ledgerAccepts (s : State) : Bool :=
  s.on F.Hdr.READY pgLedger && s.on F.Hdr.ENABLE pgLedger && s.ledgerLen != 0 &&
    (s.on F.Led.WRAP pgLedger || !s.ledgerFull)

/-- The 32 bytes of a record (R625). -/
def LedgerRec.bytes (r : LedgerRec) : List Byte :=
  leBytes 8 r.count ++ leBytes 2 r.epoch ++ leBytes 2 r.code ++ leBytes 1 r.source ++ leBytes 1 r.flags ++
    leBytes 2 0 ++ leBytes 8 r.arg ++ leBytes 4 r.seq ++ leBytes 2 r.sys ++ leBytes 2 0

/-- The record written to slot LEDGER_WR, which advances; with WRAP the oldest slot gives way (R627). DESIGN CHOICE: a slot
beyond the capacity is dropped, and no MEM.ADDR_RANGE is raised for it, whose record would go the same way (R399, log 79). -/
def State.ledgerAppend (s : State) (r : LedgerRec) : State :=
  let wr := s.get F.Led.LEDGER_WR pgLedger
  let next := (wr + 1) % s.ledgerLen
  let a := s.get F.Led.LEDGER_BASE pgLedger * 4096 + wr * 32
  let s1 := { s with sdram := if s.memCapacity ≤ a then s.sdram else memWrite s.sdram a r.bytes }
  let s2 := if s.ledgerFull then s1.set F.Led.LEDGER_RD pgLedger ((next + 1) % s.ledgerLen) else s1
  s2.set F.Led.LEDGER_WR pgLedger next

/-- Pool records written to the ring in SEQ order while it accepts (R628). -/
def drainPool : List LedgerRec → State → State
  | [], s => ({ s with pool := [] }).set F.Led.POOL_LEVEL pgLedger 0
  | r :: rs, s =>
    if s.ledgerAccepts then drainPool rs (s.ledgerAppend r)
    else ({ s with pool := r :: rs }).set F.Led.POOL_LEVEL pgLedger (rs.length + 1)

/-- A record is eligible for the reserved pool (R628). -/
def poolEligible (code sev : Nat) : Bool :=
  sev == 3 || code == Ev.regFuncReset.code || code == Ev.stkWatchdog.code || code / 256 == 0x10

/-- A record goes to the ring, to the pool or is lost (R627, R628). -/
def State.ledgerPut (s : State) (r : LedgerRec) (eligible : Bool) : State :=
  let s1 := if s.pool.isEmpty then s else drainPool s.pool s
  if s1.ledgerAccepts then s1.ledgerAppend r
  else if eligible then
    if s1.pool.length < 64 then
      ({ s1 with pool := s1.pool ++ [{ r with flags := r.flags + 4 }] }).set F.Led.POOL_LEVEL pgLedger (s1.pool.length + 1)
    else s1.sat F.Led.POOL_LOST pgLedger
  else s1.sat F.Led.LEDGER_LOST pgLedger

/-- The key of a rate-limit window: page, event and die (R633). -/
def evKey (pg code sub : Nat) : Nat := (pg * 65536 + code) * 4 + sub

/-- The key of the instant at which a record of an event was last forced (R91). -/
def forceKey (pg code : Nat) : Nat := 2 ^ 31 + evKey pg code 0

/-- The key of the instant at which bit `b` of a W1C field was last set (R14). -/
def setKey (f : Fld) (pg b : Nat) : Nat := 2 ^ 32 + f.key pg 0 + b

/-- The key of the instant at which lock n was last acquired (R83). -/
def lockKey (n : Nat) : Nat := 2 ^ 33 + n

/-- The key of the instant at which core k last claimed input i (R594). -/
def claimKey (k i : Nat) : Nat := 2 ^ 34 + 256 * k + i

/-- The state with an instant kept. -/
def State.stamp (s : State) (k v : Nat) : State := { s with stamps := tput s.stamps k v }

/-- The instant kept under a key is now. Commands that run at one value of `now` fall into one cycle. -/
def State.stampedNow (s : State) (k : Nat) : Bool := tfind s.stamps k == some s.now

/-- An occurrence is suppressed: a record of the same event was written within the preceding P (R633); a record that was
forced in this cycle does not count (R91). -/
def State.suppressed (s : State) (e : Ev) (pg sub : Nat) : Bool :=
  e.rate != 0 &&
    ((match tfind s.stamps (evKey pg e.code sub) with
      | some c => decide (s.count < c + e.rate / 2)
      | none => false) ||
    (match tfind s.stamps (forceKey pg e.code) with
      | some t => t != s.now && decide (s.now < t + e.rate)
      | none => false))

/-- One occurrence of an event on a page: its EVENT_STATUS bit, and its record unless it is suppressed (R89, R633). -/
def State.raiseX (s : State) (e : Ev) (pg arg sub sev : Nat) (forced : Bool) : State :=
  let s1 := s.set F.Hdr.EVENT_STATUS pg (setBit (s.get F.Hdr.EVENT_STATUS pg) e.bit)
  let set := tput s.stamps (setKey F.Hdr.EVENT_STATUS pg e.bit) s.now
  if !forced && s.suppressed e pg sub then { s1 with stamps := set }
  else
    let seq := s1.get F.Led.LEDGER_SEQ pgLedger
    let r : LedgerRec := ⟨s1.count, s1.get F.Ptp.EPOCH_SEQ pgPtp % 65536, e.code, pg, sev + bit forced * 8,
      arg % 2 ^ 64, seq, s1.get F.Colo.SYS_ADDR 1⟩
    let s2 := (s1.set F.Led.LEDGER_SEQ pgLedger (seq + 1)).ledgerPut r (poolEligible e.code sev)
    { s2 with stamps := if forced then tput set (forceKey pg e.code) s.now else tput set (evKey pg e.code sub) s1.count }

/-- An occurrence with the event's own severity. -/
def State.raise (s : State) (e : Ev) (pg arg : Nat) : State := s.raiseX e pg arg 0 e.sev false

/-- Upper word and lower word of an event argument. -/
def arg64 (hi lo : Nat) : Nat := low 32 hi * 2 ^ 32 + low 32 lo

/-- A step applied over a list from the left. -/
def forAll {α : Type} (l : List α) (s : State) (f : α → State → State) : State := l.foldl (fun s a => f a s) s

/-! ### Numbers that the spec does not give -/

/-- A number that the spec does not give, at most `n`. -/
def freeUpTo (n : Nat) (s : State) : Nat × State :=
  let f := s.free
  (f.1 % (n + 1), f.2)

/-- A LOAD field takes a new share of busy time, in per cent: time spent at work is not stated, so the value is free. -/
def freshLoad (f : Fld) (pg : Nat) (s : State) : State :=
  let v := freeUpTo 100 s
  v.2.set f pg v.1

end Sys2Proof.Machine
end

