-- ==== Sys2Proof/Machine/Pages.lean ====
section
/-! DEFINITION. The page map (R51 to R57), the header fields that are computed (R58, R93), and reading a register word. -/

namespace Sys2Proof.Machine

/-- A page lies in a range. -/
def within (pg first last : Nat) : Bool := decide (first ≤ pg) && decide (pg ≤ last)

/-- Table 2-1: first page, last page, block code. -/
def pageMap : List (Nat × Nat × Nat) :=
  [(0x000, 0x000, 0x0001), (0x001, 0x001, 0x0002), (0x002, 0x002, 0x0003), (0x003, 0x003, 0x0004), (0x004, 0x004, 0x0005),
   (0x005, 0x005, 0x0006), (0x008, 0x00B, 0x0010), (0x00C, 0x00C, 0x0011), (0x00D, 0x00D, 0x0012), (0x010, 0x03F, 0x0020),
   (0x040, 0x04B, 0x0021), (0x050, 0x05B, 0x0022), (0x060, 0x060, 0x0030), (0x061, 0x061, 0x0031), (0x062, 0x065, 0x0032),
   (0x068, 0x06B, 0x0033), (0x06C, 0x06F, 0x0034), (0x070, 0x071, 0x0040), (0x072, 0x072, 0x0041), (0x073, 0x073, 0x0042),
   (0x074, 0x074, 0x0043), (0x078, 0x078, 0x0048), (0x079, 0x079, 0x0049), (0x07A, 0x07A, 0x004A)] ++
  [(0x080, 0x083, 0x0050), (0x084, 0x084, 0x0051), (0x085, 0x085, 0x0052), (0x086, 0x086, 0x0053), (0x090, 0x091, 0x0060),
   (0x092, 0x092, 0x0061), (0x093, 0x093, 0x0062), (0x094, 0x094, 0x0063), (0x098, 0x098, 0x0068), (0x0A0, 0x0A0, 0x0070),
   (0x0A8, 0x0A8, 0x0078), (0x0A9, 0x0A9, 0x0079), (0x0AA, 0x0AA, 0x007A), (0x0AB, 0x0AB, 0x007B), (0x0AC, 0x0AC, 0x007C),
   (0x0B0, 0x0B0, 0x0080), (0x0B1, 0x0B1, 0x0081), (0x0B2, 0x0B2, 0x0082), (0x0B3, 0x0B3, 0x0083)]

/-- The row of Table 2-1 that lists a page. -/
def pageRow (pg : Nat) : Option (Nat × Nat × Nat) := pageMap.find? (fun r => within pg r.1 r.2.1)

/-- Table 2-1 lists the page (R53, R55). -/
def present (pg : Nat) : Bool := (pageRow pg).isSome

/-- Block code, 0 when the page is absent. -/
def blockCode (pg : Nat) : Nat := ((pageRow pg).map (·.2.2)).getD 0

/-- Instance number (R55). -/
def instanceNo (pg : Nat) : Nat := ((pageRow pg).map (fun r => pg - r.1)).getD 0

/-- What a page's boundary number counts: 0 none, 1 folio, 2 frame, 3 solve (Table 2-4, Table 2-9). -/
def boundaryKind (pg : Nat) : Nat :=
  if within pg 0x010 0x03F || pg == 0x060 || within pg 0x062 0x065 || within pg 0x068 0x06F then 1
  else if within pg 0x070 0x074 then 2
  else if pg == 0x078 then 3
  else 0

/-- The page has a commit boundary (R57, R64). -/
def hasBoundary (pg : Nat) : Bool := boundaryKind pg != 0

/-- The body fields of a page. -/
def bodyFields (pg : Nat) : List Fld :=
  if pg == 1 then fieldsColo
  else if pg == 2 then fieldsMode ++ fieldsGroup
  else if pg == 3 then fieldsRdy
  else if pg == 4 then fieldsLock
  else if pg == 5 then fieldsLed
  else if within pg 0x008 0x00B then fieldsPos
  else if pg == 0x00C then fieldsDiv
  else if pg == 0x00D then fieldsCmp
  else if within pg 0x010 0x03F then fieldsPort
  else if within pg 0x040 0x04B then fieldsClu
  else if within pg 0x050 0x05B then fieldsLane
  else if pg == 0x060 then fieldsIng
  else if pg == 0x061 then fieldsJob
  else if within pg 0x062 0x065 then fieldsInfl
  else if within pg 0x068 0x06B then fieldsGlz
  else if within pg 0x06C 0x06F then fieldsScr
  else if within pg 0x070 0x071 then fieldsCam
  else if pg == 0x072 then
    fieldsPar ++ fieldsCam.filter (fun f => f.off != 0x40 && f != F.Cam.VC && f != F.Cam.LSLE && f != F.Cam.DT)
  else if pg == 0x073 then fieldsPipe
  else if pg == 0x074 then fieldsTap
  else if pg == 0x078 then fieldsDtrk
  else if pg == 0x079 then fieldsTdc
  else if pg == 0x07A then fieldsCal
  else if within pg 0x080 0x083 then fieldsChan
  else if pg == 0x084 then fieldsMem
  else if pg == 0x085 then fieldsSram
  else if pg == 0x086 then fieldsStk
  else if within pg 0x090 0x091 then fieldsNet
  else if pg == 0x092 then fieldsSw
  else if pg == 0x093 then fieldsPtp
  else if pg == 0x094 then fieldsTrig ++ fieldsCap
  else if pg == 0x098 then fieldsPair
  else if pg == 0x0A0 then fieldsSag
  else if pg == 0x0A8 then fieldsHk
  else if pg == 0x0A9 then fieldsThm
  else if pg == 0x0AA then fieldsSeq
  else if pg == 0x0AB then fieldsCore
  else if pg == 0x0AC then fieldsDrv
  else if pg == 0x0B0 then fieldsCpu
  else if pg == 0x0B1 then fieldsMbox
  else if pg == 0x0B2 then fieldsIrq
  else if pg == 0x0B3 then fieldsNor
  else []

/-- Every field of a page, header first (R56). -/
def pageFields (pg : Nat) : List Fld := fieldsHdr ++ bodyFields pg

/-- The class S fields of a page. -/
def shadowFields (pg : Nat) : List Fld := (bodyFields pg).filter (fun f => f.cls == .s)

/-- The instance of a field whose register lies at a byte offset. -/
def Fld.instAt (f : Fld) (off : Nat) : Option Nat :=
  let d := off - f.off
  if f.off ≤ off ∧ d % f.stride = 0 ∧ d / f.stride < f.cnt then some (d / f.stride) else none

/-- The stored fields of the register word at a byte offset, as a word. -/
def State.storedWord (s : State) (pg off : Nat) : Nat :=
  (bodyFields pg).foldl (fun a f => match f.instAt off with
    | some i => a + s.getI f pg i * 2 ^ f.lo
    | none => a) 0

/-- The binding lock of a page, where BIND_EN is 1 (R87). -/
def State.binding (s : State) (pg : Nat) : Option Nat :=
  let fs := match pg % 4 with
    | 0 => (F.Lock.BIND_EN_0, F.Lock.BIND_IX_0)
    | 1 => (F.Lock.BIND_EN_1, F.Lock.BIND_IX_1)
    | 2 => (F.Lock.BIND_EN_2, F.Lock.BIND_IX_2)
    | _ => (F.Lock.BIND_EN_3, F.Lock.BIND_IX_3)
  if s.onI fs.1 pgLocks (pg / 4) then some (s.getI fs.2 pgLocks (pg / 4)) else none

/-- GROUP_MASK_k (Table 2-6). -/
def groupMask (k : Nat) : Fld := { F.Group.GROUP_MASK_0 with off := 0x400 + 4 * k }

/-- Group `g` names a page (R75). -/
def State.groupNames (s : State) (g pg : Nat) : Bool :=
  bitAt (s.getI (groupMask (pg / 32)) pgMode g) (pg % 32)

/-- The first group that names a page. -/
def State.groupOf (s : State) (pg : Nat) : Option Nat := (List.range 8).find? (fun g => s.groupNames g pg)

/-- The pages that a group names. -/
def State.groupMembers (s : State) (g : Nat) : List Nat := (List.range 256).filter (fun pg => s.groupNames g pg)

/-- READY of a page. -/
def State.ready (s : State) (pg : Nat) : Bool := s.on F.Hdr.READY pg

/-- READY_k: the mirror of STATUS.READY (R114). -/
def State.readyWord (s : State) (k : Nat) : Nat :=
  (List.range 32).foldl (fun a b => a + bit (s.ready (32 * k + b)) * 2 ^ b) 0

/-- Header fields that are computed from the rest of the state (Table 2-3); none where the field is stored. -/
def State.viewHdr (s : State) (f : Fld) (pg : Nat) : Option Nat :=
  let lock := s.binding pg
  if f == F.Hdr.BLOCK_CODE then some (blockCode pg)
  else if f == F.Hdr.INSTANCE then some (instanceNo pg)
  else if f == F.Hdr.LOCKED_OUT then some (bit (!s.ready pg))
  else if f == F.Hdr.COMMIT_PENDING then
    some (bit (s.get F.Hdr.COMMIT_STATE pg != 0 ||
      (List.range 8).any (fun g => s.groupNames g pg && s.getI F.Group.GROUP_STATE_STATE pgMode g != 0)))
  else if f == F.Hdr.GROUPED then some (bit (s.groupOf pg).isSome)
  else if f == F.Hdr.BOUND then some (bit lock.isSome)
  else if f == F.Hdr.LOCK_INDEX then some (lock.getD 0)
  else if f == F.Hdr.HELD then some ((lock.map (s.getI F.Lock.HELD pgLocks)).getD 0)
  else if f == F.Hdr.BROKEN then some ((lock.map (s.getI F.Lock.BROKEN pgLocks)).getD 0)
  else if f == F.Hdr.OWNER then some ((lock.map (s.getI F.Lock.OWNER pgLocks)).getD 0)
  else none

/-- LOCKED_OUT: the mode page locks a page out while its READY is 0 (R109). -/
def State.lockedOut (s : State) (pg : Nat) : Bool := !s.ready pg

end Sys2Proof.Machine
end

