-- ==== Sys2Proof/Machine/Sdram.lean ====
section
/-! DEFINITION. SDRAM as its requesters meet it: the channels and their queues, poisoned bursts, and the accesses of the part's own
units (R396, R398, R399, R403 to R407). -/

namespace Sys2Proof.Machine

def pgChan (ch : Nat) : Nat := 0x080 + ch
def State.memOf (s : State) (ch : Nat) : MemX := tget s.memx ch {}
def State.updMem (s : State) (ch : Nat) (f : MemX → MemX) : State := { s with memx := tput s.memx ch (f (s.memOf ch)) }
def MemX.rank (x : MemX) (r : Nat) : MemRank := tget x.ranks r {}
def MemX.updRank (x : MemX) (r : Nat) (f : MemRank → MemRank) : MemX := { x with ranks := tput x.ranks r (f (x.rank r)) }

/-! ### The address map -/

/-- The channel of an SDRAM address and its channel address (R398). -/
def State.memSplit (s : State) (addr : Nat) : Nat × Nat :=
  if s.get F.Mem.INTERLEAVE pgMem = 0 then (bits addr 8 2, addr / 1024 * 256 + addr % 256)
  else (bits addr 12 2, addr / 16384 * 4096 + addr % 4096)

/-- The rank and bank (rank * 8 + 4 BG0 + BA) of an SDRAM address (R398). -/
def State.memBank (s : State) (addr : Nat) : Nat :=
  let a := (s.memSplit addr).2
  (if s.memRanks = 2 then bits a 16 1 else 0) * 8 + bits a 13 1 * 4 + bits a 14 2

/-- The row of an SDRAM address (R398). -/
def State.memRow (s : State) (addr : Nat) : Nat := (s.memSplit addr).2 / (if s.memRanks = 2 then 2 ^ 17 else 2 ^ 16)

/-- The bursts that a range of addresses touches. -/
def bursts (a n : Nat) : List Nat :=
  if n = 0 then [] else (List.range ((a % 64 + n + 63) / 64)).map (fun k => 64 * (a / 64 + k))

/-! ### Power states and commands -/

/-- POWER of a channel set. -/
def memPower (ch v : Nat) (s : State) : State := s.set F.Chan.POWER (pgChan ch) v

/-- A command in the retry buffer of 64 (R408). -/
def MemX.issue (x : MemX) (kind arg now : Nat) (req : Nat := 0) : MemX :=
  let l := x.cmds ++ [⟨kind, arg, now, req⟩]
  { x with cmds := l.drop (l.length - 64) }

/-- A channel leaves self-refresh; its REFs start again, staggered by half a tREFI (R412, R416). -/
def srExit (ch : Nat) (s : State) : State :=
  memPower ch 0 (s.updMem ch (fun x => { x.issue 8 0 s.now with
    ranks := tput (tput x.ranks 0 { x.rank 0 with
      refAt := some s.now, interval := if s.get F.Chan.BAND (pgChan ch) = 0 then 7800 else 3900 }) 1 { x.rank 1 with refAt := none } }))

/-- A request arrives at a channel: it leaves power-down or self-refresh, or the entry is abandoned (R415 to R417). A channel in
function reset holds self-refresh (Table 3-8), and one in a frequency change follows R422. -/
def memWake (ch : Nat) (s : State) : State :=
  if s.memc.chg.isSome || !s.ready (pgChan ch) then s
  else match s.get F.Chan.POWER (pgChan ch) with
    | 0 => s
    | 2 => srExit ch s
    | 3 => memPower ch 0 (s.sat F.Chan.SR_ABANDONED (pgChan ch))
    | _ => memPower ch 0 s

/-- The channel serves no request for now: it is not READY, has failed, trains, or stands in a frequency change; requests to it
wait (R124, R409, R420, R421). -/
def State.memHeld (s : State) (ch : Nat) : Bool :=
  !s.ready (pgChan ch) || s.on F.Hdr.FAULT (pgChan ch) || (s.memOf ch).train != 0 || s.memc.chg.isSome

/-! ### Data in the components -/

/-- A masked write of a burst laid over bytes. -/
def maskWrite (m : List Host.Cell) (q : MemReq) : List Host.Cell :=
  (List.range 64).foldl (fun m i =>
    if bitAt q.mask i then memSetByte m (q.burst + i) (BitVec.ofNat 8 (q.data.getD i 0)) else m) m

/-- A masked write of a burst to the components; a word that stays uncorrectable keeps its mark (R407). -/
def memStore (q : MemReq) (bad : List Nat) (s : State) : State :=
  let w0 := q.burst / 4
  let keep := bad.filter (fun w => bits q.mask (4 * w) 4 != 15)
  { s with
    sdram := maskWrite s.sdram q
    memBad := s.memBad.filter (fun w => !(decide (w0 ≤ w) && decide (w < w0 + 16))) ++ keep.map (w0 + ·) }

/-- Words of a burst whose check bits are stored as uncorrectable. -/
def State.badWords (s : State) (burst : Nat) : List Nat :=
  (List.range 16).filter (fun w => s.memBad.contains (burst / 4 + w))

/-- What a requester receives for a poisoned burst (Table 12-3): a host core a bus error, cameras and taps and the other hub
requesters bytes of 0xFF, the rest the poison mark. -/
def poisonedResp (cls : Nat) : Resp :=
  if cls = 0 then .busError else if cls = 7 ∨ cls = 9 then .data (2 ^ 512 - 1) else .poisoned

/-- The event argument of a burst address. -/
def burstArg (burst : Nat) : Nat := burst / 64 * 2 ^ 35

/-- A burst counts as poisoned (R406). -/
def memPoison (ch burst cls : Nat) (bad : List Nat) (s : State) : State :=
  let pg := pgChan ch
  let s1 := ((s.sat F.Chan.ECC_UE_COUNT pg).set F.Chan.LAST_UE_ADDR_LO pg (bits burst 6 26)).set F.Chan.LAST_UE_ADDR_HI pg
    (bits burst 32 3)
  s1.raise Ev.memEccUncorrected pg (burstArg burst + (bad.foldl (fun a w => a + 2 ^ w) 0) * 2 ^ 16 + cls * 256 + ch)

/-- A write issued whole, with the read of a merge where its mask is not full: words that stay uncorrectable are reported
(R404, R407). -/
def memMerge (ch : Nat) (q : MemReq) (s : State) : State :=
  let bad := s.badWords q.burst
  memStore q bad (if q.mask == 2 ^ 64 - 1 || bad.isEmpty then s else memPoison ch q.burst 8 bad s)

/-! ### Queues (R400 to R404) -/

/-- A request at the head of a queue's credit joins it; a later write to the burst of a queued write merges into it unless
a queued read of that burst stands between them (R403, R404). -/
def memJoin (ch : Nat) (q : MemReq) (s : State) : State :=
  let x := s.memOf ch
  let q := { q with seq := x.seq, since := s.now }
  if q.wr then
    match x.writes.reverse.find? (fun w => w.burst == q.burst) with
    | some w =>
      if x.reads.any (fun r => r.burst == q.burst && decide (w.seq < r.seq)) then
        s.updMem ch (fun x => { x with writes := x.writes ++ [q], seq := x.seq + 1 })
      else
        let m : MemReq := { w with
          mask := Nat.lor w.mask q.mask
          data := (List.range 64).map (fun i => if bitAt q.mask i then q.data.getD i 0 else w.data.getD i 0) }
        s.updMem ch (fun x => { x with writes := x.writes.map (fun y => if y.seq = w.seq then m else y) })
    | none => s.updMem ch (fun x => { x with writes := x.writes ++ [q], seq := x.seq + 1 })
  else
    let hit := x.writes.any (fun w => w.burst == q.burst) || x.flight.any (fun w => w.wr && w.burst == q.burst)
    let s1 := if hit then s.sat F.Chan.RAW_STALLS (pgChan ch) else s
    s1.updMem ch (fun x => { x with reads := x.reads ++ [q], seq := x.seq + 1 })

/-- The first request held by credit whose queue has room, with its place; one to the burst of an earlier one keeps its order. -/
def MemX.admits (x : MemX) : Option (MemReq × Nat) :=
  x.wait.zipIdx.find? (fun e =>
    (if e.1.wr then decide (x.writes.length < 32) else decide (x.reads.length < 64)) &&
      !((x.wait.take e.2).any (fun o => o.burst == e.1.burst)))

/-- Requests held by credit join while their queue has room, in order. -/
def memAdmit : Nat → Nat → State → State
  | 0, _, s => s
  | n + 1, ch, s =>
    match (s.memOf ch).admits with
    | some (q, k) => memAdmit n ch (memJoin ch q (s.updMem ch (fun x => { x with wait := x.wait.eraseIdx k })))
    | none => s

/-- A request comes to a channel. -/
def memEnqueue (ch : Nat) (q : MemReq) (s : State) : State :=
  let s1 := s.updMem ch (fun x => { x with wait := x.wait ++ [q] })
  memAdmit (s1.memOf ch).wait.length ch s1

/-! ### Accesses of the part's own units

A unit's access is made whole in the unit's command (log 79). A write waits in its channel's queue while the channel serves
nothing, or where a request to its burst stands before it; a read sees the writes that stand before it. -/

/-- A request beyond the capacity is sent to no channel (R399). -/
def rangeError (cls addr : Nat) (wr : Bool) (s : State) : State :=
  s.raise Ev.memAddrRange pgMem (low 35 addr * 2 ^ 29 + low 4 cls * 256 + bit wr)

/-- The writes that have come to a channel and are not in the components, in their order. -/
def MemX.underway (x : MemX) : List MemReq := x.flight.filter (·.wr) ++ x.writes ++ x.wait.filter (·.wr)

/-- SDRAM as a read that comes now finds it (R403). -/
def State.sdramView (s : State) : List Host.Cell :=
  [0, 1, 2, 3].foldl (fun m ch => (s.memOf ch).underway.foldl maskWrite m) s.sdram

/-- The words of a burst that such a read finds uncorrectable. -/
def State.viewBad (s : State) (burst : Nat) : List Nat :=
  (s.badWords burst).filter (fun w => !((s.memOf (s.memSplit burst).1).underway.any (fun q =>
    q.burst == burst && bits q.mask (4 * w) 4 == 15)))

/-- A request waits for a channel that serves nothing. -/
def State.sdramHeld (s : State) (a n : Nat) : Bool :=
  (bursts a n).any (fun b => decide (b < s.memCapacity) && s.memHeld (s.memSplit b).1)

/-- The bursts of a range that a read finds poisoned, those beyond the capacity among them (R399, R406). -/
def State.poisonIn (s : State) (a n : Nat) : List Nat :=
  (bursts a n).filter (fun b => decide (s.memCapacity ≤ b) || !(s.viewBad b).isEmpty)

/-- A request reaches a channel and is the last that it has had. -/
def memTouch (ch : Nat) (s : State) : State := (memWake ch s).updMem ch (fun x => { x with idleAt := s.now })

/-- One burst of a unit's read: what the channel counts and raises. -/
def burstRead (cls b : Nat) (s : State) : State :=
  if s.memCapacity ≤ b then rangeError cls b false s
  else
    let ch := (s.memSplit b).1
    let bad := s.viewBad b
    let s1 := memTouch ch (if (s.memOf ch).underway.any (fun q => q.burst == b) then s.sat F.Chan.RAW_STALLS (pgChan ch) else s)
    if bad.isEmpty then s1 else memPoison ch b cls bad s1

/-- A unit reads a range; `State.sdramBytes` gives the bytes and `State.poisonIn` the poisoned bursts. -/
def sdramRead (cls a n : Nat) (s : State) : State := forAll (bursts a n) s (burstRead cls)

/-- The bytes of a range as a read that comes now finds them. -/
def State.sdramBytes (s : State) (a n : Nat) : List Byte := memBytes s.sdramView a n

/-- The same with the bytes of poisoned bursts as 0xFF (Table 12-3). -/
def State.sdramMarked (s : State) (a n : Nat) : List Byte :=
  let bad := s.poisonIn a n
  (s.sdramBytes a n).zipIdx.map (fun e => if bad.contains ((a + e.2) / 64 * 64) then 255 else e.1)

/-- One burst of a unit's write. -/
def burstWrite (cls : Nat) (q : MemReq) (s : State) : State :=
  if s.memCapacity ≤ q.burst then rangeError cls q.burst true s
  else
    let ch := (s.memSplit q.burst).1
    let x := s.memOf ch
    let before := (x.wait ++ x.reads ++ x.underway).any (fun o => o.burst == q.burst)
    let s1 := memTouch ch s
    if s.memHeld ch || before then memEnqueue ch q s1 else memMerge ch q s1

/-- The part of a range's bytes that falls into a burst, as a masked write. -/
def burstPart (cls a : Nat) (bs : List Byte) (b : Nat) : MemReq :=
  { burst := b
    cls := cls
    wr := true
    mask := (List.range 64).foldl (fun v i => v + bit (decide (a ≤ b + i) && decide (b + i < a + bs.length)) * 2 ^ i) 0
    data := (List.range 64).map (fun i => (bs.getD (b + i - a) 0).toNat) }

/-- A range can be stored at once: within the capacity, on channels that serve, with no request before it and no bad word. -/
def State.sdramFree (s : State) (a n : Nat) : Bool :=
  (bursts a n).all (fun b =>
    let x := s.memOf (s.memSplit b).1
    decide (b < s.memCapacity) && !s.memHeld (s.memSplit b).1 &&
      !(x.wait ++ x.reads ++ x.underway).any (fun o => o.burst == b) && (s.badWords b).isEmpty)

/-- A unit writes bytes from an address up; where nothing stands in the way of any burst they are stored at once, which is what
the writes of the bursts come to. -/
def sdramWrite (cls a : Nat) (bs : List Byte) (s : State) : State :=
  if s.sdramFree a bs.length then
    forAll (bursts a bs.length) { s with sdram := memWrite s.sdram a bs } (fun b s => memTouch (s.memSplit b).1 s)
  else forAll (bursts a bs.length) s (fun b => burstWrite cls (burstPart cls a bs b))

end Sys2Proof.Machine
end

