-- ==== Sys2Proof/Machine/Sram.lean ====
section
/-! DEFINITION. What every unit does at an uncorrectable word of its own SRAM (R20, R430). -/

namespace Sys2Proof.Machine

/-- Page 0x085, which counts SRAM errors. -/
def pgSram : Nat := 0x085

/-- UE_COUNT, LAST_UE and STK.SRAM_UNCORRECTED for a word of a die (0 hub, 1 and 2 raster), found by a functional read (0) or
by the scrubber (1). -/
def sramBad (die source word : Nat) (s : State) : State :=
  let s1 := s.satI F.Sram.UE_COUNT pgSram die 1
  let s2 := ((s1.set F.Sram.DIE pgSram die).set F.Sram.SOURCE pgSram source).set F.Sram.WORD pgSram word
  s2.raise Ev.stkSramUncorrected pgSram
    (arg64 (s2.getI F.Sram.UE_COUNT pgSram die) (die * 2 ^ 30 + source * 2 ^ 29 + low 23 word))

/-- A functional read of a unit's own SRAM finds an uncorrectable word; the spec does not place the word in its die, so its
index is a free value. -/
def sramUe (die : Nat) (s : State) : State :=
  let f := s.free
  sramBad die 0 (low 23 f.1) f.2

/-- Bytes written to the Reading Room: every word written whole is good from then on (R433). -/
def roomPut (a : Nat) (bs : List Byte) (s : State) : State :=
  let whole : Nat × Nat → Bool := fun e => decide (a ≤ 4 * e.1) && decide (4 * e.1 + 4 ≤ a + bs.length)
  { s with room := memWrite s.room a bs, sramErr := s.sramErr.filter (fun e => !whole e) }

end Sys2Proof.Machine
end

