-- ==== Sys2Proof/Machine/Windows.lean ====
section
/-! DEFINITION. The windows of the table apertures: which words exist, their class, which of their bits are stored, and what
they hold after reset (R54, R184, R215 to R217, R274, R356, R391 to R393, R469, R581, R588). -/

namespace Sys2Proof.Machine

/-- Class of an aperture word; `ro` for a window that software can only read. -/
inductive Win where
  | absent | ro | l | h | s
  deriving DecidableEq, Repr

/-- One window of Tables 5-3, 6-3, 8-4, 10-10, 11-7, 11-9 and of R392, R393, R469, R581 and R588. -/
structure WinRow where
  first : Nat
  last : Nat
  cls : Win
  mask : Nat
  deriving DecidableEq, Repr

/-- The word is one of two 12-bit entries. -/
def mask12x2 : Nat := 0x0FFF0FFF

/-- The windows of a page. -/
def windows (pg : Nat) : List WinRow :=
  if within pg 0x010 0x03F then [⟨0, 0x3F, .s, 0x3FFFF⟩]
  else if within pg 0x068 0x06B then [⟨0, 0x5FF, .s, mask12x2⟩]
  else if within pg 0x06C 0x06F then
    [⟨0, 0x2FFFF, .s, 0xFFFFFF07⟩, ⟨0x30000, 0x31FFF, .s, 0xFFF⟩] ++
      (if pg % 2 = 0 then [⟨0x100000, 0x1FFFFF, .l, mask12x2⟩] else [])
  else if pg = 0x073 then [⟨0, 0x5FFFF, .h, 0xFFFFFFFF⟩, ⟨0x80000, 0x80FFF, .s, 0xFFFFFFFF⟩]
  else if pg = 0x078 then
    [⟨0, 0x1FFF, .s, 0xFFF⟩, ⟨0x2000, 0x20FF, .s, 0xFF⟩, ⟨0x100000, 0x1BFFFF, .ro, 0⟩, ⟨0x1C0000, 0x1C00BF, .ro, 0⟩]
  else if pg = 0x079 then [⟨0, 0x23F, .ro, 0⟩, ⟨0x1000, 0x12FF, .ro, 0⟩, ⟨0x2000, 0x223F, .ro, 0⟩, ⟨0x3000, 0x32FF, .ro, 0⟩]
  else if pg = 0x07A then
    [⟨0, 0xBFFFF, .l, 0xFFFFFF07⟩, ⟨0xC0000, 0xC7FFF, .l, 0xFFF⟩, ⟨0xD0000, 0xD0003, .l, 0xFFFF⟩,
     ⟨0xD0004, 0xD0243, .l, 0xFFFFFFFF⟩, ⟨0xD0400, 0xD0403, .l, 0xFFFF⟩, ⟨0xD0404, 0xD0703, .l, 0xFFFFFFFF⟩,
     ⟨0xD0800, 0xD0813, .l, 0xFFFFFFFF⟩, ⟨0xD0840, 0xD0847, .l, 0xFFFFFFFF⟩, ⟨0x100000, 0x1D0847, .ro, 0⟩]
  else if pg = 0x093 then [⟨0, 0x1FFF, .ro, 0⟩]
  else if pg = 0x0B0 then (List.range 4).map (fun r => ⟨0x80000 * r, 0x80000 * r + 0x1FFFF, .h, 0xFFFFFFFF⟩)
  else if pg = 0x0B3 then [⟨0, 0xFF, .l, 0xFFFFFFFF⟩]
  else []

/-- The window that holds the byte offset `off`, below 2 MiB. -/
def winRow (pg off : Nat) : Option WinRow := (windows pg).find? (fun w => decide (w.first ≤ off) && decide (off ≤ w.last))

/-- The class of the aperture word at byte offset `off` below 2 MiB. -/
def winClass (pg off : Nat) : Win := ((winRow pg off).map (·.cls)).getD .absent

/-- The bits of an aperture word that a write stores. Level 0 of VOL and T8 of a threshold cell are not stored. -/
def winMask (pg off : Nat) : Nat :=
  if pg = 0x078 ∧ 0x2000 ≤ off ∧ off < 0x2100 ∧ off / 4 % 8 = 0 then 0
  else if within pg 0x06C 0x06F ∧ 0x100000 ≤ off ∧ off % 16 = 12 then 0xFFF
  else ((winRow pg off).map (·.mask)).getD 0

/-- Thresholds of a cell at power-on: T_k = 512 k (R215), by word of Table 6-4. -/
def thrDflt (w : Nat) : Nat := if w = 3 then 3584 else (1024 * w + 1024) * 65536 + (1024 * w + 512)

/-- What an aperture word reads as when nothing has written it (page 0x079: the factory tables, see `factoryWord`); pages from 0x100 up stand for the threshold slots. -/
def winDflt (pg off : Nat) : Nat :=
  if within pg 0x068 0x06B then
    if off < 0x400 then (if off / 4 % 4 = 1 then 1024 * 65536 else 0) else (if off / 4 % 2 = 0 then 1024 * 65536 else 0)
  else if within pg 0x06C 0x06F then
    if off < 0x30000 then 0x80000000
    else if off < 0x32000 then ((off - 0x30000) / 4 % 256 * 4095 + 127) / 255
    else 0
  else if pg = 0x073 then (if off < 0x60000 then 0x40000000 else 0xFFFFFFFF)
  else if pg = 0x078 then
    (if off < 0x2000 then off / 4 % 256 * 16 else if off < 0x2100 then 255 * (off / 4 % 8) / 7 else 0)
  else if pg = 0x079 then
    (if off < 0x240 then 0x7D7D7D7D else if 0x1000 ≤ off ∧ off < 0x1300 then 0x0C080400 + off / 4 % 4 * 0x10101010 else 0)
  else if 0x100 ≤ pg then thrDflt (off / 4 % 4)
  else 0

/-- The active copy of an aperture word. -/
def State.apt (s : State) (pg off : Nat) : Nat := tget s.aptw (aptKey pg off) (winDflt pg off)

/-- The shadow copy of a word of a class S window (R54). -/
def State.aptShadow (s : State) (pg off : Nat) : Nat := tget s.aptw (aptKey pg (off + 2 ^ 21)) (winDflt pg off)

/-- The state with an aperture word set; `off` counts the shadow copy from 2 MiB up. -/
def State.setApt (s : State) (pg off v : Nat) : State :=
  { s with aptw := tputD s.aptw (aptKey pg off) (low 32 v) (winDflt pg (off % 2 ^ 21)) }

/-- Bytes of an aperture from an offset up. -/
def State.aptBytes (s : State) (pg off n : Nat) : List Byte :=
  (List.range n).map (fun i => BitVec.ofNat 8 (s.apt pg ((off + i) / 4 * 4) / 256 ^ ((off + i) % 4)))

/-- Bytes stored into an aperture, word by word; the offset is a multiple of 4. -/
def setAptBytes (pg : Nat) : Nat → List Byte → State → State
  | _, [], s => s
  | off, b0 :: b1 :: b2 :: b3 :: bs, s => setAptBytes pg (off + 4) bs (s.setApt pg off (leNat [b0, b1, b2, b3]))
  | off, bs, s => s.setApt pg off (leNat bs)

/-! ### Threshold store (R212, R213) -/

/-- The key page of a slot of the threshold store of raster die `d`. -/
def thrPage (d slot : Nat) : Nat := 0x100 + 8 * d + slot

/-- Threshold T_k (1 to 7) of a cell. -/
def State.threshold (s : State) (d slot row col k : Nat) : Nat :=
  bits (s.apt (thrPage d slot) (16 * (256 * row + col) + (k - 1) / 2 * 4)) ((k - 1) % 2 * 16) 12

/-! ### Phase tables (R273 to R275) -/

/-- SUB_DELAY of phase `k` in a port's active or shadow table. -/
def State.subDelay (s : State) (shadow : Bool) (pg k : Nat) : Nat :=
  if shadow then s.aptShadow pg (4 * k) else s.apt pg (4 * k)

end Sys2Proof.Machine
end

