-- ==== Sys2Proof/Machine/Data.lean ====
section
/-! DEFINITION. Names of the data path that several of its blocks share: pages, units, folio numbers, and the set of a
region's pages that governs a folio (R26, R74, R142). -/

namespace Sys2Proof.Machine

/-- Pages of port `p`, of its cluster and of its lane group. -/
def pgPort (p : Nat) : Nat := 0x010 + p
def pgClu (c : Nat) : Nat := 0x040 + c
def pgLane (c : Nat) : Nat := 0x050 + c
def pgIng : Nat := 0x060
def pgJob : Nat := 0x061
def pgInfl (r : Nat) : Nat := 0x062 + r
def pgGlz (r : Nat) : Nat := 0x068 + r
def pgScr (r : Nat) : Nat := 0x06C + r

/-- Region of a port. -/
def regionOf (p : Nat) : Nat := p / 12

/-- Raster die of a port, 0 or 1; its replica is number `dieOf p + 1`. -/
def dieOf (p : Nat) : Nat := p / 24

/-- The ports of a region. -/
def portsOf (r : Nat) : List Nat := (List.range 12).map (fun k => 12 * r + k)

/-- What the model holds of a port, a region and a lane beside their registers. -/
def State.portOf (s : State) (p : Nat) : PortX := tget s.port p {}
def State.regnOf (s : State) (r : Nat) : RegionX := tget s.regn r {}
def State.laneOf (s : State) (p : Nat) : LaneX := tget s.lane p {}

/-- The state with a port, a region, a lane or ingest changed. -/
def State.updPort (s : State) (p : Nat) (f : PortX → PortX) : State := { s with port := tput s.port p (f (s.portOf p)) }
def State.updRegn (s : State) (r : Nat) (f : RegionX → RegionX) : State := { s with regn := tput s.regn r (f (s.regnOf r)) }
def State.updLane (s : State) (p : Nat) (f : LaneX → LaneX) : State := { s with lane := tput s.lane p (f (s.laneOf p)) }
def State.updIng (s : State) (f : IngX → IngX) : State := { s with ing := f s.ing }

/-- RUN_STATUS.STATE (Table 8-1). -/
def State.runState (s : State) (p : Nat) : Nat := s.get F.Port.RUN_STATUS_STATE (pgPort p)

/-- A port in FILLING, ARMED, RUNNING or STOPPING (R132). -/
def State.inRun (s : State) (p : Nat) : Bool := [2, 3, 4, 5].contains (s.runState p)

/-- How far folio `a` lies ahead of folio `b` modulo 2^32; up to 2^31 counts as ahead. -/
def folioDiff (a b : Nat) : Int :=
  let d : Nat := (a + 2 ^ 32 - b % 2 ^ 32) % 2 ^ 32
  if d ≤ 2 ^ 31 then (d : Int) else (d : Int) - 2 ^ 32

/-- The folio after one. -/
def nextFolio (n : Nat) : Nat := (n + 1) % 2 ^ 32

/-- The folio before one. -/
def prevFolio (n : Nat) : Nat := (n + 2 ^ 32 - 1) % 2 ^ 32

/-- The expected folio E (R131). -/
def State.expected (s : State) : Nat := s.get F.Ing.EXPECTED_FOLIO pgIng

/-- A folio that ingest holds, before or after its deadline. -/
def State.folio (s : State) (n : Nat) : Option Folio := (s.ing.held ++ s.ing.past).find? (fun f => f.n == n)

/-- A folio replaced by its new contents. -/
def State.updFolio (s : State) (n : Nat) (f : Folio → Folio) : State :=
  let g := fun (x : Folio) => if x.n == n then f x else x
  s.updIng (fun i => { i with held := i.held.map g, past := i.past.map g })

/-- An item of a folio. -/
def State.item (s : State) (n ix : Nat) : Option Item :=
  (s.folio n).bind (fun f => f.items.find? (fun x => x.e.ix == ix))

/-- An item replaced by its new contents. -/
def State.updItem (s : State) (n ix : Nat) (f : Item → Item) : State :=
  s.updFolio n (fun x => { x with items := x.items.map (fun y => if y.e.ix == ix then f y else y) })

/-- LINES of a folio as a port takes it (R132, R143, R261); none while it is not known. -/
def State.linesOf (s : State) (n : Nat) : Option Nat :=
  match s.folio n with
  | some f => if f.known then f.hdr.map (·.lines) else none
  | none => if folioDiff n s.expected < 0 then some (s.get F.Ing.INGEST_DEFAULT_LINES pgIng) else none

/-- LINES of a folio for a port: those that it has kept (R132, R167), else those of the folio. -/
def State.linesFor (s : State) (p n : Nat) : Option Nat :=
  match ((s.portOf p).runs.find? (fun r => r.n == n)).bind (·.lines) with
  | some k => some k
  | none => s.linesOf n

/-- The line after a line of a port, none while LINES of its folio is not known. -/
def State.nextLine (s : State) (p : Nat) (x : Nat × Nat) : Option (Nat × Nat) :=
  (s.linesFor p x.1).map (fun n => if x.2 + 1 < n then (x.1, x.2 + 1) else (nextFolio x.1, 0))

/-- The port replays a folio (R289). -/
def State.replays (s : State) (p n : Nat) : Bool := (s.portOf p).runs.any (fun x => x.n == n && x.replay)

/-- The next line that Glaze composes for a port; replayed folios are passed over (R289). -/
def State.composeAt (s : State) (p : Nat) : Option (Nat × Nat) :=
  match (s.portOf p).compose with
  | some (n, l) =>
    if s.replays p n then
      if s.replays p (nextFolio n) then some (nextFolio (nextFolio n), 0) else some (nextFolio n, 0)
    else some (n, l)
  | none => none

/-- An event that keeps the replay record of a folio from being clean names a port (R288). -/
def markDirty (p n : Nat) (s : State) : State := s.updPort p (fun x => { x with dirty := x.dirty.filter (· != n) ++ [n] })

/-- A key lies on one of a region's pages. -/
def ofRegion (r pg : Nat) : Bool := pg == pgInfl r || pg == pgGlz r || pg == pgScr r

/-- A key names the active copy of a class S field of one of a region's pages. -/
def regionReg (r k : Nat) : Bool :=
  ofRegion r (k / 131072) &&
    (shadowFields (k / 131072)).any (fun f => (List.range f.cnt).any (fun i => f.key (k / 131072) i == k))

/-- The active class S fields of a region's pages. -/
def regionRegs (r : Nat) (m : Tbl Nat) : Tbl Nat := m.filter (fun e => regionReg r e.1)

/-- The aperture words of a region's pages. -/
def regionWords (r : Nat) (m : Tbl Nat) : Tbl Nat := m.filter (fun e => ofRegion r (e.1 / 2 ^ 22))

/-- The state as folio `n` of region `r` sees its pages: lines of an earlier folio than the last one begun use the set that
was active before it (R26). -/
def State.asOf (s : State) (r n : Nat) : State :=
  match (s.regnOf r).old.find? (fun o => decide (folioDiff n o.until_ < 0)) with
  | some o =>
    { s with
      regs := o.regs.foldl (fun m e => tput m e.1 e.2) (s.regs.filter (fun e => !regionReg r e.1))
      aptw := o.aptw.foldl (fun m e => tput m e.1 e.2) (s.aptw.filter (fun e => !ofRegion r (e.1 / 2 ^ 22))) }
  | none => s

/-- The function of a page issues new requests: READY, and QUIESCE is 0 (R117). -/
def State.active (s : State) (pg : Nat) : Bool := s.ready pg && !s.on F.Hdr.QUIESCE pg

/-- The data path advances: the pages of a region, while it is not stopped by Safe-Hold (R102). -/
def State.pathOn (s : State) (pg : Nat) : Bool := s.active pg && s.on F.Hdr.ENABLE pg && !s.mode.pathStopped

/-- Bytes of an item as SDRAM holds them: its pieces in order. -/
def placeBytes (m : List Host.Cell) (place : List (Nat × Nat)) : List Byte := place.flatMap (fun x => memBytes m x.1 x.2)

/-! ### System addresses (Table 18-1) -/

/-- First system address of the Reading Room, and of SDRAM. -/
def roomBase : Nat := 0x10000000
def sdramBase : Nat := 0x1000000000

/-- A byte of the Reading Room; its top holds the flat-field window (Table 13-1). -/
def State.roomByte (s : State) (a : Nat) : Byte :=
  if 0x1FA0000 ≤ a then BitVec.ofNat 8 (s.apt 0x073 ((a - 0x1FA0000) / 4 * 4) / 256 ^ ((a - 0x1FA0000) % 4)) else memByte s.room a

/-- The range lies wholly in the Reading Room, or wholly in SDRAM below its data capacity. -/
def State.inMemory (s : State) (a n : Nat) : Bool :=
  (decide (roomBase ≤ a) && decide (a + n ≤ roomBase + 2 ^ 25)) ||
    (decide (sdramBase ≤ a) && decide (a + n ≤ sdramBase + s.get F.Mem.CAPACITY 0x084 * 4096))

/-- Bytes at a system address of the Reading Room or SDRAM; elsewhere zero. -/
def State.sysBytes (s : State) (a n : Nat) : List Byte :=
  let v := s.sdramView
  (List.range n).map (fun i =>
    let x := a + i
    if sdramBase ≤ x then memByte v (x - sdramBase)
    else if roomBase ≤ x ∧ x < roomBase + 2 ^ 25 then s.roomByte (x - roomBase)
    else 0)

/-- Bytes written to the Reading Room, at its top to the flat-field window. -/
def roomWrite (a : Nat) (bs : List Byte) (s : State) : State :=
  let n := 0x1FA0000 - a
  let s1 := roomPut a (bs.take n) s
  forAll (bs.drop n).zipIdx s1 (fun e s =>
    let x := (if a < 0x1FA0000 then 0 else a - 0x1FA0000) + e.2
    let old := s.apt 0x073 (x / 4 * 4)
    let k := 256 ^ (x % 4)
    s.setApt 0x073 (x / 4 * 4) (old - bits old (8 * (x % 4)) 8 * k + e.1.toNat * k))

/-- A read of a range waits for an SDRAM channel that serves nothing. -/
def State.sysHeld (s : State) (a n : Nat) : Bool := decide (sdramBase ≤ a) && s.sdramHeld (a - sdramBase) n

/-- The first byte of a range that a read finds poisoned in SDRAM. -/
def State.sysPoison (s : State) (a n : Nat) : Option Nat :=
  if sdramBase ≤ a then ((s.poisonIn (a - sdramBase) n).head?).map (fun b => b - (a - sdramBase)) else none

/-- A unit reads a range at a system address; `State.sysBytes` gives the bytes. -/
def sysRead (cls a n : Nat) (s : State) : State := if sdramBase ≤ a then sdramRead cls (a - sdramBase) n s else s

/-- The earlier of two poisoned bytes. -/
def firstPoison (a b : Option Nat) : Option Nat := match a, b with
  | some x, some y => some (min x y)
  | some x, none => some x
  | none, y => y

/-- Bytes written by a requester class at a system address of the Reading Room or SDRAM. -/
def sysWrite (cls a : Nat) (bs : List Byte) (s : State) : State :=
  if sdramBase ≤ a then sdramWrite cls (a - sdramBase) bs s
  else if roomBase ≤ a then roomWrite (a - roomBase) bs s
  else s

end Sys2Proof.Machine
end

