-- ==== Sys2Proof/Machine/Exposure.lean ====
section
/-! DEFINITION. What a swap of a camera page starts: exposure sequences (R353, R354), the pipeline's older sets (R344) and
the taps (R350). -/

namespace Sys2Proof.Machine

/-- Page of link `l`; 2 is the parallel port. -/
def pgCam (l : Nat) : Nat := 0x070 + l
def pgPipe : Nat := 0x073
def pgTap : Nat := 0x074

/-- Link and slot of a stream (Table 10-1). -/
def linkOf (st : Nat) : Nat := st / 4
def slotOf (st : Nat) : Nat := st % 4

/-- The streams of a link. -/
def streamsOf (l : Nat) : List Nat := if l < 2 then [4 * l, 4 * l + 1, 4 * l + 2, 4 * l + 3] else [8]

def State.linkX (s : State) (l : Nat) : LinkX := tget s.link l {}
def State.slotX (s : State) (st : Nat) : CamSlot := tget s.cam st {}
def State.updLink (s : State) (l : Nat) (f : LinkX → LinkX) : State := { s with link := tput s.link l (f (s.linkX l)) }
def State.updSlot (s : State) (st : Nat) (f : CamSlot → CamSlot) : State := { s with cam := tput s.cam st (f (s.slotX st)) }
def State.updPipe (s : State) (f : PipeX → PipeX) : State := { s with pipe := f s.pipe }

/-- A field of a stream's slot. -/
def State.slotGet (s : State) (st : Nat) (f : Fld) : Nat := s.getI f (pgCam (linkOf st)) (slotOf st)

/-- The stream's slot is enabled. -/
def State.slotOn (s : State) (st : Nat) : Bool := s.slotGet st F.Cam.SLOT_CFG_EN == 1

/-! ### Exposure sequences -/

/-- CAM.EXPOSURE_LATE of a sequence, once (R353). -/
def expLate (l : Nat) (e : ExpSeq) (s : State) : State :=
  if e.late then s
  else
    (s.updLink l (fun x => { x with
      exps := x.exps.map (fun y => if y.f = e.f then { y with late := true } else y)
      ids := x.ids.map (fun i => if i.1 = e.f + 2 then (i.1, i.2.1, true) else i) })).raise Ev.camExposureLate (pgCam l)
        (arg64 e.f (e.id * 256))

/-- The CCI master takes its next transaction: the first sequence, then the direct operation (R353, R354). A sequence with
no write left has ended. -/
def cciNext (l : Nat) : Nat → State → State
  | 0, s => s
  | fuel + 1, s =>
    let x := s.linkX l
    if x.run ≠ 0 then s
    else match x.exps with
      | e :: rest =>
        if e.left.isEmpty then
          let s1 := (s.set F.Cam.EXP_STATUS_STATE (pgCam l) (if e.late then 3 else 2)).set F.Cam.LAST_ID (pgCam l) e.id
          cciNext l fuel (s1.updLink l (fun x => { x with exps := rest }))
        else
          (s.set F.Cam.EXP_STATUS_STATE (pgCam l) 1).updLink l (fun x => { x with
            run := 1, exps := { e with begun := true } :: rest })
      | [] => if x.direct.isSome then s.updLink l (fun x => { x with run := 2 }) else s

/-- As many steps as a link can have sequences waiting. -/
def cciGo (l : Nat) (s : State) : State := cciNext l ((s.linkX l).exps.length + 1) s

/-- The writes of the active exposure set. -/
def State.expEntries (s : State) (l : Nat) : List (Nat × Nat × Nat × Nat) :=
  (List.range (s.get F.Cam.EXP_COUNT (pgCam l))).map (fun e =>
    (e, s.getI F.Cam.EXP_ENTRY_DEV (pgCam l) e, s.getI F.Cam.EXP_ENTRY_REG (pgCam l) e, s.getI F.Cam.EXP_ENTRY_DATA (pgCam l) e))

/-- An exposure set swaps at the start of frame `n` (R353); the shadow set holds the one before it. -/
def exposureSwap (l n : Nat) (s : State) : State :=
  let id := s.get F.Cam.EXP_ID (pgCam l)
  let was := s.getShadow F.Cam.EXP_ID (pgCam l) 0
  let first := if (s.linkX l).ids.isEmpty then [(0, was, false)] else []
  cciGo l (s.updLink l (fun x => { x with
    ids := x.ids ++ first ++ [(n + 2, id, false)]
    exps := x.exps ++ [{ id := id, f := n, left := s.expEntries l }] }))

/-- EXP_ID and EXP_UNCERTAIN of frame `n` of a link. -/
def State.expOf (s : State) (l n : Nat) : Nat × Bool :=
  match (s.linkX l).ids.reverse.find? (fun i => decide (i.1 ≤ n)) with
  | some i => (i.2.1, i.2.2)
  | none => (s.get F.Cam.EXP_ID (pgCam l), false)

/-! ### The pipeline's sets and the taps -/

/-- A key names the active copy of a class S field of the pipeline page. -/
def pipeReg (k : Nat) : Bool :=
  decide (k / 131072 = pgPipe) && (shadowFields pgPipe).any (fun f => (List.range f.cnt).any (fun i => f.key pgPipe i == k))

/-- A key names an active knot. -/
def pipeKnot (k : Nat) : Bool := decide (aptKey pgPipe 0x80000 ≤ k) && decide (k < aptKey pgPipe 0x81000)

/-- A swap of the pipeline page: the set before it stays for lines that entered line assembly under it (R344). -/
def pipeSwap (s : State) : State :=
  let regs := (shadowFields pgPipe).flatMap (fun f => (List.range f.cnt).map (fun i => (f.key pgPipe i, s.getShadow f pgPipe i)))
  let words := (s.aptw.filter (fun e => decide (2 ^ 21 ≤ e.1) && pipeKnot (e.1 - 2 ^ 21))).map (fun e => (e.1 - 2 ^ 21, e.2))
  s.updPipe (fun p => { p with old := p.old ++ [(p.set, regs, words)], set := p.set + 1 })

/-- The state as a line that entered line assembly under set `k` sees the pipeline page. -/
def State.pipeAs (s : State) (k : Nat) : State :=
  match s.pipe.old.find? (fun o => o.1 == k) with
  | some o =>
    { s with
      regs := o.2.1.foldl (fun m e => tput m e.1 e.2) (s.regs.filter (fun e => !pipeReg e.1))
      aptw := o.2.2.foldl (fun m e => tput m e.1 e.2) (s.aptw.filter (fun e => !pipeKnot e.1)) }
  | none => s

/-- Older sets that no line in assembly or in a buffer needs are dropped. -/
def pipePrune (s : State) : State :=
  let used := s.cam.flatMap (fun e => (e.2.line.toList ++ e.2.ready).map (·.set))
  s.updPipe (fun p => { p with old := p.old.filter (fun o => used.contains o.1) })

/-- A swap of the tap page: a tap that becomes enabled starts, one that becomes disabled stops (R350). -/
def tapSwap (s : State) : State :=
  forAll (List.range 6) s (fun t s =>
    let was := s.getShadow F.Tap.TAP_CFG_EN pgTap t
    let is := s.getI F.Tap.TAP_CFG_EN pgTap t
    let mode := s.getI F.Tap.MODE pgTap t
    if is = 0 then (s.setI F.Tap.TAP_STATE pgTap t 0).updPipe (fun p => { p with taps := tdel p.taps t })
    else if was = 1 then s
    else
      ((s.setI F.Tap.TAP_STATE pgTap t (1 - mode)).setI F.Tap.TAP_WR pgTap t 0).updPipe (fun p => { p with
        taps := tput p.taps t { arm := mode == 1 } }))

/-- The tap page becomes READY: a tap whose EN was restored takes effect now (R111, R350). -/
def tapReady (s : State) : State :=
  forAll (List.range 6) s (fun t s =>
    if s.getI F.Tap.TAP_CFG_EN pgTap t = 0 then s
    else
      (s.setI F.Tap.TAP_STATE pgTap t (1 - s.getI F.Tap.MODE pgTap t)).updPipe (fun p => { p with
        taps := tput p.taps t { arm := s.getI F.Tap.MODE pgTap t == 1 } }))

end Sys2Proof.Machine
end

