-- ==== Sys2Proof/Machine/CalStore.lean ====
section
/-! DEFINITION. Calibration values (R113, R387 to R389, R393) and the nozzle states of the density tracker (Table 11-9). -/

namespace Sys2Proof.Machine

def pgTrk : Nat := 0x078
def pgTdc : Nat := 0x079
def pgCal : Nat := 0x07A

/-- First offset and bytes of a category's user window (Table 11-7). -/
def calWindow (c : Nat) : Nat × Nat :=
  match c with
  | 0 => (0xD0000, 580)
  | 1 => (0xD0400, 772)
  | 2 => (0xD0800, 20)
  | 3 => (0xD0840, 8)
  | 4 => (0xC0000, 0x8000)
  | _ => (0, 0xC0000)

/-- The category whose user window holds an offset. -/
def calCategory (off : Nat) : Option Nat :=
  (List.range 6).find? (fun c => decide ((calWindow c).1 ≤ off) && decide (off < (calWindow c).1 + (calWindow c).2))

/-- TEST_TEMP of the modelled part, 25.0 °C. DESIGN CHOICE: the fused values of a part are not the spec's. -/
def testTemp : Nat := 400

/-- The factory value of a word at its user-window offset: nominal bins of 62.5 ps, nominal taps, no sensor offset, ADC gain
1.0; categories 4 and 5 have the defaults of R217 (R388). DESIGN CHOICE for categories 0 to 3. -/
def factoryWord (off : Nat) : Nat :=
  if off < 0xC0000 then 0x80000000
  else if off < 0xC8000 then ((off - 0xC0000) / 4 % 256 * 4095 + 127) / 255
  else if off = 0xD0000 ∨ off = 0xD0400 then testTemp
  else if 0xD0004 ≤ off ∧ off < 0xD0244 then 0x7D7D7D7D
  else if 0xD0404 ≤ off ∧ off < 0xD0704 then 0x0C080400 + (off - 0xD0404) / 4 % 4 * 0x10101010
  else if off = 0xD0840 then 0x8000
  else 0

/-- The effective value of a calibration word (R113, R388). -/
def State.effWord (s : State) (off : Nat) : Nat :=
  match calCategory off with
  | some c => if bitAt (s.get F.Cal.CAL_VALID pgCal) c then s.apt pgCal off else factoryWord off
  | none => 0

/-- Bytes of the effective values. -/
def State.effBytes (s : State) (off n : Nat) : List Byte :=
  (List.range n).map (fun i => BitVec.ofNat 8 (s.effWord ((off + i) / 4 * 4) / 256 ^ ((off + i) % 4)))

/-! ### Nozzles -/

/-- Offset of a nozzle's entry in the per-nozzle window of its screening page (Table 6-3). -/
def nozzleOff (p n : Nat) : Nat := 4 * (p % 12 * 4096 + n)

/-- The active and the shadow per-nozzle entry. -/
def State.nozzleEntry (s : State) (p n : Nat) : Nat := s.apt (pgScr (regionOf p)) (nozzleOff p n)
def State.nozzleShadow (s : State) (p n : Nat) : Nat := s.aptShadow (pgScr (regionOf p)) (nozzleOff p n)

/-- Offset of NOZZLE_STATE of a nozzle. -/
def nozOff (p n : Nat) : Nat := 0x100000 + 4 * (4096 * p + n)

/-- NOZZLE_STATE of a nozzle: F_s, OBSERVED, OUT, F_VALID, OUT_COUNT, REASON. -/
structure Noz where
  fs : Nat
  observed : Bool
  out : Bool
  valid : Bool
  count : Nat
  reason : Nat
  deriving DecidableEq, Repr

def State.noz (s : State) (p n : Nat) : Noz :=
  let w := s.apt pgTrk (nozOff p n)
  ⟨w / 65536, bitAt w 15, bitAt w 14, bitAt w 13, bits w 8 4, bits w 0 4⟩

def Noz.word (x : Noz) : Nat :=
  x.fs * 65536 + bit x.observed * 32768 + bit x.out * 16384 + bit x.valid * 8192 + x.count * 256 + x.reason

def setNoz (p n : Nat) (x : Noz) (s : State) : State := s.setApt pgTrk (nozOff p n) x.word

def State.updTrk (s : State) (f : TrkX → TrkX) : State := { s with trk := f s.trk }

/-- A swap of region `r`'s screening page: values that waited for it are active, and a nozzle whose MISSING has gone is no
longer out (R377, R382). -/
def nozzleSwap (r : Nat) (s : State) : State :=
  let known := trange s.aptw (aptKey pgTrk (nozOff (12 * r) 0)) (aptKey pgTrk (nozOff (12 * r + 12) 0))
  let out := (known.filter (fun e => bitAt e.2 14)).map (fun e => (e.1 - aptKey pgTrk 0x100000) / 4)
  let s1 := forAll out s (fun i s =>
    let p := i / 4096
    let n := i % 4096
    if bitAt (s.nozzleShadow p n) 0 && !bitAt (s.nozzleEntry p n) 0 then
      setNoz p n { s.noz p n with out := false, count := 0 } s
    else s)
  s1.updTrk (fun t => { t with await := t.await.filter (fun p => regionOf p != r) })

end Sys2Proof.Machine
end

