-- ==== Sys2Proof/Machine/AfterSwap.lean ====
section
/-! DEFINITION. What follows at once from a swap of a page's sets (R218, R353, R377). -/

namespace Sys2Proof.Machine

/-- The reason of Table 6-7 for which a screening port's ramps count as 0, 0 for none (R218). -/
def State.rampReason (s : State) (r k : Nat) : Nat :=
  let lo := s.getI F.Scr.RAMP_LO_LEN (pgScr r) k
  let hi := s.getI F.Scr.RAMP_HI_LEN (pgScr r) k
  if 64 < lo ∨ 64 < hi then 1 else if s.getI F.Scr.NOZZLES (pgScr r) k < lo + hi then 2 else 0

/-- Every port entry of a screening page is checked at a swap for folio `n` (R218). -/
def checkRamps (r n : Nat) (s : State) : State :=
  forAll (List.range 12) s (fun k s =>
    let c := s.rampReason r k
    if c = 0 then s else s.raise Ev.screenConfigInvalid (pgScr r) (arg64 n ((12 * r + k) * 256 + c)))

/-- What follows a swap of a page whose next boundary is `n`; a swap puts other words in place of failing table entries
(R222). -/
def afterSwap (pg n : Nat) (s : State) : State :=
  if within pg 0x06C 0x06F then
    let s1 := s.updRegn (pg - 0x06C) (fun x => { x with badTab := x.badTab.filter (fun b => b.1 == 2) })
    nozzleSwap (pg - 0x06C) (checkRamps (pg - 0x06C) n s1)
  else if within pg 0x070 0x072 then exposureSwap (pg - 0x070) n s
  else if pg = pgPipe then pipeSwap s
  else if pg = pgTap then tapSwap s
  else s

end Sys2Proof.Machine
end

