-- ==== Sys2Proof/Machine/PhaseTable.lean ====
section
/-! DEFINITION. The test of a port's phase table (R275, R277). -/

namespace Sys2Proof.Machine

/-- SUB_DELAY of the enabled phases of the active or shadow set. -/
def State.phases (s : State) (shadow : Bool) (pg : Nat) : List Nat :=
  let m1 := if shadow then s.getShadow F.Port.PHASE_COUNT_M1 pg 0 else s.get F.Port.PHASE_COUNT_M1 pg
  (List.range (m1 + 1)).map (s.subDelay shadow pg)

/-- Each delay leaves the strobe before it its width and 4 fclk. -/
def spaced (gap : Nat) : List Nat → Bool
  | a :: b :: t => decide (a + gap ≤ b) && spaced gap (b :: t)
  | _ => true

/-- The phase table is valid (R275). -/
def State.phasesValid (s : State) (shadow : Bool) (pg : Nat) : Bool :=
  let ph := s.phases shadow pg
  let gap := 16 * (s.get F.Port.STROBE_WIDTH pg + 4)
  ph.head? == some 0 && spaced gap ph && decide (ph.getLastD 0 + gap ≤ 16 * s.get F.Port.MIN_PERIOD pg)

/-- A page is a firing page whose shadow table is not valid (R277). -/
def State.shadowBad (s : State) (pg : Nat) : Bool := within pg 0x010 0x03F && !s.phasesValid true pg

/-- FIRE.CONFIG_INVALID with a reason of Table 8-2; the folio number is all ones for a stopped port (Table 8-11). -/
def portInvalid (pg folio reason : Nat) (s : State) : State :=
  s.raise Ev.fireConfigInvalid pg
    (arg64 (if s.get F.Port.RUN_STATUS_STATE pg = 0 then 0xFFFFFFFF else folio) (reason * 256 + (pg - 0x010)))

end Sys2Proof.Machine
end

