-- ==== Sys2Proof/Machine/Status.lean ====
section
/-! DEFINITION. When a function works and when it is stopped (R60, R62). -/

namespace Sys2Proof.Machine

/-- The page that the watchdog resets for a requester (Table 13-3). -/
def stackPage (i : Nat) : Option Nat :=
  match i with
  | 3 => some 0x060
  | 4 => some 0x061
  | 5 => some 0x061
  | 6 => some 0x061
  | 7 => some 0x061
  | 8 => some 0x073
  | 9 => some 0x074
  | 10 => some 0x078
  | 11 => some 0x098
  | 12 => some 0x005
  | 13 => some 0x0B3
  | 14 => some 0x092
  | _ => none

/-- Work of a page's block that is not done: a run of a firing port, jobs, engines, open frames, a solve, a collection, queued
requests, frames, an action. -/
def State.working (s : State) (pg : Nat) : Bool :=
  if within pg 0x010 0x03F then
    let st := s.get F.Port.RUN_STATUS_STATE pg
    (decide (2 ≤ st) && decide (st ≤ 5)) || (tget s.port (pg - 0x010) {}).leaving
  else if pg == 0x061 then (List.range 4).any (fun k => s.getI F.Job.JOB_STATUS_STATE pg k == 1)
  else if within pg 0x062 0x065 then (tget s.regn (pg - 0x062) {}).engines.any (fun e => e.2.cur.isSome)
  else if within pg 0x070 0x072 then
    let slots := if pg == 0x072 then [8] else (List.range 4).map (4 * (pg - 0x070) + ·)
    slots.any (fun st => (tget s.cam st {}).frame.isSome) || (tget s.link (pg - 0x070) {}).direct.isSome
  else if pg == 0x073 then (List.range 9).any (fun st => !(tget s.cam st {}).ready.isEmpty)
  else if pg == 0x078 then s.get F.Dtrk.TRK_STATE_STATE pg == 2 || !s.trk.pend.isEmpty
  else if pg == 0x079 then s.get F.Tdc.TDC_STATUS pg != 0
  else if pg == 0x07A then s.get F.Cal.CAL_STATUS_STATE pg == 1
  else if within pg 0x080 0x083 then
    let x := tget s.memx (pg - 0x080) {}
    !(x.wait.isEmpty && x.reads.isEmpty && x.writes.isEmpty && x.flight.isEmpty) || x.train != 0
  else if pg == 0x084 then s.memc.pend.isSome || s.memc.chg.isSome
  else if pg == 0x086 then !s.stack.reqs.isEmpty
  else if within pg 0x090 0x091 then
    s.net.queues.any (fun e => e.1 / 4 == pg - 0x090 + 1 && !e.2.isEmpty)
  else if pg == 0x092 then s.net.queues.any (fun e => !e.2.isEmpty)
  else if pg == 0x098 then s.pair.join.isSome
  else if pg == 0x0AA then s.get F.Seq.SEQ_STATUS_STATE pg == 1 || s.get F.Seq.SEQ_STATUS_STATE pg == 3
  else if pg == 0x0B0 then s.cpu.boot == 1 || s.on F.Cpu.L2_MAINT_BUSY pg
  else if pg == 0x0B3 then s.jrn.cur.isSome || !s.jrn.queue.isEmpty || s.jrn.erasing || s.get F.Nor.NOR_STATUS_STATE pg == 2
  else false

/-- STATUS.BUSY: the function has work or Stacks Bus requests outstanding (Table 2-3). -/
def State.busy (s : State) (pg : Nat) : Bool := s.working pg || s.stack.reqs.any (fun e => stackPage e.1 == some pg)

/-- Pages whose ENABLE gates nothing (R62). -/
def enableGatesNothing (pg : Nat) : Bool :=
  within pg 0x000 0x004 || within pg 0x040 0x05B || within pg 0x080 0x086 || within pg 0x090 0x094 || pg == 0x0A0 ||
    within pg 0x0A8 0x0AC || within pg 0x0B0 0x0B3

/-- A function is stopped while its ENABLE is 0 and it is not busy (R60). -/
def State.stopped (s : State) (pg : Nat) : Bool := !s.on F.Hdr.ENABLE pg && !s.busy pg

end Sys2Proof.Machine
end

