-- ==== Sys2Proof/Machine/Commit.lean ====
section
/-! DEFINITION. Commits of one page and of commit groups as shared operations (R64 to R79, R634). -/

namespace Sys2Proof.Machine

/-- The boundary record of a page. -/
def State.bndOf (s : State) (pg : Nat) : Bnd := tget s.bnd pg {}

/-- The state with a page's boundary record changed. -/
def State.updBnd (s : State) (pg : Nat) (f : Bnd → Bnd) : State := { s with bnd := tput s.bnd pg (f (s.bndOf pg)) }

/-- The record of a commit group. -/
def State.grpOf (s : State) (g : Nat) : Grp := tget s.grp g {}

/-- The state with a group's record changed. -/
def State.updGrp (s : State) (g : Nat) (f : Grp → Grp) : State := { s with grp := tput s.grp g (f (s.grpOf g)) }

/-- COMMIT.STATE of a page: 0 IDLE, 1 PENDING, 2 FROZEN, 3 COPYING. -/
def State.cstate (s : State) (pg : Nat) : Nat := s.get F.Hdr.COMMIT_STATE pg

/-- The state with COMMIT.STATE set. -/
def State.setCstate (s : State) (pg v : Nat) : State := s.set F.Hdr.COMMIT_STATE pg v

/-- The next boundary number of a page, 32 bits. -/
def State.nextBoundary (s : State) (pg : Nat) : Nat := (s.bndOf pg).next

/-! ### Copies -/

/-- Active and shadow values of one class S field exchanged. -/
def swapField (pg : Nat) (f : Fld) (s : State) : State :=
  forAll (List.range f.cnt) s (fun i s =>
    let a := s.getI f pg i
    (s.setI f pg i (s.getShadow f pg i)).setShadow f pg i a)

/-- The key of the other copy of an aperture word of a class S window; any other key is unchanged (R54). -/
def otherCopy (pg k : Nat) : Nat :=
  let off := k - aptKey pg 0
  if winClass pg (off % 2 ^ 21) = .s then (if off < 2 ^ 21 then k + 2 ^ 21 else k - 2 ^ 21) else k

/-- Active and shadow copies of every class S window of a page exchanged. -/
def swapWindows (pg : Nat) (s : State) : State :=
  let mine := trange s.aptw (aptKey pg 0) (aptKey (pg + 1) 0)
  let rest := tclear s.aptw (aptKey pg 0) (aptKey (pg + 1) 0)
  { s with aptw := mine.foldl (fun m e => tput m (otherCopy pg e.1) e.2) rest }

/-- The shadow value of a class S field made equal to the active one, unless its register was written (R67). -/
def copyField (pg : Nat) (written : List Nat) (f : Fld) (s : State) : State :=
  forAll (List.range f.cnt) s (fun i s =>
    if written.contains (f.off + i * f.stride) then s else s.setShadow f pg i (s.getI f pg i))

/-- The shadow copy of every class S window made a copy of the active one, except the words written (R67). -/
def copyWindows (pg : Nat) (written : List Nat) (s : State) : State :=
  let base := aptKey pg 0
  let isS := fun off => decide (winClass pg (off % 2 ^ 21) = .s)
  let mine := trange s.aptw base (aptKey (pg + 1) 0)
  let keep := mine.filter (fun e => !(decide (base + 2 ^ 21 ≤ e.1) && isS (e.1 - base) &&
    !written.contains (0x1000 + (e.1 - base - 2 ^ 21))))
  let rest := tclear s.aptw base (aptKey (pg + 1) 0)
  let m1 := keep.foldl (fun m e => tput m e.1 e.2) rest
  let m2 := mine.foldl (fun m e =>
    if decide (e.1 < base + 2 ^ 21) && isS (e.1 - base) && !written.contains (0x1000 + (e.1 - base))
    then tput m (e.1 + 2 ^ 21) e.2 else m) m1
  { s with aptw := m2 }

/-- The shadow set made a copy of the active set. -/
def copySets (pg : Nat) (written : List Nat) (s : State) : State :=
  copyWindows pg written (forAll (shadowFields pg) s (copyField pg written))

/-- The swap itself: every S field and S window at once; COPYING follows (R65). -/
def swapSets (pg : Nat) (s : State) : State :=
  let s1 := swapWindows pg (forAll (shadowFields pg) s (swapField pg))
  let s2 := s1.set F.Hdr.ACTIVE_SET pg (1 - s1.get F.Hdr.ACTIVE_SET pg)
  afterSwap pg (s.nextBoundary pg)
    (((s2.set F.Hdr.LATE pg 0).setCstate pg 3).updBnd pg (fun b => { b with tgt := none, written := [] }))

/-! ### Requests of one page -/

/-- A request judged against the next boundary of a page (R65, R68, R69, R72). -/
def requestArrives (pg : Nat) (tgt : Option Nat) (s : State) : State :=
  let b := s.bndOf pg
  let pend := fun (s : State) => (s.setCstate pg 1).updBnd pg (fun b => { b with tgt := tgt })
  if s.stopped pg then pend s
  else match tgt with
    | none =>
      if b.leadPassed then
        let s1 := ((pend s).set F.Hdr.LATE pg 1).sat F.Hdr.LATE_COUNT pg
        s1.raise Ev.regCommitLate pg (arg64 b.next pg)
      else pend s
    | some t =>
      let d := (t + 65536 - b.next % 65536) % 65536
      if 32767 < d ∨ (d = 0 ∧ b.leadPassed) then
        s.raise Ev.regCommitRefused pg (arg64 b.next (t * 65536 + pg))
      else pend s

/-- A request arrives at an idle page; an invalid phase table refuses it (R277). -/
def requestTested (pg : Nat) (tgt : Option Nat) (s : State) : State :=
  if s.shadowBad pg then portInvalid pg (s.nextBoundary pg) 6 s else requestArrives pg tgt s

/-- COMMIT.REQUEST of a page (R57, R65, R67, R71, R78). -/
def commitRequest (pg : Nat) (tgt : Option Nat) (s : State) : State :=
  if !hasBoundary pg || (s.groupOf pg).isSome then s
  else match s.cstate pg with
    | 0 => requestTested pg tgt s
    | 3 => s.updBnd pg (fun b => { b with held := some tgt })
    | _ => s

/-- COMMIT.CANCEL of a page: PENDING returns to IDLE (R68, R70). -/
def commitCancel (pg : Nat) (s : State) : State :=
  if s.cstate pg = 1 then ((s.setCstate pg 0).set F.Hdr.LATE pg 0).updBnd pg (fun b => { b with tgt := none }) else s

/-! ### Groups -/

/-- GROUP_STATE.STATE: 0 IDLE, 1 PENDING, 2 FROZEN, 3 SWAPPING. -/
def State.gstate (s : State) (g : Nat) : Nat := s.getI F.Group.GROUP_STATE_STATE pgMode g

/-- The state with GROUP_STATE.STATE set. -/
def State.setGstate (s : State) (g v : Nat) : State := s.setI F.Group.GROUP_STATE_STATE pgMode g v

/-- The members that run. -/
def State.runningMembers (s : State) (g : Nat) : List Nat := (s.groupMembers g).filter (fun pg => !s.stopped pg)

/-- The later of two boundary numbers, compared modulo 2^32 (R77). -/
def laterBoundary (a b : Nat) : Nat := if (b + 2 ^ 32 - a) % 2 ^ 32 < 2 ^ 31 then b else a

/-- The next boundary of a group: the largest among its running members, compared modulo 2^32 (R77). -/
def State.groupNext (s : State) (g : Nat) : Nat :=
  match s.runningMembers g with
  | [] => 0
  | pg :: r => r.foldl (fun a q => laterBoundary a (s.nextBoundary q)) (s.nextBoundary pg)

/-- The group's lead point has passed: that of a running member whose next boundary it is (R77). -/
def State.groupLeadPassed (s : State) (g : Nat) : Bool :=
  (s.runningMembers g).any (fun pg => s.nextBoundary pg == s.groupNext g && (s.bndOf pg).leadPassed)

/-- What a page's boundary number counts, with the link of a frame boundary (R76). -/
def State.boundarySource (s : State) (pg : Nat) : Nat :=
  if within pg 0x070 0x072 then 0x20 + (pg - 0x070)
  else if pg == 0x073 || pg == 0x074 then 0x20 + s.get F.Pipe.FRAME_SOURCE 0x073
  else boundaryKind pg

/-- The first page that breaks the one-source or single-mask rule (R76). -/
def State.groupOffender (s : State) (g : Nat) : Option Nat :=
  let ms := s.groupMembers g
  let src := (ms.head?.map s.boundarySource).getD 0
  ms.find? (fun pg => !hasBoundary pg || s.boundarySource pg != src ||
    (List.range 8).any (fun h => h != g && s.groupNames h pg))

/-- A member swaps now: its LAST_BOUNDARY and the group's take the number where one is given (R65, R72, R75). -/
def swapMember (g : Nat) (num : Option Nat) (pg : Nat) (s : State) : State :=
  let s1 := swapSets pg s
  let s2 := match num with
    | some n => (s1.set F.Hdr.LAST_BOUNDARY pg n).setI F.Group.LAST_BOUNDARY pgMode g n
    | none => s1
  let s3 := s2.updGrp g (fun x => { x with toSwap := x.toSwap.filter (· != pg), copying := x.copying ++ [pg] })
  s3.setGstate g 3

/-- The group is done once every member has swapped and copied; a held request then arrives (R77). -/
def groupSettle (g : Nat) (arrive : Option Nat → State → State) (s : State) : State :=
  let x := s.grpOf g
  if s.gstate g = 3 ∧ x.toSwap = [] ∧ x.copying = [] then
    let s1 := (s.setGstate g 0).updGrp g (fun x => { x with tgt := none, carried := none, held := none })
    match x.held with
    | some t => arrive t s1
    | none => s1
  else s

/-- The members whose shadow phase table is invalid each raise their event (R277). -/
def groupInvalid (g : Nat) (s : State) : State :=
  forAll ((s.groupMembers g).filter s.shadowBad) s (fun pg s => portInvalid pg (s.nextBoundary pg) 6 s)

/-- A group request judged against the group's next boundary (R68, R69, R77). -/
def groupArrives (g : Nat) (tgt : Option Nat) (s : State) : State :=
  match s.groupOffender g with
  | some pg => s.raise Ev.regGroupInvalid pgMode (pg + g * 256)
  | none =>
    let ms := s.groupMembers g
    let run := s.runningMembers g
    let n := s.groupNext g
    let pend := fun (c : Option Nat) (s : State) =>
      (s.setGstate g 1).updGrp g (fun x => { x with tgt := tgt, carried := c })
    if run.isEmpty then
      match tgt with
      | none =>
        if ms.any s.shadowBad then groupInvalid g s
        else forAll ms (s.updGrp g (fun x => { x with toSwap := ms, copying := [] })) (swapMember g none)
      | some _ => pend none s
    else match tgt with
      | none =>
        if s.groupLeadPassed g then (pend (some n) s).raise Ev.regCommitLate pgMode (arg64 n (0x100 + g)) else pend none s
      | some t =>
        let d := (t + 65536 - n % 65536) % 65536
        if 32767 < d ∨ (d = 0 ∧ s.groupLeadPassed g) then
          s.raise Ev.regCommitRefused pgMode (arg64 n (t * 65536 + 0x100 + g))
        else pend none s

/-- GROUP_CTRL.REQUEST (R71, R77). -/
def groupRequest (g : Nat) (tgt : Option Nat) (s : State) : State :=
  match s.gstate g with
  | 0 => groupArrives g tgt s
  | 3 => s.updGrp g (fun x => { x with held := some tgt })
  | _ => s

/-- GROUP_CTRL.CANCEL: PENDING returns to IDLE (R70). -/
def groupCancel (g : Nat) (s : State) : State :=
  if s.gstate g = 1 then (s.setGstate g 0).updGrp g (fun x => { x with tgt := none, carried := none }) else s

/-- The group lead point: every member freezes; a stopped member swaps at once (R77). -/
def groupLead (g : Nat) (s : State) : State :=
  let x := s.grpOf g
  let n := s.groupNext g
  let hit : Bool := match x.tgt with
    | some t => t == n % 65536
    | none => x.carried != some n
  if s.gstate g = 1 ∧ s.runningMembers g ≠ [] ∧ hit then
    let ms := s.groupMembers g
    if ms.any s.shadowBad then
      groupInvalid g ((s.setGstate g 0).updGrp g (fun x => { x with tgt := none, carried := none }))
    else
    let s1 := (s.setGstate g 2).updGrp g (fun x => { x with boundary := n, toSwap := ms, copying := [] })
    forAll ms s1 (fun pg s => if s.stopped pg then swapMember g (some n) pg s else s.setCstate pg 2)
  else s

/-- The group whose frozen swap a page still has to make. -/
def State.groupToSwap (s : State) (pg : Nat) : Option Nat :=
  (List.range 8).find? (fun g => (s.grpOf g).toSwap.contains pg)

/-! ### Boundaries of one page -/

/-- The lead point of a page's next boundary (R65). -/
def leadPoint (pg : Nat) (s : State) : State :=
  let b := s.bndOf pg
  if !hasBoundary pg || s.stopped pg || b.leadPassed then s
  else
    let s1 := s.updBnd pg (fun b => { b with leadPassed := true })
    let hit : Bool := match b.tgt with
      | some t => t == b.next % 65536
      | none => true
    if s.cstate pg = 1 ∧ hit then
      if s1.shadowBad pg then
        portInvalid pg b.next 6 (((s1.setCstate pg 0).set F.Hdr.LATE pg 0).updBnd pg (fun b => { b with tgt := none }))
      else s1.setCstate pg 2
    else s1

/-- The reference instant of a page's next boundary: a FROZEN commit swaps; the boundary after it is the next (R65). With
HOLD the function stops there (R58). -/
def referenceInstant (pg : Nat) (s : State) : State :=
  if !hasBoundary pg || s.stopped pg then s
  else
    let n := s.nextBoundary pg
    let s := if s.on F.Hdr.HOLD pg && (s.bndOf pg).heldFrom.isNone then s.updBnd pg (fun b => { b with heldFrom := some n })
      else s
    let s1 := match s.groupToSwap pg with
      | some g => if (s.grpOf g).boundary = n then swapMember g (some n) pg s else s
      | none => if s.cstate pg = 2 then (swapSets pg s).set F.Hdr.LAST_BOUNDARY pg n else s
    s1.updBnd pg (fun b => { b with next := (n + 1) % 2 ^ 32, leadPassed := false })

/-- A running page reaches the reference instant of boundary `n`; its lead point has passed by then. -/
def reachBoundary (pg n : Nat) (s : State) : State :=
  if s.nextBoundary pg = n % 2 ^ 32 ∧ s.stopped pg = false then referenceInstant pg (leadPoint pg s) else s

/-- HOLD keeps the function from boundary `n` on (R58). -/
def State.heldAt (s : State) (pg n : Nat) : Bool :=
  match (s.bndOf pg).heldFrom with
  | some h => decide (0 ≤ folioDiff n h)
  | none => false

/-- The end of copy-back: IDLE; a held request arrives (R67). -/
def copyBackDone (pg : Nat) (s : State) : State :=
  if s.cstate pg = 3 then
    let b := s.bndOf pg
    let s1 := ((copySets pg b.written s).setCstate pg 0).updBnd pg (fun b => { b with written := [], held := none })
    let s2 := match b.held with
      | some t => commitRequest pg t s1
      | none => s1
    match (List.range 8).find? (fun g => (s2.grpOf g).copying.contains pg) with
    | some g => groupSettle g (groupArrives g) (s2.updGrp g (fun x => { x with copying := x.copying.filter (· != pg) }))
    | none => s2
  else s

/-- Every member of a group has stopped while its untargeted commit is PENDING: every member swaps (R72, R77). -/
def groupStopped (g : Nat) (s : State) : State :=
  if s.gstate g = 1 ∧ (s.grpOf g).tgt = none ∧ s.runningMembers g = [] then
    let ms := s.groupMembers g
    let s1 := s.updGrp g (fun x => { x with carried := none })
    if ms.any s.shadowBad then groupInvalid g (s1.setGstate g 0)
    else forAll ms (s1.updGrp g (fun x => { x with toSwap := ms, copying := [] })) (swapMember g none)
  else s

/-- A commit on a stopped function swaps within 16 xclk; a targeted FROZEN one returns to PENDING (R72, R77). -/
def stoppedSwap (pg : Nat) (s : State) : State :=
  if !hasBoundary pg || !s.stopped pg then s
  else match s.groupToSwap pg with
    | some g => swapMember g (some (s.grpOf g).boundary) pg s
    | none =>
      match s.groupOf pg with
      | some g => groupStopped g s
      | none =>
        if s.cstate pg = 1 ∨ s.cstate pg = 2 then
          match (s.bndOf pg).tgt with
          | none => swapSets pg s
          | some _ => s.setCstate pg 1
        else s

/-- A page starts to run with a given next boundary; a targeted group commit that it moves past its target is refused
(R77). -/
def startBoundary (pg n : Nat) (s : State) : State :=
  let s1 := s.updBnd pg (fun b => { b with next := n % 2 ^ 32, leadPassed := false })
  forAll (List.range 8) s1 (fun g s =>
    match (s.grpOf g).tgt with
    | some t =>
      let m := s.groupNext g
      if s.gstate g = 1 ∧ s.groupNames g pg ∧ 32767 < (t + 65536 - m % 65536) % 65536 then
        ((s.setGstate g 0).updGrp g (fun x => { x with tgt := none, carried := none })).raise Ev.regCommitRefused pgMode (arg64 m (t * 65536 + 0x100 + g))
      else s
    | none => s)

/-- A function reset abandons the commit of a page; a member that falls out of a frozen group breaks it (R73, R79). -/
def abandonCommit (pg : Nat) (s : State) : State :=
  let s1 := match s.groupToSwap pg with
    | some g => (s.updGrp g (fun x => { x with toSwap := x.toSwap.filter (· != pg) })).raise Ev.regGroupBroken pgMode
        (pg + g * 256)
    | none => s
  let s2 := forAll (List.range 8) s1 (fun g s => s.updGrp g (fun x => { x with copying := x.copying.filter (· != pg) }))
  let s3 := s2.updBnd pg (fun b => { b with tgt := none, held := none, written := [], leadPassed := false })
  forAll (List.range 8) (s3.setCstate pg 0) (fun g s => groupSettle g (groupArrives g)
    (if s.gstate g = 2 ∧ (s.grpOf g).toSwap = [] then s.setGstate g 3 else s))

/-! ### Meanings -/

/-- GROUP_LEAD_POINT (R77). -/
def execGroupLeadPoint (g : Nat) (s : State) : Out := .next (if g < 8 then groupLead g s else s)

/-- COMMIT_LEAD_POINT (R65). -/
def execCommitLeadPoint (pg : Nat) (s : State) : Out := .next (leadPoint pg s)

/-- COMMIT_SWAP: the reference instant of the page's next boundary, whose lead point has passed (R65). -/
def execCommitSwap (pg : Nat) (s : State) : Out :=
  .next (if hasBoundary pg ∧ s.stopped pg = false ∧ (s.bndOf pg).leadPassed then referenceInstant pg s else s)

/-- STOPPED_COMMIT_SWAP (R72). -/
def execStoppedCommitSwap (pg : Nat) (s : State) : Out := .next (stoppedSwap pg s)

/-- COPY_BACK_DONE (R67). -/
def execCopyBackDone (pg : Nat) (s : State) : Out := .next (copyBackDone pg s)

end Sys2Proof.Machine
end

