-- ==== Sys2Proof/Machine/Access.lean ====
section
/-! DEFINITION. The gate that every register or aperture write passes (R53, R63, R87), bus errors, locks and the event
registers (R52, R80 to R92, R638, R91, R628). -/

namespace Sys2Proof.Machine

/-- What the event argument of a write says of its place: offset and aperture flag (Table 2-8). -/
def placeArg (apt : Bool) (off : Nat) : Nat := off + bit apt * 2 ^ 22

/-- The agent part of an owner identifier (R80). -/
def agentOf (owner : Nat) : Nat := owner / 16 % 16

/-- The owner identifier that a denied write shows: context 0 unless it is a write to LOCK_n (R87). -/
def shownOwner (pg : Nat) (apt : Bool) (off owner : Nat) : Nat :=
  if pg = pgLocks ∧ !apt ∧ 0x40 ≤ off ∧ off < 0x140 then low 8 owner else agentOf owner * 16

/-- The lock that refuses a write to a page by an agent (R87). -/
def State.deniedBy (s : State) (pg owner : Nat) : Option Nat :=
  match s.binding pg with
  | some n => if s.onI F.Lock.HELD pgLocks n && agentOf (s.getI F.Lock.OWNER pgLocks n) == agentOf owner then none else some n
  | none => none

/-- A write to an unlisted page slot (R53). -/
def unmapped (addr : Nat) (wr : Bool) (s : State) : State :=
  s.raise Ev.regUnmappedAccess pgReady (low 32 addr + bit wr * 2 ^ 32)

/-- No access reaches the part: PORST_n is asserted, or it is in Dormant, where nothing that happens latches (R635). -/
def State.silent (s : State) : Bool := s.mode.porst || s.get F.Mode.MODE pgMode == 0

/-- A write passes when its page is listed, not locked out and not bound to a lock of another agent; otherwise it is
dropped with its event (R53, R63, R87). -/
def gate (pg : Nat) (apt : Bool) (off data owner : Nat) (k : State → State) (s : State) : State :=
  if s.silent then s
  else if !present pg then unmapped (if apt then 0x60000000 + pg * 2 ^ 22 + off else 0x40000000 + pg * 0x1000 + off) true s
  else if s.lockedOut pg then s.raise Ev.regWriteLockedOut pg (arg64 data (placeArg apt off))
  else match s.deniedBy pg owner with
    | some n => s.raise Ev.lockWriteDenied pg (off * 2 ^ 42 + bit apt * 2 ^ 41 + shownOwner pg apt off owner * 256 + n)
    | none => k s

/-- A write of one register word with an action of its own, through the gate. -/
def gateReg (pg off data owner : Nat) (k : State → State) (s : State) : State := gate pg false off data owner k s

/-- ACCESS_BUS_ERROR: narrower than 32 bits or not aligned (R52). -/
def execAccessBusError (addr size : Nat) (s : State) : Out :=
  .next (if !s.silent ∧ (size < 4 ∨ addr % 4 ≠ 0) then { s with resp := .busError } else s)

/-- UNMAPPED_ACCESS: a read of an unlisted slot returns zero, a write is ignored (R51, R53). -/
def execUnmappedAccess (addr : Nat) (wr : Bool) (s : State) : Out :=
  .next (if !s.silent ∧ 0x40000000 ≤ addr ∧ addr < 0x40100000 ∧ !present ((addr - 0x40000000) / 0x1000) then
    unmapped addr wr { s with resp := if wr then .none else .data 0 }
  else s)

/-! ### Commits -/

/-- One write of COMMIT: TARGET and TARGET_EN are stored, CANCEL acts before REQUEST (R57, R69, R70). -/
def commitWrite (pg target : Nat) (en cancel req : Bool) (s : State) : State :=
  if hasBoundary pg then
    let s1 := (s.set F.Hdr.COMMIT_TARGET pg target).set F.Hdr.TARGET_EN pg (bit en)
    let s2 := if cancel then commitCancel pg s1 else s1
    if req then commitRequest pg (if en then some (low 16 target) else none) s2 else s2
  else s

/-- The word of a COMMIT or GROUP_CTRL write. -/
def commitWord (target : Nat) (en cancel req : Bool) : Nat := low 16 target * 65536 + bit en * 4 + bit cancel * 2 + bit req

/-- COMMIT_CANCEL (R70): the write keeps TARGET and TARGET_EN. -/
def execCommitCancel (pg owner : Nat) (s : State) : Out :=
  let t := s.get F.Hdr.COMMIT_TARGET pg
  let en := s.on F.Hdr.TARGET_EN pg
  .next (gateReg pg 0xC (commitWord t en true false) owner (commitWrite pg t en true false) s)

/-- One write of GROUP_CTRL (R70, R77). -/
def groupWrite (g target : Nat) (en cancel req : Bool) (s : State) : State :=
  let s1 := (s.setI F.Group.GROUP_CTRL_TARGET pgMode g target).setI F.Group.TARGET_EN pgMode g (bit en)
  let s2 := if cancel then groupCancel g s1 else s1
  if req then groupRequest g (if en then some (low 16 target) else none) s2 else s2

/-- GROUP_REQUEST (R77). -/
def execGroupRequest (g target : Nat) (en cancel : Bool) (owner : Nat) (s : State) : Out :=
  .next (if g < 8 then
    gateReg pgMode (0x420 + 0x40 * g) (commitWord target en cancel true) owner (groupWrite g target en cancel true) s
  else s)

/-- GROUP_CANCEL (R70): the write keeps TARGET and TARGET_EN. -/
def execGroupCancel (g owner : Nat) (s : State) : Out :=
  let t := s.getI F.Group.GROUP_CTRL_TARGET pgMode g
  let en := s.onI F.Group.TARGET_EN pgMode g
  .next (if g < 8 then
    gateReg pgMode (0x420 + 0x40 * g) (commitWord t en true false) owner (groupWrite g t en true false) s
  else s)

/-! ### Locks -/

/-- The offset of LOCK_n (R81). -/
def lockOff (n : Nat) : Nat := 0x40 + 4 * n

/-- The owner holds lock n. -/
def State.holds (s : State) (n owner : Nat) : Bool :=
  s.onI F.Lock.HELD pgLocks n && s.getI F.Lock.OWNER pgLocks n == owner

/-- LOCK.RELEASE_DENIED (R86). -/
def releaseDenied (n owner : Nat) (s : State) : State := s.raise Ev.lockReleaseDenied pgLocks (low 8 owner * 256 + n)

/-- Lock n was acquired in this cycle by an owner with a higher identifier (R83). -/
def State.outbids (s : State) (n owner : Nat) : Bool :=
  s.stampedNow (lockKey n) && decide (owner < s.getI F.Lock.OWNER pgLocks n)

/-- ACQUIRE (R82); of ACQUIREs that reach a free lock in one cycle, the lowest owner identifier's stands (R83). -/
def lockAcquire (n owner : Nat) (s : State) : State :=
  if s.onI F.Lock.HELD pgLocks n && !s.outbids n owner then s
  else ((s.setI F.Lock.HELD pgLocks n 1).setI F.Lock.OWNER pgLocks n owner).stamp (lockKey n) s.now

/-- RELEASE (R86). -/
def lockRelease (n owner : Nat) (s : State) : State :=
  if s.holds n owner then (s.setI F.Lock.HELD pgLocks n 0).setI F.Lock.OWNER pgLocks n 0 else releaseDenied n owner s

/-- CLEAR_BROKEN (R85, R86). -/
def lockClearBroken (n owner : Nat) (s : State) : State :=
  if s.holds n owner then s.setI F.Lock.BROKEN pgLocks n 0 else releaseDenied n owner s

/-- Every lock that an agent holds is released and broken (R84). -/
def breakLocks (agent : Nat) (s : State) : State :=
  forAll (List.range 64) s (fun n s =>
    let o := s.getI F.Lock.OWNER pgLocks n
    if s.onI F.Lock.HELD pgLocks n && agentOf o == agent then
      (((s.setI F.Lock.HELD pgLocks n 0).setI F.Lock.OWNER pgLocks n 0).setI F.Lock.BROKEN pgLocks n 1).raise
        Ev.lockBroken pgLocks (o * 256 + n)
    else s)

/-- LOCK_ACQUIRE (R82, R83). -/
def execLockAcquire (n owner : Nat) (s : State) : Out :=
  .next (if n < 64 then gateReg pgLocks (lockOff n) (owner % 16 * 16 + 1) owner (lockAcquire n (low 8 owner)) s else s)

/-- LOCK_RELEASE (R86). -/
def execLockRelease (n owner : Nat) (s : State) : Out :=
  .next (if n < 64 then gateReg pgLocks (lockOff n) (owner % 16 * 16 + 2) owner (lockRelease n (low 8 owner)) s else s)

/-- LOCK_CLEAR_BROKEN (R85). -/
def execLockClearBroken (n owner : Nat) (s : State) : Out :=
  .next (if n < 64 then gateReg pgLocks (lockOff n) (owner % 16 * 16 + 4) owner (lockClearBroken n (low 8 owner)) s else s)

/-! ### Event registers and the pool -/

/-- The value that a W1C field has after a write of `data`: a 1 clears its bit, unless the bit set in this cycle (R13, R14). -/
def State.cleared (s : State) (f : Fld) (pg data v : Nat) : Nat :=
  (List.range f.w).foldl (fun v i => if bitAt data i && !s.stampedNow (setKey f pg i) then clearBit v i else v) v

/-- The bits of EVENT_STATUS that a word clears. -/
def eventClear (pg data : Nat) (s : State) : State :=
  s.set F.Hdr.EVENT_STATUS pg (s.cleared F.Hdr.EVENT_STATUS pg data (s.get F.Hdr.EVENT_STATUS pg))

/-- Each 1 raises the event of its bit with an argument of all ones (R91). DESIGN CHOICE: a 1 for a bit that names no event
of the page sets the status bit and writes no record, since the spec gives no code for it (log 17). -/
def eventForce (pg data : Nat) (s : State) : State :=
  forAll (List.range 32) s (fun i s =>
    if bitAt data i then
      match (pageEvents pg).find? (fun e => e.bit == i) with
      | some e => s.raiseX e pg (2 ^ 64 - 1) 0 e.sev true
      | none => (s.set F.Hdr.EVENT_STATUS pg (setBit (s.get F.Hdr.EVENT_STATUS pg) i)).stamp
          (setKey F.Hdr.EVENT_STATUS pg i) s.now
    else s)

/-- EVENT_STATUS_CLEAR: a 1 clears its bit (R14); a lock-out or a binding never refuses it (R63, R87). -/
def execEventStatusClear (pg mask : Nat) (s : State) : Out :=
  .next (if present pg ∧ !s.silent then eventClear pg mask s else s)

/-- EVENT_FORCE (R91). -/
def execEventForce (pg mask : Nat) (s : State) : Out := .next (if present pg ∧ !s.silent then eventForce pg mask s else s)

/-- POOL_DRAIN (R628). -/
def execPoolDrain (s : State) : Out := .next (drainPool s.pool s)

/-- The page interrupt: a level on router input EVENT_ROUTE.LINE (R90). -/
def State.pageInterrupt (s : State) (pg : Nat) : Bool :=
  s.on F.Hdr.ROUTE_EN pg && (s.get F.Hdr.EVENT_STATUS pg &&& s.get F.Hdr.EVENT_ENABLE pg) != 0

end Sys2Proof.Machine
end

