-- ==== Sys2Proof/Machine/JournalBase.lean ====
section
/-! DEFINITION. The configuration journal as other blocks use it: records, the latest objects, and requests (R563, R564,
R567). -/

namespace Sys2Proof.Machine

def pgSto : Nat := 0x0B3
def State.updJrn (s : State) (f : JournalX → JournalX) : State := { s with jrn := f s.jrn }

/-- Record slots of an area. -/
def areaSlots : Nat := 12288

/-- A record as its 256 bytes (Table 17-7). -/
def JRec.bytes (r : JRec) : List Byte :=
  let body := leBytes 4 0x4B4A524E ++ leBytes 4 r.seq ++ leBytes 1 r.type ++ leBytes 1 (bit r.last) ++ leBytes 2 r.key ++
    leBytes 4 r.frag ++ leBytes 2 r.data.length ++ leBytes 2 0 ++ r.data ++ List.replicate (232 - r.data.length) 0
  body ++ leBytes 4 (crc32 body)

/-- Payload of fragment `k` of an object. -/
def JObj.part (o : JObj) (k : Nat) : List Byte := (o.data.drop (232 * k)).take 232

/-- Records of an object. -/
def JObj.count (o : JObj) : Nat := max 1 ((o.data.length + 231) / 232)

/-- Record `k` of an object at a sequence number. -/
def JObj.record (o : JObj) (seq k : Nat) : JRec := ⟨seq, o.type, o.key, k, k + 1 == o.count, o.part k⟩

/-- The good records of an area, each with a SEQ above that of the last accepted one (R567). -/
def accepted : Option Nat → List JSlot → List JRec
  | _, [] => []
  | q, .torn _ :: rest => accepted q rest
  | none, .good r :: rest => r :: accepted (some r.seq) rest
  | some q, .good r :: rest => if q < r.seq then r :: accepted (some r.seq) rest else accepted (some q) rest

/-- What a scan holds: complete objects, latest first, and the object in progress with the SEQ and FRAG of its last record. -/
structure Scan where
  done : List JObj := []
  open_ : Option (JObj × Nat × Nat) := none
  deriving DecidableEq, Repr

/-- One accepted record (R563). -/
def Scan.take (c : Scan) (r : JRec) : Scan :=
  let o : Option JObj := match c.open_ with
    | some (o, q, f) =>
      if r.frag = f + 1 ∧ r.seq = q + 1 ∧ r.type = o.type ∧ r.key = o.key then some { o with data := o.data ++ r.data }
      else if r.frag = 0 then some ⟨r.type, r.key, r.data⟩ else none
    | none => if r.frag = 0 then some ⟨r.type, r.key, r.data⟩ else none
  match o with
  | some o =>
    if r.last then { done := o :: c.done.filter (fun p => !(p.type == o.type && p.key == o.key)), open_ := none }
    else { c with open_ := some (o, r.seq, r.frag) }
  | none => { c with open_ := none }

/-- The latest complete object of every TYPE and KEY in an area. -/
def latest (area : List JSlot) : List JObj := ((accepted none area).foldl Scan.take {}).done

/-- The generation of an area that can be active (R567): one that has been compacted holds COMPACT_DONE. -/
def areaGen (l : List JSlot) : Option Nat :=
  match accepted none l with
  | [] => some 0
  | r :: rest =>
    if r.type = 0x0E then (if rest.any (fun q => q.type == 0x0D) then some (leNat r.data) else none) else some 0

/-- Area B is the active one. -/
def JournalX.useB (j : JournalX) : Bool :=
  match areaGen j.a, areaGen j.b with
  | some x, some y => decide (0 < sext 32 (y + 2 ^ 32 - x))
  | none, some _ => true
  | _, none => false

/-- The active area. -/
def State.area (s : State) : List JSlot := if s.on F.Nor.ACTIVE_AREA pgSto then s.jrn.b else s.jrn.a
def setArea (l : List JSlot) (s : State) : State :=
  if s.on F.Nor.ACTIVE_AREA pgSto then s.updJrn (fun j => { j with b := l }) else s.updJrn (fun j => { j with a := l })

/-- The area that the journal's contents make the active one, whether or not page 0x0B3 is READY (R111, R567). -/
def State.restoreArea (s : State) : List JSlot := if s.jrn.useB then s.jrn.b else s.jrn.a

/-- The latest complete object of a TYPE and KEY. -/
def State.stored (s : State) (type key : Nat) : Option (List Byte) :=
  ((latest s.restoreArea).find? (fun o => o.type == type && o.key == key)).map (·.data)

/-- The SEQ of the last record of a TYPE and KEY that fails its check. DESIGN CHOICE: only such a record is one that R112 means;
an object that is incomplete is ignored, as R567 says, and none is restored (log 118). -/
def State.tornRecord (s : State) (type key : Nat) : Option Nat :=
  s.restoreArea.foldl (fun a x => match x with
    | .good _ => a
    | .torn r => if r.type = type ∧ r.key = key then some r.seq else a) none

/-- FREE_SLOTS of the active area. -/
def State.freeSlots (s : State) : Nat := areaSlots - s.area.length

/-- The journal takes requests (R566). -/
def State.journalOpen (s : State) : Bool := s.ready pgSto && s.jrn.closing.isNone && !s.jrn.closed

/-- The next record of the object in progress begins to program; between objects the next one is taken, after compaction
where it does not fit (R564). -/
def journalNext (s : State) : State :=
  let j := s.jrn
  if !s.journalOpen || j.prog.isSome || j.erasing then s
  else match j.cur with
    | some (o, k) => s.updJrn (fun j => { j with prog := some (o.record (s.get F.Nor.LAST_SEQ pgSto + 1) k) })
    | none =>
      match j.queue with
      | [] => s
      | o :: rest =>
        if s.freeSlots < o.count + 10 then s.updJrn (fun j =>
          if s.on F.Nor.ACTIVE_AREA pgSto then { j with erasing := true, a := [] } else { j with erasing := true, b := [] })
        else
          s.updJrn (fun j => { j with
            queue := rest, cur := some (o, 0), prog := some (o.record (s.get F.Nor.LAST_SEQ pgSto + 1) 0) })

/-- An object is to be written. -/
def journalAsk (o : JObj) (s : State) : State := journalNext (s.updJrn (fun j => { j with queue := j.queue ++ [o] }))

/-- An object that is no longer wanted: what of it has not begun to program is not written. -/
def journalDrop (type key : Nat) (s : State) : State :=
  let other := fun (o : JObj) => !(o.type == type && o.key == key)
  journalNext (s.updJrn (fun j => { j with
    queue := j.queue.filter other
    cur := j.cur.filter (fun c => other c.1) }))

end Sys2Proof.Machine
end

