-- ==== Sys2Proof/Machine/Deflate.lean ====
section
/-! DEFINITION. The inflate engine's decoder: DEFLATE of RFC 1951 with the framings of Table 4-5 and the stream-error reasons
of Table 4-6 (R154 to R158). -/

namespace Sys2Proof.Machine

/-- A block of a stream as decoded: its type, and where it begins and ends in the output and in the input bits. -/
structure Blk where
  type : Nat
  n0 : Nat
  n1 : Nat
  b0 : Nat
  b1 : Nat
  deriving DecidableEq, Repr

/-- The decoder: input bits not consumed, bits consumed since the item's first byte, output (newest first) and its length,
the output count that history may not reach behind, the original length, and the byte at which the input is poisoned; the
blocks and the matches (output position, length, distance) decoded so far, newest first. -/
structure Dec where
  inp : List Bool
  pos : Nat
  out : List Byte
  n : Nat
  hist : Nat
  orig : Nat
  poison : Option Nat
  blks : List Blk := []
  refs : List (Nat × Nat × Nat) := []
  deriving DecidableEq, Repr

/-- A decoding step: it ends with a value or with a reason of Table 4-6, and keeps the decoder either way. -/
abbrev DecM (α : Type) := EStateM Nat Dec α

/-- One input bit. -/
def getBit : DecM Bool := fun d =>
  match d.inp with
  | [] => .error 0x08 d
  | b :: bs =>
    if (match d.poison with
      | some p => decide (p * 8 ≤ d.pos)
      | none => false) then .error 0x0A d
    else .ok b { d with inp := bs, pos := d.pos + 1 }

/-- `k` input bits, least significant first. -/
def getBits : Nat → DecM Nat
  | 0 => pure 0
  | k + 1 => do
    let b ← getBit
    let r ← getBits k
    pure (bit01 b + 2 * r)
where
  /-- A bit as a number. -/
  bit01 (b : Bool) : Nat := if b then 1 else 0

/-- Input up to the next byte boundary. -/
def align : DecM Unit := do
  let d ← get
  discard (getBits ((8 - d.pos % 8) % 8))

/-- One output byte; more than the original length is reason 0x07. -/
def emit (b : Byte) : DecM Unit := fun d =>
  if d.orig ≤ d.n then .error 0x07 d else .ok () { d with out := b :: d.out, n := d.n + 1 }

/-- A prefix code: number of codes of each length 1 to 15, and the symbols in code order. -/
structure Huff where
  counts : List Nat
  syms : List Nat
  deriving DecidableEq, Repr

/-- The code of a list of lengths. -/
def mkHuff (lens : List Nat) : Huff where
  counts := (List.range 15).map (fun i => (lens.filter (· == i + 1)).length)
  syms := (List.range 15).flatMap (fun i => (List.range lens.length).filter (fun s => lens.getD s 0 == i + 1))

/-- Codes left over: negative when over-subscribed, positive when incomplete. -/
def Huff.left (h : Huff) : Int := h.counts.foldl (fun (l : Int) (c : Nat) => l * 2 - (c : Int)) 1

/-- The code prefixes of one length that the codes of the greater lengths take up. -/
def prefixes : List Nat → Nat
  | [] => 0
  | c :: cs => (c + prefixes cs + 1) / 2

/-- One symbol; a bit pattern without a symbol ends with `bad`, at the first bit at which no code is left. -/
def getSym (syms : List Nat) (bad : Nat) : List Nat → Nat → Nat → Nat → DecM Nat
  | [], _, _, _ => throw bad
  | c :: cs, code, first, index => do
    let b ← getBit
    let code := code * 2 + getBits.bit01 b
    if code < first + c then
      pure (syms.getD (index + (code - first)) 0)
    else if first + c + prefixes cs ≤ code then throw bad
    else getSym syms bad cs code ((first + c) * 2) (index + c)

/-- One symbol of a code. -/
def Huff.get (h : Huff) (bad : Nat) : DecM Nat := getSym h.syms bad h.counts 0 0 0

/-- Base and extra bits of length symbols 257 to 285. -/
def lenTab : List (Nat × Nat) :=
  [(3, 0), (4, 0), (5, 0), (6, 0), (7, 0), (8, 0), (9, 0), (10, 0), (11, 1), (13, 1), (15, 1), (17, 1), (19, 2), (23, 2),
   (27, 2), (31, 2), (35, 3), (43, 3), (51, 3), (59, 3), (67, 4), (83, 4), (99, 4), (115, 4), (131, 5), (163, 5), (195, 5),
   (227, 5), (258, 0)]

/-- Base and extra bits of distance symbols 0 to 29. -/
def distTab : List (Nat × Nat) :=
  [(1, 0), (2, 0), (3, 0), (4, 0), (5, 1), (7, 1), (9, 2), (13, 2), (17, 3), (25, 3), (33, 4), (49, 4), (65, 5), (97, 5),
   (129, 6), (193, 6), (257, 7), (385, 7), (513, 8), (769, 8), (1025, 9), (1537, 9), (2049, 10), (3073, 10), (4097, 11),
   (6145, 11), (8193, 12), (12289, 12), (16385, 13), (24577, 13)]

/-- A back-reference of `k` bytes at a distance. -/
def copyBack (dist : Nat) : Nat → DecM Unit
  | 0 => pure ()
  | k + 1 => do
    let d ← get
    emit (d.out.getD (dist - 1) 0)
    copyBack dist k

/-- The symbols of a block up to its end symbol. -/
def getCodes (lit dist : Huff) : Nat → DecM Unit
  | 0 => throw 0x08
  | fuel + 1 => do
    let sym ← lit.get 0x05
    if sym < 256 then
      emit (BitVec.ofNat 8 sym)
      getCodes lit dist fuel
    else if sym = 256 then pure ()
    else if 285 < sym ∨ dist.syms = [] then throw 0x05
    else
      let l := lenTab.getD (sym - 257) (0, 0)
      let le ← getBits l.2
      let ds ← dist.get 0x05
      if 29 < ds then throw 0x05
      let t := distTab.getD ds (0, 0)
      let de ← getBits t.2
      let d ← get
      if d.n - d.hist < t.1 + de then throw 0x06
      set { d with refs := (d.n, l.1 + le, t.1 + de) :: d.refs }
      copyBack (t.1 + de) (l.1 + le)
      getCodes lit dist fuel

/-- The lengths of the fixed codes. -/
def fixedLit : List Nat :=
  List.replicate 144 8 ++ List.replicate 112 9 ++ List.replicate 24 7 ++ List.replicate 8 8

/-- The order of the code-length code's lengths. -/
def clOrder : List Nat := [16, 17, 18, 0, 8, 7, 9, 6, 10, 5, 11, 4, 12, 3, 13, 2, 14, 1, 15]

/-- `k` code lengths of 3 bits each. -/
def getCl : Nat → DecM (List Nat)
  | 0 => pure []
  | k + 1 => do
    let v ← getBits 3
    let r ← getCl k
    pure (v :: r)

/-- Code lengths up to `total`, newest first. -/
def getLens (cl : Huff) (total : Nat) : Nat → List Nat → DecM (List Nat)
  | 0, acc => pure acc
  | fuel + 1, acc =>
    if total ≤ acc.length then pure acc
    else do
      let s ← cl.get 0x04
      if s < 16 then getLens cl total fuel (s :: acc)
      else
        let (base, extra) := if s = 16 then (3, 2) else if s = 17 then (3, 3) else (11, 7)
        let x ← getBits extra
        let v := if s = 16 then acc.headD 0 else 0
        if (s = 16 ∧ acc = []) ∨ total < acc.length + base + x then throw 0x04
        getLens cl total fuel (List.replicate (base + x) v ++ acc)

/-- The codes of a dynamic block. An invalid set is found when the block header has been read, save one without which it cannot be
read on: that of the code lengths (reason 0x04). -/
def getDynamic : DecM (Huff × Huff) := do
  let hlit ← getBits 5
  let hdist ← getBits 5
  let hclen ← getBits 4
  let cls ← getCl (hclen + 4)
  let cl := mkHuff ((List.range 19).map (fun s => ((clOrder.zip cls).lookup s).getD 0))
  if cl.left ≠ 0 then throw 0x04
  let lens ← getLens cl (hlit + 257 + hdist + 1) 400 []
  let lens := lens.reverse
  let lit := mkHuff (lens.take (hlit + 257))
  let dist := mkHuff (lens.drop (hlit + 257))
  if 29 < hlit ∨ 29 < hdist ∨ lens.getD 256 0 = 0 ∨ lit.left ≠ 0 ∨ (dist.left ≠ 0 ∧ 1 < dist.syms.length) ∨ dist.left < 0 then throw 0x04
  pure (lit, dist)

/-- `k` bytes of a stored block. -/
def getStored : Nat → DecM Unit
  | 0 => pure ()
  | k + 1 => do
    let v ← getBits 8
    emit (BitVec.ofNat 8 v)
    getStored k

/-- One block; the answer tells whether it was the final one. -/
def getBlock : DecM Bool := do
  let d0 ← get
  let fin ← getBit
  let ty ← getBits 2
  let d ← get
  match ty with
  | 0 =>
    align
    let len ← getBits 16
    let nlen ← getBits 16
    if len + nlen ≠ 65535 then throw 0x03
    getStored len
  | 1 => getCodes (mkHuff fixedLit) (mkHuff (List.replicate 32 5)) (d.inp.length + 1)
  | 2 =>
    let c ← getDynamic
    getCodes c.1 c.2 (d.inp.length + 1)
  | _ => throw 0x02
  modify (fun e => { e with blks := ⟨ty, d0.n, e.n, d0.pos, e.pos⟩ :: e.blks })
  pure fin

/-- The restart marker comes next: an empty non-final stored block (R156). -/
def Dec.atMarker (d : Dec) : Bool :=
  let pad := (8 - (d.pos + 3) % 8) % 8
  d.inp.take 3 == [false, false, false] &&
    ((d.inp.drop (3 + pad)).take 32) == List.replicate 16 false ++ List.replicate 16 true

/-- Blocks up to the restart marker at the end of a slice, or to the end of the stream. `stop` is the output count at the
slice's end, none for an unsliced item. The answer tells whether the stream has ended. -/
def getBlocks (stop : Option Nat) : Nat → DecM Bool
  | 0 => pure false
  | fuel + 1 => do
    let fin ← getBlock
    if fin then pure true
    else
      let d ← get
      match stop with
      | none => getBlocks none fuel
      | some e =>
        if d.n < e then getBlocks stop fuel
        else if d.n = e ∧ d.atMarker then
          discard getBlock
          pure false
        else getBlocks none fuel

/-- The header of a zlib stream (RFC 1950, Table 4-5). -/
def getZlibHead : DecM Unit := do
  let cmf ← getBits 8
  if cmf % 16 ≠ 8 ∨ 7 < cmf / 16 then throw 0x01
  let flg ← getBits 8
  if (cmf * 256 + flg) % 31 ≠ 0 ∨ flg / 32 % 2 = 1 then throw 0x01

/-- Bytes up to and with a zero byte. -/
def skipName : Nat → DecM Unit
  | 0 => pure ()
  | fuel + 1 => do
    let b ← getBits 8
    if b = 0 then pure () else skipName fuel

/-- `k` bytes passed over. -/
def skipBytes : Nat → DecM Unit
  | 0 => pure ()
  | k + 1 => do
    discard (getBits 8)
    skipBytes k

/-- The header of a gzip member (RFC 1952, Table 4-5); `src` is the item's data, for the header CRC. -/
def getGzipHead (src : List Byte) : DecM Unit := do
  let id1 ← getBits 8
  if id1 ≠ 0x1F then throw 0x01
  let id2 ← getBits 8
  if id2 ≠ 0x8B then throw 0x01
  let cm ← getBits 8
  if cm ≠ 8 then throw 0x01
  let flg ← getBits 8
  if 32 ≤ flg then throw 0x01
  skipBytes 6
  if flg / 4 % 2 = 1 then
    let x ← getBits 16
    skipBytes x
  if flg / 8 % 2 = 1 then skipName src.length
  if flg / 16 % 2 = 1 then skipName src.length
  if flg / 2 % 2 = 1 then
    let d ← get
    let c ← getBits 16
    if c ≠ crc32 (src.take (d.pos / 8)) % 65536 then throw 0x01

/-- A big-endian number of `k` bytes. -/
def getBe : Nat → Nat → DecM Nat
  | 0, v => pure v
  | k + 1, v => do
    let b ← getBits 8
    getBe k (v * 256 + b)

/-- The end of the stream: short output is 0x09; the trailer follows the final block. The answer tells whether the zlib or
gzip check failed. -/
def getTrailer (coding : Nat) : DecM Bool := do
  let d ← get
  if d.n < d.orig then throw 0x09
  match coding with
  | 1 =>
    align
    let a ← getBe 4 0
    pure (a != adler32 d.out.reverse)
  | 2 =>
    align
    let c ← getBits 32
    let n ← getBits 32
    let e ← get
    if n ≠ d.n % 2 ^ 32 ∨ e.inp ≠ [] then throw 0x01
    pure (c != crc32 d.out.reverse)
  | _ => pure false

/-- What one dispatch of an item gives: its output so far (oldest first), the byte offset of the restart, end of stream,
missing marker, failed framing check, and the reason of Table 4-6 (0: none). -/
structure DecOut where
  out : List Byte
  off : Nat
  fin : Bool
  miss : Bool
  frameBad : Bool
  reason : Nat
  deriving DecidableEq, Repr

/-- One slice, or the rest of an unsliced item, decoded from byte offset `off`. -/
def decodeSlice (src : List Byte) (coding orig : Nat) (stop : Option Nat) (off hist : Nat) (out : List Byte)
    (poison : Option Nat) : DecOut :=
  let d0 : Dec := ⟨bytesBits (src.drop off), off * 8, out.reverse, out.length, hist, orig, poison, [], []⟩
  let go : DecM (Bool × Bool) := do
    if off = 0 then
      match coding with
      | 1 => getZlibHead
      | 2 => getGzipHead src
      | _ => pure ()
    let d ← get
    let fin ← getBlocks stop (d.inp.length + 1)
    if fin then
      let bad ← getTrailer coding
      pure (true, bad)
    else pure (false, false)
  let beyond : Dec → Bool := fun d => match stop with
    | some e => decide (e ≤ d.n)
    | none => false
  match go.run d0 with
  | .ok r d => ⟨d.out.reverse, d.pos / 8, r.1, r.1 && beyond d, r.2, 0⟩
  | .error e d => ⟨d.out.reverse, d.pos / 8, true, beyond d, false, e⟩

/-- A whole stream of unknown original length, as a repack job reads it (R163). -/
def decodeWhole (src : List Byte) (coding : Nat) : DecOut :=
  let d0 : Dec := ⟨bytesBits src, 0, [], 0, 0, 2 ^ 64, none, [], []⟩
  let go : DecM Bool := do
    match coding with
    | 1 => getZlibHead
    | 2 => getGzipHead src
    | _ => pure ()
    let d ← get
    discard (getBlocks none (d.inp.length + 1))
    modify (fun d => { d with orig := d.n })
    getTrailer coding
  match go.run d0 with
  | .ok bad d => ⟨d.out.reverse, d.pos / 8, true, false, bad, 0⟩
  | .error e d => ⟨d.out.reverse, d.pos / 8, true, false, false, e⟩

end Sys2Proof.Machine
end

