-- ==== Sys2Proof/Machine/Container.lean ====
section
/-! DEFINITION. The Folio container: ranges of bytes, the folio header, the directory, the tests of its entries and of tiles
and rectangle lists (R135 to R141, R174, R175, R177, R180, R185, R191, R192). -/

namespace Sys2Proof.Machine

/-! ### Ranges of bytes, as pairs (first, past the last) -/

/-- A range less another. -/
def cutOne (a b : Nat) (x : Nat × Nat) : List (Nat × Nat) :=
  if b ≤ x.1 ∨ x.2 ≤ a then [x]
  else (if x.1 < a then [(x.1, a)] else []) ++ (if b < x.2 then [(b, x.2)] else [])

/-- Ranges less others. -/
def cutAll (xs cuts : List (Nat × Nat)) : List (Nat × Nat) := cuts.foldl (fun l c => l.flatMap (cutOne c.1 c.2)) xs

/-- Bytes in ranges. -/
def rangesLen (xs : List (Nat × Nat)) : Nat := xs.foldl (fun n x => n + (x.2 - x.1)) 0

/-- Every byte from `a` up to `b` lies in the ranges. -/
def covers (xs : List (Nat × Nat)) (a b : Nat) : Bool := (cutAll [(a, b)] xs).all (fun x => decide (x.2 ≤ x.1))

/-- Bytes of pieces (offset, bytes) that lie at `lo` to `lo + n - 1`; a byte that no piece has is 0. -/
def rawBytes (raw : List (Nat × List Byte)) (lo n : Nat) : List Byte :=
  (List.range n).map (fun i =>
    match raw.find? (fun r => decide (r.1 ≤ lo + i) && decide (lo + i < r.1 + r.2.length)) with
    | some r => r.2.getD (lo + i - r.1) 0
    | none => 0)

/-- A number of `n` bytes of a byte string, from byte `i`. -/
def field (bs : List Byte) (i n : Nat) : Nat := leNat ((bs.drop i).take n)

/-! ### Folio header -/

/-- The fields of a header that a folio keeps (Table 4-2). -/
def parseHdr (b : List Byte) : Hdr := ⟨field b 16 4, field b 20 4, field b 14 2, field b 24 1, field b 28 8, field b 36 4⟩

/-- The cache flags of a folio (Table 4-2). -/
def Hdr.store (h : Hdr) : Bool := bitAt h.flags 0
def Hdr.replay (h : Hdr) : Bool := bitAt h.flags 1
def Hdr.same (h : Hdr) : Bool := bitAt h.flags 2

/-- The end of header and directory. -/
def Hdr.dirEnd (h : Hdr) : Nat := 64 + 48 * h.count

/-- The flag combination is one of Table 4-4; `prev` is the previous folio's CACHE_ID where it is known. -/
def flagsOk (h : Hdr) (prev : Option Nat) : Bool :=
  match h.flags with
  | 0 => true
  | 1 => true
  | 2 => true
  | 6 => prev == some h.cacheId && h.count == 0
  | _ => false

/-- The reason of Table 4-9 for which a header is not accepted, 0 for none (R139). DESIGN CHOICE: SAME_AS_PREV names the
CACHE_ID of the folio before; while no header of that folio is accepted the condition is not met and the header is malformed,
reason 5 (log 121). -/
def State.hdrReason (s : State) (n : Nat) (b : List Byte) : Nat :=
  let h := parseHdr b
  let prev := (s.folio (prevFolio n)).bind (fun f => f.hdr.map (·.cacheId))
  let valid := s.onI F.Ing.CACHE_ENTRY_VALID pgIng h.cacheId
  if crc32 (b.take 60) ≠ field b 60 4 then 1
  else if field b 0 4 ≠ 0x4B464F4C ∨ field b 4 2 ≠ 0x0100 ∨ field b 6 2 ≠ 64 then 2
  else if field b 12 2 ≠ s.get F.Ing.SEGMENT_ID pgIng ∨ field b 25 1 ≠ s.get F.Ing.GRID pgIng then 3
  else if h.lines = 0 ∨ 16777216 < h.lines ∨ 16384 < h.count ∨ 2 ^ 34 < h.len ∨ h.len < h.dirEnd then 4
  else if !flagsOk h prev then 5
  else if (h.store && valid) || (h.replay && (!valid || s.onI F.Ing.EVICT_PENDING pgIng h.cacheId)) then 6
  else if h.replay && (tget s.ing.cache h.cacheId {}).lines != h.lines then 7
  else 0

/-! ### Directory entries -/

/-- One entry of Table 4-3. -/
def parseEntry (b : List Byte) (ix : Nat) : Entry where
  ix := ix
  type := field b 0 1
  port := field b 1 1
  coding := field b 2 1
  format := field b 3 1
  firstLine := field b 4 4
  lineCount := field b 8 4
  xOff := field b 12 2
  width := field b 14 2
  dataOff := field b 16 8
  compLen := field b 24 4
  origCrc := field b 28 4
  compCrc := field b 32 4
  ext := ((b.drop 36).take 12).map (·.toNat)
  bad := 0

/-- FORMAT.ELEMENT and SLICE_LINES (Table 4-3). -/
def Entry.element (e : Entry) : Nat := bits e.format 0 2
def Entry.slice (e : Entry) : Nat := bits e.format 2 3

/-- The fields of a tile (Table 5-2). -/
def Entry.layer (e : Entry) : Nat := if e.type = 1 then bits (e.ext.getD 0 0) 0 2 else 0
def Entry.keyMask (e : Entry) : Nat := bits (e.ext.getD 0 0) 4 4
def Entry.scaler (e : Entry) : Nat := bits (e.ext.getD 1 0) 2 1
def Entry.channels (e : Entry) : Nat := bits (e.ext.getD 1 0) 0 2 + 1
def Entry.srcWidth (e : Entry) : Nat := e.ext.getD 2 0 + 256 * e.ext.getD 3 0
def Entry.srcLines (e : Entry) : Nat := e.ext.getD 4 0 + 256 * e.ext.getD 5 0
def Entry.hUp (e : Entry) : Bool := bitAt (e.ext.getD 6 0) 4
def Entry.hN (e : Entry) : Nat := bits (e.ext.getD 6 0) 0 4 + 1
def Entry.vUp (e : Entry) : Bool := bitAt (e.ext.getD 7 0) 4
def Entry.vN (e : Entry) : Nat := bits (e.ext.getD 7 0) 0 4 + 1
def Entry.keyOf (e : Entry) (c : Nat) : Nat := e.ext.getD (8 + c) 0

/-- RECT_COUNT of a rectangle list (Table 5-5). -/
def Entry.rectCount (e : Entry) : Nat := e.ext.getD 0 0 + 256 * e.ext.getD 1 0

/-- Bytes of one line of original data (R138, R175). -/
def Entry.lineBytes (e : Entry) : Nat :=
  match e.type with
  | 0 => if e.element = 0 then e.width else (3 * e.width + 7) / 8
  | 1 => e.srcWidth * e.channels
  | _ => 16

/-- Lines of original data. -/
def Entry.origLines (e : Entry) : Nat :=
  match e.type with
  | 0 => e.lineCount
  | 1 => e.srcLines
  | _ => e.rectCount

/-- Length of the original data (R138, R175, R191). -/
def Entry.origLen (e : Entry) : Nat := e.lineBytes * e.origLines

/-- The keys of two strips agree (R141). -/
def Entry.sameKey (a b : Entry) : Bool :=
  a.port == b.port && a.firstLine == b.firstLine && a.lineCount == b.lineCount && a.xOff == b.xOff && a.width == b.width &&
    a.format == b.format

/-- Two ranges of whole numbers, each by first and length, have a number in common. -/
def overlap (a n b m : Nat) : Bool := decide (a < b + m) && decide (b < a + n)

/-- The position in the list of R141 of the first condition that makes an entry invalid, 0 for none. `all` is the directory,
`cached` the strips of the replayed cache entry where the folio has CACHE_REPLAY. -/
def entryReason (h : Hdr) (all : List Entry) (cached : Option (List Entry)) (e : Entry) : Nat :=
  if 2 < e.type ∨ 3 < e.coding ∨ 1 < e.element ∨ 4 < e.slice ∨ 32 ≤ e.format then 1
  else if Config.ports ≤ e.port then 2
  else if h.lines < e.firstLine + e.lineCount then 3
  else if 4096 < e.xOff + e.width then 4
  else if e.dataOff % 4 ≠ 0 ∨ h.len < e.dataOff + e.compLen ∨ e.dataOff < h.dirEnd ∨
      all.any (fun x => x.ix != e.ix && overlap x.dataOff x.compLen e.dataOff e.compLen) then 5
  else if e.type = 0 ∧ all.any (fun x => decide (x.ix < e.ix) && x.type == 0 && x.port == e.port &&
      overlap x.firstLine x.lineCount e.firstLine e.lineCount) then 6
  else if e.coding = 3 ∧ e.compLen ≠ e.origLen then 7
  else if e.type == 0 && (match cached with
      | some l => !l.any (·.sameKey e)
      | none => false) then 8
  else 0

/-! ### Tiles and rectangle lists -/

/-- R177 holds. -/
def Entry.nativeOk (e : Entry) : Bool :=
  (if e.hUp then decide (e.hN ≤ 8) && e.width == e.hN * e.srcWidth else e.srcWidth == e.hN * e.width) &&
    (if e.vUp then decide (e.vN ≤ 8) && e.lineCount == e.vN * e.srcLines
     else decide (e.vN ≤ 4) && e.srcLines == e.vN * e.lineCount)

/-- R180 holds. -/
def Entry.polyOk (e : Entry) : Bool :=
  e.layer == 1 && e.ext.getD 6 0 == 0 && e.ext.getD 7 0 == 0 && decide (e.width ≤ 8 * e.srcWidth) &&
    decide (e.srcWidth ≤ 4 * e.width) && decide (e.lineCount ≤ 8 * e.srcLines) && decide (e.srcLines ≤ 2 * e.lineCount)

/-- The condition of Table 5-4 that a tile fails, 0 for none; `earlier` holds the earlier tiles that Glaze uses (R185). -/
def tileReason (earlier : List Entry) (e : Entry) : Nat :=
  let same := earlier.filter (fun x => x.port == e.port && x.layer == e.layer)
  if e.layer = 0 ∨ bits (e.ext.getD 0 0) 2 2 ≠ 0 ∨ 8 ≤ e.ext.getD 1 0 ∨ 32 ≤ e.ext.getD 6 0 ∨ 32 ≤ e.ext.getD 7 0 then 1
  else if e.element ≠ 0 then 2
  else if e.srcWidth = 0 ∨ e.srcLines = 0 ∨ 4096 < e.srcWidth * e.channels then 3
  else if e.scaler = 0 ∧ !e.nativeOk then 4
  else if e.scaler = 1 ∧ !e.polyOk then 5
  else if same.any (fun x => overlap x.firstLine x.lineCount e.firstLine e.lineCount &&
      overlap x.xOff x.width e.xOff e.width) then 6
  else if (e.firstLine :: same.map (·.firstLine)).any (fun y => decide (e.firstLine ≤ y) &&
      decide (y < e.firstLine + e.lineCount) &&
      decide (8 ≤ (same.filter (fun x => decide (x.firstLine ≤ y) && decide (y < x.firstLine + x.lineCount))).length)) then 7
  else 0

/-- A TYPE 2 entry that Glaze ignores whole: not the region's first, or fields other than Table 5-5 (R192). -/
def listBad (earlier : List Entry) (e : Entry) : Bool :=
  earlier.any (fun x => x.port / 12 == e.port / 12) || e.format != 0 || e.xOff != 0 || e.width != 4096 ||
    (e.ext.drop 2).any (· != 0) || e.rectCount == 0 || decide (64 < e.rectCount)

/-- The entries with the reasons that R141 and R185 give them, and Glaze's reason 1 of R192 for lists. -/
def judgeTiles : List Entry → List Entry → List Entry → List Entry
  | _, _, [] => []
  | tiles, lists, e :: es =>
    if e.bad ≠ 0 then e :: judgeTiles tiles lists es
    else if e.type = 1 then
      let r := tileReason tiles e
      { e with tileBad := r } :: judgeTiles (if r = 0 then tiles ++ [e] else tiles) lists es
    else if e.type = 2 then
      { e with tileBad := if listBad lists e then 1 else 0 } :: judgeTiles tiles (lists ++ [e]) es
    else e :: judgeTiles tiles lists es

/-- The argument words that name a folio, an entry and its port. -/
def itemArg (n ix port low8 : Nat) : Nat := arg64 n (low 14 ix * 65536 + port % 64 * 256 + low8)

end Sys2Proof.Machine
end

