-- ==== Sys2Proof/Machine/Ingest.lean ====
section
/-! DEFINITION. Ingest, page 0x060: chunks, the folio window, header and directory acceptance, the stream ring and the repeat
cache (R126 to R149). Where a piece of the ring or the cache lies is not stated by the spec: the lowest free addresses are
taken. -/

namespace Sys2Proof.Machine

/-! ### Space -/

/-- A length rounded up to a multiple of `k`. -/
def roundUp (k n : Nat) : Nat := (n + k - 1) / k * k

/-- Pieces (address, length) as ranges. -/
def asRanges (ps : List (Nat × Nat)) : List (Nat × Nat) := ps.map (fun x => (x.1, x.1 + x.2))

/-- The pieces of the ring in use. -/
def State.ringUsed (s : State) : List (Nat × Nat) :=
  (s.ing.held ++ s.ing.past).flatMap (fun f => f.items.flatMap (fun i => if i.fromCache.isSome then [] else i.place.getD []))

/-- The free ranges of the ring. -/
def State.ringFree (s : State) : List (Nat × Nat) :=
  let b := s.get F.Ing.RING_BASE pgIng * 4096
  cutAll [(b, b + s.get F.Ing.RING_SIZE pgIng * 4096)] (asRanges s.ringUsed)

/-- The free ranges of the repeat cache. -/
def State.cacheFree (s : State) : List (Nat × Nat) :=
  let b := s.get F.Ing.CACHE_BASE pgIng * 4096
  cutAll [(b, b + s.get F.Ing.CACHE_SIZE pgIng * 4096)]
    (asRanges (s.ing.cache.flatMap (fun c => c.2.strips.flatMap (fun x => x.place.map (fun p => (p.1, roundUp 4096 p.2))))))

/-- Pieces of a length from free ranges; none when they do not hold it. -/
def takeSpace : List (Nat × Nat) → Nat → Option (List (Nat × Nat))
  | _, 0 => some []
  | [], _ => none
  | (a, b) :: t, n =>
    if n ≤ b - a then some [(a, n)] else (takeSpace t (n - (b - a))).map (fun l => (a, b - a) :: l)

/-- First-fit space of a length in 4 KiB units (R147). -/
def takeCache (free : List (Nat × Nat)) (n : Nat) : Option (List (Nat × Nat)) :=
  if n = 0 then some []
  else (free.find? (fun x => decide (roundUp 4096 n ≤ x.2 - x.1))).map (fun x => [(x.1, n)])

/-- Bytes written at an offset of an item's space. -/
def placeWrite : List (Nat × Nat) → Nat → List Byte → State → State
  | [], _, _, s => s
  | (a, n) :: ps, o, bs, s =>
    if o < n then placeWrite ps 0 (bs.drop (n - o)) (sdramWrite 9 (a + o) (bs.take (n - o)) s) else placeWrite ps (o - n) bs s

/-- The bytes of an item as sent. -/
def State.itemBytes (s : State) (i : Item) : List Byte := (placeBytes s.sdramView (i.place.getD [])).take i.e.compLen

/-- The SDRAM address of an offset of an item's space. -/
def placeAddr : List (Nat × Nat) → Nat → Nat
  | [], o => o
  | (a, n) :: ps, o => if o < n then a + o else placeAddr ps (o - n)

/-- The bursts of an item, by their offset in it, 64 bytes apart: its space is in units of 4 KiB. -/
def Item.burstAt (i : Item) (q : Nat) : Nat := placeAddr (i.place.getD []) (64 * q) / 64 * 64
def Item.burstCount (i : Item) : Nat := (i.e.compLen + 63) / 64

/-- A read of the item waits for an SDRAM channel that serves nothing. -/
def State.itemWaits (s : State) (i : Item) : Bool :=
  (List.range i.burstCount).any (fun q => s.sdramHeld (i.burstAt q) 64)

/-- The first byte of the item that a read finds poisoned. -/
def State.itemPoison (s : State) (i : Item) : Option Nat :=
  ((List.range i.burstCount).find? (fun q => !(s.poisonIn (i.burstAt q) 64).isEmpty)).map (64 * ·)

/-- The bursts of an item between two offsets that are fetched are read: a strip for an engine or the copy path, a tile or a list
for Glaze (R406, R427). -/
def readItem (i : Item) (lo hi : Nat) (fetch : Nat → Bool) (s : State) : State :=
  forAll ((List.range i.burstCount).filter (fun q => decide (lo < 64 * (q + 1)) && decide (64 * q < hi) && fetch q)) s (fun q =>
    burstRead (if i.e.type = 0 then 1 else 2) (i.burstAt q))

/-! ### Items of a folio -/

/-- The item waits for ring space (R145, R146). -/
def Item.waits (i : Item) : Bool := i.e.bad == 0 && i.place.isNone && i.fromCache.isNone && i.st == 0

/-- The container range of an item's data. -/
def Item.range (i : Item) : Nat × Nat := (i.e.dataOff, i.e.dataOff + i.e.compLen)

/-- The item's data comes with its own folio's container. -/
def Item.own (i : Item) : Bool := decide (i.e.ix < 65536)

/-- Order of allocation: FIRST_LINE, then PORT, then directory index (R145). -/
def entryBefore (a b : Entry) : Bool :=
  decide (a.firstLine < b.firstLine) || (a.firstLine == b.firstLine &&
    (decide (a.port < b.port) || (a.port == b.port && decide (a.ix < b.ix))))

/-- An item placed in that order. -/
def insertItem (i : Item) : List Item → List Item
  | [] => [i]
  | j :: t => if entryBefore i.e j.e then i :: j :: t else j :: insertItem i t

/-- Items in that order. -/
def sortItems (l : List Item) : List Item := l.foldr insertItem []

/-- The accepted folios of the window in folio order. -/
def State.window (s : State) : List Folio :=
  (List.range 4).filterMap (fun k => s.ing.held.find? (fun f => f.known && f.n == (s.expected + k) % 2 ^ 32))

/-- The first item that waits for space, with its folio. -/
def State.firstWaiting (s : State) : Option (Nat × Item) :=
  s.window.findSome? (fun f => ((sortItems (f.items.filter Item.waits)).head?).map (fun i => (f.n, i)))

/-- Space for the first waiting item where the ring holds it; the answer tells whether it was allocated (R145, R146). -/
def allocFirst (s : State) : State × Bool :=
  match s.firstWaiting with
  | none => (s, false)
  | some (n, i) =>
    match takeSpace s.ringFree (roundUp 64 i.e.compLen) with
    | some p => (s.updItem n i.e.ix (fun x => { x with place := some p }), true)
    | none =>
      if ((s.folio n).map (·.ringFull)).getD true then (s, false)
      else ((s.updFolio n (fun f => { f with ringFull := true })).raise Ev.ingestRingFull pgIng
        (arg64 n (low 14 i.e.ix * 65536)), false)

/-- Space for the waiting items in order, until one does not fit. -/
def allocAll : Nat → State → State
  | 0, s => s
  | k + 1, s =>
    let r := allocFirst s
    if r.2 then allocAll k r.1 else r.1

/-- RING_FREE and CACHE_FREE, in 4 KiB units. -/
def refreshSpace (s : State) : State :=
  (s.set F.Ing.RING_FREE pgIng (rangesLen s.ringFree / 4096)).set F.Ing.CACHE_FREE pgIng (rangesLen s.cacheFree / 4096)

/-! ### Repeat cache -/

/-- The strips of a cache entry. -/
def State.strips (s : State) (id : Nat) : List CStrip := (tget s.ing.cache id {}).strips

/-- The strip of a cache entry with an item's key replaced by its new contents. -/
def State.updStrip (s : State) (id : Nat) (e : Entry) (f : CStrip → CStrip) : State :=
  let c := tget s.ing.cache id {}
  let c2 : CEntry := { c with strips := c.strips.map (fun x => if x.e.sameKey e then f x else x) }
  s.updIng (fun i => { i with cache := tput i.cache id c2 })

/-- COMPLETE and BAD_ITEMS of an entry (R147, R153). -/
def cacheSettle (id : Nat) (s : State) : State :=
  if s.onI F.Ing.CACHE_ENTRY_VALID pgIng id then
    (s.setI F.Ing.COMPLETE pgIng id (bit ((s.strips id).all (·.ok)))).setI F.Ing.BAD_ITEMS pgIng id
      (bit ((s.strips id).any (·.bad)))
  else s

/-- A strip of the entry of a CACHE_STORE folio is held once its bytes are there and COMP_CRC matches (R147). -/
def cacheVerify (f : Folio) (id : Nat) (s : State) : State :=
  cacheSettle id (forAll f.items s (fun i s =>
    if i.fromCache == some id && i.own && covers f.held i.range.1 i.range.2 &&
        crc32 (s.itemBytes i) == i.e.compCrc then s.updStrip id i.e (fun x => { x with ok := true })
    else s))

/-- A cached copy is marked bad (R153, R155). -/
def markBad (id : Nat) (e : Entry) (s : State) : State := cacheSettle id (s.updStrip id e (fun x => { x with bad := true }))

/-- Cache space for the strips of a CACHE_STORE folio, in order; one that does not fit goes to the ring (R147). DESIGN CHOICE: it
stays a strip of the entry without space and is never held, so a later folio that takes it from the entry finds it lacking
(R141, R150; log 122). -/
def cachePlace (n id : Nat) : List Item → State → State
  | [], s => s
  | i :: t, s =>
    match takeCache s.cacheFree i.e.compLen with
    | some p =>
      let c := tget s.ing.cache id {}
      let s1 := s.updItem n i.e.ix (fun x => { x with place := some p, fromCache := some id, home := some (id, c.gen) })
      let c2 : CEntry := { c with strips := c.strips ++ [{ e := i.e, place := p }] }
      cachePlace n id t (s1.updIng (fun g => { g with cache := tput g.cache id c2 }))
    | none =>
      let c := tget s.ing.cache id {}
      let c2 : CEntry := { c with strips := c.strips ++ [{ e := i.e, place := [] }] }
      let s1 := s.updIng (fun g => { g with cache := tput g.cache id c2 })
      if ((s1.folio n).map (·.cacheFull)).getD true then cachePlace n id t s1
      else cachePlace n id t ((s1.updFolio n (fun f => { f with cacheFull := true })).raise Ev.ingestCacheFull pgIng
        (arg64 n id))

/-- The entry of a CACHE_STORE folio is created and its strips are placed (R147). -/
def cacheCreate (n : Nat) (h : Hdr) (s : State) : State :=
  let id := h.cacheId
  let s1 := s.updIng (fun g => { g with cache := tput g.cache id { lines := h.lines, gen := g.made + 1 }, made := g.made + 1 })
  let s2 := s1.setI F.Ing.CACHE_ENTRY_VALID pgIng id 1
  let items := ((s2.folio n).map (·.items)).getD []
  let s3 := cachePlace n id (sortItems (items.filter (fun i => i.e.bad == 0 && i.e.type == 0))) s2
  s3.setI F.Ing.SIZE pgIng id
    (rangesLen (asRanges ((s3.strips id).flatMap (fun x => x.place.map (fun p => (p.1, roundUp 4096 p.2))))) / 4096)

/-- The items that a replay folio takes from a cache entry: every strip that no TYPE 0 entry of the folio replaces (R148).
DESIGN CHOICE: an invalid entry replaces none; the cached strip prints, and the invalid entry is missing beside it (log 123). -/
def cachedItems (c : CEntry) (id : Nat) (own : List Entry) : List Item :=
  (c.strips.filter (fun x => !own.any (fun e => e.bad == 0 && e.type == 0 && e.sameKey x.e))).map (fun x =>
    { e := { x.e with ix := x.e.ix + 65536 }, place := some x.place, fromCache := some id, home := some (id, c.gen) })

/-- The folio a port is in: that of the first line not yet fired. -/
def State.portFolio (s : State) (p : Nat) : Nat :=
  let x := s.portOf p
  match x.slots.head? with
  | some sl => sl.folio
  | none => ((x.lastReq).map (·.1)).getD x.start

/-- A port may still print folio `n`. -/
def State.printing (s : State) (n : Nat) : Bool :=
  (List.range Config.ports).any (fun p => (s.inRun p || s.runState p == 6) && decide (0 ≤ folioDiff n (s.portFolio p)))

/-- A folio from E to E + 3 or one that is still printed refers to the entry, by its accepted header or by a substitute that it
prints (R149, R151). -/
def State.cacheInUse (s : State) (id : Nat) : Bool :=
  let refers := fun (f : Folio) => f.items.any (fun i => i.sub && i.fromCache == some id) || match f.hdr with
    | some h => (h.store || h.replay) && h.cacheId == id
    | none => false
  s.ing.held.any refers || s.ing.past.any (fun f => refers f && s.printing f.n)

/-- A folio is kept while a port prints it or the one after it, and while it is the one before E. -/
def State.keepsFolio (s : State) (n : Nat) : Bool :=
  s.printing n || s.printing (nextFolio n) || nextFolio n == s.expected

/-- Past folios that no port is in give up their ring space (R145); what nothing can refer to any more is forgotten. -/
def trimPast (s : State) : State :=
  let ringOf := fun (n : Nat) => (List.range Config.ports).any (fun p => s.inRun p && decide (0 ≤ folioDiff n (s.portFolio p)))
  let free := fun (f : Folio) => if ringOf f.n then f
    else { f with items := f.items.map (fun x => if x.fromCache.isSome then x else { x with place := none }) }
  refreshSpace (s.updIng (fun i => { i with past := (i.past.filter (fun f => s.keepsFolio f.n)).map free }))

/-! ### Bytes of a chunk -/

/-- New bytes of a known folio stored into the space of its items, whatever ranges of them are kept. -/
def storeBytes (n lo : Nat) (bs : List Byte) (keep : List (Nat × Nat)) (s : State) : State :=
  let items := ((s.folio n).map (·.items)).getD []
  forAll keep s (fun r s => forAll items s (fun i s =>
    let a := max r.1 i.range.1
    let b := min r.2 i.range.2
    if i.own && decide (a < b) then placeWrite (i.place.getD []) (a - i.range.1) ((bs.drop (a - lo)).take (b - a)) s else s))

/-- Bytes of a folio held (R130, R133, R145, R146); `count` is false for bytes that were held before acceptance. -/
def holdBytes (n lo : Nat) (bs : List Byte) (count : Bool) (s : State) : State :=
  match s.folio n with
  | none => s
  | some f =>
    let hi := lo + bs.length
    let pieces := cutAll [(lo, hi)] ((f.items.filter (fun i => i.waits && i.own)).map Item.range)
    let dropped := bs.length - rangesLen pieces
    let live := cutAll pieces ((f.items.filter (fun i => i.e.bad != 0 && i.own)).map Item.range)
    let fresh := cutAll live f.held
    let s1 := s.satI F.Ing.BYTES_DROPPED pgIng 0 dropped
    let s2 := if count && decide (rangesLen fresh < rangesLen live) then s1.sat F.Ing.CHUNK_DUP_COUNT pgIng else s1
    let s3 := s2.updFolio n (fun f => { f with
      held := f.held ++ fresh
      raw := if f.known then f.raw else f.raw ++ fresh.map (fun r => (r.1, (bs.drop (r.1 - lo)).take (r.2 - r.1)))
      chunks := if count then f.chunks + 1 else f.chunks })
    let s4 := if f.known then storeBytes n lo bs fresh s3 else s3
    match f.known, f.hdr with
    | true, some h => if h.store then cacheVerify ((s4.folio n).getD f) h.cacheId s4 else s4
    | _, _ => s4

/-! ### Header and directory -/

/-- The header of the next boundary's folio has been accepted: the ingest boundary, in folio order (R144, Table 2-4). -/
def ingestBoundary : Nat → State → State
  | 0, s => s
  | k + 1, s =>
    let n := s.nextBoundary pgIng
    if ((s.folio n).map (fun f => f.hdr.isSome)).getD false && !s.stopped pgIng then
      ingestBoundary k (reachBoundary pgIng n s)
    else s

/-- A header or directory fails R139 (R140). -/
def malformed (n reason : Nat) (s : State) : State :=
  (s.updIng (fun i => { i with held := i.held.filter (fun f => f.n != n) })).raise Ev.ingestFolioMalformed pgIng
    (arg64 n reason)

/-- CHUNK_BAD_COUNT and its event, once for a folio number (R128). -/
def chunkBad (n : Nat) (s : State) : State :=
  let s1 := s.sat F.Ing.CHUNK_BAD_COUNT pgIng
  if s1.ing.badSeen.contains n then s1
  else (s1.updIng (fun i => { i with badSeen := i.badSeen ++ [n] })).raiseX Ev.ingestChunkBad pgIng
    (arg64 n (low 16 (s1.get F.Ing.CHUNK_BAD_COUNT pgIng))) 0 Ev.ingestChunkBad.sev false

/-- A datagram too short for a chunk header (R128). -/
def chunkShort (s : State) : State :=
  let s1 := s.sat F.Ing.CHUNK_BAD_COUNT pgIng
  s1.raiseX { Ev.ingestChunkBad with rate := 1000000 } pgIng (65536 + low 16 (s1.get F.Ing.CHUNK_BAD_COUNT pgIng)) 1
    Ev.ingestChunkBad.sev false

/-- The largest directory end that a header can give (Table 4-2). -/
def maxDirEnd : Nat := 64 + 48 * 16384

/-- The early chunks of a folio that count among the 256 of R133: those with no byte of header or directory. DESIGN CHOICE: where
the directory ends is not known before the header, and a chunk that may still prove to carry directory bytes is not dropped; it
is judged at the header (log 124). -/
def Folio.countsEarly (f : Folio) : List (Nat × Nat × List (Nat × Nat)) :=
  if f.known then []
  else f.early.filter (fun x => decide (((f.hdr.map Hdr.dirEnd).getD maxDirEnd) ≤ x.1))

/-- The early chunks held, over all folios (R133). -/
def State.earlyChunks (s : State) : Nat := s.ing.held.foldl (fun a f => a + f.countsEarly.length) 0

/-- Held chunks given up, with the bytes that they brought. -/
def Folio.drop (f : Folio) (xs : List (Nat × Nat × List (Nat × Nat))) : Folio :=
  let cuts := xs.flatMap (fun x => x.2.2)
  { f with
    held := cutAll f.held cuts
    raw := f.raw.filter (fun r => !cuts.any (fun c => c.1 == r.1 && c.2 == r.1 + r.2.length))
    early := f.early.filter (fun x => !xs.contains x) }

/-- Early chunks beyond the 256 once the header tells which of them count: the last ones are dropped (R133). -/
def trimEarly (n : Nat) (s : State) : State :=
  let extra := s.earlyChunks - 256
  let xs := ((s.folio n).map Folio.countsEarly).getD []
  let out := xs.drop (xs.length - min extra xs.length)
  if out.isEmpty then s
  else (s.updFolio n (fun f => { f.drop out with chunks := f.chunks - out.length })).satI F.Ing.CHUNK_EARLY_DROP pgIng 0 out.length

/-- The header's 64 bytes are held: it is accepted, or the folio is discarded (R128, R139, R140). -/
def takeHeader (n : Nat) (s : State) : State :=
  match s.folio n with
  | some f =>
    if f.hdr.isNone && covers f.held 0 64 then
      let b := rawBytes f.raw 0 64
      let r := s.hdrReason n b
      if r ≠ 0 then malformed n r s
      else
        let h := parseHdr b
        let wrong := f.odd.filter (fun x => x.1 + x.2.1 != h.len)
        let s1 := s.updFolio n (fun f => { f.drop wrong with hdr := some h, odd := [] })
        ingestBoundary 5 (trimEarly n (forAll wrong s1 (fun _ s => chunkBad n s)))
    else s
  | none => s

/-- The events of an accepted directory (R141, R185, R192). -/
def dirEvents (n : Nat) (es : List Entry) (s : State) : State :=
  forAll es s (fun e s =>
    let r := regionOf e.port
    if e.bad ≠ 0 then s.raise Ev.ingestItemInvalid pgIng (arg64 n (low 14 e.ix * 65536 + e.bad))
    else if e.tileBad = 0 then s
    else if e.type = 1 then s.raise Ev.glazeTileInvalid (pgGlz r) (itemArg n e.ix e.port e.tileBad)
    else s.raise Ev.glazeRectInvalid (pgGlz r) (arg64 n (low 14 e.ix * 65536 + 0x7F * 256 + 1)))

/-- A directory passes R139: its entries are judged, space is allocated and the bytes held so far are stored. -/
def acceptDir (n : Nat) (h : Hdr) (dir : List Byte) (s : State) : State :=
  let es0 := (List.range h.count).map (fun i => parseEntry ((dir.drop (48 * i)).take 48) i)
  let cached := if h.replay then some ((s.strips h.cacheId).map (·.e)) else none
  let es := judgeTiles [] [] (es0.map (fun e => { e with bad := entryReason h es0 cached e }))
  let items := es.map (fun e => ({ e := e } : Item)) ++
    (if h.replay then cachedItems (tget s.ing.cache h.cacheId {}) h.cacheId es else [])
  let raw := ((s.folio n).map (·.raw)).getD []
  let s1 := s.updFolio n (fun f => { f with
    known := true, items := items, raw := [], held := [(0, h.dirEnd)], early := [] })
  let s2 := dirEvents n es s1
  let s3 := if h.store then cacheCreate n h s2 else s2
  let s4 := allocAll (items.length + 1) s3
  let s5 := forAll raw s4 (fun r s => holdBytes n r.1 r.2 false s)
  let s6 := if h.store then cacheSettle h.cacheId s5 else s5
  refreshSpace s6

/-- The directory's bytes are held: it is accepted, or the folio is discarded (R139, R140). -/
def takeDirectory (n : Nat) (s : State) : State :=
  match s.folio n with
  | some f =>
    match f.hdr with
    | some h =>
      if !f.known && covers f.held 0 h.dirEnd then
        let dir := rawBytes f.raw 64 (48 * h.count)
        if crc32 dir ≠ h.dirCrc then malformed n 8 s else acceptDir n h dir s
      else s
    | none => s
  | none => s

/-! ### Chunks -/

/-- The four words of an IPv6 register set, byte 0 of the address lowest. -/
def State.addr6 (s : State) (f : Fld) (pg i : Nat) : Nat :=
  (List.range 4).foldl (fun a w => a + s.getI f pg (4 * i + w) * 2 ^ (32 * w)) 0

/-- The destination is the part's own address or a group of R126. -/
def State.chunkAddr (s : State) (v6 : Bool) (dst : Nat) : Bool :=
  dst != 0 &&
    if v6 then
      dst == s.addr6 F.Sw.IPV6_ADDR 0x092 0 || (List.range 4).any (fun g => s.addr6 F.Ing.GROUP6 pgIng g == dst)
    else
      dst == s.get F.Sw.IPV4_ADDR 0x092 || (List.range 4).any (fun g => s.getI F.Ing.GROUP4 pgIng g == dst)

/-- Ingest accepts the datagram as a chunk (R126, R167). -/
def State.takesChunk (s : State) (net : Nat) (v6 : Bool) (dst udp : Nat) : Bool :=
  (match net with
    | 0 => s.on F.Ing.PORT0_EN pgIng
    | 1 => s.on F.Ing.PORT1_EN pgIng
    | _ => false) &&
  (!v6 || s.on F.Ing.IPV6_EN pgIng) && udp == s.get F.Ing.UDP_PORT pgIng && s.chunkAddr v6 dst &&
  s.pathOn pgIng && s.get F.Ing.RING_SIZE pgIng != 0

/-- A chunk for a folio outside the window (R131, R144). -/
def chunkOutside (n off : Nat) (s : State) : State :=
  let s1 := s.sat F.Ing.CHUNK_WINDOW_DROP pgIng
  if off = 0 ∧ s1.ing.stale.contains n = false then
    (s1.updIng (fun i => { i with stale := i.stale ++ [n] })).raise Ev.ingestFolioStale pgIng (arg64 n s.expected)
  else s1

/-- A chunk that ingest takes in for folio `n` (R128, R130, R133). -/
def chunkHeld (n off : Nat) (data : List Byte) (s : State) : State :=
  let s1 := if (s.ing.held.any (·.n == n)) then s else s.updIng (fun i => { i with held := i.held ++ [{ n := n }] })
  let f := (s1.folio n).getD { n := n }
  let x := (off, data.length, cutAll [(off, off + data.length)] f.held)
  let early := !f.known && !x.2.2.isEmpty
  let counts := early && decide (((f.hdr.map Hdr.dirEnd).getD maxDirEnd) ≤ off)
  if counts && decide (256 ≤ s1.earlyChunks) then s.sat F.Ing.CHUNK_EARLY_DROP pgIng
  else
    let s2 := s1.updFolio n (fun f => { f with
      early := if early then f.early ++ [x] else f.early
      odd := if data.length % 4 ≠ 0 ∧ f.hdr.isNone then f.odd ++ [x] else f.odd })
    takeDirectory n (takeHeader n (holdBytes n off data true s2))

/-- A datagram that ingest accepts, as a chunk (R127 to R131). -/
def chunkIn (pl : List Byte) (s : State) : State :=
  if pl.length < 16 then chunkShort s
  else
    let n := field pl 8 4
    let off := 4 * field pl 12 4
    let len := field pl 6 2
    let data := pl.drop 16
    let ends : Bool := match (s.folio n).bind (·.hdr) with
      | some h => off + len == h.len
      | none => true
    if field pl 0 2 ≠ 0xF011 ∨ field pl 2 1 ≠ 1 ∨ len = 0 ∨ 8956 < len ∨ len ≠ data.length then chunkBad n s
    else if field pl 4 2 ≠ s.get F.Ing.SEGMENT_ID pgIng then s.sat F.Ing.CHUNK_OTHER_COUNT pgIng
    else if len % 4 ≠ 0 ∧ !ends then chunkBad n s
    else
      let d := folioDiff n s.expected
      if d < 0 ∨ 3 < d ∨ s.ing.passed.contains n then chunkOutside n off s else chunkHeld n off data s

/-- CHUNK_RECEIVED: a datagram on network port `net` for UDP port `udp` at address `dst`, address byte 0 lowest (R126). -/
def execChunkReceived (net : Nat) (v6 : Bool) (dst udp : Nat) (payload : List Byte) (s : State) : Out :=
  .next (if s.takesChunk net v6 dst udp then chunkIn payload s else s)

/-- RING_ALLOCATE: space for the first item that waits, once it fits (R145, R146). -/
def execRingAllocate (s : State) : Out :=
  .next (if s.pathOn pgIng then refreshSpace (allocFirst (trimPast s)).1 else s)

/-! ### The expected folio -/

/-- E set to a folio number (R132): held folios in the new window are kept, the others are discarded and counted. `run`: by the
start of a run, which takes the folios from E on fresh; else by page 0x060 becoming READY, which keeps what is still printed and
lies outside the new window (R167). -/
def setExpected (run : Bool) (e : Nat) (s : State) : State :=
  let inside := fun (f : Folio) => let d := folioDiff f.n e; decide (0 ≤ d) && decide (d ≤ 3)
  let out := (s.ing.held.filter (fun f => !inside f)).foldl (fun a f => a + f.chunks) 0
  let back := fun (n : Nat) => decide (0 ≤ folioDiff n e)
  let s1 := s.updIng (fun i => { i with
    held := i.held.filter inside
    past := i.past.filter (fun f => if run then !back f.n else !inside f)
    passed := []
    fresh := true
    stale := i.stale.filter (fun n => !back n)
    badSeen := i.badSeen.filter (fun n => !back n) })
  let s2 := (s1.satI F.Ing.CHUNK_WINDOW_DROP pgIng 0 out).set F.Ing.EXPECTED_FOLIO pgIng e
  let nb := ((List.range 4).map (fun k => (e + k) % 2 ^ 32)).find? (fun n => !((s2.folio n).map (fun f => f.hdr.isSome)).getD false)
  refreshSpace (startBoundary pgIng (nb.getD ((e + 4) % 2 ^ 32)) s2)

/-- Items from the cache for a folio that ingest creates (R143). -/
def createdFolio (n : Nat) (s : State) : Folio × Bool :=
  let prev := if s.ing.fresh && n == s.expected then none
    else (s.folio (prevFolio n)).bind (fun f => if f.known then f.hdr else none)
  match prev with
  | none =>
    ({ n := n, hdr := some ⟨s.get F.Ing.INGEST_DEFAULT_LINES pgIng, 0, 0, 0, 64, 0⟩, known := true }, false)
  | some h =>
    if s.on F.Ing.LATE_POLICY pgIng && (h.store || h.replay) && s.onI F.Ing.CACHE_ENTRY_VALID pgIng h.cacheId then
      ({ n := n, hdr := some ⟨h.lines, 0, 2, h.cacheId, 64, 0⟩, known := true
         items := cachedItems (tget s.ing.cache h.cacheId {}) h.cacheId [] }, true)
    else ({ n := n, hdr := some ⟨h.lines, 0, 0, 0, 64, 0⟩, known := true }, false)

/-- E passes over the folios whose deadline has passed. -/
def advanceE : Nat → State → State
  | 0, s => s
  | k + 1, s =>
    let e := s.expected
    if s.ing.passed.contains e then
      advanceE k ((s.updIng (fun i => { i with passed := i.passed.filter (· != e), fresh := false })).set
        F.Ing.EXPECTED_FOLIO pgIng (nextFolio e))
    else s

/-- The deadline of folio `n` (R142, R143): where its header and directory are not accepted, ingest creates it. -/
def deadline (n : Nat) (s : State) : State :=
  if folioDiff n s.expected < 0 ∨ s.ing.passed.contains n then s
  else
    let s1 := if ((s.folio n).map (·.known)).getD false then s
      else
        let c := createdFolio n s
        let s1 := s.updIng (fun i => { i with held := i.held.filter (fun f => f.n != n) ++ [c.1] })
        ingestBoundary 5 (s1.raise Ev.ingestFolioLate pgIng (arg64 n (bit c.2)))
    let s2 := s1.updIng (fun i => { i with
      past := i.past ++ i.held.filter (fun f => f.n == n)
      held := i.held.filter (fun f => f.n != n)
      passed := i.passed ++ [n] })
    trimPast (advanceE 5 s2)

/-- Page 0x060 becomes READY (R132). -/
def ingestReady (s : State) : State := setExpected false (s.get F.Ing.INGEST_FIRST_FOLIO pgIng) s

/-- What a function reset of page 0x060 discards (R167): the folios held and the ring, with what was not yet dispatched. The
ports keep LINES of the folios that they print. -/
def ingestDiscard (s : State) : State :=
  let s1 := forAll (List.range Config.ports) s (fun p s => s.updPort p (fun x => { x with
    runs := x.runs.map (fun r => { r with lines := s.linesFor p r.n }) }))
  s1.updIng (fun i => { i with
    held := []
    passed := []
    fresh := true
    past := i.past.map (fun f => { f with held := [], items := f.items.map (fun x =>
      if x.fromCache.isSome then x else { x with place := if x.st = 0 ∧ x.inOff = 0 ∧ x.engine.isNone then none else x.place }) }) })

/-- CACHE_EVICT.GO (R149). -/
def cacheEvict (id : Nat) (s : State) : State :=
  if s.onI F.Ing.CACHE_ENTRY_VALID pgIng id then s.setI F.Ing.EVICT_PENDING pgIng id 1 else s

/-- CACHE_EVICT (R149). -/
def execCacheEvict (id owner : Nat) (s : State) : Out :=
  .next (gateReg pgIng 0xAC (low 8 id + 256) owner (cacheEvict (low 8 id)) s)

/-- EVICT_COMPLETE: no folio refers to the entry any more (R149). -/
def execEvictComplete (id : Nat) (s : State) : Out :=
  .next (if s.onI F.Ing.EVICT_PENDING pgIng id ∧ s.cacheInUse id = false ∧ s.active pgIng then
    let s1 := s.updIng (fun i => { i with cache := tdel i.cache id })
    let s2 := forAll [F.Ing.CACHE_ENTRY_VALID, F.Ing.COMPLETE, F.Ing.EVICT_PENDING, F.Ing.BAD_ITEMS, F.Ing.SIZE] s1
      (fun f s => s.setI f pgIng id 0)
    refreshSpace s2
  else s)

end Sys2Proof.Machine
end

