-- ==== Sys2Proof/Machine/Inflate.lean ====
section
/-! DEFINITION. The inflate groups, pages 0x062 to 0x065: need points, dispatch of slices and their ends (R150 to R159, R187,
R188, R194). Engine numbers 0 to 7 are the group's engines, 8 is its copy path. A dispatch decodes its slice at once; the end
of the slice frees the engine. -/

namespace Sys2Proof.Machine

/-! ### Where a port's lines stand -/

/-- Lines from the next line that Glaze composes for a port to a line of a folio; none where it cannot be counted. -/
def State.aheadOf (s : State) (p n line : Nat) : Option Int :=
  match s.composeAt p with
  | none => none
  | some (c, l) =>
    if n = c then some ((line : Int) - l)
    else if n = nextFolio c then (s.linesFor p c).map (fun k => (k : Int) - l + line)
    else if folioDiff n c < 0 then some (-1)
    else none

/-- The line lies within the port's four lines of room (R157). -/
def State.inRoom (s : State) (p n line : Nat) : Bool :=
  match s.aheadOf p n line with
  | some d => decide (d ≤ 3)
  | none => false

/-- The items of a layer of a port in a folio, in line order; a folio that the port found without items has none (R132). -/
def State.layerItems (s : State) (p layer n : Nat) : List Item :=
  let none' := match (s.portOf p).noItems with
    | some e => decide (folioDiff n e < 0)
    | none => false
  if none' then []
  else sortItems ((((s.folio n).map (·.items)).getD []).filter (fun i => i.e.port == p &&
    (if layer = 0 then i.e.type == 0 else i.e.type == 1 && i.e.bad == 0 && i.e.tileBad == 0 && i.e.layer == layer)))

/-- Everything of the item has been dispatched or settled. -/
def Item.done (i : Item) : Bool := decide (2 ≤ i.st) || i.atEnd

/-- The original line that the item produces next. -/
def Item.nextLine (i : Item) : Nat := if i.e.lineBytes = 0 then i.e.origLines else i.out.length / i.e.lineBytes

/-- The polyphase position of a destination line or pixel: (2j + 1) STEP / 2 - 0x8000 (R181). -/
def polyPos (src dst j : Nat) : Int := (((2 * j + 1) * (src * 65536 / dst) / 2 : Nat) : Int) - 0x8000

/-- The first destination line of a tile that needs source line `j`. -/
def Entry.firstUse (e : Entry) (j : Nat) : Nat :=
  if e.scaler = 1 then
    ((List.range e.lineCount).find? (fun k => decide ((j : Int) ≤ polyPos e.srcLines e.lineCount k / 65536 + 2))).getD e.lineCount
  else if e.vUp then j * e.vN
  else j / e.vN

/-- The first port line that the item's next slice serves. -/
def Item.nextPos (i : Item) : Nat := i.e.firstLine + (if i.e.type = 1 then i.e.firstUse i.nextLine else i.nextLine)

/-- The items of a layer of a port whose next slice may go, with their folio: all earlier lines of the port have been dispatched
(R157). Tiles that lie side by side on the same lines are offered together (R187, Table 5-4). -/
def State.nextItems (s : State) (p layer : Nat) : List (Nat × Item) :=
  match s.composeAt p with
  | none => []
  | some (c, _) =>
    let left := fun (n : Nat) => ((s.layerItems p layer n).filter (fun i => !i.done)).map (fun i => (n, i))
    let l := if (left c).isEmpty then left (nextFolio c) else left c
    l.filter (fun x => l.all (fun y => decide (x.2.nextPos ≤ y.2.nextPos)))

/-- The port's input of the layer has room for the item's next slice, for its next line where it is unsliced (R157). -/
def State.hasRoom (s : State) (p n : Nat) (i : Item) : Bool :=
  if i.e.type = 1 then s.inRoom p n (i.e.firstLine + i.e.firstUse i.nextLine)
  else
    let last := if i.e.slice = 0 || i.whole then i.nextLine else min (i.nextLine + i.e.slice) i.e.lineCount - 1
    s.inRoom p n (i.e.firstLine + last)

/-! ### Need points -/

/-- A rectangle covers a grid unit of a port in segment coordinates on a line (R191). -/
def Rect.covers (x : Rect) (k seg line : Nat) : Bool :=
  bitAt x.mask k && decide (x.first ≤ line) && decide (line < x.first + x.count) && decide (x.x ≤ seg) &&
    decide (seg < x.x + x.width)

/-- The rectangles of a region that are used for a folio (R193, R194): with RECT_EN in the set of the folio. -/
def State.rectsOf (s : State) (r n : Nat) : List Rect :=
  if (s.asOf r n).on F.Glz.RECT_EN (pgGlz r) then
    (((s.regnOf r).lists.find? (fun l => l.folio == n)).map (·.rects)).getD []
  else []

/-- X_START of a port in the set that governs a folio (R203). -/
def State.xStart (s : State) (p n : Nat) : Nat := (s.asOf (regionOf p) n).getI F.Scr.X_START (pgScr (regionOf p)) (p % 12)

/-- LAYER_EN in the set that governs a folio. -/
def State.layerOn (s : State) (r n layer : Nat) : Bool := bitAt ((s.asOf r n).get F.Glz.LAYER_EN (pgGlz r)) layer

/-- The item is skipped (R194). -/
def State.skips (s : State) (n : Nat) (e : Entry) : Bool :=
  let r := regionOf e.port
  let x := s.xStart e.port n
  !s.layerOn r n 0 || (s.rectsOf r n).any (fun q => e.width != 0 && e.lineCount != 0 &&
    q.covers (e.port % 12) (x + e.xOff) e.firstLine &&
    q.covers (e.port % 12) (x + e.xOff + e.width - 1) (e.firstLine + e.lineCount - 1))

/-- All bytes of an item are held. -/
def State.itemHeld (s : State) (n : Nat) (i : Item) : Bool :=
  i.place.isSome && (i.fromCache.isSome && !i.own || covers (((s.folio n).map (·.held)).getD []) i.range.1 i.range.2)

/-- COMP_CRC of an item matches. -/
def State.compOk (s : State) (i : Item) : Bool := crc32 (s.itemBytes i) == i.e.compCrc

/-- The strip of a cache entry with an item's key, as the entry holds it now. -/
def State.cachedStrip (s : State) (i : Item) : Option CStrip :=
  i.fromCache.bind (fun id => (s.strips id).find? (fun x => x.e.sameKey i.e))

/-- The cause of Table 4-9 for which a strip is missing at its need point, 0 for none (R150). DESIGN CHOICE: where several hold,
the first of 1, 4, 5, 2, 3, 6 is shown (log 125). -/
def State.missCause (s : State) (n : Nat) (i : Item) : Nat :=
  if i.e.bad ≠ 0 then 1
  else if !i.own && !(s.cachedStrip i).any (·.ok) then 4
  else if !i.own && (s.cachedStrip i).any (·.bad) then 5
  else if !s.itemHeld n i then 2
  else if !s.compOk i then 3
  else if (s.asOf (regionOf i.e.port) n).get F.Infl.ENGINE_EN (pgInfl (regionOf i.e.port)) = 0 then 6
  else 0

/-- The strip with the same key from the folio before, where the repeat cache holds it and it is not marked bad (R151): that
folio's own strip, whatever it printed instead, in the entry that holds it still. -/
def State.repeatStrip (s : State) (n : Nat) (e : Entry) : Option (Nat × CStrip) :=
  match s.folio (prevFolio n) with
  | none => none
  | some f => (f.items.findSome? (fun i => if i.e.type == 0 && i.e.sameKey e then i.home else none)).bind (fun h =>
      if (tget s.ing.cache h.1 {}).gen = h.2 then
        ((s.strips h.1).find? (fun x => x.e.sameKey e && x.ok && !x.bad)).map (fun x => (h.1, x))
      else none)

/-- An item's ring space is freed; cached data stays. -/
def Item.freed (i : Item) : Item := if i.fromCache.isSome then i else { i with place := none }

/-- A missing strip under its port's missing-data policy; the answer tells whether a substitute is used (R151, R283). DESIGN
CHOICE: a substitute for a strip that is missing because ENGINE_EN is 0 waits until an engine is enabled (log 126). -/
def replaceItem (n : Nat) (i : Item) (s : State) : State × Bool :=
  let sub := if s.on F.Port.MISS_POLICY (pgPort i.e.port) then s.repeatStrip n i.e else none
  match sub with
  | some (id, x) =>
    let y : Item := {
      e := { x.e with ix := i.e.ix }, place := some x.place, fromCache := some id, home := i.home, st := 1, sub := true }
    (s.updItem n i.e.ix (fun _ => y), true)
  | none => (s.updItem n i.e.ix (fun x => { x.freed with st := 3, out := [], atEnd := true }), false)

/-- A strip reaches its need point (R150, R151, R194); a skipped one is not tested, even where its entry is invalid. -/
def needStrip (n : Nat) (i : Item) (s : State) : State :=
  let p := i.e.port
  let r := regionOf p
  if s.skips n i.e then
    let s1 := s.updItem n i.e.ix (fun x => { x.freed with st := 4 })
    refreshSpace ((s1.satI F.Glz.ITEMS_SKIPPED (pgGlz r) 0 1).satI F.Glz.BYTES_SKIPPED (pgGlz r) 0 (i.e.origLen / 64))
  else
    let c := s.missCause n i
    if c = 0 then s.updItem n i.e.ix (fun x => { x with st := 1 })
    else
      let q := replaceItem n i s
      refreshSpace (((markDirty p n q.1).sat F.Infl.ITEMS_MISSING (pgInfl r)).raise Ev.ingestStripMissing (pgInfl r)
        (itemArg n i.e.ix p (bit q.2 * 16 + c)))

/-- The cause of Table 5-9 for which a tile is missing at its need point, 0 for none (R187). -/
def State.tileCause (s : State) (n : Nat) (i : Item) : Nat :=
  if !s.itemHeld n i then 2
  else if !s.compOk i then 3
  else if !s.layerOn (regionOf i.e.port) n i.e.layer then 4
  else 0

/-- A tile reaches its need point (R187). -/
def needTile (n : Nat) (i : Item) (s : State) : State :=
  let r := regionOf i.e.port
  let c := s.tileCause n i
  if c = 0 then s.updItem n i.e.ix (fun x => { x with st := 1 })
  else
    let s1 := s.updItem n i.e.ix (fun x => { x.freed with st := 3, atEnd := true })
    refreshSpace ((s1.sat F.Glz.TILES_MISSING (pgGlz r)).raise Ev.glazeTileMissing (pgGlz r) (itemArg n i.e.ix i.e.port c))

/-- The group works on a folio of a port: its pages run, and no HOLD keeps them. -/
def State.groupWorks (s : State) (r n : Nat) : Bool := s.pathOn (pgInfl r) && !s.heldAt (pgInfl r) n

/-- The region has begun the folio, or a later one: nothing of a folio is tested, decoded or composed before its reference
instant, at which its active set and its rectangles stand (Table 2-4, R193). -/
def State.folioOpen (s : State) (r n : Nat) : Bool := (s.regnOf r).begun.any (fun b => decide (folioDiff n b ≤ 0))

/-- The item of a layer of a port whose need point has come (R150, R187). -/
def State.needItem (s : State) (p layer : Nat) : Option (Nat × Item) :=
  (s.nextItems p layer).find? (fun x => x.2.st == 0 && s.groupWorks (regionOf p) x.1 && s.folioOpen (regionOf p) x.1 &&
    s.hasRoom p x.1 x.2)

/-- NEED_POINT: the next item of a layer of a port would be allowed to dispatch, and is tested (R150, R187). -/
def execNeedPoint (p layer : Nat) (s : State) : Out :=
  .next (match s.needItem p layer with
    | some (n, i) => if p < Config.ports ∧ layer < 4 then (if layer = 0 then needStrip n i s else needTile n i s) else s
    | none => s)

/-! ### Dispatch -/

/-- Lines of a port held ahead of firing: screened, or read from the replay record. -/
def State.linesAhead (s : State) (p : Nat) : Nat :=
  ((s.portOf p).slots.filter (fun x => x.data.isSome || x.screened)).length

/-- Screened lines of a port not yet fired (R220). -/
def State.screenedAhead (s : State) (p : Nat) : Nat := ((s.portOf p).slots.filter (·.screened)).length

/-- An engine or the copy path of a region. -/
def State.engineOf (s : State) (r k : Nat) : Engine := tget (s.regnOf r).engines k {}

/-- Some engine of the region is at work on the item. -/
def State.inHand (s : State) (r n ix : Nat) : Bool := (s.regnOf r).engines.any (fun x => x.2.cur == some (n, ix))

/-- The item's next slice can be taken by an engine (below 8) or by the copy path (8), whose SDRAM reads are served (R124, R157,
R159). -/
def State.canTake (s : State) (r k p layer : Nat) : Option (Nat × Item) :=
  (s.nextItems p layer).find? (fun x => x.2.st == 1 && (x.2.e.coding == 3) == (k == 8) && s.groupWorks r x.1 &&
    s.folioOpen r x.1 && !s.inHand r x.1 x.2.e.ix && s.hasRoom p x.1 x.2 && !s.itemWaits x.2)

/-- The slice that goes next: of the port with the fewest lines ahead of firing, then of the lowest port (R157); within a port
the lowest layer. -/
def State.nextSlice (s : State) (r k : Nat) : Option (Nat × Item) :=
  let all := (portsOf r).flatMap (fun p => (List.range 4).filterMap (fun l => (s.canTake r k p l).map (fun x => (s.linesAhead p, x))))
  (all.foldl (fun (b : Option (Nat × Nat × Item)) x => match b with
    | some y => if x.1 < y.1 then some x else b
    | none => some x) none).map (·.2)

/-- The output count at which the item's next slice ends; none for the last slice and for an unsliced item. -/
def Item.stop (i : Item) : Option Nat :=
  if i.e.slice = 0 || i.whole then none
  else
    let e := (i.nextLine + i.e.slice) * i.e.lineBytes
    if e < i.e.origLen then some e else none

/-- A grid unit of byte `b` of a strip's data is covered by no rectangle. -/
def Entry.showsByte (e : Entry) (rects : List Rect) (x0 b : Nat) : Bool :=
  let t := b % max 1 e.lineBytes
  let units := if e.element = 0 then [t]
    else ((List.range 4).map (8 * t / 3 + ·)).filter (fun u => decide (3 * u ≤ 8 * t + 7) && decide (8 * t ≤ 3 * u + 2))
  units.any (fun u => decide (u < e.width) &&
    !rects.any (fun q => q.covers (e.port % 12) (x0 + u) (e.firstLine + b / max 1 e.lineBytes)))

/-- The copy path fetches a 64-byte burst of an item: of a strip only those that hold a run no rectangle covers (R195). -/
def State.fetches (s : State) (n : Nat) (e : Entry) (burst : Nat) : Bool :=
  let rects := s.rectsOf (regionOf e.port) n
  if e.type ≠ 0 || rects.isEmpty then true
  else (List.range 64).any (fun t => decide (64 * burst + t < e.compLen) &&
    e.showsByte rects (s.xStart e.port n + e.xOff) (64 * burst + t))

/-- Bytes of an item that the copy path leaves out. -/
def State.unfetched (s : State) (n : Nat) (e : Entry) : Nat :=
  (List.range ((e.compLen + 63) / 64)).foldl (fun a q => if s.fetches n e q then a else a + min 64 (e.compLen - 64 * q)) 0

/-- What the copy path gives: the bytes as sent, up to a poisoned burst (R159, Table 12-3). A byte that it does not fetch is
never used; it stands as 0. -/
def copySlice (src : List Byte) (fetch : Nat → Bool) (poison : Option Nat) : DecOut :=
  let got := src.zipIdx.map (fun x => if fetch (x.2 / 64) then x.1 else 0)
  match poison with
  | some p =>
    if p < src.length ∧ fetch (p / 64) then ⟨got.take p, p, true, false, false, 0x0A⟩ else ⟨got, src.length, true, false, false, 0⟩
  | none => ⟨got, src.length, true, false, false, 0⟩

/-- The item after its next slice has been decoded. -/
def Item.decoded (i : Item) (k : Nat) (d : DecOut) (hist : Nat) : Item :=
  { i with
    out := d.out, inOff := d.off, engine := some k, hist := hist, whole := i.whole || d.miss, atEnd := d.fin
    broken := d.reason != 0, frameBad := d.frameBad }

/-- CODEC.STREAM_ERROR of an item (R155): its cached copy is marked bad. -/
def streamError (r n : Nat) (i : Item) (reason : Nat) (s : State) : State :=
  let s1 := ((markDirty i.e.port n s).sat F.Infl.STREAM_ERROR_COUNT (pgInfl r)).raise Ev.codecStreamError (pgInfl r) (itemArg n i.e.ix i.e.port reason)
  match i.fromCache with
  | some id => markBad id i.e s1
  | none => s1

/-- The engine registers as the engines stand (Table 4-11). -/
def showEngine (r k : Nat) (s : State) : State :=
  let e := s.engineOf r k
  let pg := pgInfl r
  let s1 := if k < 8 then
      let port := ((e.cur.bind (fun x => s.item x.1 x.2)).map (·.e.port)).getD 0
      let ix := (e.cur.map (fun x => low 14 x.2)).getD 0
      (((s.setI F.Infl.ENGINE_STATE_BUSY pg k (bit e.cur.isSome)).setI F.Infl.BOUND pg k (bit e.bound)).setI F.Infl.PORT pg k
        port).setI F.Infl.ITEM pg k ix
    else s
  s1.set F.Infl.BOUND_ENGINES pg ((List.range 8).foldl (fun a k => a + bit (s.engineOf r k).bound) 0)

/-- The next slice of an item decoded by engine `k`. DESIGN CHOICE: the history is empty where another engine has served the item
last (R156, Table 4-6); an engine that takes the item up again keeps it, whatever it has served in between (log 127). -/
def dispatch (r k n : Nat) (i : Item) (poison : Option Nat) (s : State) : State :=
  let src := s.itemBytes i
  let poison := firstPoison poison (s.itemPoison i)
  let fetch := fun (q : Nat) => k != 8 || s.fetches n i.e q
  let hist := if i.engine = some k then i.hist else i.out.length
  let out := if k = 8 then s.unfetched n i.e else 0
  let d := if k = 8 then copySlice src fetch poison
    else decodeSlice src i.e.coding i.e.origLen i.stop i.inOff hist i.out poison
  let j : Item := { i.decoded k d hist with part := out != 0 }
  let s0 := readItem i (if k = 8 then 0 else i.inOff) (if d.reason = 0x0A then d.off + 1 else d.off) fetch s
  let s1 := (s0.updItem n i.e.ix (fun _ => j)).satI F.Glz.BYTES_SKIPPED (pgGlz r) 0 (out / 64)
  let e : Engine := { cur := some (n, i.e.ix), bound := decide (k < 8) && (i.e.slice == 0 || j.whole) }
  let s2 := s1.updRegn r (fun x => { x with engines := tput x.engines k e })
  let s3 := if d.miss ∧ !i.whole then
      (s2.sat F.Infl.SLICE_MISS_COUNT (pgInfl r)).raise Ev.codecSliceMiss (pgInfl r) (itemArg n i.e.ix i.e.port 0)
    else s2
  let s4 := if d.reason = 0 then s3 else streamError r n i d.reason s3
  showEngine r k s4

/-- SLICE_DISPATCH: a free engine, or the copy path, takes the next slice; `poison` is the first poisoned byte of the item that
the read meets (R157 to R159, R406). -/
def execSliceDispatch (r engine : Nat) (poison : Option Nat) (s : State) : Out :=
  .next (if r < Config.regions ∧ engine ≤ 8 ∧ (s.engineOf r engine).cur = none ∧
      (engine = 8 ∨ bitAt (s.get F.Infl.ENGINE_EN (pgInfl r)) engine) then
    match s.nextSlice r engine with
    | some (n, i) => dispatch r engine n i poison s
    | none => s
  else s)

/-! ### Ends -/

/-- A decoded item fails its checks: ORIG_CRC, and under VERIFY_FRAMING the zlib or gzip check (R153). DESIGN CHOICE: ORIG_CRC is
not judged where the copy path has left bytes out (log 128). -/
def State.checkFails (s : State) (r n : Nat) (i : Item) : Bool :=
  (!i.part && crc32 i.out != i.e.origCrc) || (i.frameBad && (s.asOf r n).on F.Infl.VERIFY_FRAMING (pgInfl r))

/-- An item has been decoded to its end: its checks, and its ring space (R145, R153). -/
def itemEnd (r n : Nat) (i : Item) (s : State) : State :=
  let s1 := s.updItem n i.e.ix (fun x => { x.freed with st := 2 })
  if i.broken then s1
  else
    let s2 := s1.sat F.Infl.ITEMS_DONE (pgInfl r)
    let crcBad := !i.part && crc32 i.out != i.e.origCrc
    if s.checkFails r n i then
      let s3 := ((markDirty i.e.port n s2).sat F.Infl.CHECK_FAIL_COUNT (pgInfl r)).raise Ev.codecCheckFail (pgInfl r)
        (itemArg n i.e.ix i.e.port (bit (!crcBad)))
      match i.fromCache with
      | some id => markBad id i.e s3
      | none => s3
    else s2

/-- SLICE_END: the engine has finished its slice or item and is free (R156, R153). -/
def execSliceEnd (r engine : Nat) (s : State) : Out :=
  .next (match (s.engineOf r engine).cur with
    | some (n, ix) =>
      if r < Config.regions ∧ engine ≤ 8 then
        let s1 := s.updRegn r (fun x => { x with engines := tdel x.engines engine })
        let s2 := match s.item n ix with
          | some i => if i.atEnd ∧ i.st = 1 then itemEnd r n i s1 else s1
          | none => s1
        refreshSpace (showEngine r engine s2)
      else s
    | none => s)

/-- A function reset of an inflate group: its strips in flight count as missing (Table 3-8). -/
def inflDiscard (r : Nat) (s : State) : State :=
  let s1 := s.updRegn r (fun x => { x with engines := [] })
  let flying := (s1.ing.held ++ s1.ing.past).flatMap (fun f =>
    (f.items.filter (fun i => i.st == 1 && regionOf i.e.port == r)).map (fun i => (f.n, i)))
  let s2 := forAll flying s1 (fun x s =>
    if x.2.e.type = 0 then (replaceItem x.1 x.2 s).1
    else s.updItem x.1 x.2.e.ix (fun i => { i.freed with st := 3, atEnd := true }))
  refreshSpace s2

end Sys2Proof.Machine
end

