-- ==== Sys2Proof/Machine/Glaze.lean ====
section
/-! DEFINITION. Glaze, pages 0x068 to 0x06B: one pixel of a line from its five layers, tiles and their scalers, rectangle
lists, service elements, and the steps that compose a line and begin a folio (R142, R172 to R197). A pixel is coded as its
value plus 256 where DIRECT is 1. -/

namespace Sys2Proof.Machine

/-! ### Tiles -/

/-- Byte `c` of source pixel `i` of source line `j` of a tile. -/
def Item.sample (t : Item) (j i c : Nat) : Nat := (t.out.getD (j * t.e.lineBytes + t.e.channels * i + c) 0).toNat

/-- A source pixel is transparent (R176). -/
def Item.clear (t : Item) (j i : Nat) : Bool :=
  let cs := (List.range t.e.channels).filter (bitAt t.e.keyMask)
  !cs.isEmpty && cs.all (fun c => t.sample j i c == t.e.keyOf c)

/-- The source numbers that a destination number takes on one axis (R178, R179). -/
def axis (up : Bool) (n d : Nat) : List Nat := if up then [d / n] else (List.range n).map (fun k => n * d + k)

/-- A pixel of a natively scaled tile, none where it is transparent (R178, R179). -/
def Item.native (t : Item) (k j : Nat) : Option Nat :=
  let px := (axis t.e.vUp t.e.vN k).flatMap (fun l => (axis t.e.hUp t.e.hN j).map (fun i => (l, i)))
  let op := px.filter (fun x => !t.clear x.1 x.2)
  let m := op.length
  if m = 0 then none else some ((op.foldl (fun a x => a + t.sample x.1 x.2 0) 0 + m / 2) / m)

/-- A position kept within a source of `n`. -/
def edge (n : Nat) (x : Int) : Nat := (clampI 0 ((n : Int) - 1) x).toNat

/-- A coefficient of Table 5-3: tap `t` of a phase, in words of `per` per phase from byte `base`. -/
def State.coef (s : State) (r base per ph t : Nat) : Int :=
  sext 12 (bits (s.apt (pgGlz r) (base + 4 * (per * ph + t / 2))) (t % 2 * 16) 12)

/-- A pixel of a polyphase tile, none where it is transparent (R181 to R183). -/
def State.poly (s : State) (r : Nat) (t : Item) (k j : Nat) : Option Nat :=
  let e := t.e
  let p := polyPos e.srcWidth e.width j
  let pv := polyPos e.srcLines e.lineCount k
  if t.clear (edge e.srcLines ((pv + 0x8000) / 65536)) (edge e.srcWidth ((p + 0x8000) / 65536)) then none
  else
    let ph := (p % 65536 / 1024).toNat
    let phv := (pv % 65536 / 1024).toNat
    let h := fun (line : Int) => clampI (-1024) 1023 (((List.range 8).foldl (fun a c =>
      a + s.coef r 0 4 ph c * (t.sample (edge e.srcLines line) (edge e.srcWidth (p / 65536 - 3 + c)) 0 : Int)) 0 + 512) / 1024)
    let v := (List.range 4).foldl (fun a c => a + s.coef r 0x400 2 phv c * h (pv / 65536 - 1 + c)) 0
    some (clampI 0 255 ((v + 512) / 1024)).toNat

/-- The last source line that a destination line of a tile needs. -/
def Entry.lastSource (e : Entry) (k : Nat) : Nat :=
  if e.scaler = 1 then edge e.srcLines (polyPos e.srcLines e.lineCount k / 65536 + 2)
  else if e.vUp then k / e.vN
  else e.vN * k + e.vN - 1

/-- The source lines of a destination line of a tile are present. -/
def Item.present (t : Item) (k : Nat) : Bool := decide ((t.e.lastSource k + 1) * t.e.lineBytes ≤ t.out.length)

/-- Lines a strip or tile covers. -/
def Entry.onLine (e : Entry) (y : Nat) : Bool := decide (e.firstLine ≤ y) && decide (y < e.firstLine + e.lineCount)

/-- Grid units a strip or tile covers. -/
def Entry.onUnit (e : Entry) (x : Nat) : Bool := decide (e.xOff ≤ x) && decide (x < e.xOff + e.width)

/-- The tiles of a port that cover a line, of the layers that are enabled. -/
def State.tilesOn (s : State) (p n y : Nat) : List Item :=
  [1, 2, 3].flatMap (fun l => if s.layerOn (regionOf p) n l then
    (s.layerItems p l n).filter (fun i => i.st != 3 && i.e.onLine y) else [])

/-- The value that a tile gives at a destination pixel, none where it is transparent or its lines are not present (R176,
R188, R189). -/
def State.tilePixel (s : State) (r : Nat) (t : Item) (y x : Nat) : Option Nat :=
  let k := y - t.e.firstLine
  let j := x - t.e.xOff
  if !t.e.onUnit x || !t.present k then none
  else if t.e.scaler = 1 then s.poly r t k j
  else t.native k j

/-! ### L0 -/

/-- The strip that covers a line of a port; a valid one goes before an invalid one. -/
def State.stripOn (s : State) (p n y : Nat) : Option Item :=
  let l := (s.layerItems p 0 n).filter (fun i => i.e.onLine y)
  match l.find? (fun i => i.e.bad == 0) with
  | some i => some i
  | none => l.head?

/-- The L0 line is there: from its item, or from the copy path where no item covers it (R159, R189). -/
def State.l0Ready (s : State) (p n y : Nat) : Bool :=
  match s.stripOn p n y with
  | none => true
  | some i => i.st == 3 || i.st == 4 || i.atEnd || decide ((y - i.e.firstLine + 1) * i.e.lineBytes ≤ i.out.length)

/-- The L0 pixel of a port at a grid unit, without rectangles (R138, R172, R173). -/
def stripPixel (i : Item) (y x : Nat) : Nat :=
  let at_ := (y - i.e.firstLine) * i.e.lineBytes
  if !i.e.onUnit x || i.st == 3 || i.st == 4 || decide (i.out.length < at_ + i.e.lineBytes) then 0
  else if i.e.element = 0 then (i.out.getD (at_ + (x - i.e.xOff)) 0).toNat
  else
    let b := 3 * (x - i.e.xOff)
    bits (leNat ((i.out.drop (at_ + b / 8)).take 2)) (b % 8) 3 + 256

/-! ### Service layer -/

/-- The pixel of service element `e` at segment unit `X` and line `y`: none where the element is not active, else whether it
is on, and its on value (R196, R197). -/
def State.svcPixel (s : State) (r e k X y : Nat) : Option (Bool × Nat) :=
  let g := fun (f : Fld) => s.getI f (pgGlz r) e
  let rep := g F.Glz.REPEAT_LINES
  let cnt := g F.Glz.LINE_COUNT
  let first := g F.Glz.FIRST_LINE
  let v := if rep = 0 then y - first else (y - first) % max rep cnt
  let x0 := g F.Glz.X_START
  let w := g F.Glz.WIDTH
  let u := X - x0
  let step := max 1 (g F.Glz.SERVICE_STEP)
  let thick := max 1 (g F.Glz.THICK)
  let near := fun (a mid : Nat) => decide (mid ≤ a + thick / 2) && decide (a + thick / 2 < mid + thick)
  if bitAt (s.get F.Glz.SVC_EN (pgGlz r)) e && bitAt (g F.Glz.PORT_MASK) k && decide (x0 ≤ X) && decide (X < x0 + w) &&
      decide (first ≤ y) && decide (v < cnt) then
    match g F.Glz.TYPE with
    | 1 => some (true, g F.Glz.VALUE)
    | 2 => some (decide (v / max 1 (g F.Glz.ROW_LINES) % step = u % step), g F.Glz.VALUE)
    | 3 => some (near u (w / 2) || near v (cnt / 2), g F.Glz.VALUE)
    | 4 => some (true, g F.Glz.VALUE * (u * step / w + 1) / step)
    | _ => some (false, 0)
  else none

/-- The service layer's pixel, none where it is transparent. -/
def State.svcLayer (s : State) (r k X y : Nat) : Option Nat :=
  match (List.range 16).findSome? (fun e => (s.svcPixel r e k X y).map (fun q => (e, q))) with
  | none => none
  | some (e, on, v) =>
    if on then
      if s.onI F.Glz.DIRECT (pgGlz r) e then some (v % 8 + 256) else some v
    else if s.onI F.Glz.KNOCKOUT (pgGlz r) e then some 0 else none

/-! ### One line -/

/-- One composed pixel: the topmost layer that is enabled and not transparent (R172). -/
def State.pixel (s : State) (g : State) (p n y x : Nat) (strip : Option Item) (tiles : List Item) : Nat :=
  let r := regionOf p
  let X := g.getI F.Scr.X_START (pgScr r) (p % 12) + x
  let l4 := if bitAt (g.get F.Glz.LAYER_EN (pgGlz r)) 4 then g.svcLayer r (p % 12) X y else none
  match l4 with
  | some v => v
  | none =>
    match tiles.reverse.findSome? (fun t => g.tilePixel r t y x) with
    | some v => v
    | none =>
      if bitAt (g.get F.Glz.LAYER_EN (pgGlz r)) 0 && !(s.rectsOf r n).any (fun q => q.covers (p % 12) X y) then
        match strip with
        | some i => stripPixel i y x
        | none => 0
      else 0

/-- The 4,096 pixels of a line. -/
def State.composeLine (s : State) (p n y : Nat) : List Nat :=
  let g := s.asOf (regionOf p) n
  let strip := s.stripOn p n y
  let tiles := s.tilesOn p n y
  (List.range 4096).map (fun x => s.pixel g p n y x strip tiles)

/-- The region sends zero lines of a folio after a function reset (Table 3-8). -/
def State.zeroed (s : State) (r n : Nat) : Bool :=
  let x := s.regnOf r
  x.zero || (match x.zeroBelow with
    | some f => decide (folioDiff n f < 0)
    | none => false)

/-- A tile still expected whose source lines for a line are not present (R189). -/
def Item.lateOn (t : Item) (y : Nat) : Bool := !t.present (y - t.e.firstLine) && !t.atEnd

/-- A port's next line may be composed now (R189). -/
def State.composable (s : State) (p : Nat) : Option (Nat × Nat) :=
  let r := regionOf p
  match s.composeAt p, (s.portOf p).lastReq with
  | some (n, y), some (ln, ly) =>
    let asked := decide (folioDiff n ln < 0) || (n == ln && decide (y ≤ ly))
    if asked && s.pathOn (pgGlz r) && !s.heldAt (pgGlz r) n && s.folioOpen r n &&
        (s.zeroed r n || (s.l0Ready p n y && (!(s.tilesOn p n y).any (fun t => t.lateOn y) ||
          decide (s.linesAhead p ≤ (s.asOf r n).get F.Glz.OVL_MARGIN (pgGlz r))))) then some (n, y)
    else none
  | _, _ => none

/-- The port with the least of a measure, the lowest among equals. -/
def leastPort (ps : List Nat) (m : Nat → Nat) : Option Nat :=
  ps.foldl (fun (b : Option Nat) p => match b with
    | some q => if m p < m q then some p else b
    | none => some p) none

/-- Late tiles of a line: each raises its event once, and the line is counted (R189). -/
def lateTiles (p n y : Nat) (late : List Item) (s : State) : State :=
  if late.isEmpty then s
  else
    let s1 := s.sat F.Glz.LATE_LINES (pgGlz (regionOf p))
    forAll late s1 (fun t s =>
      if t.late then s
      else ((markDirty p n s).updItem n t.e.ix (fun i => { i with late := true })).raise Ev.glazeOverlayLate (pgGlz (regionOf p))
        (arg64 n (low 24 y * 256 + p)))

/-- RECT_STATE shows the folio being composed for the region's lowest running port (Table 5-8). -/
def showRects (r p n : Nat) (s : State) : State :=
  if ((portsOf r).find? s.inRun) = some p then
    let l := (s.regnOf r).lists.find? (fun x => x.folio == n)
    (s.set F.Glz.COUNT (pgGlz r) ((l.map (·.rects.length)).getD 0)).set F.Glz.LIST_OK (pgGlz r) (bit l.isSome)
  else s

/-- A port's next line composed (R172, R189, R190). -/
def compose (p n y : Nat) (s : State) : State :=
  let r := regionOf p
  let tiles := s.tilesOn p n y
  let line := if s.zeroed r n then List.replicate 4096 0 else s.composeLine p n y
  let s1 := s.updPort p (fun x => { x with composed := x.composed ++ [(n, y, line)], compose := s.nextLine p (n, y) })
  let s2 := if s.zeroed r n then s1 else lateTiles p n y (tiles.filter (fun t => t.lateOn y)) s1
  let done := (tiles.filter (fun t => y + 1 == t.e.firstLine + t.e.lineCount)).length
  showRects r p n ((s2.wrap F.Glz.COMPOSED_LINES (pgGlz r)).satI F.Glz.TILES_DONE (pgGlz r) 0 done)

/-- LINE_COMPOSE: the region composes the next line of the port with the fewest composed lines ahead of firing (R189). -/
def execLineCompose (r : Nat) (s : State) : Out :=
  .next (if r < Config.regions then
    match leastPort ((portsOf r).filter (fun p => (s.composable p).isSome))
        (fun p => s.linesAhead p + (s.portOf p).composed.length) with
    | some p => match s.composable p with
      | some (n, y) => compose p n y s
      | none => s
    | none => s
  else s)

/-! ### Rectangle lists -/

/-- A rectangle of Table 5-6 from its 16 bytes, and whether it is valid for a folio of `lines` lines (R192). -/
def parseRect (b : List Byte) (lines : Nat) : Rect × Bool :=
  let q : Rect := ⟨field b 0 4, field b 4 4, field b 8 2, field b 10 2, bits (field b 12 2) 0 12⟩
  (q, q.count != 0 && q.width != 0 && q.mask != 0 && field b 12 2 == q.mask && field b 14 2 == 0 &&
    decide (q.first + q.count ≤ lines))

/-- The list of a region in a folio. -/
def State.listOf (s : State) (r n : Nat) : Option Item :=
  (s.folio n).bind (fun f => if f.known then f.items.find? (fun i => i.e.type == 2 && i.e.bad == 0 && i.e.tileBad == 0 &&
    regionOf i.e.port == r) else none)

/-- A list decoded by the copy path or an engine, and checked as any item is (R153, R155, R191 to R193). -/
def decodeList (r n : Nat) (i : Item) (poison : Option Nat) (s : State) : State :=
  let src := s.itemBytes i
  let poison := firstPoison poison (s.itemPoison i)
  let d := if i.e.coding = 3 then copySlice src (fun _ => true) poison
    else decodeSlice src i.e.coding i.e.origLen none 0 0 [] poison
  let j : Item := { i with out := d.out, frameBad := d.frameBad, broken := d.reason != 0 }
  let cause := if d.reason ≠ 0 then 5 else if s.checkFails r n j then 6 else 0
  let lines := (s.linesOf n).getD 0
  let rs := if cause = 0 then (List.range i.e.rectCount).map (fun k => parseRect ((d.out.drop (16 * k)).take 16) lines) else []
  let l : RectList := ⟨n, i.e.ix, cause, (rs.filter (·.2)).map (·.1)⟩
  let s0 := (readItem i 0 (if d.reason = 0x0A then d.off + 1 else d.off) (fun _ => true) s).updRegn r (fun x => { x with
    decoded := x.decoded ++ [l] })
  let s1 := itemEnd r n j (if d.reason = 0 then s0 else streamError r n i d.reason s0)
  refreshSpace (forAll (List.range rs.length) s1 (fun k s =>
    if ((rs.map (·.2)).getD k true) then s
    else s.raise Ev.glazeRectInvalid (pgGlz r) (arg64 n (low 14 i.e.ix * 65536 + k * 256 + 2))))

/-- A list may be decoded: its bytes are held and can be read, COMP_CRC matches, and the copy path or an enabled engine takes it
(R124, R168, R193). -/
def State.decodable (s : State) (r n : Nat) (i : Item) : Bool :=
  i.st == 0 && s.itemHeld n i && s.compOk i && !s.itemWaits i && (i.e.coding == 3 || s.get F.Infl.ENGINE_EN (pgInfl r) != 0)

/-- The first list of a region that is held, matches COMP_CRC and is not decoded (R193). -/
def State.listReady (s : State) (r : Nat) : Option (Nat × Item) :=
  (s.ing.held ++ s.ing.past).findSome? (fun f =>
    (s.listOf r f.n).bind (fun i => if s.decodable r f.n i then some (f.n, i) else none))

/-- RECT_LIST_DECODE (R193). -/
def execRectListDecode (r : Nat) (poison : Option Nat) (s : State) : Out :=
  .next (if r < Config.regions ∧ s.pathOn (pgInfl r) then
    match s.listReady r with
    | some (n, i) => decodeList r n i poison s
    | none => s
  else s)

/-- The list of a folio at the region's reference instant: used when it is decoded and checked, else missing (R193). Table 5-9
gives no cause for a list that is held and good but waits for an engine: that cause is a free value (log 129). -/
def useList (r n : Nat) (s : State) : State :=
  match s.listOf r n with
  | none => s
  | some i =>
    let s1 := if s.decodable r n i then decodeList r n i none s else s
    let l := (s1.regnOf r).decoded.find? (fun l => l.folio == n)
    let q : Nat × State := match l with
      | some l => (l.cause, s1)
      | none =>
        if !s.itemHeld n i then (2, s1) else if !s.compOk i then (3, s1)
        else let v := freeUpTo 14 s1; (v.1 + 1, v.2)
    let cause := q.1
    let s2 := q.2.updRegn r (fun x => { x with
      decoded := x.decoded.filter (fun l => decide (0 < folioDiff l.folio n))
      lists := x.lists.filter (fun l => decide (-2 ≤ folioDiff l.folio n)) ++ (if cause = 0 then l.toList else []) })
    if cause ≠ 0 ∧ s2.on F.Glz.RECT_EN (pgGlz r) then
      s2.raise Ev.glazeRectListMissing (pgGlz r) (arg64 n (low 14 i.e.ix * 65536 + cause))
    else s2

/-! ### The start of a folio in a region -/

/-- The next folio whose line 0 the region may begin: within the room of one of its ports and not yet begun. -/
def State.folioToBegin (s : State) (r : Nat) : Option Nat :=
  (portsOf r).findSome? (fun p => match s.composeAt p with
    | some (n, l) =>
      let unbegun : Nat → Bool := fun m => match (s.regnOf r).begun with
        | some b => decide (0 < folioDiff m b)
        | none => true
      if l = 0 ∧ unbegun n then some n
      else if s.inRoom p (nextFolio n) 0 ∧ unbegun (nextFolio n) then some (nextFolio n)
      else none
    | none => none)

/-- The set that was active is kept for the lines of earlier folios (R26). -/
def keepOld (r n : Nat) (s : State) : State :=
  let o : OldSet := ⟨n, regionRegs r s.regs, regionWords r s.aptw⟩
  s.updRegn r (fun x => { x with old := x.old.filter (fun q => decide (-2 ≤ folioDiff q.until_ n)) ++ [o] })

/-- The region of an inflate, Glaze or screening page. -/
def regionOfPage (pg : Nat) : Nat := if pg < 0x066 then pg - 0x062 else (pg - 0x068) % 4

/-- The next boundary of a region: the folio whose line 0 it begins next (Table 2-4). -/
def State.regionNext (s : State) (r : Nat) : Nat :=
  match s.folioToBegin r, (s.regnOf r).begun with
  | some n, _ => n
  | none, some b => nextFolio b
  | none, none => s.expected

/-- The boundary of a page of the region (Table 2-4). -/
def regionBoundary (pg n : Nat) (s : State) : State :=
  if s.stopped pg then s
  else reachBoundary pg n (if s.nextBoundary pg = n then s else startBoundary pg n s)

/-- The LOAD of the folio that ends as another begins, in the three pages of the region (Tables 4-10, 5-8, 6-6). -/
def folioLoad (r : Nat) (s : State) : State :=
  if (s.regnOf r).begun.isSome then
    freshLoad F.Scr.LOAD (pgScr r) (freshLoad F.Glz.LOAD (pgGlz r) (freshLoad F.Infl.LOAD (pgInfl r) s))
  else s

/-- REGION_FOLIO_START: the region begins line 0 of a folio for the first of its ports: the folio's deadline, and the
reference instant of the region's pages (R142, R143, R193, Table 2-4). -/
def execRegionFolioStart (r : Nat) (s : State) : Out :=
  .next (match s.folioToBegin r with
    | some n =>
      if r < Config.regions ∧ s.groupWorks r n ∧ s.heldAt (pgGlz r) n = false then
        let s1 := deadline n s
        let s2 := keepOld r n (folioLoad r s1)
        let s3 := regionBoundary (pgScr r) n (regionBoundary (pgGlz r) n (regionBoundary (pgInfl r) n s2))
        let s4 := s3.updRegn r (fun x => { x with
          begun := some n
          zero := x.zero && !(s3.ready (pgGlz r) && s3.ready (pgScr r))
          zeroBelow := if x.zero && s3.ready (pgGlz r) && s3.ready (pgScr r) then some n else x.zeroBelow })
        useList r n s4
      else s
    | none => s)

/-- A function reset of a Glaze or screening page: its line buffers are lost and zero lines follow (Table 3-8). -/
def regionDiscard (r : Nat) (s : State) : State :=
  let s1 := s.updRegn r (fun x => { x with zero := true })
  forAll (portsOf r) s1 (fun p s => s.updPort p (fun x => { x with composed := x.composed.map (fun c =>
    (c.1, c.2.1, List.replicate 4096 0)) }))

end Sys2Proof.Machine
end

