-- ==== Sys2Proof/Machine/Coil.lean ====
section
/-! DEFINITION. The Coil block format and its message stream (R299 to R307), for head lanes and pair lanes alike. -/

namespace Sys2Proof.Machine

/-! ### The block -/

/-- The sync marker (R300). -/
def marker (bseq : Nat) : List Bool :=
  List.replicate 20 true ++ List.replicate 20 false ++ [true] ++
    (List.range 11).flatMap (fun i => let b := bseq / 2 ^ (10 - i) % 2 == 1; [b, !b]) ++ [false]

/-- BSEQ of a marker; none where the 64 bits are no marker. -/
def readMarker (m : List Bool) : Option Nat :=
  let b := (List.range 11).foldl (fun a i => 2 * a + (if m.getD (41 + 2 * i) false then 1 else 0)) 0
  if m = marker b then some b else none

/-- The scrambler state at bit 64 of a block (R301). -/
def scrSeed (bseq : Nat) : Nat := 0x6B5A5000 + bseq % 2048

/-- Bits XORed with the scrambler sequence from a state (R301); descrambling is the same operation. -/
def scramble : Nat → List Bool → List Bool
  | _, [] => []
  | st, b :: bs =>
    let k : Bool := (st / 2 ^ 30 % 2 == 1) != (st / 2 ^ 27 % 2 == 1)
    (b != k) :: scramble ((st * 2 + (if k then 1 else 0)) % 2 ^ 31) bs

/-- The count of equal bits after bit `b`, from the count and last counted bit before it. -/
def runNext (run : Nat) (last : Option Bool) (b : Bool) : Nat := if last = some b then run + 1 else 1

/-- Stuffing: after twelve equal counted bits one opposite bit, which is not counted (R303). -/
def stuff : Nat → Option Bool → List Bool → List Bool
  | _, _, [] => []
  | run, last, b :: bs =>
    if runNext run last b = 12 then b :: (!b) :: stuff 0 none bs else b :: stuff (runNext run last b) (some b) bs

/-- Destuffing; none where the stuffing rule is broken. `want` is the stuffing bit that must come next. -/
def destuff : Nat → Option Bool → Option Bool → List Bool → Option (List Bool)
  | _, _, none, [] => some []
  | _, _, some _, [] => none
  | run, last, none, b :: bs =>
    if runNext run last b = 12 then (destuff 0 none (some (!b)) bs).map (b :: ·)
    else (destuff (runNext run last b) (some b) none bs).map (b :: ·)
  | _, _, some w, b :: bs => if b = w then destuff 0 none none bs else none

/-- The 16 bits of a CRC, bit 15 first (R302). -/
def crcBits (c : Nat) : List Bool := (List.range 16).map (fun i => c / 2 ^ (15 - i) % 2 == 1)

/-- Block bits 64 to 2,127 with stuffing, of a payload of 256 bytes (R299 to R303). -/
def blockBody (bseq : Nat) (payload : List Byte) : List Bool :=
  stuff 0 none (scramble (scrSeed bseq) (bytesBits payload ++ crcBits (laneCrc (bytesBits payload))))

/-- A block on the line. -/
def encodeBlock (bseq : Nat) (payload : List Byte) : List Bool := marker bseq ++ blockBody bseq payload

/-- A received block body: its payload, or the kind of its error (0 CRC, 1 stuffing). -/
inductive BlockRes where
  | good (payload : List Byte)
  | bad (kind : Nat)
  deriving DecidableEq, Repr

/-- A block body destuffed, descrambled and checked (R306). -/
def decodeBlock (bseq : Nat) (bits : List Bool) : BlockRes :=
  match destuff 0 none none bits with
  | none => .bad 1
  | some d =>
    if d.length = 2064 then
      let plain := scramble (scrSeed bseq) d
      let pay := plain.take 2048
      if plain.drop 2048 = crcBits (laneCrc pay) then .good (bitsBytes 256 pay) else .bad 0
    else .bad 1

/-! ### The message stream -/

/-- What parsing finds: whole messages, the bytes of an unfinished one, and a bad message (type; 1 reserved type, 2 LEN). -/
structure Parsed where
  msgs : List Msg := []
  part : List Byte := []
  bad : Option (Nat × Nat) := none
  deriving DecidableEq, Repr

/-- Messages parsed from stream bytes (R305, R307); `fuel` bounds their number. -/
def parseMsgs (typeOk : Nat → Bool) (lenOk : Nat → Nat → Bool) : Nat → List Byte → Parsed → Parsed
  | 0, _, acc => acc
  | _ + 1, [], acc => acc
  | fuel + 1, b :: rest, acc =>
    let t := b.toNat
    if t = 0 then parseMsgs typeOk lenOk fuel rest acc
    else if typeOk t then
      match rest with
      | f :: l0 :: l1 :: body =>
        let n := l0.toNat + 256 * l1.toNat
        if lenOk t n then
          if n ≤ body.length then
            parseMsgs typeOk lenOk fuel (body.drop n) { acc with msgs := acc.msgs ++ [⟨t, f.toNat, body.take n, 0, 0⟩] }
          else { acc with part := b :: rest }
        else { acc with bad := some (t, 2) }
      | _ => { acc with part := b :: rest }
    else { acc with bad := some (t, 1) }

/-- The messages of a good block (R305 to R307): after a lost message the receiver skips CONT bytes. -/
def RxX.payload (rx : RxX) (typeOk : Nat → Bool) (lenOk : Nat → Nat → Bool) (pay : List Byte) : RxX × Parsed :=
  let cont := (pay.getD 2 0).toNat
  let area := pay.drop 4
  if rx.lost && decide (252 ≤ cont) then (rx, {})
  else
    let bytes := if rx.lost then area.drop cont else rx.part ++ area
    let p := parseMsgs typeOk lenOk bytes.length bytes {}
    ({ rx with part := p.part, lost := p.bad.isSome }, p)

/-! ### Lock -/

/-- What one received marker with its block does to a receiver. -/
structure RxOut where
  rx : RxX
  lockedNow : Bool := false
  lostNow : Bool := false
  /-- 0 CRC, 1 stuffing, 2 BSEQ -/
  err : Option Nat := none
  payload : Option (List Byte) := none
  deriving DecidableEq, Repr

/-- A miss: the fourth consecutive one loses lock (R318). -/
def RxX.missed (rx : RxX) : RxX × Bool :=
  if 4 ≤ rx.miss + 1 then ({ rx with miss := 0, good := 0, part := [], lost := true }, true)
  else ({ rx with miss := rx.miss + 1, part := [], lost := true }, false)

/-- The body of a block whose marker is good. -/
def RxX.body (rx : RxX) (bseq : Nat) (bits : List Bool) (lockedNow : Bool) : RxOut :=
  match decodeBlock bseq bits with
  | .good p => { rx := rx, lockedNow := lockedNow, payload := some p }
  | .bad k => { rx := { rx with part := [], lost := true }, lockedNow := lockedNow, err := some k }

/-- A marker `gap` bit times after the end of the one before it, and its block (R306, R317, R318). -/
def RxX.block (rx : RxX) (locked : Bool) (bseq gap : Nat) (bits : List Bool) : RxOut :=
  let b := bseq % 2048
  let next : Bool := match rx.seq with
    | some q => b == (q + 1) % 2048
    | none => false
  let rx1 := { rx with seq := some b }
  if locked then
    if next then { rx1 with miss := 0 }.body b bits false
    else
      let m := { rx1 with seqErrs := rx1.seqErrs + 1 }.missed
      { rx := m.1, lostNow := m.2, err := some 2 }
  else if next && decide (gap ≤ 2304) then
    if 4 ≤ rx1.good + 1 then { rx1 with good := 0, miss := 0, part := [], lost := true }.body b bits true
    else { rx := { rx1 with good := rx1.good + 1 } }
  else { rx := { rx1 with good := 0 } }

/-- An expected marker that is absent (R318). -/
def RxX.absent (rx : RxX) : RxX × Bool := { rx with seq := rx.seq.map (fun q => (q + 1) % 2048) }.missed

/-! ### Messages that the part sends on a head lane (R307, R308, Tables 9-7 and 9-8) -/

/-- A message with its header on the line. -/
def Msg.bytes (m : Msg) : List Byte :=
  [BitVec.ofNat 8 m.type, BitVec.ofNat 8 m.flags, BitVec.ofNat 8 m.body.length, BitVec.ofNat 8 (m.body.length / 256)] ++ m.body

/-- Levels as DATA: three bits each, 1,536 bytes (Table 9-7). -/
def levelBytes (levels : List Nat) : List Byte :=
  bitsBytes 1536 (levels.flatMap (fun v => [v % 2 == 1, v / 2 % 2 == 1, v / 4 % 2 == 1]))

/-- Levels read back from 1,536 bytes. -/
def bytesLevels (bs : List Byte) : List Nat :=
  (List.range 4096).map (fun n =>
    ((bs.getD (3 * n / 8) 0).toNat + 256 * (bs.getD (3 * n / 8 + 1) 0).toNat) / 2 ^ (3 * n % 8) % 8)

/-- A little-endian number in a message body. -/
def Msg.le (m : Msg) (off n : Nat) : Nat :=
  (List.range n).foldl (fun a i => a + (m.body.getD (off + i) 0).toNat * 256 ^ i) 0

/-- A LINE message; `levels` is none for a zero line. -/
def lineMsg (folio line phases seq ahead : Nat) (start : Bool) (levels : Option (List Nat)) : Msg :=
  let lf := (phases - 1) % 16 + (if levels.isNone then 16 else 0) + (if start then 32 else 0) + (ahead - 1) % 4 * 64
  ⟨1, 0, leBytes 4 folio ++ leBytes 3 line ++ leBytes 1 lf ++ leBytes 2 seq ++ leBytes 2 0 ++
    (match levels with
      | some l => levelBytes l
      | none => []), folio, line⟩

/-- A WAVE_SELECT message. -/
def selectMsg (table band : Nat) (tickle : Bool) : Msg :=
  ⟨3, if tickle then 1 else 0, leBytes 1 (table % 16) ++ leBytes 1 band ++ leBytes 2 0, 0, 0⟩

/-- The WAVE_LOAD messages of a table: 56 bytes each, LAST on the final one only when `whole` (R315). -/
def loadMsgs (table : Nat) (bs : List Byte) (whole : Bool) : List Msg :=
  let n := (bs.length + 55) / 56
  (List.range n).map (fun k =>
    ⟨2, if whole && k + 1 == n then 1 else 0, leBytes 1 (table % 16) ++ leBytes 2 (56 * k) ++ leBytes 1 0 ++ (bs.drop (56 * k)).take 56,
      0, 0⟩)

/-- A BRIDGE_CONFIG message. -/
def bcfgMsg (addr : Nat) (words : List Nat) : Msg := ⟨4, 0, leBytes 2 addr ++ leBytes 2 0 ++ words.flatMap (leBytes 4), 0, 0⟩

/-! ### The transmitter (R300, R303 to R305, R320) -/

/-- The header of an outgoing block (Table 9-4); `unit` is its byte 3. -/
def blockHead (lease cont unit : Nat) : List Byte := leBytes 2 lease ++ leBytes 1 cont ++ leBytes 1 (unit % 64)

/-- Bytes of a message begun in an earlier block that the next message area continues. -/
def TxX.cont (t : TxX) : Nat := if t.mid then min 252 (t.left.headD []).length else 0

/-- A block begins: its header depends on the state at its start only (R305). -/
def TxX.begin (t : TxX) (lease unit seq start : Nat) : TxX :=
  { t with on := true, gen := none, seq := seq % 2048, start := start, head := blockHead lease t.cont unit, area := [] }

/-- The next message-area byte is chosen: a byte of the message in progress, or fill (R305). -/
def TxX.choose (t : TxX) : TxX :=
  match t.left with
  | [] => { t with area := t.area ++ [0] }
  | [] :: rest => { t with left := rest, mid := false }
  | (b :: m) :: rest =>
    if m.isEmpty then { t with area := t.area ++ [b], left := rest, mid := false }
    else { t with area := t.area ++ [b], left := m :: rest, mid := true }

/-- Bits on the line from a block's marker to the end of the payload bytes so far, stuffing bits with them. -/
def TxX.sentBits (t : TxX) : Nat := 64 + (stuff 0 none (scramble (scrSeed t.seq) (bytesBits (t.head ++ t.area)))).length

/-- The block in progress as it stands on the line, once its area is full. -/
def TxX.block (t : TxX) : List Bool := encodeBlock t.seq (t.head ++ t.area)

/-- The message area of the block is full: its CRC goes, and the next block begins behind it. -/
def TxX.full (t : TxX) : Bool := t.area.length == 252

/-- The instant, in 1/32 ns, of the next byte or of the next block's marker; `bit_` is the time of a bit. -/
def TxX.next (t : TxX) (bit_ : Nat) : Nat := t.start + bit_ * (if t.full then t.block.length else t.sentBits)

/-- One byte chosen, or the block ended and the next one begun. -/
def TxX.step (t : TxX) (lease unit bit_ : Nat) : TxX :=
  if t.full then { t with last := t.block }.begin lease unit (t.seq + 1) (t.next bit_) else t.choose

/-- The next bit of the test sequence of x^31 + x^28 + 1 from a shift register. -/
def genBit (g : Nat) : Bool := (g / 2 ^ 30 % 2 == 1) != (g / 2 ^ 27 % 2 == 1)

/-- The shift register after that bit. -/
def genNext (g : Nat) : Nat := (g * 2 + (if genBit g then 1 else 0)) % 2 ^ 31

/-- Time of a bit in 1/32 ns: 6.4, 3.2 and 1.6 Gbit/s (Table 9-12). -/
def bitTime (rate : Nat) : Nat := if rate = 0 then 20 else if rate = 1 then 10 else 5

end Sys2Proof.Machine
end

