-- ==== Sys2Proof/Machine/Lane.lean ====
section
/-! DEFINITION. Coil head lanes, pages 0x050 to 0x05B: the order of messages, waveform selection and download, bridge
settings, and what a return lane's messages do (R297 to R324). -/

namespace Sys2Proof.Machine

/-- A field of lane `p`: page and instance. -/
def State.laneGet (s : State) (f : Fld) (p : Nat) : Nat := s.getI f (pgLane (p / 4)) (p % 4)
def State.laneOn (s : State) (f : Fld) (p : Nat) : Bool := s.laneGet f p == 1
def State.laneSet (s : State) (f : Fld) (p v : Nat) : State := s.setI f (pgLane (p / 4)) (p % 4) v

/-- The lane PLL of a lane's cluster is locked. -/
def State.pllLocked (s : State) (p : Nat) : Bool := s.on F.Clu.PLL_LOCKED (pgClu (p / 4))

/-- Blocks or a test sequence are being sent (Table 9-12). -/
def State.txActive (s : State) (p : Nat) : Bool :=
  s.laneOn F.Lane.TX_EN p && s.pllLocked p && s.ready (pgLane (p / 4))

/-- The lane transmits blocks (R313). -/
def State.transmits (s : State) (p : Nat) : Bool := s.txActive p && !s.laneOn F.Lane.TEST p

/-- The lane fields that are views (Table 9-12, R320); `i` is the lane of the page. -/
def State.viewLane (s : State) (f : Fld) (c i : Nat) : Option Nat :=
  let p := 4 * c + i
  if f == F.Lane.TX_ACTIVE then some (bit (s.txActive p))
  else if f == F.Lane.LANE_SUMMARY_BRIDGE_ALIVE then
    some ((List.range 4).foldl (fun a k => a + s.laneGet F.Lane.LANE_STATUS_BRIDGE_ALIVE (4 * c + k) * 2 ^ k) 0)
  else if f == F.Lane.LANE_SUMMARY_RX_LOCKED then
    some ((List.range 4).foldl (fun a k => a + s.laneGet F.Lane.LANE_STATUS_RX_LOCKED (4 * c + k) * 2 ^ k) 0)
  else if f == F.Lane.RX_CRC_ERRORS && s.laneOn F.Lane.TEST p then some (s.laneOf p).test.errs
  else none

/-- The argument of a lane event: upper word, low bits above the lane, lane (Table 9-13). -/
def laneArg (p hi low_ : Nat) : Nat := arg64 hi (low_ * 4 + p % 4)

/-- An event of a lane. -/
def laneRaise (e : Ev) (p hi low_ : Nat) (s : State) : State := s.raise e (pgLane (p / 4)) (laneArg p hi low_)

/-! ### Lines that do not reach the bridge -/

/-- An underrun of a port on a line (R281). -/
def underrun (p n l : Nat) (s : State) : State :=
  (s.satI F.Port.UNDERRUN_LINES (pgPort p) 0 1).raise Ev.fireUnderrun (pgPort p) (arg64 n (low 24 l * 256 + p))

/-- A LINE is discarded because its lane does not transmit blocks: the port counts an underrun, and the line counts as a
zero line that has been dealt with (R313). -/
def lineLost (p n l : Nat) (s : State) : State :=
  (underrun p n l s).updPort p (fun x => { x with
    recClean := false
    slots := x.slots.map (fun q => if q.folio == n && q.line == l then { q with done := true, zero := true, data := none } else q) })

/-- The lane stops transmitting blocks: LINEs are discarded, other messages wait again (R313). -/
def laneStop (p : Nat) (s : State) : State :=
  let x := s.laneOf p
  let cur := x.cur.toList
  let gone := (cur ++ x.lines).filter (fun m => m.type == 1)
  let s1 := s.updLane p (fun x => { x with
    cur := none, lines := [], tx := {}
    selects := (cur.filter (fun m => m.type == 3)).map (fun m => m.flags == 1) ++ x.selects
    bcfg := (cur.find? (fun m => m.type == 4)).or x.bcfg
    loads := cur.filter (fun m => m.type == 2) ++ x.loads })
  forAll gone s1 (fun m s => lineLost p m.folio m.line s)

/-- A change that may stop the lane, applied. -/
def laneChange (p : Nat) (f : State → State) (s : State) : State :=
  let s1 := f s
  if s.transmits p && !s1.transmits p then laneStop p s1 else s1

/-- A LINE reaches its send point at the lane (R280, R313). -/
def laneLine (p : Nat) (m : Msg) (s : State) : State :=
  if s.transmits p then s.updLane p (fun x => { x with lines := x.lines ++ [m] }) else lineLost p m.folio m.line s

/-! ### Waveform selection (R314) -/

/-- The head's present band (R554). -/
def State.headBand (s : State) (p : Nat) : Nat :=
  let f := match p % 4 with
    | 0 => F.Thm.HS_BAND_0
    | 1 => F.Thm.HS_BAND_1
    | 2 => F.Thm.HS_BAND_2
    | _ => F.Thm.HS_BAND_3
  s.getI f 0x0A9 (p / 4)

/-- A WAVE_SELECT is required: the tickle form, or the form of the present band. -/
def requireSelect (p : Nat) (tickle : Bool) (s : State) : State :=
  s.updLane p (fun x => { x with
    selects := x.selects ++ [tickle]
    band := if tickle then none else some (s.headBand p) })

/-- A selection is required where the band has changed since the last one. -/
def selectOnBand (p : Nat) (s : State) : State :=
  if (s.laneOf p).band = some (s.headBand p) then s else requireSelect p false s

/-- The table of a WAVE_SELECT. -/
def State.selectTable (s : State) (p : Nat) (tickle : Bool) : Nat :=
  if tickle then s.get F.Port.TICKLE_WAVE (pgPort p) else bits (s.laneGet F.Lane.BAND_MAP p) (4 * s.headBand p) 4

/-- A table may be selected: it is not marked bad and is not being downloaded (R314, R316). -/
def State.selectable (s : State) (p t : Nat) : Bool :=
  !bitAt (s.laneGet F.Lane.WAVE_BAD p) t && !(s.laneGet F.Lane.WAVE_DL_STATE p == 1 && (s.laneOf p).dlTable == t)

/-! ### Messages -/

/-- The lane begins a message, whose bytes follow those before it (R305). -/
def startMsg (p : Nat) (m : Msg) (f : LaneX → LaneX) (s : State) : State :=
  s.updLane p (fun x => { f x with cur := some m, tx := { x.tx with left := x.tx.left ++ [m.bytes] } })

/-- The WAVE_SELECT that may go: a later one replaces those that are deferred before it. -/
def firstSelect (s : State) (p : Nat) : List Bool → Option (Bool × List Bool)
  | [] => none
  | t :: rest => if s.selectable p (s.selectTable p t) then some (t, rest) else firstSelect s p rest

/-- The next message that waits, in the order of R311. -/
def nextMessage (p : Nat) (s : State) : State :=
  let x := s.laneOf p
  match firstSelect s p x.selects with
  | some (t, rest) =>
    let tab := s.selectTable p t
    (startMsg p (selectMsg tab (if t then 0xFF else s.headBand p) t) (fun x => { x with selects := rest, selected := some tab })
      s).laneSet F.Lane.SELECTED_TABLE p tab
  | none =>
    match x.lines, x.bcfg, x.loads with
    | m :: rest, _, _ => startMsg p m (fun x => { x with lines := rest }) s
    | [], some m, _ => startMsg p m (fun x => { x with bcfg := none }) s
    | [], none, m :: rest => startMsg p m (fun x => { x with loads := rest }) s
    | [], none, [] => s

/-- LANE_MESSAGE_START (R305, R311, R313). -/
def execLaneMessageStart (port : Nat) (s : State) : Out :=
  .next (if port < Config.ports ∧ s.transmits port ∧ (s.laneOf port).cur = none then nextMessage port s else s)

/-- LANE_PLL_LOCK: enabled lanes transmit from this instant (R297, R313). -/
def execLanePllLock (c : Nat) (s : State) : Out :=
  .next (if c < Config.clusters ∧ s.get F.Mode.MODE pgMode ≠ 0 ∧ s.mode.porst = false then s.set F.Clu.PLL_LOCKED (pgClu c) 1
  else s)

/-- The end of a message that is no LINE: BRIDGE_CONFIG, and the final WAVE_LOAD, which starts the wait of R316. -/
def messageSent (p : Nat) (m : Msg) (s : State) : State :=
  if m.type = 4 then s.laneSet F.Lane.BCFG_PENDING p 0
  else if m.type = 2 ∧ m.flags = 1 then s.updLane p (fun x => { x with dlSent := some s.now })
  else s

/-! ### Waveform download (R315, R316) -/

/-- The register word of lane `p` at a lane offset. -/
def laneOff (p off : Nat) : Nat := 0x100 + 0x80 * (p % 4) + off

/-- The download ends as failed. -/
def downloadFail (p reason : Nat) (s : State) : State :=
  let t := (s.laneOf p).dlTable
  let s1 := (s.laneSet F.Lane.WAVE_DL_STATE p 3).laneSet F.Lane.WAVE_BAD p (setBit (s.laneGet F.Lane.WAVE_BAD p) t)
  laneRaise Ev.laneWaveLoadFail p (s.laneGet F.Lane.WAVE_DL_CRC p) (t * 64 + reason * 4)
    (s1.updLane p (fun x => { x with dlSent := none }))

/-- Why a download is refused, 0 where it is not (R315). -/
def State.downloadReason (s : State) (p table len : Nat) : Nat :=
  if (s.laneOf p).selected = some table then 1
  else if len = 0 ∨ 4096 < len then 2
  else if s.laneGet F.Lane.WAVE_DL_STATE p = 1 then 3
  else 0

/-- A download; `poison` is the first byte of its source that its reads find poisoned. DESIGN CHOICE: reads that wait for a channel
of SDRAM give what it holds at GO (R124, log 79). -/
def download (p table len : Nat) (poison : Option Nat) (s : State) : State :=
  let r := s.downloadReason p table len
  if r ≠ 0 then laneRaise Ev.laneWaveDlRefused p 0 (table * 64 + r * 4) s
  else
    let a := s.laneGet F.Lane.WAVE_DL_SRC_LO p + s.laneGet F.Lane.WAVE_DL_SRC_HI p * 2 ^ 32
    let src := s.sysBytes a len
    let bad := (firstPoison poison (s.sysPoison a len)).filter (fun k => decide (k < len))
    let sent := match bad with
      | some k => src.take (k / 56 * 56)
      | none => src
    let s0 := sysRead 5 a (match bad with
      | some k => k + 1
      | none => len) s
    let s1 := (s0.laneSet F.Lane.WAVE_DL_STATE p 1).laneSet F.Lane.WAVE_DL_CRC p (crc32 sent)
    let s2 := s1.updLane p (fun x => { x with dlTable := table, dlSent := none, loads := loadMsgs table sent bad.isNone })
    if bad.isSome then downloadFail p 3 s2 else s2

/-- WAVE_DL_GO: a write of WAVE_DL_CTRL with GO (R315). -/
def execWaveDlGo (port table len : Nat) (poison : Option Nat) (owner : Nat) (s : State) : Out :=
  let t := low 4 table
  let n := low 13 len
  .next (if port < Config.ports then
    gateReg (pgLane (port / 4)) (laneOff port 0x18) (n * 65536 + t * 256 + 1) owner (fun s =>
      download port t n poison ((s.laneSet F.Lane.LEN port n).laneSet F.Lane.TABLE port t)) s
  else s)

/-- WAVE_DL_TIMEOUT: no matching STATUS within 1 ms (R316). -/
def execWaveDlTimeout (port : Nat) (s : State) : Out :=
  .next (match (s.laneOf port).dlSent with
    | some t => if s.laneGet F.Lane.WAVE_DL_STATE port = 1 ∧ t + 1000000 ≤ s.now then downloadFail port 2 s else s
    | none => s)

/-- The BCFG_WORD registers. -/
def bcfgWord (k : Nat) : Fld := { F.Lane.BCFG_WORD_0 with off := 0x130 + 4 * k }

/-- A 1 written to BCFG_SEND: ignored while BCFG_PENDING is 1 (R309, R323). -/
def bcfgSend (port : Nat) (s : State) : State :=
  if s.laneOn F.Lane.BCFG_PENDING port then s
  else
    let ws := (List.range (s.laneGet F.Lane.WORDS_M1 port + 1)).map (fun k => s.laneGet (bcfgWord k) port)
    (s.updLane port (fun x => { x with bcfg := some (bcfgMsg (s.laneGet F.Lane.BCFG_CTRL_ADDR port) ws) })).laneSet
      F.Lane.BCFG_PENDING port 1

/-- BCFG_SEND (R309, R323). -/
def execBcfgSend (port owner : Nat) (s : State) : Out :=
  .next (if port < Config.ports then gateReg (pgLane (port / 4)) (laneOff port 0x28) 1 owner (bcfgSend port) s else s)

/-! ### Return messages (R319, Table 9-10) -/

/-- A good STATUS ends the wait of R316 when it names the table. -/
def statusDownload (p : Nat) (m : Msg) (s : State) : State :=
  let x := s.laneOf p
  if x.dlSent.isSome ∧ s.laneGet F.Lane.WAVE_DL_STATE p = 1 ∧ m.le 3 1 / 16 = x.dlTable then
    if m.le 4 4 = s.laneGet F.Lane.WAVE_DL_CRC p then
      ((s.laneSet F.Lane.WAVE_DL_STATE p 2).laneSet F.Lane.WAVE_BAD p
        (clearBit (s.laneGet F.Lane.WAVE_BAD p) x.dlTable)).updLane p (fun x => { x with dlSent := none })
    else downloadFail p 1 s
  else s

/-- A good STATUS (R316, R319). -/
def statusMsg (p : Nat) (m : Msg) (s : State) : State :=
  let x := s.laneOf p
  let flags := m.le 2 1
  let s1 := (((s.laneSet F.Lane.ACTIVE_TABLE p (m.le 3 1)).laneSet F.Lane.CFG_COUNT p (m.le 10 1)).laneSet
    F.Lane.IN_STEP p (flags / 8)).laneSet F.Lane.BRIDGE_LINE_MISSING p (m.le 8 2)
  let s2 := (s1.laneSet F.Lane.LANE_STATUS_BRIDGE_ALIVE p 1).updLane p (fun x => { x with
    lastStatus := some s.now, fault := bitAt flags 4, bothHold := bitAt flags 6 })
  let s3 := if bitAt flags 4 && !x.fault then laneRaise Ev.laneBridgeFault p 0 (m.le 11 1 * 64) s2 else s2
  let s4 := if bitAt flags 6 && !x.bothHold then laneRaise Ev.laneLeaseConflict p 0 (m.le 12 2 % 2 ^ 14 * 2 ^ 14) s3 else s3
  statusDownload p m s4

/-- A good TEMP (R319). -/
def tempMsg (p : Nat) (m : Msg) (s : State) : State :=
  (((s.laneSet F.Lane.SENSOR_0 p (m.le 0 2)).laneSet F.Lane.SENSOR_1 p (m.le 2 2)).laneSet F.Lane.TEMP_STALE p 0).updLane p
    (fun x => { x with lastTemp := some s.now, drive := m.le 4 2 })

/-- A message of a return lane; the types that bridges do not send have no effect. -/
def returnMsg (p : Nat) (m : Msg) (s : State) : State :=
  if m.type = 0x41 then statusMsg p m s else if m.type = 0x42 then tempMsg p m s else s

/-- The types of Table 9-5. -/
def headType (t : Nat) : Bool := decide (1 ≤ t ∧ t ≤ 4) || t == 0x41 || t == 0x42

/-- The lengths of Table 9-5. -/
def headLen (t n : Nat) : Bool :=
  match t with
  | 1 => n == 12 || n == 1548
  | 2 => decide (5 ≤ n ∧ n ≤ 60)
  | 3 => n == 4
  | 4 => decide (8 ≤ n ∧ n ≤ 56 ∧ n % 4 = 0)
  | 0x41 => n == 16
  | _ => n == 8

/-- The return receiver works (R313, R320). -/
def State.rxOn (s : State) (p : Nat) : Bool :=
  s.laneOn F.Lane.RX_EN p && s.ready (pgLane (p / 4)) && !s.laneOn F.Lane.TEST p

/-- The return receiver is looped to the lane's own transmitter (R320). -/
def State.looped (s : State) (p : Nat) : Bool := s.laneOn F.Lane.NEAR_LOOP p

/-- RX_LOCKED of a head lane. -/
def State.rxLocked (s : State) (p : Nat) : Bool := s.laneOn F.Lane.LANE_STATUS_RX_LOCKED p

/-- A return lane loses lock (R318). -/
def laneLost (p : Nat) (s : State) : State :=
  let s1 := (s.laneSet F.Lane.LANE_STATUS_RX_LOCKED p 0).satI F.Lane.LOCK_LOSS_COUNT (pgLane (p / 4)) (p % 4) 1
  laneRaise Ev.laneRxLockLost p (s1.laneGet F.Lane.RX_BLOCKS p) 0 s1

/-- A discarded block counts and raises its event (R306, Table 9-13). -/
def blockError (p kind : Nat) (s : State) : State :=
  let s1 := match kind with
    | 0 => s.satI F.Lane.RX_CRC_ERRORS (pgLane (p / 4)) (p % 4) 1
    | 1 => s.satI F.Lane.RX_STUFF_ERRORS (pgLane (p / 4)) (p % 4) 1
    | _ => s
  let n := match kind with
    | 0 => s1.laneGet F.Lane.RX_CRC_ERRORS p
    | 1 => s1.laneGet F.Lane.RX_STUFF_ERRORS p
    | _ => (s1.laneOf p).rx.seqErrs
  laneRaise Ev.laneRxBlockError p n (kind * 4) s1

/-- A good block of a return lane (R304 to R307, R319). -/
def goodBlock (p : Nat) (pay : List Byte) (s : State) : State :=
  let port := (pay.getD 3 0).toNat % 64
  let s1 := s.wrapI F.Lane.RX_BLOCKS (pgLane (p / 4)) (p % 4) 1
  let s2 := if port ≠ p ∧ (s1.laneOf p).wrongPort = false then
      laneRaise Ev.laneWrongPort p 0 (port * 64) (s1.updLane p (fun x => { x with wrongPort := true }))
    else s1
  let r := (s2.laneOf p).rx.payload headType headLen pay
  let s3 := forAll r.2.msgs (s2.updLane p (fun x => { x with rx := r.1 })) (returnMsg p)
  match r.2.bad with
  | some (t, why) =>
    laneRaise Ev.laneMsgBad p 0 (t * 64 + why * 4) (s3.satI F.Lane.RX_MSG_BAD (pgLane (p / 4)) (p % 4) 1)
  | none => s3

/-- An expected marker of a head return lane is absent (R318). -/
def laneMiss (p : Nat) (s : State) : State :=
  if s.rxOn p ∧ s.rxLocked p then
    let m := (s.laneOf p).rx.absent
    let s1 := s.updLane p (fun x => { x with rx := m.1 })
    if m.2 then laneLost p s1 else s1
  else s

/-- A block on a head return lane (R306, R317, R318). -/
def laneBlock (p bseq gap : Nat) (line : List Bool) (s : State) : State :=
  if s.rxOn p then
    let o := (s.laneOf p).rx.block (s.rxLocked p) bseq gap line
    let s1 := s.updLane p (fun x => { x with rx := o.rx, wrongPort := x.wrongPort && !o.lockedNow })
    let s2 := if o.lockedNow then s1.laneSet F.Lane.LANE_STATUS_RX_LOCKED p 1 else s1
    let s3 := match o.err with
      | some k => blockError p k s2
      | none => s2
    let s4 := match o.payload with
      | some pay => goodBlock p pay s3
      | none => s3
    if o.lostNow then laneLost p s4 else s4
  else s

/-- STATUS_RECEIVED (R319): `body` is the 16 bytes of Table 9-10. -/
def execStatusReceived (port : Nat) (body : List Byte) (s : State) : Out :=
  .next (if port < Config.ports ∧ s.rxOn port ∧ s.rxLocked port ∧ s.looped port = false ∧ body.length = 16 then
    statusMsg port ⟨0x41, 0, body, 0, 0⟩ s else s)

/-- TEMP_RECEIVED (R319): `body` is the 8 bytes of Table 9-10. -/
def execTempReceived (port : Nat) (body : List Byte) (s : State) : Out :=
  .next (if port < Config.ports ∧ s.rxOn port ∧ s.rxLocked port ∧ s.looped port = false ∧ body.length = 8 then
    tempMsg port ⟨0x42, 0, body, 0, 0⟩ s else s)

/-- BRIDGE_SILENT: no good STATUS for 1 ms (R319). -/
def execBridgeSilent (port : Nat) (s : State) : Out :=
  .next (if port < Config.ports ∧ s.laneOn F.Lane.LANE_STATUS_BRIDGE_ALIVE port ∧
      ((s.laneOf port).lastStatus.getD 0) + 1000000 ≤ s.now then
    laneRaise Ev.laneBridgeSilent port 0 0 (s.laneSet F.Lane.LANE_STATUS_BRIDGE_ALIVE port 0)
  else s)

/-- LANE_TEMP_STALE: no good TEMP for 10 ms (R319). -/
def execLaneTempStale (port : Nat) (s : State) : Out :=
  .next (if port < Config.ports ∧ s.ready (pgLane (port / 4)) ∧ !s.laneOn F.Lane.TEMP_STALE port ∧
      ((s.laneOf port).lastTemp.getD 0) + 10000000 ≤ s.now then
    laneRaise Ev.laneTempStale port 0 0 (s.laneSet F.Lane.TEMP_STALE port 1)
  else s)

/-! ### Test mode (R320) -/

/-- One bit at the receiver of the test sequence: before lock it is compared with the recurrence over the bits before it,
after lock with the sequence that runs on. -/
def TestX.step (t : TestX) (b : Bool) : TestX :=
  let want : Bool := (t.hist / 2 ^ 30 % 2 == 1) != (t.hist / 2 ^ 27 % 2 == 1)
  let next := fun (d : Bool) => (t.hist * 2 + (if d then 1 else 0)) % 2 ^ 31
  if t.lock then { t with hist := next want, errs := if b = want then t.errs else min (t.errs + 1) (2 ^ 32 - 1) }
  else
    let ok := decide (31 ≤ t.seen) && t.hist != 0 && b == want
    let run := if ok then t.run + 1 else 0
    { t with hist := next b, seen := min (t.seen + 1) 31, run := run, lock := decide (64 ≤ run) }

/-- The return receiver checks the test sequence. -/
def State.testOn (s : State) (p : Nat) : Bool :=
  s.laneOn F.Lane.TEST p && s.laneOn F.Lane.RX_EN p && s.ready (pgLane (p / 4))

/-- TEST_SEQUENCE_LOCK: bits of the test sequence at a return receiver (R320). -/
def execTestSequenceLock (port : Nat) (line : List Bool) (s : State) : Out :=
  .next (if port < Config.ports ∧ s.testOn port ∧ s.looped port = false then
    s.updLane port (fun x => { x with test := line.foldl TestX.step x.test })
  else s)

/-! ### Function reset and READY (R323, Table 3-8) -/

/-- What a function reset of a lane page discards: a download in progress ends as failed. -/
def laneDiscard (c : Nat) (s : State) : State :=
  forAll ((List.range 4).map (4 * c + ·)) s (fun p s =>
    let s1 := if s.laneGet F.Lane.WAVE_DL_STATE p = 1 then downloadFail p 2 s else s
    let s2 := laneStop p s1
    { s2 with lane := tput s2.lane p { lastTemp := some s.now, drive := (s2.laneOf p).drive } })

end Sys2Proof.Machine
end

