-- ==== Sys2Proof/Machine/Position.lean ====
section
/-! DEFINITION. Position channels, their observers and replicas, pulse dividers and compare units (R225 to R259). `ph` is the
phase bin of an edge at the ball (Table 1-10). Instants of measurements are in 1/16 fclk. -/

namespace Sys2Proof.Machine

/-- Page of channel `ch`. -/
def pgPos (ch : Nat) : Nat := 0x008 + ch

/-- Page of the dividers. -/
def pgDiv : Nat := 0x00C

/-- Page of the compare units. -/
def pgCmp : Nat := 0x00D

/-- What a channel holds. -/
def State.posOf (s : State) (ch : Nat) : PosX := tget s.pos ch {}

/-- The state with a channel changed. -/
def State.updPos (s : State) (ch : Nat) (f : PosX → PosX) : State := { s with pos := tput s.pos ch (f (s.posOf ch)) }

/-- The replica of a die: 0 hub, 1 raster die 0, 2 raster die 1. -/
def PosX.rep (p : PosX) (die : Nat) : Replica :=
  match die with
  | 0 => p.hub
  | 1 => p.r0
  | _ => p.r1

/-- Every replica of a bit mask of dies changed. -/
def PosX.upd (p : PosX) (reps : Nat) (f : Replica → Replica) : PosX :=
  { p with
    hub := if bitAt reps 0 then f p.hub else p.hub
    r0 := if bitAt reps 1 then f p.r0 else p.r0
    r1 := if bitAt reps 2 then f p.r1 else p.r1 }

/-- Difference of two counts modulo 2^48, signed (R237). -/
def diff48 (a b : Nat) : Int := sext 48 (a + 2 ^ 48 - low 48 b)

/-- A count moved by a signed number of counts (R237). -/
def addCount (c : Nat) (d : Int) : Nat := unsext 48 ((c : Int) + d)

/-- A real difference of counts reduced to half a count range on either side of zero (R237). -/
def wrapReal (r : Rat) : Rat := r - 2 ^ 48 * ((r + 2 ^ 47) / 2 ^ 48).floor

/-! ### Observer -/

/-- The observer starts from the count with no speed (R243). -/
def Replica.restart (now : Nat) (r : Replica) : Replica :=
  { r with x := r.count, v := 0, a := 0, since := now, started := now, meas := none, run := 0, locked := false }

/-- The position x + v tau + a tau^2 / 2 at an instant in fclk (R241). -/
def Replica.real (r : Replica) (t : Nat) : Rat :=
  let tau : Rat := ((t - r.since : Nat) : Rat)
  r.x + r.v * tau + r.a * tau * tau / 2

/-- The interpolated position, 48.16, rounded towards minus infinity (R241). -/
def Replica.position (r : Replica) (t : Nat) : Nat := unsext 64 (r.real t * 65536).floor

/-- The measurement of a count change, at an instant in 1/16 fclk; one taken before a restart is not used (R239, R243). -/
def Replica.measure (r : Replica) (m t16 : Nat) : Replica :=
  if r.started * 16 ≤ t16 then { r with meas := some (m, t16) } else r

/-- omega T of R240. -/
def omegaT (bw : Nat) : Rat := 2 * Config.pi * bw / 1000000

/-- The innovation of a tick from the predicted position and speed (R239). -/
def Replica.innovation (r : Replica) (now : Nat) (xp vp : Rat) : Rat :=
  match r.meas with
  | some (m, t16) =>
    let tau : Rat := (now : Rat) - (t16 : Rat) / 16
    wrapReal (m - (xp - vp * tau + r.a * tau * tau / 2))
  | none =>
    let d := wrapReal (xp - r.count)
    if 1 < d then 1 - d else if d < 0 then -d else 0

/-- One update tick: the new replica and its innovation e (R239, R240, R242). -/
def Replica.tick (bw lockTol unlockTol now : Nat) (r : Replica) : Replica × Rat :=
  let dt : Rat := ((now - r.since : Nat) : Rat)
  let xp := r.x + r.v * dt + r.a * dt * dt / 2
  let vp := r.v + r.a * dt
  let e := r.innovation now xp vp
  let w := omegaT bw
  let size := if e < 0 then -e else e
  let run := if size ≤ (lockTol : Rat) / 64 then min (r.run + 1) 1000 else 0
  let locked := if r.locked then decide (size ≤ (unlockTol : Rat) / 64) else decide (1000 ≤ run)
  ({ r with
     x := xp + 3 * w * e, v := vp + 3 * (w * w) * e / 1000, a := r.a + w * w * w * e / 1000000
     since := now, meas := none, run := run, locked := locked }, e)

/-- The instant for which a channel's observer answers: it holds while ENABLE is 0 (R225). -/
def State.obsTime (s : State) (ch : Nat) : Nat := (s.posOf ch).heldAt.getD s.now

/-- The interpolated position of a channel's replica on a die, now. -/
def State.posNow (s : State) (ch die : Nat) : Nat := ((s.posOf ch).rep die).position (s.obsTime ch)

/-- The count of a channel's replica on a die. -/
def State.countNow (s : State) (ch die : Nat) : Nat := ((s.posOf ch).rep die).count

/-- The body fields of a channel page that are views of its hub replica (R256). -/
def State.viewPos (s : State) (f : Fld) (ch : Nat) : Option Nat :=
  let p := s.posOf ch
  if f == F.Pos.COUNT_LO then some (low 32 p.hub.count)
  else if f == F.Pos.COUNT_HI then some (p.hub.count / 2 ^ 32)
  else if f == F.Pos.POS_LO then some (low 32 (s.posNow ch 0))
  else if f == F.Pos.POS_HI then some (s.posNow ch 0 / 2 ^ 32)
  else if f == F.Pos.OBS_LOCKED then some (bit p.hub.locked)
  else if f == F.Pos.INDEX_REF_VALID then some (bit p.hub.ref.isSome)
  else if f == F.Pos.SSI_VALID then some (bit p.hub.ssi.isSome)
  else none

/-- SPEED and ACCEL as the hub's observer has them (Table 7-5); their rounding is not stated. -/
def showSpeed (ch : Nat) (s : State) : State :=
  let r := (s.posOf ch).hub
  (s.set F.Pos.SPEED (pgPos ch) (unsext 32 (Config.roundReal (r.v * 1000000000 * 16)))).set F.Pos.ACCEL (pgPos ch)
    (unsext 32 (Config.roundReal (r.a * 1000000000 * 1000000000)))

/-- Every replica of a channel restarts (R243). -/
def obsRestart (ch : Nat) (s : State) : State :=
  let s1 := s.updPos ch (fun p => p.upd 7 (Replica.restart s.now))
  (s1.set F.Pos.SPEED (pgPos ch) 0).set F.Pos.ACCEL (pgPos ch) 0

/-- ENABLE of a channel becomes 1 (R225, R236, R243). -/
def posStart (ch : Nat) (s : State) : State :=
  obsRestart ch (s.updPos ch (fun p => { p.upd 7 (fun r => { r with ssi := none }) with heldAt := none, frame := none }))

/-- ENABLE of a channel becomes 0: count and observer state hold (R225). -/
def posStop (ch : Nat) (s : State) : State := s.updPos ch (fun p => { p with heldAt := some s.now, frame := none })

/-- What a function reset of a channel discards (R243, Table 3-8). -/
def posDiscard (ch : Nat) (s : State) : State :=
  (obsRestart ch s).updPos ch (fun p => { p.upd 7 (fun r => { r with ssi := none }) with
    heldAt := some s.now, frame := none, lastStart := none, gapEnd := 0 })

/-- The channel decodes in a mode and counts (R225). -/
def State.chMode (s : State) (ch m : Nat) : Bool := s.get F.Pos.MODE (pgPos ch) == m

/-- The channel counts: its ENABLE is 1 (R225). -/
def State.chOn (s : State) (ch : Nat) : Bool := s.on F.Hdr.ENABLE (pgPos ch)

/-! ### Glitch filters (R226) -/

/-- The sampled level of ball `k` of a replica: 0 and 1 B and A, 2 Z, 4 to 6 W, V and U. -/
def Replica.level (k : Nat) (r : Replica) : Bool := (tget r.raw k (false, 0, 0)).1

/-- The balls from key `base` on are sampled at levels `v`. -/
def Replica.sample (base width v now ph : Nat) (r : Replica) : Replica :=
  { r with raw := (List.range width).foldl (fun t b =>
      if (tget t (base + b) (false, 0, 0)).1 != bitAt v b then tput t (base + b) (bitAt v b, now, ph) else t) r.raw }

/-- The filtered levels of the balls from key `base` on, where they were `old`: a sampled level passes `g` fclk after it changed,
when it has not changed back. -/
def Replica.filtered (base width old g now : Nat) (r : Replica) : Nat :=
  (List.range width).foldl (fun a b =>
    let x := tget r.raw (base + b) (false, 0, 0)
    a + bit (if x.1 != bitAt old b && decide (x.2.1 + g ≤ now) then x.1 else bitAt old b) * 2 ^ b) 0

/-- The phase bin of the edge that has passed on one of the balls from key `base` on. -/
def Replica.phaseOf (base width old new : Nat) (r : Replica) : Nat :=
  (((List.range width).find? (fun b => bitAt old b != bitAt new b)).map (fun b => (tget r.raw (base + b) (false, 0, 0)).2.2)).getD 0

/-- The filter is bypassed. -/
def State.unfiltered (s : State) (ch : Nat) : Bool := s.get F.Pos.GLITCH (pgPos ch) == 0

/-- The instant at the ball of an edge that is decoded now: 3 fclk and the glitch filter earlier, in its phase bin (R226,
R253, Table 1-10). -/
def State.edgeAt (s : State) (ch ph : Nat) : Nat := (s.now - 3 - s.get F.Pos.GLITCH (pgPos ch)) * 16 + ph % 16

/-- A sign with DIR_INVERT applied (R227, R232). -/
def State.dirInv (s : State) (ch : Nat) (d : Int) : Int := if s.on F.Pos.DIR_INVERT (pgPos ch) then -d else d

/-! ### Dividers -/

/-- The divider runs (R248): EN and the page's ENABLE. -/
def State.divOn (s : State) (d : Nat) : Bool := s.onI F.Div.DIV_CFG_EN pgDiv d && s.on F.Hdr.ENABLE pgDiv

/-- The output of a divider is at its active level at the ball (R247). -/
def State.divActive (s : State) (d : Nat) : Bool :=
  (tget s.div d {}).spans.any (fun x => decide (x.1 ≤ s.now) && decide (s.now < x.2))

/-- DIV_OUT_d: the level that DIV_CFG.POL selects while it is active (R247). -/
def State.divOut (s : State) (d : Nat) : Bool := s.divActive d != s.onI F.Div.POL pgDiv d

/-- A due pulse: emitted 3 fclk after the decode cycle, or lost (R247). The answer tells whether it was emitted. -/
def divPulse (d : Nat) (s : State) : State × Bool :=
  let x := tget s.div d {}
  let t := s.now + 3
  if x.spans.any (fun y => decide (t < y.2 + 2)) then
    let s1 := s.satI F.Div.LOST_COUNT pgDiv d 1
    (s1.raise Ev.posDividerLost pgDiv (arg64 (s1.getI F.Div.LOST_COUNT pgDiv d) d), false)
  else
    let live := x.spans.filter (fun y => decide (s.now < y.2 + 2))
    ({ s with div := tput s.div d { x with spans := live ++ [(t, t + s.getI F.Div.WIDTH pgDiv d)] } }, true)

/-- ACC, BACKLOG and whether a pulse is emitted after one step, in the direction that counts `up` (R246). -/
def divCore (nIn nOut acc back : Int) (up : Bool) : Int × Int × Bool :=
  if up then
    if nIn ≤ acc + nOut then
      if back < 0 then (acc + nOut - nIn, back + 1, false) else (acc + nOut - nIn, back, true)
    else (acc + nOut, back, false)
  else if acc - nOut < 0 then (acc - nOut + nIn, max (back - 1) (-32768), false)
  else (acc - nOut, back, false)

/-- A SYNC has come in this cycle: its steps go on from the old ACC and BACKLOG (R248). -/
def State.synced (s : State) (d : Nat) : Bool := (tget s.div d {}).syncAt == some s.now

/-- ACC and BACKLOG of a divider as a step of this cycle sees them. -/
def State.divHeld (s : State) (d : Nat) : Int × Int :=
  let x := tget s.div d {}
  if s.synced d then (x.oldAcc, x.oldBack)
  else ((s.getI F.Div.ACC pgDiv d : Int), sext 16 (s.getI F.Div.BACKLOG pgDiv d))

/-- One step of sign `fwd` at a divider (R246); the answer tells whether a pulse was emitted. -/
def divStep (d : Nat) (fwd : Bool) (s : State) : State × Bool :=
  let h := s.divHeld d
  let r := divCore (s.getI F.Div.N_IN_M1 pgDiv d + 1) (s.getI F.Div.N_OUT_M1 pgDiv d + 1) h.1 h.2
    (fwd != s.onI F.Div.DIR_SWAP pgDiv d)
  let s1 := if s.synced d then { s with div := tput s.div d { tget s.div d {} with oldAcc := r.1, oldBack := r.2.1 } }
    else (s.setI F.Div.ACC pgDiv d (unsext 16 r.1)).setI F.Div.BACKLOG pgDiv d (unsext 16 r.2.1)
  if r.2.2 then divPulse d s1 else (s1, false)

/-- The running dividers that a channel feeds. -/
def State.dividersOf (s : State) (ch : Nat) : List Nat :=
  (List.range 4).filter (fun d => s.divOn d && s.getI F.Div.SOURCE pgDiv d == ch)

/-- Steps at every divider that a channel feeds; the answer lists the dividers that emitted a pulse (R246). -/
def divSteps (ch : Nat) (fwd : Bool) (s : State) : State × List Nat :=
  (s.dividersOf ch).foldl (fun (p : State × List Nat) d =>
    let r := divStep d fwd p.1
    (r.1, if r.2 then p.2 ++ [d] else p.2)) (s, [])

/-- SYNC of a divider (R248). -/
def divSync (d : Nat) (s : State) : State :=
  let ph := s.getI F.Div.PHASE pgDiv d
  let top := s.getI F.Div.N_IN_M1 pgDiv d
  let h := s.divHeld d
  let s1 := { s with div := tput s.div d { tget s.div d {} with syncAt := some s.now, oldAcc := h.1, oldBack := h.2 } }
  (s1.setI F.Div.ACC pgDiv d (min ph top)).setI F.Div.BACKLOG pgDiv d 0

/-! ### Edges -/

/-- A count change that decoding makes on the replicas of a mask, with its measurement (R239); DIRECTION follows the hub's
changes. -/
def countStep (ch reps t16 : Nat) (d : Int) (s : State) : State :=
  let s1 := s.updPos ch (fun p => p.upd reps (fun r =>
    let c := addCount r.count d
    ({ r with count := c }).measure (if 0 < d then c else r.count) t16))
  if bitAt reps 0 then s1.set F.Pos.DIRECTION (pgPos ch) (bit (decide (d < 0))) else s1

/-- The step of a pair along the forward sequence 00, 10, 11, 01: 1 forward, 3 backward, 2 both changed (R227). -/
def quadTurn (old new : Nat) : Nat :=
  let place : Nat → Nat := fun ab => match ab with
    | 0 => 0
    | 2 => 1
    | 3 => 2
    | _ => 3
  (place new + 4 - place old) % 4

/-- The count change of a quadrature transition, Table 7-3, before DIR_INVERT. -/
def quadChange (decode old new : Nat) : Int :=
  let t := quadTurn old new
  let d : Int := if t = 1 then 1 else if t = 3 then -1 else 0
  let aMoved : Bool := old / 2 != new / 2
  match decode with
  | 0 => if aMoved && old % 2 == 0 then d else 0
  | 1 => if aMoved then d else 0
  | _ => d

/-- A filtered quadrature transition on the replicas of a mask; the answer is the hub's signed count change (R225, R227,
R228, R245). -/
def quadTransition (ch reps ab ph : Nat) (s : State) : State × Int :=
  let p := s.posOf ch
  let run := s.chMode ch 0 && s.chOn ch
  let change := fun (r : Replica) => s.dirInv ch (quadChange (s.get F.Pos.DECODE (pgPos ch)) r.ab (low 2 ab))
  let step := fun (s : State) (die : Nat) =>
    if bitAt reps die then
      let old := ((s.posOf ch).rep die)
      let d := change old
      let s1 := if run && d != 0 then countStep ch (2 ^ die) (s.edgeAt ch ph) d s else s
      s1.updPos ch (fun p => p.upd (2 ^ die) (fun r => { r with ab := low 2 ab }))
    else s
  let s1 := (List.range 3).foldl step s
  if bitAt reps 0 && run then
    if quadTurn p.hub.ab (low 2 ab) = 2 then
      let s2 := s1.sat F.Pos.ILLEGAL_COUNT (pgPos ch)
      (s2.raise Ev.posQuadIllegal (pgPos ch) (arg64 (s2.get F.Pos.ILLEGAL_COUNT (pgPos ch)) (p.hub.ab * 4 + low 2 ab)), 0)
    else (s1, change p.hub)
  else (s1, 0)

/-- Place of a three-switch code in the forward sequence, none for 0b000 and 0b111 (R232). -/
def switchPlace (code : Nat) : Option Nat :=
  match code with
  | 1 => some 0
  | 3 => some 1
  | 2 => some 2
  | 6 => some 3
  | 4 => some 4
  | 5 => some 5
  | _ => none

/-- Steps from one valid code to another along the sequence, 0 to 5. -/
def switchTurn (old new : Nat) : Nat :=
  match switchPlace old, switchPlace new with
  | some a, some b => (b + 6 - a) % 6
  | _, _ => 0

/-- The count change of a new code, before DIR_INVERT (R232, R233). -/
def switchChange (old new : Nat) : Int :=
  match switchTurn old new with
  | 1 => 1
  | 2 => 2
  | 4 => -2
  | 5 => -1
  | _ => 0

/-- A new three-switch code on the replicas of a mask; the answer is the hub's signed count change (R225, R232, R233). -/
def switchCode (ch reps code ph : Nat) (s : State) : State × Int :=
  let pg := pgPos ch
  let c := low 3 code
  let p := s.posOf ch
  let run := s.chMode ch 1 && s.chOn ch
  let valid := (switchPlace c).isSome
  let change := fun (r : Replica) => s.dirInv ch (switchChange r.code c)
  let step := fun (s : State) (die : Nat) =>
    if bitAt reps die && valid then
      let d := change ((s.posOf ch).rep die)
      let s1 := if run && d != 0 then countStep ch (2 ^ die) (s.edgeAt ch ph) d s else s
      s1.updPos ch (fun p => p.upd (2 ^ die) (fun r => { r with code := c }))
    else s
  let s1 := ((List.range 3).foldl step s).updPos ch (fun p => p.upd reps (fun r => { r with sw := c }))
  let s2 := if bitAt reps 0 then s1.set F.Pos.SWITCH_CODE pg c else s1
  if bitAt reps 0 && run then
    let cnt := (s2.posOf ch).hub.count
    if !valid then
      let s3 := s2.sat F.Pos.SWITCH_INVALID_COUNT pg
      (s3.raise Ev.posSwitchInvalid pg (arg64 cnt c), 0)
    else
      let t := switchTurn p.hub.code c
      if t = 2 ∨ t = 3 ∨ t = 4 then
        let s3 := s2.sat F.Pos.SWITCH_SKIP_COUNT pg
        (s3.raise Ev.posSwitchSkip pg (arg64 cnt (bit (t == 3) * 256 + p.hub.code * 16 + c)), change p.hub)
      else (s2, change p.hub)
  else (s2, 0)

/-- INDEX_GATE holds for a pair (R230). -/
def indexGate (gate ab : Nat) : Bool :=
  match gate with
  | 0 => true
  | 1 => ab == 3
  | 2 => ab == 2
  | 3 => ab == 0
  | 4 => ab == 1
  | _ => false

/-- An index at one replica: the new replica, and the slip s where there is one (R231, R243). -/
def Replica.index (c : Nat) (rev correct : Bool) (r : Replica) : Replica × Option Int :=
  let k := r.count
  match r.ref with
  | none => ({ r with ref := some k }, none)
  | some ref =>
    if c = 0 then ({ r with ref := some k }, none)
    else
      let d := diff48 k ref
      let s := d - (if rev then -(c : Int) else c)
      if d = 0 ∨ s = 0 then ({ r with ref := some k }, none)
      else if correct then
        let k1 := addCount k (-s)
        ({ r with count := k1, ref := some k1, x := r.x - s, meas := r.meas.map (fun m => (addCount m.1 (-s), m.2)) }, some s)
      else ({ r with ref := some k }, some s)

/-- The replica has an index event as Z takes a filtered level (R230): Z becomes active, its pair is the gate's, and the channel
counts in quadrature under INDEX_POLICY 0 or 1. -/
def State.indexed (s : State) (ch : Nat) (z : Bool) (r : Replica) : Bool :=
  let pg := pgPos ch
  z != s.on F.Pos.Z_POL pg && z != r.z && indexGate (s.get F.Pos.INDEX_GATE pg) r.ab && s.chMode ch 0 && s.chOn ch &&
    s.get F.Pos.INDEX_POLICY pg != 2

/-- The replicas of a mask that have an index event. -/
def State.indexMask (s : State) (ch reps : Nat) (z : Bool) : Nat :=
  (List.range 3).foldl (fun a die => a + bit (bitAt reps die && s.indexed ch z ((s.posOf ch).rep die)) * 2 ^ die) 0

/-- Z takes a filtered level on every replica of a mask: the index event of R230 and R231. -/
def indexEdge (ch reps : Nat) (z : Bool) (s : State) : State :=
  let pg := pgPos ch
  let p := s.posOf ch
  let c := s.get F.Pos.COUNTS_PER_INDEX pg
  let rev := s.on F.Pos.DIRECTION pg
  let correct := s.get F.Pos.INDEX_POLICY pg == 1
  let s1 := s.updPos ch (fun p => p.upd reps (fun r =>
    { (if s.indexed ch z r then (r.index c rev correct).1 else r) with z := z }))
  if bitAt reps 0 && s.indexed ch z p.hub then
    let k1 := (s1.posOf ch).hub.count
    let s2 := (s1.set F.Pos.INDEX_POS_LO pg k1).set F.Pos.INDEX_POS_HI pg (k1 / 2 ^ 32)
    match (p.hub.index c rev correct).2 with
    | some sl =>
      ((s2.set F.Pos.INDEX_SLIP_LAST pg (unsext 32 sl)).sat F.Pos.INDEX_SLIP_COUNT pg).raise Ev.posIndexSlip pg
        (arg64 (unsext 32 sl) p.hub.count)
    | none => s2
  else s1

/-! ### Synchronous serial -/

/-- Clock cycles of an SSI frame in fclk: BITS + P + 1 cycles of 2 SSI_DIV (R234). -/
def State.ssiClocks (s : State) (ch : Nat) : Nat :=
  let pg := pgPos ch
  (s.get F.Pos.BITS_M1 pg + 2 + bit (s.get F.Pos.PARITY pg != 0)) * 2 * s.get F.Pos.SSI_DIV pg

/-- ENCn_CLK: it idles high; from the first falling edge of a frame it is low and then high for SSI_DIV fclk in each of its
cycles (R234). -/
def State.encClk (s : State) (ch : Nat) : Bool :=
  match (s.posOf ch).lastStart with
  | none => true
  | some t0 =>
    let div := max 1 (s.get F.Pos.SSI_DIV (pgPos ch))
    s.now < t0 || decide (t0 + s.ssiClocks ch ≤ s.now) || decide (div ≤ (s.now - t0) % (2 * div))

/-- The instants at which DATA is sampled: SAMPLE_DELAY fclk after each rising edge from the second on, the most significant bit
first and then the parity bit (R234). -/
def State.ssiSamples (s : State) (ch t0 : Nat) : List Nat :=
  let pg := pgPos ch
  let div := s.get F.Pos.SSI_DIV pg
  (List.range (s.get F.Pos.BITS_M1 pg + 1 + bit (s.get F.Pos.PARITY pg != 0))).map (fun k =>
    t0 + div + (k + 1) * 2 * div + s.get F.Pos.SAMPLE_DELAY pg)

/-- The frame is over: its last clock cycle has ended and its last bit has been sampled. -/
def State.ssiOver (s : State) (ch t0 : Nat) : Bool :=
  decide (t0 + s.ssiClocks ch ≤ s.now) && (s.ssiSamples ch t0).all (fun t => decide (t ≤ s.now))

/-- SSI_FRAME_START: every PERIOD µs, or at the end of the previous gap, whichever is later (R234). -/
def execSsiFrameStart (ch : Nat) (s : State) : Out :=
  let pg := pgPos ch
  let p := s.posOf ch
  let due : Bool := match p.lastStart with
    | none => true
    | some t => decide (t + s.get F.Pos.PERIOD pg * 1000 ≤ s.now) && decide (p.gapEnd ≤ s.now)
  .next (if ch < 4 ∧ s.chOn ch ∧ s.chMode ch 2 ∧ p.frame = none ∧ due then
    s.updPos ch (fun p => { p with
      frame := some s.now, lastStart := some s.now, gapEnd := s.now + s.ssiClocks ch + s.get F.Pos.GAP pg * 1000 })
  else s)

/-- A Gray-coded value of `n` bits decoded (R234). -/
def grayDecode : Nat → Nat → Nat
  | 0, v => v
  | n + 1, v => grayDecode n (v ^^^ (v / 2 ^ 2 ^ n))

/-- Ones in the low 32 bits. -/
def ones32 (v : Nat) : Nat := ((List.range 32).filter (bitAt v)).length

/-- The lowest reason of R235 that discards a frame, 0 for none. -/
def State.ssiReason (s : State) (ch : Nat) (r : Replica) (value raw par : Nat) (dataHigh gapHigh : Bool) : Nat :=
  let pg := pgPos ch
  let n := s.get F.Pos.BITS_M1 pg + 1
  let pm := s.get F.Pos.PARITY pg
  let odd := (ones32 raw + par) % 2
  let tooFar : Bool := match r.ssi with
    | some v => s.get F.Pos.MAX_STEP pg != 0 && decide (s.get F.Pos.MAX_STEP pg < (sext n (value + 2 ^ n - v)).natAbs)
    | none => false
  if !dataHigh then 1
  else if (pm == 1 && odd != 0) || (pm == 2 && odd != 1) then 2
  else if tooFar then 3
  else if !gapHigh then 4
  else 0

/-- An accepted frame at one replica (R236, R239). -/
def Replica.accept (n t16 value : Nat) (inv : Bool) (r : Replica) : Replica × Int :=
  match r.ssi with
  | none => (({ r with count := value, ssi := some value }).measure value t16, 0)
  | some v =>
    let d0 := sext n (value + 2 ^ n - v)
    let d := if inv then -d0 else d0
    let c := addCount r.count d
    (({ r with count := c, ssi := some value }).measure c t16, d)

/-- SSI_FRAME_END: the bits and the parity bit as sampled at `State.ssiSamples`, and DATA at the first falling edge and after the last clock cycle
(R234 to R236). -/
def execSsiFrameEnd (ch reps raw par : Nat) (dataHigh gapHigh : Bool) (s : State) : Out :=
  let pg := pgPos ch
  let p := s.posOf ch
  .next (match p.frame with
    | none => s
    | some t0 =>
      if ch < 4 ∧ s.ssiOver ch t0 then
        let n := s.get F.Pos.BITS_M1 pg + 1
        let v := if s.on F.Pos.GRAY pg then grayDecode 5 (low n raw) else low n raw
        let inv := s.on F.Pos.DIR_INVERT pg
        let why := fun r => s.ssiReason ch r v (low n raw) (low 1 par) dataHigh gapHigh
        let s1 := s.updPos ch (fun p => { p.upd reps (fun r =>
          if why r = 0 then (r.accept n (t0 * 16) v inv).1 else r) with frame := none })
        if bitAt reps 0 then
          if why p.hub ≠ 0 then
            (s1.sat F.Pos.SSI_ERROR_COUNT pg).raise Ev.posSsiError pg (arg64 v (why p.hub))
          else
            let d := (p.hub.accept n (t0 * 16) v inv).2
            if d = 0 then s1 else s1.set F.Pos.DIRECTION pg (bit (decide (d < 0)))
        else s1
      else s)

/-! ### Observer ticks and the cross-check -/

/-- The present instant lies on the tick grid, which begins when fclk starts (R243). -/
def State.onTick (s : State) : Bool := (s.now - s.mode.bisqueSince) % 1000 == 0 && decide (s.mode.bisqueSince < s.now)

/-- The lowest criterion of R244 that a pair of replicas meets, 0 for none. -/
def mismatchOf (tol now : Nat) (apart : Bool) (a b : Replica) : Nat :=
  let d := (diff48 a.count b.count).natAbs
  let pd := (sext 64 (a.position now + 2 ^ 64 - b.position now)).natAbs
  if 1 < d then 1
  else if d = 1 ∧ apart then 2
  else if a.locked ∧ b.locked ∧ tol < pd then 3
  else 0

/-- The cross-check of a channel at a tick (R244, R245). -/
def crossCheck (ch : Nat) (s : State) : State :=
  let pg := pgPos ch
  let p := s.posOf ch
  let tol := s.get F.Pos.REPLICA_TOL pg
  let one := fun (a b : Replica) => (diff48 a.count b.count).natAbs == 1
  let c01 := mismatchOf tol s.now (p.apart.getD 0 false) p.hub p.r0
  let c02 := mismatchOf tol s.now (p.apart.getD 1 false) p.hub p.r1
  let c12 := mismatchOf tol s.now (p.apart.getD 2 false) p.r0 p.r1
  let s1 := s.updPos ch (fun p => { p with apart := [one p.hub p.r0, one p.hub p.r1, one p.r0 p.r1] })
  let found := [c01, c02, c12].filter (· != 0)
  if found.isEmpty then s1
  else
    let both := fun (a b : Nat) => a != 0 && b != 0
    let strong := bit (both c01 c02) + bit (both c01 c12) * 2 + bit (both c02 c12) * 4
    let weak := if c01 ≠ 0 then 3 else if c02 ≠ 0 then 5 else 6
    let dis := if strong ≠ 0 then strong else weak
    let s2 := (s1.updPos ch (fun p => { p with misAt := some s.now })).set F.Pos.DISAGREE pg dis
    let s3 := { s2 with sag := { s2.sag with disagree := s2.sag.disagree ||| dis } }
    if s.on F.Pos.MISMATCH pg then s3
    else (s3.set F.Pos.MISMATCH pg 1).raise Ev.posReplicaMismatch pg
      (arg64 p.hub.count (found.foldl min 3 * 16 + dis))

/-- The update tick of one channel: every replica, SPEED and ACCEL, the unlock event of the hub, the cross-check. -/
def channelTick (ch : Nat) (s : State) : State :=
  let pg := pgPos ch
  let p := s.posOf ch
  let go := Replica.tick (s.get F.Pos.OBS_BW pg) (s.get F.Pos.LOCK_TOL pg) (s.get F.Pos.UNLOCK_TOL pg) s.now
  let s1 := showSpeed ch (s.updPos ch (fun p => p.upd 7 (fun r => (go r).1)))
  let e := (go p.hub).2
  let s2 := if p.hub.locked && !(go p.hub).1.locked then
      s1.raise Ev.posObserverUnlock pg
        (arg64 (unsext 32 (clampI (-2147483648) 2147483647 (Config.roundReal (e * 64)))) 0)
    else s1
  crossCheck ch s2

/-- A write of 1 to a class WO H bit, or a changed value for an H field, of a running function (R15, R636). -/
def writeWhileRunning (pg off data : Nat) (apt : Bool) (s : State) : State :=
  s.raise Ev.regWriteWhileRunning pg (arg64 data (placeArg apt off))

/-- A write of 1 to PRESET (R238). -/
def chPreset (ch : Nat) (s : State) : State :=
  if s.stopped (pgPos ch) then
    let v := s.get2 F.Pos.POS_PRESET_LO F.Pos.POS_PRESET_HI (pgPos ch) 0
    obsRestart ch (s.updPos ch (fun p => p.upd 7 (fun r => { r with count := v })))
  else writeWhileRunning (pgPos ch) 0x5C 1 false s

/-- CH_PRESET (R238). -/
def execChPreset (ch owner : Nat) (s : State) : Out :=
  .next (if ch < 4 then gateReg (pgPos ch) 0x5C 1 owner (chPreset ch) s else s)

/-- A write of 1 to MISMATCH: a mismatch in the same cycle wins over the clear (R14, R245). -/
def mismatchClear (ch : Nat) (s : State) : State :=
  if (s.posOf ch).misAt = some s.now then s else s.set F.Pos.MISMATCH (pgPos ch) 0

/-- REPLICA_MISMATCH_CLEAR (R245). -/
def execReplicaMismatchClear (ch owner : Nat) (s : State) : Out :=
  .next (if ch < 4 then gateReg (pgPos ch) 0x9C 8 owner (mismatchClear ch) s else s)

/-- COUNT_CAPTURE: a read of COUNT_LO (0x60) or POS_LO (0x68) captures for its requester; a read of COUNT_HI (0x64) or
POS_HI (0x6C) consumes the capture, or returns the live bits (R256). -/
def execCountCapture (ch off owner : Nat) (s : State) : Out :=
  let p := s.posOf ch
  let kind := off / 8 % 2
  let v := if kind = 0 then p.hub.count else s.posNow ch 0
  let key := agentOf owner * 2 + kind
  .next (if s.silent then s else if ch < 4 ∧ (off = 0x60 ∨ off = 0x68) then
    { s.updPos ch (fun p => { p with caps := tput p.caps key (v / 2 ^ 32) }) with resp := .data (low 32 v) }
  else if ch < 4 ∧ (off = 0x64 ∨ off = 0x6C) then
    { s.updPos ch (fun p => { p with caps := tdel p.caps key }) with resp := .data ((tfind p.caps key).getD (v / 2 ^ 32)) }
  else s)

/-- DIV_SYNC: one write of DIV_CTRL with SYNC = 1 (R248). -/
def execDivSync (d phase owner : Nat) (s : State) : Out :=
  .next (if d < 4 then
    gateReg pgDiv (0x48 + 0x10 * d) (2 ^ 31 + low 16 phase) owner (fun s => divSync d (s.setI F.Div.PHASE pgDiv d phase)) s
  else s)

/-! ### Compare units -/

/-- P of a unit, 48.16 (R249). -/
def State.cmpPos (s : State) (u : Nat) : Nat :=
  let ch := s.getI F.Cmp.CHANNEL pgCmp u
  if s.onI F.Cmp.SRC pgCmp u then s.posNow ch 0 else s.countNow ch 0 * 65536

/-- TARGET of a unit. -/
def State.cmpTarget (s : State) (u : Nat) : Nat := s.get2 F.Cmp.CMP_TARGET_LO F.Cmp.CMP_TARGET_HI pgCmp u

/-- Signed distance to a target modulo 2^64 (R249). -/
def distance (rev : Bool) (target pos : Nat) : Int :=
  if rev then sext 64 (pos + 2 ^ 64 - low 64 target) else sext 64 (target + 2 ^ 64 - low 64 pos)

/-- d of a unit in its armed direction. -/
def State.cmpDist (s : State) (u : Nat) : Int := distance (tget s.cmp u {}).rev (s.cmpTarget u) (s.cmpPos u)

/-- The unit is armed. -/
def State.cmpArmed (s : State) (u : Nat) : Bool := bitAt (s.get F.Cmp.CMP_ARMED pgCmp) u

/-- The state with a unit armed or not. -/
def State.setArmed (s : State) (u : Nat) (on : Bool) : State :=
  let v := s.get F.Cmp.CMP_ARMED pgCmp
  s.set F.Cmp.CMP_ARMED pgCmp (if on then setBit v u else clearBit v u)

/-- The pulse of a match on its output (R252, R253). -/
def cmpPulse (u : Nat) (s : State) : State :=
  let sel := s.getI F.Cmp.OUT_SEL pgCmp u
  let w := s.getI F.Cmp.WIDTH pgCmp u
  if sel = 0 ∨ w = 0 then s
  else
    let x := tget s.cmp u {}
    let t := s.now + (if s.onI F.Cmp.SRC pgCmp u then 2 else 3)
    { s with cmp := tput s.cmp u { x with spans := x.spans.filter (fun y => decide (s.now < y.2.2)) ++ [(sel, t, t + w)] } }

/-- CMP_OUT_`n` is active at the ball (R253). -/
def State.cmpOut (s : State) (n : Nat) : Bool :=
  (List.range 32).any (fun u => (tget s.cmp u {}).spans.any (fun y =>
    y.1 == n + 1 && decide (y.2.1 ≤ s.now) && decide (s.now < y.2.2)))

/-- A match (R252). With CMP_PERIOD the moved target is judged in the next cycle. -/
def cmpMatch (u : Nat) (s : State) : State :=
  let count := s.countNow (s.getI F.Cmp.CHANNEL pgCmp u) 0
  let s1 := (cmpPulse u s).wrap F.Cmp.CMP_MATCH_COUNT pgCmp
  let s2 := if s.onI F.Cmp.SYNC_EN pgCmp u then divSync (s.getI F.Cmp.SYNC_DIV pgCmp u) s1 else s1
  let s3 := if s.onI F.Cmp.EVENT_EN pgCmp u then s2.raise Ev.posCompareMatch pgCmp (count * 65536 + u) else s2
  let per := s.getI F.Cmp.CMP_PERIOD pgCmp u
  if per = 0 then s3.setArmed u false
  else
    let t := if (tget s.cmp u {}).rev then s.cmpTarget u + 2 ^ 64 - per else s.cmpTarget u + per
    let s4 := (s3.set2 F.Cmp.CMP_TARGET_LO F.Cmp.CMP_TARGET_HI pgCmp u (low 64 t)).setArmed u true
    { s4 with cmp := tput s4.cmp u { tget s4.cmp u {} with judgeAt := some (s.now + 1) } }

/-- A target judged: ahead arms; late counts, raises, and with LATE_POLICY 1 acts at once as if matched (R249, R250). -/
def cmpJudge (u : Nat) (s : State) : State :=
  let d := s.cmpDist u
  if 0 < d then s.setArmed u true
  else
    let pol := s.onI F.Cmp.LATE_POLICY pgCmp u
    let behind := if (65536 : Int) * 4294967295 ≤ -d then 4294967295 else ((-d) / 65536).toNat
    let s1 := (s.sat F.Cmp.CMP_LATE_COUNT pgCmp).setArmed u false
    let s2 := s1.raise Ev.posCompareLate pgCmp (arg64 behind (bit pol * 256 + u))
    if pol then cmpMatch u s2 else s2

/-- The units whose moved target is judged in this cycle (R252), at its end. -/
def cmpNext (s : State) : State :=
  if s.on F.Hdr.ENABLE pgCmp then
    forAll (s.cmp.filter (fun e => e.2.judgeAt.any (fun j => decide (j ≤ s.now)))) s (fun e s =>
      let s1 := { s with cmp := tput s.cmp e.1 { tget s.cmp e.1 {} with judgeAt := none } }
      if s1.cmpArmed e.1 then cmpJudge e.1 s1 else s1)
  else s

/-- One unit of a CMP_ARM write (R249, R254). -/
def cmpArm (u : Nat) (s : State) : State :=
  if s.cmpArmed u then s
  else
    let ch := s.getI F.Cmp.CHANNEL pgCmp u
    let rev : Bool := match s.getI F.Cmp.DIR pgCmp u with
      | 0 => false
      | 1 => true
      | _ => s.on F.Pos.DIRECTION (pgPos ch)
    cmpJudge u { s with cmp := tput s.cmp u { tget s.cmp u {} with rev := rev } }

/-- The units that a mask names. -/
def unitsOf (mask : Nat) : List Nat := (List.range 32).filter (bitAt mask)

/-- A word written to CMP_ARM (R249): the page's ENABLE gates its function (R62). -/
def cmpArmAll (mask : Nat) (s : State) : State :=
  if s.on F.Hdr.ENABLE pgCmp then forAll (unitsOf mask) s cmpArm else s

/-- An armed unit matches now (R251); one that waits for its judgement does not. -/
def State.cmpDue (s : State) (u : Nat) : Bool :=
  s.on F.Hdr.ENABLE pgCmp && (tget s.cmp u {}).judgeAt.isNone && decide (s.cmpDist u ≤ 0)

/-- DISARM of a unit; a match of the same cycle acts first (R254). -/
def cmpDisarm (u : Nat) (s : State) : State :=
  if s.cmpArmed u then
    let s1 := if s.cmpDue u then cmpMatch u s else s
    let s2 := s1.setArmed u false
    { s2 with cmp := tput s2.cmp u { tget s2.cmp u {} with
        judgeAt := none, disAt := if s.cmpDue u then none else some s.now } }
  else s

/-- A word written to CMP_DISARM (R254). -/
def cmpDisarmAll (mask : Nat) (s : State) : State := forAll (unitsOf mask) s cmpDisarm

/-- CMP_ARM (R249). -/
def execCmpArm (mask owner : Nat) (s : State) : Out := .next (gateReg pgCmp 0x40 mask owner (cmpArmAll mask) s)

/-- CMP_DISARM (R254). -/
def execCmpDisarm (mask owner : Nat) (s : State) : Out := .next (gateReg pgCmp 0x44 mask owner (cmpDisarmAll mask) s)

/-- COMPARE_MATCH: an armed unit whose target is reached, or one that was disarmed in this cycle (R251, R254). -/
def execCompareMatch (u : Nat) (s : State) : Out :=
  .next (if u < 32 ∧ s.cmpDue u then
    if s.cmpArmed u then cmpMatch u s
    else if (tget s.cmp u {}).disAt = some s.now then
      let s1 := (cmpMatch u s).setArmed u false
      { s1 with cmp := tput s1.cmp u { tget s1.cmp u {} with judgeAt := none, disAt := none } }
    else s
  else s)

/-- A function reset of page 0x00D: every unit disarms (R254). -/
def cmpDiscard (s : State) : State :=
  { s with cmp := s.cmp.map (fun e => (e.1, { e.2 with judgeAt := none, disAt := none })) }

end Sys2Proof.Machine
end

