-- ==== Sys2Proof/Machine/PairBase.lean ====
section
/-! DEFINITION. What other blocks need of the pair function: roles, the lease mark, heartbeats as they are sent, fencing, line
CRCs and the end of a rejoin (R489, R491, R492, R495, R498, R502, R509). Roles: 0 SOLO, 1 LISTEN, 2 SYNCING, 3 STANDBY,
4 ACTIVE, 5 FENCED (Table 15-1). -/

namespace Sys2Proof.Machine

def pgPair : Nat := 0x098
def State.updPair (s : State) (f : PairX → PairX) : State := { s with pair := f s.pair }

/-- The time counter now: tsclk since its start (R466). -/
def State.counter (s : State) : Nat := (s.now - s.countBase) / 2 % 2 ^ 64

/-- PAIR_STATUS.ROLE. -/
def State.role (s : State) : Nat := s.get F.Pair.ROLE pgPair
def setRole (r : Nat) (s : State) : State := s.set F.Pair.ROLE pgPair r

/-- PAIR_PORTS names a port. -/
def State.paired (s : State) (p : Nat) : Bool := bitAt (s.get2 F.Pair.PAIR_PORTS_LO F.Pair.PAIR_PORTS_HI pgPair 0) p
def State.pairPorts (s : State) : List Nat := (List.range Config.ports).filter s.paired

/-- The lease mark of the head lanes (R310, Tables 9-6 and 15-1). -/
def State.leaseMark (s : State) : Nat :=
  if s.role = 0 then 2 ^ 15
  else bit (s.role == 4) * 2 ^ 15 + s.get F.Pair.SIDE pgPair * 2 ^ 14 + s.get F.Pair.EPOCH pgPair

/-! ### CFG_CRC (R498) -/

/-- The register words over which CFG_CRC runs, in ascending page and offset order. -/
def State.cfgWords (s : State) : List Nat :=
  let ports := s.pairPorts
  let chans := (List.range 4).filter (fun ch => ports.any (fun p => s.get F.Port.ENC_SRC (pgPort p) == ch))
  let word := fun (pg : Nat) (f : Fld) => s.storedWord pg f.off
  let chan := fun (ch : Nat) => [word (pgPos ch) F.Pos.MODE, word (pgPos ch) F.Pos.COUNTS_PER_INDEX]
  let port := fun (p : Nat) =>
    ([F.Port.GRID, F.Port.LINE_PITCH, F.Port.MIN_PERIOD, F.Port.DW_OFFSET_LO, F.Port.DW_OFFSET_HI, F.Port.FLIGHT,
      F.Port.PHASE_COUNT_M1].map (word (pgPort p))) ++ (List.range 16).map (fun k => s.apt (pgPort p) (4 * k))
  let scr := fun (r : Nat) =>
    let pg := pgScr r
    [word pg F.Scr.SEG_ORIGIN] ++ (List.range 8).map (fun c => s.storedWord pg (0x80 + 4 * c)) ++
      (List.range 24).map (fun k => s.storedWord pg (0xC0 + 4 * k)) ++ (List.range 8).map (fun i => s.storedWord pg (0x140 + 4 * i))
  chans.flatMap chan ++ ports.flatMap port ++ [word pgIng F.Ing.SEGMENT_ID] ++ (List.range 4).flatMap scr ++
    [word pgPair F.Pair.PAIR_PORTS_LO, word pgPair F.Pair.PAIR_PORTS_HI]

/-- CFG_CRC; the pair function forms it in every role but SOLO. -/
def State.cfgCrc (s : State) : Nat := if s.role = 0 then 0 else crc32 (Config.cfgBytes s.cfgWords)

/-! ### Heartbeats as they are sent (R491, R492, R507) -/

/-- The SB flag that a part sends: SB_ACCEPTED from an ACTIVE part, else SB_READY. -/
def State.sbFlag (s : State) : Bool := if s.role = 4 then s.on F.Pair.GUARDED pgPair else s.pair.sbReady

/-- The bits of a number, `n` of them, most significant first. -/
def msbBits (n v : Nat) : List Bool := (List.range n).map (fun i => v / 2 ^ (n - 1 - i) % 2 == 1)

/-- The body of a HEARTBEAT message (Table 15-2). -/
def State.hbBody (s : State) (frame : Nat) : List Byte :=
  leBytes 2 s.leaseMark ++ leBytes 1 (s.role + s.get F.Mode.MODE pgMode * 16 + bit s.sbFlag * 128) ++
    leBytes 1 (s.get F.Pair.RENEW_SEQ pgPair) ++ leBytes 1 (s.get F.Pair.ACK_SEQ pgPair) ++ leBytes 1 frame ++ leBytes 2 0 ++
    leBytes 4 s.cfgCrc

/-- An HB_OUT frame (Table 15-3). -/
def State.hbFrame (s : State) (frame : Nat) : Nat :=
  let v := 0xB5 * 2 ^ 48 + s.leaseMark * 2 ^ 32 + s.role * 2 ^ 29 + s.get F.Mode.MODE pgMode * 2 ^ 26 + bit s.sbFlag * 2 ^ 25 +
    s.get F.Pair.RENEW_SEQ pgPair * 2 ^ 17 + s.get F.Pair.ACK_SEQ pgPair * 2 ^ 9 + low 8 frame * 2
  v * 256 + ringCrc (msbBits 56 v)

/-- The interpolated positions of the four channels at the hub at an instant, and the channels whose observer is locked. -/
def State.latchAt (s : State) (t : Nat) : Nat × List Nat :=
  ((List.range 4).foldl (fun a ch => a + bit (s.posOf ch).hub.locked * 2 ^ ch) 0,
    (List.range 4).map (fun ch => (s.posOf ch).hub.position t))

/-- A message follows those that wait on a pair lane (R305). -/
def PairX.queue (x : PairX) (k type : Nat) (body : List Byte) : PairX :=
  let t := tget x.tx k {}
  { x with tx := tput x.tx k { t with left := t.left ++ [Msg.bytes ⟨type, 0, body, 0, 0⟩] } }

/-- A message goes out on its pair lane, which sends while the pair-lane PLL is locked: lane 0 carries LINE_CRC and POS_LATCH, lane 1
the other types (R298, R490). -/
def pairSend (type : Nat) (body : List Byte) (s : State) : State :=
  if s.on F.Pair.PLL_LOCKED pgPair then
    s.updPair (fun x => { x with sent := tput x.sent type body }.queue (if type = 0x82 ∨ type = 0x83 then 0 else 1) type body)
  else s

/-- A heartbeat goes out on both paths; its frame latches the positions, which go out in POS_LATCH (R491, R507). In SOLO none
is sent. -/
def sendHeartbeat (s : State) : State :=
  if s.role = 0 then s
  else
    let n := low 8 (s.pair.frameSeq + 1)
    let l := s.latchAt s.now
    let body := s.hbBody n
    let frame := s.hbFrame n
    let lanes := s.on F.Pair.PLL_LOCKED pgPair
    let s1 := s.updPair (fun x =>
      let y := if lanes then (x.queue 0 0x81 body).queue 1 0x81 body else x
      { y with
        frameSeq := n
        sentLane := if lanes then body else x.sentLane
        sentPin := frame
        latchOut := some (n, l.1, l.2) })
    pairSend 0x83 (leBytes 1 n ++ leBytes 1 l.1 ++ leBytes 2 0 ++ l.2.flatMap (leBytes 8)) s1

/-! ### Fencing (R502) -/

/-- An ACTIVE part fences (Table 15-5). -/
def fence (cause : Nat) (s : State) : State :=
  if s.role = 4 then
    let s1 := ((setRole 5 s).set F.Pair.FENCE_CAUSE pgPair cause).set F.Pair.GUARDED pgPair 0
    let s2 := s1.updPair (fun x => { x with expiry := none, claim := false })
    (sendHeartbeat s2).raise Ev.pairFenced pgPair (s.get F.Pair.EPOCH pgPair * 2 ^ 16 + cause)
  else s

/-- A port of PAIR_PORTS or its cluster enters FAULT (cause 4). -/
def pairPortFault (p : Nat) (s : State) : State :=
  if s.on F.Pair.FENCE_ON_FAULT pgPair && s.paired p then fence 4 s else s

/-- A die link goes down (cause 5). -/
def pairLinkDown (s : State) : State := if s.on F.Pair.FENCE_ON_FAULT pgPair then fence 5 s else s

/-- The mode has changed (cause 3); a held role ends in SOLO at Bisque and Dormant (R489). -/
def pairModeChanged (mode : Nat) (s : State) : State :=
  let s1 := if mode = 0 ∨ mode = 1 ∨ mode = 5 then fence 3 s else s
  if (mode = 0 ∨ mode = 1) ∧ !s1.on F.Hdr.ENABLE pgPair then setRole 0 s1 else s1

/-! ### The end of a rejoin (R509) -/

/-- A rejoin fails: back to LISTEN. -/
def joinFail (reason : Nat) (s : State) : State :=
  if s.pair.join.isSome then
    let s1 := (setRole 1 s).set F.Pair.SNAP_STATUS_STATE pgPair 0
    (s1.updPair (fun x => { x with join := none, sbReady := false, retryAt := some (s.counter + 500000000) })).raise
      Ev.pairSnapFail pgPair reason
  else s

/-- A port's start is late during a rejoin (reason 3). -/
def pairStartLate (p : Nat) (s : State) : State := if s.paired p then joinFail 3 s else s

/-! ### Line CRCs (R495) -/

/-- The CRC of a line. -/
def lineCrc (folio line : Nat) (levels : List Nat) : Nat := crc32 (leBytes 4 folio ++ leBytes 3 line ++ levelBytes levels)

/-- Comparison runs: both parts ACTIVE, STANDBY or FENCED, or this part in the last step of its rejoin (R508). -/
def State.comparing (s : State) : Bool :=
  let other := s.get F.Pair.PARTNER_ROLE pgPair
  decide (3 ≤ other) && decide (other ≤ 5) &&
    (decide (3 ≤ s.role) || match s.pair.join with
      | some j => j.ended
      | none => false)

/-- The start folio of a port that joins. -/
def JoinX.startFolio (j : JoinX) (p : Nat) : Option Nat := (tfind j.ports p).map (fun e => (e.1 + 2) % 2 ^ 32)

/-- Two CRCs of one line are compared. -/
def lineCompare (p n l : Nat) (same : Bool) (s : State) : State :=
  let early : Bool := match s.pair.join with
    | some j => j.startFolio p == some n && decide (l < 64)
    | none => false
  if same then
    if early then s.updPair (fun x => { x with join := x.join.map (fun j =>
      { j with matched := tput j.matched p (setBit (tget j.matched p 0) l) }) })
    else s
  else
    let f := if p < 32 then F.Pair.DIVERGED_PORTS_LO else F.Pair.DIVERGED_PORTS_HI
    let s1 := (s.sat F.Pair.DIVERGED_LINES pgPair).set f pgPair (setBit (s.get f pgPair) (p % 32))
    let s2 := ((s1.set F.Pair.LAST_DIV_FOLIO pgPair n).set F.Pair.PORT pgPair p).set F.Pair.LINE pgPair l
    let s3 := s2.raise Ev.pairDiverged pgPair (arg64 n (low 24 l * 256 + p))
    if early then joinFail 4 s3 else s3

/-- When every port has matched lines 0 to 63 of its start folio, the joining part is ready (R508). -/
def joinReady (s : State) : State :=
  match s.pair.join with
  | some j =>
    if j.ended && s.pairPorts.all (fun p => tget j.matched p 0 == 2 ^ 64 - 1) then s.updPair (fun x => { x with sbReady := true }) else s
  | none => s

/-- A CRC of one side (`own` or the partner's) finds its partner, or waits for it for 64 lines of its port. -/
def lineCrcIn (own : Bool) (p n l crc : Nat) (s : State) : State :=
  let mine := tget (if own then s.pair.own else s.pair.peer) p []
  let other := tget (if own then s.pair.peer else s.pair.own) p []
  let is_ : Nat × Nat × Nat → Bool := fun e => e.1 == n && e.2.1 == l
  let put := fun (o : Bool) (v : List (Nat × Nat × Nat)) (s : State) => s.updPair (fun x =>
    if o then { x with own := tput x.own p v } else { x with peer := tput x.peer p v })
  match other.find? is_ with
  | some e => joinReady (lineCompare p n l (e.2.2 == crc) (put (!own) (other.filter (fun e => !is_ e)) s))
  | none =>
    let v := mine ++ [(n, l, crc)]
    if v.length ≤ 64 then put own v s else (put own (v.drop 1) s).satI F.Pair.UNMATCHED_LINES pgPair 0 1

/-- A port sends a LINE: its CRC goes to the partner and is compared (R495). -/
def pairLine (p n l : Nat) (levels : List Nat) (s : State) : State :=
  if s.paired p && s.role != 0 then
    let c := lineCrc n l levels
    let s1 := pairSend 0x82 (leBytes 4 n ++ leBytes 3 l ++ leBytes 1 p ++ leBytes 4 c) s
    if s1.comparing then lineCrcIn true p n l c s1 else s1
  else s

/-! ### Mirroring, as the ACTIVE part sends it (R496) -/

/-- TARGET of a mirrored update: the low 16 bits of the region's next folio number + 2. -/
def State.mirrorTarget (s : State) (r : Nat) : Nat := low 16 ((s.bndOf (pgScr r)).next + 2)

/-- A tender core has written a shadow word of a screening page; `reg` tells a register from an aperture word. -/
def mirrorWrite (r : Nat) (reg : Bool) (off v : Nat) (s : State) : State :=
  if s.role = 4 then
    pairSend 0x84 (leBytes 1 r ++ leBytes 1 (bit reg) ++ leBytes 2 (s.mirrorTarget r) ++ leBytes 4 off ++ leBytes 4 v) s
  else s

/-- A tender core requests the commit of a screening page: on an ACTIVE part with a TARGET, and mirrored. -/
def tenderCommit (r : Nat) (s : State) : State :=
  let pg := pgScr r
  if s.role = 4 then
    let t := s.mirrorTarget r
    pairSend 0x85 (leBytes 1 r ++ leBytes 1 0 ++ leBytes 2 t) (commitWrite pg t true false true s)
  else commitWrite pg (s.get F.Hdr.COMMIT_TARGET pg) false false true s

/-! ### ENABLE and function reset (R489, R502) -/

/-- ENABLE becomes 1: LISTEN, or the rules resume from the held role. -/
def pairStart (s : State) : State :=
  let s1 := if s.role = 0 then setRole 1 s else s
  s1.updPair (fun x => { x with enabledAt := s.counter, activeAt := none, offs := [], retryAt := none })

/-- ENABLE becomes 0: SOLO. -/
def pairStop (s : State) : State :=
  let s1 := ((setRole 0 s).set F.Pair.GUARDED pgPair 0).set F.Pair.SNAP_STATUS_STATE pgPair 0
  s1.updPair (fun x => { x with
    expiry := none, view := none, claim := false, sbReady := false, cfgSince := none, own := [], peer := [], mirror := []
    join := none, retryAt := none })

/-- What a function reset of the page discards; a part that was not SOLO holds FENCED or LISTEN. The locks that the snapshot
engine holds break (R84). -/
def pairDiscard (s : State) : State :=
  let s1 := breakLocks 10 (fence 6 s)
  let s2 := if s.role = 0 ∨ s.role = 4 then s1 else setRole 1 s1
  let x := s2.pair
  let y : PairX := {}
  s2.updPair (fun _ => { y with
    tx := x.tx, frameSeq := x.frameSeq, slot := x.slot, epochSeen := x.epochSeen, sentLane := x.sentLane, sentPin := x.sentPin, sent := x.sent
    latchOut := x.latchOut })

end Sys2Proof.Machine
end

