-- ==== Sys2Proof/Machine/LineHooks.lean ====
section
/-! DEFINITION. What other blocks do with a line as it is sent and as it fires. -/

namespace Sys2Proof.Machine

/-- The ports of a raster die fire all-zero lines because its link is down (R40). -/
def State.dieZeroed (s : State) (d : Nat) : Bool := !bitAt (s.get F.Stk.LINK_TRAINED 0x086) d

/-! ### Proof writer (R360 to R364) -/

/-- PROOF_PORTS names a port. -/
def State.proofPort (s : State) (p : Nat) : Bool :=
  bitAt (s.get2 F.Dtrk.PROOF_PORTS_LO F.Dtrk.PROOF_PORTS_HI pgTrk 0) p

/-- N_OUT and N_IN of divider PROOF_DIV. -/
def State.proofRatio (s : State) : Nat × Nat :=
  let d := s.get F.Dtrk.PROOF_DIV pgTrk
  (s.getI F.Div.N_OUT_M1 0x00C d + 1, s.getI F.Div.N_IN_M1 0x00C d + 1)

/-- floor(x × N_OUT / N_IN) of a signed 48.16 distance (R361). -/
def State.rowFloor (s : State) (x : Int) : Int := (x * s.proofRatio.1) / ((65536 * s.proofRatio.2 : Nat) : Int)

/-- PROOF_W0. -/
def State.proofW0 (s : State) : Nat := s.get2 F.Dtrk.PROOF_W0_LO F.Dtrk.PROOF_W0_HI pgTrk 0

/-- The Proof row of a web coordinate (R361). -/
def State.proofRow (s : State) (w : Nat) : Nat := unsext 32 (s.rowFloor (sext 64 (w + 2 ^ 64 - low 64 s.proofW0)))

/-- SDRAM address of a row's slot (R363). -/
def State.rowSlot (s : State) (row : Nat) : Nat :=
  s.get F.Dtrk.PROOF_BASE pgTrk * 4096 + 196672 * (row % s.get F.Dtrk.PROOF_ROWS pgTrk)

/-- VOL of a colour and level (Table 11-9). -/
def State.volume (s : State) (c level : Nat) : Nat := low 8 (s.apt pgTrk (0x2000 + 4 * (8 * c + level % 8)))

/-- The row that a port has been writing is written as it stands (R362, Table 11-1). DESIGN CHOICE: a quiesced writer issues no
store, and its rows stay unwritten (R117, log 132). -/
def proofWrite (p : Nat) (s : State) : State :=
  match tfind s.trk.proof p with
  | none => s
  | some x =>
    let s1 := s.updTrk (fun t => { t with proof := tdel t.proof p })
    let a := s.rowSlot x.row
    let m := s.sdramView
    if x.drop ∨ x.lines = 0 ∨ memLe m a 4 ≠ x.row ∨ s.on F.Hdr.QUIESCE pgTrk then s1
    else
      let bs := x.sums.map (fun v => (v + x.lines / 2) / x.lines)
      let done := setBit (memLe m (a + 4) 6) p
      let part := memLe m (a + 10) 6
      let sum := memLe m (a + 16) 5 + bs.foldl (· + ·) 0
      let head := leBytes 6 done ++ leBytes 6 (if x.part then setBit part p else part) ++ leBytes 5 sum
      sdramWrite 6 (a + 4) head (sdramWrite 6 (a + 64 + 4096 * p) (bs.map (BitVec.ofNat 8)) s1)

/-- A port begins a row (R364). -/
def proofBegin (p row : Nat) (part : Bool) (s : State) : State :=
  let a := s.rowSlot row
  let old := memLe s.sdramView a 4
  let put := fun (drop : Bool) (s : State) =>
    s.updTrk (fun t => { t with proof := tput t.proof p { row := row, part := part, drop := drop, sums := List.replicate 4096 0 } })
  if old = row then put false s
  else if 0 < sext 32 (row + 2 ^ 32 - old) then
    if s.on F.Hdr.QUIESCE pgTrk then put true s else put false (sdramWrite 6 a (leBytes 4 row ++ List.replicate 60 0) s)
  else
    let s1 := (put true s).sat F.Dtrk.PROOF_DROPPED pgTrk
    s1.raise Ev.dtrkProofDrop pgTrk (arg64 (s1.get F.Dtrk.PROOF_DROPPED pgTrk) row)

/-- The landing coordinate of a line with its target, offset and flight time (R360); the rounding of the direct term to
48.16 is not stated. -/
def State.landing (s : State) (p target dw flight : Nat) : Nat :=
  let w : Int := (target : Int) - dw
  if s.on F.Port.FIRE_MODE (pgPort p) then unsext 64 w
  else
    let v := ((s.posOf (s.get F.Port.ENC_SRC (pgPort p))).rep (dieOf p + 1)).v
    unsext 64 (w + Config.roundReal ((if 0 < v then v else 0) * flight / 16 * 65536))

/-- The Proof writer takes a fired line of folio `n` (R362); `jump` tells that R262 has clipped the start of the folio. -/
def proofLine (p n target dw flight : Nat) (jump : Bool) (levels : List Nat) (s : State) : State :=
  if s.on F.Hdr.ENABLE pgTrk && s.proofPort p then
    let row := s.proofRow (s.landing p target dw flight)
    let s1 := if jump then s.updTrk (fun t => { t with proof := t.proof.map (fun e =>
        if e.1 = p then (e.1, { e.2 with part := true }) else e) }) else s
    let s2 : State := match tfind s1.trk.proof p with
      | some x => if x.row = row then s1 else proofBegin p row jump (proofWrite p s1)
      | none => proofBegin p row true s1
    let c := (s.asOf (regionOf p) n).getI F.Scr.COLOUR (pgScr (regionOf p)) (p % 12)
    s2.updTrk (fun t => { t with proof := t.proof.map (fun e =>
      if e.1 = p then
        (e.1, { e.2 with lines := e.2.lines + 1, sums := (e.2.sums.zip levels).map (fun v => v.1 + s.volume c v.2) })
      else e) })
  else s

/-- A port's run ends, is held or faults: its Proof row is written as it stands, as a partial row (R362). -/
def proofEnd (p : Nat) (s : State) : State :=
  proofWrite p (s.updTrk (fun t => { t with proof := t.proof.map (fun e =>
    if e.1 = p then (e.1, { e.2 with part := true }) else e) }))

end Sys2Proof.Machine
end

