-- ==== Sys2Proof/Machine/Ports.lean ====
section
/-! DEFINITION. Firing ports, pages 0x010 to 0x03F: the line buffer, sending, folio chaining and replay, and the states of
Table 8-1 other than what firing a line does (R260 to R267, R279 to R292, R637). Port states: 0 STOPPED, 1 TICKLE, 2 FILLING,
3 ARMED, 4 RUNNING, 5 STOPPING, 6 HELD, 7 FAULT. -/

namespace Sys2Proof.Machine

/-- A field of a port's page. -/
def State.pget (s : State) (f : Fld) (p : Nat) : Nat := s.get f (pgPort p)

/-- CONTROL.ENABLE of a port. -/
def State.portOn (s : State) (p : Nat) : Bool := s.on F.Hdr.ENABLE (pgPort p)

/-- RUN_STATUS.STATE takes a value; outside RUNNING and STOPPING, URGENT is 0 (R285). FAULT may
fence a pair (Table 15-5). -/
def setRun (p v : Nat) (s : State) : State :=
  let s0 := if v = 7 ∧ s.get F.Port.RUN_STATUS_STATE (pgPort p) ≠ 7 then pairPortFault p s else s
  let s1 := s0.set F.Port.RUN_STATUS_STATE (pgPort p) v
  if v = 4 ∨ v = 5 then s1 else s1.set F.Port.URGENT (pgPort p) 0

/-- Position channel of a port. -/
def State.chOf (s : State) (p : Nat) : Nat := s.pget F.Port.ENC_SRC p

/-- The port's replica on its die (R30). -/
def State.repOf (s : State) (p : Nat) : Replica := (s.posOf (s.chOf p)).rep (dieOf p + 1)

/-- A line does not come after another, in folio order. -/
def lineLe (a b : Nat × Nat) : Bool := decide (folioDiff a.1 b.1 < 0) || (a.1 == b.1 && decide (a.2 ≤ b.2))

/-- The line of a slot. -/
def Slot.at_ (q : Slot) : Nat × Nat := (q.folio, q.line)

/-- The port's head is in throttle (R552, R553). -/
def State.throttled (s : State) (p : Nat) : Bool :=
  let f := match p % 4 with
    | 0 => (F.Thm.HS_LEVEL_0, F.Thm.HS_SD_LATCHED_0)
    | 1 => (F.Thm.HS_LEVEL_1, F.Thm.HS_SD_LATCHED_1)
    | 2 => (F.Thm.HS_LEVEL_2, F.Thm.HS_SD_LATCHED_2)
    | _ => (F.Thm.HS_LEVEL_3, F.Thm.HS_SD_LATCHED_3)
  decide (2 ≤ s.getI f.1 0x0A9 (p / 4)) || s.onI f.2 0x0A9 (p / 4) ||
    (s.laneOn F.Lane.TEMP_STALE p && s.on F.Thm.HEAD_STALE_THROTTLE 0x0A9)

/-- Complete lines not yet sent. -/
def PortX.ready (x : PortX) : Nat := (x.slots.filter (fun q => q.data.isSome && !q.sent)).length

/-- The record is clean, and every line was written (R288). -/
def PortX.recDone (x : PortX) : Bool :=
  x.recClean && x.recLines == x.recTotal && x.recFolio.any (fun n => !x.dirty.contains n)

/-- The record is clean and holds a folio (R289): it was recorded or is being recorded in this run, as far as its lines have
been sent, or it was replayed. DEDUCED: line 0 of folio N is requested before the last lines of folio N - 1 are sent, so a
record that is still being written counts (log 119). -/
def State.recordHolds (s : State) (p n : Nat) : Bool :=
  let x := s.portOf p
  x.recClean && !x.dirty.contains n &&
    ((x.recFolio == some n && (x.recLines == x.recTotal || x.runs.any (fun r => r.n == n))) ||
      x.runs.any (fun r => r.n == n && r.replay))

/-- The lines that are due now and not yet fired (R272). -/
def State.backlog (s : State) (p : Nat) : Nat := ((s.portOf p).due.filter (fun d => decide (d / 16 ≤ s.now))).length

/-- The port and cluster fields that are views (Tables 8-9, 8-10). -/
def State.viewPort (s : State) (f : Fld) (p : Nat) : Option Nat :=
  let x := s.portOf p
  if f == F.Port.HELD then some x.slots.length
  else if f == F.Port.READY then some x.ready
  else if f == F.Port.SENT then some (x.slots.filter (·.sent)).length
  else if f == F.Port.BACKLOG then some (s.backlog p)
  else if f == F.Port.THROTTLED then some (bit (s.throttled p))
  else if f == F.Port.REPLAY_CLEAN then some (bit x.recDone)
  else none

/-- PORT_RUNNING (Table 8-9). -/
def State.viewClu (s : State) (f : Fld) (c : Nat) : Option Nat :=
  if f == F.Clu.PORT_RUNNING then some ((List.range 4).foldl (fun a i => a + bit (s.runState (4 * c + i) == 4) * 2 ^ i) 0)
  else none

/-- The FIRE pair of a port is active now (R273, R278). -/
def State.fireActive (s : State) (p : Nat) : Bool :=
  (s.portOf p).strobes.any (fun t => decide (t.1 / 16 ≤ s.now) && decide (16 * s.now < t.2))

/-- A strobe of the port has not ended yet. -/
def State.strobing (s : State) (p : Nat) : Bool := (s.portOf p).strobes.any (fun t => decide (16 * s.now < t.2))

/-- URGENT follows READY in RUNNING and STOPPING (R285). -/
def urgency (p : Nat) (s : State) : State :=
  if s.runState p = 4 ∨ s.runState p = 5 then
    let r := (s.portOf p).ready
    let w := s.pget F.Port.WATERMARK p
    if r ≤ w then s.set F.Port.URGENT (pgPort p) 1
    else if w + 2 ≤ r then s.set F.Port.URGENT (pgPort p) 0
    else s
  else s

/-- The argument of an event that names a line of a port (Table 8-11). -/
def portArg (p n mid : Nat) : Nat := arg64 n (mid + p)

/-! ### Sending (R280 to R282, R288, R292, R314) -/

/-- SDRAM address of a line of the replay record (R288). -/
def State.replayAddr (s : State) (p line : Nat) : Nat := s.pget F.Port.REPLAY_BASE p * 4096 + 1536 * line

/-- A sent line goes to the replay record (R288); a quiesced port issues no store, and its record is not clean (R117). -/
def record (p : Nat) (q : Slot) (levels : List Nat) (zero : Bool) (s : State) : State :=
  let lines := (s.linesFor p q.folio).getD 0
  if s.replays p q.folio then s
  else if s.on F.Port.REPLAY_EN (pgPort p) ∧ lines * 1536 ≤ s.pget F.Port.REPLAY_SIZE p * 4096 ∧
      s.on F.Hdr.QUIESCE (pgPort p) = false then
    let s1 := sdramWrite 3 (s.replayAddr p q.line) (levelBytes levels) s
    s1.updPort p (fun x =>
      if q.line = 0 then { x with recFolio := some q.folio, recTotal := lines, recLines := 1, recClean := !zero }
      else if x.recFolio = some q.folio ∧ x.recLines = q.line then
        { x with recLines := q.line + 1, recClean := x.recClean && !zero }
      else { x with recClean := false })
  else s.updPort p (fun x => if x.recFolio = some q.folio then { x with recClean := false } else x)

/-- An uncorrectable line-buffer word (R282). -/
def bufferError (p : Nat) (q : Slot) (s : State) : State :=
  ((sramUe (dieOf p + 1) s).sat F.Clu.LB_UNCORRECTED (pgClu (p / 4))).raise Ev.fireBufferError (pgPort p)
    (portArg p q.folio (low 24 q.line * 256))

/-- Slot `k` of a port sent over its lane; `bufErr`: its read finds an uncorrectable word. -/
def sendSlot (p k : Nat) (bufErr : Bool) (s : State) : State :=
  match (s.portOf p).slots[k]? with
  | none => s
  | some q =>
    let muted := s.dieZeroed (dieOf p) || s.throttled p
    let err := !muted && q.data.isSome && !q.bad && bufErr
    let zero := muted || q.bad || err || q.data.isNone
    let s1 := if err then bufferError p q s
      else if !muted && !q.bad && q.data.isNone && s.transmits p then underrun p q.folio q.line s
      else s
    let s2 := s1.updPort p (fun x => { x with
      slots := x.slots.set k { q with sent := true, zero := zero, data := if zero then none else q.data } })
    let levels := if zero then List.replicate 4096 0 else q.data.getD []
    let s3 := pairLine p q.folio q.line levels (record p q levels zero s2)
    let s4 := if q.seq = 0 then requireSelect p false s3 else selectOnBand p s3
    let ph := (((s.portOf p).runs.find? (fun r => r.n == q.folio)).map (·.phases.length)).getD 1
    laneLine p (lineMsg q.folio q.line ph q.seq (s.pget F.Port.LANE_AHEAD p) (q.seq == 0) (if zero then none else some levels)) s4

/-- The first line that has not been sent. -/
def PortX.unsent (x : PortX) : Option (Nat × Slot) :=
  (x.slots.zipIdx.find? (fun e => !e.1.sent)).map (fun e => (e.2, e.1))

/-- A port that stops does not send or request a line beyond its last one. -/
def PortX.within (x : PortX) (st : Nat) (l : Nat × Nat) : Bool :=
  match x.stopAt with
  | some e => st != 5 || lineLe l e
  | none => true

/-- The send point at f_L (R280). -/
def sendPoint (p : Nat) (bufErr : Bool) (s : State) : State :=
  match (s.portOf p).unsent with
  | some (k, q) =>
    if k < s.pget F.Port.LANE_AHEAD p ∧ (s.portOf p).within (s.runState p) q.at_ then sendSlot p k bufErr s else s
  | none => s

/-- In FILLING the first lines are sent as each becomes complete (R265); `bufErr`: the first one's read finds an uncorrectable
word (R282). -/
def fillSend : Nat → Nat → Bool → State → State
  | 0, _, _, s => s
  | fuel + 1, p, bufErr, s =>
    if s.runState p = 2 then
      match (s.portOf p).unsent with
      | some (k, q) =>
        if k < s.pget F.Port.LANE_AHEAD p ∧ (q.data.isSome ∨ q.bad) then fillSend fuel p false (sendSlot p k bufErr s) else s
      | none => s
    else s

/-! ### Requests, folio chaining and replay (R261, R262, R279, R287, R289) -/

/-- The port replays a folio (R289). -/
def State.mayReplay (s : State) (p n : Nat) : Bool :=
  let r := regionOf p
  let pages := [pgInfl r, pgGlz r, pgScr r]
  let flags : Bool := match (s.folio n).bind (fun f => if f.known then f.hdr else none) with
    | some h => h.replay && h.same
    | none => false
  s.on F.Port.REPLAY_EN (pgPort p) && flags && s.recordHolds p (prevFolio n) && pages.all (fun pg => s.cstate pg == 0 &&
    s.get F.Hdr.LAST_BOUNDARY pg != n % 2 ^ 24 &&
    (List.range 8).all (fun g => !s.groupNames g pg || s.gstate g == 0))

/-- S of a folio less S of the folio before it, and the amount of R262 that is not applied. -/
def chainGain (lines pitch dw prevDw : Nat) : Int × Nat :=
  let d := (dw : Int) - prevDw
  let lim : Int := -(8 * pitch : Nat)
  if d < lim then ((lines * pitch : Nat) + lim, (lim - d).toNat) else ((lines * pitch : Nat) + d, 0)

/-- LINES of a folio below E for a port that started behind E (R132): those that ingest holds while another port still prints
the folio, else INGEST_DEFAULT_LINES. -/
def State.linesBehind (s : State) (p n : Nat) : Option Nat :=
  match (s.portOf p).noItems with
  | some e =>
    if folioDiff n e < 0 then
      let prints := fun (q : Nat) => q != p && (s.inRun q || s.runState q == 6) && s.portFolio q == n
      some ((if (List.range Config.ports).any prints then s.linesOf n else none).getD (s.get F.Ing.INGEST_DEFAULT_LINES pgIng))
    else none
  | none => none

/-- The reference instant of a folio at a port, as line 0 of it is requested: a swap, and what the folio carries (R74, R261,
R287, R289). -/
def takeFolio (p n : Nat) (s : State) : State :=
  let pg := pgPort p
  let s1 := reachBoundary pg n s
  let dw := s1.get2 F.Port.DW_OFFSET_LO F.Port.DW_OFFSET_HI pg 0
  let rep := s1.mayReplay p n
  let x := s1.portOf p
  let prev := x.runs.find? (fun r => r.n == prevFolio n)
  let g := prev.map (fun r => chainGain ((s1.linesFor p r.n).getD 0) (s1.pget F.Port.LINE_PITCH p) dw r.dw)
  let start := match prev, g with
    | some r, some g => r.start.map (fun v => unsext 64 ((v : Int) + g.1))
    | _, _ => if x.src = 0 then some (low 64 (s1.get2 F.Port.ORIGIN_LO F.Port.ORIGIN_HI pg 0 + dw)) else none
  let run : FolioRun := ⟨n, start, g.map (·.1), dw, s1.pget F.Port.FLIGHT p, s1.phases false pg, rep, s1.linesBehind p n⟩
  let s2 := s1.updPort p (fun x => { x with runs := x.runs ++ [run] })
  let cut := (g.map (·.2)).getD 0
  let s3 := if cut = 0 then s2 else s2.raise Ev.fireOffsetClipped pg (arg64 n cut)
  if rep then
    let s4 := s3.updPort p (fun x => { x with composed := x.composed.filter (fun c => c.1 != n) })
    ((s4.set F.Port.REPLAYING pg 1).wrap F.Port.REPLAYED_FOLIOS pg).raise Ev.fireReplayStart pg (portArg p n 0)
  else s3.set F.Port.REPLAYING pg 0

/-- The next line that Glaze composes stands at line 0 of no replayed folio (R289). -/
def PortX.passReplays (x : PortX) : PortX :=
  x.runs.foldl (fun x r => if r.replay && x.compose == some (r.n, 0) then { x with compose := some (nextFolio r.n, 0) } else x) x

/-- A replay read was poisoned: the record is not clean (R290). -/
def replayBad (p n line : Nat) (s : State) : State :=
  (s.updPort p (fun x => { x with recClean := false })).raise Ev.fireReplayError (pgPort p) (portArg p n (low 24 line * 256))

/-- The replay read of a line can go: its SDRAM channels serve (R124, R289). -/
def State.replayServed (s : State) (p line : Nat) : Bool := !s.sdramHeld (s.replayAddr p line) 1536

/-- The replay read of the line in slot `k` of a port (R289, R290). -/
def replayRead (p k : Nat) (s : State) : State :=
  match (s.portOf p).slots[k]? with
  | none => s
  | some q =>
    let a := s.replayAddr p q.line
    let bad := !(s.poisonIn a 1536).isEmpty
    let data := if bad then none else some (bytesLevels (s.sdramBytes a 1536))
    let s1 := (sdramRead 3 a 1536 s).updPort p (fun x => { x with
      slots := x.slots.set k { q with asked := true, data := data, bad := bad } })
    if bad then replayBad p q.folio q.line s1 else s1

/-- A line takes a slot and is requested; a quiesced port asks for nothing (R117, R279). A replayed line is read from the
record (R289). -/
def request (p : Nat) (l : Nat × Nat) (s : State) : State :=
  let s1 := if l.2 = 0 then takeFolio p l.1 s else s
  let rep := s1.replays p l.1
  let ask := s1.active (pgPort p)
  let read := rep && ask && s1.replayServed p l.2
  let s2 := s1.updPort p (fun x => PortX.passReplays { x with
    slots := x.slots ++ [{ folio := l.1, line := l.2, seq := x.seq, asked := ask && !rep }]
    seq := x.seq + 1
    lastLine := some l
    lastReq := if ask then some l else x.lastReq
    compose := if x.compose.isNone then some l else x.compose })
  if read then replayRead p (s1.portOf p).slots.length s2 else s2

/-- Requests up to 16 lines held, as far as LINES of the folios on the way is known (R279). -/
def topUp : Nat → Nat → State → State
  | 0, _, s => s
  | fuel + 1, p, s =>
    let x := s.portOf p
    if 16 ≤ x.slots.length ∨ !s.inRun p then s
    else
      match (match x.lastLine with
        | some l => s.nextLine p l
        | none => some (x.start, 0)) with
      | some l => if x.within (s.runState p) l then topUp fuel p (request p l s) else s
      | none => s

/-- Slot `k` of a port, not yet asked for, is requested; its replay read goes once it is served. -/
def askSlot (p k : Nat) (s : State) : State :=
  match (s.portOf p).slots[k]? with
  | none => s
  | some q =>
    if q.asked then s
    else if s.replays p q.folio && !q.sent then (if s.replayServed p q.line then replayRead p k s else s)
    else s.updPort p (fun x => { x with slots := x.slots.set k { q with asked := true } })

/-- The lines of a port that it has not asked for, while it was quiesced or its reads waited, are requested (R117, R124). -/
def portRelease (p : Nat) (s : State) : State :=
  let s1 := s.updPort p (fun x => { x with lastReq := x.lastLine })
  urgency p (fillSend 16 p false (forAll (List.range (s.portOf p).slots.length) s1 (askSlot p)))

/-- A replay read of a port has waited for SDRAM, which serves it now. -/
def State.replayWaits (s : State) (p : Nat) : Bool :=
  s.active (pgPort p) && (s.portOf p).slots.any (fun q => !q.asked && !q.sent && s.replayServed p q.line)

/-- The levels of a line arrive in the buffer; those of a line already sent are discarded (R281). `bufErr`: a line that goes
out at once, in FILLING, reads uncorrectable (R282). -/
def lineComplete (p : Nat) (l : Nat × Nat) (levels : List Nat) (bufErr : Bool) (s : State) : State :=
  let s1 := s.updPort p (fun x => { x with
    slots := x.slots.map (fun q => if q.at_ = l then
      { q with screened := true, data := if !q.sent ∧ q.data.isNone ∧ !q.bad then some levels else q.data } else q) })
  urgency p (topUp 16 p (fillSend 16 p bufErr s1))

/-! ### Targets (R260, R249, R266) -/

/-- S of a folio of a port, where it stands. -/
def State.startOf (s : State) (p n : Nat) : Option Nat :=
  ((s.portOf p).runs.find? (fun r => r.n == n)).bind (·.start)

/-- T(N, L) modulo 2^64, 48.16 (R260). -/
def State.targetOf (s : State) (p : Nat) (l : Nat × Nat) : Option Nat :=
  (s.startOf p l.1).map (fun v => low 64 (v + l.2 * s.pget F.Port.LINE_PITCH p))

/-- The start target of the first folio set, and those of the folios behind it formed from it (R261). -/
def rechain (s0 : Nat) : List FolioRun → List FolioRun
  | [] => []
  | r :: rest => { r with start := some (low 64 s0) } :: (match rest with
    | [] => []
    | q :: _ => rechain (unsext 64 ((s0 : Int) + q.gain.getD 0)) rest)

/-- S_0 of the folio being started set to a value. -/
def setStart (p v : Nat) (s : State) : State :=
  s.updPort p (fun x =>
    let old := x.runs.filter (fun r => decide (folioDiff r.n x.start < 0))
    { x with runs := old ++ rechain v (x.runs.filter (fun r => decide (0 ≤ folioDiff r.n x.start))) })

/-- The value that the folio-start comparator works on (R265). -/
def State.startPos (s : State) (p : Nat) : Nat :=
  if s.on F.Port.FIRE_MODE (pgPort p) then s.posNow (s.chOf p) (dieOf p + 1) else s.countNow (s.chOf p) (dieOf p + 1) * 65536

/-- START_LATE_COUNT and FIRE.START_LATE (R266). -/
def startLate (p k : Nat) (s : State) : State :=
  let x := s.portOf p
  (pairStartLate p (s.satI F.Port.START_LATE_COUNT (pgPort p) 0 1)).raise Ev.fireStartLate (pgPort p)
    (portArg p x.start (low 24 k * 256 + x.src * 64))

/-! ### Ends of a run and tickle (R264, R266, R291, R637) -/

/-- The port's lines, targets and place in the folio are gone; strobes not yet risen are not issued. A record that was still
being written stays cut short, and is not clean (R288). -/
def dropRun (p : Nat) (s : State) : State :=
  let s1 := proofEnd p s
  let s2 := s1.updLane p (fun x => { x with lines := [] })
  let s3 := s2.updPort p (fun x => { x with
    recClean := x.recClean && x.recLines == x.recTotal
    slots := [], lastReq := none, lastLine := none, compose := none, composed := [], runs := [], due := [], lastF := none
    fired := none, seq := 0, started := false, stopAt := none, stopTo := 0, noItems := none, leaving := false
    strobes := x.strobes.filter (fun t => decide (t.1 / 16 ≤ s.now)) })
  (s3.set F.Port.PREDICT_FALLBACK (pgPort p) 0).set F.Port.REPLAYING (pgPort p) 0

/-- MODE_STATE.MODE. -/
def State.modeIs (s : State) (m : Nat) : Bool := s.get F.Mode.MODE pgMode == m

/-- Safe-Hold is being entered: no strobe begins (R102). -/
def State.holding (s : State) : Bool := s.on F.Mode.IN_TRANSITION pgMode && s.get F.Mode.TARGET_MODE pgMode == 5

/-- R291 asks the port for tickle. -/
def State.tickles (s : State) (p : Nat) : Bool :=
  s.portOn p && s.on F.Port.TICKLE_EN (pgPort p) && (s.modeIs 2 || s.modeIs 4) && !s.holding

/-- A port that runs nothing: TICKLE where R291 asks for it, else STOPPED. -/
def portRest (p : Nat) (s : State) : State :=
  if s.tickles p then
    requireSelect p true ((setRun p 1 s).updPort p (fun x => { x with tickled := 16 * s.now, leaving := false }))
  else setRun p 0 s

/-- The run ends; the port rests. -/
def endRun (p : Nat) (s : State) : State := portRest p (dropRun p s)

/-! ### Starting a run (R132, R264, R265) -/

/-- LINE_TIME of a lane rate (Table 8-7). -/
def lineTime (rate : Nat) : Nat :=
  match rate with
  | 0 => 10200
  | 1 => 5100
  | _ => 2600

/-- The lowest reason of Table 8-2, 0 for none. -/
def State.startReason (s : State) (p : Nat) : Nat :=
  let cm := s.get F.Pos.MODE (pgPos (s.chOf p))
  let mp := s.pget F.Port.MIN_PERIOD p
  if s.pget F.Port.LINE_PITCH p = 0 then 1
  else if mp < 8334 then 2
  else if s.pget F.Port.GRID p ≠ s.get F.Ing.GRID pgIng then 3
  else if (s.pget F.Port.FIRE_MODE p = 0 ∧ cm = 2) ∨ (s.pget F.Port.START_SRC p = 1 ∧ cm ≠ 0) then 4
  else if mp < lineTime (s.laneGet F.Lane.RATE p) then 5
  else if !s.phasesValid false (pgPort p) then 6
  else 0

/-- What ingest and the region take from the start of a port's run: the expected folio (R132), and, for the region's first
port, the folio that its pages' next boundary is (Table 2-4). -/
def runStarts (p n : Nat) (s : State) : State :=
  let others := (List.range Config.ports).filter (fun q => q != p && s.inRun q)
  let s1 := if others.isEmpty then setExpected true n s
    else if folioDiff n s.expected < 0 then s.updPort p (fun x => { x with noItems := some s.expected })
    else s
  if others.any (fun q => regionOf q == regionOf p) then s1
  else
    let stands := fun (l : RectList) => match s1.folio l.folio with
      | some f => f.known && f.items.any (fun i => i.e.ix == l.ix && i.st == 2)
      | none => false
    let r := regionOf p
    let s2 := s1.updRegn r (fun x => { x with
      begun := none, old := [], decoded := x.decoded.filter stands, lists := []
      badTab := x.badTab.map (fun b => (b.1, b.2.1, [])) })
    forAll ([pgInfl r, pgGlz r, pgScr r].filter (fun pg => !s2.stopped pg)) s2 (fun pg s => startBoundary pg n s)

/-- The tests of R264, then FILLING. -/
def beginRun (p : Nat) (s : State) : State :=
  let c := s.startReason p
  if c ≠ 0 then setRun p 7 (portInvalid (pgPort p) 0xFFFFFFFF c s)
  else
    let n := s.pget F.Port.START_FOLIO p
    let s1 := s.updPort p (fun x => { x with start := n, src := s.pget F.Port.START_SRC p, started := false })
    let s2 := setRun p 2 (runStarts p n s1)
    urgency p (topUp 16 p (startBoundary (pgPort p) n s2))

/-- The port leaves TICKLE: WAVE_SELECT for its band goes before anything else (R291, R314). -/
def endTickle (p : Nat) (s : State) : State :=
  setRun p 0 (requireSelect p false (s.updPort p (fun x => { x with leaving := false })))

/-- Image lines may be fired: the mode is Print or Service (R96). -/
def State.printMode (s : State) : Bool := s.modeIs 3 || s.modeIs 4

/-- A port may start a run: Print or Service, and no way out of it is under way (R100, R102, R264). -/
def State.mayRun (s : State) (p : Nat) : Bool :=
  s.portOn p && s.printMode && !(s.portOf p).spent && !s.on F.Mode.IN_TRANSITION pgMode

/-- What a port that runs nothing does next: a run, tickle, or nothing. A port in TICKLE completes the strobe in progress
first (R264, R291). -/
def portNext (p : Nat) (s : State) : State :=
  let stays := !s.mayRun p && s.tickles p
  match s.runState p with
  | 0 => if s.mayRun p then beginRun p s else if stays then portRest p s else s
  | 1 =>
    if stays then s
    else if s.strobing p then s.updPort p (fun x => { x with leaving := true })
    else if s.mayRun p then beginRun p (endTickle p s)
    else endTickle p s
  | _ => s

/-! ### HOLD (R267) -/

/-- With HOLD the port stops after the last line of the folio that it fires. -/
def holdCheck (p : Nat) (s : State) : State :=
  let x := s.portOf p
  match x.fired, x.stopAt with
  | some (n, _), none =>
    match s.linesFor p n with
    | some k =>
      if s.on F.Hdr.HOLD (pgPort p) ∧ s.runState p = 4 then
        s.updPort p (fun x => { x with stopAt := some (n, k - 1), stopTo := 6 })
      else s
    | none => s
  | _, _ => s

/-- HELD ends: FILLING for the next folio, armed as if START_SRC were 0. -/
def resume (p : Nat) (s : State) : State :=
  let x := s.portOf p
  let next := match x.fired with
    | some (n, _) => nextFolio n
    | none => x.start
  urgency p (topUp 16 p (setRun p 2 (s.updPort p (fun x => { x with
    start := next, src := 0, started := false, stopAt := none, stopTo := 0, due := [] }))))

/-- HOLD is written on a firing page. -/
def portHold (p : Nat) (on : Bool) (s : State) : State :=
  if on then holdCheck p s
  else if s.runState p = 6 then resume p s
  else
    let x := s.portOf p
    if s.runState p = 4 ∧ x.stopTo = 6 ∧ x.stopAt ≠ x.fired then
      s.updPort p (fun x => { x with stopAt := none, stopTo := 0 })
    else s

/-! ### Stops -/

/-- The last line that fires is set; lines due beyond it are not. -/
def stopAfter (p : Nat) (l : Nat × Nat) (st : Nat) (s : State) : State :=
  s.updPort p (fun x => { x with
    stopAt := some l, stopTo := st, due := x.due.take (x.slots.filter (fun q => lineLe q.at_ l)).length })

/-- The strobes of the last line have ended (R100, R267, R294, R637). -/
def runEnded (p : Nat) (s : State) : State :=
  match (s.portOf p).stopTo with
  | 6 => if s.on F.Hdr.HOLD (pgPort p) then
      setRun p 6 ((proofEnd p s).updPort p (fun x => { x with stopAt := none, stopTo := 0, due := [] }))
    else resume p s
  | 7 => setRun p 7 (dropRun p s)
  | _ => endRun p s

/-- What waits for the end of strobes in progress, as time passes. -/
def settleStop (p : Nat) (s : State) : State :=
  let x := s.portOf p
  if s.strobing p then s
  else if x.leaving then
    let s1 := endTickle p s
    portNext p s1
  else if x.stopAt.isSome ∧ x.stopAt = x.fired ∧ (s.runState p = 4 ∨ s.runState p = 5) then runEnded p s
  else s

/-- WAVE_SELECT for the head's band is due as a port leaves TICKLE (R314). -/
def leaveTickle (p : Nat) (s : State) : State := if s.runState p = 1 then requireSelect p false s else s

/-- Phase-0 instants of lines from their due instants (R271), in 1/16 fclk. -/
def fireTimes (gap : Nat) : Option Nat → List Nat → List Nat
  | _, [] => []
  | last, d :: ds =>
    let f := match last with
      | some t => max d (t + gap)
      | none => d
    f :: fireTimes gap (some f) ds

/-- The ninth line of the backlog has become due before the first one's phase-0 instant (R272). -/
def State.overrun (s : State) (p : Nat) : Option (Nat × Nat) :=
  let x := s.portOf p
  match x.due[8]?, x.slots[8]?, x.due.head? with
  | some d, some q, some d0 =>
    if d / 16 ≤ s.now ∧ d < (fireTimes (16 * s.pget F.Port.MIN_PERIOD p) x.lastF [d0]).getD 0 0 then some q.at_ else none
  | _, _, _ => none

/-- Backlog fault (R272). -/
def backlogFault (p : Nat) (l : Nat × Nat) (s : State) : State :=
  let s1 := (setRun p 7 (dropRun p s)).set F.Hdr.FAULT (pgPort p) 1
  s1.raise Ev.fireBacklogFault (pgPort p) (portArg p l.1 (low 24 l.2 * 256))

/-- The backlog is judged (R272). -/
def backlogCheck (p : Nat) (s : State) : State :=
  match s.overrun p with
  | some l => backlogFault p l s
  | none => s

/-- What a port does by itself as time passes: lines go out in FILLING, the backlog is judged, a stop ends (R265, R272). -/
def settlePort (p : Nat) (s : State) : State := settleStop p (backlogCheck p (fillSend 16 p false s))

/-- ENABLE of a port becomes 1 (R264, R266). -/
def portStart (p : Nat) (s : State) : State := portNext p (s.updPort p (fun x => { x with spent := false }))

/-- ENABLE of a port becomes 0 (R264, R637). -/
def portStop (p : Nat) (s : State) : State :=
  let s0 := s.updPort p (fun x => { x with spent := false })
  match s.runState p with
  | 4 =>
    let s1 := setRun p 5 (s0.updLane p (fun x => { x with lines := [] }))
    settleStop p (urgency p (s1.updPort p (fun x => { x with slots := [], due := [], stopAt := x.fired, stopTo := 0 })))
  | 5 => s0
  | 1 => portNext p s0
  | 0 => s0
  | _ => setRun p 0 (dropRun p s0)

/-- A way from Print or Service to Idle is accepted (R100). -/
def portLeave (stopNow : Bool) (p : Nat) (s : State) : State :=
  match s.runState p with
  | 4 =>
    match (s.portOf p).fired with
    | some (n, l) =>
      let last := if stopNow then (n, l) else (n, (s.linesFor p n).getD (l + 1) - 1)
      settleStop p (stopAfter p last 0 (setRun p 5 s))
    | none => endRun p s
  | 2 => endRun p s
  | 3 => endRun p s
  | 6 => endRun p s
  | _ => s

/-- A port still has to stop before Idle is reached (R100). -/
def State.portBusy (s : State) (p : Nat) : Bool := s.inRun p || s.runState p == 6 || (s.portOf p).leaving

/-- Safe-Hold, step 1: no further rising edge; the port is STOPPED (R102). A port in FAULT stays there. -/
def portHalt (p : Nat) (s : State) : State :=
  if s.runState p = 7 then dropRun p s else setRun p 0 (dropRun p (leaveTickle p s))

/-- A function reset of a firing page (R295, Table 3-8). -/
def portDiscard (p : Nat) (s : State) : State :=
  (dropRun p (leaveTickle p s)).updPort p (fun x => { strobes := x.strobes })

/-- A fault of the cluster: no strobe after the current line, then FAULT (R294). -/
def clusterFault (c cause : Nat) (s : State) : State :=
  let s0 := (s.set F.Hdr.FAULT (pgClu c) 1).raise Ev.fireClusterFault (pgClu c) (c * 256 + cause)
  let s1 := forAll ((List.range 4).map (4 * c + ·)) s0 pairPortFault
  forAll ((List.range 4).map (4 * c + ·)) s1 (fun p s =>
    match (s.portOf p).fired with
    | some l =>
      if s.runState p = 4 ∨ s.runState p = 5 then
        settleStop p (urgency p ((stopAfter p l 7 s).updPort p (fun x => { x with slots := [], due := [] })))
      else setRun p 7 (dropRun p (leaveTickle p s))
    | none => setRun p 7 (dropRun p (leaveTickle p s)))

end Sys2Proof.Machine
end

