-- ==== Sys2Proof/Machine/Firing.lean ====
section
/-! DEFINITION. Firing a line: due lines in direct and predictive mode, the minimum period and the backlog, strobes, arming,
tickle strobes, latency tolerance, and what the lane tells the port (R265 to R273, R286, R290, R291, R294, R313). -/

namespace Sys2Proof.Machine

/-! ### Due lines -/

/-- The next line that is not due yet, none beyond the last line that fires. -/
def PortX.nextDue (x : PortX) : Option Slot :=
  (x.slots[x.due.length]?).filter (fun q => match x.stopAt with
    | some e => lineLe q.at_ e
    | none => true)

/-- The port times lines: ARMED with its start target standing, RUNNING or STOPPING. -/
def State.timing (s : State) (p : Nat) : Bool :=
  (s.runState p == 3 && (s.portOf p).started) || s.runState p == 4 || s.runState p == 5

/-- A predictive port times its lines as in direct mode: its observer is unlocked, and the channel is no SSI channel (R270). -/
def State.fallback (s : State) (p : Nat) : Bool :=
  s.on F.Port.FIRE_MODE (pgPort p) && s.get F.Pos.MODE (pgPos (s.chOf p)) != 2 && !(s.posOf (s.chOf p)).hub.locked

/-- The next line is due at an instant in 1/16 fclk (R268, R269, R272). -/
def pushDue (p t16 : Nat) (s : State) : State :=
  match (s.portOf p).nextDue with
  | none => s
  | some _ =>
    backlogCheck p (s.updPort p (fun x => { x with due := x.due ++ [t16] }))

/-- Fallback begins or ends (R270). -/
def fallbackCheck (p : Nat) (s : State) : State :=
  let now := s.fallback p
  if s.timing p ∧ s.on F.Port.PREDICT_FALLBACK (pgPort p) ≠ now then
    let x := s.portOf p
    let l := match x.nextDue with
      | some q => q.at_
      | none => x.fired.getD (x.start, 0)
    (s.set F.Port.PREDICT_FALLBACK (pgPort p) (bit now)).raise Ev.firePredictFallback (pgPort p)
      (portArg p l.1 (low 24 l.2 * 256 + bit now * 64))
  else s

/-- Lines whose targets the count has reached, at an edge that moved it forward (R268). -/
def dueAtEdge : Nat → Nat → Nat → State → State
  | 0, _, _, s => s
  | fuel + 1, p, t16, s =>
    match ((s.portOf p).nextDue).bind (fun q => s.targetOf p q.at_) with
    | some t =>
      if s.timing p ∧ 0 ≤ diff48 (s.repOf p).count ((t + 65535) / 65536) then dueAtEdge fuel p t16 (pushDue p t16 s) else s
    | none => s

/-- An edge at the ball at `t16` has moved the replicas of a mask forward (R268). -/
def portsEdge (ch moved t16 : Nat) (s : State) : State :=
  let g := s.get F.Pos.GLITCH (pgPos ch)
  forAll ((List.range Config.ports).filter (fun p => s.chOf p == ch && bitAt moved (dieOf p + 1))) s (fun p s =>
    let s1 := fallbackCheck p s
    if s1.pget F.Port.FIRE_MODE p = 0 ∨ s1.fallback p then dueAtEdge 16 p (t16 + 16 * (7 + g)) s1 else s1)

/-- A time in fclk as the port works with it: a fraction of 32 bits (R269). How the rest is rounded is not stated, so it is a
free value (log 120). -/
def frac32 (x : Rat) : Rat := (Config.roundReal (x * 2 ^ 32) : Rat) / 2 ^ 32

/-- The predicted time to a target from a tick, in fclk: the linear estimate and two Newton steps (R269). -/
def predictU (d v a f : Rat) : Rat :=
  let step : Rat → Rat := fun u =>
    let w := u + f
    frac32 (u - (v * w + a * w * w / 2 - d) / (v + a * w))
  step (step (frac32 (d / v - f)))

/-- Lines scheduled at an observer tick (R269). -/
def schedule : Nat → Nat → State → State
  | 0, _, s => s
  | fuel + 1, p, s =>
    match (s.portOf p).nextDue with
    | none => s
    | some q =>
      match s.targetOf p q.at_ with
      | none => s
      | some t =>
        let r := s.repOf p
        if !s.timing p ∨ r.v ≤ 0 then s
        else
          let fl := (((s.portOf p).runs.find? (fun r => r.n == q.folio)).map (·.flight)).getD 0
          let u := predictU (wrapReal ((t : Rat) / 65536 - r.x)) r.v r.a ((fl : Rat) / 16)
          if 1008 ≤ u then s
          else schedule fuel p (pushDue p (16 * s.now + (16 * (if u < 8 then 8 else u) + 1 / 2).floor.toNat) s)

/-- The largest number of 128 fclk that the web needs no longer than to move on by `d` counts (R286). -/
def tolerance (d v a : Rat) : Nat :=
  let fits : Nat → Bool := fun m =>
    let t : Rat := 128 * m
    decide (v * t + a * t * t / 2 ≤ d)
  (List.range 16).foldl (fun m i => if fits (m + 2 ^ (15 - i)) then m + 2 ^ (15 - i) else m) 0

/-- LAT_TOL (R286). -/
def State.latTol (s : State) (p : Nat) : Nat :=
  let r := s.repOf p
  let x := s.portOf p
  if (s.runState p ≠ 4 ∧ s.runState p ≠ 5) ∨ r.v ≤ 0 then 0xFFFF
  else
    let n := x.slots.length
    let open_ := ((x.slots.zipIdx.find? (fun e => !e.1.sent && e.1.data.isNone)).map (·.2)).getD n
    let ahead := s.pget F.Port.LANE_AHEAD p
    if open_ < ahead then 0
    else match (x.slots[open_ - ahead]?).bind (fun q => s.targetOf p q.at_) with
      | none => 0
      | some t =>
        let d := distance false t (s.posNow (s.chOf p) (dieOf p + 1))
        if d ≤ 0 then 0 else tolerance ((d : Rat) / 65536) r.v (if r.a < 0 then 0 else r.a)

/-- What the ports of a channel do at its observer tick (R269, R270, R286). -/
def portsTick (ch : Nat) (s : State) : State :=
  forAll ((List.range Config.ports).filter (fun p => s.chOf p == ch)) s (fun p s =>
    let s1 := fallbackCheck p (s.set F.Port.LAT_TOL (pgPort p) (s.latTol p))
    if s1.on F.Port.FIRE_MODE (pgPort p) && !s1.fallback p then schedule 16 p s1 else s1)

/-! ### Starts (Table 8-3, R266) -/

/-- The start target of a port judged under R249 at its trigger (R265, R266). -/
def judgeStart (p : Nat) (s : State) : State :=
  let x := s.portOf p
  match s.startOf p x.start with
  | none => s
  | some s0 =>
    let d := distance false s0 (s.startPos p)
    if 0 < d then fallbackCheck p (s.updPort p (fun x => { x with started := true }))
    else
      let step := s.get2 F.Port.START_STEP_LO F.Port.START_STEP_HI (pgPort p) 0
      if step = 0 then endRun p ((startLate p 0 s).updPort p (fun x => { x with spent := true }))
      else
        let k := (-d).toNat / step + 1
        fallbackCheck p ((startLate p k (setStart p (s0 + k * step) s)).updPort p (fun x => { x with started := true }))

/-- A trigger of START_SRC 1 or 2 at a value of the port's channel; a late start is discarded (R265, R266). -/
def triggerStart (p value : Nat) (s : State) : State :=
  let x := s.portOf p
  let dw := ((x.runs.find? (fun r => r.n == x.start)).map (·.dw)).getD 0
  let s0 := low 64 (value + dw)
  if 0 < distance false s0 (s.startPos p) then
    fallbackCheck p ((setStart p s0 s).updPort p (fun x => { x with started := true }))
  else startLate p 0 s

/-- A port waits in ARMED for a trigger of a kind. -/
def State.waitsFor (s : State) (p src : Nat) : Bool :=
  s.runState p == 3 && (s.portOf p).src == src && !(s.portOf p).started

/-- An index event of a channel at the replicas of a mask (Table 8-3). -/
def portsIndex (ch reps : Nat) (s : State) : State :=
  forAll ((List.range Config.ports).filter (fun p => s.chOf p == ch && bitAt reps (dieOf p + 1) && s.waitsFor p 1)) s
    (fun p s => match (s.repOf p).ref with
      | some k => triggerStart p (k * 65536) s
      | none => s)

/-- A time trigger reaches the fclk domain (Table 8-3). -/
def portsTrigger (trig : Nat) (s : State) : State :=
  forAll ((List.range Config.ports).filter (fun p => s.pget F.Port.TRIG_SEL p == trig && s.waitsFor p 2)) s
    (fun p s => triggerStart p (s.startPos p) s)

/-- PORT_ARMED: the first LANE_AHEAD lines have been wholly sent (R265, R266). -/
def execPortArmed (port : Nat) (s : State) : Out :=
  let first := (s.portOf port).slots.take (s.pget F.Port.LANE_AHEAD port)
  .next (if port < Config.ports ∧ s.printMode ∧ s.runState port = 2 ∧ first.length = s.pget F.Port.LANE_AHEAD port ∧ first.all (·.done) then
    let s1 := (setRun port 3 s).updPort port (fun x => { x with started := false })
    if (s.portOf port).src = 0 then judgeStart port s1 else s1
  else s)

/-! ### Firing (R271, R273, R279, R280) -/

/-- SKEW_TRIM and WIDTH_TRIM of a die's timing band (R555). -/
def State.trims (s : State) (d : Nat) : Int × Int :=
  let b := s.get (if d = 0 then F.Thm.TIMING_BAND_0 else F.Thm.TIMING_BAND_1) 0x0A9
  (sext 8 (s.getI F.Thm.SKEW_TRIM 0x0A9 b), sext 8 (s.getI F.Thm.WIDTH_TRIM 0x0A9 b))

/-- A strobe from its placement, in 1/16 fclk: the rise and the fall are each placed with their trim (R273, R555). -/
def strobeAt (t16 width : Nat) (tr : Int × Int) : Nat × Nat :=
  (((t16 : Int) + tr.1).toNat, (((t16 + 16 * width : Nat) : Int) + tr.2).toNat)

/-- An uncorrectable phase-table entry (R294). -/
def phaseError (p : Nat) (s : State) : State :=
  clusterFault (p / 4) 2 ((sramUe (dieOf p + 1) s).sat F.Clu.PT_UNCORRECTED (pgClu (p / 4)))

/-- The first line of the buffer fires at `f` (R271 to R273, R279, R280). -/
def fireLine (p f : Nat) (q : Slot) (d : Nat) (bufErr ptErr : Bool) (corr : Nat) (s : State) : State :=
  let pg := pgPort p
  let x := s.portOf p
  let run := x.runs.find? (fun r => r.n == q.folio)
  let s1 := if d < f then
      (s.satI F.Port.DELAYED_LINES pg 0 1).raise Ev.fireOverspeed pg (portArg p q.folio (low 24 q.line * 256))
    else s
  let s2 := if s1.runState p = 3 then setRun p 4 s1 else s1
  let s3 := ((s2.set F.Port.FOLIO_NOW pg q.folio).set F.Port.LINE_NOW pg q.line).set2 F.Port.START_POS_LO F.Port.START_POS_HI
    pg 0 ((run.bind (·.start)).getD 0)
  let width := s.pget F.Port.STROBE_WIDTH p
  let tr := s.trims (dieOf p)
  let s4 := s3.updPort p (fun x => { x with
    slots := x.slots.drop 1, due := x.due.drop 1, lastF := some f, fired := some q.at_
    strobes := ((run.map (·.phases)).getD [0]).map (fun k => strobeAt (f + k) width tr)
    dirty := x.dirty.filter (fun n => decide (-2 ≤ folioDiff n q.folio))
    runs := x.runs.filter (fun r => decide (-1 ≤ folioDiff r.n q.folio) || x.compose == some (r.n, 0)) })
  let dw := (run.map (·.dw)).getD 0
  let jump : Bool := q.line == 0 && (x.runs.find? (fun r => r.n == prevFolio q.folio)).any (fun r =>
    (chainGain 0 (s.pget F.Port.LINE_PITCH p) dw r.dw).2 != 0)
  let s5 := proofLine p q.folio ((s.targetOf p q.at_).getD 0) dw ((run.map (·.flight)).getD 0) jump
    (q.data.getD (List.replicate 4096 0)) s4
  let s6 := sendPoint p bufErr (topUp 16 p (holdCheck p (s5.satI F.Clu.LB_CORRECTED (pgClu (p / 4)) 0 corr)))
  let s7 := urgency p s6
  trimPast (if ptErr then phaseError p s7 else s7)

/-- LINE_FIRE: the phase-0 instant of the port's next due line has come; `buf`: whether the line sent now reads uncorrectable, and
the words of the line buffer that were corrected (R293); `ptErr`: an active phase-table entry reads uncorrectable. A backlog above
8 goes before it (R272). -/
def execLineFire (port : Nat) (buf : Bool × Nat) (ptErr : Bool) (s : State) : Out :=
  let x := s.portOf port
  .next (match x.slots.head?, x.due.head? with
    | some q, some d =>
      let f := (fireTimes (16 * s.pget F.Port.MIN_PERIOD port) x.lastF [d]).getD 0 0
      if port < Config.ports ∧ s.printMode ∧ s.timing port ∧ f / 16 ≤ s.now then
        match s.overrun port with
        | some l => backlogFault port l s
        | none => fireLine port f q d buf.1 ptErr buf.2 s
      else s
    | _, _ => s)

/-- REPLAY_ERROR: the replay read of a line that waits in the buffer was poisoned (R290). -/
def execReplayError (port line : Nat) (s : State) : Out :=
  .next (match (s.portOf port).slots.find? (fun q => q.line == line && !q.sent && q.data.isSome && s.replays port q.folio) with
    | some q =>
      let s1 := s.updPort port (fun x => { x with
        slots := x.slots.map (fun y => if y.seq = q.seq then { y with data := none, bad := true } else y) })
      urgency port (fillSend 16 port false (replayBad port q.folio line s1))
    | none => s)

/-- TICKLE_STROBE: one strobe every max(TICKLE_PERIOD, MIN_PERIOD), after the tickle WAVE_SELECT has gone (R291, R292). -/
def execTickleStrobe (port : Nat) (s : State) : Out :=
  let x := s.portOf port
  let lane := s.laneOf port
  let gone := !lane.selects.contains true && !(lane.cur.any (fun m => m.type == 3))
  let t := x.tickled + 16 * max (s.pget F.Port.TICKLE_PERIOD port) (s.pget F.Port.MIN_PERIOD port)
  .next (if port < Config.ports ∧ s.tickles port ∧ s.runState port = 1 ∧ x.leaving = false ∧ s.throttled port = false ∧ gone ∧ t ≤ 16 * s.now then
    s.updPort port (fun x => { x with
      tickled := 16 * s.now, strobes := [strobeAt (16 * s.now) (s.pget F.Port.STROBE_WIDTH port) (s.trims (dieOf port))] })
  else s)

/-! ### What the lane tells the port -/

/-- MESSAGE_WHOLLY_SENT: the last bit of the lane's message leaves (R265, R316, R323). -/
def execMessageWhollySent (port : Nat) (s : State) : Out :=
  .next (match (s.laneOf port).cur with
    | some m =>
      let s1 := s.updLane port (fun x => { x with cur := none })
      if m.type = 1 then
        s1.updPort port (fun x => { x with
          slots := x.slots.map (fun q => if q.at_ = (m.folio, m.line) then { q with done := true } else q) })
      else messageSent port m s1
    | none => s)

/-- LANE_PLL_LOCK_LOSS: the cluster's lanes stop, and its ports fault (R294, R313). -/
def execLanePllLockLoss (c : Nat) (s : State) : Out :=
  .next (if c < Config.clusters ∧ s.on F.Clu.PLL_LOCKED (pgClu c) then
    let s1 := s.set F.Clu.PLL_LOCKED (pgClu c) 0
    let lanes := ((List.range 4).map (4 * c + ·)).filter s.transmits
    clusterFault c 1 (forAll lanes s1 laneStop)
  else s)

end Sys2Proof.Machine
end

