-- ==== Sys2Proof/Machine/TimeCal.lean ====
section
/-! DEFINITION. Calibration of the timing converters and delay lines, page 0x079 (R383 to R387, R392). Die 0 is the hub, 1 and
2 are the raster dies; a converter of a die is number 3 n + b of channel n and ball b (0 A, 1 B, 2 Z). -/

namespace Sys2Proof.Machine

def State.tdcOf (s : State) (d : Nat) : TdcX := tget s.tdc d {}
def State.updTdc (s : State) (d : Nat) (f : TdcX → TdcX) : State := { s with tdc := tput s.tdc d (f (s.tdcOf d)) }

/-- TDC_STATUS of a die: 0 idle, 1 collecting, 2 loopback. -/
def State.tdcPhase (s : State) (d : Nat) : Nat := bits (s.get F.Tdc.TDC_STATUS pgTdc) (2 * d) 2

def setTdcPhase (d v : Nat) (s : State) : State :=
  let w := s.get F.Tdc.TDC_STATUS pgTdc
  s.set F.Tdc.TDC_STATUS pgTdc (w - bits w (2 * d) 2 * 4 ^ d + v * 4 ^ d)

/-- The temperature of a die, signed (R383). -/
def State.dieTemp (s : State) (d : Nat) : Int :=
  if d = 0 then sext 16 (s.get F.Thm.DIE_TEMP_HUB 0x0A9)
  else max (sext 16 (s.getI F.Thm.REGION_TEMP_EVEN 0x0A9 (d - 1))) (sext 16 (s.getI F.Thm.REGION_TEMP_ODD 0x0A9 (d - 1)))

/-- Edges that a converter holds in a full collection (R384). -/
def tdcFull : Nat := 2 ^ 20

/-- Edges in all bins of a converter. -/
def TdcX.held (x : TdcX) (j : Nat) : Nat := (tget x.hits j []).foldl (· + ·) 0

/-- Fewest edges that a converter of the die holds. -/
def TdcX.fewest (x : TdcX) : Nat := (List.range 12).foldl (fun a j => min a (x.held j)) tdcFull

/-- A run starts on a die, where none is in progress (R383). -/
def tdcStart (d : Nat) (s : State) : State :=
  if s.tdcPhase d ≠ 0 then s
  else
    ((setTdcPhase d 1 s).setI F.Tdc.EDGE_MIN pgTdc d 0).updTdc d (fun x =>
      { fresh := x.fresh, temp := unsext 16 (s.dieTemp d), began := s.now })

/-- A run starts where the die's temperature has moved by more than DT_TDC (R383). -/
def tdcAuto (s : State) : State :=
  forAll [0, 1, 2] s (fun d s =>
    let moved := (s.dieTemp d - sext 16 (s.getI F.Tdc.REF_TEMP pgTdc d)).natAbs
    if s.on F.Tdc.AUTO pgTdc && s.ready pgTdc && decide (s.get F.Tdc.DT_TDC pgTdc < moved) then tdcStart d s else s)

/-- An edge at ball `b` of channel `ch` in phase bin `ph`, at the dies of a mask that collect (R384). -/
def tdcEdge (ch b reps ph : Nat) (s : State) : State :=
  let j := 3 * ch + b
  forAll [0, 1, 2] s (fun d s =>
    if bitAt reps d && s.tdcPhase d == 1 && decide ((s.tdcOf d).held j < tdcFull) then
      let s1 := s.updTdc d (fun x =>
        let h := tget x.hits j (List.replicate 16 0)
        { x with hits := tput x.hits j (h.set (ph % 16) (h.getD (ph % 16) 0 + 1)) })
      s1.setI F.Tdc.EDGE_MIN pgTdc d (s1.tdcOf d).fewest
    else s)

/-- The width byte of a bin, in 0.5 ps; its rounding is not stated (R384, Table 11-6). -/
def tdcByte (hits : Nat) : Nat := (clampI 0 255 (Config.roundReal ((hits * 2000 : Nat) / (tdcFull : Rat)))).toNat

/-- The reason of Table 11-5 for which a converter is rejected, 0 for none. -/
def tdcReason (hits : List Nat) : Nat :=
  if hits.foldl (· + ·) 0 < tdcFull then 6
  else if hits.any (· == 0) then 1
  else if hits.any (fun h => decide (h * 10000 < 125 * tdcFull) || decide (1125 * tdcFull < h * 10000)) then 2
  else 0

/-- A unit is rejected: the first one of a run is named (R386). -/
def tdcReject (d unit why : Nat) (s : State) : State :=
  let x := s.tdcOf d
  let s1 := s.updTdc d (fun x => { x with told := true, failed := x.failed || why != 6 })
  if x.told then s1
  else (s1.sat F.Tdc.RUNS_REJECTED pgTdc).raise Ev.tdcRunRejected pgTdc (unit * 256 + why * 16 + d)

/-- The end of a run (R386). -/
def tdcEnd (d : Nat) (s : State) : State :=
  let x := s.tdcOf d
  let s1 := setTdcPhase d 0 s
  if x.failed then s1
  else
    ((s1.setI F.Tdc.REF_TEMP pgTdc d x.temp).wrapI F.Tdc.RUNS pgTdc d 1).raise Ev.tdcRunAccepted pgTdc
      (arg64 (unsext 32 (sext 16 x.temp)) d)

/-- A word written to TDC_CTRL.RUN (R383). -/
def tdcRuns (mask : Nat) (s : State) : State := forAll [0, 1, 2] s (fun d s => if bitAt mask d then tdcStart d s else s)

/-- TDC_RUN (R383). -/
def execTdcRun (mask owner : Nat) (s : State) : Out := .next (gateReg pgTdc 0x48 (low 3 mask) owner (tdcRuns mask) s)

/-- TDC_COLLECTION_END: every converter of the die is full, or RUN_LIMIT has passed (R384, R386). The hub has no delay line,
so its run ends here. -/
def execTdcCollectionEnd (d : Nat) (s : State) : Out :=
  let x := s.tdcOf d
  .next (if d < 3 ∧ s.tdcPhase d = 1 ∧
      (x.fewest = tdcFull ∨ x.began + s.get F.Tdc.RUN_LIMIT pgTdc * 1000000000 ≤ s.now) then
    let s1 := forAll (List.range 12) s (fun j s =>
      let h := tget x.hits j (List.replicate 16 0)
      let bytes := h.map tdcByte
      let off := 16 * (12 * d + j)
      let s1 := setAptBytes pgTdc (0x2000 + off) (bytes.map (BitVec.ofNat 8)) s
      let why := tdcReason h
      if why = 0 then s1.updTdc d (fun x => { x with fresh := x.fresh.filter (fun f => f.1 != off) ++ [(off, bytes)] })
      else tdcReject d (12 * d + j) why s1)
    if d = 0 then tdcEnd d s1 else setTdcPhase d 2 s1
  else s)

/-- The bin widths of a converter, in 0.5 ps: its new table where that passed, its active one otherwise (R385). -/
def State.binWidths (s : State) (d j : Nat) : List Nat :=
  let off := 16 * (12 * d + j)
  match (s.tdcOf d).fresh.find? (fun f => f.1 == off) with
  | some f => f.2
  | none => (s.aptBytes pgTdc off 16).map (·.toNat)

/-- The phase of a loopback edge in fs: whole cycles after the launch, and the bin of a converter with these widths. -/
def binPhase (widths : List Nat) (edge : Nat × Nat) : Nat :=
  let w := widths.getD edge.2 0
  1000000 * edge.1 + 500 * (widths.take edge.2).foldl (· + ·) 0 + Config.inBin w edge.2 % (500 * w + 1)

/-- Launches that make one measurement (R385). -/
def tapLaunches : Nat := 64

/-- The launches of a tap that no strobe interrupted. -/
def wholeLaunches (l : List (Option (Nat × Nat))) : List (Nat × Nat) := l.filterMap id

/-- The measured phase of a tap, as the sum over 64 launches: in 1/64 fs, so that the average is exact. -/
def tapPhase (widths : List Nat) (l : List (Option (Nat × Nat))) : Nat :=
  (((wholeLaunches l).take tapLaunches).map (binPhase widths)).foldl (· + ·) 0

/-- Every tap of every port of a die has its 64 launches. -/
def tapsMeasured (launches : List (List (List (Option (Nat × Nat))))) : Bool :=
  launches.length == 24 && launches.all (fun port => port.length == 64 &&
    port.all (fun l => decide (tapLaunches ≤ (wholeLaunches l).length)))

/-- The place of the value nearest to a target; of equally near ones the lowest. -/
def nearestTo (l : List Nat) (target : Nat) : Nat :=
  (l.zipIdx.foldl (fun (best : Nat × Nat) e =>
    if natDist e.1 target < best.1 then (natDist e.1 target, e.2) else best) (natDist (l.getD 0 0) target, 0)).2

/-- 1 ps in the units of `tapPhase`. -/
def tapPs : Nat := 1000 * tapLaunches

/-- The taps for bins 0 to 15 and for one full cycle; phases as `tapPhase` gives them (R385). -/
def chooseTaps (phases : List Nat) : List Nat :=
  (List.range 17).map (fun k => nearestTo phases (phases.getD 0 0 + k * 125 * tapPs / 2))

/-- Each value is less than the next. -/
def rising : List Nat → Bool
  | a :: b :: l => decide (a < b) && rising (b :: l)
  | _ => true

/-- The reason of Table 11-5 for which a delay line is rejected, 0 for none. -/
def delayReason (phases : List Nat) : Nat :=
  let taps := chooseTaps phases
  let at_ := fun (k : Nat) => phases.getD (taps.getD k 0) 0
  let bins := (List.range 16).map at_
  let total := at_ 16 - at_ 0
  if !rising (taps.take 16) || !rising bins then 3
  else if (bins.zip (bins.drop 1)).any (fun e => decide (2 * (e.2 - e.1) < 25 * tapPs) || decide (225 * tapPs < 2 * (e.2 - e.1))) then 4
  else if total < 980 * tapPs ∨ 1020 * tapPs < total then 5
  else 0

/-- TDC_LOOPBACK_END: the launches of each tap of each port of a raster die through the converter of ball ENCn_A, n being
LOOP_CHANNEL: the whole cycles and the bin that it found, or none where a strobe took the line, which discards that launch. The
measurement ends when every tap has 64 launches (R385, R386). -/
def execTdcLoopbackEnd (d : Nat) (launches : List (List (List (Option (Nat × Nat))))) (s : State) : Out :=
  let widths := s.binWidths d (3 * s.get F.Tdc.LOOP_CHANNEL pgTdc)
  .next (if (d = 1 ∨ d = 2) ∧ s.tdcPhase d = 2 ∧ tapsMeasured launches then
    tdcEnd d (forAll (List.range 24) s (fun i s =>
      let p := 24 * (d - 1) + i
      let ph := (launches.getD i []).map (tapPhase widths)
      let bytes := ((chooseTaps ph).take 16).map (low 6)
      let s1 := setAptBytes pgTdc (0x3000 + 16 * p) (bytes.map (BitVec.ofNat 8)) s
      let why := delayReason ph
      if why = 0 then
        let off := 0x1000 + 16 * p
        s1.updTdc d (fun x => { x with fresh := x.fresh.filter (fun f => f.1 != off) ++ [(off, bytes)] })
      else tdcReject d (0x40 + p) why s1))
  else s)

/-- A port is between step 5 of Table 1-10, three cycles before the one in which a line's FIRE edge leaves, and the rising edge
of a strobe (R387): a strobe has not risen yet, or a due line has passed step 5. -/
def State.portPlacing (s : State) (p : Nat) : Bool :=
  let x := s.portOf p
  x.strobes.any (fun t => decide (16 * s.now < t.1)) ||
    (s.timing p && (fireTimes (16 * s.pget F.Port.MIN_PERIOD p) x.lastF x.due).any (fun f => decide ((f + 15) / 16 ≤ s.now + 3)))

/-- A port of the die places a strobe (R387). -/
def State.placing (s : State) (d : Nat) : Bool := d != 0 && (List.range 24).any (fun i => s.portPlacing (24 * (d - 1) + i))

/-- TDC_TABLE_SWAP: the new tables of a die take effect together (R387). -/
def execTdcTableSwap (d : Nat) (s : State) : Out :=
  .next (if d < 3 ∧ s.placing d = false then
    let s1 := forAll (s.tdcOf d).fresh s (fun f s => setAptBytes pgTdc f.1 (f.2.map (BitVec.ofNat 8)) s)
    s1.updTdc d (fun x => { x with fresh := [] })
  else s)

/-- What a function reset of page 0x079 discards: the runs in progress. -/
def tdcDiscard (s : State) : State := forAll [0, 1, 2] s (fun d s => s.updTdc d (fun x => { fresh := x.fresh }))

end Sys2Proof.Machine
end

