-- ==== Sys2Proof/Machine/Tracker.lean ====
section
/-! DEFINITION. The density tracker, page 0x078: matching, accumulation, the solve, nozzle states and updates of screening
(R366 to R382, R391). -/

namespace Sys2Proof.Machine

/-! ### Configuration -/

/-- The tracked colours, ascending. -/
def State.trkColours (s : State) : List Nat := (List.range 8).filter (bitAt (s.get F.Dtrk.COLOUR_EN pgTrk))

/-- The ports of PROOF_PORTS. -/
def State.proofPorts (s : State) : List Nat := (List.range Config.ports).filter s.proofPort

/-- T of R371 for K tracked colours. -/
def termCount (k : Nat) : Nat := k * (k + 1) / 2 + 3 * k

/-- MAP_UNITS. -/
def State.mapUnits (s : State) : Nat := s.get F.Pipe.MAP_UNITS pgPipe

/-- INK of a colour: M_0 to M_2. -/
def State.ink (s : State) (c : Nat) : List Nat :=
  [s.getI F.Dtrk.M_0 pgTrk c, s.getI F.Dtrk.M_1 pgTrk c, s.getI F.Dtrk.M_2 pgTrk c]

/-- PAPER_A. -/
def State.paper (s : State) : List Nat :=
  [s.get F.Dtrk.PAPER_A_0 pgTrk, s.get F.Dtrk.PAPER_A_1 pgTrk, s.get F.Dtrk.PAPER_A_2 pgTrk]

/-- The lowest reason of R391 for which the tracker's configuration is invalid, 0 for none. -/
def State.trkReason (s : State) : Nat :=
  let ch := s.get F.Dtrk.PROOF_CHANNEL pgTrk
  let k := s.trkColours.length
  let tagOther := fun (st : Nat) =>
    let d := s.slotGet st F.Cam.TAG_DIV
    s.getI F.Pipe.MAP_EN pgPipe st == 1 && d < 4 && s.getI F.Div.SOURCE pgDiv d != ch
  if 8945664 < s.mapUnits * (6 * termCount k + 4) then 1
  else if s.proofPorts.any (fun p => s.get F.Port.ENC_SRC (pgPort p) != ch) ∨
      s.getI F.Div.SOURCE pgDiv (s.get F.Dtrk.PROOF_DIV pgTrk) ≠ ch ∨ (List.range 9).any tagOther then 2
  else if s.get F.Dtrk.PROOF_ROWS pgTrk < 256 ∨ s.get F.Dtrk.PROOF_BASE pgTrk = 0 then 3
  else if k = 0 ∨ s.trkColours.any (fun c => (s.ink c).all (· == 0)) then 4
  else if s.proofPorts.any (fun p => (s.binding (pgScr (regionOf p))).isNone) then 5
  else 0

/-! ### The regression array (R370, R371) -/

/-- Offset of the regression array in the Reading Room: just below the flat-field window. -/
def regBase : Nat := 0x1FA0000 - 8945664

/-- Place of the pair (a, b), a ≤ b, among the terms of K colours, and of (a, channel i) behind the pairs. -/
def pairIx (k a b : Nat) : Nat := a * (2 * k + 1 - a) / 2 + (b - a)
def chanIx (k a i : Nat) : Nat := k * (k + 1) / 2 + 3 * a + i

/-- Address of term `i` of grid unit `x` for K colours, and of ROWS of `x`. -/
def termAddr (k x i : Nat) : Nat := regBase + 6 * (termCount k * x + i)
def State.rowsAddr (s : State) (k x : Nat) : Nat := regBase + 6 * termCount k * s.mapUnits + 4 * x

def State.term (s : State) (k x i : Nat) : Int := sext 48 (memLe s.room (termAddr k x i) 6)
def State.rowsOf (s : State) (k x : Nat) : Nat := memLe s.room (s.rowsAddr k x) 4

/-- A term with a value added, 48 bits. -/
def addTerm (k x i : Nat) (v : Int) (s : State) : State :=
  roomPut (termAddr k x i) (leBytes 6 (unsext 48 (s.term k x i + v))) s

/-- Every term and count cleared. -/
def clearTerms (s : State) : State := { s with room := tclear s.room regBase (regBase + 8945664) }

/-- Proof bytes of colour `c` over grid unit `x` in a row, limited to 255 (R369). -/
def State.coverage (s : State) (row c x : Nat) : Nat :=
  let one := fun (p : Nat) =>
    let pg := pgScr (regionOf p)
    let x0 := s.getI F.Scr.X_START pg (p % 12)
    if s.getI F.Scr.COLOUR pg (p % 12) = c ∧ x0 ≤ x ∧ x < x0 + 4096 then
      (memByte s.sdramView (s.rowSlot row + 64 + 4096 * p + (x - x0))).toNat
    else 0
  min 255 ((s.proofPorts.map one).foldl (· + ·) 0)

/-- u_c of a grid unit (R369). -/
def State.regressor (s : State) (row c x : Nat) : Nat := low 12 (s.apt pgTrk (4 * (256 * c + s.coverage row c x)))

/-- One grid unit of a used line added (R370). -/
def addUnit (row : Nat) (cs : List Nat) (x : Nat) (a : List Nat) (s : State) : State :=
  let k := cs.length
  let u := cs.map (fun c => s.regressor row c x)
  let d := (a.zip s.paper).map (fun e => (e.1 : Int) - e.2)
  let s1 := forAll (List.range k) s (fun i s =>
    let s1 := forAll (List.range (k - i)) s (fun j s => addTerm k x (pairIx k i (i + j)) (u.getD i 0 * u.getD (i + j) 0 : Nat) s)
    forAll (List.range 3) s1 (fun ch s => addTerm k x (chanIx k i ch) ((u.getD i 0 : Nat) * d.getD ch 0) s))
  roomPut (s1.rowsAddr k x) (leBytes 4 (s1.rowsOf k x + 1)) s1

/-! ### Lag (R367, R368) -/

/-- ROW and SUM of the slot of a row, whose header is not poisoned (R406, Table 11-1). -/
def State.rowHolds (s : State) (row : Nat) : Bool :=
  memLe s.sdramView (s.rowSlot row) 4 == row && (s.poisonIn (s.rowSlot row) 64).isEmpty
def State.rowSum (s : State) (row : Nat) : Nat := memLe s.sdramView (s.rowSlot row + 16) 5

/-- The bytes of a row that the tracker reads: its header, and 4,096 of each port named (R363, R369). -/
def State.rowReads (s : State) (row : Nat) : List (Nat × Nat) :=
  (s.rowSlot row, 64) :: s.proofPorts.map (fun p => (s.rowSlot row + 64 + 4096 * p, 4096))

/-- A row moved by a signed number, 32 bits. -/
def rowPlus (row : Nat) (d : Int) : Nat := unsext 32 ((row : Int) + d)

/-- A used line added to the lag sums. -/
def addLag (row sum : Nat) (s : State) : State :=
  s.updTrk (fun t => { t with lag := (List.range 9).map (fun i =>
    let old := t.lag.getD i [0, 0, 0, 0, 0, 0]
    let q := rowPlus row ((i : Int) - 4)
    if s.rowHolds q then
      let r := s.rowSum q
      (old.zip [1, sum, sum * sum, r, r * r, sum * r]).map (fun e => e.1 + e.2)
    else old) })

/-- A sum that has outgrown its 48 bits holds no stated value. -/
def lagHeld (ix : Nat) (l : List (List Nat)) : List (List Nat) :=
  l.zipIdx.map (fun e => e.1.zipIdx.map (fun v => if v.1 < 2 ^ 48 then v.1 else low 48 (Config.freeNat (ix + 6 * e.2 + v.2))))

/-- The square of a real with the sign of the real. It grows with the real. -/
def signedSq (x : Rat) : Rat := if x < 0 then -(x * x) else x * x

/-- The correlation coefficient of one lag as its signed square, exact. Where a variance is 0 the coefficient is not stated
(R368, log 134). -/
def kappa (v : List Nat) : Rat :=
  let n : Rat := v.getD 0 0
  let g := fun (i : Nat) => ((v.getD i 0 : Nat) : Rat)
  let d := (n * g 2 - g 1 * g 1) * (n * g 4 - g 3 * g 3)
  if d = 0 then Config.flatKappa v else signedSq (n * g 5 - g 1 * g 3) / d

/-- x is at least y + c, for reals given by their signed squares `a` and `b` and a rational `c` of 0 or more: with y + c
negative, by |x| and |y + c|, and otherwise by the squares of x and y + c, where (y + c)^2 = |b| + c^2 + 2 c y. -/
def atLeast (a b c : Rat) : Bool :=
  let mag := fun (x : Rat) => if x < 0 then -x else x
  let rest := mag a - mag b - c * c
  let twice := 4 * c * c * b
  if b < 0 ∧ c * c < -b then decide (0 ≤ a) || decide (signedSq rest ≤ twice)
  else decide (0 ≤ a) && decide (twice ≤ signedSq rest)

/-- The lag step of a window, 0 for none: the largest correlation, of equal ones the lag nearest to 0 and then the lower
(R368). -/
def lagStep (l : List (List Nat)) (margin : Nat) : Int :=
  let ks := [4, 3, 5, 2, 6, 1, 7, 0, 8].filterMap (fun i =>
    let v := l.getD i []
    if v.getD 0 0 = 0 then none else some (i, kappa v))
  match ks with
  | [] => 0
  | k :: rest =>
    let best := rest.foldl (fun b e => if b.2 < e.2 then e else b) k
    let k0 := kappa (l.getD 4 [])
    if best.1 ≠ 4 ∧ atLeast best.2 k0 ((margin : Rat) / 256) then (best.1 : Int) - 4 else 0

/-! ### Windows (R366, R373, R374) -/

/-- CAM_OFFSET, 48.16. -/
def State.camOffset (s : State) : Nat := s.get2 F.Dtrk.CAM_OFFSET_LO F.Dtrk.CAM_OFFSET_HI pgTrk 0

/-- The row of a tag (R366). -/
def State.camRow (s : State) (tag : Nat) : Nat :=
  let d : Int := sext 64 (unsext 64 ((tag : Int) - s.camOffset - s.proofW0))
  unsext 32 (s.rowFloor d + sext 8 (s.get F.Dtrk.LAG_ROWS pgTrk))

/-- TRK_STATE.STATE. -/
def State.trkState (s : State) : Nat := s.get F.Dtrk.TRK_STATE_STATE pgTrk
def setTrkState (v : Nat) (s : State) : State := s.set F.Dtrk.TRK_STATE_STATE pgTrk v

/-- The part is in Safe-Hold. -/
def State.safeHold (s : State) : Bool := s.get F.Mode.MODE pgMode == 5

/-- A window that cannot be solved (R374). -/
def solveSkipped (why : Nat) (s : State) : State :=
  (setTrkState 1 (clearTerms s)).raise Ev.dtrkSolveSkipped pgTrk (arg64 (s.get F.Dtrk.SOLVE_NUMBER pgTrk) why)

/-- The end of a window: the solve boundary, the lag, and the solve or its reason to be skipped (R368, R373, R374). -/
def windowEnd (s : State) : State :=
  let used := s.get F.Dtrk.ROWS_MATCHED pgTrk
  let t := s.trk
  let rows := s.get F.Dtrk.WINDOW_ROWS pgTrk
  let n := low 32 (s.get F.Dtrk.SOLVE_NUMBER pgTrk + 1)
  let s1 := reachBoundary pgTrk n (setTrkState 2 (s.set F.Dtrk.SOLVE_NUMBER pgTrk n))
  let step := if s1.on F.Dtrk.LAG_AUTO pgTrk then lagStep (lagHeld s.freeIx t.lag) (s1.get F.Dtrk.LAG_MARGIN pgTrk) else 0
  let s2 := { s1.updTrk (fun t => { t with start := t.start.map (fun a => low 32 (a + rows)), exp := none, lag := [] }) with
    freeIx := s1.freeIx + 54 }
  let s3 := s2.set F.Dtrk.ROWS_MATCHED pgTrk 0
  let s4 := if step = 0 then s3.set F.Dtrk.LAG_LOCKED pgTrk 1
    else
      let v := unsext 8 (sext 8 (s.get F.Dtrk.LAG_ROWS pgTrk) + step)
      ((s3.set F.Dtrk.LAG_LOCKED pgTrk 0).set F.Dtrk.LAG_ROWS pgTrk v).raise Ev.dtrkLagStep pgTrk
        (arg64 n (v * 256 + unsext 8 step))
  if 2 ≤ s.get F.Thm.LEVEL_HUB 0x0A9 then solveSkipped 1 s4
  else if s.safeHold || s.on F.Hdr.HOLD pgTrk then solveSkipped 2 s4
  else if step ≠ 0 then solveSkipped 3 s4
  else if used < s1.get F.Dtrk.MIN_ROWS pgTrk then solveSkipped 4 s4
  else s4.updTrk (fun t => { t with solveAt := if t.pend.isEmpty then some s.now else none })

/-- The lowest reason of Table 11-2 for which a line is not used, 0 for none. -/
def State.lineReason (s : State) (m : MapLine) (row : Nat) : Nat :=
  let a := s.rowSlot row
  let v := s.sdramView
  let named := s.get2 F.Dtrk.PROOF_PORTS_LO F.Dtrk.PROOF_PORTS_HI pgTrk 0
  let before : Bool := match s.trk.start with
    | some w => sext 32 (row + 2 ^ 32 - w) < 0
    | none => false
  if m.flags ≠ 0 then 1
  else if m.unsure || s.trk.exp.any (· != m.exp) then 2
  else if !s.rowHolds row || (s.rowReads row).any (fun r => !(s.poisonIn r.1 r.2).isEmpty) then 3
  else if (memLe v (a + 4) 6 &&& named) != named || (memLe v (a + 10) 6 &&& named) != 0 then 4
  else if s.trkState ≠ 1 then 5
  else if before then 6
  else 0

/-- A mapped line at the tracker (R366, R367, R370, R373). -/
def trackLine (m : MapLine) (s : State) : State :=
  let row0 := s.camRow m.tag
  let tagged : Bool := !bitAt m.flags 3
  let s0 := if tagged ∧ s.trk.start.isNone then s.updTrk (fun t => { t with start := some row0 }) else s
  let past : Bool := match s0.trk.start with
    | some w => tagged && s0.trkState == 1 && decide ((s.get F.Dtrk.WINDOW_ROWS pgTrk : Int) ≤ sext 32 (row0 + 2 ^ 32 - w))
    | none => false
  let s1 := if past then windowEnd s0 else s0
  let row := s1.camRow m.tag
  let why := s1.lineReason m row
  let s1 := if why = 1 ∨ why = 2 then s1 else forAll (s1.rowReads row) s1 (fun r => sdramRead 6 r.1 r.2)
  if why ≠ 0 then
    let s2 := (s1.sat F.Dtrk.ROWS_SKIPPED pgTrk).set F.Dtrk.LAST_SKIP pgTrk why
    s2.raise Ev.dtrkRowMiss pgTrk (arg64 (s2.get F.Dtrk.ROWS_SKIPPED pgTrk) why)
  else
    let xs := m.xs.filterMap (fun e => if e.1 < s1.mapUnits then e.2.map (fun a => (e.1, a)) else none)
    let sum := (xs.map (fun e => e.2.1 + e.2.2.1 + e.2.2.2)).foldl (· + ·) 0
    let s2 := addLag row sum (s1.updTrk (fun t => { t with exp := some m.exp }))
    let s3 := s2.set F.Dtrk.ROWS_MATCHED pgTrk (s2.get F.Dtrk.ROWS_MATCHED pgTrk + 1)
    let cs := s3.trkColours
    forAll xs s3 (fun e s => addUnit row cs e.1 [e.2.1, e.2.2.1, e.2.2.2] s)

/-- The tracker reads no Proof row for now: it is quiesced, or a channel of SDRAM serves nothing; a slot lies in all four
(R117, R124, R398). -/
def State.trackerWaits (s : State) : Bool := s.on F.Hdr.QUIESCE pgTrk || (List.range 4).any s.memHeld

/-- TRACKER_LINE: the oldest mapped line reaches the tracker; a stopped tracker drops it. -/
def execTrackerLine (s : State) : Out :=
  .next (match s.pipe.mapped with
    | [] => s
    | m :: rest =>
      let s1 := s.updPipe (fun p => { p with mapped := rest })
      if s.on F.Hdr.ENABLE pgTrk = false then s1
      else if s.trackerWaits then s
      else trackLine m s1)

/-! ### Phase 1 (R374 to R377) -/

/-- The pivots of a symmetric matrix in L D L^T, in order. -/
def pivots : Nat → List (List Rat) → List Rat
  | 0, _ => []
  | _, [] => []
  | n + 1, r :: rs =>
    let d := r.headD 0
    d :: pivots n (rs.map (fun q => ((q.zip r).map (fun e => e.1 - q.headD 0 / d * e.2)).drop 1))

/-- Solution rows of a linear system whose rows carry their right-hand sides behind the coefficients. -/
def solveRows : Nat → List (List Rat) → List (List Rat)
  | 0, _ => []
  | _, [] => []
  | n + 1, r :: rs =>
    let d := r.headD 0
    let rest := solveRows n (rs.map (fun q => ((q.zip r).map (fun e => e.1 - q.headD 0 / d * e.2)).drop 1))
    let m := rs.length
    let rhs := (r.drop (m + 1))
    let own := rhs.zipIdx.map (fun e =>
      (e.1 - ((rest.zipIdx.map (fun y => r.getD (y.2 + 1) 0 * y.1.getD e.2 0)).foldl (· + ·) 0)) / d)
    own :: rest

/-- What phase 1 finds for a tracked colour at a grid unit: a factor, 1.15, or a reason (1 or 2). -/
abbrev Found := List (Nat × Bool × Nat)

/-- The matrix G restricted to colours given by their places. -/
def State.gram (s : State) (k x : Nat) (obs : List Nat) : List (List Rat) :=
  obs.map (fun a => obs.map (fun b => ((s.term k x (pairIx k (min a b) (max a b)) : Int) : Rat)))

/-- Colours that stay observed once every pivot passes, with those that fail (R374). -/
def State.sieve (s : State) (k x : Nat) : Nat → List Nat → List Nat → List Nat × List Nat
  | 0, obs, out => (obs, out)
  | n + 1, obs, out =>
    let g := s.gram k x obs
    let lim : Rat := (s.get F.Dtrk.PIVOT_MIN pgTrk : Rat) / 65536
    match ((pivots obs.length g).zip obs).zipIdx.find? (fun e => decide (e.1.1 < lim * ((g.getD e.2 []).getD e.2 0))) with
    | some e => s.sieve k x n (obs.filter (· != e.1.2)) (out ++ [e.1.2])
    | none => (obs, out)

/-- The factor of a colour from its row of Y; where INK is all 0 it is not stated (R374). -/
def State.factor (s : State) (c : Nat) (y : List Rat) : Nat :=
  let m := s.ink c
  let den : Nat := (m.map (fun v => v * v)).foldl (fun (a b : Nat) => a + b) 0
  if den = 0 then low 16 (Config.freeNat s.freeIx)
  else
    let num : Rat := ((y.zip m).map (fun e => e.1 * (e.2 : Rat))).foldl (fun (a b : Rat) => a + b) 0
    (clampI 0 0xFFFF (4096 * num / (den : Rat) * 32768).floor).toNat

/-- Phase 1 at one grid unit. -/
def State.solveUnit (s : State) (cs : List Nat) (x : Nat) : Found :=
  let k := cs.length
  let seen := (List.range k).filter (fun a =>
    decide (s.get F.Dtrk.MIN_ROWS pgTrk ≤ s.rowsOf k x) &&
      decide ((s.get F.Dtrk.COVER_MIN pgTrk * 2 ^ 24 : Nat) ≤ s.term k x (pairIx k a a)))
  let sv := s.sieve k x k seen []
  let rows := (s.gram k x sv.1).zip (sv.1.map (fun a => (List.range 3).map (fun i => ((s.term k x (chanIx k a i) : Int) : Rat))))
  let ys := solveRows sv.1.length (rows.map (fun e => e.1 ++ e.2))
  cs.zipIdx.map (fun e =>
    match sv.1.idxOf? e.2 with
    | some j => (e.1, true, s.factor e.1 (ys.getD j []))
    | none => (e.1, false, if sv.2.contains e.2 then 2 else 1))

/-- The state of a nozzle with what phase 1 found at its grid unit (R376). -/
def nozNext (smooth outFactor : Nat) (found : Bool) (v : Nat) (z : Noz) : Noz :=
  if found then
    { z with
      observed := true, valid := true
      count := if v < outFactor then min (z.count + 1) 15 else 0
      fs := if z.valid then unsext 16 ((z.fs : Int) + ((v : Int) - z.fs) / (2 ^ smooth : Int)) else v }
  else { z with observed := false, reason := v }

/-- A nozzle after phase 1, and DTRK.NOZZLE_OUT once (R376, R377). -/
def nozzleSolved (p n v : Nat) (found : Bool) (s : State) : State :=
  let z := nozNext (s.get F.Dtrk.SMOOTH pgTrk) (s.get F.Dtrk.OUT_FACTOR pgTrk) found v (s.noz p n)
  if found ∧ z.out = false ∧ s.get F.Dtrk.OUT_CONFIRM pgTrk ≤ z.count then
    let pol := s.get F.Dtrk.OUT_POLICY pgTrk
    let s1 := (setNoz p n { z with out := true } s).sat F.Dtrk.NOZZLES_OUT pgTrk
    let s2 := if pol = 0 then s1 else s1.updTrk (fun t => { t with toMiss := t.toMiss ++ [(p, n, pol)] })
    s2.raise Ev.dtrkNozzleOut pgTrk
      (low 24 (s.get F.Dtrk.SOLVE_NUMBER pgTrk) * 2 ^ 40 + v * 2 ^ 24 + n * 2 ^ 12 + p * 2 ^ 6 + pol * 2 ^ 4)
  else setNoz p n z s

/-- Every nozzle of a port after phase 1. -/
def portSolved (found : Nat → Found) (p : Nat) (s : State) : State :=
  let pg := pgScr (regionOf p)
  let c := s.getI F.Scr.COLOUR pg (p % 12)
  let x0 := s.getI F.Scr.X_START pg (p % 12)
  forAll (List.range 4096) s (fun n s =>
    if x0 + n < s.mapUnits ∧ bitAt (s.nozzleEntry p n) 0 = false then
      match (found (x0 + n)).find? (fun e => e.1 == c) with
      | some e => nozzleSolved p n e.2.2 e.2.1 s
      | none => s
    else s)

/-- HEAD_TEMP.SENSOR_0 of a port's lane. -/
def State.sensor0 (s : State) (p : Nat) : Nat := s.getI F.Lane.SENSOR_0 (pgLane (p / 4)) (p % 4)

def State.trkPort (s : State) (p : Nat) : TrkPort := tget s.trk.ports p {}
def State.updTrkPort (s : State) (p : Nat) (f : TrkPort → TrkPort) : State :=
  s.updTrk (fun t => { t with ports := tput t.ports p (f (s.trkPort p)) })

/-- The port is due (R378). -/
def State.due (s : State) (p : Nat) : Bool :=
  let x := s.trkPort p
  let warm := decide (s.get F.Dtrk.DT_CAL pgTrk < (sext 16 (s.sensor0 p) - sext 16 x.tref).natAbs)
  x.req || (s.getI F.Lane.TEMP_STALE (pgLane (p / 4)) (p % 4) == 0 && warm)

/-- The tracker fields that are views (R378). -/
def State.viewTrk (s : State) (f : Fld) : Option Nat :=
  let mask := fun (a n : Nat) => (List.range n).foldl (fun v i => v + bit (s.due (a + i)) * 2 ^ i) 0
  if f == F.Dtrk.DUE_LO then some (mask 0 32) else if f == F.Dtrk.DUE_HI then some (mask 32 16) else none

/-- PORT_STATE of a port (Table 11-9). -/
def State.portState (s : State) (p : Nat) : Nat :=
  let x := s.trkPort p
  x.tref * 65536 + min 65535 ((s.now - x.accepted.getD 0) / 1000000000)

/-- Phase 2 has nothing left; a solve that waited for it begins (R382). -/
def phase2Check (s : State) : State :=
  if s.trk.pend.isEmpty && s.trkState == 2 && s.trk.solveAt.isNone then s.updTrk (fun t => { t with solveAt := some s.now })
  else s

/-- SOLVE_PHASE1_END (R374 to R379); in a pair, phase 2 belongs to the ACTIVE part (R496). -/
def execSolvePhase1End (s : State) : Out :=
  .next (match s.trk.solveAt with
    | some t0 =>
      if s.on F.Hdr.ENABLE pgTrk ∧ s.trkState = 2 then
        let cs := s.trkColours
        let found := fun (x : Nat) => s.solveUnit cs x
        let s1 := setTrkState 1 (clearTerms { s with freeIx := s.freeIx + 1 })
        let s2 := s1.set F.Dtrk.SOLVE_TIME pgTrk ((s.now - t0) / 1000)
        let s3 := forAll s.proofPorts s2 (portSolved found)
        let due := if s.role = 0 ∨ s.role = 4 then (List.range Config.ports).filter s3.due else []
        phase2Check (s3.updTrk (fun t => { t with solveAt := none, pend := due, pendAt := s.now }))
      else s
    | none => s)

/-! ### Phase 2 (R379 to R382) -/

/-- BASE of a nozzle (R379). -/
def State.baseGain (s : State) (p n : Nat) : Nat := s.effWord (4 * (4096 * p + n)) / 65536

/-- The median times two of a list that is not empty; of an even number of values, the mean of the middle two. -/
def median2 (l : List Nat) : Nat :=
  let m := l.mergeSort
  m.getD ((m.length - 1) / 2) 0 + m.getD (m.length / 2) 0

/-- The reason of Table 11-3 for which an observed nozzle fails with a new gain, 0 for none. -/
def State.gainReason (s : State) (p n g : Nat) : Nat :=
  let z := s.noz p n
  let near := ((List.range 9).map (fun i => n + i)).filterMap (fun m =>
    if 4 ≤ m ∧ m ≠ n + 4 ∧ m - 4 < 4096 ∧ (s.noz p (m - 4)).valid then some (s.noz p (m - 4)).fs else none)
  let med := median2 near
  if z.fs = 0 ∨ g < s.get F.Dtrk.GAIN_MIN pgTrk ∨ s.get F.Dtrk.GAIN_MAX pgTrk < g then 3
  else if s.get F.Dtrk.STEP_MAX pgTrk < natDist (s.nozzleEntry p n / 65536) g then 4
  else if 4 ≤ near.length ∧ 2 * s.get F.Dtrk.OUTLIER_TOL pgTrk < natDist (2 * z.fs) med then 5
  else 0

/-- The new gain of an observed nozzle with its reason, 0 where it passes (R379). -/
def State.nozzleGain (s : State) (p n : Nat) : Nat × Nat :=
  let z := s.noz p n
  let g := s.baseGain p n * 32768 / z.fs
  (g, s.gainReason p n g)

/-- A shadow per-nozzle entry with a field changed; the other fields stay (R381). An ACTIVE part mirrors the write (R496). -/
def setEntry (p n : Nat) (f : Nat → Nat) (s : State) : State :=
  let off := nozzleOff p n + 2 ^ 21
  let v := f (s.nozzleShadow p n)
  mirrorWrite (regionOf p) false off v (s.setApt (pgScr (regionOf p)) off v)

/-- One due port of phase 2 (R379, R380); the answer tells whether its update is accepted. -/
def portUpdate (p : Nat) (s : State) : State × Bool :=
  let judged := ((List.range 4096).filter (fun n => (s.noz p n).observed)).map (fun n => (n, s.nozzleGain p n))
  let bad := judged.filter (fun e => e.2.2 != 0)
  let good := judged.filter (fun e => e.2.2 == 0)
  let whole : Bool := decide (s.get F.Dtrk.PORT_REJECT_LIMIT pgTrk < bad.length) || good.isEmpty
  let num := low 24 (s.get F.Dtrk.SOLVE_NUMBER pgTrk) * 2 ^ 40
  let s1 := forAll judged s (fun e s => setNoz p e.1 { s.noz p e.1 with reason := e.2.2 } s)
  let s2 := if whole then s1
    else forAll good s1 (fun e s => setEntry p e.1 (fun w => e.2.1 * 65536 + w % 65536) s)
  let s3 : State := match bad with
    | [] => s2
    | b :: _ =>
      (s2.satI F.Dtrk.NOZZLE_REJECTS pgTrk 0 bad.length).raise Ev.dtrkUpdateRejected pgTrk
        (num + low 16 bad.length * 2 ^ 24 + b.1 * 2 ^ 12 + p * 2 ^ 6 + bit whole * 2 ^ 5 + b.2.2)
  if whole then (s3, false)
  else
    let s4 := (s3.wrap F.Dtrk.UPDATES_ACCEPTED pgTrk).raise Ev.dtrkUpdateAccepted pgTrk
      (num + low 16 good.length * 2 ^ 24 + p * 2 ^ 6)
    (s4.updTrkPort p (fun _ => { tref := s.sensor0 p, accepted := some s.now, req := false }), true)

/-- MISSING, and REDIST_EN under OUT_POLICY 2, of the nozzles of a region that are out (R377, R381). -/
def writeMissing (r : Nat) (s : State) : State :=
  let mine := s.trk.toMiss.filter (fun m => regionOf m.1 == r)
  let s1 := forAll mine s (fun m s =>
    let s1 := setEntry m.1 m.2.1 (fun w => setBit w 0) s
    if m.2.2 = 2 then
      let s2 := s1.setShadow F.Scr.REDIST_EN (pgScr r) (m.1 % 12) 1
      let i := m.1 % 12
      let word := (shadowFields (pgScr r)).foldl (fun a f => match f.instAt (0xC4 + 8 * i) with
        | some j => a + s2.getShadow f (pgScr r) j * 2 ^ f.lo
        | none => a) 0
      mirrorWrite r true (0x8C4 + 8 * i) word s2
    else s1)
  s1.updTrk (fun t => { t with toMiss := t.toMiss.filter (fun m => regionOf m.1 != r) })

/-- The owner identifier of tender core `r`, context 0 (R80). -/
def tenderOwner (r : Nat) : Nat := (5 + r) * 16

/-- Tender core `r` releases the lock of its screening page, where it holds it. -/
def tenderRelease (r : Nat) (s : State) : State :=
  match s.binding (pgScr r) with
  | some n => if s.holds n (tenderOwner r) then lockRelease n (tenderOwner r) s else s
  | none => s

/-- Tender core `r` runs (R582). -/
def State.tenderRuns (s : State) (r : Nat) : Bool := bitAt (s.get F.Cpu.RUN 0x0B0) r && !bitAt s.cpu.halted r

/-- GAIN_UPDATE_WRITE: tender core `r` takes the lock of its screening page; with the commits of the page idle it takes the
due ports in order, writes, requests a commit and releases the lock (R379 to R381). -/
def execGainUpdateWrite (r : Nat) (s : State) : Out :=
  let pg := pgScr r
  let ports := s.trk.pend.filter (fun p => regionOf p == r)
  .next (if Config.regions ≤ r ∨ ports.isEmpty ∨ s.ready pg = false ∨ s.tenderRuns r = false then s
  else match s.binding pg with
    | none => s
    | some n =>
      let s1 := lockAcquire n (tenderOwner r) s
      let idle := s1.cstate pg == 0 && (List.range 8).all (fun g => !s1.groupNames g pg || s1.gstate g == 0)
      if s1.holds n (tenderOwner r) && idle then
        let done := ports.foldl (fun (a : State × List Nat) p =>
          let u := portUpdate p a.1
          (u.1, if u.2 then a.2 ++ [p] else a.2)) (s1, [])
        let s2 := if done.2.isEmpty then done.1
          else tenderCommit r ((writeMissing r done.1).updTrk (fun t => { t with await := t.await ++ done.2 }))
        phase2Check ((tenderRelease r s2).updTrk (fun t => { t with pend := t.pend.filter (fun p => regionOf p != r) }))
      else s1)

/-- DTRK.UPDATE_DEFERRED of a port. -/
def deferred (p why : Nat) (s : State) : State :=
  s.raise Ev.dtrkUpdateDeferred pgTrk (arg64 (s.get F.Dtrk.SOLVE_NUMBER pgTrk) (p * 64 + why))

/-- UPDATE_LOCK_TIMEOUT: the lock has not been acquired within 100 ms (R381). -/
def execUpdateLockTimeout (r : Nat) (s : State) : Out :=
  let ports := s.trk.pend.filter (fun p => regionOf p == r)
  let held : Bool := match s.binding (pgScr r) with
    | some n => s.holds n (tenderOwner r)
    | none => false
  .next (if r < Config.regions ∧ ports ≠ [] ∧ held = false ∧ s.trk.pendAt + 100000000 ≤ s.now then
    phase2Check ((forAll ports s (fun p s => deferred p 1 s)).updTrk (fun t => { t with
      pend := t.pend.filter (fun p => regionOf p != r) }))
  else s)

/-- Ports named by a mask from port `first` on become due (R378). -/
def updateReq (first mask n : Nat) (s : State) : State :=
  forAll ((List.range n).filter (bitAt mask)) s (fun i s => s.updTrkPort (first + i) (fun x => { x with req := true }))

/-- UPDATE_REQ: a write to UPDATE_REQ_LO or (`hi`) UPDATE_REQ_HI (R378). -/
def execUpdateReq (hi : Bool) (mask owner : Nat) (s : State) : Out :=
  .next (gateReg pgTrk (if hi then 0x88 else 0x84) mask owner (updateReq (if hi then 32 else 0) mask (if hi then 16 else 32)) s)

/-- UPDATE_INTERVAL_EXPIRY: MAX_INTERVAL has passed since a port's last accepted update, or since ENABLE (R378). -/
def execUpdateIntervalExpiry (p : Nat) (s : State) : Out :=
  let since := max ((s.trkPort p).accepted.getD 0) s.trk.enabledAt
  .next (if p < Config.ports ∧ s.on F.Hdr.ENABLE pgTrk ∧ since + s.get F.Dtrk.MAX_INTERVAL pgTrk * 1000000000 ≤ s.now then
    s.updTrkPort p (fun x => { x with req := true })
  else s)

/-! ### The page -/

/-- ENABLE becomes 1: the configuration is tested (R391). -/
def trkStart (s : State) : State :=
  let why := s.trkReason
  if why ≠ 0 then (s.set F.Hdr.ENABLE pgTrk 0).raise Ev.dtrkConfigInvalid pgTrk why
  else
    startBoundary pgTrk (s.get F.Dtrk.SOLVE_NUMBER pgTrk + 1) (setTrkState 1 (s.updTrk (fun t => { t with
      enabledAt := s.now, start := none, exp := none, lag := [], proof := [] })))

/-- The window in progress and the phases are abandoned. -/
def trkAbandon (s : State) : State :=
  let s1 := forAll (List.range Config.regions) s (fun r s => if s.trk.pend.any (fun p => regionOf p == r) then tenderRelease r s else s)
  (clearTerms s1).updTrk (fun t => { t with
    proof := [], start := none, exp := none, lag := [], solveAt := none, pend := [] })

/-- Tender core `r` stops on a fault: phase 1, or its phase 2, is abandoned (R582, Table 11-4). -/
def trkFault (r : Nat) (s : State) : State :=
  let s1 := if s.trkState = 2 ∧ s.trk.solveAt.isSome then
      setTrkState 1 ((clearTerms s).updTrk (fun t => { t with solveAt := none }))
    else s
  phase2Check (s1.updTrk (fun t => { t with pend := t.pend.filter (fun p => regionOf p != r) }))

/-- ENABLE becomes 0. -/
def trkStop (s : State) : State := (setTrkState 0 (trkAbandon s)).set F.Dtrk.ROWS_MATCHED pgTrk 0

/-- A function reset of a screening page loses values that wait for their swap (R382). -/
def trkScreenReset (r : Nat) (s : State) : State :=
  let mine := s.trk.await.filter (fun p => regionOf p == r)
  (forAll mine s (fun p s => deferred p 2 (s.updTrkPort p (fun x => { x with req := true })))).updTrk (fun t => { t with
    await := t.await.filter (fun p => regionOf p != r) })

end Sys2Proof.Machine
end

