-- ==== Sys2Proof/Machine/Calibration.lean ====
section
/-! DEFINITION. The calibration store, page 0x07A (R113, R217, R387 to R390, R393). STATE: 0 idle, 1 saving, 2 applying, 3
failed. -/

namespace Sys2Proof.Machine

def State.updCal (s : State) (f : CalX → CalX) : State := { s with cal := f s.cal }

/-- CAL_STATUS.STATE. -/
def State.calState (s : State) : Nat := s.get F.Cal.CAL_STATUS_STATE pgCal

/-- An action is ignored while STATE is 1 or 2. -/
def State.calBusy (s : State) : Bool := s.calState == 1 || s.calState == 2

/-- A bit of CAL_VALID and of DIRTY. -/
def setCalValid (c : Nat) (v : Bool) (s : State) : State :=
  let w := s.get F.Cal.CAL_VALID pgCal
  s.set F.Cal.CAL_VALID pgCal (if v then setBit w c else clearBit w c)
def setDirty (c : Nat) (v : Bool) (s : State) : State :=
  let w := s.get F.Cal.DIRTY pgCal
  s.set F.Cal.DIRTY pgCal (if v then setBit w c else clearBit w c)

/-- The categories of a mask. -/
def catsOf (mask : Nat) : List Nat := (List.range 6).filter (bitAt mask)

/-! ### SAVE and WITHDRAW (R389) -/

/-- A category leaves the save in progress, which ends with the last one. -/
def calLeave (c : Nat) (fail : Bool) (s : State) : State :=
  let s1 := s.updCal (fun x => { x with
    saving := clearBit x.saving c
    failed := if fail then setBit x.failed c else x.failed })
  if s1.cal.saving = 0 ∧ s1.calState = 1 then
    s1.set F.Cal.CAL_STATUS_STATE pgCal (if s1.cal.failed = 0 then 0 else 3)
  else s1

/-- The save of a category fails: reason 1 the journal, 2 its user window was written. -/
def calFail (reason c : Nat) (s : State) : State :=
  (calLeave c true s).raise Ev.dtrkCalSaveFail pgCal (reason * 256 + 2 ^ c)

/-- A category stands in the journal. -/
def calDone (c : Nat) (data : List Byte) (s : State) : State :=
  if bitAt s.cal.saving c then
    calLeave c false (setDirty c false (setCalValid c true (s.setI F.Cal.USER_CRC pgCal c (crc32 data))))
  else s

/-- The bytes of a category's user window. -/
def State.calBytes (s : State) (c : Nat) : List Byte := s.aptBytes pgCal (calWindow c).1 (calWindow c).2

/-- SAVE of the named categories. -/
def calSave (cats : Nat) (s : State) : State :=
  if s.calBusy then s
  else if catsOf cats = [] then s.set F.Cal.CAL_STATUS_STATE pgCal 0
  else
    let s1 := (s.set F.Cal.CAL_STATUS_STATE pgCal 1).updCal (fun x => { x with saving := low 6 cats, failed := 0 })
    if s.journalOpen then forAll (catsOf cats) s1 (fun c s => journalAsk ⟨3, c, s.calBytes c⟩ s)
    else forAll (catsOf cats) s1 (calFail 1)

/-- WITHDRAW of the named categories. -/
def calWithdraw (cats : Nat) (s : State) : State :=
  if s.calBusy then s else forAll (catsOf cats) s (fun c => setCalValid c false)

/-- A word of a user window changes: the category is not valid and dirty, and its save fails (R389). While the journal closes
the write is dropped (R569). -/
def calWrite (off v : Nat) (s : State) : State :=
  match calCategory off with
  | some c =>
    if s.jrn.closing.isSome then s
    else
      let s1 := setDirty c true (setCalValid c false (s.setApt pgCal off (v &&& winMask pgCal off)))
      if bitAt s1.cal.saving c then calFail 2 c (journalDrop 3 c s1) else s1
  | none => s

/-! ### APPLY (R390) -/

/-- The effective tables of the converters and delay lines, as categories 0 and 1 hold them: new tables of die `d`. -/
def State.calTables (s : State) (cats d : Nat) : List (Nat × List Nat) :=
  let bytes := fun (off : Nat) => (s.effBytes off 16).map (·.toNat)
  let conv := if bitAt cats 0 then (List.range 12).map (fun j => (16 * (12 * d + j), bytes (0xD0004 + 16 * (12 * d + j)))) else []
  let taps := if bitAt cats 1 ∧ d ≠ 0 then
      (List.range 24).map (fun i => (0x1000 + 16 * (24 * (d - 1) + i), bytes (0xD0404 + 16 * (24 * (d - 1) + i))))
    else []
  conv ++ taps

/-- The reference temperature of categories 0 and 1 as a die takes it. -/
def State.calRef (s : State) (cats d : Nat) : Option Nat :=
  if bitAt cats 1 ∧ d ≠ 0 then some (s.effWord 0xD0400 % 65536)
  else if bitAt cats 0 then some (s.effWord 0xD0000 % 65536)
  else none

/-- Page 0x079 is given its values; they are active after the next table swap of each die (R387). -/
def calToTdc (cats : Nat) (s : State) : State :=
  forAll [0, 1, 2] s (fun d s =>
    let new := s.calTables cats d
    let s1 := s.updTdc d (fun x => { x with fresh := x.fresh.filter (fun f => !new.any (fun e => e.1 == f.1)) ++ new })
    match s.calRef cats d with
    | some t => s1.setI F.Tdc.REF_TEMP pgTdc d t
    | none => s1)

/-- The shadow entry of a nozzle under category 5. A gain that does not fit its 16 bits, or whose factor is 0, is a free
value. -/
def applyNozzle (p n : Nat) (s : State) : State :=
  let e := s.effWord (4 * (4096 * p + n))
  let z := s.noz p n
  let g := e / 65536 * 32768 / z.fs
  let put := fun (g : Nat) (s : State) => setEntry p n (fun _ => low 16 g * 65536 + e % 65536) s
  if !z.valid then put (e / 65536) s
  else if z.fs = 0 ∨ 65536 ≤ g then
    let f := s.free
    put f.1 f.2
  else put g s

/-- A tone-curve word of region `r` under category 4. -/
def applyTone (r k : Nat) (s : State) : State :=
  let off := 0x30000 + 4 * k + 2 ^ 21
  let v := s.effWord (0xC0000 + 0x2000 * r + 4 * k)
  mirrorWrite r false off v (s.setApt (pgScr r) off v)

/-- What tender core `r` writes for the named categories. -/
def applyRegion (cats r : Nat) (s : State) : State :=
  let s1 := if bitAt cats 4 then forAll (List.range 2048) s (applyTone r) else s
  if bitAt cats 5 then
    forAll (portsOf r) s1 (fun p s => forAll (List.range 4096) s (applyNozzle p))
  else s1

/-- Tender core `r` takes the lock of its screening page and, with the commits of the page idle, writes (R381, R390). -/
def applyTender (r : Nat) (s : State) : State :=
  let pg := pgScr r
  let write := fun (s : State) =>
    (applyRegion s.cal.applying r s).updCal (fun x => { x with
      regions := x.regions.filter (fun q => q != r)
      mirror := if s.role = 4 then x.mirror.filter (fun q => q != r) ++ [r] else x.mirror })
  let idle := fun (s : State) => s.cstate pg == 0 && (List.range 8).all (fun g => !s.groupNames g pg || s.gstate g == 0)
  if !s.ready pg || !s.tenderRuns r then s
  else match s.binding pg with
    | none => if idle s then write s else s
    | some n =>
      let s1 := lockAcquire n (tenderOwner r) s
      if s1.holds n (tenderOwner r) && idle s1 then tenderRelease r (write s1) else s1

/-- APPLY of the named categories. -/
def calApply (cats : Nat) (s : State) : State :=
  if s.calBusy then s
  else
    let regions := if bitAt cats 4 || bitAt cats 5 then List.range Config.regions else []
    let s1 := (s.set F.Cal.CAL_STATUS_STATE pgCal 2).updCal (fun x => { x with
      applying := low 6 cats
      round := s.get F.Hk.HK_ROUNDS 0x0A8
      regions := regions })
    forAll regions (if bitAt cats 0 || bitAt cats 1 then calToTdc cats s1 else s1) applyTender

/-- Every consumer has taken its values. -/
def State.calTaken (s : State) : Bool :=
  let x := s.cal
  x.regions.isEmpty && ((!bitAt x.applying 2 && !bitAt x.applying 3) || s.get F.Hk.HK_ROUNDS 0x0A8 != x.round) &&
    ((!bitAt x.applying 0 && !bitAt x.applying 1) || [0, 1, 2].all (fun d => (s.tdcOf d).fresh.isEmpty))

/-- CAPTURE_TDC (R390). Where the dies do not agree on one reference temperature, the stored one is a free value. -/
def calCapture (s : State) : State :=
  if s.calBusy then s
  else
    let refs := [0, 1, 2].map (s.getI F.Tdc.REF_TEMP pgTdc)
    let same := fun (l : List Nat) (s : State) =>
      if l.all (fun t => t == l.headD 0) then (l.headD 0, s) else ((low 16 s.free.1), s.free.2)
    let t0 := same refs s
    let t1 := same (refs.drop 1) t0.2
    let s1 := calWrite 0xD0400 t1.1 (calWrite 0xD0000 t0.1 t1.2)
    let s2 := forAll (List.range 144) s1 (fun i s => calWrite (0xD0004 + 4 * i) (s.apt pgTdc (4 * i)) s)
    forAll (List.range 192) s2 (fun i s => calWrite (0xD0404 + 4 * i) (s.apt pgTdc (0x1000 + 4 * i)) s)

/-- A write of CAL_CTRL; CAT is stored, and the actions go in the order CAPTURE_TDC, WITHDRAW, SAVE, APPLY. -/
def calCtrl (cats : Nat) (capture withdraw save apply_ : Bool) (s : State) : State :=
  let s1 := s.set F.Cal.CAT pgCal cats
  let s2 := if capture then calCapture s1 else s1
  let s3 := if withdraw then calWithdraw cats s2 else s2
  let s4 := if save then calSave cats s3 else s3
  if apply_ then calApply cats s4 else s4

/-- CAL_SAVE (R389). -/
def execCalSave (cats owner : Nat) (s : State) : Out :=
  .next (gateReg pgCal 0x44 (low 6 cats * 65536 + 2) owner (calCtrl (low 6 cats) false false true false) s)

/-- CAL_WITHDRAW (R389). -/
def execCalWithdraw (cats owner : Nat) (s : State) : Out :=
  .next (gateReg pgCal 0x44 (low 6 cats * 65536 + 4) owner (calCtrl (low 6 cats) false true false false) s)

/-- CAL_APPLY (R390). -/
def execCalApply (cats owner : Nat) (s : State) : Out :=
  .next (gateReg pgCal 0x44 (low 6 cats * 65536 + 1) owner (calCtrl (low 6 cats) false false false true) s)

/-- CAL_CAPTURE_TDC (R390). -/
def execCalCaptureTdc (cats owner : Nat) (s : State) : Out :=
  .next (gateReg pgCal 0x44 (low 6 cats * 65536 + 8) owner (calCtrl (low 6 cats) true false false false) s)

/-- CAL_APPLY_DONE: tender cores that still wait try again; with every value taken STATE returns to 0 (R390). -/
def execCalApplyDone (s : State) : Out :=
  .next (if s.calState = 2 then
    let s1 := forAll s.cal.regions s applyTender
    if s1.calTaken then
      let cats := s1.cal.applying
      ((s1.set F.Cal.CAL_STATUS_STATE pgCal 0).updCal (fun x => { x with applying := 0 })).raise Ev.dtrkCalApplyDone pgCal cats
    else s1
  else s)

/-! ### The page -/

/-- VALID, USER_CRC and the user windows come back from the journal (R389). -/
def calRestore (s : State) : State :=
  forAll (List.range 6) s (fun c s =>
    let w := calWindow c
    match s.stored 3 c with
    | some data =>
      if data.length = w.2 then
        setCalValid c true ((setAptBytes pgCal w.1 data s).setI F.Cal.USER_CRC pgCal c (crc32 data))
      else (setCalValid c false s).setI F.Cal.USER_CRC pgCal c 0
    | none =>
      let s1 := (setCalValid c false s).setI F.Cal.USER_CRC pgCal c 0
      { s1 with aptw := tclear s1.aptw (aptKey pgCal w.1) (aptKey pgCal (w.1 + w.2)) })

/-- What a function reset of the page discards: its action in progress. -/
def calDiscard (s : State) : State :=
  let s1 := forAll (catsOf s.cal.saving) s (fun c => journalDrop 3 c)
  s1.updCal (fun _ => {})

/-- Page 0x079 takes the effective tables at Bisque (R113, R387); a restored REF_TEMP stays (R111). -/
def tdcReady (s : State) : State :=
  let restored := bitAt (s.getI F.Rdy.RESTORED pgReady (pgTdc / 32)) (pgTdc % 32)
  forAll [0, 1, 2] s (fun d s =>
    let s1 := forAll (s.calTables 3 d) s (fun f s => setAptBytes pgTdc f.1 (f.2.map (BitVec.ofNat 8)) s)
    match s.calRef 3 d with
    | some t => if restored then s1 else s1.setI F.Tdc.REF_TEMP pgTdc d t
    | none => s1)

/-- The tone-curve and per-nozzle windows of region `r` are filled, active and shadow, at Bisque (R217). -/
def screenFill (r : Nat) (s : State) : State :=
  let put := fun (off v : Nat) (s : State) => (s.setApt (pgScr r) off v).setApt (pgScr r) (off + 2 ^ 21) v
  let s1 := forAll (List.range 2048) s (fun k s => put (0x30000 + 4 * k) (s.effWord (0xC0000 + 0x2000 * r + 4 * k)) s)
  forAll (List.range 49152) s1 (fun k s => put (4 * k) (s.effWord (0x30000 * r + 4 * k)) s)

end Sys2Proof.Machine
end

