-- ==== Sys2Proof/Machine/Camera.lean ====
section
/-! DEFINITION. Inspection cameras: CSI-2 receivers, the parallel port, line assembly, frames, tags, statistics and camera
control (R325 to R343, R351 to R354). -/

namespace Sys2Proof.Machine

/-- The link's function runs: a link takes packets while its page is enabled (R60). -/
def State.linkOn (s : State) (l : Nat) : Bool := decide (l < 3) && s.on F.Hdr.ENABLE (pgCam l)

/-- The stream takes lines. -/
def State.streamOn (s : State) (st : Nat) : Bool := s.linkOn (linkOf st) && s.slotOn st

/-- The slot whose frames number the link's frames (R339). -/
def State.masterOf (s : State) (l : Nat) : Nat := if l < 2 then 4 * l + s.get F.Cam.MASTER_SLOT (pgCam l) else 8

/-- Every frame of a slot that has the serial number changed. -/
def updFrame (st ser : Nat) (f : FrameX → FrameX) (s : State) : State :=
  let g := fun (x : FrameX) => if x.ser == ser then f x else x
  s.updSlot st (fun x => { x with frame := x.frame.map g, closing := x.closing.map g })

/-- The open frame changed, where there is one. -/
def updOpen (st : Nat) (f : FrameX → FrameX) (s : State) : State := s.updSlot st (fun x => { x with frame := x.frame.map f })

/-! ### Statistics (R351, R352) -/

/-- FLAGS of Table 10-6 for a frame that closes with `perFrame` lines wanted. -/
def FrameX.flagsOf (f : FrameX) (perFrame : Nat) : Nat :=
  let v := bit (decide (f.lines < perFrame)) + bit f.longFrame * 2 + bit (f.shortLines != 0) * 4 + bit (f.longLines != 0) * 8 +
    bit f.crcError * 16 + bit f.headerDrop * 32 + bit f.feMissing * 64 + bit f.tagSlip * 128 + bit f.unsure * 256 +
    bit f.overflow * 512 + bit f.aborted * 1024 + bit f.misaligned * 2048
  v + bit (v &&& 0xEF3 != 0) * 32768

/-- A 16-bit count that saturates. -/
def sat16 (n : Nat) : Nat := min n 65535

/-- A mean over valid pixels, `open_` where there are none; its rounding is not stated. -/
def meanOf (sum n open_ : Nat) : Nat := if n = 0 then low 16 open_ else unsext 16 (Config.roundReal ((sum : Rat) / n))

/-- The 64 bytes of Table 10-6. -/
def FrameX.record (f : FrameX) (st open_ : Nat) : List Byte :=
  leBytes 4 (f.n.getD 0) ++ leBytes 1 st ++ leBytes 1 f.exp ++ leBytes 2 f.flags ++ leBytes 4 f.delivered ++
    leBytes 2 (sat16 f.shortLines) ++ leBytes 2 (sat16 f.longLines) ++ leBytes 2 f.sensor ++ leBytes 2 (sat16 f.tagMissing) ++
    leBytes 8 (f.firstTag.getD 0) ++ leBytes 8 (f.lastTag.getD 0) ++
    f.sumR.flatMap (fun x => leBytes 2 (meanOf x f.validR open_)) ++
    f.sumA.flatMap (fun x => leBytes 2 (if f.validA = 0 then 0 else meanOf x f.validA open_)) ++
    leBytes 2 (sat16 f.sat) ++ leBytes 2 (sat16 f.invalid) ++ leBytes 2 (sat16 f.crcLines) ++ leBytes 2 0 ++ leBytes 8 f.endTime

/-- Records in the statistics ring. -/
def State.statsLen (s : State) : Nat := s.get F.Pipe.STATS_SIZE pgPipe * 64

/-- The statistics record of a frame (R351). The mean of a channel with no valid pixel is not stated. DESIGN CHOICE: a quiesced
pipeline, which issues no store, drops the record as where its ring is full (R117, log 132). -/
def statsRecord (st : Nat) (f : FrameX) (s : State) : State :=
  let n := s.statsLen
  let wr := s.get F.Pipe.STATS_WR pgPipe
  if n = 0 ∨ s.on F.Hdr.ENABLE pgPipe = false then s
  else if (wr + 1) % n = s.get F.Pipe.STATS_RD pgPipe ∨ s.on F.Hdr.QUIESCE pgPipe then
    let s1 := s.sat F.Pipe.STATS_DROPPED pgPipe
    if s.pipe.full then s1
    else (s1.updPipe (fun p => { p with full := true })).raise Ev.camStatsOverflow pgPipe
      (arg64 (s1.get F.Pipe.STATS_DROPPED pgPipe) 0)
  else
    let v := s.free
    let s1 := if f.validR = 0 then v.2 else s
    let a := s.get F.Pipe.STATS_BASE pgPipe * 4096 + wr * 64
    ((sdramWrite 7 a (f.record st v.1) s1).updPipe (fun p => { p with full := false })).set
      F.Pipe.STATS_WR pgPipe ((wr + 1) % n)

/-- A capture tap has recorded its last whole frame (R350). -/
def tapFrameEnd (st ser : Nat) (s : State) : State :=
  forAll (List.range 6) s (fun t s =>
    let x := tget s.pipe.taps t {}
    if s.getI F.Tap.STREAM pgTap t = st ∧ s.getI F.Tap.MODE pgTap t = 1 ∧ s.getI F.Tap.TAP_STATE pgTap t = 1 ∧
        x.first.isSome ∧ x.first.getD 0 + s.getI F.Tap.TAP_FRAMES pgTap t = ser + 1 then
      (s.setI F.Tap.TAP_STATE pgTap t 2).raise Ev.camTapDone pgTap (arg64 (s.getI F.Tap.TAP_LINES pgTap t) t)
    else s)

/-- Closed frames whose lines have all passed the pipeline leave it with their records, oldest first. -/
def settleFrames (st : Nat) : List FrameX → State → State
  | [], s => s.updSlot st (fun x => { x with closing := [] })
  | f :: fs, s =>
    if f.pend = 0 then settleFrames st fs (tapFrameEnd st f.ser (statsRecord st f s))
    else s.updSlot st (fun x => { x with closing := f :: fs })

def settle (st : Nat) (s : State) : State := settleFrames st (s.slotX st).closing s

/-- The open frame of a slot closes (R338, R352). A frame that no line has entered has no stated number. -/
def closeFrame (st : Nat) (change : FrameX → FrameX) (s : State) : State :=
  match (s.slotX st).frame with
  | none => s
  | some f0 =>
    let l := linkOf st
    let v := s.free
    let s1 := if f0.n.isSome then s else v.2
    let n := f0.n.getD (low 32 v.1)
    let e := s.expOf l n
    let f1 := change (if f0.n.isSome then f0 else
      { f0 with n := some n, exp := e.1, unsure := e.2, firstTag := some (low 64 v.1), lastTag := some (low 64 v.1) })
    let f := { f1 with endTime := s.count, flags := f1.flagsOf (s.slotGet st F.Cam.LINES_PER_FRAME) }
    let s2 := (s1.updSlot st (fun x => { x with frame := none, closing := x.closing ++ [f] })).wrapI F.Cam.SLOT_FRAMES (pgCam l)
      (slotOf st) 1
    let s3 := if bitAt f.flags 15 then s2.raise Ev.camFrameMarked (pgCam l) (arg64 n (f.flags * 65536 + slotOf st)) else s2
    settle st (if s3.get F.Pipe.FRAME_SOURCE pgPipe = l then freshLoad F.Pipe.PIPE_LOAD pgPipe s3 else s3)

/-! ### Tags (R342) -/

/-- One slip of the tag pairing: 0 aged out, 1 no tag, 2 FIFO full. -/
def tagSlip (st why : Nat) (s : State) : State :=
  let pg := pgCam (linkOf st)
  let s1 := updOpen st (fun f => { f with tagSlip := true }) (s.satI F.Cam.TAG_SLIPS pg (slotOf st) 1)
  s1.raise Ev.camTagSlip pg (arg64 (s1.getI F.Cam.TAG_SLIPS pg (slotOf st)) (why * 256 + slotOf st))

/-- A pulse of divider `d` pushes a tag: the interpolated position and the time of the cycle in which the pulse leaves the
output stage (R247, R342). -/
def pushTag (d st : Nat) (s : State) : State :=
  if s.streamOn st ∧ s.slotGet st F.Cam.TAG_DIV = d then
    let t := s.now + 3
    let ch := s.getI F.Div.SOURCE pgDiv d
    let p := (s.posOf ch).hub.position t
    let c := (t - s.countBase + 1) / 2 % 2 ^ 64
    let full : Bool := (s.slotX st).tags.length == 64
    let s1 := s.updSlot st (fun x => { x with tags := (if full then x.tags.drop 1 else x.tags) ++ [(p, t, c)] })
    if full then tagSlip st 2 s1 else s1
  else s

/-- Tags that are too old leave, each as a slip. -/
def ageTags (st : Nat) : List (Nat × Nat × Nat) → State → State
  | [], s => s.updSlot st (fun x => { x with tags := [] })
  | t :: ts, s =>
    if t.2.1 + s.slotGet st F.Cam.MAX_AGE * 1000 < s.now then ageTags st ts (tagSlip st 0 s)
    else s.updSlot st (fun x => { x with tags := t :: ts })

/-- The line in assembly takes its tag. Without one, TAG and TAG_TIME are not stated. -/
def takeTag (st : Nat) (s : State) : State :=
  let s1 := ageTags st (s.slotX st).tags s
  match (s1.slotX st).tags with
  | t :: ts =>
    s1.updSlot st (fun x => { x with tags := ts, line := x.line.map (fun y => { y with tag := t.1, tagTime := t.2.2 }) })
  | [] =>
    let v := s1.free
    let w := v.2.free
    let s2 := w.2.updSlot st (fun x => { x with line := x.line.map (fun y =>
      { y with tagInvalid := true, tag := low 64 v.1, tagTime := low 64 w.1 }) })
    if s.slotGet st F.Cam.TAG_DIV = 4 then s2 else tagSlip st 1 s2

/-! ### Frame starts (R339, R353) -/

/-- The pipeline and tap pages that count the frames of a link (R357). -/
def State.framePages (s : State) (l : Nat) : List Nat :=
  pgCam l :: (if s.get F.Pipe.FRAME_SOURCE pgPipe = l then [pgPipe, pgTap] else [])

/-- The first line of a frame of the master slot enters line assembly: the frame counter, late exposure sequences, and the
commit boundary of the link and of the pages that follow it. -/
def linkFrame (l : Nat) (s : State) : State :=
  let s1 := s.wrap F.Cam.LINK_FRAME (pgCam l)
  let n := s1.get F.Cam.LINK_FRAME (pgCam l)
  let s2 := forAll (s1.linkX l).exps s1 (fun e s => if e.f + 1 ≤ n then expLate l e s else s)
  forAll (s2.framePages l) s2 (fun pg s => reachBoundary pg n s)

/-- A capture tap that waits begins with the frame that starts: `was` are the taps before that frame's boundary, so that a tap
enabled by the swap at that boundary waits for the next frame (R350). -/
def tapFrameStart (was : Tbl TapX) (st ser : Nat) (s : State) : State :=
  forAll (List.range 6) s (fun t s =>
    let x := tget s.pipe.taps t {}
    if (tget was t {}).arm ∧ x.arm ∧ s.getI F.Tap.STREAM pgTap t = st ∧ s.on F.Hdr.ENABLE pgTap then
      let s1 := s.updPipe (fun p => { p with taps := tput p.taps t { arm := false, first := some ser } })
      if s.getI F.Tap.TAP_FRAMES pgTap t = 0 then
        (s1.setI F.Tap.TAP_STATE pgTap t 2).raise Ev.camTapDone pgTap (arg64 (s1.getI F.Tap.TAP_LINES pgTap t) t)
      else s1.setI F.Tap.TAP_STATE pgTap t 1
    else s)

/-- A frame opens. -/
def openFrame (st sensor : Nat) (s : State) : State :=
  s.updSlot st (fun x => { x with frame := some { ser := x.ser, sensor := low 16 sensor }, ser := x.ser + 1 })

/-- The frame's first line enters: its number, EXP_ID and EXP_UNCERTAIN. -/
def firstLine (st : Nat) (f : FrameX) (s : State) : State :=
  let l := linkOf st
  let s1 := if s.masterOf l = st then linkFrame l s else s
  let n := s1.get F.Cam.LINK_FRAME (pgCam l)
  let e := s1.expOf l n
  tapFrameStart s.pipe.taps st f.ser (updOpen st (fun f => { f with n := some n, exp := e.1, unsure := e.2 }) s1)

/-- The first packet or sample of a line enters line assembly (R338, R339, R342, R344). -/
def startLine (st : Nat) (s : State) : State :=
  let s1 := if s.slotGet st F.Cam.FRAME_MODE = 1 ∧ (s.slotX st).frame = none then openFrame st 0 s else s
  let s2 : State := match (s1.slotX st).frame with
    | some f => if f.n.isNone then firstLine st f s1 else s1
    | none => s1
  let line : CamLine := match (s2.slotX st).frame with
    | some f => { ser := some f.ser, n := f.n.getD 0, ix := f.lines, exp := f.exp, unsure := f.unsure, set := s2.pipe.set }
    | none => { set := s2.pipe.set }
  takeTag st (s2.updSlot st (fun x => { x with line := some line }))

/-! ### Planes and lines (R334 to R340) -/

/-- Bits of a sample of a CSI-2 format. -/
def dtBits (dt : Nat) : Nat := 10 + 2 * dt

/-- Pixels and bytes of a packing unit (Table 10-3). -/
def dtUnit (dt : Nat) : Nat × Nat :=
  match dt with
  | 0 => (4, 5)
  | 1 => (2, 3)
  | _ => (4, 7)

/-- The samples of one packing unit: the high eight bits of each, then the low bits of all. PRESUMED: the packing of
CSI-2, which the spec names. -/
def unpackUnit (dt : Nat) (bs : List Byte) : List Nat :=
  let k := (dtUnit dt).1
  let b := dtBits dt - 8
  let lows := leNat (bs.drop k)
  (List.range k).map (fun i => (bs.getD i 0).toNat * 2 ^ b + bits lows (i * b) b)

/-- The samples of a payload; bytes that do not complete a unit are discarded (R337). -/
def unpack (dt : Nat) (bs : List Byte) : List Nat :=
  (List.range (bs.length / (dtUnit dt).2)).flatMap (fun u => unpackUnit dt ((bs.drop (u * (dtUnit dt).2)).take (dtUnit dt).2))

/-- A plane of samples of `b` bits added to the line in assembly, as long as it has fewer than `planes` (R334, R337). -/
def addPlane (st planes b : Nat) (samples : List Nat) (s : State) : State :=
  let px := s.slotGet st F.Cam.PIXELS
  let kept := samples.take px
  let raw := kept.map (fun v => v * 2 ^ (16 - b)) ++ List.replicate (px - kept.length) (s.slotGet st F.Cam.PAD_VALUE)
  s.updSlot st (fun x => { x with line := x.line.map (fun y =>
    if y.planes.length < planes then
      { y with
        planes := y.planes ++ [raw]
        sat := y.sat + (kept.filter (· == 2 ^ b - 1)).length
        padded := y.padded || decide (samples.length < px)
        cut := y.cut || decide (px < samples.length)
        shorts := y.shorts + bit (decide (samples.length < px))
        cuts := y.cuts + bit (decide (px < samples.length)) }
    else { y with long := true }) })

/-- What a completed line of the frame adds to the frame's counts: each short plane and each cut plane once (R337), and a line
with packets beyond the third once as long (R335). -/
def FrameX.count (f : FrameX) (y : CamLine) : FrameX :=
  { f with
    lines := f.lines + 1
    shortLines := f.shortLines + y.shorts
    longLines := f.longLines + y.cuts + bit y.long
    crcLines := f.crcLines + bit y.crc
    tagMissing := f.tagMissing + bit y.tagInvalid
    sat := f.sat + y.sat
    firstTag := some (f.firstTag.getD y.tag)
    lastTag := some y.tag }

/-- A completed line of the open frame is buffered for the pipeline, or discarded because four lines wait (R340). -/
def bufferLine (st : Nat) (y : CamLine) (s : State) : State :=
  let pg := pgCam (linkOf st)
  if (s.slotX st).ready.length < 4 then
    updOpen st (fun f => { f with delivered := f.delivered + 1, pend := f.pend + 1 })
      (s.updSlot st (fun x => { x with ready := x.ready ++ [y] }))
  else
    let s1 := s.satI F.Cam.LINES_DROPPED pg (slotOf st) 1
    if (s.slotX st).frame.any (·.overflow) then s1
    else (updOpen st (fun f => { f with overflow := true }) s1).raise Ev.camOverflow pg (arg64 y.n (slotOf st))

/-- The line in assembly ends: missing planes are filled, and the line joins its frame (R335, R337, R338). DEDUCED: a missing
plane is a plane with no whole pixel and counts as one short plane (log 133). -/
def endLine (st planes : Nat) (s : State) : State :=
  match (s.slotX st).line with
  | none => s
  | some y0 =>
    let px := s.slotGet st F.Cam.PIXELS
    let missing := planes - y0.planes.length
    let y := { y0 with
      planes := y0.planes ++ List.replicate missing (List.replicate px (s.slotGet st F.Cam.PAD_VALUE))
      padded := y0.padded || decide (0 < missing)
      shorts := y0.shorts + missing }
    let s1 := s.updSlot st (fun x => { x with line := none })
    let per := s.slotGet st F.Cam.LINES_PER_FRAME
    match (s1.slotX st).frame with
    | none => s1.satI F.Cam.LINES_DROPPED (pgCam (linkOf st)) (slotOf st) 1
    | some f =>
      if y.ser ≠ some f.ser then s1.satI F.Cam.LINES_DROPPED (pgCam (linkOf st)) (slotOf st) 1
      else if per ≤ f.lines then updOpen st (fun f => { f with longFrame := true }) s1
      else
        let s2 := bufferLine st y (updOpen st (fun f => f.count y) s1)
        if s.slotGet st F.Cam.FRAME_MODE = 1 ∧ per ≤ f.lines + 1 then closeFrame st id s2 else s2

/-- Planes of a line of a CSI-2 slot. -/
def State.planesOf (s : State) (st : Nat) : Nat := if s.slotGet st F.Cam.LAYOUT = 1 then 3 else 1

/-- A planar slot that groups packets by counting (R335, R336). -/
def State.counts3 (s : State) (st : Nat) : Bool :=
  s.slotGet st F.Cam.LAYOUT == 1 && s.slotGet st F.Cam.LSLE == 0

/-- An accepted long packet enters line assembly. -/
def slotPacket (st : Nat) (crcBad : Bool) (payload : List Byte) (s : State) : State :=
  let planar : Bool := s.slotGet st F.Cam.LAYOUT == 1
  let lsle : Bool := s.slotGet st F.Cam.LSLE == 1
  let dt := s.slotGet st F.Cam.DT
  let x := s.slotX st
  let mark := fun (s : State) =>
    if crcBad then
      updOpen st (fun f => { f with crcError := true })
        (s.updSlot st (fun x => { x with line := x.line.map (fun y => { y with crc := true }) }))
    else s
  if x.misaligned then updOpen st (fun f => { f with crcError := f.crcError || crcBad }) s
  else if planar && lsle && !x.lsOpen then updOpen st (fun f => { f with crcError := f.crcError || crcBad }) s
  else
    let s2 := mark (if x.line.isNone then startLine st s else s)
    let s3 := addPlane st (s.planesOf st) (dtBits dt) (unpack dt payload) s2
    let whole : Bool := !planar || (!lsle && ((s3.slotX st).line.any (fun y => y.planes.length == 3)))
    if whole then endLine st (s.planesOf st) s3 else s3

/-! ### CSI-2 receivers (R328 to R331) -/

/-- A header with a multi-bit error (R328, R336). -/
def headerDrop (l : Nat) (s : State) : State :=
  let pg := pgCam l
  let s1 := s.sat F.Cam.ECC_DROPPED pg
  let s2 := s1.raise Ev.camHeaderDrop pg (arg64 (s1.get F.Cam.ECC_DROPPED pg) 0)
  forAll ((streamsOf l).filter s.slotOn) s2 (fun st s =>
    let s3 := updOpen st (fun f => { f with headerDrop := true }) s
    if s.counts3 st then
      let mark := fun (x : CamSlot) => { x with misaligned := true, line := x.line.map (fun y => { y with misaligned := true }) }
      endLine st 3 ((updOpen st (fun f => { f with misaligned := true }) s3).updSlot st mark)
    else s3)

/-- A packet whose header has passed: 0 no error, 1 a corrected one, else the header is dropped (R328). -/
def withHeader (l ecc : Nat) (k : State → State) (s : State) : State :=
  if s.linkOn l ∧ l < 2 then
    if ecc = 0 then k s else if ecc = 1 then k (s.sat F.Cam.ECC_CORRECTED (pgCam l)) else headerDrop l s
  else s

/-- The enabled slot of a link that names a virtual channel. -/
def State.slotOfVc (s : State) (l vc : Nat) : Option Nat :=
  (streamsOf l).find? (fun st => s.slotOn st && s.slotGet st F.Cam.VC == vc)

/-- A discarded packet (R330). -/
def packetUnknown (l vc dt : Nat) (s : State) : State :=
  let s1 := s.sat F.Cam.UNKNOWN_PACKETS (pgCam l)
  s1.raise Ev.camPacketUnknown (pgCam l) (arg64 (s1.get F.Cam.UNKNOWN_PACKETS (pgCam l)) (vc * 256 + dt))

/-- A long packet with a good header, or a short packet that no other command stands for (Table 10-2, R329 to R331). -/
def longPacket (l vc dt : Nat) (crcBad : Bool) (payload : List Byte) (s : State) : State :=
  let pg := pgCam l
  if (0x10 ≤ dt ∧ dt ≤ 0x12) ∨ (0x08 ≤ dt ∧ dt ≤ 0x0F) then s
  else match s.slotOfVc l vc with
    | none => packetUnknown l vc dt s
    | some st =>
      if dt ≠ 0x2B + s.slotGet st F.Cam.DT then packetUnknown l vc dt s
      else
        let s1 := (s.set F.Cam.SILENT pg 0).updLink l (fun x => { x with lastLong := s.now })
        let s2 := if crcBad then
            let s2 := s1.sat F.Cam.CRC_ERRORS pg
            s2.raise Ev.camCrcError pg (arg64 (s2.get F.Cam.CRC_ERRORS pg) (vc * 256))
          else s1
        slotPacket st crcBad payload s2

/-- CSI_LONG_PACKET: `ecc` is what the header's ECC shows, `crcBad` that the payload's CRC does not match. -/
def execCsiLongPacket (l vc dt ecc : Nat) (crcBad : Bool) (payload : List Byte) (s : State) : Out :=
  .next (withHeader l ecc (longPacket l (low 4 vc) (low 6 dt) crcBad payload) s)

/-- CSI_FRAME_START (R335, R336, R338): a planar line in progress ends short. -/
def execCsiFrameStart (l vc num ecc : Nat) (s : State) : Out :=
  .next (withHeader l ecc (fun s =>
    match s.slotOfVc l (low 4 vc) with
    | none => s
    | some st =>
      let s1 := (endLine st (s.planesOf st) s).updSlot st (fun x => { x with misaligned := false, lsOpen := false })
      if s.slotGet st F.Cam.FRAME_MODE = 1 then s1
      else openFrame st num (closeFrame st (fun f => { f with feMissing := true }) s1)) s)

/-- CSI_FRAME_END (R338). -/
def execCsiFrameEnd (l vc ecc : Nat) (s : State) : Out :=
  .next (withHeader l ecc (fun s =>
    match s.slotOfVc l (low 4 vc) with
    | none => s
    | some st =>
      if s.slotGet st F.Cam.FRAME_MODE = 1 then s else closeFrame st id (endLine st (s.planesOf st) s)) s)

/-- CSI_LINE_START (R335): a line that is open closes first. -/
def execCsiLineStart (l vc ecc : Nat) (s : State) : Out :=
  .next (withHeader l ecc (fun s =>
    match s.slotOfVc l (low 4 vc) with
    | none => s
    | some st =>
      if s.slotGet st F.Cam.LAYOUT = 1 ∧ s.slotGet st F.Cam.LSLE = 1 then
        (endLine st 3 s).updSlot st (fun x => { x with lsOpen := true })
      else s) s)

/-- CSI_LINE_END (R335). -/
def execCsiLineEnd (l vc ecc : Nat) (s : State) : Out :=
  .next (withHeader l ecc (fun s =>
    match s.slotOfVc l (low 4 vc) with
    | none => s
    | some st =>
      if s.slotGet st F.Cam.LAYOUT = 1 ∧ s.slotGet st F.Cam.LSLE = 1 then
        (endLine st 3 s).updSlot st (fun x => { x with lsOpen := false })
      else s) s)

/-- PHY_ERROR: an HS entry that fails its sync sequence (1) or a deskew that does not converge (2) (R331). -/
def execPhyError (l kind lanes : Nat) (s : State) : Out :=
  .next (if l < 2 ∧ s.linkOn l then
    let s1 := s.sat F.Cam.PHY_ERRORS (pgCam l)
    s1.raise Ev.camPhyError (pgCam l) (arg64 (s1.get F.Cam.PHY_ERRORS (pgCam l)) (low 4 kind * 16 + low 4 lanes))
  else s)

/-- LINK_SILENT: no long packet accepted for 200 ms with an enabled slot (R331). -/
def execLinkSilent (l : Nat) (s : State) : Out :=
  .next (if l < 2 ∧ s.linkOn l ∧ (streamsOf l).any s.slotOn ∧ s.on F.Cam.SILENT (pgCam l) = false ∧
      (s.linkX l).lastLong + 200000000 ≤ s.now then
    (s.set F.Cam.SILENT (pgCam l) 1).raise Ev.camLinkSilent (pgCam l) (arg64 (s.get F.Cam.LINK_FRAME (pgCam l)) 0)
  else s)

/-! ### Parallel port (R332, R333) -/

/-- A field of PAR_CFG. -/
def State.parCfg (s : State) (f : Fld) : Nat := s.get f 0x072

/-- The samples of every third place, from place `c`. -/
def everyThird (c : Nat) (l : List Nat) : List Nat := (List.range (l.length / 3)).map (fun i => l.getD (3 * i + c) 0)

/-- PAR_FRAME_START: VSYNC goes to `level`; the active edge ends one frame and starts the next. -/
def execParFrameStart (level : Bool) (s : State) : Out :=
  .next (if s.streamOn 8 ∧ level ≠ (s.parCfg F.Par.VSYNC_POL == 1) then
    if s.slotGet 8 F.Cam.FRAME_MODE = 1 then s else openFrame 8 0 (closeFrame 8 id s)
  else s)

/-- PAR_LINE: the samples of PAR_D while DE is at `level` (SYNC_MODE 0), or from the edge of HSYNC to `level` on
(SYNC_MODE 1). -/
def execParLine (level : Bool) (data : List Nat) (s : State) : Out :=
  let sync := s.parCfg F.Par.SYNC_MODE
  let pol := if sync = 1 then s.parCfg F.Par.HSYNC_POL else s.parCfg F.Par.DE_POL
  let b := s.parCfg F.Par.BITS
  let rgb : Bool := s.parCfg F.Par.LAYOUT == 1
  let planes := if rgb then 3 else 1
  .next (if s.streamOn 8 ∧ level ≠ (pol == 1) then
    let v := data.map (low b)
    let w := if sync = 1 then (v.drop (s.parCfg F.Par.HSTART)).take (s.slotGet 8 F.Cam.PIXELS * planes) else v
    let s1 := startLine 8 s
    let s2 := if rgb then forAll [0, 1, 2] s1 (fun c s => addPlane 8 3 b (everyThird c w) s) else addPlane 8 1 b w s1
    endLine 8 planes s2
  else s)

/-! ### Enabling a slot (R326, R343) -/

/-- The reason of R326 for which a stream's settings are invalid, 0 for none. -/
def State.streamReason (s : State) (st : Nat) : Nat :=
  let l := linkOf st
  let base := s.getI F.Pipe.COL_BASE pgPipe st
  let px := s.slotGet st F.Cam.PIXELS
  let unit := if l < 2 then (dtUnit (s.slotGet st F.Cam.DT)).1 else 1
  let others := (List.range 9).filter (fun o => o != st && s.slotOn o)
  let clash := fun (o : Nat) =>
    let b := s.getI F.Pipe.COL_BASE pgPipe o
    decide (base < b + s.slotGet o F.Cam.PIXELS) && decide (b < base + px)
  if 32768 < base + px then 1
  else if others.any clash then 2
  else if px = 0 ∨ 16384 < px ∨ px % unit ≠ 0 then 3
  else if l < 2 ∧ others.any (fun o => linkOf o == l && s.slotGet o F.Cam.VC == s.slotGet st F.Cam.VC) then 4
  else 0

/-- EN of a stream's slot becomes 1 (R326). -/
def slotEnable (st : Nat) (s : State) : State :=
  let l := linkOf st
  if s.slotOn st then s
  else
    let why := s.streamReason st
    if why ≠ 0 then s.raise Ev.camConfigInvalid pgPipe (why * 16 + st)
    else
      let s1 := if (streamsOf l).any s.slotOn then s else s.updLink l (fun x => { x with lastLong := s.now })
      (s1.setI F.Cam.SLOT_CFG_EN (pgCam l) (slotOf st) 1).updSlot st (fun x => { ser := x.ser })

/-- The frame without its lines that still waited for the pipeline: they are not delivered (R343, R351). -/
def FrameX.dropWaiting (f : FrameX) : FrameX := { f with delivered := f.delivered - f.pend, pend := 0 }

/-- EN of a stream's slot becomes 0: an open frame closes with ABORTED, its record is written, and the buffers are emptied
(R343). -/
def slotDisable (st : Nat) (s : State) : State :=
  if s.slotOn st then
    let drop := fun (x : CamSlot) =>
      { x with line := none, ready := [], frame := x.frame.map FrameX.dropWaiting, closing := x.closing.map FrameX.dropWaiting }
    let s1 := settle st (s.updSlot st drop)
    let s2 := closeFrame st (fun f => { f with aborted := true }) s1
    (s2.setI F.Cam.SLOT_CFG_EN (pgCam (linkOf st)) (slotOf st) 0).updSlot st (fun x => { ser := x.ser })
  else s

/-- A function reset of a link or of the parallel page (R343, Table 3-8). -/
def camDiscard (l : Nat) (s : State) : State :=
  (forAll (streamsOf l) s slotDisable).updLink l (fun _ => {})

/-- A function reset of the pipeline: the frame in progress is marked and dropped (Table 3-8). -/
def pipeDiscard (s : State) : State :=
  let drop := fun (st : Nat) (s : State) =>
    let s1 := s.updSlot st (fun x => { x with line := none, ready := [], closing := [],
                                              frame := x.frame.map (fun f => { f with pend := 1 }) })
    (closeFrame st (fun f => { f with aborted := true }) s1).updSlot st (fun x => { x with closing := [] })
  (forAll (List.range 9) s drop).updPipe (fun p => { p with old := [], full := false, mapped := [] })

/-- The offset of SLOT_CFG of a slot. -/
def slotOff (v : Nat) : Nat := 0x200 + 0x20 * v

/-- The stream of a slot of a camera page, none where there is no such slot. -/
def streamAt (l v : Nat) : Option Nat := if l < 2 ∧ v < 4 then some (4 * l + v) else if l = 2 ∧ v = 0 then some 8 else none

/-- SLOT_ENABLE: a write that sets SLOT_CFG.EN of a slot and keeps its other fields (R326). -/
def execSlotEnable (l v owner : Nat) (s : State) : Out :=
  .next (match streamAt l v with
    | some st =>
      let w := s.storedWord (pgCam l) (slotOff v)
      gateReg (pgCam l) (slotOff v) (if s.slotOn st then w else w + 2 ^ 31) owner (slotEnable st) s
    | none => s)

/-- SLOT_DISABLE: a write that clears SLOT_CFG.EN of a slot and keeps its other fields (R343). -/
def execSlotDisable (l v owner : Nat) (s : State) : Out :=
  .next (match streamAt l v with
    | some st => gateReg (pgCam l) (slotOff v) (s.storedWord (pgCam l) (slotOff v) % 2 ^ 31) owner (slotDisable st) s
    | none => s)

/-! ### Camera control (R353, R354) -/

/-- CAM.CCI_NACK: `entry` is 0x3F for a direct operation. -/
def cciNack (l dev reg entry : Nat) (s : State) : State :=
  s.raise Ev.camCciNack (pgCam l) (arg64 (s.get F.Cam.LINK_FRAME (pgCam l)) (dev * 2 ^ 24 + reg * 2 ^ 8 + entry))

/-- CCI_TRANSACTION_END: the transaction on the balls ends, with NACK or not; a read returns `data`. -/
def execCciTransactionEnd (l : Nat) (nack : Bool) (data : Nat) (s : State) : Out :=
  let x := s.linkX l
  let idle := fun (s : State) => cciGo l (s.updLink l (fun x => { x with run := 0 }))
  .next (if 3 ≤ l then s
  else if x.run = 1 then
    match x.exps with
    | e :: _ =>
      let w := e.left.headD (0, 0, 0, 0)
      if nack then
        idle ((expLate l e (cciNack l w.2.1 w.2.2.1 w.1 s)).updLink l (fun x => { x with
          exps := x.exps.map (fun y => if y.f = e.f then { y with left := [] } else y) }))
      else idle (s.updLink l (fun x => { x with
        exps := x.exps.map (fun y => if y.f = e.f then { y with left := y.left.drop 1 } else y) }))
    | [] => s
  else if x.run = 2 then
    match x.direct with
    | some (rd, dev, reg, _) =>
      let pg := pgCam l
      let s1 := if nack then cciNack l dev reg 0x3F s else if rd then s.set F.Cam.READ_DATA pg data else s
      let s2 := ((s1.set F.Cam.NACK pg (bit nack)).set F.Cam.DONE pg 1).set F.Cam.CCI_STATUS_BUSY pg 0
      idle (s2.updLink l (fun x => { x with direct := none }))
    | none => s
  else s)

/-- CCI_CTRL.GO (R354, Table 10-7). -/
def cciDirect (l : Nat) (rd : Bool) (s : State) : State :=
  let pg := pgCam l
  if s.on F.Cam.CCI_STATUS_BUSY pg then s
  else
    let op := (rd, s.get F.Cam.CCI_DIRECT_DEV pg, s.get F.Cam.CCI_DIRECT_REG pg, s.get F.Cam.CCI_DIRECT_DATA pg)
    cciGo l ((((s.set F.Cam.CCI_STATUS_BUSY pg 1).set F.Cam.DONE pg 0).set F.Cam.NACK pg 0).updLink l (fun x => { x with
      direct := some op }))

/-- CCI_DIRECT_WRITE (R354). -/
def execCciDirectWrite (l owner : Nat) (s : State) : Out :=
  .next (if l < 3 then gateReg (pgCam l) 0x68 1 owner (cciDirect l false) s else s)

/-- CCI_DIRECT_READ (R354). -/
def execCciDirectRead (l owner : Nat) (s : State) : Out :=
  .next (if l < 3 then gateReg (pgCam l) 0x68 3 owner (cciDirect l true) s else s)

/-- The fields that are views of line assembly, and the lanes in HS, which no command carries (Table 10-7, log 115). -/
def State.viewCam (s : State) (f : Fld) (l v : Nat) : Option Nat :=
  match streamAt l v with
  | none => none
  | some st =>
    let x := s.slotX st
    if f == F.Cam.FRAME_OPEN then some (bit x.frame.isSome)
    else if f == F.Cam.MISALIGNED then some (bit x.misaligned)
    else if f == F.Cam.TAG_LEVEL then some x.tags.length
    else if f == F.Cam.LINE_IN_FRAME then some ((x.frame.map (·.lines)).getD 0)
    else if f == F.Cam.HS_ACTIVE ∧ l < 2 ∧ s.linkOn l then some (low 5 (Config.linesNow (pgCam l) s.now))
    else none

end Sys2Proof.Machine
end

