-- ==== Sys2Proof/Machine/Clock.lean ====
section
/-! DEFINITION. Local time, the epoch log, time triggers and captures (R466 to R469, R478 to R481). -/

namespace Sys2Proof.Machine

def pgTrig : Nat := 0x094
def State.updPtp (s : State) (f : PtpX → PtpX) : State := { s with ptp := f s.ptp }

/-! ### Local time (R467) -/

/-- RATE. -/
def State.rate (s : State) : Nat := s.get2 F.Ptp.RATE_LO F.Ptp.RATE_HI pgPtp 0

/-- RATE_MIN and RATE_MAX (R467). -/
def rateMin : Nat := (1999 * 2 ^ 40 + 999) / 1000
def rateMax : Nat := 2001 * 2 ^ 40 / 1000

/-- T of a count, in 2^-40 ns. -/
def State.timeOf (s : State) (count : Nat) : Nat :=
  ((s.ptp.epochT : Int) + ((count : Int) - s.ptp.epochC) * s.rate).toNat

/-- T now. -/
def State.timeNow (s : State) : Nat := s.timeOf s.counter

/-- A change of EPOCH: its log entry, and EPOCH_SEQ advances (R469). -/
def setEpoch (c t rate : Nat) (step : Bool) (s : State) : State :=
  let s1 := s.set2 F.Ptp.RATE_LO F.Ptp.RATE_HI pgPtp 0 rate
  (s1.updPtp (fun x => { x with epochC := c, epochT := t, log := (⟨c, t, rate, step⟩ :: x.log).take 256 })).wrap
    F.Ptp.EPOCH_SEQ pgPtp

/-- RATE changed without a step in T (R467). -/
def setRate (rate : Nat) (s : State) : State :=
  if rate = s.rate then s else setEpoch s.counter (s.timeOf s.counter) rate false s

/-- ns in a second. -/
def nsPerSec : Nat := 1000000000

/-- Whole seconds (48 bits) and ns of a time in 2^-40 ns. -/
def secNs (t : Nat) : Nat × Nat := (low 48 (t / 2 ^ 40 / nsPerSec), t / 2 ^ 40 % nsPerSec)

/-- The bytes of a log entry (Table 14-5). -/
def Epoch.bytes (e : Epoch) : List Byte :=
  leBytes 8 e.c ++ leBytes 6 (secNs e.t).1 ++ leBytes 4 (secNs e.t).2 ++ leBytes 5 (e.t % 2 ^ 40) ++ leBytes 1 (bit e.step) ++
    leBytes 8 e.rate

/-- A word of the epoch log in the aperture of page 0x093. -/
def State.epochWord (s : State) (off : Nat) : Nat :=
  let age := (s.get F.Ptp.EPOCH_SEQ pgPtp + 256 - 1 - off / 32) % 256
  match s.ptp.log[age]? with
  | some e => leNat ((e.bytes.drop (off % 32 / 4 * 4)).take 4)
  | none => 0

/-- The entry that converts a count: the largest EPOCH_C not exceeding it. -/
def State.epochFor (s : State) (count : Nat) : Option Epoch :=
  s.ptp.log.foldl (fun a e => if e.c ≤ count then
      (match a with
        | some b => if b.c < e.c then some e else a
        | none => some e)
    else a) none

/-- Both words of CONV_COUNT hold a count: its time (R469). -/
def convert (count : Nat) (s : State) : State :=
  match s.epochFor count with
  | some e =>
    let r := secNs (e.t + (count - e.c) * e.rate)
    ((s.set2 F.Ptp.CONV_SEC_LO F.Ptp.CONV_SEC_HI pgPtp 0 r.1).set F.Ptp.CONV_NS pgPtp r.2).set F.Ptp.CONV_VALID pgPtp 1
  | none =>
    let a := s.free
    let b := a.2.free
    ((b.2.set2 F.Ptp.CONV_SEC_LO F.Ptp.CONV_SEC_HI pgPtp 0 a.1).set F.Ptp.CONV_NS pgPtp b.1).set F.Ptp.CONV_VALID pgPtp 0

/-- CONV_COUNT_WRITE: the low word and then the high word of a count (R469). -/
def execConvCountWrite (count owner : Nat) (s : State) : Out :=
  .next (gateReg pgPtp 0x90 (low 32 count) owner (fun s =>
    gateReg pgPtp 0x94 (low 32 (count / 2 ^ 32)) owner (fun s =>
      let s1 := s.set2 F.Ptp.CONV_COUNT_LO F.Ptp.CONV_COUNT_HI pgPtp 0 (low 64 count)
      convert (low 64 count) s1) s) s)

/-- TIME_CAPTURE_READ: a requester reads COUNT_LO; the capture is kept for its next reads (R468). -/
def execTimeCaptureRead (owner : Nat) (s : State) : Out :=
  .next (if s.silent then s else { s with resp := .data (low 32 s.counter) }.updPtp (fun x => { x with
    caps := tput x.caps (agentOf owner) (s.counter, s.timeNow) }))

/-- What a requester's capture shows in COUNT_LO, COUNT_HI, TIME_SEC_LO, TIME_SEC_HI and TIME_NS (R468). -/
def State.capWords (s : State) (agent : Nat) : List Nat :=
  let c := tget s.ptp.caps agent (0, 0)
  let t := secNs c.2
  [low 32 c.1, c.1 / 2 ^ 32, low 32 t.1, t.1 / 2 ^ 32, t.2]

/-! ### Triggers (R478 to R480) -/

def State.trigOf (s : State) (k : Nat) : TrigX := tget s.trig k {}
def State.updTrig (s : State) (k : Nat) (f : TrigX → TrigX) : State := { s with trig := tput s.trig k (f (s.trigOf k)) }
def State.armed (s : State) (k : Nat) : Bool := bitAt (s.get F.Trig.TRIG_ARMED pgTrig) k
def setTrigArmed (k : Nat) (on : Bool) (s : State) : State :=
  let v := s.get F.Trig.TRIG_ARMED pgTrig
  s.set F.Trig.TRIG_ARMED pgTrig (if on then setBit v k else clearBit v k)

/-- PERIOD in 2^-40 ns. -/
def State.trigPeriod (s : State) (k : Nat) : Nat :=
  (s.getI F.Trig.PERIOD_NS pgTrig k * 65536 + s.getI F.Trig.PERIOD_FRAC pgTrig k) * 2 ^ 24

/-- Target j in 2^-40 ns. -/
def State.trigTarget (s : State) (k j : Nat) : Nat :=
  ((s.getI F.Trig.TARGET_SEC_HI pgTrig k * 2 ^ 32 + s.getI F.Trig.TARGET_SEC_LO pgTrig k) * nsPerSec +
    s.getI F.Trig.TARGET_NS pgTrig k) * 2 ^ 40 + j * s.trigPeriod k

/-- The firing of a trigger: its pulse starts 3 tsclk after the edge, and the fclk domain is told (R479). -/
def trigFire (k : Nat) (s : State) : State :=
  let s1 := if s.onI F.Trig.OUT_EN pgTrig k then
      s.updTrig k (fun x => { x with from_ := s.now + 6, to_ := s.now + 6 + 2 * s.getI F.Trig.WIDTH pgTrig k })
    else s
  let s2 := portsTrigger k s1
  if s.trigPeriod k = 0 then setTrigArmed k false s2 else s2.updTrig k (fun x => { x with j := x.j + 1 })

/-- TRIG_OUT_k is active (R479). -/
def State.trigOut (s : State) (k : Nat) : Bool :=
  decide ((s.trigOf k).from_ ≤ s.now) && decide (s.now < (s.trigOf k).to_)

/-- PTP.TRIGGER_LATE. -/
def trigLate (k skipped : Nat) (s : State) : State :=
  s.raise Ev.ptpTriggerLate pgTrig (arg64 skipped (s.getI F.Trig.LATE_POLICY pgTrig k * 256 + k))

/-- A trigger armed at its first target, which may be late (R478). -/
def trigArm (k : Nat) (s : State) : State :=
  let s1 := s.updTrig k (fun x => { x with j := 0 })
  if s.trigTarget k 0 ≤ s.timeNow then
    let s2 := trigLate k 0 s1
    if s.onI F.Trig.LATE_POLICY pgTrig k then trigFire k (setTrigArmed k true s2) else setTrigArmed k false s2
  else setTrigArmed k true s1

/-- Words written to TRIG_ARM and TRIG_DISARM (R478, R487). -/
def trigArmAll (mask : Nat) (s : State) : State := forAll ((List.range 8).filter (bitAt mask)) s trigArm
def trigDisarmAll (mask : Nat) (s : State) : State :=
  forAll ((List.range 8).filter (bitAt mask)) s (fun k s => setTrigArmed k false s)

/-- TRIG_ARM (R478). -/
def execTrigArm (mask owner : Nat) (s : State) : Out := .next (gateReg pgTrig 0x40 mask owner (trigArmAll mask) s)

/-- TRIG_DISARM (R487). -/
def execTrigDisarm (mask owner : Nat) (s : State) : Out := .next (gateReg pgTrig 0x44 mask owner (trigDisarmAll mask) s)

/-- TRIGGER_FIRE: the first tsclk edge at which T has reached the target of an armed trigger (R478). -/
def execTriggerFire (k : Nat) (s : State) : Out :=
  .next (if k < 8 ∧ s.armed k ∧ s.trigTarget k (s.trigOf k).j ≤ s.timeNow then trigFire k s else s)

/-- A step has carried T from `old` past the target of an armed trigger, which is late; a periodic one moves to its first
target ahead (R480). -/
def trigStep (old : Nat) (s : State) : State :=
  forAll ((List.range 8).filter s.armed) s (fun k s =>
    let x := s.trigOf k
    let t := s.timeNow
    let tgt := s.trigTarget k x.j
    if tgt ≤ old ∨ t < tgt then s
    else
      let per := s.trigPeriod k
      let n := if per = 0 then 1 else (t - tgt) / per + 1
      let fires := s.onI F.Trig.LATE_POLICY pgTrig k
      let skipped := if fires then n - 1 else n
      let s1 := trigLate k skipped (s.satI F.Trig.SKIPPED pgTrig k skipped)
      let s2 := if fires then trigFire k s1 else if per = 0 then setTrigArmed k false s1 else s1
      if per = 0 then s2 else s2.updTrig k (fun y => { y with j := x.j + n }))

/-! ### Captures (R481) -/

/-- TCAP_EDGE: an edge at TCAP_IN_c; the count is that of the first tsclk edge after it, less 2. -/
def execTcapEdge (c : Nat) (rising : Bool) (s : State) : Out :=
  let sel := s.getI F.Cap.EDGE pgTrig c
  let x := tget s.tcap c {}
  .next (if c < 4 ∧ s.ready pgTrig ∧ bitAt sel (if rising then 0 else 1) then
    if x.fifo.length < 16 then
      { s with tcap := tput s.tcap c { x with fifo := x.fifo ++ [(s.count, s.timeOf s.count / 2 ^ 40, rising)] } }
    else if x.told then s
    else { s with tcap := tput s.tcap c { x with told := true } }.raise Ev.ptpCaptureOverflow pgTrig c
  else s)

/-- A word written to CAP_POP (R481). -/
def capPop (mask : Nat) (s : State) : State :=
  forAll ((List.range 4).filter (bitAt mask)) s (fun c s =>
    let x := tget s.tcap c {}
    { s with tcap := tput s.tcap c { fifo := x.fifo.drop 1, told := x.told && decide (1 < x.fifo.length) } })

/-- CAP_POP (R481). -/
def execCapPop (mask owner : Nat) (s : State) : Out := .next (gateReg pgTrig 0x4C mask owner (capPop mask) s)

/-- Fields of page 0x094 that are computed: the oldest entry of a capture and its level. -/
def State.viewCap (s : State) (f : Fld) (c : Nat) : Option Nat :=
  let x := tget s.tcap c {}
  let h := x.fifo.head?.getD (0, 0, false)
  if f == F.Cap.HEAD_COUNT_LO then some (low 32 h.1)
  else if f == F.Cap.HEAD_COUNT_HI then some (h.1 / 2 ^ 32)
  else if f == F.Cap.HEAD_SEC_LO then some (low 32 (h.2.1 / nsPerSec))
  else if f == F.Cap.HEAD_SEC_HI then some (low 16 (h.2.1 / nsPerSec / 2 ^ 32))
  else if f == F.Cap.HEAD_NS then some (h.2.1 % nsPerSec)
  else if f == F.Cap.HEAD_RISING then some (bit h.2.2)
  else if f == F.Cap.CAP_LEVEL then some x.fifo.length
  else none

/-- A function reset of page 0x094 (R487). -/
def trigDiscard (s : State) : State := { s.set F.Trig.TRIG_ARMED pgTrig 0 with trig := [], tcap := [] }

end Sys2Proof.Machine
end

