-- ==== Sys2Proof/Machine/Encode.lean ====
section
/-! DEFINITION. What the deflate engines emit: the properties of a stream that R161 and R162 state, and the stream of a job. The
search that finds matches is not stated; it is `Config.deflate`. -/

namespace Sys2Proof.Machine

/-- Hash-chain length, and zlib FLEVEL, of a level (Table 4-8). -/
def chainLength (level : Nat) : Nat :=
  match level with
  | 8 => 1024
  | 9 => 4096
  | _ => 2 ^ (level + 1)

def flevel (level : Nat) : Nat :=
  match level with
  | 0 | 1 => 0
  | 2 | 3 | 4 => 1
  | 5 | 6 | 7 => 2
  | _ => 3

/-- The two runs of three bytes agree. -/
def sameThree (src : Array Byte) (a b : Nat) : Bool :=
  (List.range 3).all (fun k => decide (b + k < src.size) && src.getD (a + k) 0 == src.getD (b + k) 0)

/-- The earlier positions in the chain of a position: those with the same three bytes from `lo` on, newest first, as many as the
level searches and within the 32,768 bytes of history. DESIGN CHOICE: a chain joins all earlier positions (log 130). -/
def chain (src : Array Byte) (level lo p : Nat) : List Nat :=
  (((List.range (p - max lo (p - 32768))).map (fun k => p - 1 - k)).filter (fun q => sameThree src q p)).take (chainLength level)

/-- The restart position before a place: history does not reach behind it (R156). -/
def restartOf (slice p : Nat) : Nat := if slice = 0 then 0 else p / slice * slice

/-- A match is one that the level finds (R162). -/
def refOk (src : Array Byte) (level slice : Nat) (r : Nat × Nat × Nat) : Bool :=
  decide (3 ≤ r.2.1) && decide (r.2.1 ≤ 258) && (chain src level (restartOf slice r.1) r.1).contains (r.1 - r.2.2)

/-- A literal is one that the level emits: where a match is found, only to take a match one byte later, and only from level 4 on
(lazy matching, R162). A match does not run past the end of its slice. -/
def literalOk (src : Array Byte) (level slice p : Nat) : Bool :=
  let found := fun (q : Nat) => (slice == 0 || decide (q % slice + 3 ≤ slice)) && !(chain src level (restartOf slice q) q).isEmpty
  !found p || (decide (4 ≤ level) && found (p + 1))

/-- A block is one that R162 allows: at most 65,535 bytes, and coded only where that is not longer than storing it. -/
def blockOk (b : Blk) : Bool :=
  let n := b.n1 - b.n0
  decide (n ≤ 65535) && (b.type == 0 || decide (b.b1 - b.b0 ≤ 3 + (8 - (b.b0 + 3) % 8) % 8 + 32 + 8 * n))

/-- The positions that no match covers, up to `n`. -/
def literals (refs : List (Nat × Nat × Nat)) (blks : List Blk) (n : Nat) : List Nat :=
  (List.range n).filter (fun p => !refs.any (fun r => decide (r.1 ≤ p) && decide (p < r.1 + r.2.1)) &&
    blks.any (fun b => b.type != 0 && decide (b.n0 ≤ p) && decide (p < b.n1)))

/-- A stream without framing is what R161 and R162 describe: it conforms to RFC 1951 and gives back the source, its blocks,
matches and literals are those of the level, and with SLICE_LINES every slice but the last ends with a full flush (R156). -/
def streamConforms (src : List Byte) (level slice : Nat) (z : List Byte) : Bool :=
  let d0 : Dec := ⟨bytesBits z, 0, [], 0, 0, src.length, none, [], []⟩
  match (getBlocks none (8 * z.length + 1)).run d0 with
  | .ok true d =>
    let a := src.toArray
    decide (d.inp.length < 8) && d.out.reverse == src && d.blks.all blockOk && d.refs.all (refOk a level slice) &&
      (literals d.refs d.blks src.length).all (literalOk a level slice) &&
      (slice == 0 || (List.range ((src.length - 1) / slice)).all (fun k =>
        d.blks.any (fun b => b.type == 0 && b.n0 == (k + 1) * slice && b.n1 == b.n0)))
  | _ => false

/-- Stored blocks of at most 65,535 bytes; the last one is final where `last`. -/
def storedBlocks : Nat → Bool → List Byte → List Byte
  | 0, _, _ => []
  | fuel + 1, last, src =>
    let a := src.take 65535
    let rest := src.drop 65535
    let n := a.length
    let fin : Byte := if last && rest.isEmpty then 1 else 0
    let le := fun (v : Nat) => [BitVec.ofNat 8 v, BitVec.ofNat 8 (v / 256)]
    fin :: (le n ++ le (65535 - n) ++ a) ++ (if rest.isEmpty then [] else storedBlocks fuel last rest)

/-- The stream of stored blocks only, each slice but the last ended by a restart marker. -/
def storedStream (slice : Nat) : Nat → List Byte → List Byte
  | 0, _ => []
  | fuel + 1, src =>
    if slice = 0 ∨ src.length ≤ slice then storedBlocks (src.length + 1) true src
    else storedBlocks (slice + 1) false (src.take slice) ++ [0, 0, 0, 0xFF, 0xFF] ++ storedStream slice fuel (src.drop slice)

/-- The stream without framing: what the search gives, where that has the properties of R161 and R162. DESIGN CHOICE: else the
source in stored blocks, so that a stream is never one that the rules exclude (log 130). -/
def rawStream (src : List Byte) (level slices lineBytes : Nat) : List Byte :=
  let slice := slices * lineBytes
  let z := Config.deflate src level slices lineBytes
  if streamConforms src level slice z then z else storedStream slice (src.length + 1) src

/-- Four bytes of a number, most significant first. -/
def be4 (v : Nat) : List Byte := [24, 16, 8, 0].map (fun k => BitVec.ofNat 8 (v / 2 ^ k))

/-- Four bytes of a number, least significant first. -/
def le4 (v : Nat) : List Byte := (be4 v).reverse

/-- The stream in its framing: 0 raw, 1 zlib with CMF 0x78 and the level's FLEVEL, 2 gzip with MTIME 0, OS 255 and no optional
fields (R161); XFL is not given. -/
def framed (framing level : Nat) (src z : List Byte) : List Byte :=
  match framing with
  | 1 =>
    let flg := flevel level * 64
    [0x78, BitVec.ofNat 8 (flg + (31 - (0x78 * 256 + flg) % 31) % 31)] ++ z ++ be4 (adler32 src)
  | 2 => [0x1F, 0x8B, 8, 0, 0, 0, 0, 0, Config.gzipXfl level, 255] ++ z ++ le4 (crc32 src) ++ le4 src.length
  | _ => z

end Sys2Proof.Machine
end

