-- ==== Sys2Proof/Machine/Jobs.lean ====
section
/-! DEFINITION. The deflate engines and their job slots, page 0x061 (R161 to R166, R169, R170). -/

namespace Sys2Proof.Machine

/-- JOB_STATUS.STATE of a slot: 0 idle, 1 running, 2 done, 3 failed. -/
def State.jobState (s : State) (k : Nat) : Nat := s.getI F.Job.JOB_STATUS_STATE pgJob k


/-- Source and destination addresses, source length and destination space of a slot. -/
def State.jobSrc (s : State) (k : Nat) : Nat := s.get2 F.Job.SRC_ADDR_LO F.Job.SRC_ADDR_HI pgJob k
def State.jobDst (s : State) (k : Nat) : Nat := s.get2 F.Job.DST_ADDR_LO F.Job.DST_ADDR_HI pgJob k
def State.jobLen (s : State) (k : Nat) : Nat := s.getI F.Job.SRC_LEN pgJob k
def State.jobLimit (s : State) (k : Nat) : Nat := s.getI F.Job.DST_LIMIT pgJob k

/-- A job runs on an existing slot, and its reads do not wait for SDRAM (R124). -/
def State.jobRuns (s : State) (k : Nat) : Bool :=
  decide (k < 4) && s.jobState k == 1 && s.active pgJob && !s.sysHeld (s.jobSrc k) (s.jobLen k)

/-- The source holds a poisoned burst (R406). -/
def State.jobPoisoned (s : State) (k : Nat) : Bool := (s.sysPoison (s.jobSrc k) (s.jobLen k)).isSome

/-- The source of a job has been read. -/
def jobRead (k : Nat) (s : State) : State := sysRead 4 (s.jobSrc k) (s.jobLen k) s

/-- The configuration is refused at START (R170). -/
def State.jobInvalid (s : State) (k : Nat) : Bool :=
  let src := s.jobSrc k
  let dst := s.jobDst k
  let n := s.jobLen k
  let m := s.jobLimit k
  n == 0 || m == 0 || (s.getI F.Job.SLICE_LINES pgJob k != 0 && s.getI F.Job.LINE_BYTES pgJob k == 0) ||
    !s.inMemory src n || !s.inMemory dst m || overlap src n dst m || overlap dst m (roomBase + 0x1718000) 0x8E8000

/-- A job ends as failed; OUT_BYTES and IN_BYTES as given (R163, R165, R169, R170). -/
def jobEnd (k reason out inn : Nat) (s : State) : State :=
  ((((s.setI F.Job.JOB_STATUS_STATE pgJob k 3).setI F.Job.FAIL_REASON pgJob k reason).setI F.Job.OUT_BYTES pgJob k out).setI
    F.Job.IN_BYTES pgJob k inn)

/-- A job fails with CODEC.JOB_FAILED. -/
def jobFail (k reason out inn : Nat) (s : State) : State :=
  (jobEnd k reason out inn s).raise Ev.codecJobFailed pgJob (arg64 inn (reason * 256 + k))

/-- The original data of a job: its source, or what a repack job decodes from it (R163). -/
def State.jobData (s : State) (k : Nat) : List Byte :=
  let src := s.sysBytes (s.jobSrc k) (s.jobLen k)
  if s.onI F.Job.REPACK pgJob k then (decodeWhole src (s.getI F.Job.SRC_FRAMING pgJob k)).out else src

/-- The space with which a job never fails under R165: SRC_LEN, and 5 bytes for each 65,535 of it and for each slice of the data
that is encoded, and 18 (R166). DESIGN CHOICE: a job with SLICE_LINES 0 has no slice (log 131). -/
def State.jobBound (s : State) (k : Nat) : Nat :=
  let n := s.jobLen k
  let line := s.getI F.Job.SLICE_LINES pgJob k * s.getI F.Job.LINE_BYTES pgJob k
  let slices := if line = 0 then 0 else ((s.jobData k).length + line - 1) / line
  n + 5 * ((n + 65534) / 65535 + slices) + 18

/-- The stream of a job: the one that the search gives, or stored blocks where it would need more space than R166 allows. -/
def State.jobStream (s : State) (k : Nat) : List Byte :=
  let src := s.jobData k
  let level := s.getI F.Job.LEVEL_USED pgJob k
  let slices := s.getI F.Job.SLICE_LINES pgJob k
  let bytes := s.getI F.Job.LINE_BYTES pgJob k
  let z := framed (s.getI F.Job.FRAMING pgJob k) level src (rawStream src level slices bytes)
  if z.length ≤ s.jobBound k then z
  else framed (s.getI F.Job.FRAMING pgJob k) level src (storedStream (slices * bytes) (src.length + 1) src)

/-- The stream does not fit below DST_ADDR + DST_LIMIT, and R166 does not keep the job from failing (R165). -/
def State.jobOverflows (s : State) (k : Nat) : Bool :=
  decide (s.jobLimit k < (s.jobStream k).length) && decide (s.jobLimit k < s.jobBound k)

/-- The reason for which the source of a repack job fails, 0 for none (R163). -/
def State.sourceFault (s : State) (k : Nat) : Nat :=
  if s.onI F.Job.REPACK pgJob k then
    let d := decodeWhole (s.sysBytes (s.jobSrc k) (s.jobLen k)) (s.getI F.Job.SRC_FRAMING pgJob k)
    if d.reason ≠ 0 then 3 else if d.frameBad then 4 else 0
  else 0

/-- START on an idle slot (R164, R169, R170). -/
def jobStart (k : Nat) (s : State) : State :=
  if s.jobState k = 1 then s
  else if s.jobInvalid k then jobFail k 6 0 0 s
  else
    let lvl := s.getI F.Job.LEVEL pgJob k
    let used := if 2 ≤ s.get F.Thm.LEVEL_HUB 0x0A9 then min lvl (s.get F.Job.THROTTLE_LEVEL pgJob) else lvl
    (((((s.setI F.Job.JOB_STATUS_STATE pgJob k 1).setI F.Job.FAIL_REASON pgJob k 0).setI F.Job.OUT_BYTES pgJob k 0).setI
      F.Job.IN_BYTES pgJob k 0).setI F.Job.LEVEL_USED pgJob k used)

/-- ABORT of a running job (R169); how far it came is not stated. -/
def jobAbort (k : Nat) (s : State) : State :=
  if s.jobState k = 1 then
    let o := freeUpTo (s.jobLimit k) s
    let i := freeUpTo (s.jobLen k) o.2
    jobFail k 5 o.1 i.1 i.2
  else s

/-- JOB_START (R170). -/
def execJobStart (slot owner : Nat) (s : State) : Out :=
  .next (if slot < 4 then gateReg pgJob (0x11C + 0x40 * slot) 1 owner (jobStart slot) s else s)

/-- JOB_ABORT (R169). -/
def execJobAbort (slot owner : Nat) (s : State) : Out :=
  .next (if slot < 4 then gateReg pgJob (0x11C + 0x40 * slot) 2 owner (jobAbort slot) s else s)

/-- JOB_DONE: the whole stream fits and is written (R161, R162). DESIGN CHOICE: where DST_LIMIT meets R166 and the stream of R162
is longer all the same (many small slices of data that does not compress, or a repack job), the job does not fail, and what it
writes in the space is a free value (log 131). -/
def execJobDone (slot : Nat) (s : State) : Out :=
  .next (if s.jobRuns slot ∧ s.jobPoisoned slot = false ∧ s.sourceFault slot = 0 ∧ s.jobOverflows slot = false then
    let src := s.jobData slot
    let z := s.jobStream slot
    let out := if z.length ≤ s.jobLimit slot then z else (Config.tightStream src (s.jobLimit slot)).take (s.jobLimit slot)
    let s1 := sysWrite 4 (s.jobDst slot) out (jobRead slot s)
    let s2 := ((s1.setI F.Job.JOB_STATUS_STATE pgJob slot 2).setI F.Job.OUT_BYTES pgJob slot out.length).setI
      F.Job.IN_BYTES pgJob slot (s.jobLen slot)
    let s3 := (s2.setI F.Job.RESULT_CRC pgJob slot (crc32 src)).wrap F.Job.JOB_DONE_COUNT pgJob
    s3.raise Ev.codecJobDone pgJob (arg64 out.length slot)
  else s)

/-- OUT_FULL: the next symbol, block end or trailer does not fit; the destination contents are undefined (R165, R166). -/
def execOutFull (slot : Nat) (s : State) : Out :=
  .next (if s.jobRuns slot ∧ s.jobPoisoned slot = false ∧ s.sourceFault slot = 0 ∧ s.jobOverflows slot then
    let o := freeUpTo (s.jobLimit slot) (jobRead slot s)
    let i := freeUpTo (s.jobLen slot) o.2
    let bytes := (List.range o.1).map (fun k => BitVec.ofNat 8 (Config.freeNat (i.2.freeIx + k)))
    let s1 := sysWrite 4 (s.jobDst slot) bytes { i.2 with freeIx := i.2.freeIx + o.1 }
    (jobEnd slot 1 o.1 i.1 s1).raise Ev.codecOutFull pgJob (arg64 o.1 slot)
  else s)

/-- JOB_SOURCE_FAULT: a poisoned source read (reason 2), or the source of a repack job fails (R163, R406). -/
def execJobSourceFault (slot : Nat) (poisoned : Bool) (s : State) : Out :=
  .next (if s.jobRuns slot ∧ (poisoned ∨ s.jobPoisoned slot ∨ s.sourceFault slot ≠ 0) then
    let o := freeUpTo (s.jobLimit slot) (jobRead slot s)
    let i := freeUpTo (s.jobLen slot) o.2
    jobFail slot (if poisoned ∨ s.jobPoisoned slot then 2 else s.sourceFault slot) o.1 i.1 i.2
  else s)

/-- A function reset of page 0x061 ends every running job as failed (R169). -/
def jobDiscard (s : State) : State := forAll (List.range 4) s jobAbort

end Sys2Proof.Machine
end

