-- ==== Sys2Proof/Machine/ModeBase.lean ====
section
/-! DEFINITION. The present mode, transitions and Safe-Hold causes (R102, R103, R635, R538). Modes: 0 Dormant, 1 Bisque, 2 Idle,
3 Print, 4 Service, 5 Safe-Hold (Table 3-1). -/

namespace Sys2Proof.Machine

/-- MODE_STATE.MODE. -/
def State.modeNow (s : State) : Nat := s.get F.Mode.MODE pgMode

/-- MODE_STATE.TARGET_MODE. -/
def State.target (s : State) : Nat := s.get F.Mode.TARGET_MODE pgMode

/-- MODE_STATE.IN_TRANSITION. -/
def State.inTransition (s : State) : Bool := s.on F.Mode.IN_TRANSITION pgMode

/-- A transition begins. -/
def startTransition (dst : Nat) (s : State) : State :=
  (s.set F.Mode.IN_TRANSITION pgMode 1).set F.Mode.TARGET_MODE pgMode dst

/-- SAGGER_DEMAND: SAFE_STATE or PRESS_STOP_REQ is de-energised by a cause other than HOST_REQ.PRESS_STOP (R538). -/
def State.sagDemand (s : State) : Bool :=
  let trip := s.on F.Sag.ESTOP_TRIP 0x0A0 || s.on F.Sag.GUARD_TRIP 0x0A0 || s.on F.Sag.STOP_TEMP_TRIP 0x0A0
  s.on F.Sag.SAFE_STATE 0x0A0 ||
    (s.on F.Sag.PRESS_STOP_REQ 0x0A0 && (decide (s.get F.Sag.SAG_STATE_STATE 0x0A0 < 2) || trip))

/-- A rail or a drive rail is at fault (R558, R562). -/
def State.railFault (s : State) : Bool :=
  (List.range 16).any (fun k => s.onI F.Seq.FAULT 0x0AA k) || (List.range 12).any (fun c => s.onI F.Drv.FAULT 0x0AC c)

/-- The causes as they are now, Table 3-5. -/
def State.causesPresent (s : State) : Nat :=
  let hot := (List.range 4).any (fun ch => s.get F.Chan.BAND (0x080 + ch) == 2)
  let link := s.get F.Stk.LINK_TRAINED 0x086 != 3
  let therm := s.get F.Thm.LEVEL_HUB 0x0A9 == 3 || s.get F.Thm.LEVEL_R0 0x0A9 == 3 || s.get F.Thm.LEVEL_R1 0x0A9 == 3
  bit s.railFault * 64 + bit hot * 32 + bit link * 8 + bit therm * 4 + bit s.sagDemand * 2

/-- The part is on its way to Dormant by itself, after a thermal shutdown or a rail fault: a further cause stops the
transition in progress, and its own condition starts it again (R105, R106, R558). -/
def State.autoDormant (s : State) : Bool := s.mode.toDormant && (s.jrn.closing == some 2 || s.jrn.closing == some 3)

/-- A GO that was accepted in this cycle is refused for the cause that sets beside it (R104). -/
def refuseGo (s : State) : State :=
  match s.mode.goAt with
  | some (t, req) =>
    if t = s.now then
      (({ s with mode := { s.mode with goAt := none } }).set F.Mode.REFUSE_REASON pgMode 4).raise Ev.regModeRefused pgMode
        (req * 256 + 4)
    else s
  | none => s

/-- Entry to Dormant is abandoned; a CLOSE that the journal has written stays (R102, R566). -/
def leaveDormant (s : State) : State :=
  if s.autoDormant then s
  else { s with mode := { s.mode with toDormant := false }, jrn := { s.jrn with closing := none } }

/-- A Safe-Hold cause bit sets: any transition is abandoned and Safe-Hold entry begins, whatever the mode; in Dormant
nothing latches (R102, R635). In Safe-Hold the part stays there, unless it goes on to Dormant by itself. -/
def setCause (i : Nat) (s : State) : State :=
  if s.modeNow = 0 then s
  else
    let s1 := refuseGo ((s.set F.Mode.SAFE_HOLD_CAUSE pgMode (setBit (s.get F.Mode.SAFE_HOLD_CAUSE pgMode) i)).stamp
      (setKey F.Mode.SAFE_HOLD_CAUSE pgMode i) s.now)
    if s1.modeNow = 5 then
      if s1.inTransition ∧ s1.autoDormant = false then
        ((leaveDormant s1).set F.Mode.IN_TRANSITION pgMode 0).set F.Mode.TARGET_MODE pgMode 5
      else s1
    else if s1.inTransition ∧ s1.target = 5 then s1
    else startTransition 5 (leaveDormant s1)

end Sys2Proof.Machine
end

