-- ==== Sys2Proof/Machine/Sagger.lean ====
section
/-! DEFINITION. The Sagger and its host view, page 0x0A0 (R514 to R541). States: 0 SELFTEST, 1 SAFE, 2 STOPPED, 3 OPERATE. -/

namespace Sys2Proof.Machine

def pgSag : Nat := 0x0A0
def State.updSag (s : State) (f : SagX → SagX) : State := { s with sag := f s.sag }

/-- An event of the Sagger; in Dormant and while PORST_n is low no page takes it (R635). -/
def sagRaise (e : Ev) (arg : Nat) (s : State) : State := if s.modeNow = 0 ∨ s.mode.porst then s else s.raise e pgSag arg

/-- Word `i` of the parameter set in force. -/
def State.sagParam (s : State) (i : Nat) : Nat := s.getI F.Sag.PARAM_ACTIVE pgSag i

/-- SAG_STATE.STATE. -/
def State.sagState (s : State) : Nat := s.get F.Sag.SAG_STATE_STATE pgSag

/-- Channels in service. -/
def State.sagChannels (s : State) : List Nat := (List.range 3).filter (bitAt (s.get F.Sag.CHANNELS_OK pgSag))

/-- A voter energises: at least two channels in service request it (R517). -/
def State.voted (s : State) (ok : Nat → Bool) : Bool := decide (2 ≤ (s.sagChannels.filter ok).length)

/-- TRIPS as one word. -/
def State.sagTrips (s : State) : Nat :=
  let g := fun (f : Fld) => s.get f pgSag * 2 ^ f.lo
  g F.Sag.ESTOP_TRIP + g F.Sag.GUARD_TRIP + g F.Sag.CURE_TEMP_TRIP + g F.Sag.OV_TRIP + g F.Sag.STOP_TEMP_TRIP +
    g F.Sag.REPLICA_TRIP + g F.Sag.DRIVE_TEMP_TRIP

/-- A change of state (R521). -/
def setSagState (new cause : Nat) (s : State) : State :=
  let old := s.sagState
  let s1 := (s.set F.Sag.SAG_STATE_STATE pgSag new).set F.Sag.CAUSE pgSag cause
  let s2 := s1.set F.Sag.OPERATE pgSag (bit (new == 3))
  if old = new then s2 else sagRaise Ev.sagStateChange (cause * 256 + new * 16 + old) s2

/-! ### Outputs (R517 to R519, R538) -/

/-- The mode page demands drive off: in Dormant, Bisque and Safe-Hold, and from Safe-Hold entry on (R102, R519). -/
def State.driveDemand (s : State) : Bool := s.modeNow == 0 || s.modeNow == 1 || s.modeNow == 5 || s.mode.pathStopped

/-- DRIVE_EN_c is energised (Table 16-3). -/
def State.sagDrive (s : State) (c : Nat) : Bool :=
  s.voted (fun _ => true) && s.sagState == 3 && bitAt (s.sagParam 1) c && bitAt (s.get F.Sag.DRIVE_REQ pgSag) c && !s.driveDemand &&
    !bitAt (s.get F.Sag.DRIVE_TEMP_TRIP pgSag) c && !bitAt (s.get F.Sag.OV_TRIP pgSag) c &&
    !bitAt (s.get F.Sag.REPLICA_TRIP pgSag) (c / 6)

/-- CURE_EN_k is energised. -/
def State.sagCure (s : State) (k : Nat) : Bool :=
  s.voted (fun _ => true) && s.sagState == 3 && bitAt (s.sagParam 1) (16 + k) && bitAt (s.get F.Sag.CURE_REQ pgSag) k &&
    bitAt (s.get F.Sag.SPEED_OK pgSag) k && !bitAt (s.get F.Sag.CURE_TEMP_TRIP pgSag) k

/-- STATE is STOPPED or OPERATE, and two channels hold it so: SAFE_STATE is energised. -/
def State.sagSafe (s : State) : Bool := s.voted (fun _ => true) && decide (2 ≤ s.sagState)

/-- PRESS_STOP_REQ is energised. -/
def State.sagRun (s : State) : Bool :=
  s.sagSafe && !s.on F.Sag.ESTOP_TRIP pgSag && !s.on F.Sag.GUARD_TRIP pgSag && !s.on F.Sag.STOP_TEMP_TRIP pgSag &&
    !s.on F.Sag.PRESS_STOP pgSag

/-- SAGGER_DEMAND latches from READY on (R103, R538). -/
def sagLatch (s : State) : State :=
  if s.ready pgSag && s.sagDemand && !bitAt (s.get F.Mode.SAFE_HOLD_CAUSE pgMode) 1 then setCause 1 s else s

/-- The outputs follow their conditions; the host view shows them. -/
def sagOutputs (s : State) : State :=
  let mask := fun (n : Nat) (f : Nat → Bool) => (List.range n).foldl (fun a i => a + bit (f i) * 2 ^ i) 0
  let drive := mask 12 s.sagDrive
  let moved := (List.range 12).filter (fun c => bitAt drive c != bitAt (s.get F.Sag.DRIVE_EN pgSag) c)
  let s0 := { s with hk := { s.hk with driveAt := moved.foldl (fun t c => tput t c s.now) s.hk.driveAt } }
  let s1 := (s0.set F.Sag.DRIVE_EN pgSag drive).set F.Sag.CURE_EN pgSag (mask 2 s.sagCure)
  let s2 := (s1.set F.Sag.PRESS_STOP_REQ pgSag (bit (!s.sagRun))).set F.Sag.SAFE_STATE pgSag (bit (!s.sagSafe))
  sagLatch (s2.set F.Sag.DRIVE_DEMAND pgSag (bit s.driveDemand))

/-! ### Trips and diagnostics (R525, R531, R532) -/

/-- A safety function trips. -/
def sagTrip (fn : Nat) (s : State) : State := sagRaise Ev.sagTrip (s.sagTrips * 2 ^ 32 + fn) s

/-- Bits of a trip field latch; each new one counts, and a safety function raises its event. -/
def latchTrip (f : Fld) (mask fn : Nat) (s : State) : State :=
  let old := s.get f pgSag
  let new := (List.range 12).filter (fun i => bitAt mask i && !bitAt old i)
  if new.isEmpty then s
  else
    let s1 := (s.set f pgSag (new.foldl setBit old)).satI F.Sag.TRIP_COUNT pgSag 0 new.length
    if fn = 0 then s1 else sagTrip fn s1

/-- A diagnostic finding: row of Table 16-8 and input, cluster or channel. -/
def sagDiag (row n : Nat) (s : State) : State := sagRaise Ev.sagDiagFault (row * 256 + low 8 n) (s.sat F.Sag.DIAG_FAULTS pgSag)

/-- SAFE is entered. A fault of the hardware replaces cause 4, which a parameter write can leave. -/
def enterSafe (cause : Nat) (s : State) : State :=
  if s.sagState ≠ 1 then setSagState 1 cause s
  else if s.get F.Sag.CAUSE pgSag = 4 then s.set F.Sag.CAUSE pgSag cause
  else s

/-- A channel goes out of service; with the second one SF5 trips (R532). -/
def channelLost (ch row : Nat) (s : State) : State :=
  if ch < 3 ∧ bitAt (s.get F.Sag.CHANNELS_OK pgSag) ch then
    let s1 := sagDiag row ch (s.set F.Sag.CHANNELS_OK pgSag (clearBit (s.get F.Sag.CHANNELS_OK pgSag) ch))
    let s2 := sagRaise Ev.sagChannelLost (row * 256 + ch) s1
    if s2.sagChannels.length < 2 ∧ s2.sagState ≠ 1 then sagTrip 5 (enterSafe 2 s2) else if s2.sagChannels.length < 2 then enterSafe 2 s2
    else s2
  else s

/-- A finding of the cycle's diagnostics: row and what it names. Row 10 with 1 tells a period without disagreement. -/
def sagFinding (row n : Nat) (s : State) : State :=
  if row = 3 ∨ row = 4 then channelLost n row s
  else if row = 5 then
    let s1 := enterSafe 3 (sagDiag 5 n s)
    if s.sagState = 1 then s1 else sagTrip 5 s1
  else if row = 7 then enterSafe 6 (sagDiag 7 n s)
  else if row = 10 then
    if n = 1 then s.updSag (fun x => { x with wireBad := false })
    else if s.sag.wireBad then enterSafe 6 (sagDiag 10 0 s)
    else s.updSag (fun x => { x with wireBad := true })
  else s

/-- Output balls whose readback differs from their voter in this cycle: twice running is a fault. -/
def sagReadback (balls : List Nat) (s : State) : State :=
  let again := balls.filter (fun b => s.sag.readBad.contains b)
  let s1 := s.updSag (fun x => { x with readBad := balls })
  match again with
  | [] => s1
  | b :: _ => enterSafe 5 (sagDiag 6 b s1)

/-! ### The cycle (R516, R522, R523, R526 to R530) -/

/-- Contacts that a channel counts as open (R529). -/
def SagSample.opened (x : SagSample) : Nat := (List.range 4).foldl (fun a j => a + bit (decide (50000 ≤ x.low.getD j 0)) * 2 ^ j) 0

/-- Contacts that fail the test pulse, where TP_EN is 1. -/
def SagSample.failed (x : SagSample) (s : State) : Nat := if bitAt (s.sagParam 1) 28 then x.pulse % 16 else 0

/-- The channel that differs from two others that agree. -/
def oddOne (v : Nat → Nat × Nat) : Option Nat :=
  (List.range 3).find? (fun i => v i != v ((i + 1) % 3) && v ((i + 1) % 3) == v ((i + 2) % 3))

/-- Cross-compare: one channel that differs in three consecutive cycles goes out of service (Table 16-8, row 1). -/
def crossCompare (v : Nat → Nat × Nat) (s : State) : State :=
  if s.sagChannels.length = 3 then
    match oddOne v with
    | some i =>
      let n := tget s.sag.differ i 0 + 1
      let s1 := s.updSag (fun x => { x with differ := [(i, n)] })
      if 3 ≤ n then channelLost i 1 s1 else s1
    | none => s.updSag (fun x => { x with differ := [] })
  else s

/-- Emergency stop (`k` 0) or guard (1) as the channels have voted: open and failing contacts of the pair (SF4, R529). -/
def sagPair (k open_ fail : Nat) (s : State) : State :=
  let o := bits open_ (2 * k) 2
  let f := bits fail (2 * k) 2
  if !bitAt (s.sagParam 1) (12 + k) then s.updSag (fun x => { x with present := clearBit x.present k })
  else
    let s1 := forAll ((List.range 2).filter (bitAt f)) s (fun j => sagDiag 9 (2 * k + j))
    let fld := if k = 0 then F.Sag.ESTOP_TRIP else F.Sag.GUARD_TRIP
    if o = 0 ∧ f = 0 then s1.updSag (fun x => { x with present := clearBit x.present k })
    else
      let fresh := !s1.on fld pgSag
      let s2 := s1.updSag (fun x => { x with
        present := setBit x.present k
        both := if o = 3 then setBit x.both k else if fresh then clearBit x.both k else x.both })
      let s3 := if s2.sagState = 3 then setSagState 2 (0x11 + k) s2 else s2
      latchTrip fld 1 4 s3

/-- The safe encoder (SF2, R527). -/
def sagSpeed (encs : List Nat) (bothOk : Bool) (s : State) : State :=
  let sorted := encs.mergeSort
  let med := sorted.getD ((sorted.length - 1) / 2) 0
  let s1 := s.set F.Sag.SPEED pgSag (min med 65535)
  let s2 := if bothOk then s1 else s1.set F.Sag.SENC_FAULT pgSag 1
  forAll [0, 1] s2 (fun k s =>
    let w := s.sagParam (2 + k)
    let old := s.get F.Sag.SPEED_OK pgSag
    if s.on F.Sag.SENC_FAULT pgSag || decide (med < w % 65536) then
      let s1 := s.set F.Sag.SPEED_OK pgSag (clearBit old k)
      if bitAt old k then sagTrip 2 s1 else s1
    else if w / 65536 ≤ med then s.set F.Sag.SPEED_OK pgSag (setBit old k)
    else s)

/-- A replica mismatch reaches the channels (R530). -/
def sagReplica (s : State) : State :=
  let d := s.sag.disagree
  if d = 0 then s
  else
    let s1 := (s.updSag (fun x => { x with disagree := 0 })).set F.Sag.REPLICA pgSag d
    if bitAt (s.sagParam 1) 20 then latchTrip F.Sag.REPLICA_TRIP (d / 2) 0 s1 else s1

/-- ACTION of a temperature input. -/
def State.sagAction (s : State) (i : Nat) : Nat := s.sagParam (5 + 2 * i) % 2 ^ 15

/-- A cause of a latched trip is still present (R523). -/
def State.sagCausePresent (s : State) : Bool :=
  let x := s.sag
  let acts := ((List.range 16).filter (bitAt x.tempBad)).map s.sagAction
  let mine := s.get F.Sag.DRIVE_TEMP_TRIP pgSag + s.get F.Sag.CURE_TEMP_TRIP pgSag * 2 ^ 12 + s.get F.Sag.STOP_TEMP_TRIP pgSag * 2 ^ 14
  (s.on F.Sag.ESTOP_TRIP pgSag && bitAt x.present 0) || (s.on F.Sag.GUARD_TRIP pgSag && bitAt x.present 1) ||
    acts.any (fun a => (a &&& mine) != 0) || (x.ovHigh &&& s.get F.Sag.OV_TRIP pgSag) != 0 ||
    (List.range 4).any (fun ch => s.on F.Pos.MISMATCH (0x008 + ch) &&
      (s.get F.Pos.DISAGREE (0x008 + ch) / 2 &&& s.get F.Sag.REPLICA_TRIP pgSag) != 0)

/-- The lowest reason of R523 that refuses a RESET, 0 for none. -/
def State.resetReason (s : State) (sourceOk : Bool) : Nat :=
  if s.sagCausePresent then 1
  else if (s.on F.Sag.ESTOP_TRIP pgSag && !bitAt s.sag.both 0) || (s.on F.Sag.GUARD_TRIP pgSag && !bitAt s.sag.both 1) then 2
  else if !sourceOk then 3
  else 0

/-- A RESET at a cycle (R523, R527, R528). -/
def sagReset (sourceOk : Bool) (s : State) : State :=
  let r := s.resetReason sourceOk
  if r ≠ 0 then sagRaise Ev.sagRestartRefused (256 + r) s
  else
    let s1 := forAll [F.Sag.ESTOP_TRIP, F.Sag.GUARD_TRIP, F.Sag.CURE_TEMP_TRIP, F.Sag.OV_TRIP, F.Sag.STOP_TEMP_TRIP,
      F.Sag.REPLICA_TRIP, F.Sag.DRIVE_TEMP_TRIP, F.Sag.SENC_FAULT] s (fun f s => s.set f pgSag 0)
    s1.updSag (fun x => { x with both := 0, ovA := 0, ovB := 0 })

/-- Every contact of the enabled inputs of SF4 is closed. -/
def State.sagClosed (s : State) : Bool :=
  (List.range 2).all (fun k => !bitAt (s.sagParam 1) (12 + k) || bits s.sag.openNow (2 * k) 2 == 0)

/-- A START at a cycle (R522). -/
def sagStart (s : State) : State :=
  if s.sagState = 3 then s
  else if s.sagState = 2 ∧ s.sagTrips = 0 ∧ s.sagClosed then setSagState 3 (s.get F.Sag.CAUSE pgSag) s
  else sagRaise Ev.sagRestartRefused 1 s

/-- The requests of a cycle; a STOP wins over a START (Table 16-11). -/
def sagRequests (s : State) : State :=
  let x := s.sag
  let s0 := s.updSag (fun x => { x with start := false, stop := false, reset := none })
  let s1 := match x.reset with
    | some ok => sagReset ok s0
    | none => s0
  if x.stop then (if s1.sagState = 3 then setSagState 2 0x10 s1 else s1)
  else if x.start then sagStart s1
  else s1

/-- SAGGER_CYCLE: one cycle of every channel in service. `chans` are the samples of channels 0 to 2; `senc` the levels of
SENC_B and SENC_A, `resetN` that of SAG_RESET_n; `ov` the clusters whose SAG_OV lies above its threshold; `readback` the output
balls that differ from their voters; `found` the other findings of Table 16-8, row and place. -/
def execSaggerCycle (chans : List SagSample) (senc : Nat) (resetN : Bool) (ov : Nat) (readback : List Nat)
    (found : List (Nat × Nat)) (s : State) : Out :=
  .next (if s.sag.up = 2 ∧ chans.length = 3 then
    let at_ := fun (i : Nat) => chans.getD i ⟨[], 0, 0, 0⟩
    let s1 := crossCompare (fun i => ((at_ i).opened, (at_ i).failed s)) s
    let s2 := sagReadback readback (forAll found s1 (fun f => sagFinding f.1 f.2))
    let vote := fun (g : SagSample → Nat) => (List.range 4).foldl (fun a j =>
      a + bit (!s2.voted (fun i => !bitAt (g (at_ i)) j)) * 2 ^ j) 0
    let open_ := vote SagSample.opened
    let fail := vote (fun x => x.failed s)
    let s3 := (s2.set F.Sag.CONTACTS pgSag (15 - open_ + senc % 4 * 16)).set F.Sag.RESET_N pgSag (bit resetN)
    let s4 := s3.updSag (fun x => { x with openNow := open_, ovHigh := low 12 ov })
    let s5 := sagPair 1 open_ fail (sagPair 0 open_ fail s4)
    let s6 := sagSpeed (s5.sagChannels.map (fun i => (at_ i).enc)) (s5.voted (fun i => decide ((at_ i).both ≤ 16))) s5
    sagOutputs (sagRequests (sagReplica s6))
  else s)

/-- A temperature input is beyond its limits (R526). -/
def State.sagHot (s : State) (i code : Nat) : Bool :=
  let a := s.sagParam (4 + 2 * i)
  let trip := bits (s.sagParam (5 + 2 * i)) 16 12
  bitAt a 31 && ((if bitAt a 30 then decide (trip < code) else decide (code < trip)) || decide (code < a % 4096) ||
    decide (bits a 16 12 < code))

/-- SAGGER_ADC_ROUND: the codes of the 16 inputs and of the 0.300 V and 1.200 V references (R526, SF1). -/
def execSaggerAdcRound (codes : List Nat) (ref300 ref1200 : Nat) (s : State) : Out :=
  .next (if s.sag.up ≠ 2 ∨ codes.length ≠ 16 then s
  else if 16 < natDist ref300 819 ∨ 16 < natDist ref1200 3276 then
    let s1 := sagDiag 8 0 (s.updSag (fun x => { x with adcBad := true }))
    if s.sag.adcBad then sagOutputs (enterSafe 6 s1) else s1
  else
    let s1 := forAll (List.range 8) s (fun j s =>
      (s.setI F.Sag.TEMP_CODE_EVEN pgSag j (codes.getD (2 * j) 0)).setI F.Sag.TEMP_CODE_ODD pgSag j (codes.getD (2 * j + 1) 0))
    let hot := (List.range 16).filter (fun i => s.sagHot i (low 12 (codes.getD i 0)))
    let act := (hot.filter (bitAt s.sag.tempBad)).foldl (fun a i => a ||| s.sagAction i) 0
    let s2 := s1.updSag (fun x => { x with adcBad := false, tempBad := hot.foldl setBit 0 })
    let s3 := latchTrip F.Sag.CURE_TEMP_TRIP (bits act 12 2) 1 (latchTrip F.Sag.DRIVE_TEMP_TRIP (act % 4096) 1 s2)
    sagOutputs (latchTrip F.Sag.STOP_TEMP_TRIP (bits act 14 1) 1 s3))

/-- OV_COMPARATOR_TRIP: comparator A, or B where `b`, of a cluster latches its pin off (SF3, R528). -/
def execOvComparatorTrip (c : Nat) (b : Bool) (s : State) : Out :=
  .next (if s.sag.up ≠ 0 ∧ c < 12 then
    let s1 := s.updSag (fun x => if b then { x with ovB := setBit x.ovB c, ovHigh := setBit x.ovHigh c }
      else { x with ovA := setBit x.ovA c, ovHigh := setBit x.ovHigh c })
    sagOutputs (latchTrip F.Sag.OV_TRIP (2 ^ c) 3 s1)
  else s)

/-- CHANNEL_WATCHDOG_TIMEOUT (Table 16-8, row 2). -/
def execChannelWatchdogTimeout (ch : Nat) (s : State) : Out :=
  .next (if s.sag.up = 2 then sagOutputs (channelLost ch 2 s) else s)

/-! ### Requests of the host (R522, R523, R537) -/

/-- A parameter set is rejected (R535). -/
def paramReject (reason : Nat) (s : State) : State :=
  sagRaise Ev.sagParamRejected (arg64 (s.getI F.Sag.PARAM_STAGE pgSag 63) reason)
    ((s.set F.Sag.PARAM_STATUS_STEP pgSag 0).set F.Sag.REASON pgSag reason)

/-- Any other write to the page between the steps ends a key sequence. -/
def keyBreak (s : State) : State :=
  let k := s.get F.Sag.PARAM_STATUS_STEP pgSag
  if k = 1 ∨ k = 2 then paramReject 1 s else s

/-- RESET_SOURCE. -/
def State.resetSource (s : State) : Nat := bits (s.sagParam 1) 24 2

/-- Whether a host RESET meets RESET_SOURCE. -/
def State.hostResetOk (s : State) : Bool :=
  s.resetSource == 0 || (s.resetSource == 2 && match s.sag.releasedAt with
    | some t => decide (s.now ≤ t + 1000000000)
    | none => false)

/-- One write of SAG_CMD. -/
def sagCmd (start stop reset : Bool) (s : State) : State :=
  (keyBreak s).updSag (fun x => { x with
    start := x.start || start, stop := x.stop || stop
    reset := if reset then some (s.hostResetOk || x.reset == some true) else x.reset })

/-- SAG_START (R522). -/
def execSagStart (owner : Nat) (s : State) : Out := .next (gateReg pgSag 0x80 1 owner (sagCmd true false false) s)

/-- SAG_STOP (R522); START may stand in the same write. -/
def execSagStop (start : Bool) (owner : Nat) (s : State) : Out :=
  .next (gateReg pgSag 0x80 (2 + bit start) owner (sagCmd start true false) s)

/-- SAG_RESET (R523). -/
def execSagReset (owner : Nat) (s : State) : Out := .next (gateReg pgSag 0x80 4 owner (sagCmd false false true) s)

/-- RESET_BUTTON_RELEASE: SAG_RESET_n rises after it has been low for `lowUs` µs (R523). -/
def execResetButtonRelease (lowUs : Nat) (s : State) : Out :=
  .next (if s.sag.up = 2 ∧ 50000 ≤ lowUs ∧ lowUs ≤ 3000000 then
    s.updSag (fun x => { x with
      releasedAt := some s.now, reset := if s.resetSource = 1 then some true else x.reset })
  else s)

/-! ### Parameters (R533 to R536, R539) -/

/-- The bits of a parameter word that are not reserved (Table 16-7). -/
def paramMask (i : Nat) : Nat :=
  if i = 1 then 0x13133FFF
  else if 4 ≤ i ∧ i < 36 then (if i % 2 = 0 then 0xCFFF0FFF else 0x0FFF7FFF)
  else if 36 ≤ i ∧ i < 48 then 0x3FF
  else if 48 ≤ i ∧ i < 63 then 0
  else 0xFFFFFFFF

/-- A parameter set is invalid (R534). -/
def paramInvalid (w : Nat → Nat) : Bool :=
  let cfg := w 1
  (List.range 64).any (fun i => (w i &&& paramMask i) != w i) || bits cfg 24 2 == 3 || !bitAt cfg 12 ||
    (List.range 16).any (fun i =>
      let a := w (4 + 2 * i)
      let trip := bits (w (5 + 2 * i)) 16 12
      bitAt a 31 && (decide (bits a 16 12 ≤ a % 4096) || decide (trip < a % 4096) || decide (bits a 16 12 < trip))) ||
    (List.range 2).any (fun k =>
      let v := w (2 + k)
      decide (v / 65536 < v % 65536) || (bitAt cfg (16 + k) && v / 65536 == 0)) ||
    (List.range 12).any (fun c => bitAt cfg c && w (36 + c) == 0)

/-- The 256 bytes of a set. -/
def paramBytes (w : Nat → Nat) : List Byte := (List.range 64).flatMap (fun i => leBytes 4 (w i))

/-- PARAM_CRC is right. -/
def paramCrcOk (w : Nat → Nat) : Bool := crc32 ((paramBytes w).take 252) == w 63

/-- A set taken into every channel. -/
def takeParams (w : Nat → Nat) (s : State) : State :=
  let s1 := forAll (List.range 64) s (fun i s => s.setI F.Sag.PARAM_ACTIVE pgSag i (w i))
  (s1.set F.Sag.ACTIVE_CRC pgSag (w 63)).set F.Sag.PARAMS_VALID pgSag 1

/-- Word `i` of bytes. -/
def wordAt (bs : List Byte) (i : Nat) : Nat := leNat ((bs.drop (4 * i)).take 4)

/-- A word written to PARAM_KEY (R535). -/
def paramKey (value : Nat) (s : State) : State :=
  let k := s.get F.Sag.PARAM_STATUS_STEP pgSag
  let v := low 32 value
  let step := fun (n : Nat) (s : State) => (s.set F.Sag.PARAM_STATUS_STEP pgSag n).updSag (fun x => { x with keyAt := s.now })
  if k = 0 then (if v = 0x5A6BC3D1 then step 1 s else s)
  else if k = 1 ∧ v = 0xA5943C2E ∧ s.now ≤ s.sag.keyAt + 100000 then step 2 s
  else keyBreak s

/-- PARAM_KEY_WRITE (R535). -/
def execParamKeyWrite (value owner : Nat) (s : State) : Out := .next (gateReg pgSag 0x8C value owner (paramKey value) s)

/-- PARAM_KEY_TIMEOUT (R535). -/
def execParamKeyTimeout (s : State) : Out := .next (if s.sag.keyAt + 100000 < s.now then keyBreak s else s)

/-- Outputs or state do not allow a set to be accepted (R535, reason 3). -/
def State.paramStateBad (s : State) : Bool :=
  let off := s.get F.Sag.DRIVE_EN pgSag == 0 && s.get F.Sag.CURE_EN pgSag == 0 && s.on F.Sag.PRESS_STOP_REQ pgSag
  !(s.sagState == 0 || (s.sagState == 1 && s.get F.Sag.CAUSE pgSag == 4) || (s.sagState == 2 && off))

/-- The staged set is judged; a good one goes to the journal. -/
def paramJudge (s : State) : State :=
  let w := fun i => s.getI F.Sag.PARAM_STAGE pgSag i
  let two := decide (2 ≤ s.sagChannels.length) || s.sag.up == 1
  if !paramCrcOk w || !two then paramReject 2 s
  else if s.paramStateBad then paramReject 3 s
  else if paramInvalid w then paramReject 4 s
  else if !s.journalOpen then paramReject 5 s
  else journalAsk ⟨2, 0, paramBytes w⟩ (s.set F.Sag.PARAM_STATUS_STEP pgSag 3)

/-- A 1 written to COMMIT of PARAM_CTRL (R535). -/
def paramCommit (s : State) : State :=
  let k := s.get F.Sag.PARAM_STATUS_STEP pgSag
  if k = 2 ∧ s.now ≤ s.sag.keyAt + 100000 then paramJudge s
  else if k = 3 then s
  else paramReject 1 s

/-- PARAM_COMMIT (R535). -/
def execParamCommit (owner : Nat) (s : State) : Out := .next (gateReg pgSag 0x90 1 owner paramCommit s)

/-- The set has been written to the journal: it is in force. -/
def paramDone (data : List Byte) (s : State) : State :=
  let w := wordAt data
  let s1 := (takeParams w s).set F.Sag.PARAM_STATUS_STEP pgSag 0
  let s2 := sagRaise Ev.sagParamAccepted (arg64 (w 0) (w 63)) s1
  sagOutputs (if s2.sagState = 1 ∧ s2.get F.Sag.CAUSE pgSag = 4 then setSagState 2 4 s2 else s2)

/-! ### Supply and self-test (R515, R524, R536) -/

/-- The parameter record of the retained store, where it is good. -/
def State.sagRecord (s : State) : Option (Nat → Nat) :=
  let area := if s.jrn.useB then s.jrn.b else s.jrn.a
  match (latest area).find? (fun o => o.type == 2 && o.key == 0) with
  | some o =>
    let w := wordAt o.data
    if o.data.length = 256 ∧ paramCrcOk w ∧ paramInvalid w = false then some w else none
  | none => none

/-- SELFTEST_END (R524, R536, R538). -/
def execSelftestEnd (passed : Bool) (s : State) : Out :=
  .next (if s.sag.up = 1 then
    let s1 := (s.updSag (fun x => { x with up := 2 })).set F.Sag.CHANNELS_OK pgSag 7
    let s2 := if !passed then setSagState 1 1 s1
      else match s1.sagRecord with
        | some w => setSagState 2 (s1.get F.Sag.CAUSE pgSag) (takeParams w s1)
        | none => setSagState 1 4 s1
    let s3 := sagOutputs s2
    sagLatch (if s3.modeNow = 0 ∨ s3.mode.porst then s3 else s3.set F.Hdr.READY pgSag 1)
  else s)

/-- The fields of the page that show the Sagger, which a reset of the rest of the part does not change (R515, R635). -/
def sagShown : List Fld := fieldsSag.filter (fun f => f.acc == .ro && f != F.Sag.PARAM_STATUS_STEP)

/-- VDD_SAG_OUT_OF_RANGE (R515): the Sagger is reset, and the locks that it holds break (R84). -/
def execVddSagOutOfRange (s : State) : Out :=
  let s1 := forAll sagShown (breakLocks 9 s) (fun f s => forAll (List.range f.cnt) s (fun i s => s.setI f pgSag i (f.rst pgSag i)))
  .next (sagLatch (s1.updSag (fun _ => { up := 0 })))

/-- SAGGER_POWER_ON: VDD_SAG has been in range for 1 ms; the self-test begins (R515, R538). -/
def execSaggerPowerOn (s : State) : Out :=
  .next (if s.sag.up = 0 then (s.updSag (fun _ => { up := 1 })).set F.Hdr.READY pgSag 0 else s)

/-- PORST_n falls: OPERATE ends (Table 16-11). -/
def sagPorst (s : State) : State := if s.sagState = 3 then sagOutputs (setSagState 2 0x13 s) else s

end Sys2Proof.Machine
end

