-- ==== Sys2Proof/Machine/Store.lean ====
section
/-! DEFINITION. The retained store, page 0x0B3: saving and restoring settings, the work of the journal, its closing and its
recovery (R111, R112, R563 to R568, R589, R599). -/

namespace Sys2Proof.Machine

/-! ### Settings (R111, R112, R589) -/

/-- Fields that are restored at Bisque and not by a function reset: Reset reads `ret`, After FUNC_RESET does not. -/
def retKept (pg : Nat) : List Fld :=
  if pg = 1 then [F.Colo.SYS_ADDR]
  else if pg = pgMode then
    [F.Mode.WAKE_DELAY, F.Mode.WAKE_TIMER_EN, F.Mode.WAKE_PIN_EN, F.Mode.AUTO_IDLE, F.Mode.BISQUE_LIMIT]
  else if pg = pgReady then [F.Rdy.REQUIRED]
  else if pg = 0x00C then
    [F.Div.N_IN_M1, F.Div.N_OUT_M1, F.Div.WIDTH, F.Div.POL, F.Div.SOURCE, F.Div.DIR_SWAP, F.Div.DIV_CFG_EN, F.Div.PHASE]
  else if pg = 0x00D then
    [F.Cmp.WIDTH, F.Cmp.OUT_SEL, F.Cmp.EVENT_EN, F.Cmp.SYNC_EN, F.Cmp.SYNC_DIV, F.Cmp.SRC, F.Cmp.DIR, F.Cmp.CHANNEL,
      F.Cmp.LATE_POLICY, F.Cmp.CMP_PERIOD]
  else if pg = pgTap then [F.Tap.TAP_CFG_EN]
  else if pg = pgTdc then [F.Tdc.REF_TEMP]
  else []

/-- The `ret` fields of a page, in the order of its tables. -/
def retFields (pg : Nat) : List Fld := (bodyFields pg).filter (fun f => f.fr == .ret || (retKept pg).contains f)

/-- The object that SAVE writes for a page: the active value of every instance of every `ret` field, four bytes each. -/
def State.retBytes (s : State) (pg : Nat) : List Byte :=
  (retFields pg).flatMap (fun f => (List.range f.cnt).flatMap (fun i => leBytes 4 (s.getI f pg i)))

/-- The instances of the `ret` fields of a page. -/
def retPlaces (pg : Nat) : List (Fld × Nat) := (retFields pg).flatMap (fun f => (List.range f.cnt).map (fun i => (f, i)))

/-- A `ret` field takes a value in both copies. -/
def putRet (pg : Nat) (f : Fld) (i v : Nat) (s : State) : State :=
  let s1 := s.setI f pg i v
  if f.cls = .s then s1.setShadow f pg i v else s1

/-- RESTORED of a page. -/
def setRestored (pg : Nat) (v : Bool) (s : State) : State :=
  let w := s.getI F.Rdy.RESTORED pgReady (pg / 32)
  s.setI F.Rdy.RESTORED pgReady (pg / 32) (if v then setBit w (pg % 32) else clearBit w (pg % 32))

/-- The `ret` fields of a page are loaded, or take their defaults (R111, R112). After a function reset only those whose After
FUNC_RESET column reads `ret` are. -/
def restorePage (pg : Nat) (s : State) : State :=
  let again := (s.bndOf pg).resetting
  let places := (retPlaces pg).zipIdx.filter (fun e => !again || e.1.1.fr == .ret)
  if (retFields pg).isEmpty then s
  else match s.stored 1 pg with
    | some data =>
      setRestored pg true (forAll places s (fun e s => putRet pg e.1.1 e.1.2 (leNat ((data.drop (4 * e.2)).take 4)) s))
    | none =>
      let s1 := setRestored pg false (forAll places s (fun e s => putRet pg e.1.1 e.1.2 (e.1.1.rst pg e.1.2) s))
      match s.tornRecord 1 pg with
      | some seq => s1.raise Ev.regRestoreFail pgReady (arg64 seq pg)
      | none => s1

/-! ### The journal at work (R564, R566) -/

/-- The object has been written whole. -/
def objDone (o : JObj) (s : State) : State :=
  if o.type = 1 then s.set F.Nor.SAVE_BUSY pgSto 0
  else if o.type = 2 then paramDone o.data s
  else if o.type = 3 then calDone o.key o.data s
  else s

/-- The object will not be written: reason 1 a program failed or no room, 2 discarded at the closing. -/
def objFail (reason : Nat) (o : JObj) (s : State) : State :=
  if o.type = 1 then (s.set F.Nor.SAVE_BUSY pgSto 0).raise Ev.bootSaveFail pgSto (reason * 256 + o.key)
  else if o.type = 2 then paramReject 5 s
  else if o.type = 3 ∧ bitAt s.cal.saving o.key then calFail 1 o.key s
  else s

/-- A record takes the next slot of the active area. -/
def appendSlot (x : JSlot) (seq : Nat) (s : State) : State := (setArea (s.area ++ [x]) s).set F.Nor.LAST_SEQ pgSto seq

/-- The record whose program has begun ends, good or torn; its object goes on, is done or fails. -/
def recordEnds (ok : Bool) (s : State) : State :=
  match s.jrn.prog with
  | none => s
  | some r =>
    let s1 := (appendSlot (if ok then .good r else .torn r) r.seq s).updJrn (fun j => { j with prog := none })
    match s1.jrn.cur with
    | none => s1
    | some (o, k) =>
      let s2 := s1.updJrn (fun j => { j with cur := none })
      if !ok then objFail 1 o s2
      else if r.last then objDone o s2
      else s1.updJrn (fun j => { j with cur := some (o, k + 1) })

/-- JOURNAL_RECORD_PROGRAMMED (R564). -/
def execJournalRecordProgrammed (ok : Bool) (s : State) : Out :=
  .next (if s.jrn.prog.isSome then journalNext (recordEnds ok s) else s)

/-- Records of an object from a sequence number up. -/
def JObj.slots (o : JObj) (seq : Nat) : List JSlot := (List.range o.count).map (fun k => .good (o.record (seq + k) k))

/-- The area after compaction: AREA_START, the latest complete objects, COMPACT_DONE; and the last SEQ (R564). -/
def compacted (gen seq : Nat) (objs : List JObj) : List JSlot × Nat :=
  let start : List JSlot := [.good ⟨seq + 1, 0x0E, 0, 0, true, leBytes 4 gen⟩]
  let copied := objs.foldl (fun (a : List JSlot × Nat) o => (a.1 ++ o.slots (a.2 + 1), a.2 + o.count)) (start, seq + 1)
  (copied.1 ++ [.good ⟨copied.2 + 1, 0x0D, 0, 0, true, [Config.compactByte]⟩], copied.2 + 1)

/-- The objects that compaction copies: every one but the marks of the areas themselves. -/
def State.toCopy (s : State) : List JObj := (latest s.area).reverse.filter (fun o => decide (o.type < 0x0D))

/-- JOURNAL_ERASE_DONE: the erased area becomes the active one; an object that still does not fit fails (R564). -/
def execJournalEraseDone (s : State) : Out :=
  .next (if s.jrn.erasing then
    let gen := (s.get F.Nor.GENERATION pgSto + 1) % 2 ^ 32
    let c := compacted gen (s.get F.Nor.LAST_SEQ pgSto) s.toCopy
    let s1 := (s.set F.Nor.ACTIVE_AREA pgSto (1 - s.get F.Nor.ACTIVE_AREA pgSto)).set F.Nor.GENERATION pgSto gen
    let s2 := (setArea c.1 (s1.set F.Nor.LAST_SEQ pgSto c.2)).updJrn (fun j => { j with erasing := false })
    match s2.jrn.queue with
    | o :: rest =>
      if s2.freeSlots < o.count + 10 then journalNext (objFail 1 o (s2.updJrn (fun j => { j with queue := rest })))
      else journalNext s2
    | [] => s2
  else s)

/-- JOURNAL_SAVE: a write of JOURNAL_CTRL with SAVE 1 (R589); it is ignored while SAVE_BUSY is 1. -/
def journalSave (pg : Nat) (s : State) : State :=
  let data := s.retBytes pg
  if s.on F.Nor.SAVE_BUSY pgSto ∨ data.isEmpty then s
  else if s.journalOpen then journalAsk ⟨1, pg, data⟩ (s.set F.Nor.SAVE_BUSY pgSto 1)
  else s.raise Ev.bootSaveFail pgSto (2 * 256 + pg)

/-- A word written to JOURNAL_CTRL with SAVE 1: SAVE_PAGE is stored with it. -/
def journalCtrl (pg : Nat) (s : State) : State := journalSave (low 8 pg) (s.set F.Nor.SAVE_PAGE pgSto pg)

/-- JOURNAL_SAVE: a write of JOURNAL_CTRL with SAVE = 1 (R589). -/
def execJournalSave (pg owner : Nat) (s : State) : Out :=
  .next (gateReg pgSto 0x50 (2 ^ 16 + low 8 pg) owner (journalCtrl pg) s)

/-! ### NOR bytes (R583, R588) -/

/-- First offset of journal area A, and bytes of an area (Table 18-4). -/
def areaBase : Nat := 0x1800000
def areaBytes : Nat := 0x300000

/-- The bytes of a written slot; a torn page reads as free bytes. -/
def JSlot.byte (x : JSlot) (i : Nat) : Byte :=
  match x with
  | .good r => r.bytes.getD i 0
  | .torn r => Config.norOver (r.bytes.getD i 0) 0xFF

/-- A byte of a journal area. -/
def areaByte (l : List JSlot) (off : Nat) : Byte :=
  match l[off / 256]? with
  | some x => x.byte (off % 256)
  | none => 0xFF

/-- A byte of the NOR. -/
def State.norByte (s : State) (a : Nat) : Byte :=
  if a < areaBase ∨ areaBase + 2 * areaBytes ≤ a then tget s.cpu.nor a 0xFF
  else if a < areaBase + areaBytes then areaByte s.jrn.a (a - areaBase)
  else areaByte s.jrn.b (a - areaBase - areaBytes)

/-- Bytes of the NOR. -/
def State.norBytes (s : State) (a n : Nat) : List Byte := (List.range n).map (fun i => s.norByte (a + i))

/-- Bytes become values that the spec does not give. -/
def norScramble (a n : Nat) (s : State) : State :=
  forAll (List.range n) s (fun i s =>
    let f := s.free
    { f.2 with cpu := { f.2.cpu with nor := tputD f.2.cpu.nor (a + i) (BitVec.ofNat 8 f.1) 0xFF } })

/-- OP of the host operation in progress: 1 read, 2 program, 3 erase; 0 none. -/
def State.norOp (s : State) : Nat := if s.get F.Nor.NOR_STATUS_STATE pgSto = 2 then (s.cpu.norJob.map (·.1)).getD 0 else 0

/-- First byte of the page, or of the sector, that a host operation acts on. -/
def State.norPage (s : State) : Nat := (s.cpu.norJob.map (·.2)).getD 0 / 256 * 256
def State.norSector (s : State) : Nat := (s.cpu.norJob.map (·.2)).getD 0 / 65536 * 65536

/-- A host program ends: erased bytes take the buffer's. -/
def norProgram (s : State) : State :=
  let a := s.norPage
  forAll (List.range 256) s (fun i s =>
    let old := s.norByte (a + i)
    let new : Byte := BitVec.ofNat 8 (s.apt pgSto (i / 4 * 4) / 256 ^ (i % 4))
    let v := if old = 0xFF then new else Config.norOver old new
    { s with cpu := { s.cpu with nor := tputD s.cpu.nor (a + i) v 0xFF } })

/-- A host operation ends (R588). -/
def norDone (s : State) : State :=
  let op := s.norOp
  let s1 := s.set F.Nor.NOR_STATUS_STATE pgSto 3
  if op = 1 then setAptBytes pgSto 0 (s.norBytes s.norPage 256) s1
  else if op = 2 then norProgram s1
  else if op = 3 then
    forAll (List.range 65536) s1 (fun i s => { s with cpu := { s.cpu with nor := tputD s.cpu.nor (s.norSector + i) 0xFF 0xFF } })
  else s

/-- The closing of the journal and a host operation: a program that has begun completes, an erase is abandoned, and what
waits is discarded (R566, R588). -/
def norStop (s : State) : State :=
  let st := s.get F.Nor.NOR_STATUS_STATE pgSto
  if s.norOp = 3 then norScramble s.norSector 65536 (s.set F.Nor.NOR_STATUS_STATE pgSto 0)
  else if st = 1 then s.set F.Nor.NOR_STATUS_STATE pgSto 0
  else s

/-! ### Closing and recovery (R566 to R568) -/

/-- The causes of a CLOSE: 1 host request, 2 thermal shutdown, 3 rail fault. Thermal shutdown wins (R569). -/
def worseCause (old : Option Nat) (new : Nat) : Nat :=
  match old with
  | some c => if c = 2 ∨ new = 2 then 2 else c
  | none => new

/-- The journal stops for a closing with a cause: what has not begun to program is discarded, an erase is abandoned. -/
def journalStop (cause : Nat) (s : State) : State :=
  if s.jrn.closed then s
  else
    let j := s.jrn
    let keep := j.cur.filter (fun c => j.prog.isSome && decide (c.2 + 1 = c.1.count))
    let lost := (if keep.isSome then [] else j.cur.toList.map (·.1)) ++ j.queue
    let s1 := s.updJrn (fun j => { j with
      queue := []
      cur := keep
      erasing := false
      closing := some (worseCause j.closing cause) })
    norStop (forAll lost s1 (objFail 2))

/-- The payload of CLOSE. -/
def State.closeBytes (s : State) (cause : Nat) : List Byte := leBytes 1 cause ++ leBytes 8 s.count

/-- The program in progress completes and CLOSE is written, in one of the last slots where no other is free (R564, R566). -/
def journalClose (cause : Nat) (s : State) : State :=
  let s1 := recordEnds true (if s.norOp = 2 then norDone s else s)
  let seq := s1.get F.Nor.LAST_SEQ pgSto + 1
  let s2 := if s1.ready pgSto ∧ 0 < s1.freeSlots then appendSlot (.good ⟨seq, 0x0F, 0, 0, true, s1.closeBytes cause⟩) seq s1 else s1
  s2.updJrn (fun j => { j with closed := true })

/-- The part goes to Dormant, for a cause: the journal closes, and the rails fall (R105, R557, R566). -/
def startDormant (cause : Nat) (s : State) : State :=
  journalStop cause { startTransition 0 s with mode := { s.mode with toDormant := true } }

/-- The store becomes READY at Bisque: the journal is recovered (R567, R568). -/
def storeReady (s : State) : State :=
  if (s.bndOf pgSto).resetting then s
  else
    let b := s.jrn.useB
    let s1 := s.set F.Nor.ACTIVE_AREA pgSto (bit b)
    let acc := accepted none s1.area
    let last := acc.getLast?
    let clean : Bool := match last with
      | some r => r.type == 0x0F
      | none => false
    let cause : Nat := match last with
      | some r => if r.type = 0x0F then leNat (r.data.take 1) else 0
      | none => 0
    let gen := (areaGen s1.area).getD 0
    let s2 := ((s1.set F.Nor.LAST_SEQ pgSto ((last.map (·.seq)).getD 0)).set F.Nor.GENERATION pgSto gen).set F.Nor.CLEAN pgSto (bit clean)
    (s2.set F.Nor.NOR_SIZE pgSto Config.norSize).raise Ev.pwrJournalRecovered pgSto
      (arg64 (s1.area.length - acc.length) (cause * 256 + bit clean))

/-- What a function reset of the store discards: requests and the host operation (R119). -/
def storeDiscard (s : State) : State :=
  let j := s.jrn
  let lost := (j.cur.toList.map (·.1) ++ j.queue).filter (fun o => o.type != 1)
  norStop (forAll lost (s.updJrn (fun j => { j with queue := [], cur := none, erasing := false })) (objFail 1))

/-- Power goes without a closing: a program that has begun is torn (R622, R623). -/
def storeTear (s : State) : State :=
  let s1 := match s.jrn.prog with
    | some r => setArea (s.area ++ [.torn r]) s
    | none => s
  let s2 := if s1.norOp = 2 then norScramble s1.norPage 256 s1 else if s1.norOp = 3 then norScramble s1.norSector 65536 s1 else s1
  s2.updJrn (fun j => { a := j.a, b := j.b })

/-- FREE_SLOTS is computed. -/
def State.viewSto (s : State) (f : Fld) : Option Nat := if f == F.Nor.FREE_SLOTS then some s.freeSlots else none

end Sys2Proof.Machine
end

