-- ==== Sys2Proof/Machine/Rails.lean ====
section
/-! DEFINITION. The rail sequencer, page 0x0AA, and the core regulator, page 0x0AB (R556 to R561, R566, R569, R572, R573).
SEQ_STATUS.STATE: 0 off, 1 up, 2 ON, 3 down, 4 fault. -/

namespace Sys2Proof.Machine

def pgSeq : Nat := 0x0AA
def pgCore : Nat := 0x0AB
def State.updRail (s : State) (f : RailX → RailX) : State := { s with rail := f s.rail }

/-- SEQ_STATUS. -/
def State.seqState (s : State) : Nat := s.get F.Seq.SEQ_STATUS_STATE pgSeq
def State.seqStep (s : State) : Nat := s.get F.Seq.SEQ_STATUS_STEP pgSeq
def setSeq (state step : Nat) (s : State) : State :=
  (s.set F.Seq.SEQ_STATUS_STATE pgSeq state).set F.Seq.SEQ_STATUS_STEP pgSeq step

/-- A field of rail `k`. -/
def State.railGet (s : State) (f : Fld) (k : Nat) : Nat := s.getI f pgSeq k
def State.railOn (s : State) (f : Fld) (k : Nat) : Bool := s.getI f pgSeq k == 1

/-- The rails of a step. -/
def State.stepRails (s : State) (step : Nat) : List Nat :=
  (List.range 16).filter (fun k => s.railOn F.Seq.RAIL_EN k && s.railGet F.Seq.RAIL_STEP k == step)

/-- The rails of a step that are on. -/
def State.onRails (s : State) (step : Nat) : List Nat := (s.stepRails step).filter (s.railOn F.Seq.ON)

/-- The rail is read over PMBus. -/
def State.railPmbus (s : State) (k : Nat) : Bool := s.railGet F.Seq.RAIL_CTRL k == 1 || s.railGet F.Seq.RAIL_CTRL k == 2

/-- The reading of a rail: READ_VOUT, else the VALUE of HK_CH, else the regulator's VOUT; none where it has none (R556).
`readings` holds rail and mV of what was read now. -/
def State.reading (s : State) (readings : List (Nat × Nat)) (k : Nat) : Option Nat :=
  let ch := s.railGet F.Seq.HK_CH k
  if s.railPmbus k then (readings.find? (fun r => r.1 == k)).map (·.2)
  else if ch ≠ 0xFF then
    if ch < 64 ∧ s.onI F.Hk.HK_VALUE_VALID 0x0A8 ch then some (sext 16 (s.getI F.Hk.VALUE 0x0A8 ch)).toNat else none
  else if s.railGet F.Seq.RAIL_CTRL k = 3 then (readings.find? (fun r => r.1 == k)).map (·.2)
  else none

/-- A rail that has a reading at all. -/
def State.hasReading (s : State) (k : Nat) : Bool :=
  s.railPmbus k || s.railGet F.Seq.HK_CH k != 0xFF || s.railGet F.Seq.RAIL_CTRL k == 3

/-- A reading lies in window: within NOM_MV × (1 ± UV/OV in 0.5 % units). -/
def State.inWindow (s : State) (k mv : Nat) : Bool :=
  let nom := s.railGet F.Seq.NOM_MV k
  decide (nom * 200 ≤ 200 * mv + nom * s.railGet F.Seq.UV k) && decide (200 * mv ≤ nom * (200 + s.railGet F.Seq.OV k))

/-- A reading is shown. -/
def showReading (k mv : Nat) (s : State) : State :=
  let s1 := (s.setI F.Seq.READ_MV pgSeq k mv).setI F.Seq.IN_WINDOW pgSeq k (bit (s.inWindow k mv))
  if s.railGet F.Seq.RAIL_CTRL k = 3 then s1.set F.Core.VOUT_MV pgCore mv else s1

/-- Every reading that is there is shown. -/
def showReadings (readings : List (Nat × Nat)) (s : State) : State :=
  forAll (List.range 16) s (fun k s => match s.reading readings k with
    | some mv => if s.railOn F.Seq.RAIL_EN k then showReading k mv s else s
    | none => s)

/-! ### Turning on and off (R556, R557) -/

/-- The phases that switch for a count: the lowest enabled ones (R561). -/
def State.phaseMask (s : State) (n : Nat) : Nat :=
  (((List.range 8).filter (bitAt (s.get F.Core.PHASE_EN pgCore))).take n).foldl setBit 0

/-- A rail is turned on. -/
def turnOn (k : Nat) (s : State) : State :=
  let s1 := (s.setI F.Seq.ON pgSeq k 1).updRail (fun x => { x with turned := tput x.turned k s.now })
  if s.railGet F.Seq.RAIL_CTRL k = 3 then
    (s1.set F.Core.PHASES pgCore (s1.phaseMask (if s1.on F.Core.SHED_EN pgCore then 2 else 8))).updRail (fun x => { x with
      coreStopped := false })
  else s1

/-- A rail is turned off. -/
def turnOff (k : Nat) (s : State) : State :=
  let s1 := ((s.setI F.Seq.ON pgSeq k 0).setI F.Seq.IN_WINDOW pgSeq k 0).updRail (fun x => { x with
    turned := tput x.turned k s.now
    out := tputD x.out k 0 0 })
  if s.railGet F.Seq.RAIL_CTRL k = 3 then s1.set F.Core.PHASES pgCore 0 else s1

/-- The level of ball RAIL_EN_j. -/
def State.railPin (s : State) (j : Nat) : Bool :=
  !s.mode.porst && (List.range 16).any (fun k => s.railOn F.Seq.ON k &&
    (s.railGet F.Seq.RAIL_CTRL k == 0 || s.railGet F.Seq.RAIL_CTRL k == 2) && s.railGet F.Seq.RAIL_EN_PIN k == j)

/-- Steps from `a` up that have rails. -/
def State.stepsFrom (s : State) (a : Nat) : List Nat := (List.range 16).filter (fun t => decide (a ≤ t) && !(s.stepRails t).isEmpty)

/-- The ramp takes the next step from `a` up that has rails; with none left it is done. -/
def rampFrom (a : Nat) (s : State) : State :=
  let s0 := s.updRail (fun x => { x with okAt := none })
  match s.stepsFrom a with
  | t :: _ => forAll (s.stepRails t) (setSeq 1 t s0) turnOn
  | [] => (setSeq 2 (a - 1) s0).raise Ev.pwrSeqDone pgSeq (a - 1)

/-- Rails go down: the highest step at or below `a` that has rails on is turned off; with none left the sequence ends. -/
def fallFrom (a : Nat) (s : State) : State :=
  let steps := ((List.range 16).filter (fun t => decide (t ≤ a) && !(s.onRails t).isEmpty)).reverse
  match steps with
  | t :: _ => forAll (s.onRails t) (setSeq 3 t s) turnOff
  | [] => setSeq (if s.rail.why = 2 then 4 else 0) (s.seqStep) s

/-- The rails go down, for a reason: 1 Dormant, 2 a fault at power-up, 3 thermal shutdown. -/
def startFall (why : Nat) (s : State) : State := fallFrom 15 (s.updRail (fun x => { x with why := why, okAt := none }))

/-- Whether the step that is going down is over: every rail below 10 % of NOM_MV or beyond FALL_MS; after a thermal shutdown
100 µs (R557, R566). -/
def State.fallOver (s : State) (readings : List (Nat × Nat)) (k : Nat) : Bool × Bool :=
  let at_ := tget s.rail.turned k 0
  let low : Bool := match s.reading readings k with
    | some mv => decide (10 * mv < s.railGet F.Seq.NOM_MV k)
    | none => false
  let late := decide (at_ + s.railGet F.Seq.FALL_MS k * 1000000 ≤ s.now)
  if s.rail.why = 3 then (decide (at_ + 100000 ≤ s.now), false) else (low || late, late && !low && s.hasReading k)

/-- PWR.RAIL_FAULT. -/
def railEvent (k kind : Nat) (s : State) : State :=
  s.raise Ev.pwrRailFault pgSeq (s.railGet F.Seq.READ_MV k * 2 ^ 16 + kind * 2 ^ 8 + k)

/-- A rail is at fault (R558). With FAULT_DORMANT a fault while on takes the part to Dormant once Safe-Hold is entered. -/
def railFails (k kind : Nat) (s : State) : State :=
  if s.railOn F.Seq.FAULT k then s
  else
    let s1 := setCause 6 (railEvent k kind (s.setI F.Seq.FAULT pgSeq k 1))
    if s1.seqState = 2 ∧ s1.on F.Seq.FAULT_DORMANT pgSeq then
      if s1.modeNow = 5 ∧ s1.mode.toDormant = false then startDormant 3 s1
      else s1.updRail (fun x => { x with dormant := true })
    else s1

/-- A poll of a rail that is on: two consecutive readings out of window are a fault (R558). -/
def pollRail (k mv : Nat) (s : State) : State :=
  let s1 := (showReading k mv s).updRail (fun x => { x with retry := x.retry.filter (fun r => r.1 != k) })
  if s1.seqState ≠ 2 ∨ s1.railOn F.Seq.ON k = false then s1
  else if s1.inWindow k mv then s1.updRail (fun x => { x with out := tputD x.out k 0 0 })
  else
    let n := tget s1.rail.out k 0 + 1
    let s2 := s1.updRail (fun x => { x with out := tputD x.out k n 0 })
    if 2 ≤ n then railFails k 2 s2 else s2

/-- The rails that are polled at a housekeeping round. -/
def pollRound (s : State) : State :=
  forAll (List.range 16) s (fun k s =>
    if s.railOn F.Seq.RAIL_EN k && !s.railPmbus k && s.railGet F.Seq.HK_CH k != 0xFF then
      match s.reading [] k with
      | some mv => pollRail k mv s
      | none => s
    else s)

/-! ### Commands of the sequencer -/

/-- A rail of the step in progress counts as in window. -/
def State.railUp (s : State) (k : Nat) : Bool :=
  if s.hasReading k then s.railOn F.Seq.IN_WINDOW k
  else decide (tget s.rail.turned k 0 + s.railGet F.Seq.RISE_MS k * 1000000 ≤ s.now)

/-- RAIL_STEP_DONE: readings of the rails; once every rail of the step is in window and the largest DELAY_US has passed, the
next step is taken (R556). -/
def execRailStepDone (readings : List (Nat × Nat)) (s : State) : Out :=
  .next (if s.seqState = 1 ∧ s.jrn.closing.isNone then
    let step := s.seqStep
    let s1 := showReadings readings s
    if (s1.stepRails step).all s1.railUp then
      let t0 := s1.rail.okAt.getD s1.now
      let delay := (s1.stepRails step).foldl (fun a k => max a (s1.railGet F.Seq.DELAY_US k)) 0
      if t0 + delay * 1000 ≤ s1.now then rampFrom (step + 1) s1 else s1.updRail (fun x => { x with okAt := some t0 })
    else s1.updRail (fun x => { x with okAt := none })
  else s)

/-- RAIL_RISE_TIMEOUT: a rail is not in window RISE_MS after it was turned on (R558). -/
def execRailRiseTimeout (k : Nat) (s : State) : Out :=
  .next (if s.seqState = 1 ∧ k < 16 ∧ (s.onRails s.seqStep).contains k ∧ s.hasReading k ∧ s.railOn F.Seq.IN_WINDOW k = false ∧
      tget s.rail.turned k 0 + s.railGet F.Seq.RISE_MS k * 1000000 ≤ s.now then startFall 2 (railFails k 1 s)
  else s)

/-- RAIL_FALL_STEP: readings of the rails; the step that goes down is over, and the next one goes (R557, R566). -/
def execRailFallStep (readings : List (Nat × Nat)) (s : State) : Out :=
  .next (if s.seqState = 3 then
    let step := s.seqStep
    let s1 := forAll (s.stepRails step) s (fun k s => match s.reading readings k with
      | some mv => s.setI F.Seq.READ_MV pgSeq k mv
      | none => s)
    let ends := (s1.stepRails step).map (fun k => (k, s1.fallOver readings k))
    if ends.all (fun e => e.2.1) then
      fallFrom step (forAll (ends.filter (fun e => e.2.2)) s1 (fun e => railEvent e.1 3))
    else s1
  else s)

/-- PMBUS_POLL: rail, mV and output current in 10 mA of every rail that answered (R558, R559). -/
def execPmbusPoll (readings : List (Nat × Nat × Nat)) (s : State) : Out :=
  .next (if s.mode.porst = false ∧ s.modeNow ≠ 0 then
    forAll readings s (fun r s =>
      if r.1 < 16 ∧ s.railOn F.Seq.RAIL_EN r.1 ∧ s.railPmbus r.1 then pollRail r.1 r.2.1 (s.setI F.Seq.IOUT pgSeq r.1 r.2.2) else s)
  else s)

/-- PMBUS_TIMEOUT: a transaction times out, receives NACK or fails PEC; it is retried once (R559). -/
def execPmbusTimeout (k cmd : Nat) (s : State) : Out :=
  .next (if k < 16 ∧ s.railOn F.Seq.RAIL_EN k ∧ s.railPmbus k then
    if s.rail.retry.contains (k, cmd) then
      let s1 := (s.updRail (fun x => { x with retry := x.retry.filter (· != (k, cmd)) })).sat F.Seq.PMBUS_ERRORS pgSeq
      s1.raise Ev.pwrPmbusError pgSeq
        (arg64 (s1.get F.Seq.PMBUS_ERRORS pgSeq) (low 8 cmd * 256 + s1.railGet F.Seq.RAIL_ADDR k))
    else s.updRail (fun x => { x with retry := x.retry ++ [(k, cmd)] })
  else s)

/-- PMB_ALERT: STATUS_WORD of every PMBus rail is read (Table 17-5); rail and word. -/
def execPmbAlert (words : List (Nat × Nat)) (s : State) : Out :=
  .next (forAll words s (fun w s =>
    if w.1 < 16 ∧ s.railOn F.Seq.RAIL_EN w.1 ∧ s.railPmbus w.1 then
      s.updRail (fun x => { x with status := tput x.status w.1 (low 16 w.2) })
    else s))

/-- CLEAR_FAULT: a fault clears where its rail is back in window; `readings` is what is read now (R558, R569). -/
def clearFault (readings : List (Nat × Nat)) (s : State) : State :=
  forAll (List.range 16) (showReadings readings s) (fun k s =>
    if s.railOn F.Seq.FAULT k && s.railOn F.Seq.IN_WINDOW k && s.railOn F.Seq.ON k then
      (s.setI F.Seq.FAULT pgSeq k 0).updRail (fun x => { x with out := tputD x.out k 0 0 })
    else s)

/-- CLEAR_FAULT: a write of CLEAR_FAULT with the readings of the rails (R558, R572). -/
def execClearFault (readings : List (Nat × Nat)) (owner : Nat) (s : State) : Out :=
  .next (gateReg pgSeq 0x48 1 owner (clearFault readings) s)

/-- JOURNAL_CLOSE: the program in progress completes, CLOSE is written, and the rails go down (R557, R566). -/
def execJournalClose (s : State) : Out :=
  .next (match s.jrn.closing with
    | some cause =>
      if s.jrn.closed then s else startFall (if cause = 2 then 3 else 1) (journalClose cause s)
    | none => s)

/-! ### Core regulator (R560, R561) -/

/-- VDD_CORE is on and its regulator switches. -/
def State.coreRuns (s : State) : Bool := s.railOn F.Seq.ON 0 && !s.rail.coreStopped

/-- TARGET_MV at the end of a round (R560). -/
def avsUpdate (cold : Bool) (s : State) : State :=
  let v : Int := (s.get F.Core.AVS_FUSE pgCore : Int) + sext 8 (s.get F.Core.AVS_MARGIN pgCore) +
    (if cold then (s.get F.Core.COLD_ADD pgCore : Int) else 0)
  s.set F.Core.TARGET_MV pgCore (if s.on F.Core.AVS_EN pgCore then (clampI 700 800 v).toNat else 750)

/-- PWR.CORE_FAULT, which is a fault of rail 0. -/
def coreFault (kind value phase : Nat) (s : State) : State :=
  railFails 0 2 (s.raise Ev.pwrCoreFault pgCore (low 16 value * 2 ^ 16 + kind * 2 ^ 8 + phase))

/-- CORE_OVERCURRENT: a phase has been above PHASE_OC amperes for 10 switching cycles (R561). -/
def execCoreOvercurrent (phase amps : Nat) (s : State) : Out :=
  .next (if s.coreRuns ∧ phase < 8 ∧ bitAt (s.get F.Core.PHASES pgCore) phase ∧ s.get F.Core.PHASE_OC pgCore < amps then
    let s1 := (s.set F.Core.PHASES pgCore 0).updRail (fun x => { x with coreStopped := true })
    coreFault 1 (s.get F.Core.IOUT pgCore) phase (s1.setI F.Seq.IN_WINDOW pgSeq 0 0)
  else s)

/-- CORE_OUT_OF_WINDOW: VDD_CORE has been outside TARGET_MV ± 30 mV for 100 µs (R561). -/
def execCoreOutOfWindow (mv : Nat) (s : State) : Out :=
  .next (if s.railOn F.Seq.ON 0 ∧ s.seqState = 2 ∧ 30 < natDist mv (s.get F.Core.TARGET_MV pgCore) then
    coreFault 2 mv 0 (s.set F.Core.VOUT_MV pgCore mv)
  else s)

/-- The number of phases for a load in 0.1 A, from the number now: each way down has 5 A of hysteresis. -/
def shedCount (old load : Nat) : Nat :=
  if 400 ≤ load ∨ (8 ≤ old ∧ 350 ≤ load) then 8
  else if 150 ≤ load ∨ (4 ≤ old ∧ 100 ≤ load) then 4
  else 2

/-- PHASE_SHED: the load current, in 0.1 A (R561). -/
def execPhaseShed (load : Nat) (s : State) : Out :=
  .next (if s.coreRuns then
    let s1 := s.set F.Core.IOUT pgCore load
    let old := ((List.range 8).filter (bitAt (s.get F.Core.PHASES pgCore))).length
    let n := if s.on F.Core.SHED_EN pgCore then shedCount old load else 8
    s1.set F.Core.PHASES pgCore (s1.phaseMask n)
  else s)

/-- TARGET_MV is 750 while AVS_EN is 0 (R560). -/
def State.viewCore (s : State) (f : Fld) : Option Nat :=
  if f == F.Core.TARGET_MV && !s.on F.Core.AVS_EN pgCore then some 750 else none

/-- Page 0x0AA becomes READY: at Bisque the ramp starts (R556). -/
def seqReady (s : State) : State := if s.seqState = 0 && !(s.bndOf pgSeq).resetting then rampFrom 0 s else s

/-- What a function reset of page 0x0AA discards: polling restarts (R569). -/
def seqDiscard (s : State) : State := s.updRail (fun x => { x with out := [], retry := [] })

/-- PORST_n falls: every rail enable is low and no phase switches (R622). -/
def railsPorst (s : State) : State :=
  (forAll (List.range 16) (s.set F.Core.PHASES pgCore 0) (fun k s => s.setI F.Seq.ON pgSeq k 0)).updRail (fun _ => {})

end Sys2Proof.Machine
end

