-- ==== Sys2Proof/Machine/Signature.lean ====
section
/-! DEFINITION. The digest and the signature of a boot image: SHA-256 of FIPS 180-4 and ECDSA over P-256 of FIPS 186-4, as the
boot rules name them (R584, R585). PRESUMED: their constants and steps come from those standards. -/

namespace Sys2Proof.Machine

/-! ### SHA-256 -/

/-- The round constants. -/
def shaK : List Nat :=
  [0x428A2F98, 0x71374491, 0xB5C0FBCF, 0xE9B5DBA5, 0x3956C25B, 0x59F111F1, 0x923F82A4, 0xAB1C5ED5,
   0xD807AA98, 0x12835B01, 0x243185BE, 0x550C7DC3, 0x72BE5D74, 0x80DEB1FE, 0x9BDC06A7, 0xC19BF174] ++
  [0xE49B69C1, 0xEFBE4786, 0x0FC19DC6, 0x240CA1CC, 0x2DE92C6F, 0x4A7484AA, 0x5CB0A9DC, 0x76F988DA,
   0x983E5152, 0xA831C66D, 0xB00327C8, 0xBF597FC7, 0xC6E00BF3, 0xD5A79147, 0x06CA6351, 0x14292967] ++
  [0x27B70A85, 0x2E1B2138, 0x4D2C6DFC, 0x53380D13, 0x650A7354, 0x766A0ABB, 0x81C2C92E, 0x92722C85,
   0xA2BFE8A1, 0xA81A664B, 0xC24B8B70, 0xC76C51A3, 0xD192E819, 0xD6990624, 0xF40E3585, 0x106AA070] ++
  [0x19A4C116, 0x1E376C08, 0x2748774C, 0x34B0BCB5, 0x391C0CB3, 0x4ED8AA4A, 0x5B9CCA4F, 0x682E6FF3,
   0x748F82EE, 0x78A5636F, 0x84C87814, 0x8CC70208, 0x90BEFFFA, 0xA4506CEB, 0xBEF9A3F7, 0xC67178F2]

/-- The initial hash value. -/
def shaInit : List Nat :=
  [0x6A09E667, 0xBB67AE85, 0x3C6EF372, 0xA54FF53A, 0x510E527F, 0x9B05688C, 0x1F83D9AB, 0x5BE0CD19]

/-- Rotation of a 32-bit word to the right. -/
def rotr32 (n x : Nat) : Nat := x / 2 ^ n + x % 2 ^ n * 2 ^ (32 - n)

/-- The message schedule grows by one word; the newest word stands first. -/
def shaExpand (w : List Nat) : List Nat :=
  let a := w.getD 14 0
  let b := w.getD 1 0
  let s0 := rotr32 7 a ^^^ rotr32 18 a ^^^ a / 2 ^ 3
  let s1 := rotr32 17 b ^^^ rotr32 19 b ^^^ b / 2 ^ 10
  ((w.getD 15 0 + s0 + w.getD 6 0 + s1) % 2 ^ 32) :: w

/-- One round on the working variables. -/
def shaRound (v : List Nat) (kw : Nat × Nat) : List Nat :=
  let x := fun (i : Nat) => v.getD i 0
  let s1 := rotr32 6 (x 4) ^^^ rotr32 11 (x 4) ^^^ rotr32 25 (x 4)
  let ch := (x 4 &&& x 5) ^^^ ((2 ^ 32 - 1 - x 4) &&& x 6)
  let t1 := x 7 + s1 + ch + kw.1 + kw.2
  let s0 := rotr32 2 (x 0) ^^^ rotr32 13 (x 0) ^^^ rotr32 22 (x 0)
  let maj := (x 0 &&& x 1) ^^^ (x 0 &&& x 2) ^^^ (x 1 &&& x 2)
  [(t1 + s0 + maj) % 2 ^ 32, x 0, x 1, x 2, (x 3 + t1) % 2 ^ 32, x 4, x 5, x 6]

/-- One block of 64 bytes. -/
def shaBlock (h : List Nat) (b : List Byte) : List Nat :=
  let first := ((List.range 16).map (fun i => ((b.drop (4 * i)).take 4).foldl (fun a x => a * 256 + x.toNat) 0)).reverse
  let w := ((List.range 48).foldl (fun w _ => shaExpand w) first).reverse
  let v := (shaK.zip w).foldl shaRound h
  (h.zip v).map (fun e => (e.1 + e.2) % 2 ^ 32)

/-- Blocks of 64 bytes, at most `n` of them. -/
def shaBlocks : Nat → List Nat → List Byte → List Nat
  | 0, h, _ => h
  | n + 1, h, bs => shaBlocks n (shaBlock h (bs.take 64)) (bs.drop 64)

/-- The SHA-256 digest of some bytes, as a number with the first byte on top. -/
def sha256 (bs : List Byte) : Nat :=
  let pad := (119 - bs.length % 64) % 64
  let len := (List.range 8).map (fun i => BitVec.ofNat 8 (8 * bs.length / 256 ^ (7 - i)))
  let msg := bs ++ [0x80] ++ List.replicate pad 0 ++ len
  (shaBlocks (msg.length / 64) shaInit msg).foldl (fun a x => a * 2 ^ 32 + x) 0

/-! ### P-256 -/

/-- The prime, the order and the coefficient b of the curve, and its base point. -/
def p256P : Nat := 0xFFFFFFFF00000001000000000000000000000000FFFFFFFFFFFFFFFFFFFFFFFF
def p256N : Nat := 0xFFFFFFFF00000000FFFFFFFFFFFFFFFFBCE6FAADA7179E84F3B9CAC2FC632551
def p256B : Nat := 0x5AC635D8AA3A93E7B3EBBD55769886BC651D06B0CC53B0F63BCE3C3E27D2604B
def p256G : Nat × Nat :=
  (0x6B17D1F2E12C4247F8BCE6E563A440F277037D812DEB33A0F4A13945D898C296,
   0x4FE342E2FE1A7F9B8EE7EB4A7C0F9E162BCE33576B315ECECBB6406837BF51F5)

/-- A power modulo `m`, for exponents below 2^256. -/
def powMod (m x e : Nat) : Nat :=
  ((List.range 256).foldl (fun (a : Nat × Nat) i =>
    (if e / 2 ^ i % 2 = 1 then a.1 * a.2 % m else a.1, a.2 * a.2 % m)) (1, x % m)).1

/-- The inverse modulo a prime. -/
def invMod (m x : Nat) : Nat := powMod m x (m - 2)

/-- Difference modulo the prime of the curve. -/
def subP (a b : Nat) : Nat := (a + p256P - b % p256P) % p256P

/-- Sum of two points; none is the point at infinity. -/
def addPoint : Option (Nat × Nat) → Option (Nat × Nat) → Option (Nat × Nat)
  | none, q => q
  | p, none => p
  | some (x1, y1), some (x2, y2) =>
    if x1 = x2 ∧ (y1 + y2) % p256P = 0 then none
    else
      let l := if x1 = x2 then (3 * x1 * x1 + (p256P - 3)) * invMod p256P (2 * y1) % p256P
        else subP y2 y1 * invMod p256P (subP x2 x1) % p256P
      let x := subP (l * l) (x1 + x2)
      some (x, subP (l * subP x1 x) y1)

/-- A multiple of a point. -/
def mulPoint (k : Nat) (p : Option (Nat × Nat)) : Option (Nat × Nat) :=
  ((List.range 256).foldl (fun (a : Option (Nat × Nat) × Option (Nat × Nat)) i =>
    (if k / 2 ^ i % 2 = 1 then addPoint a.1 a.2 else a.1, addPoint a.2 a.2)) (none, p)).1

/-- The point lies on the curve. -/
def onCurve (q : Nat × Nat) : Bool :=
  decide (q.1 < p256P) && decide (q.2 < p256P) && q.2 * q.2 % p256P == subP (q.1 * q.1 * q.1 + p256B) (3 * q.1)

/-- A signature verifies for a digest. -/
def verifies (digest : Nat) (q : Nat × Nat) (r s : Nat) : Bool :=
  if r = 0 ∨ p256N ≤ r ∨ s = 0 ∨ p256N ≤ s ∨ onCurve q = false then false
  else
    let w := invMod p256N s
    match addPoint (mulPoint (digest * w % p256N) (some p256G)) (mulPoint (r * w % p256N) (some q)) with
    | none => false
    | some (x, _) => x % p256N == r

end Sys2Proof.Machine
end

