-- ==== Sys2Proof/Machine/Processors.lean ====
section
/-! DEFINITION. Processors and boot, mailboxes, the interrupt router, host operations on the NOR, and the loss of external power
(R576 to R600, R623). -/

namespace Sys2Proof.Machine

def pgCpu : Nat := 0x0B0
def pgMbox : Nat := 0x0B1
def pgIrq : Nat := 0x0B2
def State.updCpu (s : State) (f : CpuX → CpuX) : State := { s with cpu := f s.cpu }

/-- Owner agents (R80). -/
def hostAgent (k : Nat) : Nat := 1 + k
def tenderAgent (r : Nat) : Nat := 5 + r
def sagAgent : Nat := 9
def isHost (agent : Nat) : Bool := decide (1 ≤ agent) && decide (agent ≤ 4)

/-! ### Host cores (R578, R579, R585) -/

/-- CPU_WATCHDOG: LIMIT ms without a KICK (R578). -/
def execCpuWatchdog (k : Nat) (s : State) : Out :=
  let limit := s.getI F.Cpu.LIMIT pgCpu k
  .next (if k < 4 ∧ limit ≠ 0 ∧ tget s.cpu.kickAt k 0 + limit * 1000000 ≤ s.now then
    let act := s.onI F.Cpu.ACTION pgCpu k
    let s1 := (s.updCpu (fun x => { x with kickAt := tput x.kickAt k s.now })).raise Ev.cpuWatchdog pgCpu (bit act * 256 + k)
    if act then breakLocks (hostAgent k) s1 else s1
  else s)

/-- The count of a watchdog restarts. -/
def kick (k : Nat) (s : State) : State := s.updCpu (fun x => { x with kickAt := tput x.kickAt k s.now })

/-- WATCHDOG_KICK: a write of CPU_WD_k with KICK 1 and the other fields as they are (R578). -/
def execWatchdogKick (k owner : Nat) (s : State) : Out :=
  .next (if k < 4 then
    gateReg pgCpu (0x70 + 4 * k) (s.getI F.Cpu.LIMIT pgCpu k * 65536 + s.getI F.Cpu.ACTION pgCpu k * 256 + 1) owner (kick k) s
  else s)

/-- A write of RELEASE: bit k runs host core k (R585); a core that is held again is reset (R84). -/
def hostRelease (mask : Nat) (s : State) : State :=
  let s1 := s.set F.Cpu.RELEASE pgCpu (mask / 2)
  forAll [1, 2, 3] s1 (fun k s =>
    let on := bitAt mask k
    if on then s.updCpu (fun x => { x with running := setBit x.running k })
    else if bitAt s.cpu.running k then breakLocks (hostAgent k) (s.updCpu (fun x => { x with running := clearBit x.running k }))
    else s)

/-- HOST_CORE_RELEASE: bits 3 to 1 of the word are RELEASE (R585). -/
def execHostCoreRelease (mask owner : Nat) (s : State) : Out :=
  .next (gateReg pgCpu 0x40 (low 4 mask / 2 * 2) owner (hostRelease (low 4 mask)) s)

/-- CACHE_ERROR: an uncorrectable error in an L1 of a core, or in the L2 (4), where the line is dirty or not (R579). -/
def execCacheError (core addr : Nat) (dirty : Bool) (s : State) : Out :=
  .next (if core ≤ 4 then
    let s1 := if core = 4 ∧ dirty then s.updCpu (fun x => { x with l2Bad := putLine x.l2Bad (low 40 addr / 64) }) else s
    s1.raise Ev.cpuCacheError pgCpu (low 40 addr * 2 ^ 24 + core)
  else s)
where
  /-- A line joins a list once. -/
  putLine (l : List Nat) (x : Nat) : List Nat := if l.contains x then l else l ++ [x]

/-! ### Maintenance of the L2 (R576) -/

/-- The range that L2_MAINT names: first line and lines. -/
def State.l2Range (s : State) : Nat × Nat :=
  let a := s.get2 F.Cpu.L2_MAINT_ADDR_LO F.Cpu.L2_MAINT_ADDR_HI pgCpu 0
  (a / 64, (s.get F.Cpu.L2_MAINT_LEN pgCpu + 63) / 64)

/-- A write of L2_MAINT with GO (Table 18-5): OP is stored, where 0 is reserved; the start is ignored while an operation runs. -/
def l2Go (op : Nat) (s : State) : State :=
  let s1 := if op = 0 then s else s.set F.Cpu.L2_MAINT_OP pgCpu op
  let k := s1.get F.Cpu.L2_MAINT_OP pgCpu
  if s.on F.Cpu.L2_MAINT_BUSY pgCpu ∨ k = 0 then s1
  else (s1.set F.Cpu.L2_MAINT_BUSY pgCpu 1).updCpu (fun x => { x with l2Job := some (k, s1.l2Range) })

/-- L2_CLEAN (R576). -/
def execL2Clean (owner : Nat) (s : State) : Out := .next (gateReg pgCpu 0x8C 0x11 owner (l2Go 1) s)

/-- L2_INVALIDATE (R576). -/
def execL2Invalidate (owner : Nat) (s : State) : Out := .next (gateReg pgCpu 0x8C 0x12 owner (l2Go 2) s)

/-- L2_CLEAN_INVALIDATE (R576). -/
def execL2CleanInvalidate (owner : Nat) (s : State) : Out := .next (gateReg pgCpu 0x8C 0x13 owner (l2Go 3) s)

/-- A line lies in the range of the operation that runs. -/
def State.inRange (s : State) (line : Nat) : Bool :=
  match s.cpu.l2Job with
  | some (_, a, n) => decide (a ≤ line) && decide (line < a + n)
  | none => false

/-- A dirty line is written back; one that holds an uncorrectable word is written poisoned (R407, R579). -/
def writeBack (line : Nat) (data : List Nat) (s : State) : State :=
  let s1 := sysWrite 0 (64 * line) ((List.range 64).map (fun i => BitVec.ofNat 8 (data.getD i 0))) s
  if s.cpu.l2Bad.contains line ∧ sdramBase ≤ 64 * line then
    { s1 with memBad := (List.range 16).foldl (fun l i =>
        let w := (64 * line - sdramBase) / 4 + i
        if l.contains w then l else l ++ [w]) s1.memBad }
  else s1

/-- L2_MAINT_DONE: the dirty lines of the range and their 64 bytes; a clean writes them back (R576). -/
def execL2MaintDone (lines : List (Nat × List Nat)) (s : State) : Out :=
  .next (if s.on F.Cpu.L2_MAINT_BUSY pgCpu then
    let s1 := if s.cpu.l2Job.any (fun j => j.1 == 2) then s
      else forAll (lines.filter (fun l => s.inRange l.1)) s (fun l => writeBack l.1 l.2)
    (s1.set F.Cpu.L2_MAINT_BUSY pgCpu 0).updCpu (fun x => { x with
      l2Job := none, l2Bad := x.l2Bad.filter (fun l => !s.inRange l) })
  else s)

/-! ### Mailboxes (R590 to R592) -/

/-- The FIFO of mailbox `m` and direction `d`: 0 X to Y, 1 Y to X. -/
def State.mbox (s : State) (m d : Nat) : List Nat := tget s.cpu.fifo (2 * m + d) []
def setMbox (m d : Nat) (l : List Nat) (s : State) : State := s.updCpu (fun x => { x with fifo := tputD x.fifo (2 * m + d) l [] })

/-- An agent is on side X (0) or Y (1) of a mailbox. -/
def onSide (m side agent : Nat) : Bool :=
  if side = 0 ∨ 5 ≤ m then isHost agent else if m = 4 then agent == sagAgent else agent == tenderAgent m

/-- The key of a PUSH_LO: that of the FIFO, or of the Sagger channel that writes. -/
def pushKey (m d owner : Nat) : Nat := if agentOf owner = sagAgent then 16 + owner % 16 else 2 * m + d

/-- A message enters a FIFO of 16. -/
def mboxPut (m d v : Nat) (s : State) : State :=
  let l := s.mbox m d
  if l.length < 16 then setMbox m d (l ++ [v]) s else s.raise Ev.cpuMboxFull pgMbox (d * 8 + m)

/-- 20,000 sclk at 100 MHz. -/
def sagWindow : Nat := 200000

/-- Messages of single channels whose time is over are discarded and counted (R591). -/
def sagMsgExpire (s : State) : State :=
  let old : SagMsg → Bool := fun e => decide (e.first + sagWindow < s.now)
  let lost := (s.cpu.sagOut.filter (fun e => old e && !e.pushed)).length
  if s.cpu.sagOut.any old then
    (s.satI F.Mbox.SAG_MB_DISAGREE pgMbox 0 lost).updCpu (fun x => { x with sagOut := x.sagOut.filter (fun e => !old e) })
  else s

/-- Channel `ch` of the Sagger writes a message to the host: the second equal one of two channels in service pushes it. -/
def sagPush (ch v : Nat) (s : State) : State :=
  let s1 := sagMsgExpire s
  if !s1.sagChannels.contains ch then s1
  else
    let same : SagMsg → Bool := fun e => e.data == v && !bitAt e.chans ch
    match s1.cpu.sagOut.find? same with
    | none => s1.updCpu (fun x => { x with sagOut := x.sagOut ++ [⟨v, s.now, 2 ^ ch, false⟩] })
    | some e =>
      let s2 := s1.updCpu (fun x => { x with
        sagOut := x.sagOut.map (fun q => if q = e then { e with chans := setBit e.chans ch, pushed := true } else q) })
      if e.pushed then s2 else mboxPut 4 1 v s2

/-- PUSH_LO written. -/
def pushLoWrite (m d v owner : Nat) (s : State) : State :=
  s.updCpu (fun x => { x with pushLo := tputD x.pushLo (pushKey m d owner) (low 32 v) 0 })

/-- PUSH_HI written (R590). -/
def pushHiWrite (m d hi owner : Nat) (s : State) : State :=
  if !onSide m d (agentOf owner) then s.raise Ev.cpuMboxDenied pgMbox (low 8 owner * 256 + d * 8 + m)
  else
    let v := tget s.cpu.pushLo (pushKey m d owner) 0 + low 32 hi * 2 ^ 32
    if m = 4 ∧ d = 1 then sagPush (owner % 16) v s else mboxPut m d v s

/-- MBOX_PUSH (R590, R591). -/
def execMboxPush (m d hi owner : Nat) (s : State) : Out :=
  .next (if m < 8 ∧ d < 2 then
    gateReg pgMbox (0x104 + 0x20 * m + 0x10 * d) hi owner (pushHiWrite m d hi owner) s
  else s)

/-- MBOX_POP: a read of POP_HI (R590). -/
def execMboxPop (m d owner : Nat) (s : State) : Out :=
  .next (if m < 8 ∧ d < 2 ∧ !s.silent then
    if !onSide m (1 - d) (agentOf owner) then { s with resp := .data 0 }
    else match s.mbox m d with
      | [] => { s with resp := .data 0 }
      | v :: l => { setMbox m d l s with resp := .data (v / 2 ^ 32) }
  else s)

/-- Mailbox fields that are computed. -/
def State.viewMbox (s : State) (f : Fld) (i : Nat) : Option Nat :=
  if f == F.Mbox.LEVEL_XY then some (s.mbox i 0).length
  else if f == F.Mbox.LEVEL_YX then some (s.mbox i 1).length
  else if f == F.Mbox.POP_LO_XY then some ((s.mbox i 0).headD 0 % 2 ^ 32)
  else if f == F.Mbox.POP_LO_YX then some ((s.mbox i 1).headD 0 % 2 ^ 32)
  else if f == F.Mbox.SAG_MB_DISAGREE then some ((sagMsgExpire s).get F.Mbox.SAG_MB_DISAGREE pgMbox)
  else none

/-- Both FIFOs of a mailbox are empty from now on. -/
def mboxClear (m : Nat) (s : State) : State := setMbox m 1 [] (setMbox m 0 [] s)

/-! ### Tender cores (R581, R582) -/

/-- A write of TENDER_CTRL.RUN: a core whose bit falls is halted and reset, one whose bit rises starts at address 0. -/
def tenderRun (mask : Nat) (s : State) : State :=
  let old := s.get F.Cpu.RUN pgCpu
  forAll (List.range Config.regions) (s.set F.Cpu.RUN pgCpu mask) (fun r s =>
    if bitAt old r = bitAt mask r then s
    else
      let s1 := mboxClear r s
      if bitAt mask r then s1.updCpu (fun x => { x with halted := clearBit x.halted r })
      else trkFault r (breakLocks (tenderAgent r) s1))

/-- TENDER_RUN (R582). -/
def execTenderRun (mask owner : Nat) (s : State) : Out :=
  .next (gateReg pgCpu 0x44 (low 4 mask) owner (tenderRun (low 4 mask)) s)

/-- TENDER_FAULT: tender `r` halts on a trap (1) or an uncorrectable word (2) (R582). -/
def execTenderFault (r kind addr : Nat) (s : State) : Out :=
  .next (if r < Config.regions ∧ s.tenderRuns r ∧ (kind = 1 ∨ kind = 2) then
    let s1 := s.updCpu (fun x => { x with halted := setBit x.halted r })
    trkFault r (mboxClear r (breakLocks (tenderAgent r) (s1.raise Ev.cpuTenderFault pgCpu (arg64 addr (kind * 16 + r)))))
  else s)

/-! ### Boot (R584 to R586) -/

/-- First byte of a boot slot. -/
def slotBase (slot : Nat) : Nat := 0xC00000 * slot

/-- A field of the header of a slot. -/
def State.bootField (s : State) (slot off n : Nat) : Nat := leNat (s.norBytes (slotBase slot + off) n)

/-- The header of a slot is good (Table 18-3). -/
def State.headerOk (s : State) (slot : Nat) : Bool :=
  s.bootField slot 0 4 == 0x4B424F54 && s.bootField slot 4 2 == 1 &&
    s.bootField slot 252 4 == crc32 (s.norBytes (slotBase slot) 252)

/-- A slot fails with a reason. -/
def imageFail (slot reason : Nat) (s : State) : State :=
  (s.set (if slot = 0 then F.Cpu.BOOT_FAIL_A else F.Cpu.BOOT_FAIL_B) pgCpu reason).raise Ev.bootImageFail pgCpu
    (slot * 65536 + reason)

/-- The ROM goes on to the next candidate, or halts without an image. -/
def nextCandidate (l : List Nat) (s : State) : State :=
  match l with
  | k :: rest => s.updCpu (fun x => { x with boot := 1, slot := k, left := rest })
  | [] => (s.updCpu (fun x => { x with boot := 3, left := [] })).raise Ev.bootNoImage pgCpu 0

/-- BOOT_START: the headers of both slots are read; `unread` is the mask of slots whose read fails (R585, R586). -/
def execBootStart (unread : Nat) (s : State) : Out :=
  .next (if s.ready pgSto ∧ s.cpu.boot = 0 then
    let s1 := forAll [0, 1] s (fun k s =>
      if bitAt unread k then imageFail k 7 s else if s.headerOk k then s else imageFail k 1 s)
    let good := [0, 1].filter (fun k => !bitAt unread k && s.headerOk k)
    let newer := decide (0 < sext 32 (s.bootField 1 8 4 + 2 ^ 32 - s.bootField 0 8 4))
    nextCandidate (if good = [0, 1] ∧ newer then [1, 0] else good) s1
  else s)

/-- The reason of R585 for which a candidate fails before any section is read, 0 for none. -/
def State.bootReason (s : State) (slot : Nat) : Nat :=
  let f := s.bootField slot
  let load := f 16 4
  let key := (s.norBytes (slotBase slot + 64) 64)
  if 0x1718000 < load + f 12 4 ∨ f 20 4 < load ∨ load + f 12 4 ≤ f 20 4 then 2
  else if f 6 2 < Config.minSecVersion then 3
  else if s.on F.Colo.SECURE_BOOT 1 ∧ sha256 key ≠ Config.keyHash then 4
  else 0

/-- Bytes of a section rounded up to four: sections are 4-byte aligned. -/
def aligned4 (n : Nat) : Nat := (n + 3) / 4 * 4

/-- The sections are loaded as far as `n` bytes have been read: host section first, then the tender section into the memories
of every tender. -/
def bootLoad (slot n : Nat) (s : State) : State :=
  let f := s.bootField slot
  let host := (s.norBytes (slotBase slot + 256) (f 12 4)).take n
  let tender := (s.norBytes (slotBase slot + 256 + aligned4 (f 12 4)) (f 24 4)).take (n - aligned4 (f 12 4))
  let s1 := roomWrite (f 16 4) host s
  forAll (List.range Config.regions) s1 (fun r s => setAptBytes pgCpu (0x80000 * r) tender s)

/-- DIGEST of a slot, its computed digest, and whether SIG verifies. -/
def State.bootDigest (s : State) (slot : Nat) : Nat := beNat (s.norBytes (slotBase slot + 32) 32)
def State.bootSum (s : State) (slot : Nat) : Nat :=
  let f := s.bootField slot
  sha256 (s.norBytes (slotBase slot) 32 ++ s.norBytes (slotBase slot + 256) (f 12 4) ++
    s.norBytes (slotBase slot + 256 + aligned4 (f 12 4)) (f 24 4))
def State.bootSigOk (s : State) (slot : Nat) : Bool :=
  let n := fun (off : Nat) => beNat (s.norBytes (slotBase slot + off) 32)
  verifies (s.bootDigest slot) (n 64, n 96) (n 128) (n 160)

/-- The image of a slot runs (R585, step 4). -/
def bootPass (slot : Nat) (s : State) : State :=
  let f := s.bootField slot
  let secure := s.on F.Colo.SECURE_BOOT 1
  let s1 := (((s.set F.Cpu.RUN pgCpu (2 ^ Config.regions - 1)).set F.Cpu.BOOTED pgCpu 1).set F.Cpu.SLOT pgCpu slot).set
    F.Cpu.SIG_CHECKED pgCpu (bit secure)
  let s2 := ((s1.set F.Cpu.SEC_VERSION pgCpu (f 6 2)).set F.Cpu.BOOT_SEQ pgCpu (f 8 4)).set F.Cpu.TENDER_FW_ID pgCpu (f 28 4)
  let s3 := s2.set F.Cpu.BOOT_ENTRY pgCpu (0x10000000 + f 20 4)
  let s4 := s3.updCpu (fun x => { x with boot := 2, running := setBit x.running 0, left := [] })
  ((restorePage pgCpu s4).set F.Hdr.READY pgCpu 1).raise Ev.bootDone pgCpu (arg64 (f 8 4) (slot * 65536 + f 6 2))

/-- BOOT_CANDIDATE_END: the checks of the candidate end; `errAt` is where in its sections a read error stopped the ROM
(R585, R586). -/
def execBootCandidateEnd (errAt : Option Nat) (s : State) : Out :=
  .next (if s.cpu.boot = 1 ∧ s.ready pgSto then
    let k := s.cpu.slot
    let fail := fun (why : Nat) (s : State) => nextCandidate s.cpu.left (imageFail k why s)
    let why := s.bootReason k
    if why ≠ 0 then fail why s
    else match errAt with
      | some n => fail 7 (bootLoad k n s)
      | none =>
        let s1 := bootLoad k (2 ^ 25) s
        if s.bootSum k ≠ s.bootDigest k then fail 5 s1
        else if s.on F.Colo.SECURE_BOOT 1 ∧ s.bootSigOk k = false then fail 6 s1
        else bootPass k s1
  else s)

/-! ### Host operations on the NOR (R588) -/

/-- The reason that refuses an operation, 0 for none. -/
def State.norReason (s : State) (op addr : Nat) : Nat :=
  let size := if op = 3 then 65536 else 256
  let first := addr / size * size
  let slot := s.get F.Cpu.SLOT pgCpu
  if areaBase < first + size ∧ first < areaBase + 2 * areaBytes then 1
  else if op ≠ 1 ∧ s.on F.Cpu.BOOTED pgCpu ∧ slotBase slot ≤ first ∧ first < slotBase slot + 0xC00000 then 2
  else if 2 ^ s.get F.Nor.NOR_SIZE pgSto < first + size then 3
  else 0

/-- A write of NOR_CTRL with GO; it is ignored while an operation waits or runs, and discarded while the journal closes. -/
def norGo (op : Nat) (s : State) : State :=
  let st := s.get F.Nor.NOR_STATUS_STATE pgSto
  let s1 := s.set F.Nor.NOR_CTRL_OP pgSto op
  if st = 1 ∨ st = 2 ∨ op = 0 ∨ s.jrn.closing.isSome then s1
  else
    let a := s.get F.Nor.NOR_ADDR pgSto
    let why := s.norReason op a
    if why ≠ 0 then (s1.set F.Nor.REFUSED pgSto 1).raise Ev.bootNorRefused pgSto (arg64 a why)
    else
      let s2 := (s1.set F.Nor.REFUSED pgSto 0).updCpu (fun x => { x with norJob := some (op, a) })
      s2.set F.Nor.NOR_STATUS_STATE pgSto (if s.jrn.prog.isSome ∨ s.jrn.erasing then 1 else 2)

/-- NOR_READ_PAGE (R588). -/
def execNorReadPage (owner : Nat) (s : State) : Out := .next (gateReg pgSto 0x48 0x11 owner (norGo 1) s)

/-- NOR_PROGRAM_PAGE (R588). -/
def execNorProgramPage (owner : Nat) (s : State) : Out := .next (gateReg pgSto 0x48 0x12 owner (norGo 2) s)

/-- NOR_ERASE_SECTOR (R588). -/
def execNorEraseSector (owner : Nat) (s : State) : Out := .next (gateReg pgSto 0x48 0x13 owner (norGo 3) s)

/-- NOR_OP_DONE: the operation that runs completes; one that waits for the journal begins once the journal is idle (R588). -/
def execNorOpDone (s : State) : Out :=
  .next (if s.get F.Nor.NOR_STATUS_STATE pgSto = 2 then norDone s
  else if s.get F.Nor.NOR_STATUS_STATE pgSto = 1 ∧ s.jrn.prog = none ∧ s.jrn.erasing = false then s.set F.Nor.NOR_STATUS_STATE pgSto 2
  else s)

/-! ### Interrupt router (R593 to R595) -/

/-- The level of router input `i` (R593). -/
def State.routerInput (s : State) (i : Nat) : Bool :=
  (List.range 256).any (fun pg => present pg && s.get F.Hdr.LINE pg == i && s.pageInterrupt pg) ||
    (decide (0xC0 ≤ i) && decide (i < 0xD0) && !(s.mbox ((i - 0xC0) / 2) (i % 2)).isEmpty)

/-- The inputs pending for core `k`: asserted, routed to it, above its threshold and not claimed by it (R594). -/
def State.pendingFor (s : State) (k : Nat) : List Nat :=
  (List.range 256).filter (fun i => bitAt (s.getI F.Irq.ROUTE_TARGET pgIrq i) k &&
    decide (s.getI F.Irq.THRESH pgIrq k < s.getI F.Irq.ROUTE_PRIO pgIrq i) && !(tget s.cpu.claims k []).contains i &&
    s.routerInput i)

/-- The core's external interrupt is asserted. -/
def State.coreInterrupt (s : State) (k : Nat) : Bool := !(s.pendingFor k).isEmpty

/-- IRQ_OUT_j is asserted (R595). -/
def State.irqOut (s : State) (j : Nat) : Bool :=
  (List.range 256).any (fun i => bitAt (s.getI F.Irq.ROUTE_TARGET pgIrq i) (8 + j) &&
    decide (s.getI F.Irq.PIN_THRESH pgIrq j < s.getI F.Irq.ROUTE_PRIO pgIrq i) && s.routerInput i)

/-- A lower-numbered core has claimed the input in this cycle (R594). -/
def State.takenNow (s : State) (k i : Nat) : Bool := (List.range k).any (fun j => s.stampedNow (claimKey j i))

/-- The pending input with the highest PRIO, and the lowest index among equals, of those that a lower-numbered core has not
claimed in this cycle. -/
def State.bestFor (s : State) (k : Nat) : Option Nat :=
  ((s.pendingFor k).filter (fun i => !s.takenNow k i)).foldl (fun (a : Option Nat) i => match a with
    | none => some i
    | some b => if s.getI F.Irq.ROUTE_PRIO pgIrq b < s.getI F.Irq.ROUTE_PRIO pgIrq i then some i else a) none

/-- An input becomes claimed by a core. -/
def claimInput (k i : Nat) (s : State) : State :=
  (s.updCpu (fun x => { x with claims := tput x.claims k (tget x.claims k [] ++ [i]) })).stamp (claimKey k i) s.now

/-- CLAIM: a read of CLAIM_k (R594). -/
def execClaim (k : Nat) (s : State) : Out :=
  .next (if k < 8 ∧ !s.silent then
    match s.bestFor k with
    | some i => { claimInput k i s with resp := .data i }
    | none => { s with resp := .data 0x1FF }
  else s)

/-- COMPLETE: a write of an input to COMPLETE_k (R594). -/
def complete (k i : Nat) (s : State) : State :=
  s.updCpu (fun x => { x with claims := tputD x.claims k ((tget x.claims k []).filter (· != low 9 i)) [] })

/-- COMPLETE: a core ends its claim of an input (R594, R598). -/
def execComplete (k i owner : Nat) (s : State) : Out :=
  .next (if k < 8 then gateReg pgIrq (0x80 + 4 * k) i owner (complete k i) s else s)

/-! ### The pages and the loss of power -/

/-- What a function reset of page 0x0B1 or 0x0B2 discards. -/
def mboxDiscard (s : State) : State := forAll (List.range 8) (s.updCpu (fun x => { x with pushLo := [], sagOut := [] })) mboxClear
def irqDiscard (s : State) : State := s.updCpu (fun x => { x with claims := [] })

end Sys2Proof.Machine
end

