-- ==== Sys2Proof/Machine/Memory.lean ====
section
/-! DEFINITION. The SDRAM controller: scheduling, the beats of a burst and error correction, CA parity, refresh, power states,
frequency points and training (R395 to R424). -/

namespace Sys2Proof.Machine

/-- mclk in MHz at a frequency point (Table 12-6). -/
def mclkMHz (point : Nat) : Nat := match point with
  | 0 => 800
  | 1 => 1200
  | _ => 1600

/-- mclk cycles since an instant, at the present point. -/
def State.mclkSince (s : State) (t : Nat) : Nat := (s.now - t) * mclkMHz (s.get F.Mem.POINT pgMem) / 1000

/-! ### Check code (R397) -/

/-- Bits set in a number. -/
def popcount (v : Nat) : Nat := (List.range 64).foldl (fun a i => a + bit (bitAt v i)) 0

/-- The columns H_0 to H_31. -/
def hColumns : List Nat := ((List.range 128).filter (fun v => popcount v == 3)).take 32

/-- The seven check bits of a data word. -/
def checkBits (w : Nat) : Nat :=
  hColumns.zipIdx.foldl (fun a e => if bitAt w e.2 then Nat.xor a e.1 else a) 0

/-- Outcome of a codeword as it is read, data and check bits: the data delivered, whether a data bit was corrected, whether the
word is uncorrectable, and the syndrome. -/
def decodeRead (read check : Nat) : Nat × Bool × Bool × Nat :=
  let syn := Nat.xor check (checkBits read)
  if syn = 0 ∨ popcount syn = 1 then (read, false, false, syn)
  else match hColumns.findIdx? (· == syn) with
    | some j => (Nat.xor read (2 ^ j), true, false, syn)
    | none => (read, false, true, syn)

/-- The same for a stored word of which the bits of `flip` read inverted, data bits from 0 and check bits from 32; `base` is what
the stored check bits differ by from those of the stored data. -/
def decodeWord (data base flip : Nat) : Nat × Bool × Bool × Nat :=
  decodeRead (Nat.xor data (low 32 flip)) (Nat.xor (Nat.xor (checkBits data) base) (bits flip 32 7))

/-! ### Beats (R396) -/

/-- The DQ lanes of a beat (Table 12-2): two data words and their check bits; DQ78 and DQ79 are low on a write. -/
def beatLanes (w0 w1 c0 c1 : Nat) : Nat := w0 + w1 * 2 ^ 32 + c0 * 2 ^ 64 + c1 * 2 ^ 71

/-- The data bits and the check bits of word `h` of a beat; DQ78 and DQ79 are ignored. -/
def beatData (lanes h : Nat) : Nat := bits lanes (32 * h) 32
def beatCheck (lanes h : Nat) : Nat := bits lanes (64 + 7 * h) 7

/-- Word `w` of a burst as its RD gave it, and its check bits, those of an uncorrectable word XOR 3 (R407). -/
def MemReq.word (q : MemReq) (w : Nat) : Nat := leNat (((q.got.drop (4 * w)).take 4).map (BitVec.ofNat 8))
def MemReq.check (q : MemReq) (w : Nat) : Nat := Nat.xor (checkBits (q.word w)) (if q.gotBad.contains w then 3 else 0)

/-- Beat `b` of a burst on the lanes: words 2b and 2b + 1. -/
def MemReq.beat (q : MemReq) (b : Nat) : Nat :=
  beatLanes (q.word (2 * b)) (q.word (2 * b + 1)) (q.check (2 * b)) (q.check (2 * b + 1))

/-! ### Power states (R414 to R417) -/

/-- Λ and the port that sets it, the lowest of several (R414). -/
def State.minLatTol (s : State) : Nat × Nat :=
  (List.range Config.ports).foldl (fun a p =>
    let v := s.get F.Port.LAT_TOL (pgPort p)
    let t := if v = 0xFFFF then v else v - 8
    if t < a.1 then (t, p) else a) (0xFFFF, 0)

/-- Θ (R416, Table 12-5). -/
def State.srTheta (s : State) : Nat :=
  let f := mclkMHz (s.get F.Mem.POINT pgMem)
  let wake := if f = 800 then 618 else if f = 1200 then 877 else 1049
  (wake * 1000 + f * 128 - 1) / (f * 128) + s.get F.Mem.SR_MARGIN pgMem

/-- A falling Λ wakes the channels (R415, R416). -/
def memLatencyWake (s : State) : State :=
  let l := s.minLatTol.1
  forAll [0, 1, 2, 3] s (fun ch s =>
    let p := s.get F.Chan.POWER (pgChan ch)
    if s.memc.chg.isSome || !s.ready (pgChan ch) then s
    else if p = 1 ∧ l = 0 then memPower ch 0 s
    else if p = 2 ∧ l ≤ s.srTheta then srExit ch s
    else s)

/-! ### Commands to the components -/

/-- The row of an address opened, after a PRE where another row of the bank is open (R402). -/
def State.openRow (s : State) (addr : Nat) (x : MemX) : MemX :=
  let b := s.memBank addr
  let r := s.memRow addr
  match tfind x.rows b with
  | some r' => if r' = r then x
    else let y := (x.issue 3 addr s.now).issue 2 addr s.now
      { y with rows := tput y.rows b r }
  | none => let y := x.issue 2 addr s.now
    { y with rows := tput y.rows b r }

/-- The rows of a rank closed. -/
def MemX.closeRank (x : MemX) (r : Nat) : MemX := { x with rows := tclear x.rows (r * 8) (r * 8 + 8) }

/-- Postponed REFs as REF_STATE shows them: the larger of the two ranks. -/
def showPostponed (ch : Nat) (s : State) : State :=
  s.set F.Chan.POSTPONED (pgChan ch) (max ((s.memOf ch).rank 0).refs ((s.memOf ch).rank 1).refs)

/-- All postponed REFs of a channel issued, as before self-refresh. -/
def issueAllRefs (ch : Nat) (s : State) : State :=
  let s1 := s.updMem ch (fun x => (List.range s.memRanks).foldl (fun x r =>
    let n := (x.rank r).refs + (x.rank r).refNow
    ((List.range n).foldl (fun x _ => x.issue 4 r s.now) x).updRank r (fun k => { k with refs := 0, refNow := 0 })) x)
  showPostponed ch s1

/-- A read made for a port is urgent while the port's URGENT is 1: those of its items and of its replay record (R285). -/
def State.urgentRead (s : State) (cls : Nat) (port : Option Nat) : Bool :=
  (cls == 1 || cls == 3) && port.any (fun p => decide (p < Config.ports) && s.on F.Port.URGENT (pgPort p))

/-- MEM_REQUEST: one burst of a requester class, at any of its addresses, and the port for which it is made; a write names its
bytes by a mask (R285, R399, R403, R404). -/
def execMemRequest (cls addr : Nat) (wr : Bool) (port : Option Nat) (mask : Nat) (data : List Nat) (s : State) : Out :=
  .next (if s.memCapacity ≤ addr then
    { rangeError cls addr wr s with resp := if wr then .none else poisonedResp (low 4 cls) }
  else
    let ch := (s.memSplit addr).1
    let q : MemReq := {
      burst := addr / 64 * 64
      cls := low 4 cls
      urgent := !wr && s.urgentRead (low 4 cls) port
      wr := wr
      mask := low 64 mask
      data := data }
    memEnqueue ch q (memWake ch { s with resp := .none }))

/-! ### Scheduling -/

/-- A queued request can be chosen: no older queued request conflicts with it, and no merge holds its bank (R403, R404). -/
def State.memEligible (s : State) (x : MemX) (q : MemReq) : Bool :=
  let older : MemReq → Bool := fun o => o.burst == q.burst && decide (o.seq < q.seq)
  !(x.writes.any older) && !(q.wr && x.reads.any older) &&
    !(x.flight.any (fun f => f.wr && s.memBank f.burst == s.memBank q.burst))

/-- The request hits an open row. -/
def State.memHit (s : State) (x : MemX) (q : MemReq) : Bool := tfind x.rows (s.memBank q.burst) == some (s.memRow q.burst)

/-- The oldest of some requests. -/
def oldest (l : List MemReq) : Option MemReq :=
  l.foldl (fun a q => match a with
    | some o => if q.seq < o.seq then some q else a
    | none => some q) none

/-- The request that rules 2 to 5 of R400 choose. -/
def State.memChoose (s : State) (x : MemX) : Option MemReq :=
  let rd := x.reads.filter (s.memEligible x)
  let wt := x.writes.filter (s.memEligible x)
  let urgent := rd.filter (·.urgent) ++
    wt.filter (fun w => x.reads.any (fun r => r.burst == w.burst && decide (w.seq < r.seq)))
  let aged := (rd ++ wt).filter (fun q => decide (s.get F.Mem.AGE_CAP pgMem < s.mclkSince q.since))
  let drain := if x.drain then wt else []
  [urgent, aged, drain.filter (s.memHit x), drain, rd.filter (s.memHit x), rd].findSome? oldest

/-- The write drain starts (R401): WQ_HIGH entries, or no read can be chosen and a write waits. -/
def State.memDrain (s : State) (x : MemX) : MemX :=
  let n := x.writes.length
  if decide (0 < n) && (decide (s.get F.Mem.WQ_HIGH pgMem ≤ n) || !(x.reads.any (s.memEligible x))) then { x with drain := true }
  else x

/-- A write has been issued: the drain ends at WQ_LOW entries or fewer (R401). -/
def State.drainEnd (s : State) (x : MemX) : MemX :=
  if decide (x.writes.length ≤ s.get F.Mem.WQ_LOW pgMem) then { x with drain := false } else x

/-- The channel takes no requester commands: it serves nothing, or sleeps. -/
def State.memBlocked (s : State) (ch : Nat) : Bool :=
  s.memHeld ch || s.get F.Chan.POWER (pgChan ch) == 2 || s.get F.Chan.POWER (pgChan ch) == 3

/-- What the components give for the RD of a burst (R403). -/
def State.asRead (s : State) (q : MemReq) : MemReq :=
  { q with got := (memBytes s.sdram q.burst 64).map (·.toNat), gotBad := s.badWords q.burst }

/-- The chosen request issued: a read and the read of a merge take what the components hold and wait for their data, a
whole-burst write is stored. -/
def memIssue (ch : Nat) (q : MemReq) (s : State) : State :=
  let s1 := s.updMem ch (fun x =>
    let y := s.openRow q.burst x
    if q.wr then s.drainEnd { y with writes := y.writes.filter (fun w => w.seq != q.seq) }
    else { y with reads := y.reads.filter (fun r => r.seq != q.seq) })
  let s2 := if q.wr && q.mask == 2 ^ 64 - 1 then
      (memStore q [] s1).updMem ch (fun x => { x.issue 1 q.burst s.now q.seq with idleAt := s.now })
    else s1.updMem ch (fun x =>
      let y := x.issue 0 q.burst s.now q.seq
      { y with flight := y.flight ++ [s.asRead q] })
  let s3 := if !q.wr && q.urgent then s2.wrap F.Chan.URGENT_READS (pgChan ch) else s2
  memAdmit (s3.memOf ch).wait.length ch s3

/-- A REF or ZQCS issued to a rank; the rows close before a REF (R402, R412, R413). -/
def memMaintain (ch r : Nat) (zq : Bool) (s : State) : State :=
  let s1 := s.updMem ch (fun x =>
    let y := (if zq then x else x.closeRank r).issue (if zq then 5 else 4) r s.now
    y.updRank r (fun k =>
      if zq then (if 0 < k.zqNow then { k with zqNow := k.zqNow - 1 } else { k with zqs := k.zqs - 1 })
      else if 0 < k.refNow then { k with refNow := k.refNow - 1 }
      else { k with refs := k.refs - 1 }))
  showPostponed ch s1

/-- An urgent read waits in a channel. -/
def MemX.urgentWaits (x : MemX) : Bool := x.reads.any (·.urgent)

/-- While an urgent read waits, due REFs and ZQCS of a rank are postponed, up to four (R412, R413). -/
def MemRank.postpone (k : MemRank) : MemRank :=
  let r := min k.refNow (4 - k.refs)
  let z := min k.zqNow (4 - k.zqs)
  { k with refs := k.refs + r, refNow := k.refNow - r, zqs := k.zqs + z, zqNow := k.zqNow - z }

/-- The same for both ranks of a channel. -/
def MemX.postpone (x : MemX) : MemX :=
  if x.urgentWaits then (x.updRank 0 MemRank.postpone).updRank 1 MemRank.postpone else x

/-- MEM_SCHEDULE: one choice of a channel (R400, R401). A replay has ended by then. -/
def execMemSchedule (ch : Nat) (s : State) : Out :=
  .next (if 4 ≤ ch ∨ s.memBlocked ch then s
  else
    let sa := memAdmit (s.memOf ch).wait.length ch (s.set F.Chan.REPLAYING (pgChan ch) 0)
    let s0 := showPostponed ch (sa.updMem ch (fun x => (sa.memDrain { x with alerts := 0 }).postpone))
    let x := s0.memOf ch
    let free := (List.range s.memRanks).filter (fun r => !(x.flight.any (fun f => f.wr && s.memBank f.burst / 8 == r)))
    match free.find? (fun r => decide (0 < (x.rank r).refNow)) with
    | some r => memMaintain ch r false s0
    | none => match free.find? (fun r => decide (0 < (x.rank r).zqNow)) with
      | some r => memMaintain ch r true s0
      | none => match s0.memChoose x with
        | some q => memIssue ch q s0
        | none =>
          if x.reads.isEmpty && x.writes.isEmpty then
            match free.find? (fun r => decide (0 < (x.rank r).refs)) with
            | some r => memMaintain ch r false s0
            | none => match free.find? (fun r => decide (0 < (x.rank r).zqs)) with
              | some r => memMaintain ch r true s0
              | none => s0
          else s0)

/-! ### Read data (R405 to R407) -/

/-- One word of a burst decoded from the lanes of its beat, its correction counted; `flips` gives for a beat the lanes that read
inverted. -/
def memWord (ch : Nat) (q : MemReq) (flips : List (Nat × Nat)) (a : State × List Nat × List Nat × Bool) (w : Nat) :
    State × List Nat × List Nat × Bool :=
  let (s, words, bad, fixed) := a
  let lanes := Nat.xor (q.beat (w / 2)) (((flips.find? (fun e => e.1 == w / 2)).map (·.2)).getD 0)
  let r := decodeRead (beatData lanes (w % 2)) (beatCheck lanes (w % 2))
  let s1 := if r.2.1 then
      (s.sat F.Chan.ECC_CE_COUNT (pgChan ch)).raise Ev.memEccCorrected (pgChan ch)
        (burstArg q.burst + r.2.2.2 * 2 ^ 16 + w * 256 + ch)
    else s
  (s1, words ++ [r.1], if r.2.2.1 then bad ++ [w] else bad, fixed || r.2.1)

/-- MEM_READ_DATA: the data of the oldest issued read of a channel returns, unless CA parity has stopped the channel (R409);
`flips` gives for a beat the DQ lanes that read inverted. A read of R404 merges and writes the whole burst back. DESIGN CHOICE: a
corrected burst is written back only while the components still hold what was read (R405, log 80). -/
def execMemReadData (ch : Nat) (flips : List (Nat × Nat)) (s : State) : Out :=
  .next (match (if s.on F.Hdr.FAULT (pgChan ch) then [] else (s.memOf ch).flight) with
    | [] => s
    | q :: qs =>
      let s0 := s.updMem ch (fun x => { x with flight := qs, idleAt := s.now })
      let (s1, words, bad, fixed) := (List.range 16).foldl (memWord ch q flips) (s0, [], [], false)
      let s2 := if bad.isEmpty then s1 else memPoison ch q.burst (if q.wr then 8 else q.cls) bad s1
      let bytes := words.flatMap (fun w => (leBytes 4 w).map (·.toNat))
      if q.wr then
        let whole : MemReq := { q with
          mask := 2 ^ 64 - 1
          data := (List.range 64).map (fun i => if bitAt q.mask i then q.data.getD i 0 else bytes.getD i 0) }
        let left := bad.filter (fun w => bits q.mask (4 * w) 4 != 15)
        let s3 := memStore whole [] s2
        { s3 with memBad := s3.memBad ++ left.map (q.burst / 4 + ·) }.updMem ch (fun x => x.issue 1 q.burst s.now q.seq)
      else
        let s3 := { s2 with resp := if bad.isEmpty then .data (leNat (bytes.map (BitVec.ofNat 8))) else poisonedResp q.cls }
        if fixed && bad.isEmpty && s.on F.Mem.WB_CORRECTED pgMem &&
            !((s3.memOf ch).underway.any (fun w => w.burst == q.burst)) && (s.asRead q).got == q.got then
          memEnqueue ch { burst := q.burst, cls := 9, wr := true, mask := 2 ^ 64 - 1, data := bytes } s3
        else s3)

/-! ### CA parity (R408, R409) -/

/-- ALERT_N_LOW: the replay reissues the reads whose data is still out and the writes of the last 40 mclk, whose banks it
opens again; the fourth consecutive alert stops the channel. -/
def execAlertNLow (ch : Nat) (s : State) : Out :=
  .next (if 4 ≤ ch ∨ s.on F.Hdr.FAULT (pgChan ch) then s
  else
    let pg := pgChan ch
    let x := s.memOf ch
    let s0 := if s.get F.Chan.POWER pg = 3 then memPower ch 0 s else s
    if x.alerts = 3 then
      ((s0.set F.Hdr.FAULT pg 1).updMem ch (fun x => { x with alerts := 4, rows := [] })).raise Ev.memCaParityFail pg ch
    else
      let recent := x.cmds.filter (fun c => c.kind == 1 && decide (s.mclkSince c.issued ≤ 40))
      let again := x.cmds.filter (fun c => (c.kind == 0 && x.flight.any (fun f => f.seq == c.req)) ||
        (c.kind == 1 && decide (s.mclkSince c.issued ≤ 40)))
      let s1 := s0.updMem ch (fun x =>
        again.foldl (fun y c => (s.openRow c.arg y).issue c.kind c.arg s.now c.req) { x with alerts := x.alerts + 1, rows := [] })
      let s2 := (s1.set F.Chan.REPLAYING pg 1).sat F.Chan.CA_RETRIES pg
      s2.raise Ev.memCaParityRetry pg
        (arg64 (s2.get F.Chan.CA_RETRIES pg) ((min 255 (x.flight.length + recent.length)) * 256 + ch)))

/-! ### Refresh and temperature (R410 to R413) -/

/-- tREFI in ns (Table 12-4). -/
def State.refInterval (s : State) (ch : Nat) : Nat := if s.get F.Chan.BAND (pgChan ch) = 0 then 7800 else 3900

/-- REFRESH_DUE: tREFI of a rank is over (R412); the ranks of a channel are half a tREFI apart, and a new band's interval runs
from the next REF (R410). -/
def execRefreshDue (ch rank : Nat) (s : State) : Out :=
  .next (if 4 ≤ ch ∨ s.memRanks ≤ rank ∨ s.ready (pgChan ch) = false ∨ s.get F.Chan.POWER (pgChan ch) = 2 then s
  else
    let x := s.memOf ch
    let k := x.rank rank
    let o := x.rank (1 - rank)
    let due : Option Nat := match k.refAt, o.refAt with
      | some a, _ => if a + k.interval ≤ s.now then some (a + k.interval) else none
      | none, some b => if b + o.interval / 2 ≤ s.now then some (b + o.interval / 2) else none
      | none, none => some s.now
    match due with
    | none => s
    | some a =>
      let s1 := s.updMem ch (fun x => x.updRank rank (fun k => { k with
        refAt := some a, interval := s.refInterval ch, refNow := k.refNow + 1 }))
      if s.get F.Chan.POWER (pgChan ch) = 1 then memPower ch 0 s1 else s1)

/-- ZQ_DUE: ZQ_PERIOD is over (R413). -/
def execZqDue (ch : Nat) (s : State) : Out :=
  .next (if 4 ≤ ch ∨ s.get F.Mem.ZQ_PERIOD pgMem = 0 ∨ s.ready (pgChan ch) = false ∨ s.get F.Chan.POWER (pgChan ch) = 2 ∨
      s.now < (s.memOf ch).zqAt + s.get F.Mem.ZQ_PERIOD pgMem * 1000000 then s
  else
    let s1 := s.updMem ch (fun x => (List.range s.memRanks).foldl (fun y r => y.updRank r (fun k => { k with
      zqNow := k.zqNow + 1 })) { x with zqAt := s.now })
    if s.get F.Chan.POWER (pgChan ch) = 1 then memPower ch 0 s1 else s1)

/-- A channel takes a refresh band (R410). -/
def memBand (ch b : Nat) (s : State) : State :=
  let pg := pgChan ch
  let old := s.get F.Chan.BAND pg
  let temp := unsext 32 (sext 16 (s.get F.Chan.CH_TEMP pg))
  if b = old then s
  else
    let s1 := (s.set F.Chan.BAND pg b).raise Ev.memRefreshBand pg (arg64 temp (b * 256 + ch))
    if b = 2 ∨ old = 2 then s1.raise Ev.memOvertemp pg (arg64 temp (bit (b == 2) * 256 + ch)) else s1

/-- The band for a temperature in 1/16 °C and the present band (Table 12-4). DEDUCED: at exactly 2 °C below its lower edge a band
still stands; Table 3-5 has it left below 93 °C (log 80). -/
def bandFor (t : Int) (b : Nat) : Nat :=
  if t > 1520 ∨ (b = 2 ∧ t ≥ 1488) then 2 else if t > 1360 ∨ (1 ≤ b ∧ t ≥ 1328) then 1 else 0

/-- A housekeeping reading reaches a channel. -/
def memTemperature (ch : Nat) (t : Int) (s : State) : State :=
  let pg := pgChan ch
  let s1 := ((s.set F.Chan.CH_TEMP pg (unsext 16 t)).set F.Chan.TEMP_VALID pg 1).updMem ch (fun x => { x with tempAt := s.now })
  memBand ch (bandFor t (s.get F.Chan.BAND pg)) s1

/-- TEMP_SRC has become 0xFF: the channel refreshes in band 1 (R411). -/
def memNoSource (ch : Nat) (s : State) : State := memBand ch 1 (s.set F.Chan.TEMP_VALID (pgChan ch) 0)

/-- MEM_TEMP_STALE: no reading for 12 ms (R411). -/
def execMemTempStale (ch : Nat) (s : State) : Out :=
  .next (if ch < 4 ∧ s.on F.Chan.TEMP_VALID (pgChan ch) ∧ (s.memOf ch).tempAt + 12000000 ≤ s.now then
    (memNoSource ch s).raise Ev.memTempStale (pgChan ch) (s.get F.Chan.TEMP_SRC (pgChan ch) * 256 + ch)
  else s)

/-! ### Idle channels -/

/-- No request is queued or in flight. -/
def MemX.idle (x : MemX) : Bool := x.wait.isEmpty && x.reads.isEmpty && x.writes.isEmpty && x.flight.isEmpty

/-- POWER_DOWN_ENTRY (R415). -/
def execPowerDownEntry (ch : Nat) (s : State) : Out :=
  .next (if ch < 4 ∧ s.memBlocked ch = false ∧ s.get F.Chan.POWER (pgChan ch) = 0 ∧ s.on F.Mem.PD_EN pgMem ∧ (s.memOf ch).idle ∧
      1 ≤ s.minLatTol.1 ∧ s.get F.Mem.PD_IDLE pgMem * 8 ≤ s.mclkSince (s.memOf ch).idleAt then memPower ch 1 s
  else s)

/-- PREA and every postponed REF, as the entry to self-refresh does. -/
def srEntry (ch : Nat) (s : State) : State :=
  issueAllRefs ch (s.updMem ch (fun x => { x.issue 6 0 s.now with rows := [] }))

/-- SRE issued, on a channel that is not in self-refresh (R417). -/
def srIssue (ch : Nat) (s : State) : State :=
  if s.get F.Chan.POWER (pgChan ch) = 2 then s
  else memPower ch 2 ((s.updMem ch (fun x => x.issue 7 0 s.now)).wrap F.Chan.SR_ENTRIES (pgChan ch))

/-- SELF_REFRESH_ENTRY: the entry begins, and the same command again is its SRE (R416, R417). -/
def execSelfRefreshEntry (ch : Nat) (s : State) : Out :=
  .next (if ch < 4 then
    if s.get F.Chan.POWER (pgChan ch) = 3 then memLatencyWake (srIssue ch s)
    else if s.memBlocked ch = false ∧ s.on F.Mem.SR_EN pgMem ∧ (s.memOf ch).idle ∧ s.srTheta < s.minLatTol.1 ∧
        (s.memOf ch).idleAt + s.get F.Mem.SR_IDLE pgMem * 1000 ≤ s.now then memPower ch 3 (srEntry ch s)
    else s
  else s)

/-! ### Frequency points and training (R418 to R423) -/

/-- MEM_FREQ_STATUS.STATE. -/
def State.memState (s : State) : Nat :=
  if s.memc.chg.isSome then 2
  else if s.memc.pend.isSome then 1
  else if (List.range 4).any (fun ch => (s.memOf ch).train != 0) then 3
  else 0

/-- A training pass or check runs on some channel. -/
def State.memTraining (s : State) : Bool := (List.range 4).any (fun ch => (s.memOf ch).train != 0)

/-- A firing port is in FILLING, ARMED, RUNNING or STOPPING. -/
def State.pressRunning (s : State) : Bool :=
  (List.range Config.ports).any (fun p => decide (2 ≤ s.runState p) && decide (s.runState p ≤ 5))

/-- Training starts on a channel: 1 a check, 2 a full pass, whose first step is a ZQCL on each rank (R419, R420). -/
def trainStart (ch kind point : Nat) (auto : Bool) (s : State) : State :=
  let zqcl := fun (x : MemX) => if kind = 2 then
      { (List.range s.memRanks).foldl (fun x r => x.issue 9 r s.now) x with steps := [] } else x
  (((s.updMem ch (fun x => { zqcl x with train := kind, auto := auto, fullRan := kind == 2 })).set F.Chan.TRAIN_STATUS_STATE
    (pgChan ch) 1).set F.Chan.POINT (pgChan ch) point).set F.Chan.FAIL_STEP (pgChan ch) 0

/-- A check where the point has valid results, else a full pass (R420). -/
def trainAuto (ch point : Nat) (s : State) : State :=
  trainStart ch (if (s.memOf ch).valid.contains point then 1 else 2) point true s

/-- The queued reads of a channel that a queued write waits for, issued before it (R403). -/
def State.readsAhead (s : State) (x : MemX) : MemX :=
  let ahead := fun (r : MemReq) => x.writes.any (fun w => w.burst == r.burst && decide (r.seq < w.seq))
  { x with reads := x.reads.filter (fun r => !ahead r), flight := x.flight ++ (x.reads.filter ahead).map s.asRead }

/-- Queued writes of a channel written, oldest first: the reads ahead of them have their RD before, and a merge reads its burst
(R403, R404). -/
def memFlush (ch : Nat) (s : State) : State :=
  let s1 := forAll (s.memOf ch).writes (s.updMem ch s.readsAhead) (memMerge ch)
  s1.updMem ch (fun x => { x with writes := [], drain := false })

/-- A channel leaves self-refresh in a frequency change, and writes MR0, MR2, MR5 and MR6 for the new point (R422). -/
def freqExit (ch : Nat) (s : State) : State :=
  [0, 2, 5, 6].foldl (fun s r => s.updMem ch (fun x => x.issue 10 r s.now)) (srExit ch s)

/-- A change begins: queued writes complete, the channels enter self-refresh, the PLL relocks, they leave it at the new point and
train (R422). The relock is no command of the table: its steps come at once (log 80). -/
def freqStart (point : Nat) (s : State) : State :=
  let s1 := forAll [0, 1, 2, 3] s (fun ch s => srIssue ch (srEntry ch (memFlush ch s)))
  let s2 := forAll [0, 1, 2, 3] s1 (fun ch s => trainAuto ch point (freqExit ch s))
  { s2 with memc := ⟨none, some point⟩ }

/-- A refused request (R421). -/
def retuneRefused (point : Nat) (training : Bool) (reason : Nat) (s : State) : State :=
  s.raise Ev.memRetuneRefused pgMem (point * 2 ^ 16 + bit training * 2 ^ 12 + reason)

/-- A change requested to a point (R421, R423). -/
def freqRequest (point : Nat) (s : State) : State :=
  if s.pressRunning then retuneRefused point false 1 s
  else if point = 3 then retuneRefused point false 2 s
  else if s.memc.pend.isSome ∨ s.memc.chg.isSome then retuneRefused point false 3 s
  else if s.memTraining then { s with memc := { s.memc with pend := some point } }
  else freqStart point s

/-- MEM_FREQ_GO: a write of MEM_FREQ with GO 1 and a REQ_POINT, which is stored unless it is reserved (R10, R421). -/
def execMemFreqGo (point owner : Nat) (s : State) : Out :=
  .next (gateReg pgMem 0x48 (low 2 point * 2 ^ 16 + 1) owner
    (fun s => freqRequest (low 2 point) (if low 2 point = 3 then s else s.set F.Mem.REQ_POINT pgMem point)) s)

/-- A training request for all channels at the present point (R421). -/
def trainRequest (kind : Nat) (s : State) : State :=
  let p := s.get F.Mem.REQ_POINT pgMem
  if s.pressRunning then retuneRefused p true 1 s
  else if s.memc.pend.isSome ∨ s.memc.chg.isSome ∨ s.memTraining then retuneRefused p true 3 s
  else forAll [0, 1, 2, 3] s (trainStart · kind (s.get F.Mem.POINT pgMem) false)

/-- TRAIN_FULL (R421). -/
def execTrainFull (owner : Nat) (s : State) : Out := .next (gateReg pgMem 0x60 2 owner (trainRequest 2) s)

/-- TRAIN_CHECK (R421). -/
def execTrainCheck (owner : Nat) (s : State) : Out := .next (gateReg pgMem 0x60 1 owner (trainRequest 1) s)

/-- TRAINED shows whether the results at the present point are valid. -/
def showTrained (ch : Nat) (s : State) : State :=
  s.set F.Chan.TRAINED (pgChan ch) (bit ((s.memOf ch).valid.contains (s.get F.Mem.POINT pgMem)))

/-- A pending change starts when no channel trains any more, unless a port runs by now (R423). -/
def pendingChange (s : State) : State :=
  match s.memc.pend with
  | none => s
  | some p =>
    if s.memTraining then s
    else
      let s1 := { s with memc := ⟨none, none⟩ }
      if s.pressRunning then retuneRefused p false 1 s1 else freqStart p s1

/-- The results of a point go to the retained store: one byte for each channel, 1 where they are valid (R420, R563). -/
def memSave (point : Nat) (s : State) : State :=
  if s.journalOpen then
    journalAsk ⟨4, point, (List.range 4).map (fun ch => BitVec.ofNat 8 (bit ((s.memOf ch).valid.contains point)))⟩ s
  else s

/-- A step of R419 and a byte lane in which training can fail: a check has no step of its own. -/
def MemX.mayFail (x : MemX) (step lane : Nat) : Bool :=
  decide (lane < 10) && (if x.train = 2 then decide (1 ≤ step) && decide (step ≤ 6) else step == 0)

/-- TRAINING_END: the pass or check of a channel passes, or fails in a step on a byte lane (R419, R420). -/
def execTrainingEnd (ch : Nat) (ok : Bool) (step lane : Nat) (s : State) : Out :=
  .next (if 4 ≤ ch ∨ (s.memOf ch).train = 0 ∨ (ok = false ∧ (s.memOf ch).mayFail step lane = false) then s
  else
    let x := s.memOf ch
    let pg := pgChan ch
    let point := s.get F.Chan.POINT pg
    if ok then
      let s1 := s.updMem ch (fun x => { x with
        train := 0
        ok := true
        steps := if x.train = 2 then [1, 2, 3, 4, 5, 6] else x.steps
        valid := if x.train = 2 ∧ !x.valid.contains point then x.valid ++ [point] else x.valid })
      let s2 := if x.train = 2 then memSave point s1 else s1
      pendingChange (showTrained ch (s2.set F.Chan.TRAIN_STATUS_STATE pg 2))
    else if x.train = 1 ∧ x.auto then trainStart ch 2 point true s
    else
      let s1 := s.updMem ch (fun x => { x with
        train := 0
        ok := false
        steps := if x.train = 2 then [1, 2, 3, 4, 5, 6].filter (fun k => decide (k < step)) else x.steps
        valid := x.valid.filter (· != point) })
      let s2 := ((s1.set F.Chan.TRAIN_STATUS_STATE pg 3).set F.Chan.FAIL_STEP pg step).set F.Chan.FAIL_LANE pg lane
      let s3 := (showTrained ch s2).set F.Hdr.READY pg 0
      pendingChange (s3.raise Ev.memTrainFail pg (point * 2 ^ 16 + low 8 step * 256 + low 4 lane * 16 + ch)))

/-- FREQ_DONE: all channels have trained at the new point (R422). -/
def execFreqDone (s : State) : Out :=
  .next (match s.memc.chg with
    | none => s
    | some p =>
      if s.memTraining then s
      else
        let full := (List.range 4).any (fun ch => (s.memOf ch).fullRan)
        let s1 := { s.set F.Mem.POINT pgMem p with memc := ⟨none, none⟩ }
        let s2 := forAll [0, 1, 2, 3] s1 (fun ch s => showTrained ch (s.updMem ch (fun x => { x with idleAt := s.now })))
        s2.raise Ev.memFreqDone pgMem (p * 2 ^ 16 + bit full * 256))

/-! ### READY and function reset -/

/-- The valid results that the retained store holds come back (R420). -/
def memRecall (s : State) : State :=
  forAll [0, 1, 2, 3] s (fun ch s =>
    let held := (List.range 3).filter (fun p => match s.stored 4 p with
      | some data => data.getD ch 0 == 1
      | none => false)
    s.updMem ch (fun x => { x with valid := x.valid ++ held.filter (fun p => !x.valid.contains p) }))

/-- Memory common becomes READY: CAPACITY, and training of every channel at the present point (R420). -/
def memCommonReady (s : State) : State :=
  let s1 := memRecall (s.set F.Mem.CAPACITY pgMem (s.memCapacity / 4096))
  forAll [0, 1, 2, 3] s1 (fun ch s => if (s.memOf ch).ok then s else trainAuto ch (s.get F.Mem.POINT pgMem) s)

/-- A channel may become READY once its training has passed (R420). -/
def State.memMayReady (s : State) (ch : Nat) : Bool := (s.memOf ch).ok && (s.memOf ch).train == 0

/-- A function reset of a channel page (R409, R424): queued writes are written, reads answered as poisoned, self-refresh held;
a failed channel or one in training runs a check before READY. -/
def memDiscard (ch : Nat) (s : State) : State :=
  let x := s.memOf ch
  let merges := x.flight.filter (·.wr)
  let s1 := forAll (merges ++ x.writes) s (memMerge ch)
  let s2 := forAll (x.flight.filter (fun q => !q.wr) ++ x.reads) s1 (fun q s => { s with resp := poisonedResp q.cls })
  let s3 := s2.updMem ch (fun x => { x with
    reads := []
    writes := []
    drain := false
    flight := []
    rows := []
    cmds := []
    alerts := 0
    idleAt := s.now })
  let s4 := memPower ch 2 s3
  if s.on F.Hdr.FAULT (pgChan ch) ∨ x.train ≠ 0 then trainAuto ch (s.get F.Mem.POINT pgMem) s4 else s4

/-- A channel is READY: without a temperature sensor it refreshes in band 1 (R411), and requests that have waited wake it
(R124). -/
def memChanReady (ch : Nat) (s : State) : State :=
  let s1 := if s.get F.Chan.TEMP_SRC (pgChan ch) = 0xFF then memNoSource ch s else s
  let x := s1.memOf ch
  if (x.wait ++ x.reads ++ x.writes).isEmpty then s1 else memWake ch s1

/-- Fields of memory common that are computed (R414, R421). -/
def State.viewMem (s : State) (f : Fld) : Option Nat :=
  if f == F.Mem.VALUE then some s.minLatTol.1
  else if f == F.Mem.PORT then some s.minLatTol.2
  else if f == F.Mem.MEM_FREQ_STATUS_STATE then some s.memState
  else none

end Sys2Proof.Machine
end

