-- ==== Sys2Proof/Machine/Stacks.lean ====
section
/-! DEFINITION. The Reading Room's words and their scrubber, and the Stacks Bus with its arbiter and watchdog (R428 to R441). -/

namespace Sys2Proof.Machine

def pgStk : Nat := 0x086

/-- xclk cycles since power-on, at 1.2 GHz. -/
def State.xclk (s : State) : Nat := s.now * 6 / 5

/-! ### SRAM words -/

/-- The syndrome of a codeword that differs from a stored one in some bits; the code is linear (R20, R397). -/
def errSyndrome (e : Nat) : Nat := Nat.xor (checkBits (low 32 e)) (bits e 32 7)

/-- A syndrome stands for a single-bit error. -/
def singleBit (syn : Nat) : Bool := popcount syn == 1 || hColumns.contains syn

/-- The bits in which a stored word of a die differs, with a new upset. -/
def sramUpset (die word upset : Nat) (s : State) : State :=
  let k := die * 2 ^ 23 + word
  { s with sramErr := tputD s.sramErr k (Nat.xor (tget s.sramErr k 0) (low 39 upset)) 0 }

/-- The error of a stored word. -/
def State.sramErrAt (s : State) (die word : Nat) : Nat := tget s.sramErr (die * 2 ^ 23 + word) 0

/-- A single-bit error of a word counted (R429). -/
def sramCorrected (die word syn : Nat) (s : State) : State :=
  let s1 := s.satI F.Sram.CE_COUNT pgSram die 1
  s1.raiseX Ev.stkSramCorrected pgSram
    (arg64 (s1.getI F.Sram.CE_COUNT pgSram die) (die * 2 ^ 30 + syn * 2 ^ 23 + low 23 word)) die Ev.stkSramCorrected.sev false

/-- Words of a die: 32 MiB on the hub, 16 MiB on a raster die. -/
def dieWords (die : Nat) : Nat := if die = 0 then 2 ^ 23 else 2 ^ 22

/-- SCRUB_READ: the scrubber of a die reads its next codeword, in which `upset` gives bits that have flipped since the last
read (R431 to R433). -/
def execScrubRead (die upset : Nat) (s : State) : Out :=
  let x := tget s.scrub die {}
  let due : Bool := match x.last with
    | some t => decide (t + (if die = 0 then 256 else 512) ≤ s.xclk)
    | none => true
  .next (if 3 ≤ die ∨ s.ready pgSram = false ∨ s.on F.Sram.SCRUB_EN pgSram = false ∨ s.get F.Mode.MODE pgMode = 0 ∨ due = false then s
  else
    let s1 := sramUpset die x.word upset s
    let e := s1.sramErrAt die x.word
    let syn := errSyndrome e
    let s2 :=
      if e = 0 ∨ syn = 0 then s1
      else if singleBit syn then
        sramCorrected die x.word syn { s1 with sramErr := tdel s1.sramErr (die * 2 ^ 23 + x.word) }
      else sramBad die 1 x.word s1
    let last := x.word + 1 = dieWords die
    let s3 := { s2 with scrub := tput s2.scrub die { word := if last then 0 else x.word + 1, last := some s.xclk } }
    if last then s3.wrapI F.Sram.SCRUB_PASSES pgSram die 1 else s3)

/-! ### The Stacks Bus -/

def State.updStack (s : State) (f : StackX → StackX) : State := { s with stack := f s.stack }
def StackX.req (x : StackX) (i : Nat) : Option StackReq := tfind x.reqs i

/-- The requester class of R427 for a Stacks Bus requester. -/
def stackClass (i : Nat) : Nat :=
  if i = 0 then 0 else if 4 ≤ i ∧ i ≤ 7 then 4 else if i = 8 ∨ i = 9 then 7 else if i = 10 then 6 else 9

/-- What a requester receives for a read that ends with an error (R441). -/
def stackError (i : Nat) : Resp := if i = 0 then .busError else .poisoned

/-- The requester takes poisoned bytes as 0xFF: the hub's own units but the deflate engines and the tracker; over a die-to-die
link the data goes on with its poison mark (R430, R441, Table 12-3). -/
def stackMarks (i : Nat) : Bool := (stackClass i == 7 || stackClass i == 9) && !(i == 1 || i == 2)

/-- A tenure granted to a requester, its first beat at an xclk count; its wait is counted from its arrival to its first beat
ever (R437, R438, Table 13-6). -/
def stackGrant (i first : Nat) (s : State) : State :=
  match s.stack.req i with
  | none => s
  | some q =>
    let n := min (s.get F.Stk.TENURE_MAX pgStk) (q.beats - q.done)
    let wait := min (first - q.arrived) 0xFFFF
    let s1 := if q.done = 0 ∧ s.getI F.Stk.WAIT_MAX pgStk i < wait then s.setI F.Stk.WAIT_MAX pgStk i wait else s
    s1.updStack (fun x => { x with owner := some i, first := first, len := n })

/-- The waiting request with the smallest stamp, the lowest index among equals (R437). -/
def State.stackOldest (s : State) : Option Nat :=
  (s.stack.reqs.foldl (fun (a : Option (Nat × Nat)) e => match a with
    | some o => if e.2.stamp < o.2 then some (e.1, e.2.stamp) else a
    | none => some (e.1, e.2.stamp)) none).map (·.1)

/-- The bus is free: the next tenure is granted, if a request waits. While page 0x086 is not READY requests wait (R124). -/
def stackArbitrate (first : Nat) (s : State) : State :=
  let s1 := s.updStack (fun x => { x with owner := none, len := 0 })
  match (if s.ready pgStk then s1.stackOldest else none) with
  | some i => stackGrant i first s1
  | none => s1

/-- A word of the Reading Room read over the bus with its error: the data, and whether it is uncorrectable (R429, R430). -/
def roomRead (word : Nat) (s : State) : State × Nat × Bool :=
  let data := leNat ((List.range 4).map (fun i => s.roomByte (4 * word + i)))
  let e := s.sramErrAt 0 word
  let syn := errSyndrome e
  if e = 0 then (s, data, false)
  else if syn = 0 then (s, Nat.xor data (low 32 e), false)
  else if singleBit syn then
    let r := Nat.xor data (low 32 e)
    let fixed := match hColumns.findIdx? (· == syn) with
      | some j => Nat.xor r (2 ^ j)
      | none => r
    (sramCorrected 0 word syn s, fixed, false)
  else (sramBad 0 0 word s, Nat.xor data (low 32 e), true)

/-- One beat read from the Reading Room: its bytes and whether it is poisoned. -/
def roomBeat (addr : Nat) (s : State) : State × List Nat × Bool :=
  let r := (List.range 16).foldl (fun (a : State × List Nat × Bool) i =>
    let w := roomRead (addr / 4 + i) a.1
    (w.1, a.2.1 ++ [w.2.1], a.2.2 || w.2.2)) (s, [], false)
  (r.1, r.2.1.flatMap (fun w => (leBytes 4 w).map (·.toNat)), r.2.2)

/-- One beat read from SDRAM through the fabric bridge (R406). -/
def sdramBeat (i addr : Nat) (s : State) : State × List Nat × Bool :=
  (burstRead (stackClass i) addr s, (s.sdramBytes addr 64).map (·.toNat), !(s.poisonIn addr 64).isEmpty)

/-- Beat `k` of a request transferred (R435). -/
def stackBeat (i k : Nat) (s : State) : State :=
  match s.stack.req i with
  | none => s
  | some q =>
    let a := q.addr + 64 * k
    let s0 := s.wrapI F.Stk.BEATS pgStk 0 1
    if q.wr then
      let bs := (List.range 64).map (fun j => BitVec.ofNat 8 (q.data.getD (64 * k + j) 0))
      let s1 := if q.sdram then sdramWrite (stackClass i) a bs s0 else roomWrite a bs s0
      s1.updStack (fun x => { x with reqs := tput x.reqs i { q with done := k + 1 } })
    else
      let r := if q.sdram then sdramBeat i a s0 else roomBeat a s0
      let bytes := if r.2.2 && stackMarks i then List.replicate 64 255 else r.2.1
      r.1.updStack (fun x => { x with
        reqs := tput x.reqs i { q with done := k + 1, got := q.got ++ bytes, poisoned := q.poisoned || r.2.2 } })

/-- The page of a requester is quiesced, and issues no new request (R117). -/
def State.stackQuiet (s : State) (i : Nat) : Bool := (stackPage i).any (s.on F.Hdr.QUIESCE)

/-- STACKS_REQUEST: a request reaches the wires of its requester, which presents at most one; a held-off requester's wires are
ignored (R434, R437, R440). SDRAM beyond the capacity is not reached (R399). While page 0x086 is not READY the request waits
(R124). -/
def execStacksRequest (i : Nat) (sdram : Bool) (addr : Nat) (wr : Bool) (beats : Nat) (data : List Nat) (s : State) : Out :=
  .next (if 16 ≤ i ∨ s.stackQuiet i ∨ (s.stack.req i).isSome ∨ bitAt (s.get F.Stk.WD_MASKED pgStk) i ∨ addr % 64 ≠ 0 ∨
      beats = 0 ∨ 64 < beats ∨ (sdram = false ∧ 2 ^ 25 < addr + 64 * beats) then s
  else if sdram ∧ s.memCapacity < addr + 64 * beats then
    { rangeError (stackClass i) addr wr s with
      resp := if wr then .none else if stackMarks i then .data (2 ^ (512 * beats) - 1) else stackError i }
  else
    let t := s.xclk
    let s1 := s.updStack (fun x => { x with
      reqs := tput x.reqs i { sdram := sdram, addr := addr, wr := wr, beats := beats, data := data, arrived := t, stamp := t } })
    if s.stack.owner.isNone ∧ s.ready pgStk then stackGrant i (t + 3) s1 else s1)

/-- Page 0x086 is READY: requests that have waited are granted. -/
def stackReady (s : State) : State := if s.stack.owner.isNone then stackArbitrate (s.xclk + 3) s else s

/-- A request is over: its requester has its data, with a bus error or the poison mark where a burst of it is poisoned. -/
def stackFinish (i : Nat) (s : State) : State :=
  match s.stack.req i with
  | none => s
  | some q =>
    let resp : Resp :=
      if q.wr then .none
      else if q.poisoned && !stackMarks i then stackError i
      else .data (leNat (q.got.map (BitVec.ofNat 8)))
    { s.updStack (fun x => { x with reqs := tdel x.reqs i }) with resp := resp }

/-- STACKS_TENURE_END: the owner's tenure has had its last beat (R435 to R438), which waits while an SDRAM channel serves nothing
(R124); `upsets` gives bits of Reading Room words that have flipped since they were last read. -/
def execStacksTenureEnd (upsets : List (Nat × Nat)) (s : State) : Out :=
  .next (match s.stack.owner with
    | none => s
    | some i =>
      match s.stack.req i with
      | none => s
      | some q =>
        let x := s.stack
        if s.xclk + 1 < x.first + x.len ∨ (q.sdram ∧ s.sdramHeld (q.addr + 64 * q.done) (64 * x.len)) then s
        else
          let s0 := forAll upsets s (fun e s => sramUpset 0 (low 23 e.1) e.2 s)
          let s1 := forAll (List.range x.len) s0 (fun k s => stackBeat i (q.done + k) s)
          let next := s.xclk + 1
          if q.beats ≤ q.done + x.len then stackArbitrate next (stackFinish i s1)
          else
            let s2 := s1.updStack (fun x => { x with reqs := x.reqs.map (fun e =>
              if e.1 = i then (e.1, { e.2 with stamp := s.xclk }) else e) })
            let s3 := if s2.stackOldest == some i then s2 else s2.sat F.Stk.PREEMPTIONS pgStk
            stackArbitrate next s3)

/-- A request ends without its remaining beats: a read receives its error, a write stays as far as it went (R441). -/
def stackAbort (i : Nat) (s : State) : State :=
  match s.stack.req i with
  | none => s
  | some q =>
    let s1 := s.updStack (fun x => { x with reqs := tdel x.reqs i })
    if q.wr then s1 else { s1 with resp := stackError i }

/-- STACKS_WATCHDOG: the owner has transferred `moved` beats of its tenure and then none for WD_LIMIT (R440, R441). -/
def execStacksWatchdog (moved : Nat) (s : State) : Out :=
  .next (match s.stack.owner with
    | none => s
    | some i =>
      match s.stack.req i with
      | none => s
      | some q =>
        let x := s.stack
        if x.len ≤ moved ∨ s.xclk < x.first + (moved - 1) + s.get F.Stk.WD_LIMIT pgStk * 1200 then s
        else
          let s1 := forAll (List.range moved) s (fun k s => stackBeat i (q.done + k) s)
          let s2 := s1.sat F.Stk.WD_BITES pgStk
          let s3 := s2.raise Ev.stkWatchdog pgStk (s2.get F.Stk.WD_BITES pgStk * 2 ^ 32 + (q.done + moved) * 2 ^ 16 +
            (stackPage i).getD 0xFF * 256 + i)
          let s4 := match stackPage i with
            | some _ => s3.set F.Stk.WD_MASKED pgStk (setBit (s3.get F.Stk.WD_MASKED pgStk) i)
            | none => s3
          let s5 := stackArbitrate (s.xclk + 3) (stackAbort i s4)
          match stackPage i with
          | some pg => stackReset pg s5
          | none => s5)
where
  /-- A function reset of a page sent over the control ring (R42, R441). -/
  stackReset (pg : Nat) (s : State) : State :=
    let r : RingReq := { who := 2, op := 4, page := pg, word := 0, joined := if (s.bndOf pg).resetting then [pg] else [] }
    match s.ring.onRing with
    | none => { s with ring := { s.ring with onRing := some r, resent := false } }
    | some _ => { s with ring := { s.ring with waiting := s.ring.waiting ++ [r] } }

/-- A page is READY again: the watchdog no longer holds its requesters off (R441). -/
def stackUnmask (pg : Nat) (s : State) : State :=
  forAll (List.range 16) s (fun i s =>
    if stackPage i == some pg then s.set F.Stk.WD_MASKED pgStk (clearBit (s.get F.Stk.WD_MASKED pgStk) i) else s)

/-- A function reset of a requester's page retires its request and takes the grant away (R119, Table 13-4). -/
def stackRetire (pg : Nat) (s : State) : State :=
  forAll (List.range 16) s (fun i s =>
    if stackPage i == some pg then
      let s1 := s.updStack (fun x => { x with reqs := tdel x.reqs i })
      if s.stack.owner == some i then stackArbitrate (s.xclk + 3) s1 else s1
    else s)

/-- A function reset of page 0x086: every request in progress ends with its error (Table 13-4). -/
def stackDiscard (s : State) : State :=
  let s1 := forAll s.stack.reqs s (fun e s => stackAbort e.1 s)
  s1.updStack (fun _ => {})

/-- A function reset of page 0x085: every pass starts again at word 0 (R433). -/
def scrubDiscard (s : State) : State := { s with scrub := [] }

/-- Fields of page 0x086 that are computed. -/
def State.viewStk (s : State) (f : Fld) : Option Nat :=
  let owner := s.stack.owner
  if f == F.Stk.OWNED then some (bit owner.isSome)
  else if f == F.Stk.OWNER then some (owner.getD 0)
  else if f == F.Stk.PROGRESS then some (low 6 ((owner.bind s.stack.req).map (·.done) |>.getD 0))
  else none

end Sys2Proof.Machine
end

