-- ==== Sys2Proof/Machine/Ptp.lean ====
section
/-! DEFINITION. The ordinary clock: masters, exchanges, qualification, the servo and holdover (R463 to R465, R470 to R477). -/

namespace Sys2Proof.Machine

/-- 2^l seconds in ns. -/
def logNs (l : Int) : Nat := if 0 ≤ l then nsPerSec * 2 ^ l.toNat else nsPerSec / 2 ^ (-l).toNat

/-- The part's MAC address and clockIdentity (R482). -/
def State.macAddr (s : State) : Nat := 0x024B44000000 + s.net.sys
def State.clockId (s : State) : Nat := 0x024B44FFFE000000 + s.net.sys

/-- TIME_STATUS.SERVO: 0 FREE_RUN, 1 QUALIFYING, 2 TRACKING, 3 LOCKED, 4 HOLDOVER (Table 14-6). -/
def State.servo (s : State) : Nat := s.get F.Ptp.SERVO pgPtp
def setServo (v : Nat) (s : State) : State := s.set F.Ptp.SERVO pgPtp v

/-- A signed value into a 32-bit register; where it does not fit, the spec does not say what the register shows. -/
def putFit (f : Fld) (lo hi v : Int) (s : State) : State :=
  if lo ≤ v ∧ v ≤ hi then s.set f pgPtp (unsext 32 v)
  else
    let a := s.free
    a.2.set f pgPtp a.1

/-- T of a stamp in 1/4 tsclk by an epoch, in 2^-16 ns; how the fraction is rounded is not stated. -/
def stampTime (e : Epoch) (q : Int) : Int :=
  Config.roundReal (((e.t : Rat) + ((q : Rat) - 4 * e.c) * e.rate / 4) / 2 ^ 24)

/-- The present epoch, and that of the count of a stamp (Table 14-7). -/
def State.epochNow (s : State) : Epoch := ⟨s.ptp.epochC, s.ptp.epochT, s.rate, false⟩
def State.epochOf (s : State) (q : Int) : Epoch := (s.epochFor (q / 4).toNat).getD ⟨0, 0, 2 ^ 41, false⟩

/-! ### Loss of master and selection (R463, R475) -/

/-- PTP.HOLDOVER. -/
def holdEvent (begins : Bool) (cause : Nat) (s : State) : State := s.raise Ev.ptpHoldover pgPtp (bit begins * 256 + cause)

/-- Loss of master: from TRACKING or LOCKED the clock enters HOLDOVER at rate I (R475). -/
def ptpLoss (cause : Nat) (s : State) : State :=
  if s.servo = 2 ∨ s.servo = 3 then
    let s1 := (setServo 4 (setRate s.ptp.rateI s)).updPtp (fun x => { x with hold := some cause, exch := [] })
    holdEvent true cause s1
  else s

/-- A foreign master comes before another in the comparison of clause 9.3. -/
def Foreign.before (a b : Foreign) : Bool :=
  if a.gm % 2 ^ 64 = b.gm % 2 ^ 64 then
    decide (a.steps < b.steps) ||
      (a.steps == b.steps && (decide (a.src < b.src) || (a.src == b.src && decide (a.port < b.port))))
  else decide (a.gm < b.gm)

/-- The best foreign master. -/
def bestMaster (l : List Foreign) : Option Foreign :=
  l.foldl (fun a f => match a with
    | some b => if f.before b then some f else a
    | none => some f) none

/-- The state decision: a new parent, its port, and what a change does to the servo (R463, R470, R475). -/
def ptpSelect (cause : Nat) (s : State) : State :=
  let best := bestMaster s.ptp.foreign
  let old := s.ptp.parent
  let new := best.map (·.src)
  let s1 :=
    if old = new then s
    else
      let s1 := if old.isSome then ptpLoss cause s else s
      let s2 := s1.updPtp (fun x => { x with parent := new, exch := [], last := none, waiting := none })
      let s3 := s2.set2 F.Ptp.PARENT_ID_LO F.Ptp.PARENT_ID_HI pgPtp 0 (new.getD 0 / 65536)
      let s4 : State := match old, new with
        | some _, some p => s3.raise Ev.ptpMasterChange pgPtp (p / 65536)
        | _, _ => s3
      if new.isSome && s4.servo == 0 then setServo 1 s4
      else if new.isNone && s4.servo == 1 then setServo (if s4.ptp.hold.isSome then 4 else 0) s4
      else s4
  let s2 := s1.set F.Ptp.MASTER_PORT pgPtp ((best.map (·.port)).getD 0)
  match best with
  | some b => s2.set F.Ptp.UTC_OFFSET pgPtp b.utc
  | none => s2

/-- An Announce on a switch port: its master is entered or refreshed, while the table of 8 has room (R463). -/
def ptpAnnounce (f : Foreign) (s : State) : State :=
  if 255 ≤ f.steps ∨ f.src / 65536 = s.clockId then s
  else
    let same : Foreign → Bool := fun g => g.src == f.src && g.port == f.port
    let l := s.ptp.foreign
    let l1 := if l.any same then l.map (fun g => if same g then f else g) else if l.length < 8 then l ++ [f] else l
    ptpSelect 3 (s.updPtp (fun x => { x with foreign := l1 }))

/-- ANNOUNCE_RECEIVED: an Announce of the domain on switch port `port` from sourcePortIdentity `src`; `gm` holds priority1,
clockClass, accuracy, variance, priority2 and the identity of its grandmaster. -/
def execAnnounceReceived (port src gm steps utc : Nat) (logInt : Int) (s : State) : Out :=
  .next (if s.ready pgPtp ∧ (port = 1 ∨ port = 2) then
    ptpAnnounce { src := src, port := port, gm := gm, steps := steps, utc := utc, logAnn := logInt, seen := s.now, l3 := 0 } s
  else s)

/-- ANNOUNCE_TIMEOUT: foreign masters silent for ANN_TIMEOUT announce intervals are dropped (R463). -/
def execAnnounceTimeout (s : State) : Out :=
  let stale : Foreign → Bool := fun f => decide (f.seen + s.get F.Ptp.ANN_TIMEOUT pgPtp * logNs f.logAnn ≤ s.now)
  .next (if s.ready pgPtp ∧ s.ptp.foreign.any stale then
    ptpSelect 2 (s.updPtp (fun x => { x with foreign := x.foreign.filter (fun f => !stale f) }))
  else s)

/-! ### The servo (R473, R474) -/

/-- RATE and I after a sample that is applied, `dq` quarter counts after the previous Sync (R473). -/
def servoLaw (theta dq : Int) (s : State) : State :=
  let e := Config.roundReal ((theta * 2 ^ 26 : Int) / (dq : Rat))
  let lim : Int := Config.roundReal ((s.get F.Ptp.SLEW_MAX pgPtp : Rat) * 2 ^ 41 / 1000000)
  let i := clampI rateMin rateMax ((s.ptp.rateI : Int) - (s.get F.Ptp.KI pgPtp * e) / 2 ^ 16)
  let p := clampI (-lim) lim ((s.get F.Ptp.KP pgPtp * e) / 2 ^ 8)
  setRate (clampI rateMin rateMax (i - p)).toNat (s.updPtp (fun x => { x with rateI := i.toNat }))

/-- theta in whole ns, signed and saturated to 32 bits; its rounding is not stated. -/
def thetaNs (theta : Int) : Int := clampI (-(2 ^ 31)) (2 ^ 31 - 1) (Config.roundReal ((theta : Rat) / 65536))

/-- A sample of theta in TRACKING or LOCKED (R470, R473, R474). -/
def servoSample (theta dq : Int) (s : State) : State :=
  let inTol := decide (theta.natAbs ≤ s.get F.Ptp.LOCK_TOL pgPtp * 65536)
  let far := decide (s.get F.Ptp.OUTLIER_NS pgPtp * 65536 < theta.natAbs)
  let s1 :=
    if far && decide (s.ptp.outliers < 8) then
      ((s.sat F.Ptp.OUTLIERS pgPtp).updPtp (fun x => { x with outliers := x.outliers + 1 })).raise Ev.ptpOffsetOutlier pgPtp
        (arg64 (unsext 32 (thetaNs theta)) 0)
    else
      let s1 := if far then s else s.updPtp (fun x => { x with outliers := 0 })
      if 0 < dq then servoLaw theta dq s1 else s1
  let n := if inTol then s.ptp.within + 1 else 0
  if s.servo = 3 then
    if inTol then s1 else (setServo 2 s1).updPtp (fun x => { x with within := 0 })
  else if 8 ≤ n then
    let s2 := (setServo 3 s1).updPtp (fun x => { x with within := n })
    s2.raise Ev.ptpLocked pgPtp (arg64 (s2.get F.Ptp.MPD pgPtp) 0)
  else s1.updPtp (fun x => { x with within := n })

/-- A complete Sync from the parent (R465, R470, R473). -/
def syncComplete (y : SyncX) (logInt : Int) (s : State) : State :=
  let s0 := if s.servo = 4 then (setServo 1 s).updPtp (fun x => { x with exch := [] }) else s
  let s1 := s0.updPtp (fun x => { x with
    last := some y
    used := false
    waiting := none
    syncAt := s.now
    syncLog := logInt })
  match s.ptp.mpd with
  | none => s1
  | some m =>
    let theta := y.t2 - y.master - m
    let s2 := putFit F.Ptp.THETA (-(2 ^ 31)) (2 ^ 31 - 1) theta (s1.updPtp (fun x => { x with theta := theta }))
    if s2.servo = 2 ∨ s2.servo = 3 then servoSample theta (match s.ptp.last with
      | some p => y.q - p.q
      | none => 0) s2
    else s2

/-- A Sync on a switch port (R463, R465): `t1` and `corr` in 2^-16 ns, `q` the stamp in 1/4 tsclk. -/
def ptpSync (port src seq : Nat) (two : Bool) (t1 corr q logInt : Int) (s : State) : State :=
  if s.ptp.parent = some src ∧ s.get F.Ptp.MASTER_PORT pgPtp = port then
    let t2 := stampTime (s.epochOf q) q
    if two then s.updPtp (fun x => { x with waiting := some (seq, logInt, ⟨corr, t2, q⟩) })
    else syncComplete ⟨t1 + corr, t2, q⟩ logInt s
  else s

/-- A Follow_Up completes the two-step Sync of its sequenceId (R465). -/
def ptpFollowUp (port src seq : Nat) (t1 corr : Int) (s : State) : State :=
  if s.ptp.parent = some src ∧ s.get F.Ptp.MASTER_PORT pgPtp = port then
    match s.ptp.waiting with
    | some (n, l, y) => if n = seq then syncComplete { y with master := t1 + y.master + corr } l s else s
    | none => s
  else s

/-- SYNC_RECEIVED: a Sync of the domain; of a two-step Sync `t1` is not used. -/
def execSyncReceived (port src seq : Nat) (two : Bool) (t1 corr q logInt : Int) (s : State) : Out :=
  .next (if s.ready pgPtp then ptpSync port src seq two t1 corr q logInt s else s)

/-- FOLLOW_UP_RECEIVED: a Follow_Up of the domain. -/
def execFollowUpReceived (port src seq : Nat) (t1 corr : Int) (s : State) : Out :=
  .next (if s.ready pgPtp then ptpFollowUp port src seq t1 corr s else s)

/-! ### Qualification (R471, R472) -/

/-- A value placed in order. -/
def insertInt (a : Int) : List Int → List Int
  | [] => [a]
  | b :: l => if a ≤ b then a :: b :: l else b :: insertInt a l

/-- Twice the median of some values. -/
def medianTwice (l : List Int) : Int :=
  let m := l.foldr insertInt []
  let n := m.length
  if n % 2 = 1 then 2 * m.getD (n / 2) 0 else m.getD (n / 2) 0 + m.getD (n / 2 - 1) 0

/-- The least-squares slope of t1 + c_S in ns against the counter, as a 2.40 number (R471). -/
def slope40 (l : List SyncX) : Option Int :=
  let n : Rat := l.length
  let xs := l.map (fun y => (y.q : Rat) / 4)
  let ys := l.map (fun y => (y.master : Rat) / 65536)
  let mx := xs.foldl (· + ·) 0 / n
  let my := ys.foldl (· + ·) 0 / n
  let sxx := xs.foldl (fun a x => a + (x - mx) * (x - mx)) 0
  let sxy := (xs.zip ys).foldl (fun (a : Rat) e => a + (e.1 - mx) * (e.2 - my)) 0
  if sxx = 0 then none else some (Config.roundReal (sxy / sxx * 2 ^ 40))

/-- The clock steps (R472, R480). -/
def ptpStep (i : Nat) (s : State) : State :=
  let old := s.timeNow
  let theta := s.ptp.theta
  let s1 := setEpoch s.counter ((old : Int) - theta * 2 ^ 24).toNat i true (s.updPtp (fun x => { x with rateI := i }))
  let s2 := (s1.set F.Ptp.TIME_VALID pgPtp 1).set F.Ptp.ALLOW_STEP pgPtp 0
  trigStep old (s2.raise Ev.ptpStep pgPtp (unsext 64 theta))

/-- Qualification passes: the clock steps, or keeps its rate (R472); HOLDOVER ends (R475). -/
def qualPass (l : List SyncX) (s : State) : State :=
  let s1 :=
    if s.on F.Ptp.TIME_VALID pgPtp && !s.on F.Ptp.ALLOW_STEP pgPtp then s
    else match slope40 l with
      | some i => ptpStep (clampI rateMin rateMax i).toNat s
      | none =>
        let a := s.free
        ptpStep (clampI rateMin rateMax a.1).toNat a.2
  let s2 := (setServo 2 s1).updPtp (fun x => { x with within := 0, outliers := 0, exch := [] })
  match s2.ptp.hold with
  | some c => holdEvent false c (s2.updPtp (fun x => { x with hold := none }))
  | none => s2

/-- The last QUAL_COUNT exchanges agree (R471). -/
def qualify (s : State) : State :=
  let n := s.get F.Ptp.QUAL_COUNT pgPtp
  let l := s.ptp.exch.take n
  let m := medianTwice (l.map (·.1))
  let tol := s.get F.Ptp.QUAL_TOL pgPtp * 65536
  if n ≤ l.length ∧ l.all (fun e => decide ((2 * e.1 - m).natAbs ≤ 2 * tol)) then qualPass (l.map (·.2)) s else s

/-- A Delay_Resp on a switch port: `t4` and `corr` in 2^-16 ns. It answers the last Delay_Req of the part's own port; t2 and t3
are both mapped with the present EPOCH (R465, R471). -/
def ptpDelayResp (port src req seq : Nat) (t4 corr logInt : Int) (s : State) : State :=
  if s.ptp.parent = some src ∧ s.get F.Ptp.MASTER_PORT pgPtp = port ∧ req = s.clockId * 65536 + 1 then
    match s.ptp.reqT3, s.ptp.last with
    | some (n, q3), some y =>
      if n = seq then
        let e := s.epochNow
        let d := Config.roundReal (((stampTime e y.q - stampTime e q3 + t4 - y.master - corr : Int) : Rat) / 2)
        let m : Int := match s.ptp.mpd with
          | none => d
          | some m => m + (d - m) / (2 ^ s.get F.Ptp.DELAY_FILT pgPtp : Nat)
        let fresh := s.servo == 1 && !s.ptp.used
        let s1 := s.updPtp (fun x => { x with
          mpd := some m
          respLog := some logInt
          reqT3 := none
          used := true
          exch := if fresh then ((d, y) :: x.exch).take 15 else x.exch })
        let s2 := putFit F.Ptp.MPD 0 (2 ^ 32 - 1) m s1
        if fresh then qualify s2 else s2
      else s
    | _, _ => s
  else s

/-- DELAY_RESP_RECEIVED: a Delay_Resp of the domain for requestingPortIdentity `req`. -/
def execDelayRespReceived (port src req seq : Nat) (t4 corr logInt : Int) (s : State) : Out :=
  .next (if s.ready pgPtp then ptpDelayResp port src req seq t4 corr logInt s else s)

/-- SYNC_LOSS: no complete Sync from the parent for LOSS_SYNCS of its intervals (R475). -/
def execSyncLoss (s : State) : Out :=
  .next (if (s.servo = 2 ∨ s.servo = 3) ∧
      s.ptp.syncAt + s.get F.Ptp.LOSS_SYNCS pgPtp * logNs s.ptp.syncLog ≤ s.now then ptpLoss 1 s else s)

/-- QUALIFYING starts again, RATE held at I (R476). -/
def ptpRequalify (s : State) : State :=
  if 2 ≤ s.servo ∧ s.servo ≤ 4 then (setServo 1 (setRate s.ptp.rateI s)).updPtp (fun x => { x with exch := [] }) else s

/-- ALLOW_STEP written by a word of PTP_CTRL: it keeps its value in Print (R476). -/
def allowStep (v : Bool) (data : Nat) (s : State) : State :=
  if s.get F.Mode.MODE pgMode = 3 then
    if v != s.on F.Ptp.ALLOW_STEP pgPtp then s.raise Ev.regWriteWhileRunning pgPtp (arg64 data 0x54) else s
  else s.set F.Ptp.ALLOW_STEP pgPtp (bit v)

/-- PTP_REQUALIFY: a write of PTP_CTRL with REQUALIFY 1 and an ALLOW_STEP bit. -/
def execPtpRequalify (allow : Bool) (owner : Nat) (s : State) : Out :=
  .next (gateReg pgPtp 0x54 (2 + bit allow) owner (fun s => ptpRequalify (allowStep allow (2 + bit allow) s)) s)

/-- A function reset of page 0x093: HOLDOVER, and the servo state is lost; counter, offset and rate stay (Table 3-8). -/
def ptpDiscard (s : State) : State :=
  let s1 := if s.servo = 4 then s
    else holdEvent true 4 ((setRate s.ptp.rateI s).updPtp (fun x => { x with hold := some 4 }))
  s1.updPtp (fun x => { ({} : PtpX) with
    epochC := x.epochC
    epochT := x.epochT
    log := x.log
    rateI := x.rateI
    hold := x.hold
    reqSeq := x.reqSeq
    caps := x.caps })

end Sys2Proof.Machine
end

