-- ==== Sys2Proof/Machine/Switch.lean ====
section
/-! DEFINITION. The network ports, the switch, the host rings and the transparent clock (R445 to R464, R482, R483). Switch port 0
is the internal port, 1 and 2 are network ports 0 and 1. -/

namespace Sys2Proof.Machine

def pgNet (n : Nat) : Nat := 0x090 + n
def pgSw : Nat := 0x092
def State.updNet (s : State) (f : NetX → NetX) : State := { s with net := f s.net }

/-! ### Frames -/

/-- A big-endian number in a frame. -/
def beAt (bs : List Byte) (off n : Nat) : Nat := beNat ((bs.drop off).take n)

/-- A frame without its tag, the tag's PCP and VID where it has one, and its addresses. -/
structure Frame where
  dst : Nat
  src : Nat
  tag : Option (Nat × Nat)
  plain : List Byte
  deriving DecidableEq, Repr

/-- A received frame from its destination address up to its last byte before the FCS. -/
def parseFrame (bs : List Byte) : Frame :=
  let tagged := beAt bs 12 2 == 0x8100
  { dst := beAt bs 0 6
    src := beAt bs 6 6
    tag := if tagged then some (beAt bs 14 2 / 2 ^ 13, beAt bs 14 2 % 2 ^ 12) else none
    plain := if tagged then bs.take 12 ++ bs.drop 16 else bs }

/-- A UDP datagram of an untagged frame: IPv6, destination address with byte 0 lowest, destination port, and the offset and
length of its payload. Fragments are none. -/
def udpOf (bs : List Byte) : Option (Bool × Nat × Nat × Nat × Nat) :=
  let at_ := fun (v6 : Bool) (dst u : Nat) =>
    some (v6, dst, beAt bs (u + 2) 2, u + 8, min (beAt bs (u + 4) 2 - 8) (bs.length - (u + 8)))
  match beAt bs 12 2 with
  | 0x0800 =>
    let ihl := beAt bs 14 1 % 16 * 4
    if beAt bs 14 1 / 16 = 4 ∧ beAt bs 20 2 % 2 ^ 14 = 0 ∧ beAt bs 23 1 = 17 then
      at_ false (leNat ((bs.drop 30).take 4)) (14 + ihl)
    else none
  | 0x86DD => if beAt bs 20 1 = 17 then at_ true (leNat ((bs.drop 38).take 16)) 54 else none
  | _ => none

/-- The PTP message of an untagged frame: its transport and the offset of its header (Table 14-3). -/
def ptpOf (f : Frame) : Option (Nat × Nat) :=
  let ok := fun (off : Nat) => beAt f.plain (off + 1) 1 % 16 == 2
  if beAt f.plain 12 2 = 0x88F7 then
    if (f.dst = 0x011B19000000 ∨ f.dst = 0x0180C200000E) ∧ ok 14 then some (0, 14) else none
  else match udpOf f.plain with
    | some (v6, _, port, off, _) =>
      let ip := if v6 then beAt f.plain 38 16 else beAt f.plain 30 4
      let mine := if v6 then ip == 0xFF0E * 2 ^ 112 + 0x181 || ip == 0xFF02 * 2 ^ 112 + 0x181 else ip == 0xE0000181
      if mine && (port == 319 || port == 320) && ok off then some (if v6 then 2 else 1, off) else none
    | none => none

/-- Bytes of a frame replaced from an offset up. -/
def patch (bs : List Byte) (off : Nat) (v : List Byte) : List Byte := bs.take off ++ v ++ bs.drop (off + v.length)

/-- Sum of the 16-bit words of some bytes. -/
def words16 : List Byte → Nat
  | [] => 0
  | [b] => b.toNat * 256
  | b :: c :: l => b.toNat * 256 + c.toNat + words16 l

/-- One's complement checksum. -/
def inetSum (n : Nat) : Nat :=
  let a := n % 65536 + n / 65536
  let b := a % 65536 + a / 65536
  0xFFFF - b

/-- The UDP checksum of a frame whose UDP header is at `u` and IP header at `ip`. -/
def udpSum (bs : List Byte) (ip u : Nat) (v6 : Bool) : Nat :=
  let len := beAt bs (u + 4) 2
  let body := (patch bs (u + 6) [0, 0]).drop u
  let pseudo := if v6 then (bs.drop (ip + 8)).take 32 else (bs.drop (ip + 12)).take 8
  let c := inetSum (words16 pseudo + 17 + len + words16 (body.take len))
  if c = 0 then 0xFFFF else c

/-- A residence time added to the correctionField of a queued PTP frame, with its UDP checksum (R460, R462). -/
def addCorrection (q : QFrame) (res : Int) : QFrame :=
  let cf := sext 64 (beAt q.bytes (q.off + 8) 8)
  if cf = 2 ^ 63 - 1 then q
  else
    let v := if 2 ^ 63 - 1 < cf + res then 2 ^ 63 - 1 else cf + res
    let b1 := patch q.bytes (q.off + 8) (beBytes 8 (unsext 64 v))
    let u := q.off - 8
    let ip := if beAt b1 12 2 = 0x8100 then 18 else 14
    let sum := beAt b1 (u + 6) 2
    { q with bytes :=
        if q.l3 = 0 ∨ (q.l3 = 1 ∧ sum = 0) then b1 else patch b1 (u + 6) (beBytes 2 (udpSum b1 ip u (q.l3 == 2))) }

/-! ### Stamps (R457, R458) -/

/-- The corrections of Table 14-4 in ps for a port's mode: transmit, receive. -/
def State.stampConst (s : State) (n : Nat) : Nat × Nat :=
  match s.get F.Net.SPEED (pgNet n), s.get F.Net.FEC (pgNet n) with
  | 0, 0 => (21000, 27000)
  | 0, _ => (24200, 232000)
  | _, 0 => (12800, 16000)
  | _, 1 => (14400, 98000)
  | _, _ => (18600, 214000)

/-- The stamp of a frame at the port's balls, in 1/4 tsclk, from its instant at the MAC/PCS boundary in ps by the time counter;
the stamp has 0.5 ns and its rounding is not stated. -/
def State.stampAt (s : State) (n : Nat) (ps : Int) (tx : Bool) : Int :=
  let c := s.stampConst n
  Config.roundReal
    (((if tx then ps + c.1 + sext 32 (s.get F.Net.PORT_DELAY_TX (pgNet n))
      else ps - c.2 - sext 32 (s.get F.Net.PORT_DELAY_RX (pgNet n))) : Rat) / 500)

/-! ### Queues (R453) -/

def State.queue (s : State) (out k : Nat) : List QFrame := tget s.net.queues (4 * out + k) []

/-- Bytes that queued frames take, with their FCS. -/
def queueBytes (l : List QFrame) : Nat := l.foldl (fun a q => a + q.bytes.length + 4) 0

/-- A frame enters an egress queue, or is dropped where it does not fit. -/
def enqueue (out k : Nat) (q : QFrame) (s : State) : State :=
  let mine := queueBytes (s.queue out k)
  let all := s.net.queues.foldl (fun a e => a + queueBytes e.2) 0
  let n := q.bytes.length + 4
  if mine + n ≤ s.get F.Sw.QUEUE_LIMIT pgSw * 1024 ∧ all + n ≤ 512 * 1024 then
    s.updNet (fun x => { x with queues := tput x.queues (4 * out + k) (s.queue out k ++ [q]) })
  else
    let s1 := s.sat F.Sw.BUFFER_DROPS pgSw
    s1.raise Ev.netBufferDrop pgSw (arg64 (s1.get F.Sw.BUFFER_DROPS pgSw) (out * 16 + k))

/-! ### Forwarding (R451, R452) -/

/-- The VLAN entry of a VID. -/
def State.vlan (s : State) (vid : Nat) : Option Nat :=
  (List.range 64).find? (fun v => s.onI F.Sw.VLAN_VALID pgSw v && s.getI F.Sw.VLAN_VID pgSw v == vid)

/-- The VID and PCP of a frame on a switch port (R451, R453). -/
def State.classify (s : State) (port : Nat) (tag : Option (Nat × Nat)) : Nat × Nat :=
  match tag with
  | some (pcp, vid) => (if vid = 0 then s.getI F.Sw.PVID pgSw port else vid, pcp)
  | none => (s.getI F.Sw.PVID pgSw port, s.getI F.Sw.DEFAULT_PCP pgSw port)

/-- A MAC address is one of the groups of Table 4-10. -/
def State.ingestGroup (s : State) (mac : Nat) : Bool :=
  (List.range 4).any (fun g =>
    let a := s.getI F.Ing.GROUP4 pgIng g
    let m4 := beNat (leBytes 4 a)
    let m6 := beNat (leBytes 4 (s.getI F.Ing.GROUP6 pgIng (4 * g + 3)))
    (a != 0 && mac == 0x01005E000000 + m4 % 2 ^ 23) || (s.addr6 F.Ing.GROUP6 pgIng g != 0 && mac == 0x333300000000 + m6))

/-- The multicast entry of a MAC address. -/
def State.mcast (s : State) (mac : Nat) : Option Nat :=
  let b := leNat (beBytes 6 mac)
  (List.range 64).find? (fun m => s.onI F.Sw.MCAST_VALID pgSw m && s.getI F.Sw.MAC_LO pgSw m == b % 2 ^ 32 &&
    s.getI F.Sw.MAC_HI pgSw m == b / 2 ^ 32)

/-- The switch ports that a frame goes to, by address (R452). -/
def State.forwardTo (s : State) (port v vid dst : Nat) : List Nat :=
  let member := fun (p : Nat) => bitAt (s.getI F.Sw.VLAN_MEMBER pgSw v) p
  let all := (List.range 3).filter member
  let l :=
    if dst = s.macAddr then all.filter (· == 0)
    else if dst / 2 ^ 40 % 2 = 1 then
      let base := match s.mcast dst with
        | some m => all.filter (bitAt (s.getI F.Sw.PORT_MASK pgSw m))
        | none => all.filter (fun p => p != 0 || dst == 2 ^ 48 - 1 || s.on F.Sw.HOST_PROMISC_MC pgSw)
      if s.ingestGroup dst && !base.contains 0 then 0 :: base else base
    else match s.net.learned.find? (fun e => e.vid == vid && e.mac == dst) with
      | some e => all.filter (· == e.port)
      | none => all
  l.filter (· != port)

/-- A source address learned or refreshed (R452). -/
def learn (vid mac port : Nat) (s : State) : State :=
  let same : Learned → Bool := fun e => e.vid == vid && e.mac == mac
  let l := s.net.learned
  let l1 := if l.any same then l.map (fun e => if same e then ⟨vid, mac, port, s.now⟩ else e)
    else if l.length < 1024 then l ++ [⟨vid, mac, port, s.now⟩] else l
  (s.updNet (fun x => { x with learned := l1 })).set F.Sw.LEARNED pgSw l1.length

/-- The bytes of a frame as it leaves a port of its VLAN, tagged or not. -/
def State.egressBytes (s : State) (f : Frame) (v vid pcp out : Nat) : List Byte :=
  if bitAt (s.getI F.Sw.VLAN_UNTAG pgSw v) out then f.plain
  else f.plain.take 12 ++ beBytes 2 0x8100 ++ beBytes 2 (pcp * 2 ^ 13 + vid) ++ f.plain.drop 12

/-! ### The internal port (R455) -/

/-- A frame goes to the host receive ring. DESIGN CHOICE: a quiesced switch, which issues no store, drops it as where the ring is
full (R117, log 132). -/
def hostReceive (f : Frame) (vid pcp port count : Nat) (s : State) : State :=
  let n := s.get F.Sw.HOST_RX_SIZE pgSw
  let wr := s.get F.Sw.HOST_RX_WR pgSw
  if n = 0 ∨ (wr + 1) % n = s.get F.Sw.HOST_RX_RD pgSw ∨ s.on F.Hdr.QUIESCE pgSw then
    let s1 := s.sat F.Sw.HOST_RX_DROPS pgSw
    if s1.net.full then s1
    else (s1.updNet (fun x => { x with full := true })).raise Ev.netHostRingFull pgSw (arg64 (s1.get F.Sw.HOST_RX_DROPS pgSw) 0)
  else
    let a := s.get F.Sw.HOST_RX_BASE pgSw * 4096 + wr * 9216
    let slot := leBytes 2 f.plain.length ++ leBytes 2 (pcp * 4096 + vid) ++ leBytes 1 port ++ leBytes 3 0 ++ leBytes 8 count ++
      f.plain
    ((sdramWrite 9 a slot s).updNet (fun x => { x with full := false })).set F.Sw.HOST_RX_WR pgSw
      ((wr + 1) % n)

/-- A frame for port 0: a chunk for ingest, or a host frame (R126, R455). -/
def toInternal (f : Frame) (vid pcp port count : Nat) (s : State) : State :=
  match udpOf f.plain with
  | some (v6, dst, udp, off, n) =>
    if s.takesChunk (port - 1) v6 dst udp then chunkIn ((f.plain.drop off).take n) s
    else hostReceive f vid pcp port count s
  | none => hostReceive f vid pcp port count s

/-- A frame of a VLAN sent to a switch port. -/
def sendOut (f : Frame) (v vid pcp port : Nat) (q : QFrame) (k : Nat) (out : Nat) (s : State) : State :=
  if out = 0 then toInternal f vid pcp port (q.stamp / 4).toNat s
  else
    let bs := s.egressBytes f v vid pcp out
    enqueue out k { q with bytes := bs, off := q.off + (bs.length - f.plain.length) } s

/-- A frame classified on a switch port: its VLAN entry, VID and PCP, or it is dropped (R451). -/
def State.vlanOf (s : State) (port : Nat) (tag : Option (Nat × Nat)) : Option (Nat × Nat × Nat) :=
  let c := s.classify port tag
  match s.vlan c.1 with
  | some v => if bitAt (s.getI F.Sw.VLAN_MEMBER pgSw v) port then some (v, c.1, c.2) else none
  | none => none

/-! ### PTP frames (R459 to R463) -/

/-- A 10-byte timestamp in 2^-16 ns. -/
def stampField (bs : List Byte) (off : Nat) : Int := ((beAt bs off 6 * nsPerSec + beAt bs (off + 6) 4) * 65536 : Nat)

/-- The ordinary clock's copy of a message of its domain. -/
def ocMessage (m : List Byte) (l3 port : Nat) (q : Int) (s : State) : State :=
  let src := beAt m 20 10
  let seq := beAt m 30 2
  let corr := sext 64 (beAt m 8 8)
  let log := sext 8 (beAt m 33 1)
  match beAt m 0 1 % 16 with
  | 0x0 => ptpSync port src seq (bitAt (beAt m 6 1) 1) (stampField m 34) corr q log s
  | 0x8 => ptpFollowUp port src seq (stampField m 34) corr s
  | 0x9 => ptpDelayResp port src (beAt m 44 10) seq (stampField m 34) corr log s
  | 0xB =>
    let f : Foreign := ⟨src, port, beAt m 47 14, beAt m 61 2, beAt m 44 2, log, s.now, l3⟩
    ptpAnnounce f s
  | _ => s

/-- The message is one of the ordinary clock's domain (Table 14-3). -/
def State.inDomain (s : State) (m : List Byte) : Bool :=
  beAt m 4 1 == s.get F.Ptp.DOMAIN pgPtp && beAt m 0 1 / 16 == s.get F.Ptp.SDO_MAJOR pgPtp &&
    beAt m 5 1 == s.get F.Ptp.SDO_MINOR pgPtp

/-- The transparent clock forwards a PTP frame to the other external port (R459 to R462). -/
def tcForward (f : Frame) (m : List Byte) (v vid pcp port out l3 off : Nat) (stamp : Int) (s : State) : State :=
  let key : TcKey := ⟨beAt m 20 10, beAt m 4 1, beAt m 30 2, out⟩
  let q : QFrame := { bytes := [], arrived := s.now, stamp := stamp, off := off, l3 := l3 }
  match beAt m 0 1 % 16 with
  | 0x0 =>
    if bitAt (beAt m 6 1) 1 then
      let l := s.net.tc.filter (fun e => e.key != key) ++ [{ key := key }]
      sendOut f v vid pcp port { q with kind := .twoStep key } 3 out
        (s.updNet (fun x => { x with tc := l.drop (l.length - 32) }))
    else sendOut f v vid pcp port { q with kind := .correct } 3 out s
  | 0x1 => sendOut f v vid pcp port { q with kind := .correct } 3 out s
  | 0x8 =>
    match s.net.tc.find? (fun e => e.key == key) with
    | some e =>
      let bs := s.egressBytes f v vid pcp out
      let q1 := { q with bytes := bs, off := off + (bs.length - f.plain.length) }
      match e.res with
      | some r => enqueue out 3 (addCorrection q1 r) s
      | none => s.updNet (fun x => { x with held := x.held ++ [(key, q1)] })
    | none =>
      let s1 := s.sat F.Ptp.TC_NO_MATCH pgPtp
      sendOut f v vid pcp port q 3 out
        (s1.raise Ev.ptpTcNoMatch pgPtp (arg64 (s1.get F.Ptp.TC_NO_MATCH pgPtp) key.seq))
  | _ => sendOut f v vid pcp port q 3 out s

/-- A PTP frame on an external port (R450, R456, R459, R483). -/
def ptpFrame (f : Frame) (port l3 off : Nat) (stamp : Int) (s : State) : State :=
  let m := f.plain.drop off
  let t := beAt m 0 1 % 16
  let s1 := if beAt m 20 8 = s.clockId then s.raise Ev.ptpAddrConflict pgPtp port else s
  if t = 0x2 ∨ t = 0x3 ∨ t = 0xA then s1.sat F.Ptp.PDELAY_DROPS pgPtp
  else
    let s2 := if s.ready pgPtp && s.inDomain m then ocMessage m l3 port stamp s1 else s1
    match s2.vlanOf port f.tag with
    | none => s2.sat F.Sw.VLAN_DROPS pgSw
    | some (v, vid, pcp) =>
      let s3 := learn vid f.src port s2
      let out := 3 - port
      if (s3.forwardTo port v vid f.dst).contains out then tcForward f m v vid pcp port out l3 off stamp s3 else s3

/-! ### Reception (R448, R449) -/

/-- The checks of R448 that a frame fails, as kinds 0 to 3. -/
def frameErrors (f : Frame) (n : Nat) (bad : Bool) : List Nat :=
  (if bad then [0] else []) ++ (if n < 64 then [1] else []) ++
    (if (if f.tag.isSome then 9022 else 9018) < n then [2] else []) ++ (if beAt f.plain 12 2 = 0x8808 then [3] else [])

/-- The counters of R448. -/
def rxCounters : List Fld := [F.Net.RX_FCS_ERRORS, F.Net.RX_RUNTS, F.Net.RX_TOO_LONG, F.Net.RX_CONTROL]

/-- FRAME_RECEIVED: a frame on network port `n`, its bytes up to the FCS, its instant at the MAC/PCS boundary in ps by the time
counter, whether its FCS is wrong, and the FEC codewords in it that were corrected and that could not be (R448 to R455). -/
def execFrameReceived (n : Nat) (ps : Int) (fcsBad : Bool) (fecC fecU : Nat) (bytes : List Byte) (s : State) : Out :=
  .next (if n < 2 ∧ s.ready (pgNet n) ∧ s.on F.Net.LINK_UP (pgNet n) then
    let pg := pgNet n
    let s1 := (s.satI F.Net.FEC_CORRECTED pg 0 fecC).satI F.Net.FEC_UNCORRECTED pg 0 fecU
    let s2 := if 0 < fecU then s1.raise Ev.netFecUncorrected pg (arg64 (s1.get F.Net.FEC_UNCORRECTED pg) 0) else s1
    let f := parseFrame bytes
    let errs := frameErrors f (bytes.length + 4) (fcsBad || decide (0 < fecU))
    match errs.getLast? with
    | some k =>
      let s3 := forAll errs s2 (fun e s => s.sat (rxCounters.getD e F.Net.RX_CONTROL) pg)
      let total := rxCounters.foldl (fun a c => a + s3.get c pg) 0
      s3.raise Ev.netRxError pg (arg64 total (low 4 (Config.rxKind k)))
    | none =>
      let s3 := s2.wrap F.Net.RX_FRAMES pg
      let port := n + 1
      let stamp := s.stampAt n ps false
      if s.active pgSw = false then s3
      else if f.src = s.macAddr then s3.raise Ev.netAddrConflict pgSw port
      else match ptpOf f with
        | some (l3, off) => ptpFrame f port l3 off stamp s3
        | none => match s3.vlanOf port f.tag with
          | none => s3.sat F.Sw.VLAN_DROPS pgSw
          | some (v, vid, pcp) =>
            let s4 := learn vid f.src port s3
            forAll (s4.forwardTo port v vid f.dst) s4
              (fun out s => sendOut f v vid pcp port { bytes := [], arrived := s.now, stamp := stamp } (pcp / 2) out s)
  else s)

/-! ### Transmission (R453, R454, R459 to R461) -/

/-- ns that a frame keeps its port busy: its bytes with FCS, preamble and gap. -/
def State.frameTime (s : State) (n len : Nat) : Nat :=
  ((len + 24) * (if s.get F.Net.SPEED (pgNet n) = 0 then 80 else 32) + 99) / 100

/-- A two-step Sync has left with a residence time: the Follow_Ups that wait for it go (R461). -/
def syncLeft (k : TcKey) (res : Int) (s : State) : State :=
  let mine := s.net.held.filter (fun e => e.1 == k)
  let s1 := s.updNet (fun x => { x with
    tc := x.tc.map (fun e => if e.key = k then { e with res := some res, left := s.now } else e)
    held := x.held.filter (fun e => e.1 != k) })
  forAll mine s1 (fun e s => enqueue k.out 3 (addCorrection e.2 res) s)

/-- FRAME_TRANSMIT: the first frame of the highest queue starts on an idle network port, its first bit at the MAC/PCS boundary at
`ps` by the time counter. -/
def execFrameTransmit (n : Nat) (ps : Int) (s : State) : Out :=
  let out := n + 1
  let first := [3, 2, 1, 0].findSome? (fun k => match s.queue out k with
    | q :: qs => some (k, q, qs)
    | [] => none)
  .next (match first with
    | none => s
    | some (k, q, qs) =>
      if n < 2 ∧ s.ready (pgNet n) ∧ s.on F.Net.TX_EN (pgNet n) ∧ s.ready pgSw ∧ q.arrived + 40 ≤ s.now ∧
          tget s.net.idle out 0 ≤ s.now then
        let stamp := s.stampAt n ps true
        let res := (stamp - q.stamp) * 32768
        let bs := match q.kind with
          | .correct => (addCorrection q res).bytes
          | _ => q.bytes
        let s1 := (s.updNet (fun x => { x with
          queues := tput x.queues (4 * out + k) qs
          sent := tput x.sent out bs
          idle := tput x.idle out (s.now + s.frameTime n q.bytes.length) })).wrap F.Net.TX_FRAMES (pgNet n)
        match q.kind with
        | .twoStep key => syncLeft key res s1
        | .own seq => s1.updPtp (fun x => { x with reqT3 := some (seq, stamp) })
        | _ => s1
      else s)

/-- TC_ENTRY_EXPIRY: entries expire 1 s after their Sync left (R461). -/
def execTcEntryExpiry (s : State) : Out :=
  .next (s.updNet (fun x => { x with tc := x.tc.filter (fun e => !(e.res.isSome && decide (e.left + nsPerSec ≤ s.now))) }))

/-- ADDRESS_AGE_OUT: a learned address without a frame for AGE_TIME (R452). -/
def execAddressAgeOut (vid mac : Nat) (s : State) : Out :=
  let gone : Learned → Bool := fun e =>
    e.vid == vid && e.mac == mac && decide (e.seen + s.get F.Sw.AGE_TIME pgSw * nsPerSec ≤ s.now)
  let l := s.net.learned.filter (fun e => !gone e)
  .next ((s.updNet (fun x => { x with learned := l })).set F.Sw.LEARNED pgSw l.length)

/-! ### Host transmission (R455, R462) -/

/-- One slot of the host transmit ring handed to the switch; poisoned bytes read as 0xFF (Table 12-3). -/
def hostSlot (a : Nat) (s : State) : State :=
  let head := s.sdramMarked a 16
  let len := field head 0 2
  let tag := field head 2 2
  let dest := field head 4 1
  if len < 14 ∨ 9014 < len then sdramRead 9 a 16 s
  else
    let bytes := s.sdramMarked (a + 16) len
    let f := parseFrame bytes
    let s1 := sdramRead 9 a (16 + len) s
    match s1.vlanOf 0 (some (bits tag 12 3, bits tag 0 12)) with
    | none => s1.sat F.Sw.VLAN_DROPS pgSw
    | some (v, vid, pcp) =>
      let outs := if dest = 1 ∨ dest = 2 then [dest] else s1.forwardTo 0 v vid f.dst
      forAll outs s1 (fun out s => sendOut { f with plain := bytes } v vid pcp 0
        { bytes := [], arrived := s.now } (pcp / 2) out s)

/-- Slots up to HOST_TX_WR sent; none while the switch is quiesced or the slot's SDRAM channels serve nothing (R117, R124). -/
def hostSend : Nat → State → State
  | 0, s => s
  | fuel + 1, s =>
    let n := s.get F.Sw.HOST_TX_SIZE pgSw
    let rd := s.get F.Sw.HOST_TX_RD pgSw
    let a := s.get F.Sw.HOST_TX_BASE pgSw * 4096 + rd * 9216
    if n = 0 ∨ rd = s.get F.Sw.HOST_TX_WR pgSw ∨ n ≤ s.get F.Sw.HOST_TX_WR pgSw ∨ s.on F.Hdr.QUIESCE pgSw ∨ s.sdramHeld a 9216 then s
    else hostSend fuel ((hostSlot a s).set F.Sw.HOST_TX_RD pgSw ((rd + 1) % n))

/-- Slots that have waited are sent. -/
def hostRetry (s : State) : State := hostSend (s.get F.Sw.HOST_TX_SIZE pgSw) s

/-- HOST_TX_WR written. -/
def hostTxWrite (wr : Nat) (s : State) : State :=
  hostRetry (s.set F.Sw.HOST_TX_WR pgSw wr)

/-- HOST_TX_WRITE (R455). -/
def execHostTxWrite (wr owner : Nat) (s : State) : Out :=
  .next (gateReg pgSw 0x7C wr owner (hostTxWrite wr) s)

/-! ### Delay_Req (R464) -/

/-- The Delay_Req message of the part. -/
def State.delayReq (s : State) (seq : Nat) : List Byte :=
  beBytes 1 (s.get F.Ptp.SDO_MAJOR pgPtp * 16 + 1) ++ beBytes 1 0x12 ++ beBytes 2 44 ++ beBytes 1 (s.get F.Ptp.DOMAIN pgPtp) ++
    beBytes 1 (s.get F.Ptp.SDO_MINOR pgPtp) ++ beBytes 2 0 ++ beBytes 8 0 ++ beBytes 4 0 ++ beBytes 8 s.clockId ++
    beBytes 2 1 ++ beBytes 2 seq ++ beBytes 1 1 ++ beBytes 1 0x7F ++ beBytes 10 0

/-- The part's frame around a PTP message by transport; the header bytes that no rule gives are taken from `h`. -/
def State.ptpAround (s : State) (l3 h : Nat) (m : List Byte) : List Byte :=
  let udp := beBytes 2 319 ++ beBytes 2 319 ++ beBytes 2 (m.length + 8) ++ [0, 0] ++ m
  match l3 with
  | 0 => beBytes 6 0x011B19000000 ++ beBytes 6 s.macAddr ++ beBytes 2 0x88F7 ++ m
  | 1 =>
    let ip := [0x45] ++ beBytes 1 h ++ beBytes 2 (20 + udp.length) ++ beBytes 2 (h / 2 ^ 8) ++ [0, 0] ++ beBytes 1 (h / 2 ^ 24) ++
      [17, 0, 0] ++ leBytes 4 (s.get F.Sw.IPV4_ADDR pgSw) ++ beBytes 4 0xE0000181
    let ip1 := patch ip 10 (beBytes 2 (inetSum (words16 ip)))
    let bs := beBytes 6 0x01005E000181 ++ beBytes 6 s.macAddr ++ beBytes 2 0x0800 ++ ip1 ++ udp
    patch bs 40 (beBytes 2 (udpSum bs 14 34 false))
  | _ =>
    let ip := beBytes 4 (0x60000000 + low 28 h) ++ beBytes 2 udp.length ++ [17] ++ beBytes 1 (h / 2 ^ 28) ++
      leBytes 16 (s.addr6 F.Sw.IPV6_ADDR pgSw 0) ++ beBytes 16 (0xFF0E * 2 ^ 112 + 0x181)
    let bs := beBytes 6 0x333300000181 ++ beBytes 6 s.macAddr ++ beBytes 2 0x86DD ++ ip ++ udp
    patch bs 60 (beBytes 2 (udpSum bs 14 54 true))

/-- DELAY_REQ_SEND: a Delay_Req goes to the master port, and the next gap is drawn from 0 to twice the interval (R464). -/
def execDelayReqSend (s : State) : Out :=
  .next (match s.ptp.parent.bind (fun p => s.ptp.foreign.find? (fun f => f.src == p && f.port == s.get F.Ptp.MASTER_PORT pgPtp)) with
    | none => s
    | some f =>
      if s.ready pgPtp ∧ s.ready pgSw ∧ s.ptp.reqNext ≤ s.now then
        let iv := logNs (s.ptp.respLog.getD (sext 8 (s.get F.Ptp.DREQ_LOG pgPtp)))
        let a := s.free
        let b := a.2.free
        let seq := low 16 (s.ptp.reqSeq + 1)
        let s1 := b.2.updPtp (fun x => { x with reqSeq := seq, reqT3 := none, reqNext := s.now + a.1 % (2 * iv + 1) })
        let fr := parseFrame (s.ptpAround f.l3 b.1 (s.delayReq seq))
        match s1.vlanOf 0 none with
        | none => s1.sat F.Sw.VLAN_DROPS pgSw
        | some (v, vid, pcp) =>
          sendOut fr v vid pcp 0 { bytes := [], arrived := s.now, kind := .own seq } 3 f.port s1
      else s)

/-! ### Links (R446, R447) -/

/-- NET_LINK_UP: the locks have held for 10 ms with no local fault (R447). -/
def execNetLinkUp (n : Nat) (s : State) : Out :=
  .next (if n < 2 ∧ s.ready (pgNet n) ∧ s.on F.Net.LINK_UP (pgNet n) = false then
    let pg := pgNet n
    let fec := s.get F.Net.FEC pg
    let s1 := ((s.set F.Net.BLOCK_LOCK pg 1).set F.Net.AM_LOCK pg (bit (fec == 2))).set F.Net.LOCAL_FAULT pg 0
    (s1.set F.Net.LINK_UP pg 1).raise Ev.netLinkUp pg (fec * 16 + s.get F.Net.SPEED pg)
  else s)

/-- NET_LINK_DOWN: cause 1 block lock, 2 alignment, 3 local fault (R447). -/
def execNetLinkDown (n cause : Nat) (s : State) : Out :=
  .next (if n < 2 ∧ 1 ≤ cause ∧ cause ≤ 3 ∧ s.ready (pgNet n) ∧ s.on F.Net.LINK_UP (pgNet n) then
    let pg := pgNet n
    let s1 := match cause with
      | 1 => (s.set F.Net.BLOCK_LOCK pg 0).set F.Net.AM_LOCK pg 0
      | 2 => s.set F.Net.AM_LOCK pg 0
      | _ => s.set F.Net.LOCAL_FAULT pg 1
    (s1.set F.Net.LINK_UP pg 0).raise Ev.netLinkDown pg cause
  else s)

/-- SFPn_TX_DISABLE is high (R446). -/
def State.txDisable (s : State) (n : Nat) : Bool := !s.on F.Net.TX_EN (pgNet n)

/-- A change of mode to Idle: the addresses take the present SYS_ADDR (R482). -/
def netToIdle (s : State) : State := s.updNet (fun x => { x with sys := s.get F.Colo.SYS_ADDR 1 })

/-- A function reset of a network port: frames in flight are lost (Table 3-8). DEDUCED: these are the frame on the line and the
frames queued for the port (log 135). -/
def netDiscard (n : Nat) (s : State) : State :=
  s.updNet (fun x => { x with
    idle := tdel x.idle (n + 1)
    queues := [0, 1, 2, 3].foldl (fun q k => tdel q (4 * (n + 1) + k)) x.queues })

/-- A function reset of the switch: its queues and tables are empty. -/
def switchDiscard (s : State) : State := s.updNet (fun x => { ({} : NetX) with sys := x.sys, sent := x.sent })

end Sys2Proof.Machine
end

