-- ==== Sys2Proof/Machine/Thermal.lean ====
section
/-! DEFINITION. Housekeeping, page 0x0A8, thermal, page 0x0A9, and drive-rail supervision, page 0x0AC (R544 to R555, R562,
R106). Temperatures are in 1/16 °C. Dies: 0 hub, 1 and 2 the raster dies. -/

namespace Sys2Proof.Machine

def pgHk : Nat := 0x0A8
def pgThm : Nat := 0x0A9
def pgDrv : Nat := 0x0AC
def State.updHk (s : State) (f : HkX → HkX) : State := { s with hk := f s.hk }

/-- A list with an element present or not. -/
def putIn (l : List Nat) (x : Nat) (v : Bool) : List Nat := if v then (if l.contains x then l else l ++ [x]) else l.filter (· != x)

/-! ### Conversion (R544, R545) -/

/-- CODE of a channel from its eight conversions. -/
def State.hkCode (s : State) (raw : List Nat) : Nat :=
  let trim := s.effWord 0xD0840
  let gain := trim % 65536
  let off := sext 16 (trim / 65536)
  let c := fun (x : Nat) => (clampI 0 4095 (((x * gain / 32768 : Nat) : Int) + off)).toNat
  (((List.range 8).map (fun i => c (raw.getD i 0))).foldl (· + ·) 0 + 4) / 8

/-- Point `i` of a piecewise table. -/
def State.pwl (s : State) (t i : Nat) : Int :=
  sext 16 (s.getI { F.Hk.PWL_0 with off := 0x400 + 4 * (i / 2), lo := 16 * (i % 2) } pgHk t)

/-- VALUE of a channel for a CODE, before it is cut to 16 bits; none for a channel that is off. -/
def State.hkConvert (s : State) (ch code : Nat) : Option Int :=
  if ch < 10 then
    some ((code : Int) - 1600 + sext 16 (s.effWord (0xD0800 + 2 * ch / 4 * 4) / 65536 ^ (ch % 2)))
  else if ch < 16 then some ((code * 1500 + 2047) / 4095 : Nat)
  else match s.getI F.Hk.CONV pgHk ch with
    | 2 => some (((code : Int) * sext 16 (s.getI F.Hk.GAIN pgHk ch)) / 4096 + sext 16 (s.getI F.Hk.OFFSET pgHk ch))
    | 3 =>
      let t := s.getI F.Hk.TABLE pgHk ch
      let i := code / 256
      some (s.pwl t i + ((s.pwl t (i + 1) - s.pwl t i) * ((code : Int) - 256 * i)) / 256)
    | _ => none

/-- A channel takes its CODE and VALUE; a VALUE that 16 bits cannot hold is a free value. -/
def takeValue (ch code : Nat) (s : State) : State :=
  let s1 := s.setI F.Hk.CODE pgHk ch code
  match s.hkConvert ch code with
  | none => s1.setI F.Hk.HK_VALUE_VALID pgHk ch 0
  | some v =>
    let s2 := s1.setI F.Hk.HK_VALUE_VALID pgHk ch 1
    if -32768 ≤ v ∧ v ≤ 32767 then s2.setI F.Hk.VALUE pgHk ch (unsext 16 v)
    else
      let f := s2.free
      f.2.setI F.Hk.VALUE pgHk ch f.1

/-- VALUE of a channel. -/
def State.hkValue (s : State) (ch : Nat) : Int := sext 16 (s.getI F.Hk.VALUE pgHk ch)

/-! ### Sensors and die temperatures (R547) -/

/-- A die sensor is valid. -/
def State.sensorOk (s : State) (k : Nat) : Bool := decide (-800 ≤ s.hkValue k) && decide (s.hkValue k ≤ 2400)

/-- The events of a sensor: SENSOR_FAULT once until it has been valid for a round. -/
def sensorCheck (k : Nat) (s : State) : State :=
  let bad := !s.sensorOk k
  let s1 := s.updHk (fun x => { x with faulty := putIn x.faulty k bad })
  if bad && !s.hk.faulty.contains k then
    s1.raise Ev.thermSensorFault pgHk (s.getI F.Hk.VALUE pgHk k * 2 ^ 16 + k)
  else s1

/-- The events of a pair: SENSOR_DISAGREE at the second round in a row that differs, once until the pair has agreed. -/
def pairCheck (p : Nat) (s : State) : State :=
  let a := s.hkValue (2 * p)
  let b := s.hkValue (2 * p + 1)
  let both := s.sensorOk (2 * p) && s.sensorOk (2 * p + 1)
  let apart := both && decide ((s.get F.Thm.PAIR_TOL pgThm : Int) < (a - b).natAbs)
  let s1 := s.updHk (fun x => { x with
    differ := putIn x.differ p apart
    told := if both && !apart then putIn x.told p false else x.told })
  if apart && s.hk.differ.contains p && !s.hk.told.contains p then
    (s1.updHk (fun x => { x with told := putIn x.told p true })).raise Ev.thermSensorDisagree pgHk
      (unsext 16 a * 2 ^ 48 + unsext 16 b * 2 ^ 32 + p)
  else s1

/-- The temperature that a pair gives: the higher valid sensor, 108 °C without one. -/
def State.pairTemp (s : State) (p : Nat) : Int :=
  match ([2 * p, 2 * p + 1].filter s.sensorOk).map s.hkValue with
  | [] => 1728
  | [a] => a
  | a :: b :: _ => max a b

/-- The temperature of a die. -/
def State.dieT (s : State) (d : Nat) : Int :=
  if d = 0 then s.pairTemp 4 else max (s.pairTemp (2 * d - 2)) (s.pairTemp (2 * d - 1))

/-- The temperatures are shown. -/
def showTemps (s : State) : State :=
  let s1 := forAll [0, 1] s (fun i s =>
    (s.setI F.Thm.REGION_TEMP_EVEN pgThm i (unsext 16 (s.pairTemp (2 * i)))).setI F.Thm.REGION_TEMP_ODD pgThm i
      (unsext 16 (s.pairTemp (2 * i + 1))))
  ((s1.set F.Thm.DIE_TEMP_HUB pgThm (unsext 16 (s.dieT 0))).set F.Thm.DIE_TEMP_R0 pgThm (unsext 16 (s.dieT 1))).set
    F.Thm.DIE_TEMP_B pgThm (unsext 16 (s.dieT 2))

/-! ### Levels (R548 to R550) -/

/-- The next level for a temperature: up at once to the highest threshold reached, down one step below a threshold less
6 °C. -/
def nextLevel (thr : Nat → Int) (cur : Nat) (t : Int) : Nat :=
  let hi := if thr 3 ≤ t then 3 else if thr 2 ≤ t then 2 else if thr 1 ≤ t then 1 else 0
  if cur < hi then hi else if 0 < cur ∧ t < thr cur - 96 then cur - 1 else cur

/-- The thresholds of Table 17-2. -/
def dieThr (k : Nat) : Int := if k = 1 then 1600 else if k = 2 then 1728 else 1888

/-- THERM_STATE.LEVEL of a die. -/
def levelField (d : Nat) : Fld := if d = 0 then F.Thm.LEVEL_HUB else if d = 1 then F.Thm.LEVEL_R0 else F.Thm.LEVEL_R1

/-- Thermal shutdown: Safe-Hold, and the closing of the journal on the way to Dormant; in Safe-Hold the transition to Dormant
begins at once, else on its entry (R105, R107, R566). -/
def thermalShutdown (s : State) : State :=
  let s1 := setCause 2 s
  let s2 := journalStop 2 { s1 with mode := { s1.mode with toDormant := true } }
  if s2.modeNow = 5 then startTransition 0 s2 else s2

/-- A die takes a level. -/
def setLevel (d new : Nat) (s : State) : State :=
  let f := levelField d
  if s.get f pgThm = new then s
  else
    let s1 := (s.set f pgThm new).raise Ev.thermDieLevel pgThm (unsext 16 (s.dieT d) * 2 ^ 16 + new * 16 + d)
    if new = 3 then thermalShutdown s1 else s1

/-- The level of a die after a good round. -/
def dieLevel (d : Nat) (s : State) : State := setLevel d (nextLevel dieThr (s.get (levelField d) pgThm) (s.dieT d)) s

/-- The first good round of a Bisque after a thermal shutdown: a sensor at 112 °C or more takes the part down again
(R106). -/
def redormant (s : State) : State :=
  if s.mode.thermalCheck then
    let s1 := { s with mode := { s.mode with thermalCheck := false } }
    let hot := (List.range 10).any (fun k => s.sensorOk k && decide (1792 ≤ s.hkValue k))
    if hot ∧ s1.mode.toDormant = false then startDormant 2 s1 else s1
  else s

/-! ### Heads (R552 to R554) -/

/-- The word of PORT_HTYPE or HEAD_STATE of a port, and its place there. -/
def State.headType (s : State) (p : Nat) : Nat := s.getI { F.Thm.HTYPE_0 with lo := 4 * (p % 8) } pgThm (p / 8)
def State.headEn (s : State) (p : Nat) : Bool := s.onI { F.Thm.HEAD_EN_0 with lo := 4 * (p % 8) + 3 } pgThm (p / 8)
def headLevelField (p : Nat) : Fld := { F.Thm.HS_LEVEL_0 with lo := 8 * (p % 4) }
def headLatchField (p : Nat) : Fld := { F.Thm.HS_SD_LATCHED_0 with lo := 8 * (p % 4) + 3 }
def headBandField (p : Nat) : Fld := { F.Thm.HS_BAND_0 with lo := 8 * (p % 4) + 5 }

/-- The head temperature of a port, where a TEMP has given one. -/
def State.headTemp (s : State) (p : Nat) : Option Int :=
  let a := s.laneGet F.Lane.SENSOR_0 p
  let b := s.laneGet F.Lane.SENSOR_1 p
  if a = 0x8000 then none
  else some (if b = 0x8000 then sext 16 a else max (sext 16 a) (sext 16 b))

/-- Threshold `k` of a head type: 1 H_WARN, 2 H_THROTTLE, 3 H_SHUTDOWN. -/
def State.headThr (s : State) (t k : Nat) : Int :=
  sext 16 (s.getI (if k = 1 then F.Thm.H_WARN else if k = 2 then F.Thm.H_THROTTLE else F.Thm.H_SHUTDOWN) pgThm t)

/-- EDGE_b of a head type. -/
def State.headEdge (s : State) (t b : Nat) : Int :=
  sext 16 (s.getI { F.Thm.EDGE_1 with off := 0x108 + 4 * ((b - 1) / 2), lo := 16 * ((b - 1) % 2) } pgThm t)

/-- Some edge of a head type does not lie above the one before it. -/
def State.typeInvalid (s : State) (t : Nat) : Bool :=
  (List.range (s.getI F.Thm.BANDS_M1 pgThm t)).any (fun i => decide (1 ≤ i ∧ s.headEdge t (i + 1) ≤ s.headEdge t i))

/-- The highest of the first `n` bands that a temperature enters. -/
def entered (edge : Nat → Int) (t : Int) : Nat → Nat
  | 0 => 0
  | b + 1 => if edge (b + 1) ≤ t then b + 1 else entered edge t b

/-- A band falls while its leave condition holds. -/
def fallBand (edge : Nat → Int) (hyst t : Int) : Nat → Nat
  | 0 => 0
  | b + 1 => if t < edge (b + 1) - hyst then fallBand edge hyst t b else b + 1

/-- The next band of `n` + 1 bands: up to the highest that is entered, else down while the leave condition holds. -/
def nextBand (edge : Nat → Int) (hyst : Int) (n cur : Nat) (t : Int) : Nat :=
  let hi := entered edge t n
  if cur < hi then hi else fallBand edge hyst t (min cur n)

/-- A port's level changes. -/
def setHeadLevel (p new : Nat) (t : Int) (s : State) : State :=
  if s.getI (headLevelField p) pgThm (p / 4) = new then s
  else
    let s1 := (s.setI (headLevelField p) pgThm (p / 4) new).raise Ev.thermHeadLevel pgThm
      (unsext 16 t * 2 ^ 16 + new * 2 ^ 8 + p)
    if new = 3 then s1.setI (headLatchField p) pgThm (p / 4) 1 else s1

/-- A port's band changes. -/
def setHeadBand (p new : Nat) (t : Int) (s : State) : State :=
  if s.getI (headBandField p) pgThm (p / 4) = new then s
  else
    (s.setI (headBandField p) pgThm (p / 4) new).raise Ev.thermBandChange pgThm (unsext 16 t * 2 ^ 16 + new * 2 ^ 8 + p)

/-- A round at the head of a port (R552 to R554). -/
def headRound (p : Nat) (s : State) : State :=
  let t := s.headType p
  let temp := s.headTemp p
  if !s.headEn p then setHeadBand p 0 (temp.getD 0) (setHeadLevel p 0 (temp.getD 0) s)
  else match temp with
    | none => s
    | some x =>
      if s.laneOn F.Lane.TEMP_STALE p then (if s.hk.badTypes.contains t then setHeadBand p 0 x s else s)
      else
        let s1 := setHeadLevel p (nextLevel (s.headThr t) (s.getI (headLevelField p) pgThm (p / 4)) x) x s
        let band := if s.hk.badTypes.contains t then 0
          else nextBand (s.headEdge t) (s.getI F.Thm.BAND_HYST pgThm t) (s.getI F.Thm.BANDS_M1 pgThm t)
            (s.getI (headBandField p) pgThm (p / 4)) x
        setHeadBand p band x s1

/-- Head types are checked; one that has become invalid raises its event. -/
def typeCheck (t : Nat) (s : State) : State :=
  let bad := s.typeInvalid t
  let s1 := s.updHk (fun x => { x with badTypes := putIn x.badTypes t bad })
  if bad && !s.hk.badTypes.contains t then s1.raise Ev.thermConfigInvalid pgThm t else s1

/-- HEAD_SD_ACK: a write to HEAD_SD_ACK_LO or (`hi`) _HI clears the latches of heads below H_SHUTDOWN less 6 °C (R552). -/
def headAck (hi : Bool) (mask : Nat) (s : State) : State :=
  forAll (List.range (if hi then 16 else 32)) s (fun i s =>
    let p := (if hi then 32 else 0) + i
    let cool : Bool := match s.headTemp p with
      | some x => decide (x < s.headThr (s.headType p) 3 - 96)
      | none => false
    if bitAt mask i && cool then s.setI (headLatchField p) pgThm (p / 4) 0 else s)

/-- HEAD_SD_ACK: a write of 1 to the acknowledge bits of one half of the ports (R552). -/
def execHeadSdAck (hi : Bool) (mask owner : Nat) (s : State) : Out :=
  .next (gateReg pgThm (if hi then 0xA4 else 0xA0) mask owner (headAck hi mask) s)

/-! ### Timing bands (R555) -/

/-- A round at a raster die. -/
def timingBand (d : Nat) (s : State) : State :=
  let f := if d = 1 then F.Thm.TIMING_BAND_0 else F.Thm.TIMING_BAND_1
  let edge := fun (b : Nat) => sext 16 (s.get (if b = 1 then F.Thm.TB_EDGE_1 else F.Thm.TB_EDGE_2) pgThm)
  let new := nextBand edge (s.get F.Thm.TB_HYST pgThm) 2 (s.get f pgThm) (s.dieT d)
  if s.get f pgThm = new then s
  else (s.set f pgThm new).raise Ev.thermTimingBand pgThm (unsext 16 (s.dieT d) * 2 ^ 16 + new * 2 ^ 8 + (d - 1))

/-! ### Slow-down request (R551) -/

/-- FLAGS of Table 17-4. -/
def State.slowFlags (s : State) : Nat :=
  let die := fun (d : Nat) => bit (decide (2 ≤ s.get (levelField d) pgThm)) * 2 ^ d
  let head := (List.range Config.ports).any (fun p =>
    decide (2 ≤ s.getI (headLevelField p) pgThm (p / 4)) || s.onI (headLatchField p) pgThm (p / 4))
  die 0 + die 1 + die 2 + bit head * 8

/-- The payload of the datagram. -/
def State.slowPayload (s : State) (flags : Nat) : List Byte :=
  let hot := max (s.dieT 0) (max (s.dieT 1) (s.dieT 2))
  leBytes 4 0x4B44534C ++ leBytes 2 (s.get F.Colo.SYS_ADDR 1) ++ leBytes 1 flags ++ [0] ++ leBytes 2 (unsext 16 hot) ++ [0, 0] ++
    leBytes 4 s.hk.slowSeq

/-- The frame around a datagram to an IPv4 address. The destination MAC address of a host, and the header bytes that no rule
gives, come from `mac` and `h`. -/
def State.udpAround (s : State) (ip port mac h : Nat) (m : List Byte) : List Byte :=
  let dst := leBytes 4 ip
  let udp := beBytes 2 port ++ beBytes 2 port ++ beBytes 2 (m.length + 8) ++ [0, 0] ++ m
  let hd := [0x45] ++ beBytes 1 h ++ beBytes 2 (20 + udp.length) ++ beBytes 2 (h / 2 ^ 8) ++ [0, 0] ++ beBytes 1 (h / 2 ^ 24) ++
    [17, 0, 0] ++ leBytes 4 (s.get F.Sw.IPV4_ADDR pgSw) ++ dst
  let hd1 := patch hd 10 (beBytes 2 (inetSum (words16 hd)))
  let group := 0x01005E000000 + beNat dst % 2 ^ 23
  let to6 := if beNat dst / 2 ^ 28 = 0xE then group else low 48 mac
  let bs := beBytes 6 to6 ++ beBytes 6 s.macAddr ++ beBytes 2 0x0800 ++ hd1 ++ udp
  patch bs 40 (beBytes 2 (udpSum bs 14 34 false))

/-- The datagram is sent through the host path on port 0's PVID. -/
def slowSend (flags : Nat) (s : State) : State :=
  let a := s.free
  let b := a.2.free
  let bs := s.udpAround (s.get F.Thm.SLOW_DST_IP pgThm) (s.get F.Thm.SLOW_DST_PORT pgThm) a.1 b.1 (s.slowPayload flags)
  let s1 := b.2.updHk (fun x => { x with slowAt := s.now, slowSeq := (x.slowSeq + 1) % 2 ^ 32 })
  let f := parseFrame bs
  match s1.vlanOf 0 none with
  | none => s1.sat F.Sw.VLAN_DROPS pgSw
  | some (v, vid, pcp) =>
    forAll (s1.forwardTo 0 v vid f.dst) s1 (fun out s => sendOut f v vid pcp 0 { bytes := [], arrived := s.now } (pcp / 2) out s)

/-- The request begins or ends. -/
def slowCheck (s : State) : State :=
  let want := s.on F.Thm.SLOW_EN pgThm && s.slowFlags != 0
  let is := s.on F.Thm.SLOW_ACTIVE pgThm
  if want && !is then
    slowSend s.slowFlags ((s.set F.Thm.SLOW_ACTIVE pgThm 1).raise Ev.thermSlowdownReq pgThm (256 + s.slowFlags))
  else if !want && is then slowSend 0 ((s.set F.Thm.SLOW_ACTIVE pgThm 0).raise Ev.thermSlowdownReq pgThm 0)
  else s

/-- SLOWDOWN_SEND (R551). -/
def execSlowdownSend (s : State) : Out :=
  .next (if s.on F.Thm.SLOW_ACTIVE pgThm ∧ s.hk.slowAt + 100000000 ≤ s.now then slowSend s.slowFlags s else s)

/-! ### Drive rails (R562) -/

/-- The sample of a cluster, in mV. -/
def State.driveSample (s : State) (c : Nat) : Option Int :=
  let ch := s.getI F.Drv.HK_CH pgDrv c
  if ch = 0xFF then
    let x := s.laneOf (4 * c + s.getI F.Drv.SENSE_PORT pgDrv c)
    if x.lastTemp.isSome then some x.drive else none
  else if ch < 64 ∧ s.onI F.Hk.HK_VALUE_VALID pgHk ch then some (s.hkValue ch)
  else none

/-- A drive rail is at fault. -/
def driveFails (c kind : Nat) (s : State) : State :=
  if s.onI F.Drv.FAULT pgDrv c then s
  else
    setCause 6 ((s.setI F.Drv.FAULT pgDrv c 1).raise Ev.pwrDriveFault pgDrv
      (s.getI F.Drv.MV pgDrv c * 2 ^ 16 + kind * 2 ^ 8 + c))

/-- A round at a cluster: `now_` and `was` are its DRIVE_EN at this round and at the round before. -/
def driveRound (now_ was : Nat) (c : Nat) (s : State) : State :=
  match s.driveSample c with
  | none => s
  | some v =>
    if !s.onI F.Drv.SUPERVISE pgDrv c then s
    else
      let nom : Int := s.getI F.Drv.NOM_MV pgDrv c
      let win : Int := s.getI F.Drv.WIN pgDrv c
      let inWin := decide (nom * (200 - win) ≤ 200 * v ∧ 200 * v ≤ nom * (200 + win))
      let s1 := (s.setI F.Drv.MV pgDrv c (unsext 16 v)).setI F.Drv.IN_WINDOW pgDrv c (bit inWin)
      let since := tget s.hk.driveAt c 0
      let on := bitAt now_ c
      let rise := decide (since + s.getI F.Drv.RISE_MS pgDrv c * 1000000 ≤ s.now)
      let fall := decide (since + s.getI F.Drv.FALL_MS pgDrv c * 1000000 ≤ s.now)
      let isLow := decide (100 * v < nom * s.getI F.Drv.OFF pgDrv c)
      if on != bitAt was c || !(if on then rise else fall) then s1
      else
        let good := if on then inWin else isLow
        let s2 := s1.updHk (fun x => { x with driveBad := putIn x.driveBad c (!good) })
        if good then s2.setI F.Drv.FAULT pgDrv c 0
        else if s.hk.driveBad.contains c then driveFails c (if on then 1 else 2) s2
        else s2

/-- The clusters at a round. -/
def driveRounds (s : State) : State :=
  let now_ := s.get F.Sag.DRIVE_EN pgSag
  let was := s.hk.drive
  (forAll (List.range Config.clusters) s (driveRound now_ was)).updHk (fun x => { x with drive := now_ })

/-! ### The round (R544, R546) -/

/-- The SDRAM channels take their temperatures (R410). -/
def memRound (s : State) : State :=
  forAll [0, 1, 2, 3] s (fun ch s =>
    let src := s.get F.Chan.TEMP_SRC (pgChan ch)
    if src < 64 ∧ s.onI F.Hk.HK_VALUE_VALID pgHk src ∧ s.ready (pgChan ch) then
      let was := s.get F.Chan.BAND (pgChan ch)
      let s1 := memTemperature ch (s.hkValue src) s
      if was ≠ 2 ∧ s1.get F.Chan.BAND (pgChan ch) = 2 then setCause 5 s1 else s1
    else s)

/-- A good round: every channel's VALUE, sensors, levels, and what takes its temperature from them. -/
def goodRound (codes : List Nat) (s : State) : State :=
  let s1 := (forAll (List.range 64) s (fun ch => takeValue ch (codes.getD ch 0))).updHk (fun x => { x with bad := 0 })
  let s2 := forAll (List.range 5) (forAll (List.range 10) (s1.set F.Hk.ADC_OK pgHk 1) sensorCheck) pairCheck
  let s3 := if s2.ready pgThm then redormant (forAll [0, 1, 2] (showTemps s2) dieLevel) else s2
  let s4 := if s3.ready pgThm then forAll [1, 2] s3 timingBand else s3
  memRound (tdcAuto (pollRound s4))

/-- A round whose reference reads wrong (R546): after three in a row every die is at throttle. -/
def badRound (code : Nat) (s : State) : State :=
  let s1 := ((s.sat F.Hk.BAD_ROUNDS pgHk).set F.Hk.ADC_OK pgHk 0).updHk (fun x => { x with bad := x.bad + 1 })
  let s2 := s1.raise Ev.thermAdcFault pgHk (arg64 (s1.get F.Hk.BAD_ROUNDS pgHk) code)
  if s2.hk.bad < 3 then s2
  else
    let s3 := forAll (List.range 64) s2 (fun ch s => s.setI F.Hk.HK_VALUE_VALID pgHk ch 0)
    forAll [0, 1, 2] s3 (fun d s => if s.get (levelField d) pgThm < 2 ∧ s.ready pgThm then setLevel d 2 s else s)

/-- HK_ROUND: the eight conversions of each of the 64 channels (R544 to R562). -/
def execHkRound (raw : List (List Nat)) (s : State) : Out :=
  .next (if s.ready pgHk ∧ s.modeNow ≠ 0 ∧ s.mode.porst = false then
    let codes := (List.range 64).map (fun ch => s.hkCode (raw.getD ch []))
    let ref := codes.getD 15 0
    let s1 := s.wrap F.Hk.HK_ROUNDS pgHk
    let s2 := if 16 < natDist ref 2047 then badRound ref s1 else goodRound codes s1
    let s3 := if s2.ready pgThm then
        slowCheck (forAll (List.range Config.ports) (forAll (List.range 8) s2 typeCheck) headRound)
      else s2
    let s4 := if s3.ready pgDrv then driveRounds s3 else s3
    if s4.ready pgCore then avsUpdate (decide (s4.dieT 0 < 0) || decide (s4.dieT 1 < 0) || decide (s4.dieT 2 < 0)) s4 else s4
  else s)

/-- Fields that are computed: HEAD_STATE.STALE, DRV_STATUS.DRIVE_EN. -/
def State.viewThm (s : State) (f : Fld) (pg i : Nat) : Option Nat :=
  if pg = pgThm ∧ f.off = 0x300 ∧ f.lo % 8 = 4 then some (s.laneGet F.Lane.TEMP_STALE (4 * i + f.lo / 8))
  else if f == F.Drv.DRIVE_EN then some (bit (bitAt (s.get F.Sag.DRIVE_EN pgSag) i))
  else none

end Sys2Proof.Machine
end

