-- ==== Sys2Proof/Machine/Hooks.lean ====
section
/-! DEFINITION. What each block does at the events that all of them share: ENABLE, HOLD, QUIESCE, function reset, READY, a mode
change, Safe-Hold and power. Each operation hands on to the block's own file. -/

namespace Sys2Proof.Machine

/-! ### ENABLE, HOLD and QUIESCE -/

/-- The first folio from E on whose header is not held: the next ingest boundary. -/
def ingestStart (s : State) : State :=
  let e := s.expected
  let nb := ((List.range 4).map (fun k => (e + k) % 2 ^ 32)).find? (fun n => !((s.folio n).map (fun f => f.hdr.isSome)).getD false)
  startBoundary pgIng (nb.getD ((e + 4) % 2 ^ 32)) s

/-- The next boundary of a camera page: the frame after the link's last one; pipeline and taps follow FRAME_SOURCE. -/
def frameBoundary (pg : Nat) (s : State) : State :=
  let l := if within pg 0x070 0x072 then pg - 0x070 else s.get F.Pipe.FRAME_SOURCE pgPipe
  startBoundary pg (s.get F.Cam.LINK_FRAME (pgCam l) + 1) s

/-- ENABLE becomes 1: the page's function starts. -/
def blockStart (pg : Nat) (s : State) : State :=
  if within pg 0x010 0x03F then portStart (pg - 0x010) s
  else if within pg 0x008 0x00B then posStart (pg - 0x008) s
  else if pg = pgIng then ingestStart s
  else if within pg 0x062 0x06F then startBoundary pg (s.regionNext (regionOfPage pg)) s
  else if within pg 0x070 0x074 then frameBoundary pg s
  else if pg = pgTrk then trkStart s
  else if pg = pgPair then pairStart s
  else s

/-- ENABLE of a camera page becomes 0: open frames close as when their slots are disabled, and EN stays. -/
def camStop (l : Nat) (s : State) : State :=
  forAll ((streamsOf l).filter s.slotOn) s (fun st s => (slotDisable st s).setI F.Cam.SLOT_CFG_EN (pgCam l) (slotOf st) 1)

/-- ENABLE becomes 0: the page's function stops. -/
def blockStop (pg : Nat) (s : State) : State :=
  if within pg 0x010 0x03F then portStop (pg - 0x010) s
  else if within pg 0x008 0x00B then posStop (pg - 0x008) s
  else if within pg 0x070 0x072 then camStop (pg - 0x070) s
  else if pg = pgTrk then trkStop s
  else if pg = pgPair then pairStop s
  else s

/-- HOLD is written: off, the function goes on from where it stopped (R58, R267). -/
def blockHold (pg : Nat) (on : Bool) (s : State) : State :=
  let s1 := if on then s else s.updBnd pg (fun b => { b with heldFrom := none })
  if within pg 0x010 0x03F then portHold (pg - 0x010) on s1 else s1

/-- QUIESCE becomes 0: a firing port asks for the lines that it has missed (R117). -/
def blockRelease (pg : Nat) (s : State) : State := if within pg 0x010 0x03F then portRelease (pg - 0x010) s else s

/-! ### Function reset and READY -/

/-- The data that a function reset of a page discards (R119, R122). -/
def blockDiscard (pg : Nat) (s : State) : State :=
  let s := stackRetire pg s
  if within pg 0x010 0x03F then portDiscard (pg - 0x010) s
  else if within pg 0x008 0x00B then posDiscard (pg - 0x008) s
  else if within pg 0x050 0x05B then laneDiscard (pg - 0x050) s
  else if pg = pgCmp then cmpDiscard s
  else if pg = pgIng then ingestDiscard s
  else if pg = pgJob then jobDiscard s
  else if within pg 0x062 0x065 then inflDiscard (pg - 0x062) s
  else if within pg 0x068 0x06B then regionDiscard (pg - 0x068) s
  else if within pg 0x06C 0x06F then trkScreenReset (pg - 0x06C) (regionDiscard (pg - 0x06C) s)
  else if within pg 0x070 0x072 then camDiscard (pg - 0x070) s
  else if pg = pgPipe then pipeDiscard s
  else if pg = pgTap then s.updPipe (fun p => { p with taps := [] })
  else if pg = pgTrk then trkAbandon s
  else if pg = pgTdc then tdcDiscard s
  else if pg = pgCal then calDiscard s
  else if within pg 0x080 0x083 then memDiscard (pg - 0x080) s
  else if pg = pgSram then scrubDiscard s
  else if pg = pgStk then stackDiscard s
  else if within pg 0x090 0x091 then netDiscard (pg - 0x090) s
  else if pg = pgSw then switchDiscard s
  else if pg = pgPtp then ptpDiscard s
  else if pg = pgTrig then trigDiscard s
  else if pg = pgPair then pairDiscard s
  else if pg = pgSeq then seqDiscard s
  else if pg = pgMbox then mboxDiscard s
  else if pg = pgIrq then irqDiscard s
  else if pg = pgSto then storeDiscard s
  else s

/-- What a page does as it becomes READY: retained fields first (R111), then what its chapter gives (R113, R217, R387, R420, R441,
R538, R557, R567). -/
def blockReady (pg : Nat) (s : State) : State :=
  let again := (s.bndOf pg).resetting
  let s := stackUnmask pg (restorePage pg s)
  if pg = pgIng then ingestReady s
  else if within pg 0x06C 0x06F then (if again then s else screenFill (pg - 0x06C) s)
  else if within pg 0x070 0x074 then frameBoundary pg (if pg = pgTap then tapReady s else s)
  else if pg = pgTdc then (if again then s else tdcReady s)
  else if pg = pgCal then calRestore s
  else if pg = pgMem then memCommonReady s
  else if within pg 0x080 0x083 then memChanReady (pg - 0x080) s
  else if pg = pgSram then s.set F.Sram.INIT_STATUS pgSram 7
  else if pg = pgStk then stackReady (if again then s else { s.set F.Stk.LINK_TRAINED pgStk 3 with flits := [] })
  else if pg = pgSag then sagLatch s
  else if pg = pgSeq then seqReady s
  else if pg = pgSto then storeReady s
  else s

/-- Conditions on a page's READY beside Table 3-6: the Sagger's self-test, the image check, the rails, training and the lane
PLL. -/
def blockMayReady (s : State) (pg : Nat) : Bool :=
  if within pg 0x040 0x04B then s.on F.Clu.PLL_LOCKED pg
  else if within pg 0x080 0x083 then s.memMayReady (pg - 0x080)
  else if pg = pgStk || pg = pgDrv then s.seqState == 2
  else if pg = pgSag then s.sag.up == 2
  else if pg = pgCpu then s.on F.Cpu.BOOTED pgCpu
  else true

/-! ### Modes -/

/-- A transition from Print or Service to Idle is accepted: the ports stop by their policy (R100). -/
def blockStopPrinting (stopNow : Bool) (s : State) : State := forAll (List.range Config.ports) s (portLeave stopNow)

/-- Every port has stopped (R100). -/
def portsStopped (s : State) : Bool := (List.range Config.ports).all (fun p => !s.portBusy p)

/-- The mode has changed: ports start a run or tickle, the Sagger's demand follows, and a rail fault goes on to Dormant from
Safe-Hold (R264, R291, R482, R502, R538, R558). -/
def blockModeChanged (old new : Nat) (s : State) : State :=
  let s0 := if new = 5 then forAll (List.range Config.ports) s portHalt else s
  let s1 := if new = 2 ∧ old ≠ 2 then netToIdle s0 else s0
  let s2 := sagOutputs (pairModeChanged new (forAll (List.range Config.ports) s1 portNext))
  if new = 5 ∧ s2.rail.dormant then startDormant 3 (s2.updRail (fun x => { x with dormant := false }))
  else if new = 5 ∧ s2.mode.toDormant then startTransition 0 s2
  else s2

/-- The ordered actions of Safe-Hold entry: strobes, the drive-off demand, the data path (R102). -/
def blockSafeHold (s : State) : State :=
  let s1 := forAll (List.range Config.ports) s portHalt
  sagOutputs { s1 with mode := { s1.mode with pathStopped := true } }

/-- A transition to Dormant is accepted: the journal closes (R566). -/
def blockToDormant (s : State) : State := journalStop 1 s

/-- The journal is closed, no rail is on and no NOR operation runs. -/
def dormantReached (s : State) : Bool :=
  s.jrn.closed && s.norOp == 0 && (List.range 16).all (fun k => !s.onI F.Seq.ON pgSeq k)

/-- The Sagger host view reports operate state. -/
def sagOperate (s : State) : Bool := s.on F.Sag.OPERATE pgSag

/-! ### Power -/

/-- Power-up, wake and power-down of the dies: every page at its reset values, memories cleared; the NOR, the Sagger and what
page 0x0A0 shows of it outlive them (R16, R515, R635). The time counter starts again (R466). -/
def blockPowerUp (s : State) : State :=
  let kept := forAll sagShown State.reset (fun f t => forAll (List.range f.cnt) t (fun i t =>
    t.setI f pgSag i (s.getI f pgSag i)))
  { kept with
    now := s.now
    pending := s.pending
    freeIx := s.freeIx
    countBase := s.now
    sag := s.sag
    jrn := { a := s.jrn.a, b := s.jrn.b }
    cpu := { nor := s.cpu.nor } }

/-- PORST_n falls: rails off, a program that has begun is torn, the Sagger is in STOPPED, every die is reset (R622). -/
def blockPorst (s : State) : State := blockPowerUp (sagPorst (railsPorst (storeTear s)))

end Sys2Proof.Machine
end

