-- ==== Sys2Proof/Machine/Control.lean ====
section
/-! DEFINITION. CONTROL: enable, hold, quiesce and function reset (R58 to R63, R117 to R124), and the control ring that
carries the last three (R41 to R45, R115, R123). -/

namespace Sys2Proof.Machine

/-- ENABLE written by a word of CONTROL (R60, R63). -/
def controlEnable (pg : Nat) (on : Bool) (data : Nat) (s : State) : State :=
  if on then
    if s.lockedOut pg then s.raise Ev.regWriteLockedOut pg (arg64 data 8)
    else if s.on F.Hdr.ENABLE pg then s
    else blockStart pg (s.set F.Hdr.ENABLE pg 1)
  else if s.on F.Hdr.ENABLE pg then blockStop pg (s.set F.Hdr.ENABLE pg 0)
  else s

/-- QUIESCE becomes 1 (R117, R118). -/
def quiesce (pg : Nat) (s : State) : State :=
  if s.on F.Hdr.QUIESCE pg then s
  else (s.set F.Hdr.QUIESCE pg 1).updBnd pg (fun b => { b with quiesceAt := some s.now })

/-- QUIESCE becomes 0. -/
def releaseQuiesce (pg : Nat) (s : State) : State :=
  if s.on F.Hdr.QUIESCE pg then
    blockRelease pg ((s.set F.Hdr.QUIESCE pg 0).updBnd pg (fun b => { b with quiesceAt := none }))
  else s

/-- One field's value after a function reset; `ret` fields are restored before READY (R16, R119). -/
def resetField (pg : Nat) (s : State) (f : Fld) : State :=
  match f.fr with
  | .to v => if f.acc = .rws then s else forAll (List.range f.cnt) s (fun i s => s.setI f pg i v)
  | _ => s

/-- A page has been reset: the resets of it that wait on the control ring complete with this one (R45). -/
def ringJoin (pg : Nat) (s : State) : State :=
  let join := fun (r : RingReq) => if r.op = 4 then { r with joined := r.joined ++ [pg] } else r
  { s with ring := { s.ring with onRing := s.ring.onRing.map join, waiting := s.ring.waiting.map join } }

/-- A function reset of one page (R73, R119, R120, R121); a second request before it completes joins it (R45). -/
def resetPage (pg requester : Nat) (s : State) : State :=
  if !present pg || (s.bndOf pg).resetting then s
  else
    let s1 := abandonCommit pg (blockDiscard pg s)
    let s2 := (pageFields pg).foldl (resetField pg) s1
    let s3 := (copySets pg [] s2).updBnd pg (fun b => { b with resetting := true, quiesceAt := none, heldFrom := none })
    let s4 := if pg = pgMode then forAll (List.range 8) s3 groupCancel else s3
    ringJoin pg (s4.raise Ev.regFuncReset pgReady (requester * 256 + pg))

/-- The pages that a function reset of a page takes: a cluster page takes its four firing pages and its lane-group page with
it (R23). -/
def resetPages (pg : Nat) : List Nat :=
  if within pg 0x040 0x04B then
    let c := pg - 0x040
    [pg] ++ (List.range 4).map (fun i => 0x010 + 4 * c + i) ++ [0x050 + c]
  else [pg]

/-- A function reset (R23, R119). -/
def funcReset (pg requester : Nat) (s : State) : State := forAll (resetPages pg) s (fun p => resetPage p requester)

/-- A ring operation on QUIESCE came in this cycle: a fabric write of the bit does not undo it (R123). -/
def State.ringQuiesced (s : State) (pg : Nat) : Bool := (s.bndOf pg).ringAt == some s.now

/-- A fabric write of QUIESCE (R117, R123). -/
def fabricQuiesce (pg : Nat) (on : Bool) (s : State) : State :=
  if s.ringQuiesced pg then s else if on then quiesce pg s else releaseQuiesce pg s

/-- CONTROL_ENABLE (R60, R61). -/
def execControlEnable (pg : Nat) (on : Bool) (s : State) : Out :=
  let data := s.get F.Hdr.HOLD pg * 8 + s.get F.Hdr.QUIESCE pg * 4 + bit on
  .next (if present pg ∧ !s.silent then controlEnable pg on data s else s)

/-- CONTROL_HOLD (R58). -/
def execControlHold (pg : Nat) (on : Bool) (s : State) : Out :=
  .next (if present pg ∧ !s.silent then blockHold pg on (s.set F.Hdr.HOLD pg (bit on)) else s)

/-- CONTROL_QUIESCE (R117). -/
def execControlQuiesce (pg : Nat) (s : State) : Out := 
  .next (if present pg ∧ !s.silent then fabricQuiesce pg true s else s)

/-- CONTROL_RELEASE_QUIESCE (R58). -/
def execControlReleaseQuiesce (pg : Nat) (s : State) : Out := 
  .next (if present pg ∧ !s.silent then fabricQuiesce pg false s else s)

/-- CONTROL_FUNC_RESET (R119): the requester of a fabric write is the writer's owner identifier. -/
def execControlFuncReset (pg owner : Nat) (s : State) : Out := .next (if s.silent then s else funcReset pg (low 8 owner) s)

/-- QUIESCE_TIMEOUT: BUSY is still 1 at 20 µs after QUIESCE became 1 (R118). -/
def execQuiesceTimeout (pg : Nat) (s : State) : Out :=
  .next (match (s.bndOf pg).quiesceAt with
    | some t =>
      if s.on F.Hdr.QUIESCE pg ∧ s.busy pg ∧ t + 20000 ≤ s.now then
        (s.updBnd pg (fun b => { b with quiesceAt := none })).raise Ev.regQuiesceTimeout pgReady pg
      else s
    | none => s)

/-! ### Control ring -/

/-- A header word as the ring reads it (Table 2-2). -/
def State.headerWord (s : State) (pg w : Nat) : Nat :=
  if present pg then
    (fieldsHdr.filter (fun f => f.off == 4 * w)).foldl
      (fun a f => a + (if f == F.Hdr.STATUS_BUSY then bit (s.busy pg)
        else (s.viewHdr f pg).getD (if f.acc == .wo then 0 else s.get f pg)) * 2 ^ f.lo) 0
  else 0

/-- The requester that FUNC_RESET names for a ring frame (Table 20-5). -/
def ringRequester (who : Nat) : Nat :=
  match who with
  | 0 => 0xF1
  | 1 => 0xF2
  | 2 => 0xF3
  | _ => 0xF4

/-- The waiting request that goes next: fixed priority, Sagger first (R42). -/
def ringNext (l : List RingReq) : Option RingReq :=
  (List.range 4).findSome? (fun who => l.find? (fun r => r.who == who))

/-- The ring takes the next waiting request. -/
def ringAdvance (s : State) : State :=
  match ringNext s.ring.waiting with
  | some r => { s with ring := ⟨some r, false, s.ring.waiting.erase r⟩ }
  | none => { s with ring := ⟨none, false, []⟩ }

/-- A request enters the ring controller, which holds one frame at a time (R42); a function reset joins one that has not
completed (R45). -/
def ringRequest (r0 : RingReq) (s : State) : State :=
  let r := if r0.op = 4 then { r0 with joined := (resetPages r0.page).filter (fun p => (s.bndOf p).resetting) } else r0
  match s.ring.onRing with
  | none => { s with ring := { s.ring with onRing := some r, resent := false } }
  | some _ => { s with ring := { s.ring with waiting := s.ring.waiting ++ [r] } }

/-- A host GO of RING_CMD; it is ignored while a host frame is pending (R115). -/
def ringHost (op pg word : Nat) (s : State) : State :=
  if s.on F.Rdy.PENDING pgReady then s
  else
    ringRequest { who := 3, op := op, page := pg, word := word }
      ((((s.set F.Rdy.PENDING pgReady 1).set F.Rdy.DONE pgReady 0).set F.Rdy.ERROR pgReady 0).set F.Rdy.LAST_PAGE pgReady pg)

/-- What a node does with a frame that it executes (R41); a page that is not there passes it on (R115). -/
def ringExecute (r : RingReq) (s : State) : State :=
  if present r.page then
    match r.op with
    | 2 => (quiesce r.page s).updBnd r.page (fun b => { b with ringAt := some s.now })
    | 3 => (releaseQuiesce r.page s).updBnd r.page (fun b => { b with ringAt := some s.now })
    | 4 => forAll ((resetPages r.page).filter (fun p => !r.joined.contains p)) s (fun p => resetPage p (ringRequester r.who))
    | _ => s
  else s

/-- The end of a frame for its requester: the host sees DONE, ERROR and, for a header read, the data. -/
def ringDone (r : RingReq) (err : Bool) (s : State) : State :=
  if r.who = 3 then
    let s1 := ((s.set F.Rdy.PENDING pgReady 0).set F.Rdy.DONE pgReady 1).set F.Rdy.ERROR pgReady (bit err)
    if r.op = 1 ∧ !err then s1.set F.Rdy.RING_DATA pgReady (s.headerWord r.page r.word)
    else if !present r.page then s1.set F.Rdy.RING_DATA pgReady 0
    else s1
  else s

/-- The data word of a RING_CMD write. -/
def ringCmdWord (op pg word : Nat) : Nat := op * 2 ^ 28 + pg * 2 ^ 16 + word * 2 ^ 8 + 1

/-- RING_HEADER_READ (R115). -/
def execRingHeaderRead (pg word owner : Nat) (s : State) : Out :=
  .next (gateReg pgReady 0xA0 (ringCmdWord 1 pg word) owner (ringHost 1 (low 8 pg) (low 4 word)) s)

/-- RING_QUIESCE (R115). -/
def execRingQuiesce (pg owner : Nat) (s : State) : Out :=
  .next (gateReg pgReady 0xA0 (ringCmdWord 2 pg 0) owner (ringHost 2 (low 8 pg) 0) s)

/-- RING_RELEASE_QUIESCE (R115). -/
def execRingReleaseQuiesce (pg owner : Nat) (s : State) : Out :=
  .next (gateReg pgReady 0xA0 (ringCmdWord 3 pg 0) owner (ringHost 3 (low 8 pg) 0) s)

/-- RING_FUNC_RESET (R115). -/
def execRingFuncReset (pg owner : Nat) (s : State) : Out :=
  .next (gateReg pgReady 0xA0 (ringCmdWord 4 pg 0) owner (ringHost 4 (low 8 pg) 0) s)

/-- RING_FRAME_COMPLETE: executed, or marked by a node with a CHECK mismatch and then resent once (R43, R44). -/
def execRingFrameComplete (marked : Bool) (s : State) : Out :=
  .next (match s.ring.onRing with
    | none => s
    | some r =>
      if marked then
        if s.ring.resent then
          ringAdvance (ringDone r true (s.raise Ev.regRingError pgReady (r.op * 256 + r.page)))
        else { s with ring := { s.ring with resent := true } }
      else ringAdvance (ringDone r false (ringExecute r s)))

end Sys2Proof.Machine
end

