-- ==== Sys2Proof/Machine/DieLinks.lean ====
section
/-! DEFINITION. The two die-to-die links (R38 to R40). -/

namespace Sys2Proof.Machine

/-- A die link goes down: cause 1 sixteen failed replays, 2 training lost; Safe-Hold is requested (R40). -/
def linkDown (link cause : Nat) (s : State) : State :=
  let s1 := s.set F.Stk.LINK_TRAINED pgStk (clearBit (s.get F.Stk.LINK_TRAINED pgStk) link)
  setCause 3 (pairLinkDown (s1.raise Ev.stkDieLinkDown pgStk (cause * 16 + link)))

/-- LINK_RETRY of a link. -/
def linkRetryFld (link : Nat) : Fld := if link = 0 then F.Stk.LINK_RETRY_0 else F.Stk.LINK_RETRY_1

/-- A flit failed its CRC: a replay is asked for (R39). -/
def linkRetry (link dir seq fails : Nat) (s : State) : State :=
  let s1 := { s with flits := tput s.flits (2 * link + dir) ⟨seq, some fails⟩ }
  (s1.sat (linkRetryFld link) pgStk).raise Ev.stkDieLinkRetry pgStk (low 32 seq * 2 ^ 32 + link)

/-- DIE_LINK_FLIT: a flit with a sequence number arrives in direction `dir` of a link and is checked. Flits that follow a failed
one are discarded until it has been replayed (R39, R40). -/
def execDieLinkFlit (link dir seq : Nat) (crcBad : Bool) (s : State) : Out :=
  let x := tget s.flits (2 * link + dir) {}
  .next (if 2 ≤ link ∨ 2 ≤ dir ∨ bitAt (s.get F.Stk.LINK_TRAINED pgStk) link = false ∨ low 32 seq ≠ x.next then s
  else if crcBad then
    match x.replay with
    | none => linkRetry link dir x.next 0 s
    | some n => if n + 1 = 16 then linkDown link 1 s else linkRetry link dir x.next (n + 1) s
  else { s with flits := tput s.flits (2 * link + dir) ⟨low 32 (x.next + 1), none⟩ })

/-- DIE_LINK_TRAINING_LOST (R40). -/
def execDieLinkTrainingLost (link : Nat) (s : State) : Out :=
  .next (if link < 2 ∧ bitAt (s.get F.Stk.LINK_TRAINED pgStk) link then linkDown link 2 s else s)

end Sys2Proof.Machine
end

