-- ==== Sys2Proof/Machine/Edges.lean ====
section
/-! DEFINITION. Encoder edges and observer ticks with everything that they drive: the count, the dividers and their line tags,
and the ports that time their lines by the channel (R225 to R248, R268, R342). `reps` is a mask of the dies whose replica
samples the edge in this cycle: bit 0 the hub, bits 1 and 2 the raster dies. -/

namespace Sys2Proof.Machine

/-- Steps of the hub's count at the dividers, with a tag for each pulse (R246, R342). -/
def countSteps (ch : Nat) (fwd : Bool) : Nat → State → State
  | 0, s => s
  | n + 1, s =>
    let r := divSteps ch fwd s
    countSteps ch fwd n (forAll r.2 r.1 (fun d s => forAll (List.range 9) s (pushTag d)))

/-- The replicas whose count is ahead of an earlier state's, as a mask. -/
def movedForward (ch : Nat) (old new : State) : Nat :=
  (List.range 3).foldl (fun a die =>
    a + bit (decide (0 < diff48 (new.countNow ch die) (old.countNow ch die))) * 2 ^ die) 0

/-- What follows a decoded edge whose hub count changed by `d`. -/
def afterEdge (ch t16 : Nat) (d : Int) (old new : State) : State :=
  let s1 := countSteps ch (decide (0 < d)) d.natAbs new
  let moved := movedForward ch old new
  if moved = 0 then s1 else portsEdge ch moved t16 s1

/-- The balls from key `base` on that differ from their sampled levels, as edges at the converters of the dies that sample them
(R384). -/
def ballEdges (ch reps base width v ph : Nat) (s : State) : State :=
  forAll (List.range 3) s (fun die s =>
    if bitAt reps die then
      forAll (List.range width) s (fun b s =>
        let i := width - 1 - b
        if ((s.posOf ch).rep die).level (base + i) != bitAt v i then
          tdcEdge ch (if base = 2 then 2 else b) (2 ^ die) ph s
        else s)
    else s)

/-- The balls of a channel from key `base` on are sampled at new levels on the dies of a mask (R226). -/
def sampleBalls (ch reps base width v ph : Nat) (s : State) : State :=
  (ballEdges ch reps base width v ph s).updPos ch (fun p => p.upd reps (Replica.sample base width v s.now (ph % 16)))

/-- The filtered pair (A, B) takes the value `ab` on the dies of a mask (R227, R228). -/
def quadNow (ch reps ab ph : Nat) (s : State) : State :=
  let r := quadTransition ch reps ab ph s
  afterEdge ch (s.edgeAt ch ph) r.2 s r.1

/-- The filtered three-switch code takes a value (R232, R233). -/
def switchNow (ch reps code ph : Nat) (s : State) : State :=
  let r := switchCode ch reps code ph s
  afterEdge ch (s.edgeAt ch ph) r.2 s r.1

/-- Z takes a filtered level (R230, R231, R265). A correction moves the count without an edge at a divider (R245). -/
def indexNow (ch reps : Nat) (z : Bool) (ph : Nat) (s : State) : State :=
  let s1 := indexEdge ch reps z s
  let moved := movedForward ch s s1
  let s2 := if moved = 0 then s1 else portsEdge ch moved (s.edgeAt ch ph) s1
  let hits := s.indexMask ch reps z
  if hits = 0 then s2 else portsIndex ch hits s2

/-- What passes the glitch filters of one die of a channel at the end of a cycle: A and B in one sample, then Z, so that an index
is judged on the pair and the count of the same cycle (R226, R228, R230). -/
def settleDie (ch die : Nat) (s : State) : State :=
  let g := s.get F.Pos.GLITCH (pgPos ch)
  let r := (s.posOf ch).rep die
  let ab := r.filtered 0 2 r.ab g s.now
  let s1 := if ab = r.ab then s else quadNow ch (2 ^ die) ab (r.phaseOf 0 2 r.ab ab) s
  let sw := r.filtered 4 3 r.sw g s.now
  let s2 := if sw = r.sw then s1 else switchNow ch (2 ^ die) sw (r.phaseOf 4 3 r.sw sw) s1
  let z := r.filtered 2 1 (bit r.z) g s.now
  if z = bit r.z then s2 else indexNow ch (2 ^ die) (z == 1) (r.phaseOf 2 1 (bit r.z) z) s2

/-- The glitch filters of every channel at the end of a cycle. -/
def settleBalls (s : State) : State := forAll (List.range 4) s (fun ch s => forAll (List.range 3) s (settleDie ch))

/-- QUAD_TRANSITION: the pair (A, B) is sampled at the value `ab` on the dies of a mask. Without a glitch filter it is decoded at
once, else it passes the filter as time goes on (R226 to R228). -/
def execQuadTransition (ch reps ab ph : Nat) (s : State) : Out :=
  .next (if ch < 4 then
    let s1 := sampleBalls ch reps 0 2 ab ph s
    if s.unfiltered ch then quadNow ch reps ab ph s1 else s1
  else s)

/-- SWITCH_CODE_CHANGE: the three-switch code is sampled at a value (R226, R232, R233). -/
def execSwitchCodeChange (ch reps code ph : Nat) (s : State) : Out :=
  .next (if ch < 4 then
    let s1 := sampleBalls ch reps 4 3 code ph s
    if s.unfiltered ch then switchNow ch reps code ph s1 else s1
  else s)

/-- INDEX_EVENT: Z is sampled at a level (R226, R230, R231); `balls` is that level, and the pair (A, B) where it changes in the same
sample: its step goes first (R230). -/
def execIndexEvent (ch reps : Nat) (balls : Bool × Option Nat) (ph : Nat) (s : State) : Out :=
  let z := balls.1
  let ab := balls.2
  .next (if ch < 4 then
    let s1 := match ab with
      | some v => sampleBalls ch reps 0 2 v ph s
      | none => s
    let s2 := sampleBalls ch reps 2 1 (bit z) ph s1
    if s.unfiltered ch then
      indexNow ch reps z ph (match ab with
        | some v => quadNow ch reps v ph s2
        | none => s2)
    else s2
  else s)

/-- OBSERVER_TICK: the update tick of a channel, every 1,000 fclk (R239 to R244, R269); a falling tolerance wakes SDRAM
channels (R415, R416). -/
def execObserverTick (ch : Nat) (s : State) : Out :=
  .next (if ch < 4 ∧ s.chOn ch ∧ s.onTick then memLatencyWake (portsTick ch (channelTick ch s)) else s)

end Sys2Proof.Machine
end

