-- ==== Sys2Proof/Machine/Modes.lean ====
section
/-! DEFINITION. Modes, Safe-Hold, bring-up and Dormant (R95 to R114, R635, R620, R622). Modes: 0 Dormant, 1 Bisque, 2 Idle,
3 Print, 4 Service, 5 Safe-Hold (Table 3-1). -/

namespace Sys2Proof.Machine

/-- The pages that REQUIRED names and that are not READY. -/
def State.missingPages (s : State) : List Nat :=
  (List.range 256).filter (fun pg => bitAt (s.getI F.Rdy.REQUIRED pgReady (pg / 32)) (pg % 32) && !s.ready pg)

/-- The transitions that a GO may request, Table 3-2; REQ_MODE 5 is handled apart. -/
def goLegal (mode dst : Nat) : Bool :=
  [(1, 2), (2, 3), (3, 2), (2, 4), (4, 2), (5, 2), (2, 0), (5, 0)].contains (mode, dst)

/-- A Safe-Hold cause bit has set in this cycle. -/
def State.causeNow (s : State) : Bool :=
  (List.range 7).any (fun i => s.stampedNow (setKey F.Mode.SAFE_HOLD_CAUSE pgMode i))

/-- The lowest reason of Table 3-3 that refuses a GO, 0 for none (R101); beside a cause it is 4 (R104). -/
def State.goRefusal (s : State) (dst : Nat) : Nat :=
  let m := s.modeNow
  let up := (m, dst) == (1, 2) || (m, dst) == (2, 3) || (m, dst) == (2, 4)
  if s.causeNow then 4
  else if s.inTransition then 1
  else if !goLegal m dst then 2
  else if up && !s.missingPages.isEmpty then 3
  else if (up || (m, dst) == (5, 2)) && s.get F.Mode.SAFE_HOLD_CAUSE pgMode != 0 then 4
  else if (dst == 3 || dst == 4) && !sagOperate s then 5
  else 0

/-- A GO with its REQ_MODE and STOP_NOW (R97, R99, R100, R101). -/
def modeGo (req : Nat) (stopNow : Bool) (s : State) : State :=
  let s1 := s.set F.Mode.STOP_NOW pgMode (bit stopNow)
  let s2 := if req < 6 then s1.set F.Mode.REQ_MODE pgMode req else s1
  if req = 5 then setCause 4 s2
  else
    let c := s2.goRefusal req
    if c ≠ 0 then
      (s2.set F.Mode.REFUSE_REASON pgMode c).raise Ev.regModeRefused pgMode (req * 256 + c)
    else
      let s3 := startTransition req { s2 with mode := { s2.mode with goAt := some (s2.now, req) } }
      if req = 0 then blockToDormant { s3 with mode := { s3.mode with toDormant := true } }
      else if s2.modeNow = 3 ∨ s2.modeNow = 4 then blockStopPrinting stopNow s3
      else s3

/-- MODE_GO (R97). -/
def execModeGo (req : Nat) (stopNow : Bool) (owner : Nat) (s : State) : Out :=
  .next (gateReg pgMode 0x40 (low 3 req + 16 + bit stopNow * 256) owner (modeGo (low 3 req) stopNow) s)

/-- The mode takes its new value (R98). -/
def enterMode (new : Nat) (s : State) : State :=
  let old := s.modeNow
  let s0 := if old = 1 then s.set F.Rdy.BISQUE_ELAPSED pgReady (min ((s.now - s.mode.bisqueSince) / 1000000) 65535) else s
  let s1 := ((s0.set F.Mode.PREV_MODE pgMode old).set F.Mode.MODE pgMode new).set F.Mode.IN_TRANSITION pgMode 0
  let s2 := { s1 with mode := { s1.mode with pathStopped := decide (new = 5) } }
  blockModeChanged old new (s2.raise Ev.regModeChange pgMode (new * 256 + old))

/-- MODE_CHANGE: the end of a transition; from Print or Service to Idle once every port has stopped (R98, R100). -/
def execModeChange (s : State) : Out :=
  .next (if s.inTransition ∧ s.target ≠ 0 ∧
      (s.target ≠ 2 ∨ (s.modeNow ≠ 3 ∧ s.modeNow ≠ 4) ∨ portsStopped s = true) ∧
      (s.target ≠ 5 ∨ s.mode.pathStopped = true) then enterMode s.target s
  else s)

/-- SAFE_HOLD_ENTRY: strobes stop, drive off is demanded and the data path stops, in this order (R102). -/
def execSafeHoldEntry (s : State) : Out :=
  .next (if s.inTransition ∧ s.target = 5 ∧ s.get F.Mode.SAFE_HOLD_CAUSE pgMode ≠ 0 then
    let s1 := blockSafeHold s
    { s1 with mode := { s1.mode with pathStopped := true } }
  else s)

/-- A word written to SAFE_HOLD_CAUSE: a 1 clears its bit only while the cause is not present, and not in the cycle in which
the bit sets (R14, R103). -/
def causeClear (mask : Nat) (s : State) : State :=
  s.set F.Mode.SAFE_HOLD_CAUSE pgMode ((List.range 7).foldl
    (fun v i => if bitAt mask i && !bitAt s.causesPresent i && !s.stampedNow (setKey F.Mode.SAFE_HOLD_CAUSE pgMode i)
      then clearBit v i else v)
    (s.get F.Mode.SAFE_HOLD_CAUSE pgMode))

/-- SAFE_HOLD_CAUSE_CLEAR (R103). -/
def execSafeHoldCauseClear (mask owner : Nat) (s : State) : Out :=
  .next (gateReg pgMode 0x48 mask owner (causeClear mask) s)

/-- AUTO_IDLE: the part leaves Bisque for Idle by itself (R97, Table 3-2). -/
def execAutoIdle (s : State) : Out :=
  .next (if s.modeNow = 1 ∧ s.inTransition = false ∧ s.mode.porst = false ∧ s.on F.Mode.AUTO_IDLE pgMode ∧
      s.ready pgMode ∧ s.missingPages = [] ∧ s.get F.Mode.SAFE_HOLD_CAUSE pgMode = 0 then startTransition 2 s else s)

/-- BISQUE_TIMEOUT (R110). -/
def execBisqueTimeout (s : State) : Out :=
  .next (if s.modeNow = 1 ∧ s.mode.porst = false ∧ s.mode.bisqueTimeout = false ∧ s.missingPages ≠ [] ∧
      s.mode.bisqueSince + s.get F.Mode.BISQUE_LIMIT pgMode * 1000000 ≤ s.now then
    let s1 := { s with mode := { s.mode with bisqueTimeout := true } }
    s1.raise Ev.regBisqueTimeout pgMode (arg64 s.missingPages.length (s.missingPages.headD 0))
  else s)

/-- The pages that a page's READY depends on, Table 3-6. DESIGN CHOICE: where the table names a block without pages, a firing
port's Clusters are its own cluster's page, the Control ring is page 0x000, and the Pair's Network ports are 0x090 and
0x091 (log 32). -/
def dependencies (pg : Nat) : List Nat :=
  if within pg 0x0A8 0x0A9 then [0x000]
  else if within pg 0x0AA 0x0AB || within pg 0x090 0x094 then [0x0B3]
  else if pg == 0x086 then [0x0AA]
  else if pg == 0x085 || within pg 0x008 0x00D || within pg 0x040 0x05B then [0x086]
  else if pg == 0x098 then [0x090, 0x091, 0x0B3]
  else if pg == 0x0AC then [0x0A0, 0x0AA]
  else if within pg 0x080 0x084 then [0x0AB, 0x0B3]
  else if pg == 0x07A || pg == 0x0B0 then [0x0B3]
  else if within pg 0x010 0x03F then [0x040 + (pg - 0x010) / 4, 0x008, 0x009, 0x00A, 0x00B]
  else if within pg 0x068 0x06F then [0x086, 0x07A]
  else if within pg 0x060 0x065 then [0x080, 0x081, 0x082, 0x083, 0x086]
  else if within pg 0x070 0x074 then [0x080, 0x081, 0x082, 0x083]
  else if within pg 0x0B1 0x0B2 then [0x0B0]
  else if within pg 0x078 0x079 then [0x080, 0x081, 0x082, 0x083, 0x07A, 0x0B0]
  else []

/-- FUNCTION_READY: READY sets once the dependencies are READY and the ret fields are restored (R108, R111). -/
def execFunctionReady (pg : Nat) (s : State) : Out :=
  .next (if present pg ∧ s.ready pg = false ∧ s.modeNow ≠ 0 ∧ s.mode.porst = false ∧ (dependencies pg).all s.ready ∧
      blockMayReady s pg then
    (blockReady pg (s.set F.Hdr.READY pg 1)).updBnd pg (fun b => { b with resetting := false })
  else s)

/-! ### Power-up, wake and Dormant -/

/-- The part comes up into Bisque with every page at its reset values (R16, R635). -/
def powerUp (cause : Nat) (s : State) : State :=
  let s1 := blockPowerUp s
  let s2 := s1.set F.Rdy.RESET_CAUSE pgReady cause
  sagOutputs { s2 with mode := { bisqueSince := s.now, thermalCheck := decide (8 ≤ cause) } }

/-- PORST_RELEASE (R97, R620): RESET_CAUSE says whether VDD_IO stayed present (Table 3-7). -/
def execPorstRelease (vddIoLost : Bool) (s : State) : Out :=
  .next (if s.mode.porst then powerUp (if vddIoLost then 1 else 2) s else s)

/-- PORST_ASSERT (R622). -/
def execPorstAssert (s : State) : Out :=
  .next (if s.mode.porst then s else
    let s1 := blockPorst s
    { s1 with mode := { s1.mode with porst := true } })

/-- The reset cause of a wake: [2], with [3] after a thermal shutdown (Table 3-7). -/
def State.wakeCause (s : State) : Nat := if s.mode.thermalDormant then 12 else 4

/-- WAKE_PIN: WAKE_n low for at least 1 µs (Table 3-2). -/
def execWakePin (s : State) : Out :=
  .next (if s.modeNow = 0 ∧ s.mode.porst = false ∧ s.mode.wakePinEn then powerUp s.wakeCause s else s)

/-- WAKE_TIMER_EXPIRY: WAKE_DELAY ms after Dormant entry (Table 3-2, Table 3-4). -/
def execWakeTimerExpiry (s : State) : Out :=
  .next (if s.modeNow = 0 ∧ s.mode.porst = false ∧ s.mode.wakeTimerEn ∧
      s.mode.dormantSince + s.mode.wakeDelay * 1000000 ≤ s.now then powerUp s.wakeCause s else s)

/-- DORMANT_ENTRY: the journal is closed, the rails are down, core power goes (R28, R105). -/
def execDormantEntry (s : State) : Out :=
  .next (if s.mode.toDormant ∧ s.mode.porst = false ∧ s.modeNow ≠ 0 ∧ s.target = 0 ∧ dormantReached s then
    let isThermal : Bool := s.jrn.closing == some 2
    let s1 := blockPowerUp s
    let s2 := (s1.set F.Mode.MODE pgMode 0).set F.Mode.TARGET_MODE pgMode 0
    let m : ModeX := {
      dormantSince := s.now, thermalDormant := isThermal, wakePinEn := s.on F.Mode.WAKE_PIN_EN pgMode,
      wakeTimerEn := s.on F.Mode.WAKE_TIMER_EN pgMode, wakeDelay := s.get F.Mode.WAKE_DELAY pgMode }
    sagOutputs { s2 with mode := m }
  else s)

/-- EXTERNAL_POWER_LOSS: a program in progress is torn, and the part stands as before its first power-up: PORST_n is low, every
rail is off, the Sagger's outputs are off (R515, R611, R623). -/
def execExternalPowerLoss (s : State) : Out :=
  let s1 := blockPowerUp { storeTear s with sag := { up := 0 } }
  let s2 := forAll sagShown s1 (fun f s => forAll (List.range f.cnt) s (fun i s => s.setI f pgSag i (f.rst pgSag i)))
  .next { s2 with mode := { s2.mode with porst := true } }

end Sys2Proof.Machine
end

