-- ==== Sys2Proof/Machine/ShadowWrite.lean ====
section
/-! DEFINITION. Writes of the shadow set of a page: registers and window words, with the mark that copy-back needs (R10, R54,
R56, R67). -/

namespace Sys2Proof.Machine

/-- A field does not take a value: its encoding is reserved (R10). -/
def Fld.reserved (f : Fld) (v : Nat) : Bool := f.res.any (fun r => decide (r.1 ≤ v) && decide (v ≤ r.2))

/-- A word of the shadow set is written while copy-back runs: it is kept (R67). `k` is the register offset of the active
copy, or 0x1000 plus the window offset. -/
def markWritten (pg k : Nat) (s : State) : State :=
  if s.cstate pg = 3 then s.updBnd pg (fun b => { b with written := b.written ++ [k] }) else s

/-- A shadow register written; `off` is the offset of the active register. -/
def shadowReg (pg off word : Nat) (s : State) : State :=
  markWritten pg off (forAll (shadowFields pg) s (fun f s =>
    match f.instAt off with
    | some i =>
      let v := bits word f.lo f.w
      if f.reserved v then s else s.setShadow f pg i v
    | none => s))

/-- A word of a class S window written in its shadow copy; `off` is the offset of the active word. -/
def shadowWord (pg off v : Nat) (s : State) : State :=
  if winClass pg off = .s then markWritten pg (0x1000 + off) (s.setApt pg (off + 2 ^ 21) (v &&& winMask pg off)) else s

end Sys2Proof.Machine
end

