-- ==== Sys2Proof/Machine/Pair.lean ====
section
/-! DEFINITION. Paired operation, page 0x098: heartbeats, the lease, takeover, count offsets, mirroring and the rejoin by
snapshot (R489 to R513). -/

namespace Sys2Proof.Machine

/-- Lease length, guard, and heartbeat loss for takeover, in tsclk (Table 15-4). -/
def leaseLen : Nat := 500000
def leaseGuard : Nat := 50000
def takeoverLoss : Nat := 750000

/-- The rules of the pair function run (R489). -/
def State.pairOn (s : State) : Bool := s.ready pgPair && s.on F.Hdr.ENABLE pgPair

/-- The owner identifier of the pair snapshot engine (R80). -/
def engineOwner : Nat := 0xA0

/-! ### Views (Table 15-9) -/

/-- µs from one count to a later one, saturating. -/
def usLeft (fin now : Nat) : Nat := min ((fin - now) / 500) 65535

/-- V of a STANDBY part, or what stands for it before the first acknowledgement (R501, R503). -/
def State.leaseView (s : State) : Nat := s.pair.view.getD (s.pair.entered + leaseLen + leaseGuard)

/-- The fields of the pair page that are views. -/
def State.viewPair (s : State) (f : Fld) : Option Nat :=
  let age := fun (t : Option Nat) => match t with
    | some t => min ((s.counter - t) / 500) 65535
    | none => 65535
  if f == F.Pair.LEASE_LEFT then some (match s.role with
    | 4 => (match s.pair.expiry with
      | some e => usLeft e s.counter
      | none => 65535)
    | 3 => usLeft s.leaseView s.counter
    | _ => 0)
  else if f == F.Pair.PIN then some (age s.pair.pinAt)
  else if f == F.Pair.LANE then some (age s.pair.laneAt)
  else if f == F.Pair.CFG_CRC then some s.cfgCrc
  else if f == F.Pair.TX_ACTIVE then some (3 * s.get F.Pair.PLL_LOCKED pgPair)
  else none

/-! ### The rejoin (R508, R509) -/

/-- Every port of PAIR_PORTS is in STOPPED or TICKLE. -/
def State.pairPortsIdle (s : State) : Bool := s.pairPorts.all (fun p => decide (s.runState p ≤ 1))

/-- The partner is ACTIVE with the same configuration and mode. -/
def State.partnerFits (s : State) : Bool :=
  s.get F.Pair.PARTNER_ROLE pgPair == 4 && s.on F.Pair.CFG_MATCH pgPair && s.pair.partnerMode == s.modeNow

/-- A LISTEN part may stand by without a snapshot (R504): the partner has sent no line CRC for 10 ms. -/
def State.firstStart (s : State) : Bool :=
  s.role == 1 && s.partnerFits && s.pairPortsIdle && (match s.pair.peerLineAt with
    | some t => decide (t + 5000000 ≤ s.counter)
    | none => true)

/-- The engine writes a register. -/
def engineWrite (pg off data : Nat) (k : State → State) (s : State) : State := gateReg pg off data engineOwner k s

/-- A LISTEN part sends SNAP_REQ and becomes SYNCING (R508). -/
def joinStart (s : State) : State :=
  if s.pairOn && s.role == 1 && s.partnerFits && !s.firstStart then
    let s1 := (setRole 2 s).set F.Pair.SNAP_STATUS_STATE pgPair 2
    let s2 := (s1.set F.Pair.UNITS pgPair 0).updPair (fun x => { x with
      join := some { since := s.counter }, sbReady := false, retryAt := none })
    forAll s.pairPorts (pairSend 0x86 (leBytes 4 0) s2) (fun p => engineWrite (pgPort p) 8 0 (controlEnable (pgPort p) false 0))
  else s

/-- The rejoin that AUTO_REJOIN starts, not before the time of R509. -/
def autoJoin (s : State) : State :=
  let late : Bool := match s.pair.retryAt with
    | some t => decide (t ≤ s.counter)
    | none => true
  if s.on F.Pair.AUTO_REJOIN pgPair && late then joinStart s else s

/-- S_(N+2) of a port from folio N and S_N (R261). -/
def State.joinStartPos (s : State) (p n start : Nat) : Nat :=
  let lines := fun (k : Nat) => (s.linesOf (low 32 (n + k))).getD (s.get F.Ing.INGEST_DEFAULT_LINES pgIng)
  low 64 (start + (lines 0 + lines 1) * s.get F.Port.LINE_PITCH (pgPort p))

/-- COUNT_OFFSET of a channel, as a signed 48.16 distance. -/
def State.countOffset (s : State) (ch : Nat) : Int :=
  sext 48 (s.get2 F.Pair.COUNT_OFFSET_LO F.Pair.COUNT_OFFSET_HI pgPair ch) * 65536

/-- One port of a rejoin starts at folio N + 2. -/
def joinPort (p n start : Nat) (s : State) : State :=
  let pg := pgPort p
  let dw := sext 48 (s.get2 F.Port.DW_OFFSET_LO F.Port.DW_OFFSET_HI pg 0)
  let origin := unsext 64 ((s.joinStartPos p n start : Int) - s.countOffset (s.get F.Port.ENC_SRC pg) - dw)
  let wr := fun (f : Fld) (v : Nat) (s : State) =>
    let s1 := s.set f pg v
    engineWrite pg f.off (s1.storedWord pg f.off) (fun s => s.set f pg v) s
  let s1 := wr F.Port.START_STEP_HI 0 (wr F.Port.START_STEP_LO 0 (wr F.Port.START_SRC 0 s))
  let s2 := wr F.Port.ORIGIN_HI (origin / 2 ^ 32) (wr F.Port.ORIGIN_LO origin (wr F.Port.START_FOLIO (n + 2) s1))
  engineWrite pg 8 1 (controlEnable pg true 1) s2

/-- The ports start again once they are idle and SNAP_END has been good (R508). -/
def joinRestart (s : State) : State :=
  match s.pair.join with
  | some j =>
    if j.good && !j.ended && s.pairPortsIdle then
      let mine := fun (r : Nat) => (j.ports.find? (fun e => regionOf e.1 == r)).or j.ports.head?
      let s1 := forAll (List.range Config.regions) s (fun r s =>
        match mine r with
        | some e => engineWrite (pgScr r) 12 (commitWord (e.2.1 + 2) true false true) (commitWrite (pgScr r) (e.2.1 + 2) true false true) s
        | none => s)
      let s2 := forAll (j.ports.filter (fun e => s.paired e.1)) s1 (fun e => joinPort e.1 e.2.1 e.2.2)
      let folio := low 32 (((j.ports.head?.map (·.2.1)).getD 0) + 2)
      let s3 := (s2.set F.Pair.JOIN_FOLIO pgPair folio).set F.Pair.SNAP_STATUS_STATE pgPair 3
      let s4 := s3.updPair (fun x => { x with join := x.join.map (fun j => { j with ended := true }) })
      joinReady (s4.raise Ev.pairSnapDone pgPair (arg64 folio 0))
    else s
  | none => s

/-- A ready part whose readiness has been accepted becomes STANDBY (R500, R508). -/
def becomeStandby (s : State) : State :=
  let s1 := (setRole 3 s).updPair (fun x => { x with entered := s.counter, view := none, sbReady := false, join := none })
  if s.role = 2 then
    (s1.set F.Pair.SNAP_STATUS_STATE pgPair 0).raise Ev.pairJoined pgPair (arg64 (s.get F.Pair.JOIN_FOLIO pgPair) 0)
  else s1

/-! ### Heartbeats received (R493, R498, R500, R501) -/

/-- A heartbeat's contents; CFG_CRC only on the lanes. -/
structure Beat where
  pin : Bool
  mark : Nat
  role : Nat
  mode : Nat
  sb : Bool
  renew : Nat
  ack : Nat
  cfg : Option Nat
  deriving DecidableEq, Repr

/-- The path of a heartbeat is up (R493). -/
def pathUp (pin : Bool) (s : State) : State :=
  let lost := if pin then s.pair.pinLost else s.pair.laneLost
  let s1 := s.set (if pin then F.Pair.HB_PIN_OK else F.Pair.HB_LANE_OK) pgPair 1
  let s2 := s1.updPair (fun x => if pin then { x with pinAt := some s.counter, pinLost := false }
    else { x with laneAt := some s.counter, laneLost := false })
  if lost then s2.raise Ev.pairHbRestored pgPair (bit pin) else s2

/-- CFG_MATCH follows the comparison of the last 10 ms (R498). -/
def cfgCheck (cfg : Option Nat) (s : State) : State :=
  let s1 := match cfg with
    | some c => s.set F.Pair.PARTNER_CFG_CRC pgPair c
    | none => s
  let same : Bool := match cfg with
    | some c => s.role != 0 && c == s.cfgCrc
    | none => true
  if same then
    let since : Option Nat := if cfg.isSome then some (s.pair.cfgSince.getD s.counter) else s.pair.cfgSince
    let long : Bool := match since with
      | some t => decide (t + 5000000 ≤ s.counter)
      | none => false
    let s2 := s1.updPair (fun x => { x with cfgSince := since })
    if long then s2.set F.Pair.CFG_MATCH pgPair 1 else s2
  else
    let s2 := s1.updPair (fun x => { x with cfgSince := none })
    if s.on F.Pair.CFG_MATCH pgPair then
      joinFail 5 ((s2.set F.Pair.CFG_MATCH pgPair 0).raise Ev.pairCfgMismatch pgPair
        (arg64 (s1.get F.Pair.PARTNER_CFG_CRC pgPair) s.cfgCrc))
    else s2

/-- The lease of a guarded part has run out (cause 1). -/
def State.leaseOver (s : State) : Bool :=
  s.role == 4 && s.on F.Pair.GUARDED pgPair && (match s.pair.expiry with
    | some e => decide (e < s.counter)
    | none => false)

/-- The partner's ACTIVE heartbeat takes the lease away (cause 7). -/
def State.outranked (s : State) (b : Beat) : Bool :=
  let d := (b.mark % 2 ^ 14 + 2 ^ 14 - s.get F.Pair.EPOCH pgPair) % 2 ^ 14
  b.role == 4 && ((decide (1 ≤ d) && decide (d < 2 ^ 13)) || (d == 0 && s.on F.Pair.SIDE pgPair))

/-- A heartbeat at an ACTIVE part: it accepts or loses its standby, and its lease is renewed (R500, R501). -/
def activeBeat (b : Beat) (s : State) : State :=
  let sb := b.sb && b.role != 4
  let guarded := s.on F.Pair.GUARDED pgPair
  if sb && !guarded then
    (s.set F.Pair.GUARDED pgPair 1).updPair (fun x => { x with
      expiry := some (s.counter + leaseLen), renewAt := s.counter, renewAck := true })
  else if b.role ≠ 3 ∧ !sb ∧ guarded then
    (s.set F.Pair.GUARDED pgPair 0).updPair (fun x => { x with expiry := none })
  else if guarded && !s.pair.renewAck && b.ack == s.get F.Pair.RENEW_SEQ pgPair then
    s.updPair (fun x => { x with expiry := some (x.renewT + leaseLen), renewAck := true })
  else s

/-- A STANDBY part acknowledges a new renewal (R501). -/
def acknowledge (b : Beat) (s : State) : State :=
  if s.role = 3 ∧ b.role = 4 ∧ b.renew ≠ s.pair.seen then
    let s1 := s.set F.Pair.ACK_SEQ pgPair b.renew
    sendHeartbeat (s1.updPair (fun x => { x with view := some (s.counter + leaseLen + leaseGuard) }))
  else s

/-- What a heartbeat does to the role (R500 to R502, R504, R508). -/
def beatRole (b : Beat) (s : State) : State :=
  if !s.pairOn then s
  else if s.role = 4 then
    if s.leaseOver then fence 1 s
    else if s.outranked b then fence 7 s
    else activeBeat b s
  else
    let s1 := joinRestart s
    let s2 := if s1.role = 1 then autoJoin (s1.updPair (fun x => { x with sbReady := s1.firstStart })) else s1
    let s3 := if (s2.role = 1 ∨ s2.role = 2) ∧ s2.pair.sbReady ∧ b.role = 4 ∧ b.sb then becomeStandby s2 else s2
    acknowledge b s3

/-! ### Mirrored updates, as they are received (R497) -/

/-- The commit request of a mirror message is refused under R69. -/
def State.mirrorRefused (s : State) (pg target : Nat) : Bool :=
  let b := s.bndOf pg
  let d := (target + 65536 - b.next % 65536) % 65536
  !s.stopped pg && (decide (32767 < d) || (d == 0 && b.leadPassed))

/-- PAIR.MIRROR_LATE. -/
def mirrorLate (region target : Nat) (noLock : Bool) (s : State) : State :=
  (s.sat F.Pair.MIRROR_LATE_COUNT pgPair).raise Ev.pairMirrorLate pgPair (target * 65536 + bit noLock * 16 + region)

/-- The words of a mirror message written to the shadow set of their page. -/
def mirrorWords (m : MirrorOp) (s : State) : State :=
  forAll (List.range m.words.length) s (fun i s =>
    let off := m.off + 4 * i
    if m.reg then shadowReg (pgScr m.region) (off - 0x800) (m.words.getD i 0) s
    else shadowWord (pgScr m.region) (off % 2 ^ 21) (m.words.getD i 0) s)

/-- One mirror message applied, its page being free and its lock held. -/
def mirrorApply (m : MirrorOp) (s : State) : State :=
  let pg := pgScr m.region
  if m.commit then
    let late := s.mirrorRefused pg m.target
    let s1 := commitWrite pg m.target true false true s
    let s2 := match s.binding pg with
      | some n => if s.holds n engineOwner then lockRelease n engineOwner s1 else s1
      | none => s1
    if late then mirrorLate m.region m.target false s2 else s2
  else mirrorWords m s

/-- Mirror messages applied in their order of arrival, as far as pages and locks allow. -/
def mirrorGo : Nat → State → State
  | 0, s => s
  | fuel + 1, s =>
    match s.pair.mirror with
    | [] => s
    | m :: rest =>
      let pg := pgScr m.region
      if !s.ready pg || decide (2 ≤ s.cstate pg) then s
      else
        let s1 := match s.binding pg with
          | some n => lockAcquire n engineOwner s
          | none => s
        let have_ : Bool := match s.binding pg with
          | some n => s1.holds n engineOwner
          | none => true
        if have_ then mirrorGo fuel (mirrorApply m (s1.updPair (fun x => { x with mirror := rest }))) else s1

/-- Every waiting mirror message is tried. -/
def mirrorTry (s : State) : State := if s.pairOn then mirrorGo s.pair.mirror.length s else s

/-- A mirror message arrives. -/
def mirrorIn (m : MirrorOp) (s : State) : State :=
  if s.pairOn then mirrorTry (s.updPair (fun x => { x with mirror := x.mirror ++ [m] })) else s

/-- MIRROR_LOCK_TIMEOUT: the lock is not acquired within 10 ms; the update is dropped. -/
def execMirrorLockTimeout (region : Nat) (s : State) : Out :=
  let s1 := mirrorTry s
  .next (match s1.pair.mirror with
    | [] => s1
    | m :: _ =>
      let free := s1.ready (pgScr m.region) && decide (s1.cstate (pgScr m.region) < 2)
      if m.region = region ∧ free ∧ m.since + 5000000 ≤ s1.counter then
        mirrorTry (mirrorLate region m.target true (s1.updPair (fun x => { x with
          mirror := x.mirror.filter (fun q => !(q.region == region && q.target == m.target)) })))
      else s1)

/-! ### Beats, whole -/

/-- A heartbeat on a path. -/
def beat (b : Beat) (s : State) : State :=
  let s1 := ((pathUp b.pin s).set F.Pair.PARTNER_ROLE pgPair b.role).updPair (fun x => { x with partnerMode := b.mode })
  let s2 := if b.role = 4 then s1.updPair (fun x => { x with activeAt := some s.counter, epochSeen := some (b.mark % 2 ^ 14) }) else s1
  let s3 := beatRole b (cfgCheck b.cfg s2)
  let s4 := if b.role = 4 then s3.updPair (fun x => { x with seen := b.renew }) else s3
  mirrorTry s4

/-- A HEARTBEAT message (Table 15-2). -/
def beatMsg (m : Msg) (s : State) : State :=
  let k := m.le 2 1
  beat ⟨false, m.le 0 2, k % 8, bits k 4 3, bitAt k 7, m.le 3 1, m.le 4 1, some (m.le 8 4)⟩ s

/-- A pair lane's receiver is locked. -/
def State.pairLocked (s : State) (lane : Nat) : Bool := bitAt (s.get F.Pair.RX_LOCKED pgPair) lane

/-- A message of pair lane 0 or 1 can arrive. -/
def State.pairHears (s : State) (lane : Nat) : Bool := s.ready pgPair && s.pairLocked lane

/-- HEARTBEAT_RECEIVED (R493): `body` is the 12 bytes of Table 15-2. -/
def execHeartbeatReceived (lane : Nat) (body : List Byte) (s : State) : Out :=
  .next (if lane < 2 ∧ s.pairHears lane ∧ body.length = 12 then beatMsg ⟨0x81, 0, body, 0, 0⟩ s else s)

/-- HB_PIN_FRAME_RECEIVED (R492, R507): the 64 bits of Table 15-3. The first mid-bit transition was 5,080 ns before the end. -/
def execHbPinFrameReceived (frame : Nat) (s : State) : Out :=
  let f := low 64 frame
  .next (if s.ready pgPair ∧ bits f 56 8 = 0xB5 ∧ f % 256 = ringCrc (msbBits 56 (f / 256)) then
    let l := s.latchAt (s.now - 5080)
    let s1 := s.updPair (fun x => { x with latchIn := ((bits f 9 8, l.1, l.2) :: x.latchIn).take 8 })
    beat ⟨true, bits f 40 16, bits f 37 3, bits f 34 3, bitAt f 33, bits f 25 8, bits f 17 8, none⟩ s1
  else s)

/-! ### Sending, the lease and takeover -/

/-- HEARTBEAT_SEND: a multiple of 25,000 tsclk (R491). -/
def execHeartbeatSend (s : State) : Out :=
  .next (if s.ready pgPair ∧ s.role ≠ 0 ∧ s.pair.slot < s.counter / 25000 then
    sendHeartbeat (s.updPair (fun x => { x with slot := s.counter / 25000 }))
  else s)

/-- RENEWAL (R501). -/
def execRenewal (s : State) : Out :=
  .next (if s.pairOn ∧ s.role = 4 ∧ s.on F.Pair.GUARDED pgPair ∧ s.pair.renewAt ≤ s.counter then
    let q := s.get F.Pair.RENEW_SEQ pgPair
    let s1 := if s.pair.renewAck then s else s.raise Ev.pairRenewMissed pgPair (q * 256)
    let s2 := (s1.set F.Pair.RENEW_SEQ pgPair (q + 1)).updPair (fun x => { x with
      renewT := s.counter, renewAck := false, renewAt := s.counter + 125000 })
    sendHeartbeat s2
  else s)

/-- A path is down: no good heartbeat for 75,000 tsclk. -/
def State.pathDown (s : State) (pin : Bool) : Bool :=
  match (if pin then s.pair.pinAt else s.pair.laneAt) with
  | some t => decide (t + 75000 ≤ s.counter)
  | none => true

/-- HB_PATH_TIMEOUT (R493, R509). -/
def execHbPathTimeout (pin : Bool) (s : State) : Out :=
  let f := if pin then F.Pair.HB_PIN_OK else F.Pair.HB_LANE_OK
  .next (if s.on f pgPair ∧ s.pathDown pin then
    let s1 := (s.set f pgPair 0).updPair (fun x => if pin then { x with pinLost := true } else { x with laneLost := true })
    let s2 := s1.raise Ev.pairHbLost pgPair (bit pin)
    if s2.pathDown (!pin) then joinFail 1 s2 else s2
  else s)

/-- LEASE_EXPIRY (R502, cause 1). -/
def execLeaseExpiry (s : State) : Out := .next (if s.pairOn ∧ s.leaseOver then fence 1 s else s)

/-- The part takes the lease (R503); `how`: 1 by CLAIM or first start. -/
def takeLease (how : Nat) (s : State) : State :=
  let e := ((s.pair.epochSeen.getD (s.get F.Pair.EPOCH pgPair)) + 1) % 2 ^ 14
  let s1 := ((setRole 4 s).set F.Pair.EPOCH pgPair e).set F.Pair.GUARDED pgPair 0
  let s2 := s1.updPair (fun x => { x with expiry := none, view := none, claim := false, sbReady := false })
  (s2.wrap F.Pair.TAKEOVERS pgPair).raise Ev.pairTakeover pgPair (e * 65536 + how)

/-- The mode lets the part take the lease: Idle, Print or Service. -/
def State.leaseMode (s : State) : Bool := s.modeNow == 2 || s.modeNow == 3 || s.modeNow == 4

/-- No ACTIVE heartbeat for 1,500 µs, counted at the earliest from a given count. -/
def State.activeSilent (s : State) (since : Nat) : Bool := decide (max (s.pair.activeAt.getD 0) since + takeoverLoss ≤ s.counter)

/-- TAKEOVER_TEST (R503, R504). -/
def execTakeoverTest (s : State) : Out :=
  .next (if !s.pairOn || !s.leaseMode then s
  else if s.role = 3 then
    if s.activeSilent (if s.pair.activeAt.isNone then s.pair.entered else 0) ∧ s.leaseView < s.counter then takeLease 0 s else s
  else if s.role = 1 ∨ s.role = 5 then
    let first := s.role == 1 && s.on F.Pair.FIRST_ACTIVE pgPair && s.pair.activeAt.isNone
    if (s.pair.claim || first) && s.activeSilent s.pair.enabledAt then takeLease 1 s else s
  else s)

/-- One write of PAIR_CTRL (R502, R504, R508, Table 15-7). -/
def pairCtrl (release claim join : Bool) (s : State) : State :=
  if !s.pairOn then s
  else
    let s1 := if release then fence 2 s else s
    let s2 := if claim && !release && (s1.role == 1 || s1.role == 5) then s1.updPair (fun x => { x with claim := true }) else s1
    if join && !s2.on F.Pair.AUTO_REJOIN pgPair then joinStart s2 else s2

/-- PAIR_RELEASE (R502, cause 2); a CLAIM in the same write is ignored. -/
def execPairRelease (claim : Bool) (owner : Nat) (s : State) : Out :=
  .next (gateReg pgPair 0x4C (1 + 2 * bit claim) owner (pairCtrl true claim false) s)

/-- PAIR_CLAIM (R504). -/
def execPairClaim (owner : Nat) (s : State) : Out := .next (gateReg pgPair 0x4C 2 owner (pairCtrl false true false) s)

/-- PAIR_JOIN (R508). -/
def execPairJoin (owner : Nat) (s : State) : Out := .next (gateReg pgPair 0x4C 4 owner (pairCtrl false false true) s)

/-! ### Line CRCs and count offsets (R495, R507) -/

/-- A LINE_CRC of the partner. -/
def lineCrcMsg (port folio line crc : Nat) (s : State) : State :=
  let s1 := s.updPair (fun x => { x with peerLineAt := some s.counter })
  if s1.pairOn && s1.paired port && s1.comparing then lineCrcIn false port folio line crc s1 else s1

/-- LINE_CRC_RECEIVED (R495). -/
def execLineCrcReceived (port folio line crc : Nat) (s : State) : Out :=
  .next (if s.pairHears 0 then lineCrcMsg (low 6 port) (low 32 folio) (low 24 line) (low 32 crc) s else s)

/-- The whole counts within 0.25 count of a difference of positions. -/
def offsetSample (sender own : Nat) : Option Int :=
  let d := sext 64 (sender + 2 ^ 64 - low 64 own)
  let k := (d + 32768) / 65536
  if (d - k * 65536).natAbs ≤ 16384 then some k else none

/-- A sample of a channel's count offset at a frame (R507). -/
def offsetIn (ch seq : Nat) (k : Int) (s : State) : State :=
  let o := tget s.pair.offs ch {}
  let put := fun (o : OffsetX) (s : State) => s.updPair (fun x => { x with offs := tput x.offs ch o })
  let was := sext 48 (s.get2 F.Pair.COUNT_OFFSET_LO F.Pair.COUNT_OFFSET_HI pgPair ch)
  let set_ := fun (s : State) => s.set2 F.Pair.COUNT_OFFSET_LO F.Pair.COUNT_OFFSET_HI pgPair ch (unsext 48 k)
  if !o.set then put { set := true } (set_ s)
  else if unsext 48 k = unsext 48 was then put { o with differed := none } s
  else if o.differed = some ((seq + 255) % 256) then
    (put { o with differed := none } (set_ s)).raise Ev.pairCountSlip pgPair
      (arg64 (unsext 32 (clampI (-(2 ^ 31)) (2 ^ 31 - 1) (k - was))) ch)
  else put { o with differed := some seq } s

/-- A POS_LATCH of the partner. -/
def posLatchMsg (seq valid : Nat) (pos : List Nat) (s : State) : State :=
  if s.pairOn && decide (1 ≤ s.role) && decide (s.role ≤ 3) && s.get F.Pair.PARTNER_ROLE pgPair == 4 then
    match s.pair.latchIn.find? (fun l => l.1 == seq) with
    | some l => forAll (List.range 4) s (fun ch s =>
        if bitAt valid ch && bitAt l.2.1 ch then
          match offsetSample (pos.getD ch 0) (l.2.2.getD ch 0) with
          | some k => offsetIn ch seq k s
          | none => s
        else s)
    | none => s
  else s

/-- POS_LATCH_RECEIVED (R507): FRAME_SEQ, VALID and the four positions, 48.16. -/
def execPosLatchReceived (seq valid : Nat) (pos : List Nat) (s : State) : Out :=
  .next (if s.pairHears 0 then posLatchMsg (low 8 seq) (low 4 valid) pos s else s)

/-- MIRROR_WRITE_RECEIVED (R497). -/
def execMirrorWriteReceived (region : Nat) (reg : Bool) (target off : Nat) (words : List Nat) (s : State) : Out :=
  .next (if s.pairHears 1 ∧ 1 ≤ words.length ∧ words.length ≤ 12 then
    mirrorIn ⟨low 2 region, low 16 target, false, reg, low 32 off, words.map (low 32), s.counter⟩ s
  else s)

/-- MIRROR_COMMIT_RECEIVED (R497). -/
def execMirrorCommitReceived (region target : Nat) (s : State) : Out :=
  .next (if s.pairHears 1 then
    mirrorIn ⟨low 2 region, low 16 target, true, false, 0, [], s.counter⟩ s
  else s)

/-! ### The snapshot (R508, Table 15-6) -/

/-- A register word of the active set as a snapshot carries it. -/
def State.snapWord (s : State) (pg off : Nat) : List Byte := leBytes 4 (s.storedWord pg off)

/-- The objects in ascending order with their bytes. -/
def State.snapObjects (s : State) : List (Nat × List Byte) :=
  (List.range 4).map (fun r => (r, (List.range 496).flatMap (fun i => s.snapWord (pgScr r) (0x40 + 4 * i)))) ++
  (List.range 4).map (fun r => (0x10 + r, s.aptBytes (pgScr r) 0 196608)) ++
  (List.range 4).map (fun r => (0x20 + r, s.aptBytes (pgScr r) 0x30000 8192)) ++
  [(0x30, s.aptBytes pgTrk 0x100000 786432), (0x31, (List.range 48).flatMap (fun p => leBytes 4 (s.portState p)))]

/-- The active part sends the snapshot. -/
def snapSend (s : State) : State :=
  if s.pairOn ∧ s.role = 4 then
    let objs := s.snapObjects
    let crc := crc32 (objs.flatMap (·.2))
    let ports := s.pairPorts.map (fun p => (p, s.get F.Port.FOLIO_NOW (pgPort p),
      s.get2 F.Port.START_POS_LO F.Port.START_POS_HI (pgPort p) 0))
    let s1 := ((s.set F.Pair.UNITS pgPair 25215).set F.Pair.SNAP_STATUS_STATE pgPair 0).updPair (fun x => { x with
      snap := some ⟨14, crc, ports⟩ })
    let s2 := forAll objs s1 (fun o => pairSend 0x87 (leBytes 1 o.1 ++ leBytes 3 0 ++
      leBytes 4 ((o.2.length - 1) / 48 * 48) ++ o.2.drop ((o.2.length - 1) / 48 * 48)))
    let s3 := forAll ports s2 (fun e => pairSend 0x88 (leBytes 1 e.1 ++ leBytes 3 0 ++ leBytes 4 e.2.1 ++ leBytes 8 e.2.2))
    pairSend 0x89 (leBytes 4 14 ++ leBytes 4 crc ++ leBytes 4 0) s3
  else s

/-- SNAP_REQ_RECEIVED (R508). -/
def execSnapReqReceived (s : State) : Out := .next (if s.pairHears 1 then snapSend s else s)

/-- One word of an object written into the own pages and windows. -/
def snapStore (object off v : Nat) (s : State) : State :=
  let r := object % 16
  let eng := fun (pg : Nat) (apt : Bool) (o : Nat) (k : State → State) (s : State) => gate pg apt o v engineOwner k s
  if object < 4 then
    if off < 0x7C0 then eng (pgScr r) false (0x840 + off) (shadowReg (pgScr r) (0x40 + off) v) s else s
  else if 0x10 ≤ object ∧ object < 0x14 then
    if off < 0x30000 then eng (pgScr r) true (off + 2 ^ 21) (shadowWord (pgScr r) off v) s else s
  else if 0x20 ≤ object ∧ object < 0x24 then
    if off < 0x2000 then eng (pgScr r) true (0x30000 + off + 2 ^ 21) (shadowWord (pgScr r) (0x30000 + off) v) s else s
  else if object = 0x30 then
    if off < 0xC0000 then s.setApt pgTrk (0x100000 + off) v else s
  else if object = 0x31 then
    if off < 0xC0 then s.updTrkPort (off / 4) (fun x => { x with
      tref := v / 65536, accepted := some (s.now - v % 65536 * 1000000000) }) else s
  else s

/-- SNAP_DATA at the joining part. -/
def snapData (object off : Nat) (data : List Byte) (s : State) : State :=
  match s.pair.join with
  | some j =>
    if s.pairOn && !j.good then
      let s1 := forAll (List.range (data.length / 4)) s (fun i =>
        snapStore object (off + 4 * i) (leNat ((data.drop (4 * i)).take 4)))
      let s2 := s1.updPair (fun x => { x with join := x.join.map (fun j =>
        { j with crc := data.foldl (crcByte 0xEDB88320) j.crc, bytes := j.bytes + data.length }) })
      s2.set F.Pair.UNITS pgPair ((j.bytes + data.length) / 64)
    else s
  | none => s

/-- SNAP_DATA_RECEIVED (R508). -/
def execSnapDataReceived (object off : Nat) (data : List Byte) (s : State) : Out :=
  .next (if s.pairHears 1 ∧ 4 ≤ data.length ∧ data.length ≤ 48 ∧ data.length % 4 = 0 ∧ off % 4 = 0 then
    snapData (low 8 object) (low 32 off) data s
  else s)

/-- JOIN_PORT at the joining part. -/
def joinPortMsg (port folio start : Nat) (s : State) : State :=
  if s.pairOn then s.updPair (fun x => { x with join := x.join.map (fun j =>
    if j.good then j else { j with ports := tput j.ports port (folio, start) }) })
  else s

/-- JOIN_PORT_RECEIVED (R508). -/
def execJoinPortReceived (port folio start : Nat) (s : State) : Out :=
  .next (if s.pairHears 1 ∧ port < Config.ports then joinPortMsg port (low 32 folio) (low 64 start) s else s)

/-- SNAP_END at the joining part: a CRC that differs fails the rejoin (reason 2). -/
def snapEnd (crc : Nat) (s : State) : State :=
  match s.pair.join with
  | some j =>
    if !s.pairOn || j.good then s
    else if (j.crc ^^^ 0xFFFFFFFF) = crc then
      joinRestart (s.updPair (fun x => { x with join := x.join.map (fun j => { j with good := true }) }))
    else joinFail 2 s
  | none => s

/-- SNAP_END_RECEIVED (R508, R509). -/
def execSnapEndReceived (objects crc : Nat) (s : State) : Out :=
  .next (if s.pairHears 1 ∧ objects < 2 ^ 32 then snapEnd (low 32 crc) s else s)

/-- SNAP_TIMEOUT: no SNAP_END within 100 ms of SNAP_REQ (R509, reason 6). -/
def execSnapTimeout (s : State) : Out :=
  .next (match s.pair.join with
    | some j => if s.pairOn && !j.good && decide (j.since + 50000000 ≤ s.counter) then joinFail 6 s else s
    | none => s)

/-- REJOIN_RETRY: 1 s after a failed rejoin (R509). -/
def execRejoinRetry (s : State) : Out := .next (if s.pairOn ∧ s.pair.retryAt.isSome ∧ s.role = 1 then autoJoin s else s)

/-! ### The pair lanes (R298, R490) -/

/-- The types of a pair lane. -/
def pairType (lane t : Nat) : Bool :=
  if lane = 0 then decide (0x81 ≤ t ∧ t ≤ 0x83) else t == 0x81 || decide (0x84 ≤ t ∧ t ≤ 0x89)

/-- The lengths of Table 15-2. -/
def pairLen (t n : Nat) : Bool :=
  match t with
  | 0x81 => n == 12
  | 0x82 => n == 12
  | 0x83 => n == 36
  | 0x84 => decide (12 ≤ n ∧ n ≤ 56 ∧ n % 4 = 0)
  | 0x85 => n == 4
  | 0x86 => n == 4
  | 0x87 => decide (12 ≤ n ∧ n ≤ 56 ∧ n % 4 = 0)
  | 0x88 => n == 16
  | _ => n == 12

/-- A message of a pair lane. -/
def pairMsg (m : Msg) (s : State) : State :=
  match m.type with
  | 0x81 => beatMsg m s
  | 0x82 => lineCrcMsg (low 6 (m.le 7 1)) (m.le 0 4) (m.le 4 3) (m.le 8 4) s
  | 0x83 => posLatchMsg (m.le 0 1) (low 4 (m.le 1 1)) ((List.range 4).map (fun n => m.le (4 + 8 * n) 8)) s
  | 0x84 =>
    let words := (List.range ((m.body.length - 8) / 4)).map (fun i => m.le (8 + 4 * i) 4)
    mirrorIn ⟨low 2 (m.le 0 1), m.le 2 2, false, m.le 1 1 % 2 == 1, m.le 4 4, words, s.counter⟩ s
  | 0x85 => mirrorIn ⟨low 2 (m.le 0 1), m.le 2 2, true, false, 0, [], s.counter⟩ s
  | 0x86 => snapSend s
  | 0x87 => snapData (m.le 0 1) (m.le 4 4) (m.body.drop 8) s
  | 0x88 => if low 6 (m.le 0 1) < Config.ports then joinPortMsg (low 6 (m.le 0 1)) (m.le 4 4) (m.le 8 8) s else s
  | _ => snapEnd (m.le 4 4) s

/-- The receiver of a pair lane. -/
def State.pairRx (s : State) (k : Nat) : RxX := tget s.pair.rx k {}
def State.updPairRx (s : State) (k : Nat) (rx : RxX) : State := s.updPair (fun x => { x with rx := tput x.rx k rx })
def pairLockSet (k : Nat) (on : Bool) (s : State) : State :=
  let v := s.get F.Pair.RX_LOCKED pgPair
  s.set F.Pair.RX_LOCKED pgPair (if on then setBit v k else clearBit v k)

/-- A block on pair lane `k`. -/
def pairBlock (k bseq gap : Nat) (line : List Bool) (s : State) : State :=
  if s.ready pgPair then
    let o := (s.pairRx k).block (s.pairLocked k) bseq gap line
    let s1 := s.updPairRx k o.rx
    let s2 := if o.lockedNow then pairLockSet k true s1 else s1
    let s3 := if o.err = some 0 then s2.satI F.Pair.PLANE_CRC_ERRORS pgPair k 1 else s2
    let s4 := match o.payload with
      | some pay =>
        let r := (s3.pairRx k).payload (pairType k) pairLen pay
        let s4 := forAll r.2.msgs (s3.updPairRx k r.1) pairMsg
        if r.2.bad.isSome then s4.sat F.Pair.PLANE_MSG_BAD pgPair else s4
      | none => s3
    if o.lostNow then pairLockSet k false s4 else s4
  else s

/-- An expected marker of a pair lane is absent (R318). -/
def pairMiss (k : Nat) (s : State) : State :=
  if s.ready pgPair ∧ s.pairLocked k then
    let m := (s.pairRx k).absent
    let s1 := s.updPairRx k m.1
    if m.2 then pairLockSet k false s1 else s1
  else s

/-- BLOCK_RECEIVED (R304 to R307, R317 to R319, R490): lanes 0 to 47 are the head return lanes, 48 and 49 the pair lanes.
`marker` and `bits` are the block as it stands on the line, its first 64 bits and the rest, `gap` the bit times since the end of the
marker before. A block that begins with no marker counts as an expected marker that is absent. A looped receiver sees nothing of
its balls (R320). -/
def execBlockReceived (lane : Nat) (marker : List Bool) (gap : Nat) (bits : List Bool) (s : State) : Out :=
  .next (match readMarker marker with
    | some bseq =>
      if lane < 48 then (if s.looped lane then s else laneBlock lane bseq gap bits s)
      else if lane < 50 then pairBlock (lane - 48) bseq gap bits s
      else s
    | none =>
      if lane < 48 then (if s.looped lane then s else laneMiss lane s) else if lane < 50 then pairMiss (lane - 48) s else s)

/-- MARKER_MISS (R318); lanes as BLOCK_RECEIVED has them. -/
def execMarkerMiss (lane : Nat) (s : State) : Out :=
  .next (if lane < 48 then laneMiss lane s else if lane < 50 then pairMiss (lane - 48) s else s)

/-- PAIR_PLL_LOCK (R298). -/
def execPairPllLock (s : State) : Out :=
  .next (if s.modeNow ≠ 0 ∧ s.mode.porst = false then s.set F.Pair.PLL_LOCKED pgPair 1 else s)

/-- PAIR_PLL_LOCK_LOSS: both pair transmit lanes stop (R298). -/
def execPairPllLockLoss (s : State) : Out := .next ((s.set F.Pair.PLL_LOCKED pgPair 0).updPair (fun x => { x with tx := [] }))

end Sys2Proof.Machine
end

