-- ==== Sys2Proof/Machine/Pipeline.lean ====
section
/-! DEFINITION. The camera pipeline: defect correction, flat-field, colour transform, geometric map and taps (R344 to
R350). -/

namespace Sys2Proof.Machine

/-- What the pipeline works on: the state with the set of the line, the stream, and an entry that reads uncorrectable:
flat-field column or knot. -/
structure PipeIn where
  g : State
  st : Nat
  badCol : Option Nat
  badKnot : Option Nat
  deriving DecidableEq, Repr

/-- A field of the stream (Table 10-9). -/
def PipeIn.cfg (c : PipeIn) (f : Fld) : Nat := c.g.getI f pgPipe c.st
def PipeIn.base (c : PipeIn) : Nat := c.cfg F.Pipe.COL_BASE
def PipeIn.pixels (c : PipeIn) : Nat := c.g.slotGet c.st F.Cam.PIXELS

/-- The flat-field entry of pixel `j` in channel `ch` (Table 10-10). -/
def PipeIn.ff (c : PipeIn) (j ch : Nat) : Nat := c.g.apt pgPipe (12 * (c.base + j) + 4 * ch)

/-- The entry of pixel `j` reads uncorrectable. -/
def PipeIn.bad (c : PipeIn) (j : Nat) : Bool := c.badCol == some (c.base + j)

/-- The pixel is marked defective in the channel. -/
def PipeIn.defect (c : PipeIn) (j ch : Nat) : Bool := bitAt (c.ff j ch) 0

/-- The nearest non-defective raw16 among candidates: none where an entry that is needed reads uncorrectable, and
otherwise the value, if there is one (R345, R346). -/
def PipeIn.near (c : PipeIn) (ch : Nat) (raw : List Nat) : List Nat → Option (Option Nat)
  | [] => some none
  | j :: js => if c.bad j then none else if c.defect j ch then c.near ch raw js else some raw[j]?

/-- Replacement of a defective pixel; none where it is invalid (R345). -/
def PipeIn.replaced (c : PipeIn) (ch j : Nat) (raw : List Nat) : Option Nat :=
  let left := [j - 1, j - 2].zipIdx.filterMap (fun e => if e.2 < j then some e.1 else none)
  let right := [j + 1, j + 2].filter (fun k => decide (k < c.pixels))
  match c.near ch raw left, c.near ch raw right with
  | some (some a), some (some b) => some ((a + b) / 2)
  | some (some a), some none => some a
  | some none, some (some b) => some b
  | _, _ => none

/-- A channel after defect correction; none marks an invalid pixel. -/
def PipeIn.corrected (c : PipeIn) (ch : Nat) (raw : List Nat) : List (Option Nat) :=
  let defEn := c.cfg F.Pipe.DEFECT_EN == 1
  let reads := defEn || c.cfg F.Pipe.FLAT_EN == 1
  raw.zipIdx.map (fun e =>
    if reads && c.bad e.2 then none
    else if defEn && c.defect e.2 ch then c.replaced ch e.2 raw
    else some e.1)

/-- Reflectance of a pixel, 1.15 (R344). -/
def PipeIn.reflect (c : PipeIn) (ch j r : Nat) : Nat :=
  if c.cfg F.Pipe.FLAT_EN = 1 then
    let w := c.ff j ch
    min (((r - bits w 1 15 * 2) * (w / 65536) + 0x2000) / 2 ^ 14) 0xFFFE
  else min (r / 2) 0xFFFE

/-- 4,096 × log10(32,768 / R), rounded, is at least `k`: that is, 10^(2k - 1) × R^8192 ≤ 32,768^8192. -/
def densityAtLeast (r k : Nat) : Bool := decide (10 ^ (2 * k - 1) * r ^ 8192 ≤ 32768 ^ 8192)

/-- The largest `k` from `lo` up, below `lo + 2^n`, that a density reaches. -/
def densitySearch (r : Nat) : Nat → Nat → Nat
  | 0, lo => lo
  | n + 1, lo => if densityAtLeast r (lo + 2 ^ n) then densitySearch r n (lo + 2 ^ n) else densitySearch r n lo

/-- Density of a reflectance, 4.12 (R344). -/
def density (r : Nat) : Nat := if r = 0 then 0x4000 else min (densitySearch r 15 0) 0x4000

/-- A matrix or offset value of the stream: 0 to 8 for M_00 to M_22, 9 to 11 for O_0 to O_2 (Table 10-9). -/
def PipeIn.matrix (c : PipeIn) (k : Nat) : Int :=
  let f := match k with
    | 0 => F.Pipe.MATRIX_0
    | 1 => F.Pipe.MATRIX_1
    | 2 => F.Pipe.MATRIX_2
    | 3 => F.Pipe.MATRIX_3
    | 4 => F.Pipe.MATRIX_4
    | 5 => F.Pipe.MATRIX_5
    | 6 => F.Pipe.MATRIX_6
    | 7 => F.Pipe.MATRIX_7
    | 8 => F.Pipe.MATRIX_8
    | 9 => F.Pipe.MATRIX_9
    | 10 => F.Pipe.MATRIX_10
    | _ => F.Pipe.MATRIX_11
  sext 16 (c.cfg f)

/-- Absorbance `i` from a sum of products and the offset (R344). -/
def absorb (sum o : Int) : Nat := (clampI 0 0x4000 ((sum + 0x800) / 4096 + o)).toNat

/-- The absorbances of a pixel from its densities; a mono stream has one density (R344). -/
def PipeIn.transform (c : PipeIn) (d : List Nat) : List Nat :=
  if c.cfg F.Pipe.XFORM_EN = 1 then
    if d.length = 1 then [absorb (c.matrix 0 * (d.getD 0 0 : Nat)) (c.matrix 9), 0, 0]
    else (List.range 3).map (fun i =>
      absorb (c.matrix (3 * i) * (d.getD 0 0 : Nat) + c.matrix (3 * i + 1) * (d.getD 1 0 : Nat) +
        c.matrix (3 * i + 2) * (d.getD 2 0 : Nat)) (c.matrix (9 + i)))
  else if d.length = 1 then [d.getD 0 0, 0, 0]
  else d

/-- Transposed planes: one list of channel values for each pixel. -/
def pixelsOf {α : Type} (planes : List (List α)) : List (List α) :=
  match planes with
  | [] => []
  | [p] => p.map (fun x => [x])
  | p :: ps => (p.zip (pixelsOf ps)).map (fun e => e.1 :: e.2)

/-- All channels of a pixel, none where one of them is invalid (R346). -/
def allValid (l : List (Option Nat)) : Option (List Nat) :=
  if l.all Option.isSome then some (l.map (fun x => x.getD 0)) else none

/-- A line at points 1 to 3 of the pipeline (R349). -/
structure PipeLine where
  fixed : List (List (Option Nat))
  refl : List (Option (List Nat))
  absorb : List (Option (List Nat))
  deriving DecidableEq, Repr

/-- The stages before the map (R344 to R346). -/
def PipeIn.run (c : PipeIn) (planes : List (List Nat)) : PipeLine :=
  let fixed := pixelsOf (planes.zipIdx.map (fun e => c.corrected e.2 e.1))
  let refl := fixed.zipIdx.map (fun e => (allValid e.1).map (fun v => v.zipIdx.map (fun x => c.reflect x.2 e.2 x.1)))
  ⟨fixed, refl, refl.map (fun v => v.map (fun r => c.transform (r.map density)))⟩

/-! ### Geometric map (R347, R348) -/

/-- Knot `k`, none where it is not seen or cannot be read. -/
def PipeIn.knot (c : PipeIn) (k : Nat) : Option Nat :=
  let v := c.g.apt pgPipe (0x80000 + 4 * k)
  if v = 0xFFFFFFFF ∨ c.badKnot = some k then none else some v

/-- Pipeline column of a grid unit, 16.16; none where the grid unit is invalid. -/
def PipeIn.column (c : PipeIn) (x : Nat) : Option Nat :=
  let sh := c.g.get F.Pipe.KNOT_SHIFT pgPipe
  let k := x / 2 ^ sh
  let u := x % 2 ^ sh
  match c.knot k, c.knot (k + 1) with
  | some a, some b => some ((a : Int) + (((b : Int) - a) * u) / (2 ^ sh : Int)).toNat
  | _, _ => none

/-- The value of a grid unit that belongs to the stream, none where it belongs to another stream or to none. -/
def PipeIn.mapAt (c : PipeIn) (a : List (Option (List Nat))) (x : Nat) : Option (Nat × Option (Nat × Nat × Nat)) :=
  match c.column x with
  | none => none
  | some p =>
    let j := p / 65536
    let f := bits p 8 8
    if c.base ≤ j ∧ j < c.base + c.pixels then
      let here := (a[j - c.base]?).join
      let next := if j + 1 < c.base + c.pixels then (a[j + 1 - c.base]?).join else here
      match here, next with
      | some v, some w =>
        let mix := fun (i : Nat) => (v.getD i 0 * (256 - f) + w.getD i 0 * f + 128) / 256
        some (x, some (mix 0, mix 1, mix 2))
      | _, _ => some (x, none)
    else none

/-- The mapped line's grid units. -/
def PipeIn.mapped (c : PipeIn) (a : List (Option (List Nat))) : List (Nat × Option (Nat × Nat × Nat)) :=
  (List.range (c.g.get F.Pipe.MAP_UNITS pgPipe)).filterMap (c.mapAt a)

/-! ### Taps (R349, R350) -/

/-- LINE_FLAGS of Table 10-5. -/
def CamLine.flags (y : CamLine) : Nat :=
  bit y.padded + bit y.cut * 2 + bit y.crc * 4 + bit y.tagInvalid * 8 + bit y.misaligned * 16

/-- The header of a tap record (Table 10-5). -/
def tapHeader (st point count first : Nat) (y : CamLine) : List Byte :=
  leBytes 4 y.n ++ leBytes 4 y.ix ++ leBytes 1 st ++ leBytes 1 point ++ leBytes 2 y.flags ++ leBytes 2 count ++
    leBytes 2 first ++ leBytes 8 y.tag ++ leBytes 8 y.tagTime ++ leBytes 1 y.exp ++ List.replicate 31 0

/-- Sixteen-bit words, padded with zeros to a multiple of 64 bytes. -/
def tapWords (v : List Nat) : List Byte :=
  let b := v.flatMap (leBytes 2)
  b ++ List.replicate ((64 - b.length % 64) % 64) 0

/-- The values of a pixel, 0xFFFF for each channel where it is invalid. -/
def orInvalid (n : Nat) (v : Option (List Nat)) : List Nat := v.getD (List.replicate n 0xFFFF)

/-- The record of a line at a point; none at point 4 where the line has no mapped grid unit. -/
def tapRecord (st point : Nat) (y : CamLine) (l : PipeLine) (xs : List (Nat × Option (Nat × Nat × Nat))) :
    Option (List Byte) :=
  let ch := y.planes.length
  let count := (y.planes.headD []).length
  let body : List Nat := match point with
    | 0 => (pixelsOf y.planes).flatMap id
    | 1 => l.fixed.flatMap (fun p => p.map (fun v => v.getD 0xFFFF))
    | 2 => l.refl.flatMap (orInvalid ch)
    | _ => l.absorb.flatMap (orInvalid 3)
  if point < 4 then some (tapHeader st point count 0 y ++ tapWords body)
  else match xs.head?, xs.getLast? with
    | some a, some b =>
      let triple := fun (x : Nat) => match (xs.find? (fun e => e.1 == x)).bind (·.2) with
        | some v => [v.1, v.2.1, v.2.2]
        | none => [0xFFFF, 0xFFFF, 0xFFFF]
      let n := b.1 - a.1 + 1
      some (tapHeader st point n a.1 y ++ tapWords ((List.range n).flatMap (fun i => triple (a.1 + i))))
    | _, _ => none

/-- A tap takes a record, or drops it because its queue is full or the record is longer than its ring. DESIGN CHOICE: a quiesced
tap, which issues no store, drops it too (R117, log 132). -/
def tapWrite (t : Nat) (full : Bool) (r : List Byte) (s : State) : State :=
  let size := s.getI F.Tap.TAP_SIZE pgTap t * 4096
  if full ∨ size < r.length ∨ s.on F.Hdr.QUIESCE pgTap then
    let s1 := s.satI F.Tap.TAP_DROPPED pgTap t 1
    s1.raise Ev.camTapDrop pgTap (arg64 (s1.getI F.Tap.TAP_DROPPED pgTap t) t)
  else
    let wr := s.getI F.Tap.TAP_WR pgTap t * 64
    let a := if wr + r.length ≤ size then wr else 0
    let s1 := sdramWrite 7 (s.getI F.Tap.TAP_BASE pgTap t * 4096 + a) r s
    (s1.setI F.Tap.TAP_WR pgTap t ((a + r.length) / 64)).wrapI F.Tap.TAP_LINES pgTap t 1

/-- The tap records a line of the frame. -/
def State.tapTakes (s : State) (t st ser : Nat) : Bool :=
  let x := tget s.pipe.taps t {}
  s.on F.Hdr.ENABLE pgTap && s.getI F.Tap.STREAM pgTap t == st && s.getI F.Tap.TAP_STATE pgTap t == 1 &&
    (s.getI F.Tap.MODE pgTap t == 0 ||
      (x.first.any (fun f => decide (f ≤ ser) && decide (ser < f + s.getI F.Tap.TAP_FRAMES pgTap t))))

/-! ### One line -/

/-- What a processed line adds to its frame (Table 10-6). -/
def FrameX.processed (f : FrameX) (xform : Bool) (l : PipeLine) : FrameX :=
  let rs := l.refl.filterMap id
  let as := l.absorb.filterMap id
  let add := fun (sums : List Nat) (v : List (List Nat)) =>
    sums.zipIdx.map (fun e => e.1 + (v.map (fun p => p.getD e.2 0)).foldl (· + ·) 0)
  { f with
    pend := f.pend - 1
    sumR := add f.sumR rs
    validR := f.validR + rs.length
    sumA := if xform then add f.sumA as else f.sumA
    validA := if xform then f.validA + as.length else f.validA
    invalid := f.invalid + (l.refl.length - rs.length) }

/-- CAM.PIPE_ERROR and the counts of an uncorrectable read that the line needed (R346, R430). The column of a failing knot
is not stated. -/
def pipeError (st ser n : Nat) (bad : Nat × Bool) (s : State) : State :=
  let s1 := (sramUe 0 s).sat F.Pipe.PIPE_ERRORS pgPipe
  let known : Bool := ((s.slotX st).frame.toList ++ (s.slotX st).closing).any (fun f => f.ser == ser && f.pipeErr)
  if known then s1
  else
    let v := s1.free
    let s2 := if bad.2 then v.2 else s1
    (updFrame st ser (fun f => { f with pipeErr := true }) s2).raise Ev.camPipeError pgPipe
      (arg64 n ((if bad.2 then low 16 v.1 else low 16 bad.1) * 65536 + bit bad.2))

/-- The entry that a line needs among those that read uncorrectable: (column, false) or (knot, true). -/
def PipeIn.needs (c : PipeIn) (ue : Option (Nat × Bool)) : Option (Nat × Bool) :=
  match ue with
  | some (k, false) =>
    if (c.cfg F.Pipe.DEFECT_EN = 1 ∨ c.cfg F.Pipe.FLAT_EN = 1) ∧ c.base ≤ k ∧ k < c.base + c.pixels then ue else none
  | some (k, true) =>
    let n := c.g.get F.Pipe.MAP_UNITS pgPipe
    if c.cfg F.Pipe.MAP_EN = 1 ∧ 0 < n ∧ k ≤ (n - 1) / 2 ^ c.g.get F.Pipe.KNOT_SHIFT pgPipe + 1 then ue else none
  | none => none

/-- The oldest buffered line of a stream passes the pipeline. -/
def pipelineLine (st : Nat) (ue : Option (Nat × Bool)) (full : Nat) (s : State) : State :=
  match (s.slotX st).ready with
  | [] => s
  | y :: rest =>
    let g := s.pipeAs y.set
    let need := PipeIn.needs ⟨g, st, none, none⟩ ue
    let c : PipeIn := match need with
      | some (k, false) => ⟨g, st, some k, none⟩
      | some (k, true) => ⟨g, st, none, some k⟩
      | none => ⟨g, st, none, none⟩
    let ser := y.ser.getD 0
    let l := c.run y.planes
    let xs := if c.cfg F.Pipe.MAP_EN = 1 then c.mapped l.absorb else []
    let s1 := (s.updSlot st (fun x => { x with ready := rest })).wrapI F.Pipe.STREAM_LINES pgPipe st 1
    let s2 := match need with
      | some b => pipeError st ser y.n b s1
      | none => s1
    let s3 := updFrame st ser (fun f => f.processed (c.cfg F.Pipe.XFORM_EN == 1) l) s2
    let s4 := forAll (List.range 6) s3 (fun t s =>
      if s.tapTakes t st ser then
        match tapRecord st (s.getI F.Tap.POINT pgTap t) y l xs with
        | some r => tapWrite t (bitAt full t) r s
        | none => s
      else s)
    let s5 := if c.cfg F.Pipe.MAP_EN = 1 then
        s4.updPipe (fun p => { p with mapped := p.mapped ++ [⟨st, y.n, y.exp, y.unsure, y.flags, y.tag, xs⟩] })
      else s4
    pipePrune (settle st s5)

/-- PIPELINE_LINE: `ue` is a flat-field column or (true) a knot that reads uncorrectable, `full` the taps whose queues of
eight records are full. -/
def execPipelineLine (st : Nat) (ue : Option (Nat × Bool)) (full : Nat) (s : State) : Out :=
  .next (if st < 9 ∧ s.on F.Hdr.ENABLE pgPipe then pipelineLine st ue full s else s)

end Sys2Proof.Machine
end

