-- ==== Sys2Proof/Machine/Screen.lean ====
section
/-! DEFINITION. Screening, pages 0x06C to 0x06F: one port line from contone to drop levels, table errors, and the threshold
store (R203 to R224). A pixel is its value plus 256 where DIRECT is 1. -/

namespace Sys2Proof.Machine

/-- What the engine takes of one port for one line: the state with the set that governs the folio, and the failing table
entries as (table, index). -/
structure ScreenIn where
  g : State
  r : Nat
  k : Nat
  y : Nat
  bad : List (Nat × Nat)
  deriving DecidableEq, Repr

/-- A field of the port's table entry, and of its colour. -/
def ScreenIn.port (c : ScreenIn) (f : Fld) : Nat := c.g.getI f (pgScr c.r) c.k
def ScreenIn.col (c : ScreenIn) (f : Fld) : Nat := c.g.getI f (pgScr c.r) (c.port F.Scr.COLOUR)

/-- Ramp lengths in use (R218). -/
def ScreenIn.lo (c : ScreenIn) : Nat := if c.g.rampReason c.r c.k = 0 then c.port F.Scr.RAMP_LO_LEN else 0
def ScreenIn.hi (c : ScreenIn) : Nat := if c.g.rampReason c.r c.k = 0 then c.port F.Scr.RAMP_HI_LEN else 0

/-- Stitch weight of a nozzle (R207). -/
def weight (lo hi nozzles n : Nat) : Nat :=
  if n < lo then 4096 * (n + 1) / (lo + 1)
  else if nozzles - hi ≤ n ∧ 0 < hi then 4096 - 4096 * (n - (nozzles - hi) + 1) / (hi + 1)
  else 4096

/-- Index of a table entry: per-nozzle (0), tone curve (1), threshold cell (2). -/
def ScreenIn.nozzleIx (c : ScreenIn) (n : Nat) : Nat × Nat := (0, c.k * 4096 + n)
def ScreenIn.toneIx (c : ScreenIn) (v : Nat) : Nat × Nat := (1, 256 * c.port F.Scr.COLOUR + v)

/-- The threshold cell of a nozzle (R205, R210). -/
def ScreenIn.cell (c : ScreenIn) (n : Nat) : Nat × Nat :=
  let own := 0x06C + c.r / 2 * 2
  let s := c.col F.Scr.COLOUR_SLOT
  let x := c.g.get F.Scr.SEG_ORIGIN (pgScr c.r) + c.port F.Scr.X_START + n + c.col F.Scr.X_OFFSET
  ((c.y + c.col F.Scr.Y_OFFSET) % (c.g.getI F.Scr.HEIGHT_M1 own s + 1), x % (c.g.getI F.Scr.WIDTH_M1 own s + 1))
def ScreenIn.cellIx (c : ScreenIn) (n : Nat) : Nat × Nat :=
  (2, c.col F.Scr.COLOUR_SLOT * 65536 + 256 * (c.cell n).1 + (c.cell n).2)

/-- Per-nozzle entry (Table 6-5) and tone curve (Table 6-3). -/
def ScreenIn.entry (c : ScreenIn) (n : Nat) : Nat := c.g.apt (pgScr c.r) (4 * (c.k * 4096 + n))
def ScreenIn.tone (c : ScreenIn) (v : Nat) : Nat :=
  low 12 (c.g.apt (pgScr c.r) (0x30000 + 4 * (256 * c.port F.Scr.COLOUR + v)))

/-- Gain and offset (R206). -/
def gained (e t : Nat) : Nat :=
  if t = 0 then 0
  else
    let g := max 0x4000 (min 0xFEB8 (e / 65536))
    (clampI 0 4095 ((((t * g + 0x4000) / 2 ^ 15 : Nat) : Int) + sext 8 (e / 256))).toNat

/-- First pass of R206 at one nozzle: s and m. -/
def ScreenIn.first (c : ScreenIn) (n px : Nat) : Nat × Nat :=
  if 256 ≤ px ∨ c.port F.Scr.NOZZLES ≤ n ∨ c.bad.contains (c.nozzleIx n) ∨ c.bad.contains (c.toneIx px) then (0, 0)
  else
    let e := c.entry n
    let t := c.tone px
    let w := weight c.lo c.hi (c.port F.Scr.NOZZLES) n
    let s := (gained e t * w + 0x800) / 4096
    let missing := bitAt e 0
    let m := if missing && c.port F.Scr.REDIST_EN == 1 then (t * w + 0x800) / 4096 else 0
    (if missing || bitAt e 1 then 0 else s, m)

/-- Thresholds of the cell that q passes (R210). -/
def ScreenIn.passed (c : ScreenIn) (q n : Nat) : Nat :=
  if q = 0 then 0
  else
    let s := c.col F.Scr.COLOUR_SLOT
    let rc := c.cell n
    ((List.range 7).filter (fun k => decide (c.g.threshold (c.r / 2) s rc.1 rc.2 (k + 1) ≤ q))).length

/-- q of a nozzle: its own tone and the shares of its neighbours (R206, R208). -/
def ScreenIn.mixed (c : ScreenIn) (n px s before after : Nat) : Nat :=
  let f := c.col F.Scr.REDIST_FACTOR
  let e := c.entry n
  let takes := c.port F.Scr.REDIST_EN == 1 && decide (n < c.port F.Scr.NOZZLES) && decide (px < 256) && e % 8 == 0
  min 4095 (if takes then s + before * f / 256 + after * f / 256 else s)

/-- Second pass of R206 at one nozzle (R204, R209, R211, R222). -/
def ScreenIn.level (c : ScreenIn) (n px s before after : Nat) : Nat :=
  if 256 ≤ px then px % 8
  else if c.port F.Scr.NOZZLES ≤ n then 0
  else if c.bad.contains (c.nozzleIx n) || c.bad.contains (c.toneIx px) || c.bad.contains (c.cellIx n) then 0
  else min (c.passed (c.mixed n px s before after) n) (c.col F.Scr.MAX_LEVEL)

/-- A line of levels from 4,096 pixels (R206). -/
def ScreenIn.line (c : ScreenIn) (px : List Nat) : List Nat :=
  let sm := px.zipIdx.map (fun e => c.first e.2 e.1)
  let ms := sm.map (·.2)
  let near := (0 :: ms).zip (ms.drop 1 ++ [0])
  ((px.zip sm).zip near).zipIdx.map (fun e => c.level e.2 e.1.1.1 e.1.1.2.1 e.1.2.1 e.1.2.2)

/-- The entries that a line reads. A threshold cell is read where q is not 0. -/
def ScreenIn.reads (c : ScreenIn) (px : List Nat) : List (Nat × Nat) :=
  let sm := px.zipIdx.map (fun e => c.first e.2 e.1)
  let ms := sm.map (·.2)
  let near := (0 :: ms).zip (ms.drop 1 ++ [0])
  ((px.zip sm).zip near).zipIdx.flatMap (fun e =>
    let n := e.2
    let v := e.1.1.1
    if 256 ≤ v ∨ c.port F.Scr.NOZZLES ≤ n then []
    else [c.nozzleIx n, c.toneIx v] ++ (if c.mixed n v e.1.1.2.1 e.1.2.1 e.1.2.2 = 0 then [] else [c.cellIx n]))

/-! ### Table errors (R222) -/

/-- An entry that fails is remembered; the threshold store serves both regions of its die. -/
def noteBad (r : Nat) (e : Nat × Nat) (s : State) : State :=
  let add := fun (r : Nat) (s : State) =>
    if (s.regnOf r).badTab.any (fun b => b.1 == e.1 && b.2.1 == e.2) then s
    else s.updRegn r (fun x => { x with badTab := x.badTab ++ [(e.1, e.2, [])] })
  if e.1 = 2 then add (r / 2 * 2 + 1) (add (r / 2 * 2) s) else add r s

/-- SCREEN.TABLE_ERROR of one entry, at most once per folio; the slot is that of the port's colour (R222, Table 6-7). -/
def tableError (p n : Nat) (e : Nat × Nat) (s : State) : State :=
  let r := regionOf p
  if (s.regnOf r).badTab.any (fun b => b.1 == e.1 && b.2.1 == e.2 && b.2.2.contains n) then s
  else
    let s1 := s.updRegn r (fun x => { x with
      badTab := x.badTab.map (fun b => if b.1 = e.1 ∧ b.2.1 = e.2 then (b.1, b.2.1, n :: b.2.2) else b) })
    let s2 := (sramUe (dieOf p + 1) (markDirty p n s1)).sat F.Scr.TABLE_ERROR_COUNT (pgScr r)
    let g := s.asOf r n
    let slot := g.getI F.Scr.COLOUR_SLOT (pgScr r) (g.getI F.Scr.COLOUR (pgScr r) (p % 12))
    s2.raise Ev.screenTableError (pgScr r)
      (arg64 n (slot * 2 ^ 27 + e.1 * 2 ^ 24 + p * 65536 + (if e.1 = 0 then e.2 % 4096 else e.2 % 65536)))

/-! ### The engine (R220) -/

/-- A port whose next composed line may be screened. -/
def State.screenable (s : State) (p : Nat) : Bool :=
  match (s.portOf p).composed with
  | (n, _, _) :: _ => s.pathOn (pgScr (regionOf p)) && !s.heldAt (pgScr (regionOf p)) n
  | [] => false

/-- The next composed line of a port screened; `ue` is a table entry that reads uncorrectable for the first time, `bufErr` tells
that the line reads uncorrectable where it is sent at once (R282). -/
def screen (p : Nat) (ue : Option (Nat × Nat)) (bufErr : Bool) (s : State) : State :=
  let r := regionOf p
  match (s.portOf p).composed with
  | [] => s
  | (n, y, px) :: rest =>
    let s1 := (s.updPort p (fun x => { x with composed := rest })).wrap F.Scr.SCREENED_LINES (pgScr r)
    if s.zeroed r n then lineComplete p (n, y) (List.replicate 4096 0) bufErr s1
    else
      let known := (s.regnOf r).badTab.map (fun b => (b.1, b.2.1))
      let c0 : ScreenIn := ⟨s.asOf r n, r, p % 12, y, known⟩
      let new := ue.filter (fun e => (c0.reads px).contains e)
      let c : ScreenIn := { c0 with bad := known ++ new.toList }
      let s2 := match new with
        | some e => noteBad r e s1
        | none => s1
      let hit := if c.bad.isEmpty then [] else
        let rd := c0.reads px
        (c.bad.filter (fun e => rd.contains e)).eraseDups
      lineComplete p (n, y) (c.line px) bufErr (forAll hit s2 (tableError p n))

/-- LINE_SCREEN: the region screens the next composed line of the port with the fewest screened lines not yet fired (R220).
`reads`: a table entry that reads uncorrectable for the first time, and whether the line does where it is sent at once. -/
def execLineScreen (r : Nat) (reads : Option (Nat × Nat) × Bool) (s : State) : Out :=
  .next (if r < Config.regions then
    match leastPort ((portsOf r).filter s.screenable) s.screenedAhead with
    | some p => screen p reads.1 reads.2 s
    | none => s
  else s)

/-! ### Threshold store (R212 to R215) -/

/-- A region uses a slot: it runs, and a port of it has a colour that names the slot (R214). -/
def State.regionUses (s : State) (r slot : Nat) : Bool :=
  !s.stopped (pgScr r) && (List.range 12).any (fun k =>
    s.getI F.Scr.COLOUR_SLOT (pgScr r) (s.getI F.Scr.COLOUR (pgScr r) k) == slot)

/-- The region of a die that uses a slot. -/
def State.slotUser (s : State) (d slot : Nat) : Option Nat := [2 * d, 2 * d + 1].find? (fun r => s.regionUses r slot)

/-- The screening fields that are views; on odd pages they read as zero (R212, R214). -/
def State.viewScr (s : State) (f : Fld) (r : Nat) : Option Nat :=
  if f == F.Scr.SLOT_USE then
    some (if r % 2 = 0 then (List.range 8).foldl (fun a k => a + bit (s.slotUser (r / 2) k).isSome * 2 ^ k) 0 else 0)
  else if r % 2 = 1 ∧ (f = F.Scr.THR_WINDOW_SLOT ∨ f = F.Scr.HEIGHT_M1 ∨ f = F.Scr.WIDTH_M1) then some 0
  else none

/-- A slot is written where no running region of the die uses it (R214). -/
def slotWrite (d slot off : Nat) (k : State → State) (s : State) : State :=
  match s.slotUser d slot with
  | some r => s.raise Ev.screenSlotInUse (0x06C + 2 * d) (arg64 off (r * 256 + slot))
  | none => k s

/-- A word of the threshold window (R213); it replaces a failing cell (R222). -/
def thresholdWord (d off v : Nat) (s : State) : State :=
  let slot := s.get F.Scr.THR_WINDOW_SLOT (0x06C + 2 * d)
  slotWrite d slot off (fun s =>
    let w := off - 0x100000
    let ok := fun (r : Nat) (s : State) => s.updRegn r (fun x => { x with
      badTab := x.badTab.filter (fun b => !(b.1 == 2 && b.2.1 == slot * 65536 + w / 16)) })
    ok (2 * d + 1) (ok (2 * d) (s.setApt (thrPage d slot) w (v &&& winMask (0x06C + 2 * d) off)))) s

/-- THRESHOLD_WRITE: a write to the threshold window, or to SLOT_DIM of a slot (R213, R214). -/
def execThresholdWrite (pg : Nat) (apt : Bool) (off data owner : Nat) (s : State) : Out :=
  let d := (pg - 0x06C) / 2
  let v := low 32 data
  .next (if within pg 0x06C 0x06F then
    gate pg apt off v owner (fun s =>
      if pg % 2 = 1 then s
      else if apt then
        if 0x100000 ≤ off ∧ off < 0x200000 ∧ off % 4 = 0 then thresholdWord d off v s else s
      else if 0x140 ≤ off ∧ off < 0x160 ∧ off % 4 = 0 then
        let k := (off - 0x140) / 4
        slotWrite d k off (fun s => (s.setI F.Scr.HEIGHT_M1 pg k (v / 256)).setI F.Scr.WIDTH_M1 pg k v) s
      else s) s
  else s)

end Sys2Proof.Machine
end

