-- ==== Sys2Proof/Machine/Read.lean ====
section
/-! DEFINITION. What a read of a register or of an aperture word returns: stored fields, computed fields, the Catalogue and
the Colophon (R13, R53, R54, R56, R57, R93, R94, R114). -/

namespace Sys2Proof.Machine

/-- What the balls of a port show in PORT_STATUS; no command carries them (Table 14-6, log 115). -/
def State.viewNet (s : State) (f : Fld) (pg : Nat) : Option Nat :=
  if s.on F.Hdr.READY pg = false then none
  else if f == F.Net.REMOTE_FAULT then some (bit (bitAt (Config.linesNow pg s.now) 0))
  else if f == F.Net.RX_LOS then some (bit (bitAt (Config.linesNow pg s.now) 1))
  else if f == F.Net.MOD_ABS then some (bit (bitAt (Config.linesNow pg s.now) 2))
  else none

/-- A field that its page does not have: slots 1 to 3 of page 0x072 (R355), and the threshold store's registers on odd
screening pages (R212). -/
def fieldAbsent (pg : Nat) (f : Fld) (i : Nat) : Bool :=
  (pg == 0x072 && decide (0x200 ≤ f.off) && i != 0) ||
    (within pg 0x06C 0x06F && pg % 2 == 1 &&
      (f == F.Scr.THR_WINDOW_SLOT || f == F.Scr.HEIGHT_M1 || f == F.Scr.WIDTH_M1 || f == F.Scr.SLOT_USE))

/-- A word of the Catalogue (R93, Table 2-9). -/
def catalogueWord (off : Nat) : Nat :=
  if off = 0x40 then ((List.range 256).filter present).length
  else if 0x80 ≤ off ∧ off < 0x480 then
    let n := (off - 0x80) / 4
    if present n then blockCode n * 65536 + 256 + 128 + bit (hasBoundary n) * 64 + boundaryKind n * 8 else 0
  else 0

/-- A word of the Colophon's factory calibration window (R94, Table 11-6). DESIGN CHOICE: the lot, wafer and die position of the
modelled part, at 0x108 to 0x10F, are 0 (logs 6, 77). -/
def factoryWindow (off : Nat) : Nat :=
  if off = 0x100 then 1 + 0x56C * 65536
  else if off = 0x104 then low 16 testTemp
  else if 0x110 ≤ off ∧ off < 0x350 then factoryWord (0xD0004 + (off - 0x110))
  else if 0x350 ≤ off ∧ off < 0x650 then factoryWord (0xD0404 + (off - 0x350))
  else if 0x650 ≤ off ∧ off < 0x664 then factoryWord (0xD0800 + (off - 0x650))
  else if 0x664 ≤ off ∧ off < 0x66C then factoryWord (0xD0840 + (off - 0x664))
  else 0

/-- FACTORY_CAL_CRC (Table 2-10). -/
def factoryCrc : Nat := crc32 ((List.range 448).flatMap (fun k => leBytes 4 (factoryWindow (0x100 + 4 * k))))

/-- Body fields that are computed; none where the field is stored. -/
def State.viewBody (s : State) (f : Fld) (pg i : Nat) : Option Nat :=
  if pg = 1 then
    if f == F.Colo.FACTORY_CAL_VALID then some 1 else if f == F.Colo.FACTORY_CAL_CRC then some factoryCrc else none
  else if pg = pgMode then (if f == F.Mode.SAFE_HOLD_PRESENT then some s.causesPresent else none)
  else if pg = pgReady then
    if f == F.Rdy.READY then some (s.readyWord i)
    else if f == F.Rdy.BISQUE_ELAPSED ∧ s.get F.Mode.MODE pgMode = 1 then
      some (min ((s.now - s.mode.bisqueSince) / 1000000) 65535)
    else none
  else if within pg 0x008 0x00B then s.viewPos f (pg - 0x008)
  else if within pg 0x010 0x03F then s.viewPort f (pg - 0x010)
  else if within pg 0x040 0x04B then s.viewClu f (pg - 0x040)
  else if within pg 0x050 0x05B then s.viewLane f (pg - 0x050) i
  else if pg = pgIng then (if f == F.Ing.IN_USE then some (bit (s.cacheInUse i)) else none)
  else if within pg 0x06C 0x06F then s.viewScr f (pg - 0x06C)
  else if within pg 0x070 0x072 then s.viewCam f (pg - 0x070) i
  else if pg = pgTrk then s.viewTrk f
  else if pg = pgMem then s.viewMem f
  else if pg = pgStk then s.viewStk f
  else if within pg 0x090 0x091 then s.viewNet f pg
  else if pg = pgTrig then s.viewCap f i
  else if pg = pgPair then s.viewPair f
  else if within pg 0x0A9 0x0AC ∧ pg ≠ 0x0AA then
    if pg = pgCore then s.viewCore f else s.viewThm f pg i
  else if pg = pgMbox then s.viewMbox f i
  else if pg = pgSto then s.viewSto f
  else none

/-- What instance `i` of a body field reads as; a field of access WO reads as zero (R13). -/
def State.readField (s : State) (f : Fld) (pg i : Nat) : Nat :=
  if f.acc = .wo || fieldAbsent pg f i then 0 else (s.viewBody f pg i).getD (s.getI f pg i)

/-- The register word at a byte offset of a page, as a requester (the agent part of its owner identifier) reads it. -/
def State.readReg (s : State) (pg off agent : Nat) : Nat :=
  if !present pg || off % 4 != 0 then 0
  else if off < 0x28 then s.headerWord pg (off / 4)
  else if off < 0x40 then 0
  else if off < 0x800 then
    if pg = 0 then catalogueWord off
    else if pg = 1 ∧ 0x100 ≤ off then factoryWindow off
    else if pg = pgPtp ∧ 0x58 ≤ off ∧ off < 0x6C then (s.capWords agent).getD ((off - 0x58) / 4) 0
    else
      (bodyFields pg).foldl (fun a f => match f.instAt off with
        | some i => a + s.readField f pg i * 2 ^ f.lo
        | none => a) 0
  else if hasBoundary pg ∧ 0x840 ≤ off ∧ off < 0x1000 then
    (shadowFields pg).foldl (fun a f => match f.instAt (off - 0x800) with
      | some i => a + (if fieldAbsent pg f i then 0 else s.getShadow f pg i) * 2 ^ f.lo
      | none => a) 0
  else 0

/-- The aperture word at a byte offset of a page (R54). -/
def State.readApt (s : State) (pg off : Nat) : Nat :=
  let x := off % 2 ^ 21
  if !present pg || off % 4 != 0 || decide (2 ^ 22 ≤ off) then 0
  else if 2 ^ 21 ≤ off then (if winClass pg x = .s then s.aptShadow pg x else 0)
  else if winClass pg x = .absent then 0
  else if pg = pgPtp then s.epochWord x
  else if pg = pgCal ∧ 0x100000 ≤ x then s.effWord (x - 0x100000)
  else if pg = pgTrk ∧ 0x1C0000 ≤ x then s.portState ((x - 0x1C0000) / 4)
  else if within pg 0x06C 0x06F ∧ 0x100000 ≤ x then
    s.apt (thrPage ((pg - 0x06C) / 2) (s.get F.Scr.THR_WINDOW_SLOT pg)) (x - 0x100000)
  else s.apt pg x

end Sys2Proof.Machine
end

