-- ==== Sys2Proof/Machine/RegWrite.lean ====
section
/-! DEFINITION. A write of any register or aperture word (R13, R15, R51 to R63, R66, R78, R87, R276, R636, R638): the gate, the
classes of the fields, and the action that a word carries. -/

namespace Sys2Proof.Machine

/-! ### Fields -/

/-- The function whose running holds an H field runs (R60, R62 and the chapter of each page). -/
def State.fnRuns (s : State) (pg : Nat) (f : Fld) (i : Nat) : Bool :=
  if pg = 1 then s.get F.Mode.MODE pgMode == 3
  else if pg = pgDiv then s.on F.Hdr.ENABLE pg && s.onI F.Div.DIV_CFG_EN pg i
  else if pg = pgCmp then s.cmpArmed i
  else if within pg 0x050 0x05B then s.onI F.Lane.TX_EN pg i || s.onI F.Lane.RX_EN pg i
  else if pg = pgJob then s.getI F.Job.JOB_STATUS_STATE pg i == 1
  else if within pg 0x070 0x072 then (streamsOf (pg - 0x070)).any s.slotOn
  else if pg = pgPipe ∧ f = F.Pipe.COL_BASE then s.slotOn i
  else if pg = pgMem then decide (2 ≤ s.get F.Mode.MODE pgMode)
  else if within pg 0x090 0x091 then s.on F.Net.TX_EN pg
  else if pg = pgSw then s.get F.Sw.HOST_RX_SIZE pg != 0 || s.get F.Sw.HOST_TX_SIZE pg != 0
  else if pg = pgPtp then s.get F.Mode.MODE pgMode == 3
  else if pg = pgTrig then s.armed i
  else if pg = pgSeq then s.seqState != 0
  else if pg = pgCore then s.onI F.Seq.ON pgSeq 0
  else !s.stopped pg

/-- The fields of the register word at a byte offset, with their instances. -/
def wordFields (pg off : Nat) : List (Fld × Nat) :=
  (bodyFields pg).filterMap (fun f => match f.instAt off with
    | some i => if fieldAbsent pg f i then none else some (f, i)
    | none => none)

/-- A word carries, for an H field of a running function, a value other than the present one, or a 1 for one of access WO
(R636). -/
def State.heldHit (s : State) (pg off data : Nat) : Bool :=
  (wordFields pg off).any (fun e =>
    e.1.cls == .h && s.fnRuns pg e.1 e.2 &&
      (if e.1.acc = .wo then bits data e.1.lo e.1.w != 0 else bits data e.1.lo e.1.w != s.getI e.1 pg e.2))

/-- What a write leaves in one field of the active set (R10, R13, R15, R56, R636). -/
def writeField (pg data : Nat) (held : Fld → Nat → Bool) (e : Fld × Nat) (s : State) : State :=
  let f := e.1
  let v := bits data f.lo f.w
  if f.cls = .s ∨ (f.cls = .h ∧ held f e.2) then s
  else match f.acc with
    | .rw | .rws => if f.reserved v then s else s.setI f pg e.2 v
    | .w1c => s.setI f pg e.2 (s.cleared f pg v (s.getI f pg e.2))
    | _ => s

/-- A word written to the active set; the fields that `keep` names do not take it. -/
def plainBut (keep : Fld → Bool) (pg off data : Nat) (s : State) : State :=
  let fs := (wordFields pg off).filter (fun e => !keep e.1)
  let s1 := forAll fs s (writeField pg data (s.fnRuns pg))
  if s.heldHit pg off data then writeWhileRunning pg off data false s1 else s1

/-- A word written to the active set with no action of its own. -/
def plain (pg off data : Nat) (s : State) : State := plainBut (fun _ => false) pg off data s

/-! ### Words with an action -/

/-- The mode page: mode requests, causes and groups (R78, R97, R103). -/
def writeMode (off data : Nat) (s : State) : State :=
  let pg := pgMode
  let g := (off - 0x400) / 0x40
  if off = 0x40 ∧ bitAt data 4 then modeGo (bits data 0 3) (bitAt data 8) s
  else if off = 0x48 then causeClear data s
  else if 0x400 ≤ off ∧ off < 0x600 ∧ off % 0x40 < 0x20 ∧ s.getI F.Group.GROUP_STATE_STATE pg g ≠ 0 then
    writeWhileRunning pg off data false s
  else if 0x400 ≤ off ∧ off < 0x600 ∧ off % 0x40 = 0x20 then
    groupWrite g (data / 65536) (bitAt data 2) (bitAt data 1) (bitAt data 0) s
  else plain pg off data s

/-- LOCK_n: ACQUIRE, CLEAR_BROKEN and RELEASE in this order (R638). -/
def writeLock (off data owner : Nat) (s : State) : State :=
  if 0x40 ≤ off ∧ off < 0x140 then
    let n := (off - 0x40) / 4
    let s1 := if bitAt data 0 then lockAcquire n owner s else s
    let s2 := if bitAt data 2 then lockClearBroken n owner s1 else s1
    if bitAt data 1 then lockRelease n owner s2 else s2
  else plain pgLocks off data s

/-- A position channel (R238, R245). -/
def writePos (ch off data : Nat) (s : State) : State :=
  let pg := pgPos ch
  if off = 0x5C ∧ bitAt data 0 ∧ s.stopped pg then chPreset ch s
  else if off = 0x9C then (if bitAt data 3 then mismatchClear ch s else s)
  else plain pg off data s

/-- A divider: N_OUT above N_IN is reserved; SYNC takes the PHASE of the same word (R246, R248). -/
def writeDiv (off data : Nat) (s : State) : State :=
  let d := (off - 0x40) / 0x10
  if 0x40 ≤ off ∧ off < 0x80 ∧ off % 0x10 = 0 ∧ data / 65536 < low 16 data then
    plainBut (fun f => f == F.Div.N_IN_M1 || f == F.Div.N_OUT_M1) pgDiv off data s
  else
    let s1 := plain pgDiv off data s
    if 0x40 ≤ off ∧ off < 0x80 ∧ off % 0x10 = 8 ∧ bitAt data 31 then divSync d s1 else s1

/-- A firing port: a change of WATERMARK or of the tickle fields acts at once (R285, R291). -/
def writePort (p off data : Nat) (s : State) : State :=
  let s1 := plain (pgPort p) off data s
  if off = 0x70 then urgency p s1 else if off = 0x80 then portNext p s1 else s1

/-- LANE_CFG of lane `p`: TX_EN of a port that is not STOPPED is not cleared (R313); a receiver that is turned off is not
locked, and test mode starts anew (R319, R320). -/
def writeLaneCfg (p off data : Nat) (s : State) : State :=
  let pg := pgLane (p / 4)
  if s.laneOn F.Lane.TX_EN p ∧ !bitAt data 4 ∧ s.runState p ≠ 0 then writeWhileRunning pg off data false s
  else
    let s1 := laneChange p (plain pg off data) s
    let off_ := s.laneOn F.Lane.RX_EN p && !s1.laneOn F.Lane.RX_EN p
    let turned := s.laneOn F.Lane.TEST p != s1.laneOn F.Lane.TEST p
    if off_ then (s1.laneSet F.Lane.LANE_STATUS_RX_LOCKED p 0).updLane p (fun x => { x with rx := {}, test := {} })
    else if turned then s1.updLane p (fun x => { x with rx := {}, test := {} })
    else s1

/-- A lane group page (R313, R315, R323). -/
def writeLane (c off data : Nat) (s : State) : State :=
  let p := 4 * c + (off - 0x100) / 0x80
  let r := (off - 0x100) % 0x80
  let pg := pgLane c
  if off < 0x100 ∨ 0x300 ≤ off then plain pg off data s
  else if r = 0 then writeLaneCfg p off data s
  else if r = 0x18 then
    let s1 := plain pg off data s
    if bitAt data 0 then download p (bits data 8 4) (bits data 16 13) none s1 else s1
  else if r = 0x28 then (if bitAt data 0 then bcfgSend p s else s)
  else plain pg off data s

/-- Ingest (R149). -/
def writeIngest (off data : Nat) (s : State) : State :=
  if off = 0xAC then (if bitAt data 8 then cacheEvict (low 8 data) s else s) else refreshSpace (plain pgIng off data s)

/-- Codec control (R169, R170). -/
def writeJob (off data : Nat) (s : State) : State :=
  if 0x100 ≤ off ∧ off < 0x200 ∧ off % 0x40 = 0x1C then
    let k := (off - 0x100) / 0x40
    if s.jobState k = 1 then (if bitAt data 1 then jobAbort k s else s)
    else if bitAt data 0 then jobStart k s else s
  else plain pgJob off data s

/-- A screening page: SLOT_DIM of a slot in use is not written (R214). -/
def writeScr (pg off data : Nat) (s : State) : State :=
  if pg % 2 = 0 ∧ 0x140 ≤ off ∧ off < 0x160 then
    slotWrite ((pg - 0x06C) / 2) ((off - 0x140) / 4) off (plain pg off data) s
  else plain pg off data s

/-- A camera page: EN of a slot takes its other fields first (R326, R343); CCI_CTRL (R354). -/
def writeCam (pg off data : Nat) (s : State) : State :=
  let l := pg - 0x070
  if off = 0x68 then (if bitAt data 0 then cciDirect l (bitAt data 1) s else s)
  else if 0x200 ≤ off ∧ off < 0x280 ∧ off % 0x20 = 0 then
    match streamAt l ((off - 0x200) / 0x20) with
    | some st =>
      let s1 := plainBut (fun f => f == F.Cam.SLOT_CFG_EN) pg off data s
      if bitAt data 31 then slotEnable st s1 else slotDisable st s1
    | none => s
  else plain pg off data s

/-- The tracker, the converter calibration and the calibration store (R378, R383, R389, R390). -/
def writeTrk (off data : Nat) (s : State) : State :=
  if off = 0x84 then updateReq 0 data 32 s
  else if off = 0x88 then updateReq 32 data 16 s
  else plain pgTrk off data s

/-- A write to the calibration store: an action word or a user window (R389, R390, R393). -/
def writeCal (off data : Nat) (s : State) : State :=
  if off = 0x44 then calCtrl (bits data 16 6) (bitAt data 3) (bitAt data 2) (bitAt data 1) (bitAt data 0) s
  else plain pgCal off data s

/-- An SDRAM channel: TEMP_SRC becomes 0xFF (R411). -/
def writeChan (ch off data : Nat) (s : State) : State :=
  let pg := pgChan ch
  let s1 := plain pg off data s
  if off = 0x40 ∧ s.get F.Chan.TEMP_SRC pg ≠ 0xFF ∧ s1.get F.Chan.TEMP_SRC pg = 0xFF then memNoSource ch s1 else s1

/-- Memory common (R421): FULL goes before CHECK in one word. -/
def writeMem (off data : Nat) (s : State) : State :=
  if off = 0x60 then
    if bitAt data 1 then trainRequest 2 s else if bitAt data 0 then trainRequest 1 s else s
  else
    let s1 := plain pgMem off data s
    if off = 0x48 ∧ bitAt data 0 then freqRequest (bits data 16 2) s1 else s1

/-- A network port: SPEED 0 with FEC 2 is reserved (R445). -/
def writeNet (pg off data : Nat) (s : State) : State :=
  let fec := if bits data 4 2 = 3 then s.get F.Net.FEC pg else bits data 4 2
  plainBut (fun f => off = 0x40 && bits data 0 1 == 0 && fec == 2 && (f == F.Net.SPEED || f == F.Net.FEC)) pg off data s

/-- The time clock (R469, R476). -/
def writePtp (off data : Nat) (s : State) : State :=
  if off = 0x54 then
    let s1 := allowStep (bitAt data 0) data s
    if bitAt data 1 then ptpRequalify s1 else s1
  else
    let s1 := plain pgPtp off data s
    if off = 0x94 then convert (s1.get2 F.Ptp.CONV_COUNT_LO F.Ptp.CONV_COUNT_HI pgPtp 0) s1 else s1

/-- A PERIOD, in 2^-16 ns, that does not exceed 2 × (WIDTH + 2) tsclk is reserved; PERIOD 0 is none (R479). -/
def badPeriod (ns frac width : Nat) : Bool :=
  let per := ns * 65536 + frac
  per != 0 && decide (per ≤ 4 * (width + 2) * 65536)

/-- Triggers and captures (R478 to R481, R487). -/
def writeTrig (off data : Nat) (s : State) : State :=
  let k := (off - 0x100) / 0x20
  let g := fun (f : Fld) => s.getI f pgTrig k
  let trig := decide (0x100 ≤ off) && decide (off < 0x200)
  if off = 0x40 then trigArmAll data s
  else if off = 0x44 then trigDisarmAll data s
  else if off = 0x4C then capPop data s
  else if trig ∧ off % 0x20 = 0xC ∧ badPeriod data (g F.Trig.PERIOD_FRAC) (g F.Trig.WIDTH) then
    plainBut (fun f => f == F.Trig.PERIOD_NS) pgTrig off data s
  else if trig ∧ off % 0x20 = 0x10 ∧ badPeriod (g F.Trig.PERIOD_NS) (low 16 data) (data / 65536) then
    plainBut (fun f => f == F.Trig.PERIOD_FRAC) pgTrig off data s
  else plain pgTrig off data s

/-- The Sagger host view: any write but a step of the key sequence breaks it (R535). -/
def writeSag (off data : Nat) (s : State) : State :=
  if off = 0x80 then sagCmd (bitAt data 0) (bitAt data 1) (bitAt data 2) s
  else if off = 0x8C then paramKey data s
  else if off = 0x90 ∧ bitAt data 0 then paramCommit s
  else plain pgSag off data (keyBreak s)

/-- Processors (R576, R578, R582, R585): a write of CPU_WD_k restarts its count. -/
def writeCpu (off data : Nat) (s : State) : State :=
  if off = 0x40 then hostRelease (low 4 data) s
  else if off = 0x44 then tenderRun (low 4 data) s
  else if 0x70 ≤ off ∧ off < 0x80 then kick ((off - 0x70) / 4) (plain pgCpu off data s)
  else if off = 0x8C then
    if bitAt data 4 then l2Go (bits data 0 2) s
    else plainBut (fun f => f == F.Cpu.L2_MAINT_OP && bits data 0 2 == 0) pgCpu off data s
  else plain pgCpu off data s

/-- Mailboxes (R590). -/
def writeMbox (off data owner : Nat) (s : State) : State :=
  let m := (off - 0x100) / 0x20
  let d := off % 0x20 / 0x10
  if 0x100 ≤ off ∧ off < 0x200 ∧ off % 0x10 = 0 then pushLoWrite m d data owner s
  else if 0x100 ≤ off ∧ off < 0x200 ∧ off % 0x10 = 4 then pushHiWrite m d data owner s
  else plain pgMbox off data s

/-- The retained store (R588, R589). -/
def writeSto (off data : Nat) (s : State) : State :=
  if off = 0x48 ∧ bitAt data 4 then norGo (bits data 0 2) s
  else if off = 0x50 ∧ bitAt data 16 then journalCtrl (low 8 data) s
  else plain pgSto off data s

/-- A word written to the active set of a page, past the gate. -/
def bodyWrite (pg off data owner : Nat) (s : State) : State :=
  if pg = pgMode then writeMode off data s
  else if pg = pgReady ∧ off = 0xA0 then
    if bitAt data 0 ∧ 1 ≤ data / 2 ^ 28 ∧ data / 2 ^ 28 ≤ 4 then ringHost (data / 2 ^ 28) (bits data 16 8) (bits data 8 4) s else s
  else if pg = pgLocks then writeLock off data owner s
  else if within pg 0x008 0x00B then writePos (pg - 0x008) off data s
  else if pg = pgDiv then writeDiv off data s
  else if pg = pgCmp ∧ off = 0x40 then cmpArmAll data s
  else if pg = pgCmp ∧ off = 0x44 then cmpDisarmAll data s
  else if within pg 0x010 0x03F then writePort (pg - 0x010) off data s
  else if within pg 0x050 0x05B then writeLane (pg - 0x050) off data s
  else if pg = pgIng then writeIngest off data s
  else if pg = pgJob then writeJob off data s
  else if within pg 0x06C 0x06F then writeScr pg off data s
  else if within pg 0x070 0x072 then writeCam pg off data s
  else if pg = pgTrk then writeTrk off data s
  else if pg = pgTdc ∧ off = 0x48 then tdcRuns data s
  else if pg = pgCal then writeCal off data s
  else if within pg 0x080 0x083 then writeChan (pg - 0x080) off data s
  else if pg = pgMem then writeMem off data s
  else if within pg 0x090 0x091 then writeNet pg off data s
  else if pg = pgSw ∧ off = 0x7C then hostTxWrite data s
  else if pg = pgPtp then writePtp off data s
  else if pg = pgTrig then writeTrig off data s
  else if pg = pgPair ∧ off = 0x4C then pairCtrl (bitAt data 0) (bitAt data 1) (bitAt data 2) s
  else if pg = pgSag then writeSag off data s
  else if pg = pgThm ∧ (off = 0xA0 ∨ off = 0xA4) then headAck (off == 0xA4) data s
  else if pg = pgSeq ∧ off = 0x48 then (if bitAt data 0 then clearFault [] s else s)
  else if pg = pgCpu then writeCpu off data s
  else if pg = pgMbox then writeMbox off data owner s
  else if pg = pgIrq ∧ 0x80 ≤ off ∧ off < 0xA0 then complete ((off - 0x80) / 4) data s
  else if pg = pgSto then writeSto off data s
  else plain pg off data s

/-! ### Header -/

/-- A word written to CONTROL (R60, R61, R63, R119): with FUNC_RESET it is a function reset alone. -/
def controlWrite (pg data owner : Nat) (s : State) : State :=
  if bitAt data 1 then funcReset pg (low 8 owner) s
  else
    let on := bitAt data 3
    let s1 := blockHold pg on (s.set F.Hdr.HOLD pg (bit on))
    let s2 := fabricQuiesce pg (bitAt data 2) s1
    controlEnable pg (bitAt data 0) data s2

/-- A commit request of any writer; on an ACTIVE part the first one with a TARGET after APPLY goes to the partner (R496). -/
def commitBy (pg target : Nat) (en cancel req : Bool) (s : State) : State :=
  let r := pg - 0x06C
  let s1 := commitWrite pg target en cancel req s
  if within pg 0x06C 0x06F && req && s1.cal.mirror.contains r then
    let s2 := s1.updCal (fun x => { x with mirror := x.mirror.filter (fun q => q != r) })
    if en && s2.role == 4 then pairSend 0x85 (leBytes 1 r ++ leBytes 1 0 ++ leBytes 2 target) s2 else s2
  else s1

/-- COMMIT_REQUEST (R65, R67 to R71). -/
def execCommitRequest (pg target : Nat) (en cancel : Bool) (owner : Nat) (s : State) : Out :=
  .next (gateReg pg 0xC (commitWord target en cancel true) owner (commitBy pg target en cancel true) s)

/-- A word written to the header of a page: CONTROL and the event registers pass every lock-out and binding (R63, R87). -/
def headerWrite (pg off data owner : Nat) (s : State) : State :=
  if off = 0x8 then controlWrite pg data owner s
  else if off = 0xC then
    gateReg pg off data owner (commitBy pg (data / 65536) (bitAt data 2) (bitAt data 1) (bitAt data 0)) s
  else if off = 0x10 then eventClear pg data s
  else if off = 0x14 then s.set F.Hdr.EVENT_ENABLE pg data
  else if off = 0x18 then eventForce pg data s
  else if off = 0x1C then (s.set F.Hdr.ROUTE_EN pg (bits data 16 1)).set F.Hdr.LINE pg data
  else s

/-! ### Shadow set and apertures -/

/-- The boundary number of the swap for which a page is frozen. -/
def State.frozenFor (s : State) (pg : Nat) : Nat :=
  match s.groupToSwap pg with
  | some g => (s.grpOf g).boundary
  | none => s.nextBoundary pg

/-- A write of the shadow set or of a shadow window: dropped while the page is FROZEN (R66). -/
def unlessFrozen (pg off : Nat) (apt : Bool) (k : State → State) (s : State) : State :=
  if s.cstate pg = 2 then
    s.raise Ev.regWriteWhileFrozen pg (arg64 (s.frozenFor pg) (placeArg apt off))
  else k s

/-- A tender core's write to a screening page's shadow goes to the partner (R496): per-nozzle and tone-curve windows, and
PORT_k.REDIST_EN. -/
def mirrored (pg off data owner : Nat) (reg : Bool) (s : State) : State :=
  let redist := decide (0x8C4 ≤ off) && decide (off < 0x8C4 + 0x60) && (off - 0x8C4) % 8 == 0
  if within pg 0x06C 0x06F && within (agentOf owner) 5 8 && (!reg || redist) then mirrorWrite (pg - 0x06C) reg off data s else s

/-- MAP_UNITS above 1,023 × 2^s is reserved (R347). -/
def badShadow (pg off data : Nat) (s : State) : Bool :=
  pg == pgPipe && off == 0x44 && decide (1023 * 2 ^ s.getShadow F.Pipe.KNOT_SHIFT pg 0 < low 17 data)

/-- A word written to the shadow set (R56, R57). -/
def shadowWrite (pg off data owner : Nat) (s : State) : State :=
  if hasBoundary pg then
    gateReg pg off data owner (unlessFrozen pg off false (fun s =>
      if badShadow pg (off - 0x800) data s ∨ (pg = 0x072 ∧ 0xA20 ≤ off) then s
      else mirrored pg off data owner true (shadowReg pg (off - 0x800) data s))) s
  else s

/-- A word of a class H window: the column of an enabled stream, or a tender core that runs, holds it (R356, R581). -/
def heldApt (pg x : Nat) (s : State) : Bool :=
  if pg = pgPipe then
    let j := x / 12
    (List.range 9).any (fun st => s.slotOn st &&
      decide (s.getI F.Pipe.COL_BASE pgPipe st ≤ j) && decide (j < s.getI F.Pipe.COL_BASE pgPipe st + s.slotGet st F.Cam.PIXELS))
  else bitAt (s.get F.Cpu.RUN pgCpu) (x / 0x80000)

/-- A word written to an aperture, past the gate (R54, R56, R636). -/
def aptWrite (pg off data owner : Nat) (s : State) : State :=
  let x := off % 2 ^ 21
  match winClass pg x with
  | .s =>
    if 2 ^ 21 ≤ off then
      unlessFrozen pg off true (fun s => mirrored pg off data owner false (shadowWord pg x data s)) s
    else if within pg 0x010 0x03F then s.raise Ev.firePhaseWriteDenied pg (arg64 data off)
    else s
  | .l =>
    if 2 ^ 21 ≤ off then s
    else if within pg 0x06C 0x06F then thresholdWord ((pg - 0x06C) / 2) off data s
    else if pg = pgCal then calWrite off data s
    else s.setApt pg off (data &&& winMask pg off)
  | .h =>
    if 2 ^ 21 ≤ off then s
    else if heldApt pg off s then
      if data &&& winMask pg off = s.apt pg off then s else writeWhileRunning pg off data true s
    else s.setApt pg off (data &&& winMask pg off)
  | _ => s

/-! ### The command -/

/-- One aligned word written to a register or an aperture (R51 to R57). -/
def registerWrite (pg : Nat) (apt : Bool) (off data owner : Nat) (s : State) : State :=
  if s.silent then s
  else if off % 4 ≠ 0 then { s with resp := .busError }
  else if apt || !present pg then gate pg apt off data owner (aptWrite pg off data owner) s
  else if off < 0x40 then headerWrite pg off data owner s
  else if off < 0x800 then gateReg pg off data owner (bodyWrite pg off data owner) s
  else if 0x840 ≤ off then shadowWrite pg off data owner s
  else s

/-- The owner identifier of a write: LOCK_n carries its context in the data word (R81, R87). -/
def writerOf (pg : Nat) (apt : Bool) (off data owner : Nat) : Nat :=
  if pg = pgLocks ∧ !apt ∧ 0x40 ≤ off ∧ off < 0x140 then agentOf owner * 16 + bits data 4 4 else low 8 owner

/-- REGISTER_WRITE: a word written at a byte offset of a page, or (`apt`) of its table aperture. -/
def execRegisterWrite (pg : Nat) (apt : Bool) (off data owner : Nat) (s : State) : Out :=
  let o := low (if apt then 22 else 12) off
  .next (registerWrite (low 8 pg) apt o (low 32 data) (writerOf (low 8 pg) apt o data owner) s)

end Sys2Proof.Machine
end

