-- ==== Sys2Proof/Machine/Dispatch.lean ====
section
/-! DEFINITION. One arm per command. -/

namespace Sys2Proof.Machine

def exec (i : Instr) (s : State) : Host.Outcome State Fault Refusal :=
  match i with
  | .registerWrite pg apt off data owner => Sys2Proof.Machine.execRegisterWrite pg apt off data owner s
  | .accessBusError addr size => Sys2Proof.Machine.execAccessBusError addr size s
  | .unmappedAccess addr wr => Sys2Proof.Machine.execUnmappedAccess addr wr s
  | .controlEnable pg on => Sys2Proof.Machine.execControlEnable pg on s
  | .controlHold pg on => Sys2Proof.Machine.execControlHold pg on s
  | .controlQuiesce pg => Sys2Proof.Machine.execControlQuiesce pg s
  | .controlReleaseQuiesce pg => Sys2Proof.Machine.execControlReleaseQuiesce pg s
  | .controlFuncReset pg owner => Sys2Proof.Machine.execControlFuncReset pg owner s
  | .quiesceTimeout pg => Sys2Proof.Machine.execQuiesceTimeout pg s
  | .commitRequest pg target en cancel owner => Sys2Proof.Machine.execCommitRequest pg target en cancel owner s
  | .commitCancel pg owner => Sys2Proof.Machine.execCommitCancel pg owner s
  | .commitLeadPoint pg => Sys2Proof.Machine.execCommitLeadPoint pg s
  | .commitSwap pg => Sys2Proof.Machine.execCommitSwap pg s
  | .copyBackDone pg => Sys2Proof.Machine.execCopyBackDone pg s
  | .stoppedCommitSwap pg => Sys2Proof.Machine.execStoppedCommitSwap pg s
  | .groupRequest g target en cancel owner => Sys2Proof.Machine.execGroupRequest g target en cancel owner s
  | .groupCancel g owner => Sys2Proof.Machine.execGroupCancel g owner s
  | .groupLeadPoint g => Sys2Proof.Machine.execGroupLeadPoint g s
  | .lockAcquire n owner => Sys2Proof.Machine.execLockAcquire n owner s
  | .lockRelease n owner => Sys2Proof.Machine.execLockRelease n owner s
  | .lockClearBroken n owner => Sys2Proof.Machine.execLockClearBroken n owner s
  | .eventStatusClear pg mask => Sys2Proof.Machine.execEventStatusClear pg mask s
  | .eventForce pg mask => Sys2Proof.Machine.execEventForce pg mask s
  | .poolDrain => Sys2Proof.Machine.execPoolDrain s
  | .ringHeaderRead pg word owner => Sys2Proof.Machine.execRingHeaderRead pg word owner s
  | .ringQuiesce pg owner => Sys2Proof.Machine.execRingQuiesce pg owner s
  | .ringReleaseQuiesce pg owner => Sys2Proof.Machine.execRingReleaseQuiesce pg owner s
  | .ringFuncReset pg owner => Sys2Proof.Machine.execRingFuncReset pg owner s
  | .ringFrameComplete marked => Sys2Proof.Machine.execRingFrameComplete marked s
  | .modeGo req stopNow owner => Sys2Proof.Machine.execModeGo req stopNow owner s
  | .modeChange => Sys2Proof.Machine.execModeChange s
  | .safeHoldEntry => Sys2Proof.Machine.execSafeHoldEntry s
  | .safeHoldCauseClear mask owner => Sys2Proof.Machine.execSafeHoldCauseClear mask owner s
  | .autoIdle => Sys2Proof.Machine.execAutoIdle s
  | .bisqueTimeout => Sys2Proof.Machine.execBisqueTimeout s
  | .functionReady pg => Sys2Proof.Machine.execFunctionReady pg s
  | .porstRelease vddIoLost => Sys2Proof.Machine.execPorstRelease vddIoLost s
  | .porstAssert => Sys2Proof.Machine.execPorstAssert s
  | .wakePin => Sys2Proof.Machine.execWakePin s
  | .wakeTimerExpiry => Sys2Proof.Machine.execWakeTimerExpiry s
  | .dormantEntry => Sys2Proof.Machine.execDormantEntry s
  | .chunkReceived net v6 dst udp payload => Sys2Proof.Machine.execChunkReceived net v6 dst udp payload s
  | .ringAllocate => Sys2Proof.Machine.execRingAllocate s
  | .regionFolioStart r => Sys2Proof.Machine.execRegionFolioStart r s
  | .cacheEvict id owner => Sys2Proof.Machine.execCacheEvict id owner s
  | .evictComplete id => Sys2Proof.Machine.execEvictComplete id s
  | .needPoint p layer => Sys2Proof.Machine.execNeedPoint p layer s
  | .sliceDispatch r engine poison => Sys2Proof.Machine.execSliceDispatch r engine poison s
  | .sliceEnd r engine => Sys2Proof.Machine.execSliceEnd r engine s
  | .jobStart slot owner => Sys2Proof.Machine.execJobStart slot owner s
  | .jobAbort slot owner => Sys2Proof.Machine.execJobAbort slot owner s
  | .jobDone slot => Sys2Proof.Machine.execJobDone slot s
  | .outFull slot => Sys2Proof.Machine.execOutFull slot s
  | .jobSourceFault slot poisoned => Sys2Proof.Machine.execJobSourceFault slot poisoned s
  | .lineCompose r => Sys2Proof.Machine.execLineCompose r s
  | .rectListDecode r poison => Sys2Proof.Machine.execRectListDecode r poison s
  | .lineScreen r reads => Sys2Proof.Machine.execLineScreen r reads s
  | .thresholdWrite pg apt off data owner => Sys2Proof.Machine.execThresholdWrite pg apt off data owner s
  | .quadTransition ch reps ab ph => Sys2Proof.Machine.execQuadTransition ch reps ab ph s
  | .indexEvent ch reps balls ph => Sys2Proof.Machine.execIndexEvent ch reps balls ph s
  | .switchCodeChange ch reps code ph => Sys2Proof.Machine.execSwitchCodeChange ch reps code ph s
  | .ssiFrameStart ch => Sys2Proof.Machine.execSsiFrameStart ch s
  | .ssiFrameEnd ch reps raw par dataHigh gapHigh => Sys2Proof.Machine.execSsiFrameEnd ch reps raw par dataHigh gapHigh s
  | .chPreset ch owner => Sys2Proof.Machine.execChPreset ch owner s
  | .observerTick ch => Sys2Proof.Machine.execObserverTick ch s
  | .replicaMismatchClear ch owner => Sys2Proof.Machine.execReplicaMismatchClear ch owner s
  | .divSync d phase owner => Sys2Proof.Machine.execDivSync d phase owner s
  | .cmpArm mask owner => Sys2Proof.Machine.execCmpArm mask owner s
  | .cmpDisarm mask owner => Sys2Proof.Machine.execCmpDisarm mask owner s
  | .compareMatch u => Sys2Proof.Machine.execCompareMatch u s
  | .countCapture ch off owner => Sys2Proof.Machine.execCountCapture ch off owner s
  | .portArmed port => Sys2Proof.Machine.execPortArmed port s
  | .lineFire port buf ptErr => Sys2Proof.Machine.execLineFire port buf ptErr s
  | .replayError port line => Sys2Proof.Machine.execReplayError port line s
  | .tickleStrobe port => Sys2Proof.Machine.execTickleStrobe port s
  | .lanePllLock c => Sys2Proof.Machine.execLanePllLock c s
  | .lanePllLockLoss c => Sys2Proof.Machine.execLanePllLockLoss c s
  | .laneMessageStart port => Sys2Proof.Machine.execLaneMessageStart port s
  | .blockReceived lane marker gap bits => Sys2Proof.Machine.execBlockReceived lane marker gap bits s
  | .markerMiss lane => Sys2Proof.Machine.execMarkerMiss lane s
  | .statusReceived port body => Sys2Proof.Machine.execStatusReceived port body s
  | .tempReceived port body => Sys2Proof.Machine.execTempReceived port body s
  | .bridgeSilent port => Sys2Proof.Machine.execBridgeSilent port s
  | .laneTempStale port => Sys2Proof.Machine.execLaneTempStale port s
  | .waveDlGo port table len poison owner => Sys2Proof.Machine.execWaveDlGo port table len poison owner s
  | .waveDlTimeout port => Sys2Proof.Machine.execWaveDlTimeout port s
  | .bcfgSend port owner => Sys2Proof.Machine.execBcfgSend port owner s
  | .slotEnable l v owner => Sys2Proof.Machine.execSlotEnable l v owner s
  | .slotDisable l v owner => Sys2Proof.Machine.execSlotDisable l v owner s
  | .csiLongPacket l vc dt ecc crcBad payload => Sys2Proof.Machine.execCsiLongPacket l vc dt ecc crcBad payload s
  | .csiFrameStart l vc num ecc => Sys2Proof.Machine.execCsiFrameStart l vc num ecc s
  | .csiFrameEnd l vc ecc => Sys2Proof.Machine.execCsiFrameEnd l vc ecc s
  | .csiLineStart l vc ecc => Sys2Proof.Machine.execCsiLineStart l vc ecc s
  | .csiLineEnd l vc ecc => Sys2Proof.Machine.execCsiLineEnd l vc ecc s
  | .phyError l kind lanes => Sys2Proof.Machine.execPhyError l kind lanes s
  | .linkSilent l => Sys2Proof.Machine.execLinkSilent l s
  | .parFrameStart level => Sys2Proof.Machine.execParFrameStart level s
  | .parLine level data => Sys2Proof.Machine.execParLine level data s
  | .pipelineLine st ue full => Sys2Proof.Machine.execPipelineLine st ue full s
  | .cciTransactionEnd l nack data => Sys2Proof.Machine.execCciTransactionEnd l nack data s
  | .cciDirectWrite l owner => Sys2Proof.Machine.execCciDirectWrite l owner s
  | .cciDirectRead l owner => Sys2Proof.Machine.execCciDirectRead l owner s
  | .trackerLine => Sys2Proof.Machine.execTrackerLine s
  | .solvePhase1End => Sys2Proof.Machine.execSolvePhase1End s
  | .gainUpdateWrite r => Sys2Proof.Machine.execGainUpdateWrite r s
  | .updateLockTimeout r => Sys2Proof.Machine.execUpdateLockTimeout r s
  | .updateReq hi mask owner => Sys2Proof.Machine.execUpdateReq hi mask owner s
  | .tdcRun mask owner => Sys2Proof.Machine.execTdcRun mask owner s
  | .tdcCollectionEnd d => Sys2Proof.Machine.execTdcCollectionEnd d s
  | .tdcLoopbackEnd d launches => Sys2Proof.Machine.execTdcLoopbackEnd d launches s
  | .tdcTableSwap d => Sys2Proof.Machine.execTdcTableSwap d s
  | .calSave cats owner => Sys2Proof.Machine.execCalSave cats owner s
  | .calWithdraw cats owner => Sys2Proof.Machine.execCalWithdraw cats owner s
  | .calApply cats owner => Sys2Proof.Machine.execCalApply cats owner s
  | .calCaptureTdc cats owner => Sys2Proof.Machine.execCalCaptureTdc cats owner s
  | .calApplyDone => Sys2Proof.Machine.execCalApplyDone s
  | .memRequest cls addr wr port mask data => Sys2Proof.Machine.execMemRequest cls addr wr port mask data s
  | .memSchedule ch => Sys2Proof.Machine.execMemSchedule ch s
  | .memReadData ch flips => Sys2Proof.Machine.execMemReadData ch flips s
  | .alertNLow ch => Sys2Proof.Machine.execAlertNLow ch s
  | .refreshDue ch rank => Sys2Proof.Machine.execRefreshDue ch rank s
  | .zqDue ch => Sys2Proof.Machine.execZqDue ch s
  | .memTempStale ch => Sys2Proof.Machine.execMemTempStale ch s
  | .powerDownEntry ch => Sys2Proof.Machine.execPowerDownEntry ch s
  | .selfRefreshEntry ch => Sys2Proof.Machine.execSelfRefreshEntry ch s
  | .memFreqGo point owner => Sys2Proof.Machine.execMemFreqGo point owner s
  | .trainFull owner => Sys2Proof.Machine.execTrainFull owner s
  | .trainCheck owner => Sys2Proof.Machine.execTrainCheck owner s
  | .trainingEnd ch ok step lane => Sys2Proof.Machine.execTrainingEnd ch ok step lane s
  | .freqDone => Sys2Proof.Machine.execFreqDone s
  | .stacksRequest ix sdram addr wr beats data => Sys2Proof.Machine.execStacksRequest ix sdram addr wr beats data s
  | .stacksTenureEnd upsets => Sys2Proof.Machine.execStacksTenureEnd upsets s
  | .stacksWatchdog moved => Sys2Proof.Machine.execStacksWatchdog moved s
  | .scrubRead die upset => Sys2Proof.Machine.execScrubRead die upset s
  | .dieLinkFlit link dir seq crcBad => Sys2Proof.Machine.execDieLinkFlit link dir seq crcBad s
  | .dieLinkTrainingLost link => Sys2Proof.Machine.execDieLinkTrainingLost link s
  | .frameReceived n ps fcsBad fecC fecU bytes => Sys2Proof.Machine.execFrameReceived n ps fcsBad fecC fecU bytes s
  | .frameTransmit n ps => Sys2Proof.Machine.execFrameTransmit n ps s
  | .hostTxWrite wr owner => Sys2Proof.Machine.execHostTxWrite wr owner s
  | .netLinkUp n => Sys2Proof.Machine.execNetLinkUp n s
  | .netLinkDown n cause => Sys2Proof.Machine.execNetLinkDown n cause s
  | .addressAgeOut vid mac => Sys2Proof.Machine.execAddressAgeOut vid mac s
  | .tcEntryExpiry => Sys2Proof.Machine.execTcEntryExpiry s
  | .syncReceived port src seq two t1 corr q logInt => Sys2Proof.Machine.execSyncReceived port src seq two t1 corr q logInt s
  | .followUpReceived port src seq t1 corr => Sys2Proof.Machine.execFollowUpReceived port src seq t1 corr s
  | .delayRespReceived port src req seq t4 corr logInt => Sys2Proof.Machine.execDelayRespReceived port src req seq t4 corr logInt s
  | .announceReceived port src gm steps utc logInt => Sys2Proof.Machine.execAnnounceReceived port src gm steps utc logInt s
  | .delayReqSend => Sys2Proof.Machine.execDelayReqSend s
  | .announceTimeout => Sys2Proof.Machine.execAnnounceTimeout s
  | .syncLoss => Sys2Proof.Machine.execSyncLoss s
  | .ptpRequalify allow owner => Sys2Proof.Machine.execPtpRequalify allow owner s
  | .convCountWrite count owner => Sys2Proof.Machine.execConvCountWrite count owner s
  | .timeCaptureRead owner => Sys2Proof.Machine.execTimeCaptureRead owner s
  | .trigArm mask owner => Sys2Proof.Machine.execTrigArm mask owner s
  | .trigDisarm mask owner => Sys2Proof.Machine.execTrigDisarm mask owner s
  | .triggerFire k => Sys2Proof.Machine.execTriggerFire k s
  | .tcapEdge c rising => Sys2Proof.Machine.execTcapEdge c rising s
  | .capPop mask owner => Sys2Proof.Machine.execCapPop mask owner s
  | .heartbeatSend => Sys2Proof.Machine.execHeartbeatSend s
  | .renewal => Sys2Proof.Machine.execRenewal s
  | .heartbeatReceived lane body => Sys2Proof.Machine.execHeartbeatReceived lane body s
  | .hbPinFrameReceived frame => Sys2Proof.Machine.execHbPinFrameReceived frame s
  | .hbPathTimeout pin => Sys2Proof.Machine.execHbPathTimeout pin s
  | .leaseExpiry => Sys2Proof.Machine.execLeaseExpiry s
  | .takeoverTest => Sys2Proof.Machine.execTakeoverTest s
  | .pairRelease claim owner => Sys2Proof.Machine.execPairRelease claim owner s
  | .pairClaim owner => Sys2Proof.Machine.execPairClaim owner s
  | .pairJoin owner => Sys2Proof.Machine.execPairJoin owner s
  | .lineCrcReceived port folio line crc => Sys2Proof.Machine.execLineCrcReceived port folio line crc s
  | .posLatchReceived seq valid pos => Sys2Proof.Machine.execPosLatchReceived seq valid pos s
  | .mirrorWriteReceived region reg target off words => Sys2Proof.Machine.execMirrorWriteReceived region reg target off words s
  | .mirrorCommitReceived region target => Sys2Proof.Machine.execMirrorCommitReceived region target s
  | .mirrorLockTimeout region => Sys2Proof.Machine.execMirrorLockTimeout region s
  | .snapReqReceived => Sys2Proof.Machine.execSnapReqReceived s
  | .snapDataReceived object off data => Sys2Proof.Machine.execSnapDataReceived object off data s
  | .joinPortReceived port folio start => Sys2Proof.Machine.execJoinPortReceived port folio start s
  | .snapEndReceived objects crc => Sys2Proof.Machine.execSnapEndReceived objects crc s
  | .snapTimeout => Sys2Proof.Machine.execSnapTimeout s
  | .rejoinRetry => Sys2Proof.Machine.execRejoinRetry s
  | .pairPllLockLoss => Sys2Proof.Machine.execPairPllLockLoss s
  | .saggerPowerOn => Sys2Proof.Machine.execSaggerPowerOn s
  | .vddSagOutOfRange => Sys2Proof.Machine.execVddSagOutOfRange s
  | .selftestEnd passed => Sys2Proof.Machine.execSelftestEnd passed s
  | .saggerCycle chans senc resetN ov readback found => Sys2Proof.Machine.execSaggerCycle chans senc resetN ov readback found s
  | .saggerAdcRound codes ref300 ref1200 => Sys2Proof.Machine.execSaggerAdcRound codes ref300 ref1200 s
  | .ovComparatorTrip c b => Sys2Proof.Machine.execOvComparatorTrip c b s
  | .channelWatchdogTimeout ch => Sys2Proof.Machine.execChannelWatchdogTimeout ch s
  | .sagStart owner => Sys2Proof.Machine.execSagStart owner s
  | .sagStop start owner => Sys2Proof.Machine.execSagStop start owner s
  | .sagReset owner => Sys2Proof.Machine.execSagReset owner s
  | .resetButtonRelease lowUs => Sys2Proof.Machine.execResetButtonRelease lowUs s
  | .paramKeyWrite value owner => Sys2Proof.Machine.execParamKeyWrite value owner s
  | .paramCommit owner => Sys2Proof.Machine.execParamCommit owner s
  | .hkRound raw => Sys2Proof.Machine.execHkRound raw s
  | .slowdownSend => Sys2Proof.Machine.execSlowdownSend s
  | .headSdAck hi mask owner => Sys2Proof.Machine.execHeadSdAck hi mask owner s
  | .railStepDone readings => Sys2Proof.Machine.execRailStepDone readings s
  | .railRiseTimeout k => Sys2Proof.Machine.execRailRiseTimeout k s
  | .railFallStep readings => Sys2Proof.Machine.execRailFallStep readings s
  | .pmbusPoll readings => Sys2Proof.Machine.execPmbusPoll readings s
  | .pmbusTimeout k cmd => Sys2Proof.Machine.execPmbusTimeout k cmd s
  | .pmbAlert words => Sys2Proof.Machine.execPmbAlert words s
  | .clearFault readings owner => Sys2Proof.Machine.execClearFault readings owner s
  | .coreOvercurrent phase amps => Sys2Proof.Machine.execCoreOvercurrent phase amps s
  | .coreOutOfWindow mv => Sys2Proof.Machine.execCoreOutOfWindow mv s
  | .phaseShed load => Sys2Proof.Machine.execPhaseShed load s
  | .journalRecordProgrammed ok => Sys2Proof.Machine.execJournalRecordProgrammed ok s
  | .journalClose => Sys2Proof.Machine.execJournalClose s
  | .journalSave pg owner => Sys2Proof.Machine.execJournalSave pg owner s
  | .cpuWatchdog k => Sys2Proof.Machine.execCpuWatchdog k s
  | .watchdogKick k owner => Sys2Proof.Machine.execWatchdogKick k owner s
  | .hostCoreRelease mask owner => Sys2Proof.Machine.execHostCoreRelease mask owner s
  | .tenderRun mask owner => Sys2Proof.Machine.execTenderRun mask owner s
  | .tenderFault r kind addr => Sys2Proof.Machine.execTenderFault r kind addr s
  | .cacheError core addr dirty => Sys2Proof.Machine.execCacheError core addr dirty s
  | .bootStart unread => Sys2Proof.Machine.execBootStart unread s
  | .bootCandidateEnd errAt => Sys2Proof.Machine.execBootCandidateEnd errAt s
  | .norReadPage owner => Sys2Proof.Machine.execNorReadPage owner s
  | .norProgramPage owner => Sys2Proof.Machine.execNorProgramPage owner s
  | .norEraseSector owner => Sys2Proof.Machine.execNorEraseSector owner s
  | .norOpDone => Sys2Proof.Machine.execNorOpDone s
  | .mboxPush m d hi owner => Sys2Proof.Machine.execMboxPush m d hi owner s
  | .mboxPop m d owner => Sys2Proof.Machine.execMboxPop m d owner s
  | .claim k => Sys2Proof.Machine.execClaim k s
  | .complete k ix owner => Sys2Proof.Machine.execComplete k ix owner s
  | .l2Clean owner => Sys2Proof.Machine.execL2Clean owner s
  | .l2Invalidate owner => Sys2Proof.Machine.execL2Invalidate owner s
  | .l2CleanInvalidate owner => Sys2Proof.Machine.execL2CleanInvalidate owner s
  | .l2MaintDone lines => Sys2Proof.Machine.execL2MaintDone lines s
  | .pairPllLock => Sys2Proof.Machine.execPairPllLock s
  | .messageWhollySent port => Sys2Proof.Machine.execMessageWhollySent port s
  | .testSequenceLock port line => Sys2Proof.Machine.execTestSequenceLock port line s
  | .updateIntervalExpiry p => Sys2Proof.Machine.execUpdateIntervalExpiry p s
  | .paramKeyTimeout => Sys2Proof.Machine.execParamKeyTimeout s
  | .journalEraseDone => Sys2Proof.Machine.execJournalEraseDone s
  | .externalPowerLoss => Sys2Proof.Machine.execExternalPowerLoss s

end Sys2Proof.Machine
end

