-- ==== Sys2Proof/Machine/Transmit.lean ====
section
/-! DEFINITION. The Coil transmitters as time passes: blocks without a gap, fill, the test sequence and the loop to a lane's own
receiver (R298 to R305, R310, R313, R320). -/

namespace Sys2Proof.Machine

/-! ### Head lanes -/

/-- Time of a bit of a head transmit lane. -/
def State.laneBit (s : State) (p : Nat) : Nat := bitTime (s.laneGet F.Lane.RATE p)

/-- What a looped lane sends reaches its own return receiver, which takes 1.6 Gbit/s only (R297, R317, R320). -/
def State.loops (s : State) (p : Nat) : Bool := s.looped p && s.laneGet F.Lane.RATE p == 0

/-- The transmitter of a lane goes on to the present instant; every block carries the lease mark of its start (R310). -/
def laneBlocks (p : Nat) : Nat → State → State
  | 0, s => s
  | n + 1, s =>
    let t := (s.laneOf p).tx
    let b := s.laneBit p
    if t.next b ≤ 32 * s.now then
      let s1 := s.updLane p (fun x => { x with tx := t.step s.leaseMark p b })
      laneBlocks p n (if t.full && s.loops p then laneBlock p t.seq 0 (t.block.drop 64) s1 else s1)
    else s

/-- The test sequence of a lane goes on to the present instant. -/
def laneTest (p : Nat) : Nat → State → State
  | 0, s => s
  | n + 1, s =>
    let t := (s.laneOf p).tx
    match t.gen with
    | some g =>
      if t.start ≤ 32 * s.now then
        let s1 := s.updLane p (fun x => { x with
          tx := { t with gen := some (genNext g), start := t.start + s.laneBit p }
          test := if s.loops p && s.testOn p then x.test.step (genBit g) else x.test })
        laneTest p n s1
      else s
    | none => s

/-- A head transmit lane as time passes: blocks from the instant at which it starts to transmit, the first of count 0; in test mode
the sequence, whose first state the spec does not give and which is not zero; else nothing (R300, R313, R320). A nanosecond holds
less than seven bits. -/
def laneTick (p : Nat) (s : State) : State :=
  let t := (s.laneOf p).tx
  if s.transmits p then
    laneBlocks p 4 (if t.on then s else s.updLane p (fun x => { x with
      tx := { left := t.left : TxX }.begin s.leaseMark p 0 (32 * s.now) }))
  else if s.txActive p then
    if t.gen.isSome then laneTest p 8 s
    else
      let v := s.free
      laneTest p 8 (v.2.updLane p (fun x => { x with tx := { gen := some (v.1 % (2 ^ 31 - 1) + 1), start := 32 * s.now } }))
  else if t.on || t.gen.isSome then s.updLane p (fun x => { x with tx := {} })
  else s

/-! ### Pair lanes -/

/-- The transmitter of a pair lane goes on to the present instant (R298, R490). -/
def pairBlocks (k : Nat) : Nat → State → State
  | 0, s => s
  | n + 1, s =>
    let t := tget s.pair.tx k {}
    if t.next (bitTime 2) ≤ 32 * s.now then
      pairBlocks k n (s.updPair (fun x => { x with tx := tput x.tx k (t.step s.leaseMark k (bitTime 2)) }))
    else s

/-- A pair transmit lane as time passes: blocks from the instant at which the pair-lane PLL locks (R298). -/
def pairTick (k : Nat) (s : State) : State :=
  if s.on F.Pair.PLL_LOCKED pgPair then
    let t := tget s.pair.tx k {}
    pairBlocks k 4 (if t.on then s else s.updPair (fun x => { x with
      tx := tput x.tx k ({ left := t.left : TxX }.begin s.leaseMark k 0 (32 * s.now)) }))
  else s

/-- All transmitters as time passes. -/
def transmitters (s : State) : State :=
  forAll [0, 1] (forAll (List.range Config.ports) s laneTick) pairTick

end Sys2Proof.Machine
end

