-- ==== Sys2Proof/Machine/Tick.lean ====
section
/-! DEFINITION. What the passage of time does by itself. -/

namespace Sys2Proof.Machine

/-- Each millisecond the memory channels show the load of the last one (Table 12-10). -/
def channelLoads (s : State) : State :=
  if s.now % 1000000 = 0 then
    forAll (List.range 4) s (fun c s => if s.ready (pgChan c) then freshLoad F.Chan.LOAD (pgChan c) s else s)
  else s

/-- What the end of a cycle brings: levels pass the glitch filters (R226), moved compare targets are judged (R252), and the Coil
transmitters go on (R298, R313). -/
def cycleEnd (s : State) : State := transmitters (cmpNext (settleBalls s))

/-- Reads that have waited for SDRAM go on: replay reads of the ports, and slots of the host transmit ring (R117, R124). -/
def retries (s : State) : State :=
  hostRetry (forAll (List.range Config.ports) s (fun p s => if s.replayWaits p then portRelease p s else s))

/-- One fclk cycle (1 ns): it ends, time advances, and a port whose strobes have ended goes on (R100, R267, R291, R637). -/
def tick (s : State) : State :=
  let s1 := cycleEnd s
  channelLoads (retries (forAll (List.range Config.ports) { s1 with now := s1.now + 1 } settlePort))

end Sys2Proof.Machine
end

