-- ==== Sys2Proof/Safety.lean ====
section
/-! DEFINITION. What counts as a safe run, in the terms that claims use. -/

namespace Sys2Proof.Machine

/-- The state that a step answers, none where it stops. -/
def stepTo (s : State) : Option State :=
  match step s with
  | .next t => some t
  | _ => none

/-- The state after `n` steps, none where one of them stops. -/
def runTo : Nat → State → Option State
  | 0, s => some s
  | n + 1, s => (stepTo s).bind (runTo n)

/-- No step of any length of run from a state stops. -/
def Safe (s : State) : Prop := ∀ n, (runTo n s).isSome = true

/-! ### Writes that pass, and what a command leaves alone -/

/-- A write of a register with an action of its own passes: the part is up, the page is listed and READY, and no lock of
another agent binds it (R53, R63, R87, R635). -/
def State.passes (s : State) (pg owner : Nat) : Bool :=
  !s.silent && present pg && s.ready pg && (s.deniedBy pg owner).isNone

/-- Every register field but those with the listed keys holds what it held. -/
def State.RegsBut (s t : State) (ks : List Nat) : Prop := ∀ k, k ∉ ks → tfind t.regs k = tfind s.regs k

/-- Only fields of the listed pages changed. -/
def State.OnPages (s t : State) (ps : List Nat) : Prop := ∀ k, k / 131072 ∉ ps → tfind t.regs k = tfind s.regs k

/-- Nothing changed but the register fields with the listed keys. -/
def State.OnlyRegs (s t : State) (ks : List Nat) : Prop := t = { s with regs := t.regs } ∧ s.RegsBut t ks

/-- A byte of SDRAM lies outside the Ledger ring and outside slot LEDGER_WR (R625, R627). -/
def State.outsideLedger (s : State) (a : Nat) : Prop :=
  a < s.get F.Led.LEDGER_BASE pgLedger * 4096 ∨
    s.get F.Led.LEDGER_BASE pgLedger * 4096 + 32 * max s.ledgerLen (s.get F.Led.LEDGER_WR pgLedger + 1) ≤ a

/-- What records of events write: the registers of the Ledger's page, its ring in SDRAM, its reserved pool and the rate
windows (R89, R627, R628, R633); and besides these only EVENT_STATUS of page `pg` and the fields with the listed keys. -/
def State.OnlyEvents (s t : State) (pg : Nat) (ks : List Nat) : Prop :=
  t = { s with regs := t.regs, sdram := t.sdram, pool := t.pool, stamps := t.stamps } ∧
  (∀ k, k ∉ ks → k ≠ F.Hdr.EVENT_STATUS.key pg 0 → k / 131072 ≠ pgLedger → tfind t.regs k = tfind s.regs k) ∧
  ∀ a, s.outsideLedger a → memByte t.sdram a = memByte s.sdram a

/-- Every lock that one of these agents holds is released and broken, and no other changes (R84). -/
def State.LosesLocks (s t : State) (agents : Nat → Bool) : Prop := ∀ n < 64,
  if (s.onI F.Lock.HELD pgLocks n && agents (agentOf (s.getI F.Lock.OWNER pgLocks n))) = true then
    t.getI F.Lock.HELD pgLocks n = 0 ∧ t.getI F.Lock.OWNER pgLocks n = 0 ∧ t.getI F.Lock.BROKEN pgLocks n = 1
  else t.getI F.Lock.HELD pgLocks n = s.getI F.Lock.HELD pgLocks n ∧ t.getI F.Lock.OWNER pgLocks n = s.getI F.Lock.OWNER pgLocks n ∧
    t.getI F.Lock.BROKEN pgLocks n = s.getI F.Lock.BROKEN pgLocks n

/-! ### The form that the state keeps -/

/-- The stores are in their one canonical form, and the reserved pool of the Ledger holds at most its 64 records (R628). -/
def State.Canonical (s : State) : Prop :=
  Memory.wf s.sdram ∧ Memory.wf s.room ∧ tsorted s.regs = true ∧ tsorted s.aptw = true ∧ s.pool.length ≤ 64

end Sys2Proof.Machine
end

