-- ==== Sys2Proof/Certificates/Slice0/Obligations.lean ====
section
/-! DEFINITION. The statements for the provers. -/

open Sys2Proof Sys2Proof.Machine

/-- For every state whose queue is c :: rest, step answers what exec answers for c on the state with the queue rest. -/
def Obligations.StepRunsTheFrontCommand : Prop :=
  ∀ (s : State) (c : Instr) (rest : List Instr), s.pending = c :: rest → step s = exec c { s with pending := rest }

/-- For every state and every number of steps the run goes on: no command ends in a fault or a refusal, and an empty
queue idles. -/
def Obligations.NoCommandStops : Prop :=
  (∀ (c : Instr) (s : State), ∃ t, exec c s = .next t) ∧ ∀ s : State, Safe s

/-- For every canonical state and every answer of step: SDRAM, the Reading Room, the registers and the apertures stay
sorted without repeats, bytes equal to an unlisted byte are not listed, and the reserved pool of the Ledger holds at
most 64 records (R628). -/
def Obligations.EveryStepKeepsCanonicalForm : Prop :=
  ∀ s t : State, s.Canonical → step s = .next t → t.Canonical

/-- The stores of the state after reset are in canonical form, and the reserved pool of the Ledger is empty. -/
def Obligations.ResetIsCanonical : Prop := State.reset.Canonical ∧ State.reset.pool = []

/-- From every canonical state, the next state that exec answers for any command has the same time and the same waiting
commands, and the counter of free values has not gone back. -/
def Obligations.CommandsKeepTimeAndQueue : Prop :=
  ∀ (c : Instr) (s t : State), s.Canonical → exec c s = .next t →
    t.now = s.now ∧ t.pending = s.pending ∧ s.freeIx ≤ t.freeIx

/-- On an empty queue step answers a next state whose time is one cycle later and whose queue is empty (a choice of the
model, log entry 1). -/
def Obligations.EmptyQueuePassesOneCycle : Prop :=
  ∀ s : State, s.Canonical → s.pending = [] → ∃ t, step s = .next t ∧ t.now = s.now + 1 ∧ t.pending = []

/-- For a write of LOCK_n that passes: ACQUIRE on a free lock makes the writer the holder and changes no other register;
ACQUIRE on a held lock changes nothing, unless the lock was acquired in this same cycle by an owner with a higher
identifier: then the lower identifier holds it; RELEASE and CLEAR_BROKEN by the holder free the lock and clear
BROKEN; by another owner each changes no lock and raises LOCK.RELEASE_DENIED with the owner and the lock index (R82,
R83, R85, R86). -/
def Obligations.LocksObeyTheirHolder : Prop :=
  ∀ (s : State) (n owner : Nat), n < 64 → owner < 256 → s.passes pgLocks owner = true →
    (s.onI F.Lock.HELD pgLocks n = false → ∃ t, exec (.lockAcquire n owner) s = .next t ∧ t.holds n owner = true ∧
      ({ s with stamps := t.stamps } : State).OnlyRegs t [F.Lock.HELD.key pgLocks n, F.Lock.OWNER.key pgLocks n]) ∧
    (s.onI F.Lock.HELD pgLocks n = true → (s.stampedNow (lockKey n) = false ∨ s.getI F.Lock.OWNER pgLocks n ≤ owner) →
      exec (.lockAcquire n owner) s = .next s) ∧
    (s.onI F.Lock.HELD pgLocks n = true → s.stampedNow (lockKey n) = true → owner < s.getI F.Lock.OWNER pgLocks n →
      ∃ t, exec (.lockAcquire n owner) s = .next t ∧ t.holds n owner = true ∧
        ({ s with stamps := t.stamps } : State).OnlyRegs t [F.Lock.HELD.key pgLocks n, F.Lock.OWNER.key pgLocks n]) ∧
    (s.holds n owner = true →
      (∃ t, exec (.lockRelease n owner) s = .next t ∧ t.onI F.Lock.HELD pgLocks n = false ∧ t.getI F.Lock.OWNER pgLocks n = 0 ∧
        s.OnlyRegs t [F.Lock.HELD.key pgLocks n, F.Lock.OWNER.key pgLocks n]) ∧
      ∃ t, exec (.lockClearBroken n owner) s = .next t ∧ t.onI F.Lock.BROKEN pgLocks n = false ∧
        s.OnlyRegs t [F.Lock.BROKEN.key pgLocks n]) ∧
    (s.holds n owner = false →
      (∃ t, exec (.lockRelease n owner) s = .next t ∧ t = s.raise Ev.lockReleaseDenied pgLocks (owner * 256 + n) ∧
        bitAt (t.get F.Hdr.EVENT_STATUS pgLocks) 1 = true ∧ s.OnlyEvents t pgLocks []) ∧
      exec (.lockClearBroken n owner) s = .next (s.raise Ev.lockReleaseDenied pgLocks (owner * 256 + n)))

/-- On a listed page of a part that is up, a word written to EVENT_STATUS clears exactly the bits that are 1 in it and
were not set in this same cycle, and changes nothing else; EVENT_FORCE with one bit whose event the page has raises
that event with an argument of all ones, READY or not, bound or not (R14, R63, R87, R91). -/
def Obligations.EventRegistersClearAndForce : Prop :=
  ∀ (s : State) (pg : Nat), present pg = true → s.silent = false →
    (∀ mask, ∃ t, exec (.eventStatusClear pg mask) s = .next t ∧
      (∀ i < 32, bitAt (t.get F.Hdr.EVENT_STATUS pg) i = (bitAt (s.get F.Hdr.EVENT_STATUS pg) i &&
        !(bitAt mask i && !s.stampedNow (setKey F.Hdr.EVENT_STATUS pg i)))) ∧
      s.OnlyRegs t [F.Hdr.EVENT_STATUS.key pg 0]) ∧
    ∀ i < 32, ∀ e, (pageEvents pg).find? (fun e => e.bit == i) = some e → pg ≠ pgLedger →
      ∃ t, exec (.eventForce pg (2 ^ i)) s = .next t ∧ t = s.raiseX e pg (2 ^ 64 - 1) 0 e.sev true ∧
        bitAt (t.get F.Hdr.EVENT_STATUS pg) i = true ∧ s.OnlyEvents t pg []

/-- On a listed page of a part that is up: ENABLE starts a READY function and is refused with REG.WRITE_LOCKED_OUT while
READY is 0, ENABLE 0 stops it, HOLD is stored, QUIESCE notes its instant, its release clears it, neither acts beside
a control-ring QUIESCE operation of the same cycle, a function reset marks the page and raises REG.FUNC_RESET on
page 0x003, and QUIESCE that leaves BUSY for 20 us raises REG.QUIESCE_TIMEOUT with QUIESCE kept (R58, R60, R63,
R117, R118, R119, R121, R123). -/
def Obligations.ControlBitsAct : Prop :=
  ∀ (s : State) (pg : Nat), present pg = true → s.silent = false →
    (s.ready pg = true → s.on F.Hdr.ENABLE pg = false →
      exec (.controlEnable pg true) s = .next (blockStart pg (s.set F.Hdr.ENABLE pg 1))) ∧
    (s.ready pg = false → exec (.controlEnable pg true) s = .next
      (s.raise Ev.regWriteLockedOut pg (arg64 (s.get F.Hdr.HOLD pg * 8 + s.get F.Hdr.QUIESCE pg * 4 + 1) 8))) ∧
    (s.on F.Hdr.ENABLE pg = true → exec (.controlEnable pg false) s = .next (blockStop pg (s.set F.Hdr.ENABLE pg 0))) ∧
    (∀ v, exec (.controlHold pg v) s = .next (blockHold pg v (s.set F.Hdr.HOLD pg (bit v)))) ∧
    (s.ringQuiesced pg = false → s.on F.Hdr.QUIESCE pg = false → ∃ t, exec (.controlQuiesce pg) s = .next t ∧ t.on F.Hdr.QUIESCE pg = true ∧
      (t.bndOf pg).quiesceAt = some s.now ∧ t = { s with regs := t.regs, bnd := t.bnd } ∧ s.RegsBut t [F.Hdr.QUIESCE.key pg 0]) ∧
    (s.ringQuiesced pg = false → s.on F.Hdr.QUIESCE pg = true → ∃ u, exec (.controlReleaseQuiesce pg) s = .next (blockRelease pg u) ∧
      u.on F.Hdr.QUIESCE pg = false ∧ (u.bndOf pg).quiesceAt = none ∧ u = { s with regs := u.regs, bnd := u.bnd } ∧
      s.RegsBut u [F.Hdr.QUIESCE.key pg 0]) ∧
    (s.ringQuiesced pg = true → exec (.controlQuiesce pg) s = .next s ∧ exec (.controlReleaseQuiesce pg) s = .next s) ∧
    (∀ owner, within pg 0x040 0x04B = false → (s.bndOf pg).resetting = false →
      ∃ t, exec (.controlFuncReset pg owner) s = .next t ∧ (t.bndOf pg).resetting = true ∧
        bitAt (t.get F.Hdr.EVENT_STATUS pgReady) Ev.regFuncReset.bit = true) ∧
    (∀ t0, (s.bndOf pg).quiesceAt = some t0 → s.on F.Hdr.QUIESCE pg = true → s.busy pg = true → t0 + 20000 ≤ s.now →
      exec (.quiesceTimeout pg) s = .next
        ((s.updBnd pg (fun b => { b with quiesceAt := none })).raise Ev.regQuiesceTimeout pgReady pg))

/-- A narrow or misaligned access answers a bus error and nothing else; a read of an unlisted slot answers zero and a
write is ignored, each raising REG.UNMAPPED_ACCESS; a register write to an unlisted slot does the same; and while no
access reaches the part nothing happens (R52, R53, R635). -/
def Obligations.BusErrorsAndUnmappedSlots : Prop :=
  ∀ s : State,
    (∀ addr size, s.silent = false → size < 4 ∨ addr % 4 ≠ 0 →
      exec (.accessBusError addr size) s = .next { s with resp := .busError }) ∧
    (∀ n off, s.silent = false → n < 256 → present n = false → off < 0x1000 →
      (∃ t, exec (.unmappedAccess (0x40000000 + n * 0x1000 + off) false) s = .next t ∧ t.resp = .data 0 ∧
        bitAt (t.get F.Hdr.EVENT_STATUS pgReady) Ev.regUnmappedAccess.bit = true ∧
        ({ s with resp := .data 0 } : State).OnlyEvents t pgReady []) ∧
      (∃ t, exec (.unmappedAccess (0x40000000 + n * 0x1000 + off) true) s = .next t ∧
        bitAt (t.get F.Hdr.EVENT_STATUS pgReady) Ev.regUnmappedAccess.bit = true ∧
        ({ s with resp := .none } : State).OnlyEvents t pgReady []) ∧
      ∀ data owner, off % 4 = 0 → ∃ t, exec (.registerWrite n false off data owner) s = .next t ∧
        bitAt (t.get F.Hdr.EVENT_STATUS pgReady) Ev.regUnmappedAccess.bit = true ∧ s.OnlyEvents t pgReady []) ∧
    (s.silent = true → ∀ pg apt off data owner addr size wr, exec (.registerWrite pg apt off data owner) s = .next s ∧
      exec (.accessBusError addr size) s = .next s ∧ exec (.unmappedAccess addr wr) s = .next s)

/-- A request before the lead point, or one stopped by nothing, makes an IDLE page PENDING with its TARGET; a cancel
returns PENDING to IDLE; the lead point of the targeted boundary freezes a running page; its reference instant
swaps, notes the boundary number and counts on; a stopped page that no group holds swaps at once; the end of
copy-back returns the page to IDLE (R65, R67, R70, R72). -/
def Obligations.CommitOfOnePage : Prop :=
  ∀ (s : State) (pg owner : Nat), hasBoundary pg = true →
    (∀ target en, s.passes pg owner = true → s.groupOf pg = none → s.cstate pg = 0 → (s.bndOf pg).leadPassed = false →
      s.shadowBad pg = false → s.cal.mirror = [] →
      (en = true → (low 16 target + 65536 - (s.bndOf pg).next % 65536) % 65536 ≤ 32767) →
      ∃ t, exec (.commitRequest pg target en false owner) s = .next t ∧ t.cstate pg = 1 ∧
        (t.bndOf pg).tgt = (if en then some (low 16 target) else none) ∧ t.get F.Hdr.COMMIT_TARGET pg = low 16 target ∧
        t = { s with regs := t.regs, bnd := t.bnd } ∧
        s.RegsBut t [F.Hdr.COMMIT_TARGET.key pg 0, F.Hdr.TARGET_EN.key pg 0, F.Hdr.COMMIT_STATE.key pg 0]) ∧
    (s.passes pg owner = true → s.cstate pg = 1 → ∃ t, exec (.commitCancel pg owner) s = .next t ∧ t.cstate pg = 0 ∧
      t.get F.Hdr.LATE pg = 0 ∧ (t.bndOf pg).tgt = none ∧ t = { s with regs := t.regs, bnd := t.bnd }) ∧
    (s.stopped pg = false → (s.bndOf pg).leadPassed = false → s.cstate pg = 1 → s.shadowBad pg = false →
      ((s.bndOf pg).tgt = none ∨ (s.bndOf pg).tgt = some ((s.bndOf pg).next % 65536)) →
      ∃ t, exec (.commitLeadPoint pg) s = .next t ∧ t.cstate pg = 2 ∧ (t.bndOf pg).leadPassed = true ∧
        t = { s with regs := t.regs, bnd := t.bnd } ∧ s.RegsBut t [F.Hdr.COMMIT_STATE.key pg 0]) ∧
    (s.stopped pg = false → (s.bndOf pg).leadPassed = true → s.cstate pg = 2 → s.groupToSwap pg = none →
      s.on F.Hdr.HOLD pg = false →
      ∃ t, exec (.commitSwap pg) s = .next t ∧ t.nextBoundary pg = (s.nextBoundary pg + 1) % 2 ^ 32 ∧
        (t.bndOf pg).leadPassed = false ∧ t.get F.Hdr.LAST_BOUNDARY pg = low 24 (s.nextBoundary pg) ∧
        (boundaryKind pg ≠ 2 → within pg 0x06C 0x06F = false → t.cstate pg = 3 ∧
          t.get F.Hdr.ACTIVE_SET pg = low 1 (1 - s.get F.Hdr.ACTIVE_SET pg))) ∧
    (s.stopped pg = true → s.groupToSwap pg = none → s.groupOf pg = none → s.cstate pg = 1 → (s.bndOf pg).tgt = none →
      ∃ t, exec (.stoppedCommitSwap pg) s = .next t ∧ (boundaryKind pg ≠ 2 → within pg 0x06C 0x06F = false →
        t.cstate pg = 3 ∧ t.get F.Hdr.ACTIVE_SET pg = low 1 (1 - s.get F.Hdr.ACTIVE_SET pg))) ∧
    (s.cstate pg = 3 → (s.bndOf pg).held = none → s.grp = [] → ∃ t, exec (.copyBackDone pg) s = .next t ∧
      t.cstate pg = 0 ∧ (t.bndOf pg).written = [])

/-- A write of GROUP_CTRL that passes stores TARGET and acts; an untargeted request of a legal running group before its
lead point makes the group PENDING; a cancel returns PENDING to IDLE; at the lead point a PENDING group takes its
boundary number and freezes each running member while a stopped one swaps at once (R70, R76, R77). -/
def Obligations.GroupCommitRequests : Prop :=
  ∀ (s : State) (g owner : Nat), g < 8 →
    (s.passes pgMode owner = true → ∀ target, ∃ u : State,
      u.getI F.Group.GROUP_CTRL_TARGET pgMode g = low 16 target ∧
      s.OnlyRegs u [F.Group.GROUP_CTRL_TARGET.key pgMode g, F.Group.TARGET_EN.key pgMode g] ∧
      exec (.groupRequest g target false false owner) s = .next (groupRequest g none u) ∧
      (u.gstate g = 0 → u.groupOffender g = none → u.runningMembers g ≠ [] → u.groupLeadPassed g = false →
        ∃ t, exec (.groupRequest g target false false owner) s = .next t ∧ t.gstate g = 1 ∧ (t.grpOf g).tgt = none ∧
          t = { u with regs := t.regs, grp := t.grp } ∧ u.RegsBut t [F.Group.GROUP_STATE_STATE.key pgMode g])) ∧
    (s.passes pgMode owner = true → s.gstate g = 1 → ∃ t, exec (.groupCancel g owner) s = .next t ∧ t.gstate g = 0 ∧
      (t.grpOf g).tgt = none ∧ t = { s with regs := t.regs, grp := t.grp }) ∧
    (s.gstate g = 1 → s.runningMembers g ≠ [] → (s.grpOf g).tgt = none → (s.grpOf g).carried = none →
      (s.groupMembers g).any s.shadowBad = false →
      ∃ u : State, u.gstate g = 2 ∧ (u.grpOf g).boundary = s.groupNext g ∧ (u.grpOf g).toSwap = s.groupMembers g ∧
        u = { s with regs := u.regs, grp := u.grp } ∧ s.RegsBut u [F.Group.GROUP_STATE_STATE.key pgMode g] ∧
        exec (.groupLeadPoint g) s = .next (forAll (s.groupMembers g) u (fun pg u =>
          if u.stopped pg then swapMember g (some (s.groupNext g)) pg u else u.setCstate pg 2)))

/-- A RING_CMD write that passes while no host frame is pending sets PENDING, clears DONE and ERROR, notes the page and
puts the frame on a free ring, for a function reset with the pages that are in reset already; while one is pending
it changes nothing. A frame that completes answers the host with DONE, a header read with its word; a frame marked
by a node is resent once, and marked again it ends with ERROR and REG.RING_ERROR (R41, R42, R43, R44, R45, R115). -/
def Obligations.ControlRingCommands : Prop :=
  ∀ (s : State) (pg word owner : Nat),
    (s.passes pgReady owner = true → s.on F.Rdy.PENDING pgReady = false → s.ring.onRing = none →
      ∀ op ∈ [(1, Instr.ringHeaderRead pg word owner, low 4 word), (2, .ringQuiesce pg owner, 0), (3, .ringReleaseQuiesce pg owner, 0),
        (4, .ringFuncReset pg owner, 0)],
      ∃ t, exec op.2.1 s = .next t ∧ t.on F.Rdy.PENDING pgReady = true ∧ t.get F.Rdy.LAST_PAGE pgReady = low 8 pg ∧
        t.ring.onRing = some ⟨3, op.1, low 8 pg, op.2.2,
          if op.1 = 4 then (resetPages (low 8 pg)).filter (fun p => (s.bndOf p).resetting) else []⟩ ∧ t = { s with regs := t.regs, ring := t.ring } ∧
        s.RegsBut t [F.Rdy.PENDING.key pgReady 0, F.Rdy.DONE.key pgReady 0, F.Rdy.ERROR.key pgReady 0, F.Rdy.LAST_PAGE.key pgReady 0]) ∧
    (s.passes pgReady owner = true → s.on F.Rdy.PENDING pgReady = true →
      exec (.ringHeaderRead pg word owner) s = .next s ∧ exec (.ringQuiesce pg owner) s = .next s ∧
      exec (.ringReleaseQuiesce pg owner) s = .next s ∧ exec (.ringFuncReset pg owner) s = .next s) ∧
    (∀ r, s.ring.onRing = some r → s.ring.waiting = [] → r.who = 3 → r.op = 1 → present r.page = true →
      ∃ t : State, exec (.ringFrameComplete false) s = .next t ∧ t.ring.onRing = none ∧ t.on F.Rdy.PENDING pgReady = false ∧
        t.on F.Rdy.DONE pgReady = true ∧ t.on F.Rdy.ERROR pgReady = false ∧
        t = { s with regs := t.regs, ring := t.ring } ∧
        s.RegsBut t [F.Rdy.PENDING.key pgReady 0, F.Rdy.DONE.key pgReady 0, F.Rdy.ERROR.key pgReady 0, F.Rdy.RING_DATA.key pgReady 0] ∧
        t.get F.Rdy.RING_DATA pgReady = low 32 (s.headerWord r.page r.word)) ∧
    (∀ r, s.ring.onRing = some r → s.ring.resent = false →
      exec (.ringFrameComplete true) s = .next { s with ring := { s.ring with resent := true } }) ∧
    (∀ r, s.ring.onRing = some r → s.ring.resent = true → s.ring.waiting = [] →
      ∃ t, exec (.ringFrameComplete true) s = .next t ∧ t.ring.onRing = none ∧
        bitAt (t.get F.Hdr.EVENT_STATUS pgReady) Ev.regRingError.bit = true)

/-- A GO that passes and that a row of Table 3-3 refuses raises REG.MODE_REFUSED and leaves MODE alone; one that is not
refused, to Idle out of Bisque or Safe-Hold or to Print or Service, begins the transition; REQ_MODE = 5 in Bisque,
Idle, Print or Service sets HOST_REQUEST and begins Safe-Hold entry. A 1 written to SAFE_HOLD_CAUSE clears its bit
only while the cause is not present, and not in the cycle in which the bit sets (R14, R97, R101, R102, R103). -/
def Obligations.ModeRequests : Prop :=
  ∀ (s : State) (owner : Nat), s.passes pgMode owner = true →
    (∀ req < 6, ∀ stop, req ≠ 5 → s.goRefusal req ≠ 0 →
      ∃ t, exec (.modeGo req stop owner) s = .next t ∧ t.modeNow = s.modeNow ∧ t.inTransition = s.inTransition ∧
        t.get F.Mode.REFUSE_REASON pgMode = s.goRefusal req ∧ t.get F.Mode.REQ_MODE pgMode = req ∧
        bitAt (t.get F.Hdr.EVENT_STATUS pgMode) Ev.regModeRefused.bit = true ∧
        s.OnlyEvents t pgMode [F.Mode.STOP_NOW.key pgMode 0, F.Mode.REQ_MODE.key pgMode 0, F.Mode.REFUSE_REASON.key pgMode 0]) ∧
    (∀ req stop, (req = 2 ∧ s.modeNow ≠ 3 ∧ s.modeNow ≠ 4) ∨ req = 3 ∨ req = 4 → s.goRefusal req = 0 →
      ∃ t, exec (.modeGo req stop owner) s = .next t ∧ t.modeNow = s.modeNow ∧ t.inTransition = true ∧ t.target = req ∧
        ({ s with mode := { s.mode with goAt := some (s.now, req) } } : State).OnlyRegs t [F.Mode.STOP_NOW.key pgMode 0,
          F.Mode.REQ_MODE.key pgMode 0, F.Mode.IN_TRANSITION.key pgMode 0, F.Mode.TARGET_MODE.key pgMode 0]) ∧
    (∀ stop, s.modeNow ≠ 0 → s.modeNow ≠ 5 → ¬(s.inTransition = true ∧ s.target = 5) → s.autoDormant = false →
      (∀ r, s.mode.goAt ≠ some (s.now, r)) →
      ∃ t, exec (.modeGo 5 stop owner) s = .next t ∧ t.modeNow = s.modeNow ∧ t.inTransition = true ∧ t.target = 5 ∧
        bitAt (t.get F.Mode.SAFE_HOLD_CAUSE pgMode) 4 = true ∧ t = { s with regs := t.regs, mode := t.mode, jrn := t.jrn, stamps := t.stamps } ∧
        s.RegsBut t [F.Mode.STOP_NOW.key pgMode 0, F.Mode.REQ_MODE.key pgMode 0, F.Mode.SAFE_HOLD_CAUSE.key pgMode 0,
          F.Mode.IN_TRANSITION.key pgMode 0, F.Mode.TARGET_MODE.key pgMode 0]) ∧
    ∀ mask, ∃ t, exec (.safeHoldCauseClear mask owner) s = .next t ∧
      (∀ i < 7, bitAt (t.get F.Mode.SAFE_HOLD_CAUSE pgMode) i =
        (bitAt (s.get F.Mode.SAFE_HOLD_CAUSE pgMode) i &&
          !(bitAt mask i && !bitAt s.causesPresent i && !s.stampedNow (setKey F.Mode.SAFE_HOLD_CAUSE pgMode i)))) ∧
      s.OnlyRegs t [F.Mode.SAFE_HOLD_CAUSE.key pgMode 0]

/-- AUTO_IDLE in Bisque begins the transition to Idle; BISQUE_TIMEOUT raises REG.BISQUE_TIMEOUT once; at the end of a
transition MODE takes TARGET_MODE, PREV_MODE the old mode, IN_TRANSITION clears and REG.MODE_CHANGE is raised; a
page whose conditions hold becomes READY (R97, R98, R108, R110, R111). -/
def Obligations.ModeTransitions : Prop :=
  ∀ s : State,
    (s.modeNow = 1 → s.inTransition = false → s.mode.porst = false → s.on F.Mode.AUTO_IDLE pgMode = true → s.ready pgMode = true →
      s.missingPages = [] → s.get F.Mode.SAFE_HOLD_CAUSE pgMode = 0 →
      ∃ t, exec .autoIdle s = .next t ∧ t.modeNow = 1 ∧ t.inTransition = true ∧ t.target = 2 ∧
        s.OnlyRegs t [F.Mode.IN_TRANSITION.key pgMode 0, F.Mode.TARGET_MODE.key pgMode 0]) ∧
    (s.modeNow = 1 → s.mode.porst = false → s.mode.bisqueTimeout = false → s.missingPages ≠ [] →
      s.mode.bisqueSince + s.get F.Mode.BISQUE_LIMIT pgMode * 1000000 ≤ s.now →
      ∃ t, exec .bisqueTimeout s = .next t ∧ t.mode.bisqueTimeout = true ∧ t.modeNow = 1 ∧
        bitAt (t.get F.Hdr.EVENT_STATUS pgMode) Ev.regBisqueTimeout.bit = true ∧
        ({ s with mode := { s.mode with bisqueTimeout := true } } : State).OnlyEvents t pgMode []) ∧
    (s.mode.bisqueTimeout = true → exec .bisqueTimeout s = .next s) ∧
    (s.inTransition = true → s.target ≠ 0 → (s.target = 2 → s.modeNow = 3 ∨ s.modeNow = 4 → portsStopped s = true) →
      (s.target = 5 → s.mode.pathStopped = true) →
      ∃ u : State, u.modeNow = low 3 s.target ∧ u.get F.Mode.PREV_MODE pgMode = low 3 s.modeNow ∧ u.inTransition = false ∧
        bitAt (u.get F.Hdr.EVENT_STATUS pgMode) Ev.regModeChange.bit = true ∧
        ({ s with mode := { s.mode with pathStopped := decide (s.target = 5) } } : State).OnlyEvents u pgMode
          [F.Rdy.BISQUE_ELAPSED.key pgReady 0, F.Mode.PREV_MODE.key pgMode 0, F.Mode.MODE.key pgMode 0, F.Mode.IN_TRANSITION.key pgMode 0] ∧
        exec .modeChange s = .next (blockModeChanged s.modeNow s.target u)) ∧
    (s.inTransition = true → s.target = 2 → s.modeNow = 3 ∨ s.modeNow = 4 → portsStopped s = false → exec .modeChange s = .next s) ∧
    ∀ pg, present pg = true → s.ready pg = false → s.modeNow ≠ 0 → s.mode.porst = false → (∀ d ∈ dependencies pg, s.ready d = true) →
      blockMayReady s pg = true →
      ∃ u : State, u.ready pg = true ∧ s.OnlyRegs u [F.Hdr.READY.key pg 0] ∧
        exec (.functionReady pg) s = .next ((blockReady pg u).updBnd pg (fun b => { b with resetting := false }))

/-- PORST_RELEASE, a wake by the pin or the timer, PORST_ASSERT, DORMANT_ENTRY and EXTERNAL_POWER_LOSS leave every
register of every page but the Sagger at its reset value, RESET_CAUSE and in Dormant the mode apart, and clear SDRAM
and every buffer; a wake keeps the NOR and the time (R16, R28, R105, R622, R623, R635, Table 3-7). -/
def Obligations.PowerCycles : Prop :=
  ∀ s : State,
    (∀ c ∈ ([(.porstRelease true, s.mode.porst, 1), (.porstRelease false, s.mode.porst, 2),
        (.wakePin, s.modeNow == 0 && !s.mode.porst && s.mode.wakePinEn, s.wakeCause),
        (.wakeTimerExpiry, s.modeNow == 0 && !s.mode.porst && s.mode.wakeTimerEn &&
          decide (s.mode.dormantSince + s.mode.wakeDelay * 1000000 ≤ s.now), s.wakeCause)] : List (Instr × Bool × Nat)),
      c.2.1 = true → ∃ t, exec c.1 s = .next t ∧ t.get F.Rdy.RESET_CAUSE pgReady = c.2.2 ∧ t.modeNow = 1 ∧ t.mode.porst = false ∧
        t.now = s.now ∧ t.countBase = s.now ∧ t.sdram = [] ∧ t.room = [] ∧ t.pool = [] ∧ t.sag = s.sag ∧ t.cpu.nor = s.cpu.nor ∧
        ∀ k, k / 131072 ≠ pgSag → k ≠ F.Rdy.RESET_CAUSE.key pgReady 0 → tfind t.regs k = none) ∧
    (s.mode.porst = false → ∃ t, exec .porstAssert s = .next t ∧ t.mode.porst = true ∧ t.sdram = [] ∧ t.room = [] ∧
      ∀ k, k / 131072 ≠ pgSag → tfind t.regs k = none) ∧
    (s.mode.toDormant = true → s.mode.porst = false → s.modeNow ≠ 0 → s.target = 0 → dormantReached s = true →
      ∃ t, exec .dormantEntry s = .next t ∧ t.modeNow = 0 ∧ t.target = 0 ∧ t.mode.dormantSince = s.now ∧ t.mode.toDormant = false ∧
        t.mode.wakePinEn = s.on F.Mode.WAKE_PIN_EN pgMode ∧ t.mode.wakeTimerEn = s.on F.Mode.WAKE_TIMER_EN pgMode ∧
        t.mode.wakeDelay = s.get F.Mode.WAKE_DELAY pgMode ∧ t.sdram = [] ∧ t.room = [] ∧
        ∀ k, k / 131072 ≠ pgSag → k ≠ F.Mode.MODE.key pgMode 0 → k ≠ F.Mode.TARGET_MODE.key pgMode 0 → tfind t.regs k = none) ∧
    (∃ t, exec .externalPowerLoss s = .next t ∧ t.mode.porst = true ∧ t.sag = { up := 0 } ∧ t.sdram = [] ∧ t.room = [] ∧
      ∀ k, k / 131072 ≠ pgSag → tfind t.regs k = none) ∧
    (s.inTransition = true → s.target = 5 → s.get F.Mode.SAFE_HOLD_CAUSE pgMode ≠ 0 →
      ∃ t, exec .safeHoldEntry s = .next t ∧ t.mode.pathStopped = true ∧ t.get F.Sag.DRIVE_EN pgSag = 0 ∧
        t.on F.Sag.DRIVE_DEMAND pgSag = true)

/-- A well-formed chunk that ingest accepts, for a folio of the window of which nothing is held, is held with its bytes
at its offset (one that does not bring the whole header, and, where it lies past every directory byte, with fewer
than 256 early chunks held); a datagram for which ingest is not enabled changes nothing. RING_ALLOCATE gives the
first waiting item its ring space where it fits. EVICT of a valid entry sets EVICT_PENDING; once no folio refers to
the entry it becomes invalid and its space free (R126, R128, R130, R133, R145, R149). -/
def Obligations.IngestChunksRingAndCache : Prop :=
  ∀ s : State,
    (∀ net v6 dst udp pl, s.takesChunk net v6 dst udp = true → ∀ n off len, n = field pl 8 4 → off = 4 * field pl 12 4 → len = field pl 6 2 →
      field pl 0 2 = 0xF011 → field pl 2 1 = 1 → 0 < len → len ≤ 8956 → len % 4 = 0 → pl.length = 16 + len →
      field pl 4 2 = s.get F.Ing.SEGMENT_ID pgIng → 0 ≤ folioDiff n s.expected → folioDiff n s.expected ≤ 3 →
      s.ing.passed.contains n = false → s.folio n = none →
      (0 < off ∨ len < 64) → (maxDirEnd ≤ off → s.earlyChunks < 256) →
      ∃ t, exec (.chunkReceived net v6 dst udp pl) s = .next t ∧
        t.ing = { s.ing with held := s.ing.held ++ [{ n := n, raw := [(off, pl.drop 16)], held := [(off, off + len)], chunks := 1, early := [(off, len, [(off, off + len)])] }] } ∧
        t = { s with regs := t.regs, ing := t.ing } ∧ s.RegsBut t [F.Ing.BYTES_DROPPED.key pgIng 0]) ∧
    (∀ net v6 dst udp pl, s.takesChunk net v6 dst udp = false → exec (.chunkReceived net v6 dst udp pl) s = .next s) ∧
    (s.pathOn pgIng = true → ∀ n i p, (trimPast s).firstWaiting = some (n, i) →
      takeSpace (trimPast s).ringFree (roundUp 64 i.e.compLen) = some p →
      exec .ringAllocate s = .next (refreshSpace ((trimPast s).updItem n i.e.ix (fun x => { x with place := some p })))) ∧
    (∀ id owner, id < 256 → s.passes pgIng owner = true → s.onI F.Ing.CACHE_ENTRY_VALID pgIng id = true →
      ∃ t, exec (.cacheEvict id owner) s = .next t ∧ t.onI F.Ing.EVICT_PENDING pgIng id = true ∧
        s.OnlyRegs t [F.Ing.EVICT_PENDING.key pgIng id]) ∧
    ∀ id, s.onI F.Ing.EVICT_PENDING pgIng id = true → s.cacheInUse id = false → s.active pgIng = true →
      ∃ t, exec (.evictComplete id) s = .next t ∧ t.onI F.Ing.CACHE_ENTRY_VALID pgIng id = false ∧
        t.onI F.Ing.EVICT_PENDING pgIng id = false ∧ t.ing = { s.ing with cache := tdel s.ing.cache id } ∧
        t = { s with regs := t.regs, ing := t.ing } ∧
        s.RegsBut t [F.Ing.CACHE_ENTRY_VALID.key pgIng id, F.Ing.COMPLETE.key pgIng id, F.Ing.EVICT_PENDING.key pgIng id,
          F.Ing.BAD_ITEMS.key pgIng id, F.Ing.SIZE.key pgIng id, F.Ing.RING_FREE.key pgIng 0, F.Ing.CACHE_FREE.key pgIng 0]

/-- START of a slot whose job does not run begins it with FAIL_REASON, OUT_BYTES and IN_BYTES 0, or fails it with reason
6 where its configuration is refused; ABORT ends a running job as failed with reason 5; at its end a job is done,
with IN_BYTES and RESULT_CRC of its source and JOB_DONE_COUNT advanced; a full destination fails it with reason 1
and a source fault with its own reason, each with its event (R161 to R166, R169, R170). -/
def Obligations.JobCommands : Prop :=
  ∀ (s : State) (k : Nat), k < 4 →
    (∀ owner, s.passes pgJob owner = true → s.jobState k ≠ 1 → s.jobInvalid k = false →
      ∃ t, exec (.jobStart k owner) s = .next t ∧ t.jobState k = 1 ∧ t.getI F.Job.FAIL_REASON pgJob k = 0 ∧
        t.getI F.Job.OUT_BYTES pgJob k = 0 ∧ t.getI F.Job.IN_BYTES pgJob k = 0 ∧
        s.OnlyRegs t [F.Job.JOB_STATUS_STATE.key pgJob k, F.Job.FAIL_REASON.key pgJob k, F.Job.OUT_BYTES.key pgJob k,
          F.Job.IN_BYTES.key pgJob k, F.Job.LEVEL_USED.key pgJob k]) ∧
    (∀ owner, s.passes pgJob owner = true → s.jobState k ≠ 1 → s.jobInvalid k = true →
      ∃ t, exec (.jobStart k owner) s = .next t ∧ t.jobState k = 3 ∧ t.getI F.Job.FAIL_REASON pgJob k = 6 ∧
        bitAt (t.get F.Hdr.EVENT_STATUS pgJob) Ev.codecJobFailed.bit = true ∧
        s.OnlyEvents t pgJob [F.Job.JOB_STATUS_STATE.key pgJob k, F.Job.FAIL_REASON.key pgJob k, F.Job.OUT_BYTES.key pgJob k,
          F.Job.IN_BYTES.key pgJob k]) ∧
    (∀ owner, s.passes pgJob owner = true → s.jobState k = 1 →
      exec (.jobStart k owner) s = .next s ∧
      ∃ t, exec (.jobAbort k owner) s = .next t ∧ t.jobState k = 3 ∧ t.getI F.Job.FAIL_REASON pgJob k = 5 ∧
        bitAt (t.get F.Hdr.EVENT_STATUS pgJob) Ev.codecJobFailed.bit = true ∧
        ({ s with freeIx := s.freeIx + 2 } : State).OnlyEvents t pgJob [F.Job.JOB_STATUS_STATE.key pgJob k,
          F.Job.FAIL_REASON.key pgJob k, F.Job.OUT_BYTES.key pgJob k, F.Job.IN_BYTES.key pgJob k]) ∧
    (∀ owner, s.passes pgJob owner = true → s.jobState k ≠ 1 → exec (.jobAbort k owner) s = .next s) ∧
    (s.jobRuns k = true → s.jobPoisoned k = false → s.sourceFault k = 0 → s.jobOverflows k = false →
      ∃ t, exec (.jobDone k) s = .next t ∧ t.jobState k = 2 ∧ t.getI F.Job.IN_BYTES pgJob k = low 32 (s.jobLen k) ∧
        t.getI F.Job.RESULT_CRC pgJob k = low 32 (crc32 (s.jobData k)) ∧
        ((s.jobStream k).length ≤ s.jobLimit k → t.getI F.Job.OUT_BYTES pgJob k = low 32 (s.jobStream k).length) ∧
        bitAt (t.get F.Hdr.EVENT_STATUS pgJob) Ev.codecJobDone.bit = true) ∧
    (s.jobRuns k = true → s.jobPoisoned k = false → s.sourceFault k = 0 → s.jobOverflows k = true →
      ∃ t, exec (.outFull k) s = .next t ∧ t.jobState k = 3 ∧ t.getI F.Job.FAIL_REASON pgJob k = 1 ∧
        bitAt (t.get F.Hdr.EVENT_STATUS pgJob) Ev.codecOutFull.bit = true) ∧
    ∀ poisoned, s.jobRuns k = true → (poisoned = true ∨ s.jobPoisoned k = true ∨ s.sourceFault k ≠ 0) →
      ∃ t, exec (.jobSourceFault k poisoned) s = .next t ∧ t.jobState k = 3 ∧
        t.getI F.Job.FAIL_REASON pgJob k = low 8 (if poisoned = true ∨ s.jobPoisoned k = true then 2 else s.sourceFault k) ∧
        bitAt (t.get F.Hdr.EVENT_STATUS pgJob) Ev.codecJobFailed.bit = true ∧
        ({ jobRead k s with freeIx := (jobRead k s).freeIx + 2 } : State).OnlyEvents t pgJob [F.Job.JOB_STATUS_STATE.key pgJob k,
          F.Job.FAIL_REASON.key pgJob k, F.Job.OUT_BYTES.key pgJob k, F.Job.IN_BYTES.key pgJob k]

/-- At its need point a strip that is neither skipped nor missing becomes in hand and nothing else changes; a missing
one raises INGEST.STRIP_MISSING; a tile that is not missing becomes in hand. A dispatch makes the free engine, or
the copy path, work on the slice that goes next; the end of its slice leaves the engine free (R150, R157, R158,
R159, R187). -/
def Obligations.InflateSteps : Prop :=
  ∀ s : State,
    (∀ p < 48, ∀ n i, s.needItem p 0 = some (n, i) →
      (s.skips n i.e = true → ∃ t, exec (.needPoint p 0) s = .next t ∧
        t.get F.Glz.ITEMS_SKIPPED (pgGlz (regionOf i.e.port)) = low 32 (min (s.get F.Glz.ITEMS_SKIPPED (pgGlz (regionOf i.e.port)) + 1) 4294967295)) ∧
      (s.skips n i.e = false → s.missCause n i = 0 →
        exec (.needPoint p 0) s = .next (s.updItem n i.e.ix (fun x => { x with st := 1 }))) ∧
      (s.skips n i.e = false → s.missCause n i ≠ 0 →
        ∃ t, exec (.needPoint p 0) s = .next t ∧
          bitAt (t.get F.Hdr.EVENT_STATUS (pgInfl (regionOf i.e.port))) Ev.ingestStripMissing.bit = true)) ∧
    (∀ p < 48, ∀ l < 4, l ≠ 0 → ∀ n i, s.needItem p l = some (n, i) →
      (s.tileCause n i = 0 → exec (.needPoint p l) s = .next (s.updItem n i.e.ix (fun x => { x with st := 1 }))) ∧
      (s.tileCause n i ≠ 0 → ∃ t, exec (.needPoint p l) s = .next t ∧
          bitAt (t.get F.Hdr.EVENT_STATUS (pgGlz (regionOf i.e.port))) Ev.glazeTileMissing.bit = true)) ∧
    (∀ r < 4, ∀ k ≤ 8, ∀ poison, (s.engineOf r k).cur = none → (k ≠ 8 → bitAt (s.get F.Infl.ENGINE_EN (pgInfl r)) k = true) →
      (∀ n i, s.nextSlice r k = some (n, i) →
        ∃ t, exec (.sliceDispatch r k poison) s = .next t ∧ (t.engineOf r k).cur = some (n, i.e.ix) ∧
          ∀ j ≠ k, t.engineOf r j = s.engineOf r j) ∧
      (s.nextSlice r k = none → exec (.sliceDispatch r k poison) s = .next s)) ∧
    ∀ r < 4, ∀ k ≤ 8, ∀ x, (s.engineOf r k).cur = some x →
      ∃ t, exec (.sliceEnd r k) s = .next t ∧ (t.engineOf r k).cur = none ∧ (t.engineOf r k).bound = false ∧
        ∀ j ≠ k, t.engineOf r j = s.engineOf r j

/-- A region begins a folio for the first of its ports that may begin one; the line that may be composed next is
appended to the composed lines of its port, all zeros while a function reset lasts; the next composed line of the
port chosen is taken off and screened into its port; the first list that is held, verified and not decoded is
decoded (R142, R189, R193, R220, Table 2-4). -/
def Obligations.RegionSteps : Prop :=
  ∀ (s : State) (r : Nat), r < 4 →
    (∀ n, s.folioToBegin r = some n → s.groupWorks r n = true → s.heldAt (pgGlz r) n = false →
      ∃ t, exec (.regionFolioStart r) s = .next t ∧ (t.regnOf r).begun = some n) ∧
    (s.folioToBegin r = none → exec (.regionFolioStart r) s = .next s) ∧
    (∀ p n y, leastPort ((portsOf r).filter (fun p => (s.composable p).isSome)) (fun p => s.linesAhead p + (s.portOf p).composed.length) = some p →
      regionOf p = r → s.composable p = some (n, y) →
      ∃ t, exec (.lineCompose r) s = .next t ∧
        (t.portOf p).composed = (s.portOf p).composed ++ [(n, y, if s.zeroed r n then List.replicate 4096 0 else s.composeLine p n y)] ∧
        (t.portOf p).compose = s.nextLine p (n, y) ∧ ∀ q ≠ p, t.portOf q = s.portOf q) ∧
    (∀ p n y px rest, leastPort ((portsOf r).filter s.screenable) s.screenedAhead = some p → regionOf p = r →
      (s.portOf p).composed = (n, y, px) :: rest → (s.regnOf r).badTab = [] → ∀ bufErr,
      ∃ u : State, (u.portOf p).composed = rest ∧ (∀ q ≠ p, u.portOf q = s.portOf q) ∧
        u = { s with port := u.port, regs := u.regs } ∧ s.RegsBut u [F.Scr.SCREENED_LINES.key (pgScr r) 0] ∧
        exec (.lineScreen r (none, bufErr)) s = .next (lineComplete p (n, y) (if s.zeroed r n then List.replicate 4096 0
          else (⟨s.asOf r n, r, p % 12, y, []⟩ : ScreenIn).line px) bufErr u)) ∧
    (∀ n i poison, s.pathOn (pgInfl r) = true → s.listReady r = some (n, i) →
      ∃ t l, exec (.rectListDecode r poison) s = .next t ∧ (t.regnOf r).decoded = (s.regnOf r).decoded ++ [l] ∧ l.folio = n ∧
        l.ix = i.e.ix)

/-- A write that passes to a word of the threshold window, on the even page of a die, stores it in the slot that
THR_WINDOW selects where no running region of the die uses that slot, and to SLOT_DIM sets the slot height and
width; where a region uses the slot it changes no threshold and raises SCREEN.SLOT_IN_USE (R213, R214). -/
def Obligations.ThresholdStore : Prop :=
  ∀ (s : State) (pg owner : Nat), pg = 0x06C ∨ pg = 0x06E → s.passes pg owner = true →
    (∀ off v, 0x100000 ≤ off → off < 0x200000 → off % 4 = 0 → v < 2 ^ 32 →
      (s.slotUser ((pg - 0x06C) / 2) (s.get F.Scr.THR_WINDOW_SLOT pg) = none →
        ∃ t, exec (.thresholdWrite pg true off v owner) s = .next t ∧
          t.aptw = (s.setApt (thrPage ((pg - 0x06C) / 2) (s.get F.Scr.THR_WINDOW_SLOT pg)) (off - 0x100000) (v &&& winMask pg off)).aptw ∧
          t = { s with aptw := t.aptw, regn := t.regn }) ∧
      (∀ q, s.slotUser ((pg - 0x06C) / 2) (s.get F.Scr.THR_WINDOW_SLOT pg) = some q →
        ∃ t, exec (.thresholdWrite pg true off v owner) s = .next t ∧ t.aptw = s.aptw ∧
          bitAt (t.get F.Hdr.EVENT_STATUS pg) Ev.screenSlotInUse.bit = true ∧ s.OnlyEvents t pg [])) ∧
    ∀ k < 8, ∀ v < 2 ^ 32, s.slotUser ((pg - 0x06C) / 2) k = none →
      ∃ t, exec (.thresholdWrite pg false (0x140 + 4 * k) v owner) s = .next t ∧
        t.getI F.Scr.WIDTH_M1 pg k = low 8 v ∧ t.getI F.Scr.HEIGHT_M1 pg k = low 8 (v / 256) ∧
        s.OnlyRegs t [F.Scr.HEIGHT_M1.key pg k, F.Scr.WIDTH_M1.key pg k]

/-- A ball is sampled; with a glitch filter nothing else happens in the command. Without one, on a running channel, a
decoded transition or code moves the hub count by its signed change with DIR_INVERT and is remembered as the
reference; an illegal transition moves nothing, counts and raises POS.QUAD_ILLEGAL; a skipped code raises
POS.SWITCH_SKIP. The first index at the hub stores the count as its reference and in INDEX_POS. An observer tick
takes the hub replica one step of its filter. Dividers and ports then follow the count (R225, R227, R230 to R233,
R237, R239, R240). -/
def Obligations.PositionEdges : Prop :=
  ∀ (s : State) (ch reps ph : Nat), ch < 4 → s.chOn ch = true →
    (s.unfiltered ch = false → (∀ ab, exec (.quadTransition ch reps ab ph) s = .next (sampleBalls ch reps 0 2 ab ph s)) ∧
      (∀ code, exec (.switchCodeChange ch reps code ph) s = .next (sampleBalls ch reps 4 3 code ph s)) ∧
      ∀ z, exec (.indexEvent ch reps (z, none) ph) s = .next (sampleBalls ch reps 2 1 (bit z) ph s)) ∧
    (∀ ab d, s.unfiltered ch = true → bitAt reps 0 = true → s.chMode ch 0 = true →
      d = s.dirInv ch (quadChange (s.get F.Pos.DECODE (pgPos ch)) (s.posOf ch).hub.ab (low 2 ab)) →
      quadTurn (s.posOf ch).hub.ab (low 2 ab) ≠ 2 →
      ∃ u : State, (u.posOf ch).hub.count = (if d = 0 then (s.posOf ch).hub.count else addCount (s.posOf ch).hub.count d) ∧
        (u.posOf ch).hub.ab = low 2 ab ∧ exec (.quadTransition ch reps ab ph) s = .next (afterEdge ch (s.edgeAt ch ph) d (sampleBalls ch reps 0 2 ab ph s) u)) ∧
    (∀ ab, s.unfiltered ch = true → bitAt reps 0 = true → s.chMode ch 0 = true → quadTurn (s.posOf ch).hub.ab (low 2 ab) = 2 →
      ∃ u : State, (u.posOf ch).hub.count = (s.posOf ch).hub.count ∧ (u.posOf ch).hub.ab = low 2 ab ∧
        bitAt (u.get F.Hdr.EVENT_STATUS (pgPos ch)) Ev.posQuadIllegal.bit = true ∧
        exec (.quadTransition ch reps ab ph) s = .next (afterEdge ch (s.edgeAt ch ph) 0 (sampleBalls ch reps 0 2 ab ph s) u)) ∧
    (∀ code d, s.unfiltered ch = true → bitAt reps 0 = true → s.chMode ch 1 = true → (switchPlace (low 3 code)).isSome = true →
      d = s.dirInv ch (switchChange (s.posOf ch).hub.code (low 3 code)) →
      ∃ u : State, (u.posOf ch).hub.count = (if d = 0 then (s.posOf ch).hub.count else addCount (s.posOf ch).hub.count d) ∧
        (u.posOf ch).hub.code = low 3 code ∧
        (2 ≤ switchTurn (s.posOf ch).hub.code (low 3 code) → switchTurn (s.posOf ch).hub.code (low 3 code) ≤ 4 →
          bitAt (u.get F.Hdr.EVENT_STATUS (pgPos ch)) Ev.posSwitchSkip.bit = true) ∧
        exec (.switchCodeChange ch reps code ph) s = .next (afterEdge ch (s.edgeAt ch ph) d (sampleBalls ch reps 4 3 code ph s) u)) ∧
    (∀ z, s.unfiltered ch = true → s.chMode ch 0 = true → z ≠ (s.posOf ch).hub.z → z ≠ s.on F.Pos.Z_POL (pgPos ch) →
      s.get F.Pos.INDEX_POLICY (pgPos ch) ≠ 2 →
      indexGate (s.get F.Pos.INDEX_GATE (pgPos ch)) (s.posOf ch).hub.ab = true → (s.posOf ch).hub.ref = none →
      ∃ t, exec (.indexEvent ch 1 (z, none) ph) s = .next t ∧ (t.posOf ch).hub.ref = some (s.posOf ch).hub.count ∧
        (t.posOf ch).hub.count = (s.posOf ch).hub.count ∧ (t.posOf ch).hub.z = z ∧
        t.get F.Pos.INDEX_POS_LO (pgPos ch) = low 32 (s.posOf ch).hub.count ∧
        t.get F.Pos.INDEX_POS_HI (pgPos ch) = low 16 ((s.posOf ch).hub.count / 2 ^ 32)) ∧
    (s.onTick = true →
      ∃ u : State, (u.posOf ch).hub = (Replica.tick (s.get F.Pos.OBS_BW (pgPos ch)) (s.get F.Pos.LOCK_TOL (pgPos ch))
          (s.get F.Pos.UNLOCK_TOL (pgPos ch)) s.now (s.posOf ch).hub).1 ∧
        exec (.observerTick ch) s = .next (memLatencyWake (portsTick ch u)))

/-- A due SSI frame begins; a good frame after an earlier one moves the hub count by its signed difference and becomes
the last value, a bad one changes no count, counts and raises POS.SSI_ERROR. PRESET of a stopped channel loads
POS_PRESET into every replica and restarts the observer; of a running one it raises REG.WRITE_WHILE_RUNNING. A 1
written to MISMATCH clears it. A read of COUNT_LO captures the count for its requester and the read of COUNT_HI
returns the captured upper bits (R14, R234 to R238, R243, R245, R256). -/
def Obligations.SsiPresetAndCapture : Prop :=
  ∀ (s : State) (ch : Nat), ch < 4 →
    (s.chOn ch = true → s.chMode ch 2 = true → (s.posOf ch).frame = none →
      (∀ t, (s.posOf ch).lastStart = some t → t + s.get F.Pos.PERIOD (pgPos ch) * 1000 ≤ s.now ∧ (s.posOf ch).gapEnd ≤ s.now) →
      ∃ t, exec (.ssiFrameStart ch) s = .next t ∧ (t.posOf ch).frame = some s.now ∧ (t.posOf ch).lastStart = some s.now ∧
        (t.posOf ch).hub = (s.posOf ch).hub ∧ t = { s with pos := t.pos }) ∧
    (∀ reps raw par dh gh t0 v, (s.posOf ch).frame = some t0 → s.ssiOver ch t0 = true → bitAt reps 0 = true →
      v = (if s.on F.Pos.GRAY (pgPos ch) then grayDecode 5 (low (s.get F.Pos.BITS_M1 (pgPos ch) + 1) raw)
        else low (s.get F.Pos.BITS_M1 (pgPos ch) + 1) raw) →
      (s.ssiReason ch (s.posOf ch).hub v (low (s.get F.Pos.BITS_M1 (pgPos ch) + 1) raw) (low 1 par) dh gh = 0 →
        ∃ t, exec (.ssiFrameEnd ch reps raw par dh gh) s = .next t ∧ (t.posOf ch).frame = none ∧ (t.posOf ch).hub.ssi = some v ∧
          (∀ w, (s.posOf ch).hub.ssi = some w → (t.posOf ch).hub.count = addCount (s.posOf ch).hub.count
            (s.dirInv ch (sext (s.get F.Pos.BITS_M1 (pgPos ch) + 1) (v + 2 ^ (s.get F.Pos.BITS_M1 (pgPos ch) + 1) - w)))) ∧
          ((s.posOf ch).hub.ssi = none → (t.posOf ch).hub.count = v)) ∧
      (s.ssiReason ch (s.posOf ch).hub v (low (s.get F.Pos.BITS_M1 (pgPos ch) + 1) raw) (low 1 par) dh gh ≠ 0 →
        ∃ t, exec (.ssiFrameEnd ch reps raw par dh gh) s = .next t ∧ (t.posOf ch).frame = none ∧
          (t.posOf ch).hub = (s.posOf ch).hub ∧ bitAt (t.get F.Hdr.EVENT_STATUS (pgPos ch)) Ev.posSsiError.bit = true)) ∧
    (∀ owner, s.passes (pgPos ch) owner = true → s.stopped (pgPos ch) = true →
      ∃ t v, exec (.chPreset ch owner) s = .next t ∧ v = s.get2 F.Pos.POS_PRESET_LO F.Pos.POS_PRESET_HI (pgPos ch) 0 ∧
        (∀ die, t.countNow ch die = v ∧ ((t.posOf ch).rep die).x = v ∧ ((t.posOf ch).rep die).v = 0 ∧
          ((t.posOf ch).rep die).a = 0 ∧ ((t.posOf ch).rep die).locked = false) ∧
        t = { s with pos := t.pos, regs := t.regs } ∧ s.RegsBut t [F.Pos.SPEED.key (pgPos ch) 0, F.Pos.ACCEL.key (pgPos ch) 0]) ∧
    (∀ owner, s.passes (pgPos ch) owner = true → s.stopped (pgPos ch) = false →
      ∃ t, exec (.chPreset ch owner) s = .next t ∧ bitAt (t.get F.Hdr.EVENT_STATUS (pgPos ch)) Ev.regWriteWhileRunning.bit = true ∧
        s.OnlyEvents t (pgPos ch) []) ∧
    (∀ owner, s.passes (pgPos ch) owner = true → (s.posOf ch).misAt ≠ some s.now →
      ∃ t, exec (.replicaMismatchClear ch owner) s = .next t ∧ t.on F.Pos.MISMATCH (pgPos ch) = false ∧
        s.OnlyRegs t [F.Pos.MISMATCH.key (pgPos ch) 0]) ∧
    ∀ owner, s.silent = false →
      ∃ t u, exec (.countCapture ch 0x60 owner) s = .next t ∧ t.resp = .data (low 32 (s.posOf ch).hub.count) ∧
        t = { s with pos := t.pos, resp := t.resp } ∧
        exec (.countCapture ch 0x64 owner) t = .next u ∧ u.resp = .data ((s.posOf ch).hub.count / 2 ^ 32)

/-- SYNC stores PHASE and loads the accumulator with PHASE, at most N_IN_M1, and the backlog with 0. Arming one unit
whose target lies ahead arms it; a target already reached counts late and raises POS.COMPARE_LATE, and with
LATE_POLICY 1 the unit acts at once as if it matched. Disarming clears the bits of the mask; a unit whose match
falls in the same cycle matches first. A match of a unit without SYNC and PERIOD counts, raises POS.COMPARE_MATCH
where enabled and disarms the unit (R248 to R254). -/
def Obligations.DividersAndCompare : Prop :=
  ∀ s : State,
    (∀ d < 4, ∀ phase owner, s.passes pgDiv owner = true →
      ∃ t, exec (.divSync d phase owner) s = .next t ∧ t.getI F.Div.PHASE pgDiv d = low 16 phase ∧
        t.getI F.Div.ACC pgDiv d = low 16 (min (low 16 phase) (s.getI F.Div.N_IN_M1 pgDiv d)) ∧ t.getI F.Div.BACKLOG pgDiv d = 0 ∧
        t = { s with regs := t.regs, div := t.div } ∧ s.RegsBut t [F.Div.PHASE.key pgDiv d, F.Div.ACC.key pgDiv d, F.Div.BACKLOG.key pgDiv d]) ∧
    (∀ u < 32, ∀ owner rev, s.passes pgCmp owner = true → s.on F.Hdr.ENABLE pgCmp = true → s.cmpArmed u = false →
      rev = (if s.getI F.Cmp.DIR pgCmp u = 0 then false else if s.getI F.Cmp.DIR pgCmp u = 1 then true
        else s.on F.Pos.DIRECTION (pgPos (s.getI F.Cmp.CHANNEL pgCmp u))) →
      (0 < distance rev (s.cmpTarget u) (s.cmpPos u) →
        ∃ t, exec (.cmpArm (2 ^ u) owner) s = .next t ∧ t.cmpArmed u = true ∧ (tget t.cmp u {}).rev = rev ∧
          t = { s with regs := t.regs, cmp := t.cmp } ∧ s.RegsBut t [F.Cmp.CMP_ARMED.key pgCmp 0]) ∧
      (distance rev (s.cmpTarget u) (s.cmpPos u) ≤ 0 →
        ∃ t, exec (.cmpArm (2 ^ u) owner) s = .next (if s.onI F.Cmp.LATE_POLICY pgCmp u = true then cmpMatch u t else t) ∧
          t.cmpArmed u = false ∧ bitAt (t.get F.Hdr.EVENT_STATUS pgCmp) Ev.posCompareLate.bit = true)) ∧
    (∀ u < 32, ∀ owner, s.passes pgCmp owner = true → s.cmpArmed u = true → s.cmpDue u = true →
      ∃ c, exec (.cmpDisarm (2 ^ u) owner) s = .next { (cmpMatch u s).setArmed u false with cmp := c }) ∧
    (∀ mask owner, s.passes pgCmp owner = true → (∀ u < 32, bitAt mask u = true → s.cmpDue u = false) →
      ∃ t, exec (.cmpDisarm mask owner) s = .next t ∧ (∀ u < 32, t.cmpArmed u = (s.cmpArmed u && !bitAt mask u)) ∧
        t = { s with regs := t.regs, cmp := t.cmp } ∧ s.RegsBut t [F.Cmp.CMP_ARMED.key pgCmp 0]) ∧
    ∀ u < 32, s.cmpArmed u = true → s.cmpDue u = true → s.onI F.Cmp.SYNC_EN pgCmp u = false →
      s.getI F.Cmp.CMP_PERIOD pgCmp u = 0 →
      ∃ t, exec (.compareMatch u) s = .next t ∧ t.cmpArmed u = false ∧
        t.get F.Cmp.CMP_MATCH_COUNT pgCmp = low 32 (s.get F.Cmp.CMP_MATCH_COUNT pgCmp + 1) ∧
        (s.onI F.Cmp.EVENT_EN pgCmp u = true → bitAt (t.get F.Hdr.EVENT_STATUS pgCmp) Ev.posCompareMatch.bit = true)

/-- A FILLING port whose first LANE_AHEAD lines are wholly sent becomes ARMED. At the phase-0 instant of its next due
line a port that times lines takes the line out of its buffer, shows FOLIO_NOW and LINE_NOW, leaves ARMED for
RUNNING and places its strobes; a line that was delayed raises FIRE.OVERSPEED. A poisoned replay read makes the line
bad and raises FIRE.REPLAY_ERROR. In TICKLE one strobe is placed every TICKLE_PERIOD (R265, R266, R271, R273, R290,
R291). -/
def Obligations.PortFiring : Prop :=
  ∀ (s : State) (p : Nat), p < 48 →
    (s.printMode = true → s.runState p = 2 → ((s.portOf p).slots.take (s.pget F.Port.LANE_AHEAD p)).length = s.pget F.Port.LANE_AHEAD p →
      ((s.portOf p).slots.take (s.pget F.Port.LANE_AHEAD p)).all (·.done) = true → (s.portOf p).src ≠ 0 →
      ∃ t, exec (.portArmed p) s = .next t ∧ t.runState p = 3 ∧ (t.portOf p).started = false ∧
        (∀ q ≠ p, t.portOf q = s.portOf q) ∧ t = { s with regs := t.regs, port := t.port } ∧
        s.RegsBut t [F.Port.RUN_STATUS_STATE.key (pgPort p) 0, F.Port.URGENT.key (pgPort p) 0]) ∧
    (∀ q rest d ds f bufErr ptErr corr, (s.portOf p).slots = q :: rest → (s.portOf p).due = d :: ds →
      f = (match (s.portOf p).lastF with
        | some t => max d (t + 16 * s.pget F.Port.MIN_PERIOD p)
        | none => d) → s.printMode = true → s.timing p = true → f / 16 ≤ s.now →
      (∀ l, s.overrun p = some l → exec (.lineFire p (bufErr, corr) ptErr) s = .next (backlogFault p l s)) ∧ (s.overrun p = none →
      ∃ u : State, u.pget F.Port.FOLIO_NOW p = low 32 q.folio ∧ u.pget F.Port.LINE_NOW p = low 24 q.line ∧
        (s.runState p = 3 → u.runState p = 4) ∧ (u.portOf p).slots = rest ∧ (u.portOf p).due = ds ∧ (u.portOf p).lastF = some f ∧
        (u.portOf p).fired = some q.at_ ∧
        (u.portOf p).strobes = ((((s.portOf p).runs.find? (fun r => r.n == q.folio)).map (·.phases)).getD [0]).map
          (fun k => strobeAt (f + k) (s.pget F.Port.STROBE_WIDTH p) (s.trims (dieOf p))) ∧
        (d < f → bitAt (u.get F.Hdr.EVENT_STATUS (pgPort p)) Ev.fireOverspeed.bit = true) ∧ (∀ k ≠ p, u.portOf k = s.portOf k) ∧
        ∃ v tg dw fl j lv, v = urgency p (sendPoint p bufErr (topUp 16 p (holdCheck p ((proofLine p q.folio tg dw fl j lv u).satI F.Clu.LB_CORRECTED (pgClu (p / 4)) 0 corr)))) ∧
          exec (.lineFire p (bufErr, corr) ptErr) s = .next (trimPast (if ptErr then phaseError p v else v)))) ∧
    (∀ line q, (s.portOf p).slots.find? (fun q => q.line == line && !q.sent && q.data.isSome && s.replays p q.folio) = some q →
      ∃ u : State, bitAt (u.get F.Hdr.EVENT_STATUS (pgPort p)) Ev.fireReplayError.bit = true ∧ (u.portOf p).recClean = false ∧
        (∀ y ∈ (u.portOf p).slots, y.seq = q.seq → y.data = none ∧ y.bad = true) ∧
        exec (.replayError p line) s = .next (urgency p (fillSend 16 p false u))) ∧
    (s.tickles p = true → s.runState p = 1 → (s.portOf p).leaving = false → s.throttled p = false → (s.laneOf p).selects.contains true = false →
      ((s.laneOf p).cur.any (fun m => m.type == 3)) = false →
      (s.portOf p).tickled + 16 * max (s.pget F.Port.TICKLE_PERIOD p) (s.pget F.Port.MIN_PERIOD p) ≤ 16 * s.now →
      ∃ t, exec (.tickleStrobe p) s = .next t ∧ (t.portOf p).tickled = 16 * s.now ∧
        (t.portOf p).strobes = [strobeAt (16 * s.now) (s.pget F.Port.STROBE_WIDTH p) (s.trims (dieOf p))] ∧
        (∀ q ≠ p, t.portOf q = s.portOf q) ∧ t = { s with port := t.port })

/-- A transmitting lane that is between messages starts the first WAVE_SELECT whose table is selectable and shows it in
SELECTED_TABLE; with none it takes a LINE, then BRIDGE_CONFIG, then a WAVE_LOAD. The end of a LINE marks its slot
done, that of BRIDGE_CONFIG clears BCFG_PENDING, that of the final WAVE_LOAD starts the 1 ms wait. WAVE_DL_GO that
passes downloads: it holds the CRC-32 of the bytes in WAVE_DL_CRC and queues the WAVE_LOADs, or raises
LANE.WAVE_DL_REFUSED, or fails at a poisoned byte. Without a matching STATUS for 1 ms it fails: WAVE_BAD of the
table is set and LANE.WAVE_LOAD_FAIL raised. BCFG_SEND queues the words and sets BCFG_PENDING, and is ignored while
it is 1 (R309, R311, R313 to R316, R323). -/
def Obligations.LaneMessages : Prop :=
  ∀ (s : State) (p : Nat), p < 48 →
    (s.transmits p = true → (s.laneOf p).cur = none →
      (∀ b rest, firstSelect s p (s.laneOf p).selects = some (b, rest) →
        ∃ t, exec (.laneMessageStart p) s = .next t ∧ t.laneGet F.Lane.SELECTED_TABLE p = low 4 (s.selectTable p b) ∧
          t.laneOf p = { s.laneOf p with
            cur := some (selectMsg (s.selectTable p b) (if b then 0xFF else s.headBand p) b), selects := rest, selected := some (s.selectTable p b)
            tx := { (s.laneOf p).tx with left := (s.laneOf p).tx.left ++ [(selectMsg (s.selectTable p b) (if b then 0xFF else s.headBand p) b).bytes] } } ∧
          (∀ q ≠ p, t.laneOf q = s.laneOf q) ∧ t = { s with regs := t.regs, lane := t.lane } ∧
          s.RegsBut t [F.Lane.SELECTED_TABLE.key (pgLane (p / 4)) (p % 4)]) ∧
      (firstSelect s p (s.laneOf p).selects = none →
        ∃ t, exec (.laneMessageStart p) s = .next t ∧ (∀ q ≠ p, t.laneOf q = s.laneOf q) ∧ t = { s with lane := t.lane } ∧
          (∀ m rest, (s.laneOf p).lines = m :: rest → t.laneOf p = { s.laneOf p with cur := some m, lines := rest, tx := { (s.laneOf p).tx with left := (s.laneOf p).tx.left ++ [m.bytes] } }) ∧
          ((s.laneOf p).lines = [] → ∀ m, (s.laneOf p).bcfg = some m → t.laneOf p = { s.laneOf p with cur := some m, bcfg := none, tx := { (s.laneOf p).tx with left := (s.laneOf p).tx.left ++ [m.bytes] } }) ∧
          ((s.laneOf p).lines = [] → (s.laneOf p).bcfg = none → ∀ m rest, (s.laneOf p).loads = m :: rest →
            t.laneOf p = { s.laneOf p with cur := some m, loads := rest, tx := { (s.laneOf p).tx with left := (s.laneOf p).tx.left ++ [m.bytes] } }))) ∧
    (∀ m, (s.laneOf p).cur = some m →
      ∃ t, exec (.messageWhollySent p) s = .next t ∧ (t.laneOf p).cur = none ∧ (∀ q ≠ p, t.laneOf q = s.laneOf q ∧ t.portOf q = s.portOf q) ∧
        (m.type = 1 → ∀ q ∈ (t.portOf p).slots, q.at_ = (m.folio, m.line) → q.done = true) ∧
        (m.type = 4 → t.laneGet F.Lane.BCFG_PENDING p = 0 ∧ t.port = s.port) ∧
        (m.type = 2 → m.flags = 1 → (t.laneOf p).dlSent = some s.now ∧ t.port = s.port ∧ t.regs = s.regs)) ∧
    (∀ table len poison owner u, s.passes (pgLane (p / 4)) owner = true →
      u = (s.laneSet F.Lane.LEN p (low 13 len)).laneSet F.Lane.TABLE p (low 4 table) →
      (u.downloadReason p (low 4 table) (low 13 len) ≠ 0 →
        ∃ t, exec (.waveDlGo p table len poison owner) s = .next t ∧ t.lane = s.lane ∧
          bitAt (t.get F.Hdr.EVENT_STATUS (pgLane (p / 4))) Ev.laneWaveDlRefused.bit = true) ∧
      (u.downloadReason p (low 4 table) (low 13 len) = 0 → ∀ a src bad,
        a = s.laneGet F.Lane.WAVE_DL_SRC_LO p + s.laneGet F.Lane.WAVE_DL_SRC_HI p * 2 ^ 32 →
        src = u.sysBytes a (low 13 len) →
        bad = (firstPoison poison (u.sysPoison a (low 13 len))).filter (fun k => decide (k < low 13 len)) →
        (bad = none → ∃ t, exec (.waveDlGo p table len poison owner) s = .next t ∧
          t.laneGet F.Lane.WAVE_DL_STATE p = 1 ∧ t.laneGet F.Lane.WAVE_DL_CRC p = low 32 (crc32 src) ∧
          t.laneOf p = { s.laneOf p with dlTable := low 4 table, dlSent := none, loads := loadMsgs (low 4 table) src true }) ∧
        (∀ k, bad = some k → ∃ t, exec (.waveDlGo p table len poison owner) s = .next t ∧
          t.laneGet F.Lane.WAVE_DL_STATE p = 3 ∧ bitAt (t.laneGet F.Lane.WAVE_BAD p) (low 4 table) = true ∧
          (t.laneOf p).loads = loadMsgs (low 4 table) (src.take (k / 56 * 56)) false ∧
          bitAt (t.get F.Hdr.EVENT_STATUS (pgLane (p / 4))) Ev.laneWaveLoadFail.bit = true))) ∧
    (∀ t0, (s.laneOf p).dlSent = some t0 → s.laneGet F.Lane.WAVE_DL_STATE p = 1 → t0 + 1000000 ≤ s.now → (s.laneOf p).dlTable < 16 →
      ∃ t, exec (.waveDlTimeout p) s = .next t ∧ t.laneGet F.Lane.WAVE_DL_STATE p = 3 ∧
        bitAt (t.laneGet F.Lane.WAVE_BAD p) (s.laneOf p).dlTable = true ∧ (t.laneOf p).dlSent = none ∧
        bitAt (t.get F.Hdr.EVENT_STATUS (pgLane (p / 4))) Ev.laneWaveLoadFail.bit = true) ∧
    ∀ owner, s.passes (pgLane (p / 4)) owner = true →
      (s.laneOn F.Lane.BCFG_PENDING p = true → exec (.bcfgSend p owner) s = .next s) ∧
      (s.laneOn F.Lane.BCFG_PENDING p = false → ∃ t, exec (.bcfgSend p owner) s = .next t ∧ t.laneGet F.Lane.BCFG_PENDING p = 1 ∧
        t.laneOf p = { s.laneOf p with bcfg := some (bcfgMsg (s.laneGet F.Lane.BCFG_CTRL_ADDR p)
          ((List.range (s.laneGet F.Lane.WORDS_M1 p + 1)).map (fun k => s.laneGet (bcfgWord k) p))) } ∧
        (∀ q ≠ p, t.laneOf q = s.laneOf q) ∧ t = { s with regs := t.regs, lane := t.lane } ∧
        s.RegsBut t [F.Lane.BCFG_PENDING.key (pgLane (p / 4)) (p % 4)])

/-- The lock of the lane PLL sets PLL_LOCKED; its loss clears it, stops the lanes of the cluster and faults its ports. A
STATUS at a locked receiver shows ACTIVE_TABLE, CFG_COUNT, IN_STEP, LINE_MISSING and BRIDGE_ALIVE, raises
LANE.BRIDGE_FAULT and LANE.LEASE_CONFLICT where their bits rise, and ends a download that waits: done where table
and CRC match, failed where the CRC differs. A TEMP shows the sensors and clears TEMP_STALE. No STATUS for 1 ms, no
TEMP for 10 ms: each its bit and its event. A block while the receiver searches only moves its search; a block with
an error counts and raises LANE.RX_BLOCK_ERROR; a good block counts and its messages act; the fourth miss in a row
loses lock. In test mode the receiver checks the sequence; a receiver looped to its own transmitter sees nothing of
its balls (R306, R313, R316 to R320). -/
def Obligations.LaneReturns : Prop :=
  ∀ s : State,
    (∀ c < 12, s.get F.Mode.MODE pgMode ≠ 0 → s.mode.porst = false →
      ∃ t, exec (.lanePllLock c) s = .next t ∧ t.on F.Clu.PLL_LOCKED (pgClu c) = true ∧ s.OnlyRegs t [F.Clu.PLL_LOCKED.key (pgClu c) 0]) ∧
    (∀ c < 12, s.on F.Clu.PLL_LOCKED (pgClu c) = true →
      ∃ u, exec (.lanePllLockLoss c) s = .next (clusterFault c 1
          (forAll (((List.range 4).map (4 * c + ·)).filter s.transmits) u laneStop)) ∧
        u.on F.Clu.PLL_LOCKED (pgClu c) = false ∧ s.OnlyRegs u [F.Clu.PLL_LOCKED.key (pgClu c) 0]) ∧
    ∀ p < 48,
      (∀ body m, s.rxOn p = true → s.rxLocked p = true → s.looped p = false → body.length = 16 → m = (⟨0x41, 0, body, 0, 0⟩ : Msg) →
        ∃ t, exec (.statusReceived p body) s = .next t ∧ t.laneGet F.Lane.ACTIVE_TABLE p = low 4 (m.le 3 1) ∧
          t.laneGet F.Lane.CFG_COUNT p = low 8 (m.le 10 1) ∧ t.laneGet F.Lane.IN_STEP p = low 1 (m.le 2 1 / 8) ∧
          t.laneGet F.Lane.BRIDGE_LINE_MISSING p = low 16 (m.le 8 2) ∧ t.laneGet F.Lane.LANE_STATUS_BRIDGE_ALIVE p = 1 ∧
          (t.laneOf p).lastStatus = some s.now ∧ (t.laneOf p).fault = bitAt (m.le 2 1) 4 ∧
          ((s.laneOf p).dlSent.isSome = true → s.laneGet F.Lane.WAVE_DL_STATE p = 1 → m.le 3 1 / 16 = (s.laneOf p).dlTable →
            (s.laneOf p).dlTable < 16 →
            (m.le 4 4 = s.laneGet F.Lane.WAVE_DL_CRC p → t.laneGet F.Lane.WAVE_DL_STATE p = 2 ∧
              bitAt (t.laneGet F.Lane.WAVE_BAD p) (s.laneOf p).dlTable = false ∧ (t.laneOf p).dlSent = none) ∧
            (m.le 4 4 ≠ s.laneGet F.Lane.WAVE_DL_CRC p → t.laneGet F.Lane.WAVE_DL_STATE p = 3 ∧
              bitAt (t.laneGet F.Lane.WAVE_BAD p) (s.laneOf p).dlTable = true ∧
              bitAt (t.get F.Hdr.EVENT_STATUS (pgLane (p / 4))) Ev.laneWaveLoadFail.bit = true))) ∧
      (∀ body m, s.rxOn p = true → s.rxLocked p = true → s.looped p = false → body.length = 8 → m = (⟨0x42, 0, body, 0, 0⟩ : Msg) →
        ∃ t, exec (.tempReceived p body) s = .next t ∧ t.laneGet F.Lane.SENSOR_0 p = low 16 (m.le 0 2) ∧
          t.laneGet F.Lane.SENSOR_1 p = low 16 (m.le 2 2) ∧ t.laneGet F.Lane.TEMP_STALE p = 0 ∧
          t.laneOf p = { s.laneOf p with lastTemp := some s.now, drive := m.le 4 2 } ∧ (∀ q ≠ p, t.laneOf q = s.laneOf q) ∧
          t = { s with regs := t.regs, lane := t.lane } ∧
          s.RegsBut t [F.Lane.SENSOR_0.key (pgLane (p / 4)) (p % 4), F.Lane.SENSOR_1.key (pgLane (p / 4)) (p % 4),
            F.Lane.TEMP_STALE.key (pgLane (p / 4)) (p % 4)]) ∧
      (s.laneOn F.Lane.LANE_STATUS_BRIDGE_ALIVE p = true → ((s.laneOf p).lastStatus.getD 0) + 1000000 ≤ s.now →
        ∃ t, exec (.bridgeSilent p) s = .next t ∧ t.laneGet F.Lane.LANE_STATUS_BRIDGE_ALIVE p = 0 ∧
          bitAt (t.get F.Hdr.EVENT_STATUS (pgLane (p / 4))) Ev.laneBridgeSilent.bit = true ∧
          s.OnlyEvents t (pgLane (p / 4)) [F.Lane.LANE_STATUS_BRIDGE_ALIVE.key (pgLane (p / 4)) (p % 4)]) ∧
      (s.ready (pgLane (p / 4)) = true → s.laneOn F.Lane.TEMP_STALE p = false → ((s.laneOf p).lastTemp.getD 0) + 10000000 ≤ s.now →
        ∃ t, exec (.laneTempStale p) s = .next t ∧ t.laneGet F.Lane.TEMP_STALE p = 1 ∧
          bitAt (t.get F.Hdr.EVENT_STATUS (pgLane (p / 4))) Ev.laneTempStale.bit = true ∧
          s.OnlyEvents t (pgLane (p / 4)) [F.Lane.TEMP_STALE.key (pgLane (p / 4)) (p % 4)]) ∧
      (∀ mark gap bits, s.looped p = true → exec (.blockReceived p mark gap bits) s = .next s) ∧
      (∀ mark gap bits, s.looped p = false → readMarker mark = none → exec (.blockReceived p mark gap bits) s = exec (.markerMiss p) s) ∧
      (∀ bseq mark gap bits o, s.looped p = false → readMarker mark = some bseq → s.rxOn p = true →
        o = (s.laneOf p).rx.block (s.rxLocked p) bseq gap bits →
        (o.err = none → o.payload = none → o.lockedNow = false → o.lostNow = false →
          ∃ t, exec (.blockReceived p mark gap bits) s = .next t ∧ (t.laneOf p).rx = o.rx ∧ (∀ q ≠ p, t.laneOf q = s.laneOf q) ∧
            t = { s with lane := t.lane }) ∧
        (o.err = some 0 → o.payload = none → o.lockedNow = false → o.lostNow = false →
          ∃ t, exec (.blockReceived p mark gap bits) s = .next t ∧ (t.laneOf p).rx = o.rx ∧
            t.laneGet F.Lane.RX_CRC_ERRORS p = low 32 (min (s.laneGet F.Lane.RX_CRC_ERRORS p + 1) (2 ^ 32 - 1)) ∧
            bitAt (t.get F.Hdr.EVENT_STATUS (pgLane (p / 4))) Ev.laneRxBlockError.bit = true) ∧
        (∀ pay, o.payload = some pay → o.err = none → o.lostNow = false →
          ∃ u, exec (.blockReceived p mark gap bits) s = .next (goodBlock p pay u) ∧ (u.laneOf p).rx = o.rx ∧
            (o.lockedNow = true → u.rxLocked p = true) ∧
            ((pay.getD 3 0).toNat % 64 = p → (o.rx.payload headType headLen pay).2 = {} →
              (goodBlock p pay u).laneGet F.Lane.RX_BLOCKS p = low 32 (s.laneGet F.Lane.RX_BLOCKS p + 1) ∧
              ((goodBlock p pay u).laneOf p).rx = (o.rx.payload headType headLen pay).1))) ∧
      (s.rxOn p = true → s.rxLocked p = true →
        ((s.laneOf p).rx.miss < 3 → ∃ t, exec (.markerMiss p) s = .next t ∧ (t.laneOf p).rx.miss = (s.laneOf p).rx.miss + 1 ∧
          t.rxLocked p = true ∧ t = { s with lane := t.lane }) ∧
        (3 ≤ (s.laneOf p).rx.miss → ∃ t, exec (.markerMiss p) s = .next t ∧ t.rxLocked p = false ∧
          t.laneGet F.Lane.LOCK_LOSS_COUNT p = low 16 (min (s.laneGet F.Lane.LOCK_LOSS_COUNT p + 1) (2 ^ 16 - 1)) ∧
          bitAt (t.get F.Hdr.EVENT_STATUS (pgLane (p / 4))) Ev.laneRxLockLost.bit = true)) ∧
      ∀ line, s.laneOn F.Lane.TEST p = true → s.laneOn F.Lane.RX_EN p = true → s.ready (pgLane (p / 4)) = true → s.looped p = false →
        ∃ t, exec (.testSequenceLock p line) s = .next t ∧
          t.laneOf p = { s.laneOf p with test := line.foldl TestX.step (s.laneOf p).test } ∧ (∀ q ≠ p, t.laneOf q = s.laneOf q) ∧
          t = { s with lane := t.lane }

/-- A packet whose header had one corrected bit acts as one without, after ECC_CORRECTED has counted; with more bad bits
it is dropped: ECC_DROPPED counts and CAM.HEADER_DROP is raised. A long packet for no enabled virtual channel, or of
another data type, only counts in UNKNOWN_PACKETS and raises CAM.PACKET_UNKNOWN; an accepted one clears SILENT and
enters line assembly, a CRC error counts and raises CAM.CRC_ERROR. FRAME_START opens a frame with the sensor number,
FRAME_END closes the open frame, LINE_START and LINE_END bracket planar lines. A PHY error counts and is raised; 200
ms without a long packet sets SILENT and raises CAM.LINK_SILENT (R328 to R331, R335, R338). -/
def Obligations.CameraPackets : Prop :=
  ∀ (s : State) (l : Nat), l < 2 → s.linkOn l = true →
    (∀ vc dt num bad payload u, u = s.sat F.Cam.ECC_CORRECTED (pgCam l) →
      exec (.csiLongPacket l vc dt 1 bad payload) s = exec (.csiLongPacket l vc dt 0 bad payload) u ∧
      exec (.csiFrameStart l vc num 1) s = exec (.csiFrameStart l vc num 0) u ∧ exec (.csiFrameEnd l vc 1) s = exec (.csiFrameEnd l vc 0) u ∧
      exec (.csiLineStart l vc 1) s = exec (.csiLineStart l vc 0) u ∧ exec (.csiLineEnd l vc 1) s = exec (.csiLineEnd l vc 0) u) ∧
    (∀ vc dt num bad payload ecc, 2 ≤ ecc → ((streamsOf l).any s.slotOn) = false →
      ∃ t, exec (.csiLongPacket l vc dt ecc bad payload) s = .next t ∧ exec (.csiFrameStart l vc num ecc) s = .next t ∧
        exec (.csiFrameEnd l vc ecc) s = .next t ∧ exec (.csiLineStart l vc ecc) s = .next t ∧ exec (.csiLineEnd l vc ecc) s = .next t ∧
        t.get F.Cam.ECC_DROPPED (pgCam l) = low 32 (min (s.get F.Cam.ECC_DROPPED (pgCam l) + 1) (2 ^ 32 - 1)) ∧
        bitAt (t.get F.Hdr.EVENT_STATUS (pgCam l)) Ev.camHeaderDrop.bit = true ∧
        s.OnlyEvents t (pgCam l) [F.Cam.ECC_DROPPED.key (pgCam l) 0]) ∧
    (∀ vc dt bad payload, 0x18 ≤ low 6 dt →
      (∀ st, s.slotOfVc l (low 4 vc) = some st → low 6 dt ≠ 0x2B + s.slotGet st F.Cam.DT) →
      ∃ t, exec (.csiLongPacket l vc dt 0 bad payload) s = .next t ∧
        t.get F.Cam.UNKNOWN_PACKETS (pgCam l) = low 32 (min (s.get F.Cam.UNKNOWN_PACKETS (pgCam l) + 1) (2 ^ 32 - 1)) ∧
        bitAt (t.get F.Hdr.EVENT_STATUS (pgCam l)) Ev.camPacketUnknown.bit = true ∧
        s.OnlyEvents t (pgCam l) [F.Cam.UNKNOWN_PACKETS.key (pgCam l) 0]) ∧
    (∀ vc dt bad payload st, s.slotOfVc l (low 4 vc) = some st → low 6 dt = 0x2B + s.slotGet st F.Cam.DT →
      ∃ u, exec (.csiLongPacket l vc dt 0 bad payload) s = .next (slotPacket st bad payload u) ∧ u.get F.Cam.SILENT (pgCam l) = 0 ∧
        (u.linkX l).lastLong = s.now ∧ u.cam = s.cam ∧
        (bad = true → u.get F.Cam.CRC_ERRORS (pgCam l) = low 32 (min (s.get F.Cam.CRC_ERRORS (pgCam l) + 1) (2 ^ 32 - 1)) ∧
          bitAt (u.get F.Hdr.EVENT_STATUS (pgCam l)) Ev.camCrcError.bit = true)) ∧
    (∀ vc num st, s.slotOfVc l (low 4 vc) = some st → s.slotGet st F.Cam.FRAME_MODE = 0 →
      (∃ t, exec (.csiFrameStart l vc num 0) s = .next t ∧
        ((t.slotX st).frame.map (fun f => (f.sensor, f.n, f.lines))) = some (low 16 num, none, 0) ∧
        ((s.slotX st).line = none → (s.slotX st).frame = none →
          t.slotX st = { s.slotX st with misaligned := false, lsOpen := false, ser := (s.slotX st).ser + 1, frame := some { ser := (s.slotX st).ser, sensor := low 16 num } } ∧ t = { s with cam := t.cam })) ∧
      ∃ t, exec (.csiFrameEnd l vc 0) s = .next t ∧ (t.slotX st).frame = none) ∧
    (∀ vc st, s.slotOfVc l (low 4 vc) = some st → s.slotGet st F.Cam.LAYOUT = 1 → s.slotGet st F.Cam.LSLE = 1 →
      (∃ t, exec (.csiLineStart l vc 0) s = .next t ∧ (t.slotX st).lsOpen = true ∧
        ((s.slotX st).line = none → t = s.updSlot st (fun x => { x with lsOpen := true }))) ∧
      ∃ t, exec (.csiLineEnd l vc 0) s = .next t ∧ (t.slotX st).lsOpen = false ∧
        ((s.slotX st).line = none → t = s.updSlot st (fun x => { x with lsOpen := false }))) ∧
    (∀ kind lanes, ∃ t, exec (.phyError l kind lanes) s = .next t ∧
      t.get F.Cam.PHY_ERRORS (pgCam l) = low 32 (min (s.get F.Cam.PHY_ERRORS (pgCam l) + 1) (2 ^ 32 - 1)) ∧
      bitAt (t.get F.Hdr.EVENT_STATUS (pgCam l)) Ev.camPhyError.bit = true ∧ s.OnlyEvents t (pgCam l) [F.Cam.PHY_ERRORS.key (pgCam l) 0]) ∧
    ((streamsOf l).any s.slotOn = true → s.on F.Cam.SILENT (pgCam l) = false → (s.linkX l).lastLong + 200000000 ≤ s.now →
      ∃ t, exec (.linkSilent l) s = .next t ∧ t.on F.Cam.SILENT (pgCam l) = true ∧
        bitAt (t.get F.Hdr.EVENT_STATUS (pgCam l)) Ev.camLinkSilent.bit = true ∧ s.OnlyEvents t (pgCam l) [F.Cam.SILENT.key (pgCam l) 0])

/-- Enabling a valid slot sets its EN with nothing in assembly, an invalid one raises CAM.CONFIG_INVALID; disabling
clears EN and leaves nothing open. The active edge of VSYNC ends one parallel frame and starts the next; the samples
of a parallel line pass line assembly, after which no line is open. CCI_CTRL.GO makes BUSY 1 and holds the
operation, and is ignored while BUSY is 1; the end of its transaction shows DONE, NACK and the data read; the end of
a transaction of an exposure sequence takes its next write, or ends the sequence on a NACK. A buffered line passes
the pipeline: it leaves the buffer, and with MAP_EN 1 its mapped grid units go on (R326, R332, R333, R343, R344,
R347, R353, R354). -/
def Obligations.CameraSlotsAndControl : Prop :=
  ∀ s : State,
    (∀ l v st owner, streamAt l v = some st → s.passes (pgCam l) owner = true →
      (s.slotOn st = true → exec (.slotEnable l v owner) s = .next s ∧
        ∃ t, exec (.slotDisable l v owner) s = .next t ∧ t.slotOn st = false ∧ t.slotX st = { ser := (t.slotX st).ser }) ∧
      (s.slotOn st = false → exec (.slotDisable l v owner) s = .next s ∧
        (s.streamReason st = 0 → ∃ t, exec (.slotEnable l v owner) s = .next t ∧ t.slotOn st = true ∧
          t.slotX st = { ser := (s.slotX st).ser } ∧ (∀ k ≠ st, t.slotX k = s.slotX k) ∧
          t = { s with regs := t.regs, cam := t.cam, link := t.link } ∧
          s.RegsBut t [F.Cam.SLOT_CFG_EN.key (pgCam (linkOf st)) (slotOf st)]) ∧
        (s.streamReason st ≠ 0 → ∃ t, exec (.slotEnable l v owner) s = .next t ∧
          bitAt (t.get F.Hdr.EVENT_STATUS pgPipe) Ev.camConfigInvalid.bit = true ∧ s.OnlyEvents t pgPipe []))) ∧
    (∀ level, s.streamOn 8 = true → level ≠ (s.parCfg F.Par.VSYNC_POL == 1) → s.slotGet 8 F.Cam.FRAME_MODE = 0 →
      ∃ t, exec (.parFrameStart level) s = .next t ∧ ((t.slotX 8).frame.map (fun f => (f.sensor, f.n, f.lines))) = some (0, none, 0)) ∧
    (∀ level data, s.streamOn 8 = true → s.parCfg F.Par.SYNC_MODE = 0 → level ≠ (s.parCfg F.Par.DE_POL == 1) → s.parCfg F.Par.LAYOUT = 0 →
      ∃ t, exec (.parLine level data) s = .next t ∧ (t.slotX 8).line = none ∧
        t = endLine 8 1 (addPlane 8 1 (s.parCfg F.Par.BITS) (data.map (low (s.parCfg F.Par.BITS))) (startLine 8 s))) ∧
    (∀ l owner, l < 3 → s.passes (pgCam l) owner = true →
      (s.on F.Cam.CCI_STATUS_BUSY (pgCam l) = true → exec (.cciDirectWrite l owner) s = .next s ∧ exec (.cciDirectRead l owner) s = .next s) ∧
      (s.on F.Cam.CCI_STATUS_BUSY (pgCam l) = false → ∀ op, op = (s.get F.Cam.CCI_DIRECT_DEV (pgCam l), s.get F.Cam.CCI_DIRECT_REG (pgCam l),
          s.get F.Cam.CCI_DIRECT_DATA (pgCam l)) →
        (∃ t, exec (.cciDirectWrite l owner) s = .next t ∧ t.on F.Cam.CCI_STATUS_BUSY (pgCam l) = true ∧ t.get F.Cam.DONE (pgCam l) = 0 ∧
          t.get F.Cam.NACK (pgCam l) = 0 ∧ (t.linkX l).direct = some (false, op)) ∧
        ∃ t, exec (.cciDirectRead l owner) s = .next t ∧ t.on F.Cam.CCI_STATUS_BUSY (pgCam l) = true ∧ t.get F.Cam.DONE (pgCam l) = 0 ∧
          t.get F.Cam.NACK (pgCam l) = 0 ∧ (t.linkX l).direct = some (true, op))) ∧
    (∀ l nack data, l < 3 →
      (∀ rd op, (s.linkX l).run = 2 → (s.linkX l).direct = some (rd, op) → ∃ t, exec (.cciTransactionEnd l nack data) s = .next t ∧
        t.get F.Cam.DONE (pgCam l) = 1 ∧ t.get F.Cam.NACK (pgCam l) = low 1 (bit nack) ∧ t.on F.Cam.CCI_STATUS_BUSY (pgCam l) = false ∧
        (t.linkX l).direct = none ∧ (rd = true → nack = false → t.get F.Cam.READ_DATA (pgCam l) = low 8 data)) ∧
      ∀ e rest, (s.linkX l).run = 1 → (s.linkX l).exps = e :: rest →
        ∃ u, exec (.cciTransactionEnd l nack data) s = .next (cciGo l u) ∧ (u.linkX l).run = 0 ∧
          (nack = false → (u.linkX l).exps = (e :: rest).map (fun y => if y.f = e.f then { y with left := y.left.drop 1 } else y)) ∧
          (nack = true → ∀ y ∈ (u.linkX l).exps, y.f = e.f → y.left = [])) ∧
    ∀ st full, st < 9 → s.on F.Hdr.ENABLE pgPipe = true →
      ((s.slotX st).ready = [] → exec (.pipelineLine st none full) s = .next s) ∧
      ∀ y rest c, (s.slotX st).ready = y :: rest → c = PipeIn.mk (s.pipeAs y.set) st none none →
        ∃ u, exec (.pipelineLine st none full) s = .next (pipePrune (settle st u)) ∧ (u.slotX st).ready = rest ∧
          u.getI F.Pipe.STREAM_LINES pgPipe st = low 32 (s.getI F.Pipe.STREAM_LINES pgPipe st + 1) ∧
          (c.cfg F.Pipe.MAP_EN = 1 → u.pipe.mapped = s.pipe.mapped ++ [⟨st, y.n, y.exp, y.unsure, y.flags, y.tag, c.mapped (c.run y.planes).absorb⟩])

/-- The oldest mapped line leaves the pipeline; a stopped tracker drops it, one whose store has to wait leaves it there.
Inside the window, a line that has a reason of Table 11-2 counts in ROWS_SKIPPED, shows LAST_SKIP and raises
DTRK.ROW_MISS; a used one counts in ROWS_MATCHED. The end of phase 1 clears the arrays, shows SOLVE_TIME, returns
STATE to 1 and starts phase 2 with the due ports. Phase 2 of a region acts only while its tender core holds the lock
of the screening page, and then leaves no port of the region pending; after 100 ms without the lock each is dropped
with DTRK.UPDATE_DEFERRED. UPDATE_REQ and the expiry of MAX_INTERVAL make ports due (R366, R367, R370, R374, R375,
R378, R379, R381). -/
def Obligations.DensityTracker : Prop :=
  ∀ s : State,
    (∀ m rest u, s.pipe.mapped = m :: rest → u = s.updPipe (fun p => { p with mapped := rest }) →
      (s.on F.Hdr.ENABLE pgTrk = false → exec .trackerLine s = .next u) ∧
      (s.on F.Hdr.ENABLE pgTrk = true → s.trackerWaits = true → exec .trackerLine s = .next s) ∧
      ∀ row, s.on F.Hdr.ENABLE pgTrk = true → s.trackerWaits = false → row = s.camRow m.tag →
        (bitAt m.flags 3 = true ∨ ∃ w, s.trk.start = some w ∧
          sext 32 (row + 2 ^ 32 - w) < (s.get F.Dtrk.WINDOW_ROWS pgTrk : Int)) →
        ∀ v, v = (if u.lineReason m row = 1 ∨ u.lineReason m row = 2 then u
          else forAll (u.rowReads row) u (fun r => sdramRead 6 r.1 r.2)) →
        (u.lineReason m row ≠ 0 → ∃ t, exec .trackerLine s = .next t ∧
          t.get F.Dtrk.ROWS_SKIPPED pgTrk = low 32 (min (s.get F.Dtrk.ROWS_SKIPPED pgTrk + 1) (2 ^ 32 - 1)) ∧
          t.get F.Dtrk.LAST_SKIP pgTrk = low 4 (u.lineReason m row) ∧ t.trk = s.trk ∧ t.room = s.room ∧
          bitAt (t.get F.Hdr.EVENT_STATUS pgTrk) Ev.dtrkRowMiss.bit = true ∧
          v.OnlyEvents t pgTrk [F.Dtrk.ROWS_SKIPPED.key pgTrk 0, F.Dtrk.LAST_SKIP.key pgTrk 0]) ∧
        (u.lineReason m row = 0 → ∃ t, exec .trackerLine s = .next t ∧
          t.get F.Dtrk.ROWS_MATCHED pgTrk = low 32 (s.get F.Dtrk.ROWS_MATCHED pgTrk + 1) ∧ t.trk.exp = some m.exp ∧
          t = { v with regs := t.regs, trk := t.trk, room := t.room, sramErr := t.sramErr } ∧
          v.RegsBut t [F.Dtrk.ROWS_MATCHED.key pgTrk 0])) ∧
    (∀ t0, s.trk.solveAt = some t0 → s.on F.Hdr.ENABLE pgTrk = true → s.trkState = 2 →
      ∃ t, exec .solvePhase1End s = .next t ∧ t.trkState = 1 ∧ t.trk.solveAt = none ∧ t.trk.pendAt = s.now ∧
        t.get F.Dtrk.SOLVE_TIME pgTrk = low 24 ((s.now - t0) / 1000) ∧
        (s.role ≠ 0 → s.role ≠ 4 → t.trk.pend = []) ∧
        ∀ a, regBase ≤ a → a < regBase + 8945664 → memByte t.room a = 0) ∧
    (∀ r n, r < 4 → (s.trk.pend.filter (fun p => regionOf p == r)) ≠ [] → s.ready (pgScr r) = true → s.tenderRuns r = true →
      s.binding (pgScr r) = some n → s.outbids n (tenderOwner r) = false →
      (s.onI F.Lock.HELD pgLocks n = true → s.holds n (tenderOwner r) = false → exec (.gainUpdateWrite r) s = .next s) ∧
      (s.holds n (tenderOwner r) = true → s.cstate (pgScr r) = 0 → (∀ g < 8, s.groupNames g (pgScr r) = false) →
        s.onI F.Lock.HELD pgLocks n = true →
        ∃ t u, exec (.gainUpdateWrite r) s = .next t ∧ (∀ p ∈ t.trk.pend, regionOf p ≠ r) ∧
          t = phase2Check ((tenderRelease r u).updTrk (fun t => { t with pend := t.pend.filter (fun p => regionOf p != r) })))) ∧
    (∀ r, r < 4 → (s.trk.pend.filter (fun p => regionOf p == r)) ≠ [] →
      (∀ n, s.binding (pgScr r) = some n → s.holds n (tenderOwner r) = false) → s.trk.pendAt + 100000000 ≤ s.now →
      ∃ t, exec (.updateLockTimeout r) s = .next t ∧ t.trk.pend = s.trk.pend.filter (fun p => regionOf p != r) ∧
        bitAt (t.get F.Hdr.EVENT_STATUS pgTrk) Ev.dtrkUpdateDeferred.bit = true) ∧
    (∀ hi mask owner, s.passes pgTrk owner = true →
      ∃ t, exec (.updateReq hi mask owner) s = .next t ∧ t = { s with trk := t.trk } ∧
        (∀ i, i < (if hi then 16 else 32) → bitAt mask i = true → (t.trkPort ((if hi then 32 else 0) + i)).req = true) ∧
        ∀ p, (t.trkPort p).req = false → t.trkPort p = s.trkPort p) ∧
    ∀ p, p < 48 → s.on F.Hdr.ENABLE pgTrk = true →
      max ((s.trkPort p).accepted.getD 0) s.trk.enabledAt + s.get F.Dtrk.MAX_INTERVAL pgTrk * 1000000000 ≤ s.now →
      ∃ t, exec (.updateIntervalExpiry p) s = .next t ∧ t.trkPort p = { s.trkPort p with req := true } ∧
        (∀ q ≠ p, t.trkPort q = s.trkPort q) ∧ t = { s with trk := t.trk }

/-- A RUN bit starts the collection of its die where none is in progress, with no edge held; another die is left alone.
The collection ends when every converter is full or RUN_LIMIT has passed: the hub is done, a raster die goes on to
its loopback, whose end makes the die idle. A run without a rejected unit shows REF_TEMP and raises
DTRK.TDC_RUN_ACCEPTED. The new tables of a die take effect together while no port of it places a strobe (R383 to
R387). -/
def Obligations.TimingCalibration : Prop :=
  ∀ s : State,
    (∀ mask owner, s.passes pgTdc owner = true → ∃ t, exec (.tdcRun mask owner) s = .next t ∧
      (∀ d < 3, bitAt (mask) d = true → s.tdcPhase d = 0 → t.tdcPhase d = 1 ∧ (t.tdcOf d).began = s.now ∧ (t.tdcOf d).hits = [] ∧
        (t.tdcOf d).fresh = (s.tdcOf d).fresh) ∧
      (∀ d < 3, bitAt (mask) d = false ∨ s.tdcPhase d ≠ 0 → t.tdcPhase d = s.tdcPhase d ∧ t.tdcOf d = s.tdcOf d) ∧
      t = { s with regs := t.regs, tdc := t.tdc } ∧
      s.RegsBut t [F.Tdc.TDC_STATUS.key pgTdc 0, F.Tdc.EDGE_MIN.key pgTdc 0, F.Tdc.EDGE_MIN.key pgTdc 1, F.Tdc.EDGE_MIN.key pgTdc 2]) ∧
    (∀ d < 3, s.tdcPhase d = 1 → ((s.tdcOf d).fewest = tdcFull ∨ (s.tdcOf d).began + s.get F.Tdc.RUN_LIMIT pgTdc * 1000000000 ≤ s.now) →
      ∃ t, exec (.tdcCollectionEnd d) s = .next t ∧ t.tdcPhase d = if d = 0 then 0 else 2) ∧
    (∀ d phases, (d = 1 ∨ d = 2) → s.tdcPhase d = 2 → tapsMeasured phases = true →
      ∃ t u, exec (.tdcLoopbackEnd d phases) s = .next t ∧ t = tdcEnd d u ∧ t.tdcPhase d = 0 ∧
        ((u.tdcOf d).failed = false → t.getI F.Tdc.REF_TEMP pgTdc d = low 16 (u.tdcOf d).temp ∧
          bitAt (t.get F.Hdr.EVENT_STATUS pgTdc) Ev.tdcRunAccepted.bit = true)) ∧
    ∀ d < 3, s.placing d = false →
      ∃ t, exec (.tdcTableSwap d) s = .next t ∧ (t.tdcOf d).fresh = [] ∧ (∀ k ≠ d, t.tdcOf k = s.tdcOf k) ∧
        t = { s with aptw := t.aptw, tdc := t.tdc } ∧
        t.aptw = (forAll (s.tdcOf d).fresh s (fun f s => setAptBytes pgTdc f.1 (f.2.map (BitVec.ofNat 8)) s)).aptw

/-- While STATE is 1 or 2 an action of CAL_CTRL is ignored but for CAT. SAVE with the journal open takes STATE to 1 and
asks the journal for each named category; with it closed each fails with DTRK.CAL_SAVE_FAIL. WITHDRAW clears the
CAL_VALID bits of the named categories and no other. APPLY takes STATE to 2 and lets the tender cores write.
CAPTURE_TDC makes categories 0 and 1 dirty and not valid. With every value taken, APPLY ends: STATE 0 and
DTRK.CAL_APPLY_DONE (R389, R390). -/
def Obligations.CalibrationStore : Prop :=
  ∀ s : State,
    (∀ cats owner, s.passes pgCal owner = true →
      ∃ u : State, u = s.set F.Cal.CAT pgCal (low 6 cats) ∧
      (s.calBusy = true → exec (.calSave cats owner) s = .next u ∧ exec (.calWithdraw cats owner) s = .next u ∧
        exec (.calApply cats owner) s = .next u ∧ exec (.calCaptureTdc cats owner) s = .next u) ∧
      (s.calBusy = false →
        (catsOf (low 6 cats) ≠ [] → s.journalOpen = true → ∃ v, exec (.calSave cats owner) s =
            .next (forAll (catsOf (low 6 cats)) v (fun c s => journalAsk ⟨3, c, s.calBytes c⟩ s)) ∧
          v.calState = 1 ∧ v.cal.saving = low 6 cats ∧ v.jrn = s.jrn) ∧
        (catsOf (low 6 cats) ≠ [] → s.journalOpen = false → ∃ t, exec (.calSave cats owner) s = .next t ∧
          bitAt (t.get F.Hdr.EVENT_STATUS pgCal) Ev.dtrkCalSaveFail.bit = true) ∧
        (∃ t, exec (.calWithdraw cats owner) s = .next t ∧
          (∀ c < 6, bitAt (t.get F.Cal.CAL_VALID pgCal) c = (bitAt (s.get F.Cal.CAL_VALID pgCal) c && !bitAt cats c)) ∧
          t = { s with regs := t.regs } ∧ s.RegsBut t [F.Cal.CAT.key pgCal 0, F.Cal.CAL_VALID.key pgCal 0]) ∧
        (∃ v, exec (.calApply cats owner) s = .next (forAll (if bitAt cats 4 || bitAt cats 5 then List.range 4 else []) v applyTender) ∧
          v.calState = 2 ∧ v.cal.applying = low 6 cats ∧ v.cal.round = s.get F.Hk.HK_ROUNDS 0x0A8) ∧
        (s.jrn.closing = none → s.cal.saving = 0 → ∃ t, exec (.calCaptureTdc cats owner) s = .next t ∧
          bitAt (t.get F.Cal.DIRTY pgCal) 0 = true ∧ bitAt (t.get F.Cal.DIRTY pgCal) 1 = true ∧
          bitAt (t.get F.Cal.CAL_VALID pgCal) 0 = false ∧ bitAt (t.get F.Cal.CAL_VALID pgCal) 1 = false))) ∧
    (s.calState = 2 → ∃ u : State, u = forAll s.cal.regions s applyTender ∧
      (u.calTaken = false → exec .calApplyDone s = .next u) ∧
      (u.calTaken = true → ∃ t, exec .calApplyDone s = .next t ∧ t.calState = 0 ∧ t.cal = { u.cal with applying := 0 } ∧
        bitAt (t.get F.Hdr.EVENT_STATUS pgCal) Ev.dtrkCalApplyDone.bit = true ∧ u.OnlyEvents { t with cal := u.cal } pgCal [F.Cal.CAL_STATUS_STATE.key pgCal 0]))

/-- The columns H_0 to H_31 are the 32 smallest 7-bit values with three bits set, in rising order. Check bit i of a word
is the XOR of the data bits j whose H_j has bit i set. For stored data and check bits of which flip gives the bits
that read inverted: syndrome 0 or of one bit delivers the data as read, syndrome H_j delivers it with bit j
inverted, any other syndrome marks it uncorrectable. Every single-bit error is corrected, every double-bit error is
detected, and 0x64, 0x68 and 0x70 are no columns (R397). -/
def Obligations.CheckCodeOfWords : Prop :=
  hColumns.length = 32 ∧ hColumns.Pairwise (· < ·) ∧ (∀ h ∈ hColumns, h < 128 ∧ popcount h = 3) ∧
    (∀ v < 128, popcount v = 3 → v ∉ hColumns → v = 0x64 ∨ v = 0x68 ∨ v = 0x70) ∧
    (hColumns.take 5 = [0x07, 0x0B, 0x0D, 0x0E, 0x13] ∧ hColumns.drop 30 = [0x61, 0x62]) ∧
    (∀ w i, i < 7 → bitAt (checkBits w) i =
      (List.range 32).foldl (fun a j => Bool.xor a (bitAt w j && bitAt (hColumns.getD j 0) i)) false) ∧
    (∀ data base flip read syn : Nat, read = Nat.xor data (low 32 flip) →
      syn = Nat.xor (Nat.xor (Nat.xor (checkBits data) base) (bits flip 32 7)) (checkBits read) →
      ((syn = 0 ∨ popcount syn = 1) → decodeWord data base flip = (read, false, false, syn)) ∧
      (∀ j < 32, syn = hColumns.getD j 0 → decodeWord data base flip = (Nat.xor read (2 ^ j), true, false, syn)) ∧
      (syn ≠ 0 → popcount syn ≠ 1 → syn ∉ hColumns → decodeWord data base flip = (read, false, true, syn))) ∧
    (∀ data, ∀ k < 39, (decodeWord data 0 (2 ^ k)).1 = data ∧ (decodeWord data 0 (2 ^ k)).2.2.1 = false) ∧
    ∀ data, ∀ k < 39, ∀ j < 39, k ≠ j → (decodeWord data 0 (2 ^ k + 2 ^ j)).2.2.1 = true

/-- A request of any class whose address lies at or beyond the capacity reaches no channel. A read of a host core
receives a bus error, any other read poisoned data (for cameras, taps and the other hub requesters bytes of 0xFF), a
write is dropped. MEM.ADDR_RANGE is raised, and besides the answer nothing but what an event writes changes (R399). -/
def Obligations.RequestBeyondCapacity : Prop :=
  ∀ (s : State) (cls addr : Nat) (wr : Bool) (port : Option Nat) (mask : Nat) (data : List Nat), cls < 16 → s.memCapacity ≤ addr →
    ∃ t, exec (.memRequest cls addr wr port mask data) s = .next t ∧ t.memx = s.memx ∧
      (wr = true → t.resp = .none) ∧ (wr = false → cls = 0 → t.resp = .busError) ∧
      (wr = false → cls = 7 ∨ cls = 9 → t.resp = .data (2 ^ 512 - 1)) ∧
      (wr = false → cls ≠ 0 → cls ≠ 7 → cls ≠ 9 → t.resp = .poisoned) ∧
      bitAt (t.get F.Hdr.EVENT_STATUS pgMem) Ev.memAddrRange.bit = true ∧ s.OnlyEvents { t with resp := s.resp } pgMem []

/-- A read that has room joins the read queue of its channel, wakes it, and counts in RAW_STALLS where a write to its
burst is queued. A write joins the write queue, or merges into the newest queued write to its burst while no later
read of that burst is queued: later bytes take precedence. A blocked channel issues nothing. An eligible urgent read
is chosen before all else, behind only older requests of its kind. A due REF goes first while no urgent read waits.
A chosen whole-burst write stores its 64 bytes and nothing else; a chosen read takes what the components hold and
waits for its data. A good burst returns those bytes and changes nothing; the read of a merge writes exactly the
masked bytes; a channel stopped by CA parity returns nothing (R398, R400 to R405, R409). -/
def Obligations.MemoryQueues : Prop :=
  ∀ (s : State) (ch : Nat), ch < 4 →
    (∀ cls addr port mask data, cls < 16 → addr < s.memCapacity → (s.memSplit addr).1 = ch → (s.memOf ch).wait = [] →
      ((s.memOf ch).reads.length < 64 → ∃ t q, exec (.memRequest cls addr false port mask data) s = .next t ∧
        q.burst = addr / 64 * 64 ∧ q.cls = cls ∧ q.urgent = s.urgentRead cls port ∧ q.wr = false ∧ q.since = s.now ∧ q.seq = (s.memOf ch).seq ∧
        (t.memOf ch).reads = (s.memOf ch).reads ++ [q] ∧ (t.memOf ch).writes = (s.memOf ch).writes ∧ t.resp = .none ∧
        (∀ k ≠ ch, t.memOf k = s.memOf k) ∧ (s.memc.chg = none → s.ready (pgChan ch) = true → t.get F.Chan.POWER (pgChan ch) = 0) ∧
        t.get F.Chan.RAW_STALLS (pgChan ch) = (if (s.memOf ch).writes.any (fun w => w.burst == q.burst) ||
            (s.memOf ch).flight.any (fun w => w.wr && w.burst == q.burst) then low 32 (min (s.get F.Chan.RAW_STALLS (pgChan ch) + 1) (2 ^ 32 - 1))
          else s.get F.Chan.RAW_STALLS (pgChan ch))) ∧
      ((s.memOf ch).writes.length < 32 → ∃ t q, exec (.memRequest cls addr true port mask data) s = .next t ∧
        q.burst = addr / 64 * 64 ∧ q.wr = true ∧ q.mask = low 64 mask ∧ q.data = data ∧ q.seq = (s.memOf ch).seq ∧
        (t.memOf ch).reads = (s.memOf ch).reads ∧ t.resp = .none ∧
        ((∀ w ∈ (s.memOf ch).writes, w.burst ≠ q.burst) → (t.memOf ch).writes = (s.memOf ch).writes ++ [q]) ∧
        (∀ w, (s.memOf ch).writes.reverse.find? (fun w => w.burst == q.burst) = some w →
          ((∃ r ∈ (s.memOf ch).reads, r.burst = q.burst ∧ w.seq < r.seq) → (t.memOf ch).writes = (s.memOf ch).writes ++ [q]) ∧
          ((∀ r ∈ (s.memOf ch).reads, r.burst = q.burst → r.seq ≤ w.seq) → ∃ m : MemReq, m.burst = w.burst ∧ m.seq = w.seq ∧ m.mask = Nat.lor w.mask q.mask ∧
            (∀ i < 64, m.data.getD i 0 = if bitAt q.mask i then q.data.getD i 0 else w.data.getD i 0) ∧
            (t.memOf ch).writes = (s.memOf ch).writes.map (fun y => if y.seq = w.seq then m else y))))) ∧
    (s.memBlocked ch = true → exec (.memSchedule ch) s = .next s) ∧
    (∀ (x : MemX) (r : MemReq), r ∈ x.reads → r.urgent = true → s.memEligible x r = true → ∃ q, s.memChoose x = some q ∧ q.seq ≤ r.seq ∧
      (q ∈ x.reads ∧ q.urgent = true ∨ q ∈ x.writes ∧ ∃ o ∈ x.reads, o.burst = q.burst ∧ q.seq < o.seq)) ∧
    (s.memBlocked ch = false → (s.memOf ch).wait = [] → ∃ u : State,
      u = showPostponed ch ((s.set F.Chan.REPLAYING (pgChan ch) 0).updMem ch (fun x => ((s.set F.Chan.REPLAYING (pgChan ch) 0).memDrain { x with alerts := 0 }).postpone)) ∧
      ((s.memOf ch).flight = [] → (s.memOf ch).reads.any (·.urgent) = false → 0 < ((s.memOf ch).rank 0).refNow → ∃ t, exec (.memSchedule ch) s = .next t ∧
        ((t.memOf ch).rank 0).refNow = ((s.memOf ch).rank 0).refNow - 1 ∧ ((t.memOf ch).rank 0).refs = ((s.memOf ch).rank 0).refs ∧
        (∀ b < 8, tfind (t.memOf ch).rows b = none) ∧ (t.memOf ch).cmds.getLast? = some ⟨4, 0, s.now, 0⟩ ∧ t.sdram = s.sdram) ∧
      ((∀ r, ((u.memOf ch).rank r).refNow = 0 ∧ ((u.memOf ch).rank r).zqNow = 0) → ∀ q, u.memChoose (u.memOf ch) = some q →
        (q.wr = true → q.mask = 2 ^ 64 - 1 → ∃ t, exec (.memSchedule ch) s = .next t ∧
          (∀ i < 64, memByte t.sdram (q.burst + i) = BitVec.ofNat 8 (q.data.getD i 0)) ∧
          (∀ a, a < q.burst ∨ q.burst + 64 ≤ a → memByte t.sdram a = memByte s.sdram a) ∧
          (t.memOf ch).writes = (s.memOf ch).writes.filter (fun w => w.seq != q.seq) ∧ (t.memOf ch).reads = (s.memOf ch).reads ∧
          (t.memOf ch).cmds.getLast? = some ⟨1, q.burst, s.now, q.seq⟩) ∧
        (q.wr = false → ∃ t, exec (.memSchedule ch) s = .next t ∧ (t.memOf ch).flight = (s.memOf ch).flight ++ [s.asRead q] ∧
          (t.memOf ch).reads = (s.memOf ch).reads.filter (fun r => r.seq != q.seq) ∧ (t.memOf ch).writes = (s.memOf ch).writes ∧
          (t.memOf ch).cmds.getLast? = some ⟨0, q.burst, s.now, q.seq⟩ ∧ t.sdram = s.sdram))) ∧
    ((s.memOf ch).flight = [] ∨ s.on F.Hdr.FAULT (pgChan ch) = true → ∀ flips, exec (.memReadData ch flips) s = .next s) ∧
    ∀ q qs, (s.memOf ch).flight = q :: qs → s.on F.Hdr.FAULT (pgChan ch) = false → q.gotBad = [] → q.got.length = 64 → (∀ b ∈ q.got, b < 256) →
      (q.wr = false → ∃ t, exec (.memReadData ch []) s = .next t ∧ t.resp = .data (leNat (q.got.map (BitVec.ofNat 8))) ∧
        (t.memOf ch).flight = qs ∧ t = { s with memx := t.memx, resp := t.resp }) ∧
      (q.wr = true → ∃ t, exec (.memReadData ch []) s = .next t ∧ (t.memOf ch).flight = qs ∧
        (∀ i < 64, memByte t.sdram (q.burst + i) = BitVec.ofNat 8 (if bitAt q.mask i then q.data.getD i 0 else q.got.getD i 0)) ∧
        (∀ a, a < q.burst ∨ q.burst + 64 ≤ a → memByte t.sdram a = memByte s.sdram a) ∧ t.regs = s.regs)

/-- ALERT_n low: CA_RETRIES counts, REPLAYING shows, the queues stay and MEM.CA_PARITY_RETRY is raised; at the fourth
consecutive alert FAULT is set with MEM.CA_PARITY_FAIL, after which alerts change nothing. A REF is due when the
interval begun at the last one is over, and the next interval is that of the band then; a due REF or ZQCS ends
power-down. While an urgent read waits, due ones of a rank are postponed, up to four. A reading lost for 12 ms
clears TEMP_VALID, gives band 1 and raises MEM.TEMP_STALE. An idle channel enters power-down with rows open. The
entry to self-refresh closes the rows and issues every postponed REF; its SRE counts in SR_ENTRIES (R408 to R413,
R415 to R417). -/
def Obligations.MemoryUpkeep : Prop :=
  ∀ (s : State) (ch : Nat), ch < 4 →
    (s.on F.Hdr.FAULT (pgChan ch) = true → exec (.alertNLow ch) s = .next s) ∧
    (s.on F.Hdr.FAULT (pgChan ch) = false → ∃ t, exec (.alertNLow ch) s = .next t ∧
      (t.memOf ch).reads = (s.memOf ch).reads ∧ (t.memOf ch).writes = (s.memOf ch).writes ∧ (t.memOf ch).flight = (s.memOf ch).flight ∧
      (t.memOf ch).alerts = (s.memOf ch).alerts + 1 ∧ (∀ k ≠ ch, t.memOf k = s.memOf k) ∧
      ((s.memOf ch).alerts = 3 → t.on F.Hdr.FAULT (pgChan ch) = true ∧ (t.memOf ch).rows = [] ∧
        bitAt (t.get F.Hdr.EVENT_STATUS (pgChan ch)) Ev.memCaParityFail.bit = true) ∧
      ((s.memOf ch).alerts ≠ 3 → t.get F.Chan.REPLAYING (pgChan ch) = 1 ∧
        t.get F.Chan.CA_RETRIES (pgChan ch) = low F.Chan.CA_RETRIES.w (min (s.get F.Chan.CA_RETRIES (pgChan ch) + 1) (2 ^ F.Chan.CA_RETRIES.w - 1)) ∧
        bitAt (t.get F.Hdr.EVENT_STATUS (pgChan ch)) Ev.memCaParityRetry.bit = true)) ∧
    (∀ r a, r < s.memRanks → s.ready (pgChan ch) = true → s.get F.Chan.POWER (pgChan ch) ≠ 2 → ((s.memOf ch).rank r).refAt = some a →
      (s.now < a + ((s.memOf ch).rank r).interval → exec (.refreshDue ch r) s = .next s) ∧
      (a + ((s.memOf ch).rank r).interval ≤ s.now → ∃ t, exec (.refreshDue ch r) s = .next t ∧
        (t.memOf ch).rank r = { (s.memOf ch).rank r with
          refAt := some (a + ((s.memOf ch).rank r).interval)
          interval := s.refInterval ch
          refNow := ((s.memOf ch).rank r).refNow + 1 } ∧
        (∀ k ≠ r, (t.memOf ch).rank k = (s.memOf ch).rank k) ∧
        t.get F.Chan.POWER (pgChan ch) = (if s.get F.Chan.POWER (pgChan ch) = 1 then 0 else s.get F.Chan.POWER (pgChan ch)))) ∧
    (∀ (x : MemX) r, r < 2 → x.postpone.rank r = if x.reads.any (·.urgent) then { x.rank r with
        refs := (x.rank r).refs + min (x.rank r).refNow (4 - (x.rank r).refs)
        refNow := (x.rank r).refNow - min (x.rank r).refNow (4 - (x.rank r).refs)
        zqs := (x.rank r).zqs + min (x.rank r).zqNow (4 - (x.rank r).zqs)
        zqNow := (x.rank r).zqNow - min (x.rank r).zqNow (4 - (x.rank r).zqs) } else x.rank r) ∧
    (showPostponed ch s).get F.Chan.POSTPONED (pgChan ch) = low F.Chan.POSTPONED.w (max ((s.memOf ch).rank 0).refs ((s.memOf ch).rank 1).refs) ∧
    (s.get F.Mem.ZQ_PERIOD pgMem = 0 → exec (.zqDue ch) s = .next s) ∧
    (s.get F.Mem.ZQ_PERIOD pgMem ≠ 0 → s.ready (pgChan ch) = true → s.get F.Chan.POWER (pgChan ch) ≠ 2 →
      (s.memOf ch).zqAt + s.get F.Mem.ZQ_PERIOD pgMem * 1000000 ≤ s.now → ∃ t, exec (.zqDue ch) s = .next t ∧ (t.memOf ch).zqAt = s.now ∧
        (∀ r < s.memRanks, (t.memOf ch).rank r = { (s.memOf ch).rank r with zqNow := ((s.memOf ch).rank r).zqNow + 1 })) ∧
    (s.on F.Chan.TEMP_VALID (pgChan ch) = false ∨ s.now < (s.memOf ch).tempAt + 12000000 → exec (.memTempStale ch) s = .next s) ∧
    (s.on F.Chan.TEMP_VALID (pgChan ch) = true → (s.memOf ch).tempAt + 12000000 ≤ s.now → ∃ t, exec (.memTempStale ch) s = .next t ∧
      t.get F.Chan.TEMP_VALID (pgChan ch) = 0 ∧ t.get F.Chan.BAND (pgChan ch) = 1 ∧ bitAt (t.get F.Hdr.EVENT_STATUS (pgChan ch)) Ev.memTempStale.bit = true ∧
      s.OnlyEvents t (pgChan ch) [F.Chan.TEMP_VALID.key (pgChan ch) 0, F.Chan.BAND.key (pgChan ch) 0]) ∧
    (s.memBlocked ch = false → (s.memOf ch).idle = true →
      (s.get F.Chan.POWER (pgChan ch) = 0 → s.on F.Mem.PD_EN pgMem = true → 1 ≤ s.minLatTol.1 →
        s.get F.Mem.PD_IDLE pgMem * 8 ≤ s.mclkSince (s.memOf ch).idleAt → ∃ t, exec (.powerDownEntry ch) s = .next t ∧
          t.get F.Chan.POWER (pgChan ch) = 1 ∧ s.OnlyRegs t [F.Chan.POWER.key (pgChan ch) 0]) ∧
      (s.on F.Mem.PD_EN pgMem = false ∨ s.minLatTol.1 = 0 → exec (.powerDownEntry ch) s = .next s) ∧
      (s.on F.Mem.SR_EN pgMem = true → s.srTheta < s.minLatTol.1 → (s.memOf ch).idleAt + s.get F.Mem.SR_IDLE pgMem * 1000 ≤ s.now →
        s.get F.Chan.POWER (pgChan ch) ≠ 3 → ∃ t, exec (.selfRefreshEntry ch) s = .next t ∧ t.get F.Chan.POWER (pgChan ch) = 3 ∧ (t.memOf ch).rows = [] ∧
          ∀ r < s.memRanks, ((t.memOf ch).rank r).refs = 0 ∧ ((t.memOf ch).rank r).refNow = 0)) ∧
    (s.get F.Chan.POWER (pgChan ch) = 3 → s.srTheta < s.minLatTol.1 → ∃ t, exec (.selfRefreshEntry ch) s = .next t ∧
      t.get F.Chan.POWER (pgChan ch) = 2 ∧ t.get F.Chan.SR_ENTRIES (pgChan ch) = low 32 (s.get F.Chan.SR_ENTRIES (pgChan ch) + 1) ∧
      (t.memOf ch).cmds.getLast? = some ⟨7, 0, s.now, 0⟩)

/-- A change or a training request is refused with MEM.RETUNE_REFUSED while a port runs, for REQ_POINT 3, and while a
change waits or is made; a training request also while a channel trains. A change asked for while a channel trains
waits (STATE 1); else every channel empties its write queue behind the reads that are ahead of a write, goes through
self-refresh and trains at the new point, by a check where valid results exist and else in full. TRAIN_FULL and
TRAIN_CHECK train every channel at the present point. A pass that ends well gives state 2; a failed automatic check
runs a full pass; another failure, in a step of a full pass and on one of ten lanes, gives state 3, the step and
lane, clears READY and raises MEM.TRAIN_FAIL. With no channel training a change ends: POINT and MEM.FREQ_DONE (R419
to R423). -/
def Obligations.MemoryFrequencyAndTraining : Prop :=
  ∀ s : State,
    (∀ point owner, s.passes pgMem owner = true → ∃ u : State, u = (if low 2 point = 3 then s else s.set F.Mem.REQ_POINT pgMem point) ∧
      ((u.pressRunning = true ∨ low 2 point = 3 ∨ u.memc.pend.isSome = true ∨ u.memc.chg.isSome = true) →
        ∃ t, exec (.memFreqGo point owner) s = .next t ∧ bitAt (t.get F.Hdr.EVENT_STATUS pgMem) Ev.memRetuneRefused.bit = true ∧ u.OnlyEvents t pgMem []) ∧
      (u.pressRunning = false → low 2 point ≠ 3 → u.memc = ⟨none, none⟩ →
        (u.memTraining = true → exec (.memFreqGo point owner) s = .next { u with memc := ⟨some (low 2 point), none⟩ }) ∧
        (u.memTraining = false → ∃ t, exec (.memFreqGo point owner) s = .next t ∧ t.memc = ⟨none, some (low 2 point)⟩ ∧
          ∀ ch < 4, (t.memOf ch).writes = [] ∧ (t.memOf ch).reads = (s.memOf ch).reads.filter (fun r => !(s.memOf ch).writes.any (fun w => w.burst == r.burst && decide (r.seq < w.seq))) ∧ t.get F.Chan.POWER (pgChan ch) = 0 ∧ t.get F.Chan.POINT (pgChan ch) = low 2 point ∧
            t.get F.Chan.TRAIN_STATUS_STATE (pgChan ch) = 1 ∧
            (t.memOf ch).train = (if (s.memOf ch).valid.contains (low 2 point) then 1 else 2) ∧ (t.memOf ch).valid = (s.memOf ch).valid))) ∧
    (∀ (c : Instr) (kind owner : Nat), (c, kind) ∈ [(Instr.trainFull owner, 2), (Instr.trainCheck owner, 1)] → s.passes pgMem owner = true →
      ((s.pressRunning = true ∨ s.memc.pend.isSome = true ∨ s.memc.chg.isSome = true ∨ s.memTraining = true) →
        ∃ t, exec c s = .next t ∧ bitAt (t.get F.Hdr.EVENT_STATUS pgMem) Ev.memRetuneRefused.bit = true ∧ s.OnlyEvents t pgMem []) ∧
      (s.pressRunning = false → s.memc = ⟨none, none⟩ → s.memTraining = false → ∃ t, exec c s = .next t ∧
        ∀ ch < 4, (t.memOf ch).train = kind ∧ (t.memOf ch).auto = false ∧ t.get F.Chan.TRAIN_STATUS_STATE (pgChan ch) = 1 ∧
          t.get F.Chan.FAIL_STEP (pgChan ch) = 0 ∧ t.get F.Chan.POINT (pgChan ch) = low 2 (s.get F.Mem.POINT pgMem))) ∧
    (∀ ch < 4, ((s.memOf ch).train = 0 → ∀ ok step lane, exec (.trainingEnd ch ok step lane) s = .next s) ∧
      ((s.memOf ch).train ≠ 0 → s.memc = ⟨none, none⟩ →
        (∀ step lane, ∃ t, exec (.trainingEnd ch true step lane) s = .next t ∧ (t.memOf ch).train = 0 ∧ (t.memOf ch).ok = true ∧
          t.get F.Chan.TRAIN_STATUS_STATE (pgChan ch) = 2 ∧
          ((s.memOf ch).train = 2 → (t.memOf ch).valid.contains (s.get F.Chan.POINT (pgChan ch)) = true) ∧
          ((s.memOf ch).train ≠ 2 → (t.memOf ch).valid = (s.memOf ch).valid)) ∧
        (∀ step lane, (s.memOf ch).mayFail step lane = false → exec (.trainingEnd ch false step lane) s = .next s) ∧
        (∀ step lane, (s.memOf ch).mayFail step lane = (decide (lane < 10) && if (s.memOf ch).train = 2 then decide (1 ≤ step) && decide (step ≤ 6) else step == 0)) ∧
        (∀ step lane, (s.memOf ch).mayFail step lane = true → ((s.memOf ch).train = 1 ∧ (s.memOf ch).auto = true) → ∃ t, exec (.trainingEnd ch false step lane) s = .next t ∧
          (t.memOf ch).train = 2 ∧ t.get F.Chan.TRAIN_STATUS_STATE (pgChan ch) = 1) ∧
        ∀ step lane, (s.memOf ch).mayFail step lane = true → ¬ ((s.memOf ch).train = 1 ∧ (s.memOf ch).auto = true) → ∃ t, exec (.trainingEnd ch false step lane) s = .next t ∧
          (t.memOf ch).train = 0 ∧ (t.memOf ch).ok = false ∧ (t.memOf ch).valid.contains (s.get F.Chan.POINT (pgChan ch)) = false ∧
          t.get F.Chan.TRAIN_STATUS_STATE (pgChan ch) = 3 ∧ t.get F.Chan.FAIL_STEP (pgChan ch) = low 8 step ∧
          t.get F.Chan.FAIL_LANE (pgChan ch) = low 4 lane ∧ t.get F.Hdr.READY (pgChan ch) = 0 ∧
          bitAt (t.get F.Hdr.EVENT_STATUS (pgChan ch)) Ev.memTrainFail.bit = true)) ∧
    (s.memc.chg = none ∨ s.memTraining = true → exec .freqDone s = .next s) ∧
    ∀ p, s.memc.chg = some p → s.memTraining = false → ∃ t, exec .freqDone s = .next t ∧ t.get F.Mem.POINT pgMem = low 2 p ∧ t.memc = ⟨none, none⟩ ∧
      (∀ ch < 4, (t.memOf ch).idleAt = s.now ∧ t.get F.Chan.TRAINED (pgChan ch) = bit ((s.memOf ch).valid.contains (low 2 p))) ∧
      bitAt (t.get F.Hdr.EVENT_STATUS pgMem) Ev.memFreqDone.bit = true

/-- A request that reaches an idle bus is granted with its first beat 3 xclk later; on a busy bus it waits with its
stamp. A held-off or quiesced requester, a second request, and a request of no beats or of more than 64 are ignored;
while page 0x086 is not READY requests wait. The arbiter grants the request with the smallest stamp, the lowest
index among equals. A tenure that has had its last beat, of a channel that serves, ends: a request with no beats
left is over, another is stamped anew and keeps its progress; the next tenure follows without an idle cycle. A
one-beat read of good Reading Room words returns their bytes, a one-beat write stores them. A bite ends the request,
grants the next, counts in WD_BITES, holds a requester with a page off and sends its function reset (R434 to R441). -/
def Obligations.StacksBus : Prop :=
  (∀ s : State, tsorted s.stack.reqs = true → ∀ i, s.stackOldest = some i → ∃ q, (i, q) ∈ s.stack.reqs ∧
    ∀ e ∈ s.stack.reqs, q.stamp < e.2.stamp ∨ q.stamp = e.2.stamp ∧ i ≤ e.1) ∧
  ∀ s : State,
    (∀ i sdram addr wr beats data, (s.stackQuiet i = true ∨ (s.stack.req i).isSome = true ∨ bitAt (s.get F.Stk.WD_MASKED pgStk) i = true ∨ beats = 0 ∨ 64 < beats) →
      exec (.stacksRequest i sdram addr wr beats data) s = .next s) ∧
    (∀ i sdram addr wr beats data, i < 16 → s.stackQuiet i = false → s.stack.req i = none → bitAt (s.get F.Stk.WD_MASKED pgStk) i = false →
      addr % 64 = 0 → 0 < beats → beats ≤ 64 → (if sdram then addr + 64 * beats ≤ s.memCapacity else addr + 64 * beats ≤ 2 ^ 25) →
      ∃ t, exec (.stacksRequest i sdram addr wr beats data) s = .next t ∧
        t.stack.req i = some { sdram := sdram, addr := addr, wr := wr, beats := beats, data := data, arrived := s.xclk, stamp := s.xclk } ∧
        (∀ j ≠ i, t.stack.req j = s.stack.req j) ∧
        (s.stack.owner = none → s.ready pgStk = true → t.stack.owner = some i ∧ t.stack.first = s.xclk + 3 ∧ t.stack.len = min (s.get F.Stk.TENURE_MAX pgStk) beats) ∧
        (s.stack.owner ≠ none ∨ s.ready pgStk = false → t.stack.owner = s.stack.owner ∧ t.stack.first = s.stack.first ∧ t.stack.len = s.stack.len ∧ t.regs = s.regs)) ∧
    (s.stack.owner = none → ∀ upsets moved, exec (.stacksTenureEnd upsets) s = .next s ∧ exec (.stacksWatchdog moved) s = .next s) ∧
    ∀ i q, s.stack.owner = some i → s.stack.req i = some q →
      (s.xclk + 1 < s.stack.first + s.stack.len ∨ q.sdram = true ∧ s.sdramHeld (q.addr + 64 * q.done) (64 * s.stack.len) = true → ∀ upsets, exec (.stacksTenureEnd upsets) s = .next s) ∧
      (s.stack.first + s.stack.len ≤ s.xclk + 1 → (q.sdram = true → s.sdramHeld (q.addr + 64 * q.done) (64 * s.stack.len) = false) → ∀ upsets, ∃ t, exec (.stacksTenureEnd upsets) s = .next t ∧
        (∀ j ≠ i, t.stack.req j = s.stack.req j) ∧ t.stack.owner = (if s.ready pgStk then t.stackOldest else none) ∧ (t.stack.owner ≠ none → t.stack.first = s.xclk + 1) ∧
        (q.beats ≤ q.done + s.stack.len → t.stack.req i = none) ∧
        (q.done + s.stack.len < q.beats → ∃ q', t.stack.req i = some q' ∧ q'.done = q.done + s.stack.len ∧ q'.stamp = s.xclk ∧
          q'.beats = q.beats ∧ q'.addr = q.addr ∧ q'.wr = q.wr ∧ q'.sdram = q.sdram ∧ q'.data = q.data)) ∧
      (s.stack.first + s.stack.len ≤ s.xclk + 1 → s.stack.len = 1 → q.beats = 1 → q.done = 0 → q.sdram = false → q.addr % 64 = 0 → s.sramErr = [] →
        (q.wr = false → q.got = [] → q.poisoned = false → ∃ t, exec (.stacksTenureEnd []) s = .next t ∧
          t.resp = .data (leNat ((List.range 64).map (fun j => s.roomByte (q.addr + j)))) ∧ t.room = s.room) ∧
        (q.wr = true → q.addr + 64 ≤ 0x1FA0000 → ∃ t, exec (.stacksTenureEnd []) s = .next t ∧ t.resp = .none ∧
          (∀ j < 64, memByte t.room (q.addr + j) = BitVec.ofNat 8 (q.data.getD j 0)) ∧
          ∀ a, a < q.addr ∨ q.addr + 64 ≤ a → memByte t.room a = memByte s.room a)) ∧
      (∀ moved, s.stack.len ≤ moved ∨ s.xclk < s.stack.first + (moved - 1) + s.get F.Stk.WD_LIMIT pgStk * 1200 → exec (.stacksWatchdog moved) s = .next s) ∧
      ∀ moved, moved < s.stack.len → s.stack.first + (moved - 1) + s.get F.Stk.WD_LIMIT pgStk * 1200 ≤ s.xclk → ∃ t, exec (.stacksWatchdog moved) s = .next t ∧
        t.stack.req i = none ∧ (∀ j ≠ i, t.stack.req j = s.stack.req j) ∧ t.stack.owner = (if s.ready pgStk then t.stackOldest else none) ∧
        (t.stack.owner ≠ none → t.stack.first = s.xclk + 3) ∧
        t.get F.Stk.WD_BITES pgStk = low F.Stk.WD_BITES.w (min (s.get F.Stk.WD_BITES pgStk + 1) (2 ^ F.Stk.WD_BITES.w - 1)) ∧
        bitAt (t.get F.Hdr.EVENT_STATUS pgStk) Ev.stkWatchdog.bit = true ∧
        (stackPage i = none → t.get F.Stk.WD_MASKED pgStk = s.get F.Stk.WD_MASKED pgStk ∧ t.ring = s.ring ∧
          (q.wr = false → t.resp = if i = 0 then .busError else .poisoned)) ∧
        (∀ pg, stackPage i = some pg → bitAt (t.get F.Stk.WD_MASKED pgStk) i = true ∧ (s.ring.onRing = none → t.ring.onRing = some ⟨2, 4, pg, 0, if (s.bndOf pg).resetting then [pg] else []⟩) ∧
          ∀ r, s.ring.onRing = some r → t.ring.onRing = some r ∧ t.ring.waiting = s.ring.waiting ++ [⟨2, 4, pg, 0, if (s.bndOf pg).resetting then [pg] else []⟩])

/-- The scrubber of a die waits 256 xclk on the hub and 512 on a raster die between reads. It goes on to the next word
and after the last one to word 0, where SCRUB_PASSES counts. A single-bit error is repaired, counted in CE_COUNT and
reported; an uncorrectable word is left as it is, counted in UE_COUNT, shown in LAST_UE with source 1 and reported.
A good flit in sequence advances its link; a bad one asks for a replay, counts in LINK_RETRY and is reported; the
sixteenth failed replay in a row, or lost training, takes the link down: LINK_TRAINED 0, STK.DIE_LINK_DOWN, and
Safe-Hold cause 3 outside Dormant (R38 to R40, R430 to R432). -/
def Obligations.ScrubberAndDieLinks : Prop :=
  ∀ s : State,
    (∀ die upset x, x = tget s.scrub die {} →
      (3 ≤ die ∨ s.ready pgSram = false ∨ s.on F.Sram.SCRUB_EN pgSram = false ∨ s.modeNow = 0 ∨
        (∃ l, x.last = some l ∧ s.xclk < l + if die = 0 then 256 else 512) → exec (.scrubRead die upset) s = .next s) ∧
      (die < 3 → s.ready pgSram = true → s.on F.Sram.SCRUB_EN pgSram = true → s.modeNow ≠ 0 →
        (∀ l, x.last = some l → l + (if die = 0 then 256 else 512) ≤ s.xclk) → ∃ t e, exec (.scrubRead die upset) s = .next t ∧
        e = Nat.xor (s.sramErrAt die x.word) (low 39 upset) ∧
        tget t.scrub die {} = { word := if x.word + 1 = dieWords die then 0 else x.word + 1, last := some s.xclk } ∧
        (∀ d ≠ die, tget t.scrub d {} = tget s.scrub d {}) ∧
        t.getI F.Sram.SCRUB_PASSES pgSram die = (if x.word + 1 = dieWords die then low 32 (s.getI F.Sram.SCRUB_PASSES pgSram die + 1) else s.getI F.Sram.SCRUB_PASSES pgSram die) ∧
        (e = 0 → t.sramErrAt die x.word = 0 ∧ t.getI F.Sram.CE_COUNT pgSram die = s.getI F.Sram.CE_COUNT pgSram die ∧
          t.getI F.Sram.UE_COUNT pgSram die = s.getI F.Sram.UE_COUNT pgSram die) ∧
        (errSyndrome e ≠ 0 → singleBit (errSyndrome e) = true → t.sramErrAt die x.word = 0 ∧
          t.getI F.Sram.CE_COUNT pgSram die = low 32 (min (s.getI F.Sram.CE_COUNT pgSram die + 1) (2 ^ 32 - 1)) ∧
          bitAt (t.get F.Hdr.EVENT_STATUS pgSram) Ev.stkSramCorrected.bit = true) ∧
        (errSyndrome e ≠ 0 → singleBit (errSyndrome e) = false → t.sramErrAt die x.word = e ∧
          t.getI F.Sram.UE_COUNT pgSram die = low 32 (min (s.getI F.Sram.UE_COUNT pgSram die + 1) (2 ^ 32 - 1)) ∧
          t.get F.Sram.DIE pgSram = die ∧ t.get F.Sram.SOURCE pgSram = 1 ∧ t.get F.Sram.WORD pgSram = low 23 x.word ∧
          bitAt (t.get F.Hdr.EVENT_STATUS pgSram) Ev.stkSramUncorrected.bit = true))) ∧
    (∀ link dir seq bad x, x = tget s.flits (2 * link + dir) {} →
      (2 ≤ link ∨ 2 ≤ dir ∨ bitAt (s.get F.Stk.LINK_TRAINED pgStk) link = false ∨ low 32 seq ≠ x.next → exec (.dieLinkFlit link dir seq bad) s = .next s) ∧
      (link < 2 → dir < 2 → bitAt (s.get F.Stk.LINK_TRAINED pgStk) link = true → low 32 seq = x.next →
        exec (.dieLinkFlit link dir seq false) s = .next { s with flits := tput s.flits (2 * link + dir) ⟨low 32 (x.next + 1), none⟩ } ∧
        (∀ n, (x.replay = none ∧ n = 0 ∨ ∃ m, x.replay = some m ∧ m ≠ 15 ∧ n = m + 1) → ∃ t, exec (.dieLinkFlit link dir seq true) s = .next t ∧
          t.flits = tput s.flits (2 * link + dir) ⟨x.next, some n⟩ ∧ bitAt (t.get F.Hdr.EVENT_STATUS pgStk) Ev.stkDieLinkRetry.bit = true ∧
          t.get (linkRetryFld link) pgStk = low 32 (min (s.get (linkRetryFld link) pgStk + 1) (2 ^ 32 - 1)) ∧
          s.OnlyEvents { t with flits := s.flits } pgStk [(linkRetryFld link).key pgStk 0]) ∧
        (x.replay = some 15 → ∃ t, exec (.dieLinkFlit link dir seq true) s = .next t ∧ bitAt (t.get F.Stk.LINK_TRAINED pgStk) link = false ∧
          bitAt (t.get F.Hdr.EVENT_STATUS pgStk) Ev.stkDieLinkDown.bit = true ∧
          (s.modeNow ≠ 0 → bitAt (t.get F.Mode.SAFE_HOLD_CAUSE pgMode) 3 = true)))) ∧
    ∀ link < 2, (bitAt (s.get F.Stk.LINK_TRAINED pgStk) link = false → exec (.dieLinkTrainingLost link) s = .next s) ∧
      (bitAt (s.get F.Stk.LINK_TRAINED pgStk) link = true → ∃ t, exec (.dieLinkTrainingLost link) s = .next t ∧
        bitAt (t.get F.Stk.LINK_TRAINED pgStk) link = false ∧ bitAt (t.get F.Hdr.EVENT_STATUS pgStk) Ev.stkDieLinkDown.bit = true ∧
        (s.modeNow ≠ 0 → bitAt (t.get F.Mode.SAFE_HOLD_CAUSE pgMode) 3 = true))

/-- A frame on a port that is down is lost. A frame with errors counts in the counter of each kind, raises NET.RX_ERROR
and goes no further. A good frame counts in RX_FRAMES; with the part's own source address it only raises
NET.ADDR_CONFLICT, a peer delay message counts in PDELAY_DROPS, without a VLAN of its port it counts in VLAN_DROPS,
else its source is learned and it goes to ports other than its own. An egress queue takes a frame that fits and
drops another with BUFFER_DROPS. An idle port sends the first frame of its highest queue, the time of a PTP frame
corrected. A link comes up and goes down with its lock bits and event; a silent address leaves the table; residence
times end 1 s after their Sync left; a host slot is consumed by a write of HOST_TX_WR (R447 to R455, R459 to R461). -/
def Obligations.NetworkPorts : Prop :=
  (∀ (s : State) (out k : Nat) (q : QFrame),
    ((queueBytes (s.queue out k) + (q.bytes.length + 4) ≤ s.get F.Sw.QUEUE_LIMIT pgSw * 1024 ∧
        s.net.queues.foldl (fun a e => a + queueBytes e.2) 0 + (q.bytes.length + 4) ≤ 512 * 1024) →
      (enqueue out k q s).queue out k = s.queue out k ++ [q] ∧ (∀ o j, 4 * o + j ≠ 4 * out + k → (enqueue out k q s).queue o j = s.queue o j)) ∧
    (¬ (queueBytes (s.queue out k) + (q.bytes.length + 4) ≤ s.get F.Sw.QUEUE_LIMIT pgSw * 1024 ∧
        s.net.queues.foldl (fun a e => a + queueBytes e.2) 0 + (q.bytes.length + 4) ≤ 512 * 1024) →
      (enqueue out k q s).net = s.net ∧ bitAt ((enqueue out k q s).get F.Hdr.EVENT_STATUS pgSw) Ev.netBufferDrop.bit = true ∧
      (enqueue out k q s).get F.Sw.BUFFER_DROPS pgSw = low F.Sw.BUFFER_DROPS.w (min (s.get F.Sw.BUFFER_DROPS pgSw + 1) (2 ^ F.Sw.BUFFER_DROPS.w - 1)))) ∧
  ∀ (s : State),
    (∀ n ps bad c u bytes, (2 ≤ n ∨ s.ready (pgNet n) = false ∨ s.on F.Net.LINK_UP (pgNet n) = false) → exec (.frameReceived n ps bad c u bytes) s = .next s) ∧
    (∀ n ps bad c bytes f, n < 2 → s.ready (pgNet n) = true → s.on F.Net.LINK_UP (pgNet n) = true → f = parseFrame bytes →
      (∀ uc, frameErrors f (bytes.length + 4) (bad || decide (0 < uc)) ≠ [] → ∃ t, exec (.frameReceived n ps bad c uc bytes) s = .next t ∧ t.net = s.net ∧
        t.get F.Net.RX_FRAMES (pgNet n) = s.get F.Net.RX_FRAMES (pgNet n) ∧
        (∀ e < 4, t.get (rxCounters.getD e F.Net.RX_CONTROL) (pgNet n) = (if e ∈ frameErrors f (bytes.length + 4) (bad || decide (0 < uc))
          then low 32 (min (s.get (rxCounters.getD e F.Net.RX_CONTROL) (pgNet n) + 1) (2 ^ 32 - 1)) else s.get (rxCounters.getD e F.Net.RX_CONTROL) (pgNet n))) ∧
        bitAt (t.get F.Hdr.EVENT_STATUS (pgNet n)) Ev.netRxError.bit = true) ∧
      (frameErrors f (bytes.length + 4) bad = [] → ∃ u : State, u.net = s.net ∧ u.now = s.now ∧
        u.get F.Net.RX_FRAMES (pgNet n) = low 32 (s.get F.Net.RX_FRAMES (pgNet n) + 1) ∧ s.OnPages u [pgNet n] ∧
        (s.active pgSw = false → exec (.frameReceived n ps bad c 0 bytes) s = .next u) ∧
        (s.active pgSw = true → f.src = s.macAddr → ∃ t, exec (.frameReceived n ps bad c 0 bytes) s = .next t ∧ t.net = s.net ∧
          bitAt (t.get F.Hdr.EVENT_STATUS pgSw) Ev.netAddrConflict.bit = true) ∧
        (s.active pgSw = true → f.src ≠ s.macAddr → ∀ l3 off, ptpOf f = some (l3, off) → beAt (f.plain.drop off) 0 1 % 16 ∈ [2, 3, 10] →
          ∃ t, exec (.frameReceived n ps bad c 0 bytes) s = .next t ∧ t.net = s.net ∧
            t.get F.Ptp.PDELAY_DROPS pgPtp = low F.Ptp.PDELAY_DROPS.w (min (s.get F.Ptp.PDELAY_DROPS pgPtp + 1) (2 ^ F.Ptp.PDELAY_DROPS.w - 1))) ∧
        (s.active pgSw = true → f.src ≠ s.macAddr → ptpOf f = none →
          (u.vlanOf (n + 1) f.tag = none → exec (.frameReceived n ps bad c 0 bytes) s = .next (u.sat F.Sw.VLAN_DROPS pgSw)) ∧
          (∀ v vid pcp, u.vlanOf (n + 1) f.tag = some (v, vid, pcp) → ∃ w : State, w = learn vid f.src (n + 1) u ∧
            exec (.frameReceived n ps bad c 0 bytes) s = .next (forAll (w.forwardTo (n + 1) v vid f.dst) w (fun out z =>
              sendOut f v vid pcp (n + 1) { bytes := [], arrived := z.now, stamp := s.stampAt n ps false } (pcp / 2) out z)) ∧
            n + 1 ∉ w.forwardTo (n + 1) v vid f.dst ∧
            (s.net.learned.length < 1024 → ⟨vid, f.src, n + 1, s.now⟩ ∈ w.net.learned))))) ∧
    (∀ n ps, (∀ k < 4, s.queue (n + 1) k = []) → exec (.frameTransmit n ps) s = .next s) ∧
    (∀ n ps k q qs, n < 2 → k < 4 → s.queue (n + 1) k = q :: qs → (∀ j < 4, k < j → s.queue (n + 1) j = []) → s.ready (pgNet n) = true →
      s.on F.Net.TX_EN (pgNet n) = true → s.ready pgSw = true → q.arrived + 40 ≤ s.now → tget s.net.idle (n + 1) 0 ≤ s.now →
      ((q.kind = .plain ∨ q.kind = .correct ∨ ∃ seq, q.kind = .own seq) → ∃ t, exec (.frameTransmit n ps) s = .next t ∧ t.queue (n + 1) k = qs ∧
        tget t.net.sent (n + 1) [] = (if q.kind = .correct then (addCorrection q ((s.stampAt n ps true - q.stamp) * 32768)).bytes else q.bytes) ∧
        tget t.net.idle (n + 1) 0 = s.now + s.frameTime n q.bytes.length ∧
        t.get F.Net.TX_FRAMES (pgNet n) = low 32 (s.get F.Net.TX_FRAMES (pgNet n) + 1) ∧
        ∀ seq, q.kind = .own seq → t.ptp.reqT3 = some (seq, s.stampAt n ps true)) ∧
      ∀ key, q.kind = .twoStep key → ∃ u : State, exec (.frameTransmit n ps) s = .next (syncLeft key ((s.stampAt n ps true - q.stamp) * 32768) u) ∧
        u.queue (n + 1) k = qs ∧ tget u.net.sent (n + 1) [] = q.bytes ∧ u.net.held = s.net.held ∧ u.net.tc = s.net.tc) ∧
    (∀ n < 2, s.ready (pgNet n) = true →
      (s.on F.Net.LINK_UP (pgNet n) = false → ∃ t, exec (.netLinkUp n) s = .next t ∧ t.on F.Net.LINK_UP (pgNet n) = true ∧ t.on F.Net.BLOCK_LOCK (pgNet n) = true ∧
        t.on F.Net.LOCAL_FAULT (pgNet n) = false ∧ t.on F.Net.AM_LOCK (pgNet n) = (s.get F.Net.FEC (pgNet n) == 2) ∧
        bitAt (t.get F.Hdr.EVENT_STATUS (pgNet n)) Ev.netLinkUp.bit = true) ∧
      (s.on F.Net.LINK_UP (pgNet n) = true → exec (.netLinkUp n) s = .next s ∧ ∀ cause, 1 ≤ cause → cause ≤ 3 → ∃ t, exec (.netLinkDown n cause) s = .next t ∧
        t.on F.Net.LINK_UP (pgNet n) = false ∧ (cause = 1 → t.on F.Net.BLOCK_LOCK (pgNet n) = false ∧ t.on F.Net.AM_LOCK (pgNet n) = false) ∧
        (cause = 2 → t.on F.Net.AM_LOCK (pgNet n) = false) ∧ (cause = 3 → t.on F.Net.LOCAL_FAULT (pgNet n) = true) ∧
        bitAt (t.get F.Hdr.EVENT_STATUS (pgNet n)) Ev.netLinkDown.bit = true)) ∧
    (∀ vid mac, ∃ t, exec (.addressAgeOut vid mac) s = .next t ∧ t.get F.Sw.LEARNED pgSw = low F.Sw.LEARNED.w t.net.learned.length ∧
      ∀ e, e ∈ t.net.learned ↔ e ∈ s.net.learned ∧ ¬ (e.vid = vid ∧ e.mac = mac ∧ e.seen + s.get F.Sw.AGE_TIME pgSw * 1000000000 ≤ s.now)) ∧
    (∃ t, exec .tcEntryExpiry s = .next t ∧ (∀ e, e ∈ t.net.tc ↔ e ∈ s.net.tc ∧ ¬ (e.res.isSome = true ∧ e.left + 1000000000 ≤ s.now)) ∧
      t.regs = s.regs ∧ t.net.queues = s.net.queues) ∧
    ∀ wr owner, s.passes pgSw owner = true → ∃ u : State, u = s.set F.Sw.HOST_TX_WR pgSw wr ∧
      (u.get F.Sw.HOST_TX_RD pgSw = u.get F.Sw.HOST_TX_WR pgSw ∨ u.on F.Hdr.QUIESCE pgSw = true ∨ u.get F.Sw.HOST_TX_SIZE pgSw = 0 →
        exec (.hostTxWrite wr owner) s = .next u) ∧
      (∀ m, u.get F.Sw.HOST_TX_SIZE pgSw = m → u.get F.Sw.HOST_TX_WR pgSw < m → u.get F.Sw.HOST_TX_RD pgSw ≠ u.get F.Sw.HOST_TX_WR pgSw →
        (u.get F.Sw.HOST_TX_RD pgSw + 1) % m = u.get F.Sw.HOST_TX_WR pgSw → u.on F.Hdr.QUIESCE pgSw = false →
        u.sdramHeld (u.get F.Sw.HOST_TX_BASE pgSw * 4096 + u.get F.Sw.HOST_TX_RD pgSw * 9216) 9216 = false →
        ∃ t, exec (.hostTxWrite wr owner) s = .next t ∧ t.get F.Sw.HOST_TX_RD pgSw = u.get F.Sw.HOST_TX_WR pgSw)

/-- An Announce of another clock with fewer than 255 steps enters or refreshes its master while the table of 8 has room,
masters that have fallen silent leave it, and the best of the table is the parent. A one-step Sync of the parent, or
its Follow_Up, is complete: its time is kept, and with a known path delay theta follows. A Sync of another sender
changes nothing. A Delay_Req takes the next sequenceId and the next instant within twice its interval, and is sent
from its port; the Delay_Resp that answers it filters the path delay and is used once. A tracking or locked clock
without Syncs enters HOLDOVER with its event. A write of REQUALIFY sets ALLOW_STEP, but in Print, and starts
qualification again (R463 to R465, R470, R471, R475, R476). -/
def Obligations.MastersAndExchanges : Prop :=
  (∀ (l : List Foreign) b, bestMaster l = some b → b ∈ l) ∧
  ∀ (s : State),
    (∀ port src gm steps utc li, (s.ready pgPtp = false ∨ (port ≠ 1 ∧ port ≠ 2) ∨ 255 ≤ steps ∨ src / 65536 = s.clockId) →
      exec (.announceReceived port src gm steps utc li) s = .next s) ∧
    (∀ port src gm steps utc li, s.ready pgPtp = true → (port = 1 ∨ port = 2) → steps < 255 → src / 65536 ≠ s.clockId →
      ∃ (f : Foreign) (t : State), f = { src := src, port := port, gm := gm, steps := steps, utc := utc, logAnn := li, seen := s.now, l3 := 0 } ∧
        exec (.announceReceived port src gm steps utc li) s = .next t ∧
        t.ptp.foreign = (if s.ptp.foreign.any (fun g => g.src == src && g.port == port) then s.ptp.foreign.map (fun g => if g.src == src && g.port == port then f else g)
          else if s.ptp.foreign.length < 8 then s.ptp.foreign ++ [f] else s.ptp.foreign) ∧
        t.ptp.parent = (bestMaster t.ptp.foreign).map (·.src) ∧ (∀ b, bestMaster t.ptp.foreign = some b → t.get F.Ptp.MASTER_PORT pgPtp = low F.Ptp.MASTER_PORT.w b.port)) ∧
    (s.ready pgPtp = false ∨ (∀ f ∈ s.ptp.foreign, s.now < f.seen + s.get F.Ptp.ANN_TIMEOUT pgPtp * logNs f.logAnn) → exec .announceTimeout s = .next s) ∧
    (s.ready pgPtp = true → (∃ f ∈ s.ptp.foreign, f.seen + s.get F.Ptp.ANN_TIMEOUT pgPtp * logNs f.logAnn ≤ s.now) → ∃ t, exec .announceTimeout s = .next t ∧
      (∀ f, f ∈ t.ptp.foreign ↔ f ∈ s.ptp.foreign ∧ s.now < f.seen + s.get F.Ptp.ANN_TIMEOUT pgPtp * logNs f.logAnn) ∧
      t.ptp.parent = (bestMaster t.ptp.foreign).map (·.src)) ∧
    (∀ port src seq two t1 corr q li, (s.ready pgPtp = false ∨ s.ptp.parent ≠ some src ∨ s.get F.Ptp.MASTER_PORT pgPtp ≠ port) →
      exec (.syncReceived port src seq two t1 corr q li) s = .next s ∧ exec (.followUpReceived port src seq t1 corr) s = .next s) ∧
    (∀ port src seq t1 corr q li, s.ready pgPtp = true → s.ptp.parent = some src → s.get F.Ptp.MASTER_PORT pgPtp = port →
      exec (.syncReceived port src seq true t1 corr q li) s = .next (s.updPtp (fun x => { x with waiting := some (seq, li, ⟨corr, stampTime (s.epochOf q) q, q⟩) })) ∧
      (∃ t, exec (.syncReceived port src seq false t1 corr q li) s = .next t ∧ t.ptp.last = some ⟨t1 + corr, stampTime (s.epochOf q) q, q⟩ ∧
        t.ptp.used = false ∧ t.ptp.waiting = none ∧ t.ptp.syncAt = s.now ∧ t.ptp.syncLog = li ∧
        ∀ m, s.ptp.mpd = some m → t.ptp.theta = stampTime (s.epochOf q) q - (t1 + corr) - m) ∧
      ((s.ptp.waiting = none ∨ ∃ n l y, s.ptp.waiting = some (n, l, y) ∧ n ≠ seq) → exec (.followUpReceived port src seq t1 corr) s = .next s) ∧
      ∀ l y, s.ptp.waiting = some (seq, l, y) → ∃ t, exec (.followUpReceived port src seq t1 corr) s = .next t ∧
        t.ptp.last = some ⟨t1 + y.master + corr, y.t2, y.q⟩ ∧ t.ptp.used = false ∧ t.ptp.waiting = none ∧ t.ptp.syncAt = s.now ∧ t.ptp.syncLog = l ∧
        ∀ m, s.ptp.mpd = some m → t.ptp.theta = y.t2 - (t1 + y.master + corr) - m) ∧
    (s.ptp.parent = none ∨ s.ready pgPtp = false ∨ s.ready pgSw = false ∨ s.now < s.ptp.reqNext → exec .delayReqSend s = .next s) ∧
    (∀ p f, s.ptp.parent = some p → s.ptp.foreign.find? (fun f => f.src == p && f.port == s.get F.Ptp.MASTER_PORT pgPtp) = some f → s.ready pgPtp = true → s.ready pgSw = true →
      s.ptp.reqNext ≤ s.now → ∃ u : State, u.ptp.reqSeq = low 16 (s.ptp.reqSeq + 1) ∧ u.ptp.reqT3 = none ∧ s.now ≤ u.ptp.reqNext ∧
        u.ptp.reqNext ≤ s.now + 2 * logNs (s.ptp.respLog.getD (sext 8 (s.get F.Ptp.DREQ_LOG pgPtp))) ∧ u.regs = s.regs ∧ u.net = s.net ∧
        (s.vlanOf 0 none = none → exec .delayReqSend s = .next (u.sat F.Sw.VLAN_DROPS pgSw)) ∧
        ((s.vlanOf 0 none).isSome = true → f.port ≠ 0 → ∃ q : QFrame, q.kind = .own (low 16 (s.ptp.reqSeq + 1)) ∧ exec .delayReqSend s = .next (enqueue f.port 3 q u))) ∧
    (∀ port src req seq t4 corr li, (s.ready pgPtp = false ∨ s.ptp.parent ≠ some src ∨ s.get F.Ptp.MASTER_PORT pgPtp ≠ port ∨ req ≠ s.clockId * 65536 + 1 ∨
        s.ptp.last = none ∨ s.ptp.reqT3 = none ∨ ∃ n q3, s.ptp.reqT3 = some (n, q3) ∧ n ≠ seq) → exec (.delayRespReceived port src req seq t4 corr li) s = .next s) ∧
    (∀ port src seq t4 corr li q3 y, s.ready pgPtp = true → s.ptp.parent = some src → s.get F.Ptp.MASTER_PORT pgPtp = port → s.ptp.last = some y → s.ptp.reqT3 = some (seq, q3) →
      ∃ (d : Int) (t : State), d = Config.roundReal (((stampTime s.epochNow y.q - stampTime s.epochNow q3 + t4 - y.master - corr : Int) : Rat) / 2) ∧
        exec (.delayRespReceived port src (s.clockId * 65536 + 1) seq t4 corr li) s = .next t ∧ t.ptp.reqT3 = none ∧ t.ptp.used = true ∧ t.ptp.respLog = some li ∧
        t.ptp.mpd = some (match s.ptp.mpd with
          | none => d
          | some m => m + (d - m) / (2 ^ s.get F.Ptp.DELAY_FILT pgPtp : Nat))) ∧
    ((s.servo ≠ 2 ∧ s.servo ≠ 3) ∨ s.now < s.ptp.syncAt + s.get F.Ptp.LOSS_SYNCS pgPtp * logNs s.ptp.syncLog → exec .syncLoss s = .next s) ∧
    ((s.servo = 2 ∨ s.servo = 3) → s.ptp.syncAt + s.get F.Ptp.LOSS_SYNCS pgPtp * logNs s.ptp.syncLog ≤ s.now → ∃ t, exec .syncLoss s = .next t ∧
      t.servo = 4 ∧ t.ptp.hold = some 1 ∧ t.ptp.exch = [] ∧ t.ptp.parent = s.ptp.parent ∧ bitAt (t.get F.Hdr.EVENT_STATUS pgPtp) Ev.ptpHoldover.bit = true) ∧
    (∀ allow owner, s.passes pgPtp owner = true → ∃ t, exec (.ptpRequalify allow owner) s = .next t ∧
      t.get F.Ptp.ALLOW_STEP pgPtp = (if s.get F.Mode.MODE pgMode = 3 then s.get F.Ptp.ALLOW_STEP pgPtp else bit allow) ∧
      (s.get F.Mode.MODE pgMode = 3 → allow ≠ s.on F.Ptp.ALLOW_STEP pgPtp → bitAt (t.get F.Hdr.EVENT_STATUS pgPtp) Ev.regWriteWhileRunning.bit = true) ∧
      (2 ≤ s.servo ∧ s.servo ≤ 4 → t.servo = 1 ∧ t.ptp.exch = []) ∧ (¬ (2 ≤ s.servo ∧ s.servo ≤ 4) → t.servo = s.servo ∧ t.ptp = s.ptp))

/-- A count written to CONV_COUNT is converted with the log entry of largest EPOCH_C not above it, and CONV_VALID tells
whether there is one. A read of COUNT_LO captures count and time for its requester only. TRIG_ARM arms each named
trigger whose target is ahead; a late one raises its event and fires with LATE_POLICY 1, and stays disarmed with 0;
TRIG_DISARM disarms the named ones. An armed trigger fires once T has reached its target, not before: with OUT_EN
its pulse stands 3 tsclk later for WIDTH tsclk, it disarms with PERIOD zero and else moves to its next target. A
selected edge enters its FIFO of 16, or is dropped with one event; CAP_POP removes the oldest entry (R468, R469,
R478, R479, R481, R487). -/
def Obligations.ClockReadsTriggersAndCaptures : Prop :=
  (∀ (s : State) n e, s.epochFor n = some e → e ∈ s.ptp.log ∧ e.c ≤ n ∧ ∀ x ∈ s.ptp.log, x.c ≤ n → x.c ≤ e.c) ∧
  (∀ (s : State) n, s.epochFor n = none → ∀ x ∈ s.ptp.log, n < x.c) ∧
  ∀ (s : State),
    (∀ count owner, s.passes pgPtp owner = true → ∃ t, exec (.convCountWrite count owner) s = .next t ∧ t.ptp = s.ptp ∧
      t.get F.Ptp.CONV_COUNT_LO pgPtp = low 32 count ∧ t.get F.Ptp.CONV_COUNT_HI pgPtp = low 32 (count / 2 ^ 32) ∧
      (s.epochFor (low 64 count) = none → t.get F.Ptp.CONV_VALID pgPtp = 0) ∧
      ∀ e, s.epochFor (low 64 count) = some e → t.get F.Ptp.CONV_VALID pgPtp = 1 ∧
        t.get F.Ptp.CONV_NS pgPtp = (secNs (e.t + (low 64 count - e.c) * e.rate)).2 ∧
        t.get2 F.Ptp.CONV_SEC_LO F.Ptp.CONV_SEC_HI pgPtp 0 = (secNs (e.t + (low 64 count - e.c) * e.rate)).1) ∧
    (∀ owner, s.silent = true → exec (.timeCaptureRead owner) s = .next s) ∧
    (∀ owner, s.silent = false → ∃ t, exec (.timeCaptureRead owner) s = .next t ∧ t.resp = .data (low 32 s.counter) ∧ t.regs = s.regs ∧
      t.capWords (agentOf owner) = [low 32 s.counter, s.counter / 2 ^ 32, low 32 (secNs s.timeNow).1, (secNs s.timeNow).1 / 2 ^ 32, (secNs s.timeNow).2] ∧
      ∀ a, a ≠ agentOf owner → t.capWords a = s.capWords a) ∧
    (∀ mask owner, s.passes pgTrig owner = true → ∃ t, exec (.trigArm mask owner) s = .next t ∧ ∀ k < 8,
      (bitAt mask k = false → t.armed k = s.armed k ∧ t.trigOf k = s.trigOf k) ∧
      (bitAt mask k = true → s.timeNow < s.trigTarget k 0 → t.armed k = true ∧ t.trigOf k = { s.trigOf k with j := 0 }) ∧
      (bitAt mask k = true → s.trigTarget k 0 ≤ s.timeNow → bitAt (t.get F.Hdr.EVENT_STATUS pgTrig) Ev.ptpTriggerLate.bit = true ∧
        t.armed k = (s.onI F.Trig.LATE_POLICY pgTrig k && decide (s.trigPeriod k ≠ 0)) ∧
        (s.onI F.Trig.LATE_POLICY pgTrig k = true → s.trigPeriod k ≠ 0 → (t.trigOf k).j = 1) ∧
        (s.onI F.Trig.LATE_POLICY pgTrig k = true → s.onI F.Trig.OUT_EN pgTrig k = true →
          (t.trigOf k).from_ = s.now + 6 ∧ (t.trigOf k).to_ = s.now + 6 + 2 * s.getI F.Trig.WIDTH pgTrig k))) ∧
    (∀ mask owner, s.passes pgTrig owner = true → ∃ t, exec (.trigDisarm mask owner) s = .next t ∧ t.trig = s.trig ∧
      ∀ k < 8, t.armed k = (s.armed k && !bitAt mask k)) ∧
    (∀ k, (8 ≤ k ∨ s.armed k = false ∨ s.timeNow < s.trigTarget k (s.trigOf k).j) → exec (.triggerFire k) s = .next s) ∧
    (∀ k, k < 8 → s.armed k = true → s.trigTarget k (s.trigOf k).j ≤ s.timeNow → ∃ t, exec (.triggerFire k) s = .next t ∧
      t.armed k = decide (s.trigPeriod k ≠ 0) ∧ (t.trigOf k).j = (s.trigOf k).j + (if s.trigPeriod k = 0 then 0 else 1) ∧
      (s.onI F.Trig.OUT_EN pgTrig k = true → (t.trigOf k).from_ = s.now + 6 ∧ (t.trigOf k).to_ = s.now + 6 + 2 * s.getI F.Trig.WIDTH pgTrig k) ∧
      (s.onI F.Trig.OUT_EN pgTrig k = false → (t.trigOf k).from_ = (s.trigOf k).from_ ∧ (t.trigOf k).to_ = (s.trigOf k).to_) ∧
      ∀ i < 8, i ≠ k → t.armed i = s.armed i ∧ t.trigOf i = s.trigOf i) ∧
    (∀ c rising, (4 ≤ c ∨ s.ready pgTrig = false ∨ bitAt (s.getI F.Cap.EDGE pgTrig c) (if rising then 0 else 1) = false) →
      exec (.tcapEdge c rising) s = .next s) ∧
    (∀ c rising, c < 4 → s.ready pgTrig = true → bitAt (s.getI F.Cap.EDGE pgTrig c) (if rising then 0 else 1) = true →
      ((tget s.tcap c {}).fifo.length < 16 → ∃ t, exec (.tcapEdge c rising) s = .next t ∧ t = { s with tcap := t.tcap } ∧
        (tget t.tcap c {}).fifo = (tget s.tcap c {}).fifo ++ [(s.count, s.timeOf s.count / 2 ^ 40, rising)] ∧ ∀ i, i ≠ c → tget t.tcap i {} = tget s.tcap i {}) ∧
      (16 ≤ (tget s.tcap c {}).fifo.length → (tget s.tcap c {}).told = true → exec (.tcapEdge c rising) s = .next s) ∧
      (16 ≤ (tget s.tcap c {}).fifo.length → (tget s.tcap c {}).told = false → ∃ t, exec (.tcapEdge c rising) s = .next t ∧
        (tget t.tcap c {}).fifo = (tget s.tcap c {}).fifo ∧ (tget t.tcap c {}).told = true ∧ (∀ i, i ≠ c → tget t.tcap i {} = tget s.tcap i {}) ∧
        bitAt (t.get F.Hdr.EVENT_STATUS pgTrig) Ev.ptpCaptureOverflow.bit = true)) ∧
    (∀ mask owner, s.passes pgTrig owner = true → ∃ t, exec (.capPop mask owner) s = .next t ∧ t = { s with tcap := t.tcap } ∧
      ∀ c < 4, (tget t.tcap c {}).fifo = (if bitAt mask c then (tget s.tcap c {}).fifo.drop 1 else (tget s.tcap c {}).fifo) ∧
        ((tget s.tcap c {}).told = true → (tget t.tcap c {}).told = (!bitAt mask c || decide (1 < (tget s.tcap c {}).fifo.length))))

/-- A part in a role sends a heartbeat once per multiple of 25,000 tsclk. A guarded part renews each 125,000 tsclk, with
an event where the renewal before was not acknowledged. A path without heartbeats goes down with its event, and the
loss of both ends a rejoin. LEASE_EXPIRY and RELEASE fence with causes 1 and 2; CLAIM waits for its conditions, and
TAKEOVER_TEST takes the lease under R503 or R504 and in no other case: the next EPOCH, one takeover more, unguarded.
The lane PLL locks outside Dormant and reset, and its loss stops the pair lanes (R298, R491, R493, R501 to R504). -/
def Obligations.PairLeaseAndRoles : Prop :=
  ∀ (s : State),
    (s.ready pgPair = false ∨ s.role = 0 ∨ s.counter / 25000 ≤ s.pair.slot → exec .heartbeatSend s = .next s) ∧
    (s.ready pgPair = true → s.role ≠ 0 → s.pair.slot < s.counter / 25000 → ∃ t, exec .heartbeatSend s = .next t ∧ t = { s with pair := t.pair } ∧
      t.pair.slot = s.counter / 25000 ∧ t.pair.frameSeq = low 8 (s.pair.frameSeq + 1) ∧ t.pair.sentPin = s.hbFrame (low 8 (s.pair.frameSeq + 1)) ∧
      (s.on F.Pair.PLL_LOCKED pgPair = true → t.pair.sentLane = s.hbBody (low 8 (s.pair.frameSeq + 1)))) ∧
    (s.pairOn = false ∨ s.role ≠ 4 ∨ s.on F.Pair.GUARDED pgPair = false ∨ s.counter < s.pair.renewAt → exec .renewal s = .next s) ∧
    (s.pairOn = true → s.role = 4 → s.on F.Pair.GUARDED pgPair = true → s.pair.renewAt ≤ s.counter → ∃ t, exec .renewal s = .next t ∧ t.role = 4 ∧
      t.get F.Pair.RENEW_SEQ pgPair = low 8 (s.get F.Pair.RENEW_SEQ pgPair + 1) ∧ t.pair.renewT = s.counter ∧ t.pair.renewAck = false ∧
      t.pair.renewAt = s.counter + 125000 ∧ t.pair.expiry = s.pair.expiry ∧
      (s.pair.renewAck = false → bitAt (t.get F.Hdr.EVENT_STATUS pgPair) Ev.pairRenewMissed.bit = true)) ∧
    (∀ pin, (s.on (if pin then F.Pair.HB_PIN_OK else F.Pair.HB_LANE_OK) pgPair = false ∨ s.pathDown pin = false) → exec (.hbPathTimeout pin) s = .next s) ∧
    (∀ pin, s.on (if pin then F.Pair.HB_PIN_OK else F.Pair.HB_LANE_OK) pgPair = true → s.pathDown pin = true → ∃ t, exec (.hbPathTimeout pin) s = .next t ∧
      t.get (if pin then F.Pair.HB_PIN_OK else F.Pair.HB_LANE_OK) pgPair = 0 ∧ bitAt (t.get F.Hdr.EVENT_STATUS pgPair) Ev.pairHbLost.bit = true ∧
      (s.pathDown (!pin) = false ∨ s.pair.join = none → t.role = s.role ∧ t.pair.join = s.pair.join) ∧
      (s.pathDown (!pin) = true → s.pair.join.isSome = true → t.role = 1 ∧ t.pair.join = none)) ∧
    (s.pairOn = false ∨ s.leaseOver = false → exec .leaseExpiry s = .next s) ∧
    (s.pairOn = true → s.leaseOver = true → ∃ t, exec .leaseExpiry s = .next t ∧ t.role = 5 ∧ t.get F.Pair.FENCE_CAUSE pgPair = 1 ∧ t.pair.expiry = none ∧
      bitAt (t.get F.Hdr.EVENT_STATUS pgPair) Ev.pairFenced.bit = true) ∧
    (∃ P : Prop, (P ↔ s.pairOn = true ∧ s.leaseMode = true ∧
        ((s.role = 3 ∧ s.activeSilent (if s.pair.activeAt.isNone then s.pair.entered else 0) = true ∧ s.leaseView < s.counter) ∨
         ((s.role = 1 ∨ s.role = 5) ∧ (s.pair.claim = true ∨ (s.role = 1 ∧ s.on F.Pair.FIRST_ACTIVE pgPair = true ∧ s.pair.activeAt = none)) ∧
            s.activeSilent s.pair.enabledAt = true))) ∧
      (¬ P → exec .takeoverTest s = .next s) ∧
      (P → ∃ t, exec .takeoverTest s = .next t ∧ t.role = 4 ∧ t.on F.Pair.GUARDED pgPair = false ∧
        t.get F.Pair.EPOCH pgPair = (s.pair.epochSeen.getD (s.get F.Pair.EPOCH pgPair) + 1) % 2 ^ 14 ∧
        t.get F.Pair.TAKEOVERS pgPair = (s.get F.Pair.TAKEOVERS pgPair + 1) % 2 ^ 32 ∧ t.pair.claim = false ∧ t.pair.expiry = none ∧
        bitAt (t.get F.Hdr.EVENT_STATUS pgPair) Ev.pairTakeover.bit = true)) ∧
    (∀ claim owner, s.passes pgPair owner = true → (s.pairOn = false ∨ s.role ≠ 4 → exec (.pairRelease claim owner) s = .next s) ∧
      (s.pairOn = true → s.role = 4 → ∃ t, exec (.pairRelease claim owner) s = .next t ∧ t.role = 5 ∧ t.get F.Pair.FENCE_CAUSE pgPair = 2 ∧
        t.pair.claim = false ∧ bitAt (t.get F.Hdr.EVENT_STATUS pgPair) Ev.pairFenced.bit = true)) ∧
    (∀ owner, s.passes pgPair owner = true → (s.pairOn = false ∨ (s.role ≠ 1 ∧ s.role ≠ 5) → exec (.pairClaim owner) s = .next s) ∧
      (s.pairOn = true → s.role = 1 ∨ s.role = 5 → exec (.pairClaim owner) s = .next (s.updPair (fun x => { x with claim := true })))) ∧
    (s.modeNow = 0 ∨ s.mode.porst = true → exec .pairPllLock s = .next s) ∧
    (s.modeNow ≠ 0 → s.mode.porst = false → exec .pairPllLock s = .next (s.set F.Pair.PLL_LOCKED pgPair 1)) ∧
    exec .pairPllLockLoss s = .next ((s.set F.Pair.PLL_LOCKED pgPair 0).updPair (fun x => { x with tx := [] }))

/-- A frame without 0xB5 or its CRC, a HEARTBEAT on an unlocked lane or of another length, and either while the page is
not READY does nothing. A good one makes its path up and shows the role and mode of the partner. An ACTIVE part
whose lease is over fences with cause 1, one that is outranked with cause 7; else SB_READY makes it guarded with a
lease of 500,000 tsclk, another role without SB_READY ends that, and the acknowledgement of its last renewal moves
its expiry to 500,000 tsclk after that renewal. A STANDBY part acknowledges a new renewal and views the lease
550,000 tsclk ahead. A ready SYNCING part that is accepted becomes STANDBY. A SOLO or FENCED part keeps its role
(R489, R492, R493, R500 to R502). -/
def Obligations.PairHeartbeats : Prop :=
  ∀ (s : State),
    (∀ lane body, (2 ≤ lane ∨ s.ready pgPair = false ∨ s.pairLocked lane = false ∨ body.length ≠ 12) → exec (.heartbeatReceived lane body) s = .next s) ∧
    (∀ f, (s.ready pgPair = false ∨ bits (low 64 f) 56 8 ≠ 0xB5 ∨ low 64 f % 256 ≠ ringCrc (msbBits 56 (low 64 f / 256))) → exec (.hbPinFrameReceived f) s = .next s) ∧
    ∀ (i : Instr) (b : Beat),
      ((∃ lane body m, m = (⟨0x81, 0, body, 0, 0⟩ : Msg) ∧ i = .heartbeatReceived lane body ∧ lane < 2 ∧ s.pairLocked lane = true ∧ body.length = 12 ∧
          b = ⟨false, m.le 0 2, m.le 2 1 % 8, bits (m.le 2 1) 4 3, bitAt (m.le 2 1) 7, m.le 3 1, m.le 4 1, some (m.le 8 4)⟩) ∨
        (∃ f, i = .hbPinFrameReceived f ∧ bits (low 64 f) 56 8 = 0xB5 ∧ low 64 f % 256 = ringCrc (msbBits 56 (low 64 f / 256)) ∧
          b = ⟨true, bits (low 64 f) 40 16, bits (low 64 f) 37 3, bits (low 64 f) 34 3, bitAt (low 64 f) 33, bits (low 64 f) 25 8, bits (low 64 f) 17 8, none⟩)) →
      s.ready pgPair = true → s.pair.mirror = [] → (∀ j, s.pair.join = some j → j.good = false ∨ j.ended = true) →
      (s.role = 1 → s.on F.Pair.AUTO_REJOIN pgPair = false) → (s.pair.join = none ∨ b.cfg = none ∨ s.on F.Pair.CFG_MATCH pgPair = false) →
      ∃ t, exec i s = .next t ∧ t.on (if b.pin then F.Pair.HB_PIN_OK else F.Pair.HB_LANE_OK) pgPair = true ∧
        (if b.pin then t.pair.pinAt else t.pair.laneAt) = some s.counter ∧ t.get F.Pair.PARTNER_ROLE pgPair = b.role ∧ t.pair.partnerMode = b.mode ∧
        (s.pairOn = false ∨ s.role = 0 ∨ s.role = 5 → t.role = s.role) ∧
        (s.pairOn = true → s.role = 4 → s.leaseOver = true → t.role = 5 ∧ t.get F.Pair.FENCE_CAUSE pgPair = 1) ∧
        (s.pairOn = true → s.role = 4 → s.leaseOver = false → s.outranked b = true → t.role = 5 ∧ t.get F.Pair.FENCE_CAUSE pgPair = 7) ∧
        (s.pairOn = true → s.role = 4 → s.leaseOver = false → s.outranked b = false → t.role = 4 ∧
          (b.sb = true → b.role ≠ 4 → s.on F.Pair.GUARDED pgPair = false → t.on F.Pair.GUARDED pgPair = true ∧ t.pair.expiry = some (s.counter + 500000)) ∧
          (b.role ≠ 3 → (b.sb = false ∨ b.role = 4) → t.on F.Pair.GUARDED pgPair = false) ∧
          (s.on F.Pair.GUARDED pgPair = true → b.role = 3 → t.on F.Pair.GUARDED pgPair = true ∧ t.pair.expiry =
            (if s.pair.renewAck = false ∧ b.ack = s.get F.Pair.RENEW_SEQ pgPair then some (s.pair.renewT + 500000) else s.pair.expiry))) ∧
        (s.pairOn = true → s.role = 3 → t.role = 3 ∧ (b.role = 4 → b.renew ≠ s.pair.seen →
          t.get F.Pair.ACK_SEQ pgPair = b.renew ∧ t.pair.view = some (s.counter + 550000))) ∧
        (s.pairOn = true → s.role = 2 → b.role = 4 → b.sb = true → s.pair.sbReady = true → t.role = 3 ∧ t.pair.join = none)

/-- A LINE_CRC that finds its partner is compared: equal ones leave the counts, different ones count a divergence, name
port, folio and line and raise the event; one without partner waits among 64 of its port. A latch of an ACTIVE
sender gives each channel that is valid on both parts a sample when it lies within a quarter count of an integer:
the first sets COUNT_OFFSET, one that differs at two frames in a row replaces it with the event. A mirrored update
waits while its page is not READY, past PENDING, or its lock is held by another; then the engine writes the words at
their offsets, or requests the commit at its TARGET and releases its lock; a refused request and 10 ms without the
lock count in MIRROR_LATE_COUNT with the event (R495, R497, R507). -/
def Obligations.PairComparesAndMirrors : Prop :=
  ∀ (s : State),
    (∀ port folio line crc, s.pairHears 0 = false → exec (.lineCrcReceived port folio line crc) s = .next s) ∧
    (∀ port folio line crc p n l c, s.pairHears 0 = true → p = low 6 port → n = low 32 folio → l = low 24 line → c = low 32 crc →
      (s.pairOn = false ∨ s.paired p = false ∨ s.comparing = false →
        exec (.lineCrcReceived port folio line crc) s = .next (s.updPair (fun x => { x with peerLineAt := some s.counter }))) ∧
      (s.pairOn = true → s.paired p = true → s.comparing = true →
        (∀ e, (tget s.pair.own p []).find? (fun e => e.1 == n && e.2.1 == l) = some e →
          ∃ t, exec (.lineCrcReceived port folio line crc) s = .next t ∧
            tget t.pair.own p [] = (tget s.pair.own p []).filter (fun e => !(e.1 == n && e.2.1 == l)) ∧
            (e.2.2 = c → t.get F.Pair.DIVERGED_LINES pgPair = s.get F.Pair.DIVERGED_LINES pgPair) ∧
            (e.2.2 ≠ c → t.get F.Pair.DIVERGED_LINES pgPair = low 32 (min (s.get F.Pair.DIVERGED_LINES pgPair + 1) (2 ^ 32 - 1)) ∧
              t.get F.Pair.LAST_DIV_FOLIO pgPair = n ∧ t.get F.Pair.PORT pgPair = p ∧ t.get F.Pair.LINE pgPair = l ∧
              bitAt (t.get F.Hdr.EVENT_STATUS pgPair) Ev.pairDiverged.bit = true)) ∧
        ((tget s.pair.own p []).find? (fun e => e.1 == n && e.2.1 == l) = none →
          ∃ t, exec (.lineCrcReceived port folio line crc) s = .next t ∧ t.pair.own = s.pair.own ∧
            tget t.pair.peer p [] = (if (tget s.pair.peer p []).length < 64 then tget s.pair.peer p [] ++ [(n, l, c)] else (tget s.pair.peer p [] ++ [(n, l, c)]).drop 1) ∧
            t.get F.Pair.UNMATCHED_LINES pgPair = (if (tget s.pair.peer p []).length < 64 then s.get F.Pair.UNMATCHED_LINES pgPair
              else low 32 (min (s.get F.Pair.UNMATCHED_LINES pgPair + 1) (2 ^ 32 - 1)))))) ∧
    (∀ seq valid pos, (s.pairHears 0 = false ∨ s.pairOn = false ∨ s.role = 0 ∨ 3 < s.role ∨ s.get F.Pair.PARTNER_ROLE pgPair ≠ 4 ∨
        s.pair.latchIn.find? (fun l => l.1 == low 8 seq) = none) → exec (.posLatchReceived seq valid pos) s = .next s) ∧
    (∀ seq valid pos l, s.pairHears 0 = true → s.pairOn = true → 1 ≤ s.role → s.role ≤ 3 → s.get F.Pair.PARTNER_ROLE pgPair = 4 →
      s.pair.latchIn.find? (fun l => l.1 == low 8 seq) = some l → ∃ t, exec (.posLatchReceived seq valid pos) s = .next t ∧ ∀ ch < 4,
        ∃ (o u : OffsetX) (was now : Nat), o = tget s.pair.offs ch {} ∧ u = tget t.pair.offs ch {} ∧ was = s.get2 F.Pair.COUNT_OFFSET_LO F.Pair.COUNT_OFFSET_HI pgPair ch ∧
          now = t.get2 F.Pair.COUNT_OFFSET_LO F.Pair.COUNT_OFFSET_HI pgPair ch ∧
          (bitAt (low 4 valid) ch = false ∨ bitAt l.2.1 ch = false ∨ offsetSample (pos.getD ch 0) (l.2.2.getD ch 0) = none → u = o ∧ now = was) ∧
          (∀ k, bitAt (low 4 valid) ch = true → bitAt l.2.1 ch = true → offsetSample (pos.getD ch 0) (l.2.2.getD ch 0) = some k → was < 2 ^ 48 →
            (o.set = false → u = { set := true } ∧ now = unsext 48 k) ∧
            (o.set = true → unsext 48 k = was → u = { o with differed := none } ∧ now = was) ∧
            (o.set = true → unsext 48 k ≠ was → o.differed = some ((low 8 seq + 255) % 256) → u = { o with differed := none } ∧ now = unsext 48 k ∧
              bitAt (t.get F.Hdr.EVENT_STATUS pgPair) Ev.pairCountSlip.bit = true) ∧
            (o.set = true → unsext 48 k ≠ was → o.differed ≠ some ((low 8 seq + 255) % 256) → u = { o with differed := some (low 8 seq) } ∧ now = was))) ∧
    (∀ (i : Instr) (m : MirrorOp),
      ((∃ region reg target off words, i = .mirrorWriteReceived region reg target off words ∧ 1 ≤ words.length ∧ words.length ≤ 12 ∧
          m = ⟨low 2 region, low 16 target, false, reg, low 32 off, words.map (low 32), s.counter⟩) ∨
        (∃ region target, i = .mirrorCommitReceived region target ∧ m = ⟨low 2 region, low 16 target, true, false, 0, [], s.counter⟩)) →
      (s.pairHears 1 = false ∨ s.pairOn = false → exec i s = .next s) ∧
      (s.pairHears 1 = true → s.pairOn = true → ∃ (v : State) (h : MirrorOp), v = s.updPair (fun x => { x with mirror := x.mirror ++ [m] }) ∧ h = (s.pair.mirror ++ [m]).headD m ∧
        (s.ready (pgScr h.region) = false ∨ 2 ≤ s.cstate (pgScr h.region) ∨
          (∃ n, s.binding (pgScr h.region) = some n ∧ s.onI F.Lock.HELD pgLocks n = true ∧ s.outbids n 0xA0 = false ∧ s.getI F.Lock.OWNER pgLocks n ≠ 0xA0) → exec i s = .next v) ∧
        (s.pair.mirror = [] → s.ready (pgScr m.region) = true → s.cstate (pgScr m.region) < 2 → ∀ (w : State),
          ((s.binding (pgScr m.region) = none ∧ w = s.updPair (fun x => { x with mirror := [] })) ∨
            (∃ n < 64, s.binding (pgScr m.region) = some n ∧ (s.onI F.Lock.HELD pgLocks n = false ∨ s.outbids n 0xA0 = true ∨ s.getI F.Lock.OWNER pgLocks n = 0xA0) ∧
              w = (lockAcquire n 0xA0 v).updPair (fun x => { x with mirror := [] }))) →
          (m.commit = false → exec i s = .next (forAll (List.range m.words.length) w (fun i u =>
            if m.reg then shadowReg (pgScr m.region) (m.off + 4 * i - 0x800) (m.words.getD i 0) u
            else shadowWord (pgScr m.region) ((m.off + 4 * i) % 2 ^ 21) (m.words.getD i 0) u))) ∧
          (m.commit = true → s.binding (pgScr m.region) = none → w.mirrorRefused (pgScr m.region) m.target = false →
            exec i s = .next (commitWrite (pgScr m.region) m.target true false true w)) ∧
          (m.commit = true → ∀ n, s.binding (pgScr m.region) = some n → w.mirrorRefused (pgScr m.region) m.target = false →
            exec i s = .next (lockRelease n 0xA0 (commitWrite (pgScr m.region) m.target true false true w))) ∧
          (m.commit = true → w.mirrorRefused (pgScr m.region) m.target = true → ∃ t, exec i s = .next t ∧
            t.get F.Pair.MIRROR_LATE_COUNT pgPair = low 32 (min (s.get F.Pair.MIRROR_LATE_COUNT pgPair + 1) (2 ^ 32 - 1)) ∧
            bitAt (t.get F.Hdr.EVENT_STATUS pgPair) Ev.pairMirrorLate.bit = true)))) ∧
    (∀ region, s.pair.mirror = [] → exec (.mirrorLockTimeout region) s = .next s) ∧
    (∀ region m rest n, s.pairOn = true → s.pair.mirror = m :: rest → s.ready (pgScr m.region) = true → s.cstate (pgScr m.region) < 2 →
      s.binding (pgScr m.region) = some n → s.onI F.Lock.HELD pgLocks n = true → s.outbids n 0xA0 = false → s.getI F.Lock.OWNER pgLocks n ≠ 0xA0 →
      (m.region ≠ region ∨ s.counter < m.since + 5000000 → exec (.mirrorLockTimeout region) s = .next s) ∧
      (m.region = region → m.since + 5000000 ≤ s.counter → rest.all (fun q => q.region == region && q.target == m.target) = true →
        ∃ t, exec (.mirrorLockTimeout region) s = .next t ∧ t.pair.mirror = [] ∧
          t.get F.Pair.MIRROR_LATE_COUNT pgPair = low 32 (min (s.get F.Pair.MIRROR_LATE_COUNT pgPair + 1) (2 ^ 32 - 1)) ∧
          bitAt (t.get F.Hdr.EVENT_STATUS pgPair) Ev.pairMirrorLate.bit = true))

/-- PAIR_JOIN without AUTO_REJOIN, and the retry of AUTO_REJOIN after its time, make a fitting LISTEN part SYNCING, send
SNAP_REQ and write ENABLE 0 on the firing pages of PAIR_PORTS; otherwise nothing changes. SNAP_REQ at the ACTIVE
part sends the objects of Table 15-6, JOIN_PORT and SNAP_END, and shows its size. The joining part takes each
SNAP_DATA into the CRC and the count, keeps each JOIN_PORT, and at SNAP_END fails with reason 2 when the CRC
differs, waits while a port still runs, and else goes on to the restart with JOIN_FOLIO = N + 2 and PAIR.SNAP_DONE.
No SNAP_END within 100 ms fails it with reason 6. -/
def Obligations.PairRejoin : Prop :=
  ∀ (s : State),
    (∀ (i : Instr), ((∃ owner, i = .pairJoin owner ∧ s.passes pgPair owner = true ∧ s.on F.Pair.AUTO_REJOIN pgPair = false) ∨
        (i = .rejoinRetry ∧ s.on F.Pair.AUTO_REJOIN pgPair = true ∧ ∃ t, s.pair.retryAt = some t ∧ t ≤ s.counter)) →
      (s.pairOn = false ∨ s.role ≠ 1 ∨ s.partnerFits = false ∨ s.firstStart = true → exec i s = .next s) ∧
      (s.pairOn = true → s.role = 1 → s.partnerFits = true → s.firstStart = false → ∃ m, m.role = 2 ∧ m.get F.Pair.SNAP_STATUS_STATE pgPair = 2 ∧
        m.get F.Pair.UNITS pgPair = 0 ∧ m.pair.join = some { since := s.counter } ∧ m.pair.sbReady = false ∧ m.pair.retryAt = none ∧
        exec i s = .next (forAll s.pairPorts (pairSend 0x86 (leBytes 4 0) m) (fun p => engineWrite (pgPort p) 8 0 (controlEnable (pgPort p) false 0))))) ∧
    (∀ owner, s.passes pgPair owner = true → s.on F.Pair.AUTO_REJOIN pgPair = true → exec (.pairJoin owner) s = .next s) ∧
    (s.pairOn = false ∨ s.pair.retryAt = none ∨ s.role ≠ 1 ∨ s.on F.Pair.AUTO_REJOIN pgPair = false ∨ (∃ t, s.pair.retryAt = some t ∧ s.counter < t) →
      exec .rejoinRetry s = .next s) ∧
    (s.pairHears 1 = false ∨ s.pairOn = false ∨ s.role ≠ 4 → exec .snapReqReceived s = .next s) ∧
    (s.pairHears 1 = true → s.pairOn = true → s.role = 4 → ∃ t, exec .snapReqReceived s = .next t ∧ t.get F.Pair.UNITS pgPair = 25215 ∧
      t.get F.Pair.SNAP_STATUS_STATE pgPair = 0 ∧ t.pair.snap = some ⟨14, crc32 (s.snapObjects.flatMap (·.2)), s.pairPorts.map (fun p =>
        (p, s.get F.Port.FOLIO_NOW (pgPort p), s.get2 F.Port.START_POS_LO F.Port.START_POS_HI (pgPort p) 0))⟩ ∧ t.apt = s.apt ∧ t.aptw = s.aptw) ∧
    (∀ object off data, s.pairHears 1 = false ∨ data.length < 4 ∨ 48 < data.length ∨ data.length % 4 ≠ 0 ∨ off % 4 ≠ 0 ∨ s.pair.join = none ∨
        s.pairOn = false ∨ (∃ j, s.pair.join = some j ∧ j.good = true) → exec (.snapDataReceived object off data) s = .next s) ∧
    (∀ object off data j, s.pairHears 1 = true → 4 ≤ data.length → data.length ≤ 48 → data.length % 4 = 0 → off % 4 = 0 → s.pair.join = some j →
      s.pairOn = true → j.good = false → ∃ t, exec (.snapDataReceived object off data) s = .next t ∧
        t.pair.join = some { j with crc := data.foldl (crcByte 0xEDB88320) j.crc, bytes := j.bytes + data.length } ∧
        t.get F.Pair.UNITS pgPair = low 21 ((j.bytes + data.length) / 64)) ∧
    (∀ port folio start, s.pairHears 1 = false ∨ Config.ports ≤ port ∨ s.pairOn = false → exec (.joinPortReceived port folio start) s = .next s) ∧
    (∀ port folio start j, s.pairHears 1 = true → port < Config.ports → s.pairOn = true → s.pair.join = some j →
      ∃ t, exec (.joinPortReceived port folio start) s = .next t ∧ t.regs = s.regs ∧
        t.pair.join = some (if j.good then j else { j with ports := tput j.ports port (low 32 folio, low 64 start) })) ∧
    (∀ objects crc, s.pairHears 1 = false ∨ 2 ^ 32 ≤ objects ∨ s.pair.join = none ∨ s.pairOn = false ∨ (∃ j, s.pair.join = some j ∧ j.good = true) →
      exec (.snapEndReceived objects crc) s = .next s) ∧
    (∀ objects crc j, s.pairHears 1 = true → objects < 2 ^ 32 → s.pair.join = some j → s.pairOn = true → j.good = false →
      (j.crc ^^^ 0xFFFFFFFF ≠ low 32 crc → ∃ t, exec (.snapEndReceived objects crc) s = .next t ∧ t.role = 1 ∧ t.get F.Pair.SNAP_STATUS_STATE pgPair = 0 ∧
        t.pair.join = none ∧ t.pair.sbReady = false ∧ t.pair.retryAt = some (s.counter + 500000000) ∧ bitAt (t.get F.Hdr.EVENT_STATUS pgPair) Ev.pairSnapFail.bit = true) ∧
      (j.crc ^^^ 0xFFFFFFFF = low 32 crc → s.pairPortsIdle = false ∨ j.ended = true →
        exec (.snapEndReceived objects crc) s = .next (s.updPair (fun x => { x with join := some { j with good := true } }))) ∧
      (j.crc ^^^ 0xFFFFFFFF = low 32 crc → s.pairPortsIdle = true → j.ended = false → ∃ t, exec (.snapEndReceived objects crc) s = .next t ∧
        t.get F.Pair.JOIN_FOLIO pgPair = low 32 (((j.ports.head?.map (·.2.1)).getD 0) + 2) ∧ t.get F.Pair.SNAP_STATUS_STATE pgPair = 3 ∧
        bitAt (t.get F.Hdr.EVENT_STATUS pgPair) Ev.pairSnapDone.bit = true)) ∧
    (s.pair.join = none ∨ s.pairOn = false ∨ (∃ j, s.pair.join = some j ∧ (j.good = true ∨ s.counter < j.since + 50000000)) → exec .snapTimeout s = .next s) ∧
    (∀ j, s.pair.join = some j → s.pairOn = true → j.good = false → j.since + 50000000 ≤ s.counter → ∃ t, exec .snapTimeout s = .next t ∧ t.role = 1 ∧
      t.get F.Pair.SNAP_STATUS_STATE pgPair = 0 ∧ t.pair.join = none ∧ t.pair.sbReady = false ∧ t.pair.retryAt = some (s.counter + 500000000) ∧
      bitAt (t.get F.Hdr.EVENT_STATUS pgPair) Ev.pairSnapFail.bit = true)

/-- START, STOP and RESET written to SAG_CMD wait for the next cycle and break a key sequence that stands between its
steps with reason 1; a RESET remembers whether RESET_SOURCE is met. The release of the reset button after 50 ms to 3
s is kept, and is a RESET where RESET_SOURCE is 1. The two key words bring the sequence to steps 1 and 2 where the
second comes in time; any other word between the steps, or the passing of 100 us, ends it with reason 1. The commit
is judged in the order of reasons 1 to 5, and a good set goes to the journal. -/
def Obligations.SaggerRequestsAndParameters : Prop :=
  ∀ (s : State) (k : Nat), k = s.get F.Sag.PARAM_STATUS_STEP pgSag →
    (∀ (i : Instr) (f : SagX → SagX), ((∃ owner, i = .sagStart owner ∧ s.passes pgSag owner = true ∧ f = fun x => { x with start := true }) ∨
        (∃ start owner, i = .sagStop start owner ∧ s.passes pgSag owner = true ∧ f = fun x => { x with start := x.start || start, stop := true }) ∨
        (∃ owner, i = .sagReset owner ∧ s.passes pgSag owner = true ∧ f = fun x => { x with reset := some (s.hostResetOk || x.reset == some true) })) →
      ∃ t, exec i s = .next t ∧ t.sag = f s.sag ∧ (k ≠ 1 → k ≠ 2 → t = s.updSag f) ∧
        (k = 1 ∨ k = 2 → t.get F.Sag.PARAM_STATUS_STEP pgSag = 0 ∧ t.get F.Sag.REASON pgSag = 1)) ∧
    (∀ lowUs, s.sag.up ≠ 2 ∨ lowUs < 50000 ∨ 3000000 < lowUs → exec (.resetButtonRelease lowUs) s = .next s) ∧
    (∀ lowUs, s.sag.up = 2 → 50000 ≤ lowUs → lowUs ≤ 3000000 → exec (.resetButtonRelease lowUs) s = .next (s.updSag (fun x =>
      { x with releasedAt := some s.now, reset := if s.resetSource = 1 then some true else x.reset }))) ∧
    (∀ value owner v, s.passes pgSag owner = true → v = low 32 value → ∃ t, exec (.paramKeyWrite value owner) s = .next t ∧
      (k = 0 → v = 0x5A6BC3D1 → t = (s.set F.Sag.PARAM_STATUS_STEP pgSag 1).updSag (fun x => { x with keyAt := s.now })) ∧
      (k = 0 → v ≠ 0x5A6BC3D1 → t = s) ∧
      (k = 1 → v = 0xA5943C2E → s.now ≤ s.sag.keyAt + 100000 → t = (s.set F.Sag.PARAM_STATUS_STEP pgSag 2).updSag (fun x => { x with keyAt := s.now })) ∧
      (k = 2 ∨ (k = 1 ∧ (v ≠ 0xA5943C2E ∨ s.sag.keyAt + 100000 < s.now)) → t.get F.Sag.PARAM_STATUS_STEP pgSag = 0 ∧ t.get F.Sag.REASON pgSag = 1 ∧ t.sag = s.sag) ∧
      (2 < k → t = s)) ∧
    (s.now ≤ s.sag.keyAt + 100000 ∨ (k ≠ 1 ∧ k ≠ 2) → exec .paramKeyTimeout s = .next s) ∧
    (s.sag.keyAt + 100000 < s.now → k = 1 ∨ k = 2 → ∃ t, exec .paramKeyTimeout s = .next t ∧ t.get F.Sag.PARAM_STATUS_STEP pgSag = 0 ∧
      t.get F.Sag.REASON pgSag = 1 ∧ t.sag = s.sag ∧
      (s.modeNow ≠ 0 → s.mode.porst = false → bitAt (t.get F.Hdr.EVENT_STATUS pgSag) Ev.sagParamRejected.bit = true)) ∧
    (∀ owner (r : Nat) (w : Nat → Nat), s.passes pgSag owner = true → w = (fun i => s.getI F.Sag.PARAM_STAGE pgSag i) →
      r = (if k ≠ 2 ∨ s.sag.keyAt + 100000 < s.now then 1 else if paramCrcOk w = false ∨ (s.sagChannels.length < 2 ∧ s.sag.up ≠ 1) then 2
        else if s.paramStateBad = true then 3 else if paramInvalid w = true then 4 else if s.journalOpen = false then 5 else 0) →
      (k = 3 → exec (.paramCommit owner) s = .next s) ∧
      (k ≠ 3 → r ≠ 0 → ∃ t, exec (.paramCommit owner) s = .next t ∧ t.get F.Sag.PARAM_STATUS_STEP pgSag = 0 ∧ t.get F.Sag.REASON pgSag = r ∧ t.sag = s.sag ∧
        (s.modeNow ≠ 0 → s.mode.porst = false → bitAt (t.get F.Hdr.EVENT_STATUS pgSag) Ev.sagParamRejected.bit = true)) ∧
      (r = 0 → exec (.paramCommit owner) s = .next (journalAsk ⟨2, 0, paramBytes w⟩ (s.set F.Sag.PARAM_STATUS_STEP pgSag 3))))

/-- Power-on begins the self-test and takes READY away; a supply out of range resets the fields of the host view. The
self-test ends in SAFE with cause 1 when it failed, in SAFE with cause 4 without a good parameter record, and else
in STOPPED with the record in force, and outside Dormant sets READY. A cycle serves the requests: a STOP leaves
OPERATE, and a START of a quiet cycle in STOPPED without trips and with all contacts closed enters OPERATE. An ADC
round shows its codes and latches the actions of the inputs that were beyond their limits twice; two rounds with bad
references end in SAFE. A comparator latches its cluster. A watchdog takes a channel out of service, and the second
loss ends in SAFE. -/
def Obligations.SaggerCycleTripsAndPower : Prop :=
  ∀ (s : State),
    (s.sag.up ≠ 0 → exec .saggerPowerOn s = .next s) ∧
    (s.sag.up = 0 → exec .saggerPowerOn s = .next ((s.updSag (fun _ => { up := 1 })).set F.Hdr.READY pgSag 0)) ∧
    (∃ t, exec .vddSagOutOfRange s = .next t ∧ t.sag = { up := 0 } ∧ t.sagState = 0 ∧ t.get F.Sag.CAUSE pgSag = 0 ∧ t.get F.Sag.CHANNELS_OK pgSag = 0 ∧
      t.on F.Sag.OPERATE pgSag = false ∧ t.get F.Sag.DRIVE_EN pgSag = 0 ∧ t.get F.Sag.CURE_EN pgSag = 0 ∧ t.on F.Sag.SAFE_STATE pgSag = true ∧ t.on F.Sag.PRESS_STOP_REQ pgSag = true) ∧
    (∀ passed, s.sag.up ≠ 1 → exec (.selftestEnd passed) s = .next s) ∧
    (∀ passed, s.sag.up = 1 → ∃ t, exec (.selftestEnd passed) s = .next t ∧ t.sag.up = 2 ∧ t.get F.Sag.CHANNELS_OK pgSag = 7 ∧
      (passed = false → t.sagState = 1 ∧ t.get F.Sag.CAUSE pgSag = 1) ∧
      (passed = true → s.sagRecord = none → t.sagState = 1 ∧ t.get F.Sag.CAUSE pgSag = 4) ∧
      (∀ w, passed = true → s.sagRecord = some w → t.sagState = 2 ∧ t.get F.Sag.CAUSE pgSag = low 8 (s.get F.Sag.CAUSE pgSag) ∧ t.on F.Sag.PARAMS_VALID pgSag = true ∧
        t.get F.Sag.ACTIVE_CRC pgSag = low 32 (w 63) ∧ ∀ i < 64, t.sagParam i = low 32 (w i)) ∧
      (s.modeNow ≠ 0 → s.mode.porst = false → t.get F.Hdr.READY pgSag = 1)) ∧
    (∀ chans senc resetN ov readback found, s.sag.up ≠ 2 ∨ chans.length ≠ 3 → exec (.saggerCycle chans senc resetN ov readback found) s = .next s) ∧
    (∀ chans senc resetN ov readback found, s.sag.up = 2 → chans.length = 3 → ∃ t, exec (.saggerCycle chans senc resetN ov readback found) s = .next t ∧
      t.sag.start = false ∧ t.sag.stop = false ∧ t.sag.reset = none ∧ t.get F.Sag.RESET_N pgSag = bit resetN ∧
      (s.sag.stop = true → t.sagState ≠ 3) ∧
      (found = [] → readback = [] → (∀ c ∈ chans, c.opened = 0 ∧ c.failed s = 0) → 2 ≤ s.sagChannels.length → s.sag.disagree = 0 →
        t.get F.Sag.CONTACTS pgSag = 15 + senc % 4 * 16 ∧ t.sag.openNow = 0 ∧
        (s.sag.start = true → s.sag.stop = false → s.sag.reset = none → s.sagState = 2 → s.sagTrips = 0 → t.sagState = 3 ∧ t.on F.Sag.OPERATE pgSag = true))) ∧
    (∀ codes r3 r12, s.sag.up ≠ 2 ∨ codes.length ≠ 16 → exec (.saggerAdcRound codes r3 r12) s = .next s) ∧
    (∀ codes r3 r12, s.sag.up = 2 → codes.length = 16 → (16 < natDist r3 819 ∨ 16 < natDist r12 3276) → ∃ t, exec (.saggerAdcRound codes r3 r12) s = .next t ∧
      t.sag.adcBad = true ∧ t.sag.tempBad = s.sag.tempBad ∧ t.get F.Sag.DIAG_FAULTS pgSag = low 32 (min (s.get F.Sag.DIAG_FAULTS pgSag + 1) (2 ^ 32 - 1)) ∧
      (s.sag.adcBad = false → t.sagState = s.sagState) ∧ (s.sag.adcBad = true → t.sagState = 1)) ∧
    (∀ codes r3 r12 hot act, s.sag.up = 2 → codes.length = 16 → natDist r3 819 ≤ 16 → natDist r12 3276 ≤ 16 →
      hot = (List.range 16).filter (fun i => s.sagHot i (low 12 (codes.getD i 0))) → act = (hot.filter (bitAt s.sag.tempBad)).foldl (fun a i => a ||| s.sagAction i) 0 →
      ∃ t, exec (.saggerAdcRound codes r3 r12) s = .next t ∧ t.sag.adcBad = false ∧ t.sag.tempBad = hot.foldl setBit 0 ∧
        (∀ j < 8, t.getI F.Sag.TEMP_CODE_EVEN pgSag j = low 12 (codes.getD (2 * j) 0) ∧ t.getI F.Sag.TEMP_CODE_ODD pgSag j = low 12 (codes.getD (2 * j + 1) 0)) ∧
        (∀ c < 12, bitAt act c = true → bitAt (t.get F.Sag.DRIVE_TEMP_TRIP pgSag) c = true) ∧
        (∀ k < 2, bitAt act (12 + k) = true → bitAt (t.get F.Sag.CURE_TEMP_TRIP pgSag) k = true) ∧
        (bitAt act 14 = true → bitAt (t.get F.Sag.STOP_TEMP_TRIP pgSag) 0 = true)) ∧
    (∀ c b, s.sag.up = 0 ∨ 12 ≤ c → exec (.ovComparatorTrip c b) s = .next s) ∧
    (∀ c b, s.sag.up ≠ 0 → c < 12 → ∃ t, exec (.ovComparatorTrip c b) s = .next t ∧ bitAt (t.get F.Sag.OV_TRIP pgSag) c = true ∧
      bitAt t.sag.ovHigh c = true ∧ bitAt (if b then t.sag.ovB else t.sag.ovA) c = true) ∧
    (∀ ch, s.sag.up ≠ 2 → exec (.channelWatchdogTimeout ch) s = .next s) ∧
    (∀ ch, s.sag.up = 2 → 3 ≤ ch ∨ bitAt (s.get F.Sag.CHANNELS_OK pgSag) ch = false → exec (.channelWatchdogTimeout ch) s = .next (sagOutputs s)) ∧
    (∀ ch, s.sag.up = 2 → ch < 3 → bitAt (s.get F.Sag.CHANNELS_OK pgSag) ch = true → ∃ t, exec (.channelWatchdogTimeout ch) s = .next t ∧
      t.get F.Sag.CHANNELS_OK pgSag = low 3 (clearBit (s.get F.Sag.CHANNELS_OK pgSag) ch) ∧ t.sag = s.sag ∧
      (t.sagChannels.length < 2 → t.sagState = 1) ∧ (2 ≤ t.sagChannels.length → t.sagState = s.sagState))

/-- RAIL_STEP_DONE at a step with a rail out of window starts its wait over; with all rails in window it keeps the
instant, and after the largest DELAY_US it takes the next step that has rails and turns them on, or ends ON with
PWR.SEQ_DONE. A rail that misses RISE_MS is at fault, and the rails that are on go down. RAIL_FALL_STEP waits while
a rail of the step is neither low nor late; then the next step goes down, and with no rail on the sequence ends off,
or in fault after a fault at power-up. -/
def Obligations.RailSequence : Prop :=
  ∀ (s : State),
    (∀ readings, s.seqState ≠ 1 ∨ s.jrn.closing.isSome = true → exec (.railStepDone readings) s = .next s) ∧
    (∀ readings v t0 delay, s.seqState = 1 → s.jrn.closing = none → v = showReadings readings s → t0 = s.rail.okAt.getD s.now →
      delay = (v.stepRails s.seqStep).foldl (fun a k => max a (v.railGet F.Seq.DELAY_US k)) 0 →
      ((∃ k ∈ v.stepRails s.seqStep, v.railUp k = false) → exec (.railStepDone readings) s = .next (v.updRail (fun x => { x with okAt := none }))) ∧
      ((∀ k ∈ v.stepRails s.seqStep, v.railUp k = true) → s.now < t0 + delay * 1000 →
        exec (.railStepDone readings) s = .next (v.updRail (fun x => { x with okAt := some t0 }))) ∧
      ((∀ k ∈ v.stepRails s.seqStep, v.railUp k = true) → t0 + delay * 1000 ≤ s.now → v.stepsFrom (s.seqStep + 1) = [] →
        ∃ t, exec (.railStepDone readings) s = .next t ∧ t.seqState = 2 ∧ t.seqStep = low 4 s.seqStep ∧ bitAt (t.get F.Hdr.EVENT_STATUS pgSeq) Ev.pwrSeqDone.bit = true) ∧
      (∀ n l, (∀ k ∈ v.stepRails s.seqStep, v.railUp k = true) → t0 + delay * 1000 ≤ s.now → v.stepsFrom (s.seqStep + 1) = n :: l →
        ∃ t, exec (.railStepDone readings) s = .next t ∧ t.seqState = 1 ∧ t.seqStep = low 4 n ∧ ∀ k ∈ v.stepRails n, t.railOn F.Seq.ON k = true)) ∧
    (∀ k, ¬ (s.seqState = 1 ∧ k < 16 ∧ (s.onRails s.seqStep).contains k ∧ s.hasReading k ∧ s.railOn F.Seq.IN_WINDOW k = false ∧
        tget s.rail.turned k 0 + s.railGet F.Seq.RISE_MS k * 1000000 ≤ s.now) → exec (.railRiseTimeout k) s = .next s) ∧
    (∀ k, s.seqState = 1 → k < 16 → (s.onRails s.seqStep).contains k = true → s.hasReading k = true → s.railOn F.Seq.IN_WINDOW k = false →
      tget s.rail.turned k 0 + s.railGet F.Seq.RISE_MS k * 1000000 ≤ s.now → s.seqStep < 16 →
      ∃ t, exec (.railRiseTimeout k) s = .next t ∧ t.seqState = 3 ∧ t.railOn F.Seq.FAULT k = true) ∧
    (∀ readings, s.seqState ≠ 3 → exec (.railFallStep readings) s = .next s) ∧
    (∀ readings v, s.seqState = 3 → v = forAll (s.stepRails s.seqStep) s (fun k s => match s.reading readings k with
        | some mv => s.setI F.Seq.READ_MV pgSeq k mv
        | none => s) →
      ((∃ k ∈ v.stepRails s.seqStep, (v.fallOver readings k).1 = false) → exec (.railFallStep readings) s = .next v) ∧
      ((∀ k ∈ v.stepRails s.seqStep, (v.fallOver readings k).1 = true) →
        (∀ k < 16, s.railOn F.Seq.ON k = false) → ∃ t, exec (.railFallStep readings) s = .next t ∧ t.seqState = (if s.rail.why = 2 then 4 else 0)) ∧
      ((∀ k ∈ v.stepRails s.seqStep, (v.fallOver readings k).1 = true) → (∃ n, n ≤ s.seqStep ∧ n < 16 ∧ v.onRails n ≠ []) →
        ∃ t, exec (.railFallStep readings) s = .next t ∧ t.seqState = 3))

/-- A PMBus poll shows each reading and current, and counts readings out of window while the sequencer is ON: the second
in a row is a fault. A transaction that fails is retried once and then counts with its event. An alert keeps every
STATUS_WORD read. CLEAR_FAULT clears the fault of a rail that is on and back in window, and no other. An overcurrent
stops the phases, a rail out of window shows its voltage, and both are a fault of rail 0. The load sets the phases
that switch. -/
def Obligations.RailPollsAndCoreRegulator : Prop :=
  ∀ (s : State),
    (∀ readings, s.mode.porst = true ∨ s.modeNow = 0 → exec (.pmbusPoll readings) s = .next s) ∧
    (∀ readings, s.mode.porst = false → s.modeNow ≠ 0 → (∀ r ∈ readings, ¬ (r.1 < 16 ∧ s.railOn F.Seq.RAIL_EN r.1 = true ∧ s.railPmbus r.1 = true)) →
      exec (.pmbusPoll readings) s = .next s) ∧
    (∀ k mv io n, s.mode.porst = false → s.modeNow ≠ 0 → k < 16 → s.railOn F.Seq.RAIL_EN k = true → s.railPmbus k = true → n = tget s.rail.out k 0 + 1 →
      ∃ u, u.railGet F.Seq.IOUT k = low 13 io ∧ u.railGet F.Seq.READ_MV k = low 16 mv ∧ u.railOn F.Seq.IN_WINDOW k = s.inWindow k mv ∧
        u.seqState = s.seqState ∧ u.railOn F.Seq.FAULT k = s.railOn F.Seq.FAULT k ∧
        ((s.seqState ≠ 2 ∨ s.railOn F.Seq.ON k = false) → exec (.pmbusPoll [(k, mv, io)]) s = .next u ∧ u.rail.out = s.rail.out) ∧
        (s.seqState = 2 → s.railOn F.Seq.ON k = true → s.inWindow k mv = true → exec (.pmbusPoll [(k, mv, io)]) s = .next u ∧ tget u.rail.out k 0 = 0) ∧
        (s.seqState = 2 → s.railOn F.Seq.ON k = true → s.inWindow k mv = false → n < 2 → exec (.pmbusPoll [(k, mv, io)]) s = .next u ∧ tget u.rail.out k 0 = n) ∧
        (s.seqState = 2 → s.railOn F.Seq.ON k = true → s.inWindow k mv = false → 2 ≤ n → exec (.pmbusPoll [(k, mv, io)]) s = .next (railFails k 2 u) ∧ tget u.rail.out k 0 = n)) ∧
    (∀ k cmd, 16 ≤ k ∨ s.railOn F.Seq.RAIL_EN k = false ∨ s.railPmbus k = false → exec (.pmbusTimeout k cmd) s = .next s) ∧
    (∀ k cmd, k < 16 → s.railOn F.Seq.RAIL_EN k = true → s.railPmbus k = true →
      (s.rail.retry.contains (k, cmd) = false → exec (.pmbusTimeout k cmd) s = .next (s.updRail (fun x => { x with retry := x.retry ++ [(k, cmd)] }))) ∧
      (s.rail.retry.contains (k, cmd) = true → ∃ t, exec (.pmbusTimeout k cmd) s = .next t ∧ t.rail.retry = s.rail.retry.filter (· != (k, cmd)) ∧
        t.get F.Seq.PMBUS_ERRORS pgSeq = low 32 (min (s.get F.Seq.PMBUS_ERRORS pgSeq + 1) (2 ^ 32 - 1)) ∧ bitAt (t.get F.Hdr.EVENT_STATUS pgSeq) Ev.pwrPmbusError.bit = true)) ∧
    (∀ words, ∃ t, exec (.pmbAlert words) s = .next t ∧ t.regs = s.regs ∧ ∀ k, tget t.rail.status k 0 =
      ((words.filter (fun w => w.1 == k && decide (k < 16) && s.railOn F.Seq.RAIL_EN k && s.railPmbus k)).getLast?.map (fun w => low 16 w.2)).getD (tget s.rail.status k 0)) ∧
    (∀ readings owner v, s.passes pgSeq owner = true → v = showReadings readings s → ∃ t, exec (.clearFault readings owner) s = .next t ∧ ∀ k < 16,
      (v.railOn F.Seq.FAULT k = true → v.railOn F.Seq.IN_WINDOW k = true → v.railOn F.Seq.ON k = true → t.railOn F.Seq.FAULT k = false ∧ tget t.rail.out k 0 = 0) ∧
      (v.railOn F.Seq.FAULT k = false ∨ v.railOn F.Seq.IN_WINDOW k = false ∨ v.railOn F.Seq.ON k = false → t.railOn F.Seq.FAULT k = v.railOn F.Seq.FAULT k)) ∧
    (∀ phase amps, s.coreRuns = false ∨ 8 ≤ phase ∨ bitAt (s.get F.Core.PHASES pgCore) phase = false ∨ amps ≤ s.get F.Core.PHASE_OC pgCore →
      exec (.coreOvercurrent phase amps) s = .next s) ∧
    (∀ phase amps, s.coreRuns = true → phase < 8 → bitAt (s.get F.Core.PHASES pgCore) phase = true → s.get F.Core.PHASE_OC pgCore < amps →
      ∃ u, exec (.coreOvercurrent phase amps) s = .next (railFails 0 2 u) ∧ u.get F.Core.PHASES pgCore = 0 ∧ u.rail.coreStopped = true ∧
        u.railOn F.Seq.IN_WINDOW 0 = false ∧ bitAt (u.get F.Hdr.EVENT_STATUS pgCore) Ev.pwrCoreFault.bit = true) ∧
    (∀ mv, s.railOn F.Seq.ON 0 = false ∨ s.seqState ≠ 2 ∨ natDist mv (s.get F.Core.TARGET_MV pgCore) ≤ 30 → exec (.coreOutOfWindow mv) s = .next s) ∧
    (∀ mv, s.railOn F.Seq.ON 0 = true → s.seqState = 2 → 30 < natDist mv (s.get F.Core.TARGET_MV pgCore) →
      ∃ u, exec (.coreOutOfWindow mv) s = .next (railFails 0 2 u) ∧ u.get F.Core.VOUT_MV pgCore = low 10 mv ∧ bitAt (u.get F.Hdr.EVENT_STATUS pgCore) Ev.pwrCoreFault.bit = true) ∧
    (∀ k kind, k < 16 → s.railOn F.Seq.FAULT k = false → s.seqState ≠ 2 ∨ s.on F.Seq.FAULT_DORMANT pgSeq = false → (railFails k kind s).railOn F.Seq.FAULT k = true ∧
      bitAt ((railFails k kind s).get F.Hdr.EVENT_STATUS pgSeq) Ev.pwrRailFault.bit = true) ∧
    (∀ load, s.coreRuns = false → exec (.phaseShed load) s = .next s) ∧
    (∀ load n, s.coreRuns = true → n = (if s.on F.Core.SHED_EN pgCore = true then shedCount ((List.range 8).filter (bitAt (s.get F.Core.PHASES pgCore))).length load else 8) →
      ∃ t, exec (.phaseShed load) s = .next t ∧ t.get F.Core.IOUT pgCore = low 16 load ∧ t.get F.Core.PHASES pgCore = low 8 (s.phaseMask n))

/-- A round of the ADC counts, is judged by channel 15, and goes through good or bad round, head types and levels,
slow-down request, drive rails and core target in this order; in Dormant and while PORST_n is low it does nothing. A
bad round counts, clears ADC_OK and raises its event, and the third in a row clears VALID of every channel and puts
every die at throttle or above; taking a value shows the CODE of its channel. HEAD_SD_ACK clears the latch of each
named port of its half below H_SHUTDOWN less 6 C, and no other. While the request lasts a datagram goes out 100 ms
after the one before, with the next SEQ. -/
def Obligations.HousekeepingHeadsAndSlowdown : Prop :=
  ∀ (s : State),
    (∀ raw, s.ready pgHk = false ∨ s.modeNow = 0 ∨ s.mode.porst = true → exec (.hkRound raw) s = .next s) ∧
    (∀ raw codes u v w, s.ready pgHk = true → s.modeNow ≠ 0 → s.mode.porst = false → codes = (List.range 64).map (fun ch => s.hkCode (raw.getD ch [])) →
      u = (if 16 < natDist (codes.getD 15 0) 2047 then badRound (codes.getD 15 0) (s.wrap F.Hk.HK_ROUNDS pgHk) else goodRound codes (s.wrap F.Hk.HK_ROUNDS pgHk)) →
      v = (if u.ready pgThm = true then slowCheck (forAll (List.range Config.ports) (forAll (List.range 8) u typeCheck) headRound) else u) →
      w = (if v.ready pgDrv = true then driveRounds v else v) →
      exec (.hkRound raw) s = .next (if w.ready pgCore = true then avsUpdate (decide (w.dieT 0 < 0) || decide (w.dieT 1 < 0) || decide (w.dieT 2 < 0)) w else w)) ∧
    (∀ code, s.hk.bad < 2 → (badRound code s).get F.Hk.BAD_ROUNDS pgHk = low 16 (min (s.get F.Hk.BAD_ROUNDS pgHk + 1) (2 ^ 16 - 1)) ∧
      (badRound code s).on F.Hk.ADC_OK pgHk = false ∧ (badRound code s).hk.bad = s.hk.bad + 1 ∧
      bitAt ((badRound code s).get F.Hdr.EVENT_STATUS pgHk) Ev.thermAdcFault.bit = true ∧
      ∀ ch < 64, (badRound code s).getI F.Hk.HK_VALUE_VALID pgHk ch = s.getI F.Hk.HK_VALUE_VALID pgHk ch) ∧
    (∀ code, 2 ≤ s.hk.bad → (∀ ch < 64, (badRound code s).getI F.Hk.HK_VALUE_VALID pgHk ch = 0) ∧
      (s.ready pgThm = true → ∀ d < 3, 2 ≤ (badRound code s).get (levelField d) pgThm)) ∧
    (∀ codes : List Nat, ∀ ch < 64, (forAll (List.range 64) s (fun ch => takeValue ch (codes.getD ch 0))).getI F.Hk.CODE pgHk ch = low 12 (codes.getD ch 0)) ∧
    (∀ hi mask owner, s.passes pgThm owner = true → ∃ t, exec (.headSdAck hi mask owner) s = .next t ∧ ∀ p < 48,
      ((if hi = true then 32 ≤ p else p < 32) → bitAt mask (p % 32) = true → (∃ x, s.headTemp p = some x ∧ x < s.headThr (s.headType p) 3 - 96) →
        t.getI (headLatchField p) pgThm (p / 4) = 0) ∧
      ((if hi = true then p < 32 else 32 ≤ p) ∨ bitAt mask (p % 32) = false ∨ s.headTemp p = none ∨ (∃ x, s.headTemp p = some x ∧ s.headThr (s.headType p) 3 - 96 ≤ x) →
        t.getI (headLatchField p) pgThm (p / 4) = s.getI (headLatchField p) pgThm (p / 4))) ∧
    (s.on F.Thm.SLOW_ACTIVE pgThm = false ∨ s.now < s.hk.slowAt + 100000000 → exec .slowdownSend s = .next s) ∧
    (s.on F.Thm.SLOW_ACTIVE pgThm = true → s.hk.slowAt + 100000000 ≤ s.now → ∃ t, exec .slowdownSend s = .next t ∧
      t.hk.slowAt = s.now ∧ t.hk.slowSeq = (s.hk.slowSeq + 1) % 2 ^ 32)

/-- For a write of LOCK_n that passes, by an owner that does not hold the lock: RELEASE and CLEAR_BROKEN are ignored, so
no register but those of the Ledger page and EVENT_STATUS of the lock page changes, and LOCK.RELEASE_DENIED is
raised (R86). -/
def Obligations.ReleaseByAnotherIsDenied : Prop :=
  ∀ (s : State) (n owner : Nat), n < 64 → owner < 256 → s.passes pgLocks owner = true → s.holds n owner = false →
    ∃ t, exec (.lockRelease n owner) s = .next t ∧ exec (.lockClearBroken n owner) s = .next t ∧
      (∀ k < 64, t.getI F.Lock.HELD pgLocks k = s.getI F.Lock.HELD pgLocks k ∧ t.getI F.Lock.OWNER pgLocks k = s.getI F.Lock.OWNER pgLocks k ∧
        t.getI F.Lock.BROKEN pgLocks k = s.getI F.Lock.BROKEN pgLocks k) ∧
      s.OnlyEvents t pgLocks [] ∧ bitAt (t.get F.Hdr.EVENT_STATUS pgLocks) Ev.lockReleaseDenied.bit = true

/-- For every chunk that ingest takes and that is well formed (MAGIC, VERSION, PAYLOAD_LEN), with a SEGMENT_ID other
than INGEST_SEGMENT.SEGMENT_ID: only CHUNK_OTHER_COUNT changes, which counts one up to its largest value; nothing is
held and no event is raised (R129). -/
def Obligations.ChunkOfAnotherSegment : Prop :=
  ∀ (s : State) (net : Nat) (v6 : Bool) (dst udp : Nat) (pl : List Byte), s.takesChunk net v6 dst udp = true →
    field pl 0 2 = 0xF011 → field pl 2 1 = 1 → 0 < field pl 6 2 → field pl 6 2 ≤ 8956 → field pl 6 2 % 4 = 0 → pl.length = 16 + field pl 6 2 →
    field pl 4 2 ≠ s.get F.Ing.SEGMENT_ID pgIng →
    ∃ t, exec (.chunkReceived net v6 dst udp pl) s = .next t ∧
      t.get F.Ing.CHUNK_OTHER_COUNT pgIng = low 32 (min (s.get F.Ing.CHUNK_OTHER_COUNT pgIng + 1) (2 ^ 32 - 1)) ∧
      s.OnlyRegs t [F.Ing.CHUNK_OTHER_COUNT.key pgIng 0]

/-- While the part is up, an access of fewer than 4 bytes, or at an address that is no multiple of 4, answers a bus
error, and nothing else changes: two states that differ only in what the last access returned end alike (R52). -/
def Obligations.NarrowOrUnalignedAccess : Prop :=
  ∀ (s : State) (addr size : Nat), s.silent = false → (size < 4 ∨ addr % 4 ≠ 0) →
    ∃ t, exec (.accessBusError addr size) s = .next t ∧ t.resp = .busError ∧ { t with resp := s.resp } = s

/-- A record that ends takes the next slot of the active area with LAST_SEQ, and its object goes on, is done (SAVE_BUSY
falls) or fails with BOOT.SAVE_FAIL; the next record of the object in progress then begins. An erase that ends makes
the compacted area active with the next GENERATION; an object that still does not fit fails. At the closing CLOSE is
written and the rails go down. SAVE asks for an object of the page, and is ignored while SAVE_BUSY is 1. A host
operation on the NOR is refused with its reason, waits for the journal or runs, and ends with its bytes read,
programmed or erased. -/
def Obligations.JournalAndHostNor : Prop :=
  ∀ (s : State),
    (∀ ok, s.jrn.prog = none → exec (.journalRecordProgrammed ok) s = .next s) ∧
    (∀ ok r, s.jrn.prog = some r → ∃ v, v.area = s.area ++ [if ok then .good r else .torn r] ∧ v.get F.Nor.LAST_SEQ pgSto = low 32 r.seq ∧
      v.jrn.prog = none ∧ v.jrn.cur = none ∧ v.jrn.queue = s.jrn.queue ∧
      (s.jrn.cur = none → exec (.journalRecordProgrammed ok) s = .next (journalNext v)) ∧
      (∀ o k, s.jrn.cur = some (o, k) →
        (ok = false → exec (.journalRecordProgrammed ok) s = .next (journalNext (objFail 1 o v))) ∧
        (ok = true → r.last = true → exec (.journalRecordProgrammed ok) s = .next (journalNext (objDone o v))) ∧
        (ok = true → r.last = false → exec (.journalRecordProgrammed ok) s = .next (journalNext (v.updJrn (fun j => { j with cur := some (o, k + 1) })))))) ∧
    (∀ v : State, (∀ o : JObj, o.type = 1 → (objDone o v).get F.Nor.SAVE_BUSY pgSto = 0 ∧ (∀ why, (objFail why o v).get F.Nor.SAVE_BUSY pgSto = 0 ∧
        bitAt ((objFail why o v).get F.Hdr.EVENT_STATUS pgSto) Ev.bootSaveFail.bit = true)) ∧
      (∀ o k, v.journalOpen = true → v.jrn.prog = none → v.jrn.erasing = false → v.jrn.cur = some (o, k) →
        (journalNext v).jrn.prog = some (o.record (v.get F.Nor.LAST_SEQ pgSto + 1) k)) ∧
      (∀ o rest, v.journalOpen = true → v.jrn.prog = none → v.jrn.erasing = false → v.jrn.cur = none → v.jrn.queue = o :: rest →
        (v.freeSlots < o.count + 10 → (journalNext v).jrn.erasing = true) ∧
        (o.count + 10 ≤ v.freeSlots → (journalNext v).jrn.prog = some (o.record (v.get F.Nor.LAST_SEQ pgSto + 1) 0) ∧ (journalNext v).jrn.queue = rest))) ∧
    (s.jrn.erasing = false → exec .journalEraseDone s = .next s) ∧
    (s.jrn.erasing = true → ∀ gen c, gen = (s.get F.Nor.GENERATION pgSto + 1) % 2 ^ 32 → c = compacted gen (s.get F.Nor.LAST_SEQ pgSto) s.toCopy →
      ∃ u, u.get F.Nor.ACTIVE_AREA pgSto = low 1 (1 - s.get F.Nor.ACTIVE_AREA pgSto) ∧ u.get F.Nor.GENERATION pgSto = gen ∧
        u.get F.Nor.LAST_SEQ pgSto = low 32 c.2 ∧ u.area = c.1 ∧ u.jrn.erasing = false ∧ u.jrn.queue = s.jrn.queue ∧
        (s.jrn.queue = [] → exec .journalEraseDone s = .next u) ∧
        (∀ o rest, s.jrn.queue = o :: rest →
          (u.freeSlots < o.count + 10 → exec .journalEraseDone s = .next (journalNext (objFail 1 o (u.updJrn (fun j => { j with queue := rest }))))) ∧
          (o.count + 10 ≤ u.freeSlots → exec .journalEraseDone s = .next (journalNext u)))) ∧
    (s.jrn.closing = none ∨ s.jrn.closed = true → exec .journalClose s = .next s) ∧
    (∀ cause, s.jrn.closing = some cause → s.jrn.closed = false → ∃ u, exec .journalClose s = .next (startFall (if cause = 2 then 3 else 1) u) ∧
      u.jrn.closed = true ∧ (s.jrn.prog = none → s.norOp ≠ 2 → s.ready pgSto = true → 0 < s.freeSlots →
        u.area = s.area ++ [.good ⟨s.get F.Nor.LAST_SEQ pgSto + 1, 0x0F, 0, 0, true, s.closeBytes cause⟩])) ∧
    (∀ pg owner v, s.passes pgSto owner = true → v = s.set F.Nor.SAVE_PAGE pgSto pg →
      (v.on F.Nor.SAVE_BUSY pgSto = true ∨ v.retBytes (low 8 pg) = [] → exec (.journalSave pg owner) s = .next v) ∧
      (v.on F.Nor.SAVE_BUSY pgSto = false → v.retBytes (low 8 pg) ≠ [] → v.journalOpen = true →
        exec (.journalSave pg owner) s = .next (journalAsk ⟨1, low 8 pg, v.retBytes (low 8 pg)⟩ (v.set F.Nor.SAVE_BUSY pgSto 1))) ∧
      (v.on F.Nor.SAVE_BUSY pgSto = false → v.retBytes (low 8 pg) ≠ [] → v.journalOpen = false →
        ∃ t, exec (.journalSave pg owner) s = .next t ∧ bitAt (t.get F.Hdr.EVENT_STATUS pgSto) Ev.bootSaveFail.bit = true)) ∧
    (∀ op c owner, s.passes pgSto owner = true → (op, c) ∈ [(1, Instr.norReadPage owner), (2, .norProgramPage owner), (3, .norEraseSector owner)] →
      (s.get F.Nor.NOR_STATUS_STATE pgSto = 1 ∨ s.get F.Nor.NOR_STATUS_STATE pgSto = 2 ∨ s.jrn.closing.isSome = true →
        exec c s = .next (s.set F.Nor.NOR_CTRL_OP pgSto op)) ∧
      (s.get F.Nor.NOR_STATUS_STATE pgSto ≠ 1 → s.get F.Nor.NOR_STATUS_STATE pgSto ≠ 2 → s.jrn.closing = none →
        (s.norReason op (s.get F.Nor.NOR_ADDR pgSto) ≠ 0 → ∃ t, exec c s = .next t ∧ t.get F.Nor.REFUSED pgSto = 1 ∧
          bitAt (t.get F.Hdr.EVENT_STATUS pgSto) Ev.bootNorRefused.bit = true ∧ t.cpu.norJob = s.cpu.norJob) ∧
        (s.norReason op (s.get F.Nor.NOR_ADDR pgSto) = 0 → ∃ t, exec c s = .next t ∧ t.get F.Nor.REFUSED pgSto = 0 ∧
          t.cpu.norJob = some (op, s.get F.Nor.NOR_ADDR pgSto) ∧ t.cpu.nor = s.cpu.nor ∧
          t.get F.Nor.NOR_STATUS_STATE pgSto = (if s.jrn.prog.isSome = true ∨ s.jrn.erasing = true then 1 else 2)))) ∧
    (s.get F.Nor.NOR_STATUS_STATE pgSto ≠ 1 → s.get F.Nor.NOR_STATUS_STATE pgSto ≠ 2 → exec .norOpDone s = .next s) ∧
    (s.get F.Nor.NOR_STATUS_STATE pgSto = 1 → s.jrn.prog = none → s.jrn.erasing = false → exec .norOpDone s = .next (s.set F.Nor.NOR_STATUS_STATE pgSto 2)) ∧
    (s.get F.Nor.NOR_STATUS_STATE pgSto = 1 → s.jrn.prog ≠ none ∨ s.jrn.erasing = true → exec .norOpDone s = .next s) ∧
    (∀ op a, s.get F.Nor.NOR_STATUS_STATE pgSto = 2 → s.cpu.norJob = some (op, a) →
      (op = 1 → exec .norOpDone s = .next (setAptBytes pgSto 0 (s.norBytes (a / 256 * 256) 256) (s.set F.Nor.NOR_STATUS_STATE pgSto 3))) ∧
      (op = 2 → a / 256 * 256 + 256 ≤ areaBase ∨ areaBase + 2 * areaBytes ≤ a / 256 * 256 → ∃ t, exec .norOpDone s = .next t ∧ t.get F.Nor.NOR_STATUS_STATE pgSto = 3 ∧
        ∀ k, tget t.cpu.nor k 0xFF = if a / 256 * 256 ≤ k ∧ k < a / 256 * 256 + 256 then
          (if tget s.cpu.nor k 0xFF = 0xFF then BitVec.ofNat 8 (s.apt pgSto ((k - a / 256 * 256) / 4 * 4) / 256 ^ ((k - a / 256 * 256) % 4))
            else Config.norOver (tget s.cpu.nor k 0xFF) (BitVec.ofNat 8 (s.apt pgSto ((k - a / 256 * 256) / 4 * 4) / 256 ^ ((k - a / 256 * 256) % 4))))
          else tget s.cpu.nor k 0xFF) ∧
      (op = 3 → ∃ t, exec .norOpDone s = .next t ∧ t.get F.Nor.NOR_STATUS_STATE pgSto = 3 ∧
        ∀ k, tget t.cpu.nor k 0xFF = if a / 65536 * 65536 ≤ k ∧ k < a / 65536 * 65536 + 65536 then 0xFF else tget s.cpu.nor k 0xFF))

/-- A watchdog bites after LIMIT ms without a KICK, raises its event and, with ACTION 1, resets the core, which loses
its locks; KICK restarts its count. RELEASE runs and holds cores 1 to 3, and a core that is held again loses its
locks. A cache error raises its event, and a dirty L2 line is remembered. A RUN bit that changes empties the
tender's mailbox: one that rises ends its halt, one that falls takes its locks. A tender that faults halts, loses
its locks, and its phase is abandoned. -/
def Obligations.CoresTendersAndWatchdogs : Prop :=
  ∀ (s : State),
    (∀ k, 4 ≤ k ∨ s.getI F.Cpu.LIMIT pgCpu k = 0 ∨ s.now < tget s.cpu.kickAt k 0 + s.getI F.Cpu.LIMIT pgCpu k * 1000000 → exec (.cpuWatchdog k) s = .next s) ∧
    (∀ k, k < 4 → s.getI F.Cpu.LIMIT pgCpu k ≠ 0 → tget s.cpu.kickAt k 0 + s.getI F.Cpu.LIMIT pgCpu k * 1000000 ≤ s.now →
      ∃ t, exec (.cpuWatchdog k) s = .next t ∧ tget t.cpu.kickAt k 0 = s.now ∧ bitAt (t.get F.Hdr.EVENT_STATUS pgCpu) Ev.cpuWatchdog.bit = true ∧
        s.LosesLocks t (fun a => s.onI F.Cpu.ACTION pgCpu k && a == hostAgent k)) ∧
    (∀ k owner, 4 ≤ k → exec (.watchdogKick k owner) s = .next s) ∧
    (∀ k owner, k < 4 → s.passes pgCpu owner = true →
      exec (.watchdogKick k owner) s = .next (s.updCpu (fun x => { x with kickAt := tput x.kickAt k s.now }))) ∧
    (∀ mask owner, s.passes pgCpu owner = true → ∃ t, exec (.hostCoreRelease mask owner) s = .next t ∧ t.get F.Cpu.RELEASE pgCpu = low 4 mask / 2 ∧
      (∀ k, bitAt t.cpu.running k = if k ∈ [1, 2, 3] then bitAt mask k else bitAt s.cpu.running k) ∧
      s.LosesLocks t (fun a => [1, 2, 3].any (fun k => bitAt s.cpu.running k && !bitAt mask k && a == hostAgent k))) ∧
    (∀ core addr dirty, 4 < core → exec (.cacheError core addr dirty) s = .next s) ∧
    (∀ core addr dirty, core ≤ 4 → ∃ t, exec (.cacheError core addr dirty) s = .next t ∧ bitAt (t.get F.Hdr.EVENT_STATUS pgCpu) Ev.cpuCacheError.bit = true ∧
      ∀ l, l ∈ t.cpu.l2Bad ↔ l ∈ s.cpu.l2Bad ∨ (core = 4 ∧ dirty = true ∧ l = low 40 addr / 64)) ∧
    (∀ mask owner, s.passes pgCpu owner = true → ∃ t, exec (.tenderRun mask owner) s = .next t ∧ t.get F.Cpu.RUN pgCpu = low 4 mask ∧
      (∀ r < 4, bitAt (s.get F.Cpu.RUN pgCpu) r ≠ bitAt mask r → t.mbox r 0 = [] ∧ t.mbox r 1 = [] ∧
        bitAt t.cpu.halted r = (bitAt s.cpu.halted r && !bitAt mask r)) ∧
      (∀ r < 4, bitAt (s.get F.Cpu.RUN pgCpu) r = bitAt mask r → t.mbox r 0 = s.mbox r 0 ∧ t.mbox r 1 = s.mbox r 1 ∧ bitAt t.cpu.halted r = bitAt s.cpu.halted r) ∧
      s.LosesLocks t (fun a => (List.range 4).any (fun r => bitAt (s.get F.Cpu.RUN pgCpu) r && !bitAt mask r && a == tenderAgent r))) ∧
    (∀ r kind addr, 4 ≤ r ∨ s.tenderRuns r = false ∨ (kind ≠ 1 ∧ kind ≠ 2) → exec (.tenderFault r kind addr) s = .next s) ∧
    (∀ r kind addr, r < 4 → s.tenderRuns r = true → (kind = 1 ∨ kind = 2) → ∃ t, exec (.tenderFault r kind addr) s = .next t ∧ bitAt t.cpu.halted r = true ∧
      t.mbox r 0 = [] ∧ t.mbox r 1 = [] ∧ (∀ p ∈ t.trk.pend, regionOf p ≠ r) ∧ bitAt (t.get F.Hdr.EVENT_STATUS pgCpu) Ev.cpuTenderFault.bit = true ∧
      s.LosesLocks t (fun a => a == tenderAgent r))

/-- Once the retained store is READY, the ROM reads both headers: a slot whose read fails gets reason 7, a bad header
reason 1, and the candidates are the good slots, the newer first. A candidate fails with the first reason of R585
that holds, and the next is tried; with none left the ROM halts with its event. One that passes runs: BOOTED, READY,
BOOT.DONE, and core 0. A start of L2 maintenance stores OP and is ignored while one runs; its end clears BUSY,
writes dirty lines back for a clean, and a line with an uncorrectable word is poisoned. -/
def Obligations.BootAndMaintenance : Prop :=
  ∀ (s : State),
    (∀ unread, s.ready pgSto = false ∨ s.cpu.boot ≠ 0 → exec (.bootStart unread) s = .next s) ∧
    (∀ unread good newer, s.ready pgSto = true → s.cpu.boot = 0 → good = [0, 1].filter (fun k => !bitAt unread k && s.headerOk k) →
      newer = decide (0 < sext 32 (s.bootField 1 8 4 + 2 ^ 32 - s.bootField 0 8 4)) →
      ∃ u, exec (.bootStart unread) s = .next (nextCandidate (if good = [0, 1] ∧ newer = true then [1, 0] else good) u) ∧ u.cpu = s.cpu ∧
        u.get F.Cpu.BOOT_FAIL_A pgCpu = (if bitAt unread 0 = true then 7 else if s.headerOk 0 = true then s.get F.Cpu.BOOT_FAIL_A pgCpu else 1) ∧
        u.get F.Cpu.BOOT_FAIL_B pgCpu = (if bitAt unread 1 = true then 7 else if s.headerOk 1 = true then s.get F.Cpu.BOOT_FAIL_B pgCpu else 1)) ∧
    (∀ k l, (nextCandidate (k :: l) s).cpu.boot = 1 ∧ (nextCandidate (k :: l) s).cpu.slot = k ∧ (nextCandidate (k :: l) s).cpu.left = l) ∧
    ((nextCandidate [] s).cpu.boot = 3 ∧ bitAt ((nextCandidate [] s).get F.Hdr.EVENT_STATUS pgCpu) Ev.bootNoImage.bit = true) ∧
    (∀ errAt, s.cpu.boot ≠ 1 ∨ s.ready pgSto = false → exec (.bootCandidateEnd errAt) s = .next s) ∧
    (∀ errAt k, s.cpu.boot = 1 → s.ready pgSto = true → k = s.cpu.slot →
      (s.bootReason k ≠ 0 → exec (.bootCandidateEnd errAt) s = .next (nextCandidate s.cpu.left (imageFail k (s.bootReason k) s))) ∧
      (∀ n, s.bootReason k = 0 → errAt = some n → exec (.bootCandidateEnd errAt) s = .next (nextCandidate s.cpu.left (imageFail k 7 (bootLoad k n s)))) ∧
      (s.bootReason k = 0 → errAt = none → s.bootSum k ≠ s.bootDigest k →
        exec (.bootCandidateEnd errAt) s = .next (nextCandidate s.cpu.left (imageFail k 5 (bootLoad k (2 ^ 25) s)))) ∧
      (s.bootReason k = 0 → errAt = none → s.bootSum k = s.bootDigest k → s.on F.Colo.SECURE_BOOT 1 = true → s.bootSigOk k = false →
        exec (.bootCandidateEnd errAt) s = .next (nextCandidate s.cpu.left (imageFail k 6 (bootLoad k (2 ^ 25) s)))) ∧
      (s.bootReason k = 0 → errAt = none → s.bootSum k = s.bootDigest k → s.on F.Colo.SECURE_BOOT 1 = false ∨ s.bootSigOk k = true →
        exec (.bootCandidateEnd errAt) s = .next (bootPass k (bootLoad k (2 ^ 25) s)))) ∧
    (∀ k, (bootPass k s).cpu.boot = 2 ∧ bitAt (bootPass k s).cpu.running 0 = true ∧ (bootPass k s).cpu.left = [] ∧ (bootPass k s).ready pgCpu = true ∧
      bitAt ((bootPass k s).get F.Hdr.EVENT_STATUS pgCpu) Ev.bootDone.bit = true) ∧
    (∀ k why, k < 2 → (imageFail k why s).get (if k = 0 then F.Cpu.BOOT_FAIL_A else F.Cpu.BOOT_FAIL_B) pgCpu = low 8 why ∧
      bitAt ((imageFail k why s).get F.Hdr.EVENT_STATUS pgCpu) Ev.bootImageFail.bit = true) ∧
    (∀ op c owner, s.passes pgCpu owner = true → (op, c) ∈ [(1, Instr.l2Clean owner), (2, .l2Invalidate owner), (3, .l2CleanInvalidate owner)] →
      (s.on F.Cpu.L2_MAINT_BUSY pgCpu = true → exec c s = .next (s.set F.Cpu.L2_MAINT_OP pgCpu op)) ∧
      (s.on F.Cpu.L2_MAINT_BUSY pgCpu = false → ∃ t, exec c s = .next t ∧ t.get F.Cpu.L2_MAINT_OP pgCpu = op ∧ t.on F.Cpu.L2_MAINT_BUSY pgCpu = true ∧
        t.cpu.l2Job = some (op, s.l2Range))) ∧
    (∀ lines, s.on F.Cpu.L2_MAINT_BUSY pgCpu = false → exec (.l2MaintDone lines) s = .next s) ∧
    (∀ lines op a n, s.on F.Cpu.L2_MAINT_BUSY pgCpu = true → s.cpu.l2Job = some (op, a, n) →
      ∃ u t, u = (if op = 2 then s else forAll (lines.filter (fun l => decide (a ≤ l.1 ∧ l.1 < a + n))) s (fun l => writeBack l.1 l.2)) ∧
        exec (.l2MaintDone lines) s = .next t ∧ t.get F.Cpu.L2_MAINT_BUSY pgCpu = 0 ∧ t.cpu.l2Job = none ∧
        t.sdram = u.sdram ∧ t.room = u.room ∧ t.memBad = u.memBad ∧ ∀ l ∈ t.cpu.l2Bad, ¬ (a ≤ l ∧ l < a + n)) ∧
    (∀ line data, line ∈ s.cpu.l2Bad → sdramBase ≤ 64 * line → ∀ i < 16, (64 * line - sdramBase) / 4 + i ∈ (writeBack line data s).memBad)

/-- A push by an agent of the sending side enters a FIFO of 16 messages; a full FIFO drops it and raises CPU.MBOX_FULL,
and a push from the other side raises CPU.MBOX_DENIED. A message of a Sagger channel is pushed when a second channel
in service writes the same 64 bits. A pop by the receiving side returns the upper word and removes the message; the
other side reads 0. CLAIM returns the pending input with the highest PRIO, the lowest index among equals, and claims
it; with none it returns 0x1FF. COMPLETE ends a claim. -/
def Obligations.MailboxesAndRouter : Prop :=
  ∀ (s : State),
    (∀ m d hi owner, 8 ≤ m ∨ 2 ≤ d → exec (.mboxPush m d hi owner) s = .next s) ∧
    (∀ m d hi owner v, m < 8 → d < 2 → s.passes pgMbox owner = true → v = tget s.cpu.pushLo (pushKey m d owner) 0 + low 32 hi * 2 ^ 32 →
      (onSide m d (agentOf owner) = false → ∃ t, exec (.mboxPush m d hi owner) s = .next t ∧ t.cpu = s.cpu ∧
        bitAt (t.get F.Hdr.EVENT_STATUS pgMbox) Ev.cpuMboxDenied.bit = true) ∧
      (onSide m d (agentOf owner) = true → ¬ (m = 4 ∧ d = 1) → (s.mbox m d).length < 16 → exec (.mboxPush m d hi owner) s = .next (setMbox m d (s.mbox m d ++ [v]) s)) ∧
      (onSide m d (agentOf owner) = true → ¬ (m = 4 ∧ d = 1) → 16 ≤ (s.mbox m d).length → ∃ t, exec (.mboxPush m d hi owner) s = .next t ∧ t.cpu = s.cpu ∧
        bitAt (t.get F.Hdr.EVENT_STATUS pgMbox) Ev.cpuMboxFull.bit = true) ∧
      (m = 4 → d = 1 → onSide m d (agentOf owner) = true → ∀ ch w same, ch = owner % 16 → w = sagMsgExpire s →
        same = w.cpu.sagOut.find? (fun e => e.data == v && !bitAt e.chans ch) →
        (ch ∉ w.sagChannels → exec (.mboxPush m d hi owner) s = .next w) ∧
        (ch ∈ w.sagChannels → same = none → exec (.mboxPush m d hi owner) s = .next (w.updCpu (fun x => { x with sagOut := x.sagOut ++ [⟨v, s.now, 2 ^ ch, false⟩] }))) ∧
        (∀ e, ch ∈ w.sagChannels → same = some e → ∃ u, (∀ q ∈ w.cpu.sagOut, (if q = e then { e with chans := setBit e.chans ch, pushed := true } else q) ∈ u.cpu.sagOut) ∧
          u.cpu.fifo = w.cpu.fifo ∧ (e.pushed = true → exec (.mboxPush m d hi owner) s = .next u) ∧
          (e.pushed = false → exec (.mboxPush m d hi owner) s = .next (mboxPut 4 1 v u))))) ∧
    (∀ m d, m < 8 → d < 2 → ∀ l, (setMbox m d l s).mbox m d = l) ∧
    (∀ m d owner, 8 ≤ m ∨ 2 ≤ d ∨ s.silent = true → exec (.mboxPop m d owner) s = .next s) ∧
    (∀ m d owner, m < 8 → d < 2 → s.silent = false →
      (onSide m (1 - d) (agentOf owner) = false ∨ s.mbox m d = [] → exec (.mboxPop m d owner) s = .next { s with resp := .data 0 }) ∧
      (∀ v l, onSide m (1 - d) (agentOf owner) = true → s.mbox m d = v :: l →
        ∃ t, exec (.mboxPop m d owner) s = .next t ∧ t.resp = .data (v / 2 ^ 32) ∧ t.mbox m d = l ∧ t.regs = s.regs)) ∧
    (∀ k, 8 ≤ k ∨ s.silent = true → exec (.claim k) s = .next s) ∧
    (∀ k, k < 8 → s.silent = false →
      (s.bestFor k = none → exec (.claim k) s = .next { s with resp := .data 0x1FF }) ∧
      (∀ i, s.bestFor k = some i → ∃ t, exec (.claim k) s = .next t ∧ t.resp = .data i ∧ tget t.cpu.claims k [] = tget s.cpu.claims k [] ++ [i] ∧
        (∀ j, j ≠ k → tget t.cpu.claims j [] = tget s.cpu.claims j []) ∧ t.regs = s.regs)) ∧
    (∀ k i, s.bestFor k = some i → i ∈ s.pendingFor k ∧ s.takenNow k i = false ∧ ∀ j ∈ s.pendingFor k, s.takenNow k j = false →
      s.getI F.Irq.ROUTE_PRIO pgIrq j ≤ s.getI F.Irq.ROUTE_PRIO pgIrq i ∧ (s.getI F.Irq.ROUTE_PRIO pgIrq j = s.getI F.Irq.ROUTE_PRIO pgIrq i → i ≤ j)) ∧
    (∀ k, s.bestFor k = none ↔ ∀ i ∈ s.pendingFor k, s.takenNow k i = true) ∧
    (∀ k i owner, 8 ≤ k → exec (.complete k i owner) s = .next s) ∧
    (∀ k i owner, k < 8 → s.passes pgIrq owner = true → ∃ t, exec (.complete k i owner) s = .next t ∧
      (∀ j, j ∈ tget t.cpu.claims k [] ↔ j ∈ tget s.cpu.claims k [] ∧ j ≠ low 9 i) ∧ (∀ c, c ≠ k → tget t.cpu.claims c [] = tget s.cpu.claims c []) ∧ t.regs = s.regs)

/-- Every access completes. A word that passes the gate of a page without actions of its own is stored field by field:
an RW field takes its bits, unless it is class S, held by a running function, or the value is reserved; RO and WO
fields stay; a held field that would change raises REG.WRITE_WHILE_RUNNING. EVENT_ENABLE and EVENT_ROUTE pass every
gate; a shadow word goes to the shadow set, or raises its event while FROZEN; a word of a class L window is stored.
The reserved pool drains into the ring in order for as long as the ring accepts. -/
def Obligations.RegisterWritesAndPool : Prop :=
  ∀ (s : State),
    (∀ pg apt off data owner, ∃ t, exec (.registerWrite pg apt off data owner) s = .next t) ∧
    (∀ pg off data owner, s.silent = false → pg < 256 → present pg = true → off % 4 ≠ 0 → off < 0x1000 →
      exec (.registerWrite pg false off data owner) s = .next { s with resp := .busError }) ∧
    (∀ pg data owner, s.silent = false → pg < 256 → present pg = true → data < 2 ^ 32 →
      exec (.registerWrite pg false 0x14 data owner) s = .next (s.set F.Hdr.EVENT_ENABLE pg data) ∧
      exec (.registerWrite pg false 0x1C data owner) s = .next ((s.set F.Hdr.ROUTE_EN pg (bits data 16 1)).set F.Hdr.LINE pg data)) ∧
    (∀ pg off data owner, pg ∈ [1, 0x062, 0x068, 0x085, 0x086, 0x0AB, 0x0AC] → s.passes pg owner = true → owner < 256 → data < 2 ^ 32 →
      0x40 ≤ off → off < 0x800 → off % 4 = 0 → ∃ t, exec (.registerWrite pg false off data owner) s = .next t ∧
        (∀ e ∈ wordFields pg off,
          ((e.1.acc = .rw ∨ e.1.acc = .rws) → e.1.cls ≠ .s → (e.1.cls = .h → s.fnRuns pg e.1 e.2 = false) → e.1.reserved (bits data e.1.lo e.1.w) = false →
            t.getI e.1 pg e.2 = bits data e.1.lo e.1.w) ∧
          (e.1.acc = .ro ∨ e.1.acc = .wo ∨ e.1.cls = .s ∨ (e.1.cls = .h ∧ s.fnRuns pg e.1 e.2 = true) ∨
            ((e.1.acc = .rw ∨ e.1.acc = .rws) ∧ e.1.reserved (bits data e.1.lo e.1.w) = true) → t.getI e.1 pg e.2 = s.getI e.1 pg e.2)) ∧
        (s.heldHit pg off data = false → s.OnlyRegs t ((wordFields pg off).map (fun e => e.1.key pg e.2))) ∧
        (s.heldHit pg off data = true → s.OnlyEvents t pg ((wordFields pg off).map (fun e => e.1.key pg e.2)) ∧
          bitAt (t.get F.Hdr.EVENT_STATUS pg) Ev.regWriteWhileRunning.bit = true)) ∧
    (∀ pg off data owner, pg ∈ [0x062, 0x068, 0x06C] → s.passes pg owner = true → owner < 256 → data < 2 ^ 32 → 0x840 ≤ off → off < 0x1000 → off % 4 = 0 →
      (s.cstate pg ≠ 2 → pg ≠ 0x06C → exec (.registerWrite pg false off data owner) s = .next (shadowReg pg (off - 0x800) data s)) ∧
      (s.cstate pg = 2 → ∃ t, exec (.registerWrite pg false off data owner) s = .next t ∧ t.aptw = s.aptw ∧
        bitAt (t.get F.Hdr.EVENT_STATUS pg) Ev.regWriteWhileFrozen.bit = true)) ∧
    (∀ pg off data owner, pg ≠ pgCal → within pg 0x06C 0x06F = false → s.passes pg owner = true → pg < 256 → owner < 256 → data < 2 ^ 32 → off < 2 ^ 21 → off % 4 = 0 →
      winClass pg off = .l → ∃ t, exec (.registerWrite pg true off data owner) s = .next t ∧ t.apt pg off = data &&& winMask pg off ∧ t.regs = s.regs ∧
        ∀ a, a ≠ aptKey pg off → tfind t.aptw a = tfind s.aptw a) ∧
    (∃ a b u t, s.pool = a ++ b ∧ u = a.foldl State.ledgerAppend s ∧ t = ({ u with pool := b }).set F.Led.POOL_LEVEL pgLedger b.length ∧
      (b ≠ [] → u.ledgerAccepts = false) ∧ exec .poolDrain s = .next t)
end

