-- ==== Sys2Proof/Laws/Bits.lean ====
section
/-! SUPPORT. Laws of bit fields. -/

-- One declaration after another: the package is also checked as one text, where too many threads would start at once.
set_option Elab.async false

namespace Sys2Proof.Machine

theorem bitAt_eq_testBit (v i : Nat) : bitAt v i = v.testBit i := by
  simp only [bitAt, Nat.testBit_eq_decide_div_mod_eq]; rfl

theorem low_of_lt {w v : Nat} (h : v < 2 ^ w) : low w v = v := Nat.mod_eq_of_lt h

theorem low_lt (w v : Nat) : low w v < 2 ^ w := Nat.mod_lt _ (Nat.two_pow_pos w)

/-- The low bits of a number are its own. -/
theorem bitAt_low {w v i : Nat} (h : i < w) : bitAt (low w v) i = bitAt v i := by
  rw [bitAt_eq_testBit, bitAt_eq_testBit]
  show (v % 2 ^ w).testBit i = _
  rw [Nat.testBit_mod_two_pow]; simp [h]

theorem setBit_eq (v i : Nat) : setBit v i = v ||| 2 ^ i := by
  unfold setBit
  split <;> rename_i h
  · rw [bitAt_eq_testBit] at h
    apply Nat.eq_of_testBit_eq
    intro j
    rw [Nat.testBit_or, Nat.testBit_two_pow]
    by_cases hj : i = j
    · subst hj; rw [h]; rfl
    · simp [hj]
  · have h' : v / 2 ^ i % 2 = 0 := by
      simp only [bitAt, beq_iff_eq] at h; omega
    apply Nat.eq_of_testBit_eq
    intro j
    rw [Nat.testBit_or, Nat.testBit_two_pow]
    have e : v = 2 ^ (i + 1) * (v / 2 ^ (i + 1)) + v % 2 ^ (i + 1) := (Nat.div_add_mod _ _).symm
    have hp : 2 ^ (i + 1) = 2 ^ i * 2 := pow_succ 2 i
    have lt : v % 2 ^ (i + 1) < 2 ^ i := by
      have h2 : v % 2 ^ (i + 1) / 2 ^ i = 0 := by rw [hp, Nat.mod_mul_right_div_self]; exact h'
      exact (Nat.div_eq_zero_iff_lt (Nat.two_pow_pos i)).mp h2
    have l2 : v % 2 ^ (i + 1) < 2 ^ (i + 1) := Nat.mod_lt _ (Nat.two_pow_pos _)
    have l1 : v % 2 ^ (i + 1) + 2 ^ i < 2 ^ (i + 1) := by omega
    by_cases hj : i = j
    · subst hj
      rw [Nat.testBit_eq_decide_div_mod_eq, Nat.add_div_right _ (Nat.two_pow_pos i)]
      simp; omega
    · simp only [hj, decide_false, Bool.or_false]
      rw [show v + 2 ^ i = 2 ^ (i + 1) * (v / 2 ^ (i + 1)) + (v % 2 ^ (i + 1) + 2 ^ i) by omega]
      conv_rhs => rw [e]
      rw [Nat.testBit_two_pow_mul_add _ l1, Nat.testBit_two_pow_mul_add _ l2]
      split
      · rename_i hlt
        rw [show v % 2 ^ (i + 1) + 2 ^ i = 2 ^ i * 1 + v % 2 ^ (i + 1) by omega, Nat.testBit_two_pow_mul_add _ lt]
        split
        · rfl
        · omega
      · rfl

/-- A bit that is set reads 1, and the others read as before. -/
theorem bitAt_setBit (v i j : Nat) : bitAt (setBit v i) j = (bitAt v j || decide (i = j)) := by
  rw [setBit_eq, bitAt_eq_testBit, bitAt_eq_testBit, Nat.testBit_or, Nat.testBit_two_pow]

@[simp] theorem bitAt_setBit_self (v i : Nat) : bitAt (setBit v i) i = true := by simp [bitAt_setBit]

/-- A bit that is cleared reads 0, and the others read as before. -/
theorem bitAt_clearBit (v i j : Nat) : bitAt (clearBit v i) j = (bitAt v j && !decide (i = j)) := by
  unfold clearBit
  split <;> rename_i h
  · have hs : setBit (v - 2 ^ i) i = v := by
      have hv : v / 2 ^ i % 2 = 1 := by simpa [bitAt] using h
      have hle : 2 ^ i ≤ v := by
        by_contra hc
        rw [Nat.div_eq_of_lt (by omega)] at hv; simp at hv
      have h0 : (v - 2 ^ i) / 2 ^ i % 2 = 0 := by
        have : v / 2 ^ i = (v - 2 ^ i) / 2 ^ i + 1 := by
          rw [← Nat.add_div_right _ (Nat.two_pow_pos i)]; congr 1; omega
        omega
      unfold setBit
      rw [if_neg (by simp [bitAt, h0])]; omega
    have key : ∀ k, bitAt v k = (bitAt (v - 2 ^ i) k || decide (i = k)) := fun k => by
      rw [← bitAt_setBit, hs]
    have h0 : bitAt (v - 2 ^ i) i = false := by
      have hv : v / 2 ^ i % 2 = 1 := by simpa [bitAt] using h
      have hle : 2 ^ i ≤ v := by
        by_contra hc
        rw [Nat.div_eq_of_lt (by omega)] at hv; simp at hv
      have : v / 2 ^ i = (v - 2 ^ i) / 2 ^ i + 1 := by
        rw [← Nat.add_div_right _ (Nat.two_pow_pos i)]; congr 1; omega
      simp only [bitAt, beq_eq_false_iff_ne]; omega
    by_cases hj : i = j
    · subst hj; simp [h0]
    · rw [key j]; simp [hj]
  · by_cases hj : i = j
    · subst hj; simpa using h
    · simp [hj]

@[simp] theorem bit_eq_one (b : Bool) : (bit b == 1) = b := by cases b <;> rfl

end Sys2Proof.Machine
end

