-- ==== Sys2Proof/Laws/Tbl.lean ====
section
/-! SUPPORT. Laws of the sparse stores and of byte memory: what a read after a write gives, and that every operation keeps
the canonical form. -/

-- One declaration after another: the package is also checked as one text, where too many threads would start at once.
set_option Elab.async false

namespace Sys2Proof.Machine

section Tables
variable {α : Type}

@[simp] theorem tfind_tdel_self (m : Tbl α) (k : Nat) : tfind (tdel m k) k = none := by
  induction m with
  | nil => rfl
  | cons e t ih =>
    obtain ⟨k', v⟩ := e
    by_cases h : k' = k <;> simp [tdel, tfind, h, ih]

theorem tfind_tdel_ne (m : Tbl α) {k k' : Nat} (h : k' ≠ k) : tfind (tdel m k) k' = tfind m k' := by
  induction m with
  | nil => rfl
  | cons e t ih =>
    obtain ⟨j, v⟩ := e
    by_cases hj : j = k
    · subst hj; simp [tdel, tfind, ih, Ne.symm h]
    · simp only [tdel, hj, if_false, tfind, ih]

theorem tfind_tins_self (m : Tbl α) (k : Nat) (v : α) (h : tfind m k = none) : tfind (tins m k v) k = some v := by
  induction m with
  | nil => simp [tins, tfind]
  | cons e t ih =>
    obtain ⟨j, w⟩ := e
    have hj : j ≠ k := by rintro rfl; simp [tfind] at h
    have ht : tfind t k = none := by simpa [tfind, hj] using h
    by_cases hlt : k < j <;> simp [tins, tfind, hlt, hj, ih ht]

theorem tfind_tins_ne (m : Tbl α) {k k' : Nat} (v : α) (h : k' ≠ k) : tfind (tins m k v) k' = tfind m k' := by
  induction m with
  | nil => simp [tins, tfind, Ne.symm h]
  | cons e t ih =>
    obtain ⟨j, w⟩ := e
    by_cases hlt : k < j <;> simp [tins, tfind, hlt, Ne.symm h, ih]

@[simp] theorem tfind_tput_self (m : Tbl α) (k : Nat) (v : α) : tfind (tput m k v) k = some v :=
  tfind_tins_self _ _ _ (tfind_tdel_self m k)

theorem tfind_tput_ne (m : Tbl α) {k k' : Nat} (v : α) (h : k' ≠ k) : tfind (tput m k v) k' = tfind m k' := by
  rw [tput, tfind_tins_ne _ _ h, tfind_tdel_ne _ h]

@[simp] theorem tget_tput_self (m : Tbl α) (k : Nat) (v d : α) : tget (tput m k v) k d = v := by simp [tget]

theorem tget_tput_ne (m : Tbl α) {k k' : Nat} (v d : α) (h : k' ≠ k) : tget (tput m k v) k' d = tget m k' d := by
  simp [tget, tfind_tput_ne _ _ h]

@[simp] theorem tget_tputD_self [DecidableEq α] (m : Tbl α) (k : Nat) (v d : α) : tget (tputD m k v d) k d = v := by
  by_cases h : v = d <;> simp [tputD, h, tget]

theorem tget_tputD_ne [DecidableEq α] (m : Tbl α) {k k' : Nat} (v d d' : α) (h : k' ≠ k) :
    tget (tputD m k v d) k' d' = tget m k' d' := by
  by_cases hv : v = d <;> simp [tputD, hv, tget, tfind_tdel_ne _ h, tfind_tput_ne _ _ h]

/-! ### Canonical form -/

theorem tsorted_cons {k : Nat} {v : α} {t : Tbl α} :
    tsorted ((k, v) :: t) = true ↔ (∀ e ∈ t, k < e.1) ∧ tsorted t = true := by
  induction t generalizing k v with
  | nil => simp [tsorted]
  | cons e t ih =>
    obtain ⟨j, w⟩ := e
    simp only [tsorted, Bool.and_eq_true, decide_eq_true_eq, List.mem_cons, forall_eq_or_imp]
    constructor
    · rintro ⟨h1, h2⟩
      exact ⟨⟨h1, fun e he => lt_trans h1 ((ih.1 h2).1 e he)⟩, h2⟩
    · rintro ⟨⟨h1, -⟩, h2⟩
      exact ⟨h1, h2⟩

theorem tsorted_iff {t : Tbl α} : tsorted t = true ↔ t.Pairwise (fun a b => a.1 < b.1) := by
  induction t with
  | nil => simp [tsorted]
  | cons e t ih =>
    obtain ⟨k, v⟩ := e
    rw [tsorted_cons, List.pairwise_cons, ih]

theorem tsorted_filter {t : Tbl α} (p : Nat × α → Bool) (h : tsorted t = true) : tsorted (t.filter p) = true :=
  tsorted_iff.2 ((tsorted_iff.1 h).filter p)

theorem tdel_eq_filter (m : Tbl α) (k : Nat) : tdel m k = m.filter (fun e => decide (e.1 ≠ k)) := by
  induction m with
  | nil => rfl
  | cons e t ih =>
    obtain ⟨j, w⟩ := e
    by_cases h : j = k <;> simp [tdel, h, ih]

theorem tsorted_tdel {m : Tbl α} (k : Nat) (h : tsorted m = true) : tsorted (tdel m k) = true := by
  rw [tdel_eq_filter]; exact tsorted_filter _ h

theorem mem_tins {m : Tbl α} {k : Nat} {v : α} {e : Nat × α} : e ∈ tins m k v ↔ e = (k, v) ∨ e ∈ m := by
  induction m with
  | nil => simp [tins]
  | cons f t ih =>
    obtain ⟨j, w⟩ := f
    by_cases h : k < j
    · simp [tins, h]
    · simp only [tins, h, if_false, List.mem_cons, ih]
      tauto

theorem tsorted_tins {m : Tbl α} {k : Nat} {v : α} (hk : ∀ e ∈ m, e.1 ≠ k) (h : tsorted m = true) :
    tsorted (tins m k v) = true := by
  induction m with
  | nil => rfl
  | cons f t ih =>
    obtain ⟨j, w⟩ := f
    obtain ⟨h1, h2⟩ := tsorted_cons.1 h
    have hj : j ≠ k := hk (j, w) (by simp)
    by_cases hlt : k < j
    · simp only [tins, hlt, if_true]
      refine tsorted_cons.2 ⟨fun e he => ?_, h⟩
      rcases List.mem_cons.1 he with rfl | he
      · exact hlt
      · exact lt_trans hlt (h1 e he)
    · simp only [tins, hlt, if_false]
      refine tsorted_cons.2 ⟨fun e he => ?_, ih (fun e he => hk e (by simp [he])) h2⟩
      rcases mem_tins.1 he with rfl | he
      · exact lt_of_le_of_ne (not_lt.1 hlt) hj
      · exact h1 e he

theorem tsorted_tput {m : Tbl α} (k : Nat) (v : α) (h : tsorted m = true) : tsorted (tput m k v) = true := by
  refine tsorted_tins (fun e he => ?_) (tsorted_tdel k h)
  rw [tdel_eq_filter] at he
  simpa using (List.mem_filter.1 he).2

theorem tsorted_tclear {m : Tbl α} (lo hi : Nat) (h : tsorted m = true) : tsorted (tclear m lo hi) = true :=
  tsorted_filter _ h

theorem tsorted_trange {m : Tbl α} (lo hi : Nat) (h : tsorted m = true) : tsorted (trange m lo hi) = true :=
  tsorted_filter _ h

variable [DecidableEq α]

theorem tsorted_tputD {m : Tbl α} (k : Nat) (v d : α) (h : tsorted m = true) : tsorted (tputD m k v d) = true := by
  unfold tputD; split
  · exact tsorted_tdel k h
  · exact tsorted_tput k v h

theorem twf_iff {m : Tbl α} {d : α} : twf m d = true ↔ tsorted m = true ∧ ∀ e ∈ m, e.2 ≠ d := by
  simp [twf, List.all_eq_true]

theorem twf_filter {m : Tbl α} {d : α} (p : Nat × α → Bool) (h : twf m d = true) : twf (m.filter p) d = true := by
  obtain ⟨h1, h2⟩ := twf_iff.1 h
  exact twf_iff.2 ⟨tsorted_filter p h1, fun e he => h2 e (List.mem_filter.1 he).1⟩

theorem twf_tdel {m : Tbl α} {d : α} (k : Nat) (h : twf m d = true) : twf (tdel m k) d = true := by
  rw [tdel_eq_filter]; exact twf_filter _ h

theorem twf_tclear {m : Tbl α} {d : α} (lo hi : Nat) (h : twf m d = true) : twf (tclear m lo hi) d = true :=
  twf_filter _ h

theorem twf_tputD {m : Tbl α} (k : Nat) (v d : α) (h : twf m d = true) : twf (tputD m k v d) d = true := by
  by_cases hv : v = d
  · simpa [tputD, hv] using twf_tdel k h
  · obtain ⟨h1, h2⟩ := twf_iff.1 h
    simp only [tputD, hv, if_false]
    refine twf_iff.2 ⟨tsorted_tput k v h1, fun e he => ?_⟩
    rcases mem_tins.1 he with rfl | he
    · exact hv
    · rw [tdel_eq_filter] at he
      exact h2 e (List.mem_filter.1 he).1

/-- Two canonical stores that read alike are the same data. -/
theorem twf_ext {m n : Tbl α} {d : α} (hm : twf m d = true) (hn : twf n d = true)
    (h : ∀ k, tget m k d = tget n k d) : m = n := by
  have key : ∀ (t : Tbl α) (k : Nat), (∀ e ∈ t, k < e.1) → tfind t k = none := by
    intro t k ht
    induction t with
    | nil => rfl
    | cons e t ih =>
      obtain ⟨j, w⟩ := e
      have : k < j := ht (j, w) (by simp)
      simp [tfind, (ne_of_gt this), ih (fun e he => ht e (by simp [he]))]
  induction m generalizing n with
  | nil =>
    cases n with
    | nil => rfl
    | cons f t =>
      obtain ⟨j, w⟩ := f
      have := h j
      simp only [tget, tfind, if_true, Option.getD_none, Option.getD_some] at this
      exact absurd this.symm ((twf_iff.1 hn).2 (j, w) (by simp))
  | cons e s ih =>
    obtain ⟨k, v⟩ := e
    have hs := twf_iff.1 hm
    obtain ⟨hk, hss⟩ := tsorted_cons.1 hs.1
    cases n with
    | nil =>
      have := h k
      simp only [tget, tfind, if_true, Option.getD_none, Option.getD_some] at this
      exact absurd this (hs.2 (k, v) (by simp))
    | cons f t =>
      obtain ⟨j, w⟩ := f
      have ht := twf_iff.1 hn
      obtain ⟨hj, htt⟩ := tsorted_cons.1 ht.1
      have hkj : k = j := by
        rcases lt_trichotomy k j with hlt | heq | hgt
        · have := h k
          simp only [tget, tfind, if_true, (ne_of_gt hlt), if_false, Option.getD_some,
            key t k (fun e he => lt_trans hlt (hj e he)), Option.getD_none] at this
          exact absurd this (hs.2 (k, v) (by simp))
        · exact heq
        · have := h j
          simp only [tget, tfind, if_true, (ne_of_gt hgt), if_false, Option.getD_some,
            key s j (fun e he => lt_trans hgt (hk e he)), Option.getD_none] at this
          exact absurd this.symm (ht.2 (j, w) (by simp))
      subst hkj
      have hvw : v = w := by simpa [tget, tfind] using h k
      subst hvw
      have : s = t := by
        refine ih (twf_iff.2 ⟨hss, fun e he => hs.2 e (by simp [he])⟩)
          (twf_iff.2 ⟨htt, fun e he => ht.2 e (by simp [he])⟩) (fun i => ?_)
        by_cases hi : i = k
        · subst hi; simp [tget, key s i hk, key t i hj]
        · simpa [tget, tfind, Ne.symm hi] using h i
      rw [this]

end Tables

/-! ### Byte memory -/

@[simp] theorem memByte_memSetByte_self (m : List Host.Cell) (a : Nat) (b : Byte) : memByte (memSetByte m a b) a = b :=
  tget_tputD_self m a b 0

theorem memByte_memSetByte_ne (m : List Host.Cell) {a a' : Nat} (b : Byte) (h : a' ≠ a) :
    memByte (memSetByte m a b) a' = memByte m a' := tget_tputD_ne m b 0 0 h

theorem memSetByte_wf {m : List Host.Cell} (a : Nat) (b : Byte) (h : Memory.wf m) : Memory.wf (memSetByte m a b) :=
  twf_tputD a b 0 h

theorem mem_byteCells {a : Nat} {bs : List Byte} {e : Host.Cell} (h : e ∈ byteCells a bs) :
    a ≤ e.1 ∧ e.1 < a + bs.length ∧ e.2 ≠ 0 := by
  induction bs generalizing a with
  | nil => simp [byteCells] at h
  | cons b bs ih =>
    have tail : e ∈ byteCells (a + 1) bs → a ≤ e.1 ∧ e.1 < a + (b :: bs).length ∧ e.2 ≠ 0 := fun h => by
      obtain ⟨h1, h2, h3⟩ := ih h
      rw [List.length_cons]
      exact ⟨by omega, by omega, h3⟩
    by_cases hb : b = 0
    · exact tail (by simpa [byteCells, hb] using h)
    · rw [byteCells, if_neg hb] at h
      rcases List.mem_cons.1 h with h | h
      · subst h; exact ⟨le_refl _, by simp, hb⟩
      · exact tail h

theorem tsorted_byteCells (a : Nat) (bs : List Byte) : tsorted (byteCells a bs) = true := by
  induction bs generalizing a with
  | nil => rfl
  | cons b bs ih =>
    by_cases hb : b = 0
    · simpa [byteCells, hb] using ih (a + 1)
    · simp only [byteCells, hb, if_false]
      refine tsorted_cons.2 ⟨fun e he => ?_, ih (a + 1)⟩
      have := mem_byteCells he
      omega

theorem tsorted_append {α : Type} {s t : Tbl α} (hs : tsorted s = true) (ht : tsorted t = true)
    (h : ∀ e ∈ s, ∀ f ∈ t, e.1 < f.1) : tsorted (s ++ t) = true :=
  tsorted_iff.2 (List.pairwise_append.2 ⟨tsorted_iff.1 hs, tsorted_iff.1 ht, h⟩)

/-- Writing bytes keeps the canonical form. -/
theorem memWrite_wf {m : List Host.Cell} (a : Nat) (bs : List Byte) (h : Memory.wf m) : Memory.wf (memWrite m a bs) := by
  obtain ⟨h1, h2⟩ := twf_iff.1 h
  refine twf_iff.2 ⟨?_, fun e he => ?_⟩
  · refine tsorted_append (tsorted_filter _ h1) (tsorted_append (tsorted_byteCells a bs) (tsorted_filter _ h1) ?_) ?_
    · intro e he f hf
      have := mem_byteCells he
      have := (List.mem_filter.1 hf).2
      simp only [decide_eq_true_eq] at this
      omega
    · intro e he f hf
      have h3 := (List.mem_filter.1 he).2
      simp only [decide_eq_true_eq] at h3
      rcases List.mem_append.1 hf with hf | hf
      · have := mem_byteCells hf; omega
      · have := (List.mem_filter.1 hf).2
        simp only [decide_eq_true_eq] at this
        omega
  · rcases List.mem_append.1 he with he | he
    · exact h2 e (List.mem_filter.1 he).1
    · rcases List.mem_append.1 he with he | he
      · exact (mem_byteCells he).2.2
      · exact h2 e (List.mem_filter.1 he).1

theorem tfind_append {α : Type} (s t : Tbl α) (k : Nat) : tfind (s ++ t) k = (tfind s k).orElse (fun _ => tfind t k) := by
  induction s with
  | nil => rfl
  | cons e s ih =>
    obtain ⟨j, w⟩ := e
    by_cases h : j = k <;> simp [tfind, h, ih]

theorem tfind_filter {α : Type} (m : Tbl α) (p : Nat → Bool) (k : Nat) :
    tfind (m.filter (fun e => p e.1)) k = if p k then tfind m k else none := by
  induction m with
  | nil => simp [tfind]
  | cons e t ih =>
    obtain ⟨j, w⟩ := e
    by_cases hj : j = k
    · subst hj; by_cases hp : p j <;> simp [hp, tfind, ih]
    · by_cases hp : p j <;> simp [hp, tfind, hj, ih]

theorem tget_byteCells (a : Nat) (bs : List Byte) (k : Nat) :
    tget (byteCells a bs) k 0 = if a ≤ k ∧ k < a + bs.length then bs.getD (k - a) 0 else 0 := by
  induction bs generalizing a with
  | nil => simp [byteCells, tget, tfind]
  | cons b bs ih =>
    have step : tget (byteCells a (b :: bs)) k 0 = if k = a then b else tget (byteCells (a + 1) bs) k 0 := by
      by_cases hb : b = 0
      · simp only [byteCells, hb, if_true]
        split
        · rename_i h; subst h; rw [ih]; simp
        · rfl
      · simp only [byteCells, hb, if_false, tget, tfind]
        by_cases hk : a = k
        · simp [hk]
        · simp [hk, Ne.symm hk]
    rw [step, ih]
    by_cases hk : k = a
    · subst hk; simp
    · simp only [hk, if_false, List.length_cons]
      by_cases hr : a + 1 ≤ k ∧ k < a + 1 + bs.length
      · rw [if_pos hr, if_pos (by omega)]
        have : k - a = (k - (a + 1)) + 1 := by omega
        rw [this, List.getD_cons_succ]
      · rw [if_neg hr, if_neg (by omega)]

/-- A byte after a write: the written one inside the range, the old one outside. -/
theorem memByte_memWrite (m : List Host.Cell) (a : Nat) (bs : List Byte) (k : Nat) :
    memByte (memWrite m a bs) k = if a ≤ k ∧ k < a + bs.length then bs.getD (k - a) 0 else memByte m k := by
  have hf : tfind (memWrite m a bs) k = if k < a then tfind m k else
      ((tfind (byteCells a bs) k).orElse fun _ => if a + bs.length ≤ k then tfind m k else none) := by
    unfold memWrite
    rw [tfind_append, tfind_append, tfind_filter m (fun j => decide (j < a)),
      tfind_filter m (fun j => decide (a + bs.length ≤ j))]
    by_cases h : k < a
    · have hn : tfind (byteCells a bs) k = none := by
        by_contra hc
        have : ∀ (t : Tbl Byte), (∀ e ∈ t, a ≤ e.1) → tfind t k = none := by
          intro t ht
          induction t with
          | nil => rfl
          | cons e t ih =>
            obtain ⟨j, w⟩ := e
            have := ht (j, w) (by simp)
            have hj : j ≠ k := by simp only at this; omega
            simp [tfind, hj, ih (fun e he => ht e (by simp [he]))]
        exact hc (this _ (fun e he => (mem_byteCells he).1))
      have hle : ¬ a + bs.length ≤ k := by omega
      simp [h, hn, hle]
    · simp [h]
  have hc := tget_byteCells a bs k
  unfold memByte
  simp only [tget, hf]
  by_cases h : k < a
  · have : ¬ (a ≤ k ∧ k < a + bs.length) := by omega
    simp [h, this]
  · by_cases hr : a ≤ k ∧ k < a + bs.length
    · have hle : ¬ a + bs.length ≤ k := by omega
      simp only [tget, hr, and_self, if_true] at hc
      simp only [h, if_false, hle, hr, and_self, if_true, ← hc]
      cases tfind (byteCells a bs) k <;> rfl
    · have hle : a + bs.length ≤ k := by omega
      have hn : tfind (byteCells a bs) k = none := by
        have : ∀ (t : Tbl Byte), (∀ e ∈ t, e.1 < a + bs.length) → tfind t k = none := by
          intro t ht
          induction t with
          | nil => rfl
          | cons e t ih =>
            obtain ⟨j, w⟩ := e
            have := ht (j, w) (by simp)
            have hj : j ≠ k := by simp only at this; omega
            simp [tfind, hj, ih (fun e he => ht e (by simp [he]))]
        exact this _ (fun e he => (mem_byteCells he).2.1)
      simp [h, hr, hle, hn]

/-- A byte outside the written range is unchanged. -/
theorem memByte_memWrite_out (m : List Host.Cell) (a : Nat) (bs : List Byte) {k : Nat} (h : k < a ∨ a + bs.length ≤ k) :
    memByte (memWrite m a bs) k = memByte m k := by
  rw [memByte_memWrite, if_neg (by omega)]

end Sys2Proof.Machine
end

