-- ==== Sys2Proof/Laws/State.lean ====
section
/-! SUPPORT. What each update of the state leaves in each of its fields: one small lemma per field and update. -/

-- One declaration after another: the package is also checked as one text, where too many threads would start at once.
set_option Elab.async false

namespace Sys2Proof.Machine

variable (s : State)


section
variable (f : Fld) (pg i v : Nat)

@[simp] theorem State.setI_now : (s.setI f pg i v).now = s.now := rfl
@[simp] theorem State.setI_pending : (s.setI f pg i v).pending = s.pending := rfl
@[simp] theorem State.setI_aptw : (s.setI f pg i v).aptw = s.aptw := rfl
@[simp] theorem State.setI_sdram : (s.setI f pg i v).sdram = s.sdram := rfl
@[simp] theorem State.setI_room : (s.setI f pg i v).room = s.room := rfl
@[simp] theorem State.setI_freeIx : (s.setI f pg i v).freeIx = s.freeIx := rfl
@[simp] theorem State.setI_resp : (s.setI f pg i v).resp = s.resp := rfl
@[simp] theorem State.setI_countBase : (s.setI f pg i v).countBase = s.countBase := rfl
@[simp] theorem State.setI_stamps : (s.setI f pg i v).stamps = s.stamps := rfl
@[simp] theorem State.setI_pool : (s.setI f pg i v).pool = s.pool := rfl
@[simp] theorem State.setI_bnd : (s.setI f pg i v).bnd = s.bnd := rfl
@[simp] theorem State.setI_grp : (s.setI f pg i v).grp = s.grp := rfl
@[simp] theorem State.setI_ring : (s.setI f pg i v).ring = s.ring := rfl
@[simp] theorem State.setI_mode : (s.setI f pg i v).mode = s.mode := rfl
@[simp] theorem State.setI_pos : (s.setI f pg i v).pos = s.pos := rfl
@[simp] theorem State.setI_div : (s.setI f pg i v).div = s.div := rfl
@[simp] theorem State.setI_cmp : (s.setI f pg i v).cmp = s.cmp := rfl
@[simp] theorem State.setI_ing : (s.setI f pg i v).ing = s.ing := rfl
@[simp] theorem State.setI_regn : (s.setI f pg i v).regn = s.regn := rfl
@[simp] theorem State.setI_port : (s.setI f pg i v).port = s.port := rfl
@[simp] theorem State.setI_lane : (s.setI f pg i v).lane = s.lane := rfl
@[simp] theorem State.setI_cam : (s.setI f pg i v).cam = s.cam := rfl
@[simp] theorem State.setI_link : (s.setI f pg i v).link = s.link := rfl
@[simp] theorem State.setI_pipe : (s.setI f pg i v).pipe = s.pipe := rfl
@[simp] theorem State.setI_trk : (s.setI f pg i v).trk = s.trk := rfl
@[simp] theorem State.setI_tdc : (s.setI f pg i v).tdc = s.tdc := rfl
@[simp] theorem State.setI_memx : (s.setI f pg i v).memx = s.memx := rfl
@[simp] theorem State.setI_memc : (s.setI f pg i v).memc = s.memc := rfl
@[simp] theorem State.setI_memBad : (s.setI f pg i v).memBad = s.memBad := rfl
@[simp] theorem State.setI_sramErr : (s.setI f pg i v).sramErr = s.sramErr := rfl
@[simp] theorem State.setI_stack : (s.setI f pg i v).stack = s.stack := rfl
@[simp] theorem State.setI_scrub : (s.setI f pg i v).scrub = s.scrub := rfl
@[simp] theorem State.setI_flits : (s.setI f pg i v).flits = s.flits := rfl
@[simp] theorem State.setI_net : (s.setI f pg i v).net = s.net := rfl
@[simp] theorem State.setI_ptp : (s.setI f pg i v).ptp = s.ptp := rfl
@[simp] theorem State.setI_trig : (s.setI f pg i v).trig = s.trig := rfl
@[simp] theorem State.setI_tcap : (s.setI f pg i v).tcap = s.tcap := rfl
@[simp] theorem State.setI_pair : (s.setI f pg i v).pair = s.pair := rfl
@[simp] theorem State.setI_sag : (s.setI f pg i v).sag = s.sag := rfl
@[simp] theorem State.setI_hk : (s.setI f pg i v).hk = s.hk := rfl
@[simp] theorem State.setI_rail : (s.setI f pg i v).rail = s.rail := rfl
@[simp] theorem State.setI_jrn : (s.setI f pg i v).jrn = s.jrn := rfl
@[simp] theorem State.setI_cpu : (s.setI f pg i v).cpu = s.cpu := rfl
@[simp] theorem State.setI_cal : (s.setI f pg i v).cal = s.cal := rfl

end

section
variable (f : Fld) (pg v : Nat)

@[simp] theorem State.set_now : (s.set f pg v).now = s.now := rfl
@[simp] theorem State.set_pending : (s.set f pg v).pending = s.pending := rfl
@[simp] theorem State.set_aptw : (s.set f pg v).aptw = s.aptw := rfl
@[simp] theorem State.set_sdram : (s.set f pg v).sdram = s.sdram := rfl
@[simp] theorem State.set_room : (s.set f pg v).room = s.room := rfl
@[simp] theorem State.set_freeIx : (s.set f pg v).freeIx = s.freeIx := rfl
@[simp] theorem State.set_resp : (s.set f pg v).resp = s.resp := rfl
@[simp] theorem State.set_countBase : (s.set f pg v).countBase = s.countBase := rfl
@[simp] theorem State.set_stamps : (s.set f pg v).stamps = s.stamps := rfl
@[simp] theorem State.set_pool : (s.set f pg v).pool = s.pool := rfl
@[simp] theorem State.set_bnd : (s.set f pg v).bnd = s.bnd := rfl
@[simp] theorem State.set_grp : (s.set f pg v).grp = s.grp := rfl
@[simp] theorem State.set_ring : (s.set f pg v).ring = s.ring := rfl
@[simp] theorem State.set_mode : (s.set f pg v).mode = s.mode := rfl
@[simp] theorem State.set_pos : (s.set f pg v).pos = s.pos := rfl
@[simp] theorem State.set_div : (s.set f pg v).div = s.div := rfl
@[simp] theorem State.set_cmp : (s.set f pg v).cmp = s.cmp := rfl
@[simp] theorem State.set_ing : (s.set f pg v).ing = s.ing := rfl
@[simp] theorem State.set_regn : (s.set f pg v).regn = s.regn := rfl
@[simp] theorem State.set_port : (s.set f pg v).port = s.port := rfl
@[simp] theorem State.set_lane : (s.set f pg v).lane = s.lane := rfl
@[simp] theorem State.set_cam : (s.set f pg v).cam = s.cam := rfl
@[simp] theorem State.set_link : (s.set f pg v).link = s.link := rfl
@[simp] theorem State.set_pipe : (s.set f pg v).pipe = s.pipe := rfl
@[simp] theorem State.set_trk : (s.set f pg v).trk = s.trk := rfl
@[simp] theorem State.set_tdc : (s.set f pg v).tdc = s.tdc := rfl
@[simp] theorem State.set_memx : (s.set f pg v).memx = s.memx := rfl
@[simp] theorem State.set_memc : (s.set f pg v).memc = s.memc := rfl
@[simp] theorem State.set_memBad : (s.set f pg v).memBad = s.memBad := rfl
@[simp] theorem State.set_sramErr : (s.set f pg v).sramErr = s.sramErr := rfl
@[simp] theorem State.set_stack : (s.set f pg v).stack = s.stack := rfl
@[simp] theorem State.set_scrub : (s.set f pg v).scrub = s.scrub := rfl
@[simp] theorem State.set_flits : (s.set f pg v).flits = s.flits := rfl
@[simp] theorem State.set_net : (s.set f pg v).net = s.net := rfl
@[simp] theorem State.set_ptp : (s.set f pg v).ptp = s.ptp := rfl
@[simp] theorem State.set_trig : (s.set f pg v).trig = s.trig := rfl
@[simp] theorem State.set_tcap : (s.set f pg v).tcap = s.tcap := rfl
@[simp] theorem State.set_pair : (s.set f pg v).pair = s.pair := rfl
@[simp] theorem State.set_sag : (s.set f pg v).sag = s.sag := rfl
@[simp] theorem State.set_hk : (s.set f pg v).hk = s.hk := rfl
@[simp] theorem State.set_rail : (s.set f pg v).rail = s.rail := rfl
@[simp] theorem State.set_jrn : (s.set f pg v).jrn = s.jrn := rfl
@[simp] theorem State.set_cpu : (s.set f pg v).cpu = s.cpu := rfl
@[simp] theorem State.set_cal : (s.set f pg v).cal = s.cal := rfl

end

section
variable (f : Fld) (pg i v : Nat)

@[simp] theorem State.setShadow_now : (s.setShadow f pg i v).now = s.now := rfl
@[simp] theorem State.setShadow_pending : (s.setShadow f pg i v).pending = s.pending := rfl
@[simp] theorem State.setShadow_aptw : (s.setShadow f pg i v).aptw = s.aptw := rfl
@[simp] theorem State.setShadow_sdram : (s.setShadow f pg i v).sdram = s.sdram := rfl
@[simp] theorem State.setShadow_room : (s.setShadow f pg i v).room = s.room := rfl
@[simp] theorem State.setShadow_freeIx : (s.setShadow f pg i v).freeIx = s.freeIx := rfl
@[simp] theorem State.setShadow_resp : (s.setShadow f pg i v).resp = s.resp := rfl
@[simp] theorem State.setShadow_countBase : (s.setShadow f pg i v).countBase = s.countBase := rfl
@[simp] theorem State.setShadow_stamps : (s.setShadow f pg i v).stamps = s.stamps := rfl
@[simp] theorem State.setShadow_pool : (s.setShadow f pg i v).pool = s.pool := rfl
@[simp] theorem State.setShadow_bnd : (s.setShadow f pg i v).bnd = s.bnd := rfl
@[simp] theorem State.setShadow_grp : (s.setShadow f pg i v).grp = s.grp := rfl
@[simp] theorem State.setShadow_ring : (s.setShadow f pg i v).ring = s.ring := rfl
@[simp] theorem State.setShadow_mode : (s.setShadow f pg i v).mode = s.mode := rfl
@[simp] theorem State.setShadow_pos : (s.setShadow f pg i v).pos = s.pos := rfl
@[simp] theorem State.setShadow_div : (s.setShadow f pg i v).div = s.div := rfl
@[simp] theorem State.setShadow_cmp : (s.setShadow f pg i v).cmp = s.cmp := rfl
@[simp] theorem State.setShadow_ing : (s.setShadow f pg i v).ing = s.ing := rfl
@[simp] theorem State.setShadow_regn : (s.setShadow f pg i v).regn = s.regn := rfl
@[simp] theorem State.setShadow_port : (s.setShadow f pg i v).port = s.port := rfl
@[simp] theorem State.setShadow_lane : (s.setShadow f pg i v).lane = s.lane := rfl
@[simp] theorem State.setShadow_cam : (s.setShadow f pg i v).cam = s.cam := rfl
@[simp] theorem State.setShadow_link : (s.setShadow f pg i v).link = s.link := rfl
@[simp] theorem State.setShadow_pipe : (s.setShadow f pg i v).pipe = s.pipe := rfl
@[simp] theorem State.setShadow_trk : (s.setShadow f pg i v).trk = s.trk := rfl
@[simp] theorem State.setShadow_tdc : (s.setShadow f pg i v).tdc = s.tdc := rfl
@[simp] theorem State.setShadow_memx : (s.setShadow f pg i v).memx = s.memx := rfl
@[simp] theorem State.setShadow_memc : (s.setShadow f pg i v).memc = s.memc := rfl
@[simp] theorem State.setShadow_memBad : (s.setShadow f pg i v).memBad = s.memBad := rfl
@[simp] theorem State.setShadow_sramErr : (s.setShadow f pg i v).sramErr = s.sramErr := rfl
@[simp] theorem State.setShadow_stack : (s.setShadow f pg i v).stack = s.stack := rfl
@[simp] theorem State.setShadow_scrub : (s.setShadow f pg i v).scrub = s.scrub := rfl
@[simp] theorem State.setShadow_flits : (s.setShadow f pg i v).flits = s.flits := rfl
@[simp] theorem State.setShadow_net : (s.setShadow f pg i v).net = s.net := rfl
@[simp] theorem State.setShadow_ptp : (s.setShadow f pg i v).ptp = s.ptp := rfl
@[simp] theorem State.setShadow_trig : (s.setShadow f pg i v).trig = s.trig := rfl
@[simp] theorem State.setShadow_tcap : (s.setShadow f pg i v).tcap = s.tcap := rfl
@[simp] theorem State.setShadow_pair : (s.setShadow f pg i v).pair = s.pair := rfl
@[simp] theorem State.setShadow_sag : (s.setShadow f pg i v).sag = s.sag := rfl
@[simp] theorem State.setShadow_hk : (s.setShadow f pg i v).hk = s.hk := rfl
@[simp] theorem State.setShadow_rail : (s.setShadow f pg i v).rail = s.rail := rfl
@[simp] theorem State.setShadow_jrn : (s.setShadow f pg i v).jrn = s.jrn := rfl
@[simp] theorem State.setShadow_cpu : (s.setShadow f pg i v).cpu = s.cpu := rfl
@[simp] theorem State.setShadow_cal : (s.setShadow f pg i v).cal = s.cal := rfl

end

section
variable (f : Fld) (pg i n : Nat)

@[simp] theorem State.satI_now : (s.satI f pg i n).now = s.now := rfl
@[simp] theorem State.satI_pending : (s.satI f pg i n).pending = s.pending := rfl
@[simp] theorem State.satI_aptw : (s.satI f pg i n).aptw = s.aptw := rfl
@[simp] theorem State.satI_sdram : (s.satI f pg i n).sdram = s.sdram := rfl
@[simp] theorem State.satI_room : (s.satI f pg i n).room = s.room := rfl
@[simp] theorem State.satI_freeIx : (s.satI f pg i n).freeIx = s.freeIx := rfl
@[simp] theorem State.satI_resp : (s.satI f pg i n).resp = s.resp := rfl
@[simp] theorem State.satI_countBase : (s.satI f pg i n).countBase = s.countBase := rfl
@[simp] theorem State.satI_stamps : (s.satI f pg i n).stamps = s.stamps := rfl
@[simp] theorem State.satI_pool : (s.satI f pg i n).pool = s.pool := rfl
@[simp] theorem State.satI_bnd : (s.satI f pg i n).bnd = s.bnd := rfl
@[simp] theorem State.satI_grp : (s.satI f pg i n).grp = s.grp := rfl
@[simp] theorem State.satI_ring : (s.satI f pg i n).ring = s.ring := rfl
@[simp] theorem State.satI_mode : (s.satI f pg i n).mode = s.mode := rfl
@[simp] theorem State.satI_pos : (s.satI f pg i n).pos = s.pos := rfl
@[simp] theorem State.satI_div : (s.satI f pg i n).div = s.div := rfl
@[simp] theorem State.satI_cmp : (s.satI f pg i n).cmp = s.cmp := rfl
@[simp] theorem State.satI_ing : (s.satI f pg i n).ing = s.ing := rfl
@[simp] theorem State.satI_regn : (s.satI f pg i n).regn = s.regn := rfl
@[simp] theorem State.satI_port : (s.satI f pg i n).port = s.port := rfl
@[simp] theorem State.satI_lane : (s.satI f pg i n).lane = s.lane := rfl
@[simp] theorem State.satI_cam : (s.satI f pg i n).cam = s.cam := rfl
@[simp] theorem State.satI_link : (s.satI f pg i n).link = s.link := rfl
@[simp] theorem State.satI_pipe : (s.satI f pg i n).pipe = s.pipe := rfl
@[simp] theorem State.satI_trk : (s.satI f pg i n).trk = s.trk := rfl
@[simp] theorem State.satI_tdc : (s.satI f pg i n).tdc = s.tdc := rfl
@[simp] theorem State.satI_memx : (s.satI f pg i n).memx = s.memx := rfl
@[simp] theorem State.satI_memc : (s.satI f pg i n).memc = s.memc := rfl
@[simp] theorem State.satI_memBad : (s.satI f pg i n).memBad = s.memBad := rfl
@[simp] theorem State.satI_sramErr : (s.satI f pg i n).sramErr = s.sramErr := rfl
@[simp] theorem State.satI_stack : (s.satI f pg i n).stack = s.stack := rfl
@[simp] theorem State.satI_scrub : (s.satI f pg i n).scrub = s.scrub := rfl
@[simp] theorem State.satI_flits : (s.satI f pg i n).flits = s.flits := rfl
@[simp] theorem State.satI_net : (s.satI f pg i n).net = s.net := rfl
@[simp] theorem State.satI_ptp : (s.satI f pg i n).ptp = s.ptp := rfl
@[simp] theorem State.satI_trig : (s.satI f pg i n).trig = s.trig := rfl
@[simp] theorem State.satI_tcap : (s.satI f pg i n).tcap = s.tcap := rfl
@[simp] theorem State.satI_pair : (s.satI f pg i n).pair = s.pair := rfl
@[simp] theorem State.satI_sag : (s.satI f pg i n).sag = s.sag := rfl
@[simp] theorem State.satI_hk : (s.satI f pg i n).hk = s.hk := rfl
@[simp] theorem State.satI_rail : (s.satI f pg i n).rail = s.rail := rfl
@[simp] theorem State.satI_jrn : (s.satI f pg i n).jrn = s.jrn := rfl
@[simp] theorem State.satI_cpu : (s.satI f pg i n).cpu = s.cpu := rfl
@[simp] theorem State.satI_cal : (s.satI f pg i n).cal = s.cal := rfl

end

section
variable (f : Fld) (pg : Nat)

@[simp] theorem State.sat_now : (s.sat f pg).now = s.now := rfl
@[simp] theorem State.sat_pending : (s.sat f pg).pending = s.pending := rfl
@[simp] theorem State.sat_aptw : (s.sat f pg).aptw = s.aptw := rfl
@[simp] theorem State.sat_sdram : (s.sat f pg).sdram = s.sdram := rfl
@[simp] theorem State.sat_room : (s.sat f pg).room = s.room := rfl
@[simp] theorem State.sat_freeIx : (s.sat f pg).freeIx = s.freeIx := rfl
@[simp] theorem State.sat_resp : (s.sat f pg).resp = s.resp := rfl
@[simp] theorem State.sat_countBase : (s.sat f pg).countBase = s.countBase := rfl
@[simp] theorem State.sat_stamps : (s.sat f pg).stamps = s.stamps := rfl
@[simp] theorem State.sat_pool : (s.sat f pg).pool = s.pool := rfl
@[simp] theorem State.sat_bnd : (s.sat f pg).bnd = s.bnd := rfl
@[simp] theorem State.sat_grp : (s.sat f pg).grp = s.grp := rfl
@[simp] theorem State.sat_ring : (s.sat f pg).ring = s.ring := rfl
@[simp] theorem State.sat_mode : (s.sat f pg).mode = s.mode := rfl
@[simp] theorem State.sat_pos : (s.sat f pg).pos = s.pos := rfl
@[simp] theorem State.sat_div : (s.sat f pg).div = s.div := rfl
@[simp] theorem State.sat_cmp : (s.sat f pg).cmp = s.cmp := rfl
@[simp] theorem State.sat_ing : (s.sat f pg).ing = s.ing := rfl
@[simp] theorem State.sat_regn : (s.sat f pg).regn = s.regn := rfl
@[simp] theorem State.sat_port : (s.sat f pg).port = s.port := rfl
@[simp] theorem State.sat_lane : (s.sat f pg).lane = s.lane := rfl
@[simp] theorem State.sat_cam : (s.sat f pg).cam = s.cam := rfl
@[simp] theorem State.sat_link : (s.sat f pg).link = s.link := rfl
@[simp] theorem State.sat_pipe : (s.sat f pg).pipe = s.pipe := rfl
@[simp] theorem State.sat_trk : (s.sat f pg).trk = s.trk := rfl
@[simp] theorem State.sat_tdc : (s.sat f pg).tdc = s.tdc := rfl
@[simp] theorem State.sat_memx : (s.sat f pg).memx = s.memx := rfl
@[simp] theorem State.sat_memc : (s.sat f pg).memc = s.memc := rfl
@[simp] theorem State.sat_memBad : (s.sat f pg).memBad = s.memBad := rfl
@[simp] theorem State.sat_sramErr : (s.sat f pg).sramErr = s.sramErr := rfl
@[simp] theorem State.sat_stack : (s.sat f pg).stack = s.stack := rfl
@[simp] theorem State.sat_scrub : (s.sat f pg).scrub = s.scrub := rfl
@[simp] theorem State.sat_flits : (s.sat f pg).flits = s.flits := rfl
@[simp] theorem State.sat_net : (s.sat f pg).net = s.net := rfl
@[simp] theorem State.sat_ptp : (s.sat f pg).ptp = s.ptp := rfl
@[simp] theorem State.sat_trig : (s.sat f pg).trig = s.trig := rfl
@[simp] theorem State.sat_tcap : (s.sat f pg).tcap = s.tcap := rfl
@[simp] theorem State.sat_pair : (s.sat f pg).pair = s.pair := rfl
@[simp] theorem State.sat_sag : (s.sat f pg).sag = s.sag := rfl
@[simp] theorem State.sat_hk : (s.sat f pg).hk = s.hk := rfl
@[simp] theorem State.sat_rail : (s.sat f pg).rail = s.rail := rfl
@[simp] theorem State.sat_jrn : (s.sat f pg).jrn = s.jrn := rfl
@[simp] theorem State.sat_cpu : (s.sat f pg).cpu = s.cpu := rfl
@[simp] theorem State.sat_cal : (s.sat f pg).cal = s.cal := rfl

end

section
variable (f : Fld) (pg i n : Nat)

@[simp] theorem State.wrapI_now : (s.wrapI f pg i n).now = s.now := rfl
@[simp] theorem State.wrapI_pending : (s.wrapI f pg i n).pending = s.pending := rfl
@[simp] theorem State.wrapI_aptw : (s.wrapI f pg i n).aptw = s.aptw := rfl
@[simp] theorem State.wrapI_sdram : (s.wrapI f pg i n).sdram = s.sdram := rfl
@[simp] theorem State.wrapI_room : (s.wrapI f pg i n).room = s.room := rfl
@[simp] theorem State.wrapI_freeIx : (s.wrapI f pg i n).freeIx = s.freeIx := rfl
@[simp] theorem State.wrapI_resp : (s.wrapI f pg i n).resp = s.resp := rfl
@[simp] theorem State.wrapI_countBase : (s.wrapI f pg i n).countBase = s.countBase := rfl
@[simp] theorem State.wrapI_stamps : (s.wrapI f pg i n).stamps = s.stamps := rfl
@[simp] theorem State.wrapI_pool : (s.wrapI f pg i n).pool = s.pool := rfl
@[simp] theorem State.wrapI_bnd : (s.wrapI f pg i n).bnd = s.bnd := rfl
@[simp] theorem State.wrapI_grp : (s.wrapI f pg i n).grp = s.grp := rfl
@[simp] theorem State.wrapI_ring : (s.wrapI f pg i n).ring = s.ring := rfl
@[simp] theorem State.wrapI_mode : (s.wrapI f pg i n).mode = s.mode := rfl
@[simp] theorem State.wrapI_pos : (s.wrapI f pg i n).pos = s.pos := rfl
@[simp] theorem State.wrapI_div : (s.wrapI f pg i n).div = s.div := rfl
@[simp] theorem State.wrapI_cmp : (s.wrapI f pg i n).cmp = s.cmp := rfl
@[simp] theorem State.wrapI_ing : (s.wrapI f pg i n).ing = s.ing := rfl
@[simp] theorem State.wrapI_regn : (s.wrapI f pg i n).regn = s.regn := rfl
@[simp] theorem State.wrapI_port : (s.wrapI f pg i n).port = s.port := rfl
@[simp] theorem State.wrapI_lane : (s.wrapI f pg i n).lane = s.lane := rfl
@[simp] theorem State.wrapI_cam : (s.wrapI f pg i n).cam = s.cam := rfl
@[simp] theorem State.wrapI_link : (s.wrapI f pg i n).link = s.link := rfl
@[simp] theorem State.wrapI_pipe : (s.wrapI f pg i n).pipe = s.pipe := rfl
@[simp] theorem State.wrapI_trk : (s.wrapI f pg i n).trk = s.trk := rfl
@[simp] theorem State.wrapI_tdc : (s.wrapI f pg i n).tdc = s.tdc := rfl
@[simp] theorem State.wrapI_memx : (s.wrapI f pg i n).memx = s.memx := rfl
@[simp] theorem State.wrapI_memc : (s.wrapI f pg i n).memc = s.memc := rfl
@[simp] theorem State.wrapI_memBad : (s.wrapI f pg i n).memBad = s.memBad := rfl
@[simp] theorem State.wrapI_sramErr : (s.wrapI f pg i n).sramErr = s.sramErr := rfl
@[simp] theorem State.wrapI_stack : (s.wrapI f pg i n).stack = s.stack := rfl
@[simp] theorem State.wrapI_scrub : (s.wrapI f pg i n).scrub = s.scrub := rfl
@[simp] theorem State.wrapI_flits : (s.wrapI f pg i n).flits = s.flits := rfl
@[simp] theorem State.wrapI_net : (s.wrapI f pg i n).net = s.net := rfl
@[simp] theorem State.wrapI_ptp : (s.wrapI f pg i n).ptp = s.ptp := rfl
@[simp] theorem State.wrapI_trig : (s.wrapI f pg i n).trig = s.trig := rfl
@[simp] theorem State.wrapI_tcap : (s.wrapI f pg i n).tcap = s.tcap := rfl
@[simp] theorem State.wrapI_pair : (s.wrapI f pg i n).pair = s.pair := rfl
@[simp] theorem State.wrapI_sag : (s.wrapI f pg i n).sag = s.sag := rfl
@[simp] theorem State.wrapI_hk : (s.wrapI f pg i n).hk = s.hk := rfl
@[simp] theorem State.wrapI_rail : (s.wrapI f pg i n).rail = s.rail := rfl
@[simp] theorem State.wrapI_jrn : (s.wrapI f pg i n).jrn = s.jrn := rfl
@[simp] theorem State.wrapI_cpu : (s.wrapI f pg i n).cpu = s.cpu := rfl
@[simp] theorem State.wrapI_cal : (s.wrapI f pg i n).cal = s.cal := rfl

end

section
variable (f : Fld) (pg : Nat)

@[simp] theorem State.wrap_now : (s.wrap f pg).now = s.now := rfl
@[simp] theorem State.wrap_pending : (s.wrap f pg).pending = s.pending := rfl
@[simp] theorem State.wrap_aptw : (s.wrap f pg).aptw = s.aptw := rfl
@[simp] theorem State.wrap_sdram : (s.wrap f pg).sdram = s.sdram := rfl
@[simp] theorem State.wrap_room : (s.wrap f pg).room = s.room := rfl
@[simp] theorem State.wrap_freeIx : (s.wrap f pg).freeIx = s.freeIx := rfl
@[simp] theorem State.wrap_resp : (s.wrap f pg).resp = s.resp := rfl
@[simp] theorem State.wrap_countBase : (s.wrap f pg).countBase = s.countBase := rfl
@[simp] theorem State.wrap_stamps : (s.wrap f pg).stamps = s.stamps := rfl
@[simp] theorem State.wrap_pool : (s.wrap f pg).pool = s.pool := rfl
@[simp] theorem State.wrap_bnd : (s.wrap f pg).bnd = s.bnd := rfl
@[simp] theorem State.wrap_grp : (s.wrap f pg).grp = s.grp := rfl
@[simp] theorem State.wrap_ring : (s.wrap f pg).ring = s.ring := rfl
@[simp] theorem State.wrap_mode : (s.wrap f pg).mode = s.mode := rfl
@[simp] theorem State.wrap_pos : (s.wrap f pg).pos = s.pos := rfl
@[simp] theorem State.wrap_div : (s.wrap f pg).div = s.div := rfl
@[simp] theorem State.wrap_cmp : (s.wrap f pg).cmp = s.cmp := rfl
@[simp] theorem State.wrap_ing : (s.wrap f pg).ing = s.ing := rfl
@[simp] theorem State.wrap_regn : (s.wrap f pg).regn = s.regn := rfl
@[simp] theorem State.wrap_port : (s.wrap f pg).port = s.port := rfl
@[simp] theorem State.wrap_lane : (s.wrap f pg).lane = s.lane := rfl
@[simp] theorem State.wrap_cam : (s.wrap f pg).cam = s.cam := rfl
@[simp] theorem State.wrap_link : (s.wrap f pg).link = s.link := rfl
@[simp] theorem State.wrap_pipe : (s.wrap f pg).pipe = s.pipe := rfl
@[simp] theorem State.wrap_trk : (s.wrap f pg).trk = s.trk := rfl
@[simp] theorem State.wrap_tdc : (s.wrap f pg).tdc = s.tdc := rfl
@[simp] theorem State.wrap_memx : (s.wrap f pg).memx = s.memx := rfl
@[simp] theorem State.wrap_memc : (s.wrap f pg).memc = s.memc := rfl
@[simp] theorem State.wrap_memBad : (s.wrap f pg).memBad = s.memBad := rfl
@[simp] theorem State.wrap_sramErr : (s.wrap f pg).sramErr = s.sramErr := rfl
@[simp] theorem State.wrap_stack : (s.wrap f pg).stack = s.stack := rfl
@[simp] theorem State.wrap_scrub : (s.wrap f pg).scrub = s.scrub := rfl
@[simp] theorem State.wrap_flits : (s.wrap f pg).flits = s.flits := rfl
@[simp] theorem State.wrap_net : (s.wrap f pg).net = s.net := rfl
@[simp] theorem State.wrap_ptp : (s.wrap f pg).ptp = s.ptp := rfl
@[simp] theorem State.wrap_trig : (s.wrap f pg).trig = s.trig := rfl
@[simp] theorem State.wrap_tcap : (s.wrap f pg).tcap = s.tcap := rfl
@[simp] theorem State.wrap_pair : (s.wrap f pg).pair = s.pair := rfl
@[simp] theorem State.wrap_sag : (s.wrap f pg).sag = s.sag := rfl
@[simp] theorem State.wrap_hk : (s.wrap f pg).hk = s.hk := rfl
@[simp] theorem State.wrap_rail : (s.wrap f pg).rail = s.rail := rfl
@[simp] theorem State.wrap_jrn : (s.wrap f pg).jrn = s.jrn := rfl
@[simp] theorem State.wrap_cpu : (s.wrap f pg).cpu = s.cpu := rfl
@[simp] theorem State.wrap_cal : (s.wrap f pg).cal = s.cal := rfl

end

section
variable (fl fh : Fld) (pg i v : Nat)

@[simp] theorem State.set2_now : (s.set2 fl fh pg i v).now = s.now := rfl
@[simp] theorem State.set2_pending : (s.set2 fl fh pg i v).pending = s.pending := rfl
@[simp] theorem State.set2_aptw : (s.set2 fl fh pg i v).aptw = s.aptw := rfl
@[simp] theorem State.set2_sdram : (s.set2 fl fh pg i v).sdram = s.sdram := rfl
@[simp] theorem State.set2_room : (s.set2 fl fh pg i v).room = s.room := rfl
@[simp] theorem State.set2_freeIx : (s.set2 fl fh pg i v).freeIx = s.freeIx := rfl
@[simp] theorem State.set2_resp : (s.set2 fl fh pg i v).resp = s.resp := rfl
@[simp] theorem State.set2_countBase : (s.set2 fl fh pg i v).countBase = s.countBase := rfl
@[simp] theorem State.set2_stamps : (s.set2 fl fh pg i v).stamps = s.stamps := rfl
@[simp] theorem State.set2_pool : (s.set2 fl fh pg i v).pool = s.pool := rfl
@[simp] theorem State.set2_bnd : (s.set2 fl fh pg i v).bnd = s.bnd := rfl
@[simp] theorem State.set2_grp : (s.set2 fl fh pg i v).grp = s.grp := rfl
@[simp] theorem State.set2_ring : (s.set2 fl fh pg i v).ring = s.ring := rfl
@[simp] theorem State.set2_mode : (s.set2 fl fh pg i v).mode = s.mode := rfl
@[simp] theorem State.set2_pos : (s.set2 fl fh pg i v).pos = s.pos := rfl
@[simp] theorem State.set2_div : (s.set2 fl fh pg i v).div = s.div := rfl
@[simp] theorem State.set2_cmp : (s.set2 fl fh pg i v).cmp = s.cmp := rfl
@[simp] theorem State.set2_ing : (s.set2 fl fh pg i v).ing = s.ing := rfl
@[simp] theorem State.set2_regn : (s.set2 fl fh pg i v).regn = s.regn := rfl
@[simp] theorem State.set2_port : (s.set2 fl fh pg i v).port = s.port := rfl
@[simp] theorem State.set2_lane : (s.set2 fl fh pg i v).lane = s.lane := rfl
@[simp] theorem State.set2_cam : (s.set2 fl fh pg i v).cam = s.cam := rfl
@[simp] theorem State.set2_link : (s.set2 fl fh pg i v).link = s.link := rfl
@[simp] theorem State.set2_pipe : (s.set2 fl fh pg i v).pipe = s.pipe := rfl
@[simp] theorem State.set2_trk : (s.set2 fl fh pg i v).trk = s.trk := rfl
@[simp] theorem State.set2_tdc : (s.set2 fl fh pg i v).tdc = s.tdc := rfl
@[simp] theorem State.set2_memx : (s.set2 fl fh pg i v).memx = s.memx := rfl
@[simp] theorem State.set2_memc : (s.set2 fl fh pg i v).memc = s.memc := rfl
@[simp] theorem State.set2_memBad : (s.set2 fl fh pg i v).memBad = s.memBad := rfl
@[simp] theorem State.set2_sramErr : (s.set2 fl fh pg i v).sramErr = s.sramErr := rfl
@[simp] theorem State.set2_stack : (s.set2 fl fh pg i v).stack = s.stack := rfl
@[simp] theorem State.set2_scrub : (s.set2 fl fh pg i v).scrub = s.scrub := rfl
@[simp] theorem State.set2_flits : (s.set2 fl fh pg i v).flits = s.flits := rfl
@[simp] theorem State.set2_net : (s.set2 fl fh pg i v).net = s.net := rfl
@[simp] theorem State.set2_ptp : (s.set2 fl fh pg i v).ptp = s.ptp := rfl
@[simp] theorem State.set2_trig : (s.set2 fl fh pg i v).trig = s.trig := rfl
@[simp] theorem State.set2_tcap : (s.set2 fl fh pg i v).tcap = s.tcap := rfl
@[simp] theorem State.set2_pair : (s.set2 fl fh pg i v).pair = s.pair := rfl
@[simp] theorem State.set2_sag : (s.set2 fl fh pg i v).sag = s.sag := rfl
@[simp] theorem State.set2_hk : (s.set2 fl fh pg i v).hk = s.hk := rfl
@[simp] theorem State.set2_rail : (s.set2 fl fh pg i v).rail = s.rail := rfl
@[simp] theorem State.set2_jrn : (s.set2 fl fh pg i v).jrn = s.jrn := rfl
@[simp] theorem State.set2_cpu : (s.set2 fl fh pg i v).cpu = s.cpu := rfl
@[simp] theorem State.set2_cal : (s.set2 fl fh pg i v).cal = s.cal := rfl

end

section
variable (pg : Nat) (f : Bnd → Bnd)

@[simp] theorem State.updBnd_bnd : (s.updBnd pg f).bnd = tput s.bnd pg (f (s.bndOf pg)) := rfl
@[simp] theorem State.updBnd_now : (s.updBnd pg f).now = s.now := rfl
@[simp] theorem State.updBnd_pending : (s.updBnd pg f).pending = s.pending := rfl
@[simp] theorem State.updBnd_regs : (s.updBnd pg f).regs = s.regs := rfl
@[simp] theorem State.updBnd_aptw : (s.updBnd pg f).aptw = s.aptw := rfl
@[simp] theorem State.updBnd_sdram : (s.updBnd pg f).sdram = s.sdram := rfl
@[simp] theorem State.updBnd_room : (s.updBnd pg f).room = s.room := rfl
@[simp] theorem State.updBnd_freeIx : (s.updBnd pg f).freeIx = s.freeIx := rfl
@[simp] theorem State.updBnd_resp : (s.updBnd pg f).resp = s.resp := rfl
@[simp] theorem State.updBnd_countBase : (s.updBnd pg f).countBase = s.countBase := rfl
@[simp] theorem State.updBnd_stamps : (s.updBnd pg f).stamps = s.stamps := rfl
@[simp] theorem State.updBnd_pool : (s.updBnd pg f).pool = s.pool := rfl
@[simp] theorem State.updBnd_grp : (s.updBnd pg f).grp = s.grp := rfl
@[simp] theorem State.updBnd_ring : (s.updBnd pg f).ring = s.ring := rfl
@[simp] theorem State.updBnd_mode : (s.updBnd pg f).mode = s.mode := rfl
@[simp] theorem State.updBnd_pos : (s.updBnd pg f).pos = s.pos := rfl
@[simp] theorem State.updBnd_div : (s.updBnd pg f).div = s.div := rfl
@[simp] theorem State.updBnd_cmp : (s.updBnd pg f).cmp = s.cmp := rfl
@[simp] theorem State.updBnd_ing : (s.updBnd pg f).ing = s.ing := rfl
@[simp] theorem State.updBnd_regn : (s.updBnd pg f).regn = s.regn := rfl
@[simp] theorem State.updBnd_port : (s.updBnd pg f).port = s.port := rfl
@[simp] theorem State.updBnd_lane : (s.updBnd pg f).lane = s.lane := rfl
@[simp] theorem State.updBnd_cam : (s.updBnd pg f).cam = s.cam := rfl
@[simp] theorem State.updBnd_link : (s.updBnd pg f).link = s.link := rfl
@[simp] theorem State.updBnd_pipe : (s.updBnd pg f).pipe = s.pipe := rfl
@[simp] theorem State.updBnd_trk : (s.updBnd pg f).trk = s.trk := rfl
@[simp] theorem State.updBnd_tdc : (s.updBnd pg f).tdc = s.tdc := rfl
@[simp] theorem State.updBnd_memx : (s.updBnd pg f).memx = s.memx := rfl
@[simp] theorem State.updBnd_memc : (s.updBnd pg f).memc = s.memc := rfl
@[simp] theorem State.updBnd_memBad : (s.updBnd pg f).memBad = s.memBad := rfl
@[simp] theorem State.updBnd_sramErr : (s.updBnd pg f).sramErr = s.sramErr := rfl
@[simp] theorem State.updBnd_stack : (s.updBnd pg f).stack = s.stack := rfl
@[simp] theorem State.updBnd_scrub : (s.updBnd pg f).scrub = s.scrub := rfl
@[simp] theorem State.updBnd_flits : (s.updBnd pg f).flits = s.flits := rfl
@[simp] theorem State.updBnd_net : (s.updBnd pg f).net = s.net := rfl
@[simp] theorem State.updBnd_ptp : (s.updBnd pg f).ptp = s.ptp := rfl
@[simp] theorem State.updBnd_trig : (s.updBnd pg f).trig = s.trig := rfl
@[simp] theorem State.updBnd_tcap : (s.updBnd pg f).tcap = s.tcap := rfl
@[simp] theorem State.updBnd_pair : (s.updBnd pg f).pair = s.pair := rfl
@[simp] theorem State.updBnd_sag : (s.updBnd pg f).sag = s.sag := rfl
@[simp] theorem State.updBnd_hk : (s.updBnd pg f).hk = s.hk := rfl
@[simp] theorem State.updBnd_rail : (s.updBnd pg f).rail = s.rail := rfl
@[simp] theorem State.updBnd_jrn : (s.updBnd pg f).jrn = s.jrn := rfl
@[simp] theorem State.updBnd_cpu : (s.updBnd pg f).cpu = s.cpu := rfl
@[simp] theorem State.updBnd_cal : (s.updBnd pg f).cal = s.cal := rfl

end

section
variable (g : Nat) (f : Grp → Grp)

@[simp] theorem State.updGrp_grp : (s.updGrp g f).grp = tput s.grp g (f (s.grpOf g)) := rfl
@[simp] theorem State.updGrp_now : (s.updGrp g f).now = s.now := rfl
@[simp] theorem State.updGrp_pending : (s.updGrp g f).pending = s.pending := rfl
@[simp] theorem State.updGrp_regs : (s.updGrp g f).regs = s.regs := rfl
@[simp] theorem State.updGrp_aptw : (s.updGrp g f).aptw = s.aptw := rfl
@[simp] theorem State.updGrp_sdram : (s.updGrp g f).sdram = s.sdram := rfl
@[simp] theorem State.updGrp_room : (s.updGrp g f).room = s.room := rfl
@[simp] theorem State.updGrp_freeIx : (s.updGrp g f).freeIx = s.freeIx := rfl
@[simp] theorem State.updGrp_resp : (s.updGrp g f).resp = s.resp := rfl
@[simp] theorem State.updGrp_countBase : (s.updGrp g f).countBase = s.countBase := rfl
@[simp] theorem State.updGrp_stamps : (s.updGrp g f).stamps = s.stamps := rfl
@[simp] theorem State.updGrp_pool : (s.updGrp g f).pool = s.pool := rfl
@[simp] theorem State.updGrp_bnd : (s.updGrp g f).bnd = s.bnd := rfl
@[simp] theorem State.updGrp_ring : (s.updGrp g f).ring = s.ring := rfl
@[simp] theorem State.updGrp_mode : (s.updGrp g f).mode = s.mode := rfl
@[simp] theorem State.updGrp_pos : (s.updGrp g f).pos = s.pos := rfl
@[simp] theorem State.updGrp_div : (s.updGrp g f).div = s.div := rfl
@[simp] theorem State.updGrp_cmp : (s.updGrp g f).cmp = s.cmp := rfl
@[simp] theorem State.updGrp_ing : (s.updGrp g f).ing = s.ing := rfl
@[simp] theorem State.updGrp_regn : (s.updGrp g f).regn = s.regn := rfl
@[simp] theorem State.updGrp_port : (s.updGrp g f).port = s.port := rfl
@[simp] theorem State.updGrp_lane : (s.updGrp g f).lane = s.lane := rfl
@[simp] theorem State.updGrp_cam : (s.updGrp g f).cam = s.cam := rfl
@[simp] theorem State.updGrp_link : (s.updGrp g f).link = s.link := rfl
@[simp] theorem State.updGrp_pipe : (s.updGrp g f).pipe = s.pipe := rfl
@[simp] theorem State.updGrp_trk : (s.updGrp g f).trk = s.trk := rfl
@[simp] theorem State.updGrp_tdc : (s.updGrp g f).tdc = s.tdc := rfl
@[simp] theorem State.updGrp_memx : (s.updGrp g f).memx = s.memx := rfl
@[simp] theorem State.updGrp_memc : (s.updGrp g f).memc = s.memc := rfl
@[simp] theorem State.updGrp_memBad : (s.updGrp g f).memBad = s.memBad := rfl
@[simp] theorem State.updGrp_sramErr : (s.updGrp g f).sramErr = s.sramErr := rfl
@[simp] theorem State.updGrp_stack : (s.updGrp g f).stack = s.stack := rfl
@[simp] theorem State.updGrp_scrub : (s.updGrp g f).scrub = s.scrub := rfl
@[simp] theorem State.updGrp_flits : (s.updGrp g f).flits = s.flits := rfl
@[simp] theorem State.updGrp_net : (s.updGrp g f).net = s.net := rfl
@[simp] theorem State.updGrp_ptp : (s.updGrp g f).ptp = s.ptp := rfl
@[simp] theorem State.updGrp_trig : (s.updGrp g f).trig = s.trig := rfl
@[simp] theorem State.updGrp_tcap : (s.updGrp g f).tcap = s.tcap := rfl
@[simp] theorem State.updGrp_pair : (s.updGrp g f).pair = s.pair := rfl
@[simp] theorem State.updGrp_sag : (s.updGrp g f).sag = s.sag := rfl
@[simp] theorem State.updGrp_hk : (s.updGrp g f).hk = s.hk := rfl
@[simp] theorem State.updGrp_rail : (s.updGrp g f).rail = s.rail := rfl
@[simp] theorem State.updGrp_jrn : (s.updGrp g f).jrn = s.jrn := rfl
@[simp] theorem State.updGrp_cpu : (s.updGrp g f).cpu = s.cpu := rfl
@[simp] theorem State.updGrp_cal : (s.updGrp g f).cal = s.cal := rfl

end

section
variable (p : Nat) (f : PortX → PortX)

@[simp] theorem State.updPort_port : (s.updPort p f).port = tput s.port p (f (s.portOf p)) := rfl
@[simp] theorem State.updPort_now : (s.updPort p f).now = s.now := rfl
@[simp] theorem State.updPort_pending : (s.updPort p f).pending = s.pending := rfl
@[simp] theorem State.updPort_regs : (s.updPort p f).regs = s.regs := rfl
@[simp] theorem State.updPort_aptw : (s.updPort p f).aptw = s.aptw := rfl
@[simp] theorem State.updPort_sdram : (s.updPort p f).sdram = s.sdram := rfl
@[simp] theorem State.updPort_room : (s.updPort p f).room = s.room := rfl
@[simp] theorem State.updPort_freeIx : (s.updPort p f).freeIx = s.freeIx := rfl
@[simp] theorem State.updPort_resp : (s.updPort p f).resp = s.resp := rfl
@[simp] theorem State.updPort_countBase : (s.updPort p f).countBase = s.countBase := rfl
@[simp] theorem State.updPort_stamps : (s.updPort p f).stamps = s.stamps := rfl
@[simp] theorem State.updPort_pool : (s.updPort p f).pool = s.pool := rfl
@[simp] theorem State.updPort_bnd : (s.updPort p f).bnd = s.bnd := rfl
@[simp] theorem State.updPort_grp : (s.updPort p f).grp = s.grp := rfl
@[simp] theorem State.updPort_ring : (s.updPort p f).ring = s.ring := rfl
@[simp] theorem State.updPort_mode : (s.updPort p f).mode = s.mode := rfl
@[simp] theorem State.updPort_pos : (s.updPort p f).pos = s.pos := rfl
@[simp] theorem State.updPort_div : (s.updPort p f).div = s.div := rfl
@[simp] theorem State.updPort_cmp : (s.updPort p f).cmp = s.cmp := rfl
@[simp] theorem State.updPort_ing : (s.updPort p f).ing = s.ing := rfl
@[simp] theorem State.updPort_regn : (s.updPort p f).regn = s.regn := rfl
@[simp] theorem State.updPort_lane : (s.updPort p f).lane = s.lane := rfl
@[simp] theorem State.updPort_cam : (s.updPort p f).cam = s.cam := rfl
@[simp] theorem State.updPort_link : (s.updPort p f).link = s.link := rfl
@[simp] theorem State.updPort_pipe : (s.updPort p f).pipe = s.pipe := rfl
@[simp] theorem State.updPort_trk : (s.updPort p f).trk = s.trk := rfl
@[simp] theorem State.updPort_tdc : (s.updPort p f).tdc = s.tdc := rfl
@[simp] theorem State.updPort_memx : (s.updPort p f).memx = s.memx := rfl
@[simp] theorem State.updPort_memc : (s.updPort p f).memc = s.memc := rfl
@[simp] theorem State.updPort_memBad : (s.updPort p f).memBad = s.memBad := rfl
@[simp] theorem State.updPort_sramErr : (s.updPort p f).sramErr = s.sramErr := rfl
@[simp] theorem State.updPort_stack : (s.updPort p f).stack = s.stack := rfl
@[simp] theorem State.updPort_scrub : (s.updPort p f).scrub = s.scrub := rfl
@[simp] theorem State.updPort_flits : (s.updPort p f).flits = s.flits := rfl
@[simp] theorem State.updPort_net : (s.updPort p f).net = s.net := rfl
@[simp] theorem State.updPort_ptp : (s.updPort p f).ptp = s.ptp := rfl
@[simp] theorem State.updPort_trig : (s.updPort p f).trig = s.trig := rfl
@[simp] theorem State.updPort_tcap : (s.updPort p f).tcap = s.tcap := rfl
@[simp] theorem State.updPort_pair : (s.updPort p f).pair = s.pair := rfl
@[simp] theorem State.updPort_sag : (s.updPort p f).sag = s.sag := rfl
@[simp] theorem State.updPort_hk : (s.updPort p f).hk = s.hk := rfl
@[simp] theorem State.updPort_rail : (s.updPort p f).rail = s.rail := rfl
@[simp] theorem State.updPort_jrn : (s.updPort p f).jrn = s.jrn := rfl
@[simp] theorem State.updPort_cpu : (s.updPort p f).cpu = s.cpu := rfl
@[simp] theorem State.updPort_cal : (s.updPort p f).cal = s.cal := rfl

end

section
variable (r : Nat) (f : RegionX → RegionX)

@[simp] theorem State.updRegn_regn : (s.updRegn r f).regn = tput s.regn r (f (s.regnOf r)) := rfl
@[simp] theorem State.updRegn_now : (s.updRegn r f).now = s.now := rfl
@[simp] theorem State.updRegn_pending : (s.updRegn r f).pending = s.pending := rfl
@[simp] theorem State.updRegn_regs : (s.updRegn r f).regs = s.regs := rfl
@[simp] theorem State.updRegn_aptw : (s.updRegn r f).aptw = s.aptw := rfl
@[simp] theorem State.updRegn_sdram : (s.updRegn r f).sdram = s.sdram := rfl
@[simp] theorem State.updRegn_room : (s.updRegn r f).room = s.room := rfl
@[simp] theorem State.updRegn_freeIx : (s.updRegn r f).freeIx = s.freeIx := rfl
@[simp] theorem State.updRegn_resp : (s.updRegn r f).resp = s.resp := rfl
@[simp] theorem State.updRegn_countBase : (s.updRegn r f).countBase = s.countBase := rfl
@[simp] theorem State.updRegn_stamps : (s.updRegn r f).stamps = s.stamps := rfl
@[simp] theorem State.updRegn_pool : (s.updRegn r f).pool = s.pool := rfl
@[simp] theorem State.updRegn_bnd : (s.updRegn r f).bnd = s.bnd := rfl
@[simp] theorem State.updRegn_grp : (s.updRegn r f).grp = s.grp := rfl
@[simp] theorem State.updRegn_ring : (s.updRegn r f).ring = s.ring := rfl
@[simp] theorem State.updRegn_mode : (s.updRegn r f).mode = s.mode := rfl
@[simp] theorem State.updRegn_pos : (s.updRegn r f).pos = s.pos := rfl
@[simp] theorem State.updRegn_div : (s.updRegn r f).div = s.div := rfl
@[simp] theorem State.updRegn_cmp : (s.updRegn r f).cmp = s.cmp := rfl
@[simp] theorem State.updRegn_ing : (s.updRegn r f).ing = s.ing := rfl
@[simp] theorem State.updRegn_port : (s.updRegn r f).port = s.port := rfl
@[simp] theorem State.updRegn_lane : (s.updRegn r f).lane = s.lane := rfl
@[simp] theorem State.updRegn_cam : (s.updRegn r f).cam = s.cam := rfl
@[simp] theorem State.updRegn_link : (s.updRegn r f).link = s.link := rfl
@[simp] theorem State.updRegn_pipe : (s.updRegn r f).pipe = s.pipe := rfl
@[simp] theorem State.updRegn_trk : (s.updRegn r f).trk = s.trk := rfl
@[simp] theorem State.updRegn_tdc : (s.updRegn r f).tdc = s.tdc := rfl
@[simp] theorem State.updRegn_memx : (s.updRegn r f).memx = s.memx := rfl
@[simp] theorem State.updRegn_memc : (s.updRegn r f).memc = s.memc := rfl
@[simp] theorem State.updRegn_memBad : (s.updRegn r f).memBad = s.memBad := rfl
@[simp] theorem State.updRegn_sramErr : (s.updRegn r f).sramErr = s.sramErr := rfl
@[simp] theorem State.updRegn_stack : (s.updRegn r f).stack = s.stack := rfl
@[simp] theorem State.updRegn_scrub : (s.updRegn r f).scrub = s.scrub := rfl
@[simp] theorem State.updRegn_flits : (s.updRegn r f).flits = s.flits := rfl
@[simp] theorem State.updRegn_net : (s.updRegn r f).net = s.net := rfl
@[simp] theorem State.updRegn_ptp : (s.updRegn r f).ptp = s.ptp := rfl
@[simp] theorem State.updRegn_trig : (s.updRegn r f).trig = s.trig := rfl
@[simp] theorem State.updRegn_tcap : (s.updRegn r f).tcap = s.tcap := rfl
@[simp] theorem State.updRegn_pair : (s.updRegn r f).pair = s.pair := rfl
@[simp] theorem State.updRegn_sag : (s.updRegn r f).sag = s.sag := rfl
@[simp] theorem State.updRegn_hk : (s.updRegn r f).hk = s.hk := rfl
@[simp] theorem State.updRegn_rail : (s.updRegn r f).rail = s.rail := rfl
@[simp] theorem State.updRegn_jrn : (s.updRegn r f).jrn = s.jrn := rfl
@[simp] theorem State.updRegn_cpu : (s.updRegn r f).cpu = s.cpu := rfl
@[simp] theorem State.updRegn_cal : (s.updRegn r f).cal = s.cal := rfl

end

section
variable (p : Nat) (f : LaneX → LaneX)

@[simp] theorem State.updLane_lane : (s.updLane p f).lane = tput s.lane p (f (s.laneOf p)) := rfl
@[simp] theorem State.updLane_now : (s.updLane p f).now = s.now := rfl
@[simp] theorem State.updLane_pending : (s.updLane p f).pending = s.pending := rfl
@[simp] theorem State.updLane_regs : (s.updLane p f).regs = s.regs := rfl
@[simp] theorem State.updLane_aptw : (s.updLane p f).aptw = s.aptw := rfl
@[simp] theorem State.updLane_sdram : (s.updLane p f).sdram = s.sdram := rfl
@[simp] theorem State.updLane_room : (s.updLane p f).room = s.room := rfl
@[simp] theorem State.updLane_freeIx : (s.updLane p f).freeIx = s.freeIx := rfl
@[simp] theorem State.updLane_resp : (s.updLane p f).resp = s.resp := rfl
@[simp] theorem State.updLane_countBase : (s.updLane p f).countBase = s.countBase := rfl
@[simp] theorem State.updLane_stamps : (s.updLane p f).stamps = s.stamps := rfl
@[simp] theorem State.updLane_pool : (s.updLane p f).pool = s.pool := rfl
@[simp] theorem State.updLane_bnd : (s.updLane p f).bnd = s.bnd := rfl
@[simp] theorem State.updLane_grp : (s.updLane p f).grp = s.grp := rfl
@[simp] theorem State.updLane_ring : (s.updLane p f).ring = s.ring := rfl
@[simp] theorem State.updLane_mode : (s.updLane p f).mode = s.mode := rfl
@[simp] theorem State.updLane_pos : (s.updLane p f).pos = s.pos := rfl
@[simp] theorem State.updLane_div : (s.updLane p f).div = s.div := rfl
@[simp] theorem State.updLane_cmp : (s.updLane p f).cmp = s.cmp := rfl
@[simp] theorem State.updLane_ing : (s.updLane p f).ing = s.ing := rfl
@[simp] theorem State.updLane_regn : (s.updLane p f).regn = s.regn := rfl
@[simp] theorem State.updLane_port : (s.updLane p f).port = s.port := rfl
@[simp] theorem State.updLane_cam : (s.updLane p f).cam = s.cam := rfl
@[simp] theorem State.updLane_link : (s.updLane p f).link = s.link := rfl
@[simp] theorem State.updLane_pipe : (s.updLane p f).pipe = s.pipe := rfl
@[simp] theorem State.updLane_trk : (s.updLane p f).trk = s.trk := rfl
@[simp] theorem State.updLane_tdc : (s.updLane p f).tdc = s.tdc := rfl
@[simp] theorem State.updLane_memx : (s.updLane p f).memx = s.memx := rfl
@[simp] theorem State.updLane_memc : (s.updLane p f).memc = s.memc := rfl
@[simp] theorem State.updLane_memBad : (s.updLane p f).memBad = s.memBad := rfl
@[simp] theorem State.updLane_sramErr : (s.updLane p f).sramErr = s.sramErr := rfl
@[simp] theorem State.updLane_stack : (s.updLane p f).stack = s.stack := rfl
@[simp] theorem State.updLane_scrub : (s.updLane p f).scrub = s.scrub := rfl
@[simp] theorem State.updLane_flits : (s.updLane p f).flits = s.flits := rfl
@[simp] theorem State.updLane_net : (s.updLane p f).net = s.net := rfl
@[simp] theorem State.updLane_ptp : (s.updLane p f).ptp = s.ptp := rfl
@[simp] theorem State.updLane_trig : (s.updLane p f).trig = s.trig := rfl
@[simp] theorem State.updLane_tcap : (s.updLane p f).tcap = s.tcap := rfl
@[simp] theorem State.updLane_pair : (s.updLane p f).pair = s.pair := rfl
@[simp] theorem State.updLane_sag : (s.updLane p f).sag = s.sag := rfl
@[simp] theorem State.updLane_hk : (s.updLane p f).hk = s.hk := rfl
@[simp] theorem State.updLane_rail : (s.updLane p f).rail = s.rail := rfl
@[simp] theorem State.updLane_jrn : (s.updLane p f).jrn = s.jrn := rfl
@[simp] theorem State.updLane_cpu : (s.updLane p f).cpu = s.cpu := rfl
@[simp] theorem State.updLane_cal : (s.updLane p f).cal = s.cal := rfl

end

section
variable (f : IngX → IngX)

@[simp] theorem State.updIng_ing : (s.updIng f).ing = f s.ing := rfl
@[simp] theorem State.updIng_now : (s.updIng f).now = s.now := rfl
@[simp] theorem State.updIng_pending : (s.updIng f).pending = s.pending := rfl
@[simp] theorem State.updIng_regs : (s.updIng f).regs = s.regs := rfl
@[simp] theorem State.updIng_aptw : (s.updIng f).aptw = s.aptw := rfl
@[simp] theorem State.updIng_sdram : (s.updIng f).sdram = s.sdram := rfl
@[simp] theorem State.updIng_room : (s.updIng f).room = s.room := rfl
@[simp] theorem State.updIng_freeIx : (s.updIng f).freeIx = s.freeIx := rfl
@[simp] theorem State.updIng_resp : (s.updIng f).resp = s.resp := rfl
@[simp] theorem State.updIng_countBase : (s.updIng f).countBase = s.countBase := rfl
@[simp] theorem State.updIng_stamps : (s.updIng f).stamps = s.stamps := rfl
@[simp] theorem State.updIng_pool : (s.updIng f).pool = s.pool := rfl
@[simp] theorem State.updIng_bnd : (s.updIng f).bnd = s.bnd := rfl
@[simp] theorem State.updIng_grp : (s.updIng f).grp = s.grp := rfl
@[simp] theorem State.updIng_ring : (s.updIng f).ring = s.ring := rfl
@[simp] theorem State.updIng_mode : (s.updIng f).mode = s.mode := rfl
@[simp] theorem State.updIng_pos : (s.updIng f).pos = s.pos := rfl
@[simp] theorem State.updIng_div : (s.updIng f).div = s.div := rfl
@[simp] theorem State.updIng_cmp : (s.updIng f).cmp = s.cmp := rfl
@[simp] theorem State.updIng_regn : (s.updIng f).regn = s.regn := rfl
@[simp] theorem State.updIng_port : (s.updIng f).port = s.port := rfl
@[simp] theorem State.updIng_lane : (s.updIng f).lane = s.lane := rfl
@[simp] theorem State.updIng_cam : (s.updIng f).cam = s.cam := rfl
@[simp] theorem State.updIng_link : (s.updIng f).link = s.link := rfl
@[simp] theorem State.updIng_pipe : (s.updIng f).pipe = s.pipe := rfl
@[simp] theorem State.updIng_trk : (s.updIng f).trk = s.trk := rfl
@[simp] theorem State.updIng_tdc : (s.updIng f).tdc = s.tdc := rfl
@[simp] theorem State.updIng_memx : (s.updIng f).memx = s.memx := rfl
@[simp] theorem State.updIng_memc : (s.updIng f).memc = s.memc := rfl
@[simp] theorem State.updIng_memBad : (s.updIng f).memBad = s.memBad := rfl
@[simp] theorem State.updIng_sramErr : (s.updIng f).sramErr = s.sramErr := rfl
@[simp] theorem State.updIng_stack : (s.updIng f).stack = s.stack := rfl
@[simp] theorem State.updIng_scrub : (s.updIng f).scrub = s.scrub := rfl
@[simp] theorem State.updIng_flits : (s.updIng f).flits = s.flits := rfl
@[simp] theorem State.updIng_net : (s.updIng f).net = s.net := rfl
@[simp] theorem State.updIng_ptp : (s.updIng f).ptp = s.ptp := rfl
@[simp] theorem State.updIng_trig : (s.updIng f).trig = s.trig := rfl
@[simp] theorem State.updIng_tcap : (s.updIng f).tcap = s.tcap := rfl
@[simp] theorem State.updIng_pair : (s.updIng f).pair = s.pair := rfl
@[simp] theorem State.updIng_sag : (s.updIng f).sag = s.sag := rfl
@[simp] theorem State.updIng_hk : (s.updIng f).hk = s.hk := rfl
@[simp] theorem State.updIng_rail : (s.updIng f).rail = s.rail := rfl
@[simp] theorem State.updIng_jrn : (s.updIng f).jrn = s.jrn := rfl
@[simp] theorem State.updIng_cpu : (s.updIng f).cpu = s.cpu := rfl
@[simp] theorem State.updIng_cal : (s.updIng f).cal = s.cal := rfl

end

section
variable (c : Nat) (f : PosX → PosX)

@[simp] theorem State.updPos_pos : (s.updPos c f).pos = tput s.pos c (f (s.posOf c)) := rfl
@[simp] theorem State.updPos_now : (s.updPos c f).now = s.now := rfl
@[simp] theorem State.updPos_pending : (s.updPos c f).pending = s.pending := rfl
@[simp] theorem State.updPos_regs : (s.updPos c f).regs = s.regs := rfl
@[simp] theorem State.updPos_aptw : (s.updPos c f).aptw = s.aptw := rfl
@[simp] theorem State.updPos_sdram : (s.updPos c f).sdram = s.sdram := rfl
@[simp] theorem State.updPos_room : (s.updPos c f).room = s.room := rfl
@[simp] theorem State.updPos_freeIx : (s.updPos c f).freeIx = s.freeIx := rfl
@[simp] theorem State.updPos_resp : (s.updPos c f).resp = s.resp := rfl
@[simp] theorem State.updPos_countBase : (s.updPos c f).countBase = s.countBase := rfl
@[simp] theorem State.updPos_stamps : (s.updPos c f).stamps = s.stamps := rfl
@[simp] theorem State.updPos_pool : (s.updPos c f).pool = s.pool := rfl
@[simp] theorem State.updPos_bnd : (s.updPos c f).bnd = s.bnd := rfl
@[simp] theorem State.updPos_grp : (s.updPos c f).grp = s.grp := rfl
@[simp] theorem State.updPos_ring : (s.updPos c f).ring = s.ring := rfl
@[simp] theorem State.updPos_mode : (s.updPos c f).mode = s.mode := rfl
@[simp] theorem State.updPos_div : (s.updPos c f).div = s.div := rfl
@[simp] theorem State.updPos_cmp : (s.updPos c f).cmp = s.cmp := rfl
@[simp] theorem State.updPos_ing : (s.updPos c f).ing = s.ing := rfl
@[simp] theorem State.updPos_regn : (s.updPos c f).regn = s.regn := rfl
@[simp] theorem State.updPos_port : (s.updPos c f).port = s.port := rfl
@[simp] theorem State.updPos_lane : (s.updPos c f).lane = s.lane := rfl
@[simp] theorem State.updPos_cam : (s.updPos c f).cam = s.cam := rfl
@[simp] theorem State.updPos_link : (s.updPos c f).link = s.link := rfl
@[simp] theorem State.updPos_pipe : (s.updPos c f).pipe = s.pipe := rfl
@[simp] theorem State.updPos_trk : (s.updPos c f).trk = s.trk := rfl
@[simp] theorem State.updPos_tdc : (s.updPos c f).tdc = s.tdc := rfl
@[simp] theorem State.updPos_memx : (s.updPos c f).memx = s.memx := rfl
@[simp] theorem State.updPos_memc : (s.updPos c f).memc = s.memc := rfl
@[simp] theorem State.updPos_memBad : (s.updPos c f).memBad = s.memBad := rfl
@[simp] theorem State.updPos_sramErr : (s.updPos c f).sramErr = s.sramErr := rfl
@[simp] theorem State.updPos_stack : (s.updPos c f).stack = s.stack := rfl
@[simp] theorem State.updPos_scrub : (s.updPos c f).scrub = s.scrub := rfl
@[simp] theorem State.updPos_flits : (s.updPos c f).flits = s.flits := rfl
@[simp] theorem State.updPos_net : (s.updPos c f).net = s.net := rfl
@[simp] theorem State.updPos_ptp : (s.updPos c f).ptp = s.ptp := rfl
@[simp] theorem State.updPos_trig : (s.updPos c f).trig = s.trig := rfl
@[simp] theorem State.updPos_tcap : (s.updPos c f).tcap = s.tcap := rfl
@[simp] theorem State.updPos_pair : (s.updPos c f).pair = s.pair := rfl
@[simp] theorem State.updPos_sag : (s.updPos c f).sag = s.sag := rfl
@[simp] theorem State.updPos_hk : (s.updPos c f).hk = s.hk := rfl
@[simp] theorem State.updPos_rail : (s.updPos c f).rail = s.rail := rfl
@[simp] theorem State.updPos_jrn : (s.updPos c f).jrn = s.jrn := rfl
@[simp] theorem State.updPos_cpu : (s.updPos c f).cpu = s.cpu := rfl
@[simp] theorem State.updPos_cal : (s.updPos c f).cal = s.cal := rfl

end

section
variable (ch : Nat) (f : MemX → MemX)

@[simp] theorem State.updMem_memx : (s.updMem ch f).memx = tput s.memx ch (f (s.memOf ch)) := rfl
@[simp] theorem State.updMem_now : (s.updMem ch f).now = s.now := rfl
@[simp] theorem State.updMem_pending : (s.updMem ch f).pending = s.pending := rfl
@[simp] theorem State.updMem_regs : (s.updMem ch f).regs = s.regs := rfl
@[simp] theorem State.updMem_aptw : (s.updMem ch f).aptw = s.aptw := rfl
@[simp] theorem State.updMem_sdram : (s.updMem ch f).sdram = s.sdram := rfl
@[simp] theorem State.updMem_room : (s.updMem ch f).room = s.room := rfl
@[simp] theorem State.updMem_freeIx : (s.updMem ch f).freeIx = s.freeIx := rfl
@[simp] theorem State.updMem_resp : (s.updMem ch f).resp = s.resp := rfl
@[simp] theorem State.updMem_countBase : (s.updMem ch f).countBase = s.countBase := rfl
@[simp] theorem State.updMem_stamps : (s.updMem ch f).stamps = s.stamps := rfl
@[simp] theorem State.updMem_pool : (s.updMem ch f).pool = s.pool := rfl
@[simp] theorem State.updMem_bnd : (s.updMem ch f).bnd = s.bnd := rfl
@[simp] theorem State.updMem_grp : (s.updMem ch f).grp = s.grp := rfl
@[simp] theorem State.updMem_ring : (s.updMem ch f).ring = s.ring := rfl
@[simp] theorem State.updMem_mode : (s.updMem ch f).mode = s.mode := rfl
@[simp] theorem State.updMem_pos : (s.updMem ch f).pos = s.pos := rfl
@[simp] theorem State.updMem_div : (s.updMem ch f).div = s.div := rfl
@[simp] theorem State.updMem_cmp : (s.updMem ch f).cmp = s.cmp := rfl
@[simp] theorem State.updMem_ing : (s.updMem ch f).ing = s.ing := rfl
@[simp] theorem State.updMem_regn : (s.updMem ch f).regn = s.regn := rfl
@[simp] theorem State.updMem_port : (s.updMem ch f).port = s.port := rfl
@[simp] theorem State.updMem_lane : (s.updMem ch f).lane = s.lane := rfl
@[simp] theorem State.updMem_cam : (s.updMem ch f).cam = s.cam := rfl
@[simp] theorem State.updMem_link : (s.updMem ch f).link = s.link := rfl
@[simp] theorem State.updMem_pipe : (s.updMem ch f).pipe = s.pipe := rfl
@[simp] theorem State.updMem_trk : (s.updMem ch f).trk = s.trk := rfl
@[simp] theorem State.updMem_tdc : (s.updMem ch f).tdc = s.tdc := rfl
@[simp] theorem State.updMem_memc : (s.updMem ch f).memc = s.memc := rfl
@[simp] theorem State.updMem_memBad : (s.updMem ch f).memBad = s.memBad := rfl
@[simp] theorem State.updMem_sramErr : (s.updMem ch f).sramErr = s.sramErr := rfl
@[simp] theorem State.updMem_stack : (s.updMem ch f).stack = s.stack := rfl
@[simp] theorem State.updMem_scrub : (s.updMem ch f).scrub = s.scrub := rfl
@[simp] theorem State.updMem_flits : (s.updMem ch f).flits = s.flits := rfl
@[simp] theorem State.updMem_net : (s.updMem ch f).net = s.net := rfl
@[simp] theorem State.updMem_ptp : (s.updMem ch f).ptp = s.ptp := rfl
@[simp] theorem State.updMem_trig : (s.updMem ch f).trig = s.trig := rfl
@[simp] theorem State.updMem_tcap : (s.updMem ch f).tcap = s.tcap := rfl
@[simp] theorem State.updMem_pair : (s.updMem ch f).pair = s.pair := rfl
@[simp] theorem State.updMem_sag : (s.updMem ch f).sag = s.sag := rfl
@[simp] theorem State.updMem_hk : (s.updMem ch f).hk = s.hk := rfl
@[simp] theorem State.updMem_rail : (s.updMem ch f).rail = s.rail := rfl
@[simp] theorem State.updMem_jrn : (s.updMem ch f).jrn = s.jrn := rfl
@[simp] theorem State.updMem_cpu : (s.updMem ch f).cpu = s.cpu := rfl
@[simp] theorem State.updMem_cal : (s.updMem ch f).cal = s.cal := rfl

end

section
variable (f : StackX → StackX)

@[simp] theorem State.updStack_stack : (s.updStack f).stack = f s.stack := rfl
@[simp] theorem State.updStack_now : (s.updStack f).now = s.now := rfl
@[simp] theorem State.updStack_pending : (s.updStack f).pending = s.pending := rfl
@[simp] theorem State.updStack_regs : (s.updStack f).regs = s.regs := rfl
@[simp] theorem State.updStack_aptw : (s.updStack f).aptw = s.aptw := rfl
@[simp] theorem State.updStack_sdram : (s.updStack f).sdram = s.sdram := rfl
@[simp] theorem State.updStack_room : (s.updStack f).room = s.room := rfl
@[simp] theorem State.updStack_freeIx : (s.updStack f).freeIx = s.freeIx := rfl
@[simp] theorem State.updStack_resp : (s.updStack f).resp = s.resp := rfl
@[simp] theorem State.updStack_countBase : (s.updStack f).countBase = s.countBase := rfl
@[simp] theorem State.updStack_stamps : (s.updStack f).stamps = s.stamps := rfl
@[simp] theorem State.updStack_pool : (s.updStack f).pool = s.pool := rfl
@[simp] theorem State.updStack_bnd : (s.updStack f).bnd = s.bnd := rfl
@[simp] theorem State.updStack_grp : (s.updStack f).grp = s.grp := rfl
@[simp] theorem State.updStack_ring : (s.updStack f).ring = s.ring := rfl
@[simp] theorem State.updStack_mode : (s.updStack f).mode = s.mode := rfl
@[simp] theorem State.updStack_pos : (s.updStack f).pos = s.pos := rfl
@[simp] theorem State.updStack_div : (s.updStack f).div = s.div := rfl
@[simp] theorem State.updStack_cmp : (s.updStack f).cmp = s.cmp := rfl
@[simp] theorem State.updStack_ing : (s.updStack f).ing = s.ing := rfl
@[simp] theorem State.updStack_regn : (s.updStack f).regn = s.regn := rfl
@[simp] theorem State.updStack_port : (s.updStack f).port = s.port := rfl
@[simp] theorem State.updStack_lane : (s.updStack f).lane = s.lane := rfl
@[simp] theorem State.updStack_cam : (s.updStack f).cam = s.cam := rfl
@[simp] theorem State.updStack_link : (s.updStack f).link = s.link := rfl
@[simp] theorem State.updStack_pipe : (s.updStack f).pipe = s.pipe := rfl
@[simp] theorem State.updStack_trk : (s.updStack f).trk = s.trk := rfl
@[simp] theorem State.updStack_tdc : (s.updStack f).tdc = s.tdc := rfl
@[simp] theorem State.updStack_memx : (s.updStack f).memx = s.memx := rfl
@[simp] theorem State.updStack_memc : (s.updStack f).memc = s.memc := rfl
@[simp] theorem State.updStack_memBad : (s.updStack f).memBad = s.memBad := rfl
@[simp] theorem State.updStack_sramErr : (s.updStack f).sramErr = s.sramErr := rfl
@[simp] theorem State.updStack_scrub : (s.updStack f).scrub = s.scrub := rfl
@[simp] theorem State.updStack_flits : (s.updStack f).flits = s.flits := rfl
@[simp] theorem State.updStack_net : (s.updStack f).net = s.net := rfl
@[simp] theorem State.updStack_ptp : (s.updStack f).ptp = s.ptp := rfl
@[simp] theorem State.updStack_trig : (s.updStack f).trig = s.trig := rfl
@[simp] theorem State.updStack_tcap : (s.updStack f).tcap = s.tcap := rfl
@[simp] theorem State.updStack_pair : (s.updStack f).pair = s.pair := rfl
@[simp] theorem State.updStack_sag : (s.updStack f).sag = s.sag := rfl
@[simp] theorem State.updStack_hk : (s.updStack f).hk = s.hk := rfl
@[simp] theorem State.updStack_rail : (s.updStack f).rail = s.rail := rfl
@[simp] theorem State.updStack_jrn : (s.updStack f).jrn = s.jrn := rfl
@[simp] theorem State.updStack_cpu : (s.updStack f).cpu = s.cpu := rfl
@[simp] theorem State.updStack_cal : (s.updStack f).cal = s.cal := rfl

end

section
variable (f : NetX → NetX)

@[simp] theorem State.updNet_net : (s.updNet f).net = f s.net := rfl
@[simp] theorem State.updNet_now : (s.updNet f).now = s.now := rfl
@[simp] theorem State.updNet_pending : (s.updNet f).pending = s.pending := rfl
@[simp] theorem State.updNet_regs : (s.updNet f).regs = s.regs := rfl
@[simp] theorem State.updNet_aptw : (s.updNet f).aptw = s.aptw := rfl
@[simp] theorem State.updNet_sdram : (s.updNet f).sdram = s.sdram := rfl
@[simp] theorem State.updNet_room : (s.updNet f).room = s.room := rfl
@[simp] theorem State.updNet_freeIx : (s.updNet f).freeIx = s.freeIx := rfl
@[simp] theorem State.updNet_resp : (s.updNet f).resp = s.resp := rfl
@[simp] theorem State.updNet_countBase : (s.updNet f).countBase = s.countBase := rfl
@[simp] theorem State.updNet_stamps : (s.updNet f).stamps = s.stamps := rfl
@[simp] theorem State.updNet_pool : (s.updNet f).pool = s.pool := rfl
@[simp] theorem State.updNet_bnd : (s.updNet f).bnd = s.bnd := rfl
@[simp] theorem State.updNet_grp : (s.updNet f).grp = s.grp := rfl
@[simp] theorem State.updNet_ring : (s.updNet f).ring = s.ring := rfl
@[simp] theorem State.updNet_mode : (s.updNet f).mode = s.mode := rfl
@[simp] theorem State.updNet_pos : (s.updNet f).pos = s.pos := rfl
@[simp] theorem State.updNet_div : (s.updNet f).div = s.div := rfl
@[simp] theorem State.updNet_cmp : (s.updNet f).cmp = s.cmp := rfl
@[simp] theorem State.updNet_ing : (s.updNet f).ing = s.ing := rfl
@[simp] theorem State.updNet_regn : (s.updNet f).regn = s.regn := rfl
@[simp] theorem State.updNet_port : (s.updNet f).port = s.port := rfl
@[simp] theorem State.updNet_lane : (s.updNet f).lane = s.lane := rfl
@[simp] theorem State.updNet_cam : (s.updNet f).cam = s.cam := rfl
@[simp] theorem State.updNet_link : (s.updNet f).link = s.link := rfl
@[simp] theorem State.updNet_pipe : (s.updNet f).pipe = s.pipe := rfl
@[simp] theorem State.updNet_trk : (s.updNet f).trk = s.trk := rfl
@[simp] theorem State.updNet_tdc : (s.updNet f).tdc = s.tdc := rfl
@[simp] theorem State.updNet_memx : (s.updNet f).memx = s.memx := rfl
@[simp] theorem State.updNet_memc : (s.updNet f).memc = s.memc := rfl
@[simp] theorem State.updNet_memBad : (s.updNet f).memBad = s.memBad := rfl
@[simp] theorem State.updNet_sramErr : (s.updNet f).sramErr = s.sramErr := rfl
@[simp] theorem State.updNet_stack : (s.updNet f).stack = s.stack := rfl
@[simp] theorem State.updNet_scrub : (s.updNet f).scrub = s.scrub := rfl
@[simp] theorem State.updNet_flits : (s.updNet f).flits = s.flits := rfl
@[simp] theorem State.updNet_ptp : (s.updNet f).ptp = s.ptp := rfl
@[simp] theorem State.updNet_trig : (s.updNet f).trig = s.trig := rfl
@[simp] theorem State.updNet_tcap : (s.updNet f).tcap = s.tcap := rfl
@[simp] theorem State.updNet_pair : (s.updNet f).pair = s.pair := rfl
@[simp] theorem State.updNet_sag : (s.updNet f).sag = s.sag := rfl
@[simp] theorem State.updNet_hk : (s.updNet f).hk = s.hk := rfl
@[simp] theorem State.updNet_rail : (s.updNet f).rail = s.rail := rfl
@[simp] theorem State.updNet_jrn : (s.updNet f).jrn = s.jrn := rfl
@[simp] theorem State.updNet_cpu : (s.updNet f).cpu = s.cpu := rfl
@[simp] theorem State.updNet_cal : (s.updNet f).cal = s.cal := rfl

end

section
variable (f : PtpX → PtpX)

@[simp] theorem State.updPtp_ptp : (s.updPtp f).ptp = f s.ptp := rfl
@[simp] theorem State.updPtp_now : (s.updPtp f).now = s.now := rfl
@[simp] theorem State.updPtp_pending : (s.updPtp f).pending = s.pending := rfl
@[simp] theorem State.updPtp_regs : (s.updPtp f).regs = s.regs := rfl
@[simp] theorem State.updPtp_aptw : (s.updPtp f).aptw = s.aptw := rfl
@[simp] theorem State.updPtp_sdram : (s.updPtp f).sdram = s.sdram := rfl
@[simp] theorem State.updPtp_room : (s.updPtp f).room = s.room := rfl
@[simp] theorem State.updPtp_freeIx : (s.updPtp f).freeIx = s.freeIx := rfl
@[simp] theorem State.updPtp_resp : (s.updPtp f).resp = s.resp := rfl
@[simp] theorem State.updPtp_countBase : (s.updPtp f).countBase = s.countBase := rfl
@[simp] theorem State.updPtp_stamps : (s.updPtp f).stamps = s.stamps := rfl
@[simp] theorem State.updPtp_pool : (s.updPtp f).pool = s.pool := rfl
@[simp] theorem State.updPtp_bnd : (s.updPtp f).bnd = s.bnd := rfl
@[simp] theorem State.updPtp_grp : (s.updPtp f).grp = s.grp := rfl
@[simp] theorem State.updPtp_ring : (s.updPtp f).ring = s.ring := rfl
@[simp] theorem State.updPtp_mode : (s.updPtp f).mode = s.mode := rfl
@[simp] theorem State.updPtp_pos : (s.updPtp f).pos = s.pos := rfl
@[simp] theorem State.updPtp_div : (s.updPtp f).div = s.div := rfl
@[simp] theorem State.updPtp_cmp : (s.updPtp f).cmp = s.cmp := rfl
@[simp] theorem State.updPtp_ing : (s.updPtp f).ing = s.ing := rfl
@[simp] theorem State.updPtp_regn : (s.updPtp f).regn = s.regn := rfl
@[simp] theorem State.updPtp_port : (s.updPtp f).port = s.port := rfl
@[simp] theorem State.updPtp_lane : (s.updPtp f).lane = s.lane := rfl
@[simp] theorem State.updPtp_cam : (s.updPtp f).cam = s.cam := rfl
@[simp] theorem State.updPtp_link : (s.updPtp f).link = s.link := rfl
@[simp] theorem State.updPtp_pipe : (s.updPtp f).pipe = s.pipe := rfl
@[simp] theorem State.updPtp_trk : (s.updPtp f).trk = s.trk := rfl
@[simp] theorem State.updPtp_tdc : (s.updPtp f).tdc = s.tdc := rfl
@[simp] theorem State.updPtp_memx : (s.updPtp f).memx = s.memx := rfl
@[simp] theorem State.updPtp_memc : (s.updPtp f).memc = s.memc := rfl
@[simp] theorem State.updPtp_memBad : (s.updPtp f).memBad = s.memBad := rfl
@[simp] theorem State.updPtp_sramErr : (s.updPtp f).sramErr = s.sramErr := rfl
@[simp] theorem State.updPtp_stack : (s.updPtp f).stack = s.stack := rfl
@[simp] theorem State.updPtp_scrub : (s.updPtp f).scrub = s.scrub := rfl
@[simp] theorem State.updPtp_flits : (s.updPtp f).flits = s.flits := rfl
@[simp] theorem State.updPtp_net : (s.updPtp f).net = s.net := rfl
@[simp] theorem State.updPtp_trig : (s.updPtp f).trig = s.trig := rfl
@[simp] theorem State.updPtp_tcap : (s.updPtp f).tcap = s.tcap := rfl
@[simp] theorem State.updPtp_pair : (s.updPtp f).pair = s.pair := rfl
@[simp] theorem State.updPtp_sag : (s.updPtp f).sag = s.sag := rfl
@[simp] theorem State.updPtp_hk : (s.updPtp f).hk = s.hk := rfl
@[simp] theorem State.updPtp_rail : (s.updPtp f).rail = s.rail := rfl
@[simp] theorem State.updPtp_jrn : (s.updPtp f).jrn = s.jrn := rfl
@[simp] theorem State.updPtp_cpu : (s.updPtp f).cpu = s.cpu := rfl
@[simp] theorem State.updPtp_cal : (s.updPtp f).cal = s.cal := rfl

end

section
variable (k : Nat) (f : TrigX → TrigX)

@[simp] theorem State.updTrig_trig : (s.updTrig k f).trig = tput s.trig k (f (s.trigOf k)) := rfl
@[simp] theorem State.updTrig_now : (s.updTrig k f).now = s.now := rfl
@[simp] theorem State.updTrig_pending : (s.updTrig k f).pending = s.pending := rfl
@[simp] theorem State.updTrig_regs : (s.updTrig k f).regs = s.regs := rfl
@[simp] theorem State.updTrig_aptw : (s.updTrig k f).aptw = s.aptw := rfl
@[simp] theorem State.updTrig_sdram : (s.updTrig k f).sdram = s.sdram := rfl
@[simp] theorem State.updTrig_room : (s.updTrig k f).room = s.room := rfl
@[simp] theorem State.updTrig_freeIx : (s.updTrig k f).freeIx = s.freeIx := rfl
@[simp] theorem State.updTrig_resp : (s.updTrig k f).resp = s.resp := rfl
@[simp] theorem State.updTrig_countBase : (s.updTrig k f).countBase = s.countBase := rfl
@[simp] theorem State.updTrig_stamps : (s.updTrig k f).stamps = s.stamps := rfl
@[simp] theorem State.updTrig_pool : (s.updTrig k f).pool = s.pool := rfl
@[simp] theorem State.updTrig_bnd : (s.updTrig k f).bnd = s.bnd := rfl
@[simp] theorem State.updTrig_grp : (s.updTrig k f).grp = s.grp := rfl
@[simp] theorem State.updTrig_ring : (s.updTrig k f).ring = s.ring := rfl
@[simp] theorem State.updTrig_mode : (s.updTrig k f).mode = s.mode := rfl
@[simp] theorem State.updTrig_pos : (s.updTrig k f).pos = s.pos := rfl
@[simp] theorem State.updTrig_div : (s.updTrig k f).div = s.div := rfl
@[simp] theorem State.updTrig_cmp : (s.updTrig k f).cmp = s.cmp := rfl
@[simp] theorem State.updTrig_ing : (s.updTrig k f).ing = s.ing := rfl
@[simp] theorem State.updTrig_regn : (s.updTrig k f).regn = s.regn := rfl
@[simp] theorem State.updTrig_port : (s.updTrig k f).port = s.port := rfl
@[simp] theorem State.updTrig_lane : (s.updTrig k f).lane = s.lane := rfl
@[simp] theorem State.updTrig_cam : (s.updTrig k f).cam = s.cam := rfl
@[simp] theorem State.updTrig_link : (s.updTrig k f).link = s.link := rfl
@[simp] theorem State.updTrig_pipe : (s.updTrig k f).pipe = s.pipe := rfl
@[simp] theorem State.updTrig_trk : (s.updTrig k f).trk = s.trk := rfl
@[simp] theorem State.updTrig_tdc : (s.updTrig k f).tdc = s.tdc := rfl
@[simp] theorem State.updTrig_memx : (s.updTrig k f).memx = s.memx := rfl
@[simp] theorem State.updTrig_memc : (s.updTrig k f).memc = s.memc := rfl
@[simp] theorem State.updTrig_memBad : (s.updTrig k f).memBad = s.memBad := rfl
@[simp] theorem State.updTrig_sramErr : (s.updTrig k f).sramErr = s.sramErr := rfl
@[simp] theorem State.updTrig_stack : (s.updTrig k f).stack = s.stack := rfl
@[simp] theorem State.updTrig_scrub : (s.updTrig k f).scrub = s.scrub := rfl
@[simp] theorem State.updTrig_flits : (s.updTrig k f).flits = s.flits := rfl
@[simp] theorem State.updTrig_net : (s.updTrig k f).net = s.net := rfl
@[simp] theorem State.updTrig_ptp : (s.updTrig k f).ptp = s.ptp := rfl
@[simp] theorem State.updTrig_tcap : (s.updTrig k f).tcap = s.tcap := rfl
@[simp] theorem State.updTrig_pair : (s.updTrig k f).pair = s.pair := rfl
@[simp] theorem State.updTrig_sag : (s.updTrig k f).sag = s.sag := rfl
@[simp] theorem State.updTrig_hk : (s.updTrig k f).hk = s.hk := rfl
@[simp] theorem State.updTrig_rail : (s.updTrig k f).rail = s.rail := rfl
@[simp] theorem State.updTrig_jrn : (s.updTrig k f).jrn = s.jrn := rfl
@[simp] theorem State.updTrig_cpu : (s.updTrig k f).cpu = s.cpu := rfl
@[simp] theorem State.updTrig_cal : (s.updTrig k f).cal = s.cal := rfl

end

section
variable (f : PairX → PairX)

@[simp] theorem State.updPair_pair : (s.updPair f).pair = f s.pair := rfl
@[simp] theorem State.updPair_now : (s.updPair f).now = s.now := rfl
@[simp] theorem State.updPair_pending : (s.updPair f).pending = s.pending := rfl
@[simp] theorem State.updPair_regs : (s.updPair f).regs = s.regs := rfl
@[simp] theorem State.updPair_aptw : (s.updPair f).aptw = s.aptw := rfl
@[simp] theorem State.updPair_sdram : (s.updPair f).sdram = s.sdram := rfl
@[simp] theorem State.updPair_room : (s.updPair f).room = s.room := rfl
@[simp] theorem State.updPair_freeIx : (s.updPair f).freeIx = s.freeIx := rfl
@[simp] theorem State.updPair_resp : (s.updPair f).resp = s.resp := rfl
@[simp] theorem State.updPair_countBase : (s.updPair f).countBase = s.countBase := rfl
@[simp] theorem State.updPair_stamps : (s.updPair f).stamps = s.stamps := rfl
@[simp] theorem State.updPair_pool : (s.updPair f).pool = s.pool := rfl
@[simp] theorem State.updPair_bnd : (s.updPair f).bnd = s.bnd := rfl
@[simp] theorem State.updPair_grp : (s.updPair f).grp = s.grp := rfl
@[simp] theorem State.updPair_ring : (s.updPair f).ring = s.ring := rfl
@[simp] theorem State.updPair_mode : (s.updPair f).mode = s.mode := rfl
@[simp] theorem State.updPair_pos : (s.updPair f).pos = s.pos := rfl
@[simp] theorem State.updPair_div : (s.updPair f).div = s.div := rfl
@[simp] theorem State.updPair_cmp : (s.updPair f).cmp = s.cmp := rfl
@[simp] theorem State.updPair_ing : (s.updPair f).ing = s.ing := rfl
@[simp] theorem State.updPair_regn : (s.updPair f).regn = s.regn := rfl
@[simp] theorem State.updPair_port : (s.updPair f).port = s.port := rfl
@[simp] theorem State.updPair_lane : (s.updPair f).lane = s.lane := rfl
@[simp] theorem State.updPair_cam : (s.updPair f).cam = s.cam := rfl
@[simp] theorem State.updPair_link : (s.updPair f).link = s.link := rfl
@[simp] theorem State.updPair_pipe : (s.updPair f).pipe = s.pipe := rfl
@[simp] theorem State.updPair_trk : (s.updPair f).trk = s.trk := rfl
@[simp] theorem State.updPair_tdc : (s.updPair f).tdc = s.tdc := rfl
@[simp] theorem State.updPair_memx : (s.updPair f).memx = s.memx := rfl
@[simp] theorem State.updPair_memc : (s.updPair f).memc = s.memc := rfl
@[simp] theorem State.updPair_memBad : (s.updPair f).memBad = s.memBad := rfl
@[simp] theorem State.updPair_sramErr : (s.updPair f).sramErr = s.sramErr := rfl
@[simp] theorem State.updPair_stack : (s.updPair f).stack = s.stack := rfl
@[simp] theorem State.updPair_scrub : (s.updPair f).scrub = s.scrub := rfl
@[simp] theorem State.updPair_flits : (s.updPair f).flits = s.flits := rfl
@[simp] theorem State.updPair_net : (s.updPair f).net = s.net := rfl
@[simp] theorem State.updPair_ptp : (s.updPair f).ptp = s.ptp := rfl
@[simp] theorem State.updPair_trig : (s.updPair f).trig = s.trig := rfl
@[simp] theorem State.updPair_tcap : (s.updPair f).tcap = s.tcap := rfl
@[simp] theorem State.updPair_sag : (s.updPair f).sag = s.sag := rfl
@[simp] theorem State.updPair_hk : (s.updPair f).hk = s.hk := rfl
@[simp] theorem State.updPair_rail : (s.updPair f).rail = s.rail := rfl
@[simp] theorem State.updPair_jrn : (s.updPair f).jrn = s.jrn := rfl
@[simp] theorem State.updPair_cpu : (s.updPair f).cpu = s.cpu := rfl
@[simp] theorem State.updPair_cal : (s.updPair f).cal = s.cal := rfl

end

section
variable (f : SagX → SagX)

@[simp] theorem State.updSag_sag : (s.updSag f).sag = f s.sag := rfl
@[simp] theorem State.updSag_now : (s.updSag f).now = s.now := rfl
@[simp] theorem State.updSag_pending : (s.updSag f).pending = s.pending := rfl
@[simp] theorem State.updSag_regs : (s.updSag f).regs = s.regs := rfl
@[simp] theorem State.updSag_aptw : (s.updSag f).aptw = s.aptw := rfl
@[simp] theorem State.updSag_sdram : (s.updSag f).sdram = s.sdram := rfl
@[simp] theorem State.updSag_room : (s.updSag f).room = s.room := rfl
@[simp] theorem State.updSag_freeIx : (s.updSag f).freeIx = s.freeIx := rfl
@[simp] theorem State.updSag_resp : (s.updSag f).resp = s.resp := rfl
@[simp] theorem State.updSag_countBase : (s.updSag f).countBase = s.countBase := rfl
@[simp] theorem State.updSag_stamps : (s.updSag f).stamps = s.stamps := rfl
@[simp] theorem State.updSag_pool : (s.updSag f).pool = s.pool := rfl
@[simp] theorem State.updSag_bnd : (s.updSag f).bnd = s.bnd := rfl
@[simp] theorem State.updSag_grp : (s.updSag f).grp = s.grp := rfl
@[simp] theorem State.updSag_ring : (s.updSag f).ring = s.ring := rfl
@[simp] theorem State.updSag_mode : (s.updSag f).mode = s.mode := rfl
@[simp] theorem State.updSag_pos : (s.updSag f).pos = s.pos := rfl
@[simp] theorem State.updSag_div : (s.updSag f).div = s.div := rfl
@[simp] theorem State.updSag_cmp : (s.updSag f).cmp = s.cmp := rfl
@[simp] theorem State.updSag_ing : (s.updSag f).ing = s.ing := rfl
@[simp] theorem State.updSag_regn : (s.updSag f).regn = s.regn := rfl
@[simp] theorem State.updSag_port : (s.updSag f).port = s.port := rfl
@[simp] theorem State.updSag_lane : (s.updSag f).lane = s.lane := rfl
@[simp] theorem State.updSag_cam : (s.updSag f).cam = s.cam := rfl
@[simp] theorem State.updSag_link : (s.updSag f).link = s.link := rfl
@[simp] theorem State.updSag_pipe : (s.updSag f).pipe = s.pipe := rfl
@[simp] theorem State.updSag_trk : (s.updSag f).trk = s.trk := rfl
@[simp] theorem State.updSag_tdc : (s.updSag f).tdc = s.tdc := rfl
@[simp] theorem State.updSag_memx : (s.updSag f).memx = s.memx := rfl
@[simp] theorem State.updSag_memc : (s.updSag f).memc = s.memc := rfl
@[simp] theorem State.updSag_memBad : (s.updSag f).memBad = s.memBad := rfl
@[simp] theorem State.updSag_sramErr : (s.updSag f).sramErr = s.sramErr := rfl
@[simp] theorem State.updSag_stack : (s.updSag f).stack = s.stack := rfl
@[simp] theorem State.updSag_scrub : (s.updSag f).scrub = s.scrub := rfl
@[simp] theorem State.updSag_flits : (s.updSag f).flits = s.flits := rfl
@[simp] theorem State.updSag_net : (s.updSag f).net = s.net := rfl
@[simp] theorem State.updSag_ptp : (s.updSag f).ptp = s.ptp := rfl
@[simp] theorem State.updSag_trig : (s.updSag f).trig = s.trig := rfl
@[simp] theorem State.updSag_tcap : (s.updSag f).tcap = s.tcap := rfl
@[simp] theorem State.updSag_pair : (s.updSag f).pair = s.pair := rfl
@[simp] theorem State.updSag_hk : (s.updSag f).hk = s.hk := rfl
@[simp] theorem State.updSag_rail : (s.updSag f).rail = s.rail := rfl
@[simp] theorem State.updSag_jrn : (s.updSag f).jrn = s.jrn := rfl
@[simp] theorem State.updSag_cpu : (s.updSag f).cpu = s.cpu := rfl
@[simp] theorem State.updSag_cal : (s.updSag f).cal = s.cal := rfl

end

section
variable (f : HkX → HkX)

@[simp] theorem State.updHk_hk : (s.updHk f).hk = f s.hk := rfl
@[simp] theorem State.updHk_now : (s.updHk f).now = s.now := rfl
@[simp] theorem State.updHk_pending : (s.updHk f).pending = s.pending := rfl
@[simp] theorem State.updHk_regs : (s.updHk f).regs = s.regs := rfl
@[simp] theorem State.updHk_aptw : (s.updHk f).aptw = s.aptw := rfl
@[simp] theorem State.updHk_sdram : (s.updHk f).sdram = s.sdram := rfl
@[simp] theorem State.updHk_room : (s.updHk f).room = s.room := rfl
@[simp] theorem State.updHk_freeIx : (s.updHk f).freeIx = s.freeIx := rfl
@[simp] theorem State.updHk_resp : (s.updHk f).resp = s.resp := rfl
@[simp] theorem State.updHk_countBase : (s.updHk f).countBase = s.countBase := rfl
@[simp] theorem State.updHk_stamps : (s.updHk f).stamps = s.stamps := rfl
@[simp] theorem State.updHk_pool : (s.updHk f).pool = s.pool := rfl
@[simp] theorem State.updHk_bnd : (s.updHk f).bnd = s.bnd := rfl
@[simp] theorem State.updHk_grp : (s.updHk f).grp = s.grp := rfl
@[simp] theorem State.updHk_ring : (s.updHk f).ring = s.ring := rfl
@[simp] theorem State.updHk_mode : (s.updHk f).mode = s.mode := rfl
@[simp] theorem State.updHk_pos : (s.updHk f).pos = s.pos := rfl
@[simp] theorem State.updHk_div : (s.updHk f).div = s.div := rfl
@[simp] theorem State.updHk_cmp : (s.updHk f).cmp = s.cmp := rfl
@[simp] theorem State.updHk_ing : (s.updHk f).ing = s.ing := rfl
@[simp] theorem State.updHk_regn : (s.updHk f).regn = s.regn := rfl
@[simp] theorem State.updHk_port : (s.updHk f).port = s.port := rfl
@[simp] theorem State.updHk_lane : (s.updHk f).lane = s.lane := rfl
@[simp] theorem State.updHk_cam : (s.updHk f).cam = s.cam := rfl
@[simp] theorem State.updHk_link : (s.updHk f).link = s.link := rfl
@[simp] theorem State.updHk_pipe : (s.updHk f).pipe = s.pipe := rfl
@[simp] theorem State.updHk_trk : (s.updHk f).trk = s.trk := rfl
@[simp] theorem State.updHk_tdc : (s.updHk f).tdc = s.tdc := rfl
@[simp] theorem State.updHk_memx : (s.updHk f).memx = s.memx := rfl
@[simp] theorem State.updHk_memc : (s.updHk f).memc = s.memc := rfl
@[simp] theorem State.updHk_memBad : (s.updHk f).memBad = s.memBad := rfl
@[simp] theorem State.updHk_sramErr : (s.updHk f).sramErr = s.sramErr := rfl
@[simp] theorem State.updHk_stack : (s.updHk f).stack = s.stack := rfl
@[simp] theorem State.updHk_scrub : (s.updHk f).scrub = s.scrub := rfl
@[simp] theorem State.updHk_flits : (s.updHk f).flits = s.flits := rfl
@[simp] theorem State.updHk_net : (s.updHk f).net = s.net := rfl
@[simp] theorem State.updHk_ptp : (s.updHk f).ptp = s.ptp := rfl
@[simp] theorem State.updHk_trig : (s.updHk f).trig = s.trig := rfl
@[simp] theorem State.updHk_tcap : (s.updHk f).tcap = s.tcap := rfl
@[simp] theorem State.updHk_pair : (s.updHk f).pair = s.pair := rfl
@[simp] theorem State.updHk_sag : (s.updHk f).sag = s.sag := rfl
@[simp] theorem State.updHk_rail : (s.updHk f).rail = s.rail := rfl
@[simp] theorem State.updHk_jrn : (s.updHk f).jrn = s.jrn := rfl
@[simp] theorem State.updHk_cpu : (s.updHk f).cpu = s.cpu := rfl
@[simp] theorem State.updHk_cal : (s.updHk f).cal = s.cal := rfl

end

section
variable (f : RailX → RailX)

@[simp] theorem State.updRail_rail : (s.updRail f).rail = f s.rail := rfl
@[simp] theorem State.updRail_now : (s.updRail f).now = s.now := rfl
@[simp] theorem State.updRail_pending : (s.updRail f).pending = s.pending := rfl
@[simp] theorem State.updRail_regs : (s.updRail f).regs = s.regs := rfl
@[simp] theorem State.updRail_aptw : (s.updRail f).aptw = s.aptw := rfl
@[simp] theorem State.updRail_sdram : (s.updRail f).sdram = s.sdram := rfl
@[simp] theorem State.updRail_room : (s.updRail f).room = s.room := rfl
@[simp] theorem State.updRail_freeIx : (s.updRail f).freeIx = s.freeIx := rfl
@[simp] theorem State.updRail_resp : (s.updRail f).resp = s.resp := rfl
@[simp] theorem State.updRail_countBase : (s.updRail f).countBase = s.countBase := rfl
@[simp] theorem State.updRail_stamps : (s.updRail f).stamps = s.stamps := rfl
@[simp] theorem State.updRail_pool : (s.updRail f).pool = s.pool := rfl
@[simp] theorem State.updRail_bnd : (s.updRail f).bnd = s.bnd := rfl
@[simp] theorem State.updRail_grp : (s.updRail f).grp = s.grp := rfl
@[simp] theorem State.updRail_ring : (s.updRail f).ring = s.ring := rfl
@[simp] theorem State.updRail_mode : (s.updRail f).mode = s.mode := rfl
@[simp] theorem State.updRail_pos : (s.updRail f).pos = s.pos := rfl
@[simp] theorem State.updRail_div : (s.updRail f).div = s.div := rfl
@[simp] theorem State.updRail_cmp : (s.updRail f).cmp = s.cmp := rfl
@[simp] theorem State.updRail_ing : (s.updRail f).ing = s.ing := rfl
@[simp] theorem State.updRail_regn : (s.updRail f).regn = s.regn := rfl
@[simp] theorem State.updRail_port : (s.updRail f).port = s.port := rfl
@[simp] theorem State.updRail_lane : (s.updRail f).lane = s.lane := rfl
@[simp] theorem State.updRail_cam : (s.updRail f).cam = s.cam := rfl
@[simp] theorem State.updRail_link : (s.updRail f).link = s.link := rfl
@[simp] theorem State.updRail_pipe : (s.updRail f).pipe = s.pipe := rfl
@[simp] theorem State.updRail_trk : (s.updRail f).trk = s.trk := rfl
@[simp] theorem State.updRail_tdc : (s.updRail f).tdc = s.tdc := rfl
@[simp] theorem State.updRail_memx : (s.updRail f).memx = s.memx := rfl
@[simp] theorem State.updRail_memc : (s.updRail f).memc = s.memc := rfl
@[simp] theorem State.updRail_memBad : (s.updRail f).memBad = s.memBad := rfl
@[simp] theorem State.updRail_sramErr : (s.updRail f).sramErr = s.sramErr := rfl
@[simp] theorem State.updRail_stack : (s.updRail f).stack = s.stack := rfl
@[simp] theorem State.updRail_scrub : (s.updRail f).scrub = s.scrub := rfl
@[simp] theorem State.updRail_flits : (s.updRail f).flits = s.flits := rfl
@[simp] theorem State.updRail_net : (s.updRail f).net = s.net := rfl
@[simp] theorem State.updRail_ptp : (s.updRail f).ptp = s.ptp := rfl
@[simp] theorem State.updRail_trig : (s.updRail f).trig = s.trig := rfl
@[simp] theorem State.updRail_tcap : (s.updRail f).tcap = s.tcap := rfl
@[simp] theorem State.updRail_pair : (s.updRail f).pair = s.pair := rfl
@[simp] theorem State.updRail_sag : (s.updRail f).sag = s.sag := rfl
@[simp] theorem State.updRail_hk : (s.updRail f).hk = s.hk := rfl
@[simp] theorem State.updRail_jrn : (s.updRail f).jrn = s.jrn := rfl
@[simp] theorem State.updRail_cpu : (s.updRail f).cpu = s.cpu := rfl
@[simp] theorem State.updRail_cal : (s.updRail f).cal = s.cal := rfl

end

section
variable (f : JournalX → JournalX)

@[simp] theorem State.updJrn_jrn : (s.updJrn f).jrn = f s.jrn := rfl
@[simp] theorem State.updJrn_now : (s.updJrn f).now = s.now := rfl
@[simp] theorem State.updJrn_pending : (s.updJrn f).pending = s.pending := rfl
@[simp] theorem State.updJrn_regs : (s.updJrn f).regs = s.regs := rfl
@[simp] theorem State.updJrn_aptw : (s.updJrn f).aptw = s.aptw := rfl
@[simp] theorem State.updJrn_sdram : (s.updJrn f).sdram = s.sdram := rfl
@[simp] theorem State.updJrn_room : (s.updJrn f).room = s.room := rfl
@[simp] theorem State.updJrn_freeIx : (s.updJrn f).freeIx = s.freeIx := rfl
@[simp] theorem State.updJrn_resp : (s.updJrn f).resp = s.resp := rfl
@[simp] theorem State.updJrn_countBase : (s.updJrn f).countBase = s.countBase := rfl
@[simp] theorem State.updJrn_stamps : (s.updJrn f).stamps = s.stamps := rfl
@[simp] theorem State.updJrn_pool : (s.updJrn f).pool = s.pool := rfl
@[simp] theorem State.updJrn_bnd : (s.updJrn f).bnd = s.bnd := rfl
@[simp] theorem State.updJrn_grp : (s.updJrn f).grp = s.grp := rfl
@[simp] theorem State.updJrn_ring : (s.updJrn f).ring = s.ring := rfl
@[simp] theorem State.updJrn_mode : (s.updJrn f).mode = s.mode := rfl
@[simp] theorem State.updJrn_pos : (s.updJrn f).pos = s.pos := rfl
@[simp] theorem State.updJrn_div : (s.updJrn f).div = s.div := rfl
@[simp] theorem State.updJrn_cmp : (s.updJrn f).cmp = s.cmp := rfl
@[simp] theorem State.updJrn_ing : (s.updJrn f).ing = s.ing := rfl
@[simp] theorem State.updJrn_regn : (s.updJrn f).regn = s.regn := rfl
@[simp] theorem State.updJrn_port : (s.updJrn f).port = s.port := rfl
@[simp] theorem State.updJrn_lane : (s.updJrn f).lane = s.lane := rfl
@[simp] theorem State.updJrn_cam : (s.updJrn f).cam = s.cam := rfl
@[simp] theorem State.updJrn_link : (s.updJrn f).link = s.link := rfl
@[simp] theorem State.updJrn_pipe : (s.updJrn f).pipe = s.pipe := rfl
@[simp] theorem State.updJrn_trk : (s.updJrn f).trk = s.trk := rfl
@[simp] theorem State.updJrn_tdc : (s.updJrn f).tdc = s.tdc := rfl
@[simp] theorem State.updJrn_memx : (s.updJrn f).memx = s.memx := rfl
@[simp] theorem State.updJrn_memc : (s.updJrn f).memc = s.memc := rfl
@[simp] theorem State.updJrn_memBad : (s.updJrn f).memBad = s.memBad := rfl
@[simp] theorem State.updJrn_sramErr : (s.updJrn f).sramErr = s.sramErr := rfl
@[simp] theorem State.updJrn_stack : (s.updJrn f).stack = s.stack := rfl
@[simp] theorem State.updJrn_scrub : (s.updJrn f).scrub = s.scrub := rfl
@[simp] theorem State.updJrn_flits : (s.updJrn f).flits = s.flits := rfl
@[simp] theorem State.updJrn_net : (s.updJrn f).net = s.net := rfl
@[simp] theorem State.updJrn_ptp : (s.updJrn f).ptp = s.ptp := rfl
@[simp] theorem State.updJrn_trig : (s.updJrn f).trig = s.trig := rfl
@[simp] theorem State.updJrn_tcap : (s.updJrn f).tcap = s.tcap := rfl
@[simp] theorem State.updJrn_pair : (s.updJrn f).pair = s.pair := rfl
@[simp] theorem State.updJrn_sag : (s.updJrn f).sag = s.sag := rfl
@[simp] theorem State.updJrn_hk : (s.updJrn f).hk = s.hk := rfl
@[simp] theorem State.updJrn_rail : (s.updJrn f).rail = s.rail := rfl
@[simp] theorem State.updJrn_cpu : (s.updJrn f).cpu = s.cpu := rfl
@[simp] theorem State.updJrn_cal : (s.updJrn f).cal = s.cal := rfl

end

section
variable (f : CpuX → CpuX)

@[simp] theorem State.updCpu_cpu : (s.updCpu f).cpu = f s.cpu := rfl
@[simp] theorem State.updCpu_now : (s.updCpu f).now = s.now := rfl
@[simp] theorem State.updCpu_pending : (s.updCpu f).pending = s.pending := rfl
@[simp] theorem State.updCpu_regs : (s.updCpu f).regs = s.regs := rfl
@[simp] theorem State.updCpu_aptw : (s.updCpu f).aptw = s.aptw := rfl
@[simp] theorem State.updCpu_sdram : (s.updCpu f).sdram = s.sdram := rfl
@[simp] theorem State.updCpu_room : (s.updCpu f).room = s.room := rfl
@[simp] theorem State.updCpu_freeIx : (s.updCpu f).freeIx = s.freeIx := rfl
@[simp] theorem State.updCpu_resp : (s.updCpu f).resp = s.resp := rfl
@[simp] theorem State.updCpu_countBase : (s.updCpu f).countBase = s.countBase := rfl
@[simp] theorem State.updCpu_stamps : (s.updCpu f).stamps = s.stamps := rfl
@[simp] theorem State.updCpu_pool : (s.updCpu f).pool = s.pool := rfl
@[simp] theorem State.updCpu_bnd : (s.updCpu f).bnd = s.bnd := rfl
@[simp] theorem State.updCpu_grp : (s.updCpu f).grp = s.grp := rfl
@[simp] theorem State.updCpu_ring : (s.updCpu f).ring = s.ring := rfl
@[simp] theorem State.updCpu_mode : (s.updCpu f).mode = s.mode := rfl
@[simp] theorem State.updCpu_pos : (s.updCpu f).pos = s.pos := rfl
@[simp] theorem State.updCpu_div : (s.updCpu f).div = s.div := rfl
@[simp] theorem State.updCpu_cmp : (s.updCpu f).cmp = s.cmp := rfl
@[simp] theorem State.updCpu_ing : (s.updCpu f).ing = s.ing := rfl
@[simp] theorem State.updCpu_regn : (s.updCpu f).regn = s.regn := rfl
@[simp] theorem State.updCpu_port : (s.updCpu f).port = s.port := rfl
@[simp] theorem State.updCpu_lane : (s.updCpu f).lane = s.lane := rfl
@[simp] theorem State.updCpu_cam : (s.updCpu f).cam = s.cam := rfl
@[simp] theorem State.updCpu_link : (s.updCpu f).link = s.link := rfl
@[simp] theorem State.updCpu_pipe : (s.updCpu f).pipe = s.pipe := rfl
@[simp] theorem State.updCpu_trk : (s.updCpu f).trk = s.trk := rfl
@[simp] theorem State.updCpu_tdc : (s.updCpu f).tdc = s.tdc := rfl
@[simp] theorem State.updCpu_memx : (s.updCpu f).memx = s.memx := rfl
@[simp] theorem State.updCpu_memc : (s.updCpu f).memc = s.memc := rfl
@[simp] theorem State.updCpu_memBad : (s.updCpu f).memBad = s.memBad := rfl
@[simp] theorem State.updCpu_sramErr : (s.updCpu f).sramErr = s.sramErr := rfl
@[simp] theorem State.updCpu_stack : (s.updCpu f).stack = s.stack := rfl
@[simp] theorem State.updCpu_scrub : (s.updCpu f).scrub = s.scrub := rfl
@[simp] theorem State.updCpu_flits : (s.updCpu f).flits = s.flits := rfl
@[simp] theorem State.updCpu_net : (s.updCpu f).net = s.net := rfl
@[simp] theorem State.updCpu_ptp : (s.updCpu f).ptp = s.ptp := rfl
@[simp] theorem State.updCpu_trig : (s.updCpu f).trig = s.trig := rfl
@[simp] theorem State.updCpu_tcap : (s.updCpu f).tcap = s.tcap := rfl
@[simp] theorem State.updCpu_pair : (s.updCpu f).pair = s.pair := rfl
@[simp] theorem State.updCpu_sag : (s.updCpu f).sag = s.sag := rfl
@[simp] theorem State.updCpu_hk : (s.updCpu f).hk = s.hk := rfl
@[simp] theorem State.updCpu_rail : (s.updCpu f).rail = s.rail := rfl
@[simp] theorem State.updCpu_jrn : (s.updCpu f).jrn = s.jrn := rfl
@[simp] theorem State.updCpu_cal : (s.updCpu f).cal = s.cal := rfl

end

section
variable (f : CalX → CalX)

@[simp] theorem State.updCal_cal : (s.updCal f).cal = f s.cal := rfl
@[simp] theorem State.updCal_now : (s.updCal f).now = s.now := rfl
@[simp] theorem State.updCal_pending : (s.updCal f).pending = s.pending := rfl
@[simp] theorem State.updCal_regs : (s.updCal f).regs = s.regs := rfl
@[simp] theorem State.updCal_aptw : (s.updCal f).aptw = s.aptw := rfl
@[simp] theorem State.updCal_sdram : (s.updCal f).sdram = s.sdram := rfl
@[simp] theorem State.updCal_room : (s.updCal f).room = s.room := rfl
@[simp] theorem State.updCal_freeIx : (s.updCal f).freeIx = s.freeIx := rfl
@[simp] theorem State.updCal_resp : (s.updCal f).resp = s.resp := rfl
@[simp] theorem State.updCal_countBase : (s.updCal f).countBase = s.countBase := rfl
@[simp] theorem State.updCal_stamps : (s.updCal f).stamps = s.stamps := rfl
@[simp] theorem State.updCal_pool : (s.updCal f).pool = s.pool := rfl
@[simp] theorem State.updCal_bnd : (s.updCal f).bnd = s.bnd := rfl
@[simp] theorem State.updCal_grp : (s.updCal f).grp = s.grp := rfl
@[simp] theorem State.updCal_ring : (s.updCal f).ring = s.ring := rfl
@[simp] theorem State.updCal_mode : (s.updCal f).mode = s.mode := rfl
@[simp] theorem State.updCal_pos : (s.updCal f).pos = s.pos := rfl
@[simp] theorem State.updCal_div : (s.updCal f).div = s.div := rfl
@[simp] theorem State.updCal_cmp : (s.updCal f).cmp = s.cmp := rfl
@[simp] theorem State.updCal_ing : (s.updCal f).ing = s.ing := rfl
@[simp] theorem State.updCal_regn : (s.updCal f).regn = s.regn := rfl
@[simp] theorem State.updCal_port : (s.updCal f).port = s.port := rfl
@[simp] theorem State.updCal_lane : (s.updCal f).lane = s.lane := rfl
@[simp] theorem State.updCal_cam : (s.updCal f).cam = s.cam := rfl
@[simp] theorem State.updCal_link : (s.updCal f).link = s.link := rfl
@[simp] theorem State.updCal_pipe : (s.updCal f).pipe = s.pipe := rfl
@[simp] theorem State.updCal_trk : (s.updCal f).trk = s.trk := rfl
@[simp] theorem State.updCal_tdc : (s.updCal f).tdc = s.tdc := rfl
@[simp] theorem State.updCal_memx : (s.updCal f).memx = s.memx := rfl
@[simp] theorem State.updCal_memc : (s.updCal f).memc = s.memc := rfl
@[simp] theorem State.updCal_memBad : (s.updCal f).memBad = s.memBad := rfl
@[simp] theorem State.updCal_sramErr : (s.updCal f).sramErr = s.sramErr := rfl
@[simp] theorem State.updCal_stack : (s.updCal f).stack = s.stack := rfl
@[simp] theorem State.updCal_scrub : (s.updCal f).scrub = s.scrub := rfl
@[simp] theorem State.updCal_flits : (s.updCal f).flits = s.flits := rfl
@[simp] theorem State.updCal_net : (s.updCal f).net = s.net := rfl
@[simp] theorem State.updCal_ptp : (s.updCal f).ptp = s.ptp := rfl
@[simp] theorem State.updCal_trig : (s.updCal f).trig = s.trig := rfl
@[simp] theorem State.updCal_tcap : (s.updCal f).tcap = s.tcap := rfl
@[simp] theorem State.updCal_pair : (s.updCal f).pair = s.pair := rfl
@[simp] theorem State.updCal_sag : (s.updCal f).sag = s.sag := rfl
@[simp] theorem State.updCal_hk : (s.updCal f).hk = s.hk := rfl
@[simp] theorem State.updCal_rail : (s.updCal f).rail = s.rail := rfl
@[simp] theorem State.updCal_jrn : (s.updCal f).jrn = s.jrn := rfl
@[simp] theorem State.updCal_cpu : (s.updCal f).cpu = s.cpu := rfl

end

section
variable (f : TrkX → TrkX)

@[simp] theorem State.updTrk_trk : (s.updTrk f).trk = f s.trk := rfl
@[simp] theorem State.updTrk_now : (s.updTrk f).now = s.now := rfl
@[simp] theorem State.updTrk_pending : (s.updTrk f).pending = s.pending := rfl
@[simp] theorem State.updTrk_regs : (s.updTrk f).regs = s.regs := rfl
@[simp] theorem State.updTrk_aptw : (s.updTrk f).aptw = s.aptw := rfl
@[simp] theorem State.updTrk_sdram : (s.updTrk f).sdram = s.sdram := rfl
@[simp] theorem State.updTrk_room : (s.updTrk f).room = s.room := rfl
@[simp] theorem State.updTrk_freeIx : (s.updTrk f).freeIx = s.freeIx := rfl
@[simp] theorem State.updTrk_resp : (s.updTrk f).resp = s.resp := rfl
@[simp] theorem State.updTrk_countBase : (s.updTrk f).countBase = s.countBase := rfl
@[simp] theorem State.updTrk_stamps : (s.updTrk f).stamps = s.stamps := rfl
@[simp] theorem State.updTrk_pool : (s.updTrk f).pool = s.pool := rfl
@[simp] theorem State.updTrk_bnd : (s.updTrk f).bnd = s.bnd := rfl
@[simp] theorem State.updTrk_grp : (s.updTrk f).grp = s.grp := rfl
@[simp] theorem State.updTrk_ring : (s.updTrk f).ring = s.ring := rfl
@[simp] theorem State.updTrk_mode : (s.updTrk f).mode = s.mode := rfl
@[simp] theorem State.updTrk_pos : (s.updTrk f).pos = s.pos := rfl
@[simp] theorem State.updTrk_div : (s.updTrk f).div = s.div := rfl
@[simp] theorem State.updTrk_cmp : (s.updTrk f).cmp = s.cmp := rfl
@[simp] theorem State.updTrk_ing : (s.updTrk f).ing = s.ing := rfl
@[simp] theorem State.updTrk_regn : (s.updTrk f).regn = s.regn := rfl
@[simp] theorem State.updTrk_port : (s.updTrk f).port = s.port := rfl
@[simp] theorem State.updTrk_lane : (s.updTrk f).lane = s.lane := rfl
@[simp] theorem State.updTrk_cam : (s.updTrk f).cam = s.cam := rfl
@[simp] theorem State.updTrk_link : (s.updTrk f).link = s.link := rfl
@[simp] theorem State.updTrk_pipe : (s.updTrk f).pipe = s.pipe := rfl
@[simp] theorem State.updTrk_tdc : (s.updTrk f).tdc = s.tdc := rfl
@[simp] theorem State.updTrk_memx : (s.updTrk f).memx = s.memx := rfl
@[simp] theorem State.updTrk_memc : (s.updTrk f).memc = s.memc := rfl
@[simp] theorem State.updTrk_memBad : (s.updTrk f).memBad = s.memBad := rfl
@[simp] theorem State.updTrk_sramErr : (s.updTrk f).sramErr = s.sramErr := rfl
@[simp] theorem State.updTrk_stack : (s.updTrk f).stack = s.stack := rfl
@[simp] theorem State.updTrk_scrub : (s.updTrk f).scrub = s.scrub := rfl
@[simp] theorem State.updTrk_flits : (s.updTrk f).flits = s.flits := rfl
@[simp] theorem State.updTrk_net : (s.updTrk f).net = s.net := rfl
@[simp] theorem State.updTrk_ptp : (s.updTrk f).ptp = s.ptp := rfl
@[simp] theorem State.updTrk_trig : (s.updTrk f).trig = s.trig := rfl
@[simp] theorem State.updTrk_tcap : (s.updTrk f).tcap = s.tcap := rfl
@[simp] theorem State.updTrk_pair : (s.updTrk f).pair = s.pair := rfl
@[simp] theorem State.updTrk_sag : (s.updTrk f).sag = s.sag := rfl
@[simp] theorem State.updTrk_hk : (s.updTrk f).hk = s.hk := rfl
@[simp] theorem State.updTrk_rail : (s.updTrk f).rail = s.rail := rfl
@[simp] theorem State.updTrk_jrn : (s.updTrk f).jrn = s.jrn := rfl
@[simp] theorem State.updTrk_cpu : (s.updTrk f).cpu = s.cpu := rfl
@[simp] theorem State.updTrk_cal : (s.updTrk f).cal = s.cal := rfl

end

section
variable (d : Nat) (f : TdcX → TdcX)

@[simp] theorem State.updTdc_tdc : (s.updTdc d f).tdc = tput s.tdc d (f (s.tdcOf d)) := rfl
@[simp] theorem State.updTdc_now : (s.updTdc d f).now = s.now := rfl
@[simp] theorem State.updTdc_pending : (s.updTdc d f).pending = s.pending := rfl
@[simp] theorem State.updTdc_regs : (s.updTdc d f).regs = s.regs := rfl
@[simp] theorem State.updTdc_aptw : (s.updTdc d f).aptw = s.aptw := rfl
@[simp] theorem State.updTdc_sdram : (s.updTdc d f).sdram = s.sdram := rfl
@[simp] theorem State.updTdc_room : (s.updTdc d f).room = s.room := rfl
@[simp] theorem State.updTdc_freeIx : (s.updTdc d f).freeIx = s.freeIx := rfl
@[simp] theorem State.updTdc_resp : (s.updTdc d f).resp = s.resp := rfl
@[simp] theorem State.updTdc_countBase : (s.updTdc d f).countBase = s.countBase := rfl
@[simp] theorem State.updTdc_stamps : (s.updTdc d f).stamps = s.stamps := rfl
@[simp] theorem State.updTdc_pool : (s.updTdc d f).pool = s.pool := rfl
@[simp] theorem State.updTdc_bnd : (s.updTdc d f).bnd = s.bnd := rfl
@[simp] theorem State.updTdc_grp : (s.updTdc d f).grp = s.grp := rfl
@[simp] theorem State.updTdc_ring : (s.updTdc d f).ring = s.ring := rfl
@[simp] theorem State.updTdc_mode : (s.updTdc d f).mode = s.mode := rfl
@[simp] theorem State.updTdc_pos : (s.updTdc d f).pos = s.pos := rfl
@[simp] theorem State.updTdc_div : (s.updTdc d f).div = s.div := rfl
@[simp] theorem State.updTdc_cmp : (s.updTdc d f).cmp = s.cmp := rfl
@[simp] theorem State.updTdc_ing : (s.updTdc d f).ing = s.ing := rfl
@[simp] theorem State.updTdc_regn : (s.updTdc d f).regn = s.regn := rfl
@[simp] theorem State.updTdc_port : (s.updTdc d f).port = s.port := rfl
@[simp] theorem State.updTdc_lane : (s.updTdc d f).lane = s.lane := rfl
@[simp] theorem State.updTdc_cam : (s.updTdc d f).cam = s.cam := rfl
@[simp] theorem State.updTdc_link : (s.updTdc d f).link = s.link := rfl
@[simp] theorem State.updTdc_pipe : (s.updTdc d f).pipe = s.pipe := rfl
@[simp] theorem State.updTdc_trk : (s.updTdc d f).trk = s.trk := rfl
@[simp] theorem State.updTdc_memx : (s.updTdc d f).memx = s.memx := rfl
@[simp] theorem State.updTdc_memc : (s.updTdc d f).memc = s.memc := rfl
@[simp] theorem State.updTdc_memBad : (s.updTdc d f).memBad = s.memBad := rfl
@[simp] theorem State.updTdc_sramErr : (s.updTdc d f).sramErr = s.sramErr := rfl
@[simp] theorem State.updTdc_stack : (s.updTdc d f).stack = s.stack := rfl
@[simp] theorem State.updTdc_scrub : (s.updTdc d f).scrub = s.scrub := rfl
@[simp] theorem State.updTdc_flits : (s.updTdc d f).flits = s.flits := rfl
@[simp] theorem State.updTdc_net : (s.updTdc d f).net = s.net := rfl
@[simp] theorem State.updTdc_ptp : (s.updTdc d f).ptp = s.ptp := rfl
@[simp] theorem State.updTdc_trig : (s.updTdc d f).trig = s.trig := rfl
@[simp] theorem State.updTdc_tcap : (s.updTdc d f).tcap = s.tcap := rfl
@[simp] theorem State.updTdc_pair : (s.updTdc d f).pair = s.pair := rfl
@[simp] theorem State.updTdc_sag : (s.updTdc d f).sag = s.sag := rfl
@[simp] theorem State.updTdc_hk : (s.updTdc d f).hk = s.hk := rfl
@[simp] theorem State.updTdc_rail : (s.updTdc d f).rail = s.rail := rfl
@[simp] theorem State.updTdc_jrn : (s.updTdc d f).jrn = s.jrn := rfl
@[simp] theorem State.updTdc_cpu : (s.updTdc d f).cpu = s.cpu := rfl
@[simp] theorem State.updTdc_cal : (s.updTdc d f).cal = s.cal := rfl

end

section
variable (l : Nat) (f : LinkX → LinkX)

@[simp] theorem State.updLink_link : (s.updLink l f).link = tput s.link l (f (s.linkX l)) := rfl
@[simp] theorem State.updLink_now : (s.updLink l f).now = s.now := rfl
@[simp] theorem State.updLink_pending : (s.updLink l f).pending = s.pending := rfl
@[simp] theorem State.updLink_regs : (s.updLink l f).regs = s.regs := rfl
@[simp] theorem State.updLink_aptw : (s.updLink l f).aptw = s.aptw := rfl
@[simp] theorem State.updLink_sdram : (s.updLink l f).sdram = s.sdram := rfl
@[simp] theorem State.updLink_room : (s.updLink l f).room = s.room := rfl
@[simp] theorem State.updLink_freeIx : (s.updLink l f).freeIx = s.freeIx := rfl
@[simp] theorem State.updLink_resp : (s.updLink l f).resp = s.resp := rfl
@[simp] theorem State.updLink_countBase : (s.updLink l f).countBase = s.countBase := rfl
@[simp] theorem State.updLink_stamps : (s.updLink l f).stamps = s.stamps := rfl
@[simp] theorem State.updLink_pool : (s.updLink l f).pool = s.pool := rfl
@[simp] theorem State.updLink_bnd : (s.updLink l f).bnd = s.bnd := rfl
@[simp] theorem State.updLink_grp : (s.updLink l f).grp = s.grp := rfl
@[simp] theorem State.updLink_ring : (s.updLink l f).ring = s.ring := rfl
@[simp] theorem State.updLink_mode : (s.updLink l f).mode = s.mode := rfl
@[simp] theorem State.updLink_pos : (s.updLink l f).pos = s.pos := rfl
@[simp] theorem State.updLink_div : (s.updLink l f).div = s.div := rfl
@[simp] theorem State.updLink_cmp : (s.updLink l f).cmp = s.cmp := rfl
@[simp] theorem State.updLink_ing : (s.updLink l f).ing = s.ing := rfl
@[simp] theorem State.updLink_regn : (s.updLink l f).regn = s.regn := rfl
@[simp] theorem State.updLink_port : (s.updLink l f).port = s.port := rfl
@[simp] theorem State.updLink_lane : (s.updLink l f).lane = s.lane := rfl
@[simp] theorem State.updLink_cam : (s.updLink l f).cam = s.cam := rfl
@[simp] theorem State.updLink_pipe : (s.updLink l f).pipe = s.pipe := rfl
@[simp] theorem State.updLink_trk : (s.updLink l f).trk = s.trk := rfl
@[simp] theorem State.updLink_tdc : (s.updLink l f).tdc = s.tdc := rfl
@[simp] theorem State.updLink_memx : (s.updLink l f).memx = s.memx := rfl
@[simp] theorem State.updLink_memc : (s.updLink l f).memc = s.memc := rfl
@[simp] theorem State.updLink_memBad : (s.updLink l f).memBad = s.memBad := rfl
@[simp] theorem State.updLink_sramErr : (s.updLink l f).sramErr = s.sramErr := rfl
@[simp] theorem State.updLink_stack : (s.updLink l f).stack = s.stack := rfl
@[simp] theorem State.updLink_scrub : (s.updLink l f).scrub = s.scrub := rfl
@[simp] theorem State.updLink_flits : (s.updLink l f).flits = s.flits := rfl
@[simp] theorem State.updLink_net : (s.updLink l f).net = s.net := rfl
@[simp] theorem State.updLink_ptp : (s.updLink l f).ptp = s.ptp := rfl
@[simp] theorem State.updLink_trig : (s.updLink l f).trig = s.trig := rfl
@[simp] theorem State.updLink_tcap : (s.updLink l f).tcap = s.tcap := rfl
@[simp] theorem State.updLink_pair : (s.updLink l f).pair = s.pair := rfl
@[simp] theorem State.updLink_sag : (s.updLink l f).sag = s.sag := rfl
@[simp] theorem State.updLink_hk : (s.updLink l f).hk = s.hk := rfl
@[simp] theorem State.updLink_rail : (s.updLink l f).rail = s.rail := rfl
@[simp] theorem State.updLink_jrn : (s.updLink l f).jrn = s.jrn := rfl
@[simp] theorem State.updLink_cpu : (s.updLink l f).cpu = s.cpu := rfl
@[simp] theorem State.updLink_cal : (s.updLink l f).cal = s.cal := rfl

end

section
variable (st : Nat) (f : CamSlot → CamSlot)

@[simp] theorem State.updSlot_cam : (s.updSlot st f).cam = tput s.cam st (f (s.slotX st)) := rfl
@[simp] theorem State.updSlot_now : (s.updSlot st f).now = s.now := rfl
@[simp] theorem State.updSlot_pending : (s.updSlot st f).pending = s.pending := rfl
@[simp] theorem State.updSlot_regs : (s.updSlot st f).regs = s.regs := rfl
@[simp] theorem State.updSlot_aptw : (s.updSlot st f).aptw = s.aptw := rfl
@[simp] theorem State.updSlot_sdram : (s.updSlot st f).sdram = s.sdram := rfl
@[simp] theorem State.updSlot_room : (s.updSlot st f).room = s.room := rfl
@[simp] theorem State.updSlot_freeIx : (s.updSlot st f).freeIx = s.freeIx := rfl
@[simp] theorem State.updSlot_resp : (s.updSlot st f).resp = s.resp := rfl
@[simp] theorem State.updSlot_countBase : (s.updSlot st f).countBase = s.countBase := rfl
@[simp] theorem State.updSlot_stamps : (s.updSlot st f).stamps = s.stamps := rfl
@[simp] theorem State.updSlot_pool : (s.updSlot st f).pool = s.pool := rfl
@[simp] theorem State.updSlot_bnd : (s.updSlot st f).bnd = s.bnd := rfl
@[simp] theorem State.updSlot_grp : (s.updSlot st f).grp = s.grp := rfl
@[simp] theorem State.updSlot_ring : (s.updSlot st f).ring = s.ring := rfl
@[simp] theorem State.updSlot_mode : (s.updSlot st f).mode = s.mode := rfl
@[simp] theorem State.updSlot_pos : (s.updSlot st f).pos = s.pos := rfl
@[simp] theorem State.updSlot_div : (s.updSlot st f).div = s.div := rfl
@[simp] theorem State.updSlot_cmp : (s.updSlot st f).cmp = s.cmp := rfl
@[simp] theorem State.updSlot_ing : (s.updSlot st f).ing = s.ing := rfl
@[simp] theorem State.updSlot_regn : (s.updSlot st f).regn = s.regn := rfl
@[simp] theorem State.updSlot_port : (s.updSlot st f).port = s.port := rfl
@[simp] theorem State.updSlot_lane : (s.updSlot st f).lane = s.lane := rfl
@[simp] theorem State.updSlot_link : (s.updSlot st f).link = s.link := rfl
@[simp] theorem State.updSlot_pipe : (s.updSlot st f).pipe = s.pipe := rfl
@[simp] theorem State.updSlot_trk : (s.updSlot st f).trk = s.trk := rfl
@[simp] theorem State.updSlot_tdc : (s.updSlot st f).tdc = s.tdc := rfl
@[simp] theorem State.updSlot_memx : (s.updSlot st f).memx = s.memx := rfl
@[simp] theorem State.updSlot_memc : (s.updSlot st f).memc = s.memc := rfl
@[simp] theorem State.updSlot_memBad : (s.updSlot st f).memBad = s.memBad := rfl
@[simp] theorem State.updSlot_sramErr : (s.updSlot st f).sramErr = s.sramErr := rfl
@[simp] theorem State.updSlot_stack : (s.updSlot st f).stack = s.stack := rfl
@[simp] theorem State.updSlot_scrub : (s.updSlot st f).scrub = s.scrub := rfl
@[simp] theorem State.updSlot_flits : (s.updSlot st f).flits = s.flits := rfl
@[simp] theorem State.updSlot_net : (s.updSlot st f).net = s.net := rfl
@[simp] theorem State.updSlot_ptp : (s.updSlot st f).ptp = s.ptp := rfl
@[simp] theorem State.updSlot_trig : (s.updSlot st f).trig = s.trig := rfl
@[simp] theorem State.updSlot_tcap : (s.updSlot st f).tcap = s.tcap := rfl
@[simp] theorem State.updSlot_pair : (s.updSlot st f).pair = s.pair := rfl
@[simp] theorem State.updSlot_sag : (s.updSlot st f).sag = s.sag := rfl
@[simp] theorem State.updSlot_hk : (s.updSlot st f).hk = s.hk := rfl
@[simp] theorem State.updSlot_rail : (s.updSlot st f).rail = s.rail := rfl
@[simp] theorem State.updSlot_jrn : (s.updSlot st f).jrn = s.jrn := rfl
@[simp] theorem State.updSlot_cpu : (s.updSlot st f).cpu = s.cpu := rfl
@[simp] theorem State.updSlot_cal : (s.updSlot st f).cal = s.cal := rfl

end

section
variable (f : PipeX → PipeX)

@[simp] theorem State.updPipe_pipe : (s.updPipe f).pipe = f s.pipe := rfl
@[simp] theorem State.updPipe_now : (s.updPipe f).now = s.now := rfl
@[simp] theorem State.updPipe_pending : (s.updPipe f).pending = s.pending := rfl
@[simp] theorem State.updPipe_regs : (s.updPipe f).regs = s.regs := rfl
@[simp] theorem State.updPipe_aptw : (s.updPipe f).aptw = s.aptw := rfl
@[simp] theorem State.updPipe_sdram : (s.updPipe f).sdram = s.sdram := rfl
@[simp] theorem State.updPipe_room : (s.updPipe f).room = s.room := rfl
@[simp] theorem State.updPipe_freeIx : (s.updPipe f).freeIx = s.freeIx := rfl
@[simp] theorem State.updPipe_resp : (s.updPipe f).resp = s.resp := rfl
@[simp] theorem State.updPipe_countBase : (s.updPipe f).countBase = s.countBase := rfl
@[simp] theorem State.updPipe_stamps : (s.updPipe f).stamps = s.stamps := rfl
@[simp] theorem State.updPipe_pool : (s.updPipe f).pool = s.pool := rfl
@[simp] theorem State.updPipe_bnd : (s.updPipe f).bnd = s.bnd := rfl
@[simp] theorem State.updPipe_grp : (s.updPipe f).grp = s.grp := rfl
@[simp] theorem State.updPipe_ring : (s.updPipe f).ring = s.ring := rfl
@[simp] theorem State.updPipe_mode : (s.updPipe f).mode = s.mode := rfl
@[simp] theorem State.updPipe_pos : (s.updPipe f).pos = s.pos := rfl
@[simp] theorem State.updPipe_div : (s.updPipe f).div = s.div := rfl
@[simp] theorem State.updPipe_cmp : (s.updPipe f).cmp = s.cmp := rfl
@[simp] theorem State.updPipe_ing : (s.updPipe f).ing = s.ing := rfl
@[simp] theorem State.updPipe_regn : (s.updPipe f).regn = s.regn := rfl
@[simp] theorem State.updPipe_port : (s.updPipe f).port = s.port := rfl
@[simp] theorem State.updPipe_lane : (s.updPipe f).lane = s.lane := rfl
@[simp] theorem State.updPipe_cam : (s.updPipe f).cam = s.cam := rfl
@[simp] theorem State.updPipe_link : (s.updPipe f).link = s.link := rfl
@[simp] theorem State.updPipe_trk : (s.updPipe f).trk = s.trk := rfl
@[simp] theorem State.updPipe_tdc : (s.updPipe f).tdc = s.tdc := rfl
@[simp] theorem State.updPipe_memx : (s.updPipe f).memx = s.memx := rfl
@[simp] theorem State.updPipe_memc : (s.updPipe f).memc = s.memc := rfl
@[simp] theorem State.updPipe_memBad : (s.updPipe f).memBad = s.memBad := rfl
@[simp] theorem State.updPipe_sramErr : (s.updPipe f).sramErr = s.sramErr := rfl
@[simp] theorem State.updPipe_stack : (s.updPipe f).stack = s.stack := rfl
@[simp] theorem State.updPipe_scrub : (s.updPipe f).scrub = s.scrub := rfl
@[simp] theorem State.updPipe_flits : (s.updPipe f).flits = s.flits := rfl
@[simp] theorem State.updPipe_net : (s.updPipe f).net = s.net := rfl
@[simp] theorem State.updPipe_ptp : (s.updPipe f).ptp = s.ptp := rfl
@[simp] theorem State.updPipe_trig : (s.updPipe f).trig = s.trig := rfl
@[simp] theorem State.updPipe_tcap : (s.updPipe f).tcap = s.tcap := rfl
@[simp] theorem State.updPipe_pair : (s.updPipe f).pair = s.pair := rfl
@[simp] theorem State.updPipe_sag : (s.updPipe f).sag = s.sag := rfl
@[simp] theorem State.updPipe_hk : (s.updPipe f).hk = s.hk := rfl
@[simp] theorem State.updPipe_rail : (s.updPipe f).rail = s.rail := rfl
@[simp] theorem State.updPipe_jrn : (s.updPipe f).jrn = s.jrn := rfl
@[simp] theorem State.updPipe_cpu : (s.updPipe f).cpu = s.cpu := rfl
@[simp] theorem State.updPipe_cal : (s.updPipe f).cal = s.cal := rfl

end

end Sys2Proof.Machine
end

