-- ==== Sys2Proof/Laws/Regs.lean ====
section
/-! SUPPORT. Laws of register fields and of events: what a read gives after a write, and what raising an event leaves
alone. -/

-- One declaration after another: the package is also checked as one text, where too many threads would start at once.
set_option Elab.async false

namespace Sys2Proof.Machine

/-! ### Register fields -/

theorem Fld.key_ne_of_page {f g : Fld} {p q i j : Nat} (hf : f.off + i * f.stride < 4096) (hfl : f.lo < 32)
    (hg : g.off + j * g.stride < 4096) (hgl : g.lo < 32) (h : p ≠ q) : f.key p i ≠ g.key q j := by
  unfold Fld.key; omega

/-- The field read back: what was stored, cut to its width. -/
@[simp] theorem State.getI_setI_self (s : State) (f : Fld) (pg i v : Nat) :
    (s.setI f pg i v).getI f pg i = low f.w v := by simp [State.getI, State.setI]

theorem State.getI_setI_ne (s : State) {f g : Fld} {p q i j : Nat} (v : Nat) (h : g.key q j ≠ f.key p i) :
    (s.setI f p i v).getI g q j = s.getI g q j := by
  simp only [State.getI, State.setI]; exact tget_tputD_ne _ _ _ _ h

@[simp] theorem State.get_set_self (s : State) (f : Fld) (pg v : Nat) : (s.set f pg v).get f pg = low f.w v :=
  s.getI_setI_self f pg 0 v

theorem State.get_set_ne (s : State) {f g : Fld} {p q : Nat} (v : Nat) (h : g.key q 0 ≠ f.key p 0) :
    (s.set f p v).get g q = s.get g q := s.getI_setI_ne v h

/-- A field of another page is unchanged by a store to one page. -/
theorem State.getI_setI_page (s : State) {f g : Fld} {p q i j : Nat} (v : Nat) (hf : f.off + i * f.stride < 4096)
    (hfl : f.lo < 32) (hg : g.off + j * g.stride < 4096) (hgl : g.lo < 32) (h : q ≠ p) :
    (s.setI f p i v).getI g q j = s.getI g q j :=
  s.getI_setI_ne v (Fld.key_ne_of_page hg hgl hf hfl h)

theorem State.getI_shadow_ne (s : State) {f g : Fld} {p q i j : Nat} (v : Nat) (h : g.key q j ≠ f.shadowKey p i) :
    (s.setShadow f p i v).getI g q j = s.getI g q j := by
  simp only [State.getI, State.setShadow]; exact tget_tputD_ne _ _ _ _ h

/-! ### Records and events -/

/-- A record that goes to the ring changes registers and SDRAM only. -/
theorem State.ledgerAppend_eq (s : State) (r : LedgerRec) :
    ∃ m g, s.ledgerAppend r = { s with sdram := m, regs := g } := by
  unfold State.ledgerAppend
  split <;> exact ⟨_, _, rfl⟩

theorem drainPool_eq (l : List LedgerRec) (s : State) :
    ∃ m g q, drainPool l s = { s with sdram := m, regs := g, pool := q } := by
  induction l generalizing s with
  | nil => exact ⟨_, _, _, rfl⟩
  | cons r rs ih =>
    unfold drainPool
    split
    · obtain ⟨m, g, h⟩ := s.ledgerAppend_eq r
      obtain ⟨m', g', q', h'⟩ := ih (s.ledgerAppend r)
      rw [h', h]; exact ⟨_, _, _, rfl⟩
    · exact ⟨_, _, _, rfl⟩

theorem State.ledgerPut_eq (s : State) (r : LedgerRec) (e : Bool) :
    ∃ m g q, s.ledgerPut r e = { s with sdram := m, regs := g, pool := q } := by
  have key : ∀ t : State, ∃ m g q, (if t.ledgerAccepts then t.ledgerAppend r
      else if e then
        if t.pool.length < 64 then
          ({ t with pool := t.pool ++ [{ r with flags := r.flags + 4 }] }).set F.Led.POOL_LEVEL pgLedger (t.pool.length + 1)
        else t.sat F.Led.POOL_LOST pgLedger
      else t.sat F.Led.LEDGER_LOST pgLedger) = { t with sdram := m, regs := g, pool := q } := by
    intro t
    split
    · obtain ⟨m, g, h⟩ := t.ledgerAppend_eq r
      rw [h]; exact ⟨_, _, _, rfl⟩
    · split
      · split <;> exact ⟨_, _, _, rfl⟩
      · exact ⟨_, _, _, rfl⟩
  unfold State.ledgerPut
  dsimp only
  by_cases hp : s.pool.isEmpty = true
  · rw [if_pos hp]; exact key s
  · rw [if_neg hp]
    obtain ⟨m, g, q, h⟩ := drainPool_eq s.pool s
    obtain ⟨m', g', q', h'⟩ := key (drainPool s.pool s)
    rw [h', h]; exact ⟨_, _, _, rfl⟩

/-- Raising an event changes registers, the Ledger ring in SDRAM, the pool and the rate windows only (R89). -/
theorem State.raiseX_eq (s : State) (e : Ev) (pg arg sub sev : Nat) (fo : Bool) :
    ∃ m g q w, s.raiseX e pg arg sub sev fo = { s with sdram := m, regs := g, pool := q, stamps := w } := by
  unfold State.raiseX
  dsimp only
  split
  · exact ⟨_, _, _, _, rfl⟩
  · obtain ⟨m, g, q, h⟩ := State.ledgerPut_eq
      ((s.set F.Hdr.EVENT_STATUS pg (setBit (s.get F.Hdr.EVENT_STATUS pg) e.bit)).set F.Led.LEDGER_SEQ pgLedger
        ((s.set F.Hdr.EVENT_STATUS pg (setBit (s.get F.Hdr.EVENT_STATUS pg) e.bit)).get F.Led.LEDGER_SEQ pgLedger + 1))
      ⟨(s.set F.Hdr.EVENT_STATUS pg (setBit (s.get F.Hdr.EVENT_STATUS pg) e.bit)).count,
        (s.set F.Hdr.EVENT_STATUS pg (setBit (s.get F.Hdr.EVENT_STATUS pg) e.bit)).get F.Ptp.EPOCH_SEQ pgPtp % 65536, e.code, pg,
        sev + bit fo * 8, arg % 2 ^ 64,
        (s.set F.Hdr.EVENT_STATUS pg (setBit (s.get F.Hdr.EVENT_STATUS pg) e.bit)).get F.Led.LEDGER_SEQ pgLedger,
        (s.set F.Hdr.EVENT_STATUS pg (setBit (s.get F.Hdr.EVENT_STATUS pg) e.bit)).get F.Colo.SYS_ADDR 1⟩ (poolEligible e.code sev)
    rw [h]; exact ⟨_, _, _, _, rfl⟩

section
variable (s : State) (e : Ev) (pg arg : Nat)

@[simp] theorem State.raise_now : (s.raise e pg arg).now = s.now := by
  obtain ⟨_, _, _, _, h⟩ := s.raiseX_eq e pg arg 0 e.sev false
  rw [State.raise, h]
@[simp] theorem State.raise_pending : (s.raise e pg arg).pending = s.pending := by
  obtain ⟨_, _, _, _, h⟩ := s.raiseX_eq e pg arg 0 e.sev false
  rw [State.raise, h]
@[simp] theorem State.raise_aptw : (s.raise e pg arg).aptw = s.aptw := by
  obtain ⟨_, _, _, _, h⟩ := s.raiseX_eq e pg arg 0 e.sev false
  rw [State.raise, h]
@[simp] theorem State.raise_room : (s.raise e pg arg).room = s.room := by
  obtain ⟨_, _, _, _, h⟩ := s.raiseX_eq e pg arg 0 e.sev false
  rw [State.raise, h]
@[simp] theorem State.raise_freeIx : (s.raise e pg arg).freeIx = s.freeIx := by
  obtain ⟨_, _, _, _, h⟩ := s.raiseX_eq e pg arg 0 e.sev false
  rw [State.raise, h]
@[simp] theorem State.raise_resp : (s.raise e pg arg).resp = s.resp := by
  obtain ⟨_, _, _, _, h⟩ := s.raiseX_eq e pg arg 0 e.sev false
  rw [State.raise, h]
@[simp] theorem State.raise_countBase : (s.raise e pg arg).countBase = s.countBase := by
  obtain ⟨_, _, _, _, h⟩ := s.raiseX_eq e pg arg 0 e.sev false
  rw [State.raise, h]
@[simp] theorem State.raise_bnd : (s.raise e pg arg).bnd = s.bnd := by
  obtain ⟨_, _, _, _, h⟩ := s.raiseX_eq e pg arg 0 e.sev false
  rw [State.raise, h]
@[simp] theorem State.raise_grp : (s.raise e pg arg).grp = s.grp := by
  obtain ⟨_, _, _, _, h⟩ := s.raiseX_eq e pg arg 0 e.sev false
  rw [State.raise, h]
@[simp] theorem State.raise_ring : (s.raise e pg arg).ring = s.ring := by
  obtain ⟨_, _, _, _, h⟩ := s.raiseX_eq e pg arg 0 e.sev false
  rw [State.raise, h]
@[simp] theorem State.raise_mode : (s.raise e pg arg).mode = s.mode := by
  obtain ⟨_, _, _, _, h⟩ := s.raiseX_eq e pg arg 0 e.sev false
  rw [State.raise, h]
@[simp] theorem State.raise_pos : (s.raise e pg arg).pos = s.pos := by
  obtain ⟨_, _, _, _, h⟩ := s.raiseX_eq e pg arg 0 e.sev false
  rw [State.raise, h]
@[simp] theorem State.raise_div : (s.raise e pg arg).div = s.div := by
  obtain ⟨_, _, _, _, h⟩ := s.raiseX_eq e pg arg 0 e.sev false
  rw [State.raise, h]
@[simp] theorem State.raise_cmp : (s.raise e pg arg).cmp = s.cmp := by
  obtain ⟨_, _, _, _, h⟩ := s.raiseX_eq e pg arg 0 e.sev false
  rw [State.raise, h]
@[simp] theorem State.raise_ing : (s.raise e pg arg).ing = s.ing := by
  obtain ⟨_, _, _, _, h⟩ := s.raiseX_eq e pg arg 0 e.sev false
  rw [State.raise, h]
@[simp] theorem State.raise_regn : (s.raise e pg arg).regn = s.regn := by
  obtain ⟨_, _, _, _, h⟩ := s.raiseX_eq e pg arg 0 e.sev false
  rw [State.raise, h]
@[simp] theorem State.raise_port : (s.raise e pg arg).port = s.port := by
  obtain ⟨_, _, _, _, h⟩ := s.raiseX_eq e pg arg 0 e.sev false
  rw [State.raise, h]
@[simp] theorem State.raise_lane : (s.raise e pg arg).lane = s.lane := by
  obtain ⟨_, _, _, _, h⟩ := s.raiseX_eq e pg arg 0 e.sev false
  rw [State.raise, h]
@[simp] theorem State.raise_cam : (s.raise e pg arg).cam = s.cam := by
  obtain ⟨_, _, _, _, h⟩ := s.raiseX_eq e pg arg 0 e.sev false
  rw [State.raise, h]
@[simp] theorem State.raise_link : (s.raise e pg arg).link = s.link := by
  obtain ⟨_, _, _, _, h⟩ := s.raiseX_eq e pg arg 0 e.sev false
  rw [State.raise, h]
@[simp] theorem State.raise_pipe : (s.raise e pg arg).pipe = s.pipe := by
  obtain ⟨_, _, _, _, h⟩ := s.raiseX_eq e pg arg 0 e.sev false
  rw [State.raise, h]
@[simp] theorem State.raise_trk : (s.raise e pg arg).trk = s.trk := by
  obtain ⟨_, _, _, _, h⟩ := s.raiseX_eq e pg arg 0 e.sev false
  rw [State.raise, h]
@[simp] theorem State.raise_tdc : (s.raise e pg arg).tdc = s.tdc := by
  obtain ⟨_, _, _, _, h⟩ := s.raiseX_eq e pg arg 0 e.sev false
  rw [State.raise, h]
@[simp] theorem State.raise_memx : (s.raise e pg arg).memx = s.memx := by
  obtain ⟨_, _, _, _, h⟩ := s.raiseX_eq e pg arg 0 e.sev false
  rw [State.raise, h]
@[simp] theorem State.raise_memc : (s.raise e pg arg).memc = s.memc := by
  obtain ⟨_, _, _, _, h⟩ := s.raiseX_eq e pg arg 0 e.sev false
  rw [State.raise, h]
@[simp] theorem State.raise_memBad : (s.raise e pg arg).memBad = s.memBad := by
  obtain ⟨_, _, _, _, h⟩ := s.raiseX_eq e pg arg 0 e.sev false
  rw [State.raise, h]
@[simp] theorem State.raise_sramErr : (s.raise e pg arg).sramErr = s.sramErr := by
  obtain ⟨_, _, _, _, h⟩ := s.raiseX_eq e pg arg 0 e.sev false
  rw [State.raise, h]
@[simp] theorem State.raise_stack : (s.raise e pg arg).stack = s.stack := by
  obtain ⟨_, _, _, _, h⟩ := s.raiseX_eq e pg arg 0 e.sev false
  rw [State.raise, h]
@[simp] theorem State.raise_scrub : (s.raise e pg arg).scrub = s.scrub := by
  obtain ⟨_, _, _, _, h⟩ := s.raiseX_eq e pg arg 0 e.sev false
  rw [State.raise, h]
@[simp] theorem State.raise_flits : (s.raise e pg arg).flits = s.flits := by
  obtain ⟨_, _, _, _, h⟩ := s.raiseX_eq e pg arg 0 e.sev false
  rw [State.raise, h]
@[simp] theorem State.raise_net : (s.raise e pg arg).net = s.net := by
  obtain ⟨_, _, _, _, h⟩ := s.raiseX_eq e pg arg 0 e.sev false
  rw [State.raise, h]
@[simp] theorem State.raise_ptp : (s.raise e pg arg).ptp = s.ptp := by
  obtain ⟨_, _, _, _, h⟩ := s.raiseX_eq e pg arg 0 e.sev false
  rw [State.raise, h]
@[simp] theorem State.raise_trig : (s.raise e pg arg).trig = s.trig := by
  obtain ⟨_, _, _, _, h⟩ := s.raiseX_eq e pg arg 0 e.sev false
  rw [State.raise, h]
@[simp] theorem State.raise_tcap : (s.raise e pg arg).tcap = s.tcap := by
  obtain ⟨_, _, _, _, h⟩ := s.raiseX_eq e pg arg 0 e.sev false
  rw [State.raise, h]
@[simp] theorem State.raise_pair : (s.raise e pg arg).pair = s.pair := by
  obtain ⟨_, _, _, _, h⟩ := s.raiseX_eq e pg arg 0 e.sev false
  rw [State.raise, h]
@[simp] theorem State.raise_sag : (s.raise e pg arg).sag = s.sag := by
  obtain ⟨_, _, _, _, h⟩ := s.raiseX_eq e pg arg 0 e.sev false
  rw [State.raise, h]
@[simp] theorem State.raise_hk : (s.raise e pg arg).hk = s.hk := by
  obtain ⟨_, _, _, _, h⟩ := s.raiseX_eq e pg arg 0 e.sev false
  rw [State.raise, h]
@[simp] theorem State.raise_rail : (s.raise e pg arg).rail = s.rail := by
  obtain ⟨_, _, _, _, h⟩ := s.raiseX_eq e pg arg 0 e.sev false
  rw [State.raise, h]
@[simp] theorem State.raise_jrn : (s.raise e pg arg).jrn = s.jrn := by
  obtain ⟨_, _, _, _, h⟩ := s.raiseX_eq e pg arg 0 e.sev false
  rw [State.raise, h]
@[simp] theorem State.raise_cpu : (s.raise e pg arg).cpu = s.cpu := by
  obtain ⟨_, _, _, _, h⟩ := s.raiseX_eq e pg arg 0 e.sev false
  rw [State.raise, h]
@[simp] theorem State.raise_cal : (s.raise e pg arg).cal = s.cal := by
  obtain ⟨_, _, _, _, h⟩ := s.raiseX_eq e pg arg 0 e.sev false
  rw [State.raise, h]

end

/-! ### Registers under events -/

/-- Writing a record leaves every register alone that is not on the Ledger's page. -/
theorem State.ledgerAppend_getI (s : State) (r : LedgerRec) {f : Fld} {p i : Nat} (hf : f.off + i * f.stride < 4096)
    (hl : f.lo < 32) (hp : p ≠ pgLedger) : (s.ledgerAppend r).getI f p i = s.getI f p i := by
  unfold State.ledgerAppend
  dsimp only [State.set]
  split
  · rw [State.getI_setI_page _ _ (by decide) (by decide) hf hl hp,
      State.getI_setI_page _ _ (by decide) (by decide) hf hl hp]; rfl
  · rw [State.getI_setI_page _ _ (by decide) (by decide) hf hl hp]; rfl

theorem drainPool_getI (l : List LedgerRec) (s : State) {f : Fld} {p i : Nat} (hf : f.off + i * f.stride < 4096)
    (hl : f.lo < 32) (hp : p ≠ pgLedger) : (drainPool l s).getI f p i = s.getI f p i := by
  induction l generalizing s with
  | nil => exact State.getI_setI_page _ _ (by decide) (by decide) hf hl hp
  | cons r rs ih =>
    unfold drainPool
    split
    · rw [ih, s.ledgerAppend_getI r hf hl hp]
    · exact State.getI_setI_page _ _ (by decide) (by decide) hf hl hp

theorem State.ledgerPut_getI (s : State) (r : LedgerRec) (e : Bool) {f : Fld} {p i : Nat}
    (hf : f.off + i * f.stride < 4096) (hl : f.lo < 32) (hp : p ≠ pgLedger) :
    (s.ledgerPut r e).getI f p i = s.getI f p i := by
  have h1 : (if s.pool.isEmpty then s else drainPool s.pool s).getI f p i = s.getI f p i := by
    split
    · rfl
    · exact drainPool_getI _ _ hf hl hp
  unfold State.ledgerPut
  dsimp only
  rw [← h1]
  generalize (if s.pool.isEmpty then s else drainPool s.pool s) = t
  split
  · exact t.ledgerAppend_getI r hf hl hp
  · split
    · split
      · exact State.getI_setI_page _ _ (by decide) (by decide) hf hl hp
      · exact State.getI_setI_page _ _ (by decide) (by decide) hf hl hp
    · exact State.getI_setI_page _ _ (by decide) (by decide) hf hl hp

/-- Raising an event leaves every register alone but EVENT_STATUS of its page and the Ledger's page (R89). -/
theorem State.raiseX_getI (s : State) (e : Ev) (pg arg sub sev : Nat) (fo : Bool) {f : Fld} {p i : Nat}
    (hf : f.off + i * f.stride < 4096) (hl : f.lo < 32) (hp : p ≠ pgLedger)
    (hk : f.key p i ≠ F.Hdr.EVENT_STATUS.key pg 0) : (s.raiseX e pg arg sub sev fo).getI f p i = s.getI f p i := by
  unfold State.raiseX
  dsimp only [State.set]
  split
  · exact State.getI_setI_ne _ _ hk
  · rw [show ∀ (t : State) w, State.getI { t with stamps := w } f p i = t.getI f p i from fun _ _ => rfl,
      State.ledgerPut_getI _ _ _ hf hl hp, State.getI_setI_page _ _ (by decide) (by decide) hf hl hp,
      State.getI_setI_ne _ _ hk]

theorem State.raise_getI (s : State) (e : Ev) (pg arg : Nat) {f : Fld} {p i : Nat}
    (hf : f.off + i * f.stride < 4096) (hl : f.lo < 32) (hp : p ≠ pgLedger)
    (hk : f.key p i ≠ F.Hdr.EVENT_STATUS.key pg 0) : (s.raise e pg arg).getI f p i = s.getI f p i :=
  s.raiseX_getI e pg arg 0 e.sev false hf hl hp hk

/-- Raising an event sets its EVENT_STATUS bit (R89). -/
theorem State.raise_status (s : State) (e : Ev) (pg arg : Nat) (hp : pg ≠ pgLedger) :
    (s.raise e pg arg).get F.Hdr.EVENT_STATUS pg = low 32 (setBit (s.get F.Hdr.EVENT_STATUS pg) e.bit) := by
  unfold State.raise State.raiseX
  dsimp only [State.set, State.get]
  split
  · exact State.getI_setI_self _ _ _ _ _
  · rw [show ∀ (t : State) w, State.getI { t with stamps := w } F.Hdr.EVENT_STATUS pg 0 = t.getI F.Hdr.EVENT_STATUS pg 0 from
        fun _ _ => rfl,
      State.ledgerPut_getI _ _ _ (by decide) (by decide) hp, State.getI_setI_page _ _ (by decide) (by decide) (by decide) (by decide) hp,
      State.getI_setI_self]
    rfl

/-- A step that leaves something alone leaves it alone when it is applied over a list. -/
theorem forAll_keeps {α β : Type} (l : List α) (s : State) (f : α → State → State) (g : State → β)
    (h : ∀ a s, g (f a s) = g s) : g (forAll l s f) = g s := by
  unfold forAll
  induction l generalizing s with
  | nil => rfl
  | cons a l ih => rw [List.foldl_cons, ih, h]

/-- What each application keeps, the whole keeps. -/
theorem forAll_inv {α : Type} (l : List α) (s : State) (f : α → State → State) (P : State → Prop) (h0 : P s)
    (h : ∀ a s, P s → P (f a s)) : P (forAll l s f) := by
  unfold forAll
  induction l generalizing s with
  | nil => exact h0
  | cons a l ih => exact ih _ (h a s h0)

end Sys2Proof.Machine
end

