-- ==== Sys2Proof/Laws/Frames.lean ====
section
/-! SUPPORT. What storing a field, raising an event and passing the gate leave alone. -/

-- One declaration after another: the package is also checked as one text, where too many threads would start at once.
set_option Elab.async false

namespace Sys2Proof.Machine

/-- Fields of one page at different places. -/
theorem Fld.key_ne {f g : Fld} {p i j : Nat}
    (h : (f.off + i * f.stride) * 32 + f.lo ≠ (g.off + j * g.stride) * 32 + g.lo) : f.key p i ≠ g.key p j := by
  unfold Fld.key; omega

/-- Fields whose lowest bits lie at different places of their words. -/
theorem Fld.key_ne_lo {f g : Fld} {p q i j : Nat} (h : f.lo ≠ g.lo) (hf : f.lo < 32) (hg : g.lo < 32) :
    f.key p i ≠ g.key q j := by unfold Fld.key; omega

/-- A write that passes has the effect of its register. -/
theorem gate_passes {s : State} {pg owner : Nat} (h : s.passes pg owner = true) (apt : Bool) (off data : Nat)
    (k : State → State) : gate pg apt off data owner k s = k s := by
  simp only [State.passes, Bool.and_eq_true, Bool.not_eq_true', Option.isNone_iff_eq_none] at h
  obtain ⟨⟨⟨h1, h2⟩, h3⟩, h4⟩ := h
  simp [gate, h1, h2, h4, State.lockedOut, h3]

theorem gateReg_passes {s : State} {pg owner : Nat} (h : s.passes pg owner = true) (off data : Nat) (k : State → State) :
    gateReg pg off data owner k s = k s := gate_passes h false off data k

theorem State.OnlyRegs.refl (s : State) (ks : List Nat) : s.OnlyRegs s ks := ⟨rfl, fun _ _ => rfl⟩

theorem State.OnlyRegs.trans {s t u : State} {ks ls : List Nat} (h : s.OnlyRegs t ks) (g : t.OnlyRegs u ls) :
    s.OnlyRegs u (ks ++ ls) := by
  obtain ⟨h1, h2⟩ := h
  obtain ⟨g1, g2⟩ := g
  refine ⟨by rw [g1, h1], fun k hk => ?_⟩
  simp only [List.mem_append, not_or] at hk
  rw [g2 k hk.2, h2 k hk.1]

theorem State.OnlyRegs.mono {s t : State} {ks ls : List Nat} (h : s.OnlyRegs t ks) (hs : ∀ k ∈ ks, k ∈ ls) :
    s.OnlyRegs t ls := ⟨h.1, fun k hk => h.2 k fun hm => hk (hs k hm)⟩

theorem tfind_tputD_ne {α : Type} [DecidableEq α] (m : Tbl α) {k k' : Nat} (v d : α) (h : k' ≠ k) :
    tfind (tputD m k v d) k' = tfind m k' := by
  by_cases hv : v = d <;> simp [tputD, hv, tfind_tdel_ne _ h, tfind_tput_ne _ _ h]

theorem State.onlyRegs_setI (s : State) (f : Fld) (pg i v : Nat) : s.OnlyRegs (s.setI f pg i v) [f.key pg i] :=
  ⟨rfl, fun k hk => tfind_tputD_ne _ _ _ (by simpa using hk)⟩

theorem State.onlyRegs_setShadow (s : State) (f : Fld) (pg i v : Nat) :
    s.OnlyRegs (s.setShadow f pg i v) [f.shadowKey pg i] :=
  ⟨rfl, fun k hk => tfind_tputD_ne _ _ _ (by simpa using hk)⟩

/-- A store of one more field. -/
theorem State.OnlyRegs.setI {s t : State} {ks : List Nat} (h : s.OnlyRegs t ks) (f : Fld) (pg i v : Nat) :
    s.OnlyRegs (t.setI f pg i v) (ks ++ [f.key pg i]) := h.trans (t.onlyRegs_setI f pg i v)

/-- Fields outside the changed keys read as before. -/
theorem State.OnlyRegs.getI {s t : State} {ks : List Nat} (h : s.OnlyRegs t ks) {f : Fld} {pg i : Nat}
    (hk : f.key pg i ∉ ks) : t.getI f pg i = s.getI f pg i := by simp [State.getI, tget, h.2 _ hk]

/-! ### Events -/

/-- A field of the Ledger's page. -/
theorem Fld.key_page {f : Fld} {p i : Nat} (hf : f.off + i * f.stride < 4096) (hl : f.lo < 32) :
    f.key p i / 131072 = p := by unfold Fld.key; omega

/-- What records of events write. -/
def State.LedgerOnly (s t : State) : Prop :=
  t = { s with regs := t.regs, sdram := t.sdram, pool := t.pool, stamps := t.stamps } ∧
  (∀ k, k / 131072 ≠ pgLedger → tfind t.regs k = tfind s.regs k) ∧
  (∀ a, s.outsideLedger a → memByte t.sdram a = memByte s.sdram a) ∧
  t.get F.Led.LEDGER_BASE pgLedger = s.get F.Led.LEDGER_BASE pgLedger ∧ t.ledgerLen = s.ledgerLen ∧
  (t.get F.Led.LEDGER_WR pgLedger = s.get F.Led.LEDGER_WR pgLedger ∨ t.get F.Led.LEDGER_WR pgLedger + 1 ≤ t.ledgerLen)

theorem State.LedgerOnly.refl (s : State) : s.LedgerOnly s :=
  ⟨rfl, fun _ _ => rfl, fun _ _ => rfl, rfl, rfl, .inl rfl⟩

theorem State.LedgerOnly.trans {s t u : State} (h : s.LedgerOnly t) (g : t.LedgerOnly u) : s.LedgerOnly u := by
  obtain ⟨h1, h2, h3, h4, h5, h6⟩ := h
  obtain ⟨g1, g2, g3, g4, g5, g6⟩ := g
  refine ⟨by rw [g1, h1], fun k hk => (g2 k hk).trans (h2 k hk), fun a ha => ?_, g4.trans h4, g5.trans h5, ?_⟩
  · rw [g3 a, h3 a ha]
    unfold State.outsideLedger at ha ⊢
    rw [h4, h5]
    rcases h6 with h6 | h6
    · rw [h6]; exact ha
    · rw [h5] at h6
      rcases ha with ha | ha
      · exact .inl ha
      · right
        have : max s.ledgerLen (t.get F.Led.LEDGER_WR pgLedger + 1) ≤ max s.ledgerLen (s.get F.Led.LEDGER_WR pgLedger + 1) := by
          omega
        omega
  · rcases g6 with g6 | g6
    · rw [g6, g5]; rcases h6 with h6 | h6
      · exact .inl h6
      · exact .inr h6
    · exact .inr g6

/-- A register of the Ledger's page that is none of the ring's own. -/
theorem State.LedgerOnly.setLed (s : State) (f : Fld) (v : Nat) (hf : f.off + 0 * f.stride < 4096) (hl : f.lo < 32)
    (hb : F.Led.LEDGER_BASE.key pgLedger 0 ≠ f.key pgLedger 0) (hz : F.Led.LEDGER_SIZE.key pgLedger 0 ≠ f.key pgLedger 0)
    (hw : F.Led.LEDGER_WR.key pgLedger 0 ≠ f.key pgLedger 0) : s.LedgerOnly (s.set f pgLedger v) := by
  refine ⟨rfl, fun k hk => tfind_tputD_ne _ _ _ ?_, fun _ _ => rfl, State.getI_setI_ne _ _ hb, ?_, .inl (State.getI_setI_ne _ _ hw)⟩
  · rintro rfl; exact hk (Fld.key_page hf hl)
  · unfold State.ledgerLen; rw [State.get_set_ne _ _ hz]

theorem low_le (w v : Nat) : low w v ≤ v := Nat.mod_le _ _

/-- LEDGER_WR takes the next slot of a ring that has slots. -/
theorem State.LedgerOnly.setWr (s : State) (v : Nat) (h : v + 1 ≤ s.ledgerLen) :
    s.LedgerOnly (s.set F.Led.LEDGER_WR pgLedger v) := by
  have e : (s.set F.Led.LEDGER_WR pgLedger v).ledgerLen = s.ledgerLen := by
    unfold State.ledgerLen; rw [State.get_set_ne _ _ (by decide)]
  refine ⟨rfl, fun k hk => tfind_tputD_ne _ _ _ ?_, fun _ _ => rfl, State.getI_setI_ne _ _ (by decide), e, .inr ?_⟩
  · rintro rfl; exact hk (by decide)
  · rw [State.get_set_self, e]
    have := low_le F.Led.LEDGER_WR.w v
    omega

theorem LedgerRec.bytes_length (r : LedgerRec) : r.bytes.length = 32 := by
  have h : ∀ n v, (leBytes n v).length = n := by
    intro n; induction n with
    | zero => intro v; rfl
    | succ n ih => intro v; simp [leBytes, ih]
  simp [LedgerRec.bytes, h]

theorem State.LedgerOnly.append (s : State) (r : LedgerRec) (h : s.ledgerLen ≠ 0) : s.LedgerOnly (s.ledgerAppend r) := by
  unfold State.ledgerAppend
  dsimp only
  generalize hm : (if s.memCapacity ≤ s.get F.Led.LEDGER_BASE pgLedger * 4096 + s.get F.Led.LEDGER_WR pgLedger * 32 then s.sdram
    else memWrite s.sdram (s.get F.Led.LEDGER_BASE pgLedger * 4096 + s.get F.Led.LEDGER_WR pgLedger * 32) r.bytes) = m
  have h1 : s.LedgerOnly { s with sdram := m } := by
    refine ⟨rfl, fun _ _ => rfl, fun a ha => ?_, rfl, rfl, .inl rfl⟩
    rw [← hm]
    split
    · rfl
    refine memByte_memWrite_out _ _ _ ?_
    rw [LedgerRec.bytes_length]
    unfold State.outsideLedger at ha
    generalize s.get F.Led.LEDGER_WR pgLedger = w at ha ⊢
    generalize s.get F.Led.LEDGER_BASE pgLedger * 4096 = b at ha ⊢
    omega
  have lt : (s.get F.Led.LEDGER_WR pgLedger + 1) % s.ledgerLen < s.ledgerLen := Nat.mod_lt _ (Nat.pos_of_ne_zero h)
  split
  · have h2 := State.LedgerOnly.setLed { s with sdram := m } F.Led.LEDGER_RD
      (((s.get F.Led.LEDGER_WR pgLedger + 1) % s.ledgerLen + 1) % s.ledgerLen) (by decide) (by decide) (by decide) (by decide)
      (by decide)
    refine (h1.trans h2).trans (State.LedgerOnly.setWr _ _ ?_)
    rw [h2.2.2.2.2.1]; exact lt
  · exact h1.trans (State.LedgerOnly.setWr _ _ lt)

theorem State.ledgerAccepts_len {s : State} (h : s.ledgerAccepts = true) : s.ledgerLen ≠ 0 := by
  simp only [State.ledgerAccepts, Bool.and_eq_true, bne_iff_ne] at h
  exact h.1.2

theorem State.LedgerOnly.pool (s : State) (q : List LedgerRec) (v : Nat) :
    s.LedgerOnly (({ s with pool := q } : State).set F.Led.POOL_LEVEL pgLedger v) :=
  State.LedgerOnly.trans (t := { s with pool := q }) ⟨rfl, fun _ _ => rfl, fun _ _ => rfl, rfl, rfl, .inl rfl⟩
    (State.LedgerOnly.setLed _ _ _ (by decide) (by decide) (by decide) (by decide) (by decide))

theorem State.LedgerOnly.drain (l : List LedgerRec) (s : State) : s.LedgerOnly (drainPool l s) := by
  induction l generalizing s with
  | nil => exact State.LedgerOnly.pool s [] 0
  | cons r rs ih =>
    unfold drainPool
    split
    · rename_i h
      exact (State.LedgerOnly.append s r (State.ledgerAccepts_len h)).trans (ih _)
    · exact State.LedgerOnly.pool s _ _

theorem State.LedgerOnly.put (s : State) (r : LedgerRec) (e : Bool) : s.LedgerOnly (s.ledgerPut r e) := by
  unfold State.ledgerPut
  extract_lets s1
  have h1 : s.LedgerOnly s1 := by
    unfold s1; split
    · exact State.LedgerOnly.refl s
    · exact State.LedgerOnly.drain _ _
  clear_value s1
  refine h1.trans ?_
  split
  · rename_i h; exact State.LedgerOnly.append _ _ (State.ledgerAccepts_len h)
  · split
    · split
      · exact State.LedgerOnly.pool _ _ _
      · exact State.LedgerOnly.setLed _ _ _ (by decide) (by decide) (by decide) (by decide) (by decide)
    · exact State.LedgerOnly.setLed _ _ _ (by decide) (by decide) (by decide) (by decide) (by decide)

/-- What an event on a page that is not the Ledger's changes. -/
theorem State.onlyEvents_raiseX (s : State) (e : Ev) {pg : Nat} (arg sub sev : Nat) (fo : Bool) (hp : pg ≠ pgLedger) :
    s.OnlyEvents (s.raiseX e pg arg sub sev fo) pg [] := by
  have hkey : ∀ {g : Fld}, g.off + 0 * g.stride < 4096 → g.lo < 32 → g.key pgLedger 0 ≠ F.Hdr.EVENT_STATUS.key pg 0 :=
    fun h1 h2 => Fld.key_ne_of_page h1 h2 (by decide) (by decide) (Ne.symm hp)
  unfold State.raiseX
  extract_lets s1 set seq r s2
  have e1 : s1 = { s with regs := s1.regs } := rfl
  have r1 : ∀ k, k ≠ F.Hdr.EVENT_STATUS.key pg 0 → tfind s1.regs k = tfind s.regs k := fun k hk => tfind_tputD_ne _ _ _ hk
  have g1 : ∀ {f : Fld}, f.off + 0 * f.stride < 4096 → f.lo < 32 → s1.get f pgLedger = s.get f pgLedger := fun h1 h2 => by
    simp only [State.get, State.getI, tget]; rw [r1 _ (hkey h1 h2)]
  have l2 : s1.LedgerOnly s2 := (State.LedgerOnly.setLed s1 F.Led.LEDGER_SEQ (seq + 1) (by decide) (by decide) (by decide)
    (by decide) (by decide)).trans (State.LedgerOnly.put _ r _)
  clear_value s2 r seq set
  split
  · exact ⟨by rw [e1], fun k _ hk _ => r1 k hk, fun _ _ => rfl⟩
  · obtain ⟨a, b, c, -⟩ := l2
    refine ⟨by rw [a, e1], fun k _ hk hl => (b k hl).trans (r1 k hk), fun x hx => c x ?_⟩
    unfold State.outsideLedger State.ledgerLen at hx ⊢
    rw [g1 (by decide) (by decide), g1 (by decide) (by decide), g1 (by decide) (by decide)]; exact hx

theorem State.onlyEvents_raise (s : State) (e : Ev) {pg : Nat} (arg : Nat) (hp : pg ≠ pgLedger) :
    s.OnlyEvents (s.raise e pg arg) pg [] := s.onlyEvents_raiseX e arg 0 e.sev false hp

/-- Stores before an event. -/
theorem State.OnlyRegs.events {s t u : State} {pg : Nat} {ks : List Nat} (h : s.OnlyRegs t ks) (g : t.OnlyEvents u pg [])
    (hl : ∀ k ∈ ks, k / 131072 ≠ pgLedger) : s.OnlyEvents u pg ks := by
  obtain ⟨h1, h2⟩ := h
  obtain ⟨g1, g2, g3⟩ := g
  refine ⟨by rw [g1, h1], fun k hk he hp => (g2 k (by simp) he hp).trans (h2 k hk), fun a ha => ?_⟩
  rw [g3 a, h1]
  have e : ∀ {f : Fld}, f.off + 0 * f.stride < 4096 → f.lo < 32 → t.get f pgLedger = s.get f pgLedger := fun hf hlo => by
    simp only [State.get, State.getI, tget]
    rw [h2 _ fun hm => hl _ hm (Fld.key_page hf hlo)]
  unfold State.outsideLedger State.ledgerLen at ha ⊢
  rw [e (by decide) (by decide), e (by decide) (by decide), e (by decide) (by decide)]; exact ha

/-! ### Several events -/

/-- What records write, with the ring's bounds, so that such changes can follow one another. -/
def State.Logs (s t : State) (pg : Nat) (ks : List Nat) : Prop :=
  t = { s with regs := t.regs, sdram := t.sdram, pool := t.pool, stamps := t.stamps } ∧
  (∀ k, k ∉ ks → k ≠ F.Hdr.EVENT_STATUS.key pg 0 → k / 131072 ≠ pgLedger → tfind t.regs k = tfind s.regs k) ∧
  (∀ a, s.outsideLedger a → memByte t.sdram a = memByte s.sdram a) ∧
  t.get F.Led.LEDGER_BASE pgLedger = s.get F.Led.LEDGER_BASE pgLedger ∧ t.ledgerLen = s.ledgerLen ∧
  (t.get F.Led.LEDGER_WR pgLedger = s.get F.Led.LEDGER_WR pgLedger ∨ t.get F.Led.LEDGER_WR pgLedger + 1 ≤ t.ledgerLen)

theorem State.Logs.only {s t : State} {pg : Nat} {ks : List Nat} (h : s.Logs t pg ks) : s.OnlyEvents t pg ks :=
  ⟨h.1, h.2.1, h.2.2.1⟩

theorem State.Logs.trans {s t u : State} {pg : Nat} {ks ls : List Nat} (h : s.Logs t pg ks) (g : t.Logs u pg ls) :
    s.Logs u pg (ks ++ ls) := by
  obtain ⟨h1, h2, h3, h4, h5, h6⟩ := h
  obtain ⟨g1, g2, g3, g4, g5, g6⟩ := g
  refine ⟨by rw [g1, h1], fun k hk he hp => ?_, fun a ha => ?_, g4.trans h4, g5.trans h5, ?_⟩
  · rw [List.mem_append, not_or] at hk
    exact (g2 k hk.2 he hp).trans (h2 k hk.1 he hp)
  · rw [g3 a, h3 a ha]
    unfold State.outsideLedger at ha ⊢
    rw [h4, h5]
    rcases h6 with h6 | h6
    · rw [h6]; exact ha
    · rw [h5] at h6
      rcases ha with ha | ha
      · exact .inl ha
      · right
        have : max s.ledgerLen (t.get F.Led.LEDGER_WR pgLedger + 1) ≤ max s.ledgerLen (s.get F.Led.LEDGER_WR pgLedger + 1) := by
          omega
        omega
  · rcases g6 with g6 | g6
    · rw [g6, g5]; rcases h6 with h6 | h6
      · exact .inl h6
      · exact .inr h6
    · exact .inr g6

theorem State.Logs.mono {s t : State} {pg : Nat} {ks ls : List Nat} (h : s.Logs t pg ks) (hs : ∀ k ∈ ks, k ∈ ls) :
    s.Logs t pg ls := ⟨h.1, fun k hk => h.2.1 k fun hm => hk (hs k hm), h.2.2⟩

theorem State.OnlyRegs.logs {s t : State} {ks : List Nat} (h : s.OnlyRegs t ks) (pg : Nat)
    (hl : ∀ k ∈ ks, k / 131072 ≠ pgLedger) : s.Logs t pg ks := by
  have e : ∀ {f : Fld}, f.off + 0 * f.stride < 4096 → f.lo < 32 → t.get f pgLedger = s.get f pgLedger := fun hf hlo => by
    simp only [State.get, State.getI, tget]
    rw [h.2 _ fun hm => hl _ hm (Fld.key_page hf hlo)]
  refine ⟨by rw [h.1], fun k hk _ _ => h.2 k hk, fun a _ => by rw [h.1], e (by decide) (by decide), ?_, .inl (e (by decide) (by decide))⟩
  unfold State.ledgerLen; rw [e (by decide) (by decide)]

theorem State.logs_raiseX (s : State) (e : Ev) {pg : Nat} (arg sub sev : Nat) (fo : Bool) (hp : pg ≠ pgLedger) :
    s.Logs (s.raiseX e pg arg sub sev fo) pg [] := by
  refine ⟨(s.onlyEvents_raiseX e arg sub sev fo hp).1, (s.onlyEvents_raiseX e arg sub sev fo hp).2.1,
    (s.onlyEvents_raiseX e arg sub sev fo hp).2.2, ?_⟩
  have hkey : ∀ {g : Fld}, g.off + 0 * g.stride < 4096 → g.lo < 32 → g.key pgLedger 0 ≠ F.Hdr.EVENT_STATUS.key pg 0 :=
    fun h1 h2 => Fld.key_ne_of_page h1 h2 (by decide) (by decide) (Ne.symm hp)
  unfold State.raiseX
  extract_lets s1 set seq r s2
  have g1 : ∀ {f : Fld}, f.off + 0 * f.stride < 4096 → f.lo < 32 → s1.get f pgLedger = s.get f pgLedger := fun h1 h2 =>
    State.getI_setI_ne _ _ (hkey h1 h2)
  have l2 : s1.LedgerOnly s2 := (State.LedgerOnly.setLed s1 F.Led.LEDGER_SEQ (seq + 1) (by decide) (by decide) (by decide)
    (by decide) (by decide)).trans (State.LedgerOnly.put _ r _)
  have n1 : s1.ledgerLen = s.ledgerLen := by unfold State.ledgerLen; rw [g1 (by decide) (by decide)]
  have b1 := g1 (f := F.Led.LEDGER_BASE) (by decide) (by decide)
  have w1 := g1 (f := F.Led.LEDGER_WR) (by decide) (by decide)
  clear_value s2 r seq set s1
  split
  · exact ⟨b1, n1, .inl w1⟩
  · obtain ⟨-, -, -, l4, l5, l6⟩ := l2
    refine ⟨l4.trans b1, l5.trans n1, ?_⟩
    rcases l6 with l6 | l6
    · exact .inl (l6.trans w1)
    · exact .inr l6

theorem State.logs_raise (s : State) (e : Ev) {pg : Nat} (arg : Nat) (hp : pg ≠ pgLedger) : s.Logs (s.raise e pg arg) pg [] :=
  s.logs_raiseX e arg 0 e.sev false hp

theorem State.Logs.setI {s t : State} {pg : Nat} {ks : List Nat} (h : s.Logs t pg ks) (f : Fld) (p i v : Nat)
    (hl : f.key p i / 131072 ≠ pgLedger) : s.Logs (t.setI f p i v) pg (ks ++ [f.key p i]) :=
  h.trans ((t.onlyRegs_setI f p i v).logs pg (by intro k hk; rw [List.mem_singleton.mp hk]; exact hl))

theorem State.Logs.raise {s t : State} {pg : Nat} {ks : List Nat} (h : s.Logs t pg ks) (e : Ev) (arg : Nat)
    (hp : pg ≠ pgLedger) : s.Logs (t.raise e pg arg) pg ks := by
  have := h.trans (t.logs_raise e arg hp)
  rwa [List.append_nil] at this

end Sys2Proof.Machine
end

