-- ==== Sys2Proof/Laws/Facts.lean ====
section
/-! SUPPORT. Reading fields after stores and events, in forms whose conditions are decided. -/

-- One declaration after another: the package is also checked as one text, where too many threads would start at once.
set_option Elab.async false

namespace Sys2Proof.Machine

theorem State.getI_setI_off (s : State) {p v i j : Nat} {f g : Fld}
    (h : (g.off + j * g.stride) * 32 + g.lo ≠ (f.off + i * f.stride) * 32 + f.lo) :
    (s.setI f p i v).getI g p j = s.getI g p j := State.getI_setI_ne _ _ (Fld.key_ne h)

/-- Another field of the same page. -/
theorem State.get_set_off (s : State) {p v : Nat} {f g : Fld}
    (h : (g.off + 0 * g.stride) * 32 + g.lo ≠ (f.off + 0 * f.stride) * 32 + f.lo) :
    (s.set f p v).get g p = s.get g p := State.getI_setI_ne _ _ (Fld.key_ne h)

theorem State.get_setI_off (s : State) {p v i : Nat} {f g : Fld}
    (h : (g.off + 0 * g.stride) * 32 + g.lo ≠ (f.off + i * f.stride) * 32 + f.lo) :
    (s.setI f p i v).get g p = s.get g p := State.getI_setI_ne _ _ (Fld.key_ne h)

theorem State.getI_set_off (s : State) {p v j : Nat} {f g : Fld}
    (h : (g.off + j * g.stride) * 32 + g.lo ≠ (f.off + 0 * f.stride) * 32 + f.lo) :
    (s.set f p v).getI g p j = s.getI g p j := State.getI_setI_ne _ _ (Fld.key_ne h)

/-- A field whose lowest bit stands elsewhere in its word, on any page. -/
theorem State.get_set_lo (s : State) {p q v : Nat} {f g : Fld} (h : g.lo ≠ f.lo) (hg : g.lo < 32) (hf : f.lo < 32) :
    (s.set f p v).get g q = s.get g q := State.getI_setI_ne _ _ (Fld.key_ne_lo h hg hf)

theorem State.getI_setI_lo (s : State) {p q v i j : Nat} {f g : Fld} (h : g.lo ≠ f.lo) (hg : g.lo < 32) (hf : f.lo < 32) :
    (s.setI f p i v).getI g q j = s.getI g q j := State.getI_setI_ne _ _ (Fld.key_ne_lo h hg hf)

/-- A field of another page. -/
theorem State.get_set_page (s : State) {p q v : Nat} {f g : Fld} (h : q ≠ p) (hg : g.off + 0 * g.stride < 4096)
    (hgl : g.lo < 32) (hf : f.off + 0 * f.stride < 4096) (hfl : f.lo < 32) : (s.set f p v).get g q = s.get g q :=
  State.getI_setI_page _ _ hf hfl hg hgl h

/-- A field of the event's page other than EVENT_STATUS. -/
theorem State.get_raise_off (s : State) (e : Ev) {p arg : Nat} {g : Fld} (hp : p ≠ pgLedger)
    (h : (g.off + 0 * g.stride) * 32 + g.lo ≠ 512) (hg : g.off + 0 * g.stride < 4096) (hl : g.lo < 32) :
    (s.raise e p arg).get g p = s.get g p := State.raise_getI _ _ _ _ hg hl hp (Fld.key_ne h)

theorem State.getI_raise_off (s : State) (e : Ev) {p arg j : Nat} {g : Fld} (hp : p ≠ pgLedger)
    (h : (g.off + j * g.stride) * 32 + g.lo ≠ 512) (hg : g.off + j * g.stride < 4096) (hl : g.lo < 32) :
    (s.raise e p arg).getI g p j = s.getI g p j := State.raise_getI _ _ _ _ hg hl hp (Fld.key_ne h)

/-- Fields of one array, at one place of it. -/
theorem State.getI_setI_arr (s : State) {p v i : Nat} {f g : Fld} (hs : g.stride = f.stride)
    (h : g.off * 32 + g.lo ≠ f.off * 32 + f.lo) : (s.setI f p i v).getI g p i = s.getI g p i :=
  State.getI_setI_ne _ _ (by unfold Fld.key; rw [hs]; omega)

/-- A field of an array on the event's page. -/
theorem State.getI_raise_arr (s : State) (e : Ev) {p arg : Nat} (n : Nat) {j : Nat} (hj : j < n) {g : Fld} (hp : p ≠ pgLedger)
    (h : 32 ≤ g.off) (hg : g.off + (n - 1) * g.stride < 4096) (hl : g.lo < 32) :
    (s.raise e p arg).getI g p j = s.getI g p j := by
  have h1 : j * g.stride ≤ (n - 1) * g.stride := Nat.mul_le_mul_right _ (by omega)
  refine State.raise_getI _ _ _ _ (by omega) hl hp ?_
  unfold Fld.key
  have h2 : F.Hdr.EVENT_STATUS.off = 16 := rfl
  have h3 : F.Hdr.EVENT_STATUS.lo = 0 := rfl
  rw [h2, h3]
  omega

/-- The event's bit is set (R89). -/
theorem State.raise_bit (s : State) (e : Ev) {pg : Nat} (arg : Nat) (hp : pg ≠ pgLedger) (hb : e.bit < 32) :
    bitAt ((s.raise e pg arg).get F.Hdr.EVENT_STATUS pg) e.bit = true := by
  rw [State.raise_status _ _ _ _ hp, bitAt_low hb]; exact bitAt_setBit_self _ _

end Sys2Proof.Machine
end

