-- ==== Sys2Proof/Laws/Kept.lean ====
section
/-! SUPPORT. What every operation keeps: the time, the queue, the canonical form, and free values are never given back.
One rule per way of building a state; `kept_<name>` says it of the operation of that name. -/

-- One declaration after another: the package is also checked as one text, where too many threads would start at once.
set_option Elab.async false

namespace Sys2Proof.Machine

/-- `s` was reached from `u₀` by operations that keep the time and the queue, and it is canonical. -/
def Kept (u₀ s : State) : Prop :=
  (s.now = u₀.now ∧ s.pending = u₀.pending ∧ u₀.freeIx ≤ s.freeIx) ∧ s.Canonical

/-- Every next state of an outcome is kept. -/
def KeptO (u₀ : State) (o : Out) : Prop := ∀ t, o = .next t → Kept u₀ t

variable {u₀ : State}

theorem Kept.refl (h : u₀.Canonical) : Kept u₀ u₀ := ⟨⟨rfl, rfl, Nat.le_refl _⟩, h⟩

theorem KeptO.next {s : State} (h : Kept u₀ s) : KeptO u₀ (.next s) := by
  rintro t ⟨⟩; exact h

theorem Kept.ite {c : Prop} [Decidable c] {a b : State} (ha : Kept u₀ a) (hb : Kept u₀ b) : Kept u₀ (if c then a else b) := by
  split <;> assumption

theorem Kept.dite {c : Prop} [Decidable c] {a : c → State} {b : ¬c → State} (ha : ∀ h, Kept u₀ (a h))
    (hb : ∀ h, Kept u₀ (b h)) : Kept u₀ (if h : c then a h else b h) := by
  split
  · exact ha _
  · exact hb _

theorem Kept.forAll {α : Type} {l : List α} {s : State} {f : α → State → State} (h : Kept u₀ s)
    (hf : ∀ a t, Kept u₀ t → Kept u₀ (f a t)) : Kept u₀ (Sys2Proof.Machine.forAll l s f) := forAll_inv l s f (Kept u₀) h hf

theorem Kept.foldl {α : Type} {l : List α} {s : State} {f : State → α → State} (h : Kept u₀ s)
    (hf : ∀ t a, Kept u₀ t → Kept u₀ (f t a)) : Kept u₀ (l.foldl f s) := by
  induction l generalizing s with
  | nil => exact h
  | cons a l ih => exact ih (hf _ _ h)

theorem Kept.foldl1 {α β : Type} {l : List α} {s : State × β} {f : State × β → α → State × β} (h : Kept u₀ s.1)
    (hf : ∀ t a, Kept u₀ t.1 → Kept u₀ (f t a).1) : Kept u₀ (l.foldl f s).1 := by
  induction l generalizing s with
  | nil => exact h
  | cons a l ih => exact ih (hf _ _ h)

/-- A step that changes none of what is kept. -/
theorem Kept.upd {s t : State} (h : Kept u₀ s)
    (e : (t.now = s.now ∧ t.pending = s.pending ∧ t.freeIx = s.freeIx) ∧ t.sdram = s.sdram ∧ t.room = s.room ∧
      t.regs = s.regs ∧ t.aptw = s.aptw ∧ t.pool = s.pool := by exact ⟨⟨rfl, rfl, rfl⟩, rfl, rfl, rfl, rfl, rfl⟩) :
    Kept u₀ t := by
  obtain ⟨⟨a, b, c⟩, d, f, g, i, j⟩ := e
  unfold Kept State.Canonical
  rw [a, b, c, d, f, g, i, j]; exact h

theorem Kept.sdram {s t : State} (h : Kept u₀ s) (hm : Memory.wf t.sdram)
    (e : t = { s with sdram := t.sdram, memBad := t.memBad } := by exact rfl) : Kept u₀ t := by
  rw [e]; exact ⟨h.1, hm, h.2.2⟩

theorem Kept.room {s t : State} (h : Kept u₀ s) (hm : Memory.wf t.room)
    (e : t = { s with room := t.room, sramErr := t.sramErr } := by exact rfl) : Kept u₀ t := by
  rw [e]; exact ⟨h.1, h.2.1, hm, h.2.2.2⟩

theorem Kept.regs {s t : State} (h : Kept u₀ s) (hr : tsorted t.regs = true) (ha : tsorted t.aptw = true)
    (e : t = { s with regs := t.regs, aptw := t.aptw } := by exact rfl) : Kept u₀ t := by
  rw [e]; exact ⟨h.1, h.2.1, h.2.2.1, hr, ha, h.2.2.2.2.2⟩

theorem Kept.freeIx {s t : State} (h : Kept u₀ s) (hf : s.freeIx ≤ t.freeIx)
    (e : t = { s with freeIx := t.freeIx } := by exact rfl) : Kept u₀ t := by
  rw [e]; exact ⟨⟨h.1.1, h.1.2.1, Nat.le_trans h.1.2.2 hf⟩, h.2⟩

theorem Kept.sdramWf {s : State} (h : Kept u₀ s) : Memory.wf s.sdram := h.2.1
theorem Kept.roomWf {s : State} (h : Kept u₀ s) : Memory.wf s.room := h.2.2.1
theorem Kept.regsSorted {s : State} (h : Kept u₀ s) : tsorted s.regs = true := h.2.2.2.1
theorem Kept.aptwSorted {s : State} (h : Kept u₀ s) : tsorted s.aptw = true := h.2.2.2.2.1
theorem Kept.poolLen {s : State} (h : Kept u₀ s) : s.pool.length ≤ 64 := h.2.2.2.2.2

/-- Values put under keys one after the other keep the keys rising. -/
theorem tsorted_foldl {α β : Type} {l : List β} {m : Tbl α} (f : Tbl α → β → Tbl α) (h : tsorted m = true)
    (hf : ∀ m e, tsorted m = true → tsorted (f m e) = true) : tsorted (l.foldl f m) = true := by
  induction l generalizing m with
  | nil => exact h
  | cons a l ih => exact ih (hf _ _ h)

theorem wf_foldl {β : Type} {l : List β} {m : List Host.Cell} {f : List Host.Cell → β → List Host.Cell} (h : Memory.wf m)
    (hf : ∀ m e, Memory.wf m → Memory.wf (f m e)) : Memory.wf (l.foldl f m) := by
  induction l generalizing m with
  | nil => exact h
  | cons a l ih => exact ih (hf _ _ h)

theorem kept_setI {s : State} {f : Fld} {pg i v : Nat} (h : Kept u₀ s) : Kept u₀ (s.setI f pg i v) :=
  h.regs (tsorted_tputD _ _ _ h.regsSorted) h.aptwSorted

theorem kept_setShadow {s : State} {f : Fld} {pg i v : Nat} (h : Kept u₀ s) : Kept u₀ (s.setShadow f pg i v) :=
  h.regs (tsorted_tputD _ _ _ h.regsSorted) h.aptwSorted

theorem kept_set {s : State} {f : Fld} {pg v : Nat} (h : Kept u₀ s) : Kept u₀ (s.set f pg v) := kept_setI h

theorem kept_free {s : State} (h : Kept u₀ s) : Kept u₀ s.free.2 := h.freeIx (Nat.le_succ _)

theorem kept_ledgerAppend {s : State} {r : LedgerRec} (h : Kept u₀ s) : Kept u₀ (s.ledgerAppend r) := by
  unfold State.ledgerAppend
  extract_lets wr next a s1
  have h1 : Kept u₀ s1 := by
    refine h.sdram ?_
    unfold s1; dsimp only; split
    · exact h.sdramWf
    · exact memWrite_wf _ _ h.sdramWf
  exact kept_set (Kept.ite (kept_set h1) h1)

theorem State.ledgerAppend_pool (s : State) (r : LedgerRec) : (s.ledgerAppend r).pool = s.pool := by
  obtain ⟨_, _, h⟩ := s.ledgerAppend_eq r; rw [h]

theorem kept_drainPool {l : List LedgerRec} {s : State} (hl : l.length ≤ 64) (h : Kept u₀ s) : Kept u₀ (drainPool l s) := by
  induction l generalizing s with
  | nil => exact kept_set ⟨h.1, h.2.1, h.2.2.1, h.2.2.2.1, h.2.2.2.2.1, Nat.zero_le _⟩
  | cons r rs ih =>
    unfold drainPool
    refine Kept.ite (ih (Nat.le_of_succ_le hl) (kept_ledgerAppend h)) ?_
    exact kept_set ⟨h.1, h.2.1, h.2.2.1, h.2.2.2.1, h.2.2.2.2.1, hl⟩

theorem kept_ledgerPut {s : State} {r : LedgerRec} {e : Bool} (h : Kept u₀ s) : Kept u₀ (s.ledgerPut r e) := by
  unfold State.ledgerPut
  extract_lets s1
  have h1 : Kept u₀ s1 := Kept.ite h (kept_drainPool h.poolLen h)
  clear_value s1
  refine Kept.ite (kept_ledgerAppend h1) (Kept.ite ?_ (kept_setI h1))
  split
  · rename_i hlt
    exact kept_set ⟨h1.1, h1.2.1, h1.2.2.1, h1.2.2.2.1, h1.2.2.2.2.1, by simp; omega⟩
  · exact kept_setI h1

end Sys2Proof.Machine
end

