-- ==== Sys2Proof/Laws/KeptBase.lean ====
section
/-! SUPPORT. The operations of registers, memory, commits and locks keep the time, the queue and the canonical form. -/

-- One declaration after another: the package is also checked as one text, where too many threads would start at once.
set_option Elab.async false

namespace Sys2Proof.Machine

variable {u₀ : State}

theorem kept_satI {s f pg i n} (h : Kept u₀ s) : Kept u₀ (State.satI s f pg i n) := by
  unfold State.satI
  exact kept_setI h

theorem kept_sat {s f pg} (h : Kept u₀ s) : Kept u₀ (State.sat s f pg) := by
  unfold State.sat
  exact kept_satI h

theorem kept_raiseX {s e pg arg sub sev forced} (h : Kept u₀ s) : Kept u₀ (State.raiseX s e pg arg sub sev forced)
    := by
  unfold State.raiseX
  extract_lets +onlyGivenNames v0 v1
  have hv0 : Kept u₀ v0 := kept_set h
  clear_value v0 v1
  refine Kept.ite (Kept.upd hv0) ?_
  extract_lets +onlyGivenNames v2 v3 v4
  clear_value v2 v3
  have hv4 : Kept u₀ v4 := kept_ledgerPut (kept_set hv0)
  clear_value v4
  exact Kept.upd hv4

theorem kept_raise {s e pg arg} (h : Kept u₀ s) : Kept u₀ (State.raise s e pg arg) := by
  unfold State.raise
  exact kept_raiseX h

theorem kept_set2 {s fl fh pg i v} (h : Kept u₀ s) : Kept u₀ (State.set2 s fl fh pg i v) := by
  unfold State.set2
  exact kept_setI (kept_setI h)

theorem kept_stamp {s k v} (h : Kept u₀ s) : Kept u₀ (State.stamp s k v) := by
  unfold State.stamp
  exact Kept.upd h

theorem kept_wrapI {s f pg i n} (h : Kept u₀ s) : Kept u₀ (State.wrapI s f pg i n) := by
  unfold State.wrapI
  exact kept_setI h

theorem kept_wrap {s f pg} (h : Kept u₀ s) : Kept u₀ (State.wrap s f pg) := by
  unfold State.wrap
  exact kept_wrapI h

theorem kept_freeUpTo {n s} (h : Kept u₀ s) : Kept u₀ (freeUpTo n s).2 := by
  unfold freeUpTo
  extract_lets +onlyGivenNames v0
  have hv0 : Kept u₀ v0.2 := kept_free h
  clear_value v0
  exact hv0

theorem kept_freshLoad {f pg s} (h : Kept u₀ s) : Kept u₀ (freshLoad f pg s) := by
  unfold freshLoad
  extract_lets +onlyGivenNames v0
  have hv0 : Kept u₀ v0.2 := kept_freeUpTo h
  clear_value v0
  exact kept_set hv0

theorem kept_setApt {s pg off v} (h : Kept u₀ s) : Kept u₀ (State.setApt s pg off v) :=
  h.regs h.regsSorted (tsorted_tputD _ _ _ h.aptwSorted)

theorem kept_setAptBytes {pg o l s} (h : Kept u₀ s) : Kept u₀ (setAptBytes pg o l s) := by
  fun_induction setAptBytes pg o l s with
  | case1 => exact h
  | case2 _ _ _ _ _ _ _ ih => exact ih (kept_setApt h)
  | case3 => exact kept_setApt h

theorem kept_roomPut {a bs s} (h : Kept u₀ s) : Kept u₀ (roomPut a bs s) := h.room (memWrite_wf _ _ h.roomWf)

theorem kept_sramBad {die source word s} (h : Kept u₀ s) : Kept u₀ (sramBad die source word s) := by
  unfold sramBad
  extract_lets +onlyGivenNames v0 v1
  have hv0 : Kept u₀ v0 := kept_satI h
  clear_value v0
  have hv1 : Kept u₀ v1 := kept_set (kept_set (kept_set hv0))
  clear_value v1
  exact kept_raise hv1

theorem kept_sramUe {die s} (h : Kept u₀ s) : Kept u₀ (sramUe die s) := by
  unfold sramUe
  extract_lets +onlyGivenNames v0
  have hv0 : Kept u₀ v0.2 := kept_free h
  clear_value v0
  exact kept_sramBad hv0

theorem kept_updMem {s ch f} (h : Kept u₀ s) : Kept u₀ (State.updMem s ch f) := by
  unfold State.updMem
  exact Kept.upd h

theorem kept_rangeError {cls addr wr s} (h : Kept u₀ s) : Kept u₀ (rangeError cls addr wr s) := by
  unfold rangeError
  exact kept_raise h

theorem kept_memPower {ch v s} (h : Kept u₀ s) : Kept u₀ (memPower ch v s) := by
  unfold memPower
  exact kept_set h

theorem kept_srExit {ch s} (h : Kept u₀ s) : Kept u₀ (srExit ch s) := by
  unfold srExit
  exact kept_memPower (kept_updMem h)

theorem kept_memWake {ch s} (h : Kept u₀ s) : Kept u₀ (memWake ch s) := by
  unfold memWake
  refine Kept.ite h ?_
  split
  · exact h
  · exact kept_srExit h
  · exact kept_memPower (kept_sat h)
  · exact kept_memPower h

theorem kept_memTouch {ch s} (h : Kept u₀ s) : Kept u₀ (memTouch ch s) := by
  unfold memTouch
  exact kept_updMem (kept_memWake h)

theorem kept_memJoin {ch q s} (h : Kept u₀ s) : Kept u₀ (memJoin ch q s) := by
  unfold memJoin
  extract_lets +onlyGivenNames v0 v1
  clear_value v0 v1
  refine Kept.ite ?_ ?_
  · split
    · refine Kept.ite (kept_updMem h) ?_
      extract_lets +onlyGivenNames v2
      clear_value v2
      exact kept_updMem h
    · exact kept_updMem h
  · extract_lets +onlyGivenNames v3 v4
    clear_value v3
    have hv4 : Kept u₀ v4 := Kept.ite (kept_sat h) h
    clear_value v4
    exact kept_updMem hv4

theorem kept_memAdmit {n ch s} (h : Kept u₀ s) : Kept u₀ (memAdmit n ch s) := by
  induction n generalizing s with
  | zero => exact h
  | succ n ih =>
    unfold memAdmit
    split
    · exact ih (kept_memJoin (kept_updMem h))
    · exact h

theorem kept_memEnqueue {ch q s} (h : Kept u₀ s) : Kept u₀ (memEnqueue ch q s) := by
  unfold memEnqueue
  extract_lets +onlyGivenNames v0
  have hv0 : Kept u₀ v0 := kept_updMem h
  clear_value v0
  exact kept_memAdmit hv0

theorem kept_memStore {q bad s} (h : Kept u₀ s) : Kept u₀ (memStore q bad s) := by
  refine h.sdram (wf_foldl h.sdramWf fun m i hm => ?_)
  split
  · exact memSetByte_wf _ _ hm
  · exact hm

theorem kept_memPoison {ch burst cls bad s} (h : Kept u₀ s) : Kept u₀ (memPoison ch burst cls bad s) := by
  unfold memPoison
  extract_lets +onlyGivenNames v0 v1
  clear_value v0
  have hv1 : Kept u₀ v1 := kept_set (kept_set (kept_sat h))
  clear_value v1
  exact kept_raise hv1

theorem kept_memMerge {ch q s} (h : Kept u₀ s) : Kept u₀ (memMerge ch q s) := by
  unfold memMerge
  extract_lets +onlyGivenNames v0
  clear_value v0
  exact kept_memStore (Kept.ite h (kept_memPoison h))

theorem kept_burstWrite {cls q s} (h : Kept u₀ s) : Kept u₀ (burstWrite cls q s) := by
  unfold burstWrite
  refine Kept.ite (kept_rangeError h) ?_
  extract_lets +onlyGivenNames v0 v1 v2 v3
  clear_value v0 v1 v2
  have hv3 : Kept u₀ v3 := kept_memTouch h
  clear_value v3
  exact Kept.ite (kept_memEnqueue hv3) (kept_memMerge hv3)

theorem kept_sdramWrite {cls a bs s} (h : Kept u₀ s) : Kept u₀ (sdramWrite cls a bs s) :=
  Kept.ite (Kept.forAll (h.sdram (memWrite_wf _ _ h.sdramWf)) fun _ _ => kept_memTouch) (Kept.forAll h fun _ _ =>
      kept_burstWrite)

theorem kept_burstRead {cls b s} (h : Kept u₀ s) : Kept u₀ (burstRead cls b s) := by
  unfold burstRead
  refine Kept.ite (kept_rangeError h) ?_
  extract_lets +onlyGivenNames v0 v1 v2
  clear_value v0 v1
  have hv2 : Kept u₀ v2 := kept_memTouch (Kept.ite (kept_sat h) h)
  clear_value v2
  exact Kept.ite hv2 (kept_memPoison hv2)

theorem kept_sdramRead {cls a n s} (h : Kept u₀ s) : Kept u₀ (sdramRead cls a n s) := by
  unfold sdramRead
  exact Kept.forAll h (fun _ _ => kept_burstRead)

theorem kept_asOf {s r n} (h : Kept u₀ s) : Kept u₀ (State.asOf s r n) := by
  unfold State.asOf
  split
  · exact h.regs (tsorted_foldl _ (tsorted_filter _ h.regsSorted) fun _ _ hm => tsorted_tput _ _ hm)
      (tsorted_foldl _ (tsorted_filter _ h.aptwSorted) fun _ _ hm => tsorted_tput _ _ hm)
  · exact h

theorem kept_updIng {s f} (h : Kept u₀ s) : Kept u₀ (State.updIng s f) := by
  unfold State.updIng
  exact Kept.upd h

theorem kept_updFolio {s n f} (h : Kept u₀ s) : Kept u₀ (State.updFolio s n f) := by
  unfold State.updFolio
  extract_lets +onlyGivenNames v0
  clear_value v0
  exact kept_updIng h

theorem kept_updItem {s n ix f} (h : Kept u₀ s) : Kept u₀ (State.updItem s n ix f) := by
  unfold State.updItem
  exact kept_updFolio h

theorem kept_updLane {s p f} (h : Kept u₀ s) : Kept u₀ (State.updLane s p f) := by
  unfold State.updLane
  exact Kept.upd h

theorem kept_updPort {s p f} (h : Kept u₀ s) : Kept u₀ (State.updPort s p f) := by
  unfold State.updPort
  exact Kept.upd h

theorem kept_updRegn {s r f} (h : Kept u₀ s) : Kept u₀ (State.updRegn s r f) := by
  unfold State.updRegn
  exact Kept.upd h

theorem kept_sysRead {cls a n s} (h : Kept u₀ s) : Kept u₀ (sysRead cls a n s) := by
  unfold sysRead
  exact Kept.ite (kept_sdramRead h) h

theorem kept_roomWrite {a bs s} (h : Kept u₀ s) : Kept u₀ (roomWrite a bs s) := by
  unfold roomWrite
  extract_lets +onlyGivenNames v0 v1
  clear_value v0
  have hv1 : Kept u₀ v1 := kept_roomPut h
  clear_value v1
  refine Kept.forAll hv1 ?_
  intro _ _ h2
  extract_lets +onlyGivenNames v3 v4 v5
  clear_value v3 v4 v5
  exact kept_setApt h2

theorem kept_markDirty {p n s} (h : Kept u₀ s) : Kept u₀ (markDirty p n s) := by
  unfold markDirty
  exact kept_updPort h

theorem kept_sysWrite {cls a bs s} (h : Kept u₀ s) : Kept u₀ (sysWrite cls a bs s) := by
  unfold sysWrite
  exact Kept.ite (kept_sdramWrite h) (Kept.ite (kept_roomWrite h) h)

theorem kept_portInvalid {pg folio reason s} (h : Kept u₀ s) : Kept u₀ (portInvalid pg folio reason s) := by
  unfold portInvalid
  exact kept_raise h

theorem kept_pipeAs {s k} (h : Kept u₀ s) : Kept u₀ (State.pipeAs s k) := by
  unfold State.pipeAs
  split
  · exact h.regs (tsorted_foldl _ (tsorted_filter _ h.regsSorted) fun _ _ hm => tsorted_tput _ _ hm)
      (tsorted_foldl _ (tsorted_filter _ h.aptwSorted) fun _ _ hm => tsorted_tput _ _ hm)
  · exact h

theorem kept_updLink {s l f} (h : Kept u₀ s) : Kept u₀ (State.updLink s l f) := by
  unfold State.updLink
  exact Kept.upd h

theorem kept_updPipe {s f} (h : Kept u₀ s) : Kept u₀ (State.updPipe s f) := by
  unfold State.updPipe
  exact Kept.upd h

theorem kept_updSlot {s st f} (h : Kept u₀ s) : Kept u₀ (State.updSlot s st f) := by
  unfold State.updSlot
  exact Kept.upd h

theorem kept_cciNext {l n s} (h : Kept u₀ s) : Kept u₀ (cciNext l n s) := by
  induction n generalizing s with
  | zero => exact h
  | succ n ih =>
    unfold cciNext
    dsimp only
    refine Kept.ite h ?_
    split
    · exact Kept.ite (ih (kept_updLink (kept_set (kept_set h)))) (kept_updLink (kept_set h))
    · exact Kept.ite (kept_updLink h) h

theorem kept_cciGo {l s} (h : Kept u₀ s) : Kept u₀ (cciGo l s) := by
  unfold cciGo
  exact kept_cciNext h

theorem kept_exposureSwap {l n s} (h : Kept u₀ s) : Kept u₀ (exposureSwap l n s) := by
  unfold exposureSwap
  extract_lets +onlyGivenNames v0 v1 v2
  clear_value v0 v1 v2
  exact kept_cciGo (kept_updLink h)

theorem kept_pipeSwap {s} (h : Kept u₀ s) : Kept u₀ (pipeSwap s) := by
  unfold pipeSwap
  extract_lets +onlyGivenNames v0 v1
  clear_value v0 v1
  exact kept_updPipe h

theorem kept_tapSwap {s} (h : Kept u₀ s) : Kept u₀ (tapSwap s) := by
  unfold tapSwap
  refine Kept.forAll h ?_
  intro _ _ h0
  extract_lets +onlyGivenNames v1 v2 v3
  clear_value v1 v2 v3
  exact Kept.ite (kept_updPipe (kept_setI h0)) (Kept.ite h0 (kept_updPipe (kept_setI (kept_setI h0))))

theorem kept_tapReady {s} (h : Kept u₀ s) : Kept u₀ (tapReady s) := by
  unfold tapReady
  exact Kept.forAll h (fun _ _ h0 => Kept.ite h0 (kept_updPipe (kept_setI h0)))

theorem kept_expLate {l e s} (h : Kept u₀ s) : Kept u₀ (expLate l e s) := by
  unfold expLate
  exact Kept.ite h (kept_raise (kept_updLink h))

theorem kept_pipePrune {s} (h : Kept u₀ s) : Kept u₀ (pipePrune s) := by
  unfold pipePrune
  extract_lets +onlyGivenNames v0
  clear_value v0
  exact kept_updPipe h

theorem kept_updTrk {s f} (h : Kept u₀ s) : Kept u₀ (State.updTrk s f) := by
  unfold State.updTrk
  exact Kept.upd h

theorem kept_setNoz {p n x s} (h : Kept u₀ s) : Kept u₀ (setNoz p n x s) := by
  unfold setNoz
  exact kept_setApt h

theorem kept_nozzleSwap {r s} (h : Kept u₀ s) : Kept u₀ (nozzleSwap r s) := by
  unfold nozzleSwap
  extract_lets -merge -underBinder +onlyGivenNames v0 v1 v2
  clear_value v0 v1
  have hv2 : Kept u₀ v2 := by
    unfold v2
    refine Kept.forAll h ?_
    intro _ _ h3
    extract_lets +onlyGivenNames v4 v5
    clear_value v4 v5
    exact Kept.ite (kept_setNoz h3) h3
  clear_value v2
  exact kept_updTrk hv2

theorem kept_checkRamps {r n s} (h : Kept u₀ s) : Kept u₀ (checkRamps r n s) := by
  unfold checkRamps
  refine Kept.forAll h ?_
  intro _ _ h0
  extract_lets +onlyGivenNames v1
  clear_value v1
  exact Kept.ite h0 (kept_raise h0)

theorem kept_afterSwap {pg n s} (h : Kept u₀ s) : Kept u₀ (afterSwap pg n s) := by
  unfold afterSwap
  refine Kept.ite ?_ (Kept.ite (kept_exposureSwap h) (Kept.ite (kept_pipeSwap h) (Kept.ite (kept_tapSwap h) h)))
  extract_lets +onlyGivenNames v0
  have hv0 : Kept u₀ v0 := kept_updRegn h
  clear_value v0
  exact kept_nozzleSwap (kept_checkRamps hv0)

theorem kept_setCstate {s pg v} (h : Kept u₀ s) : Kept u₀ (State.setCstate s pg v) := by
  unfold State.setCstate
  exact kept_set h

theorem kept_setGstate {s g v} (h : Kept u₀ s) : Kept u₀ (State.setGstate s g v) := by
  unfold State.setGstate
  exact kept_setI h

theorem kept_updBnd {s pg f} (h : Kept u₀ s) : Kept u₀ (State.updBnd s pg f) := by
  unfold State.updBnd
  exact Kept.upd h

theorem kept_updGrp {s g f} (h : Kept u₀ s) : Kept u₀ (State.updGrp s g f) := by
  unfold State.updGrp
  exact Kept.upd h

theorem kept_groupSettle {g arrive s} (hk : ∀ x0 x1, Kept u₀ x1 → Kept u₀ (arrive x0 x1)) (h : Kept u₀ s) : Kept u₀
    (groupSettle g arrive s) := by
  unfold groupSettle
  extract_lets +onlyGivenNames v0
  clear_value v0
  refine Kept.ite ?_ h
  extract_lets +onlyGivenNames v1
  have hv1 : Kept u₀ v1 := kept_updGrp (kept_setGstate h)
  clear_value v1
  split
  · exact hk _ _ hv1
  · exact hv1

theorem kept_groupInvalid {g s} (h : Kept u₀ s) : Kept u₀ (groupInvalid g s) := by
  unfold groupInvalid
  exact Kept.forAll h (fun _ _ => kept_portInvalid)

theorem kept_swapWindows {pg s} (h : Kept u₀ s) : Kept u₀ (swapWindows pg s) :=
  h.regs h.regsSorted (tsorted_foldl _ (tsorted_tclear _ _ h.aptwSorted) fun _ _ hm => tsorted_tput _ _ hm)

theorem kept_swapField {pg f s} (h : Kept u₀ s) : Kept u₀ (swapField pg f s) := by
  unfold swapField
  refine Kept.forAll h ?_
  intro _ _ h0
  extract_lets +onlyGivenNames v1
  clear_value v1
  exact kept_setShadow (kept_setI h0)

theorem kept_swapSets {pg s} (h : Kept u₀ s) : Kept u₀ (swapSets pg s) := by
  unfold swapSets
  extract_lets +onlyGivenNames v0 v1
  have hv0 : Kept u₀ v0 := kept_swapWindows (Kept.forAll h (fun _ _ => kept_swapField))
  clear_value v0
  have hv1 : Kept u₀ v1 := kept_set hv0
  clear_value v1
  exact kept_afterSwap (kept_updBnd (kept_setCstate (kept_set hv1)))

theorem kept_swapMember {g num pg s} (h : Kept u₀ s) : Kept u₀ (swapMember g num pg s) := by
  unfold swapMember
  extract_lets +onlyGivenNames v0 v1 v2
  have hv0 : Kept u₀ v0 := kept_swapSets h
  clear_value v0
  have hv1 : Kept u₀ v1 := by
    unfold v1
    split
    · exact kept_setI (kept_set hv0)
    · exact hv0
  clear_value v1
  have hv2 : Kept u₀ v2 := kept_updGrp hv1
  clear_value v2
  exact kept_setGstate hv2

theorem kept_groupArrives {g tgt s} (h : Kept u₀ s) : Kept u₀ (groupArrives g tgt s) := by
  unfold groupArrives
  split
  · exact kept_raise h
  · extract_lets +onlyGivenNames v0 v1 v2 v3
    clear_value v0 v1 v2
    have hv3 : ∀ x0 x1, Kept u₀ x1 → Kept u₀ (v3 x0 x1) := by
      unfold v3
      exact fun _ _ h4 => kept_updGrp (kept_setGstate h4)
    clear_value v3
    refine Kept.ite ?_ ?_
    · split
      · exact Kept.ite (kept_groupInvalid h) (Kept.forAll (kept_updGrp h) (fun _ _ => kept_swapMember))
      · exact hv3 _ _ h
    · split
      · exact Kept.ite (kept_raise (hv3 _ _ h)) (hv3 _ _ h)
      · extract_lets +onlyGivenNames v6
        clear_value v6
        exact Kept.ite (kept_raise h) (hv3 _ _ h)

theorem kept_abandonCommit {pg s} (h : Kept u₀ s) : Kept u₀ (abandonCommit pg s) := by
  unfold abandonCommit
  extract_lets +onlyGivenNames v0 v1 v2
  have hv0 : Kept u₀ v0 := by
    unfold v0
    split
    · exact kept_raise (kept_updGrp h)
    · exact h
  clear_value v0
  have hv1 : Kept u₀ v1 := Kept.forAll hv0 (fun _ _ => kept_updGrp)
  clear_value v1
  have hv2 : Kept u₀ v2 := kept_updBnd hv1
  clear_value v2
  exact Kept.forAll (kept_setCstate hv2) (fun _ _ h4 => kept_groupSettle (fun _ _ => kept_groupArrives) (Kept.ite
      (kept_setGstate h4) h4))

theorem kept_startBoundary {pg n s} (h : Kept u₀ s) : Kept u₀ (startBoundary pg n s) := by
  unfold startBoundary
  extract_lets +onlyGivenNames v0
  have hv0 : Kept u₀ v0 := kept_updBnd h
  clear_value v0
  refine Kept.forAll hv0 ?_
  intro _ _ h1
  split
  · extract_lets +onlyGivenNames v2
    clear_value v2
    exact Kept.ite (kept_raise (kept_updGrp (kept_setGstate h1))) h1
  · exact h1

theorem kept_referenceInstant {pg s} (h : Kept u₀ s) : Kept u₀ (referenceInstant pg s) := by
  unfold referenceInstant
  refine Kept.ite h ?_
  extract_lets +onlyGivenNames v0 v1 v2
  clear_value v0
  have hv1 : Kept u₀ v1 := Kept.ite (kept_updBnd h) h
  clear_value v1
  have hv2 : Kept u₀ v2 := by
    unfold v2
    split
    · exact Kept.ite (kept_swapMember hv1) hv1
    · exact Kept.ite (kept_set (kept_swapSets hv1)) hv1
  clear_value v2
  exact kept_updBnd hv2

theorem kept_leadPoint {pg s} (h : Kept u₀ s) : Kept u₀ (leadPoint pg s) := by
  unfold leadPoint
  extract_lets +onlyGivenNames v0
  clear_value v0
  refine Kept.ite h ?_
  extract_lets +onlyGivenNames v1 v2
  have hv1 : Kept u₀ v1 := kept_updBnd h
  clear_value v1 v2
  exact Kept.ite (Kept.ite (kept_portInvalid (kept_updBnd (kept_set (kept_setCstate hv1)))) (kept_setCstate hv1)) hv1

theorem kept_reachBoundary {pg n s} (h : Kept u₀ s) : Kept u₀ (reachBoundary pg n s) := by
  unfold reachBoundary
  exact Kept.ite (kept_referenceInstant (kept_leadPoint h)) h

theorem kept_commitCancel {pg s} (h : Kept u₀ s) : Kept u₀ (commitCancel pg s) := by
  unfold commitCancel
  exact Kept.ite (kept_updBnd (kept_set (kept_setCstate h))) h

theorem kept_requestArrives {pg tgt s} (h : Kept u₀ s) : Kept u₀ (requestArrives pg tgt s) := by
  unfold requestArrives
  extract_lets +onlyGivenNames v0 v1
  clear_value v0
  have hv1 : ∀ x0, Kept u₀ x0 → Kept u₀ (v1 x0) := by
    unfold v1
    exact fun _ h2 => kept_updBnd (kept_setCstate h2)
  clear_value v1
  refine Kept.ite (hv1 _ h) ?_
  split
  · refine Kept.ite ?_ (hv1 _ h)
    extract_lets +onlyGivenNames v3
    have hv3 : Kept u₀ v3 := kept_sat (kept_set (hv1 _ h))
    clear_value v3
    exact kept_raise hv3
  · extract_lets +onlyGivenNames v4
    clear_value v4
    exact Kept.ite (kept_raise h) (hv1 _ h)

theorem kept_requestTested {pg tgt s} (h : Kept u₀ s) : Kept u₀ (requestTested pg tgt s) := by
  unfold requestTested
  exact Kept.ite (kept_portInvalid h) (kept_requestArrives h)

theorem kept_commitRequest {pg tgt s} (h : Kept u₀ s) : Kept u₀ (commitRequest pg tgt s) := by
  unfold commitRequest
  refine Kept.ite h ?_
  split
  · exact kept_requestTested h
  · exact kept_updBnd h
  · exact h

theorem kept_groupCancel {g s} (h : Kept u₀ s) : Kept u₀ (groupCancel g s) := by
  unfold groupCancel
  exact Kept.ite (kept_updGrp (kept_setGstate h)) h

theorem kept_groupRequest {g tgt s} (h : Kept u₀ s) : Kept u₀ (groupRequest g tgt s) := by
  unfold groupRequest
  split
  · exact kept_groupArrives h
  · exact kept_updGrp h
  · exact h

theorem kept_copyWindows {pg written s} (h : Kept u₀ s) : Kept u₀ (copyWindows pg written s) := by
  refine h.regs h.regsSorted (tsorted_foldl _ (tsorted_foldl _ (tsorted_tclear _ _ h.aptwSorted)
    fun _ _ hm => tsorted_tput _ _ hm) fun m e hm => ?_)
  split
  · exact tsorted_tput _ _ hm
  · exact hm

theorem kept_copyField {pg written f s} (h : Kept u₀ s) : Kept u₀ (copyField pg written f s) := by
  unfold copyField
  exact Kept.forAll h (fun _ _ h0 => Kept.ite h0 (kept_setShadow h0))

theorem kept_copySets {pg written s} (h : Kept u₀ s) : Kept u₀ (copySets pg written s) := by
  unfold copySets
  exact kept_copyWindows (Kept.forAll h (fun _ _ => kept_copyField))

theorem kept_copyBackDone {pg s} (h : Kept u₀ s) : Kept u₀ (copyBackDone pg s) := by
  unfold copyBackDone
  refine Kept.ite ?_ h
  extract_lets +onlyGivenNames v0 v1 v2
  clear_value v0
  have hv1 : Kept u₀ v1 := kept_updBnd (kept_setCstate (kept_copySets h))
  clear_value v1
  have hv2 : Kept u₀ v2 := by
    unfold v2
    split
    · exact kept_commitRequest hv1
    · exact hv1
  clear_value v2
  split
  · exact kept_groupSettle (fun _ _ => kept_groupArrives) (kept_updGrp hv2)
  · exact hv2

theorem kept_execCommitLeadPoint {pg s} (h : Kept u₀ s) : KeptO u₀ (execCommitLeadPoint pg s) := by
  unfold execCommitLeadPoint
  exact KeptO.next (kept_leadPoint h)

theorem kept_execCommitSwap {pg s} (h : Kept u₀ s) : KeptO u₀ (execCommitSwap pg s) := by
  unfold execCommitSwap
  exact KeptO.next (Kept.ite (kept_referenceInstant h) h)

theorem kept_execCopyBackDone {pg s} (h : Kept u₀ s) : KeptO u₀ (execCopyBackDone pg s) := by
  unfold execCopyBackDone
  exact KeptO.next (kept_copyBackDone h)

theorem kept_groupStopped {g s} (h : Kept u₀ s) : Kept u₀ (groupStopped g s) := by
  unfold groupStopped
  refine Kept.ite ?_ h
  extract_lets +onlyGivenNames v0 v1
  clear_value v0
  have hv1 : Kept u₀ v1 := kept_updGrp h
  clear_value v1
  exact Kept.ite (kept_groupInvalid (kept_setGstate hv1)) (Kept.forAll (kept_updGrp hv1) (fun _ _ => kept_swapMember))

theorem kept_stoppedSwap {pg s} (h : Kept u₀ s) : Kept u₀ (stoppedSwap pg s) := by
  unfold stoppedSwap
  refine Kept.ite h ?_
  split
  · exact kept_swapMember h
  · split
    · exact kept_groupStopped h
    · refine Kept.ite ?_ h
      split
      · exact kept_swapSets h
      · exact kept_setCstate h

theorem kept_execStoppedCommitSwap {pg s} (h : Kept u₀ s) : KeptO u₀ (execStoppedCommitSwap pg s) := by
  unfold execStoppedCommitSwap
  exact KeptO.next (kept_stoppedSwap h)

theorem kept_groupLead {g s} (h : Kept u₀ s) : Kept u₀ (groupLead g s) := by
  unfold groupLead
  extract_lets +onlyGivenNames v0 v1 v2
  clear_value v0 v1 v2
  refine Kept.ite ?_ h
  extract_lets +onlyGivenNames v3
  clear_value v3
  refine Kept.ite (kept_groupInvalid (kept_updGrp (kept_setGstate h))) ?_
  extract_lets +onlyGivenNames v4
  have hv4 : Kept u₀ v4 := kept_updGrp (kept_setGstate h)
  clear_value v4
  exact Kept.forAll hv4 (fun _ _ h5 => Kept.ite (kept_swapMember h5) (kept_setCstate h5))

theorem kept_execGroupLeadPoint {g s} (h : Kept u₀ s) : KeptO u₀ (execGroupLeadPoint g s) := by
  unfold execGroupLeadPoint
  exact KeptO.next (Kept.ite (kept_groupLead h) h)

theorem kept_lockAcquire {n owner s} (h : Kept u₀ s) : Kept u₀ (lockAcquire n owner s) := by
  unfold lockAcquire
  exact Kept.ite h (kept_stamp (kept_setI (kept_setI h)))

theorem kept_releaseDenied {n owner s} (h : Kept u₀ s) : Kept u₀ (releaseDenied n owner s) := by
  unfold releaseDenied
  exact kept_raise h

theorem kept_lockRelease {n owner s} (h : Kept u₀ s) : Kept u₀ (lockRelease n owner s) := by
  unfold lockRelease
  exact Kept.ite (kept_setI (kept_setI h)) (kept_releaseDenied h)

theorem kept_unmapped {addr wr s} (h : Kept u₀ s) : Kept u₀ (unmapped addr wr s) := by
  unfold unmapped
  exact kept_raise h

theorem kept_gate {pg apt off data owner k s} (hk : ∀ x0, Kept u₀ x0 → Kept u₀ (k x0)) (h : Kept u₀ s) : Kept u₀
    (gate pg apt off data owner k s) := by
  unfold gate
  refine Kept.ite h ?_
  refine Kept.ite (kept_unmapped h) ?_
  refine Kept.ite (kept_raise h) ?_
  split
  · exact kept_raise h
  · exact hk _ h

theorem kept_gateReg {pg off data owner k s} (hk : ∀ x0, Kept u₀ x0 → Kept u₀ (k x0)) (h : Kept u₀ s) : Kept u₀
    (gateReg pg off data owner k s) := by
  unfold gateReg
  exact kept_gate (fun _ => hk _) h

theorem kept_commitWrite {pg target en cancel req s} (h : Kept u₀ s) : Kept u₀ (commitWrite pg target en cancel req
    s) := by
  unfold commitWrite
  refine Kept.ite ?_ h
  extract_lets +onlyGivenNames v0 v1
  have hv0 : Kept u₀ v0 := kept_set (kept_set h)
  clear_value v0
  have hv1 : Kept u₀ v1 := Kept.ite (kept_commitCancel hv0) hv0
  clear_value v1
  exact Kept.ite (kept_commitRequest hv1) hv1

theorem kept_breakLocks {agent s} (h : Kept u₀ s) : Kept u₀ (breakLocks agent s) := by
  unfold breakLocks
  refine Kept.forAll h ?_
  intro _ _ h0
  extract_lets +onlyGivenNames v1
  clear_value v1
  exact Kept.ite (kept_raise (kept_setI (kept_setI (kept_setI h0)))) h0

theorem kept_groupWrite {g target en cancel req s} (h : Kept u₀ s) : Kept u₀ (groupWrite g target en cancel req s)
    := by
  unfold groupWrite
  extract_lets +onlyGivenNames v0 v1
  have hv0 : Kept u₀ v0 := kept_setI (kept_setI h)
  clear_value v0
  have hv1 : Kept u₀ v1 := Kept.ite (kept_groupCancel hv0) hv0
  clear_value v1
  exact Kept.ite (kept_groupRequest hv1) hv1

theorem kept_lockClearBroken {n owner s} (h : Kept u₀ s) : Kept u₀ (lockClearBroken n owner s) := by
  unfold lockClearBroken
  exact Kept.ite (kept_setI h) (kept_releaseDenied h)

theorem kept_eventClear {pg data s} (h : Kept u₀ s) : Kept u₀ (eventClear pg data s) := by
  unfold eventClear
  exact kept_set h

theorem kept_eventForce {pg data s} (h : Kept u₀ s) : Kept u₀ (eventForce pg data s) := by
  unfold eventForce
  refine Kept.forAll h ?_
  intro _ _ h0
  refine Kept.ite ?_ h0
  split
  · exact kept_raiseX h0
  · exact kept_stamp (kept_set h0)

theorem kept_execAccessBusError {addr size s} (h : Kept u₀ s) : KeptO u₀ (execAccessBusError addr size s) := by
  unfold execAccessBusError
  exact KeptO.next (Kept.ite (Kept.upd h) h)

theorem kept_execUnmappedAccess {addr wr s} (h : Kept u₀ s) : KeptO u₀ (execUnmappedAccess addr wr s) := by
  unfold execUnmappedAccess
  exact KeptO.next (Kept.ite (kept_unmapped (Kept.upd h)) h)

theorem kept_execCommitCancel {pg owner s} (h : Kept u₀ s) : KeptO u₀ (execCommitCancel pg owner s) := by
  unfold execCommitCancel
  extract_lets +onlyGivenNames v0 v1
  clear_value v0 v1
  exact KeptO.next (kept_gateReg (fun _ => kept_commitWrite) h)

theorem kept_execGroupRequest {g target en cancel owner s} (h : Kept u₀ s) : KeptO u₀ (execGroupRequest g target en
    cancel owner s) := by
  unfold execGroupRequest
  exact KeptO.next (Kept.ite (kept_gateReg (fun _ => kept_groupWrite) h) h)

theorem kept_execGroupCancel {g owner s} (h : Kept u₀ s) : KeptO u₀ (execGroupCancel g owner s) := by
  unfold execGroupCancel
  extract_lets +onlyGivenNames v0 v1
  clear_value v0 v1
  exact KeptO.next (Kept.ite (kept_gateReg (fun _ => kept_groupWrite) h) h)

theorem kept_execLockAcquire {n owner s} (h : Kept u₀ s) : KeptO u₀ (execLockAcquire n owner s) := by
  unfold execLockAcquire
  exact KeptO.next (Kept.ite (kept_gateReg (fun _ => kept_lockAcquire) h) h)

theorem kept_execLockRelease {n owner s} (h : Kept u₀ s) : KeptO u₀ (execLockRelease n owner s) := by
  unfold execLockRelease
  exact KeptO.next (Kept.ite (kept_gateReg (fun _ => kept_lockRelease) h) h)

theorem kept_execLockClearBroken {n owner s} (h : Kept u₀ s) : KeptO u₀ (execLockClearBroken n owner s) := by
  unfold execLockClearBroken
  exact KeptO.next (Kept.ite (kept_gateReg (fun _ => kept_lockClearBroken) h) h)

theorem kept_execEventStatusClear {pg mask s} (h : Kept u₀ s) : KeptO u₀ (execEventStatusClear pg mask s) := by
  unfold execEventStatusClear
  exact KeptO.next (Kept.ite (kept_eventClear h) h)

theorem kept_execEventForce {pg mask s} (h : Kept u₀ s) : KeptO u₀ (execEventForce pg mask s) := by
  unfold execEventForce
  exact KeptO.next (Kept.ite (kept_eventForce h) h)

theorem kept_execPoolDrain {s} (h : Kept u₀ s) : KeptO u₀ (execPoolDrain s) := KeptO.next (kept_drainPool h.poolLen h)

end Sys2Proof.Machine
end

