-- ==== Sys2Proof/Laws/KeptPosition.lean ====
section
/-! SUPPORT. The operations of position, the trackers and calibration keep the time, the queue and the canonical form. -/

-- One declaration after another: the package is also checked as one text, where too many threads would start at once.
set_option Elab.async false

namespace Sys2Proof.Machine

variable {u₀ : State}

theorem kept_setArmed {s u on} (h : Kept u₀ s) : Kept u₀ (State.setArmed s u on) := by
  unfold State.setArmed
  extract_lets +onlyGivenNames v0
  clear_value v0
  exact kept_set h

theorem kept_updPos {s ch f} (h : Kept u₀ s) : Kept u₀ (State.updPos s ch f) := by
  unfold State.updPos
  exact Kept.upd h

theorem kept_divPulse {d s} (h : Kept u₀ s) : Kept u₀ (divPulse d s).1 := by
  unfold divPulse
  extract_lets +onlyGivenNames v0 v1
  clear_value v0 v1
  split
  · extract_lets +onlyGivenNames v2
    have hv2 : Kept u₀ v2 := kept_satI h
    clear_value v2
    exact kept_raise hv2
  · extract_lets +onlyGivenNames v3
    clear_value v3
    exact Kept.upd h

theorem kept_divStep {d fwd s} (h : Kept u₀ s) : Kept u₀ (divStep d fwd s).1 := by
  unfold divStep
  extract_lets -merge -underBinder +onlyGivenNames v0 v1 v2 v3
  clear_value v0 v1 v2
  have hv3 : Kept u₀ v3 := Kept.ite (Kept.upd h) (kept_setI (kept_setI h))
  clear_value v3
  split
  · exact kept_divPulse hv3
  · exact hv3

theorem kept_divSteps {ch fwd s} (h : Kept u₀ s) : Kept u₀ (divSteps ch fwd s).1 := by
  unfold divSteps
  refine Kept.foldl1 h ?_
  intro _ _ h0
  extract_lets +onlyGivenNames v1
  have hv1 : Kept u₀ v1.1 := kept_divStep h0
  clear_value v1
  exact hv1

theorem kept_writeWhileRunning {pg off data apt s} (h : Kept u₀ s) : Kept u₀ (writeWhileRunning pg off data apt s)
    := by
  unfold writeWhileRunning
  exact kept_raise h

theorem kept_obsRestart {ch s} (h : Kept u₀ s) : Kept u₀ (obsRestart ch s) := by
  unfold obsRestart
  extract_lets +onlyGivenNames v0
  have hv0 : Kept u₀ v0 := kept_updPos h
  clear_value v0
  exact kept_set (kept_set hv0)

theorem kept_posStart {ch s} (h : Kept u₀ s) : Kept u₀ (posStart ch s) := by
  unfold posStart
  exact kept_obsRestart (kept_updPos h)

theorem kept_posStop {ch s} (h : Kept u₀ s) : Kept u₀ (posStop ch s) := by
  unfold posStop
  exact kept_updPos h

theorem kept_posDiscard {ch s} (h : Kept u₀ s) : Kept u₀ (posDiscard ch s) := by
  unfold posDiscard
  exact kept_updPos (kept_obsRestart h)

theorem kept_cmpDiscard {s} (h : Kept u₀ s) : Kept u₀ (cmpDiscard s) := by
  unfold cmpDiscard
  exact Kept.upd h

theorem kept_chPreset {ch s} (h : Kept u₀ s) : Kept u₀ (chPreset ch s) := by
  unfold chPreset
  refine Kept.ite ?_ (kept_writeWhileRunning h)
  extract_lets +onlyGivenNames v0
  clear_value v0
  exact kept_obsRestart (kept_updPos h)

theorem kept_mismatchClear {ch s} (h : Kept u₀ s) : Kept u₀ (mismatchClear ch s) := by
  unfold mismatchClear
  exact Kept.ite h (kept_set h)

theorem kept_divSync {d s} (h : Kept u₀ s) : Kept u₀ (divSync d s) := by
  unfold divSync
  extract_lets -merge -underBinder +onlyGivenNames v0 v1 v2 v3 v4
  clear_value v0 v1 v2 v3
  have hv4 : Kept u₀ v4 := Kept.upd h
  clear_value v4
  exact kept_setI (kept_setI hv4)

theorem kept_cmpPulse {u s} (h : Kept u₀ s) : Kept u₀ (cmpPulse u s) := by
  unfold cmpPulse
  extract_lets +onlyGivenNames v0 v1
  clear_value v0 v1
  refine Kept.ite h ?_
  extract_lets +onlyGivenNames v2 v3
  clear_value v2 v3
  exact Kept.upd h

theorem kept_cmpMatch {u s} (h : Kept u₀ s) : Kept u₀ (cmpMatch u s) := by
  unfold cmpMatch
  extract_lets +onlyGivenNames v0 v1 v2 v3 v4
  clear_value v0
  have hv1 : Kept u₀ v1 := kept_wrap (kept_cmpPulse h)
  clear_value v1
  have hv2 : Kept u₀ v2 := Kept.ite (kept_divSync hv1) hv1
  clear_value v2
  have hv3 : Kept u₀ v3 := Kept.ite (kept_raise hv2) hv2
  clear_value v3 v4
  refine Kept.ite (kept_setArmed hv3) ?_
  extract_lets +onlyGivenNames v5 v6
  clear_value v5
  have hv6 : Kept u₀ v6 := kept_setArmed (kept_set2 hv3)
  clear_value v6
  exact Kept.upd hv6

theorem kept_cmpJudge {u s} (h : Kept u₀ s) : Kept u₀ (cmpJudge u s) := by
  unfold cmpJudge
  extract_lets +onlyGivenNames v0
  clear_value v0
  refine Kept.ite (kept_setArmed h) ?_
  extract_lets +onlyGivenNames v1 v2 v3 v4
  clear_value v1 v2
  have hv3 : Kept u₀ v3 := kept_setArmed (kept_sat h)
  clear_value v3
  have hv4 : Kept u₀ v4 := kept_raise hv3
  clear_value v4
  exact Kept.ite (kept_cmpMatch hv4) hv4

theorem kept_cmpArm {u s} (h : Kept u₀ s) : Kept u₀ (cmpArm u s) := by
  unfold cmpArm
  refine Kept.ite h ?_
  extract_lets +onlyGivenNames v0 v1
  clear_value v0 v1
  exact kept_cmpJudge (Kept.upd h)

theorem kept_cmpArmAll {mask s} (h : Kept u₀ s) : Kept u₀ (cmpArmAll mask s) := by
  unfold cmpArmAll
  exact Kept.ite (Kept.forAll h (fun _ _ => kept_cmpArm)) h

theorem kept_cmpDisarm {u s} (h : Kept u₀ s) : Kept u₀ (cmpDisarm u s) := by
  unfold cmpDisarm
  refine Kept.ite ?_ h
  extract_lets +onlyGivenNames v0 v1
  have hv0 : Kept u₀ v0 := Kept.ite (kept_cmpMatch h) h
  clear_value v0
  have hv1 : Kept u₀ v1 := kept_setArmed hv0
  clear_value v1
  exact Kept.upd hv1

theorem kept_cmpDisarmAll {mask s} (h : Kept u₀ s) : Kept u₀ (cmpDisarmAll mask s) := by
  unfold cmpDisarmAll
  exact Kept.forAll h (fun _ _ => kept_cmpDisarm)

theorem kept_showSpeed {ch s} (h : Kept u₀ s) : Kept u₀ (showSpeed ch s) := by
  unfold showSpeed
  extract_lets +onlyGivenNames v0
  clear_value v0
  exact kept_set (kept_set h)

theorem kept_crossCheck {ch s} (h : Kept u₀ s) : Kept u₀ (crossCheck ch s) := by
  unfold crossCheck
  extract_lets +onlyGivenNames v0 v1 v2 v3 v4 v5 v6 v7 v8
  clear_value v0 v1 v2 v3 v4 v5 v6
  have hv7 : Kept u₀ v7 := kept_updPos h
  clear_value v7 v8
  refine Kept.ite hv7 ?_
  extract_lets -merge -underBinder +onlyGivenNames v9 v10 v11 v12 v13 v14 v15
  clear_value v9 v10 v11 v12
  have hv13 : Kept u₀ v13 := kept_set (kept_updPos hv7)
  clear_value v13 v14
  have hv15 : Kept u₀ v15 := Kept.upd hv13
  clear_value v15
  exact Kept.ite hv15 (kept_raise (kept_set hv15))

theorem kept_channelTick {ch s} (h : Kept u₀ s) : Kept u₀ (channelTick ch s) := by
  unfold channelTick
  extract_lets +onlyGivenNames v0 v1 v2 v3 v4 v5
  clear_value v0 v1 v2
  have hv3 : Kept u₀ v3 := kept_showSpeed (kept_updPos h)
  clear_value v3 v4
  have hv5 : Kept u₀ v5 := Kept.ite (kept_raise hv3) hv3
  clear_value v5
  exact kept_crossCheck hv5

theorem kept_cmpNext {s} (h : Kept u₀ s) : Kept u₀ (cmpNext s) := by
  unfold cmpNext
  refine Kept.ite ?_ h
  refine Kept.forAll h ?_
  intro _ _ h0
  extract_lets -merge -underBinder +onlyGivenNames v1 v2
  clear_value v1
  have hv2 : Kept u₀ v2 := Kept.upd h0
  clear_value v2
  exact Kept.ite (kept_cmpJudge hv2) hv2

theorem kept_countStep {ch reps t16 d s} (h : Kept u₀ s) : Kept u₀ (countStep ch reps t16 d s) := by
  unfold countStep
  extract_lets -merge -underBinder +onlyGivenNames v0
  have hv0 : Kept u₀ v0 := kept_updPos h
  clear_value v0
  exact Kept.ite (kept_set hv0) hv0

theorem kept_quadTransition {ch reps ab ph s} (h : Kept u₀ s) : Kept u₀ (quadTransition ch reps ab ph s).1 := by
  unfold quadTransition
  extract_lets +onlyGivenNames v0 v1 v2 v3 v4
  have hv4 : Kept u₀ v4 := Kept.foldl h fun _ _ h => Kept.ite (kept_updPos (Kept.ite (kept_countStep h) h)) h
  clear_value v0 v1 v2 v3 v4
  split
  · split
    · exact kept_raise (kept_sat hv4)
    · exact hv4
  · exact hv4

theorem kept_switchCode {ch reps code ph s} (h : Kept u₀ s) : Kept u₀ (switchCode ch reps code ph s).1 := by
  unfold switchCode
  extract_lets +onlyGivenNames v0 v1 v2 v3 v4 v5 v6 v7 v9
  have hv7 : Kept u₀ v7 := Kept.foldl h fun _ _ h => Kept.ite (kept_updPos (Kept.ite (kept_countStep h) h)) h
  have hv9 : Kept u₀ v9 := Kept.ite (kept_set hv7) hv7
  clear_value v0 v1 v2 v3 v4 v5 v6 v7 v9
  dsimp only
  split
  · split
    · exact kept_raise (kept_sat hv9)
    · split
      · exact kept_raise (kept_sat hv9)
      · exact hv9
  · exact hv9

theorem kept_indexEdge {ch reps z s} (h : Kept u₀ s) : Kept u₀ (indexEdge ch reps z s) := by
  unfold indexEdge
  extract_lets -merge -underBinder +onlyGivenNames v0 v1 v2 v3 v4 v5
  clear_value v0 v1 v2 v3 v4
  have hv5 : Kept u₀ v5 := kept_updPos h
  clear_value v5
  refine Kept.ite ?_ hv5
  extract_lets +onlyGivenNames v6 v7
  clear_value v6
  have hv7 : Kept u₀ v7 := kept_set (kept_set hv5)
  clear_value v7
  split
  · exact kept_raise (kept_sat (kept_set hv7))
  · exact hv7

theorem kept_execSsiFrameStart {ch s} (h : Kept u₀ s) : KeptO u₀ (execSsiFrameStart ch s) := by
  unfold execSsiFrameStart
  extract_lets +onlyGivenNames v0 v1 v2
  clear_value v0 v1 v2
  exact KeptO.next (Kept.ite (kept_updPos h) h)

theorem kept_execSsiFrameEnd {ch reps raw par dataHigh gapHigh s} (h : Kept u₀ s) : KeptO u₀ (execSsiFrameEnd ch
    reps raw par dataHigh gapHigh s) := by
  unfold execSsiFrameEnd
  extract_lets +onlyGivenNames v0 v1
  clear_value v0 v1
  refine KeptO.next ?_
  split
  · exact h
  · refine Kept.ite ?_ h
    extract_lets -merge -underBinder +onlyGivenNames v2 v3 v4 v5 v6
    clear_value v2 v3 v4 v5
    have hv6 : Kept u₀ v6 := kept_updPos h
    clear_value v6
    refine Kept.ite ?_ hv6
    refine Kept.ite (kept_raise (kept_sat hv6)) ?_
    extract_lets +onlyGivenNames v7
    clear_value v7
    exact Kept.ite hv6 (kept_set hv6)

theorem kept_execChPreset {ch owner s} (h : Kept u₀ s) : KeptO u₀ (execChPreset ch owner s) := by
  unfold execChPreset
  exact KeptO.next (Kept.ite (kept_gateReg (fun _ => kept_chPreset) h) h)

theorem kept_execReplicaMismatchClear {ch owner s} (h : Kept u₀ s) : KeptO u₀ (execReplicaMismatchClear ch owner s)
    := by
  unfold execReplicaMismatchClear
  exact KeptO.next (Kept.ite (kept_gateReg (fun _ => kept_mismatchClear) h) h)

theorem kept_execDivSync {d phase owner s} (h : Kept u₀ s) : KeptO u₀ (execDivSync d phase owner s) := by
  unfold execDivSync
  exact KeptO.next (Kept.ite (kept_gateReg (fun _ h0 => kept_divSync (kept_setI h0)) h) h)

theorem kept_execCmpArm {mask owner s} (h : Kept u₀ s) : KeptO u₀ (execCmpArm mask owner s) := by
  unfold execCmpArm
  exact KeptO.next (kept_gateReg (fun _ => kept_cmpArmAll) h)

theorem kept_execCmpDisarm {mask owner s} (h : Kept u₀ s) : KeptO u₀ (execCmpDisarm mask owner s) := by
  unfold execCmpDisarm
  exact KeptO.next (kept_gateReg (fun _ => kept_cmpDisarmAll) h)

theorem kept_execCompareMatch {u s} (h : Kept u₀ s) : KeptO u₀ (execCompareMatch u s) := by
  unfold execCompareMatch
  refine KeptO.next ?_
  refine Kept.ite ?_ h
  refine Kept.ite (kept_cmpMatch h) ?_
  refine Kept.ite ?_ h
  extract_lets +onlyGivenNames v0
  have hv0 : Kept u₀ v0 := kept_setArmed (kept_cmpMatch h)
  clear_value v0
  exact Kept.upd hv0

theorem kept_execCountCapture {ch off owner s} (h : Kept u₀ s) : KeptO u₀ (execCountCapture ch off owner s) := by
  unfold execCountCapture
  extract_lets +onlyGivenNames v0 v1 v2 v3
  clear_value v0 v1 v2 v3
  refine KeptO.next ?_
  refine Kept.ite h ?_
  refine Kept.ite ?_ ?_
  · extract_lets +onlyGivenNames v4
    have hv4 : Kept u₀ v4 := kept_updPos h
    clear_value v4
    exact Kept.upd hv4
  · refine Kept.ite ?_ h
    extract_lets +onlyGivenNames v5
    have hv5 : Kept u₀ v5 := kept_updPos h
    clear_value v5
    exact Kept.upd hv5

theorem kept_updPair {s f} (h : Kept u₀ s) : Kept u₀ (State.updPair s f) := by
  unfold State.updPair
  exact Kept.upd h

theorem kept_pairSend {type body s} (h : Kept u₀ s) : Kept u₀ (pairSend type body s) := by
  unfold pairSend
  exact Kept.ite (kept_updPair h) h

theorem kept_sendHeartbeat {s} (h : Kept u₀ s) : Kept u₀ (sendHeartbeat s) := by
  unfold sendHeartbeat
  refine Kept.ite h ?_
  extract_lets -merge -underBinder +onlyGivenNames v0 v1 v2 v3 v4 v5
  clear_value v0 v1 v2 v3 v4
  have hv5 : Kept u₀ v5 := kept_updPair h
  clear_value v5
  exact kept_pairSend hv5

theorem kept_setRole {r s} (h : Kept u₀ s) : Kept u₀ (setRole r s) := by
  unfold setRole
  exact kept_set h

theorem kept_fence {cause s} (h : Kept u₀ s) : Kept u₀ (fence cause s) := by
  unfold fence
  refine Kept.ite ?_ h
  extract_lets +onlyGivenNames v0 v1
  have hv0 : Kept u₀ v0 := kept_set (kept_set (kept_setRole h))
  clear_value v0
  have hv1 : Kept u₀ v1 := kept_updPair hv0
  clear_value v1
  exact kept_raise (kept_sendHeartbeat hv1)

theorem kept_pairPortFault {p s} (h : Kept u₀ s) : Kept u₀ (pairPortFault p s) := by
  unfold pairPortFault
  exact Kept.ite (kept_fence h) h

theorem kept_mirrorWrite {r reg off v s} (h : Kept u₀ s) : Kept u₀ (mirrorWrite r reg off v s) := by
  unfold mirrorWrite
  exact Kept.ite (kept_pairSend h) h

theorem kept_pairStart {s} (h : Kept u₀ s) : Kept u₀ (pairStart s) := by
  unfold pairStart
  extract_lets +onlyGivenNames v0
  have hv0 : Kept u₀ v0 := Kept.ite (kept_setRole h) h
  clear_value v0
  exact kept_updPair hv0

theorem kept_pairStop {s} (h : Kept u₀ s) : Kept u₀ (pairStop s) := by
  unfold pairStop
  extract_lets +onlyGivenNames v0
  have hv0 : Kept u₀ v0 := kept_set (kept_set (kept_setRole h))
  clear_value v0
  exact kept_updPair hv0

theorem kept_joinReady {s} (h : Kept u₀ s) : Kept u₀ (joinReady s) := by
  unfold joinReady
  split
  · exact Kept.ite (kept_updPair h) h
  · exact h

theorem kept_joinFail {reason s} (h : Kept u₀ s) : Kept u₀ (joinFail reason s) := by
  unfold joinFail
  refine Kept.ite ?_ h
  extract_lets +onlyGivenNames v0
  have hv0 : Kept u₀ v0 := kept_set (kept_setRole h)
  clear_value v0
  exact kept_raise (kept_updPair hv0)

theorem kept_pairDiscard {s} (h : Kept u₀ s) : Kept u₀ (pairDiscard s) := by
  unfold pairDiscard
  extract_lets +onlyGivenNames v0 v1 v2 v3
  have hv0 : Kept u₀ v0 := kept_breakLocks (kept_fence h)
  clear_value v0
  have hv1 : Kept u₀ v1 := Kept.ite hv0 (kept_setRole hv0)
  clear_value v1 v2 v3
  exact kept_updPair hv1

theorem kept_pairModeChanged {mode s} (h : Kept u₀ s) : Kept u₀ (pairModeChanged mode s) := by
  unfold pairModeChanged
  extract_lets +onlyGivenNames v0
  have hv0 : Kept u₀ v0 := Kept.ite (kept_fence h) h
  clear_value v0
  exact Kept.ite (kept_setRole hv0) hv0

theorem kept_lineCompare {p n l same s} (h : Kept u₀ s) : Kept u₀ (lineCompare p n l same s) := by
  unfold lineCompare
  extract_lets +onlyGivenNames v0
  clear_value v0
  refine Kept.ite (Kept.ite (kept_updPair h) h) ?_
  extract_lets +onlyGivenNames v1 v2 v3 v4
  clear_value v1
  have hv2 : Kept u₀ v2 := kept_set (kept_sat h)
  clear_value v2
  have hv3 : Kept u₀ v3 := kept_set (kept_set (kept_set hv2))
  clear_value v3
  have hv4 : Kept u₀ v4 := kept_raise hv3
  clear_value v4
  exact Kept.ite (kept_joinFail hv4) hv4

theorem kept_lineCrcIn {own p n l crc s} (h : Kept u₀ s) : Kept u₀ (lineCrcIn own p n l crc s) := by
  unfold lineCrcIn
  extract_lets +onlyGivenNames v0 v1 v2 v3
  clear_value v0 v1 v2
  have hv3 : ∀ x0 x1 x2, Kept u₀ x2 → Kept u₀ (v3 x0 x1 x2) := by
    unfold v3
    exact fun _ _ _ => kept_updPair
  clear_value v3
  split
  · exact kept_joinReady (kept_lineCompare (hv3 _ _ _ h))
  · extract_lets +onlyGivenNames v5
    clear_value v5
    exact Kept.ite (hv3 _ _ _ h) (kept_satI (hv3 _ _ _ h))

theorem kept_pairLine {p n l levels s} (h : Kept u₀ s) : Kept u₀ (pairLine p n l levels s) := by
  unfold pairLine
  refine Kept.ite ?_ h
  extract_lets +onlyGivenNames v0 v1
  clear_value v0
  have hv1 : Kept u₀ v1 := kept_pairSend h
  clear_value v1
  exact Kept.ite (kept_lineCrcIn hv1) hv1

theorem kept_pairStartLate {p s} (h : Kept u₀ s) : Kept u₀ (pairStartLate p s) := by
  unfold pairStartLate
  exact Kept.ite (kept_joinFail h) h

theorem kept_tenderCommit {r s} (h : Kept u₀ s) : Kept u₀ (tenderCommit r s) := by
  unfold tenderCommit
  extract_lets +onlyGivenNames v0
  clear_value v0
  refine Kept.ite ?_ (kept_commitWrite h)
  extract_lets +onlyGivenNames v1
  clear_value v1
  exact kept_pairSend (kept_commitWrite h)

theorem kept_pairLinkDown {s} (h : Kept u₀ s) : Kept u₀ (pairLinkDown s) := by
  unfold pairLinkDown
  exact Kept.ite (kept_fence h) h

theorem kept_proofWrite {p s} (h : Kept u₀ s) : Kept u₀ (proofWrite p s) := by
  unfold proofWrite
  split
  · exact h
  · extract_lets +onlyGivenNames v0 v1 v2
    have hv0 : Kept u₀ v0 := kept_updTrk h
    clear_value v0 v1 v2
    refine Kept.ite hv0 ?_
    extract_lets +onlyGivenNames v3 v4 v5 v6 v7
    clear_value v3 v4 v5 v6 v7
    exact kept_sdramWrite (kept_sdramWrite hv0)

theorem kept_proofEnd {p s} (h : Kept u₀ s) : Kept u₀ (proofEnd p s) := by
  unfold proofEnd
  exact kept_proofWrite (kept_updTrk h)

theorem kept_proofBegin {p row part s} (h : Kept u₀ s) : Kept u₀ (proofBegin p row part s) := by
  unfold proofBegin
  extract_lets +onlyGivenNames v0 v1 v2
  clear_value v0 v1
  have hv2 : ∀ x0 x1, Kept u₀ x1 → Kept u₀ (v2 x0 x1) := by
    unfold v2
    exact fun _ _ => kept_updTrk
  clear_value v2
  refine Kept.ite (hv2 _ _ h) ?_
  refine Kept.ite (Kept.ite (hv2 _ _ h) (hv2 _ _ (kept_sdramWrite h))) ?_
  extract_lets +onlyGivenNames v4
  have hv4 : Kept u₀ v4 := kept_sat (hv2 _ _ h)
  clear_value v4
  exact kept_raise hv4

theorem kept_proofLine {p n target dw flight jump levels s} (h : Kept u₀ s) : Kept u₀ (proofLine p n target dw
    flight jump levels s) := by
  unfold proofLine
  refine Kept.ite ?_ h
  extract_lets -merge -underBinder +onlyGivenNames v0 v1 v2 v3
  clear_value v0
  have hv1 : Kept u₀ v1 := Kept.ite (kept_updTrk h) h
  clear_value v1
  have hv2 : Kept u₀ v2 := by
    unfold v2
    split
    · exact Kept.ite hv1 (kept_proofBegin (kept_proofWrite hv1))
    · exact kept_proofBegin hv1
  clear_value v2 v3
  exact kept_updTrk hv2

theorem kept_updTrkPort {s p f} (h : Kept u₀ s) : Kept u₀ (State.updTrkPort s p f) := by
  unfold State.updTrkPort
  exact kept_updTrk h

theorem kept_addLag {row sum s} (h : Kept u₀ s) : Kept u₀ (addLag row sum s) := by
  unfold addLag
  exact kept_updTrk h

theorem kept_addTerm {k x i v s} (h : Kept u₀ s) : Kept u₀ (addTerm k x i v s) := by
  unfold addTerm
  exact kept_roomPut h

theorem kept_addUnit {row cs x a s} (h : Kept u₀ s) : Kept u₀ (addUnit row cs x a s) := by
  unfold addUnit
  extract_lets -merge -underBinder +onlyGivenNames v0 v1 v2 v3
  clear_value v0 v1 v2
  have hv3 : Kept u₀ v3 := by
    unfold v3
    refine Kept.forAll h ?_
    intro _ _ h4
    extract_lets +onlyGivenNames v5
    have hv5 : Kept u₀ v5 := Kept.forAll h4 (fun _ _ => kept_addTerm)
    clear_value v5
    exact Kept.forAll hv5 (fun _ _ => kept_addTerm)
  clear_value v3
  exact kept_roomPut hv3

theorem kept_setEntry {p n f s} (h : Kept u₀ s) : Kept u₀ (setEntry p n f s) := by
  unfold setEntry
  extract_lets +onlyGivenNames v0 v1
  clear_value v0 v1
  exact kept_mirrorWrite (kept_setApt h)

theorem kept_tenderRelease {r s} (h : Kept u₀ s) : Kept u₀ (tenderRelease r s) := by
  unfold tenderRelease
  split
  · exact Kept.ite (kept_lockRelease h) h
  · exact h

theorem kept_setTrkState {v s} (h : Kept u₀ s) : Kept u₀ (setTrkState v s) := by
  unfold setTrkState
  exact kept_set h

theorem kept_trkStart {s} (h : Kept u₀ s) : Kept u₀ (trkStart s) := by
  unfold trkStart
  extract_lets +onlyGivenNames v0
  clear_value v0
  exact Kept.ite (kept_raise (kept_set h)) (kept_startBoundary (kept_setTrkState (kept_updTrk h)))

theorem kept_clearTerms {s} (h : Kept u₀ s) : Kept u₀ (clearTerms s) := h.room (twf_tclear _ _ h.roomWf)

theorem kept_trkAbandon {s} (h : Kept u₀ s) : Kept u₀ (trkAbandon s) := by
  unfold trkAbandon
  extract_lets +onlyGivenNames v0
  have hv0 : Kept u₀ v0 := Kept.forAll h (fun _ _ h1 => Kept.ite (kept_tenderRelease h1) h1)
  clear_value v0
  exact kept_updTrk (kept_clearTerms hv0)

theorem kept_trkStop {s} (h : Kept u₀ s) : Kept u₀ (trkStop s) := by
  unfold trkStop
  exact kept_set (kept_setTrkState (kept_trkAbandon h))

theorem kept_deferred {p why s} (h : Kept u₀ s) : Kept u₀ (deferred p why s) := by
  unfold deferred
  exact kept_raise h

theorem kept_trkScreenReset {r s} (h : Kept u₀ s) : Kept u₀ (trkScreenReset r s) := by
  unfold trkScreenReset
  extract_lets +onlyGivenNames v0
  clear_value v0
  exact kept_updTrk (Kept.forAll h (fun _ _ h1 => kept_deferred (kept_updTrkPort h1)))

theorem kept_updateReq {first mask n s} (h : Kept u₀ s) : Kept u₀ (updateReq first mask n s) := by
  unfold updateReq
  exact Kept.forAll h (fun _ _ => kept_updTrkPort)

theorem kept_phase2Check {s} (h : Kept u₀ s) : Kept u₀ (phase2Check s) := by
  unfold phase2Check
  exact Kept.ite (kept_updTrk h) h

theorem kept_trkFault {r s} (h : Kept u₀ s) : Kept u₀ (trkFault r s) := by
  unfold trkFault
  extract_lets +onlyGivenNames v0
  have hv0 : Kept u₀ v0 := Kept.ite (kept_setTrkState (kept_updTrk (kept_clearTerms h))) h
  clear_value v0
  exact kept_phase2Check (kept_updTrk hv0)

theorem kept_solveSkipped {why s} (h : Kept u₀ s) : Kept u₀ (solveSkipped why s) := by
  unfold solveSkipped
  exact kept_raise (kept_setTrkState (kept_clearTerms h))

theorem kept_windowEnd {s} (h : Kept u₀ s) : Kept u₀ (windowEnd s) := by
  unfold windowEnd
  dsimp only
  have h4 : ∀ n, Kept u₀ (reachBoundary pgTrk n (setTrkState 2 (s.set F.Dtrk.SOLVE_NUMBER pgTrk n))) := fun _ =>
    kept_reachBoundary (kept_setTrkState (kept_set h))
  have h6 : ∀ (a : State) f, Kept u₀ a → Kept u₀ { a.updTrk f with freeIx := a.freeIx + 54 } := fun _ _ ha =>
    (kept_updTrk ha).freeIx (Nat.le_add_right _ _)
  have h8 := fun f => kept_set (f := F.Dtrk.ROWS_MATCHED) (pg := pgTrk) (v := 0) (h6 _ f (h4 (low 32 (s.get
      F.Dtrk.SOLVE_NUMBER pgTrk + 1))))
  have hl : ∀ (c : Prop) [Decidable c] (a b : State), Kept u₀ a → Kept u₀ b → Kept u₀ (if c then a else b) := fun _
      _ _ _ => Kept.ite
  refine hl _ _ _ (kept_solveSkipped ?_) (hl _ _ _ (kept_solveSkipped ?_) (hl _ _ _ (kept_solveSkipped ?_)
    (hl _ _ _ (kept_solveSkipped ?_) (kept_updTrk ?_))))
  all_goals exact Kept.ite (kept_set (h8 _)) (kept_raise (kept_set (kept_set (h8 _))))

theorem kept_trackLine {m s} (h : Kept u₀ s) : Kept u₀ (trackLine m s) := by
  unfold trackLine
  extract_lets +onlyGivenNames v0 v1 v2 v3 v4 v5 v6 v7
  clear_value v0 v1
  have hv2 : Kept u₀ v2 := Kept.ite (kept_updTrk h) h
  clear_value v2 v3
  have hv4 : Kept u₀ v4 := Kept.ite (kept_windowEnd hv2) hv2
  clear_value v4 v5 v6
  have hv7 : Kept u₀ v7 := Kept.ite hv4 (Kept.forAll hv4 (fun _ _ => kept_sdramRead))
  clear_value v7
  refine Kept.ite ?_ ?_
  · extract_lets +onlyGivenNames v9
    have hv9 : Kept u₀ v9 := kept_set (kept_sat hv7)
    clear_value v9
    exact kept_raise hv9
  · extract_lets +onlyGivenNames v10 v11 v12 v13 v14
    clear_value v10 v11
    have hv12 : Kept u₀ v12 := kept_addLag (kept_updTrk hv7)
    clear_value v12
    have hv13 : Kept u₀ v13 := kept_set hv12
    clear_value v13 v14
    exact Kept.forAll hv13 (fun _ _ => kept_addUnit)

theorem kept_execTrackerLine {s} (h : Kept u₀ s) : KeptO u₀ (execTrackerLine s) := by
  unfold execTrackerLine
  refine KeptO.next ?_
  split
  · exact h
  · extract_lets +onlyGivenNames v0
    have hv0 : Kept u₀ v0 := kept_updPipe h
    clear_value v0
    exact Kept.ite hv0 (Kept.ite h (kept_trackLine hv0))

theorem kept_nozzleSolved {p n v found s} (h : Kept u₀ s) : Kept u₀ (nozzleSolved p n v found s) := by
  unfold nozzleSolved
  extract_lets +onlyGivenNames v0
  clear_value v0
  refine Kept.ite ?_ (kept_setNoz h)
  extract_lets +onlyGivenNames v1 v2 v3
  clear_value v1
  have hv2 : Kept u₀ v2 := kept_sat (kept_setNoz h)
  clear_value v2
  have hv3 : Kept u₀ v3 := Kept.ite hv2 (kept_updTrk hv2)
  clear_value v3
  exact kept_raise hv3

theorem kept_portSolved {found p s} (h : Kept u₀ s) : Kept u₀ (portSolved found p s) := by
  unfold portSolved
  extract_lets +onlyGivenNames v0 v1 v2
  clear_value v0 v1 v2
  refine Kept.forAll h ?_
  intro _ _ h3
  refine Kept.ite ?_ h3
  split
  · exact kept_nozzleSolved h3
  · exact h3

theorem kept_execSolvePhase1End {s} (h : Kept u₀ s) : KeptO u₀ (execSolvePhase1End s) := by
  unfold execSolvePhase1End
  refine KeptO.next ?_
  split
  · refine Kept.ite ?_ h
    extract_lets +onlyGivenNames v0 v1 v2 v3 v4 v6
    have hv2 : Kept u₀ v2 := kept_setTrkState (kept_clearTerms (h.freeIx (Nat.le_succ _)))
    have hv3 : Kept u₀ v3 := kept_set hv2
    have hv4 : Kept u₀ v4 := Kept.forAll hv3 (fun _ _ => kept_portSolved)
    clear_value v0 v1 v2 v3 v4 v6
    exact kept_phase2Check (kept_updTrk hv4)
  · exact h

theorem kept_portUpdate {p s} (h : Kept u₀ s) : Kept u₀ (portUpdate p s).1 := by
  unfold portUpdate
  extract_lets -merge -underBinder +onlyGivenNames v0 v1 v2 v3 v4 v5 v6 v7
  clear_value v0 v1 v2 v3 v4
  have hv5 : Kept u₀ v5 := Kept.forAll h (fun _ _ => kept_setNoz)
  clear_value v5
  have hv6 : Kept u₀ v6 := Kept.ite hv5 (Kept.forAll hv5 (fun _ _ => kept_setEntry))
  clear_value v6
  have hv7 : Kept u₀ v7 := by
    unfold v7
    split
    · exact hv6
    · exact kept_raise (kept_satI hv6)
  clear_value v7
  split
  · exact hv7
  · extract_lets +onlyGivenNames v10
    have hv10 : Kept u₀ v10 := kept_raise (kept_wrap hv7)
    clear_value v10
    exact kept_updTrkPort hv10

theorem kept_writeMissing {r s} (h : Kept u₀ s) : Kept u₀ (writeMissing r s) := by
  unfold writeMissing
  extract_lets -merge -underBinder +onlyGivenNames v0 v1
  clear_value v0
  have hv1 : Kept u₀ v1 := by
    unfold v1
    refine Kept.forAll h ?_
    intro _ _ h2
    extract_lets +onlyGivenNames v3
    have hv3 : Kept u₀ v3 := kept_setEntry h2
    clear_value v3
    refine Kept.ite ?_ hv3
    extract_lets +onlyGivenNames v4 v5 v6
    have hv4 : Kept u₀ v4 := kept_setShadow hv3
    clear_value v4 v5 v6
    exact kept_mirrorWrite hv4
  clear_value v1
  exact kept_updTrk hv1

theorem kept_execGainUpdateWrite {r s} (h : Kept u₀ s) : KeptO u₀ (execGainUpdateWrite r s) := by
  unfold execGainUpdateWrite
  extract_lets +onlyGivenNames v0 v1
  clear_value v0 v1
  refine KeptO.next ?_
  refine Kept.ite h ?_
  split
  · exact h
  · extract_lets +onlyGivenNames v2 v3
    have hv2 : Kept u₀ v2 := kept_lockAcquire h
    clear_value v2 v3
    refine Kept.ite ?_ hv2
    extract_lets -merge -underBinder +onlyGivenNames v4 v5
    have hv4 : Kept u₀ v4.1 := by
      unfold v4
      refine Kept.foldl1 hv2 ?_
      intro _ _ h6
      extract_lets +onlyGivenNames v7
      have hv7 : Kept u₀ v7.1 := kept_portUpdate h6
      clear_value v7
      exact hv7
    clear_value v4
    have hv5 : Kept u₀ v5 := Kept.ite hv4 (kept_tenderCommit (kept_updTrk (kept_writeMissing hv4)))
    clear_value v5
    exact kept_phase2Check (kept_updTrk (kept_tenderRelease hv5))

theorem kept_execUpdateLockTimeout {r s} (h : Kept u₀ s) : KeptO u₀ (execUpdateLockTimeout r s) := by
  unfold execUpdateLockTimeout
  extract_lets +onlyGivenNames v0 v1
  clear_value v0 v1
  exact KeptO.next (Kept.ite (kept_phase2Check (kept_updTrk (Kept.forAll h (fun _ _ => kept_deferred)))) h)

theorem kept_execUpdateReq {hi mask owner s} (h : Kept u₀ s) : KeptO u₀ (execUpdateReq hi mask owner s) := by
  unfold execUpdateReq
  exact KeptO.next (kept_gateReg (fun _ => kept_updateReq) h)

theorem kept_execUpdateIntervalExpiry {p s} (h : Kept u₀ s) : KeptO u₀ (execUpdateIntervalExpiry p s) := by
  unfold execUpdateIntervalExpiry
  extract_lets +onlyGivenNames v0
  clear_value v0
  exact KeptO.next (Kept.ite (kept_updTrkPort h) h)

theorem kept_updTdc {s d f} (h : Kept u₀ s) : Kept u₀ (State.updTdc s d f) := by
  unfold State.updTdc
  exact Kept.upd h

theorem kept_tdcEdge {ch b reps ph s} (h : Kept u₀ s) : Kept u₀ (tdcEdge ch b reps ph s) := by
  unfold tdcEdge
  extract_lets +onlyGivenNames v0
  clear_value v0
  refine Kept.forAll h ?_
  intro _ _ h1
  refine Kept.ite ?_ h1
  extract_lets -merge -underBinder +onlyGivenNames v2
  have hv2 : Kept u₀ v2 := kept_updTdc h1
  clear_value v2
  exact kept_setI hv2

theorem kept_tdcDiscard {s} (h : Kept u₀ s) : Kept u₀ (tdcDiscard s) := by
  unfold tdcDiscard
  exact Kept.forAll h (fun _ _ => kept_updTdc)

theorem kept_setTdcPhase {d v s} (h : Kept u₀ s) : Kept u₀ (setTdcPhase d v s) := by
  unfold setTdcPhase
  extract_lets +onlyGivenNames v0
  clear_value v0
  exact kept_set h

theorem kept_tdcStart {d s} (h : Kept u₀ s) : Kept u₀ (tdcStart d s) := by
  unfold tdcStart
  exact Kept.ite h (kept_updTdc (kept_setI (kept_setTdcPhase h)))

theorem kept_tdcRuns {mask s} (h : Kept u₀ s) : Kept u₀ (tdcRuns mask s) := by
  unfold tdcRuns
  exact Kept.forAll h (fun _ _ h0 => Kept.ite (kept_tdcStart h0) h0)

theorem kept_execTdcRun {mask owner s} (h : Kept u₀ s) : KeptO u₀ (execTdcRun mask owner s) := by
  unfold execTdcRun
  exact KeptO.next (kept_gateReg (fun _ => kept_tdcRuns) h)

theorem kept_tdcReject {d unit why s} (h : Kept u₀ s) : Kept u₀ (tdcReject d unit why s) := by
  unfold tdcReject
  extract_lets +onlyGivenNames v0 v1
  clear_value v0
  have hv1 : Kept u₀ v1 := kept_updTdc h
  clear_value v1
  exact Kept.ite hv1 (kept_raise (kept_sat hv1))

theorem kept_tdcEnd {d s} (h : Kept u₀ s) : Kept u₀ (tdcEnd d s) := by
  unfold tdcEnd
  extract_lets +onlyGivenNames v0 v1
  clear_value v0
  have hv1 : Kept u₀ v1 := kept_setTdcPhase h
  clear_value v1
  exact Kept.ite hv1 (kept_raise (kept_wrapI (kept_setI hv1)))

theorem kept_execTdcCollectionEnd {d s} (h : Kept u₀ s) : KeptO u₀ (execTdcCollectionEnd d s) := by
  unfold execTdcCollectionEnd
  extract_lets +onlyGivenNames v0
  clear_value v0
  refine KeptO.next ?_
  refine Kept.ite ?_ h
  extract_lets -merge -underBinder +onlyGivenNames v1
  have hv1 : Kept u₀ v1 := by
    unfold v1
    refine Kept.forAll h ?_
    intro _ _ h2
    extract_lets +onlyGivenNames v3 v4 v5 v6 v7
    clear_value v3 v4 v5
    have hv6 : Kept u₀ v6 := kept_setAptBytes h2
    clear_value v6 v7
    exact Kept.ite (kept_updTdc hv6) (kept_tdcReject hv6)
  clear_value v1
  exact Kept.ite (kept_tdcEnd hv1) (kept_setTdcPhase hv1)

theorem kept_execTdcLoopbackEnd {d launches s} (h : Kept u₀ s) : KeptO u₀ (execTdcLoopbackEnd d launches s) := by
  unfold execTdcLoopbackEnd
  extract_lets +onlyGivenNames v0
  clear_value v0
  refine KeptO.next ?_
  refine Kept.ite ?_ h
  refine kept_tdcEnd ?_
  refine Kept.forAll h ?_
  intro _ _ h1
  extract_lets +onlyGivenNames v2 v3 v4 v5 v6
  clear_value v2 v3 v4
  have hv5 : Kept u₀ v5 := kept_setAptBytes h1
  clear_value v5 v6
  refine Kept.ite ?_ (kept_tdcReject hv5)
  extract_lets +onlyGivenNames v7
  clear_value v7
  exact kept_updTdc hv5

theorem kept_execTdcTableSwap {d s} (h : Kept u₀ s) : KeptO u₀ (execTdcTableSwap d s) := by
  unfold execTdcTableSwap
  refine KeptO.next ?_
  refine Kept.ite ?_ h
  extract_lets +onlyGivenNames v0
  have hv0 : Kept u₀ v0 := Kept.forAll h (fun _ _ => kept_setAptBytes)
  clear_value v0
  exact kept_updTdc hv0

theorem kept_tdcAuto {s} (h : Kept u₀ s) : Kept u₀ (tdcAuto s) := by
  unfold tdcAuto
  refine Kept.forAll h ?_
  intro _ _ h0
  extract_lets +onlyGivenNames v1
  clear_value v1
  exact Kept.ite (kept_tdcStart h0) h0

theorem kept_updJrn {s f} (h : Kept u₀ s) : Kept u₀ (State.updJrn s f) := by
  unfold State.updJrn
  exact Kept.upd h

theorem kept_setArea {l s} (h : Kept u₀ s) : Kept u₀ (setArea l s) := by
  unfold setArea
  exact Kept.ite (kept_updJrn h) (kept_updJrn h)

theorem kept_journalNext {s} (h : Kept u₀ s) : Kept u₀ (journalNext s) := by
  unfold journalNext
  extract_lets +onlyGivenNames v0
  clear_value v0
  refine Kept.ite h ?_
  split
  · exact kept_updJrn h
  · split
    · exact h
    · exact Kept.ite (kept_updJrn h) (kept_updJrn h)

theorem kept_journalDrop {type key s} (h : Kept u₀ s) : Kept u₀ (journalDrop type key s) := by
  unfold journalDrop
  extract_lets +onlyGivenNames v0
  clear_value v0
  exact kept_journalNext (kept_updJrn h)

theorem kept_journalAsk {o s} (h : Kept u₀ s) : Kept u₀ (journalAsk o s) := by
  unfold journalAsk
  exact kept_journalNext (kept_updJrn h)

theorem kept_updCal {s f} (h : Kept u₀ s) : Kept u₀ (State.updCal s f) := by
  unfold State.updCal
  exact Kept.upd h

theorem kept_applyNozzle {p n s} (h : Kept u₀ s) : Kept u₀ (applyNozzle p n s) := by
  unfold applyNozzle
  extract_lets +onlyGivenNames v0 v1 v2 v3
  clear_value v0 v1 v2
  have hv3 : ∀ x0 x1, Kept u₀ x1 → Kept u₀ (v3 x0 x1) := by
    unfold v3
    exact fun _ _ => kept_setEntry
  clear_value v3
  refine Kept.ite (hv3 _ _ h) ?_
  refine Kept.ite ?_ (hv3 _ _ h)
  extract_lets +onlyGivenNames v5
  have hv5 : Kept u₀ v5.2 := kept_free h
  clear_value v5
  exact hv3 _ _ hv5

theorem kept_applyTone {r k s} (h : Kept u₀ s) : Kept u₀ (applyTone r k s) := by
  unfold applyTone
  extract_lets +onlyGivenNames v0 v1
  clear_value v0 v1
  exact kept_mirrorWrite (kept_setApt h)

theorem kept_applyRegion {cats r s} (h : Kept u₀ s) : Kept u₀ (applyRegion cats r s) := by
  unfold applyRegion
  extract_lets +onlyGivenNames v0
  have hv0 : Kept u₀ v0 := Kept.ite (Kept.forAll h (fun _ _ => kept_applyTone)) h
  clear_value v0
  exact Kept.ite (Kept.forAll hv0 (fun _ _ h2 => Kept.forAll h2 (fun _ _ => kept_applyNozzle))) hv0

theorem kept_applyTender {r s} (h : Kept u₀ s) : Kept u₀ (applyTender r s) := by
  unfold applyTender
  extract_lets +onlyGivenNames v0 v1 v2
  clear_value v0
  have hv1 : ∀ x0, Kept u₀ x0 → Kept u₀ (v1 x0) := by
    unfold v1
    exact fun _ h3 => kept_updCal (kept_applyRegion h3)
  clear_value v1 v2
  refine Kept.ite h ?_
  split
  · exact Kept.ite (hv1 _ h) h
  · extract_lets +onlyGivenNames v4
    have hv4 : Kept u₀ v4 := kept_lockAcquire h
    clear_value v4
    exact Kept.ite (kept_tenderRelease (hv1 _ hv4)) hv4

theorem kept_setDirty {c v s} (h : Kept u₀ s) : Kept u₀ (setDirty c v s) := by
  unfold setDirty
  extract_lets +onlyGivenNames v0
  clear_value v0
  exact kept_set h

theorem kept_setCalValid {c v s} (h : Kept u₀ s) : Kept u₀ (setCalValid c v s) := by
  unfold setCalValid
  extract_lets +onlyGivenNames v0
  clear_value v0
  exact kept_set h

theorem kept_calLeave {c fail s} (h : Kept u₀ s) : Kept u₀ (calLeave c fail s) := by
  unfold calLeave
  extract_lets +onlyGivenNames v0
  have hv0 : Kept u₀ v0 := kept_updCal h
  clear_value v0
  exact Kept.ite (kept_set hv0) hv0

theorem kept_calFail {reason c s} (h : Kept u₀ s) : Kept u₀ (calFail reason c s) := by
  unfold calFail
  exact kept_raise (kept_calLeave h)

theorem kept_calWrite {off v s} (h : Kept u₀ s) : Kept u₀ (calWrite off v s) := by
  unfold calWrite
  split
  · refine Kept.ite h ?_
    extract_lets +onlyGivenNames v0
    have hv0 : Kept u₀ v0 := kept_setDirty (kept_setCalValid (kept_setApt h))
    clear_value v0
    exact Kept.ite (kept_calFail (kept_journalDrop hv0)) hv0
  · exact h

theorem kept_calDiscard {s} (h : Kept u₀ s) : Kept u₀ (calDiscard s) := by
  unfold calDiscard
  extract_lets +onlyGivenNames v0
  have hv0 : Kept u₀ v0 := Kept.forAll h (fun _ _ => kept_journalDrop)
  clear_value v0
  exact kept_updCal hv0

theorem kept_screenFill {r s} (h : Kept u₀ s) : Kept u₀ (screenFill r s) := by
  unfold screenFill
  extract_lets +onlyGivenNames v0 v1
  have hv0 : ∀ x0 x1 x2, Kept u₀ x2 → Kept u₀ (v0 x0 x1 x2) := by
    unfold v0
    exact fun _ _ _ h2 => kept_setApt (kept_setApt h2)
  clear_value v0
  have hv1 : Kept u₀ v1 := Kept.forAll h (fun _ _ => hv0 _ _ _)
  clear_value v1
  exact Kept.forAll hv1 (fun _ _ => hv0 _ _ _)

theorem kept_tdcReady {s} (h : Kept u₀ s) : Kept u₀ (tdcReady s) := by
  unfold tdcReady
  extract_lets +onlyGivenNames v0
  clear_value v0
  refine Kept.forAll h ?_
  intro _ _ h1
  extract_lets +onlyGivenNames v2
  have hv2 : Kept u₀ v2 := Kept.forAll h1 (fun _ _ => kept_setAptBytes)
  clear_value v2
  split
  · exact Kept.ite hv2 (kept_setI hv2)
  · exact hv2

theorem kept_calRestore {s} (h : Kept u₀ s) : Kept u₀ (calRestore s) := by
  unfold calRestore
  refine Kept.forAll h ?_
  intro c t h0
  extract_lets +onlyGivenNames v1
  clear_value v1
  split
  · exact Kept.ite (kept_setCalValid (kept_setI (kept_setAptBytes h0))) (kept_setI (kept_setCalValid h0))
  · have hv2 : Kept u₀ ((setCalValid c false t).setI F.Cal.USER_CRC pgCal c 0) := kept_setI (kept_setCalValid h0)
    exact hv2.regs hv2.regsSorted (tsorted_tclear _ _ hv2.aptwSorted)

theorem kept_calCapture {s} (h : Kept u₀ s) : Kept u₀ (calCapture s) := by
  unfold calCapture
  refine Kept.ite h ?_
  extract_lets +onlyGivenNames v0 v1 v2 v3 v4 v5
  clear_value v0
  have hv1 : ∀ x0 x1, Kept u₀ x1 → Kept u₀ (v1 x0 x1).2 := by
    unfold v1
    intro _ _ h6
    split
    · exact h6
    · exact kept_free h6
  clear_value v1
  have hv2 : Kept u₀ v2.2 := hv1 _ _ h
  clear_value v2
  have hv3 : Kept u₀ v3.2 := hv1 _ _ hv2
  clear_value v3
  have hv4 : Kept u₀ v4 := kept_calWrite (kept_calWrite hv3)
  clear_value v4
  have hv5 : Kept u₀ v5 := Kept.forAll hv4 (fun _ _ => kept_calWrite)
  clear_value v5
  exact Kept.forAll hv5 (fun _ _ => kept_calWrite)

theorem kept_calWithdraw {cats s} (h : Kept u₀ s) : Kept u₀ (calWithdraw cats s) := by
  unfold calWithdraw
  exact Kept.ite h (Kept.forAll h (fun _ _ => kept_setCalValid))

theorem kept_calSave {cats s} (h : Kept u₀ s) : Kept u₀ (calSave cats s) := by
  unfold calSave
  refine Kept.ite h ?_
  refine Kept.ite (kept_set h) ?_
  extract_lets +onlyGivenNames v0
  have hv0 : Kept u₀ v0 := kept_updCal (kept_set h)
  clear_value v0
  exact Kept.ite (Kept.forAll hv0 (fun _ _ => kept_journalAsk)) (Kept.forAll hv0 (fun _ _ => kept_calFail))

theorem kept_calToTdc {cats s} (h : Kept u₀ s) : Kept u₀ (calToTdc cats s) := by
  unfold calToTdc
  refine Kept.forAll h ?_
  intro _ _ h0
  extract_lets +onlyGivenNames v1 v2
  clear_value v1
  have hv2 : Kept u₀ v2 := kept_updTdc h0
  clear_value v2
  split
  · exact kept_setI hv2
  · exact hv2

theorem kept_calApply {cats s} (h : Kept u₀ s) : Kept u₀ (calApply cats s) := by
  unfold calApply
  refine Kept.ite h ?_
  extract_lets +onlyGivenNames v0 v1
  clear_value v0
  have hv1 : Kept u₀ v1 := kept_updCal (kept_set h)
  clear_value v1
  exact Kept.forAll (Kept.ite (kept_calToTdc hv1) hv1) (fun _ _ => kept_applyTender)

theorem kept_calCtrl {cats capture withdraw save apply_ s} (h : Kept u₀ s) : Kept u₀ (calCtrl cats capture withdraw
    save apply_ s) := by
  unfold calCtrl
  extract_lets +onlyGivenNames v0 v1 v2 v3
  have hv0 : Kept u₀ v0 := kept_set h
  clear_value v0
  have hv1 : Kept u₀ v1 := Kept.ite (kept_calCapture hv0) hv0
  clear_value v1
  have hv2 : Kept u₀ v2 := Kept.ite (kept_calWithdraw hv1) hv1
  clear_value v2
  have hv3 : Kept u₀ v3 := Kept.ite (kept_calSave hv2) hv2
  clear_value v3
  exact Kept.ite (kept_calApply hv3) hv3

theorem kept_calDone {c data s} (h : Kept u₀ s) : Kept u₀ (calDone c data s) := by
  unfold calDone
  exact Kept.ite (kept_calLeave (kept_setDirty (kept_setCalValid (kept_setI h)))) h

theorem kept_execCalSave {cats owner s} (h : Kept u₀ s) : KeptO u₀ (execCalSave cats owner s) := by
  unfold execCalSave
  exact KeptO.next (kept_gateReg (fun _ => kept_calCtrl) h)

theorem kept_execCalWithdraw {cats owner s} (h : Kept u₀ s) : KeptO u₀ (execCalWithdraw cats owner s) := by
  unfold execCalWithdraw
  exact KeptO.next (kept_gateReg (fun _ => kept_calCtrl) h)

theorem kept_execCalApply {cats owner s} (h : Kept u₀ s) : KeptO u₀ (execCalApply cats owner s) := by
  unfold execCalApply
  exact KeptO.next (kept_gateReg (fun _ => kept_calCtrl) h)

theorem kept_execCalCaptureTdc {cats owner s} (h : Kept u₀ s) : KeptO u₀ (execCalCaptureTdc cats owner s) := by
  unfold execCalCaptureTdc
  exact KeptO.next (kept_gateReg (fun _ => kept_calCtrl) h)

theorem kept_execCalApplyDone {s} (h : Kept u₀ s) : KeptO u₀ (execCalApplyDone s) := by
  unfold execCalApplyDone
  refine KeptO.next ?_
  refine Kept.ite ?_ h
  extract_lets +onlyGivenNames v0
  have hv0 : Kept u₀ v0 := Kept.forAll h (fun _ _ => kept_applyTender)
  clear_value v0
  refine Kept.ite ?_ hv0
  extract_lets +onlyGivenNames v2
  clear_value v2
  exact kept_raise (kept_updCal (kept_set hv0))

end Sys2Proof.Machine
end

