-- ==== Sys2Proof/Laws/KeptCamera.lean ====
section
/-! SUPPORT. The operations of the cameras and of ingest keep the time, the queue and the canonical form. -/

-- One declaration after another: the package is also checked as one text, where too many threads would start at once.
set_option Elab.async false

namespace Sys2Proof.Machine

variable {u₀ : State}

theorem kept_updStrip {s id e f} (h : Kept u₀ s) : Kept u₀ (State.updStrip s id e f) := by
  unfold State.updStrip
  extract_lets +onlyGivenNames v0 v1
  clear_value v0 v1
  exact kept_updIng h

theorem kept_dirEvents {n es s} (h : Kept u₀ s) : Kept u₀ (dirEvents n es s) := by
  unfold dirEvents
  refine Kept.forAll h ?_
  intro _ _ h0
  extract_lets +onlyGivenNames v1
  clear_value v1
  exact Kept.ite (kept_raise h0) (Kept.ite h0 (Kept.ite (kept_raise h0) (kept_raise h0)))

theorem kept_cachePlace {n id l s} (h : Kept u₀ s) : Kept u₀ (cachePlace n id l s) := by
  induction l generalizing s with
  | nil => exact h
  | cons i t ih =>
    unfold cachePlace
    split
    · exact ih (kept_updIng (kept_updItem h))
    · exact Kept.ite (ih (kept_updIng h)) (ih (kept_raise (kept_updFolio (kept_updIng h))))

theorem kept_cacheCreate {n h s} (hs : Kept u₀ s) : Kept u₀ (cacheCreate n h s) := by
  unfold cacheCreate
  extract_lets +onlyGivenNames v0 v1 v2 v3 v4
  clear_value v0
  have hv1 : Kept u₀ v1 := kept_updIng hs
  clear_value v1
  have hv2 : Kept u₀ v2 := kept_setI hv1
  clear_value v2 v3
  have hv4 : Kept u₀ v4 := kept_cachePlace hv2
  clear_value v4
  exact kept_setI hv4

theorem kept_allocFirst {s} (h : Kept u₀ s) : Kept u₀ (allocFirst s).1 := by
  unfold allocFirst
  split
  · exact h
  · split
    · exact kept_updItem h
    · split
      · exact h
      · exact kept_raise (kept_updFolio h)

theorem kept_allocAll {n s} (h : Kept u₀ s) : Kept u₀ (allocAll n s) := by
  induction n generalizing s with
  | zero => exact h
  | succ n ih => unfold allocAll; exact Kept.ite (ih (kept_allocFirst h)) (kept_allocFirst h)

theorem kept_placeWrite {l o bs s} (h : Kept u₀ s) : Kept u₀ (placeWrite l o bs s) := by
  induction l generalizing o bs s with
  | nil => exact h
  | cons p ps ih => unfold placeWrite; exact Kept.ite (ih (kept_sdramWrite h)) (ih h)

theorem kept_storeBytes {n lo bs keep s} (h : Kept u₀ s) : Kept u₀ (storeBytes n lo bs keep s) := by
  unfold storeBytes
  extract_lets +onlyGivenNames v0
  clear_value v0
  refine Kept.forAll h ?_
  intro _ _ h1
  refine Kept.forAll h1 ?_
  intro _ _ h2
  extract_lets +onlyGivenNames v3 v4
  clear_value v3 v4
  exact Kept.ite (kept_placeWrite h2) h2

theorem kept_cacheSettle {id s} (h : Kept u₀ s) : Kept u₀ (cacheSettle id s) := by
  unfold cacheSettle
  exact Kept.ite (kept_setI (kept_setI h)) h

theorem kept_cacheVerify {f id s} (h : Kept u₀ s) : Kept u₀ (cacheVerify f id s) := by
  unfold cacheVerify
  exact kept_cacheSettle (Kept.forAll h (fun _ _ h0 => Kept.ite (kept_updStrip h0) h0))

theorem kept_holdBytes {n lo bs count s} (h : Kept u₀ s) : Kept u₀ (holdBytes n lo bs count s) := by
  unfold holdBytes
  split
  · exact h
  · extract_lets +onlyGivenNames v0 v1 v2 v3 v4 v5 v6 v7 v8
    clear_value v0 v1 v2 v3 v4
    have hv5 : Kept u₀ v5 := kept_satI h
    clear_value v5
    have hv6 : Kept u₀ v6 := Kept.ite (kept_sat hv5) hv5
    clear_value v6
    have hv7 : Kept u₀ v7 := kept_updFolio hv6
    clear_value v7
    have hv8 : Kept u₀ v8 := Kept.ite (kept_storeBytes hv7) hv7
    clear_value v8
    split
    · exact Kept.ite (kept_cacheVerify hv8) hv8
    · exact hv8

theorem kept_refreshSpace {s} (h : Kept u₀ s) : Kept u₀ (refreshSpace s) := by
  unfold refreshSpace
  exact kept_set (kept_set h)

theorem kept_acceptDir {n h dir s} (hs : Kept u₀ s) : Kept u₀ (acceptDir n h dir s) := by
  unfold acceptDir
  extract_lets +onlyGivenNames v0 v1 v2 v3 v4 v5 v6 v7 v8 v9 v10
  clear_value v0 v1 v2 v3 v4
  have hv5 : Kept u₀ v5 := kept_updFolio hs
  clear_value v5
  have hv6 : Kept u₀ v6 := kept_dirEvents hv5
  clear_value v6
  have hv7 : Kept u₀ v7 := Kept.ite (kept_cacheCreate hv6) hv6
  clear_value v7
  have hv8 : Kept u₀ v8 := kept_allocAll hv7
  clear_value v8
  have hv9 : Kept u₀ v9 := Kept.forAll hv8 (fun _ _ => kept_holdBytes)
  clear_value v9
  have hv10 : Kept u₀ v10 := Kept.ite (kept_cacheSettle hv9) hv9
  clear_value v10
  exact kept_refreshSpace hv10

theorem kept_advanceE {n s} (h : Kept u₀ s) : Kept u₀ (advanceE n s) := by
  induction n generalizing s with
  | zero => exact h
  | succ n ih => unfold advanceE; exact Kept.ite (ih (kept_set (kept_updIng h))) h

theorem kept_setExpected {run e s} (h : Kept u₀ s) : Kept u₀ (setExpected run e s) := by
  unfold setExpected
  extract_lets -merge -underBinder +onlyGivenNames v0 v1 v2 v3 v4 v5
  clear_value v0 v1 v2
  have hv3 : Kept u₀ v3 := kept_updIng h
  clear_value v3
  have hv4 : Kept u₀ v4 := kept_set (kept_satI hv3)
  clear_value v4 v5
  exact kept_refreshSpace (kept_startBoundary hv4)

theorem kept_ingestDiscard {s} (h : Kept u₀ s) : Kept u₀ (ingestDiscard s) := by
  unfold ingestDiscard
  extract_lets +onlyGivenNames v0
  have hv0 : Kept u₀ v0 := Kept.forAll h (fun _ _ => kept_updPort)
  clear_value v0
  exact kept_updIng hv0

theorem kept_ingestReady {s} (h : Kept u₀ s) : Kept u₀ (ingestReady s) := by
  unfold ingestReady
  exact kept_setExpected h

theorem kept_cacheEvict {id s} (h : Kept u₀ s) : Kept u₀ (cacheEvict id s) := by
  unfold cacheEvict
  exact Kept.ite (kept_setI h) h

theorem kept_chunkShort {s} (h : Kept u₀ s) : Kept u₀ (chunkShort s) := by
  unfold chunkShort
  extract_lets +onlyGivenNames v0
  have hv0 : Kept u₀ v0 := kept_sat h
  clear_value v0
  exact kept_raiseX hv0

theorem kept_chunkBad {n s} (h : Kept u₀ s) : Kept u₀ (chunkBad n s) := by
  unfold chunkBad
  extract_lets +onlyGivenNames v0
  have hv0 : Kept u₀ v0 := kept_sat h
  clear_value v0
  exact Kept.ite hv0 (kept_raiseX (kept_updIng hv0))

theorem kept_chunkOutside {n off s} (h : Kept u₀ s) : Kept u₀ (chunkOutside n off s) := by
  unfold chunkOutside
  extract_lets +onlyGivenNames v0
  have hv0 : Kept u₀ v0 := kept_sat h
  clear_value v0
  exact Kept.ite (kept_raise (kept_updIng hv0)) hv0

theorem kept_malformed {n reason s} (h : Kept u₀ s) : Kept u₀ (malformed n reason s) := by
  unfold malformed
  exact kept_raise (kept_updIng h)

theorem kept_takeDirectory {n s} (h : Kept u₀ s) : Kept u₀ (takeDirectory n s) := by
  unfold takeDirectory
  split
  · split
    · refine Kept.ite ?_ h
      extract_lets +onlyGivenNames v0
      clear_value v0
      exact Kept.ite (kept_malformed h) (kept_acceptDir h)
    · exact h
  · exact h

theorem kept_ingestBoundary {n s} (h : Kept u₀ s) : Kept u₀ (ingestBoundary n s) := by
  induction n generalizing s with
  | zero => exact h
  | succ n ih => unfold ingestBoundary; exact Kept.ite (ih (kept_reachBoundary h)) h

theorem kept_trimEarly {n s} (h : Kept u₀ s) : Kept u₀ (trimEarly n s) := by
  unfold trimEarly
  extract_lets +onlyGivenNames v0 v1 v2
  clear_value v0 v1 v2
  exact Kept.ite h (kept_satI (kept_updFolio h))

theorem kept_takeHeader {n s} (h : Kept u₀ s) : Kept u₀ (takeHeader n s) := by
  unfold takeHeader
  split
  · refine Kept.ite ?_ h
    extract_lets +onlyGivenNames v0 v1
    clear_value v0 v1
    refine Kept.ite (kept_malformed h) ?_
    extract_lets -merge -underBinder +onlyGivenNames v2 v3 v4
    clear_value v2 v3
    have hv4 : Kept u₀ v4 := kept_updFolio h
    clear_value v4
    exact kept_ingestBoundary (kept_trimEarly (Kept.forAll hv4 (fun _ _ => kept_chunkBad)))
  · exact h

theorem kept_chunkHeld {n off data s} (h : Kept u₀ s) : Kept u₀ (chunkHeld n off data s) := by
  unfold chunkHeld
  extract_lets +onlyGivenNames v0 v1 v2 v3 v4
  have hv0 : Kept u₀ v0 := Kept.ite h (kept_updIng h)
  clear_value v0 v1 v2 v3 v4
  refine Kept.ite (kept_sat h) ?_
  extract_lets +onlyGivenNames v5
  have hv5 : Kept u₀ v5 := kept_updFolio hv0
  clear_value v5
  exact kept_takeDirectory (kept_takeHeader (kept_holdBytes hv5))

theorem kept_chunkIn {pl s} (h : Kept u₀ s) : Kept u₀ (chunkIn pl s) := by
  unfold chunkIn
  refine Kept.ite (kept_chunkShort h) ?_
  extract_lets +onlyGivenNames v0 v1 v2 v3 v4
  clear_value v0 v1 v2 v3 v4
  refine Kept.ite (kept_chunkBad h) ?_
  refine Kept.ite (kept_sat h) ?_
  refine Kept.ite (kept_chunkBad h) ?_
  extract_lets +onlyGivenNames v5
  clear_value v5
  exact Kept.ite (kept_chunkOutside h) (kept_chunkHeld h)

theorem kept_trimPast {s} (h : Kept u₀ s) : Kept u₀ (trimPast s) := by
  unfold trimPast
  extract_lets +onlyGivenNames v0 v1
  clear_value v0 v1
  exact kept_refreshSpace (kept_updIng h)

theorem kept_deadline {n s} (h : Kept u₀ s) : Kept u₀ (deadline n s) := by
  unfold deadline
  refine Kept.ite h ?_
  extract_lets -merge -underBinder +onlyGivenNames v0 v1 v2 v3
  clear_value v0
  have hv1 : Kept u₀ v1 := kept_updIng h
  clear_value v1
  have hv2 : Kept u₀ v2 := Kept.ite h (kept_ingestBoundary (kept_raise hv1))
  clear_value v2
  have hv3 : Kept u₀ v3 := kept_updIng hv2
  clear_value v3
  exact kept_trimPast (kept_advanceE hv3)

theorem kept_readItem {i lo hi fetch s} (h : Kept u₀ s) : Kept u₀ (readItem i lo hi fetch s) := by
  unfold readItem
  exact Kept.forAll h (fun _ _ => kept_burstRead)

theorem kept_markBad {id e s} (h : Kept u₀ s) : Kept u₀ (markBad id e s) := by
  unfold markBad
  exact kept_cacheSettle (kept_updStrip h)

theorem kept_execChunkReceived {net v6 dst udp payload s} (h : Kept u₀ s) : KeptO u₀ (execChunkReceived net v6 dst
    udp payload s) := by
  unfold execChunkReceived
  exact KeptO.next (Kept.ite (kept_chunkIn h) h)

theorem kept_execRingAllocate {s} (h : Kept u₀ s) : KeptO u₀ (execRingAllocate s) := by
  unfold execRingAllocate
  exact KeptO.next (Kept.ite (kept_refreshSpace (kept_allocFirst (kept_trimPast h))) h)

theorem kept_execCacheEvict {id owner s} (h : Kept u₀ s) : KeptO u₀ (execCacheEvict id owner s) := by
  unfold execCacheEvict
  exact KeptO.next (kept_gateReg (fun _ => kept_cacheEvict) h)

theorem kept_execEvictComplete {id s} (h : Kept u₀ s) : KeptO u₀ (execEvictComplete id s) := by
  unfold execEvictComplete
  refine KeptO.next ?_
  refine Kept.ite ?_ h
  extract_lets +onlyGivenNames v0 v1
  have hv0 : Kept u₀ v0 := kept_updIng h
  clear_value v0
  have hv1 : Kept u₀ v1 := Kept.forAll hv0 (fun _ _ => kept_setI)
  clear_value v1
  exact kept_refreshSpace hv1

theorem kept_replaceItem {n i s} (h : Kept u₀ s) : Kept u₀ (replaceItem n i s).1 := by
  unfold replaceItem
  extract_lets +onlyGivenNames v0
  clear_value v0
  split
  · extract_lets -merge -underBinder +onlyGivenNames v1 v2
    clear_value v1 v2
    exact kept_updItem h
  · exact kept_updItem h

theorem kept_inflDiscard {r s} (h : Kept u₀ s) : Kept u₀ (inflDiscard r s) := by
  unfold inflDiscard
  extract_lets -merge -underBinder +onlyGivenNames v0 v1 v2
  have hv0 : Kept u₀ v0 := kept_updRegn h
  clear_value v0 v1
  have hv2 : Kept u₀ v2 := Kept.forAll hv0 (fun _ _ h3 => Kept.ite (kept_replaceItem h3) (kept_updItem h3))
  clear_value v2
  exact kept_refreshSpace hv2

theorem kept_itemEnd {r n i s} (h : Kept u₀ s) : Kept u₀ (itemEnd r n i s) := by
  unfold itemEnd
  extract_lets -merge -underBinder +onlyGivenNames v0
  have hv0 : Kept u₀ v0 := kept_updItem h
  clear_value v0
  refine Kept.ite hv0 ?_
  extract_lets +onlyGivenNames v1 v2
  have hv1 : Kept u₀ v1 := kept_sat hv0
  clear_value v1 v2
  refine Kept.ite ?_ hv1
  extract_lets +onlyGivenNames v3
  have hv3 : Kept u₀ v3 := kept_raise (kept_sat (kept_markDirty hv1))
  clear_value v3
  split
  · exact kept_markBad hv3
  · exact hv3

theorem kept_streamError {r n i reason s} (h : Kept u₀ s) : Kept u₀ (streamError r n i reason s) := by
  unfold streamError
  extract_lets +onlyGivenNames v0
  have hv0 : Kept u₀ v0 := kept_raise (kept_sat (kept_markDirty h))
  clear_value v0
  split
  · exact kept_markBad hv0
  · exact hv0

theorem kept_showEngine {r k s} (h : Kept u₀ s) : Kept u₀ (showEngine r k s) := by
  unfold showEngine
  extract_lets -merge -underBinder +onlyGivenNames v0 v1 v2 v3 v4
  clear_value v0 v1 v2 v3
  have hv4 : Kept u₀ v4 := Kept.ite (kept_setI (kept_setI (kept_setI (kept_setI h)))) h
  clear_value v4
  exact kept_set hv4

theorem kept_dispatch {r k n i poison s} (h : Kept u₀ s) : Kept u₀ (dispatch r k n i poison s) := by
  unfold dispatch
  extract_lets -merge -underBinder +onlyGivenNames v0 v1 v2 v3 v4 v5 v6 v7 v8 v9 v10 v11 v12 v13
  clear_value v0 v1 v2 v3 v4 v5 v6 v7
  have hv8 : Kept u₀ v8 := kept_readItem h
  clear_value v8
  have hv9 : Kept u₀ v9 := kept_satI (kept_updItem hv8)
  clear_value v9 v10
  have hv11 : Kept u₀ v11 := kept_updRegn hv9
  clear_value v11
  have hv12 : Kept u₀ v12 := Kept.ite (kept_raise (kept_sat hv11)) hv11
  clear_value v12
  have hv13 : Kept u₀ v13 := Kept.ite hv12 (kept_streamError hv12)
  clear_value v13
  exact kept_showEngine hv13

theorem kept_needStrip {n i s} (h : Kept u₀ s) : Kept u₀ (needStrip n i s) := by
  unfold needStrip
  extract_lets +onlyGivenNames v0 v1
  clear_value v0 v1
  refine Kept.ite ?_ ?_
  · extract_lets -merge -underBinder +onlyGivenNames v2
    have hv2 : Kept u₀ v2 := kept_updItem h
    clear_value v2
    exact kept_refreshSpace (kept_satI (kept_satI hv2))
  · extract_lets +onlyGivenNames v3
    clear_value v3
    refine Kept.ite (kept_updItem h) ?_
    extract_lets +onlyGivenNames v4
    have hv4 : Kept u₀ v4.1 := kept_replaceItem h
    clear_value v4
    exact kept_refreshSpace (kept_raise (kept_sat (kept_markDirty hv4)))

theorem kept_needTile {n i s} (h : Kept u₀ s) : Kept u₀ (needTile n i s) := by
  unfold needTile
  extract_lets +onlyGivenNames v0 v1
  clear_value v0 v1
  refine Kept.ite (kept_updItem h) ?_
  extract_lets -merge -underBinder +onlyGivenNames v2
  have hv2 : Kept u₀ v2 := kept_updItem h
  clear_value v2
  exact kept_refreshSpace (kept_raise (kept_sat hv2))

theorem kept_execNeedPoint {p layer s} (h : Kept u₀ s) : KeptO u₀ (execNeedPoint p layer s) := by
  unfold execNeedPoint
  refine KeptO.next ?_
  split
  · exact Kept.ite (Kept.ite (kept_needStrip h) (kept_needTile h)) h
  · exact h

theorem kept_execSliceDispatch {r engine poison s} (h : Kept u₀ s) : KeptO u₀ (execSliceDispatch r engine poison s)
    := by
  unfold execSliceDispatch
  refine KeptO.next ?_
  refine Kept.ite ?_ h
  split
  · exact kept_dispatch h
  · exact h

theorem kept_execSliceEnd {r engine s} (h : Kept u₀ s) : KeptO u₀ (execSliceEnd r engine s) := by
  unfold execSliceEnd
  refine KeptO.next ?_
  split
  · refine Kept.ite ?_ h
    extract_lets +onlyGivenNames v0 v1
    have hv0 : Kept u₀ v0 := kept_updRegn h
    clear_value v0
    have hv1 : Kept u₀ v1 := by
      unfold v1
      split
      · exact Kept.ite (kept_itemEnd hv0) hv0
      · exact hv0
    clear_value v1
    exact kept_refreshSpace (kept_showEngine hv1)
  · exact h

theorem kept_regionDiscard {r s} (h : Kept u₀ s) : Kept u₀ (regionDiscard r s) := by
  unfold regionDiscard
  extract_lets +onlyGivenNames v0
  have hv0 : Kept u₀ v0 := kept_updRegn h
  clear_value v0
  exact Kept.forAll hv0 (fun _ _ => kept_updPort)

theorem kept_lateTiles {p n y late s} (h : Kept u₀ s) : Kept u₀ (lateTiles p n y late s) := by
  unfold lateTiles
  refine Kept.ite h ?_
  extract_lets +onlyGivenNames v0
  have hv0 : Kept u₀ v0 := kept_sat h
  clear_value v0
  exact Kept.forAll hv0 (fun _ _ h1 => Kept.ite h1 (kept_raise (kept_updItem (kept_markDirty h1))))

theorem kept_showRects {r p n s} (h : Kept u₀ s) : Kept u₀ (showRects r p n s) := by
  unfold showRects
  refine Kept.ite ?_ h
  extract_lets +onlyGivenNames v0
  clear_value v0
  exact kept_set (kept_set h)

theorem kept_compose {p n y s} (h : Kept u₀ s) : Kept u₀ (compose p n y s) := by
  unfold compose
  extract_lets +onlyGivenNames v0 v1 v2 v3 v4 v5
  clear_value v0 v1 v2
  have hv3 : Kept u₀ v3 := kept_updPort h
  clear_value v3
  have hv4 : Kept u₀ v4 := Kept.ite hv3 (kept_lateTiles hv3)
  clear_value v4 v5
  exact kept_showRects (kept_satI (kept_wrap hv4))

theorem kept_decodeList {r n i poison s} (h : Kept u₀ s) : Kept u₀ (decodeList r n i poison s) := by
  unfold decodeList
  extract_lets +onlyGivenNames v0 v1 v2 v3 v4 v5 v6 v7 v8 v9
  clear_value v0 v1 v2 v3 v4 v5 v6 v7
  have hv8 : Kept u₀ v8 := kept_updRegn (kept_readItem h)
  clear_value v8
  have hv9 : Kept u₀ v9 := kept_itemEnd (Kept.ite hv8 (kept_streamError hv8))
  clear_value v9
  exact kept_refreshSpace (Kept.forAll hv9 (fun _ _ h10 => Kept.ite h10 (kept_raise h10)))

theorem kept_keepOld {r n s} (h : Kept u₀ s) : Kept u₀ (keepOld r n s) := by
  unfold keepOld
  extract_lets +onlyGivenNames v0
  clear_value v0
  exact kept_updRegn h

theorem kept_folioLoad {r s} (h : Kept u₀ s) : Kept u₀ (folioLoad r s) := by
  unfold folioLoad
  exact Kept.ite (kept_freshLoad (kept_freshLoad (kept_freshLoad h))) h

theorem kept_regionBoundary {pg n s} (h : Kept u₀ s) : Kept u₀ (regionBoundary pg n s) := by
  unfold regionBoundary
  exact Kept.ite h (kept_reachBoundary (Kept.ite h (kept_startBoundary h)))

theorem kept_useList {r n s} (h : Kept u₀ s) : Kept u₀ (useList r n s) := by
  unfold useList
  split
  · exact h
  · extract_lets -merge -underBinder +onlyGivenNames v0 v1 v2 v3 v4
    have hv0 : Kept u₀ v0 := Kept.ite (kept_decodeList h) h
    clear_value v0 v1
    have hv2 : Kept u₀ v2.2 := by
      unfold v2
      split
      · exact hv0
      · split
        · exact hv0
        · split
          · exact hv0
          · extract_lets +onlyGivenNames v5
            have hv5 : Kept u₀ v5.2 := kept_freeUpTo hv0
            clear_value v5
            exact hv5
    clear_value v2 v3
    have hv4 : Kept u₀ v4 := kept_updRegn hv2
    clear_value v4
    exact Kept.ite (kept_raise hv4) hv4

theorem kept_execRegionFolioStart {r s} (h : Kept u₀ s) : KeptO u₀ (execRegionFolioStart r s) := by
  unfold execRegionFolioStart
  refine KeptO.next ?_
  split
  · refine Kept.ite ?_ h
    extract_lets +onlyGivenNames v0 v1 v2 v3
    have hv0 : Kept u₀ v0 := kept_deadline h
    clear_value v0
    have hv1 : Kept u₀ v1 := kept_keepOld (kept_folioLoad hv0)
    clear_value v1
    have hv2 : Kept u₀ v2 := kept_regionBoundary (kept_regionBoundary (kept_regionBoundary hv1))
    clear_value v2
    have hv3 : Kept u₀ v3 := kept_updRegn hv2
    clear_value v3
    exact kept_useList hv3
  · exact h

theorem kept_execLineCompose {r s} (h : Kept u₀ s) : KeptO u₀ (execLineCompose r s) := by
  unfold execLineCompose
  refine KeptO.next ?_
  refine Kept.ite ?_ h
  split
  · split
    · exact kept_compose h
    · exact h
  · exact h

theorem kept_execRectListDecode {r poison s} (h : Kept u₀ s) : KeptO u₀ (execRectListDecode r poison s) := by
  unfold execRectListDecode
  refine KeptO.next ?_
  refine Kept.ite ?_ h
  split
  · exact kept_decodeList h
  · exact h

theorem kept_addPlane {st planes b samples s} (h : Kept u₀ s) : Kept u₀ (addPlane st planes b samples s) := by
  unfold addPlane
  extract_lets +onlyGivenNames v0 v1 v2
  clear_value v0 v1 v2
  exact kept_updSlot h

theorem kept_updOpen {st f s} (h : Kept u₀ s) : Kept u₀ (updOpen st f s) := by
  unfold updOpen
  exact kept_updSlot h

theorem kept_tagSlip {st why s} (h : Kept u₀ s) : Kept u₀ (tagSlip st why s) := by
  unfold tagSlip
  extract_lets +onlyGivenNames v0 v1
  clear_value v0
  have hv1 : Kept u₀ v1 := kept_updOpen (kept_satI h)
  clear_value v1
  exact kept_raise hv1

theorem kept_pushTag {d st s} (h : Kept u₀ s) : Kept u₀ (pushTag d st s) := by
  unfold pushTag
  refine Kept.ite ?_ h
  extract_lets +onlyGivenNames v0 v1 v2 v3 v4 v5
  clear_value v0 v1 v2 v3 v4
  have hv5 : Kept u₀ v5 := kept_updSlot h
  clear_value v5
  exact Kept.ite (kept_tagSlip hv5) hv5

theorem kept_ageTags {st l s} (h : Kept u₀ s) : Kept u₀ (ageTags st l s) := by
  induction l generalizing s with
  | nil => exact kept_updSlot h
  | cons t ts ih => unfold ageTags; exact Kept.ite (ih (kept_tagSlip h)) (kept_updSlot h)

theorem kept_statsRecord {st f s} (h : Kept u₀ s) : Kept u₀ (statsRecord st f s) := by
  unfold statsRecord
  extract_lets +onlyGivenNames v0 v1
  clear_value v0 v1
  refine Kept.ite h ?_
  refine Kept.ite ?_ ?_
  · extract_lets +onlyGivenNames v2
    have hv2 : Kept u₀ v2 := kept_sat h
    clear_value v2
    exact Kept.ite hv2 (kept_raise (kept_updPipe hv2))
  · extract_lets +onlyGivenNames v3 v4 v5
    have hv3 : Kept u₀ v3.2 := kept_free h
    clear_value v3
    have hv4 : Kept u₀ v4 := Kept.ite hv3 h
    clear_value v4 v5
    exact kept_set (kept_updPipe (kept_sdramWrite hv4))

theorem kept_tapFrameEnd {st ser s} (h : Kept u₀ s) : Kept u₀ (tapFrameEnd st ser s) := by
  unfold tapFrameEnd
  refine Kept.forAll h ?_
  intro _ _ h0
  extract_lets +onlyGivenNames v1
  clear_value v1
  exact Kept.ite (kept_raise (kept_setI h0)) h0

theorem kept_settleFrames {st l s} (h : Kept u₀ s) : Kept u₀ (settleFrames st l s) := by
  induction l generalizing s with
  | nil => exact kept_updSlot h
  | cons f fs ih =>
    unfold settleFrames; exact Kept.ite (ih (kept_tapFrameEnd (kept_statsRecord h))) (kept_updSlot h)

theorem kept_settle {st s} (h : Kept u₀ s) : Kept u₀ (settle st s) := by
  unfold settle
  exact kept_settleFrames h

theorem kept_closeFrame {st change s} (h : Kept u₀ s) : Kept u₀ (closeFrame st change s) := by
  unfold closeFrame
  split
  · exact h
  · extract_lets +onlyGivenNames v0 v1 v2 v3 v4 v5 v6 v7 v8
    clear_value v0
    have hv1 : Kept u₀ v1.2 := kept_free h
    clear_value v1
    have hv2 : Kept u₀ v2 := Kept.ite h hv1
    clear_value v2 v3 v4 v5 v6
    have hv7 : Kept u₀ v7 := kept_wrapI (kept_updSlot hv2)
    clear_value v7
    have hv8 : Kept u₀ v8 := Kept.ite (kept_raise hv7) hv7
    clear_value v8
    exact kept_settle (Kept.ite (kept_freshLoad hv8) hv8)

theorem kept_slotDisable {st s} (h : Kept u₀ s) : Kept u₀ (slotDisable st s) := by
  unfold slotDisable
  refine Kept.ite ?_ h
  extract_lets +onlyGivenNames v0 v1 v2
  clear_value v0
  have hv1 : Kept u₀ v1 := kept_settle (kept_updSlot h)
  clear_value v1
  have hv2 : Kept u₀ v2 := kept_closeFrame hv1
  clear_value v2
  exact kept_updSlot (kept_setI hv2)

theorem kept_camDiscard {l s} (h : Kept u₀ s) : Kept u₀ (camDiscard l s) := by
  unfold camDiscard
  exact kept_updLink (Kept.forAll h (fun _ _ => kept_slotDisable))

theorem kept_pipeDiscard {s} (h : Kept u₀ s) : Kept u₀ (pipeDiscard s) := by
  unfold pipeDiscard
  extract_lets -merge -underBinder +onlyGivenNames v0
  have hv0 : ∀ x0 x1, Kept u₀ x1 → Kept u₀ (v0 x0 x1) := by
    unfold v0
    intro _ _ h1
    extract_lets +onlyGivenNames v2
    have hv2 : Kept u₀ v2 := kept_updSlot h1
    clear_value v2
    exact kept_updSlot (kept_closeFrame hv2)
  clear_value v0
  exact kept_updPipe (Kept.forAll h (fun _ _ => hv0 _ _))

theorem kept_cciDirect {l rd s} (h : Kept u₀ s) : Kept u₀ (cciDirect l rd s) := by
  unfold cciDirect
  extract_lets +onlyGivenNames v0
  clear_value v0
  refine Kept.ite h ?_
  extract_lets +onlyGivenNames v1
  clear_value v1
  exact kept_cciGo (kept_updLink (kept_set (kept_set (kept_set h))))

theorem kept_slotEnable {st s} (h : Kept u₀ s) : Kept u₀ (slotEnable st s) := by
  unfold slotEnable
  extract_lets +onlyGivenNames v0
  clear_value v0
  refine Kept.ite h ?_
  extract_lets +onlyGivenNames v1
  clear_value v1
  refine Kept.ite (kept_raise h) ?_
  extract_lets +onlyGivenNames v2
  have hv2 : Kept u₀ v2 := Kept.ite h (kept_updLink h)
  clear_value v2
  exact kept_updSlot (kept_setI hv2)

theorem kept_bufferLine {st y s} (h : Kept u₀ s) : Kept u₀ (bufferLine st y s) := by
  unfold bufferLine
  extract_lets +onlyGivenNames v0
  clear_value v0
  refine Kept.ite (kept_updOpen (kept_updSlot h)) ?_
  extract_lets +onlyGivenNames v1
  have hv1 : Kept u₀ v1 := kept_satI h
  clear_value v1
  exact Kept.ite hv1 (kept_raise (kept_updOpen hv1))

theorem kept_cciNack {l dev reg entry s} (h : Kept u₀ s) : Kept u₀ (cciNack l dev reg entry s) := by
  unfold cciNack
  exact kept_raise h

theorem kept_endLine {st planes s} (h : Kept u₀ s) : Kept u₀ (endLine st planes s) := by
  unfold endLine
  split
  · exact h
  · extract_lets +onlyGivenNames v0 v1 v2 v3 v4
    clear_value v0 v1 v2
    have hv3 : Kept u₀ v3 := kept_updSlot h
    clear_value v3 v4
    split
    · exact kept_satI hv3
    · refine Kept.ite (kept_satI hv3) ?_
      refine Kept.ite (kept_updOpen hv3) ?_
      extract_lets +onlyGivenNames v5
      have hv5 : Kept u₀ v5 := kept_bufferLine (kept_updOpen hv3)
      clear_value v5
      exact Kept.ite (kept_closeFrame hv5) hv5

theorem kept_execSlotEnable {l v owner s} (h : Kept u₀ s) : KeptO u₀ (execSlotEnable l v owner s) := by
  unfold execSlotEnable
  refine KeptO.next ?_
  split
  · extract_lets +onlyGivenNames v0
    clear_value v0
    exact kept_gateReg (fun _ => kept_slotEnable) h
  · exact h

theorem kept_execSlotDisable {l v owner s} (h : Kept u₀ s) : KeptO u₀ (execSlotDisable l v owner s) := by
  unfold execSlotDisable
  refine KeptO.next ?_
  split
  · exact kept_gateReg (fun _ => kept_slotDisable) h
  · exact h

theorem kept_headerDrop {l s} (h : Kept u₀ s) : Kept u₀ (headerDrop l s) := by
  unfold headerDrop
  extract_lets +onlyGivenNames v0 v1 v2
  clear_value v0
  have hv1 : Kept u₀ v1 := kept_sat h
  clear_value v1
  have hv2 : Kept u₀ v2 := kept_raise hv1
  clear_value v2
  refine Kept.forAll hv2 ?_
  intro _ _ h3
  extract_lets +onlyGivenNames v4
  have hv4 : Kept u₀ v4 := kept_updOpen h3
  clear_value v4
  refine Kept.ite ?_ hv4
  extract_lets +onlyGivenNames v5
  clear_value v5
  exact kept_endLine (kept_updSlot (kept_updOpen hv4))

theorem kept_withHeader {l ecc k s} (hk : ∀ x0, Kept u₀ x0 → Kept u₀ (k x0)) (h : Kept u₀ s) : Kept u₀ (withHeader
    l ecc k s) := by
  unfold withHeader
  exact Kept.ite (Kept.ite (hk _ h) (Kept.ite (hk _ (kept_sat h)) (kept_headerDrop h))) h

theorem kept_packetUnknown {l vc dt s} (h : Kept u₀ s) : Kept u₀ (packetUnknown l vc dt s) := by
  unfold packetUnknown
  extract_lets +onlyGivenNames v0
  have hv0 : Kept u₀ v0 := kept_sat h
  clear_value v0
  exact kept_raise hv0

theorem kept_openFrame {st sensor s} (h : Kept u₀ s) : Kept u₀ (openFrame st sensor s) := by
  unfold openFrame
  exact kept_updSlot h

theorem kept_linkFrame {l s} (h : Kept u₀ s) : Kept u₀ (linkFrame l s) := by
  unfold linkFrame
  extract_lets +onlyGivenNames v0 v1 v2
  have hv0 : Kept u₀ v0 := kept_wrap h
  clear_value v0 v1
  have hv2 : Kept u₀ v2 := Kept.forAll hv0 (fun _ _ h3 => Kept.ite (kept_expLate h3) h3)
  clear_value v2
  exact Kept.forAll hv2 (fun _ _ => kept_reachBoundary)

theorem kept_tapFrameStart {was st ser s} (h : Kept u₀ s) : Kept u₀ (tapFrameStart was st ser s) := by
  unfold tapFrameStart
  refine Kept.forAll h ?_
  intro _ _ h0
  extract_lets +onlyGivenNames v1
  clear_value v1
  refine Kept.ite ?_ h0
  extract_lets +onlyGivenNames v2
  have hv2 : Kept u₀ v2 := kept_updPipe h0
  clear_value v2
  exact Kept.ite (kept_raise (kept_setI hv2)) (kept_setI hv2)

theorem kept_firstLine {st f s} (h : Kept u₀ s) : Kept u₀ (firstLine st f s) := by
  unfold firstLine
  extract_lets +onlyGivenNames v0 v1 v2 v3
  clear_value v0
  have hv1 : Kept u₀ v1 := Kept.ite (kept_linkFrame h) h
  clear_value v1 v2 v3
  exact kept_tapFrameStart (kept_updOpen hv1)

theorem kept_takeTag {st s} (h : Kept u₀ s) : Kept u₀ (takeTag st s) := by
  unfold takeTag
  extract_lets +onlyGivenNames v0
  have hv0 : Kept u₀ v0 := kept_ageTags h
  clear_value v0
  split
  · exact kept_updSlot hv0
  · extract_lets +onlyGivenNames v1 v2 v3
    have hv1 : Kept u₀ v1.2 := kept_free hv0
    clear_value v1
    have hv2 : Kept u₀ v2.2 := kept_free hv1
    clear_value v2
    have hv3 : Kept u₀ v3 := kept_updSlot hv2
    clear_value v3
    exact Kept.ite hv3 (kept_tagSlip hv3)

theorem kept_startLine {st s} (h : Kept u₀ s) : Kept u₀ (startLine st s) := by
  unfold startLine
  extract_lets +onlyGivenNames v0 v1 v2
  have hv0 : Kept u₀ v0 := Kept.ite (kept_openFrame h) h
  clear_value v0
  have hv1 : Kept u₀ v1 := by
    unfold v1
    split
    · exact Kept.ite (kept_firstLine hv0) hv0
    · exact hv0
  clear_value v1 v2
  exact kept_takeTag (kept_updSlot hv1)

theorem kept_slotPacket {st crcBad payload s} (h : Kept u₀ s) : Kept u₀ (slotPacket st crcBad payload s) := by
  unfold slotPacket
  extract_lets +onlyGivenNames v0 v1 v2 v3 v4
  clear_value v0 v1 v2 v3
  have hv4 : ∀ x0, Kept u₀ x0 → Kept u₀ (v4 x0) := by
    unfold v4
    exact fun _ h5 => Kept.ite (kept_updOpen (kept_updSlot h5)) h5
  clear_value v4
  refine Kept.ite (kept_updOpen h) ?_
  refine Kept.ite (kept_updOpen h) ?_
  extract_lets +onlyGivenNames v6 v7 v8
  have hv6 : Kept u₀ v6 := hv4 _ (Kept.ite (kept_startLine h) h)
  clear_value v6
  have hv7 : Kept u₀ v7 := kept_addPlane hv6
  clear_value v7 v8
  exact Kept.ite (kept_endLine hv7) hv7

theorem kept_longPacket {l vc dt crcBad payload s} (h : Kept u₀ s) : Kept u₀ (longPacket l vc dt crcBad payload s)
    := by
  unfold longPacket
  extract_lets +onlyGivenNames v0
  clear_value v0
  refine Kept.ite h ?_
  split
  · exact kept_packetUnknown h
  · refine Kept.ite (kept_packetUnknown h) ?_
    extract_lets -merge -underBinder +onlyGivenNames v1 v2 v3
    have hv1 : Kept u₀ v1 := kept_updLink (kept_set h)
    clear_value v1
    have hv2 : Kept u₀ v2 := kept_sat hv1
    clear_value v2
    have hv3 : Kept u₀ v3 := Kept.ite (kept_raise hv2) hv1
    clear_value v3
    exact kept_slotPacket hv3

theorem kept_execCsiLongPacket {l vc dt ecc crcBad payload s} (h : Kept u₀ s) : KeptO u₀ (execCsiLongPacket l vc dt
    ecc crcBad payload s) := by
  unfold execCsiLongPacket
  exact KeptO.next (kept_withHeader (fun _ => kept_longPacket) h)

theorem kept_execCsiFrameStart {l vc num ecc s} (h : Kept u₀ s) : KeptO u₀ (execCsiFrameStart l vc num ecc s) := by
  unfold execCsiFrameStart
  refine KeptO.next ?_
  refine kept_withHeader ?_ h
  intro _ h0
  split
  · exact h0
  · extract_lets +onlyGivenNames v1
    have hv1 : Kept u₀ v1 := kept_updSlot (kept_endLine h0)
    clear_value v1
    exact Kept.ite hv1 (kept_openFrame (kept_closeFrame hv1))

theorem kept_execCsiFrameEnd {l vc ecc s} (h : Kept u₀ s) : KeptO u₀ (execCsiFrameEnd l vc ecc s) := by
  unfold execCsiFrameEnd
  refine KeptO.next ?_
  refine kept_withHeader ?_ h
  intro _ h0
  split
  · exact h0
  · exact Kept.ite h0 (kept_closeFrame (kept_endLine h0))

theorem kept_execCsiLineStart {l vc ecc s} (h : Kept u₀ s) : KeptO u₀ (execCsiLineStart l vc ecc s) := by
  unfold execCsiLineStart
  refine KeptO.next ?_
  refine kept_withHeader ?_ h
  intro _ h0
  split
  · exact h0
  · exact Kept.ite (kept_updSlot (kept_endLine h0)) h0

theorem kept_execCsiLineEnd {l vc ecc s} (h : Kept u₀ s) : KeptO u₀ (execCsiLineEnd l vc ecc s) := by
  unfold execCsiLineEnd
  refine KeptO.next ?_
  refine kept_withHeader ?_ h
  intro _ h0
  split
  · exact h0
  · exact Kept.ite (kept_updSlot (kept_endLine h0)) h0

theorem kept_execPhyError {l kind lanes s} (h : Kept u₀ s) : KeptO u₀ (execPhyError l kind lanes s) := by
  unfold execPhyError
  refine KeptO.next ?_
  refine Kept.ite ?_ h
  extract_lets +onlyGivenNames v0
  have hv0 : Kept u₀ v0 := kept_sat h
  clear_value v0
  exact kept_raise hv0

theorem kept_execLinkSilent {l s} (h : Kept u₀ s) : KeptO u₀ (execLinkSilent l s) := by
  unfold execLinkSilent
  exact KeptO.next (Kept.ite (kept_raise (kept_set h)) h)

theorem kept_execParFrameStart {level s} (h : Kept u₀ s) : KeptO u₀ (execParFrameStart level s) := by
  unfold execParFrameStart
  exact KeptO.next (Kept.ite (Kept.ite h (kept_openFrame (kept_closeFrame h))) h)

theorem kept_execParLine {level data s} (h : Kept u₀ s) : KeptO u₀ (execParLine level data s) := by
  unfold execParLine
  extract_lets +onlyGivenNames v0 v1 v2 v3 v4
  clear_value v0 v1 v2 v3 v4
  refine KeptO.next ?_
  refine Kept.ite ?_ h
  extract_lets +onlyGivenNames v5 v6 v7 v8
  clear_value v5 v6
  have hv7 : Kept u₀ v7 := kept_startLine h
  clear_value v7
  have hv8 : Kept u₀ v8 := Kept.ite (Kept.forAll hv7 (fun _ _ => kept_addPlane)) (kept_addPlane hv7)
  clear_value v8
  exact kept_endLine hv8

theorem kept_updFrame {st ser f s} (h : Kept u₀ s) : Kept u₀ (updFrame st ser f s) := by
  unfold updFrame
  extract_lets +onlyGivenNames v0
  clear_value v0
  exact kept_updSlot h

theorem kept_execCciTransactionEnd {l nack data s} (h : Kept u₀ s) : KeptO u₀ (execCciTransactionEnd l nack data s)
    := by
  unfold execCciTransactionEnd
  extract_lets +onlyGivenNames v0 v1
  clear_value v0
  have hv1 : ∀ x0, Kept u₀ x0 → Kept u₀ (v1 x0) := by
    unfold v1
    exact fun _ h2 => kept_cciGo (kept_updLink h2)
  clear_value v1
  refine KeptO.next ?_
  refine Kept.ite h ?_
  refine Kept.ite ?_ ?_
  · split
    · extract_lets +onlyGivenNames v3
      clear_value v3
      exact Kept.ite (hv1 _ (kept_updLink (kept_expLate (kept_cciNack h)))) (hv1 _ (kept_updLink h))
    · exact h
  · refine Kept.ite ?_ h
    split
    · extract_lets +onlyGivenNames v4 v5 v6
      clear_value v4
      have hv5 : Kept u₀ v5 := Kept.ite (kept_cciNack h) (Kept.ite (kept_set h) h)
      clear_value v5
      have hv6 : Kept u₀ v6 := kept_set (kept_set (kept_set hv5))
      clear_value v6
      exact hv1 _ (kept_updLink hv6)
    · exact h

theorem kept_execCciDirectWrite {l owner s} (h : Kept u₀ s) : KeptO u₀ (execCciDirectWrite l owner s) := by
  unfold execCciDirectWrite
  exact KeptO.next (Kept.ite (kept_gateReg (fun _ => kept_cciDirect) h) h)

theorem kept_execCciDirectRead {l owner s} (h : Kept u₀ s) : KeptO u₀ (execCciDirectRead l owner s) := by
  unfold execCciDirectRead
  exact KeptO.next (Kept.ite (kept_gateReg (fun _ => kept_cciDirect) h) h)

end Sys2Proof.Machine
end

