-- ==== Sys2Proof/Laws/KeptPorts.lean ====
section
/-! SUPPORT. The operations of lanes, ports, strobes and the clock keep the time, the queue and the canonical form. -/

-- One declaration after another: the package is also checked as one text, where too many threads would start at once.
set_option Elab.async false

namespace Sys2Proof.Machine

variable {u₀ : State}

theorem kept_laneSet {s f p v} (h : Kept u₀ s) : Kept u₀ (State.laneSet s f p v) := by
  unfold State.laneSet
  exact kept_setI h

theorem kept_requireSelect {p tickle s} (h : Kept u₀ s) : Kept u₀ (requireSelect p tickle s) := by
  unfold requireSelect
  exact kept_updLane h

theorem kept_bcfgSend {port s} (h : Kept u₀ s) : Kept u₀ (bcfgSend port s) := by
  unfold bcfgSend
  refine Kept.ite h ?_
  extract_lets +onlyGivenNames v0
  clear_value v0
  exact kept_laneSet (kept_updLane h)

theorem kept_laneRaise {e p hi low_ s} (h : Kept u₀ s) : Kept u₀ (laneRaise e p hi low_ s) := by
  unfold laneRaise
  exact kept_raise h

theorem kept_downloadFail {p reason s} (h : Kept u₀ s) : Kept u₀ (downloadFail p reason s) := by
  unfold downloadFail
  extract_lets +onlyGivenNames v0 v1
  clear_value v0
  have hv1 : Kept u₀ v1 := kept_laneSet (kept_laneSet h)
  clear_value v1
  exact kept_laneRaise (kept_updLane hv1)

theorem kept_underrun {p n l s} (h : Kept u₀ s) : Kept u₀ (underrun p n l s) := by
  unfold underrun
  exact kept_raise (kept_satI h)

theorem kept_lineLost {p n l s} (h : Kept u₀ s) : Kept u₀ (lineLost p n l s) := by
  unfold lineLost
  exact kept_updPort (kept_underrun h)

theorem kept_laneStop {p s} (h : Kept u₀ s) : Kept u₀ (laneStop p s) := by
  unfold laneStop
  extract_lets +onlyGivenNames v0 v1 v2 v3
  clear_value v0 v1 v2
  have hv3 : Kept u₀ v3 := kept_updLane h
  clear_value v3
  exact Kept.forAll hv3 (fun _ _ => kept_lineLost)

theorem kept_laneDiscard {c s} (h : Kept u₀ s) : Kept u₀ (laneDiscard c s) := by
  unfold laneDiscard
  refine Kept.forAll h ?_
  intro _ _ h0
  extract_lets +onlyGivenNames v1 v2
  have hv1 : Kept u₀ v1 := Kept.ite (kept_downloadFail h0) h0
  clear_value v1
  have hv2 : Kept u₀ v2 := kept_laneStop hv1
  clear_value v2
  exact Kept.upd hv2

theorem kept_blockError {p kind s} (h : Kept u₀ s) : Kept u₀ (blockError p kind s) := by
  unfold blockError
  extract_lets +onlyGivenNames v0 v1
  have hv0 : Kept u₀ v0 := by
    unfold v0
    split
    · exact kept_satI h
    · exact kept_satI h
    · exact h
  clear_value v0 v1
  exact kept_laneRaise hv0

theorem kept_selectOnBand {p s} (h : Kept u₀ s) : Kept u₀ (selectOnBand p s) := by
  unfold selectOnBand
  exact Kept.ite h (kept_requireSelect h)

theorem kept_laneLine {p m s} (h : Kept u₀ s) : Kept u₀ (laneLine p m s) := by
  unfold laneLine
  exact Kept.ite (kept_updLane h) (kept_lineLost h)

theorem kept_laneChange {p f s} (hk : ∀ x0, Kept u₀ x0 → Kept u₀ (f x0)) (h : Kept u₀ s) : Kept u₀ (laneChange p f
    s) := by
  unfold laneChange
  extract_lets +onlyGivenNames v0
  have hv0 : Kept u₀ v0 := hk _ h
  clear_value v0
  exact Kept.ite (kept_laneStop hv0) hv0

theorem kept_download {p table len poison s} (h : Kept u₀ s) : Kept u₀ (download p table len poison s) := by
  unfold download
  extract_lets +onlyGivenNames v0
  clear_value v0
  refine Kept.ite (kept_laneRaise h) ?_
  extract_lets +onlyGivenNames v1 v2 v3 v4 v5 v6 v7
  clear_value v1 v2 v3 v4
  have hv5 : Kept u₀ v5 := kept_sysRead h
  clear_value v5
  have hv6 : Kept u₀ v6 := kept_laneSet (kept_laneSet hv5)
  clear_value v6
  have hv7 : Kept u₀ v7 := kept_updLane hv6
  clear_value v7
  exact Kept.ite (kept_downloadFail hv7) hv7

theorem kept_statusDownload {p m s} (h : Kept u₀ s) : Kept u₀ (statusDownload p m s) := by
  unfold statusDownload
  extract_lets +onlyGivenNames v0
  clear_value v0
  exact Kept.ite (Kept.ite (kept_updLane (kept_laneSet (kept_laneSet h))) (kept_downloadFail h)) h

theorem kept_statusMsg {p m s} (h : Kept u₀ s) : Kept u₀ (statusMsg p m s) := by
  unfold statusMsg
  extract_lets +onlyGivenNames v0 v1 v2 v3 v4 v5
  clear_value v0 v1
  have hv2 : Kept u₀ v2 := kept_laneSet (kept_laneSet (kept_laneSet (kept_laneSet h)))
  clear_value v2
  have hv3 : Kept u₀ v3 := kept_updLane (kept_laneSet hv2)
  clear_value v3
  have hv4 : Kept u₀ v4 := Kept.ite (kept_laneRaise hv3) hv3
  clear_value v4
  have hv5 : Kept u₀ v5 := Kept.ite (kept_laneRaise hv4) hv4
  clear_value v5
  exact kept_statusDownload hv5

theorem kept_tempMsg {p m s} (h : Kept u₀ s) : Kept u₀ (tempMsg p m s) := by
  unfold tempMsg
  exact kept_updLane (kept_laneSet (kept_laneSet (kept_laneSet h)))

theorem kept_returnMsg {p m s} (h : Kept u₀ s) : Kept u₀ (returnMsg p m s) := by
  unfold returnMsg
  exact Kept.ite (kept_statusMsg h) (Kept.ite (kept_tempMsg h) h)

theorem kept_goodBlock {p pay s} (h : Kept u₀ s) : Kept u₀ (goodBlock p pay s) := by
  unfold goodBlock
  extract_lets +onlyGivenNames v0 v1 v2 v3 v4
  clear_value v0
  have hv1 : Kept u₀ v1 := kept_wrapI h
  clear_value v1
  have hv2 : Kept u₀ v2 := Kept.ite (kept_laneRaise (kept_updLane hv1)) hv1
  clear_value v2 v3
  have hv4 : Kept u₀ v4 := Kept.forAll (kept_updLane hv2) (fun _ _ => kept_returnMsg)
  clear_value v4
  split
  · exact kept_laneRaise (kept_satI hv4)
  · exact hv4

theorem kept_laneLost {p s} (h : Kept u₀ s) : Kept u₀ (laneLost p s) := by
  unfold laneLost
  extract_lets +onlyGivenNames v0
  have hv0 : Kept u₀ v0 := kept_satI (kept_laneSet h)
  clear_value v0
  exact kept_laneRaise hv0

theorem kept_laneBlock {p bseq gap line s} (h : Kept u₀ s) : Kept u₀ (laneBlock p bseq gap line s) := by
  unfold laneBlock
  refine Kept.ite ?_ h
  extract_lets +onlyGivenNames v0 v1 v2 v3 v4
  clear_value v0
  have hv1 : Kept u₀ v1 := kept_updLane h
  clear_value v1
  have hv2 : Kept u₀ v2 := Kept.ite (kept_laneSet hv1) hv1
  clear_value v2
  have hv3 : Kept u₀ v3 := by
    unfold v3
    split
    · exact kept_blockError hv2
    · exact hv2
  clear_value v3
  have hv4 : Kept u₀ v4 := by
    unfold v4
    split
    · exact kept_goodBlock hv3
    · exact hv3
  clear_value v4
  exact Kept.ite (kept_laneLost hv4) hv4

theorem kept_execLanePllLock {c s} (h : Kept u₀ s) : KeptO u₀ (execLanePllLock c s) := by
  unfold execLanePllLock
  exact KeptO.next (Kept.ite (kept_set h) h)

theorem kept_startMsg {p m f s} (h : Kept u₀ s) : Kept u₀ (startMsg p m f s) := by
  unfold startMsg
  exact kept_updLane h

theorem kept_nextMessage {p s} (h : Kept u₀ s) : Kept u₀ (nextMessage p s) := by
  unfold nextMessage
  extract_lets +onlyGivenNames v0
  clear_value v0
  split
  · extract_lets +onlyGivenNames v1
    clear_value v1
    exact kept_laneSet (kept_startMsg h)
  · split
    · exact kept_startMsg h
    · exact kept_startMsg h
    · exact kept_startMsg h
    · exact h

theorem kept_execLaneMessageStart {port s} (h : Kept u₀ s) : KeptO u₀ (execLaneMessageStart port s) := by
  unfold execLaneMessageStart
  exact KeptO.next (Kept.ite (kept_nextMessage h) h)

theorem kept_laneMiss {p s} (h : Kept u₀ s) : Kept u₀ (laneMiss p s) := by
  unfold laneMiss
  refine Kept.ite ?_ h
  extract_lets +onlyGivenNames v0 v1
  clear_value v0
  have hv1 : Kept u₀ v1 := kept_updLane h
  clear_value v1
  exact Kept.ite (kept_laneLost hv1) hv1

theorem kept_execStatusReceived {port body s} (h : Kept u₀ s) : KeptO u₀ (execStatusReceived port body s) := by
  unfold execStatusReceived
  exact KeptO.next (Kept.ite (kept_statusMsg h) h)

theorem kept_execTempReceived {port body s} (h : Kept u₀ s) : KeptO u₀ (execTempReceived port body s) := by
  unfold execTempReceived
  exact KeptO.next (Kept.ite (kept_tempMsg h) h)

theorem kept_execBridgeSilent {port s} (h : Kept u₀ s) : KeptO u₀ (execBridgeSilent port s) := by
  unfold execBridgeSilent
  exact KeptO.next (Kept.ite (kept_laneRaise (kept_laneSet h)) h)

theorem kept_execLaneTempStale {port s} (h : Kept u₀ s) : KeptO u₀ (execLaneTempStale port s) := by
  unfold execLaneTempStale
  exact KeptO.next (Kept.ite (kept_laneRaise (kept_laneSet h)) h)

theorem kept_execWaveDlGo {port table len poison owner s} (h : Kept u₀ s) : KeptO u₀ (execWaveDlGo port table len
    poison owner s) := by
  unfold execWaveDlGo
  extract_lets +onlyGivenNames v0 v1
  clear_value v0 v1
  exact KeptO.next (Kept.ite (kept_gateReg (fun _ h2 => kept_download (kept_laneSet (kept_laneSet h2))) h) h)

theorem kept_execWaveDlTimeout {port s} (h : Kept u₀ s) : KeptO u₀ (execWaveDlTimeout port s) := by
  unfold execWaveDlTimeout
  refine KeptO.next ?_
  split
  · exact Kept.ite (kept_downloadFail h) h
  · exact h

theorem kept_execBcfgSend {port owner s} (h : Kept u₀ s) : KeptO u₀ (execBcfgSend port owner s) := by
  unfold execBcfgSend
  exact KeptO.next (Kept.ite (kept_gateReg (fun _ => kept_bcfgSend) h) h)

theorem kept_messageSent {p m s} (h : Kept u₀ s) : Kept u₀ (messageSent p m s) := by
  unfold messageSent
  exact Kept.ite (kept_laneSet h) (Kept.ite (kept_updLane h) h)

theorem kept_execTestSequenceLock {port line s} (h : Kept u₀ s) : KeptO u₀ (execTestSequenceLock port line s) := by
  unfold execTestSequenceLock
  exact KeptO.next (Kept.ite (kept_updLane h) h)

theorem kept_setRun {p v s} (h : Kept u₀ s) : Kept u₀ (setRun p v s) := by
  unfold setRun
  extract_lets +onlyGivenNames v0 v1
  have hv0 : Kept u₀ v0 := Kept.ite (kept_pairPortFault h) h
  clear_value v0
  have hv1 : Kept u₀ v1 := kept_set hv0
  clear_value v1
  exact Kept.ite hv1 (kept_set hv1)

theorem kept_dropRun {p s} (h : Kept u₀ s) : Kept u₀ (dropRun p s) := by
  unfold dropRun
  extract_lets +onlyGivenNames v0 v1 v2
  have hv0 : Kept u₀ v0 := kept_proofEnd h
  clear_value v0
  have hv1 : Kept u₀ v1 := kept_updLane hv0
  clear_value v1
  have hv2 : Kept u₀ v2 := kept_updPort hv1
  clear_value v2
  exact kept_set (kept_set hv2)

theorem kept_backlogFault {p l s} (h : Kept u₀ s) : Kept u₀ (backlogFault p l s) := by
  unfold backlogFault
  extract_lets +onlyGivenNames v0
  have hv0 : Kept u₀ v0 := kept_set (kept_setRun (kept_dropRun h))
  clear_value v0
  exact kept_raise hv0

theorem kept_backlogCheck {p s} (h : Kept u₀ s) : Kept u₀ (backlogCheck p s) := by
  unfold backlogCheck
  split
  · exact kept_backlogFault h
  · exact h

theorem kept_replayBad {p n line s} (h : Kept u₀ s) : Kept u₀ (replayBad p n line s) := by
  unfold replayBad
  exact kept_raise (kept_updPort h)

theorem kept_replayRead {p k s} (h : Kept u₀ s) : Kept u₀ (replayRead p k s) := by
  unfold replayRead
  split
  · exact h
  · extract_lets +onlyGivenNames v0 v1 v2 v3
    clear_value v0 v1 v2
    have hv3 : Kept u₀ v3 := kept_updPort (kept_sdramRead h)
    clear_value v3
    exact Kept.ite (kept_replayBad hv3) hv3

theorem kept_askSlot {p k s} (h : Kept u₀ s) : Kept u₀ (askSlot p k s) := by
  unfold askSlot
  split
  · exact h
  · exact Kept.ite h (Kept.ite (Kept.ite (kept_replayRead h) h) (kept_updPort h))

theorem kept_runStarts {p n s} (h : Kept u₀ s) : Kept u₀ (runStarts p n s) := by
  unfold runStarts
  extract_lets +onlyGivenNames v0 v1
  clear_value v0
  have hv1 : Kept u₀ v1 := Kept.ite (kept_setExpected h) (Kept.ite (kept_updPort h) h)
  clear_value v1
  refine Kept.ite hv1 ?_
  extract_lets +onlyGivenNames v2 v3 v4
  clear_value v2 v3
  have hv4 : Kept u₀ v4 := kept_updRegn hv1
  clear_value v4
  exact Kept.forAll hv4 (fun _ _ => kept_startBoundary)

theorem kept_urgency {p s} (h : Kept u₀ s) : Kept u₀ (urgency p s) := by
  unfold urgency
  refine Kept.ite ?_ h
  extract_lets +onlyGivenNames v0 v1
  clear_value v0 v1
  exact Kept.ite (kept_set h) (Kept.ite (kept_set h) h)

theorem kept_takeFolio {p n s} (h : Kept u₀ s) : Kept u₀ (takeFolio p n s) := by
  unfold takeFolio
  extract_lets +onlyGivenNames v0 v1 v2 v3 v4 v5 v6 v7 v8 v9 v10 v11
  clear_value v0
  have hv1 : Kept u₀ v1 := kept_reachBoundary h
  clear_value v1 v2 v3 v4 v5 v6 v7 v8
  have hv9 : Kept u₀ v9 := kept_updPort hv1
  clear_value v9 v10
  have hv11 : Kept u₀ v11 := Kept.ite hv9 (kept_raise hv9)
  clear_value v11
  refine Kept.ite ?_ (kept_set hv11)
  extract_lets +onlyGivenNames v12
  have hv12 : Kept u₀ v12 := kept_updPort hv11
  clear_value v12
  exact kept_raise (kept_wrap (kept_set hv12))

theorem kept_request {p l s} (h : Kept u₀ s) : Kept u₀ (request p l s) := by
  unfold request
  extract_lets +onlyGivenNames v0 v1 v2 v3 v4
  have hv0 : Kept u₀ v0 := Kept.ite (kept_takeFolio h) h
  clear_value v0 v1 v2 v3
  have hv4 : Kept u₀ v4 := kept_updPort hv0
  clear_value v4
  exact Kept.ite (kept_replayRead hv4) hv4

theorem kept_topUp {n a s} (h : Kept u₀ s) : Kept u₀ (topUp n a s) := by
  induction n generalizing s with
  | zero => exact h
  | succ n ih =>
    unfold topUp
    refine Kept.ite h ?_
    split
    · exact Kept.ite (ih (kept_request h)) h
    · exact h

theorem kept_beginRun {p s} (h : Kept u₀ s) : Kept u₀ (beginRun p s) := by
  unfold beginRun
  extract_lets +onlyGivenNames v0
  clear_value v0
  refine Kept.ite (kept_setRun (kept_portInvalid h)) ?_
  extract_lets +onlyGivenNames v1 v2 v3
  clear_value v1
  have hv2 : Kept u₀ v2 := kept_updPort h
  clear_value v2
  have hv3 : Kept u₀ v3 := kept_setRun (kept_runStarts hv2)
  clear_value v3
  exact kept_urgency (kept_topUp (kept_startBoundary hv3))

theorem kept_portRest {p s} (h : Kept u₀ s) : Kept u₀ (portRest p s) := by
  unfold portRest
  exact Kept.ite (kept_requireSelect (kept_updPort (kept_setRun h))) (kept_setRun h)

theorem kept_endTickle {p s} (h : Kept u₀ s) : Kept u₀ (endTickle p s) := by
  unfold endTickle
  exact kept_setRun (kept_requireSelect (kept_updPort h))

theorem kept_portNext {p s} (h : Kept u₀ s) : Kept u₀ (portNext p s) := by
  unfold portNext
  extract_lets +onlyGivenNames v0
  clear_value v0
  split
  · exact Kept.ite (kept_beginRun h) (Kept.ite (kept_portRest h) h)
  · exact Kept.ite h (Kept.ite (kept_updPort h) (Kept.ite (kept_beginRun (kept_endTickle h)) (kept_endTickle h)))
  · exact h

theorem kept_portStart {p s} (h : Kept u₀ s) : Kept u₀ (portStart p s) := by
  unfold portStart
  exact kept_portNext (kept_updPort h)

theorem kept_resume {p s} (h : Kept u₀ s) : Kept u₀ (resume p s) := by
  unfold resume
  extract_lets +onlyGivenNames v0 v1
  clear_value v0 v1
  exact kept_urgency (kept_topUp (kept_setRun (kept_updPort h)))

theorem kept_endRun {p s} (h : Kept u₀ s) : Kept u₀ (endRun p s) := by
  unfold endRun
  exact kept_portRest (kept_dropRun h)

theorem kept_runEnded {p s} (h : Kept u₀ s) : Kept u₀ (runEnded p s) := by
  unfold runEnded
  split
  · exact Kept.ite (kept_setRun (kept_updPort (kept_proofEnd h))) (kept_resume h)
  · exact kept_setRun (kept_dropRun h)
  · exact kept_endRun h

theorem kept_settleStop {p s} (h : Kept u₀ s) : Kept u₀ (settleStop p s) := by
  unfold settleStop
  extract_lets +onlyGivenNames v0
  clear_value v0
  refine Kept.ite h ?_
  refine Kept.ite ?_ (Kept.ite (kept_runEnded h) h)
  extract_lets +onlyGivenNames v1
  have hv1 : Kept u₀ v1 := kept_endTickle h
  clear_value v1
  exact kept_portNext hv1

theorem kept_portStop {p s} (h : Kept u₀ s) : Kept u₀ (portStop p s) := by
  unfold portStop
  extract_lets +onlyGivenNames v0
  have hv0 : Kept u₀ v0 := kept_updPort h
  clear_value v0
  split
  · extract_lets +onlyGivenNames v1
    have hv1 : Kept u₀ v1 := kept_setRun (kept_updLane hv0)
    clear_value v1
    exact kept_settleStop (kept_urgency (kept_updPort hv1))
  · exact hv0
  · exact kept_portNext hv0
  · exact hv0
  · exact kept_setRun (kept_dropRun hv0)

theorem kept_leaveTickle {p s} (h : Kept u₀ s) : Kept u₀ (leaveTickle p s) := by
  unfold leaveTickle
  exact Kept.ite (kept_requireSelect h) h

theorem kept_portDiscard {p s} (h : Kept u₀ s) : Kept u₀ (portDiscard p s) := by
  unfold portDiscard
  exact kept_updPort (kept_dropRun (kept_leaveTickle h))

theorem kept_holdCheck {p s} (h : Kept u₀ s) : Kept u₀ (holdCheck p s) := by
  unfold holdCheck
  extract_lets +onlyGivenNames v0
  clear_value v0
  split
  · split
    · exact Kept.ite (kept_updPort h) h
    · exact h
  · exact h

theorem kept_portHold {p on s} (h : Kept u₀ s) : Kept u₀ (portHold p on s) := by
  unfold portHold
  refine Kept.ite (kept_holdCheck h) ?_
  refine Kept.ite (kept_resume h) ?_
  extract_lets +onlyGivenNames v0
  clear_value v0
  exact Kept.ite (kept_updPort h) h

theorem kept_portHalt {p s} (h : Kept u₀ s) : Kept u₀ (portHalt p s) := by
  unfold portHalt
  exact Kept.ite (kept_dropRun h) (kept_setRun (kept_dropRun (kept_leaveTickle h)))

theorem kept_bufferError {p q s} (h : Kept u₀ s) : Kept u₀ (bufferError p q s) := by
  unfold bufferError
  exact kept_raise (kept_sat (kept_sramUe h))

theorem kept_record {p q levels zero s} (h : Kept u₀ s) : Kept u₀ (record p q levels zero s) := by
  unfold record
  extract_lets +onlyGivenNames v0
  clear_value v0
  refine Kept.ite h ?_
  refine Kept.ite ?_ (kept_updPort h)
  extract_lets +onlyGivenNames v1
  have hv1 : Kept u₀ v1 := kept_sdramWrite h
  clear_value v1
  exact kept_updPort hv1

theorem kept_sendSlot {p k bufErr s} (h : Kept u₀ s) : Kept u₀ (sendSlot p k bufErr s) := by
  unfold sendSlot
  split
  · exact h
  · extract_lets +onlyGivenNames v0 v1 v2 v3 v4 v5 v6 v7 v8
    clear_value v0 v1 v2
    have hv3 : Kept u₀ v3 := Kept.ite (kept_bufferError h) (Kept.ite (kept_underrun h) h)
    clear_value v3
    have hv4 : Kept u₀ v4 := kept_updPort hv3
    clear_value v4 v5
    have hv6 : Kept u₀ v6 := kept_pairLine (kept_record hv4)
    clear_value v6
    have hv7 : Kept u₀ v7 := Kept.ite (kept_requireSelect hv6) (kept_selectOnBand hv6)
    clear_value v7 v8
    exact kept_laneLine hv7

theorem kept_fillSend {n a b s} (h : Kept u₀ s) : Kept u₀ (fillSend n a b s) := by
  induction n generalizing b s with
  | zero => exact h
  | succ n ih =>
    unfold fillSend
    refine Kept.ite ?_ h
    split
    · exact Kept.ite (ih (kept_sendSlot h)) h
    · exact h

theorem kept_portRelease {p s} (h : Kept u₀ s) : Kept u₀ (portRelease p s) := by
  unfold portRelease
  extract_lets +onlyGivenNames v0
  have hv0 : Kept u₀ v0 := kept_updPort h
  clear_value v0
  exact kept_urgency (kept_fillSend (Kept.forAll hv0 (fun _ _ => kept_askSlot)))

theorem kept_stopAfter {p l st s} (h : Kept u₀ s) : Kept u₀ (stopAfter p l st s) := by
  unfold stopAfter
  exact kept_updPort h

theorem kept_portLeave {stopNow p s} (h : Kept u₀ s) : Kept u₀ (portLeave stopNow p s) := by
  unfold portLeave
  split
  · split
    · extract_lets +onlyGivenNames v0
      clear_value v0
      exact kept_settleStop (kept_stopAfter (kept_setRun h))
    · exact kept_endRun h
  · exact kept_endRun h
  · exact kept_endRun h
  · exact kept_endRun h
  · exact h

theorem kept_setStart {p v s} (h : Kept u₀ s) : Kept u₀ (setStart p v s) := by
  unfold setStart
  exact kept_updPort h

theorem kept_startLate {p k s} (h : Kept u₀ s) : Kept u₀ (startLate p k s) := by
  unfold startLate
  extract_lets +onlyGivenNames v0
  clear_value v0
  exact kept_raise (kept_pairStartLate (kept_satI h))

theorem kept_clusterFault {c cause s} (h : Kept u₀ s) : Kept u₀ (clusterFault c cause s) := by
  unfold clusterFault
  extract_lets +onlyGivenNames v0 v1
  have hv0 : Kept u₀ v0 := kept_raise (kept_set h)
  clear_value v0
  have hv1 : Kept u₀ v1 := Kept.forAll hv0 (fun _ _ => kept_pairPortFault)
  clear_value v1
  refine Kept.forAll hv1 ?_
  intro _ _ h3
  split
  · exact Kept.ite (kept_settleStop (kept_urgency (kept_updPort (kept_stopAfter h3)))) (kept_setRun (kept_dropRun
      (kept_leaveTickle h3)))
  · exact kept_setRun (kept_dropRun (kept_leaveTickle h3))

theorem kept_lineComplete {p l levels bufErr s} (h : Kept u₀ s) : Kept u₀ (lineComplete p l levels bufErr s) := by
  unfold lineComplete
  extract_lets +onlyGivenNames v0
  have hv0 : Kept u₀ v0 := kept_updPort h
  clear_value v0
  exact kept_urgency (kept_topUp (kept_fillSend hv0))

theorem kept_sendPoint {p bufErr s} (h : Kept u₀ s) : Kept u₀ (sendPoint p bufErr s) := by
  unfold sendPoint
  split
  · exact Kept.ite (kept_sendSlot h) h
  · exact h

theorem kept_settlePort {p s} (h : Kept u₀ s) : Kept u₀ (settlePort p s) := by
  unfold settlePort
  exact kept_settleStop (kept_backlogCheck (kept_fillSend h))

theorem kept_fallbackCheck {p s} (h : Kept u₀ s) : Kept u₀ (fallbackCheck p s) := by
  unfold fallbackCheck
  extract_lets +onlyGivenNames v0
  clear_value v0
  refine Kept.ite ?_ h
  extract_lets +onlyGivenNames v1 v2
  clear_value v1 v2
  exact kept_raise (kept_set h)

theorem kept_pushDue {p t16 s} (h : Kept u₀ s) : Kept u₀ (pushDue p t16 s) := by
  unfold pushDue
  split
  · exact h
  · exact kept_backlogCheck (kept_updPort h)

theorem kept_dueAtEdge {n a b s} (h : Kept u₀ s) : Kept u₀ (dueAtEdge n a b s) := by
  induction n generalizing s with
  | zero => exact h
  | succ n ih =>
    unfold dueAtEdge
    split
    · exact Kept.ite (ih (kept_pushDue h)) h
    · exact h

theorem kept_portsEdge {ch moved t16 s} (h : Kept u₀ s) : Kept u₀ (portsEdge ch moved t16 s) := by
  unfold portsEdge
  extract_lets +onlyGivenNames v0
  clear_value v0
  refine Kept.forAll h ?_
  intro _ _ h1
  extract_lets +onlyGivenNames v2
  have hv2 : Kept u₀ v2 := kept_fallbackCheck h1
  clear_value v2
  exact Kept.ite (kept_dueAtEdge hv2) hv2

theorem kept_triggerStart {p value s} (h : Kept u₀ s) : Kept u₀ (triggerStart p value s) := by
  unfold triggerStart
  extract_lets +onlyGivenNames v0 v1 v2
  clear_value v0 v1 v2
  exact Kept.ite (kept_fallbackCheck (kept_updPort (kept_setStart h))) (kept_startLate h)

theorem kept_portsTrigger {trig s} (h : Kept u₀ s) : Kept u₀ (portsTrigger trig s) := by
  unfold portsTrigger
  exact Kept.forAll h (fun _ _ => kept_triggerStart)

theorem kept_portsIndex {ch reps s} (h : Kept u₀ s) : Kept u₀ (portsIndex ch reps s) := by
  unfold portsIndex
  refine Kept.forAll h ?_
  intro _ _ h0
  split
  · exact kept_triggerStart h0
  · exact h0

theorem kept_schedule {n a s} (h : Kept u₀ s) : Kept u₀ (schedule n a s) := by
  induction n generalizing s with
  | zero => exact h
  | succ n ih =>
    unfold schedule
    split
    · exact h
    · split
      · exact h
      · exact Kept.ite h (Kept.ite h (ih (kept_pushDue h)))

theorem kept_portsTick {ch s} (h : Kept u₀ s) : Kept u₀ (portsTick ch s) := by
  unfold portsTick
  refine Kept.forAll h ?_
  intro _ _ h0
  extract_lets +onlyGivenNames v1
  have hv1 : Kept u₀ v1 := kept_fallbackCheck (kept_set h0)
  clear_value v1
  exact Kept.ite (kept_schedule hv1) hv1

theorem kept_judgeStart {p s} (h : Kept u₀ s) : Kept u₀ (judgeStart p s) := by
  unfold judgeStart
  extract_lets +onlyGivenNames v0
  clear_value v0
  split
  · exact h
  · extract_lets +onlyGivenNames v1
    clear_value v1
    refine Kept.ite (kept_fallbackCheck (kept_updPort h)) ?_
    extract_lets +onlyGivenNames v2
    clear_value v2
    refine Kept.ite (kept_endRun (kept_updPort (kept_startLate h))) ?_
    extract_lets +onlyGivenNames v3
    clear_value v3
    exact kept_fallbackCheck (kept_updPort (kept_startLate (kept_setStart h)))

theorem kept_execPortArmed {port s} (h : Kept u₀ s) : KeptO u₀ (execPortArmed port s) := by
  unfold execPortArmed
  extract_lets +onlyGivenNames v0
  clear_value v0
  refine KeptO.next ?_
  refine Kept.ite ?_ h
  extract_lets +onlyGivenNames v1
  have hv1 : Kept u₀ v1 := kept_updPort (kept_setRun h)
  clear_value v1
  exact Kept.ite (kept_judgeStart hv1) hv1

theorem kept_phaseError {p s} (h : Kept u₀ s) : Kept u₀ (phaseError p s) := by
  unfold phaseError
  exact kept_clusterFault (kept_sat (kept_sramUe h))

theorem kept_fireLine {p f q d bufErr ptErr corr s} (h : Kept u₀ s) : Kept u₀ (fireLine p f q d bufErr ptErr corr
    s) := by
  unfold fireLine
  extract_lets +onlyGivenNames v0 v1 v2 v3 v4 v5 v6 v7 v8 v9 v10 v11 v12 v13
  clear_value v0 v1 v2
  have hv3 : Kept u₀ v3 := Kept.ite (kept_raise (kept_satI h)) h
  clear_value v3
  have hv4 : Kept u₀ v4 := Kept.ite (kept_setRun hv3) hv3
  clear_value v4
  have hv5 : Kept u₀ v5 := kept_set2 (kept_set (kept_set hv4))
  clear_value v5 v6 v7
  have hv8 : Kept u₀ v8 := kept_updPort hv5
  clear_value v8 v9 v10
  have hv11 : Kept u₀ v11 := kept_proofLine hv8
  clear_value v11
  have hv12 : Kept u₀ v12 := kept_sendPoint (kept_topUp (kept_holdCheck (kept_satI hv11)))
  clear_value v12
  have hv13 : Kept u₀ v13 := kept_urgency hv12
  clear_value v13
  exact kept_trimPast (Kept.ite (kept_phaseError hv13) hv13)

theorem kept_execLineFire {port buf ptErr s} (h : Kept u₀ s) : KeptO u₀ (execLineFire port buf ptErr s) := by
  unfold execLineFire
  extract_lets +onlyGivenNames v0
  clear_value v0
  refine KeptO.next ?_
  split
  · extract_lets +onlyGivenNames v1
    clear_value v1
    refine Kept.ite ?_ h
    split
    · exact kept_backlogFault h
    · exact kept_fireLine h
  · exact h

theorem kept_execReplayError {port line s} (h : Kept u₀ s) : KeptO u₀ (execReplayError port line s) := by
  unfold execReplayError
  refine KeptO.next ?_
  split
  · extract_lets +onlyGivenNames v0
    have hv0 : Kept u₀ v0 := kept_updPort h
    clear_value v0
    exact kept_urgency (kept_fillSend (kept_replayBad hv0))
  · exact h

theorem kept_execTickleStrobe {port s} (h : Kept u₀ s) : KeptO u₀ (execTickleStrobe port s) := by
  unfold execTickleStrobe
  extract_lets +onlyGivenNames v0 v1 v2 v3
  clear_value v0 v1 v2 v3
  exact KeptO.next (Kept.ite (kept_updPort h) h)

theorem kept_execLanePllLockLoss {c s} (h : Kept u₀ s) : KeptO u₀ (execLanePllLockLoss c s) := by
  unfold execLanePllLockLoss
  refine KeptO.next ?_
  refine Kept.ite ?_ h
  extract_lets +onlyGivenNames v0 v1
  have hv0 : Kept u₀ v0 := kept_set h
  clear_value v0 v1
  exact kept_clusterFault (Kept.forAll hv0 (fun _ _ => kept_laneStop))

theorem kept_execMessageWhollySent {port s} (h : Kept u₀ s) : KeptO u₀ (execMessageWhollySent port s) := by
  unfold execMessageWhollySent
  refine KeptO.next ?_
  split
  · extract_lets +onlyGivenNames v0
    have hv0 : Kept u₀ v0 := kept_updLane h
    clear_value v0
    exact Kept.ite (kept_updPort hv0) (kept_messageSent hv0)
  · exact h

theorem kept_updPtp {s f} (h : Kept u₀ s) : Kept u₀ (State.updPtp s f) := by
  unfold State.updPtp
  exact Kept.upd h

theorem kept_updTrig {s k f} (h : Kept u₀ s) : Kept u₀ (State.updTrig s k f) := by
  unfold State.updTrig
  exact Kept.upd h

theorem kept_setEpoch {c t rate step s} (h : Kept u₀ s) : Kept u₀ (setEpoch c t rate step s) := by
  unfold setEpoch
  extract_lets +onlyGivenNames v0
  have hv0 : Kept u₀ v0 := kept_set2 h
  clear_value v0
  exact kept_wrap (kept_updPtp hv0)

theorem kept_setRate {rate s} (h : Kept u₀ s) : Kept u₀ (setRate rate s) := by
  unfold setRate
  exact Kept.ite h (kept_setEpoch h)

theorem kept_trigDiscard {s} (h : Kept u₀ s) : Kept u₀ (trigDiscard s) := by
  unfold trigDiscard
  extract_lets +onlyGivenNames v0
  have hv0 : Kept u₀ v0 := kept_set h
  clear_value v0
  exact Kept.upd hv0

theorem kept_convert {count s} (h : Kept u₀ s) : Kept u₀ (convert count s) := by
  unfold convert
  split
  · extract_lets +onlyGivenNames v0
    clear_value v0
    exact kept_set (kept_set (kept_set2 h))
  · extract_lets +onlyGivenNames v1 v2
    have hv1 : Kept u₀ v1.2 := kept_free h
    clear_value v1
    have hv2 : Kept u₀ v2.2 := kept_free hv1
    clear_value v2
    exact kept_set (kept_set (kept_set2 hv2))

theorem kept_trigLate {k skipped s} (h : Kept u₀ s) : Kept u₀ (trigLate k skipped s) := by
  unfold trigLate
  exact kept_raise h

theorem kept_setTrigArmed {k on s} (h : Kept u₀ s) : Kept u₀ (setTrigArmed k on s) := by
  unfold setTrigArmed
  extract_lets +onlyGivenNames v0
  clear_value v0
  exact kept_set h

theorem kept_trigFire {k s} (h : Kept u₀ s) : Kept u₀ (trigFire k s) := by
  unfold trigFire
  extract_lets +onlyGivenNames v0 v1
  have hv0 : Kept u₀ v0 := Kept.ite (kept_updTrig h) h
  clear_value v0
  have hv1 : Kept u₀ v1 := kept_portsTrigger hv0
  clear_value v1
  exact Kept.ite (kept_setTrigArmed hv1) (kept_updTrig hv1)

theorem kept_trigArm {k s} (h : Kept u₀ s) : Kept u₀ (trigArm k s) := by
  unfold trigArm
  extract_lets +onlyGivenNames v0
  have hv0 : Kept u₀ v0 := kept_updTrig h
  clear_value v0
  refine Kept.ite ?_ (kept_setTrigArmed hv0)
  extract_lets +onlyGivenNames v1
  have hv1 : Kept u₀ v1 := kept_trigLate hv0
  clear_value v1
  exact Kept.ite (kept_trigFire (kept_setTrigArmed hv1)) (kept_setTrigArmed hv1)

theorem kept_trigArmAll {mask s} (h : Kept u₀ s) : Kept u₀ (trigArmAll mask s) := by
  unfold trigArmAll
  exact Kept.forAll h (fun _ _ => kept_trigArm)

theorem kept_trigDisarmAll {mask s} (h : Kept u₀ s) : Kept u₀ (trigDisarmAll mask s) := by
  unfold trigDisarmAll
  exact Kept.forAll h (fun _ _ => kept_setTrigArmed)

theorem kept_capPop {mask s} (h : Kept u₀ s) : Kept u₀ (capPop mask s) := by
  unfold capPop
  refine Kept.forAll h ?_
  intro _ _ h0
  extract_lets +onlyGivenNames v1
  clear_value v1
  exact Kept.upd h0

theorem kept_trigStep {old s} (h : Kept u₀ s) : Kept u₀ (trigStep old s) := by
  unfold trigStep
  refine Kept.forAll h ?_
  intro _ _ h0
  extract_lets +onlyGivenNames v1 v2 v3
  clear_value v1 v2 v3
  refine Kept.ite h0 ?_
  extract_lets +onlyGivenNames v4 v5 v6 v7 v8 v9
  clear_value v4 v5 v6 v7
  have hv8 : Kept u₀ v8 := kept_trigLate (kept_satI h0)
  clear_value v8
  have hv9 : Kept u₀ v9 := Kept.ite (kept_trigFire hv8) (Kept.ite (kept_setTrigArmed hv8) hv8)
  clear_value v9
  exact Kept.ite hv9 (kept_updTrig hv9)

theorem kept_execConvCountWrite {count owner s} (h : Kept u₀ s) : KeptO u₀ (execConvCountWrite count owner s) := by
  unfold execConvCountWrite
  refine KeptO.next ?_
  refine kept_gateReg ?_ h
  intro _ h0
  refine kept_gateReg ?_ h0
  intro _ h1
  extract_lets +onlyGivenNames v2
  have hv2 : Kept u₀ v2 := kept_set2 h1
  clear_value v2
  exact kept_convert hv2

theorem kept_execTimeCaptureRead {owner s} (h : Kept u₀ s) : KeptO u₀ (execTimeCaptureRead owner s) := by
  unfold execTimeCaptureRead
  exact KeptO.next (Kept.ite h (kept_updPtp (Kept.upd h)))

theorem kept_execTrigArm {mask owner s} (h : Kept u₀ s) : KeptO u₀ (execTrigArm mask owner s) := by
  unfold execTrigArm
  exact KeptO.next (kept_gateReg (fun _ => kept_trigArmAll) h)

theorem kept_execTrigDisarm {mask owner s} (h : Kept u₀ s) : KeptO u₀ (execTrigDisarm mask owner s) := by
  unfold execTrigDisarm
  exact KeptO.next (kept_gateReg (fun _ => kept_trigDisarmAll) h)

theorem kept_execTriggerFire {k s} (h : Kept u₀ s) : KeptO u₀ (execTriggerFire k s) := by
  unfold execTriggerFire
  exact KeptO.next (Kept.ite (kept_trigFire h) h)

theorem kept_execTcapEdge {c rising s} (h : Kept u₀ s) : KeptO u₀ (execTcapEdge c rising s) := by
  unfold execTcapEdge
  extract_lets +onlyGivenNames v0 v1
  clear_value v0 v1
  exact KeptO.next (Kept.ite (Kept.ite (Kept.upd h) (Kept.ite h (kept_raise (Kept.upd h)))) h)

theorem kept_execCapPop {mask owner s} (h : Kept u₀ s) : KeptO u₀ (execCapPop mask owner s) := by
  unfold execCapPop
  exact KeptO.next (kept_gateReg (fun _ => kept_capPop) h)

theorem kept_refuseGo {s} (h : Kept u₀ s) : Kept u₀ (refuseGo s) := by
  unfold refuseGo
  split
  · exact Kept.ite (kept_raise (kept_set (Kept.upd h))) h
  · exact h

theorem kept_leaveDormant {s} (h : Kept u₀ s) : Kept u₀ (leaveDormant s) := by
  unfold leaveDormant
  exact Kept.ite h (Kept.upd h)

theorem kept_startTransition {dst s} (h : Kept u₀ s) : Kept u₀ (startTransition dst s) := by
  unfold startTransition
  exact kept_set (kept_set h)

theorem kept_setCause {i s} (h : Kept u₀ s) : Kept u₀ (setCause i s) := by
  unfold setCause
  refine Kept.ite h ?_
  extract_lets +onlyGivenNames v0
  have hv0 : Kept u₀ v0 := kept_refuseGo (kept_stamp (kept_set h))
  clear_value v0
  exact Kept.ite (Kept.ite (kept_set (kept_set (kept_leaveDormant hv0))) hv0) (Kept.ite hv0 (kept_startTransition
      (kept_leaveDormant hv0)))

end Sys2Proof.Machine
end

