-- ==== Sys2Proof/Laws/KeptPower.lean ====
section
/-! SUPPORT. The operations of the Sagger, the store, the rails and PTP keep the time, the queue and the canonical form. -/

-- One declaration after another: the package is also checked as one text, where too many threads would start at once.
set_option Elab.async false

namespace Sys2Proof.Machine

variable {u₀ : State}

theorem kept_updSag {s f} (h : Kept u₀ s) : Kept u₀ (State.updSag s f) := by
  unfold State.updSag
  exact Kept.upd h

theorem kept_sagRaise {e arg s} (h : Kept u₀ s) : Kept u₀ (sagRaise e arg s) := by
  unfold sagRaise
  exact Kept.ite h (kept_raise h)

theorem kept_paramReject {reason s} (h : Kept u₀ s) : Kept u₀ (paramReject reason s) := by
  unfold paramReject
  exact kept_sagRaise (kept_set (kept_set h))

theorem kept_sagLatch {s} (h : Kept u₀ s) : Kept u₀ (sagLatch s) := by
  unfold sagLatch
  exact Kept.ite (kept_setCause h) h

theorem kept_sagOutputs {s} (h : Kept u₀ s) : Kept u₀ (sagOutputs s) := by
  unfold sagOutputs
  extract_lets -merge -underBinder +onlyGivenNames v0 v1 v2 v3 v4 v5 v6
  clear_value v0 v1 v2 v3
  have hv4 : Kept u₀ v4 := Kept.upd h
  clear_value v4
  have hv5 : Kept u₀ v5 := kept_set (kept_set hv4)
  clear_value v5
  have hv6 : Kept u₀ v6 := kept_set (kept_set hv5)
  clear_value v6
  exact kept_sagLatch (kept_set hv6)

theorem kept_setSagState {new cause s} (h : Kept u₀ s) : Kept u₀ (setSagState new cause s) := by
  unfold setSagState
  extract_lets +onlyGivenNames v0 v1 v2
  clear_value v0
  have hv1 : Kept u₀ v1 := kept_set (kept_set h)
  clear_value v1
  have hv2 : Kept u₀ v2 := kept_set hv1
  clear_value v2
  exact Kept.ite hv2 (kept_sagRaise hv2)

theorem kept_sagPorst {s} (h : Kept u₀ s) : Kept u₀ (sagPorst s) := by
  unfold sagPorst
  exact Kept.ite (kept_sagOutputs (kept_setSagState h)) h

theorem kept_keyBreak {s} (h : Kept u₀ s) : Kept u₀ (keyBreak s) := by
  unfold keyBreak
  extract_lets +onlyGivenNames v0
  clear_value v0
  exact Kept.ite (kept_paramReject h) h

theorem kept_sagCmd {start stop reset s} (h : Kept u₀ s) : Kept u₀ (sagCmd start stop reset s) := by
  unfold sagCmd
  exact kept_updSag (kept_keyBreak h)

theorem kept_paramKey {value s} (h : Kept u₀ s) : Kept u₀ (paramKey value s) := by
  unfold paramKey
  extract_lets +onlyGivenNames v0 v1 v2
  clear_value v0 v1
  have hv2 : ∀ x0 x1, Kept u₀ x1 → Kept u₀ (v2 x0 x1) := by
    unfold v2
    exact fun _ _ h3 => kept_updSag (kept_set h3)
  clear_value v2
  exact Kept.ite (Kept.ite (hv2 _ _ h) h) (Kept.ite (hv2 _ _ h) (kept_keyBreak h))

theorem kept_paramJudge {s} (h : Kept u₀ s) : Kept u₀ (paramJudge s) := by
  unfold paramJudge
  extract_lets +onlyGivenNames v0 v1
  clear_value v0 v1
  exact Kept.ite (kept_paramReject h) (Kept.ite (kept_paramReject h) (Kept.ite (kept_paramReject h) (Kept.ite
      (kept_paramReject h) (kept_journalAsk (kept_set h)))))

theorem kept_paramCommit {s} (h : Kept u₀ s) : Kept u₀ (paramCommit s) := by
  unfold paramCommit
  extract_lets +onlyGivenNames v0
  clear_value v0
  exact Kept.ite (kept_paramJudge h) (Kept.ite h (kept_paramReject h))

theorem kept_sagDiag {row n s} (h : Kept u₀ s) : Kept u₀ (sagDiag row n s) := by
  unfold sagDiag
  exact kept_sagRaise (kept_sat h)

theorem kept_sagTrip {fn s} (h : Kept u₀ s) : Kept u₀ (sagTrip fn s) := by
  unfold sagTrip
  exact kept_sagRaise h

theorem kept_enterSafe {cause s} (h : Kept u₀ s) : Kept u₀ (enterSafe cause s) := by
  unfold enterSafe
  exact Kept.ite (kept_setSagState h) (Kept.ite (kept_set h) h)

theorem kept_channelLost {ch row s} (h : Kept u₀ s) : Kept u₀ (channelLost ch row s) := by
  unfold channelLost
  refine Kept.ite ?_ h
  extract_lets +onlyGivenNames v0 v1
  have hv0 : Kept u₀ v0 := kept_sagDiag (kept_set h)
  clear_value v0
  have hv1 : Kept u₀ v1 := kept_sagRaise hv0
  clear_value v1
  exact Kept.ite (kept_sagTrip (kept_enterSafe hv1)) (Kept.ite (kept_enterSafe hv1) hv1)

theorem kept_crossCompare {v s} (h : Kept u₀ s) : Kept u₀ (crossCompare v s) := by
  unfold crossCompare
  refine Kept.ite ?_ h
  split
  · extract_lets +onlyGivenNames v0 v1
    clear_value v0
    have hv1 : Kept u₀ v1 := kept_updSag h
    clear_value v1
    exact Kept.ite (kept_channelLost hv1) hv1
  · exact kept_updSag h

theorem kept_execSaggerPowerOn {s} (h : Kept u₀ s) : KeptO u₀ (execSaggerPowerOn s) := by
  unfold execSaggerPowerOn
  exact KeptO.next (Kept.ite (kept_set (kept_updSag h)) h)

theorem kept_execVddSagOutOfRange {s} (h : Kept u₀ s) : KeptO u₀ (execVddSagOutOfRange s) := by
  unfold execVddSagOutOfRange
  extract_lets +onlyGivenNames v0
  have hv0 : Kept u₀ v0 := Kept.forAll (kept_breakLocks h) (fun _ _ h1 => Kept.forAll h1 (fun _ _ => kept_setI))
  clear_value v0
  exact KeptO.next (kept_sagLatch (kept_updSag hv0))

theorem kept_takeParams {w s} (h : Kept u₀ s) : Kept u₀ (takeParams w s) := by
  unfold takeParams
  extract_lets +onlyGivenNames v0
  have hv0 : Kept u₀ v0 := Kept.forAll h (fun _ _ => kept_setI)
  clear_value v0
  exact kept_set (kept_set hv0)

theorem kept_execSelftestEnd {passed s} (h : Kept u₀ s) : KeptO u₀ (execSelftestEnd passed s) := by
  unfold execSelftestEnd
  refine KeptO.next ?_
  refine Kept.ite ?_ h
  extract_lets +onlyGivenNames v0 v1 v2
  have hv0 : Kept u₀ v0 := kept_set (kept_updSag h)
  clear_value v0
  have hv1 : Kept u₀ v1 := by
    unfold v1
    refine Kept.ite (kept_setSagState hv0) ?_
    split
    · exact kept_setSagState (kept_takeParams hv0)
    · exact kept_setSagState hv0
  clear_value v1
  have hv2 : Kept u₀ v2 := kept_sagOutputs hv1
  clear_value v2
  exact kept_sagLatch (Kept.ite hv2 (kept_set hv2))

theorem kept_sagReadback {balls s} (h : Kept u₀ s) : Kept u₀ (sagReadback balls s) := by
  unfold sagReadback
  extract_lets +onlyGivenNames v0 v1
  clear_value v0
  have hv1 : Kept u₀ v1 := kept_updSag h
  clear_value v1
  split
  · exact hv1
  · exact kept_enterSafe (kept_sagDiag hv1)

theorem kept_sagFinding {row n s} (h : Kept u₀ s) : Kept u₀ (sagFinding row n s) := by
  unfold sagFinding
  refine Kept.ite (kept_channelLost h) ?_
  refine Kept.ite ?_ (Kept.ite (kept_enterSafe (kept_sagDiag h)) (Kept.ite (Kept.ite (kept_updSag h) (Kept.ite
      (kept_enterSafe (kept_sagDiag h)) (kept_updSag h))) h))
  extract_lets +onlyGivenNames v0
  have hv0 : Kept u₀ v0 := kept_enterSafe (kept_sagDiag h)
  clear_value v0
  exact Kept.ite hv0 (kept_sagTrip hv0)

theorem kept_latchTrip {f mask fn s} (h : Kept u₀ s) : Kept u₀ (latchTrip f mask fn s) := by
  unfold latchTrip
  extract_lets +onlyGivenNames v0 v1
  clear_value v0 v1
  refine Kept.ite h ?_
  extract_lets +onlyGivenNames v2
  have hv2 : Kept u₀ v2 := kept_satI (kept_set h)
  clear_value v2
  exact Kept.ite hv2 (kept_sagTrip hv2)

theorem kept_sagPair {k open_ fail s} (h : Kept u₀ s) : Kept u₀ (sagPair k open_ fail s) := by
  unfold sagPair
  extract_lets +onlyGivenNames v0 v1
  clear_value v0 v1
  refine Kept.ite (kept_updSag h) ?_
  extract_lets +onlyGivenNames v2 v3
  have hv2 : Kept u₀ v2 := Kept.forAll h (fun _ _ => kept_sagDiag)
  clear_value v2 v3
  refine Kept.ite (kept_updSag hv2) ?_
  extract_lets +onlyGivenNames v5 v6 v7
  clear_value v5
  have hv6 : Kept u₀ v6 := kept_updSag hv2
  clear_value v6
  have hv7 : Kept u₀ v7 := Kept.ite (kept_setSagState hv6) hv6
  clear_value v7
  exact kept_latchTrip hv7

theorem kept_sagSpeed {encs bothOk s} (h : Kept u₀ s) : Kept u₀ (sagSpeed encs bothOk s) := by
  unfold sagSpeed
  extract_lets +onlyGivenNames v0 v1 v2 v3
  clear_value v0 v1
  have hv2 : Kept u₀ v2 := kept_set h
  clear_value v2
  have hv3 : Kept u₀ v3 := Kept.ite hv2 (kept_set hv2)
  clear_value v3
  refine Kept.forAll hv3 ?_
  intro _ _ h4
  extract_lets +onlyGivenNames v5 v6
  clear_value v5 v6
  refine Kept.ite ?_ (Kept.ite (kept_set h4) h4)
  extract_lets +onlyGivenNames v7
  have hv7 : Kept u₀ v7 := kept_set h4
  clear_value v7
  exact Kept.ite (kept_sagTrip hv7) hv7

theorem kept_sagReset {sourceOk s} (h : Kept u₀ s) : Kept u₀ (sagReset sourceOk s) := by
  unfold sagReset
  extract_lets +onlyGivenNames v0
  clear_value v0
  refine Kept.ite (kept_sagRaise h) ?_
  extract_lets +onlyGivenNames v1
  have hv1 : Kept u₀ v1 := Kept.forAll h (fun _ _ => kept_set)
  clear_value v1
  exact kept_updSag hv1

theorem kept_sagStart {s} (h : Kept u₀ s) : Kept u₀ (sagStart s) := by
  unfold sagStart
  exact Kept.ite h (Kept.ite (kept_setSagState h) (kept_sagRaise h))

theorem kept_sagRequests {s} (h : Kept u₀ s) : Kept u₀ (sagRequests s) := by
  unfold sagRequests
  extract_lets +onlyGivenNames v0 v1 v2
  have hv1 : Kept u₀ v1 := kept_updSag h
  have hv2 : Kept u₀ v2 := by
    unfold v2
    split
    · exact kept_sagReset hv1
    · exact hv1
  exact Kept.ite (Kept.ite (kept_setSagState hv2) hv2) (Kept.ite (kept_sagStart hv2) hv2)

theorem kept_sagReplica {s} (h : Kept u₀ s) : Kept u₀ (sagReplica s) := by
  unfold sagReplica
  extract_lets +onlyGivenNames v0
  clear_value v0
  refine Kept.ite h ?_
  extract_lets +onlyGivenNames v1
  have hv1 : Kept u₀ v1 := kept_set (kept_updSag h)
  clear_value v1
  exact Kept.ite (kept_latchTrip hv1) hv1

theorem kept_execSaggerCycle {chans senc resetN ov readback found s} (h : Kept u₀ s) : KeptO u₀ (execSaggerCycle
    chans senc resetN ov readback found s) := by
  unfold execSaggerCycle
  refine KeptO.next ?_
  refine Kept.ite ?_ h
  extract_lets +onlyGivenNames v0 v1 v2 v3 v4 v5 v6 v7 v8 v9
  clear_value v0
  have hv1 : Kept u₀ v1 := kept_crossCompare h
  clear_value v1
  have hv2 : Kept u₀ v2 := kept_sagReadback (Kept.forAll hv1 (fun _ _ => kept_sagFinding))
  clear_value v2 v3 v4 v5
  have hv6 : Kept u₀ v6 := kept_set (kept_set hv2)
  clear_value v6
  have hv7 : Kept u₀ v7 := kept_updSag hv6
  clear_value v7
  have hv8 : Kept u₀ v8 := kept_sagPair (kept_sagPair hv7)
  clear_value v8
  have hv9 : Kept u₀ v9 := kept_sagSpeed hv8
  clear_value v9
  exact kept_sagOutputs (kept_sagRequests (kept_sagReplica hv9))

theorem kept_execSaggerAdcRound {codes ref300 ref1200 s} (h : Kept u₀ s) : KeptO u₀ (execSaggerAdcRound codes
    ref300 ref1200 s) := by
  unfold execSaggerAdcRound
  refine KeptO.next ?_
  refine Kept.ite h ?_
  refine Kept.ite ?_ ?_
  · extract_lets +onlyGivenNames v0
    have hv0 : Kept u₀ v0 := kept_sagDiag (kept_updSag h)
    clear_value v0
    exact Kept.ite (kept_sagOutputs (kept_enterSafe hv0)) hv0
  · extract_lets +onlyGivenNames v1 v2 v3 v4 v5
    have hv1 : Kept u₀ v1 := Kept.forAll h (fun _ _ h6 => kept_setI (kept_setI h6))
    clear_value v1 v2 v3
    have hv4 : Kept u₀ v4 := kept_updSag hv1
    clear_value v4
    have hv5 : Kept u₀ v5 := kept_latchTrip (kept_latchTrip hv4)
    clear_value v5
    exact kept_sagOutputs (kept_latchTrip hv5)

theorem kept_execOvComparatorTrip {c b s} (h : Kept u₀ s) : KeptO u₀ (execOvComparatorTrip c b s) := by
  unfold execOvComparatorTrip
  refine KeptO.next ?_
  refine Kept.ite ?_ h
  extract_lets +onlyGivenNames v0
  have hv0 : Kept u₀ v0 := kept_updSag h
  clear_value v0
  exact kept_sagOutputs (kept_latchTrip hv0)

theorem kept_execChannelWatchdogTimeout {ch s} (h : Kept u₀ s) : KeptO u₀ (execChannelWatchdogTimeout ch s) := by
  unfold execChannelWatchdogTimeout
  exact KeptO.next (Kept.ite (kept_sagOutputs (kept_channelLost h)) h)

theorem kept_execSagStart {owner s} (h : Kept u₀ s) : KeptO u₀ (execSagStart owner s) := by
  unfold execSagStart
  exact KeptO.next (kept_gateReg (fun _ => kept_sagCmd) h)

theorem kept_execSagStop {start owner s} (h : Kept u₀ s) : KeptO u₀ (execSagStop start owner s) := by
  unfold execSagStop
  exact KeptO.next (kept_gateReg (fun _ => kept_sagCmd) h)

theorem kept_execSagReset {owner s} (h : Kept u₀ s) : KeptO u₀ (execSagReset owner s) := by
  unfold execSagReset
  exact KeptO.next (kept_gateReg (fun _ => kept_sagCmd) h)

theorem kept_execResetButtonRelease {lowUs s} (h : Kept u₀ s) : KeptO u₀ (execResetButtonRelease lowUs s) := by
  unfold execResetButtonRelease
  exact KeptO.next (Kept.ite (kept_updSag h) h)

theorem kept_execParamKeyWrite {value owner s} (h : Kept u₀ s) : KeptO u₀ (execParamKeyWrite value owner s) := by
  unfold execParamKeyWrite
  exact KeptO.next (kept_gateReg (fun _ => kept_paramKey) h)

theorem kept_execParamCommit {owner s} (h : Kept u₀ s) : KeptO u₀ (execParamCommit owner s) := by
  unfold execParamCommit
  exact KeptO.next (kept_gateReg (fun _ => kept_paramCommit) h)

theorem kept_paramDone {data s} (h : Kept u₀ s) : Kept u₀ (paramDone data s) := by
  unfold paramDone
  extract_lets +onlyGivenNames v0 v1 v2
  clear_value v0
  have hv1 : Kept u₀ v1 := kept_set (kept_takeParams h)
  clear_value v1
  have hv2 : Kept u₀ v2 := kept_sagRaise hv1
  clear_value v2
  exact kept_sagOutputs (Kept.ite (kept_setSagState hv2) hv2)

theorem kept_execParamKeyTimeout {s} (h : Kept u₀ s) : KeptO u₀ (execParamKeyTimeout s) := by
  unfold execParamKeyTimeout
  exact KeptO.next (Kept.ite (kept_keyBreak h) h)

theorem kept_appendSlot {x seq s} (h : Kept u₀ s) : Kept u₀ (appendSlot x seq s) := by
  unfold appendSlot
  exact kept_set (kept_setArea h)

theorem kept_norScramble {a n s} (h : Kept u₀ s) : Kept u₀ (norScramble a n s) := by
  unfold norScramble
  refine Kept.forAll h ?_
  intro _ _ h0
  extract_lets +onlyGivenNames v1 v2
  have hv1 : Kept u₀ v1.2 := kept_free h0
  clear_value v1
  have hv2 : Kept u₀ v2 := hv1
  clear_value v2
  exact Kept.upd hv2

theorem kept_norStop {s} (h : Kept u₀ s) : Kept u₀ (norStop s) := by
  unfold norStop
  extract_lets +onlyGivenNames v0
  clear_value v0
  exact Kept.ite (kept_norScramble (kept_set h)) (Kept.ite (kept_set h) h)

theorem kept_objFail {reason o s} (h : Kept u₀ s) : Kept u₀ (objFail reason o s) := by
  unfold objFail
  exact Kept.ite (kept_raise (kept_set h)) (Kept.ite (kept_paramReject h) (Kept.ite (kept_calFail h) h))

theorem kept_journalStop {cause s} (h : Kept u₀ s) : Kept u₀ (journalStop cause s) := by
  unfold journalStop
  refine Kept.ite h ?_
  extract_lets +onlyGivenNames v0 v1 v2 v3
  clear_value v0 v1 v2
  have hv3 : Kept u₀ v3 := kept_updJrn h
  clear_value v3
  exact kept_norStop (Kept.forAll hv3 (fun _ _ => kept_objFail))

theorem kept_storeDiscard {s} (h : Kept u₀ s) : Kept u₀ (storeDiscard s) := by
  unfold storeDiscard
  extract_lets +onlyGivenNames v0 v1
  clear_value v0 v1
  exact kept_norStop (Kept.forAll (kept_updJrn h) (fun _ _ => kept_objFail))

theorem kept_startDormant {cause s} (h : Kept u₀ s) : Kept u₀ (startDormant cause s) := by
  unfold startDormant
  refine kept_journalStop ?_
  extract_lets +onlyGivenNames v0
  have hv0 : Kept u₀ v0 := kept_startTransition h
  clear_value v0
  exact Kept.upd hv0

theorem kept_storeTear {s} (h : Kept u₀ s) : Kept u₀ (storeTear s) := by
  unfold storeTear
  extract_lets +onlyGivenNames v0 v1
  have hv0 : Kept u₀ v0 := by
    unfold v0
    split
    · exact kept_setArea h
    · exact h
  have hv1 : Kept u₀ v1 := Kept.ite (kept_norScramble hv0) (Kept.ite (kept_norScramble hv0) hv0)
  clear_value v1
  exact kept_updJrn hv1

theorem kept_setRestored {pg v s} (h : Kept u₀ s) : Kept u₀ (setRestored pg v s) := by
  unfold setRestored
  extract_lets +onlyGivenNames v0
  clear_value v0
  exact kept_setI h

theorem kept_putRet {pg f i v s} (h : Kept u₀ s) : Kept u₀ (putRet pg f i v s) := by
  unfold putRet
  extract_lets +onlyGivenNames v0
  have hv0 : Kept u₀ v0 := kept_setI h
  clear_value v0
  exact Kept.ite (kept_setShadow hv0) hv0

theorem kept_restorePage {pg s} (h : Kept u₀ s) : Kept u₀ (restorePage pg s) := by
  unfold restorePage
  extract_lets +onlyGivenNames v0 v1
  clear_value v0 v1
  refine Kept.ite h ?_
  split
  · exact kept_setRestored (Kept.forAll h (fun _ _ => kept_putRet))
  · extract_lets +onlyGivenNames v3
    have hv3 : Kept u₀ v3 := kept_setRestored (Kept.forAll h (fun _ _ => kept_putRet))
    clear_value v3
    split
    · exact kept_raise hv3
    · exact hv3

theorem kept_storeReady {s} (h : Kept u₀ s) : Kept u₀ (storeReady s) := by
  unfold storeReady
  refine Kept.ite h ?_
  extract_lets +onlyGivenNames v0 v1 v2 v3 v4 v5 v6 v7
  clear_value v0
  have hv1 : Kept u₀ v1 := kept_set h
  clear_value v1 v2 v3 v4 v5 v6
  have hv7 : Kept u₀ v7 := kept_set (kept_set (kept_set hv1))
  clear_value v7
  exact kept_raise (kept_set hv7)

theorem kept_journalSave {pg s} (h : Kept u₀ s) : Kept u₀ (journalSave pg s) := by
  unfold journalSave
  extract_lets +onlyGivenNames v0
  clear_value v0
  exact Kept.ite h (Kept.ite (kept_journalAsk (kept_set h)) (kept_raise h))

theorem kept_journalCtrl {pg s} (h : Kept u₀ s) : Kept u₀ (journalCtrl pg s) := by
  unfold journalCtrl
  exact kept_journalSave (kept_set h)

theorem kept_objDone {o s} (h : Kept u₀ s) : Kept u₀ (objDone o s) := by
  unfold objDone
  exact Kept.ite (kept_set h) (Kept.ite (kept_paramDone h) (Kept.ite (kept_calDone h) h))

theorem kept_recordEnds {ok s} (h : Kept u₀ s) : Kept u₀ (recordEnds ok s) := by
  unfold recordEnds
  split
  · exact h
  · extract_lets +onlyGivenNames v0
    have hv0 : Kept u₀ v0 := kept_updJrn (kept_appendSlot h)
    clear_value v0
    split
    · exact hv0
    · extract_lets +onlyGivenNames v1
      have hv1 : Kept u₀ v1 := kept_updJrn hv0
      clear_value v1
      exact Kept.ite (kept_objFail hv1) (Kept.ite (kept_objDone hv1) (kept_updJrn hv0))

theorem kept_execJournalRecordProgrammed {ok s} (h : Kept u₀ s) : KeptO u₀ (execJournalRecordProgrammed ok s) := by
  unfold execJournalRecordProgrammed
  exact KeptO.next (Kept.ite (kept_journalNext (kept_recordEnds h)) h)

theorem kept_norProgram {s} (h : Kept u₀ s) : Kept u₀ (norProgram s) := by
  unfold norProgram
  extract_lets +onlyGivenNames v0
  clear_value v0
  refine Kept.forAll h ?_
  intro _ _ h1
  extract_lets +onlyGivenNames v2 v3 v4
  clear_value v2 v3 v4
  exact Kept.upd h1

theorem kept_norDone {s} (h : Kept u₀ s) : Kept u₀ (norDone s) := by
  unfold norDone
  extract_lets +onlyGivenNames v0 v1
  clear_value v0
  have hv1 : Kept u₀ v1 := kept_set h
  clear_value v1
  exact Kept.ite (kept_setAptBytes hv1) (Kept.ite (kept_norProgram hv1) (Kept.ite (Kept.forAll hv1 (fun _ _ =>
      Kept.upd)) h))

theorem kept_journalClose {cause s} (h : Kept u₀ s) : Kept u₀ (journalClose cause s) := by
  unfold journalClose
  extract_lets +onlyGivenNames v0 v1 v2
  have hv0 : Kept u₀ v0 := kept_recordEnds (Kept.ite (kept_norDone h) h)
  clear_value v0 v1
  have hv2 : Kept u₀ v2 := Kept.ite (kept_appendSlot hv0) hv0
  clear_value v2
  exact kept_updJrn hv2

theorem kept_execJournalSave {pg owner s} (h : Kept u₀ s) : KeptO u₀ (execJournalSave pg owner s) := by
  unfold execJournalSave
  exact KeptO.next (kept_gateReg (fun _ => kept_journalCtrl) h)

theorem kept_execJournalEraseDone {s} (h : Kept u₀ s) : KeptO u₀ (execJournalEraseDone s) := by
  unfold execJournalEraseDone
  refine KeptO.next ?_
  refine Kept.ite ?_ h
  extract_lets +onlyGivenNames v0 v1 v2 v3
  clear_value v0 v1
  have hv2 : Kept u₀ v2 := kept_set (kept_set h)
  clear_value v2
  have hv3 : Kept u₀ v3 := kept_updJrn (kept_setArea (kept_set hv2))
  clear_value v3
  split
  · exact Kept.ite (kept_journalNext (kept_objFail (kept_updJrn hv3))) (kept_journalNext hv3)
  · exact hv3

theorem kept_updRail {s f} (h : Kept u₀ s) : Kept u₀ (State.updRail s f) := by
  unfold State.updRail
  exact Kept.upd h

theorem kept_avsUpdate {cold s} (h : Kept u₀ s) : Kept u₀ (avsUpdate cold s) := by
  unfold avsUpdate
  extract_lets +onlyGivenNames v0
  clear_value v0
  exact kept_set h

theorem kept_seqDiscard {s} (h : Kept u₀ s) : Kept u₀ (seqDiscard s) := by
  unfold seqDiscard
  exact kept_updRail h

theorem kept_railsPorst {s} (h : Kept u₀ s) : Kept u₀ (railsPorst s) := by
  unfold railsPorst
  exact kept_updRail (Kept.forAll (kept_set h) (fun _ _ => kept_setI))

theorem kept_setSeq {state step s} (h : Kept u₀ s) : Kept u₀ (setSeq state step s) := by
  unfold setSeq
  exact kept_set (kept_set h)

theorem kept_turnOn {k s} (h : Kept u₀ s) : Kept u₀ (turnOn k s) := by
  unfold turnOn
  extract_lets +onlyGivenNames v0
  have hv0 : Kept u₀ v0 := kept_updRail (kept_setI h)
  clear_value v0
  exact Kept.ite (kept_updRail (kept_set hv0)) hv0

theorem kept_rampFrom {a s} (h : Kept u₀ s) : Kept u₀ (rampFrom a s) := by
  unfold rampFrom
  extract_lets +onlyGivenNames v0
  have hv0 : Kept u₀ v0 := kept_updRail h
  clear_value v0
  split
  · exact Kept.forAll (kept_setSeq hv0) (fun _ _ => kept_turnOn)
  · exact kept_raise (kept_setSeq hv0)

theorem kept_seqReady {s} (h : Kept u₀ s) : Kept u₀ (seqReady s) := by
  unfold seqReady
  exact Kept.ite (kept_rampFrom h) h

theorem kept_showReading {k mv s} (h : Kept u₀ s) : Kept u₀ (showReading k mv s) := by
  unfold showReading
  extract_lets +onlyGivenNames v0
  have hv0 : Kept u₀ v0 := kept_setI (kept_setI h)
  clear_value v0
  exact Kept.ite (kept_set hv0) hv0

theorem kept_showReadings {readings s} (h : Kept u₀ s) : Kept u₀ (showReadings readings s) := by
  unfold showReadings
  refine Kept.forAll h ?_
  intro _ _ h0
  split
  · exact Kept.ite (kept_showReading h0) h0
  · exact h0

theorem kept_clearFault {readings s} (h : Kept u₀ s) : Kept u₀ (clearFault readings s) := by
  unfold clearFault
  exact Kept.forAll (kept_showReadings h) (fun _ _ h0 => Kept.ite (kept_updRail (kept_setI h0)) h0)

theorem kept_railEvent {k kind s} (h : Kept u₀ s) : Kept u₀ (railEvent k kind s) := by
  unfold railEvent
  exact kept_raise h

theorem kept_railFails {k kind s} (h : Kept u₀ s) : Kept u₀ (railFails k kind s) := by
  unfold railFails
  refine Kept.ite h ?_
  extract_lets +onlyGivenNames v0
  have hv0 : Kept u₀ v0 := kept_setCause (kept_railEvent (kept_setI h))
  clear_value v0
  exact Kept.ite (Kept.ite (kept_startDormant hv0) (kept_updRail hv0)) hv0

theorem kept_coreFault {kind value phase s} (h : Kept u₀ s) : Kept u₀ (coreFault kind value phase s) := by
  unfold coreFault
  exact kept_railFails (kept_raise h)

theorem kept_pollRail {k mv s} (h : Kept u₀ s) : Kept u₀ (pollRail k mv s) := by
  unfold pollRail
  extract_lets +onlyGivenNames v0
  have hv0 : Kept u₀ v0 := kept_updRail (kept_showReading h)
  clear_value v0
  refine Kept.ite hv0 ?_
  refine Kept.ite (kept_updRail hv0) ?_
  extract_lets +onlyGivenNames v1 v2
  clear_value v1
  have hv2 : Kept u₀ v2 := kept_updRail hv0
  clear_value v2
  exact Kept.ite (kept_railFails hv2) hv2

theorem kept_pollRound {s} (h : Kept u₀ s) : Kept u₀ (pollRound s) := by
  unfold pollRound
  refine Kept.forAll h ?_
  intro _ _ h0
  refine Kept.ite ?_ h0
  split
  · exact kept_pollRail h0
  · exact h0

theorem kept_execRailStepDone {readings s} (h : Kept u₀ s) : KeptO u₀ (execRailStepDone readings s) := by
  unfold execRailStepDone
  refine KeptO.next ?_
  refine Kept.ite ?_ h
  extract_lets +onlyGivenNames v0 v1
  clear_value v0
  have hv1 : Kept u₀ v1 := kept_showReadings h
  clear_value v1
  refine Kept.ite ?_ (kept_updRail hv1)
  extract_lets +onlyGivenNames v2 v3
  clear_value v2 v3
  exact Kept.ite (kept_rampFrom hv1) (kept_updRail hv1)

theorem kept_turnOff {k s} (h : Kept u₀ s) : Kept u₀ (turnOff k s) := by
  unfold turnOff
  extract_lets +onlyGivenNames v0
  have hv0 : Kept u₀ v0 := kept_updRail (kept_setI (kept_setI h))
  clear_value v0
  exact Kept.ite (kept_set hv0) hv0

theorem kept_fallFrom {a s} (h : Kept u₀ s) : Kept u₀ (fallFrom a s) := by
  unfold fallFrom
  extract_lets +onlyGivenNames v0
  clear_value v0
  split
  · exact Kept.forAll (kept_setSeq h) (fun _ _ => kept_turnOff)
  · exact kept_setSeq h

theorem kept_startFall {why s} (h : Kept u₀ s) : Kept u₀ (startFall why s) := by
  unfold startFall
  exact kept_fallFrom (kept_updRail h)

theorem kept_execRailRiseTimeout {k s} (h : Kept u₀ s) : KeptO u₀ (execRailRiseTimeout k s) := by
  unfold execRailRiseTimeout
  exact KeptO.next (Kept.ite (kept_startFall (kept_railFails h)) h)

theorem kept_execRailFallStep {readings s} (h : Kept u₀ s) : KeptO u₀ (execRailFallStep readings s) := by
  unfold execRailFallStep
  refine KeptO.next ?_
  refine Kept.ite ?_ h
  extract_lets +onlyGivenNames v0 v1 v2
  clear_value v0
  have hv1 : Kept u₀ v1 := by
    unfold v1
    refine Kept.forAll h ?_
    intro _ _ h3
    split
    · exact kept_setI h3
    · exact h3
  clear_value v1 v2
  exact Kept.ite (kept_fallFrom (Kept.forAll hv1 (fun _ _ => kept_railEvent))) hv1

theorem kept_execPmbusPoll {readings s} (h : Kept u₀ s) : KeptO u₀ (execPmbusPoll readings s) := by
  unfold execPmbusPoll
  exact KeptO.next (Kept.ite (Kept.forAll h (fun _ _ h0 => Kept.ite (kept_pollRail (kept_setI h0)) h0)) h)

theorem kept_execPmbusTimeout {k cmd s} (h : Kept u₀ s) : KeptO u₀ (execPmbusTimeout k cmd s) := by
  unfold execPmbusTimeout
  refine KeptO.next ?_
  refine Kept.ite ?_ h
  refine Kept.ite ?_ (kept_updRail h)
  extract_lets +onlyGivenNames v0
  have hv0 : Kept u₀ v0 := kept_sat (kept_updRail h)
  clear_value v0
  exact kept_raise hv0

theorem kept_execPmbAlert {words s} (h : Kept u₀ s) : KeptO u₀ (execPmbAlert words s) := by
  unfold execPmbAlert
  exact KeptO.next (Kept.forAll h (fun _ _ h0 => Kept.ite (kept_updRail h0) h0))

theorem kept_execClearFault {readings owner s} (h : Kept u₀ s) : KeptO u₀ (execClearFault readings owner s) := by
  unfold execClearFault
  exact KeptO.next (kept_gateReg (fun _ => kept_clearFault) h)

theorem kept_execCoreOvercurrent {phase amps s} (h : Kept u₀ s) : KeptO u₀ (execCoreOvercurrent phase amps s) := by
  unfold execCoreOvercurrent
  refine KeptO.next ?_
  refine Kept.ite ?_ h
  extract_lets +onlyGivenNames v0
  have hv0 : Kept u₀ v0 := kept_updRail (kept_set h)
  clear_value v0
  exact kept_coreFault (kept_setI hv0)

theorem kept_execCoreOutOfWindow {mv s} (h : Kept u₀ s) : KeptO u₀ (execCoreOutOfWindow mv s) := by
  unfold execCoreOutOfWindow
  exact KeptO.next (Kept.ite (kept_coreFault (kept_set h)) h)

theorem kept_execPhaseShed {load s} (h : Kept u₀ s) : KeptO u₀ (execPhaseShed load s) := by
  unfold execPhaseShed
  refine KeptO.next ?_
  refine Kept.ite ?_ h
  extract_lets +onlyGivenNames v0 v1 v2
  have hv0 : Kept u₀ v0 := kept_set h
  clear_value v0 v1 v2
  exact kept_set hv0

theorem kept_execJournalClose {s} (h : Kept u₀ s) : KeptO u₀ (execJournalClose s) := by
  unfold execJournalClose
  refine KeptO.next ?_
  split
  · exact Kept.ite h (kept_startFall (kept_journalClose h))
  · exact h

theorem kept_allowStep {v data s} (h : Kept u₀ s) : Kept u₀ (allowStep v data s) := by
  unfold allowStep
  exact Kept.ite (Kept.ite (kept_raise h) h) (kept_set h)

theorem kept_holdEvent {begins cause s} (h : Kept u₀ s) : Kept u₀ (holdEvent begins cause s) := by
  unfold holdEvent
  exact kept_raise h

theorem kept_ptpDiscard {s} (h : Kept u₀ s) : Kept u₀ (ptpDiscard s) := by
  unfold ptpDiscard
  extract_lets +onlyGivenNames v0
  have hv0 : Kept u₀ v0 := Kept.ite h (kept_holdEvent (kept_updPtp (kept_setRate h)))
  clear_value v0
  exact kept_updPtp hv0

theorem kept_setServo {v s} (h : Kept u₀ s) : Kept u₀ (setServo v s) := by
  unfold setServo
  exact kept_set h

theorem kept_ptpRequalify {s} (h : Kept u₀ s) : Kept u₀ (ptpRequalify s) := by
  unfold ptpRequalify
  exact Kept.ite (kept_updPtp (kept_setServo (kept_setRate h))) h

theorem kept_putFit {f lo hi v s} (h : Kept u₀ s) : Kept u₀ (putFit f lo hi v s) := by
  unfold putFit
  refine Kept.ite (kept_set h) ?_
  extract_lets +onlyGivenNames v0
  have hv0 : Kept u₀ v0.2 := kept_free h
  clear_value v0
  exact kept_set hv0

theorem kept_servoLaw {theta dq s} (h : Kept u₀ s) : Kept u₀ (servoLaw theta dq s) := by
  unfold servoLaw
  extract_lets +onlyGivenNames v0 v1 v2 v3
  clear_value v0 v1 v2 v3
  exact kept_setRate (kept_updPtp h)

theorem kept_servoSample {theta dq s} (h : Kept u₀ s) : Kept u₀ (servoSample theta dq s) := by
  unfold servoSample
  extract_lets -merge -underBinder +onlyGivenNames v0 v1 v2 v3 v4
  clear_value v0 v1
  have hv2 : Kept u₀ v2 := Kept.ite h (kept_updPtp h)
  clear_value v2
  have hv3 : Kept u₀ v3 := Kept.ite (kept_raise (kept_updPtp (kept_sat h))) (Kept.ite (kept_servoLaw hv2) hv2)
  clear_value v3 v4
  refine Kept.ite (Kept.ite hv3 (kept_updPtp (kept_setServo hv3))) ?_
  refine Kept.ite ?_ (kept_updPtp hv3)
  extract_lets +onlyGivenNames v5
  have hv5 : Kept u₀ v5 := kept_updPtp (kept_setServo hv3)
  clear_value v5
  exact kept_raise hv5

theorem kept_syncComplete {y logInt s} (h : Kept u₀ s) : Kept u₀ (syncComplete y logInt s) := by
  unfold syncComplete
  extract_lets +onlyGivenNames v0 v1
  have hv0 : Kept u₀ v0 := Kept.ite (kept_updPtp (kept_setServo h)) h
  clear_value v0
  have hv1 : Kept u₀ v1 := kept_updPtp hv0
  clear_value v1
  split
  · exact hv1
  · extract_lets +onlyGivenNames v2 v3
    clear_value v2
    have hv3 : Kept u₀ v3 := kept_putFit (kept_updPtp hv1)
    clear_value v3
    exact Kept.ite (kept_servoSample hv3) hv3

theorem kept_ptpSync {port src seq two t1 corr q logInt s} (h : Kept u₀ s) : Kept u₀ (ptpSync port src seq two t1
    corr q logInt s) := by
  unfold ptpSync
  refine Kept.ite ?_ h
  extract_lets +onlyGivenNames v0
  clear_value v0
  exact Kept.ite (kept_updPtp h) (kept_syncComplete h)

theorem kept_ptpFollowUp {port src seq t1 corr s} (h : Kept u₀ s) : Kept u₀ (ptpFollowUp port src seq t1 corr s) := by
  unfold ptpFollowUp
  refine Kept.ite ?_ h
  split
  · exact Kept.ite (kept_syncComplete h) h
  · exact h

theorem kept_ptpStep {i s} (h : Kept u₀ s) : Kept u₀ (ptpStep i s) := by
  unfold ptpStep
  extract_lets +onlyGivenNames v0 v1 v2 v3
  clear_value v0 v1
  have hv2 : Kept u₀ v2 := kept_setEpoch (kept_updPtp h)
  clear_value v2
  have hv3 : Kept u₀ v3 := kept_set (kept_set hv2)
  clear_value v3
  exact kept_trigStep (kept_raise hv3)

theorem kept_qualPass {l s} (h : Kept u₀ s) : Kept u₀ (qualPass l s) := by
  unfold qualPass
  extract_lets -merge -underBinder +onlyGivenNames v0 v1
  have hv0 : Kept u₀ v0 := by
    unfold v0
    refine Kept.ite h ?_
    split
    · exact kept_ptpStep h
    · extract_lets +onlyGivenNames v2
      have hv2 : Kept u₀ v2.2 := kept_free h
      clear_value v2
      exact kept_ptpStep hv2
  clear_value v0
  have hv1 : Kept u₀ v1 := kept_updPtp (kept_setServo hv0)
  clear_value v1
  split
  · exact kept_holdEvent (kept_updPtp hv1)
  · exact hv1

theorem kept_qualify {s} (h : Kept u₀ s) : Kept u₀ (qualify s) := by
  unfold qualify
  extract_lets +onlyGivenNames v0 v1 v2 v3
  clear_value v0 v1 v2 v3
  exact Kept.ite (kept_qualPass h) h

theorem kept_ptpDelayResp {port src req seq t4 corr logInt s} (h : Kept u₀ s) : Kept u₀ (ptpDelayResp port src req
    seq t4 corr logInt s) := by
  unfold ptpDelayResp
  refine Kept.ite ?_ h
  split
  · refine Kept.ite ?_ h
    extract_lets +onlyGivenNames v0 v1 v2 v3 v4 v5
    clear_value v0 v1 v2 v3
    have hv4 : Kept u₀ v4 := kept_updPtp h
    clear_value v4
    have hv5 : Kept u₀ v5 := kept_putFit hv4
    clear_value v5
    exact Kept.ite (kept_qualify hv5) hv5
  · exact h

theorem kept_ptpLoss {cause s} (h : Kept u₀ s) : Kept u₀ (ptpLoss cause s) := by
  unfold ptpLoss
  refine Kept.ite ?_ h
  extract_lets +onlyGivenNames v0
  have hv0 : Kept u₀ v0 := kept_updPtp (kept_setServo (kept_setRate h))
  clear_value v0
  exact kept_holdEvent hv0

theorem kept_ptpSelect {cause s} (h : Kept u₀ s) : Kept u₀ (ptpSelect cause s) := by
  unfold ptpSelect
  extract_lets -merge -underBinder +onlyGivenNames v0 v1 v2 v3 v4 v5 v6 v7 v8
  clear_value v0 v1 v2
  have hv3 : Kept u₀ v3 := Kept.ite (kept_ptpLoss h) h
  clear_value v3
  have hv4 : Kept u₀ v4 := kept_updPtp hv3
  clear_value v4
  have hv5 : Kept u₀ v5 := kept_set2 hv4
  clear_value v5
  have hv6 : Kept u₀ v6 := by
    unfold v6
    split
    · exact kept_raise hv5
    · exact hv5
  clear_value v6
  have hv7 : Kept u₀ v7 := Kept.ite h (Kept.ite (kept_setServo hv6) (Kept.ite (kept_setServo hv6) hv6))
  clear_value v7
  have hv8 : Kept u₀ v8 := kept_set hv7
  clear_value v8
  split
  · exact kept_set hv8
  · exact hv8

theorem kept_ptpAnnounce {f s} (h : Kept u₀ s) : Kept u₀ (ptpAnnounce f s) := by
  unfold ptpAnnounce
  refine Kept.ite h ?_
  extract_lets +onlyGivenNames v0 v1 v2
  clear_value v0 v1 v2
  exact kept_ptpSelect (kept_updPtp h)

theorem kept_execSyncReceived {port src seq two t1 corr q logInt s} (h : Kept u₀ s) : KeptO u₀ (execSyncReceived
    port src seq two t1 corr q logInt s) := by
  unfold execSyncReceived
  exact KeptO.next (Kept.ite (kept_ptpSync h) h)

theorem kept_execFollowUpReceived {port src seq t1 corr s} (h : Kept u₀ s) : KeptO u₀ (execFollowUpReceived port
    src seq t1 corr s) := by
  unfold execFollowUpReceived
  exact KeptO.next (Kept.ite (kept_ptpFollowUp h) h)

theorem kept_execDelayRespReceived {port src req seq t4 corr logInt s} (h : Kept u₀ s) : KeptO u₀
    (execDelayRespReceived port src req seq t4 corr logInt s) := by
  unfold execDelayRespReceived
  exact KeptO.next (Kept.ite (kept_ptpDelayResp h) h)

theorem kept_execAnnounceReceived {port src gm steps utc logInt s} (h : Kept u₀ s) : KeptO u₀ (execAnnounceReceived
    port src gm steps utc logInt s) := by
  unfold execAnnounceReceived
  exact KeptO.next (Kept.ite (kept_ptpAnnounce h) h)

theorem kept_execAnnounceTimeout {s} (h : Kept u₀ s) : KeptO u₀ (execAnnounceTimeout s) := by
  unfold execAnnounceTimeout
  extract_lets +onlyGivenNames v0
  clear_value v0
  exact KeptO.next (Kept.ite (kept_ptpSelect (kept_updPtp h)) h)

theorem kept_execSyncLoss {s} (h : Kept u₀ s) : KeptO u₀ (execSyncLoss s) := by
  unfold execSyncLoss
  exact KeptO.next (Kept.ite (kept_ptpLoss h) h)

theorem kept_execPtpRequalify {allow owner s} (h : Kept u₀ s) : KeptO u₀ (execPtpRequalify allow owner s) := by
  unfold execPtpRequalify
  exact KeptO.next (kept_gateReg (fun _ h0 => kept_ptpRequalify (kept_allowStep h0)) h)

end Sys2Proof.Machine
end

