-- ==== Sys2Proof/Laws/KeptUnits.lean ====
section
/-! SUPPORT. The operations of the network, the memory channels, thermal care, processors, stacks and jobs keep the time, the queue and the canonical form. -/

-- One declaration after another: the package is also checked as one text, where too many threads would start at once.
set_option Elab.async false

namespace Sys2Proof.Machine

variable {u₀ : State}

theorem kept_updNet {s f} (h : Kept u₀ s) : Kept u₀ (State.updNet s f) := by
  unfold State.updNet
  exact Kept.upd h

theorem kept_netDiscard {n s} (h : Kept u₀ s) : Kept u₀ (netDiscard n s) := by
  unfold netDiscard
  exact kept_updNet h

theorem kept_switchDiscard {s} (h : Kept u₀ s) : Kept u₀ (switchDiscard s) := by
  unfold switchDiscard
  exact kept_updNet h

theorem kept_netToIdle {s} (h : Kept u₀ s) : Kept u₀ (netToIdle s) := by
  unfold netToIdle
  exact kept_updNet h

theorem kept_hostReceive {f vid pcp port count s} (h : Kept u₀ s) : Kept u₀ (hostReceive f vid pcp port count s) := by
  unfold hostReceive
  extract_lets +onlyGivenNames v0 v1
  clear_value v0 v1
  refine Kept.ite ?_ ?_
  · extract_lets +onlyGivenNames v2
    have hv2 : Kept u₀ v2 := kept_sat h
    clear_value v2
    exact Kept.ite hv2 (kept_raise (kept_updNet hv2))
  · extract_lets +onlyGivenNames v3 v4
    clear_value v3 v4
    exact kept_set (kept_updNet (kept_sdramWrite h))

theorem kept_toInternal {f vid pcp port count s} (h : Kept u₀ s) : Kept u₀ (toInternal f vid pcp port count s) := by
  unfold toInternal
  split
  · exact Kept.ite (kept_chunkIn h) (kept_hostReceive h)
  · exact kept_hostReceive h

theorem kept_enqueue {out k q s} (h : Kept u₀ s) : Kept u₀ (enqueue out k q s) := by
  unfold enqueue
  extract_lets +onlyGivenNames v0 v1 v2
  clear_value v0 v1 v2
  refine Kept.ite (kept_updNet h) ?_
  extract_lets +onlyGivenNames v3
  have hv3 : Kept u₀ v3 := kept_sat h
  clear_value v3
  exact kept_raise hv3

theorem kept_sendOut {f v vid pcp port q k out s} (h : Kept u₀ s) : Kept u₀ (sendOut f v vid pcp port q k out s) := by
  unfold sendOut
  refine Kept.ite (kept_toInternal h) ?_
  extract_lets +onlyGivenNames v0
  clear_value v0
  exact kept_enqueue h

theorem kept_hostSlot {a s} (h : Kept u₀ s) : Kept u₀ (hostSlot a s) := by
  unfold hostSlot
  extract_lets +onlyGivenNames v0 v1 v2 v3
  clear_value v0 v1 v2 v3
  refine Kept.ite (kept_sdramRead h) ?_
  extract_lets +onlyGivenNames v4 v5 v6
  clear_value v4 v5
  have hv6 : Kept u₀ v6 := kept_sdramRead h
  clear_value v6
  split
  · exact kept_sat hv6
  · extract_lets +onlyGivenNames v7
    clear_value v7
    exact Kept.forAll hv6 (fun _ _ => kept_sendOut)

theorem kept_hostSend {n s} (h : Kept u₀ s) : Kept u₀ (hostSend n s) := by
  induction n generalizing s with
  | zero => exact h
  | succ n ih => unfold hostSend; exact Kept.ite h (ih (kept_set (kept_hostSlot h)))

theorem kept_hostRetry {s} (h : Kept u₀ s) : Kept u₀ (hostRetry s) := by
  unfold hostRetry
  exact kept_hostSend h

theorem kept_hostTxWrite {wr s} (h : Kept u₀ s) : Kept u₀ (hostTxWrite wr s) := by
  unfold hostTxWrite
  exact kept_hostRetry (kept_set h)

theorem kept_ocMessage {m l3 port q s} (h : Kept u₀ s) : Kept u₀ (ocMessage m l3 port q s) := by
  unfold ocMessage
  extract_lets +onlyGivenNames v0 v1 v2 v3
  clear_value v0 v1 v2 v3
  split
  · exact kept_ptpSync h
  · exact kept_ptpFollowUp h
  · exact kept_ptpDelayResp h
  · extract_lets +onlyGivenNames v4
    clear_value v4
    exact kept_ptpAnnounce h
  · exact h

theorem kept_learn {vid mac port s} (h : Kept u₀ s) : Kept u₀ (learn vid mac port s) := by
  unfold learn
  extract_lets +onlyGivenNames v0 v1 v2
  clear_value v0 v1 v2
  exact kept_set (kept_updNet h)

theorem kept_tcForward {f m v vid pcp port out l3 off stamp s} (h : Kept u₀ s) : Kept u₀ (tcForward f m v vid pcp
    port out l3 off stamp s) := by
  unfold tcForward
  extract_lets +onlyGivenNames v0 v1
  clear_value v0 v1
  split
  · refine Kept.ite ?_ (kept_sendOut h)
    extract_lets +onlyGivenNames v2
    clear_value v2
    exact kept_sendOut (kept_updNet h)
  · exact kept_sendOut h
  · split
    · extract_lets +onlyGivenNames v3 v4
      clear_value v3 v4
      split
      · exact kept_enqueue h
      · exact kept_updNet h
    · extract_lets +onlyGivenNames v5
      have hv5 : Kept u₀ v5 := kept_sat h
      clear_value v5
      exact kept_sendOut (kept_raise hv5)
  · exact kept_sendOut h

theorem kept_ptpFrame {f port l3 off stamp s} (h : Kept u₀ s) : Kept u₀ (ptpFrame f port l3 off stamp s) := by
  unfold ptpFrame
  extract_lets +onlyGivenNames v0 v1 v2
  clear_value v0 v1
  have hv2 : Kept u₀ v2 := Kept.ite (kept_raise h) h
  clear_value v2
  refine Kept.ite (kept_sat hv2) ?_
  extract_lets +onlyGivenNames v3
  have hv3 : Kept u₀ v3 := Kept.ite (kept_ocMessage hv2) hv2
  clear_value v3
  split
  · exact kept_sat hv3
  · extract_lets +onlyGivenNames v4 v5
    have hv4 : Kept u₀ v4 := kept_learn hv3
    clear_value v4 v5
    exact Kept.ite (kept_tcForward hv4) hv4

theorem kept_execFrameReceived {n ps fcsBad fecC fecU bytes s} (h : Kept u₀ s) : KeptO u₀ (execFrameReceived n ps
    fcsBad fecC fecU bytes s) := by
  unfold execFrameReceived
  refine KeptO.next ?_
  refine Kept.ite ?_ h
  extract_lets +onlyGivenNames v0 v1 v2 v3 v4
  clear_value v0
  have hv1 : Kept u₀ v1 := kept_satI (kept_satI h)
  clear_value v1
  have hv2 : Kept u₀ v2 := Kept.ite (kept_raise hv1) hv1
  clear_value v2 v3 v4
  split
  · extract_lets +onlyGivenNames v5 v6
    have hv5 : Kept u₀ v5 := Kept.forAll hv2 (fun _ _ => kept_sat)
    clear_value v5 v6
    exact kept_raise hv5
  · extract_lets +onlyGivenNames v8 v9 v10
    have hv8 : Kept u₀ v8 := kept_wrap hv2
    clear_value v8 v9 v10
    refine Kept.ite hv8 ?_
    refine Kept.ite (kept_raise hv8) ?_
    split
    · exact kept_ptpFrame hv8
    · split
      · exact kept_sat hv8
      · extract_lets +onlyGivenNames v11
        have hv11 : Kept u₀ v11 := kept_learn hv8
        clear_value v11
        exact Kept.forAll hv11 (fun _ _ => kept_sendOut)

theorem kept_syncLeft {k res s} (h : Kept u₀ s) : Kept u₀ (syncLeft k res s) := by
  unfold syncLeft
  extract_lets +onlyGivenNames v0 v1
  clear_value v0
  have hv1 : Kept u₀ v1 := kept_updNet h
  clear_value v1
  exact Kept.forAll hv1 (fun _ _ => kept_enqueue)

theorem kept_execFrameTransmit {n ps s} (h : Kept u₀ s) : KeptO u₀ (execFrameTransmit n ps s) := by
  unfold execFrameTransmit
  extract_lets +onlyGivenNames v0 v1
  clear_value v0 v1
  refine KeptO.next ?_
  split
  · exact h
  · refine Kept.ite ?_ h
    extract_lets +onlyGivenNames v2 v3 v4 v5
    clear_value v2 v3 v4
    have hv5 : Kept u₀ v5 := kept_wrap (kept_updNet h)
    clear_value v5
    split
    · exact kept_syncLeft hv5
    · exact kept_updPtp hv5
    · exact hv5

theorem kept_execHostTxWrite {wr owner s} (h : Kept u₀ s) : KeptO u₀ (execHostTxWrite wr owner s) := by
  unfold execHostTxWrite
  exact KeptO.next (kept_gateReg (fun _ => kept_hostTxWrite) h)

theorem kept_execNetLinkUp {n s} (h : Kept u₀ s) : KeptO u₀ (execNetLinkUp n s) := by
  unfold execNetLinkUp
  refine KeptO.next ?_
  refine Kept.ite ?_ h
  extract_lets +onlyGivenNames v0 v1 v2
  clear_value v0 v1
  have hv2 : Kept u₀ v2 := kept_set (kept_set (kept_set h))
  clear_value v2
  exact kept_raise (kept_set hv2)

theorem kept_execNetLinkDown {n cause s} (h : Kept u₀ s) : KeptO u₀ (execNetLinkDown n cause s) := by
  unfold execNetLinkDown
  refine KeptO.next ?_
  refine Kept.ite ?_ h
  extract_lets +onlyGivenNames v0 v1
  clear_value v0
  have hv1 : Kept u₀ v1 := by
    unfold v1
    split
    · exact kept_set (kept_set h)
    · exact kept_set h
    · exact kept_set h
  clear_value v1
  exact kept_raise (kept_set hv1)

theorem kept_execAddressAgeOut {vid mac s} (h : Kept u₀ s) : KeptO u₀ (execAddressAgeOut vid mac s) := by
  unfold execAddressAgeOut
  extract_lets +onlyGivenNames v0 v1
  clear_value v0 v1
  exact KeptO.next (kept_set (kept_updNet h))

theorem kept_execTcEntryExpiry {s} (h : Kept u₀ s) : KeptO u₀ (execTcEntryExpiry s) := by
  unfold execTcEntryExpiry
  exact KeptO.next (kept_updNet h)

theorem kept_execDelayReqSend {s} (h : Kept u₀ s) : KeptO u₀ (execDelayReqSend s) := by
  unfold execDelayReqSend
  refine KeptO.next ?_
  split
  · exact h
  · refine Kept.ite ?_ h
    extract_lets +onlyGivenNames v0 v1 v2 v3 v4 v5
    clear_value v0
    have hv1 : Kept u₀ v1.2 := kept_free h
    clear_value v1
    have hv2 : Kept u₀ v2.2 := kept_free hv1
    clear_value v2 v3
    have hv4 : Kept u₀ v4 := kept_updPtp hv2
    clear_value v4 v5
    split
    · exact kept_sat hv4
    · exact kept_sendOut hv4

theorem kept_trainStart {ch kind point auto s} (h : Kept u₀ s) : Kept u₀ (trainStart ch kind point auto s) := by
  unfold trainStart
  extract_lets -merge -underBinder +onlyGivenNames v0
  clear_value v0
  exact kept_set (kept_set (kept_set (kept_updMem h)))

theorem kept_trainAuto {ch point s} (h : Kept u₀ s) : Kept u₀ (trainAuto ch point s) := by
  unfold trainAuto
  exact kept_trainStart h

theorem kept_memDiscard {ch s} (h : Kept u₀ s) : Kept u₀ (memDiscard ch s) := by
  unfold memDiscard
  extract_lets +onlyGivenNames v0 v1 v2 v3 v4 v5
  clear_value v0 v1
  have hv2 : Kept u₀ v2 := Kept.forAll h (fun _ _ => kept_memMerge)
  clear_value v2
  have hv3 : Kept u₀ v3 := Kept.forAll hv2 (fun _ _ => Kept.upd)
  clear_value v3
  have hv4 : Kept u₀ v4 := kept_updMem hv3
  clear_value v4
  have hv5 : Kept u₀ v5 := kept_memPower hv4
  clear_value v5
  exact Kept.ite (kept_trainAuto hv5) hv5

theorem kept_memRecall {s} (h : Kept u₀ s) : Kept u₀ (memRecall s) := by
  unfold memRecall
  refine Kept.forAll h ?_
  intro _ _ h0
  extract_lets +onlyGivenNames v1
  clear_value v1
  exact kept_updMem h0

theorem kept_memCommonReady {s} (h : Kept u₀ s) : Kept u₀ (memCommonReady s) := by
  unfold memCommonReady
  extract_lets +onlyGivenNames v0
  have hv0 : Kept u₀ v0 := kept_memRecall (kept_set h)
  clear_value v0
  exact Kept.forAll hv0 (fun _ _ h1 => Kept.ite h1 (kept_trainAuto h1))

theorem kept_memBand {ch b s} (h : Kept u₀ s) : Kept u₀ (memBand ch b s) := by
  unfold memBand
  extract_lets +onlyGivenNames v0 v1 v2
  clear_value v0 v1 v2
  refine Kept.ite h ?_
  extract_lets +onlyGivenNames v3
  have hv3 : Kept u₀ v3 := kept_raise (kept_set h)
  clear_value v3
  exact Kept.ite (kept_raise hv3) hv3

theorem kept_memNoSource {ch s} (h : Kept u₀ s) : Kept u₀ (memNoSource ch s) := by
  unfold memNoSource
  exact kept_memBand (kept_set h)

theorem kept_memChanReady {ch s} (h : Kept u₀ s) : Kept u₀ (memChanReady ch s) := by
  unfold memChanReady
  extract_lets +onlyGivenNames v0 v1
  have hv0 : Kept u₀ v0 := Kept.ite (kept_memNoSource h) h
  clear_value v0 v1
  exact Kept.ite hv0 (kept_memWake hv0)

theorem kept_retuneRefused {point training reason s} (h : Kept u₀ s) : Kept u₀ (retuneRefused point training reason
    s) := by
  unfold retuneRefused
  exact kept_raise h

theorem kept_trainRequest {kind s} (h : Kept u₀ s) : Kept u₀ (trainRequest kind s) := by
  unfold trainRequest
  extract_lets +onlyGivenNames v0
  clear_value v0
  exact Kept.ite (kept_retuneRefused h) (Kept.ite (kept_retuneRefused h) (Kept.forAll h (fun _ _ => kept_trainStart)))

theorem kept_srIssue {ch s} (h : Kept u₀ s) : Kept u₀ (srIssue ch s) := by
  unfold srIssue
  exact Kept.ite h (kept_memPower (kept_wrap (kept_updMem h)))

theorem kept_showPostponed {ch s} (h : Kept u₀ s) : Kept u₀ (showPostponed ch s) := by
  unfold showPostponed
  exact kept_set h

theorem kept_issueAllRefs {ch s} (h : Kept u₀ s) : Kept u₀ (issueAllRefs ch s) := by
  unfold issueAllRefs
  extract_lets -merge -underBinder +onlyGivenNames v0
  have hv0 : Kept u₀ v0 := kept_updMem h
  clear_value v0
  exact kept_showPostponed hv0

theorem kept_srEntry {ch s} (h : Kept u₀ s) : Kept u₀ (srEntry ch s) := by
  unfold srEntry
  exact kept_issueAllRefs (kept_updMem h)

theorem kept_memFlush {ch s} (h : Kept u₀ s) : Kept u₀ (memFlush ch s) := by
  unfold memFlush
  extract_lets +onlyGivenNames v0
  have hv0 : Kept u₀ v0 := Kept.forAll (kept_updMem h) (fun _ _ => kept_memMerge)
  clear_value v0
  exact kept_updMem hv0

theorem kept_freqExit {ch s} (h : Kept u₀ s) : Kept u₀ (freqExit ch s) := by
  unfold freqExit
  exact Kept.foldl (kept_srExit h) (fun _ _ h0 => kept_updMem h0)

theorem kept_freqStart {point s} (h : Kept u₀ s) : Kept u₀ (freqStart point s) := by
  unfold freqStart
  extract_lets +onlyGivenNames v0 v1
  have hv0 : Kept u₀ v0 := Kept.forAll h (fun _ _ h2 => kept_srIssue (kept_srEntry (kept_memFlush h2)))
  clear_value v0
  have hv1 : Kept u₀ v1 := Kept.forAll hv0 (fun _ _ h3 => kept_trainAuto (kept_freqExit h3))
  clear_value v1
  exact Kept.upd hv1

theorem kept_freqRequest {point s} (h : Kept u₀ s) : Kept u₀ (freqRequest point s) := by
  unfold freqRequest
  exact Kept.ite (kept_retuneRefused h) (Kept.ite (kept_retuneRefused h) (Kept.ite (kept_retuneRefused h) (Kept.ite
      (Kept.upd h) (kept_freqStart h))))

theorem kept_memLatencyWake {s} (h : Kept u₀ s) : Kept u₀ (memLatencyWake s) := by
  unfold memLatencyWake
  extract_lets +onlyGivenNames v0
  clear_value v0
  refine Kept.forAll h ?_
  intro _ _ h1
  extract_lets +onlyGivenNames v2
  clear_value v2
  exact Kept.ite h1 (Kept.ite (kept_memPower h1) (Kept.ite (kept_srExit h1) h1))

theorem kept_execMemRequest {cls addr wr port mask data s} (h : Kept u₀ s) : KeptO u₀ (execMemRequest cls addr wr
    port mask data s) := by
  unfold execMemRequest
  refine KeptO.next ?_
  refine Kept.ite ?_ ?_
  · extract_lets +onlyGivenNames v0
    have hv0 : Kept u₀ v0 := kept_rangeError h
    clear_value v0
    exact Kept.upd hv0
  · extract_lets +onlyGivenNames v1 v2
    clear_value v1 v2
    exact kept_memEnqueue (kept_memWake (Kept.upd h))

theorem kept_memMaintain {ch r zq s} (h : Kept u₀ s) : Kept u₀ (memMaintain ch r zq s) := by
  unfold memMaintain
  extract_lets -merge -underBinder +onlyGivenNames v0
  have hv0 : Kept u₀ v0 := kept_updMem h
  clear_value v0
  exact kept_showPostponed hv0

theorem kept_memIssue {ch q s} (h : Kept u₀ s) : Kept u₀ (memIssue ch q s) := by
  unfold memIssue
  extract_lets -merge -underBinder +onlyGivenNames v0 v1 v2
  have hv0 : Kept u₀ v0 := kept_updMem h
  clear_value v0
  have hv1 : Kept u₀ v1 := Kept.ite (kept_updMem (kept_memStore hv0)) (kept_updMem hv0)
  clear_value v1
  have hv2 : Kept u₀ v2 := Kept.ite (kept_wrap hv1) hv1
  clear_value v2
  exact kept_memAdmit hv2

theorem kept_execMemSchedule {ch s} (h : Kept u₀ s) : KeptO u₀ (execMemSchedule ch s) := by
  unfold execMemSchedule
  refine KeptO.next ?_
  refine Kept.ite h ?_
  extract_lets +onlyGivenNames v0 v1 v2 v3
  have hv0 : Kept u₀ v0 := kept_memAdmit (kept_set h)
  clear_value v0
  have hv1 : Kept u₀ v1 := kept_showPostponed (kept_updMem hv0)
  clear_value v1 v2 v3
  split
  · exact kept_memMaintain hv1
  · split
    · exact kept_memMaintain hv1
    · split
      · exact kept_memIssue hv1
      · refine Kept.ite ?_ hv1
        split
        · exact kept_memMaintain hv1
        · split
          · exact kept_memMaintain hv1
          · exact hv1

theorem kept_memWord {ch q flips a w} (h : Kept u₀ a.1) : Kept u₀ (memWord ch q flips a w).1 := by
  obtain ⟨s, words, bad, fixed⟩ := a
  exact Kept.ite (kept_raise (kept_sat h)) h

theorem kept_memWords {ch : Nat} {q : MemReq} {flips : List (Nat × Nat)} {l : List Nat} {a : State × List Nat ×
    List Nat × Bool}
    (h : Kept u₀ a.1) : Kept u₀ (l.foldl (memWord ch q flips) a).1 := by
  induction l generalizing a with
  | nil => exact h
  | cons w l ih => exact ih (kept_memWord h)

theorem kept_execMemReadData {ch flips s} (h : Kept u₀ s) : KeptO u₀ (execMemReadData ch flips s) := by
  unfold execMemReadData
  refine KeptO.next ?_
  split
  · exact h
  · rename_i q qs _
    extract_lets +onlyGivenNames v0
    have hv0 : Kept u₀ ((List.range 16).foldl (memWord ch q flips) (v0, [], [], false)).1 := kept_memWords
        (kept_updMem h)
    generalize (List.range 16).foldl (memWord ch q flips) (v0, [], [], false) = a at hv0
    obtain ⟨s1, words, bad, fixed⟩ := a
    dsimp only at hv0 ⊢
    have hv1 : ∀ c, Kept u₀ (if bad.isEmpty then s1 else memPoison ch q.burst c bad s1) := fun c =>
      Kept.ite hv0 (kept_memPoison hv0)
    have hb : ∀ (t : State) l, Kept u₀ t → Kept u₀ { t with memBad := l } := fun _ _ h => h.upd
    have hr : ∀ (t : State) r, Kept u₀ t → Kept u₀ { t with resp := r } := fun _ _ h => h.upd
    refine Kept.ite (kept_updMem (hb _ _ (kept_memStore (hv1 _)))) ?_
    exact Kept.ite (kept_memEnqueue (hr _ _ (hv1 _))) (hr _ _ (hv1 _))

theorem kept_execAlertNLow {ch s} (h : Kept u₀ s) : KeptO u₀ (execAlertNLow ch s) := by
  unfold execAlertNLow
  refine KeptO.next ?_
  refine Kept.ite h ?_
  extract_lets +onlyGivenNames v0 v1 v2
  clear_value v0 v1
  have hv2 : Kept u₀ v2 := Kept.ite (kept_memPower h) h
  clear_value v2
  refine Kept.ite (kept_raise (kept_updMem (kept_set hv2))) ?_
  extract_lets +onlyGivenNames v3 v4 v5 v6
  clear_value v3 v4
  have hv5 : Kept u₀ v5 := kept_updMem hv2
  clear_value v5
  have hv6 : Kept u₀ v6 := kept_sat (kept_set hv5)
  clear_value v6
  exact kept_raise hv6

theorem kept_execRefreshDue {ch rank s} (h : Kept u₀ s) : KeptO u₀ (execRefreshDue ch rank s) := by
  unfold execRefreshDue
  refine KeptO.next ?_
  refine Kept.ite h ?_
  extract_lets +onlyGivenNames v0 v1 v2 v3
  clear_value v0 v1 v2 v3
  split
  · exact h
  · extract_lets +onlyGivenNames v4
    have hv4 : Kept u₀ v4 := kept_updMem h
    clear_value v4
    exact Kept.ite (kept_memPower hv4) hv4

theorem kept_execZqDue {ch s} (h : Kept u₀ s) : KeptO u₀ (execZqDue ch s) := by
  unfold execZqDue
  refine KeptO.next ?_
  refine Kept.ite h ?_
  extract_lets +onlyGivenNames v0
  have hv0 : Kept u₀ v0 := kept_updMem h
  clear_value v0
  exact Kept.ite (kept_memPower hv0) hv0

theorem kept_execMemTempStale {ch s} (h : Kept u₀ s) : KeptO u₀ (execMemTempStale ch s) := by
  unfold execMemTempStale
  exact KeptO.next (Kept.ite (kept_raise (kept_memNoSource h)) h)

theorem kept_execPowerDownEntry {ch s} (h : Kept u₀ s) : KeptO u₀ (execPowerDownEntry ch s) := by
  unfold execPowerDownEntry
  exact KeptO.next (Kept.ite (kept_memPower h) h)

theorem kept_execSelfRefreshEntry {ch s} (h : Kept u₀ s) : KeptO u₀ (execSelfRefreshEntry ch s) := by
  unfold execSelfRefreshEntry
  exact KeptO.next (Kept.ite (Kept.ite (kept_memLatencyWake (kept_srIssue h)) (Kept.ite (kept_memPower
      (kept_srEntry h)) h)) h)

theorem kept_execMemFreqGo {point owner s} (h : Kept u₀ s) : KeptO u₀ (execMemFreqGo point owner s) := by
  unfold execMemFreqGo
  exact KeptO.next (kept_gateReg (fun _ h0 => kept_freqRequest (Kept.ite h0 (kept_set h0))) h)

theorem kept_execTrainFull {owner s} (h : Kept u₀ s) : KeptO u₀ (execTrainFull owner s) := by
  unfold execTrainFull
  exact KeptO.next (kept_gateReg (fun _ => kept_trainRequest) h)

theorem kept_execTrainCheck {owner s} (h : Kept u₀ s) : KeptO u₀ (execTrainCheck owner s) := by
  unfold execTrainCheck
  exact KeptO.next (kept_gateReg (fun _ => kept_trainRequest) h)

theorem kept_memSave {point s} (h : Kept u₀ s) : Kept u₀ (memSave point s) := by
  unfold memSave
  exact Kept.ite (kept_journalAsk h) h

theorem kept_pendingChange {s} (h : Kept u₀ s) : Kept u₀ (pendingChange s) := by
  unfold pendingChange
  split
  · exact h
  · refine Kept.ite h ?_
    extract_lets +onlyGivenNames v0
    have hv0 : Kept u₀ v0 := Kept.upd h
    clear_value v0
    exact Kept.ite (kept_retuneRefused hv0) (kept_freqStart hv0)

theorem kept_showTrained {ch s} (h : Kept u₀ s) : Kept u₀ (showTrained ch s) := by
  unfold showTrained
  exact kept_set h

theorem kept_execTrainingEnd {ch ok step lane s} (h : Kept u₀ s) : KeptO u₀ (execTrainingEnd ch ok step lane s) := by
  unfold execTrainingEnd
  refine KeptO.next ?_
  refine Kept.ite h ?_
  extract_lets +onlyGivenNames v0 v1 v2
  clear_value v0 v1 v2
  refine Kept.ite ?_ ?_
  · extract_lets +onlyGivenNames v3 v4
    have hv3 : Kept u₀ v3 := kept_updMem h
    clear_value v3
    have hv4 : Kept u₀ v4 := Kept.ite (kept_memSave hv3) hv3
    clear_value v4
    exact kept_pendingChange (kept_showTrained (kept_set hv4))
  · refine Kept.ite (kept_trainStart h) ?_
    extract_lets +onlyGivenNames v5 v6 v7
    have hv5 : Kept u₀ v5 := kept_updMem h
    clear_value v5
    have hv6 : Kept u₀ v6 := kept_set (kept_set (kept_set hv5))
    clear_value v6
    have hv7 : Kept u₀ v7 := kept_set (kept_showTrained hv6)
    clear_value v7
    exact kept_pendingChange (kept_raise hv7)

theorem kept_execFreqDone {s} (h : Kept u₀ s) : KeptO u₀ (execFreqDone s) := by
  unfold execFreqDone
  refine KeptO.next ?_
  split
  · exact h
  · refine Kept.ite h ?_
    extract_lets -merge -underBinder +onlyGivenNames v0 v1 v2 v3
    clear_value v0
    have hv1 : Kept u₀ v1 := kept_set h
    clear_value v1
    have hv2 : Kept u₀ v2 := Kept.upd hv1
    clear_value v2
    have hv3 : Kept u₀ v3 := Kept.forAll hv2 (fun _ _ h4 => kept_showTrained (kept_updMem h4))
    clear_value v3
    exact kept_raise hv3

theorem kept_memTemperature {ch t s} (h : Kept u₀ s) : Kept u₀ (memTemperature ch t s) := by
  unfold memTemperature
  extract_lets +onlyGivenNames v0 v1
  clear_value v0
  have hv1 : Kept u₀ v1 := kept_updMem (kept_set (kept_set h))
  clear_value v1
  exact kept_memBand hv1

theorem kept_updHk {s f} (h : Kept u₀ s) : Kept u₀ (State.updHk s f) := by
  unfold State.updHk
  exact Kept.upd h

theorem kept_thermalShutdown {s} (h : Kept u₀ s) : Kept u₀ (thermalShutdown s) := by
  unfold thermalShutdown
  extract_lets -merge -underBinder +onlyGivenNames v0 v1 v2
  have hv0 : Kept u₀ v0 := kept_setCause h
  clear_value v0 v1
  have hv2 : Kept u₀ v2 := kept_journalStop (Kept.upd hv0)
  clear_value v2
  exact Kept.ite (kept_startTransition hv2) hv2

theorem kept_setLevel {d new s} (h : Kept u₀ s) : Kept u₀ (setLevel d new s) := by
  unfold setLevel
  extract_lets +onlyGivenNames v0
  clear_value v0
  refine Kept.ite h ?_
  extract_lets +onlyGivenNames v1
  have hv1 : Kept u₀ v1 := kept_raise (kept_set h)
  clear_value v1
  exact Kept.ite (kept_thermalShutdown hv1) hv1

theorem kept_badRound {code s} (h : Kept u₀ s) : Kept u₀ (badRound code s) := by
  unfold badRound
  extract_lets +onlyGivenNames v0 v1
  have hv0 : Kept u₀ v0 := kept_updHk (kept_set (kept_sat h))
  clear_value v0
  have hv1 : Kept u₀ v1 := kept_raise hv0
  clear_value v1
  refine Kept.ite hv1 ?_
  extract_lets +onlyGivenNames v2
  have hv2 : Kept u₀ v2 := Kept.forAll hv1 (fun _ _ => kept_setI)
  clear_value v2
  exact Kept.forAll hv2 (fun _ _ h4 => Kept.ite (kept_setLevel h4) h4)

theorem kept_headAck {hi mask s} (h : Kept u₀ s) : Kept u₀ (headAck hi mask s) := by
  unfold headAck
  refine Kept.forAll h ?_
  intro _ _ h0
  extract_lets +onlyGivenNames v1 v2
  clear_value v1 v2
  exact Kept.ite (kept_setI h0) h0

theorem kept_dieLevel {d s} (h : Kept u₀ s) : Kept u₀ (dieLevel d s) := by
  unfold dieLevel
  exact kept_setLevel h

theorem kept_driveFails {c kind s} (h : Kept u₀ s) : Kept u₀ (driveFails c kind s) := by
  unfold driveFails
  exact Kept.ite h (kept_setCause (kept_raise (kept_setI h)))

theorem kept_driveRound {now_ was c s} (h : Kept u₀ s) : Kept u₀ (driveRound now_ was c s) := by
  unfold driveRound
  split
  · exact h
  · refine Kept.ite h ?_
    extract_lets +onlyGivenNames v0 v1 v2 v3 v4 v5 v6 v7 v8
    clear_value v0 v1 v2
    have hv3 : Kept u₀ v3 := kept_setI (kept_setI h)
    clear_value v3 v4 v5 v6 v7 v8
    refine Kept.ite hv3 ?_
    extract_lets +onlyGivenNames v9 v10
    clear_value v9
    have hv10 : Kept u₀ v10 := kept_updHk hv3
    clear_value v10
    exact Kept.ite (kept_setI hv10) (Kept.ite (kept_driveFails hv10) hv10)

theorem kept_driveRounds {s} (h : Kept u₀ s) : Kept u₀ (driveRounds s) := by
  unfold driveRounds
  extract_lets +onlyGivenNames v0 v1
  clear_value v0 v1
  exact kept_updHk (Kept.forAll h (fun _ _ => kept_driveRound))

theorem kept_takeValue {ch code s} (h : Kept u₀ s) : Kept u₀ (takeValue ch code s) := by
  unfold takeValue
  extract_lets +onlyGivenNames v0
  have hv0 : Kept u₀ v0 := kept_setI h
  clear_value v0
  split
  · exact kept_setI hv0
  · extract_lets +onlyGivenNames v1
    have hv1 : Kept u₀ v1 := kept_setI hv0
    clear_value v1
    refine Kept.ite (kept_setI hv1) ?_
    extract_lets +onlyGivenNames v2
    have hv2 : Kept u₀ v2.2 := kept_free hv1
    clear_value v2
    exact kept_setI hv2

theorem kept_sensorCheck {k s} (h : Kept u₀ s) : Kept u₀ (sensorCheck k s) := by
  unfold sensorCheck
  extract_lets +onlyGivenNames v0 v1
  clear_value v0
  have hv1 : Kept u₀ v1 := kept_updHk h
  clear_value v1
  exact Kept.ite (kept_raise hv1) hv1

theorem kept_pairCheck {p s} (h : Kept u₀ s) : Kept u₀ (pairCheck p s) := by
  unfold pairCheck
  extract_lets +onlyGivenNames v0 v1 v2 v3 v4
  clear_value v0 v1 v2 v3
  have hv4 : Kept u₀ v4 := kept_updHk h
  clear_value v4
  exact Kept.ite (kept_raise (kept_updHk hv4)) hv4

theorem kept_redormant {s} (h : Kept u₀ s) : Kept u₀ (redormant s) := by
  unfold redormant
  refine Kept.ite ?_ h
  extract_lets -merge -underBinder +onlyGivenNames v0 v1 v2
  clear_value v0
  have hv1 : Kept u₀ v1 := Kept.upd h
  clear_value v1 v2
  exact Kept.ite (kept_startDormant hv1) hv1

theorem kept_showTemps {s} (h : Kept u₀ s) : Kept u₀ (showTemps s) := by
  unfold showTemps
  extract_lets +onlyGivenNames v0
  have hv0 : Kept u₀ v0 := Kept.forAll h (fun _ _ h1 => kept_setI (kept_setI h1))
  clear_value v0
  exact kept_set (kept_set (kept_set hv0))

theorem kept_timingBand {d s} (h : Kept u₀ s) : Kept u₀ (timingBand d s) := by
  unfold timingBand
  extract_lets +onlyGivenNames v0 v1 v2
  clear_value v0 v1 v2
  exact Kept.ite h (kept_raise (kept_set h))

theorem kept_memRound {s} (h : Kept u₀ s) : Kept u₀ (memRound s) := by
  unfold memRound
  refine Kept.forAll h ?_
  intro _ _ h0
  extract_lets +onlyGivenNames v1
  clear_value v1
  refine Kept.ite ?_ h0
  extract_lets +onlyGivenNames v2 v3
  clear_value v2
  have hv3 : Kept u₀ v3 := kept_memTemperature h0
  clear_value v3
  exact Kept.ite (kept_setCause hv3) hv3

theorem kept_goodRound {codes s} (h : Kept u₀ s) : Kept u₀ (goodRound codes s) := by
  unfold goodRound
  extract_lets +onlyGivenNames v0 v1 v2 v3
  have hv0 : Kept u₀ v0 := kept_updHk (Kept.forAll h (fun _ _ => kept_takeValue))
  clear_value v0
  have hv1 : Kept u₀ v1 := Kept.forAll (Kept.forAll (kept_set hv0) (fun _ _ => kept_sensorCheck)) (fun _ _ =>
      kept_pairCheck)
  clear_value v1
  have hv2 : Kept u₀ v2 := Kept.ite (kept_redormant (Kept.forAll (kept_showTemps hv1) (fun _ _ => kept_dieLevel))) hv1
  clear_value v2
  have hv3 : Kept u₀ v3 := Kept.ite (Kept.forAll hv2 (fun _ _ => kept_timingBand)) hv2
  clear_value v3
  exact kept_memRound (kept_tdcAuto (kept_pollRound hv3))

theorem kept_slowSend {flags s} (h : Kept u₀ s) : Kept u₀ (slowSend flags s) := by
  unfold slowSend
  extract_lets +onlyGivenNames v0 v1 v2 v3 v4
  have hv0 : Kept u₀ v0.2 := kept_free h
  clear_value v0
  have hv1 : Kept u₀ v1.2 := kept_free hv0
  clear_value v1 v2
  have hv3 : Kept u₀ v3 := kept_updHk hv1
  clear_value v3 v4
  split
  · exact kept_sat hv3
  · exact Kept.forAll hv3 (fun _ _ => kept_sendOut)

theorem kept_slowCheck {s} (h : Kept u₀ s) : Kept u₀ (slowCheck s) := by
  unfold slowCheck
  extract_lets +onlyGivenNames v0 v1
  clear_value v0 v1
  exact Kept.ite (kept_slowSend (kept_raise (kept_set h))) (Kept.ite (kept_slowSend (kept_raise (kept_set h))) h)

theorem kept_typeCheck {t s} (h : Kept u₀ s) : Kept u₀ (typeCheck t s) := by
  unfold typeCheck
  extract_lets +onlyGivenNames v0 v1
  clear_value v0
  have hv1 : Kept u₀ v1 := kept_updHk h
  clear_value v1
  exact Kept.ite (kept_raise hv1) hv1

theorem kept_setHeadBand {p new t s} (h : Kept u₀ s) : Kept u₀ (setHeadBand p new t s) := by
  unfold setHeadBand
  exact Kept.ite h (kept_raise (kept_setI h))

theorem kept_setHeadLevel {p new t s} (h : Kept u₀ s) : Kept u₀ (setHeadLevel p new t s) := by
  unfold setHeadLevel
  refine Kept.ite h ?_
  extract_lets +onlyGivenNames v0
  have hv0 : Kept u₀ v0 := kept_raise (kept_setI h)
  clear_value v0
  exact Kept.ite (kept_setI hv0) hv0

theorem kept_headRound {p s} (h : Kept u₀ s) : Kept u₀ (headRound p s) := by
  unfold headRound
  extract_lets +onlyGivenNames v0 v1
  clear_value v0 v1
  refine Kept.ite (kept_setHeadBand (kept_setHeadLevel h)) ?_
  split
  · exact h
  · refine Kept.ite (Kept.ite (kept_setHeadBand h) h) ?_
    extract_lets +onlyGivenNames v2 v3
    have hv2 : Kept u₀ v2 := kept_setHeadLevel h
    clear_value v2 v3
    exact kept_setHeadBand hv2

theorem kept_execHkRound {raw s} (h : Kept u₀ s) : KeptO u₀ (execHkRound raw s) := by
  unfold execHkRound
  refine KeptO.next ?_
  refine Kept.ite ?_ h
  extract_lets +onlyGivenNames v0 v1 v2 v3 v4 v5
  clear_value v0 v1
  have hv2 : Kept u₀ v2 := kept_wrap h
  clear_value v2
  have hv3 : Kept u₀ v3 := Kept.ite (kept_badRound hv2) (kept_goodRound hv2)
  clear_value v3
  have hv4 : Kept u₀ v4 := Kept.ite (kept_slowCheck (Kept.forAll (Kept.forAll hv3 (fun _ _ => kept_typeCheck)) (fun
      _ _ => kept_headRound))) hv3
  clear_value v4
  have hv5 : Kept u₀ v5 := Kept.ite (kept_driveRounds hv4) hv4
  clear_value v5
  exact Kept.ite (kept_avsUpdate hv5) hv5

theorem kept_execSlowdownSend {s} (h : Kept u₀ s) : KeptO u₀ (execSlowdownSend s) := by
  unfold execSlowdownSend
  exact KeptO.next (Kept.ite (kept_slowSend h) h)

theorem kept_execHeadSdAck {hi mask owner s} (h : Kept u₀ s) : KeptO u₀ (execHeadSdAck hi mask owner s) := by
  unfold execHeadSdAck
  exact KeptO.next (kept_gateReg (fun _ => kept_headAck) h)

theorem kept_updCpu {s f} (h : Kept u₀ s) : Kept u₀ (State.updCpu s f) := by
  unfold State.updCpu
  exact Kept.upd h

theorem kept_setMbox {m d l s} (h : Kept u₀ s) : Kept u₀ (setMbox m d l s) := by
  unfold setMbox
  exact kept_updCpu h

theorem kept_mboxClear {m s} (h : Kept u₀ s) : Kept u₀ (mboxClear m s) := by
  unfold mboxClear
  exact kept_setMbox (kept_setMbox h)

theorem kept_mboxDiscard {s} (h : Kept u₀ s) : Kept u₀ (mboxDiscard s) := by
  unfold mboxDiscard
  exact Kept.forAll (kept_updCpu h) (fun _ _ => kept_mboxClear)

theorem kept_irqDiscard {s} (h : Kept u₀ s) : Kept u₀ (irqDiscard s) := by
  unfold irqDiscard
  exact kept_updCpu h

theorem kept_hostRelease {mask s} (h : Kept u₀ s) : Kept u₀ (hostRelease mask s) := by
  unfold hostRelease
  extract_lets +onlyGivenNames v0
  have hv0 : Kept u₀ v0 := kept_set h
  clear_value v0
  refine Kept.forAll hv0 ?_
  intro _ _ h1
  extract_lets +onlyGivenNames v2
  clear_value v2
  exact Kept.ite (kept_updCpu h1) (Kept.ite (kept_breakLocks (kept_updCpu h1)) h1)

theorem kept_tenderRun {mask s} (h : Kept u₀ s) : Kept u₀ (tenderRun mask s) := by
  unfold tenderRun
  extract_lets +onlyGivenNames v0
  clear_value v0
  refine Kept.forAll (kept_set h) ?_
  intro _ _ h1
  refine Kept.ite h1 ?_
  extract_lets +onlyGivenNames v2
  have hv2 : Kept u₀ v2 := kept_mboxClear h1
  clear_value v2
  exact Kept.ite (kept_updCpu hv2) (kept_trkFault (kept_breakLocks hv2))

theorem kept_kick {k s} (h : Kept u₀ s) : Kept u₀ (kick k s) := by
  unfold kick
  exact kept_updCpu h

theorem kept_l2Go {op s} (h : Kept u₀ s) : Kept u₀ (l2Go op s) := by
  unfold l2Go
  extract_lets +onlyGivenNames v0 v1
  have hv0 : Kept u₀ v0 := Kept.ite h (kept_set h)
  clear_value v0 v1
  exact Kept.ite hv0 (kept_updCpu (kept_set hv0))

theorem kept_pushLoWrite {m d v owner s} (h : Kept u₀ s) : Kept u₀ (pushLoWrite m d v owner s) := by
  unfold pushLoWrite
  exact kept_updCpu h

theorem kept_sagMsgExpire {s} (h : Kept u₀ s) : Kept u₀ (sagMsgExpire s) := by
  unfold sagMsgExpire
  extract_lets +onlyGivenNames v0 v1
  clear_value v0 v1
  exact Kept.ite (kept_updCpu (kept_satI h)) h

theorem kept_mboxPut {m d v s} (h : Kept u₀ s) : Kept u₀ (mboxPut m d v s) := by
  unfold mboxPut
  extract_lets +onlyGivenNames v0
  clear_value v0
  exact Kept.ite (kept_setMbox h) (kept_raise h)

theorem kept_sagPush {ch v s} (h : Kept u₀ s) : Kept u₀ (sagPush ch v s) := by
  unfold sagPush
  extract_lets +onlyGivenNames v0
  have hv0 : Kept u₀ v0 := kept_sagMsgExpire h
  clear_value v0
  refine Kept.ite hv0 ?_
  extract_lets +onlyGivenNames v1
  clear_value v1
  split
  · exact kept_updCpu hv0
  · extract_lets +onlyGivenNames v2
    have hv2 : Kept u₀ v2 := kept_updCpu hv0
    clear_value v2
    exact Kept.ite hv2 (kept_mboxPut hv2)

theorem kept_pushHiWrite {m d hi owner s} (h : Kept u₀ s) : Kept u₀ (pushHiWrite m d hi owner s) := by
  unfold pushHiWrite
  refine Kept.ite (kept_raise h) ?_
  extract_lets +onlyGivenNames v0
  clear_value v0
  exact Kept.ite (kept_sagPush h) (kept_mboxPut h)

theorem kept_complete {k i s} (h : Kept u₀ s) : Kept u₀ (complete k i s) := by
  unfold complete
  exact kept_updCpu h

theorem kept_norGo {op s} (h : Kept u₀ s) : Kept u₀ (norGo op s) := by
  unfold norGo
  extract_lets +onlyGivenNames v0 v1
  clear_value v0
  have hv1 : Kept u₀ v1 := kept_set h
  clear_value v1
  refine Kept.ite hv1 ?_
  extract_lets +onlyGivenNames v2 v3
  clear_value v2 v3
  refine Kept.ite (kept_raise (kept_set hv1)) ?_
  extract_lets +onlyGivenNames v4
  have hv4 : Kept u₀ v4 := kept_updCpu (kept_set hv1)
  clear_value v4
  exact kept_set hv4

theorem kept_bootLoad {slot n s} (h : Kept u₀ s) : Kept u₀ (bootLoad slot n s) := by
  unfold bootLoad
  extract_lets +onlyGivenNames v0 v1 v2 v3
  clear_value v0 v1 v2
  have hv3 : Kept u₀ v3 := kept_roomWrite h
  clear_value v3
  exact Kept.forAll hv3 (fun _ _ => kept_setAptBytes)

theorem kept_bootPass {slot s} (h : Kept u₀ s) : Kept u₀ (bootPass slot s) := by
  unfold bootPass
  extract_lets +onlyGivenNames v0 v1 v2 v3 v4 v5
  clear_value v0 v1
  have hv2 : Kept u₀ v2 := kept_set (kept_set (kept_set (kept_set h)))
  clear_value v2
  have hv3 : Kept u₀ v3 := kept_set (kept_set (kept_set hv2))
  clear_value v3
  have hv4 : Kept u₀ v4 := kept_set hv3
  clear_value v4
  have hv5 : Kept u₀ v5 := kept_updCpu hv4
  clear_value v5
  exact kept_raise (kept_set (kept_restorePage hv5))

theorem kept_execCpuWatchdog {k s} (h : Kept u₀ s) : KeptO u₀ (execCpuWatchdog k s) := by
  unfold execCpuWatchdog
  extract_lets +onlyGivenNames v0
  clear_value v0
  refine KeptO.next ?_
  refine Kept.ite ?_ h
  extract_lets +onlyGivenNames v1 v2
  clear_value v1
  have hv2 : Kept u₀ v2 := kept_raise (kept_updCpu h)
  clear_value v2
  exact Kept.ite (kept_breakLocks hv2) hv2

theorem kept_execWatchdogKick {k owner s} (h : Kept u₀ s) : KeptO u₀ (execWatchdogKick k owner s) := by
  unfold execWatchdogKick
  exact KeptO.next (Kept.ite (kept_gateReg (fun _ => kept_kick) h) h)

theorem kept_execHostCoreRelease {mask owner s} (h : Kept u₀ s) : KeptO u₀ (execHostCoreRelease mask owner s) := by
  unfold execHostCoreRelease
  exact KeptO.next (kept_gateReg (fun _ => kept_hostRelease) h)

theorem kept_execTenderRun {mask owner s} (h : Kept u₀ s) : KeptO u₀ (execTenderRun mask owner s) := by
  unfold execTenderRun
  exact KeptO.next (kept_gateReg (fun _ => kept_tenderRun) h)

theorem kept_execTenderFault {r kind addr s} (h : Kept u₀ s) : KeptO u₀ (execTenderFault r kind addr s) := by
  unfold execTenderFault
  refine KeptO.next ?_
  refine Kept.ite ?_ h
  extract_lets +onlyGivenNames v0
  have hv0 : Kept u₀ v0 := kept_updCpu h
  clear_value v0
  exact kept_trkFault (kept_mboxClear (kept_breakLocks (kept_raise hv0)))

theorem kept_execCacheError {core addr dirty s} (h : Kept u₀ s) : KeptO u₀ (execCacheError core addr dirty s) := by
  unfold execCacheError
  refine KeptO.next ?_
  refine Kept.ite ?_ h
  extract_lets +onlyGivenNames v0
  have hv0 : Kept u₀ v0 := Kept.ite (kept_updCpu h) h
  clear_value v0
  exact kept_raise hv0

theorem kept_imageFail {slot reason s} (h : Kept u₀ s) : Kept u₀ (imageFail slot reason s) := by
  unfold imageFail
  exact kept_raise (kept_set h)

theorem kept_nextCandidate {l s} (h : Kept u₀ s) : Kept u₀ (nextCandidate l s) := by
  unfold nextCandidate
  split
  · exact kept_updCpu h
  · exact kept_raise (kept_updCpu h)

theorem kept_execBootStart {unread s} (h : Kept u₀ s) : KeptO u₀ (execBootStart unread s) := by
  unfold execBootStart
  refine KeptO.next ?_
  refine Kept.ite ?_ h
  extract_lets +onlyGivenNames v0 v1 v2
  have hv0 : Kept u₀ v0 := Kept.forAll h (fun _ _ h3 => Kept.ite (kept_imageFail h3) (Kept.ite h3 (kept_imageFail
      h3)))
  clear_value v0 v1 v2
  exact kept_nextCandidate hv0

theorem kept_execBootCandidateEnd {errAt s} (h : Kept u₀ s) : KeptO u₀ (execBootCandidateEnd errAt s) := by
  unfold execBootCandidateEnd
  refine KeptO.next ?_
  refine Kept.ite ?_ h
  extract_lets +onlyGivenNames v0 v1 v2
  clear_value v0
  have hv1 : ∀ x0 x1, Kept u₀ x1 → Kept u₀ (v1 x0 x1) := by
    unfold v1
    exact fun _ _ h3 => kept_nextCandidate (kept_imageFail h3)
  clear_value v1 v2
  refine Kept.ite (hv1 _ _ h) ?_
  split
  · exact hv1 _ _ (kept_bootLoad h)
  · extract_lets +onlyGivenNames v4
    have hv4 : Kept u₀ v4 := kept_bootLoad h
    clear_value v4
    exact Kept.ite (hv1 _ _ hv4) (Kept.ite (hv1 _ _ hv4) (kept_bootPass hv4))

theorem kept_execNorReadPage {owner s} (h : Kept u₀ s) : KeptO u₀ (execNorReadPage owner s) := by
  unfold execNorReadPage
  exact KeptO.next (kept_gateReg (fun _ => kept_norGo) h)

theorem kept_execNorProgramPage {owner s} (h : Kept u₀ s) : KeptO u₀ (execNorProgramPage owner s) := by
  unfold execNorProgramPage
  exact KeptO.next (kept_gateReg (fun _ => kept_norGo) h)

theorem kept_execNorEraseSector {owner s} (h : Kept u₀ s) : KeptO u₀ (execNorEraseSector owner s) := by
  unfold execNorEraseSector
  exact KeptO.next (kept_gateReg (fun _ => kept_norGo) h)

theorem kept_execNorOpDone {s} (h : Kept u₀ s) : KeptO u₀ (execNorOpDone s) := by
  unfold execNorOpDone
  exact KeptO.next (Kept.ite (kept_norDone h) (Kept.ite (kept_set h) h))

theorem kept_execMboxPush {m d hi owner s} (h : Kept u₀ s) : KeptO u₀ (execMboxPush m d hi owner s) := by
  unfold execMboxPush
  exact KeptO.next (Kept.ite (kept_gateReg (fun _ => kept_pushHiWrite) h) h)

theorem kept_execMboxPop {m d owner s} (h : Kept u₀ s) : KeptO u₀ (execMboxPop m d owner s) := by
  unfold execMboxPop
  refine KeptO.next ?_
  refine Kept.ite ?_ h
  refine Kept.ite (Kept.upd h) ?_
  split
  · exact Kept.upd h
  · extract_lets +onlyGivenNames v0
    have hv0 : Kept u₀ v0 := kept_setMbox h
    clear_value v0
    exact Kept.upd hv0

theorem kept_claimInput {k i s} (h : Kept u₀ s) : Kept u₀ (claimInput k i s) := by
  unfold claimInput
  exact kept_stamp (kept_updCpu h)

theorem kept_execClaim {k s} (h : Kept u₀ s) : KeptO u₀ (execClaim k s) := by
  unfold execClaim
  refine KeptO.next ?_
  refine Kept.ite ?_ h
  split
  · extract_lets +onlyGivenNames v0
    have hv0 : Kept u₀ v0 := kept_claimInput h
    clear_value v0
    exact Kept.upd hv0
  · exact Kept.upd h

theorem kept_execComplete {k i owner s} (h : Kept u₀ s) : KeptO u₀ (execComplete k i owner s) := by
  unfold execComplete
  exact KeptO.next (Kept.ite (kept_gateReg (fun _ => kept_complete) h) h)

theorem kept_execL2Clean {owner s} (h : Kept u₀ s) : KeptO u₀ (execL2Clean owner s) := by
  unfold execL2Clean
  exact KeptO.next (kept_gateReg (fun _ => kept_l2Go) h)

theorem kept_execL2Invalidate {owner s} (h : Kept u₀ s) : KeptO u₀ (execL2Invalidate owner s) := by
  unfold execL2Invalidate
  exact KeptO.next (kept_gateReg (fun _ => kept_l2Go) h)

theorem kept_execL2CleanInvalidate {owner s} (h : Kept u₀ s) : KeptO u₀ (execL2CleanInvalidate owner s) := by
  unfold execL2CleanInvalidate
  exact KeptO.next (kept_gateReg (fun _ => kept_l2Go) h)

theorem kept_writeBack {line data s} (h : Kept u₀ s) : Kept u₀ (writeBack line data s) := by
  unfold writeBack
  extract_lets +onlyGivenNames v0
  have hv0 : Kept u₀ v0 := kept_sysWrite h
  clear_value v0
  exact Kept.ite (Kept.upd hv0) hv0

theorem kept_execL2MaintDone {lines s} (h : Kept u₀ s) : KeptO u₀ (execL2MaintDone lines s) := by
  unfold execL2MaintDone
  refine KeptO.next ?_
  refine Kept.ite ?_ h
  extract_lets +onlyGivenNames v0
  have hv0 : Kept u₀ v0 := Kept.ite h (Kept.forAll h (fun _ _ => kept_writeBack))
  clear_value v0
  exact kept_updCpu (kept_set hv0)

theorem kept_updStack {s f} (h : Kept u₀ s) : Kept u₀ (State.updStack s f) := by
  unfold State.updStack
  exact Kept.upd h

theorem kept_stackGrant {i first s} (h : Kept u₀ s) : Kept u₀ (stackGrant i first s) := by
  unfold stackGrant
  split
  · exact h
  · extract_lets +onlyGivenNames v0 v1 v2
    clear_value v0 v1
    have hv2 : Kept u₀ v2 := Kept.ite (kept_setI h) h
    clear_value v2
    exact kept_updStack hv2

theorem kept_stackArbitrate {first s} (h : Kept u₀ s) : Kept u₀ (stackArbitrate first s) := by
  unfold stackArbitrate
  extract_lets +onlyGivenNames v0
  have hv0 : Kept u₀ v0 := kept_updStack h
  clear_value v0
  split
  · exact kept_stackGrant hv0
  · exact hv0

theorem kept_stackRetire {pg s} (h : Kept u₀ s) : Kept u₀ (stackRetire pg s) := by
  unfold stackRetire
  refine Kept.forAll h ?_
  intro _ _ h0
  refine Kept.ite ?_ h0
  extract_lets +onlyGivenNames v1
  have hv1 : Kept u₀ v1 := kept_updStack h0
  clear_value v1
  exact Kept.ite (kept_stackArbitrate hv1) hv1

theorem kept_scrubDiscard {s} (h : Kept u₀ s) : Kept u₀ (scrubDiscard s) := by
  unfold scrubDiscard
  exact Kept.upd h

theorem kept_stackAbort {i s} (h : Kept u₀ s) : Kept u₀ (stackAbort i s) := by
  unfold stackAbort
  split
  · exact h
  · extract_lets +onlyGivenNames v0
    have hv0 : Kept u₀ v0 := kept_updStack h
    clear_value v0
    exact Kept.ite hv0 (Kept.upd hv0)

theorem kept_stackDiscard {s} (h : Kept u₀ s) : Kept u₀ (stackDiscard s) := by
  unfold stackDiscard
  extract_lets +onlyGivenNames v0
  have hv0 : Kept u₀ v0 := Kept.forAll h (fun _ _ => kept_stackAbort)
  clear_value v0
  exact kept_updStack hv0

theorem kept_stackUnmask {pg s} (h : Kept u₀ s) : Kept u₀ (stackUnmask pg s) := by
  unfold stackUnmask
  exact Kept.forAll h (fun _ _ h0 => Kept.ite (kept_set h0) h0)

theorem kept_stackReady {s} (h : Kept u₀ s) : Kept u₀ (stackReady s) := by
  unfold stackReady
  exact Kept.ite (kept_stackArbitrate h) h

theorem kept_execStacksRequest {i sdram addr wr beats data s} (h : Kept u₀ s) : KeptO u₀ (execStacksRequest i sdram
    addr wr beats data s) := by
  unfold execStacksRequest
  refine KeptO.next ?_
  refine Kept.ite h ?_
  refine Kept.ite ?_ ?_
  · extract_lets +onlyGivenNames v0
    have hv0 : Kept u₀ v0 := kept_rangeError h
    clear_value v0
    exact Kept.upd hv0
  · extract_lets +onlyGivenNames v1 v2
    clear_value v1
    have hv2 : Kept u₀ v2 := kept_updStack h
    clear_value v2
    exact Kept.ite (kept_stackGrant hv2) hv2

theorem kept_sramUpset {die word upset s} (h : Kept u₀ s) : Kept u₀ (sramUpset die word upset s) := by
  unfold sramUpset
  extract_lets +onlyGivenNames v0
  clear_value v0
  exact Kept.upd h

theorem kept_sdramBeat {i addr s} (h : Kept u₀ s) : Kept u₀ (sdramBeat i addr s).1 := by
  unfold sdramBeat
  exact kept_burstRead h

theorem kept_sramCorrected {die word syn s} (h : Kept u₀ s) : Kept u₀ (sramCorrected die word syn s) := by
  unfold sramCorrected
  extract_lets +onlyGivenNames v0
  have hv0 : Kept u₀ v0 := kept_satI h
  clear_value v0
  exact kept_raiseX hv0

theorem kept_roomRead {word s} (h : Kept u₀ s) : Kept u₀ (roomRead word s).1 := by
  unfold roomRead
  extract_lets +onlyGivenNames v0 v1 v2
  clear_value v0 v1 v2
  split
  · exact h
  · split
    · exact h
    · split
      · extract_lets +onlyGivenNames v3 v4
        clear_value v3 v4
        exact kept_sramCorrected h
      · exact kept_sramBad h

theorem kept_roomBeat {addr s} (h : Kept u₀ s) : Kept u₀ (roomBeat addr s).1 := by
  unfold roomBeat
  extract_lets -merge -underBinder +onlyGivenNames v0
  have hv0 : Kept u₀ v0.1 := by
    unfold v0
    refine Kept.foldl1 h ?_
    intro _ _ h1
    extract_lets +onlyGivenNames v2
    have hv2 : Kept u₀ v2.1 := kept_roomRead h1
    clear_value v2
    exact hv2
  clear_value v0
  exact hv0

theorem kept_stackBeat {i k s} (h : Kept u₀ s) : Kept u₀ (stackBeat i k s) := by
  unfold stackBeat
  split
  · exact h
  · extract_lets +onlyGivenNames v0 v1
    clear_value v0
    have hv1 : Kept u₀ v1 := kept_wrapI h
    clear_value v1
    refine Kept.ite ?_ ?_
    · extract_lets +onlyGivenNames v2 v3
      clear_value v2
      have hv3 : Kept u₀ v3 := Kept.ite (kept_sdramWrite hv1) (kept_roomWrite hv1)
      clear_value v3
      exact kept_updStack hv3
    · extract_lets +onlyGivenNames v4 v5
      have hv4 : Kept u₀ v4.1 := by
        unfold v4
        split
        · exact kept_sdramBeat hv1
        · exact kept_roomBeat hv1
      clear_value v4 v5
      exact kept_updStack hv4

theorem kept_stackFinish {i s} (h : Kept u₀ s) : Kept u₀ (stackFinish i s) := by
  unfold stackFinish
  split
  · exact h
  · extract_lets +onlyGivenNames v0 v1
    clear_value v0
    have hv1 : Kept u₀ v1 := kept_updStack h
    clear_value v1
    exact Kept.upd hv1

theorem kept_execStacksTenureEnd {upsets s} (h : Kept u₀ s) : KeptO u₀ (execStacksTenureEnd upsets s) := by
  unfold execStacksTenureEnd
  refine KeptO.next ?_
  split
  · exact h
  · split
    · exact h
    · extract_lets +onlyGivenNames v0
      clear_value v0
      refine Kept.ite h ?_
      extract_lets +onlyGivenNames v1 v2 v3
      have hv1 : Kept u₀ v1 := Kept.forAll h (fun _ _ => kept_sramUpset)
      clear_value v1
      have hv2 : Kept u₀ v2 := Kept.forAll hv1 (fun _ _ => kept_stackBeat)
      clear_value v2 v3
      refine Kept.ite (kept_stackArbitrate (kept_stackFinish hv2)) ?_
      extract_lets -merge -underBinder +onlyGivenNames v6 v7
      have hv6 : Kept u₀ v6 := kept_updStack hv2
      clear_value v6
      have hv7 : Kept u₀ v7 := Kept.ite hv6 (kept_sat hv6)
      clear_value v7
      exact kept_stackArbitrate hv7

theorem kept_execStacksWatchdog_stackReset {pg s} (h : Kept u₀ s) : Kept u₀ (execStacksWatchdog.stackReset pg s) := by
  unfold execStacksWatchdog.stackReset
  extract_lets +onlyGivenNames v0
  clear_value v0
  split <;> exact Kept.upd h

theorem kept_execStacksWatchdog {moved s} (h : Kept u₀ s) : KeptO u₀ (execStacksWatchdog moved s) := by
  unfold execStacksWatchdog
  refine KeptO.next ?_
  split
  · exact h
  · split
    · exact h
    · extract_lets +onlyGivenNames v0
      clear_value v0
      refine Kept.ite h ?_
      extract_lets +onlyGivenNames v1 v2 v3 v4 v5
      have hv1 : Kept u₀ v1 := Kept.forAll h (fun _ _ => kept_stackBeat)
      clear_value v1
      have hv2 : Kept u₀ v2 := kept_sat hv1
      clear_value v2
      have hv3 : Kept u₀ v3 := kept_raise hv2
      clear_value v3
      have hv4 : Kept u₀ v4 := by
        unfold v4
        split
        · exact kept_set hv3
        · exact hv3
      clear_value v4
      have hv5 : Kept u₀ v5 := kept_stackArbitrate (kept_stackAbort hv4)
      clear_value v5
      split
      · exact kept_execStacksWatchdog_stackReset hv5
      · exact hv5

theorem kept_execScrubRead {die upset s} (h : Kept u₀ s) : KeptO u₀ (execScrubRead die upset s) := by
  unfold execScrubRead
  extract_lets +onlyGivenNames v0 v1
  clear_value v0 v1
  refine KeptO.next ?_
  refine Kept.ite h ?_
  extract_lets +onlyGivenNames v2 v3 v4 v5 v6 v7
  have hv2 : Kept u₀ v2 := kept_sramUpset h
  clear_value v2 v3 v4
  have hv5 : Kept u₀ v5 := Kept.ite hv2 (Kept.ite (kept_sramCorrected (Kept.upd hv2)) (kept_sramBad hv2))
  clear_value v5
  have hv7 : Kept u₀ v7 := Kept.upd hv5
  clear_value v7
  exact Kept.ite (kept_wrapI hv7) hv7

theorem kept_jobEnd {k reason out inn s} (h : Kept u₀ s) : Kept u₀ (jobEnd k reason out inn s) := by
  unfold jobEnd
  exact kept_setI (kept_setI (kept_setI (kept_setI h)))

theorem kept_jobFail {k reason out inn s} (h : Kept u₀ s) : Kept u₀ (jobFail k reason out inn s) := by
  unfold jobFail
  exact kept_raise (kept_jobEnd h)

theorem kept_jobAbort {k s} (h : Kept u₀ s) : Kept u₀ (jobAbort k s) := by
  unfold jobAbort
  refine Kept.ite ?_ h
  extract_lets +onlyGivenNames v0 v1
  have hv0 : Kept u₀ v0.2 := kept_freeUpTo h
  clear_value v0
  have hv1 : Kept u₀ v1.2 := kept_freeUpTo hv0
  clear_value v1
  exact kept_jobFail hv1

theorem kept_jobDiscard {s} (h : Kept u₀ s) : Kept u₀ (jobDiscard s) := by
  unfold jobDiscard
  exact Kept.forAll h (fun _ _ => kept_jobAbort)

theorem kept_jobStart {k s} (h : Kept u₀ s) : Kept u₀ (jobStart k s) := by
  unfold jobStart
  refine Kept.ite h ?_
  refine Kept.ite (kept_jobFail h) ?_
  extract_lets +onlyGivenNames v0 v1
  clear_value v0 v1
  exact kept_setI (kept_setI (kept_setI (kept_setI (kept_setI h))))

theorem kept_execJobStart {slot owner s} (h : Kept u₀ s) : KeptO u₀ (execJobStart slot owner s) := by
  unfold execJobStart
  exact KeptO.next (Kept.ite (kept_gateReg (fun _ => kept_jobStart) h) h)

theorem kept_execJobAbort {slot owner s} (h : Kept u₀ s) : KeptO u₀ (execJobAbort slot owner s) := by
  unfold execJobAbort
  exact KeptO.next (Kept.ite (kept_gateReg (fun _ => kept_jobAbort) h) h)

theorem kept_jobRead {k s} (h : Kept u₀ s) : Kept u₀ (jobRead k s) := by
  unfold jobRead
  exact kept_sysRead h

theorem kept_execJobDone {slot s} (h : Kept u₀ s) : KeptO u₀ (execJobDone slot s) := by
  unfold execJobDone
  refine KeptO.next ?_
  refine Kept.ite ?_ h
  extract_lets +onlyGivenNames v0 v1 v2 v3 v4 v5
  clear_value v0 v1 v2
  have hv3 : Kept u₀ v3 := kept_sysWrite (kept_jobRead h)
  clear_value v3
  have hv4 : Kept u₀ v4 := kept_setI (kept_setI (kept_setI hv3))
  clear_value v4
  have hv5 : Kept u₀ v5 := kept_wrap (kept_setI hv4)
  clear_value v5
  exact kept_raise hv5

theorem kept_execOutFull {slot s} (h : Kept u₀ s) : KeptO u₀ (execOutFull slot s) := by
  refine KeptO.next (Kept.ite (kept_raise (kept_jobEnd (kept_sysWrite ?_))) h)
  exact (kept_freeUpTo (kept_freeUpTo (kept_jobRead h))).freeIx (Nat.le_add_right _ _)

theorem kept_execJobSourceFault {slot poisoned s} (h : Kept u₀ s) : KeptO u₀ (execJobSourceFault slot poisoned s)
    := by
  unfold execJobSourceFault
  refine KeptO.next ?_
  refine Kept.ite ?_ h
  extract_lets +onlyGivenNames v0 v1
  have hv0 : Kept u₀ v0.2 := kept_freeUpTo (kept_jobRead h)
  clear_value v0
  have hv1 : Kept u₀ v1.2 := kept_freeUpTo hv0
  clear_value v1
  exact kept_jobFail hv1

end Sys2Proof.Machine
end

