-- ==== Sys2Proof/Laws/KeptModes.lean ====
section
/-! SUPPORT. The operations of modes, functional control and edges keep the time, the queue and the canonical form. -/

-- One declaration after another: the package is also checked as one text, where too many threads would start at once.
set_option Elab.async false

namespace Sys2Proof.Machine

variable {u₀ : State}

theorem kept_ingestStart {s} (h : Kept u₀ s) : Kept u₀ (ingestStart s) := by
  unfold ingestStart
  extract_lets +onlyGivenNames v0 v1
  clear_value v0 v1
  exact kept_startBoundary h

theorem kept_frameBoundary {pg s} (h : Kept u₀ s) : Kept u₀ (frameBoundary pg s) := by
  unfold frameBoundary
  extract_lets +onlyGivenNames v0
  clear_value v0
  exact kept_startBoundary h

theorem kept_blockStart {pg s} (h : Kept u₀ s) : Kept u₀ (blockStart pg s) := by
  unfold blockStart
  exact Kept.ite (kept_portStart h) (Kept.ite (kept_posStart h) (Kept.ite (kept_ingestStart h) (Kept.ite
      (kept_startBoundary h) (Kept.ite (kept_frameBoundary h) (Kept.ite (kept_trkStart h) (Kept.ite (kept_pairStart
          h) h))))))

theorem kept_camStop {l s} (h : Kept u₀ s) : Kept u₀ (camStop l s) := by
  unfold camStop
  exact Kept.forAll h (fun _ _ h0 => kept_setI (kept_slotDisable h0))

theorem kept_blockStop {pg s} (h : Kept u₀ s) : Kept u₀ (blockStop pg s) := by
  unfold blockStop
  exact Kept.ite (kept_portStop h) (Kept.ite (kept_posStop h) (Kept.ite (kept_camStop h) (Kept.ite (kept_trkStop h)
      (Kept.ite (kept_pairStop h) h))))

theorem kept_blockDiscard {pg s} (h : Kept u₀ s) : Kept u₀ (blockDiscard pg s) := by
  unfold blockDiscard
  extract_lets +onlyGivenNames v0
  have hv0 : Kept u₀ v0 := kept_stackRetire h
  clear_value v0
  exact Kept.ite (kept_portDiscard hv0) (Kept.ite (kept_posDiscard hv0) (Kept.ite (kept_laneDiscard hv0) (Kept.ite
      (kept_cmpDiscard hv0) (Kept.ite (kept_ingestDiscard hv0) (Kept.ite (kept_jobDiscard hv0) (Kept.ite
          (kept_inflDiscard hv0) (Kept.ite (kept_regionDiscard hv0) (Kept.ite (kept_trkScreenReset
              (kept_regionDiscard hv0)) (Kept.ite (kept_camDiscard hv0) (Kept.ite (kept_pipeDiscard hv0) (Kept.ite
                  (kept_updPipe hv0) (Kept.ite (kept_trkAbandon hv0) (Kept.ite (kept_tdcDiscard hv0) (Kept.ite
                      (kept_calDiscard hv0) (Kept.ite (kept_memDiscard hv0) (Kept.ite (kept_scrubDiscard hv0)
                          (Kept.ite (kept_stackDiscard hv0) (Kept.ite (kept_netDiscard hv0) (Kept.ite
                              (kept_switchDiscard hv0) (Kept.ite (kept_ptpDiscard hv0) (Kept.ite (kept_trigDiscard
                                  hv0) (Kept.ite (kept_pairDiscard hv0) (Kept.ite (kept_seqDiscard hv0) (Kept.ite
                                      (kept_mboxDiscard hv0) (Kept.ite (kept_irqDiscard hv0) (Kept.ite
                                          (kept_storeDiscard hv0) hv0))))))))))))))))))))))))))

theorem kept_blockHold {pg on s} (h : Kept u₀ s) : Kept u₀ (blockHold pg on s) := by
  unfold blockHold
  extract_lets +onlyGivenNames v0
  have hv0 : Kept u₀ v0 := Kept.ite h (kept_updBnd h)
  clear_value v0
  exact Kept.ite (kept_portHold hv0) hv0

theorem kept_blockModeChanged {old new s} (h : Kept u₀ s) : Kept u₀ (blockModeChanged old new s) := by
  unfold blockModeChanged
  extract_lets +onlyGivenNames v0 v1 v2
  have hv0 : Kept u₀ v0 := Kept.ite (Kept.forAll h (fun _ _ => kept_portHalt)) h
  clear_value v0
  have hv1 : Kept u₀ v1 := Kept.ite (kept_netToIdle hv0) hv0
  clear_value v1
  have hv2 : Kept u₀ v2 := kept_sagOutputs (kept_pairModeChanged (Kept.forAll hv1 (fun _ _ => kept_portNext)))
  clear_value v2
  exact Kept.ite (kept_startDormant (kept_updRail hv2)) (Kept.ite (kept_startTransition hv2) hv2)

theorem canonical_reset : State.reset.Canonical := ⟨rfl, rfl, rfl, rfl, by decide⟩

theorem kept_blockPowerUp {s} (h : Kept u₀ s) : Kept u₀ (blockPowerUp s) := by
  unfold blockPowerUp
  extract_lets +onlyGivenNames v0
  have hv0 : Kept State.reset v0 :=
    Kept.forAll (Kept.refl canonical_reset) (fun _ _ h1 => Kept.forAll h1 (fun _ _ => kept_setI))
  clear_value v0
  exact ⟨h.1, hv0.2⟩

theorem kept_blockPorst {s} (h : Kept u₀ s) : Kept u₀ (blockPorst s) := by
  unfold blockPorst
  exact kept_blockPowerUp (kept_sagPorst (kept_railsPorst (kept_storeTear h)))

theorem kept_blockReady {pg s} (h : Kept u₀ s) : Kept u₀ (blockReady pg s) := by
  unfold blockReady
  extract_lets +onlyGivenNames v0 v1
  clear_value v0
  have hv1 : Kept u₀ v1 := kept_stackUnmask (kept_restorePage h)
  clear_value v1
  refine Kept.ite (kept_ingestReady hv1) ?_
  refine Kept.ite (Kept.ite hv1 (kept_screenFill hv1)) ?_
  refine Kept.ite (kept_frameBoundary (Kept.ite (kept_tapReady hv1) hv1)) ?_
  refine Kept.ite (Kept.ite hv1 (kept_tdcReady hv1)) ?_
  refine Kept.ite (kept_calRestore hv1) ?_
  refine Kept.ite (kept_memCommonReady hv1) ?_
  refine Kept.ite (kept_memChanReady hv1) ?_
  refine Kept.ite (kept_set hv1) ?_
  refine Kept.ite ?_ (Kept.ite (kept_sagLatch hv1) (Kept.ite (kept_seqReady hv1) (Kept.ite (kept_storeReady hv1)
      hv1)))
  refine kept_stackReady ?_
  refine Kept.ite hv1 ?_
  extract_lets +onlyGivenNames v2
  have hv2 : Kept u₀ v2 := kept_set hv1
  clear_value v2
  exact Kept.upd hv2

theorem kept_blockRelease {pg s} (h : Kept u₀ s) : Kept u₀ (blockRelease pg s) := by
  unfold blockRelease
  exact Kept.ite (kept_portRelease h) h

theorem kept_blockSafeHold {s} (h : Kept u₀ s) : Kept u₀ (blockSafeHold s) := by
  unfold blockSafeHold
  extract_lets +onlyGivenNames v0
  have hv0 : Kept u₀ v0 := Kept.forAll h (fun _ _ => kept_portHalt)
  clear_value v0
  exact kept_sagOutputs (Kept.upd hv0)

theorem kept_blockStopPrinting {stopNow s} (h : Kept u₀ s) : Kept u₀ (blockStopPrinting stopNow s) := by
  unfold blockStopPrinting
  exact Kept.forAll h (fun _ _ => kept_portLeave)

theorem kept_blockToDormant {s} (h : Kept u₀ s) : Kept u₀ (blockToDormant s) := by
  unfold blockToDormant
  exact kept_journalStop h

theorem kept_controlEnable {pg on data s} (h : Kept u₀ s) : Kept u₀ (controlEnable pg on data s) := by
  unfold controlEnable
  exact Kept.ite (Kept.ite (kept_raise h) (Kept.ite h (kept_blockStart (kept_set h)))) (Kept.ite (kept_blockStop
      (kept_set h)) h)

theorem kept_ringRequest {r0 s} (h : Kept u₀ s) : Kept u₀ (ringRequest r0 s) := by
  unfold ringRequest
  extract_lets +onlyGivenNames v0
  clear_value v0
  split <;> exact Kept.upd h

theorem kept_ringHost {op pg word s} (h : Kept u₀ s) : Kept u₀ (ringHost op pg word s) := by
  unfold ringHost
  exact Kept.ite h (kept_ringRequest (kept_set (kept_set (kept_set (kept_set h)))))

theorem kept_resetField {pg s f} (h : Kept u₀ s) : Kept u₀ (resetField pg s f) := by
  unfold resetField
  split
  · exact Kept.ite h (Kept.forAll h (fun _ _ => kept_setI))
  · exact h

theorem kept_ringJoin {pg s} (h : Kept u₀ s) : Kept u₀ (ringJoin pg s) := by
  unfold ringJoin
  extract_lets +onlyGivenNames v0
  clear_value v0
  exact Kept.upd h

theorem kept_resetPage {pg requester s} (h : Kept u₀ s) : Kept u₀ (resetPage pg requester s) := by
  unfold resetPage
  refine Kept.ite h ?_
  extract_lets +onlyGivenNames v0 v1 v2 v3
  have hv0 : Kept u₀ v0 := kept_abandonCommit (kept_blockDiscard h)
  clear_value v0
  have hv1 : Kept u₀ v1 := Kept.foldl hv0 (fun _ _ h4 => kept_resetField h4)
  clear_value v1
  have hv2 : Kept u₀ v2 := kept_updBnd (kept_copySets hv1)
  clear_value v2
  have hv3 : Kept u₀ v3 := Kept.ite (Kept.forAll hv2 (fun _ _ => kept_groupCancel)) hv2
  clear_value v3
  exact kept_ringJoin (kept_raise hv3)

theorem kept_funcReset {pg requester s} (h : Kept u₀ s) : Kept u₀ (funcReset pg requester s) := by
  unfold funcReset
  exact Kept.forAll h (fun _ _ => kept_resetPage)

theorem kept_quiesce {pg s} (h : Kept u₀ s) : Kept u₀ (quiesce pg s) := by
  unfold quiesce
  exact Kept.ite h (kept_updBnd (kept_set h))

theorem kept_releaseQuiesce {pg s} (h : Kept u₀ s) : Kept u₀ (releaseQuiesce pg s) := by
  unfold releaseQuiesce
  exact Kept.ite (kept_blockRelease (kept_updBnd (kept_set h))) h

theorem kept_fabricQuiesce {pg on s} (h : Kept u₀ s) : Kept u₀ (fabricQuiesce pg on s) := by
  unfold fabricQuiesce
  exact Kept.ite h (Kept.ite (kept_quiesce h) (kept_releaseQuiesce h))

theorem kept_execControlEnable {pg on s} (h : Kept u₀ s) : KeptO u₀ (execControlEnable pg on s) := by
  unfold execControlEnable
  extract_lets +onlyGivenNames v0
  clear_value v0
  exact KeptO.next (Kept.ite (kept_controlEnable h) h)

theorem kept_execControlHold {pg on s} (h : Kept u₀ s) : KeptO u₀ (execControlHold pg on s) := by
  unfold execControlHold
  exact KeptO.next (Kept.ite (kept_blockHold (kept_set h)) h)

theorem kept_execControlQuiesce {pg s} (h : Kept u₀ s) : KeptO u₀ (execControlQuiesce pg s) := by
  unfold execControlQuiesce
  exact KeptO.next (Kept.ite (kept_fabricQuiesce h) h)

theorem kept_execControlReleaseQuiesce {pg s} (h : Kept u₀ s) : KeptO u₀ (execControlReleaseQuiesce pg s) := by
  unfold execControlReleaseQuiesce
  exact KeptO.next (Kept.ite (kept_fabricQuiesce h) h)

theorem kept_execControlFuncReset {pg owner s} (h : Kept u₀ s) : KeptO u₀ (execControlFuncReset pg owner s) := by
  unfold execControlFuncReset
  exact KeptO.next (Kept.ite h (kept_funcReset h))

theorem kept_execQuiesceTimeout {pg s} (h : Kept u₀ s) : KeptO u₀ (execQuiesceTimeout pg s) := by
  unfold execQuiesceTimeout
  refine KeptO.next ?_
  split
  · exact Kept.ite (kept_raise (kept_updBnd h)) h
  · exact h

theorem kept_execRingHeaderRead {pg word owner s} (h : Kept u₀ s) : KeptO u₀ (execRingHeaderRead pg word owner s)
    := by
  unfold execRingHeaderRead
  exact KeptO.next (kept_gateReg (fun _ => kept_ringHost) h)

theorem kept_execRingQuiesce {pg owner s} (h : Kept u₀ s) : KeptO u₀ (execRingQuiesce pg owner s) := by
  unfold execRingQuiesce
  exact KeptO.next (kept_gateReg (fun _ => kept_ringHost) h)

theorem kept_execRingReleaseQuiesce {pg owner s} (h : Kept u₀ s) : KeptO u₀ (execRingReleaseQuiesce pg owner s) := by
  unfold execRingReleaseQuiesce
  exact KeptO.next (kept_gateReg (fun _ => kept_ringHost) h)

theorem kept_execRingFuncReset {pg owner s} (h : Kept u₀ s) : KeptO u₀ (execRingFuncReset pg owner s) := by
  unfold execRingFuncReset
  exact KeptO.next (kept_gateReg (fun _ => kept_ringHost) h)

theorem kept_ringAdvance {s} (h : Kept u₀ s) : Kept u₀ (ringAdvance s) := by
  unfold ringAdvance
  split <;> exact Kept.upd h

theorem kept_ringDone {r err s} (h : Kept u₀ s) : Kept u₀ (ringDone r err s) := by
  unfold ringDone
  refine Kept.ite ?_ h
  extract_lets +onlyGivenNames v0
  have hv0 : Kept u₀ v0 := kept_set (kept_set (kept_set h))
  clear_value v0
  exact Kept.ite (kept_set hv0) (Kept.ite (kept_set hv0) hv0)

theorem kept_ringExecute {r s} (h : Kept u₀ s) : Kept u₀ (ringExecute r s) := by
  unfold ringExecute
  refine Kept.ite ?_ h
  split
  · exact kept_updBnd (kept_quiesce h)
  · exact kept_updBnd (kept_releaseQuiesce h)
  · exact Kept.forAll h (fun _ _ => kept_resetPage)
  · exact h

theorem kept_execRingFrameComplete {marked s} (h : Kept u₀ s) : KeptO u₀ (execRingFrameComplete marked s) := by
  unfold execRingFrameComplete
  refine KeptO.next ?_
  split
  · exact h
  · exact Kept.ite (Kept.ite (kept_ringAdvance (kept_ringDone (kept_raise h))) (Kept.upd h)) (kept_ringAdvance
      (kept_ringDone (kept_ringExecute h)))

theorem kept_linkRetry {link dir seq fails s} (h : Kept u₀ s) : Kept u₀ (linkRetry link dir seq fails s) := by
  unfold linkRetry
  extract_lets +onlyGivenNames v0
  have hv0 : Kept u₀ v0 := Kept.upd h
  clear_value v0
  exact kept_raise (kept_sat hv0)

theorem kept_linkDown {link cause s} (h : Kept u₀ s) : Kept u₀ (linkDown link cause s) := by
  unfold linkDown
  extract_lets +onlyGivenNames v0
  have hv0 : Kept u₀ v0 := kept_set h
  clear_value v0
  exact kept_setCause (kept_pairLinkDown (kept_raise hv0))

theorem kept_execDieLinkFlit {link dir seq crcBad s} (h : Kept u₀ s) : KeptO u₀ (execDieLinkFlit link dir seq
    crcBad s) := by
  unfold execDieLinkFlit
  extract_lets +onlyGivenNames v0
  clear_value v0
  refine KeptO.next ?_
  refine Kept.ite h ?_
  refine Kept.ite ?_ (Kept.upd h)
  split
  · exact kept_linkRetry h
  · exact Kept.ite (kept_linkDown h) (kept_linkRetry h)

theorem kept_execDieLinkTrainingLost {link s} (h : Kept u₀ s) : KeptO u₀ (execDieLinkTrainingLost link s) := by
  unfold execDieLinkTrainingLost
  exact KeptO.next (Kept.ite (kept_linkDown h) h)

theorem kept_countSteps {ch fwd n s} (h : Kept u₀ s) : Kept u₀ (countSteps ch fwd n s) := by
  induction n generalizing s with
  | zero => exact h
  | succ n ih =>
    unfold countSteps
    exact ih (Kept.forAll (kept_divSteps h) (fun _ _ h0 => Kept.forAll h0 (fun _ _ => kept_pushTag)))

theorem kept_afterEdge {ch t16 d old new} (h : Kept u₀ old) (h1' : Kept u₀ new) : Kept u₀ (afterEdge ch t16 d old
    new) := by
  unfold afterEdge
  extract_lets +onlyGivenNames v0 v1
  have hv0 : Kept u₀ v0 := kept_countSteps h1'
  clear_value v0 v1
  exact Kept.ite hv0 (kept_portsEdge hv0)

theorem kept_ballEdges {ch reps base width v ph s} (h : Kept u₀ s) : Kept u₀ (ballEdges ch reps base width v ph s)
    := by
  unfold ballEdges
  refine Kept.forAll h ?_
  intro _ _ h0
  refine Kept.ite ?_ h0
  refine Kept.forAll h0 ?_
  intro _ _ h1
  extract_lets +onlyGivenNames v2
  clear_value v2
  exact Kept.ite (kept_tdcEdge h1) h1

theorem kept_quadNow {ch reps ab ph s} (h : Kept u₀ s) : Kept u₀ (quadNow ch reps ab ph s) := by
  unfold quadNow
  extract_lets +onlyGivenNames v0
  have hv0 : Kept u₀ v0.1 := kept_quadTransition h
  clear_value v0
  exact kept_afterEdge h hv0

theorem kept_switchNow {ch reps code ph s} (h : Kept u₀ s) : Kept u₀ (switchNow ch reps code ph s) := by
  unfold switchNow
  extract_lets +onlyGivenNames v0
  have hv0 : Kept u₀ v0.1 := kept_switchCode h
  clear_value v0
  exact kept_afterEdge h hv0

theorem kept_indexNow {ch reps z ph s} (h : Kept u₀ s) : Kept u₀ (indexNow ch reps z ph s) := by
  unfold indexNow
  extract_lets +onlyGivenNames v0 v1 v2 v3
  have hv0 : Kept u₀ v0 := kept_indexEdge h
  clear_value v0 v1
  have hv2 : Kept u₀ v2 := Kept.ite hv0 (kept_portsEdge hv0)
  clear_value v2 v3
  exact Kept.ite hv2 (kept_portsIndex hv2)

theorem kept_settleDie {ch die s} (h : Kept u₀ s) : Kept u₀ (settleDie ch die s) := by
  unfold settleDie
  extract_lets +onlyGivenNames v0 v1 v2 v3 v4 v5 v6
  clear_value v0 v1 v2
  have hv3 : Kept u₀ v3 := Kept.ite h (kept_quadNow h)
  clear_value v3 v4
  have hv5 : Kept u₀ v5 := Kept.ite hv3 (kept_switchNow hv3)
  clear_value v5 v6
  exact Kept.ite hv5 (kept_indexNow hv5)

theorem kept_settleBalls {s} (h : Kept u₀ s) : Kept u₀ (settleBalls s) := by
  unfold settleBalls
  exact Kept.forAll h (fun _ _ h0 => Kept.forAll h0 (fun _ _ => kept_settleDie))

theorem kept_sampleBalls {ch reps base width v ph s} (h : Kept u₀ s) : Kept u₀ (sampleBalls ch reps base width v ph
    s) := by
  unfold sampleBalls
  exact kept_updPos (kept_ballEdges h)

theorem kept_execQuadTransition {ch reps ab ph s} (h : Kept u₀ s) : KeptO u₀ (execQuadTransition ch reps ab ph s)
    := by
  unfold execQuadTransition
  refine KeptO.next ?_
  refine Kept.ite ?_ h
  extract_lets +onlyGivenNames v0
  have hv0 : Kept u₀ v0 := kept_sampleBalls h
  clear_value v0
  exact Kept.ite (kept_quadNow hv0) hv0

theorem kept_execIndexEvent {ch reps balls ph s} (h : Kept u₀ s) : KeptO u₀ (execIndexEvent ch reps balls ph s) := by
  unfold execIndexEvent
  extract_lets +onlyGivenNames z ab
  clear_value z ab
  refine KeptO.next ?_
  refine Kept.ite ?_ h
  extract_lets +onlyGivenNames v0 v1
  have hv0 : Kept u₀ v0 := by
    unfold v0
    split
    · exact kept_sampleBalls h
    · exact h
  clear_value v0
  have hv1 : Kept u₀ v1 := kept_sampleBalls hv0
  clear_value v1
  refine Kept.ite ?_ hv1
  refine kept_indexNow ?_
  split
  · exact kept_quadNow hv1
  · exact hv1

theorem kept_execSwitchCodeChange {ch reps code ph s} (h : Kept u₀ s) : KeptO u₀ (execSwitchCodeChange ch reps code
    ph s) := by
  unfold execSwitchCodeChange
  refine KeptO.next ?_
  refine Kept.ite ?_ h
  extract_lets +onlyGivenNames v0
  have hv0 : Kept u₀ v0 := kept_sampleBalls h
  clear_value v0
  exact Kept.ite (kept_switchNow hv0) hv0

theorem kept_execObserverTick {ch s} (h : Kept u₀ s) : KeptO u₀ (execObserverTick ch s) := by
  unfold execObserverTick
  exact KeptO.next (Kept.ite (kept_memLatencyWake (kept_portsTick (kept_channelTick h))) h)

theorem kept_modeGo {req stopNow s} (h : Kept u₀ s) : Kept u₀ (modeGo req stopNow s) := by
  unfold modeGo
  extract_lets +onlyGivenNames v0 v1
  have hv0 : Kept u₀ v0 := kept_set h
  clear_value v0
  have hv1 : Kept u₀ v1 := Kept.ite (kept_set hv0) hv0
  clear_value v1
  refine Kept.ite (kept_setCause hv1) ?_
  extract_lets +onlyGivenNames v2
  clear_value v2
  refine Kept.ite (kept_raise (kept_set hv1)) ?_
  extract_lets -merge -underBinder +onlyGivenNames v3 v4
  clear_value v3
  have hv4 : Kept u₀ v4 := kept_startTransition (Kept.upd hv1)
  clear_value v4
  exact Kept.ite (kept_blockToDormant (Kept.upd hv4)) (Kept.ite (kept_blockStopPrinting hv4) hv4)

theorem kept_causeClear {mask s} (h : Kept u₀ s) : Kept u₀ (causeClear mask s) := by
  unfold causeClear
  exact kept_set h

theorem kept_enterMode {new s} (h : Kept u₀ s) : Kept u₀ (enterMode new s) := by
  unfold enterMode
  extract_lets -merge -underBinder +onlyGivenNames v0 v1 v2 v3 v4
  clear_value v0
  have hv1 : Kept u₀ v1 := Kept.ite (kept_set h) h
  clear_value v1
  have hv2 : Kept u₀ v2 := kept_set (kept_set (kept_set hv1))
  clear_value v2 v3
  have hv4 : Kept u₀ v4 := Kept.upd hv2
  clear_value v4
  exact kept_blockModeChanged (kept_raise hv4)

theorem kept_execModeGo {req stopNow owner s} (h : Kept u₀ s) : KeptO u₀ (execModeGo req stopNow owner s) := by
  unfold execModeGo
  exact KeptO.next (kept_gateReg (fun _ => kept_modeGo) h)

theorem kept_execModeChange {s} (h : Kept u₀ s) : KeptO u₀ (execModeChange s) := by
  unfold execModeChange
  exact KeptO.next (Kept.ite (kept_enterMode h) h)

theorem kept_execSafeHoldEntry {s} (h : Kept u₀ s) : KeptO u₀ (execSafeHoldEntry s) := by
  unfold execSafeHoldEntry
  refine KeptO.next ?_
  refine Kept.ite ?_ h
  extract_lets +onlyGivenNames v0
  have hv0 : Kept u₀ v0 := kept_blockSafeHold h
  clear_value v0
  exact Kept.upd hv0

theorem kept_execSafeHoldCauseClear {mask owner s} (h : Kept u₀ s) : KeptO u₀ (execSafeHoldCauseClear mask owner s)
    := by
  unfold execSafeHoldCauseClear
  exact KeptO.next (kept_gateReg (fun _ => kept_causeClear) h)

theorem kept_execAutoIdle {s} (h : Kept u₀ s) : KeptO u₀ (execAutoIdle s) := by
  unfold execAutoIdle
  exact KeptO.next (Kept.ite (kept_startTransition h) h)

theorem kept_execBisqueTimeout {s} (h : Kept u₀ s) : KeptO u₀ (execBisqueTimeout s) := by
  unfold execBisqueTimeout
  refine KeptO.next ?_
  refine Kept.ite ?_ h
  extract_lets -merge -underBinder +onlyGivenNames v0 v1
  clear_value v0
  have hv1 : Kept u₀ v1 := Kept.upd h
  clear_value v1
  exact kept_raise hv1

theorem kept_execFunctionReady {pg s} (h : Kept u₀ s) : KeptO u₀ (execFunctionReady pg s) := by
  unfold execFunctionReady
  exact KeptO.next (Kept.ite (kept_updBnd (kept_blockReady (kept_set h))) h)

theorem kept_powerUp {cause s} (h : Kept u₀ s) : Kept u₀ (powerUp cause s) := by
  unfold powerUp
  extract_lets +onlyGivenNames v0 v1
  have hv0 : Kept u₀ v0 := kept_blockPowerUp h
  clear_value v0
  have hv1 : Kept u₀ v1 := kept_set hv0
  clear_value v1
  exact kept_sagOutputs (Kept.upd hv1)

theorem kept_execPorstRelease {vddIoLost s} (h : Kept u₀ s) : KeptO u₀ (execPorstRelease vddIoLost s) := by
  unfold execPorstRelease
  exact KeptO.next (Kept.ite (kept_powerUp h) h)

theorem kept_execPorstAssert {s} (h : Kept u₀ s) : KeptO u₀ (execPorstAssert s) := by
  unfold execPorstAssert
  refine KeptO.next ?_
  refine Kept.ite h ?_
  extract_lets +onlyGivenNames v0
  have hv0 : Kept u₀ v0 := kept_blockPorst h
  clear_value v0
  exact Kept.upd hv0

theorem kept_execWakePin {s} (h : Kept u₀ s) : KeptO u₀ (execWakePin s) := by
  unfold execWakePin
  exact KeptO.next (Kept.ite (kept_powerUp h) h)

theorem kept_execWakeTimerExpiry {s} (h : Kept u₀ s) : KeptO u₀ (execWakeTimerExpiry s) := by
  unfold execWakeTimerExpiry
  exact KeptO.next (Kept.ite (kept_powerUp h) h)

theorem kept_execDormantEntry {s} (h : Kept u₀ s) : KeptO u₀ (execDormantEntry s) := by
  unfold execDormantEntry
  refine KeptO.next ?_
  refine Kept.ite ?_ h
  extract_lets +onlyGivenNames v0 v1 v2 v3
  clear_value v0
  have hv1 : Kept u₀ v1 := kept_blockPowerUp h
  clear_value v1
  have hv2 : Kept u₀ v2 := kept_set (kept_set hv1)
  clear_value v2 v3
  exact kept_sagOutputs (Kept.upd hv2)

theorem kept_execExternalPowerLoss {s} (h : Kept u₀ s) : KeptO u₀ (execExternalPowerLoss s) := by
  unfold execExternalPowerLoss
  extract_lets -merge -underBinder +onlyGivenNames v0 v1 v2
  have hv0 : Kept u₀ v0 := kept_storeTear h
  clear_value v0
  have hv1 : Kept u₀ v1 := kept_blockPowerUp (Kept.upd hv0)
  clear_value v1
  have hv2 : Kept u₀ v2 := Kept.forAll hv1 (fun _ _ h3 => Kept.forAll h3 (fun _ _ => kept_setI))
  clear_value v2
  exact KeptO.next (Kept.upd hv2)

theorem kept_markWritten {pg k s} (h : Kept u₀ s) : Kept u₀ (markWritten pg k s) := by
  unfold markWritten
  exact Kept.ite (kept_updBnd h) h

theorem kept_shadowWord {pg off v s} (h : Kept u₀ s) : Kept u₀ (shadowWord pg off v s) := by
  unfold shadowWord
  exact Kept.ite (kept_markWritten (kept_setApt h)) h

theorem kept_shadowReg {pg off word s} (h : Kept u₀ s) : Kept u₀ (shadowReg pg off word s) := by
  unfold shadowReg
  refine kept_markWritten ?_
  refine Kept.forAll h ?_
  intro _ _ h0
  split
  · extract_lets +onlyGivenNames v1
    clear_value v1
    exact Kept.ite h0 (kept_setShadow h0)
  · exact h0

end Sys2Proof.Machine
end

