-- ==== Sys2Proof/Laws/KeptPair.lean ====
section
/-! SUPPORT. The operations of the pair link, the camera pipeline, screening and register writes keep the time, the queue and the canonical form. -/

-- One declaration after another: the package is also checked as one text, where too many threads would start at once.
set_option Elab.async false

namespace Sys2Proof.Machine

variable {u₀ : State}

theorem kept_updPairRx {s k rx} (h : Kept u₀ s) : Kept u₀ (State.updPairRx s k rx) := by
  unfold State.updPairRx
  exact kept_updPair h

theorem kept_acknowledge {b s} (h : Kept u₀ s) : Kept u₀ (acknowledge b s) := by
  unfold acknowledge
  refine Kept.ite ?_ h
  extract_lets +onlyGivenNames v0
  have hv0 : Kept u₀ v0 := kept_set h
  clear_value v0
  exact kept_sendHeartbeat (kept_updPair hv0)

theorem kept_activeBeat {b s} (h : Kept u₀ s) : Kept u₀ (activeBeat b s) := by
  unfold activeBeat
  extract_lets +onlyGivenNames v0 v1
  clear_value v0 v1
  exact Kept.ite (kept_updPair (kept_set h)) (Kept.ite (kept_updPair (kept_set h)) (Kept.ite (kept_updPair h) h))

theorem kept_engineWrite {pg off data k s} (hk : ∀ x0, Kept u₀ x0 → Kept u₀ (k x0)) (h : Kept u₀ s) : Kept u₀
    (engineWrite pg off data k s) := by
  unfold engineWrite
  exact kept_gateReg (fun _ => hk _) h

theorem kept_joinStart {s} (h : Kept u₀ s) : Kept u₀ (joinStart s) := by
  unfold joinStart
  refine Kept.ite ?_ h
  extract_lets +onlyGivenNames v0 v1
  have hv0 : Kept u₀ v0 := kept_set (kept_setRole h)
  clear_value v0
  have hv1 : Kept u₀ v1 := kept_updPair (kept_set hv0)
  clear_value v1
  exact Kept.forAll (kept_pairSend hv1) (fun _ _ h2 => kept_engineWrite (fun _ => kept_controlEnable) h2)

theorem kept_autoJoin {s} (h : Kept u₀ s) : Kept u₀ (autoJoin s) := by
  unfold autoJoin
  extract_lets +onlyGivenNames v0
  clear_value v0
  exact Kept.ite (kept_joinStart h) h

theorem kept_pathUp {pin s} (h : Kept u₀ s) : Kept u₀ (pathUp pin s) := by
  unfold pathUp
  extract_lets +onlyGivenNames v0 v1 v2
  clear_value v0
  have hv1 : Kept u₀ v1 := kept_set h
  clear_value v1
  have hv2 : Kept u₀ v2 := kept_updPair hv1
  clear_value v2
  exact Kept.ite (kept_raise hv2) hv2

theorem kept_joinPort {p n start s} (h : Kept u₀ s) : Kept u₀ (joinPort p n start s) := by
  unfold joinPort
  extract_lets -merge -underBinder +onlyGivenNames v0 v1 v2 v3 v4 v5
  clear_value v0 v1 v2
  have hv3 : ∀ x0 x1 x2, Kept u₀ x2 → Kept u₀ (v3 x0 x1 x2) := by
    unfold v3
    intro _ _ _ h6
    extract_lets +onlyGivenNames v7
    have hv7 : Kept u₀ v7 := kept_set h6
    clear_value v7
    exact kept_engineWrite (fun _ => kept_set) h6
  clear_value v3
  have hv4 : Kept u₀ v4 := hv3 _ _ _ (hv3 _ _ _ (hv3 _ _ _ h))
  clear_value v4
  have hv5 : Kept u₀ v5 := hv3 _ _ _ (hv3 _ _ _ (hv3 _ _ _ hv4))
  clear_value v5
  exact kept_engineWrite (fun _ => kept_controlEnable) hv5

theorem kept_joinRestart {s} (h : Kept u₀ s) : Kept u₀ (joinRestart s) := by
  unfold joinRestart
  split
  · refine Kept.ite ?_ h
    extract_lets +onlyGivenNames v0 v1 v2 v3 v4 v5
    clear_value v0
    have hv1 : Kept u₀ v1 := by
      unfold v1
      refine Kept.forAll h ?_
      intro _ _ h6
      split
      · exact kept_engineWrite (fun _ => kept_commitWrite) h6
      · exact h6
    clear_value v1
    have hv2 : Kept u₀ v2 := Kept.forAll hv1 (fun _ _ => kept_joinPort)
    clear_value v2 v3
    have hv4 : Kept u₀ v4 := kept_set (kept_set hv2)
    clear_value v4
    have hv5 : Kept u₀ v5 := kept_updPair hv4
    clear_value v5
    exact kept_joinReady (kept_raise hv5)
  · exact h

theorem kept_becomeStandby {s} (h : Kept u₀ s) : Kept u₀ (becomeStandby s) := by
  unfold becomeStandby
  extract_lets +onlyGivenNames v0
  have hv0 : Kept u₀ v0 := kept_updPair (kept_setRole h)
  clear_value v0
  exact Kept.ite (kept_raise (kept_set hv0)) hv0

theorem kept_beatRole {b s} (h : Kept u₀ s) : Kept u₀ (beatRole b s) := by
  unfold beatRole
  refine Kept.ite h ?_
  refine Kept.ite (Kept.ite (kept_fence h) (Kept.ite (kept_fence h) (kept_activeBeat h))) ?_
  extract_lets +onlyGivenNames v0 v1 v2
  have hv0 : Kept u₀ v0 := kept_joinRestart h
  clear_value v0
  have hv1 : Kept u₀ v1 := Kept.ite (kept_autoJoin (kept_updPair hv0)) hv0
  clear_value v1
  have hv2 : Kept u₀ v2 := Kept.ite (kept_becomeStandby hv1) hv1
  clear_value v2
  exact kept_acknowledge hv2

theorem kept_cfgCheck {cfg s} (h : Kept u₀ s) : Kept u₀ (cfgCheck cfg s) := by
  unfold cfgCheck
  extract_lets +onlyGivenNames v0 v1
  have hv0 : Kept u₀ v0 := by
    unfold v0
    split
    · exact kept_set h
    · exact h
  clear_value v0 v1
  refine Kept.ite ?_ ?_
  · extract_lets +onlyGivenNames v2 v3 v4
    clear_value v2 v3
    have hv4 : Kept u₀ v4 := kept_updPair hv0
    clear_value v4
    exact Kept.ite (kept_set hv4) hv4
  · extract_lets +onlyGivenNames v5
    have hv5 : Kept u₀ v5 := kept_updPair hv0
    clear_value v5
    exact Kept.ite (kept_joinFail (kept_raise (kept_set hv5))) hv5

theorem kept_mirrorLate {region target noLock s} (h : Kept u₀ s) : Kept u₀ (mirrorLate region target noLock s) := by
  unfold mirrorLate
  exact kept_raise (kept_sat h)

theorem kept_mirrorWords {m s} (h : Kept u₀ s) : Kept u₀ (mirrorWords m s) := by
  unfold mirrorWords
  refine Kept.forAll h ?_
  intro _ _ h0
  extract_lets +onlyGivenNames v1
  clear_value v1
  exact Kept.ite (kept_shadowReg h0) (kept_shadowWord h0)

theorem kept_mirrorApply {m s} (h : Kept u₀ s) : Kept u₀ (mirrorApply m s) := by
  unfold mirrorApply
  extract_lets +onlyGivenNames v0
  clear_value v0
  refine Kept.ite ?_ (kept_mirrorWords h)
  extract_lets +onlyGivenNames v1 v2 v3
  clear_value v1
  have hv2 : Kept u₀ v2 := kept_commitWrite h
  clear_value v2
  have hv3 : Kept u₀ v3 := by
    unfold v3
    split
    · exact Kept.ite (kept_lockRelease hv2) hv2
    · exact hv2
  clear_value v3
  exact Kept.ite (kept_mirrorLate hv3) hv3

theorem kept_mirrorGo {n s} (h : Kept u₀ s) : Kept u₀ (mirrorGo n s) := by
  induction n generalizing s with
  | zero => exact h
  | succ n ih =>
    unfold mirrorGo
    split
    · exact h
    · extract_lets +onlyGivenNames v0
      clear_value v0
      refine Kept.ite h ?_
      extract_lets +onlyGivenNames v1 v2
      have hv1 : Kept u₀ v1 := by
        unfold v1
        split
        · exact kept_lockAcquire h
        · exact h
      clear_value v1 v2
      exact Kept.ite (ih (kept_mirrorApply (kept_updPair hv1))) hv1

theorem kept_mirrorTry {s} (h : Kept u₀ s) : Kept u₀ (mirrorTry s) := by
  unfold mirrorTry
  exact Kept.ite (kept_mirrorGo h) h

theorem kept_beat {b s} (h : Kept u₀ s) : Kept u₀ (beat b s) := by
  unfold beat
  extract_lets +onlyGivenNames v0 v1 v2 v3
  have hv0 : Kept u₀ v0 := kept_updPair (kept_set (kept_pathUp h))
  clear_value v0
  have hv1 : Kept u₀ v1 := Kept.ite (kept_updPair hv0) hv0
  clear_value v1
  have hv2 : Kept u₀ v2 := kept_beatRole (kept_cfgCheck hv1)
  clear_value v2
  have hv3 : Kept u₀ v3 := Kept.ite (kept_updPair hv2) hv2
  clear_value v3
  exact kept_mirrorTry hv3

theorem kept_beatMsg {m s} (h : Kept u₀ s) : Kept u₀ (beatMsg m s) := by
  unfold beatMsg
  extract_lets +onlyGivenNames v0
  clear_value v0
  exact kept_beat h

theorem kept_pairCtrl {release claim join s} (h : Kept u₀ s) : Kept u₀ (pairCtrl release claim join s) := by
  unfold pairCtrl
  refine Kept.ite h ?_
  extract_lets +onlyGivenNames v0 v1
  have hv0 : Kept u₀ v0 := Kept.ite (kept_fence h) h
  clear_value v0
  have hv1 : Kept u₀ v1 := Kept.ite (kept_updPair hv0) hv0
  clear_value v1
  exact Kept.ite (kept_joinStart hv1) hv1

theorem kept_pairLockSet {k on s} (h : Kept u₀ s) : Kept u₀ (pairLockSet k on s) := by
  unfold pairLockSet
  extract_lets +onlyGivenNames v0
  clear_value v0
  exact kept_set h

theorem kept_lineCrcMsg {port folio line crc s} (h : Kept u₀ s) : Kept u₀ (lineCrcMsg port folio line crc s) := by
  unfold lineCrcMsg
  extract_lets +onlyGivenNames v0
  have hv0 : Kept u₀ v0 := kept_updPair h
  clear_value v0
  exact Kept.ite (kept_lineCrcIn hv0) hv0

theorem kept_offsetIn {ch seq k s} (h : Kept u₀ s) : Kept u₀ (offsetIn ch seq k s) := by
  unfold offsetIn
  extract_lets +onlyGivenNames v0 v1 v2 v3
  clear_value v0
  have hv1 : ∀ x0 x1, Kept u₀ x1 → Kept u₀ (v1 x0 x1) := by
    unfold v1
    exact fun _ _ => kept_updPair
  clear_value v1 v2
  have hv3 : ∀ x0, Kept u₀ x0 → Kept u₀ (v3 x0) := by
    unfold v3
    exact fun _ => kept_set2
  clear_value v3
  exact Kept.ite (hv1 _ _ (hv3 _ h)) (Kept.ite (hv1 _ _ h) (Kept.ite (kept_raise (hv1 _ _ (hv3 _ h))) (hv1 _ _ h)))

theorem kept_posLatchMsg {seq valid pos s} (h : Kept u₀ s) : Kept u₀ (posLatchMsg seq valid pos s) := by
  unfold posLatchMsg
  refine Kept.ite ?_ h
  split
  · refine Kept.forAll h ?_
    intro _ _ h0
    refine Kept.ite ?_ h0
    split
    · exact kept_offsetIn h0
    · exact h0
  · exact h

theorem kept_mirrorIn {m s} (h : Kept u₀ s) : Kept u₀ (mirrorIn m s) := by
  unfold mirrorIn
  exact Kept.ite (kept_mirrorTry (kept_updPair h)) h

theorem kept_snapSend {s} (h : Kept u₀ s) : Kept u₀ (snapSend s) := by
  unfold snapSend
  refine Kept.ite ?_ h
  extract_lets +onlyGivenNames v0 v1 v2 v3 v4 v5
  clear_value v0 v1 v2
  have hv3 : Kept u₀ v3 := kept_updPair (kept_set (kept_set h))
  clear_value v3
  have hv4 : Kept u₀ v4 := Kept.forAll hv3 (fun _ _ => kept_pairSend)
  clear_value v4
  have hv5 : Kept u₀ v5 := Kept.forAll hv4 (fun _ _ => kept_pairSend)
  clear_value v5
  exact kept_pairSend hv5

theorem kept_snapStore {object off v s} (h : Kept u₀ s) : Kept u₀ (snapStore object off v s) := by
  unfold snapStore
  dsimp only
  exact Kept.ite (Kept.ite (kept_gate (fun _ => kept_shadowReg) h) h) (Kept.ite (Kept.ite (kept_gate (fun _ =>
      kept_shadowWord) h) h)
    (Kept.ite (Kept.ite (kept_gate (fun _ => kept_shadowWord) h) h) (Kept.ite (Kept.ite (kept_setApt h) h)
      (Kept.ite (Kept.ite (kept_updTrkPort h) h) h))))

theorem kept_snapData {object off data s} (h : Kept u₀ s) : Kept u₀ (snapData object off data s) := by
  unfold snapData
  split
  · refine Kept.ite ?_ h
    extract_lets +onlyGivenNames v0 v1
    have hv0 : Kept u₀ v0 := Kept.forAll h (fun _ _ => kept_snapStore)
    clear_value v0
    have hv1 : Kept u₀ v1 := kept_updPair hv0
    clear_value v1
    exact kept_set hv1
  · exact h

theorem kept_joinPortMsg {port folio start s} (h : Kept u₀ s) : Kept u₀ (joinPortMsg port folio start s) := by
  unfold joinPortMsg
  exact Kept.ite (kept_updPair h) h

theorem kept_snapEnd {crc s} (h : Kept u₀ s) : Kept u₀ (snapEnd crc s) := by
  unfold snapEnd
  split
  · exact Kept.ite h (Kept.ite (kept_joinRestart (kept_updPair h)) (kept_joinFail h))
  · exact h

theorem kept_pairMsg {m s} (h : Kept u₀ s) : Kept u₀ (pairMsg m s) := by
  unfold pairMsg
  split
  · exact kept_beatMsg h
  · exact kept_lineCrcMsg h
  · exact kept_posLatchMsg h
  · extract_lets +onlyGivenNames v0
    clear_value v0
    exact kept_mirrorIn h
  · exact kept_mirrorIn h
  · exact kept_snapSend h
  · exact kept_snapData h
  · exact Kept.ite (kept_joinPortMsg h) h
  · exact kept_snapEnd h

theorem kept_pairBlock {k bseq gap line s} (h : Kept u₀ s) : Kept u₀ (pairBlock k bseq gap line s) := by
  unfold pairBlock
  refine Kept.ite ?_ h
  extract_lets -merge -underBinder +onlyGivenNames v0 v1 v2 v3 v4
  clear_value v0
  have hv1 : Kept u₀ v1 := kept_updPairRx h
  clear_value v1
  have hv2 : Kept u₀ v2 := Kept.ite (kept_pairLockSet hv1) hv1
  clear_value v2
  have hv3 : Kept u₀ v3 := Kept.ite (kept_satI hv2) hv2
  clear_value v3
  have hv4 : Kept u₀ v4 := by
    unfold v4
    split
    · extract_lets +onlyGivenNames v5 v6
      clear_value v5
      have hv6 : Kept u₀ v6 := Kept.forAll (kept_updPairRx hv3) (fun _ _ => kept_pairMsg)
      clear_value v6
      exact Kept.ite (kept_sat hv6) hv6
    · exact hv3
  clear_value v4
  exact Kept.ite (kept_pairLockSet hv4) hv4

theorem kept_pairMiss {k s} (h : Kept u₀ s) : Kept u₀ (pairMiss k s) := by
  unfold pairMiss
  refine Kept.ite ?_ h
  extract_lets +onlyGivenNames v0 v1
  clear_value v0
  have hv1 : Kept u₀ v1 := kept_updPairRx h
  clear_value v1
  exact Kept.ite (kept_pairLockSet hv1) hv1

theorem kept_execBlockReceived {lane marker gap bits s} (h : Kept u₀ s) :
    KeptO u₀ (execBlockReceived lane marker gap bits s) := by
  unfold execBlockReceived
  refine KeptO.next ?_
  split
  · exact Kept.ite (Kept.ite h (kept_laneBlock h)) (Kept.ite (kept_pairBlock h) h)
  · exact Kept.ite (Kept.ite h (kept_laneMiss h)) (Kept.ite (kept_pairMiss h) h)

theorem kept_execMarkerMiss {lane s} (h : Kept u₀ s) : KeptO u₀ (execMarkerMiss lane s) := by
  unfold execMarkerMiss
  exact KeptO.next (Kept.ite (kept_laneMiss h) (Kept.ite (kept_pairMiss h) h))

theorem kept_execHeartbeatSend {s} (h : Kept u₀ s) : KeptO u₀ (execHeartbeatSend s) := by
  unfold execHeartbeatSend
  exact KeptO.next (Kept.ite (kept_sendHeartbeat (kept_updPair h)) h)

theorem kept_execRenewal {s} (h : Kept u₀ s) : KeptO u₀ (execRenewal s) := by
  unfold execRenewal
  refine KeptO.next ?_
  refine Kept.ite ?_ h
  extract_lets +onlyGivenNames v0 v1 v2
  clear_value v0
  have hv1 : Kept u₀ v1 := Kept.ite h (kept_raise h)
  clear_value v1
  have hv2 : Kept u₀ v2 := kept_updPair (kept_set hv1)
  clear_value v2
  exact kept_sendHeartbeat hv2

theorem kept_execHeartbeatReceived {lane body s} (h : Kept u₀ s) : KeptO u₀ (execHeartbeatReceived lane body s) := by
  unfold execHeartbeatReceived
  exact KeptO.next (Kept.ite (kept_beatMsg h) h)

theorem kept_execHbPinFrameReceived {frame s} (h : Kept u₀ s) : KeptO u₀ (execHbPinFrameReceived frame s) := by
  unfold execHbPinFrameReceived
  extract_lets +onlyGivenNames v0
  clear_value v0
  refine KeptO.next ?_
  refine Kept.ite ?_ h
  extract_lets +onlyGivenNames v1 v2
  clear_value v1
  have hv2 : Kept u₀ v2 := kept_updPair h
  clear_value v2
  exact kept_beat hv2

theorem kept_execHbPathTimeout {pin s} (h : Kept u₀ s) : KeptO u₀ (execHbPathTimeout pin s) := by
  unfold execHbPathTimeout
  extract_lets +onlyGivenNames v0
  clear_value v0
  refine KeptO.next ?_
  refine Kept.ite ?_ h
  extract_lets +onlyGivenNames v1 v2
  have hv1 : Kept u₀ v1 := kept_updPair (kept_set h)
  clear_value v1
  have hv2 : Kept u₀ v2 := kept_raise hv1
  clear_value v2
  exact Kept.ite (kept_joinFail hv2) hv2

theorem kept_execLeaseExpiry {s} (h : Kept u₀ s) : KeptO u₀ (execLeaseExpiry s) := by
  unfold execLeaseExpiry
  exact KeptO.next (Kept.ite (kept_fence h) h)

theorem kept_takeLease {how s} (h : Kept u₀ s) : Kept u₀ (takeLease how s) := by
  unfold takeLease
  extract_lets +onlyGivenNames v0 v1 v2
  clear_value v0
  have hv1 : Kept u₀ v1 := kept_set (kept_set (kept_setRole h))
  clear_value v1
  have hv2 : Kept u₀ v2 := kept_updPair hv1
  clear_value v2
  exact kept_raise (kept_wrap hv2)

theorem kept_execTakeoverTest {s} (h : Kept u₀ s) : KeptO u₀ (execTakeoverTest s) := by
  unfold execTakeoverTest
  refine KeptO.next ?_
  refine Kept.ite h ?_
  refine Kept.ite (Kept.ite (kept_takeLease h) h) ?_
  refine Kept.ite ?_ h
  extract_lets +onlyGivenNames v0
  clear_value v0
  exact Kept.ite (kept_takeLease h) h

theorem kept_execPairRelease {claim owner s} (h : Kept u₀ s) : KeptO u₀ (execPairRelease claim owner s) := by
  unfold execPairRelease
  exact KeptO.next (kept_gateReg (fun _ => kept_pairCtrl) h)

theorem kept_execPairClaim {owner s} (h : Kept u₀ s) : KeptO u₀ (execPairClaim owner s) := by
  unfold execPairClaim
  exact KeptO.next (kept_gateReg (fun _ => kept_pairCtrl) h)

theorem kept_execPairJoin {owner s} (h : Kept u₀ s) : KeptO u₀ (execPairJoin owner s) := by
  unfold execPairJoin
  exact KeptO.next (kept_gateReg (fun _ => kept_pairCtrl) h)

theorem kept_execLineCrcReceived {port folio line crc s} (h : Kept u₀ s) : KeptO u₀ (execLineCrcReceived port folio
    line crc s) := by
  unfold execLineCrcReceived
  exact KeptO.next (Kept.ite (kept_lineCrcMsg h) h)

theorem kept_execPosLatchReceived {seq valid pos s} (h : Kept u₀ s) : KeptO u₀ (execPosLatchReceived seq valid pos
    s) := by
  unfold execPosLatchReceived
  exact KeptO.next (Kept.ite (kept_posLatchMsg h) h)

theorem kept_execMirrorWriteReceived {region reg target off words s} (h : Kept u₀ s) : KeptO u₀
    (execMirrorWriteReceived region reg target off words s) := by
  unfold execMirrorWriteReceived
  exact KeptO.next (Kept.ite (kept_mirrorIn h) h)

theorem kept_execMirrorCommitReceived {region target s} (h : Kept u₀ s) : KeptO u₀ (execMirrorCommitReceived region
    target s) := by
  unfold execMirrorCommitReceived
  exact KeptO.next (Kept.ite (kept_mirrorIn h) h)

theorem kept_execMirrorLockTimeout {region s} (h : Kept u₀ s) : KeptO u₀ (execMirrorLockTimeout region s) := by
  unfold execMirrorLockTimeout
  extract_lets +onlyGivenNames v0
  have hv0 : Kept u₀ v0 := kept_mirrorTry h
  clear_value v0
  refine KeptO.next ?_
  split
  · exact hv0
  · extract_lets +onlyGivenNames v1
    clear_value v1
    exact Kept.ite (kept_mirrorTry (kept_mirrorLate (kept_updPair hv0))) hv0

theorem kept_execSnapReqReceived {s} (h : Kept u₀ s) : KeptO u₀ (execSnapReqReceived s) := by
  unfold execSnapReqReceived
  exact KeptO.next (Kept.ite (kept_snapSend h) h)

theorem kept_execSnapDataReceived {object off data s} (h : Kept u₀ s) : KeptO u₀ (execSnapDataReceived object off
    data s) := by
  unfold execSnapDataReceived
  exact KeptO.next (Kept.ite (kept_snapData h) h)

theorem kept_execJoinPortReceived {port folio start s} (h : Kept u₀ s) : KeptO u₀ (execJoinPortReceived port folio
    start s) := by
  unfold execJoinPortReceived
  exact KeptO.next (Kept.ite (kept_joinPortMsg h) h)

theorem kept_execSnapEndReceived {objects crc s} (h : Kept u₀ s) : KeptO u₀ (execSnapEndReceived objects crc s) := by
  unfold execSnapEndReceived
  exact KeptO.next (Kept.ite (kept_snapEnd h) h)

theorem kept_execSnapTimeout {s} (h : Kept u₀ s) : KeptO u₀ (execSnapTimeout s) := by
  unfold execSnapTimeout
  refine KeptO.next ?_
  split
  · exact Kept.ite (kept_joinFail h) h
  · exact h

theorem kept_execRejoinRetry {s} (h : Kept u₀ s) : KeptO u₀ (execRejoinRetry s) := by
  unfold execRejoinRetry
  exact KeptO.next (Kept.ite (kept_autoJoin h) h)

theorem kept_execPairPllLockLoss {s} (h : Kept u₀ s) : KeptO u₀ (execPairPllLockLoss s) := by
  unfold execPairPllLockLoss
  exact KeptO.next (kept_updPair (kept_set h))

theorem kept_execPairPllLock {s} (h : Kept u₀ s) : KeptO u₀ (execPairPllLock s) := by
  unfold execPairPllLock
  exact KeptO.next (Kept.ite (kept_set h) h)

theorem kept_pipeError {st ser n bad s} (h : Kept u₀ s) : Kept u₀ (pipeError st ser n bad s) := by
  unfold pipeError
  extract_lets +onlyGivenNames v0 v1
  have hv0 : Kept u₀ v0 := kept_sat (kept_sramUe h)
  clear_value v0 v1
  refine Kept.ite hv0 ?_
  extract_lets +onlyGivenNames v2 v3
  have hv2 : Kept u₀ v2.2 := kept_free hv0
  clear_value v2
  have hv3 : Kept u₀ v3 := Kept.ite hv2 hv0
  clear_value v3
  exact kept_raise (kept_updFrame hv3)

theorem kept_tapWrite {t full r s} (h : Kept u₀ s) : Kept u₀ (tapWrite t full r s) := by
  unfold tapWrite
  extract_lets +onlyGivenNames v0
  clear_value v0
  refine Kept.ite ?_ ?_
  · extract_lets +onlyGivenNames v1
    have hv1 : Kept u₀ v1 := kept_satI h
    clear_value v1
    exact kept_raise hv1
  · extract_lets +onlyGivenNames v2 v3 v4
    clear_value v2 v3
    have hv4 : Kept u₀ v4 := kept_sdramWrite h
    clear_value v4
    exact kept_wrapI (kept_setI hv4)

theorem kept_pipelineLine {st ue full s} (h : Kept u₀ s) : Kept u₀ (pipelineLine st ue full s) := by
  unfold pipelineLine
  split
  · exact h
  · extract_lets +onlyGivenNames v0 v1 v2 v3 v4 v5 v6 v7 v8 v9 v10
    have hv0 : Kept u₀ v0 := kept_pipeAs h
    clear_value v0 v1 v2 v3 v4 v5
    have hv6 : Kept u₀ v6 := kept_wrapI (kept_updSlot h)
    clear_value v6
    have hv7 : Kept u₀ v7 := by
      unfold v7
      split
      · exact kept_pipeError hv6
      · exact hv6
    clear_value v7
    have hv8 : Kept u₀ v8 := kept_updFrame hv7
    clear_value v8
    have hv9 : Kept u₀ v9 := by
      unfold v9
      refine Kept.forAll hv8 ?_
      intro _ _ h11
      refine Kept.ite ?_ h11
      split
      · exact kept_tapWrite h11
      · exact h11
    clear_value v9
    have hv10 : Kept u₀ v10 := Kept.ite (kept_updPipe hv9) hv9
    clear_value v10
    exact kept_pipePrune (kept_settle hv10)

theorem kept_execPipelineLine {st ue full s} (h : Kept u₀ s) : KeptO u₀ (execPipelineLine st ue full s) := by
  unfold execPipelineLine
  exact KeptO.next (Kept.ite (kept_pipelineLine h) h)

theorem kept_slotWrite {d slot off k s} (hk : ∀ x0, Kept u₀ x0 → Kept u₀ (k x0)) (h : Kept u₀ s) : Kept u₀
    (slotWrite d slot off k s) := by
  unfold slotWrite
  split
  · exact kept_raise h
  · exact hk _ h

theorem kept_thresholdWord {d off v s} (h : Kept u₀ s) : Kept u₀ (thresholdWord d off v s) := by
  unfold thresholdWord
  extract_lets +onlyGivenNames v0
  clear_value v0
  refine kept_slotWrite ?_ h
  intro _ h1
  extract_lets +onlyGivenNames v2 v3
  clear_value v2
  have hv3 : ∀ x0 x1, Kept u₀ x1 → Kept u₀ (v3 x0 x1) := by
    unfold v3
    exact fun _ _ => kept_updRegn
  clear_value v3
  exact hv3 _ _ (hv3 _ _ (kept_setApt h1))

theorem kept_noteBad {r e s} (h : Kept u₀ s) : Kept u₀ (noteBad r e s) := by
  unfold noteBad
  extract_lets +onlyGivenNames v0
  have hv0 : ∀ x0 x1, Kept u₀ x1 → Kept u₀ (v0 x0 x1) := by
    unfold v0
    exact fun _ _ h1 => Kept.ite h1 (kept_updRegn h1)
  clear_value v0
  exact Kept.ite (hv0 _ _ (hv0 _ _ h)) (hv0 _ _ h)

theorem kept_tableError {p n e s} (h : Kept u₀ s) : Kept u₀ (tableError p n e s) := by
  unfold tableError
  extract_lets +onlyGivenNames v0
  clear_value v0
  refine Kept.ite h ?_
  extract_lets +onlyGivenNames v1 v2 v3 v4
  have hv1 : Kept u₀ v1 := kept_updRegn h
  clear_value v1
  have hv2 : Kept u₀ v2 := kept_sat (kept_sramUe (kept_markDirty hv1))
  clear_value v2
  have hv3 : Kept u₀ v3 := kept_asOf h
  clear_value v3 v4
  exact kept_raise hv2

theorem kept_screen {p ue bufErr s} (h : Kept u₀ s) : Kept u₀ (screen p ue bufErr s) := by
  unfold screen
  extract_lets +onlyGivenNames v0
  clear_value v0
  split
  · exact h
  · extract_lets +onlyGivenNames v1
    have hv1 : Kept u₀ v1 := kept_wrap (kept_updPort h)
    clear_value v1
    refine Kept.ite (kept_lineComplete hv1) ?_
    extract_lets -merge -underBinder +onlyGivenNames v2 v3 v4 v5 v6 v7 v8
    clear_value v2 v3 v4 v5
    have hv6 : Kept u₀ v6 := by
      unfold v6
      split
      · exact kept_noteBad hv1
      · exact hv1
    clear_value v6 v7 v8
    exact kept_lineComplete (Kept.forAll hv6 (fun _ _ => kept_tableError))

theorem kept_execLineScreen {r reads s} (h : Kept u₀ s) : KeptO u₀ (execLineScreen r reads s) := by
  unfold execLineScreen
  refine KeptO.next ?_
  refine Kept.ite ?_ h
  split
  · exact kept_screen h
  · exact h

theorem kept_execThresholdWrite {pg apt off data owner s} (h : Kept u₀ s) : KeptO u₀ (execThresholdWrite pg apt off
    data owner s) := by
  unfold execThresholdWrite
  extract_lets +onlyGivenNames v0 v1
  clear_value v0 v1
  refine KeptO.next ?_
  refine Kept.ite ?_ h
  refine kept_gate ?_ h
  intro _ h2
  refine Kept.ite h2 ?_
  refine Kept.ite (Kept.ite (kept_thresholdWord h2) h2) ?_
  refine Kept.ite ?_ h2
  extract_lets +onlyGivenNames v3
  clear_value v3
  exact kept_slotWrite (fun _ h4 => kept_setI (kept_setI h4)) h2

theorem kept_unlessFrozen {pg off apt k s} (hk : ∀ x0, Kept u₀ x0 → Kept u₀ (k x0)) (h : Kept u₀ s) : Kept u₀
    (unlessFrozen pg off apt k s) := by
  unfold unlessFrozen
  exact Kept.ite (kept_raise h) (hk _ h)

theorem kept_mirrored {pg off data owner reg s} (h : Kept u₀ s) : Kept u₀ (mirrored pg off data owner reg s) := by
  unfold mirrored
  extract_lets +onlyGivenNames v0
  clear_value v0
  exact Kept.ite (kept_mirrorWrite h) h

theorem kept_aptWrite {pg off data owner s} (h : Kept u₀ s) : Kept u₀ (aptWrite pg off data owner s) := by
  unfold aptWrite
  extract_lets +onlyGivenNames v0
  clear_value v0
  split
  · exact Kept.ite (kept_unlessFrozen (fun _ h1 => kept_mirrored (kept_shadowWord h1)) h) (Kept.ite (kept_raise h) h)
  · exact Kept.ite h (Kept.ite (kept_thresholdWord h) (Kept.ite (kept_calWrite h) (kept_setApt h)))
  · exact Kept.ite h (Kept.ite (Kept.ite h (kept_writeWhileRunning h)) (kept_setApt h))
  · exact h

theorem kept_writeField {pg data held e s} (h : Kept u₀ s) : Kept u₀ (writeField pg data held e s) := by
  unfold writeField
  extract_lets +onlyGivenNames v0 v1
  clear_value v0 v1
  refine Kept.ite h ?_
  split
  · exact Kept.ite h (kept_setI h)
  · exact Kept.ite h (kept_setI h)
  · exact kept_setI h
  · exact h

theorem kept_plainBut {keep pg off data s} (h : Kept u₀ s) : Kept u₀ (plainBut keep pg off data s) := by
  unfold plainBut
  extract_lets +onlyGivenNames v0 v1
  clear_value v0
  have hv1 : Kept u₀ v1 := Kept.forAll h (fun _ _ => kept_writeField)
  clear_value v1
  exact Kept.ite (kept_writeWhileRunning hv1) hv1

theorem kept_plain {pg off data s} (h : Kept u₀ s) : Kept u₀ (plain pg off data s) := by
  unfold plain
  exact kept_plainBut h

theorem kept_writeMode {off data s} (h : Kept u₀ s) : Kept u₀ (writeMode off data s) := by
  unfold writeMode
  extract_lets +onlyGivenNames v0 v1
  clear_value v0 v1
  exact Kept.ite (kept_modeGo h) (Kept.ite (kept_causeClear h) (Kept.ite (kept_writeWhileRunning h) (Kept.ite
      (kept_groupWrite h) (kept_plain h))))

theorem kept_writeLock {off data owner s} (h : Kept u₀ s) : Kept u₀ (writeLock off data owner s) := by
  unfold writeLock
  refine Kept.ite ?_ (kept_plain h)
  extract_lets +onlyGivenNames v0 v1 v2
  clear_value v0
  have hv1 : Kept u₀ v1 := Kept.ite (kept_lockAcquire h) h
  clear_value v1
  have hv2 : Kept u₀ v2 := Kept.ite (kept_lockClearBroken hv1) hv1
  clear_value v2
  exact Kept.ite (kept_lockRelease hv2) hv2

theorem kept_writePos {ch off data s} (h : Kept u₀ s) : Kept u₀ (writePos ch off data s) := by
  unfold writePos
  extract_lets +onlyGivenNames v0
  clear_value v0
  exact Kept.ite (kept_chPreset h) (Kept.ite (Kept.ite (kept_mismatchClear h) h) (kept_plain h))

theorem kept_writeDiv {off data s} (h : Kept u₀ s) : Kept u₀ (writeDiv off data s) := by
  unfold writeDiv
  extract_lets +onlyGivenNames v0
  clear_value v0
  refine Kept.ite (kept_plainBut h) ?_
  extract_lets +onlyGivenNames v1
  have hv1 : Kept u₀ v1 := kept_plain h
  clear_value v1
  exact Kept.ite (kept_divSync hv1) hv1

theorem kept_writePort {p off data s} (h : Kept u₀ s) : Kept u₀ (writePort p off data s) := by
  unfold writePort
  extract_lets +onlyGivenNames v0
  have hv0 : Kept u₀ v0 := kept_plain h
  clear_value v0
  exact Kept.ite (kept_urgency hv0) (Kept.ite (kept_portNext hv0) hv0)

theorem kept_writeLaneCfg {p off data s} (h : Kept u₀ s) : Kept u₀ (writeLaneCfg p off data s) := by
  unfold writeLaneCfg
  extract_lets +onlyGivenNames v0
  clear_value v0
  refine Kept.ite (kept_writeWhileRunning h) ?_
  extract_lets +onlyGivenNames v1 v2 v3
  have hv1 : Kept u₀ v1 := kept_laneChange (fun _ => kept_plain) h
  clear_value v1 v2 v3
  exact Kept.ite (kept_updLane (kept_laneSet hv1)) (Kept.ite (kept_updLane hv1) hv1)

theorem kept_writeLane {c off data s} (h : Kept u₀ s) : Kept u₀ (writeLane c off data s) := by
  unfold writeLane
  extract_lets +onlyGivenNames v0 v1 v2
  clear_value v0 v1 v2
  refine Kept.ite (kept_plain h) ?_
  refine Kept.ite (kept_writeLaneCfg h) ?_
  refine Kept.ite ?_ (Kept.ite (Kept.ite (kept_bcfgSend h) h) (kept_plain h))
  extract_lets +onlyGivenNames v3
  have hv3 : Kept u₀ v3 := kept_plain h
  clear_value v3
  exact Kept.ite (kept_download hv3) hv3

theorem kept_writeIngest {off data s} (h : Kept u₀ s) : Kept u₀ (writeIngest off data s) := by
  unfold writeIngest
  exact Kept.ite (Kept.ite (kept_cacheEvict h) h) (kept_refreshSpace (kept_plain h))

theorem kept_writeJob {off data s} (h : Kept u₀ s) : Kept u₀ (writeJob off data s) := by
  unfold writeJob
  refine Kept.ite ?_ (kept_plain h)
  extract_lets +onlyGivenNames v0
  clear_value v0
  exact Kept.ite (Kept.ite (kept_jobAbort h) h) (Kept.ite (kept_jobStart h) h)

theorem kept_writeScr {pg off data s} (h : Kept u₀ s) : Kept u₀ (writeScr pg off data s) := by
  unfold writeScr
  exact Kept.ite (kept_slotWrite (fun _ => kept_plain) h) (kept_plain h)

theorem kept_writeCam {pg off data s} (h : Kept u₀ s) : Kept u₀ (writeCam pg off data s) := by
  unfold writeCam
  extract_lets +onlyGivenNames v0
  clear_value v0
  refine Kept.ite (Kept.ite (kept_cciDirect h) h) ?_
  refine Kept.ite ?_ (kept_plain h)
  split
  · extract_lets +onlyGivenNames v1
    have hv1 : Kept u₀ v1 := kept_plainBut h
    clear_value v1
    exact Kept.ite (kept_slotEnable hv1) (kept_slotDisable hv1)
  · exact h

theorem kept_writeTrk {off data s} (h : Kept u₀ s) : Kept u₀ (writeTrk off data s) := by
  unfold writeTrk
  exact Kept.ite (kept_updateReq h) (Kept.ite (kept_updateReq h) (kept_plain h))

theorem kept_writeCal {off data s} (h : Kept u₀ s) : Kept u₀ (writeCal off data s) := by
  unfold writeCal
  exact Kept.ite (kept_calCtrl h) (kept_plain h)

theorem kept_writeChan {ch off data s} (h : Kept u₀ s) : Kept u₀ (writeChan ch off data s) := by
  unfold writeChan
  extract_lets +onlyGivenNames v0 v1
  clear_value v0
  have hv1 : Kept u₀ v1 := kept_plain h
  clear_value v1
  exact Kept.ite (kept_memNoSource hv1) hv1

theorem kept_writeMem {off data s} (h : Kept u₀ s) : Kept u₀ (writeMem off data s) := by
  unfold writeMem
  refine Kept.ite (Kept.ite (kept_trainRequest h) (Kept.ite (kept_trainRequest h) h)) ?_
  extract_lets +onlyGivenNames v0
  have hv0 : Kept u₀ v0 := kept_plain h
  clear_value v0
  exact Kept.ite (kept_freqRequest hv0) hv0

theorem kept_writeNet {pg off data s} (h : Kept u₀ s) : Kept u₀ (writeNet pg off data s) := by
  unfold writeNet
  extract_lets +onlyGivenNames v0
  clear_value v0
  exact kept_plainBut h

theorem kept_writePtp {off data s} (h : Kept u₀ s) : Kept u₀ (writePtp off data s) := by
  unfold writePtp
  refine Kept.ite ?_ ?_
  · extract_lets +onlyGivenNames v0
    have hv0 : Kept u₀ v0 := kept_allowStep h
    clear_value v0
    exact Kept.ite (kept_ptpRequalify hv0) hv0
  · extract_lets +onlyGivenNames v1
    have hv1 : Kept u₀ v1 := kept_plain h
    clear_value v1
    exact Kept.ite (kept_convert hv1) hv1

theorem kept_writeTrig {off data s} (h : Kept u₀ s) : Kept u₀ (writeTrig off data s) := by
  unfold writeTrig
  extract_lets +onlyGivenNames v0 v1 v2
  clear_value v0 v1 v2
  exact Kept.ite (kept_trigArmAll h) (Kept.ite (kept_trigDisarmAll h) (Kept.ite (kept_capPop h) (Kept.ite
      (kept_plainBut h) (Kept.ite (kept_plainBut h) (kept_plain h)))))

theorem kept_writeSag {off data s} (h : Kept u₀ s) : Kept u₀ (writeSag off data s) := by
  unfold writeSag
  exact Kept.ite (kept_sagCmd h) (Kept.ite (kept_paramKey h) (Kept.ite (kept_paramCommit h) (kept_plain
      (kept_keyBreak h))))

theorem kept_writeCpu {off data s} (h : Kept u₀ s) : Kept u₀ (writeCpu off data s) := by
  unfold writeCpu
  exact Kept.ite (kept_hostRelease h) (Kept.ite (kept_tenderRun h) (Kept.ite (kept_kick (kept_plain h)) (Kept.ite
      (Kept.ite (kept_l2Go h) (kept_plainBut h)) (kept_plain h))))

theorem kept_writeMbox {off data owner s} (h : Kept u₀ s) : Kept u₀ (writeMbox off data owner s) := by
  unfold writeMbox
  extract_lets +onlyGivenNames v0 v1
  clear_value v0 v1
  exact Kept.ite (kept_pushLoWrite h) (Kept.ite (kept_pushHiWrite h) (kept_plain h))

theorem kept_writeSto {off data s} (h : Kept u₀ s) : Kept u₀ (writeSto off data s) := by
  unfold writeSto
  exact Kept.ite (kept_norGo h) (Kept.ite (kept_journalCtrl h) (kept_plain h))

theorem kept_bodyWrite {pg off data owner s} (h : Kept u₀ s) : Kept u₀ (bodyWrite pg off data owner s) := by
  unfold bodyWrite
  exact Kept.ite (kept_writeMode h) (Kept.ite (Kept.ite (kept_ringHost h) h) (Kept.ite (kept_writeLock h) (Kept.ite
      (kept_writePos h) (Kept.ite (kept_writeDiv h) (Kept.ite (kept_cmpArmAll h) (Kept.ite (kept_cmpDisarmAll h)
          (Kept.ite (kept_writePort h) (Kept.ite (kept_writeLane h) (Kept.ite (kept_writeIngest h) (Kept.ite
              (kept_writeJob h) (Kept.ite (kept_writeScr h) (Kept.ite (kept_writeCam h) (Kept.ite (kept_writeTrk h)
                  (Kept.ite (kept_tdcRuns h) (Kept.ite (kept_writeCal h) (Kept.ite (kept_writeChan h) (Kept.ite
                      (kept_writeMem h) (Kept.ite (kept_writeNet h) (Kept.ite (kept_hostTxWrite h) (Kept.ite
                          (kept_writePtp h) (Kept.ite (kept_writeTrig h) (Kept.ite (kept_pairCtrl h) (Kept.ite
                              (kept_writeSag h) (Kept.ite (kept_headAck h) (Kept.ite (Kept.ite (kept_clearFault h)
                                  h) (Kept.ite (kept_writeCpu h) (Kept.ite (kept_writeMbox h) (Kept.ite
                                      (kept_complete h) (Kept.ite (kept_writeSto h) (kept_plain
                                          h))))))))))))))))))))))))))))))

theorem kept_commitBy {pg target en cancel req s} (h : Kept u₀ s) : Kept u₀ (commitBy pg target en cancel req s) := by
  unfold commitBy
  extract_lets +onlyGivenNames v0 v1
  clear_value v0
  have hv1 : Kept u₀ v1 := kept_commitWrite h
  clear_value v1
  refine Kept.ite ?_ hv1
  extract_lets +onlyGivenNames v2
  have hv2 : Kept u₀ v2 := kept_updCal hv1
  clear_value v2
  exact Kept.ite (kept_pairSend hv2) hv2

theorem kept_controlWrite {pg data owner s} (h : Kept u₀ s) : Kept u₀ (controlWrite pg data owner s) := by
  unfold controlWrite
  refine Kept.ite (kept_funcReset h) ?_
  extract_lets +onlyGivenNames v0 v1 v2
  clear_value v0
  have hv1 : Kept u₀ v1 := kept_blockHold (kept_set h)
  clear_value v1
  have hv2 : Kept u₀ v2 := kept_fabricQuiesce hv1
  clear_value v2
  exact kept_controlEnable hv2

theorem kept_headerWrite {pg off data owner s} (h : Kept u₀ s) : Kept u₀ (headerWrite pg off data owner s) := by
  unfold headerWrite
  exact Kept.ite (kept_controlWrite h) (Kept.ite (kept_gateReg (fun _ => kept_commitBy) h) (Kept.ite
      (kept_eventClear h) (Kept.ite (kept_set h) (Kept.ite (kept_eventForce h) (Kept.ite (kept_set (kept_set h))
          h)))))

theorem kept_shadowWrite {pg off data owner s} (h : Kept u₀ s) : Kept u₀ (shadowWrite pg off data owner s) := by
  unfold shadowWrite
  exact Kept.ite (kept_gateReg (fun _ h0 => kept_unlessFrozen (fun _ h1 => Kept.ite h1 (kept_mirrored
      (kept_shadowReg h1))) h0) h) h

theorem kept_registerWrite {pg apt off data owner s} (h : Kept u₀ s) : Kept u₀ (registerWrite pg apt off data owner
    s) := by
  unfold registerWrite
  exact Kept.ite h (Kept.ite (Kept.upd h) (Kept.ite (kept_gate (fun _ => kept_aptWrite) h) (Kept.ite
      (kept_headerWrite h) (Kept.ite (kept_gateReg (fun _ => kept_bodyWrite) h) (Kept.ite (kept_shadowWrite h) h)))))

theorem kept_execRegisterWrite {pg apt off data owner s} (h : Kept u₀ s) : KeptO u₀ (execRegisterWrite pg apt off
    data owner s) := by
  unfold execRegisterWrite
  extract_lets +onlyGivenNames v0
  clear_value v0
  exact KeptO.next (kept_registerWrite h)

theorem kept_execCommitRequest {pg target en cancel owner s} (h : Kept u₀ s) : KeptO u₀ (execCommitRequest pg
    target en cancel owner s) := by
  unfold execCommitRequest
  exact KeptO.next (kept_gateReg (fun _ => kept_commitBy) h)

theorem kept_laneBlocks {p n s} (h : Kept u₀ s) : Kept u₀ (laneBlocks p n s) := by
  induction n generalizing s with
  | zero => exact h
  | succ n ih =>
    unfold laneBlocks
    exact Kept.ite (ih (Kept.ite (kept_laneBlock (kept_updLane h)) (kept_updLane h))) h

theorem kept_laneTest {p n s} (h : Kept u₀ s) : Kept u₀ (laneTest p n s) := by
  induction n generalizing s with
  | zero => exact h
  | succ n ih =>
    unfold laneTest
    dsimp only
    split
    · exact Kept.ite (ih (kept_updLane h)) h
    · exact h

theorem kept_laneTick {p s} (h : Kept u₀ s) : Kept u₀ (laneTick p s) := by
  unfold laneTick
  extract_lets +onlyGivenNames v0
  clear_value v0
  refine Kept.ite (kept_laneBlocks (Kept.ite h (kept_updLane h))) ?_
  refine Kept.ite ?_ (Kept.ite (kept_updLane h) h)
  refine Kept.ite (kept_laneTest h) ?_
  extract_lets +onlyGivenNames v1
  have hv1 : Kept u₀ v1.2 := kept_free h
  clear_value v1
  exact kept_laneTest (kept_updLane hv1)

theorem kept_pairBlocks {k n s} (h : Kept u₀ s) : Kept u₀ (pairBlocks k n s) := by
  induction n generalizing s with
  | zero => exact h
  | succ n ih => unfold pairBlocks; exact Kept.ite (ih (kept_updPair h)) h

theorem kept_pairTick {k s} (h : Kept u₀ s) : Kept u₀ (pairTick k s) := by
  unfold pairTick
  refine Kept.ite ?_ h
  extract_lets +onlyGivenNames v0
  clear_value v0
  exact kept_pairBlocks (Kept.ite h (kept_updPair h))

theorem kept_transmitters {s} (h : Kept u₀ s) : Kept u₀ (transmitters s) := by
  unfold transmitters
  exact Kept.forAll (Kept.forAll h (fun _ _ => kept_laneTick)) (fun _ _ => kept_pairTick)

end Sys2Proof.Machine
end

