-- ==== Sys2Proof/Laws/Sdram.lean ====
section
/-! SUPPORT. What an access to SDRAM changes: the SDRAM, the channels, their pages and the Ledger. -/

-- One declaration after another: the package is also checked as one text, where too many threads would start at once.
set_option Elab.async false

namespace Sys2Proof.Machine

/-- The pages whose registers an access to SDRAM may change. -/
def memPages : List Nat := [0x080, 0x081, 0x082, 0x083, 0x084, pgLedger]

/-- Only the SDRAM, its channels and the Ledger changed. -/
def State.MemOnly (s t : State) : Prop :=
  t = { s with regs := t.regs, sdram := t.sdram, memBad := t.memBad, memx := t.memx, pool := t.pool, stamps := t.stamps } ∧
  ∀ k, k / 131072 ∉ memPages → tfind t.regs k = tfind s.regs k

theorem State.MemOnly.refl (s : State) : s.MemOnly s := ⟨rfl, fun _ _ => rfl⟩

theorem State.MemOnly.trans {s t u : State} (h : s.MemOnly t) (g : t.MemOnly u) : s.MemOnly u := by
  refine ⟨?_, fun k hk => (g.2 k hk).trans (h.2 k hk)⟩
  have h1 := h.1
  have g1 := g.1
  rw [g1, h1]

theorem State.MemOnly.set {s t : State} (h : s.MemOnly t) {f : Fld} {pg : Nat} (v : Nat) (hp : pg ∈ memPages)
    (hf : f.off + 0 * f.stride < 4096) (hl : f.lo < 32) : s.MemOnly (t.set f pg v) :=
  h.trans ⟨rfl, fun k hk => tfind_tputD_ne _ _ _ (by rintro rfl; rw [Fld.key_page hf hl] at hk; exact hk hp)⟩

theorem State.MemOnly.sat {s t : State} (h : s.MemOnly t) {f : Fld} {pg : Nat} (hp : pg ∈ memPages)
    (hf : f.off + 0 * f.stride < 4096) (hl : f.lo < 32) : s.MemOnly (t.sat f pg) := h.set _ hp hf hl

theorem State.MemOnly.raise {s t : State} (h : s.MemOnly t) (e : Ev) {pg : Nat} (arg : Nat) (hp : pg ∈ memPages)
    (hn : pg ≠ pgLedger) : s.MemOnly (t.raise e pg arg) := by
  have g := t.onlyEvents_raise e arg hn
  exact h.trans ⟨by rw [g.1], fun k hk => g.2.1 k (by simp)
    (by rintro rfl; rw [Fld.key_page (by decide) (by decide)] at hk; exact hk hp) (fun hl => hk (by rw [hl]; decide))⟩

theorem State.MemOnly.updMem {s t : State} (h : s.MemOnly t) (ch : Nat) (f : MemX → MemX) : s.MemOnly (t.updMem ch f) :=
  h.trans ⟨rfl, fun _ _ => rfl⟩

theorem State.MemOnly.store {s t u : State} (h : s.MemOnly t) (e : u = { t with sdram := u.sdram, memBad := u.memBad }) :
    s.MemOnly u := h.trans ⟨by rw [e], fun k _ => by rw [e]⟩

theorem State.MemOnly.forAll {α : Type} {s t : State} (l : List α) (f : α → State → State) (h : s.MemOnly t)
    (hf : ∀ a u, s.MemOnly u → s.MemOnly (f a u)) : s.MemOnly (forAll l t f) :=
  forAll_inv l t f (fun u => s.MemOnly u) h hf

theorem chan_mem {ch : Nat} (h : ch < 4) : pgChan ch ∈ memPages := by
  rcases ch with _ | _ | _ | _ | n
  · decide
  · decide
  · decide
  · decide
  · omega

theorem chan_ne {ch : Nat} (h : ch < 4) : pgChan ch ≠ pgLedger := by unfold pgChan pgLedger; omega

theorem State.memSplit_lt (s : State) (a : Nat) : (s.memSplit a).1 < 4 := by
  unfold State.memSplit bits
  split <;> exact Nat.mod_lt _ (by decide)

section
variable {s t : State} {ch : Nat} (hc : ch < 4)
include hc

theorem memOnly_memPower (v : Nat) (h : s.MemOnly t) : s.MemOnly (memPower ch v t) := h.set _ (chan_mem hc) (by decide) (by decide)
theorem memOnly_srExit (h : s.MemOnly t) : s.MemOnly (srExit ch t) := memOnly_memPower hc _ (h.updMem _ _)
theorem memOnly_memWake (h : s.MemOnly t) : s.MemOnly (memWake ch t) := by
  unfold memWake
  split
  · exact h
  · split
    · exact h
    · exact memOnly_srExit hc h
    · exact memOnly_memPower hc _ (h.sat (chan_mem hc) (by decide) (by decide))
    · exact memOnly_memPower hc _ h
theorem memOnly_memTouch (h : s.MemOnly t) : s.MemOnly (memTouch ch t) := (memOnly_memWake hc h).updMem _ _
theorem memOnly_memPoison (b cls : Nat) (bad : List Nat) (h : s.MemOnly t) : s.MemOnly (memPoison ch b cls bad t) :=
  (((h.sat (chan_mem hc) (by decide) (by decide)).set _ (chan_mem hc) (by decide) (by decide)).set _ (chan_mem hc) (by decide)
    (by decide)).raise _ _ (chan_mem hc) (chan_ne hc)
theorem memOnly_memMerge (q : MemReq) (h : s.MemOnly t) : s.MemOnly (memMerge ch q t) := by
  unfold memMerge
  refine State.MemOnly.store (t := if q.mask == 2 ^ 64 - 1 || (t.badWords q.burst).isEmpty then t else memPoison ch q.burst 8 (t.badWords q.burst) t) ?_ rfl
  split
  · exact h
  · exact memOnly_memPoison hc _ _ _ h
theorem memOnly_memJoin (q : MemReq) (h : s.MemOnly t) : s.MemOnly (memJoin ch q t) := by
  unfold memJoin
  dsimp only
  split
  · split
    · split
      · exact h.updMem _ _
      · exact h.updMem _ _
    · exact h.updMem _ _
  · refine State.MemOnly.updMem ?_ _ _
    split
    · exact h.sat (chan_mem hc) (by decide) (by decide)
    · exact h
theorem memOnly_memAdmit (n : Nat) (h : s.MemOnly t) : s.MemOnly (memAdmit n ch t) := by
  induction n generalizing t with
  | zero => exact h
  | succ n ih =>
    unfold memAdmit
    split
    · exact ih (memOnly_memJoin hc _ (h.updMem _ _))
    · exact h
theorem memOnly_memEnqueue (q : MemReq) (h : s.MemOnly t) : s.MemOnly (memEnqueue ch q t) := memOnly_memAdmit hc _ (h.updMem _ _)
end

theorem memOnly_rangeError {s t : State} (cls a : Nat) (w : Bool) (h : s.MemOnly t) : s.MemOnly (rangeError cls a w t) :=
  h.raise _ _ (by decide) (by decide)

theorem memOnly_burstRead {s t : State} (cls b : Nat) (h : s.MemOnly t) : s.MemOnly (burstRead cls b t) := by
  have hc := t.memSplit_lt b
  unfold burstRead
  split
  · exact memOnly_rangeError _ _ _ h
  · dsimp only
    generalize (t.memSplit b).1 = ch at hc ⊢
    generalize t.viewBad b = bad
    have h1 : ∀ c : Bool, s.MemOnly (memTouch ch (if c then t.sat F.Chan.RAW_STALLS (pgChan ch) else t)) := by
      intro c
      refine memOnly_memTouch hc ?_
      split
      · exact h.sat (chan_mem hc) (by decide) (by decide)
      · exact h
    split
    · exact h1 _
    · exact memOnly_memPoison hc _ _ _ (h1 _)

theorem memOnly_sdramRead {s t : State} (cls a n : Nat) (h : s.MemOnly t) : s.MemOnly (sdramRead cls a n t) :=
  State.MemOnly.forAll _ _ h fun b _ hu => memOnly_burstRead cls b hu

theorem memOnly_burstWrite {s t : State} (cls : Nat) (q : MemReq) (h : s.MemOnly t) : s.MemOnly (burstWrite cls q t) := by
  have hc := t.memSplit_lt q.burst
  unfold burstWrite
  split
  · exact memOnly_rangeError _ _ _ h
  · dsimp only
    split
    · exact memOnly_memEnqueue hc _ (memOnly_memTouch hc h)
    · exact memOnly_memMerge hc _ (memOnly_memTouch hc h)

theorem memOnly_sdramWrite {s t : State} (cls a : Nat) (bs : List Byte) (h : s.MemOnly t) : s.MemOnly (sdramWrite cls a bs t) := by
  unfold sdramWrite
  split
  · exact State.MemOnly.forAll _ _ (h.store rfl) fun b u hu => memOnly_memTouch (u.memSplit_lt b) hu
  · exact State.MemOnly.forAll _ _ h fun _ _ hu => memOnly_burstWrite _ _ hu

/-- A field of another page is as it was. -/
theorem State.MemOnly.getI {s t : State} (h : s.MemOnly t) {g : Fld} {pg i : Nat} (hp : pg ∉ memPages)
    (hf : g.off + i * g.stride < 4096) (hl : g.lo < 32) : t.getI g pg i = s.getI g pg i := by
  unfold State.getI tget; rw [h.2 _ (by rw [Fld.key_page hf hl]; exact hp)]
theorem State.MemOnly.get {s t : State} (h : s.MemOnly t) {g : Fld} {pg : Nat} (hp : pg ∉ memPages)
    (hf : g.off + 0 * g.stride < 4096) (hl : g.lo < 32) : t.get g pg = s.get g pg := h.getI hp hf hl

theorem State.MemOnly.cam {s t : State} (h : s.MemOnly t) : t.cam = s.cam := by rw [h.1]
theorem State.MemOnly.link {s t : State} (h : s.MemOnly t) : t.link = s.link := by rw [h.1]
theorem State.MemOnly.pipe {s t : State} (h : s.MemOnly t) : t.pipe = s.pipe := by rw [h.1]
theorem State.MemOnly.port {s t : State} (h : s.MemOnly t) : t.port = s.port := by rw [h.1]
theorem State.MemOnly.lane {s t : State} (h : s.MemOnly t) : t.lane = s.lane := by rw [h.1]
theorem State.MemOnly.regn {s t : State} (h : s.MemOnly t) : t.regn = s.regn := by rw [h.1]
theorem State.MemOnly.pos {s t : State} (h : s.MemOnly t) : t.pos = s.pos := by rw [h.1]
theorem State.MemOnly.ing {s t : State} (h : s.MemOnly t) : t.ing = s.ing := by rw [h.1]
theorem State.MemOnly.trk {s t : State} (h : s.MemOnly t) : t.trk = s.trk := by rw [h.1]
theorem State.MemOnly.now {s t : State} (h : s.MemOnly t) : t.now = s.now := by rw [h.1]
theorem State.MemOnly.pending {s t : State} (h : s.MemOnly t) : t.pending = s.pending := by rw [h.1]
theorem State.MemOnly.freeIx {s t : State} (h : s.MemOnly t) : t.freeIx = s.freeIx := by rw [h.1]

end Sys2Proof.Machine
end

