-- ==== Sys2Proof/Laws/Parts.lean ====
section
/-! SUPPORT. Reading back the record of a unit after it was changed, and the fields of lanes. -/

-- One declaration after another: the package is also checked as one text, where too many threads would start at once.
set_option Elab.async false

namespace Sys2Proof.Machine

@[simp] theorem State.portOf_updPort (s : State) (p : Nat) (f) : (s.updPort p f).portOf p = f (s.portOf p) := by
  unfold State.portOf State.updPort; exact tget_tput_self _ _ _ _
theorem State.portOf_updPort_ne (s : State) {p q : Nat} (f) (h : q ≠ p) : (s.updPort p f).portOf q = s.portOf q := by
  unfold State.portOf State.updPort; exact tget_tput_ne _ _ _ h
@[simp] theorem State.portOf_setI (s : State) (f : Fld) (pg i v p : Nat) : (s.setI f pg i v).portOf p = s.portOf p := rfl
@[simp] theorem State.portOf_set (s : State) (f : Fld) (pg v p : Nat) : (s.set f pg v).portOf p = s.portOf p := rfl
@[simp] theorem State.portOf_raise (s : State) (e : Ev) (pg arg p : Nat) : (s.raise e pg arg).portOf p = s.portOf p := by
  unfold State.portOf; rw [State.raise_port]
@[simp] theorem State.getI_updPort (s : State) (p : Nat) (f) (g : Fld) (pg i : Nat) : (s.updPort p f).getI g pg i = s.getI g pg i := rfl
@[simp] theorem State.get_updPort (s : State) (p : Nat) (f) (g : Fld) (pg : Nat) : (s.updPort p f).get g pg = s.get g pg := rfl

@[simp] theorem State.regnOf_updRegn (s : State) (p : Nat) (f) : (s.updRegn p f).regnOf p = f (s.regnOf p) := by
  unfold State.regnOf State.updRegn; exact tget_tput_self _ _ _ _
theorem State.regnOf_updRegn_ne (s : State) {p q : Nat} (f) (h : q ≠ p) : (s.updRegn p f).regnOf q = s.regnOf q := by
  unfold State.regnOf State.updRegn; exact tget_tput_ne _ _ _ h
@[simp] theorem State.regnOf_setI (s : State) (f : Fld) (pg i v p : Nat) : (s.setI f pg i v).regnOf p = s.regnOf p := rfl
@[simp] theorem State.regnOf_set (s : State) (f : Fld) (pg v p : Nat) : (s.set f pg v).regnOf p = s.regnOf p := rfl
@[simp] theorem State.regnOf_raise (s : State) (e : Ev) (pg arg p : Nat) : (s.raise e pg arg).regnOf p = s.regnOf p := by
  unfold State.regnOf; rw [State.raise_regn]
@[simp] theorem State.getI_updRegn (s : State) (p : Nat) (f) (g : Fld) (pg i : Nat) : (s.updRegn p f).getI g pg i = s.getI g pg i := rfl
@[simp] theorem State.get_updRegn (s : State) (p : Nat) (f) (g : Fld) (pg : Nat) : (s.updRegn p f).get g pg = s.get g pg := rfl

@[simp] theorem State.laneOf_updLane (s : State) (p : Nat) (f) : (s.updLane p f).laneOf p = f (s.laneOf p) := by
  unfold State.laneOf State.updLane; exact tget_tput_self _ _ _ _
theorem State.laneOf_updLane_ne (s : State) {p q : Nat} (f) (h : q ≠ p) : (s.updLane p f).laneOf q = s.laneOf q := by
  unfold State.laneOf State.updLane; exact tget_tput_ne _ _ _ h
@[simp] theorem State.laneOf_setI (s : State) (f : Fld) (pg i v p : Nat) : (s.setI f pg i v).laneOf p = s.laneOf p := rfl
@[simp] theorem State.laneOf_set (s : State) (f : Fld) (pg v p : Nat) : (s.set f pg v).laneOf p = s.laneOf p := rfl
@[simp] theorem State.laneOf_raise (s : State) (e : Ev) (pg arg p : Nat) : (s.raise e pg arg).laneOf p = s.laneOf p := by
  unfold State.laneOf; rw [State.raise_lane]
@[simp] theorem State.getI_updLane (s : State) (p : Nat) (f) (g : Fld) (pg i : Nat) : (s.updLane p f).getI g pg i = s.getI g pg i := rfl
@[simp] theorem State.get_updLane (s : State) (p : Nat) (f) (g : Fld) (pg : Nat) : (s.updLane p f).get g pg = s.get g pg := rfl

@[simp] theorem State.posOf_updPos (s : State) (p : Nat) (f) : (s.updPos p f).posOf p = f (s.posOf p) := by
  unfold State.posOf State.updPos; exact tget_tput_self _ _ _ _
theorem State.posOf_updPos_ne (s : State) {p q : Nat} (f) (h : q ≠ p) : (s.updPos p f).posOf q = s.posOf q := by
  unfold State.posOf State.updPos; exact tget_tput_ne _ _ _ h
@[simp] theorem State.posOf_setI (s : State) (f : Fld) (pg i v p : Nat) : (s.setI f pg i v).posOf p = s.posOf p := rfl
@[simp] theorem State.posOf_set (s : State) (f : Fld) (pg v p : Nat) : (s.set f pg v).posOf p = s.posOf p := rfl
@[simp] theorem State.posOf_raise (s : State) (e : Ev) (pg arg p : Nat) : (s.raise e pg arg).posOf p = s.posOf p := by
  unfold State.posOf; rw [State.raise_pos]
@[simp] theorem State.getI_updPos (s : State) (p : Nat) (f) (g : Fld) (pg i : Nat) : (s.updPos p f).getI g pg i = s.getI g pg i := rfl
@[simp] theorem State.get_updPos (s : State) (p : Nat) (f) (g : Fld) (pg : Nat) : (s.updPos p f).get g pg = s.get g pg := rfl

@[simp] theorem State.trigOf_updTrig (s : State) (p : Nat) (f) : (s.updTrig p f).trigOf p = f (s.trigOf p) := by
  unfold State.trigOf State.updTrig; exact tget_tput_self _ _ _ _
theorem State.trigOf_updTrig_ne (s : State) {p q : Nat} (f) (h : q ≠ p) : (s.updTrig p f).trigOf q = s.trigOf q := by
  unfold State.trigOf State.updTrig; exact tget_tput_ne _ _ _ h
@[simp] theorem State.trigOf_setI (s : State) (f : Fld) (pg i v p : Nat) : (s.setI f pg i v).trigOf p = s.trigOf p := rfl
@[simp] theorem State.trigOf_set (s : State) (f : Fld) (pg v p : Nat) : (s.set f pg v).trigOf p = s.trigOf p := rfl
@[simp] theorem State.trigOf_raise (s : State) (e : Ev) (pg arg p : Nat) : (s.raise e pg arg).trigOf p = s.trigOf p := by
  unfold State.trigOf; rw [State.raise_trig]
@[simp] theorem State.getI_updTrig (s : State) (p : Nat) (f) (g : Fld) (pg i : Nat) : (s.updTrig p f).getI g pg i = s.getI g pg i := rfl
@[simp] theorem State.get_updTrig (s : State) (p : Nat) (f) (g : Fld) (pg : Nat) : (s.updTrig p f).get g pg = s.get g pg := rfl

@[simp] theorem State.tdcOf_updTdc (s : State) (p : Nat) (f) : (s.updTdc p f).tdcOf p = f (s.tdcOf p) := by
  unfold State.tdcOf State.updTdc; exact tget_tput_self _ _ _ _
theorem State.tdcOf_updTdc_ne (s : State) {p q : Nat} (f) (h : q ≠ p) : (s.updTdc p f).tdcOf q = s.tdcOf q := by
  unfold State.tdcOf State.updTdc; exact tget_tput_ne _ _ _ h
@[simp] theorem State.tdcOf_setI (s : State) (f : Fld) (pg i v p : Nat) : (s.setI f pg i v).tdcOf p = s.tdcOf p := rfl
@[simp] theorem State.tdcOf_set (s : State) (f : Fld) (pg v p : Nat) : (s.set f pg v).tdcOf p = s.tdcOf p := rfl
@[simp] theorem State.tdcOf_raise (s : State) (e : Ev) (pg arg p : Nat) : (s.raise e pg arg).tdcOf p = s.tdcOf p := by
  unfold State.tdcOf; rw [State.raise_tdc]
@[simp] theorem State.getI_updTdc (s : State) (p : Nat) (f) (g : Fld) (pg i : Nat) : (s.updTdc p f).getI g pg i = s.getI g pg i := rfl
@[simp] theorem State.get_updTdc (s : State) (p : Nat) (f) (g : Fld) (pg : Nat) : (s.updTdc p f).get g pg = s.get g pg := rfl

@[simp] theorem State.memOf_updMem (s : State) (p : Nat) (f) : (s.updMem p f).memOf p = f (s.memOf p) := by
  unfold State.memOf State.updMem; exact tget_tput_self _ _ _ _
theorem State.memOf_updMem_ne (s : State) {p q : Nat} (f) (h : q ≠ p) : (s.updMem p f).memOf q = s.memOf q := by
  unfold State.memOf State.updMem; exact tget_tput_ne _ _ _ h
@[simp] theorem State.memOf_setI (s : State) (f : Fld) (pg i v p : Nat) : (s.setI f pg i v).memOf p = s.memOf p := rfl
@[simp] theorem State.memOf_set (s : State) (f : Fld) (pg v p : Nat) : (s.set f pg v).memOf p = s.memOf p := rfl
@[simp] theorem State.memOf_raise (s : State) (e : Ev) (pg arg p : Nat) : (s.raise e pg arg).memOf p = s.memOf p := by
  unfold State.memOf; rw [State.raise_memx]
@[simp] theorem State.getI_updMem (s : State) (p : Nat) (f) (g : Fld) (pg i : Nat) : (s.updMem p f).getI g pg i = s.getI g pg i := rfl
@[simp] theorem State.get_updMem (s : State) (p : Nat) (f) (g : Fld) (pg : Nat) : (s.updMem p f).get g pg = s.get g pg := rfl

@[simp] theorem State.linkX_updLink (s : State) (p : Nat) (f) : (s.updLink p f).linkX p = f (s.linkX p) := by
  unfold State.linkX State.updLink; exact tget_tput_self _ _ _ _
theorem State.linkX_updLink_ne (s : State) {p q : Nat} (f) (h : q ≠ p) : (s.updLink p f).linkX q = s.linkX q := by
  unfold State.linkX State.updLink; exact tget_tput_ne _ _ _ h
@[simp] theorem State.linkX_setI (s : State) (f : Fld) (pg i v p : Nat) : (s.setI f pg i v).linkX p = s.linkX p := rfl
@[simp] theorem State.linkX_set (s : State) (f : Fld) (pg v p : Nat) : (s.set f pg v).linkX p = s.linkX p := rfl
@[simp] theorem State.linkX_raise (s : State) (e : Ev) (pg arg p : Nat) : (s.raise e pg arg).linkX p = s.linkX p := by
  unfold State.linkX; rw [State.raise_link]
@[simp] theorem State.getI_updLink (s : State) (p : Nat) (f) (g : Fld) (pg i : Nat) : (s.updLink p f).getI g pg i = s.getI g pg i := rfl
@[simp] theorem State.get_updLink (s : State) (p : Nat) (f) (g : Fld) (pg : Nat) : (s.updLink p f).get g pg = s.get g pg := rfl

@[simp] theorem State.slotX_updSlot (s : State) (p : Nat) (f) : (s.updSlot p f).slotX p = f (s.slotX p) := by
  unfold State.slotX State.updSlot; exact tget_tput_self _ _ _ _
theorem State.slotX_updSlot_ne (s : State) {p q : Nat} (f) (h : q ≠ p) : (s.updSlot p f).slotX q = s.slotX q := by
  unfold State.slotX State.updSlot; exact tget_tput_ne _ _ _ h
@[simp] theorem State.slotX_setI (s : State) (f : Fld) (pg i v p : Nat) : (s.setI f pg i v).slotX p = s.slotX p := rfl
@[simp] theorem State.slotX_set (s : State) (f : Fld) (pg v p : Nat) : (s.set f pg v).slotX p = s.slotX p := rfl
@[simp] theorem State.slotX_raise (s : State) (e : Ev) (pg arg p : Nat) : (s.raise e pg arg).slotX p = s.slotX p := by
  unfold State.slotX; rw [State.raise_cam]
@[simp] theorem State.getI_updSlot (s : State) (p : Nat) (f) (g : Fld) (pg i : Nat) : (s.updSlot p f).getI g pg i = s.getI g pg i := rfl
@[simp] theorem State.get_updSlot (s : State) (p : Nat) (f) (g : Fld) (pg : Nat) : (s.updSlot p f).get g pg = s.get g pg := rfl

@[simp] theorem State.laneOf_updPort (s : State) (p q : Nat) (f) : (s.updPort p f).laneOf q = s.laneOf q := rfl
@[simp] theorem State.portOf_updLane (s : State) (p q : Nat) (f) : (s.updLane p f).portOf q = s.portOf q := rfl

/-- An invariant of a step applied over a list, with membership. -/
theorem forAll_over {α : Type} (l : List α) (s : State) (f : α → State → State) (P : State → Prop) (h0 : P s)
    (h : ∀ a ∈ l, ∀ s, P s → P (f a s)) : P (forAll l s f) := by
  unfold forAll
  induction l generalizing s with
  | nil => exact h0
  | cons a l ih => exact ih _ (h a (by simp) s h0) fun b hb => h b (by simp [hb])

/-! ### Pages that are not the Ledger's -/

theorem pgPort_ne : ∀ p < 48, pgPort p ≠ pgLedger := by decide
theorem pgLane_ne : ∀ p < 48, pgLane (p / 4) ≠ pgLedger := by decide

/-! ### Lanes -/

@[simp] theorem State.laneGet_laneSet (s : State) (f : Fld) (p v : Nat) : (s.laneSet f p v).laneGet f p = low f.w v :=
  State.getI_setI_self _ _ _ _ _
theorem State.laneGet_laneSet_off (s : State) {f g : Fld} {p v : Nat} (hs : g.stride = f.stride)
    (h : g.off * 32 + g.lo ≠ f.off * 32 + f.lo) : (s.laneSet f p v).laneGet g p = s.laneGet g p := State.getI_setI_arr _ hs h
@[simp] theorem State.laneOf_laneSet (s : State) (f : Fld) (p v q : Nat) : (s.laneSet f p v).laneOf q = s.laneOf q := rfl
@[simp] theorem State.laneGet_updLane (s : State) (g : Fld) (p q : Nat) (f) : (s.updLane q f).laneGet g p = s.laneGet g p := rfl
@[simp] theorem State.laneOf_laneRaise (s : State) (e : Ev) (p hi lo q : Nat) : (laneRaise e p hi lo s).laneOf q = s.laneOf q :=
  State.laneOf_raise _ _ _ _ _
theorem State.laneGet_laneRaise (s : State) (e : Ev) {p hi lo : Nat} {g : Fld} (hp : p < 48) (h : 32 ≤ g.off)
    (hg : g.off + 3 * g.stride < 4096) (hl : g.lo < 32) : (laneRaise e p hi lo s).laneGet g p = s.laneGet g p :=
  State.getI_raise_arr _ _ 4 (Nat.mod_lt _ (by decide)) (pgLane_ne p hp) h hg hl
theorem State.laneRaise_bit (s : State) (e : Ev) {p : Nat} (hi lo : Nat) (hp : p < 48) (hb : e.bit < 32) :
    bitAt ((laneRaise e p hi lo s).get F.Hdr.EVENT_STATUS (pgLane (p / 4))) e.bit = true :=
  State.raise_bit _ _ _ (pgLane_ne p hp) hb

/-- A download that ends as failed (R316). -/
theorem downloadFail_facts (s : State) (p r : Nat) (hp : p < 48) (ht : (s.laneOf p).dlTable < 16) : ∃ t, downloadFail p r s = t ∧
    t.laneGet F.Lane.WAVE_DL_STATE p = 3 ∧ bitAt (t.laneGet F.Lane.WAVE_BAD p) (s.laneOf p).dlTable = true ∧
    t.laneOf p = { s.laneOf p with dlSent := none } ∧
    bitAt (t.get F.Hdr.EVENT_STATUS (pgLane (p / 4))) Ev.laneWaveLoadFail.bit = true := by
  refine ⟨_, rfl, ?_, ?_, ?_, State.laneRaise_bit _ _ _ _ hp (by decide)⟩
  · unfold downloadFail
    rw [State.laneGet_laneRaise _ _ hp (by decide) (by decide) (by decide), State.laneGet_updLane, State.laneGet_laneSet_off _ (f := F.Lane.WAVE_BAD) (g := F.Lane.WAVE_DL_STATE) rfl (by decide), State.laneGet_laneSet]; rfl
  · unfold downloadFail
    rw [State.laneGet_laneRaise _ _ hp (by decide) (by decide) (by decide), State.laneGet_updLane, State.laneGet_laneSet, bitAt_low (w := F.Lane.WAVE_BAD.w) ht]; exact bitAt_setBit_self _ _
  · unfold downloadFail; rw [State.laneOf_laneRaise, State.laneOf_updLane]; rfl

/-! ### Cameras -/

theorem pgCam_ne : ∀ l < 3, pgCam l ≠ pgLedger := by decide
theorem forAll_cam {α : Type} (l : List α) (s : State) (f : α → State → State) (h : ∀ a s, (f a s).cam = s.cam) : (forAll l s f).cam = s.cam :=
  forAll_keeps l s f State.cam h
theorem tapFrameEnd_cam (st ser : Nat) (s : State) : (tapFrameEnd st ser s).cam = s.cam := by
  unfold tapFrameEnd
  refine forAll_cam _ _ _ fun t s => ?_
  dsimp only
  split
  · rw [State.raise_cam]; rfl
  · rfl
theorem statsRecord_cam (st : Nat) (f : FrameX) (s : State) : (statsRecord st f s).cam = s.cam := by
  unfold statsRecord; dsimp only
  split
  · rfl
  · split
    · split
      · rfl
      · rw [State.raise_cam]; rfl
    · dsimp only [State.set, State.setI, State.updPipe]
      rw [(memOnly_sdramWrite _ _ _ (State.MemOnly.refl _)).cam]
      split <;> rfl
theorem State.slotX_congr {s t : State} (h : t.cam = s.cam) (r : Nat) : t.slotX r = s.slotX r := by unfold State.slotX; rw [h]
theorem settle_frame (st : Nat) (l : List FrameX) (s : State) : ((settleFrames st l s).slotX st).frame = (s.slotX st).frame := by
  induction l generalizing s with
  | nil => unfold settleFrames; rw [State.slotX_updSlot]
  | cons f fs ih =>
    unfold settleFrames; split
    · rw [ih, State.slotX_congr (tapFrameEnd_cam _ _ _), State.slotX_congr (statsRecord_cam _ _ _)]
    · rw [State.slotX_updSlot]
theorem closeFrame_none (st : Nat) (ch : FrameX → FrameX) (s : State) : ((closeFrame st ch s).slotX st).frame = none := by
  unfold closeFrame
  cases h : (s.slotX st).frame with
  | none => exact h
  | some f0 =>
    dsimp only
    unfold settle
    rw [settle_frame]
    have e : ∀ x : State, ((if x.get F.Pipe.FRAME_SOURCE pgPipe = linkOf st then freshLoad F.Pipe.PIPE_LOAD pgPipe x else x).slotX st) = x.slotX st := by
      intro x; split
      · rfl
      · rfl
    rw [e]
    have key : ∀ (c : Prop) [Decidable c] (a : State) (e : Ev) (pg arg : Nat), ((if c then a.raise e pg arg else a).slotX st) = a.slotX st := by
      intro c _ a e pg arg; split
      · exact State.slotX_raise _ _ _ _ _
      · rfl
    rw [key]; unfold State.wrapI; rw [State.slotX_setI, State.slotX_updSlot]
theorem endLine_none (st n : Nat) (s : State) (h : (s.slotX st).line = none) : endLine st n s = s := by unfold endLine; rw [h]

end Sys2Proof.Machine
end

