-- ==== Sys2Proof/Laws/Others.lean ====
section
/-! SUPPORT. Registers of pages that a step does not touch. -/

-- One declaration after another: the package is also checked as one text, where too many threads would start at once.
set_option Elab.async false

namespace Sys2Proof.Machine

theorem State.OnPages.refl (s : State) (ps : List Nat) : s.OnPages s ps := fun _ _ => rfl
theorem State.OnPages.of_regs {s t : State} {ps : List Nat} (h : t.regs = s.regs) : s.OnPages t ps := fun _ _ => by rw [h]
theorem State.OnPages.trans {s t u : State} {ps : List Nat} (h : s.OnPages t ps) (g : t.OnPages u ps) : s.OnPages u ps :=
  fun k hk => (g k hk).trans (h k hk)
theorem State.OnPages.mono {s t : State} {ps qs : List Nat} (h : s.OnPages t ps) (hs : ∀ p ∈ ps, p ∈ qs) : s.OnPages t qs :=
  fun k hk => h k fun hm => hk (hs _ hm)
/-- A change of what is not a register. -/
theorem State.OnPages.keep {s t u : State} {ps : List Nat} (h : s.OnPages t ps) (e : u.regs = t.regs) : s.OnPages u ps :=
  h.trans (.of_regs e)
theorem State.OnPages.setI {s t : State} {ps : List Nat} (h : s.OnPages t ps) {f : Fld} {pg i : Nat} (v : Nat) (hp : pg ∈ ps)
    (hf : f.off + i * f.stride < 4096) (hl : f.lo < 32) : s.OnPages (t.setI f pg i v) ps :=
  h.trans fun k hk => tfind_tputD_ne _ _ _ (by rintro rfl; rw [Fld.key_page hf hl] at hk; exact hk hp)
theorem State.OnPages.set {s t : State} {ps : List Nat} (h : s.OnPages t ps) {f : Fld} {pg : Nat} (v : Nat) (hp : pg ∈ ps)
    (hf : f.off + 0 * f.stride < 4096) (hl : f.lo < 32) : s.OnPages (t.set f pg v) ps := h.setI v hp hf hl
theorem State.OnPages.raiseX {s t : State} {ps : List Nat} (h : s.OnPages t ps) (e : Ev) {pg : Nat} (arg sub sev : Nat) (fo : Bool)
    (hp : pg ∈ ps) (hn : pg ≠ pgLedger) (hg : pgLedger ∈ ps) : s.OnPages (t.raiseX e pg arg sub sev fo) ps :=
  h.trans fun k hk => (t.onlyEvents_raiseX e arg sub sev fo hn).2.1 k (by simp)
    (by rintro rfl; rw [Fld.key_page (by decide) (by decide)] at hk; exact hk hp) (fun hl => hk (hl ▸ hg))
theorem State.OnPages.raise {s t : State} {ps : List Nat} (h : s.OnPages t ps) (e : Ev) {pg : Nat} (arg : Nat)
    (hp : pg ∈ ps) (hn : pg ≠ pgLedger) (hg : pgLedger ∈ ps) : s.OnPages (t.raise e pg arg) ps := h.raiseX e arg 0 e.sev false hp hn hg
theorem State.OnPages.getI {s t : State} {ps : List Nat} (h : s.OnPages t ps) {g : Fld} {pg i : Nat} (hp : pg ∉ ps)
    (hf : g.off + i * g.stride < 4096) (hl : g.lo < 32) : t.getI g pg i = s.getI g pg i := by
  unfold State.getI tget; rw [h _ (by rw [Fld.key_page hf hl]; exact hp)]
theorem State.OnPages.get {s t : State} {ps : List Nat} (h : s.OnPages t ps) {g : Fld} {pg : Nat} (hp : pg ∉ ps)
    (hf : g.off + 0 * g.stride < 4096) (hl : g.lo < 32) : t.get g pg = s.get g pg := h.getI hp hf hl
/-- A field of a listed page, where it differs from all that are stored. -/
theorem State.OnPages.forAll {α : Type} {s t : State} {ps : List Nat} (l : List α) (f : α → State → State) (h : s.OnPages t ps)
    (hf : ∀ a ∈ l, ∀ u, s.OnPages u ps → s.OnPages (f a u) ps) : s.OnPages (forAll l t f) ps :=
  forAll_over l t f (fun u => s.OnPages u ps) h hf

/-- The event's bit is set, for an occurrence of any die or severity (R89). -/
theorem State.raiseX_bit (s : State) (e : Ev) {pg : Nat} (arg sub sev : Nat) (fo : Bool) (hp : pg ≠ pgLedger) (hb : e.bit < 32) :
    bitAt ((s.raiseX e pg arg sub sev fo).get F.Hdr.EVENT_STATUS pg) e.bit = true := by
  have h : (s.raiseX e pg arg sub sev fo).get F.Hdr.EVENT_STATUS pg = low 32 (setBit (s.get F.Hdr.EVENT_STATUS pg) e.bit) := by
    unfold State.raiseX
    dsimp only [State.set, State.get]
    split
    · exact State.getI_setI_self _ _ _ _ _
    · rw [show ∀ (t : State) w, State.getI { t with stamps := w } F.Hdr.EVENT_STATUS pg 0 = t.getI F.Hdr.EVENT_STATUS pg 0 from
          fun _ _ => rfl,
        State.ledgerPut_getI _ _ _ (by decide) (by decide) hp,
        State.getI_setI_page _ _ (by decide) (by decide) (by decide) (by decide) hp, State.getI_setI_self]
      rfl
  rw [h, bitAt_low hb]; exact bitAt_setBit_self _ _

/-! ### Fencing and Safe-Hold causes -/

/-- Sending on the pair changes the record of what was sent only. -/
theorem pairSend_pair (type : Nat) (body : List Byte) (s : State) : ∃ p, pairSend type body s = { s with pair := p } := by
  unfold pairSend; split
  · exact ⟨_, rfl⟩
  · exact ⟨s.pair, rfl⟩
theorem pairSend_upd (type : Nat) (body : List Byte) (s : State) (f : PairX → PairX) :
    ∃ p, pairSend type body (s.updPair f) = { s with pair := p } := by
  obtain ⟨p, hp⟩ := pairSend_pair type body (s.updPair f)
  exact ⟨p, hp⟩
theorem sendHeartbeat_pair (s : State) : ∃ p, sendHeartbeat s = { s with pair := p } := by
  unfold sendHeartbeat; split
  · exact ⟨s.pair, rfl⟩
  · exact pairSend_upd _ _ _ _
/-- Fencing changes the pair page and records its event. -/
theorem fence_pages (c : Nat) (s : State) : s.OnPages (fence c s) [pgPair, pgLedger] := by
  unfold fence
  split
  · refine State.OnPages.raise ?_ _ _ (by decide) (by decide) (by decide)
    refine State.OnPages.keep (t := ((setRole 5 s).set F.Pair.FENCE_CAUSE pgPair c).set F.Pair.GUARDED pgPair 0) ?_ ?_
    · exact (((State.OnPages.refl _ _).set _ (by decide) (by decide) (by decide)).set _ (by decide) (by decide) (by decide)).set _ (by decide) (by decide) (by decide)
    · obtain ⟨p, hp⟩ := sendHeartbeat_pair ((((setRole 5 s).set F.Pair.FENCE_CAUSE pgPair c).set F.Pair.GUARDED pgPair 0).updPair (fun x => { x with expiry := none, claim := false }))
      rw [hp]; rfl
  · exact .refl _ _
theorem pairLinkDown_pages (s : State) : s.OnPages (pairLinkDown s) [pgPair, pgLedger] := by
  unfold pairLinkDown; split
  · exact fence_pages 5 s
  · exact .refl _ _
/-- A GO of this cycle is refused on the mode page and in the Ledger. -/
theorem refuseGo_pages (s : State) : s.OnPages (refuseGo s) [pgMode, pgLedger] := by
  unfold refuseGo
  split
  · split
    · exact (((State.OnPages.refl s _).keep (u := { s with mode := { s.mode with goAt := none } }) rfl).set _ (by decide)
        (by decide) (by decide)).raise _ _ (by decide) (by decide) (by decide)
    · exact .refl _ _
  · exact .refl _ _
theorem refuseGo_cause (s : State) :
    (refuseGo s).get F.Mode.SAFE_HOLD_CAUSE pgMode = s.get F.Mode.SAFE_HOLD_CAUSE pgMode := by
  unfold refuseGo
  split
  · split
    · refine (State.get_raise_off _ _ (by decide) (by decide) (by decide) (by decide)).trans ((State.get_set_off _ (by decide)).trans ?_)
      unfold State.get State.getI; rfl
    · rfl
  · rfl
theorem leaveDormant_regs (s : State) : (leaveDormant s).regs = s.regs := by
  unfold leaveDormant; split <;> rfl
/-- A Safe-Hold cause changes the mode page and the Ledger. -/
theorem setCause_pages (i : Nat) (s : State) : s.OnPages (setCause i s) [pgMode, pgLedger] := by
  have h0 : s.OnPages (s.set F.Mode.SAFE_HOLD_CAUSE pgMode (setBit (s.get F.Mode.SAFE_HOLD_CAUSE pgMode) i)) [pgMode, pgLedger] :=
    (State.OnPages.refl s _).set _ (by decide) (by decide) (by decide)
  have h1 : s.OnPages (refuseGo ((s.set F.Mode.SAFE_HOLD_CAUSE pgMode (setBit (s.get F.Mode.SAFE_HOLD_CAUSE pgMode) i)).stamp
      (setKey F.Mode.SAFE_HOLD_CAUSE pgMode i) s.now)) [pgMode, pgLedger] := by
    refine State.OnPages.trans (h0.keep ?_) (refuseGo_pages _)
    unfold State.stamp; rfl
  unfold setCause
  split
  · exact .refl _ _
  · dsimp only
    generalize refuseGo _ = t at h1 ⊢
    have h2 := h1.keep (leaveDormant_regs t)
    split
    · split
      · exact (h2.set _ (by decide) (by decide) (by decide)).set _ (by decide) (by decide) (by decide)
      · exact h1
    · split
      · exact h1
      · exact (h2.set _ (by decide) (by decide) (by decide)).set _ (by decide) (by decide) (by decide)
/-- A Safe-Hold cause latches outside Dormant. -/
theorem setCause_bit (i : Nat) (s : State) (h : s.modeNow ≠ 0) (hi : i < F.Mode.SAFE_HOLD_CAUSE.w) :
    bitAt ((setCause i s).get F.Mode.SAFE_HOLD_CAUSE pgMode) i = true := by
  have h1 : bitAt ((refuseGo ((s.set F.Mode.SAFE_HOLD_CAUSE pgMode (setBit (s.get F.Mode.SAFE_HOLD_CAUSE pgMode) i)).stamp
      (setKey F.Mode.SAFE_HOLD_CAUSE pgMode i) s.now)).get F.Mode.SAFE_HOLD_CAUSE pgMode) i = true := by
    rw [refuseGo_cause]
    show bitAt ((s.set F.Mode.SAFE_HOLD_CAUSE pgMode (setBit (s.get F.Mode.SAFE_HOLD_CAUSE pgMode) i)).get F.Mode.SAFE_HOLD_CAUSE
      pgMode) i = true
    rw [State.get_set_self, bitAt_low hi]; exact bitAt_setBit_self _ _
  unfold setCause
  rw [if_neg h]
  dsimp only
  generalize refuseGo _ = t at h1 ⊢
  have h2 : (leaveDormant t).get F.Mode.SAFE_HOLD_CAUSE pgMode = t.get F.Mode.SAFE_HOLD_CAUSE pgMode := by
    unfold State.get State.getI; rw [leaveDormant_regs]
  split
  · split
    · rw [State.get_set_off _ (by decide), State.get_set_off _ (by decide), h2]; exact h1
    · exact h1
  · split
    · exact h1
    · unfold startTransition
      rw [State.get_set_off _ (by decide), State.get_set_off _ (by decide), h2]; exact h1

end Sys2Proof.Machine
end

