-- ==== Sys2Proof/WellFormed.lean ====
section
/-! DEFINITION. Which commands are well formed: the unit that an operand names exists, and a word has 32 bits. A command that is not well
formed changes nothing, or acts on the low bits that a register of the part has. -/

namespace Sys2Proof

/-- The number names an owner identifier (R80). -/
def isOwner (n : Nat) : Bool := decide (n < 256)
/-- The number names a page slot (R51), or an input of the interrupt router (R593). -/
def isPage (n : Nat) : Bool := decide (n < 256)
/-- The number names a firing port. -/
def isPort (n : Nat) : Bool := decide (n < 48)
/-- The number names a region. -/
def isRegion (n : Nat) : Bool := decide (n < 4)
/-- The number names a CSI-2 link, or the parallel camera (Table 10-1). -/
def isLink (n : Nat) : Bool := decide (n < 3)
/-- The number names a virtual-channel slot of a link. -/
def isSlot (n : Nat) : Bool := decide (n < 4)
/-- The number names one of eight commit groups, mailboxes, triggers or cores. -/
def isEight (n : Nat) : Bool := decide (n < 8)
/-- The number names one of four channels, job slots, dividers or captures. -/
def isFour (n : Nat) : Bool := decide (n < 4)
/-- The number names a compare unit. -/
def isUnit (n : Nat) : Bool := decide (n < 32)
/-- The number names a camera stream. -/
def isStream (n : Nat) : Bool := decide (n < 9)
/-- The number names a die, a Sagger channel or a switch port. -/
def isDie (n : Nat) : Bool := decide (n < 3)
/-- The number is a 32-bit word. -/
def isWord (n : Nat) : Bool := decide (n < 2 ^ 32)
/-- The number names one of two. -/
def isTwo (n : Nat) : Bool := decide (n < 2)
/-- The number names a Coil lane: 0 to 47 of the heads, 48 and 49 of the pair. -/
def isLane (n : Nat) : Bool := decide (n < 50)
/-- The number is a byte offset in a page or an aperture. -/
def isOffset (n : Nat) : Bool := decide (n < 2 ^ 22)
/-- The number names a phase bin (Table 1-10). -/
def isPhase (n : Nat) : Bool := decide (n < 16)
/-- The number is a mask of calibration categories. -/
def isSix (n : Nat) : Bool := decide (n < 64)
/-- The number names a lock. -/
def isLock (n : Nat) : Bool := decide (n < 64)
/-- The number names a rail. -/
def isRail (n : Nat) : Bool := decide (n < 16)
/-- The number names a requester of the Stacks Bus. -/
def isRequester (n : Nat) : Bool := decide (n < 15)
/-- The number names a cluster. -/
def isCluster (n : Nat) : Bool := decide (n < 12)
/-- The number names a header word, or a waveform table. -/
def isHeader (n : Nat) : Bool := decide (n < 16)

/-- The command is well formed. -/
def Instr.wf : Instr → Bool
  | .registerWrite pg _ off data owner => isPage pg && isOffset off && isWord data && isOwner owner
  | .accessBusError _ _ => true
  | .unmappedAccess _ _ => true
  | .controlEnable pg _ => isPage pg
  | .controlHold pg _ => isPage pg
  | .controlQuiesce pg => isPage pg
  | .controlReleaseQuiesce pg => isPage pg
  | .controlFuncReset pg owner => isPage pg && isOwner owner
  | .quiesceTimeout pg => isPage pg
  | .commitRequest pg _ _ _ owner => isPage pg && isOwner owner
  | .commitCancel pg owner => isPage pg && isOwner owner
  | .commitLeadPoint pg => isPage pg
  | .commitSwap pg => isPage pg
  | .copyBackDone pg => isPage pg
  | .stoppedCommitSwap pg => isPage pg
  | .groupRequest g _ _ _ owner => isEight g && isOwner owner
  | .groupCancel g owner => isEight g && isOwner owner
  | .groupLeadPoint g => isEight g
  | .lockAcquire n owner => isLock n && isOwner owner
  | .lockRelease n owner => isLock n && isOwner owner
  | .lockClearBroken n owner => isLock n && isOwner owner
  | .eventStatusClear pg mask => isPage pg && isWord mask
  | .eventForce pg mask => isPage pg && isWord mask
  | .poolDrain => true
  | .ringHeaderRead pg word owner => isPage pg && isHeader word && isOwner owner
  | .ringQuiesce pg owner => isPage pg && isOwner owner
  | .ringReleaseQuiesce pg owner => isPage pg && isOwner owner
  | .ringFuncReset pg owner => isPage pg && isOwner owner
  | .ringFrameComplete _ => true
  | .modeGo _ _ owner => isOwner owner
  | .modeChange => true
  | .safeHoldEntry => true
  | .safeHoldCauseClear mask owner => isWord mask && isOwner owner
  | .autoIdle => true
  | .bisqueTimeout => true
  | .functionReady pg => isPage pg
  | .porstRelease _ => true
  | .porstAssert => true
  | .wakePin => true
  | .wakeTimerExpiry => true
  | .dormantEntry => true
  | .chunkReceived _ _ _ _ _ => true
  | .ringAllocate => true
  | .regionFolioStart r => isRegion r
  | .cacheEvict _ owner => isOwner owner
  | .evictComplete _ => true
  | .needPoint p _ => isPort p
  | .sliceDispatch r _ _ => isRegion r
  | .sliceEnd r _ => isRegion r
  | .jobStart slot owner => isFour slot && isOwner owner
  | .jobAbort slot owner => isFour slot && isOwner owner
  | .jobDone slot => isFour slot
  | .outFull slot => isFour slot
  | .jobSourceFault slot _ => isFour slot
  | .lineCompose r => isRegion r
  | .rectListDecode r _ => isRegion r
  | .lineScreen r _ => isRegion r
  | .thresholdWrite pg _ off data owner => isPage pg && isOffset off && isWord data && isOwner owner
  | .quadTransition ch _ _ ph => isFour ch && isPhase ph
  | .indexEvent ch _ _ ph => isFour ch && isPhase ph
  | .switchCodeChange ch _ _ ph => isFour ch && isPhase ph
  | .ssiFrameStart ch => isFour ch
  | .ssiFrameEnd ch _ _ _ _ _ => isFour ch
  | .chPreset ch owner => isFour ch && isOwner owner
  | .observerTick ch => isFour ch
  | .replicaMismatchClear ch owner => isFour ch && isOwner owner
  | .divSync d _ owner => isFour d && isOwner owner
  | .cmpArm mask owner => isWord mask && isOwner owner
  | .cmpDisarm mask owner => isWord mask && isOwner owner
  | .compareMatch u => isUnit u
  | .countCapture ch off owner => isFour ch && isOffset off && isOwner owner
  | .portArmed port => isPort port
  | .lineFire port _ _ => isPort port
  | .replayError port _ => isPort port
  | .tickleStrobe port => isPort port
  | .lanePllLock c => isCluster c
  | .lanePllLockLoss c => isCluster c
  | .laneMessageStart port => isPort port
  | .blockReceived lane _ _ _ => isLane lane
  | .markerMiss lane => isLane lane
  | .statusReceived port _ => isPort port
  | .tempReceived port _ => isPort port
  | .bridgeSilent port => isPort port
  | .laneTempStale port => isPort port
  | .waveDlGo port table _ _ owner => isPort port && isHeader table && isOwner owner
  | .waveDlTimeout port => isPort port
  | .bcfgSend port owner => isPort port && isOwner owner
  | .slotEnable l v owner => isLink l && isSlot v && isOwner owner
  | .slotDisable l v owner => isLink l && isSlot v && isOwner owner
  | .csiLongPacket l _ _ _ _ _ => isLink l
  | .csiFrameStart l _ _ _ => isLink l
  | .csiFrameEnd l _ _ => isLink l
  | .csiLineStart l _ _ => isLink l
  | .csiLineEnd l _ _ => isLink l
  | .phyError l _ _ => isLink l
  | .linkSilent l => isLink l
  | .parFrameStart _ => true
  | .parLine _ _ => true
  | .pipelineLine st _ _ => isStream st
  | .cciTransactionEnd l _ data => isLink l && isWord data
  | .cciDirectWrite l owner => isLink l && isOwner owner
  | .cciDirectRead l owner => isLink l && isOwner owner
  | .trackerLine => true
  | .solvePhase1End => true
  | .gainUpdateWrite r => isRegion r
  | .updateLockTimeout r => isRegion r
  | .updateReq _ mask owner => isWord mask && isOwner owner
  | .tdcRun mask owner => isWord mask && isOwner owner
  | .tdcCollectionEnd d => isDie d
  | .tdcLoopbackEnd d _ => isDie d
  | .tdcTableSwap d => isDie d
  | .calSave cats owner => isSix cats && isOwner owner
  | .calWithdraw cats owner => isSix cats && isOwner owner
  | .calApply cats owner => isSix cats && isOwner owner
  | .calCaptureTdc cats owner => isSix cats && isOwner owner
  | .calApplyDone => true
  | .memRequest _ _ _ port mask _ => port.all isPort && decide (mask < 2 ^ 64)
  | .memSchedule ch => isFour ch
  | .memReadData ch _ => isFour ch
  | .alertNLow ch => isFour ch
  | .refreshDue ch rank => isFour ch && isTwo rank
  | .zqDue ch => isFour ch
  | .memTempStale ch => isFour ch
  | .powerDownEntry ch => isFour ch
  | .selfRefreshEntry ch => isFour ch
  | .memFreqGo _ owner => isOwner owner
  | .trainFull owner => isOwner owner
  | .trainCheck owner => isOwner owner
  | .trainingEnd ch _ _ _ => isFour ch
  | .freqDone => true
  | .stacksRequest ix _ _ _ _ _ => isRequester ix
  | .stacksTenureEnd _ => true
  | .stacksWatchdog _ => true
  | .scrubRead die _ => isDie die
  | .dieLinkFlit link dir _ _ => isTwo link && isTwo dir
  | .dieLinkTrainingLost link => isTwo link
  | .frameReceived n _ _ _ _ _ => isTwo n
  | .frameTransmit n _ => isTwo n
  | .hostTxWrite _ owner => isOwner owner
  | .netLinkUp n => isTwo n
  | .netLinkDown n _ => isTwo n
  | .addressAgeOut _ _ => true
  | .tcEntryExpiry => true
  | .syncReceived port _ _ _ _ _ _ _ => isDie port
  | .followUpReceived port _ _ _ _ => isDie port
  | .delayRespReceived port _ _ _ _ _ _ => isDie port
  | .announceReceived port _ _ _ _ _ => isDie port
  | .delayReqSend => true
  | .announceTimeout => true
  | .syncLoss => true
  | .ptpRequalify _ owner => isOwner owner
  | .convCountWrite _ owner => isOwner owner
  | .timeCaptureRead owner => isOwner owner
  | .trigArm mask owner => isWord mask && isOwner owner
  | .trigDisarm mask owner => isWord mask && isOwner owner
  | .triggerFire k => isEight k
  | .tcapEdge c _ => isFour c
  | .capPop mask owner => isWord mask && isOwner owner
  | .heartbeatSend => true
  | .renewal => true
  | .heartbeatReceived lane _ => isTwo lane
  | .hbPinFrameReceived _ => true
  | .hbPathTimeout _ => true
  | .leaseExpiry => true
  | .takeoverTest => true
  | .pairRelease _ owner => isOwner owner
  | .pairClaim owner => isOwner owner
  | .pairJoin owner => isOwner owner
  | .lineCrcReceived port _ _ _ => isPort port
  | .posLatchReceived _ _ _ => true
  | .mirrorWriteReceived region _ _ off _ => isRegion region && isOffset off
  | .mirrorCommitReceived region _ => isRegion region
  | .mirrorLockTimeout region => isRegion region
  | .snapReqReceived => true
  | .snapDataReceived _ off _ => isOffset off
  | .joinPortReceived port _ _ => isPort port
  | .snapEndReceived _ _ => true
  | .snapTimeout => true
  | .rejoinRetry => true
  | .pairPllLockLoss => true
  | .saggerPowerOn => true
  | .vddSagOutOfRange => true
  | .selftestEnd _ => true
  | .saggerCycle _ _ _ _ _ _ => true
  | .saggerAdcRound _ _ _ => true
  | .ovComparatorTrip c _ => isCluster c
  | .channelWatchdogTimeout ch => isDie ch
  | .sagStart owner => isOwner owner
  | .sagStop _ owner => isOwner owner
  | .sagReset owner => isOwner owner
  | .resetButtonRelease _ => true
  | .paramKeyWrite value owner => isWord value && isOwner owner
  | .paramCommit owner => isOwner owner
  | .hkRound _ => true
  | .slowdownSend => true
  | .headSdAck _ mask owner => isWord mask && isOwner owner
  | .railStepDone _ => true
  | .railRiseTimeout k => isRail k
  | .railFallStep _ => true
  | .pmbusPoll _ => true
  | .pmbusTimeout k _ => isRail k
  | .pmbAlert _ => true
  | .clearFault _ owner => isOwner owner
  | .coreOvercurrent _ _ => true
  | .coreOutOfWindow _ => true
  | .phaseShed _ => true
  | .journalRecordProgrammed _ => true
  | .journalClose => true
  | .journalSave pg owner => isPage pg && isOwner owner
  | .cpuWatchdog k => isFour k
  | .watchdogKick k owner => isFour k && isOwner owner
  | .hostCoreRelease mask owner => isWord mask && isOwner owner
  | .tenderRun mask owner => isWord mask && isOwner owner
  | .tenderFault r _ _ => isRegion r
  | .cacheError _ _ _ => true
  | .bootStart _ => true
  | .bootCandidateEnd _ => true
  | .norReadPage owner => isOwner owner
  | .norProgramPage owner => isOwner owner
  | .norEraseSector owner => isOwner owner
  | .norOpDone => true
  | .mboxPush m d hi owner => isEight m && isTwo d && isWord hi && isOwner owner
  | .mboxPop m d owner => isEight m && isTwo d && isOwner owner
  | .claim k => isEight k
  | .complete k ix owner => isEight k && isPage ix && isOwner owner
  | .l2Clean owner => isOwner owner
  | .l2Invalidate owner => isOwner owner
  | .l2CleanInvalidate owner => isOwner owner
  | .l2MaintDone _ => true
  | .pairPllLock => true
  | .messageWhollySent port => isPort port
  | .testSequenceLock port _ => isPort port
  | .updateIntervalExpiry p => isPort p
  | .paramKeyTimeout => true
  | .journalEraseDone => true
  | .externalPowerLoss => true

end Sys2Proof
end

