-- ==== Sys2Proof/Laws/OfStep.lean ====
section
/-! SUPPORT. Lemmas that the statements about one step rest on. -/

-- One declaration after another: the package is also checked as one text, where too many threads would start at once.
set_option Elab.async false

set_option linter.unusedVariables false
set_option linter.unusedSimpArgs false

namespace Sys2Proof.Machine

theorem kept_exec {u₀ s : State} (c : Instr) (h : Kept u₀ s) : KeptO u₀ (exec c s) := by
  cases c with
  | registerWrite => exact kept_execRegisterWrite h
  | accessBusError => exact kept_execAccessBusError h
  | unmappedAccess => exact kept_execUnmappedAccess h
  | controlEnable => exact kept_execControlEnable h
  | controlHold => exact kept_execControlHold h
  | controlQuiesce => exact kept_execControlQuiesce h
  | controlReleaseQuiesce => exact kept_execControlReleaseQuiesce h
  | controlFuncReset => exact kept_execControlFuncReset h
  | quiesceTimeout => exact kept_execQuiesceTimeout h
  | commitRequest => exact kept_execCommitRequest h
  | commitCancel => exact kept_execCommitCancel h
  | commitLeadPoint => exact kept_execCommitLeadPoint h
  | commitSwap => exact kept_execCommitSwap h
  | copyBackDone => exact kept_execCopyBackDone h
  | stoppedCommitSwap => exact kept_execStoppedCommitSwap h
  | groupRequest => exact kept_execGroupRequest h
  | groupCancel => exact kept_execGroupCancel h
  | groupLeadPoint => exact kept_execGroupLeadPoint h
  | lockAcquire => exact kept_execLockAcquire h
  | lockRelease => exact kept_execLockRelease h
  | lockClearBroken => exact kept_execLockClearBroken h
  | eventStatusClear => exact kept_execEventStatusClear h
  | eventForce => exact kept_execEventForce h
  | poolDrain => exact kept_execPoolDrain h
  | ringHeaderRead => exact kept_execRingHeaderRead h
  | ringQuiesce => exact kept_execRingQuiesce h
  | ringReleaseQuiesce => exact kept_execRingReleaseQuiesce h
  | ringFuncReset => exact kept_execRingFuncReset h
  | ringFrameComplete => exact kept_execRingFrameComplete h
  | modeGo => exact kept_execModeGo h
  | modeChange => exact kept_execModeChange h
  | safeHoldEntry => exact kept_execSafeHoldEntry h
  | safeHoldCauseClear => exact kept_execSafeHoldCauseClear h
  | autoIdle => exact kept_execAutoIdle h
  | bisqueTimeout => exact kept_execBisqueTimeout h
  | functionReady => exact kept_execFunctionReady h
  | porstRelease => exact kept_execPorstRelease h
  | porstAssert => exact kept_execPorstAssert h
  | wakePin => exact kept_execWakePin h
  | wakeTimerExpiry => exact kept_execWakeTimerExpiry h
  | dormantEntry => exact kept_execDormantEntry h
  | chunkReceived => exact kept_execChunkReceived h
  | ringAllocate => exact kept_execRingAllocate h
  | regionFolioStart => exact kept_execRegionFolioStart h
  | cacheEvict => exact kept_execCacheEvict h
  | evictComplete => exact kept_execEvictComplete h
  | needPoint => exact kept_execNeedPoint h
  | sliceDispatch => exact kept_execSliceDispatch h
  | sliceEnd => exact kept_execSliceEnd h
  | jobStart => exact kept_execJobStart h
  | jobAbort => exact kept_execJobAbort h
  | jobDone => exact kept_execJobDone h
  | outFull => exact kept_execOutFull h
  | jobSourceFault => exact kept_execJobSourceFault h
  | lineCompose => exact kept_execLineCompose h
  | rectListDecode => exact kept_execRectListDecode h
  | lineScreen => exact kept_execLineScreen h
  | thresholdWrite => exact kept_execThresholdWrite h
  | quadTransition => exact kept_execQuadTransition h
  | indexEvent => exact kept_execIndexEvent h
  | switchCodeChange => exact kept_execSwitchCodeChange h
  | ssiFrameStart => exact kept_execSsiFrameStart h
  | ssiFrameEnd => exact kept_execSsiFrameEnd h
  | chPreset => exact kept_execChPreset h
  | observerTick => exact kept_execObserverTick h
  | replicaMismatchClear => exact kept_execReplicaMismatchClear h
  | divSync => exact kept_execDivSync h
  | cmpArm => exact kept_execCmpArm h
  | cmpDisarm => exact kept_execCmpDisarm h
  | compareMatch => exact kept_execCompareMatch h
  | countCapture => exact kept_execCountCapture h
  | portArmed => exact kept_execPortArmed h
  | lineFire => exact kept_execLineFire h
  | replayError => exact kept_execReplayError h
  | tickleStrobe => exact kept_execTickleStrobe h
  | lanePllLock => exact kept_execLanePllLock h
  | lanePllLockLoss => exact kept_execLanePllLockLoss h
  | laneMessageStart => exact kept_execLaneMessageStart h
  | blockReceived => exact kept_execBlockReceived h
  | markerMiss => exact kept_execMarkerMiss h
  | statusReceived => exact kept_execStatusReceived h
  | tempReceived => exact kept_execTempReceived h
  | bridgeSilent => exact kept_execBridgeSilent h
  | laneTempStale => exact kept_execLaneTempStale h
  | waveDlGo => exact kept_execWaveDlGo h
  | waveDlTimeout => exact kept_execWaveDlTimeout h
  | bcfgSend => exact kept_execBcfgSend h
  | slotEnable => exact kept_execSlotEnable h
  | slotDisable => exact kept_execSlotDisable h
  | csiLongPacket => exact kept_execCsiLongPacket h
  | csiFrameStart => exact kept_execCsiFrameStart h
  | csiFrameEnd => exact kept_execCsiFrameEnd h
  | csiLineStart => exact kept_execCsiLineStart h
  | csiLineEnd => exact kept_execCsiLineEnd h
  | phyError => exact kept_execPhyError h
  | linkSilent => exact kept_execLinkSilent h
  | parFrameStart => exact kept_execParFrameStart h
  | parLine => exact kept_execParLine h
  | pipelineLine => exact kept_execPipelineLine h
  | cciTransactionEnd => exact kept_execCciTransactionEnd h
  | cciDirectWrite => exact kept_execCciDirectWrite h
  | cciDirectRead => exact kept_execCciDirectRead h
  | trackerLine => exact kept_execTrackerLine h
  | solvePhase1End => exact kept_execSolvePhase1End h
  | gainUpdateWrite => exact kept_execGainUpdateWrite h
  | updateLockTimeout => exact kept_execUpdateLockTimeout h
  | updateReq => exact kept_execUpdateReq h
  | tdcRun => exact kept_execTdcRun h
  | tdcCollectionEnd => exact kept_execTdcCollectionEnd h
  | tdcLoopbackEnd => exact kept_execTdcLoopbackEnd h
  | tdcTableSwap => exact kept_execTdcTableSwap h
  | calSave => exact kept_execCalSave h
  | calWithdraw => exact kept_execCalWithdraw h
  | calApply => exact kept_execCalApply h
  | calCaptureTdc => exact kept_execCalCaptureTdc h
  | calApplyDone => exact kept_execCalApplyDone h
  | memRequest => exact kept_execMemRequest h
  | memSchedule => exact kept_execMemSchedule h
  | memReadData => exact kept_execMemReadData h
  | alertNLow => exact kept_execAlertNLow h
  | refreshDue => exact kept_execRefreshDue h
  | zqDue => exact kept_execZqDue h
  | memTempStale => exact kept_execMemTempStale h
  | powerDownEntry => exact kept_execPowerDownEntry h
  | selfRefreshEntry => exact kept_execSelfRefreshEntry h
  | memFreqGo => exact kept_execMemFreqGo h
  | trainFull => exact kept_execTrainFull h
  | trainCheck => exact kept_execTrainCheck h
  | trainingEnd => exact kept_execTrainingEnd h
  | freqDone => exact kept_execFreqDone h
  | stacksRequest => exact kept_execStacksRequest h
  | stacksTenureEnd => exact kept_execStacksTenureEnd h
  | stacksWatchdog => exact kept_execStacksWatchdog h
  | scrubRead => exact kept_execScrubRead h
  | dieLinkFlit => exact kept_execDieLinkFlit h
  | dieLinkTrainingLost => exact kept_execDieLinkTrainingLost h
  | frameReceived => exact kept_execFrameReceived h
  | frameTransmit => exact kept_execFrameTransmit h
  | hostTxWrite => exact kept_execHostTxWrite h
  | netLinkUp => exact kept_execNetLinkUp h
  | netLinkDown => exact kept_execNetLinkDown h
  | addressAgeOut => exact kept_execAddressAgeOut h
  | tcEntryExpiry => exact kept_execTcEntryExpiry h
  | syncReceived => exact kept_execSyncReceived h
  | followUpReceived => exact kept_execFollowUpReceived h
  | delayRespReceived => exact kept_execDelayRespReceived h
  | announceReceived => exact kept_execAnnounceReceived h
  | delayReqSend => exact kept_execDelayReqSend h
  | announceTimeout => exact kept_execAnnounceTimeout h
  | syncLoss => exact kept_execSyncLoss h
  | ptpRequalify => exact kept_execPtpRequalify h
  | convCountWrite => exact kept_execConvCountWrite h
  | timeCaptureRead => exact kept_execTimeCaptureRead h
  | trigArm => exact kept_execTrigArm h
  | trigDisarm => exact kept_execTrigDisarm h
  | triggerFire => exact kept_execTriggerFire h
  | tcapEdge => exact kept_execTcapEdge h
  | capPop => exact kept_execCapPop h
  | heartbeatSend => exact kept_execHeartbeatSend h
  | renewal => exact kept_execRenewal h
  | heartbeatReceived => exact kept_execHeartbeatReceived h
  | hbPinFrameReceived => exact kept_execHbPinFrameReceived h
  | hbPathTimeout => exact kept_execHbPathTimeout h
  | leaseExpiry => exact kept_execLeaseExpiry h
  | takeoverTest => exact kept_execTakeoverTest h
  | pairRelease => exact kept_execPairRelease h
  | pairClaim => exact kept_execPairClaim h
  | pairJoin => exact kept_execPairJoin h
  | lineCrcReceived => exact kept_execLineCrcReceived h
  | posLatchReceived => exact kept_execPosLatchReceived h
  | mirrorWriteReceived => exact kept_execMirrorWriteReceived h
  | mirrorCommitReceived => exact kept_execMirrorCommitReceived h
  | mirrorLockTimeout => exact kept_execMirrorLockTimeout h
  | snapReqReceived => exact kept_execSnapReqReceived h
  | snapDataReceived => exact kept_execSnapDataReceived h
  | joinPortReceived => exact kept_execJoinPortReceived h
  | snapEndReceived => exact kept_execSnapEndReceived h
  | snapTimeout => exact kept_execSnapTimeout h
  | rejoinRetry => exact kept_execRejoinRetry h
  | pairPllLockLoss => exact kept_execPairPllLockLoss h
  | saggerPowerOn => exact kept_execSaggerPowerOn h
  | vddSagOutOfRange => exact kept_execVddSagOutOfRange h
  | selftestEnd => exact kept_execSelftestEnd h
  | saggerCycle => exact kept_execSaggerCycle h
  | saggerAdcRound => exact kept_execSaggerAdcRound h
  | ovComparatorTrip => exact kept_execOvComparatorTrip h
  | channelWatchdogTimeout => exact kept_execChannelWatchdogTimeout h
  | sagStart => exact kept_execSagStart h
  | sagStop => exact kept_execSagStop h
  | sagReset => exact kept_execSagReset h
  | resetButtonRelease => exact kept_execResetButtonRelease h
  | paramKeyWrite => exact kept_execParamKeyWrite h
  | paramCommit => exact kept_execParamCommit h
  | hkRound => exact kept_execHkRound h
  | slowdownSend => exact kept_execSlowdownSend h
  | headSdAck => exact kept_execHeadSdAck h
  | railStepDone => exact kept_execRailStepDone h
  | railRiseTimeout => exact kept_execRailRiseTimeout h
  | railFallStep => exact kept_execRailFallStep h
  | pmbusPoll => exact kept_execPmbusPoll h
  | pmbusTimeout => exact kept_execPmbusTimeout h
  | pmbAlert => exact kept_execPmbAlert h
  | clearFault => exact kept_execClearFault h
  | coreOvercurrent => exact kept_execCoreOvercurrent h
  | coreOutOfWindow => exact kept_execCoreOutOfWindow h
  | phaseShed => exact kept_execPhaseShed h
  | journalRecordProgrammed => exact kept_execJournalRecordProgrammed h
  | journalClose => exact kept_execJournalClose h
  | journalSave => exact kept_execJournalSave h
  | cpuWatchdog => exact kept_execCpuWatchdog h
  | watchdogKick => exact kept_execWatchdogKick h
  | hostCoreRelease => exact kept_execHostCoreRelease h
  | tenderRun => exact kept_execTenderRun h
  | tenderFault => exact kept_execTenderFault h
  | cacheError => exact kept_execCacheError h
  | bootStart => exact kept_execBootStart h
  | bootCandidateEnd => exact kept_execBootCandidateEnd h
  | norReadPage => exact kept_execNorReadPage h
  | norProgramPage => exact kept_execNorProgramPage h
  | norEraseSector => exact kept_execNorEraseSector h
  | norOpDone => exact kept_execNorOpDone h
  | mboxPush => exact kept_execMboxPush h
  | mboxPop => exact kept_execMboxPop h
  | claim => exact kept_execClaim h
  | complete => exact kept_execComplete h
  | l2Clean => exact kept_execL2Clean h
  | l2Invalidate => exact kept_execL2Invalidate h
  | l2CleanInvalidate => exact kept_execL2CleanInvalidate h
  | l2MaintDone => exact kept_execL2MaintDone h
  | pairPllLock => exact kept_execPairPllLock h
  | messageWhollySent => exact kept_execMessageWhollySent h
  | testSequenceLock => exact kept_execTestSequenceLock h
  | updateIntervalExpiry => exact kept_execUpdateIntervalExpiry h
  | paramKeyTimeout => exact kept_execParamKeyTimeout h
  | journalEraseDone => exact kept_execJournalEraseDone h
  | externalPowerLoss => exact kept_execExternalPowerLoss h

theorem kept_channelLoads {u₀ s : State} (h : Kept u₀ s) : Kept u₀ (channelLoads s) := by
  unfold channelLoads
  exact Kept.ite (Kept.forAll h (fun _ _ h1 => Kept.ite (kept_freshLoad h1) h1)) h

theorem kept_cycleEnd {u₀ s : State} (h : Kept u₀ s) : Kept u₀ (cycleEnd s) :=
  kept_transmitters (kept_cmpNext (kept_settleBalls h))

theorem kept_retries {u₀ s : State} (h : Kept u₀ s) : Kept u₀ (retries s) :=
  kept_hostRetry (Kept.forAll h (fun _ _ h1 => Kept.ite (kept_portRelease h1) h1))

theorem canonical_tick {s : State} (h : s.Canonical) : (tick s).Canonical ∧ (tick s).now = s.now + 1 ∧ (tick s).pending = s.pending := by
  unfold tick
  have h0 : Kept s (cycleEnd s) := kept_cycleEnd (Kept.refl h)
  dsimp only
  generalize cycleEnd s = s1 at h0 ⊢
  have h1 : Kept { s1 with now := s1.now + 1 } (channelLoads (retries (forAll (List.range Config.ports)
      { s1 with now := s1.now + 1 } settlePort))) :=
    kept_channelLoads (kept_retries (Kept.forAll (Kept.refl h0.2) fun _ _ => kept_settlePort))
  exact ⟨h1.2, by rw [h1.1.1]; exact congrArg (· + 1) h0.1.1, h1.1.2.1.trans h0.1.2.1⟩

end Sys2Proof.Machine
end

