-- ==== Sys2Proof/Laws/OfLocks.lean ====
section
/-! SUPPORT. Lemmas that the statements about the locks rest on. -/

-- One declaration after another: the package is also checked as one text, where too many threads would start at once.
set_option Elab.async false

set_option linter.unusedVariables false
set_option linter.unusedSimpArgs false

namespace Sys2Proof.Machine

theorem clear_fold (l : List Nat) (p : Nat → Bool) (v j : Nat) :
    bitAt (l.foldl (fun v i => if p i then clearBit v i else v) v) j = (bitAt v j && !(decide (j ∈ l) && p j)) := by
  induction l generalizing v with
  | nil => simp
  | cons a l ih =>
    rw [List.foldl_cons, ih]
    by_cases h : p a = true
    · simp only [h, if_true, bitAt_clearBit]
      by_cases ha : a = j
      · subst ha; simp [h]
      · simp [ha, Ne.symm ha]
    · simp only [h]
      by_cases ha : a = j
      · subst ha; simp [h]
      · simp [Ne.symm ha]

theorem forAll_single {α : Type} [DecidableEq α] (l : List α) (s : State) (f : α → State → State) (i : α) (hi : i ∈ l) (hn : l.Nodup)
    (h : ∀ a ∈ l, a ≠ i → ∀ s, f a s = s) : forAll l s f = f i s := by
  have hid : ∀ (l : List α) s, (∀ a ∈ l, ∀ s, f a s = s) → forAll l s f = s := by
    intro l; induction l with
    | nil => intros; rfl
    | cons a l ih => intro s hl; show forAll l (f a s) f = s; rw [hl a (by simp), ih _ fun b hb => hl b (by simp [hb])]
  induction l generalizing s with
  | nil => simp at hi
  | cons a l ih =>
    show forAll l (f a s) f = f i s
    by_cases ha : a = i
    · subst ha; exact hid l _ fun b hb => h b (by simp [hb]) (by rintro rfl; exact (List.nodup_cons.mp hn).1 hb)
    · rw [h a (by simp) ha s]
      exact ih s (by simpa [Ne.symm ha] using hi) (List.nodup_cons.mp hn).2 fun b hb => h b (by simp [hb])

theorem raiseX_status (s : State) (e : Ev) (pg arg sub sev : Nat) (fo : Bool) (hp : pg ≠ pgLedger) :
    (s.raiseX e pg arg sub sev fo).get F.Hdr.EVENT_STATUS pg = low 32 (setBit (s.get F.Hdr.EVENT_STATUS pg) e.bit) := by
  unfold State.raiseX
  dsimp only [State.set, State.get]
  split
  · exact State.getI_setI_self _ _ _ _ _
  · rw [show ∀ (t : State) w, State.getI { t with stamps := w } F.Hdr.EVENT_STATUS pg 0 = t.getI F.Hdr.EVENT_STATUS pg 0 from
        fun _ _ => rfl,
      State.ledgerPut_getI _ _ _ (by decide) (by decide) hp, State.getI_setI_page _ _ (by decide) (by decide) (by decide) (by decide) hp,
      State.getI_setI_self]
    rfl

end Sys2Proof.Machine
end

