-- ==== Sys2Proof/Laws/OfAccess.lean ====
section
/-! SUPPORT. Lemmas that the statements about its unit: Access rest on. -/

-- One declaration after another: the package is also checked as one text, where too many threads would start at once.
set_option Elab.async false

set_option linter.unusedVariables false
set_option linter.unusedSimpArgs false

namespace Sys2Proof.Machine

@[simp] theorem bndOf_updBnd (s : State) (pg : Nat) (f : Bnd → Bnd) : (s.updBnd pg f).bndOf pg = f (s.bndOf pg) := by
  simp [State.updBnd, State.bndOf]

theorem groupCancel_bnd (g : Nat) (s : State) : (groupCancel g s).bnd = s.bnd := by
  unfold groupCancel; split <;> rfl

theorem ringJoin_resetting (pg q : Nat) (s : State) : (ringJoin pg s).bndOf q = s.bndOf q := rfl

theorem ringJoin_status (pg q : Nat) (f : Fld) (s : State) : (ringJoin pg s).get f q = s.get f q := rfl

theorem raise_bit (s : State) (e : Ev) {pg : Nat} (arg : Nat) (hp : pg ≠ pgLedger) (hb : e.bit < 32) :
    bitAt ((s.raise e pg arg).get F.Hdr.EVENT_STATUS pg) e.bit = true := by
  rw [State.raise_status _ _ _ _ hp, bitAt_low hb]; exact bitAt_setBit_self _ _

end Sys2Proof.Machine
end

