-- ==== Sys2Proof/Laws/OfCommit.lean ====
section
/-! SUPPORT. Lemmas that the statements about its unit: Commit rest on. -/

-- One declaration after another: the package is also checked as one text, where too many threads would start at once.
set_option Elab.async false

set_option linter.unusedVariables false
set_option linter.unusedSimpArgs false

namespace Sys2Proof.Machine

theorem hasBoundary_lt {pg : Nat} (h : hasBoundary pg = true) : 0x010 ≤ pg ∧ pg ≤ 0x078 := by
  unfold hasBoundary boundaryKind within at h
  simp only [bne_iff_ne, ne_eq] at h
  split at h
  · rename_i h1
    simp only [Bool.or_eq_true, Bool.and_eq_true, decide_eq_true_eq, beq_iff_eq] at h1; omega
  · split at h
    · rename_i h1; simp only [Bool.and_eq_true, decide_eq_true_eq] at h1; omega
    · split at h
      · rename_i h1; simp only [beq_iff_eq] at h1; omega
      · exact absurd rfl h

/-- Header fields of the commit register leave the groups and the phase table alone. -/
theorem groupOf_setC (s : State) {pg p v : Nat} {f : Fld} (hb : hasBoundary pg = true) (hf : f.off + 0 * f.stride < 4096) (hl : f.lo < 32) (hp : p ≠ pgMode) :
    (s.set f p v).groupOf pg = s.groupOf pg := by
  unfold State.groupOf
  have hlt := (hasBoundary_lt hb).2
  have : ∀ g ∈ List.range 8, (s.set f p v).groupNames g pg = s.groupNames g pg := by
    intro g hg
    have hg : g < 8 := by simpa using hg
    unfold State.groupNames
    rw [State.set, State.getI_setI_page _ _ hf hl (by simp only [groupMask, F.Group.GROUP_MASK_0, fld, Fld.arr]; omega) (show (0 : Nat) < 32 by decide) (Ne.symm hp)]
  have hx : ∀ l : List Nat, (∀ g ∈ l, (s.set f p v).groupNames g pg = s.groupNames g pg) →
      l.find? (fun g => (s.set f p v).groupNames g pg) = l.find? (fun g => s.groupNames g pg) := by
    intro l; induction l with
    | nil => intro _; rfl
    | cons a l ih => intro h; simp only [List.find?_cons, h a (by simp), ih fun b hb => h b (by simp [hb])]
  exact hx _ this

theorem shadowBad_setC (s : State) {pg v : Nat} {f : Fld} (hf : f.off = 0xC) (hst : f.stride = 4) (hl : f.lo < 32) :
    (s.set f pg v).shadowBad pg = s.shadowBad pg := by
  unfold State.shadowBad State.phasesValid State.phases
  have a : (s.set f pg v).getShadow F.Port.PHASE_COUNT_M1 pg 0 = s.getShadow F.Port.PHASE_COUNT_M1 pg 0 := by
    simp only [State.getShadow, State.set, State.setI]
    refine tget_tputD_ne _ _ _ _ ?_
    simp only [Fld.key, Fld.shadowKey, hf, hst, F.Port.PHASE_COUNT_M1, fld]; omega
  have b : ∀ g : Fld, g.off ≠ 0xC → g.stride = 4 → g.lo < 32 → (s.set f pg v).get g pg = s.get g pg := by
    intro g h1 h2 h3
    refine State.getI_setI_ne _ _ ?_
    unfold Fld.key; rw [hf]; omega
  have c : (s.set f pg v).subDelay true pg = s.subDelay true pg := rfl
  simp only [if_true, a, c, b F.Port.STROBE_WIDTH (by decide) (by decide) (by decide), b F.Port.MIN_PERIOD (by decide) (by decide) (by decide)]

theorem get_setC (s : State) {pg v : Nat} {f g : Fld} (h : f.lo ≠ g.lo) (hf : f.lo < 32) (hg : g.lo < 32) :
    (s.set f pg v).get g pg = s.get g pg := State.getI_setI_ne _ _ (Fld.key_ne_lo (Ne.symm h) hg hf)

theorem bodyFields_off (pg : Nat) : ∀ f ∈ bodyFields pg, 0x40 ≤ f.off := by
  have h : ∀ l : List Fld, l.all (fun f => decide (0x40 ≤ f.off)) = true → ∀ f ∈ l, 0x40 ≤ f.off := by
    intro l hl f hf; simpa using List.all_eq_true.mp hl f hf
  apply h
  have hi : ∀ {c : Prop} [Decidable c] {a b : List Fld}, a.all (fun f => decide (0x40 ≤ f.off)) = true →
      b.all (fun f => decide (0x40 ≤ f.off)) = true → (if c then a else b).all (fun f => decide (0x40 ≤ f.off)) = true := by
    intro c _ a b ha hb; split <;> assumption
  unfold bodyFields
  repeat' first | refine hi ?_ ?_ | decide +kernel

theorem swapField_get (s : State) (pg : Nat) (f g : Fld) (hf : 0x40 ≤ f.off) (hg : g.off < 0x40) (hs : g.stride = 4) (hl : g.lo < 32) :
    (swapField pg f s).get g pg = s.get g pg := by
  unfold swapField
  refine forAll_keeps _ _ _ (fun s => s.get g pg) (fun i s => ?_)
  have hk : g.key pg 0 ≠ f.key pg i := by unfold Fld.key; omega
  have hk' : g.key pg 0 ≠ f.shadowKey pg i := by unfold Fld.key Fld.shadowKey; omega
  show ((s.setI f pg i _).setShadow f pg i _).getI g pg 0 = _
  rw [State.getI_shadow_ne _ _ hk', State.getI_setI_ne _ _ hk]; rfl

theorem swapFields_get (s : State) (pg : Nat) (g : Fld) (hg : g.off < 0x40) (hs : g.stride = 4) (hl : g.lo < 32) :
    (swapWindows pg (forAll (shadowFields pg) s (swapField pg))).get g pg = s.get g pg := by
  show (forAll (shadowFields pg) s (swapField pg)).get g pg = _
  have h : ∀ (l : List Fld) (s : State), (∀ f ∈ l, 0x40 ≤ f.off) → (forAll l s (swapField pg)).get g pg = s.get g pg := by
    intro l; induction l with
    | nil => intros; rfl
    | cons f l ih =>
      intro s hl'
      show (forAll l (swapField pg f s) (swapField pg)).get g pg = _
      rw [ih _ fun b hb => hl' b (by simp [hb]), swapField_get _ _ _ _ (hl' f (by simp)) hg hs hl]
  exact h _ _ fun f hf => bodyFields_off pg f (List.mem_of_mem_filter hf)

theorem afterSwap_id {pg : Nat} (h1 : boundaryKind pg ≠ 2) (h2 : within pg 0x06C 0x06F = false) (n : Nat) (s : State) : afterSwap pg n s = s := by
  have h3 : within pg 0x070 0x074 = false := by
    by_contra h
    simp only [Bool.not_eq_false] at h
    apply h1
    unfold boundaryKind
    rw [if_neg, if_pos h]
    simp only [within, Bool.and_eq_true, decide_eq_true_eq, Bool.or_eq_true, beq_iff_eq] at h ⊢
    omega
  simp only [within, Bool.and_eq_false_iff, decide_eq_false_iff_not] at h3
  unfold afterSwap
  rw [if_neg (by rw [h2]; simp), if_neg, if_neg, if_neg]
  · simp only [pgTap]; omega
  · simp only [pgPipe]; omega
  · simp only [within, Bool.and_eq_true, decide_eq_true_eq]; omega

@[simp] theorem bndOf_updBnd' (s : State) (pg : Nat) (f : Bnd → Bnd) : (s.updBnd pg f).bndOf pg = f (s.bndOf pg) := by
  simp [State.updBnd, State.bndOf]

theorem swapSets_facts (s : State) {pg : Nat} (h1 : boundaryKind pg ≠ 2) (h2 : within pg 0x06C 0x06F = false) :
    (swapSets pg s).cstate pg = 3 ∧ (swapSets pg s).get F.Hdr.ACTIVE_SET pg = low 1 (1 - s.get F.Hdr.ACTIVE_SET pg) := by
  unfold swapSets
  dsimp only
  rw [afterSwap_id h1 h2, swapFields_get _ _ _ (by decide) (by decide) (by decide)]
  generalize swapWindows pg (forAll (shadowFields pg) s (swapField pg)) = u
  constructor
  · show ((((u.set F.Hdr.ACTIVE_SET pg _).set F.Hdr.LATE pg 0).set F.Hdr.COMMIT_STATE pg 3)).get F.Hdr.COMMIT_STATE pg = 3
    rw [State.get_set_self]; decide
  · show ((((u.set F.Hdr.ACTIVE_SET pg _).set F.Hdr.LATE pg 0).set F.Hdr.COMMIT_STATE pg 3)).get F.Hdr.ACTIVE_SET pg = _
    rw [get_setC _ (by decide) (by decide) (by decide), get_setC _ (by decide) (by decide) (by decide), State.get_set_self]; rfl

end Sys2Proof.Machine
end

