-- ==== Sys2Proof/Laws/OfModes.lean ====
section
/-! SUPPORT. Lemmas that the statements about its unit: Modes rest on. -/

-- One declaration after another: the package is also checked as one text, where too many threads would start at once.
set_option Elab.async false

set_option linter.unusedVariables false
set_option linter.unusedSimpArgs false

namespace Sys2Proof.Machine

@[simp] theorem grpOf_updGrp (s : State) (g : Nat) (f : Grp → Grp) : (s.updGrp g f).grpOf g = f (s.grpOf g) := by
  simp [State.updGrp, State.grpOf]

theorem get_set_lo (s : State) {p q v : Nat} {f g : Fld} (h : g.lo ≠ f.lo) (hg : g.lo < 32) (hf : f.lo < 32) :
    (s.set f p v).get g q = s.get g q := State.getI_setI_ne _ _ (Fld.key_ne_lo h hg hf)

theorem get_set_off (s : State) {p v : Nat} {f g : Fld} (h : (g.off + 0 * g.stride) * 32 + g.lo ≠ (f.off + 0 * f.stride) * 32 + f.lo) :
    (s.set f p v).get g p = s.get g p := State.getI_setI_ne _ _ (Fld.key_ne h)

end Sys2Proof.Machine
end

