-- ==== Sys2Proof/Laws/OfIngest.lean ====
section
/-! SUPPORT. Lemmas that the statements about its unit: Ingest rest on. -/

-- One declaration after another: the package is also checked as one text, where too many threads would start at once.
set_option Elab.async false

set_option linter.unusedVariables false
set_option linter.unusedSimpArgs false

namespace Sys2Proof.Machine

theorem goRefusal_regs (s t : State) (dst : Nat) (h1 : t.modeNow = s.modeNow) (h2 : t.inTransition = s.inTransition)
    (h3 : t.missingPages = s.missingPages) (h4 : t.get F.Mode.SAFE_HOLD_CAUSE pgMode = s.get F.Mode.SAFE_HOLD_CAUSE pgMode)
    (h5 : sagOperate t = sagOperate s) (h6 : t.causeNow = s.causeNow) : t.goRefusal dst = s.goRefusal dst := by
  unfold State.goRefusal; rw [h1, h2, h3, h4, h5, h6]

theorem missing_set (s : State) (f : Fld) (v : Nat) (h : f.lo ≠ 0) (hl : f.lo < 32) : (s.set f pgMode v).missingPages = s.missingPages := by
  unfold State.missingPages State.ready State.on
  have : ∀ pg, (s.set f pgMode v).getI F.Rdy.REQUIRED pgReady (pg / 32) = s.getI F.Rdy.REQUIRED pgReady (pg / 32) := fun pg =>
    State.getI_setI_ne _ _ (Fld.key_ne_lo (fun h' => h h'.symm) (by decide) hl)
  have h2 : ∀ pg, (s.set f pgMode v).get F.Hdr.READY pg = s.get F.Hdr.READY pg := fun pg =>
    State.getI_setI_ne _ _ (Fld.key_ne_lo (fun h' => h h'.symm) (by decide) hl)
  simp only [this, h2]

theorem missing_set0 (s : State) (v : Nat) : (s.set F.Mode.REQ_MODE pgMode v).missingPages = s.missingPages := by
  unfold State.missingPages State.ready State.on
  have : ∀ pg, (s.set F.Mode.REQ_MODE pgMode v).getI F.Rdy.REQUIRED pgReady (pg / 32) = s.getI F.Rdy.REQUIRED pgReady (pg / 32) := fun pg =>
    State.getI_setI_ne _ _ (by unfold Fld.key; have h1 : F.Rdy.REQUIRED.off = 96 := rfl; have h2 : F.Rdy.REQUIRED.stride = 4 := rfl; have h3 : F.Rdy.REQUIRED.lo = 0 := rfl; have h4 : F.Mode.REQ_MODE.off = 64 := rfl; have h5 : F.Mode.REQ_MODE.lo = 0 := rfl; rw [h1, h2, h3, h4, h5]; simp only [pgReady, pgMode]; omega)
  have h2 : ∀ pg, (s.set F.Mode.REQ_MODE pgMode v).get F.Hdr.READY pg = s.get F.Hdr.READY pg := fun pg =>
    State.getI_setI_ne _ _ (by unfold Fld.key; have h1 : F.Hdr.READY.off = 4 := rfl; have h3 : F.Hdr.READY.lo = 0 := rfl; have h4 : F.Mode.REQ_MODE.off = 64 := rfl; have h5 : F.Mode.REQ_MODE.lo = 0 := rfl; rw [h1, h3, h4, h5]; simp only [pgMode]; omega)
  simp only [this, h2]

end Sys2Proof.Machine
end

