-- ==== Sys2Proof/Laws/OfJobs.lean ====
section
/-! SUPPORT. Lemmas that the statements about its unit: Jobs rest on. -/

-- One declaration after another: the package is also checked as one text, where too many threads would start at once.
set_option Elab.async false

set_option linter.unusedVariables false
set_option linter.unusedSimpArgs false

namespace Sys2Proof.Machine

theorem forAll_mem {α : Type} (l : List α) (s : State) (f : α → State → State) (P : State → Prop) (h0 : P s)
    (h : ∀ a ∈ l, ∀ s, P s → P (f a s)) : P (forAll l s f) := by
  unfold forAll
  induction l generalizing s with
  | nil => exact h0
  | cons a l ih => exact ih _ (h a (by simp) s h0) fun b hb => h b (by simp [hb])

theorem sagShown_ok : ∀ f ∈ sagShown, f.lo < 32 ∧ 64 ≤ f.off ∧ f.off + (f.cnt - 1) * f.stride < 4096 := by decide +kernel

theorem sagShown_forAll (h : Fld → Nat → State → State) (v : Fld → Nat → State → Nat)
    (hh : ∀ f i t, h f i t = t.setI f pgSag i (v f i t)) (s : State) :
    let t := forAll sagShown s (fun f t => forAll (List.range f.cnt) t (fun i t => h f i t))
    t = { s with regs := t.regs } ∧ ∀ k, (k / 131072 ≠ pgSag ∨ k < pgSag * 131072 + 2048) → tfind t.regs k = tfind s.regs k := by
  refine forAll_mem sagShown s _ (fun t => t = { s with regs := t.regs } ∧ ∀ k, (k / 131072 ≠ pgSag ∨ k < pgSag * 131072 + 2048) → tfind t.regs k = tfind s.regs k) ⟨rfl, fun _ _ => rfl⟩ ?_
  intro f hf t ht
  refine forAll_mem (List.range f.cnt) t _ (fun t => t = { s with regs := t.regs } ∧ ∀ k, (k / 131072 ≠ pgSag ∨ k < pgSag * 131072 + 2048) → tfind t.regs k = tfind s.regs k) ht ?_
  intro i hi t ht
  rw [hh]
  obtain ⟨h1, h2, h3⟩ := sagShown_ok f hf
  have hi' : i ≤ f.cnt - 1 := by have := List.mem_range.mp hi; omega
  have hm : i * f.stride ≤ (f.cnt - 1) * f.stride := Nat.mul_le_mul_right _ hi'
  refine ⟨by
    show ({ t with regs := (t.setI f pgSag i (v f i t)).regs } : State) = _
    generalize (t.setI f pgSag i (v f i t)).regs = r
    rw [ht.1], fun k hk => ?_⟩
  rw [← ht.2 k hk]
  refine (t.onlyRegs_setI f pgSag i _).2 k ?_
  simp only [List.mem_singleton]
  rintro rfl
  unfold Fld.key pgSag at hk
  omega

theorem sagOutputs_frame (s : State) (hr : s.ready pgSag = false) : sagOutputs s = { s with regs := (sagOutputs s).regs, hk := (sagOutputs s).hk } ∧
    ∀ k, k / 131072 ≠ pgSag → tfind (sagOutputs s).regs k = tfind s.regs k := by
  unfold sagOutputs
  extract_lets mask drive moved hkk s0 s1 s2
  have h : s0.OnlyRegs (s2.set F.Sag.DRIVE_DEMAND pgSag (bit s.driveDemand)) _ :=
    ((((s0.onlyRegs_setI F.Sag.DRIVE_EN pgSag 0 drive).setI F.Sag.CURE_EN pgSag 0 (mask 2 s.sagCure)).setI F.Sag.PRESS_STOP_REQ pgSag 0 (bit (!s.sagRun))).setI F.Sag.SAFE_STATE pgSag 0 (bit (!s.sagSafe))).setI F.Sag.DRIVE_DEMAND pgSag 0 (bit s.driveDemand)
  have hr2 : (s2.set F.Sag.DRIVE_DEMAND pgSag (bit s.driveDemand)).ready pgSag = false := by
    rw [← hr]; unfold State.ready State.on State.get; rw [h.getI (by decide)]; rfl
  unfold sagLatch
  rw [hr2]; simp only [Bool.false_and, Bool.false_eq_true, if_false]
  refine ⟨by rw [h.1], fun k hk => ?_⟩
  rw [h.2 k (by rintro hm; revert hk; simp only [List.cons_append, List.nil_append, List.mem_cons, List.not_mem_nil, or_false] at hm; rcases hm with rfl | rfl | rfl | rfl | rfl <;> decide)]

theorem blockPowerUp_facts (s : State) : blockPowerUp s = { State.reset with regs := (blockPowerUp s).regs, now := s.now, pending := s.pending, freeIx := s.freeIx, countBase := s.now, sag := s.sag, jrn := { a := s.jrn.a, b := s.jrn.b }, cpu := { nor := s.cpu.nor } } ∧
    ∀ k, (k / 131072 ≠ pgSag ∨ k < pgSag * 131072 + 2048) → tfind (blockPowerUp s).regs k = none := by
  obtain ⟨h1, h2⟩ := sagShown_forAll (fun f i t => t.setI f pgSag i (s.getI f pgSag i)) (fun f i _ => s.getI f pgSag i) (fun _ _ _ => rfl) State.reset
  constructor
  · unfold blockPowerUp; dsimp only; rw [h1]
  · intro k hk
    have := h2 k hk
    unfold blockPowerUp; dsimp only
    rw [this]; rfl

theorem wrongPower (s : State) : (blockPowerUp s).sdram = [] ∧ (blockPowerUp s).room = [] ∧ (blockPowerUp s).sag = s.sag := by
  rw [(blockPowerUp_facts s).1]; exact ⟨rfl, rfl, rfl⟩

theorem powerUp_facts (cause : Nat) (s : State) (hc : cause < 16) : let t := powerUp cause s
    t.get F.Rdy.RESET_CAUSE pgReady = cause ∧ t.modeNow = 1 ∧ t.mode.porst = false ∧
        t.now = s.now ∧ t.countBase = s.now ∧ t.sdram = [] ∧ t.room = [] ∧ t.pool = [] ∧ t.sag = s.sag ∧ t.cpu.nor = s.cpu.nor ∧
        ∀ k, k / 131072 ≠ pgSag → k ≠ F.Rdy.RESET_CAUSE.key pgReady 0 → tfind t.regs k = none := by
  intro t
  obtain ⟨h1, h2⟩ := blockPowerUp_facts s
  obtain ⟨u, hu⟩ : ∃ u : State, u = { ((blockPowerUp s).set F.Rdy.RESET_CAUSE pgReady cause) with mode := { bisqueSince := s.now, thermalCheck := decide (8 ≤ cause) } } := ⟨_, rfl⟩
  have ht : t = sagOutputs u := by rw [hu]; rfl
  have hreg : ∀ k, (k / 131072 ≠ pgSag ∨ k < pgSag * 131072 + 2048) → k ≠ F.Rdy.RESET_CAUSE.key pgReady 0 → tfind u.regs k = none := by
    intro k hk hk2
    have := ((blockPowerUp s).onlyRegs_setI F.Rdy.RESET_CAUSE pgReady 0 cause).2 k (by simpa using hk2)
    rw [hu]; exact this.trans (h2 k hk)
  have hr : u.ready pgSag = false := by
    have : tfind u.regs (F.Hdr.READY.key pgSag 0) = none := hreg _ (.inr (by decide)) (by decide)
    simp only [State.ready, State.on, State.get, State.getI, tget, this]; decide
  obtain ⟨f1, f2⟩ := sagOutputs_frame u hr
  have fin : ∀ k, k / 131072 ≠ pgSag → k ≠ F.Rdy.RESET_CAUSE.key pgReady 0 → tfind t.regs k = none := fun k hk hk2 => by
    rw [ht, f2 k hk]; exact hreg k (.inl hk) hk2
  have e : u = { State.reset with regs := u.regs, now := s.now, pending := s.pending, freeIx := s.freeIx, countBase := s.now, sag := s.sag, jrn := { a := s.jrn.a, b := s.jrn.b }, cpu := { nor := s.cpu.nor }, mode := { bisqueSince := s.now, thermalCheck := decide (8 ≤ cause) } } := by
    rw [hu]; dsimp only [State.set, State.setI]; rw [h1]
  refine ⟨?_, ?_, ?_, ?_, ?_, ?_, ?_, ?_, ?_, ?_, fin⟩
  · rw [ht]; simp only [State.get, State.getI, tget]; rw [f2 _ (by decide), hu]
    exact ((blockPowerUp s).getI_setI_self F.Rdy.RESET_CAUSE pgReady 0 cause).trans (low_of_lt (by exact hc))
  · simp only [State.modeNow, State.get, State.getI, tget]; rw [fin _ (by decide) (by decide)]; decide
  all_goals (rw [ht, f1, e]; try rfl)

theorem q10_porst (s : State) (h : s.mode.porst = false) : ∃ t, exec .porstAssert s = .next t ∧ t.mode.porst = true ∧ t.sdram = [] ∧ t.room = [] ∧
      ∀ k, k / 131072 ≠ pgSag → tfind t.regs k = none := by
  obtain ⟨u, hu⟩ : ∃ u, u = sagPorst (railsPorst (storeTear s)) := ⟨_, rfl⟩
  obtain ⟨v, hv⟩ : ∃ v, v = blockPowerUp u := ⟨_, rfl⟩
  have e : exec .porstAssert s = .next { v with mode := { v.mode with porst := true } } := by
    simp only [exec, execPorstAssert, h, Bool.false_eq_true, if_false, blockPorst, hu, hv]
  obtain ⟨h1, h2, h3⟩ := wrongPower u
  have h4 := (blockPowerUp_facts u).2
  rw [← hv] at h1 h2 h4
  exact ⟨_, e, rfl, h1, h2, fun k hk => h4 k (.inl hk)⟩

theorem q10_dorm (s : State) (h1 : s.mode.toDormant = true) (h2 : s.mode.porst = false) (h3 : s.modeNow ≠ 0) (h4 : s.target = 0) (h5 : dormantReached s = true) :
      ∃ t, exec .dormantEntry s = .next t ∧ t.modeNow = 0 ∧ t.target = 0 ∧ t.mode.dormantSince = s.now ∧ t.mode.toDormant = false ∧
        t.mode.wakePinEn = s.on F.Mode.WAKE_PIN_EN pgMode ∧ t.mode.wakeTimerEn = s.on F.Mode.WAKE_TIMER_EN pgMode ∧
        t.mode.wakeDelay = s.get F.Mode.WAKE_DELAY pgMode ∧ t.sdram = [] ∧ t.room = [] ∧
        ∀ k, k / 131072 ≠ pgSag → k ≠ F.Mode.MODE.key pgMode 0 → k ≠ F.Mode.TARGET_MODE.key pgMode 0 → tfind t.regs k = none := by
  obtain ⟨v, hv⟩ : ∃ v, v = blockPowerUp s := ⟨_, rfl⟩
  obtain ⟨p1, p2, -⟩ := wrongPower s
  have p4 := (blockPowerUp_facts s).2
  rw [← hv] at p1 p2 p4
  obtain ⟨m, hm⟩ : ∃ m : ModeX, m = { dormantSince := s.now, thermalDormant := s.jrn.closing == some 2, wakePinEn := s.on F.Mode.WAKE_PIN_EN pgMode, wakeTimerEn := s.on F.Mode.WAKE_TIMER_EN pgMode, wakeDelay := s.get F.Mode.WAKE_DELAY pgMode } := ⟨_, rfl⟩
  obtain ⟨u, hu⟩ : ∃ u : State, u = { ((v.set F.Mode.MODE pgMode 0).set F.Mode.TARGET_MODE pgMode 0) with mode := m } := ⟨_, rfl⟩
  have e : exec .dormantEntry s = .next (sagOutputs u) := by
    simp only [exec, execDormantEntry]; rw [if_pos ⟨h1, h2, h3, h4, h5⟩]; rw [← hv, hu, hm]
  have hreg : ∀ k, (k / 131072 ≠ pgSag ∨ k < pgSag * 131072 + 2048) → k ≠ F.Mode.MODE.key pgMode 0 → k ≠ F.Mode.TARGET_MODE.key pgMode 0 → tfind u.regs k = none := by
    intro k hk hk2 hk3
    have := ((v.onlyRegs_setI F.Mode.MODE pgMode 0 0).setI F.Mode.TARGET_MODE pgMode 0 0).2 k (by simp [hk2, hk3])
    rw [hu]; exact this.trans (p4 k hk)
  have hr : u.ready pgSag = false := by
    have : tfind u.regs (F.Hdr.READY.key pgSag 0) = none := hreg _ (.inr (by decide)) (by decide) (by decide)
    simp only [State.ready, State.on, State.get, State.getI, tget, this]; decide
  obtain ⟨f1, f2⟩ := sagOutputs_frame u hr
  have e2 : u.mode = m ∧ u.sdram = [] ∧ u.room = [] := by
    rw [hu]; refine ⟨rfl, ?_, ?_⟩
    · exact p1
    · exact p2
  refine ⟨_, e, ?_, ?_, ?_, ?_, ?_, ?_, ?_, ?_, ?_, fun k hk hk2 hk3 => by rw [f2 k hk]; exact hreg k (.inl hk) hk2 hk3⟩
  · have g : (sagOutputs u).modeNow = u.modeNow := by
      simp only [State.modeNow, State.get, State.getI, tget]; rw [f2 _ (by decide)]
    rw [g, hu]
    show ((v.set F.Mode.MODE pgMode 0).set F.Mode.TARGET_MODE pgMode 0).get F.Mode.MODE pgMode = 0
    simp (disch := decide) only [State.get_set_off, State.get_set_self]; decide
  · have g : (sagOutputs u).target = u.target := by
      simp only [State.target, State.get, State.getI, tget]; rw [f2 _ (by decide)]
    rw [g, hu]
    show ((v.set F.Mode.MODE pgMode 0).set F.Mode.TARGET_MODE pgMode 0).get F.Mode.TARGET_MODE pgMode = 0
    simp (disch := decide) only [State.get_set_off, State.get_set_self]; decide
  · rw [f1]; show u.mode.dormantSince = _; rw [e2.1, hm]
  · rw [f1]; show u.mode.toDormant = _; rw [e2.1, hm]
  · rw [f1]; show u.mode.wakePinEn = _; rw [e2.1, hm]
  · rw [f1]; show u.mode.wakeTimerEn = _; rw [e2.1, hm]
  · rw [f1]; show u.mode.wakeDelay = _; rw [e2.1, hm]
  · rw [f1]; exact e2.2.1
  · rw [f1]; exact e2.2.2

theorem q10_loss (s : State) : ∃ t, exec .externalPowerLoss s = .next t ∧ t.mode.porst = true ∧ t.sag = { up := 0 } ∧ t.sdram = [] ∧ t.room = [] ∧
      ∀ k, k / 131072 ≠ pgSag → tfind t.regs k = none := by
  obtain ⟨u, hu⟩ : ∃ u : State, u = { storeTear s with sag := { up := 0 } } := ⟨_, rfl⟩
  obtain ⟨w, hw⟩ : ∃ w, w = blockPowerUp u := ⟨_, rfl⟩
  obtain ⟨h1, h2, h3⟩ := wrongPower u
  have h4 := (blockPowerUp_facts u).2
  rw [← hw] at h1 h2 h3 h4
  obtain ⟨c, d⟩ := sagShown_forAll (fun f i t => t.setI f pgSag i (f.rst pgSag i)) (fun f i _ => f.rst pgSag i) (fun _ _ _ => rfl) w
  obtain ⟨v, hv⟩ : ∃ v, v = forAll sagShown w (fun f t => forAll (List.range f.cnt) t (fun i t => t.setI f pgSag i (f.rst pgSag i))) := ⟨_, rfl⟩
  rw [← hv] at c d
  have e : exec .externalPowerLoss s = .next { v with mode := { v.mode with porst := true } } := by
    simp only [exec, execExternalPowerLoss]; rw [← hu, ← hw, ← hv]
  refine ⟨_, e, rfl, ?_, ?_, ?_, fun k hk => (d k (.inl hk)).trans (h4 k (.inl hk))⟩
  · rw [c]; show w.sag = _; rw [h3, hu]
  · rw [c]; exact h1
  · rw [c]; exact h2

theorem q10_safe (s : State) (h1 : s.inTransition = true) (h2 : s.target = 5) (h3 : s.get F.Mode.SAFE_HOLD_CAUSE pgMode ≠ 0) :
      ∃ t, exec .safeHoldEntry s = .next t ∧ t.mode.pathStopped = true ∧ t.get F.Sag.DRIVE_EN pgSag = 0 ∧
        t.on F.Sag.DRIVE_DEMAND pgSag = true := by
  obtain ⟨u, hu⟩ : ∃ u : State, u = { forAll (List.range Config.ports) s portHalt with mode := { (forAll (List.range Config.ports) s portHalt).mode with pathStopped := true } } := ⟨_, rfl⟩
  obtain ⟨v, hv⟩ : ∃ v : State, v = sagOutputs u := ⟨_, rfl⟩
  have e : exec .safeHoldEntry s = .next { v with mode := { v.mode with pathStopped := true } } := by
    simp only [exec, execSafeHoldEntry]; rw [if_pos ⟨h1, h2, h3⟩]; unfold blockSafeHold; dsimp only; rw [← hu, ← hv]
  have hd : u.driveDemand = true := by unfold State.driveDemand; rw [hu]; simp
  have hs : ∀ c, u.sagDrive c = false := fun c => by unfold State.sagDrive; rw [hd]; simp
  obtain ⟨w, hw1, hw2, hw3⟩ : ∃ w, v = sagLatch w ∧ w.get F.Sag.DRIVE_EN pgSag = 0 ∧ w.get F.Sag.DRIVE_DEMAND pgSag = 1 := by
    refine ⟨_, hv, ?_, ?_⟩
    · simp (disch := decide) only [State.get_set_off, State.get_set_self]
      simp only [hs]; decide
    · simp (disch := decide) only [State.get_set_off, State.get_set_self]
      rw [hd]; decide
  have hl : ∀ k, k / 131072 ≠ pgMode ∧ k / 131072 ≠ pgLedger → tfind v.regs k = tfind w.regs k := by
    rw [hw1]; unfold sagLatch; split
    · exact fun k hk => setCause_pages 1 w k (by simp [hk.1, hk.2])
    · exact fun _ _ => rfl
  refine ⟨_, e, rfl, ?_, ?_⟩
  · rw [← hw2]; simp only [State.get, State.getI, tget]; rw [hl _ (by decide)]
  · show (v.get F.Sag.DRIVE_DEMAND pgSag == 1) = true
    rw [show v.get F.Sag.DRIVE_DEMAND pgSag = w.get F.Sag.DRIVE_DEMAND pgSag by simp only [State.get, State.getI, tget]; rw [hl _ (by decide)], hw3]; rfl

end Sys2Proof.Machine
end

