-- ==== Sys2Proof/Laws/OfInflate.lean ====
section
/-! SUPPORT. Lemmas that the statements about its unit: Inflate rest on. -/

-- One declaration after another: the package is also checked as one text, where too many threads would start at once.
set_option Elab.async false

set_option linter.unusedVariables false
set_option linter.unusedSimpArgs false

namespace Sys2Proof.Machine

theorem refresh_form (v : State) : ∃ a b, refreshSpace v = (v.set F.Ing.RING_FREE pgIng a).set F.Ing.CACHE_FREE pgIng b := ⟨_, _, rfl⟩

theorem evict_regs (u : State) (id : Nat) : let v := forAll [F.Ing.CACHE_ENTRY_VALID, F.Ing.COMPLETE, F.Ing.EVICT_PENDING, F.Ing.BAD_ITEMS, F.Ing.SIZE] u (fun f s => s.setI f pgIng id 0)
    u.OnlyRegs v [F.Ing.CACHE_ENTRY_VALID.key pgIng id, F.Ing.COMPLETE.key pgIng id, F.Ing.EVICT_PENDING.key pgIng id,
          F.Ing.BAD_ITEMS.key pgIng id, F.Ing.SIZE.key pgIng id] ∧ v.onI F.Ing.CACHE_ENTRY_VALID pgIng id = false ∧ v.onI F.Ing.EVICT_PENDING pgIng id = false := by
  intro v
  have h : v = ((((u.setI F.Ing.CACHE_ENTRY_VALID pgIng id 0).setI F.Ing.COMPLETE pgIng id 0).setI F.Ing.EVICT_PENDING pgIng id 0).setI F.Ing.BAD_ITEMS pgIng id 0).setI F.Ing.SIZE pgIng id 0 := rfl
  rw [h]
  refine ⟨((((u.onlyRegs_setI _ _ _ _).setI _ _ _ _).setI _ _ _ _).setI _ _ _ _).setI _ _ _ _, ?_, ?_⟩
  · unfold State.onI; simp (disch := decide) only [State.getI_setI_lo, State.getI_setI_self]; rfl
  · unfold State.onI; simp (disch := decide) only [State.getI_setI_lo, State.getI_setI_self]; rfl

theorem find_append_none {α : Type} (p : α → Bool) (l m : List α) (x : α) (h : (l ++ m).find? p = none) (hx : p x = true) :
    ((l ++ [x]) ++ m).find? p = some x ∧ (∀ y ∈ l, p y = false) ∧ ∀ y ∈ m, p y = false := by
  have h1 : ∀ y ∈ l ++ m, p y = false := by
    intro y hy; have := List.find?_eq_none.mp h y hy; simpa using this
  refine ⟨?_, fun y hy => h1 y (by simp [hy]), fun y hy => h1 y (by simp [hy])⟩
  rw [List.append_assoc, List.find?_append, List.find?_eq_none.mpr (fun y hy => by simp [h1 y (by simp [hy])])]
  simp [hx]

theorem chunk_fact (s : State) (n off len : Nat) (data : List Byte) (hl : len = data.length) (h0 : 0 < len) (h4 : len % 4 = 0) (hf : s.folio n = none)
    (ho : 0 < off ∨ len < 64) (he : maxDirEnd ≤ off → s.earlyChunks < 256) :
    chunkHeld n off data s = { s with regs := (s.satI F.Ing.BYTES_DROPPED pgIng 0 0).regs, ing := { s.ing with held := s.ing.held ++ [{ n := n, raw := [(off, data)], held := [(off, off + len)], chunks := 1, early := [(off, len, [(off, off + len)])] }] } } := by
  have key := fun (x : Folio) (hx : x.n = n) => find_append_none (fun f : Folio => f.n == n) s.ing.held s.ing.past x hf (by simpa using hx)
  have hno : s.ing.held.any (fun f => f.n == n) = false := by
    simpa using fun y hy => (key { n := n } rfl).2.1 y hy
  have early0 : ∀ x : Folio, x.early = [] → State.earlyChunks { s with ing := { s.ing with held := s.ing.held ++ [x] } } = s.earlyChunks := by
    intro x hx; unfold State.earlyChunks Folio.countsEarly; simp [List.foldl_append, hx]
  have fol : ∀ (r : Tbl Nat) (x : Folio), x.n = n → State.folio { s with regs := r, ing := { s.ing with held := s.ing.held ++ [x] } } n = some x := fun r x hx => (key x hx).1
  have upd : ∀ (r : Tbl Nat) (x : Folio) (g : Folio → Folio), x.n = n → State.updFolio { s with regs := r, ing := { s.ing with held := s.ing.held ++ [x] } } n g =
      { s with regs := r, ing := { s.ing with held := s.ing.held ++ [g x] } } := by
    intro r x g hx
    unfold State.updFolio State.updIng
    have e1 : s.ing.held.map (fun y => if (y.n == n) = true then g y else y) = s.ing.held :=
      (List.map_congr_left (g := id) (fun y hy => by have := (key x hx).2.1 y hy; simp at this; simp [this])).trans (List.map_id _)
    have e2 : s.ing.past.map (fun y => if (y.n == n) = true then g y else y) = s.ing.past :=
      (List.map_congr_left (g := id) (fun y hy => by have := (key x hx).2.2 y hy; simp at this; simp [this])).trans (List.map_id _)
    simp only [List.map_append, e1, e2, List.map_cons, List.map_nil, hx, beq_self_eq_true, if_true]
  have cov : covers [(off, off + len)] 0 64 = false := by
    unfold covers cutAll cutOne
    simp only [List.foldl_cons, List.foldl_nil, List.flatMap_cons, List.flatMap_nil]
    split
    · simp
    · by_cases h : 0 < off
      · rw [if_pos h]; simp; omega
      · rw [if_pos (show off + len < 64 by omega)]; split <;> (simp <;> omega)
  unfold chunkHeld
  simp only [hno, Bool.false_eq_true, if_false]
  rw [show s.updIng (fun i => { i with held := i.held ++ [{ n := n }] }) = { s with regs := s.regs, ing := { s.ing with held := s.ing.held ++ [{ n := n }] } } from rfl]
  rw [fol s.regs { n := n } rfl]
  have cn : covers [] off (off + data.length) = false := by
    have : 0 < data.length := by omega
    unfold covers cutAll; simp; exact List.length_pos_iff.mp this
  have hold : ∀ x : Folio, x.n = n → x.items = [] → x.held = [] → x.raw = [] → x.known = false → x.chunks = 0 → x.hdr = none →
      holdBytes n off data true { s with regs := s.regs, ing := { s.ing with held := s.ing.held ++ [x] } } =
      { s with regs := (s.satI F.Ing.BYTES_DROPPED pgIng 0 0).regs, ing := { s.ing with held := s.ing.held ++ [{ x with held := [(off, off + len)], raw := [(off, data)], chunks := 1 }] } } := by
    intro x h1 h2 h3 h4 h5 h6 h7
    unfold holdBytes
    rw [fol s.regs x h1]
    dsimp only
    rw [h2, h3, h5, h7]
    have e1 : rangesLen [(off, off + data.length)] = data.length := by unfold rangesLen; simp
    simp only [List.filter_nil, List.map_nil, cutAll, List.foldl_nil, e1, Nat.sub_self, Bool.true_and, Nat.lt_irrefl, decide_false, Bool.false_eq_true, if_false]
    rw [show State.satI { s with regs := s.regs, ing := { s.ing with held := s.ing.held ++ [x] } } F.Ing.BYTES_DROPPED pgIng 0 0 =
      { s with regs := (s.satI F.Ing.BYTES_DROPPED pgIng 0 0).regs, ing := { s.ing with held := s.ing.held ++ [x] } } from rfl]
    rw [upd _ x _ h1]
    simp [h2, h3, h4, h5, h6, h7, hl]
  have fin : ∀ (r : Tbl Nat) (x : Folio), x.n = n → x.held = [(off, off + len)] → x.hdr = none → takeDirectory n (takeHeader n { s with regs := r, ing := { s.ing with held := s.ing.held ++ [x] } }) = { s with regs := r, ing := { s.ing with held := s.ing.held ++ [x] } } := by
    intro r x h1 h2 h3
    have t1 : takeHeader n { s with regs := r, ing := { s.ing with held := s.ing.held ++ [x] } } = { s with regs := r, ing := { s.ing with held := s.ing.held ++ [x] } } := by
      unfold takeHeader; rw [fol r x h1]; dsimp only; rw [h2, cov]; simp
    rw [t1]; unfold takeDirectory; rw [fol r x h1]; dsimp only; rw [h3]
  have h4' : ¬(data.length % 4 ≠ 0 ∧ True) := by omega
  simp only [Option.getD_some, Option.map_none, Option.getD_none, Bool.not_false, Bool.true_and, cn, Option.isNone_none, h4', if_false]
  have ec : State.earlyChunks { s with regs := s.regs, ing := { s.ing with held := s.ing.held ++ [{ n := n }] } } = s.earlyChunks := early0 { n := n } rfl
  rw [ec]
  have cf : cutAll [(off, off + data.length)] [] = [(off, off + data.length)] := rfl
  have gt : (decide (maxDirEnd ≤ off) && decide (256 ≤ s.earlyChunks)) = false := by
    by_cases h : maxDirEnd ≤ off
    · have := he h; simp; omega
    · simp [h]
  simp only [cf, List.isEmpty_cons, Bool.not_false, Bool.true_and, gt, Bool.false_eq_true, if_false, if_true]
  rw [upd _ _ _ rfl, hold _ rfl rfl rfl rfl rfl rfl rfl, fin _ _ rfl rfl rfl]
  have h5 : data.length % 4 = 0 := hl ▸ h4
  simp [hl, h5]

end Sys2Proof.Machine
end

