-- ==== Sys2Proof/Laws/OfRegions.lean ====
section
/-! SUPPORT. Lemmas that the statements about its unit: Regions rest on. -/

-- One declaration after another: the package is also checked as one text, where too many threads would start at once.
set_option Elab.async false

set_option linter.unusedVariables false
set_option linter.unusedSimpArgs false

namespace Sys2Proof.Machine

theorem jobEnd_facts (s : State) (k reason out inn : Nat) : let t := jobEnd k reason out inn s
    t.jobState k = 3 ∧ t.getI F.Job.FAIL_REASON pgJob k = low 8 reason ∧ s.OnlyRegs t [F.Job.JOB_STATUS_STATE.key pgJob k,
          F.Job.FAIL_REASON.key pgJob k, F.Job.OUT_BYTES.key pgJob k, F.Job.IN_BYTES.key pgJob k] := by
  refine ⟨?_, ?_, (((s.onlyRegs_setI _ _ _ _).setI _ _ _ _).setI _ _ _ _).setI _ _ _ _⟩
  · unfold jobEnd State.jobState; simp (disch := decide) only [State.getI_setI_arr, State.getI_setI_self]; rfl
  · unfold jobEnd; simp (disch := decide) only [State.getI_setI_arr, State.getI_setI_self]; rfl

theorem jobRaise_facts (u : State) (e : Ev) (k arg : Nat) (hk : k < 4) (f : Fld) (h : 32 ≤ f.off) (hg : f.off + (4 - 1) * f.stride < 4096) (hl : f.lo < 32) : (u.raise e pgJob arg).getI f pgJob k = u.getI f pgJob k :=
  State.getI_raise_arr u e 4 hk (by decide) h hg hl

theorem jobKeys : ∀ k < 4, ∀ x ∈ [F.Job.JOB_STATUS_STATE.key pgJob k,
          F.Job.FAIL_REASON.key pgJob k, F.Job.OUT_BYTES.key pgJob k, F.Job.IN_BYTES.key pgJob k], x / 131072 ≠ pgLedger := by decide

theorem jobFail_facts (s : State) (k reason out inn : Nat) (hk : k < 4) : let t := jobFail k reason out inn s
    t.jobState k = 3 ∧ t.getI F.Job.FAIL_REASON pgJob k = low 8 reason ∧ bitAt (t.get F.Hdr.EVENT_STATUS pgJob) Ev.codecJobFailed.bit = true ∧
    s.OnlyEvents t pgJob [F.Job.JOB_STATUS_STATE.key pgJob k,
          F.Job.FAIL_REASON.key pgJob k, F.Job.OUT_BYTES.key pgJob k, F.Job.IN_BYTES.key pgJob k] := by
  obtain ⟨h1, h2, h3⟩ := jobEnd_facts s k reason out inn
  refine ⟨?_, ?_, State.raise_bit _ _ _ (by decide) (by decide), h3.events (State.onlyEvents_raise _ _ _ (by decide)) (jobKeys k hk)⟩
  · rw [← h1]; exact jobRaise_facts _ _ k _ hk _ (by decide) (by decide) (by decide)
  · rw [← h2]; exact jobRaise_facts _ _ k _ hk _ (by decide) (by decide) (by decide)

theorem jobDone_facts (u : State) (k out inn crc : Nat) (hk : k < 4) :
    let t := (((((u.setI F.Job.JOB_STATUS_STATE pgJob k 2).setI F.Job.OUT_BYTES pgJob k out).setI F.Job.IN_BYTES pgJob k inn).setI
      F.Job.RESULT_CRC pgJob k crc).wrap F.Job.JOB_DONE_COUNT pgJob).raise Ev.codecJobDone pgJob (arg64 out k)
    t.jobState k = 2 ∧ t.getI F.Job.IN_BYTES pgJob k = low 32 inn ∧ t.getI F.Job.RESULT_CRC pgJob k = low 32 crc ∧
    t.getI F.Job.OUT_BYTES pgJob k = low 32 out ∧ bitAt (t.get F.Hdr.EVENT_STATUS pgJob) Ev.codecJobDone.bit = true := by
  refine ⟨?_, ?_, ?_, ?_, State.raise_bit _ _ _ (by decide) (by decide)⟩
  all_goals
    refine (jobRaise_facts _ _ k _ hk _ (by decide) (by decide) (by decide)).trans ?_
    rw [State.wrap, State.wrapI, State.getI_setI_ne _ _ (Fld.key_ne (by simp [F.Job.JOB_STATUS_STATE, F.Job.IN_BYTES, F.Job.OUT_BYTES, F.Job.RESULT_CRC, F.Job.JOB_DONE_COUNT, fld, Fld.arr]; omega))]
    simp (disch := decide) only [State.getI_setI_arr, State.getI_setI_self]
  · rfl
  · rfl
  · rfl
  · rfl

theorem freeUpTo_twice (a b : Nat) (u : State) : (freeUpTo b (freeUpTo a u).2).2 = { u with freeIx := u.freeIx + 2 } := rfl

theorem sourceFault_eq (s : State) (k : Nat) (po : Bool) (h1 : s.jobRuns k = true)
    (h2 : po = true ∨ s.jobPoisoned k = true ∨ s.sourceFault k ≠ 0) : exec (.jobSourceFault k po) s =
    .next (jobFail k (if po = true ∨ s.jobPoisoned k = true then 2 else s.sourceFault k) (freeUpTo (s.jobLimit k) (jobRead k s)).1
      (freeUpTo (s.jobLen k) (freeUpTo (s.jobLimit k) (jobRead k s)).2).1 (freeUpTo (s.jobLen k) (freeUpTo (s.jobLimit k) (jobRead k s)).2).2) := by
  show execJobSourceFault k po s = _
  unfold execJobSourceFault
  rw [if_pos ⟨h1, h2⟩]

end Sys2Proof.Machine
end

