-- ==== Sys2Proof/Laws/OfScreen.lean ====
section
/-! SUPPORT. Lemmas that the statements about its unit: Screen rest on. -/

-- One declaration after another: the package is also checked as one text, where too many threads would start at once.
set_option Elab.async false

set_option linter.unusedVariables false
set_option linter.unusedSimpArgs false

namespace Sys2Proof.Machine

theorem forAll_regn {α : Type} (l : List α) (s : State) (f : α → State → State) (h : ∀ a s, (f a s).regn = s.regn) : (forAll l s f).regn = s.regn :=
  forAll_keeps l s f State.regn h

theorem cacheSettle_regn (id : Nat) (s : State) : (cacheSettle id s).regn = s.regn := by unfold cacheSettle; split <;> rfl

theorem markBad_regn (id : Nat) (e : Entry) (s : State) : (markBad id e s).regn = s.regn := by unfold markBad; rw [cacheSettle_regn]; rfl

theorem streamError_regn (r n : Nat) (i : Item) (c : Nat) (s : State) : (streamError r n i c s).regn = s.regn := by
  unfold streamError; dsimp only
  split
  · rw [markBad_regn, State.raise_regn]; rfl
  · rw [State.raise_regn]; rfl

theorem showEngine_regn (r k : Nat) (s : State) : (showEngine r k s).regn = s.regn := by
  unfold showEngine; dsimp only; split <;> rfl

theorem itemEnd_regn (r n : Nat) (i : Item) (s : State) : (itemEnd r n i s).regn = s.regn := by
  unfold itemEnd; dsimp only
  split_ifs
  all_goals first | rfl | skip
  all_goals (split <;> first | (rw [markBad_regn, State.raise_regn]; rfl) | (rw [State.raise_regn]; rfl))

theorem engineOf_regn {s t : State} (h : t.regn = s.regn) (r k : Nat) : t.engineOf r k = s.engineOf r k := by
  unfold State.engineOf State.regnOf; rw [h]

theorem mem_insertItem (i j : Item) (l : List Item) (h : j ∈ insertItem i l) : j = i ∨ j ∈ l := by
  induction l with
  | nil => simpa [insertItem] using h
  | cons a l ih =>
    unfold insertItem at h
    split at h
    · simpa using h
    · rcases List.mem_cons.mp h with h | h
      · exact .inr (by simp [h])
      · rcases ih h with h | h
        · exact .inl h
        · exact .inr (by simp [h])

theorem mem_sortItems (j : Item) (l : List Item) (h : j ∈ sortItems l) : j ∈ l := by
  induction l with
  | nil => exact h
  | cons a l ih =>
    rcases mem_insertItem a j (sortItems l) h with h | h
    · simp [h]
    · exact List.mem_cons_of_mem _ (ih h)

theorem needItem_port (s : State) (p l n : Nat) (i : Item) (h : s.needItem p l = some (n, i)) : i.e.port = p := by
  have h0 := List.mem_of_find?_eq_some h
  unfold State.nextItems at h0
  split at h0
  · simp at h0
  · rename_i c q _
    have h1 : ∀ m, (n, i) ∈ ((s.layerItems p l m).filter (fun i => !i.done)).map (fun i => (m, i)) → i.e.port = p := by
      intro m hm
      obtain ⟨x, hx, he⟩ := List.mem_map.mp hm
      have h2 : x = i := by injection he
      subst h2
      have hx := (List.mem_filter.mp hx).1
      unfold State.layerItems at hx
      dsimp only at hx
      have h4 : ∀ (b : Bool) (l' : List Item), x ∈ (if b = true then [] else l') → x ∈ l' := by
        intro b l' hx; split at hx
        · simp at hx
        · exact hx
      have h3 := mem_sortItems _ _ (h4 _ _ hx)
      simp only [List.mem_filter, Bool.and_eq_true, beq_iff_eq] at h3
      exact h3.2.1
    have h5 := (List.mem_filter.mp h0).1
    dsimp only at h5
    split at h5
    · exact h1 _ h5
    · exact h1 _ h5

theorem readItem_regn (i : Item) (lo hi : Nat) (f : Nat → Bool) (s : State) : (readItem i lo hi f s).regn = s.regn :=
  State.MemOnly.regn (State.MemOnly.forAll _ _ (State.MemOnly.refl s) fun _ _ hu => memOnly_burstRead _ _ hu)

theorem regnOf_updRegn (s : State) (r : Nat) (f : RegionX → RegionX) : (s.updRegn r f).regnOf r = f (s.regnOf r) := by
  unfold State.regnOf State.updRegn; exact tget_tput_self _ _ _ _

theorem dispatch_facts (r k n : Nat) (i : Item) (po : Option Nat) (s : State) :
    ((dispatch r k n i po s).engineOf r k).cur = some (n, i.e.ix) ∧ ∀ j ≠ k, (dispatch r k n i po s).engineOf r j = s.engineOf r j := by
  unfold dispatch
  extract_lets src poison fetch hist out d j0 j s0 s1 e s2 s3 s4
  have h1 : s1.regn = s.regn := by
    show s0.regn = _
    exact readItem_regn _ _ _ _ s
  have hs : s4.regn = s2.regn := by
    have : s3.regn = s2.regn := by
      unfold s3; split
      · rw [State.raise_regn]; rfl
      · rfl
    rw [← this]; unfold s4; split
    · rfl
    · exact streamError_regn _ _ _ _ _
  refine ⟨?_, fun j' hj => ?_⟩
  · rw [engineOf_regn (showEngine_regn r k s4), engineOf_regn hs]
    unfold State.engineOf; rw [show s2.regnOf r = _ from regnOf_updRegn s1 r _]; simp [e]
  · rw [engineOf_regn (showEngine_regn r k s4), engineOf_regn hs, ← engineOf_regn h1]
    unfold State.engineOf; rw [show s2.regnOf r = _ from regnOf_updRegn s1 r _]; dsimp only; rw [tget_tput_ne _ _ _ hj]

theorem refresh_bit (v : State) (pg : Nat) {e : Nat} (h : bitAt (v.get F.Hdr.EVENT_STATUS pg) e = true) :
    bitAt ((refreshSpace v).get F.Hdr.EVENT_STATUS pg) e = true := by
  obtain ⟨a, b, hab⟩ := refresh_form v
  have hb : F.Hdr.EVENT_STATUS.key pg 0 ≠ F.Ing.CACHE_FREE.key pgIng 0 := by
    unfold Fld.key; have h1 : F.Hdr.EVENT_STATUS.off = 16 := rfl; have h2 : F.Hdr.EVENT_STATUS.lo = 0 := rfl; have h3 : F.Ing.CACHE_FREE.off = 0xD0 := rfl; have h4 : F.Ing.CACHE_FREE.lo = 0 := rfl
    rw [h1, h2, h3, h4]; omega
  have hc : F.Hdr.EVENT_STATUS.key pg 0 ≠ F.Ing.RING_FREE.key pgIng 0 := by
    unfold Fld.key; have h1 : F.Hdr.EVENT_STATUS.off = 16 := rfl; have h2 : F.Hdr.EVENT_STATUS.lo = 0 := rfl; have h3 : F.Ing.RING_FREE.off = 0xCC := rfl; have h4 : F.Ing.RING_FREE.lo = 0 := rfl
    rw [h1, h2, h3, h4]; omega
  rw [hab, State.get_set_ne _ _ hb, State.get_set_ne _ _ hc]
  exact h

theorem skip_count (v : State) (r b : Nat) (hr : r < 4) :
    (refreshSpace ((v.satI F.Glz.ITEMS_SKIPPED (pgGlz r) 0 1).satI F.Glz.BYTES_SKIPPED (pgGlz r) 0 b)).get F.Glz.ITEMS_SKIPPED (pgGlz r) =
      low 32 (min (v.get F.Glz.ITEMS_SKIPPED (pgGlz r) + 1) 4294967295) := by
  obtain ⟨a, c, hac⟩ := refresh_form ((v.satI F.Glz.ITEMS_SKIPPED (pgGlz r) 0 1).satI F.Glz.BYTES_SKIPPED (pgGlz r) 0 b)
  have hp : pgGlz r ≠ pgIng := by unfold pgGlz pgIng; omega
  rw [hac, State.get_set_page _ hp (by decide) (by decide) (by decide) (by decide), State.get_set_page _ hp (by decide) (by decide) (by decide) (by decide)]
  unfold State.satI State.get
  rw [State.getI_setI_off _ (by decide), State.getI_setI_self]
  rfl

end Sys2Proof.Machine
end

