-- ==== Sys2Proof/Laws/OfEdges.lean ====
section
/-! SUPPORT. Lemmas that the statements about its unit: Edges rest on. -/

-- One declaration after another: the package is also checked as one text, where too many threads would start at once.
set_option Elab.async false

set_option linter.unusedVariables false
set_option linter.unusedSimpArgs false

namespace Sys2Proof.Machine

theorem portOf_updPort (s : State) (p : Nat) (f : PortX → PortX) : (s.updPort p f).portOf p = f (s.portOf p) := by
  unfold State.portOf State.updPort; exact tget_tput_self _ _ _ _

theorem portOf_updPort_ne (s : State) {p q : Nat} (f : PortX → PortX) (h : q ≠ p) : (s.updPort p f).portOf q = s.portOf q := by
  unfold State.portOf State.updPort; exact tget_tput_ne _ _ _ h

theorem regnOf_congr {s t : State} (h : t.regn = s.regn) (r : Nat) : t.regnOf r = s.regnOf r := by unfold State.regnOf; rw [h]

theorem portOf_congr {s t : State} (h : t.port = s.port) (r : Nat) : t.portOf r = s.portOf r := by unfold State.portOf; rw [h]

theorem decodeList_regn (r n : Nat) (i : Item) (po : Option Nat) (s : State) : ∃ l : RectList, l.folio = n ∧ l.ix = i.e.ix ∧
    (decodeList r n i po s).regnOf r = { s.regnOf r with decoded := (s.regnOf r).decoded ++ [l] } := by
  unfold decodeList
  extract_lets src poison d j cause lines rs l s0 s1
  refine ⟨l, rfl, rfl, ?_⟩
  have h0 : s1.regn = s0.regn := by
    show (itemEnd _ _ _ _).regn = _
    rw [itemEnd_regn]
    split
    · rfl
    · exact streamError_regn _ _ _ _ _
  have h1 : (refreshSpace (forAll (List.range rs.length) s1 (fun k s =>
    if ((rs.map (·.2)).getD k true) then s
    else s.raise Ev.glazeRectInvalid (pgGlz r) (arg64 n (low 14 i.e.ix * 65536 + k * 256 + 2))))).regn = s1.regn := by
    show (forAll (List.range rs.length) s1 _).regn = _
    rw [forAll_keeps (List.range rs.length) s1 _ State.regn]
    intro a s; split
    · rfl
    · exact State.raise_regn _ _ _ _
  rw [regnOf_congr (h1.trans h0), regnOf_updRegn, regnOf_congr (readItem_regn _ _ _ _ s)]

theorem useList_begun (r n : Nat) (s : State) : ((useList r n s).regnOf r).begun = (s.regnOf r).begun := by
  unfold useList
  split
  · rfl
  · rename_i i hi
    extract_lets s1 l v q cause s2
    have h1 : (s1.regnOf r).begun = (s.regnOf r).begun := by
      unfold s1; split
      · obtain ⟨l, -, -, h⟩ := decodeList_regn r n i none s
        rw [h]
      · rfl
    have hq : q.2.regn = s1.regn := by
      show (match l with
        | some l => (l.cause, s1)
        | none =>
          if (!s.itemHeld n i) = true then (2, s1)
          else if (!s.compOk i) = true then (3, s1) else (v.1 + 1, v.2)).2.regn = _
      clear_value l
      cases l with
      | some _ => rfl
      | none => dsimp only; split_ifs <;> rfl
    have h2 : (s2.regnOf r).begun = (s1.regnOf r).begun := by unfold s2; rw [regnOf_updRegn, regnOf_congr hq]
    split
    · rw [regnOf_congr (State.raise_regn _ _ _ _), h2, h1]
    · rw [h2, h1]

theorem lateTiles_port (p n y : Nat) (late : List Item) (s : State) :
    (∀ q ≠ p, (lateTiles p n y late s).portOf q = s.portOf q) ∧ ((lateTiles p n y late s).portOf p).composed = (s.portOf p).composed ∧
    ((lateTiles p n y late s).portOf p).compose = (s.portOf p).compose := by
  unfold lateTiles
  split
  · exact ⟨fun _ _ => rfl, rfl, rfl⟩
  · dsimp only
    refine forAll_inv _ _ _ (fun t => (∀ q ≠ p, t.portOf q = s.portOf q) ∧ (t.portOf p).composed = (s.portOf p).composed ∧
      (t.portOf p).compose = (s.portOf p).compose) ⟨fun _ _ => rfl, rfl, rfl⟩ ?_
    intro a t ⟨h1, h2, h3⟩
    split
    · exact ⟨h1, h2, h3⟩
    · have e : ∀ q, ((((markDirty p n t).updItem n a.e.ix (fun i => { i with late := true })).raise Ev.glazeOverlayLate (pgGlz (regionOf p))
        (arg64 n (low 24 y * 256 + p))).portOf q) = (markDirty p n t).portOf q := fun q => portOf_congr (State.raise_port _ _ _ _) q
      refine ⟨fun q hq => ?_, ?_, ?_⟩
      · rw [e, ← h1 q hq]; exact portOf_updPort_ne _ _ hq
      · rw [e, ← h2]; unfold markDirty; rw [portOf_updPort]
      · rw [e, ← h3]; unfold markDirty; rw [portOf_updPort]

end Sys2Proof.Machine
end

