-- ==== Sys2Proof/Laws/OfSsi.lean ====
section
/-! SUPPORT. Lemmas that the statements about its unit: Ssi rest on. -/

-- One declaration after another: the package is also checked as one text, where too many threads would start at once.
set_option Elab.async false

set_option linter.unusedVariables false
set_option linter.unusedSimpArgs false

namespace Sys2Proof.Machine

theorem posOf_upd (s : State) (ch : Nat) (f : PosX → PosX) : (s.updPos ch f).posOf ch = f (s.posOf ch) := by
  unfold State.posOf State.updPos; exact tget_tput_self _ _ _ _

theorem posOf_congr {s t : State} (h : t.pos = s.pos) (r : Nat) : t.posOf r = s.posOf r := by unfold State.posOf; rw [h]

theorem upd_hub0 (p : PosX) (reps : Nat) (f : Replica → Replica) (h : bitAt reps 0 = false) : (p.upd reps f).hub = p.hub := by
  simp [PosX.upd, h]

theorem upd_hub1 (p : PosX) (reps : Nat) (f : Replica → Replica) (h : bitAt reps 0 = true) : (p.upd reps f).hub = f p.hub := by
  simp [PosX.upd, h]

/-- Only the converters' page and state. -/
def TdcOnly (s t : State) : Prop := t = { s with regs := t.regs, tdc := t.tdc } ∧ ∀ k, k / 131072 ≠ pgTdc → tfind t.regs k = tfind s.regs k

theorem TdcOnly.trans {s t u : State} (h : TdcOnly s t) (g : TdcOnly t u) : TdcOnly s u :=
  ⟨by rw [g.1, h.1], fun k hk => (g.2 k hk).trans (h.2 k hk)⟩

theorem TdcOnly.refl (s : State) : TdcOnly s s := ⟨rfl, fun _ _ => rfl⟩

theorem edgeMin_page (d : Nat) (hd : d < 3) : F.Tdc.EDGE_MIN.key pgTdc d / 131072 = pgTdc := by
  interval_cases d <;> decide

theorem updSet_only (t : State) (d : Nat) (hd : d < 3) (f : TdcX → TdcX) (v : Nat) : TdcOnly t ((t.updTdc d f).setI F.Tdc.EDGE_MIN pgTdc d v) := by
  obtain ⟨u, hu⟩ : ∃ u, u = t.updTdc d f := ⟨_, rfl⟩
  have h1 : u = { t with tdc := u.tdc } := by rw [hu]; rfl
  rw [← hu]
  have h2 := u.onlyRegs_setI F.Tdc.EDGE_MIN pgTdc d v
  refine ⟨by rw [h2.1, h1], fun k hk => ?_⟩
  rw [h2.2 k (by simp only [List.mem_singleton]; rintro rfl; exact hk (edgeMin_page d hd)), h1]

theorem tdcEdge_only (ch b reps ph : Nat) (s : State) : TdcOnly s (tdcEdge ch b reps ph s) := by
  unfold tdcEdge
  dsimp only
  refine forAll_mem _ _ _ (TdcOnly s) (.refl s) fun d hd t ht => ?_
  have hd3 : d < 3 := by simp at hd; omega
  split
  · exact ht.trans (updSet_only t d hd3 _ _)
  · exact ht

theorem ballEdges_only (ch reps base width v ph : Nat) (s : State) : TdcOnly s (ballEdges ch reps base width v ph s) := by
  unfold ballEdges
  refine forAll_inv _ _ _ (TdcOnly s) (.refl s) fun d t ht => ?_
  split
  · refine ht.trans (forAll_inv _ _ _ (TdcOnly t) (.refl t) fun b u hu => ?_)
    dsimp only; split
    · exact hu.trans (tdcEdge_only _ _ _ _ _)
    · exact hu
  · exact ht

theorem TdcOnly.get {s t : State} (h : TdcOnly s t) {f : Fld} {p : Nat} (hp : f.key p 0 / 131072 ≠ pgTdc) : t.get f p = s.get f p := by
  simp only [State.get, State.getI, tget]; rw [h.2 _ hp]

theorem TdcOnly.getPos {s t : State} (h : TdcOnly s t) {f : Fld} {ch : Nat} (hc : ch < 4) (ho : f.off + 0 * f.stride < 4096) (hl : f.lo < 32) : t.get f (pgPos ch) = s.get f (pgPos ch) := by
  refine h.get ?_
  rw [Fld.key_page ho hl]; unfold pgPos pgTdc; omega

theorem TdcOnly.posOf {s t : State} (h : TdcOnly s t) (ch : Nat) : t.posOf ch = s.posOf ch := posOf_congr (by rw [h.1]) ch

theorem TdcOnly.now {s t : State} (h : TdcOnly s t) : t.now = s.now := by rw [h.1]

/-- Only the converters, and the sampled levels of one channel. -/
def Seen (ch : Nat) (s v : State) : Prop :=
  (∀ f : Fld, f.off + 0 * f.stride < 4096 → f.lo < 32 → v.get f (pgPos ch) = s.get f (pgPos ch)) ∧ v.now = s.now ∧
  (∃ w, (v.posOf ch).hub = { (s.posOf ch).hub with raw := w }) ∧
  (∃ w, (v.posOf ch).r0 = { (s.posOf ch).r0 with raw := w }) ∧ ∃ w, (v.posOf ch).r1 = { (s.posOf ch).r1 with raw := w }

theorem sample_seen (ch reps base width v ph : Nat) (hc : ch < 4) (s : State) : Seen ch s (sampleBalls ch reps base width v ph s) := by
  have ho := ballEdges_only ch reps base width v ph s
  unfold sampleBalls
  refine ⟨fun f h1 h2 => ho.getPos hc h1 h2, ho.now, ?_⟩
  rw [posOf_upd, ho.posOf]
  unfold PosX.upd
  refine ⟨?_, ?_, ?_⟩
  · dsimp only; split
    · exact ⟨_, rfl⟩
    · exact ⟨_, rfl⟩
  · dsimp only; split
    · exact ⟨_, rfl⟩
    · exact ⟨_, rfl⟩
  · dsimp only; split
    · exact ⟨_, rfl⟩
    · exact ⟨_, rfl⟩
section
variable {ch : Nat} {s v : State} (h : Seen ch s v)
include h

theorem Seen.chMode (m : Nat) : v.chMode ch m = s.chMode ch m := by unfold State.chMode; rw [h.1 _ (by decide) (by decide)]

theorem Seen.chOn : v.chOn ch = s.chOn ch := by unfold State.chOn State.on; rw [h.1 _ (by decide) (by decide)]

theorem Seen.dirInv (d : Int) : v.dirInv ch d = s.dirInv ch d := by
  unfold State.dirInv State.on; rw [h.1 _ (by decide) (by decide)]

theorem Seen.edgeAt (ph : Nat) : v.edgeAt ch ph = s.edgeAt ch ph := by unfold State.edgeAt; rw [h.1 _ (by decide) (by decide), h.2.1]

theorem Seen.count : (v.posOf ch).hub.count = (s.posOf ch).hub.count := by obtain ⟨w, hw⟩ := h.2.2.1; rw [hw]

theorem Seen.ab : (v.posOf ch).hub.ab = (s.posOf ch).hub.ab := by obtain ⟨w, hw⟩ := h.2.2.1; rw [hw]

theorem Seen.code : (v.posOf ch).hub.code = (s.posOf ch).hub.code := by obtain ⟨w, hw⟩ := h.2.2.1; rw [hw]

theorem Seen.z : (v.posOf ch).hub.z = (s.posOf ch).hub.z := by obtain ⟨w, hw⟩ := h.2.2.1; rw [hw]

theorem Seen.ref : (v.posOf ch).hub.ref = (s.posOf ch).hub.ref := by obtain ⟨w, hw⟩ := h.2.2.1; rw [hw]
end

theorem countStep_hub (ch die t16 : Nat) (d : Int) (s : State) :
    ((countStep ch (2 ^ die) t16 d s).posOf ch).hub = if die = 0 then (let c := addCount (s.posOf ch).hub.count d; ({ (s.posOf ch).hub with count := c }).measure (if 0 < d then c else (s.posOf ch).hub.count) t16) else (s.posOf ch).hub := by
  unfold countStep
  dsimp only
  have e : ∀ (b : Bool) (t : State) v, (if b = true then t.set F.Pos.DIRECTION (pgPos ch) v else t).posOf ch = t.posOf ch := by intro b t v; split <;> rfl
  rw [e, posOf_upd]
  by_cases h : die = 0
  · subst h; rw [upd_hub1 _ _ _ (by decide)]; simp
  · rw [upd_hub0, if_neg h]
    rw [bitAt_eq_testBit, Nat.testBit_two_pow]; simp; exact h

theorem measure_count (r : Replica) (m t : Nat) : (r.measure m t).count = r.count := by unfold Replica.measure; split <;> rfl

theorem measure_ab (r : Replica) (m t : Nat) : (r.measure m t).ab = r.ab := by unfold Replica.measure; split <;> rfl

theorem posKey : ∀ ch < 4, pgPos ch ≠ pgLedger := by decide

theorem hubStep (ch ph : Nat) (chg : Replica → Int) (run : Bool) (g : Replica → Replica) (hg : ∀ r, (g r).count = r.count) (t16 : State → Nat) (en : Nat → Bool) (s : State) (h0 : en 0 = true) :
    let step := fun (s : State) (die : Nat) => if en die = true then
      (let old := ((s.posOf ch).rep die); let d := chg old
       let s1 := if (run && d != 0) = true then countStep ch (2 ^ die) (t16 s) d s else s
       s1.updPos ch (fun p => p.upd (2 ^ die) g)) else s
    let t := (List.range 3).foldl step s
    (t.posOf ch).hub.count = (if (run && chg (s.posOf ch).hub != 0) = true then addCount (s.posOf ch).hub.count (chg (s.posOf ch).hub) else (s.posOf ch).hub.count) ∧
    ∃ r, (t.posOf ch).hub = g r := by
  intro step t
  have st : ∀ (u : State) die, die ≠ 0 → ((step u die).posOf ch).hub = (u.posOf ch).hub := by
    intro u die hd
    have hb : bitAt (2 ^ die) 0 = false := by rw [bitAt_eq_testBit, Nat.testBit_two_pow]; simp; exact hd
    simp only [step]
    split
    · rw [posOf_upd, upd_hub0 _ _ _ hb]
      split
      · rw [countStep_hub, if_neg hd]
      · rfl
    · rfl
  have e : t = step (step (step s 0) 1) 2 := rfl
  rw [e, st _ 2 (by decide), st _ 1 (by decide)]
  simp only [step, h0, if_true]
  rw [posOf_upd, upd_hub1 _ _ _ (by decide)]
  refine ⟨?_, _, rfl⟩
  rw [hg]
  show (State.posOf _ ch).hub.count = _
  have er : (s.posOf ch).rep 0 = (s.posOf ch).hub := rfl
  rw [er]
  split
  · rw [countStep_hub]; simp [measure_count]
  · rfl

theorem diff48_self (a : Nat) : diff48 a a = 0 := by
  unfold diff48 sext low
  have h : (a + 2 ^ 48 - a % 2 ^ 48) % 2 ^ 48 = 0 := by omega
  simp only [h]; decide

theorem set_posOf (s : State) (f : Fld) (p v c : Nat) : (s.set f p v).posOf c = s.posOf c := rfl

theorem showSpeed_pos (ch : Nat) (s : State) (c : Nat) : (showSpeed ch s).posOf c = s.posOf c := rfl

theorem q16_idx (s v : State) (ch ph : Nat) (hc : ch < 4) (ho : Seen ch s v) (hon : s.chOn ch = true) (z : Bool) (hm : s.chMode ch 0 = true) (hz : z ≠ (s.posOf ch).hub.z) (hp : z ≠ s.on F.Pos.Z_POL (pgPos ch)) (hi : s.get F.Pos.INDEX_POLICY (pgPos ch) ≠ 2) (hgt : indexGate (s.get F.Pos.INDEX_GATE (pgPos ch)) (s.posOf ch).hub.ab = true) (href : (s.posOf ch).hub.ref = none) :
      ∃ t, indexNow ch 1 z ph v = t ∧ (t.posOf ch).hub.ref = some (s.posOf ch).hub.count ∧
        (t.posOf ch).hub.count = (s.posOf ch).hub.count ∧ (t.posOf ch).hub.z = z ∧
        t.get F.Pos.INDEX_POS_LO (pgPos ch) = low 32 (s.posOf ch).hub.count ∧
        t.get F.Pos.INDEX_POS_HI (pgPos ch) = low 16 ((s.posOf ch).hub.count / 2 ^ 32) := by
  have hin : v.indexed ch z (v.posOf ch).hub = true := by
    unfold State.indexed
    dsimp only
    rw [ho.chMode, ho.chOn, ho.ab, ho.z, ho.1 _ (by decide) (by decide), ho.1 F.Pos.INDEX_POLICY (by decide) (by decide)]
    unfold State.on at *
    rw [ho.1 _ (by decide) (by decide), hm, hon, hgt]
    simp [hz, hp, hi]
  have hk : ∀ k, k = 1 ∨ k = 2 → bitAt 1 k = false := by rintro k (rfl | rfl) <;> decide
  obtain ⟨y, hy⟩ : ∃ y, y = v.updPos ch (fun p => p.upd 1 (fun r =>
    { (if v.indexed ch z r then (r.index (v.get F.Pos.COUNTS_PER_INDEX (pgPos ch)) (v.on F.Pos.DIRECTION (pgPos ch)) (v.get F.Pos.INDEX_POLICY (pgPos ch) == 1)).1 else r) with z := z })) := ⟨_, rfl⟩
  have hvr : (v.posOf ch).hub.ref = none := by rw [ho.ref, href]
  have hyp : y.posOf ch = { v.posOf ch with hub := { (v.posOf ch).hub with ref := some (s.posOf ch).hub.count, z := z } } := by
    rw [hy, posOf_upd]
    simp only [PosX.upd, show bitAt 1 0 = true by decide, hk 1 (.inl rfl), hk 2 (.inr rfl), if_true, hin, Bool.false_eq_true, if_false, Replica.index, hvr, ho.count]
  have hix : indexEdge ch 1 z v = (y.set F.Pos.INDEX_POS_LO (pgPos ch) (s.posOf ch).hub.count).set F.Pos.INDEX_POS_HI (pgPos ch) ((s.posOf ch).hub.count / 2 ^ 32) := by
    unfold indexEdge
    dsimp only
    rw [← hy, if_pos (by rw [hin]; decide)]
    simp only [Replica.index, hvr, hyp, ho.count]
  have hmv : movedForward ch v (indexEdge ch 1 z v) = 0 := by
    have hself : ∀ a, diff48 a a = 0 := diff48_self
    have hcn : ∀ die, (indexEdge ch 1 z v).countNow ch die = v.countNow ch die := by
      intro die
      rw [hix]; unfold State.countNow
      show ((y.posOf ch).rep die).count = _
      rw [hyp]; unfold PosX.rep; split <;> rfl
    unfold movedForward
    simp only [hcn, hself]
    decide
  have hpi : ∀ t : State, portsIndex ch 1 t = t := by
    intro t; unfold portsIndex
    have hb : ∀ n, bitAt 1 (n + 1) = false := fun n => by rw [bitAt_eq_testBit, Nat.testBit_succ]; simp
    have : (List.range Config.ports).filter (fun p => t.chOf p == ch && bitAt 1 (dieOf p + 1) && t.waitsFor p 1) = [] := by
      simp [List.filter_eq_nil_iff, hb]
    rw [this]; rfl
  have hh : v.indexMask ch 1 z = 1 := by
    unfold State.indexMask
    have : (List.range 3) = [0, 1, 2] := rfl
    rw [this]
    simp only [List.foldl_cons, List.foldl_nil, show bitAt 1 0 = true by decide, hk 1 (.inl rfl), hk 2 (.inr rfl), Bool.true_and, Bool.false_and]
    rw [show (v.posOf ch).rep 0 = (v.posOf ch).hub from rfl, hin]; decide
  refine ⟨indexEdge ch 1 z v, ?_, ?_, ?_, ?_, ?_, ?_⟩
  · unfold indexNow
    simp only [hmv, hh, hpi, if_true, if_false, ite_self]
  · rw [hix]; show (y.posOf ch).hub.ref = _; rw [hyp]
  · rw [hix]; show (y.posOf ch).hub.count = _; rw [hyp]; exact ho.count
  · rw [hix]; show (y.posOf ch).hub.z = _; rw [hyp]
  · rw [hix]; simp (disch := decide) only [State.get_set_off, State.get_set_self]; rfl
  · rw [hix]; simp (disch := decide) only [State.get_set_off, State.get_set_self]; rfl

theorem crossCheck_hub (ch : Nat) (s2 : State) : ((crossCheck ch s2).posOf ch).hub = (s2.posOf ch).hub := by
  unfold crossCheck
  extract_lets pg p tol one c01 c02 c12 s1 found both strong weak dis s2 sx s3
  have a1 : (s1.posOf ch).hub = p.hub := by unfold s1; rw [posOf_upd]
  split
  · exact a1
  · have a2 : (s2.posOf ch).hub = p.hub := by
      unfold s2; rw [← a1, set_posOf, posOf_upd]
    have a3 : s3.pos = s2.pos := rfl
    clear_value s3 s2 dis weak strong found c12 c02 c01 s1
    split
    · rw [posOf_congr a3]; exact a2
    · rw [posOf_congr (State.raise_pos _ _ _ _), set_posOf, posOf_congr a3]; exact a2

theorem channelTick_hub (ch : Nat) (s : State) : ((channelTick ch s).posOf ch).hub = (Replica.tick (s.get F.Pos.OBS_BW (pgPos ch)) (s.get F.Pos.LOCK_TOL (pgPos ch))
          (s.get F.Pos.UNLOCK_TOL (pgPos ch)) s.now (s.posOf ch).hub).1 := by
  unfold channelTick
  extract_lets pg p go s1 e s2
  have h1 : s1.posOf ch = p.upd 7 (fun r => (go r).1) := by
    unfold s1; rw [showSpeed_pos]; exact posOf_upd s ch _
  have h2 : s2.posOf ch = s1.posOf ch := by
    unfold s2; split
    · exact posOf_congr (State.raise_pos _ _ _ _) ch
    · rfl
  rw [crossCheck_hub, h2, h1, upd_hub1 _ _ _ (by decide)]

theorem q16_tick (s : State) (ch : Nat) (hc : ch < 4) (hon : s.chOn ch = true) (h : s.onTick = true) :
      ∃ u : State, (u.posOf ch).hub = (Replica.tick (s.get F.Pos.OBS_BW (pgPos ch)) (s.get F.Pos.LOCK_TOL (pgPos ch))
          (s.get F.Pos.UNLOCK_TOL (pgPos ch)) s.now (s.posOf ch).hub).1 ∧
        exec (.observerTick ch) s = .next (memLatencyWake (portsTick ch u)) := by
  simp only [exec, execObserverTick]
  rw [if_pos ⟨hc, hon, h⟩]
  exact ⟨channelTick ch s, channelTick_hub ch s, rfl⟩

end Sys2Proof.Machine
end

