-- ==== Sys2Proof/Laws/OfDivide.lean ====
section
/-! SUPPORT. Lemmas that the statements about its unit: Divide rest on. -/

-- One declaration after another: the package is also checked as one text, where too many threads would start at once.
set_option Elab.async false

set_option linter.unusedVariables false
set_option linter.unusedSimpArgs false

namespace Sys2Proof.Machine

theorem sat_posOf (s : State) (f : Fld) (p c : Nat) : (s.sat f p).posOf c = s.posOf c := rfl

theorem resp_posOf (s : State) (r : Resp) (c : Nat) : State.posOf { s with resp := r } c = s.posOf c := rfl

theorem measure_ssi (r : Replica) (m t : Nat) : (r.measure m t).ssi = r.ssi := by unfold Replica.measure; split <;> rfl

theorem accept_facts (n t16 v : Nat) (inv : Bool) (r : Replica) : ((r.accept n t16 v inv).1).ssi = some v ∧
    (r.ssi = none → ((r.accept n t16 v inv).1).count = v) ∧ ∀ w, r.ssi = some w → ((r.accept n t16 v inv).1).count = addCount r.count
      (if inv then -(sext n (v + 2 ^ n - w)) else sext n (v + 2 ^ n - w)) := by
  unfold Replica.accept
  cases h : r.ssi with
  | none => refine ⟨measure_ssi _ _ _, fun _ => measure_count _ _ _, fun w hw => by simp at hw⟩
  | some w => refine ⟨measure_ssi _ _ _, fun h => by simp at h, fun w' hw => ?_⟩; injection hw with hw; subst hw; exact measure_count _ _ _

theorem restart_facts (now : Nat) (r : Replica) : (r.restart now).count = r.count ∧ (r.restart now).x = r.count ∧ (r.restart now).v = 0 ∧ (r.restart now).a = 0 ∧ (r.restart now).locked = false := ⟨rfl, rfl, rfl, rfl, rfl⟩

theorem upd7_rep (p : PosX) (f : Replica → Replica) (die : Nat) : (p.upd 7 f).rep die = f (p.rep die) := by
  unfold PosX.rep PosX.upd
  simp only [show bitAt 7 0 = true by decide, show bitAt 7 1 = true by decide, show bitAt 7 2 = true by decide, if_true]
  split <;> rfl

theorem unitsOf_pow (u : Nat) (h : u < 32) : unitsOf (2 ^ u) = [u] := by
  revert u; decide

theorem armed_set (s : State) (u v : Nat) (on : Bool) (hv : v < 32) : (s.setArmed u on).cmpArmed v = if u = v then on else s.cmpArmed v := by
  unfold State.cmpArmed State.setArmed
  dsimp only
  rw [State.get_set_self, bitAt_low (w := F.Cmp.CMP_ARMED.w) hv]
  cases on <;> by_cases h : u = v <;> simp [bitAt_setBit, bitAt_clearBit, h]

theorem cmpDisarm_idle (a : Nat) (s : State) (hd : s.cmpDue a = false) : ∃ c, (cmpDisarm a s = { s.setArmed a false with cmp := c } ∧
      ∀ u ≠ a, tget c u {} = tget s.cmp u {}) ∨ (cmpDisarm a s = s ∧ s.cmpArmed a = false) := by
  unfold cmpDisarm
  split
  · simp only [hd, Bool.false_eq_true, if_false]
    refine ⟨tput s.cmp a { tget s.cmp a {} with judgeAt := none, disAt := some s.now }, .inl ⟨rfl, ?_⟩⟩
    intro u hu; exact tget_tput_ne _ _ _ hu
  · exact ⟨[], .inr ⟨rfl, by simp_all⟩⟩

theorem armed_due (s : State) (a u : Nat) (on : Bool) (c : Tbl CmpX) (h : tget c u {} = tget s.cmp u {}) :
    State.cmpDue { s.setArmed a on with cmp := c } u = s.cmpDue u := by
  have hk : ∀ f i, (F.Cmp.CMP_ARMED.off * 32 + F.Cmp.CMP_ARMED.lo) ≠ (f.off + i * f.stride) * 32 + f.lo →
      State.getI { s.setArmed a on with cmp := c } f pgCmp i = s.getI f pgCmp i := by
    intro f i hf
    refine State.getI_setI_off (f := F.Cmp.CMP_ARMED) (i := 0) s ?_
    rw [Nat.zero_mul, Nat.add_zero]; exact fun e => hf e.symm
  have hq : ∀ ch, State.posNow { s.setArmed a on with cmp := c } ch 0 = s.posNow ch 0 := fun ch => rfl
  have hc : ∀ ch, State.countNow { s.setArmed a on with cmp := c } ch 0 = s.countNow ch 0 := fun ch => rfl
  have e1 : State.on { s.setArmed a on with cmp := c } F.Hdr.ENABLE pgCmp = s.on F.Hdr.ENABLE pgCmp := by
    unfold State.on State.get; rw [hk _ _ (by decide)]
  have e2 : State.cmpTarget { s.setArmed a on with cmp := c } u = s.cmpTarget u := by
    unfold State.cmpTarget State.get2
    rw [hk _ _ (by simp [F.Cmp.CMP_ARMED, F.Cmp.CMP_TARGET_LO, fld, Fld.arr]; omega), hk _ _ (by simp [F.Cmp.CMP_ARMED, F.Cmp.CMP_TARGET_HI, fld, Fld.arr]; omega)]
  have e3 : State.cmpPos { s.setArmed a on with cmp := c } u = s.cmpPos u := by
    unfold State.cmpPos State.onI
    rw [hk _ _ (by simp [F.Cmp.CMP_ARMED, F.Cmp.CHANNEL, fld, Fld.arr]; omega), hk _ _ (by simp [F.Cmp.CMP_ARMED, F.Cmp.SRC, fld, Fld.arr]; omega)]
    dsimp only
    rw [hq, hc]
  unfold State.cmpDue State.cmpDist
  rw [e1, e2, e3]
  rw [show State.cmp { s.setArmed a on with cmp := c } = c from rfl, h]

theorem disarm_fold (l : List Nat) (s : State) (hl : l.Nodup) (hd : ∀ u ∈ l, s.cmpDue u = false) :
    forAll l s cmpDisarm = { s with regs := (forAll l s cmpDisarm).regs, cmp := (forAll l s cmpDisarm).cmp } ∧
    s.RegsBut (forAll l s cmpDisarm) [F.Cmp.CMP_ARMED.key pgCmp 0] ∧
    ∀ u < 32, (forAll l s cmpDisarm).cmpArmed u = (s.cmpArmed u && !decide (u ∈ l)) := by
  induction l generalizing s with
  | nil => exact ⟨rfl, fun _ _ => rfl, fun u _ => by simp [forAll]⟩
  | cons a l ih =>
    have e : forAll (a :: l) s cmpDisarm = forAll l (cmpDisarm a s) cmpDisarm := rfl
    rw [e]
    obtain ⟨c, hc⟩ := cmpDisarm_idle a s (hd a (by simp))
    have hn := List.nodup_cons.mp hl
    have hd2 : ∀ u ∈ l, (cmpDisarm a s).cmpDue u = false := by
      intro u hu
      have hne : u ≠ a := fun h => hn.1 (h ▸ hu)
      rcases hc with ⟨hc, hg⟩ | ⟨hc, -⟩
      · rw [hc, armed_due s a u false c (hg u hne)]; exact hd u (by simp [hu])
      · rw [hc]; exact hd u (by simp [hu])
    obtain ⟨h1, h2, h3⟩ := ih (cmpDisarm a s) hn.2 hd2
    have k1 : cmpDisarm a s = { s with regs := (cmpDisarm a s).regs, cmp := (cmpDisarm a s).cmp } := by
      rcases hc with ⟨hc, -⟩ | ⟨hc, -⟩
      · rw [hc]; rfl
      · rw [hc]
    refine ⟨by rw [h1, k1], fun k hk => (h2 k hk).trans ?_, fun u hu => ?_⟩
    · rcases hc with ⟨hc, -⟩ | ⟨hc, -⟩
      · rw [hc]; exact (s.onlyRegs_setI F.Cmp.CMP_ARMED pgCmp 0 _).2 k hk
      · rw [hc]
    · rw [h3 u hu]
      rcases hc with ⟨hc, -⟩ | ⟨hc, h0⟩
      · have : (cmpDisarm a s).cmpArmed u = (s.setArmed a false).cmpArmed u := by rw [hc]; rfl
        rw [this, armed_set _ _ _ _ hu]
        by_cases ha : a = u
        · simp [ha]
        · simp [ha, Ne.symm ha]
      · rw [hc]
        by_cases ha : a = u
        · subst ha; simp [h0]
        · simp [Ne.symm ha]

theorem divSync_load (s : State) (d phase : Nat) (h : (s.setI F.Div.PHASE pgDiv d phase).getI F.Div.N_IN_M1 pgDiv d = s.getI F.Div.N_IN_M1 pgDiv d) :
    ∃ c, divSync d (s.setI F.Div.PHASE pgDiv d phase) = { ((s.setI F.Div.PHASE pgDiv d phase).setI F.Div.ACC pgDiv d
      (min (low 16 phase) (s.getI F.Div.N_IN_M1 pgDiv d))).setI F.Div.BACKLOG pgDiv d 0 with div := c } := by
  unfold divSync
  dsimp only
  rw [h, State.getI_setI_self]
  exact ⟨_, rfl⟩

theorem arm_eq (s : State) (u owner : Nat) (rev : Bool) (hu : u < 32) (hp : s.passes pgCmp owner = true) (hen : s.on F.Hdr.ENABLE pgCmp = true) (ha : s.cmpArmed u = false)
    (hrev : rev = (if s.getI F.Cmp.DIR pgCmp u = 0 then false else if s.getI F.Cmp.DIR pgCmp u = 1 then true
        else s.on F.Pos.DIRECTION (pgPos (s.getI F.Cmp.CHANNEL pgCmp u)))) :
    exec (.cmpArm (2 ^ u) owner) s = .next (let v : State := { s with cmp := tput s.cmp u { tget s.cmp u {} with rev := rev } }
      if 0 < distance rev (s.cmpTarget u) (s.cmpPos u) then v.setArmed u true else
        let d := distance rev (s.cmpTarget u) (s.cmpPos u)
        let w := ((v.sat F.Cmp.CMP_LATE_COUNT pgCmp).setArmed u false).raise Ev.posCompareLate pgCmp (arg64 (if (65536 : Int) * 4294967295 ≤ -d then 4294967295 else ((-d) / 65536).toNat) (bit (s.onI F.Cmp.LATE_POLICY pgCmp u) * 256 + u))
        if s.onI F.Cmp.LATE_POLICY pgCmp u = true then cmpMatch u w else w) := by
  simp only [exec, execCmpArm, gateReg_passes hp, cmpArmAll, hen, if_true, unitsOf_pow u hu]
  show Host.Outcome.next (cmpArm u s) = _
  unfold cmpArm
  rw [ha]
  simp only [Bool.false_eq_true, if_false]
  have hd : State.cmpDist { s with cmp := tput s.cmp u { tget s.cmp u {} with rev := rev } } u = distance rev (s.cmpTarget u) (s.cmpPos u) := by
    unfold State.cmpDist
    show distance (tget (tput s.cmp u _) u {}).rev _ _ = _
    rw [tget_tput_self]; rfl
  have hj : (Host.Outcome.next : State → Out) (cmpJudge u { s with cmp := tput s.cmp u { tget s.cmp u {} with rev := rev } }) = Host.Outcome.next (let v : State := { s with cmp := tput s.cmp u { tget s.cmp u {} with rev := rev } }
      if 0 < distance rev (s.cmpTarget u) (s.cmpPos u) then v.setArmed u true else
        let d := distance rev (s.cmpTarget u) (s.cmpPos u)
        let w := ((v.sat F.Cmp.CMP_LATE_COUNT pgCmp).setArmed u false).raise Ev.posCompareLate pgCmp (arg64 (if (65536 : Int) * 4294967295 ≤ -d then 4294967295 else ((-d) / 65536).toNat) (bit (s.onI F.Cmp.LATE_POLICY pgCmp u) * 256 + u))
        if s.onI F.Cmp.LATE_POLICY pgCmp u = true then cmpMatch u w else w) := by
    unfold cmpJudge; simp only [hd]; rfl
  rw [← hj]
  generalize hx : s.getI F.Cmp.DIR pgCmp u = x at hrev ⊢
  match x, hrev with
  | 0, hrev => rw [show rev = false by simpa using hrev]; rfl
  | 1, hrev => rw [show rev = true by simpa using hrev]; rfl
  | n + 2, hrev => rw [show rev = s.on F.Pos.DIRECTION (pgPos (s.getI F.Cmp.CHANNEL pgCmp u)) by simpa using hrev]; rfl

end Sys2Proof.Machine
end

