-- ==== Sys2Proof/Laws/OfFiring.lean ====
section
/-! SUPPORT. Lemmas that the statements about its unit: Firing rest on. -/

-- One declaration after another: the package is also checked as one text, where too many threads would start at once.
set_option Elab.async false

set_option linter.unusedVariables false
set_option linter.unusedSimpArgs false

namespace Sys2Proof.Machine

theorem portPage : ∀ p < 48, pgPort p ≠ pgLedger := by decide

theorem fire_facts (p f : Nat) (q : Slot) (d : Nat) (rest : List Slot) (ds : List Nat) (bufErr ptErr : Bool) (corr : Nat) (s : State) (hp : p < 48) (hs : (s.portOf p).slots = q :: rest) (hd : (s.portOf p).due = d :: ds) :
      ∃ u : State, u.pget F.Port.FOLIO_NOW p = low 32 q.folio ∧ u.pget F.Port.LINE_NOW p = low 24 q.line ∧
        (s.runState p = 3 → u.runState p = 4) ∧ (u.portOf p).slots = rest ∧ (u.portOf p).due = ds ∧ (u.portOf p).lastF = some f ∧
        (u.portOf p).fired = some q.at_ ∧
        (u.portOf p).strobes = ((((s.portOf p).runs.find? (fun r => r.n == q.folio)).map (·.phases)).getD [0]).map
          (fun k => strobeAt (f + k) (s.pget F.Port.STROBE_WIDTH p) (s.trims (dieOf p))) ∧
        (d < f → bitAt (u.get F.Hdr.EVENT_STATUS (pgPort p)) Ev.fireOverspeed.bit = true) ∧ (∀ k ≠ p, u.portOf k = s.portOf k) ∧
        ∃ v tg dw fl j lv, v = urgency p (sendPoint p bufErr (topUp 16 p (holdCheck p ((proofLine p q.folio tg dw fl j lv u).satI F.Clu.LB_CORRECTED (pgClu (p / 4)) 0 corr)))) ∧
          fireLine p f q d bufErr ptErr corr s = trimPast (if ptErr then phaseError p v else v) := by
  unfold fireLine
  extract_lets pg x run s1 s2 s3 width tr s4 dw jump s5 s6 s7
  have p1 : s1.port = s.port := by unfold s1; split; exacts [State.raise_port _ _ _ _, rfl]
  have e1 : ∀ {g : Fld}, (g.off + 0 * g.stride) * 32 + g.lo ≠ 512 → (g.off + 0 * g.stride) * 32 + g.lo ≠ (F.Port.DELAYED_LINES.off + 0 * F.Port.DELAYED_LINES.stride) * 32 + F.Port.DELAYED_LINES.lo →
      g.off + 0 * g.stride < 4096 → g.lo < 32 → s1.get g pg = s.get g pg := by
    intro g h1 h2 h3 h4; unfold s1; split
    · rw [State.get_raise_off _ _ (portPage p hp) h1 h3 h4]; exact State.get_setI_off _ h2
    · rfl
  have r1 : s1.runState p = s.runState p := e1 (by decide) (by decide) (by decide) (by decide)
  have hb : d < f → bitAt (s1.get F.Hdr.EVENT_STATUS pg) Ev.fireOverspeed.bit = true := fun h => by
    unfold s1; rw [if_pos h]; exact State.raise_bit _ _ _ (portPage p hp) (by decide)
  have s2e : s2 = s1 ∨ s2 = s1.set F.Port.RUN_STATUS_STATE pg 4 := by
    unfold s2; split
    · right; rfl
    · left; rfl
  have p2 : s2.port = s.port := by rcases s2e with h | h <;> rw [h] <;> exact p1
  have p3 : ∀ k, s3.portOf k = s.portOf k := fun k => portOf_congr (show s3.port = s.port from p2) k
  have e3 : ∀ k, s4.get k pg = s3.get k pg := fun _ => rfl
  have x4 : s4.portOf p = _ := portOf_updPort s3 p _
  refine ⟨s4, ?_, ?_, fun h3 => ?_, ?_, ?_, ?_, ?_, ?_, fun h => ?_, fun k hk => ?_, s7, _, _, _, _, _, rfl, rfl⟩
  · show s4.get F.Port.FOLIO_NOW pg = _
    rw [e3]; unfold s3 State.set2; rw [State.get_setI_off _ (by decide), State.get_setI_off _ (by decide), State.get_set_off _ (by decide), State.get_set_self]; rfl
  · show s4.get F.Port.LINE_NOW pg = _
    rw [e3]; unfold s3 State.set2; rw [State.get_setI_off _ (by decide), State.get_setI_off _ (by decide), State.get_set_self]; rfl
  · show s4.get F.Port.RUN_STATUS_STATE pg = _
    rw [e3]; unfold s3 State.set2; rw [State.get_setI_off _ (by decide), State.get_setI_off _ (by decide), State.get_set_off _ (by decide), State.get_set_off _ (by decide)]
    unfold s2; rw [if_pos (by rw [r1, h3])]; exact State.get_set_self _ _ _ _
  · rw [x4, p3, hs]; rfl
  · rw [x4, p3, hd]; rfl
  · rw [x4]
  · rw [x4]
  · rw [x4]
  · rw [e3]; unfold s3 State.set2; rw [State.get_setI_off _ (by decide), State.get_setI_off _ (by decide), State.get_set_off _ (by decide), State.get_set_off _ (by decide)]
    rcases s2e with h' | h' <;> rw [h']
    · exact hb h
    · rw [State.get_set_off _ (by decide)]; exact hb h
  · rw [show s4.portOf k = s3.portOf k from portOf_updPort_ne s3 _ hk, p3]

end Sys2Proof.Machine
end

