-- ==== Sys2Proof/Laws/OfLaneMsg.lean ====
section
/-! SUPPORT. Lemmas that the statements about its unit: LaneMsg rest on. -/

-- One declaration after another: the package is also checked as one text, where too many threads would start at once.
set_option Elab.async false

set_option linter.unusedVariables false
set_option linter.unusedSimpArgs false

namespace Sys2Proof.Machine

theorem sysRead_only (cls a n : Nat) (s : State) : s.MemOnly (sysRead cls a n s) := by
  unfold sysRead; split
  · exact memOnly_sdramRead _ _ _ (.refl s)
  · exact .refl s

theorem sysRead_laneOf (cls a n p : Nat) (s : State) : (sysRead cls a n s).laneOf p = s.laneOf p := by
  unfold State.laneOf; rw [(sysRead_only cls a n s).lane]

theorem download_ok (s : State) (p table len a : Nat) (po : Option Nat) (src : List Byte) (h : s.downloadReason p table len = 0)
    (ha : a = s.laneGet F.Lane.WAVE_DL_SRC_LO p + s.laneGet F.Lane.WAVE_DL_SRC_HI p * 2 ^ 32)
    (hs : src = s.sysBytes a len) (hb : (firstPoison po (s.sysPoison a len)).filter (fun k => decide (k < len)) = none) :
    (download p table len po s).laneGet F.Lane.WAVE_DL_STATE p = 1 ∧ (download p table len po s).laneGet F.Lane.WAVE_DL_CRC p = low 32 (crc32 src) ∧
      (download p table len po s).laneOf p = { s.laneOf p with dlTable := table, dlSent := none, loads := loadMsgs table src true } := by
  unfold download
  simp only [h, ne_eq, not_true_eq_false, if_false, ← ha, hb, Option.isSome_none, Bool.false_eq_true, Option.isNone_none]
  rw [← hs]
  refine ⟨?_, ?_, ?_⟩
  · rw [State.laneGet_updLane, State.laneGet_laneSet_off _ (f := F.Lane.WAVE_DL_CRC) (g := F.Lane.WAVE_DL_STATE) rfl (by decide), State.laneGet_laneSet]; rfl
  · rw [State.laneGet_updLane, State.laneGet_laneSet]; rfl
  · rw [State.laneOf_updLane, State.laneOf_laneSet, State.laneOf_laneSet, sysRead_laneOf]

theorem download_poison (s : State) (p table len a k : Nat) (po : Option Nat) (src : List Byte) (hp : p < 48) (ht : table < 16) (h : s.downloadReason p table len = 0)
    (ha : a = s.laneGet F.Lane.WAVE_DL_SRC_LO p + s.laneGet F.Lane.WAVE_DL_SRC_HI p * 2 ^ 32)
    (hs : src = s.sysBytes a len) (hb : (firstPoison po (s.sysPoison a len)).filter (fun k => decide (k < len)) = some k) :
    ∃ t, download p table len po s = t ∧ t.laneGet F.Lane.WAVE_DL_STATE p = 3 ∧ bitAt (t.laneGet F.Lane.WAVE_BAD p) table = true ∧
          (t.laneOf p).loads = loadMsgs table (src.take (k / 56 * 56)) false ∧
          bitAt (t.get F.Hdr.EVENT_STATUS (pgLane (p / 4))) Ev.laneWaveLoadFail.bit = true := by
  unfold download
  simp only [h, ne_eq, not_true_eq_false, if_false, ← ha, hb, Option.isSome_some, if_true, Option.isNone_some]
  rw [← hs]
  obtain ⟨u, hu⟩ : ∃ u : State, u = ((((sysRead 5 a (k + 1) s).laneSet F.Lane.WAVE_DL_STATE p 1).laneSet F.Lane.WAVE_DL_CRC p (crc32 (src.take (k / 56 * 56)))).updLane p (fun x => { x with dlTable := table, dlSent := none, loads := loadMsgs table (src.take (k / 56 * 56)) false })) := ⟨_, rfl⟩
  rw [← hu]
  have hd : (u.laneOf p).dlTable = table ∧ (u.laneOf p).loads = loadMsgs table (src.take (k / 56 * 56)) false := by
    rw [hu, State.laneOf_updLane]; exact ⟨rfl, rfl⟩
  obtain ⟨t, h1, h2, h3, h4, h5⟩ := downloadFail_facts u p 3 hp (by rw [hd.1]; exact ht)
  exact ⟨t, h1, h2, by rw [← hd.1]; exact h3, by rw [h4]; exact hd.2, h5⟩

end Sys2Proof.Machine
end

