-- ==== Sys2Proof/Laws/OfLaneRet.lean ====
section
/-! SUPPORT. Lemmas that the statements about its unit: LaneRet rest on. -/

-- One declaration after another: the package is also checked as one text, where too many threads would start at once.
set_option Elab.async false

set_option linter.unusedVariables false
set_option linter.unusedSimpArgs false

namespace Sys2Proof.Machine

theorem laneKey (p : Nat) (f : Fld) (h : f.stride = 0x80) (hf : f.off + 384 < 4096) (hl : f.lo < 32) (hp : p < 48) : f.key (pgLane (p / 4)) (p % 4) / 131072 ≠ pgLedger := by
  rw [Fld.key_page (by rw [h]; omega) hl]; exact pgLane_ne p hp

theorem status_facts (s : State) (p : Nat) (m : Msg) (hp : p < 48) : ∃ u : State, statusMsg p m s = statusDownload p m u ∧
      u.laneGet F.Lane.ACTIVE_TABLE p = low 4 (m.le 3 1) ∧
          u.laneGet F.Lane.CFG_COUNT p = low 8 (m.le 10 1) ∧ u.laneGet F.Lane.IN_STEP p = low 1 (m.le 2 1 / 8) ∧
          u.laneGet F.Lane.BRIDGE_LINE_MISSING p = low 16 (m.le 8 2) ∧ u.laneGet F.Lane.LANE_STATUS_BRIDGE_ALIVE p = 1 ∧
          u.laneOf p = { s.laneOf p with lastStatus := some s.now, fault := bitAt (m.le 2 1) 4, bothHold := bitAt (m.le 2 1) 6 } ∧
          u.laneGet F.Lane.WAVE_DL_STATE p = s.laneGet F.Lane.WAVE_DL_STATE p ∧ u.laneGet F.Lane.WAVE_DL_CRC p = s.laneGet F.Lane.WAVE_DL_CRC p := by
  unfold statusMsg
  extract_lets x flags s1 s2 s3 s4
  have c3 : ∀ g : Fld, 32 ≤ g.off → g.off + 3 * g.stride < 4096 → g.lo < 32 → s4.laneGet g p = s2.laneGet g p := by
    intro g h1 h2 h3
    have e3 : s3.laneGet g p = s2.laneGet g p := by unfold s3; split; exacts [State.laneGet_laneRaise _ _ hp h1 h2 h3, rfl]
    unfold s4; split
    · rw [State.laneGet_laneRaise _ _ hp h1 h2 h3, e3]
    · exact e3
  have l3 : s4.laneOf p = s2.laneOf p := by
    have e3 : s3.laneOf p = s2.laneOf p := by unfold s3; split; exacts [State.laneOf_laneRaise _ _ _ _ _ _, rfl]
    unfold s4; split
    · rw [State.laneOf_laneRaise, e3]
    · exact e3
  refine ⟨s4, rfl, ?_, ?_, ?_, ?_, ?_, ?_, ?_, ?_⟩
  all_goals first | rw [c3 _ (by decide) (by decide) (by decide)] | rw [l3]
  all_goals unfold s2
  all_goals first | rw [State.laneGet_updLane] | rw [State.laneOf_updLane]
  · unfold s1; simp (disch := decide) only [State.laneGet_laneSet_off, State.laneGet_laneSet]; rfl
  · unfold s1; simp (disch := decide) only [State.laneGet_laneSet_off, State.laneGet_laneSet]; rfl
  · unfold s1; simp (disch := decide) only [State.laneGet_laneSet_off, State.laneGet_laneSet]; rfl
  · unfold s1; simp (disch := decide) only [State.laneGet_laneSet_off, State.laneGet_laneSet]; rfl
  · simp (disch := decide) only [State.laneGet_laneSet_off, State.laneGet_laneSet]; rfl
  · rfl
  · unfold s1; simp (disch := decide) only [State.laneGet_laneSet_off]
  · unfold s1; simp (disch := decide) only [State.laneGet_laneSet_off]

theorem statusDownload_keep (s : State) (p : Nat) (m : Msg) (hp : p < 48) : (∀ g : Fld, 32 ≤ g.off → g.off + 3 * g.stride < 4096 → g.lo < 32 →
     g.stride = 128 → g.off * 32 + g.lo ≠ F.Lane.WAVE_DL_STATE.off * 32 + F.Lane.WAVE_DL_STATE.lo → g.off * 32 + g.lo ≠ F.Lane.WAVE_BAD.off * 32 + F.Lane.WAVE_BAD.lo →
     (statusDownload p m s).laneGet g p = s.laneGet g p) ∧
     ((statusDownload p m s).laneOf p).lastStatus = (s.laneOf p).lastStatus ∧ ((statusDownload p m s).laneOf p).fault = (s.laneOf p).fault := by
  unfold statusDownload downloadFail; dsimp only
  refine ⟨fun g h1 h2 h3 h4 h5 h6 => ?_, ?_, ?_⟩
  · split
    · split
      · rw [State.laneGet_updLane, State.laneGet_laneSet_off _ h4 h6, State.laneGet_laneSet_off _ h4 h5]
      · rw [State.laneGet_laneRaise _ _ hp h1 h2 h3, State.laneGet_updLane, State.laneGet_laneSet_off _ h4 h6, State.laneGet_laneSet_off _ h4 h5]
    · rfl
  · split
    · split
      · rw [State.laneOf_updLane]; rfl
      · rw [State.laneOf_laneRaise, State.laneOf_updLane]; rfl
    · rfl
  · split
    · split
      · rw [State.laneOf_updLane]; rfl
      · rw [State.laneOf_laneRaise, State.laneOf_updLane]; rfl
    · rfl

theorem block_eq (s : State) (p bseq : Nat) (mark : List Bool) (gap : Nat) (bits : List Bool) (hp : p < 48) (hl : s.looped p = false) (hm : readMarker mark = some bseq) :
    exec (.blockReceived p mark gap bits) s = .next (laneBlock p bseq gap bits s) := by
  show execBlockReceived p mark gap bits s = _
  unfold execBlockReceived
  simp only [hm, hp, if_true, hl, Bool.false_eq_true, if_false]

end Sys2Proof.Machine
end

