-- ==== Sys2Proof/Laws/OfCamSlot.lean ====
section
/-! SUPPORT. Lemmas that the statements about its unit: CamSlot rest on. -/

-- One declaration after another: the package is also checked as one text, where too many threads would start at once.
set_option Elab.async false

set_option linter.unusedVariables false
set_option linter.unusedSimpArgs false

namespace Sys2Proof.Machine

theorem settle_line (st : Nat) (l : List FrameX) (s : State) : ((settleFrames st l s).slotX st).line = (s.slotX st).line := by
  induction l generalizing s with
  | nil => unfold settleFrames; rw [State.slotX_updSlot]
  | cons f fs ih =>
    unfold settleFrames; split
    · rw [ih, State.slotX_congr (tapFrameEnd_cam _ _ _), State.slotX_congr (statsRecord_cam _ _ _)]
    · rw [State.slotX_updSlot]

theorem closeFrame_line (st : Nat) (ch : FrameX → FrameX) (s : State) : ((closeFrame st ch s).slotX st).line = (s.slotX st).line := by
  unfold closeFrame
  cases h : (s.slotX st).frame with
  | none => rfl
  | some f0 =>
    dsimp only
    unfold settle
    rw [settle_line]
    have e : ∀ x : State, ((if x.get F.Pipe.FRAME_SOURCE pgPipe = linkOf st then freshLoad F.Pipe.PIPE_LOAD pgPipe x else x).slotX st) = x.slotX st := by
      intro x; split
      · rfl
      · rfl
    rw [e]
    have key : ∀ (c : Prop) [Decidable c] (a : State) (e : Ev) (pg arg : Nat), ((if c then a.raise e pg arg else a).slotX st) = a.slotX st := by
      intro c _ a e pg arg; split
      · exact State.slotX_raise _ _ _ _ _
      · rfl
    rw [key]; unfold State.wrapI; rw [State.slotX_setI, State.slotX_updSlot]
    dsimp only
    have k2 : ∀ (c : Prop) [Decidable c], ((if c then s else s.free.2).slotX st) = s.slotX st := by
      intro c _; split <;> rfl
    rw [k2]

theorem bufferLine_line (st : Nat) (y : CamLine) (s : State) : ((bufferLine st y s).slotX st).line = (s.slotX st).line := by
  unfold bufferLine; dsimp only
  split
  · unfold updOpen; rw [State.slotX_updSlot, State.slotX_updSlot]
  · split
    · rfl
    · rw [State.slotX_raise]; unfold updOpen; rw [State.slotX_updSlot]; rfl

theorem endLine_line (st n : Nat) (s : State) : ((endLine st n s).slotX st).line = none := by
  unfold endLine
  cases h : (s.slotX st).line with
  | none => exact h
  | some y0 =>
    dsimp only
    obtain ⟨w, hw⟩ : ∃ w : State, w = s.updSlot st (fun x => { x with line := none }) := ⟨_, rfl⟩
    have e0 : (w.slotX st).line = none := by rw [hw, State.slotX_updSlot]
    rw [← hw]
    cases hf : (w.slotX st).frame with
    | none => exact e0
    | some f =>
      dsimp only
      split
      · exact e0
      · split
        · unfold updOpen; rw [State.slotX_updSlot]; exact e0
        · have e1 : ∀ y, ((bufferLine st y (updOpen st (fun f => f.count y) w)).slotX st).line = none := by
            intro y; rw [bufferLine_line]; unfold updOpen; rw [State.slotX_updSlot]; exact e0
          split
          · rw [closeFrame_line]; exact e1 _
          · exact e1 _

theorem cciNext_keep (l n : Nat) (s : State) : (cciNext l n s).get F.Cam.CCI_STATUS_BUSY (pgCam l) = s.get F.Cam.CCI_STATUS_BUSY (pgCam l) ∧
    (cciNext l n s).get F.Cam.DONE (pgCam l) = s.get F.Cam.DONE (pgCam l) ∧ (cciNext l n s).get F.Cam.NACK (pgCam l) = s.get F.Cam.NACK (pgCam l) ∧
    (cciNext l n s).get F.Cam.READ_DATA (pgCam l) = s.get F.Cam.READ_DATA (pgCam l) ∧
    ((cciNext l n s).linkX l).direct = (s.linkX l).direct := by
  induction n generalizing s with
  | zero => exact ⟨rfl, rfl, rfl, rfl, rfl⟩
  | succ n ih =>
    unfold cciNext; dsimp only
    split
    · exact ⟨rfl, rfl, rfl, rfl, rfl⟩
    · split
      · split
        · obtain ⟨a, b, c, d, e⟩ := ih (((s.set F.Cam.EXP_STATUS_STATE (pgCam l) (if ‹ExpSeq›.late then 3 else 2)).set F.Cam.LAST_ID (pgCam l) ‹ExpSeq›.id).updLink l (fun x => { x with exps := ‹List ExpSeq› }))
          rw [a, b, c, d, e]
          simp (disch := decide) only [State.get_updLink, State.get_set_off, State.linkX_updLink, State.linkX_set, and_self]
        · simp (disch := decide) only [State.get_updLink, State.get_set_off, State.linkX_updLink, State.linkX_set, and_self]
      · split
        · simp only [State.get_updLink, State.linkX_updLink, and_self]
        · exact ⟨rfl, rfl, rfl, rfl, rfl⟩

theorem cciDirect_facts (l : Nat) (rd : Bool) (s : State) (h : s.on F.Cam.CCI_STATUS_BUSY (pgCam l) = false) : ∃ t, cciDirect l rd s = t ∧
    t.on F.Cam.CCI_STATUS_BUSY (pgCam l) = true ∧ t.get F.Cam.DONE (pgCam l) = 0 ∧
          t.get F.Cam.NACK (pgCam l) = 0 ∧ (t.linkX l).direct = some (rd, s.get F.Cam.CCI_DIRECT_DEV (pgCam l), s.get F.Cam.CCI_DIRECT_REG (pgCam l), s.get F.Cam.CCI_DIRECT_DATA (pgCam l)) := by
  refine ⟨_, rfl, ?_⟩
  unfold cciDirect; dsimp only
  rw [if_neg (by rw [h]; decide)]
  unfold cciGo State.on
  obtain ⟨a, b, c, d, e⟩ := cciNext_keep l ((((((s.set F.Cam.CCI_STATUS_BUSY (pgCam l) 1).set F.Cam.DONE (pgCam l) 0).set F.Cam.NACK (pgCam l) 0).updLink l (fun x => { x with
      direct := some (rd, s.get F.Cam.CCI_DIRECT_DEV (pgCam l), s.get F.Cam.CCI_DIRECT_REG (pgCam l), s.get F.Cam.CCI_DIRECT_DATA (pgCam l)) })).linkX l).exps.length + 1)
    ((((s.set F.Cam.CCI_STATUS_BUSY (pgCam l) 1).set F.Cam.DONE (pgCam l) 0).set F.Cam.NACK (pgCam l) 0).updLink l (fun x => { x with
      direct := some (rd, s.get F.Cam.CCI_DIRECT_DEV (pgCam l), s.get F.Cam.CCI_DIRECT_REG (pgCam l), s.get F.Cam.CCI_DIRECT_DATA (pgCam l)) }))
  rw [a, b, c, e]
  simp (disch := decide) only [State.get_updLink, State.get_set_off, State.get_set_self, State.linkX_updLink]
  exact ⟨rfl, rfl, rfl, trivial⟩

end Sys2Proof.Machine
end

