-- ==== Sys2Proof/Laws/OfTracker.lean ====
section
/-! SUPPORT. Lemmas that the statements about its unit: Tracker rest on. -/

-- One declaration after another: the package is also checked as one text, where too many threads would start at once.
set_option Elab.async false

set_option linter.unusedVariables false
set_option linter.unusedSimpArgs false

namespace Sys2Proof.Machine

theorem trkPort_upd (s : State) (p : Nat) (f : TrkPort → TrkPort) : (s.updTrkPort p f).trkPort p = f (s.trkPort p) := tget_tput_self _ _ _ _

theorem trkPort_upd_ne (s : State) {p q : Nat} (f : TrkPort → TrkPort) (h : q ≠ p) : (s.updTrkPort p f).trkPort q = s.trkPort q := tget_tput_ne _ _ _ h

theorem addUnit_only (row : Nat) (cs : List Nat) (x : Nat) (a : List Nat) (s : State) :
    (addUnit row cs x a s).regs = s.regs ∧ (addUnit row cs x a s).trk = s.trk ∧ (addUnit row cs x a s) = { s with room := (addUnit row cs x a s).room, sramErr := (addUnit row cs x a s).sramErr } := by
  have key : addUnit row cs x a s = { s with room := (addUnit row cs x a s).room, sramErr := (addUnit row cs x a s).sramErr } := by
    unfold addUnit; dsimp only
    unfold roomPut; dsimp only
    generalize hz : forAll (List.range cs.length) s _ = z
    have : z = { s with room := z.room, sramErr := z.sramErr } := by
      rw [← hz]
      refine forAll_inv _ s _ (fun z => z = { s with room := z.room, sramErr := z.sramErr }) rfl ?_
      intro i z hz1
      refine forAll_inv _ _ _ (fun z => z = { s with room := z.room, sramErr := z.sramErr }) ?_ ?_
      · refine forAll_inv _ _ _ (fun z => z = { s with room := z.room, sramErr := z.sramErr }) hz1 ?_
        intro j w hw; unfold addTerm roomPut; rw [hw]
      · intro j w hw; unfold addTerm roomPut; rw [hw]
    rw [this]
  exact ⟨by rw [key], by rw [key], key⟩

theorem nozzle_keep (p n v : Nat) (found : Bool) (s : State) : (nozzleSolved p n v found s).room = s.room ∧ (nozzleSolved p n v found s).trkState = s.trkState ∧
    (nozzleSolved p n v found s).get F.Dtrk.SOLVE_TIME pgTrk = s.get F.Dtrk.SOLVE_TIME pgTrk ∧ (nozzleSolved p n v found s).now = s.now := by
  unfold nozzleSolved; dsimp only
  split
  · have key : ∀ z : State, z.room = s.room ∧ z.get F.Dtrk.TRK_STATE_STATE pgTrk = s.get F.Dtrk.TRK_STATE_STATE pgTrk ∧ z.get F.Dtrk.SOLVE_TIME pgTrk = s.get F.Dtrk.SOLVE_TIME pgTrk ∧ z.now = s.now →
        ∀ e arg, (z.raise e pgTrk arg).room = s.room ∧ (z.raise e pgTrk arg).trkState = s.trkState ∧ (z.raise e pgTrk arg).get F.Dtrk.SOLVE_TIME pgTrk = s.get F.Dtrk.SOLVE_TIME pgTrk ∧ (z.raise e pgTrk arg).now = s.now := by
      intro z hz e arg
      refine ⟨by rw [State.raise_room]; exact hz.1, ?_, ?_, by rw [State.raise_now]; exact hz.2.2.2⟩
      · unfold State.trkState; rw [State.get_raise_off _ _ (by decide) (by decide) (by decide) (by decide)]; exact hz.2.1
      · rw [State.get_raise_off _ _ (by decide) (by decide) (by decide) (by decide)]; exact hz.2.2.1
    refine key _ ?_ _ _
    have e1 : ∀ x : Noz, ((setNoz p n x s).sat F.Dtrk.NOZZLES_OUT pgTrk).get F.Dtrk.TRK_STATE_STATE pgTrk = s.get F.Dtrk.TRK_STATE_STATE pgTrk := fun x => by
      unfold State.sat State.satI; rw [State.get_setI_off _ (by decide)]; rfl
    have e2 : ∀ x : Noz, ((setNoz p n x s).sat F.Dtrk.NOZZLES_OUT pgTrk).get F.Dtrk.SOLVE_TIME pgTrk = s.get F.Dtrk.SOLVE_TIME pgTrk := fun x => by
      unfold State.sat State.satI; rw [State.get_setI_off _ (by decide)]; rfl
    split
    · exact ⟨rfl, e1 _, e2 _, rfl⟩
    · exact ⟨rfl, e1 _, e2 _, rfl⟩
  · exact ⟨rfl, rfl, rfl, rfl⟩

theorem portSolved_inv (found : Nat → Found) (p : Nat) (s : State) (P : State → Prop) (h0 : P s) (h : ∀ n v b s, P s → P (nozzleSolved p n v b s)) : P (portSolved found p s) := by
  unfold portSolved
  extract_lets pg c x0
  generalize List.range 4096 = ns
  refine forAll_inv ns s _ P h0 ?_
  intro n w hw
  split
  · split
    · exact h _ _ _ _ hw
    · exact hw
  · exact hw

theorem solved_keep (f : Nat → Found) (l : List Nat) (s : State) : ((forAll l s (portSolved f)).room = s.room ∧ (forAll l s (portSolved f)).trkState = s.trkState ∧
    (forAll l s (portSolved f)).get F.Dtrk.SOLVE_TIME pgTrk = s.get F.Dtrk.SOLVE_TIME pgTrk ∧ (forAll l s (portSolved f)).now = s.now) := by
  refine forAll_inv l s (portSolved f) (fun z => z.room = s.room ∧ z.trkState = s.trkState ∧ z.get F.Dtrk.SOLVE_TIME pgTrk = s.get F.Dtrk.SOLVE_TIME pgTrk ∧ z.now = s.now) ⟨rfl, rfl, rfl, rfl⟩ ?_
  intro p z hz
  refine portSolved_inv f p z (fun z => z.room = s.room ∧ z.trkState = s.trkState ∧ z.get F.Dtrk.SOLVE_TIME pgTrk = s.get F.Dtrk.SOLVE_TIME pgTrk ∧ z.now = s.now) hz ?_
  intro n v b w hw
  obtain ⟨a, b, c, d⟩ := nozzle_keep p n v b w
  exact ⟨a.trans hw.1, b.trans hw.2.1, c.trans hw.2.2.1, d.trans hw.2.2.2⟩

theorem forAll_mem_req (l : List Nat) (b i : Nat) (hm : i ∈ l) (s : State) : ((forAll l s (fun i s => s.updTrkPort (b + i) (fun x => { x with req := true }))).trkPort (b + i)).req = true := by
  induction l generalizing s with
  | nil => exact absurd hm (by simp)
  | cons a l ih =>
    show ((forAll l (s.updTrkPort (b + a) (fun x => { x with req := true })) (fun i s => s.updTrkPort (b + i) (fun x => { x with req := true }))).trkPort (b + i)).req = true
    by_cases hl : i ∈ l
    · exact ih hl _
    · have ha : i = a := (List.mem_cons.mp hm).resolve_right hl
      subst ha
      refine forAll_inv l _ _ (fun z => (z.trkPort (b + i)).req = true) (by rw [trkPort_upd]) ?_
      intro j w hw
      by_cases hj : b + i = b + j
      · rw [hj, trkPort_upd]
      · rw [trkPort_upd_ne _ _ hj]; exact hw

theorem phase2_pend (s : State) : (phase2Check s).trk.pend = s.trk.pend := by unfold phase2Check; split <;> rfl

theorem phase2_regs (s : State) : (phase2Check s).regs = s.regs := by unfold phase2Check; split <;> rfl

theorem skip_facts (v : State) (w a : Nat) :
    (((v.sat F.Dtrk.ROWS_SKIPPED pgTrk).set F.Dtrk.LAST_SKIP pgTrk w).raise Ev.dtrkRowMiss pgTrk a).get F.Dtrk.ROWS_SKIPPED pgTrk =
      low 32 (min (v.get F.Dtrk.ROWS_SKIPPED pgTrk + 1) (2 ^ 32 - 1)) ∧
    (((v.sat F.Dtrk.ROWS_SKIPPED pgTrk).set F.Dtrk.LAST_SKIP pgTrk w).raise Ev.dtrkRowMiss pgTrk a).get F.Dtrk.LAST_SKIP pgTrk = low 4 w := by
  constructor
  · rw [State.get_raise_off _ _ (by decide) (by decide) (by decide) (by decide), State.get_set_off _ (by decide)]
    exact State.get_set_self v F.Dtrk.ROWS_SKIPPED pgTrk _
  · rw [State.get_raise_off _ _ (by decide) (by decide) (by decide) (by decide), State.get_set_self]; rfl

end Sys2Proof.Machine
end

