-- ==== Sys2Proof/Laws/OfTimeCal.lean ====
section
/-! SUPPORT. Lemmas that the statements about its unit: TimeCal rest on. -/

-- One declaration after another: the package is also checked as one text, where too many threads would start at once.
set_option Elab.async false

set_option linter.unusedVariables false
set_option linter.unusedSimpArgs false

namespace Sys2Proof.Machine

theorem setTdcPhase_eq (s : State) (d e v : Nat) (hd : d < 3) (he : e < 3) (hv : v < 4) : (setTdcPhase d v s).tdcPhase e = if e = d then v else s.tdcPhase e := by
  have hw : ∀ w : Nat, bits (low 6 (w - bits w (2 * d) 2 * 4 ^ d + v * 4 ^ d)) (2 * e) 2 = if e = d then v else bits w (2 * e) 2 := by
    intro w; unfold bits low
    have h1 : d = 0 ∨ d = 1 ∨ d = 2 := by omega
    have h2 : e = 0 ∨ e = 1 ∨ e = 2 := by omega
    rcases h1 with rfl | rfl | rfl <;> rcases h2 with rfl | rfl | rfl <;> simp <;> omega
  unfold setTdcPhase State.tdcPhase; dsimp only
  rw [State.get_set_self]; exact hw _

theorem tdcPhase_congr {s t : State} (h : t.get F.Tdc.TDC_STATUS pgTdc = s.get F.Tdc.TDC_STATUS pgTdc) (d : Nat) : t.tdcPhase d = s.tdcPhase d := by
  unfold State.tdcPhase; rw [h]

theorem setApt_bytes (pg : Nat) : ∀ (bs : List Byte) (off : Nat) (s : State), setAptBytes pg off bs s = { s with aptw := (setAptBytes pg off bs s).aptw }
  | [], _, _ => rfl
  | [_], _, _ => rfl
  | [_, _], _, _ => rfl
  | [_, _, _], _, _ => rfl
  | a :: b :: c :: d :: bs, off, s => by
    have e : setAptBytes pg off (a :: b :: c :: d :: bs) s = setAptBytes pg (off + 4) bs (s.setApt pg off (leNat [a, b, c, d])) := rfl
    rw [e, setApt_bytes pg bs (off + 4) (s.setApt pg off (leNat [a, b, c, d]))]; rfl

theorem tdcStart_facts (s : State) (d : Nat) (hd : d < 3) : (∀ e < 3, (tdcStart d s).tdcPhase e = if e = d ∧ s.tdcPhase d = 0 then 1 else s.tdcPhase e) ∧
    (∀ e ≠ d, (tdcStart d s).tdcOf e = s.tdcOf e) ∧ (s.tdcPhase d ≠ 0 → tdcStart d s = s) ∧
    (s.tdcPhase d = 0 → ((tdcStart d s).tdcOf d).began = s.now ∧ ((tdcStart d s).tdcOf d).hits = [] ∧ ((tdcStart d s).tdcOf d).fresh = (s.tdcOf d).fresh) ∧
    tdcStart d s = { s with regs := (tdcStart d s).regs, tdc := (tdcStart d s).tdc } ∧
    s.RegsBut (tdcStart d s) [F.Tdc.TDC_STATUS.key pgTdc 0, F.Tdc.EDGE_MIN.key pgTdc 0, F.Tdc.EDGE_MIN.key pgTdc 1, F.Tdc.EDGE_MIN.key pgTdc 2] := by
  unfold tdcStart
  by_cases h : s.tdcPhase d = 0
  · rw [if_neg (not_not.mpr h)]
    refine ⟨fun e he => ?_, fun e he => ?_, fun hn => absurd h hn, fun _ => ?_, rfl, ?_⟩
    · rw [tdcPhase_congr (s := setTdcPhase d 1 s), setTdcPhase_eq s d e 1 hd he (by decide)]
      · simp [h]
      · rw [State.get_updTdc, State.get_setI_off _ (by have : d = 0 ∨ d = 1 ∨ d = 2 := by omega
                                                       rcases this with rfl | rfl | rfl <;> decide)]
    · rw [State.tdcOf_updTdc_ne _ _ he]; rfl
    · rw [State.tdcOf_updTdc]; exact ⟨rfl, rfl, rfl⟩
    · have : d = 0 ∨ d = 1 ∨ d = 2 := by omega
      have h0 := (s.onlyRegs_setI F.Tdc.TDC_STATUS pgTdc 0 (s.get F.Tdc.TDC_STATUS pgTdc - bits (s.get F.Tdc.TDC_STATUS pgTdc) (2 * d) 2 * 4 ^ d + 1 * 4 ^ d)).setI F.Tdc.EDGE_MIN pgTdc d 0
      refine (h0.mono (ls := [F.Tdc.TDC_STATUS.key pgTdc 0, F.Tdc.EDGE_MIN.key pgTdc 0, F.Tdc.EDGE_MIN.key pgTdc 1, F.Tdc.EDGE_MIN.key pgTdc 2]) ?_).2
      rcases this with rfl | rfl | rfl <;> simp
  · rw [if_pos h]
    refine ⟨fun e he => ?_, fun _ _ => rfl, fun _ => rfl, fun hn => absurd hn h, rfl, fun _ _ => rfl⟩
    rw [if_neg (fun hh => h hh.2)]

theorem runs_eq (mask : Nat) (s : State) : tdcRuns mask s = (fun s => if bitAt mask 2 then tdcStart 2 s else s) ((fun s => if bitAt mask 1 then tdcStart 1 s else s) ((fun s => if bitAt mask 0 then tdcStart 0 s else s) s)) := rfl

theorem runs_step (mask d : Nat) (hd : d < 3) (s t : State) (ht : t = if bitAt mask d then tdcStart d s else s) :
    (∀ e < 3, t.tdcPhase e = if e = d ∧ bitAt mask d = true ∧ s.tdcPhase d = 0 then 1 else s.tdcPhase e) ∧
    (∀ e, e ≠ d ∨ bitAt mask d = false ∨ s.tdcPhase d ≠ 0 → t.tdcOf e = s.tdcOf e) ∧
    (bitAt mask d = true → s.tdcPhase d = 0 → (t.tdcOf d).began = s.now ∧ (t.tdcOf d).hits = [] ∧ (t.tdcOf d).fresh = (s.tdcOf d).fresh) ∧
    t = { s with regs := t.regs, tdc := t.tdc } ∧
    s.RegsBut t [F.Tdc.TDC_STATUS.key pgTdc 0, F.Tdc.EDGE_MIN.key pgTdc 0, F.Tdc.EDGE_MIN.key pgTdc 1, F.Tdc.EDGE_MIN.key pgTdc 2] := by
  obtain ⟨a, b, c, e, f, g⟩ := tdcStart_facts s d hd
  by_cases h : bitAt mask d = true
  · rw [if_pos h] at ht; subst ht
    refine ⟨fun k hk => by rw [a k hk]; simp [h], fun k hk => ?_, fun _ h0 => e h0, f, g⟩
    rcases hk with hk | hk | hk
    · exact b k hk
    · rw [h] at hk; exact absurd hk (by decide)
    · rw [c hk]
  · rw [if_neg h] at ht; subst ht
    exact ⟨fun k hk => by simp [h], fun _ _ => rfl, fun h0 => absurd h0 h, rfl, fun _ _ => rfl⟩

theorem tdcEnd_phase (s : State) (d : Nat) (hd : d < 3) : (tdcEnd d s).tdcPhase d = 0 := by
  have h : d = 0 ∨ d = 1 ∨ d = 2 := by omega
  have e := setTdcPhase_eq s d d 0 hd hd (by decide)
  rw [if_pos rfl] at e
  unfold tdcEnd; dsimp only
  split
  · exact e
  · rw [tdcPhase_congr (s := setTdcPhase d 0 s)]
    · exact e
    · rw [State.get_raise_off _ _ (by decide) (by decide) (by decide) (by decide)]
      unfold State.wrapI
      rcases h with rfl | rfl | rfl <;> rw [State.get_setI_off _ (by decide), State.get_setI_off _ (by decide)]

end Sys2Proof.Machine
end

