-- ==== Sys2Proof/Laws/OfCalStore.lean ====
section
/-! SUPPORT. Lemmas that the statements about its unit: CalStore rest on. -/

-- One declaration after another: the package is also checked as one text, where too many threads would start at once.
set_option Elab.async false

set_option linter.unusedVariables false
set_option linter.unusedSimpArgs false

namespace Sys2Proof.Machine

theorem catsOf_low (c : Nat) : catsOf (low 6 (low 6 c)) = catsOf (low 6 c) := by
  unfold catsOf; refine List.filter_congr fun i hi => ?_
  have := List.mem_range.mp hi
  rw [bitAt_low (w := 6) this, bitAt_low (w := 6) this]

theorem withdraw_fold (l : List Nat) (s : State) : (∀ c < 6, bitAt ((forAll l s (fun c => setCalValid c false)).get F.Cal.CAL_VALID pgCal) c = (bitAt (s.get F.Cal.CAL_VALID pgCal) c && !decide (c ∈ l))) ∧
    s.OnlyRegs (forAll l s (fun c => setCalValid c false)) [F.Cal.CAL_VALID.key pgCal 0] := by
  induction l generalizing s with
  | nil => exact ⟨fun c _ => by show bitAt (s.get F.Cal.CAL_VALID pgCal) c = _; simp, State.OnlyRegs.refl _ _⟩
  | cons a l ih =>
    have e : forAll (a :: l) s (fun c => setCalValid c false) = forAll l (setCalValid a false s) (fun c => setCalValid c false) := rfl
    obtain ⟨i1, i2⟩ := ih (setCalValid a false s)
    rw [e]
    refine ⟨fun c hc => ?_, ?_⟩
    · rw [i1 c hc]
      have : bitAt ((setCalValid a false s).get F.Cal.CAL_VALID pgCal) c = (bitAt (s.get F.Cal.CAL_VALID pgCal) c && !decide (a = c)) := by
        unfold setCalValid; dsimp only; rw [if_neg (by decide), State.get_set_self, bitAt_low (w := F.Cal.CAL_VALID.w) hc, bitAt_clearBit]
      rw [this]
      by_cases h : c = a
      · subst h; simp
      · have : ¬ a = c := fun h2 => h h2.symm
        simp [h, this]
    · exact ((s.onlyRegs_setI F.Cal.CAL_VALID pgCal 0 _).trans i2).mono (by simp)

structure CapInv (a b : Bool) (s : State) : Prop where
  closing : s.jrn.closing = none
  saving : s.cal.saving = 0
  d0 : a = true → bitAt (s.get F.Cal.DIRTY pgCal) 0 = true ∧ bitAt (s.get F.Cal.CAL_VALID pgCal) 0 = false
  d1 : b = true → bitAt (s.get F.Cal.DIRTY pgCal) 1 = true ∧ bitAt (s.get F.Cal.CAL_VALID pgCal) 1 = false

theorem capInv_write (a b : Bool) (s : State) (h : CapInv a b s) (off v : Nat) :
    CapInv (a || calCategory off == some 0) (b || calCategory off == some 1) (calWrite off v s) := by
  unfold calWrite
  cases hc : calCategory off with
  | none => exact ⟨h.closing, h.saving, fun ha => h.d0 (by simpa using ha), fun ha => h.d1 (by simpa using ha)⟩
  | some c =>
    dsimp only
    have hc6 : c < 6 := List.mem_range.mp (List.mem_of_find?_eq_some hc)
    rw [h.closing]; simp only [Option.isSome_none, Bool.false_eq_true, if_false]
    obtain ⟨w, hw⟩ : ∃ w : State, w = s.setApt pgCal off (v &&& winMask pgCal off) := ⟨_, rfl⟩
    rw [← hw]
    have w1 : w.jrn = s.jrn := by rw [hw]; rfl
    have w2 : w.cal = s.cal := by rw [hw]; rfl
    have w3 : ∀ f pg, w.get f pg = s.get f pg := fun f pg => by rw [hw]; rfl
    have sv : bitAt (setDirty c true (setCalValid c false w)).cal.saving c = false := by
      show bitAt w.cal.saving c = false
      rw [w2, h.saving]; unfold bitAt; simp
    rw [sv]; simp only [Bool.false_eq_true, if_false]
    have gv : ∀ j < 6, bitAt ((setDirty c true (setCalValid c false w)).get F.Cal.CAL_VALID pgCal) j = (bitAt (s.get F.Cal.CAL_VALID pgCal) j && !decide (c = j)) := by
      intro j hj
      unfold setDirty setCalValid; dsimp only
      rw [State.get_set_off _ (by decide), if_neg (by decide), State.get_set_self, bitAt_low (w := F.Cal.CAL_VALID.w) hj, bitAt_clearBit, w3]
    have gd : ∀ j < 6, bitAt ((setDirty c true (setCalValid c false w)).get F.Cal.DIRTY pgCal) j = (bitAt (s.get F.Cal.DIRTY pgCal) j || decide (c = j)) := by
      intro j hj
      unfold setDirty setCalValid; dsimp only
      rw [State.get_set_self, if_pos rfl, bitAt_low (w := F.Cal.DIRTY.w) hj, bitAt_setBit, State.get_set_off _ (by decide), w3]
    refine ⟨by show w.jrn.closing = none; rw [w1]; exact h.closing, by show w.cal.saving = 0; rw [w2]; exact h.saving, fun ha => ?_, fun hb => ?_⟩
    · rw [gd 0 (by decide), gv 0 (by decide)]
      rcases (Bool.or_eq_true _ _).mp ha with ha | ha
      · obtain ⟨x, y⟩ := h.d0 ha; rw [x, y]; simp
      · have : c = 0 := by simpa using ha
        subst this; simp
    · rw [gd 1 (by decide), gv 1 (by decide)]
      rcases (Bool.or_eq_true _ _).mp hb with hb | hb
      · obtain ⟨x, y⟩ := h.d1 hb; rw [x, y]; simp
      · have : c = 1 := by simpa using hb
        subst this; simp

theorem capInv_mono (a b a' b' : Bool) (s : State) (h : CapInv a b s) (h1 : a' = true → a = true) (h2 : b' = true → b = true) : CapInv a' b' s :=
  ⟨h.closing, h.saving, fun x => h.d0 (h1 x), fun x => h.d1 (h2 x)⟩

theorem capture_inv (s : State) (h1 : s.jrn.closing = none) (h2 : s.cal.saving = 0) (hb : s.calBusy = false) : CapInv true true (calCapture s) := by
  unfold calCapture
  rw [if_neg (by rw [hb]; decide)]
  extract_lets refs same t0 t1 s1 s2
  have e0 : ∀ l (z : State), ((same l z).2).jrn = z.jrn ∧ ((same l z).2).cal = z.cal := by
    intro l z; unfold same; split
    · exact ⟨rfl, rfl⟩
    · exact ⟨rfl, rfl⟩
  have k0 : CapInv false false t1.2 := by
    refine ⟨?_, ?_, fun h => absurd h (by decide), fun h => absurd h (by decide)⟩
    · unfold t1; rw [(e0 _ _).1]; unfold t0; rw [(e0 _ _).1]; exact h1
    · unfold t1; rw [(e0 _ _).2]; unfold t0; rw [(e0 _ _).2]; exact h2
  have k1 : CapInv true true s1 :=
    capInv_mono _ _ true true _ (capInv_write _ _ _ (capInv_write _ _ _ k0 0xD0000 t0.1) 0xD0400 t1.1) (fun _ => by decide) (fun _ => by decide)
  have kw : ∀ (l : List Nat) (z : State) (f g : Nat → Nat), CapInv true true z → CapInv true true (forAll l z (fun i s => calWrite (f i) (s.apt pgTdc (g i)) s)) := by
    intro l z f g hz
    refine forAll_inv l z _ (CapInv true true) hz fun i w hw => ?_
    exact capInv_mono _ _ true true _ (capInv_write _ _ _ hw _ _) (fun _ => rfl) (fun _ => rfl)
  clear_value s1
  exact kw _ _ (fun i => 0xD0404 + 4 * i) (fun i => 0x1000 + 4 * i) (kw _ _ (fun i => 0xD0004 + 4 * i) (fun i => 4 * i) k1)

end Sys2Proof.Machine
end

