-- ==== Sys2Proof/Laws/OfCheckCode.lean ====
section
/-! SUPPORT. Lemmas that the statements about its unit: CheckCode rest on. -/

-- One declaration after another: the package is also checked as one text, where too many threads would start at once.
set_option Elab.async false

set_option linter.unusedVariables false
set_option linter.unusedSimpArgs false

namespace Sys2Proof.Machine

theorem bitAt_xor (a b i : Nat) : bitAt (Nat.xor a b) i = Bool.xor (bitAt a i) (bitAt b i) := by
  rw [bitAt_eq_testBit, bitAt_eq_testBit, bitAt_eq_testBit]; exact Nat.testBit_xor ..

theorem check_fold (l : List (Nat × Nat)) (a b x y : Nat) :
    l.foldl (fun c e => if bitAt (Nat.xor a b) e.2 then Nat.xor c e.1 else c) (Nat.xor x y) =
    Nat.xor (l.foldl (fun c e => if bitAt a e.2 then Nat.xor c e.1 else c) x) (l.foldl (fun c e => if bitAt b e.2 then Nat.xor c e.1 else c) y) := by
  induction l generalizing x y with
  | nil => rfl
  | cons e l ih =>
    simp only [List.foldl_cons]
    have : (if bitAt (Nat.xor a b) e.2 then Nat.xor (Nat.xor x y) e.1 else Nat.xor x y) =
        Nat.xor (if bitAt a e.2 then Nat.xor x e.1 else x) (if bitAt b e.2 then Nat.xor y e.1 else y) := by
      rw [bitAt_xor]
      have comm : ∀ p q r : Nat, Nat.xor (Nat.xor p q) r = Nat.xor (Nat.xor p r) q := fun p q r => by
        show (p ^^^ q) ^^^ r = (p ^^^ r) ^^^ q
        rw [Nat.xor_assoc, Nat.xor_comm q r, Nat.xor_assoc]
      have ass : ∀ p q r : Nat, Nat.xor (Nat.xor p q) r = Nat.xor p (Nat.xor q r) := fun p q r => Nat.xor_assoc p q r
      cases bitAt a e.2 <;> cases bitAt b e.2 <;> simp
      · exact Nat.xor_assoc _ _ _
      · exact comm _ _ _
      · rw [Nat.xor_comm y e.1, ← Nat.xor_assoc, Nat.xor_assoc x e.1 e.1, Nat.xor_self, Nat.xor_zero]
    rw [this, ih]

theorem checkBits_xor (a b : Nat) : checkBits (Nat.xor a b) = Nat.xor (checkBits a) (checkBits b) := check_fold _ a b 0 0

theorem decode_syn (data base flip read syn : Nat) (hr : read = Nat.xor data (low 32 flip))
    (hs : syn = Nat.xor (Nat.xor (Nat.xor (checkBits data) base) (bits flip 32 7)) (checkBits read)) : decodeWord data base flip =
    if syn = 0 ∨ popcount syn = 1 then (read, false, false, syn)
    else match hColumns.findIdx? (· == syn) with
      | some j => (Nat.xor read (2 ^ j), true, false, syn)
      | none => (read, false, true, syn) := by
  subst hr hs; rfl

theorem decode_flip (data flip : Nat) : Nat.xor (Nat.xor (Nat.xor (checkBits data) 0) (bits flip 32 7)) (checkBits (Nat.xor data (low 32 flip))) =
    Nat.xor (bits flip 32 7) (checkBits (low 32 flip)) := by
  rw [checkBits_xor]
  generalize checkBits data = a
  generalize checkBits (low 32 flip) = b
  generalize bits flip 32 7 = c
  show ((a ^^^ 0) ^^^ c) ^^^ (a ^^^ b) = c ^^^ b
  rw [Nat.xor_zero, Nat.xor_comm a c, Nat.xor_assoc, ← Nat.xor_assoc a a b, Nat.xor_self, Nat.zero_xor]

theorem check_bit (l : List (Nat × Nat)) (w i x : Nat) : bitAt (l.foldl (fun c e => if bitAt w e.2 then Nat.xor c e.1 else c) x) i =
    l.foldl (fun a e => Bool.xor a (bitAt w e.2 && bitAt e.1 i)) (bitAt x i) := by
  induction l generalizing x with
  | nil => rfl
  | cons e l ih =>
    simp only [List.foldl_cons]; rw [ih]; congr 1
    cases bitAt w e.2
    · simp
    · simp only [if_true, Bool.true_and]; exact bitAt_xor _ _ _

end Sys2Proof.Machine
end

