-- ==== Sys2Proof/Laws/OfMemQueue.lean ====
section
/-! SUPPORT. Lemmas that the statements about its unit: MemQueue rest on. -/

-- One declaration after another: the package is also checked as one text, where too many threads would start at once.
set_option Elab.async false

set_option linter.unusedVariables false
set_option linter.unusedSimpArgs false

namespace Sys2Proof.Machine

theorem leNat_lt (bs : List Byte) : leNat bs < 256 ^ bs.length := by
  induction bs with
  | nil => simp [leNat]
  | cons b bs ih => have := b.isLt; simp only [leNat, List.length_cons, pow_succ]; omega

theorem leBytes_leNat : ∀ bs : List Byte, leBytes bs.length (leNat bs) = bs
  | [] => rfl
  | b :: bs => by
    have hb := b.isLt
    simp only [List.length_cons, leBytes, leNat]
    rw [show (b.toNat + 256 * leNat bs) / 256 = leNat bs by omega, leBytes_leNat bs]
    congr 1
    apply BitVec.eq_of_toNat_eq; rw [BitVec.toNat_ofNat]; omega

theorem leNat_leBytes (n v : Nat) : leNat (leBytes n v) = v % 256 ^ n := by
  induction n generalizing v with
  | zero => simp [leBytes, leNat, Nat.mod_one]
  | succ n ih =>
    simp only [leBytes, leNat, ih, BitVec.toNat_ofNat]
    rw [show 256 ^ (n + 1) = 256 * 256 ^ n from by rw [Nat.pow_succ, Nat.mul_comm], Nat.mod_mul]

theorem memBytes_length (m : List Host.Cell) (a n : Nat) : (memBytes m a n).length = n := by simp [memBytes]

theorem memBytes_eq (m : List Host.Cell) (a n : Nat) : memBytes m a n = (List.range n).map (fun i => memByte m (a + i)) := by
  unfold memBytes; dsimp only
  refine List.map_congr_left fun i hi => ?_
  have hi := List.mem_range.mp hi
  unfold memByte tget trange
  rw [tfind_filter _ (fun k => decide (a ≤ k) && decide (k < a + n)), if_pos (by simp; omega)]

theorem memSetByte_fold (q : MemReq) (n : Nat) (m : List Host.Cell) (a : Nat) :
    memByte ((List.range n).foldl (fun m i => if bitAt q.mask i then memSetByte m (q.burst + i) (BitVec.ofNat 8 (q.data.getD i 0)) else m) m) a =
    if q.burst ≤ a ∧ a < q.burst + n ∧ bitAt q.mask (a - q.burst) then BitVec.ofNat 8 (q.data.getD (a - q.burst) 0) else memByte m a := by
  induction n with
  | zero => simp; intro h1 h2; omega
  | succ n ih =>
    rw [List.range_succ, List.foldl_append]; simp only [List.foldl_cons, List.foldl_nil]
    by_cases ha : a = q.burst + n
    · subst ha
      by_cases hb : bitAt q.mask n
      · rw [if_pos hb, memByte_memSetByte_self, if_pos ⟨by omega, by omega, by rw [Nat.add_sub_cancel_left]; exact hb⟩, Nat.add_sub_cancel_left]
      · rw [if_neg hb, ih, if_neg (by omega), if_neg (by rw [Nat.add_sub_cancel_left]; simp [hb])]
    · have : memByte ((List.range n).foldl (fun m i => if bitAt q.mask i then memSetByte m (q.burst + i) (BitVec.ofNat 8 (q.data.getD i 0)) else m) m) a =
          memByte (if bitAt q.mask n then memSetByte ((List.range n).foldl (fun m i => if bitAt q.mask i then memSetByte m (q.burst + i) (BitVec.ofNat 8 (q.data.getD i 0)) else m) m) (q.burst + n) (BitVec.ofNat 8 (q.data.getD n 0)) else (List.range n).foldl (fun m i => if bitAt q.mask i then memSetByte m (q.burst + i) (BitVec.ofNat 8 (q.data.getD i 0)) else m) m) a := by
        split
        · rw [memByte_memSetByte_ne _ _ ha]
        · rfl
      rw [← this, ih]
      have e : (a < q.burst + n) ↔ (a < q.burst + (n + 1)) := by omega
      simp only [e]

theorem memStore_byte (q : MemReq) (bad : List Nat) (s : State) (a : Nat) : memByte (memStore q bad s).sdram a =
    if q.burst ≤ a ∧ a < q.burst + 64 ∧ bitAt q.mask (a - q.burst) then BitVec.ofNat 8 (q.data.getD (a - q.burst) 0) else memByte s.sdram a :=
  memSetByte_fold q 64 s.sdram a

theorem memStore_memOf (q : MemReq) (bad : List Nat) (s : State) (ch : Nat) : (memStore q bad s).memOf ch = s.memOf ch := rfl

theorem bitAt_full : ∀ i < 64, bitAt (2 ^ 64 - 1) i = true := by decide

theorem memAdmit_zero (ch : Nat) (s : State) (h : (s.memOf ch).wait = []) : memAdmit (s.memOf ch).wait.length ch s = s := by rw [h]; rfl

theorem memEnqueue_one (ch : Nat) (q : MemReq) (s : State) (h : (s.memOf ch).wait = [])
    (hr : (if q.wr then decide ((s.memOf ch).writes.length < 32) else decide ((s.memOf ch).reads.length < 64)) = true) :
    ∃ s' : State, memEnqueue ch q s = memJoin ch q s' ∧ s' = { s with memx := s'.memx } ∧ ∀ k, s'.memOf k = s.memOf k := by
  obtain ⟨u, hu⟩ : ∃ u : State, u = s.updMem ch (fun x => { x with wait := x.wait ++ [q] }) := ⟨_, rfl⟩
  have e : u.memOf ch = { s.memOf ch with wait := [q] } := by rw [hu, State.memOf_updMem, h]; rfl
  have ad : ({ s.memOf ch with wait := [q] } : MemX).admits = some (q, 0) := by
    unfold MemX.admits
    simp only [List.zipIdx_cons, List.zipIdx_nil, List.take_zero, List.any_nil, Bool.not_false, Bool.and_true]
    rw [List.find?_cons, hr]; rfl
  refine ⟨u.updMem ch (fun x => { x with wait := x.wait.eraseIdx 0 }), ?_, by rw [hu]; rfl, fun k => ?_⟩
  · unfold memEnqueue
    rw [← hu]; dsimp only; rw [e]; show memAdmit 1 ch u = _
    unfold memAdmit; rw [e, ad]; dsimp only
    unfold memAdmit; rfl
  · by_cases hk : k = ch
    · subst hk; rw [State.memOf_updMem, e, ← h]; rfl
    · rw [State.memOf_updMem_ne _ _ hk, hu, State.memOf_updMem_ne _ _ hk]

theorem memPower_get (ch v : Nat) (s : State) (g : Fld) (h : (g.off + 0 * g.stride) * 32 + g.lo ≠ (F.Chan.POWER.off + 0 * F.Chan.POWER.stride) * 32 + F.Chan.POWER.lo) :
    (memPower ch v s).get g (pgChan ch) = s.get g (pgChan ch) := by unfold memPower; rw [State.get_set_off _ h]

theorem memPower_self (ch : Nat) (s : State) : (memPower ch 0 s).get F.Chan.POWER (pgChan ch) = 0 := by unfold memPower; rw [State.get_set_self]; rfl

theorem memWake_facts (ch : Nat) (s : State) : ((∀ k ≠ ch, (memWake ch s).memOf k = s.memOf k) ∧
      ((memWake ch s).memOf ch).reads = (s.memOf ch).reads ∧ ((memWake ch s).memOf ch).writes = (s.memOf ch).writes ∧
      ((memWake ch s).memOf ch).flight = (s.memOf ch).flight ∧ ((memWake ch s).memOf ch).wait = (s.memOf ch).wait ∧ ((memWake ch s).memOf ch).seq = (s.memOf ch).seq) ∧
    (memWake ch s).now = s.now ∧ (memWake ch s).resp = s.resp ∧
    (memWake ch s).get F.Chan.RAW_STALLS (pgChan ch) = s.get F.Chan.RAW_STALLS (pgChan ch) ∧ (s.memc.chg = none → s.ready (pgChan ch) = true → (memWake ch s).get F.Chan.POWER (pgChan ch) = 0) := by
  unfold memWake
  split
  · rename_i h; exact ⟨⟨fun _ _ => rfl, rfl, rfl, rfl, rfl, rfl⟩, rfl, rfl, rfl, fun hc hr => by rw [hc, hr] at h; simp at h⟩
  · split
    · rename_i h; exact ⟨⟨fun _ _ => rfl, rfl, rfl, rfl, rfl, rfl⟩, rfl, rfl, rfl, fun _ _ => h⟩
    · unfold srExit
      have mo : ∀ (z : State) k, (memPower ch 0 z).memOf k = z.memOf k := fun _ _ => rfl
      refine ⟨⟨fun k hk => by rw [mo, State.memOf_updMem_ne _ _ hk], ?_, ?_, ?_, ?_, ?_⟩, rfl, rfl, by rw [memPower_get _ _ _ _ (by decide)]; rfl, fun _ _ => memPower_self _ _⟩ <;>
        (rw [mo, State.memOf_updMem]; rfl)
    · exact ⟨⟨fun _ _ => rfl, rfl, rfl, rfl, rfl, rfl⟩, rfl, rfl, by rw [memPower_get _ _ _ _ (by decide)]; exact State.get_set_off _ (by decide), fun _ _ => memPower_self _ _⟩
    · exact ⟨⟨fun _ _ => rfl, rfl, rfl, rfl, rfl, rfl⟩, rfl, rfl, memPower_get _ _ _ _ (by decide), fun _ _ => memPower_self _ _⟩

theorem oldest_spec (l : List MemReq) (a : Option MemReq) (r : MemReq) (hr : r ∈ l ∨ a = some r) :
    ∃ q, l.foldl (fun a q => match a with
      | some o => if q.seq < o.seq then some q else a
      | none => some q) a = some q ∧ q.seq ≤ r.seq ∧ (q ∈ l ∨ a = some q) := by
  induction l generalizing a r with
  | nil => rcases hr with h | h
           · simp at h
           · exact ⟨r, h, le_refl _, .inr h⟩
  | cons x l ih =>
    simp only [List.foldl_cons]
    have key : ∀ b : Option MemReq, (∃ r', b = some r' ∧ (r ∈ l ∨ r'.seq ≤ r.seq)) → (∀ q, b = some q → q ∈ x :: l ∨ a = some q) → ∃ q, l.foldl (fun a q => match a with
      | some o => if q.seq < o.seq then some q else a
      | none => some q) b = some q ∧ q.seq ≤ r.seq ∧ (q ∈ x :: l ∨ a = some q) := by
      rintro b ⟨r', hb, h⟩ hm
      rcases h with h | h
      · obtain ⟨q, h1, h2, h3⟩ := ih b r (.inl h)
        exact ⟨q, h1, h2, h3.elim (fun h => .inl (List.mem_cons_of_mem _ h)) (hm q)⟩
      · obtain ⟨q, h1, h2, h3⟩ := ih b r' (.inr hb)
        exact ⟨q, h1, h2.trans h, h3.elim (fun h => .inl (List.mem_cons_of_mem _ h)) (hm q)⟩
    cases a with
    | none =>
      refine key (some x) ⟨x, rfl, ?_⟩ (fun q hq => ?_)
      · rcases hr with h | h
        · rcases List.mem_cons.mp h with rfl | h
          · exact .inr (le_refl _)
          · exact .inl h
        · simp at h
      · cases hq; exact .inl (by simp)
    | some o =>
      dsimp only
      split
      · rename_i hx
        refine key (some x) ⟨x, rfl, ?_⟩ (fun q hq => ?_)
        · rcases hr with h | h
          · rcases List.mem_cons.mp h with rfl | h
            · exact .inr (le_refl _)
            · exact .inl h
          · cases h; exact .inr (by omega)
        · cases hq; exact .inl (by simp)
      · rename_i hx
        refine key (some o) ⟨o, rfl, ?_⟩ (fun q hq => ?_)
        · rcases hr with h | h
          · rcases List.mem_cons.mp h with rfl | h
            · exact .inr (by omega)
            · exact .inl h
          · cases h; exact .inr (le_refl _)
        · exact .inr hq

theorem choose_urgent (s : State) (x : MemX) (r : MemReq) (hr : r ∈ x.reads) (hu : r.urgent = true) (he : s.memEligible x r = true) :
    ∃ q, s.memChoose x = some q ∧ q.seq ≤ r.seq ∧
      (q ∈ x.reads ∧ q.urgent = true ∨ q ∈ x.writes ∧ ∃ o ∈ x.reads, o.burst = q.burst ∧ q.seq < o.seq) := by
  obtain ⟨l, hl⟩ : ∃ l : List MemReq, l = (x.reads.filter (s.memEligible x)).filter (·.urgent) ++
    (x.writes.filter (s.memEligible x)).filter (fun w => x.reads.any (fun r => r.burst == w.burst && decide (w.seq < r.seq))) := ⟨_, rfl⟩
  obtain ⟨q, h1, h2, h3⟩ := oldest_spec l none r (.inl (by rw [hl]; simp [hr, hu, he]))
  refine ⟨q, ?_, h2, ?_⟩
  · unfold State.memChoose; dsimp only; rw [← hl]
    have : oldest l = some q := h1
    rw [List.findSome?_cons, this]
  · rcases h3 with h3 | h3
    · rw [hl, List.mem_append] at h3
      rcases h3 with h3 | h3
      · simp only [List.mem_filter] at h3; exact .inl ⟨h3.1.1, h3.2⟩
      · simp only [List.mem_filter, List.any_eq_true, Bool.and_eq_true, beq_iff_eq, decide_eq_true_eq] at h3
        exact .inr ⟨h3.1.1, h3.2⟩
    · simp at h3

theorem hCol_lt : ∀ e ∈ hColumns.zipIdx, e.1 < 2 ^ 7 := by decide

theorem checkBits_lt (w : Nat) : checkBits w < 2 ^ 7 := by
  have h : ∀ (l : List (Nat × Nat)) (a : Nat), (∀ e ∈ l, e.1 < 2 ^ 7) → a < 2 ^ 7 → l.foldl (fun a e => if bitAt w e.2 then Nat.xor a e.1 else a) a < 2 ^ 7 := by
    intro l; induction l with
    | nil => intro a _ h; exact h
    | cons e l ih =>
      intro a hl ha
      refine ih _ (fun e he => hl e (List.mem_cons_of_mem _ he)) ?_
      dsimp only
      split
      · exact Nat.xor_lt_two_pow ha (hl e List.mem_cons_self)
      · exact ha
  exact h _ 0 hCol_lt (by decide)

theorem beat_fields (w0 w1 c0 c1 : Nat) (h0 : w0 < 2 ^ 32) (h1 : w1 < 2 ^ 32) (k0 : c0 < 2 ^ 7) (k1 : c1 < 2 ^ 7) :
    beatData (beatLanes w0 w1 c0 c1) 0 = w0 ∧ beatData (beatLanes w0 w1 c0 c1) 1 = w1 ∧
      beatCheck (beatLanes w0 w1 c0 c1) 0 = c0 ∧ beatCheck (beatLanes w0 w1 c0 c1) 1 = c1 := by
  unfold beatData beatCheck beatLanes bits
  simp only [Nat.mul_zero, Nat.mul_one, Nat.add_zero]
  refine ⟨?_, ?_, ?_, ?_⟩ <;> omega

theorem decodeRead_good (w : Nat) : decodeRead w (checkBits w) = (w, false, false, 0) := by
  unfold decodeRead; dsimp only
  have : Nat.xor (checkBits w) (checkBits w) = 0 := Nat.xor_self _
  rw [this, if_pos (.inl rfl)]

theorem leNat_bound (bs : List Byte) (n : Nat) (h : bs.length ≤ n) : leNat bs < 256 ^ n :=
  Nat.lt_of_lt_of_le (leNat_lt bs) (Nat.pow_le_pow_right (by decide) h)

theorem word_lt (q : MemReq) (w : Nat) : q.word w < 2 ^ 32 := by
  have := leNat_bound (((q.got.drop (4 * w)).take 4).map (BitVec.ofNat 8)) 4 (by simp)
  exact this

theorem lanes_good (q : MemReq) (h : q.gotBad = []) (w : Nat) :
    decodeRead (beatData (Nat.xor (q.beat (w / 2)) 0) (w % 2)) (beatCheck (Nat.xor (q.beat (w / 2)) 0) (w % 2)) = (q.word w, false, false, 0) := by
  have hx : ∀ n : Nat, Nat.xor n 0 = n := Nat.xor_zero
  have hc : ∀ v, q.check v = checkBits (q.word v) := fun v => by unfold MemReq.check; rw [h]; exact hx _
  obtain ⟨f0, f1, f2, f3⟩ := beat_fields (q.word (2 * (w / 2))) (q.word (2 * (w / 2) + 1)) (q.check (2 * (w / 2))) (q.check (2 * (w / 2) + 1))
    (word_lt _ _) (word_lt _ _) (by rw [hc]; exact checkBits_lt _) (by rw [hc]; exact checkBits_lt _)
  rw [hx]; unfold MemReq.beat
  rcases Nat.mod_two_eq_zero_or_one w with hw | hw
  · rw [hw, f0, f2, hc, decodeRead_good, show 2 * (w / 2) = w by omega]
  · rw [hw, f1, f3, hc, decodeRead_good, show 2 * (w / 2) + 1 = w by omega]

theorem memWords_good (ch : Nat) (q : MemReq) (s : State) (n : Nat) (h : q.gotBad = []) :
    (List.range n).foldl (memWord ch q []) (s, [], [], false) = (s, (List.range n).map q.word, [], false) := by
  induction n with
  | zero => rfl
  | succ n ih =>
    rw [List.range_succ, List.foldl_append, ih]
    simp only [List.foldl_cons, List.foldl_nil, List.map_append, List.map_cons, List.map_nil]
    unfold memWord; dsimp only [List.find?_nil, Option.map_none, Option.getD_none]
    rw [lanes_good q h]; simp

theorem got_words (g : List Nat) (n : Nat) (hl : g.length = 4 * n) (hb : ∀ b ∈ g, b < 256) :
    (List.range n).flatMap (fun w => (leBytes 4 (leNat (((g.drop (4 * w)).take 4).map (BitVec.ofNat 8)))).map (·.toNat)) = g := by
  induction n generalizing g with
  | zero => simp [List.eq_nil_of_length_eq_zero (by omega : g.length = 0)]
  | succ n ih =>
    rw [List.range_succ_eq_map, List.flatMap_cons, List.flatMap_map]
    have e := ih (g.drop 4) (by rw [List.length_drop]; omega) (fun b h => hb b (List.mem_of_mem_drop h))
    simp only [List.drop_drop] at e
    have e' : (List.range n).flatMap (fun a => (leBytes 4 (leNat (((g.drop (4 * a.succ)).take 4).map (BitVec.ofNat 8)))).map (·.toNat)) = g.drop 4 := by
      rw [← e]; refine List.flatMap_congr fun w _ => ?_
      rw [show 4 * w.succ = 4 + 4 * w by omega]
    rw [e']
    have l4 : (g.take 4).length = 4 := by rw [List.length_take]; omega
    have k := leBytes_leNat ((g.take 4).map (BitVec.ofNat 8))
    rw [List.length_map, l4] at k
    simp only [Nat.mul_zero, List.drop_zero]
    rw [k, List.map_map]
    conv_rhs => rw [← List.take_append_drop 4 g]
    congr 1
    conv_rhs => rw [← List.map_id (g.take 4)]
    refine List.map_congr_left fun b hb' => ?_
    have := hb b (List.mem_of_mem_take hb')
    simp only [Function.comp_apply, BitVec.toNat_ofNat, id]; exact Nat.mod_eq_of_lt this

theorem q_words (q : MemReq) (hl : q.got.length = 64) (hb : ∀ b ∈ q.got, b < 256) :
    ((List.range 16).map q.word).flatMap (fun w => (leBytes 4 w).map (·.toNat)) = q.got := by
  rw [List.flatMap_map]; exact got_words q.got 16 (by omega) hb

theorem getLast_drop {α : Type} (l : List α) (x : α) : ((l ++ [x]).drop ((l ++ [x]).length - 64)).getLast? = some x := by
  rw [List.getLast?_drop]; simp

theorem memMaintain_facts (ch : Nat) (s : State) : ((memMaintain ch 0 false s).memOf ch).rank 0 = (if 0 < ((s.memOf ch).rank 0).refNow then { (s.memOf ch).rank 0 with refNow := ((s.memOf ch).rank 0).refNow - 1 } else { (s.memOf ch).rank 0 with refs := ((s.memOf ch).rank 0).refs - 1 }) ∧
    (∀ b < 8, tfind ((memMaintain ch 0 false s).memOf ch).rows b = none) ∧ ((memMaintain ch 0 false s).memOf ch).cmds.getLast? = some ⟨4, 0, s.now, 0⟩ ∧ (memMaintain ch 0 false s).sdram = s.sdram := by
  unfold memMaintain showPostponed
  dsimp only
  rw [State.memOf_set, State.memOf_updMem]
  simp only [Bool.false_eq_true, if_false]
  refine ⟨?_, fun b hb => ?_, ?_, rfl⟩
  · unfold MemX.updRank MemX.rank; dsimp only
    rw [tget_tput_self]; rfl
  · unfold MemX.updRank MemX.issue MemX.closeRank tclear; dsimp only
    rw [tfind_filter _ (fun k => !(decide (0 * 8 ≤ k) && decide (k < 0 * 8 + 8)))]
    rw [if_neg (by simp; omega)]
  · unfold MemX.updRank MemX.issue; dsimp only
    exact getLast_drop _ _

theorem openRow_facts (s : State) (a : Nat) (x : MemX) : (s.openRow a x).reads = x.reads ∧ (s.openRow a x).writes = x.writes ∧ (s.openRow a x).flight = x.flight ∧ (s.openRow a x).wait = x.wait := by
  unfold State.openRow; dsimp only
  split
  · split <;> simp [MemX.issue]
  · simp [MemX.issue]

theorem drainEnd_facts (s : State) (x : MemX) : (s.drainEnd x).reads = x.reads ∧ (s.drainEnd x).writes = x.writes ∧ (s.drainEnd x).flight = x.flight ∧ (s.drainEnd x).wait = x.wait ∧
    (s.drainEnd x).ranks = x.ranks := by
  unfold State.drainEnd; split <;> exact ⟨rfl, rfl, rfl, rfl, rfl⟩

theorem memIssue_facts (ch : Nat) (q : MemReq) (s : State) (hw : (s.memOf ch).wait = []) :
    (q.wr = true → q.mask = 2 ^ 64 - 1 → (∀ a, memByte (memIssue ch q s).sdram a = if q.burst ≤ a ∧ a < q.burst + 64 ∧ bitAt q.mask (a - q.burst) then BitVec.ofNat 8 (q.data.getD (a - q.burst) 0) else memByte s.sdram a) ∧
      ((memIssue ch q s).memOf ch).writes = (s.memOf ch).writes.filter (fun w => w.seq != q.seq) ∧ ((memIssue ch q s).memOf ch).reads = (s.memOf ch).reads ∧ ((memIssue ch q s).memOf ch).cmds.getLast? = some ⟨1, q.burst, s.now, q.seq⟩) ∧
    (q.wr = false → ((memIssue ch q s).memOf ch).flight = (s.memOf ch).flight ++ [s.asRead q] ∧ ((memIssue ch q s).memOf ch).reads = (s.memOf ch).reads.filter (fun r => r.seq != q.seq) ∧
      ((memIssue ch q s).memOf ch).writes = (s.memOf ch).writes ∧ (memIssue ch q s).sdram = s.sdram ∧ ((memIssue ch q s).memOf ch).cmds.getLast? = some ⟨0, q.burst, s.now, q.seq⟩) := by
  obtain ⟨s1, hs1⟩ : ∃ s1 : State, s1 = s.updMem ch (fun x =>
    let y := s.openRow q.burst x
    if q.wr then s.drainEnd { y with writes := y.writes.filter (fun w => w.seq != q.seq) }
    else { y with reads := y.reads.filter (fun r => r.seq != q.seq) }) := ⟨_, rfl⟩
  obtain ⟨o1, o2, o3, o4⟩ := openRow_facts s q.burst (s.memOf ch)
  have w1 : (s1.memOf ch).wait = [] := by
    rw [hs1, State.memOf_updMem]; dsimp only; split
    · rw [(drainEnd_facts _ _).2.2.2.1]; show (s.openRow q.burst (s.memOf ch)).wait = []; rw [o4, hw]
    · show (s.openRow q.burst (s.memOf ch)).wait = []; rw [o4, hw]
  have sd : s1.sdram = s.sdram := by rw [hs1]; rfl
  have nw : s1.now = s.now := by rw [hs1]; rfl
  have adm : ∀ z : State, (z.memOf ch).wait = [] → memAdmit (z.memOf ch).wait.length ch z = z := fun z hz => memAdmit_zero ch z hz
  refine ⟨fun h1 h2 => ?_, fun h1 => ?_⟩
  · have e : memIssue ch q s = (memStore q [] s1).updMem ch (fun x => { x.issue 1 q.burst s.now q.seq with idleAt := s.now }) := by
      unfold memIssue; dsimp only; rw [← hs1, h1, h2]
      simp only [beq_self_eq_true, Bool.and_self, if_true, Bool.not_true, Bool.false_and, Bool.false_eq_true, if_false]
      exact adm _ (by rw [State.memOf_updMem]; exact w1)
    rw [e]
    refine ⟨fun a => ?_, ?_, ?_, ?_⟩
    · show memByte (memStore q [] s1).sdram a = _
      rw [memStore_byte, sd]
    · rw [State.memOf_updMem, memStore_memOf]
      show (s1.memOf ch).writes = _
      rw [hs1, State.memOf_updMem]; dsimp only; rw [if_pos h1, (drainEnd_facts _ _).2.1]; show (s.openRow q.burst (s.memOf ch)).writes.filter _ = _; rw [o2]
    · rw [State.memOf_updMem, memStore_memOf]
      show (s1.memOf ch).reads = _
      rw [hs1, State.memOf_updMem]; dsimp only; rw [if_pos h1, (drainEnd_facts _ _).1]; exact o1
    · rw [State.memOf_updMem]; exact getLast_drop _ _
  · have hu : ∀ z : State, ((if q.urgent then z.wrap F.Chan.URGENT_READS (pgChan ch) else z).memOf ch = z.memOf ch) ∧ (if q.urgent then z.wrap F.Chan.URGENT_READS (pgChan ch) else z).sdram = z.sdram := by
      intro z; split <;> exact ⟨rfl, rfl⟩
    obtain ⟨s2, hs2⟩ : ∃ s2 : State, s2 = s1.updMem ch (fun x =>
      let y := x.issue 0 q.burst s.now q.seq
      { y with flight := y.flight ++ [s.asRead q] }) := ⟨_, rfl⟩
    have e : memIssue ch q s = (if q.urgent then s2.wrap F.Chan.URGENT_READS (pgChan ch) else s2) := by
      unfold memIssue; dsimp only; rw [← hs1, h1]
      simp only [Bool.not_false, Bool.true_and, Bool.false_and, Bool.false_eq_true, if_false]
      rw [← hs2]
      exact adm _ (by rw [(hu s2).1, hs2, State.memOf_updMem]; exact w1)
    rw [e, (hu s2).1, (hu s2).2, hs2, State.memOf_updMem]
    have k1 : s1.memOf ch = { s.openRow q.burst (s.memOf ch) with reads := (s.openRow q.burst (s.memOf ch)).reads.filter (fun r => r.seq != q.seq) } := by
      rw [hs1, State.memOf_updMem]; dsimp only; rw [if_neg (by simp [h1])]
    refine ⟨?_, ?_, ?_, sd, getLast_drop _ _⟩
    · show (s1.memOf ch).flight ++ [s.asRead q] = _; rw [k1]; show (s.openRow q.burst (s.memOf ch)).flight ++ _ = _; rw [o3]
    · show (s1.memOf ch).reads = _; rw [k1]; show (s.openRow q.burst (s.memOf ch)).reads.filter _ = _; rw [o1]
    · show (s1.memOf ch).writes = _; rw [k1]; exact o2

theorem drain_pre (z : State) (x : MemX) : (z.memDrain x).wait = x.wait ∧ (z.memDrain x).reads = x.reads ∧ (z.memDrain x).writes = x.writes ∧ (z.memDrain x).flight = x.flight ∧ (z.memDrain x).ranks = x.ranks := by
  unfold State.memDrain; dsimp only; split <;> exact ⟨rfl, rfl, rfl, rfl, rfl⟩

theorem postpone_pre (x : MemX) : x.postpone.wait = x.wait ∧ x.postpone.reads = x.reads ∧ x.postpone.writes = x.writes ∧ x.postpone.flight = x.flight := by
  unfold MemX.postpone; split <;> exact ⟨rfl, rfl, rfl, rfl⟩

theorem showPostponed_pre (ch : Nat) (s : State) : (∀ k, (showPostponed ch s).memOf k = s.memOf k) ∧ (showPostponed ch s).sdram = s.sdram ∧ (showPostponed ch s).memBad = s.memBad ∧ (showPostponed ch s).now = s.now :=
  ⟨fun _ => rfl, rfl, rfl, rfl⟩

theorem sched_pre (s g u : State) (ch : Nat) (hg : g = s.set F.Chan.REPLAYING (pgChan ch) 0) (hu : u = showPostponed ch (g.updMem ch (fun x => (g.memDrain { x with alerts := 0 }).postpone))) :
    ((u.memOf ch).wait = (s.memOf ch).wait ∧ (u.memOf ch).reads = (s.memOf ch).reads ∧ (u.memOf ch).writes = (s.memOf ch).writes ∧ (u.memOf ch).flight = (s.memOf ch).flight) ∧ u.sdram = s.sdram ∧ u.now = s.now ∧ u.memBad = s.memBad := by
  have gm : g.memOf ch = s.memOf ch := by rw [hg]; rfl
  obtain ⟨e1, e2, e3, e4⟩ := showPostponed_pre ch (g.updMem ch (fun x => (g.memDrain { x with alerts := 0 }).postpone))
  refine ⟨?_, by rw [hu, e2, hg]; rfl, by rw [hu, e4, hg]; rfl, by rw [hu, e3, hg]; rfl⟩
  rw [hu, e1, State.memOf_updMem, gm]
  obtain ⟨p1, p2, p3, p4⟩ := postpone_pre (g.memDrain { s.memOf ch with alerts := 0 })
  obtain ⟨d1, d2, d3, d4, _⟩ := drain_pre g { s.memOf ch with alerts := 0 }
  exact ⟨p1.trans d1, p2.trans d2, p3.trans d3, p4.trans d4⟩

theorem sched_choice (s g u : State) (ch : Nat) (hb : s.memBlocked ch = false) (hch : ch < 4) (hw : (s.memOf ch).wait = [])
    (hg : g = s.set F.Chan.REPLAYING (pgChan ch) 0) (hu : u = showPostponed ch (g.updMem ch (fun x => (g.memDrain { x with alerts := 0 }).postpone)))
    (hn : ∀ r, ((u.memOf ch).rank r).refNow = 0 ∧ ((u.memOf ch).rank r).zqNow = 0) (q : MemReq) (hq : u.memChoose (u.memOf ch) = some q) :
    exec (.memSchedule ch) s = .next (memIssue ch q u) := by
  simp only [exec, execMemSchedule]
  rw [if_neg (by rw [hb]; simp; omega), ← hg, hw]
  simp only [List.length_nil, memAdmit]
  rw [← hu]
  have f1 : ∀ l : List Nat, l.find? (fun r => decide (0 < ((u.memOf ch).rank r).refNow)) = none := fun l => by
    rw [List.find?_eq_none]; intro r _; rw [(hn r).1]; simp
  have f2 : ∀ l : List Nat, l.find? (fun r => decide (0 < ((u.memOf ch).rank r).zqNow)) = none := fun l => by
    rw [List.find?_eq_none]; intro r _; rw [(hn r).2]; simp
  rw [f1, f2, hq]

end Sys2Proof.Machine
end

