-- ==== Sys2Proof/Laws/OfMemUpkeep.lean ====
section
/-! SUPPORT. Lemmas that the statements about its unit: MemUpkeep rest on. -/

-- One declaration after another: the package is also checked as one text, where too many threads would start at once.
set_option Elab.async false

set_option linter.unusedVariables false
set_option linter.unusedSimpArgs false

namespace Sys2Proof.Machine

theorem pgChan_ne : ∀ c < 4, pgChan c ≠ pgLedger ∧ pgChan c ≠ pgMem := by decide

theorem issue_keeps (x : MemX) (k a n q : Nat) : (x.issue k a n q).reads = x.reads ∧ (x.issue k a n q).writes = x.writes ∧ (x.issue k a n q).flight = x.flight ∧ (x.issue k a n q).alerts = x.alerts ∧ (x.issue k a n q).rows = x.rows ∧ (x.issue k a n q).ranks = x.ranks := by
  unfold MemX.issue; exact ⟨rfl, rfl, rfl, rfl, rfl, rfl⟩

theorem openRow_keeps (s : State) (a : Nat) (x : MemX) : (s.openRow a x).reads = x.reads ∧ (s.openRow a x).writes = x.writes ∧ (s.openRow a x).flight = x.flight ∧ (s.openRow a x).alerts = x.alerts := by
  unfold State.openRow; dsimp only
  split
  · split <;> simp [MemX.issue]
  · simp [MemX.issue]

theorem reissue_keeps (s : State) (l : List MemCmd) (x : MemX) :
    (l.foldl (fun y c => (s.openRow c.arg y).issue c.kind c.arg s.now c.req) x).reads = x.reads ∧ (l.foldl (fun y c => (s.openRow c.arg y).issue c.kind c.arg s.now c.req) x).writes = x.writes ∧
    (l.foldl (fun y c => (s.openRow c.arg y).issue c.kind c.arg s.now c.req) x).flight = x.flight ∧ (l.foldl (fun y c => (s.openRow c.arg y).issue c.kind c.arg s.now c.req) x).alerts = x.alerts := by
  induction l generalizing x with
  | nil => exact ⟨rfl, rfl, rfl, rfl⟩
  | cons c l ih =>
    obtain ⟨a1, a2, a3, a4⟩ := ih ((s.openRow c.arg x).issue c.kind c.arg s.now c.req)
    obtain ⟨b1, b2, b3, b4, -, -⟩ := issue_keeps (s.openRow c.arg x) c.kind c.arg s.now c.req
    obtain ⟨c1, c2, c3, c4⟩ := openRow_keeps s c.arg x
    simp only [List.foldl_cons]
    exact ⟨a1.trans (b1.trans c1), a2.trans (b2.trans c2), a3.trans (b3.trans c3), a4.trans (b4.trans c4)⟩

theorem updRank_rank (x : MemX) (r k : Nat) (f : MemRank → MemRank) : (x.updRank r f).rank k = if k = r then f (x.rank r) else x.rank k := by
  unfold MemX.updRank MemX.rank; dsimp only
  by_cases h : k = r
  · subst h; rw [if_pos rfl, tget_tput_self]
  · rw [if_neg h, tget_tput_ne _ _ _ h]

theorem ranks_fold (g : MemX → Nat → MemX) (hg : ∀ x r k, k ≠ r → (g x r).rank k = x.rank k) (Q : MemRank → MemRank → Prop) (hq : ∀ x r, Q (x.rank r) ((g x r).rank r)) (n : Nat) (x : MemX) :
    ∀ r, (r < n → Q (x.rank r) (((List.range n).foldl g x).rank r)) ∧ (n ≤ r → ((List.range n).foldl g x).rank r = x.rank r) := by
  induction n with
  | zero => intro r; exact ⟨fun h => absurd h (by omega), fun _ => rfl⟩
  | succ n ih =>
    intro r
    rw [List.range_succ, List.foldl_append]; simp only [List.foldl_cons, List.foldl_nil]
    refine ⟨fun h => ?_, fun h => ?_⟩
    · by_cases hr : r = n
      · subst hr; have := hq ((List.range r).foldl g x) r; rw [(ih r).2 (le_refl _)] at this; exact this
      · rw [hg _ _ _ hr]; exact (ih r).1 (by omega)
    · rw [hg _ _ _ (by omega)]; exact (ih r).2 (by omega)

theorem fold_keeps {α β : Type} (l : List α) (x : MemX) (g : MemX → α → MemX) (P : MemX → β) (h : ∀ x a, P (g x a) = P x) : P (l.foldl g x) = P x := by
  induction l generalizing x with
  | nil => rfl
  | cons a l ih => rw [List.foldl_cons, ih, h]

end Sys2Proof.Machine
end

