-- ==== Sys2Proof/Laws/OfMemFreq.lean ====
section
/-! SUPPORT. Lemmas that the statements about its unit: MemFreq rest on. -/

-- One declaration after another: the package is also checked as one text, where too many threads would start at once.
set_option Elab.async false

set_option linter.unusedVariables false
set_option linter.unusedSimpArgs false

namespace Sys2Proof.Machine

/-- A change of one channel and its page. -/
structure ChStep (c : Nat) (z z' : State) : Prop where
  memc : z'.memc = z.memc
  now : z'.now = z.now
  mem : ∀ k ≠ c, z'.memOf k = z.memOf k
  reg : ∀ k, k / 131072 ≠ pgChan c → k / 131072 ≠ pgLedger → tfind z'.regs k = tfind z.regs k

theorem ChStep.refl (c : Nat) (z : State) : ChStep c z z := ⟨rfl, rfl, fun _ _ => rfl, fun _ _ _ => rfl⟩

theorem ChStep.trans {c : Nat} {z w v : State} (h : ChStep c z w) (g : ChStep c w v) : ChStep c z v :=
  ⟨g.memc.trans h.memc, g.now.trans h.now, fun k hk => (g.mem k hk).trans (h.mem k hk), fun k hk hl => (g.reg k hk hl).trans (h.reg k hk hl)⟩

theorem ChStep.updMem {c : Nat} {z w : State} (h : ChStep c z w) (f) : ChStep c z (w.updMem c f) :=
  h.trans ⟨rfl, rfl, fun _ hk => State.memOf_updMem_ne _ _ hk, fun _ _ _ => rfl⟩

theorem ChStep.set {c : Nat} {z w : State} (h : ChStep c z w) (f : Fld) (v : Nat) (hf : f.off + 0 * f.stride < 4096) (hl : f.lo < 32) : ChStep c z (w.set f (pgChan c) v) :=
  h.trans ⟨rfl, rfl, fun _ _ => rfl, fun k hk _ => tfind_tputD_ne _ _ _ (by rintro rfl; exact hk (Fld.key_page hf hl))⟩

theorem ChStep.raise {c : Nat} {z w : State} (h : ChStep c z w) (e : Ev) (arg : Nat) (hc : c < 4) : ChStep c z (w.raise e (pgChan c) arg) :=
  have g := w.onlyEvents_raise e arg (chan_ne hc)
  h.trans ⟨State.raise_memc _ _ _ _, State.raise_now _ _ _ _, fun _ _ => State.memOf_raise _ _ _ _ _, fun k hk hl => g.2.1 k (by simp) (by rintro rfl; exact hk (Fld.key_page (by decide) (by decide))) hl⟩

theorem ChStep.get {c : Nat} {z w : State} (h : ChStep c z w) (g : Fld) (pg : Nat) (hp : pg ≠ pgChan c) (hq : pg ≠ pgLedger) (hf : g.off + 0 * g.stride < 4096) (hl : g.lo < 32) : w.get g pg = z.get g pg := by
  unfold State.get State.getI tget; rw [h.reg _ (by rw [Fld.key_page hf hl]; exact hp) (by rw [Fld.key_page hf hl]; exact hq)]

theorem ChStep.trainStart (c k p : Nat) (a : Bool) (z : State) : ChStep c z (trainStart c k p a z) :=
  ((((ChStep.refl c z).updMem _).set _ _ (by decide) (by decide)).set _ _ (by decide) (by decide)).set _ _ (by decide) (by decide)

theorem ChStep.srIssue (c : Nat) (z : State) : ChStep c z (srIssue c z) := by
  unfold Sys2Proof.Machine.srIssue; split
  · exact ChStep.refl _ _
  · exact (((ChStep.refl c z).updMem _).set F.Chan.SR_ENTRIES _ (by decide) (by decide)).set _ _ (by decide) (by decide)

theorem ChStep.srEntry (c : Nat) (z : State) : ChStep c z (srEntry c z) :=
  (((ChStep.refl c z).updMem _).updMem _).set _ _ (by decide) (by decide)

theorem ChStep.memMerge (c : Nat) (hc : c < 4) (q : MemReq) (z : State) : ChStep c z (memMerge c q z) := by
  have h : ∀ y bad, ChStep c z y → ChStep c z (memStore q bad y) := fun y bad hy => hy.trans ⟨rfl, rfl, fun _ _ => rfl, fun _ _ _ => rfl⟩
  unfold Sys2Proof.Machine.memMerge; dsimp only
  refine h _ _ ?_
  split
  · exact ChStep.refl _ _
  · exact ((((ChStep.refl c z).set F.Chan.ECC_UE_COUNT _ (by decide) (by decide)).set _ _ (by decide) (by decide)).set _ _ (by decide) (by decide)).raise _ _ hc

theorem memMerge_memOf (c k : Nat) (q : MemReq) (z : State) : (memMerge c q z).memOf k = z.memOf k := by
  unfold memMerge; dsimp only
  rw [memStore_memOf]; split
  · rfl
  · unfold memPoison; dsimp only; rw [State.memOf_raise]; rfl

theorem forAll_merge (c : Nat) (hc : c < 4) (l : List MemReq) (z : State) : ChStep c z (forAll l z (memMerge c)) ∧ ∀ k, (forAll l z (memMerge c)).memOf k = z.memOf k := by
  induction l generalizing z with
  | nil => exact ⟨ChStep.refl _ _, fun _ => rfl⟩
  | cons q l ih =>
    obtain ⟨h1, h2⟩ := ih (memMerge c q z)
    exact ⟨(ChStep.memMerge c hc q z).trans h1, fun k => (h2 k).trans (memMerge_memOf c k q z)⟩

theorem memFlush_facts (c : Nat) (hc : c < 4) (z : State) : ChStep c z (memFlush c z) ∧ ((memFlush c z).memOf c).writes = [] ∧
    ((memFlush c z).memOf c).reads = (z.memOf c).reads.filter (fun r => !(z.memOf c).writes.any (fun w => w.burst == r.burst && decide (r.seq < w.seq))) ∧
    ((memFlush c z).memOf c).valid = (z.memOf c).valid := by
  obtain ⟨h1, h2⟩ := forAll_merge c hc (z.memOf c).writes (z.updMem c z.readsAhead)
  unfold memFlush; dsimp only
  refine ⟨(((ChStep.refl c z).updMem _).trans h1).updMem _, ?_, ?_, ?_⟩
  · rw [State.memOf_updMem]
  · rw [State.memOf_updMem]; dsimp only; rw [h2, State.memOf_updMem]; rfl
  · rw [State.memOf_updMem]; dsimp only; rw [h2, State.memOf_updMem]; rfl

theorem modeRegs_facts (c : Nat) (l : List Nat) (z : State) : ChStep c z (l.foldl (fun s r => s.updMem c (fun x => x.issue 10 r s.now)) z) ∧
    ((l.foldl (fun s r => s.updMem c (fun x => x.issue 10 r s.now)) z).memOf c).writes = (z.memOf c).writes ∧
    ((l.foldl (fun s r => s.updMem c (fun x => x.issue 10 r s.now)) z).memOf c).reads = (z.memOf c).reads ∧
    ((l.foldl (fun s r => s.updMem c (fun x => x.issue 10 r s.now)) z).memOf c).valid = (z.memOf c).valid ∧
    (l.foldl (fun s r => s.updMem c (fun x => x.issue 10 r s.now)) z).get F.Chan.POWER (pgChan c) = z.get F.Chan.POWER (pgChan c) := by
  induction l generalizing z with
  | nil => exact ⟨ChStep.refl _ _, rfl, rfl, rfl, rfl⟩
  | cons r l ih =>
    obtain ⟨h1, h2, h3, h4, h5⟩ := ih (z.updMem c (fun x => x.issue 10 r z.now))
    have e : (z.updMem c (fun x => x.issue 10 r z.now)).memOf c = (z.memOf c).issue 10 r z.now := State.memOf_updMem _ _ _
    rw [e] at h2 h3 h4
    exact ⟨((ChStep.refl c z).updMem _).trans h1, h2, h3, h4, h5⟩

theorem srExit_facts (c : Nat) (z : State) : ChStep c z (srExit c z) ∧ ((srExit c z).memOf c).writes = (z.memOf c).writes ∧
    ((srExit c z).memOf c).reads = (z.memOf c).reads ∧ ((srExit c z).memOf c).valid = (z.memOf c).valid ∧ (srExit c z).get F.Chan.POWER (pgChan c) = 0 := by
  unfold srExit memPower
  refine ⟨((ChStep.refl c z).updMem _).set F.Chan.POWER 0 (by decide) (by decide), ?_, ?_, ?_, by rw [State.get_set_self]; rfl⟩ <;>
    (rw [State.memOf_set, State.memOf_updMem]; rfl)

theorem freqExit_facts (c : Nat) (z : State) : ChStep c z (freqExit c z) ∧ ((freqExit c z).memOf c).writes = (z.memOf c).writes ∧
    ((freqExit c z).memOf c).reads = (z.memOf c).reads ∧ ((freqExit c z).memOf c).valid = (z.memOf c).valid ∧ (freqExit c z).get F.Chan.POWER (pgChan c) = 0 := by
  obtain ⟨a1, a2, a3, a4, a5⟩ := srExit_facts c z
  obtain ⟨b1, b2, b3, b4, b5⟩ := modeRegs_facts c [0, 2, 5, 6] (srExit c z)
  unfold freqExit
  exact ⟨a1.trans b1, b2.trans a2, b3.trans a3, b4.trans a4, b5.trans a5⟩

theorem srEntry_keeps (c : Nat) (z : State) : ((srEntry c z).memOf c).writes = (z.memOf c).writes ∧ ((srEntry c z).memOf c).reads = (z.memOf c).reads ∧ ((srEntry c z).memOf c).valid = (z.memOf c).valid := by
  unfold srEntry issueAllRefs showPostponed; dsimp only
  rw [State.memOf_set, State.memOf_updMem, State.memOf_updMem]
  have inner : ∀ {β : Type} (P : MemX → β), (∀ x k a n, P (x.issue k a n) = P x) → (∀ x r f, P (x.updRank r f) = P x) → ∀ (n r : Nat) (x : MemX) (now : Nat) g,
      P (((List.range n).foldl (fun x _ => x.issue 4 r now) x).updRank r g) = P x := by
    intro β P h1 h2 n r x now g; rw [h2]; exact fold_keeps _ _ _ P fun _ _ => h1 _ _ _ _
  refine ⟨?_, ?_, ?_⟩
  · rw [fold_keeps _ _ _ (fun x => x.writes) fun x r => inner (fun x => x.writes) (fun _ _ _ _ => rfl) (fun _ _ _ => rfl) _ _ _ _ _]; rfl
  · rw [fold_keeps _ _ _ (fun x => x.reads) fun x r => inner (fun x => x.reads) (fun _ _ _ _ => rfl) (fun _ _ _ => rfl) _ _ _ _ _]; rfl
  · rw [fold_keeps _ _ _ (fun x => x.valid) fun x r => inner (fun x => x.valid) (fun _ _ _ _ => rfl) (fun _ _ _ => rfl) _ _ _ _ _]; rfl

theorem trainStart_facts (c k p : Nat) (a : Bool) (z : State) : (((trainStart c k p a z).memOf c).train = k ∧ ((trainStart c k p a z).memOf c).auto = a ∧
      ((trainStart c k p a z).memOf c).writes = (z.memOf c).writes ∧ ((trainStart c k p a z).memOf c).reads = (z.memOf c).reads ∧ ((trainStart c k p a z).memOf c).valid = (z.memOf c).valid) ∧
    (trainStart c k p a z).get F.Chan.TRAIN_STATUS_STATE (pgChan c) = 1 ∧ (trainStart c k p a z).get F.Chan.POINT (pgChan c) = low 2 p ∧
    (trainStart c k p a z).get F.Chan.FAIL_STEP (pgChan c) = 0 ∧ (trainStart c k p a z).get F.Chan.POWER (pgChan c) = z.get F.Chan.POWER (pgChan c) := by
  unfold trainStart; dsimp only
  have fk : ∀ {β : Type} (P : MemX → β), (∀ x a n, P (x.issue 9 a n) = P x) → ∀ (l : List Nat) (x : MemX), P (l.foldl (fun x r => x.issue 9 r z.now) x) = P x :=
    fun P hP l x => fold_keeps l x _ P fun _ _ => hP _ _ _
  refine ⟨?_, ?_, ?_, ?_, ?_⟩
  · rw [State.memOf_set, State.memOf_set, State.memOf_set, State.memOf_updMem]
    refine ⟨rfl, rfl, ?_, ?_, ?_⟩
    · dsimp only; split
      · exact fk (fun x => x.writes) (fun _ _ _ => rfl) _ _
      · rfl
    · dsimp only; split
      · exact fk (fun x => x.reads) (fun _ _ _ => rfl) _ _
      · rfl
    · dsimp only; split
      · exact fk (fun x => x.valid) (fun _ _ _ => rfl) _ _
      · rfl
  · rw [State.get_set_off _ (by decide), State.get_set_off _ (by decide), State.get_set_self]; rfl
  · rw [State.get_set_off _ (by decide), State.get_set_self]; rfl
  · rw [State.get_set_self]; rfl
  · rw [State.get_set_off _ (by decide), State.get_set_off _ (by decide), State.get_set_off _ (by decide)]; rfl

theorem chan_pages : ∀ a < 4, ∀ b < 4, a ≠ b → pgChan a ≠ pgChan b := by decide

/-- One step for each channel: what each step says of its own channel holds at the end. -/
theorem forAll_channels (f : Nat → State → State) (hf : ∀ c < 4, ∀ z, ChStep c z (f c z)) (z : State) :
    ∀ c < 4, ∃ y, (∀ g pg, (∀ k < 4, k ≠ c → pg ≠ pgChan k) → g.off + 0 * g.stride < 4096 → g.lo < 32 → pg ≠ pgChan c → pg ≠ pgLedger → y.get g pg = z.get g pg) ∧ (∀ g, g.off + 0 * g.stride < 4096 → g.lo < 32 → y.get g (pgChan c) = z.get g (pgChan c)) ∧ y.memOf c = z.memOf c ∧
      (forAll [0, 1, 2, 3] z f).memOf c = (f c y).memOf c ∧ (∀ g, g.off + 0 * g.stride < 4096 → g.lo < 32 → (forAll [0, 1, 2, 3] z f).get g (pgChan c) = (f c y).get g (pgChan c)) ∧ y.now = z.now := by
  have e : forAll [0, 1, 2, 3] z f = f 3 (f 2 (f 1 (f 0 z))) := rfl
  have h0 := hf 0 (by decide) z
  have h1 := hf 1 (by decide) (f 0 z)
  have h2 := hf 2 (by decide) (f 1 (f 0 z))
  have h3 := hf 3 (by decide) (f 2 (f 1 (f 0 z)))
  have p : ∀ a b, a < 4 → b < 4 → a ≠ b → pgChan a ≠ pgChan b := fun a b ha hb hn => chan_pages a ha b hb hn
  intro c hc
  rw [e]
  have : c = 0 ∨ c = 1 ∨ c = 2 ∨ c = 3 := by omega
  rcases this with rfl | rfl | rfl | rfl
  · refine ⟨z, fun _ _ _ _ _ _ _ => rfl, fun _ _ _ => rfl, rfl, ?_, fun g hg hl => ?_, rfl⟩
    · rw [h3.mem 0 (by decide), h2.mem 0 (by decide), h1.mem 0 (by decide)]
    · rw [h3.get g _ (p 0 3 (by decide) (by decide) (by decide)) (by decide) hg hl, h2.get g _ (p 0 2 (by decide) (by decide) (by decide)) (by decide) hg hl, h1.get g _ (p 0 1 (by decide) (by decide) (by decide)) (by decide) hg hl]
  · refine ⟨f 0 z, fun g pg hn hg hl hc hq => h0.get g _ (hn 0 (by decide) (by decide)) hq hg hl, fun g hg hl => h0.get g _ (p 1 0 (by decide) (by decide) (by decide)) (by decide) hg hl, h0.mem 1 (by decide), ?_, fun g hg hl => ?_, h0.now⟩
    · rw [h3.mem 1 (by decide), h2.mem 1 (by decide)]
    · rw [h3.get g _ (p 1 3 (by decide) (by decide) (by decide)) (by decide) hg hl, h2.get g _ (p 1 2 (by decide) (by decide) (by decide)) (by decide) hg hl]
  · have h01 : ∀ g pg, pg ≠ pgChan 0 → pg ≠ pgChan 1 → pg ≠ pgLedger → g.off + 0 * g.stride < 4096 → g.lo < 32 → (f 1 (f 0 z)).get g pg = z.get g pg := fun g pg a b hq hg hl => (h1.get g _ b hq hg hl).trans (h0.get g _ a hq hg hl)
    refine ⟨f 1 (f 0 z), fun g pg hn hg hl hc hq => h01 g pg (hn 0 (by decide) (by decide)) (hn 1 (by decide) (by decide)) hq hg hl, fun g hg hl => h01 g _ (p 2 0 (by decide) (by decide) (by decide)) (p 2 1 (by decide) (by decide) (by decide)) (by decide) hg hl, (h1.mem 2 (by decide)).trans (h0.mem 2 (by decide)), ?_, fun g hg hl => ?_, h1.now.trans h0.now⟩
    · rw [h3.mem 2 (by decide)]
    · rw [h3.get g _ (p 2 3 (by decide) (by decide) (by decide)) (by decide) hg hl]
  · have h012 : ∀ g pg, pg ≠ pgChan 0 → pg ≠ pgChan 1 → pg ≠ pgChan 2 → pg ≠ pgLedger → g.off + 0 * g.stride < 4096 → g.lo < 32 → (f 2 (f 1 (f 0 z))).get g pg = z.get g pg := fun g pg a b c hq hg hl => (h2.get g _ c hq hg hl).trans ((h1.get g _ b hq hg hl).trans (h0.get g _ a hq hg hl))
    refine ⟨f 2 (f 1 (f 0 z)), fun g pg hn hg hl hc hq => h012 g pg (hn 0 (by decide) (by decide)) (hn 1 (by decide) (by decide)) (hn 2 (by decide) (by decide)) hq hg hl, fun g hg hl => h012 g _ (p 3 0 (by decide) (by decide) (by decide)) (p 3 1 (by decide) (by decide) (by decide)) (p 3 2 (by decide) (by decide) (by decide)) (by decide) hg hl, ((h2.mem 3 (by decide)).trans (h1.mem 3 (by decide))).trans (h0.mem 3 (by decide)), rfl, fun g hg hl => rfl, h2.now.trans (h1.now.trans h0.now)⟩

theorem journalNext_jrn (s : State) : ∃ j, journalNext s = { s with jrn := j } := by
  unfold journalNext; dsimp only
  split
  · exact ⟨s.jrn, rfl⟩
  · split
    · exact ⟨_, rfl⟩
    · split
      · exact ⟨s.jrn, rfl⟩
      · split
        · unfold State.updJrn; dsimp only; exact ⟨_, rfl⟩
        · exact ⟨_, rfl⟩

theorem journalAsk_jrn (o : JObj) (s : State) : ∃ j, journalAsk o s = { s with jrn := j } := by
  unfold journalAsk
  obtain ⟨j, h⟩ := journalNext_jrn (s.updJrn (fun j => { j with queue := j.queue ++ [o] }))
  exact ⟨j, by rw [h]; rfl⟩

theorem memSave_jrn (p : Nat) (s : State) : ∃ j, memSave p s = { s with jrn := j } := by
  unfold memSave; split
  · exact journalAsk_jrn _ _
  · exact ⟨s.jrn, rfl⟩

end Sys2Proof.Machine
end

