-- ==== Sys2Proof/Laws/OfStacks.lean ====
section
/-! SUPPORT. Lemmas that the statements about its unit: Stacks rest on. -/

-- One declaration after another: the package is also checked as one text, where too many threads would start at once.
set_option Elab.async false

set_option linter.unusedVariables false
set_option linter.unusedSimpArgs false

namespace Sys2Proof.Machine

/-- What a beat changes beside the request it serves. -/
structure BeatKeeps (s t : State) : Prop where
  stack : t.stack = s.stack
  ring : t.ring = s.ring
  now : t.now = s.now
  bnd : t.bnd = s.bnd
  pages : s.OnPages t [pgLedger, pgSram, pgMem, pgChan 0, pgChan 1, pgChan 2, pgChan 3]

theorem BeatKeeps.refl (s : State) : BeatKeeps s s := ⟨rfl, rfl, rfl, rfl, .refl _ _⟩

theorem BeatKeeps.trans {s t u : State} (h : BeatKeeps s t) (g : BeatKeeps t u) : BeatKeeps s u :=
  ⟨g.stack.trans h.stack, g.ring.trans h.ring, g.now.trans h.now, g.bnd.trans h.bnd, h.pages.trans g.pages⟩

theorem BeatKeeps.set {s t : State} (h : BeatKeeps s t) {f : Fld} {pg i v : Nat} (hp : pg ∈ [pgLedger, pgSram, pgMem, pgChan 0, pgChan 1, pgChan 2, pgChan 3])
    (hf : f.off + i * f.stride < 4096) (hl : f.lo < 32) : BeatKeeps s (t.setI f pg i v) := ⟨h.stack, h.ring, h.now, h.bnd, h.pages.setI v hp hf hl⟩

theorem BeatKeeps.raiseX {s t : State} (h : BeatKeeps s t) (e : Ev) {pg : Nat} (arg sub sev : Nat) (fo : Bool) (hp : pg ∈ [pgLedger, pgSram, pgMem, pgChan 0, pgChan 1, pgChan 2, pgChan 3])
    (hn : pg ≠ pgLedger) : BeatKeeps s (t.raiseX e pg arg sub sev fo) := by
  have p := h.pages.raiseX e arg sub sev fo hp hn (by decide)
  obtain ⟨m, g, q, w, e'⟩ := t.raiseX_eq e pg arg sub sev fo
  refine ⟨?_, ?_, ?_, ?_, p⟩
  · rw [e']; exact h.stack
  · rw [e']; exact h.ring
  · rw [e']; exact h.now
  · rw [e']; exact h.bnd

theorem keeps_corrected (die w syn : Nat) (s t : State) (hd : die < 3) (h : BeatKeeps s t) : BeatKeeps s (sramCorrected die w syn t) := by
  unfold sramCorrected State.satI; dsimp only
  refine (h.set (by decide) ?_ (by decide)).raiseX _ _ _ _ _ (by decide) (by decide)
  have : die = 0 ∨ die = 1 ∨ die = 2 := by omega
  rcases this with rfl | rfl | rfl <;> decide

theorem keeps_bad (die src w : Nat) (s t : State) (hd : die < 3) (h : BeatKeeps s t) : BeatKeeps s (sramBad die src w t) := by
  unfold sramBad State.satI; dsimp only
  refine ((((h.set (f := F.Sram.UE_COUNT) (by decide) ?_ (by decide)).set (f := F.Sram.DIE) (by decide) (by decide) (by decide)).set (f := F.Sram.SOURCE) (by decide) (by decide) (by decide)).set (f := F.Sram.WORD) (by decide) (by decide) (by decide)).raiseX _ _ _ _ _ (by decide) (by decide)
  have : die = 0 ∨ die = 1 ∨ die = 2 := by omega
  rcases this with rfl | rfl | rfl <;> decide

theorem keeps_roomRead (w : Nat) (s t : State) (h : BeatKeeps s t) : BeatKeeps s (roomRead w t).1 := by
  unfold roomRead; dsimp only
  split
  · exact h
  · split
    · exact h
    · split
      · exact keeps_corrected _ _ _ _ _ (by decide) h
      · exact keeps_bad _ _ _ _ _ (by decide) h

theorem keeps_roomBeat (a : Nat) (s t : State) (h : BeatKeeps s t) : BeatKeeps s (roomBeat a t).1 := by
  have key : ∀ (l : List Nat) (x : State × List Nat × Bool), BeatKeeps s x.1 → BeatKeeps s (l.foldl (fun (a' : State × List Nat × Bool) i =>
    let w := roomRead (a / 4 + i) a'.1
    (w.1, a'.2.1 ++ [w.2.1], a'.2.2 || w.2.2)) x).1 := by
    intro l
    induction l with
    | nil => intro x hx; exact hx
    | cons i l ih => intro x hx; exact ih _ (keeps_roomRead _ _ _ hx)
  have k := key (List.range 16) (t, [], false) h
  unfold roomBeat; dsimp only
  generalize (List.range 16).foldl _ (t, [], false) = r at k ⊢
  exact k

theorem BeatKeeps.mem {s t u : State} (h : BeatKeeps s t) (g : t.MemOnly u) : BeatKeeps s u := by
  refine ⟨by rw [g.1]; exact h.stack, by rw [g.1]; exact h.ring, by rw [g.1]; exact h.now, by rw [g.1]; exact h.bnd, h.pages.trans fun k hk => g.2 k fun hm => hk ?_⟩
  simp only [memPages, List.mem_cons, List.not_mem_nil, or_false] at hm
  rcases hm with e | e | e | e | e | e <;> rw [e] <;> decide

theorem keeps_sdramBeat (i a : Nat) (s t : State) (h : BeatKeeps s t) : BeatKeeps s (sdramBeat i a t).1 :=
  h.mem (memOnly_burstRead _ _ (.refl _))

theorem keeps_roomWrite (a : Nat) (bs : List Byte) (s t : State) (h : BeatKeeps s t) : BeatKeeps s (roomWrite a bs t) := by
  unfold roomWrite; dsimp only
  refine forAll_inv _ _ _ (BeatKeeps s) ⟨h.stack, h.ring, h.now, h.bnd, h.pages⟩ ?_
  intro e u hu
  exact ⟨hu.stack, hu.ring, hu.now, hu.bnd, hu.pages⟩

/-- What beats of a request keep, and how far it has come. -/
structure Beats (i : Nat) (q : StackReq) (n : Nat) (s t : State) : Prop where
  owner : t.stack.owner = s.stack.owner
  first : t.stack.first = s.stack.first
  len : t.stack.len = s.stack.len
  other : ∀ j ≠ i, t.stack.req j = s.stack.req j
  mine : ∃ q', t.stack.req i = some q' ∧ q'.done = n ∧ q'.stamp = q.stamp ∧ q'.arrived = q.arrived ∧ q'.beats = q.beats ∧ q'.addr = q.addr ∧ q'.wr = q.wr ∧ q'.sdram = q.sdram ∧ q'.data = q.data
  ring : t.ring = s.ring
  now : t.now = s.now
  bnd : t.bnd = s.bnd
  regs : ∀ f : Fld, f.off + 0 * f.stride < 4096 → f.lo < 32 → f.off * 32 + f.lo ≠ F.Stk.BEATS.off * 32 + F.Stk.BEATS.lo → t.get f pgStk = s.get f pgStk

theorem stkBeats_regs {s t : State} (h : s.OnPages t [pgLedger, pgSram, pgMem, pgChan 0, pgChan 1, pgChan 2, pgChan 3]) (f : Fld) (hf : f.off + 0 * f.stride < 4096) (hl : f.lo < 32) : t.get f pgStk = s.get f pgStk :=
  h.get (by decide) hf hl

theorem beats_step {i n : Nat} {q : StackReq} {s t : State} (h : Beats i q n s t) : Beats i q (n + 1) s (stackBeat i n t) := by
  obtain ⟨q', e, d1, d2, d3, d4, d5, d6, d7, d8⟩ := h.mine
  obtain ⟨t0, ht0⟩ : ∃ t0 : State, t0 = t.wrapI F.Stk.BEATS pgStk 0 1 := ⟨_, rfl⟩
  have hs0 : t0.stack = t.stack := by rw [ht0]; rfl
  have hr0 : t0.ring = t.ring := by rw [ht0]; rfl
  have hn0 : t0.now = t.now := by rw [ht0]; rfl
  have hb0 : t0.bnd = t.bnd := by rw [ht0]; rfl
  have hg0 : ∀ f : Fld, f.off * 32 + f.lo ≠ F.Stk.BEATS.off * 32 + F.Stk.BEATS.lo → t0.get f pgStk = t.get f pgStk := fun f hne => by
    rw [ht0]; unfold State.wrapI; exact State.get_set_off (f := F.Stk.BEATS) _ (by rw [Nat.zero_mul, Nat.zero_mul]; exact hne)
  have fin : ∀ (u : State) (r : StackReq), BeatKeeps t0 u → r.done = n + 1 → r.stamp = q'.stamp → r.arrived = q'.arrived → r.beats = q'.beats → r.addr = q'.addr → r.wr = q'.wr → r.sdram = q'.sdram → r.data = q'.data →
      Beats i q (n + 1) s (u.updStack (fun x => { x with reqs := tput x.reqs i r })) := by
    intro u r hu r1 r2 r3 r4 r5 r6 r7 r8
    have us : u.stack = t.stack := hu.stack.trans hs0
    refine ⟨?_, ?_, ?_, fun j hj => ?_, ⟨r, ?_, r1, r2.trans d2, r3.trans d3, r4.trans d4, r5.trans d5, r6.trans d6, r7.trans d7, r8.trans d8⟩, ?_, ?_, ?_, fun f hf hl hne => ?_⟩
    · show u.stack.owner = _; rw [us, h.owner]
    · show u.stack.first = _; rw [us, h.first]
    · show u.stack.len = _; rw [us, h.len]
    · show tfind (tput u.stack.reqs i r) j = _; rw [tfind_tput_ne _ _ hj, us]; exact h.other j hj
    · show tfind (tput u.stack.reqs i r) i = _; exact tfind_tput_self _ _ _
    · show u.ring = _; rw [hu.ring, hr0, h.ring]
    · show u.now = _; rw [hu.now, hn0, h.now]
    · show u.bnd = _; rw [hu.bnd, hb0, h.bnd]
    · show u.get f pgStk = _; rw [stkBeats_regs hu.pages f hf hl, hg0 f hne, h.regs f hf hl hne]
  unfold stackBeat; rw [e]; dsimp only; rw [← ht0]
  split
  · split
    · exact fin _ _ (BeatKeeps.mem (.refl _) (memOnly_sdramWrite _ _ _ (.refl _))) rfl rfl rfl rfl rfl rfl rfl rfl
    · exact fin _ _ (keeps_roomWrite _ _ _ _ (.refl _)) rfl rfl rfl rfl rfl rfl rfl rfl
  · split
    · exact fin _ _ (keeps_sdramBeat _ _ _ _ (.refl _)) rfl rfl rfl rfl rfl rfl rfl rfl
    · exact fin _ _ (keeps_roomBeat _ _ _ (.refl _)) rfl rfl rfl rfl rfl rfl rfl rfl

theorem beats_all (i : Nat) (q : StackReq) (s t : State) (m : Nat) (h : Beats i q m s t) (n : Nat) : Beats i q (m + n) s (forAll (List.range n) t (fun k s => stackBeat i (m + k) s)) := by
  induction n with
  | zero => exact h
  | succ n ih =>
    unfold forAll at ih ⊢
    rw [List.range_succ, List.foldl_append]
    exact beats_step ih

theorem beats_start (i : Nat) (q : StackReq) (s t : State) (h : s.stack.req i = some q) (hs : t.stack = s.stack) (hr : t.ring = s.ring) (hn : t.now = s.now) (hb : t.bnd = s.bnd) (hg : t.regs = s.regs) : Beats i q q.done s t :=
  ⟨by rw [hs], by rw [hs], by rw [hs], fun _ _ => by rw [hs], ⟨q, by rw [hs]; exact h, rfl, rfl, rfl, rfl, rfl, rfl, rfl, rfl⟩, hr, hn, hb, fun f _ _ _ => by unfold State.get State.getI; rw [hg]⟩

theorem oldest_mem (l : List (Nat × StackReq)) (a : Option (Nat × Nat)) (r : Nat × Nat)
    (h : l.foldl (fun (a : Option (Nat × Nat)) e => match a with
      | some o => if e.2.stamp < o.2 then some (e.1, e.2.stamp) else a
      | none => some (e.1, e.2.stamp)) a = some r) : a = some r ∨ ∃ e ∈ l, e.1 = r.1 ∧ e.2.stamp = r.2 := by
  induction l generalizing a with
  | nil => exact .inl h
  | cons x l ih =>
    rw [List.foldl_cons] at h
    rcases ih _ h with h1 | ⟨e, he, h2⟩
    · cases a with
      | none => simp only [Option.some.injEq] at h1; subst h1; exact .inr ⟨x, by simp, rfl, rfl⟩
      | some o =>
        dsimp only at h1
        split at h1
        · simp only [Option.some.injEq] at h1; subst h1; exact .inr ⟨x, by simp, rfl, rfl⟩
        · exact .inl h1
    · exact .inr ⟨e, by simp [he], h2⟩

theorem mem_tfind {α : Type} {l : Tbl α} {e : Nat × α} (h : e ∈ l) : ∃ v, tfind l e.1 = some v := by
  induction l with
  | nil => simp at h
  | cons x l ih =>
    obtain ⟨k, v⟩ := x
    unfold tfind
    by_cases hk : k = e.1
    · exact ⟨v, by rw [if_pos hk]⟩
    · rw [if_neg hk]
      rcases List.mem_cons.mp h with h1 | h1
      · exact absurd (by rw [h1]) hk
      · exact ih h1

theorem wait_fld (g f : Fld) (v i pg : Nat) (z : State) (hg : g.off + 0 * g.stride < 0x80) (hl : g.lo < 32) : (z.setI F.Stk.WAIT_MAX pg i v).get g pg = z.get g pg := by
  refine State.get_setI_off _ ?_
  have h1 : F.Stk.WAIT_MAX.off = 0x80 := rfl
  have h2 : F.Stk.WAIT_MAX.lo = 0 := rfl
  rw [h1, h2]; omega

theorem grant_facts (i first : Nat) (s : State) (q : StackReq) (h : s.stack.req i = some q) : (stackGrant i first s).stack.reqs = s.stack.reqs ∧ (stackGrant i first s).stack.owner = some i ∧ (stackGrant i first s).stack.first = first ∧
    (stackGrant i first s).stack.len = min (s.get F.Stk.TENURE_MAX pgStk) (q.beats - q.done) ∧ (stackGrant i first s).resp = s.resp ∧ (stackGrant i first s).ring = s.ring ∧ (stackGrant i first s).room = s.room ∧ (stackGrant i first s).bnd = s.bnd ∧
    (∀ f : Fld, f.off + 0 * f.stride < 0x80 → f.lo < 32 → (stackGrant i first s).get f pgStk = s.get f pgStk) := by
  unfold stackGrant; rw [h]; dsimp only
  split
  · exact ⟨rfl, rfl, rfl, rfl, rfl, rfl, rfl, rfl, fun f hf hl => wait_fld f f _ _ _ _ hf hl⟩
  · exact ⟨rfl, rfl, rfl, rfl, rfl, rfl, rfl, rfl, fun f hf hl => rfl⟩

theorem arbitrate_facts (first : Nat) (s : State) : (stackArbitrate first s).stack.reqs = s.stack.reqs ∧ (stackArbitrate first s).stack.owner = (if s.ready pgStk then (stackArbitrate first s).stackOldest else none) ∧
    ((stackArbitrate first s).stack.owner ≠ none → (stackArbitrate first s).stack.first = first) ∧ (stackArbitrate first s).resp = s.resp ∧ (stackArbitrate first s).ring = s.ring ∧ (stackArbitrate first s).room = s.room ∧ (stackArbitrate first s).bnd = s.bnd ∧
    (∀ f : Fld, f.off + 0 * f.stride < 0x80 → f.lo < 32 → (stackArbitrate first s).get f pgStk = s.get f pgStk) := by
  unfold stackArbitrate; dsimp only
  obtain ⟨w, hw⟩ : ∃ w : State, w = s.updStack (fun x => { x with owner := none, len := 0 }) := ⟨_, rfl⟩
  have wr : w.stack.reqs = s.stack.reqs := by rw [hw]; rfl
  have wo : w.stackOldest = s.stackOldest := by unfold State.stackOldest; rw [wr]
  have none_case : ∀ o, o = none → w.stack.reqs = s.stack.reqs ∧ w.stack.owner = o ∧ (w.stack.owner ≠ none → w.stack.first = first) ∧ w.resp = s.resp ∧ w.ring = s.ring ∧ w.room = s.room ∧ w.bnd = s.bnd ∧
      (∀ f : Fld, f.off + 0 * f.stride < 0x80 → f.lo < 32 → w.get f pgStk = s.get f pgStk) :=
    fun o ho => ⟨wr, by rw [ho, hw]; rfl, fun h => absurd (by rw [hw]; rfl) h, by rw [hw]; rfl, by rw [hw]; rfl, by rw [hw]; rfl, by rw [hw]; rfl, fun f _ _ => by rw [hw]; rfl⟩
  rw [← hw]
  by_cases hr : s.ready pgStk = true
  · simp only [hr, if_true]
    cases ho : w.stackOldest with
    | none => exact none_case _ ho
    | some i =>
      dsimp only
      have hq : ∃ q, w.stack.req i = some q := by
        unfold State.stackOldest at ho
        rw [Option.map_eq_some_iff] at ho
        obtain ⟨r, h1, h2⟩ := ho
        rcases oldest_mem _ _ _ h1 with h3 | ⟨e, he, h3, _⟩
        · simp at h3
        · obtain ⟨v, hv⟩ := mem_tfind he
          exact ⟨v, by rw [← h2, ← h3]; exact hv⟩
      obtain ⟨q, hq⟩ := hq
      obtain ⟨g1, g2, g3, g4, g5, g6, g7, g9, g8⟩ := grant_facts i first w q hq
      refine ⟨g1.trans wr, ?_, fun _ => g3, ?_, ?_, ?_, ?_, fun f hf hl => ?_⟩
      · rw [g2]; unfold State.stackOldest; rw [g1]; exact ho.symm
      · rw [g5, hw]; rfl
      · rw [g6, hw]; rfl
      · rw [g7, hw]; rfl
      · rw [g9, hw]; rfl
      · rw [g8 f hf hl, hw]; rfl
  · simp only [hr, Bool.false_eq_true, if_false]
    exact none_case _ rfl

theorem byte_roundtrip (l : List Byte) : (l.map (·.toNat)).map (BitVec.ofNat 8) = l := by
  rw [List.map_map]
  conv_rhs => rw [← List.map_id l]
  refine List.map_congr_left fun b _ => ?_
  simp

theorem oldest_least (l : List (Nat × StackReq)) (hs : tsorted l = true) (a : Option (Nat × Nat)) (ha : ∀ o, a = some o → ∀ e ∈ l, o.1 ≤ e.1) (r : Nat × Nat)
    (h : l.foldl (fun (a : Option (Nat × Nat)) e => match a with
      | some o => if e.2.stamp < o.2 then some (e.1, e.2.stamp) else a
      | none => some (e.1, e.2.stamp)) a = some r) :
    (∀ e ∈ l, r.2 < e.2.stamp ∨ r.2 = e.2.stamp ∧ r.1 ≤ e.1) ∧ (∀ o, a = some o → r.2 < o.2 ∨ r = o) := by
  induction l generalizing a with
  | nil => exact ⟨fun e he => by simp at he, fun o ho => .inr (by rw [List.foldl_nil] at h; rw [h] at ho; exact Option.some.inj ho)⟩
  | cons x l ih =>
    rw [List.foldl_cons] at h
    have hx : ∀ e ∈ l, x.1 < e.1 := (List.pairwise_cons.mp (tsorted_iff.mp hs)).1
    have hsl : tsorted l = true := tsorted_iff.mpr (List.pairwise_cons.mp (tsorted_iff.mp hs)).2
    have hnew : ∀ o, some (x.1, x.2.stamp) = some o → ∀ e ∈ l, o.1 ≤ e.1 := fun o ho e he => by rw [← Option.some.inj ho]; exact Nat.le_of_lt (hx e he)
    cases a with
    | none =>
      obtain ⟨h1, h2⟩ := ih hsl _ hnew h
      refine ⟨fun e he => ?_, fun o ho => by simp at ho⟩
      rcases List.mem_cons.mp he with rfl | he
      · rcases h2 _ rfl with h3 | h3
        · exact .inl h3
        · rw [h3]; exact .inr ⟨rfl, le_refl _⟩
      · exact h1 e he
    | some o =>
      dsimp only at h
      split at h
      · rename_i hlt
        obtain ⟨h1, h2⟩ := ih hsl _ hnew h
        refine ⟨fun e he => ?_, fun o' ho' => ?_⟩
        · rcases List.mem_cons.mp he with rfl | he
          · rcases h2 _ rfl with h3 | h3
            · exact .inl h3
            · rw [h3]; exact .inr ⟨rfl, le_refl _⟩
          · exact h1 e he
        · cases ho'
          rcases h2 _ rfl with h3 | h3
          · exact .inl (Nat.lt_trans h3 hlt)
          · rw [h3]; exact .inl hlt
      · rename_i hge
        obtain ⟨h1, h2⟩ := ih hsl (some o) (fun o' ho' e he => ha o' ho' e (by simp [he])) h
        refine ⟨fun e he => ?_, fun o' ho' => h2 o' ho'⟩
        rcases List.mem_cons.mp he with rfl | he
        · rcases h2 o rfl with h3 | h3
          · left; omega
          · rw [h3]
            have := ha o rfl e (by simp)
            by_cases heq : o.2 = e.2.stamp
            · exact .inr ⟨heq, this⟩
            · left; omega
        · exact h1 e he

theorem flat_words {α : Type} (f : Nat → α) (n : Nat) : (List.range n).flatMap (fun k => (List.range 4).map (fun i => f (4 * k + i))) = (List.range (4 * n)).map f := by
  induction n with
  | zero => rfl
  | succ n ih =>
    rw [List.range_succ (n := n), List.flatMap_append, ih, show 4 * (n + 1) = 4 * n + 4 by omega, List.range_add, List.map_append, List.map_map]
    simp

end Sys2Proof.Machine
end

