-- ==== Sys2Proof/Laws/OfScrub.lean ====
section
/-! SUPPORT. Lemmas that the statements about its unit: Scrub rest on. -/

-- One declaration after another: the package is also checked as one text, where too many threads would start at once.
set_option Elab.async false

set_option linter.unusedVariables false
set_option linter.unusedSimpArgs false

namespace Sys2Proof.Machine

theorem linkDown_facts (link cause : Nat) (hl : link < 2) (s : State) : bitAt ((linkDown link cause s).get F.Stk.LINK_TRAINED pgStk) link = false ∧
    bitAt ((linkDown link cause s).get F.Hdr.EVENT_STATUS pgStk) Ev.stkDieLinkDown.bit = true ∧ (s.modeNow ≠ 0 → bitAt ((linkDown link cause s).get F.Mode.SAFE_HOLD_CAUSE pgMode) 3 = true) := by
  obtain ⟨u, hu⟩ : ∃ u : State, u = (s.set F.Stk.LINK_TRAINED pgStk (clearBit (s.get F.Stk.LINK_TRAINED pgStk) link)).raise Ev.stkDieLinkDown pgStk (cause * 16 + link) := ⟨_, rfl⟩
  have e : linkDown link cause s = setCause 3 (pairLinkDown u) := by unfold linkDown; rw [hu]
  have p1 : u.OnPages (linkDown link cause s) [pgMode, pgPair, pgLedger] := by
    rw [e]; exact ((pairLinkDown_pages u).mono (by decide)).trans ((setCause_pages 3 (pairLinkDown u)).mono (by decide))
  have p2 : s.OnPages (pairLinkDown u) [pgStk, pgPair, pgLedger] := by
    refine State.OnPages.trans ?_ ((pairLinkDown_pages u).mono (by decide))
    rw [hu]; exact ((State.OnPages.refl _ _).set _ (by decide) (by decide) (by decide)).raise _ _ (by decide) (by decide) (by decide)
  refine ⟨?_, ?_, fun hm => ?_⟩
  · rw [p1.get (by decide) (by decide) (by decide), hu, State.get_raise_off _ _ (by decide) (by decide) (by decide) (by decide), State.get_set_self, bitAt_low (w := F.Stk.LINK_TRAINED.w) hl, bitAt_clearBit]; simp
  · rw [p1.get (by decide) (by decide) (by decide), hu]; exact State.raise_bit _ _ _ (by decide) (by decide)
  · rw [e]; refine setCause_bit 3 _ ?_ (by decide)
    unfold State.modeNow at hm ⊢; rw [p2.get (by decide) (by decide) (by decide)]; exact hm

end Sys2Proof.Machine
end

