-- ==== Sys2Proof/Laws/OfNetwork.lean ====
section
/-! SUPPORT. Lemmas that the statements about its unit: Network rest on. -/

-- One declaration after another: the package is also checked as one text, where too many threads would start at once.
set_option Elab.async false

set_option linter.unusedVariables false
set_option linter.unusedSimpArgs false

namespace Sys2Proof.Machine

theorem queue_updNet (s : State) (f : NetX → NetX) (o j : Nat) : (s.updNet f).queue o j = tget (f s.net).queues (4 * o + j) [] := rfl

theorem on_of_get {s : State} {f : Fld} {pg : Nat} (h : s.get f pg = 1) : s.on f pg = true := by unfold State.on; rw [h]; rfl

theorem off_of_get {s : State} {f : Fld} {pg : Nat} (h : s.get f pg = 0) : s.on f pg = false := by unfold State.on; rw [h]; rfl

theorem net_pages : ∀ n < 2, pgNet n ≠ pgLedger ∧ pgNet n ≠ pgSw ∧ pgNet n ≠ pgPtp := by decide

theorem sat_self (s : State) (f : Fld) (pg : Nat) : (s.sat f pg).get f pg = low f.w (min (s.get f pg + 1) (2 ^ f.w - 1)) := by
  rw [show s.sat f pg = s.set f pg (min (s.get f pg + 1) (2 ^ f.w - 1)) from rfl, State.get_set_self]

theorem rx_cnt : ∀ e < 4, ∀ d < 4, e ≠ d → ((rxCounters.getD e F.Net.RX_CONTROL).off + 0 * (rxCounters.getD e F.Net.RX_CONTROL).stride) * 32 + (rxCounters.getD e F.Net.RX_CONTROL).lo ≠
    ((rxCounters.getD d F.Net.RX_CONTROL).off + 0 * (rxCounters.getD d F.Net.RX_CONTROL).stride) * 32 + (rxCounters.getD d F.Net.RX_CONTROL).lo := by decide

theorem rx_w : ∀ e < 4, (rxCounters.getD e F.Net.RX_CONTROL).w = 32 := by decide

theorem rx_kinds (f : Frame) (n : Nat) (b : Bool) : (frameErrors f n b).Nodup ∧ ∀ e ∈ frameErrors f n b, e < 4 := by
  unfold frameErrors
  constructor
  · repeat' split
    all_goals decide
  · intro e he; simp only [List.mem_append] at he
    rcases he with ((he | he) | he) | he
    all_goals ((repeat' split at he) <;> simp at he <;> omega)

theorem rx_count (pg : Nat) (l : List Nat) (hl : l.Nodup) (hm : ∀ e ∈ l, e < 4) (s : State) :
    ∀ e < 4, (forAll l s (fun e s => s.sat (rxCounters.getD e F.Net.RX_CONTROL) pg)).get (rxCounters.getD e F.Net.RX_CONTROL) pg =
      if e ∈ l then low 32 (min (s.get (rxCounters.getD e F.Net.RX_CONTROL) pg + 1) (2 ^ 32 - 1)) else s.get (rxCounters.getD e F.Net.RX_CONTROL) pg := by
  induction l generalizing s with
  | nil => intro e _; rfl
  | cons d l ih =>
    intro e he
    have hd : d < 4 := hm d (by simp)
    have := ih (List.nodup_cons.mp hl).2 (fun e h => hm e (by simp [h])) (s.sat (rxCounters.getD d F.Net.RX_CONTROL) pg) e he
    rw [show forAll (d :: l) s (fun e s => s.sat (rxCounters.getD e F.Net.RX_CONTROL) pg) = forAll l (s.sat (rxCounters.getD d F.Net.RX_CONTROL) pg) (fun e s => s.sat (rxCounters.getD e F.Net.RX_CONTROL) pg) from rfl, this]
    by_cases hed : e = d
    · subst hed
      rw [if_neg (List.nodup_cons.mp hl).1, if_pos (by simp), sat_self, rx_w e he]
    · have k : (s.sat (rxCounters.getD d F.Net.RX_CONTROL) pg).get (rxCounters.getD e F.Net.RX_CONTROL) pg = s.get (rxCounters.getD e F.Net.RX_CONTROL) pg := by
        unfold State.sat State.satI; exact State.get_set_off _ (rx_cnt e he d hd hed)
      rw [k]; simp [hed]

theorem rx_off : ∀ e < 4, (∀ g ∈ [F.Net.RX_FRAMES], (g.off + 0 * g.stride) * 32 + g.lo ≠ ((rxCounters.getD e F.Net.RX_CONTROL).off + 0 * (rxCounters.getD e F.Net.RX_CONTROL).stride) * 32 + (rxCounters.getD e F.Net.RX_CONTROL).lo) ∧
    (rxCounters.getD e F.Net.RX_CONTROL).off + 0 * (rxCounters.getD e F.Net.RX_CONTROL).stride < 4096 ∧ (rxCounters.getD e F.Net.RX_CONTROL).lo < 32 ∧
    ((rxCounters.getD e F.Net.RX_CONTROL).off + 0 * (rxCounters.getD e F.Net.RX_CONTROL).stride) * 32 + (rxCounters.getD e F.Net.RX_CONTROL).lo ≠ (F.Net.FEC_CORRECTED.off + 0 * F.Net.FEC_CORRECTED.stride) * 32 + F.Net.FEC_CORRECTED.lo ∧
    ((rxCounters.getD e F.Net.RX_CONTROL).off + 0 * (rxCounters.getD e F.Net.RX_CONTROL).stride) * 32 + (rxCounters.getD e F.Net.RX_CONTROL).lo ≠ (F.Net.FEC_UNCORRECTED.off + 0 * F.Net.FEC_UNCORRECTED.stride) * 32 + F.Net.FEC_UNCORRECTED.lo ∧
    ((rxCounters.getD e F.Net.RX_CONTROL).off + 0 * (rxCounters.getD e F.Net.RX_CONTROL).stride) * 32 + (rxCounters.getD e F.Net.RX_CONTROL).lo ≠ (F.Hdr.EVENT_STATUS.off + 0 * F.Hdr.EVENT_STATUS.stride) * 32 + F.Hdr.EVENT_STATUS.lo := by decide

theorem enqueue_fits (out k : Nat) (q : QFrame) (s : State) (h : queueBytes (s.queue out k) + (q.bytes.length + 4) ≤ s.get F.Sw.QUEUE_LIMIT pgSw * 1024 ∧
    s.net.queues.foldl (fun a e => a + queueBytes e.2) 0 + (q.bytes.length + 4) ≤ 512 * 1024) :
    enqueue out k q s = s.updNet (fun x => { x with queues := tput x.queues (4 * out + k) (s.queue out k ++ [q]) }) := by
  unfold enqueue; dsimp only; rw [if_pos h]

theorem raise_net (s : State) (e : Ev) (pg a : Nat) : (s.raise e pg a).net = s.net := by
  obtain ⟨m, g, q, w, e'⟩ := s.raiseX_eq e pg a 0 e.sev false
  unfold State.raise; rw [e']

theorem learn_mem (vid mac port : Nat) (s : State) (h : s.net.learned.length < 1024) : ⟨vid, mac, port, s.now⟩ ∈ (learn vid mac port s).net.learned := by
  unfold learn; dsimp only
  show _ ∈ (if _ then _ else _ : List Learned)
  split
  · rename_i ha
    obtain ⟨e, he, h1⟩ := List.any_eq_true.mp ha
    rw [List.mem_map]; exact ⟨e, he, by rw [if_pos h1]⟩
  · simp

theorem enqueue_sw (out k : Nat) (q : QFrame) (s : State) (f : Fld) (hf : f.off + 0 * f.stride < 4096) (hl : f.lo < 32) (h1 : (f.off + 0 * f.stride) * 32 + f.lo ≠ 512)
    (h2 : (f.off + 0 * f.stride) * 32 + f.lo ≠ (F.Sw.BUFFER_DROPS.off + 0 * F.Sw.BUFFER_DROPS.stride) * 32 + F.Sw.BUFFER_DROPS.lo) : (enqueue out k q s).get f pgSw = s.get f pgSw := by
  unfold enqueue; dsimp only; split
  · rfl
  · rw [State.get_raise_off _ _ (by decide) h1 hf hl]; unfold State.sat State.satI; exact State.get_set_off _ h2

theorem sendOut_sw (f : Frame) (v vid pcp port : Nat) (q : QFrame) (k out : Nat) (ho : out ≠ 0) (s : State) (g : Fld) (hf : g.off + 0 * g.stride < 4096) (hl : g.lo < 32) (h1 : (g.off + 0 * g.stride) * 32 + g.lo ≠ 512)
    (h2 : (g.off + 0 * g.stride) * 32 + g.lo ≠ (F.Sw.BUFFER_DROPS.off + 0 * F.Sw.BUFFER_DROPS.stride) * 32 + F.Sw.BUFFER_DROPS.lo) : (sendOut f v vid pcp port q k out s).get g pgSw = s.get g pgSw := by
  unfold sendOut; rw [if_neg ho]; exact enqueue_sw _ _ _ _ _ hf hl h1 h2

theorem forwardTo_ne (s : State) (port v vid dst : Nat) : port ∉ s.forwardTo port v vid dst := by
  unfold State.forwardTo; dsimp only; rw [List.mem_filter]; simp

theorem hostSlot_sw (a : Nat) (s : State) (g : Fld) (hf : g.off + 0 * g.stride < 4096) (hl : g.lo < 32) (h1 : (g.off + 0 * g.stride) * 32 + g.lo ≠ 512)
    (h2 : (g.off + 0 * g.stride) * 32 + g.lo ≠ (F.Sw.BUFFER_DROPS.off + 0 * F.Sw.BUFFER_DROPS.stride) * 32 + F.Sw.BUFFER_DROPS.lo)
    (h3 : (g.off + 0 * g.stride) * 32 + g.lo ≠ (F.Sw.VLAN_DROPS.off + 0 * F.Sw.VLAN_DROPS.stride) * 32 + F.Sw.VLAN_DROPS.lo) : (hostSlot a s).get g pgSw = s.get g pgSw := by
  have rd : ∀ n, (sdramRead 9 a n s).get g pgSw = s.get g pgSw := fun n => (memOnly_sdramRead _ _ _ (.refl s)).get (by decide) hf hl
  unfold hostSlot; dsimp only
  split
  · exact rd _
  · split
    · unfold State.sat State.satI; rw [State.get_setI_off _ h3]; exact rd _
    · rename_i v vid pcp hv
      refine forAll_over _ _ _ (fun z => z.get g pgSw = s.get g pgSw) (rd _) fun out ho z hz => ?_
      refine (sendOut_sw _ _ _ _ _ _ _ out ?_ z g hf hl h1 h2).trans hz
      rintro rfl
      split at ho
      · rename_i hd; simp at ho; omega
      · exact forwardTo_ne _ _ _ _ _ ho

theorem tx_eq (s : State) (n k : Nat) (ps : Int) (q : QFrame) (qs : List QFrame) (hk : k < 4) (hq : s.queue (n + 1) k = q :: qs) (hh : ∀ j < 4, k < j → s.queue (n + 1) j = []) :
    exec (.frameTransmit n ps) s = .next (if n < 2 ∧ s.ready (pgNet n) ∧ s.on F.Net.TX_EN (pgNet n) ∧ s.ready pgSw ∧ q.arrived + 40 ≤ s.now ∧ tget s.net.idle (n + 1) 0 ≤ s.now then
        let stamp := s.stampAt n ps true
        let res := (stamp - q.stamp) * 32768
        let s1 := (s.updNet (fun x => { x with
          queues := tput x.queues (4 * (n + 1) + k) qs
          sent := tput x.sent (n + 1) (if q.kind = .correct then (addCorrection q res).bytes else q.bytes)
          idle := tput x.idle (n + 1) (s.now + s.frameTime n q.bytes.length) })).wrap F.Net.TX_FRAMES (pgNet n)
        match q.kind with
        | .twoStep key => syncLeft key res s1
        | .own seq => s1.updPtp (fun x => { x with reqT3 := some (seq, stamp) })
        | _ => s1
      else s) := by
  rcases (by omega : k = 0 ∨ k = 1 ∨ k = 2 ∨ k = 3) with rfl | rfl | rfl | rfl
  · simp only [exec, execFrameTransmit, List.findSome?_cons, hh 3 (by decide) (by decide), hh 2 (by decide) (by decide), hh 1 (by decide) (by decide), hq]
    by_cases hc : (n < 2 ∧ s.ready (pgNet n) ∧ s.on F.Net.TX_EN (pgNet n) ∧ s.ready pgSw ∧ q.arrived + 40 ≤ s.now ∧ tget s.net.idle (n + 1) 0 ≤ s.now)
    · rw [if_pos hc, if_pos hc]; cases q.kind <;> rfl
    · rw [if_neg hc, if_neg hc]
  · simp only [exec, execFrameTransmit, List.findSome?_cons, hh 3 (by decide) (by decide), hh 2 (by decide) (by decide), hq]
    by_cases hc : (n < 2 ∧ s.ready (pgNet n) ∧ s.on F.Net.TX_EN (pgNet n) ∧ s.ready pgSw ∧ q.arrived + 40 ≤ s.now ∧ tget s.net.idle (n + 1) 0 ≤ s.now)
    · rw [if_pos hc, if_pos hc]; cases q.kind <;> rfl
    · rw [if_neg hc, if_neg hc]
  · simp only [exec, execFrameTransmit, List.findSome?_cons, hh 3 (by decide) (by decide), hq]
    by_cases hc : (n < 2 ∧ s.ready (pgNet n) ∧ s.on F.Net.TX_EN (pgNet n) ∧ s.ready pgSw ∧ q.arrived + 40 ≤ s.now ∧ tget s.net.idle (n + 1) 0 ≤ s.now)
    · rw [if_pos hc, if_pos hc]; cases q.kind <;> rfl
    · rw [if_neg hc, if_neg hc]
  · simp only [exec, execFrameTransmit, List.findSome?_cons, hq]
    by_cases hc : (n < 2 ∧ s.ready (pgNet n) ∧ s.on F.Net.TX_EN (pgNet n) ∧ s.ready pgSw ∧ q.arrived + 40 ≤ s.now ∧ tget s.net.idle (n + 1) 0 ≤ s.now)
    · rw [if_pos hc, if_pos hc]; cases q.kind <;> rfl
    · rw [if_neg hc, if_neg hc]

end Sys2Proof.Machine
end

