-- ==== Sys2Proof/Laws/OfPtp.lean ====
section
/-! SUPPORT. Lemmas that the statements about its unit: Ptp rest on. -/

-- One declaration after another: the package is also checked as one text, where too many threads would start at once.
set_option Elab.async false

set_option linter.unusedVariables false
set_option linter.unusedSimpArgs false

namespace Sys2Proof.Machine

theorem setRate_ptp (r : Nat) (s : State) : ∃ a b c, (setRate r s).ptp = { s.ptp with epochC := a, epochT := b, log := c } := by
  unfold setRate; split
  · exact ⟨s.ptp.epochC, s.ptp.epochT, s.ptp.log, rfl⟩
  · exact ⟨_, _, _, rfl⟩

theorem setRate_get (r : Nat) (s : State) (g : Fld) (h1 : (g.off + 0 * g.stride) * 32 + g.lo ≠ (F.Ptp.RATE_LO.off + 0 * F.Ptp.RATE_LO.stride) * 32 + F.Ptp.RATE_LO.lo)
    (h2 : (g.off + 0 * g.stride) * 32 + g.lo ≠ (F.Ptp.RATE_HI.off + 0 * F.Ptp.RATE_HI.stride) * 32 + F.Ptp.RATE_HI.lo)
    (h3 : (g.off + 0 * g.stride) * 32 + g.lo ≠ (F.Ptp.EPOCH_SEQ.off + 0 * F.Ptp.EPOCH_SEQ.stride) * 32 + F.Ptp.EPOCH_SEQ.lo) : (setRate r s).get g pgPtp = s.get g pgPtp := by
  unfold setRate; split
  · rfl
  · unfold setEpoch State.wrap State.wrapI
    rw [State.get_setI_off _ h3]
    show (s.set2 F.Ptp.RATE_LO F.Ptp.RATE_HI pgPtp 0 r).get g pgPtp = _
    unfold State.set2; rw [State.get_setI_off _ h2, State.get_setI_off _ h1]

theorem setServo_ptp (v : Nat) (s : State) : (setServo v s).ptp = s.ptp := rfl

theorem setServo_servo (v : Nat) (s : State) (h : v < 2 ^ F.Ptp.SERVO.w) : (setServo v s).servo = v := by
  unfold setServo State.servo; rw [State.get_set_self]; exact low_of_lt h

theorem ptpLoss_facts (c : Nat) (s : State) : (ptpLoss c s).ptp.foreign = s.ptp.foreign ∧ (ptpLoss c s).ptp.parent = s.ptp.parent := by
  unfold ptpLoss; split
  · obtain ⟨a, b, d, h⟩ := setRate_ptp s.ptp.rateI s
    unfold holdEvent; dsimp only
    rw [State.raise_ptp]
    show (setRate s.ptp.rateI s).ptp.foreign = _ ∧ (setRate s.ptp.rateI s).ptp.parent = _
    rw [h]; exact ⟨rfl, rfl⟩
  · exact ⟨rfl, rfl⟩

theorem ptpLoss_get (c : Nat) (s : State) (g : Fld) (h0 : (g.off + 0 * g.stride) * 32 + g.lo ≠ (F.Ptp.SERVO.off + 0 * F.Ptp.SERVO.stride) * 32 + F.Ptp.SERVO.lo) (h1 : (g.off + 0 * g.stride) * 32 + g.lo ≠ (F.Ptp.RATE_LO.off + 0 * F.Ptp.RATE_LO.stride) * 32 + F.Ptp.RATE_LO.lo)
    (h2 : (g.off + 0 * g.stride) * 32 + g.lo ≠ (F.Ptp.RATE_HI.off + 0 * F.Ptp.RATE_HI.stride) * 32 + F.Ptp.RATE_HI.lo)
    (h3 : (g.off + 0 * g.stride) * 32 + g.lo ≠ (F.Ptp.EPOCH_SEQ.off + 0 * F.Ptp.EPOCH_SEQ.stride) * 32 + F.Ptp.EPOCH_SEQ.lo) (h4 : (g.off + 0 * g.stride) * 32 + g.lo ≠ 512) (hf : g.off + 0 * g.stride < 4096) (hl : g.lo < 32) :
    (ptpLoss c s).get g pgPtp = s.get g pgPtp := by
  unfold ptpLoss; split
  · unfold holdEvent; dsimp only
    rw [State.get_raise_off _ _ (by decide) h4 hf hl]
    show ((setRate s.ptp.rateI s).set F.Ptp.SERVO pgPtp 4).get g pgPtp = _
    rw [State.get_set_off _ h0, setRate_get _ _ _ h1 h2 h3]
  · rfl

theorem ptpSelect_facts (c : Nat) (s : State) : (ptpSelect c s).ptp.foreign = s.ptp.foreign ∧ (ptpSelect c s).ptp.parent = (bestMaster s.ptp.foreign).map (·.src) ∧
    ∀ b, bestMaster s.ptp.foreign = some b → (ptpSelect c s).get F.Ptp.MASTER_PORT pgPtp = low F.Ptp.MASTER_PORT.w b.port := by
  have hs5 : ∀ (s4 : State) (a b : Bool) (v : Nat), (if a then setServo 1 s4 else if b then setServo v s4 else s4 : State).ptp = s4.ptp := by
    intro s4 a b v; split
    · rfl
    · split <;> rfl
  have loss : ∀ (z : State), z.ptp.foreign = s.ptp.foreign → ∀ n : Option Nat, ∀ l h v, ((z.updPtp (fun x => { x with parent := n, exch := [], last := none, waiting := none })).set2 l h pgPtp 0 v).ptp.foreign = s.ptp.foreign := fun _ h _ _ _ _ => h
  have l1 := (ptpLoss_facts c s).1
  unfold ptpSelect; dsimp only
  rcases hb : bestMaster s.ptp.foreign with _ | x
  · rcases hp : s.ptp.parent with _ | p0
    · exact ⟨rfl, hp, fun b h => by simp at h⟩
    · simp only [Option.map_none, if_neg (Option.some_ne_none p0), Option.isSome_some, if_true, Option.isSome_none, Bool.false_and, Option.isNone_none, Bool.true_and, Bool.false_eq_true, if_false, Option.getD_none]
      refine ⟨?_, ?_, fun b h => by simp at h⟩
      · show (State.ptp (if _ then _ else _)).foreign = _
        split
        · exact l1
        · exact l1
      · show (State.ptp (if _ then _ else _)).parent = _
        split <;> rfl
  · have port : ∀ z : State, ((z.set F.Ptp.MASTER_PORT pgPtp x.port).set F.Ptp.UTC_OFFSET pgPtp x.utc).get F.Ptp.MASTER_PORT pgPtp = low F.Ptp.MASTER_PORT.w x.port := fun z => by
      rw [State.get_set_off _ (by decide), State.get_set_self]
    by_cases ho : s.ptp.parent = some x.src
    · simp only [Option.map_some, ho, if_true, Option.getD_some]
      exact ⟨rfl, ho, fun b h => by cases h; exact port _⟩
    · rcases hp : s.ptp.parent with _ | p0
      · simp only [Option.map_some, if_neg (Ne.symm (Option.some_ne_none x.src)), Option.isSome_some, Option.isSome_none, Bool.true_and, Option.isNone_some, Bool.false_and, Bool.false_eq_true, if_false, Option.getD_some]
        refine ⟨?_, ?_, fun b h => by cases h; exact port _⟩
        · show (State.ptp (if _ then _ else _)).foreign = _
          split <;> rfl
        · show (State.ptp (if _ then _ else _)).parent = _
          split <;> rfl
      · rw [hp] at ho
        simp only [Option.map_some, if_neg ho, Option.isSome_some, if_true, Bool.true_and, Option.isNone_some, Bool.false_and, Bool.false_eq_true, if_false, Option.getD_some]
        refine ⟨?_, ?_, fun b h => by cases h; exact port _⟩
        · show (State.ptp (if _ then _ else _)).foreign = _
          split
          · rw [setServo_ptp, State.raise_ptp]; exact l1
          · rw [State.raise_ptp]; exact l1
        · show (State.ptp (if _ then _ else _)).parent = _
          split
          · rw [setServo_ptp, State.raise_ptp]; rfl
          · rw [State.raise_ptp]; rfl

/-- The fields that a completed Sync sets stay through the servo. -/
def SyncKept (y : SyncX) (li : Int) (now : Nat) (th : Int → Prop) (x : PtpX) : Prop :=
  x.last = some y ∧ x.used = false ∧ x.waiting = none ∧ x.syncAt = now ∧ x.syncLog = li ∧ th x.theta

theorem putFit_ptp (f : Fld) (lo hi v : Int) (s : State) : (putFit f lo hi v s).ptp = s.ptp := by
  unfold putFit; dsimp only; split <;> rfl

theorem servoSample_kept {y li now th} (theta dq : Int) (s : State) (h : SyncKept y li now th s.ptp) : SyncKept y li now th (servoSample theta dq s).ptp := by
  have law : ∀ z : State, SyncKept y li now th z.ptp → SyncKept y li now th (servoLaw theta dq z).ptp := by
    intro z hz; unfold servoLaw; dsimp only
    obtain ⟨a, b, c, e⟩ := setRate_ptp (clampI rateMin rateMax (clampI rateMin rateMax ((z.ptp.rateI : Int) - (z.get F.Ptp.KI pgPtp * Config.roundReal ((theta * 2 ^ 26 : Int) / (dq : Rat))) / 2 ^ 16) - clampI (-(Config.roundReal ((z.get F.Ptp.SLEW_MAX pgPtp : Rat) * 2 ^ 41 / 1000000))) (Config.roundReal ((z.get F.Ptp.SLEW_MAX pgPtp : Rat) * 2 ^ 41 / 1000000)) ((z.get F.Ptp.KP pgPtp * Config.roundReal ((theta * 2 ^ 26 : Int) / (dq : Rat))) / 2 ^ 8))).toNat
      (z.updPtp (fun x => { x with rateI := (clampI rateMin rateMax ((z.ptp.rateI : Int) - (z.get F.Ptp.KI pgPtp * Config.roundReal ((theta * 2 ^ 26 : Int) / (dq : Rat))) / 2 ^ 16)).toNat }))
    rw [e]; exact hz
  have s1k : ∀ s1 : State, SyncKept y li now th s1.ptp → ∀ n : Nat, SyncKept y li now th (if s.servo = 3 then
      if decide (theta.natAbs ≤ s.get F.Ptp.LOCK_TOL pgPtp * 65536) then s1 else (setServo 2 s1).updPtp (fun x => { x with within := 0 })
    else if 8 ≤ n then
      ((setServo 3 s1).updPtp (fun x => { x with within := n })).raise Ev.ptpLocked pgPtp (arg64 (((setServo 3 s1).updPtp (fun x => { x with within := n })).get F.Ptp.MPD pgPtp) 0)
    else s1.updPtp (fun x => { x with within := n })).ptp := by
    intro s1 h1 n
    split
    · split
      · exact h1
      · exact h1
    · split
      · rw [State.raise_ptp]; exact h1
      · exact h1
  unfold servoSample; dsimp only
  refine s1k _ ?_ _
  split
  · rw [State.raise_ptp]; exact h
  · split
    · refine law _ ?_; split <;> exact h
    · split <;> exact h

theorem syncComplete_kept (y : SyncX) (li : Int) (s : State) : SyncKept y li s.now (fun th => ∀ m, s.ptp.mpd = some m → th = y.t2 - y.master - m) (syncComplete y li s).ptp := by
  unfold syncComplete; dsimp only
  obtain ⟨s0, hs0⟩ : ∃ s0 : State, s0 = if s.servo = 4 then (setServo 1 s).updPtp (fun x => { x with exch := [] }) else s := ⟨_, rfl⟩
  rw [← hs0]
  have nw : ∀ z : PtpX, SyncKept y li s.now (fun _ => True) { z with last := some y, used := false, waiting := none, syncAt := s.now, syncLog := li } := fun z => ⟨rfl, rfl, rfl, rfl, rfl, trivial⟩
  cases hm : s.ptp.mpd with
  | none => exact ⟨rfl, rfl, rfl, rfl, rfl, fun m h => by simp at h⟩
  | some m =>
    dsimp only
    have base : SyncKept y li s.now (fun th => ∀ m', some m = some m' → th = y.t2 - y.master - m') (putFit F.Ptp.THETA (-(2 ^ 31)) (2 ^ 31 - 1) (y.t2 - y.master - m)
        ((s0.updPtp (fun x => { x with last := some y, used := false, waiting := none, syncAt := s.now, syncLog := li })).updPtp (fun x => { x with theta := y.t2 - y.master - m }))).ptp := by
      rw [putFit_ptp]; exact ⟨rfl, rfl, rfl, rfl, rfl, fun m' h => by cases h; rfl⟩
    split
    · exact servoSample_kept _ _ _ base
    · exact base

/-- What a step, a rate or a pass of qualification leaves of the exchange in progress. -/
def ExchKept (x y : PtpX) : Prop := y.reqT3 = x.reqT3 ∧ y.used = x.used ∧ y.respLog = x.respLog ∧ y.mpd = x.mpd

theorem fallbackCheck_ptp (p : Nat) (s : State) : (fallbackCheck p s).ptp = s.ptp := by
  unfold fallbackCheck; dsimp only; split
  · rw [State.raise_ptp]; rfl
  · rfl

theorem pairStartLate_ptp (p : Nat) (s : State) : (pairStartLate p s).ptp = s.ptp := by
  unfold pairStartLate joinFail; dsimp only; split
  · split
    · rw [State.raise_ptp]; rfl
    · rfl
  · rfl

theorem startLate_ptp (p v : Nat) (s : State) : (startLate p v s).ptp = s.ptp := by
  unfold startLate; dsimp only; rw [State.raise_ptp, pairStartLate_ptp, State.satI_ptp]

theorem setStart_ptp (p v : Nat) (s : State) : (setStart p v s).ptp = s.ptp := by
  unfold setStart; rw [State.updPort_ptp]

theorem fallbackStart_ptp (p v : Nat) (s : State) (f): (fallbackCheck p ((setStart p v s).updPort p f)).ptp = s.ptp := by
  rw [fallbackCheck_ptp, State.updPort_ptp, setStart_ptp]

theorem triggerStart_cases (p v : Nat) (s : State) : (∃ a f, triggerStart p v s = fallbackCheck p ((setStart p a s).updPort p f)) ∨ triggerStart p v s = startLate p 0 s := by
  unfold triggerStart; dsimp only; split
  · exact .inl ⟨_, _, rfl⟩
  · exact .inr rfl

theorem triggerStart_ptp (p v : Nat) (s : State) : (triggerStart p v s).ptp = s.ptp := by
  rcases triggerStart_cases p v s with ⟨a, f, h⟩ | h
  · rw [h, fallbackStart_ptp]
  · rw [h, startLate_ptp]

theorem setTrigArmed_ptp (k : Nat) (b : Bool) (s : State) : (setTrigArmed k b s).ptp = s.ptp := by
  unfold setTrigArmed; dsimp only; rw [State.set_ptp]

theorem forAll_ptp {α : Type} (l : List α) (f : α → State → State) (s : State) (h : ∀ a z w, w = f a z → w.ptp = z.ptp) : (forAll l s f).ptp = s.ptp :=
  forAll_keeps l s f State.ptp (fun a z => h a z _ rfl)

theorem portsTrigger_ptp (k : Nat) (s : State) : (portsTrigger k s).ptp = s.ptp := by
  have e : portsTrigger k s = forAll ((List.range Config.ports).filter (fun p => s.pget F.Port.TRIG_SEL p == k && s.waitsFor p 2)) s
    (fun p s => triggerStart p (s.startPos p) s) := rfl
  rw [e, forAll_ptp]
  intro p z w hw
  have hw' : w = triggerStart p (z.startPos p) z := hw
  rw [hw', triggerStart_ptp]

theorem trigFire_cases (k : Nat) (s : State) : ∃ s1 : State, (s1 = s ∨ ∃ f, s1 = s.updTrig k f) ∧ (trigFire k s = setTrigArmed k false (portsTrigger k s1) ∨ ∃ f, trigFire k s = (portsTrigger k s1).updTrig k f) := by
  unfold trigFire; dsimp only
  generalize hs : (if s.onI F.Trig.OUT_EN pgTrig k = true then _ else s : State) = s1
  refine ⟨s1, ?_, ?_⟩
  · rw [← hs]; split
    · exact .inr ⟨_, rfl⟩
    · exact .inl rfl
  · split
    · exact .inl rfl
    · exact .inr ⟨_, rfl⟩

theorem trigFire_ptp (k : Nat) (s : State) : (trigFire k s).ptp = s.ptp := by
  obtain ⟨s1, h1, h2⟩ := trigFire_cases k s
  have e : s1.ptp = s.ptp := by
    rcases h1 with rfl | ⟨f, rfl⟩
    · rfl
    · rw [State.updTrig_ptp]
  rcases h2 with h | ⟨f, h⟩
  · rw [h, setTrigArmed_ptp, portsTrigger_ptp, e]
  · rw [h, State.updTrig_ptp, portsTrigger_ptp, e]

theorem trigLate_ptp (k n : Nat) (s : State) : (trigLate k n s).ptp = s.ptp := by
  unfold trigLate; rw [State.raise_ptp]

theorem trigStep_cases (k old : Nat) (s : State) : ∀ x, x = (
      let x := s.trigOf k
      let t := s.timeNow
      let tgt := s.trigTarget k x.j
      if tgt ≤ old ∨ t < tgt then s
      else
        let per := s.trigPeriod k
        let n := if per = 0 then 1 else (t - tgt) / per + 1
        let fires := s.onI F.Trig.LATE_POLICY pgTrig k
        let skipped := if fires then n - 1 else n
        let s1 := trigLate k skipped (s.satI F.Trig.SKIPPED pgTrig k skipped)
        let s2 := if fires then trigFire k s1 else if per = 0 then setTrigArmed k false s1 else s1
        if per = 0 then s2 else s2.updTrig k (fun y => { y with j := x.j + n })) →
    x.ptp = s.ptp := by
  intro x hx
  dsimp only at hx
  split at hx
  · rw [hx]
  · have h : ∀ n : Nat, (trigLate k n (s.satI F.Trig.SKIPPED pgTrig k n)).ptp = s.ptp := fun n => by rw [trigLate_ptp, State.satI_ptp]
    have g : ∀ (a : Bool) (z : State), z.ptp = s.ptp → (if a = true then trigFire k z else setTrigArmed k false z).ptp = s.ptp ∧ (if a = true then trigFire k z else z).ptp = s.ptp := by
      intro a z hz; by_cases ha : a = true
      · rw [if_pos ha, if_pos ha, trigFire_ptp]; exact ⟨hz, hz⟩
      · rw [if_neg ha, if_neg ha, setTrigArmed_ptp]; exact ⟨hz, hz⟩
    split at hx
    · rw [hx]; exact (g _ _ (h _)).1
    · rw [hx, State.updTrig_ptp]; exact (g _ _ (h _)).2

theorem trigStep_ptp (o : Nat) (s : State) : (trigStep o s).ptp = s.ptp := by
  have e : trigStep o s = forAll ((List.range 8).filter s.armed) s (fun k s =>
      let x := s.trigOf k
      let t := s.timeNow
      let tgt := s.trigTarget k x.j
      if tgt ≤ o ∨ t < tgt then s
      else
        let per := s.trigPeriod k
        let n := if per = 0 then 1 else (t - tgt) / per + 1
        let fires := s.onI F.Trig.LATE_POLICY pgTrig k
        let skipped := if fires then n - 1 else n
        let s1 := trigLate k skipped (s.satI F.Trig.SKIPPED pgTrig k skipped)
        let s2 := if fires then trigFire k s1 else if per = 0 then setTrigArmed k false s1 else s1
        if per = 0 then s2 else s2.updTrig k (fun y => { y with j := x.j + n })) := rfl
  rw [e, forAll_ptp]
  intro k z w hw; exact trigStep_cases k o z w hw

theorem ptpStep_kept (i : Nat) (s : State) : ExchKept s.ptp (ptpStep i s).ptp := by
  unfold ptpStep; dsimp only
  rw [trigStep_ptp, State.raise_ptp]; exact ⟨rfl, rfl, rfl, rfl⟩

theorem qualify_keeps (s : State) : ExchKept s.ptp (qualify s).ptp := by
  have pass : ∀ l, ExchKept s.ptp (qualPass l s).ptp := by
    intro l; unfold qualPass; dsimp only
    have h1 : ExchKept s.ptp (if s.on F.Ptp.TIME_VALID pgPtp && !s.on F.Ptp.ALLOW_STEP pgPtp then s
      else match slope40 l with
        | some i => ptpStep (clampI rateMin rateMax i).toNat s
        | none => ptpStep (clampI rateMin rateMax s.free.1).toNat s.free.2 : State).ptp := by
      split
      · exact ⟨rfl, rfl, rfl, rfl⟩
      · split
        · exact ptpStep_kept _ _
        · exact ptpStep_kept _ s.free.2
    generalize (if s.on F.Ptp.TIME_VALID pgPtp && !s.on F.Ptp.ALLOW_STEP pgPtp then s else _ : State) = s1 at h1
    obtain ⟨s2, e2⟩ : ∃ s2 : State, s2 = (setServo 2 s1).updPtp (fun x => { x with within := 0, outliers := 0, exch := [] }) := ⟨_, rfl⟩
    have h2 : ExchKept s.ptp s2.ptp := by rw [e2]; exact h1
    rw [← e2]
    cases s2.ptp.hold with
    | none => exact h2
    | some c =>
      dsimp only; unfold holdEvent; rw [State.raise_ptp]; exact h2
  unfold qualify; dsimp only
  split
  · exact pass _
  · exact ⟨rfl, rfl, rfl, rfl⟩

end Sys2Proof.Machine
end

