-- ==== Sys2Proof/Laws/OfTriggers.lean ====
section
/-! SUPPORT. Lemmas that the statements about its unit: Triggers rest on. -/

-- One declaration after another: the package is also checked as one text, where too many threads would start at once.
set_option Elab.async false

set_option linter.unusedVariables false
set_option linter.unusedSimpArgs false

namespace Sys2Proof.Machine

theorem forAll_cons {α : Type} (a : α) (l : List α) (s : State) (f : α → State → State) : forAll (a :: l) s f = forAll l (f a s) f := rfl

theorem forAll_nil {α : Type} (s : State) (f : α → State → State) : forAll [] s f = s := rfl

/-- What a firing leaves: the fields of the triggers, the clock and the time. -/
def TrigStill (s t : State) : Prop :=
  (∀ (f : Fld) (i : Nat), 0x100 ≤ f.off → f.off + i * f.stride < 4096 → f.lo < 32 → t.getI f pgTrig i = s.getI f pgTrig i) ∧
  t.ptp = s.ptp ∧ t.now = s.now ∧ t.countBase = s.countBase ∧ t.rate = s.rate

theorem TrigStill.refl (s : State) : TrigStill s s := ⟨fun _ _ _ _ _ => rfl, rfl, rfl, rfl, rfl⟩

theorem TrigStill.trans {s t u : State} (h : TrigStill s t) (g : TrigStill t u) : TrigStill s u :=
  ⟨fun f i a b c => (g.1 f i a b c).trans (h.1 f i a b c), g.2.1.trans h.2.1, g.2.2.1.trans h.2.2.1, g.2.2.2.1.trans h.2.2.2.1, g.2.2.2.2.trans h.2.2.2.2⟩

theorem TrigStill.getI {s t : State} (h : TrigStill s t) {f : Fld} {k : Nat} (hk : k < 8) (h1 : 0x100 ≤ f.off) (h2 : f.off + 7 * f.stride < 4096) (h3 : f.lo < 32) :
    t.getI f pgTrig k = s.getI f pgTrig k :=
  h.1 f k h1 (by have : k * f.stride ≤ 7 * f.stride := Nat.mul_le_mul_right _ (by omega)
                 omega) h3

theorem TrigStill.period {s t : State} (h : TrigStill s t) {k : Nat} (hk : k < 8) : t.trigPeriod k = s.trigPeriod k := by
  unfold State.trigPeriod; rw [h.getI hk (by decide) (by decide) (by decide), h.getI hk (by decide) (by decide) (by decide)]

theorem TrigStill.target {s t : State} (h : TrigStill s t) {k : Nat} (hk : k < 8) (j : Nat) : t.trigTarget k j = s.trigTarget k j := by
  unfold State.trigTarget
  rw [h.period hk, h.getI hk (by decide) (by decide) (by decide), h.getI hk (by decide) (by decide) (by decide), h.getI hk (by decide) (by decide) (by decide)]

theorem TrigStill.time {s t : State} (h : TrigStill s t) : t.timeNow = s.timeNow := by
  unfold State.timeNow State.timeOf State.counter; rw [h.2.2.2.2, h.2.1, h.2.2.1, h.2.2.2.1]

/-- A change of other pages and parts. -/
theorem TrigStill.of_pages {s t : State} {ps : List Nat} (h : s.OnPages t ps) (h1 : pgTrig ∉ ps) (h2 : pgPtp ∉ ps) (a : t.ptp = s.ptp) (b : t.now = s.now) (c : t.countBase = s.countBase) : TrigStill s t := by
  refine ⟨fun f i _ hf hl => h.getI h1 hf hl, a, b, c, ?_⟩
  unfold State.rate State.get2
  rw [h.getI h2 (by decide) (by decide), h.getI h2 (by decide) (by decide)]

/-- The pages that a trigger reaches through the firing ports. -/
def firePages : List Nat := pgPair :: pgLedger :: (List.range 48).map pgPort

theorem firePages_not : pgTrig ∉ firePages ∧ pgPtp ∉ firePages ∧ pgPair ∈ firePages ∧ pgLedger ∈ firePages := by decide

theorem firePages_port {p : Nat} (h : p < 48) : pgPort p ∈ firePages := by
  unfold firePages; exact List.mem_cons_of_mem _ (List.mem_cons_of_mem _ (List.mem_map.mpr ⟨p, List.mem_range.mpr h, rfl⟩))

/-- A step on the ports' and the pair's pages, with the triggers left alone. -/
def FireKeeps (s t : State) : Prop := s.OnPages t firePages ∧ t.trig = s.trig ∧ t.now = s.now ∧ t.countBase = s.countBase ∧ t.ptp = s.ptp

theorem FireKeeps.refl (s : State) : FireKeeps s s := ⟨.refl s _, rfl, rfl, rfl, rfl⟩

theorem FireKeeps.trans {s t u : State} (h : FireKeeps s t) (g : FireKeeps t u) : FireKeeps s u :=
  ⟨h.1.trans g.1, g.2.1.trans h.2.1, g.2.2.1.trans h.2.2.1, g.2.2.2.1.trans h.2.2.2.1, g.2.2.2.2.trans h.2.2.2.2⟩

theorem FireKeeps.set {s t : State} (h : FireKeeps s t) (f : Fld) (pg v : Nat) (hp : pg ∈ firePages) (hf : f.off + 0 * f.stride < 4096) (hl : f.lo < 32) : FireKeeps s (t.set f pg v) :=
  ⟨h.1.set v hp hf hl, h.2.1, h.2.2.1, h.2.2.2.1, h.2.2.2.2⟩

theorem FireKeeps.raise {s t : State} (h : FireKeeps s t) (e : Ev) (pg a : Nat) (hp : pg ∈ firePages) (hn : pg ≠ pgLedger) : FireKeeps s (t.raise e pg a) := by
  refine ⟨h.1.raise e a hp hn firePages_not.2.2.2, ?_, ?_, ?_, ?_⟩
  · rw [State.raise_trig]; exact h.2.1
  · rw [State.raise_now]; exact h.2.2.1
  · rw [State.raise_countBase]; exact h.2.2.2.1
  · rw [State.raise_ptp]; exact h.2.2.2.2

theorem FireKeeps.updPort {s t : State} (h : FireKeeps s t) (p : Nat) (f) : FireKeeps s (t.updPort p f) :=
  ⟨h.1.keep (State.updPort_regs _ _ _), h.2.1, h.2.2.1, h.2.2.2.1, h.2.2.2.2⟩

theorem FireKeeps.updPair {s t : State} (h : FireKeeps s t) (f) : FireKeeps s (t.updPair f) :=
  ⟨h.1.keep (State.updPair_regs _ _), h.2.1, h.2.2.1, h.2.2.2.1, h.2.2.2.2⟩

theorem fallbackCheck_fire {p : Nat} (hp : p < 48) (s : State) : FireKeeps s (fallbackCheck p s) := by
  unfold fallbackCheck; dsimp only; split
  · exact ((FireKeeps.refl s).set _ _ _ (firePages_port hp) (by decide) (by decide)).raise _ _ _ (firePages_port hp) (pgPort_ne p hp)
  · exact .refl s

theorem joinFail_fire (r : Nat) (s : State) : FireKeeps s (joinFail r s) := by
  unfold joinFail setRole; dsimp only; split
  · exact ((((FireKeeps.refl s).set _ _ _ (by decide) (by decide) (by decide)).set _ _ _ (by decide) (by decide) (by decide)).updPair _).raise _ _ _ (by decide) (by decide)
  · exact .refl s

theorem triggerStart_fire {p : Nat} (hp : p < 48) (v : Nat) (s : State) : FireKeeps s (triggerStart p v s) := by
  have st : ∀ a, FireKeeps s (setStart p a s) := fun a => by unfold setStart; exact (FireKeeps.refl s).updPort _ _
  have l : FireKeeps s (startLate p 0 s) := by
    unfold startLate pairStartLate; dsimp only
    refine FireKeeps.raise ?_ _ _ _ (firePages_port hp) (pgPort_ne p hp)
    have b : FireKeeps s (s.satI F.Port.START_LATE_COUNT (pgPort p) 0 1) := (FireKeeps.refl s).set _ _ _ (firePages_port hp) (by decide) (by decide)
    split
    · exact b.trans (joinFail_fire _ _)
    · exact b
  rcases triggerStart_cases p v s with ⟨a, f, h⟩ | h
  · rw [h]; exact ((st a).updPort _ _).trans (fallbackCheck_fire hp _)
  · rw [h]; exact l

theorem portsTrigger_fire (k : Nat) (s : State) : FireKeeps s (portsTrigger k s) := by
  have e : portsTrigger k s = forAll ((List.range Config.ports).filter (fun p => s.pget F.Port.TRIG_SEL p == k && s.waitsFor p 2)) s
    (fun p s => triggerStart p (s.startPos p) s) := rfl
  rw [e]
  refine forAll_over _ _ _ (FireKeeps s) (.refl s) fun p hp z hz => ?_
  have hp' : p < 48 := List.mem_range.mp (List.mem_filter.mp hp).1
  exact hz.trans (triggerStart_fire hp' _ z)

theorem portsTrigger_still (k : Nat) (s : State) : TrigStill s (portsTrigger k s) :=
  .of_pages (portsTrigger_fire k s).1 firePages_not.1 firePages_not.2.1 (portsTrigger_fire k s).2.2.2.2 (portsTrigger_fire k s).2.2.1 (portsTrigger_fire k s).2.2.2.1

/-- One step of a trigger: fields and clock stand, other triggers too, event bits stay. -/
def TrigOne (k : Nat) (s t : State) : Prop :=
  TrigStill s t ∧ (∀ i, i ≠ k → i < 8 → t.armed i = s.armed i ∧ t.trigOf i = s.trigOf i) ∧
  (∀ b < 32, bitAt (s.get F.Hdr.EVENT_STATUS pgTrig) b = true → bitAt (t.get F.Hdr.EVENT_STATUS pgTrig) b = true)

theorem TrigOne.refl (k : Nat) (s : State) : TrigOne k s s := ⟨.refl s, fun _ _ _ => ⟨rfl, rfl⟩, fun _ _ h => h⟩

theorem TrigOne.trans {k : Nat} {s t u : State} (h : TrigOne k s t) (g : TrigOne k t u) : TrigOne k s u :=
  ⟨h.1.trans g.1, fun i hi h8 => ⟨(g.2.1 i hi h8).1.trans (h.2.1 i hi h8).1, (g.2.1 i hi h8).2.trans (h.2.1 i hi h8).2⟩, fun b hb x => g.2.2 b hb (h.2.2 b hb x)⟩

theorem setTrigArmed_one (k : Nat) (b : Bool) (s : State) : TrigOne k s (setTrigArmed k b s) := by
  have g : ∀ v, TrigOne k s (s.set F.Trig.TRIG_ARMED pgTrig v) → True := fun _ _ => trivial
  unfold setTrigArmed; dsimp only
  refine ⟨⟨fun f i h1 h2 h3 => State.getI_set_off _ (by show (f.off + i * f.stride) * 32 + f.lo ≠ (0x48 + 0 * 4) * 32 + 0; omega), rfl, rfl, rfl, ?_⟩, fun i hi h8 => ⟨?_, rfl⟩, fun b hb h => ?_⟩
  · unfold State.rate State.get2 State.set
    rw [State.getI_setI_page _ _ (by decide) (by decide) (by decide) (by decide) (by decide), State.getI_setI_page _ _ (by decide) (by decide) (by decide) (by decide) (by decide)]
  · unfold State.armed
    rw [State.get_set_self, bitAt_low (by exact h8)]
    cases b
    · rw [if_neg (by simp), bitAt_clearBit]; simp [Ne.symm hi]
    · rw [if_pos rfl, bitAt_setBit]; simp [Ne.symm hi]
  · rw [State.get_set_off _ (by decide)]; exact h

theorem setTrigArmed_self {k : Nat} (hk : k < 8) (b : Bool) (s : State) : (setTrigArmed k b s).armed k = b ∧ (setTrigArmed k b s).trigOf k = s.trigOf k := by
  unfold setTrigArmed State.armed; dsimp only
  rw [State.get_set_self, bitAt_low (by exact hk)]
  cases b
  · rw [if_neg (by simp), bitAt_clearBit]; exact ⟨by simp, rfl⟩
  · rw [if_pos rfl, bitAt_setBit]; exact ⟨by simp, rfl⟩

theorem updTrig_one (k : Nat) (f : TrigX → TrigX) (s : State) : TrigOne k s (s.updTrig k f) := by
  refine ⟨⟨fun _ _ _ _ _ => rfl, rfl, rfl, rfl, rfl⟩, fun i hi h8 => ⟨rfl, State.trigOf_updTrig_ne _ _ hi⟩, fun _ _ h => h⟩

theorem trigLate_one (k n : Nat) (s : State) : TrigOne k s (trigLate k n s) := by
  unfold trigLate
  refine ⟨⟨fun f i h1 h2 h3 => ?_, State.raise_ptp _ _ _ _, State.raise_now _ _ _ _, State.raise_countBase _ _ _ _, ?_⟩, fun i hi h8 => ⟨?_, State.trigOf_raise _ _ _ _ _⟩, fun b hb h => ?_⟩
  · refine State.getI_raise_off _ _ (by decide) ?_ h2 h3
    omega
  · unfold State.rate State.get2
    rw [State.raise_getI _ _ _ _ (by decide) (by decide) (by decide) (by decide), State.raise_getI _ _ _ _ (by decide) (by decide) (by decide) (by decide)]
  · unfold State.armed; rw [State.get_raise_off _ _ (by decide) (by decide) (by decide) (by decide)]
  · rw [State.raise_status _ _ _ _ (by decide), bitAt_low hb, bitAt_setBit, h]; rfl

theorem trigLate_self (k n : Nat) (s : State) : bitAt ((trigLate k n s).get F.Hdr.EVENT_STATUS pgTrig) Ev.ptpTriggerLate.bit = true ∧ (trigLate k n s).trigOf k = s.trigOf k := by
  unfold trigLate; exact ⟨State.raise_bit _ _ _ (by decide) (by decide), State.trigOf_raise _ _ _ _ _⟩

theorem fire_one (k i : Nat) (s : State) : TrigOne i s (portsTrigger k s) ∧ (portsTrigger k s).trig = s.trig ∧ ∀ j, (portsTrigger k s).armed j = s.armed j := by
  have h := portsTrigger_fire k s
  have a : ∀ j, (portsTrigger k s).armed j = s.armed j := fun j => by unfold State.armed; rw [h.1.get firePages_not.1 (by decide) (by decide)]
  refine ⟨⟨portsTrigger_still k s, fun j _ _ => ⟨a j, ?_⟩, fun b _ x => ?_⟩, h.2.1, a⟩
  · unfold State.trigOf; rw [h.2.1]
  · rw [h.1.get firePages_not.1 (by decide) (by decide)]; exact x

/-- What a firing does to its own trigger (R478, R479). -/
theorem trigFire_spec {k : Nat} (hk : k < 8) (s : State) : TrigOne k s (trigFire k s) ∧
    (trigFire k s).armed k = (if s.trigPeriod k = 0 then false else s.armed k) ∧
    ((trigFire k s).trigOf k).j = (s.trigOf k).j + (if s.trigPeriod k = 0 then 0 else 1) ∧
    (s.onI F.Trig.OUT_EN pgTrig k = true → ((trigFire k s).trigOf k).from_ = s.now + 6 ∧ ((trigFire k s).trigOf k).to_ = s.now + 6 + 2 * s.getI F.Trig.WIDTH pgTrig k) ∧
    (s.onI F.Trig.OUT_EN pgTrig k = false → ((trigFire k s).trigOf k).from_ = (s.trigOf k).from_ ∧ ((trigFire k s).trigOf k).to_ = (s.trigOf k).to_) := by
  obtain ⟨s1, e1⟩ : ∃ s1 : State, s1 = if s.onI F.Trig.OUT_EN pgTrig k then
      s.updTrig k (fun x => { x with from_ := s.now + 6, to_ := s.now + 6 + 2 * s.getI F.Trig.WIDTH pgTrig k })
    else s := ⟨_, rfl⟩
  have o1 : TrigOne k s s1 := by
    rw [e1]; split
    · exact updTrig_one _ _ _
    · exact .refl _ _
  have a1 : s1.armed k = s.armed k := by rw [e1]; split <;> rfl
  have x1 : (s1.trigOf k).j = (s.trigOf k).j ∧ (s.onI F.Trig.OUT_EN pgTrig k = true → (s1.trigOf k).from_ = s.now + 6 ∧ (s1.trigOf k).to_ = s.now + 6 + 2 * s.getI F.Trig.WIDTH pgTrig k) ∧
      (s.onI F.Trig.OUT_EN pgTrig k = false → (s1.trigOf k).from_ = (s.trigOf k).from_ ∧ (s1.trigOf k).to_ = (s.trigOf k).to_) := by
    rw [e1]; split
    · rename_i ho
      rw [State.trigOf_updTrig]; exact ⟨rfl, fun _ => ⟨rfl, rfl⟩, fun h => by rw [h] at ho; simp at ho⟩
    · rename_i ho
      exact ⟨rfl, fun h => absurd h ho, fun _ => ⟨rfl, rfl⟩⟩
  obtain ⟨s2, e2⟩ : ∃ s2 : State, s2 = portsTrigger k s1 := ⟨_, rfl⟩
  have e : trigFire k s = if s.trigPeriod k = 0 then setTrigArmed k false s2 else s2.updTrig k (fun x => { x with j := x.j + 1 }) := by
    rw [e2, e1]; rfl
  obtain ⟨o2, t2, a2⟩ := fire_one k k s1
  rw [← e2] at o2 t2
  have a2' : s2.armed k = s1.armed k := by rw [e2]; exact a2 k
  have x2 : s2.trigOf k = s1.trigOf k := by unfold State.trigOf; rw [t2]
  rw [e]
  by_cases hp : s.trigPeriod k = 0
  · rw [if_pos hp, if_pos hp, if_pos hp]
    obtain ⟨b1, b2⟩ := setTrigArmed_self hk false s2
    rw [b2, x2]
    exact ⟨(o1.trans o2).trans (setTrigArmed_one _ _ _), b1, x1.1, x1.2.1, x1.2.2⟩
  · rw [if_neg hp, if_neg hp, if_neg hp, State.trigOf_updTrig, x2]
    refine ⟨(o1.trans o2).trans (updTrig_one _ _ _), ?_, by show (s1.trigOf k).j + 1 = _; rw [x1.1], x1.2.1, x1.2.2⟩
    show s2.armed k = _; rw [a2', a1]

/-- What arming does to its own trigger (R478). -/
def TrigArmed (s t : State) (k : Nat) : Prop :=
  (s.timeNow < s.trigTarget k 0 → t.armed k = true ∧ t.trigOf k = { s.trigOf k with j := 0 }) ∧
  (s.trigTarget k 0 ≤ s.timeNow → bitAt (t.get F.Hdr.EVENT_STATUS pgTrig) Ev.ptpTriggerLate.bit = true ∧
    t.armed k = (s.onI F.Trig.LATE_POLICY pgTrig k && decide (s.trigPeriod k ≠ 0)) ∧
    (s.onI F.Trig.LATE_POLICY pgTrig k = true → s.trigPeriod k ≠ 0 → (t.trigOf k).j = 1) ∧
    (s.onI F.Trig.LATE_POLICY pgTrig k = true → s.onI F.Trig.OUT_EN pgTrig k = true →
      (t.trigOf k).from_ = s.now + 6 ∧ (t.trigOf k).to_ = s.now + 6 + 2 * s.getI F.Trig.WIDTH pgTrig k))

theorem trigArm_spec {k : Nat} (hk : k < 8) (s : State) : TrigOne k s (trigArm k s) ∧ TrigArmed s (trigArm k s) k := by
  obtain ⟨s1, e1⟩ : ∃ s1 : State, s1 = s.updTrig k (fun x => { x with j := 0 }) := ⟨_, rfl⟩
  obtain ⟨s2, e2⟩ : ∃ s2 : State, s2 = trigLate k 0 s1 := ⟨_, rfl⟩
  have e : trigArm k s = if s.trigTarget k 0 ≤ s.timeNow then (if s.onI F.Trig.LATE_POLICY pgTrig k = true then trigFire k (setTrigArmed k true s2) else setTrigArmed k false s2)
      else setTrigArmed k true s1 := by rw [e2, e1]; rfl
  have o1 : TrigOne k s s1 := by rw [e1]; exact updTrig_one _ _ _
  have x1 : s1.trigOf k = { s.trigOf k with j := 0 } := by rw [e1, State.trigOf_updTrig]
  have o2 : TrigOne k s s2 := by rw [e2]; exact o1.trans (trigLate_one _ _ _)
  have l2 : bitAt (s2.get F.Hdr.EVENT_STATUS pgTrig) Ev.ptpTriggerLate.bit = true ∧ s2.trigOf k = s1.trigOf k := by rw [e2]; exact trigLate_self _ _ _
  rw [e]
  by_cases hl : s.trigTarget k 0 ≤ s.timeNow
  · rw [if_pos hl]
    by_cases hp : s.onI F.Trig.LATE_POLICY pgTrig k = true
    · rw [if_pos hp]
      have o3 := o2.trans (setTrigArmed_one k true s2)
      obtain ⟨b1, b2⟩ := setTrigArmed_self hk true s2
      have l3 := (setTrigArmed_one k true s2).2.2 _ (by decide) l2.1
      generalize setTrigArmed k true s2 = s3 at o3 b1 b2 l3
      obtain ⟨q1, q2, q3, q4, q5⟩ := trigFire_spec hk s3
      have s3late : bitAt ((trigFire k s3).get F.Hdr.EVENT_STATUS pgTrig) Ev.ptpTriggerLate.bit = true := by
        exact q1.2.2 _ (by decide) l3
      refine ⟨o3.trans q1, fun h => absurd hl (by omega), fun _ => ⟨s3late, ?_, fun _ h => ?_, fun _ h => ?_⟩⟩
      · rw [q2, o3.1.period hk, b1, hp]; by_cases h0 : s.trigPeriod k = 0 <;> simp [h0]
      · rw [q3, o3.1.period hk, if_neg h, b2, l2.2, x1]
      · have ho : s3.onI F.Trig.OUT_EN pgTrig k = true := by unfold State.onI at h ⊢; rw [o3.1.getI hk (by decide) (by decide) (by decide)]; exact h
        have := q4 ho
        rw [o3.1.2.2.1, o3.1.getI hk (by decide) (by decide) (by decide)] at this; exact this
    · rw [if_neg hp]
      obtain ⟨b1, b2⟩ := setTrigArmed_self hk false s2
      refine ⟨o2.trans (setTrigArmed_one _ _ _), fun h => absurd hl (by omega), fun _ => ⟨(setTrigArmed_one k false s2).2.2 _ (by decide) l2.1, ?_, fun h => absurd h hp, fun h => absurd h hp⟩⟩
      rw [b1]; simp [hp]
  · rw [if_neg hl]
    obtain ⟨b1, b2⟩ := setTrigArmed_self hk true s1
    exact ⟨o1.trans (setTrigArmed_one _ _ _), fun _ => ⟨b1, by rw [b2, x1]⟩, fun h => absurd h hl⟩

theorem TrigArmed.congr {s u t : State} {k : Nat} (hk : k < 8) (o : TrigStill s u) (h2 : u.trigOf k = s.trigOf k) (h1 : TrigArmed u t k) : TrigArmed s t k := by
  have e1 := o.getI hk (f := F.Trig.LATE_POLICY) (by decide) (by decide) (by decide)
  have e2 := o.getI hk (f := F.Trig.OUT_EN) (by decide) (by decide) (by decide)
  have e3 := o.getI hk (f := F.Trig.WIDTH) (by decide) (by decide) (by decide)
  unfold TrigArmed State.onI at h1 ⊢
  rw [o.target hk, o.time, h2, o.period hk, o.2.2.1, e1, e2, e3] at h1
  exact h1

theorem trigArms_spec (l : List Nat) (hn : l.Nodup) (h8 : ∀ k ∈ l, k < 8) (s : State) :
    TrigStill s (forAll l s trigArm) ∧ (∀ b < 32, bitAt (s.get F.Hdr.EVENT_STATUS pgTrig) b = true → bitAt ((forAll l s trigArm).get F.Hdr.EVENT_STATUS pgTrig) b = true) ∧
    ∀ k < 8, (k ∉ l → (forAll l s trigArm).armed k = s.armed k ∧ (forAll l s trigArm).trigOf k = s.trigOf k) ∧ (k ∈ l → TrigArmed s (forAll l s trigArm) k) := by
  induction l generalizing s with
  | nil => rw [forAll_nil]; exact ⟨.refl s, fun _ _ h => h, fun k _ => ⟨fun _ => ⟨rfl, rfl⟩, fun h => by simp at h⟩⟩
  | cons a l ih =>
    have ha := h8 a (by simp)
    obtain ⟨o, q⟩ := trigArm_spec ha s
    obtain ⟨i1, i2, i3⟩ := ih (List.nodup_cons.mp hn).2 (fun k h => h8 k (by simp [h])) (trigArm a s)
    rw [forAll_cons]
    generalize forAll l (trigArm a s) trigArm = t at i1 i2 i3
    refine ⟨o.1.trans i1, fun b hb h => i2 b hb (o.2.2 b hb h), fun k hk => ⟨fun hm => ?_, fun hm => ?_⟩⟩
    · have h1 := (i3 k hk).1 (fun h => hm (by simp [h]))
      have h2 := o.2.1 k (fun h => hm (by simp [h])) hk
      exact ⟨h1.1.trans h2.1, h1.2.trans h2.2⟩
    · by_cases hka : k = a
      · subst hka
        have h1 := (i3 k hk).1 (List.nodup_cons.mp hn).1
        refine ⟨fun h => ?_, fun h => ?_⟩
        · rw [h1.1, h1.2]; exact q.1 h
        · rw [h1.1, h1.2]; exact ⟨i2 _ (by decide) (q.2 h).1, (q.2 h).2⟩
      · have hm' : k ∈ l := by simpa [hka] using hm
        have h1 := (i3 k hk).2 hm'
        have h2 := o.2.1 k hka hk
        exact TrigArmed.congr hk o.1 h2.2 h1

theorem disarms_spec (l : List Nat) (h8 : ∀ k ∈ l, k < 8) (s : State) :
    (forAll l s (fun k s => setTrigArmed k false s)).trig = s.trig ∧ ∀ k < 8, (forAll l s (fun k s => setTrigArmed k false s)).armed k = (s.armed k && !decide (k ∈ l)) := by
  induction l generalizing s with
  | nil => exact ⟨rfl, fun k _ => by simp [forAll]⟩
  | cons a l ih =>
    obtain ⟨i1, i2⟩ := ih (fun k h => h8 k (by simp [h])) (setTrigArmed a false s)
    rw [forAll_cons]
    refine ⟨i1.trans rfl, fun k hk => ?_⟩
    rw [i2 k hk]
    by_cases h : k = a
    · subst h; rw [(setTrigArmed_self hk false s).1]; simp
    · rw [((setTrigArmed_one a false s).2.1 k h hk).1]; simp [h]

theorem capPops_spec (l : List Nat) (hn : l.Nodup) (s : State) : ∀ t, t = forAll l s (fun c s =>
      let x := tget s.tcap c {}
      { s with tcap := tput s.tcap c { fifo := x.fifo.drop 1, told := x.told && decide (1 < x.fifo.length) } }) → t = { s with tcap := t.tcap } ∧
    (∀ c, c ∉ l → tget t.tcap c {} = tget s.tcap c {}) ∧ ∀ c ∈ l, tget t.tcap c {} = { fifo := (tget s.tcap c {}).fifo.drop 1, told := (tget s.tcap c {}).told && decide (1 < (tget s.tcap c {}).fifo.length) } := by
  induction l generalizing s with
  | nil => intro t h; subst h; exact ⟨rfl, fun _ _ => rfl, fun c h => by simp at h⟩
  | cons a l ih =>
    intro t h
    rw [forAll_cons] at h
    obtain ⟨i1, i2, i3⟩ := ih (List.nodup_cons.mp hn).2 { s with tcap := tput s.tcap a { fifo := (tget s.tcap a {}).fifo.drop 1, told := (tget s.tcap a {}).told && decide (1 < (tget s.tcap a {}).fifo.length) } } t h
    refine ⟨i1, fun c hc => ?_, fun c hc => ?_⟩
    · rw [i2 c (fun h => hc (by simp [h]))]; exact tget_tput_ne _ _ _ (fun h => hc (by simp [h]))
    · by_cases hca : c = a
      · subst hca; rw [i2 c (List.nodup_cons.mp hn).1]; exact tget_tput_self _ _ _ _
      · rw [i3 c (by simpa [hca] using hc)]; dsimp only
        rw [tget_tput_ne _ _ _ hca]

theorem epochFor_spec (l : List Epoch) (n : Nat) (a : Option Epoch) (ha : ∀ e, a = some e → e.c ≤ n) :
    ∀ r, r = l.foldl (fun a e => if e.c ≤ n then (match a with
        | some b => if b.c < e.c then some e else a
        | none => some e) else a) a →
      (∀ e, r = some e → (e ∈ l ∨ a = some e) ∧ e.c ≤ n ∧ (∀ x ∈ l, x.c ≤ n → x.c ≤ e.c) ∧ ∀ b, a = some b → b.c ≤ e.c) ∧ (r = none → a = none ∧ ∀ x ∈ l, n < x.c) := by
  induction l generalizing a with
  | nil => intro r h; have h : r = a := h; rw [h]; exact ⟨fun e h => ⟨.inr h, ha e h, by simp, fun b hb => by rw [h] at hb; cases hb; exact Nat.le_refl _⟩, fun h => ⟨h, by simp⟩⟩
  | cons x l ih =>
    intro r h
    rw [List.foldl_cons] at h
    by_cases hx : x.c ≤ n
    · rw [if_pos hx] at h
      cases a with
      | none =>
        dsimp only at h
        obtain ⟨i1, i2⟩ := ih (some x) (fun e he => by cases he; exact hx) r h
        refine ⟨fun e he => ?_, fun hr => by simpa using (i2 hr).1⟩
        obtain ⟨j1, j2, j3, j4⟩ := i1 e he
        refine ⟨.inl ?_, j2, fun y hy hyn => ?_, fun b hb => by simp at hb⟩
        · rcases j1 with j | j
          · exact List.mem_cons_of_mem _ j
          · cases j; exact List.mem_cons_self
        · rcases List.mem_cons.mp hy with rfl | hy
          · exact j4 _ rfl
          · exact j3 y hy hyn
      | some b =>
        dsimp only at h
        by_cases hb : b.c < x.c
        · rw [if_pos hb] at h
          obtain ⟨i1, i2⟩ := ih (some x) (fun e he => by cases he; exact hx) r h
          refine ⟨fun e he => ?_, fun hr => by simpa using (i2 hr).1⟩
          obtain ⟨j1, j2, j3, j4⟩ := i1 e he
          have := j4 _ rfl
          refine ⟨.inl ?_, j2, fun y hy hyn => ?_, fun b' hb' => by cases hb'; omega⟩
          · rcases j1 with j | j
            · exact List.mem_cons_of_mem _ j
            · cases j; exact List.mem_cons_self
          · rcases List.mem_cons.mp hy with rfl | hy
            · exact this
            · exact j3 y hy hyn
        · rw [if_neg hb] at h
          obtain ⟨i1, i2⟩ := ih (some b) ha r h
          refine ⟨fun e he => ?_, fun hr => by simpa using (i2 hr).1⟩
          obtain ⟨j1, j2, j3, j4⟩ := i1 e he
          have := j4 _ rfl
          refine ⟨j1.imp (List.mem_cons_of_mem _) id, j2, fun y hy hyn => ?_, j4⟩
          rcases List.mem_cons.mp hy with rfl | hy
          · omega
          · exact j3 y hy hyn
    · rw [if_neg hx] at h
      obtain ⟨i1, i2⟩ := ih a ha r h
      refine ⟨fun e he => ?_, fun hr => ⟨(i2 hr).1, fun y hy => ?_⟩⟩
      · obtain ⟨j1, j2, j3, j4⟩ := i1 e he
        refine ⟨j1.imp (List.mem_cons_of_mem _) id, j2, fun y hy hyn => ?_, j4⟩
        rcases List.mem_cons.mp hy with rfl | hy
        · omega
        · exact j3 y hy hyn
      · rcases List.mem_cons.mp hy with rfl | hy
        · omega
        · exact (i2 hr).2 y hy

end Sys2Proof.Machine
end

