-- ==== Sys2Proof/Laws/OfPairLease.lean ====
section
/-! SUPPORT. Lemmas that the statements about its unit: PairLease rest on. -/

-- One declaration after another: the package is also checked as one text, where too many threads would start at once.
set_option Elab.async false

set_option linter.unusedVariables false
set_option linter.unusedSimpArgs false

namespace Sys2Proof.Machine

/-- Only what a part sends on its lanes and its heartbeat pin differs. -/
def SentOnly (x y : PairX) : Prop :=
  y = { x with tx := y.tx, sent := y.sent, frameSeq := y.frameSeq, sentLane := y.sentLane, sentPin := y.sentPin, latchOut := y.latchOut }

theorem SentOnly.refl (x : PairX) : SentOnly x x := rfl

theorem SentOnly.trans {x y z : PairX} (h : SentOnly x y) (g : SentOnly y z) : SentOnly x z := by
  unfold SentOnly at *; rw [h] at g; exact g

/-- A part sends: only that is noted. -/
def Sends (s t : State) : Prop := t = { s with pair := t.pair } ∧ SentOnly s.pair t.pair

theorem Sends.refl (s : State) : Sends s s := ⟨rfl, .refl _⟩

theorem Sends.trans {s t u : State} (h : Sends s t) (g : Sends t u) : Sends s u :=
  ⟨by have a := g.1; rw [h.1] at a; exact a, h.2.trans g.2⟩

theorem Sends.regs {s t : State} (h : Sends s t) : t.regs = s.regs := by rw [h.1]

theorem Sends.get {s t : State} (h : Sends s t) (f : Fld) (pg : Nat) : t.get f pg = s.get f pg := by unfold State.get State.getI; rw [h.regs]

theorem pairSend_sends (type : Nat) (body : List Byte) (s : State) : Sends s (pairSend type body s) := by
  unfold pairSend; split
  · exact ⟨rfl, rfl⟩
  · exact .refl s

theorem sendHeartbeat_sends (s : State) : Sends s (sendHeartbeat s) := by
  unfold sendHeartbeat; split
  · exact .refl s
  · dsimp only
    refine Sends.trans ?_ (pairSend_sends _ _ _)
    refine ⟨rfl, ?_⟩
    show SentOnly s.pair _
    by_cases h : s.on F.Pair.PLL_LOCKED pgPair = true
    · simp only [h, if_true]; rfl
    · simp only [h]; rfl

theorem sends_forAll {α : Type} (l : List α) (f : α → State → State) (h : ∀ a s, Sends s (f a s)) (s : State) : Sends s (forAll l s f) :=
  forAll_over l s f (Sends s) (.refl s) fun a _ z hz => hz.trans (h a z)

/-- What fencing does (R502). -/
theorem fence_spec {c : Nat} (hc : c < 8) (s : State) (h : s.role = 4) : (fence c s).role = 5 ∧ (fence c s).get F.Pair.FENCE_CAUSE pgPair = c ∧
    (fence c s).on F.Pair.GUARDED pgPair = false ∧ (fence c s).pair.expiry = none ∧ (fence c s).pair.claim = false ∧ (fence c s).pair.join = s.pair.join ∧
    (fence c s).pair.mirror = s.pair.mirror ∧ (fence c s).pair.laneAt = s.pair.laneAt ∧ (fence c s).pair.pinAt = s.pair.pinAt ∧ (fence c s).pair.partnerMode = s.pair.partnerMode ∧
    bitAt ((fence c s).get F.Hdr.EVENT_STATUS pgPair) Ev.pairFenced.bit = true ∧
    ∀ g : Fld, g.stride = 4 → g.off = 0x50 → g.lo < 32 → g.lo ≠ 0 → g.lo ≠ 4 → g.lo ≠ 8 → (fence c s).get g pgPair = s.get g pgPair := by
  obtain ⟨s2, e2⟩ : ∃ s2 : State, s2 = (((setRole 5 s).set F.Pair.FENCE_CAUSE pgPair c).set F.Pair.GUARDED pgPair 0).updPair (fun x => { x with expiry := none, claim := false }) := ⟨_, rfl⟩
  have e : fence c s = (sendHeartbeat s2).raise Ev.pairFenced pgPair (s.get F.Pair.EPOCH pgPair * 2 ^ 16 + c) := by
    unfold fence; rw [if_pos h, e2]
  have sd := sendHeartbeat_sends s2
  have pp := sd.2
  have gt : ∀ g : Fld, (g.off + 0 * g.stride) * 32 + g.lo ≠ 512 → g.off + 0 * g.stride < 4096 → g.lo < 32 → (fence c s).get g pgPair = s2.get g pgPair := by
    intro g h1 h2 h3
    rw [e, State.get_raise_off _ _ (by decide) h1 h2 h3, sd.get]
  have p2 : s2.pair = { s.pair with expiry := none, claim := false } := by rw [e2]; rfl
  have pe : (fence c s).pair = (sendHeartbeat s2).pair := by rw [e, State.raise_pair]
  have g2 : ∀ g, s2.get g pgPair = (((setRole 5 s).set F.Pair.FENCE_CAUSE pgPair c).set F.Pair.GUARDED pgPair 0).get g pgPair := fun g => by rw [e2]; rfl
  refine ⟨?_, ?_, ?_, ?_, ?_, ?_, ?_, ?_, ?_, ?_, ?_, ?_⟩
  · unfold State.role; rw [gt _ (by decide) (by decide) (by decide), g2, State.get_set_off _ (by decide), State.get_set_off _ (by decide)]
    unfold setRole; rw [State.get_set_self]; rfl
  · rw [gt _ (by decide) (by decide) (by decide), g2, State.get_set_off _ (by decide), State.get_set_self]; exact low_of_lt hc
  · unfold State.on; rw [gt _ (by decide) (by decide) (by decide), g2, State.get_set_self]; rfl
  · rw [pe, pp, p2]
  · rw [pe, pp, p2]
  · rw [pe, pp, p2]
  · rw [pe, pp, p2]
  · rw [pe, pp, p2]
  · rw [pe, pp, p2]
  · rw [pe, pp, p2]
  · rw [e]; exact State.raise_bit _ _ _ (by decide) (by decide)
  · intro g h1 h2 h3 h4 h5 h6
    rw [gt g (by rw [h1, h2]; omega) (by rw [h1, h2]; decide) h3, g2]
    rw [State.get_set_off _ (by rw [h1, h2]; show _ ≠ (0x50 + 0 * 4) * 32 + 8; omega), State.get_set_off _ (by rw [h1, h2]; show _ ≠ (0x50 + 0 * 4) * 32 + 4; omega)]
    unfold setRole; rw [State.get_set_off _ (by rw [h1, h2]; show _ ≠ (0x50 + 0 * 4) * 32 + 0; omega)]

/-- The places of fields of the pair page that may differ, in bits; time and the counter stand. -/
def PairMid (x : List Nat) (s t : State) : Prop :=
  t.now = s.now ∧ t.countBase = s.countBase ∧
  ∀ g : Fld, g.off + 0 * g.stride < 4096 → g.lo < 32 → (g.off + 0 * g.stride) * 32 + g.lo ∉ x → t.get g pgPair = s.get g pgPair

theorem PairMid.refl (x : List Nat) (s : State) : PairMid x s s := ⟨rfl, rfl, fun _ _ _ _ => rfl⟩

theorem PairMid.trans {x : List Nat} {s t u : State} (h : PairMid x s t) (g : PairMid x t u) : PairMid x s u :=
  ⟨g.1.trans h.1, g.2.1.trans h.2.1, fun f a b c => (g.2.2 f a b c).trans (h.2.2 f a b c)⟩

theorem PairMid.set {x : List Nat} {s t : State} (h : PairMid x s t) (f : Fld) (v : Nat) (hx : (f.off + 0 * f.stride) * 32 + f.lo ∈ x) : PairMid x s (t.set f pgPair v) :=
  ⟨h.1, h.2.1, fun g a b c => by rw [State.get_set_off _ (fun e => c (by rw [e]; exact hx))]; exact h.2.2 g a b c⟩

theorem PairMid.updPair {x : List Nat} {s t : State} (h : PairMid x s t) (f : PairX → PairX) : PairMid x s (t.updPair f) :=
  ⟨h.1, h.2.1, h.2.2⟩

theorem PairMid.raise {x : List Nat} {s t : State} (h : PairMid x s t) (e : Ev) (a : Nat) (hx : 512 ∈ x) : PairMid x s (t.raise e pgPair a) := by
  refine ⟨?_, ?_, fun g a b c => ?_⟩
  · rw [State.raise_now]; exact h.1
  · rw [State.raise_countBase]; exact h.2.1
  · rw [State.get_raise_off _ _ (by decide) (fun e => c (by rw [e]; exact hx)) a b]; exact h.2.2 g a b c

theorem PairMid.sends {x : List Nat} {s t u : State} (h : PairMid x s t) (g : Sends t u) : PairMid x s u :=
  ⟨by rw [g.1]; exact h.1, by rw [g.1]; exact h.2.1, fun f a b c => by rw [g.get]; exact h.2.2 f a b c⟩

theorem PairMid.counter {x : List Nat} {s t : State} (h : PairMid x s t) : t.counter = s.counter := by unfold State.counter; rw [h.1, h.2.1]

theorem PairMid.mono {x y : List Nat} {s t : State} (h : PairMid x s t) (hs : ∀ a ∈ x, a ∈ y) : PairMid y s t :=
  ⟨h.1, h.2.1, fun f a b c => h.2.2 f a b fun d => c (hs _ d)⟩

theorem joinFail_none (r : Nat) (s : State) (h : s.pair.join = none) : joinFail r s = s := by unfold joinFail; rw [if_neg (by simp [h])]

/-- Taking the lease (R503). -/
theorem takeLease_spec (how : Nat) (s : State) : (takeLease how s).role = 4 ∧ (takeLease how s).on F.Pair.GUARDED pgPair = false ∧
    (takeLease how s).get F.Pair.EPOCH pgPair = (s.pair.epochSeen.getD (s.get F.Pair.EPOCH pgPair) + 1) % 2 ^ 14 ∧
    (takeLease how s).get F.Pair.TAKEOVERS pgPair = (s.get F.Pair.TAKEOVERS pgPair + 1) % 2 ^ 32 ∧ (takeLease how s).pair.claim = false ∧
    (takeLease how s).pair.expiry = none ∧ bitAt ((takeLease how s).get F.Hdr.EVENT_STATUS pgPair) Ev.pairTakeover.bit = true := by
  obtain ⟨e, he⟩ : ∃ e, e = (s.pair.epochSeen.getD (s.get F.Pair.EPOCH pgPair) + 1) % 2 ^ 14 := ⟨_, rfl⟩
  unfold takeLease; dsimp only; rw [← he]
  refine ⟨?_, ?_, ?_, ?_, ?_, ?_, State.raise_bit _ _ _ (by decide) (by decide)⟩
  · unfold State.role; rw [State.get_raise_off _ _ (by decide) (by decide) (by decide) (by decide)]
    unfold State.wrap State.wrapI; rw [State.get_setI_off _ (by decide)]
    show (((setRole 4 s).set F.Pair.EPOCH pgPair e).set F.Pair.GUARDED pgPair 0).get F.Pair.ROLE pgPair = 4
    rw [State.get_set_off _ (by decide), State.get_set_off _ (by decide)]; unfold setRole; rw [State.get_set_self]; rfl
  · unfold State.on; rw [State.get_raise_off _ _ (by decide) (by decide) (by decide) (by decide)]
    unfold State.wrap State.wrapI; rw [State.get_setI_off _ (by decide)]
    show ((((setRole 4 s).set F.Pair.EPOCH pgPair e).set F.Pair.GUARDED pgPair 0).get F.Pair.GUARDED pgPair == 1) = false
    rw [State.get_set_self]; rfl
  · rw [State.get_raise_off _ _ (by decide) (by decide) (by decide) (by decide)]
    unfold State.wrap State.wrapI; rw [State.get_setI_off _ (by decide)]
    show (((setRole 4 s).set F.Pair.EPOCH pgPair e).set F.Pair.GUARDED pgPair 0).get F.Pair.EPOCH pgPair = e
    rw [State.get_set_off _ (by decide), State.get_set_self]; exact low_of_lt (by rw [he]; exact Nat.mod_lt _ (by decide))
  · rw [State.get_raise_off _ _ (by decide) (by decide) (by decide) (by decide)]
    have h1 : ∀ z : State, (z.wrap F.Pair.TAKEOVERS pgPair).get F.Pair.TAKEOVERS pgPair = (z.get F.Pair.TAKEOVERS pgPair + 1) % 2 ^ 32 := by
      intro z; unfold State.wrap State.wrapI State.get; rw [State.getI_setI_self]; rfl
    rw [h1]
    have h2 : ((((setRole 4 s).set F.Pair.EPOCH pgPair e).set F.Pair.GUARDED pgPair 0).updPair (fun x => { x with expiry := none, view := none, claim := false, sbReady := false })).get F.Pair.TAKEOVERS pgPair = s.get F.Pair.TAKEOVERS pgPair := by
      show (((setRole 4 s).set F.Pair.EPOCH pgPair e).set F.Pair.GUARDED pgPair 0).get F.Pair.TAKEOVERS pgPair = _
      rw [State.get_set_off _ (by decide), State.get_set_off _ (by decide)]; unfold setRole; rw [State.get_set_off _ (by decide)]
    rw [h2]
  · rw [State.raise_pair]; rfl
  · rw [State.raise_pair]; rfl

end Sys2Proof.Machine
end

