-- ==== Sys2Proof/Laws/OfPairBeat.lean ====
section
/-! SUPPORT. Lemmas that the statements about its unit: PairBeat rest on. -/

-- One declaration after another: the package is also checked as one text, where too many threads would start at once.
set_option Elab.async false

set_option linter.unusedVariables false
set_option linter.unusedSimpArgs false

namespace Sys2Proof.Machine

/-- Places of the pair page that a heartbeat's path, partner and comparison may change. -/
def beatPlaces : List Nat := [512, 2569, 2570, 2571, 2572, 5504]

/-- The state in which a heartbeat meets the role: the path is up, the partner shown. -/
def BeatMid (b : Beat) (s t : State) : Prop :=
  PairMid beatPlaces s t ∧ t.on (if b.pin then F.Pair.HB_PIN_OK else F.Pair.HB_LANE_OK) pgPair = true ∧ t.get F.Pair.PARTNER_ROLE pgPair = b.role ∧
  (if b.pin then t.pair.pinAt else t.pair.laneAt) = some s.counter ∧ t.pair.partnerMode = b.mode ∧
  t.pair = { s.pair with laneAt := t.pair.laneAt, pinAt := t.pair.pinAt, laneLost := t.pair.laneLost, pinLost := t.pair.pinLost, partnerMode := t.pair.partnerMode,
                         activeAt := t.pair.activeAt, epochSeen := t.pair.epochSeen, cfgSince := t.pair.cfgSince }

/-- Only the comparison of configurations differs. -/
def CfgOnly (s t : State) : Prop := PairMid [512, 2571, 5504] s t ∧ t.pair = { s.pair with cfgSince := t.pair.cfgSince }

theorem cfgCheck_only (c : Option Nat) (s : State) (h : s.pair.join = none ∨ c = none ∨ s.on F.Pair.CFG_MATCH pgPair = false) : CfgOnly s (cfgCheck c s) := by
  have st : ∀ s1 : State, CfgOnly s s1 → ∀ v, CfgOnly s (s1.updPair (fun x => { x with cfgSince := v })) := by
    intro s1 h1 v; refine ⟨h1.1.updPair _, ?_⟩
    rw [State.updPair_pair, h1.2]
  have mt : ∀ s1 : State, CfgOnly s s1 → ∀ v, CfgOnly s (s1.set F.Pair.CFG_MATCH pgPair v) := fun s1 h1 v => ⟨h1.1.set _ _ (by decide), h1.2⟩
  have mts : ∀ (z : State) (c : Bool), CfgOnly s z → CfgOnly s (if c = true then z.set F.Pair.CFG_MATCH pgPair 1 else z) := by
    intro z c h; split
    · exact mt _ h _
    · exact h
  cases c with
  | none =>
    unfold cfgCheck; dsimp only
    rw [if_pos rfl]
    exact mts _ _ (st _ ⟨.refl _ s, rfl⟩ _)
  | some c =>
    have h1 : CfgOnly s (s.set F.Pair.PARTNER_CFG_CRC pgPair c) := ⟨(PairMid.refl _ s).set _ _ (by decide), rfl⟩
    unfold cfgCheck; dsimp only
    generalize s.set F.Pair.PARTNER_CFG_CRC pgPair c = s1 at h1
    split
    · exact mts _ _ (st _ h1 _)
    · split
      · rename_i hm
        have hj : s.pair.join = none := by
          rcases h with h | h | h
          · exact h
          · simp at h
          · rw [h] at hm; simp at hm
        have h2 := mt _ (st s1 h1 none) 0
        have h3 : CfgOnly s ((((s1.updPair (fun x => { x with cfgSince := none })).set F.Pair.CFG_MATCH pgPair 0)).raise Ev.pairCfgMismatch pgPair (arg64 (s1.get F.Pair.PARTNER_CFG_CRC pgPair) s.cfgCrc)) :=
          ⟨h2.1.raise _ _ (by decide), by rw [State.raise_pair]; exact h2.2⟩
        rw [joinFail_none _ _ (by rw [h3.2]; exact hj)]; exact h3
      · exact st _ h1 _

theorem beatMid_spec (b : Beat) (s : State) (hb : b.role < 8) (h : s.pair.join = none ∨ b.cfg = none ∨ s.on F.Pair.CFG_MATCH pgPair = false) :
    ∃ t, BeatMid b s t ∧ ∀ r, r = beat b s → r = mirrorTry (if b.role = 4 then (beatRole b t).updPair (fun x => { x with seen := b.renew }) else beatRole b t) := by
  obtain ⟨f, hf⟩ : ∃ f : Fld, f = if b.pin then F.Pair.HB_PIN_OK else F.Pair.HB_LANE_OK := ⟨_, rfl⟩
  have hf5 : f.stride = 4 ∧ f.off = 0x50 ∧ f.w = 1 ∧ (f.lo = 10 ∨ f.lo = 9) := by rw [hf]; cases b.pin <;> simp <;> decide
  have fp : (f.off + 0 * f.stride) * 32 + f.lo = 2570 ∨ (f.off + 0 * f.stride) * 32 + f.lo = 2569 := by
    rw [hf5.1, hf5.2.1]; rcases hf5.2.2.2 with h | h <;> rw [h]
    · exact .inl rfl
    · exact .inr rfl
  obtain ⟨u1, e1⟩ : ∃ u1 : State, u1 = (s.set f pgPair 1).updPair (fun x => if b.pin = true then { x with pinAt := some s.counter, pinLost := false } else { x with laneAt := some s.counter, laneLost := false }) := ⟨_, rfl⟩
  have p1 : u1.pair = if b.pin = true then { s.pair with pinAt := some s.counter, pinLost := false } else { s.pair with laneAt := some s.counter, laneLost := false } := by rw [e1]; rfl
  have m1 : PairMid beatPlaces s u1 := by
    rw [e1]; exact ((PairMid.refl _ s).set f 1 (by rcases fp with h | h <;> rw [h] <;> decide)).updPair _
  have f1 : u1.on f pgPair = true := by
    unfold State.on; rw [e1]; show ((s.set f pgPair 1).get f pgPair == 1) = true
    rw [State.get_set_self, hf5.2.2.1]; rfl
  obtain ⟨u2, e2⟩ : ∃ u2 : State, u2 = pathUp b.pin s := ⟨_, rfl⟩
  obtain ⟨lost, eu⟩ : ∃ lost : Bool, u2 = if lost = true then u1.raise Ev.pairHbRestored pgPair (bit b.pin) else u1 :=
    ⟨if b.pin = true then s.pair.pinLost else s.pair.laneLost, by rw [e2, e1, hf]; rfl⟩
  have m2 : PairMid beatPlaces s u2 ∧ u2.pair = u1.pair ∧ u2.on f pgPair = true := by
    rw [eu]; split
    · refine ⟨m1.raise _ _ (by decide), State.raise_pair _ _ _ _, ?_⟩
      unfold State.on; rw [State.get_raise_off _ _ (by decide) (by omega) (by rw [hf5.1, hf5.2.1]; decide) (by omega)]; exact f1
    · exact ⟨m1, rfl, f1⟩
  obtain ⟨u3, e3⟩ : ∃ u3 : State, u3 = (u2.set F.Pair.PARTNER_ROLE pgPair b.role).updPair (fun x => { x with partnerMode := b.mode }) := ⟨_, rfl⟩
  have p3 : u3.pair = { u1.pair with partnerMode := b.mode } := by rw [e3, State.updPair_pair, State.set_pair, m2.2.1]
  have m3 : PairMid beatPlaces s u3 ∧ u3.on f pgPair = true ∧ u3.get F.Pair.PARTNER_ROLE pgPair = b.role := by
    rw [e3]; refine ⟨(m2.1.set _ _ (by decide)).updPair _, ?_, ?_⟩
    · unfold State.on; show ((u2.set F.Pair.PARTNER_ROLE pgPair b.role).get f pgPair == 1) = true
      rw [State.get_set_off _ (by have : (F.Pair.PARTNER_ROLE.off + 0 * F.Pair.PARTNER_ROLE.stride) * 32 + F.Pair.PARTNER_ROLE.lo = 2572 := rfl
                                  omega)]; exact m2.2.2
    · show (u2.set F.Pair.PARTNER_ROLE pgPair b.role).get _ _ = _; rw [State.get_set_self]; exact low_of_lt hb
  obtain ⟨u4, e4⟩ : ∃ u4 : State, u4 = if b.role = 4 then u3.updPair (fun x => { x with activeAt := some s.counter, epochSeen := some (b.mark % 2 ^ 14) }) else u3 := ⟨_, rfl⟩
  have m4 : PairMid beatPlaces s u4 ∧ u4.on f pgPair = true ∧ u4.get F.Pair.PARTNER_ROLE pgPair = b.role := by rw [e4]; split <;> exact m3
  have p4 : u4.pair = { u3.pair with activeAt := u4.pair.activeAt, epochSeen := u4.pair.epochSeen } := by rw [e4]; split <;> rfl
  have j4 : u4.pair.join = s.pair.join := by rw [p4, p3, p1]; split <;> rfl
  have c4 := cfgCheck_only b.cfg u4 (by
    rcases h with h | h | h
    · exact .inl (j4.trans h)
    · exact .inr (.inl h)
    · refine .inr (.inr ?_)
      have : u4.on F.Pair.CFG_MATCH pgPair = s.on F.Pair.CFG_MATCH pgPair := by
        rw [e4]; have : u3.on F.Pair.CFG_MATCH pgPair = s.on F.Pair.CFG_MATCH pgPair := by
          have w : u2.on F.Pair.CFG_MATCH pgPair = s.on F.Pair.CFG_MATCH pgPair := by
            have w1 : u1.on F.Pair.CFG_MATCH pgPair = s.on F.Pair.CFG_MATCH pgPair := by
              unfold State.on; rw [e1]; show ((s.set f pgPair 1).get _ _ == 1) = _
              rw [State.get_set_off _ (by have : (F.Pair.CFG_MATCH.off + 0 * F.Pair.CFG_MATCH.stride) * 32 + F.Pair.CFG_MATCH.lo = 2571 := rfl
                                          omega)]
            rw [eu]; split
            · unfold State.on at w1 ⊢; rw [State.get_raise_off _ _ (by decide) (by decide) (by decide) (by decide)]; exact w1
            · exact w1
          unfold State.on at w ⊢; rw [e3]; show ((u2.set F.Pair.PARTNER_ROLE pgPair b.role).get _ _ == 1) = _
          rw [State.get_set_off _ (by decide)]; exact w
        split
        · exact this
        · exact this
      rw [this]; exact h)
  obtain ⟨u5, e5⟩ : ∃ u5 : State, u5 = cfgCheck b.cfg u4 := ⟨_, rfl⟩
  rw [← e5] at c4
  refine ⟨u5, ⟨m4.1.trans (c4.1.mono (by decide)), ?_, ?_, ?_, ?_, ?_⟩, fun r hr => ?_⟩
  · rw [← hf]; unfold State.on
    rw [c4.1.2.2 f (by rw [hf5.1, hf5.2.1]; decide) (by omega) (by rcases fp with h | h <;> rw [h] <;> decide)]; exact m4.2.1
  · rw [c4.1.2.2 _ (by decide) (by decide) (by decide)]; exact m4.2.2
  · rw [c4.2, p4, p3, p1]; cases b.pin <;> rfl
  · rw [c4.2, p4, p3]
  · rw [c4.2, p4, p3, p1]; cases b.pin <;> rfl
  · rw [hr, e5, e4, e3, e2]; rfl

/-- What the role's part of a heartbeat leaves. -/
def BeatKept (m z : State) : Prop :=
  (∀ g : Fld, g.stride = 4 → g.off = 0x50 → 9 ≤ g.lo → g.lo < 32 → z.get g pgPair = m.get g pgPair) ∧
  z.pair.laneAt = m.pair.laneAt ∧ z.pair.pinAt = m.pair.pinAt ∧ z.pair.partnerMode = m.pair.partnerMode ∧ z.pair.mirror = m.pair.mirror

theorem BeatKept.refl (m : State) : BeatKept m m := ⟨fun _ _ _ _ _ => rfl, rfl, rfl, rfl, rfl⟩

theorem BeatKept.trans {m y z : State} (h : BeatKept m y) (g : BeatKept y z) : BeatKept m z :=
  ⟨fun f a b c d => (g.1 f a b c d).trans (h.1 f a b c d), g.2.1.trans h.2.1, g.2.2.1.trans h.2.2.1, g.2.2.2.1.trans h.2.2.2.1, g.2.2.2.2.trans h.2.2.2.2⟩

theorem BeatKept.set {m z : State} (h : BeatKept m z) (f : Fld) (v : Nat) (hf : (f.off + 0 * f.stride) * 32 + f.lo < 2569 ∨ 2592 ≤ (f.off + 0 * f.stride) * 32 + f.lo) : BeatKept m (z.set f pgPair v) :=
  ⟨fun g a b c d => by rw [State.get_set_off _ (by rw [a, b]; omega)]; exact h.1 g a b c d, h.2.1, h.2.2.1, h.2.2.2.1, h.2.2.2.2⟩

theorem BeatKept.upd {m z : State} (h : BeatKept m z) (f : PairX → PairX) (hf : ∀ x, (f x).laneAt = x.laneAt ∧ (f x).pinAt = x.pinAt ∧ (f x).partnerMode = x.partnerMode ∧ (f x).mirror = x.mirror) : BeatKept m (z.updPair f) := by
  obtain ⟨a, b, c, d⟩ := hf z.pair
  refine ⟨h.1, ?_, ?_, ?_, ?_⟩ <;> rw [State.updPair_pair]
  · exact a.trans h.2.1
  · exact b.trans h.2.2.1
  · exact c.trans h.2.2.2.1
  · exact d.trans h.2.2.2.2

theorem BeatKept.raise {m z : State} (h : BeatKept m z) (e : Ev) (a : Nat) : BeatKept m (z.raise e pgPair a) := by
  refine ⟨fun g x y c d => ?_, ?_, ?_, ?_, ?_⟩
  · rw [State.get_raise_off _ _ (by decide) (by rw [x, y]; omega) (by rw [x, y]; decide) d]; exact h.1 g x y c d
  all_goals rw [State.raise_pair]
  · exact h.2.1
  · exact h.2.2.1
  · exact h.2.2.2.1
  · exact h.2.2.2.2

theorem BeatKept.sends {m z u : State} (h : BeatKept m z) (g : Sends z u) : BeatKept m u := by
  refine ⟨fun f a b c d => by rw [g.get]; exact h.1 f a b c d, ?_, ?_, ?_, ?_⟩ <;> rw [g.2]
  · exact h.2.1
  · exact h.2.2.1
  · exact h.2.2.2.1
  · exact h.2.2.2.2

theorem fence_kept {c : Nat} (hc : c < 8) (m : State) (h : m.role = 4) : BeatKept m (fence c m) := by
  obtain ⟨_, _, _, _, _, _, a, b, d, e, _, g⟩ := fence_spec hc m h
  exact ⟨fun f x y z w => g f x y w (by omega) (by omega) (by omega), b, d, e, a⟩

theorem mirrorTry_nil (z : State) (h : z.pair.mirror = []) : mirrorTry z = z := by
  unfold mirrorTry; split
  · rw [h]; rfl
  · rfl

theorem joinRestart_idle (z : State) (h : ∀ j, z.pair.join = some j → j.good = false ∨ j.ended = true) : joinRestart z = z := by
  unfold joinRestart
  rcases hj : z.pair.join with _ | j
  · rfl
  · dsimp only; rw [if_neg]
    rcases h j hj with h | h <;> simp [h]

theorem acknowledge_spec (b : Beat) (z : State) : BeatKept z (acknowledge b z) ∧ (acknowledge b z).role = z.role ∧ (acknowledge b z).pair.join = z.pair.join ∧
    (z.role = 3 → b.role = 4 → b.renew ≠ z.pair.seen → (acknowledge b z).get F.Pair.ACK_SEQ pgPair = low 8 b.renew ∧ (acknowledge b z).pair.view = some (z.counter + 550000)) := by
  by_cases hc : z.role = 3 ∧ b.role = 4 ∧ b.renew ≠ z.pair.seen
  · obtain ⟨w, hw⟩ : ∃ w : State, w = (z.set F.Pair.ACK_SEQ pgPair b.renew).updPair (fun x => { x with view := some (z.counter + leaseLen + leaseGuard) }) := ⟨_, rfl⟩
    have e : acknowledge b z = sendHeartbeat w := by unfold acknowledge; rw [if_pos hc, hw]
    have sd := sendHeartbeat_sends w
    have kw : BeatKept z w := by rw [hw]; exact ((BeatKept.refl z).set _ _ (.inr (by decide))).upd _ fun _ => ⟨rfl, rfl, rfl, rfl⟩
    have pw : w.pair = { z.pair with view := some (z.counter + leaseLen + leaseGuard) } := by rw [hw]; rfl
    have gw : ∀ g, w.get g pgPair = (z.set F.Pair.ACK_SEQ pgPair b.renew).get g pgPair := fun g => by rw [hw]; rfl
    rw [e]
    refine ⟨kw.sends sd, ?_, ?_, fun _ _ _ => ⟨?_, ?_⟩⟩
    · unfold State.role; rw [sd.get, gw, State.get_set_off _ (by decide)]
    · rw [sd.2, pw]
    · rw [sd.get, gw, State.get_set_self]; rfl
    · rw [sd.2, pw]; dsimp only; rw [Nat.add_assoc]; rfl
  · have e : acknowledge b z = z := by unfold acknowledge; rw [if_neg hc]
    rw [e]; exact ⟨.refl z, rfl, rfl, fun a b c => absurd ⟨a, b, c⟩ hc⟩

theorem becomeStandby_spec (z : State) : BeatKept z (becomeStandby z) ∧ (becomeStandby z).role = 3 ∧ (becomeStandby z).pair.join = none := by
  obtain ⟨w, hw⟩ : ∃ w : State, w = (setRole 3 z).updPair (fun x => { x with entered := z.counter, view := none, sbReady := false, join := none }) := ⟨_, rfl⟩
  have kw : BeatKept z w := by rw [hw]; unfold setRole; exact ((BeatKept.refl z).set _ _ (.inl (by decide))).upd _ fun _ => ⟨rfl, rfl, rfl, rfl⟩
  have rw_ : w.role = 3 := by rw [hw]; unfold State.role; show (setRole 3 z).get _ _ = 3; unfold setRole; rw [State.get_set_self]; rfl
  have jw : w.pair.join = none := by rw [hw]; rfl
  have e : becomeStandby z = if z.role = 2 then (w.set F.Pair.SNAP_STATUS_STATE pgPair 0).raise Ev.pairJoined pgPair (arg64 (z.get F.Pair.JOIN_FOLIO pgPair) 0) else w := by rw [hw]; rfl
  rw [e]; split
  · refine ⟨(kw.set _ _ (.inr (by decide))).raise _ _, ?_, ?_⟩
    · unfold State.role at rw_ ⊢; rw [State.get_raise_off _ _ (by decide) (by decide) (by decide) (by decide), State.get_set_off _ (by decide)]; exact rw_
    · rw [State.raise_pair]; exact jw
  · exact ⟨kw, rw_, jw⟩

/-- A heartbeat at an ACTIVE part (R500, R501). -/
theorem activeBeat_spec (b : Beat) (z : State) : BeatKept z (activeBeat b z) ∧ (activeBeat b z).role = z.role ∧
    (b.sb = true → b.role ≠ 4 → z.on F.Pair.GUARDED pgPair = false → (activeBeat b z).on F.Pair.GUARDED pgPair = true ∧ (activeBeat b z).pair.expiry = some (z.counter + 500000)) ∧
    (b.role ≠ 3 → (b.sb = false ∨ b.role = 4) → (activeBeat b z).on F.Pair.GUARDED pgPair = false) ∧
    (z.on F.Pair.GUARDED pgPair = true → b.role = 3 → (activeBeat b z).on F.Pair.GUARDED pgPair = true ∧ (activeBeat b z).pair.expiry =
      (if z.pair.renewAck = false ∧ b.ack = z.get F.Pair.RENEW_SEQ pgPair then some (z.pair.renewT + 500000) else z.pair.expiry)) := by
  have gs : ∀ v < 2, ∀ f, ((z.set F.Pair.GUARDED pgPair v).updPair f).on F.Pair.GUARDED pgPair = decide (v = 1) := by
    intro v hv f; unfold State.on; show ((z.set F.Pair.GUARDED pgPair v).get _ _ == 1) = _
    rw [State.get_set_self, low_of_lt (by exact hv)]; rfl
  have rs : ∀ v f, ((z.set F.Pair.GUARDED pgPair v).updPair f).role = z.role := by
    intro v f; unfold State.role; show (z.set F.Pair.GUARDED pgPair v).get _ _ = _; rw [State.get_set_off _ (by decide)]
  unfold activeBeat; dsimp only
  by_cases h1 : ((b.sb && b.role != 4) && !z.on F.Pair.GUARDED pgPair) = true
  · rw [if_pos h1]
    simp only [Bool.and_eq_true, bne_iff_ne, ne_eq, Bool.not_eq_true'] at h1
    refine ⟨((BeatKept.refl z).set _ _ (.inl (by decide))).upd _ fun _ => ⟨rfl, rfl, rfl, rfl⟩, rs _ _, fun _ _ _ => ⟨gs 1 (by decide) _, rfl⟩, fun _ h => ?_, fun h => ?_⟩
    · rcases h with h | h
      · rw [h] at h1; simp at h1
      · exact absurd h h1.1.2
    · rw [h] at h1; simp at h1
  · rw [if_neg h1]
    by_cases h2 : b.role ≠ 3 ∧ (!(b.sb && b.role != 4)) = true ∧ z.on F.Pair.GUARDED pgPair = true
    · rw [if_pos h2]
      refine ⟨((BeatKept.refl z).set _ _ (.inl (by decide))).upd _ fun _ => ⟨rfl, rfl, rfl, rfl⟩, rs _ _, fun _ _ h => ?_, fun _ _ => gs 0 (by decide) _, fun _ h => absurd h h2.1⟩
      rw [h] at h2; simp at h2
    · rw [if_neg h2]
      have u : b.sb = true → b.role ≠ 4 → z.on F.Pair.GUARDED pgPair = false → False := fun a b c => h1 (by simp [a, b, c])
      have d : b.role ≠ 3 → (b.sb = false ∨ b.role = 4) → z.on F.Pair.GUARDED pgPair = false := by
        intro a c
        cases hg : z.on F.Pair.GUARDED pgPair with
        | false => rfl
        | true => exact absurd ⟨a, by rcases c with c | c <;> simp [c], hg⟩ h2
      by_cases h3 : ((z.on F.Pair.GUARDED pgPair && !z.pair.renewAck) && b.ack == z.get F.Pair.RENEW_SEQ pgPair) = true
      · rw [if_pos h3]
        simp only [Bool.and_eq_true, Bool.not_eq_true', beq_iff_eq] at h3
        refine ⟨(BeatKept.refl z).upd _ fun _ => ⟨rfl, rfl, rfl, rfl⟩, rfl, fun a b c => (u a b c).elim, d, fun hg _ => ⟨hg, ?_⟩⟩
        rw [if_pos ⟨h3.1.2, h3.2⟩]; rfl
      · rw [if_neg h3]
        refine ⟨.refl z, rfl, fun a b c => (u a b c).elim, d, fun hg _ => ⟨hg, ?_⟩⟩
        rw [if_neg]; rintro ⟨a, c⟩; exact h3 (by simp [hg, a, c])

/-- What a heartbeat's mid state shares with the state before. -/
theorem BeatMid.facts {b : Beat} {s m : State} (h : BeatMid b s m) : m.role = s.role ∧ m.pairOn = s.pairOn ∧ m.on F.Pair.GUARDED pgPair = s.on F.Pair.GUARDED pgPair ∧
    m.get F.Pair.RENEW_SEQ pgPair = s.get F.Pair.RENEW_SEQ pgPair ∧ m.counter = s.counter ∧ m.leaseOver = s.leaseOver ∧ m.outranked b = s.outranked b ∧
    m.on F.Pair.AUTO_REJOIN pgPair = s.on F.Pair.AUTO_REJOIN pgPair := by
  have e : m.pair.expiry = s.pair.expiry := by rw [h.2.2.2.2.2]
  have g1 := h.1.2.2 F.Pair.ROLE (by decide) (by decide) (by decide)
  have g2 := h.1.2.2 F.Hdr.READY (by decide) (by decide) (by decide)
  have g3 := h.1.2.2 F.Hdr.ENABLE (by decide) (by decide) (by decide)
  have g4 := h.1.2.2 F.Pair.GUARDED (by decide) (by decide) (by decide)
  have g5 := h.1.2.2 F.Pair.RENEW_SEQ (by decide) (by decide) (by decide)
  have g6 := h.1.2.2 F.Pair.EPOCH (by decide) (by decide) (by decide)
  have g7 := h.1.2.2 F.Pair.SIDE (by decide) (by decide) (by decide)
  have g8 := h.1.2.2 F.Pair.AUTO_REJOIN (by decide) (by decide) (by decide)
  refine ⟨g1, ?_, ?_, g5, h.1.counter, ?_, ?_, ?_⟩
  · unfold State.pairOn State.ready State.on; rw [g2, g3]
  · unfold State.on; rw [g4]
  · unfold State.leaseOver State.role State.on; rw [g1, g4, e, h.1.counter]
  · unfold State.outranked State.on; rw [g6, g7]
  · unfold State.on; rw [g8]

theorem beat_spec (b : Beat) (s : State) (hb : b.role < 8) (hn : b.renew < 256) (hm : s.pair.mirror = []) (hj : ∀ j, s.pair.join = some j → j.good = false ∨ j.ended = true)
    (ha : s.role = 1 → s.on F.Pair.AUTO_REJOIN pgPair = false) (hc : s.pair.join = none ∨ b.cfg = none ∨ s.on F.Pair.CFG_MATCH pgPair = false) :
    ∃ t, beat b s = t ∧ t.on (if b.pin then F.Pair.HB_PIN_OK else F.Pair.HB_LANE_OK) pgPair = true ∧
        (if b.pin then t.pair.pinAt else t.pair.laneAt) = some s.counter ∧ t.get F.Pair.PARTNER_ROLE pgPair = b.role ∧ t.pair.partnerMode = b.mode ∧
        (s.pairOn = false ∨ s.role = 0 ∨ s.role = 5 → t.role = s.role) ∧
        (s.pairOn = true → s.role = 4 → s.leaseOver = true → t.role = 5 ∧ t.get F.Pair.FENCE_CAUSE pgPair = 1) ∧
        (s.pairOn = true → s.role = 4 → s.leaseOver = false → s.outranked b = true → t.role = 5 ∧ t.get F.Pair.FENCE_CAUSE pgPair = 7) ∧
        (s.pairOn = true → s.role = 4 → s.leaseOver = false → s.outranked b = false → t.role = 4 ∧
          (b.sb = true → b.role ≠ 4 → s.on F.Pair.GUARDED pgPair = false → t.on F.Pair.GUARDED pgPair = true ∧ t.pair.expiry = some (s.counter + 500000)) ∧
          (b.role ≠ 3 → (b.sb = false ∨ b.role = 4) → t.on F.Pair.GUARDED pgPair = false) ∧
          (s.on F.Pair.GUARDED pgPair = true → b.role = 3 → t.on F.Pair.GUARDED pgPair = true ∧ t.pair.expiry =
            (if s.pair.renewAck = false ∧ b.ack = s.get F.Pair.RENEW_SEQ pgPair then some (s.pair.renewT + 500000) else s.pair.expiry))) ∧
        (s.pairOn = true → s.role = 3 → t.role = 3 ∧ (b.role = 4 → b.renew ≠ s.pair.seen →
          t.get F.Pair.ACK_SEQ pgPair = b.renew ∧ t.pair.view = some (s.counter + 550000))) ∧
        (s.pairOn = true → s.role = 2 → b.role = 4 → b.sb = true → s.pair.sbReady = true → t.role = 3 ∧ t.pair.join = none) := by
  obtain ⟨m, hmid, hr⟩ := beatMid_spec b s hb hc
  obtain ⟨k1, k2, k3, k4, k5, k6, k7, k8⟩ := hmid.facts
  have pm := hmid.2.2.2.2.2
  have mm : m.pair.mirror = [] := by rw [pm]; exact hm
  have mj : m.pair.join = s.pair.join := by rw [pm]
  have ms : m.pair.seen = s.pair.seen := by rw [pm]
  have mb : m.pair.sbReady = s.pair.sbReady := by rw [pm]
  have me : m.pair.expiry = s.pair.expiry := by rw [pm]
  have mt : m.pair.renewT = s.pair.renewT ∧ m.pair.renewAck = s.pair.renewAck := by rw [pm]; exact ⟨rfl, rfl⟩
  obtain ⟨z, hz⟩ : ∃ z, z = beatRole b m := ⟨_, rfl⟩
  -- from facts about the state after the role's part to the end
  have fin : BeatKept m z → ∃ t, beat b s = t ∧ t.on (if b.pin then F.Pair.HB_PIN_OK else F.Pair.HB_LANE_OK) pgPair = true ∧
        (if b.pin then t.pair.pinAt else t.pair.laneAt) = some s.counter ∧ t.get F.Pair.PARTNER_ROLE pgPair = b.role ∧ t.pair.partnerMode = b.mode ∧
        (∀ g, t.get g pgPair = z.get g pgPair) ∧ t.pair.expiry = z.pair.expiry ∧ t.pair.view = z.pair.view ∧ t.pair.join = z.pair.join := by
    intro k
    have key : ∀ t : State, (t = z ∨ t = z.updPair (fun x => { x with seen := b.renew })) → t.pair.mirror = [] ∧ t.on (if b.pin then F.Pair.HB_PIN_OK else F.Pair.HB_LANE_OK) pgPair = true ∧
        (if b.pin then t.pair.pinAt else t.pair.laneAt) = some s.counter ∧ t.get F.Pair.PARTNER_ROLE pgPair = b.role ∧ t.pair.partnerMode = b.mode ∧
        (∀ g, t.get g pgPair = z.get g pgPair) ∧ t.pair.expiry = z.pair.expiry ∧ t.pair.view = z.pair.view ∧ t.pair.join = z.pair.join := by
      have base : z.pair.mirror = [] ∧ z.on (if b.pin then F.Pair.HB_PIN_OK else F.Pair.HB_LANE_OK) pgPair = true ∧
        (if b.pin then z.pair.pinAt else z.pair.laneAt) = some s.counter ∧ z.get F.Pair.PARTNER_ROLE pgPair = b.role ∧ z.pair.partnerMode = b.mode := by
        refine ⟨k.2.2.2.2.trans mm, ?_, ?_, ?_, k.2.2.2.1.trans hmid.2.2.2.2.1⟩
        · have := hmid.2.1; unfold State.on at this ⊢
          rw [k.1 _ (by split <;> rfl) (by split <;> rfl) (by split <;> decide) (by split <;> decide)]; exact this
        · rw [k.2.1, k.2.2.1]; exact hmid.2.2.2.1
        · rw [k.1 _ rfl rfl (by decide) (by decide)]; exact hmid.2.2.1
      intro t ht
      rcases ht with rfl | rfl
      · exact ⟨base.1, base.2.1, base.2.2.1, base.2.2.2.1, base.2.2.2.2, fun _ => rfl, rfl, rfl, rfl⟩
      · exact ⟨base.1, base.2.1, base.2.2.1, base.2.2.2.1, base.2.2.2.2, fun _ => rfl, rfl, rfl, rfl⟩
    have er := hr _ rfl
    rw [← hz] at er
    by_cases h4 : b.role = 4
    · rw [if_pos h4] at er
      obtain ⟨x1, x⟩ := key _ (.inr rfl)
      exact ⟨_, er.trans (mirrorTry_nil _ x1), x⟩
    · rw [if_neg h4] at er
      obtain ⟨x1, x⟩ := key _ (.inl rfl)
      exact ⟨_, er.trans (mirrorTry_nil _ x1), x⟩
  by_cases hon : s.pairOn = true
  · have hon' : (!m.pairOn) = true → False := by rw [k2, hon]; simp
    by_cases h4 : s.role = 4
    · have m4 : m.role = 4 := k1.trans h4
      by_cases hl : s.leaseOver = true
      · have ez : z = fence 1 m := by rw [hz]; unfold beatRole; rw [if_neg hon', if_pos m4, if_pos (k6.trans hl)]
        obtain ⟨a, c, _⟩ := fence_spec (c := 1) (by decide) m m4
        obtain ⟨t, t1, t2, t3, t4, t5, t6, t7, t8, t9⟩ := fin (by rw [ez]; exact fence_kept (by decide) m m4)
        refine ⟨t, t1, t2, t3, t4, t5, fun h => ?_, fun _ _ _ => ⟨?_, ?_⟩, fun _ _ h => absurd hl (by simp [h]), fun _ _ h => absurd hl (by simp [h]), fun _ h => ?_, fun _ h => ?_⟩
        · rw [hon] at h; simp at h; omega
        · unfold State.role; rw [t6, ez]; exact a
        · rw [t6, ez]; exact c
        · omega
        · omega
      · have hl' : s.leaseOver = false := by simpa using hl
        by_cases ho : s.outranked b = true
        · have ez : z = fence 7 m := by rw [hz]; unfold beatRole; rw [if_neg hon', if_pos m4, if_neg (by rw [k6]; exact hl), if_pos (k7.trans ho)]
          obtain ⟨a, c, _⟩ := fence_spec (c := 7) (by decide) m m4
          obtain ⟨t, t1, t2, t3, t4, t5, t6, t7, t8, t9⟩ := fin (by rw [ez]; exact fence_kept (by decide) m m4)
          refine ⟨t, t1, t2, t3, t4, t5, fun h => ?_, fun _ _ h => absurd h hl, fun _ _ _ _ => ⟨?_, ?_⟩, fun _ _ _ h => absurd ho (by simp [h]), fun _ h => ?_, fun _ h => ?_⟩
          · rw [hon] at h; simp at h; omega
          · unfold State.role; rw [t6, ez]; exact a
          · rw [t6, ez]; exact c
          · omega
          · omega
        · have ez : z = activeBeat b m := by rw [hz]; unfold beatRole; rw [if_neg hon', if_pos m4, if_neg (by rw [k6]; exact hl), if_neg (by rw [k7]; exact ho)]
          obtain ⟨a0, a1, a2, a3, a4⟩ := activeBeat_spec b m
          obtain ⟨t, t1, t2, t3, t4, t5, t6, t7, t8, t9⟩ := fin (by rw [ez]; exact a0)
          have tg : t.on F.Pair.GUARDED pgPair = (activeBeat b m).on F.Pair.GUARDED pgPair := by unfold State.on; rw [t6, ez]
          refine ⟨t, t1, t2, t3, t4, t5, fun h => ?_, fun _ _ h => absurd h hl, fun _ _ _ h => absurd h ho, fun _ _ _ _ => ⟨?_, fun x y w => ?_, fun x y => ?_, fun x y => ?_⟩, fun _ h => ?_, fun _ h => ?_⟩
          · rw [hon] at h; simp at h; omega
          · unfold State.role at a1 ⊢; rw [t6, ez, a1]; exact m4
          · rw [tg, t7, ez, ← k5]; exact a2 x y (k3.trans w)
          · rw [tg]; exact a3 x y
          · rw [tg, t7, ez]
            have := a4 (k3.trans x) y
            rw [mt.1, mt.2, k4, me] at this; exact this
          · omega
          · omega
    · have jr : joinRestart m = m := joinRestart_idle m (by rw [mj]; exact hj)
      obtain ⟨y, hy⟩ : ∃ y : State, y = if m.role = 1 then autoJoin (m.updPair (fun x => { x with sbReady := m.firstStart })) else m := ⟨_, rfl⟩
      have ez0 : z = acknowledge b (if (y.role = 1 ∨ y.role = 2) ∧ y.pair.sbReady = true ∧ b.role = 4 ∧ b.sb = true then becomeStandby y else y) := by
        rw [hz, hy]; unfold beatRole; rw [if_neg hon', if_neg (by rw [k1]; exact h4)]; dsimp only; rw [jr]
      have ky : BeatKept m y ∧ y.role = m.role ∧ (m.role ≠ 1 → y = m) := by
        rw [hy]; split
        · rename_i h1
          have : autoJoin (m.updPair (fun x => { x with sbReady := m.firstStart })) = m.updPair (fun x => { x with sbReady := m.firstStart }) := by
            unfold autoJoin; rw [if_neg]
            have : (m.updPair (fun x => { x with sbReady := m.firstStart })).on F.Pair.AUTO_REJOIN pgPair = false := (show _ = m.on F.Pair.AUTO_REJOIN pgPair from rfl).trans (k8.trans (ha (k1.symm.trans h1)))
            rw [this]; simp
          rw [this]; exact ⟨(BeatKept.refl m).upd _ fun _ => ⟨rfl, rfl, rfl, rfl⟩, rfl, fun h => absurd h1 h⟩
        · exact ⟨.refl m, rfl, fun _ => rfl⟩
      obtain ⟨w, hw⟩ : ∃ w : State, w = if (y.role = 1 ∨ y.role = 2) ∧ y.pair.sbReady = true ∧ b.role = 4 ∧ b.sb = true then becomeStandby y else y := ⟨_, rfl⟩
      have ez : z = acknowledge b w := by rw [ez0, hw]
      obtain ⟨a1, a2, a3, a4⟩ := acknowledge_spec b w
      obtain ⟨b1, b2, b3⟩ := becomeStandby_spec y
      have kw : BeatKept m w := by
        rw [hw]; split
        · exact ky.1.trans b1
        · exact ky.1
      have wn : ¬ (s.role = 1 ∨ s.role = 2) → w = m := by
        intro h
        have h1 : m.role ≠ 1 := by rw [k1]; omega
        rw [hw, if_neg (by rw [ky.2.1, k1]; exact fun x => h x.1)]; exact ky.2.2 h1
      obtain ⟨t, t1, t2, t3, t4, t5, t6, t7, t8, t9⟩ := fin (by rw [ez]; exact kw.trans a1)
      have tr : t.role = w.role := by unfold State.role at a2 ⊢; rw [t6, ez, a2]
      refine ⟨t, t1, t2, t3, t4, t5, fun h => ?_, fun _ h => absurd h h4, fun _ h => absurd h h4, fun _ h => absurd h h4, fun _ h3 => ⟨?_, fun h5 h6 => ?_⟩, fun _ h2 h5 h6 h7 => ?_⟩
      · have : ¬ (s.role = 1 ∨ s.role = 2) := by rw [hon] at h; simp at h; omega
        rw [tr, wn this, k1]
      · rw [tr, wn (by omega), k1]; exact h3
      · have := a4 (by rw [wn (by omega), k1]; exact h3) h5 (by rw [wn (by omega), ms]; exact h6)
        rw [t6, t8, ez, this.1, this.2, wn (by omega), k5]; exact ⟨low_of_lt hn, rfl⟩
      · have hy2 : y = m := ky.2.2 (by rw [k1]; omega)
        have hw2 : w = becomeStandby y := by rw [hw, if_pos ⟨by rw [ky.2.1, k1]; exact .inr h2, by rw [hy2, mb]; exact h7, h5, h6⟩]
        rw [tr, t9, ez, a3, hw2]; exact ⟨b2, b3⟩
  · have hon' : s.pairOn = false := by simpa using hon
    have ez : z = m := by rw [hz]; unfold beatRole; rw [if_pos (by rw [k2, hon']; rfl)]
    obtain ⟨t, t1, t2, t3, t4, t5, t6, t7, t8, t9⟩ := fin (by rw [ez]; exact .refl m)
    refine ⟨t, t1, t2, t3, t4, t5, fun _ => ?_, fun h => absurd h hon, fun h => absurd h hon, fun h => absurd h hon, fun h => absurd h hon, fun h => absurd h hon⟩
    unfold State.role; rw [t6, ez]; exact k1

theorem le_one_lt (m : Msg) (o : Nat) : m.le o 1 < 256 := by
  unfold Msg.le; simp only [List.range_one, List.foldl_cons, List.foldl_nil]
  have := (m.body.getD (o + 0) 0).isLt; omega

end Sys2Proof.Machine
end

