-- ==== Sys2Proof/Laws/OfPairCompare.lean ====
section
/-! SUPPORT. Lemmas that the statements about its unit: PairCompare rest on. -/

-- One declaration after another: the package is also checked as one text, where too many threads would start at once.
set_option Elab.async false

set_option linter.unusedVariables false
set_option linter.unusedSimpArgs false

namespace Sys2Proof.Machine

theorem joinReady_cases (z : State) : joinReady z = z ∨ joinReady z = z.updPair (fun x => { x with sbReady := true }) := by
  unfold joinReady; split
  · split
    · exact .inr rfl
    · exact .inl rfl
  · exact .inl rfl

theorem joinReady_spec (z : State) : (joinReady z).regs = z.regs ∧ (joinReady z).pair.own = z.pair.own ∧ (joinReady z).pair.peer = z.pair.peer := by
  rcases joinReady_cases z with h | h <;> rw [h] <;> exact ⟨rfl, rfl, rfl⟩

theorem get_of_regs {s t : State} (h : t.regs = s.regs) (f : Fld) (pg : Nat) : t.get f pg = s.get f pg := by unfold State.get State.getI; rw [h]

theorem joinFail_spec (r : Nat) (z : State) : PairMid [512, 2560, 5022] z (joinFail r z) ∧ (joinFail r z).pair.own = z.pair.own ∧
    (∀ b < 32, bitAt (z.get F.Hdr.EVENT_STATUS pgPair) b = true → bitAt ((joinFail r z).get F.Hdr.EVENT_STATUS pgPair) b = true) := by
  unfold joinFail; dsimp only; split
  · refine ⟨?_, by rw [State.raise_pair]; rfl, fun b hb h => ?_⟩
    · unfold setRole
      exact ((((PairMid.refl _ z).set F.Pair.ROLE 1 (by decide)).set F.Pair.SNAP_STATUS_STATE 0 (by decide)).updPair _).raise _ _ (by decide)
    · rw [State.raise_status _ _ _ _ (by decide), bitAt_low hb, bitAt_setBit]
      have : (((setRole 1 z).set F.Pair.SNAP_STATUS_STATE pgPair 0).updPair (fun x => { x with join := none, sbReady := false, retryAt := some (z.counter + 500000000) })).get F.Hdr.EVENT_STATUS pgPair = z.get F.Hdr.EVENT_STATUS pgPair := by
        show ((setRole 1 z).set F.Pair.SNAP_STATUS_STATE pgPair 0).get _ _ = _
        unfold setRole; rw [State.get_set_off _ (by decide), State.get_set_off _ (by decide)]
      rw [this, h]; rfl
  · exact ⟨.refl _ z, rfl, fun _ _ h => h⟩

/-- Two CRCs of one line (R495). -/
theorem lineCrcIn_found (p n l c : Nat) (v : State) (e : Nat × Nat × Nat) (he : (tget v.pair.own p []).find? (fun e => e.1 == n && e.2.1 == l) = some e) :
    lineCrcIn false p n l c v = joinReady (lineCompare p n l (e.2.2 == c)
      (v.updPair (fun x => { x with own := tput x.own p ((tget v.pair.own p []).filter (fun e => !(e.1 == n && e.2.1 == l))) }))) := by
  unfold lineCrcIn
  simp only [Bool.false_eq_true, if_false, Bool.not_false, if_true]
  rw [he]

theorem lineCrcIn_none (p n l c : Nat) (v : State) (he : (tget v.pair.own p []).find? (fun e => e.1 == n && e.2.1 == l) = none) :
    lineCrcIn false p n l c v = if (tget v.pair.peer p [] ++ [(n, l, c)]).length ≤ 64
      then v.updPair (fun x => { x with peer := tput x.peer p (tget v.pair.peer p [] ++ [(n, l, c)]) })
      else (v.updPair (fun x => { x with peer := tput x.peer p ((tget v.pair.peer p [] ++ [(n, l, c)]).drop 1) })).satI F.Pair.UNMATCHED_LINES pgPair 0 1 := by
  unfold lineCrcIn
  simp only [Bool.false_eq_true, if_false]
  rw [he]

theorem lineCompare_same (p n l : Nat) (z : State) : (lineCompare p n l true z).regs = z.regs ∧ (lineCompare p n l true z).pair.own = z.pair.own := by
  unfold lineCompare; rw [if_pos rfl]; repeat' split
  all_goals exact ⟨rfl, rfl⟩

theorem lineCompare_differ (p n l : Nat) (z : State) (hp : p < 64) (hn : n < 2 ^ 32) (hl : l < 2 ^ 24) : ∃ t, lineCompare p n l false z = t ∧ t.pair.own = z.pair.own ∧
    t.get F.Pair.DIVERGED_LINES pgPair = low 32 (min (z.get F.Pair.DIVERGED_LINES pgPair + 1) (2 ^ 32 - 1)) ∧
    t.get F.Pair.LAST_DIV_FOLIO pgPair = n ∧ t.get F.Pair.PORT pgPair = p ∧ t.get F.Pair.LINE pgPair = l ∧
    bitAt (t.get F.Hdr.EVENT_STATUS pgPair) Ev.pairDiverged.bit = true := by
  obtain ⟨f, hf⟩ : ∃ f : Fld, f = if p < 32 then F.Pair.DIVERGED_PORTS_LO else F.Pair.DIVERGED_PORTS_HI := ⟨_, rfl⟩
  have hf5 : f = F.Pair.DIVERGED_PORTS_LO ∨ f = F.Pair.DIVERGED_PORTS_HI := by rw [hf]; split <;> simp
  obtain ⟨s1, e1⟩ : ∃ s1 : State, s1 = (z.sat F.Pair.DIVERGED_LINES pgPair).set f pgPair (setBit (z.get f pgPair) (p % 32)) := ⟨_, rfl⟩
  obtain ⟨s2, e2⟩ : ∃ s2 : State, s2 = ((s1.set F.Pair.LAST_DIV_FOLIO pgPair n).set F.Pair.PORT pgPair p).set F.Pair.LINE pgPair l := ⟨_, rfl⟩
  obtain ⟨s3, e3⟩ : ∃ s3 : State, s3 = s2.raise Ev.pairDiverged pgPair (arg64 n (low 24 l * 256 + p)) := ⟨_, rfl⟩
  have ec : lineCompare p n l false z = s3 ∨ lineCompare p n l false z = joinFail 4 s3 := by
    unfold lineCompare; rw [if_neg (by simp)]; dsimp only; rw [← hf, ← e1, ← e2, ← e3]
    have br : ∀ c : Bool, (if c = true then joinFail 4 s3 else s3) = s3 ∨ (if c = true then joinFail 4 s3 else s3) = joinFail 4 s3 := by
      intro c; cases c
      · exact .inl rfl
      · exact .inr rfl
    exact br _
  have a1 : s3.get F.Pair.DIVERGED_LINES pgPair = low 32 (min (z.get F.Pair.DIVERGED_LINES pgPair + 1) (2 ^ 32 - 1)) := by
    rw [e3, State.get_raise_off _ _ (by decide) (by decide) (by decide) (by decide), e2, State.get_set_off _ (by decide), State.get_set_off _ (by decide), State.get_set_off _ (by decide), e1]
    rw [State.get_set_off _ (by rcases hf5 with h | h <;> rw [h] <;> decide), sat_self]; rfl
  have a2 : s3.get F.Pair.LAST_DIV_FOLIO pgPair = n := by
    rw [e3, State.get_raise_off _ _ (by decide) (by decide) (by decide) (by decide), e2, State.get_set_off _ (by decide), State.get_set_off _ (by decide), State.get_set_self]; exact low_of_lt hn
  have a3 : s3.get F.Pair.PORT pgPair = p := by
    rw [e3, State.get_raise_off _ _ (by decide) (by decide) (by decide) (by decide), e2, State.get_set_off _ (by decide), State.get_set_self]; exact low_of_lt hp
  have a4 : s3.get F.Pair.LINE pgPair = l := by
    rw [e3, State.get_raise_off _ _ (by decide) (by decide) (by decide) (by decide), e2, State.get_set_self]; exact low_of_lt hl
  have a5 : bitAt (s3.get F.Hdr.EVENT_STATUS pgPair) Ev.pairDiverged.bit = true := by rw [e3]; exact State.raise_bit _ _ _ (by decide) (by decide)
  have a6 : s3.pair.own = z.pair.own := by rw [e3, State.raise_pair, e2, e1]; rfl
  rcases ec with h | h
  · exact ⟨s3, h, a6, a1, a2, a3, a4, a5⟩
  · obtain ⟨j1, j2, j3⟩ := joinFail_spec 4 s3
    refine ⟨_, h, j2.trans a6, ?_, ?_, ?_, ?_, j3 _ (by decide) a5⟩
    · rw [j1.2.2 _ (by decide) (by decide) (by decide)]; exact a1
    · rw [j1.2.2 _ (by decide) (by decide) (by decide)]; exact a2
    · rw [j1.2.2 _ (by decide) (by decide) (by decide)]; exact a3
    · rw [j1.2.2 _ (by decide) (by decide) (by decide)]; exact a4

/-- COUNT_OFFSET of a channel. -/
def offNow (s : State) (ch : Nat) : Nat := s.get2 F.Pair.COUNT_OFFSET_LO F.Pair.COUNT_OFFSET_HI pgPair ch

/-- What one sample does to its channel (R507). -/
def OffSample (k : Int) (seq : Nat) (o u : OffsetX) (was now : Nat) (slip : Bool) : Prop :=
  (o.set = false → u = { set := true } ∧ now = unsext 48 k) ∧
  (o.set = true → unsext 48 k = was → u = { o with differed := none } ∧ now = was) ∧
  (o.set = true → unsext 48 k ≠ was → o.differed = some ((seq + 255) % 256) → u = { o with differed := none } ∧ now = unsext 48 k ∧ slip = true) ∧
  (o.set = true → unsext 48 k ≠ was → o.differed ≠ some ((seq + 255) % 256) → u = { o with differed := some seq } ∧ now = was)

/-- A step that concerns one channel's offset only. -/
def OffOne (ch : Nat) (s t : State) : Prop :=
  (∀ i < 4, i ≠ ch → tget t.pair.offs i {} = tget s.pair.offs i {} ∧ offNow t i = offNow s i) ∧
  (∀ b < 32, bitAt (s.get F.Hdr.EVENT_STATUS pgPair) b = true → bitAt (t.get F.Hdr.EVENT_STATUS pgPair) b = true)

theorem unsext_lt (w : Nat) (v : Int) : unsext w v < 2 ^ w := by
  unfold unsext
  have h1 : (0 : Int) < 2 ^ w := by positivity
  have h2 := Int.emod_lt_of_pos v h1
  have h3 := Int.emod_nonneg v (ne_of_gt h1)
  have h4 : ((2 ^ w : Nat) : Int) = 2 ^ w := by norm_cast
  omega

theorem unsext_sext (was : Nat) (h : was < 2 ^ 48) : unsext 48 (sext 48 was) = was := by
  unfold unsext sext low
  have e1 : (2 : Int) ^ 48 = 281474976710656 := by norm_num
  have e2 : 2 ^ 48 = 281474976710656 := by norm_num
  have e3 : 2 ^ (48 - 1) = 140737488355328 := by norm_num
  rw [e1, e2, e3]; rw [e2] at h; split <;> omega

theorem offSet_now (s : State) (ch v : Nat) (hc : ch < 4) (hv : v < 2 ^ 48) : offNow (s.set2 F.Pair.COUNT_OFFSET_LO F.Pair.COUNT_OFFSET_HI pgPair ch v) ch = v ∧
    (∀ i < 4, i ≠ ch → offNow (s.set2 F.Pair.COUNT_OFFSET_LO F.Pair.COUNT_OFFSET_HI pgPair ch v) i = offNow s i) ∧
    (s.set2 F.Pair.COUNT_OFFSET_LO F.Pair.COUNT_OFFSET_HI pgPair ch v).get F.Hdr.EVENT_STATUS pgPair = s.get F.Hdr.EVENT_STATUS pgPair := by
  have o1 : F.Pair.COUNT_OFFSET_LO.off = 0x60 ∧ F.Pair.COUNT_OFFSET_LO.stride = 8 ∧ F.Pair.COUNT_OFFSET_LO.lo = 0 := ⟨rfl, rfl, rfl⟩
  have o2 : F.Pair.COUNT_OFFSET_HI.off = 0x64 ∧ F.Pair.COUNT_OFFSET_HI.stride = 8 ∧ F.Pair.COUNT_OFFSET_HI.lo = 0 := ⟨rfl, rfl, rfl⟩
  unfold offNow State.get2 State.set2
  refine ⟨?_, fun i hi hne => ?_, ?_⟩
  · rw [State.getI_setI_off _ (by rw [o1.1, o1.2.1, o1.2.2, o2.1, o2.2.1, o2.2.2]; omega), State.getI_setI_self, State.getI_setI_self]
    show v % 2 ^ 32 + v / 2 ^ 32 % 2 ^ 16 * 2 ^ 32 = v; omega
  · rw [State.getI_setI_off _ (by rw [o1.1, o1.2.1, o1.2.2, o2.1, o2.2.1, o2.2.2]; omega), State.getI_setI_off _ (by rw [o1.1, o1.2.1, o1.2.2]; omega),
      State.getI_setI_off _ (by rw [o2.1, o2.2.1, o2.2.2]; omega), State.getI_setI_off _ (by rw [o1.1, o1.2.1, o1.2.2, o2.1, o2.2.1, o2.2.2]; omega)]
  · unfold State.get
    rw [State.getI_setI_off _ (by rw [o2.1, o2.2.1, o2.2.2]; show (16 + 0 * 4) * 32 + 0 ≠ _; omega), State.getI_setI_off _ (by rw [o1.1, o1.2.1, o1.2.2]; show (16 + 0 * 4) * 32 + 0 ≠ _; omega)]

theorem offsetIn_spec {ch : Nat} (hc : ch < 4) (seq : Nat) (k : Int) (s : State) : OffOne ch s (offsetIn ch seq k s) ∧
    (offNow s ch < 2 ^ 48 → OffSample k seq (tget s.pair.offs ch {}) (tget (offsetIn ch seq k s).pair.offs ch {}) (offNow s ch) (offNow (offsetIn ch seq k s) ch)
      (bitAt ((offsetIn ch seq k s).get F.Hdr.EVENT_STATUS pgPair) Ev.pairCountSlip.bit)) := by
  obtain ⟨o, ho⟩ : ∃ o : OffsetX, o = tget s.pair.offs ch {} := ⟨_, rfl⟩
  obtain ⟨w, ew⟩ : ∃ w : State, w = s.set2 F.Pair.COUNT_OFFSET_LO F.Pair.COUNT_OFFSET_HI pgPair ch (unsext 48 k) := ⟨_, rfl⟩
  obtain ⟨w1, w2, w3⟩ := offSet_now s ch (unsext 48 k) hc (unsext_lt 48 k)
  rw [← ew] at w1 w2 w3
  have wp : w.pair = s.pair := by rw [ew]; rfl
  have was : offNow s ch < 2 ^ 48 → unsext 48 (sext 48 (offNow s ch)) = offNow s ch := unsext_sext _
  have e : offsetIn ch seq k s =
      if (!o.set) = true then w.updPair (fun x => { x with offs := tput x.offs ch { set := true } })
      else if unsext 48 k = unsext 48 (sext 48 (offNow s ch)) then s.updPair (fun x => { x with offs := tput x.offs ch { o with differed := none } })
      else if o.differed = some ((seq + 255) % 256) then
        (w.updPair (fun x => { x with offs := tput x.offs ch { o with differed := none } })).raise Ev.pairCountSlip pgPair
          (arg64 (unsext 32 (clampI (-(2 ^ 31)) (2 ^ 31 - 1) (k - sext 48 (offNow s ch)))) ch)
      else s.updPair (fun x => { x with offs := tput x.offs ch { o with differed := some seq } }) := by rw [ew, ho]; rfl
  have gput : ∀ (z : State) (v : OffsetX), tget (z.updPair (fun x => { x with offs := tput x.offs ch v })).pair.offs ch {} = v ∧
      (∀ i, i ≠ ch → tget (z.updPair (fun x => { x with offs := tput x.offs ch v })).pair.offs i {} = tget z.pair.offs i {}) := by
    intro z v; rw [State.updPair_pair]; exact ⟨tget_tput_self _ _ _ _, fun i hi => tget_tput_ne _ _ _ hi⟩
  have onow : ∀ (z : State) (f : PairX → PairX) i, offNow (z.updPair f) i = offNow z i := fun _ _ _ => rfl
  rw [e, ← ho]
  by_cases h1 : (!o.set) = true
  · rw [if_pos h1]
    have h1' : o.set = false := by simpa using h1
    obtain ⟨g1, g2⟩ := gput w { set := true }
    refine ⟨⟨fun i hi hne => ⟨(g2 i hne).trans (by rw [wp]), w2 i hi hne⟩, fun b hb h => by show bitAt (w.get _ _) b = true; rw [w3]; exact h⟩, fun _ => ⟨fun _ => ⟨g1, w1⟩, fun h => ?_, fun h => ?_, fun h => ?_⟩⟩
    all_goals rw [h] at h1'; simp at h1'
  · rw [if_neg h1]
    have h1' : o.set = true := by simpa using h1
    by_cases h2 : unsext 48 k = unsext 48 (sext 48 (offNow s ch))
    · rw [if_pos h2]
      obtain ⟨g1, g2⟩ := gput s { o with differed := none }
      refine ⟨⟨fun i hi hne => ⟨g2 i hne, rfl⟩, fun b hb h => h⟩, fun hw => ?_⟩
      rw [was hw] at h2
      exact ⟨fun h => by rw [h1'] at h; simp at h, fun _ _ => ⟨g1, rfl⟩, fun _ h => absurd h2 h, fun _ h => absurd h2 h⟩
    · rw [if_neg h2]
      by_cases h3 : o.differed = some ((seq + 255) % 256)
      · rw [if_pos h3]
        obtain ⟨g1, g2⟩ := gput w { o with differed := none }
        have st : ∀ (z : State) a i, i < 4 → offNow (z.raise Ev.pairCountSlip pgPair a) i = offNow z i := by
          intro z a i hi; unfold offNow State.get2
          rw [State.getI_raise_arr _ _ 4 hi (by decide) (by decide) (by decide) (by decide), State.getI_raise_arr _ _ 4 hi (by decide) (by decide) (by decide) (by decide)]
        refine ⟨⟨fun i hi hne => ⟨?_, ?_⟩, fun b hb h => ?_⟩, fun hw => ?_⟩
        · rw [State.raise_pair]; exact (g2 i hne).trans (by rw [wp])
        · rw [st _ _ _ hi]; exact w2 i hi hne
        · rw [State.raise_status _ _ _ _ (by decide), bitAt_low hb, bitAt_setBit]
          have : (w.updPair (fun x => { x with offs := tput x.offs ch { o with differed := none } })).get F.Hdr.EVENT_STATUS pgPair = s.get F.Hdr.EVENT_STATUS pgPair := w3
          rw [this, h]; rfl
        · rw [was hw] at h2
          refine ⟨fun h => by rw [h1'] at h; simp at h, fun _ h => absurd h h2, fun _ _ _ => ⟨?_, ?_, State.raise_bit _ _ _ (by decide) (by decide)⟩, fun _ _ h => absurd h3 h⟩
          · rw [State.raise_pair]; exact g1
          · rw [st _ _ _ hc]; exact w1
      · rw [if_neg h3]
        obtain ⟨g1, g2⟩ := gput s { o with differed := some seq }
        refine ⟨⟨fun i hi hne => ⟨g2 i hne, rfl⟩, fun b hb h => h⟩, fun hw => ?_⟩
        rw [was hw] at h2
        exact ⟨fun h => by rw [h1'] at h; simp at h, fun _ h => absurd h h2, fun _ _ h => absurd h h3, fun _ _ _ => ⟨g1, rfl⟩⟩

/-- The samples of the channels, one after another. -/
theorem posLoop_spec (seq valid : Nat) (pos : List Nat) (l : Nat × Nat × List Nat) (cs : List Nat) (hn : cs.Nodup) (h4 : ∀ c ∈ cs, c < 4) (s : State) :
    ∀ t, t = forAll cs s (fun ch s =>
        if bitAt valid ch && bitAt l.2.1 ch then
          match offsetSample (pos.getD ch 0) (l.2.2.getD ch 0) with
          | some k => offsetIn ch seq k s
          | none => s
        else s) →
      (∀ b < 32, bitAt (s.get F.Hdr.EVENT_STATUS pgPair) b = true → bitAt (t.get F.Hdr.EVENT_STATUS pgPair) b = true) ∧
      ∀ ch < 4, (ch ∉ cs → tget t.pair.offs ch {} = tget s.pair.offs ch {} ∧ offNow t ch = offNow s ch) ∧
        (ch ∈ cs → (bitAt valid ch = false ∨ bitAt l.2.1 ch = false ∨ offsetSample (pos.getD ch 0) (l.2.2.getD ch 0) = none → tget t.pair.offs ch {} = tget s.pair.offs ch {} ∧ offNow t ch = offNow s ch) ∧
          ∀ k, bitAt valid ch = true → bitAt l.2.1 ch = true → offsetSample (pos.getD ch 0) (l.2.2.getD ch 0) = some k → offNow s ch < 2 ^ 48 →
            OffSample k seq (tget s.pair.offs ch {}) (tget t.pair.offs ch {}) (offNow s ch) (offNow t ch) (bitAt (t.get F.Hdr.EVENT_STATUS pgPair) Ev.pairCountSlip.bit)) := by
  induction cs generalizing s with
  | nil => intro t h; rw [forAll_nil] at h; rw [h]; exact ⟨fun _ _ h => h, fun ch _ => ⟨fun _ => ⟨rfl, rfl⟩, fun h => by simp at h⟩⟩
  | cons c cs ih =>
    intro t h
    rw [forAll_cons] at h
    obtain ⟨hc, hn'⟩ := List.nodup_cons.mp hn
    have c4 := h4 c (by simp)
    obtain ⟨i1, i2⟩ := ih hn' (fun x hx => h4 x (by simp [hx])) _ t h
    by_cases hb : (bitAt valid c && bitAt l.2.1 c) = true
    · rw [if_pos hb] at i1 i2
      cases hs : offsetSample (pos.getD c 0) (l.2.2.getD c 0) with
      | none =>
        rw [hs] at i1 i2; dsimp only at i1 i2
        refine ⟨i1, fun ch hch => ⟨fun hm => (i2 ch hch).1 (fun h => hm (by simp [h])), fun hm => ?_⟩⟩
        by_cases he : ch = c
        · rw [he] at hch ⊢; exact ⟨fun _ => (i2 c hch).1 hc, fun k _ _ h => by rw [hs] at h; simp at h⟩
        · exact (i2 ch hch).2 (by simpa [he] using hm)
      | some k =>
        rw [hs] at i1 i2; dsimp only at i1 i2
        obtain ⟨one, smp⟩ := offsetIn_spec c4 seq k s
        generalize offsetIn c seq k s = z at i1 i2 one smp
        refine ⟨fun b hb h => i1 b hb (one.2 b hb h), fun ch hch => ⟨fun hm => ?_, fun hm => ?_⟩⟩
        · have h1 := (i2 ch hch).1 (fun h => hm (by simp [h]))
          have h2 := one.1 ch hch (fun h => hm (by simp [h]))
          exact ⟨h1.1.trans h2.1, h1.2.trans h2.2⟩
        · by_cases he : ch = c
          · rw [he] at hch ⊢
            have h1 := (i2 c hch).1 hc
            refine ⟨fun h => ?_, fun k' _ _ hk' hw => ?_⟩
            · simp only [Bool.and_eq_true] at hb
              rcases h with h | h | h
              · rw [h] at hb; simp at hb
              · rw [h] at hb; simp at hb
              · rw [hs] at h; simp at h
            · rw [hs] at hk'; cases hk'
              obtain ⟨q1, q2, q3, q4⟩ := smp hw
              rw [h1.1, h1.2]
              exact ⟨q1, q2, fun a b c => ⟨(q3 a b c).1, (q3 a b c).2.1, i1 _ (by decide) (q3 a b c).2.2⟩, q4⟩
          · have h1 := (i2 ch hch).2 (by simpa [he] using hm)
            have h2 := one.1 ch hch he
            rw [h2.1, h2.2] at h1; exact h1
    · rw [if_neg hb] at i1 i2
      refine ⟨i1, fun ch hch => ⟨fun hm => (i2 ch hch).1 (fun h => hm (by simp [h])), fun hm => ?_⟩⟩
      by_cases he : ch = c
      · rw [he] at hch ⊢
        exact ⟨fun _ => (i2 c hch).1 hc, fun k h1 h2 => absurd (by simp [h1, h2]) hb⟩
      · exact (i2 ch hch).2 (by simpa [he] using hm)

theorem commitWrite_pages {pg : Nat} (hp : pg ∉ [pgLedger, pgPair]) (h10 : within pg 0x010 0x03F = false) (tgt : Nat) (en can req : Bool) (s : State) :
    s.OnPages (commitWrite pg tgt en can req s) [pg, pgLedger] ∧ (commitWrite pg tgt en can req s).pair = s.pair := by
  have hl : pg ≠ pgLedger := fun h => hp (by simp [h])
  have m1 : pg ∈ [pg, pgLedger] := by simp
  have m2 : pgLedger ∈ [pg, pgLedger] := by simp
  have arr : ∀ (x : Option Nat) (z : State), s.OnPages z [pg, pgLedger] → z.pair = s.pair → s.OnPages (requestArrives pg x z) [pg, pgLedger] ∧ (requestArrives pg x z).pair = s.pair := by
    intro x z hz zp
    have pend : s.OnPages ((z.setCstate pg 1).updBnd pg (fun b => { b with tgt := x })) [pg, pgLedger] := (hz.set _ m1 (by decide) (by decide)).keep (State.updBnd_regs _ _ _)
    unfold requestArrives; dsimp only
    split
    · exact ⟨pend, zp⟩
    · split
      · split
        · exact ⟨((pend.set _ m1 (by decide) (by decide)).setI _ m1 (by decide) (by decide)).raise _ _ m1 hl m2, by rw [State.raise_pair]; exact zp⟩
        · exact ⟨pend, zp⟩
      · split
        · exact ⟨hz.raise _ _ m1 hl m2, by rw [State.raise_pair]; exact zp⟩
        · exact ⟨pend, zp⟩
  have rq : ∀ (x : Option Nat) (z : State), s.OnPages z [pg, pgLedger] → z.pair = s.pair → s.OnPages (commitRequest pg x z) [pg, pgLedger] ∧ (commitRequest pg x z).pair = s.pair := by
    intro x z hz zp
    unfold commitRequest
    split
    · exact ⟨hz, zp⟩
    · split
      · unfold requestTested State.shadowBad; rw [h10, Bool.false_and, if_neg (by simp)]; exact arr x z hz zp
      · exact ⟨hz.keep (State.updBnd_regs _ _ _), zp⟩
      · exact ⟨hz, zp⟩
  have cn : ∀ z : State, s.OnPages z [pg, pgLedger] → z.pair = s.pair → s.OnPages (commitCancel pg z) [pg, pgLedger] ∧ (commitCancel pg z).pair = s.pair := by
    intro z hz zp
    unfold commitCancel; split
    · exact ⟨((hz.set _ m1 (by decide) (by decide)).set _ m1 (by decide) (by decide)).keep (State.updBnd_regs _ _ _), zp⟩
    · exact ⟨hz, zp⟩
  have b0 : s.OnPages ((s.set F.Hdr.COMMIT_TARGET pg tgt).set F.Hdr.TARGET_EN pg (bit en)) [pg, pgLedger] :=
    ((State.OnPages.refl s _).set _ m1 (by decide) (by decide)).set _ m1 (by decide) (by decide)
  unfold commitWrite; split
  · dsimp only
    have b1 : s.OnPages (if can = true then commitCancel pg ((s.set F.Hdr.COMMIT_TARGET pg tgt).set F.Hdr.TARGET_EN pg (bit en)) else (s.set F.Hdr.COMMIT_TARGET pg tgt).set F.Hdr.TARGET_EN pg (bit en)) [pg, pgLedger] ∧
        (if can = true then commitCancel pg ((s.set F.Hdr.COMMIT_TARGET pg tgt).set F.Hdr.TARGET_EN pg (bit en)) else (s.set F.Hdr.COMMIT_TARGET pg tgt).set F.Hdr.TARGET_EN pg (bit en)).pair = s.pair := by
      split
      · exact cn _ b0 rfl
      · exact ⟨b0, rfl⟩
    generalize (if can = true then _ else _ : State) = z at b1
    split
    · exact rq _ _ b1.1 b1.2
    · exact b1
  · exact ⟨.refl s _, rfl⟩

theorem scr_pages : ∀ r < 4, pgScr r ∉ [pgLedger, pgPair] ∧ within (pgScr r) 0x010 0x03F = false ∧ pgPair ∉ [pgScr r, pgLedger] ∧ pgScr r ≠ pgPair := by decide

theorem pgLocks_ne : pgLocks ≠ pgPair ∧ pgLocks ≠ pgLedger := by decide

theorem lock_pages (n o : Nat) (s : State) (hn : n < 64) : s.OnPages (lockAcquire n o s) [pgLocks, pgLedger] ∧ s.OnPages (lockRelease n o s) [pgLocks, pgLedger] := by
  have f1 : F.Lock.HELD.off + n * F.Lock.HELD.stride < 4096 := by
    have a : F.Lock.HELD.off ≤ 0x400 := by decide
    have b : F.Lock.HELD.stride ≤ 8 := by decide
    have : n * F.Lock.HELD.stride ≤ 63 * 8 := Nat.mul_le_mul (by omega) b
    omega
  have f2 : F.Lock.OWNER.off + n * F.Lock.OWNER.stride < 4096 := by
    have a : F.Lock.OWNER.off ≤ 0x400 := by decide
    have b : F.Lock.OWNER.stride ≤ 8 := by decide
    have : n * F.Lock.OWNER.stride ≤ 63 * 8 := Nat.mul_le_mul (by omega) b
    omega
  constructor
  · unfold lockAcquire; split
    · exact .refl s _
    · exact (((State.OnPages.refl s _).setI _ (by simp) f1 (by decide)).setI _ (by simp) f2 (by decide)).keep rfl
  · unfold lockRelease; split
    · exact ((State.OnPages.refl s _).setI _ (by simp) f1 (by decide)).setI _ (by simp) f2 (by decide)
    · unfold releaseDenied; exact (State.OnPages.refl s _).raise _ _ (by simp) pgLocks_ne.2 (by simp)

/-- A mirror message whose page is not free, or whose lock another agent holds, waits. -/
theorem mirrorGo_blocked (f : Nat) (z : State) (m : MirrorOp) (rest : List MirrorOp) (hz : z.pair.mirror = m :: rest)
    (h : z.ready (pgScr m.region) = false ∨ 2 ≤ z.cstate (pgScr m.region) ∨
      (∃ n, z.binding (pgScr m.region) = some n ∧ z.onI F.Lock.HELD pgLocks n = true ∧ z.outbids n 0xA0 = false ∧ z.getI F.Lock.OWNER pgLocks n ≠ 0xA0)) :
    mirrorGo (f + 1) z = z := by
  rw [mirrorGo, hz]; dsimp only
  by_cases hp : (!z.ready (pgScr m.region) || decide (2 ≤ z.cstate (pgScr m.region))) = true
  · rw [if_pos hp]
  · rw [if_neg hp]
    rcases h with h | h | ⟨n, hb, h1, h2, h3⟩
    · simp [h] at hp
    · simp [h] at hp
    · rw [hb]; dsimp only
      have e : lockAcquire n engineOwner z = z := by
        unfold lockAcquire; rw [if_pos]
        show (z.onI F.Lock.HELD pgLocks n && !z.outbids n 0xA0) = true
        rw [h1, h2]; rfl
      have : z.holds n engineOwner = false := by
        unfold State.holds; rw [h1, Bool.true_and]; show (z.getI F.Lock.OWNER pgLocks n == 0xA0) = false; simpa using h3
      split
      · rename_i hh; rw [e, this] at hh; simp at hh
      · exact e

theorem holds_after (n : Nat) (z : State) (h : z.onI F.Lock.HELD pgLocks n = false ∨ z.outbids n 0xA0 = true ∨ z.getI F.Lock.OWNER pgLocks n = 0xA0) :
    (lockAcquire n 0xA0 z).holds n 0xA0 = true := by
  unfold lockAcquire
  by_cases hc : (z.onI F.Lock.HELD pgLocks n && !z.outbids n 0xA0) = true
  · rw [if_pos hc]; simp only [Bool.and_eq_true, Bool.not_eq_true'] at hc
    unfold State.holds; rw [hc.1]
    rcases h with h | h | h
    · rw [h] at hc; simp at hc
    · rw [h] at hc; simp at hc
    · rw [h]; rfl
  · rw [if_neg hc]; unfold State.holds State.onI
    show (((z.setI F.Lock.HELD pgLocks n 1).setI F.Lock.OWNER pgLocks n 0xA0).getI F.Lock.HELD pgLocks n == 1 && ((z.setI F.Lock.HELD pgLocks n 1).setI F.Lock.OWNER pgLocks n 0xA0).getI F.Lock.OWNER pgLocks n == 0xA0) = true
    rw [State.getI_setI_self, State.getI_setI_lo _ (by decide) (by decide) (by decide), State.getI_setI_self]; rfl

theorem binding_lock (n o pg : Nat) (hn : n < 64) (hp : pg < 128) (z : State) : (lockAcquire n o z).binding pg = z.binding pg := by
  have k : ∀ (f g : Fld), f.off = 0x40 → f.stride = 4 → f.lo < 32 → g.off = 0x400 → g.stride = 4 → g.lo < 32 → ∀ (y : State) v, (y.setI f pgLocks n v).getI g pgLocks (pg / 4) = y.getI g pgLocks (pg / 4) := by
    intro f g a b c d e h y v
    exact State.getI_setI_off _ (by rw [a, b, d, e]; omega)
  unfold lockAcquire; split
  · rfl
  · have g0 : ∀ g : Fld, g.off = 0x400 → g.stride = 4 → g.lo < 32 → (((z.setI F.Lock.HELD pgLocks n 1).setI F.Lock.OWNER pgLocks n o).stamp (lockKey n) z.now).getI g pgLocks (pg / 4) = z.getI g pgLocks (pg / 4) := by
      intro g a b c
      show ((z.setI F.Lock.HELD pgLocks n 1).setI F.Lock.OWNER pgLocks n o).getI g pgLocks (pg / 4) = _
      rw [k _ g rfl rfl (by decide) a b c, k _ g rfl rfl (by decide) a b c]
    unfold State.binding State.onI
    have h4 : pg % 4 = 0 ∨ pg % 4 = 1 ∨ pg % 4 = 2 ∨ pg % 4 = 3 := by omega
    rcases h4 with h | h | h | h <;> rw [h] <;> dsimp only <;> rw [g0 _ rfl rfl (by decide), g0 _ rfl rfl (by decide)]

/-- One message whose page is free and whose lock the engine can take is applied. -/
theorem mirrorGo_one (v : State) (m : MirrorOp) (hv : v.pair.mirror = [m]) (hr : v.ready (pgScr m.region) = true) (hc : v.cstate (pgScr m.region) < 2) (w : State)
    (h : (v.binding (pgScr m.region) = none ∧ w = v.updPair (fun x => { x with mirror := [] })) ∨
      (∃ n < 64, v.binding (pgScr m.region) = some n ∧ (v.onI F.Lock.HELD pgLocks n = false ∨ v.outbids n 0xA0 = true ∨ v.getI F.Lock.OWNER pgLocks n = 0xA0) ∧
        w = (lockAcquire n 0xA0 v).updPair (fun x => { x with mirror := [] }))) : mirrorGo 1 v = mirrorApply m w := by
  rw [mirrorGo, hv]; dsimp only
  rw [if_neg (by simp [hr]; omega)]
  rcases h with ⟨hb, hw⟩ | ⟨n, hn, hb, ho, hw⟩
  · rw [hb]; dsimp only
    rw [if_pos rfl, mirrorGo, hw]
  · rw [hb]; dsimp only
    have hh := holds_after n v ho
    have hh' : (lockAcquire n engineOwner v).holds n engineOwner = true := hh
    rw [if_pos hh', mirrorGo, hw]; rfl

theorem mirrorRefused_count (m : MirrorOp) (w : State) (hm : m.commit = true) (hr : m.region < 4) (hl : w.mirrorRefused (pgScr m.region) m.target = true)
    (hb : ∀ n, w.binding (pgScr m.region) = some n → n < 64) :
    (mirrorApply m w).get F.Pair.MIRROR_LATE_COUNT pgPair = low 32 (min (w.get F.Pair.MIRROR_LATE_COUNT pgPair + 1) (2 ^ 32 - 1)) ∧
    bitAt ((mirrorApply m w).get F.Hdr.EVENT_STATUS pgPair) Ev.pairMirrorLate.bit = true := by
  obtain ⟨q1, q2, q3, q4⟩ := scr_pages _ hr
  obtain ⟨c1, c2⟩ := commitWrite_pages q1 q2 m.target true false true w
  obtain ⟨z, hz⟩ : ∃ z : State, mirrorApply m w = mirrorLate m.region m.target false z ∧ z.get F.Pair.MIRROR_LATE_COUNT pgPair = w.get F.Pair.MIRROR_LATE_COUNT pgPair := by
    have e1 : (commitWrite (pgScr m.region) m.target true false true w).get F.Pair.MIRROR_LATE_COUNT pgPair = w.get F.Pair.MIRROR_LATE_COUNT pgPair := c1.get q3 (by decide) (by decide)
    unfold mirrorApply; rw [if_pos hm]; dsimp only; rw [if_pos hl]
    generalize commitWrite (pgScr m.region) m.target true false true w = y at e1
    cases hbn : w.binding (pgScr m.region) with
    | none => exact ⟨_, rfl, e1⟩
    | some n =>
      dsimp only
      by_cases hh : w.holds n engineOwner = true
      · rw [if_pos hh]; exact ⟨_, rfl, (((lock_pages n engineOwner y (hb n hbn)).2).get (by decide) (by decide) (by decide)).trans e1⟩
      · rw [if_neg hh]; exact ⟨_, rfl, e1⟩
  rw [hz.1]; unfold mirrorLate
  refine ⟨?_, State.raise_bit _ _ _ (by decide) (by decide)⟩
  rw [State.get_raise_off _ _ (by decide) (by decide) (by decide) (by decide), sat_self, hz.2]; rfl

theorem mirrorIn_eq (m : MirrorOp) (s : State) (h : s.pairOn = true) : mirrorIn m s = mirrorGo (s.pair.mirror.length + 1) (s.updPair (fun x => { x with mirror := x.mirror ++ [m] })) := by
  unfold mirrorIn; rw [if_pos h]; unfold mirrorTry
  have e : (s.updPair (fun x => { x with mirror := x.mirror ++ [m] })).pairOn = true := h
  rw [if_pos e, State.updPair_pair]; dsimp only; rw [List.length_append]; rfl

end Sys2Proof.Machine
end

