-- ==== Sys2Proof/Laws/OfPairRejoin.lean ====
section
/-! SUPPORT. Lemmas that the statements about its unit: PairRejoin rest on. -/

-- One declaration after another: the package is also checked as one text, where too many threads would start at once.
set_option Elab.async false

set_option linter.unusedVariables false
set_option linter.unusedSimpArgs false

namespace Sys2Proof.Machine

theorem joinFail_role (r : Nat) (z : State) (h : z.pair.join.isSome = true) : (joinFail r z).role = 1 ∧ (joinFail r z).get F.Pair.SNAP_STATUS_STATE pgPair = 0 ∧
    (joinFail r z).pair.join = none ∧ (joinFail r z).pair.sbReady = false ∧ (joinFail r z).pair.retryAt = some (z.counter + 500000000) ∧
    bitAt ((joinFail r z).get F.Hdr.EVENT_STATUS pgPair) Ev.pairSnapFail.bit = true := by
  obtain ⟨w, hw⟩ : ∃ w : State, w = ((setRole 1 z).set F.Pair.SNAP_STATUS_STATE pgPair 0).updPair (fun x => { x with join := none, sbReady := false, retryAt := some (z.counter + 500000000) }) := ⟨_, rfl⟩
  have e : joinFail r z = w.raise Ev.pairSnapFail pgPair r := by unfold joinFail; rw [if_pos h, hw]
  have w1 : w.get F.Pair.ROLE pgPair = 1 := by rw [hw, get_of_regs (State.updPair_regs _ _), State.get_set_off _ (by decide)]; unfold setRole; rw [State.get_set_self]; rfl
  have w2 : w.get F.Pair.SNAP_STATUS_STATE pgPair = 0 := by rw [hw, get_of_regs (State.updPair_regs _ _), State.get_set_self]; rfl
  rw [e]
  refine ⟨?_, ?_, ?_, ?_, ?_, State.raise_bit _ _ _ (by decide) (by decide)⟩
  · unfold State.role; rw [State.get_raise_off _ _ (by decide) (by decide) (by decide) (by decide), w1]
  · rw [State.get_raise_off _ _ (by decide) (by decide) (by decide) (by decide), w2]
  · rw [State.raise_pair, hw]; rfl
  · rw [State.raise_pair, hw]; rfl
  · rw [State.raise_pair, hw]; rfl

theorem joinStart_on (s : State) (h1 : s.pairOn = true) (h2 : s.role = 1) (h3 : s.partnerFits = true) (h4 : s.firstStart = false) :
    ∃ m, m.role = 2 ∧ m.get F.Pair.SNAP_STATUS_STATE pgPair = 2 ∧
        m.get F.Pair.UNITS pgPair = 0 ∧ m.pair.join = some { since := s.counter } ∧ m.pair.sbReady = false ∧ m.pair.retryAt = none ∧
      joinStart s = forAll s.pairPorts (pairSend 0x86 (leBytes 4 0) m) (fun p => engineWrite (pgPort p) 8 0 (controlEnable (pgPort p) false 0)) := by
  obtain ⟨v, hv⟩ : ∃ v : State, v = ((setRole 2 s).set F.Pair.SNAP_STATUS_STATE pgPair 2).set F.Pair.UNITS pgPair 0 := ⟨_, rfl⟩
  obtain ⟨m, hm⟩ : ∃ m : State, m = v.updPair (fun x => { x with join := some { since := s.counter }, sbReady := false, retryAt := none }) := ⟨_, rfl⟩
  have mr : m.regs = v.regs := by rw [hm]; rfl
  refine ⟨m, ?_, ?_, ?_, by rw [hm]; rfl, by rw [hm]; rfl, by rw [hm]; rfl, ?_⟩
  · unfold State.role; rw [get_of_regs mr, hv, State.get_set_off _ (by decide), State.get_set_off _ (by decide)]; unfold setRole; rw [State.get_set_self]; rfl
  · rw [get_of_regs mr, hv, State.get_set_off _ (by decide), State.get_set_self]; rfl
  · rw [get_of_regs mr, hv, State.get_set_self]; rfl
  · unfold joinStart; rw [if_pos (by simp [h1, h2, h3, h4])]; dsimp only; rw [← hv, ← hm]

theorem joinStart_off (s : State) (h : s.pairOn = false ∨ s.role ≠ 1 ∨ s.partnerFits = false ∨ s.firstStart = true) : joinStart s = s := by
  unfold joinStart; rw [if_neg]
  rintro hc; simp only [Bool.and_eq_true, beq_iff_eq, Bool.not_eq_true'] at hc
  rcases h with h | h | h | h
  · rw [h] at hc; simp at hc
  · exact h hc.1.1.2
  · rw [h] at hc; simp at hc
  · rw [h] at hc; simp at hc

theorem pairCtrl_join (s : State) (h : s.on F.Pair.AUTO_REJOIN pgPair = false) : pairCtrl false false true s = joinStart s ∨ (s.pairOn = false ∧ pairCtrl false false true s = s) := by
  unfold pairCtrl
  cases hp : s.pairOn
  · exact .inr ⟨rfl, by rw [if_pos (by simp)]⟩
  · left; rw [if_neg (by simp)]; simp [h]

theorem autoJoin_late (s : State) (h : s.on F.Pair.AUTO_REJOIN pgPair = true) (t : Nat) (ht : s.pair.retryAt = some t) (hl : t ≤ s.counter) : autoJoin s = joinStart s := by
  unfold autoJoin; rw [ht]; dsimp only; rw [if_pos (by simp [h, hl])]

theorem snapStore_pair (object off v : Nat) (z : State) : (snapStore object off v z).pair = z.pair := by
  have g : ∀ (pg : Nat) (apt : Bool) (o : Nat) (k : State → State), (k z).pair = z.pair → (gate pg apt o v engineOwner k z).pair = z.pair := by
    intro pg apt o k hk; unfold gate unmapped
    repeat' split
    all_goals first | rfl | exact hk | exact State.raise_pair _ _ _ _
  have mw : ∀ (pg k : Nat) (u : State), (markWritten pg k u).pair = u.pair := by
    intro pg k u; unfold markWritten; split <;> rfl
  have sw : ∀ pg o, (shadowWord pg o v z).pair = z.pair := by
    intro pg o; unfold shadowWord; split
    · rw [mw]; rfl
    · rfl
  have sr : ∀ pg o, (shadowReg pg o v z).pair = z.pair := by
    intro pg o; unfold shadowReg; rw [mw]
    refine forAll_over (shadowFields pg) z _ (fun u => u.pair = z.pair) rfl ?_
    intro f _ u hu
    dsimp only; split
    · split
      · exact hu
      · exact hu
    · exact hu
  unfold snapStore; dsimp only
  repeat' split
  all_goals first | rfl | exact g _ _ _ _ (sr _ _) | exact g _ _ _ _ (sw _ _)

end Sys2Proof.Machine
end

