-- ==== Sys2Proof/Laws/OfSagRequests.lean ====
section
/-! SUPPORT. Lemmas that the statements about its unit: SagRequests rest on. -/

-- One declaration after another: the package is also checked as one text, where too many threads would start at once.
set_option Elab.async false

set_option linter.unusedVariables false
set_option linter.unusedSimpArgs false

namespace Sys2Proof.Machine

theorem sagRaise_cases (e : Ev) (a : Nat) (z : State) : sagRaise e a z = z ∨ sagRaise e a z = z.raise e pgSag a := by
  unfold sagRaise; split
  · exact .inl rfl
  · exact .inr rfl

theorem sagRaise_on (e : Ev) (a : Nat) (z : State) (h1 : z.modeNow ≠ 0) (h2 : z.mode.porst = false) : sagRaise e a z = z.raise e pgSag a := by
  unfold sagRaise; rw [if_neg (by simp [h1, h2])]

theorem paramReject_spec (r : Nat) (hr : r < 256) (z : State) : (paramReject r z).get F.Sag.PARAM_STATUS_STEP pgSag = 0 ∧ (paramReject r z).get F.Sag.REASON pgSag = r ∧
    (paramReject r z).sag = z.sag ∧ (z.modeNow ≠ 0 → z.mode.porst = false → bitAt ((paramReject r z).get F.Hdr.EVENT_STATUS pgSag) Ev.sagParamRejected.bit = true) := by
  obtain ⟨w, hw⟩ : ∃ w : State, w = (z.set F.Sag.PARAM_STATUS_STEP pgSag 0).set F.Sag.REASON pgSag r := ⟨_, rfl⟩
  obtain ⟨a, ha⟩ : ∃ a : Nat, a = arg64 (z.getI F.Sag.PARAM_STAGE pgSag 63) r := ⟨_, rfl⟩
  have e : paramReject r z = sagRaise Ev.sagParamRejected a w := by unfold paramReject; rw [hw, ha]
  have w1 : w.get F.Sag.PARAM_STATUS_STEP pgSag = 0 := by rw [hw, State.get_set_off _ (by decide), State.get_set_self]; rfl
  have w2 : w.get F.Sag.REASON pgSag = r := by rw [hw, State.get_set_self]; exact low_of_lt hr
  have w3 : w.sag = z.sag := by rw [hw]; rfl
  have w4 : w.modeNow = z.modeNow := by
    rw [hw]; unfold State.modeNow; rw [State.get_set_page _ (by decide) (by decide) (by decide) (by decide) (by decide), State.get_set_page _ (by decide) (by decide) (by decide) (by decide) (by decide)]
  have w5 : w.mode = z.mode := by rw [hw]; rfl
  rw [e]
  refine ⟨?_, ?_, ?_, fun h1 h2 => ?_⟩
  · rcases sagRaise_cases Ev.sagParamRejected a w with h | h <;> rw [h]
    · exact w1
    · rw [State.get_raise_off _ _ (by decide) (by decide) (by decide) (by decide), w1]
  · rcases sagRaise_cases Ev.sagParamRejected a w with h | h <;> rw [h]
    · exact w2
    · rw [State.get_raise_off _ _ (by decide) (by decide) (by decide) (by decide), w2]
  · rcases sagRaise_cases Ev.sagParamRejected a w with h | h <;> rw [h]
    · exact w3
    · rw [State.raise_sag, w3]
  · rw [sagRaise_on _ _ w (by rw [w4]; exact h1) (by rw [w5]; exact h2)]; exact State.raise_bit _ _ _ (by decide) (by decide)

theorem keyBreak_on (z : State) (h : z.get F.Sag.PARAM_STATUS_STEP pgSag = 1 ∨ z.get F.Sag.PARAM_STATUS_STEP pgSag = 2) : keyBreak z = paramReject 1 z := by
  unfold keyBreak; dsimp only; rw [if_pos h]

theorem keyBreak_off (z : State) (h1 : z.get F.Sag.PARAM_STATUS_STEP pgSag ≠ 1) (h2 : z.get F.Sag.PARAM_STATUS_STEP pgSag ≠ 2) : keyBreak z = z := by
  unfold keyBreak; dsimp only; rw [if_neg (by simp [h1, h2])]

theorem paramKey_spec (value : Nat) (s : State) (k v : Nat) (hk : k = s.get F.Sag.PARAM_STATUS_STEP pgSag) (hv : v = low 32 value) :
    (k = 0 → v = 0x5A6BC3D1 → paramKey value s = (s.set F.Sag.PARAM_STATUS_STEP pgSag 1).updSag (fun x => { x with keyAt := s.now })) ∧
      (k = 0 → v ≠ 0x5A6BC3D1 → paramKey value s = s) ∧
      (k = 1 → v = 0xA5943C2E → s.now ≤ s.sag.keyAt + 100000 → paramKey value s = (s.set F.Sag.PARAM_STATUS_STEP pgSag 2).updSag (fun x => { x with keyAt := s.now })) ∧
      (k ≠ 0 → (k ≠ 1 ∨ v ≠ 0xA5943C2E ∨ s.sag.keyAt + 100000 < s.now) → paramKey value s = keyBreak s) := by
  refine ⟨fun h1 h2 => ?_, fun h1 h2 => ?_, fun h1 h2 h3 => ?_, fun h1 h2 => ?_⟩
  · unfold paramKey; rw [← hk, ← hv, h1, h2]; rfl
  · unfold paramKey; rw [← hk, ← hv, h1]; dsimp only; rw [if_pos rfl, if_neg h2]
  · unfold paramKey; rw [← hk, ← hv, h1, h2]; dsimp only; rw [if_neg (by decide), if_pos ⟨rfl, rfl, h3⟩]
  · unfold paramKey; rw [← hk, ← hv]; dsimp only; rw [if_neg h1, if_neg]
    rintro ⟨a, b, c⟩
    rcases h2 with h | h | h
    · exact h a
    · exact h b
    · omega

theorem sagCmd_spec (start stop reset : Bool) (s : State) (k : Nat) (f : SagX → SagX) (hk : k = s.get F.Sag.PARAM_STATUS_STEP pgSag) (hf : f = fun x => { x with
    start := x.start || start, stop := x.stop || stop
    reset := if reset then some (s.hostResetOk || x.reset == some true) else x.reset }) :
    (sagCmd start stop reset s).sag = f s.sag ∧ (k ≠ 1 → k ≠ 2 → sagCmd start stop reset s = s.updSag f) ∧
      (k = 1 ∨ k = 2 → (sagCmd start stop reset s).get F.Sag.PARAM_STATUS_STEP pgSag = 0 ∧ (sagCmd start stop reset s).get F.Sag.REASON pgSag = 1) := by
  have e : sagCmd start stop reset s = (keyBreak s).updSag f := by rw [hf]; rfl
  have ur : ∀ z : State, (z.updSag f).regs = z.regs := fun z => rfl
  have us : ∀ z : State, (z.updSag f).sag = f z.sag := fun z => rfl
  by_cases hc : k = 1 ∨ k = 2
  · obtain ⟨a, b, c, _⟩ := paramReject_spec 1 (by decide) s
    rw [e, keyBreak_on s (by rw [← hk]; exact hc)]
    exact ⟨by rw [us, c], fun h1 h2 => absurd hc (by simp [h1, h2]), fun _ => ⟨by rw [get_of_regs (ur _)]; exact a, by rw [get_of_regs (ur _)]; exact b⟩⟩
  · have h1 : k ≠ 1 := fun h => hc (.inl h)
    have h2 : k ≠ 2 := fun h => hc (.inr h)
    rw [e, keyBreak_off s (by rw [← hk]; exact h1) (by rw [← hk]; exact h2)]
    exact ⟨us s, fun _ _ => rfl, fun h => absurd h hc⟩

end Sys2Proof.Machine
end

