-- ==== Sys2Proof/Laws/OfSagCycle.lean ====
section
/-! SUPPORT. Lemmas that the statements about its unit: SagCycle rest on. -/

-- One declaration after another: the package is also checked as one text, where too many threads would start at once.
set_option Elab.async false

set_option linter.unusedVariables false
set_option linter.unusedSimpArgs false

namespace Sys2Proof.Machine

/-- The Sagger's page outside the listed bits, and what the cycle does not change. -/
def SagMid (x : List Nat) (s t : State) : Prop :=
  (∀ (g : Fld) (i : Nat), g.off + i * g.stride < 4096 → g.lo < 32 → (g.off + i * g.stride) * 32 + g.lo ∉ x → t.getI g pgSag i = s.getI g pgSag i) ∧
  t.sag.start = s.sag.start ∧ t.sag.stop = s.sag.stop ∧ t.sag.reset = s.sag.reset ∧ t.sag.up = s.sag.up

theorem SagMid.refl (x : List Nat) (s : State) : SagMid x s s := ⟨fun _ _ _ _ _ => rfl, rfl, rfl, rfl, rfl⟩

theorem SagMid.trans {x : List Nat} {s t u : State} (h : SagMid x s t) (g : SagMid x t u) : SagMid x s u :=
  ⟨fun f i a b c => (g.1 f i a b c).trans (h.1 f i a b c), g.2.1.trans h.2.1, g.2.2.1.trans h.2.2.1, g.2.2.2.1.trans h.2.2.2.1, g.2.2.2.2.trans h.2.2.2.2⟩

theorem SagMid.mono {x y : List Nat} {s t : State} (h : SagMid x s t) (hs : ∀ a ∈ x, a ∈ y) : SagMid y s t :=
  ⟨fun f i a b c => h.1 f i a b (fun m => c (hs _ m)), h.2⟩

theorem SagMid.setI {x : List Nat} {s t : State} (h : SagMid x s t) (f : Fld) (i v : Nat) (hx : (f.off + i * f.stride) * 32 + f.lo ∈ x) : SagMid x s (t.setI f pgSag i v) :=
  ⟨fun g j a b c => (State.getI_setI_off _ (fun e => c (by rw [e]; exact hx))).trans (h.1 g j a b c), h.2⟩

theorem SagMid.set {x : List Nat} {s t : State} (h : SagMid x s t) (f : Fld) (v : Nat) (hx : (f.off + 0 * f.stride) * 32 + f.lo ∈ x) : SagMid x s (t.set f pgSag v) :=
  h.setI f 0 v hx

theorem SagMid.upd {x : List Nat} {s t : State} (h : SagMid x s t) (f : SagX → SagX) (hf : ∀ y, (f y).start = y.start ∧ (f y).stop = y.stop ∧ (f y).reset = y.reset ∧ (f y).up = y.up) : SagMid x s (t.updSag f) :=
  ⟨h.1, (hf _).1.trans h.2.1, (hf _).2.1.trans h.2.2.1, (hf _).2.2.1.trans h.2.2.2.1, (hf _).2.2.2.trans h.2.2.2.2⟩

theorem SagMid.raise {x : List Nat} {s t : State} (h : SagMid x s t) (e : Ev) (a : Nat) (hx : 512 ∈ x) : SagMid x s (sagRaise e a t) := by
  rcases sagRaise_cases e a t with g | g <;> rw [g]
  · exact h
  · refine ⟨fun f i a b c => (State.getI_raise_off _ _ (by decide) (fun e => c (by rw [e]; exact hx)) a b).trans (h.1 f i a b c), ?_⟩
    rw [State.raise_sag]; exact h.2

theorem SagMid.get {x : List Nat} {s t : State} (h : SagMid x s t) (f : Fld) (hf : f.off + 0 * f.stride < 4096) (hl : f.lo < 32) (hx : (f.off + 0 * f.stride) * 32 + f.lo ∉ x) :
    t.get f pgSag = s.get f pgSag := h.1 f 0 hf hl hx

theorem SagMid.forAll {α : Type} {x : List Nat} {s : State} (l : List α) (t : State) (f : α → State → State) (h : SagMid x s t)
    (hf : ∀ a ∈ l, ∀ u, SagMid x s u → SagMid x s (f a u)) : SagMid x s (forAll l t f) := forAll_over l t f (fun u => SagMid x s u) h hf

theorem SagMid.pages {x ps : List Nat} {s t u : State} (h : SagMid x s t) (g : t.OnPages u ps) (hp : pgSag ∉ ps) (e : u.sag = t.sag) : SagMid x s u :=
  ⟨fun f i a b c => (g.getI hp a b).trans (h.1 f i a b c), by rw [e]; exact h.2⟩

theorem refuseGo_sag (s : State) : (refuseGo s).sag = s.sag := by
  unfold refuseGo; split
  · split
    · rw [State.raise_sag]; rfl
    · rfl
  · rfl

theorem leaveDormant_sag (s : State) : (leaveDormant s).sag = s.sag ∧ (leaveDormant s).mode.porst = s.mode.porst := by
  unfold leaveDormant; split <;> exact ⟨rfl, rfl⟩

theorem setCause_sag (i : Nat) (s : State) : (setCause i s).sag = s.sag := by
  unfold setCause; split
  · rfl
  · dsimp only
    have h : (refuseGo ((s.set F.Mode.SAFE_HOLD_CAUSE pgMode (setBit (s.get F.Mode.SAFE_HOLD_CAUSE pgMode) i)).stamp (setKey F.Mode.SAFE_HOLD_CAUSE pgMode i) s.now)).sag = s.sag := by
      rw [refuseGo_sag]; rfl
    generalize refuseGo _ = t at h ⊢
    split
    · split
      · show (leaveDormant t).sag = _; rw [(leaveDormant_sag t).1, h]
      · exact h
    · split
      · exact h
      · unfold startTransition; show (leaveDormant t).sag = _; rw [(leaveDormant_sag t).1, h]

theorem sagLatch_cases (s : State) : sagLatch s = s ∨ sagLatch s = setCause 1 s := by
  unfold sagLatch; split
  · exact .inr rfl
  · exact .inl rfl

theorem sagLatch_sag (s : State) : (sagLatch s).sag = s.sag := by
  rcases sagLatch_cases s with h | h <;> rw [h]
  exact setCause_sag 1 s

theorem sagLatch_mid {x : List Nat} {s t : State} (h : SagMid x s t) : SagMid x s (sagLatch t) := by
  rcases sagLatch_cases t with g | g <;> rw [g]
  · exact h
  · exact h.pages (setCause_pages 1 t) (by decide) (setCause_sag 1 t)

theorem sagOutputs_sag (s : State) : (sagOutputs s).sag = s.sag := by
  unfold sagOutputs; dsimp only; rw [sagLatch_sag]; rfl

theorem sagOutputs_mid {x : List Nat} {s t : State} (h : SagMid x s t) (hx : ∀ a ∈ [2176, 2192, 2196, 2197, 2049], a ∈ x) : SagMid x s (sagOutputs t) := by
  unfold sagOutputs; dsimp only
  have h0 : ∀ d, SagMid x s { t with hk := { t.hk with driveAt := d } } := fun d => h
  exact sagLatch_mid (((((((h0 _).set F.Sag.DRIVE_EN _ (hx _ (by decide))).set F.Sag.CURE_EN _ (hx _ (by decide))).set F.Sag.PRESS_STOP_REQ _ (hx _ (by decide))).set F.Sag.SAFE_STATE _ (hx _ (by decide)))).set F.Sag.DRIVE_DEMAND _ (hx _ (by decide)))

def sagOutKeys : List Nat := [2176, 2192, 2196, 2197, 2049]

theorem sagOutputs_out (s : State) : SagMid sagOutKeys s (sagOutputs s) := sagOutputs_mid (.refl _ s) (fun _ h => h)

theorem setSagState_mid {x : List Nat} {s t : State} (h : SagMid x s t) (n c : Nat) (hx : ∀ a ∈ [2064, 2072, 2048, 512], a ∈ x) : SagMid x s (setSagState n c t) := by
  unfold setSagState; dsimp only
  have h1 := ((h.set F.Sag.SAG_STATE_STATE n (hx _ (by decide))).set F.Sag.CAUSE c (hx _ (by decide))).set F.Sag.OPERATE (bit (n == 3)) (hx _ (by decide))
  split
  · exact h1
  · exact h1.raise _ _ (hx _ (by decide))

theorem setSagState_sag (n c : Nat) (t : State) : (setSagState n c t).sag = t.sag := by
  unfold setSagState; dsimp only; split
  · rfl
  · rcases sagRaise_cases Ev.sagStateChange (c * 256 + n * 16 + t.sagState) (((t.set F.Sag.SAG_STATE_STATE pgSag n).set F.Sag.CAUSE pgSag c).set F.Sag.OPERATE pgSag (bit (n == 3))) with g | g <;> rw [g]
    · rfl
    · rw [State.raise_sag]; rfl

theorem setSagState_spec (n c : Nat) (t : State) : (setSagState n c t).sagState = low 2 n ∧ (setSagState n c t).get F.Sag.CAUSE pgSag = low 8 c ∧
    (setSagState n c t).get F.Sag.OPERATE pgSag = bit (n == 3) := by
  obtain ⟨w, hw⟩ : ∃ w : State, w = ((t.set F.Sag.SAG_STATE_STATE pgSag n).set F.Sag.CAUSE pgSag c).set F.Sag.OPERATE pgSag (bit (n == 3)) := ⟨_, rfl⟩
  have w1 : w.get F.Sag.SAG_STATE_STATE pgSag = low 2 n := by rw [hw, State.get_set_off _ (by decide), State.get_set_off _ (by decide), State.get_set_self]; rfl
  have w2 : w.get F.Sag.CAUSE pgSag = low 8 c := by rw [hw, State.get_set_off _ (by decide), State.get_set_self]; rfl
  have w3 : w.get F.Sag.OPERATE pgSag = bit (n == 3) := by rw [hw, State.get_set_self]; cases (n == 3) <;> rfl
  have hc : setSagState n c t = w ∨ setSagState n c t = sagRaise Ev.sagStateChange (c * 256 + n * 16 + t.sagState) w := by
    unfold setSagState; dsimp only; rw [← hw]; split
    · exact .inl rfl
    · exact .inr rfl
  have m : SagMid [512] w (setSagState n c t) := by
    rcases hc with h | h <;> rw [h]
    · exact .refl _ w
    · exact (SagMid.refl _ w).raise _ _ (by decide)
  exact ⟨(m.get _ (by decide) (by decide) (by decide)).trans w1, (m.get _ (by decide) (by decide) (by decide)).trans w2, (m.get _ (by decide) (by decide) (by decide)).trans w3⟩

theorem enterSafe_state (c : Nat) (t : State) : (enterSafe c t).sagState = 1 := by
  unfold enterSafe; split
  · exact (setSagState_spec 1 c t).1
  · next h =>
    have h1 : t.sagState = 1 := Classical.byContradiction h
    split
    · unfold State.sagState; rw [State.get_set_off _ (by decide)]; exact h1
    · exact h1

theorem enterSafe_mid {x : List Nat} {s t : State} (h : SagMid x s t) (c : Nat) (hx : ∀ a ∈ [2064, 2072, 2048, 512], a ∈ x) : SagMid x s (enterSafe c t) := by
  unfold enterSafe; split
  · exact setSagState_mid h 1 c hx
  · split
    · exact h.set _ _ (hx _ (by decide))
    · exact h

theorem enterSafe_sag (c : Nat) (t : State) : (enterSafe c t).sag = t.sag := by
  unfold enterSafe; split
  · exact setSagState_sag 1 c t
  · split <;> rfl

theorem sagRaise_sag (e : Ev) (a : Nat) (t : State) : (sagRaise e a t).sag = t.sag := by
  rcases sagRaise_cases e a t with g | g <;> rw [g]
  exact State.raise_sag _ _ _ _

theorem sagDiag_mid {x : List Nat} {s t : State} (h : SagMid x s t) (r n : Nat) (hx : ∀ a ∈ [3712, 512], a ∈ x) : SagMid x s (sagDiag r n t) := by
  unfold sagDiag; exact (h.set F.Sag.DIAG_FAULTS _ (hx _ (by decide))).raise _ _ (hx _ (by decide))

theorem sagDiag_sag (r n : Nat) (t : State) : (sagDiag r n t).sag = t.sag := by unfold sagDiag; rw [sagRaise_sag]; rfl

theorem sagTrip_mid {x : List Nat} {s t : State} (h : SagMid x s t) (n : Nat) (hx : 512 ∈ x) : SagMid x s (sagTrip n t) := h.raise _ _ hx

theorem foldl_setBit (l : List Nat) (a i : Nat) : bitAt (l.foldl setBit a) i = (bitAt a i || decide (i ∈ l)) := by
  induction l generalizing a with
  | nil => simp
  | cons b l ih => rw [List.foldl_cons, ih, bitAt_setBit, Bool.or_assoc]; congr 1; simp [eq_comm (a := b)]

theorem latchTrip_mid {x : List Nat} {s t : State} (h : SagMid x s t) (f : Fld) (m n : Nat) (hf : (f.off + 0 * f.stride) * 32 + f.lo ∈ x) (hx : ∀ a ∈ [3840, 512], a ∈ x) : SagMid x s (latchTrip f m n t) := by
  unfold latchTrip; dsimp only; split
  · exact h
  · have h1 := (h.set f (((List.range 12).filter (fun i => bitAt m i && !bitAt (t.get f pgSag) i)).foldl setBit (t.get f pgSag)) hf)
    have h2 := h1.setI F.Sag.TRIP_COUNT 0 (min ((t.set f pgSag (((List.range 12).filter (fun i => bitAt m i && !bitAt (t.get f pgSag) i)).foldl setBit (t.get f pgSag))).getI F.Sag.TRIP_COUNT pgSag 0 + ((List.range 12).filter (fun i => bitAt m i && !bitAt (t.get f pgSag) i)).length) (2 ^ F.Sag.TRIP_COUNT.w - 1)) (hx _ (by decide))
    split
    · exact h2
    · exact sagTrip_mid h2 _ (hx _ (by decide))

theorem latchTrip_sag (f : Fld) (m n : Nat) (t : State) : (latchTrip f m n t).sag = t.sag := by
  unfold latchTrip; dsimp only; split
  · rfl
  · split
    · rfl
    · unfold sagTrip; rw [sagRaise_sag]; rfl

theorem latchTrip_bit (f : Fld) (m n i : Nat) (t : State) (hi : i < 12) (hw : i < f.w) (hf : (f.off + 0 * f.stride) * 32 + f.lo ≠ 512 ∧ (f.off + 0 * f.stride) * 32 + f.lo ≠ 3840) (h4 : f.off + 0 * f.stride < 4096) (h5 : f.lo < 32)
    (hb : bitAt m i = true) : bitAt ((latchTrip f m n t).get f pgSag) i = true := by
  obtain ⟨new, hn⟩ : ∃ new : List Nat, new = (List.range 12).filter (fun i => bitAt m i && !bitAt (t.get f pgSag) i) := ⟨_, rfl⟩
  unfold latchTrip; dsimp only; rw [← hn]
  split
  · next he =>
    have : new = [] := by simpa using he
    have hx : i ∉ new := by rw [this]; simp
    rw [hn] at hx; simp [hb, hi] at hx; exact hx
  · obtain ⟨w, hw'⟩ : ∃ w : State, w = (t.set f pgSag (new.foldl setBit (t.get f pgSag))).satI F.Sag.TRIP_COUNT pgSag 0 new.length := ⟨_, rfl⟩
    have wb : bitAt (w.get f pgSag) i = true := by
      rw [hw']; unfold State.satI
      rw [show ∀ (z : State) v, (z.setI F.Sag.TRIP_COUNT pgSag 0 v).get f pgSag = z.get f pgSag from fun z v => State.get_set_off z (fun e => hf.2 (by rw [e]; decide))]
      rw [State.get_set_self, bitAt_low hw, foldl_setBit]
      cases hq : bitAt (t.get f pgSag) i
      · simp [hn, hb, hi, hq]
      · rfl
    rw [← hw']; split
    · exact wb
    · unfold sagTrip
      rw [((SagMid.refl [512] w).raise Ev.sagTrip _ (by decide)).get f h4 h5 (by simpa using hf.1)]; exact wb

theorem sagChannels_of {x : List Nat} {s t : State} (h : SagMid x s t) (hx : 2056 ∉ x) : t.sagChannels = s.sagChannels := by
  unfold State.sagChannels; rw [h.get F.Sag.CHANNELS_OK (by decide) (by decide) hx]

theorem sagState_of {x : List Nat} {s t : State} (h : SagMid x s t) (hx : 2064 ∉ x) : t.sagState = s.sagState :=
  h.get F.Sag.SAG_STATE_STATE (by decide) (by decide) hx

theorem channelLost_spec (ch row : Nat) (s : State) (hc : ch < 3) (hb : bitAt (s.get F.Sag.CHANNELS_OK pgSag) ch = true) :
    (channelLost ch row s).get F.Sag.CHANNELS_OK pgSag = low 3 (clearBit (s.get F.Sag.CHANNELS_OK pgSag) ch) ∧ (channelLost ch row s).sag = s.sag ∧
      ((channelLost ch row s).sagChannels.length < 2 → (channelLost ch row s).sagState = 1) ∧
      (2 ≤ (channelLost ch row s).sagChannels.length → (channelLost ch row s).sagState = s.sagState) := by
  obtain ⟨w, hw⟩ : ∃ w : State, w = sagRaise Ev.sagChannelLost (row * 256 + ch) (sagDiag row ch (s.set F.Sag.CHANNELS_OK pgSag (clearBit (s.get F.Sag.CHANNELS_OK pgSag) ch))) := ⟨_, rfl⟩
  have wm : SagMid [3712, 512] (s.set F.Sag.CHANNELS_OK pgSag (clearBit (s.get F.Sag.CHANNELS_OK pgSag) ch)) w := by
    rw [hw]; exact (sagDiag_mid (.refl _ _) _ _ (fun _ h => h)).raise _ _ (by decide)
  have wc : w.get F.Sag.CHANNELS_OK pgSag = low 3 (clearBit (s.get F.Sag.CHANNELS_OK pgSag) ch) := by
    rw [wm.get _ (by decide) (by decide) (by decide), State.get_set_self]; rfl
  have ws : w.sagState = s.sagState := by rw [sagState_of wm (by decide)]; exact State.get_set_off _ (by decide)
  have wg : w.sag = s.sag := by rw [hw, sagRaise_sag, sagDiag_sag]; rfl
  have e : channelLost ch row s = if w.sagChannels.length < 2 ∧ w.sagState ≠ 1 then sagTrip 5 (enterSafe 2 w) else if w.sagChannels.length < 2 then enterSafe 2 w else w := by
    unfold channelLost; rw [if_pos ⟨hc, hb⟩]; dsimp only; rw [← hw]
  have em : SagMid [2064, 2072, 2048, 512] w (enterSafe 2 w) := enterSafe_mid (.refl _ w) 2 (fun _ h => h)
  have tm : SagMid [512] (enterSafe 2 w) (sagTrip 5 (enterSafe 2 w)) := sagTrip_mid (.refl _ _) _ (by decide)
  rw [e]; split
  · next h =>
    refine ⟨?_, ?_, fun _ => ?_, fun h2 => ?_⟩
    · rw [tm.get _ (by decide) (by decide) (by decide), em.get _ (by decide) (by decide) (by decide), wc]
    · unfold sagTrip; rw [sagRaise_sag, enterSafe_sag, wg]
    · rw [sagState_of tm (by decide)]; exact enterSafe_state 2 w
    · rw [sagChannels_of tm (by decide), sagChannels_of em (by decide)] at h2; omega
  · split
    · next h =>
      refine ⟨?_, ?_, fun _ => enterSafe_state 2 w, fun h2 => ?_⟩
      · rw [em.get _ (by decide) (by decide) (by decide), wc]
      · rw [enterSafe_sag, wg]
      · rw [sagChannels_of em (by decide)] at h2; omega
    · next h => exact ⟨wc, wg, fun h2 => absurd h2 h, fun _ => ws⟩

theorem channelLost_mid {x : List Nat} {s t : State} (h : SagMid x s t) (ch row : Nat) (hx : ∀ a ∈ [2056, 3712, 2064, 2072, 2048, 512], a ∈ x) : SagMid x s (channelLost ch row t) := by
  unfold channelLost; split
  · dsimp only
    have h1 := (sagDiag_mid (h.set F.Sag.CHANNELS_OK (clearBit (t.get F.Sag.CHANNELS_OK pgSag) ch) (hx _ (by decide))) row ch (fun a ha => hx a (by revert ha; revert a; decide))).raise Ev.sagChannelLost (row * 256 + ch) (hx _ (by decide))
    have h2 := enterSafe_mid h1 2 (fun a ha => hx a (by revert ha; revert a; decide))
    split
    · exact sagTrip_mid h2 _ (hx _ (by decide))
    · split
      · exact h2
      · exact h1
  · exact h

theorem sagFinding_mid {x : List Nat} {s t : State} (h : SagMid x s t) (row n : Nat) (hx : ∀ a ∈ [2056, 3712, 2064, 2072, 2048, 512], a ∈ x) : SagMid x s (sagFinding row n t) := by
  have d : ∀ r n, SagMid x s (sagDiag r n t) := fun r n => sagDiag_mid h r n (fun a ha => hx a (by revert ha; revert a; decide))
  have e : ∀ c r n, SagMid x s (enterSafe c (sagDiag r n t)) := fun c r n => enterSafe_mid (d r n) c (fun a ha => hx a (by revert ha; revert a; decide))
  unfold sagFinding
  by_cases c1 : row = 3 ∨ row = 4
  · rw [if_pos c1]; exact channelLost_mid h _ _ hx
  rw [if_neg c1]
  by_cases c2 : row = 5
  · rw [if_pos c2]; dsimp only
    by_cases c3 : t.sagState = 1
    · rw [if_pos c3]; exact e 3 5 n
    · rw [if_neg c3]; exact sagTrip_mid (e 3 5 n) 5 (hx _ (by decide))
  rw [if_neg c2]
  by_cases c3 : row = 7
  · rw [if_pos c3]; exact e 6 7 n
  rw [if_neg c3]
  by_cases c4 : row = 10
  · rw [if_pos c4]
    by_cases c5 : n = 1
    · rw [if_pos c5]; exact h.upd _ (fun _ => ⟨rfl, rfl, rfl, rfl⟩)
    rw [if_neg c5]
    by_cases c6 : t.sag.wireBad = true
    · rw [if_pos c6]; exact e 6 10 0
    · rw [if_neg c6]; exact h.upd _ (fun _ => ⟨rfl, rfl, rfl, rfl⟩)
  · rw [if_neg c4]; exact h

theorem crossCompare_mid {x : List Nat} {s t : State} (h : SagMid x s t) (v : Nat → Nat × Nat) (hx : ∀ a ∈ [2056, 3712, 2064, 2072, 2048, 512], a ∈ x) : SagMid x s (crossCompare v t) := by
  have hd : ∀ l : Tbl Nat, SagMid x s (t.updSag (fun y => { y with differ := l })) := fun l => h.upd _ (fun _ => ⟨rfl, rfl, rfl, rfl⟩)
  have key : ∀ i n, SagMid x s (if 3 ≤ n then channelLost i 1 (t.updSag (fun y => { y with differ := [(i, n)] })) else t.updSag (fun y => { y with differ := [(i, n)] })) := by
    intro i n
    by_cases c : 3 ≤ n
    · rw [if_pos c]; exact channelLost_mid (hd [(i, n)]) i 1 hx
    · rw [if_neg c]; exact hd [(i, n)]
  unfold crossCompare
  by_cases c : t.sagChannels.length = 3
  · rw [if_pos c]
    cases oddOne v with
    | some i => exact key i _
    | none => exact hd []
  · rw [if_neg c]; exact h

theorem sagReadback_mid {x : List Nat} {s t : State} (h : SagMid x s t) (l : List Nat) (hx : ∀ a ∈ [2056, 3712, 2064, 2072, 2048, 512], a ∈ x) : SagMid x s (sagReadback l t) := by
  unfold sagReadback; dsimp only
  have h1 : SagMid x s (t.updSag (fun y => { y with readBad := l })) := h.upd _ (fun _ => ⟨rfl, rfl, rfl, rfl⟩)
  split
  · exact h1
  · exact enterSafe_mid (sagDiag_mid h1 _ _ (fun a ha => hx a (by revert ha; revert a; decide))) _ (fun a ha => hx a (by revert ha; revert a; decide))

def sagCycKeys : List Nat := [2056, 3712, 2064, 2072, 2048, 512, 3840, 2335, 2334, 2448, 2436, 2432, 2060, 2316]

theorem sagPair_mid {s t : State} (h : SagMid sagCycKeys s t) (k o f : Nat) : SagMid sagCycKeys s (sagPair k o f t) := by
  unfold sagPair; dsimp only; split
  · exact h.upd _ (fun _ => ⟨rfl, rfl, rfl, rfl⟩)
  · have h1 : SagMid sagCycKeys s (forAll ((List.range 2).filter (bitAt (bits f (2 * k) 2))) t (fun j => sagDiag 9 (2 * k + j))) :=
      SagMid.forAll _ _ _ h (fun a _ u hu => sagDiag_mid hu _ _ (by decide))
    generalize forAll _ t _ = w at h1 ⊢
    split
    · exact h1.upd _ (fun _ => ⟨rfl, rfl, rfl, rfl⟩)
    · have hu : ∀ g : SagX → SagX, (∀ y, (g y).start = y.start ∧ (g y).stop = y.stop ∧ (g y).reset = y.reset ∧ (g y).up = y.up) → SagMid sagCycKeys s (w.updSag g) := fun g hg => h1.upd g hg
      have lt : ∀ z, SagMid sagCycKeys s z → SagMid sagCycKeys s (latchTrip (if k = 0 then F.Sag.ESTOP_TRIP else F.Sag.GUARD_TRIP) 1 4 z) := by
        intro z hz; split
        · exact latchTrip_mid hz _ _ _ (by decide) (by decide)
        · exact latchTrip_mid hz _ _ _ (by decide) (by decide)
      apply lt
      have br : ∀ z, SagMid sagCycKeys s z → SagMid sagCycKeys s (if z.sagState = 3 then setSagState 2 (0x11 + k) z else z) := by
        intro z hz; split
        · exact setSagState_mid hz _ _ (by decide)
        · exact hz
      exact br _ (hu _ (fun _ => ⟨rfl, rfl, rfl, rfl⟩))

theorem sagSpeed_mid {x : List Nat} {s t : State} (h : SagMid x s t) (e : List Nat) (b : Bool) (hx : ∀ a ∈ [2448, 2436, 2432, 512], a ∈ x) : SagMid x s (sagSpeed e b t) := by
  unfold sagSpeed; dsimp only
  have h1 := h.set F.Sag.SPEED (min (e.mergeSort.getD ((e.mergeSort.length - 1) / 2) 0) 65535) (hx _ (by decide))
  have h2 := h1.set F.Sag.SENC_FAULT 1 (hx _ (by decide))
  refine SagMid.forAll _ _ _ ?_ ?_
  · split
    · exact h1
    · exact h2
  · intro k _ u hu; split
    · split
      · exact sagTrip_mid (hu.set _ _ (hx _ (by decide))) _ (hx _ (by decide))
      · exact hu.set _ _ (hx _ (by decide))
    · split
      · exact hu.set _ _ (hx _ (by decide))
      · exact hu

theorem sagSpeed_sag (e : List Nat) (b : Bool) (t : State) : (sagSpeed e b t).sag = t.sag := by
  unfold sagSpeed; dsimp only
  refine forAll_over _ _ _ (fun u => u.sag = t.sag) ?_ ?_
  · split <;> rfl
  · intro k _ u hu; split
    · split
      · unfold sagTrip; rw [sagRaise_sag]; exact hu
      · exact hu
    · split
      · exact hu
      · exact hu

theorem sagReplica_mid {s t : State} (h : SagMid sagCycKeys s t) : SagMid sagCycKeys s (sagReplica t) := by
  unfold sagReplica; dsimp only; split
  · exact h
  · have h1 : SagMid sagCycKeys s ((t.updSag (fun x => { x with disagree := 0 })).set F.Sag.REPLICA pgSag t.sag.disagree) :=
      (h.upd _ (fun _ => ⟨rfl, rfl, rfl, rfl⟩)).set _ _ (by decide)
    split
    · exact latchTrip_mid h1 _ _ _ (by decide) (by decide)
    · exact h1

def sagReqKeys : List Nat := [512, 2335, 2334, 2332, 2320, 2319, 2316, 2304, 2436, 2064, 2072, 2048]

theorem sagReset_mid {s t : State} (h : SagMid sagReqKeys s t) (b : Bool) : SagMid sagReqKeys s (sagReset b t) := by
  unfold sagReset; dsimp only; split
  · exact h.raise _ _ (by decide)
  · refine (SagMid.forAll _ _ _ h ?_).upd _ (fun _ => ⟨rfl, rfl, rfl, rfl⟩)
    intro f hf u hu
    exact hu.set f 0 (by revert hf; revert f; decide)

theorem sagStart_mid {s t : State} (h : SagMid sagReqKeys s t) : SagMid sagReqKeys s (sagStart t) := by
  unfold sagStart; split
  · exact h
  · split
    · exact setSagState_mid h _ _ (by decide)
    · exact h.raise _ _ (by decide)

theorem sagRequests_eq (t z : State) (hz : z = t.updSag (fun x => { x with start := false, stop := false, reset := none })) :
    ∃ w : State, ((t.sag.reset = none ∧ w = z) ∨ ∃ ok, t.sag.reset = some ok ∧ w = sagReset ok z) ∧
      sagRequests t = if t.sag.stop then (if w.sagState = 3 then setSagState 2 0x10 w else w) else if t.sag.start then sagStart w else w := by
  cases hr : t.sag.reset with
  | none => exact ⟨z, .inl ⟨rfl, rfl⟩, by unfold sagRequests; simp only [hr]; rw [hz]⟩
  | some ok => exact ⟨sagReset ok z, .inr ⟨ok, rfl, rfl⟩, by unfold sagRequests; simp only [hr]; rw [hz]⟩

theorem sagReset_open (b : Bool) (t : State) : (sagReset b t).sag.openNow = t.sag.openNow := by
  unfold sagReset; dsimp only; split
  · rw [sagRaise_sag]
  · have : (forAll [F.Sag.ESTOP_TRIP, F.Sag.GUARD_TRIP, F.Sag.CURE_TEMP_TRIP, F.Sag.OV_TRIP, F.Sag.STOP_TEMP_TRIP,
      F.Sag.REPLICA_TRIP, F.Sag.DRIVE_TEMP_TRIP, F.Sag.SENC_FAULT] t (fun f s => s.set f pgSag 0)).sag = t.sag :=
      forAll_over _ t _ (fun u => u.sag = t.sag) rfl (fun f _ u hu => hu)
    rw [State.updSag_sag, this]

theorem sagRequests_mid (t : State) : SagMid sagReqKeys (t.updSag (fun x => { x with start := false, stop := false, reset := none })) (sagRequests t) ∧
    (sagRequests t).sag.openNow = t.sag.openNow := by
  obtain ⟨z, hz⟩ : ∃ z : State, z = t.updSag (fun x => { x with start := false, stop := false, reset := none }) := ⟨_, rfl⟩
  obtain ⟨w, hw, e⟩ := sagRequests_eq t z hz
  have z0 : z.sag.openNow = t.sag.openNow := by rw [hz]; rfl
  have hm : SagMid sagReqKeys z w ∧ w.sag.openNow = t.sag.openNow := by
    rcases hw with ⟨_, h⟩ | ⟨ok, _, h⟩ <;> rw [h]
    · exact ⟨.refl _ z, z0⟩
    · exact ⟨sagReset_mid (.refl _ z) ok, (sagReset_open ok z).trans z0⟩
  have hs : SagMid sagReqKeys z (sagStart w) ∧ (sagStart w).sag.openNow = t.sag.openNow := by
    refine ⟨sagStart_mid hm.1, ?_⟩
    unfold sagStart; split
    · exact hm.2
    · split
      · rw [setSagState_sag]; exact hm.2
      · rw [sagRaise_sag]; exact hm.2
  rw [← hz, e]; split
  · split
    · exact ⟨setSagState_mid hm.1 _ _ (by decide), by rw [setSagState_sag]; exact hm.2⟩
    · exact hm
  · split
    · exact hs
    · exact hm

theorem sagRequests_stop (t : State) (h : t.sag.stop = true) : (sagRequests t).sagState ≠ 3 := by
  obtain ⟨w, hw, e⟩ := sagRequests_eq t _ rfl
  rw [e, if_pos h]; split
  · rw [(setSagState_spec 2 0x10 w).1]; decide
  · assumption

theorem sagRequests_start (t : State) (h1 : t.sag.start = true) (h2 : t.sag.stop = false) (h3 : t.sag.reset = none) (h4 : t.sagState = 2) (h5 : t.sagTrips = 0) (h6 : t.sag.openNow = 0) :
    (sagRequests t).sagState = 3 ∧ (sagRequests t).get F.Sag.OPERATE pgSag = 1 := by
  obtain ⟨z, hz⟩ : ∃ z : State, z = t.updSag (fun x => { x with start := false, stop := false, reset := none }) := ⟨_, rfl⟩
  have z1 : z.sagState = 2 := by rw [hz]; exact h4
  have z2 : z.sagTrips = 0 := by rw [hz]; exact h5
  have z3 : z.sag.openNow = 0 := by rw [hz]; exact h6
  have zc : z.sagClosed = true := by
    unfold State.sagClosed; rw [z3]; simp [bits]
  obtain ⟨w, hw, e⟩ := sagRequests_eq t z hz
  have hwz : w = z := by
    rcases hw with ⟨_, h⟩ | ⟨ok, h, _⟩
    · exact h
    · rw [h3] at h; simp at h
  have e2 : sagRequests t = setSagState 3 (z.get F.Sag.CAUSE pgSag) z := by
    rw [e, if_neg (by simp [h2]), if_pos h1, hwz]; unfold sagStart; rw [if_neg (by omega), if_pos ⟨z1, z2, zc⟩]
  obtain ⟨a, _, b⟩ := setSagState_spec 3 (z.get F.Sag.CAUSE pgSag) z
  rw [e2]; exact ⟨a, b⟩

theorem forAll_est {α : Type} (l : List α) (t : State) (F : α → State → State) (P : State → Prop) (a : α) (ha : a ∈ l)
    (h1 : ∀ u, P (F a u)) (h2 : ∀ b ∈ l, ∀ u, P u → P (F b u)) : P (forAll l t F) := by
  induction l generalizing t with
  | nil => simp at ha
  | cons b l ih =>
    rw [forAll_cons]
    by_cases h : a ∈ l
    · exact ih _ h (fun c hc => h2 c (List.mem_cons_of_mem _ hc))
    · have hb : a = b := by rcases List.mem_cons.mp ha with e | e; exact e; exact absurd e h
      rw [← hb]
      exact forAll_over l (F a t) F P (h1 t) (fun c hc => h2 c (List.mem_cons_of_mem _ hc))

theorem sagShown_reset (f : Fld) (hf : f ∈ sagShown) (h0 : 0 < f.cnt)
    (hk : ∀ g ∈ sagShown, ∀ j ∈ List.range g.cnt, (g.off + j * g.stride) * 32 + g.lo = (f.off + 0 * f.stride) * 32 + f.lo → g = f ∧ j = 0) (t : State) :
    (forAll sagShown t (fun f s => forAll (List.range f.cnt) s (fun i s => s.setI f pgSag i (f.rst pgSag i)))).get f pgSag = low f.w (f.rst pgSag 0) := by
  have one : ∀ g ∈ sagShown, ∀ j ∈ List.range g.cnt, ∀ u : State, u.get f pgSag = low f.w (f.rst pgSag 0) → (u.setI g pgSag j (g.rst pgSag j)).get f pgSag = low f.w (f.rst pgSag 0) := by
    intro g hg j hj u hu
    by_cases e : (g.off + j * g.stride) * 32 + g.lo = (f.off + 0 * f.stride) * 32 + f.lo
    · obtain ⟨e1, e2⟩ := hk g hg j hj e
      rw [e1, e2]; exact State.getI_setI_self _ _ _ _ _
    · exact (State.getI_setI_off u (fun h => e h.symm)).trans hu
  refine forAll_est sagShown t _ (fun u => u.get f pgSag = low f.w (f.rst pgSag 0)) f hf (fun u => ?_) (fun g hg u hu => ?_)
  · refine forAll_est (List.range f.cnt) u _ (fun u => u.get f pgSag = low f.w (f.rst pgSag 0)) 0 (List.mem_range.mpr h0) (fun u => ?_) (fun j hj u hu => one f hf j hj u hu)
    exact State.getI_setI_self _ _ _ _ _
  · exact forAll_over (List.range g.cnt) u _ (fun u => u.get f pgSag = low f.w (f.rst pgSag 0)) hu (fun j hj u hu => one g hg j hj u hu)

theorem sagShown_keys : ∀ f ∈ [F.Sag.SAG_STATE_STATE, F.Sag.CAUSE, F.Sag.CHANNELS_OK, F.Sag.OPERATE, F.Sag.DRIVE_EN, F.Sag.CURE_EN, F.Sag.SAFE_STATE, F.Sag.PRESS_STOP_REQ],
    f ∈ sagShown ∧ 0 < f.cnt ∧ ∀ g ∈ sagShown, ∀ j ∈ List.range g.cnt, (g.off + j * g.stride) * 32 + g.lo = (f.off + 0 * f.stride) * 32 + f.lo → g = f ∧ j = 0 := by
  decide

/-- The mode in force and PORST_n. -/
def ModeSame (s t : State) : Prop := t.modeNow = s.modeNow ∧ t.mode.porst = s.mode.porst

theorem ModeSame.pageI {s t : State} (h : ModeSame s t) (f : Fld) (i v : Nat) (hf : f.off + i * f.stride < 4096) (hl : f.lo < 32) : ModeSame s (t.setI f pgSag i v) :=
  ⟨(show (t.setI f pgSag i v).modeNow = t.modeNow from State.getI_setI_page _ _ hf hl (by decide) (by decide) (by decide)).trans h.1, h.2⟩

theorem ModeSame.page {s t : State} (h : ModeSame s t) (f : Fld) (v : Nat) (hf : f.off + 0 * f.stride < 4096) (hl : f.lo < 32) : ModeSame s (t.set f pgSag v) := h.pageI f 0 v hf hl

theorem ModeSame.mode {s t : State} (h : ModeSame s t) (f : Fld) (v : Nat) (hf : (F.Mode.MODE.off + 0 * F.Mode.MODE.stride) * 32 + F.Mode.MODE.lo ≠ (f.off + 0 * f.stride) * 32 + f.lo) : ModeSame s (t.set f pgMode v) :=
  ⟨(show (t.set f pgMode v).modeNow = t.modeNow from State.get_set_off _ hf).trans h.1, h.2⟩

theorem raise_modeNow (t : State) (e : Ev) (pg a : Nat) (hp : pg ≠ pgLedger) : (t.raise e pg a).modeNow = t.modeNow := by
  unfold State.modeNow
  by_cases h : pg = pgMode
  · rw [h]; exact State.get_raise_off _ _ (by decide) (by decide) (by decide) (by decide)
  · have g : t.OnPages (t.raise e pg a) [pg, pgLedger] := (State.OnPages.refl t _).raise e a (by simp) hp (by simp)
    exact g.get (by simp [Ne.symm h]; decide) (by decide) (by decide)

theorem ModeSame.raise {s t : State} (h : ModeSame s t) (e : Ev) (pg a : Nat) (hp : pg ≠ pgLedger) : ModeSame s (t.raise e pg a) := by
  refine ⟨(raise_modeNow t e pg a hp).trans h.1, ?_⟩
  rw [State.raise_mode]; exact h.2

theorem setCause_mode (i : Nat) (s : State) : ModeSame s (setCause i s) := by
  have h0 : ModeSame s ((s.set F.Mode.SAFE_HOLD_CAUSE pgMode (setBit (s.get F.Mode.SAFE_HOLD_CAUSE pgMode) i)).stamp (setKey F.Mode.SAFE_HOLD_CAUSE pgMode i) s.now) :=
    (show ModeSame s s from ⟨rfl, rfl⟩).mode F.Mode.SAFE_HOLD_CAUSE (setBit (s.get F.Mode.SAFE_HOLD_CAUSE pgMode) i) (by decide)
  have h1 : ∀ z, ModeSame s z → ModeSame s (refuseGo z) := by
    intro z hz; unfold refuseGo; split
    · split
      · exact ((show ModeSame s { z with mode := { z.mode with goAt := none } } from hz).mode _ _ (by decide)).raise _ _ _ (by decide)
      · exact hz
    · exact hz
  have h2 : ∀ z, ModeSame s z → ModeSame s (leaveDormant z) := by
    intro z hz; refine ⟨?_, (leaveDormant_sag z).2.trans hz.2⟩
    exact (get_of_regs (leaveDormant_regs z) _ _).trans hz.1
  have h3 := h1 _ h0
  unfold setCause; split
  · exact ⟨rfl, rfl⟩
  · dsimp only; generalize refuseGo _ = z at h3 ⊢
    split
    · split
      · exact ((h2 z h3).mode _ _ (by decide)).mode _ _ (by decide)
      · exact h3
    · split
      · exact h3
      · unfold startTransition; exact ((h2 z h3).mode _ _ (by decide)).mode _ _ (by decide)

theorem ModeSame.latch {s t : State} (h : ModeSame s t) : ModeSame s (sagLatch t) := by
  rcases sagLatch_cases t with g | g <;> rw [g]
  · exact h
  · exact ⟨(setCause_mode 1 t).1.trans h.1, (setCause_mode 1 t).2.trans h.2⟩

theorem ModeSame.outputs {s t : State} (h : ModeSame s t) : ModeSame s (sagOutputs t) := by
  unfold sagOutputs; dsimp only
  have h0 : ∀ d, ModeSame s { t with hk := { t.hk with driveAt := d } } := fun d => h
  exact ((((((h0 _).page F.Sag.DRIVE_EN _ (by decide) (by decide)).page F.Sag.CURE_EN _ (by decide) (by decide)).page F.Sag.PRESS_STOP_REQ _ (by decide) (by decide)).page F.Sag.SAFE_STATE _ (by decide) (by decide)).page F.Sag.DRIVE_DEMAND _ (by decide) (by decide)).latch

theorem ModeSame.sagState {s t : State} (h : ModeSame s t) (n c : Nat) : ModeSame s (setSagState n c t) := by
  unfold setSagState; dsimp only
  have h1 := ((h.page F.Sag.SAG_STATE_STATE n (by decide) (by decide)).page F.Sag.CAUSE c (by decide) (by decide)).page F.Sag.OPERATE (bit (n == 3)) (by decide) (by decide)
  split
  · exact h1
  · rcases sagRaise_cases Ev.sagStateChange (c * 256 + n * 16 + t.sagState) (((t.set F.Sag.SAG_STATE_STATE pgSag n).set F.Sag.CAUSE pgSag c).set F.Sag.OPERATE pgSag (bit (n == 3))) with g | g <;> rw [g]
    · exact h1
    · exact h1.raise _ _ _ (by decide)

theorem takeParams_spec (w : Nat → Nat) (t : State) : (takeParams w t).get F.Sag.PARAMS_VALID pgSag = 1 ∧ (takeParams w t).get F.Sag.ACTIVE_CRC pgSag = low 32 (w 63) ∧
    (∀ i < 64, (takeParams w t).sagParam i = low 32 (w i)) ∧ (takeParams w t).get F.Sag.CAUSE pgSag = t.get F.Sag.CAUSE pgSag ∧
    (takeParams w t).get F.Sag.CHANNELS_OK pgSag = t.get F.Sag.CHANNELS_OK pgSag ∧ (takeParams w t).sag = t.sag ∧ ModeSame t (takeParams w t) := by
  obtain ⟨u, hu⟩ : ∃ u : State, u = forAll (List.range 64) t (fun i s => s.setI F.Sag.PARAM_ACTIVE pgSag i (w i)) := ⟨_, rfl⟩
  have e : takeParams w t = (u.set F.Sag.ACTIVE_CRC pgSag (w 63)).set F.Sag.PARAMS_VALID pgSag 1 := by unfold takeParams; rw [hu]
  have uo : ∀ f : Fld, (∀ i < 64, (f.off + 0 * f.stride) * 32 + f.lo ≠ (F.Sag.PARAM_ACTIVE.off + i * F.Sag.PARAM_ACTIVE.stride) * 32 + F.Sag.PARAM_ACTIVE.lo) → u.get f pgSag = t.get f pgSag := by
    intro f hf; rw [hu]
    refine forAll_over (List.range 64) t _ (fun v => v.get f pgSag = t.get f pgSag) rfl (fun i hi v hv => ?_)
    exact (State.getI_setI_off v (hf i (List.mem_range.mp hi))).trans hv
  have us : u.sag = t.sag := by rw [hu]; exact forAll_over (List.range 64) t _ (fun v => v.sag = t.sag) rfl (fun i _ v hv => hv)
  have um : ModeSame t u := by
    rw [hu]
    refine forAll_over (List.range 64) t _ (fun v => ModeSame t v) ⟨rfl, rfl⟩ (fun i hi v hv => hv.pageI _ _ _ ?_ (by decide))
    have : ∀ i < 64, F.Sag.PARAM_ACTIVE.off + i * F.Sag.PARAM_ACTIVE.stride < 4096 := by decide
    exact this i (List.mem_range.mp hi)
  rw [e]
  refine ⟨by rw [State.get_set_self]; rfl, by rw [State.get_set_off _ (by decide), State.get_set_self]; rfl, fun i hi => ?_, ?_, ?_, ?_, ?_⟩
  · unfold State.sagParam
    have k1 : ∀ i < 64, (F.Sag.PARAM_ACTIVE.off + i * F.Sag.PARAM_ACTIVE.stride) * 32 + F.Sag.PARAM_ACTIVE.lo ≠ (F.Sag.PARAMS_VALID.off + 0 * F.Sag.PARAMS_VALID.stride) * 32 + F.Sag.PARAMS_VALID.lo ∧
      (F.Sag.PARAM_ACTIVE.off + i * F.Sag.PARAM_ACTIVE.stride) * 32 + F.Sag.PARAM_ACTIVE.lo ≠ (F.Sag.ACTIVE_CRC.off + 0 * F.Sag.ACTIVE_CRC.stride) * 32 + F.Sag.ACTIVE_CRC.lo := by decide
    rw [State.getI_set_off _ (k1 i hi).1, State.getI_set_off _ (k1 i hi).2, hu]
    have k2 : ∀ i < 64, ∀ j < 64, j ≠ i → (F.Sag.PARAM_ACTIVE.off + i * F.Sag.PARAM_ACTIVE.stride) * 32 + F.Sag.PARAM_ACTIVE.lo ≠ (F.Sag.PARAM_ACTIVE.off + j * F.Sag.PARAM_ACTIVE.stride) * 32 + F.Sag.PARAM_ACTIVE.lo := by
      intro i _ j _ h; show (0x500 + i * 4) * 32 + 0 ≠ (0x500 + j * 4) * 32 + 0; omega
    refine forAll_est (List.range 64) t _ (fun v => v.getI F.Sag.PARAM_ACTIVE pgSag i = low 32 (w i)) i (List.mem_range.mpr hi) (fun v => State.getI_setI_self _ _ _ _ _) (fun j hj v hv => ?_)
    by_cases h : j = i
    · rw [h]; exact State.getI_setI_self _ _ _ _ _
    · exact (State.getI_setI_off v (k2 i hi j (List.mem_range.mp hj) h)).trans hv
  · rw [State.get_set_off _ (by decide), State.get_set_off _ (by decide)]; exact uo _ (by decide)
  · rw [State.get_set_off _ (by decide), State.get_set_off _ (by decide)]; exact uo _ (by decide)
  · exact us
  · exact (um.page _ _ (by decide) (by decide)).page _ _ (by decide) (by decide)

theorem oddOne_none (v : Nat → Nat × Nat) (h : ∀ i < 3, v i = (0, 0)) : oddOne v = none := by
  unfold oddOne; rw [List.find?_eq_none]
  intro i hi
  have hi := List.mem_range.mp hi
  rw [h i hi, h ((i + 1) % 3) (Nat.mod_lt _ (by decide)), h ((i + 2) % 3) (Nat.mod_lt _ (by decide))]; decide

theorem crossCompare_quiet (v : Nat → Nat × Nat) (h : ∀ i < 3, v i = (0, 0)) (t : State) : ∃ d, crossCompare v t = t.updSag (fun x => { x with differ := d }) := by
  unfold crossCompare; split
  · rw [oddOne_none v h]; exact ⟨[], rfl⟩
  · exact ⟨t.sag.differ, rfl⟩

theorem sagPair_quiet (k : Nat) (t : State) : ∃ p, sagPair k 0 0 t = t.updSag (fun x => { x with present := p }) := by
  unfold sagPair; dsimp only
  have b0 : bits 0 (2 * k) 2 = 0 := by simp [bits]
  rw [b0]; split
  · exact ⟨clearBit t.sag.present k, rfl⟩
  · rw [show (List.range 2).filter (bitAt 0) = [] from by decide, forAll_nil, if_pos ⟨rfl, rfl⟩]; exact ⟨clearBit t.sag.present k, rfl⟩

theorem sagTrips_of {x : List Nat} {s t : State} (h : SagMid x s t) (hx : ∀ a ∈ [2335, 2334, 2332, 2320, 2319, 2316, 2304], a ∉ x) : t.sagTrips = s.sagTrips := by
  unfold State.sagTrips; dsimp only
  rw [h.get F.Sag.ESTOP_TRIP (by decide) (by decide) (hx _ (by decide)), h.get F.Sag.GUARD_TRIP (by decide) (by decide) (hx _ (by decide)), h.get F.Sag.CURE_TEMP_TRIP (by decide) (by decide) (hx _ (by decide)),
    h.get F.Sag.OV_TRIP (by decide) (by decide) (hx _ (by decide)), h.get F.Sag.STOP_TEMP_TRIP (by decide) (by decide) (hx _ (by decide)), h.get F.Sag.REPLICA_TRIP (by decide) (by decide) (hx _ (by decide)),
    h.get F.Sag.DRIVE_TEMP_TRIP (by decide) (by decide) (hx _ (by decide))]

theorem bitAt_bits (v a w i : Nat) (h : i < w) : bitAt (bits v a w) i = bitAt v (a + i) := by
  rw [bitAt_eq_testBit, bitAt_eq_testBit]; unfold bits
  rw [Nat.testBit_mod_two_pow, Nat.testBit_div_two_pow]; simp [h, Nat.add_comm]

end Sys2Proof.Machine
end

