-- ==== Sys2Proof/Laws/OfRailSequence.lean ====
section
/-! SUPPORT. Lemmas that the statements about its unit: RailSequence rest on. -/

-- One declaration after another: the package is also checked as one text, where too many threads would start at once.
set_option Elab.async false

set_option linter.unusedVariables false
set_option linter.unusedSimpArgs false

namespace Sys2Proof.Machine

/-- One page outside the keys that a predicate allows. -/
def PgMid (pg : Nat) (P : Nat → Prop) (s t : State) : Prop :=
  ∀ (g : Fld) (i : Nat), g.off + i * g.stride < 4096 → g.lo < 32 → ¬ P ((g.off + i * g.stride) * 32 + g.lo) → t.getI g pg i = s.getI g pg i

theorem PgMid.refl (pg : Nat) (P : Nat → Prop) (s : State) : PgMid pg P s s := fun _ _ _ _ _ => rfl

theorem PgMid.trans {pg : Nat} {P : Nat → Prop} {s t u : State} (h : PgMid pg P s t) (g : PgMid pg P t u) : PgMid pg P s u :=
  fun f i a b c => (g f i a b c).trans (h f i a b c)

theorem PgMid.mono {pg : Nat} {P Q : Nat → Prop} {s t : State} (h : PgMid pg P s t) (hq : ∀ k, P k → Q k) : PgMid pg Q s t :=
  fun f i a b c => h f i a b (fun p => c (hq _ p))

theorem PgMid.setI {pg : Nat} {P : Nat → Prop} {s t : State} (h : PgMid pg P s t) (f : Fld) (i v : Nat) (hp : P ((f.off + i * f.stride) * 32 + f.lo)) : PgMid pg P s (t.setI f pg i v) :=
  fun g j a b c => (State.getI_setI_off _ (fun e => c (by rw [e]; exact hp))).trans (h g j a b c)

theorem PgMid.away {pg q : Nat} {P : Nat → Prop} {s t : State} (h : PgMid pg P s t) (f : Fld) (i v : Nat) (hq : pg ≠ q) (h1 : f.off + i * f.stride < 4096) (h2 : f.lo < 32) : PgMid pg P s (t.setI f q i v) :=
  fun g j a b c => (State.getI_setI_page _ _ h1 h2 a b hq).trans (h g j a b c)

theorem PgMid.keep {pg : Nat} {P : Nat → Prop} {s t u : State} (h : PgMid pg P s t) (e : u.regs = t.regs) : PgMid pg P s u := by
  intro g j a b c; unfold State.getI; rw [e]; exact h g j a b c

theorem PgMid.pages {pg : Nat} {P : Nat → Prop} {s t u : State} {ps : List Nat} (h : PgMid pg P s t) (g : t.OnPages u ps) (hp : pg ∉ ps) : PgMid pg P s u :=
  fun f i a b c => (g.getI hp a b).trans (h f i a b c)

theorem PgMid.raise {pg : Nat} {P : Nat → Prop} {s t : State} (h : PgMid pg P s t) (e : Ev) (a : Nat) (hp : P 512) (hl : pg ≠ pgLedger) : PgMid pg P s (t.raise e pg a) :=
  fun g j b c d => (State.getI_raise_off _ _ hl (fun q => d (by rw [q]; exact hp)) b c).trans (h g j b c d)

theorem PgMid.get {pg : Nat} {P : Nat → Prop} {s t : State} (h : PgMid pg P s t) (f : Fld) (hf : f.off + 0 * f.stride < 4096) (hl : f.lo < 32) (hx : ¬ P ((f.off + 0 * f.stride) * 32 + f.lo)) :
    t.get f pg = s.get f pg := h f 0 hf hl hx

theorem PgMid.forAll {α : Type} {pg : Nat} {P : Nat → Prop} {s : State} (l : List α) (t : State) (f : α → State → State) (h : PgMid pg P s t)
    (hf : ∀ a ∈ l, ∀ u, PgMid pg P s u → PgMid pg P s (f a u)) : PgMid pg P s (forAll l t f) := forAll_over l t f (fun u => PgMid pg P s u) h hf

/-- Keys of the rail fields whose lowest bit is one of a list. -/
def railKey (l : List Nat) (key : Nat) : Prop := ∃ k b, k < 16 ∧ b ∈ l ∧ key = (0x10C + 0x20 * k) * 32 + b

theorem railKey_mk {l : List Nat} {k b : Nat} (hk : k < 16) (hb : b ∈ l) {n : Nat} (e : n = (0x10C + 0x20 * k) * 32 + b) : railKey l n := ⟨k, b, hk, hb, e⟩

theorem railKey_low {l : List Nat} (hl : ∀ b ∈ l, b < 32) {n : Nat} (h : n < 0x10C * 32) : ¬ railKey l n := by
  rintro ⟨k, b, _, hb, e⟩; omega

theorem railKey_not {l : List Nat} (hl : ∀ b ∈ l, b < 32) {k b : Nat} (hb : b < 32) (h : b ∉ l) : ¬ railKey l ((0x10C + k * 0x20) * 32 + b) := by
  rintro ⟨j, c, _, hc, e⟩
  have := hl c hc
  have : b = c := by omega
  exact h (this ▸ hc)

theorem stepRails_lt {s : State} {n k : Nat} (h : k ∈ s.stepRails n) : k < 16 := List.mem_range.mp (List.mem_filter.mp h).1

theorem setSeq_spec (a b : Nat) (s : State) : (setSeq a b s).seqState = low 3 a ∧ (setSeq a b s).seqStep = low 4 b ∧ PgMid pgSeq (fun k => k = 2176 ∨ k = 2192) s (setSeq a b s) := by
  unfold setSeq State.seqState State.seqStep
  refine ⟨by rw [State.get_set_off _ (by decide), State.get_set_self]; rfl, by rw [State.get_set_self]; rfl, ?_⟩
  exact ((PgMid.refl _ _ s).setI F.Seq.SEQ_STATUS_STATE 0 a (.inl (by decide))).setI F.Seq.SEQ_STATUS_STEP 0 b (.inr (by decide))

theorem turnOn_mid (k : Nat) (hk : k < 16) (s : State) : PgMid pgSeq (railKey [0]) s (turnOn k s) := by
  have h1 := ((PgMid.refl pgSeq (railKey [0]) s).setI F.Seq.ON k 1 (railKey_mk hk (b := 0) (by simp) (by show (0x10C + k * 0x20) * 32 + 0 = _; omega)))
  unfold turnOn; dsimp only; split
  · exact (((h1.keep (u := (s.setI F.Seq.ON pgSeq k 1).updRail _) rfl).away F.Core.PHASES 0 _ (by decide) (by decide) (by decide)).keep rfl)
  · exact h1.keep rfl

theorem turnOn_on (k : Nat) (s : State) : (turnOn k s).getI F.Seq.ON pgSeq k = 1 := by
  have h0 : (s.setI F.Seq.ON pgSeq k 1).getI F.Seq.ON pgSeq k = 1 := State.getI_setI_self _ _ _ _ _
  have hlt : 0 < 4096 := by decide
  unfold turnOn; dsimp only; split
  · rename_i h
    generalize hv : State.phaseMask _ _ = v
    have hk : ∀ u : State, u.getI F.Seq.ON pgSeq k = 1 → (u.set F.Core.PHASES pgCore v).getI F.Seq.ON pgSeq k = 1 := by
      intro u hu
      exact (State.getI_setI_lo u (by decide) (by decide) (by decide)).trans hu
    exact hk _ h0
  · exact h0

theorem turnOn_keeps (j k : Nat) (s : State) (h : s.getI F.Seq.ON pgSeq k = 1) : (turnOn j s).getI F.Seq.ON pgSeq k = 1 := by
  by_cases e : j = k
  · rw [e]; exact turnOn_on k s
  · have h0 : (s.setI F.Seq.ON pgSeq j 1).getI F.Seq.ON pgSeq k = 1 := by
      refine (State.getI_setI_off s ?_).trans h
      show (0x10C + k * 0x20) * 32 + 0 ≠ (0x10C + j * 0x20) * 32 + 0; omega
    unfold turnOn; dsimp only; split
    · generalize hv : State.phaseMask _ _ = v
      have hk : ∀ u : State, u.getI F.Seq.ON pgSeq k = 1 → (u.set F.Core.PHASES pgCore v).getI F.Seq.ON pgSeq k = 1 := by
        intro u hu
        exact (State.getI_setI_lo u (by decide) (by decide) (by decide)).trans hu
      exact hk _ h0
    · exact h0

theorem turnOff_mid (k : Nat) (hk : k < 16) (s : State) : PgMid pgSeq (railKey [0, 1]) s (turnOff k s) := by
  have h1 := ((PgMid.refl pgSeq (railKey [0, 1]) s).setI F.Seq.ON k 0 (railKey_mk hk (b := 0) (by simp) (by show (0x10C + k * 0x20) * 32 + 0 = _; omega))).setI F.Seq.IN_WINDOW k 0 (railKey_mk hk (by simp) (b := 1) (by show (0x10C + k * 0x20) * 32 + 1 = _; omega))
  unfold turnOff; dsimp only; split
  · exact (h1.keep (u := ((s.setI F.Seq.ON pgSeq k 0).setI F.Seq.IN_WINDOW pgSeq k 0).updRail _) rfl).away F.Core.PHASES 0 _ (by decide) (by decide) (by decide)
  · exact h1.keep rfl

theorem rails_of {P : Nat → Prop} {s t : State} (h : PgMid pgSeq P s t) (n : Nat)
    (hP : ∀ k < 16, ¬ P ((F.Seq.RAIL_EN.off + k * F.Seq.RAIL_EN.stride) * 32 + F.Seq.RAIL_EN.lo) ∧ ¬ P ((F.Seq.RAIL_STEP.off + k * F.Seq.RAIL_STEP.stride) * 32 + F.Seq.RAIL_STEP.lo)) :
    t.stepRails n = s.stepRails n := by
  have hlt : ∀ k < 16, F.Seq.RAIL_EN.off + k * F.Seq.RAIL_EN.stride < 4096 ∧ F.Seq.RAIL_STEP.off + k * F.Seq.RAIL_STEP.stride < 4096 := by decide
  unfold State.stepRails
  refine List.filter_congr (fun k hk => ?_)
  have hk := List.mem_range.mp hk
  unfold State.railOn State.railGet
  rw [h F.Seq.RAIL_EN k (hlt k hk).1 (by decide) (hP k hk).1, h F.Seq.RAIL_STEP k (hlt k hk).2 (by decide) (hP k hk).2]

theorem onRails_of {P : Nat → Prop} {s t : State} (h : PgMid pgSeq P s t) (n : Nat)
    (hP : ∀ k < 16, ¬ P ((F.Seq.RAIL_EN.off + k * F.Seq.RAIL_EN.stride) * 32 + F.Seq.RAIL_EN.lo) ∧ ¬ P ((F.Seq.RAIL_STEP.off + k * F.Seq.RAIL_STEP.stride) * 32 + F.Seq.RAIL_STEP.lo))
    (hO : ∀ k < 16, ¬ P ((F.Seq.ON.off + k * F.Seq.ON.stride) * 32 + F.Seq.ON.lo)) : t.onRails n = s.onRails n := by
  have hlt : ∀ k < 16, F.Seq.ON.off + k * F.Seq.ON.stride < 4096 := by decide
  unfold State.onRails
  rw [rails_of h n hP]
  refine List.filter_congr (fun k hk => ?_)
  have hk := stepRails_lt hk
  unfold State.railOn
  rw [h F.Seq.ON k (hlt k hk) (by decide) (hO k hk)]

/-- A fault of a rail, where it does not take the part to Dormant. -/
theorem railFails_mid (k kind : Nat) (hk : k < 16) (s : State) (hs : s.seqState ≠ 2) : PgMid pgSeq (fun n => n = 512 ∨ railKey [2] n) s (railFails k kind s) ∧ (railFails k kind s).railOn F.Seq.FAULT k = true := by
  unfold railFails; split
  · next h => exact ⟨.refl _ _ s, h⟩
  · next h =>
    obtain ⟨u, hu⟩ : ∃ u : State, u = railEvent k kind (s.setI F.Seq.FAULT pgSeq k 1) := ⟨_, rfl⟩
    have um : PgMid pgSeq (fun n => n = 512 ∨ railKey [2] n) s u := by
      rw [hu]; unfold railEvent
      exact ((PgMid.refl _ _ s).setI F.Seq.FAULT k 1 (.inr (railKey_mk hk (b := 2) (by simp) (by show (0x10C + k * 0x20) * 32 + 2 = _; omega)))).raise _ _ (.inl rfl) (by decide)
    have uf : u.getI F.Seq.FAULT pgSeq k = 1 := by
      rw [hu]; unfold railEvent
      rw [State.getI_raise_off _ _ (by decide) (by show (0x10C + k * 0x20) * 32 + 2 ≠ 512; omega) (by show 0x10C + k * 0x20 < 4096; omega) (by decide)]
      exact State.getI_setI_self _ _ _ _ _
    have cm := setCause_pages 6 u
    have um2 : PgMid pgSeq (fun n => n = 512 ∨ railKey [2] n) s (setCause 6 u) := um.pages cm (by decide)
    have us : (setCause 6 u).seqState = s.seqState := um2.get F.Seq.SEQ_STATUS_STATE (by decide) (by decide) (by
      rintro (h | h)
      · revert h; decide
      · exact railKey_low (by decide) (by decide) h)
    dsimp only; rw [← hu, if_neg (by rw [us]; simp [hs])]
    refine ⟨um2, ?_⟩
    unfold State.railOn
    rw [cm.getI (by decide) (by show 0x10C + k * 0x20 < 4096; omega) (by decide), uf]; rfl

theorem fallFrom_some (a : Nat) (s : State) (n : Nat) (h1 : n ≤ a) (h2 : n < 16) (h3 : s.onRails n ≠ []) :
    (fallFrom a s).seqState = 3 ∧ PgMid pgSeq (fun k => (k = 2176 ∨ k = 2192) ∨ railKey [0, 1] k) s (fallFrom a s) := by
  have hm : n ∈ ((List.range 16).filter (fun t => decide (t ≤ a) && !(s.onRails t).isEmpty)).reverse := by
    rw [List.mem_reverse, List.mem_filter]
    exact ⟨List.mem_range.mpr h2, by simp [h1, h3]⟩
  unfold fallFrom; dsimp only
  cases hl : ((List.range 16).filter (fun t => decide (t ≤ a) && !(s.onRails t).isEmpty)).reverse with
  | nil => rw [hl] at hm; simp at hm
  | cons t l =>
    dsimp only
    obtain ⟨q1, _, q3⟩ := setSeq_spec 3 t s
    have m : PgMid pgSeq (railKey [0, 1]) (setSeq 3 t s) (forAll (s.onRails t) (setSeq 3 t s) turnOff) :=
      PgMid.forAll _ _ _ (.refl _ _ _) (fun k hk u hu => hu.trans (turnOff_mid k (stepRails_lt (List.mem_filter.mp hk).1) u))
    refine ⟨(m.get F.Seq.SEQ_STATUS_STATE (by decide) (by decide) (railKey_low (by decide) (by decide))).trans q1, ?_⟩
    exact (q3.mono (fun k h => .inl h)).trans (m.mono (fun k h => .inr h))

theorem fallFrom_none (a : Nat) (s : State) (h : ∀ n < 16, n ≤ a → s.onRails n = []) : (fallFrom a s).seqState = if s.rail.why = 2 then 4 else 0 := by
  have e : ((List.range 16).filter (fun t => decide (t ≤ a) && !(s.onRails t).isEmpty)) = [] := by
    rw [List.filter_eq_nil_iff]; intro t ht
    have ht := List.mem_range.mp ht
    by_cases ha : t ≤ a
    · simp [h t ht ha]
    · simp [ha]
  unfold fallFrom; dsimp only; rw [e]; dsimp only [List.reverse_nil]
  rw [(setSeq_spec _ _ s).1]; split <;> rfl

end Sys2Proof.Machine
end

