-- ==== Sys2Proof/Laws/OfRailPolls.lean ====
section
/-! SUPPORT. Lemmas that the statements about its unit: RailPolls rest on. -/

-- One declaration after another: the package is also checked as one text, where too many threads would start at once.
set_option Elab.async false

set_option linter.unusedVariables false
set_option linter.unusedSimpArgs false

namespace Sys2Proof.Machine

theorem railIdx (k : Nat) (hk : k < 16) (o b : Nat) (ho : o < 32) : 0x100 + o + k * 0x20 < 4096 := by omega

theorem inWindow_of {P : Nat → Prop} {s t : State} (h : PgMid pgSeq P s t) (k mv : Nat) (hk : k < 16)
    (hP : ∀ b ∈ [0, 8, 16], ¬ P ((0x104 + k * 0x20) * 32 + b)) : t.inWindow k mv = s.inWindow k mv := by
  unfold State.inWindow State.railGet
  rw [h F.Seq.NOM_MV k (by show 0x104 + k * 0x20 < 4096; omega) (by decide) (hP 16 (by decide)), h F.Seq.UV k (by show 0x104 + k * 0x20 < 4096; omega) (by decide) (hP 8 (by decide)),
    h F.Seq.OV k (by show 0x104 + k * 0x20 < 4096; omega) (by decide) (hP 0 (by decide))]

/-- What a reading that is shown changes. -/
theorem showReading_spec (k mv : Nat) (hk : k < 16) (s : State) : PgMid pgSeq (railKey [1, 16]) s (showReading k mv s) ∧ (showReading k mv s).railGet F.Seq.READ_MV k = low 16 mv ∧
    (showReading k mv s).railOn F.Seq.IN_WINDOW k = s.inWindow k mv ∧ (showReading k mv s).rail = s.rail := by
  obtain ⟨u, hu⟩ : ∃ u : State, u = (s.setI F.Seq.READ_MV pgSeq k mv).setI F.Seq.IN_WINDOW pgSeq k (bit (s.inWindow k mv)) := ⟨_, rfl⟩
  have um : PgMid pgSeq (railKey [1, 16]) s u := by
    rw [hu]
    exact ((PgMid.refl _ _ s).setI F.Seq.READ_MV k mv (railKey_mk hk (b := 16) (by simp) (by show (0x10C + k * 0x20) * 32 + 16 = _; omega))).setI F.Seq.IN_WINDOW k _
      (railKey_mk hk (b := 1) (by simp) (by show (0x10C + k * 0x20) * 32 + 1 = _; omega))
  have u1 : u.railGet F.Seq.READ_MV k = low 16 mv := by
    rw [hu]; unfold State.railGet; rw [State.getI_setI_off _ (by show (0x10C + k * 0x20) * 32 + 16 ≠ (0x10C + k * 0x20) * 32 + 1; omega), State.getI_setI_self]; rfl
  have u2 : u.railOn F.Seq.IN_WINDOW k = s.inWindow k mv := by
    rw [hu]; unfold State.railOn; rw [State.getI_setI_self]; cases s.inWindow k mv <;> rfl
  have e : showReading k mv s = u ∨ showReading k mv s = u.set F.Core.VOUT_MV pgCore mv := by
    unfold showReading; dsimp only; rw [← hu]; split
    · exact .inr rfl
    · exact .inl rfl
  have far : ∀ (f : Fld) i, f.off + i * f.stride < 4096 → f.lo < 32 → (u.set F.Core.VOUT_MV pgCore mv).getI f pgSeq i = u.getI f pgSeq i := fun f i a b =>
    ((PgMid.refl pgSeq (fun _ => False) u).away F.Core.VOUT_MV 0 mv (by decide) (by decide) (by decide)) f i a b (fun h => h)
  have ur : u.rail = s.rail := by rw [hu]; rfl
  rcases e with e | e <;> rw [e]
  · exact ⟨um, u1, u2, ur⟩
  · refine ⟨um.away F.Core.VOUT_MV 0 mv (by decide) (by decide) (by decide), ?_, ?_, ur⟩
    · unfold State.railGet; rw [far _ _ (by show 0x10C + k * 0x20 < 4096; omega) (by decide)]; exact u1
    · unfold State.railOn; rw [far _ _ (by show 0x10C + k * 0x20 < 4096; omega) (by decide)]; exact u2

theorem nodup_split {α : Type} {l : List α} (hn : l.Nodup) {k : α} (hk : k ∈ l) : ∃ a b, l = a ++ k :: b ∧ (∀ j ∈ a, j ≠ k) ∧ ∀ j ∈ b, j ≠ k := by
  obtain ⟨a, b, e⟩ := List.append_of_mem hk
  refine ⟨a, b, e, fun j hj h => ?_, fun j hj h => ?_⟩
  · rw [e, List.nodup_append] at hn; exact hn.2.2 j hj k (by simp) h
  · rw [e, List.nodup_append] at hn; rw [h] at hj; exact (List.nodup_cons.mp hn.2.1).1 hj

theorem forAll_append {α : Type} (a b : List α) (s : State) (f : α → State → State) : forAll (a ++ b) s f = forAll b (forAll a s f) f := by
  induction a generalizing s with
  | nil => rfl
  | cons x a ih => rw [List.cons_append, forAll_cons, forAll_cons, ih]

theorem clearFault_spec (readings : List (Nat × Nat)) (s v : State) (hv : v = showReadings readings s) : ∀ k < 16,
      (v.railOn F.Seq.FAULT k = true → v.railOn F.Seq.IN_WINDOW k = true → v.railOn F.Seq.ON k = true → (clearFault readings s).railOn F.Seq.FAULT k = false ∧ tget (clearFault readings s).rail.out k 0 = 0) ∧
      (v.railOn F.Seq.FAULT k = false ∨ v.railOn F.Seq.IN_WINDOW k = false ∨ v.railOn F.Seq.ON k = false → (clearFault readings s).railOn F.Seq.FAULT k = v.railOn F.Seq.FAULT k) := by
  intro k hk
  obtain ⟨St, hF⟩ : ∃ St : Nat → State → State, St = fun k s => if (s.railOn F.Seq.FAULT k && s.railOn F.Seq.IN_WINDOW k && s.railOn F.Seq.ON k) = true then
      (s.setI F.Seq.FAULT pgSeq k 0).updRail (fun x => { x with out := tputD x.out k 0 0 }) else s := ⟨_, rfl⟩
  have e : clearFault readings s = forAll (List.range 16) v St := by unfold clearFault; rw [hv, hF]
  obtain ⟨a, b, hab, ha, hb⟩ := nodup_split List.nodup_range (List.mem_range.mpr hk)
  have step : ∀ j, j ≠ k → ∀ u : State, (St j u).railOn F.Seq.FAULT k = u.railOn F.Seq.FAULT k ∧ (St j u).railOn F.Seq.IN_WINDOW k = u.railOn F.Seq.IN_WINDOW k ∧
      (St j u).railOn F.Seq.ON k = u.railOn F.Seq.ON k ∧ tget (St j u).rail.out k 0 = tget u.rail.out k 0 := by
    intro j hj u; rw [hF]; dsimp only; split
    · refine ⟨?_, ?_, ?_, ?_⟩
      · unfold State.railOn; rw [show ∀ z : State, ∀ g, (z.updRail g).getI F.Seq.FAULT pgSeq k = z.getI F.Seq.FAULT pgSeq k from fun _ _ => rfl, State.getI_setI_off u (by show (0x10C + k * 0x20) * 32 + 2 ≠ (0x10C + j * 0x20) * 32 + 2; omega)]
      · unfold State.railOn; rw [show ∀ z : State, ∀ g, (z.updRail g).getI F.Seq.IN_WINDOW pgSeq k = z.getI F.Seq.IN_WINDOW pgSeq k from fun _ _ => rfl, State.getI_setI_off u (by show (0x10C + k * 0x20) * 32 + 1 ≠ (0x10C + j * 0x20) * 32 + 2; omega)]
      · unfold State.railOn; rw [show ∀ z : State, ∀ g, (z.updRail g).getI F.Seq.ON pgSeq k = z.getI F.Seq.ON pgSeq k from fun _ _ => rfl, State.getI_setI_off u (by show (0x10C + k * 0x20) * 32 + 0 ≠ (0x10C + j * 0x20) * 32 + 2; omega)]
      · rw [State.updRail_rail]; exact tget_tputD_ne u.rail.out 0 0 0 (Ne.symm hj)
    · exact ⟨rfl, rfl, rfl, rfl⟩
  have many : ∀ (l : List Nat), (∀ j ∈ l, j ≠ k) → ∀ u : State, (forAll l u St).railOn F.Seq.FAULT k = u.railOn F.Seq.FAULT k ∧ (forAll l u St).railOn F.Seq.IN_WINDOW k = u.railOn F.Seq.IN_WINDOW k ∧
      (forAll l u St).railOn F.Seq.ON k = u.railOn F.Seq.ON k ∧ tget (forAll l u St).rail.out k 0 = tget u.rail.out k 0 := by
    intro l hl u
    refine forAll_over l u St (fun z => z.railOn F.Seq.FAULT k = u.railOn F.Seq.FAULT k ∧ z.railOn F.Seq.IN_WINDOW k = u.railOn F.Seq.IN_WINDOW k ∧
      z.railOn F.Seq.ON k = u.railOn F.Seq.ON k ∧ tget z.rail.out k 0 = tget u.rail.out k 0) ⟨rfl, rfl, rfl, rfl⟩ (fun j hj z hz => ?_)
    obtain ⟨p, q, r, t⟩ := step j (hl j hj) z
    exact ⟨p.trans hz.1, q.trans hz.2.1, r.trans hz.2.2.1, t.trans hz.2.2.2⟩
  have e2 : clearFault readings s = forAll b (St k (forAll a v St)) St := by rw [e, hab, forAll_append, forAll_cons]
  obtain ⟨m1, m2, m3, _⟩ := many a ha v
  obtain ⟨n1, _, _, n4⟩ := many b hb (St k (forAll a v St))
  rw [e2, n1, n4]
  obtain ⟨w, hw⟩ : ∃ w : State, w = forAll a v St := ⟨_, rfl⟩
  rw [← hw] at m1 m2 m3 ⊢
  refine ⟨fun h1 h2 h3 => ?_, fun h => ?_⟩
  · have : St k w = (w.setI F.Seq.FAULT pgSeq k 0).updRail (fun x => { x with out := tputD x.out k 0 0 }) := by
      rw [hF]; dsimp only; rw [if_pos (by rw [m1, m2, m3, h1, h2, h3]; rfl)]
    rw [this]
    refine ⟨?_, by rw [State.updRail_rail]; exact tget_tputD_self w.rail.out k 0 0⟩
    unfold State.railOn
    rw [show ∀ z : State, ∀ g, (z.updRail g).getI F.Seq.FAULT pgSeq k = z.getI F.Seq.FAULT pgSeq k from fun _ _ => rfl, State.getI_setI_self]; rfl
  · have : St k w = w := by
      rw [hF]; dsimp only; rw [if_neg (by rw [m1, m2, m3]; rcases h with h | h | h <;> simp [h])]
    rw [this, m1]

theorem coreFault_eq (kind value phase : Nat) (s : State) : ∃ u, coreFault kind value phase s = railFails 0 2 u ∧ PgMid pgCore (fun n => n = 512) s u ∧ s.OnPages u [pgCore, pgLedger] ∧ u.rail = s.rail ∧
    bitAt (u.get F.Hdr.EVENT_STATUS pgCore) Ev.pwrCoreFault.bit = true := by
  refine ⟨s.raise Ev.pwrCoreFault pgCore (low 16 value * 2 ^ 16 + kind * 2 ^ 8 + phase), rfl, (PgMid.refl _ _ s).raise _ _ rfl (by decide), (State.OnPages.refl s _).raise _ _ (by decide) (by decide) (by decide), State.raise_rail _ _ _ _, State.raise_bit _ _ _ (by decide) (by decide)⟩

end Sys2Proof.Machine
end

