-- ==== Sys2Proof/Laws/OfHeadAck.lean ====
section
/-! SUPPORT. Lemmas that the statements about its unit: HeadAck rest on. -/

-- One declaration after another: the package is also checked as one text, where too many threads would start at once.
set_option Elab.async false

set_option linter.unusedVariables false
set_option linter.unusedSimpArgs false

namespace Sys2Proof.Machine

theorem enqueue_hk (out k : Nat) (q : QFrame) (s : State) : (enqueue out k q s).hk = s.hk := by
  unfold enqueue; dsimp only; split
  · rfl
  · rw [State.raise_hk]; rfl

theorem slowSend_hk (flags : Nat) (s : State) : (slowSend flags s).hk.slowAt = s.now ∧ (slowSend flags s).hk.slowSeq = (s.hk.slowSeq + 1) % 2 ^ 32 := by
  obtain ⟨u, hu⟩ : ∃ u : State, u = s.free.2.free.2.updHk (fun x => { x with slowAt := s.now, slowSeq := (x.slowSeq + 1) % 2 ^ 32 }) := ⟨_, rfl⟩
  have uh : u.hk.slowAt = s.now ∧ u.hk.slowSeq = (s.hk.slowSeq + 1) % 2 ^ 32 := by rw [hu]; exact ⟨rfl, rfl⟩
  obtain ⟨f, hf⟩ : ∃ f : Frame, f = parseFrame (s.free.2.free.2.udpAround (s.get F.Thm.SLOW_DST_IP pgThm) (s.get F.Thm.SLOW_DST_PORT pgThm) s.free.1 s.free.2.free.1 (s.slowPayload flags)) := ⟨_, rfl⟩
  have key : (slowSend flags s).hk = u.hk := by
    have e : slowSend flags s = match u.vlanOf 0 none with
      | none => u.sat F.Sw.VLAN_DROPS pgSw
      | some (v, vid, pcp) => forAll (u.forwardTo 0 v vid f.dst) u (fun out s => sendOut f v vid pcp 0 { bytes := [], arrived := s.now } (pcp / 2) out s) := by
      rw [hu, hf]; rfl
    rw [e]
    cases u.vlanOf 0 none with
    | none => rfl
    | some x =>
      obtain ⟨v, vid, pcp⟩ := x
      dsimp only
      refine forAll_over _ u _ (fun z => z.hk = u.hk) rfl (fun out ho z hz => ?_)
      have : out ≠ 0 := fun h => forwardTo_ne u 0 v vid f.dst (h ▸ ho)
      unfold sendOut; rw [if_neg this]; exact (enqueue_hk _ _ _ _).trans hz
  rw [key]; exact uh

theorem badRound_start (code : Nat) (s u : State) (hu : u = ((s.sat F.Hk.BAD_ROUNDS pgHk).set F.Hk.ADC_OK pgHk 0).updHk (fun x => { x with bad := x.bad + 1 })) (w : State)
    (hw : w = u.raise Ev.thermAdcFault pgHk (arg64 (u.get F.Hk.BAD_ROUNDS pgHk) code)) :
    badRound code s = (if w.hk.bad < 3 then w else forAll [0, 1, 2] (forAll (List.range 64) w (fun ch s => s.setI F.Hk.HK_VALUE_VALID pgHk ch 0))
      (fun d s => if s.get (levelField d) pgThm < 2 ∧ s.ready pgThm then setLevel d 2 s else s)) ∧ w.hk.bad = s.hk.bad + 1 ∧ PgMid pgHk (fun n => n = 512 ∨ n = 2192 ∨ n = 2176) s w ∧ s.OnPages w [pgHk, pgLedger] ∧
      w.get F.Hk.BAD_ROUNDS pgHk = low 16 (min (s.get F.Hk.BAD_ROUNDS pgHk + 1) (2 ^ 16 - 1)) ∧ w.get F.Hk.ADC_OK pgHk = 0 ∧ bitAt (w.get F.Hdr.EVENT_STATUS pgHk) Ev.thermAdcFault.bit = true := by
  have um : PgMid pgHk (fun n => n = 512 ∨ n = 2192 ∨ n = 2176) s u := by
    rw [hu]
    exact (((PgMid.refl _ _ s).setI F.Hk.BAD_ROUNDS 0 _ (.inr (.inl (by decide)))).setI F.Hk.ADC_OK 0 0 (.inr (.inr (by decide)))).keep rfl
  have uo : s.OnPages u [pgHk, pgLedger] := by
    have a : s.OnPages (s.sat F.Hk.BAD_ROUNDS pgHk) [pgHk, pgLedger] := (State.OnPages.refl s _).setI (f := F.Hk.BAD_ROUNDS) (pg := pgHk) (i := 0) _ (by decide) (by decide) (by decide)
    have b : s.OnPages ((s.sat F.Hk.BAD_ROUNDS pgHk).set F.Hk.ADC_OK pgHk 0) [pgHk, pgLedger] := a.set _ (by decide) (by decide) (by decide)
    rw [hu]; exact b.keep rfl
  have ug : u.regs = ((s.sat F.Hk.BAD_ROUNDS pgHk).set F.Hk.ADC_OK pgHk 0).regs := by rw [hu]; rfl
  refine ⟨?_, ?_, ?_, ?_, ?_, ?_, ?_⟩
  · rw [hw, hu]; rfl
  · rw [hw, State.raise_hk, hu]; rfl
  · rw [hw]; exact um.raise _ _ (.inl rfl) (by decide)
  · rw [hw]; exact uo.raise _ _ (by decide) (by decide) (by decide)
  · rw [hw, State.get_raise_off _ _ (by decide) (by decide) (by decide) (by decide), get_of_regs ug, State.get_set_off _ (by decide), sat_self]; rfl
  · rw [hw, State.get_raise_off _ _ (by decide) (by decide) (by decide) (by decide), get_of_regs ug, State.get_set_self]; rfl
  · rw [hw]; exact State.raise_bit _ _ _ (by decide) (by decide)

theorem setLevel_two (d : Nat) (hd : d < 3) (z : State) : z.OnPages (setLevel d 2 z) [pgThm, pgLedger] ∧ (setLevel d 2 z).get (levelField d) pgThm = 2 ∧
    ∀ e < 3, e ≠ d → (setLevel d 2 z).get (levelField e) pgThm = z.get (levelField e) pgThm := by
  have kf : ∀ d < 3, (levelField d).off + 0 * (levelField d).stride < 4096 ∧ (levelField d).lo < 32 ∧ ((levelField d).off + 0 * (levelField d).stride) * 32 + (levelField d).lo ≠ 512 ∧ low (levelField d).w 2 = 2 := by decide
  have kn : ∀ d < 3, ∀ e < 3, e ≠ d → ((levelField e).off + 0 * (levelField e).stride) * 32 + (levelField e).lo ≠ ((levelField d).off + 0 * (levelField d).stride) * 32 + (levelField d).lo := by decide
  obtain ⟨a, b, c, f⟩ := kf d hd
  unfold setLevel; dsimp only; split
  · next h => exact ⟨.refl z _, h, fun _ _ _ => rfl⟩
  · rw [if_neg (by decide)]
    refine ⟨((State.OnPages.refl z _).set _ (by decide) a b).raise _ _ (by decide) (by decide) (by decide), ?_, fun e he hne => ?_⟩
    · rw [State.get_raise_off _ _ (by decide) c a b, State.get_set_self, f]
    · obtain ⟨a', b', c', _⟩ := kf e he
      rw [State.get_raise_off _ _ (by decide) c' a' b', State.get_set_off _ (kn d hd e he hne)]

theorem takeValue_code (ch : Nat) (hc : ch < 64) (code : Nat) (z : State) : (takeValue ch code z).getI F.Hk.CODE pgHk ch = low 12 code ∧
    ∀ j < 64, j ≠ ch → (takeValue ch code z).getI F.Hk.CODE pgHk j = z.getI F.Hk.CODE pgHk j := by
  obtain ⟨u, hu⟩ : ∃ u : State, u = z.setI F.Hk.CODE pgHk ch code := ⟨_, rfl⟩
  have all : ∀ j < 64, (takeValue ch code z).getI F.Hk.CODE pgHk j = u.getI F.Hk.CODE pgHk j := by
    intro j hj
    have vo : ∀ (y : State) v, (y.setI F.Hk.HK_VALUE_VALID pgHk ch v).getI F.Hk.CODE pgHk j = y.getI F.Hk.CODE pgHk j := fun y v => State.getI_setI_lo y (by decide) (by decide) (by decide)
    have wo : ∀ (y : State) v, (y.setI F.Hk.VALUE pgHk ch v).getI F.Hk.CODE pgHk j = y.getI F.Hk.CODE pgHk j := fun y v => State.getI_setI_lo y (by decide) (by decide) (by decide)
    unfold takeValue; dsimp only; rw [← hu]
    split
    · exact vo _ _
    · split
      · rw [wo, vo]
      · rw [wo]
        exact (show (u.setI F.Hk.HK_VALUE_VALID pgHk ch 1).getI F.Hk.CODE pgHk j = u.getI F.Hk.CODE pgHk j from vo u 1)
  refine ⟨?_, fun j hj hne => ?_⟩
  · rw [all ch hc, hu]; exact State.getI_setI_self _ _ _ _ _
  · rw [all j hj, hu]; exact State.getI_setI_off _ (by show (0x280 + j * 4) * 32 + 16 ≠ (0x280 + ch * 4) * 32 + 16; omega)

theorem headAck_spec (hi : Bool) (mask : Nat) (s : State) : ∀ p < 48,
      ((if hi = true then 32 ≤ p else p < 32) → bitAt mask (p % 32) = true → (∃ x, s.headTemp p = some x ∧ x < s.headThr (s.headType p) 3 - 96) →
        (headAck hi mask s).getI (headLatchField p) pgThm (p / 4) = 0) ∧
      ((if hi = true then p < 32 else 32 ≤ p) ∨ bitAt mask (p % 32) = false ∨ s.headTemp p = none ∨ (∃ x, s.headTemp p = some x ∧ s.headThr (s.headType p) 3 - 96 ≤ x) →
        (headAck hi mask s).getI (headLatchField p) pgThm (p / 4) = s.getI (headLatchField p) pgThm (p / 4)) := by
  intro p hp
  obtain ⟨n, hn⟩ : ∃ n : Nat, n = if hi then 16 else 32 := ⟨_, rfl⟩
  obtain ⟨b0, hb0⟩ : ∃ b0 : Nat, b0 = if hi then 32 else 0 := ⟨_, rfl⟩
  have hnb : (hi = true ∧ n = 16 ∧ b0 = 32) ∨ (hi = false ∧ n = 32 ∧ b0 = 0) := by cases hi <;> simp [hn, hb0]
  obtain ⟨cool, hcool⟩ : ∃ cool : Nat → State → Bool, cool = fun q s => match s.headTemp q with
      | some x => decide (x < s.headThr (s.headType q) 3 - 96)
      | none => false := ⟨_, rfl⟩
  obtain ⟨G, hG⟩ : ∃ G : Nat → State → State, G = fun i s => if (bitAt mask i && cool (b0 + i) s) = true then s.setI (headLatchField (b0 + i)) pgThm ((b0 + i) / 4) 0 else s := ⟨_, rfl⟩
  have e : headAck hi mask s = forAll (List.range n) s G := by
    unfold headAck; rw [← hn, ← hb0, hG, hcool] <;> rfl
  have lo3 : ∀ q, (headLatchField q).lo % 8 = 3 ∧ (headLatchField q).lo < 32 := by
    intro q; show (8 * (q % 4) + 3) % 8 = 3 ∧ 8 * (q % 4) + 3 < 32; omega
  have oth : ∀ q r, q ≠ r → ((headLatchField r).off + r / 4 * (headLatchField r).stride) * 32 + (headLatchField r).lo ≠ ((headLatchField q).off + q / 4 * (headLatchField q).stride) * 32 + (headLatchField q).lo := by
    intro q r h; show (0x300 + r / 4 * 4) * 32 + (8 * (r % 4) + 3) ≠ (0x300 + q / 4 * 4) * 32 + (8 * (q % 4) + 3); omega
  have keepG : ∀ i u, ∀ (g : Fld) pg j, g.lo < 32 → g.lo % 8 ≠ 3 → (G i u).getI g pg j = u.getI g pg j := by
    intro i u g pg j h1 h2; rw [hG]; dsimp only; split
    · exact State.getI_setI_lo u (fun h => h2 (by rw [h]; exact (lo3 _).1)) h1 (lo3 _).2
    · rfl
  have keepL : ∀ (l : List Nat) u, ∀ (g : Fld) pg j, g.lo < 32 → g.lo % 8 ≠ 3 → (forAll l u G).getI g pg j = u.getI g pg j := by
    intro l u g pg j h1 h2
    exact forAll_over l u G (fun z => z.getI g pg j = u.getI g pg j) rfl (fun i _ z hz => (keepG i z g pg j h1 h2).trans hz)
  have coolSame : ∀ u, (∀ (g : Fld) pg j, g.lo < 32 → g.lo % 8 ≠ 3 → u.getI g pg j = s.getI g pg j) → ∀ q, cool q u = cool q s := by
    intro u m q
    have l1 : u.laneGet F.Lane.SENSOR_0 q = s.laneGet F.Lane.SENSOR_0 q ∧ u.laneGet F.Lane.SENSOR_1 q = s.laneGet F.Lane.SENSOR_1 q :=
      ⟨m _ _ _ (by decide) (by decide), m _ _ _ (by decide) (by decide)⟩
    have l2 : u.headType q = s.headType q := m _ _ _ (by show 4 * (q % 8) < 32; omega) (by show 4 * (q % 8) % 8 ≠ 3; omega)
    have l3 : ∀ t, u.headThr t 3 = s.headThr t 3 := by
      intro t; unfold State.headThr; rw [if_neg (by decide), if_neg (by decide), m _ _ _ (by decide) (by decide)]
    have l0 : u.headTemp q = s.headTemp q := by unfold State.headTemp; rw [l1.1, l1.2]
    rw [hcool]; dsimp only; rw [l0, l2]; simp only [l3]
  have far : ∀ (l : List Nat) u, (∀ i ∈ l, b0 + i ≠ p) → (forAll l u G).getI (headLatchField p) pgThm (p / 4) = u.getI (headLatchField p) pgThm (p / 4) := by
    intro l u hl
    refine forAll_over l u G (fun z => z.getI (headLatchField p) pgThm (p / 4) = u.getI (headLatchField p) pgThm (p / 4)) rfl (fun i hi' z hz => ?_)
    rw [hG]; dsimp only; split
    · exact (State.getI_setI_off z (oth _ _ (hl i hi'))).trans hz
    · exact hz
  have mine : (if hi = true then 32 ≤ p else p < 32) → ∃ (u : State) (b : List Nat), forAll (List.range n) s G = forAll b (G (p % 32) u) G ∧ (∀ i ∈ b, b0 + i ≠ p) ∧
      u.getI (headLatchField p) pgThm (p / 4) = s.getI (headLatchField p) pgThm (p / 4) ∧ cool p u = cool p s ∧ b0 + p % 32 = p := by
    intro hh
    have hb : b0 + p % 32 = p ∧ p % 32 < n := by
      rcases hnb with ⟨a, b, c⟩ | ⟨a, b, c⟩ <;> rw [a] at hh <;> simp at hh <;> omega
    obtain ⟨a, b, hab, ha, hbb⟩ := nodup_split (List.nodup_range (n := n)) (List.mem_range.mpr hb.2)
    refine ⟨forAll a s G, b, by rw [hab, forAll_append, forAll_cons], fun i hi' h => hbb i hi' (by omega), far a s (fun i hi' h => ha i hi' (by omega)), coolSame _ (fun g pg j h1 h2 => keepL a s g pg j h1 h2) p, hb.1⟩
  rw [e]
  refine ⟨fun h1 h2 ⟨x, h3, h4⟩ => ?_, fun h => ?_⟩
  · obtain ⟨u, b, e1, e2, e3, e4, e5⟩ := mine h1
    have c0 : cool p u = true := by rw [e4, hcool]; dsimp only; rw [h3]; simpa using h4
    rw [e1, far b _ e2, hG]; dsimp only; rw [e5, if_pos (by rw [h2, c0]; rfl)]
    exact State.getI_setI_self _ _ _ _ _
  · by_cases hh : (if hi = true then 32 ≤ p else p < 32)
    · obtain ⟨u, b, e1, e2, e3, e4, e5⟩ := mine hh
      have c0 : (bitAt mask (p % 32) && cool p u) = false := by
        rcases h with h | h | h | ⟨x, h, hx⟩
        · cases hi <;> simp at h hh <;> omega
        · rw [h]; rfl
        · have : cool p u = false := by rw [e4, hcool]; dsimp only; rw [h]
          rw [this, Bool.and_false]
        · have : cool p u = false := by rw [e4, hcool]; dsimp only; rw [h]; simpa using hx
          rw [this, Bool.and_false]
      rw [e1, far b _ e2, hG]; dsimp only; rw [e5, if_neg (by rw [c0]; simp)]
      exact e3
    · refine far _ s (fun i hi' => ?_)
      have := List.mem_range.mp hi'
      rcases hnb with ⟨a, b, c⟩ | ⟨a, b, c⟩ <;> rw [a] at hh <;> simp at hh <;> omega

end Sys2Proof.Machine
end

