-- ==== Sys2Proof/Laws/OfJournalNor.lean ====
section
/-! SUPPORT. Lemmas that the statements about its unit: JournalNor rest on. -/

-- One declaration after another: the package is also checked as one text, where too many threads would start at once.
set_option Elab.async false

set_option linter.unusedVariables false
set_option linter.unusedSimpArgs false

namespace Sys2Proof.Machine

theorem setArea_area (l : List JSlot) (s : State) : (setArea l s).area = l := by
  unfold setArea
  by_cases h : s.on F.Nor.ACTIVE_AREA pgSto = true
  · rw [if_pos h]; unfold State.area
    rw [if_pos (show (s.updJrn _).on F.Nor.ACTIVE_AREA pgSto = true from h)]; rfl
  · rw [if_neg h]; unfold State.area
    rw [if_neg (show ¬ (s.updJrn _).on F.Nor.ACTIVE_AREA pgSto = true from h)]; rfl

theorem setArea_regs (l : List JSlot) (s : State) : (setArea l s).regs = s.regs := by unfold setArea; split <;> rfl

theorem setArea_jrn (l : List JSlot) (s : State) : (setArea l s).jrn.prog = s.jrn.prog ∧ (setArea l s).jrn.cur = s.jrn.cur ∧ (setArea l s).jrn.queue = s.jrn.queue ∧
    (setArea l s).jrn.erasing = s.jrn.erasing := by unfold setArea; split <;> exact ⟨rfl, rfl, rfl, rfl⟩

theorem area_regs {s t : State} (h : t.on F.Nor.ACTIVE_AREA pgSto = s.on F.Nor.ACTIVE_AREA pgSto) (ha : t.jrn.a = s.jrn.a) (hb : t.jrn.b = s.jrn.b) : t.area = s.area := by
  unfold State.area; rw [h, ha, hb]

theorem area_set_lastSeq (v : Nat) (s : State) : (s.set F.Nor.LAST_SEQ pgSto v).area = s.area :=
  area_regs (by unfold State.on; rw [State.get_set_off _ (by decide)]) rfl rfl

theorem appendSlot_spec (x : JSlot) (q : Nat) (s : State) : (appendSlot x q s).area = s.area ++ [x] ∧ (appendSlot x q s).get F.Nor.LAST_SEQ pgSto = low 32 q ∧
    (appendSlot x q s).jrn.cur = s.jrn.cur ∧ (appendSlot x q s).jrn.queue = s.jrn.queue ∧ (appendSlot x q s).jrn.prog = s.jrn.prog := by
  unfold appendSlot
  refine ⟨?_, State.get_set_self _ _ _ _, (setArea_jrn _ s).2.1, (setArea_jrn _ s).2.2.1, (setArea_jrn _ s).1⟩
  rw [area_set_lastSeq, setArea_area]

theorem updJrn_none (s : State) (h : s.jrn.cur = none) : s.updJrn (fun j => { j with cur := none }) = s := by
  obtain ⟨j, hj⟩ : ∃ j, j = s.jrn := ⟨_, rfl⟩
  have e : (fun j : JournalX => { j with cur := none }) s.jrn = s.jrn := by
    rw [← hj] at h ⊢; cases j; cases h; rfl
  have e2 : s.updJrn (fun j => { j with cur := none }) = { s with jrn := (fun j : JournalX => { j with cur := none }) s.jrn } := rfl
  rw [e2, e]

theorem recordEnds_none (ok : Bool) (s : State) (h : s.jrn.prog = none) : recordEnds ok s = s := by unfold recordEnds; simp only [h]

theorem recordEnds_spec (ok : Bool) (s : State) (r : JRec) (h : s.jrn.prog = some r) : ∃ v : State, v.area = s.area ++ [if ok then .good r else .torn r] ∧
      v.get F.Nor.LAST_SEQ pgSto = low 32 r.seq ∧ v.jrn.prog = none ∧ v.jrn.cur = none ∧ v.jrn.queue = s.jrn.queue ∧
      (s.jrn.cur = none → recordEnds ok s = v) ∧
      (∀ o k, s.jrn.cur = some (o, k) → (ok = false → recordEnds ok s = objFail 1 o v) ∧ (ok = true → r.last = true → recordEnds ok s = objDone o v) ∧
        (ok = true → r.last = false → recordEnds ok s = v.updJrn (fun j => { j with cur := some (o, k + 1) }))) := by
  obtain ⟨w, hw⟩ : ∃ w : State, w = appendSlot (if ok then .good r else .torn r) r.seq s := ⟨_, rfl⟩
  have sp := appendSlot_spec (if ok then .good r else .torn r) r.seq s
  rw [← hw] at sp
  obtain ⟨u, hu⟩ : ∃ u : State, u = w.updJrn (fun j => { j with prog := none }) := ⟨_, rfl⟩
  obtain ⟨v, hv⟩ : ∃ v : State, v = u.updJrn (fun j => { j with cur := none }) := ⟨_, rfl⟩
  have uc : u.jrn.cur = s.jrn.cur := by rw [hu]; exact sp.2.2.1
  have va : v.area = w.area := by rw [hv, hu]; rfl
  refine ⟨v, va.trans sp.1, ?_, ?_, ?_, ?_, fun hc => ?_, fun o k hc => ⟨fun ho => ?_, fun ho hl => ?_, fun ho hl => ?_⟩⟩
  · rw [hv, hu]; exact sp.2.1
  · rw [hv, hu]; rfl
  · rw [hv]; rfl
  · rw [hv, hu]; exact sp.2.2.2.1
  · rw [hv, updJrn_none u (uc.trans hc)]
    have e : recordEnds ok s = u := by unfold recordEnds; simp only [h, ← hw, ← hu, uc, hc]
    exact e
  · unfold recordEnds; simp only [h]; rw [← hw, ← hu]; simp only [uc, hc]; rw [← hv, ho]; rfl
  · unfold recordEnds; simp only [h]; rw [← hw, ← hu]; simp only [uc, hc]; rw [← hv, ho, hl]; rfl
  · unfold recordEnds; simp only [h]; rw [← hw, ← hu]; simp only [uc, hc]; rw [← hv, ho, hl, hv]; rfl

theorem setState_nor (s : State) (v : Nat) : (s.set F.Nor.NOR_STATUS_STATE pgSto v).cpu = s.cpu := rfl

/-- Bytes of the NOR taken one after the other. -/
theorem norOverwrite (a : Nat) (val : Byte → Nat → Byte) (g : Nat → State → State) (n : Nat) (s : State) (hg : ∀ i < n, ∀ t : State, t.jrn = s.jrn → t.aptw = s.aptw → t.cpu.norJob = s.cpu.norJob →
      g i t = { t with cpu := { t.cpu with nor := tputD t.cpu.nor (a + i) (val (tget t.cpu.nor (a + i) 0xFF) i) 0xFF } }) :
    ∃ N, forAll (List.range n) s g = { s with cpu := { s.cpu with nor := N } } ∧
      ∀ k, tget N k 0xFF = if a ≤ k ∧ k < a + n then val (tget s.cpu.nor k 0xFF) (k - a) else tget s.cpu.nor k 0xFF := by
  induction n with
  | zero => exact ⟨s.cpu.nor, rfl, fun k => by rw [if_neg (by omega)]⟩
  | succ n ih =>
    obtain ⟨N, e, hN⟩ := ih (fun i hi t => hg i (by omega) t)
    rw [List.range_succ, forAll_append, e, forAll_cons, forAll_nil]
    have en := hg n (by omega) ({ s with cpu := { s.cpu with nor := N } }) rfl rfl rfl
    rw [en]
    refine ⟨_, rfl, fun k => ?_⟩
    by_cases hk : k = a + n
    · subst hk
      rw [tget_tputD_self, if_pos (by omega), show (a + n - a) = n by omega]
      show val (tget N (a + n) 0xFF) n = _
      rw [hN, if_neg (by omega)]
    · rw [tget_tputD_ne _ _ _ _ hk]
      show tget N k 0xFF = _
      rw [hN]
      by_cases hk2 : a ≤ k ∧ k < a + n
      · rw [if_pos hk2, if_pos (by omega)]
      · rw [if_neg hk2, if_neg (by omega)]

theorem norGo_busy (op : Nat) (s : State) (h : s.get F.Nor.NOR_STATUS_STATE pgSto = 1 ∨ s.get F.Nor.NOR_STATUS_STATE pgSto = 2 ∨ s.jrn.closing.isSome = true) :
    norGo op s = s.set F.Nor.NOR_CTRL_OP pgSto op := by
  unfold norGo; dsimp only; rw [if_pos]; rcases h with h | h | h
  · exact .inl h
  · exact .inr (.inl h)
  · exact .inr (.inr (.inr h))

theorem norGo_free (op : Nat) (hop : op ≠ 0) (s : State) (h1 : s.get F.Nor.NOR_STATUS_STATE pgSto ≠ 1) (h2 : s.get F.Nor.NOR_STATUS_STATE pgSto ≠ 2) (h3 : s.jrn.closing = none) :
    (s.norReason op (s.get F.Nor.NOR_ADDR pgSto) ≠ 0 → ∃ t, norGo op s = t ∧ t.get F.Nor.REFUSED pgSto = 1 ∧
          bitAt (t.get F.Hdr.EVENT_STATUS pgSto) Ev.bootNorRefused.bit = true ∧ t.cpu.norJob = s.cpu.norJob) ∧
        (s.norReason op (s.get F.Nor.NOR_ADDR pgSto) = 0 → ∃ t, norGo op s = t ∧ t.get F.Nor.REFUSED pgSto = 0 ∧
          t.cpu.norJob = some (op, s.get F.Nor.NOR_ADDR pgSto) ∧ t.cpu.nor = s.cpu.nor ∧
          t.get F.Nor.NOR_STATUS_STATE pgSto = (if s.jrn.prog.isSome = true ∨ s.jrn.erasing = true then 1 else 2)) := by
  have e : norGo op s = if s.norReason op (s.get F.Nor.NOR_ADDR pgSto) ≠ 0 then
      ((s.set F.Nor.NOR_CTRL_OP pgSto op).set F.Nor.REFUSED pgSto 1).raise Ev.bootNorRefused pgSto (arg64 (s.get F.Nor.NOR_ADDR pgSto) (s.norReason op (s.get F.Nor.NOR_ADDR pgSto)))
    else (((s.set F.Nor.NOR_CTRL_OP pgSto op).set F.Nor.REFUSED pgSto 0).updCpu (fun x => { x with norJob := some (op, s.get F.Nor.NOR_ADDR pgSto) })).set
      F.Nor.NOR_STATUS_STATE pgSto (if s.jrn.prog.isSome ∨ s.jrn.erasing then 1 else 2) := by
    unfold norGo; dsimp only; rw [if_neg (by rw [h3]; simp [h1, h2, hop])]
  constructor <;> intro hr
  · rw [e, if_pos hr]
    refine ⟨_, rfl, ?_, State.raise_bit _ _ _ (by decide) (by decide), ?_⟩
    · rw [State.get_raise_off _ _ (by decide) (by decide) (by decide) (by decide)]; exact State.get_set_self _ _ _ _
    · rw [State.raise_cpu]; rfl
  · rw [e, if_neg (by rw [hr]; simp)]
    refine ⟨_, rfl, ?_, rfl, rfl, ?_⟩
    · rw [State.get_set_off _ (by decide)]; exact (State.get_set_self (s.set F.Nor.NOR_CTRL_OP pgSto op) F.Nor.REFUSED pgSto 0)
    · rw [State.get_set_self]; split <;> rfl

end Sys2Proof.Machine
end

