-- ==== Sys2Proof/Laws/OfCores.lean ====
section
/-! SUPPORT. Lemmas that the statements about its unit: Cores rest on. -/

-- One declaration after another: the package is also checked as one text, where too many threads would start at once.
set_option Elab.async false

set_option linter.unusedVariables false
set_option linter.unusedSimpArgs false

namespace Sys2Proof.Machine

theorem losesLocks_of_locks {s t : State} (h : ∀ n < 64, t.getI F.Lock.HELD pgLocks n = s.getI F.Lock.HELD pgLocks n ∧ t.getI F.Lock.OWNER pgLocks n = s.getI F.Lock.OWNER pgLocks n ∧
    t.getI F.Lock.BROKEN pgLocks n = s.getI F.Lock.BROKEN pgLocks n) (f : Nat → Bool) (hf : ∀ a, f a = false) : s.LosesLocks t f := by
  intro n hn; rw [hf, Bool.and_false, if_neg (by decide)]; exact h n hn

theorem locks_onPages {s t : State} {ps : List Nat} (h : s.OnPages t ps) (hp : pgLocks ∉ ps) : ∀ n < 64, t.getI F.Lock.HELD pgLocks n = s.getI F.Lock.HELD pgLocks n ∧
    t.getI F.Lock.OWNER pgLocks n = s.getI F.Lock.OWNER pgLocks n ∧ t.getI F.Lock.BROKEN pgLocks n = s.getI F.Lock.BROKEN pgLocks n := by
  intro n hn
  exact ⟨h.getI hp (by show 0x40 + n * 4 < 4096; omega) (by decide), h.getI hp (by show 0x40 + n * 4 < 4096; omega) (by decide), h.getI hp (by show 0x40 + n * 4 < 4096; omega) (by decide)⟩

theorem losesLocks_trans {s u t : State} {f g : Nat → Bool} (h1 : s.LosesLocks u f) (h2 : u.LosesLocks t g) : s.LosesLocks t (fun a => f a || g a) := by
  intro n hn
  have a := h1 n hn
  have b := h2 n hn
  by_cases c : (s.onI F.Lock.HELD pgLocks n && f (agentOf (s.getI F.Lock.OWNER pgLocks n))) = true
  · rw [if_pos c] at a
    rw [if_neg (by unfold State.onI; rw [a.1]; simp)] at b
    have c' := Bool.and_eq_true_iff.mp c
    rw [if_pos (by dsimp only; rw [c'.1, c'.2]; rfl)]
    exact ⟨b.1.trans a.1, b.2.1.trans a.2.1, b.2.2.trans a.2.2⟩
  · rw [if_neg c] at a
    have e : (u.onI F.Lock.HELD pgLocks n && g (agentOf (u.getI F.Lock.OWNER pgLocks n))) =
        (s.onI F.Lock.HELD pgLocks n && (f (agentOf (s.getI F.Lock.OWNER pgLocks n)) || g (agentOf (s.getI F.Lock.OWNER pgLocks n)))) := by
      unfold State.onI; rw [a.1, a.2.1]; unfold State.onI at c; revert c
      cases (s.getI F.Lock.HELD pgLocks n == 1) <;> cases f (agentOf (s.getI F.Lock.OWNER pgLocks n)) <;> simp
    rw [e] at b
    by_cases d : (s.onI F.Lock.HELD pgLocks n && (f (agentOf (s.getI F.Lock.OWNER pgLocks n)) || g (agentOf (s.getI F.Lock.OWNER pgLocks n)))) = true
    · rw [if_pos d] at b; rw [if_pos d]; exact b
    · rw [if_neg d] at b; rw [if_neg d]; exact ⟨b.1.trans a.1, b.2.1.trans a.2.1, b.2.2.trans a.2.2⟩

theorem losesLocks_congr {s t : State} {f g : Nat → Bool} (h : s.LosesLocks t f) (e : ∀ a, f a = g a) : s.LosesLocks t g := by
  rw [show g = f from funext fun a => (e a).symm]; exact h

theorem losesLocks_before {s u t : State} {f : Nat → Bool} (h : ∀ n < 64, u.getI F.Lock.HELD pgLocks n = s.getI F.Lock.HELD pgLocks n ∧ u.getI F.Lock.OWNER pgLocks n = s.getI F.Lock.OWNER pgLocks n ∧
    u.getI F.Lock.BROKEN pgLocks n = s.getI F.Lock.BROKEN pgLocks n) (g : u.LosesLocks t f) : s.LosesLocks t f :=
  losesLocks_congr (losesLocks_trans (losesLocks_of_locks h (fun _ => false) fun _ => rfl) g) fun a => by simp

theorem losesLocks_after {s u t : State} {f : Nat → Bool} (g : s.LosesLocks u f) (h : ∀ n < 64, t.getI F.Lock.HELD pgLocks n = u.getI F.Lock.HELD pgLocks n ∧ t.getI F.Lock.OWNER pgLocks n = u.getI F.Lock.OWNER pgLocks n ∧
    t.getI F.Lock.BROKEN pgLocks n = u.getI F.Lock.BROKEN pgLocks n) : s.LosesLocks t f :=
  losesLocks_congr (losesLocks_trans g (losesLocks_of_locks h (fun _ => false) fun _ => rfl)) fun a => by simp

/-- One lock of those that an agent may hold. -/
theorem lockKept (s u : State) (n j : Nat) (hn : n < 64) (hj : j < 64) (hne : j ≠ n) (o : Nat)
    (hu : u = ((s.setI F.Lock.HELD pgLocks n 0).setI F.Lock.OWNER pgLocks n 0).setI F.Lock.BROKEN pgLocks n 1) :
    ∀ f ∈ [F.Lock.HELD, F.Lock.OWNER, F.Lock.BROKEN], (u.raise Ev.lockBroken pgLocks o).getI f pgLocks j = s.getI f pgLocks j := by
  intro f hf
  have b : f.off = 0x40 ∧ f.stride = 4 ∧ f.lo < 32 := by revert hf; revert f; decide
  rw [State.getI_raise_off _ _ (by decide) (by rw [b.1, b.2.1]; omega) (by rw [b.1, b.2.1]; omega) b.2.2, hu,
    State.getI_setI_off _ (by rw [b.1, b.2.1]; show (0x40 + j * 4) * 32 + f.lo ≠ (0x40 + n * 4) * 32 + 30; omega),
    State.getI_setI_off _ (by rw [b.1, b.2.1]; show (0x40 + j * 4) * 32 + f.lo ≠ (0x40 + n * 4) * 32 + 16; omega),
    State.getI_setI_off _ (by rw [b.1, b.2.1]; show (0x40 + j * 4) * 32 + f.lo ≠ (0x40 + n * 4) * 32 + 31; omega)]

theorem lockBroken_self (s u : State) (n : Nat) (hn : n < 64) (o : Nat)
    (hu : u = ((s.setI F.Lock.HELD pgLocks n 0).setI F.Lock.OWNER pgLocks n 0).setI F.Lock.BROKEN pgLocks n 1) :
    (u.raise Ev.lockBroken pgLocks o).getI F.Lock.HELD pgLocks n = 0 ∧ (u.raise Ev.lockBroken pgLocks o).getI F.Lock.OWNER pgLocks n = 0 ∧
    (u.raise Ev.lockBroken pgLocks o).getI F.Lock.BROKEN pgLocks n = 1 := by
  refine ⟨?_, ?_, ?_⟩
  · rw [State.getI_raise_arr _ _ 64 hn (by decide) (by decide) (by decide) (by decide), hu, State.getI_setI_arr _ (by decide) (by decide), State.getI_setI_arr _ (by decide) (by decide), State.getI_setI_self]; rfl
  · rw [State.getI_raise_arr _ _ 64 hn (by decide) (by decide) (by decide) (by decide), hu, State.getI_setI_arr _ (by decide) (by decide), State.getI_setI_self]; rfl
  · rw [State.getI_raise_arr _ _ 64 hn (by decide) (by decide) (by decide) (by decide), hu, State.getI_setI_self]; rfl

/-- What breaking the locks of an agent does. -/
theorem breakLocks_spec (agent : Nat) (s : State) : s.OnPages (breakLocks agent s) [pgLocks, pgLedger] ∧ (breakLocks agent s).cpu = s.cpu ∧ (breakLocks agent s).trk = s.trk ∧
    s.LosesLocks (breakLocks agent s) (fun a => a == agent) := by
  obtain ⟨f, hf⟩ : ∃ f : Nat → State → State, f = fun n s =>
    let o := s.getI F.Lock.OWNER pgLocks n
    if s.onI F.Lock.HELD pgLocks n && agentOf o == agent then
      (((s.setI F.Lock.HELD pgLocks n 0).setI F.Lock.OWNER pgLocks n 0).setI F.Lock.BROKEN pgLocks n 1).raise
        Ev.lockBroken pgLocks (o * 256 + n)
    else s := ⟨_, rfl⟩
  have key : ∀ (l : List Nat) (s : State), l.Nodup → (∀ n ∈ l, n < 64) → s.OnPages (forAll l s f) [pgLocks, pgLedger] ∧ (forAll l s f).cpu = s.cpu ∧ (forAll l s f).trk = s.trk ∧
      ∀ n < 64, if (decide (n ∈ l) && (s.onI F.Lock.HELD pgLocks n && (agentOf (s.getI F.Lock.OWNER pgLocks n) == agent))) = true then
        (forAll l s f).getI F.Lock.HELD pgLocks n = 0 ∧ (forAll l s f).getI F.Lock.OWNER pgLocks n = 0 ∧ (forAll l s f).getI F.Lock.BROKEN pgLocks n = 1
      else (forAll l s f).getI F.Lock.HELD pgLocks n = s.getI F.Lock.HELD pgLocks n ∧ (forAll l s f).getI F.Lock.OWNER pgLocks n = s.getI F.Lock.OWNER pgLocks n ∧
        (forAll l s f).getI F.Lock.BROKEN pgLocks n = s.getI F.Lock.BROKEN pgLocks n := by
    intro l
    induction l with
    | nil => intro s _ _; rw [forAll_nil]; exact ⟨.refl _ _, rfl, rfl, fun n _ => by rw [if_neg (by simp)]; exact ⟨rfl, rfl, rfl⟩⟩
    | cons m l ih =>
      intro s hd hl
      have hm := hl m (by simp)
      have hml := (List.nodup_cons.mp hd).1
      rw [forAll_cons]
      obtain ⟨i1, i2, i3, i4⟩ := ih (f m s) (List.nodup_cons.mp hd).2 (fun n h => hl n (by simp [h]))
      by_cases c : (s.onI F.Lock.HELD pgLocks m && agentOf (s.getI F.Lock.OWNER pgLocks m) == agent) = true
      · obtain ⟨u, hu⟩ : ∃ u : State, u = ((s.setI F.Lock.HELD pgLocks m 0).setI F.Lock.OWNER pgLocks m 0).setI F.Lock.BROKEN pgLocks m 1 := ⟨_, rfl⟩
        have e : f m s = u.raise Ev.lockBroken pgLocks (s.getI F.Lock.OWNER pgLocks m * 256 + m) := by rw [hf]; dsimp only; rw [if_pos c, hu]
        have self := lockBroken_self s u m hm (s.getI F.Lock.OWNER pgLocks m * 256 + m) hu
        have oth := fun j (hj : j < 64) (hne : j ≠ m) => lockKept s u m j hm hj hne (s.getI F.Lock.OWNER pgLocks m * 256 + m) hu
        rw [← e] at self
        simp only [← e] at oth
        refine ⟨State.OnPages.trans ?_ i1, i2.trans ?_, i3.trans ?_, fun n hn => ?_⟩
        · rw [e]
          refine State.OnPages.raise ?_ _ _ (by decide) (by decide) (by decide)
          rw [hu]
          exact (((State.OnPages.refl _ _).setI _ (by decide) (by show 0x40 + m * 4 < 4096; omega) (by decide)).setI _ (by decide) (by show 0x40 + m * 4 < 4096; omega) (by decide)).setI _
            (by decide) (by show 0x40 + m * 4 < 4096; omega) (by decide)
        · rw [e, State.raise_cpu, hu]; rfl
        · rw [e, State.raise_trk, hu]; rfl
        · have a := i4 n hn
          by_cases hnm : n = m
          · subst hnm
            rw [if_neg (by simp [hml])] at a
            rw [if_pos (by rw [c]; simp)]
            exact ⟨a.1.trans self.1, a.2.1.trans self.2.1, a.2.2.trans self.2.2⟩
          · have o1 := oth n hn hnm F.Lock.HELD (by simp)
            have o2 := oth n hn hnm F.Lock.OWNER (by simp)
            have o3 := oth n hn hnm F.Lock.BROKEN (by simp)
            have cc : (decide (n ∈ l) && ((f m s).onI F.Lock.HELD pgLocks n && (agentOf ((f m s).getI F.Lock.OWNER pgLocks n) == agent))) =
                (decide (n ∈ m :: l) && (s.onI F.Lock.HELD pgLocks n && (agentOf (s.getI F.Lock.OWNER pgLocks n) == agent))) := by
              unfold State.onI; rw [o1, o2]; simp [hnm]
            rw [cc, o1, o2, o3] at a
            exact a
      · have e : f m s = s := by rw [hf]; dsimp only; rw [if_neg c]
        rw [e] at i1 i2 i3 i4 ⊢
        refine ⟨i1, i2, i3, fun n hn => ?_⟩
        have a := i4 n hn
        have cc : (decide (n ∈ m :: l) && (s.onI F.Lock.HELD pgLocks n && (agentOf (s.getI F.Lock.OWNER pgLocks n) == agent))) =
            (decide (n ∈ l) && (s.onI F.Lock.HELD pgLocks n && (agentOf (s.getI F.Lock.OWNER pgLocks n) == agent))) := by
          by_cases hnm : n = m
          · subst hnm; rw [Bool.eq_false_iff.mpr c]; simp
          · simp [hnm]
        rw [cc]; exact a
  have e : breakLocks agent s = forAll (List.range 64) s f := by rw [hf]; rfl
  obtain ⟨k1, k2, k3, k4⟩ := key (List.range 64) s List.nodup_range (fun n h => List.mem_range.mp h)
  rw [e]
  refine ⟨k1, k2, k3, fun n hn => ?_⟩
  have a := k4 n hn
  rw [show decide (n ∈ List.range 64) = true from decide_eq_true (List.mem_range.mpr hn), Bool.true_and] at a
  exact a

theorem hostRelease_spec (mask : Nat) (l : List Nat) (hl : l.Nodup) (f : Nat → State → State) (hf : f = fun k s =>
    let on := bitAt mask k
    if on then s.updCpu (fun x => { x with running := setBit x.running k })
    else if bitAt s.cpu.running k then breakLocks (hostAgent k) (s.updCpu (fun x => { x with running := clearBit x.running k }))
    else s) (s : State) : s.OnPages (forAll l s f) [pgLocks, pgLedger] ∧ (∀ k, bitAt (forAll l s f).cpu.running k = if k ∈ l then bitAt mask k else bitAt s.cpu.running k) ∧
    s.LosesLocks (forAll l s f) (fun a => l.any (fun k => bitAt s.cpu.running k && !bitAt mask k && a == hostAgent k)) := by
  induction l generalizing s with
  | nil => rw [forAll_nil]; exact ⟨.refl _ _, fun k => by simp, losesLocks_of_locks (fun _ _ => ⟨rfl, rfl, rfl⟩) _ fun a => rfl⟩
  | cons m l ih =>
    have hml := (List.nodup_cons.mp hl).1
    rw [forAll_cons]
    obtain ⟨i1, i2, i3⟩ := ih (List.nodup_cons.mp hl).2 (f m s)
    have st : s.OnPages (f m s) [pgLocks, pgLedger] ∧ (∀ k, bitAt (f m s).cpu.running k = if k = m then bitAt mask m else bitAt s.cpu.running k) ∧
        s.LosesLocks (f m s) (fun a => bitAt s.cpu.running m && !bitAt mask m && a == hostAgent m) := by
      by_cases c : bitAt mask m = true
      · have e : f m s = s.updCpu (fun x => { x with running := setBit x.running m }) := by rw [hf]; dsimp only; rw [if_pos c]
        rw [e]
        refine ⟨.of_regs rfl, fun k => ?_, losesLocks_of_locks (fun _ _ => ⟨rfl, rfl, rfl⟩) (fun a => bitAt s.cpu.running m && !bitAt mask m && a == hostAgent m) fun a => by simp [c]⟩
        show bitAt (setBit s.cpu.running m) k = _
        rw [bitAt_setBit]; by_cases h : k = m
        · subst h; simp [c]
        · simp [h, Ne.symm h]
      · by_cases d : bitAt s.cpu.running m = true
        · obtain ⟨u, hu⟩ : ∃ u : State, u = s.updCpu (fun x => { x with running := clearBit x.running m }) := ⟨_, rfl⟩
          have e : f m s = breakLocks (hostAgent m) u := by rw [hf]; dsimp only; rw [if_neg c, if_pos d, hu]
          obtain ⟨b1, b2, _, b3⟩ := breakLocks_spec (hostAgent m) u
          rw [e]
          refine ⟨State.OnPages.trans (State.OnPages.of_regs (by rw [hu]; rfl)) b1, fun k => ?_, ?_⟩
          · rw [b2, hu]; show bitAt (clearBit s.cpu.running m) k = _
            rw [bitAt_clearBit]; by_cases h : k = m
            · subst h; simp [Bool.eq_false_iff.mpr c]
            · simp [h, Ne.symm h]
          · refine losesLocks_congr (losesLocks_before (u := u) (fun n _ => by rw [hu]; exact ⟨rfl, rfl, rfl⟩) b3) fun a => ?_
            rw [d, Bool.eq_false_iff.mpr c]; simp
        · have e : f m s = s := by rw [hf]; dsimp only; rw [if_neg c, if_neg d]
          rw [e]
          refine ⟨.refl _ _, fun k => ?_, losesLocks_of_locks (fun _ _ => ⟨rfl, rfl, rfl⟩) _ fun a => by simp [Bool.eq_false_iff.mpr d]⟩
          by_cases h : k = m
          · subst h; rw [if_pos rfl, Bool.eq_false_iff.mpr c, Bool.eq_false_iff.mpr d]
          · rw [if_neg h]
    refine ⟨st.1.trans i1, fun k => ?_, losesLocks_congr (losesLocks_trans st.2.2 i3) fun a => ?_⟩
    · rw [i2, st.2.1]; by_cases h : k = m
      · subst h; simp [hml]
      · simp [h]
    · rw [List.any_cons]
      congr 1
      rw [Bool.eq_iff_iff, List.any_eq_true, List.any_eq_true]
      constructor <;> rintro ⟨k, hk, h⟩ <;> refine ⟨k, hk, ?_⟩ <;> rw [st.2.1, if_neg (by rintro rfl; exact hml hk)] at * <;> exact h

theorem mbox_setMbox (m d m' d' : Nat) (l : List Nat) (s : State) (hd : d < 2) (hd' : d' < 2) :
    (setMbox m d l s).mbox m' d' = if m' = m ∧ d' = d then l else s.mbox m' d' := by
  unfold setMbox State.mbox
  show tget (tputD s.cpu.fifo (2 * m + d) l []) (2 * m' + d') [] = _
  by_cases h : m' = m ∧ d' = d
  · rw [if_pos h, h.1, h.2, tget_tputD_self]
  · rw [if_neg h, tget_tputD_ne _ _ _ _ (by omega)]

theorem mboxClear_spec (m : Nat) (s : State) : (mboxClear m s).regs = s.regs ∧ (mboxClear m s).trk = s.trk ∧ (mboxClear m s).cpu.halted = s.cpu.halted ∧
    (∀ r d, d < 2 → (mboxClear m s).mbox r d = if r = m then [] else s.mbox r d) := by
  refine ⟨rfl, rfl, rfl, fun r d hd => ?_⟩
  unfold mboxClear
  rw [mbox_setMbox _ _ _ _ _ _ (by decide) hd, mbox_setMbox _ _ _ _ _ _ (by decide) hd]
  by_cases h : r = m
  · subst h
    rcases (show d = 0 ∨ d = 1 by omega) with rfl | rfl <;> simp
  · simp [h]

theorem phase2_cpu (s : State) : (phase2Check s).cpu = s.cpu := by unfold phase2Check; split <;> rfl

theorem trkFault_spec (r : Nat) (s : State) : s.OnPages (trkFault r s) [pgTrk] ∧ (trkFault r s).cpu = s.cpu ∧ (∀ p ∈ (trkFault r s).trk.pend, regionOf p ≠ r) := by
  unfold trkFault
  obtain ⟨u, hu⟩ : ∃ u : State, u = (if s.trkState = 2 ∧ s.trk.solveAt.isSome then
      setTrkState 1 ((clearTerms s).updTrk (fun t => { t with solveAt := none })) else s) := ⟨_, rfl⟩
  have um : s.OnPages u [pgTrk] ∧ u.cpu = s.cpu := by
    rw [hu]; split
    · exact ⟨State.OnPages.set (State.OnPages.of_regs rfl) _ (by decide) (by decide) (by decide), rfl⟩
    · exact ⟨.refl _ _, rfl⟩
  dsimp only; rw [← hu]
  refine ⟨um.1.keep (phase2_regs _), (phase2_cpu _).trans um.2, fun p hp => ?_⟩
  rw [phase2_pend] at hp
  have := (List.mem_filter.mp (show p ∈ u.trk.pend.filter (fun p => regionOf p != r) from hp)).2
  simpa using this

theorem tenderStep_spec (old mask : Nat) (f : Nat → State → State) (hf : f = fun r s =>
    if bitAt old r = bitAt mask r then s
    else
      let s1 := mboxClear r s
      if bitAt mask r then s1.updCpu (fun x => { x with halted := clearBit x.halted r })
      else trkFault r (breakLocks (tenderAgent r) s1)) (m : Nat) (s : State) : s.OnPages (f m s) [pgLocks, pgLedger, pgTrk] ∧ (∀ r, if r = m ∧ bitAt old m ≠ bitAt mask m then (∀ d < 2, (f m s).mbox r d = []) ∧ bitAt (f m s).cpu.halted r = (bitAt s.cpu.halted r && !bitAt mask r)
          else (∀ d < 2, (f m s).mbox r d = s.mbox r d) ∧ bitAt (f m s).cpu.halted r = bitAt s.cpu.halted r) ∧
        s.LosesLocks (f m s) (fun a => bitAt old m && !bitAt mask m && a == tenderAgent m) := by
  by_cases c : bitAt old m = bitAt mask m
  · have e : f m s = s := by rw [hf]; dsimp only; rw [if_pos c]
    rw [e]
    refine ⟨.refl _ _, fun r => ?_, losesLocks_of_locks (fun _ _ => ⟨rfl, rfl, rfl⟩) (fun a => bitAt old m && !bitAt mask m && a == tenderAgent m) fun a => by rw [c]; cases bitAt mask m <;> simp⟩
    rw [if_neg (by simp [c])]; exact ⟨fun _ _ => rfl, rfl⟩
  · obtain ⟨m1, m2, m3, m4⟩ := mboxClear_spec m s
    by_cases d : bitAt mask m = true
    · have e : f m s = (mboxClear m s).updCpu (fun x => { x with halted := clearBit x.halted m }) := by rw [hf]; dsimp only; rw [if_neg c, if_pos d]
      rw [e]
      refine ⟨.of_regs m1, fun r => ?_, losesLocks_of_locks (t := (mboxClear m s).updCpu (fun x => { x with halted := clearBit x.halted m })) (locks_onPages (ps := []) (State.OnPages.of_regs m1) (by simp)) (fun a => bitAt old m && !bitAt mask m && a == tenderAgent m) fun a => by simp [d]⟩
      have hx : bitAt ((mboxClear m s).updCpu (fun x => { x with halted := clearBit x.halted m })).cpu.halted r = (bitAt s.cpu.halted r && !decide (m = r)) := by
        show bitAt (clearBit (mboxClear m s).cpu.halted m) r = _; rw [m3, bitAt_clearBit]
      have hy : ∀ d < 2, ((mboxClear m s).updCpu (fun x => { x with halted := clearBit x.halted m })).mbox r d = if r = m then [] else s.mbox r d := fun d hd => m4 r d hd
      by_cases h : r = m
      · rw [if_pos ⟨h, c⟩]; refine ⟨fun d hd => by rw [hy d hd, if_pos h], ?_⟩
        rw [hx]; subst h; simp [d]
      · rw [if_neg (fun x => h x.1)]; refine ⟨fun d hd => by rw [hy d hd, if_neg h], ?_⟩
        rw [hx]; simp [Ne.symm h]
    · obtain ⟨v, hv⟩ : ∃ v : State, v = mboxClear m s := ⟨_, rfl⟩
      obtain ⟨w, hw⟩ : ∃ w : State, w = breakLocks (tenderAgent m) v := ⟨_, rfl⟩
      have e : f m s = trkFault m w := by rw [hf]; dsimp only; rw [if_neg c, if_neg d, hw, hv]
      rw [← hv] at m1 m2 m3 m4
      obtain ⟨b1, b2, _, b3⟩ := breakLocks_spec (tenderAgent m) v
      rw [← hw] at b1 b2 b3
      obtain ⟨t1, t2, t3⟩ := trkFault_spec m w
      rw [e]
      have od : bitAt old m = true := by
        revert c; rw [Bool.eq_false_iff.mpr d]; cases bitAt old m <;> simp
      refine ⟨((State.OnPages.of_regs m1).trans (b1.mono (by simp))).trans (t1.mono (by simp)), fun r => ?_, ?_⟩
      · have hm : ∀ d, (trkFault m w).mbox r d = v.mbox r d := fun d => by unfold State.mbox; rw [t2, b2]
        have hh : (trkFault m w).cpu.halted = s.cpu.halted := by rw [t2, b2, m3]
        rw [hh]; simp only [hm]
        by_cases h : r = m
        · rw [if_pos ⟨h, c⟩]; refine ⟨fun d hd => by rw [m4 r d hd, if_pos h], ?_⟩
          subst h; rw [Bool.eq_false_iff.mpr d]; simp
        · rw [if_neg (fun x => h x.1)]; exact ⟨fun d hd => by rw [m4 r d hd, if_neg h], by trivial⟩
      · refine losesLocks_congr (losesLocks_after (losesLocks_before (u := v) (locks_onPages (ps := []) (State.OnPages.of_regs m1) (by simp)) b3) (locks_onPages t1 (by decide))) fun a => ?_
        rw [od, Bool.eq_false_iff.mpr d]; simp

theorem tenderRun_spec (old mask : Nat) (l : List Nat) (hl : l.Nodup) (f : Nat → State → State) (hf : f = fun r s =>
    if bitAt old r = bitAt mask r then s
    else
      let s1 := mboxClear r s
      if bitAt mask r then s1.updCpu (fun x => { x with halted := clearBit x.halted r })
      else trkFault r (breakLocks (tenderAgent r) s1)) (s : State) : s.OnPages (forAll l s f) [pgLocks, pgLedger, pgTrk] ∧
    (∀ r, if r ∈ l ∧ bitAt old r ≠ bitAt mask r then (∀ d < 2, (forAll l s f).mbox r d = []) ∧ bitAt (forAll l s f).cpu.halted r = (bitAt s.cpu.halted r && !bitAt mask r)
      else (∀ d < 2, (forAll l s f).mbox r d = s.mbox r d) ∧ bitAt (forAll l s f).cpu.halted r = bitAt s.cpu.halted r) ∧
    s.LosesLocks (forAll l s f) (fun a => l.any (fun r => bitAt old r && !bitAt mask r && a == tenderAgent r)) := by
  induction l generalizing s with
  | nil => rw [forAll_nil]; exact ⟨.refl _ _, fun k => by simp, losesLocks_of_locks (fun _ _ => ⟨rfl, rfl, rfl⟩) _ fun a => rfl⟩
  | cons m l ih =>
    have hml := (List.nodup_cons.mp hl).1
    rw [forAll_cons]
    obtain ⟨i1, i2, i3⟩ := ih (List.nodup_cons.mp hl).2 (f m s)
    have st := tenderStep_spec old mask f hf m s
    refine ⟨st.1.trans i1, fun r => ?_, losesLocks_congr (losesLocks_trans st.2.2 i3) fun a => by rw [List.any_cons]⟩
    have a := i2 r
    have b := st.2.1 r
    by_cases h : r = m
    · subst h
      rw [if_neg (by simp [hml])] at a
      by_cases c : bitAt old r = bitAt mask r
      · rw [if_neg (by simp [c])] at b ⊢
        exact ⟨fun d hd => (a.1 d hd).trans (b.1 d hd), a.2.trans b.2⟩
      · rw [if_pos ⟨rfl, c⟩] at b; rw [if_pos ⟨by simp, c⟩]
        exact ⟨fun d hd => (a.1 d hd).trans (b.1 d hd), a.2.trans b.2⟩
    · rw [if_neg (fun x => h x.1)] at b
      by_cases c : r ∈ l ∧ bitAt old r ≠ bitAt mask r
      · rw [if_pos c] at a; rw [if_pos ⟨by simp [c.1], c.2⟩]; rw [b.2] at a; exact a
      · rw [if_neg c] at a; rw [if_neg (by simpa [h] using c)]
        exact ⟨fun d hd => (a.1 d hd).trans (b.1 d hd), a.2.trans b.2⟩

theorem putLine_mem (l : List Nat) (x y : Nat) : y ∈ execCacheError.putLine l x ↔ y ∈ l ∨ y = x := by
  unfold execCacheError.putLine
  split
  · rename_i h
    constructor
    · exact .inl
    · rintro (h' | rfl)
      · exact h'
      · simpa using h
  · simp

end Sys2Proof.Machine
end

