-- ==== Sys2Proof/Laws/OfBoot.lean ====
section
/-! SUPPORT. Lemmas that the statements about its unit: Boot rest on. -/

-- One declaration after another: the package is also checked as one text, where too many threads would start at once.
set_option Elab.async false

set_option linter.unusedVariables false
set_option linter.unusedSimpArgs false

namespace Sys2Proof.Machine

theorem norByte_congr {s t : State} (h1 : t.cpu = s.cpu) (h2 : t.jrn = s.jrn) (a : Nat) : t.norByte a = s.norByte a := by unfold State.norByte; rw [h1, h2]

theorem norBytes_congr {s t : State} (h1 : t.cpu = s.cpu) (h2 : t.jrn = s.jrn) (a n : Nat) : t.norBytes a n = s.norBytes a n := by
  unfold State.norBytes; exact List.map_congr_left fun i _ => norByte_congr h1 h2 _

theorem headerOk_congr {s t : State} (h1 : t.cpu = s.cpu) (h2 : t.jrn = s.jrn) (k : Nat) : t.headerOk k = s.headerOk k := by
  unfold State.headerOk State.bootField; simp only [norBytes_congr h1 h2]

theorem imageFail_spec (k why : Nat) (hk : k < 2) (s : State) : (imageFail k why s).cpu = s.cpu ∧ (imageFail k why s).jrn = s.jrn ∧
    (imageFail k why s).get (if k = 0 then F.Cpu.BOOT_FAIL_A else F.Cpu.BOOT_FAIL_B) pgCpu = low 8 why ∧
    (imageFail k why s).get (if k = 0 then F.Cpu.BOOT_FAIL_B else F.Cpu.BOOT_FAIL_A) pgCpu = s.get (if k = 0 then F.Cpu.BOOT_FAIL_B else F.Cpu.BOOT_FAIL_A) pgCpu ∧
    bitAt ((imageFail k why s).get F.Hdr.EVENT_STATUS pgCpu) Ev.bootImageFail.bit = true := by
  unfold imageFail
  refine ⟨by rw [State.raise_cpu]; rfl, by rw [State.raise_jrn]; rfl, ?_, ?_, State.raise_bit _ _ _ (by decide) (by decide)⟩
  · rcases (show k = 0 ∨ k = 1 by omega) with rfl | rfl
    · rw [if_pos rfl, State.get_raise_off _ _ (by decide) (by decide) (by decide) (by decide), State.get_set_self]; rfl
    · rw [if_neg (by decide), State.get_raise_off _ _ (by decide) (by decide) (by decide) (by decide), State.get_set_self]; rfl
  · rcases (show k = 0 ∨ k = 1 by omega) with rfl | rfl
    · rw [if_pos rfl, if_pos rfl, State.get_raise_off _ _ (by decide) (by decide) (by decide) (by decide), State.get_set_off _ (by decide)]
    · rw [if_neg (by decide), if_neg (by decide), State.get_raise_off _ _ (by decide) (by decide) (by decide) (by decide), State.get_set_off _ (by decide)]

/-- The header of one slot. -/
theorem headerStep (unread k : Nat) (hk : k < 2) (s u : State) (hu : u = if bitAt unread k = true then imageFail k 7 s else if s.headerOk k = true then s else imageFail k 1 s) :
    u.cpu = s.cpu ∧ u.jrn = s.jrn ∧
    u.get (if k = 0 then F.Cpu.BOOT_FAIL_A else F.Cpu.BOOT_FAIL_B) pgCpu = (if bitAt unread k = true then 7 else if s.headerOk k = true then
      s.get (if k = 0 then F.Cpu.BOOT_FAIL_A else F.Cpu.BOOT_FAIL_B) pgCpu else 1) ∧
    u.get (if k = 0 then F.Cpu.BOOT_FAIL_B else F.Cpu.BOOT_FAIL_A) pgCpu = s.get (if k = 0 then F.Cpu.BOOT_FAIL_B else F.Cpu.BOOT_FAIL_A) pgCpu := by
  by_cases c : bitAt unread k = true
  · rw [if_pos c] at hu ⊢; obtain ⟨a, b, d, e, _⟩ := imageFail_spec k 7 hk s; rw [hu]; exact ⟨a, b, d, e⟩
  · rw [if_neg c] at hu ⊢
    by_cases h : s.headerOk k = true
    · rw [if_pos h] at hu ⊢; rw [hu]; exact ⟨rfl, rfl, rfl, rfl⟩
    · rw [if_neg h] at hu ⊢; obtain ⟨a, b, d, e, _⟩ := imageFail_spec k 1 hk s; rw [hu]; exact ⟨a, b, d, e⟩

theorem restorePage_cpu (pg : Nat) (s : State) : (restorePage pg s).cpu = s.cpu := by
  have put : ∀ (f : Fld) i v (z : State), (putRet pg f i v z).cpu = z.cpu := fun f i v z => by unfold putRet; dsimp only; split <;> rfl
  have sr : ∀ b (z : State), (setRestored pg b z).cpu = z.cpu := fun b z => rfl
  unfold restorePage; dsimp only
  split
  · rfl
  · split
    · rw [sr]; exact forAll_keeps _ _ _ (fun z => z.cpu) fun e z => put _ _ _ _
    · have e : ∀ z : State, (setRestored pg false z).cpu = z.cpu := sr false
      split
      · rw [State.raise_cpu, sr]; exact forAll_keeps _ _ _ (fun z => z.cpu) fun e z => put _ _ _ _
      · rw [sr]; exact forAll_keeps _ _ _ (fun z => z.cpu) fun e z => put _ _ _ _

theorem bootPass_spec (k : Nat) (s : State) : (bootPass k s).cpu.boot = 2 ∧ bitAt (bootPass k s).cpu.running 0 = true ∧ (bootPass k s).cpu.left = [] ∧ (bootPass k s).ready pgCpu = true ∧
      bitAt ((bootPass k s).get F.Hdr.EVENT_STATUS pgCpu) Ev.bootDone.bit = true := by
  obtain ⟨v, w, a, e, hv⟩ : ∃ v w : State, ∃ a, bootPass k s = ((restorePage pgCpu w).set F.Hdr.READY pgCpu 1).raise Ev.bootDone pgCpu a ∧
      w = v.updCpu (fun x => { x with boot := 2, running := setBit x.running 0, left := [] }) := ⟨_, _, _, rfl, rfl⟩
  have ec : (bootPass k s).cpu = w.cpu := by
    rw [e, State.raise_cpu]
    have h : ((restorePage pgCpu w).set F.Hdr.READY pgCpu 1).cpu = (restorePage pgCpu w).cpu := rfl
    rw [h, restorePage_cpu]
  rw [ec, hv]
  refine ⟨rfl, bitAt_setBit_self _ _, rfl, ?_, ?_⟩
  · rw [e]; unfold State.ready State.on
    rw [State.get_raise_off _ _ (by decide) (by decide) (by decide) (by decide), State.get_set_self]; rfl
  · rw [e]; exact State.raise_bit _ _ _ (by decide) (by decide)

theorem foldl_mem_kept (l : List Nat) (p : Nat → Nat) (a : List Nat) : (∀ x ∈ a, x ∈ l.foldl (fun l i => if l.contains (p i) then l else l ++ [p i]) a) ∧
    ∀ i ∈ l, p i ∈ l.foldl (fun l i => if l.contains (p i) then l else l ++ [p i]) a := by
  induction l generalizing a with
  | nil => exact ⟨fun x h => h, fun i h => by cases h⟩
  | cons m l ih =>
    rw [List.foldl_cons]
    have st : ∀ x ∈ a, x ∈ (if a.contains (p m) then a else a ++ [p m]) := fun x hx => by split <;> simp [hx]
    have hm : p m ∈ (if a.contains (p m) then a else a ++ [p m]) := by
      split
      · rename_i h; simpa using h
      · simp
    refine ⟨fun x hx => (ih _).1 x (st x hx), fun i hi => ?_⟩
    rcases List.mem_cons.mp hi with rfl | hi
    · exact (ih _).1 _ hm
    · exact (ih _).2 i hi

theorem setAptBytes_cpu (pg off : Nat) (bs : List Byte) (s : State) : (setAptBytes pg off bs s).cpu = s.cpu := (congrArg (fun z : State => z.cpu) (setApt_bytes pg bs off s)).trans rfl

theorem roomPut_cpu (a : Nat) (bs : List Byte) (s : State) : (roomPut a bs s).cpu = s.cpu := by unfold roomPut; rfl

theorem bootLoad_cpu (k n : Nat) (s : State) : (bootLoad k n s).cpu = s.cpu := by
  obtain ⟨a, b, t, e⟩ : ∃ a b t, bootLoad k n s = forAll (List.range Config.regions) (roomWrite a b s) (fun r z => setAptBytes pgCpu (0x80000 * r) t z) := ⟨_, _, _, rfl⟩
  have r : (roomWrite a b s).cpu = s.cpu := by
    unfold roomWrite; dsimp only
    refine (forAll_keeps _ _ _ (fun z => z.cpu) ?_).trans (roomPut_cpu a (b.take (0x1FA0000 - a)) s)
    intro e z; rfl
  rw [e, forAll_keeps _ _ _ (fun z => z.cpu) (fun e z => setAptBytes_cpu _ _ _ _)]; exact r

theorem l2Go_spec (op : Nat) (h0 : op ≠ 0) (h4 : op < 4) (s : State) :
    (s.on F.Cpu.L2_MAINT_BUSY pgCpu = true → l2Go op s = s.set F.Cpu.L2_MAINT_OP pgCpu op) ∧
    (s.on F.Cpu.L2_MAINT_BUSY pgCpu = false → ∃ t, l2Go op s = t ∧ t.get F.Cpu.L2_MAINT_OP pgCpu = op ∧ t.on F.Cpu.L2_MAINT_BUSY pgCpu = true ∧
        t.cpu.l2Job = some (op, s.l2Range)) := by
  obtain ⟨v, hv⟩ : ∃ v : State, v = s.set F.Cpu.L2_MAINT_OP pgCpu op := ⟨_, rfl⟩
  have vo : v.get F.Cpu.L2_MAINT_OP pgCpu = op := by rw [hv, State.get_set_self]; exact low_of_lt (w := 2) h4
  have vr : v.l2Range = s.l2Range := by
    unfold State.l2Range State.get2
    have a1 : v.getI F.Cpu.L2_MAINT_ADDR_LO pgCpu 0 = s.getI F.Cpu.L2_MAINT_ADDR_LO pgCpu 0 := by rw [hv]; exact State.getI_setI_off _ (by decide)
    have a2 : v.getI F.Cpu.L2_MAINT_ADDR_HI pgCpu 0 = s.getI F.Cpu.L2_MAINT_ADDR_HI pgCpu 0 := by rw [hv]; exact State.getI_setI_off _ (by decide)
    have a3 : v.get F.Cpu.L2_MAINT_LEN pgCpu = s.get F.Cpu.L2_MAINT_LEN pgCpu := by rw [hv]; exact State.get_set_off _ (by decide)
    rw [a1, a2, a3]
  have e : l2Go op s = if s.on F.Cpu.L2_MAINT_BUSY pgCpu = true ∨ op = 0 then v else
      (v.set F.Cpu.L2_MAINT_BUSY pgCpu 1).updCpu (fun x => { x with l2Job := some (op, s.l2Range) }) := by
    unfold l2Go; dsimp only; rw [if_neg h0, ← hv, vo, vr]
  constructor <;> intro h
  · rw [e, if_pos (.inl h), hv]
  · rw [e, if_neg (by rw [h]; simp [h0])]
    refine ⟨_, rfl, ?_, ?_, rfl⟩
    · have : ((v.set F.Cpu.L2_MAINT_BUSY pgCpu 1).updCpu (fun x => { x with l2Job := some (op, s.l2Range) })).regs = (v.set F.Cpu.L2_MAINT_BUSY pgCpu 1).regs := rfl
      rw [get_of_regs this, State.get_set_off _ (by decide)]; exact vo
    · have : ((v.set F.Cpu.L2_MAINT_BUSY pgCpu 1).updCpu (fun x => { x with l2Job := some (op, s.l2Range) })).regs = (v.set F.Cpu.L2_MAINT_BUSY pgCpu 1).regs := rfl
      unfold State.on; rw [get_of_regs this, State.get_set_self]; rfl

end Sys2Proof.Machine
end

