-- ==== Sys2Proof/Laws/OfCoil.lean ====
section
/-! SUPPORT. What a Coil block does: the receiver reads back the payload that the transmitter sent (R299 to R303, R306). -/

-- One declaration after another: the package is also checked as one text, where too many threads would start at once.
set_option Elab.async false

namespace Sys2Proof.Machine

@[simp] theorem scramble_length (l : List Bool) : ∀ st, (scramble st l).length = l.length := by
  induction l with
  | nil => intro st; rfl
  | cons b bs ih => intro st; simp [scramble, ih]

/-- Descrambling undoes scrambling (R301). -/
theorem scramble_scramble (l : List Bool) : ∀ st, scramble st (scramble st l) = l := by
  induction l with
  | nil => intro st; rfl
  | cons b bs ih => intro st; simp [scramble, ih]

/-- Destuffing undoes stuffing (R303). -/
theorem destuff_stuff (l : List Bool) : ∀ run last, destuff run last none (stuff run last l) = some l := by
  induction l with
  | nil => intro run last; rfl
  | cons b bs ih =>
    intro run last
    by_cases h : runNext run last b = 12 <;> simp [stuff, destuff, h, ih]

theorem byteBits_length (b : Byte) : (byteBits b).length = 8 := by simp [byteBits]

theorem bytesBits_length (p : List Byte) : (bytesBits p).length = 8 * p.length := by
  induction p with
  | nil => rfl
  | cons b bs ih => simp only [bytesBits, List.flatMap_cons, List.length_append, byteBits_length, List.length_cons] at ih ⊢; omega

theorem bitsNat_byteBits (b : Byte) : BitVec.ofNat 8 (bitsNat (byteBits b)) = b := by
  revert b; decide +kernel

theorem bitsBytes_bytesBits (p : List Byte) : bitsBytes p.length (bytesBits p) = p := by
  induction p with
  | nil => rfl
  | cons b bs ih =>
    have e : bytesBits (b :: bs) = byteBits b ++ bytesBits bs := rfl
    rw [e, List.length_cons, bitsBytes, List.take_left' (byteBits_length b), List.drop_left' (byteBits_length b), ih, bitsNat_byteBits]

/-- The receiver reads the payload of a whole block back from its body (R299 to R303, R306). -/
theorem decodeBlock_blockBody (bseq : Nat) (p : List Byte) (h : p.length = 256) : decodeBlock bseq (blockBody bseq p) = .good p := by
  have l : (bytesBits p).length = 2048 := by rw [bytesBits_length, h]
  have e : bitsBytes 256 (bytesBits p) = p := by rw [← h]; exact bitsBytes_bytesBits p
  simp [decodeBlock, blockBody, destuff_stuff, scramble_scramble, l, crcBits, List.take_left' l, List.drop_left' l, e]

/-- A block whose 2,064 bits do not carry the CRC of their payload is bad with kind 0 (R302, R306). -/
theorem decodeBlock_badCrc (bseq : Nat) (d : List Bool) (l : d.length = 2064) (h : d.drop 2048 ≠ crcBits (laneCrc (d.take 2048))) :
    decodeBlock bseq (stuff 0 none (scramble (scrSeed bseq) d)) = .bad 0 := by
  simp [decodeBlock, destuff_stuff, scramble_scramble, l, h]

theorem marker_length (bseq : Nat) : (marker bseq).length = 64 := by simp [marker, List.range, List.range.loop]

@[simp] theorem encodeBlock_drop (bseq : Nat) (p : List Byte) : (encodeBlock bseq p).drop 64 = blockBody bseq p :=
  List.drop_left' (marker_length bseq)

@[simp] theorem encodeBlock_take (bseq : Nat) (p : List Byte) : (encodeBlock bseq p).take 64 = marker bseq :=
  List.take_left' (marker_length bseq)

end Sys2Proof.Machine
end

