-- ==== Sys2Proof/Laws/OfMailboxes.lean ====
section
/-! SUPPORT. Lemmas that the statements about its unit: Mailboxes rest on. -/

-- One declaration after another: the package is also checked as one text, where too many threads would start at once.
set_option Elab.async false

set_option linter.unusedVariables false
set_option linter.unusedSimpArgs false

namespace Sys2Proof.Machine

theorem bestOf (p : Nat → Nat) (l : List Nat) (hs : l.Pairwise (· < ·)) (f : Option Nat → Nat → Option Nat)
    (hf : f = fun a i => match a with
      | none => some i
      | some b => if p b < p i then some i else a) (b : Nat) (hb : ∀ i ∈ l, b < i) :
    ∃ c, l.foldl f (some b) = some c ∧ (c = b ∨ c ∈ l) ∧ p b ≤ p c ∧ (p b = p c → c = b) ∧ ∀ j ∈ l, p j ≤ p c ∧ (p j = p c → c ≤ j) := by
  induction l generalizing b with
  | nil => exact ⟨b, rfl, .inl rfl, by omega, fun _ => rfl, fun j h => by cases h⟩
  | cons m l ih =>
    have hm := List.pairwise_cons.mp hs
    rw [List.foldl_cons]
    by_cases c : p b < p m
    · have e : f (some b) m = some m := by rw [hf]; dsimp only; rw [if_pos c]
      rw [e]
      obtain ⟨q, a1, a2, a3, a4, a5⟩ := ih hm.2 m hm.1
      refine ⟨q, a1, .inr ?_, by omega, fun h => by omega, fun j hj => ?_⟩
      · rcases a2 with rfl | a2
        · simp
        · simp [a2]
      · rcases List.mem_cons.mp hj with rfl | hj
        · exact ⟨a3, fun h => by rw [a4 h]⟩
        · exact a5 j hj
    · have e : f (some b) m = some b := by rw [hf]; dsimp only; rw [if_neg c]
      rw [e]
      obtain ⟨q, a1, a2, a3, a4, a5⟩ := ih hm.2 b (fun i hi => hb i (by simp [hi]))
      refine ⟨q, a1, ?_, a3, a4, fun j hj => ?_⟩
      · rcases a2 with rfl | a2
        · exact .inl rfl
        · exact .inr (by simp [a2])
      · rcases List.mem_cons.mp hj with rfl | hj
        · refine ⟨by omega, fun h => ?_⟩
          have : q = b := a4 (by omega)
          have := hb j (by simp)
          omega
        · exact a5 j hj

theorem bestFor_spec (s : State) (k : Nat) : (∀ i, s.bestFor k = some i → i ∈ s.pendingFor k ∧ s.takenNow k i = false ∧ ∀ j ∈ s.pendingFor k, s.takenNow k j = false →
      s.getI F.Irq.ROUTE_PRIO pgIrq j ≤ s.getI F.Irq.ROUTE_PRIO pgIrq i ∧ (s.getI F.Irq.ROUTE_PRIO pgIrq j = s.getI F.Irq.ROUTE_PRIO pgIrq i → i ≤ j)) ∧
    (s.bestFor k = none ↔ ∀ i ∈ s.pendingFor k, s.takenNow k i = true) := by
  obtain ⟨l, hl⟩ : ∃ l, l = (s.pendingFor k).filter (fun i => !s.takenNow k i) := ⟨_, rfl⟩
  have hm : ∀ i, i ∈ l ↔ i ∈ s.pendingFor k ∧ s.takenNow k i = false := fun i => by rw [hl, List.mem_filter]; simp
  have hs : l.Pairwise (· < ·) := by
    rw [hl]; unfold State.pendingFor
    exact (List.pairwise_lt_range.filter _).filter _
  obtain ⟨f, hf⟩ : ∃ f : Option Nat → Nat → Option Nat, f = fun a i => match a with
      | none => some i
      | some b => if s.getI F.Irq.ROUTE_PRIO pgIrq b < s.getI F.Irq.ROUTE_PRIO pgIrq i then some i else a := ⟨_, rfl⟩
  have e : s.bestFor k = l.foldl f none := by
    rw [hl, hf]; unfold State.bestFor
    congr 1
  have hn : s.bestFor k = none ↔ l = [] := by
    rw [e]
    cases l with
    | nil => simp
    | cons m l =>
      have e0 : f none m = some m := by rw [hf]
      rw [List.foldl_cons, e0]
      obtain ⟨q, a1, _⟩ := bestOf (fun i => s.getI F.Irq.ROUTE_PRIO pgIrq i) l (List.pairwise_cons.mp hs).2 f hf m (List.pairwise_cons.mp hs).1
      rw [a1]; simp
  refine ⟨fun i hi => ?_, hn.trans ?_⟩
  · rw [e] at hi
    cases hcl : l with
    | nil => rw [hcl] at hi; cases hi
    | cons m r =>
      rw [hcl] at hi hs
      have e0 : f none m = some m := by rw [hf]
      rw [List.foldl_cons, e0] at hi
      obtain ⟨q, a1, a2, a3, a4, a5⟩ := bestOf (fun i => s.getI F.Irq.ROUTE_PRIO pgIrq i) r (List.pairwise_cons.mp hs).2 f hf m (List.pairwise_cons.mp hs).1
      rw [a1] at hi
      have hqi : q = i := Option.some.inj hi
      subst hqi
      have hql : q ∈ l := by
        rw [hcl]; rcases a2 with rfl | a2
        · simp
        · simp [a2]
      obtain ⟨b1, b2⟩ := (hm q).mp hql
      refine ⟨b1, b2, fun j hj ht => ?_⟩
      have hjl : j ∈ m :: r := hcl ▸ (hm j).mpr ⟨hj, ht⟩
      rcases List.mem_cons.mp hjl with rfl | hj
      · exact ⟨a3, fun h => by rw [a4 h]⟩
      · exact a5 j hj
  · constructor
    · intro h i hi
      by_contra hc
      have : i ∈ l := (hm i).mpr ⟨hi, Bool.eq_false_iff.mpr hc⟩
      rw [h] at this; cases this
    · intro h
      cases hcl : l with
      | nil => rfl
      | cons m r =>
        have := (hm m).mp (by rw [hcl]; simp)
        rw [h m this.1] at this; cases this.2

end Sys2Proof.Machine
end

