-- ==== Sys2Proof/Laws/OfWords.lean ====
section
/-! SUPPORT. Lemmas that the statements about its unit: Words rest on. -/

-- One declaration after another: the package is also checked as one text, where too many threads would start at once.
set_option Elab.async false

set_option linter.unusedVariables false
set_option linter.unusedSimpArgs false

namespace Sys2Proof.Machine

theorem bits_lt (v lo w : Nat) : bits v lo w < 2 ^ w := Nat.mod_lt _ (Nat.two_pow_pos w)

/-- One field of a written word. -/
theorem writeField_spec (pg data : Nat) (held : Fld → Nat → Bool) (e : Fld × Nat) (s : State) :
    s.OnlyRegs (writeField pg data held e s) [e.1.key pg e.2] ∧
    ((e.1.acc = .rw ∨ e.1.acc = .rws) → e.1.cls ≠ .s → (e.1.cls = .h → held e.1 e.2 = false) → e.1.reserved (bits data e.1.lo e.1.w) = false →
      (writeField pg data held e s).getI e.1 pg e.2 = bits data e.1.lo e.1.w) ∧
    (e.1.acc = .ro ∨ e.1.acc = .wo ∨ e.1.cls = .s ∨ (e.1.cls = .h ∧ held e.1 e.2 = true) ∨
      ((e.1.acc = .rw ∨ e.1.acc = .rws) ∧ e.1.reserved (bits data e.1.lo e.1.w) = true) → (writeField pg data held e s).getI e.1 pg e.2 = s.getI e.1 pg e.2) := by
  obtain ⟨f, i⟩ := e
  unfold writeField; dsimp only
  by_cases c : f.cls = .s ∨ (f.cls = .h ∧ held f i = true)
  · rw [if_pos c]
    refine ⟨.refl _ _, fun _ h1 h2 _ => ?_, fun _ => rfl⟩
    rcases c with c | ⟨c, d⟩
    · exact absurd c h1
    · rw [h2 c] at d; cases d
  · rw [if_neg c]
    have nc : ∀ {P : Prop}, (f.cls = .s ∨ (f.cls = .h ∧ held f i = true) ∨ P) → P := fun h => by
      rcases h with h | h | h
      · exact absurd (.inl h) c
      · exact absurd (.inr h) c
      · exact h
    cases ha : f.acc with
    | ro => refine ⟨.refl _ _, fun h => ?_, fun _ => rfl⟩; rcases h with h | h <;> cases h
    | wo => refine ⟨.refl _ _, fun h => ?_, fun _ => rfl⟩; rcases h with h | h <;> cases h
    | rw =>
      dsimp only
      by_cases r : f.reserved (bits data f.lo f.w) = true
      · rw [if_pos r]; refine ⟨.refl _ _, fun _ _ _ h => ?_, fun _ => rfl⟩; rw [r] at h; cases h
      · rw [if_neg r]
        refine ⟨s.onlyRegs_setI _ _ _ _, fun _ _ _ _ => ?_, fun h => ?_⟩
        · rw [State.getI_setI_self]; exact low_of_lt (bits_lt _ _ _)
        · rcases h with h | h | h
          · cases h
          · cases h
          · exact absurd (nc h).2 r
    | rws =>
      dsimp only
      by_cases r : f.reserved (bits data f.lo f.w) = true
      · rw [if_pos r]; refine ⟨.refl _ _, fun _ _ _ h => ?_, fun _ => rfl⟩; rw [r] at h; cases h
      · rw [if_neg r]
        refine ⟨s.onlyRegs_setI _ _ _ _, fun _ _ _ _ => ?_, fun h => ?_⟩
        · rw [State.getI_setI_self]; exact low_of_lt (bits_lt _ _ _)
        · rcases h with h | h | h
          · cases h
          · cases h
          · exact absurd (nc h).2 r
    | w1c =>
      dsimp only
      refine ⟨s.onlyRegs_setI _ _ _ _, fun h => ?_, fun h => ?_⟩
      · rcases h with h | h <;> cases h
      rcases h with h | h | h
      · cases h
      · cases h
      · rcases (nc h).1 with h | h <;> cases h

theorem writeFields_spec (pg data off : Nat) (held : Fld → Nat → Bool) (l : List (Fld × Nat)) (hl : ∀ e ∈ l, e.1.off + e.2 * e.1.stride = off ∧ e.1.lo < 32)
    (hn : (l.map (fun e => e.1.lo)).Nodup) (s : State) : s.OnlyRegs (forAll l s (writeField pg data held)) (l.map (fun e => e.1.key pg e.2)) ∧ ∀ e ∈ l,
    ((e.1.acc = .rw ∨ e.1.acc = .rws) → e.1.cls ≠ .s → (e.1.cls = .h → held e.1 e.2 = false) → e.1.reserved (bits data e.1.lo e.1.w) = false →
      (forAll l s (writeField pg data held)).getI e.1 pg e.2 = bits data e.1.lo e.1.w) ∧
    (e.1.acc = .ro ∨ e.1.acc = .wo ∨ e.1.cls = .s ∨ (e.1.cls = .h ∧ held e.1 e.2 = true) ∨
      ((e.1.acc = .rw ∨ e.1.acc = .rws) ∧ e.1.reserved (bits data e.1.lo e.1.w) = true) → (forAll l s (writeField pg data held)).getI e.1 pg e.2 = s.getI e.1 pg e.2) := by
  induction l generalizing s with
  | nil => exact ⟨.refl _ _, fun e h => by cases h⟩
  | cons m l ih =>
    rw [List.map_cons, List.nodup_cons] at hn
    rw [forAll_cons]
    obtain ⟨w1, w2, w3⟩ := writeField_spec pg data held m s
    obtain ⟨i1, i2⟩ := ih (fun e h => hl e (by simp [h])) hn.2 (writeField pg data held m s)
    have keyne : ∀ e ∈ l, e.1.key pg e.2 ≠ m.1.key pg m.2 := fun e he h => by
      have a := hl e (by simp [he]); have b := hl m (by simp)
      unfold Fld.key at h; rw [a.1, b.1] at h
      exact hn.1 (List.mem_map.mpr ⟨e, he, by omega⟩)
    refine ⟨w1.trans i1, fun e he => ?_⟩
    rcases List.mem_cons.mp he with rfl | he
    · have same : (forAll l (writeField pg data held e s) (writeField pg data held)).getI e.1 pg e.2 = (writeField pg data held e s).getI e.1 pg e.2 :=
        i1.getI fun hk => by
          obtain ⟨x, hx, h⟩ := List.mem_map.mp hk
          exact keyne x hx h
      rw [same]; exact ⟨w2, w3⟩
    · have same : (writeField pg data held m s).getI e.1 pg e.2 = s.getI e.1 pg e.2 := w1.getI (by simpa using keyne e he)
      have := i2 e he
      rw [same] at this; exact this

theorem plainWords : ∀ pg ∈ [1, 0x062, 0x068, 0x085, 0x086, 0x0AB, 0x0AC], ∀ k < 496, (∀ e ∈ wordFields pg (0x40 + 4 * k), e.1.off + e.2 * e.1.stride = 0x40 + 4 * k ∧ e.1.lo < 32) ∧
    ((wordFields pg (0x40 + 4 * k)).map (fun e => e.1.lo)).Nodup := by decide +kernel

theorem plainPage (pg : Nat) (hp : pg ∈ [1, 0x062, 0x068, 0x085, 0x086, 0x0AB, 0x0AC]) (off data owner : Nat) (s : State) : bodyWrite pg off data owner s = plain pg off data s := by
  simp only [List.mem_cons, List.not_mem_nil, or_false] at hp
  rcases hp with rfl | rfl | rfl | rfl | rfl | rfl | rfl <;> rfl

theorem passes_parts {s : State} {pg owner : Nat} (h : s.passes pg owner = true) : s.silent = false ∧ present pg = true ∧ s.ready pg = true := by
  unfold State.passes at h; simp only [Bool.and_eq_true, Bool.not_eq_true'] at h; exact ⟨h.1.1.1, h.1.1.2, h.1.2⟩

theorem registerWrite_eq (pg : Nat) (apt : Bool) (off data owner : Nat) (s : State) (h1 : pg < 256) (h2 : off < (if apt then 2 ^ 22 else 2 ^ 12)) (h3 : data < 2 ^ 32) :
    exec (.registerWrite pg apt off data owner) s = .next (registerWrite pg apt off data (writerOf pg apt off data owner) s) := by
  simp only [exec, execRegisterWrite]
  rw [show low 8 pg = pg from low_of_lt h1, show low 32 data = data from low_of_lt h3]
  cases apt
  · rw [if_neg (by decide), show low 12 off = off from low_of_lt h2]
  · rw [if_pos rfl, show low 22 off = off from low_of_lt h2]

theorem drainPool_spec (l : List LedgerRec) (s : State) : ∃ a b u, l = a ++ b ∧ u = a.foldl State.ledgerAppend s ∧
    drainPool l s = ({ u with pool := b }).set F.Led.POOL_LEVEL pgLedger b.length ∧ (b ≠ [] → u.ledgerAccepts = false) := by
  induction l generalizing s with
  | nil => exact ⟨[], [], s, rfl, rfl, rfl, fun h => absurd rfl h⟩
  | cons r l ih =>
    by_cases c : s.ledgerAccepts = true
    · obtain ⟨a, b, u, h1, h2, h3, h4⟩ := ih (s.ledgerAppend r)
      refine ⟨r :: a, b, u, by rw [h1]; rfl, h2, ?_, h4⟩
      unfold drainPool; rw [if_pos c]; exact h3
    · refine ⟨[], r :: l, s, rfl, rfl, ?_, fun _ => Bool.eq_false_iff.mpr c⟩
      unfold drainPool; rw [if_neg c]; rfl

end Sys2Proof.Machine
end

