-- ==== Sys2Proof/Tests/Slice0.lean ====
section
/-! SUPPORT. Small tests: what is not well formed is refused, and the hypotheses of the statements can be met. -/

-- One declaration after another: the package is also checked as one text, where too many threads would start at once.
set_option Elab.async false

open Sys2Proof Sys2Proof.Machine

namespace Sys2Proof.Tests

/-- The pages of Table 2-1. -/
def wpages : List Nat :=
  [0, 1, 2, 3, 4, 5, 8, 9, 10, 11, 12, 13, 16, 17, 18, 19, 20, 21, 22, 23, 24, 25, 26, 27] ++
  [28, 29, 30, 31, 32, 33, 34, 35, 36, 37, 38, 39, 40, 41, 42, 43, 44, 45, 46, 47, 48, 49, 50, 51] ++
  [52, 53, 54, 55, 56, 57, 58, 59, 60, 61, 62, 63, 64, 65, 66, 67, 68, 69, 70, 71, 72, 73, 74, 75] ++
  [80, 81, 82, 83, 84, 85, 86, 87, 88, 89, 90, 91, 96, 97, 98, 99, 100, 101, 104, 105, 106, 107, 108, 109] ++
  [110, 111, 112, 113, 114, 115, 116, 120, 121, 122, 128, 129, 130, 131, 132, 133, 134, 144, 145, 146, 147, 148, 152, 160] ++
  [168, 169, 170, 171, 172, 176, 177, 178, 179]

/-- A state in Bisque in which every page is READY, the fields of the list changed. -/
def wready (l : List (Fld × Nat × Nat × Nat)) : State :=
  l.foldl (fun s e => s.setI e.1 e.2.1 e.2.2.1 e.2.2.2)
    { State.reset with regs := wpages.map (fun pg => (pg * 131072 + 128, 1)) }

/-- A job whose gzip stream cannot fit one byte. -/
def wJob : State := wready [(F.Job.JOB_STATUS_STATE, pgJob, 3, 1), (F.Job.SRC_ADDR_LO, pgJob, 3, 0x10000000), (F.Job.SRC_LEN, pgJob, 3, 4),
  (F.Job.DST_ADDR_LO, pgJob, 3, 0x10001000), (F.Job.DST_LIMIT, pgJob, 3, 1), (F.Job.FRAMING, pgJob, 3, 2)]
theorem framed_gzip (l : Nat) (src z : List Byte) : 1 < (framed 2 l src z).length := by unfold framed; simp
theorem wJob_overflows : wJob.jobOverflows 3 = true := by
  unfold State.jobOverflows
  rw [show wJob.jobLimit 3 = 1 by decide +kernel, show decide (1 < wJob.jobBound 3) = true by decide +kernel]
  unfold State.jobStream; rw [show wJob.getI F.Job.FRAMING pgJob 3 = 2 by decide +kernel]
  dsimp only; split <;> simp only [framed_gzip, decide_true, Bool.and_self]

def witPay : List Byte := 0#8 :: 0#8 :: 0#8 :: 47#8 :: List.replicate 252 0#8

def witBad : List Bool := stuff 0 none (scramble (scrSeed 6) (List.replicate 2048 false ++ (crcBits (laneCrc (List.replicate 2048 false))).map not))

theorem wit_crc (l : List Bool) (e : l.length = 2048) :
    decodeBlock 6 (stuff 0 none (scramble (scrSeed 6) (l ++ (crcBits (laneCrc l)).map not))) = .bad 0 := by
  apply decodeBlock_badCrc
  · simp [crcBits, e]
  · rw [List.drop_left' e, List.take_left' e]
    intro h
    have h2 := congrArg (fun l : List Bool => l.getD 0 false) h
    revert h2
    generalize laneCrc l = c
    simp [crcBits]

theorem wit_bad : decodeBlock 6 witBad = .bad 0 := wit_crc _ List.length_replicate

theorem wit_fill (n : Nat) : ∀ k acc, parseMsgs headType headLen k (List.replicate n 0#8) acc = acc := by
  induction n with
  | zero => intro k acc; cases k <;> rfl
  | succ n ih => intro k acc; cases k <;> simp [parseMsgs, List.replicate_succ, ih]

theorem wit_pay : witPay.length = 256 := by
  rw [witPay]; simp only [List.length_cons, List.length_replicate]

theorem wit_area (rx : RxX) (h : rx.lost = true) (z : List Byte) (f : ∀ k acc, parseMsgs headType headLen k z acc = acc) :
    (rx.payload headType headLen (0#8 :: 0#8 :: 0#8 :: 47#8 :: z)).2 = {} := by
  simp [RxX.payload, h, f]

theorem wit_msgs (rx : RxX) (h : rx.lost = true) : (rx.payload headType headLen witPay).2 = {} := by
  rw [witPay]; exact wit_area rx h (List.replicate 252 0#8) (wit_fill 252)

theorem wit_good (p : List Byte) (l : p.length = 256) (h : (p.getD 3 0).toNat % 64 = 47)
    (m : ∀ rx : RxX, rx.lost = true → (rx.payload headType headLen p).2 = {}) :
    let o := ({ seq := some 2047, good := 3 } : RxX).block false 0 0 ((encodeBlock 0 p).drop 64)
    readMarker ((encodeBlock 0 p).take 64) = some 0 ∧ o.payload = some p ∧ o.err = none ∧ o.lostNow = false ∧ o.lockedNow = true ∧
      (p.getD 3 0).toNat % 64 = 47 ∧ (o.rx.payload headType headLen p).2 = {} := by
  have e : ({ seq := some 2047, good := 3 } : RxX).block false 0 0 (blockBody 0 p) =
      { rx := { seq := some 0, lost := true }, lockedNow := true, payload := some p } := by
    simp [RxX.block, RxX.body, decodeBlock_blockBody 0 p l]
  simp only [encodeBlock_drop, encodeBlock_take, e]
  exact ⟨by decide, trivial, trivial, trivial, trivial, h, m _ rfl⟩

theorem wit_wrong (b : List Bool) (h : decodeBlock 6 b = .bad 0) : let o := ({ seq := some 5, miss := 3 } : RxX).block true 6 0 b
    o.err = some 0 ∧ o.payload = none ∧ o.lockedNow = false ∧ o.lostNow = false := by
  simp [RxX.block, RxX.body, h]

/-- A 60-byte frame from a source address with an EtherType and the bytes after it. -/
def wframe (src : List Nat) (rest : List Nat) : List Byte :=
  ([0x01, 0x1B, 0x19, 0, 0, 0] ++ src ++ rest ++ List.replicate (48 - rest.length) 0).map (BitVec.ofNat 8)

/-- A chunk payload: a 16-byte chunk header with SEGMENT_ID 1 and LEN 4, and the data. -/
def wchunk : List Byte := [0x11, 0xF0, 1, 0, 1, 0, 4, 0, 0, 0, 0, 0, 0, 0, 0, 0, 1, 2, 3, 4]

theorem wit_StepRunsTheFrontCommand : ({ State.reset with pending := [.poolDrain] } : State).pending = .poolDrain :: [] := by decide

theorem wit_EveryStepKeepsCanonicalForm :
    (∃ t, State.reset.Canonical ∧ step State.reset = .next t) :=
  ⟨_, by unfold State.Canonical; decide +kernel, rfl⟩

theorem wit_CommandsKeepTimeAndQueue :
    (∃ t, State.reset.Canonical ∧ exec .bisqueTimeout State.reset = .next t) :=
  ⟨_, by unfold State.Canonical; decide +kernel, rfl⟩

theorem wit_EmptyQueuePassesOneCycle :
    (State.reset.Canonical ∧ State.reset.pending = []) :=
  by unfold State.Canonical; decide +kernel

theorem wit_LocksObeyTheirHolder :
    (let s : State := wready []
    s.passes pgLocks 255 = true ∧ s.onI F.Lock.HELD pgLocks 63 = false ∧ s.holds 63 255 = false) ∧
    (let s : State := wready [(F.Lock.HELD, pgLocks, 63, 1), (F.Lock.OWNER, pgLocks, 63, 255)]
    s.passes pgLocks 255 = true ∧ s.holds 63 255 = true ∧ s.onI F.Lock.HELD pgLocks 63 = true ∧ s.stampedNow (lockKey 63) =
      false) ∧
    (let s : State := (wready [(F.Lock.HELD, pgLocks, 63, 1), (F.Lock.OWNER, pgLocks, 63, 255)]).stamp (lockKey 63) 0
    s.passes pgLocks 254 = true ∧ s.onI F.Lock.HELD pgLocks 63 = true ∧ s.stampedNow (lockKey 63) = true ∧ 254 < s.getI
      F.Lock.OWNER pgLocks 63 ∧ s.holds 63 254 = false) :=
  ⟨by decide +kernel, by decide +kernel, by decide +kernel⟩

theorem wit_EventRegistersClearAndForce :
    (let s : State := wready []
    present 255 = false ∧ present 0x0B3 = true ∧ s.silent = false) ∧
    ((pageEvents pgLocks).find? (fun e => e.bit == 1) = some Ev.lockReleaseDenied ∧ 1 < 32 ∧ pgLocks ≠ pgLedger) :=
  ⟨by decide +kernel, by decide +kernel⟩

theorem wit_ControlBitsAct :
    (let s : State := wready []
    present 0x0B3 = true ∧ s.silent = false ∧ s.ready 0x060 = true ∧ s.on F.Hdr.ENABLE 0x060 = false ∧ s.ringQuiesced 0x060 =
      false ∧ s.on F.Hdr.QUIESCE 0x060 = false ∧ within 0x060 0x040 0x04B = false ∧ (s.bndOf 0x060).resetting = false) ∧
    (let s : State := State.reset
    s.silent = false ∧ s.ready 0x0B3 = false) ∧
    (let s : State := wready [(F.Hdr.ENABLE, 0x0B3, 0, 1), (F.Hdr.QUIESCE, 0x0B3, 0, 1)]
    s.on F.Hdr.ENABLE 0x0B3 = true ∧ s.on F.Hdr.QUIESCE 0x0B3 = true ∧ s.ringQuiesced 0x0B3 = false) ∧
    (let s : State := (wready []).updBnd 0x060 (fun b => { b with ringAt := some 0 })
    s.ringQuiesced 0x060 = true) ∧
    (let s : State := { (wready [(F.Hdr.QUIESCE, 0x0B0, 0, 1), (F.Cpu.L2_MAINT_BUSY, 0x0B0, 0, 1)]).updBnd 0x0B0 (fun b => { b
      with quiesceAt := some 0 }) with now := 20000 }
    (s.bndOf 0x0B0).quiesceAt = some 0 ∧ s.on F.Hdr.QUIESCE 0x0B0 = true ∧ s.busy 0x0B0 = true ∧ 0 + 20000 ≤ s.now) :=
  ⟨by decide +kernel, by decide +kernel, by decide +kernel, by decide +kernel, by decide +kernel⟩

theorem wit_BusErrorsAndUnmappedSlots :
    (let s : State := wready []
    s.silent = false ∧ (3 < 4 ∨ 0 % 4 ≠ 0) ∧ (4 < 4 ∨ 1 % 4 ≠ 0) ∧ present 255 = false ∧ 0xFFC < 0x1000 ∧ 0xFFC % 4 = 0) ∧
    (let s : State := { State.reset with mode := { State.reset.mode with porst := true } }
    s.silent = true) :=
  ⟨by decide +kernel, by decide +kernel⟩

theorem wit_CommitOfOnePage :
    (let s : State := wready []
    hasBoundary 0x062 = true ∧ s.passes 0x062 255 = true ∧ s.groupOf 0x062 = none ∧ s.cstate 0x062 = 0 ∧ (s.bndOf
      0x062).leadPassed = false ∧ s.shadowBad 0x062 = false ∧ s.cal.mirror = [] ∧ (low 16 32767 + 65536 - (s.bndOf 0x062).next
      % 65536) % 65536 ≤ 32767) ∧
    (let s : State := wready [(F.Hdr.COMMIT_STATE, 0x062, 0, 1), (F.Hdr.ENABLE, 0x062, 0, 1)]
    s.passes 0x062 255 = true ∧ s.cstate 0x062 = 1 ∧ s.stopped 0x062 = false ∧ (s.bndOf 0x062).leadPassed = false ∧
      s.shadowBad 0x062 = false ∧ (s.bndOf 0x062).tgt = none) ∧
    (let s : State := (wready [(F.Hdr.COMMIT_STATE, 0x078, 0, 2), (F.Hdr.ENABLE, 0x078, 0, 1)]).updBnd 0x078 (fun b => { b
      with leadPassed := true })
    hasBoundary 0x078 = true ∧ s.stopped 0x078 = false ∧ (s.bndOf 0x078).leadPassed = true ∧ s.cstate 0x078 = 2 ∧
      s.groupToSwap 0x078 = none ∧ s.on F.Hdr.HOLD 0x078 = false ∧ boundaryKind 0x078 ≠ 2 ∧ within 0x078 0x06C 0x06F = false) ∧
    (let s : State := wready [(F.Hdr.COMMIT_STATE, 0x060, 0, 1)]
    s.stopped 0x060 = true ∧ s.groupToSwap 0x060 = none ∧ s.groupOf 0x060 = none ∧ s.cstate 0x060 = 1 ∧ (s.bndOf 0x060).tgt =
      none) ∧
    (let s : State := wready [(F.Hdr.COMMIT_STATE, 0x03F, 0, 3)]
    hasBoundary 0x03F = true ∧ s.cstate 0x03F = 3 ∧ (s.bndOf 0x03F).held = none ∧ s.grp = []) :=
  ⟨by decide +kernel, by decide +kernel, by decide +kernel, by decide +kernel, by decide +kernel⟩

theorem wit_GroupCommitRequests :
    (let s : State := wready [(F.Group.GROUP_MASK_3, pgMode, 7, 4), (F.Hdr.ENABLE, 0x062, 0, 1)]
    7 < 8 ∧ s.passes pgMode 255 = true ∧ s.gstate 7 = 0 ∧ s.groupMembers 7 = [0x062] ∧ s.groupOffender 7 = none ∧
      s.runningMembers 7 ≠ [] ∧ s.groupLeadPassed 7 = false) ∧
    (let s : State := wready [(F.Group.GROUP_MASK_3, pgMode, 0, 4), (F.Hdr.ENABLE, 0x062, 0, 1), (F.Group.GROUP_STATE_STATE,
      pgMode, 0, 1)]
    s.passes pgMode 0 = true ∧ s.gstate 0 = 1 ∧ s.runningMembers 0 ≠ [] ∧ (s.grpOf 0).tgt = none ∧ (s.grpOf 0).carried = none
      ∧ (s.groupMembers 0).any s.shadowBad = false) :=
  ⟨by decide +kernel, by decide +kernel⟩

theorem wit_ControlRingCommands :
    (let s : State := wready []
    s.passes pgReady 255 = true ∧ s.on F.Rdy.PENDING pgReady = false ∧ s.ring.onRing = none) ∧
    (let s : State := wready [(F.Rdy.PENDING, pgReady, 0, 1)]
    s.passes pgReady 0 = true ∧ s.on F.Rdy.PENDING pgReady = true) ∧
    (let s : State := { wready [] with ring := { onRing := some ⟨3, 1, 0x0B3, 15, []⟩ } }
    s.ring.onRing = some ⟨3, 1, 0x0B3, 15, []⟩ ∧ s.ring.waiting = [] ∧ present 0x0B3 = true ∧ s.ring.resent = false) ∧
    (let s : State := { wready [] with ring := { onRing := some ⟨3, 4, 0x0B3, 0, []⟩, resent := true } }
    s.ring.onRing = some ⟨3, 4, 0x0B3, 0, []⟩ ∧ s.ring.resent = true ∧ s.ring.waiting = []) :=
  ⟨by decide +kernel, by decide +kernel, by decide +kernel, by decide +kernel⟩

theorem wit_ModeRequests :
    (let s : State := wready []
    s.passes pgMode 255 = true ∧ s.goRefusal 0 ≠ 0 ∧ s.goRefusal 4 ≠ 0 ∧ s.modeNow ≠ 3 ∧ s.modeNow ≠ 4) ∧
    (let s : State := wready []
    s.goRefusal 2 = 0 ∧ s.modeNow ≠ 0 ∧ s.modeNow ≠ 5 ∧ ¬(s.inTransition = true ∧ s.target = 5) ∧ s.autoDormant = false ∧
      s.mode.goAt = none) ∧
    (let s : State := wready [(F.Mode.MODE, pgMode, 0, 2), (F.Sag.OPERATE, pgSag, 0, 1)]
    s.passes pgMode 0 = true ∧ s.goRefusal 3 = 0 ∧ s.goRefusal 4 = 0) :=
  ⟨by decide +kernel, by decide +kernel, by decide +kernel⟩

theorem wit_ModeTransitions :
    (let s : State := wready [(F.Mode.AUTO_IDLE, pgMode, 0, 1)]
    s.modeNow = 1 ∧ s.inTransition = false ∧ s.mode.porst = false ∧ s.on F.Mode.AUTO_IDLE pgMode = true ∧ s.ready pgMode =
      true ∧ s.missingPages = [] ∧ s.get F.Mode.SAFE_HOLD_CAUSE pgMode = 0) ∧
    (let s : State := { State.reset with now := 1000000000000 }
    s.modeNow = 1 ∧ s.mode.porst = false ∧ s.mode.bisqueTimeout = false ∧ s.missingPages ≠ [] ∧ s.mode.bisqueSince + s.get
      F.Mode.BISQUE_LIMIT pgMode * 1000000 ≤ s.now) ∧
    (let s : State := { State.reset with mode := { State.reset.mode with bisqueTimeout := true } }
    s.mode.bisqueTimeout = true) ∧
    (let s : State := wready [(F.Mode.IN_TRANSITION, pgMode, 0, 1), (F.Mode.TARGET_MODE, pgMode, 0, 2), (F.Mode.MODE, pgMode,
      0, 3)]
    s.inTransition = true ∧ s.target ≠ 0 ∧ s.target = 2 ∧ s.modeNow = 3 ∧ portsStopped s = true) ∧
    (let s : State := wready [(F.Mode.IN_TRANSITION, pgMode, 0, 1), (F.Mode.TARGET_MODE, pgMode, 0, 2), (F.Mode.MODE, pgMode,
      0, 4), (F.Port.RUN_STATUS_STATE, 0x010, 0, 5)]
    s.inTransition = true ∧ s.target = 2 ∧ s.modeNow = 4 ∧ portsStopped s = false) ∧
    (let s : State := wready [(F.Hdr.READY, 0x06F, 0, 0)]
    present 0x06F = true ∧ s.ready 0x06F = false ∧ s.modeNow ≠ 0 ∧ s.mode.porst = false ∧ (∀ d ∈ dependencies 0x06F, s.ready d
      = true) ∧ blockMayReady s 0x06F = true) :=
  ⟨by decide +kernel, by decide +kernel, by decide +kernel, by decide +kernel, by decide +kernel, by decide +kernel⟩

theorem wit_PowerCycles :
    (let s : State := { State.reset with mode := { State.reset.mode with porst := true } }
    s.mode.porst = true) ∧
    (let s : State := { wready [(F.Mode.MODE, pgMode, 0, 0)]
      with mode := { State.reset.mode with wakePinEn := true, wakeTimerEn := true, dormantSince := 0, wakeDelay := 1 }, now := 1000000 }
    (s.modeNow == 0 && !s.mode.porst && s.mode.wakePinEn) = true ∧ (s.modeNow == 0 && !s.mode.porst && s.mode.wakeTimerEn &&
      decide (s.mode.dormantSince + s.mode.wakeDelay * 1000000 ≤ s.now)) = true) ∧
    (let s : State := { wready [(F.Mode.TARGET_MODE, pgMode, 0, 0)]
      with mode := { State.reset.mode with toDormant := true }, jrn := { closed := true } }
    s.mode.toDormant = true ∧ s.mode.porst = false ∧ s.modeNow ≠ 0 ∧ s.target = 0 ∧ dormantReached s = true) ∧
    (let s : State := wready [(F.Mode.IN_TRANSITION, pgMode, 0, 1), (F.Mode.TARGET_MODE, pgMode, 0, 5),
      (F.Mode.SAFE_HOLD_CAUSE, pgMode, 0, 64)]
    s.inTransition = true ∧ s.target = 5 ∧ s.get F.Mode.SAFE_HOLD_CAUSE pgMode ≠ 0) :=
  ⟨by decide +kernel, by decide +kernel, by decide +kernel, by decide +kernel⟩

theorem wit_IngestChunksRingAndCache :
    (let s : State := wready [(F.Ing.PORT0_EN, pgIng, 0, 1), (F.Ing.RING_SIZE, pgIng, 0, 1), (F.Hdr.ENABLE, pgIng, 0, 1),
      (F.Ing.UDP_PORT, pgIng, 0, 5), (F.Sw.IPV4_ADDR, 0x092, 0, 9)]
    s.takesChunk 0 false 9 5 = true ∧ s.takesChunk 2 false 9 5 = false ∧ field [0x11, 0xF0, 1, 0, 0, 0, 4, 0, 0, 0, 0, 0, 16,
      0, 0, 0, 7, 7, 7, 7] 0 2 = 0xF011 ∧ field [0x11, 0xF0, 1, 0, 0, 0, 4, 0, 0, 0, 0, 0, 16, 0, 0, 0, 7, 7, 7, 7] 2 1 = 1 ∧
      field [0x11, 0xF0, 1, 0, 0, 0, 4, 0, 0, 0, 0, 0, 16, 0, 0, 0, 7, 7, 7, 7] 4 2 = s.get F.Ing.SEGMENT_ID pgIng ∧ field
      [0x11, 0xF0, 1, 0, 0, 0, 4, 0, 0, 0, 0, 0, 16, 0, 0, 0, 7, 7, 7, 7] 6 2 = 4 ∧ field [0x11, 0xF0, 1, 0, 0, 0, 4, 0, 0, 0,
      0, 0, 16, 0, 0, 0, 7, 7, 7, 7] 8 4 = 0 ∧ field [0x11, 0xF0, 1, 0, 0, 0, 4, 0, 0, 0, 0, 0, 16, 0, 0, 0, 7, 7, 7, 7] 12 4
      = 16 ∧ [0x11, 0xF0, 1, 0, 0, 0, 4, 0, 0, 0, 0, 0, 16, 0, 0, 0, 7, 7, 7, 7].length = 16 + 4 ∧ 0 ≤ folioDiff 0 s.expected
      ∧ folioDiff 0 s.expected ≤ 3 ∧ s.ing.passed.contains 0 = false ∧ s.folio 0 = none ∧ s.earlyChunks < 256) ∧
    (let s : State := { wready [(F.Ing.PORT0_EN, pgIng, 0, 1), (F.Ing.RING_SIZE, pgIng, 0, 1), (F.Hdr.ENABLE, pgIng, 0, 1),
      (F.Ing.UDP_PORT, pgIng, 0, 5), (F.Sw.IPV4_ADDR, 0x092, 0, 9)]
      with ing := { held := [{ n := 0, hdr := some ⟨1, 1, 0, 0, 0, 0⟩, known := true, items := [{ e := ⟨0, 0, 0, 0, 0, 0, 1, 0, 64, 0, 64, 0, 0, [], 0, 0⟩ }] }] } }
    s.pathOn pgIng = true ∧ ((trimPast s).firstWaiting).isSome = true ∧ (takeSpace (trimPast s).ringFree (roundUp 64
      64)).isSome = true) ∧
    (let s : State := wready [(F.Ing.CACHE_ENTRY_VALID, pgIng, 255, 1), (F.Ing.EVICT_PENDING, pgIng, 255, 1)]
    255 < 256 ∧ s.passes pgIng 255 = true ∧ s.onI F.Ing.CACHE_ENTRY_VALID pgIng 255 = true ∧ s.onI F.Ing.EVICT_PENDING pgIng
      255 = true ∧ s.cacheInUse 255 = false ∧ s.active pgIng = true) :=
  ⟨by decide +kernel, by decide +kernel, by decide +kernel⟩

theorem wit_JobCommands :
    (let s : State := wready [(F.Job.SRC_ADDR_LO, pgJob, 3, 0x10000000), (F.Job.SRC_LEN, pgJob, 3, 1), (F.Job.DST_ADDR_LO,
      pgJob, 3, 0x10001000), (F.Job.DST_LIMIT, pgJob, 3, 64)]
    3 < 4 ∧ s.passes pgJob 255 = true ∧ s.jobState 3 ≠ 1 ∧ s.jobInvalid 3 = false) ∧
    (let s : State := wready []
    s.passes pgJob 0 = true ∧ s.jobState 0 ≠ 1 ∧ s.jobInvalid 0 = true) ∧
    (let s : State := wready [(F.Job.JOB_STATUS_STATE, pgJob, 3, 1), (F.Job.SRC_ADDR_LO, pgJob, 3, 0x10000000),
      (F.Job.SRC_LEN, pgJob, 3, 1), (F.Job.DST_ADDR_LO, pgJob, 3, 0x10001000), (F.Job.DST_LIMIT, pgJob, 3, 64)]
    s.passes pgJob 255 = true ∧ s.jobState 3 = 1 ∧ s.jobRuns 3 = true ∧ s.jobPoisoned 3 = false ∧ s.sourceFault 3 = 0 ∧ decide
      (s.jobLimit 3 < s.jobBound 3) = false) ∧
    (wJob.jobRuns 3 = true ∧ wJob.jobPoisoned 3 = false ∧ wJob.sourceFault 3 = 0 ∧ wJob.jobOverflows 3 = true) ∧
    (let s : State := wready [(F.Job.JOB_STATUS_STATE, pgJob, 0, 1), (F.Job.REPACK, pgJob, 0, 1), (F.Job.SRC_ADDR_LO, pgJob,
      0, 0x10000000), (F.Job.SRC_LEN, pgJob, 0, 1)]
    s.jobRuns 0 = true ∧ s.sourceFault 0 ≠ 0) :=
  ⟨by decide +kernel, by decide +kernel, by decide +kernel, ⟨by decide +kernel, by decide +kernel, by decide +kernel,
      wJob_overflows⟩, by decide +kernel⟩

theorem wit_InflateSteps :
    (let s : State := { wready [(F.Hdr.ENABLE, 0x060, 0, 1), (F.Hdr.ENABLE, 0x062, 0, 1), (F.Hdr.ENABLE, 0x068, 0, 1),
      (F.Hdr.ENABLE, 0x06C, 0, 1), (F.Infl.ENGINE_EN, 0x062, 0, 255), (F.Glz.LAYER_EN, 0x068, 0, 15)]
      with ing := { held := [{ n := 0, hdr := some ⟨1, 1, 0, 0, 0, 0⟩, known := true, items := [{ e := ⟨0, 0, 0, 0, 0, 0, 1, 0, 64, 0, 0, 0, 0, [], 0, 0⟩, place := some [] }] }] }, port := [(0, { compose := some (0, 0), lastReq := some (0, 0) })], regn := [(0, { begun := some 0 })] }
    (s.needItem 0 0).map (fun x => (x.1, s.skips x.1 x.2.e, s.missCause x.1 x.2)) = some (0, false, 0)) ∧
    (let s : State := { wready [(F.Hdr.ENABLE, 0x060, 0, 1), (F.Hdr.ENABLE, 0x062, 0, 1), (F.Hdr.ENABLE, 0x068, 0, 1),
      (F.Hdr.ENABLE, 0x06C, 0, 1), (F.Infl.ENGINE_EN, 0x062, 0, 255), (F.Glz.LAYER_EN, 0x068, 0, 15)]
      with ing := { held := [{ n := 0, hdr := some ⟨1, 1, 0, 0, 0, 0⟩, known := true, items := [{ e := ⟨0, 0, 0, 0, 0, 0, 1, 0, 64, 0, 4, 0, 0, [], 0, 0⟩ }] }] }, port := [(0, { compose := some (0, 0), lastReq := some (0, 0) })], regn := [(0, { begun := some 0 })] }
    (s.needItem 0 0).map (fun x => (x.1, s.skips x.1 x.2.e, s.missCause x.1 x.2)) = some (0, false, 2)) ∧
    (let s : State := { wready [(F.Hdr.ENABLE, 0x060, 0, 1), (F.Hdr.ENABLE, 0x062, 0, 1), (F.Hdr.ENABLE, 0x068, 0, 1),
      (F.Hdr.ENABLE, 0x06C, 0, 1), (F.Infl.ENGINE_EN, 0x062, 0, 255), (F.Glz.LAYER_EN, 0x068, 0, 14)]
      with ing := { held := [{ n := 0, hdr := some ⟨1, 1, 0, 0, 0, 0⟩, known := true, items := [{ e := ⟨0, 0, 0, 0, 0, 0, 1, 0, 64, 0, 0, 0, 0, [], 0, 0⟩, place := some [] }] }] }, port := [(0, { compose := some (0, 0), lastReq := some (0, 0) })], regn := [(0, { begun := some 0 })] }
    (s.needItem 0 0).map (fun x => (x.1, s.skips x.1 x.2.e)) = some (0, true)) ∧
    (let s : State := { wready [(F.Hdr.ENABLE, 0x060, 0, 1), (F.Hdr.ENABLE, 0x062, 0, 1), (F.Hdr.ENABLE, 0x068, 0, 1),
      (F.Hdr.ENABLE, 0x06C, 0, 1), (F.Infl.ENGINE_EN, 0x062, 0, 255), (F.Glz.LAYER_EN, 0x068, 0, 15)]
      with ing := { held := [{ n := 0, hdr := some ⟨1, 1, 0, 0, 0, 0⟩, known := true, items := [{ e := ⟨0, 1, 0, 0, 0, 0, 1, 0, 64, 0, 0, 0, 0, [1], 0, 0⟩, place := some [] }] }] }, port := [(0, { compose := some (0, 0), lastReq := some (0, 0) })], regn := [(0, { begun := some 0 })] }
    (s.needItem 0 1).map (fun x => (x.1, s.tileCause x.1 x.2)) = some (0, 0)) ∧
    (let s : State := { wready [(F.Hdr.ENABLE, 0x060, 0, 1), (F.Hdr.ENABLE, 0x062, 0, 1), (F.Hdr.ENABLE, 0x068, 0, 1),
      (F.Hdr.ENABLE, 0x06C, 0, 1), (F.Infl.ENGINE_EN, 0x062, 0, 255), (F.Glz.LAYER_EN, 0x068, 0, 15)]
      with ing := { held := [{ n := 0, hdr := some ⟨1, 1, 0, 0, 0, 0⟩, known := true, items := [{ e := ⟨0, 1, 0, 0, 0, 0, 1, 0, 64, 0, 4, 0, 0, [1], 0, 0⟩ }] }] }, port := [(0, { compose := some (0, 0), lastReq := some (0, 0) })], regn := [(0, { begun := some 0 })] }
    (s.needItem 0 1).map (fun x => (x.1, s.tileCause x.1 x.2)) = some (0, 2)) ∧
    (let s : State := { wready [(F.Hdr.ENABLE, 0x060, 0, 1), (F.Hdr.ENABLE, 0x062, 0, 1), (F.Hdr.ENABLE, 0x068, 0, 1),
      (F.Hdr.ENABLE, 0x06C, 0, 1), (F.Infl.ENGINE_EN, 0x062, 0, 255), (F.Glz.LAYER_EN, 0x068, 0, 15)]
      with ing := { held := [{ n := 0, hdr := some ⟨1, 1, 0, 0, 0, 0⟩, known := true, items := [{ e := ⟨0, 0, 0, 0, 0, 0, 1, 0, 64, 0, 0, 0, 0, [], 0, 0⟩, place := some [], st := 1 }] }] }, port := [(0, { compose := some (0, 0), lastReq := some (0, 0) })], regn := [(0, { begun := some 0 })] }
    (s.engineOf 0 7).cur = none ∧ bitAt (s.get F.Infl.ENGINE_EN (pgInfl 0)) 7 = true ∧ (s.nextSlice 0 7).isSome = true ∧
      (s.engineOf 0 8).cur = none ∧ s.nextSlice 0 8 = none) ∧
    (let s : State := { wready [(F.Hdr.ENABLE, 0x060, 0, 1), (F.Hdr.ENABLE, 0x062, 0, 1), (F.Hdr.ENABLE, 0x068, 0, 1),
      (F.Hdr.ENABLE, 0x06C, 0, 1), (F.Infl.ENGINE_EN, 0x062, 0, 255), (F.Glz.LAYER_EN, 0x068, 0, 15)]
      with ing := { held := [{ n := 0, hdr := some ⟨1, 1, 0, 0, 0, 0⟩, known := true, items := [{ e := ⟨0, 0, 0, 0, 0, 0, 1, 0, 64, 0, 0, 0, 0, [], 0, 0⟩, place := some [] }] }] }, port := [(0, { compose := some (0, 0), lastReq := some (0, 0) })], regn := [(0, { begun := some 0, engines := [(8, { cur := some (0, 0) })] })] }
    (s.engineOf 0 8).cur = some (0, 0)) :=
  ⟨by decide +kernel, by decide +kernel, by decide +kernel, by decide +kernel, by decide +kernel, by decide +kernel, by
      decide +kernel⟩

theorem wit_RegionSteps :
    (let s : State := { wready [(F.Hdr.ENABLE, 0x060, 0, 1), (F.Hdr.ENABLE, 0x062, 0, 1), (F.Hdr.ENABLE, 0x068, 0, 1),
      (F.Hdr.ENABLE, 0x06C, 0, 1), (F.Infl.ENGINE_EN, 0x062, 0, 255), (F.Glz.LAYER_EN, 0x068, 0, 15)]
      with ing := { held := [{ n := 0, hdr := some ⟨1, 1, 0, 0, 0, 0⟩, known := true, items := [{ e := ⟨0, 0, 0, 0, 0, 0, 1, 0, 64, 0, 0, 0, 0, [], 0, 0⟩, place := some [] }] }] }, port := [(0, { compose := some (0, 0), lastReq := some (0, 0) })], regn := [(0, {  })] }
    3 < 4 ∧ s.folioToBegin 0 = some 0 ∧ s.groupWorks 0 0 = true ∧ s.heldAt (pgGlz 0) 0 = false ∧ s.folioToBegin 3 = none) ∧
    (let s : State := { wready [(F.Hdr.ENABLE, 0x060, 0, 1), (F.Hdr.ENABLE, 0x062, 0, 1), (F.Hdr.ENABLE, 0x068, 0, 1),
      (F.Hdr.ENABLE, 0x06C, 0, 1), (F.Infl.ENGINE_EN, 0x062, 0, 255), (F.Glz.LAYER_EN, 0x068, 0, 15)]
      with ing := { held := [{ n := 0, hdr := some ⟨1, 1, 0, 0, 0, 0⟩, known := true, items := [{ e := ⟨0, 0, 0, 0, 0, 0, 1, 0, 64, 0, 0, 0, 0, [], 0, 0⟩, place := some [], st := 2, atEnd := true, out := List.replicate 64 0 }] }] }, port := [(0, { compose := some (0, 0), lastReq := some (0, 0) })], regn := [(0, { begun := some 0 })] }
    s.composable 0 = some (0, 0) ∧ leastPort ((portsOf 0).filter (fun p => (s.composable p).isSome)) (fun p => s.linesAhead p
      + (s.portOf p).composed.length) = some 0 ∧ regionOf 0 = 0) ∧
    (let s : State := { wready [(F.Hdr.ENABLE, 0x060, 0, 1), (F.Hdr.ENABLE, 0x062, 0, 1), (F.Hdr.ENABLE, 0x068, 0, 1),
      (F.Hdr.ENABLE, 0x06C, 0, 1), (F.Infl.ENGINE_EN, 0x062, 0, 255), (F.Glz.LAYER_EN, 0x068, 0, 15)]
      with ing := { held := [{ n := 0, hdr := some ⟨1, 1, 0, 0, 0, 0⟩, known := true, items := [{ e := ⟨0, 0, 0, 0, 0, 0, 1, 0, 64, 0, 0, 0, 0, [], 0, 0⟩, place := some [] }] }] }, port := [(0, { composed := [(0, 0, [])] })], regn := [(0, { begun := some 0 })] }
    leastPort ((portsOf 0).filter s.screenable) s.screenedAhead = some 0 ∧ (s.portOf 0).composed = (0, 0, []) :: [] ∧
      (s.regnOf 0).badTab = []) ∧
    (let s : State := { wready [(F.Hdr.ENABLE, 0x060, 0, 1), (F.Hdr.ENABLE, 0x062, 0, 1), (F.Hdr.ENABLE, 0x068, 0, 1),
      (F.Hdr.ENABLE, 0x06C, 0, 1), (F.Infl.ENGINE_EN, 0x062, 0, 255), (F.Glz.LAYER_EN, 0x068, 0, 15)]
      with ing := { held := [{ n := 0, hdr := some ⟨1, 1, 0, 0, 0, 0⟩, known := true, items := [{ e := ⟨0, 2, 0, 0, 0, 0, 1, 0, 64, 0, 0, 0, 0, [], 0, 0⟩, place := some [] }] }] }, port := [(0, { compose := some (0, 0), lastReq := some (0, 0) })], regn := [(0, { begun := some 0 })] }
    s.pathOn (pgInfl 0) = true ∧ (s.listReady 0).isSome = true) :=
  ⟨by decide +kernel, by decide +kernel, by decide +kernel, by decide +kernel⟩

theorem wit_ThresholdStore :
    (let s : State := wready []
    s.passes 0x06E 255 = true ∧ 0x1FFFFC < 0x200000 ∧ 0x1FFFFC % 4 = 0 ∧ s.slotUser 1 (s.get F.Scr.THR_WINDOW_SLOT 0x06E) =
      none ∧ 7 < 8 ∧ s.slotUser 1 7 = none) ∧
    (let s : State := wready [(F.Hdr.ENABLE, 0x06D, 0, 1)]
    s.passes 0x06C 0 = true ∧ s.slotUser 0 (s.get F.Scr.THR_WINDOW_SLOT 0x06C) = some 1) :=
  ⟨by decide +kernel, by decide +kernel⟩

theorem wit_PositionEdges :
    (let s : State := wready [(F.Hdr.ENABLE, 0x00B, 0, 1), (F.Pos.GLITCH, 0x00B, 0, 7)]
    3 < 4 ∧ s.chOn 3 = true ∧ s.unfiltered 3 = false) ∧
    (let s : State := wready [(F.Pos.GLITCH, 0x00B, 0, 0), (F.Hdr.ENABLE, 0x00B, 0, 1), (F.Pos.MODE, 0x00B, 0, 0)]
    s.chOn 3 = true ∧ s.unfiltered 3 = true ∧ bitAt 1 0 = true ∧ s.chMode 3 0 = true ∧ quadTurn (s.posOf 3).hub.ab (low 2 2) ≠
      2 ∧ quadTurn (s.posOf 3).hub.ab (low 2 3) = 2) ∧
    (let s : State := wready [(F.Hdr.ENABLE, 0x008, 0, 1), (F.Pos.MODE, 0x008, 0, 1), (F.Pos.GLITCH, 0x008, 0, 0)]
    s.chOn 0 = true ∧ s.unfiltered 0 = true ∧ bitAt 7 0 = true ∧ s.chMode 0 1 = true ∧ (switchPlace (low 3 6)).isSome = true ∧
      (switchPlace (low 3 7)).isSome = false ∧ switchTurn 1 (low 3 2) = 2 ∧ switchTurn 1 (low 3 4) = 4) ∧
    (let s : State := wready [(F.Pos.GLITCH, 0x00B, 0, 0), (F.Pos.INDEX_POLICY, 0x00B, 0, 1), (F.Pos.INDEX_GATE, 0x00B, 0, 0),
      (F.Pos.Z_POL, 0x00B, 0, 0), (F.Hdr.ENABLE, 0x00B, 0, 1), (F.Pos.MODE, 0x00B, 0, 0)]
    s.unfiltered 3 = true ∧ s.chMode 3 0 = true ∧ true ≠ (s.posOf 3).hub.z ∧ true ≠ s.on F.Pos.Z_POL (pgPos 3) ∧ s.get
      F.Pos.INDEX_POLICY (pgPos 3) ≠ 2 ∧ indexGate (s.get F.Pos.INDEX_GATE (pgPos 3)) (s.posOf 3).hub.ab = true ∧ (s.posOf
      3).hub.ref = none) ∧
    (let s : State := { wready [(F.Hdr.ENABLE, 0x00B, 0, 1), (F.Pos.MODE, 0x00B, 0, 0)] with now := 1000 }
    s.chOn 3 = true ∧ s.onTick = true) :=
  ⟨by decide +kernel, by decide +kernel, by decide +kernel, by decide +kernel, by decide +kernel⟩

theorem wit_SsiPresetAndCapture :
    (let s : State := { wready [(F.Hdr.ENABLE, 0x00B, 0, 1), (F.Pos.MODE, 0x00B, 0, 2), (F.Pos.BITS_M1, 0x00B, 0, 31)]
      with pos := [(3, { lastStart := some 0, gapEnd := 500 })], now := 1000000000 }
    3 < 4 ∧ s.chOn 3 = true ∧ s.chMode 3 2 = true ∧ (s.posOf 3).frame = none ∧ 0 + s.get F.Pos.PERIOD (pgPos 3) * 1000 ≤ s.now
      ∧ (s.posOf 3).gapEnd ≤ s.now) ∧
    (let s : State := { wready [(F.Hdr.ENABLE, 0x00B, 0, 1), (F.Pos.MODE, 0x00B, 0, 2), (F.Pos.BITS_M1, 0x00B, 0, 31)]
      with pos := [(3, { frame := some 0 })], now := 1000000000 }
    (s.posOf 3).frame = some 0 ∧ s.ssiOver 3 0 = true ∧ bitAt 7 0 = true ∧ s.ssiReason 3 (s.posOf 3).hub 0 (low (s.get
      F.Pos.BITS_M1 (pgPos 3) + 1) 0) (low 1 0) true true = 0 ∧ s.ssiReason 3 (s.posOf 3).hub 0 (low (s.get F.Pos.BITS_M1
      (pgPos 3) + 1) 0) (low 1 0) false true = 1) ∧
    (let s : State := wready []
    s.passes (pgPos 3) 255 = true ∧ s.stopped (pgPos 3) = true ∧ (s.posOf 3).misAt ≠ some s.now ∧ s.silent = false) ∧
    (let s : State := wready [(F.Hdr.ENABLE, 0x008, 0, 1)]
    s.passes (pgPos 0) 0 = true ∧ s.stopped (pgPos 0) = false) :=
  ⟨by decide +kernel, by decide +kernel, by decide +kernel, by decide +kernel⟩

theorem wit_DividersAndCompare :
    (let s : State := wready [(F.Hdr.ENABLE, pgCmp, 0, 1), (F.Cmp.CMP_TARGET_LO, pgCmp, 31, 1)]
    s.passes pgDiv 255 = true ∧ s.passes pgCmp 255 = true ∧ s.on F.Hdr.ENABLE pgCmp = true ∧ s.cmpArmed 31 = false ∧ 0 <
      distance false (s.cmpTarget 31) (s.cmpPos 31)) ∧
    (let s : State := wready [(F.Hdr.ENABLE, pgCmp, 0, 1)]
    s.cmpArmed 0 = false ∧ distance false (s.cmpTarget 0) (s.cmpPos 0) ≤ 0) ∧
    (let s : State := wready [(F.Hdr.ENABLE, pgCmp, 0, 1), (F.Cmp.CMP_ARMED, pgCmp, 0, 2 ^ 31)]
    s.passes pgCmp 255 = true ∧ s.cmpArmed 31 = true ∧ s.cmpDue 31 = true ∧ s.onI F.Cmp.SYNC_EN pgCmp 31 = false ∧ s.getI
      F.Cmp.CMP_PERIOD pgCmp 31 = 0) ∧
    (let s : State := wready [(F.Cmp.CMP_ARMED, pgCmp, 0, 2 ^ 32 - 1)]
    s.passes pgCmp 0 = true ∧ ∀ u < 32, s.cmpDue u = false) :=
  ⟨by decide +kernel, by decide +kernel, by decide +kernel, by decide +kernel⟩

theorem wit_PortFiring :
    (let s : State := { wready [(F.Mode.MODE, pgMode, 0, 3), (F.Port.RUN_STATUS_STATE, 0x03F, 0, 2), (F.Port.LANE_AHEAD,
      0x03F, 0, 4)]
      with port := [(47, { src := 1, slots := List.replicate 4 { folio := 0, line := 0, seq := 0, sent := true, done := true } })] }
    47 < 48 ∧ s.printMode = true ∧ s.runState 47 = 2 ∧ ((s.portOf 47).slots.take (s.pget F.Port.LANE_AHEAD 47)).length =
      s.pget F.Port.LANE_AHEAD 47 ∧ ((s.portOf 47).slots.take (s.pget F.Port.LANE_AHEAD 47)).all (·.done) = true ∧ (s.portOf
      47).src ≠ 0) ∧
    (let s : State := { wready [(F.Mode.MODE, pgMode, 0, 3), (F.Port.RUN_STATUS_STATE, 0x03F, 0, 4)]
      with now := 1, port := [(47, { slots := [{ folio := 0, line := 0, seq := 0 }], due := [16] })] }
    s.printMode = true ∧ s.timing 47 = true ∧ 16 / 16 ≤ s.now ∧ s.overrun 47 = none ∧ (s.portOf 47).lastF = none ∧ (s.portOf
      47).due = [16]) ∧
    (let s : State := { wready [(F.Mode.MODE, pgMode, 0, 4), (F.Port.RUN_STATUS_STATE, 0x010, 0, 5), (F.Port.MIN_PERIOD,
      0x010, 0, 65535)]
      with now := 1, port := [(0, { slots := List.replicate 9 { folio := 0, line := 0, seq := 0 }, due := List.replicate 9 16, lastF := some 0 })] }
    s.printMode = true ∧ s.timing 0 = true ∧ (s.overrun 0).isSome = true) ∧
    (let s : State := { wready [(F.Mode.MODE, pgMode, 0, 4), (F.Port.RUN_STATUS_STATE, 0x010, 0, 5), (F.Port.MIN_PERIOD,
      0x010, 0, 65535)]
      with now := 65535, port := [(0, { slots := List.replicate 9 { folio := 0, line := 0, seq := 0 }, due := List.replicate 9 (16 * 65535), lastF := some 0 })] }
    s.overrun 0 = none) ∧
    (let s : State := { wready []
      with port := [(0, { slots := [{ folio := 5, line := 2 ^ 24 - 1, seq := 0, data := some [] }], runs := [{ n := 5, start := none, gain := none, dw := 0, flight := 0, phases := [], replay := true }] })] }
    ((s.portOf 0).slots.find? (fun q => q.line == 2 ^ 24 - 1 && !q.sent && q.data.isSome && s.replays 0 q.folio)).isSome =
      true) ∧
    (let s : State := { wready [(F.Mode.MODE, pgMode, 0, 2), (F.Hdr.ENABLE, 0x03F, 0, 1), (F.Port.TICKLE_EN, 0x03F, 0, 1),
      (F.Port.RUN_STATUS_STATE, 0x03F, 0, 1)] with now := 1000000000 }
    s.tickles 47 = true ∧ s.runState 47 = 1 ∧ (s.portOf 47).leaving = false ∧ s.throttled 47 = false ∧ (s.laneOf
      47).selects.contains true = false ∧ (s.laneOf 47).cur = none ∧ (s.portOf 47).tickled + 16 * max (s.pget
      F.Port.TICKLE_PERIOD 47) (s.pget F.Port.MIN_PERIOD 47) ≤ 16 * s.now) :=
  ⟨by decide +kernel, by decide +kernel, by decide +kernel, by decide +kernel, by decide +kernel, by decide +kernel⟩

theorem wit_LaneMessages :
    (let s : State := { wready [(F.Lane.TX_EN, 0x05B, 3, 1), (F.Clu.PLL_LOCKED, 0x04B, 0, 1), (F.Hdr.ENABLE, 0x05B, 0, 1)]
      with lane := [(47, { selects := [true] })] }
    s.transmits 47 = true ∧ (s.laneOf 47).cur = none ∧ (firstSelect s 47 (s.laneOf 47).selects).isSome = true) ∧
    (let s : State := { wready [(F.Lane.TX_EN, 0x05B, 3, 1), (F.Clu.PLL_LOCKED, 0x04B, 0, 1), (F.Hdr.ENABLE, 0x05B, 0, 1)]
      with lane := [(47, { lines := [{ type := 1, flags := 0, body := [] }], bcfg := some { type := 4, flags := 0, body := [] }, loads := [{ type := 2, flags := 1, body := [] }] })] }
    s.transmits 47 = true ∧ (s.laneOf 47).cur = none ∧ firstSelect s 47 (s.laneOf 47).selects = none ∧ (s.laneOf 47).lines ≠
      [] ∧ (s.laneOf 47).bcfg ≠ none ∧ (s.laneOf 47).loads ≠ []) ∧
    (let s : State := { wready [(F.Lane.TX_EN, 0x05B, 3, 1), (F.Clu.PLL_LOCKED, 0x04B, 0, 1), (F.Hdr.ENABLE, 0x05B, 0, 1)]
      with lane := [(0, { cur := some { type := 2, flags := 1, body := [] } }), (1, { cur := some { type := 1, flags := 0, body := [] } }), (2, { cur := some { type := 4, flags := 0, body := [] } })] }
    ((s.laneOf 0).cur.map (·.type)) = some 2 ∧ ((s.laneOf 1).cur.map (·.type)) = some 1 ∧ ((s.laneOf 2).cur.map (·.type)) =
      some 4) ∧
    (let s : State := wready []
    s.passes (pgLane (47 / 4)) 255 = true ∧ ((s.laneSet F.Lane.LEN 47 (low 13 4096)).laneSet F.Lane.TABLE 47 (low 4
      15)).downloadReason 47 (low 4 15) (low 13 4096) = 0 ∧ ((s.laneSet F.Lane.LEN 47 (low 13 4097)).laneSet F.Lane.TABLE 47
      (low 4 15)).downloadReason 47 (low 4 15) (low 13 4097) = 2 ∧ s.laneOn F.Lane.BCFG_PENDING 47 = false) ∧
    (let s : State := wready [(F.Lane.BCFG_PENDING, 0x050, 0, 1)]
    s.laneOn F.Lane.BCFG_PENDING 0 = true ∧ (firstPoison (some 1) (s.sysPoison 0x10000000 2)).filter (fun k => decide (k < 2))
      = some 1 ∧ (firstPoison none (s.sysPoison 0x10000000 2)).filter (fun k => decide (k < 2)) = none) ∧
    (let s : State := { wready [(F.Lane.WAVE_DL_STATE, 0x05B, 3, 1)]
      with now := 1000000, lane := [(47, { dlSent := some 0, dlTable := 15 })] }
    (s.laneOf 47).dlSent = some 0 ∧ s.laneGet F.Lane.WAVE_DL_STATE 47 = 1 ∧ 0 + 1000000 ≤ s.now ∧ (s.laneOf 47).dlTable < 16) :=
  ⟨by decide +kernel, by decide +kernel, by decide +kernel, by decide +kernel, by decide +kernel, by decide +kernel⟩

theorem wit_LaneReturns :
    (let s : State := wready [(F.Clu.PLL_LOCKED, 0x04B, 0, 1)]
    11 < 12 ∧ s.get F.Mode.MODE pgMode ≠ 0 ∧ s.mode.porst = false ∧ s.on F.Clu.PLL_LOCKED (pgClu 11) = true) ∧
    (let s : State := { wready [(F.Lane.RX_EN, 0x05B, 3, 1), (F.Lane.LANE_STATUS_RX_LOCKED, 0x05B, 3, 1),
      (F.Lane.WAVE_DL_STATE, 0x05B, 3, 1)] with lane := [(47, { dlSent := some 0, dlTable := 15, rx := { miss := 2 } })] }
    47 < 48 ∧ s.rxOn 47 = true ∧ s.rxLocked 47 = true ∧ s.looped 47 = false ∧ (List.replicate 16 (255 : Byte)).length = 16 ∧
      (List.replicate 8 (255 : Byte)).length = 8 ∧ (s.laneOf 47).dlSent.isSome = true ∧ s.laneGet F.Lane.WAVE_DL_STATE 47 = 1
      ∧ (⟨0x41, 0, List.replicate 16 255, 0, 0⟩ : Msg).le 3 1 / 16 = (s.laneOf 47).dlTable ∧ (s.laneOf 47).dlTable < 16 ∧
      (⟨0x41, 0, List.replicate 4 255 ++ List.replicate 12 0, 0, 0⟩ : Msg).le 4 4 = s.laneGet F.Lane.WAVE_DL_CRC 47 ∧ (⟨0x41,
      0, List.replicate 16 255, 0, 0⟩ : Msg).le 4 4 ≠ s.laneGet F.Lane.WAVE_DL_CRC 47 ∧ (s.laneOf 47).rx.miss < 3) ∧
    (let s : State := { wready [(F.Lane.LANE_STATUS_BRIDGE_ALIVE, 0x05B, 3, 1)] with now := 10000000 }
    s.laneOn F.Lane.LANE_STATUS_BRIDGE_ALIVE 47 = true ∧ ((s.laneOf 47).lastStatus.getD 0) + 1000000 ≤ s.now ∧ s.ready (pgLane
      (47 / 4)) = true ∧ s.laneOn F.Lane.TEMP_STALE 47 = false ∧ ((s.laneOf 47).lastTemp.getD 0) + 10000000 ≤ s.now) ∧
    (let s : State := wready [(F.Lane.NEAR_LOOP, 0x05B, 3, 1)]
    s.looped 47 = true) ∧
    (let s : State := { wready [(F.Lane.RX_EN, 0x05B, 3, 1), (F.Lane.RX_EN, 0x05B, 2, 1), (F.Lane.LANE_STATUS_RX_LOCKED,
      0x05B, 2, 1)]
      with lane := [(47, { rx := { seq := some 2047, good := 3 } }), (46, { rx := { miss := 3, seq := some 5 } })] }
    s.looped 47 = false ∧ readMarker [] = none ∧ readMarker (marker 2047) = some 2047 ∧ s.rxOn 47 = true ∧ (fun (o : RxOut) =>
      o.err = none ∧ o.payload = none ∧ o.lockedNow = false ∧ o.lostNow = false) ((s.laneOf 47).rx.block (s.rxLocked 47) 5
      2304 []) ∧ (let o := (s.laneOf 46).rx.block (s.rxLocked 46) 6 0 []; o.err = some 1) ∧ 3 ≤ (s.laneOf 46).rx.miss) ∧
    (let s : State := { wready [(F.Lane.RX_EN, 0x05B, 3, 1), (F.Lane.RX_EN, 0x05B, 2, 1), (F.Lane.LANE_STATUS_RX_LOCKED,
      0x05B, 2, 1)]
      with lane := [(47, { rx := { seq := some 2047, good := 3 } }), (46, { rx := { miss := 3, seq := some 5 } })] }
    (s.laneOf 47).rx = { seq := some 2047, good := 3 } ∧ s.rxLocked 47 = false ∧ (s.laneOf 46).rx =
      { seq := some 5, miss := 3 } ∧ s.rxLocked 46 = true ∧ s.rxOn 47 = true ∧ s.rxOn 46 = true) ∧
    (let o := ({ seq := some 2047, good := 3 } : RxX).block false 0 0 ((encodeBlock 0 witPay).drop 64)
    readMarker ((encodeBlock 0 witPay).take 64) = some 0 ∧ o.payload = some witPay ∧ o.err = none ∧ o.lostNow = false ∧
      o.lockedNow = true ∧
    (witPay.getD 3 0).toNat % 64 = 47 ∧ (o.rx.payload headType headLen witPay).2 = {}) ∧
    (let o := ({ seq := some 5, miss := 3 } : RxX).block true 6 0 witBad
    o.err = some 0 ∧ o.payload = none ∧ o.lockedNow = false ∧ o.lostNow = false) ∧
    (let s : State := wready [(F.Lane.TEST, 0x05B, 3, 1), (F.Lane.RX_EN, 0x05B, 3, 1)]
    s.laneOn F.Lane.TEST 47 = true ∧ s.laneOn F.Lane.RX_EN 47 = true ∧ s.ready (pgLane (47 / 4)) = true ∧ s.looped 47 = false) :=
  ⟨by decide +kernel, by decide +kernel, by decide +kernel, by decide +kernel, by decide +kernel, by decide +kernel, wit_good
      witPay wit_pay (by rw [witPay]; rfl) wit_msgs, wit_wrong witBad wit_bad, by decide +kernel⟩

theorem wit_CameraPackets :
    (let s : State := wready [(F.Hdr.ENABLE, 0x071, 0, 1)]
    1 < 2 ∧ s.linkOn 1 = true ∧ ((streamsOf 1).any s.slotOn) = false ∧ 0x18 ≤ low 6 255 ∧ ∀ st < 9, s.slotOfVc 1 (low 4 15) ≠
      some st) ∧
    (let s : State := { wready [(F.Hdr.ENABLE, 0x071, 0, 1), (F.Cam.SLOT_CFG_EN, 0x071, 3, 1), (F.Cam.VC, 0x071, 3, 15),
      (F.Cam.DT, 0x071, 3, 2), (F.Cam.FRAME_MODE, 0x071, 3, 0), (F.Cam.LAYOUT, 0x071, 3, 1), (F.Cam.LSLE, 0x071, 3, 1)]
      with now := 200000000 }
    s.linkOn 1 = true ∧ s.slotOfVc 1 (low 4 15) = some 7 ∧ low 6 0x2D = 0x2B + s.slotGet 7 F.Cam.DT ∧ s.slotGet 7
      F.Cam.FRAME_MODE = 0 ∧ (s.slotX 7).line = none ∧ (s.slotX 7).frame = none ∧ s.slotGet 7 F.Cam.LAYOUT = 1 ∧ s.slotGet 7
      F.Cam.LSLE = 1 ∧ (streamsOf 1).any s.slotOn = true ∧ s.on F.Cam.SILENT (pgCam 1) = false ∧ (s.linkX 1).lastLong +
      200000000 ≤ s.now) :=
  ⟨by decide +kernel, by decide +kernel⟩

theorem wit_CameraSlotsAndControl :
    (let s : State := wready [(F.Hdr.ENABLE, 0x071, 0, 1), (F.Cam.SLOT_CFG_EN, 0x071, 3, 1), (F.Cam.VC, 0x071, 3, 15),
      (F.Cam.DT, 0x071, 3, 2)]
    streamAt 1 3 = some 7 ∧ s.passes (pgCam 1) 255 = true ∧ s.slotOn 7 = true) ∧
    (let s : State := wready [(F.Cam.PIXELS, 0x072, 0, 8), (F.Cam.PIXELS, 0x070, 0, 3), (F.Cam.DT, 0x070, 0, 1)]
    streamAt 2 0 = some 8 ∧ s.passes (pgCam 2) 0 = true ∧ s.slotOn 8 = false ∧ s.streamReason 8 = 0 ∧ streamAt 0 0 = some 0 ∧
      s.slotOn 0 = false ∧ s.streamReason 0 ≠ 0) ∧
    (let s : State := wready [(F.Hdr.ENABLE, 0x072, 0, 1), (F.Cam.SLOT_CFG_EN, 0x072, 0, 1)]
    s.streamOn 8 = true ∧ true ≠ (s.parCfg F.Par.VSYNC_POL == 1) ∧ s.slotGet 8 F.Cam.FRAME_MODE = 0 ∧ s.parCfg F.Par.SYNC_MODE
      = 0 ∧ true ≠ (s.parCfg F.Par.DE_POL == 1) ∧ s.parCfg F.Par.LAYOUT = 0) ∧
    (let s : State := wready [(F.Cam.CCI_STATUS_BUSY, 0x072, 0, 1)]
    2 < 3 ∧ s.passes (pgCam 2) 255 = true ∧ s.on F.Cam.CCI_STATUS_BUSY (pgCam 2) = true ∧ s.on F.Cam.CCI_STATUS_BUSY (pgCam 0)
      = false ∧ s.passes (pgCam 0) 255 = true) ∧
    (let s : State := { wready []
      with link := [(2, { run := 2, direct := some (true, 127, 65535, 255) }), (0, { run := 1, exps := [{ id := 0, f := 0, left := [(0, 0, 0, 0)] }] })] }
    (s.linkX 2).run = 2 ∧ (s.linkX 2).direct = some (true, (127, 65535, 255)) ∧ (s.linkX 0).run = 1 ∧ (s.linkX 0).exps =
      { id := 0, f := 0, left := [(0, 0, 0, 0)] } :: []) ∧
    (let s : State := { wready [(F.Hdr.ENABLE, pgPipe, 0, 1), (F.Pipe.MAP_EN, pgPipe, 8, 1)]
      with cam := [(8, { ready := [{}] })] }
    8 < 9 ∧ s.on F.Hdr.ENABLE pgPipe = true ∧ (s.slotX 0).ready = [] ∧ (s.slotX 8).ready ≠ [] ∧ (PipeIn.mk (s.pipeAs 0) 8 none
      none).cfg F.Pipe.MAP_EN = 1) :=
  ⟨by decide +kernel, by decide +kernel, by decide +kernel, by decide +kernel, by decide +kernel, by decide +kernel⟩

theorem wit_DensityTracker :
    (let s : State := { wready []
      with pipe := { mapped := [{ stream := 8, n := 0, exp := 0, unsure := false, flags := 8, tag := 0, xs := [] }] } }
    s.pipe.mapped = { stream := 8, n := 0, exp := 0, unsure := false, flags := 8, tag := 0, xs := [] } :: [] ∧ s.on
      F.Hdr.ENABLE pgTrk = false) ∧
    (let s : State := { wready [(F.Hdr.ENABLE, pgTrk, 0, 1), (F.Hdr.QUIESCE, pgTrk, 0, 1)]
      with pipe := { mapped := [{ stream := 8, n := 0, exp := 0, unsure := false, flags := 8, tag := 0, xs := [] }] } }
    s.on F.Hdr.ENABLE pgTrk = true ∧ s.trackerWaits = true) ∧
    (let s : State := { wready [(F.Hdr.ENABLE, pgTrk, 0, 1)]
      with pipe := { mapped := [{ stream := 8, n := 0, exp := 0, unsure := false, flags := 8, tag := 0, xs := [] }] } }
    s.on F.Hdr.ENABLE pgTrk = true ∧ s.trackerWaits = false ∧ bitAt 8 3 = true ∧ (s.updPipe (fun p => { p
      with mapped := [] })).lineReason { stream := 8, n := 0, exp := 0, unsure := false, flags := 8, tag := 0, xs := [] }
      (s.camRow 0) = 1) ∧
    (let s : State := { wready [(F.Hdr.ENABLE, pgTrk, 0, 1), (F.Dtrk.WINDOW_ROWS, pgTrk, 0, 65535)]
      with trk := { start := some 0 } }
    s.trk.start = some 0 ∧ sext 32 (65534 + 2 ^ 32 - 0) < (s.get F.Dtrk.WINDOW_ROWS pgTrk : Int)) ∧
    (let s : State := { wready [(F.Hdr.ENABLE, pgTrk, 0, 1), (F.Dtrk.TRK_STATE_STATE, pgTrk, 0, 2), (F.Pair.ROLE, pgPair, 0,
      1)] with trk := { solveAt := some 0 } }
    s.trk.solveAt = some 0 ∧ s.on F.Hdr.ENABLE pgTrk = true ∧ s.trkState = 2 ∧ s.role ≠ 0 ∧ s.role ≠ 4) ∧
    (let s : State := { wready [(F.Cpu.RUN, 0x0B0, 0, 255), (F.Lock.BIND_EN_3, pgLocks, 27, 1), (F.Lock.BIND_IX_3, pgLocks,
      27, 31), (F.Lock.HELD, pgLocks, 31, 1), (F.Lock.OWNER, pgLocks, 31, 7)] with trk := { pend := [47] } }
    3 < 4 ∧ (s.trk.pend.filter (fun p => regionOf p == 3)) ≠ [] ∧ s.ready (pgScr 3) = true ∧ s.tenderRuns 3 = true ∧ s.binding
      (pgScr 3) = some 31 ∧ s.outbids 31 (tenderOwner 3) = false ∧ s.onI F.Lock.HELD pgLocks 31 = true ∧ s.holds 31
      (tenderOwner 3) = false) ∧
    (let s : State := { wready [(F.Cpu.RUN, 0x0B0, 0, 255), (F.Lock.BIND_EN_3, pgLocks, 27, 1), (F.Lock.BIND_IX_3, pgLocks,
      27, 31), (F.Lock.HELD, pgLocks, 31, 1), (F.Lock.OWNER, pgLocks, 31, 128)] with trk := { pend := [47] } }
    s.outbids 31 (tenderOwner 3) = false ∧ s.binding (pgScr 3) = some 31 ∧ s.holds 31 (tenderOwner 3) = true ∧ s.cstate (pgScr
      3) = 0 ∧ (∀ g < 8, s.groupNames g (pgScr 3) = false)) ∧
    (let s : State := { wready [] with trk := { pend := [47], pendAt := 0 }, now := 100000000 }
    s.binding (pgScr 3) = none ∧ s.trk.pendAt + 100000000 ≤ s.now ∧ s.passes pgTrk 255 = true) ∧
    (let s : State := { wready [(F.Hdr.ENABLE, pgTrk, 0, 1), (F.Dtrk.MAX_INTERVAL, pgTrk, 0, 65535)]
      with now := 65535000000000 }
    47 < 48 ∧ s.on F.Hdr.ENABLE pgTrk = true ∧ max ((s.trkPort 47).accepted.getD 0) s.trk.enabledAt + s.get
      F.Dtrk.MAX_INTERVAL pgTrk * 1000000000 ≤ s.now) :=
  ⟨by decide +kernel, by decide +kernel, by decide +kernel, by decide +kernel, by decide +kernel, by decide +kernel, by
      decide +kernel, by decide +kernel, by decide +kernel⟩

theorem wit_TimingCalibration :
    (let s : State := wready [(F.Tdc.TDC_STATUS, pgTdc, 0, 4)]
    s.passes pgTdc 255 = true ∧ bitAt 6 2 = true ∧ s.tdcPhase 2 = 0 ∧ bitAt 6 0 = false ∧ s.tdcPhase 1 ≠ 0) ∧
    (let s : State := { wready [(F.Tdc.TDC_STATUS, pgTdc, 0, 16), (F.Tdc.RUN_LIMIT, pgTdc, 0, 255)] with now := 255000000000 }
    s.tdcPhase 2 = 1 ∧ (s.tdcOf 2).began + s.get F.Tdc.RUN_LIMIT pgTdc * 1000000000 ≤ s.now) ∧
    (let s : State := wready [(F.Tdc.TDC_STATUS, pgTdc, 0, 32)]
    s.tdcPhase 2 = 2 ∧ tapsMeasured (List.replicate 24 (List.replicate 64 (List.replicate 64 (some (2, 3))))) = true ∧
      (s.tdcOf 2).failed = false) ∧
    (let s : State := wready []
    s.placing 0 = false ∧ s.placing 2 = false) :=
  ⟨by decide +kernel, by decide +kernel, by decide +kernel, by decide +kernel⟩

theorem wit_CalibrationStore :
    (let s : State := wready [(F.Cal.CAL_STATUS_STATE, pgCal, 0, 1)]
    s.passes pgCal 255 = true ∧ (s.set F.Cal.CAT pgCal (low 6 63)).calBusy = true) ∧
    (let s : State := wready [(F.Cal.CAL_STATUS_STATE, pgCal, 0, 3)]
    s.passes pgCal 0 = true ∧ s.calBusy = false ∧ catsOf (low 6 63) ≠ [] ∧ s.journalOpen = true ∧ s.jrn.closing = none ∧
      s.cal.saving = 0) ∧
    (let s : State := wready [(F.Hdr.READY, pgSto, 0, 0)]
    s.calBusy = false ∧ s.journalOpen = false ∧ catsOf (low 6 32) ≠ []) ∧
    (let s : State := { wready [(F.Cal.CAL_STATUS_STATE, pgCal, 0, 2)] with cal := { applying := 63, round := 1 } }
    s.calState = 2 ∧ (forAll s.cal.regions s applyTender).calTaken = true) ∧
    (let s : State := { wready [(F.Cal.CAL_STATUS_STATE, pgCal, 0, 2)] with cal := { applying := 4, round := 0 } }
    s.calState = 2 ∧ (forAll s.cal.regions s applyTender).calTaken = false) :=
  ⟨by decide +kernel, by decide +kernel, by decide +kernel, by decide +kernel, by decide +kernel⟩

theorem wit_CheckCodeOfWords :
    (popcount 0x7F = 7 ∧ popcount 0x70 = 3 ∧ 0x70 ∉ hColumns ∧ 0x62 = hColumns.getD 31 0 ∧ popcount 0x62 ≠ 1 ∧ 38 < 39) :=
  by decide +kernel

theorem wit_RequestBeyondCapacity :
    (let s : State := wready [(F.Mem.DENSITY, pgMem, 0, 0), (F.Mem.RANKS, pgMem, 0, 0)]
    15 < 16 ∧ s.memCapacity ≤ 2 ^ 34) :=
  by decide +kernel

theorem wit_MemoryQueues :
    (let s : State := { wready []
      with memx := [(0, { writes := [{ seq := 0, burst := 0, cls := 15, wr := true, mask := 2 ^ 64 - 1, data := List.replicate 64 255 }], seq := 2 })] }
    0 < 4 ∧ 3 < 4 ∧ 63 < s.memCapacity ∧ (s.memSplit 63).1 = 0 ∧ (s.memSplit 960).1 = 3 ∧ (s.memOf 0).wait = [] ∧ (s.memOf
      0).reads.length < 64 ∧ s.memc.chg = none ∧ s.ready (pgChan 0) = true ∧ (s.memOf 0).writes.length < 32 ∧ (s.memOf
      0).writes.reverse.find? (fun w => w.burst == 0) = some
      { seq := 0, burst := 0, cls := 15, wr := true, mask := 2 ^ 64 - 1, data := List.replicate 64 255 } ∧ (∀ r ∈ (s.memOf
      0).reads, r.burst = 0 → r.seq ≤ 0) ∧ (∀ w ∈ (s.memOf 3).writes, w.burst ≠ 960)) ∧
    (let s : State := { wready []
      with memx := [(0, { writes := [{ seq := 0, burst := 0, cls := 15, wr := true, mask := 2 ^ 64 - 1, data := List.replicate 64 255 }], reads := [{ seq := 1, burst := 0, cls := 15, urgent := true, wr := false }], seq := 2 })] }
    (s.memOf 0).writes.reverse.find? (fun w => w.burst == 0) = some
      { seq := 0, burst := 0, cls := 15, wr := true, mask := 2 ^ 64 - 1, data := List.replicate 64 255 } ∧ (∃ r ∈ (s.memOf
      0).reads, r.burst = 0 ∧ 0 < r.seq)) ∧
    (let s : State := { wready []
      with memx := [(3, { reads := [{ seq := 1, burst := 0, cls := 15, urgent := true, wr := false }], seq := 2 })] }
    s.memBlocked 3 = false ∧ (s.memOf 3).wait = [] ∧ { seq := 1, burst := 0, cls := 15, urgent := true, wr := false } ∈
      (s.memOf 3).reads ∧ s.memEligible (s.memOf 3) { seq := 1, burst := 0, cls := 15, urgent := true, wr := false } = true) ∧
    (let s : State := wready [(F.Chan.POWER, pgChan 3, 0, 2)]
    s.memBlocked 3 = true ∧ (s.memOf 3).flight = []) ∧
    (let s : State := { wready [] with memx := [(3, { ranks := [(0, { refNow := 1 })] })] }
    s.memBlocked 3 = false ∧ (s.memOf 3).wait = [] ∧ (s.memOf 3).flight = [] ∧ (s.memOf 3).reads.any (·.urgent) = false ∧ 0 <
      ((s.memOf 3).rank 0).refNow) ∧
    (let s : State := { wready []
      with memx := [(3, { reads := [{ seq := 1, burst := 0, cls := 15, urgent := true, wr := false }] })] }
    (let u := showPostponed 3 ((s.set F.Chan.REPLAYING (pgChan 3) 0).updMem 3 (fun x => ((s.set F.Chan.REPLAYING (pgChan 3)
      0).memDrain { x with alerts := 0 }).postpone)); (∀ r < 2, ((u.memOf 3).rank r).refNow = 0 ∧ ((u.memOf 3).rank r).zqNow =
      0) ∧ u.memChoose (u.memOf 3) = some { seq := 1, burst := 0, cls := 15, urgent := true, wr := false })) ∧
    (let s : State := { wready []
      with memx := [(3, { writes := [{ seq := 0, burst := 0, cls := 15, wr := true, mask := 2 ^ 64 - 1, data := List.replicate 64 255 }], drain := true })] }
    s.memBlocked 3 = false ∧ (let u := showPostponed 3 ((s.set F.Chan.REPLAYING (pgChan 3) 0).updMem 3 (fun x => ((s.set
      F.Chan.REPLAYING (pgChan 3) 0).memDrain { x
      with alerts := 0, drain := true, writes := List.replicate 32 { seq := 0, burst := 0, cls := 15, wr := true, mask := 2 ^ 64 - 1, data := List.replicate 64 255 } }).postpone));
      u.memChoose (u.memOf 3) = some
      { seq := 0, burst := 0, cls := 15, wr := true, mask := 2 ^ 64 - 1, data := List.replicate 64 255 }) ∧
      ({ seq := 0, burst := 0, cls := 15, wr := true, mask := 2 ^ 64 - 1, data := List.replicate 64 255 } : MemReq).mask = 2 ^
      64 - 1) ∧
    (let s : State := { wready []
      with memx := [(3, { flight := [{ seq := 1, burst := 0, cls := 15, wr := true, got := List.replicate 64 255 }] }), (2, { flight := [{ seq := 1, burst := 0, cls := 15, wr := false, got := List.replicate 64 255 }] })] }
    (s.memOf 3).flight = { seq := 1, burst := 0, cls := 15, wr := true, got := List.replicate 64 255 } :: [] ∧ (s.memOf
      2).flight = { seq := 1, burst := 0, cls := 15, wr := false, got := List.replicate 64 255 } :: [] ∧ s.on F.Hdr.FAULT
      (pgChan 3) = false ∧ ({ seq := 1, burst := 0, cls := 15, wr := true, got := List.replicate 64 255 } : MemReq).gotBad =
      [] ∧ ({ seq := 1, burst := 0, cls := 15, wr := true, got := List.replicate 64 255 } : MemReq).got.length = 64 ∧ (∀ b ∈
      ({ seq := 1, burst := 0, cls := 15, wr := true, got := List.replicate 64 255 } : MemReq).got, b < 256)) :=
  ⟨by decide +kernel, by decide +kernel, by decide +kernel, by decide +kernel, by decide +kernel, by decide +kernel, by
      decide +kernel, by decide +kernel⟩

theorem wit_MemoryUpkeep :
    (let s : State := { wready [(F.Hdr.FAULT, pgChan 2, 0, 1)] with memx := [(3, { alerts := 3 })] }
    3 < 4 ∧ s.on F.Hdr.FAULT (pgChan 2) = true ∧ s.on F.Hdr.FAULT (pgChan 3) = false ∧ (s.memOf 3).alerts = 3 ∧ (s.memOf
      0).alerts ≠ 3) ∧
    (let s : State := { wready [(F.Mem.RANKS, pgMem, 0, 1), (F.Chan.POWER, pgChan 3, 0, 1)]
      with now := 5000, memx := [(3, { ranks := [(1, { refAt := some 0, interval := 5000 }), (0, { refAt := some 1, interval := 5000 })] })] }
    1 < s.memRanks ∧ s.ready (pgChan 3) = true ∧ s.get F.Chan.POWER (pgChan 3) ≠ 2 ∧ ((s.memOf 3).rank 1).refAt = some 0 ∧ 0 +
      ((s.memOf 3).rank 1).interval ≤ s.now ∧ ((s.memOf 3).rank 0).refAt = some 1 ∧ s.now < 1 + ((s.memOf 3).rank 0).interval) ∧
    (let s : State := wready [(F.Mem.ZQ_PERIOD, pgMem, 0, 0)]
    s.get F.Mem.ZQ_PERIOD pgMem = 0 ∧ s.on F.Chan.TEMP_VALID (pgChan 3) = false) ∧
    (let s : State := { wready [(F.Mem.ZQ_PERIOD, pgMem, 0, 65535), (F.Chan.TEMP_VALID, pgChan 3, 0, 1)]
      with now := 65535000000 }
    s.get F.Mem.ZQ_PERIOD pgMem ≠ 0 ∧ s.ready (pgChan 3) = true ∧ s.get F.Chan.POWER (pgChan 3) ≠ 2 ∧ (s.memOf 3).zqAt + s.get
      F.Mem.ZQ_PERIOD pgMem * 1000000 ≤ s.now ∧ s.on F.Chan.TEMP_VALID (pgChan 3) = true ∧ (s.memOf 3).tempAt + 12000000 ≤
      s.now) ∧
    (let s : State := { wready [(F.Mem.PD_EN, pgMem, 0, 1), (F.Mem.SR_EN, pgMem, 0, 1), (F.Port.LAT_TOL, pgPort 0, 0, 65535),
      (F.Port.LAT_TOL, pgPort 1, 0, 65535), (F.Port.LAT_TOL, pgPort 2, 0, 65535), (F.Port.LAT_TOL, pgPort 3, 0, 65535),
      (F.Port.LAT_TOL, pgPort 4, 0, 65535), (F.Port.LAT_TOL, pgPort 5, 0, 65535), (F.Port.LAT_TOL, pgPort 6, 0, 65535),
      (F.Port.LAT_TOL, pgPort 7, 0, 65535), (F.Port.LAT_TOL, pgPort 8, 0, 65535), (F.Port.LAT_TOL, pgPort 9, 0, 65535),
      (F.Port.LAT_TOL, pgPort 10, 0, 65535), (F.Port.LAT_TOL, pgPort 11, 0, 65535), (F.Port.LAT_TOL, pgPort 12, 0, 65535),
      (F.Port.LAT_TOL, pgPort 13, 0, 65535), (F.Port.LAT_TOL, pgPort 14, 0, 65535), (F.Port.LAT_TOL, pgPort 15, 0, 65535),
      (F.Port.LAT_TOL, pgPort 16, 0, 65535), (F.Port.LAT_TOL, pgPort 17, 0, 65535), (F.Port.LAT_TOL, pgPort 18, 0, 65535),
      (F.Port.LAT_TOL, pgPort 19, 0, 65535), (F.Port.LAT_TOL, pgPort 20, 0, 65535), (F.Port.LAT_TOL, pgPort 21, 0, 65535),
      (F.Port.LAT_TOL, pgPort 22, 0, 65535), (F.Port.LAT_TOL, pgPort 23, 0, 65535), (F.Port.LAT_TOL, pgPort 24, 0, 65535),
      (F.Port.LAT_TOL, pgPort 25, 0, 65535), (F.Port.LAT_TOL, pgPort 26, 0, 65535), (F.Port.LAT_TOL, pgPort 27, 0, 65535),
      (F.Port.LAT_TOL, pgPort 28, 0, 65535), (F.Port.LAT_TOL, pgPort 29, 0, 65535), (F.Port.LAT_TOL, pgPort 30, 0, 65535),
      (F.Port.LAT_TOL, pgPort 31, 0, 65535), (F.Port.LAT_TOL, pgPort 32, 0, 65535), (F.Port.LAT_TOL, pgPort 33, 0, 65535),
      (F.Port.LAT_TOL, pgPort 34, 0, 65535), (F.Port.LAT_TOL, pgPort 35, 0, 65535), (F.Port.LAT_TOL, pgPort 36, 0, 65535),
      (F.Port.LAT_TOL, pgPort 37, 0, 65535), (F.Port.LAT_TOL, pgPort 38, 0, 65535), (F.Port.LAT_TOL, pgPort 39, 0, 65535),
      (F.Port.LAT_TOL, pgPort 40, 0, 65535), (F.Port.LAT_TOL, pgPort 41, 0, 65535), (F.Port.LAT_TOL, pgPort 42, 0, 65535),
      (F.Port.LAT_TOL, pgPort 43, 0, 65535), (F.Port.LAT_TOL, pgPort 44, 0, 65535), (F.Port.LAT_TOL, pgPort 45, 0, 65535),
      (F.Port.LAT_TOL, pgPort 46, 0, 65535), (F.Port.LAT_TOL, pgPort 47, 0, 65535)] with now := 65535000000 }
    s.memBlocked 3 = false ∧ (s.memOf 3).idle = true ∧ s.get F.Chan.POWER (pgChan 3) = 0 ∧ s.on F.Mem.PD_EN pgMem = true ∧ 1 ≤
      s.minLatTol.1 ∧ s.get F.Mem.PD_IDLE pgMem * 8 ≤ s.mclkSince (s.memOf 3).idleAt ∧ s.on F.Mem.SR_EN pgMem = true ∧
      s.srTheta < s.minLatTol.1 ∧ (s.memOf 3).idleAt + s.get F.Mem.SR_IDLE pgMem * 1000 ≤ s.now ∧ s.get F.Chan.POWER (pgChan
      3) ≠ 3) ∧
    (let s : State := wready [(F.Mem.PD_EN, pgMem, 0, 0), (F.Chan.POWER, pgChan 2, 0, 3), (F.Port.LAT_TOL, pgPort 0, 0,
      65535), (F.Port.LAT_TOL, pgPort 1, 0, 65535), (F.Port.LAT_TOL, pgPort 2, 0, 65535), (F.Port.LAT_TOL, pgPort 3, 0,
      65535), (F.Port.LAT_TOL, pgPort 4, 0, 65535), (F.Port.LAT_TOL, pgPort 5, 0, 65535), (F.Port.LAT_TOL, pgPort 6, 0,
      65535), (F.Port.LAT_TOL, pgPort 7, 0, 65535), (F.Port.LAT_TOL, pgPort 8, 0, 65535), (F.Port.LAT_TOL, pgPort 9, 0,
      65535), (F.Port.LAT_TOL, pgPort 10, 0, 65535), (F.Port.LAT_TOL, pgPort 11, 0, 65535), (F.Port.LAT_TOL, pgPort 12, 0,
      65535), (F.Port.LAT_TOL, pgPort 13, 0, 65535), (F.Port.LAT_TOL, pgPort 14, 0, 65535), (F.Port.LAT_TOL, pgPort 15, 0,
      65535), (F.Port.LAT_TOL, pgPort 16, 0, 65535), (F.Port.LAT_TOL, pgPort 17, 0, 65535), (F.Port.LAT_TOL, pgPort 18, 0,
      65535), (F.Port.LAT_TOL, pgPort 19, 0, 65535), (F.Port.LAT_TOL, pgPort 20, 0, 65535), (F.Port.LAT_TOL, pgPort 21, 0,
      65535), (F.Port.LAT_TOL, pgPort 22, 0, 65535), (F.Port.LAT_TOL, pgPort 23, 0, 65535), (F.Port.LAT_TOL, pgPort 24, 0,
      65535), (F.Port.LAT_TOL, pgPort 25, 0, 65535), (F.Port.LAT_TOL, pgPort 26, 0, 65535), (F.Port.LAT_TOL, pgPort 27, 0,
      65535), (F.Port.LAT_TOL, pgPort 28, 0, 65535), (F.Port.LAT_TOL, pgPort 29, 0, 65535), (F.Port.LAT_TOL, pgPort 30, 0,
      65535), (F.Port.LAT_TOL, pgPort 31, 0, 65535), (F.Port.LAT_TOL, pgPort 32, 0, 65535), (F.Port.LAT_TOL, pgPort 33, 0,
      65535), (F.Port.LAT_TOL, pgPort 34, 0, 65535), (F.Port.LAT_TOL, pgPort 35, 0, 65535), (F.Port.LAT_TOL, pgPort 36, 0,
      65535), (F.Port.LAT_TOL, pgPort 37, 0, 65535), (F.Port.LAT_TOL, pgPort 38, 0, 65535), (F.Port.LAT_TOL, pgPort 39, 0,
      65535), (F.Port.LAT_TOL, pgPort 40, 0, 65535), (F.Port.LAT_TOL, pgPort 41, 0, 65535), (F.Port.LAT_TOL, pgPort 42, 0,
      65535), (F.Port.LAT_TOL, pgPort 43, 0, 65535), (F.Port.LAT_TOL, pgPort 44, 0, 65535), (F.Port.LAT_TOL, pgPort 45, 0,
      65535), (F.Port.LAT_TOL, pgPort 46, 0, 65535), (F.Port.LAT_TOL, pgPort 47, 0, 65535)]
    s.memBlocked 3 = false ∧ (s.memOf 3).idle = true ∧ s.on F.Mem.PD_EN pgMem = false ∧ s.get F.Chan.POWER (pgChan 2) = 3 ∧
      s.srTheta < s.minLatTol.1) :=
  ⟨by decide +kernel, by decide +kernel, by decide +kernel, by decide +kernel, by decide +kernel, by decide +kernel⟩

theorem wit_MemoryFrequencyAndTraining :
    (let s : State := wready [(F.Port.RUN_STATUS_STATE, pgPort 47, 0, 5)]
    s.passes pgMem 255 = true ∧ (s.set F.Mem.REQ_POINT pgMem 2).pressRunning = true ∧ low 2 3 = 3) ∧
    (let s : State := wready [(F.Port.RUN_STATUS_STATE, pgPort 47, 0, 1)]
    (s.set F.Mem.REQ_POINT pgMem 2).pressRunning = false ∧ low 2 2 ≠ 3 ∧ (s.set F.Mem.REQ_POINT pgMem 2).memc = ⟨none, none⟩ ∧
      (s.set F.Mem.REQ_POINT pgMem 2).memTraining = false ∧ s.pressRunning = false ∧ s.memc = ⟨none, none⟩ ∧ s.memTraining =
      false ∧ (Instr.trainCheck 255, 1) ∈ [(Instr.trainFull 255, 2), (Instr.trainCheck 255, 1)]) ∧
    (let s : State := { wready [] with memx := [(3, { train := 2 }), (2, { train := 1, auto := true }), (1, { train := 1 })] }
    s.memTraining = true ∧ (s.memOf 0).train = 0 ∧ (s.memOf 3).train ≠ 0 ∧ s.memc = ⟨none, none⟩ ∧ (s.memOf 3).mayFail 6 9 =
      true ∧ (s.memOf 3).mayFail 7 9 = false ∧ (s.memOf 2).mayFail 0 9 = true ∧ (s.memOf 2).mayFail 0 10 = false ∧ ((s.memOf
      2).train = 1 ∧ (s.memOf 2).auto = true) ∧ ¬ ((s.memOf 1).train = 1 ∧ (s.memOf 1).auto = true)) ∧
    (let s : State := { wready [] with memc := ⟨none, some 2⟩ }
    s.memc.chg = some 2 ∧ s.memTraining = false) :=
  ⟨by decide +kernel, by decide +kernel, by decide +kernel, by decide +kernel⟩

theorem wit_StacksBus :
    (let s : State := { wready []
      with stack := { reqs := [(14, { sdram := false, addr := 0x1FDFFC0, wr := false, beats := 1, arrived := 0, stamp := 0 }), (15, { sdram := false, addr := 0x1FDFFC0, wr := false, beats := 1, arrived := 0, stamp := 0 })] } }
    tsorted s.stack.reqs = true ∧ s.stackOldest = some 14) ∧
    (let s : State := wready [(F.Stk.WD_MASKED, pgStk, 0, 2 ^ 14)]
    bitAt (s.get F.Stk.WD_MASKED pgStk) 14 = true ∧ s.stackQuiet 15 = false ∧ s.stack.req 15 = none ∧ bitAt (s.get
      F.Stk.WD_MASKED pgStk) 15 = false ∧ (2 ^ 25 - 4096) % 64 = 0 ∧ 64 ≤ 64 ∧ 2 ^ 25 - 4096 + 64 * 64 ≤ 2 ^ 25 ∧ 0 + 64 * 64
      ≤ s.memCapacity ∧ s.stack.owner = none ∧ s.ready pgStk = true) ∧
    (let s : State := wready [(F.Hdr.QUIESCE, 0x092, 0, 1)]
    s.stackQuiet 14 = true) ∧
    (let s : State := { wready []
      with now := 5, stack := { reqs := [(14, { sdram := false, addr := 0x1FDFFC0, wr := false, beats := 1, arrived := 0, stamp := 0 })], owner := some 14, first := 6, len := 1 } }
    s.stack.owner = some 14 ∧ s.stack.req 14 = some
      { sdram := false, addr := 0x1FDFFC0, wr := false, beats := 1, arrived := 0, stamp := 0 } ∧ s.stack.first + s.stack.len ≤
      s.xclk + 1 ∧ ({ sdram := false, addr := 0x1FDFFC0, wr := false, beats := 1, arrived := 0, stamp := 0 } : StackReq).beats
      ≤ 0 + s.stack.len ∧ s.stack.len = 1 ∧ s.sramErr = []) ∧
    (let s : State := { wready []
      with stack := { reqs := [(15, { sdram := false, addr := 0x1F9FFC0, wr := true, beats := 64, data := List.replicate 64 255, arrived := 0, stamp := 0 })], owner := some 15, first := 0, len := 2 } }
    s.stack.req 15 = some
      { sdram := false, addr := 0x1F9FFC0, wr := true, beats := 64, data := List.replicate 64 255, arrived := 0, stamp := 0 }
      ∧ s.xclk + 1 < s.stack.first + s.stack.len) ∧
    (let s : State := { wready []
      with now := 1, stack := { reqs := [(15, { sdram := false, addr := 0x1F9FFC0, wr := true, beats := 1, data := List.replicate 64 255, arrived := 0, stamp := 0 })], owner := some 15, first := 0, len := 1 } }
    s.stack.req 15 = some
      { sdram := false, addr := 0x1F9FFC0, wr := true, beats := 1, data := List.replicate 64 255, arrived := 0, stamp := 0 } ∧
      s.stack.first + s.stack.len ≤ s.xclk + 1 ∧
      ({ sdram := false, addr := 0x1F9FFC0, wr := true, beats := 1, data := List.replicate 64 255, arrived := 0, stamp := 0 }
      : StackReq).addr + 64 ≤ 0x1FA0000 ∧
      ({ sdram := false, addr := 0x1F9FFC0, wr := true, beats := 1, data := List.replicate 64 255, arrived := 0, stamp := 0 }
      : StackReq).addr % 64 = 0) ∧
    (let s : State := { wready [(F.Stk.WD_LIMIT, pgStk, 0, 255)]
      with now := 1000000, stack := { reqs := [(14, { sdram := false, addr := 0x1FDFFC0, wr := false, beats := 1, arrived := 0, stamp := 0 })], owner := some 14, first := 0, len := 1 } }
    0 < s.stack.len ∧ s.stack.first + (0 - 1) + s.get F.Stk.WD_LIMIT pgStk * 1200 ≤ s.xclk ∧ stackPage 14 = some 0x092 ∧
      stackPage 15 = none ∧ s.stack.len ≤ 1 ∧ s.ring.onRing = none) :=
  ⟨by decide +kernel, by decide +kernel, by decide +kernel, by decide +kernel, by decide +kernel, by decide +kernel, by
      decide +kernel⟩

theorem wit_ScrubberAndDieLinks :
    (let s : State := { wready [(F.Sram.SCRUB_EN, pgSram, 0, 1)]
      with now := 1000, scrub := [(2, { word := 2 ^ 22 - 1, last := some 0 }), (0, { last := some 1200 })], sramErr := [(2 * 2 ^ 23 + (2 ^ 22 - 1), 1)] }
    2 < 3 ∧ s.ready pgSram = true ∧ s.on F.Sram.SCRUB_EN pgSram = true ∧ s.modeNow ≠ 0 ∧ 0 + 512 ≤ s.xclk ∧ (tget s.scrub 2
      {}).word + 1 = dieWords 2 ∧ (tget s.scrub 0 {}).last = some 1200 ∧ s.xclk < 1200 + 256 ∧ Nat.xor (s.sramErrAt 2 (2 ^ 22
      - 1)) (low 39 1) = 0 ∧ singleBit (errSyndrome (Nat.xor (s.sramErrAt 2 (2 ^ 22 - 1)) (low 39 0))) = true ∧ errSyndrome
      (Nat.xor (s.sramErrAt 2 (2 ^ 22 - 1)) (low 39 2)) ≠ 0 ∧ singleBit (errSyndrome (Nat.xor (s.sramErrAt 2 (2 ^ 22 - 1))
      (low 39 2))) = false) ∧
    (let s : State := { wready [(F.Stk.LINK_TRAINED, pgStk, 0, 2)]
      with flits := [(3, { next := 2 ^ 32 - 1, replay := some 15 }), (2, { next := 0, replay := some 0 })] }
    1 < 2 ∧ bitAt (s.get F.Stk.LINK_TRAINED pgStk) 1 = true ∧ low 32 (2 ^ 32 - 1) = (tget s.flits (2 * 1 + 1) {}).next ∧ (tget
      s.flits (2 * 1 + 1) {}).replay = some 15 ∧ low 32 (2 ^ 32) = (tget s.flits (2 * 1 + 0) {}).next ∧ (tget s.flits (2 * 1 +
      0) {}).replay = some 0 ∧ bitAt (s.get F.Stk.LINK_TRAINED pgStk) 0 = false ∧ s.modeNow ≠ 0) :=
  ⟨by decide +kernel, by decide +kernel⟩

theorem wit_NetworkPorts :
    (let s : State := wready [(F.Sw.QUEUE_LIMIT, pgSw, 0, 1)]
    queueBytes (s.queue 2 3) + ((List.replicate 1020 0#8).length + 4) ≤ s.get F.Sw.QUEUE_LIMIT pgSw * 1024 ∧
      s.net.queues.foldl (fun a e => a + queueBytes e.2) 0 + ((List.replicate 1020 0#8).length + 4) ≤ 512 * 1024 ∧ ¬
      (queueBytes (s.queue 2 3) + ((List.replicate 1021 0#8).length + 4) ≤ s.get F.Sw.QUEUE_LIMIT pgSw * 1024)) ∧
    (let s : State := wready [(F.Net.LINK_UP, pgNet 1, 0, 1), (F.Sw.VLAN_VALID, pgSw, 63, 1), (F.Sw.VLAN_VID, pgSw, 63, 4095),
      (F.Sw.VLAN_MEMBER, pgSw, 63, 7), (F.Sw.PVID, pgSw, 2, 4095), (F.Sw.PVID, pgSw, 1, 7)]
    s.on F.Net.LINK_UP (pgNet 0) = false ∧ 1 < 2 ∧ s.ready (pgNet 1) = true ∧ s.on F.Net.LINK_UP (pgNet 1) = true ∧
      frameErrors (parseFrame []) 4 true ≠ [] ∧ frameErrors (parseFrame (wframe [2, 0, 0, 0, 0, 1] [8, 0])) ((wframe [2, 0, 0,
      0, 0, 1] [8, 0]).length + 4) false = [] ∧ s.active pgSw = true ∧ (parseFrame (wframe [2, 0, 0, 0, 0, 1] [8, 0])).src ≠
      s.macAddr ∧ ptpOf (parseFrame (wframe [2, 0, 0, 0, 0, 1] [8, 0])) = none ∧ s.vlanOf (1 + 1) (parseFrame (wframe [2, 0,
      0, 0, 0, 1] [8, 0])).tag = some (63, 4095, 0) ∧ s.vlanOf (0 + 1) none = none ∧ s.net.learned.length < 1024 ∧ (parseFrame
      (wframe [2, 0x4B, 0x44, 0, 0, 0] [8, 0])).src = s.macAddr ∧ frameErrors (parseFrame (wframe [2, 0x4B, 0x44, 0, 0, 0] [8,
      0])) ((wframe [2, 0x4B, 0x44, 0, 0, 0] [8, 0]).length + 4) false = []) ∧
    (let s : State := wready [(F.Net.LINK_UP, pgNet 1, 0, 1), (F.Sw.VLAN_VALID, pgSw, 63, 1), (F.Sw.VLAN_VID, pgSw, 63, 4095),
      (F.Sw.VLAN_MEMBER, pgSw, 63, 7), (F.Sw.PVID, pgSw, 2, 4095), (F.Sw.PVID, pgSw, 1, 7)]
    frameErrors (parseFrame (wframe [2, 0, 0, 0, 0, 1] [0x88, 0xF7, 0x0A, 2])) ((wframe [2, 0, 0, 0, 0, 1] [0x88, 0xF7, 0x0A,
      2]).length + 4) false = [] ∧ (parseFrame (wframe [2, 0, 0, 0, 0, 1] [0x88, 0xF7, 0x0A, 2])).src ≠ s.macAddr ∧ ptpOf
      (parseFrame (wframe [2, 0, 0, 0, 0, 1] [0x88, 0xF7, 0x0A, 2])) = some (0, 14) ∧ beAt ((parseFrame (wframe [2, 0, 0, 0,
      0, 1] [0x88, 0xF7, 0x0A, 2])).plain.drop 14) 0 1 % 16 ∈ [2, 3, 10]) ∧
    (let s : State := wready [(F.Net.LINK_UP, pgNet 1, 0, 1), (F.Sw.VLAN_VALID, pgSw, 63, 1), (F.Sw.VLAN_VID, pgSw, 63, 4095),
      (F.Sw.VLAN_MEMBER, pgSw, 63, 7), (F.Sw.PVID, pgSw, 2, 4095), (F.Sw.PVID, pgSw, 1, 7), (F.Hdr.QUIESCE, pgSw, 0, 1)]
    s.active pgSw = false) ∧
    (let s : State := { wready [(F.Net.LINK_UP, pgNet 1, 0, 1), (F.Sw.VLAN_VALID, pgSw, 63, 1), (F.Sw.VLAN_VID, pgSw, 63,
      4095), (F.Sw.VLAN_MEMBER, pgSw, 63, 7), (F.Sw.PVID, pgSw, 2, 4095), (F.Sw.PVID, pgSw, 1, 7), (F.Net.TX_EN, pgNet 1, 0,
      1)]
      with now := 40, net := { queues := [(11, [{ bytes := List.replicate 60 0#8, arrived := 0, kind := .own 65535 }])] } }
    (∀ k < 4, s.queue (0 + 1) k = []) ∧ s.queue (1 + 1) 3 =
      { bytes := List.replicate 60 0#8, arrived := 0, kind := .own 65535 } :: [] ∧ (∀ j < 4, 3 < j → s.queue (1 + 1) j = []) ∧
      s.ready (pgNet 1) = true ∧ s.on F.Net.TX_EN (pgNet 1) = true ∧ s.ready pgSw = true ∧
      ({ bytes := List.replicate 60 0#8, arrived := 0 } : QFrame).arrived + 40 ≤ s.now ∧ tget s.net.idle (1 + 1) 0 ≤ s.now) ∧
    (let s : State := { wready [(F.Net.LINK_UP, pgNet 1, 0, 1), (F.Sw.VLAN_VALID, pgSw, 63, 1), (F.Sw.VLAN_VID, pgSw, 63,
      4095), (F.Sw.VLAN_MEMBER, pgSw, 63, 7), (F.Sw.PVID, pgSw, 2, 4095), (F.Sw.PVID, pgSw, 1, 7), (F.Sw.AGE_TIME, pgSw, 0,
      300)] with now := 300000000000, net := { learned := [⟨4095, 1, 2, 0⟩] } }
    s.net.learned = ⟨4095, 1, 2, 0⟩ :: [] ∧ 0 + s.get F.Sw.AGE_TIME pgSw * 1000000000 ≤ s.now) ∧
    (let s : State := wready [(F.Sw.HOST_TX_SIZE, pgSw, 0, 2), (F.Sw.HOST_TX_WR, pgSw, 0, 1)]
    s.passes pgSw 255 = true ∧ s.get F.Sw.HOST_TX_SIZE pgSw = 2 ∧ s.get F.Sw.HOST_TX_WR pgSw < 2 ∧ s.get F.Sw.HOST_TX_RD pgSw
      ≠ s.get F.Sw.HOST_TX_WR pgSw ∧ (s.get F.Sw.HOST_TX_RD pgSw + 1) % 2 = s.get F.Sw.HOST_TX_WR pgSw ∧ s.on F.Hdr.QUIESCE
      pgSw = false ∧ s.sdramHeld (s.get F.Sw.HOST_TX_BASE pgSw * 4096 + s.get F.Sw.HOST_TX_RD pgSw * 9216) 9216 = false) :=
  ⟨by decide +kernel, by decide +kernel, by decide +kernel, by decide +kernel, by decide +kernel, by decide +kernel, by
      decide +kernel⟩

theorem wit_MastersAndExchanges :
    (let s : State := { wready [(F.Ptp.ANN_TIMEOUT, pgPtp, 0, 255)]
      with ptp := { foreign := [⟨0x10001, 2, 0, 0, 0, 0, 0, 0⟩] }, now := 255000000000 }
    bestMaster [⟨0x10001, 2, 0, 0, 0, 0, 0, 0⟩] = some ⟨0x10001, 2, 0, 0, 0, 0, 0, 0⟩ ∧ s.ready pgPtp = true ∧ 254 < 255 ∧
      0x10001 / 65536 ≠ s.clockId ∧ (s.clockId * 65536 + 1) / 65536 = s.clockId ∧ (∃ f ∈ s.ptp.foreign, f.seen + s.get
      F.Ptp.ANN_TIMEOUT pgPtp * logNs f.logAnn ≤ s.now)) ∧
    (let s : State := { wready [(F.Ptp.ANN_TIMEOUT, pgPtp, 0, 3)]
      with ptp := { foreign := [⟨0x10001, 2, 0, 0, 0, 0, 0, 1⟩] } }
    (∀ f ∈ s.ptp.foreign, s.now < f.seen + s.get F.Ptp.ANN_TIMEOUT pgPtp * logNs f.logAnn) ∧ s.ptp.parent = none) ∧
    (let s : State := { wready [(F.Ptp.MASTER_PORT, pgPtp, 0, 2), (F.Sw.PVID, pgSw, 0, 7)]
      with ptp := { parent := some 0x10001, foreign := [⟨0x10001, 2, 0, 0, 0, 0, 0, 0⟩], waiting := some (65535, 0, ⟨0, 0, 0⟩), last := some ⟨0, 0, 0⟩, reqT3 := some (65535, 0) } }
    s.ready pgPtp = true ∧ s.ptp.parent = some 0x10001 ∧ s.get F.Ptp.MASTER_PORT pgPtp = 2 ∧ s.ptp.waiting = some (65535, 0,
      ⟨0, 0, 0⟩) ∧ s.ptp.last = some ⟨0, 0, 0⟩ ∧ s.ptp.reqT3 = some (65535, 0) ∧ s.ready pgSw = true ∧ s.ptp.reqNext ≤ s.now ∧
      s.ptp.foreign.find? (fun f => f.src == 0x10001 && f.port == s.get F.Ptp.MASTER_PORT pgPtp) = some ⟨0x10001, 2, 0, 0, 0,
      0, 0, 0⟩ ∧ s.vlanOf 0 none = none ∧ (⟨0x10001, 2, 0, 0, 0, 0, 0, 0⟩ : Foreign).port ≠ 0 ∧ (65535 ≠ 65534)) ∧
    (let s : State := { wready [(F.Ptp.MASTER_PORT, pgPtp, 0, 2), (F.Sw.VLAN_VALID, pgSw, 63, 1), (F.Sw.VLAN_VID, pgSw, 63,
      4095), (F.Sw.VLAN_MEMBER, pgSw, 63, 7), (F.Sw.PVID, pgSw, 0, 4095)]
      with ptp := { parent := some 0x10001, foreign := [⟨0x10001, 2, 0, 0, 0, 0, 0, 0⟩] } }
    (s.vlanOf 0 none).isSome = true) ∧
    (let s : State := { wready [(F.Ptp.SERVO, pgPtp, 0, 3), (F.Ptp.LOSS_SYNCS, pgPtp, 0, 15), (F.Mode.MODE, pgMode, 0, 3)]
      with now := 20000000000 }
    s.servo = 3 ∧ s.ptp.syncAt + s.get F.Ptp.LOSS_SYNCS pgPtp * logNs s.ptp.syncLog ≤ s.now ∧ s.passes pgPtp 255 = true ∧
      s.get F.Mode.MODE pgMode = 3 ∧ true ≠ s.on F.Ptp.ALLOW_STEP pgPtp) ∧
    (let s : State := { wready [(F.Ptp.SERVO, pgPtp, 0, 4), (F.Ptp.LOSS_SYNCS, pgPtp, 0, 1)] with now := 1 }
    (s.servo ≠ 2 ∧ s.servo ≠ 3) ∧ 2 ≤ s.servo ∧ s.servo ≤ 4 ∧ s.now < s.ptp.syncAt + s.get F.Ptp.LOSS_SYNCS pgPtp * logNs
      s.ptp.syncLog) :=
  ⟨by decide +kernel, by decide +kernel, by decide +kernel, by decide +kernel, by decide +kernel, by decide +kernel⟩

theorem wit_ClockReadsTriggersAndCaptures :
    (let s : State := { wready [] with ptp := { log := [⟨0, 0, 2 ^ 41, false⟩] } }
    s.epochFor 5 = some ⟨0, 0, 2 ^ 41, false⟩ ∧ s.passes pgPtp 255 = true ∧ s.epochFor (low 64 (2 ^ 64)) = some ⟨0, 0, 2 ^ 41,
      false⟩ ∧ s.silent = false) ∧
    (let s : State := { wready [(F.Mode.MODE, pgMode, 0, 0)] with ptp := { log := [⟨1, 0, 2 ^ 41, false⟩] } }
    s.epochFor (low 64 (2 ^ 64)) = none ∧ s.silent = true) ∧
    (let s : State := wready [(F.Trig.TARGET_NS, pgTrig, 7, 0), (F.Trig.TRIG_ARMED, pgTrig, 0, 128), (F.Trig.OUT_EN, pgTrig,
      7, 1), (F.Trig.PERIOD_NS, pgTrig, 7, 1), (F.Trig.LATE_POLICY, pgTrig, 7, 1), (F.Trig.TARGET_NS, pgTrig, 0, 999999999)]
    s.passes pgTrig 255 = true ∧ bitAt 129 7 = true ∧ s.trigTarget 7 0 ≤ s.timeNow ∧ s.timeNow < s.trigTarget 0 0 ∧ bitAt 129
      1 = false ∧ s.onI F.Trig.LATE_POLICY pgTrig 7 = true ∧ s.trigPeriod 7 ≠ 0 ∧ s.onI F.Trig.OUT_EN pgTrig 7 = true ∧
      s.armed 7 = true ∧ s.trigTarget 7 (s.trigOf 7).j ≤ s.timeNow ∧ s.armed 0 = false ∧ s.onI F.Trig.OUT_EN pgTrig 0 = false) ∧
    (let s : State := { wready [(F.Cap.EDGE, pgTrig, 3, 3), (F.Cap.EDGE, pgTrig, 2, 2), (F.Cap.EDGE, pgTrig, 1, 1)]
      with tcap := [(3, { fifo := List.replicate 16 (0, 0, true), told := true }), (2, { fifo := List.replicate 16 (0, 0, true) }), (1, { fifo := List.replicate 15 (0, 0, true) })] }
    3 < 4 ∧ s.ready pgTrig = true ∧ bitAt (s.getI F.Cap.EDGE pgTrig 3) (if true then 0 else 1) = true ∧ bitAt (s.getI
      F.Cap.EDGE pgTrig 2) (if false then 0 else 1) = true ∧ bitAt (s.getI F.Cap.EDGE pgTrig 2) (if true then 0 else 1) =
      false ∧ bitAt (s.getI F.Cap.EDGE pgTrig 1) (if true then 0 else 1) = true ∧ 16 ≤ (tget s.tcap 3 {}).fifo.length ∧ (tget
      s.tcap 3 {}).told = true ∧ (tget s.tcap 2 {}).told = false ∧ 16 ≤ (tget s.tcap 2 {}).fifo.length ∧ (tget s.tcap 1
      {}).fifo.length < 16) :=
  ⟨by decide +kernel, by decide +kernel, by decide +kernel, by decide +kernel⟩

theorem wit_PairLeaseAndRoles :
    (let s : State := { wready [(F.Pair.ROLE, pgPair, 0, 1), (F.Pair.PLL_LOCKED, pgPair, 0, 1), (F.Pair.HB_PIN_OK, pgPair, 0,
      1)] with now := 50000 }
    s.ready pgPair = true ∧ s.role ≠ 0 ∧ s.pair.slot < s.counter / 25000 ∧ s.on F.Pair.PLL_LOCKED pgPair = true ∧ s.pairOn =
      false ∧ s.on (if true then F.Pair.HB_PIN_OK else F.Pair.HB_LANE_OK) pgPair = true ∧ s.pathDown true = true ∧ s.pair.join
      = none ∧ s.modeNow ≠ 0 ∧ s.mode.porst = false) ∧
    (let s : State := { wready [(F.Pair.ROLE, pgPair, 0, 1)] with now := 49999 }
    s.counter / 25000 ≤ s.pair.slot) ∧
    (let s : State := { wready [(F.Hdr.ENABLE, pgPair, 0, 1), (F.Pair.ROLE, pgPair, 0, 4), (F.Pair.GUARDED, pgPair, 0, 1)]
      with pair := { renewAck := false } }
    s.pairOn = true ∧ s.role = 4 ∧ s.on F.Pair.GUARDED pgPair = true ∧ s.pair.renewAt ≤ s.counter ∧ s.pair.renewAck = false ∧
      s.leaseOver = false ∧ s.passes pgPair 255 = true) ∧
    (let s : State := { wready [(F.Hdr.ENABLE, pgPair, 0, 1), (F.Pair.HB_LANE_OK, pgPair, 0, 1)]
      with pair := { join := some { since := 0 } } }
    s.pathDown (!false) = true ∧ s.pair.join.isSome = true ∧ s.on F.Pair.HB_LANE_OK pgPair = true ∧ s.pathDown false = true) ∧
    (let s : State := { wready [(F.Hdr.ENABLE, pgPair, 0, 1), (F.Pair.ROLE, pgPair, 0, 4), (F.Pair.GUARDED, pgPair, 0, 1)]
      with now := 4, pair := { expiry := some 1 } }
    s.pairOn = true ∧ s.leaseOver = true) ∧
    (let s : State := { wready [(F.Hdr.ENABLE, pgPair, 0, 1), (F.Pair.ROLE, pgPair, 0, 3), (F.Mode.MODE, pgMode, 0, 3)]
      with now := 2000000000, pair := { view := some 0 } }
    s.pairOn = true ∧ s.leaseMode = true ∧ s.role = 3 ∧ s.activeSilent (if s.pair.activeAt.isNone then s.pair.entered else 0)
      = true ∧ s.leaseView < s.counter) ∧
    (let s : State := { wready [(F.Hdr.ENABLE, pgPair, 0, 1), (F.Pair.ROLE, pgPair, 0, 5), (F.Mode.MODE, pgMode, 0, 2)]
      with now := 2000000000, pair := { claim := true } }
    s.role = 5 ∧ s.pair.claim = true ∧ s.activeSilent s.pair.enabledAt = true ∧ s.leaseMode = true) ∧
    (let s : State := wready [(F.Mode.MODE, pgMode, 0, 0)]
    s.modeNow = 0) :=
  ⟨by decide +kernel, by decide +kernel, by decide +kernel, by decide +kernel, by decide +kernel, by decide +kernel, by
      decide +kernel, by decide +kernel⟩

theorem wit_PairHeartbeats :
    (let s : State := wready [(F.Pair.RX_LOCKED, pgPair, 0, 1)]
    s.ready pgPair = true ∧ s.pairLocked 1 = false ∧ bits (low 64 0) 56 8 ≠ 0xB5) ∧
    (let s : State := wready [(F.Pair.RX_LOCKED, pgPair, 0, 2), (F.Hdr.ENABLE, pgPair, 0, 1), (F.Pair.ROLE, pgPair, 0, 4),
      (F.Pair.GUARDED, pgPair, 0, 1)]
    1 < 2 ∧ s.pairLocked 1 = true ∧ (List.replicate 12 (255 : Byte)).length = 12 ∧ s.ready pgPair = true ∧ s.pair.mirror = []
      ∧ s.pair.join = none ∧ s.role ≠ 1 ∧ s.pairOn = true ∧ s.role = 4 ∧ s.leaseOver = false ∧ s.outranked ⟨false, 1, 4, 3,
      true, 0, 0, some 0⟩ = true ∧ s.outranked ⟨false, 0, 3, 3, true, 0, 0, some 0⟩ = false) ∧
    (let s : State := { wready [(F.Hdr.ENABLE, pgPair, 0, 1), (F.Pair.ROLE, pgPair, 0, 2)] with pair := { sbReady := true } }
    (let f := 0xB5 * 2 ^ 56 + ringCrc (msbBits 56 (0xB5 * 2 ^ 48)); bits (low 64 f) 56 8 = 0xB5 ∧ low 64 f % 256 = ringCrc
      (msbBits 56 (low 64 f / 256))) ∧ s.ready pgPair = true ∧ s.pairOn = true ∧ s.role = 2 ∧ s.pair.sbReady = true ∧
      s.pair.join = none) ∧
    (let s : State := { wready [(F.Hdr.ENABLE, pgPair, 0, 1), (F.Pair.ROLE, pgPair, 0, 4), (F.Pair.GUARDED, pgPair, 0, 1)]
      with now := 4, pair := { expiry := some 1, seen := 255 } }
    s.leaseOver = true ∧ s.pairOn = true ∧ s.role = 4 ∧ 0 ≠ s.pair.seen) :=
  ⟨by decide +kernel, by decide +kernel, by decide +kernel, by decide +kernel⟩

theorem wit_PairComparesAndMirrors :
    (let s : State := wready [(F.Pair.RX_LOCKED, pgPair, 0, 2)]
    s.pairHears 0 = false ∧ s.pairHears 1 = true ∧ s.pairOn = false) ∧
    (let s : State := { wready [(F.Pair.RX_LOCKED, pgPair, 0, 3), (F.Hdr.ENABLE, pgPair, 0, 1), (F.Pair.ROLE, pgPair, 0, 5),
      (F.Pair.PARTNER_ROLE, pgPair, 0, 5), (F.Pair.PAIR_PORTS_HI, pgPair, 0, 32768)]
      with pair := { own := [(47, [(2 ^ 32 - 1, 2 ^ 24 - 1, 5)])] } }
    s.pairHears 0 = true ∧ 47 = low 6 47 ∧ s.pairOn = true ∧ s.paired 47 = true ∧ s.paired 0 = true ∧ s.comparing = true ∧
      (tget s.pair.own 47 []).find? (fun e => e.1 == 2 ^ 32 - 1 && e.2.1 == 2 ^ 24 - 1) = some (2 ^ 32 - 1, 2 ^ 24 - 1, 5) ∧
      (tget s.pair.own 0 []).find? (fun e => e.1 == 0 && e.2.1 == 0) = none ∧ 5 ≠ low 32 0) ∧
    (let s : State := { wready [(F.Pair.RX_LOCKED, pgPair, 0, 3), (F.Hdr.ENABLE, pgPair, 0, 1), (F.Pair.ROLE, pgPair, 0, 3),
      (F.Pair.PARTNER_ROLE, pgPair, 0, 4)]
      with pair := { latchIn := [(255, 15, [65536, 0, 0, 0])], offs := [(0, { set := true, differed := some 254 }), (1, { set := true })] } }
    s.pairHears 0 = true ∧ s.pairOn = true ∧ 1 ≤ s.role ∧ s.role ≤ 3 ∧ s.get F.Pair.PARTNER_ROLE pgPair = 4 ∧
      s.pair.latchIn.find? (fun l => l.1 == low 8 255) = some (255, 15, [65536, 0, 0, 0]) ∧ bitAt (low 4 15) 3 = true ∧ bitAt
      15 3 = true ∧ offsetSample 0 65536 = some (-1) ∧ offsetSample 32768 0 = none ∧ (tget s.pair.offs 3 {}).set = false ∧
      (tget s.pair.offs 0 {}).differed = some ((low 8 255 + 255) % 256) ∧ (tget s.pair.offs 1 {}).differed ≠ some ((low 8 255
      + 255) % 256) ∧ unsext 48 (-1) ≠ s.get2 F.Pair.COUNT_OFFSET_LO F.Pair.COUNT_OFFSET_HI pgPair 0) ∧
    (let s : State := wready [(F.Pair.RX_LOCKED, pgPair, 0, 3), (F.Hdr.ENABLE, pgPair, 0, 1)]
    s.pairHears 1 = true ∧ s.pairOn = true ∧ 1 ≤ (List.replicate 12 7).length ∧ (List.replicate 12 7).length ≤ 12 ∧
      s.pair.mirror = [] ∧ s.ready (pgScr 3) = true ∧ s.cstate (pgScr 3) < 2 ∧ s.binding (pgScr 3) = none ∧ (s.updPair (fun x
      => { x with mirror := [] })).mirrorRefused (pgScr 3) 65535 = false) ∧
    (let s : State := { wready [(F.Pair.RX_LOCKED, pgPair, 0, 3), (F.Hdr.ENABLE, pgPair, 0, 1), (F.Lock.BIND_EN_3, pgLocks,
      27, 1), (F.Lock.BIND_IX_3, pgLocks, 27, 63), (F.Hdr.ENABLE, 0x06F, 0, 1)] with bnd := [(0x06F, { next := 0 })] }
    63 < 64 ∧ s.binding (pgScr 3) = some 63 ∧ s.onI F.Lock.HELD pgLocks 63 = false ∧ ((lockAcquire 63 0xA0 (s.updPair (fun x
      => { x with mirror := x.mirror ++ [⟨3, 65535, true, false, 0, [], 0⟩] }))).updPair (fun x => { x
      with mirror := [] })).mirrorRefused (pgScr 3) 65535 = true ∧ ((lockAcquire 63 0xA0 (s.updPair (fun x => { x
      with mirror := x.mirror ++ [⟨3, 65535, true, false, 0, [], 0⟩] }))).updPair (fun x => { x
      with mirror := [] })).mirrorRefused (pgScr 3) 1 = false) ∧
    (let s : State := { wready [(F.Pair.RX_LOCKED, pgPair, 0, 3), (F.Hdr.ENABLE, pgPair, 0, 1), (F.Lock.BIND_EN_3, pgLocks,
      27, 1), (F.Lock.BIND_IX_3, pgLocks, 27, 63), (F.Lock.HELD, pgLocks, 63, 1), (F.Lock.OWNER, pgLocks, 63, 16)]
      with now := 10000000, pair := { mirror := [⟨3, 65535, true, false, 0, [], 0⟩] } }
    s.pairOn = true ∧ s.pair.mirror = ⟨3, 65535, true, false, 0, [], 0⟩ :: [] ∧ s.ready (pgScr 3) = true ∧ s.cstate (pgScr 3)
      < 2 ∧ s.binding (pgScr 3) = some 63 ∧ s.onI F.Lock.HELD pgLocks 63 = true ∧ s.outbids 63 0xA0 = false ∧ s.getI
      F.Lock.OWNER pgLocks 63 ≠ 0xA0 ∧ 0 + 5000000 ≤ s.counter) :=
  ⟨by decide +kernel, by decide +kernel, by decide +kernel, by decide +kernel, by decide +kernel, by decide +kernel⟩

theorem wit_PairRejoin :
    (let s : State := { wready [(F.Pair.RX_LOCKED, pgPair, 0, 3), (F.Hdr.ENABLE, pgPair, 0, 1), (F.Pair.ROLE, pgPair, 0, 1),
      (F.Pair.PARTNER_ROLE, pgPair, 0, 4), (F.Pair.CFG_MATCH, pgPair, 0, 1), (F.Mode.MODE, pgMode, 0, 2), (F.Pair.AUTO_REJOIN,
      pgPair, 0, 0)] with pair := { partnerMode := 2, peerLineAt := some 0, retryAt := some 0 } }
    s.passes pgPair 255 = true ∧ s.on F.Pair.AUTO_REJOIN pgPair = false ∧ s.pairOn = true ∧ s.role = 1 ∧ s.partnerFits = true
      ∧ s.firstStart = false) ∧
    (let s : State := { wready [(F.Pair.RX_LOCKED, pgPair, 0, 3), (F.Hdr.ENABLE, pgPair, 0, 1), (F.Pair.ROLE, pgPair, 0, 1),
      (F.Pair.PARTNER_ROLE, pgPair, 0, 4), (F.Pair.CFG_MATCH, pgPair, 0, 1), (F.Mode.MODE, pgMode, 0, 2), (F.Pair.AUTO_REJOIN,
      pgPair, 0, 1)] with pair := { partnerMode := 2, peerLineAt := some 0, retryAt := some 0 } }
    s.on F.Pair.AUTO_REJOIN pgPair = true ∧ s.pair.retryAt = some 0 ∧ 0 ≤ s.counter) ∧
    (let s : State := wready [(F.Pair.RX_LOCKED, pgPair, 0, 3), (F.Hdr.ENABLE, pgPair, 0, 1), (F.Pair.ROLE, pgPair, 0, 4)]
    s.pairHears 1 = true ∧ s.pairOn = true ∧ s.role = 4 ∧ s.pair.retryAt = none ∧ s.pair.join = none) ∧
    (let s : State := { wready [(F.Pair.RX_LOCKED, pgPair, 0, 3), (F.Hdr.ENABLE, pgPair, 0, 1)]
      with now := 100000000, pair := { join := some { since := 0 } } }
    s.pairHears 1 = true ∧ 4 ≤ (List.replicate 48 (255 : Byte)).length ∧ (List.replicate 48 (255 : Byte)).length ≤ 48 ∧
      (List.replicate 48 (255 : Byte)).length % 4 = 0 ∧ s.pair.join = some { since := 0 } ∧ s.pairOn = true ∧ 47 <
      Config.ports ∧ 2 ^ 32 - 1 < 2 ^ 32 ∧ ({ since := 0 } : JoinX).crc ^^^ 0xFFFFFFFF = low 32 0 ∧ ({ since := 0 } :
      JoinX).crc ^^^ 0xFFFFFFFF ≠ low 32 1 ∧ s.pairPortsIdle = true ∧ ({ since := 0 } : JoinX).ended = false ∧ 0 + 50000000 ≤
      s.counter) ∧
    (let s : State := { wready [(F.Pair.RX_LOCKED, pgPair, 0, 3), (F.Hdr.ENABLE, pgPair, 0, 1), (F.Port.RUN_STATUS_STATE,
      0x03F, 0, 2), (F.Pair.PAIR_PORTS_HI, pgPair, 0, 32768)] with pair := { join := some { since := 0, good := true } } }
    s.pairPortsIdle = false ∧ ({ since := 0, good := true } : JoinX).good = true) :=
  ⟨by decide +kernel, by decide +kernel, by decide +kernel, by decide +kernel, by decide +kernel⟩

theorem wit_SaggerRequestsAndParameters :
    (let s : State := { wready [(F.Sag.PARAM_STATUS_STEP, pgSag, 0, 0)] with sag := { up := 2 } }
    s.passes pgSag 255 = true ∧ s.sag.up = 2 ∧ 50000 ≤ 3000000 ∧ s.get F.Sag.PARAM_STATUS_STEP pgSag = 0 ∧ low 32 0x5A6BC3D1 =
      0x5A6BC3D1) ∧
    (let s : State := { wready [(F.Sag.PARAM_STATUS_STEP, pgSag, 0, 1)] with sag := { up := 1 }, now := 100001 }
    s.sag.up ≠ 2 ∧ s.get F.Sag.PARAM_STATUS_STEP pgSag = 1 ∧ s.sag.keyAt + 100000 < s.now ∧ s.modeNow ≠ 0 ∧ s.mode.porst =
      false) ∧
    (let s : State := { wready [(F.Sag.PARAM_STATUS_STEP, pgSag, 0, 1)] with now := 100000 }
    s.now ≤ s.sag.keyAt + 100000 ∧ s.get F.Sag.PARAM_STATUS_STEP pgSag = 1 ∧ low 32 0xA5943C2E = 0xA5943C2E) ∧
    (let s : State := wready [(F.Sag.PARAM_STATUS_STEP, pgSag, 0, 3)]
    s.get F.Sag.PARAM_STATUS_STEP pgSag = 3 ∧ s.passes pgSag 0 = true) ∧
    (let s : State := wready [(F.Sag.PARAM_STATUS_STEP, pgSag, 0, 2), (F.Sag.PARAM_STAGE, pgSag, 1, 4096), (F.Sag.PARAM_STAGE,
      pgSag, 63, crc32 ((paramBytes (fun i => if i = 1 then 4096 else 0)).take 252))]
    (let w : Nat → Nat := fun i => s.getI F.Sag.PARAM_STAGE pgSag i; s.get F.Sag.PARAM_STATUS_STEP pgSag = 2 ∧ s.now ≤
      s.sag.keyAt + 100000 ∧ paramCrcOk w = true ∧ s.sag.up = 1 ∧ s.paramStateBad = false ∧ paramInvalid w = false ∧
      s.journalOpen = true)) ∧
    (let s : State := wready [(F.Sag.PARAM_STATUS_STEP, pgSag, 0, 2), (F.Sag.PARAM_STAGE, pgSag, 1, 1)]
    paramCrcOk (fun i => s.getI F.Sag.PARAM_STAGE pgSag i) = false) :=
  ⟨by decide +kernel, by decide +kernel, by decide +kernel, by decide +kernel, by decide +kernel, by decide +kernel⟩

theorem wit_SaggerCycleTripsAndPower :
    (let s : State := { wready [] with sag := { up := 0 } }
    s.sag.up = 0 ∧ s.sag.up ≠ 1 ∧ s.sag.up ≠ 2) ∧
    (let s : State := wready []
    s.sag.up = 1 ∧ s.sag.up ≠ 0 ∧ s.sagRecord = none ∧ s.modeNow ≠ 0 ∧ s.mode.porst = false ∧ 11 < 12) ∧
    (let s : State := { wready []
      with jrn := { a := [.good (({ type := 2, key := 0, data := paramBytes (fun i => if i = 1 then 4096 else if i = 63 then crc32 ((paramBytes (fun i => if i = 1 then 4096 else 0)).take 252) else 0) } : JObj).record 1 0), .good (({ type := 2, key := 0, data := paramBytes (fun i => if i = 1 then 4096 else if i = 63 then crc32 ((paramBytes (fun i => if i = 1 then 4096 else 0)).take 252) else 0) } : JObj).record 2 1)] } }
    s.sagRecord.isSome = true ∧ s.sag.up = 1) ∧
    (let s : State := { wready [(F.Sag.CHANNELS_OK, pgSag, 0, 7), (F.Sag.SAG_STATE_STATE, pgSag, 0, 2)]
      with sag := { up := 2, start := true } }
    s.sag.up = 2 ∧ ([⟨[0, 0, 0, 0], 0, 0, 0⟩, ⟨[0, 0, 0, 0], 0, 0, 0⟩, ⟨[0, 0, 0, 0], 0, 0, 0⟩] : List SagSample).length = 3 ∧
      (∀ c ∈ ([⟨[0, 0, 0, 0], 0, 0, 0⟩, ⟨[0, 0, 0, 0], 0, 0, 0⟩, ⟨[0, 0, 0, 0], 0, 0, 0⟩] : List SagSample), c.opened = 0 ∧
      c.failed s = 0) ∧ 2 ≤ s.sagChannels.length ∧ s.sag.disagree = 0 ∧ s.sag.start = true ∧ s.sag.stop = false ∧ s.sag.reset
      = none ∧ s.sagState = 2 ∧ s.sagTrips = 0 ∧ bitAt (s.get F.Sag.CHANNELS_OK pgSag) 2 = true ∧ 2 < 3) ∧
    (let s : State := { wready [(F.Sag.PARAM_ACTIVE, pgSag, 34, 2 ^ 31 + 4095 * 65536), (F.Sag.PARAM_ACTIVE, pgSag, 35, 2047 *
      65536 + 2 ^ 15 - 1)] with sag := { up := 2, stop := true, adcBad := true, tempBad := 32768 } }
    s.sag.stop = true ∧ s.sag.adcBad = true ∧ (List.replicate 16 4095).length = 16 ∧ 16 < natDist 836 819 ∧ natDist 835 819 ≤
      16 ∧ natDist 3260 3276 ≤ 16 ∧ bitAt (((List.range 16).filter (fun i => s.sagHot i (low 12 ((List.replicate 15 0 ++
      [100]).getD i 0)))).filter (bitAt s.sag.tempBad) |>.foldl (fun a i => a ||| s.sagAction i) 0) 14 = true ∧ bitAt (s.get
      F.Sag.CHANNELS_OK pgSag) 2 = false) :=
  ⟨by decide +kernel, by decide +kernel, by decide +kernel, by decide +kernel, by decide +kernel⟩

theorem wit_RailSequence :
    (let s : State := wready [(F.Seq.SEQ_STATUS_STATE, pgSeq, 0, 2)]
    s.seqState ≠ 1 ∧ s.seqState ≠ 3) ∧
    (let s : State := { wready [(F.Seq.RAIL_EN, pgSeq, 0, 0), (F.Seq.RAIL_EN, pgSeq, 1, 0), (F.Seq.RAIL_EN, pgSeq, 2, 0),
      (F.Seq.RAIL_EN, pgSeq, 3, 0), (F.Seq.RAIL_EN, pgSeq, 4, 0), (F.Seq.RAIL_EN, pgSeq, 5, 0), (F.Seq.RAIL_EN, pgSeq, 15, 1),
      (F.Seq.RAIL_STEP, pgSeq, 15, 15), (F.Seq.RAIL_CTRL, pgSeq, 15, 1), (F.Seq.NOM_MV, pgSeq, 15, 1000),
      (F.Seq.SEQ_STATUS_STATE, pgSeq, 0, 1), (F.Seq.SEQ_STATUS_STEP, pgSeq, 0, 15), (F.Seq.ON, pgSeq, 15, 1)]
      with now := 65535000 }
    s.seqState = 1 ∧ s.jrn.closing = none ∧ (let v := showReadings [(15, 1000)] s; (∀ k ∈ v.stepRails s.seqStep, v.railUp k =
      true) ∧ v.stepsFrom (s.seqStep + 1) = []) ∧ (let v := showReadings [(15, 0)] s; (∃ k ∈ v.stepRails s.seqStep, v.railUp k
      = false))) ∧
    (let s : State := { wready [(F.Seq.RAIL_EN, pgSeq, 0, 0), (F.Seq.RAIL_EN, pgSeq, 1, 0), (F.Seq.RAIL_EN, pgSeq, 2, 0),
      (F.Seq.RAIL_EN, pgSeq, 3, 0), (F.Seq.RAIL_EN, pgSeq, 4, 0), (F.Seq.RAIL_EN, pgSeq, 5, 0), (F.Seq.RAIL_EN, pgSeq, 15, 1),
      (F.Seq.RAIL_STEP, pgSeq, 15, 15), (F.Seq.RAIL_CTRL, pgSeq, 15, 1), (F.Seq.NOM_MV, pgSeq, 15, 1000), (F.Seq.DELAY_US,
      pgSeq, 15, 65535), (F.Seq.SEQ_STATUS_STATE, pgSeq, 0, 1), (F.Seq.SEQ_STATUS_STEP, pgSeq, 0, 15)]
      with now := 65535000, rail := { okAt := some 0 } }
    (s.rail.okAt.getD s.now) + ((showReadings [(15, 1000)] s).stepRails s.seqStep).foldl (fun a k => max a ((showReadings
      [(15, 1000)] s).railGet F.Seq.DELAY_US k)) 0 * 1000 ≤ s.now) ∧
    (let s : State := { wready [(F.Seq.RAIL_EN, pgSeq, 0, 0), (F.Seq.RAIL_EN, pgSeq, 1, 0), (F.Seq.RAIL_EN, pgSeq, 2, 0),
      (F.Seq.RAIL_EN, pgSeq, 3, 0), (F.Seq.RAIL_EN, pgSeq, 4, 0), (F.Seq.RAIL_EN, pgSeq, 5, 0), (F.Seq.RAIL_EN, pgSeq, 15, 1),
      (F.Seq.RAIL_STEP, pgSeq, 15, 15), (F.Seq.RAIL_CTRL, pgSeq, 15, 1), (F.Seq.NOM_MV, pgSeq, 15, 1000), (F.Seq.RAIL_EN,
      pgSeq, 0, 1), (F.Seq.RAIL_STEP, pgSeq, 0, 0), (F.Seq.RAIL_CTRL, pgSeq, 0, 1), (F.Seq.DELAY_US, pgSeq, 0, 0),
      (F.Seq.NOM_MV, pgSeq, 0, 1000), (F.Seq.SEQ_STATUS_STATE, pgSeq, 0, 1)] with rail := { okAt := some 0 } }
    (let v := showReadings [(0, 1000)] s; (∀ k ∈ v.stepRails s.seqStep, v.railUp k = true) ∧ v.stepsFrom (s.seqStep + 1) = 15
      :: []) ∧ (s.rail.okAt.getD s.now) + ((showReadings [(0, 1000)] s).stepRails s.seqStep).foldl (fun a k => max a
      ((showReadings [(0, 1000)] s).railGet F.Seq.DELAY_US k)) 0 * 1000 ≤ s.now) ∧
    (let s : State := { wready [(F.Seq.RAIL_EN, pgSeq, 0, 0), (F.Seq.RAIL_EN, pgSeq, 1, 0), (F.Seq.RAIL_EN, pgSeq, 2, 0),
      (F.Seq.RAIL_EN, pgSeq, 3, 0), (F.Seq.RAIL_EN, pgSeq, 4, 0), (F.Seq.RAIL_EN, pgSeq, 5, 0), (F.Seq.RAIL_EN, pgSeq, 15, 1),
      (F.Seq.RAIL_STEP, pgSeq, 15, 15), (F.Seq.RAIL_CTRL, pgSeq, 15, 1), (F.Seq.NOM_MV, pgSeq, 15, 1000), (F.Seq.RISE_MS,
      pgSeq, 15, 255), (F.Seq.SEQ_STATUS_STATE, pgSeq, 0, 1), (F.Seq.SEQ_STATUS_STEP, pgSeq, 0, 15), (F.Seq.ON, pgSeq, 15, 1)]
      with now := 255000000 }
    s.seqState = 1 ∧ 15 < 16 ∧ (s.onRails s.seqStep).contains 15 = true ∧ s.hasReading 15 = true ∧ s.railOn F.Seq.IN_WINDOW 15
      = false ∧ tget s.rail.turned 15 0 + s.railGet F.Seq.RISE_MS 15 * 1000000 ≤ s.now ∧ s.seqStep < 16) ∧
    (let s : State := { wready [(F.Seq.RAIL_EN, pgSeq, 0, 0), (F.Seq.RAIL_EN, pgSeq, 1, 0), (F.Seq.RAIL_EN, pgSeq, 2, 0),
      (F.Seq.RAIL_EN, pgSeq, 3, 0), (F.Seq.RAIL_EN, pgSeq, 4, 0), (F.Seq.RAIL_EN, pgSeq, 5, 0), (F.Seq.RAIL_EN, pgSeq, 15, 1),
      (F.Seq.RAIL_STEP, pgSeq, 15, 15), (F.Seq.RAIL_CTRL, pgSeq, 15, 1), (F.Seq.NOM_MV, pgSeq, 15, 1000), (F.Seq.FALL_MS,
      pgSeq, 15, 1), (F.Seq.SEQ_STATUS_STATE, pgSeq, 0, 3), (F.Seq.SEQ_STATUS_STEP, pgSeq, 0, 15)] with rail := { why := 2 } }
    s.seqState = 3 ∧ (let v := s.setI F.Seq.READ_MV pgSeq 15 99; (∀ k ∈ v.stepRails s.seqStep, (v.fallOver [(15, 99)] k).1 =
      true)) ∧ (let v := s.setI F.Seq.READ_MV pgSeq 15 100; (∃ k ∈ v.stepRails s.seqStep, (v.fallOver [(15, 100)] k).1 =
      false)) ∧ (∀ k < 16, s.railOn F.Seq.ON k = false)) ∧
    (let s : State := wready [(F.Seq.RAIL_EN, pgSeq, 0, 0), (F.Seq.RAIL_EN, pgSeq, 1, 0), (F.Seq.RAIL_EN, pgSeq, 2, 0),
      (F.Seq.RAIL_EN, pgSeq, 3, 0), (F.Seq.RAIL_EN, pgSeq, 4, 0), (F.Seq.RAIL_EN, pgSeq, 5, 0), (F.Seq.RAIL_EN, pgSeq, 15, 1),
      (F.Seq.RAIL_STEP, pgSeq, 15, 15), (F.Seq.RAIL_CTRL, pgSeq, 15, 1), (F.Seq.NOM_MV, pgSeq, 15, 1000),
      (F.Seq.SEQ_STATUS_STATE, pgSeq, 0, 3), (F.Seq.SEQ_STATUS_STEP, pgSeq, 0, 15), (F.Seq.ON, pgSeq, 15, 1)]
    (∃ n < 16, n ≤ s.seqStep ∧ s.onRails n ≠ [])) :=
  ⟨by decide +kernel, by decide +kernel, by decide +kernel, by decide +kernel, by decide +kernel, by decide +kernel, by
      decide +kernel⟩

theorem wit_RailPollsAndCoreRegulator :
    (let s : State := wready [(F.Mode.MODE, pgMode, 0, 0)]
    s.modeNow = 0) ∧
    (let s : State := { wready [(F.Seq.RAIL_EN, pgSeq, 0, 0), (F.Seq.RAIL_EN, pgSeq, 1, 0), (F.Seq.RAIL_EN, pgSeq, 2, 0),
      (F.Seq.RAIL_EN, pgSeq, 3, 0), (F.Seq.RAIL_EN, pgSeq, 4, 0), (F.Seq.RAIL_EN, pgSeq, 5, 0), (F.Seq.RAIL_EN, pgSeq, 15, 1),
      (F.Seq.RAIL_STEP, pgSeq, 15, 15), (F.Seq.RAIL_CTRL, pgSeq, 15, 1), (F.Seq.NOM_MV, pgSeq, 15, 1000),
      (F.Seq.SEQ_STATUS_STATE, pgSeq, 0, 2), (F.Seq.ON, pgSeq, 15, 1)]
      with rail := { out := [(15, 1)], retry := [(15, 255)] } }
    s.mode.porst = false ∧ s.modeNow ≠ 0 ∧ 15 < 16 ∧ s.railOn F.Seq.RAIL_EN 15 = true ∧ s.railPmbus 15 = true ∧ s.seqState = 2
      ∧ s.railOn F.Seq.ON 15 = true ∧ s.inWindow 15 0 = false ∧ s.inWindow 15 1000 = true ∧ 2 ≤ tget s.rail.out 15 0 + 1 ∧
      s.rail.retry.contains (15, 255) = true ∧ s.rail.retry.contains (15, 0) = false ∧ s.railOn F.Seq.RAIL_EN 0 = false) ∧
    (let s : State := wready [(F.Seq.RAIL_EN, pgSeq, 0, 0), (F.Seq.RAIL_EN, pgSeq, 1, 0), (F.Seq.RAIL_EN, pgSeq, 2, 0),
      (F.Seq.RAIL_EN, pgSeq, 3, 0), (F.Seq.RAIL_EN, pgSeq, 4, 0), (F.Seq.RAIL_EN, pgSeq, 5, 0), (F.Seq.RAIL_EN, pgSeq, 15, 1),
      (F.Seq.RAIL_STEP, pgSeq, 15, 15), (F.Seq.RAIL_CTRL, pgSeq, 15, 1), (F.Seq.NOM_MV, pgSeq, 15, 1000),
      (F.Seq.SEQ_STATUS_STATE, pgSeq, 0, 2), (F.Seq.ON, pgSeq, 15, 1)]
    tget s.rail.out 15 0 + 1 < 2 ∧ s.inWindow 15 0 = false ∧ s.passes pgSeq 255 = true) ∧
    (let s : State := wready [(F.Seq.RAIL_EN, pgSeq, 0, 0), (F.Seq.RAIL_EN, pgSeq, 1, 0), (F.Seq.RAIL_EN, pgSeq, 2, 0),
      (F.Seq.RAIL_EN, pgSeq, 3, 0), (F.Seq.RAIL_EN, pgSeq, 4, 0), (F.Seq.RAIL_EN, pgSeq, 5, 0), (F.Seq.RAIL_EN, pgSeq, 15, 1),
      (F.Seq.RAIL_STEP, pgSeq, 15, 15), (F.Seq.RAIL_CTRL, pgSeq, 15, 1), (F.Seq.NOM_MV, pgSeq, 15, 1000), (F.Seq.FAULT, pgSeq,
      15, 1), (F.Seq.IN_WINDOW, pgSeq, 15, 1), (F.Seq.ON, pgSeq, 15, 1)]
    (let v := showReadings [] s; v.railOn F.Seq.FAULT 15 = true ∧ v.railOn F.Seq.IN_WINDOW 15 = true ∧ v.railOn F.Seq.ON 15 =
      true ∧ v.railOn F.Seq.FAULT 14 = false) ∧ s.seqState ≠ 2 ∧ s.railOn F.Seq.FAULT 14 = false ∧ s.coreRuns = false) ∧
    (let s : State := wready [(F.Seq.ON, pgSeq, 0, 1), (F.Core.PHASES, pgCore, 0, 255), (F.Core.PHASE_OC, pgCore, 0, 255),
      (F.Seq.SEQ_STATUS_STATE, pgSeq, 0, 2), (F.Core.TARGET_MV, pgCore, 0, 750)]
    s.coreRuns = true ∧ 7 < 8 ∧ bitAt (s.get F.Core.PHASES pgCore) 7 = true ∧ s.get F.Core.PHASE_OC pgCore < 256 ∧ 255 ≤ s.get
      F.Core.PHASE_OC pgCore ∧ s.railOn F.Seq.ON 0 = true ∧ s.seqState = 2 ∧ 30 < natDist 781 (s.get F.Core.TARGET_MV pgCore)
      ∧ natDist 780 (s.get F.Core.TARGET_MV pgCore) ≤ 30) :=
  ⟨by decide +kernel, by decide +kernel, by decide +kernel, by decide +kernel, by decide +kernel⟩

theorem wit_HousekeepingHeadsAndSlowdown :
    (let s : State := wready [(F.Mode.MODE, pgMode, 0, 0)]
    s.modeNow = 0) ∧
    (let s : State := { wready [] with hk := { bad := 1 } }
    s.ready pgHk = true ∧ s.modeNow ≠ 0 ∧ s.mode.porst = false ∧ s.hk.bad < 2 ∧ s.ready pgThm = true ∧ s.ready pgDrv = true ∧
      s.ready pgCore = true ∧ s.passes pgThm 255 = true) ∧
    (let s : State := { wready [] with hk := { bad := 2 } }
    2 ≤ s.hk.bad ∧ s.ready pgThm = true ∧ 63 < 64) ∧
    (let s : State := wready [(F.Thm.H_SHUTDOWN, pgThm, 0, 1000), (F.Lane.SENSOR_0, 0x05B, 3, 903), (F.Lane.SENSOR_1, 0x05B,
      3, 0x8000), (F.Lane.SENSOR_0, 0x058, 0, 904), (F.Lane.SENSOR_0, 0x050, 0, 0x8000), (F.Lane.SENSOR_1, 0x058, 0, 0)]
    32 ≤ 47 ∧ bitAt (2 ^ 15 + 1) (47 % 32) = true ∧ s.headTemp 47 = some 903 ∧ 903 < s.headThr (s.headType 47) 3 - 96 ∧
      s.headTemp 32 = some 904 ∧ s.headThr (s.headType 32) 3 - 96 ≤ 904 ∧ s.headTemp 0 = none) ∧
    (let s : State := { wready [(F.Thm.SLOW_ACTIVE, pgThm, 0, 1)] with now := 100000000 }
    s.on F.Thm.SLOW_ACTIVE pgThm = true ∧ s.hk.slowAt + 100000000 ≤ s.now) :=
  ⟨by decide +kernel, by decide +kernel, by decide +kernel, by decide +kernel, by decide +kernel⟩

theorem wit_ReleaseByAnotherIsDenied :
    (let s : State := wready [(F.Lock.HELD, pgLocks, 63, 1), (F.Lock.OWNER, pgLocks, 63, 254)]
    63 < 64 ∧ 255 < 256 ∧ s.passes pgLocks 255 = true ∧ s.holds 63 255 = false) :=
  by decide +kernel

theorem wit_ChunkOfAnotherSegment :
    (let s : State := wready [(F.Ing.PORT1_EN, pgIng, 0, 1), (F.Ing.GROUP4, pgIng, 3, 0xEF000001), (F.Ing.SEGMENT_ID, pgIng,
      0, 0), (F.Ing.RING_SIZE, pgIng, 0, 1), (F.Hdr.ENABLE, pgIng, 0, 1)]
    s.takesChunk 1 false 0xEF000001 (s.get F.Ing.UDP_PORT pgIng) = true ∧ field wchunk 0 2 = 0xF011 ∧ field wchunk 2 1 = 1 ∧
      field wchunk 6 2 = 4 ∧ wchunk.length = 16 + field wchunk 6 2 ∧ field wchunk 4 2 ≠ s.get F.Ing.SEGMENT_ID pgIng) :=
  by decide +kernel

theorem wit_NarrowOrUnalignedAccess :
    (let s : State := wready []
    s.silent = false ∧ 3 < 4 ∧ (2 ^ 40 - 1) % 4 ≠ 0) :=
  by decide +kernel

theorem wit_JournalAndHostNor :
    (let s : State := wready [(F.Hdr.READY, pgSto, 0, 0)]
    s.jrn.prog = none ∧ s.jrn.erasing = false ∧ s.jrn.closing = none ∧ s.journalOpen = false) ∧
    (let s : State := { wready []
      with jrn := { prog := some ⟨1, 1, 2, 0, true, []⟩, cur := some (({ type := 1, key := 2, data := [] } : JObj), 0) } }
    s.jrn.prog = some ⟨1, 1, 2, 0, true, []⟩ ∧ s.jrn.cur = some (({ type := 1, key := 2, data := [] } : JObj), 0) ∧ (⟨1, 1, 2,
      0, true, []⟩ : JRec).last = true) ∧
    (let s : State := { wready [] with jrn := { prog := some ⟨2 ^ 32 - 1, 1, 2, 0, false, []⟩ } }
    s.jrn.prog = some ⟨2 ^ 32 - 1, 1, 2, 0, false, []⟩ ∧ s.jrn.cur = none) ∧
    (let s : State := { wready [] with jrn := { queue := [({ type := 1, key := 2, data := [] } : JObj)] } }
    s.journalOpen = true ∧ s.jrn.prog = none ∧ s.jrn.cur = none ∧ s.jrn.queue = ({ type := 1, key := 2, data := [] } : JObj)
      :: [] ∧ ({ type := 1, key := 2, data := [] } : JObj).count + 10 ≤ s.freeSlots) ∧
    (let s : State := { wready [] with jrn := { erasing := true, queue := [({ type := 1, key := 2, data := [] } : JObj)] } }
    s.jrn.erasing = true ∧ s.jrn.queue = ({ type := 1, key := 2, data := [] } : JObj) :: []) ∧
    (let s : State := { wready [] with jrn := { closing := some 2 } }
    s.jrn.closing = some 2 ∧ s.jrn.closed = false ∧ s.jrn.prog = none ∧ s.norOp ≠ 2 ∧ s.ready pgSto = true ∧ 0 < s.freeSlots) ∧
    (let s : State := wready []
    s.passes pgSto 255 = true ∧ (let v := s.set F.Nor.SAVE_PAGE pgSto 0x0B; v.on F.Nor.SAVE_BUSY pgSto = false ∧ v.retBytes
      (low 8 0x0B) ≠ [] ∧ v.journalOpen = true) ∧ (s.set F.Nor.SAVE_PAGE pgSto 255).retBytes (low 8 255) = []) ∧
    (let s : State := wready [(F.Nor.NOR_ADDR, pgSto, 0, 0x17FFFFF)]
    s.get F.Nor.NOR_STATUS_STATE pgSto ≠ 1 ∧ s.get F.Nor.NOR_STATUS_STATE pgSto ≠ 2 ∧ s.jrn.closing = none ∧ s.norReason 3
      (s.get F.Nor.NOR_ADDR pgSto) = 3 ∧ (3, Instr.norEraseSector 255) ∈ [(1, Instr.norReadPage 255), (2, .norProgramPage
      255), (3, .norEraseSector 255)]) ∧
    (let s : State := wready [(F.Nor.NOR_ADDR, pgSto, 0, 0x17FFFFF), (F.Nor.NOR_SIZE, pgSto, 0, 25)]
    s.norReason 3 (s.get F.Nor.NOR_ADDR pgSto) = 0) ∧
    (let s : State := wready [(F.Nor.NOR_STATUS_STATE, pgSto, 0, 1)]
    s.get F.Nor.NOR_STATUS_STATE pgSto = 1 ∧ s.jrn.prog = none ∧ s.jrn.erasing = false) ∧
    (let s : State := { wready [(F.Nor.NOR_STATUS_STATE, pgSto, 0, 1)] with jrn := { erasing := true } }
    s.get F.Nor.NOR_STATUS_STATE pgSto = 1 ∧ s.jrn.erasing = true) ∧
    (let s : State := { wready [(F.Nor.NOR_STATUS_STATE, pgSto, 0, 2)] with cpu := { norJob := some (2, 0x17FFFFF) } }
    s.get F.Nor.NOR_STATUS_STATE pgSto = 2 ∧ s.cpu.norJob = some (2, 0x17FFFFF) ∧ 0x17FFFFF / 256 * 256 + 256 ≤ areaBase ∧
      areaBase + 2 * areaBytes ≤ (2 ^ 25 - 1) / 256 * 256) :=
  ⟨by decide +kernel, by decide +kernel, by decide +kernel, by decide +kernel, by decide +kernel, by decide +kernel, by
      decide +kernel, by decide +kernel, by decide +kernel, by decide +kernel, by decide +kernel, by decide +kernel⟩

theorem wit_CoresTendersAndWatchdogs :
    (let s : State := { wready [(F.Cpu.LIMIT, pgCpu, 3, 65535)] with now := 65535000000 }
    3 < 4 ∧ s.getI F.Cpu.LIMIT pgCpu 3 ≠ 0 ∧ tget s.cpu.kickAt 3 0 + s.getI F.Cpu.LIMIT pgCpu 3 * 1000000 ≤ s.now ∧ s.getI
      F.Cpu.LIMIT pgCpu 0 = 0 ∧ s.passes pgCpu 255 = true ∧ 4 ≤ 4) ∧
    (let s : State := wready [(F.Cpu.RUN, pgCpu, 0, 8)]
    3 < 4 ∧ s.tenderRuns 3 = true ∧ s.tenderRuns 0 = false ∧ bitAt (s.get F.Cpu.RUN pgCpu) 3 ≠ bitAt 7 3 ∧ bitAt (s.get
      F.Cpu.RUN pgCpu) 3 = bitAt 15 3) :=
  ⟨by decide +kernel, by decide +kernel⟩

theorem wit_BootAndMaintenance :
    (let s : State := wready []
    s.ready pgSto = true ∧ s.cpu.boot = 0 ∧ s.cpu.boot ≠ 1 ∧ s.on F.Cpu.L2_MAINT_BUSY pgCpu = false ∧ s.passes pgCpu 255 =
      true ∧ (3, Instr.l2CleanInvalidate 255) ∈ [(1, Instr.l2Clean 255), (2, .l2Invalidate 255), (3, .l2CleanInvalidate 255)]) ∧
    (let s : State := { wready [] with cpu := { boot := 1, slot := 1 } }
    s.cpu.boot = 1 ∧ s.ready pgSto = true ∧ s.bootReason s.cpu.slot = 2) ∧
    (let s : State := { wready [(F.Colo.SECURE_BOOT, 1, 0, 0)]
      with cpu := { boot := 1, slot := 1, nor := [(0xC0000C, 4), (0xC0000D, 0), (0xC0000E, 0), (0xC0000F, 0), (0xC00010, 0), (0xC00011, 0), (0xC00012, 0), (0xC00013, 0), (0xC00014, 0), (0xC00015, 0), (0xC00016, 0), (0xC00017, 0), (0xC00018, 0), (0xC00019, 0), (0xC0001A, 0), (0xC0001B, 0)] } }
    s.cpu.slot = 1 ∧ s.bootReason 1 = 0 ∧ s.bootSum 1 ≠ s.bootDigest 1) ∧
    (let s : State := (let r : State := { wready [(F.Colo.SECURE_BOOT, 1, 0, 0)]
      with cpu := { boot := 1, slot := 1, nor := [(0xC0000C, 4), (0xC0000D, 0), (0xC0000E, 0), (0xC0000F, 0), (0xC00010, 0), (0xC00011, 0), (0xC00012, 0), (0xC00013, 0), (0xC00014, 0), (0xC00015, 0), (0xC00016, 0), (0xC00017, 0), (0xC00018, 0), (0xC00019, 0), (0xC0001A, 0), (0xC0001B, 0)] } };
      { r
      with cpu := { r.cpu with nor := r.cpu.nor ++ (List.range 32).zipWith (fun i b => (0xC00020 + i, b)) (beBytes 32 (r.bootSum 1)) } });
      s.bootReason 1 = 0 ∧ s.bootSum 1 = s.bootDigest 1 ∧ s.on F.Colo.SECURE_BOOT 1 = false) ∧
    (let s : State := { wready [(F.Cpu.L2_MAINT_BUSY, pgCpu, 0, 1)]
      with cpu := { l2Job := some (3, 2 ^ 34, 1), l2Bad := [2 ^ 34] } }
    s.on F.Cpu.L2_MAINT_BUSY pgCpu = true ∧ s.cpu.l2Job = some (3, 2 ^ 34, 1) ∧ 2 ^ 34 ∈ s.cpu.l2Bad ∧ sdramBase ≤ 64 * 2 ^
      34) :=
  ⟨by decide +kernel, by decide +kernel, by decide +kernel, by decide +kernel, by decide +kernel⟩

theorem wit_MailboxesAndRouter :
    (let s : State := { wready [] with cpu := { fifo := [(15, List.replicate 16 0), (0, [2 ^ 64 - 1])] } }
    7 < 8 ∧ 1 < 2 ∧ s.passes pgMbox 16 = true ∧ onSide 7 1 (agentOf 16) = true ∧ 16 ≤ (s.mbox 7 1).length ∧ (s.mbox 6
      1).length < 16 ∧ onSide 0 0 (agentOf 80) = false ∧ s.silent = false ∧ s.mbox 0 0 = (2 ^ 64 - 1) :: [] ∧ onSide 0 (1 - 0)
      (agentOf 80) = true ∧ s.mbox 1 0 = []) ∧
    (let s : State := { wready [(F.Sag.CHANNELS_OK, pgSag, 0, 3)] with cpu := { sagOut := [⟨5, 0, 1, false⟩] } }
    onSide 4 1 (agentOf 145) = true ∧ 145 % 16 ∈ (sagMsgExpire s).sagChannels ∧ (sagMsgExpire s).cpu.sagOut.find? (fun e =>
      e.data == 5 && !bitAt e.chans (145 % 16)) = some ⟨5, 0, 1, false⟩ ∧ (sagMsgExpire s).cpu.sagOut.find? (fun e => e.data
      == 6 && !bitAt e.chans (145 % 16)) = none ∧ 146 % 16 ∉ (sagMsgExpire s).sagChannels) ∧
    (let s : State := wready []
    7 < 8 ∧ s.silent = false ∧ s.bestFor 7 = none ∧ s.passes pgIrq 255 = true) ∧
    (let s : State := { wready [(F.Irq.ROUTE_TARGET, pgIrq, 0xCF, 128), (F.Irq.ROUTE_PRIO, pgIrq, 0xCF, 7)]
      with cpu := { fifo := [(15, [0])] } }
    s.silent = false ∧ s.bestFor 7 = some 0xCF) :=
  ⟨by decide +kernel, by decide +kernel, by decide +kernel, by decide +kernel⟩

theorem wit_RegisterWritesAndPool :
    (let s : State := wready []
    s.silent = false ∧ 0xFF < 256 ∧ present 0x0B3 = true ∧ 0xFFF % 4 ≠ 0 ∧ 0xFFF < 0x1000 ∧ 2 ^ 32 - 1 < 2 ^ 32) ∧
    (let s : State := wready []
    pgCore ∈ [1, 0x062, 0x068, 0x085, 0x086, 0x0AB, 0x0AC] ∧ s.passes pgCore 255 = true ∧ 0x40 ≤ 0x44 ∧ 0x44 < 0x800 ∧ 0x44 %
      4 = 0 ∧ s.fnRuns pgCore F.Core.FSW 0 = false ∧ s.heldHit pgCore 0x44 0 = false ∧ (F.Core.FSW, 0) ∈ wordFields pgCore
      0x44 ∧ F.Core.FSW.reserved 3 = true ∧ F.Core.FSW.reserved 2 = false) ∧
    (let s : State := wready [(F.Seq.ON, pgSeq, 0, 1)]
    s.fnRuns pgCore F.Core.FSW 0 = true ∧ s.heldHit pgCore 0x44 (2 ^ 32 - 1) = true) ∧
    (let s : State := wready [(F.Hdr.COMMIT_STATE, 0x06C, 0, 2)]
    0x06C ∈ [0x062, 0x068, 0x06C] ∧ s.passes 0x06C 255 = true ∧ 0x840 ≤ 0xFFC ∧ 0xFFC < 0x1000 ∧ 0xFFC % 4 = 0 ∧ s.cstate
      0x06C = 2 ∧ s.cstate 0x068 ≠ 2) ∧
    (let s : State := wready []
    0x0B3 ≠ pgCal ∧ within 0x0B3 0x06C 0x06F = false ∧ s.passes 0x0B3 255 = true ∧ winClass 0x0B3 0xFC = .l ∧ 0x0B3 < 256 ∧
      0xFC % 4 = 0) :=
  ⟨by decide +kernel, by decide +kernel, by decide +kernel, by decide +kernel, by decide +kernel⟩

/-! ### What is not well formed is refused -/

theorem test_wf_isOwner : Instr.wf (.lockAcquire 0 256) = false ∧ Instr.wf (.lockAcquire 0 255) = true := by decide
theorem test_wf_isPage : Instr.wf (.controlQuiesce 256) = false ∧ Instr.wf (.controlQuiesce 255) = true := by decide
theorem test_wf_isPort : Instr.wf (.portArmed 48) = false ∧ Instr.wf (.portArmed 47) = true := by decide
theorem test_wf_isRegion : Instr.wf (.regionFolioStart 4) = false ∧ Instr.wf (.regionFolioStart 3) = true := by decide
theorem test_wf_isLink : Instr.wf (.linkSilent 3) = false ∧ Instr.wf (.linkSilent 2) = true := by decide
theorem test_wf_isSlot : Instr.wf (.slotEnable 0 4 0) = false ∧ Instr.wf (.slotEnable 0 3 0) = true := by decide
theorem test_wf_isEight : Instr.wf (.claim 8) = false ∧ Instr.wf (.claim 7) = true := by decide
theorem test_wf_isFour : Instr.wf (.zqDue 4) = false ∧ Instr.wf (.zqDue 3) = true := by decide
theorem test_wf_isUnit : Instr.wf (.compareMatch 32) = false ∧ Instr.wf (.compareMatch 31) = true := by decide
theorem test_wf_isStream : Instr.wf (.pipelineLine 9 none 0) = false ∧ Instr.wf (.pipelineLine 8 none 0) = true := by decide
theorem test_wf_isDie : Instr.wf (.channelWatchdogTimeout 3) = false ∧ Instr.wf (.channelWatchdogTimeout 2) = true := by decide
theorem test_wf_isWord : Instr.wf (.safeHoldCauseClear (2 ^ 32) 0) = false ∧ Instr.wf (.safeHoldCauseClear (2 ^ 32 - 1) 0) = true := by decide
theorem test_wf_isTwo : Instr.wf (.netLinkUp 2) = false ∧ Instr.wf (.netLinkUp 1) = true := by decide
theorem test_wf_isLane : Instr.wf (.markerMiss 50) = false ∧ Instr.wf (.markerMiss 49) = true := by decide
theorem test_wf_isOffset : Instr.wf (.countCapture 0 (2 ^ 22) 0) = false ∧ Instr.wf (.countCapture 0 (2 ^ 22 - 4) 0) = true := by decide
theorem test_wf_isPhase : Instr.wf (.indexEvent 0 7 (false, none) 16) = false ∧ Instr.wf (.indexEvent 0 7 (false, none) 15) = true := by decide
theorem test_wf_isSix : Instr.wf (.calSave 64 0) = false ∧ Instr.wf (.calSave 63 0) = true := by decide
theorem test_wf_isLock : Instr.wf (.lockAcquire 64 0) = false ∧ Instr.wf (.lockAcquire 63 0) = true := by decide
theorem test_wf_isRail : Instr.wf (.railRiseTimeout 16) = false ∧ Instr.wf (.railRiseTimeout 15) = true := by decide
theorem test_wf_isRequester : Instr.wf (.stacksRequest 15 false 0 false 1 []) = false ∧ Instr.wf (.stacksRequest 14 false 0 false 1 []) = true := by decide
theorem test_wf_isCluster : Instr.wf (.lanePllLock 12) = false ∧ Instr.wf (.lanePllLock 11) = true := by decide
theorem test_wf_isHeader : Instr.wf (.ringHeaderRead 0 16 0) = false ∧ Instr.wf (.ringHeaderRead 0 15 0) = true := by decide

end Sys2Proof.Tests
end

section
/-! Statements about the clock cycle and the event registers. -/

-- One declaration after another, as in the files before: the text is also checked in one piece.
set_option Elab.async false

namespace Sys2Proof.Machine

/-- Settles O6: with no command waiting a step is one tick. -/
theorem emptyQueuePassesOneCycle : Obligations.EmptyQueuePassesOneCycle := by
  unfold Obligations.EmptyQueuePassesOneCycle
  intro s hc hp
  obtain ⟨-, hnow, hpend⟩ := canonical_tick hc
  exact ⟨tick s, by rw [step, hp], hnow, hpend.trans hp⟩

/-! ### The event registers -/

/-- A mask of one bit. -/
theorem bitAt_two_pow (i j : Nat) : bitAt (2 ^ i) j = decide (i = j) := by
  rw [bitAt_eq_testBit, Nat.testBit_two_pow]

/-- What a bit of a W1C field is after a write: a 1 clears it, unless it set in this cycle (R14). -/
theorem bitAt_cleared (s : State) (f : Fld) (pg data v : Nat) {i : Nat} (hi : i < f.w) :
    bitAt (s.cleared f pg data v) i = (bitAt v i && !(bitAt data i && !s.stampedNow (setKey f pg i))) := by
  unfold State.cleared
  rw [clear_fold]
  simp [hi]

/-- A write of EVENT_FORCE with one bit raises the event that the page has for it (R91). -/
theorem eventForce_two_pow (s : State) {pg i : Nat} {e : Ev} (hi : i < 32)
    (he : (pageEvents pg).find? (fun e => e.bit == i) = some e) :
    eventForce pg (2 ^ i) s = s.raiseX e pg (2 ^ 64 - 1) 0 e.sev true := by
  unfold eventForce
  rw [forAll_single _ _ _ i (List.mem_range.mpr hi) List.nodup_range]
  · simp [bitAt_two_pow, he]
  · intro j _ hj s
    simp [bitAt_two_pow, Ne.symm hj]

/-- Settles O8: the bits of a word written to EVENT_STATUS one by one, and one bit of EVENT_FORCE as one event. -/
theorem eventRegistersClearAndForce : Obligations.EventRegistersClearAndForce := by
  unfold Obligations.EventRegistersClearAndForce
  intro s pg hp hs
  have up : present pg = true ∧ (!s.silent) = true := ⟨hp, by rw [hs]; rfl⟩
  refine ⟨fun mask => ⟨eventClear pg mask s, ?_, fun i hi => ?_, s.onlyRegs_setI _ _ _ _⟩,
    fun i hi e he hl => ⟨_, ?_, rfl, ?_, s.onlyEvents_raiseX _ _ _ _ _ hl⟩⟩
  · simp only [exec, execEventStatusClear, if_pos up]
  · rw [eventClear, State.get_set_self, bitAt_low (w := F.Hdr.EVENT_STATUS.w) hi, bitAt_cleared _ _ _ _ _ hi]
  · simp only [exec, execEventForce, if_pos up, eventForce_two_pow s hi he]
  · have hb : e.bit = i := by simpa using List.find?_some he
    rw [← hb]
    exact s.raiseX_bit e _ _ _ _ hl (hb ▸ hi)

end Sys2Proof.Machine
end

section
/-! Mode requests, Safe-Hold causes and power cycles. -/

-- One declaration after another, as in the files before: the text is also checked in one piece.
set_option Elab.async false

namespace Sys2Proof.Machine

/-! ### Mode requests -/

/-- The fields that a GO stores before it is judged. -/
def goKeys : List Nat := [F.Mode.STOP_NOW.key pgMode 0, F.Mode.REQ_MODE.key pgMode 0]

/-- A GO with STOP_NOW and REQ_MODE stored. -/
def goStored (req : Nat) (stop : Bool) (s : State) : State :=
  (s.set F.Mode.STOP_NOW pgMode (bit stop)).set F.Mode.REQ_MODE pgMode req

theorem goStored_onlyRegs (req : Nat) (stop : Bool) (s : State) : s.OnlyRegs (goStored req stop s) goKeys :=
  (s.onlyRegs_setI F.Mode.STOP_NOW pgMode 0 _).setI F.Mode.REQ_MODE pgMode 0 _

/-- A field of the mode page that a GO does not store is as before. -/
theorem goStored_get (req : Nat) (stop : Bool) (s : State) {f : Fld} (hk : f.key pgMode 0 ∉ goKeys) :
    (goStored req stop s).get f pgMode = s.get f pgMode := (goStored_onlyRegs req stop s).getI hk

/-- A field of another page, or of the mode page's header, is as before. -/
theorem goStored_getI_other (req : Nat) (stop : Bool) (s : State) {f : Fld} {pg i : Nat}
    (hf : f.off + i * f.stride < 4096) (hl : f.lo < 32) (h : pg ≠ pgMode ∨ f.off + i * f.stride < 0x40) :
    (goStored req stop s).getI f pg i = s.getI f pg i := by
  refine (goStored_onlyRegs req stop s).getI fun hk => ?_
  rcases h with h | h <;>
    simp only [goKeys, Fld.key, F.Mode.STOP_NOW, F.Mode.REQ_MODE, Fld.resv, fld, pgMode,
      List.mem_cons, List.not_mem_nil, or_false] at hk h <;> omega

theorem goStored_missingPages (req : Nat) (stop : Bool) (s : State) :
    (goStored req stop s).missingPages = s.missingPages := by
  unfold State.missingPages
  refine List.filter_congr fun pg hpg => ?_
  have hreq : (goStored req stop s).getI F.Rdy.REQUIRED pgReady (pg / 32) = s.getI F.Rdy.REQUIRED pgReady (pg / 32) := by
    refine goStored_getI_other _ _ _ ?_ (by decide) (.inl (by decide))
    simp only [F.Rdy.REQUIRED, fld, Fld.arr]
    have := List.mem_range.mp hpg
    omega
  have hready : (goStored req stop s).ready pg = s.ready pg := by
    unfold State.ready State.on State.get
    rw [goStored_getI_other _ _ _ (by decide) (by decide) (.inr (by decide))]
  rw [hreq, hready]

/-- The fields stored with a GO do not bear on its refusal (R101). -/
theorem goStored_goRefusal (req : Nat) (stop : Bool) (s : State) (dst : Nat) :
    (goStored req stop s).goRefusal dst = s.goRefusal dst := by
  have hcause : (goStored req stop s).causeNow = s.causeNow := rfl
  have hsag : sagOperate (goStored req stop s) = sagOperate s := by
    unfold sagOperate State.on State.get
    rw [goStored_getI_other _ _ _ (by decide) (by decide) (.inl (by decide))]
  unfold State.goRefusal State.modeNow State.inTransition State.on
  rw [hcause, hsag, goStored_missingPages, goStored_get _ _ _ (by decide), goStored_get _ _ _ (by decide),
    goStored_get _ _ _ (by decide)]

/-- The reasons of Table 3-3. -/
theorem goRefusal_le (s : State) (dst : Nat) : s.goRefusal dst ≤ 5 := by
  unfold State.goRefusal
  dsimp only
  repeat' split
  all_goals decide

/-- Only Idle leads to Print and Service, by a GO (Table 3-2). -/
theorem modeNow_of_goRefusal_zero {s : State} {dst : Nat} (h : s.goRefusal dst = 0) (hd : dst = 3 ∨ dst = 4) :
    s.modeNow = 2 := by
  have hl : goLegal s.modeNow dst = true := by
    by_contra hl
    have hl : (!goLegal s.modeNow dst) = true := by simpa using hl
    simp only [State.goRefusal, hl, if_true] at h
    revert h
    split_ifs <;> decide
  rcases hd with rfl | rfl <;> simpa [goLegal] using hl

theorem modeGo_refused (s : State) {req : Nat} (stop : Bool) (hr : req < 6) (h5 : req ≠ 5) (h : s.goRefusal req ≠ 0) :
    modeGo req stop s = ((goStored req stop s).set F.Mode.REFUSE_REASON pgMode (s.goRefusal req)).raise Ev.regModeRefused
      pgMode (req * 256 + s.goRefusal req) := by
  have hg := goStored_goRefusal req stop s req
  unfold goStored at hg ⊢
  simp only [modeGo, if_pos hr, if_neg h5, hg, if_pos h]

theorem modeGo_begins (s : State) {req : Nat} (stop : Bool)
    (hreq : (req = 2 ∧ s.modeNow ≠ 3 ∧ s.modeNow ≠ 4) ∨ req = 3 ∨ req = 4) (h : s.goRefusal req = 0) :
    modeGo req stop s = startTransition req
      { goStored req stop s with mode := { s.mode with goAt := some (s.now, req) } } := by
  have hstay : ¬(s.modeNow = 3 ∨ s.modeNow = 4) := by
    rcases hreq with ⟨-, h3, h4⟩ | hd
    · simp [h3, h4]
    · simp [modeNow_of_goRefusal_zero h hd]
  have hm : (goStored req stop s).modeNow = s.modeNow := goStored_get req stop s (by decide)
  have hr : req < 6 ∧ req ≠ 5 ∧ req ≠ 0 := by omega
  obtain ⟨h6, h5, h0⟩ := hr
  have hg := goStored_goRefusal req stop s req
  rw [h] at hg
  rw [← hm] at hstay
  unfold goStored at hg hstay ⊢
  simp only [modeGo, if_pos h6, if_neg h5, hg, ne_eq, not_true, if_false, if_neg h0, if_neg hstay]
  rfl

theorem modeGo_five (s : State) (stop : Bool) : modeGo 5 stop s = setCause 4 (goStored 5 stop s) := by
  simp only [modeGo, goStored, if_pos]; rfl

/-! ### Safe-Hold causes -/

/-- With no GO accepted in this cycle there is none to refuse (R104). -/
theorem refuseGo_eq_self {s : State} (h : ∀ r, s.mode.goAt ≠ some (s.now, r)) : refuseGo s = s := by
  unfold refuseGo
  split
  · rename_i t req hgo
    exact if_neg fun ht => h req (by rw [hgo, ht])
  · rfl

/-- A Safe-Hold cause bit set, with the instant at which it set (R14). -/
def causeLatched (i : Nat) (s : State) : State :=
  (s.set F.Mode.SAFE_HOLD_CAUSE pgMode (setBit (s.get F.Mode.SAFE_HOLD_CAUSE pgMode) i)).stamp
    (setKey F.Mode.SAFE_HOLD_CAUSE pgMode i) s.now

theorem causeLatched_regsBut (i : Nat) (s : State) : s.RegsBut (causeLatched i s) [F.Mode.SAFE_HOLD_CAUSE.key pgMode 0] :=
  (s.onlyRegs_setI F.Mode.SAFE_HOLD_CAUSE pgMode 0 _).2

theorem causeLatched_get (i : Nat) (s : State) {f : Fld} (hf : f.key pgMode 0 ≠ F.Mode.SAFE_HOLD_CAUSE.key pgMode 0) :
    (causeLatched i s).get f pgMode = s.get f pgMode := State.get_set_ne s _ hf

/-- A cause that sets outside Dormant, Safe-Hold and Safe-Hold entry, with no GO to refuse, begins the entry (R102). -/
theorem setCause_begins {s : State} (i : Nat) (h0 : s.modeNow ≠ 0) (h5 : s.modeNow ≠ 5)
    (ht : ¬(s.inTransition = true ∧ s.target = 5)) (hgo : ∀ r, s.mode.goAt ≠ some (s.now, r)) :
    setCause i s = startTransition 5 (leaveDormant (causeLatched i s)) := by
  have hgo' : refuseGo (causeLatched i s) = causeLatched i s := refuseGo_eq_self hgo
  have hm : (causeLatched i s).modeNow = s.modeNow := causeLatched_get i s (by decide)
  have htr : (causeLatched i s).inTransition = s.inTransition := by
    unfold State.inTransition State.on; rw [causeLatched_get i s (by decide)]
  have htg : (causeLatched i s).target = s.target := causeLatched_get i s (by decide)
  unfold causeLatched at hgo' hm htr htg ⊢
  simp only [setCause, if_neg h0, hgo', hm, htr, htg, if_neg h5, if_neg ht]

/-- Leaving the way to Dormant changes no register. -/
theorem leaveDormant_frame (s : State) :
    leaveDormant s = { s with mode := (leaveDormant s).mode, jrn := (leaveDormant s).jrn } := by
  unfold leaveDormant; split <;> rfl

/-- What a transition that begins stores. -/
theorem startTransition_onlyRegs (dst : Nat) (s : State) :
    s.OnlyRegs (startTransition dst s) [F.Mode.IN_TRANSITION.key pgMode 0, F.Mode.TARGET_MODE.key pgMode 0] :=
  (s.onlyRegs_setI F.Mode.IN_TRANSITION pgMode 0 1).setI F.Mode.TARGET_MODE pgMode 0 dst

theorem startTransition_modeNow (dst : Nat) (s : State) : (startTransition dst s).modeNow = s.modeNow :=
  (startTransition_onlyRegs dst s).getI (by decide)

theorem startTransition_inTransition (dst : Nat) (s : State) : (startTransition dst s).inTransition = true := by
  unfold State.inTransition State.on startTransition
  rw [State.get_set_off _ (by decide), State.get_set_self]
  decide

theorem startTransition_target {dst : Nat} (h : dst < 8) (s : State) : (startTransition dst s).target = dst := by
  unfold State.target startTransition
  rw [State.get_set_self]
  exact low_of_lt h

/-- What a bit of SAFE_HOLD_CAUSE is after a write of a mask (R14, R103). -/
theorem bitAt_causeClear (s : State) (mask : Nat) {i : Nat} (hi : i < 7) :
    bitAt ((causeClear mask s).get F.Mode.SAFE_HOLD_CAUSE pgMode) i = (bitAt (s.get F.Mode.SAFE_HOLD_CAUSE pgMode) i &&
      !(bitAt mask i && !bitAt s.causesPresent i && !s.stampedNow (setKey F.Mode.SAFE_HOLD_CAUSE pgMode i))) := by
  rw [causeClear, State.get_set_self, bitAt_low (w := F.Mode.SAFE_HOLD_CAUSE.w) hi, clear_fold]
  simp [hi]

/-- A GO that passes. -/
theorem execModeGo_passes {s : State} {owner req : Nat} (hp : s.passes pgMode owner = true) (hr : req < 8) (stop : Bool) :
    exec (.modeGo req stop owner) s = .next (modeGo req stop s) := by
  simp only [exec, execModeGo, gateReg_passes hp, show low 3 req = req from low_of_lt hr]

theorem modeGo_refused_facts (s : State) {req : Nat} (stop : Bool) (hr : req < 6) (h5 : req ≠ 5) (h : s.goRefusal req ≠ 0) :
    let t := modeGo req stop s
    t.modeNow = s.modeNow ∧ t.inTransition = s.inTransition ∧ t.get F.Mode.REFUSE_REASON pgMode = s.goRefusal req ∧
      t.get F.Mode.REQ_MODE pgMode = req ∧ bitAt (t.get F.Hdr.EVENT_STATUS pgMode) Ev.regModeRefused.bit = true ∧
      s.OnlyEvents t pgMode [F.Mode.STOP_NOW.key pgMode 0, F.Mode.REQ_MODE.key pgMode 0, F.Mode.REFUSE_REASON.key pgMode 0] := by
  intro t
  obtain ⟨u, hu⟩ : ∃ u, u = (goStored req stop s).set F.Mode.REFUSE_REASON pgMode (s.goRefusal req) := ⟨_, rfl⟩
  have ht : t = u.raise Ev.regModeRefused pgMode (req * 256 + s.goRefusal req) := by
    rw [hu]; exact modeGo_refused s stop hr h5 h
  have hreg : s.OnlyRegs u [F.Mode.STOP_NOW.key pgMode 0, F.Mode.REQ_MODE.key pgMode 0, F.Mode.REFUSE_REASON.key pgMode 0] := by
    rw [hu]; exact (goStored_onlyRegs req stop s).setI F.Mode.REFUSE_REASON pgMode 0 _
  have hget : ∀ f : Fld, (f.off + 0 * f.stride) * 32 + f.lo ≠ 512 ∧ f.off + 0 * f.stride < 4096 ∧ f.lo < 32 →
      t.get f pgMode = u.get f pgMode := fun f ⟨h1, h2, h3⟩ => by
    rw [ht]; exact State.get_raise_off u _ (by decide) h1 h2 h3
  refine ⟨?_, ?_, ?_, ?_, ?_, ?_⟩
  · exact (hget F.Mode.MODE (by decide)).trans (hreg.getI (by decide))
  · unfold State.inTransition State.on
    rw [hget _ (by decide)]
    exact congrArg (· == 1) (hreg.getI (by decide))
  · rw [hget _ (by decide), hu, State.get_set_self]
    exact low_of_lt (lt_of_le_of_lt (goRefusal_le s req) (by decide))
  · rw [hget _ (by decide), hu, State.get_set_off _ (by decide), goStored, State.get_set_self]
    exact low_of_lt (lt_trans hr (by decide))
  · rw [ht]; exact State.raise_bit _ _ _ (by decide) (by decide)
  · rw [ht]; exact hreg.events (u.onlyEvents_raise _ _ (by decide)) (by decide)

theorem modeGo_begins_facts (s : State) {req : Nat} (stop : Bool)
    (hreq : (req = 2 ∧ s.modeNow ≠ 3 ∧ s.modeNow ≠ 4) ∨ req = 3 ∨ req = 4) (h : s.goRefusal req = 0) :
    let t := modeGo req stop s
    t.modeNow = s.modeNow ∧ t.inTransition = true ∧ t.target = req ∧
      ({ s with mode := { s.mode with goAt := some (s.now, req) } } : State).OnlyRegs t [F.Mode.STOP_NOW.key pgMode 0,
        F.Mode.REQ_MODE.key pgMode 0, F.Mode.IN_TRANSITION.key pgMode 0, F.Mode.TARGET_MODE.key pgMode 0] := by
  intro t
  have ht : t = startTransition req (goStored req stop { s with mode := { s.mode with goAt := some (s.now, req) } }) :=
    modeGo_begins s stop hreq h
  rw [ht]
  have hr : req < 8 := by omega
  refine ⟨?_, startTransition_inTransition _ _, startTransition_target hr _,
    (goStored_onlyRegs req stop _).trans (startTransition_onlyRegs req _)⟩
  rw [startTransition_modeNow]
  exact goStored_get req stop _ (by decide)

theorem modeGo_five_facts (s : State) (stop : Bool) (h0 : s.modeNow ≠ 0) (h5 : s.modeNow ≠ 5)
    (htr : ¬(s.inTransition = true ∧ s.target = 5)) (hgo : ∀ r, s.mode.goAt ≠ some (s.now, r)) :
    let t := modeGo 5 stop s
    t.modeNow = s.modeNow ∧ t.inTransition = true ∧ t.target = 5 ∧
      bitAt (t.get F.Mode.SAFE_HOLD_CAUSE pgMode) 4 = true ∧
      t = { s with regs := t.regs, mode := t.mode, jrn := t.jrn, stamps := t.stamps } ∧
      s.RegsBut t [F.Mode.STOP_NOW.key pgMode 0, F.Mode.REQ_MODE.key pgMode 0, F.Mode.SAFE_HOLD_CAUSE.key pgMode 0,
        F.Mode.IN_TRANSITION.key pgMode 0, F.Mode.TARGET_MODE.key pgMode 0] := by
  intro t
  obtain ⟨u, hu⟩ : ∃ u, u = goStored 5 stop s := ⟨_, rfl⟩
  have hus : s.OnlyRegs u goKeys := hu ▸ goStored_onlyRegs 5 stop s
  have hget : ∀ f : Fld, f.key pgMode 0 ∉ goKeys → u.get f pgMode = s.get f pgMode := fun f hf => hus.getI hf
  have hum : u.modeNow = s.modeNow := hget _ (by decide)
  have htu : t = setCause 4 u := by rw [hu]; exact modeGo_five s stop
  have ht : t = startTransition 5 (leaveDormant (causeLatched 4 u)) := by
    refine htu.trans (setCause_begins 4 (by rwa [hum]) (by rwa [hum]) ?_ (by rw [hus.1]; exact hgo))
    unfold State.inTransition State.on State.target
    rw [hget _ (by decide), hget _ (by decide)]
    exact htr
  have hreg := startTransition_onlyRegs 5 (leaveDormant (causeLatched 4 u))
  rw [← ht] at hreg
  refine ⟨?_, ?_, ?_, ?_, ?_, fun k hk => ?_⟩
  · rw [htu, (setCause_mode 4 u).1, hum]
  · rw [ht]; exact startTransition_inTransition _ _
  · rw [ht]; exact startTransition_target (by decide) _
  · rw [htu]; exact setCause_bit 4 u (by rwa [hum]) (by decide)
  · rw [hreg.1, leaveDormant_frame, causeLatched, hus.1]; rfl
  · simp only [List.mem_cons, List.not_mem_nil, or_false, not_or] at hk
    obtain ⟨kstop, kreq, kcause, ktr, ktg⟩ := hk
    rw [hreg.2 k (by simp [ktr, ktg]), leaveDormant_regs, causeLatched_regsBut 4 u k (by simp [kcause]),
      hus.2 k (by simp [goKeys, kstop, kreq])]

/-- Settles O14, by what `modeGo` is in each of its branches. -/
theorem modeRequests : Obligations.ModeRequests := by
  unfold Obligations.ModeRequests
  intro s owner hp
  refine ⟨fun req hr stop h5 h => ⟨_, execModeGo_passes hp (by omega) stop, modeGo_refused_facts s stop hr h5 h⟩,
    fun req stop hreq h => ⟨_, execModeGo_passes hp (by omega) stop, modeGo_begins_facts s stop hreq h⟩,
    fun stop h0 h5 ht _ hgo => ⟨_, execModeGo_passes hp (by omega) stop, modeGo_five_facts s stop h0 h5 ht hgo⟩,
    fun mask => ⟨causeClear mask s, ?_, fun i hi => bitAt_causeClear s mask hi, s.onlyRegs_setI _ _ _ _⟩⟩
  simp only [exec, execSafeHoldCauseClear, gateReg_passes hp]

/-! ### Power cycles -/

/-- A wake's cause has the four bits of RESET_CAUSE (Table 3-7). -/
theorem wakeCause_lt (s : State) : s.wakeCause < 16 := by unfold State.wakeCause; split <;> decide

/-- PORST_n is released while it is held (R620). -/
theorem execPorstRelease_porst (lost : Bool) {s : State} (h : s.mode.porst = true) :
    exec (.porstRelease lost) s = .next (powerUp (if lost then 1 else 2) s) := congrArg Host.Outcome.next (if_pos h)

/-- Settles O16: each way up runs `powerUp`, each way down `blockPowerUp`. -/
theorem powerCycles : Obligations.PowerCycles := by
  unfold Obligations.PowerCycles
  intro s
  refine ⟨fun c hc hdue => ?_, q10_porst s, q10_dorm s, q10_loss s, q10_safe s⟩
  have hcause := wakeCause_lt s
  simp only [List.mem_cons, List.not_mem_nil, or_false] at hc
  rcases hc with rfl | rfl | rfl | rfl
  · exact ⟨_, execPorstRelease_porst true hdue, powerUp_facts 1 s (by decide)⟩
  · exact ⟨_, execPorstRelease_porst false hdue, powerUp_facts 2 s (by decide)⟩
  · simp only [Bool.and_eq_true, beq_iff_eq, Bool.not_eq_true'] at hdue
    obtain ⟨⟨hm, hporst⟩, hpin⟩ := hdue
    exact ⟨_, congrArg Host.Outcome.next (if_pos ⟨hm, hporst, hpin⟩), powerUp_facts _ s hcause⟩
  · simp only [Bool.and_eq_true, beq_iff_eq, Bool.not_eq_true', decide_eq_true_eq] at hdue
    obtain ⟨⟨⟨hm, hporst⟩, htimer⟩, htime⟩ := hdue
    exact ⟨_, congrArg Host.Outcome.next (if_pos ⟨hm, hporst, htimer, htime⟩), powerUp_facts _ s hcause⟩

end Sys2Proof.Machine
end

section
/-! Synchronous-serial frames, PRESET, MISMATCH and captures of a position channel. -/

-- One declaration after another, as in the files before: the text is also checked in one piece.
set_option Elab.async false

namespace Sys2Proof.Machine

/-! ### Synchronous-serial frames -/

/-- A channel in which an SSI frame begins now (R234). -/
def ssiStarted (ch : Nat) (s : State) : State :=
  s.updPos ch (fun p => { p with
    frame := some s.now, lastStart := some s.now, gapEnd := s.now + s.ssiClocks ch + s.get F.Pos.GAP (pgPos ch) * 1000 })

/-- A frame is due when there was none, or its period and its gap are over (R234). -/
theorem ssiFrameStart_due {s : State} {ch : Nat} (hc : ch < 4) (hon : s.chOn ch = true) (hm : s.chMode ch 2 = true)
    (hf : (s.posOf ch).frame = none) (hdue : ∀ t, (s.posOf ch).lastStart = some t →
      t + s.get F.Pos.PERIOD (pgPos ch) * 1000 ≤ s.now ∧ (s.posOf ch).gapEnd ≤ s.now) :
    exec (.ssiFrameStart ch) s = .next (ssiStarted ch s) := by
  refine congrArg Host.Outcome.next (if_pos ⟨hc, hon, hm, hf, ?_⟩)
  cases hl : (s.posOf ch).lastStart with
  | none => rfl
  | some t => simpa using hdue t hl

/-- Bits of an SSI value. -/
def State.ssiBits (s : State) (ch : Nat) : Nat := s.get F.Pos.BITS_M1 (pgPos ch) + 1

/-- The replicas of a mask after a frame that began at `t0` and gave the value `v`; those that discard it are as before. -/
def ssiTaken (ch reps raw par : Nat) (dh gh : Bool) (t0 v : Nat) (s : State) : State :=
  s.updPos ch (fun p => { p.upd reps (fun r =>
    if s.ssiReason ch r v (low (s.ssiBits ch) raw) (low 1 par) dh gh = 0 then
      (r.accept (s.ssiBits ch) (t0 * 16) v (s.on F.Pos.DIR_INVERT (pgPos ch))).1 else r) with frame := none })

section
variable {s : State} {ch reps raw par t0 v : Nat} {dh gh : Bool}

theorem ssiTaken_frame : ((ssiTaken ch reps raw par dh gh t0 v s).posOf ch).frame = none := by
  unfold ssiTaken; rw [posOf_upd]

theorem ssiTaken_hub (hb : bitAt reps 0 = true) : ((ssiTaken ch reps raw par dh gh t0 v s).posOf ch).hub =
    if s.ssiReason ch (s.posOf ch).hub v (low (s.ssiBits ch) raw) (low 1 par) dh gh = 0 then
      ((s.posOf ch).hub.accept (s.ssiBits ch) (t0 * 16) v (s.on F.Pos.DIR_INVERT (pgPos ch))).1 else (s.posOf ch).hub := by
  unfold ssiTaken
  rw [posOf_upd]
  exact upd_hub1 _ _ _ hb

variable (hc : ch < 4) (hf : (s.posOf ch).frame = some t0) (ho : s.ssiOver ch t0 = true) (hb : bitAt reps 0 = true)
  (hv : v = if s.on F.Pos.GRAY (pgPos ch) then grayDecode 5 (low (s.ssiBits ch) raw) else low (s.ssiBits ch) raw)
include hc hf ho hb hv

/-- A frame that the hub accepts: at most DIRECTION changes beside the replicas (R234, R236). -/
theorem ssiFrameEnd_good (hr : s.ssiReason ch (s.posOf ch).hub v (low (s.ssiBits ch) raw) (low 1 par) dh gh = 0) :
    ∃ t, exec (.ssiFrameEnd ch reps raw par dh gh) s = .next t ∧
      t.posOf ch = (ssiTaken ch reps raw par dh gh t0 v s).posOf ch := by
  unfold State.ssiBits at hv hr
  simp only [exec, execSsiFrameEnd, hf, if_pos (And.intro hc ho), ← hv, if_pos hb, hr, ne_eq, not_true, if_false]
  refine ⟨_, rfl, ?_⟩
  split <;> rfl

/-- A frame that the hub discards is counted and raises POS.SSI_ERROR (R235). -/
theorem ssiFrameEnd_bad (hr : s.ssiReason ch (s.posOf ch).hub v (low (s.ssiBits ch) raw) (low 1 par) dh gh ≠ 0) :
    ∃ arg, exec (.ssiFrameEnd ch reps raw par dh gh) s = .next
      (((ssiTaken ch reps raw par dh gh t0 v s).sat F.Pos.SSI_ERROR_COUNT (pgPos ch)).raise Ev.posSsiError (pgPos ch) arg) := by
  unfold State.ssiBits at hv hr
  simp only [exec, execSsiFrameEnd, hf, if_pos (And.intro hc ho), ← hv, if_pos hb, if_pos hr]
  exact ⟨_, rfl⟩

end

/-! ### PRESET -/

/-- A restart keeps the count, takes it as the position and stands still (R243). -/
theorem obsRestart_rep (ch die : Nat) (s : State) :
    ((obsRestart ch s).posOf ch).rep die = Replica.restart s.now (((s.posOf ch).rep die)) := by
  show ((s.updPos ch fun p => p.upd 7 (Replica.restart s.now)).posOf ch).rep die = _
  rw [posOf_upd, upd7_rep]

theorem obsRestart_regsBut (ch : Nat) (s : State) :
    s.RegsBut (obsRestart ch s) [F.Pos.SPEED.key (pgPos ch) 0, F.Pos.ACCEL.key (pgPos ch) 0] :=
  (((s.updPos ch fun p => p.upd 7 (Replica.restart s.now)).onlyRegs_setI F.Pos.SPEED (pgPos ch) 0 0).setI
    F.Pos.ACCEL (pgPos ch) 0 0).2

/-- A channel whose replicas hold POS_PRESET. -/
def presetLoaded (ch : Nat) (s : State) : State :=
  s.updPos ch (fun p => p.upd 7 (fun r => { r with count := s.get2 F.Pos.POS_PRESET_LO F.Pos.POS_PRESET_HI (pgPos ch) 0 }))

theorem chPreset_stopped {ch : Nat} {s : State} (h : s.stopped (pgPos ch) = true) :
    chPreset ch s = obsRestart ch (presetLoaded ch s) := by
  unfold chPreset; rw [if_pos h]; rfl

theorem presetLoaded_count (ch die : Nat) (s : State) :
    (((presetLoaded ch s).posOf ch).rep die).count = s.get2 F.Pos.POS_PRESET_LO F.Pos.POS_PRESET_HI (pgPos ch) 0 := by
  unfold presetLoaded; rw [posOf_upd, upd7_rep]

/-- PRESET of a running channel (R15, R238). -/
theorem chPreset_running {ch : Nat} {s : State} (h : s.stopped (pgPos ch) = false) :
    chPreset ch s = s.raise Ev.regWriteWhileRunning (pgPos ch) (arg64 1 (placeArg false 0x5C)) := by
  unfold chPreset; rw [h]; rfl

theorem execChPreset_passes {ch owner : Nat} {s : State} (hc : ch < 4) (hp : s.passes (pgPos ch) owner = true) :
    exec (.chPreset ch owner) s = .next (chPreset ch s) := by
  simp only [exec, execChPreset, if_pos hc, gateReg_passes hp]

/-! ### Captures -/

/-- A channel with the upper bits of its count captured for the agent of an owner, and the lower ones returned (R256). -/
def countCaptured (ch owner : Nat) (s : State) : State :=
  { s.updPos ch (fun p => { p with caps := tput p.caps (agentOf owner * 2) ((s.posOf ch).hub.count / 2 ^ 32) }) with
    resp := .data (low 32 (s.posOf ch).hub.count) }

/-- A read of COUNT_LO. -/
theorem countCapture_lo {ch : Nat} (hc : ch < 4) (owner : Nat) {s : State} (hs : s.silent = false) :
    exec (.countCapture ch 0x60 owner) s = .next (countCaptured ch owner s) := by
  simp [exec, execCountCapture, countCaptured, hs, hc]

/-- A read of COUNT_HI where the requester has a capture. -/
theorem countCapture_hi {ch owner v : Nat} (hc : ch < 4) {s : State} (hs : s.silent = false)
    (hv : tfind (s.posOf ch).caps (agentOf owner * 2) = some v) :
    ∃ t, exec (.countCapture ch 0x64 owner) s = .next t ∧ t.resp = .data v := by
  simp [exec, execCountCapture, hs, hc, hv]

theorem countCaptured_caps (ch owner : Nat) (s : State) :
    tfind ((countCaptured ch owner s).posOf ch).caps (agentOf owner * 2) = some ((s.posOf ch).hub.count / 2 ^ 32) := by
  rw [countCaptured, resp_posOf, posOf_upd]
  exact tfind_tput_self _ _ _

/-- Settles O23, command by command. -/
theorem ssiPresetAndCapture : Obligations.SsiPresetAndCapture := by
  unfold Obligations.SsiPresetAndCapture
  intro s ch hc
  refine ⟨fun hon hm hf hdue => ?start, fun reps raw par dh gh t0 v hf ho hb hv => ⟨fun hr => ?good, fun hr => ?bad⟩,
    fun owner hp hst => ?preset, fun owner hp hst => ?running, fun owner hp hm => ?mismatch,
    fun owner hs => ?capture⟩
  case start =>
    refine ⟨_, ssiFrameStart_due hc hon hm hf hdue, ?_⟩
    unfold ssiStarted
    rw [posOf_upd]
    exact ⟨rfl, rfl, rfl, rfl⟩
  case good =>
    obtain ⟨t, he, ht⟩ := ssiFrameEnd_good hc hf ho hb hv hr
    obtain ⟨hlast, hfirst, hmove⟩ :=
      accept_facts (s.ssiBits ch) (t0 * 16) v (s.on F.Pos.DIR_INVERT (pgPos ch)) (s.posOf ch).hub
    have hhub : (t.posOf ch).hub = _ := (congrArg PosX.hub ht).trans ((ssiTaken_hub hb).trans (if_pos hr))
    exact ⟨t, he, ht ▸ ssiTaken_frame, hhub ▸ hlast, fun w hw => hhub ▸ hmove w hw, fun hn => hhub ▸ hfirst hn⟩
  case bad =>
    obtain ⟨arg, he⟩ := ssiFrameEnd_bad hc hf ho hb hv hr
    refine ⟨_, he, ?_, ?_, State.raise_bit _ _ _ (posKey ch hc) (by decide)⟩
    · rw [State.posOf_raise]; exact ssiTaken_frame
    · rw [State.posOf_raise]; exact (ssiTaken_hub hb).trans (if_neg hr)
  case preset =>
    refine ⟨_, _, execChPreset_passes hc hp, rfl, fun die => ?_, ?_⟩
    · obtain ⟨hcount, hx, hv, ha, hlock⟩ := restart_facts s.now (((presetLoaded ch s).posOf ch).rep die)
      rw [presetLoaded_count] at hcount hx
      rw [chPreset_stopped hst, State.countNow, obsRestart_rep]
      exact ⟨hcount, hx, hv, ha, hlock⟩
    · rw [chPreset_stopped hst]
      exact ⟨rfl, obsRestart_regsBut ch (presetLoaded ch s)⟩
  case running =>
    refine ⟨_, execChPreset_passes hc hp, ?_⟩
    rw [chPreset_running hst]
    exact ⟨State.raise_bit _ _ _ (posKey ch hc) (by decide), s.onlyEvents_raise _ _ (posKey ch hc)⟩
  case mismatch =>
    refine ⟨s.set F.Pos.MISMATCH (pgPos ch) 0, ?_, ?_, s.onlyRegs_setI _ _ _ _⟩
    · simp only [exec, execReplicaMismatchClear, if_pos hc, gateReg_passes hp, mismatchClear, if_neg hm]
    · unfold State.on; rw [State.get_set_self]; decide
  case capture =>
    obtain ⟨u, hu, hr⟩ := countCapture_hi (s := countCaptured ch owner s) hc hs (countCaptured_caps ch owner s)
    exact ⟨_, u, countCapture_lo hc owner hs, rfl, rfl, hu, hr⟩

end Sys2Proof.Machine
end

section
/-! Writes of registers and apertures, and the reserved pool. -/

-- One declaration after another, as in the files before: the text is also checked in one piece.
set_option Elab.async false

namespace Sys2Proof.Machine

/-- The pages without actions of their own that the statement lists. -/
def plainPages : List Nat := [1, 0x062, 0x068, 0x085, 0x086, 0x0AB, 0x0AC]

theorem plainPages_lt : ∀ pg ∈ plainPages, pg < 256 := by decide

theorem plain_eq (pg off data : Nat) (s : State) : plain pg off data s =
    (let t := forAll (wordFields pg off) s (writeField pg data (s.fnRuns pg))
     if s.heldHit pg off data then writeWhileRunning pg off data false t else t) := by
  unfold plain plainBut
  rw [List.filter_eq_self.mpr (by simp)]

/-- A write by an owner whose identifier has eight bits, but of LOCK_n, is its own (R81). -/
theorem writerOf_eq {pg owner : Nat} (apt : Bool) (off data : Nat) (h : apt = true ∨ pg ≠ pgLocks) (ho : owner < 256) :
    writerOf pg apt off data owner = owner := by
  unfold writerOf
  rw [if_neg (by rcases h with h | h <;> simp [h])]
  exact low_of_lt ho

/-- A word of the active set that passes the gate. -/
theorem registerWrite_body {s : State} {pg off data owner : Nat} (hp : s.passes pg owner = true) (ho : off % 4 = 0)
    (h1 : 0x40 ≤ off) (h2 : off < 0x800) : registerWrite pg false off data owner s = bodyWrite pg off data owner s := by
  obtain ⟨hs, hpr, -⟩ := passes_parts hp
  unfold registerWrite
  simp [hs, hpr, ho, Nat.not_lt.mpr h1, h2, gateReg_passes hp]

/-- A word of the shadow set of a page with a boundary that passes the gate. -/
theorem registerWrite_shadow {s : State} {pg off data owner : Nat} (hp : s.passes pg owner = true) (ho : off % 4 = 0)
    (h1 : 0x840 ≤ off) (hb : hasBoundary pg = true) : registerWrite pg false off data owner s =
      unlessFrozen pg off false (fun s =>
        if badShadow pg (off - 0x800) data s ∨ (pg = 0x072 ∧ 0xA20 ≤ off) then s
        else mirrored pg off data owner true (shadowReg pg (off - 0x800) data s)) s := by
  obtain ⟨hs, hpr, -⟩ := passes_parts hp
  have h40 : ¬off < 0x40 := by omega
  have h800 : ¬off < 0x800 := by omega
  unfold registerWrite shadowWrite
  simp [hs, hpr, ho, h40, h800, h1, hb, gateReg_passes hp]

/-- A word of an aperture that passes the gate. -/
theorem registerWrite_aperture {s : State} {pg off data owner : Nat} (hp : s.passes pg owner = true) (ho : off % 4 = 0) :
    registerWrite pg true off data owner s = aptWrite pg off data owner s := by
  obtain ⟨hs, -, -⟩ := passes_parts hp
  unfold registerWrite
  simp [hs, ho, gate_passes hp]

/-- A word of a header register of a listed page. -/
theorem registerWrite_header {s : State} {pg off : Nat} (data owner : Nat) (hs : s.silent = false) (hp : present pg = true)
    (ho : off % 4 = 0) (h : off < 0x40) : registerWrite pg false off data owner s = headerWrite pg off data owner s := by
  unfold registerWrite
  simp [hs, hp, ho, h]

/-- A write that is not a whole aligned word (R52). -/
theorem registerWrite_misaligned {s : State} {off : Nat} (pg data owner : Nat) (hs : s.silent = false) (ho : off % 4 ≠ 0) :
    registerWrite pg false off data owner s = { s with resp := .busError } := by
  unfold registerWrite
  rw [if_neg (by simp [hs]), if_pos ho]

/-- What a word of a page without actions of its own leaves in its fields (R10, R13, R15, R636). -/
theorem plain_facts (s : State) {pg off data : Nat} (hpg : pg ∈ plainPages) (h1 : 0x40 ≤ off) (h2 : off < 0x800) (ho : off % 4 = 0) :
    let t := plain pg off data s
    (∀ e ∈ wordFields pg off,
      ((e.1.acc = .rw ∨ e.1.acc = .rws) → e.1.cls ≠ .s → (e.1.cls = .h → s.fnRuns pg e.1 e.2 = false) →
        e.1.reserved (bits data e.1.lo e.1.w) = false → t.getI e.1 pg e.2 = bits data e.1.lo e.1.w) ∧
      (e.1.acc = .ro ∨ e.1.acc = .wo ∨ e.1.cls = .s ∨ (e.1.cls = .h ∧ s.fnRuns pg e.1 e.2 = true) ∨
        ((e.1.acc = .rw ∨ e.1.acc = .rws) ∧ e.1.reserved (bits data e.1.lo e.1.w) = true) → t.getI e.1 pg e.2 = s.getI e.1 pg e.2)) ∧
    (s.heldHit pg off data = false → s.OnlyRegs t ((wordFields pg off).map (fun e => e.1.key pg e.2))) ∧
    (s.heldHit pg off data = true → s.OnlyEvents t pg ((wordFields pg off).map (fun e => e.1.key pg e.2)) ∧
      bitAt (t.get F.Hdr.EVENT_STATUS pg) Ev.regWriteWhileRunning.bit = true) := by
  intro t
  have hl : pg ≠ pgLedger := by rintro rfl; revert hpg; decide
  obtain ⟨k, hk, rfl⟩ : ∃ k < 496, off = 0x40 + 4 * k := ⟨(off - 0x40) / 4, by omega, by omega⟩
  obtain ⟨hplace, hnodup⟩ := plainWords pg hpg k hk
  obtain ⟨hreg, hfld⟩ := writeFields_spec pg data _ (s.fnRuns pg) _ hplace hnodup s
  have ht : t = _ := plain_eq pg _ data s
  generalize forAll (wordFields pg (0x40 + 4 * k)) s (writeField pg data (s.fnRuns pg)) = u at hreg hfld ht
  dsimp only at ht
  have hget : ∀ e ∈ wordFields pg (0x40 + 4 * k), t.getI e.1 pg e.2 = u.getI e.1 pg e.2 := fun e he => by
    obtain ⟨hoff, hlo⟩ := hplace e he
    rw [ht]
    split
    · refine State.raise_getI _ _ _ _ (by omega) hlo hl (Fld.key_ne ?_)
      rw [hoff, show F.Hdr.EVENT_STATUS.off = 16 from rfl, show F.Hdr.EVENT_STATUS.lo = 0 from rfl]
      omega
    · rfl
  refine ⟨fun e he => by rw [hget e he]; exact hfld e he, fun h => ?_, fun h => ?_⟩
  · rw [ht, h]; exact hreg
  · rw [ht, if_pos h]
    refine ⟨hreg.events (u.onlyEvents_raise _ _ hl) fun x hx => ?_, State.raise_bit _ _ _ hl (by decide)⟩
    obtain ⟨e, he, rfl⟩ := List.mem_map.mp hx
    obtain ⟨hoff, hlo⟩ := hplace e he
    rwa [Fld.key_page (by omega) hlo]

/-- A word of a class L window without an action of its own is stored (R54, R56). -/
theorem aptWrite_plain (s : State) {pg off : Nat} (data owner : Nat) (hc : pg ≠ pgCal) (hs : within pg 0x06C 0x06F = false)
    (ho : off < 2 ^ 21) (hw : winClass pg off = .l) : aptWrite pg off data owner s = s.setApt pg off (data &&& winMask pg off) := by
  unfold aptWrite
  simp only [Nat.mod_eq_of_lt ho, hw, if_neg (Nat.not_le.mpr ho), hs, Bool.false_eq_true, if_false, if_neg hc]

/-- The stored word read back. -/
theorem apt_setApt_self (s : State) (pg : Nat) {off v : Nat} (ho : off < 2 ^ 21) (hv : v < 2 ^ 32) :
    (s.setApt pg off v).apt pg off = v := by
  unfold State.setApt State.apt
  rw [Nat.mod_eq_of_lt ho, tget_tputD_self]
  exact low_of_lt hv

/-- The pages with a shadow set that the statement names. -/
theorem shadowPages {pg : Nat} (h : pg ∈ [0x062, 0x068, 0x06C]) :
    hasBoundary pg = true ∧ pg ≠ pgLocks ∧ pg ≠ pgLedger ∧ pg < 256 ∧ pg ≠ pgPipe ∧ pg ≠ 0x072 ∧
      (pg ≠ 0x06C → within pg 0x06C 0x06F = false) := by
  revert pg; decide

/-- Settles O59, by the branch of `registerWrite` that each word takes. -/
theorem registerWritesAndPool : Obligations.RegisterWritesAndPool := by
  unfold Obligations.RegisterWritesAndPool
  intro s
  refine ⟨fun pg apt off data owner => ⟨_, rfl⟩, fun pg off data owner hs hpg hp ho hoff => ?narrow,
    fun pg data owner hs hpg hp hd => ⟨?enable, ?route⟩,
    fun pg off data owner hpg hp how hd h1 h2 ho => ?plain, fun pg off data owner hpg hp how hd h1 h2 ho => ?shadow,
    fun pg off data owner hc hscr hp hpg how hd hoff ho hw => ?window, ?pool⟩
  case narrow =>
    simp only [exec, execRegisterWrite, Bool.false_eq_true, if_false, show low 8 pg = pg from low_of_lt hpg,
      show low 12 off = off from low_of_lt hoff]
    exact congrArg _ (registerWrite_misaligned _ _ _ hs ho)
  case enable =>
    rw [registerWrite_eq pg false _ data owner s hpg (by decide) hd, registerWrite_header _ _ hs hp (by decide) (by decide)]
    rfl
  case route =>
    rw [registerWrite_eq pg false _ data owner s hpg (by decide) hd, registerWrite_header _ _ hs hp (by decide) (by decide)]
    rfl
  case plain =>
    have hlock : pg ≠ pgLocks := by rintro rfl; revert hpg; decide
    have h256 : pg < 256 := plainPages_lt pg hpg
    refine ⟨plain pg off data s, ?_, plain_facts s hpg h1 h2 ho⟩
    rw [registerWrite_eq pg false _ data owner s h256 (by simp; omega) hd, writerOf_eq _ _ _ (.inr hlock) how,
      registerWrite_body hp ho h1 h2, plainPage pg hpg]
  case shadow =>
    obtain ⟨hb, hlock, hled, h256, hpipe, h72, hscr⟩ := shadowPages hpg
    rw [registerWrite_eq pg false _ data owner s h256 (by simp; omega) hd, writerOf_eq _ _ _ (.inr hlock) how,
      registerWrite_shadow hp ho h1 hb]
    unfold unlessFrozen
    refine ⟨fun hst h6 => ?_, fun hst => ⟨_, rfl, ?_⟩⟩
    · rw [if_neg hst]
      simp [badShadow, hpipe, h72, mirrored, hscr h6]
    · rw [if_pos hst]
      exact ⟨State.raise_aptw _ _ _ _, State.raise_bit _ _ _ hled (by decide)⟩
  case window =>
    refine ⟨s.setApt pg off (data &&& winMask pg off), ?_, apt_setApt_self s pg hoff (lt_of_le_of_lt Nat.and_le_left hd), rfl,
      fun a ha => tfind_tputD_ne _ _ _ ha⟩
    rw [registerWrite_eq pg true _ data owner s hpg (lt_trans hoff (by decide)) hd, writerOf_eq _ _ _ (.inl rfl) how,
      registerWrite_aperture hp ho, aptWrite_plain s data owner hc hscr hoff hw]
  case pool =>
    obtain ⟨a, b, u, hl, hu, hd, ha⟩ := drainPool_spec s.pool s
    exact ⟨a, b, u, _, hl, hu, hd, ha, rfl⟩

end Sys2Proof.Machine
end

section
/-! Host frames of the control ring. -/

-- One declaration after another, as in the files before: the text is also checked in one piece.
set_option Elab.async false

namespace Sys2Proof.Machine

/-- A RING_CMD write that passes hands its frame to the ring (R115). -/
theorem execRingCmd_passes {s : State} {owner : Nat} (h : s.passes pgReady owner = true) (pg word : Nat) :
    exec (.ringHeaderRead pg word owner) s = .next (ringHost 1 (low 8 pg) (low 4 word) s) ∧
    exec (.ringQuiesce pg owner) s = .next (ringHost 2 (low 8 pg) 0 s) ∧
    exec (.ringReleaseQuiesce pg owner) s = .next (ringHost 3 (low 8 pg) 0 s) ∧
    exec (.ringFuncReset pg owner) s = .next (ringHost 4 (low 8 pg) 0 s) := by
  simp only [exec, execRingHeaderRead, execRingQuiesce, execRingReleaseQuiesce, execRingFuncReset, gateReg_passes h, and_self]

/-- A host frame that is pending keeps the next one out (R115). -/
theorem ringHost_pending {s : State} (h : s.on F.Rdy.PENDING pgReady = true) (op pg word : Nat) :
    ringHost op pg word s = s := if_pos h

/-- RING_STATUS as a host frame leaves it when it enters (R115). -/
def ringStatusPending (pg : Nat) (s : State) : State :=
  (((s.set F.Rdy.PENDING pgReady 1).set F.Rdy.DONE pgReady 0).set F.Rdy.ERROR pgReady 0).set F.Rdy.LAST_PAGE pgReady pg

theorem ringStatusPending_onlyRegs (pg : Nat) (s : State) : s.OnlyRegs (ringStatusPending pg s)
    [F.Rdy.PENDING.key pgReady 0, F.Rdy.DONE.key pgReady 0, F.Rdy.ERROR.key pgReady 0, F.Rdy.LAST_PAGE.key pgReady 0] :=
  (((s.onlyRegs_setI F.Rdy.PENDING pgReady 0 _).setI F.Rdy.DONE pgReady 0 _).setI F.Rdy.ERROR pgReady 0 _).setI
    F.Rdy.LAST_PAGE pgReady 0 _

theorem ringStatusPending_pending (pg : Nat) (s : State) : (ringStatusPending pg s).on F.Rdy.PENDING pgReady = true := by
  unfold ringStatusPending State.on
  rw [State.get_set_off _ (by decide), State.get_set_off _ (by decide), State.get_set_off _ (by decide), State.get_set_self]
  rfl

theorem ringStatusPending_lastPage (pg : Nat) (s : State) :
    (ringStatusPending pg s).get F.Rdy.LAST_PAGE pgReady = low 8 pg := State.get_set_self _ _ _ _

/-- A host frame takes a ring that holds no frame; a function reset joins those that have not completed (R42, R45). -/
theorem ringHost_free {s : State} (hp : s.on F.Rdy.PENDING pgReady = false) (hr : s.ring.onRing = none) (op pg word : Nat) :
    ringHost op pg word s = { ringStatusPending pg s with ring := { s.ring with
      onRing := some ⟨3, op, pg, word, if op = 4 then (resetPages pg).filter (fun p => (s.bndOf p).resetting) else []⟩,
      resent := false } } := by
  have hring : (ringStatusPending pg s).ring.onRing = none := hr
  have hn : ¬ s.on F.Rdy.PENDING pgReady = true := by simp [hp]
  refine (if_neg hn).trans ?_
  change ringRequest _ (ringStatusPending pg s) = _
  unfold ringRequest
  simp only [hring]
  split <;> rfl

/-- With nothing waiting the ring is free after a frame. -/
theorem ringAdvance_idle {s : State} (h : s.ring.waiting = []) : ringAdvance s = { s with ring := ⟨none, false, []⟩ } := by
  unfold ringAdvance
  rw [h]
  rfl

/-- A node that executes a header read changes nothing (R41). -/
theorem ringExecute_headerRead {r : RingReq} (h : r.op = 1) (s : State) : ringExecute r s = s := by
  unfold ringExecute
  simp only [h, ite_self]

/-- RING_STATUS as the end of a frame leaves it (R115). -/
def ringStatusDone (err : Bool) (s : State) : State :=
  ((s.set F.Rdy.PENDING pgReady 0).set F.Rdy.DONE pgReady 1).set F.Rdy.ERROR pgReady (bit err)

theorem ringStatusDone_onlyRegs (err : Bool) (s : State) : s.OnlyRegs (ringStatusDone err s)
    [F.Rdy.PENDING.key pgReady 0, F.Rdy.DONE.key pgReady 0, F.Rdy.ERROR.key pgReady 0] :=
  ((s.onlyRegs_setI F.Rdy.PENDING pgReady 0 _).setI F.Rdy.DONE pgReady 0 _).setI F.Rdy.ERROR pgReady 0 _

theorem ringStatusDone_facts (err : Bool) (s : State) : (ringStatusDone err s).on F.Rdy.PENDING pgReady = false ∧
    (ringStatusDone err s).on F.Rdy.DONE pgReady = true ∧ (ringStatusDone err s).on F.Rdy.ERROR pgReady = err := by
  unfold ringStatusDone State.on
  refine ⟨?_, ?_, ?_⟩
  · rw [State.get_set_off _ (by decide), State.get_set_off _ (by decide), State.get_set_self]; rfl
  · rw [State.get_set_off _ (by decide), State.get_set_self]; rfl
  · rw [State.get_set_self]; cases err <;> rfl

/-- The end of a frame changes no more than RING_STATUS and RING_DATA. -/
theorem ringDone_onlyRegs (r : RingReq) (err : Bool) (s : State) : s.OnlyRegs (ringDone r err s)
    [F.Rdy.PENDING.key pgReady 0, F.Rdy.DONE.key pgReady 0, F.Rdy.ERROR.key pgReady 0, F.Rdy.RING_DATA.key pgReady 0] := by
  have hst := ringStatusDone_onlyRegs err s
  have hdata : ∀ v, s.OnlyRegs ((ringStatusDone err s).set F.Rdy.RING_DATA pgReady v) _ := fun v =>
    hst.setI F.Rdy.RING_DATA pgReady 0 v
  unfold ringDone
  split
  · dsimp only
    split
    · exact hdata _
    · split
      · exact hdata _
      · exact hst.mono fun k hk => List.mem_append_left [F.Rdy.RING_DATA.key pgReady 0] hk
  · exact State.OnlyRegs.refl s _

/-- A header read of the host that was executed ends with its word in RING_DATA (R115). -/
theorem ringDone_headerRead {r : RingReq} (hwho : r.who = 3) (hop : r.op = 1) (s : State) :
    ringDone r false s = (ringStatusDone false s).set F.Rdy.RING_DATA pgReady (s.headerWord r.page r.word) :=
  (if_pos hwho).trans (if_pos ⟨hop, rfl⟩)

/-- A frame that a node executed leaves the ring (R43). -/
theorem execRingFrame_executed {s : State} {r : RingReq} (h : s.ring.onRing = some r) :
    exec (.ringFrameComplete false) s = .next (ringAdvance (ringDone r false (ringExecute r s))) := by
  simp only [exec, execRingFrameComplete, h, Bool.false_eq_true, if_false]

/-- A frame that a node marked is sent again, and given up the second time (R44). -/
theorem execRingFrame_marked {s : State} {r : RingReq} (h : s.ring.onRing = some r) :
    exec (.ringFrameComplete true) s = .next (if s.ring.resent then
      ringAdvance (ringDone r true (s.raise Ev.regRingError pgReady (r.op * 256 + r.page)))
      else { s with ring := { s.ring with resent := true } }) := by
  simp only [exec, execRingFrameComplete, h, if_true]

/-- Settles O13: `ringHost` for the writes, `ringDone` and `ringAdvance` for the frames. -/
theorem controlRingCommands : Obligations.ControlRingCommands := by
  unfold Obligations.ControlRingCommands
  intro s pg word owner
  refine ⟨fun hp hn hr op hop => ?request, fun hp hn => ?pending, fun r hr hw hwho hop _ => ?executed,
    fun r hr hs => ?resent, fun r hr hs hw => ?givenUp⟩
  case request =>
    obtain ⟨hread, hquiesce, hrelease, hreset⟩ := execRingCmd_passes hp pg word
    have he : exec op.2.1 s = .next (ringHost op.1 (low 8 pg) op.2.2 s) := by
      simp only [List.mem_cons, List.not_mem_nil, or_false] at hop
      rcases hop with rfl | rfl | rfl | rfl
      · exact hread
      · exact hquiesce
      · exact hrelease
      · exact hreset
    refine ⟨_, he.trans (congrArg _ (ringHost_free hn hr op.1 (low 8 pg) op.2.2)), ringStatusPending_pending _ s, ?_, rfl, rfl,
      (ringStatusPending_onlyRegs (low 8 pg) s).2⟩
    exact (ringStatusPending_lastPage (low 8 pg) s).trans (Nat.mod_mod pg (2 ^ 8))
  case pending =>
    simpa only [ringHost_pending hn] using execRingCmd_passes hp pg word
  case executed =>
    obtain ⟨hpend, hdone, herr⟩ := ringStatusDone_facts false s
    have hkeep := ringDone_onlyRegs r false s
    have hwait : (ringDone r false s).ring.waiting = [] := (congrArg (·.ring.waiting) hkeep.1).trans hw
    refine ⟨_, execRingFrame_executed hr, ?_⟩
    rw [ringExecute_headerRead hop, ringAdvance_idle hwait]
    refine ⟨rfl, ?_, ?_, ?_, by rw [hkeep.1], hkeep.2, ?_⟩
    all_goals rw [ringDone_headerRead hwho hop]
    · exact (congrArg (· == 1) (State.get_set_off _ (by decide))).trans hpend
    · exact (congrArg (· == 1) (State.get_set_off _ (by decide))).trans hdone
    · exact (congrArg (· == 1) (State.get_set_off _ (by decide))).trans herr
    · exact State.get_set_self _ _ _ _
  case resent =>
    rw [execRingFrame_marked hr, hs]
    rfl
  case givenUp =>
    have hkeep := ringDone_onlyRegs r true (s.raise Ev.regRingError pgReady (r.op * 256 + r.page))
    refine ⟨_, execRingFrame_marked hr, ?_⟩
    rw [if_pos hs, ringAdvance_idle ((congrArg (·.ring.waiting) hkeep.1).trans (by simpa using hw))]
    refine ⟨rfl, ?_⟩
    exact (congrArg (bitAt · _) (hkeep.getI (f := F.Hdr.EVENT_STATUS) (pg := pgReady) (i := 0) (by decide))).trans
      (s.raise_bit Ev.regRingError _ (by decide) (by decide))

end Sys2Proof.Machine
end

section
/-! The SRAM scrubber and the die-to-die links. -/

-- One declaration after another, as in the files before: the text is also checked in one piece.
set_option Elab.async false

namespace Sys2Proof.Machine

/-! ### The scrubber -/

/-- The least distance of two reads of a die's scrubber in xclk (R431). -/
def scrubGap (die : Nat) : Nat := if die = 0 then 256 else 512

/-- A scrubber that may not run, or whose gap is not over, does nothing (R431). -/
theorem scrubRead_waits {s : State} {die : Nat} (upset : Nat) (h : 3 ≤ die ∨ s.ready pgSram = false ∨
    s.on F.Sram.SCRUB_EN pgSram = false ∨ s.modeNow = 0 ∨
    ∃ l, (tget s.scrub die {}).last = some l ∧ s.xclk < l + scrubGap die) : exec (.scrubRead die upset) s = .next s := by
  refine congrArg Host.Outcome.next (if_pos ?_)
  rcases h with h | h | h | h | ⟨l, hl, hlt⟩
  · exact .inl h
  · exact .inr (.inl h)
  · exact .inr (.inr (.inl h))
  · exact .inr (.inr (.inr (.inl h)))
  · refine .inr (.inr (.inr (.inr ?_)))
    rw [hl]
    exact decide_eq_false (not_le.mpr hlt)

/-- What a check of a stored word does: repair, report, or nothing (R429, R430). -/
def scrubChecked (die word : Nat) (s : State) : State :=
  let e := s.sramErrAt die word
  if e = 0 ∨ errSyndrome e = 0 then s
  else if singleBit (errSyndrome e) then
    sramCorrected die word (errSyndrome e) { s with sramErr := tdel s.sramErr (die * 2 ^ 23 + word) }
  else sramBad die 1 word s

/-- Where the scrubber of a die stands after it has read a word (R431). -/
def scrubNext (die word xclk : Nat) : ScrubX :=
  { word := if word + 1 = dieWords die then 0 else word + 1, last := some xclk }

/-- The scrubber of a die goes on to its next word, and counts a pass after the last one (R431). -/
def scrubMoved (die word xclk : Nat) (s : State) : State :=
  let t := { s with scrub := tput s.scrub die (scrubNext die word xclk) }
  if word + 1 = dieWords die then t.wrapI F.Sram.SCRUB_PASSES pgSram die 1 else t

/-- A read that is due checks the word and moves on (R431, R432). -/
theorem scrubRead_due {s : State} {die : Nat} (upset : Nat) (hd : die < 3) (hr : s.ready pgSram = true)
    (hen : s.on F.Sram.SCRUB_EN pgSram = true) (hm : s.modeNow ≠ 0)
    (hdue : ∀ l, (tget s.scrub die {}).last = some l → l + scrubGap die ≤ s.xclk) :
    exec (.scrubRead die upset) s = .next (scrubMoved die (tget s.scrub die {}).word s.xclk
      (scrubChecked die (tget s.scrub die {}).word (sramUpset die (tget s.scrub die {}).word upset s))) := by
  refine congrArg Host.Outcome.next (if_neg ?_)
  rintro (h | h | h | h | h)
  · omega
  · simp [hr] at h
  · simp [hen] at h
  · exact hm h
  · revert h
    cases hl : (tget s.scrub die {}).last with
    | none => simp
    | some l => exact fun h => of_decide_eq_false h (hdue l hl)

theorem sramUpset_errAt (die word upset : Nat) (s : State) :
    (sramUpset die word upset s).sramErrAt die word = Nat.xor (s.sramErrAt die word) (low 39 upset) :=
  tget_tputD_self _ _ _ _

/-! #### Where the scrubber stands -/

section
variable (die word xclk : Nat) (s : State)

theorem scrubMoved_scrub : (scrubMoved die word xclk s).scrub = tput s.scrub die (scrubNext die word xclk) := by
  unfold scrubMoved; dsimp only; split <;> rfl

theorem scrubMoved_errAt (d w : Nat) : (scrubMoved die word xclk s).sramErrAt d w = s.sramErrAt d w := by
  unfold scrubMoved; dsimp only; split <;> rfl

theorem scrubMoved_passes : (scrubMoved die word xclk s).getI F.Sram.SCRUB_PASSES pgSram die =
    if word + 1 = dieWords die then low 32 (s.getI F.Sram.SCRUB_PASSES pgSram die + 1)
    else s.getI F.Sram.SCRUB_PASSES pgSram die := by
  unfold scrubMoved; dsimp only; split
  · exact State.getI_setI_self _ _ _ _ _
  · rfl

/-- Every other field is as before. -/
theorem scrubMoved_getI {f : Fld} {i : Nat} (h : f.key pgSram i ≠ F.Sram.SCRUB_PASSES.key pgSram die) :
    (scrubMoved die word xclk s).getI f pgSram i = s.getI f pgSram i := by
  unfold scrubMoved; dsimp only; split
  · exact State.getI_setI_ne _ _ h
  · rfl

end

/-! #### What the check finds -/

/-- The counters of a die stand apart from each other, from LAST_UE and from EVENT_STATUS. -/
theorem sramCounter_key : ∀ die < 3, ∀ f ∈ [F.Sram.SCRUB_PASSES, F.Sram.CE_COUNT, F.Sram.UE_COUNT],
    f.off + die * f.stride < 4096 ∧ f.lo < 32 ∧
    (∀ g ∈ [F.Hdr.EVENT_STATUS, F.Sram.DIE, F.Sram.SOURCE, F.Sram.WORD], f.key pgSram die ≠ g.key pgSram 0) ∧
    ∀ g ∈ [F.Sram.SCRUB_PASSES, F.Sram.CE_COUNT, F.Sram.UE_COUNT], g ≠ f → f.key pgSram die ≠ g.key pgSram die := by
  decide

/-- A record of an SRAM event leaves the counters alone. -/
theorem State.raiseX_sramCounter (s : State) (e : Ev) (arg sub sev : Nat) (fo : Bool) {die : Nat} (hd : die < 3) {f : Fld}
    (hf : f ∈ [F.Sram.SCRUB_PASSES, F.Sram.CE_COUNT, F.Sram.UE_COUNT]) :
    (s.raiseX e pgSram arg sub sev fo).getI f pgSram die = s.getI f pgSram die := by
  obtain ⟨hoff, hlo, hkey, -⟩ := sramCounter_key die hd f hf
  exact s.raiseX_getI e pgSram arg sub sev fo hoff hlo (by decide) (hkey F.Hdr.EVENT_STATUS (by decide))

/-- Counting an error of one kind leaves the other counters alone. -/
theorem State.satI_sramCounter (s : State) (n : Nat) {die : Nat} (hd : die < 3) {f g : Fld}
    (hf : f ∈ [F.Sram.SCRUB_PASSES, F.Sram.CE_COUNT, F.Sram.UE_COUNT])
    (hg : g ∈ [F.Sram.SCRUB_PASSES, F.Sram.CE_COUNT, F.Sram.UE_COUNT]) (h : g ≠ f) :
    (s.satI g pgSram die n).getI f pgSram die = s.getI f pgSram die := by
  obtain ⟨-, -, -, hkey⟩ := sramCounter_key die hd f hf
  exact s.getI_setI_ne _ (hkey g hg h)

section
variable (die word : Nat) (s : State)

theorem sramCorrected_frame (syn : Nat) : (sramCorrected die word syn s).scrub = s.scrub ∧
    (sramCorrected die word syn s).sramErr = s.sramErr := by
  unfold sramCorrected
  obtain ⟨m, g, q, w, h⟩ := State.raiseX_eq (s.satI F.Sram.CE_COUNT pgSram die 1) Ev.stkSramCorrected pgSram
    (arg64 ((s.satI F.Sram.CE_COUNT pgSram die 1).getI F.Sram.CE_COUNT pgSram die) (die * 2 ^ 30 + syn * 2 ^ 23 + low 23 word))
    die Ev.stkSramCorrected.sev false
  dsimp only
  rw [h]
  exact ⟨rfl, rfl⟩

/-- A single-bit error counts in CE_COUNT and is reported (R429). -/
theorem sramCorrected_facts (syn : Nat) (hd : die < 3) :
    (sramCorrected die word syn s).getI F.Sram.SCRUB_PASSES pgSram die = s.getI F.Sram.SCRUB_PASSES pgSram die ∧
    (sramCorrected die word syn s).getI F.Sram.CE_COUNT pgSram die =
      low 32 (min (s.getI F.Sram.CE_COUNT pgSram die + 1) (2 ^ 32 - 1)) ∧
    bitAt ((sramCorrected die word syn s).get F.Hdr.EVENT_STATUS pgSram) Ev.stkSramCorrected.bit = true := by
  unfold sramCorrected
  refine ⟨?_, ?_, State.raiseX_bit _ _ _ _ _ _ (by decide) (by decide)⟩
  · rw [State.raiseX_sramCounter _ _ _ _ _ _ hd (by decide), State.satI_sramCounter _ _ hd (by decide) (by decide) (by decide)]
  · rw [State.raiseX_sramCounter _ _ _ _ _ _ hd (by decide)]
    exact State.getI_setI_self _ _ _ _ _

theorem sramBad_frame (source : Nat) : (sramBad die source word s).scrub = s.scrub ∧
    (sramBad die source word s).sramErr = s.sramErr := by
  unfold sramBad
  exact ⟨State.raise_scrub _ _ _ _, State.raise_sramErr _ _ _ _⟩

/-- The fields of LAST_UE set (R430). -/
def lastUe (die source word : Nat) (s : State) : State :=
  ((s.set F.Sram.DIE pgSram die).set F.Sram.SOURCE pgSram source).set F.Sram.WORD pgSram word

theorem lastUe_sramCounter (source : Nat) (hd : die < 3) {f : Fld}
    (hf : f ∈ [F.Sram.SCRUB_PASSES, F.Sram.CE_COUNT, F.Sram.UE_COUNT]) :
    (lastUe die source word s).getI f pgSram die = s.getI f pgSram die := by
  obtain ⟨-, -, hkey, -⟩ := sramCounter_key die hd f hf
  exact (State.getI_setI_ne _ _ (hkey F.Sram.WORD (by decide))).trans
    ((State.getI_setI_ne _ _ (hkey F.Sram.SOURCE (by decide))).trans (State.getI_setI_ne _ _ (hkey F.Sram.DIE (by decide))))

theorem lastUe_facts (source : Nat) : (lastUe die source word s).get F.Sram.DIE pgSram = low 2 die ∧
    (lastUe die source word s).get F.Sram.SOURCE pgSram = low 1 source ∧
    (lastUe die source word s).get F.Sram.WORD pgSram = low 23 word := by
  unfold lastUe
  refine ⟨?_, ?_, State.get_set_self _ _ _ _⟩
  · rw [State.get_set_off _ (by decide), State.get_set_off _ (by decide)]
    exact State.get_set_self _ _ _ _
  · rw [State.get_set_off _ (by decide)]
    exact State.get_set_self _ _ _ _

theorem sramBad_eq (source : Nat) : ∃ arg, sramBad die source word s =
    (lastUe die source word (s.satI F.Sram.UE_COUNT pgSram die 1)).raise Ev.stkSramUncorrected pgSram arg := ⟨_, rfl⟩

/-- An uncorrectable word counts in UE_COUNT, shows in LAST_UE and is reported (R430). -/
theorem sramBad_facts (source : Nat) (hd : die < 3) :
    (sramBad die source word s).getI F.Sram.SCRUB_PASSES pgSram die = s.getI F.Sram.SCRUB_PASSES pgSram die ∧
    (sramBad die source word s).getI F.Sram.UE_COUNT pgSram die =
      low 32 (min (s.getI F.Sram.UE_COUNT pgSram die + 1) (2 ^ 32 - 1)) ∧
    (sramBad die source word s).get F.Sram.DIE pgSram = die ∧
    (sramBad die source word s).get F.Sram.SOURCE pgSram = low 1 source ∧
    (sramBad die source word s).get F.Sram.WORD pgSram = low 23 word ∧
    bitAt ((sramBad die source word s).get F.Hdr.EVENT_STATUS pgSram) Ev.stkSramUncorrected.bit = true := by
  obtain ⟨arg, he⟩ := sramBad_eq die word s source
  obtain ⟨hdie, hsource, hword⟩ := lastUe_facts die word (s.satI F.Sram.UE_COUNT pgSram die 1) source
  have hcount : ∀ f ∈ [F.Sram.SCRUB_PASSES, F.Sram.CE_COUNT, F.Sram.UE_COUNT], (sramBad die source word s).getI f pgSram die =
      (s.satI F.Sram.UE_COUNT pgSram die 1).getI f pgSram die := fun f hf => by
    rw [he, State.raise, State.raiseX_sramCounter _ _ _ _ _ _ hd hf, lastUe_sramCounter _ _ _ _ hd hf]
  refine ⟨?_, ?_, ?_, ?_, ?_, ?_⟩
  · rw [hcount _ (by decide), State.satI_sramCounter _ _ hd (by decide) (by decide) (by decide)]
  · rw [hcount _ (by decide)]
    exact State.getI_setI_self _ _ _ _ _
  all_goals rw [he]
  · rw [State.get_raise_off _ _ (by decide) (by decide) (by decide) (by decide), hdie, low_of_lt (by omega)]
  · rw [State.get_raise_off _ _ (by decide) (by decide) (by decide) (by decide), hsource]
  · rw [State.get_raise_off _ _ (by decide) (by decide) (by decide) (by decide), hword]
  · exact State.raise_bit _ _ _ (by decide) (by decide)

/-! #### The three ways a check ends -/

variable {die word s}

theorem scrubChecked_clean (h : s.sramErrAt die word = 0) : scrubChecked die word s = s := if_pos (.inl h)

/-- An error with a syndrome is one. -/
theorem ne_zero_of_errSyndrome {e : Nat} (h : errSyndrome e ≠ 0) : ¬ (e = 0 ∨ errSyndrome e = 0) := by
  rintro (rfl | h0)
  · exact h (by decide)
  · exact h h0

theorem scrubChecked_corrected (h : errSyndrome (s.sramErrAt die word) ≠ 0)
    (h1 : singleBit (errSyndrome (s.sramErrAt die word)) = true) :
    scrubChecked die word s = sramCorrected die word (errSyndrome (s.sramErrAt die word))
      { s with sramErr := tdel s.sramErr (die * 2 ^ 23 + word) } :=
  (if_neg (ne_zero_of_errSyndrome h)).trans (if_pos h1)

theorem scrubChecked_bad (h : errSyndrome (s.sramErrAt die word) ≠ 0)
    (h1 : singleBit (errSyndrome (s.sramErrAt die word)) = false) : scrubChecked die word s = sramBad die 1 word s :=
  (if_neg (ne_zero_of_errSyndrome h)).trans (if_neg (by simp [h1]))

/-- A check moves no scrubber and counts no pass. -/
theorem scrubChecked_frame (hd : die < 3) : (scrubChecked die word s).scrub = s.scrub ∧
    (scrubChecked die word s).getI F.Sram.SCRUB_PASSES pgSram die = s.getI F.Sram.SCRUB_PASSES pgSram die := by
  unfold scrubChecked
  dsimp only
  split
  · exact ⟨rfl, rfl⟩
  · split
    · exact ⟨(sramCorrected_frame _ _ _ _).1, (sramCorrected_facts _ _ _ _ hd).1⟩
    · exact ⟨(sramBad_frame _ _ _ _).1, (sramBad_facts _ _ _ _ hd).1⟩

end

/-! #### A read that is due -/

/-- The state after the scrubber of a die has read `word` of state `u`. -/
def scrubbed (die word xclk : Nat) (u : State) : State := scrubMoved die word xclk (scrubChecked die word u)

section
variable {die word : Nat} {u : State} (xclk : Nat) (hd : die < 3)
include hd

theorem scrubbed_moves : tget (scrubbed die word xclk u).scrub die {} = scrubNext die word xclk ∧
    (∀ d ≠ die, tget (scrubbed die word xclk u).scrub d {} = tget u.scrub d {}) ∧
    (scrubbed die word xclk u).getI F.Sram.SCRUB_PASSES pgSram die =
      if word + 1 = dieWords die then low 32 (u.getI F.Sram.SCRUB_PASSES pgSram die + 1)
      else u.getI F.Sram.SCRUB_PASSES pgSram die := by
  obtain ⟨hscrub, hpasses⟩ := scrubChecked_frame (word := word) (s := u) hd
  unfold scrubbed
  rw [scrubMoved_scrub, scrubMoved_passes, hscrub, hpasses]
  exact ⟨tget_tput_self _ _ _ _, fun d h => tget_tput_ne _ _ _ h, rfl⟩

/-- The other counters of the die are those that the check leaves. -/
theorem scrubbed_counter {f : Fld} (hf : f ∈ [F.Sram.CE_COUNT, F.Sram.UE_COUNT]) :
    (scrubbed die word xclk u).getI f pgSram die = (scrubChecked die word u).getI f pgSram die := by
  obtain ⟨-, -, -, hkey⟩ := sramCounter_key die hd f (List.mem_cons_of_mem _ hf)
  refine scrubMoved_getI die word xclk _ (hkey _ (by decide) ?_)
  rintro rfl
  revert hf
  decide

/-- LAST_UE and EVENT_STATUS are as the check leaves them. -/
theorem scrubbed_get {g : Fld} (hg : g ∈ [F.Hdr.EVENT_STATUS, F.Sram.DIE, F.Sram.SOURCE, F.Sram.WORD]) :
    (scrubbed die word xclk u).get g pgSram = (scrubChecked die word u).get g pgSram := by
  obtain ⟨-, -, hkey, -⟩ := sramCounter_key die hd F.Sram.SCRUB_PASSES (by decide)
  exact scrubMoved_getI die word xclk _ (hkey g hg).symm

theorem scrubbed_clean (h : u.sramErrAt die word = 0) : (scrubbed die word xclk u).sramErrAt die word = 0 ∧
    (scrubbed die word xclk u).getI F.Sram.CE_COUNT pgSram die = u.getI F.Sram.CE_COUNT pgSram die ∧
    (scrubbed die word xclk u).getI F.Sram.UE_COUNT pgSram die = u.getI F.Sram.UE_COUNT pgSram die := by
  rw [scrubbed_counter xclk hd (by decide), scrubbed_counter xclk hd (by decide), scrubbed, scrubMoved_errAt,
    scrubChecked_clean h]
  exact ⟨h, rfl, rfl⟩

theorem scrubbed_corrected (h : errSyndrome (u.sramErrAt die word) ≠ 0)
    (h1 : singleBit (errSyndrome (u.sramErrAt die word)) = true) : (scrubbed die word xclk u).sramErrAt die word = 0 ∧
    (scrubbed die word xclk u).getI F.Sram.CE_COUNT pgSram die =
      low 32 (min (u.getI F.Sram.CE_COUNT pgSram die + 1) (2 ^ 32 - 1)) ∧
    bitAt ((scrubbed die word xclk u).get F.Hdr.EVENT_STATUS pgSram) Ev.stkSramCorrected.bit = true := by
  obtain ⟨-, hcount, hbit⟩ := sramCorrected_facts die word { u with sramErr := tdel u.sramErr (die * 2 ^ 23 + word) }
    (errSyndrome (u.sramErrAt die word)) hd
  rw [scrubbed_counter xclk hd (by decide), scrubbed_get xclk hd (by decide), scrubbed, scrubMoved_errAt,
    scrubChecked_corrected h h1]
  refine ⟨?_, hcount, hbit⟩
  unfold State.sramErrAt
  rw [(sramCorrected_frame _ _ _ _).2]
  simp [tget]

theorem scrubbed_bad (h : errSyndrome (u.sramErrAt die word) ≠ 0)
    (h1 : singleBit (errSyndrome (u.sramErrAt die word)) = false) :
    (scrubbed die word xclk u).sramErrAt die word = u.sramErrAt die word ∧
    (scrubbed die word xclk u).getI F.Sram.UE_COUNT pgSram die =
      low 32 (min (u.getI F.Sram.UE_COUNT pgSram die + 1) (2 ^ 32 - 1)) ∧
    (scrubbed die word xclk u).get F.Sram.DIE pgSram = die ∧ (scrubbed die word xclk u).get F.Sram.SOURCE pgSram = 1 ∧
    (scrubbed die word xclk u).get F.Sram.WORD pgSram = low 23 word ∧
    bitAt ((scrubbed die word xclk u).get F.Hdr.EVENT_STATUS pgSram) Ev.stkSramUncorrected.bit = true := by
  obtain ⟨-, hcount, hdie, hsource, hword, hbit⟩ := sramBad_facts die word u 1 hd
  rw [scrubbed_counter xclk hd (by decide), scrubbed_get xclk hd (by decide), scrubbed_get xclk hd (by decide),
    scrubbed_get xclk hd (by decide), scrubbed_get xclk hd (by decide), scrubbed, scrubMoved_errAt, scrubChecked_bad h h1]
  refine ⟨?_, hcount, hdie, hsource, hword, hbit⟩
  unfold State.sramErrAt
  rw [(sramBad_frame _ _ _ _).2]

end

/-! ### The die-to-die links -/

/-- LINK_RETRY of either link is a whole register of its page, which is not the Ledger's. -/
theorem linkRetryFld_place (link : Nat) : (linkRetryFld link).w = 32 ∧
    ((linkRetryFld link).off + 0 * (linkRetryFld link).stride) * 32 + (linkRetryFld link).lo ≠ 512 ∧
    (linkRetryFld link).off + 0 * (linkRetryFld link).stride < 4096 ∧ (linkRetryFld link).lo < 32 := by
  unfold linkRetryFld
  split <;> decide

section
variable {link dir seq : Nat} {s : State}

/-- Flits of no link, or out of sequence, are discarded (R39). -/
theorem dieLinkFlit_discarded (bad : Bool) (h : 2 ≤ link ∨ 2 ≤ dir ∨ bitAt (s.get F.Stk.LINK_TRAINED pgStk) link = false ∨
    low 32 seq ≠ (tget s.flits (2 * link + dir) {}).next) : exec (.dieLinkFlit link dir seq bad) s = .next s :=
  congrArg Host.Outcome.next (if_pos h)

variable (hl : link < 2) (hd : dir < 2) (ht : bitAt (s.get F.Stk.LINK_TRAINED pgStk) link = true)
  (hs : low 32 seq = (tget s.flits (2 * link + dir) {}).next)
include hl hd ht hs

/-- A flit in sequence on a trained link is not discarded. -/
theorem inSequence_not_discarded : ¬ (2 ≤ link ∨ 2 ≤ dir ∨ bitAt (s.get F.Stk.LINK_TRAINED pgStk) link = false ∨
    low 32 seq ≠ (tget s.flits (2 * link + dir) {}).next) := by
  rintro (h | h | h | h)
  · omega
  · omega
  · simp [ht] at h
  · exact h hs

/-- A good flit in sequence advances its link (R39). -/
theorem dieLinkFlit_good : exec (.dieLinkFlit link dir seq false) s = .next { s with
    flits := tput s.flits (2 * link + dir) ⟨low 32 ((tget s.flits (2 * link + dir) {}).next + 1), none⟩ } :=
  congrArg Host.Outcome.next ((if_neg (inSequence_not_discarded hl hd ht hs)).trans (if_neg Bool.false_ne_true))

/-- A bad flit asks for a replay until the sixteenth failure (R39, R40). -/
theorem dieLinkFlit_retries {n : Nat} (hn : (tget s.flits (2 * link + dir) {}).replay = none ∧ n = 0 ∨
    ∃ m, (tget s.flits (2 * link + dir) {}).replay = some m ∧ m ≠ 15 ∧ n = m + 1) :
    exec (.dieLinkFlit link dir seq true) s = .next (linkRetry link dir (tget s.flits (2 * link + dir) {}).next n s) := by
  refine congrArg Host.Outcome.next ((if_neg (inSequence_not_discarded hl hd ht hs)).trans ((if_pos rfl).trans ?_))
  rcases hn with ⟨hr, rfl⟩ | ⟨m, hr, hm, rfl⟩
  · rw [hr]
  · rw [hr]
    exact if_neg (by omega)

/-- The sixteenth failed replay takes the link down (R40). -/
theorem dieLinkFlit_down (hr : (tget s.flits (2 * link + dir) {}).replay = some 15) :
    exec (.dieLinkFlit link dir seq true) s = .next (linkDown link 1 s) := by
  refine congrArg Host.Outcome.next ((if_neg (inSequence_not_discarded hl hd ht hs)).trans ((if_pos rfl).trans ?_))
  rw [hr]
  rfl

end

/-- What a request for a replay changes (R39). -/
theorem linkRetry_facts (link dir next n : Nat) (s : State) :
    (linkRetry link dir next n s).flits = tput s.flits (2 * link + dir) ⟨next, some n⟩ ∧
    bitAt ((linkRetry link dir next n s).get F.Hdr.EVENT_STATUS pgStk) Ev.stkDieLinkRetry.bit = true ∧
    (linkRetry link dir next n s).get (linkRetryFld link) pgStk =
      low 32 (min (s.get (linkRetryFld link) pgStk + 1) (2 ^ 32 - 1)) ∧
    s.OnlyEvents { linkRetry link dir next n s with flits := s.flits } pgStk [(linkRetryFld link).key pgStk 0] := by
  obtain ⟨hw, hst, hoff, hlo⟩ := linkRetryFld_place link
  refine ⟨State.raise_flits _ _ _ _, State.raise_bit _ _ _ (by decide) (by decide), ?_, ?_⟩
  · unfold linkRetry
    dsimp only
    rw [State.get_raise_off _ _ (by decide) hst hoff hlo, sat_self, hw]
    rfl
  · have hkey : ∀ k ∈ [(linkRetryFld link).key pgStk 0], k / 131072 ≠ pgLedger :=
      List.forall_mem_singleton.mpr ((Fld.key_page hoff hlo).trans_ne (show pgStk ≠ pgLedger by decide))
    have hcount := State.onlyRegs_setI { s with flits := tput s.flits (2 * link + dir) ⟨next, some n⟩ } (linkRetryFld link)
      pgStk 0 (min (s.get (linkRetryFld link) pgStk + 1) (2 ^ (linkRetryFld link).w - 1))
    obtain ⟨hfields, hregs, hsdram⟩ := hcount.events
      (State.onlyEvents_raise _ Ev.stkDieLinkRetry (low 32 next * 2 ^ 32 + link) (show pgStk ≠ pgLedger by decide)) hkey
    exact ⟨congrArg (fun t : State => { t with flits := s.flits }) hfields, hregs, hsdram⟩

/-- A trained link that loses its training goes down, and one that is down stays so (R40). -/
theorem dieLinkTrainingLost_eq (link : Nat) (hl : link < 2) (s : State) : exec (.dieLinkTrainingLost link) s =
    .next (if bitAt (s.get F.Stk.LINK_TRAINED pgStk) link = true then linkDown link 2 s else s) := by
  simp only [exec, execDieLinkTrainingLost, hl, true_and]

/-- Settles O39: `scrubbed` for a read that is due, `linkRetry` and `linkDown` for the links. -/
theorem scrubberAndDieLinks : Obligations.ScrubberAndDieLinks := by
  unfold Obligations.ScrubberAndDieLinks
  intro s
  refine ⟨?scrubber, ?flits, fun link hl => ⟨fun ht => ?down, fun ht => ?lost⟩⟩
  case scrubber =>
    rintro die upset x rfl
    refine ⟨fun h => scrubRead_waits upset h, fun hd hr hen hm hdue => ?_⟩
    obtain ⟨hnext, hothers, hpasses⟩ :=
      scrubbed_moves (word := (tget s.scrub die {}).word) (u := sramUpset die (tget s.scrub die {}).word upset s) s.xclk hd
    rw [← sramUpset_errAt]
    refine ⟨_, _, scrubRead_due upset hd hr hen hm hdue, rfl, hnext, hothers, hpasses, fun h => ?_, fun h h1 => ?_, fun h h1 => ?_⟩
    · exact scrubbed_clean s.xclk hd h
    · exact scrubbed_corrected s.xclk hd h h1
    · exact scrubbed_bad s.xclk hd h h1
  case flits =>
    rintro link dir seq bad x rfl
    refine ⟨fun h => dieLinkFlit_discarded bad h, fun hl hd ht hs => ⟨?_, fun n hn => ?_, fun hr => ?_⟩⟩
    · exact dieLinkFlit_good hl hd ht hs
    · exact ⟨_, dieLinkFlit_retries hl hd ht hs hn, linkRetry_facts link dir _ n s⟩
    · exact ⟨_, dieLinkFlit_down hl hd ht hs hr, linkDown_facts link 1 hl s⟩
  case down =>
    rw [dieLinkTrainingLost_eq link hl, ht]
    rfl
  case lost =>
    exact ⟨_, (dieLinkTrainingLost_eq link hl s).trans (congrArg _ (if_pos ht)), linkDown_facts link 2 hl s⟩

end Sys2Proof.Machine
end

section
/-! No run stops. -/

-- One declaration after another, as in the files before: the text is also checked in one piece.
set_option Elab.async false

namespace Sys2Proof.Machine

/-- Every arm of `exec` hands on to a meaning that answers a next state (logs 1 and 3). -/
theorem exec_next (c : Instr) (s : State) : ∃ t, exec c s = .next t := by
  cases c <;> exact ⟨_, rfl⟩

/-- A step answers a next state, with a command waiting or with none. -/
theorem step_next (s : State) : ∃ t, step s = .next t := by
  unfold step
  split
  · exact ⟨_, rfl⟩
  · exact exec_next _ _

/-- Settles O2, by induction on the number of steps. -/
theorem noCommandStops : Obligations.NoCommandStops := by
  unfold Obligations.NoCommandStops
  refine ⟨exec_next, fun s n => ?_⟩
  induction n generalizing s with
  | zero => rfl
  | succ n ih =>
    obtain ⟨t, ht⟩ := step_next s
    rw [runTo, stepTo, ht]
    exact ih t

end Sys2Proof.Machine
end

section
/-! The hardware locks. -/

-- One declaration after another, as in the files before: the text is also checked in one piece.
set_option Elab.async false

namespace Sys2Proof.Machine

section
variable {s : State} {n owner : Nat}

/-! ### Writes of LOCK_n that pass -/

theorem execLockAcquire_passes (hn : n < 64) (ho : owner < 256) (hp : s.passes pgLocks owner = true) :
    exec (.lockAcquire n owner) s = .next (lockAcquire n owner s) := by
  simp only [exec, execLockAcquire, if_pos hn, gateReg_passes hp, low_of_lt (w := 8) ho]

theorem execLockRelease_passes (hn : n < 64) (ho : owner < 256) (hp : s.passes pgLocks owner = true) :
    exec (.lockRelease n owner) s = .next (lockRelease n owner s) := by
  simp only [exec, execLockRelease, if_pos hn, gateReg_passes hp, low_of_lt (w := 8) ho]

theorem execLockClearBroken_passes (hn : n < 64) (ho : owner < 256) (hp : s.passes pgLocks owner = true) :
    exec (.lockClearBroken n owner) s = .next (lockClearBroken n owner s) := by
  simp only [exec, execLockClearBroken, if_pos hn, gateReg_passes hp, low_of_lt (w := 8) ho]

/-! ### What each operation does to a lock -/

/-- Lock n held by an owner from now on (R82, R83). -/
def lockTaken (n owner : Nat) (s : State) : State :=
  ((s.setI F.Lock.HELD pgLocks n 1).setI F.Lock.OWNER pgLocks n owner).stamp (lockKey n) s.now

/-- A free lock is taken, and so is one that a higher identifier acquired in this cycle (R82, R83; the order within a
cycle is log 137). -/
theorem lockAcquire_taken (h : s.onI F.Lock.HELD pgLocks n = false ∨ s.outbids n owner = true) :
    lockAcquire n owner s = lockTaken n owner s := by
  unfold lockAcquire
  rw [if_neg (by rcases h with h | h <;> simp [h])]
  rfl

theorem lockAcquire_held (h : s.onI F.Lock.HELD pgLocks n = true) (hb : s.outbids n owner = false) :
    lockAcquire n owner s = s := by
  unfold lockAcquire
  rw [if_pos (by simp [h, hb])]

theorem lockTaken_holds (ho : owner < 256) : (lockTaken n owner s).holds n owner = true := by
  have held : (lockTaken n owner s).getI F.Lock.HELD pgLocks n = 1 :=
    (State.getI_setI_lo _ (by decide) (by decide) (by decide)).trans (State.getI_setI_self _ _ _ _ _)
  have own : (lockTaken n owner s).getI F.Lock.OWNER pgLocks n = owner :=
    (State.getI_setI_self _ _ _ _ _).trans (low_of_lt ho)
  simp [State.holds, State.onI, held, own]

theorem lockTaken_onlyRegs : ({ s with stamps := (lockTaken n owner s).stamps } : State).OnlyRegs (lockTaken n owner s)
    [F.Lock.HELD.key pgLocks n, F.Lock.OWNER.key pgLocks n] :=
  (State.onlyRegs_setI _ F.Lock.HELD pgLocks n 1).setI F.Lock.OWNER pgLocks n owner

theorem lockRelease_holder (h : s.holds n owner = true) :
    lockRelease n owner s = (s.setI F.Lock.HELD pgLocks n 0).setI F.Lock.OWNER pgLocks n 0 := if_pos h

theorem lockClearBroken_holder (h : s.holds n owner = true) :
    lockClearBroken n owner s = s.setI F.Lock.BROKEN pgLocks n 0 := if_pos h

theorem releaseDenied_eq (ho : owner < 256) :
    releaseDenied n owner s = s.raise Ev.lockReleaseDenied pgLocks (owner * 256 + n) := by
  rw [releaseDenied, low_of_lt (w := 8) ho]

/-- RELEASE by an owner that does not hold the lock (R86). -/
theorem lockRelease_other (ho : owner < 256) (h : s.holds n owner = false) :
    lockRelease n owner s = s.raise Ev.lockReleaseDenied pgLocks (owner * 256 + n) := by
  rw [lockRelease, if_neg (by simp [h]), releaseDenied_eq ho]

/-- CLEAR_BROKEN by an owner that does not hold the lock (R86). -/
theorem lockClearBroken_other (ho : owner < 256) (h : s.holds n owner = false) :
    lockClearBroken n owner s = s.raise Ev.lockReleaseDenied pgLocks (owner * 256 + n) := by
  rw [lockClearBroken, if_neg (by simp [h]), releaseDenied_eq ho]

end

/-- Settles O7, by what each operation does on a free lock, for its holder and for another owner. -/
theorem locksObeyTheirHolder : Obligations.LocksObeyTheirHolder := by
  unfold Obligations.LocksObeyTheirHolder
  intro s n owner hn ho hp
  rw [execLockAcquire_passes hn ho hp, execLockRelease_passes hn ho hp, execLockClearBroken_passes hn ho hp]
  refine ⟨fun hfree => ?_, fun hheld hlow => ?_, fun hheld hnow hlow => ?_, fun h => ⟨?_, ?_⟩, fun h => ⟨?_, ?_⟩⟩
  · rw [lockAcquire_taken (.inl hfree)]
    exact ⟨_, rfl, lockTaken_holds ho, lockTaken_onlyRegs⟩
  · have hb : s.outbids n owner = false := by
      rcases hlow with h | h <;> simp [State.outbids, h]
    rw [lockAcquire_held hheld hb]
  · rw [lockAcquire_taken (.inr (by simp [State.outbids, hnow, hlow]))]
    exact ⟨_, rfl, lockTaken_holds ho, lockTaken_onlyRegs⟩
  · rw [lockRelease_holder h]
    refine ⟨_, rfl, ?_, State.getI_setI_self _ _ _ _ _, (s.onlyRegs_setI _ _ _ _).setI _ _ _ _⟩
    rw [State.onI, State.getI_setI_lo _ (by decide) (by decide) (by decide), State.getI_setI_self]
    rfl
  · rw [lockClearBroken_holder h]
    refine ⟨_, rfl, ?_, s.onlyRegs_setI _ _ _ _⟩
    rw [State.onI, State.getI_setI_self]
    rfl
  · rw [lockRelease_other ho h]
    exact ⟨_, rfl, rfl, s.raise_bit Ev.lockReleaseDenied _ (by decide) (by decide), s.onlyEvents_raise _ _ (by decide)⟩
  · rw [lockClearBroken_other ho h]

/-- Settles O52: both end in the one event, which leaves the lock fields alone. -/
theorem releaseByAnotherIsDenied : Obligations.ReleaseByAnotherIsDenied := by
  unfold Obligations.ReleaseByAnotherIsDenied
  intro s n owner hn ho hp h
  refine ⟨s.raise Ev.lockReleaseDenied pgLocks (owner * 256 + n), ?_, ?_, fun k hk => ⟨?_, ?_, ?_⟩,
    s.onlyEvents_raise _ _ (by decide), s.raise_bit _ _ (by decide) (by decide)⟩
  · rw [execLockRelease_passes hn ho hp, lockRelease_other ho h]
  · rw [execLockClearBroken_passes hn ho hp, lockClearBroken_other ho h]
  all_goals exact s.getI_raise_arr _ 64 hk (by decide) (by decide) (by decide) (by decide)

end Sys2Proof.Machine
end

section
/-! Accesses that reach no register. -/

-- One declaration after another, as in the files before: the text is also checked in one piece.
set_option Elab.async false

namespace Sys2Proof.Machine

section
variable {s : State}

/-- A narrow or misaligned access (R52). -/
theorem execAccessBusError_narrow {addr size : Nat} (hs : s.silent = false) (h : size < 4 ∨ addr % 4 ≠ 0) :
    exec (.accessBusError addr size) s = .next { s with resp := .busError } := by
  simp only [exec, execAccessBusError, hs]
  rw [if_pos ⟨rfl, h⟩]

/-- An access within the register slot of a page that is not listed (R51, R53). -/
theorem execUnmappedAccess_slot {n off : Nat} (wr : Bool) (hs : s.silent = false) (hn : n < 256)
    (hp : present n = false) (ho : off < 0x1000) : exec (.unmappedAccess (0x40000000 + n * 0x1000 + off) wr) s =
      .next (unmapped (0x40000000 + n * 0x1000 + off) wr { s with resp := if wr then .none else .data 0 }) := by
  have slot : (0x40000000 + n * 0x1000 + off - 0x40000000) / 0x1000 = n := by omega
  simp only [exec, execUnmappedAccess, slot, hs, hp]
  rw [if_pos ⟨rfl, by omega, by omega, rfl⟩]

/-- A register word written to a slot that is not listed (R53). -/
theorem execRegisterWrite_unlisted {n off : Nat} (data owner : Nat) (hs : s.silent = false) (hn : n < 256)
    (hp : present n = false) (ho : off < 0x1000) (h4 : off % 4 = 0) : exec (.registerWrite n false off data owner) s =
      .next (unmapped (0x40000000 + n * 0x1000 + off) true s) := by
  have hn' : low 8 n = n := low_of_lt hn
  have ho' : low 12 off = off := low_of_lt ho
  simp [exec, execRegisterWrite, registerWrite, gate, hn', ho', hs, hp, h4]

/-- What an access to a slot that is not listed leaves behind (R53). -/
theorem unmapped_facts (addr : Nat) (wr : Bool) (s : State) :
    bitAt ((unmapped addr wr s).get F.Hdr.EVENT_STATUS pgReady) Ev.regUnmappedAccess.bit = true ∧
      s.OnlyEvents (unmapped addr wr s) pgReady [] :=
  ⟨s.raise_bit _ _ (by decide) (by decide), s.onlyEvents_raise _ _ (by decide)⟩

/-- While nothing reaches the part, an access of any kind does nothing (R635). -/
theorem silent_access (hs : s.silent = true) (pg : Nat) (apt : Bool) (off data owner addr size : Nat) (wr : Bool) :
    exec (.registerWrite pg apt off data owner) s = .next s ∧ exec (.accessBusError addr size) s = .next s ∧
      exec (.unmappedAccess addr wr) s = .next s := by
  simp [exec, execRegisterWrite, registerWrite, execAccessBusError, execUnmappedAccess, hs]

end

/-- Settles O10, access by access. -/
theorem busErrorsAndUnmappedSlots : Obligations.BusErrorsAndUnmappedSlots := by
  unfold Obligations.BusErrorsAndUnmappedSlots
  refine fun s => ⟨fun _ _ hs h => execAccessBusError_narrow hs h, fun n off hs hn hp ho =>
    ⟨⟨_, execUnmappedAccess_slot false hs hn hp ho, ?_, unmapped_facts _ _ _⟩,
      ⟨_, execUnmappedAccess_slot true hs hn hp ho, unmapped_facts _ _ _⟩,
      fun data owner h4 => ⟨_, execRegisterWrite_unlisted data owner hs hn hp ho h4, unmapped_facts _ _ _⟩⟩, silent_access⟩
  exact State.raise_resp _ _ _ _

/-- Settles O54: an access that is narrow or not aligned changes the answer alone. -/
theorem narrowOrUnalignedAccess : Obligations.NarrowOrUnalignedAccess := by
  unfold Obligations.NarrowOrUnalignedAccess
  exact fun s _ _ hs h => ⟨_, execAccessBusError_narrow hs h, rfl, rfl⟩

end Sys2Proof.Machine
end

section
/-! Commits of one page. -/

-- One declaration after another, as in the files before: the text is also checked in one piece.
set_option Elab.async false

namespace Sys2Proof.Machine

/-- Stores of registers followed by a change of a boundary record leave the rest alone. -/
theorem State.OnlyRegs.updBnd_rest {s t : State} {ks : List Nat} (h : s.OnlyRegs t ks) (pg : Nat) (f : Bnd → Bnd) :
    t.updBnd pg f = { s with regs := (t.updBnd pg f).regs, bnd := (t.updBnd pg f).bnd } := by
  rw [h.1]
  rfl

section
variable {s : State} {pg : Nat}

theorem ne_pgMode_of_hasBoundary (hb : hasBoundary pg = true) : pg ≠ pgMode := by
  have h := (hasBoundary_lt hb).1
  unfold pgMode
  omega

/-! ### Writes of COMMIT -/

/-- COMMIT with TARGET and TARGET_EN stored (R57). -/
def commitStored (pg target : Nat) (en : Bool) (s : State) : State :=
  (s.set F.Hdr.COMMIT_TARGET pg target).set F.Hdr.TARGET_EN pg (bit en)

/-- A page whose commit waits for its boundary (R65). -/
def commitPending (pg : Nat) (tgt : Option Nat) (s : State) : State :=
  (s.setCstate pg 1).updBnd pg (fun b => { b with tgt := tgt })

/-- A page whose pending commit has been cancelled (R70). -/
def commitCancelled (pg : Nat) (s : State) : State :=
  ((s.setCstate pg 0).set F.Hdr.LATE pg 0).updBnd pg (fun b => { b with tgt := none })

theorem cstate_setCstate {v : Nat} (h : v < 4) : (s.setCstate pg v).cstate pg = v :=
  (s.get_set_self F.Hdr.COMMIT_STATE pg v).trans (low_of_lt h)

/-- A boundary record holds no register. -/
theorem get_updBnd (f : Fld) (q : Nat) (x : Bnd → Bnd) : (s.updBnd pg x).get f q = s.get f q := rfl

theorem cstate_updBnd (q : Nat) (x : Bnd → Bnd) : (s.updBnd pg x).cstate q = s.cstate q := rfl

theorem bndOf_setCstate (q v : Nat) : (s.setCstate pg v).bndOf q = s.bndOf q := rfl

theorem commitPending_cstate (tgt : Option Nat) : (commitPending pg tgt s).cstate pg = 1 := by
  rw [commitPending, cstate_updBnd, cstate_setCstate (by decide)]

theorem commitPending_tgt (tgt : Option Nat) : ((commitPending pg tgt s).bndOf pg).tgt = tgt := by
  simp [commitPending]

theorem commitPending_target (tgt : Option Nat) :
    (commitPending pg tgt s).get F.Hdr.COMMIT_TARGET pg = s.get F.Hdr.COMMIT_TARGET pg := by
  rw [commitPending, get_updBnd, State.setCstate, State.get_set_lo _ (by decide) (by decide) (by decide)]

theorem commitCancelled_facts : (commitCancelled pg s).cstate pg = 0 ∧ (commitCancelled pg s).get F.Hdr.LATE pg = 0 ∧
    ((commitCancelled pg s).bndOf pg).tgt = none := by
  refine ⟨?_, (s.setCstate pg 0).get_set_self F.Hdr.LATE pg 0, by simp [commitCancelled]⟩
  rw [commitCancelled, cstate_updBnd, State.cstate, State.get_set_lo _ (by decide) (by decide) (by decide)]
  exact cstate_setCstate (by decide)

theorem commitStored_onlyRegs (target : Nat) (en : Bool) : s.OnlyRegs (commitStored pg target en s)
    [F.Hdr.COMMIT_TARGET.key pg 0, F.Hdr.TARGET_EN.key pg 0] :=
  (s.onlyRegs_setI F.Hdr.COMMIT_TARGET pg 0 target).setI F.Hdr.TARGET_EN pg 0 (bit en)

theorem commitStored_cstate (target : Nat) (en : Bool) : (commitStored pg target en s).cstate pg = s.cstate pg := by
  unfold commitStored State.cstate
  rw [State.get_set_lo _ (by decide) (by decide) (by decide), State.get_set_lo _ (by decide) (by decide) (by decide)]

theorem commitStored_target (target : Nat) (en : Bool) :
    (commitStored pg target en s).get F.Hdr.COMMIT_TARGET pg = low 16 target := by
  unfold commitStored
  rw [State.get_set_lo _ (by decide) (by decide) (by decide), State.get_set_self]
  rfl

theorem commitStored_groupOf (hb : hasBoundary pg = true) (target : Nat) (en : Bool) :
    (commitStored pg target en s).groupOf pg = s.groupOf pg := by
  have hm := ne_pgMode_of_hasBoundary hb
  unfold commitStored
  rw [groupOf_setC _ hb (by decide) (by decide) hm, groupOf_setC _ hb (by decide) (by decide) hm]

theorem commitStored_shadowBad (target : Nat) (en : Bool) :
    (commitStored pg target en s).shadowBad pg = s.shadowBad pg := by
  unfold commitStored
  rw [shadowBad_setC _ rfl rfl (by decide), shadowBad_setC _ rfl rfl (by decide)]

theorem commitWrite_request (hb : hasBoundary pg = true) (target : Nat) (en : Bool) :
    commitWrite pg target en false true s =
      commitRequest pg (if en then some (low 16 target) else none) (commitStored pg target en s) := if_pos hb

theorem commitWrite_cancel (hb : hasBoundary pg = true) (target : Nat) (en : Bool) :
    commitWrite pg target en true false s = commitCancel pg (commitStored pg target en s) := if_pos hb

/-- A request for a boundary that is to come stands before the lead point, whether the function runs or has stopped (R65,
R69, R72). -/
theorem requestArrives_early {tgt : Option Nat} (hl : (s.bndOf pg).leadPassed = false)
    (ht : ∀ t, tgt = some t → (t + 65536 - (s.bndOf pg).next % 65536) % 65536 ≤ 32767) :
    requestArrives pg tgt s = commitPending pg tgt s := by
  unfold requestArrives
  cases tgt with
  | none => simp [hl, commitPending]
  | some t =>
    have near := Nat.not_lt.mpr (ht t rfl)
    simp [hl, near, commitPending]

/-- A request at an idle page of no group whose phase table is valid (R65, R78, R277). -/
theorem commitRequest_idle {tgt : Option Nat} (hb : hasBoundary pg = true) (hg : s.groupOf pg = none)
    (hc : s.cstate pg = 0) (hv : s.shadowBad pg = false) : commitRequest pg tgt s = requestArrives pg tgt s := by
  simp [commitRequest, requestTested, hb, hg, hc, hv]

theorem commitCancel_pending (hc : s.cstate pg = 1) : commitCancel pg s = commitCancelled pg s := if_pos hc

/-- A COMMIT write that passes, on a part that sends no mirror message for it. -/
theorem execCommitRequest_passes {owner : Nat} (hp : s.passes pg owner = true) (target : Nat) (en : Bool)
    (hm : (commitWrite pg target en false true s).cal.mirror = []) :
    exec (.commitRequest pg target en false owner) s = .next (commitWrite pg target en false true s) := by
  simp only [exec, execCommitRequest, gateReg_passes hp, commitBy]
  rw [if_neg (by simp [hm])]

theorem execCommitCancel_passes {owner : Nat} (hp : s.passes pg owner = true) : exec (.commitCancel pg owner) s =
    .next (commitWrite pg (s.get F.Hdr.COMMIT_TARGET pg) (s.on F.Hdr.TARGET_EN pg) true false s) := by
  simp only [exec, execCommitCancel, gateReg_passes hp]

/-- A request that makes an idle page PENDING (R65, R69). -/
theorem commitRequest_facts {owner target : Nat} {en : Bool} (hb : hasBoundary pg = true) (hp : s.passes pg owner = true)
    (hg : s.groupOf pg = none) (hc : s.cstate pg = 0) (hl : (s.bndOf pg).leadPassed = false)
    (hv : s.shadowBad pg = false) (hm : s.cal.mirror = [])
    (ht : en = true → (low 16 target + 65536 - (s.bndOf pg).next % 65536) % 65536 ≤ 32767) :
    ∃ t, exec (.commitRequest pg target en false owner) s = .next t ∧ t.cstate pg = 1 ∧
      (t.bndOf pg).tgt = (if en then some (low 16 target) else none) ∧ t.get F.Hdr.COMMIT_TARGET pg = low 16 target ∧
      t = { s with regs := t.regs, bnd := t.bnd } ∧
      s.RegsBut t [F.Hdr.COMMIT_TARGET.key pg 0, F.Hdr.TARGET_EN.key pg 0, F.Hdr.COMMIT_STATE.key pg 0] := by
  have early : ∀ t, (if en then some (low 16 target) else none) = some t →
      ((t + 65536 - (s.bndOf pg).next % 65536) % 65536 ≤ 32767) := by
    intro t h
    split at h
    case isTrue hen =>
      cases h
      exact ht hen
    case isFalse => cases h
  have written : commitWrite pg target en false true s =
      commitPending pg (if en then some (low 16 target) else none) (commitStored pg target en s) := by
    rw [commitWrite_request hb, commitRequest_idle hb ((commitStored_groupOf hb _ _).trans hg)
      ((commitStored_cstate _ _).trans hc) ((commitStored_shadowBad _ _).trans hv),
      requestArrives_early (s := commitStored pg target en s) hl early]
  have stores := (commitStored_onlyRegs (s := s) (pg := pg) target en).setI F.Hdr.COMMIT_STATE pg 0 1
  refine ⟨_, (execCommitRequest_passes hp _ _ (by rw [written]; exact hm)).trans (congrArg Host.Outcome.next written),
    commitPending_cstate _, commitPending_tgt _, (commitPending_target _).trans (commitStored_target _ _),
    stores.updBnd_rest pg _, stores.2⟩

/-- A cancel that returns a PENDING page to IDLE (R70). -/
theorem commitCancel_facts {owner : Nat} (hb : hasBoundary pg = true) (hp : s.passes pg owner = true)
    (hc : s.cstate pg = 1) : ∃ t, exec (.commitCancel pg owner) s = .next t ∧ t.cstate pg = 0 ∧
      t.get F.Hdr.LATE pg = 0 ∧ (t.bndOf pg).tgt = none ∧ t = { s with regs := t.regs, bnd := t.bnd } := by
  obtain ⟨hidle, hlate, htgt⟩ := commitCancelled_facts (pg := pg)
    (s := commitStored pg (s.get F.Hdr.COMMIT_TARGET pg) (s.on F.Hdr.TARGET_EN pg) s)
  have stores := ((commitStored_onlyRegs (s := s) (pg := pg) (s.get F.Hdr.COMMIT_TARGET pg)
    (s.on F.Hdr.TARGET_EN pg)).setI F.Hdr.COMMIT_STATE pg 0 0).setI F.Hdr.LATE pg 0 0
  exact ⟨_, (execCommitCancel_passes hp).trans (congrArg Host.Outcome.next ((commitWrite_cancel hb _ _).trans
    (commitCancel_pending ((commitStored_cstate _ _).trans hc)))), hidle, hlate, htgt,
    stores.updBnd_rest pg _⟩

/-! ### Boundaries -/

/-- A page that is frozen at its lead point (R65). -/
def leadFrozen (pg : Nat) (s : State) : State :=
  (s.updBnd pg (fun b => { b with leadPassed := true })).setCstate pg 2

/-- The lead point of the boundary that a pending commit waits for (R65). -/
theorem leadPoint_freezes (hb : hasBoundary pg = true) (hs : s.stopped pg = false)
    (hl : (s.bndOf pg).leadPassed = false) (hc : s.cstate pg = 1) (hv : s.shadowBad pg = false)
    (ht : (s.bndOf pg).tgt = none ∨ (s.bndOf pg).tgt = some ((s.bndOf pg).next % 65536)) :
    leadPoint pg s = leadFrozen pg s := by
  have hv' : (s.updBnd pg (fun b => { b with leadPassed := true })).shadowBad pg = false := hv
  rcases ht with ht | ht <;> simp [leadPoint, leadFrozen, hb, hs, hl, hc, hv', ht]

theorem leadFrozen_facts : (leadFrozen pg s).cstate pg = 2 ∧ ((leadFrozen pg s).bndOf pg).leadPassed = true ∧
    leadFrozen pg s = { s with regs := (leadFrozen pg s).regs, bnd := (leadFrozen pg s).bnd } ∧
    s.RegsBut (leadFrozen pg s) [F.Hdr.COMMIT_STATE.key pg 0] := by
  refine ⟨cstate_setCstate (by decide), ?_, rfl, (s.onlyRegs_setI F.Hdr.COMMIT_STATE pg 0 2).2⟩
  rw [leadFrozen, bndOf_setCstate, bndOf_updBnd]

/-- A page past its reference instant, where its frozen commit has swapped (R65). -/
def boundarySwapped (pg : Nat) (s : State) : State :=
  ((swapSets pg s).set F.Hdr.LAST_BOUNDARY pg (s.nextBoundary pg)).updBnd pg
    (fun b => { b with next := (s.nextBoundary pg + 1) % 2 ^ 32, leadPassed := false })

/-- The reference instant of a FROZEN page that no group holds (R65). -/
theorem referenceInstant_swaps (hb : hasBoundary pg = true) (hs : s.stopped pg = false) (hc : s.cstate pg = 2)
    (hg : s.groupToSwap pg = none) (hh : s.on F.Hdr.HOLD pg = false) :
    referenceInstant pg s = boundarySwapped pg s := by
  simp [referenceInstant, boundarySwapped, hb, hs, hc, hg, hh]

theorem execCommitSwap_leadPassed (hb : hasBoundary pg = true) (hs : s.stopped pg = false)
    (hl : (s.bndOf pg).leadPassed = true) : exec (.commitSwap pg) s = .next (referenceInstant pg s) := by
  simp only [exec, execCommitSwap]
  rw [if_pos ⟨hb, hs, hl⟩]

theorem boundarySwapped_facts : (boundarySwapped pg s).nextBoundary pg = (s.nextBoundary pg + 1) % 2 ^ 32 ∧
    ((boundarySwapped pg s).bndOf pg).leadPassed = false ∧
    (boundarySwapped pg s).get F.Hdr.LAST_BOUNDARY pg = low 24 (s.nextBoundary pg) :=
  ⟨by simp [boundarySwapped, State.nextBoundary], by simp [boundarySwapped],
    (swapSets pg s).get_set_self F.Hdr.LAST_BOUNDARY pg (s.nextBoundary pg)⟩

/-- A page that is none of a camera's and none of screening is COPYING with its other set active after its swap (R65). -/
theorem boundarySwapped_copying (hk : boundaryKind pg ≠ 2) (hw : within pg 0x06C 0x06F = false) :
    (boundarySwapped pg s).cstate pg = 3 ∧
      (boundarySwapped pg s).get F.Hdr.ACTIVE_SET pg = low 1 (1 - s.get F.Hdr.ACTIVE_SET pg) := by
  obtain ⟨hc, ha⟩ := swapSets_facts s hk hw
  exact ⟨((swapSets pg s).get_set_lo (f := F.Hdr.LAST_BOUNDARY) (by decide) (by decide) (by decide)).trans hc,
    ((swapSets pg s).get_set_lo (f := F.Hdr.LAST_BOUNDARY) (by decide) (by decide) (by decide)).trans ha⟩

/-- An untargeted commit of a stopped function that no group holds (R72). -/
theorem stoppedSwap_swaps (hb : hasBoundary pg = true) (hs : s.stopped pg = true) (hw : s.groupToSwap pg = none)
    (hg : s.groupOf pg = none) (hc : s.cstate pg = 1) (ht : (s.bndOf pg).tgt = none) :
    stoppedSwap pg s = swapSets pg s := by
  simp [stoppedSwap, hb, hs, hw, hg, hc, ht]

/-! ### Copy-back -/

/-- Copying the active set changes the shadow copies alone (R67). -/
theorem copySets_grp (written : List Nat) : (copySets pg written s).grp = s.grp := by
  show (forAll (shadowFields pg) s (copyField pg written)).grp = s.grp
  refine forAll_keeps _ _ _ _ fun f s => ?_
  refine forAll_keeps _ _ _ _ fun i s => ?_
  split <;> rfl

/-- A page whose copies are equal again, with no request held (R67). -/
def copiedBack (pg : Nat) (s : State) : State :=
  ((copySets pg (s.bndOf pg).written s).setCstate pg 0).updBnd pg (fun b => { b with written := [], held := none })

theorem copiedBack_facts : (copiedBack pg s).cstate pg = 0 ∧ ((copiedBack pg s).bndOf pg).written = [] :=
  ⟨by rw [copiedBack, cstate_updBnd, cstate_setCstate (by decide)], by simp [copiedBack]⟩

/-- With no group in progress none waits for a page's copy. -/
theorem find_copying_none (h : s.grp = []) :
    (List.range 8).find? (fun g => (s.grpOf g).copying.contains pg) = none := by
  rw [List.find?_eq_none]
  intro g _
  simp [State.grpOf, h, tget, tfind]

/-- The end of copy-back with nothing held and no group in progress (R67). -/
theorem copyBackDone_idle (hc : s.cstate pg = 3) (hh : (s.bndOf pg).held = none) (hg : s.grp = []) :
    copyBackDone pg s = copiedBack pg s := by
  have nobody := find_copying_none (s := copiedBack pg s) (pg := pg) ((copySets_grp _).trans hg)
  unfold copyBackDone
  simp only [if_pos hc, hh]
  rw [show (((copySets pg (s.bndOf pg).written s).setCstate pg 0).updBnd pg
    (fun b => { b with written := [], held := none })) = copiedBack pg s from rfl, nobody]

end

/-- Settles O11, by what a request, a cancel and each boundary make of the page. -/
theorem commitOfOnePage : Obligations.CommitOfOnePage := by
  unfold Obligations.CommitOfOnePage
  intro s pg owner hb
  refine ⟨fun _ _ => commitRequest_facts hb, commitCancel_facts hb, fun hs hl hc hv ht => ?lead,
    fun hs hl hc hg hh => ?swap, fun hs hw hg hc ht => ?stopped, fun hc hh hg => ?copied⟩
  case lead => exact ⟨leadFrozen pg s, congrArg Host.Outcome.next (leadPoint_freezes hb hs hl hc hv ht), leadFrozen_facts⟩
  case swap =>
    obtain ⟨hnext, hlead, hlast⟩ := boundarySwapped_facts (s := s) (pg := pg)
    exact ⟨_, (execCommitSwap_leadPassed hb hs hl).trans (congrArg Host.Outcome.next (referenceInstant_swaps hb hs hc hg hh)),
      hnext, hlead, hlast, boundarySwapped_copying⟩
  case stopped =>
    exact ⟨swapSets pg s, congrArg Host.Outcome.next (stoppedSwap_swaps hb hs hw hg hc ht), swapSets_facts s⟩
  case copied => exact ⟨copiedBack pg s, congrArg Host.Outcome.next (copyBackDone_idle hc hh hg), copiedBack_facts⟩

end Sys2Proof.Machine
end

section
/-! Commits of a group. -/

-- One declaration after another, as in the files before: the text is also checked in one piece.
set_option Elab.async false

namespace Sys2Proof.Machine

/-- Stores of registers followed by a change of a group's record leave the rest alone. -/
theorem State.OnlyRegs.updGrp_rest {s t : State} {ks : List Nat} (h : s.OnlyRegs t ks) (g : Nat) (f : Grp → Grp) :
    t.updGrp g f = { s with regs := (t.updGrp g f).regs, grp := (t.updGrp g f).grp } := by
  rw [h.1]
  rfl

section
variable {s : State} {g : Nat}

/-- GROUP_CTRL with TARGET and TARGET_EN stored (R77). -/
def groupStored (g target : Nat) (en : Bool) (s : State) : State :=
  (s.setI F.Group.GROUP_CTRL_TARGET pgMode g target).setI F.Group.TARGET_EN pgMode g (bit en)

theorem groupStored_onlyRegs (target : Nat) (en : Bool) : s.OnlyRegs (groupStored g target en s)
    [F.Group.GROUP_CTRL_TARGET.key pgMode g, F.Group.TARGET_EN.key pgMode g] :=
  (s.onlyRegs_setI F.Group.GROUP_CTRL_TARGET pgMode g target).setI F.Group.TARGET_EN pgMode g (bit en)

theorem groupStored_target (target : Nat) (en : Bool) :
    (groupStored g target en s).getI F.Group.GROUP_CTRL_TARGET pgMode g = low 16 target := by
  unfold groupStored
  rw [State.getI_setI_lo _ (by decide) (by decide) (by decide), State.getI_setI_self]
  rfl

theorem groupStored_gstate (target : Nat) (en : Bool) : (groupStored g target en s).gstate g = s.gstate g := by
  unfold groupStored State.gstate
  rw [State.getI_setI_lo _ (by decide) (by decide) (by decide), State.getI_setI_lo _ (by decide) (by decide) (by decide)]

/-- A group in a state of its commit with a TARGET, carried past no boundary (R77). -/
def groupMoved (g v : Nat) (tgt : Option Nat) (s : State) : State :=
  (s.setGstate g v).updGrp g (fun x => { x with tgt := tgt, carried := none })

theorem groupMoved_gstate {v : Nat} (h : v < 4) (tgt : Option Nat) : (groupMoved g v tgt s).gstate g = v :=
  (s.getI_setI_self F.Group.GROUP_STATE_STATE pgMode g v).trans (low_of_lt h)

theorem groupMoved_tgt (v : Nat) (tgt : Option Nat) : ((groupMoved g v tgt s).grpOf g).tgt = tgt := by
  simp [groupMoved]

/-- An untargeted request at an idle group that is legal and runs, before its lead point (R76, R77). -/
theorem groupRequest_untargeted (hs : s.gstate g = 0) (ho : s.groupOffender g = none) (hr : s.runningMembers g ≠ [])
    (hl : s.groupLeadPassed g = false) : groupRequest g none s = groupMoved g 1 none s := by
  simp [groupRequest, groupArrives, groupMoved, hs, ho, hr, hl]

theorem groupCancel_pending (hs : s.gstate g = 1) : groupCancel g s = groupMoved g 0 none s := if_pos hs

/-- An untargeted GROUP_CTRL request that passes (R77). -/
theorem execGroupRequest_passes {owner : Nat} (hg : g < 8) (hp : s.passes pgMode owner = true) (target : Nat) :
    exec (.groupRequest g target false false owner) s = .next (groupRequest g none (groupStored g target false s)) := by
  simp only [exec, execGroupRequest, if_pos hg, gateReg_passes hp]
  rfl

/-- A GROUP_CTRL cancel that passes (R70). -/
theorem execGroupCancel_passes {owner : Nat} (hg : g < 8) (hp : s.passes pgMode owner = true) :
    exec (.groupCancel g owner) s = .next (groupCancel g (groupStored g
      (s.getI F.Group.GROUP_CTRL_TARGET pgMode g) (s.onI F.Group.TARGET_EN pgMode g) s)) := by
  simp only [exec, execGroupCancel, if_pos hg, gateReg_passes hp]
  rfl

/-- A group that is frozen for a boundary, none of its members swapped (R77). -/
def groupFrozen (g : Nat) (s : State) : State :=
  (s.setGstate g 2).updGrp g
    (fun x => { x with boundary := s.groupNext g, toSwap := s.groupMembers g, copying := [] })

theorem groupFrozen_facts : (groupFrozen g s).gstate g = 2 ∧ ((groupFrozen g s).grpOf g).boundary = s.groupNext g ∧
    ((groupFrozen g s).grpOf g).toSwap = s.groupMembers g ∧
    groupFrozen g s = { s with regs := (groupFrozen g s).regs, grp := (groupFrozen g s).grp } ∧
    s.RegsBut (groupFrozen g s) [F.Group.GROUP_STATE_STATE.key pgMode g] :=
  ⟨s.getI_setI_self F.Group.GROUP_STATE_STATE pgMode g 2, by simp [groupFrozen], by simp [groupFrozen], rfl,
    (s.onlyRegs_setI F.Group.GROUP_STATE_STATE pgMode g 2).2⟩

/-- The lead point of a group whose untargeted commit is pending and was carried past no boundary (R77). -/
theorem groupLead_freezes (hs : s.gstate g = 1) (hr : s.runningMembers g ≠ []) (ht : (s.grpOf g).tgt = none)
    (hc : (s.grpOf g).carried = none) (hv : (s.groupMembers g).any s.shadowBad = false) :
    groupLead g s = forAll (s.groupMembers g) (groupFrozen g s) (fun pg u =>
      if u.stopped pg then swapMember g (some (s.groupNext g)) pg u else u.setCstate pg 2) := by
  unfold groupLead
  simp [hs, hr, ht, hc, hv, groupFrozen]

end

/-- Settles O12, by what each request and the lead point make of the group. -/
theorem groupCommitRequests : Obligations.GroupCommitRequests := by
  unfold Obligations.GroupCommitRequests
  intro s g owner hg
  refine ⟨fun hp target => ?request, fun hp hs => ?cancel, fun hs hr ht hc hv => ?lead⟩
  case request =>
    have run := execGroupRequest_passes hg hp target
    refine ⟨groupStored g target false s, groupStored_target _ _, groupStored_onlyRegs _ _, run, fun h0 ho hr hl => ?_⟩
    exact ⟨_, run.trans (congrArg Host.Outcome.next (groupRequest_untargeted h0 ho hr hl)),
      groupMoved_gstate (by decide) _, groupMoved_tgt _ _, (State.onlyRegs_setI _ _ _ _ _).updGrp_rest g _,
      (State.onlyRegs_setI _ F.Group.GROUP_STATE_STATE pgMode g 1).2⟩
  case cancel =>
    have cancels := groupCancel_pending ((groupStored_gstate (s := s) (g := g)
      (s.getI F.Group.GROUP_CTRL_TARGET pgMode g) (s.onI F.Group.TARGET_EN pgMode g)).trans hs)
    exact ⟨_, (execGroupCancel_passes hg hp).trans (congrArg Host.Outcome.next cancels),
      groupMoved_gstate (by decide) _, groupMoved_tgt _ _,
      ((groupStored_onlyRegs _ _).setI F.Group.GROUP_STATE_STATE pgMode g 0).updGrp_rest g _⟩
  case lead =>
    obtain ⟨hstate, hnum, hswap, hrest, hregs⟩ := groupFrozen_facts (s := s) (g := g)
    refine ⟨groupFrozen g s, hstate, hnum, hswap, hrest, hregs, ?_⟩
    simp only [exec, execGroupLeadPoint, if_pos hg, groupLead_freezes hs hr ht hc hv]

end Sys2Proof.Machine
end

section
/-! CONTROL: enable, hold, quiesce and function reset. -/

-- One declaration after another, as in the files before: the text is also checked in one piece.
set_option Elab.async false

namespace Sys2Proof.Machine

section
variable {s : State} {pg : Nat}

/-! ### ENABLE -/

/-- The word that a write of ENABLE alone carries: HOLD and QUIESCE as they are. -/
def enableWord (s : State) (pg : Nat) (on : Bool) : Nat := s.get F.Hdr.HOLD pg * 8 + s.get F.Hdr.QUIESCE pg * 4 + bit on

theorem execControlEnable_up (hp : present pg = true) (hs : s.silent = false) (on : Bool) :
    exec (.controlEnable pg on) s = .next (controlEnable pg on (enableWord s pg on) s) := by
  simp only [exec, execControlEnable, hs]
  rw [if_pos ⟨hp, rfl⟩]
  rfl

theorem controlEnable_starts (data : Nat) (hr : s.ready pg = true) (he : s.on F.Hdr.ENABLE pg = false) :
    controlEnable pg true data s = blockStart pg (s.set F.Hdr.ENABLE pg 1) := by
  simp [controlEnable, State.lockedOut, hr, he]

theorem controlEnable_lockedOut (data : Nat) (hr : s.ready pg = false) :
    controlEnable pg true data s = s.raise Ev.regWriteLockedOut pg (arg64 data 8) := by
  simp [controlEnable, State.lockedOut, hr]

theorem controlEnable_stops (data : Nat) (he : s.on F.Hdr.ENABLE pg = true) :
    controlEnable pg false data s = blockStop pg (s.set F.Hdr.ENABLE pg 0) := by
  simp [controlEnable, he]

/-! ### HOLD and QUIESCE -/

theorem execControlHold_up (hp : present pg = true) (hs : s.silent = false) (v : Bool) :
    exec (.controlHold pg v) s = .next (blockHold pg v (s.set F.Hdr.HOLD pg (bit v))) := by
  simp only [exec, execControlHold, hs]
  rw [if_pos ⟨hp, rfl⟩]

theorem execControlQuiesce_up (hp : present pg = true) (hs : s.silent = false) :
    exec (.controlQuiesce pg) s = .next (fabricQuiesce pg true s) := by
  simp only [exec, execControlQuiesce, hs]
  rw [if_pos ⟨hp, rfl⟩]

theorem execControlReleaseQuiesce_up (hp : present pg = true) (hs : s.silent = false) :
    exec (.controlReleaseQuiesce pg) s = .next (fabricQuiesce pg false s) := by
  simp only [exec, execControlReleaseQuiesce, hs]
  rw [if_pos ⟨hp, rfl⟩]

/-- Beside a ring operation on QUIESCE in the same cycle a fabric write of it does nothing (R123). -/
theorem fabricQuiesce_ringQuiesced (on : Bool) (h : s.ringQuiesced pg = true) : fabricQuiesce pg on s = s := if_pos h

/-- QUIESCE stored, with the instant at which it became 1, none where it became 0 (R117, R118). -/
def quiesceStored (pg v : Nat) (since : Option Nat) (s : State) : State :=
  (s.set F.Hdr.QUIESCE pg v).updBnd pg (fun b => { b with quiesceAt := since })

theorem fabricQuiesce_sets (h : s.ringQuiesced pg = false) (hq : s.on F.Hdr.QUIESCE pg = false) :
    fabricQuiesce pg true s = quiesceStored pg 1 (some s.now) s := by
  simp [fabricQuiesce, quiesce, quiesceStored, h, hq]

theorem fabricQuiesce_releases (h : s.ringQuiesced pg = false) (hq : s.on F.Hdr.QUIESCE pg = true) :
    fabricQuiesce pg false s = blockRelease pg (quiesceStored pg 0 none s) := by
  simp [fabricQuiesce, releaseQuiesce, quiesceStored, h, hq]

theorem quiesceStored_facts (v : Nat) (since : Option Nat) :
    (quiesceStored pg v since s).get F.Hdr.QUIESCE pg = low 1 v ∧ ((quiesceStored pg v since s).bndOf pg).quiesceAt = since ∧
      quiesceStored pg v since s =
        { s with regs := (quiesceStored pg v since s).regs, bnd := (quiesceStored pg v since s).bnd } ∧
      s.RegsBut (quiesceStored pg v since s) [F.Hdr.QUIESCE.key pg 0] :=
  ⟨State.get_set_self _ _ _ _, by simp [quiesceStored], rfl, (s.onlyRegs_setI F.Hdr.QUIESCE pg 0 v).2⟩

/-- QUIESCE for 20 µs that leaves BUSY (R118). -/
theorem execQuiesceTimeout_due {t0 : Nat} (h0 : (s.bndOf pg).quiesceAt = some t0) (hq : s.on F.Hdr.QUIESCE pg = true)
    (hb : s.busy pg = true) (hd : t0 + 20000 ≤ s.now) : exec (.quiesceTimeout pg) s = .next
      ((s.updBnd pg (fun b => { b with quiesceAt := none })).raise Ev.regQuiesceTimeout pgReady pg) := by
  simp only [exec, execQuiesceTimeout, h0]
  rw [if_pos ⟨hq, hb, hd⟩]

/-! ### Function reset -/

/-- A function reset of a page that is not of a cluster takes this page alone (R23). -/
theorem execControlFuncReset_single (owner : Nat) (hs : s.silent = false) (hc : within pg 0x040 0x04B = false) :
    exec (.controlFuncReset pg owner) s = .next (resetPage pg (low 8 owner) s) := by
  simp [exec, execControlFuncReset, funcReset, resetPages, forAll, hs, hc]

/-- A function reset marks its page and raises REG.FUNC_RESET (R119, R121). -/
theorem resetPage_facts (requester : Nat) (hp : present pg = true) (hr : (s.bndOf pg).resetting = false) :
    ((resetPage pg requester s).bndOf pg).resetting = true ∧
      bitAt ((resetPage pg requester s).get F.Hdr.EVENT_STATUS pgReady) Ev.regFuncReset.bit = true := by
  unfold resetPage
  rw [if_neg (by simp [hp, hr])]
  extract_lets s1 s2 s3 s4
  have cancelled : s4.bnd = s3.bnd := by
    unfold s4
    split
    · exact forAll_keeps _ _ _ State.bnd groupCancel_bnd
    · rfl
  refine ⟨?_, s4.raise_bit _ _ (by decide) (by decide)⟩
  rw [ringJoin_resetting, State.bndOf, State.raise_bnd, cancelled]
  show (s3.bndOf pg).resetting = true
  simp [s3]

end

/-- Settles O9, bit by bit of CONTROL. -/
theorem controlBitsAct : Obligations.ControlBitsAct := by
  unfold Obligations.ControlBitsAct
  intro s pg hp hs
  rw [execControlQuiesce_up hp hs, execControlReleaseQuiesce_up hp hs]
  refine ⟨fun hr he => ?_, fun hr => ?_, fun he => ?_, execControlHold_up hp hs, fun hn hq => ?_, fun hn hq => ?_,
    fun h => ⟨?_, ?_⟩, fun owner hc hr => ?_, fun t0 => execQuiesceTimeout_due⟩
  · rw [execControlEnable_up hp hs, controlEnable_starts _ hr he]
  · rw [execControlEnable_up hp hs, controlEnable_lockedOut _ hr]
    rfl
  · rw [execControlEnable_up hp hs, controlEnable_stops _ he]
  · obtain ⟨hbit, hat, hrest, hregs⟩ := quiesceStored_facts (s := s) (pg := pg) 1 (some s.now)
    exact ⟨_, congrArg Host.Outcome.next (fabricQuiesce_sets hn hq), by rw [State.on, hbit]; rfl, hat, hrest, hregs⟩
  · obtain ⟨hbit, hat, hrest, hregs⟩ := quiesceStored_facts (s := s) (pg := pg) 0 none
    exact ⟨_, congrArg Host.Outcome.next (fabricQuiesce_releases hn hq), by rw [State.on, hbit]; rfl, hat, hrest, hregs⟩
  · rw [fabricQuiesce_ringQuiesced _ h]
  · rw [fabricQuiesce_ringQuiesced _ h]
  · exact ⟨_, execControlFuncReset_single owner hs hc, resetPage_facts _ hp hr⟩

end Sys2Proof.Machine
end

section
/-! Ends of transitions, bring-up and READY. -/

-- One declaration after another, as in the files before: the text is also checked in one piece.
set_option Elab.async false

namespace Sys2Proof.Machine

section
variable {s : State}

/-! ### Leaving Bisque -/

/-- AUTO_IDLE with its conditions met (R97). -/
theorem execAutoIdle_due (hm : s.modeNow = 1) (htr : s.inTransition = false) (hp : s.mode.porst = false)
    (ha : s.on F.Mode.AUTO_IDLE pgMode = true) (hr : s.ready pgMode = true) (hn : s.missingPages = [])
    (hc : s.get F.Mode.SAFE_HOLD_CAUSE pgMode = 0) : exec .autoIdle s = .next (startTransition 2 s) :=
  congrArg Host.Outcome.next (if_pos ⟨hm, htr, hp, ha, hr, hn, hc⟩)

/-- The timeout of Bisque noted, so that it is raised once (R110). -/
def bisqueTimeoutNoted (s : State) : State := { s with mode := { s.mode with bisqueTimeout := true } }

/-- BISQUE_TIMEOUT with its conditions met raises its event (R110). -/
theorem execBisqueTimeout_due (hm : s.modeNow = 1) (hp : s.mode.porst = false) (hb : s.mode.bisqueTimeout = false)
    (hn : s.missingPages ≠ []) (ht : s.mode.bisqueSince + s.get F.Mode.BISQUE_LIMIT pgMode * 1000000 ≤ s.now) :
    exec .bisqueTimeout s = .next ((bisqueTimeoutNoted s).raise Ev.regBisqueTimeout pgMode
      (arg64 s.missingPages.length (s.missingPages.headD 0))) :=
  congrArg Host.Outcome.next (if_pos ⟨hm, hp, hb, hn, ht⟩)

/-- In a Bisque whose timeout is noted BISQUE_TIMEOUT is not due. -/
theorem execBisqueTimeout_noted (hb : s.mode.bisqueTimeout = true) : exec .bisqueTimeout s = .next s :=
  congrArg Host.Outcome.next (if_neg fun ⟨_, _, hb', _⟩ => by simp [hb] at hb')

theorem bisqueTimeoutNoted_raise_facts (arg : Nat) :
    let t := (bisqueTimeoutNoted s).raise Ev.regBisqueTimeout pgMode arg
    t.mode.bisqueTimeout = true ∧ t.modeNow = s.modeNow ∧
      bitAt (t.get F.Hdr.EVENT_STATUS pgMode) Ev.regBisqueTimeout.bit = true ∧ (bisqueTimeoutNoted s).OnlyEvents t pgMode [] := by
  intro t
  have hev : (bisqueTimeoutNoted s).OnlyEvents t pgMode [] := State.onlyEvents_raise _ _ _ (by decide)
  refine ⟨?_, ?_, State.raise_bit _ _ _ (by decide) (by decide), hev⟩
  · rw [hev.1]; rfl
  · exact State.get_raise_off (bisqueTimeoutNoted s) _ (by decide) (by decide) (by decide) (by decide)

/-! ### The end of a transition -/

/-- BISQUE_ELAPSED takes the time spent in Bisque as the part leaves it (R98). -/
def bisqueElapsedStored (s : State) : State :=
  if s.modeNow = 1 then s.set F.Rdy.BISQUE_ELAPSED pgReady (min ((s.now - s.mode.bisqueSince) / 1000000) 65535) else s

theorem bisqueElapsedStored_onlyRegs : s.OnlyRegs (bisqueElapsedStored s) [F.Rdy.BISQUE_ELAPSED.key pgReady 0] := by
  unfold bisqueElapsedStored
  split
  · exact s.onlyRegs_setI _ _ _ _
  · exact State.OnlyRegs.refl _ _

/-- The mode fields of the end of a transition, before its event (R98). -/
def modeStored (new : Nat) (s : State) : State :=
  (((bisqueElapsedStored s).set F.Mode.PREV_MODE pgMode s.modeNow).set F.Mode.MODE pgMode new).set F.Mode.IN_TRANSITION pgMode 0

theorem modeStored_onlyRegs (new : Nat) (s : State) : s.OnlyRegs (modeStored new s)
    [F.Rdy.BISQUE_ELAPSED.key pgReady 0, F.Mode.PREV_MODE.key pgMode 0, F.Mode.MODE.key pgMode 0, F.Mode.IN_TRANSITION.key pgMode 0] :=
  ((bisqueElapsedStored_onlyRegs.setI F.Mode.PREV_MODE pgMode 0 _).setI F.Mode.MODE pgMode 0 _).setI F.Mode.IN_TRANSITION pgMode 0 _

theorem modeStored_facts (new : Nat) (s : State) : (modeStored new s).get F.Mode.MODE pgMode = low 3 new ∧
    (modeStored new s).get F.Mode.PREV_MODE pgMode = low 3 s.modeNow ∧ (modeStored new s).get F.Mode.IN_TRANSITION pgMode = 0 := by
  unfold modeStored
  refine ⟨?_, ?_, ?_⟩
  · rw [State.get_set_off _ (by decide), State.get_set_self]; rfl
  · rw [State.get_set_off _ (by decide), State.get_set_off _ (by decide), State.get_set_self]; rfl
  · rw [State.get_set_self]; rfl

/-- The stop of the data path lasts for Safe-Hold only (R102). -/
def pathStopFollows (new : Nat) (s : State) : State :=
  { s with mode := { s.mode with pathStopped := decide (new = 5) } }

/-- The new mode stored and REG.MODE_CHANGE raised, before the units follow (R98). -/
def modeEntered (new : Nat) (s : State) : State :=
  (modeStored new (pathStopFollows new s)).raise Ev.regModeChange pgMode (new * 256 + s.modeNow)

theorem bisqueElapsedStored_pathStopFollows (new : Nat) (s : State) :
    bisqueElapsedStored (pathStopFollows new s) = pathStopFollows new (bisqueElapsedStored s) := by
  unfold bisqueElapsedStored
  rw [apply_ite (pathStopFollows new)]
  rfl

theorem modeStored_pathStopFollows (new : Nat) (s : State) :
    modeStored new (pathStopFollows new s) = pathStopFollows new (modeStored new s) := by
  unfold modeStored
  rw [bisqueElapsedStored_pathStopFollows]
  rfl

theorem enterMode_eq (new : Nat) (s : State) : enterMode new s = blockModeChanged s.modeNow new (modeEntered new s) := by
  unfold modeEntered
  rw [modeStored_pathStopFollows]
  rfl

theorem modeEntered_facts (new : Nat) (s : State) :
    let u := modeEntered new s
    u.modeNow = low 3 new ∧ u.get F.Mode.PREV_MODE pgMode = low 3 s.modeNow ∧ u.inTransition = false ∧
      bitAt (u.get F.Hdr.EVENT_STATUS pgMode) Ev.regModeChange.bit = true ∧ (pathStopFollows new s).OnlyEvents u pgMode
        [F.Rdy.BISQUE_ELAPSED.key pgReady 0, F.Mode.PREV_MODE.key pgMode 0, F.Mode.MODE.key pgMode 0,
          F.Mode.IN_TRANSITION.key pgMode 0] := by
  intro u
  obtain ⟨hmode, hprev, htr⟩ := modeStored_facts new (pathStopFollows new s)
  have hget : ∀ f : Fld, (f.off + 0 * f.stride) * 32 + f.lo ≠ 512 ∧ f.off + 0 * f.stride < 4096 ∧ f.lo < 32 →
      u.get f pgMode = (modeStored new (pathStopFollows new s)).get f pgMode := fun f ⟨h1, h2, h3⟩ =>
    State.get_raise_off _ _ (by decide) h1 h2 h3
  refine ⟨(hget _ (by decide)).trans hmode, (hget _ (by decide)).trans hprev, ?_, State.raise_bit _ _ _ (by decide) (by decide),
    (modeStored_onlyRegs new _).events (State.onlyEvents_raise _ _ _ (by decide)) (by decide)⟩
  unfold State.inTransition State.on
  rw [hget _ (by decide), htr]
  rfl

/-- A transition ends once its ports and, into Safe-Hold, its data path have stopped (R98, R100, R102). -/
theorem execModeChange_due (htr : s.inTransition = true) (h0 : s.target ≠ 0)
    (hports : s.target = 2 → s.modeNow = 3 ∨ s.modeNow = 4 → portsStopped s = true)
    (hpath : s.target = 5 → s.mode.pathStopped = true) : exec .modeChange s = .next (enterMode s.target s) := by
  refine congrArg Host.Outcome.next (if_pos ⟨htr, h0, ?_, ?_⟩)
  · by_cases h2 : s.target = 2
    · by_cases hm : s.modeNow = 3 ∨ s.modeNow = 4
      · exact .inr (.inr (hports h2 hm))
      · exact .inr (.inl (not_or.mp hm))
    · exact .inl h2
  · by_cases h5 : s.target = 5
    · exact .inr (hpath h5)
    · exact .inl h5

/-- A transition from Print or Service to Idle waits for the ports (R100). -/
theorem execModeChange_waits (h2 : s.target = 2) (hm : s.modeNow = 3 ∨ s.modeNow = 4) (hp : portsStopped s = false) :
    exec .modeChange s = .next s := by
  refine congrArg Host.Outcome.next (if_neg ?_)
  rintro ⟨-, -, hn | ⟨h3, h4⟩ | hs, -⟩
  · exact hn h2
  · exact hm.elim h3 h4
  · simp [hp] at hs

/-! ### READY -/

/-- FUNCTION_READY of a page whose conditions hold: READY first, then what its chapter gives (R108, R111). -/
theorem execFunctionReady_due {pg : Nat} (hp : present pg = true) (hr : s.ready pg = false) (hm : s.modeNow ≠ 0)
    (ho : s.mode.porst = false) (hd : ∀ d ∈ dependencies pg, s.ready d = true) (hb : blockMayReady s pg = true) :
    exec (.functionReady pg) s =
      .next ((blockReady pg (s.set F.Hdr.READY pg 1)).updBnd pg (fun b => { b with resetting := false })) :=
  congrArg Host.Outcome.next (if_pos ⟨hp, hr, hm, ho, List.all_eq_true.mpr hd, hb⟩)

theorem ready_set_ready (pg : Nat) : (s.set F.Hdr.READY pg 1).ready pg = true := by
  unfold State.ready State.on
  rw [State.get_set_self]
  rfl

end

/-- Settles O15, by what each command makes of the state when it is due. -/
theorem modeTransitions : Obligations.ModeTransitions := by
  unfold Obligations.ModeTransitions
  intro s
  refine ⟨fun hm htr hp ha hr hn hc => ?_, fun hm hp hb hn ht => ?_, execBisqueTimeout_noted,
    fun htr h0 hports hpath => ?_, fun _ h2 hm hp => execModeChange_waits h2 hm hp, fun pg hp hr hm ho hd hb => ?_⟩
  · exact ⟨_, execAutoIdle_due hm htr hp ha hr hn hc, (startTransition_modeNow 2 s).trans hm, startTransition_inTransition 2 s,
      startTransition_target (by decide) s, startTransition_onlyRegs 2 s⟩
  · obtain ⟨hnoted, hmode, hbit, hrest⟩ :=
      bisqueTimeoutNoted_raise_facts (s := s) (arg64 s.missingPages.length (s.missingPages.headD 0))
    exact ⟨_, execBisqueTimeout_due hm hp hb hn ht, hnoted, hmode.trans hm, hbit, hrest⟩
  · obtain ⟨hmode, hprev, hdone, hbit, hrest⟩ := modeEntered_facts s.target s
    exact ⟨_, hmode, hprev, hdone, hbit, hrest,
      (execModeChange_due htr h0 hports hpath).trans (congrArg Host.Outcome.next (enterMode_eq s.target s))⟩
  · exact ⟨_, ready_set_ready pg, s.onlyRegs_setI _ _ _ _, execFunctionReady_due hp hr hm ho hd hb⟩

end Sys2Proof.Machine
end

section
/-! Chunks, the stream ring and the repeat cache. -/

-- One declaration after another, as in the files before: the text is also checked in one piece.
set_option Elab.async false

namespace Sys2Proof.Machine

/-! ### Chunks -/

/-- A datagram with the MAGIC, VERSION and PAYLOAD_LEN of a chunk of whole words (R127, R128). -/
structure WellFormedChunk (pl : List Byte) : Prop where
  magic : field pl 0 2 = 0xF011
  version : field pl 2 1 = 1
  pos : 0 < field pl 6 2
  le : field pl 6 2 ≤ 8956
  words : field pl 6 2 % 4 = 0
  length : pl.length = 16 + field pl 6 2

section
variable {s : State} {pl : List Byte}

theorem execChunkReceived_taken {net : Nat} {v6 : Bool} {dst udp : Nat} (h : s.takesChunk net v6 dst udp = true) :
    exec (.chunkReceived net v6 dst udp pl) s = .next (chunkIn pl s) := congrArg Host.Outcome.next (if_pos h)

theorem execChunkReceived_notTaken {net : Nat} {v6 : Bool} {dst udp : Nat} (h : s.takesChunk net v6 dst udp = false) :
    exec (.chunkReceived net v6 dst udp pl) s = .next s := congrArg Host.Outcome.next (if_neg (by simp [h]))

/-- What ingest does with a well-formed chunk: it counts one of another segment (R129), and judges the folio of its own. -/
theorem chunkIn_wellFormed (h : WellFormedChunk pl) : chunkIn pl s =
    if field pl 4 2 ≠ s.get F.Ing.SEGMENT_ID pgIng then s.sat F.Ing.CHUNK_OTHER_COUNT pgIng
    else if folioDiff (field pl 8 4) s.expected < 0 ∨ 3 < folioDiff (field pl 8 4) s.expected ∨ s.ing.passed.contains (field pl 8 4)
    then chunkOutside (field pl 8 4) (4 * field pl 12 4) s
    else chunkHeld (field pl 8 4) (4 * field pl 12 4) (pl.drop 16) s := by
  obtain ⟨hmagic, hversion, hpos, hle, hwords, hlength⟩ := h
  have hlen : ¬ pl.length < 16 := by omega
  have hform : ¬ (field pl 0 2 ≠ 0xF011 ∨ field pl 2 1 ≠ 1 ∨ field pl 6 2 = 0 ∨ 8956 < field pl 6 2 ∨
      field pl 6 2 ≠ (pl.drop 16).length) := by
    rw [List.length_drop]; omega
  unfold chunkIn
  simp only [if_neg hlen, if_neg hform, hwords, ne_eq, not_true_eq_false, false_and, if_false]

end

/-- Settles O53: the counter of chunks of other segments is the only register stored. -/
theorem chunkOfAnotherSegment : Obligations.ChunkOfAnotherSegment := by
  unfold Obligations.ChunkOfAnotherSegment
  intro s net v6 dst udp pl ht hmagic hversion hpos hle hwords hlength hseg
  refine ⟨s.sat F.Ing.CHUNK_OTHER_COUNT pgIng, ?_, State.get_set_self _ _ _ _, s.onlyRegs_setI _ _ _ _⟩
  rw [execChunkReceived_taken ht, chunkIn_wellFormed ⟨hmagic, hversion, hpos, hle, hwords, hlength⟩, if_pos hseg]

/-! ### The stream ring -/

/-- Ring space for the first item that waits, where it fits (R145). -/
theorem allocFirst_fits {s : State} {n : Nat} {i : Item} {p : List (Nat × Nat)} (hw : s.firstWaiting = some (n, i))
    (hp : takeSpace s.ringFree (roundUp 64 i.e.compLen) = some p) :
    allocFirst s = (s.updItem n i.e.ix (fun x => { x with place := some p }), true) := by
  simp only [allocFirst, hw, hp]

theorem execRingAllocate_fits {s : State} {n : Nat} {i : Item} {p : List (Nat × Nat)} (hon : s.pathOn pgIng = true)
    (hw : (trimPast s).firstWaiting = some (n, i))
    (hp : takeSpace (trimPast s).ringFree (roundUp 64 i.e.compLen) = some p) :
    exec .ringAllocate s = .next (refreshSpace ((trimPast s).updItem n i.e.ix (fun x => { x with place := some p }))) := by
  simp only [exec, execRingAllocate, if_pos hon, allocFirst_fits hw hp]

/-! ### The repeat cache -/

/-- RING_FREE and CACHE_FREE are what `refreshSpace` stores. -/
theorem refreshSpace_onlyRegs (s : State) :
    s.OnlyRegs (refreshSpace s) [F.Ing.RING_FREE.key pgIng 0, F.Ing.CACHE_FREE.key pgIng 0] :=
  (s.onlyRegs_setI F.Ing.RING_FREE pgIng 0 _).setI F.Ing.CACHE_FREE pgIng 0 _

/-- A flag of a cache entry stands above the lowest bit of its word, where RING_FREE and CACHE_FREE begin. -/
theorem refreshSpace_getI {f : Fld} (h0 : f.lo ≠ 0) (hl : f.lo < 32) (id : Nat) (s : State) :
    (refreshSpace s).getI f pgIng id = s.getI f pgIng id :=
  (State.getI_setI_lo _ h0 hl (by decide)).trans (State.getI_setI_lo _ h0 hl (by decide))

section
variable {s : State} {id : Nat}

theorem execCacheEvict_valid {owner : Nat} (hid : id < 256) (hp : s.passes pgIng owner = true)
    (hv : s.onI F.Ing.CACHE_ENTRY_VALID pgIng id = true) :
    exec (.cacheEvict id owner) s = .next (s.setI F.Ing.EVICT_PENDING pgIng id 1) := by
  simp only [exec, execCacheEvict, gateReg_passes hp, cacheEvict, show low 8 id = id from low_of_lt hid, if_pos hv]

/-- A cache entry of which nothing is left: its strips are forgotten and its registers 0 (R149). -/
def entryFreed (id : Nat) (s : State) : State :=
  forAll [F.Ing.CACHE_ENTRY_VALID, F.Ing.COMPLETE, F.Ing.EVICT_PENDING, F.Ing.BAD_ITEMS, F.Ing.SIZE]
    (s.updIng (fun i => { i with cache := tdel i.cache id })) (fun f s => s.setI f pgIng id 0)

theorem execEvictComplete_unused (hp : s.onI F.Ing.EVICT_PENDING pgIng id = true) (hu : s.cacheInUse id = false)
    (ha : s.active pgIng = true) : exec (.evictComplete id) s = .next (refreshSpace (entryFreed id s)) :=
  congrArg Host.Outcome.next (if_pos ⟨hp, hu, ha⟩)

end

/-- What an eviction that ends leaves of the entry (R149). -/
theorem evicted_facts (id : Nat) (s : State) : let t := refreshSpace (entryFreed id s)
    t.onI F.Ing.CACHE_ENTRY_VALID pgIng id = false ∧ t.onI F.Ing.EVICT_PENDING pgIng id = false ∧
      ({ s with ing := { s.ing with cache := tdel s.ing.cache id } } : State).OnlyRegs t
        [F.Ing.CACHE_ENTRY_VALID.key pgIng id, F.Ing.COMPLETE.key pgIng id, F.Ing.EVICT_PENDING.key pgIng id,
          F.Ing.BAD_ITEMS.key pgIng id, F.Ing.SIZE.key pgIng id, F.Ing.RING_FREE.key pgIng 0, F.Ing.CACHE_FREE.key pgIng 0] := by
  obtain ⟨hregs, hvalid, hpending⟩ := evict_regs (s.updIng (fun i => { i with cache := tdel i.cache id })) id
  refine ⟨?_, ?_, hregs.trans (refreshSpace_onlyRegs _)⟩
  · exact (congrArg (· == 1) (refreshSpace_getI (by decide) (by decide) id _)).trans hvalid
  · exact (congrArg (· == 1) (refreshSpace_getI (by decide) (by decide) id _)).trans hpending

/-- Settles O17: a chunk of a folio of which nothing is held, the first waiting item, and an eviction from GO to its end. -/
theorem ingestChunksRingAndCache : Obligations.IngestChunksRingAndCache := by
  unfold Obligations.IngestChunksRingAndCache
  intro s
  refine ⟨?chunk, fun net v6 dst udp pl => execChunkReceived_notTaken, fun hon n i p => execRingAllocate_fits hon, ?evict,
    fun id hp hu ha => ?complete⟩
  case chunk =>
    rintro net v6 dst udp pl ht n off len rfl rfl rfl hmagic hversion hpos hle hwords hlength hseg hlo hhi hpassed hnone hpart hearly
    refine ⟨_, execChunkReceived_taken ht, ?_⟩
    have hin : ¬ (folioDiff (field pl 8 4) s.expected < 0 ∨ 3 < folioDiff (field pl 8 4) s.expected ∨
        s.ing.passed.contains (field pl 8 4)) := by
      simp only [hpassed, Bool.false_eq_true, or_false]; omega
    rw [chunkIn_wellFormed ⟨hmagic, hversion, hpos, hle, hwords, hlength⟩, if_neg (not_not.mpr hseg), if_neg hin,
      chunk_fact s _ _ (field pl 6 2) _ (by rw [List.length_drop]; omega) hpos hwords hnone hpart hearly]
    exact ⟨rfl, rfl, (s.onlyRegs_setI F.Ing.BYTES_DROPPED pgIng 0 _).2⟩
  case evict =>
    intro id owner hid hp hv
    exact ⟨_, execCacheEvict_valid hid hp hv, congrArg (· == 1) (State.getI_setI_self _ _ _ _ _), s.onlyRegs_setI _ _ _ _⟩
  case complete =>
    obtain ⟨hvalid, hpending, hrest, hregs⟩ := evicted_facts id s
    exact ⟨_, execEvictComplete_unused hp hu ha, hvalid, hpending, congrArg State.ing hrest, hrest.trans rfl, hregs⟩

end Sys2Proof.Machine
end

section
/-! The deflate jobs. -/

-- One declaration after another, as in the files before: the text is also checked in one piece.
set_option Elab.async false

namespace Sys2Proof.Machine

section
variable {s : State} {k : Nat}

/-! ### START and ABORT -/

theorem execJobStart_passes {owner : Nat} (hk : k < 4) (hp : s.passes pgJob owner = true) :
    exec (.jobStart k owner) s = .next (jobStart k s) := by
  simp only [exec, execJobStart, if_pos hk, gateReg_passes hp]

theorem execJobAbort_passes {owner : Nat} (hk : k < 4) (hp : s.passes pgJob owner = true) :
    exec (.jobAbort k owner) s = .next (jobAbort k s) := by
  simp only [exec, execJobAbort, if_pos hk, gateReg_passes hp]

theorem jobStart_running (h : s.jobState k = 1) : jobStart k s = s := if_pos h

theorem jobStart_invalid (h : s.jobState k ≠ 1) (hi : s.jobInvalid k = true) : jobStart k s = jobFail k 6 0 0 s :=
  (if_neg h).trans (if_pos hi)

/-- A slot whose job has begun at the level `used` (R164, R170). -/
def jobBegun (k used : Nat) (s : State) : State :=
  ((((s.setI F.Job.JOB_STATUS_STATE pgJob k 1).setI F.Job.FAIL_REASON pgJob k 0).setI F.Job.OUT_BYTES pgJob k 0).setI
    F.Job.IN_BYTES pgJob k 0).setI F.Job.LEVEL_USED pgJob k used

theorem jobStart_valid (h : s.jobState k ≠ 1) (hi : s.jobInvalid k = false) : ∃ used, jobStart k s = jobBegun k used s :=
  ⟨_, (if_neg h).trans (if_neg (by simp [hi]))⟩

theorem jobBegun_facts (k used : Nat) (s : State) : let t := jobBegun k used s
    t.jobState k = 1 ∧ t.getI F.Job.FAIL_REASON pgJob k = 0 ∧ t.getI F.Job.OUT_BYTES pgJob k = 0 ∧
      t.getI F.Job.IN_BYTES pgJob k = 0 ∧ s.OnlyRegs t [F.Job.JOB_STATUS_STATE.key pgJob k, F.Job.FAIL_REASON.key pgJob k,
        F.Job.OUT_BYTES.key pgJob k, F.Job.IN_BYTES.key pgJob k, F.Job.LEVEL_USED.key pgJob k] := by
  refine ⟨?_, ?_, ?_, ?_, ((((s.onlyRegs_setI _ _ _ _).setI _ _ _ _).setI _ _ _ _).setI _ _ _ _).setI _ _ _ _⟩
  all_goals
    simp (disch := decide) only [jobBegun, State.jobState, State.getI_setI_arr, State.getI_setI_self]
    rfl

theorem jobAbort_running (h : s.jobState k = 1) : ∃ out inn,
    jobAbort k s = jobFail k 5 out inn { s with freeIx := s.freeIx + 2 } := by
  unfold jobAbort
  rw [if_pos h]
  exact ⟨_, _, congrArg (jobFail k 5 _ _) (freeUpTo_twice _ _ s)⟩

theorem jobAbort_idle (h : s.jobState k ≠ 1) : jobAbort k s = s := if_neg h

/-! ### The ends of a job -/

/-- A job that ends as done stores its status, its counts and the CRC of its data, and raises CODEC.JOB_DONE (R161, R162). -/
theorem execJobDone_ends (h : s.jobRuns k = true) (hp : s.jobPoisoned k = false) (hf : s.sourceFault k = 0)
    (ho : s.jobOverflows k = false) : ∃ (u : State) (out : List Byte),
    ((s.jobStream k).length ≤ s.jobLimit k → out = s.jobStream k) ∧ exec (.jobDone k) s = .next
      ((((((u.setI F.Job.JOB_STATUS_STATE pgJob k 2).setI F.Job.OUT_BYTES pgJob k out.length).setI F.Job.IN_BYTES pgJob k
        (s.jobLen k)).setI F.Job.RESULT_CRC pgJob k (crc32 (s.jobData k))).wrap F.Job.JOB_DONE_COUNT pgJob).raise
        Ev.codecJobDone pgJob (arg64 out.length k)) :=
  ⟨_, _, fun hfit => if_pos hfit, congrArg Host.Outcome.next (if_pos ⟨h, hp, hf, ho⟩)⟩

/-- A full destination ends the job with reason 1 and CODEC.OUT_FULL (R165). -/
theorem execOutFull_ends (h : s.jobRuns k = true) (hp : s.jobPoisoned k = false) (hf : s.sourceFault k = 0)
    (ho : s.jobOverflows k = true) : ∃ (u : State) (out inn : Nat), exec (.outFull k) s = .next
      ((jobEnd k 1 out inn u).raise Ev.codecOutFull pgJob (arg64 out k)) :=
  ⟨_, _, _, congrArg Host.Outcome.next (if_pos ⟨h, hp, hf, ho⟩)⟩

theorem jobFull_facts (hk : k < 4) (out inn : Nat) (u : State) :
    let t := (jobEnd k 1 out inn u).raise Ev.codecOutFull pgJob (arg64 out k)
    t.jobState k = 3 ∧ t.getI F.Job.FAIL_REASON pgJob k = 1 ∧
      bitAt (t.get F.Hdr.EVENT_STATUS pgJob) Ev.codecOutFull.bit = true := by
  obtain ⟨hstate, hreason, -⟩ := jobEnd_facts u k 1 out inn
  exact ⟨(jobRaise_facts _ _ k _ hk _ (by decide) (by decide) (by decide)).trans hstate,
    (jobRaise_facts _ _ k _ hk _ (by decide) (by decide) (by decide)).trans hreason,
    State.raise_bit _ _ _ (by decide) (by decide)⟩

end

/-- Settles O18: what START and ABORT make of a slot, and the three ends of a job that runs. -/
theorem jobCommands : Obligations.JobCommands := by
  unfold Obligations.JobCommands
  intro s k hk
  refine ⟨fun owner hp h hi => ?start, fun owner hp h hi => ?refused, fun owner hp h => ⟨?running, ?abort⟩,
    fun owner hp h => ?idle, fun h hp hf ho => ?done, fun h hp hf ho => ?full, fun poisoned h hbad => ?fault⟩
  case start =>
    obtain ⟨used, hstart⟩ := jobStart_valid h hi
    exact ⟨_, (execJobStart_passes hk hp).trans (congrArg Host.Outcome.next hstart), jobBegun_facts k used s⟩
  case refused =>
    exact ⟨_, (execJobStart_passes hk hp).trans (congrArg Host.Outcome.next (jobStart_invalid h hi)), jobFail_facts s k 6 0 0 hk⟩
  case running => rw [execJobStart_passes hk hp, jobStart_running h]
  case abort =>
    obtain ⟨out, inn, habort⟩ := jobAbort_running h
    exact ⟨_, (execJobAbort_passes hk hp).trans (congrArg Host.Outcome.next habort), jobFail_facts _ k 5 out inn hk⟩
  case idle => rw [execJobAbort_passes hk hp, jobAbort_idle h]
  case done =>
    obtain ⟨u, out, hout, hexec⟩ := execJobDone_ends h hp hf ho
    obtain ⟨hstate, hin, hcrc, hbytes, hbit⟩ := jobDone_facts u k out.length (s.jobLen k) (crc32 (s.jobData k)) hk
    exact ⟨_, hexec, hstate, hin, hcrc, fun hfit => hbytes.trans (by rw [hout hfit]), hbit⟩
  case full =>
    obtain ⟨u, out, inn, hexec⟩ := execOutFull_ends h hp hf ho
    exact ⟨_, hexec, jobFull_facts hk out inn u⟩
  case fault =>
    exact ⟨_, (sourceFault_eq s k poisoned h hbad).trans (congrArg Host.Outcome.next (congrArg (jobFail k _ _ _) (freeUpTo_twice _ _ _))),
      jobFail_facts _ k _ _ _ hk⟩

end Sys2Proof.Machine
end

section
/-! Need points, dispatch and the ends of slices in an inflate group. -/

-- One declaration after another, as in the files before: the text is also checked in one piece.
set_option Elab.async false

namespace Sys2Proof.Machine

/-! ### Need points -/

section
variable {s : State} {p n : Nat} {i : Item}

theorem execNeedPoint_strip (hp : p < 48) (h : s.needItem p 0 = some (n, i)) :
    exec (.needPoint p 0) s = .next (needStrip n i s) := by
  have hports : p < Config.ports ∧ 0 < 4 := ⟨hp, by decide⟩
  simp only [exec, execNeedPoint, h, if_pos hports, if_true]

theorem execNeedPoint_tile {l : Nat} (hp : p < 48) (hl : l < 4) (h0 : l ≠ 0) (h : s.needItem p l = some (n, i)) :
    exec (.needPoint p l) s = .next (needTile n i s) := by
  have hports : p < Config.ports ∧ l < 4 := ⟨hp, hl⟩
  simp only [exec, execNeedPoint, h, if_pos hports, if_neg h0]

/-- The region of an item whose need point has come is one of the four. -/
theorem needItem_region {l : Nat} (hp : p < 48) (h : s.needItem p l = some (n, i)) : regionOf i.e.port < 4 := by
  rw [needItem_port s p l n i h]
  exact Nat.div_lt_of_lt_mul hp

/-- A skipped strip is counted (R194). -/
theorem needStrip_skipped (hr : regionOf i.e.port < 4) (h : s.skips n i.e = true) :
    (needStrip n i s).get F.Glz.ITEMS_SKIPPED (pgGlz (regionOf i.e.port)) =
      low 32 (min (s.get F.Glz.ITEMS_SKIPPED (pgGlz (regionOf i.e.port)) + 1) 4294967295) := by
  unfold needStrip
  rw [if_pos h]
  exact skip_count _ _ _ hr

/-- A strip that is neither skipped nor missing is in hand (R150). -/
theorem needStrip_present (hs : s.skips n i.e = false) (hc : s.missCause n i = 0) :
    needStrip n i s = s.updItem n i.e.ix (fun x => { x with st := 1 }) := by
  simp only [needStrip, hs, hc, Bool.false_eq_true, if_false, if_true]

/-- A missing strip raises INGEST.STRIP_MISSING on its group's page (R150, R151). -/
theorem needStrip_missing (hr : regionOf i.e.port < 4) (hs : s.skips n i.e = false) (hc : s.missCause n i ≠ 0) :
    bitAt ((needStrip n i s).get F.Hdr.EVENT_STATUS (pgInfl (regionOf i.e.port))) Ev.ingestStripMissing.bit = true := by
  have hpage : pgInfl (regionOf i.e.port) ≠ pgLedger := by unfold pgInfl pgLedger; omega
  simp only [needStrip, hs, hc, Bool.false_eq_true, if_false]
  exact refresh_bit _ _ (State.raise_bit _ _ _ hpage (by decide))

/-- A tile that is not missing is in hand (R187). -/
theorem needTile_present (hc : s.tileCause n i = 0) :
    needTile n i s = s.updItem n i.e.ix (fun x => { x with st := 1 }) := if_pos hc

/-- A missing tile raises GLAZE.TILE_MISSING on its region's page (R187). -/
theorem needTile_missing (hr : regionOf i.e.port < 4) (hc : s.tileCause n i ≠ 0) :
    bitAt ((needTile n i s).get F.Hdr.EVENT_STATUS (pgGlz (regionOf i.e.port))) Ev.glazeTileMissing.bit = true := by
  have hpage : pgGlz (regionOf i.e.port) ≠ pgLedger := by unfold pgGlz pgLedger; omega
  unfold needTile
  rw [if_neg hc]
  exact refresh_bit _ _ (State.raise_bit _ _ _ hpage (by decide))

end

/-! ### Engines -/

theorem tget_tdel_self {α : Type} (m : Tbl α) (k : Nat) (d : α) : tget (tdel m k) k d = d := by simp [tget]

theorem tget_tdel_ne {α : Type} (m : Tbl α) {k k' : Nat} (d : α) (h : k' ≠ k) : tget (tdel m k) k' d = tget m k' d := by
  simp [tget, tfind_tdel_ne m h]

section
variable {s : State} {r k : Nat}

section
variable (hr : r < 4) (hk : k ≤ 8) (poison : Option Nat) (hfree : (s.engineOf r k).cur = none)
  (hen : k ≠ 8 → bitAt (s.get F.Infl.ENGINE_EN (pgInfl r)) k = true)
include hr hk hfree hen

/-- An engine that is free and enabled, or the free copy path, may take a slice (R157 to R159). -/
theorem mayDispatch : r < Config.regions ∧ k ≤ 8 ∧ (s.engineOf r k).cur = none ∧
    (k = 8 ∨ bitAt (s.get F.Infl.ENGINE_EN (pgInfl r)) k = true) :=
  ⟨hr, hk, hfree, Decidable.or_iff_not_imp_left.mpr hen⟩

theorem execSliceDispatch_takes {n : Nat} {i : Item} (h : s.nextSlice r k = some (n, i)) :
    exec (.sliceDispatch r k poison) s = .next (dispatch r k n i poison s) := by
  simp only [exec, execSliceDispatch, if_pos (mayDispatch hr hk hfree hen), h]

theorem execSliceDispatch_waits (h : s.nextSlice r k = none) : exec (.sliceDispatch r k poison) s = .next s := by
  simp only [exec, execSliceDispatch, if_pos (mayDispatch hr hk hfree hen), h]

end

/-- A region whose engine `k` is free. -/
def engineFreed (r k : Nat) (s : State) : State := s.updRegn r (fun x => { x with engines := tdel x.engines k })

theorem engineFreed_self : (engineFreed r k s).engineOf r k = {} := by
  unfold State.engineOf engineFreed
  rw [regnOf_updRegn]
  exact tget_tdel_self _ _ _

theorem engineFreed_ne {j : Nat} (h : j ≠ k) : (engineFreed r k s).engineOf r j = s.engineOf r j := by
  unfold State.engineOf engineFreed
  rw [regnOf_updRegn]
  exact tget_tdel_ne _ _ h

/-- The end of a slice changes no engine but the one that worked on it. -/
theorem execSliceEnd_frees (hr : r < 4) (hk : k ≤ 8) {x : Nat × Nat} (h : (s.engineOf r k).cur = some x) :
    ∃ t, exec (.sliceEnd r k) s = .next t ∧ t.regn = (engineFreed r k s).regn := by
  have hpart : r < Config.regions ∧ k ≤ 8 := ⟨hr, hk⟩
  simp only [exec, execSliceEnd, h, if_pos hpart]
  refine ⟨_, rfl, (showEngine_regn r k _).trans ?_⟩
  split
  · split
    · exact itemEnd_regn _ _ _ _
    · rfl
  · rfl

end

/-- Settles O19: `needStrip` and `needTile` case by case, then what becomes of the engines. -/
theorem inflateSteps : Obligations.InflateSteps := by
  unfold Obligations.InflateSteps
  intro s
  refine ⟨fun p hp n i hi => ?strip, fun p hp l hl h0 n i hi => ?tile, fun r hr k hk poison hfree hen => ?dispatch,
    fun r hr k hk x hx => ?sliceEnd⟩
  case strip =>
    rw [execNeedPoint_strip hp hi]
    have hr := needItem_region hp hi
    exact ⟨fun hs => ⟨_, rfl, needStrip_skipped hr hs⟩, fun hs hc => congrArg Host.Outcome.next (needStrip_present hs hc),
      fun hs hc => ⟨_, rfl, needStrip_missing hr hs hc⟩⟩
  case tile =>
    rw [execNeedPoint_tile hp hl h0 hi]
    exact ⟨fun hc => congrArg Host.Outcome.next (needTile_present hc),
      fun hc => ⟨_, rfl, needTile_missing (needItem_region hp hi) hc⟩⟩
  case dispatch =>
    exact ⟨fun n i hi => ⟨_, execSliceDispatch_takes hr hk poison hfree hen hi, dispatch_facts r k n i poison s⟩,
      execSliceDispatch_waits hr hk poison hfree hen⟩
  case sliceEnd =>
    obtain ⟨t, ht, hregn⟩ := execSliceEnd_frees hr hk hx
    refine ⟨t, ht, ?_, ?_, fun j hj => (engineOf_regn hregn r j).trans (engineFreed_ne hj)⟩
    · rw [engineOf_regn hregn, engineFreed_self]
    · rw [engineOf_regn hregn, engineFreed_self]

end Sys2Proof.Machine
end

section
/-! The start of a folio, composing, screening and rectangle lists in a region. -/

-- One declaration after another, as in the files before: the text is also checked in one piece.
set_option Elab.async false

namespace Sys2Proof.Machine

/-! ### Rectangle lists -/

theorem execRectListDecode_ready {s : State} {r n : Nat} {i : Item} (hr : r < 4) (poison : Option Nat) (hon : s.pathOn (pgInfl r) = true)
    (h : s.listReady r = some (n, i)) : exec (.rectListDecode r poison) s = .next (decodeList r n i poison s) := by
  have hpart : r < Config.regions ∧ s.pathOn (pgInfl r) = true := ⟨hr, hon⟩
  simp only [exec, execRectListDecode, if_pos hpart, h]

/-! ### The start of a folio -/

/-- A region that begins a folio notes it, and then uses the folio's list (R142, R193, Table 2-4). -/
theorem execRegionFolioStart_due {s : State} {r n : Nat} (hr : r < 4) (h : s.folioToBegin r = some n)
    (hw : s.groupWorks r n = true) (hh : s.heldAt (pgGlz r) n = false) :
    ∃ u, exec (.regionFolioStart r) s = .next (useList r n u) ∧ (u.regnOf r).begun = some n := by
  have hdue : r < Config.regions ∧ s.groupWorks r n = true ∧ s.heldAt (pgGlz r) n = false := ⟨hr, hw, hh⟩
  simp only [exec, execRegionFolioStart, h, if_pos hdue]
  exact ⟨_, rfl, by rw [regnOf_updRegn]⟩

theorem execRegionFolioStart_none {s : State} {r : Nat} (h : s.folioToBegin r = none) : exec (.regionFolioStart r) s = .next s := by
  simp only [exec, execRegionFolioStart, h]

/-! ### Composing -/

theorem showRects_port (r p n : Nat) (s : State) : (showRects r p n s).port = s.port := by
  unfold showRects; split <;> rfl

/-- A line that a region composes for a port: zeros while a function reset of the region lasts (R172, Table 3-8). -/
def State.composedLine (s : State) (p n y : Nat) : List Nat :=
  if s.zeroed (regionOf p) n then List.replicate 4096 0 else s.composeLine p n y

/-- What composing a line makes of the ports (R189). -/
theorem compose_facts (p n y : Nat) (s : State) :
    ((compose p n y s).portOf p).composed = (s.portOf p).composed ++ [(n, y, s.composedLine p n y)] ∧
      ((compose p n y s).portOf p).compose = s.nextLine p (n, y) ∧ ∀ q ≠ p, (compose p n y s).portOf q = s.portOf q := by
  unfold compose
  extract_lets r tiles line s1 s2 done
  have hport : ∀ q, (showRects r p n ((s2.wrap F.Glz.COMPOSED_LINES (pgGlz r)).satI F.Glz.TILES_DONE (pgGlz r) 0 done)).portOf q =
      s2.portOf q := portOf_congr (showRects_port _ _ _ _)
  have hself : s1.portOf p = { s.portOf p with
      composed := (s.portOf p).composed ++ [(n, y, line)], compose := s.nextLine p (n, y) } := State.portOf_updPort _ _ _
  have hne : ∀ q ≠ p, s1.portOf q = s.portOf q := fun q hq => State.portOf_updPort_ne _ _ hq
  simp only [hport]
  unfold s2
  split
  · exact ⟨by rw [hself]; rfl, by rw [hself], hne⟩
  · obtain ⟨hothers, hcomposed, hnext⟩ := lateTiles_port p n y (tiles.filter (fun t => t.lateOn y)) s1
    exact ⟨by rw [hcomposed, hself]; rfl, by rw [hnext, hself], fun q hq => (hothers q hq).trans (hne q hq)⟩

theorem execLineCompose_due {s : State} {r p n y : Nat} (hr : r < 4)
    (hp : leastPort ((portsOf r).filter (fun p => (s.composable p).isSome))
      (fun p => s.linesAhead p + (s.portOf p).composed.length) = some p) (h : s.composable p = some (n, y)) :
    exec (.lineCompose r) s = .next (compose p n y s) := by
  have hpart : r < Config.regions := hr
  simp only [exec, execLineCompose, if_pos hpart, hp, h]

/-! ### Screening -/

/-- The next composed line of a port taken off, and counted (R220). -/
def lineTaken (p : Nat) (rest : List (Nat × Nat × List Nat)) (s : State) : State :=
  (s.updPort p (fun x => { x with composed := rest })).wrap F.Scr.SCREENED_LINES (pgScr (regionOf p))

theorem lineTaken_portOf_self (p : Nat) (rest : List (Nat × Nat × List Nat)) (s : State) :
    (lineTaken p rest s).portOf p = { s.portOf p with composed := rest } := by
  rw [lineTaken, State.wrap, State.wrapI, State.portOf_setI, State.portOf_updPort]

theorem lineTaken_portOf_ne {p q : Nat} (h : q ≠ p) (rest : List (Nat × Nat × List Nat)) (s : State) :
    (lineTaken p rest s).portOf q = s.portOf q := by
  rw [lineTaken, State.wrap, State.wrapI, State.portOf_setI, State.portOf_updPort_ne _ _ h]

theorem lineTaken_frame (p : Nat) (rest : List (Nat × Nat × List Nat)) (s : State) :
    lineTaken p rest s = { s with port := (lineTaken p rest s).port, regs := (lineTaken p rest s).regs } ∧
      s.RegsBut (lineTaken p rest s) [F.Scr.SCREENED_LINES.key (pgScr (regionOf p)) 0] :=
  ⟨rfl, (State.onlyRegs_setI _ F.Scr.SCREENED_LINES _ 0 _).2⟩

/-- With no table entry known to fail, and none that fails now, the line is screened as it was composed (R220, R222). -/
theorem screen_good {s : State} {p n y : Nat} {px : List Nat} {rest : List (Nat × Nat × List Nat)}
    (hc : (s.portOf p).composed = (n, y, px) :: rest) (hb : (s.regnOf (regionOf p)).badTab = []) (bufErr : Bool) :
    screen p none bufErr s = lineComplete p (n, y) (if s.zeroed (regionOf p) n then List.replicate 4096 0
      else (⟨s.asOf (regionOf p) n, regionOf p, p % 12, y, []⟩ : ScreenIn).line px) bufErr (lineTaken p rest s) := by
  unfold screen
  simp only [hc, hb]
  split
  · rfl
  · rfl

theorem execLineScreen_due {s : State} {r p : Nat} (hr : r < 4)
    (hp : leastPort ((portsOf r).filter s.screenable) s.screenedAhead = some p) (reads : Option (Nat × Nat) × Bool) :
    exec (.lineScreen r reads) s = .next (screen p reads.1 reads.2 s) := by
  have hpart : r < Config.regions := hr
  simp only [exec, execLineScreen, if_pos hpart, hp]

/-- Settles O20: each command by the unit's operation that it runs when it is due. -/
theorem regionSteps : Obligations.RegionSteps := by
  unfold Obligations.RegionSteps
  intro s r hr
  refine ⟨fun n h hw hh => ?begin, execRegionFolioStart_none, fun p n y hp hreg h => ?compose,
    fun p n y px rest hp hreg hc hb bufErr => ?screen, fun n i poison hon h => ?list⟩
  case begin =>
    obtain ⟨u, hexec, hbegun⟩ := execRegionFolioStart_due hr h hw hh
    exact ⟨_, hexec, (useList_begun r n u).trans hbegun⟩
  case compose =>
    subst hreg
    exact ⟨_, execLineCompose_due hr hp h, compose_facts p n y s⟩
  case screen =>
    subst hreg
    obtain ⟨hrest, hregs⟩ := lineTaken_frame p rest s
    refine ⟨lineTaken p rest s, ?_, fun q hq => lineTaken_portOf_ne hq rest s, hrest, hregs, ?_⟩
    · rw [lineTaken_portOf_self]
    · rw [execLineScreen_due hr hp, screen_good hc hb]
  case list =>
    obtain ⟨l, hfolio, hix, hregn⟩ := decodeList_regn r n i poison s
    exact ⟨_, l, execRectListDecode_ready hr poison hon h, congrArg RegionX.decoded hregn, hfolio, hix⟩

end Sys2Proof.Machine
end

section
/-! Writes of the threshold store. -/

-- One declaration after another, as in the files before: the text is also checked in one piece.
set_option Elab.async false

namespace Sys2Proof.Machine

section
variable {s : State} {d slot off v pg owner : Nat}

/-! ### Writes to a slot -/

theorem slotWrite_free (h : s.slotUser d slot = none) (off : Nat) (k : State → State) : slotWrite d slot off k s = k s := by
  simp only [slotWrite, h]

theorem slotWrite_used {r : Nat} (h : s.slotUser d slot = some r) (off : Nat) (k : State → State) :
    slotWrite d slot off k s = s.raise Ev.screenSlotInUse (0x06C + 2 * d) (arg64 off (r * 256 + slot)) := by
  simp only [slotWrite, h]

/-- A word of a slot in no use is stored; besides it only the list of failing cells changes (R213, R222). -/
theorem thresholdWord_free (h : s.slotUser d (s.get F.Scr.THR_WINDOW_SLOT (0x06C + 2 * d)) = none) (off v : Nat) :
    (thresholdWord d off v s).aptw = (s.setApt (thrPage d (s.get F.Scr.THR_WINDOW_SLOT (0x06C + 2 * d))) (off - 0x100000)
        (v &&& winMask (0x06C + 2 * d) off)).aptw ∧
      thresholdWord d off v s = { s with aptw := (thresholdWord d off v s).aptw, regn := (thresholdWord d off v s).regn } := by
  unfold thresholdWord
  extract_lets slot w ok
  rw [slotWrite_free h]
  exact ⟨rfl, rfl⟩

/-- A word of a slot in use is dropped, with an event of the die's even page (R214). -/
theorem thresholdWord_used {r : Nat} (h : s.slotUser d (s.get F.Scr.THR_WINDOW_SLOT (0x06C + 2 * d)) = some r) (off v : Nat) :
    thresholdWord d off v s = s.raise Ev.screenSlotInUse (0x06C + 2 * d)
      (arg64 off (r * 256 + s.get F.Scr.THR_WINDOW_SLOT (0x06C + 2 * d))) := by
  unfold thresholdWord
  exact slotWrite_used h _ _

/-- SLOT_DIM of slot `k` as a write stores it: the height in the second byte, the width in the lowest. -/
def slotDimStored (pg k v : Nat) (s : State) : State :=
  (s.setI F.Scr.HEIGHT_M1 pg k (v / 256)).setI F.Scr.WIDTH_M1 pg k v

theorem slotDimStored_width (pg k v : Nat) (s : State) : (slotDimStored pg k v s).getI F.Scr.WIDTH_M1 pg k = low 8 v :=
  State.getI_setI_self _ _ _ _ _

theorem slotDimStored_height (pg k v : Nat) (s : State) :
    (slotDimStored pg k v s).getI F.Scr.HEIGHT_M1 pg k = low 8 (v / 256) := by
  rw [slotDimStored, State.getI_setI_lo _ (by decide) (by decide) (by decide), State.getI_setI_self]
  rfl

theorem slotDimStored_onlyRegs (pg k v : Nat) (s : State) :
    s.OnlyRegs (slotDimStored pg k v s) [F.Scr.HEIGHT_M1.key pg k, F.Scr.WIDTH_M1.key pg k] :=
  (s.onlyRegs_setI F.Scr.HEIGHT_M1 pg k _).setI F.Scr.WIDTH_M1 pg k v

/-! ### THRESHOLD_WRITE on the even page of a die -/

/-- The even page of a die, by the die's number. -/
theorem evenScrPage (hpg : pg = 0x06C ∨ pg = 0x06E) : within pg 0x06C 0x06F = true ∧ ¬ pg % 2 = 1 ∧
    pg ≠ pgLedger ∧ 0x06C + 2 * ((pg - 0x06C) / 2) = pg := by
  rcases hpg with rfl | rfl <;> decide

theorem execThresholdWrite_window (hpg : pg = 0x06C ∨ pg = 0x06E) (hp : s.passes pg owner = true)
    (hoff : 0x100000 ≤ off ∧ off < 0x200000 ∧ off % 4 = 0) (hv : v < 2 ^ 32) :
    exec (.thresholdWrite pg true off v owner) s = .next (thresholdWord ((pg - 0x06C) / 2) off v s) := by
  obtain ⟨hw, heven, -, -⟩ := evenScrPage hpg
  simp only [exec, execThresholdWrite, if_pos hw, gate_passes hp, if_neg heven, if_true, if_pos hoff, low_of_lt hv]

theorem execThresholdWrite_slotDim {k : Nat} (hpg : pg = 0x06C ∨ pg = 0x06E) (hp : s.passes pg owner = true) (hk : k < 8)
    (hv : v < 2 ^ 32) : exec (.thresholdWrite pg false (0x140 + 4 * k) v owner) s =
      .next (slotWrite ((pg - 0x06C) / 2) k (0x140 + 4 * k) (slotDimStored pg k v) s) := by
  obtain ⟨hw, heven, -, -⟩ := evenScrPage hpg
  have hoff : 0x140 ≤ 0x140 + 4 * k ∧ 0x140 + 4 * k < 0x160 ∧ (0x140 + 4 * k) % 4 = 0 := by omega
  have hslot : (0x140 + 4 * k - 0x140) / 4 = k := by omega
  simp only [exec, execThresholdWrite, if_pos hw, gate_passes hp, if_neg heven, Bool.false_eq_true, if_false, if_pos hoff,
    low_of_lt hv, hslot]
  rfl

end

/-- Settles O21: each write by whether a running region of the die uses the slot. -/
theorem thresholdStore : Obligations.ThresholdStore := by
  unfold Obligations.ThresholdStore
  intro s pg owner hpg hp
  obtain ⟨-, -, hled, hdie⟩ := evenScrPage hpg
  refine ⟨fun off v hlo hhi h4 hv => ?window, fun k hk v hv hfree => ?slotDim⟩
  case window =>
    have hexec := execThresholdWrite_window hpg hp ⟨hlo, hhi, h4⟩ hv
    generalize (pg - 0x06C) / 2 = d at hdie hexec ⊢
    subst hdie
    refine ⟨fun hfree => ⟨_, hexec, thresholdWord_free hfree off v⟩, fun q hused => ⟨_, hexec, ?_⟩⟩
    rw [thresholdWord_used hused]
    exact ⟨State.raise_aptw _ _ _ _, State.raise_bit _ _ _ hled (by decide), s.onlyEvents_raise _ _ hled⟩
  case slotDim =>
    rw [execThresholdWrite_slotDim hpg hp hk hv, slotWrite_free hfree]
    exact ⟨_, rfl, slotDimStored_width pg k v s, slotDimStored_height pg k v s, slotDimStored_onlyRegs pg k v s⟩

end Sys2Proof.Machine
end

section
/-! Quadrature transitions, switch codes, the index and observer ticks of a position channel. -/

-- One declaration after another, as in the files before: the text is also checked in one piece.
set_option Elab.async false

namespace Sys2Proof.Machine

/-! ### What a decoded edge makes of the hub -/

/-- The signed count change of a pair at the hub, with DIR_INVERT (R227). -/
def State.quadDelta (s : State) (ch ab : Nat) : Int :=
  s.dirInv ch (quadChange (s.get F.Pos.DECODE (pgPos ch)) (s.posOf ch).hub.ab (low 2 ab))

/-- The signed count change of a code at the hub, with DIR_INVERT (R232). -/
def State.switchDelta (s : State) (ch code : Nat) : Int :=
  s.dirInv ch (switchChange (s.posOf ch).hub.code (low 3 code))

/-- The hub's count moved from one state to another by a signed change; none leaves it as it was (R237). -/
def HubMoved (ch : Nat) (d : Int) (s t : State) : Prop :=
  (t.posOf ch).hub.count = if d = 0 then (s.posOf ch).hub.count else addCount (s.posOf ch).hub.count d

/-- How the model words the move: on a running channel, by a change that is not zero. -/
theorem hubMoved_of_runs {ch : Nat} {d : Int} {s t : State} {run : Bool} (hrun : run = true)
    (h : (t.posOf ch).hub.count = if (run && d != 0) = true then addCount (s.posOf ch).hub.count d
      else (s.posOf ch).hub.count) : HubMoved ch d s t := by
  unfold HubMoved
  rw [h, hrun]
  by_cases hd : d = 0 <;> simp [hd]

/-- A transition of both balls moves no count (R227, Table 7-3). -/
theorem quadDelta_illegal {s : State} {ch ab : Nat} (h : quadTurn (s.posOf ch).hub.ab (low 2 ab) = 2) :
    s.quadDelta ch ab = 0 := by
  have hchange : ∀ decode, quadChange decode (s.posOf ch).hub.ab (low 2 ab) = 0 := fun decode => by
    unfold quadChange
    rw [h]
    split
    · exact ite_self 0
    · exact ite_self 0
    · rfl
  unfold State.quadDelta State.dirInv
  rw [hchange, Int.neg_zero, ite_self]

/-- Counting an error and raising its event leave every channel alone. -/
theorem posOf_sat_raise (t : State) (f : Fld) (e : Ev) (pg arg ch : Nat) :
    ((t.sat f pg).raise e pg arg).posOf ch = t.posOf ch := by
  rw [State.posOf_raise, sat_posOf]

section
variable {s : State} {ch reps : Nat} (hb : bitAt reps 0 = true) (hon : s.chOn ch = true)
include hb hon

/-- A decoded pair moves the hub's count and is its reference from now on; an illegal transition is counted and raises its
event besides (R225, R227, R228). -/
theorem quadTransition_eq (hm : s.chMode ch 0 = true) (ab ph : Nat) :
    ∃ t, HubMoved ch (s.quadDelta ch ab) s t ∧ (t.posOf ch).hub.ab = low 2 ab ∧
      (quadTurn (s.posOf ch).hub.ab (low 2 ab) ≠ 2 → quadTransition ch reps ab ph s = (t, s.quadDelta ch ab)) ∧
      (quadTurn (s.posOf ch).hub.ab (low 2 ab) = 2 → ∃ arg, quadTransition ch reps ab ph s =
        ((t.sat F.Pos.ILLEGAL_COUNT (pgPos ch)).raise Ev.posQuadIllegal (pgPos ch) arg, 0)) := by
  unfold quadTransition
  extract_lets p run change step t u
  have hrun : run = true := by simp only [run, hm, hon, Bool.and_self]
  obtain ⟨hcount, r, hr⟩ := hubStep ch ph change run (fun r => { r with ab := low 2 ab }) (fun _ => rfl)
    (fun s => s.edgeAt ch ph) (bitAt reps) s hb
  have hact : (bitAt reps 0 && run) = true := by rw [hb, hrun]; rfl
  rw [if_pos hact]
  exact ⟨t, hubMoved_of_runs hrun hcount, congrArg Replica.ab hr, fun h => if_neg h, fun h => ⟨_, if_pos h⟩⟩

/-- A valid code moves the hub's count and is its reference from now on; a skipped one is counted and raises its event
besides (R225, R232, R233). -/
theorem switchCode_eq (hm : s.chMode ch 1 = true) {code : Nat} (hv : (switchPlace (low 3 code)).isSome = true) (ph : Nat) :
    ∃ t, HubMoved ch (s.switchDelta ch code) s t ∧ (t.posOf ch).hub.code = low 3 code ∧
      (switchCode ch reps code ph s = (t, s.switchDelta ch code) ∧
          ¬(2 ≤ switchTurn (s.posOf ch).hub.code (low 3 code) ∧ switchTurn (s.posOf ch).hub.code (low 3 code) ≤ 4) ∨
        ∃ arg, switchCode ch reps code ph s =
          ((t.sat F.Pos.SWITCH_SKIP_COUNT (pgPos ch)).raise Ev.posSwitchSkip (pgPos ch) arg, s.switchDelta ch code)) := by
  unfold switchCode
  extract_lets pg c p run valid change step t u cnt u1 turn u2
  have hrun : run = true := by simp only [run, hm, hon, Bool.and_self]
  obtain ⟨hcount, r, hr⟩ := hubStep ch ph change run (fun r => { r with code := c }) (fun _ => rfl)
    (fun s => s.edgeAt ch ph) (fun die => bitAt reps die && valid) s (by rw [hb]; exact hv)
  have ht : (u.posOf ch).hub = { ((List.range 3).foldl step s |>.posOf ch).hub with sw := c } := by
    unfold u t
    rw [if_pos hb, set_posOf, posOf_upd, upd_hub1 _ _ _ hb]
  have hact : (bitAt reps 0 && run) = true := by rw [hb, hrun]; rfl
  have hvalid : ¬(!valid) = true := by rw [show valid = true from hv]; decide
  rw [if_pos hact, if_neg hvalid]
  refine ⟨u, hubMoved_of_runs hrun ((congrArg Replica.count ht).trans hcount),
    (congrArg Replica.code ht).trans (congrArg Replica.code hr), ?_⟩
  by_cases h : turn = 2 ∨ turn = 3 ∨ turn = 4
  · exact .inr ⟨_, if_pos h⟩
  · exact .inl ⟨if_neg h, fun (hskip : 2 ≤ turn ∧ turn ≤ 4) => h (by omega)⟩

end

/-! ### Balls without a glitch filter (R226) -/

section
variable {s v : State} {ch reps : Nat} (hs : Seen ch s v)
include hs

theorem Seen.quadDelta (ab : Nat) : v.quadDelta ch ab = s.quadDelta ch ab := by
  unfold State.quadDelta
  rw [hs.dirInv, hs.ab, hs.1 _ (by decide) (by decide)]

theorem Seen.switchDelta (code : Nat) : v.switchDelta ch code = s.switchDelta ch code := by
  unfold State.switchDelta
  rw [hs.dirInv, hs.code]

theorem Seen.hubMoved {d : Int} {t : State} (h : HubMoved ch d v t) : HubMoved ch d s t := by
  unfold HubMoved at h ⊢
  rw [h, hs.count]

variable (hb : bitAt reps 0 = true) (hon : s.chOn ch = true)
include hb hon

/-- A legal transition of sampled balls (R227). -/
theorem quadNow_legal (hm : s.chMode ch 0 = true) {ab : Nat} (h : quadTurn (s.posOf ch).hub.ab (low 2 ab) ≠ 2) (ph : Nat) :
    ∃ u : State, HubMoved ch (s.quadDelta ch ab) s u ∧ (u.posOf ch).hub.ab = low 2 ab ∧
      quadNow ch reps ab ph v = afterEdge ch (s.edgeAt ch ph) (s.quadDelta ch ab) v u := by
  obtain ⟨t, hmove, hab, hlegal, -⟩ := quadTransition_eq (s := v) hb (hs.chOn.trans hon) ((hs.chMode 0).trans hm) ab ph
  rw [hs.ab, hs.quadDelta] at hlegal
  refine ⟨t, hs.hubMoved (hs.quadDelta ab ▸ hmove), hab, ?_⟩
  unfold quadNow
  rw [hlegal h, hs.edgeAt]

/-- An illegal transition of sampled balls (R228). -/
theorem quadNow_illegal (hc : ch < 4) (hm : s.chMode ch 0 = true) {ab : Nat}
    (h : quadTurn (s.posOf ch).hub.ab (low 2 ab) = 2) (ph : Nat) :
    ∃ u : State, (u.posOf ch).hub.count = (s.posOf ch).hub.count ∧ (u.posOf ch).hub.ab = low 2 ab ∧
      bitAt (u.get F.Hdr.EVENT_STATUS (pgPos ch)) Ev.posQuadIllegal.bit = true ∧
      quadNow ch reps ab ph v = afterEdge ch (s.edgeAt ch ph) 0 v u := by
  obtain ⟨t, hmove, hab, -, hillegal⟩ := quadTransition_eq (s := v) hb (hs.chOn.trans hon) ((hs.chMode 0).trans hm) ab ph
  rw [hs.ab] at hillegal
  rw [hs.quadDelta, quadDelta_illegal h] at hmove
  obtain ⟨arg, he⟩ := hillegal h
  unfold quadNow
  rw [he, hs.edgeAt]
  refine ⟨_, ?_, ?_, State.raise_bit _ _ _ (posKey ch hc) (by decide), rfl⟩
  · rw [posOf_sat_raise]; exact hs.hubMoved hmove
  · rw [posOf_sat_raise]; exact hab

/-- A valid code of sampled switches (R232, R233). -/
theorem switchNow_valid (hc : ch < 4) (hm : s.chMode ch 1 = true) {code : Nat}
    (hv : (switchPlace (low 3 code)).isSome = true) (ph : Nat) :
    ∃ u : State, HubMoved ch (s.switchDelta ch code) s u ∧ (u.posOf ch).hub.code = low 3 code ∧
      (2 ≤ switchTurn (s.posOf ch).hub.code (low 3 code) → switchTurn (s.posOf ch).hub.code (low 3 code) ≤ 4 →
        bitAt (u.get F.Hdr.EVENT_STATUS (pgPos ch)) Ev.posSwitchSkip.bit = true) ∧
      switchNow ch reps code ph v = afterEdge ch (s.edgeAt ch ph) (s.switchDelta ch code) v u := by
  obtain ⟨t, hmove, hcode, hcases⟩ := switchCode_eq (s := v) hb (hs.chOn.trans hon) ((hs.chMode 1).trans hm) hv ph
  rw [hs.code, hs.switchDelta] at hcases
  replace hmove := hs.hubMoved (hs.switchDelta code ▸ hmove)
  unfold switchNow
  rcases hcases with ⟨he, hskip⟩ | ⟨arg, he⟩
  · rw [he, hs.edgeAt]
    exact ⟨t, hmove, hcode, fun h2 h4 => absurd ⟨h2, h4⟩ hskip, rfl⟩
  · rw [he, hs.edgeAt]
    refine ⟨_, ?_, ?_, fun _ _ => State.raise_bit _ _ _ (posKey ch hc) (by decide), rfl⟩
    · unfold HubMoved; rw [posOf_sat_raise]; exact hmove
    · rw [posOf_sat_raise]; exact hcode

end

section
variable {s : State} {ch : Nat} (hc : ch < 4) (reps ph : Nat)
include hc

theorem execQuadTransition_eq (ab : Nat) : exec (.quadTransition ch reps ab ph) s = .next
    (if s.unfiltered ch then quadNow ch reps ab ph (sampleBalls ch reps 0 2 ab ph s) else sampleBalls ch reps 0 2 ab ph s) :=
  congrArg Host.Outcome.next (if_pos hc)

theorem execSwitchCodeChange_eq (code : Nat) : exec (.switchCodeChange ch reps code ph) s = .next
    (if s.unfiltered ch then switchNow ch reps code ph (sampleBalls ch reps 4 3 code ph s)
      else sampleBalls ch reps 4 3 code ph s) :=
  congrArg Host.Outcome.next (if_pos hc)

/-- Z sampled alone. -/
theorem execIndexEvent_eq (z : Bool) : exec (.indexEvent ch reps (z, none) ph) s = .next
    (if s.unfiltered ch then indexNow ch reps z ph (sampleBalls ch reps 2 1 (bit z) ph s)
      else sampleBalls ch reps 2 1 (bit z) ph s) :=
  congrArg Host.Outcome.next (if_pos hc)

end

/-- Settles O22, command by command: with a glitch filter balls are sampled only, without one what they decode to follows. -/
theorem positionEdges : Obligations.PositionEdges := by
  unfold Obligations.PositionEdges
  intro s ch reps ph hc hon
  refine ⟨fun hf => ⟨fun ab => ?_, fun code => ?_, fun z => ?_⟩, fun ab d hf hb hm hd hturn => ?legal,
    fun ab hf hb hm hturn => ?illegal, fun code d hf hb hm hv hd => ?switch,
    fun z hf hm hz hpol hpolicy hgate href => ?index, q16_tick s ch hc hon⟩
  · rw [execQuadTransition_eq hc, hf]; rfl
  · rw [execSwitchCodeChange_eq hc, hf]; rfl
  · rw [execIndexEvent_eq hc, hf]; rfl
  case legal =>
    subst hd
    rw [execQuadTransition_eq hc, if_pos hf]
    obtain ⟨u, hmove, hab, he⟩ := quadNow_legal (sample_seen ch reps 0 2 ab ph hc s) hb hon hm hturn ph
    exact ⟨u, hmove, hab, congrArg _ he⟩
  case illegal =>
    rw [execQuadTransition_eq hc, if_pos hf]
    obtain ⟨u, hcount, hab, hev, he⟩ := quadNow_illegal (sample_seen ch reps 0 2 ab ph hc s) hb hon hc hm hturn ph
    exact ⟨u, hcount, hab, hev, congrArg _ he⟩
  case switch =>
    subst hd
    rw [execSwitchCodeChange_eq hc, if_pos hf]
    obtain ⟨u, hmove, hcode, hev, he⟩ := switchNow_valid (sample_seen ch reps 4 3 code ph hc s) hb hon hc hm hv ph
    exact ⟨u, hmove, hcode, hev, congrArg _ he⟩
  case index =>
    rw [execIndexEvent_eq hc, if_pos hf]
    obtain ⟨t, ht, hfacts⟩ := q16_idx s _ ch ph hc (sample_seen ch 1 2 1 (bit z) ph hc s) hon z hm hz hpol hpolicy hgate href
    exact ⟨t, congrArg _ ht, hfacts⟩

end Sys2Proof.Machine
end

section
/-! SYNC of a divider, and arming, disarming and matches of compare units. -/

-- One declaration after another, as in the files before: the text is also checked in one piece.
set_option Elab.async false

namespace Sys2Proof.Machine

/-! ### SYNC of a divider -/

/-- The registers of a divider as SYNC leaves them (R248). -/
def phaseLoaded (d phase : Nat) (s : State) : State :=
  ((s.setI F.Div.PHASE pgDiv d phase).setI F.Div.ACC pgDiv d (min (low 16 phase) (s.getI F.Div.N_IN_M1 pgDiv d))).setI
    F.Div.BACKLOG pgDiv d 0

section
variable (d phase : Nat) (s : State)

theorem phaseLoaded_phase : (phaseLoaded d phase s).getI F.Div.PHASE pgDiv d = low 16 phase := by
  unfold phaseLoaded
  rw [State.getI_setI_arr _ (by rfl) (by decide), State.getI_setI_arr _ (by rfl) (by decide), State.getI_setI_self]
  rfl

theorem phaseLoaded_acc : (phaseLoaded d phase s).getI F.Div.ACC pgDiv d =
    low 16 (min (low 16 phase) (s.getI F.Div.N_IN_M1 pgDiv d)) := by
  unfold phaseLoaded
  rw [State.getI_setI_arr _ (by rfl) (by decide), State.getI_setI_self]
  rfl

theorem phaseLoaded_backlog : (phaseLoaded d phase s).getI F.Div.BACKLOG pgDiv d = 0 :=
  State.getI_setI_self _ _ _ _ _

theorem phaseLoaded_onlyRegs : s.OnlyRegs (phaseLoaded d phase s)
    [F.Div.PHASE.key pgDiv d, F.Div.ACC.key pgDiv d, F.Div.BACKLOG.key pgDiv d] :=
  ((s.onlyRegs_setI F.Div.PHASE pgDiv d phase).setI F.Div.ACC pgDiv d _).setI F.Div.BACKLOG pgDiv d 0

end

/-- SYNC loads the registers; besides them it changes only what the divider remembers of this cycle. -/
theorem execDivSync_passes {s : State} {d owner : Nat} (hd : d < 4) (hp : s.passes pgDiv owner = true) (phase : Nat) :
    ∃ c, exec (.divSync d phase owner) s = .next { phaseLoaded d phase s with div := c } := by
  obtain ⟨c, hc⟩ := divSync_load s d phase (State.getI_setI_lo _ (by decide) (by decide) (by decide))
  refine ⟨c, ?_⟩
  simp only [exec, execDivSync, if_pos hd, gateReg_passes hp, hc]
  rfl

/-! ### Arming -/

/-- A unit with the direction in which it is armed (R249). -/
def cmpAimed (u : Nat) (rev : Bool) (s : State) : State :=
  { s with cmp := tput s.cmp u { tget s.cmp u {} with rev := rev } }

/-- A unit whose target was found late: counted, not armed, and reported (R250). -/
def cmpFoundLate (u arg : Nat) (s : State) : State :=
  ((s.sat F.Cmp.CMP_LATE_COUNT pgCmp).setArmed u false).raise Ev.posCompareLate pgCmp arg

section
variable {s : State} {u owner : Nat} {rev : Bool} (hu : u < 32) (hp : s.passes pgCmp owner = true)
  (hen : s.on F.Hdr.ENABLE pgCmp = true) (ha : s.cmpArmed u = false)
  (hrev : rev = (if s.getI F.Cmp.DIR pgCmp u = 0 then false else if s.getI F.Cmp.DIR pgCmp u = 1 then true
    else s.on F.Pos.DIRECTION (pgPos (s.getI F.Cmp.CHANNEL pgCmp u))))
include hu hp hen ha hrev

theorem execCmpArm_ahead (h : 0 < distance rev (s.cmpTarget u) (s.cmpPos u)) :
    exec (.cmpArm (2 ^ u) owner) s = .next ((cmpAimed u rev s).setArmed u true) := by
  rw [arm_eq s u owner rev hu hp hen ha hrev]
  exact congrArg Host.Outcome.next (if_pos h)

theorem execCmpArm_late (h : distance rev (s.cmpTarget u) (s.cmpPos u) ≤ 0) :
    ∃ arg, exec (.cmpArm (2 ^ u) owner) s = .next (if s.onI F.Cmp.LATE_POLICY pgCmp u = true then
      cmpMatch u (cmpFoundLate u arg (cmpAimed u rev s)) else cmpFoundLate u arg (cmpAimed u rev s)) := by
  rw [arm_eq s u owner rev hu hp hen ha hrev]
  exact ⟨_, congrArg Host.Outcome.next (if_neg (not_lt.mpr h))⟩

end

theorem cmpAimed_rev (u : Nat) (rev : Bool) (s : State) : (tget (cmpAimed u rev s).cmp u {}).rev = rev := by
  unfold cmpAimed; rw [tget_tput_self]

theorem cmpPage : pgCmp ≠ pgLedger := by decide

theorem setArmed_self (s : State) {u : Nat} (hu : u < 32) (on : Bool) : (s.setArmed u on).cmpArmed u = on := by
  rw [armed_set s u u on hu, if_pos rfl]

theorem setArmed_onlyRegs (s : State) (u : Nat) (on : Bool) : s.OnlyRegs (s.setArmed u on) [F.Cmp.CMP_ARMED.key pgCmp 0] :=
  s.onlyRegs_setI F.Cmp.CMP_ARMED pgCmp 0 _

/-- Another field of the compare units' page. -/
theorem setArmed_get (s : State) (u : Nat) (on : Bool) {f : Fld}
    (h : (f.off + 0 * f.stride) * 32 + f.lo ≠ F.Cmp.CMP_ARMED.off * 32) : (s.setArmed u on).get f pgCmp = s.get f pgCmp :=
  State.get_set_off _ h

theorem cmpFoundLate_armed {u : Nat} (hu : u < 32) (arg : Nat) (s : State) : (cmpFoundLate u arg s).cmpArmed u = false := by
  unfold cmpFoundLate State.cmpArmed
  rw [State.get_raise_off _ _ cmpPage (by decide) (by decide) (by decide)]
  exact setArmed_self _ hu false

theorem cmpFoundLate_event (u arg : Nat) (s : State) :
    bitAt ((cmpFoundLate u arg s).get F.Hdr.EVENT_STATUS pgCmp) Ev.posCompareLate.bit = true :=
  State.raise_bit _ _ _ cmpPage (by decide)

/-! ### Disarming -/

theorem execCmpDisarm_passes {s : State} {owner : Nat} (hp : s.passes pgCmp owner = true) (mask : Nat) :
    exec (.cmpDisarm mask owner) s = .next (cmpDisarmAll mask s) :=
  congrArg Host.Outcome.next (gateReg_passes hp _ _ _)

/-- A unit that is due matches before it is disarmed (R254). -/
theorem cmpDisarm_due {s : State} {u : Nat} (ha : s.cmpArmed u = true) (hd : s.cmpDue u = true) :
    ∃ c, cmpDisarm u s = { (cmpMatch u s).setArmed u false with cmp := c } := by
  unfold cmpDisarm
  rw [if_pos ha, if_pos hd]
  exact ⟨_, rfl⟩

theorem mem_unitsOf {mask u : Nat} : u ∈ unitsOf mask ↔ u < 32 ∧ bitAt mask u = true := by
  simp [unitsOf]

/-! ### A match -/

/-- A match up to the end of the unit: its pulse, the count and its event (R252, R253). -/
def cmpMatched (u arg : Nat) (s : State) : State :=
  let t := (cmpPulse u s).wrap F.Cmp.CMP_MATCH_COUNT pgCmp
  if s.onI F.Cmp.EVENT_EN pgCmp u then t.raise Ev.posCompareMatch pgCmp arg else t

/-- A match without SYNC and PERIOD disarms its unit. -/
theorem cmpMatch_once {s : State} {u : Nat} (hs : s.onI F.Cmp.SYNC_EN pgCmp u = false)
    (hper : s.getI F.Cmp.CMP_PERIOD pgCmp u = 0) : ∃ arg, cmpMatch u s = (cmpMatched u arg s).setArmed u false := by
  unfold cmpMatch
  simp only [hs, hper, Bool.false_eq_true, if_false, if_true]
  exact ⟨_, rfl⟩

theorem cmpPulse_get (u : Nat) (s : State) (f : Fld) (pg : Nat) : (cmpPulse u s).get f pg = s.get f pg := by
  unfold cmpPulse
  extract_lets sel w
  split <;> rfl

theorem cmpMatched_count (u arg : Nat) (s : State) : (cmpMatched u arg s).get F.Cmp.CMP_MATCH_COUNT pgCmp =
    low 32 (s.get F.Cmp.CMP_MATCH_COUNT pgCmp + 1) := by
  have hcount : ((cmpPulse u s).wrap F.Cmp.CMP_MATCH_COUNT pgCmp).get F.Cmp.CMP_MATCH_COUNT pgCmp =
      low 32 (s.get F.Cmp.CMP_MATCH_COUNT pgCmp + 1) := by
    rw [← cmpPulse_get u s]
    exact State.getI_setI_self _ _ _ _ _
  unfold cmpMatched
  split
  · rw [State.get_raise_off _ _ cmpPage (by decide) (by decide) (by decide), hcount]
  · exact hcount

theorem cmpMatched_event {u : Nat} (arg : Nat) {s : State} (he : s.onI F.Cmp.EVENT_EN pgCmp u = true) :
    bitAt ((cmpMatched u arg s).get F.Hdr.EVENT_STATUS pgCmp) Ev.posCompareMatch.bit = true := by
  unfold cmpMatched
  rw [if_pos he]
  exact State.raise_bit _ _ _ cmpPage (by decide)

theorem execCompareMatch_due {s : State} {u : Nat} (hu : u < 32) (ha : s.cmpArmed u = true) (hd : s.cmpDue u = true) :
    exec (.compareMatch u) s = .next (cmpMatch u s) := by
  simp only [exec, execCompareMatch, if_pos (And.intro hu hd), if_pos ha]

/-- Settles O24: what SYNC loads, the two outcomes of arming, disarming with and without a match, and a match alone. -/
theorem dividersAndCompare : Obligations.DividersAndCompare := by
  unfold Obligations.DividersAndCompare
  intro s
  refine ⟨fun d hd phase owner hp => ?sync, fun u hu owner rev hp hen ha hrev => ⟨fun hahead => ?ahead, fun hlate => ?late⟩,
    fun u hu owner hp ha hdue => ?disarmDue, fun mask owner hp hnone => ?disarm, fun u hu ha hdue hsync hper => ?matched⟩
  case sync =>
    obtain ⟨c, he⟩ := execDivSync_passes hd hp phase
    exact ⟨_, he, phaseLoaded_phase d phase s, phaseLoaded_acc d phase s, phaseLoaded_backlog d phase s, rfl,
      (phaseLoaded_onlyRegs d phase s).2⟩
  case ahead =>
    exact ⟨_, execCmpArm_ahead hu hp hen ha hrev hahead, setArmed_self _ hu true, cmpAimed_rev u rev s, rfl,
      (setArmed_onlyRegs (cmpAimed u rev s) u true).2⟩
  case late =>
    obtain ⟨arg, he⟩ := execCmpArm_late hu hp hen ha hrev hlate
    exact ⟨_, he, cmpFoundLate_armed hu arg _, cmpFoundLate_event u arg _⟩
  case disarmDue =>
    obtain ⟨c, hc⟩ := cmpDisarm_due ha hdue
    refine ⟨c, (execCmpDisarm_passes hp _).trans (congrArg _ ?_)⟩
    rw [cmpDisarmAll, unitsOf_pow u hu]
    exact hc
  case disarm =>
    obtain ⟨hframe, hregs, harmed⟩ := disarm_fold (unitsOf mask) s (List.nodup_range.filter _) fun u h =>
      hnone u (mem_unitsOf.mp h).1 (mem_unitsOf.mp h).2
    refine ⟨_, execCmpDisarm_passes hp mask, fun u hu => (harmed u hu).trans ?_, hframe, hregs⟩
    simp [mem_unitsOf, hu]
  case matched =>
    obtain ⟨arg, hmatch⟩ := cmpMatch_once hsync hper
    refine ⟨_, execCompareMatch_due hu ha hdue, ?_⟩
    rw [hmatch, setArmed_get _ _ _ (by decide), setArmed_get _ _ _ (by decide)]
    exact ⟨setArmed_self _ hu false, cmpMatched_count u arg s, cmpMatched_event arg⟩

end Sys2Proof.Machine
end

section
/-! A port that arms, fires a line, meets a poisoned replay read, and strobes in tickle. -/

-- One declaration after another, as in the files before: the text is also checked in one piece.
set_option Elab.async false

namespace Sys2Proof.Machine

/-! ### Arming -/

/-- Outside RUNNING, STOPPING and FAULT a port's state is shown with URGENT 0, and nothing else changes (R285). -/
theorem setRun_calm {v : Nat} (h4 : v ≠ 4) (h5 : v ≠ 5) (h7 : v ≠ 7) (p : Nat) (s : State) :
    setRun p v s = (s.set F.Port.RUN_STATUS_STATE (pgPort p) v).set F.Port.URGENT (pgPort p) 0 := by
  simp only [setRun, h4, h5, h7, false_and, or_self, if_false]

/-- A port in ARMED whose start target does not stand yet (R265). -/
def portArmed (p : Nat) (s : State) : State := (setRun p 3 s).updPort p (fun x => { x with started := false })

/-- The first LANE_AHEAD lines have been wholly sent, and the start waits for a trigger (R265). -/
theorem execPortArmed_sent {s : State} {p : Nat} (hp : p < 48) (hm : s.printMode = true) (h2 : s.runState p = 2)
    (hlen : ((s.portOf p).slots.take (s.pget F.Port.LANE_AHEAD p)).length = s.pget F.Port.LANE_AHEAD p)
    (hdone : ((s.portOf p).slots.take (s.pget F.Port.LANE_AHEAD p)).all (·.done) = true) (hsrc : (s.portOf p).src ≠ 0) :
    exec (.portArmed p) s = .next (portArmed p s) := by
  refine (congrArg Host.Outcome.next (if_pos ⟨hp, hm, h2, hlen, hdone⟩)).trans ?_
  rw [if_neg hsrc, portArmed]

theorem portArmed_runState (p : Nat) (s : State) : (portArmed p s).runState p = 3 := by
  show (setRun p 3 s).get F.Port.RUN_STATUS_STATE (pgPort p) = 3
  rw [setRun_calm (by decide) (by decide) (by decide), State.get_set_off _ (by decide), State.get_set_self]
  rfl

theorem portArmed_portOf_self (p : Nat) (s : State) : ((portArmed p s).portOf p).started = false := by
  unfold portArmed; rw [State.portOf_updPort]

theorem portArmed_portOf_ne {p q : Nat} (h : q ≠ p) (s : State) : (portArmed p s).portOf q = s.portOf q := by
  unfold portArmed
  rw [State.portOf_updPort_ne _ _ h, setRun_calm (by decide) (by decide) (by decide)]
  rfl

theorem portArmed_frame (p : Nat) (s : State) :
    portArmed p s = { s with regs := (portArmed p s).regs, port := (portArmed p s).port } ∧
      s.RegsBut (portArmed p s) [F.Port.RUN_STATUS_STATE.key (pgPort p) 0, F.Port.URGENT.key (pgPort p) 0] := by
  unfold portArmed
  rw [setRun_calm (by decide) (by decide) (by decide)]
  exact ⟨rfl, ((s.onlyRegs_setI F.Port.RUN_STATUS_STATE (pgPort p) 0 3).setI F.Port.URGENT (pgPort p) 0 0).2⟩

/-! ### Firing -/

/-- The phase-0 instant of one due line (R271). -/
theorem fireTimes_one (gap : Nat) (last : Option Nat) (d : Nat) : (fireTimes gap last [d]).getD 0 0 =
    match last with
    | some t => max d (t + gap)
    | none => d := by cases last <;> rfl

section
variable {s : State} {p d f : Nat} {q : Slot} {rest : List Slot} {ds : List Nat}
  (hp : p < 48) (hslots : (s.portOf p).slots = q :: rest) (hdue : (s.portOf p).due = d :: ds)
  (hf : f = (fireTimes (16 * s.pget F.Port.MIN_PERIOD p) (s.portOf p).lastF [d]).getD 0 0)
  (hm : s.printMode = true) (ht : s.timing p = true) (hnow : f / 16 ≤ s.now)
include hp hslots hdue hf hm ht hnow

/-- At its phase-0 instant the line that is due fires, but a backlog above 8 goes before it (R271, R272). -/
theorem execLineFire_due (buf : Bool × Nat) (ptErr : Bool) : exec (.lineFire p buf ptErr) s =
    .next ((s.overrun p).elim (fireLine p f q d buf.1 ptErr buf.2 s) (fun l => backlogFault p l s)) := by
  simp only [exec, execLineFire, hslots, hdue, List.head?_cons, ← hf]
  refine (congrArg Host.Outcome.next (if_pos ⟨hp, hm, ht, hnow⟩)).trans ?_
  cases s.overrun p <;> rfl

end

/-! ### A poisoned replay read -/

/-- The line whose replay read was poisoned is bad and has no levels. -/
def slotSpoilt (q y : Slot) : Slot := if y.seq = q.seq then { y with data := none, bad := true } else y

theorem slotSpoilt_bad {q y : Slot} (h : (slotSpoilt q y).seq = q.seq) :
    (slotSpoilt q y).data = none ∧ (slotSpoilt q y).bad = true := by
  unfold slotSpoilt at h ⊢
  split
  next => exact ⟨rfl, rfl⟩
  next hne => rw [if_neg hne] at h; exact absurd h hne

/-- A port of which the replay read of a slot was poisoned, before the lines behind it go (R290). -/
def replaySpoilt (p line : Nat) (q : Slot) (s : State) : State :=
  replayBad p q.folio line (s.updPort p (fun x => { x with slots := x.slots.map (slotSpoilt q) }))

theorem execReplayError_found {s : State} {p line : Nat} {q : Slot} (h : (s.portOf p).slots.find?
      (fun q => q.line == line && !q.sent && q.data.isSome && s.replays p q.folio) = some q) :
    exec (.replayError p line) s = .next (urgency p (fillSend 16 p false (replaySpoilt p line q s))) := by
  simp only [exec, execReplayError, h]
  rfl

theorem replaySpoilt_portOf (p line : Nat) (q : Slot) (s : State) : (replaySpoilt p line q s).portOf p =
    { s.portOf p with slots := (s.portOf p).slots.map (slotSpoilt q), recClean := false } := by
  unfold replaySpoilt replayBad
  rw [State.portOf_raise, State.portOf_updPort, State.portOf_updPort]

theorem replaySpoilt_event {p : Nat} (hp : p < 48) (line : Nat) (q : Slot) (s : State) :
    bitAt ((replaySpoilt p line q s).get F.Hdr.EVENT_STATUS (pgPort p)) Ev.fireReplayError.bit = true :=
  State.raise_bit _ _ _ (portPage p hp) (by decide)

theorem replaySpoilt_slots (p line : Nat) (q : Slot) (s : State) :
    ∀ y ∈ ((replaySpoilt p line q s).portOf p).slots, y.seq = q.seq → y.data = none ∧ y.bad = true := by
  rw [replaySpoilt_portOf]
  intro y hy hseq
  obtain ⟨z, -, rfl⟩ := List.mem_map.mp hy
  exact slotSpoilt_bad hseq

/-! ### Tickle -/

/-- A port that places a tickle strobe now (R291). -/
def tickleStruck (p : Nat) (s : State) : State := s.updPort p (fun x => { x with
  tickled := 16 * s.now, strobes := [strobeAt (16 * s.now) (s.pget F.Port.STROBE_WIDTH p) (s.trims (dieOf p))] })

/-- The next tickle strobe is due, and the tickle WAVE_SELECT has gone (R291, R292). -/
theorem execTickleStrobe_due {s : State} {p : Nat} (hp : p < 48) (ht : s.tickles p = true) (h1 : s.runState p = 1)
    (hl : (s.portOf p).leaving = false) (hthr : s.throttled p = false) (hsel : (s.laneOf p).selects.contains true = false)
    (hcur : (s.laneOf p).cur.any (fun m => m.type == 3) = false)
    (hdue : (s.portOf p).tickled + 16 * max (s.pget F.Port.TICKLE_PERIOD p) (s.pget F.Port.MIN_PERIOD p) ≤ 16 * s.now) :
    exec (.tickleStrobe p) s = .next (tickleStruck p s) := by
  have gone : (!(s.laneOf p).selects.contains true && !(s.laneOf p).cur.any (fun m => m.type == 3)) = true := by
    rw [hsel, hcur]; rfl
  exact congrArg Host.Outcome.next (if_pos ⟨hp, ht, h1, hl, hthr, gone, hdue⟩)

/-- Settles O25, command by command. -/
theorem portFiring : Obligations.PortFiring := by
  unfold Obligations.PortFiring
  intro s p hp
  refine ⟨fun hm h2 hlen hdone hsrc => ?armed, fun q rest d ds f bufErr ptErr corr hslots hdue hf hm ht hnow =>
    ⟨fun l ho => ?overrun, fun ho => ?fires⟩, fun line q hfind => ?replay, fun ht h1 hl hthr hsel hcur hdue => ?tickle⟩
  case armed =>
    exact ⟨_, execPortArmed_sent hp hm h2 hlen hdone hsrc, portArmed_runState p s, portArmed_portOf_self p s,
      fun q hq => portArmed_portOf_ne hq s, portArmed_frame p s⟩
  case overrun =>
    rw [execLineFire_due hp hslots hdue (hf.trans (fireTimes_one _ _ d).symm) hm ht hnow, ho]
    rfl
  case fires =>
    rw [execLineFire_due hp hslots hdue (hf.trans (fireTimes_one _ _ d).symm) hm ht hnow, ho]
    obtain ⟨u, hfolio, hline, hrun, hs, hd, hlast, hfired, hstr, hover, hother, v, tg, dw, fl, j, lv, hv, he⟩ :=
      fire_facts p f q d rest ds bufErr ptErr corr s hp hslots hdue
    exact ⟨u, hfolio, hline, hrun, hs, hd, hlast, hfired, hstr, hover, hother, v, tg, dw, fl, j, lv, hv, congrArg _ he⟩
  case replay =>
    exact ⟨_, replaySpoilt_event hp line q s, by rw [replaySpoilt_portOf], replaySpoilt_slots p line q s,
      execReplayError_found hfind⟩
  case tickle =>
    refine ⟨_, execTickleStrobe_due hp ht h1 hl hthr hsel hcur hdue, ?_, ?_, fun q hq => State.portOf_updPort_ne _ _ hq, rfl⟩
    · unfold tickleStruck; rw [State.portOf_updPort]
    · unfold tickleStruck; rw [State.portOf_updPort]

end Sys2Proof.Machine
end

section
/-! The lane PLL, the messages and blocks of a return lane, its silence and its test mode. -/

-- One declaration after another, as in the files before: the text is also checked in one piece.
set_option Elab.async false

namespace Sys2Proof.Machine

/-! ### The lane PLL -/

theorem execLanePllLock_up {s : State} {c : Nat} (hc : c < 12) (hm : s.get F.Mode.MODE pgMode ≠ 0)
    (hporst : s.mode.porst = false) : exec (.lanePllLock c) s = .next (s.set F.Clu.PLL_LOCKED (pgClu c) 1) :=
  congrArg Host.Outcome.next (if_pos ⟨hc, hm, hporst⟩)

/-- PLL_LOCKED shows what was stored. -/
theorem pllLocked_set (b : Bool) (c : Nat) (s : State) :
    (s.set F.Clu.PLL_LOCKED (pgClu c) (bit b)).on F.Clu.PLL_LOCKED (pgClu c) = b := by
  unfold State.on; rw [State.get_set_self]; cases b <;> decide

theorem execLanePllLockLoss_locked {s : State} {c : Nat} (hc : c < 12) (h : s.on F.Clu.PLL_LOCKED (pgClu c) = true) :
    exec (.lanePllLockLoss c) s = .next (clusterFault c 1 (forAll (((List.range 4).map (4 * c + ·)).filter s.transmits)
      (s.set F.Clu.PLL_LOCKED (pgClu c) 0) laneStop)) :=
  congrArg Host.Outcome.next (if_pos ⟨hc, h⟩)

/-! ### Fields of a lane with an event -/

/-- A lane field stored, and an event of the lane raised behind it. -/
theorem laneRaise_laneSet_facts {p : Nat} (hp : p < 48) {f : Fld} (e : Ev) (hb : e.bit < 32) (v hi lo : Nat) (s : State)
    (hf : f.stride = 0x80 ∧ 32 ≤ f.off ∧ f.off + 384 < 4096 ∧ f.lo < 32) :
    let t := laneRaise e p hi lo (s.laneSet f p v)
    t.laneGet f p = low f.w v ∧ bitAt (t.get F.Hdr.EVENT_STATUS (pgLane (p / 4))) e.bit = true ∧
      s.OnlyEvents t (pgLane (p / 4)) [f.key (pgLane (p / 4)) (p % 4)] := by
  intro t
  obtain ⟨hstride, hlow, hhigh, hlo⟩ := hf
  refine ⟨?_, State.laneRaise_bit _ e hi lo hp hb, ?_⟩
  · exact (State.laneGet_laneRaise _ e hp hlow (by rw [hstride]; omega) hlo).trans (State.laneGet_laneSet s f p v)
  · refine (s.onlyRegs_setI f (pgLane (p / 4)) (p % 4) v).events (State.onlyEvents_raise _ e _ (pgLane_ne p hp)) fun k hk => ?_
    rw [List.mem_singleton.mp hk]
    exact laneKey p f hstride hhigh hlo hp

/-! ### STATUS -/

theorem execStatusReceived_taken {s : State} {p : Nat} {body : List Byte} (hp : p < 48) (hon : s.rxOn p = true)
    (hlock : s.rxLocked p = true) (hloop : s.looped p = false) (hlen : body.length = 16) :
    exec (.statusReceived p body) s = .next (statusMsg p ⟨0x41, 0, body, 0, 0⟩ s) :=
  congrArg Host.Outcome.next (if_pos ⟨hp, hon, hlock, hloop, hlen⟩)

/-- The fields that a STATUS shows (R319). -/
def statusFields : List Fld := [F.Lane.ACTIVE_TABLE, F.Lane.CFG_COUNT, F.Lane.IN_STEP, F.Lane.BRIDGE_LINE_MISSING,
  F.Lane.LANE_STATUS_BRIDGE_ALIVE]

/-- The end of a download leaves the fields that a STATUS shows alone. -/
theorem statusDownload_shown {p : Nat} (hp : p < 48) (m : Msg) (s : State) {f : Fld} (hf : f ∈ statusFields) :
    (statusDownload p m s).laneGet f p = s.laneGet f p := by
  have place : ∀ g ∈ statusFields, 32 ≤ g.off ∧ g.off + 3 * g.stride < 4096 ∧ g.lo < 32 ∧ g.stride = 128 ∧
      g.off * 32 + g.lo ≠ F.Lane.WAVE_DL_STATE.off * 32 + F.Lane.WAVE_DL_STATE.lo ∧
      g.off * 32 + g.lo ≠ F.Lane.WAVE_BAD.off * 32 + F.Lane.WAVE_BAD.lo := by decide
  obtain ⟨hlow, hhigh, hlo, hstride, hstate, hbad⟩ := place f hf
  exact (statusDownload_keep s p m hp).1 f hlow hhigh hlo hstride hstate hbad

/-- A download that ends as done: the table is good again, and no STATUS is waited for (R316). -/
def downloadDone (p : Nat) (s : State) : State :=
  ((s.laneSet F.Lane.WAVE_DL_STATE p 2).laneSet F.Lane.WAVE_BAD p
    (clearBit (s.laneGet F.Lane.WAVE_BAD p) (s.laneOf p).dlTable)).updLane p (fun x => { x with dlSent := none })

theorem downloadDone_facts (p : Nat) (s : State) (ht : (s.laneOf p).dlTable < 16) :
    (downloadDone p s).laneGet F.Lane.WAVE_DL_STATE p = 2 ∧
      bitAt ((downloadDone p s).laneGet F.Lane.WAVE_BAD p) (s.laneOf p).dlTable = false ∧
      ((downloadDone p s).laneOf p).dlSent = none := by
  unfold downloadDone
  refine ⟨?_, ?_, ?_⟩
  · rw [State.laneGet_updLane, State.laneGet_laneSet_off (g := F.Lane.WAVE_DL_STATE) (f := F.Lane.WAVE_BAD) _ rfl (by decide),
      State.laneGet_laneSet]
    rfl
  · rw [State.laneGet_updLane, State.laneGet_laneSet, bitAt_low (w := F.Lane.WAVE_BAD.w) ht, bitAt_clearBit]; simp
  · rw [State.laneOf_updLane]

section
variable {s : State} {p : Nat} {m : Msg} (hsent : (s.laneOf p).dlSent.isSome = true)
  (hstate : s.laneGet F.Lane.WAVE_DL_STATE p = 1) (htable : m.le 3 1 / 16 = (s.laneOf p).dlTable)
include hsent hstate htable

/-- The STATUS that is waited for names the table with its CRC (R316). -/
theorem statusDownload_matches (hcrc : m.le 4 4 = s.laneGet F.Lane.WAVE_DL_CRC p) :
    statusDownload p m s = downloadDone p s :=
  (if_pos ⟨hsent, hstate, htable⟩).trans (if_pos hcrc)

/-- The STATUS that is waited for names the table with another CRC (R316). -/
theorem statusDownload_differs (hcrc : m.le 4 4 ≠ s.laneGet F.Lane.WAVE_DL_CRC p) :
    statusDownload p m s = downloadFail p 1 s :=
  (if_pos ⟨hsent, hstate, htable⟩).trans (if_neg hcrc)

end

/-- What a STATUS makes of the lane and of a download that waits for it (R316, R319). -/
theorem statusMsg_facts {p : Nat} (hp : p < 48) (m : Msg) (s : State) :
    let t := statusMsg p m s
    t.laneGet F.Lane.ACTIVE_TABLE p = low 4 (m.le 3 1) ∧
      t.laneGet F.Lane.CFG_COUNT p = low 8 (m.le 10 1) ∧ t.laneGet F.Lane.IN_STEP p = low 1 (m.le 2 1 / 8) ∧
      t.laneGet F.Lane.BRIDGE_LINE_MISSING p = low 16 (m.le 8 2) ∧ t.laneGet F.Lane.LANE_STATUS_BRIDGE_ALIVE p = 1 ∧
      (t.laneOf p).lastStatus = some s.now ∧ (t.laneOf p).fault = bitAt (m.le 2 1) 4 ∧
      ((s.laneOf p).dlSent.isSome = true → s.laneGet F.Lane.WAVE_DL_STATE p = 1 → m.le 3 1 / 16 = (s.laneOf p).dlTable →
        (s.laneOf p).dlTable < 16 →
        (m.le 4 4 = s.laneGet F.Lane.WAVE_DL_CRC p → t.laneGet F.Lane.WAVE_DL_STATE p = 2 ∧
          bitAt (t.laneGet F.Lane.WAVE_BAD p) (s.laneOf p).dlTable = false ∧ (t.laneOf p).dlSent = none) ∧
        (m.le 4 4 ≠ s.laneGet F.Lane.WAVE_DL_CRC p → t.laneGet F.Lane.WAVE_DL_STATE p = 3 ∧
          bitAt (t.laneGet F.Lane.WAVE_BAD p) (s.laneOf p).dlTable = true ∧
          bitAt (t.get F.Hdr.EVENT_STATUS (pgLane (p / 4))) Ev.laneWaveLoadFail.bit = true)) := by
  intro t
  obtain ⟨u, hu, htable, hcfg, hstep, hmissing, halive, hlane, hstate, hcrc⟩ := status_facts s p m hp
  have hshown : ∀ f ∈ statusFields, t.laneGet f p = u.laneGet f p := fun f hf => by
    rw [show t = _ from hu]; exact statusDownload_shown hp m u hf
  obtain ⟨-, hlast, hfault⟩ := statusDownload_keep u p m hp
  rw [← hu, hlane] at hlast hfault
  have hsent : (u.laneOf p).dlSent = (s.laneOf p).dlSent := by rw [hlane]
  have htab : (u.laneOf p).dlTable = (s.laneOf p).dlTable := by rw [hlane]
  refine ⟨(hshown _ (by decide)).trans htable, (hshown _ (by decide)).trans hcfg, (hshown _ (by decide)).trans hstep,
    (hshown _ (by decide)).trans hmissing, (hshown _ (by decide)).trans halive, hlast, hfault, ?_⟩
  rw [← hsent, ← hstate, ← htab, ← hcrc]
  intro hs hst hm hlt
  refine ⟨fun hc => ?_, fun hc => ?_⟩
  · rw [show t = _ from hu.trans (statusDownload_matches hs hst hm hc)]
    exact downloadDone_facts p u hlt
  · rw [show t = _ from hu.trans (statusDownload_differs hs hst hm hc)]
    obtain ⟨_, rfl, hfail, hbad, -, hevent⟩ := downloadFail_facts u p 1 hp hlt
    exact ⟨hfail, hbad, hevent⟩

/-! ### TEMP -/

theorem execTempReceived_taken {s : State} {p : Nat} {body : List Byte} (hp : p < 48) (hon : s.rxOn p = true)
    (hlock : s.rxLocked p = true) (hloop : s.looped p = false) (hlen : body.length = 8) :
    exec (.tempReceived p body) s = .next (tempMsg p ⟨0x42, 0, body, 0, 0⟩ s) :=
  congrArg Host.Outcome.next (if_pos ⟨hp, hon, hlock, hloop, hlen⟩)

theorem tempMsg_fields (p : Nat) (m : Msg) (s : State) :
    (tempMsg p m s).laneGet F.Lane.SENSOR_0 p = low 16 (m.le 0 2) ∧
      (tempMsg p m s).laneGet F.Lane.SENSOR_1 p = low 16 (m.le 2 2) ∧ (tempMsg p m s).laneGet F.Lane.TEMP_STALE p = 0 := by
  unfold tempMsg
  refine ⟨?_, ?_, ?_⟩ <;> rw [State.laneGet_updLane] <;>
    simp (disch := decide) only [State.laneGet_laneSet_off, State.laneGet_laneSet] <;> rfl

theorem tempMsg_laneOf_self (p : Nat) (m : Msg) (s : State) :
    (tempMsg p m s).laneOf p = { s.laneOf p with lastTemp := some s.now, drive := m.le 4 2 } := State.laneOf_updLane _ _ _

theorem tempMsg_laneOf_ne {p q : Nat} (h : q ≠ p) (m : Msg) (s : State) : (tempMsg p m s).laneOf q = s.laneOf q :=
  State.laneOf_updLane_ne _ _ h

theorem tempMsg_frame (p : Nat) (m : Msg) (s : State) :
    tempMsg p m s = { s with regs := (tempMsg p m s).regs, lane := (tempMsg p m s).lane } ∧
      s.RegsBut (tempMsg p m s) [F.Lane.SENSOR_0.key (pgLane (p / 4)) (p % 4), F.Lane.SENSOR_1.key (pgLane (p / 4)) (p % 4),
        F.Lane.TEMP_STALE.key (pgLane (p / 4)) (p % 4)] :=
  ⟨rfl, (((s.onlyRegs_setI F.Lane.SENSOR_0 (pgLane (p / 4)) (p % 4) (m.le 0 2)).setI
    F.Lane.SENSOR_1 (pgLane (p / 4)) (p % 4) (m.le 2 2)).setI F.Lane.TEMP_STALE (pgLane (p / 4)) (p % 4) 0).2⟩

/-! ### Silence -/

theorem execBridgeSilent_due {s : State} {p : Nat} (hp : p < 48) (ha : s.laneOn F.Lane.LANE_STATUS_BRIDGE_ALIVE p = true)
    (hdue : (s.laneOf p).lastStatus.getD 0 + 1000000 ≤ s.now) : exec (.bridgeSilent p) s =
      .next (laneRaise Ev.laneBridgeSilent p 0 0 (s.laneSet F.Lane.LANE_STATUS_BRIDGE_ALIVE p 0)) :=
  congrArg Host.Outcome.next (if_pos ⟨hp, ha, hdue⟩)

theorem execLaneTempStale_due {s : State} {p : Nat} (hp : p < 48) (hr : s.ready (pgLane (p / 4)) = true)
    (hstale : s.laneOn F.Lane.TEMP_STALE p = false) (hdue : (s.laneOf p).lastTemp.getD 0 + 10000000 ≤ s.now) :
    exec (.laneTempStale p) s = .next (laneRaise Ev.laneTempStale p 0 0 (s.laneSet F.Lane.TEMP_STALE p 1)) :=
  congrArg Host.Outcome.next (if_pos ⟨hp, hr, by rw [hstale]; rfl, hdue⟩)

/-! ### Blocks -/

/-- A looped receiver sees no block (R320). -/
theorem execBlockReceived_looped {s : State} {p : Nat} (hp : p < 48) (hl : s.looped p = true) (mark : List Bool) (gap : Nat)
    (bits : List Bool) : exec (.blockReceived p mark gap bits) s = .next s := by
  simp only [exec, execBlockReceived, if_pos hp, hl, if_true]
  cases readMarker mark <;> rfl

theorem execMarkerMiss_head {p : Nat} (hp : p < 48) (s : State) : exec (.markerMiss p) s = .next (laneMiss p s) :=
  congrArg Host.Outcome.next (if_pos hp)

/-- A block that begins with no marker is a missing marker (R318). -/
theorem execBlockReceived_unmarked {s : State} {p : Nat} (hp : p < 48) (hl : s.looped p = false) {mark : List Bool}
    (hm : readMarker mark = none) (gap : Nat) (bits : List Bool) :
    exec (.blockReceived p mark gap bits) s = exec (.markerMiss p) s := by
  rw [execMarkerMiss_head hp]
  simp only [exec, execBlockReceived, hm, if_pos hp, hl, Bool.false_eq_true, if_false]

/-- A lane whose receiver has taken a block. -/
def blockTaken (p : Nat) (o : RxOut) (s : State) : State :=
  let t := s.updLane p (fun x => { x with rx := o.rx, wrongPort := x.wrongPort && !o.lockedNow })
  if o.lockedNow then t.laneSet F.Lane.LANE_STATUS_RX_LOCKED p 1 else t

section
variable (p : Nat) (o : RxOut) (s : State)

theorem blockTaken_rx : ((blockTaken p o s).laneOf p).rx = o.rx := by
  unfold blockTaken
  extract_lets t
  have ht : (t.laneOf p).rx = o.rx := by unfold t; rw [State.laneOf_updLane]
  split
  · exact ht
  · exact ht

theorem blockTaken_locked (h : o.lockedNow = true) : (blockTaken p o s).rxLocked p = true := by
  unfold blockTaken State.rxLocked State.laneOn
  rw [if_pos h, State.laneGet_laneSet]
  decide

/-- Another field of the lane. -/
theorem blockTaken_laneGet {f : Fld} (hs : f.stride = F.Lane.LANE_STATUS_RX_LOCKED.stride)
    (h : f.off * 32 + f.lo ≠ F.Lane.LANE_STATUS_RX_LOCKED.off * 32 + F.Lane.LANE_STATUS_RX_LOCKED.lo) :
    (blockTaken p o s).laneGet f p = s.laneGet f p := by
  unfold blockTaken
  split
  · exact State.laneGet_laneSet_off _ hs h
  · rfl

/-- A block with which the receiver does not lock changes the lane's own state alone. -/
theorem blockTaken_quiet (h : o.lockedNow = false) :
    blockTaken p o s = { s with lane := (blockTaken p o s).lane } ∧
      ∀ q ≠ p, (blockTaken p o s).laneOf q = s.laneOf q := by
  simp only [blockTaken, h, Bool.false_eq_true, if_false]
  exact ⟨rfl, fun q hq => State.laneOf_updLane_ne _ _ hq⟩

end

/-- A block with which lock is not lost: its error, where it has one, then its payload, where it has one (R306). -/
theorem laneBlock_eq {s : State} {p bseq gap : Nat} {bits : List Bool} {o : RxOut} (hon : s.rxOn p = true)
    (ho : o = (s.laneOf p).rx.block (s.rxLocked p) bseq gap bits) (hlost : o.lostNow = false) :
    laneBlock p bseq gap bits s =
      o.payload.elim id (goodBlock p) (o.err.elim id (blockError p) (blockTaken p o s)) := by
  simp only [laneBlock, if_pos hon, ← ho, hlost, Bool.false_eq_true, if_false]
  cases o.err <;> cases o.payload <;> rfl

theorem blockError_crc_eq (p : Nat) (s : State) : ∃ hi, blockError p 0 s = laneRaise Ev.laneRxBlockError p hi 0
    (s.laneSet F.Lane.RX_CRC_ERRORS p (min (s.laneGet F.Lane.RX_CRC_ERRORS p + 1) (2 ^ 32 - 1))) := ⟨_, rfl⟩

/-- A block with a wrong CRC is counted and reported (R306). -/
theorem blockError_crc_facts {p : Nat} (hp : p < 48) (s : State) :
    (blockError p 0 s).laneOf p = s.laneOf p ∧
      (blockError p 0 s).laneGet F.Lane.RX_CRC_ERRORS p = low 32 (min (s.laneGet F.Lane.RX_CRC_ERRORS p + 1) (2 ^ 32 - 1)) ∧
      bitAt ((blockError p 0 s).get F.Hdr.EVENT_STATUS (pgLane (p / 4))) Ev.laneRxBlockError.bit = true := by
  obtain ⟨hi, he⟩ := blockError_crc_eq p s
  obtain ⟨hcount, hevent, -⟩ := laneRaise_laneSet_facts hp Ev.laneRxBlockError (by decide)
    (min (s.laneGet F.Lane.RX_CRC_ERRORS p + 1) (2 ^ 32 - 1)) hi 0 s (f := F.Lane.RX_CRC_ERRORS) (by decide)
  rw [he]
  exact ⟨State.laneOf_laneRaise _ _ _ _ _ _, hcount, hevent⟩

/-- A good block for this port with no whole message: it is counted, and the receiver keeps what has begun (R304, R305). -/
theorem goodBlock_silent {p : Nat} {pay : List Byte} {s : State} (hport : (pay.getD 3 0).toNat % 64 = p)
    (hnone : ((s.laneOf p).rx.payload headType headLen pay).2 = {}) : goodBlock p pay s =
      (s.wrapI F.Lane.RX_BLOCKS (pgLane (p / 4)) (p % 4) 1).updLane p
        (fun x => { x with rx := ((s.laneOf p).rx.payload headType headLen pay).1 }) := by
  have hlane : (s.wrapI F.Lane.RX_BLOCKS (pgLane (p / 4)) (p % 4) 1).laneOf p = s.laneOf p := rfl
  simp only [goodBlock, hport, ne_eq, not_true, false_and, if_false, hlane, hnone]
  rfl

/-! ### Missing markers -/

/-- Up to the third miss in a row the receiver stays locked (R318). -/
theorem absent_kept {rx : RxX} (h : rx.miss < 3) : rx.absent.2 = false ∧ rx.absent.1.miss = rx.miss + 1 := by
  have h4 : ¬ 4 ≤ rx.miss + 1 := by omega
  simp only [RxX.absent, RxX.missed, if_neg h4, and_self]

/-- The fourth miss in a row loses lock (R318). -/
theorem absent_lost {rx : RxX} (h : 3 ≤ rx.miss) : rx.absent.2 = true := by
  have h4 : 4 ≤ rx.miss + 1 := by omega
  simp only [RxX.absent, RxX.missed, if_pos h4]

/-- A lane whose receiver has missed a marker. -/
def markerMissed (p : Nat) (s : State) : State := s.updLane p (fun x => { x with rx := (s.laneOf p).rx.absent.1 })

section
variable {s : State} {p : Nat} (hon : s.rxOn p = true) (hlock : s.rxLocked p = true)
include hon hlock

theorem laneMiss_kept (h : (s.laneOf p).rx.miss < 3) : laneMiss p s = markerMissed p s := by
  simp only [laneMiss, if_pos (And.intro hon hlock), (absent_kept h).1, Bool.false_eq_true, if_false, markerMissed]

theorem laneMiss_lost (h : 3 ≤ (s.laneOf p).rx.miss) : laneMiss p s = laneLost p (markerMissed p s) := by
  simp only [laneMiss, if_pos (And.intro hon hlock), absent_lost h, if_true, markerMissed]

end

theorem laneLost_eq (p : Nat) (s : State) : ∃ hi, laneLost p s = laneRaise Ev.laneRxLockLost p hi 0
    ((s.laneSet F.Lane.LANE_STATUS_RX_LOCKED p 0).laneSet F.Lane.LOCK_LOSS_COUNT p
      (min (s.laneGet F.Lane.LOCK_LOSS_COUNT p + 1) (2 ^ 16 - 1))) := by
  rw [← State.laneGet_laneSet_off s (f := F.Lane.LANE_STATUS_RX_LOCKED) (g := F.Lane.LOCK_LOSS_COUNT) (v := 0) rfl (by decide)]
  exact ⟨_, rfl⟩

/-- A lost lock is shown, counted and reported (R318). -/
theorem laneLost_facts {p : Nat} (hp : p < 48) (s : State) :
    (laneLost p s).rxLocked p = false ∧
      (laneLost p s).laneGet F.Lane.LOCK_LOSS_COUNT p = low 16 (min (s.laneGet F.Lane.LOCK_LOSS_COUNT p + 1) (2 ^ 16 - 1)) ∧
      bitAt ((laneLost p s).get F.Hdr.EVENT_STATUS (pgLane (p / 4))) Ev.laneRxLockLost.bit = true := by
  obtain ⟨hi, he⟩ := laneLost_eq p s
  obtain ⟨hcount, hevent, -⟩ := laneRaise_laneSet_facts hp Ev.laneRxLockLost (by decide)
    (min (s.laneGet F.Lane.LOCK_LOSS_COUNT p + 1) (2 ^ 16 - 1)) hi 0 (s.laneSet F.Lane.LANE_STATUS_RX_LOCKED p 0)
    (f := F.Lane.LOCK_LOSS_COUNT) (by decide)
  rw [he]
  refine ⟨?_, hcount, hevent⟩
  unfold State.rxLocked State.laneOn
  rw [State.laneGet_laneRaise _ _ hp (by decide) (by decide) (by decide),
    State.laneGet_laneSet_off (g := F.Lane.LANE_STATUS_RX_LOCKED) (f := F.Lane.LOCK_LOSS_COUNT) _ rfl (by decide),
    State.laneGet_laneSet]
  decide

/-! ### Test mode -/

/-- A lane whose receiver has checked bits of the test sequence (R320). -/
def testChecked (p : Nat) (line : List Bool) (s : State) : State :=
  s.updLane p (fun x => { x with test := line.foldl TestX.step x.test })

theorem execTestSequenceLock_on {s : State} {p : Nat} (hp : p < 48) (ht : s.laneOn F.Lane.TEST p = true)
    (hen : s.laneOn F.Lane.RX_EN p = true) (hr : s.ready (pgLane (p / 4)) = true) (hl : s.looped p = false) (line : List Bool) :
    exec (.testSequenceLock p line) s = .next (testChecked p line s) :=
  congrArg Host.Outcome.next (if_pos ⟨hp, by simp [State.testOn, ht, hen, hr], hl⟩)

/-- Settles O27, command by command; a block by what the receiver makes of it. -/
theorem laneReturns : Obligations.LaneReturns := by
  unfold Obligations.LaneReturns
  intro s
  refine ⟨fun c hc hm hporst => ?lock, fun c hc hlocked => ?loss, fun p hp => ⟨?status, ?temp, ?silent, ?stale,
    fun mark gap bits hl => execBlockReceived_looped hp hl mark gap bits,
    fun mark gap bits hl hm => execBlockReceived_unmarked hp hl hm gap bits,
    fun bseq mark gap bits o hl hm hon ho => ⟨?searching, ?discarded, ?good⟩,
    fun hon hlock => ⟨fun h => ?missed, fun h => ?lost⟩, ?test⟩⟩
  case lock => exact ⟨_, execLanePllLock_up hc hm hporst, pllLocked_set true c s, s.onlyRegs_setI _ _ _ _⟩
  case loss => exact ⟨_, execLanePllLockLoss_locked hc hlocked, pllLocked_set false c s, s.onlyRegs_setI _ _ _ _⟩
  case status =>
    rintro body m hon hlock hl hlen rfl
    exact ⟨_, execStatusReceived_taken hp hon hlock hl hlen, statusMsg_facts hp _ s⟩
  case temp =>
    rintro body m hon hlock hl hlen rfl
    obtain ⟨h0, h1, hstale⟩ := tempMsg_fields p ⟨0x42, 0, body, 0, 0⟩ s
    exact ⟨_, execTempReceived_taken hp hon hlock hl hlen, h0, h1, hstale, tempMsg_laneOf_self p _ s,
      fun q hq => tempMsg_laneOf_ne hq _ s, tempMsg_frame p _ s⟩
  case silent =>
    exact fun ha hdue => ⟨_, execBridgeSilent_due hp ha hdue,
      laneRaise_laneSet_facts hp Ev.laneBridgeSilent (by decide) 0 0 0 s (by decide)⟩
  case stale =>
    exact fun hr hst hdue => ⟨_, execLaneTempStale_due hp hr hst hdue,
      laneRaise_laneSet_facts hp Ev.laneTempStale (by decide) 1 0 0 s (by decide)⟩
  case searching =>
    intro herr hpay hlock hlost
    obtain ⟨hframe, hother⟩ := blockTaken_quiet p o s hlock
    rw [block_eq s p bseq mark gap bits hp hl hm, laneBlock_eq hon ho hlost, herr, hpay]
    exact ⟨_, rfl, blockTaken_rx p o s, hother, hframe⟩
  case discarded =>
    intro herr hpay _ hlost
    obtain ⟨hlane, hcount, hevent⟩ := blockError_crc_facts hp (blockTaken p o s)
    rw [blockTaken_laneGet p o s (f := F.Lane.RX_CRC_ERRORS) rfl (by decide)] at hcount
    rw [block_eq s p bseq mark gap bits hp hl hm, laneBlock_eq hon ho hlost, herr, hpay]
    exact ⟨_, rfl, (congrArg LaneX.rx hlane).trans (blockTaken_rx p o s), hcount, hevent⟩
  case good =>
    intro pay hpay herr hlost
    rw [block_eq s p bseq mark gap bits hp hl hm, laneBlock_eq hon ho hlost, herr, hpay]
    refine ⟨blockTaken p o s, rfl, blockTaken_rx p o s, blockTaken_locked p o s, fun hport hnone => ?_⟩
    rw [← blockTaken_rx p o s] at hnone ⊢
    rw [goodBlock_silent hport hnone]
    refine ⟨?_, ?_⟩
    · rw [← blockTaken_laneGet p o s (f := F.Lane.RX_BLOCKS) rfl (by decide)]
      exact State.laneGet_laneSet _ F.Lane.RX_BLOCKS p _
    · rw [State.laneOf_updLane]
  case missed =>
    refine ⟨_, (execMarkerMiss_head hp s).trans (congrArg _ (laneMiss_kept hon hlock h)), ?_, hlock, rfl⟩
    unfold markerMissed
    rw [State.laneOf_updLane]
    exact (absent_kept h).2
  case lost =>
    exact ⟨_, (execMarkerMiss_head hp s).trans (congrArg _ (laneMiss_lost hon hlock h)),
      laneLost_facts hp (markerMissed p s)⟩
  case test =>
    exact fun line ht hen hr hl => ⟨_, execTestSequenceLock_on hp ht hen hr hl line, State.laneOf_updLane _ _ _,
      fun q hq => State.laneOf_updLane_ne _ _ hq, rfl⟩

end Sys2Proof.Machine
end

section
/-! What a lane sends: the order of its messages, waveform downloads and bridge settings. -/

-- One declaration after another, as in the files before: the text is also checked in one piece.
set_option Elab.async false

namespace Sys2Proof.Machine

/-! ### The message that is taken -/

theorem execLaneMessageStart_idle {s : State} {p : Nat} (hp : p < 48) (ht : s.transmits p = true)
    (hcur : (s.laneOf p).cur = none) : exec (.laneMessageStart p) s = .next (nextMessage p s) :=
  congrArg Host.Outcome.next (if_pos ⟨hp, ht, hcur⟩)

/-- A message that is begun is the lane's present one, and its bytes follow those before it (R305). -/
theorem startMsg_laneOf_self (p : Nat) (m : Msg) (f : LaneX → LaneX) (s : State) : (startMsg p m f s).laneOf p =
    { f (s.laneOf p) with
      cur := some m, tx := { (s.laneOf p).tx with left := (s.laneOf p).tx.left ++ [m.bytes] } } :=
  State.laneOf_updLane _ _ _

theorem startMsg_laneOf_ne {p q : Nat} (h : q ≠ p) (m : Msg) (f : LaneX → LaneX) (s : State) :
    (startMsg p m f s).laneOf q = s.laneOf q := State.laneOf_updLane_ne _ _ h

/-- A lane that begins a WAVE_SELECT and shows its table (R314). -/
def selectStarted (p : Nat) (b : Bool) (rest : List Bool) (s : State) : State :=
  (startMsg p (selectMsg (s.selectTable p b) (if b then 0xFF else s.headBand p) b)
    (fun x => { x with selects := rest, selected := some (s.selectTable p b) }) s).laneSet
    F.Lane.SELECTED_TABLE p (s.selectTable p b)

section
variable {s : State} {p : Nat}

theorem nextMessage_select {b : Bool} {rest : List Bool} (h : firstSelect s p (s.laneOf p).selects = some (b, rest)) :
    nextMessage p s = selectStarted p b rest s := by
  simp only [nextMessage, h, selectStarted]

variable (hsel : firstSelect s p (s.laneOf p).selects = none)
include hsel

theorem nextMessage_line {m : Msg} {rest : List Msg} (hl : (s.laneOf p).lines = m :: rest) :
    nextMessage p s = startMsg p m (fun x => { x with lines := rest }) s := by
  simp only [nextMessage, hsel, hl]

theorem nextMessage_bcfg {m : Msg} (hl : (s.laneOf p).lines = []) (hb : (s.laneOf p).bcfg = some m) :
    nextMessage p s = startMsg p m (fun x => { x with bcfg := none }) s := by
  simp only [nextMessage, hsel, hl, hb]

theorem nextMessage_load {m : Msg} {rest : List Msg} (hl : (s.laneOf p).lines = []) (hb : (s.laneOf p).bcfg = none)
    (hw : (s.laneOf p).loads = m :: rest) : nextMessage p s = startMsg p m (fun x => { x with loads := rest }) s := by
  simp only [nextMessage, hsel, hl, hb, hw]

/-- With no WAVE_SELECT that may go, a message of the lane begins or nothing happens. -/
theorem nextMessage_unselected : nextMessage p s = s ∨ ∃ m f, nextMessage p s = startMsg p m f s := by
  simp only [nextMessage, hsel]
  split
  · exact .inr ⟨_, _, rfl⟩
  · exact .inr ⟨_, _, rfl⟩
  · exact .inr ⟨_, _, rfl⟩
  · exact .inl rfl

/-- Without a WAVE_SELECT that may go nothing but this lane's own state changes. -/
theorem nextMessage_frame :
    (∀ q ≠ p, (nextMessage p s).laneOf q = s.laneOf q) ∧ nextMessage p s = { s with lane := (nextMessage p s).lane } := by
  obtain h | ⟨m, f, h⟩ := nextMessage_unselected hsel
  · rw [h]; exact ⟨fun _ _ => rfl, rfl⟩
  · rw [h]; exact ⟨fun q hq => startMsg_laneOf_ne hq m f s, rfl⟩

end

/-! ### The end of a message -/

/-- A lane that is between messages again. -/
def messageGone (p : Nat) (s : State) : State := s.updLane p (fun x => { x with cur := none })

theorem messageGone_cur (p : Nat) (s : State) : ((messageGone p s).laneOf p).cur = none := by
  unfold messageGone; rw [State.laneOf_updLane]

theorem messageGone_laneOf_ne {p q : Nat} (h : q ≠ p) (s : State) : (messageGone p s).laneOf q = s.laneOf q :=
  State.laneOf_updLane_ne _ _ h

/-- A slot whose line a LINE has carried to the bridge (R265). -/
def slotSent (l : Nat × Nat) (q : Slot) : Slot := if q.at_ = l then { q with done := true } else q

theorem slotSent_done {l : Nat × Nat} {q : Slot} (h : (slotSent l q).at_ = l) : (slotSent l q).done = true := by
  unfold slotSent at h ⊢
  split
  next => rfl
  next hne => rw [if_neg hne] at h; exact absurd h hne

/-- A port whose line has been wholly sent. -/
def lineSent (p : Nat) (l : Nat × Nat) (s : State) : State :=
  s.updPort p (fun x => { x with slots := x.slots.map (slotSent l) })

theorem lineSent_slots (p : Nat) (l : Nat × Nat) (s : State) :
    ∀ q ∈ ((lineSent p l s).portOf p).slots, q.at_ = l → q.done = true := by
  unfold lineSent
  rw [State.portOf_updPort]
  intro _ hq hl
  obtain ⟨x, -, rfl⟩ := List.mem_map.mp hq
  exact slotSent_done hl

section
variable {s : State} {p : Nat} {m : Msg} (hcur : (s.laneOf p).cur = some m)
include hcur

theorem execMessageWhollySent_line (hm : m.type = 1) :
    exec (.messageWhollySent p) s = .next (lineSent p (m.folio, m.line) (messageGone p s)) := by
  simp only [exec, execMessageWhollySent, hcur, hm, if_true]
  rfl

theorem execMessageWhollySent_other (hm : m.type ≠ 1) :
    exec (.messageWhollySent p) s = .next (messageSent p m (messageGone p s)) := by
  simp only [exec, execMessageWhollySent, hcur, hm, if_false]
  rfl

end

section
variable {p : Nat} {m : Msg} (s : State)

theorem messageSent_bcfg (hm : m.type = 4) : messageSent p m s = s.laneSet F.Lane.BCFG_PENDING p 0 := if_pos hm

theorem messageSent_lastLoad (hm : m.type = 2) (hf : m.flags = 1) :
    messageSent p m s = s.updLane p (fun x => { x with dlSent := some s.now }) := by
  unfold messageSent
  rw [if_neg (by omega), if_pos ⟨hm, hf⟩]

/-- A message that ends leaves the present one, the other lanes and the ports alone. -/
theorem messageSent_keeps : ((messageSent p m s).laneOf p).cur = (s.laneOf p).cur ∧
    (∀ q ≠ p, (messageSent p m s).laneOf q = s.laneOf q) ∧ (messageSent p m s).port = s.port := by
  unfold messageSent
  split
  · exact ⟨rfl, fun _ _ => rfl, rfl⟩
  · split
    · exact ⟨by rw [State.laneOf_updLane], fun _ hq => State.laneOf_updLane_ne _ _ hq, rfl⟩
    · exact ⟨rfl, fun _ _ => rfl, rfl⟩

end

/-- A LINE marks the slot of its line done (R265). -/
theorem messageWhollySent_line {s : State} {p : Nat} {m : Msg} (hcur : (s.laneOf p).cur = some m) (hm : m.type = 1) :
    ∃ t, exec (.messageWhollySent p) s = .next t ∧ (t.laneOf p).cur = none ∧
      (∀ q ≠ p, t.laneOf q = s.laneOf q ∧ t.portOf q = s.portOf q) ∧
      ∀ q ∈ (t.portOf p).slots, q.at_ = (m.folio, m.line) → q.done = true :=
  ⟨_, execMessageWhollySent_line hcur hm, messageGone_cur p s,
    fun _ hq => ⟨messageGone_laneOf_ne hq s, State.portOf_updPort_ne _ _ hq⟩, lineSent_slots p _ _⟩

/-! ### Downloads -/

/-- The lane to whose LEN and TABLE a download is written (R315). -/
def downloadAsked (p table len : Nat) (s : State) : State :=
  (s.laneSet F.Lane.LEN p (low 13 len)).laneSet F.Lane.TABLE p (low 4 table)

theorem downloadAsked_laneGet {f : Fld} (p table len : Nat) (s : State) (hs : f.stride = 0x80)
    (hl : f.off * 32 + f.lo ≠ F.Lane.LEN.off * 32 + F.Lane.LEN.lo)
    (ht : f.off * 32 + f.lo ≠ F.Lane.TABLE.off * 32 + F.Lane.TABLE.lo) :
    (downloadAsked p table len s).laneGet f p = s.laneGet f p :=
  (State.laneGet_laneSet_off _ hs ht).trans (State.laneGet_laneSet_off _ hs hl)

theorem execWaveDlGo_passes {s : State} {p owner : Nat} (hp : p < 48) (ho : s.passes (pgLane (p / 4)) owner = true)
    (table len : Nat) (poison : Option Nat) : exec (.waveDlGo p table len poison owner) s =
      .next (download p (low 4 table) (low 13 len) poison (downloadAsked p table len s)) :=
  congrArg Host.Outcome.next ((if_pos hp).trans (gateReg_passes ho _ _ _))

theorem download_refused {s : State} {p table len : Nat} (h : s.downloadReason p table len ≠ 0) (poison : Option Nat) :
    download p table len poison s =
      laneRaise Ev.laneWaveDlRefused p 0 (table * 64 + s.downloadReason p table len * 4) s := if_pos h

theorem execWaveDlTimeout_due {s : State} {p t0 : Nat} (hsent : (s.laneOf p).dlSent = some t0)
    (hst : s.laneGet F.Lane.WAVE_DL_STATE p = 1) (hdue : t0 + 1000000 ≤ s.now) :
    exec (.waveDlTimeout p) s = .next (downloadFail p 2 s) := by
  simp only [exec, execWaveDlTimeout, hsent]
  exact congrArg Host.Outcome.next (if_pos ⟨hst, hdue⟩)

/-! ### Bridge settings -/

/-- A lane whose BRIDGE_CONFIG waits (R309). -/
def bcfgQueued (p : Nat) (s : State) : State :=
  (s.updLane p (fun x => { x with bcfg := some (bcfgMsg (s.laneGet F.Lane.BCFG_CTRL_ADDR p)
    ((List.range (s.laneGet F.Lane.WORDS_M1 p + 1)).map (fun k => s.laneGet (bcfgWord k) p))) })).laneSet
    F.Lane.BCFG_PENDING p 1

section
variable {s : State} {p owner : Nat} (hp : p < 48) (ho : s.passes (pgLane (p / 4)) owner = true)
include hp ho

theorem execBcfgSend_passes : exec (.bcfgSend p owner) s = .next (bcfgSend p s) :=
  congrArg Host.Outcome.next ((if_pos hp).trans (gateReg_passes ho _ _ _))

theorem execBcfgSend_pending (h : s.laneOn F.Lane.BCFG_PENDING p = true) : exec (.bcfgSend p owner) s = .next s :=
  (execBcfgSend_passes hp ho).trans (congrArg Host.Outcome.next (if_pos h))

theorem execBcfgSend_free (h : s.laneOn F.Lane.BCFG_PENDING p = false) :
    exec (.bcfgSend p owner) s = .next (bcfgQueued p s) :=
  (execBcfgSend_passes hp ho).trans (congrArg Host.Outcome.next (if_neg (by rw [h]; decide)))

end

/-- Settles O26: the queue that `nextMessage` takes from, `messageSent` for the ends, `download` and `bcfgSend` for what is
asked for. -/
theorem laneMessages : Obligations.LaneMessages := by
  unfold Obligations.LaneMessages
  intro s p hp
  refine ⟨fun ht hcur => ⟨fun b rest hsel => ?select, fun hsel => ?unselected⟩, fun m hcur => ?sent,
    fun table len poison owner u ho hu => ?download, fun t0 hsent hst hdue htab => ?timeout,
    fun owner ho => ⟨execBcfgSend_pending hp ho, ?bcfg⟩⟩
  case select =>
    refine ⟨_, (execLaneMessageStart_idle hp ht hcur).trans (congrArg _ (nextMessage_select hsel)),
      State.laneGet_laneSet _ _ _ _,
      (State.laneOf_laneSet _ _ _ _ _).trans (startMsg_laneOf_self p _ _ s),
      fun _ hq => (State.laneOf_laneSet _ _ _ _ _).trans (startMsg_laneOf_ne hq _ _ s), rfl, ?_⟩
    exact (State.onlyRegs_setI _ F.Lane.SELECTED_TABLE (pgLane (p / 4)) (p % 4) _).2
  case unselected =>
    obtain ⟨hother, hframe⟩ := nextMessage_frame hsel
    refine ⟨_, execLaneMessageStart_idle hp ht hcur, hother, hframe, fun m rest hl => ?_, fun hl m hb => ?_,
      fun hl hb m rest hw => ?_⟩
    · rw [nextMessage_line hsel hl]; exact startMsg_laneOf_self p m _ s
    · rw [nextMessage_bcfg hsel hl hb]; exact startMsg_laneOf_self p m _ s
    · rw [nextMessage_load hsel hl hb hw]; exact startMsg_laneOf_self p m _ s
  case sent =>
    by_cases hm : m.type = 1
    · obtain ⟨t, he, hnone, hother, hdone⟩ := messageWhollySent_line hcur hm
      exact ⟨t, he, hnone, hother, fun _ => hdone, by omega, by omega⟩
    · obtain ⟨hkept, hlanes, hport⟩ := messageSent_keeps (p := p) (m := m) (messageGone p s)
      refine ⟨_, execMessageWhollySent_other hcur hm, hkept.trans (messageGone_cur p s),
        fun q hq => ⟨(hlanes q hq).trans (messageGone_laneOf_ne hq s), by unfold State.portOf; rw [hport]; rfl⟩,
        fun h => absurd h hm, fun h4 => ⟨?_, hport⟩, fun h2 hf => ?_⟩
      · rw [messageSent_bcfg _ h4]; exact State.laneGet_laneSet _ _ _ _
      · rw [messageSent_lastLoad _ h2 hf]
        exact ⟨by rw [State.laneOf_updLane]; rfl, rfl, rfl⟩
  case download =>
    rw [show u = downloadAsked p table len s from hu]
    refine ⟨fun hr => ?_, fun hr a src bad ha hsrc hbad => ⟨fun hnone => ?_, fun k hk => ?_⟩⟩
    · exact ⟨_, (execWaveDlGo_passes hp ho table len poison).trans (congrArg _ (download_refused hr poison)),
        State.raise_lane _ _ _ _, State.laneRaise_bit _ _ _ _ hp (by decide)⟩
    all_goals
      rw [← downloadAsked_laneGet p table len s (f := F.Lane.WAVE_DL_SRC_LO) rfl (by decide) (by decide),
        ← downloadAsked_laneGet p table len s (f := F.Lane.WAVE_DL_SRC_HI) rfl (by decide) (by decide)] at ha
    · exact ⟨_, execWaveDlGo_passes hp ho table len poison, download_ok _ p _ _ a poison src hr ha hsrc (hbad ▸ hnone)⟩
    · obtain ⟨_, rfl, hstate, hmark, hloads, hevent⟩ :=
        download_poison _ p _ _ a k poison src hp (low_lt 4 table) hr ha hsrc (hbad ▸ hk)
      exact ⟨_, execWaveDlGo_passes hp ho table len poison, hstate, hmark, hloads, hevent⟩
  case timeout =>
    obtain ⟨_, rfl, hstate, hbad, hlane, hevent⟩ := downloadFail_facts s p 2 hp htab
    exact ⟨_, execWaveDlTimeout_due hsent hst hdue, hstate, hbad, by rw [hlane], hevent⟩
  case bcfg =>
    refine fun h => ⟨_, execBcfgSend_free hp ho h, State.laneGet_laneSet _ _ _ _,
      (State.laneOf_laneSet _ _ _ _ _).trans (State.laneOf_updLane _ _ _),
      fun _ hq => (State.laneOf_laneSet _ _ _ _ _).trans (State.laneOf_updLane_ne _ _ hq), rfl, ?_⟩
    exact (State.onlyRegs_setI _ F.Lane.BCFG_PENDING (pgLane (p / 4)) (p % 4) _).2

end Sys2Proof.Machine
end

section
/-! Heartbeats as they are sent, renewals, paths that go down, the lease and its takeover, and the PLL of the pair lanes. -/

-- One declaration after another, as in the files before: the text is also checked in one piece.
set_option Elab.async false

namespace Sys2Proof.Machine

/-- A field of the pair page at none of the changed places. -/
theorem PairMid.get {x : List Nat} {s t : State} (h : PairMid x s t) {f : Fld} (hf : f.off + 0 * f.stride < 4096)
    (hl : f.lo < 32) (hx : (f.off + 0 * f.stride) * 32 + f.lo ∉ x) : t.get f pgPair = s.get f pgPair := by
  obtain ⟨-, -, hget⟩ := h
  exact hget f hf hl hx

/-! ### Sending a heartbeat -/

/-- A part whose heartbeat of this multiple of 25,000 tsclk is noted as due (R491). -/
def slotTaken (s : State) : State := s.updPair (fun x => { x with slot := s.counter / 25000 })

section
variable {s : State}

theorem execHeartbeatSend_idle (h : s.ready pgPair = false ∨ s.role = 0 ∨ s.counter / 25000 ≤ s.pair.slot) :
    exec .heartbeatSend s = .next s :=
  congrArg Host.Outcome.next (if_neg (by obtain h | h | h := h <;> simp [h]))

theorem execHeartbeatSend_due (hr : s.ready pgPair = true) (h0 : s.role ≠ 0) (hslot : s.pair.slot < s.counter / 25000) :
    exec .heartbeatSend s = .next (sendHeartbeat (slotTaken s)) := congrArg Host.Outcome.next (if_pos ⟨hr, h0, hslot⟩)

end

/-- A message on a pair lane leaves what is known of the last heartbeat alone. -/
theorem pairSend_beat (type : Nat) (body : List Byte) (s : State) :
    (pairSend type body s).pair.frameSeq = s.pair.frameSeq ∧ (pairSend type body s).pair.sentPin = s.pair.sentPin ∧
      (pairSend type body s).pair.sentLane = s.pair.sentLane := by
  unfold pairSend
  split
  · exact ⟨rfl, rfl, rfl⟩
  · exact ⟨rfl, rfl, rfl⟩

/-- In a role a heartbeat takes the next frame count and goes out on the pin, and on the lanes while their PLL is locked
(R491). -/
theorem sendHeartbeat_beat {s : State} (h0 : s.role ≠ 0) :
    (sendHeartbeat s).pair.frameSeq = low 8 (s.pair.frameSeq + 1) ∧
      (sendHeartbeat s).pair.sentPin = s.hbFrame (low 8 (s.pair.frameSeq + 1)) ∧
      (s.on F.Pair.PLL_LOCKED pgPair = true →
        (sendHeartbeat s).pair.sentLane = s.hbBody (low 8 (s.pair.frameSeq + 1))) := by
  unfold sendHeartbeat
  rw [if_neg h0]
  extract_lets n l body frame lanes s1
  obtain ⟨hseq, hpin, hlane⟩ := pairSend_beat 0x83
    (leBytes 1 n ++ leBytes 1 l.1 ++ leBytes 2 0 ++ l.2.flatMap (leBytes 8)) s1
  exact ⟨hseq, hpin, fun hl => hlane.trans (if_pos hl)⟩

/-! ### Renewals -/

/-- A part whose renewal begins, before its heartbeat goes out (R501). -/
def renewed (s : State) : State :=
  ((if s.pair.renewAck then s else s.raise Ev.pairRenewMissed pgPair (s.get F.Pair.RENEW_SEQ pgPair * 256)).set
    F.Pair.RENEW_SEQ pgPair (s.get F.Pair.RENEW_SEQ pgPair + 1)).updPair (fun x => { x with
      renewT := s.counter, renewAck := false, renewAt := s.counter + 125000 })

section
variable {s : State}

theorem execRenewal_idle
    (h : s.pairOn = false ∨ s.role ≠ 4 ∨ s.on F.Pair.GUARDED pgPair = false ∨ s.counter < s.pair.renewAt) :
    exec .renewal s = .next s :=
  congrArg Host.Outcome.next (if_neg (by obtain h | h | h | h := h <;> simp [h]))

theorem execRenewal_due (hon : s.pairOn = true) (h4 : s.role = 4) (hg : s.on F.Pair.GUARDED pgPair = true)
    (hdue : s.pair.renewAt ≤ s.counter) : exec .renewal s = .next (sendHeartbeat (renewed s)) :=
  congrArg Host.Outcome.next (if_pos ⟨hon, h4, hg, hdue⟩)

end

theorem renewed_pair (s : State) : (renewed s).pair =
    { s.pair with renewT := s.counter, renewAck := false, renewAt := s.counter + 125000 } := by
  unfold renewed
  rw [State.updPair_pair, State.set_pair]
  split
  · rfl
  · rw [State.raise_pair]

/-- Of the pair page a renewal changes EVENT_STATUS and RENEW_SEQ. -/
theorem renewed_mid (s : State) : PairMid [512, 2952] s (renewed s) := by
  unfold renewed
  refine (PairMid.set ?_ F.Pair.RENEW_SEQ _ (by decide)).updPair _
  split
  · exact .refl _ s
  · exact (PairMid.refl _ s).raise _ _ (by decide)

theorem renewed_seq (s : State) :
    (renewed s).get F.Pair.RENEW_SEQ pgPair = low 8 (s.get F.Pair.RENEW_SEQ pgPair + 1) := by
  unfold renewed
  rw [get_of_regs (State.updPair_regs _ _), State.get_set_self]
  rfl

/-- The renewal before was not acknowledged. -/
theorem renewed_missed {s : State} (h : s.pair.renewAck = false) :
    bitAt ((renewed s).get F.Hdr.EVENT_STATUS pgPair) Ev.pairRenewMissed.bit = true := by
  unfold renewed
  rw [get_of_regs (State.updPair_regs _ _), State.get_set_off _ (by decide), if_neg (by rw [h]; decide)]
  exact State.raise_bit _ _ _ (by decide) (by decide)

/-- The heartbeat that carries the renewal moves neither the role nor the expiry (R501). -/
theorem renewed_sent {s t : State} (h : Sends (renewed s) t) : t.role = s.role ∧
    t.get F.Pair.RENEW_SEQ pgPair = low 8 (s.get F.Pair.RENEW_SEQ pgPair + 1) ∧ t.pair.renewT = s.counter ∧
    t.pair.renewAck = false ∧ t.pair.renewAt = s.counter + 125000 ∧ t.pair.expiry = s.pair.expiry ∧
    (s.pair.renewAck = false → bitAt (t.get F.Hdr.EVENT_STATUS pgPair) Ev.pairRenewMissed.bit = true) := by
  have hpair := h.2
  rw [SentOnly, renewed_pair] at hpair
  refine ⟨((renewed_mid s).sends h).get (f := F.Pair.ROLE) (by decide) (by decide) (by decide),
    (h.get _ _).trans (renewed_seq s), by rw [hpair], by rw [hpair], by rw [hpair], by rw [hpair], fun hack => ?_⟩
  rw [h.get]
  exact renewed_missed hack

/-! ### Paths of heartbeats -/

/-- The field that shows a path up. -/
def pathField (pin : Bool) : Fld := if pin then F.Pair.HB_PIN_OK else F.Pair.HB_LANE_OK

/-- A part on which a path has gone down (R493). -/
def pathLost (pin : Bool) (s : State) : State :=
  ((s.set (pathField pin) pgPair 0).updPair
    (fun x => if pin then { x with pinLost := true } else { x with laneLost := true })).raise Ev.pairHbLost pgPair (bit pin)

section
variable {s : State} {pin : Bool}

theorem execHbPathTimeout_idle (h : s.on (pathField pin) pgPair = false ∨ s.pathDown pin = false) :
    exec (.hbPathTimeout pin) s = .next s := by
  refine congrArg Host.Outcome.next (if_neg ?_)
  rintro ⟨hok, hdown⟩
  obtain h | h := h
  · exact Bool.false_ne_true (h.symm.trans hok)
  · exact Bool.false_ne_true (h.symm.trans hdown)

end

section
variable (pin : Bool) (s : State)

theorem pathLost_pair : (pathLost pin s).pair =
    if pin then { s.pair with pinLost := true } else { s.pair with laneLost := true } := by
  unfold pathLost; rw [State.raise_pair]; rfl

/-- Of the pair page the loss of a path changes EVENT_STATUS and the bits of the paths. -/
theorem pathLost_mid : PairMid [512, 2569, 2570] s (pathLost pin s) :=
  (((PairMid.refl _ s).set (pathField pin) 0 (by cases pin <;> decide)).updPair _).raise _ _ (by decide)

theorem pathLost_shown : (pathLost pin s).get (pathField pin) pgPair = 0 := by
  unfold pathLost
  rw [State.get_raise_off _ _ (by decide) (by cases pin <;> decide) (by cases pin <;> decide) (by cases pin <;> decide),
    get_of_regs (State.updPair_regs _ _), State.get_set_self]
  exact Nat.zero_mod _

/-- A lost path does not move the instants of either. -/
theorem pathLost_pathDown (q : Bool) : (pathLost pin s).pathDown q = s.pathDown q := by
  unfold State.pathDown
  rw [(pathLost_mid pin s).counter, pathLost_pair]
  cases pin <;> cases q <;> rfl

theorem pathLost_join : (pathLost pin s).pair.join = s.pair.join := by
  rw [pathLost_pair]; cases pin <;> rfl

theorem pathLost_role : (pathLost pin s).role = s.role := (pathLost_mid pin s).get (by decide) (by decide) (by decide)

theorem pathLost_event : bitAt ((pathLost pin s).get F.Hdr.EVENT_STATUS pgPair) Ev.pairHbLost.bit = true :=
  State.raise_bit _ _ _ (by decide) (by decide)

/-- The loss of a path as a whole: with the other one down too a rejoin fails (R493, R509). -/
def pathTimedOut : State := if s.pathDown (!pin) then joinFail 1 (pathLost pin s) else pathLost pin s

theorem pathTimedOut_shown : (pathTimedOut pin s).get (pathField pin) pgPair = 0 := by
  obtain ⟨hmid, -, -⟩ := joinFail_spec 1 (pathLost pin s)
  unfold pathTimedOut
  split
  · exact (hmid.get (by cases pin <;> decide) (by cases pin <;> decide) (by cases pin <;> decide)).trans
      (pathLost_shown pin s)
  · exact pathLost_shown pin s

theorem pathTimedOut_event : bitAt ((pathTimedOut pin s).get F.Hdr.EVENT_STATUS pgPair) Ev.pairHbLost.bit = true := by
  obtain ⟨-, -, hevents⟩ := joinFail_spec 1 (pathLost pin s)
  unfold pathTimedOut
  split
  · exact hevents _ (by decide) (pathLost_event pin s)
  · exact pathLost_event pin s

end

section
variable {s : State} {pin : Bool}

theorem pathTimedOut_kept (h : s.pathDown (!pin) = false ∨ s.pair.join = none) : pathTimedOut pin s = pathLost pin s := by
  unfold pathTimedOut
  split
  next hdown =>
    exact joinFail_none 1 _ ((pathLost_join pin s).trans (h.resolve_left (by simp [hdown])))
  next => rfl

theorem pathTimedOut_both (hdown : s.pathDown (!pin) = true) (hj : s.pair.join.isSome = true) :
    (pathTimedOut pin s).role = 1 ∧ (pathTimedOut pin s).pair.join = none := by
  obtain ⟨hrole, -, hjoin, -⟩ := joinFail_role 1 (pathLost pin s) (by rw [pathLost_join]; exact hj)
  unfold pathTimedOut
  rw [if_pos hdown]
  exact ⟨hrole, hjoin⟩

theorem execHbPathTimeout_down (hok : s.on (pathField pin) pgPair = true) (hdown : s.pathDown pin = true) :
    exec (.hbPathTimeout pin) s = .next (pathTimedOut pin s) := by
  refine congrArg Host.Outcome.next ((if_pos ⟨hok, hdown⟩).trans ?_)
  unfold pathTimedOut
  rw [← pathLost_pathDown pin s]
  rfl

end

/-! ### The lease -/

section
variable {s : State}

theorem execLeaseExpiry_idle (h : s.pairOn = false ∨ s.leaseOver = false) : exec .leaseExpiry s = .next s :=
  congrArg Host.Outcome.next (if_neg (by obtain h | h := h <;> simp [h]))

theorem execLeaseExpiry_over (hon : s.pairOn = true) (hover : s.leaseOver = true) :
    exec .leaseExpiry s = .next (fence 1 s) := congrArg Host.Outcome.next (if_pos ⟨hon, hover⟩)

/-- Only the lease of an ACTIVE part runs out. -/
theorem State.leaseOver_active (h : s.leaseOver = true) : s.role = 4 := by
  unfold State.leaseOver at h
  simp only [Bool.and_eq_true, beq_iff_eq] at h
  obtain ⟨⟨h4, -⟩, -⟩ := h
  exact h4

/-- A STANDBY part hears no ACTIVE part, and its view of the lease is over (R503). -/
def State.standbyTakes (s : State) : Prop := s.role = 3 ∧
  s.activeSilent (if s.pair.activeAt.isNone then s.pair.entered else 0) = true ∧ s.leaseView < s.counter

/-- A LISTEN or FENCED part hears no ACTIVE part, and a CLAIM waits or it is the part that is ACTIVE first (R504). -/
def State.claimTakes (s : State) : Prop := (s.role = 1 ∨ s.role = 5) ∧
  (s.pair.claim = true ∨ (s.role = 1 ∧ s.on F.Pair.FIRST_ACTIVE pgPair = true ∧ s.pair.activeAt = none)) ∧
  s.activeSilent s.pair.enabledAt = true

/-- The lease is taken by a STANDBY part, or by a CLAIM or first start, in a mode that lets it (R503, R504). -/
def State.takes (s : State) : Prop := s.pairOn = true ∧ s.leaseMode = true ∧ (s.standbyTakes ∨ s.claimTakes)

/-- The test that TAKEOVER_TEST makes in LISTEN and FENCED. -/
theorem State.claimTakes_iff (hrole : s.role = 1 ∨ s.role = 5) :
    ((s.pair.claim || s.role == 1 && s.on F.Pair.FIRST_ACTIVE pgPair && s.pair.activeAt.isNone) &&
      s.activeSilent s.pair.enabledAt) = true ↔ s.claimTakes := by
  simp only [claimTakes, hrole, true_and, Bool.and_eq_true, Bool.or_eq_true, beq_iff_eq, Option.isNone_iff_eq_none,
    and_assoc]

theorem execTakeoverTest_idle (h : ¬ s.takes) : exec .takeoverTest s = .next s := by
  refine congrArg Host.Outcome.next ?_
  split
  next => rfl
  next hmay =>
    obtain ⟨hon, hm⟩ : s.pairOn = true ∧ s.leaseMode = true := by simpa using hmay
    split
    next h3 => exact if_neg fun ht => h ⟨hon, hm, .inl ⟨h3, ht⟩⟩
    next =>
      split
      next hrole => exact if_neg fun ht => h ⟨hon, hm, .inr ((State.claimTakes_iff hrole).mp ht)⟩
      next => rfl

theorem execTakeoverTest_takes (h : s.takes) : ∃ how, exec .takeoverTest s = .next (takeLease how s) := by
  obtain ⟨hon, hm, hby⟩ := h
  have hmay : ¬ (!s.pairOn || !s.leaseMode) = true := by simp [hon, hm]
  obtain ⟨h3, hs⟩ | hc := hby
  · exact ⟨0, congrArg Host.Outcome.next ((if_neg hmay).trans ((if_pos h3).trans (if_pos hs)))⟩
  · have hrole : s.role = 1 ∨ s.role = 5 := hc.1
    have h3 : s.role ≠ 3 := by omega
    exact ⟨1, congrArg Host.Outcome.next ((if_neg hmay).trans ((if_neg h3).trans ((if_pos hrole).trans
      (if_pos ((State.claimTakes_iff hrole).mpr hc)))))⟩

end

/-! ### RELEASE and CLAIM -/

theorem pairCtrl_off {s : State} (h : s.pairOn = false) (release claim join : Bool) : pairCtrl release claim join s = s :=
  if_pos (by rw [h]; rfl)

/-- RELEASE fences, and a CLAIM beside it is ignored (R502). -/
theorem pairCtrl_release {s : State} (h : s.pairOn = true) (claim : Bool) : pairCtrl true claim false s = fence 2 s := by
  simp [pairCtrl, h]

/-- A CLAIM waits for its conditions in LISTEN and FENCED (R504). -/
theorem pairCtrl_claim {s : State} (h : s.pairOn = true) : pairCtrl false true false s =
    if s.role = 1 ∨ s.role = 5 then s.updPair (fun x => { x with claim := true }) else s := by
  simp [pairCtrl, h]

/-- Only an ACTIVE part fences (R502). -/
theorem fence_idle {s : State} (h : s.role ≠ 4) (cause : Nat) : fence cause s = s := if_neg h

section
variable {s : State} {owner : Nat} (ho : s.passes pgPair owner = true)
include ho

theorem execPairRelease_passes (claim : Bool) : exec (.pairRelease claim owner) s = .next (pairCtrl true claim false s) :=
  congrArg Host.Outcome.next (gateReg_passes ho _ _ _)

theorem execPairRelease_idle (h : s.pairOn = false ∨ s.role ≠ 4) (claim : Bool) :
    exec (.pairRelease claim owner) s = .next s := by
  rw [execPairRelease_passes ho]
  cases hon : s.pairOn with
  | false => rw [pairCtrl_off hon]
  | true => rw [pairCtrl_release hon, fence_idle (h.resolve_left (by simp [hon]))]

theorem execPairClaim_passes : exec (.pairClaim owner) s = .next (pairCtrl false true false s) :=
  congrArg Host.Outcome.next (gateReg_passes ho _ _ _)

theorem execPairClaim_idle (h : s.pairOn = false ∨ (s.role ≠ 1 ∧ s.role ≠ 5)) : exec (.pairClaim owner) s = .next s := by
  rw [execPairClaim_passes ho]
  cases hon : s.pairOn with
  | false => rw [pairCtrl_off hon]
  | true => rw [pairCtrl_claim hon, if_neg (not_or.mpr (h.resolve_left (by simp [hon])))]

theorem execPairClaim_waits (hon : s.pairOn = true) (hrole : s.role = 1 ∨ s.role = 5) :
    exec (.pairClaim owner) s = .next (s.updPair (fun x => { x with claim := true })) := by
  rw [execPairClaim_passes ho, pairCtrl_claim hon, if_pos hrole]

end

/-! ### The PLL of the pair lanes -/

theorem execPairPllLock_down {s : State} (h : s.modeNow = 0 ∨ s.mode.porst = true) : exec .pairPllLock s = .next s :=
  congrArg Host.Outcome.next (if_neg (by obtain h | h := h <;> simp [h]))

theorem execPairPllLock_up {s : State} (hm : s.modeNow ≠ 0) (hporst : s.mode.porst = false) :
    exec .pairPllLock s = .next (s.set F.Pair.PLL_LOCKED pgPair 1) := congrArg Host.Outcome.next (if_pos ⟨hm, hporst⟩)

/-- Settles O43, command by command; `fence_spec` and `takeLease_spec` say what the lease's end and its taking do. -/
theorem pairLeaseAndRoles : Obligations.PairLeaseAndRoles := by
  unfold Obligations.PairLeaseAndRoles
  intro s
  refine ⟨execHeartbeatSend_idle, fun hr h0 hslot => ?beat, execRenewal_idle, fun hon h4 hg hdue => ?renewal,
    fun pin => execHbPathTimeout_idle, fun pin hok hdown => ?path, execLeaseExpiry_idle, fun hon hover => ?expiry,
    ⟨s.takes, Iff.rfl, execTakeoverTest_idle, fun h => ?takeover⟩,
    fun claim owner ho => ⟨fun h => execPairRelease_idle ho h claim, fun hon h4 => ?release⟩,
    fun owner ho => ⟨execPairClaim_idle ho, execPairClaim_waits ho⟩, execPairPllLock_down, execPairPllLock_up, rfl⟩
  case beat =>
    obtain ⟨hframe, hrest⟩ := sendHeartbeat_sends (slotTaken s)
    exact ⟨_, execHeartbeatSend_due hr h0 hslot, hframe, by rw [hrest]; rfl, sendHeartbeat_beat (s := slotTaken s) h0⟩
  case renewal =>
    obtain ⟨hrole, hrest⟩ := renewed_sent (sendHeartbeat_sends (renewed s))
    exact ⟨_, execRenewal_due hon h4 hg hdue, hrole.trans h4, hrest⟩
  case path =>
    refine ⟨_, execHbPathTimeout_down hok hdown, pathTimedOut_shown pin s, pathTimedOut_event pin s, fun h => ?_,
      pathTimedOut_both⟩
    rw [pathTimedOut_kept h]
    exact ⟨pathLost_role pin s, pathLost_join pin s⟩
  case expiry =>
    obtain ⟨hrole, hcause, -, hexp, -, -, -, -, -, -, hevent, -⟩ :=
      fence_spec (c := 1) (by decide) s (State.leaseOver_active hover)
    exact ⟨_, execLeaseExpiry_over hon hover, hrole, hcause, hexp, hevent⟩
  case takeover =>
    obtain ⟨how, he⟩ := execTakeoverTest_takes h
    exact ⟨_, he, takeLease_spec how s⟩
  case release =>
    obtain ⟨hrole, hcause, -, -, hclaim, -, -, -, -, -, hevent, -⟩ := fence_spec (c := 2) (by decide) s h4
    rw [execPairRelease_passes ho, pairCtrl_release hon]
    exact ⟨_, rfl, hrole, hcause, hclaim, hevent⟩

end Sys2Proof.Machine
end

section
/-! CSI-2 packets, PHY errors and silent links. -/

-- One declaration after another, as in the files before: the text is also checked in one piece.
set_option Elab.async false

namespace Sys2Proof.Machine

/-! ### A field with its event -/

/-- A field stored, and an event of its page raised behind it. -/
theorem set_raise_facts {f : Fld} {pg : Nat} (hp : pg ≠ pgLedger) (e : Ev) (hb : e.bit < 32) (v arg : Nat) (s : State)
    (hoff : f.off + 0 * f.stride < 4096) (hlo : f.lo < 32) (hev : (f.off + 0 * f.stride) * 32 + f.lo ≠ 512) :
    let t := (s.set f pg v).raise e pg arg
    t.get f pg = low f.w v ∧ bitAt (t.get F.Hdr.EVENT_STATUS pg) e.bit = true ∧ s.OnlyEvents t pg [f.key pg 0] := by
  intro t
  refine ⟨?_, State.raise_bit _ e _ hp hb, ?_⟩
  · exact (State.get_raise_off _ e hp hev hoff hlo).trans (State.get_set_self s f pg v)
  · refine (s.onlyRegs_setI f pg 0 v).events (State.onlyEvents_raise _ e _ hp) fun k hk => ?_
    rw [List.mem_singleton.mp hk, Fld.key_page hoff hlo]
    exact hp

theorem pgCam_link_ne {l : Nat} (hl : l < 2) : pgCam l ≠ pgLedger := pgCam_ne l (by omega)

/-! ### Headers -/

section
variable {s : State} {l : Nat} (hl : l < 2) (hon : s.linkOn l = true)
include hl hon

theorem withHeader_good (k : State → State) : withHeader l 0 k s = k s := by
  rw [withHeader, if_pos ⟨hon, hl⟩, if_pos rfl]

/-- A corrected header counts, and its packet acts as one without an error (R328). -/
theorem withHeader_corrected (k : State → State) :
    withHeader l 1 k s = withHeader l 0 k (s.sat F.Cam.ECC_CORRECTED (pgCam l)) := by
  have hkept : (s.sat F.Cam.ECC_CORRECTED (pgCam l)).linkOn l = true := by
    unfold State.linkOn State.on
    rw [State.sat, State.satI, State.get_setI_off _ (by decide)]
    exact hon
  rw [withHeader_good hl hkept, withHeader, if_pos ⟨hon, hl⟩]
  rfl

/-- A header with more bad bits drops its packet, whatever it carries (R328). -/
theorem withHeader_bad {ecc : Nat} (h : 2 ≤ ecc) (k : State → State) : withHeader l ecc k s = headerDrop l s := by
  rw [withHeader, if_pos ⟨hon, hl⟩, if_neg (by omega), if_neg (by omega)]

end

/-- With no enabled slot a dropped header is counted and reported, and no line is touched (R328). -/
theorem headerDrop_idle {s : State} {l : Nat} (h : (streamsOf l).any s.slotOn = false) :
    headerDrop l s = (s.sat F.Cam.ECC_DROPPED (pgCam l)).raise Ev.camHeaderDrop (pgCam l)
      (arg64 ((s.sat F.Cam.ECC_DROPPED (pgCam l)).get F.Cam.ECC_DROPPED (pgCam l)) 0) := by
  have none_on : (streamsOf l).filter s.slotOn = [] :=
    List.filter_eq_nil_iff.mpr fun st hst => by simpa using List.any_eq_false.mp h st hst
  rw [headerDrop, none_on]
  rfl

/-! ### Long packets -/

section
variable {s : State} {l vc dt : Nat}

/-- A long packet for no enabled slot, or of a type that its slot does not take (R330). -/
theorem longPacket_unknown (h18 : 0x18 ≤ dt) (hno : ∀ st, s.slotOfVc l vc = some st → dt ≠ 0x2B + s.slotGet st F.Cam.DT)
    (bad : Bool) (payload : List Byte) : longPacket l vc dt bad payload s = packetUnknown l vc dt s := by
  rw [longPacket, if_neg (by omega)]
  cases hst : s.slotOfVc l vc with
  | none => rfl
  | some st => exact if_pos (hno st hst)

/-- A link that has accepted a long packet is not silent (R331). -/
def linkHeard (l : Nat) (s : State) : State :=
  (s.set F.Cam.SILENT (pgCam l) 0).updLink l (fun x => { x with lastLong := s.now })

/-- An accepted long packet whose CRC does not match is counted and reported (R329). -/
def packetTaken (l vc : Nat) (bad : Bool) (s : State) : State :=
  if bad then
    ((linkHeard l s).sat F.Cam.CRC_ERRORS (pgCam l)).raise Ev.camCrcError (pgCam l)
      (arg64 (((linkHeard l s).sat F.Cam.CRC_ERRORS (pgCam l)).get F.Cam.CRC_ERRORS (pgCam l)) (vc * 256))
  else linkHeard l s

theorem longPacket_accepted {st : Nat} (hst : s.slotOfVc l vc = some st) (hdt : dt = 0x2B + s.slotGet st F.Cam.DT)
    (bad : Bool) (payload : List Byte) :
    longPacket l vc dt bad payload s = slotPacket st bad payload (packetTaken l vc bad s) := by
  simp only [longPacket, if_neg (show ¬((0x10 ≤ dt ∧ dt ≤ 0x12) ∨ (0x08 ≤ dt ∧ dt ≤ 0x0F)) by omega), hst,
    if_neg (not_not.mpr hdt)]
  rfl

theorem packetTaken_linkX (l vc : Nat) (bad : Bool) (s : State) :
    (packetTaken l vc bad s).linkX l = { s.linkX l with lastLong := s.now } := by
  have heard : (linkHeard l s).linkX l = { s.linkX l with lastLong := s.now } := State.linkX_updLink _ _ _
  unfold packetTaken
  split
  · rw [State.linkX_raise]; exact heard
  · exact heard

theorem packetTaken_cam (l vc : Nat) (bad : Bool) (s : State) : (packetTaken l vc bad s).cam = s.cam := by
  unfold packetTaken
  split
  · rw [State.raise_cam]; rfl
  · rfl

theorem packetTaken_silent (hl : l < 2) (vc : Nat) (bad : Bool) (s : State) :
    (packetTaken l vc bad s).get F.Cam.SILENT (pgCam l) = 0 := by
  have heard : (linkHeard l s).get F.Cam.SILENT (pgCam l) = 0 := by
    rw [linkHeard, State.get_updLink, State.get_set_self]; rfl
  unfold packetTaken
  split
  · rw [State.get_raise_off _ _ (pgCam_link_ne hl) (by decide) (by decide) (by decide), State.sat, State.satI,
      State.get_setI_off _ (by decide)]
    exact heard
  · exact heard

theorem packetTaken_crcError (hl : l < 2) (vc : Nat) (s : State) :
    (packetTaken l vc true s).get F.Cam.CRC_ERRORS (pgCam l) =
        low 32 (min (s.get F.Cam.CRC_ERRORS (pgCam l) + 1) (2 ^ 32 - 1)) ∧
      bitAt ((packetTaken l vc true s).get F.Hdr.EVENT_STATUS (pgCam l)) Ev.camCrcError.bit = true := by
  have before : (linkHeard l s).get F.Cam.CRC_ERRORS (pgCam l) = s.get F.Cam.CRC_ERRORS (pgCam l) := by
    rw [linkHeard, State.get_updLink, State.get_set_off _ (by decide)]
  rw [← before]
  obtain ⟨hcount, hevent, -⟩ := set_raise_facts (pgCam_link_ne hl) Ev.camCrcError (by decide) _ _ (linkHeard l s)
    (f := F.Cam.CRC_ERRORS) (by decide) (by decide) (by decide)
  exact ⟨hcount, hevent⟩

end

/-! ### Frames and planar lines -/

theorem openFrame_slotX (st sensor : Nat) (s : State) : (openFrame st sensor s).slotX st =
    { s.slotX st with frame := some { ser := (s.slotX st).ser, sensor := low 16 sensor }, ser := (s.slotX st).ser + 1 } :=
  State.slotX_updSlot _ _ _

/-- A frame that opens has its sensor number, no number of its own and no line (R338). -/
theorem openFrame_new (st sensor : Nat) (s : State) :
    (((openFrame st sensor s).slotX st).frame.map (fun f => (f.sensor, f.n, f.lines))) = some (low 16 sensor, none, 0) := by
  rw [openFrame_slotX]; rfl

/-- A slot with no open frame has none to close. -/
theorem closeFrame_eq_self {st : Nat} {s : State} (h : (s.slotX st).frame = none) (change : FrameX → FrameX) :
    closeFrame st change s = s := by
  unfold closeFrame; rw [h]

/-- A slot whose line in progress ends because a frame starts (R335, R336). -/
def lineCut (st : Nat) (s : State) : State :=
  (endLine st (s.planesOf st) s).updSlot st (fun x => { x with misaligned := false, lsOpen := false })

section
variable {s : State} {l vc st : Nat} (hl : l < 2) (hon : s.linkOn l = true) (hst : s.slotOfVc l (low 4 vc) = some st)
include hl hon hst

theorem execCsiFrameStart_opens (hmode : s.slotGet st F.Cam.FRAME_MODE = 0) (num : Nat) : exec (.csiFrameStart l vc num 0) s =
    .next (openFrame st num (closeFrame st (fun f => { f with feMissing := true }) (lineCut st s))) := by
  refine (congrArg Host.Outcome.next (withHeader_good hl hon _)).trans ?_
  simp only [hst, hmode, Nat.zero_ne_one, if_false]
  rfl

theorem execCsiFrameEnd_closes (hmode : s.slotGet st F.Cam.FRAME_MODE = 0) : exec (.csiFrameEnd l vc 0) s =
    .next (closeFrame st id (endLine st (s.planesOf st) s)) := by
  refine (congrArg Host.Outcome.next (withHeader_good hl hon _)).trans ?_
  simp only [hst, hmode, Nat.zero_ne_one, if_false]

theorem execCsiLineStart_brackets (hlay : s.slotGet st F.Cam.LAYOUT = 1) (hlsle : s.slotGet st F.Cam.LSLE = 1) :
    exec (.csiLineStart l vc 0) s = .next ((endLine st 3 s).updSlot st (fun x => { x with lsOpen := true })) := by
  refine (congrArg Host.Outcome.next (withHeader_good hl hon _)).trans ?_
  simp only [hst, hlay, hlsle, and_self, if_true]

theorem execCsiLineEnd_brackets (hlay : s.slotGet st F.Cam.LAYOUT = 1) (hlsle : s.slotGet st F.Cam.LSLE = 1) :
    exec (.csiLineEnd l vc 0) s = .next ((endLine st 3 s).updSlot st (fun x => { x with lsOpen := false })) := by
  refine (congrArg Host.Outcome.next (withHeader_good hl hon _)).trans ?_
  simp only [hst, hlay, hlsle, and_self, if_true]

end

/-- With no line in assembly and no frame open, a frame that starts changes its slot alone (R338). -/
theorem frameStart_idle {s : State} {st : Nat} (hline : (s.slotX st).line = none) (hframe : (s.slotX st).frame = none)
    (change : FrameX → FrameX) (num : Nat) :
    let t := openFrame st num (closeFrame st change (lineCut st s))
    t.slotX st = { s.slotX st with
      misaligned := false, lsOpen := false, ser := (s.slotX st).ser + 1,
      frame := some { ser := (s.slotX st).ser, sensor := low 16 num } } ∧ t = { s with cam := t.cam } := by
  intro t
  have hcut : lineCut st s = s.updSlot st (fun x => { x with misaligned := false, lsOpen := false }) := by
    rw [lineCut, endLine_none _ _ _ hline]
  have ht : t = openFrame st num (lineCut st s) := congrArg (openFrame st num)
    (closeFrame_eq_self (by rw [hcut, State.slotX_updSlot]; exact hframe) change)
  rw [ht, hcut]
  exact ⟨by rw [openFrame_slotX, State.slotX_updSlot], rfl⟩

/-- A LINE_START or LINE_END shows in the slot, and with no line in assembly it does nothing else (R335). -/
theorem lineBracket_facts (st planes : Nat) (b : Bool) (s : State) :
    let t := (endLine st planes s).updSlot st (fun x => { x with lsOpen := b })
    (t.slotX st).lsOpen = b ∧ ((s.slotX st).line = none → t = s.updSlot st (fun x => { x with lsOpen := b })) := by
  intro t
  exact ⟨congrArg CamSlot.lsOpen (State.slotX_updSlot _ _ _),
    fun h => congrArg (State.updSlot · st (fun x => { x with lsOpen := b })) (endLine_none st planes s h)⟩

/-! ### The PHY and silence -/

theorem execPhyError_on {s : State} {l : Nat} (hl : l < 2) (hon : s.linkOn l = true) (kind lanes : Nat) :
    exec (.phyError l kind lanes) s = .next ((s.sat F.Cam.PHY_ERRORS (pgCam l)).raise Ev.camPhyError (pgCam l)
      (arg64 ((s.sat F.Cam.PHY_ERRORS (pgCam l)).get F.Cam.PHY_ERRORS (pgCam l)) (low 4 kind * 16 + low 4 lanes))) :=
  congrArg Host.Outcome.next (if_pos ⟨hl, hon⟩)

theorem execLinkSilent_due {s : State} {l : Nat} (hl : l < 2) (hon : s.linkOn l = true)
    (hslot : (streamsOf l).any s.slotOn = true) (hsil : s.on F.Cam.SILENT (pgCam l) = false)
    (hdue : (s.linkX l).lastLong + 200000000 ≤ s.now) : exec (.linkSilent l) s =
      .next ((s.set F.Cam.SILENT (pgCam l) 1).raise Ev.camLinkSilent (pgCam l)
        (arg64 (s.get F.Cam.LINK_FRAME (pgCam l)) 0)) :=
  congrArg Host.Outcome.next (if_pos ⟨hl, hon, hslot, hsil, hdue⟩)

/-- Settles O28, packet by packet: `withHeader_good`, `withHeader_corrected` and `withHeader_bad` say what a header does. -/
theorem cameraPackets : Obligations.CameraPackets := by
  unfold Obligations.CameraPackets
  intro s l hl hon
  have hp := pgCam_link_ne hl
  refine ⟨?corrected, fun vc dt num bad payload ecc hecc hoff => ?dropped, fun vc dt bad payload h18 hno => ?unknown,
    fun vc dt bad payload st hst hdt => ?accepted, fun vc num st hst hmode => ⟨?opens, ?closes⟩,
    fun vc st hst hlay hlsle => ⟨?lineStart, ?lineEnd⟩, fun kind lanes => ?phy, fun hslot hsil hdue => ?silent⟩
  case corrected =>
    rintro vc dt num bad payload _ rfl
    have counted := fun k => congrArg (Host.Outcome.next : State → Out) (withHeader_corrected hl hon k)
    exact ⟨counted _, counted _, counted _, counted _, counted _⟩
  case dropped =>
    have drop := fun k => congrArg (Host.Outcome.next : State → Out) ((withHeader_bad hl hon hecc k).trans (headerDrop_idle hoff))
    exact ⟨_, drop _, drop _, drop _, drop _, drop _,
      set_raise_facts hp Ev.camHeaderDrop (by decide) _ _ s (f := F.Cam.ECC_DROPPED) (by decide) (by decide) (by decide)⟩
  case unknown =>
    exact ⟨_, congrArg Host.Outcome.next ((withHeader_good hl hon _).trans (longPacket_unknown h18 hno bad payload)),
      set_raise_facts hp Ev.camPacketUnknown (by decide) _ _ s (f := F.Cam.UNKNOWN_PACKETS) (by decide) (by decide) (by decide)⟩
  case accepted =>
    refine ⟨_, congrArg Host.Outcome.next ((withHeader_good hl hon _).trans (longPacket_accepted hst hdt bad payload)),
      packetTaken_silent hl _ bad s, congrArg LinkX.lastLong (packetTaken_linkX l _ bad s), packetTaken_cam l _ bad s, ?_⟩
    rintro rfl
    exact packetTaken_crcError hl _ s
  case opens =>
    exact ⟨_, execCsiFrameStart_opens hl hon hst hmode num, openFrame_new st num _,
      fun hline hframe => frameStart_idle hline hframe _ num⟩
  case closes => exact ⟨_, execCsiFrameEnd_closes hl hon hst hmode, closeFrame_none st id _⟩
  case lineStart => exact ⟨_, execCsiLineStart_brackets hl hon hst hlay hlsle, lineBracket_facts st 3 true s⟩
  case lineEnd => exact ⟨_, execCsiLineEnd_brackets hl hon hst hlay hlsle, lineBracket_facts st 3 false s⟩
  case phy =>
    exact ⟨_, execPhyError_on hl hon kind lanes,
      set_raise_facts hp Ev.camPhyError (by decide) _ _ s (f := F.Cam.PHY_ERRORS) (by decide) (by decide) (by decide)⟩
  case silent =>
    obtain ⟨hset, hevent, hrest⟩ := set_raise_facts hp Ev.camLinkSilent (by decide) 1
      (arg64 (s.get F.Cam.LINK_FRAME (pgCam l)) 0) s (f := F.Cam.SILENT) (by decide) (by decide) (by decide)
    exact ⟨_, execLinkSilent_due hl hon hslot hsil hdue, by unfold State.on; rw [hset]; rfl, hevent, hrest⟩

end Sys2Proof.Machine
end

section
/-! Slots of the cameras, the parallel port, camera control and a line in the pipeline. -/

-- One declaration after another, as in the files before: the text is also checked in one piece.
set_option Elab.async false

namespace Sys2Proof.Machine

/-! ### Slots -/

section
variable {s : State} {l v st owner : Nat} (hst : streamAt l v = some st) (ho : s.passes (pgCam l) owner = true)
include hst ho

theorem execSlotEnable_passes : exec (.slotEnable l v owner) s = .next (slotEnable st s) := by
  simp only [exec, execSlotEnable, hst, gateReg_passes ho]

theorem execSlotDisable_passes : exec (.slotDisable l v owner) s = .next (slotDisable st s) := by
  simp only [exec, execSlotDisable, hst, gateReg_passes ho]

end

/-- A slot whose EN was stored, with nothing in assembly and nothing open (R326, R343). -/
def slotSwitched (st v : Nat) (s : State) : State :=
  (s.setI F.Cam.SLOT_CFG_EN (pgCam (linkOf st)) (slotOf st) v).updSlot st (fun x => { ser := x.ser })

theorem slotSwitched_slotOn (st : Nat) (b : Bool) (s : State) : (slotSwitched st (bit b) s).slotOn st = b := by
  unfold slotSwitched State.slotOn State.slotGet
  rw [State.getI_updSlot, State.getI_setI_self]
  cases b <;> rfl

theorem slotSwitched_slotX_self (st v : Nat) (s : State) : (slotSwitched st v s).slotX st = { ser := (s.slotX st).ser } :=
  State.slotX_updSlot _ _ _

theorem slotSwitched_slotX_ne {st k : Nat} (h : k ≠ st) (v : Nat) (s : State) : (slotSwitched st v s).slotX k = s.slotX k :=
  State.slotX_updSlot_ne _ _ h

/-- The first slot that a link enables starts the time in which it may be silent (R331). -/
def silenceFrom (l : Nat) (s : State) : State :=
  if (streamsOf l).any s.slotOn then s else s.updLink l (fun x => { x with lastLong := s.now })

theorem silenceFrom_eq (l : Nat) (s : State) : silenceFrom l s = { s with link := (silenceFrom l s).link } := by
  unfold silenceFrom; split <;> rfl

theorem slotEnable_on {s : State} {st : Nat} (h : s.slotOn st = true) : slotEnable st s = s := if_pos h

section
variable {s : State} {st : Nat} (hoff : s.slotOn st = false)
include hoff

theorem slotEnable_valid (h : s.streamReason st = 0) : slotEnable st s = slotSwitched st 1 (silenceFrom (linkOf st) s) := by
  simp only [slotEnable, hoff, h, Bool.false_eq_true, ne_eq, not_true, if_false]
  rfl

theorem slotEnable_invalid (h : s.streamReason st ≠ 0) :
    slotEnable st s = s.raise Ev.camConfigInvalid pgPipe (s.streamReason st * 16 + st) := by
  simp only [slotEnable, hoff, Bool.false_eq_true, if_false, if_pos h]

theorem slotDisable_off : slotDisable st s = s := if_neg (by simp [hoff])

end

/-- Enabling a slot changes its record, its EN and its link alone (R326). -/
theorem slotEnabled_facts (st : Nat) (s : State) :
    let t := slotSwitched st 1 (silenceFrom (linkOf st) s)
    t.slotOn st = true ∧ t.slotX st = { ser := (s.slotX st).ser } ∧ (∀ k ≠ st, t.slotX k = s.slotX k) ∧
      t = { s with regs := t.regs, cam := t.cam, link := t.link } ∧
      s.RegsBut t [F.Cam.SLOT_CFG_EN.key (pgCam (linkOf st)) (slotOf st)] := by
  intro t
  have hrest := silenceFrom_eq (linkOf st) s
  have hslot : ∀ k, (silenceFrom (linkOf st) s).slotX k = s.slotX k := State.slotX_congr (by rw [hrest])
  refine ⟨slotSwitched_slotOn st true _, ?_, fun k hk => (slotSwitched_slotX_ne hk _ _).trans (hslot k), ?_, ?_⟩
  · rw [slotSwitched_slotX_self, hslot]
  · unfold t; rw [hrest]; rfl
  · unfold t; rw [hrest]
    exact (State.onlyRegs_setI { s with link := (silenceFrom (linkOf st) s).link } F.Cam.SLOT_CFG_EN _ _ 1).2

/-- Disabling a slot ends with its EN stored as 0 and nothing open, whatever its frames were (R343). -/
theorem slotDisable_on {s : State} {st : Nat} (h : s.slotOn st = true) : ∃ u, slotDisable st s = slotSwitched st 0 u :=
  ⟨_, if_pos h⟩

/-! ### The parallel port -/

theorem execParFrameStart_edge {s : State} {level : Bool} (hon : s.streamOn 8 = true)
    (hpol : level ≠ (s.parCfg F.Par.VSYNC_POL == 1)) (hmode : s.slotGet 8 F.Cam.FRAME_MODE = 0) :
    exec (.parFrameStart level) s = .next (openFrame 8 0 (closeFrame 8 id s)) := by
  refine congrArg Host.Outcome.next ((if_pos ⟨hon, hpol⟩).trans (if_neg ?_))
  rw [hmode]
  decide

theorem execParLine_active {s : State} {level : Bool} (hon : s.streamOn 8 = true) (hsync : s.parCfg F.Par.SYNC_MODE = 0)
    (hpol : level ≠ (s.parCfg F.Par.DE_POL == 1)) (hlay : s.parCfg F.Par.LAYOUT = 0) (data : List Nat) :
    exec (.parLine level data) s = .next (endLine 8 1 (addPlane 8 1 (s.parCfg F.Par.BITS)
      (data.map (low (s.parCfg F.Par.BITS))) (startLine 8 s))) := by
  simp only [exec, execParLine, hsync, hlay, Nat.zero_ne_one, if_false, if_pos (And.intro hon hpol)]
  rfl

/-! ### Direct operations of camera control -/

section
variable {s : State} {l owner : Nat} (hl : l < 3) (ho : s.passes (pgCam l) owner = true)
include hl ho

theorem execCciDirectWrite_passes : exec (.cciDirectWrite l owner) s = .next (cciDirect l false s) :=
  congrArg Host.Outcome.next ((if_pos hl).trans (gateReg_passes ho _ _ _))

theorem execCciDirectRead_passes : exec (.cciDirectRead l owner) s = .next (cciDirect l true s) :=
  congrArg Host.Outcome.next ((if_pos hl).trans (gateReg_passes ho _ _ _))

end

theorem cciDirect_busy {s : State} {l : Nat} (h : s.on F.Cam.CCI_STATUS_BUSY (pgCam l) = true) (rd : Bool) :
    cciDirect l rd s = s := if_pos h

/-- What the end of a direct operation shows (Table 10-7). -/
def cciShown (l : Nat) (nack rd : Bool) (dev reg data : Nat) (s : State) : State :=
  let s1 := if nack then cciNack l dev reg 0x3F s else if rd then s.set F.Cam.READ_DATA (pgCam l) data else s
  ((s1.set F.Cam.NACK (pgCam l) (bit nack)).set F.Cam.DONE (pgCam l) 1).set F.Cam.CCI_STATUS_BUSY (pgCam l) 0

/-- A link whose CCI master has no transaction on the balls. -/
def cciFreed (l : Nat) (s : State) : State := s.updLink l (fun x => { x with run := 0 })

theorem cciFreed_linkX (l : Nat) (s : State) : (cciFreed l s).linkX l = { s.linkX l with run := 0 } := State.linkX_updLink _ _ _

theorem execCciTransactionEnd_direct {s : State} {l : Nat} (hl : l < 3) (hrun : (s.linkX l).run = 2) {rd : Bool}
    {op : Nat × Nat × Nat} (hop : (s.linkX l).direct = some (rd, op)) (nack : Bool) (data : Nat) :
    exec (.cciTransactionEnd l nack data) s = .next (cciGo l (cciFreed l
      ((cciShown l nack rd op.1 op.2.1 data s).updLink l (fun x => { x with direct := none })))) := by
  obtain ⟨dev, reg, value⟩ := op
  simp only [exec, execCciTransactionEnd, if_neg (Nat.not_le.mpr hl), hrun, hop]
  rfl

theorem cciShown_facts (l : Nat) (nack rd : Bool) (dev reg data : Nat) (s : State) :
    let t := cciShown l nack rd dev reg data s
    t.get F.Cam.DONE (pgCam l) = 1 ∧ t.get F.Cam.NACK (pgCam l) = low 1 (bit nack) ∧
      t.on F.Cam.CCI_STATUS_BUSY (pgCam l) = false ∧ (rd = true → nack = false → t.get F.Cam.READ_DATA (pgCam l) = low 8 data) := by
  intro t
  refine ⟨?_, ?_, ?_, ?_⟩
  · unfold t cciShown
    rw [State.get_set_off _ (by decide), State.get_set_self]; rfl
  · unfold t cciShown
    rw [State.get_set_off _ (by decide), State.get_set_off _ (by decide), State.get_set_self]; rfl
  · unfold t cciShown State.on
    rw [State.get_set_self]; rfl
  · rintro rfl rfl
    unfold t cciShown
    rw [State.get_set_off _ (by decide), State.get_set_off _ (by decide), State.get_set_off _ (by decide)]
    exact State.get_set_self _ _ _ _

/-- The CCI master that takes its next transaction leaves alone what a direct operation shows. -/
theorem cciGo_keep (l : Nat) (s : State) :
    (cciGo l s).get F.Cam.CCI_STATUS_BUSY (pgCam l) = s.get F.Cam.CCI_STATUS_BUSY (pgCam l) ∧
      (cciGo l s).get F.Cam.DONE (pgCam l) = s.get F.Cam.DONE (pgCam l) ∧
      (cciGo l s).get F.Cam.NACK (pgCam l) = s.get F.Cam.NACK (pgCam l) ∧
      (cciGo l s).get F.Cam.READ_DATA (pgCam l) = s.get F.Cam.READ_DATA (pgCam l) ∧
      ((cciGo l s).linkX l).direct = (s.linkX l).direct := cciNext_keep l _ s

/-! ### Transactions of an exposure sequence -/

/-- A sequence whose present write was taken, where it is that of frame `f` (R353). -/
def expWritten (f : Nat) (y : ExpSeq) : ExpSeq := if y.f = f then { y with left := y.left.drop 1 } else y

/-- A sequence that has no write left, where it is that of frame `f` (R353). -/
def expEnded (f : Nat) (y : ExpSeq) : ExpSeq := if y.f = f then { y with left := [] } else y

theorem expEnded_left {f : Nat} {y : ExpSeq} (h : (expEnded f y).f = f) : (expEnded f y).left = [] := by
  unfold expEnded at h ⊢
  split
  next => rfl
  next hne => rw [if_neg hne] at h; exact absurd h hne

/-- A link whose sequences changed, with no transaction on the balls. -/
def expsChanged (l : Nat) (g : ExpSeq → ExpSeq) (s : State) : State :=
  cciFreed l (s.updLink l (fun x => { x with exps := x.exps.map g }))

theorem expsChanged_linkX (l : Nat) (g : ExpSeq → ExpSeq) (s : State) :
    (expsChanged l g s).linkX l = { s.linkX l with run := 0, exps := (s.linkX l).exps.map g } := by
  rw [expsChanged, cciFreed_linkX, State.linkX_updLink]

section
variable {s : State} {l : Nat} (hl : l < 3) (hrun : (s.linkX l).run = 1) {e : ExpSeq} {rest : List ExpSeq}
  (hexps : (s.linkX l).exps = e :: rest)
include hl hrun hexps

theorem execCciTransactionEnd_acked (data : Nat) :
    exec (.cciTransactionEnd l false data) s = .next (cciGo l (expsChanged l (expWritten e.f) s)) := by
  simp only [exec, execCciTransactionEnd, if_neg (Nat.not_le.mpr hl), hrun, hexps]
  rfl

theorem execCciTransactionEnd_nacked (data : Nat) : ∃ v,
    exec (.cciTransactionEnd l true data) s = .next (cciGo l (expsChanged l (expEnded e.f) v)) := by
  simp only [exec, execCciTransactionEnd, if_neg (Nat.not_le.mpr hl), hrun, hexps]
  exact ⟨_, rfl⟩

end

/-! ### A line in the pipeline -/

/-- The pages on which a capture tap may change registers: its own, and those of the SDRAM and of the Ledger. -/
def tapPages : List Nat := pgTap :: memPages

/-- What taps change: not the slots, not the pipeline, and no page but theirs. -/
def State.TapOnly (s t : State) : Prop := t.cam = s.cam ∧ t.pipe = s.pipe ∧ s.OnPages t tapPages

theorem tapWrite_only {t : Nat} (ht : t < 6) (full : Bool) (r : List Byte) (s : State) : s.TapOnly (tapWrite t full r s) := by
  have place : ∀ i < 6, F.Tap.TAP_DROPPED.off + i * F.Tap.TAP_DROPPED.stride < 4096 ∧
      F.Tap.TAP_WR.off + i * F.Tap.TAP_WR.stride < 4096 ∧ F.Tap.TAP_LINES.off + i * F.Tap.TAP_LINES.stride < 4096 := by decide
  obtain ⟨hdropped, hwr, hlines⟩ := place t ht
  unfold tapWrite
  extract_lets size s1 wr a s2
  split
  · refine ⟨State.raise_cam _ _ _ _, State.raise_pipe _ _ _ _, State.OnPages.raise ?_ _ _ (by decide) (by decide) (by decide)⟩
    exact (State.OnPages.refl s _).setI _ (by decide) hdropped (by decide)
  · have hmem : s.MemOnly s2 := memOnly_sdramWrite _ _ _ (State.MemOnly.refl s)
    have hpages : s.OnPages s2 tapPages := State.OnPages.mono hmem.2 fun _ hp => List.mem_cons_of_mem _ hp
    exact ⟨hmem.cam, hmem.pipe,
      (hpages.setI _ (by decide) hwr (by decide)).setI _ (by decide) hlines (by decide)⟩

/-- The taps that record a line take its records (R349, R350). -/
def lineTapped (st full : Nat) (y : CamLine) (p : PipeLine) (xs : List (Nat × Option (Nat × Nat × Nat))) (s : State) : State :=
  forAll (List.range 6) s (fun t s =>
    if s.tapTakes t st (y.ser.getD 0) then
      match tapRecord st (s.getI F.Tap.POINT pgTap t) y p xs with
      | some r => tapWrite t (bitAt full t) r s
      | none => s
    else s)

theorem lineTapped_only (st full : Nat) (y : CamLine) (p : PipeLine) (xs : List (Nat × Option (Nat × Nat × Nat))) (s : State) :
    s.TapOnly (lineTapped st full y p xs s) := by
  refine forAll_over _ s _ (fun t => s.TapOnly t) ⟨rfl, rfl, State.OnPages.refl s _⟩ fun t ht u hu => ?_
  split
  · split
    · obtain ⟨hcam, hpipe, hpages⟩ := hu
      obtain ⟨hcam', hpipe', hpages'⟩ := tapWrite_only (List.mem_range.mp ht) (bitAt full t) ‹_› u
      exact ⟨hcam'.trans hcam, hpipe'.trans hpipe, hpages.trans hpages'⟩
    · exact hu
  · exact hu

/-- A stream whose oldest buffered line has left the buffer, counted in its frame (R344, R351). -/
def lineLeft (st : Nat) (y : CamLine) (rest : List CamLine) (c : PipeIn) (s : State) : State :=
  updFrame st (y.ser.getD 0) (fun f => f.processed (c.cfg F.Pipe.XFORM_EN == 1) (c.run y.planes))
    ((s.updSlot st (fun x => { x with ready := rest })).wrapI F.Pipe.STREAM_LINES pgPipe st 1)

theorem lineLeft_ready (st : Nat) (y : CamLine) (rest : List CamLine) (c : PipeIn) (s : State) :
    ((lineLeft st y rest c s).slotX st).ready = rest := by
  unfold lineLeft updFrame
  rw [State.slotX_updSlot, State.wrapI, State.slotX_setI, State.slotX_updSlot]

theorem lineLeft_counts (st : Nat) (y : CamLine) (rest : List CamLine) (c : PipeIn) (s : State) :
    (lineLeft st y rest c s).getI F.Pipe.STREAM_LINES pgPipe st = low 32 (s.getI F.Pipe.STREAM_LINES pgPipe st + 1) := by
  unfold lineLeft updFrame
  rw [State.getI_updSlot, State.wrapI, State.getI_setI_self]
  rfl

/-- The mapped grid units of a line, none where MAP_EN is 0 (R347). -/
def mappedUnits (c : PipeIn) (y : CamLine) : List (Nat × Option (Nat × Nat × Nat)) :=
  if c.cfg F.Pipe.MAP_EN = 1 then c.mapped (c.run y.planes).absorb else []

/-- A line that has passed every stage of the pipeline: its mapped grid units go on with MAP_EN 1 (R344 to R350). -/
def linePiped (st full : Nat) (y : CamLine) (rest : List CamLine) (c : PipeIn) (s : State) : State :=
  let t := lineTapped st full y (c.run y.planes) (mappedUnits c y) (lineLeft st y rest c s)
  if c.cfg F.Pipe.MAP_EN = 1 then
    t.updPipe (fun p => { p with mapped := p.mapped ++ [⟨st, y.n, y.exp, y.unsure, y.flags, y.tag, mappedUnits c y⟩] })
  else t

theorem execPipelineLine_on {s : State} {st : Nat} (hst : st < 9) (hon : s.on F.Hdr.ENABLE pgPipe = true)
    (ue : Option (Nat × Bool)) (full : Nat) : exec (.pipelineLine st ue full) s = .next (pipelineLine st ue full s) :=
  congrArg Host.Outcome.next (if_pos ⟨hst, hon⟩)

theorem pipelineLine_empty {s : State} {st : Nat} (h : (s.slotX st).ready = []) (ue : Option (Nat × Bool)) (full : Nat) :
    pipelineLine st ue full s = s := by
  unfold pipelineLine; rw [h]

/-- A buffered line that meets no uncorrectable entry (R346). -/
theorem pipelineLine_passes {s : State} {st : Nat} {y : CamLine} {rest : List CamLine} (h : (s.slotX st).ready = y :: rest)
    (full : Nat) : pipelineLine st none full s =
      pipePrune (settle st (linePiped st full y rest ⟨s.pipeAs y.set, st, none, none⟩ s)) := by
  unfold pipelineLine; rw [h]
  rfl

theorem linePiped_facts {st : Nat} (hst : st < 9) (full : Nat) (y : CamLine) (rest : List CamLine) (c : PipeIn) (s : State) :
    let u := linePiped st full y rest c s
    (u.slotX st).ready = rest ∧
      u.getI F.Pipe.STREAM_LINES pgPipe st = low 32 (s.getI F.Pipe.STREAM_LINES pgPipe st + 1) ∧
      (c.cfg F.Pipe.MAP_EN = 1 → u.pipe.mapped =
        s.pipe.mapped ++ [⟨st, y.n, y.exp, y.unsure, y.flags, y.tag, c.mapped (c.run y.planes).absorb⟩]) := by
  intro u
  have place : ∀ i < 9, F.Pipe.STREAM_LINES.off + i * F.Pipe.STREAM_LINES.stride < 4096 := by decide
  unfold u linePiped
  extract_lets t
  obtain ⟨hcam, hpipe, hpages⟩ : (lineLeft st y rest c s).TapOnly t := lineTapped_only _ _ _ _ _ _
  have ready : (t.slotX st).ready = rest := by rw [State.slotX_congr hcam, lineLeft_ready]
  have counts : t.getI F.Pipe.STREAM_LINES pgPipe st = low 32 (s.getI F.Pipe.STREAM_LINES pgPipe st + 1) := by
    rw [hpages.getI (by decide) (place st hst) (by decide), lineLeft_counts]
  have mapped : t.pipe.mapped = s.pipe.mapped := congrArg PipeX.mapped hpipe
  clear_value t
  split
  next hmap =>
    refine ⟨ready, counts, fun _ => ?_⟩
    have units : c.mapped (c.run y.planes).absorb = mappedUnits c y := (if_pos hmap).symm
    rw [units, ← mapped]
    rfl
  next hmap => exact ⟨ready, counts, fun h => absurd h hmap⟩

/-- Settles O29, command by command. -/
theorem cameraSlotsAndControl : Obligations.CameraSlotsAndControl := by
  unfold Obligations.CameraSlotsAndControl
  intro s
  refine ⟨fun l v st owner hst ho => ⟨fun hon => ⟨?again, ?disable⟩, fun hoff => ⟨?still, fun h => ?enable, fun h => ?invalid⟩⟩,
    fun level hon hpol hmode => ?vsync, fun level data hon hsync hpol hlay => ?line,
    fun l owner hl ho => ⟨fun hbusy => ⟨?writeBusy, ?readBusy⟩, ?direct⟩,
    fun l nack data hl => ⟨fun rd op hrun hop => ?ended, fun e rest hrun hexps => ?sequence⟩,
    fun st full hst hon => ⟨fun h => ?empty, ?passes⟩⟩
  case again => rw [execSlotEnable_passes hst ho, slotEnable_on hon]
  case disable =>
    obtain ⟨u, hu⟩ := slotDisable_on hon
    refine ⟨_, (execSlotDisable_passes hst ho).trans (congrArg _ hu), slotSwitched_slotOn st false u, ?_⟩
    rw [slotSwitched_slotX_self]
  case still => rw [execSlotDisable_passes hst ho, slotDisable_off hoff]
  case enable =>
    exact ⟨_, (execSlotEnable_passes hst ho).trans (congrArg _ (slotEnable_valid hoff h)), slotEnabled_facts st s⟩
  case invalid =>
    exact ⟨_, (execSlotEnable_passes hst ho).trans (congrArg _ (slotEnable_invalid hoff h)),
      State.raise_bit _ _ _ (by decide) (by decide), s.onlyEvents_raise _ _ (by decide)⟩
  case vsync => exact ⟨_, execParFrameStart_edge hon hpol hmode, openFrame_new 8 0 _⟩
  case line => exact ⟨_, execParLine_active hon hsync hpol hlay data, endLine_line 8 1 _, rfl⟩
  case writeBusy => rw [execCciDirectWrite_passes hl ho, cciDirect_busy hbusy]
  case readBusy => rw [execCciDirectRead_passes hl ho, cciDirect_busy hbusy]
  case direct =>
    rintro hfree _ rfl
    rw [execCciDirectWrite_passes hl ho, execCciDirectRead_passes hl ho]
    obtain ⟨_, rfl, hwrite⟩ := cciDirect_facts l false s hfree
    obtain ⟨_, rfl, hread⟩ := cciDirect_facts l true s hfree
    exact ⟨⟨_, rfl, hwrite⟩, _, rfl, hread⟩
  case ended =>
    obtain ⟨hdone, hnack, hbusy, hdata⟩ := cciShown_facts l nack rd op.1 op.2.1 data s
    refine ⟨_, execCciTransactionEnd_direct hl hrun hop nack data, ?_⟩
    obtain ⟨kbusy, kdone, knack, kdata, kdirect⟩ := cciGo_keep l (cciFreed l
      ((cciShown l nack rd op.1 op.2.1 data s).updLink l (fun x => { x with direct := none })))
    refine ⟨kdone.trans hdone, knack.trans hnack, (congrArg (· == 1) kbusy).trans hbusy, kdirect.trans ?_,
      fun hrd hn => kdata.trans (hdata hrd hn)⟩
    rw [cciFreed_linkX, State.linkX_updLink]
  case sequence =>
    cases nack with
    | false =>
      refine ⟨_, execCciTransactionEnd_acked hl hrun hexps data, ?_, fun _ => ?_, nofun⟩ <;> rw [expsChanged_linkX]
      rw [hexps]; rfl
    | true =>
      obtain ⟨v, hv⟩ := execCciTransactionEnd_nacked hl hrun hexps data
      refine ⟨_, hv, ?_, nofun, fun _ => ?_⟩ <;> rw [expsChanged_linkX]
      intro y hy hf
      obtain ⟨z, -, rfl⟩ := List.mem_map.mp hy
      exact expEnded_left hf
  case empty => rw [execPipelineLine_on hst hon, pipelineLine_empty h]
  case passes =>
    rintro y rest _ h rfl
    exact ⟨_, (execPipelineLine_on hst hon none full).trans (congrArg _ (pipelineLine_passes h full)),
      linePiped_facts hst full y rest _ s⟩

end Sys2Proof.Machine
end

section
/-! The density tracker: mapped lines, the two phases of a solve, and what makes a port due. -/

-- One declaration after another, as in the files before: the text is also checked in one piece.
set_option Elab.async false

namespace Sys2Proof.Machine

/-! ### A mapped line that reaches the tracker -/

/-- The oldest mapped line has left the pipeline. -/
def mappedTaken (rest : List MapLine) (s : State) : State := s.updPipe (fun p => { p with mapped := rest })

section
variable {s : State} {m : MapLine} {rest : List MapLine} (hm : s.pipe.mapped = m :: rest)
include hm

theorem execTrackerLine_stopped (hoff : s.on F.Hdr.ENABLE pgTrk = false) :
    exec .trackerLine s = .next (mappedTaken rest s) := by
  simp only [exec, execTrackerLine, hm, if_pos hoff]
  rfl

theorem execTrackerLine_waits (hon : s.on F.Hdr.ENABLE pgTrk = true) (hwait : s.trackerWaits = true) :
    exec .trackerLine s = .next s := by
  simp only [exec, execTrackerLine, hm, hon, hwait, Bool.true_eq_false, if_false, if_true]

theorem execTrackerLine_tracks (hon : s.on F.Hdr.ENABLE pgTrk = true) (hgo : s.trackerWaits = false) :
    exec .trackerLine s = .next (trackLine m (mappedTaken rest s)) := by
  simp only [exec, execTrackerLine, hm, hon, hgo, Bool.true_eq_false, Bool.false_eq_true, if_false]
  rfl

end

/-- A line belongs to the window in progress, or has no tag that could end it (R366, R373). -/
def State.inTrackWindow (s : State) (m : MapLine) : Prop :=
  bitAt m.flags 3 = true ∨ ∃ w, s.trk.start = some w ∧
    sext 32 (s.camRow m.tag + 2 ^ 32 - w) < (s.get F.Dtrk.WINDOW_ROWS pgTrk : Int)

/-- The reads of the Proof row that a line is compared with; reasons 1 and 2 are found without them (Table 11-2). -/
def rowsRead (m : MapLine) (row : Nat) (s : State) : State :=
  if s.lineReason m row = 1 ∨ s.lineReason m row = 2 then s else forAll (s.rowReads row) s (fun r => sdramRead 6 r.1 r.2)

/-- A line that is not used (R367). -/
def lineSkipped (why : Nat) (s : State) : State :=
  let t := (s.sat F.Dtrk.ROWS_SKIPPED pgTrk).set F.Dtrk.LAST_SKIP pgTrk why
  t.raise Ev.dtrkRowMiss pgTrk (arg64 (t.get F.Dtrk.ROWS_SKIPPED pgTrk) why)

/-- The grid units of a line that have a value, within MAP_UNITS. -/
def State.unitsOf (s : State) (m : MapLine) : List (Nat × Nat × Nat × Nat) :=
  m.xs.filterMap (fun e => if e.1 < s.mapUnits then e.2.map (fun a => (e.1, a)) else none)

/-- A used line in the lag sums and in ROWS_MATCHED (R368, R370). -/
def lineCounted (m : MapLine) (row : Nat) (s : State) : State :=
  let sum := ((s.unitsOf m).map (fun e => e.2.1 + e.2.2.1 + e.2.2.2)).foldl (· + ·) 0
  let t := addLag row sum (s.updTrk (fun t => { t with exp := some m.exp }))
  t.set F.Dtrk.ROWS_MATCHED pgTrk (t.get F.Dtrk.ROWS_MATCHED pgTrk + 1)

/-- A used line in the regression array too (R370). -/
def lineUsed (m : MapLine) (row : Nat) (s : State) : State :=
  let t := lineCounted m row s
  forAll (s.unitsOf m) t (fun e s => addUnit row t.trkColours e.1 [e.2.1, e.2.2.1, e.2.2.2] s)

/-- A line of the window in progress starts and ends none. -/
theorem trackLine_inWindow {s : State} {m : MapLine} (h : s.inTrackWindow m) : trackLine m s =
    if s.lineReason m (s.camRow m.tag) ≠ 0 then
      lineSkipped (s.lineReason m (s.camRow m.tag)) (rowsRead m (s.camRow m.tag) s)
    else lineUsed m (s.camRow m.tag) (rowsRead m (s.camRow m.tag) s) := by
  unfold trackLine
  extract_lets +onlyGivenNames row0 tagged s0 past s1
  have hs0 : s0 = s := by
    refine if_neg ?_
    rcases h with h | ⟨w, hw, -⟩
    · simp [tagged, h]
    · simp [hw]
  have hpast : past = false := by
    unfold past
    rw [hs0]
    rcases h with h | ⟨w, hw, hlt⟩
    · simp only [tagged, h]
      split <;> rfl
    · have hin : decide ((s.get F.Dtrk.WINDOW_ROWS pgTrk : Int) ≤ sext 32 (row0 + 2 ^ 32 - w)) = false :=
        decide_eq_false (Int.not_le.mpr hlt)
      simp only [hw, hin, Bool.and_false]
  have hs1 : s1 = s := (if_neg (by rw [hpast]; decide)).trans hs0
  clear_value s1
  rw [hs1]
  rfl

section
variable {s : State} {m : MapLine} {rest : List MapLine} (hm : s.pipe.mapped = m :: rest)
  (hon : s.on F.Hdr.ENABLE pgTrk = true) (hgo : s.trackerWaits = false) (hwin : s.inTrackWindow m)
include hm hon hgo hwin

theorem execTrackerLine_skips (hwhy : (mappedTaken rest s).lineReason m (s.camRow m.tag) ≠ 0) :
    exec .trackerLine s = .next (lineSkipped ((mappedTaken rest s).lineReason m (s.camRow m.tag))
      (rowsRead m (s.camRow m.tag) (mappedTaken rest s))) := by
  have hline := (trackLine_inWindow (s := mappedTaken rest s) hwin).trans (if_pos hwhy)
  exact (execTrackerLine_tracks hm hon hgo).trans (congrArg _ hline)

theorem execTrackerLine_uses (hwhy : (mappedTaken rest s).lineReason m (s.camRow m.tag) = 0) : exec .trackerLine s =
    .next (lineUsed m (s.camRow m.tag) (rowsRead m (s.camRow m.tag) (mappedTaken rest s))) := by
  have hline := (trackLine_inWindow (s := mappedTaken rest s) hwin).trans (if_neg (not_not.mpr hwhy))
  exact (execTrackerLine_tracks hm hon hgo).trans (congrArg _ hline)

end

theorem rowsRead_memOnly (m : MapLine) (row : Nat) (s : State) : s.MemOnly (rowsRead m row s) := by
  unfold rowsRead
  split
  · exact .refl s
  · exact State.MemOnly.forAll _ _ (.refl s) fun r _ ht => memOnly_sdramRead 6 r.1 r.2 ht

theorem lineSkipped_facts (why : Nat) (s : State) :
    let t := lineSkipped why s
    t.get F.Dtrk.ROWS_SKIPPED pgTrk = low 32 (min (s.get F.Dtrk.ROWS_SKIPPED pgTrk + 1) (2 ^ 32 - 1)) ∧
      t.get F.Dtrk.LAST_SKIP pgTrk = low 4 why ∧ t.trk = s.trk ∧ t.room = s.room ∧
      bitAt (t.get F.Hdr.EVENT_STATUS pgTrk) Ev.dtrkRowMiss.bit = true ∧
      s.OnlyEvents t pgTrk [F.Dtrk.ROWS_SKIPPED.key pgTrk 0, F.Dtrk.LAST_SKIP.key pgTrk 0] := by
  obtain ⟨hcount, hlast⟩ := skip_facts s why (arg64 (((s.sat F.Dtrk.ROWS_SKIPPED pgTrk).set F.Dtrk.LAST_SKIP pgTrk why).get
    F.Dtrk.ROWS_SKIPPED pgTrk) why)
  exact ⟨hcount, hlast, State.raise_trk .., State.raise_room .., State.raise_bit _ _ _ (by decide) (by decide),
    ((s.onlyRegs_setI F.Dtrk.ROWS_SKIPPED pgTrk 0 _).setI F.Dtrk.LAST_SKIP pgTrk 0 why).events
      (State.onlyEvents_raise _ _ _ (by decide)) (by decide)⟩

/-- The regression array lies in the Reading Room, and adding to it changes nothing else (R370). -/
theorem unitsAdded_frame (row : Nat) (cs : List Nat) (xs : List (Nat × Nat × Nat × Nat)) (s : State) :
    let t := forAll xs s (fun e s => addUnit row cs e.1 [e.2.1, e.2.2.1, e.2.2.2] s)
    t = { s with room := t.room, sramErr := t.sramErr } := by
  refine forAll_inv xs s _ (fun t => t = { s with room := t.room, sramErr := t.sramErr }) rfl fun e t ht => ?_
  obtain ⟨-, -, hrest⟩ := addUnit_only row cs e.1 [e.2.1, e.2.2.1, e.2.2.2] t
  rw [hrest, ht]

theorem lineUsed_facts (m : MapLine) (row : Nat) (s : State) :
    let t := lineUsed m row s
    t.get F.Dtrk.ROWS_MATCHED pgTrk = low 32 (s.get F.Dtrk.ROWS_MATCHED pgTrk + 1) ∧ t.trk.exp = some m.exp ∧
      t = { s with regs := t.regs, trk := t.trk, room := t.room, sramErr := t.sramErr } ∧
      s.RegsBut t [F.Dtrk.ROWS_MATCHED.key pgTrk 0] := by
  intro t
  have hrest : t = { lineCounted m row s with room := t.room, sramErr := t.sramErr } := unitsAdded_frame _ _ _ _
  have hregs : t.regs = (lineCounted m row s).regs := (congrArg (fun z : State => z.regs) hrest).trans rfl
  have htrk : t.trk = (lineCounted m row s).trk := (congrArg (fun z : State => z.trk) hrest).trans rfl
  refine ⟨?_, by rw [htrk]; rfl, by rw [hrest]; rfl, ?_⟩
  · unfold State.get State.getI
    rw [hregs]
    exact State.get_set_self s F.Dtrk.ROWS_MATCHED pgTrk _
  · unfold State.RegsBut
    rw [hregs]
    exact (s.onlyRegs_setI F.Dtrk.ROWS_MATCHED pgTrk 0 _).2

/-! ### The end of phase 1 -/

/-- No solve waits for phase 2 outside STATE 2 (R382). -/
theorem phase2Check_eq_self {s : State} (h : s.trkState ≠ 2) : phase2Check s = s := by
  unfold phase2Check
  rw [if_neg (by simp [h])]

theorem memByte_tclear (m : List Host.Cell) {lo hi a : Nat} (h1 : lo ≤ a) (h2 : a < hi) : memByte (tclear m lo hi) a = 0 := by
  unfold memByte tget tclear
  rw [tfind_filter m (fun k => !(decide (lo ≤ k) && decide (k < hi))), if_neg (by simp [h1, h2])]
  rfl

/-- The arrays cleared, STATE 1 and SOLVE_TIME shown, as phase 1 leaves them (R374, R375). -/
def phase1Shown (t0 : Nat) (s : State) : State :=
  (setTrkState 1 (clearTerms { s with freeIx := s.freeIx + 1 })).set F.Dtrk.SOLVE_TIME pgTrk ((s.now - t0) / 1000)

/-- Every port with the factors that phase 1 found (R376, R377). -/
def phase1Solved (t0 : Nat) (s : State) : State :=
  forAll s.proofPorts (phase1Shown t0 s) (portSolved (s.solveUnit s.trkColours))

/-- Phase 2 starts with the ports that are due after phase 1, on the part that writes; `s` is the state before phase 1 (R378,
R496). -/
def phase2Started (s t : State) : State :=
  t.updTrk (fun x => { x with
    solveAt := none
    pend := if s.role = 0 ∨ s.role = 4 then (List.range Config.ports).filter t.due else []
    pendAt := s.now })

theorem phase2Started_facts (s t : State) :
    let u := phase2Started s t
    u.trkState = t.trkState ∧ u.trk.solveAt = none ∧ u.trk.pendAt = s.now ∧
      u.get F.Dtrk.SOLVE_TIME pgTrk = t.get F.Dtrk.SOLVE_TIME pgTrk ∧ (s.role ≠ 0 → s.role ≠ 4 → u.trk.pend = []) ∧
      u.room = t.room :=
  ⟨rfl, rfl, rfl, rfl, fun h0 h4 => if_neg (by omega), rfl⟩

theorem phase1Solved_facts (t0 : Nat) (s : State) :
    let t := phase1Solved t0 s
    t.trkState = 1 ∧ t.get F.Dtrk.SOLVE_TIME pgTrk = low 24 ((s.now - t0) / 1000) ∧
      ∀ a, regBase ≤ a → a < regBase + 8945664 → memByte t.room a = 0 := by
  intro t
  obtain ⟨hroom, hstate, htime, -⟩ := solved_keep (s.solveUnit s.trkColours) s.proofPorts (phase1Shown t0 s)
  refine ⟨hstate.trans ?_, htime.trans (State.get_set_self _ _ _ _), fun a h1 h2 => ?_⟩
  · unfold phase1Shown State.trkState setTrkState
    rw [State.get_set_off _ (by decide), State.get_set_self]
    rfl
  · unfold t phase1Solved
    rw [hroom]
    exact memByte_tclear _ h1 h2

theorem execSolvePhase1End_runs {s : State} {t0 : Nat} (hsolve : s.trk.solveAt = some t0)
    (hon : s.on F.Hdr.ENABLE pgTrk = true) (hstate : s.trkState = 2) :
    exec .solvePhase1End s = .next (phase2Check (phase2Started s (phase1Solved t0 s))) := by
  simp only [exec, execSolvePhase1End, hsolve, hon, hstate, and_self, if_true]
  rfl

/-! ### Phase 2 -/

/-- The updates of ports, one after another, and those of the ports that are accepted (R379, R380). -/
def portsUpdated (ports : List Nat) (s : State) : State × List Nat :=
  ports.foldl (fun (a : State × List Nat) p =>
    let u := portUpdate p a.1
    (u.1, if u.2 then a.2 ++ [p] else a.2)) (s, [])

/-- The pending ports of a region updated; where one is accepted, MISSING is written and a commit requested (R377, R381). -/
def regionUpdated (r : Nat) (s : State) : State :=
  let done := portsUpdated (s.trk.pend.filter (fun p => regionOf p == r)) s
  if done.2.isEmpty then done.1
  else tenderCommit r ((writeMissing r done.1).updTrk (fun t => { t with await := t.await ++ done.2 }))

/-- The ports of a region leave phase 2. -/
def pendWithout (r : Nat) (s : State) : State :=
  s.updTrk (fun t => { t with pend := t.pend.filter (fun p => regionOf p != r) })

section
variable {s : State} {r n : Nat} (hr : r < 4) (hpend : s.trk.pend.filter (fun p => regionOf p == r) ≠ [])
  (hready : s.ready (pgScr r) = true) (hruns : s.tenderRuns r = true)
include hr hpend hready hruns

/-- Nothing but the lock and the commits of its page can hold the tender core back. -/
theorem tender_due : ¬(Config.regions ≤ r ∨ (s.trk.pend.filter (fun p => regionOf p == r)).isEmpty ∨
    s.ready (pgScr r) = false ∨ s.tenderRuns r = false) := by
  simp [hready, hruns, hpend, Config.regions, hr]

variable (hbind : s.binding (pgScr r) = some n) (hbid : s.outbids n (tenderOwner r) = false)
  (hheld : s.onI F.Lock.HELD pgLocks n = true)
include hbind hbid hheld

theorem execGainUpdateWrite_denied (hother : s.holds n (tenderOwner r) = false) : exec (.gainUpdateWrite r) s = .next s := by
  simp only [exec, execGainUpdateWrite, if_neg (tender_due hr hpend hready hruns), hbind,
    lockAcquire_held hheld hbid, hother, Bool.false_and, Bool.false_eq_true, if_false]

/-- The pending ports of a region whose tender core works leave with their updates, accepted or not (R379 to R381). -/
theorem execGainUpdateWrite_writes (hmine : s.holds n (tenderOwner r) = true) (hidle : s.cstate (pgScr r) = 0)
    (hgroups : ∀ g < 8, s.groupNames g (pgScr r) = false) : exec (.gainUpdateWrite r) s =
      .next (phase2Check (pendWithout r (tenderRelease r (regionUpdated r s)))) := by
  have hquiet : (List.range 8).all (fun g => !s.groupNames g (pgScr r) || s.gstate g == 0) = true := by
    rw [List.all_eq_true]
    intro g hg
    rw [hgroups g (List.mem_range.mp hg)]
    rfl
  simp only [exec, execGainUpdateWrite, if_neg (tender_due hr hpend hready hruns), hbind,
    lockAcquire_held hheld hbid, hmine, hidle, hquiet, Bool.and_true, beq_self_eq_true, if_true]
  rfl

end

theorem phase2Check_pendWithout (r : Nat) (s : State) :
    (phase2Check (pendWithout r s)).trk.pend = s.trk.pend.filter (fun p => regionOf p != r) := phase2_pend _

/-- The ports of a region dropped from phase 2, each with its event (R381). -/
def regionDeferred (r : Nat) (s : State) : State :=
  forAll (s.trk.pend.filter (fun p => regionOf p == r)) s (deferred · 1)

theorem execUpdateLockTimeout_due {s : State} {r : Nat} (hr : r < 4)
    (hpend : s.trk.pend.filter (fun p => regionOf p == r) ≠ [])
    (hfree : ∀ n, s.binding (pgScr r) = some n → s.holds n (tenderOwner r) = false)
    (hlate : s.trk.pendAt + 100000000 ≤ s.now) :
    exec (.updateLockTimeout r) s = .next (phase2Check (pendWithout r (regionDeferred r s))) := by
  refine congrArg Host.Outcome.next (if_pos ⟨hr, hpend, ?_, hlate⟩)
  split
  next n hn => exact hfree n hn
  next => rfl

theorem regionDeferred_trk (r : Nat) (s : State) : (regionDeferred r s).trk = s.trk :=
  forAll_keeps _ s _ State.trk fun _ _ => State.raise_trk ..

theorem deferred_event (p why : Nat) (s : State) :
    bitAt ((deferred p why s).get F.Hdr.EVENT_STATUS pgTrk) Ev.dtrkUpdateDeferred.bit = true :=
  State.raise_bit _ _ _ (by decide) (by decide)

theorem regionDeferred_event {r : Nat} {s : State} (h : s.trk.pend.filter (fun p => regionOf p == r) ≠ []) :
    bitAt ((regionDeferred r s).get F.Hdr.EVENT_STATUS pgTrk) Ev.dtrkUpdateDeferred.bit = true := by
  obtain ⟨p, hp⟩ := List.exists_mem_of_ne_nil _ h
  exact forAll_est _ s _ (fun t => bitAt (t.get F.Hdr.EVENT_STATUS pgTrk) Ev.dtrkUpdateDeferred.bit = true) p hp
    (deferred_event p 1) fun q _ t _ => deferred_event q 1 t

/-! ### Ports that become due -/

theorem updateReq_frame (first mask n : Nat) (s : State) :
    updateReq first mask n s = { s with trk := (updateReq first mask n s).trk } :=
  forAll_inv _ s _ (fun t => t = { s with trk := t.trk }) rfl fun i t ht => by rw [ht]; rfl

theorem updateReq_named (first : Nat) {mask n i : Nat} (hi : i < n) (hbit : bitAt mask i = true) (s : State) :
    ((updateReq first mask n s).trkPort (first + i)).req = true :=
  forAll_mem_req _ first i (List.mem_filter.mpr ⟨List.mem_range.mpr hi, hbit⟩) s

theorem updTrkPort_trkPort (s : State) (p q : Nat) (f : TrkPort → TrkPort) :
    (s.updTrkPort p f).trkPort q = if q = p then f (s.trkPort p) else s.trkPort q := by
  split
  next h => rw [h, trkPort_upd]
  next h => exact trkPort_upd_ne s f h

/-- A port that is not due by request afterwards has not been named, and is as it was. -/
theorem updateReq_others (first mask n : Nat) (s : State) :
    ∀ p, ((updateReq first mask n s).trkPort p).req = false → (updateReq first mask n s).trkPort p = s.trkPort p := by
  refine forAll_inv _ s _ (fun t => ∀ p, (t.trkPort p).req = false → t.trkPort p = s.trkPort p) (fun _ _ => rfl)
    fun i t ht p hp => ?_
  rw [updTrkPort_trkPort] at hp ⊢
  split at hp
  next => cases hp
  next hne => rw [if_neg hne]; exact ht p hp

theorem execUpdateReq_passes {s : State} {owner : Nat} (ho : s.passes pgTrk owner = true) (hi : Bool) (mask : Nat) :
    exec (.updateReq hi mask owner) s = .next (updateReq (if hi then 32 else 0) mask (if hi then 16 else 32) s) :=
  congrArg Host.Outcome.next (gateReg_passes ho _ _ _)

theorem execUpdateIntervalExpiry_due {s : State} {p : Nat} (hp : p < 48) (hon : s.on F.Hdr.ENABLE pgTrk = true)
    (hdue : max ((s.trkPort p).accepted.getD 0) s.trk.enabledAt + s.get F.Dtrk.MAX_INTERVAL pgTrk * 1000000000 ≤ s.now) :
    exec (.updateIntervalExpiry p) s = .next (s.updTrkPort p (fun x => { x with req := true })) :=
  congrArg Host.Outcome.next (if_pos ⟨hp, hon, hdue⟩)

/-- Settles O30, command by command: what a line does follows from its reason, and phase 2 from what the lock allows. The place
of the array, the order of reasons, the one lock session of a region and the whole reads of a line are choices of the model (logs
72, 73, 75 and 79). -/
theorem densityTracker : Obligations.DensityTracker := by
  unfold Obligations.DensityTracker
  intro s
  refine ⟨fun m rest u hm hu => ⟨fun hoff => ?stopped, execTrackerLine_waits hm,
      fun row hon hgo hrow hwin v hv => ⟨?skips, ?uses⟩⟩,
    fun t0 hsolve hon hstate => ?phase1,
    fun r n hr hpend hready hruns hbind hbid => ⟨execGainUpdateWrite_denied hr hpend hready hruns hbind hbid,
      fun hmine hidle hgroups hheld => ?phase2⟩,
    fun r hr hpend hfree hlate => ?timeout, fun hi mask owner ho => ?request, fun p hp hon hdue => ?interval⟩
  case stopped => rw [execTrackerLine_stopped hm hoff, hu]; rfl
  case skips =>
    subst hu hrow hv
    intro hwhy
    have hreads := rowsRead_memOnly m (s.camRow m.tag) (mappedTaken rest s)
    obtain ⟨hcount, hlast, htrk, hroom, hevent, honly⟩ := lineSkipped_facts
      ((mappedTaken rest s).lineReason m (s.camRow m.tag)) (rowsRead m (s.camRow m.tag) (mappedTaken rest s))
    rw [hreads.get (by decide) (by decide) (by decide)] at hcount
    refine ⟨_, execTrackerLine_skips hm hon hgo hwin hwhy, hcount, hlast, htrk.trans hreads.trk, hroom.trans ?_, hevent,
      honly⟩
    rw [hreads.1]
    rfl
  case uses =>
    subst hu hrow hv
    intro hwhy
    have hreads := rowsRead_memOnly m (s.camRow m.tag) (mappedTaken rest s)
    obtain ⟨hcount, hexp, hrest, hregs⟩ := lineUsed_facts m (s.camRow m.tag)
      (rowsRead m (s.camRow m.tag) (mappedTaken rest s))
    rw [hreads.get (by decide) (by decide) (by decide)] at hcount
    exact ⟨_, execTrackerLine_uses hm hon hgo hwin hwhy, hcount, hexp, hrest, hregs⟩
  case phase1 =>
    obtain ⟨hone, htime, hclear⟩ := phase1Solved_facts t0 s
    obtain ⟨kstate, hsolved, hsince, ktime, hnone, kroom⟩ := phase2Started_facts s (phase1Solved t0 s)
    have hidle : phase2Check (phase2Started s (phase1Solved t0 s)) = phase2Started s (phase1Solved t0 s) :=
      phase2Check_eq_self (by rw [kstate, hone]; decide)
    refine ⟨_, (execSolvePhase1End_runs hsolve hon hstate).trans (congrArg _ hidle), kstate.trans hone, hsolved, hsince,
      ktime.trans htime, hnone, ?_⟩
    rwa [kroom]
  case phase2 =>
    refine ⟨_, regionUpdated r s, execGainUpdateWrite_writes hr hpend hready hruns hbind hbid hheld hmine hidle hgroups,
      fun p hp => ?_, rfl⟩
    rw [phase2Check_pendWithout] at hp
    simpa using (List.mem_filter.mp hp).2
  case timeout =>
    refine ⟨_, execUpdateLockTimeout_due hr hpend hfree hlate, ?_, ?_⟩
    · rw [phase2Check_pendWithout, regionDeferred_trk]
    · unfold State.get State.getI
      rw [phase2_regs]
      exact regionDeferred_event hpend
  case request =>
    exact ⟨_, execUpdateReq_passes ho hi mask, updateReq_frame _ _ _ s, fun i hlt hbit => updateReq_named _ hlt hbit s,
      updateReq_others _ _ _ s⟩
  case interval =>
    exact ⟨_, execUpdateIntervalExpiry_due hp hon hdue, trkPort_upd _ _ _, fun q hq => trkPort_upd_ne _ _ hq, rfl⟩

end Sys2Proof.Machine
end

section
/-! Runs of the timing converters and the swap of their tables. -/

-- One declaration after another, as in the files before: the text is also checked in one piece.
set_option Elab.async false

namespace Sys2Proof.Machine

/-! ### The start of a run -/

/-- A run has started on a die, with no edge held (R383). -/
def TdcStarted (d : Nat) (s t : State) : Prop :=
  t.tdcPhase d = 1 ∧ (t.tdcOf d).began = s.now ∧ (t.tdcOf d).hits = [] ∧ (t.tdcOf d).fresh = (s.tdcOf d).fresh

/-- A die goes on with what it did. -/
def TdcSame (d : Nat) (s t : State) : Prop := t.tdcPhase d = s.tdcPhase d ∧ t.tdcOf d = s.tdcOf d

theorem TdcSame.trans {d : Nat} {s t u : State} (h : TdcSame d s t) (g : TdcSame d t u) : TdcSame d s u :=
  ⟨g.1.trans h.1, g.2.trans h.2⟩

theorem TdcSame.started {d : Nat} {s t u : State} (h : TdcSame d s t) (hnow : t.now = s.now) (g : TdcStarted d t u) :
    TdcStarted d s u := by
  obtain ⟨hphase, hbegan, hhits, hfresh⟩ := g
  exact ⟨hphase, hbegan.trans hnow, hhits, by rw [hfresh, h.2]⟩

theorem TdcStarted.same {d : Nat} {s t u : State} (h : TdcStarted d s t) (g : TdcSame d t u) : TdcStarted d s u := by
  unfold TdcStarted
  rw [g.1, g.2]
  exact h

/-- The fields that a start of runs may change. -/
def tdcStartKeys : List Nat :=
  [F.Tdc.TDC_STATUS.key pgTdc 0, F.Tdc.EDGE_MIN.key pgTdc 0, F.Tdc.EDGE_MIN.key pgTdc 1, F.Tdc.EDGE_MIN.key pgTdc 2]

/-- What a word written to RUN does at one die. -/
def tdcRunDie (mask d : Nat) (s : State) : State := if bitAt mask d then tdcStart d s else s

section
variable {mask d : Nat} (hd : d < 3) (s : State)
include hd

theorem tdcRunDie_starts (hbit : bitAt mask d = true) (hidle : s.tdcPhase d = 0) : TdcStarted d s (tdcRunDie mask d s) := by
  obtain ⟨hphase, -, hstart, -, -⟩ := runs_step mask d hd s (tdcRunDie mask d s) rfl
  exact ⟨(hphase d hd).trans (if_pos ⟨rfl, hbit, hidle⟩), hstart hbit hidle⟩

theorem tdcRunDie_same {e : Nat} (he : e < 3) (h : e ≠ d ∨ bitAt mask d = false ∨ s.tdcPhase d ≠ 0) :
    TdcSame e s (tdcRunDie mask d s) := by
  obtain ⟨hphase, hrecord, -, -, -⟩ := runs_step mask d hd s (tdcRunDie mask d s) rfl
  refine ⟨(hphase e he).trans (if_neg ?_), hrecord e h⟩
  rintro ⟨rfl, hbit, hidle⟩
  rcases h with h | h | h
  · exact h rfl
  · rw [h] at hbit; cases hbit
  · exact h hidle

theorem tdcRunDie_frame :
    tdcRunDie mask d s = { s with regs := (tdcRunDie mask d s).regs, tdc := (tdcRunDie mask d s).tdc } ∧
      s.RegsBut (tdcRunDie mask d s) tdcStartKeys := by
  obtain ⟨-, -, -, hrest, hregs⟩ := runs_step mask d hd s (tdcRunDie mask d s) rfl
  exact ⟨hrest, hregs⟩

end

/-- Starts of runs leave everything alone but the records of the dies and the fields that show them. -/
theorem tdcRuns_frame (mask : Nat) {l : List Nat} (hl : ∀ d ∈ l, d < 3) (s : State) :
    let t := forAll l s (tdcRunDie mask)
    t = { s with regs := t.regs, tdc := t.tdc } ∧ s.RegsBut t tdcStartKeys := by
  refine forAll_mem l s _ (fun t => t = { s with regs := t.regs, tdc := t.tdc } ∧ s.RegsBut t tdcStartKeys)
    ⟨rfl, fun _ _ => rfl⟩ fun d hd t ht => ?_
  obtain ⟨hrest, hregs⟩ := ht
  obtain ⟨hrest', hregs'⟩ := tdcRunDie_frame (mask := mask) (hl d hd) t
  exact ⟨by rw [hrest', hrest], fun k hk => (hregs' k hk).trans (hregs k hk)⟩

/-- Starts at other dies leave a die alone. -/
theorem tdcRuns_others (mask : Nat) {l : List Nat} {d : Nat} (hl : ∀ e ∈ l, e < 3) (hd : d < 3) (hne : ∀ e ∈ l, e ≠ d)
    (s : State) : TdcSame d s (forAll l s (tdcRunDie mask)) :=
  forAll_mem l s _ (TdcSame d s) ⟨rfl, rfl⟩ fun e he _ ht =>
    ht.trans (tdcRunDie_same (hl e he) _ hd (.inl (hne e he).symm))

/-- A die meets the start of runs once, in its own turn. -/
theorem tdcRuns_turn (mask : Nat) {d : Nat} (hd : d < 3) (s : State) : ∃ u, TdcSame d s u ∧ u.now = s.now ∧
    TdcSame d (tdcRunDie mask d u) (tdcRuns mask s) := by
  have hmem : d ∈ [0, 1, 2] := by interval_cases d <;> decide
  have hdies : ∀ e ∈ [0, 1, 2], e < 3 := by decide
  obtain ⟨a, b, hsplit, hda, hdb⟩ := nodup_split (l := [0, 1, 2]) (by decide) hmem
  have ha : ∀ e ∈ a, e < 3 := fun e he => hdies e (by
    rw [hsplit]; exact List.mem_append_left _ he)
  have hb : ∀ e ∈ b, e < 3 := fun e he => hdies e (by
    rw [hsplit]; exact List.mem_append_right _ (List.mem_cons_of_mem _ he))
  have hruns : tdcRuns mask s = forAll b (tdcRunDie mask d (forAll a s (tdcRunDie mask))) (tdcRunDie mask) := by
    show forAll [0, 1, 2] s (tdcRunDie mask) = _
    rw [hsplit, forAll_append, forAll_cons]
  refine ⟨_, tdcRuns_others mask ha hd hda s, ?_, ?_⟩
  · rw [(tdcRuns_frame mask ha s).1]
  · rw [hruns]
    exact tdcRuns_others mask hb hd hdb _

theorem tdcRuns_starts {mask d : Nat} (hd : d < 3) (s : State) (hbit : bitAt mask d = true) (hidle : s.tdcPhase d = 0) :
    TdcStarted d s (tdcRuns mask s) := by
  obtain ⟨u, hu, hnow, ht⟩ := tdcRuns_turn mask hd s
  exact (hu.started hnow (tdcRunDie_starts hd u hbit (hu.1.trans hidle))).same ht

theorem tdcRuns_same {mask d : Nat} (hd : d < 3) (s : State) (h : bitAt mask d = false ∨ s.tdcPhase d ≠ 0) :
    TdcSame d s (tdcRuns mask s) := by
  obtain ⟨u, hu, -, ht⟩ := tdcRuns_turn mask hd s
  exact (hu.trans (tdcRunDie_same hd u hd (.inr (by rwa [hu.1])))).trans ht

/-! ### The ends of the collection and of the loopback -/

/-- The phase in which the collection leaves a die: the hub has no delay line (R384). -/
theorem execTdcCollectionEnd_over {d : Nat} (hd : d < 3) {s : State} (hphase : s.tdcPhase d = 1)
    (hover : (s.tdcOf d).fewest = tdcFull ∨ (s.tdcOf d).began + s.get F.Tdc.RUN_LIMIT pgTdc * 1000000000 ≤ s.now) :
    ∃ u, exec (.tdcCollectionEnd d) s = .next (if d = 0 then tdcEnd d u else setTdcPhase d 2 u) :=
  ⟨_, congrArg Host.Outcome.next (if_pos ⟨hd, hphase, hover⟩)⟩

theorem execTdcLoopbackEnd_measured {d : Nat} {phases : List (List (List (Option (Nat × Nat))))} (hd : d = 1 ∨ d = 2)
    {s : State} (hphase : s.tdcPhase d = 2) (hmeas : tapsMeasured phases = true) :
    ∃ u, exec (.tdcLoopbackEnd d phases) s = .next (tdcEnd d u) :=
  ⟨_, congrArg Host.Outcome.next (if_pos ⟨hd, hphase, hmeas⟩)⟩

/-- A run without a rejected unit shows its temperature and raises its event (R386). -/
theorem tdcEnd_accepted {d : Nat} (hd : d < 3) {u : State} (h : (u.tdcOf d).failed = false) :
    (tdcEnd d u).getI F.Tdc.REF_TEMP pgTdc d = low 16 (u.tdcOf d).temp ∧
      bitAt ((tdcEnd d u).get F.Hdr.EVENT_STATUS pgTdc) Ev.tdcRunAccepted.bit = true := by
  have hend : tdcEnd d u = (((setTdcPhase d 0 u).setI F.Tdc.REF_TEMP pgTdc d (u.tdcOf d).temp).wrapI F.Tdc.RUNS pgTdc d 1).raise
      Ev.tdcRunAccepted pgTdc (arg64 (unsext 32 (sext 16 (u.tdcOf d).temp)) d) := if_neg (by rw [h]; decide)
  rw [hend]
  refine ⟨?_, State.raise_bit _ _ _ (by decide) (by decide)⟩
  rw [State.getI_raise_arr _ _ 3 hd (by decide) (by decide) (by decide) (by decide), State.wrapI,
    State.getI_setI_arr _ (by decide) (by decide)]
  exact State.getI_setI_self _ _ _ _ _

/-! ### The swap of the tables -/

/-- Page 0x079 with the accepted tables of a die in its active windows (R387). -/
def tdcTablesStored (d : Nat) (s : State) : State :=
  forAll (s.tdcOf d).fresh s (fun f s => setAptBytes pgTdc f.1 (f.2.map (BitVec.ofNat 8)) s)

theorem tdcTablesStored_frame (d : Nat) (s : State) : tdcTablesStored d s = { s with aptw := (tdcTablesStored d s).aptw } :=
  forAll_inv _ s _ (fun t => t = { s with aptw := t.aptw }) rfl fun f t ht => by rw [setApt_bytes, ht]

theorem execTdcTableSwap_free {d : Nat} (hd : d < 3) {s : State} (h : s.placing d = false) :
    exec (.tdcTableSwap d) s = .next ((tdcTablesStored d s).updTdc d (fun x => { x with fresh := [] })) :=
  congrArg Host.Outcome.next (if_pos ⟨hd, h⟩)

/-- Settles O31: a start meets each die in its own turn; the ends and the swap follow from what each leaves behind. How an end
is judged and when a port places a strobe are choices of the model (logs 76 and 136). -/
theorem timingCalibration : Obligations.TimingCalibration := by
  unfold Obligations.TimingCalibration
  intro s
  refine ⟨fun mask owner ho => ?run, fun d hd hphase hover => ?collected, fun d phases hd hphase hmeas => ?looped,
    fun d hd hfree => ?swap⟩
  case run =>
    obtain ⟨hrest, hregs⟩ := tdcRuns_frame mask (l := [0, 1, 2]) (by decide) s
    exact ⟨tdcRuns mask s, congrArg Host.Outcome.next (gateReg_passes ho _ _ _), fun d hd => tdcRuns_starts hd s,
      fun d hd => tdcRuns_same hd s, hrest, hregs⟩
  case collected =>
    obtain ⟨u, hu⟩ := execTdcCollectionEnd_over hd hphase hover
    refine ⟨_, hu, ?_⟩
    split
    next => exact tdcEnd_phase u d hd
    next => exact (setTdcPhase_eq u d d 2 hd hd (by decide)).trans (if_pos rfl)
  case looped =>
    have hlt : d < 3 := by omega
    obtain ⟨u, hu⟩ := execTdcLoopbackEnd_measured hd hphase hmeas
    exact ⟨_, u, hu, rfl, tdcEnd_phase u d hlt, tdcEnd_accepted hlt⟩
  case swap =>
    have hrest := tdcTablesStored_frame d s
    refine ⟨_, execTdcTableSwap_free hd hfree, ?_, fun k hk => ?_, ?_, rfl⟩
    · rw [State.tdcOf_updTdc]
    · rw [State.tdcOf_updTdc_ne _ _ hk, hrest]; rfl
    · rw [hrest]; rfl

end Sys2Proof.Machine
end

section
/-! The calibration store: SAVE, WITHDRAW, APPLY with its end, and CAPTURE_TDC. -/

-- One declaration after another, as in the files before: the text is also checked in one piece.
set_option Elab.async false

namespace Sys2Proof.Machine

/-! ### Writes of CAL_CTRL that pass -/

/-- CAT stored by a write of CAL_CTRL. -/
def catStored (cats : Nat) (s : State) : State := s.set F.Cal.CAT pgCal (low 6 cats)

section
variable {s : State} {owner : Nat} (ho : s.passes pgCal owner = true) (cats : Nat)
include ho

theorem execCalSave_passes : exec (.calSave cats owner) s = .next (calSave (low 6 cats) (catStored cats s)) :=
  congrArg Host.Outcome.next (gateReg_passes ho _ _ _)

theorem execCalWithdraw_passes : exec (.calWithdraw cats owner) s = .next (calWithdraw (low 6 cats) (catStored cats s)) :=
  congrArg Host.Outcome.next (gateReg_passes ho _ _ _)

theorem execCalApply_passes : exec (.calApply cats owner) s = .next (calApply (low 6 cats) (catStored cats s)) :=
  congrArg Host.Outcome.next (gateReg_passes ho _ _ _)

theorem execCalCaptureTdc_passes : exec (.calCaptureTdc cats owner) s = .next (calCapture (catStored cats s)) :=
  congrArg Host.Outcome.next (gateReg_passes ho _ _ _)

end

theorem catStored_get (cats : Nat) (s : State) {f : Fld} (h : (f.off + 0 * f.stride) * 32 + f.lo ≠
    (F.Cal.CAT.off + 0 * F.Cal.CAT.stride) * 32 + F.Cal.CAT.lo) : (catStored cats s).get f pgCal = s.get f pgCal :=
  State.get_set_off s h

theorem catStored_calBusy (cats : Nat) (s : State) : (catStored cats s).calBusy = s.calBusy := by
  unfold State.calBusy State.calState
  rw [catStored_get _ _ (by decide)]

theorem catStored_journalOpen (cats : Nat) (s : State) : (catStored cats s).journalOpen = s.journalOpen := by
  have hready : (catStored cats s).ready pgSto = s.ready pgSto := by
    unfold State.ready State.on catStored
    rw [State.get_set_page _ (by decide) (by decide) (by decide) (by decide) (by decide)]
  unfold State.journalOpen
  rw [hready]
  rfl

theorem catStored_round (cats : Nat) (s : State) :
    (catStored cats s).get F.Hk.HK_ROUNDS 0x0A8 = s.get F.Hk.HK_ROUNDS 0x0A8 :=
  State.get_set_page _ (by decide) (by decide) (by decide) (by decide) (by decide)

theorem low_low (w v : Nat) : low w (low w v) = low w v := Nat.mod_mod v (2 ^ w)

/-! ### The actions while one is in progress -/

section
variable {s : State} (h : s.calBusy = true)
include h

theorem calSave_busy (cats : Nat) : calSave cats s = s := if_pos h

theorem calWithdraw_busy (cats : Nat) : calWithdraw cats s = s := if_pos h

theorem calApply_busy (cats : Nat) : calApply cats s = s := if_pos h

theorem calCapture_busy : calCapture s = s := if_pos h

end

/-! ### SAVE -/

/-- STATE 1 with the named categories to be written (R389). -/
def saveStarted (cats : Nat) (s : State) : State :=
  (s.set F.Cal.CAL_STATUS_STATE pgCal 1).updCal (fun x => { x with saving := low 6 cats, failed := 0 })

theorem saveStarted_calState (cats : Nat) (s : State) : (saveStarted cats s).calState = 1 :=
  State.get_set_self s F.Cal.CAL_STATUS_STATE pgCal 1

section
variable {s : State} {cats : Nat} (hfree : s.calBusy = false) (hcats : catsOf cats ≠ [])
include hfree hcats

theorem calSave_open (hopen : s.journalOpen = true) : calSave cats s =
    forAll (catsOf cats) (saveStarted cats s) (fun c s => journalAsk ⟨3, c, s.calBytes c⟩ s) := by
  simp only [calSave, hfree, hcats, hopen, Bool.false_eq_true, if_false, if_true]
  rfl

theorem calSave_closed (hclosed : s.journalOpen = false) :
    calSave cats s = forAll (catsOf cats) (saveStarted cats s) (calFail 1) := by
  simp only [calSave, hfree, hcats, hclosed, Bool.false_eq_true, if_false]
  rfl

end

theorem calFail_event (reason c : Nat) (s : State) :
    bitAt ((calFail reason c s).get F.Hdr.EVENT_STATUS pgCal) Ev.dtrkCalSaveFail.bit = true :=
  State.raise_bit _ _ _ (by decide) (by decide)

theorem calFail_forAll_event {l : List Nat} (hl : l ≠ []) (reason : Nat) (s : State) :
    bitAt ((forAll l s (calFail reason)).get F.Hdr.EVENT_STATUS pgCal) Ev.dtrkCalSaveFail.bit = true := by
  obtain ⟨c, hc⟩ := List.exists_mem_of_ne_nil _ hl
  exact forAll_est _ s _ (fun t => bitAt (t.get F.Hdr.EVENT_STATUS pgCal) Ev.dtrkCalSaveFail.bit = true) c hc
    (calFail_event reason c) fun d _ t _ => calFail_event reason d t

/-! ### WITHDRAW -/

theorem mem_catsOf_low {c : Nat} (hc : c < 6) (cats : Nat) : c ∈ catsOf (low 6 cats) ↔ bitAt cats c = true := by
  rw [catsOf, List.mem_filter, List.mem_range, bitAt_low hc]
  exact and_iff_right hc

theorem calWithdraw_free {s : State} (hfree : s.calBusy = false) (cats : Nat) :
    calWithdraw cats s = forAll (catsOf cats) s (fun c => setCalValid c false) := if_neg (by rw [hfree]; decide)

/-- The bits of the named categories clear, and CAT holds the names (R389). -/
theorem withdrawn_facts (cats : Nat) (s : State) :
    let t := forAll (catsOf (low 6 cats)) (catStored cats s) (fun c => setCalValid c false)
    (∀ c < 6, bitAt (t.get F.Cal.CAL_VALID pgCal) c = (bitAt (s.get F.Cal.CAL_VALID pgCal) c && !bitAt cats c)) ∧
      s.OnlyRegs t [F.Cal.CAT.key pgCal 0, F.Cal.CAL_VALID.key pgCal 0] := by
  intro t
  obtain ⟨hvalid, hregs⟩ := withdraw_fold (catsOf (low 6 cats)) (catStored cats s)
  refine ⟨fun c hc => ?_, (s.onlyRegs_setI F.Cal.CAT pgCal 0 (low 6 cats)).trans hregs⟩
  rw [hvalid c hc, catStored_get _ _ (by decide)]
  simp only [mem_catsOf_low hc, Bool.decide_eq_true]

/-! ### APPLY -/

/-- The regions whose tender core has values to write under the named categories (R390). -/
def applyRegions (cats : Nat) : List Nat := if bitAt cats 4 || bitAt cats 5 then List.range 4 else []

theorem applyRegions_low (cats : Nat) : applyRegions (low 6 cats) = applyRegions cats := by
  unfold applyRegions
  rw [bitAt_low (by decide), bitAt_low (by decide)]

/-- STATE 2 with the named categories to be taken (R390). -/
def applyStarted (cats : Nat) (s : State) : State :=
  (s.set F.Cal.CAL_STATUS_STATE pgCal 2).updCal (fun x => { x with
    applying := low 6 cats, round := s.get F.Hk.HK_ROUNDS 0x0A8, regions := applyRegions cats })

/-- APPLY as the tender cores find it: page 0x079 has its values where categories 0 and 1 are named (R387, R390). -/
def applyBegun (cats : Nat) (s : State) : State :=
  if bitAt cats 0 || bitAt cats 1 then calToTdc cats (applyStarted cats s) else applyStarted cats s

theorem calApply_free {s : State} (hfree : s.calBusy = false) (cats : Nat) :
    calApply cats s = forAll (applyRegions cats) (applyBegun cats s) applyTender := if_neg (by rw [hfree]; decide)

/-- Giving page 0x079 its values leaves the calibration store alone. -/
theorem calToTdc_keep (cats : Nat) (s : State) : (calToTdc cats s).calState = s.calState ∧ (calToTdc cats s).cal = s.cal := by
  refine forAll_mem [0, 1, 2] s _ (fun t => t.calState = s.calState ∧ t.cal = s.cal) ⟨rfl, rfl⟩ fun d hd t ht => ?_
  have hplace : ∀ d ∈ [0, 1, 2], F.Tdc.REF_TEMP.off + d * F.Tdc.REF_TEMP.stride < 4096 := by decide
  extract_lets new s1
  split
  · refine ⟨Eq.trans ?_ ht.1, ht.2⟩
    exact State.getI_setI_page _ _ (hplace d hd) (by decide) (by decide) (by decide) (by decide)
  · exact ht

theorem applyStarted_facts (cats : Nat) (s : State) : (applyStarted cats s).calState = 2 ∧
    (applyStarted cats s).cal.applying = low 6 cats ∧ (applyStarted cats s).cal.round = s.get F.Hk.HK_ROUNDS 0x0A8 :=
  ⟨State.get_set_self s F.Cal.CAL_STATUS_STATE pgCal 2, rfl, rfl⟩

theorem applyBegun_facts (cats : Nat) (s : State) : (applyBegun cats s).calState = 2 ∧
    (applyBegun cats s).cal.applying = low 6 cats ∧ (applyBegun cats s).cal.round = s.get F.Hk.HK_ROUNDS 0x0A8 := by
  unfold applyBegun
  split
  · rw [(calToTdc_keep cats _).1, (calToTdc_keep cats _).2]
    exact applyStarted_facts cats s
  · exact applyStarted_facts cats s

/-- The end of APPLY (R390). -/
def applyEnded (s : State) : State :=
  ((s.set F.Cal.CAL_STATUS_STATE pgCal 0).updCal (fun x => { x with applying := 0 })).raise Ev.dtrkCalApplyDone pgCal
    s.cal.applying

section
variable {s : State} (h : s.calState = 2)
include h

theorem execCalApplyDone_waits (hwait : (forAll s.cal.regions s applyTender).calTaken = false) :
    exec .calApplyDone s = .next (forAll s.cal.regions s applyTender) :=
  congrArg Host.Outcome.next ((if_pos h).trans (if_neg (by rw [hwait]; decide)))

theorem execCalApplyDone_taken (htaken : (forAll s.cal.regions s applyTender).calTaken = true) :
    exec .calApplyDone s = .next (applyEnded (forAll s.cal.regions s applyTender)) :=
  congrArg Host.Outcome.next ((if_pos h).trans (if_pos htaken))

end

/-- What records of events write does not depend on the calibration store. -/
theorem State.OnlyEvents.ofCal {s t : State} {pg : Nat} {ks : List Nat} {c : CalX}
    (h : ({ s with cal := c } : State).OnlyEvents t pg ks) : s.OnlyEvents { t with cal := s.cal } pg ks := by
  obtain ⟨hrest, hregs, hbytes⟩ := h
  exact ⟨by rw [hrest], hregs, hbytes⟩

theorem applyEnded_facts (s : State) :
    let t := applyEnded s
    t.calState = 0 ∧ t.cal = { s.cal with applying := 0 } ∧
      bitAt (t.get F.Hdr.EVENT_STATUS pgCal) Ev.dtrkCalApplyDone.bit = true ∧
      s.OnlyEvents { t with cal := s.cal } pgCal [F.Cal.CAL_STATUS_STATE.key pgCal 0] := by
  intro t
  have hpg : pgCal ≠ pgLedger := by decide
  refine ⟨?_, State.raise_cal .., State.raise_bit _ _ _ hpg (by decide), .ofCal (c := { s.cal with applying := 0 }) ?_⟩
  · exact (State.get_raise_off _ _ hpg (by decide) (by decide) (by decide)).trans
      (State.get_set_self s F.Cal.CAL_STATUS_STATE pgCal 0)
  · exact (State.onlyRegs_setI { s with cal := { s.cal with applying := 0 } } F.Cal.CAL_STATUS_STATE pgCal 0 0).events
      (State.onlyEvents_raise _ _ _ hpg) (by decide)

/-- Settles O32, action by action. That CAPTURE_TDC clears CAL_VALID and that APPLY waits for a round of HK_ROUNDS are choices of
the model (log 78). -/
theorem calibrationStore : Obligations.CalibrationStore := by
  unfold Obligations.CalibrationStore
  intro s
  refine ⟨fun cats owner ho => ⟨catStored cats s, rfl, ?_⟩,
    fun h => ⟨_, rfl, execCalApplyDone_waits h, fun htaken => ?ended⟩⟩
  · rw [execCalSave_passes ho, execCalWithdraw_passes ho, execCalApply_passes ho, execCalCaptureTdc_passes ho,
      ← catStored_calBusy cats s, ← catStored_journalOpen cats s]
    refine ⟨fun hbusy => ?busy, fun hfree => ⟨fun hcats hopen => ?save, fun hcats hclosed => ?fails, ?withdraw, ?apply,
      fun hclosing hsaving => ?capture⟩⟩
    case busy =>
      rw [calSave_busy hbusy, calWithdraw_busy hbusy, calApply_busy hbusy, calCapture_busy hbusy]
      exact ⟨rfl, rfl, rfl, rfl⟩
    case save =>
      exact ⟨_, congrArg _ (calSave_open hfree hcats hopen), saveStarted_calState _ _, low_low 6 cats, rfl⟩
    case fails =>
      exact ⟨_, congrArg _ (calSave_closed hfree hcats hclosed), calFail_forAll_event hcats 1 _⟩
    case withdraw =>
      obtain ⟨hvalid, hrest, hregs⟩ := withdrawn_facts cats s
      exact ⟨_, congrArg _ (calWithdraw_free hfree _), hvalid, hrest, hregs⟩
    case apply =>
      obtain ⟨hstate, happlying, hround⟩ := applyBegun_facts (low 6 cats) (catStored cats s)
      refine ⟨_, congrArg _ ((calApply_free hfree _).trans ?_), hstate, happlying.trans (low_low 6 cats),
        hround.trans (catStored_round cats s)⟩
      rw [applyRegions_low]
      rfl
    case capture =>
      have hinv := capture_inv (catStored cats s) hclosing hsaving hfree
      obtain ⟨hdirty0, hvalid0⟩ := hinv.d0 rfl
      obtain ⟨hdirty1, hvalid1⟩ := hinv.d1 rfl
      exact ⟨_, rfl, hdirty0, hdirty1, hvalid0, hvalid1⟩
  case ended => exact ⟨_, execCalApplyDone_taken h htaken, applyEnded_facts _⟩

end Sys2Proof.Machine
end

section
/-! The canonical form, the time and the queue along every step. -/

-- One declaration after another, as in the files before: the text is also checked in one piece.
set_option Elab.async false

namespace Sys2Proof.Machine

/-- A state whose front command has been taken from the queue is as canonical as before. -/
theorem State.Canonical.withPending {s : State} (h : s.Canonical) (rest : List Instr) :
    ({ s with pending := rest } : State).Canonical := h

/-- A step with a command waiting is that command's `exec`. -/
theorem step_cons {s : State} {c : Instr} {rest : List Instr} (h : s.pending = c :: rest) :
    step s = exec c { s with pending := rest } := by
  unfold step
  rw [h]

/-- A step with no command waiting is a tick. -/
theorem step_nil {s : State} (h : s.pending = []) : step s = .next (tick s) := by
  unfold step
  rw [h]

/-- Settles O1. -/
theorem stepRunsTheFrontCommand : Obligations.StepRunsTheFrontCommand := by
  unfold Obligations.StepRunsTheFrontCommand
  intro s c rest h
  exact step_cons h

/-- Settles O5, by `kept_exec`: each command is built of operations that keep the time, the queue and the canonical form. That a
command takes no time is log 1, and the counter of free values is the model's own (log 9). -/
theorem commandsKeepTimeAndQueue : Obligations.CommandsKeepTimeAndQueue := by
  unfold Obligations.CommandsKeepTimeAndQueue
  intro c s t hs ht
  exact (kept_exec c (Kept.refl hs) t ht).1

/-- Settles O3: a tick and every command keep the canonical form. -/
theorem everyStepKeepsCanonicalForm : Obligations.EveryStepKeepsCanonicalForm := by
  unfold Obligations.EveryStepKeepsCanonicalForm
  intro s t hs ht
  cases hp : s.pending with
  | nil =>
    rw [step_nil hp, Host.Outcome.next.injEq] at ht
    exact ht ▸ (canonical_tick hs).1
  | cons c rest =>
    rw [step_cons hp] at ht
    exact (kept_exec c (Kept.refl (hs.withPending rest)) t ht).2

/-- Settles O4: after reset every store and the pool are empty. -/
theorem resetIsCanonical : Obligations.ResetIsCanonical := by
  unfold Obligations.ResetIsCanonical
  exact ⟨⟨rfl, rfl, rfl, rfl, Nat.zero_le _⟩, rfl⟩

end Sys2Proof.Machine
end

section
/-! The check code of SDRAM and SRAM words, and requests beyond the capacity. -/

-- One declaration after another, as in the files before: the text is also checked in one piece.
set_option Elab.async false

namespace Sys2Proof.Machine

/-! ### Syndromes as a linear code -/

/-- Column `k` of the code: that of a data bit, or the single bit of a check bit. -/
def codeColumn (k : Nat) : Nat := if k < 32 then hColumns.getD k 0 else 2 ^ (k - 32)

/-- The syndrome that the inverted bits of `flip` leave of a good word. -/
def flipSyndrome (flip : Nat) : Nat := Nat.xor (bits flip 32 7) (checkBits (low 32 flip))

theorem bits_xor (a b lo w : Nat) : bits (Nat.xor a b) lo w = Nat.xor (bits a lo w) (bits b lo w) := by
  show (a ^^^ b) / 2 ^ lo % 2 ^ w = (a / 2 ^ lo % 2 ^ w) ^^^ (b / 2 ^ lo % 2 ^ w)
  refine Nat.eq_of_testBit_eq fun i => ?_
  simp only [Nat.testBit_xor, Nat.testBit_mod_two_pow, Nat.testBit_div_two_pow]
  cases decide (i < w) <;> rfl

theorem low_xor (w a b : Nat) : low w (Nat.xor a b) = Nat.xor (low w a) (low w b) := Nat.xor_mod_two_pow

theorem flipSyndrome_xor (a b : Nat) : flipSyndrome (Nat.xor a b) = Nat.xor (flipSyndrome a) (flipSyndrome b) := by
  unfold flipSyndrome
  rw [bits_xor, low_xor, checkBits_xor]
  have hcomm (p q u v : Nat) : (p ^^^ q) ^^^ (u ^^^ v) = (p ^^^ u) ^^^ (q ^^^ v) := by ac_rfl
  exact hcomm _ _ _ _

theorem flipSyndrome_two_pow : ∀ k < 39, flipSyndrome (2 ^ k) = codeColumn k := by decide

theorem codeColumn_nodup : ((List.range 39).map codeColumn).Nodup := by decide

theorem codeColumn_inj {k j : Nat} (hk : k < 39) (hj : j < 39) (h : codeColumn k = codeColumn j) : k = j :=
  List.inj_on_of_nodup_map codeColumn_nodup (List.mem_range.mpr hk) (List.mem_range.mpr hj) h

/-! ### The parity of a syndrome's weight -/

theorem weight_xor (l : List Nat) (a b : Nat) {p q r : Nat} (h : p % 2 = (q + r) % 2) :
    l.foldl (fun c i => c + bit (bitAt (Nat.xor a b) i)) p % 2 =
      (l.foldl (fun c i => c + bit (bitAt a i)) q + l.foldl (fun c i => c + bit (bitAt b i)) r) % 2 := by
  induction l generalizing p q r with
  | nil => exact h
  | cons i l ih =>
    refine ih ?_
    have hbit : bit (bitAt (Nat.xor a b) i) % 2 = (bit (bitAt a i) + bit (bitAt b i)) % 2 := by
      rw [bitAt_xor]
      cases bitAt a i <;> cases bitAt b i <;> rfl
    dsimp only
    omega

/-- The weight of an XOR has the parity of the sum of the weights. -/
theorem popcount_xor (a b : Nat) : popcount (Nat.xor a b) % 2 = (popcount a + popcount b) % 2 := weight_xor _ a b rfl

theorem popcount_hColumn : ∀ h ∈ hColumns, h < 128 ∧ popcount h = 3 := by decide

theorem getD_hColumns_mem {j : Nat} (hj : j < 32) : hColumns.getD j 0 ∈ hColumns := by
  rw [List.getD_eq_getElem _ _ (by rw [show hColumns.length = 32 by decide]; exact hj)]
  exact List.getElem_mem _

theorem popcount_dataColumn {k : Nat} (hk : k < 32) : popcount (codeColumn k) = 3 := by
  rw [codeColumn, if_pos hk]
  exact (popcount_hColumn _ (getD_hColumns_mem hk)).2

theorem popcount_checkColumn {k : Nat} (hk : k < 39) (hc : ¬ k < 32) : popcount (codeColumn k) = 1 := by
  have hpow : ∀ i < 7, popcount (2 ^ i) = 1 := by decide
  rw [codeColumn, if_neg hc]
  exact hpow _ (by omega)

theorem popcount_codeColumn {k : Nat} (hk : k < 39) : popcount (codeColumn k) % 2 = 1 := by
  by_cases hc : k < 32
  · rw [popcount_dataColumn hc]
  · rw [popcount_checkColumn hk hc]

theorem hColumn_found : ∀ j < 32, hColumns.findIdx? (· == hColumns.getD j 0) = some j := by decide

/-! ### What a word delivers -/

section
variable {data base flip read syn : Nat} (hr : read = Nat.xor data (low 32 flip))
  (hs : syn = Nat.xor (Nat.xor (Nat.xor (checkBits data) base) (bits flip 32 7)) (checkBits read))
include hr hs

theorem decodeWord_clean (h : syn = 0 ∨ popcount syn = 1) : decodeWord data base flip = (read, false, false, syn) := by
  rw [decode_syn data base flip read syn hr hs, if_pos h]

theorem decodeWord_column {j : Nat} (hj : j < 32) (h : syn = hColumns.getD j 0) :
    decodeWord data base flip = (Nat.xor read (2 ^ j), true, false, syn) := by
  have hweight : popcount syn = 3 := by
    rw [h]
    exact (popcount_hColumn _ (getD_hColumns_mem hj)).2
  have hone : ¬ (syn = 0 ∨ popcount syn = 1) := by
    rintro (h0 | h1)
    · rw [h0] at hweight
      exact absurd hweight (by decide)
    · omega
  rw [decode_syn data base flip read syn hr hs, if_neg hone, h, hColumn_found j hj]

theorem decodeWord_uncorrectable (h0 : syn ≠ 0) (h1 : popcount syn ≠ 1) (hc : syn ∉ hColumns) :
    decodeWord data base flip = (read, false, true, syn) := by
  have hfind : hColumns.findIdx? (· == syn) = none := by
    rw [List.findIdx?_eq_none_iff]
    intro x hx
    exact beq_eq_false_iff_ne.mpr fun e => hc (e ▸ hx)
  rw [decode_syn data base flip read syn hr hs, if_neg (not_or.mpr ⟨h0, h1⟩), hfind]

end

/-- The syndrome of a stored word is that of its inverted bits. -/
theorem syndrome_eq (data flip : Nat) :
    flipSyndrome flip =
      Nat.xor (Nat.xor (Nat.xor (checkBits data) 0) (bits flip 32 7)) (checkBits (Nat.xor data (low 32 flip))) :=
  (decode_flip data flip).symm

/-- One inverted bit is corrected. -/
theorem decodeWord_single (data : Nat) {k : Nat} (hk : k < 39) :
    (decodeWord data 0 (2 ^ k)).1 = data ∧ (decodeWord data 0 (2 ^ k)).2.2.1 = false := by
  have hsyn : codeColumn k = _ := (flipSyndrome_two_pow k hk).symm.trans (syndrome_eq data (2 ^ k))
  by_cases hdata : k < 32
  · have hlow : low 32 (2 ^ k) = 2 ^ k := low_of_lt (Nat.pow_lt_pow_right (by decide) hdata)
    rw [decodeWord_column rfl hsyn hdata (if_pos hdata), hlow]
    exact ⟨Nat.xor_xor_cancel_right _ _, rfl⟩
  · have hlow : low 32 (2 ^ k) = 0 := Nat.mod_eq_zero_of_dvd (Nat.pow_dvd_pow 2 (by omega))
    rw [decodeWord_clean rfl hsyn (.inr (popcount_checkColumn hk hdata)), hlow]
    exact ⟨Nat.xor_zero _, rfl⟩

theorem two_pow_add {k j : Nat} (h : k ≠ j) : 2 ^ k + 2 ^ j = Nat.xor (2 ^ k) (2 ^ j) := by
  have hset : 2 ^ k + 2 ^ j = setBit (2 ^ k) j := by
    rw [setBit, if_neg (by rw [bitAt_two_pow]; exact fun e => h (of_decide_eq_true e))]
  refine hset.trans (Nat.eq_of_testBit_eq fun i => ?_)
  rw [← bitAt_eq_testBit, ← bitAt_eq_testBit, bitAt_setBit, bitAt_xor, bitAt_two_pow, bitAt_two_pow]
  by_cases hk : k = i
  · simp [hk, show j ≠ i from fun e => h (hk.trans e.symm)]
  · simp [hk]

/-- Two inverted bits are detected: their syndrome has even weight and is not 0. -/
theorem decodeWord_double (data : Nat) {k j : Nat} (hk : k < 39) (hj : j < 39) (hne : k ≠ j) :
    (decodeWord data 0 (2 ^ k + 2 ^ j)).2.2.1 = true := by
  have hcol : flipSyndrome (2 ^ k + 2 ^ j) = Nat.xor (codeColumn k) (codeColumn j) := by
    rw [two_pow_add hne, flipSyndrome_xor, flipSyndrome_two_pow k hk, flipSyndrome_two_pow j hj]
  have heven : popcount (flipSyndrome (2 ^ k + 2 ^ j)) % 2 = 0 := by
    rw [hcol, popcount_xor, Nat.add_mod, popcount_codeColumn hk, popcount_codeColumn hj]
  have hzero : flipSyndrome (2 ^ k + 2 ^ j) ≠ 0 := by
    rw [hcol]
    exact fun h => hne (codeColumn_inj hk hj (Nat.xor_eq_zero_iff.mp h))
  have hmem : flipSyndrome (2 ^ k + 2 ^ j) ∉ hColumns := fun h => by
    rw [(popcount_hColumn _ h).2] at heven
    exact absurd heven (by decide)
  rw [decodeWord_uncorrectable rfl (syndrome_eq data _) hzero (by omega) hmem]

/-- A check bit is the XOR of the data bits whose columns have it. -/
theorem bitAt_checkBits (w i : Nat) : bitAt (checkBits w) i =
    (List.range 32).foldl (fun a j => Bool.xor a (bitAt w j && bitAt (hColumns.getD j 0) i)) false := by
  have hzip : hColumns.zipIdx = (List.range 32).map (fun j => (hColumns.getD j 0, j)) := by decide
  have hzero : bitAt 0 i = false := by rw [bitAt_eq_testBit, Nat.zero_testBit]
  unfold checkBits
  rw [check_bit, hzip, List.foldl_map, hzero]

/-- Settles O33: the columns are a finite fact; decoding goes by the syndrome, and the weights of columns are odd. -/
theorem checkCodeOfWords : Obligations.CheckCodeOfWords := by
  unfold Obligations.CheckCodeOfWords
  refine ⟨by decide, by decide, popcount_hColumn, by decide, by decide, fun w i _ => bitAt_checkBits w i, ?_,
    fun data k hk => decodeWord_single data hk, fun data k hk j hj hne => decodeWord_double data hk hj hne⟩
  intro data base flip read syn hr hs
  exact ⟨decodeWord_clean hr hs, fun j hj h => decodeWord_column hr hs hj h, decodeWord_uncorrectable hr hs⟩

/-! ### Beyond the capacity -/

/-- A state whose answer is put back to what it was. -/
theorem State.withResp_eq {s : State} {r : Resp} (h : s.resp = r) : ({ s with resp := r } : State) = s := by
  rw [← h]

/-- A request beyond the capacity raises the event and takes its answer. -/
theorem execMemRequest_beyond {s : State} {cls addr : Nat} (wr : Bool) (port : Option Nat) (mask : Nat) (data : List Nat)
    (h : s.memCapacity ≤ addr) : exec (.memRequest cls addr wr port mask data) s =
      .next { rangeError cls addr wr s with resp := if wr then .none else poisonedResp (low 4 cls) } :=
  congrArg Host.Outcome.next (if_pos h)

/-- Settles O34: such a request is its event and its answer. -/
theorem requestBeyondCapacity : Obligations.RequestBeyondCapacity := by
  unfold Obligations.RequestBeyondCapacity
  intro s cls addr wr port mask data hcls haddr
  have hlow : low 4 cls = cls := low_of_lt hcls
  have hpg : pgMem ≠ pgLedger := by decide
  refine ⟨_, execMemRequest_beyond wr port mask data haddr, State.raise_memx .., ?_, ?_, ?_, ?_, State.raise_bit _ _ _ hpg (by decide), ?_⟩
  · rintro rfl
    rfl
  · rintro rfl rfl
    rfl
  · rintro rfl (rfl | rfl) <;> rfl
  · rintro rfl h0 h7 h9
    rw [hlow]
    simp [poisonedResp, h0, h7, h9]
  · have hback := State.withResp_eq (State.raise_resp s Ev.memAddrRange pgMem (low 35 addr * 2 ^ 29 + low 4 cls * 256 + bit wr))
    exact hback ▸ s.onlyEvents_raise _ _ hpg

end Sys2Proof.Machine
end

section
/-! Requests, choices and read data of an SDRAM channel. -/

-- One declaration after another, as in the files before: the text is also checked in one piece.
set_option Elab.async false

namespace Sys2Proof.Machine

/-! ### Requests within the capacity -/

/-- The request that a MEM_REQUEST brings to its channel (R399, R403, R404). -/
def State.requestOf (s : State) (cls addr : Nat) (wr : Bool) (port : Option Nat) (mask : Nat) (data : List Nat) : MemReq :=
  { burst := addr / 64 * 64
    cls := low 4 cls
    urgent := !wr && s.urgentRead (low 4 cls) port
    wr := wr
    mask := low 64 mask
    data := data }

/-- A request as its queue takes it: with its place in the order of arrivals and its instant. -/
def MemReq.arrived (q : MemReq) (seq now : Nat) : MemReq := { q with seq := seq, since := now }

theorem execMemRequest_within {s : State} {addr : Nat} (cls : Nat) (wr : Bool) (port : Option Nat) (mask : Nat) (data : List Nat)
    (h : addr < s.memCapacity) : exec (.memRequest cls addr wr port mask data) s =
      .next (memEnqueue (s.memSplit addr).1 (s.requestOf cls addr wr port mask data)
        (memWake (s.memSplit addr).1 { s with resp := .none })) :=
  congrArg Host.Outcome.next (if_neg (Nat.not_le.mpr h))

/-- A queue has room for a request of its kind. -/
def MemX.hasRoom (x : MemX) (wr : Bool) : Bool := if wr then decide (x.writes.length < 32) else decide (x.reads.length < 64)

/-- A request for which there is room joins its queue at once, on a channel that it has woken. -/
theorem memRequest_joins {s : State} {ch addr cls mask : Nat} {wr : Bool} {port : Option Nat} {data : List Nat}
    (haddr : addr < s.memCapacity) (hsplit : (s.memSplit addr).1 = ch) (hwait : (s.memOf ch).wait = [])
    (hroom : (s.memOf ch).hasRoom wr = true) :
    ∃ w : State, exec (.memRequest cls addr wr port mask data) s =
        .next (memJoin ch (s.requestOf cls addr wr port mask data) w) ∧
      (∀ k ≠ ch, w.memOf k = s.memOf k) ∧ (w.memOf ch).reads = (s.memOf ch).reads ∧
      (w.memOf ch).writes = (s.memOf ch).writes ∧ (w.memOf ch).flight = (s.memOf ch).flight ∧
      (w.memOf ch).seq = (s.memOf ch).seq ∧ w.now = s.now ∧ w.resp = .none ∧
      w.get F.Chan.RAW_STALLS (pgChan ch) = s.get F.Chan.RAW_STALLS (pgChan ch) ∧
      (s.memc.chg = none → s.ready (pgChan ch) = true → w.get F.Chan.POWER (pgChan ch) = 0) := by
  obtain ⟨⟨hothers, hreads, hwrites, hflight, hwait', hseq⟩, hnow, hresp, hstalls, hpower⟩ :=
    memWake_facts ch { s with resp := .none }
  obtain ⟨w, hjoin, hsame, hmem⟩ := memEnqueue_one ch (s.requestOf cls addr wr port mask data)
    (memWake ch { s with resp := .none }) (hwait'.trans hwait) (by rw [hreads, hwrites]; exact hroom)
  have hget (f : Fld) (pg : Nat) : w.get f pg = (memWake ch { s with resp := .none }).get f pg := by rw [hsame]; rfl
  refine ⟨w, by rw [execMemRequest_within cls wr port mask data haddr, hsplit, hjoin], fun k hk => (hmem k).trans (hothers k hk), ?_⟩
  rw [hmem ch, hget, hget]
  exact ⟨hreads, hwrites, hflight, hseq, by rw [hsame]; exact hnow, by rw [hsame]; exact hresp, hstalls, hpower⟩

/-- A queued write stands before a read of its burst. -/
def MemX.stalls (x : MemX) (burst : Nat) : Bool :=
  x.writes.any (fun w => w.burst == burst) || x.flight.any (fun w => w.wr && w.burst == burst)

/-- The state with RAW_STALLS counted where a write stands before a read (R403). -/
def countStall (ch : Nat) (hit : Bool) (s : State) : State := if hit then s.sat F.Chan.RAW_STALLS (pgChan ch) else s

theorem countStall_memOf (ch k : Nat) (hit : Bool) (s : State) : (countStall ch hit s).memOf k = s.memOf k := by
  cases hit <;> rfl

theorem countStall_resp (ch : Nat) (hit : Bool) (s : State) : (countStall ch hit s).resp = s.resp := by cases hit <;> rfl

theorem countStall_power (ch : Nat) (hit : Bool) (s : State) :
    (countStall ch hit s).get F.Chan.POWER (pgChan ch) = s.get F.Chan.POWER (pgChan ch) := by
  cases hit
  · rfl
  · exact State.get_set_off _ (by decide)

theorem countStall_stalls (ch : Nat) (hit : Bool) (s : State) : (countStall ch hit s).get F.Chan.RAW_STALLS (pgChan ch) =
    if hit then low 32 (min (s.get F.Chan.RAW_STALLS (pgChan ch) + 1) (2 ^ 32 - 1))
    else s.get F.Chan.RAW_STALLS (pgChan ch) := by
  cases hit
  · rfl
  · exact sat_self s F.Chan.RAW_STALLS (pgChan ch)

/-- A read joins its queue (R403). -/
theorem memJoin_read {q : MemReq} (ch : Nat) (s : State) (h : q.wr = false) : memJoin ch q s =
    (countStall ch ((s.memOf ch).stalls q.burst) s).updMem ch (fun x =>
      { x with reads := x.reads ++ [q.arrived (s.memOf ch).seq s.now], seq := x.seq + 1 }) := by
  unfold memJoin
  dsimp only
  rw [if_neg (by rw [h]; decide)]
  rfl

/-- The write that a queued write becomes when a later one to its burst merges into it (R404). -/
def MemReq.mergedWith (w q : MemReq) : MemReq :=
  { w with
    mask := Nat.lor w.mask q.mask
    data := (List.range 64).map (fun i => if bitAt q.mask i then q.data.getD i 0 else w.data.getD i 0) }

theorem mergedWith_byte (w q : MemReq) {i : Nat} (hi : i < 64) :
    (w.mergedWith q).data.getD i 0 = if bitAt q.mask i then q.data.getD i 0 else w.data.getD i 0 := by
  simp [MemReq.mergedWith, List.getD_eq_getElem?_getD, hi]

/-- A write joins its queue where no write of its burst is queued, or a later read of the burst stands between (R404). -/
theorem memJoin_write {q : MemReq} (ch : Nat) (s : State) (h : q.wr = true)
    (hnew : ∀ w, (s.memOf ch).writes.reverse.find? (fun w => w.burst == q.burst) = some w →
      (s.memOf ch).reads.any (fun r => r.burst == q.burst && decide (w.seq < r.seq)) = true) :
    memJoin ch q s = s.updMem ch (fun x =>
      { x with writes := x.writes ++ [q.arrived (s.memOf ch).seq s.now], seq := x.seq + 1 }) := by
  unfold memJoin
  dsimp only
  rw [if_pos h]
  split
  case h_1 w hw =>
    rw [if_pos (hnew w hw)]
    rfl
  case h_2 => rfl

/-- A write merges into the newest queued write of its burst while no later read of the burst is queued (R404). -/
theorem memJoin_merge {q w : MemReq} (ch : Nat) (s : State) (h : q.wr = true)
    (hw : (s.memOf ch).writes.reverse.find? (fun w => w.burst == q.burst) = some w)
    (hr : (s.memOf ch).reads.any (fun r => r.burst == q.burst && decide (w.seq < r.seq)) = false) :
    memJoin ch q s = s.updMem ch (fun x =>
      { x with writes := x.writes.map (fun y => if y.seq = w.seq then w.mergedWith q else y) }) := by
  unfold memJoin
  dsimp only
  rw [if_pos h, hw]
  dsimp only
  rw [hr]
  rfl

/-- A write for which there is room: it joins its queue, or merges into the newest queued write of its burst (R404). -/
theorem memRequest_write {s : State} {ch addr cls mask : Nat} {port : Option Nat} {data : List Nat}
    (haddr : addr < s.memCapacity) (hsplit : (s.memSplit addr).1 = ch) (hwait : (s.memOf ch).wait = [])
    (hroom : (s.memOf ch).writes.length < 32) :
    ∃ t q, exec (.memRequest cls addr true port mask data) s = .next t ∧
      q.burst = addr / 64 * 64 ∧ q.wr = true ∧ q.mask = low 64 mask ∧ q.data = data ∧ q.seq = (s.memOf ch).seq ∧
      (t.memOf ch).reads = (s.memOf ch).reads ∧ t.resp = .none ∧
      ((∀ w, (s.memOf ch).writes.reverse.find? (fun w => w.burst == q.burst) = some w →
          (s.memOf ch).reads.any (fun r => r.burst == q.burst && decide (w.seq < r.seq)) = true) →
        (t.memOf ch).writes = (s.memOf ch).writes ++ [q]) ∧
      ∀ w, (s.memOf ch).writes.reverse.find? (fun w => w.burst == q.burst) = some w →
        (s.memOf ch).reads.any (fun r => r.burst == q.burst && decide (w.seq < r.seq)) = false →
        (t.memOf ch).writes = (s.memOf ch).writes.map (fun y => if y.seq = w.seq then w.mergedWith q else y) := by
  obtain ⟨w, hw, -, hreads, hwrites, -, hseq, -, hresp, -⟩ :=
    memRequest_joins (cls := cls) (mask := mask) (wr := true) (port := port) (data := data) haddr hsplit hwait
      (decide_eq_true hroom)
  by_cases hnew : ∀ o, (w.memOf ch).writes.reverse.find? (fun o => o.burst == addr / 64 * 64) = some o →
      (w.memOf ch).reads.any (fun r => r.burst == addr / 64 * 64 && decide (o.seq < r.seq)) = true
  · rw [memJoin_write ch w rfl hnew] at hw
    refine ⟨_, (s.requestOf cls addr true port mask data).arrived (w.memOf ch).seq w.now, hw, rfl, rfl, rfl, rfl, hseq, ?_, hresp,
      fun _ => ?_, fun o ho hr => ?_⟩
    · rw [State.memOf_updMem, hreads]
    · rw [State.memOf_updMem, hwrites]
    · rw [hwrites, hreads] at hnew
      exact nomatch (hnew o ho).symm.trans hr
  · push Not at hnew
    obtain ⟨o, ho, hr⟩ := hnew
    rw [memJoin_merge ch w rfl ho (Bool.eq_false_iff.mpr hr)] at hw
    rw [hwrites] at ho
    rw [hreads] at hr
    refine ⟨_, (s.requestOf cls addr true port mask data).arrived (w.memOf ch).seq w.now, hw, rfl, rfl, rfl, rfl, hseq, ?_, hresp,
      fun hj => absurd (hj o ho) hr, fun o' ho' _ => ?_⟩
    · rw [State.memOf_updMem, hreads]
    · cases ho.symm.trans ho'
      rw [State.memOf_updMem, hwrites]
      rfl

/-! ### Choices -/

theorem execMemSchedule_blocked {s : State} {ch : Nat} (h : s.memBlocked ch = true) : exec (.memSchedule ch) s = .next s :=
  congrArg Host.Outcome.next (if_pos (.inr h))

/-- A channel as a choice finds it: the replay is over, the drain is judged and due REFs and ZQCS are postponed for an urgent
read (R401, R409, R412, R413). -/
def State.atChoice (s : State) (ch : Nat) : State :=
  showPostponed ch ((s.set F.Chan.REPLAYING (pgChan ch) 0).updMem ch (fun x =>
    ((s.set F.Chan.REPLAYING (pgChan ch) 0).memDrain { x with alerts := 0 }).postpone))

/-- With no urgent read nothing is postponed. -/
theorem atChoice_ranks {s : State} {ch : Nat} (h : (s.memOf ch).reads.any (·.urgent) = false) :
    ((s.atChoice ch).memOf ch).ranks = (s.memOf ch).ranks := by
  unfold State.atChoice
  rw [(showPostponed_pre ch _).1, State.memOf_updMem, State.memOf_set]
  generalize s.set F.Chan.REPLAYING (pgChan ch) 0 = g
  obtain ⟨-, hreads, -, -, hranks⟩ := drain_pre g { s.memOf ch with alerts := 0 }
  rw [MemX.postpone, MemX.urgentWaits, hreads, if_neg (by rw [h]; decide), hranks]

/-- A due REF of rank 0 is issued first (R400, R412). -/
theorem execMemSchedule_ref {s : State} {ch : Nat} (hch : ch < 4) (hblocked : s.memBlocked ch = false)
    (hwait : (s.memOf ch).wait = []) (hflight : (s.memOf ch).flight = []) (hdue : 0 < (((s.atChoice ch).memOf ch).rank 0).refNow) :
    exec (.memSchedule ch) s = .next (memMaintain ch 0 false (s.atChoice ch)) := by
  obtain ⟨⟨-, -, -, hu⟩, -⟩ := sched_pre s _ (s.atChoice ch) ch rfl rfl
  obtain ⟨l, hl⟩ : ∃ l, List.range s.memRanks = 0 :: l := ⟨_, List.range_succ_eq_map⟩
  simp only [exec, execMemSchedule]
  rw [if_neg (by rw [hblocked]; simp; omega), hwait]
  simp only [List.length_nil, memAdmit]
  rw [← State.atChoice, hu, hflight, hl]
  simp only [List.any_nil, Bool.not_false, List.filter_cons_of_pos]
  rw [List.find?_cons_of_pos (by simpa using hdue)]

/-! ### Read data -/

theorem execMemReadData_none {s : State} {ch : Nat} (h : (s.memOf ch).flight = [] ∨ s.on F.Hdr.FAULT (pgChan ch) = true)
    (flips : List (Nat × Nat)) : exec (.memReadData ch flips) s = .next s := by
  have hnone : (if s.on F.Hdr.FAULT (pgChan ch) then [] else (s.memOf ch).flight) = [] := by
    rcases h with h | h
    · rw [h, ite_self]
    · rw [if_pos h]
  simp only [exec, execMemReadData, hnone]

section
variable {s : State} {ch : Nat} {q : MemReq} {qs : List MemReq} (hflight : (s.memOf ch).flight = q :: qs)
  (hfault : s.on F.Hdr.FAULT (pgChan ch) = false) (hbad : q.gotBad = []) (hlen : q.got.length = 64) (hbytes : ∀ b ∈ q.got, b < 256)
include hflight hfault hbad hlen hbytes

/-- The whole burst that the read of a merge writes back (R404). -/
def MemReq.wholeBurst (q : MemReq) : MemReq :=
  { q with
    wr := true
    mask := 2 ^ 64 - 1
    data := (List.range 64).map (fun i => if bitAt q.mask i then q.data.getD i 0 else q.got.getD i 0) }

/-- The state in which the oldest issued read has returned. -/
def State.returned (s : State) (ch : Nat) (qs : List MemReq) : State :=
  s.updMem ch (fun x => { x with flight := qs, idleAt := s.now })

theorem execMemReadData_read (hwr : q.wr = false) : exec (.memReadData ch []) s =
    .next { s.returned ch qs with resp := .data (leNat (q.got.map (BitVec.ofNat 8))) } := by
  simp only [exec, execMemReadData, hfault, hflight, Bool.false_eq_true, if_false]
  rw [memWords_good ch q _ 16 hbad]
  simp only [q_words q hlen hbytes, hwr, Bool.false_and, Bool.false_eq_true, if_false, List.isEmpty_nil, if_true]
  rfl

theorem execMemReadData_merge (hwr : q.wr = true) : exec (.memReadData ch []) s =
    .next ((memStore q.wholeBurst [] (s.returned ch qs)).updMem ch (fun x => x.issue 1 q.burst s.now q.seq)) := by
  have heta (t : State) : ({ t with memBad := t.memBad ++ [] } : State) = t := by rw [List.append_nil]
  simp only [exec, execMemReadData, hfault, hflight, Bool.false_eq_true, if_false]
  rw [memWords_good ch q _ 16 hbad]
  simp only [q_words q hlen hbytes, hwr, List.isEmpty_nil, if_true, List.filter_nil, List.map_nil, heta]
  rfl

end


theorem returned_flight (s : State) (ch : Nat) (qs : List MemReq) : ((s.returned ch qs).memOf ch).flight = qs := by
  rw [State.returned, State.memOf_updMem]

theorem wholeBurst_byte (q : MemReq) (a : Nat) (s : State) : memByte (memStore q.wholeBurst [] s).sdram a =
    if q.burst ≤ a ∧ a < q.burst + 64 then
      BitVec.ofNat 8 (if bitAt q.mask (a - q.burst) then q.data.getD (a - q.burst) 0 else q.got.getD (a - q.burst) 0)
    else memByte s.sdram a := by
  have hburst : q.wholeBurst.burst = q.burst := rfl
  rw [memStore_byte, hburst]
  by_cases h : q.burst ≤ a ∧ a < q.burst + 64
  · have hi : a - q.burst < 64 := by omega
    rw [if_pos ⟨h.1, h.2, bitAt_full _ hi⟩, if_pos h]
    congr 1
    simp [MemReq.wholeBurst, List.getD_eq_getElem?_getD, hi]
  · rw [if_neg fun e => h ⟨e.1, e.2.1⟩, if_neg h]

/-- Settles O35, command by command. How requests wait and when one is chosen are choices of the model (logs 79 to 81). -/
theorem memoryQueues : Obligations.MemoryQueues := by
  unfold Obligations.MemoryQueues
  intro s ch hch
  refine ⟨?requests, execMemSchedule_blocked, fun x r hr hu he => choose_urgent s x r hr hu he, ?choices,
    execMemReadData_none, ?data⟩
  case requests =>
    intro cls addr port mask data hcls haddr hsplit hwait
    have hlow : low 4 cls = cls := low_of_lt hcls
    constructor
    · intro hroom
      obtain ⟨w, hw, hothers, hreads, hwrites, hflight, hseq, hnow, hresp, hstalls, hpower⟩ :=
        memRequest_joins (cls := cls) (mask := mask) (wr := false) (port := port) (data := data) haddr hsplit hwait
          (decide_eq_true hroom)
      rw [memJoin_read ch w rfl] at hw
      refine ⟨_, (s.requestOf cls addr false port mask data).arrived (w.memOf ch).seq w.now, hw, rfl, hlow, ?_, rfl, hnow, hseq,
        ?_, ?_, ?_, fun k hk => ?_, fun hc hr => ?_, ?_⟩
      · show (!false && s.urgentRead (low 4 cls) port) = _
        rw [hlow]
        rfl
      · rw [State.memOf_updMem, countStall_memOf, hreads]
      · rw [State.memOf_updMem, countStall_memOf, hwrites]
      · exact (countStall_resp ..).trans hresp
      · rw [State.memOf_updMem_ne _ _ hk, countStall_memOf, hothers k hk]
      · rw [State.get_updMem, countStall_power, hpower hc hr]
      · rw [State.get_updMem, countStall_stalls, hstalls, MemX.stalls, hwrites, hflight]
        rfl
    · intro hroom
      obtain ⟨t, q, ht, hburst, hwr, hmask, hdata, hseq, hreads, hresp, hjoins, hmerges⟩ :=
        memRequest_write (cls := cls) (mask := mask) (port := port) (data := data) haddr hsplit hwait hroom
      refine ⟨t, q, ht, hburst, hwr, hmask, hdata, hseq, hreads, hresp, fun hnone => hjoins fun w hw => ?_, fun w hw =>
        ⟨fun ⟨r, hr, hb, hlt⟩ => hjoins fun w' hw' => ?_, fun hle => ⟨w.mergedWith q, rfl, rfl, rfl, fun i => mergedWith_byte w q,
          hmerges w hw ?_⟩⟩⟩
      · have hb : (w.burst == q.burst) = true := List.find?_some (p := fun w : MemReq => w.burst == q.burst) hw
        exact absurd (beq_iff_eq.mp hb) (hnone w (List.mem_reverse.mp (List.mem_of_find?_eq_some hw)))
      · cases hw.symm.trans hw'
        exact List.any_eq_true.mpr ⟨r, hr, by simp [hb, hlt]⟩
      · refine List.any_eq_false.mpr fun r hr => ?_
        simpa using hle r hr
  case choices =>
    intro hblocked hwait
    obtain ⟨⟨hwait', hreads, hwrites, hflight⟩, hsdram, hnow, hmemBad⟩ := sched_pre s _ (s.atChoice ch) ch rfl rfl
    refine ⟨s.atChoice ch, rfl, fun hnone hurgent hdue => ?ref, fun hidle q hq => ?chosen⟩
    case ref =>
      have hrank : ((s.atChoice ch).memOf ch).rank 0 = (s.memOf ch).rank 0 := by
        rw [MemX.rank, atChoice_ranks hurgent]
        rfl
      obtain ⟨hrank', hrows, hcmds, hsdram'⟩ := memMaintain_facts ch (s.atChoice ch)
      rw [hrank, if_pos hdue] at hrank'
      refine ⟨_, execMemSchedule_ref hch hblocked hwait hnone (by rw [hrank]; exact hdue), ?_, ?_, hrows, ?_, hsdram'.trans hsdram⟩
      · rw [hrank']
      · rw [hrank']
      · rw [hcmds, hnow]
    case chosen =>
      obtain ⟨hstore, hread⟩ := memIssue_facts ch q (s.atChoice ch) (hwait'.trans hwait)
      have hexec := sched_choice s _ (s.atChoice ch) ch hblocked hch hwait rfl rfl hidle q hq
      constructor
      · intro hwr hmask
        obtain ⟨hbyte, hw, hr, hcmds⟩ := hstore hwr hmask
        refine ⟨_, hexec, fun i hi => ?_, fun a ha => ?_, by rw [hw, hwrites], by rw [hr, hreads], by rw [hcmds, hnow]⟩
        · rw [hbyte, Nat.add_sub_cancel_left, if_pos ⟨by omega, by omega, by rw [hmask]; exact bitAt_full i hi⟩]
        · rw [hbyte, if_neg (by omega), hsdram]
      · intro hwr
        obtain ⟨hf, hr, hw, hsdram', hcmds⟩ := hread hwr
        refine ⟨_, hexec, ?_, by rw [hr, hreads], by rw [hw, hwrites], by rw [hcmds, hnow], hsdram'.trans hsdram⟩
        rw [hf, hflight, State.asRead, State.asRead, State.badWords, State.badWords, hsdram, hmemBad]
  case data =>
    intro q qs hflight hfault hbad hlen hbytes
    refine ⟨fun hwr => ⟨_, execMemReadData_read hflight hfault hbad hlen hbytes hwr, rfl, returned_flight s ch qs, rfl⟩,
      fun hwr => ⟨_, execMemReadData_merge hflight hfault hbad hlen hbytes hwr, ?_, fun i hi => ?_, fun a ha => ?_, rfl⟩⟩
    · rw [State.memOf_updMem]
      exact returned_flight s ch qs
    · refine (wholeBurst_byte q _ _).trans ?_
      rw [if_pos (by omega), Nat.add_sub_cancel_left]
    · refine (wholeBurst_byte q _ _).trans ?_
      rw [if_neg (by omega)]
      rfl

end Sys2Proof.Machine
end

section
/-! CA parity alerts, refresh, ZQ, temperature and power states of a channel. -/

-- One declaration after another, as in the files before: the text is also checked in one piece.
set_option Elab.async false

namespace Sys2Proof.Machine

/-! ### CA parity -/

/-- An entry to self-refresh that has begun is abandoned (R417). -/
def abandonEntry (ch : Nat) (s : State) : State := if s.get F.Chan.POWER (pgChan ch) = 3 then memPower ch 0 s else s

@[simp] theorem abandonEntry_memOf (ch k : Nat) (s : State) : (abandonEntry ch s).memOf k = s.memOf k := by
  unfold abandonEntry
  split <;> rfl

theorem abandonEntry_get (ch : Nat) (s : State) {g : Fld}
    (h : (g.off + 0 * g.stride) * 32 + g.lo ≠ (F.Chan.POWER.off + 0 * F.Chan.POWER.stride) * 32 + F.Chan.POWER.lo) :
    (abandonEntry ch s).get g (pgChan ch) = s.get g (pgChan ch) := by
  unfold abandonEntry
  split
  · exact memPower_get ch 0 s g h
  · rfl

/-- The commands that a replay issues again (R408). -/
def State.replayed (s : State) (ch : Nat) : List MemCmd :=
  (s.memOf ch).cmds.filter (fun c => (c.kind == 0 && (s.memOf ch).flight.any (fun f => f.seq == c.req)) ||
    (c.kind == 1 && decide (s.mclkSince c.issued ≤ 40)))

/-- The writes that a replay issues again (R408). -/
def State.replayedWrites (s : State) (ch : Nat) : List MemCmd :=
  (s.memOf ch).cmds.filter (fun c => c.kind == 1 && decide (s.mclkSince c.issued ≤ 40))

/-- A replay of a channel: its commands again, REPLAYING and one more of CA_RETRIES (R408). -/
def replay (ch : Nat) (s : State) : State :=
  (((abandonEntry ch s).updMem ch (fun x =>
    (s.replayed ch).foldl (fun y c => (s.openRow c.arg y).issue c.kind c.arg s.now c.req)
      { x with alerts := x.alerts + 1, rows := [] })).set F.Chan.REPLAYING (pgChan ch) 1).sat F.Chan.CA_RETRIES (pgChan ch)

section
variable {s : State} {ch : Nat}

theorem execAlertNLow_failed (h : s.on F.Hdr.FAULT (pgChan ch) = true) : exec (.alertNLow ch) s = .next s :=
  congrArg Host.Outcome.next (if_pos (.inr h))

theorem execAlertNLow_fourth (hch : ch < 4) (h : s.on F.Hdr.FAULT (pgChan ch) = false) (h3 : (s.memOf ch).alerts = 3) :
    exec (.alertNLow ch) s = .next ((((abandonEntry ch s).set F.Hdr.FAULT (pgChan ch) 1).updMem ch (fun x =>
      { x with alerts := 4, rows := [] })).raise Ev.memCaParityFail (pgChan ch) ch) :=
  congrArg Host.Outcome.next ((if_neg (by rw [h]; simp; omega)).trans (if_pos h3))

theorem execAlertNLow_replay (hch : ch < 4) (h : s.on F.Hdr.FAULT (pgChan ch) = false) (h3 : (s.memOf ch).alerts ≠ 3) :
    exec (.alertNLow ch) s = .next ((replay ch s).raise Ev.memCaParityRetry (pgChan ch)
      (arg64 ((replay ch s).get F.Chan.CA_RETRIES (pgChan ch))
        ((min 255 ((s.memOf ch).flight.length + (s.replayedWrites ch).length)) * 256 + ch))) :=
  congrArg Host.Outcome.next ((if_neg (by rw [h]; simp; omega)).trans (if_neg h3))

end

theorem replay_memOf_ne {ch k : Nat} (s : State) (hk : k ≠ ch) : (replay ch s).memOf k = s.memOf k := by
  unfold replay State.sat State.satI
  rw [State.memOf_setI, State.memOf_set, State.memOf_updMem_ne _ _ hk, abandonEntry_memOf]

/-- A replay keeps the queues. -/
theorem replay_memOf (ch : Nat) (s : State) : ((replay ch s).memOf ch).reads = (s.memOf ch).reads ∧
    ((replay ch s).memOf ch).writes = (s.memOf ch).writes ∧ ((replay ch s).memOf ch).flight = (s.memOf ch).flight ∧
    ((replay ch s).memOf ch).alerts = (s.memOf ch).alerts + 1 := by
  have hmem : (replay ch s).memOf ch = (s.replayed ch).foldl (fun y c => (s.openRow c.arg y).issue c.kind c.arg s.now c.req)
      { s.memOf ch with alerts := (s.memOf ch).alerts + 1, rows := [] } := by
    unfold replay State.sat State.satI
    rw [State.memOf_setI, State.memOf_set, State.memOf_updMem, abandonEntry_memOf]
  rw [hmem]
  exact reissue_keeps s (s.replayed ch) _

theorem replay_replaying (ch : Nat) (s : State) : (replay ch s).get F.Chan.REPLAYING (pgChan ch) = 1 :=
  (State.get_set_off _ (by decide)).trans (State.get_set_self _ _ _ _)

theorem replay_retries (ch : Nat) (s : State) : (replay ch s).get F.Chan.CA_RETRIES (pgChan ch) =
    low F.Chan.CA_RETRIES.w (min (s.get F.Chan.CA_RETRIES (pgChan ch) + 1) (2 ^ F.Chan.CA_RETRIES.w - 1)) := by
  unfold replay
  rw [sat_self, State.get_set_off _ (by decide), State.get_updMem, abandonEntry_get ch s (by decide)]

/-! ### Refresh and ZQ -/

/-- A channel in power-down leaves it (R415). -/
def endPowerDown (ch : Nat) (s t : State) : State := if s.get F.Chan.POWER (pgChan ch) = 1 then memPower ch 0 t else t

@[simp] theorem endPowerDown_memOf (ch k : Nat) (s t : State) : (endPowerDown ch s t).memOf k = t.memOf k := by
  unfold endPowerDown
  split <;> rfl

theorem endPowerDown_power (ch : Nat) (s t : State) (h : t.get F.Chan.POWER (pgChan ch) = s.get F.Chan.POWER (pgChan ch)) :
    (endPowerDown ch s t).get F.Chan.POWER (pgChan ch) =
      if s.get F.Chan.POWER (pgChan ch) = 1 then 0 else s.get F.Chan.POWER (pgChan ch) := by
  unfold endPowerDown
  split
  · exact memPower_self ch t
  · exact h

/-- A REF of a rank that is due, its interval begun at `a` (R410, R412). -/
def refDue (ch r a : Nat) (s : State) : State :=
  s.updMem ch (fun x => x.updRank r (fun k => { k with
    refAt := some a, interval := s.refInterval ch, refNow := k.refNow + 1 }))

section
variable {s : State} {ch r a : Nat} (hch : ch < 4) (hr : r < s.memRanks) (hready : s.ready (pgChan ch) = true)
  (hpower : s.get F.Chan.POWER (pgChan ch) ≠ 2) (ha : ((s.memOf ch).rank r).refAt = some a)
include hch hr hready hpower ha

theorem execRefreshDue_early (h : s.now < a + ((s.memOf ch).rank r).interval) : exec (.refreshDue ch r) s = .next s := by
  simp only [exec, execRefreshDue]
  rw [if_neg (by rw [hready]; simp; omega), ha]
  dsimp only
  rw [if_neg (by omega)]

theorem execRefreshDue_due (h : a + ((s.memOf ch).rank r).interval ≤ s.now) : exec (.refreshDue ch r) s =
    .next (endPowerDown ch s (refDue ch r (a + ((s.memOf ch).rank r).interval) s)) := by
  simp only [exec, execRefreshDue]
  rw [if_neg (by rw [hready]; simp; omega), ha]
  dsimp only
  rw [if_pos h]
  rfl

end

theorem postpone_rank (x : MemX) {r : Nat} (hr : r < 2) :
    x.postpone.rank r = if x.reads.any (·.urgent) then (x.rank r).postpone else x.rank r := by
  unfold MemX.postpone MemX.urgentWaits
  split
  · rw [updRank_rank]
    rcases Nat.lt_succ_iff_lt_or_eq.mp hr with h | rfl
    · rw [if_neg (by omega), updRank_rank, if_pos (by omega), show r = 0 by omega]
    · rw [if_pos rfl, updRank_rank, if_neg (by decide)]
  · rfl

/-- A ZQCS due on every rank (R413). -/
def zqAll (ch : Nat) (s : State) : State :=
  s.updMem ch (fun x => (List.range s.memRanks).foldl (fun y r => y.updRank r (fun k => { k with zqNow := k.zqNow + 1 }))
    { x with zqAt := s.now })

theorem execZqDue_off {s : State} {ch : Nat} (h : s.get F.Mem.ZQ_PERIOD pgMem = 0) : exec (.zqDue ch) s = .next s :=
  congrArg Host.Outcome.next (if_pos (.inr (.inl h)))

theorem execZqDue_due {s : State} {ch : Nat} (hch : ch < 4) (hperiod : s.get F.Mem.ZQ_PERIOD pgMem ≠ 0)
    (hready : s.ready (pgChan ch) = true) (hpower : s.get F.Chan.POWER (pgChan ch) ≠ 2)
    (hdue : (s.memOf ch).zqAt + s.get F.Mem.ZQ_PERIOD pgMem * 1000000 ≤ s.now) :
    exec (.zqDue ch) s = .next (endPowerDown ch s (zqAll ch s)) :=
  congrArg Host.Outcome.next (if_neg (by rw [hready]; simp; omega))

theorem zqAll_at (ch : Nat) (s : State) : ((zqAll ch s).memOf ch).zqAt = s.now := by
  rw [zqAll, State.memOf_updMem]
  exact fold_keeps _ _ _ (fun x => x.zqAt) fun _ _ => rfl

theorem zqAll_rank {ch r : Nat} {s : State} (hr : r < s.memRanks) :
    ((zqAll ch s).memOf ch).rank r = { (s.memOf ch).rank r with zqNow := ((s.memOf ch).rank r).zqNow + 1 } := by
  rw [zqAll, State.memOf_updMem]
  refine (ranks_fold _ (fun x r k hk => ?_) (fun k k' => k' = { k with zqNow := k.zqNow + 1 }) (fun x r => ?_) s.memRanks _ r).1 hr
  · rw [updRank_rank, if_neg hk]
  · rw [updRank_rank, if_pos rfl]

/-! ### Temperature -/

theorem execMemTempStale_none {s : State} {ch : Nat} (h : s.on F.Chan.TEMP_VALID (pgChan ch) = false ∨ s.now < (s.memOf ch).tempAt + 12000000) :
    exec (.memTempStale ch) s = .next s :=
  congrArg Host.Outcome.next (if_neg fun ⟨_, hv, hn⟩ => h.elim (fun hf => by rw [hf] at hv; exact nomatch hv) fun hl => by omega)

theorem execMemTempStale_stale {s : State} {ch : Nat} (hch : ch < 4) (hv : s.on F.Chan.TEMP_VALID (pgChan ch) = true)
    (hn : (s.memOf ch).tempAt + 12000000 ≤ s.now) : exec (.memTempStale ch) s =
      .next ((memNoSource ch s).raise Ev.memTempStale (pgChan ch) (s.get F.Chan.TEMP_SRC (pgChan ch) * 256 + ch)) :=
  congrArg Host.Outcome.next (if_pos ⟨hch, hv, hn⟩)

/-- What the taking of a band leaves: BAND, the validity of the reading, and nothing but events besides. -/
def State.BandTaken (s t : State) (ch b : Nat) : Prop :=
  t.get F.Chan.BAND (pgChan ch) = b ∧ t.get F.Chan.TEMP_VALID (pgChan ch) = s.get F.Chan.TEMP_VALID (pgChan ch) ∧
    s.Logs t (pgChan ch) [F.Chan.BAND.key (pgChan ch) 0]

theorem State.BandTaken.raise {s t : State} {ch b : Nat} (h : s.BandTaken t ch b) (e : Ev) (arg : Nat) (hch : ch < 4) :
    s.BandTaken (t.raise e (pgChan ch) arg) ch b := by
  obtain ⟨hband, hvalid, hlogs⟩ := h
  have hpg := chan_ne hch
  exact ⟨(State.get_raise_off _ _ hpg (by decide) (by decide) (by decide)).trans hband,
    (State.get_raise_off _ _ hpg (by decide) (by decide) (by decide)).trans hvalid, hlogs.raise e arg hpg⟩

theorem Fld.key_chan {f : Fld} {ch : Nat} (hch : ch < 4) (hf : f.off + 0 * f.stride < 4096) (hl : f.lo < 32) :
    f.key (pgChan ch) 0 / 131072 ≠ pgLedger := by
  rw [Fld.key_page hf hl]
  exact chan_ne hch

theorem State.logs_set_chan (s : State) (f : Fld) {ch : Nat} (v : Nat) (hch : ch < 4) (hf : f.off + 0 * f.stride < 4096)
    (hl : f.lo < 32) : s.Logs (s.set f (pgChan ch) v) (pgChan ch) [f.key (pgChan ch) 0] :=
  (s.onlyRegs_setI f (pgChan ch) 0 v).logs _ fun k hk => by
    rw [List.mem_singleton.mp hk]
    exact Fld.key_chan hch hf hl

theorem memBand_taken {ch b : Nat} (s : State) (hch : ch < 4) (hb : b < 4) : s.BandTaken (memBand ch b s) ch b := by
  have hset : s.BandTaken (s.set F.Chan.BAND (pgChan ch) b) ch b :=
    ⟨(State.get_set_self _ _ _ _).trans (low_of_lt hb), State.get_set_off _ (by decide),
      s.logs_set_chan F.Chan.BAND b hch (by decide) (by decide)⟩
  unfold memBand
  dsimp only
  split
  · rename_i h
    exact ⟨h.symm, rfl, (State.OnlyRegs.refl s _).logs _ fun k hk => by
      rw [List.mem_singleton.mp hk]
      exact Fld.key_chan hch (by decide) (by decide)⟩
  · split
    · exact (hset.raise _ _ hch).raise _ _ hch
    · exact hset.raise _ _ hch

/-! ### Power states -/

theorem execPowerDownEntry_enters {s : State} {ch : Nat} (hch : ch < 4) (hblocked : s.memBlocked ch = false)
    (hpower : s.get F.Chan.POWER (pgChan ch) = 0) (hen : s.on F.Mem.PD_EN pgMem = true) (hidle : (s.memOf ch).idle = true)
    (htol : 1 ≤ s.minLatTol.1) (hsince : s.get F.Mem.PD_IDLE pgMem * 8 ≤ s.mclkSince (s.memOf ch).idleAt) :
    exec (.powerDownEntry ch) s = .next (memPower ch 1 s) :=
  congrArg Host.Outcome.next (if_pos ⟨hch, hblocked, hpower, hen, hidle, htol, hsince⟩)

theorem execPowerDownEntry_off {s : State} {ch : Nat} (h : s.on F.Mem.PD_EN pgMem = false ∨ s.minLatTol.1 = 0) :
    exec (.powerDownEntry ch) s = .next s :=
  congrArg Host.Outcome.next (if_neg fun ⟨_, _, _, hen, _, htol, _⟩ =>
    h.elim (fun hf => by rw [hf] at hen; exact nomatch hen) fun h0 => by omega)

/-- A field at another place of its page is unchanged, on whatever page it stands. -/
theorem State.get_set_place (s : State) {f g : Fld} {p q v : Nat} (h : g.off * 32 + g.lo ≠ f.off * 32 + f.lo)
    (hg : g.off < 4096) (hgl : g.lo < 32) (hf : f.off < 4096) (hfl : f.lo < 32) : (s.set f p v).get g q = s.get g q :=
  State.get_set_ne s v (by unfold Fld.key; omega)

theorem minLatTol_congr {s t : State} (h : ∀ p, t.get F.Port.LAT_TOL (pgPort p) = s.get F.Port.LAT_TOL (pgPort p)) :
    t.minLatTol = s.minLatTol := by
  unfold State.minLatTol
  simp only [h]

/-- With Λ above Θ no channel leaves its power state (R415, R416). -/
theorem memLatencyWake_none {s : State} (h : s.srTheta < s.minLatTol.1) : memLatencyWake s = s := by
  unfold memLatencyWake
  dsimp only
  refine forAll_inv [0, 1, 2, 3] s _ (fun t => t = s) rfl fun ch t ht => ?_
  rw [ht, if_neg (c := _ ∧ _) (by omega), if_neg (c := _ ∧ _) (by omega)]
  exact ite_self _

/-- Every postponed and due REF of a channel is issued (R416). -/
theorem issueAllRefs_rank {ch r : Nat} {s : State} (hr : r < s.memRanks) :
    (((issueAllRefs ch s).memOf ch).rank r).refs = 0 ∧ (((issueAllRefs ch s).memOf ch).rank r).refNow = 0 := by
  have hissue (l : List Nat) (x : MemX) (k now : Nat) : (l.foldl (fun x _ => x.issue 4 k now) x).ranks = x.ranks :=
    fold_keeps l x _ (fun x => x.ranks) fun _ _ => rfl
  unfold issueAllRefs
  rw [(showPostponed_pre ch _).1, State.memOf_updMem]
  refine (ranks_fold _ (fun x r k hk => ?_) (fun _ k' => k'.refs = 0 ∧ k'.refNow = 0) (fun x r => ?_) s.memRanks _ r).1 hr
  · dsimp only
    rw [updRank_rank, if_neg hk, MemX.rank, hissue]
    rfl
  · dsimp only
    rw [updRank_rank, if_pos rfl]
    exact ⟨rfl, rfl⟩

theorem issueAllRefs_rows (ch : Nat) (s : State) : ((issueAllRefs ch s).memOf ch).rows = (s.memOf ch).rows := by
  unfold issueAllRefs
  rw [(showPostponed_pre ch _).1, State.memOf_updMem]
  refine fold_keeps _ _ _ (fun x => x.rows) fun x r => ?_
  exact fold_keeps _ x _ (fun x => x.rows) fun _ _ => rfl

theorem execSelfRefreshEntry_begins {s : State} {ch : Nat} (hch : ch < 4) (hblocked : s.memBlocked ch = false)
    (hidle : (s.memOf ch).idle = true) (hen : s.on F.Mem.SR_EN pgMem = true) (htol : s.srTheta < s.minLatTol.1)
    (hsince : (s.memOf ch).idleAt + s.get F.Mem.SR_IDLE pgMem * 1000 ≤ s.now) (hpower : s.get F.Chan.POWER (pgChan ch) ≠ 3) :
    exec (.selfRefreshEntry ch) s = .next (memPower ch 3 (srEntry ch s)) :=
  congrArg Host.Outcome.next ((if_pos hch).trans ((if_neg hpower).trans (if_pos ⟨hblocked, hen, hidle, htol, hsince⟩)))

/-- SRE issued on a channel whose entry has begun (R417). -/
def sre (ch : Nat) (s : State) : State :=
  memPower ch 2 ((s.updMem ch (fun x => x.issue 7 0 s.now)).wrap F.Chan.SR_ENTRIES (pgChan ch))

/-- SRE leaves Λ and Θ as they are. -/
theorem sre_tolerance {ch : Nat} (s : State) (hch : ch < 4) : (sre ch s).srTheta = s.srTheta ∧ (sre ch s).minLatTol = s.minLatTol := by
  have hpg := (pgChan_ne ch hch).2.symm
  have hmem (g : Fld) (hg : g.off + 0 * g.stride < 4096) (hl : g.lo < 32) : (sre ch s).get g pgMem = s.get g pgMem :=
    (State.get_set_page _ hpg hg hl (by decide) (by decide)).trans
      (State.get_set_page (f := F.Chan.SR_ENTRIES) _ hpg hg hl (by decide) (by decide))
  refine ⟨?_, minLatTol_congr fun p => ?_⟩
  · unfold State.srTheta
    rw [hmem _ (by decide) (by decide), hmem _ (by decide) (by decide)]
  · exact (State.get_set_place _ (by decide) (by decide) (by decide) (by decide) (by decide)).trans
      (State.get_set_place (f := F.Chan.SR_ENTRIES) _ (by decide) (by decide) (by decide) (by decide) (by decide))

theorem execSelfRefreshEntry_sre {s : State} {ch : Nat} (hch : ch < 4) (hpower : s.get F.Chan.POWER (pgChan ch) = 3)
    (htol : s.srTheta < s.minLatTol.1) : exec (.selfRefreshEntry ch) s = .next (sre ch s) := by
  have hissue : srIssue ch s = sre ch s := if_neg (by omega)
  obtain ⟨htheta, hlambda⟩ := sre_tolerance s hch
  refine congrArg Host.Outcome.next ((if_pos hch).trans ((if_pos hpower).trans ?_))
  rw [hissue]
  exact memLatencyWake_none (by rw [htheta, hlambda]; exact htol)

/-- Settles O36, command by command. The instants of refresh, and the cases that do nothing, are choices of the model (logs 3 and
80 to 82). -/
theorem memoryUpkeep : Obligations.MemoryUpkeep := by
  unfold Obligations.MemoryUpkeep
  intro s ch hch
  have hpg := chan_ne hch
  refine ⟨execAlertNLow_failed, fun hfault => ?alert, fun r a hr hready hpower ha =>
    ⟨execRefreshDue_early hch hr hready hpower ha, fun hdue => ⟨_, execRefreshDue_due hch hr hready hpower ha hdue, ?_, ?_,
      endPowerDown_power ch s _ rfl⟩⟩,
    fun x r hr => postpone_rank x hr, State.get_set_self _ _ _ _, execZqDue_off,
    fun hperiod hready hpower hdue => ⟨_, execZqDue_due hch hperiod hready hpower hdue, ?_, fun r hr => ?_⟩,
    execMemTempStale_none, fun hv hn => ⟨_, execMemTempStale_stale hch hv hn, ?stale⟩,
    fun hblocked hidle => ⟨fun hp hen htol hsince => ⟨_, execPowerDownEntry_enters hch hblocked hp hen hidle htol hsince,
        State.get_set_self _ _ _ _, s.onlyRegs_setI _ _ _ _⟩, execPowerDownEntry_off, fun hen htol hsince hp =>
      ⟨_, execSelfRefreshEntry_begins hch hblocked hidle hen htol hsince hp, State.get_set_self _ _ _ _, ?_, fun r hr => ?_⟩⟩,
    fun hp htol => ⟨_, execSelfRefreshEntry_sre hch hp htol, State.get_set_self _ _ _ _, ?_, ?_⟩⟩
  case alert =>
    by_cases h3 : (s.memOf ch).alerts = 3
    · refine ⟨_, execAlertNLow_fourth hch hfault h3, ?_⟩
      simp only [State.memOf_raise, State.memOf_updMem, State.memOf_set, abandonEntry_memOf, h3]
      refine ⟨trivial, trivial, trivial, trivial, fun k hk => ?_, fun _ => ⟨?_, trivial, State.raise_bit _ _ _ hpg (by decide)⟩,
        fun h => absurd rfl h⟩
      · rw [State.memOf_updMem_ne _ _ hk, State.memOf_set, abandonEntry_memOf]
      · rw [State.on, State.get_raise_off _ _ hpg (by decide) (by decide) (by decide), State.get_updMem, State.get_set_self]
        rfl
    · obtain ⟨hreads, hwrites, hflight, halerts⟩ := replay_memOf ch s
      refine ⟨_, execAlertNLow_replay hch hfault h3, ?_⟩
      simp only [State.memOf_raise]
      refine ⟨hreads, hwrites, hflight, halerts, fun k hk => replay_memOf_ne s hk, fun h => absurd h h3, fun _ => ⟨?_, ?_,
        State.raise_bit _ _ _ hpg (by decide)⟩⟩
      · rw [State.get_raise_off _ _ hpg (by decide) (by decide) (by decide), replay_replaying]
      · rw [State.get_raise_off _ _ hpg (by decide) (by decide) (by decide), replay_retries]
  case stale =>
    have hset := s.logs_set_chan F.Chan.TEMP_VALID 0 hch (by decide) (by decide)
    obtain ⟨hband, hvalid, hlogs⟩ := (memBand_taken (s.set F.Chan.TEMP_VALID (pgChan ch) 0) hch (b := 1) (by decide)).raise
      Ev.memTempStale (s.get F.Chan.TEMP_SRC (pgChan ch) * 256 + ch) hch
    exact ⟨hvalid.trans (State.get_set_self _ _ _ _), hband, State.raise_bit _ _ _ hpg (by decide), (hset.trans hlogs).only⟩
  · rw [endPowerDown_memOf, refDue, State.memOf_updMem, updRank_rank, if_pos rfl]
  · intro k hk
    rw [endPowerDown_memOf, refDue, State.memOf_updMem, updRank_rank, if_neg hk]
  · rw [endPowerDown_memOf, zqAll_at]
  · rw [endPowerDown_memOf, zqAll_rank hr]
  · refine (issueAllRefs_rows ch _).trans ?_
    rw [State.memOf_updMem]
  · exact issueAllRefs_rank hr
  · unfold sre memPower
    rw [State.get_set_off _ (by decide)]
    exact State.get_set_self _ _ _ _
  · unfold sre memPower State.wrap State.wrapI
    rw [State.memOf_set, State.memOf_setI, State.memOf_updMem]
    exact getLast_drop _ _

end Sys2Proof.Machine
end

section
/-! Frequency changes and training of the SDRAM channels. -/

-- One declaration after another, as in the files before: the text is also checked in one piece.
set_option Elab.async false

namespace Sys2Proof.Machine

/-! ### Requests for a change and for training -/

/-- A refused request is its event (R421). -/
theorem retuneRefused_facts (point : Nat) (training : Bool) (reason : Nat) (s : State) :
    bitAt ((retuneRefused point training reason s).get F.Hdr.EVENT_STATUS pgMem) Ev.memRetuneRefused.bit = true ∧
      s.OnlyEvents (retuneRefused point training reason s) pgMem [] :=
  have hpg : pgMem ≠ pgLedger := by decide
  ⟨State.raise_bit _ _ _ hpg (by decide), s.onlyEvents_raise _ _ hpg⟩

theorem freqRequest_refused {s : State} {point : Nat} (h : s.pressRunning = true ∨ point = 3 ∨ s.memc.pend.isSome = true ∨
    s.memc.chg.isSome = true) : ∃ reason, freqRequest point s = retuneRefused point false reason s := by
  unfold freqRequest
  by_cases hrun : s.pressRunning = true
  · exact ⟨1, if_pos hrun⟩
  by_cases hpoint : point = 3
  · exact ⟨2, (if_neg hrun).trans (if_pos hpoint)⟩
  · exact ⟨3, (if_neg hrun).trans ((if_neg hpoint).trans (if_pos ((h.resolve_left hrun).resolve_left hpoint)))⟩

section
variable {s : State} {point : Nat} (hrun : s.pressRunning = false) (hpoint : point ≠ 3) (hmemc : s.memc = ⟨none, none⟩)
include hrun hpoint hmemc

theorem freqRequest_free : freqRequest point s =
    if s.memTraining then { s with memc := { s.memc with pend := some point } } else freqStart point s :=
  (if_neg (by rw [hrun]; decide)).trans ((if_neg hpoint).trans (if_neg (by rw [hmemc]; simp)))

theorem freqRequest_waits (htrain : s.memTraining = true) : freqRequest point s = { s with memc := ⟨some point, none⟩ } := by
  rw [freqRequest_free hrun hpoint hmemc, if_pos htrain, hmemc]

theorem freqRequest_starts (htrain : s.memTraining = false) : freqRequest point s = freqStart point s := by
  rw [freqRequest_free hrun hpoint hmemc, if_neg (by rw [htrain]; decide)]

end

theorem trainRequest_refused {s : State} {kind : Nat} (h : s.pressRunning = true ∨ s.memc.pend.isSome = true ∨
    s.memc.chg.isSome = true ∨ s.memTraining = true) :
    ∃ reason, trainRequest kind s = retuneRefused (s.get F.Mem.REQ_POINT pgMem) true reason s := by
  unfold trainRequest
  by_cases hrun : s.pressRunning = true
  · exact ⟨1, if_pos hrun⟩
  · exact ⟨3, (if_neg hrun).trans (if_pos (h.resolve_left hrun))⟩

theorem trainRequest_starts {s : State} {kind : Nat} (hrun : s.pressRunning = false) (hmemc : s.memc = ⟨none, none⟩)
    (htrain : s.memTraining = false) :
    trainRequest kind s = forAll [0, 1, 2, 3] s (trainStart · kind (s.get F.Mem.POINT pgMem) false) :=
  (if_neg (by rw [hrun]; decide)).trans (if_neg (by rw [hmemc, htrain]; simp))

/-! ### A change -/

theorem srIssue_keeps (c : Nat) (z : State) : ((srIssue c z).memOf c).writes = (z.memOf c).writes ∧
    ((srIssue c z).memOf c).reads = (z.memOf c).reads ∧ ((srIssue c z).memOf c).valid = (z.memOf c).valid := by
  unfold srIssue
  split
  · exact ⟨rfl, rfl, rfl⟩
  · unfold memPower State.wrap State.wrapI
    rw [State.memOf_set, State.memOf_setI, State.memOf_updMem]
    exact ⟨rfl, rfl, rfl⟩

/-- A channel goes into self-refresh for a change (R422). -/
def freqEnter (ch : Nat) (s : State) : State := srIssue ch (srEntry ch (memFlush ch s))

/-- A channel leaves self-refresh at the new point and trains (R422). -/
def freqLeave (point ch : Nat) (s : State) : State := trainAuto ch point (freqExit ch s)

theorem freqEnter_facts {c : Nat} (hc : c < 4) (z : State) : ChStep c z (freqEnter c z) ∧ ((freqEnter c z).memOf c).writes = [] ∧
    ((freqEnter c z).memOf c).reads = (z.memOf c).reads.filter
      (fun r => !(z.memOf c).writes.any (fun w => w.burst == r.burst && decide (r.seq < w.seq))) ∧
    ((freqEnter c z).memOf c).valid = (z.memOf c).valid := by
  obtain ⟨hstep, hw, hr, hv⟩ := memFlush_facts c hc z
  obtain ⟨hw1, hr1, hv1⟩ := srEntry_keeps c (memFlush c z)
  obtain ⟨hw2, hr2, hv2⟩ := srIssue_keeps c (srEntry c (memFlush c z))
  exact ⟨hstep.trans ((ChStep.srEntry c _).trans (ChStep.srIssue c _)), hw2.trans (hw1.trans hw), hr2.trans (hr1.trans hr),
    hv2.trans (hv1.trans hv)⟩

theorem freqLeave_facts (point c : Nat) (z : State) : ChStep c z (freqLeave point c z) ∧
    ((freqLeave point c z).memOf c).writes = (z.memOf c).writes ∧ ((freqLeave point c z).memOf c).reads = (z.memOf c).reads ∧
    ((freqLeave point c z).memOf c).valid = (z.memOf c).valid ∧
    ((freqLeave point c z).memOf c).train = (if (z.memOf c).valid.contains point then 1 else 2) ∧
    (freqLeave point c z).get F.Chan.POWER (pgChan c) = 0 ∧ (freqLeave point c z).get F.Chan.POINT (pgChan c) = low 2 point ∧
    (freqLeave point c z).get F.Chan.TRAIN_STATUS_STATE (pgChan c) = 1 := by
  obtain ⟨hstep, hw, hr, hv, hpower⟩ := freqExit_facts c z
  obtain ⟨⟨ht, -, hw', hr', hv'⟩, hstate, hpoint, -, hpower'⟩ := trainStart_facts c
    (if ((freqExit c z).memOf c).valid.contains point then 1 else 2) point true (freqExit c z)
  refine ⟨hstep.trans (ChStep.trainStart ..), hw'.trans hw, hr'.trans hr, hv'.trans hv, ht.trans ?_, hpower'.trans hpower, hpoint, hstate⟩
  rw [hv]

theorem State.memOf_withMemc (s : State) (c : MemCommon) (k : Nat) : ({ s with memc := c } : State).memOf k = s.memOf k := rfl

theorem State.get_withMemc (s : State) (c : MemCommon) (g : Fld) (pg : Nat) :
    ({ s with memc := c } : State).get g pg = s.get g pg := rfl

/-- What a change makes of every channel (R420, R422). -/
theorem freqStart_facts (point : Nat) (s : State) {ch : Nat} (hch : ch < 4) :
    ((freqStart point s).memOf ch).writes = [] ∧
    ((freqStart point s).memOf ch).reads = (s.memOf ch).reads.filter
      (fun r => !(s.memOf ch).writes.any (fun w => w.burst == r.burst && decide (r.seq < w.seq))) ∧
    (freqStart point s).get F.Chan.POWER (pgChan ch) = 0 ∧ (freqStart point s).get F.Chan.POINT (pgChan ch) = low 2 point ∧
    (freqStart point s).get F.Chan.TRAIN_STATUS_STATE (pgChan ch) = 1 ∧
    ((freqStart point s).memOf ch).train = (if (s.memOf ch).valid.contains point then 1 else 2) ∧
    ((freqStart point s).memOf ch).valid = (s.memOf ch).valid := by
  obtain ⟨y, -, -, hy, henter, -⟩ := forAll_channels freqEnter (fun c hc z => (freqEnter_facts hc z).1) s ch hch
  obtain ⟨z, -, -, hz, hleave, hregs, -⟩ := forAll_channels (freqLeave point) (fun c _ z => (freqLeave_facts point c z).1)
    (forAll [0, 1, 2, 3] s freqEnter) ch hch
  obtain ⟨-, hw, hr, hv⟩ := freqEnter_facts hch y
  obtain ⟨-, hw', hr', hv', ht', hpower, hpoint, hstate⟩ := freqLeave_facts point ch z
  have heq : freqStart point s =
      { forAll [0, 1, 2, 3] (forAll [0, 1, 2, 3] s freqEnter) (freqLeave point) with memc := ⟨none, some point⟩ } := rfl
  have hmem : (freqStart point s).memOf ch = (freqLeave point ch z).memOf ch := by
    rw [heq, State.memOf_withMemc, hleave]
  have hget (g : Fld) (hf : g.off + 0 * g.stride < 4096) (hl : g.lo < 32) :
      (freqStart point s).get g (pgChan ch) = (freqLeave point ch z).get g (pgChan ch) := by
    rw [heq, State.get_withMemc, hregs g hf hl]
  rw [hmem, hget _ (by decide) (by decide), hget _ (by decide) (by decide), hget _ (by decide) (by decide), hw', hr', hv', ht', hz,
    henter, hw, hr, hv, hy]
  exact ⟨rfl, rfl, hpower, hpoint, hstate, rfl, rfl⟩

/-! ### Ends of training -/

theorem pendingChange_none {s : State} (h : s.memc.pend = none) : pendingChange s = s := by
  unfold pendingChange
  rw [h]

theorem memSave_keeps (p : Nat) (s : State) : (∀ ch, (memSave p s).memOf ch = s.memOf ch) ∧ (memSave p s).memc = s.memc := by
  obtain ⟨j, hj⟩ := memSave_jrn p s
  rw [hj]
  exact ⟨fun _ => rfl, rfl⟩

/-- A channel whose pass has ended well (R419, R420). -/
def passed (ch : Nat) (s : State) : State :=
  s.updMem ch (fun x => { x with
    train := 0
    ok := true
    steps := if x.train = 2 then [1, 2, 3, 4, 5, 6] else x.steps
    valid := if x.train = 2 ∧ !x.valid.contains (s.get F.Chan.POINT (pgChan ch)) then
      x.valid ++ [s.get F.Chan.POINT (pgChan ch)] else x.valid })

/-- The same with what it shows and stores. -/
def passShown (ch : Nat) (s : State) : State :=
  showTrained ch ((if (s.memOf ch).train = 2 then memSave (s.get F.Chan.POINT (pgChan ch)) (passed ch s) else passed ch s).set
    F.Chan.TRAIN_STATUS_STATE (pgChan ch) 2)

theorem passShown_keeps (ch : Nat) (s : State) :
    (passShown ch s).memOf ch = (passed ch s).memOf ch ∧ (passShown ch s).memc = s.memc := by
  obtain ⟨hmem, hmemc⟩ := memSave_keeps (s.get F.Chan.POINT (pgChan ch)) (passed ch s)
  unfold passShown showTrained
  rw [State.memOf_set, State.memOf_set, State.set_memc, State.set_memc]
  split
  · exact ⟨hmem ch, hmemc⟩
  · exact ⟨rfl, rfl⟩

theorem passShown_state (ch : Nat) (s : State) : (passShown ch s).get F.Chan.TRAIN_STATUS_STATE (pgChan ch) = 2 :=
  (State.get_set_off _ (by decide)).trans (State.get_set_self _ _ _ _)

theorem passed_mem (ch : Nat) (s : State) : ((passed ch s).memOf ch).train = 0 ∧ ((passed ch s).memOf ch).ok = true ∧
    ((s.memOf ch).train = 2 → ((passed ch s).memOf ch).valid.contains (s.get F.Chan.POINT (pgChan ch)) = true) ∧
    ((s.memOf ch).train ≠ 2 → ((passed ch s).memOf ch).valid = (s.memOf ch).valid) := by
  unfold passed
  rw [State.memOf_updMem]
  refine ⟨rfl, rfl, fun h => ?_, fun h => if_neg fun ⟨h2, _⟩ => h h2⟩
  dsimp only
  by_cases hc : (s.memOf ch).valid.contains (s.get F.Chan.POINT (pgChan ch)) = true
  · rw [if_neg (by rw [hc]; simp), hc]
  · rw [if_pos ⟨h, by rw [Bool.eq_false_iff.mpr hc]; rfl⟩]
    simp

/-- A channel whose pass has failed in a step on a lane, not to be tried again by itself (R420). -/
def failedPass (ch step : Nat) (s : State) : State :=
  s.updMem ch (fun x => { x with
    train := 0
    ok := false
    steps := if x.train = 2 then [1, 2, 3, 4, 5, 6].filter (fun k => decide (k < step)) else x.steps
    valid := x.valid.filter (· != s.get F.Chan.POINT (pgChan ch)) })

/-- The same with what it shows. -/
def failShown (ch step lane : Nat) (s : State) : State :=
  (showTrained ch ((((failedPass ch step s).set F.Chan.TRAIN_STATUS_STATE (pgChan ch) 3).set F.Chan.FAIL_STEP (pgChan ch) step).set
    F.Chan.FAIL_LANE (pgChan ch) lane)).set F.Hdr.READY (pgChan ch) 0

theorem failShown_facts (ch step lane : Nat) (s : State) :
    (failShown ch step lane s).get F.Chan.TRAIN_STATUS_STATE (pgChan ch) = 3 ∧
    (failShown ch step lane s).get F.Chan.FAIL_STEP (pgChan ch) = low 8 step ∧
    (failShown ch step lane s).get F.Chan.FAIL_LANE (pgChan ch) = low 4 lane ∧
    (failShown ch step lane s).get F.Hdr.READY (pgChan ch) = 0 := by
  unfold failShown showTrained
  refine ⟨?_, ?_, ?_, State.get_set_self _ _ _ _⟩
  · rw [State.get_set_off _ (by decide), State.get_set_off _ (by decide), State.get_set_off _ (by decide),
      State.get_set_off _ (by decide), State.get_set_self]
    rfl
  · rw [State.get_set_off _ (by decide), State.get_set_off _ (by decide), State.get_set_off _ (by decide), State.get_set_self]
    rfl
  · rw [State.get_set_off _ (by decide), State.get_set_off _ (by decide), State.get_set_self]
    rfl

section
variable {s : State} {ch step lane : Nat} (hch : ch < 4)

theorem execTrainingEnd_idle (h : (s.memOf ch).train = 0) (ok : Bool) : exec (.trainingEnd ch ok step lane) s = .next s :=
  congrArg Host.Outcome.next (if_pos (.inr (.inl h)))

theorem execTrainingEnd_impossible (h : (s.memOf ch).mayFail step lane = false) :
    exec (.trainingEnd ch false step lane) s = .next s :=
  congrArg Host.Outcome.next (if_pos (.inr (.inr ⟨rfl, h⟩)))

include hch

theorem execTrainingEnd_passes (h : (s.memOf ch).train ≠ 0) :
    exec (.trainingEnd ch true step lane) s = .next (pendingChange (passShown ch s)) :=
  congrArg Host.Outcome.next (if_neg (by simp [h]; omega))

variable (h : (s.memOf ch).train ≠ 0) (hfail : (s.memOf ch).mayFail step lane = true)
include h hfail

theorem execTrainingEnd_fails : exec (.trainingEnd ch false step lane) s =
    .next (if (s.memOf ch).train = 1 ∧ (s.memOf ch).auto then trainStart ch 2 (s.get F.Chan.POINT (pgChan ch)) true s
      else pendingChange ((failShown ch step lane s).raise Ev.memTrainFail (pgChan ch)
        (s.get F.Chan.POINT (pgChan ch) * 2 ^ 16 + low 8 step * 256 + low 4 lane * 16 + ch))) :=
  congrArg Host.Outcome.next (if_neg (by rw [hfail]; simp [h]; omega))

end

/-! ### The end of a change -/

theorem execFreqDone_none {s : State} (h : s.memc.chg = none ∨ s.memTraining = true) : exec .freqDone s = .next s := by
  simp only [exec, execFreqDone]
  split
  case h_1 => rfl
  case h_2 p hp => rw [if_pos (h.resolve_left (by rw [hp]; exact nofun))]

/-- The channel at the end of a change (R422). -/
def changeEnded (ch : Nat) (s : State) : State := showTrained ch (s.updMem ch (fun x => { x with idleAt := s.now }))

/-- The channels and memory common at the end of a change to a point, before its event. -/
def atPoint (p : Nat) (s : State) : State :=
  forAll [0, 1, 2, 3] { s.set F.Mem.POINT pgMem p with memc := ⟨none, none⟩ } changeEnded

theorem execFreqDone_ends {s : State} {p : Nat} (h : s.memc.chg = some p) (htrain : s.memTraining = false) :
    ∃ arg, exec .freqDone s = .next ((atPoint p s).raise Ev.memFreqDone pgMem arg) := by
  refine ⟨p * 2 ^ 16 + bit ((List.range 4).any (fun ch => (s.memOf ch).fullRan)) * 256, ?_⟩
  simp only [exec, execFreqDone, h]
  rw [if_neg (by rw [htrain]; decide)]
  rfl

theorem changeEnded_step (c : Nat) (z : State) : ChStep c z (changeEnded c z) :=
  ((ChStep.refl c z).updMem _).set F.Chan.TRAINED _ (by decide) (by decide)

theorem atPoint_common (p : Nat) (s : State) : (atPoint p s).get F.Mem.POINT pgMem = low 2 p ∧ (atPoint p s).memc = ⟨none, none⟩ := by
  refine forAll_over [0, 1, 2, 3] _ changeEnded (fun t => t.get F.Mem.POINT pgMem = low 2 p ∧ t.memc = ⟨none, none⟩)
    ⟨State.get_set_self _ _ _ _, rfl⟩ fun c hc t ht => ?_
  have hc4 : c < 4 := by simpa [List.mem_range] using (show c ∈ List.range 4 from hc)
  have hstep := changeEnded_step c t
  exact ⟨(hstep.get _ _ (pgChan_ne c hc4).2.symm (by decide) (by decide) (by decide)).trans ht.1, hstep.memc.trans ht.2⟩

theorem atPoint_channel (p : Nat) (s : State) {ch : Nat} (hch : ch < 4) : ((atPoint p s).memOf ch).idleAt = s.now ∧
    (atPoint p s).get F.Chan.TRAINED (pgChan ch) = bit ((s.memOf ch).valid.contains (low 2 p)) := by
  obtain ⟨y, hother, -, hy, hmem, hregs, hnow⟩ := forAll_channels changeEnded (fun c _ z => changeEnded_step c z)
    { s.set F.Mem.POINT pgMem p with memc := ⟨none, none⟩ } ch hch
  have hpoint : y.get F.Mem.POINT pgMem = low 2 p :=
    (hother _ _ (fun k hk _ => (pgChan_ne k hk).2.symm) (by decide) (by decide) (pgChan_ne ch hch).2.symm (by decide)).trans
      (State.get_set_self _ _ _ _)
  have hvalid : y.memOf ch = s.memOf ch := hy
  refine ⟨?_, ?_⟩
  · unfold atPoint
    rw [hmem, changeEnded, showTrained, State.memOf_set, State.memOf_updMem]
    exact hnow
  · unfold atPoint
    rw [hregs _ (by decide) (by decide), changeEnded, showTrained, State.get_set_self, State.memOf_updMem, State.get_updMem, hpoint,
      ← hvalid]
    exact low_of_lt (by unfold bit; split <;> decide)

/-- Settles O37, request by request and end by end. That the relock comes at once and how the queues empty are choices of the model
(logs 80 and 81). -/
theorem memoryFrequencyAndTraining : Obligations.MemoryFrequencyAndTraining := by
  unfold Obligations.MemoryFrequencyAndTraining
  intro s
  refine ⟨fun point owner ho => ⟨_, rfl, ?freq⟩, ?train, fun ch hch => ⟨fun h ok step lane => execTrainingEnd_idle h ok,
    fun h hmemc => ?ends⟩, execFreqDone_none, fun p hp htrain => ?done⟩
  case freq =>
    have hexec : exec (.memFreqGo point owner) s =
        .next (freqRequest (low 2 point) (if low 2 point = 3 then s else s.set F.Mem.REQ_POINT pgMem point)) :=
      congrArg Host.Outcome.next (gateReg_passes ho _ _ _)
    rw [hexec]
    refine ⟨fun h => ?_, fun hrun hpoint hmemc => ⟨fun htrain => by rw [freqRequest_waits hrun hpoint hmemc htrain], fun htrain => ?_⟩⟩
    · obtain ⟨reason, hr⟩ := freqRequest_refused h
      exact ⟨_, congrArg _ hr, retuneRefused_facts ..⟩
    · refine ⟨_, congrArg _ (freqRequest_starts hrun hpoint hmemc htrain), rfl, fun ch hch => ?_⟩
      have hmem : (if low 2 point = 3 then s else s.set F.Mem.REQ_POINT pgMem point).memOf ch = s.memOf ch := by
        rw [if_neg hpoint, State.memOf_set]
      have hlow : low 2 (low 2 point) = low 2 point := low_low 2 point
      have hfacts := freqStart_facts (low 2 point) (if low 2 point = 3 then s else s.set F.Mem.REQ_POINT pgMem point) hch
      rwa [hmem, hlow] at hfacts
  case train =>
    have hexec : ∀ (c : Instr) (kind owner : Nat), (c, kind) ∈ [(Instr.trainFull owner, 2), (Instr.trainCheck owner, 1)] →
        s.passes pgMem owner = true → exec c s = .next (trainRequest kind s) := by
      intro c kind owner hc ho
      simp only [List.mem_cons, List.not_mem_nil, or_false, Prod.mk.injEq] at hc
      obtain ⟨rfl, rfl⟩ | ⟨rfl, rfl⟩ := hc
      · exact congrArg Host.Outcome.next (gateReg_passes ho _ _ _)
      · exact congrArg Host.Outcome.next (gateReg_passes ho _ _ _)
    intro c kind owner hc ho
    rw [hexec c kind owner hc ho]
    refine ⟨fun h => ?_, fun hrun hmemc htrain => ⟨_, congrArg _ (trainRequest_starts hrun hmemc htrain), fun ch hch => ?_⟩⟩
    · obtain ⟨reason, hr⟩ := trainRequest_refused (kind := kind) h
      exact ⟨_, congrArg _ hr, retuneRefused_facts ..⟩
    · obtain ⟨y, -, -, -, hmem, hregs, -⟩ := forAll_channels (trainStart · kind (s.get F.Mem.POINT pgMem) false)
        (fun c _ z => ChStep.trainStart ..) s ch hch
      obtain ⟨⟨ht, hauto, -⟩, hstate, hpoint, hfail, -⟩ := trainStart_facts ch kind (s.get F.Mem.POINT pgMem) false y
      rw [hmem, hregs _ (by decide) (by decide), hregs _ (by decide) (by decide), hregs _ (by decide) (by decide)]
      exact ⟨ht, hauto, hstate, hfail, hpoint⟩
  case ends =>
    refine ⟨fun step lane => ?_, fun step lane => execTrainingEnd_impossible, fun step lane => rfl, fun step lane hfail hagain => ?_,
      fun step lane hfail hagain => ?_⟩
    · obtain ⟨hmem, hc⟩ := passShown_keeps ch s
      have hnone := pendingChange_none (s := passShown ch s) (by rw [hc, hmemc])
      refine ⟨_, (execTrainingEnd_passes hch h).trans (congrArg _ hnone), ?_⟩
      obtain ⟨ht, hok, hfull, hother⟩ := passed_mem ch s
      rw [hmem]
      exact ⟨ht, hok, passShown_state ch s, hfull, hother⟩
    · obtain ⟨⟨ht, -⟩, hstate, -⟩ := trainStart_facts ch 2 (s.get F.Chan.POINT (pgChan ch)) true s
      exact ⟨_, (execTrainingEnd_fails hch h hfail).trans (congrArg _ (if_pos hagain)), ht, hstate⟩
    · have hpg := chan_ne hch
      have hnone (arg : Nat) := pendingChange_none (s := (failShown ch step lane s).raise Ev.memTrainFail (pgChan ch) arg)
        (by rw [State.raise_memc]; exact congrArg MemCommon.pend hmemc)
      obtain ⟨hstate, hstep, hlane, hready⟩ := failShown_facts ch step lane s
      have hmem : (failShown ch step lane s).memOf ch = (failedPass ch step s).memOf ch := rfl
      refine ⟨_, (execTrainingEnd_fails hch h hfail).trans (congrArg _ ((if_neg hagain).trans (hnone _))), ?_⟩
      rw [State.memOf_raise, hmem, failedPass, State.memOf_updMem, State.get_raise_off _ _ hpg (by decide) (by decide) (by decide),
        State.get_raise_off _ _ hpg (by decide) (by decide) (by decide), State.get_raise_off _ _ hpg (by decide) (by decide) (by decide),
        State.get_raise_off _ _ hpg (by decide) (by decide) (by decide)]
      exact ⟨rfl, rfl, by simp, hstate, hstep, hlane, hready, State.raise_bit _ _ _ hpg (by decide)⟩
  case done =>
    obtain ⟨arg, harg⟩ := execFreqDone_ends hp htrain
    have hpg : pgMem ≠ pgLedger := by decide
    obtain ⟨hpoint, hmemc⟩ := atPoint_common p s
    refine ⟨_, harg, ?_, by rw [State.raise_memc, hmemc], fun ch hch => ?_, State.raise_bit _ _ _ hpg (by decide)⟩
    · rw [State.get_raise_off _ _ hpg (by decide) (by decide) (by decide), hpoint]
    · obtain ⟨hidle, htrained⟩ := atPoint_channel p s hch
      obtain ⟨hl, hm⟩ := pgChan_ne ch hch
      rw [State.memOf_raise, hidle]
      refine ⟨rfl, ?_⟩
      unfold State.get at htrained ⊢
      rw [State.raise_getI _ _ _ _ (by decide) (by decide) hl
        (Fld.key_ne_of_page (by decide) (by decide) (by decide) (by decide) hm), htrained]

end Sys2Proof.Machine
end

section
/-! Requests, tenures and the watchdog of the Stacks Bus. -/

-- One declaration after another, as in the files before: the text is also checked in one piece.
set_option Elab.async false

namespace Sys2Proof.Machine

/-! ### The arbiter -/

/-- The arbiter takes the smallest stamp, of equals the lowest index (R437). -/
theorem stackOldest_least {s : State} (hs : tsorted s.stack.reqs = true) {i : Nat} (h : s.stackOldest = some i) :
    ∃ q, (i, q) ∈ s.stack.reqs ∧ ∀ e ∈ s.stack.reqs, q.stamp < e.2.stamp ∨ q.stamp = e.2.stamp ∧ i ≤ e.1 := by
  unfold State.stackOldest at h
  obtain ⟨r, hr, rfl⟩ := Option.map_eq_some_iff.mp h
  obtain ⟨hleast, -⟩ := oldest_least _ hs none nofun r hr
  obtain hnone | ⟨e, he, hi, hstamp⟩ := oldest_mem _ none r hr
  · exact nomatch hnone
  · refine ⟨e.2, hi ▸ he, fun e' he' => ?_⟩
    rw [hstamp]
    exact hleast e' he'

/-! ### Requests -/

/-- A request as it reaches its wires. -/
def stackRequest (s : State) (sdram : Bool) (addr : Nat) (wr : Bool) (beats : Nat) (data : List Nat) : StackReq :=
  { sdram := sdram, addr := addr, wr := wr, beats := beats, data := data, arrived := s.xclk, stamp := s.xclk }

/-- The state in which a requester presents its request. -/
def presented (i : Nat) (q : StackReq) (s : State) : State := s.updStack (fun x => { x with reqs := tput x.reqs i q })

theorem presented_req (i : Nat) (q : StackReq) (s : State) : (presented i q s).stack.req i = some q := tfind_tput_self _ _ _

theorem presented_req_ne {i j : Nat} (q : StackReq) (s : State) (h : j ≠ i) : (presented i q s).stack.req j = s.stack.req j :=
  tfind_tput_ne _ _ h

section
variable {s : State} {i addr beats : Nat} {sdram wr : Bool} {data : List Nat}

theorem execStacksRequest_ignored (h : s.stackQuiet i = true ∨ (s.stack.req i).isSome = true ∨
    bitAt (s.get F.Stk.WD_MASKED pgStk) i = true ∨ beats = 0 ∨ 64 < beats) :
    exec (.stacksRequest i sdram addr wr beats data) s = .next s :=
  congrArg Host.Outcome.next (if_pos (by
    rcases h with h | h | h | h | h <;> simp only [h, true_or, or_true]))

variable (hi : i < 16) (hquiet : s.stackQuiet i = false) (hreq : s.stack.req i = none)
  (hmask : bitAt (s.get F.Stk.WD_MASKED pgStk) i = false) (haddr : addr % 64 = 0) (hpos : 0 < beats) (hmax : beats ≤ 64)
  (hin : if sdram then addr + 64 * beats ≤ s.memCapacity else addr + 64 * beats ≤ 2 ^ 25)
include hi hquiet hreq hmask haddr hpos hmax hin

theorem execStacksRequest_taken : exec (.stacksRequest i sdram addr wr beats data) s =
    .next (if s.stack.owner.isNone ∧ s.ready pgStk then
      stackGrant i (s.xclk + 3) (presented i (stackRequest s sdram addr wr beats data) s)
    else presented i (stackRequest s sdram addr wr beats data) s) := by
  refine congrArg Host.Outcome.next ((if_neg ?_).trans (if_neg ?_))
  · rw [hquiet, hreq, hmask]
    cases sdram <;> simp at hin ⊢ <;> omega
  · cases sdram <;> simp at hin ⊢
    omega

end

/-! ### Tenures -/

/-- The beats of a tenure done, of words in which bits have flipped before (R433, R435). -/
def tenureBeats (upsets : List (Nat × Nat)) (i : Nat) (q : StackReq) (s : State) : State :=
  forAll (List.range s.stack.len) (forAll upsets s (fun e s => sramUpset 0 (low 23 e.1) e.2 s))
    (fun k s => stackBeat i (q.done + k) s)

/-- A request that goes on is stamped anew (R437). -/
def restamp (i t : Nat) (s : State) : State :=
  s.updStack (fun x => { x with reqs := x.reqs.map (fun e => if e.1 = i then (e.1, { e.2 with stamp := t }) else e) })

/-- Another request is before that of the owner (R438). -/
def countPreemption (i : Nat) (s : State) : State := if s.stackOldest == some i then s else s.sat F.Stk.PREEMPTIONS pgStk

/-- The tenure's end for the owner's request. -/
def tenureEnd (i : Nat) (q : StackReq) (s t : State) : State :=
  if q.beats ≤ q.done + s.stack.len then stackFinish i t else countPreemption i (restamp i s.xclk t)

section
variable {s : State} {i : Nat} {q : StackReq} (howner : s.stack.owner = some i) (hreq : s.stack.req i = some q)
include howner hreq

theorem execStacksTenureEnd_early (h : s.xclk + 1 < s.stack.first + s.stack.len ∨
    q.sdram = true ∧ s.sdramHeld (q.addr + 64 * q.done) (64 * s.stack.len) = true) (upsets : List (Nat × Nat)) :
    exec (.stacksTenureEnd upsets) s = .next s := by
  simp only [exec, execStacksTenureEnd, howner, hreq]
  rw [if_pos h]

theorem execStacksTenureEnd_over (h : s.stack.first + s.stack.len ≤ s.xclk + 1)
    (hheld : q.sdram = true → s.sdramHeld (q.addr + 64 * q.done) (64 * s.stack.len) = false) (upsets : List (Nat × Nat)) :
    exec (.stacksTenureEnd upsets) s = .next (stackArbitrate (s.xclk + 1) (tenureEnd i q s (tenureBeats upsets i q s))) := by
  simp only [exec, execStacksTenureEnd, howner, hreq]
  rw [if_neg (not_or.mpr ⟨by omega, fun ⟨hs, hh⟩ => by rw [hheld hs] at hh; exact nomatch hh⟩)]
  unfold tenureEnd
  split
  · rfl
  · rfl

theorem execStacksWatchdog_early {moved : Nat} (h : s.stack.len ≤ moved ∨
    s.xclk < s.stack.first + (moved - 1) + s.get F.Stk.WD_LIMIT pgStk * 1200) : exec (.stacksWatchdog moved) s = .next s := by
  simp only [exec, execStacksWatchdog, howner, hreq]
  rw [if_pos h]

end

theorem upsets_keep (upsets : List (Nat × Nat)) (s : State) :
    let t := forAll upsets s (fun e s => sramUpset 0 (low 23 e.1) e.2 s)
    t.stack = s.stack ∧ t.ring = s.ring ∧ t.now = s.now ∧ t.bnd = s.bnd ∧ t.regs = s.regs :=
  forAll_inv upsets s _ (fun t => t.stack = s.stack ∧ t.ring = s.ring ∧ t.now = s.now ∧ t.bnd = s.bnd ∧ t.regs = s.regs)
    ⟨rfl, rfl, rfl, rfl, rfl⟩ fun _ _ h => h

theorem tenureBeats_beats {s : State} {i : Nat} {q : StackReq} (hreq : s.stack.req i = some q) (upsets : List (Nat × Nat)) :
    Beats i q (q.done + s.stack.len) s (tenureBeats upsets i q s) := by
  obtain ⟨hstack, hring, hnow, hbnd, hregs⟩ := upsets_keep upsets s
  exact beats_all i q s _ q.done (beats_start i q s _ hreq hstack hring hnow hbnd hregs) s.stack.len

theorem tfind_map_at {α : Type} (l : Tbl α) (i : Nat) (f : α → α) (j : Nat) :
    tfind (l.map (fun e => if e.1 = i then (e.1, f e.2) else e)) j = if j = i then (tfind l j).map f else tfind l j := by
  induction l with
  | nil => simp [tfind]
  | cons e l ih =>
    obtain ⟨k, v⟩ := e
    by_cases hk : k = i
    · subst hk
      by_cases hj : k = j
      · simp [tfind, hj]
      · simp [tfind, hj, ih]
    · by_cases hj : k = j
      · simp [tfind, hk, ← hj]
      · simp [tfind, hk, hj, ih]

theorem restamp_req (i t j : Nat) (s : State) : (restamp i t s).stack.req j =
    if j = i then (s.stack.req j).map (fun q => { q with stamp := t }) else s.stack.req j :=
  tfind_map_at s.stack.reqs i (fun q => { q with stamp := t }) j

theorem countPreemption_facts (i : Nat) (s : State) :
    (countPreemption i s).stack = s.stack ∧ (countPreemption i s).ready pgStk = s.ready pgStk := by
  unfold countPreemption
  split
  · exact ⟨rfl, rfl⟩
  · refine ⟨rfl, ?_⟩
    unfold State.ready State.on
    exact congrArg (· == 1) (State.get_set_off _ (by decide))

theorem stackFinish_facts {i : Nat} {s : State} {q : StackReq} (h : s.stack.req i = some q) :
    (stackFinish i s).stack.req i = none ∧ (∀ j ≠ i, (stackFinish i s).stack.req j = s.stack.req j) ∧
      (stackFinish i s).regs = s.regs ∧ (stackFinish i s).room = s.room ∧
      (stackFinish i s).resp = (if q.wr then .none else if q.poisoned && !stackMarks i then stackError i
        else .data (leNat (q.got.map (BitVec.ofNat 8)))) := by
  unfold stackFinish
  rw [h]
  exact ⟨tfind_tdel_self _ _, fun j hj => tfind_tdel_ne _ hj, rfl, rfl, rfl⟩

theorem State.ready_congr {s t : State} (h : t.regs = s.regs) (pg : Nat) : t.ready pg = s.ready pg := by
  unfold State.ready State.on State.get State.getI
  rw [h]

/-- What a tenure's end makes of the requests: the owner's is over or goes on with a new stamp, the others stay (R436, R437). -/
theorem tenureEnd_facts {s : State} {i : Nat} {q : StackReq} (hreq : s.stack.req i = some q) (upsets : List (Nat × Nat)) :
    let t := tenureEnd i q s (tenureBeats upsets i q s)
    t.ready pgStk = s.ready pgStk ∧ (∀ j ≠ i, t.stack.req j = s.stack.req j) ∧
      (q.beats ≤ q.done + s.stack.len → t.stack.req i = none) ∧
      (q.done + s.stack.len < q.beats → ∃ q', t.stack.req i = some q' ∧ q'.done = q.done + s.stack.len ∧ q'.stamp = s.xclk ∧
        q'.beats = q.beats ∧ q'.addr = q.addr ∧ q'.wr = q.wr ∧ q'.sdram = q.sdram ∧ q'.data = q.data) := by
  have hbeats := tenureBeats_beats hreq upsets
  generalize tenureBeats upsets i q s = u at hbeats
  obtain ⟨q', hmine, hdone, -, -, hb, haddr, hwr, hsdram, hdata⟩ := hbeats.mine
  have hready : u.ready pgStk = s.ready pgStk := by
    unfold State.ready State.on
    rw [hbeats.regs _ (by decide) (by decide) (by decide)]
  unfold tenureEnd
  by_cases hover : q.beats ≤ q.done + s.stack.len
  · rw [if_pos hover]
    obtain ⟨hgone, hothers, hregs, -⟩ := stackFinish_facts hmine
    exact ⟨(State.ready_congr hregs _).trans hready, fun j hj => (hothers j hj).trans (hbeats.other j hj), fun _ => hgone,
      fun h => absurd hover (by omega)⟩
  · rw [if_neg hover]
    obtain ⟨hstack, hready'⟩ := countPreemption_facts i (restamp i s.xclk u)
    refine ⟨hready'.trans hready, fun j hj => ?_, fun h => absurd h hover, fun _ => ⟨{ q' with stamp := s.xclk }, ?_, hdone, rfl, hb, haddr, hwr, hsdram, hdata⟩⟩
    · rw [hstack, restamp_req, if_neg hj, hbeats.other j hj]
    · rw [hstack, restamp_req, if_pos rfl, hmine]
      rfl

theorem reqs_req {s t : State} (h : t.stack.reqs = s.stack.reqs) (j : Nat) : t.stack.req j = s.stack.req j := by
  rw [StackX.req, h]
  rfl

/-! ### Beats of the Reading Room -/

theorem roomRead_good {s : State} (h : s.sramErr = []) (w : Nat) :
    roomRead w s = (s, leNat ((List.range 4).map (fun i => s.roomByte (4 * w + i))), false) := by
  have herr : s.sramErrAt 0 w = 0 := by
    unfold State.sramErrAt
    rw [h]
    rfl
  unfold roomRead
  dsimp only
  rw [herr, if_pos rfl]

theorem roomBeat_good {s : State} (h : s.sramErr = []) {a : Nat} (ha : a % 64 = 0) :
    roomBeat a s = (s, ((List.range 64).map (fun j => s.roomByte (a + j))).map (·.toNat), false) := by
  have hwords (n : Nat) : (List.range n).foldl (fun (r : State × List Nat × Bool) i =>
      let w := roomRead (a / 4 + i) r.1
      (w.1, r.2.1 ++ [w.2.1], r.2.2 || w.2.2)) (s, [], false) =
      (s, (List.range n).map (fun k => leNat ((List.range 4).map (fun i => s.roomByte (a + (4 * k + i))))), false) := by
    induction n with
    | zero => rfl
    | succ n ih =>
      rw [List.range_succ, List.foldl_append, ih]
      simp only [List.foldl_cons, List.foldl_nil, roomRead_good h, List.map_append, List.map_cons, List.map_nil, Bool.or_false]
      rw [show 4 * (a / 4 + n) = a + 4 * n by omega]
      simp only [Nat.add_assoc]
  have hbytes (k : Nat) : leBytes 4 (leNat ((List.range 4).map (fun i => s.roomByte (a + (4 * k + i))))) =
      (List.range 4).map (fun i => s.roomByte (a + (4 * k + i))) := by
    have := leBytes_leNat ((List.range 4).map (fun i => s.roomByte (a + (4 * k + i))))
    rwa [List.length_map, List.length_range] at this
  unfold roomBeat
  rw [hwords 16]
  simp only [List.flatMap_map, hbytes]
  rw [← flat_words (fun j => s.roomByte (a + j)) 16, List.map_flatMap]

theorem roomWrite_low {s : State} {a : Nat} {bs : List Byte} (h : a + bs.length ≤ 0x1FA0000) :
    roomWrite a bs s = roomPut a bs s := by
  unfold roomWrite
  dsimp only
  rw [List.take_of_length_le (by omega), List.drop_of_length_le (by omega)]
  rfl

/-- The request after one more beat. -/
def StackReq.beat (q : StackReq) (k : Nat) (bytes : List Nat) (poisoned : Bool) : StackReq :=
  { q with done := k + 1, got := q.got ++ bytes, poisoned := q.poisoned || poisoned }

section
variable {s : State} {i k : Nat} {q : StackReq} (hreq : s.stack.req i = some q) (hroom : q.sdram = false)
include hreq hroom

theorem stackBeat_roomRead (hwr : q.wr = false) (hgood : s.sramErr = []) (haddr : (q.addr + 64 * k) % 64 = 0) :
    stackBeat i k s = presented i
      (q.beat k (((List.range 64).map (fun j => s.roomByte (q.addr + 64 * k + j))).map (·.toNat)) false)
      (s.wrapI F.Stk.BEATS pgStk 0 1) := by
  have hbeat := roomBeat_good (s := s.wrapI F.Stk.BEATS pgStk 0 1) hgood haddr
  unfold stackBeat
  rw [hreq]
  dsimp only
  rw [if_neg (by rw [hwr]; decide), if_neg (by rw [hroom]; decide), hbeat]
  rfl

theorem stackBeat_roomWrite (hwr : q.wr = true) (haddr : q.addr + 64 * k + 64 ≤ 0x1FA0000) :
    stackBeat i k s = presented i { q with done := k + 1 } (roomPut (q.addr + 64 * k)
      ((List.range 64).map (fun j => BitVec.ofNat 8 (q.data.getD (64 * k + j) 0))) (s.wrapI F.Stk.BEATS pgStk 0 1)) := by
  unfold stackBeat
  rw [hreq]
  dsimp only
  rw [if_pos hwr, if_neg (by rw [hroom]; decide), roomWrite_low (by rw [List.length_map, List.length_range]; exact haddr)]
  rfl

end

section
variable {s : State} {i : Nat} {q : StackReq} (hreq : s.stack.req i = some q) (hlen : s.stack.len = 1) (hbeats : q.beats = 1)
  (hdone : q.done = 0)

theorem tenureBeats_one (i : Nat) (hlen : s.stack.len = 1) (hdone : q.done = 0) : tenureBeats [] i q s = stackBeat i 0 s := by
  unfold tenureBeats
  rw [hlen, hdone]
  rfl

theorem tenureEnd_one (i : Nat) (t : State) (hlen : s.stack.len = 1) (hbeats : q.beats = 1) : tenureEnd i q s t = stackFinish i t :=
  if_pos (by omega)

include hreq hlen hbeats hdone

/-- The end of a one-beat read of good Reading Room words (R435). -/
theorem oneBeat_read (hroom : q.sdram = false) (haddr : q.addr % 64 = 0) (hgood : s.sramErr = []) (hwr : q.wr = false)
    (hgot : q.got = []) (hpois : q.poisoned = false) (first : Nat) :
    let t := stackArbitrate first (tenureEnd i q s (tenureBeats [] i q s))
    t.resp = .data (leNat ((List.range 64).map (fun j => s.roomByte (q.addr + j)))) ∧ t.room = s.room := by
  intro t
  obtain ⟨-, -, -, hresp, -, hroom', -⟩ := arbitrate_facts first (tenureEnd i q s (tenureBeats [] i q s))
  show t.resp = _ ∧ t.room = _
  rw [hresp, hroom', tenureEnd_one i _ hlen hbeats, tenureBeats_one i hlen hdone,
    stackBeat_roomRead hreq hroom hwr hgood (by omega)]
  obtain ⟨-, -, -, hr, hresp'⟩ := stackFinish_facts (presented_req i
    (q.beat 0 (((List.range 64).map (fun j => s.roomByte (q.addr + 64 * 0 + j))).map (·.toNat)) false)
    (s.wrapI F.Stk.BEATS pgStk 0 1))
  rw [hr, hresp']
  refine ⟨?_, rfl⟩
  unfold StackReq.beat
  simp only [hwr, hpois, hgot, Bool.false_eq_true, if_false, Bool.or_self, Bool.false_and, List.nil_append, byte_roundtrip]
  rfl

/-- The end of a one-beat write to the Reading Room (R435). -/
theorem oneBeat_write (hroom : q.sdram = false) (hwr : q.wr = true) (haddr : q.addr + 64 ≤ 0x1FA0000) (first : Nat) :
    let t := stackArbitrate first (tenureEnd i q s (tenureBeats [] i q s))
    t.resp = .none ∧ t.room = memWrite s.room q.addr ((List.range 64).map (fun j => BitVec.ofNat 8 (q.data.getD j 0))) := by
  intro t
  obtain ⟨-, -, -, hresp, -, hroom', -⟩ := arbitrate_facts first (tenureEnd i q s (tenureBeats [] i q s))
  show t.resp = _ ∧ t.room = _
  rw [hresp, hroom', tenureEnd_one i _ hlen hbeats, tenureBeats_one i hlen hdone,
    stackBeat_roomWrite hreq hroom hwr (by omega)]
  obtain ⟨-, -, -, hr, hresp'⟩ := stackFinish_facts (presented_req i { q with done := 0 + 1 } (roomPut (q.addr + 64 * 0)
      ((List.range 64).map (fun j => BitVec.ofNat 8 (q.data.getD (64 * 0 + j) 0))) (s.wrapI F.Stk.BEATS pgStk 0 1)))
  rw [hr, hresp']
  refine ⟨if_pos hwr, ?_⟩
  simp only [Nat.mul_zero, Nat.zero_add, Nat.add_zero]
  rfl

end

/-! ### The watchdog -/

theorem stackAbort_facts {i : Nat} {s : State} {q : StackReq} (h : s.stack.req i = some q) :
    (stackAbort i s).stack.req i = none ∧ (∀ j ≠ i, (stackAbort i s).stack.req j = s.stack.req j) ∧
      (stackAbort i s).regs = s.regs ∧ (stackAbort i s).ring = s.ring ∧ (stackAbort i s).bnd = s.bnd ∧
      (q.wr = false → (stackAbort i s).resp = stackError i) := by
  unfold stackAbort
  rw [h]
  dsimp only
  split
  · rename_i hwr
    exact ⟨tfind_tdel_self _ _, fun j hj => tfind_tdel_ne _ hj, rfl, rfl, rfl, fun h => by rw [h] at hwr; exact nomatch hwr⟩
  · exact ⟨tfind_tdel_self _ _, fun j hj => tfind_tdel_ne _ hj, rfl, rfl, rfl, fun _ => rfl⟩

/-- The beats that the owner had before the watchdog bites. -/
def beatsMoved (moved i : Nat) (q : StackReq) (s : State) : State :=
  forAll (List.range moved) s (fun k s => stackBeat i (q.done + k) s)

/-- The event of a bite (R440). -/
def biteRaised (moved i : Nat) (q : StackReq) (t : State) : State :=
  (t.sat F.Stk.WD_BITES pgStk).raise Ev.stkWatchdog pgStk ((t.sat F.Stk.WD_BITES pgStk).get F.Stk.WD_BITES pgStk * 2 ^ 32 +
    (q.done + moved) * 2 ^ 16 + (stackPage i).getD 0xFF * 256 + i)

/-- A requester that has a page is held off (R441). -/
def heldOff (i : Nat) (t : State) : State :=
  match stackPage i with
  | some _ => t.set F.Stk.WD_MASKED pgStk (setBit (t.get F.Stk.WD_MASKED pgStk) i)
  | none => t

/-- A bite up to the next grant, before the function reset. -/
def bitten (moved i : Nat) (q : StackReq) (s : State) : State :=
  stackArbitrate (s.xclk + 3) (stackAbort i (heldOff i (biteRaised moved i q (beatsMoved moved i q s))))

/-- The function reset that a bite sends (R42, R441). -/
def biteReset (i : Nat) (t : State) : State :=
  match stackPage i with
  | some pg => execStacksWatchdog.stackReset pg t
  | none => t

theorem execStacksWatchdog_bites {s : State} {i moved : Nat} {q : StackReq} (howner : s.stack.owner = some i)
    (hreq : s.stack.req i = some q) (hmoved : moved < s.stack.len)
    (hlimit : s.stack.first + (moved - 1) + s.get F.Stk.WD_LIMIT pgStk * 1200 ≤ s.xclk) :
    exec (.stacksWatchdog moved) s = .next (biteReset i (bitten moved i q s)) := by
  simp only [exec, execStacksWatchdog, howner, hreq]
  rw [if_neg (by omega)]
  rfl

/-- The frame of the function reset that a bite sends. -/
def biteFrame (pg : Nat) (s : State) : RingReq := ⟨2, 4, pg, 0, if (s.bndOf pg).resetting then [pg] else []⟩

theorem biteReset_keeps (i : Nat) (t : State) : (biteReset i t).stack = t.stack ∧ (biteReset i t).regs = t.regs ∧
    (biteReset i t).resp = t.resp := by
  unfold biteReset
  split
  · unfold execStacksWatchdog.stackReset
    dsimp only
    split <;> exact ⟨rfl, rfl, rfl⟩
  · exact ⟨rfl, rfl, rfl⟩

theorem biteReset_ring {i pg : Nat} (h : stackPage i = some pg) (t : State) :
    (t.ring.onRing = none → (biteReset i t).ring.onRing = some (biteFrame pg t)) ∧
    ∀ r, t.ring.onRing = some r → (biteReset i t).ring.onRing = some r ∧
      (biteReset i t).ring.waiting = t.ring.waiting ++ [biteFrame pg t] := by
  unfold biteReset
  rw [h]
  dsimp only
  unfold execStacksWatchdog.stackReset
  constructor
  · intro hr
    dsimp only
    rw [hr]
    rfl
  · intro r hr
    dsimp only
    rw [hr]
    exact ⟨rfl, rfl⟩

theorem stackPage_lt {i pg : Nat} (h : stackPage i = some pg) : i < 16 := by
  by_contra hn
  obtain ⟨j, rfl⟩ := Nat.exists_eq_add_of_le' (Nat.le_of_not_lt hn)
  exact nomatch (show stackPage (j + 16) = none from rfl).symm.trans h

theorem heldOff_facts (i : Nat) (t : State) : (heldOff i t).stack = t.stack ∧ (heldOff i t).ring = t.ring ∧ (heldOff i t).bnd = t.bnd ∧
    (∀ g : Fld, g.off * 32 + g.lo ≠ F.Stk.WD_MASKED.off * 32 + F.Stk.WD_MASKED.lo → (heldOff i t).get g pgStk = t.get g pgStk) ∧
    (stackPage i = none → (heldOff i t).get F.Stk.WD_MASKED pgStk = t.get F.Stk.WD_MASKED pgStk) ∧
    (∀ pg, stackPage i = some pg → bitAt ((heldOff i t).get F.Stk.WD_MASKED pgStk) i = true) := by
  unfold heldOff
  cases hp : stackPage i with
  | none => exact ⟨rfl, rfl, rfl, fun _ _ => rfl, fun _ => rfl, nofun⟩
  | some pg =>
    have hi := stackPage_lt hp
    refine ⟨rfl, rfl, rfl, fun g hg => ?_, nofun, fun _ _ => ?_⟩
    · exact State.get_set_off _ (by simpa using hg)
    · dsimp only
      rw [State.get_set_self, bitAt_low (w := F.Stk.WD_MASKED.w) hi]
      exact bitAt_setBit_self _ _

/-- The state at the end of a bite, before the function reset. -/
theorem bitten_facts {s : State} {i : Nat} {q : StackReq} (hreq : s.stack.req i = some q) (moved : Nat) :
    let t := bitten moved i q s
    t.stack.req i = none ∧ (∀ j ≠ i, t.stack.req j = s.stack.req j) ∧
      t.stack.owner = (if s.ready pgStk then t.stackOldest else none) ∧ (t.stack.owner ≠ none → t.stack.first = s.xclk + 3) ∧
      t.get F.Stk.WD_BITES pgStk =
        low F.Stk.WD_BITES.w (min (s.get F.Stk.WD_BITES pgStk + 1) (2 ^ F.Stk.WD_BITES.w - 1)) ∧
      bitAt (t.get F.Hdr.EVENT_STATUS pgStk) Ev.stkWatchdog.bit = true ∧ t.ring = s.ring ∧ t.bnd = s.bnd ∧
      (stackPage i = none → t.get F.Stk.WD_MASKED pgStk = s.get F.Stk.WD_MASKED pgStk) ∧
      (∀ pg, stackPage i = some pg → bitAt (t.get F.Stk.WD_MASKED pgStk) i = true) ∧
      (q.wr = false → t.resp = stackError i) := by
  intro t
  have hpg : pgStk ≠ pgLedger := by decide
  have hbeats : Beats i q (q.done + moved) s (beatsMoved moved i q s) :=
    beats_all i q s s q.done (beats_start i q s s hreq rfl rfl rfl rfl rfl) moved
  obtain ⟨q', hmine, -, -, -, -, -, hwr, -⟩ := hbeats.mine
  generalize hu : beatsMoved moved i q s = u at hbeats hmine
  have hrstack : (biteRaised moved i q u).stack = u.stack := State.raise_stack ..
  have hrring : (biteRaised moved i q u).ring = u.ring := State.raise_ring ..
  have hrbnd : (biteRaised moved i q u).bnd = u.bnd := State.raise_bnd ..
  have hrget (g : Fld) (h1 : (g.off + 0 * g.stride) * 32 + g.lo ≠ 512) (h2 : g.off + 0 * g.stride < 4096) (h3 : g.lo < 32)
      (h4 : (g.off + 0 * g.stride) * 32 + g.lo ≠ (F.Stk.WD_BITES.off + 0 * F.Stk.WD_BITES.stride) * 32 + F.Stk.WD_BITES.lo) :
      (biteRaised moved i q u).get g pgStk = u.get g pgStk :=
    (State.get_raise_off _ _ hpg h1 h2 h3).trans (State.get_set_off _ h4)
  have hrbites : (biteRaised moved i q u).get F.Stk.WD_BITES pgStk = _ :=
    (State.get_raise_off _ _ hpg (by decide) (by decide) (by decide)).trans (sat_self u F.Stk.WD_BITES pgStk)
  have hrbit : bitAt ((biteRaised moved i q u).get F.Hdr.EVENT_STATUS pgStk) Ev.stkWatchdog.bit = true :=
    State.raise_bit _ _ _ hpg (by decide)
  obtain ⟨hhstack, hhring, hhbnd, hhget, hhnone, hhmask⟩ := heldOff_facts i (biteRaised moved i q u)
  obtain ⟨hgone, hothers, haregs, haring, habnd, haresp⟩ := stackAbort_facts (s := heldOff i (biteRaised moved i q u))
    (i := i) (q := q') (by rw [hhstack, hrstack]; exact hmine)
  obtain ⟨hreqs, howner, hfirst, hresp, hring, -, hbnd, hget⟩ := arbitrate_facts (s.xclk + 3)
    (stackAbort i (heldOff i (biteRaised moved i q u)))
  have ht : t = stackArbitrate (s.xclk + 3) (stackAbort i (heldOff i (biteRaised moved i q u))) := by
    rw [← hu]
    rfl
  rw [← ht] at hreqs howner hfirst hresp hring hbnd hget
  have hget' (g : Fld) (h1 : g.off + 0 * g.stride < 0x80) (h2 : g.lo < 32) :
      t.get g pgStk = (heldOff i (biteRaised moved i q u)).get g pgStk := by
    rw [hget g h1 h2]
    unfold State.get State.getI
    rw [haregs]
  refine ⟨?_, fun j hj => ?_, ?_, hfirst, ?_, ?_, ?_, ?_, fun hp => ?_, fun pg hp => ?_, fun h => ?_⟩
  · rw [reqs_req hreqs, hgone]
  · rw [reqs_req hreqs, hothers j hj, hhstack, hrstack, hbeats.other j hj]
  · rw [howner]
    congr 2
    unfold State.ready State.on
    rw [← hget _ (by decide) (by decide), hget' _ (by decide) (by decide), hhget _ (by decide),
      hrget _ (by decide) (by decide) (by decide) (by decide), hbeats.regs _ (by decide) (by decide) (by decide)]
  · rw [hget' _ (by decide) (by decide), hhget _ (by decide), hrbites, hbeats.regs _ (by decide) (by decide) (by decide)]
  · rw [hget' _ (by decide) (by decide), hhget _ (by decide), hrbit]
  · rw [hring, haring, hhring, hrring, hbeats.ring]
  · rw [hbnd, habnd, hhbnd, hrbnd, hbeats.bnd]
  · rw [hget' _ (by decide) (by decide), hhnone hp, hrget _ (by decide) (by decide) (by decide) (by decide),
      hbeats.regs _ (by decide) (by decide) (by decide)]
  · rw [hget' _ (by decide) (by decide), hhmask pg hp]
  · rw [hresp, haresp (hwr.trans h)]

theorem stackOldest_congr {s t : State} (h : t.stack = s.stack) : t.stackOldest = s.stackOldest := by
  unfold State.stackOldest
  rw [h]

theorem get_of_regs_eq {s t : State} (h : t.regs = s.regs) (g : Fld) (pg : Nat) : t.get g pg = s.get g pg := by
  unfold State.get State.getI
  rw [h]

/-- Settles O38, command by command. How requests that cannot be served are met, and the answer at a bite, are choices of the model
(log 84). -/
theorem stacksBus : Obligations.StacksBus := by
  unfold Obligations.StacksBus
  refine ⟨fun s hs i h => stackOldest_least hs h, fun s => ⟨fun i sdram addr wr beats data h => execStacksRequest_ignored h,
    fun i sdram addr wr beats data hi hquiet hreq hmask haddr hpos hmax hin => ⟨_,
      execStacksRequest_taken hi hquiet hreq hmask haddr hpos hmax hin, ?request⟩,
    fun howner upsets moved => ⟨?_, ?_⟩, fun i q howner hreq => ⟨execStacksTenureEnd_early howner hreq,
      fun hover hheld upsets => ⟨_, execStacksTenureEnd_over howner hreq hover hheld upsets, ?tenure⟩,
      fun hover hlen hbeats hdone hroom haddr hgood => ⟨fun hwr hgot hpois => ?read, fun hwr hin => ?write⟩,
      fun moved => execStacksWatchdog_early howner hreq, fun moved hmoved hlimit =>
        ⟨_, execStacksWatchdog_bites howner hreq hmoved hlimit, ?bite⟩⟩⟩⟩
  case request =>
    obtain ⟨p, hp⟩ : ∃ p, p = presented i (stackRequest s sdram addr wr beats data) s := ⟨_, rfl⟩
    have hpreq : p.stack.req i = some (stackRequest s sdram addr wr beats data) := by rw [hp, presented_req]
    have hpother (j : Nat) (hj : j ≠ i) : p.stack.req j = s.stack.req j := by rw [hp, presented_req_ne _ _ hj]
    rw [← hp]
    by_cases hfree : s.stack.owner.isNone ∧ s.ready pgStk
    · rw [if_pos hfree]
      obtain ⟨hreqs, howner, hfirst, hlen, -⟩ := grant_facts i (s.xclk + 3) p _ hpreq
      refine ⟨by rw [reqs_req hreqs, hpreq]; rfl, fun j hj => by rw [reqs_req hreqs, hpother j hj], fun _ _ => ⟨howner, hfirst, ?_⟩,
        fun h => ?_⟩
      · rw [hlen, hp]
        rfl
      · rcases h with h | h
        · exact absurd (Option.isNone_iff_eq_none.mp hfree.1) h
        · exact nomatch hfree.2.symm.trans h
    · rw [if_neg hfree]
      refine ⟨hpreq, hpother, fun hn hr => absurd ⟨by rw [hn]; rfl, hr⟩ hfree, fun _ => ?_⟩
      rw [hp]
      exact ⟨rfl, rfl, rfl, rfl⟩
  case tenure =>
    obtain ⟨hready, hothers, hgone, hgoes⟩ := tenureEnd_facts hreq upsets
    obtain ⟨hreqs, howner', hfirst, -⟩ := arbitrate_facts (s.xclk + 1) (tenureEnd i q s (tenureBeats upsets i q s))
    rw [hready] at howner'
    refine ⟨fun j hj => (reqs_req hreqs j).trans (hothers j hj), howner', hfirst, fun h => (reqs_req hreqs i).trans (hgone h),
      fun h => ?_⟩
    rw [reqs_req hreqs]
    exact hgoes h
  case read =>
    obtain ⟨hresp, hroom'⟩ := oneBeat_read hreq hlen hbeats hdone hroom haddr hgood hwr hgot hpois (s.xclk + 1)
    exact ⟨_, execStacksTenureEnd_over howner hreq hover (fun h => nomatch h.symm.trans hroom) [], hresp, hroom'⟩
  case write =>
    obtain ⟨hresp, hroom'⟩ := oneBeat_write hreq hlen hbeats hdone hroom hwr hin (s.xclk + 1)
    refine ⟨_, execStacksTenureEnd_over howner hreq hover (fun h => nomatch h.symm.trans hroom) [], hresp, fun j hj => ?_,
      fun a ha => ?_⟩
    · rw [hroom', memByte_memWrite, List.length_map, List.length_range, if_pos (by omega), Nat.add_sub_cancel_left]
      simp [List.getD_eq_getElem?_getD, hj]
    · rw [hroom', memByte_memWrite_out _ _ _ (by rw [List.length_map, List.length_range]; omega)]
  case bite =>
    obtain ⟨hgone, hothers, howner', hfirst, hbites, hbit, hring, hbnd, hnone, hmask, hresp⟩ := bitten_facts hreq moved
    obtain ⟨hstack, hregs, hresp'⟩ := biteReset_keeps i (bitten moved i q s)
    have hframe (pg : Nat) : biteFrame pg (bitten moved i q s) = ⟨2, 4, pg, 0, if (s.bndOf pg).resetting then [pg] else []⟩ := by
      unfold biteFrame State.bndOf
      rw [hbnd]
    rw [stackOldest_congr hstack, hstack, get_of_regs_eq hregs, get_of_regs_eq hregs, get_of_regs_eq hregs, hresp']
    refine ⟨hgone, hothers, howner', hfirst, hbites, hbit, fun hp => ⟨hnone hp, ?_, hresp⟩, fun pg hp => ⟨hmask pg hp, ?_⟩⟩
    · unfold biteReset
      rw [hp]
      exact hring
    · obtain ⟨hidle, hbusy⟩ := biteReset_ring hp (bitten moved i q s)
      rw [hring, hframe] at hidle hbusy
      exact ⟨hidle, hbusy⟩
  · simp only [exec, execStacksTenureEnd, howner]
  · simp only [exec, execStacksWatchdog, howner]

end Sys2Proof.Machine
end

section
/-! Frames received and sent, links, learned addresses, residence times and host slots of the switch. -/

-- One declaration after another, as in the files before: the text is also checked in one piece.
set_option Elab.async false

namespace Sys2Proof.Machine

/-! ### Egress queues -/

theorem enqueue_dropped {out k : Nat} {q : QFrame} {s : State}
    (h : ¬ (queueBytes (s.queue out k) + (q.bytes.length + 4) ≤ s.get F.Sw.QUEUE_LIMIT pgSw * 1024 ∧
      s.net.queues.foldl (fun a e => a + queueBytes e.2) 0 + (q.bytes.length + 4) ≤ 512 * 1024)) :
    enqueue out k q s = (s.sat F.Sw.BUFFER_DROPS pgSw).raise Ev.netBufferDrop pgSw
      (arg64 ((s.sat F.Sw.BUFFER_DROPS pgSw).get F.Sw.BUFFER_DROPS pgSw) (out * 16 + k)) := if_neg h

/-! ### Reception -/

/-- The FEC codewords of a frame counted. -/
def fecCounted (n c u : Nat) (s : State) : State :=
  (s.satI F.Net.FEC_CORRECTED (pgNet n) 0 c).satI F.Net.FEC_UNCORRECTED (pgNet n) 0 u

/-- The FEC codewords of a frame counted, with the event of those that could not be corrected. -/
def fecNoted (n c u : Nat) (s : State) : State :=
  if 0 < u then (fecCounted n c u s).raise Ev.netFecUncorrected (pgNet n)
    (arg64 ((fecCounted n c u s).get F.Net.FEC_UNCORRECTED (pgNet n)) 0)
  else fecCounted n c u s

theorem fecNoted_net (n c u : Nat) (s : State) : (fecNoted n c u s).net = s.net := by
  unfold fecNoted
  split
  · exact raise_net _ _ _ _
  · rfl

/-- A field of the port's page that is neither a FEC counter nor EVENT_STATUS. -/
theorem fecNoted_get {n : Nat} (hn : n < 2) (c u : Nat) (s : State) {g : Fld} (hg : g.off + 0 * g.stride < 4096) (hl : g.lo < 32)
    (hev : (g.off + 0 * g.stride) * 32 + g.lo ≠ 512)
    (hc : (g.off + 0 * g.stride) * 32 + g.lo ≠ (F.Net.FEC_CORRECTED.off + 0 * F.Net.FEC_CORRECTED.stride) * 32 + F.Net.FEC_CORRECTED.lo)
    (hu : (g.off + 0 * g.stride) * 32 + g.lo ≠
      (F.Net.FEC_UNCORRECTED.off + 0 * F.Net.FEC_UNCORRECTED.stride) * 32 + F.Net.FEC_UNCORRECTED.lo) :
    (fecNoted n c u s).get g (pgNet n) = s.get g (pgNet n) := by
  have hcounted : (fecCounted n c u s).get g (pgNet n) = s.get g (pgNet n) :=
    (State.get_setI_off _ hu).trans (State.get_setI_off _ hc)
  unfold fecNoted
  split
  · exact (State.get_raise_off _ _ (net_pages n hn).1 hev hg hl).trans hcounted
  · exact hcounted

/-- A frame with errors counted in the counter of each kind. -/
def errorsCounted (n : Nat) (errs : List Nat) (s : State) : State :=
  forAll errs s (fun e s => s.sat (rxCounters.getD e F.Net.RX_CONTROL) (pgNet n))

theorem errorsCounted_net (n : Nat) (errs : List Nat) (s : State) : (errorsCounted n errs s).net = s.net :=
  forAll_keeps errs s _ State.net fun _ _ => rfl

theorem errorsCounted_frames (n : Nat) {errs : List Nat} (h : ∀ e ∈ errs, e < 4) (s : State) :
    (errorsCounted n errs s).get F.Net.RX_FRAMES (pgNet n) = s.get F.Net.RX_FRAMES (pgNet n) :=
  forAll_over errs s _ (fun z => z.get F.Net.RX_FRAMES (pgNet n) = s.get F.Net.RX_FRAMES (pgNet n)) rfl fun e he z hz => by
    refine Eq.trans ?_ hz
    unfold State.sat State.satI
    exact State.get_set_off _ ((rx_off e (h e he)).1 F.Net.RX_FRAMES (List.mem_singleton_self _))

/-- A frame with errors that goes no further (R448). -/
def badFrame (n c u : Nat) (errs : List Nat) (k : Nat) (s : State) : State :=
  (errorsCounted n errs (fecNoted n c u s)).raise Ev.netRxError (pgNet n)
    (arg64 (rxCounters.foldl (fun a c' => a + (errorsCounted n errs (fecNoted n c u s)).get c' (pgNet n)) 0) (low 4 (Config.rxKind k)))

theorem badFrame_facts {n : Nat} (hn : n < 2) (c u : Nat) {errs : List Nat} (hnodup : errs.Nodup) (hkinds : ∀ e ∈ errs, e < 4)
    (k : Nat) (s : State) :
    (badFrame n c u errs k s).net = s.net ∧
    (badFrame n c u errs k s).get F.Net.RX_FRAMES (pgNet n) = s.get F.Net.RX_FRAMES (pgNet n) ∧
    (∀ e < 4, (badFrame n c u errs k s).get (rxCounters.getD e F.Net.RX_CONTROL) (pgNet n) =
      if e ∈ errs then low 32 (min (s.get (rxCounters.getD e F.Net.RX_CONTROL) (pgNet n) + 1) (2 ^ 32 - 1))
      else s.get (rxCounters.getD e F.Net.RX_CONTROL) (pgNet n)) ∧
    bitAt ((badFrame n c u errs k s).get F.Hdr.EVENT_STATUS (pgNet n)) Ev.netRxError.bit = true := by
  have hpage := (net_pages n hn).1
  refine ⟨?_, ?_, fun e he => ?_, State.raise_bit _ _ _ hpage (by decide)⟩
  · exact (raise_net _ _ _ _).trans ((errorsCounted_net _ _ _).trans (fecNoted_net _ _ _ _))
  · refine (State.get_raise_off _ _ hpage (by decide) (by decide) (by decide)).trans ?_
    exact (errorsCounted_frames n hkinds _).trans
      (fecNoted_get hn c u s (by decide) (by decide) (by decide) (by decide) (by decide))
  · obtain ⟨-, hoff, hlo, hc, hu, hev⟩ := rx_off e he
    refine (State.get_raise_off _ _ hpage hev hoff hlo).trans ((rx_count (pgNet n) errs hnodup hkinds _ e he).trans ?_)
    rw [fecNoted_get hn c u s hoff hlo hev hc hu]

/-- A good frame counted (R448). -/
def goodFrame (n c : Nat) (s : State) : State := (fecCounted n c 0 s).wrap F.Net.RX_FRAMES (pgNet n)

theorem goodFrame_frames (n c : Nat) (s : State) :
    (goodFrame n c s).get F.Net.RX_FRAMES (pgNet n) = low 32 (s.get F.Net.RX_FRAMES (pgNet n) + 1) := by
  refine (State.get_set_self _ _ _ _).trans ?_
  refine congrArg (fun x => low 32 (x + 1)) ((State.get_setI_off _ ?_).trans (State.get_setI_off _ ?_)) <;> decide

theorem goodFrame_pages (n c : Nat) (s : State) : s.OnPages (goodFrame n c s) [pgNet n] :=
  (((State.OnPages.refl s [pgNet n]).setI _ (List.mem_singleton_self _) (by decide) (by decide)).setI _
    (List.mem_singleton_self _) (by decide) (by decide)).setI _ (List.mem_singleton_self _) (by decide) (by decide)

section
variable {s : State} {n c u : Nat} {ps : Int} {bad : Bool} {bytes : List Byte}

theorem execFrameReceived_lost (h : 2 ≤ n ∨ s.ready (pgNet n) = false ∨ s.on F.Net.LINK_UP (pgNet n) = false) :
    exec (.frameReceived n ps bad c u bytes) s = .next s := by
  refine congrArg Host.Outcome.next (if_neg ?_)
  rintro ⟨hn, hready, hup⟩
  obtain h | h | h := h
  · omega
  · exact nomatch h.symm.trans hready
  · exact nomatch h.symm.trans hup

variable (hn : n < 2) (hready : s.ready (pgNet n) = true) (hup : s.on F.Net.LINK_UP (pgNet n) = true)
include hn hready hup

theorem execFrameReceived_bad {k : Nat}
    (h : (frameErrors (parseFrame bytes) (bytes.length + 4) (bad || decide (0 < u))).getLast? = some k) :
    exec (.frameReceived n ps bad c u bytes) s =
      .next (badFrame n c u (frameErrors (parseFrame bytes) (bytes.length + 4) (bad || decide (0 < u))) k s) := by
  refine congrArg Host.Outcome.next ((if_pos ⟨hn, hready, hup⟩).trans ?_)
  dsimp only
  rw [h]
  rfl

variable (hgood : frameErrors (parseFrame bytes) (bytes.length + 4) bad = [])
include hgood

/-- What becomes of a good frame, by the switch and the frame's kind. -/
theorem execFrameReceived_good : exec (.frameReceived n ps bad c 0 bytes) s = .next
    (if s.active pgSw = false then goodFrame n c s
    else if (parseFrame bytes).src = s.macAddr then (goodFrame n c s).raise Ev.netAddrConflict pgSw (n + 1)
    else match ptpOf (parseFrame bytes) with
      | some (l3, off) => ptpFrame (parseFrame bytes) (n + 1) l3 off (s.stampAt n ps false) (goodFrame n c s)
      | none => match (goodFrame n c s).vlanOf (n + 1) (parseFrame bytes).tag with
        | none => (goodFrame n c s).sat F.Sw.VLAN_DROPS pgSw
        | some (v, vid, pcp) =>
          forAll ((learn vid (parseFrame bytes).src (n + 1) (goodFrame n c s)).forwardTo (n + 1) v vid (parseFrame bytes).dst)
            (learn vid (parseFrame bytes).src (n + 1) (goodFrame n c s)) (fun out z => sendOut (parseFrame bytes) v vid pcp (n + 1)
              { bytes := [], arrived := z.now, stamp := s.stampAt n ps false } (pcp / 2) out z)) := by
  refine congrArg Host.Outcome.next ((if_pos ⟨hn, hready, hup⟩).trans ?_)
  dsimp only
  rw [show (bad || decide (0 < 0)) = bad by simp, hgood]
  rfl

theorem execFrameReceived_inactive (h : s.active pgSw = false) :
    exec (.frameReceived n ps bad c 0 bytes) s = .next (goodFrame n c s) := by
  rw [execFrameReceived_good hn hready hup hgood, if_pos h]

variable (hact : s.active pgSw = true)
include hact

theorem execFrameReceived_own (h : (parseFrame bytes).src = s.macAddr) :
    exec (.frameReceived n ps bad c 0 bytes) s = .next ((goodFrame n c s).raise Ev.netAddrConflict pgSw (n + 1)) := by
  rw [execFrameReceived_good hn hready hup hgood, if_neg (by rw [hact]; decide), if_pos h]

variable (hsrc : (parseFrame bytes).src ≠ s.macAddr)
include hsrc

theorem execFrameReceived_ptp {l3 off : Nat} (h : ptpOf (parseFrame bytes) = some (l3, off)) :
    exec (.frameReceived n ps bad c 0 bytes) s =
      .next (ptpFrame (parseFrame bytes) (n + 1) l3 off (s.stampAt n ps false) (goodFrame n c s)) := by
  rw [execFrameReceived_good hn hready hup hgood, if_neg (by rw [hact]; decide), if_neg hsrc, h]

variable (hptp : ptpOf (parseFrame bytes) = none)
include hptp

theorem execFrameReceived_noVlan (h : (goodFrame n c s).vlanOf (n + 1) (parseFrame bytes).tag = none) :
    exec (.frameReceived n ps bad c 0 bytes) s = .next ((goodFrame n c s).sat F.Sw.VLAN_DROPS pgSw) := by
  rw [execFrameReceived_good hn hready hup hgood, if_neg (by rw [hact]; decide), if_neg hsrc, hptp, h]

theorem execFrameReceived_forwarded {v vid pcp : Nat}
    (h : (goodFrame n c s).vlanOf (n + 1) (parseFrame bytes).tag = some (v, vid, pcp)) :
    exec (.frameReceived n ps bad c 0 bytes) s = .next
      (forAll ((learn vid (parseFrame bytes).src (n + 1) (goodFrame n c s)).forwardTo (n + 1) v vid (parseFrame bytes).dst)
        (learn vid (parseFrame bytes).src (n + 1) (goodFrame n c s)) (fun out z => sendOut (parseFrame bytes) v vid pcp (n + 1)
          { bytes := [], arrived := z.now, stamp := s.stampAt n ps false } (pcp / 2) out z)) := by
  rw [execFrameReceived_good hn hready hup hgood, if_neg (by rw [hact]; decide), if_neg hsrc, hptp, h]

end

/-- A peer delay message is counted and goes no further (R450). -/
theorem ptpFrame_pdelay {f : Frame} {off : Nat} (h : beAt (f.plain.drop off) 0 1 % 16 ∈ [2, 3, 10]) (port l3 : Nat) (stamp : Int)
    (s : State) : (ptpFrame f port l3 off stamp s).net = s.net ∧ (ptpFrame f port l3 off stamp s).get F.Ptp.PDELAY_DROPS pgPtp =
      low F.Ptp.PDELAY_DROPS.w (min (s.get F.Ptp.PDELAY_DROPS pgPtp + 1) (2 ^ F.Ptp.PDELAY_DROPS.w - 1)) := by
  have htype : beAt (f.plain.drop off) 0 1 % 16 = 2 ∨ beAt (f.plain.drop off) 0 1 % 16 = 3 ∨ beAt (f.plain.drop off) 0 1 % 16 = 10 := by
    simpa using h
  have heq : ptpFrame f port l3 off stamp s = (if beAt (f.plain.drop off) 20 8 = s.clockId
      then s.raise Ev.ptpAddrConflict pgPtp port else s).sat F.Ptp.PDELAY_DROPS pgPtp := if_pos htype
  have hself (z : State) (hnet : z.net = s.net) (hget : z.get F.Ptp.PDELAY_DROPS pgPtp = s.get F.Ptp.PDELAY_DROPS pgPtp) :
      (z.sat F.Ptp.PDELAY_DROPS pgPtp).net = s.net ∧ (z.sat F.Ptp.PDELAY_DROPS pgPtp).get F.Ptp.PDELAY_DROPS pgPtp =
        low F.Ptp.PDELAY_DROPS.w (min (s.get F.Ptp.PDELAY_DROPS pgPtp + 1) (2 ^ F.Ptp.PDELAY_DROPS.w - 1)) :=
    ⟨hnet, by rw [sat_self, hget]⟩
  rw [heq]
  split
  · exact hself _ (raise_net _ _ _ _) (State.get_raise_off _ _ (by decide) (by decide) (by decide) (by decide))
  · exact hself s rfl rfl

/-! ### Transmission -/

/-- The bytes with which a queued frame leaves its port (R460). -/
def bytesLeaving (q : QFrame) (res : Int) : List Byte := if q.kind = .correct then (addCorrection q res).bytes else q.bytes

/-- A frame has left its queue on a network port (R453). -/
def frameLeft (n k : Nat) (ps : Int) (q : QFrame) (qs : List QFrame) (s : State) : State :=
  (s.updNet (fun x => { x with
    queues := tput x.queues (4 * (n + 1) + k) qs
    sent := tput x.sent (n + 1) (bytesLeaving q ((s.stampAt n ps true - q.stamp) * 32768))
    idle := tput x.idle (n + 1) (s.now + s.frameTime n q.bytes.length) })).wrap F.Net.TX_FRAMES (pgNet n)

section
variable {s : State} {n : Nat}

theorem execFrameTransmit_empty (ps : Int) (h : ∀ k < 4, s.queue (n + 1) k = []) : exec (.frameTransmit n ps) s = .next s := by
  simp only [exec, execFrameTransmit, List.findSome?_cons, List.findSome?_nil, h 0 (by decide), h 1 (by decide), h 2 (by decide),
    h 3 (by decide)]

variable {k : Nat} {q : QFrame} {qs : List QFrame}

theorem frameLeft_facts (ps : Int) : (frameLeft n k ps q qs s).queue (n + 1) k = qs ∧
    tget (frameLeft n k ps q qs s).net.sent (n + 1) [] = bytesLeaving q ((s.stampAt n ps true - q.stamp) * 32768) ∧
    tget (frameLeft n k ps q qs s).net.idle (n + 1) 0 = s.now + s.frameTime n q.bytes.length ∧
    (frameLeft n k ps q qs s).get F.Net.TX_FRAMES (pgNet n) = low 32 (s.get F.Net.TX_FRAMES (pgNet n) + 1) :=
  ⟨tget_tput_self _ _ _ _, tget_tput_self _ _ _ _, tget_tput_self _ _ _ _, State.get_set_self _ _ _ _⟩

variable (hn : n < 2) (hk : k < 4) (hq : s.queue (n + 1) k = q :: qs) (hhigher : ∀ j < 4, k < j → s.queue (n + 1) j = [])
  (hready : s.ready (pgNet n) = true) (hen : s.on F.Net.TX_EN (pgNet n) = true) (hsw : s.ready pgSw = true)
  (harr : q.arrived + 40 ≤ s.now) (hidle : tget s.net.idle (n + 1) 0 ≤ s.now)
include hn hk hq hhigher hready hen hsw harr hidle

theorem execFrameTransmit_sent (ps : Int) : exec (.frameTransmit n ps) s = .next (match q.kind with
    | .twoStep key => syncLeft key ((s.stampAt n ps true - q.stamp) * 32768) (frameLeft n k ps q qs s)
    | .own seq => (frameLeft n k ps q qs s).updPtp (fun x => { x with reqT3 := some (seq, s.stampAt n ps true) })
    | _ => frameLeft n k ps q qs s) :=
  (tx_eq s n k ps q qs hk hq hhigher).trans
    ((congrArg Host.Outcome.next (if_pos ⟨hn, hready, hen, hsw, harr, hidle⟩)).trans (by unfold frameLeft bytesLeaving; cases q.kind <;> rfl))

/-- A frame that notes no residence time leaves (R453, R464). -/
theorem execFrameTransmit_plain (ps : Int) (hkind : q.kind = .plain ∨ q.kind = .correct ∨ ∃ seq, q.kind = .own seq) :
    ∃ t, exec (.frameTransmit n ps) s = .next t ∧ t.queue (n + 1) k = qs ∧
      tget t.net.sent (n + 1) [] = bytesLeaving q ((s.stampAt n ps true - q.stamp) * 32768) ∧
      tget t.net.idle (n + 1) 0 = s.now + s.frameTime n q.bytes.length ∧
      t.get F.Net.TX_FRAMES (pgNet n) = low 32 (s.get F.Net.TX_FRAMES (pgNet n) + 1) ∧
      ∀ seq, q.kind = .own seq → t.ptp.reqT3 = some (seq, s.stampAt n ps true) := by
  obtain ⟨hqueue, hsent, hidle', hframes⟩ := frameLeft_facts (s := s) (n := n) (k := k) (q := q) (qs := qs) ps
  refine ⟨_, execFrameTransmit_sent hn hk hq hhigher hready hen hsw harr hidle ps, ?_⟩
  rcases hkind with h | h | ⟨seq, h⟩
  · rw [h] at *
    exact ⟨hqueue, hsent, hidle', hframes, nofun⟩
  · rw [h] at *
    exact ⟨hqueue, hsent, hidle', hframes, nofun⟩
  · simp only [h]
    exact ⟨hqueue, hsent, hidle', hframes, fun seq' hseq => by rw [TcKind.own.inj hseq]; rfl⟩

end

/-! ### Links -/

section
variable {s : State} {n : Nat} (hn : n < 2) (hready : s.ready (pgNet n) = true)
include hn hready

theorem execNetLinkUp_comes (hdown : s.on F.Net.LINK_UP (pgNet n) = false) : ∃ t, exec (.netLinkUp n) s = .next t ∧
    t.on F.Net.LINK_UP (pgNet n) = true ∧ t.on F.Net.BLOCK_LOCK (pgNet n) = true ∧ t.on F.Net.LOCAL_FAULT (pgNet n) = false ∧
    t.on F.Net.AM_LOCK (pgNet n) = (s.get F.Net.FEC (pgNet n) == 2) ∧
    bitAt (t.get F.Hdr.EVENT_STATUS (pgNet n)) Ev.netLinkUp.bit = true := by
  have hpage := (net_pages n hn).1
  refine ⟨_, congrArg Host.Outcome.next (if_pos ⟨hn, hready, hdown⟩), on_of_get ?up, on_of_get ?block, off_of_get ?fault, ?align,
    State.raise_bit _ _ _ hpage (by decide)⟩
  case up =>
    rw [State.get_raise_off _ _ hpage (by decide) (by decide) (by decide), State.get_set_self]
    rfl
  case block =>
    rw [State.get_raise_off _ _ hpage (by decide) (by decide) (by decide), State.get_set_off _ (by decide),
      State.get_set_off _ (by decide), State.get_set_off _ (by decide), State.get_set_self]
    rfl
  case fault =>
    rw [State.get_raise_off _ _ hpage (by decide) (by decide) (by decide), State.get_set_off _ (by decide), State.get_set_self]
    rfl
  case align =>
    unfold State.on
    rw [State.get_raise_off _ _ hpage (by decide) (by decide) (by decide), State.get_set_off _ (by decide),
      State.get_set_off _ (by decide), State.get_set_self]
    cases s.get F.Net.FEC (pgNet n) == 2 <;> rfl

variable (hup : s.on F.Net.LINK_UP (pgNet n) = true)
include hup

omit hn hready in
theorem execNetLinkUp_stands : exec (.netLinkUp n) s = .next s :=
  congrArg Host.Outcome.next (if_neg fun h => nomatch h.2.2.symm.trans hup)

/-- The state of the locks after a link has gone down for a cause (R447). -/
def locksLost (n cause : Nat) (s : State) : State :=
  match cause with
  | 1 => (s.set F.Net.BLOCK_LOCK (pgNet n) 0).set F.Net.AM_LOCK (pgNet n) 0
  | 2 => s.set F.Net.AM_LOCK (pgNet n) 0
  | _ => s.set F.Net.LOCAL_FAULT (pgNet n) 1

theorem execNetLinkDown_goes {cause : Nat} (h1 : 1 ≤ cause) (h3 : cause ≤ 3) : exec (.netLinkDown n cause) s =
    .next (((locksLost n cause s).set F.Net.LINK_UP (pgNet n) 0).raise Ev.netLinkDown (pgNet n) cause) :=
  (congrArg Host.Outcome.next (if_pos ⟨hn, h1, h3, hready, hup⟩)).trans rfl

omit hready hup in
/-- A field of the port that neither the link nor the event writes. -/
theorem linkDown_get (u : State) (cause : Nat) {g : Fld} (hg : g.off + 0 * g.stride < 4096) (hl : g.lo < 32)
    (hev : (g.off + 0 * g.stride) * 32 + g.lo ≠ 512)
    (hlink : (g.off + 0 * g.stride) * 32 + g.lo ≠ (F.Net.LINK_UP.off + 0 * F.Net.LINK_UP.stride) * 32 + F.Net.LINK_UP.lo) :
    ((u.set F.Net.LINK_UP (pgNet n) 0).raise Ev.netLinkDown (pgNet n) cause).get g (pgNet n) = u.get g (pgNet n) :=
  (State.get_raise_off _ _ (net_pages n hn).1 hev hg hl).trans (State.get_set_off _ hlink)

end

theorem linkDown_down {n : Nat} (hn : n < 2) (u : State) (cause : Nat) :
    ((u.set F.Net.LINK_UP (pgNet n) 0).raise Ev.netLinkDown (pgNet n) cause).on F.Net.LINK_UP (pgNet n) = false ∧
    bitAt (((u.set F.Net.LINK_UP (pgNet n) 0).raise Ev.netLinkDown (pgNet n) cause).get F.Hdr.EVENT_STATUS (pgNet n))
      Ev.netLinkDown.bit = true := by
  have hpage := (net_pages n hn).1
  refine ⟨off_of_get ?_, State.raise_bit _ _ _ hpage (by decide)⟩
  rw [State.get_raise_off _ _ hpage (by decide) (by decide) (by decide), State.get_set_self]
  rfl

theorem locksLost_locks (n : Nat) (s : State) : (locksLost n 1 s).get F.Net.BLOCK_LOCK (pgNet n) = 0 ∧
    (locksLost n 1 s).get F.Net.AM_LOCK (pgNet n) = 0 ∧ (locksLost n 2 s).get F.Net.AM_LOCK (pgNet n) = 0 ∧
    (locksLost n 3 s).get F.Net.LOCAL_FAULT (pgNet n) = 1 := by
  refine ⟨?_, ?_, ?_, ?_⟩
  · exact (State.get_set_off _ (by decide)).trans (State.get_set_self _ _ _ _)
  all_goals exact State.get_set_self _ _ _ _

/-! ### Tables -/

/-- An address leaves the table once its time is over, and LEARNED follows (R452). -/
theorem execAddressAgeOut_facts (s : State) (vid mac : Nat) : ∃ t, exec (.addressAgeOut vid mac) s = .next t ∧
    t.get F.Sw.LEARNED pgSw = low F.Sw.LEARNED.w t.net.learned.length ∧ ∀ e, e ∈ t.net.learned ↔ e ∈ s.net.learned ∧
      ¬ (e.vid = vid ∧ e.mac = mac ∧ e.seen + s.get F.Sw.AGE_TIME pgSw * 1000000000 ≤ s.now) := by
  refine ⟨_, rfl, State.get_set_self _ _ _ _, fun e => List.mem_filter.trans (and_congr_right fun _ => ?_)⟩
  simp only [Bool.not_eq_true', ← Bool.not_eq_true, Bool.and_eq_true, beq_iff_eq, decide_eq_true_eq, and_assoc]
  exact Iff.rfl

theorem execTcEntryExpiry_facts (s : State) : ∃ t, exec .tcEntryExpiry s = .next t ∧
    (∀ e, e ∈ t.net.tc ↔ e ∈ s.net.tc ∧ ¬ (e.res.isSome = true ∧ e.left + 1000000000 ≤ s.now)) ∧
    t.regs = s.regs ∧ t.net.queues = s.net.queues := by
  refine ⟨_, rfl, fun e => List.mem_filter.trans (and_congr_right fun _ => ?_), rfl, rfl⟩
  simp only [Bool.not_eq_true', ← Bool.not_eq_true, Bool.and_eq_true, decide_eq_true_eq]
  exact Iff.rfl

/-! ### Host slots -/

theorem execHostTxWrite_passes {s : State} {owner : Nat} (h : s.passes pgSw owner = true) (wr : Nat) :
    exec (.hostTxWrite wr owner) s = .next (hostRetry (s.set F.Sw.HOST_TX_WR pgSw wr)) :=
  congrArg Host.Outcome.next (gateReg_passes h _ _ _)

/-- Nothing is sent from an empty ring, from a quiesced switch, or where there is no ring (R117, R455). -/
theorem hostSend_idle {s : State} (h : s.get F.Sw.HOST_TX_RD pgSw = s.get F.Sw.HOST_TX_WR pgSw ∨ s.on F.Hdr.QUIESCE pgSw = true ∨
    s.get F.Sw.HOST_TX_SIZE pgSw = 0) (fuel : Nat) : hostSend fuel s = s := by
  cases fuel with
  | zero => rfl
  | succ fuel =>
    refine if_pos ?_
    rcases h with h | h | h <;> simp only [h, true_or, or_true]

/-- A slot that is the only one waiting is consumed (R455). -/
theorem hostRetry_one {u : State} (hsize : u.get F.Sw.HOST_TX_WR pgSw < u.get F.Sw.HOST_TX_SIZE pgSw)
    (hwaits : u.get F.Sw.HOST_TX_RD pgSw ≠ u.get F.Sw.HOST_TX_WR pgSw)
    (hone : (u.get F.Sw.HOST_TX_RD pgSw + 1) % u.get F.Sw.HOST_TX_SIZE pgSw = u.get F.Sw.HOST_TX_WR pgSw)
    (hquiet : u.on F.Hdr.QUIESCE pgSw = false)
    (hheld : u.sdramHeld (u.get F.Sw.HOST_TX_BASE pgSw * 4096 + u.get F.Sw.HOST_TX_RD pgSw * 9216) 9216 = false)
    (hwidth : u.get F.Sw.HOST_TX_WR pgSw < 2 ^ 16) :
    (hostRetry u).get F.Sw.HOST_TX_RD pgSw = u.get F.Sw.HOST_TX_WR pgSw := by
  unfold hostRetry
  obtain ⟨fuel, hfuel⟩ : ∃ fuel, u.get F.Sw.HOST_TX_SIZE pgSw = fuel + 1 := Nat.exists_eq_add_one.mpr (by omega)
  rw [hfuel]
  obtain ⟨v, hv⟩ : ∃ v, v = (hostSlot (u.get F.Sw.HOST_TX_BASE pgSw * 4096 + u.get F.Sw.HOST_TX_RD pgSw * 9216) u).set
    F.Sw.HOST_TX_RD pgSw ((u.get F.Sw.HOST_TX_RD pgSw + 1) % u.get F.Sw.HOST_TX_SIZE pgSw) := ⟨_, rfl⟩
  have hstep : hostSend (fuel + 1) u = hostSend fuel v := by
    refine (if_neg ?_).trans (congrArg (hostSend fuel) hv.symm)
    rw [hquiet, hheld]
    simp only [Bool.false_eq_true, or_false]
    omega
  have hrd : v.get F.Sw.HOST_TX_RD pgSw = u.get F.Sw.HOST_TX_WR pgSw := by
    rw [hv, hone, State.get_set_self]
    exact low_of_lt hwidth
  have hwr : v.get F.Sw.HOST_TX_WR pgSw = u.get F.Sw.HOST_TX_WR pgSw := by
    rw [hv, State.get_set_off _ (by decide)]
    exact hostSlot_sw _ _ _ (by decide) (by decide) (by decide) (by decide) (by decide)
  rw [hstep, hostSend_idle (.inl (hrd.trans hwr.symm)), hrd]

/-! ### The obligation -/

/-- Settles O40, command by command: the state after each is written out, and the fields are read back from it. How a frame goes
through the switch and how addresses are learned are the model's choice (log 88), and so is that a command that is not due
does nothing (log 3). -/
theorem networkPorts : Obligations.NetworkPorts := by
  refine ⟨fun s out k q => ⟨fun hfits => ?fits, fun hfull => ?full⟩, fun s => ⟨fun n ps bad c u bytes => execFrameReceived_lost,
    fun n ps bad c bytes f hn hready hup hf => ?received, fun n ps => execFrameTransmit_empty ps,
    fun n ps k q qs hn hk hq hhigher hready hen hsw harr hidle =>
      ⟨execFrameTransmit_plain hn hk hq hhigher hready hen hsw harr hidle ps, fun key hkind => ?twoStep⟩,
    fun n hn hready => ⟨execNetLinkUp_comes hn hready, fun hup => ⟨execNetLinkUp_stands hup, fun cause h1 h3 =>
      ⟨_, execNetLinkDown_goes hn hready hup h1 h3, ?down⟩⟩⟩,
    execAddressAgeOut_facts s, execTcEntryExpiry_facts s, fun wr owner hpass => ⟨_, rfl, fun hidle => ?hostIdle,
      fun m hsize hwr hwaits hone hquiet hheld => ⟨_, execHostTxWrite_passes hpass wr, ?hostSent⟩⟩⟩⟩
  case fits =>
    rw [enqueue_fits out k q s hfits]
    exact ⟨tget_tput_self _ _ _ _, fun o j h => tget_tput_ne _ _ _ h⟩
  case full =>
    rw [enqueue_dropped hfull]
    refine ⟨raise_net _ _ _ _, State.raise_bit _ _ _ (by decide) (by decide), ?_⟩
    rw [State.get_raise_off _ _ (by decide) (by decide) (by decide) (by decide), sat_self]
  case received =>
    subst hf
    refine ⟨fun uc herrs => ?bad, fun hgood => ⟨goodFrame n c s, rfl, rfl, goodFrame_frames n c s, goodFrame_pages n c s,
      execFrameReceived_inactive hn hready hup hgood,
      fun hact hown => ⟨_, execFrameReceived_own hn hready hup hgood hact hown, raise_net _ _ _ _,
        State.raise_bit _ _ _ (by decide) (by decide)⟩,
      fun hact hsrc l3 off hptp hkind => ⟨_, execFrameReceived_ptp hn hready hup hgood hact hsrc hptp, ?pdelay⟩,
      fun hact hsrc hptp => ⟨execFrameReceived_noVlan hn hready hup hgood hact hsrc hptp, fun v vid pcp hvlan => ⟨_, rfl,
        execFrameReceived_forwarded hn hready hup hgood hact hsrc hptp hvlan, forwardTo_ne _ _ _ _ _,
        learn_mem _ _ _ (goodFrame n c s)⟩⟩⟩⟩
    case bad =>
      obtain ⟨hnodup, hkinds⟩ := rx_kinds (parseFrame bytes) (bytes.length + 4) (bad || decide (0 < uc))
      exact ⟨_, execFrameReceived_bad hn hready hup (List.getLast?_eq_some_getLast herrs), badFrame_facts hn c uc hnodup hkinds _ s⟩
    case pdelay =>
      obtain ⟨hnet, hdrops⟩ := ptpFrame_pdelay hkind (n + 1) l3 (s.stampAt n ps false) (goodFrame n c s)
      refine ⟨hnet, ?_⟩
      rw [hdrops, (goodFrame_pages n c s).get (by simpa using (net_pages n hn).2.2.symm) (by decide) (by decide)]
  case twoStep =>
    obtain ⟨hqueue, hsent, -⟩ := frameLeft_facts (s := s) (n := n) (k := k) (q := q) (qs := qs) ps
    refine ⟨frameLeft n k ps q qs s, ?_, hqueue, hsent.trans (if_neg (by rw [hkind]; exact nofun)), rfl, rfl⟩
    rw [execFrameTransmit_sent hn hk hq hhigher hready hen hsw harr hidle ps, hkind]
  case down =>
    obtain ⟨hblock, halign, halign', hfault⟩ := locksLost_locks n s
    obtain ⟨hdown, hbit⟩ := linkDown_down hn (locksLost n cause s) cause
    refine ⟨hdown, ?_, ?_, ?_, hbit⟩
    · rintro rfl
      exact ⟨off_of_get ((linkDown_get hn _ _ (by decide) (by decide) (by decide) (by decide)).trans hblock),
        off_of_get ((linkDown_get hn _ _ (by decide) (by decide) (by decide) (by decide)).trans halign)⟩
    · rintro rfl
      exact off_of_get ((linkDown_get hn _ _ (by decide) (by decide) (by decide) (by decide)).trans halign')
    · rintro rfl
      exact on_of_get ((linkDown_get hn _ _ (by decide) (by decide) (by decide) (by decide)).trans hfault)
  case hostIdle => rw [execHostTxWrite_passes hpass, hostRetry, hostSend_idle hidle]
  case hostSent =>
    subst hsize
    exact hostRetry_one hwr hwaits hone hquiet hheld (by rw [State.get_set_self]; exact low_lt _ _)

end Sys2Proof.Machine
end

section
/-! Masters, exchanges, the loss of the master and the restart of qualification of the ordinary clock. -/

-- One declaration after another, as in the files before: the text is also checked in one piece.
set_option Elab.async false

namespace Sys2Proof.Machine

/-! ### Masters -/

/-- A fold that keeps or replaces its candidate ends with one it met. -/
theorem bestMaster_from (l : List Foreign) (a : Option Foreign) {b : Foreign}
    (h : l.foldl (fun a f => match a with
      | some b => if f.before b then some f else a
      | none => some f) a = some b) : a = some b ∨ b ∈ l := by
  induction l generalizing a with
  | nil => exact .inl h
  | cons f l ih =>
    obtain hf | hl := ih _ h
    · cases a with
      | none => exact .inr (Option.some.inj hf ▸ List.mem_cons_self)
      | some c =>
        dsimp only at hf
        split at hf
        · exact .inr (Option.some.inj hf ▸ List.mem_cons_self)
        · exact .inl hf
    · exact .inr (List.mem_cons_of_mem _ hl)

theorem bestMaster_mem {l : List Foreign} {b : Foreign} (h : bestMaster l = some b) : b ∈ l :=
  (bestMaster_from l none h).resolve_left nofun

/-- The foreign master that an Announce names (R463). -/
def announced (port src gm steps utc : Nat) (li : Int) (s : State) : Foreign :=
  { src := src, port := port, gm := gm, steps := steps, utc := utc, logAnn := li, seen := s.now, l3 := 0 }

/-- The table of masters after an Announce (R463). -/
def mastersWith (f : Foreign) (l : List Foreign) : List Foreign :=
  if l.any (fun g => g.src == f.src && g.port == f.port) then l.map (fun g => if g.src == f.src && g.port == f.port then f else g)
  else if l.length < 8 then l ++ [f] else l

/-- A foreign master that has fallen silent (R463). -/
def State.silentMaster (s : State) (f : Foreign) : Bool :=
  decide (f.seen + s.get F.Ptp.ANN_TIMEOUT pgPtp * logNs f.logAnn ≤ s.now)

theorem silentMaster_iff {s : State} {f : Foreign} :
    s.silentMaster f = true ↔ f.seen + s.get F.Ptp.ANN_TIMEOUT pgPtp * logNs f.logAnn ≤ s.now := decide_eq_true_iff

section
variable {s : State} {port src gm steps utc : Nat} {li : Int}

theorem execAnnounceReceived_ignored (h : s.ready pgPtp = false ∨ (port ≠ 1 ∧ port ≠ 2) ∨ 255 ≤ steps ∨ src / 65536 = s.clockId) :
    exec (.announceReceived port src gm steps utc li) s = .next s := by
  refine congrArg Host.Outcome.next ?_
  split
  · next hdue =>
    refine if_pos (h.elim (fun h => nomatch h.symm.trans hdue.1) fun h => h.resolve_left ?_)
    rintro ⟨h1, h2⟩
    exact hdue.2.elim h1 h2
  · rfl

theorem execAnnounceReceived_taken (hready : s.ready pgPtp = true) (hport : port = 1 ∨ port = 2) (hsteps : steps < 255)
    (hsrc : src / 65536 ≠ s.clockId) : exec (.announceReceived port src gm steps utc li) s =
      .next (ptpSelect 3 (s.updPtp (fun x =>
        { x with foreign := mastersWith (announced port src gm steps utc li s) s.ptp.foreign }))) := by
  refine congrArg Host.Outcome.next ((if_pos ⟨hready, hport⟩).trans (if_neg ?_))
  rintro (h | h)
  · exact absurd hsteps (Nat.not_lt.mpr h)
  · exact hsrc h

theorem execAnnounceTimeout_not (h : s.ready pgPtp = false ∨ ∀ f ∈ s.ptp.foreign,
    s.now < f.seen + s.get F.Ptp.ANN_TIMEOUT pgPtp * logNs f.logAnn) : exec .announceTimeout s = .next s := by
  refine congrArg Host.Outcome.next (if_neg ?_)
  rintro ⟨hready, hany⟩
  obtain ⟨f, hf, hsilent⟩ := List.any_eq_true.mp hany
  rcases h with h | h
  · exact nomatch h.symm.trans hready
  · exact absurd (silentMaster_iff.mp hsilent) (Nat.not_le.mpr (h f hf))

theorem execAnnounceTimeout_due (hready : s.ready pgPtp = true) (h : ∃ f ∈ s.ptp.foreign,
    f.seen + s.get F.Ptp.ANN_TIMEOUT pgPtp * logNs f.logAnn ≤ s.now) : exec .announceTimeout s =
      .next (ptpSelect 2 (s.updPtp (fun x => { x with foreign := x.foreign.filter (fun f => !s.silentMaster f) }))) := by
  obtain ⟨f, hf, hsilent⟩ := h
  exact congrArg Host.Outcome.next (if_pos ⟨hready, List.any_eq_true.mpr ⟨f, hf, silentMaster_iff.mpr hsilent⟩⟩)

/-! ### Syncs -/

variable {seq : Nat} {two : Bool} {t1 t4 corr q : Int}

theorem execSync_other (h : s.ready pgPtp = false ∨ s.ptp.parent ≠ some src ∨ s.get F.Ptp.MASTER_PORT pgPtp ≠ port) :
    exec (.syncReceived port src seq two t1 corr q li) s = .next s ∧ exec (.followUpReceived port src seq t1 corr) s = .next s := by
  have hsender (hready : s.ready pgPtp = true) : ¬ (s.ptp.parent = some src ∧ s.get F.Ptp.MASTER_PORT pgPtp = port) := by
    rintro ⟨hparent, hport⟩
    rcases h with h | h | h
    · exact nomatch h.symm.trans hready
    · exact h hparent
    · exact h hport
  constructor
  · refine congrArg Host.Outcome.next ?_
    split
    · next hready => exact if_neg (hsender hready)
    · rfl
  · refine congrArg Host.Outcome.next ?_
    split
    · next hready => exact if_neg (hsender hready)
    · rfl

section
variable (hready : s.ready pgPtp = true) (hparent : s.ptp.parent = some src) (hport : s.get F.Ptp.MASTER_PORT pgPtp = port)
include hready hparent hport

theorem execSyncReceived_twoStep : exec (.syncReceived port src seq true t1 corr q li) s =
    .next (s.updPtp (fun x => { x with waiting := some (seq, li, ⟨corr, stampTime (s.epochOf q) q, q⟩) })) :=
  congrArg Host.Outcome.next ((if_pos hready).trans (if_pos ⟨hparent, hport⟩))

theorem execSyncReceived_oneStep : exec (.syncReceived port src seq false t1 corr q li) s =
    .next (syncComplete ⟨t1 + corr, stampTime (s.epochOf q) q, q⟩ li s) :=
  congrArg Host.Outcome.next ((if_pos hready).trans (if_pos ⟨hparent, hport⟩))

theorem execFollowUpReceived_eq : exec (.followUpReceived port src seq t1 corr) s = .next (match s.ptp.waiting with
    | some (n, l, y) => if n = seq then syncComplete { y with master := t1 + y.master + corr } l s else s
    | none => s) :=
  (congrArg Host.Outcome.next ((if_pos hready).trans (if_pos ⟨hparent, hport⟩))).trans rfl

theorem execFollowUpReceived_unmatched (h : s.ptp.waiting = none ∨ ∃ n l y, s.ptp.waiting = some (n, l, y) ∧ n ≠ seq) :
    exec (.followUpReceived port src seq t1 corr) s = .next s := by
  rw [execFollowUpReceived_eq hready hparent hport]
  rcases h with h | ⟨n, l, y, h, hn⟩
  · rw [h]
  · rw [h]
    exact congrArg Host.Outcome.next (if_neg hn)

theorem execFollowUpReceived_matched {l : Int} {y : SyncX} (h : s.ptp.waiting = some (seq, l, y)) :
    exec (.followUpReceived port src seq t1 corr) s = .next (syncComplete { y with master := t1 + y.master + corr } l s) := by
  rw [execFollowUpReceived_eq hready hparent hport, h]
  exact congrArg Host.Outcome.next (if_pos rfl)

end

/-! ### Delay requests -/

/-- The interval of the Delay_Reqs in ns (R464). -/
def State.reqInterval (s : State) : Nat := logNs (s.ptp.respLog.getD (sext 8 (s.get F.Ptp.DREQ_LOG pgPtp)))

/-- The clock has numbered its next Delay_Req and drawn the gap to the one after (R464). -/
def reqNumbered (s : State) : State :=
  s.free.2.free.2.updPtp (fun x =>
    { x with reqSeq := low 16 (s.ptp.reqSeq + 1), reqT3 := none, reqNext := s.now + s.free.1 % (2 * s.reqInterval + 1) })

/-- The part's Delay_Req as a frame (R464). -/
def State.reqFrame (s : State) (f : Foreign) : Frame :=
  parseFrame (s.ptpAround f.l3 s.free.2.free.1 (s.delayReq (low 16 (s.ptp.reqSeq + 1))))

theorem execDelayReqSend_not (h : s.ptp.parent = none ∨ s.ready pgPtp = false ∨ s.ready pgSw = false ∨ s.now < s.ptp.reqNext) :
    exec .delayReqSend s = .next s := by
  refine congrArg Host.Outcome.next ?_
  split
  · rfl
  · next f hf =>
    refine if_neg ?_
    rintro ⟨hready, hsw, hnow⟩
    rcases h with h | h | h | h
    · rw [h] at hf
      exact nomatch hf
    · exact nomatch h.symm.trans hready
    · exact nomatch h.symm.trans hsw
    · exact absurd hnow (Nat.not_le.mpr h)

theorem execDelayReqSend_due {p : Nat} {f : Foreign} (hparent : s.ptp.parent = some p)
    (hfind : s.ptp.foreign.find? (fun f => f.src == p && f.port == s.get F.Ptp.MASTER_PORT pgPtp) = some f)
    (hready : s.ready pgPtp = true) (hsw : s.ready pgSw = true) (hnow : s.ptp.reqNext ≤ s.now) :
    exec .delayReqSend s = .next (match s.vlanOf 0 none with
      | none => (reqNumbered s).sat F.Sw.VLAN_DROPS pgSw
      | some (v, vid, pcp) => sendOut (s.reqFrame f) v vid pcp 0
          { bytes := [], arrived := s.now, kind := .own (low 16 (s.ptp.reqSeq + 1)) } 3 f.port (reqNumbered s)) := by
  have hfound : (s.ptp.parent.bind fun p => s.ptp.foreign.find? (fun f => f.src == p && f.port == s.get F.Ptp.MASTER_PORT pgPtp)) =
      some f := by rw [hparent]; exact hfind
  simp only [exec, execDelayReqSend, hfound, if_pos (And.intro hready (And.intro hsw hnow))]
  rfl

/-! ### Delay responses -/

theorem execDelayResp_ignored {req : Nat} (h : s.ready pgPtp = false ∨ s.ptp.parent ≠ some src ∨ s.get F.Ptp.MASTER_PORT pgPtp ≠ port ∨
    req ≠ s.clockId * 65536 + 1 ∨ s.ptp.last = none ∨ s.ptp.reqT3 = none ∨ ∃ n q3, s.ptp.reqT3 = some (n, q3) ∧ n ≠ seq) :
    exec (.delayRespReceived port src req seq t4 corr li) s = .next s := by
  refine congrArg Host.Outcome.next ?_
  split
  · next hready =>
    unfold ptpDelayResp
    split
    · next hmine =>
      obtain ⟨hparent, hport, hreq⟩ := hmine
      split
      · next n q3 y ht3 hlast =>
        refine if_neg ?_
        rintro rfl
        rcases h with h | h | h | h | h | h | ⟨m, q, h, hm⟩
        · exact nomatch h.symm.trans hready
        · exact h hparent
        · exact h hport
        · exact h hreq
        · exact nomatch h.symm.trans hlast
        · exact nomatch h.symm.trans ht3
        · rw [ht3, Option.some.injEq, Prod.mk.injEq] at h
          exact hm h.1.symm
      · rfl
    · rfl
  · rfl

end

/-- The filtered path delay with one more sample (R465). -/
def State.filteredDelay (s : State) (d : Int) : Int :=
  match s.ptp.mpd with
  | none => d
  | some m => m + (d - m) / (2 ^ s.get F.Ptp.DELAY_FILT pgPtp : Nat)

/-- The path delay of one exchange, in 2^-16 ns (R465). -/
def State.pathDelay (s : State) (y : SyncX) (q3 t4 corr : Int) : Int :=
  Config.roundReal (((stampTime s.epochNow y.q - stampTime s.epochNow q3 + t4 - y.master - corr : Int) : Rat) / 2)

/-- The exchange counts for the qualification in progress (R471). -/
def State.freshExchange (s : State) : Bool := s.servo == 1 && !s.ptp.used

/-- A Delay_Resp used (R465). -/
def respUsed (d li : Int) (y : SyncX) (s : State) : State :=
  putFit F.Ptp.MPD 0 (2 ^ 32 - 1) (s.filteredDelay d) (s.updPtp (fun x => { x with
    mpd := some (s.filteredDelay d)
    respLog := some li
    reqT3 := none
    used := true
    exch := if s.freshExchange then ((d, y) :: x.exch).take 15 else x.exch }))

theorem respUsed_kept (d li : Int) (y : SyncX) (s : State) : (respUsed d li y s).ptp.reqT3 = none ∧ (respUsed d li y s).ptp.used = true ∧
    (respUsed d li y s).ptp.respLog = some li ∧ (respUsed d li y s).ptp.mpd = some (s.filteredDelay d) := by
  unfold respUsed
  rw [putFit_ptp]
  exact ⟨rfl, rfl, rfl, rfl⟩

theorem execDelayResp_answers {s : State} {port src seq : Nat} {q3 : Int} {y : SyncX} (t4 corr li : Int)
    (hready : s.ready pgPtp = true) (hparent : s.ptp.parent = some src)
    (hport : s.get F.Ptp.MASTER_PORT pgPtp = port) (hlast : s.ptp.last = some y) (ht3 : s.ptp.reqT3 = some (seq, q3)) :
    exec (.delayRespReceived port src (s.clockId * 65536 + 1) seq t4 corr li) s =
      .next (if s.freshExchange then qualify (respUsed (s.pathDelay y q3 t4 corr) li y s)
        else respUsed (s.pathDelay y q3 t4 corr) li y s) := by
  refine congrArg Host.Outcome.next ((if_pos hready).trans ((if_pos ⟨hparent, hport, rfl⟩).trans ?_))
  rw [ht3, hlast]
  exact if_pos rfl

/-! ### Holdover and qualification -/

theorem ptpLoss_tracking {s : State} (h : s.servo = 2 ∨ s.servo = 3) (cause : Nat) : (ptpLoss cause s).servo = 4 ∧
    (ptpLoss cause s).ptp.hold = some cause ∧ (ptpLoss cause s).ptp.exch = [] ∧ (ptpLoss cause s).ptp.parent = s.ptp.parent ∧
    bitAt ((ptpLoss cause s).get F.Hdr.EVENT_STATUS pgPtp) Ev.ptpHoldover.bit = true := by
  obtain ⟨u, hu⟩ : ∃ u, u = (setServo 4 (setRate s.ptp.rateI s)).updPtp (fun x => { x with hold := some cause, exch := [] }) := ⟨_, rfl⟩
  have heq : ptpLoss cause s = holdEvent true cause u := (if_pos h).trans (congrArg (holdEvent true cause) hu.symm)
  have hptp : (holdEvent true cause u).ptp = u.ptp := by unfold holdEvent; rw [State.raise_ptp]
  refine ⟨?_, ?_, ?_, (ptpLoss_facts cause s).2, ?_⟩
  · rw [heq]
    refine (State.get_raise_off _ _ (by decide) (by decide) (by decide) (by decide)).trans ?_
    rw [hu]
    exact setServo_servo 4 _ (by decide)
  · rw [heq, hptp, hu]
    rfl
  · rw [heq, hptp, hu]
    rfl
  · rw [heq]
    exact State.raise_bit _ _ _ (by decide) (by decide)

section
variable {s : State}

theorem execSyncLoss_not (h : (s.servo ≠ 2 ∧ s.servo ≠ 3) ∨
    s.now < s.ptp.syncAt + s.get F.Ptp.LOSS_SYNCS pgPtp * logNs s.ptp.syncLog) : exec .syncLoss s = .next s := by
  refine congrArg Host.Outcome.next (if_neg ?_)
  rintro ⟨hservo, hnow⟩
  rcases h with ⟨h2, h3⟩ | h
  · exact hservo.elim h2 h3
  · exact absurd hnow (Nat.not_le.mpr h)

theorem execSyncLoss_due (hservo : s.servo = 2 ∨ s.servo = 3)
    (hnow : s.ptp.syncAt + s.get F.Ptp.LOSS_SYNCS pgPtp * logNs s.ptp.syncLog ≤ s.now) : exec .syncLoss s = .next (ptpLoss 1 s) :=
  congrArg Host.Outcome.next (if_pos ⟨hservo, hnow⟩)

theorem execPtpRequalify_passes {owner : Nat} (h : s.passes pgPtp owner = true) (allow : Bool) :
    exec (.ptpRequalify allow owner) s = .next (ptpRequalify (allowStep allow (2 + bit allow) s)) :=
  congrArg Host.Outcome.next (gateReg_passes h _ _ _)

theorem allowStep_print (hmode : s.get F.Mode.MODE pgMode = 3) (v : Bool) (data : Nat) : allowStep v data s =
    if v != s.on F.Ptp.ALLOW_STEP pgPtp then s.raise Ev.regWriteWhileRunning pgPtp (arg64 data 0x54) else s := if_pos hmode

theorem allowStep_set (hmode : s.get F.Mode.MODE pgMode ≠ 3) (v : Bool) (data : Nat) :
    allowStep v data s = s.set F.Ptp.ALLOW_STEP pgPtp (bit v) := if_neg hmode

/-- A word of PTP_CTRL leaves the servo and the clock as they are (R476). -/
theorem allowStep_keeps (v : Bool) (data : Nat) (s : State) :
    (allowStep v data s).servo = s.servo ∧ (allowStep v data s).ptp = s.ptp := by
  by_cases hmode : s.get F.Mode.MODE pgMode = 3
  · rw [allowStep_print hmode]
    split
    · exact ⟨State.get_raise_off _ _ (by decide) (by decide) (by decide) (by decide), State.raise_ptp _ _ _ _⟩
    · exact ⟨rfl, rfl⟩
  · rw [allowStep_set hmode]
    exact ⟨State.get_set_off _ (by decide), rfl⟩

theorem allowStep_value (v : Bool) (data : Nat) (s : State) : (allowStep v data s).get F.Ptp.ALLOW_STEP pgPtp =
    if s.get F.Mode.MODE pgMode = 3 then s.get F.Ptp.ALLOW_STEP pgPtp else bit v := by
  by_cases hmode : s.get F.Mode.MODE pgMode = 3
  · rw [allowStep_print hmode, if_pos hmode]
    split
    · exact State.get_raise_off _ _ (by decide) (by decide) (by decide) (by decide)
    · rfl
  · rw [allowStep_set hmode, if_neg hmode, State.get_set_self]
    cases v <;> rfl

theorem ptpRequalify_get (s : State) {g : Fld}
    (hservo : (g.off + 0 * g.stride) * 32 + g.lo ≠ (F.Ptp.SERVO.off + 0 * F.Ptp.SERVO.stride) * 32 + F.Ptp.SERVO.lo)
    (hlo : (g.off + 0 * g.stride) * 32 + g.lo ≠ (F.Ptp.RATE_LO.off + 0 * F.Ptp.RATE_LO.stride) * 32 + F.Ptp.RATE_LO.lo)
    (hhi : (g.off + 0 * g.stride) * 32 + g.lo ≠ (F.Ptp.RATE_HI.off + 0 * F.Ptp.RATE_HI.stride) * 32 + F.Ptp.RATE_HI.lo)
    (hseq : (g.off + 0 * g.stride) * 32 + g.lo ≠ (F.Ptp.EPOCH_SEQ.off + 0 * F.Ptp.EPOCH_SEQ.stride) * 32 + F.Ptp.EPOCH_SEQ.lo) :
    (ptpRequalify s).get g pgPtp = s.get g pgPtp := by
  unfold ptpRequalify
  split
  · show ((setRate s.ptp.rateI s).set F.Ptp.SERVO pgPtp 1).get g pgPtp = _
    rw [State.get_set_off _ hservo, setRate_get _ _ _ hlo hhi hseq]
  · rfl

theorem ptpRequalify_restarts (h : 2 ≤ s.servo ∧ s.servo ≤ 4) : (ptpRequalify s).servo = 1 ∧ (ptpRequalify s).ptp.exch = [] := by
  unfold ptpRequalify
  rw [if_pos h]
  exact ⟨setServo_servo 1 _ (by decide), rfl⟩

theorem ptpRequalify_not (h : ¬ (2 ≤ s.servo ∧ s.servo ≤ 4)) : ptpRequalify s = s := if_neg h

end

/-! ### The obligation -/

/-- Settles O41, message by message: the state after each is written out and its clock read from it. The table of masters and the
exchanges as commands are the model's choice (log 90). -/
theorem mastersAndExchanges : Obligations.MastersAndExchanges := by
  refine ⟨fun l b => bestMaster_mem, fun s => ⟨fun port src gm steps utc li => execAnnounceReceived_ignored,
    fun port src gm steps utc li hready hport hsteps hsrc =>
      ⟨_, _, rfl, execAnnounceReceived_taken hready hport hsteps hsrc, ?announced⟩,
    execAnnounceTimeout_not, fun hready h => ⟨_, execAnnounceTimeout_due hready h, ?silent⟩,
    fun port src seq two t1 corr q li => execSync_other,
    fun port src seq t1 corr q li hready hparent hport => ⟨execSyncReceived_twoStep hready hparent hport,
      ⟨_, execSyncReceived_oneStep hready hparent hport, syncComplete_kept _ li s⟩,
      execFollowUpReceived_unmatched hready hparent hport,
      fun l y h => ⟨_, execFollowUpReceived_matched hready hparent hport h, syncComplete_kept _ l s⟩⟩,
    execDelayReqSend_not, fun p f hparent hfind hready hsw hnow => ⟨reqNumbered s, rfl, rfl, Nat.le_add_right _ _, ?gap, rfl, rfl,
      fun hvlan => ?dropped, fun hvlan hport => ?sent⟩,
    fun port src req seq t4 corr li => execDelayResp_ignored,
    fun port src seq t4 corr li q3 y hready hparent hport hlast ht3 =>
      ⟨_, _, rfl, execDelayResp_answers t4 corr li hready hparent hport hlast ht3, ?answered⟩,
    execSyncLoss_not, fun hservo hnow => ⟨_, execSyncLoss_due hservo hnow, ptpLoss_tracking hservo 1⟩,
    fun allow owner hpass => ⟨_, execPtpRequalify_passes hpass allow, ?allow, fun hmode hne => ?event, fun h => ?restart,
      fun h => ?stands⟩⟩⟩
  case announced =>
    obtain ⟨hforeign, hparent, hport⟩ := ptpSelect_facts 3 (s.updPtp (fun x =>
      { x with foreign := mastersWith (announced port src gm steps utc li s) s.ptp.foreign }))
    refine ⟨hforeign, ?_, fun b hb => hport b ?_⟩
    · rw [hparent, hforeign]
    · rwa [hforeign] at hb
  case silent =>
    obtain ⟨hforeign, hparent, -⟩ := ptpSelect_facts 2 (s.updPtp (fun x =>
      { x with foreign := x.foreign.filter (fun f => !s.silentMaster f) }))
    refine ⟨fun f => ?_, by rw [hparent, hforeign]⟩
    rw [hforeign]
    refine List.mem_filter.trans (and_congr_right fun _ => ?_)
    rw [Bool.not_eq_true', ← Bool.not_eq_true, silentMaster_iff, Nat.not_le]
  case gap => exact Nat.add_le_add_left (Nat.lt_succ_iff.mp (Nat.mod_lt _ (Nat.succ_pos _))) _
  case dropped => rw [execDelayReqSend_due hparent hfind hready hsw hnow, hvlan]
  case sent =>
    obtain ⟨⟨v, vid, pcp⟩, hv⟩ := Option.isSome_iff_exists.mp hvlan
    rw [execDelayReqSend_due hparent hfind hready hsw hnow, hv]
    exact ⟨_, rfl, congrArg Host.Outcome.next (if_neg hport)⟩
  case answered =>
    obtain ⟨ht3', hused, hlog, hmpd⟩ := respUsed_kept (s.pathDelay y q3 t4 corr) li y s
    split
    · obtain ⟨h1, h2, h3, h4⟩ := qualify_keeps (respUsed (s.pathDelay y q3 t4 corr) li y s)
      exact ⟨h1.trans ht3', h2.trans hused, h3.trans hlog, h4.trans hmpd⟩
    · exact ⟨ht3', hused, hlog, hmpd⟩
  case allow =>
    rw [ptpRequalify_get _ (by decide) (by decide) (by decide) (by decide)]
    exact allowStep_value allow _ s
  case event =>
    rw [ptpRequalify_get _ (by decide) (by decide) (by decide) (by decide), allowStep_print hmode, if_pos (bne_iff_ne.mpr hne)]
    exact State.raise_bit _ _ _ (by decide) (by decide)
  case restart =>
    rw [← (allowStep_keeps allow (2 + bit allow) s).1] at h
    exact ptpRequalify_restarts h
  case stands =>
    obtain ⟨hservo, hptp⟩ := allowStep_keeps allow (2 + bit allow) s
    rw [← hservo] at h
    rw [ptpRequalify_not h]
    exact ⟨hservo, hptp⟩

end Sys2Proof.Machine
end

section
/-! Conversion of counts, time captures, triggers and capture FIFOs of pages 0x093 and 0x094. -/

-- One declaration after another, as in the files before: the text is also checked in one piece.
set_option Elab.async false

namespace Sys2Proof.Machine

/-! ### Conversion of counts -/

/-- The entry that converts a count is in the log, and of those that do not exceed the count it is a latest (R469). -/
theorem epochFor_some {s : State} {n : Nat} {e : Epoch} (h : s.epochFor n = some e) :
    e ∈ s.ptp.log ∧ e.c ≤ n ∧ ∀ x ∈ s.ptp.log, x.c ≤ n → x.c ≤ e.c := by
  obtain ⟨hsome, -⟩ := epochFor_spec s.ptp.log n none nofun _ rfl
  obtain ⟨hmem, hle, hmax, -⟩ := hsome e h
  exact ⟨hmem.resolve_right nofun, hle, hmax⟩

theorem epochFor_none {s : State} {n : Nat} (h : s.epochFor n = none) : ∀ x ∈ s.ptp.log, n < x.c :=
  ((epochFor_spec s.ptp.log n none nofun _ rfl).2 h).2

/-- Both words of CONV_COUNT written. -/
def countWritten (n : Nat) (s : State) : State := s.set2 F.Ptp.CONV_COUNT_LO F.Ptp.CONV_COUNT_HI pgPtp 0 n

theorem execConvCountWrite_passes {s : State} {owner : Nat} (h : s.passes pgPtp owner = true) (count : Nat) :
    exec (.convCountWrite count owner) s = .next (convert (low 64 count) (countWritten (low 64 count) s)) :=
  congrArg Host.Outcome.next ((gateReg_passes h _ _ _).trans (gateReg_passes h _ _ _))

theorem countWritten_words (count : Nat) (s : State) :
    (countWritten (low 64 count) s).get F.Ptp.CONV_COUNT_LO pgPtp = low 32 count ∧
    (countWritten (low 64 count) s).get F.Ptp.CONV_COUNT_HI pgPtp = low 32 (count / 2 ^ 32) := by
  constructor
  · refine (State.get_setI_off _ (by decide)).trans ((State.get_set_self _ _ _ _).trans ?_)
    show count % 2 ^ 64 % 2 ^ 32 = count % 2 ^ 32
    omega
  · refine (State.get_set_self _ _ _ _).trans ?_
    show count % 2 ^ 64 / 2 ^ 32 % 2 ^ 32 = count / 2 ^ 32 % 2 ^ 32
    omega

/-- The time of a count written where the host reads it (R469). -/
def timeShown (sec ns valid : Nat) (s : State) : State :=
  ((s.set2 F.Ptp.CONV_SEC_LO F.Ptp.CONV_SEC_HI pgPtp 0 sec).set F.Ptp.CONV_NS pgPtp ns).set F.Ptp.CONV_VALID pgPtp valid

theorem convert_some {s : State} {n : Nat} {e : Epoch} (h : s.epochFor n = some e) : convert n s =
    timeShown (secNs (e.t + (n - e.c) * e.rate)).1 (secNs (e.t + (n - e.c) * e.rate)).2 1 s := by
  unfold convert
  rw [h]
  rfl

theorem convert_none {s : State} {n : Nat} (h : s.epochFor n = none) :
    convert n s = timeShown s.free.1 s.free.2.free.1 0 s.free.2.free.2 := by
  unfold convert
  rw [h]
  rfl

theorem convert_ptp (n : Nat) (s : State) : (convert n s).ptp = s.ptp := by
  cases h : s.epochFor n with
  | none => rw [convert_none h]; rfl
  | some e => rw [convert_some h]; rfl

/-- The words of CONV_COUNT stand while the result is shown. -/
theorem timeShown_count (sec ns valid : Nat) (s : State) :
    (timeShown sec ns valid s).get F.Ptp.CONV_COUNT_LO pgPtp = s.get F.Ptp.CONV_COUNT_LO pgPtp ∧
    (timeShown sec ns valid s).get F.Ptp.CONV_COUNT_HI pgPtp = s.get F.Ptp.CONV_COUNT_HI pgPtp := by
  unfold timeShown State.set2
  constructor
  all_goals rw [State.get_set_off _ (by decide), State.get_set_off _ (by decide), State.get_setI_off _ (by decide),
    State.get_setI_off _ (by decide)]

theorem convert_count (n : Nat) (s : State) : (convert n s).get F.Ptp.CONV_COUNT_LO pgPtp = s.get F.Ptp.CONV_COUNT_LO pgPtp ∧
    (convert n s).get F.Ptp.CONV_COUNT_HI pgPtp = s.get F.Ptp.CONV_COUNT_HI pgPtp := by
  cases h : s.epochFor n with
  | none => rw [convert_none h]; exact timeShown_count _ _ _ _
  | some e => rw [convert_some h]; exact timeShown_count _ _ _ _

theorem timeShown_time {sec ns : Nat} (hsec : sec < 2 ^ 48) (hns : ns < 2 ^ 30) (s : State) :
    (timeShown sec ns 1 s).get F.Ptp.CONV_VALID pgPtp = 1 ∧ (timeShown sec ns 1 s).get F.Ptp.CONV_NS pgPtp = ns ∧
    (timeShown sec ns 1 s).get2 F.Ptp.CONV_SEC_LO F.Ptp.CONV_SEC_HI pgPtp 0 = sec := by
  have hlo : (timeShown sec ns 1 s).getI F.Ptp.CONV_SEC_LO pgPtp 0 = sec % 2 ^ 32 := by
    unfold timeShown State.set2
    rw [State.getI_set_off _ (by decide), State.getI_set_off _ (by decide), State.getI_setI_off _ (by decide), State.getI_setI_self]
    rfl
  have hhi : (timeShown sec ns 1 s).getI F.Ptp.CONV_SEC_HI pgPtp 0 = sec / 2 ^ 32 % 2 ^ 16 := by
    unfold timeShown State.set2
    rw [State.getI_set_off _ (by decide), State.getI_set_off _ (by decide), State.getI_setI_self]
    rfl
  refine ⟨State.get_set_self _ _ _ _, ?_, ?_⟩
  · refine (State.get_set_off _ (by decide)).trans ((State.get_set_self _ _ _ _).trans ?_)
    exact low_of_lt hns
  · unfold State.get2
    rw [hlo, hhi]
    show sec % 2 ^ 32 + sec / 2 ^ 32 % 2 ^ 16 * 2 ^ 32 = sec
    omega

theorem secNs_bounds (t : Nat) : (secNs t).1 < 2 ^ 48 ∧ (secNs t).2 < 2 ^ 30 :=
  ⟨low_lt _ _, Nat.lt_of_lt_of_le (Nat.mod_lt _ (by decide)) (by decide)⟩

/-! ### Captures of the time -/

section
variable {s : State} {owner : Nat}

theorem execTimeCaptureRead_silent (h : s.silent = true) : exec (.timeCaptureRead owner) s = .next s :=
  congrArg Host.Outcome.next (if_pos h)

theorem execTimeCaptureRead_answers (h : s.silent = false) : exec (.timeCaptureRead owner) s =
    .next ({ s with resp := .data (low 32 s.counter) }.updPtp (fun x =>
      { x with caps := tput x.caps (agentOf owner) (s.counter, s.timeNow) })) :=
  congrArg Host.Outcome.next (if_neg (by rw [h]; decide))

/-! ### Triggers -/

theorem execTrigArm_passes (h : s.passes pgTrig owner = true) (mask : Nat) :
    exec (.trigArm mask owner) s = .next (forAll ((List.range 8).filter (bitAt mask)) s trigArm) :=
  congrArg Host.Outcome.next (gateReg_passes h _ _ _)

theorem execTrigDisarm_passes (h : s.passes pgTrig owner = true) (mask : Nat) : exec (.trigDisarm mask owner) s =
    .next (forAll ((List.range 8).filter (bitAt mask)) s (fun k s => setTrigArmed k false s)) :=
  congrArg Host.Outcome.next (gateReg_passes h _ _ _)

theorem execCapPop_passes (h : s.passes pgTrig owner = true) (mask : Nat) : exec (.capPop mask owner) s = .next (capPop mask s) :=
  congrArg Host.Outcome.next (gateReg_passes h _ _ _)

/-- The triggers, or the inputs, that a mask names. -/
theorem mem_named {n mask k : Nat} : k ∈ (List.range n).filter (bitAt mask) ↔ k < n ∧ bitAt mask k = true := by
  rw [List.mem_filter, List.mem_range]

theorem nodup_named (n mask : Nat) : ((List.range n).filter (bitAt mask)).Nodup := List.Nodup.filter _ List.nodup_range

theorem execTriggerFire_not {k : Nat} (h : 8 ≤ k ∨ s.armed k = false ∨ s.timeNow < s.trigTarget k (s.trigOf k).j) :
    exec (.triggerFire k) s = .next s := by
  refine congrArg Host.Outcome.next (if_neg ?_)
  rintro ⟨hk, harmed, htime⟩
  rcases h with h | h | h
  · exact absurd hk (Nat.not_lt.mpr h)
  · exact nomatch h.symm.trans harmed
  · exact absurd htime (Nat.not_le.mpr h)

theorem execTriggerFire_fires {k : Nat} (hk : k < 8) (harmed : s.armed k = true) (htime : s.trigTarget k (s.trigOf k).j ≤ s.timeNow) :
    exec (.triggerFire k) s = .next (trigFire k s) :=
  congrArg Host.Outcome.next (if_pos ⟨hk, harmed, htime⟩)

end

/-! ### Captured edges -/

/-- The capture FIFO of an input. -/
def State.capFifo (s : State) (c : Nat) : TcapX := tget s.tcap c {}

/-- The capture FIFO of an input replaced. -/
def capStored (c : Nat) (x : TcapX) (s : State) : State := { s with tcap := tput s.tcap c x }

theorem capStored_self (c : Nat) (x : TcapX) (s : State) : (capStored c x s).capFifo c = x := tget_tput_self _ _ _ _

theorem capStored_ne {c i : Nat} (x : TcapX) (s : State) (h : i ≠ c) : (capStored c x s).capFifo i = s.capFifo i :=
  tget_tput_ne _ _ _ h

section
variable {s : State} {c : Nat} {rising : Bool}

theorem execTcapEdge_ignored (h : 4 ≤ c ∨ s.ready pgTrig = false ∨
    bitAt (s.getI F.Cap.EDGE pgTrig c) (if rising then 0 else 1) = false) : exec (.tcapEdge c rising) s = .next s := by
  refine congrArg Host.Outcome.next (if_neg ?_)
  rintro ⟨hc, hready, hsel⟩
  rcases h with h | h | h
  · exact absurd hc (Nat.not_lt.mpr h)
  · exact nomatch h.symm.trans hready
  · exact nomatch h.symm.trans hsel

variable (hc : c < 4) (hready : s.ready pgTrig = true) (hsel : bitAt (s.getI F.Cap.EDGE pgTrig c) (if rising then 0 else 1) = true)
include hc hready hsel

theorem execTcapEdge_enters (h : (s.capFifo c).fifo.length < 16) : exec (.tcapEdge c rising) s = .next (capStored c
    { s.capFifo c with fifo := (s.capFifo c).fifo ++ [(s.count, s.timeOf s.count / 2 ^ 40, rising)] } s) :=
  congrArg Host.Outcome.next ((if_pos ⟨hc, hready, hsel⟩).trans (if_pos h))

theorem execTcapEdge_dropped (h : 16 ≤ (s.capFifo c).fifo.length) (htold : (s.capFifo c).told = true) :
    exec (.tcapEdge c rising) s = .next s :=
  congrArg Host.Outcome.next ((if_pos ⟨hc, hready, hsel⟩).trans ((if_neg (Nat.not_lt.mpr h)).trans (if_pos htold)))

theorem execTcapEdge_told (h : 16 ≤ (s.capFifo c).fifo.length) (htold : (s.capFifo c).told = false) :
    exec (.tcapEdge c rising) s =
      .next ((capStored c { s.capFifo c with told := true } s).raise Ev.ptpCaptureOverflow pgTrig c) :=
  congrArg Host.Outcome.next ((if_pos ⟨hc, hready, hsel⟩).trans ((if_neg (Nat.not_lt.mpr h)).trans
    (if_neg (Bool.not_eq_true _ ▸ htold))))

end

/-! ### The obligation -/

/-- Settles O42, register by register: what arming, firing and popping do to one trigger or input is said by the lemmas about them,
and the words of a mask are taken one after another. What a silent or other requester reads is the model's choice (log 14),
and so are the triggers as commands (log 91). -/
theorem clockReadsTriggersAndCaptures : Obligations.ClockReadsTriggersAndCaptures := by
  refine ⟨fun s n e => epochFor_some, fun s n => epochFor_none, fun s => ⟨
    fun count owner hpass => ⟨_, execConvCountWrite_passes hpass count, convert_ptp _ _, ?countLo, ?countHi, fun hnone => ?invalid,
      fun e hsome => ?converted⟩,
    fun owner => execTimeCaptureRead_silent,
    fun owner h => ⟨_, execTimeCaptureRead_answers h, rfl, rfl, ?captured, fun a ha => ?others⟩,
    fun mask owner hpass => ⟨_, execTrigArm_passes hpass mask, fun k hk => ?armed⟩,
    fun mask owner hpass => ⟨_, execTrigDisarm_passes hpass mask, ?disarmed⟩,
    fun k => execTriggerFire_not, fun k hk harmed htime => ⟨_, execTriggerFire_fires hk harmed htime, ?fired⟩,
    fun c rising => execTcapEdge_ignored,
    fun c rising hc hready hsel => ⟨fun h => ⟨_, execTcapEdge_enters hc hready hsel h, rfl, ?entry, fun i => capStored_ne _ _⟩,
      execTcapEdge_dropped hc hready hsel, fun h htold => ⟨_, execTcapEdge_told hc hready hsel h htold, ?overflow⟩⟩,
    fun mask owner hpass => ⟨_, execCapPop_passes hpass mask, ?popped⟩⟩⟩
  case countLo => rw [(convert_count _ _).1, (countWritten_words _ _).1]
  case countHi => rw [(convert_count _ _).2, (countWritten_words _ _).2]
  case invalid =>
    rw [convert_none (s := countWritten (low 64 count) s) hnone]
    exact State.get_set_self _ _ _ _
  case converted =>
    obtain ⟨hsec, hns⟩ := secNs_bounds (e.t + (low 64 count - e.c) * e.rate)
    rw [convert_some (s := countWritten (low 64 count) s) hsome]
    exact timeShown_time hsec hns _
  case captured =>
    have hcap : tget (tput s.ptp.caps (agentOf owner) (s.counter, s.timeNow)) (agentOf owner) (0, 0) = (s.counter, s.timeNow) :=
      tget_tput_self _ _ _ _
    exact congrArg (fun c : Nat × Nat => [low 32 c.1, c.1 / 2 ^ 32, low 32 (secNs c.2).1, (secNs c.2).1 / 2 ^ 32, (secNs c.2).2]) hcap
  case others =>
    have hcap : tget (tput s.ptp.caps (agentOf owner) (s.counter, s.timeNow)) a (0, 0) = tget s.ptp.caps a (0, 0) :=
      tget_tput_ne _ _ _ ha
    exact congrArg (fun c : Nat × Nat => [low 32 c.1, c.1 / 2 ^ 32, low 32 (secNs c.2).1, (secNs c.2).1 / 2 ^ 32, (secNs c.2).2]) hcap
  case armed =>
    obtain ⟨-, -, hall⟩ := trigArms_spec ((List.range 8).filter (bitAt mask)) (nodup_named 8 mask) (fun k h => (mem_named.mp h).1) s
    obtain ⟨hout, hin⟩ := hall k hk
    refine ⟨fun h => hout fun hmem => (nomatch h.symm.trans (mem_named.mp hmem).2), fun h => ?_, fun h => ?_⟩
    · exact (hin (mem_named.mpr ⟨hk, h⟩)).1
    · exact (hin (mem_named.mpr ⟨hk, h⟩)).2
  case disarmed =>
    obtain ⟨htrig, hall⟩ := disarms_spec ((List.range 8).filter (bitAt mask)) (fun k h => (mem_named.mp h).1) s
    refine ⟨htrig, fun k hk => ?_⟩
    have hnamed : decide (k ∈ (List.range 8).filter (bitAt mask)) = bitAt mask k := by
      rw [Bool.eq_iff_iff, decide_eq_true_iff, mem_named, and_iff_right hk]
    rw [hall k hk, hnamed]
  case fired =>
    obtain ⟨⟨-, hothers, -⟩, hstate, hj, hpulse, hquiet⟩ := trigFire_spec hk s
    refine ⟨?_, hj, hpulse, hquiet, fun i hi hne => hothers i hne hi⟩
    rw [hstate, harmed]
    by_cases hperiod : s.trigPeriod k = 0
    · rw [if_pos hperiod, decide_eq_false (not_not.mpr hperiod)]
    · rw [if_neg hperiod, decide_eq_true hperiod]
  case entry => exact congrArg TcapX.fifo (capStored_self _ _ _)
  case overflow =>
    rw [State.raise_tcap]
    have hself := capStored_self c { s.capFifo c with told := true } s
    exact ⟨(congrArg TcapX.fifo hself).trans rfl, (congrArg TcapX.told hself).trans rfl, fun i => capStored_ne _ _,
      State.raise_bit _ _ _ (by decide) (by decide)⟩
  case popped =>
    obtain ⟨honly, hout, hin⟩ := capPops_spec ((List.range 4).filter (bitAt mask)) (nodup_named 4 mask) s _ rfl
    refine ⟨honly, fun c hc => ?_⟩
    cases hbit : bitAt mask c with
    | true =>
      have hpop := hin c (mem_named.mpr ⟨hc, hbit⟩)
      exact ⟨congrArg TcapX.fifo hpop, fun htold => (congrArg TcapX.told hpop).trans (by rw [htold]; rfl)⟩
    | false =>
      have hkeep := hout c fun hmem => nomatch hbit.symm.trans (mem_named.mp hmem).2
      exact ⟨congrArg TcapX.fifo hkeep, fun htold => (congrArg TcapX.told hkeep).trans htold⟩

end Sys2Proof.Machine
end

section
/-! What a heartbeat of the partner does, on a lane and on the pin. -/

-- One declaration after another, as in the files before: the text is also checked in one piece.
set_option Elab.async false

namespace Sys2Proof.Machine

/-- A HEARTBEAT message as its contents (Table 15-2). -/
def laneBeat (body : List Byte) : Beat :=
  let m : Msg := ⟨0x81, 0, body, 0, 0⟩
  ⟨false, m.le 0 2, m.le 2 1 % 8, bits (m.le 2 1) 4 3, bitAt (m.le 2 1) 7, m.le 3 1, m.le 4 1, some (m.le 8 4)⟩

/-- A frame of HB_IN as its contents (Table 15-3). -/
def pinBeat (f : Nat) : Beat :=
  ⟨true, bits f 40 16, bits f 37 3, bits f 34 3, bitAt f 33, bits f 25 8, bits f 17 8, none⟩

theorem laneBeat_bounds (body : List Byte) : (laneBeat body).role < 8 ∧ (laneBeat body).renew < 256 :=
  ⟨Nat.mod_lt _ (by decide), le_one_lt _ _⟩

theorem pinBeat_bounds (f : Nat) : (pinBeat f).role < 8 ∧ (pinBeat f).renew < 256 :=
  ⟨Nat.mod_lt _ (by decide), Nat.mod_lt _ (by decide)⟩

/-- The positions latched with a frame of HB_IN (R507). -/
def frameLatched (f : Nat) (s : State) : State :=
  s.updPair (fun x => { x with latchIn := ((bits f 9 8, (s.latchAt (s.now - 5080)).1, (s.latchAt (s.now - 5080)).2) :: x.latchIn).take 8 })

section
variable {s : State}

theorem execHeartbeatReceived_ignored {lane : Nat} {body : List Byte} (h : 2 ≤ lane ∨ s.ready pgPair = false ∨
    s.pairLocked lane = false ∨ body.length ≠ 12) : exec (.heartbeatReceived lane body) s = .next s := by
  refine congrArg Host.Outcome.next (if_neg ?_)
  rintro ⟨hlane, hhears, hlength⟩
  obtain ⟨hready, hlocked⟩ := (Bool.and_eq_true _ _).mp hhears
  rcases h with h | h | h | h
  · exact absurd hlane (Nat.not_lt.mpr h)
  · exact nomatch h.symm.trans hready
  · exact nomatch h.symm.trans hlocked
  · exact h hlength

theorem execHeartbeatReceived_taken {lane : Nat} {body : List Byte} (hlane : lane < 2) (hready : s.ready pgPair = true)
    (hlocked : s.pairLocked lane = true) (hlength : body.length = 12) :
    exec (.heartbeatReceived lane body) s = .next (beat (laneBeat body) s) :=
  congrArg Host.Outcome.next (if_pos ⟨hlane, (Bool.and_eq_true _ _).mpr ⟨hready, hlocked⟩, hlength⟩)

theorem execHbPinFrameReceived_ignored {f : Nat} (h : s.ready pgPair = false ∨ bits (low 64 f) 56 8 ≠ 0xB5 ∨
    low 64 f % 256 ≠ ringCrc (msbBits 56 (low 64 f / 256))) : exec (.hbPinFrameReceived f) s = .next s := by
  refine congrArg Host.Outcome.next (if_neg ?_)
  rintro ⟨hready, hstart, hcrc⟩
  rcases h with h | h | h
  · exact nomatch h.symm.trans hready
  · exact h hstart
  · exact h hcrc

theorem execHbPinFrameReceived_taken {f : Nat} (hready : s.ready pgPair = true) (hstart : bits (low 64 f) 56 8 = 0xB5)
    (hcrc : low 64 f % 256 = ringCrc (msbBits 56 (low 64 f / 256))) :
    exec (.hbPinFrameReceived f) s = .next (beat (pinBeat (low 64 f)) (frameLatched (low 64 f) s)) :=
  congrArg Host.Outcome.next (if_pos ⟨hready, hstart, hcrc⟩)

end

/-- Settles O44: both paths bring their contents to the same beat, whose effects by role are those of `beat_spec`; a frame of the
pin latches positions before, which no role looks at. How a heartbeat is taken is the model's choice (log 94). -/
theorem pairHeartbeats : Obligations.PairHeartbeats := by
  refine fun s => ⟨fun lane body => execHeartbeatReceived_ignored, fun f => execHbPinFrameReceived_ignored,
    fun i b hpath hready hmirror hjoin hauto hcfg => ?_⟩
  rcases hpath with ⟨lane, body, m, rfl, rfl, hlane, hlocked, hlength, rfl⟩ | ⟨f, rfl, hstart, hcrc, rfl⟩
  · rw [execHeartbeatReceived_taken hlane hready hlocked hlength]
    obtain ⟨hrole, hrenew⟩ := laneBeat_bounds body
    obtain ⟨t, ht, hfacts⟩ := beat_spec (laneBeat body) s hrole hrenew hmirror hjoin hauto hcfg
    exact ⟨t, congrArg Host.Outcome.next ht, hfacts⟩
  · rw [execHbPinFrameReceived_taken hready hstart hcrc]
    obtain ⟨hrole, hrenew⟩ := pinBeat_bounds (low 64 f)
    obtain ⟨t, ht, hfacts⟩ := beat_spec (pinBeat (low 64 f)) (frameLatched (low 64 f) s) hrole hrenew hmirror hjoin hauto hcfg
    exact ⟨t, congrArg Host.Outcome.next ht, hfacts⟩

end Sys2Proof.Machine
end

section
/-! Line CRCs, position latches and mirrored updates of the partner. -/

-- One declaration after another, as in the files before: the text is also checked in one piece.
set_option Elab.async false

namespace Sys2Proof.Machine

/-! ### Line CRCs -/

/-- A LINE_CRC has been heard (R504). -/
def lineHeard (s : State) : State := s.updPair (fun x => { x with peerLineAt := some s.counter })

/-- The two CRCs of one line. -/
def isLine (n l : Nat) (e : Nat × Nat × Nat) : Bool := e.1 == n && e.2.1 == l

section
variable {s : State} {port folio line crc : Nat}

theorem execLineCrcReceived_unheard (h : s.pairHears 0 = false) : exec (.lineCrcReceived port folio line crc) s = .next s :=
  congrArg Host.Outcome.next (if_neg (by rw [h]; decide))

variable (hears : s.pairHears 0 = true)
include hears

theorem execLineCrcReceived_idle (h : s.pairOn = false ∨ s.paired (low 6 port) = false ∨ s.comparing = false) :
    exec (.lineCrcReceived port folio line crc) s = .next (lineHeard s) := by
  refine congrArg Host.Outcome.next ((if_pos hears).trans (if_neg ?_))
  change ¬ (s.pairOn && s.paired (low 6 port) && s.comparing) = true
  rcases h with h | h | h <;> simp [h]

theorem execLineCrcReceived_compares (hon : s.pairOn = true) (hpaired : s.paired (low 6 port) = true) (hcomp : s.comparing = true) :
    exec (.lineCrcReceived port folio line crc) s =
      .next (lineCrcIn false (low 6 port) (low 32 folio) (low 24 line) (low 32 crc) (lineHeard s)) := by
  refine congrArg Host.Outcome.next ((if_pos hears).trans (if_pos ?_))
  change (s.pairOn && s.paired (low 6 port) && s.comparing) = true
  rw [hon, hpaired, hcomp]
  rfl

end

/-- The own CRC of a line taken out of its port's list. -/
def ownTaken (p n l : Nat) (s : State) : State :=
  s.updPair (fun x => { x with own := tput x.own p ((tget s.pair.own p []).filter (fun e => !isLine n l e)) })

/-- A CRC that finds its partner (R495). -/
theorem lineMatched {s : State} {p n l c : Nat} (hp : p < 64) (hn : n < 2 ^ 32) (hl : l < 2 ^ 24) {e : Nat × Nat × Nat}
    (he : (tget s.pair.own p []).find? (isLine n l) = some e) : ∃ t, lineCrcIn false p n l c (lineHeard s) = t ∧
      tget t.pair.own p [] = (tget s.pair.own p []).filter (fun e => !isLine n l e) ∧
      (e.2.2 = c → t.get F.Pair.DIVERGED_LINES pgPair = s.get F.Pair.DIVERGED_LINES pgPair) ∧
      (e.2.2 ≠ c → t.get F.Pair.DIVERGED_LINES pgPair = low 32 (min (s.get F.Pair.DIVERGED_LINES pgPair + 1) (2 ^ 32 - 1)) ∧
        t.get F.Pair.LAST_DIV_FOLIO pgPair = n ∧ t.get F.Pair.PORT pgPair = p ∧ t.get F.Pair.LINE pgPair = l ∧
        bitAt (t.get F.Hdr.EVENT_STATUS pgPair) Ev.pairDiverged.bit = true) := by
  have hfound : lineCrcIn false p n l c (lineHeard s) = joinReady (lineCompare p n l (e.2.2 == c) (ownTaken p n l (lineHeard s))) :=
    lineCrcIn_found p n l c (lineHeard s) e he
  have hown : tget (ownTaken p n l (lineHeard s)).pair.own p [] = (tget s.pair.own p []).filter (fun e => !isLine n l e) :=
    tget_tput_self _ _ _ _
  obtain ⟨hregs, hkeeps, -⟩ := joinReady_spec (lineCompare p n l (e.2.2 == c) (ownTaken p n l (lineHeard s)))
  refine ⟨_, hfound, ?_⟩
  simp only [get_of_regs hregs, hkeeps]
  by_cases hc : e.2.2 = c
  · rw [beq_iff_eq.mpr hc]
    obtain ⟨hregs', hown'⟩ := lineCompare_same p n l (ownTaken p n l (lineHeard s))
    exact ⟨by rw [hown', hown], fun _ => get_of_regs (t := lineCompare p n l true (ownTaken p n l (lineHeard s))) hregs' _ _,
      fun h => absurd hc h⟩
  · rw [beq_eq_false_iff_ne.mpr hc]
    obtain ⟨t, ht, hown', hcount, hfolio, hport, hline, hbit⟩ := lineCompare_differ p n l (ownTaken p n l (lineHeard s)) hp hn hl
    rw [ht]
    exact ⟨by rw [hown', hown], fun h => absurd h hc, fun _ => ⟨hcount, hfolio, hport, hline, hbit⟩⟩

/-- The partner's CRCs that wait for a port. -/
def peerKept (p : Nat) (v : List (Nat × Nat × Nat)) (s : State) : State :=
  s.updPair (fun x => { x with peer := tput x.peer p v })

/-- A CRC without partner waits among 64 of its port (R495). -/
theorem lineWaits {s : State} {p n l : Nat} (c : Nat) (he : (tget s.pair.own p []).find? (isLine n l) = none) :
    ∃ t, lineCrcIn false p n l c (lineHeard s) = t ∧ t.pair.own = s.pair.own ∧
      tget t.pair.peer p [] = (if (tget s.pair.peer p []).length < 64 then tget s.pair.peer p [] ++ [(n, l, c)]
        else (tget s.pair.peer p [] ++ [(n, l, c)]).drop 1) ∧
      t.get F.Pair.UNMATCHED_LINES pgPair = (if (tget s.pair.peer p []).length < 64 then s.get F.Pair.UNMATCHED_LINES pgPair
        else low 32 (min (s.get F.Pair.UNMATCHED_LINES pgPair + 1) (2 ^ 32 - 1))) := by
  have hroom : (tget s.pair.peer p [] ++ [(n, l, c)]).length ≤ 64 ↔ (tget s.pair.peer p []).length < 64 := by
    rw [List.length_append]
    exact Nat.succ_le_iff
  have hnone : lineCrcIn false p n l c (lineHeard s) = if (tget s.pair.peer p [] ++ [(n, l, c)]).length ≤ 64
      then peerKept p (tget s.pair.peer p [] ++ [(n, l, c)]) (lineHeard s)
      else (peerKept p ((tget s.pair.peer p [] ++ [(n, l, c)]).drop 1) (lineHeard s)).sat F.Pair.UNMATCHED_LINES pgPair :=
    lineCrcIn_none p n l c (lineHeard s) he
  refine ⟨_, hnone, ?_⟩
  by_cases h : (tget s.pair.peer p []).length < 64
  · rw [if_pos h, if_pos h, if_pos (hroom.mpr h)]
    exact ⟨rfl, tget_tput_self _ _ _ _, rfl⟩
  · rw [if_neg h, if_neg h, if_neg (fun hle => h (hroom.mp hle))]
    exact ⟨rfl, tget_tput_self _ _ _ _, sat_self _ F.Pair.UNMATCHED_LINES pgPair⟩

/-! ### Position latches -/

/-- The samples of the four channels from a latch (R507). -/
def latchSampled (seq valid : Nat) (pos : List Nat) (l : Nat × Nat × List Nat) (s : State) : State :=
  forAll (List.range 4) s (fun ch s =>
    if bitAt valid ch && bitAt l.2.1 ch then
      match offsetSample (pos.getD ch 0) (l.2.2.getD ch 0) with
      | some k => offsetIn ch seq k s
      | none => s
    else s)

section
variable {s : State} {seq valid : Nat} {pos : List Nat}

theorem execPosLatchReceived_ignored (h : s.pairHears 0 = false ∨ s.pairOn = false ∨ s.role = 0 ∨ 3 < s.role ∨
    s.get F.Pair.PARTNER_ROLE pgPair ≠ 4 ∨ s.pair.latchIn.find? (fun l => l.1 == low 8 seq) = none) :
    exec (.posLatchReceived seq valid pos) s = .next s := by
  refine congrArg Host.Outcome.next ?_
  split
  · next hears =>
    unfold posLatchMsg
    split
    · next hfits =>
      simp only [Bool.and_eq_true, decide_eq_true_eq, beq_iff_eq] at hfits
      obtain ⟨⟨⟨hon, hlow⟩, hhigh⟩, hpartner⟩ := hfits
      rcases h with h | h | h | h | h | h
      · exact nomatch h.symm.trans hears
      · exact nomatch h.symm.trans hon
      · omega
      · omega
      · exact absurd hpartner h
      · rw [h]
    · rfl
  · rfl

theorem execPosLatchReceived_samples {l : Nat × Nat × List Nat} (hears : s.pairHears 0 = true) (hon : s.pairOn = true)
    (hlow : 1 ≤ s.role) (hhigh : s.role ≤ 3) (hpartner : s.get F.Pair.PARTNER_ROLE pgPair = 4)
    (hlatch : s.pair.latchIn.find? (fun l => l.1 == low 8 seq) = some l) :
    exec (.posLatchReceived seq valid pos) s = .next (latchSampled (low 8 seq) (low 4 valid) pos l s) := by
  refine congrArg Host.Outcome.next ((if_pos hears).trans ((if_pos ?_).trans ?_))
  · rw [hon, hpartner, decide_eq_true hlow, decide_eq_true hhigh]
    rfl
  · rw [hlatch]
    rfl

end

/-! ### Mirrored updates -/

/-- A mirrored update joins those that wait (R497). -/
def mirrorQueued (m : MirrorOp) (s : State) : State := s.updPair (fun x => { x with mirror := x.mirror ++ [m] })

/-- Another agent holds the lock that a screening page is bound to (R497). -/
def State.heldByAnother (s : State) (pg : Nat) : Prop :=
  ∃ n, s.binding pg = some n ∧ s.onI F.Lock.HELD pgLocks n = true ∧ s.outbids n 0xA0 = false ∧ s.getI F.Lock.OWNER pgLocks n ≠ 0xA0

/-- A message that brings a mirrored update. -/
def BringsMirror (s : State) (i : Instr) (m : MirrorOp) : Prop :=
  (∃ region reg target off words, i = .mirrorWriteReceived region reg target off words ∧ 1 ≤ words.length ∧ words.length ≤ 12 ∧
    m = ⟨low 2 region, low 16 target, false, reg, low 32 off, words.map (low 32), s.counter⟩) ∨
  ∃ region target, i = .mirrorCommitReceived region target ∧ m = ⟨low 2 region, low 16 target, true, false, 0, [], s.counter⟩

/-- The engine has the page's lock, or the page is bound to none, and takes the only update that waits. -/
def MirrorTaken (s : State) (m : MirrorOp) (w : State) : Prop :=
  (s.binding (pgScr m.region) = none ∧ w = s.updPair (fun x => { x with mirror := [] })) ∨
  ∃ n < 64, s.binding (pgScr m.region) = some n ∧
    (s.onI F.Lock.HELD pgLocks n = false ∨ s.outbids n 0xA0 = true ∨ s.getI F.Lock.OWNER pgLocks n = 0xA0) ∧
    w = (lockAcquire n 0xA0 (mirrorQueued m s)).updPair (fun x => { x with mirror := [] })

section
variable {s : State} {i : Instr} {m : MirrorOp} (hi : BringsMirror s i m)
include hi

theorem BringsMirror.region : m.region < 4 := by
  rcases hi with ⟨region, reg, target, off, words, -, -, -, rfl⟩ | ⟨region, target, -, rfl⟩
  all_goals exact low_lt 2 region

theorem BringsMirror.unheard (h : s.pairHears 1 = false ∨ s.pairOn = false) : exec i s = .next s := by
  have hoff (hears : s.pairHears 1 = true) : mirrorIn m s = s :=
    if_neg (by rw [h.resolve_left (by rw [hears]; decide)]; decide)
  rcases hi with ⟨region, reg, target, off, words, rfl, -, -, rfl⟩ | ⟨region, target, rfl, rfl⟩
  · refine congrArg Host.Outcome.next ?_
    split
    · next hdue => exact hoff hdue.1
    · rfl
  · refine congrArg Host.Outcome.next ?_
    split
    · next hears => exact hoff hears
    · rfl

theorem BringsMirror.heard (hears : s.pairHears 1 = true) (hon : s.pairOn = true) :
    exec i s = .next (mirrorGo (s.pair.mirror.length + 1) (mirrorQueued m s)) := by
  have hin : mirrorIn m s = mirrorGo (s.pair.mirror.length + 1) (mirrorQueued m s) := mirrorIn_eq m s hon
  rw [← hin]
  rcases hi with ⟨region, reg, target, off, words, rfl, h1, h12, rfl⟩ | ⟨region, target, rfl, rfl⟩
  · exact congrArg Host.Outcome.next (if_pos ⟨hears, h1, h12⟩)
  · exact congrArg Host.Outcome.next (if_pos hears)

/-- An update whose turn has not come waits (R497). -/
theorem BringsMirror.waits (hears : s.pairHears 1 = true) (hon : s.pairOn = true) {h : MirrorOp}
    (hhead : h = (s.pair.mirror ++ [m]).headD m) (hblocked : s.ready (pgScr h.region) = false ∨ 2 ≤ s.cstate (pgScr h.region) ∨
      s.heldByAnother (pgScr h.region)) : exec i s = .next (mirrorQueued m s) := by
  obtain ⟨rest, hrest⟩ : ∃ rest, (mirrorQueued m s).pair.mirror = h :: rest := by
    change ∃ rest, s.pair.mirror ++ [m] = h :: rest
    rw [hhead]
    cases s.pair.mirror with
    | nil => exact ⟨[], rfl⟩
    | cons q l => exact ⟨l ++ [m], rfl⟩
  rw [BringsMirror.heard hi hears hon]
  exact congrArg Host.Outcome.next (mirrorGo_blocked _ _ h rest hrest hblocked)

theorem BringsMirror.applied (hears : s.pairHears 1 = true) (hon : s.pairOn = true) (hempty : s.pair.mirror = [])
    (hready : s.ready (pgScr m.region) = true) (hstate : s.cstate (pgScr m.region) < 2) {w : State} (hw : MirrorTaken s m w) :
    exec i s = .next (mirrorApply m w) := by
  have hqueue : (mirrorQueued m s).pair.mirror = [m] := by
    change s.pair.mirror ++ [m] = [m]
    rw [hempty]
    rfl
  rw [BringsMirror.heard hi hears hon, hempty]
  exact congrArg Host.Outcome.next (mirrorGo_one (mirrorQueued m s) m hqueue hready hstate w hw)

end

section
variable {s w : State} {m : MirrorOp} (hw : MirrorTaken s m w) (hregion : m.region < 4)
include hw hregion

/-- Taking the lock leaves the page's binding. -/
theorem MirrorTaken.binding : w.binding (pgScr m.region) = s.binding (pgScr m.region) := by
  rcases hw with ⟨-, rfl⟩ | ⟨n, hn, -, -, rfl⟩
  · rfl
  · exact binding_lock n 0xA0 (pgScr m.region) hn (by unfold pgScr; omega) (mirrorQueued m s)

omit hregion in
theorem MirrorTaken.count : w.get F.Pair.MIRROR_LATE_COUNT pgPair = s.get F.Pair.MIRROR_LATE_COUNT pgPair := by
  rcases hw with ⟨-, rfl⟩ | ⟨n, hn, -, -, rfl⟩
  · rfl
  · exact (lock_pages n 0xA0 (mirrorQueued m s) hn).1.get (by decide) (by decide) (by decide)

omit hregion in
theorem MirrorTaken.holds {n : Nat} (hb : s.binding (pgScr m.region) = some n) : n < 64 ∧ w.holds n 0xA0 = true := by
  rcases hw with ⟨h, -⟩ | ⟨k, hk, h, hfree, rfl⟩
  · exact nomatch h.symm.trans hb
  · obtain rfl : k = n := Option.some.inj (h.symm.trans hb)
    exact ⟨hk, holds_after k (mirrorQueued m s) hfree⟩

end

theorem mirrorApply_words {m : MirrorOp} (h : m.commit = false) (w : State) : mirrorApply m w = mirrorWords m w :=
  if_neg (by rw [h]; decide)

section
variable {m : MirrorOp} {w : State} (h : m.commit = true) (hrefused : w.mirrorRefused (pgScr m.region) m.target = false)
include h hrefused

theorem mirrorApply_commit (hb : w.binding (pgScr m.region) = none) :
    mirrorApply m w = commitWrite (pgScr m.region) m.target true false true w := by
  unfold mirrorApply
  rw [if_pos h]
  dsimp only
  rw [hrefused, hb]
  rfl

theorem mirrorApply_release {n : Nat} (hb : w.binding (pgScr m.region) = some n) (hholds : w.holds n 0xA0 = true) :
    mirrorApply m w = lockRelease n 0xA0 (commitWrite (pgScr m.region) m.target true false true w) := by
  unfold mirrorApply
  rw [if_pos h]
  dsimp only
  rw [hrefused, hb]
  exact if_pos hholds

end

/-! ### The lock's time-out -/

/-- The updates of a region and target dropped (R497). -/
def mirrorDropped (region target : Nat) (s : State) : State :=
  s.updPair (fun x => { x with mirror := x.mirror.filter (fun q => !(q.region == region && q.target == target)) })

theorem execMirrorLockTimeout_empty {s : State} (region : Nat) (h : s.pair.mirror = []) :
    exec (.mirrorLockTimeout region) s = .next s := by
  refine congrArg Host.Outcome.next ?_
  rw [mirrorTry_nil s h, h]

section
variable {s : State} {m : MirrorOp} {rest : List MirrorOp} (hmirror : s.pair.mirror = m :: rest)
include hmirror

theorem mirrorTry_lockedOut (hlocked : s.heldByAnother (pgScr m.region)) : mirrorTry s = s := by
  unfold mirrorTry
  split
  · rw [hmirror]
    exact mirrorGo_blocked rest.length s m rest hmirror (.inr (.inr hlocked))
  · rfl

theorem execMirrorLockTimeout_early (hlocked : s.heldByAnother (pgScr m.region)) {region : Nat}
    (h : m.region ≠ region ∨ s.counter < m.since + 5000000) : exec (.mirrorLockTimeout region) s = .next s := by
  refine congrArg Host.Outcome.next ?_
  rw [mirrorTry_lockedOut hmirror hlocked, hmirror]
  refine if_neg ?_
  rintro ⟨hregion, -, hsince⟩
  rcases h with h | h
  · exact h hregion
  · exact absurd hsince (Nat.not_le.mpr h)

theorem execMirrorLockTimeout_due (hlocked : s.heldByAnother (pgScr m.region)) (hready : s.ready (pgScr m.region) = true)
    (hstate : s.cstate (pgScr m.region) < 2) (hsince : m.since + 5000000 ≤ s.counter) : exec (.mirrorLockTimeout m.region) s =
      .next (mirrorTry (mirrorLate m.region m.target true (mirrorDropped m.region m.target s))) := by
  refine congrArg Host.Outcome.next ?_
  rw [mirrorTry_lockedOut hmirror hlocked, hmirror]
  refine if_pos ⟨rfl, ?_, hsince⟩
  rw [hready, decide_eq_true hstate]
  rfl

omit hmirror in
theorem mirrorLate_facts (region target : Nat) (noLock : Bool) (z : State) : (mirrorLate region target noLock z).pair = z.pair ∧
    (mirrorLate region target noLock z).get F.Pair.MIRROR_LATE_COUNT pgPair =
      low 32 (min (z.get F.Pair.MIRROR_LATE_COUNT pgPair + 1) (2 ^ 32 - 1)) ∧
    bitAt ((mirrorLate region target noLock z).get F.Hdr.EVENT_STATUS pgPair) Ev.pairMirrorLate.bit = true :=
  ⟨State.raise_pair _ _ _ _, (State.get_raise_off _ _ (by decide) (by decide) (by decide) (by decide)).trans (sat_self _ _ _),
    State.raise_bit _ _ _ (by decide) (by decide)⟩

theorem mirrorDropped_all (hrest : rest.all (fun q => q.region == m.region && q.target == m.target) = true) :
    (mirrorDropped m.region m.target s).pair.mirror = [] := by
  change s.pair.mirror.filter _ = []
  rw [hmirror, List.filter_eq_nil_iff]
  intro q hq
  rcases List.mem_cons.mp hq with rfl | hq
  · simp
  · rw [List.all_eq_true.mp hrest q hq]
    decide

end

/-! ### The obligation -/

/-- Settles O45, message by message: a line's CRC is compared or waits, a latch gives its samples channel by channel, and a mirrored
update waits or is applied whole. The compare of CRCs, the latches and the mirror as commands are the model's choice (log 95). -/
theorem pairComparesAndMirrors : Obligations.PairComparesAndMirrors := by
  refine fun s => ⟨fun port folio line crc => execLineCrcReceived_unheard, fun port folio line crc p n l c hears hp hn hl hc => ?lines,
    fun seq valid pos => execPosLatchReceived_ignored,
    fun seq valid pos l hears hon hlow hhigh hpartner hlatch =>
      ⟨_, execPosLatchReceived_samples hears hon hlow hhigh hpartner hlatch, fun ch hch => ?samples⟩,
    fun i m hi => ⟨BringsMirror.unheard hi, fun hears hon => ⟨_, _, rfl, rfl, BringsMirror.waits hi hears hon rfl,
      fun hempty hready hstate w hw => ?mirror⟩⟩,
    fun region => execMirrorLockTimeout_empty region,
    fun region m rest n hon hmirror hready hstate hb hheld hbid howner => ?timeout⟩
  case lines =>
    subst hp hn hl hc
    refine ⟨execLineCrcReceived_idle hears, fun hon hpaired hcomp => ?_⟩
    rw [execLineCrcReceived_compares hears hon hpaired hcomp]
    refine ⟨fun e he => ?_, fun he => ?_⟩
    · obtain ⟨t, ht, hfacts⟩ := lineMatched (c := low 32 crc) (low_lt 6 port) (low_lt 32 folio) (low_lt 24 line) he
      exact ⟨t, congrArg Host.Outcome.next ht, hfacts⟩
    · obtain ⟨t, ht, hfacts⟩ := lineWaits (low 32 crc) he
      exact ⟨t, congrArg Host.Outcome.next ht, hfacts⟩
  case samples =>
    obtain ⟨-, hall⟩ := posLoop_spec (low 8 seq) (low 4 valid) pos l (List.range 4) List.nodup_range (fun c => List.mem_range.mp) s _ rfl
    obtain ⟨hnone, hsome⟩ := (hall ch hch).2 (List.mem_range.mpr hch)
    exact ⟨_, _, _, _, rfl, rfl, rfl, rfl, hnone, hsome⟩
  case mirror =>
    have hregion := BringsMirror.region hi
    have hbinding := MirrorTaken.binding hw hregion
    rw [BringsMirror.applied hi hears hon hempty hready hstate hw]
    refine ⟨fun h => congrArg Host.Outcome.next (mirrorApply_words h w), fun h hb hrefused => ?_, fun h n hb hrefused => ?_,
      fun h hrefused => ⟨_, rfl, ?_⟩⟩
    · exact congrArg Host.Outcome.next (mirrorApply_commit h hrefused (hbinding.trans hb))
    · exact congrArg Host.Outcome.next (mirrorApply_release h hrefused (hbinding.trans hb) (MirrorTaken.holds hw hb).2)
    · obtain ⟨hcount, hbit⟩ := mirrorRefused_count m w h hregion hrefused fun n hb => (MirrorTaken.holds hw (hbinding.symm.trans hb)).1
      exact ⟨by rw [hcount, MirrorTaken.count hw], hbit⟩
  case timeout =>
    have hlocked : s.heldByAnother (pgScr m.region) := ⟨n, hb, hheld, hbid, howner⟩
    refine ⟨execMirrorLockTimeout_early hmirror hlocked, ?_⟩
    rintro rfl hsince hrest
    obtain ⟨hpair, hcount, hbit⟩ := mirrorLate_facts m.region m.target true (mirrorDropped m.region m.target s)
    have hempty : (mirrorLate m.region m.target true (mirrorDropped m.region m.target s)).pair.mirror = [] := by
      rw [hpair, mirrorDropped_all hmirror hrest]
    rw [execMirrorLockTimeout_due hmirror hlocked hready hstate hsince, mirrorTry_nil _ hempty]
    exact ⟨_, rfl, hempty, hcount, hbit⟩

end Sys2Proof.Machine
end

section
/-! A rejoin: its start, the snapshot sent and taken, its good and its failed end. -/

-- One declaration after another, as in the files before: the text is also checked in one piece.
set_option Elab.async false

namespace Sys2Proof.Machine

/-! ### The start of a rejoin -/

section
variable {s : State}

theorem execPairJoin_passes {owner : Nat} (h : s.passes pgPair owner = true) :
    exec (.pairJoin owner) s = .next (pairCtrl false false true s) := congrArg Host.Outcome.next (gateReg_passes h _ _ _)

/-- A write of JOIN without AUTO_REJOIN tries to start a rejoin, which a part that is off does not (R508). -/
theorem execPairJoin_tries {owner : Nat} (h : s.passes pgPair owner = true) (hauto : s.on F.Pair.AUTO_REJOIN pgPair = false) :
    exec (.pairJoin owner) s = .next (joinStart s) := by
  rw [execPairJoin_passes h]
  rcases pairCtrl_join s hauto with hjoin | ⟨hoff, hkeep⟩
  · rw [hjoin]
  · rw [hkeep, joinStart_off s (.inl hoff)]

theorem execPairJoin_auto {owner : Nat} (h : s.passes pgPair owner = true) (hauto : s.on F.Pair.AUTO_REJOIN pgPair = true) :
    exec (.pairJoin owner) s = .next s := by
  rw [execPairJoin_passes h]
  refine congrArg Host.Outcome.next ?_
  unfold pairCtrl
  split
  · rfl
  · exact if_neg (by
      change ¬ (!s.on F.Pair.AUTO_REJOIN pgPair) = true
      rw [hauto]
      decide)

/-- The retry of AUTO_REJOIN tries to start a rejoin once its time has come (R509). -/
theorem execRejoinRetry_tries (hauto : s.on F.Pair.AUTO_REJOIN pgPair = true) {t : Nat} (hretry : s.pair.retryAt = some t)
    (htime : t ≤ s.counter) : exec .rejoinRetry s = .next (joinStart s) := by
  refine congrArg Host.Outcome.next ?_
  split
  · exact autoJoin_late s hauto t hretry htime
  · next hnot =>
    refine (joinStart_off s ?_).symm
    by_cases hon : s.pairOn = true
    · exact .inr (.inl fun hrole => hnot ⟨hon, by rw [hretry]; rfl, hrole⟩)
    · exact .inl (Bool.not_eq_true _ ▸ hon)

theorem execRejoinRetry_not (h : s.pairOn = false ∨ s.pair.retryAt = none ∨ s.role ≠ 1 ∨ s.on F.Pair.AUTO_REJOIN pgPair = false ∨
    ∃ t, s.pair.retryAt = some t ∧ s.counter < t) : exec .rejoinRetry s = .next s := by
  refine congrArg Host.Outcome.next ?_
  split
  · next hdue =>
    obtain ⟨hon, hsome, hrole⟩ := hdue
    unfold autoJoin
    rcases h with h | h | h | h | ⟨t, ht, htime⟩
    · exact nomatch h.symm.trans hon
    · rw [h] at hsome
      exact nomatch hsome
    · exact absurd hrole h
    · exact if_neg (by rw [h]; exact nofun)
    · refine if_neg ?_
      rw [ht]
      dsimp only
      rw [decide_eq_false (Nat.not_le.mpr htime), Bool.and_false]
      exact nofun
  · rfl

/-- Both ways of a rejoin's start (R508, R509). -/
def TriesJoin (s : State) (i : Instr) : Prop :=
  (∃ owner, i = .pairJoin owner ∧ s.passes pgPair owner = true ∧ s.on F.Pair.AUTO_REJOIN pgPair = false) ∨
  (i = .rejoinRetry ∧ s.on F.Pair.AUTO_REJOIN pgPair = true ∧ ∃ t, s.pair.retryAt = some t ∧ t ≤ s.counter)

theorem TriesJoin.exec_eq {i : Instr} (h : TriesJoin s i) : exec i s = .next (joinStart s) := by
  rcases h with ⟨owner, rfl, hpass, hauto⟩ | ⟨rfl, hauto, t, hretry, htime⟩
  · exact execPairJoin_tries hpass hauto
  · exact execRejoinRetry_tries hauto hretry htime

/-! ### The snapshot as it is sent -/

theorem execSnapReq_ignored (h : s.pairHears 1 = false ∨ s.pairOn = false ∨ s.role ≠ 4) : exec .snapReqReceived s = .next s := by
  refine congrArg Host.Outcome.next ?_
  split
  · next hears =>
    refine if_neg ?_
    rintro ⟨hon, hrole⟩
    rcases h with h | h | h
    · exact nomatch h.symm.trans hears
    · exact nomatch h.symm.trans hon
    · exact h hrole
  · rfl

/-- The ports that JOIN_PORT names, with their folio and its start position (R508). -/
def State.joinPorts (s : State) : List (Nat × Nat × Nat) :=
  s.pairPorts.map (fun p => (p, s.get F.Port.FOLIO_NOW (pgPort p), s.get2 F.Port.START_POS_LO F.Port.START_POS_HI (pgPort p) 0))

/-- The snapshot's size is shown (R508). -/
def snapShown (s : State) : State :=
  ((s.set F.Pair.UNITS pgPair 25215).set F.Pair.SNAP_STATUS_STATE pgPair 0).updPair (fun x =>
    { x with snap := some ⟨14, crc32 (s.snapObjects.flatMap (·.2)), s.joinPorts⟩ })

/-- The snapshot's messages change only what has been sent. -/
theorem snapSend_sends (hon : s.pairOn = true) (hrole : s.role = 4) : Sends (snapShown s) (snapSend s) := by
  unfold snapSend
  rw [if_pos ⟨hon, hrole⟩]
  refine Sends.trans ?_ (pairSend_sends _ _ _)
  refine Sends.trans ?_ (sends_forAll _ _ (fun _ _ => pairSend_sends _ _ _) _)
  exact sends_forAll _ _ (fun _ _ => pairSend_sends _ _ _) (snapShown s)

theorem snapSend_facts (hon : s.pairOn = true) (hrole : s.role = 4) : (snapSend s).get F.Pair.UNITS pgPair = 25215 ∧
    (snapSend s).get F.Pair.SNAP_STATUS_STATE pgPair = 0 ∧
    (snapSend s).pair.snap = some ⟨14, crc32 (s.snapObjects.flatMap (·.2)), s.joinPorts⟩ ∧ (snapSend s).apt = s.apt ∧
    (snapSend s).aptw = s.aptw := by
  have hsends := snapSend_sends hon hrole
  refine ⟨?_, ?_, ?_, ?_, ?_⟩
  · rw [hsends.get, snapShown, get_of_regs (State.updPair_regs _ _), State.get_set_off _ (by decide), State.get_set_self]
    rfl
  · rw [hsends.get, snapShown, get_of_regs (State.updPair_regs _ _), State.get_set_self]
    rfl
  · rw [hsends.2]
    rfl
  · rw [hsends.1]
    rfl
  · rw [hsends.1]
    rfl

theorem execSnapReq_sends (hears : s.pairHears 1 = true) : exec .snapReqReceived s = .next (snapSend s) :=
  congrArg Host.Outcome.next (if_pos hears)

/-! ### The snapshot as it is taken -/

variable {object off port folio start objects crc : Nat} {data : List Byte}

theorem execSnapData_ignored (h : s.pairHears 1 = false ∨ data.length < 4 ∨ 48 < data.length ∨ data.length % 4 ≠ 0 ∨ off % 4 ≠ 0 ∨
    s.pair.join = none ∨ s.pairOn = false ∨ ∃ j, s.pair.join = some j ∧ j.good = true) :
    exec (.snapDataReceived object off data) s = .next s := by
  refine congrArg Host.Outcome.next ?_
  split
  · next hfits =>
    obtain ⟨hears, hmin, hmax, hwords, halign⟩ := hfits
    unfold snapData
    split
    · next j hj =>
      refine if_neg fun hcond => ?_
      simp only [Bool.and_eq_true, Bool.not_eq_true'] at hcond
      obtain ⟨hon, hgood⟩ := hcond
      rcases h with h | h | h | h | h | h | h | ⟨j', hj', hgood'⟩
      · exact nomatch h.symm.trans hears
      · omega
      · omega
      · exact h hwords
      · exact h halign
      · exact nomatch h.symm.trans hj
      · exact nomatch h.symm.trans hon
      · obtain rfl := Option.some.inj (hj.symm.trans hj')
        exact nomatch hgood.symm.trans hgood'
    · rfl
  · rfl

/-- The words of a SNAP_DATA message stored. -/
def snapStored (object off : Nat) (data : List Byte) (s : State) : State :=
  forAll (List.range (data.length / 4)) s (fun i => snapStore object (off + 4 * i) (leNat ((data.drop (4 * i)).take 4)))

theorem snapStored_pair (object off : Nat) (data : List Byte) (s : State) : (snapStored object off data s).pair = s.pair :=
  forAll_keeps _ _ _ State.pair fun _ _ => snapStore_pair _ _ _ _

/-- A rejoin after a SNAP_DATA message: the CRC and the count go on (R508). -/
def JoinX.counted (j : JoinX) (data : List Byte) : JoinX :=
  { j with crc := data.foldl (crcByte 0xEDB88320) j.crc, bytes := j.bytes + data.length }

/-- A SNAP_DATA message taken. -/
def snapTaken (object off : Nat) (data : List Byte) (j : JoinX) (s : State) : State :=
  ((snapStored object off data s).updPair (fun x => { x with join := x.join.map (fun j => j.counted data) })).set
    F.Pair.UNITS pgPair ((j.bytes + data.length) / 64)

theorem snapTaken_facts {j : JoinX} (hj : s.pair.join = some j) : (snapTaken object off data j s).pair.join = some (j.counted data) ∧
    (snapTaken object off data j s).get F.Pair.UNITS pgPair = low 21 ((j.bytes + data.length) / 64) := by
  refine ⟨?_, State.get_set_self _ _ _ _⟩
  change (snapStored object off data s).pair.join.map _ = _
  rw [snapStored_pair, hj]
  rfl

theorem execSnapData_taken (hears : s.pairHears 1 = true) (hmin : 4 ≤ data.length) (hmax : data.length ≤ 48)
    (hwords : data.length % 4 = 0) (halign : off % 4 = 0) {j : JoinX} (hj : s.pair.join = some j) (hon : s.pairOn = true)
    (hgood : j.good = false) : exec (.snapDataReceived object off data) s = .next (snapTaken (low 8 object) (low 32 off) data j s) := by
  refine congrArg Host.Outcome.next ((if_pos ⟨hears, hmin, hmax, hwords, halign⟩).trans ?_)
  unfold snapData
  rw [hj]
  refine (if_pos ?_).trans rfl
  rw [hon, hgood]
  rfl

theorem execJoinPort_ignored (h : s.pairHears 1 = false ∨ Config.ports ≤ port ∨ s.pairOn = false) :
    exec (.joinPortReceived port folio start) s = .next s := by
  refine congrArg Host.Outcome.next ?_
  split
  · next hfits =>
    obtain ⟨hears, hport⟩ := hfits
    refine if_neg fun hon => ?_
    rcases h with h | h | h
    · exact nomatch h.symm.trans hears
    · exact absurd hport (Nat.not_lt.mpr h)
    · exact nomatch h.symm.trans hon
  · rfl

/-- A JOIN_PORT taken. -/
def joinPortTaken (port folio start : Nat) (s : State) : State :=
  s.updPair (fun x => { x with join := x.join.map (fun j => if j.good then j else { j with ports := tput j.ports port (folio, start) }) })

theorem execJoinPort_taken (hears : s.pairHears 1 = true) (hport : port < Config.ports) (hon : s.pairOn = true) :
    exec (.joinPortReceived port folio start) s = .next (joinPortTaken port (low 32 folio) (low 64 start) s) :=
  congrArg Host.Outcome.next ((if_pos ⟨hears, hport⟩).trans (if_pos hon))

theorem joinPortTaken_join {j : JoinX} (hj : s.pair.join = some j) : (joinPortTaken port folio start s).pair.join =
    some (if j.good then j else { j with ports := tput j.ports port (folio, start) }) := by
  change s.pair.join.map _ = _
  rw [hj]
  rfl

/-! ### The end of a rejoin -/

theorem execSnapEnd_ignored (h : s.pairHears 1 = false ∨ 2 ^ 32 ≤ objects ∨ s.pair.join = none ∨ s.pairOn = false ∨
    ∃ j, s.pair.join = some j ∧ j.good = true) : exec (.snapEndReceived objects crc) s = .next s := by
  refine congrArg Host.Outcome.next ?_
  split
  · next hfits =>
    obtain ⟨hears, hobjects⟩ := hfits
    unfold snapEnd
    split
    · next j hj =>
      refine if_pos ?_
      rcases h with h | h | h | h | ⟨j', hj', hgood'⟩
      · exact nomatch h.symm.trans hears
      · exact absurd hobjects (Nat.not_lt.mpr h)
      · exact nomatch h.symm.trans hj
      · rw [h]
        rfl
      · obtain rfl := Option.some.inj (hj.symm.trans hj')
        rw [hgood', Bool.or_true]
    · rfl
  · rfl

/-- The snapshot has been good (R508). -/
def snapGood (j : JoinX) (s : State) : State := s.updPair (fun x => { x with join := some { j with good := true } })

section
variable {j : JoinX} (hears : s.pairHears 1 = true) (hobjects : objects < 2 ^ 32) (hj : s.pair.join = some j) (hon : s.pairOn = true)
  (hgood : j.good = false)
include hears hobjects hj hon hgood

theorem execSnapEnd_eq : exec (.snapEndReceived objects crc) s =
    .next (if (j.crc ^^^ 0xFFFFFFFF) = low 32 crc then joinRestart (snapGood j s) else joinFail 2 s) := by
  have hsnap : s.updPair (fun x => { x with join := x.join.map (fun j => { j with good := true }) }) = snapGood j s := by
    have hjoin : s.pair.join.map (fun j => { j with good := true }) = some { j with good := true } := by
      rw [hj]
      rfl
    exact congrArg (fun o => s.updPair (fun x => { x with join := o })) hjoin
  refine congrArg Host.Outcome.next ((if_pos ⟨hears, hobjects⟩).trans ?_)
  unfold snapEnd
  rw [hj]
  refine (if_neg (by rw [hon, hgood]; decide)).trans ?_
  rw [hsnap]

theorem execSnapEnd_differs (h : j.crc ^^^ 0xFFFFFFFF ≠ low 32 crc) : exec (.snapEndReceived objects crc) s = .next (joinFail 2 s) := by
  rw [execSnapEnd_eq hears hobjects hj hon hgood, if_neg h]

theorem execSnapEnd_good (h : j.crc ^^^ 0xFFFFFFFF = low 32 crc) :
    exec (.snapEndReceived objects crc) s = .next (joinRestart (snapGood j s)) := by
  rw [execSnapEnd_eq hears hobjects hj hon hgood, if_pos h]

end

/-- A good snapshot waits while a port still runs, and once the rejoin has gone on (R508). -/
theorem joinRestart_waits {j : JoinX} (h : s.pairPortsIdle = false ∨ j.ended = true) : joinRestart (snapGood j s) = snapGood j s := by
  refine if_neg ?_
  change ¬ (!j.ended && s.pairPortsIdle) = true
  rcases h with h | h <;> simp [h]

/-- The folio with which a rejoin starts its ports (R508). -/
def JoinX.startsAt (j : JoinX) : Nat := low 32 (((j.ports.head?.map (·.2.1)).getD 0) + 2)

/-- The rejoin goes on to its last step (R508). -/
def joinEnded (folio : Nat) (s : State) : State :=
  joinReady ((((s.set F.Pair.JOIN_FOLIO pgPair folio).set F.Pair.SNAP_STATUS_STATE pgPair 3).updPair (fun x =>
    { x with join := x.join.map (fun j => { j with ended := true }) })).raise Ev.pairSnapDone pgPair (arg64 folio 0))

theorem joinRestart_goes {j : JoinX} (hidle : s.pairPortsIdle = true) (hended : j.ended = false) :
    ∃ u, joinRestart (snapGood j s) = joinEnded j.startsAt u := by
  refine ⟨_, (if_pos ?_).trans rfl⟩
  change (!j.ended && s.pairPortsIdle) = true
  rw [hidle, hended]
  rfl

theorem joinEnded_facts (j : JoinX) (u : State) : (joinEnded j.startsAt u).get F.Pair.JOIN_FOLIO pgPair = j.startsAt ∧
    (joinEnded j.startsAt u).get F.Pair.SNAP_STATUS_STATE pgPair = 3 ∧
    bitAt ((joinEnded j.startsAt u).get F.Hdr.EVENT_STATUS pgPair) Ev.pairSnapDone.bit = true := by
  have hregs := (joinReady_spec ((((u.set F.Pair.JOIN_FOLIO pgPair j.startsAt).set F.Pair.SNAP_STATUS_STATE pgPair 3).updPair (fun x =>
    { x with join := x.join.map (fun j => { j with ended := true }) })).raise Ev.pairSnapDone pgPair (arg64 j.startsAt 0))).1
  unfold joinEnded
  refine ⟨?_, ?_, ?_⟩
  · rw [get_of_regs hregs, State.get_raise_off _ _ (by decide) (by decide) (by decide) (by decide),
      get_of_regs (State.updPair_regs _ _), State.get_set_off _ (by decide), State.get_set_self]
    exact low_of_lt (low_lt 32 _)
  · rw [get_of_regs hregs, State.get_raise_off _ _ (by decide) (by decide) (by decide) (by decide),
      get_of_regs (State.updPair_regs _ _), State.get_set_self]
    rfl
  · rw [get_of_regs hregs]
    exact State.raise_bit _ _ _ (by decide) (by decide)

theorem execSnapTimeout_not (h : s.pair.join = none ∨ s.pairOn = false ∨
    ∃ j, s.pair.join = some j ∧ (j.good = true ∨ s.counter < j.since + 50000000)) : exec .snapTimeout s = .next s := by
  refine congrArg Host.Outcome.next ?_
  split
  · next j hj =>
    refine if_neg fun hcond => ?_
    simp only [Bool.and_eq_true, Bool.not_eq_true', decide_eq_true_eq] at hcond
    obtain ⟨⟨hon, hgood⟩, hsince⟩ := hcond
    rcases h with h | h | ⟨j', hj', h⟩
    · exact nomatch h.symm.trans hj
    · exact nomatch h.symm.trans hon
    · obtain rfl := Option.some.inj (hj.symm.trans hj')
      rcases h with h | h
      · exact nomatch hgood.symm.trans h
      · omega
  · rfl

theorem execSnapTimeout_due {j : JoinX} (hj : s.pair.join = some j) (hon : s.pairOn = true) (hgood : j.good = false)
    (hsince : j.since + 50000000 ≤ s.counter) : exec .snapTimeout s = .next (joinFail 6 s) := by
  refine congrArg Host.Outcome.next ?_
  rw [hj]
  refine if_pos ?_
  rw [hon, hgood, decide_eq_true hsince]
  rfl

end

/-! ### The obligation -/

/-- Settles O46, message by message: both starts of a rejoin come to `joinStart`, its failures to `joinFail`, and its messages are
taken into the rejoin's record. The steps of the rejoin as commands, and the instants at which they act, are the model's choice
(logs 92 and 95). -/
theorem pairRejoin : Obligations.PairRejoin := by
  refine fun s => ⟨fun i hi => ⟨fun hoff => ?stays, fun hon hrole hfits hfirst => ?starts⟩, fun owner => execPairJoin_auto,
    execRejoinRetry_not, execSnapReq_ignored, fun hears hon hrole => ⟨_, execSnapReq_sends hears, snapSend_facts hon hrole⟩,
    fun object off data => execSnapData_ignored,
    fun object off data j hears hmin hmax hwords halign hj hon hgood =>
      ⟨_, execSnapData_taken hears hmin hmax hwords halign hj hon hgood, snapTaken_facts hj⟩,
    fun port folio start => execJoinPort_ignored,
    fun port folio start j hears hport hon hj => ⟨_, execJoinPort_taken hears hport hon, rfl, joinPortTaken_join hj⟩,
    fun objects crc => execSnapEnd_ignored, fun objects crc j hears hobjects hj hon hgood => ⟨fun hdiffers => ?failed,
      fun hcrc hwait => ?waits, fun hcrc hidle hended => ?goes⟩,
    execSnapTimeout_not, fun j hj hon hgood hsince => ⟨_, execSnapTimeout_due hj hon hgood hsince, ?late⟩⟩
  case stays => rw [TriesJoin.exec_eq hi, joinStart_off s hoff]
  case starts =>
    obtain ⟨m, hrole', hstate, hunits, hjoin, hready, hretry, heq⟩ := joinStart_on s hon hrole hfits hfirst
    exact ⟨m, hrole', hstate, hunits, hjoin, hready, hretry, (TriesJoin.exec_eq hi).trans (congrArg Host.Outcome.next heq)⟩
  case failed => exact ⟨_, execSnapEnd_differs hears hobjects hj hon hgood hdiffers, joinFail_role 2 s (by rw [hj]; rfl)⟩
  case waits =>
    rw [execSnapEnd_good hears hobjects hj hon hgood hcrc, joinRestart_waits hwait]
    rfl
  case goes =>
    obtain ⟨u, hu⟩ := joinRestart_goes (s := s) (j := j) hidle hended
    refine ⟨_, execSnapEnd_good hears hobjects hj hon hgood hcrc, ?_⟩
    rw [hu]
    exact joinEnded_facts j u
  case late => exact joinFail_role 6 s (by rw [hj]; rfl)

end Sys2Proof.Machine
end

section
/-! Requests to the Sagger and the parameter sequence. -/

-- One declaration after another, as in the files before: the text is also checked in one piece.
set_option Elab.async false

namespace Sys2Proof.Machine

/-! ### Requests -/

/-- What one write of SAG_CMD leaves for the next cycle (R522, R523). -/
def sagRequested (start stop reset : Bool) (s : State) (x : SagX) : SagX :=
  { x with
    start := x.start || start, stop := x.stop || stop
    reset := if reset then some (s.hostResetOk || x.reset == some true) else x.reset }

/-- A write of SAG_CMD with its request. -/
def IsSagRequest (s : State) (i : Instr) (f : SagX → SagX) : Prop :=
  (∃ owner, i = .sagStart owner ∧ s.passes pgSag owner = true ∧ f = fun x => { x with start := true }) ∨
  (∃ start owner, i = .sagStop start owner ∧ s.passes pgSag owner = true ∧ f = fun x => { x with start := x.start || start, stop := true }) ∨
  ∃ owner, i = .sagReset owner ∧ s.passes pgSag owner = true ∧
    f = fun x => { x with reset := some (s.hostResetOk || x.reset == some true) }

theorem IsSagRequest.exec_eq {s : State} {i : Instr} {f : SagX → SagX} (h : IsSagRequest s i f) :
    ∃ start stop reset, exec i s = .next (sagCmd start stop reset s) ∧ f = sagRequested start stop reset s := by
  rcases h with ⟨owner, rfl, hpass, rfl⟩ | ⟨start, owner, rfl, hpass, rfl⟩ | ⟨owner, rfl, hpass, rfl⟩
  · exact ⟨true, false, false, congrArg Host.Outcome.next (gateReg_passes hpass _ _ _), funext fun x => by simp [sagRequested]⟩
  · exact ⟨start, true, false, congrArg Host.Outcome.next (gateReg_passes hpass _ _ _), funext fun x => by simp [sagRequested]⟩
  · exact ⟨false, false, true, congrArg Host.Outcome.next (gateReg_passes hpass _ _ _), funext fun x => by simp [sagRequested]⟩

section
variable {s : State}

theorem execResetButtonRelease_ignored {lowUs : Nat} (h : s.sag.up ≠ 2 ∨ lowUs < 50000 ∨ 3000000 < lowUs) :
    exec (.resetButtonRelease lowUs) s = .next s := by
  refine congrArg Host.Outcome.next (if_neg ?_)
  rintro ⟨hup, hmin, hmax⟩
  omega

theorem execResetButtonRelease_kept {lowUs : Nat} (hup : s.sag.up = 2) (hmin : 50000 ≤ lowUs) (hmax : lowUs ≤ 3000000) :
    exec (.resetButtonRelease lowUs) s = .next (s.updSag (fun x =>
      { x with releasedAt := some s.now, reset := if s.resetSource = 1 then some true else x.reset })) :=
  congrArg Host.Outcome.next (if_pos ⟨hup, hmin, hmax⟩)

/-! ### The key sequence -/

theorem execParamKeyWrite_passes {owner : Nat} (h : s.passes pgSag owner = true) (value : Nat) :
    exec (.paramKeyWrite value owner) s = .next (paramKey value s) := congrArg Host.Outcome.next (gateReg_passes h _ _ _)

/-- A key sequence between its steps is rejected with reason 1 (R535). -/
theorem keyBreak_rejects {k : Nat} (hk : k = s.get F.Sag.PARAM_STATUS_STEP pgSag) (h : k = 1 ∨ k = 2) :
    (keyBreak s).get F.Sag.PARAM_STATUS_STEP pgSag = 0 ∧ (keyBreak s).get F.Sag.REASON pgSag = 1 ∧ (keyBreak s).sag = s.sag ∧
    (s.modeNow ≠ 0 → s.mode.porst = false → bitAt ((keyBreak s).get F.Hdr.EVENT_STATUS pgSag) Ev.sagParamRejected.bit = true) := by
  rw [keyBreak_on s (hk ▸ h)]
  exact paramReject_spec 1 (by decide) s

theorem keyBreak_stands {k : Nat} (hk : k = s.get F.Sag.PARAM_STATUS_STEP pgSag) (h1 : k ≠ 1) (h2 : k ≠ 2) : keyBreak s = s :=
  keyBreak_off s (hk ▸ h1) (hk ▸ h2)

theorem execParamKeyTimeout_not {k : Nat} (hk : k = s.get F.Sag.PARAM_STATUS_STEP pgSag)
    (h : s.now ≤ s.sag.keyAt + 100000 ∨ (k ≠ 1 ∧ k ≠ 2)) : exec .paramKeyTimeout s = .next s := by
  refine congrArg Host.Outcome.next ?_
  split
  · next hlate =>
    obtain ⟨h1, h2⟩ := h.resolve_left (Nat.not_le.mpr hlate)
    exact keyBreak_stands hk h1 h2
  · rfl

theorem execParamKeyTimeout_late (h : s.sag.keyAt + 100000 < s.now) : exec .paramKeyTimeout s = .next (keyBreak s) :=
  congrArg Host.Outcome.next (if_pos h)

/-! ### The commit -/

/-- The reason for which the staged set is rejected, 0 for none (R535). -/
def State.judgeReason (s : State) (w : Nat → Nat) : Nat :=
  if paramCrcOk w = false ∨ (s.sagChannels.length < 2 ∧ s.sag.up ≠ 1) then 2
  else if s.paramStateBad = true then 3 else if paramInvalid w = true then 4 else if s.journalOpen = false then 5 else 0

/-- The staged words. -/
def State.staged (s : State) (i : Nat) : Nat := s.getI F.Sag.PARAM_STAGE pgSag i

/-- The reasons of the judgement in their order (R535). -/
theorem paramJudge_eq (s : State) : paramJudge s = if s.judgeReason s.staged = 0
    then journalAsk ⟨2, 0, paramBytes s.staged⟩ (s.set F.Sag.PARAM_STATUS_STEP pgSag 3)
    else paramReject (s.judgeReason s.staged) s := by
  have hcrc : (!paramCrcOk s.staged || !(decide (2 ≤ s.sagChannels.length) || s.sag.up == 1)) = true ↔
      paramCrcOk s.staged = false ∨ (s.sagChannels.length < 2 ∧ s.sag.up ≠ 1) := by
    simp
  have hopen : (!s.journalOpen) = true ↔ s.journalOpen = false := by simp
  have heq : paramJudge s =
      if paramCrcOk s.staged = false ∨ (s.sagChannels.length < 2 ∧ s.sag.up ≠ 1) then paramReject 2 s
      else if s.paramStateBad = true then paramReject 3 s
      else if paramInvalid s.staged = true then paramReject 4 s
      else if s.journalOpen = false then paramReject 5 s
      else journalAsk ⟨2, 0, paramBytes s.staged⟩ (s.set F.Sag.PARAM_STATUS_STEP pgSag 3) := by
    unfold paramJudge
    exact if_ctx_congr hcrc (fun _ => rfl) fun _ => if_ctx_congr Iff.rfl (fun _ => rfl) fun _ =>
      if_ctx_congr Iff.rfl (fun _ => rfl) fun _ => if_ctx_congr hopen (fun _ => rfl) fun _ => rfl
  rw [heq]
  unfold State.judgeReason
  by_cases h2 : paramCrcOk s.staged = false ∨ (s.sagChannels.length < 2 ∧ s.sag.up ≠ 1)
  · simp only [if_pos h2, OfNat.ofNat_ne_zero, if_false]
  · by_cases h3 : s.paramStateBad = true
    · simp only [if_neg h2, if_pos h3, OfNat.ofNat_ne_zero, if_false]
    · by_cases h4 : paramInvalid s.staged = true
      · simp only [if_neg h2, if_neg h3, if_pos h4, OfNat.ofNat_ne_zero, if_false]
      · by_cases h5 : s.journalOpen = false
        · simp only [if_neg h2, if_neg h3, if_neg h4, if_pos h5, OfNat.ofNat_ne_zero, if_false]
        · simp only [if_neg h2, if_neg h3, if_neg h4, if_neg h5, if_true]

theorem judgeReason_lt (w : Nat → Nat) : s.judgeReason w < 6 := by
  unfold State.judgeReason
  repeat' split
  all_goals decide

section
variable {owner : Nat} (hpass : s.passes pgSag owner = true)
include hpass

theorem execParamCommit_passes : exec (.paramCommit owner) s = .next (paramCommit s) :=
  congrArg Host.Outcome.next (gateReg_passes hpass _ _ _)

variable {k : Nat} (hk : k = s.get F.Sag.PARAM_STATUS_STEP pgSag)
include hk

theorem execParamCommit_busy (h3 : k = 3) : exec (.paramCommit owner) s = .next s := by
  rw [execParamCommit_passes hpass]
  refine congrArg Host.Outcome.next ((if_neg ?_).trans (if_pos (hk ▸ h3)))
  rintro ⟨h2, -⟩
  omega

theorem execParamCommit_outOfStep (h3 : k ≠ 3) (h : k ≠ 2 ∨ s.sag.keyAt + 100000 < s.now) :
    exec (.paramCommit owner) s = .next (paramReject 1 s) := by
  rw [execParamCommit_passes hpass]
  refine congrArg Host.Outcome.next ((if_neg ?_).trans (if_neg (hk ▸ h3)))
  rintro ⟨h2, htime⟩
  omega

theorem execParamCommit_judged (h : ¬ (k ≠ 2 ∨ s.sag.keyAt + 100000 < s.now)) :
    exec (.paramCommit owner) s = .next (paramJudge s) := by
  rw [execParamCommit_passes hpass]
  exact congrArg Host.Outcome.next (if_pos (by omega))

end

end

/-! ### The obligation -/

/-- Settles O47: requests, keys and the commit are each one of few states, and what a rejection leaves is said once. That requests
wait for the next cycle, and the key sequence as commands, are the model's choice (log 97). -/
theorem saggerRequestsAndParameters : Obligations.SaggerRequestsAndParameters := by
  refine fun s k hk => ⟨fun i f hi => ?request, fun lowUs => execResetButtonRelease_ignored, fun lowUs => execResetButtonRelease_kept,
    fun value owner v hpass hv => ⟨_, execParamKeyWrite_passes hpass value, ?key⟩, execParamKeyTimeout_not hk,
    fun hlate h => ⟨_, execParamKeyTimeout_late hlate, keyBreak_rejects hk h⟩, fun owner r w hpass hw hr => ?commit⟩
  case request =>
    obtain ⟨start, stop, reset, hexec, hf⟩ := IsSagRequest.exec_eq hi
    exact ⟨_, hexec, sagCmd_spec start stop reset s k f hk hf⟩
  case key =>
    obtain ⟨hfirst, hother, hsecond, hbreak⟩ := paramKey_spec value s k v hk hv
    refine ⟨hfirst, hother, hsecond, fun h => ?_, fun h => ?_⟩
    · rw [hbreak (by omega) (by omega)]
      obtain ⟨hstep, hreason, hsag, -⟩ := keyBreak_rejects hk (by omega)
      exact ⟨hstep, hreason, hsag⟩
    · rw [hbreak (by omega) (by omega), keyBreak_stands hk (by omega) (by omega)]
  case commit =>
    subst hw
    refine ⟨execParamCommit_busy hpass hk, ?_⟩
    by_cases hstep : k ≠ 2 ∨ s.sag.keyAt + 100000 < s.now
    · rw [if_pos hstep] at hr
      subst hr
      exact ⟨fun h3 _ => ⟨_, execParamCommit_outOfStep hpass hk h3 hstep, paramReject_spec 1 (by decide) s⟩, nofun⟩
    · rw [if_neg hstep] at hr
      have hreason : r = s.judgeReason s.staged := hr
      rw [execParamCommit_judged hpass hk hstep, paramJudge_eq, ← hreason]
      refine ⟨fun _ hne => ⟨_, congrArg Host.Outcome.next (if_neg hne), paramReject_spec r ?_ s⟩,
        fun hzero => congrArg Host.Outcome.next (if_pos hzero)⟩
      have := judgeReason_lt (s := s) s.staged
      omega

end Sys2Proof.Machine
end

section
/-! The Sagger: power, self-test, cycle, ADC round, comparators and channel watchdog. -/

-- One declaration after another, as in the files before: the text is also checked in one piece.
set_option Elab.async false

namespace Sys2Proof.Machine

/-! ### Power and self-test -/

section
variable {s : State}

theorem execSaggerPowerOn_not (h : s.sag.up ≠ 0) : exec .saggerPowerOn s = .next s := congrArg Host.Outcome.next (if_neg h)

theorem execSaggerPowerOn_begins (h : s.sag.up = 0) :
    exec .saggerPowerOn s = .next ((s.updSag (fun _ => { up := 1 })).set F.Hdr.READY pgSag 0) := congrArg Host.Outcome.next (if_pos h)

end

/-- The fields that show the Sagger at their reset values (R515). -/
def shownReset (s : State) : State :=
  (forAll sagShown (breakLocks 9 s) (fun f s => forAll (List.range f.cnt) s (fun i s => s.setI f pgSag i (f.rst pgSag i)))).updSag
    (fun _ => { up := 0 })

theorem execVddSagOutOfRange_eq (s : State) : exec .vddSagOutOfRange s = .next (sagLatch (shownReset s)) := rfl

/-- A field of the host view after a supply out of range (R515). -/
theorem shownReset_get {f : Fld} (hf : f ∈ [F.Sag.SAG_STATE_STATE, F.Sag.CAUSE, F.Sag.CHANNELS_OK, F.Sag.OPERATE, F.Sag.DRIVE_EN,
    F.Sag.CURE_EN, F.Sag.SAFE_STATE, F.Sag.PRESS_STOP_REQ]) (s : State) :
    (sagLatch (shownReset s)).get f pgSag = low f.w (f.rst pgSag 0) := by
  obtain ⟨hshown, hcount, hkeys⟩ := sagShown_keys f hf
  have hplace : ∀ f ∈ [F.Sag.SAG_STATE_STATE, F.Sag.CAUSE, F.Sag.CHANNELS_OK, F.Sag.OPERATE, F.Sag.DRIVE_EN, F.Sag.CURE_EN,
      F.Sag.SAFE_STATE, F.Sag.PRESS_STOP_REQ], f.off + 0 * f.stride < 4096 ∧ f.lo < 32 := by decide
  rw [(sagLatch_mid (SagMid.refl [] (shownReset s))).get f (hplace f hf).1 (hplace f hf).2 List.not_mem_nil, shownReset,
    get_of_regs (State.updSag_regs _ _)]
  exact sagShown_reset f hshown hcount hkeys (breakLocks 9 s)

/-- The channels in service as the self-test ends. -/
def channelsBack (s : State) : State := (s.updSag (fun x => { x with up := 2 })).set F.Sag.CHANNELS_OK pgSag 7

/-- The state that the self-test ends in (R524, R536). -/
def selftested (passed : Bool) (s : State) : State :=
  if !passed then setSagState 1 1 (channelsBack s)
  else match s.sagRecord with
    | some w => setSagState 2 (s.get F.Sag.CAUSE pgSag) (takeParams w (channelsBack s))
    | none => setSagState 1 4 (channelsBack s)

/-- READY outside Dormant (R538). -/
def sagReady (s : State) : State := if s.modeNow = 0 ∨ s.mode.porst then s else s.set F.Hdr.READY pgSag 1

theorem channelsBack_cause (s : State) : (channelsBack s).get F.Sag.CAUSE pgSag = s.get F.Sag.CAUSE pgSag := State.get_set_off _ (by decide)

theorem execSelftestEnd_not {s : State} (h : s.sag.up ≠ 1) (passed : Bool) : exec (.selftestEnd passed) s = .next s :=
  congrArg Host.Outcome.next (if_neg h)

theorem execSelftestEnd_ends {s : State} (h : s.sag.up = 1) (passed : Bool) :
    exec (.selftestEnd passed) s = .next (sagLatch (sagReady (sagOutputs (selftested passed s)))) := by
  refine congrArg Host.Outcome.next ((if_pos h).trans ?_)
  have hrecord : (channelsBack s).sagRecord = s.sagRecord := rfl
  change sagLatch (sagReady (sagOutputs (if !passed then setSagState 1 1 (channelsBack s)
    else match (channelsBack s).sagRecord with
      | some w => setSagState 2 ((channelsBack s).get F.Sag.CAUSE pgSag) (takeParams w (channelsBack s))
      | none => setSagState 1 4 (channelsBack s)))) = _
  rw [hrecord, channelsBack_cause]
  rfl

/-- What the outputs and READY write after the self-test. -/
def selftestKeys : List Nat := 128 :: sagOutKeys

theorem sagReady_mid {s t : State} (h : SagMid selftestKeys s t) : SagMid selftestKeys s (sagReady t) := by
  unfold sagReady
  split
  · exact h
  · exact h.set _ _ (by decide)

theorem selftestEnd_mid (u : State) : SagMid selftestKeys u (sagLatch (sagReady (sagOutputs u))) :=
  sagLatch_mid (sagReady_mid (sagOutputs_mid (.refl _ u) (by decide)))

theorem selftestEnd_ready {s u : State} (hmode : ModeSame s u) (h1 : s.modeNow ≠ 0) (h2 : s.mode.porst = false) :
    (sagLatch (sagReady (sagOutputs u))).get F.Hdr.READY pgSag = 1 := by
  obtain ⟨hnow, hporst⟩ := hmode.outputs
  have hready : sagReady (sagOutputs u) = (sagOutputs u).set F.Hdr.READY pgSag 1 := by
    refine if_neg ?_
    rw [hnow, hporst, h2]
    simpa using h1
  rw [hready, (sagLatch_mid (SagMid.refl [] _)).get _ (by decide) (by decide) List.not_mem_nil, State.get_set_self]
  rfl

theorem channelsBack_mode (s : State) : ModeSame s (channelsBack s) :=
  ModeSame.page (t := s.updSag (fun x => { x with up := 2 })) ⟨rfl, rfl⟩ _ _ (by decide) (by decide)

/-- The self-test's end brings three channels into service and writes state and cause (R524, R536). -/
theorem setSagState_back {u s : State} (n c : Nat) (hsag : u.sag = (channelsBack s).sag)
    (hchannels : u.get F.Sag.CHANNELS_OK pgSag = (channelsBack s).get F.Sag.CHANNELS_OK pgSag) (hmode : ModeSame s u) :
    (setSagState n c u).sag.up = 2 ∧ (setSagState n c u).get F.Sag.CHANNELS_OK pgSag = 7 ∧ ModeSame s (setSagState n c u) := by
  refine ⟨?_, ?_, hmode.sagState n c⟩
  · rw [setSagState_sag, hsag]
    rfl
  · rw [(setSagState_mid (.refl [2064, 2072, 2048, 512] u) n c (fun _ h => h)).get _ (by decide) (by decide) (by decide), hchannels]
    exact State.get_set_self _ _ _ _

theorem selftested_cases (passed : Bool) (s : State) : (passed = false → selftested passed s = setSagState 1 1 (channelsBack s)) ∧
    (passed = true → s.sagRecord = none → selftested passed s = setSagState 1 4 (channelsBack s)) ∧
    (∀ w, passed = true → s.sagRecord = some w →
      selftested passed s = setSagState 2 (s.get F.Sag.CAUSE pgSag) (takeParams w (channelsBack s))) := by
  refine ⟨?_, ?_, ?_⟩
  · rintro rfl
    rfl
  · rintro rfl h
    unfold selftested
    rw [h]
    rfl
  · rintro w rfl h
    unfold selftested
    rw [h]
    rfl

theorem selftested_back (passed : Bool) (s : State) : (selftested passed s).sag.up = 2 ∧
    (selftested passed s).get F.Sag.CHANNELS_OK pgSag = 7 ∧ ModeSame s (selftested passed s) := by
  obtain ⟨hfailed, hnone, hsome⟩ := selftested_cases passed s
  cases passed with
  | false =>
    rw [hfailed rfl]
    exact setSagState_back _ _ rfl rfl (channelsBack_mode s)
  | true =>
    cases hrecord : s.sagRecord with
    | none =>
      rw [hnone rfl hrecord]
      exact setSagState_back _ _ rfl rfl (channelsBack_mode s)
    | some w =>
      obtain ⟨-, -, -, -, hchannels, hsag, hnow, hporst⟩ := takeParams_spec w (channelsBack s)
      obtain ⟨hnow', hporst'⟩ := channelsBack_mode s
      rw [hsome w rfl hrecord]
      exact setSagState_back _ _ hsag hchannels ⟨hnow.trans hnow', hporst.trans hporst'⟩

/-- The record of the retained store taken as the self-test ends (R536). -/
theorem selftested_record (w : Nat → Nat) (s : State) {t : State}
    (ht : t = setSagState 2 (s.get F.Sag.CAUSE pgSag) (takeParams w (channelsBack s))) :
    t.sagState = 2 ∧ t.get F.Sag.CAUSE pgSag = low 8 (s.get F.Sag.CAUSE pgSag) ∧ t.get F.Sag.PARAMS_VALID pgSag = 1 ∧
    t.get F.Sag.ACTIVE_CRC pgSag = low 32 (w 63) ∧ ∀ i < 64, t.sagParam i = low 32 (w i) := by
  obtain ⟨hvalid, hcrc, hparams, -⟩ := takeParams_spec w (channelsBack s)
  obtain ⟨hstate, hcause, -⟩ := setSagState_spec 2 (s.get F.Sag.CAUSE pgSag) (takeParams w (channelsBack s))
  have hmid := setSagState_mid (.refl [2064, 2072, 2048, 512] (takeParams w (channelsBack s))) 2 (s.get F.Sag.CAUSE pgSag) (fun _ h => h)
  rw [← ht] at hstate hcause hmid
  have hplace : ∀ i < 64, F.Sag.PARAM_ACTIVE.off + i * F.Sag.PARAM_ACTIVE.stride < 4096 ∧
      (F.Sag.PARAM_ACTIVE.off + i * F.Sag.PARAM_ACTIVE.stride) * 32 + F.Sag.PARAM_ACTIVE.lo ∉ [2064, 2072, 2048, 512] := by decide
  refine ⟨hstate, hcause, ?_, ?_, fun i hi => ?_⟩
  · rw [hmid.get _ (by decide) (by decide) (by decide), hvalid]
  · rw [hmid.get _ (by decide) (by decide) (by decide), hcrc]
  · exact (hmid.1 F.Sag.PARAM_ACTIVE i (hplace i hi).1 (by decide) (hplace i hi).2).trans (hparams i hi)

/-! ### The cycle -/

/-- The sample of a channel. -/
def sampleOf (chans : List SagSample) (i : Nat) : SagSample := chans.getD i ⟨[], 0, 0, 0⟩

/-- The contacts that the channels in service do not vote closed (R517). -/
def contactVote (g : Nat → Nat) (s : State) : Nat :=
  (List.range 4).foldl (fun a j => a + bit (!s.voted (fun i => !bitAt (g i) j)) * 2 ^ j) 0

/-- The samples compared and the cycle's findings taken. -/
def cycleJudged (chans : List SagSample) (readback : List Nat) (found : List (Nat × Nat)) (s : State) : State :=
  sagReadback readback (forAll found (crossCompare (fun i => ((sampleOf chans i).opened, (sampleOf chans i).failed s)) s)
    (fun f => sagFinding f.1 f.2))

/-- The voted contacts shown. -/
def contactsShown (opened senc : Nat) (resetN : Bool) (ov : Nat) (s : State) : State :=
  ((s.set F.Sag.CONTACTS pgSag (15 - opened + senc % 4 * 16)).set F.Sag.RESET_N pgSag (bit resetN)).updSag
    (fun x => { x with openNow := opened, ovHigh := low 12 ov })

/-- The pairs of SF4, the safe encoder and the replicas judged. -/
def contactsJudged (chans : List SagSample) (opened failed : Nat) (s : State) : State :=
  let t := sagPair 1 opened failed (sagPair 0 opened failed s)
  sagReplica (sagSpeed (t.sagChannels.map (fun i => (sampleOf chans i).enc)) (t.voted (fun i => decide ((sampleOf chans i).both ≤ 16))) t)

/-- The cycle up to the requests. -/
def cycleBefore (chans : List SagSample) (senc : Nat) (resetN : Bool) (ov : Nat) (readback : List Nat) (found : List (Nat × Nat))
    (s : State) : State :=
  let t := cycleJudged chans readback found s
  contactsJudged chans (contactVote (fun i => (sampleOf chans i).opened) t) (contactVote (fun i => (sampleOf chans i).failed s) t)
    (contactsShown (contactVote (fun i => (sampleOf chans i).opened) t) senc resetN ov t)

section
variable {s : State} {chans : List SagSample} {senc ov : Nat} {resetN : Bool} {readback : List Nat} {found : List (Nat × Nat)}

theorem execSaggerCycle_not (h : s.sag.up ≠ 2 ∨ chans.length ≠ 3) :
    exec (.saggerCycle chans senc resetN ov readback found) s = .next s := by
  refine congrArg Host.Outcome.next (if_neg ?_)
  rintro ⟨hup, hlength⟩
  exact h.elim (fun h => h hup) (fun h => h hlength)

theorem execSaggerCycle_runs (hup : s.sag.up = 2) (hlength : chans.length = 3) :
    exec (.saggerCycle chans senc resetN ov readback found) s =
      .next (sagOutputs (sagRequests (cycleBefore chans senc resetN ov readback found s))) :=
  congrArg Host.Outcome.next (if_pos ⟨hup, hlength⟩)

theorem contactsJudged_mid (chans : List SagSample) (opened failed : Nat) (s : State) :
    SagMid sagCycKeys s (contactsJudged chans opened failed s) :=
  sagReplica_mid (sagSpeed_mid (sagPair_mid (sagPair_mid (.refl _ s) 0 opened failed) 1 opened failed) _ _ (by decide))

theorem contactsShown_resetN (opened senc ov : Nat) (resetN : Bool) (s : State) :
    (contactsShown opened senc resetN ov s).get F.Sag.RESET_N pgSag = bit resetN := by
  refine (State.get_set_self (s.set F.Sag.CONTACTS pgSag (15 - opened + senc % 4 * 16)) F.Sag.RESET_N pgSag (bit resetN)).trans ?_
  cases resetN <;> rfl

theorem cycleBefore_resetN : (cycleBefore chans senc resetN ov readback found s).get F.Sag.RESET_N pgSag = bit resetN := by
  unfold cycleBefore
  rw [(contactsJudged_mid _ _ _ _).get _ (by decide) (by decide) (by decide)]
  exact contactsShown_resetN _ _ _ _ _

/-- The requests that wait stand until they are served. -/
theorem cycleBefore_stop : (cycleBefore chans senc resetN ov readback found s).sag.stop = s.sag.stop ∧
    (cycleBefore chans senc resetN ov readback found s).sag.start = s.sag.start ∧
    (cycleBefore chans senc resetN ov readback found s).sag.reset = s.sag.reset := by
  have hjudged : SagMid [2056, 3712, 2064, 2072, 2048, 512] s (cycleJudged chans readback found s) :=
    sagReadback_mid (SagMid.forAll found _ _ (crossCompare_mid (.refl _ s) _ (fun _ h => h))
      (fun f _ u hu => sagFinding_mid hu f.1 f.2 (fun _ h => h))) readback (fun _ h => h)
  obtain ⟨-, hstart, hstop, hreset, -⟩ := hjudged
  obtain ⟨-, hstart', hstop', hreset', -⟩ := contactsJudged_mid chans
    (contactVote (fun i => (sampleOf chans i).opened) (cycleJudged chans readback found s))
    (contactVote (fun i => (sampleOf chans i).failed s) (cycleJudged chans readback found s))
    (contactsShown (contactVote (fun i => (sampleOf chans i).opened) (cycleJudged chans readback found s)) senc resetN ov
      (cycleJudged chans readback found s))
  exact ⟨hstop'.trans hstop, hstart'.trans hstart, hreset'.trans hreset⟩

end

/-- Channels that all see a contact closed vote it closed. -/
theorem contactVote_closed {g : Nat → Nat} (h : ∀ i < 3, g i = 0) {s : State} (hs : 2 ≤ s.sagChannels.length) : contactVote g s = 0 := by
  have hvoted (j : Nat) : s.voted (fun i => !bitAt (g i) j) = true := by
    have hall : s.sagChannels.filter (fun i => !bitAt (g i) j) = s.sagChannels := by
      refine List.filter_eq_self.mpr fun i hi => ?_
      rw [h i (List.mem_range.mp (List.mem_filter.mp hi).1)]
      simp [bitAt]
    unfold State.voted
    rw [hall, decide_eq_true hs]
  unfold contactVote
  simp only [hvoted]
  decide

theorem sagReplica_none {t : State} (h : t.sag.disagree = 0) : sagReplica t = t := if_pos h

/-- What a quiet cycle writes before its requests. -/
def quietKeys : List Nat := [2560, 2568, 2448, 2436, 2432, 512]

theorem contactsShown_mid (opened senc ov : Nat) (resetN : Bool) (s : State) :
    SagMid quietKeys s (contactsShown opened senc resetN ov s) :=
  SagMid.upd (((SagMid.refl quietKeys s).set F.Sag.CONTACTS _ (by decide)).set F.Sag.RESET_N _ (by decide)) _
    fun _ => ⟨rfl, rfl, rfl, rfl⟩

section
variable {s : State} {chans : List SagSample} (hlength : chans.length = 3) (hquiet : ∀ c ∈ chans, c.opened = 0 ∧ c.failed s = 0)
include hlength hquiet

theorem sampleOf_quiet {i : Nat} (hi : i < 3) : (sampleOf chans i).opened = 0 ∧ (sampleOf chans i).failed s = 0 := by
  have hlt : i < chans.length := by omega
  unfold sampleOf
  rw [List.getD_eq_getElem _ _ hlt]
  exact hquiet _ (List.getElem_mem hlt)

/-- Nothing is found in a quiet cycle. -/
theorem cycleJudged_quiet : ∃ d, cycleJudged chans [] [] s = s.updSag (fun x => { x with differ := d, readBad := [] }) := by
  obtain ⟨d, hd⟩ := crossCompare_quiet (fun i => ((sampleOf chans i).opened, (sampleOf chans i).failed s))
    (fun i hi => Prod.ext (sampleOf_quiet hlength hquiet hi).1 (sampleOf_quiet hlength hquiet hi).2) s
  exact ⟨d, by unfold cycleJudged; rw [hd, forAll_nil]; rfl⟩

theorem cycleBefore_quiet (hchannels : 2 ≤ s.sagChannels.length) (hreplica : s.sag.disagree = 0) (senc ov : Nat) (resetN : Bool) :
    SagMid quietKeys s (cycleBefore chans senc resetN ov [] [] s) ∧
    (cycleBefore chans senc resetN ov [] [] s).get F.Sag.CONTACTS pgSag = 15 + senc % 4 * 16 ∧
    (cycleBefore chans senc resetN ov [] [] s).sag.openNow = 0 := by
  obtain ⟨d, hd⟩ := cycleJudged_quiet hlength hquiet
  have hopened : contactVote (fun i => (sampleOf chans i).opened) (cycleJudged chans [] [] s) = 0 :=
    contactVote_closed (fun i hi => (sampleOf_quiet hlength hquiet hi).1) (by rw [hd]; exact hchannels)
  have hfailed : contactVote (fun i => (sampleOf chans i).failed s) (cycleJudged chans [] [] s) = 0 :=
    contactVote_closed (fun i hi => (sampleOf_quiet hlength hquiet hi).2) (by rw [hd]; exact hchannels)
  obtain ⟨u, hu⟩ : ∃ u, u = contactsShown 0 senc resetN ov (cycleJudged chans [] [] s) := ⟨_, rfl⟩
  obtain ⟨p, hp⟩ := sagPair_quiet 0 u
  obtain ⟨q, hq⟩ := sagPair_quiet 1 (u.updSag (fun x => { x with present := p }))
  obtain ⟨z, hz⟩ : ∃ z, z = (u.updSag (fun x => { x with present := p })).updSag (fun x => { x with present := q }) := ⟨_, rfl⟩
  obtain ⟨t, ht⟩ : ∃ t, t = sagSpeed (z.sagChannels.map (fun i => (sampleOf chans i).enc))
    (z.voted (fun i => decide ((sampleOf chans i).both ≤ 16))) z := ⟨_, rfl⟩
  have htsag : t.sag = z.sag := by rw [ht, sagSpeed_sag]
  have hbefore : cycleBefore chans senc resetN ov [] [] s = t := by
    unfold cycleBefore contactsJudged
    dsimp only
    rw [hopened, hfailed, ← hu, hp, hq, ← hz, ← ht]
    refine sagReplica_none ?_
    rw [htsag, hz, hu, hd]
    exact hreplica
  have hmid : SagMid [2448, 2436, 2432, 512] z t := by
    rw [ht]
    exact sagSpeed_mid (.refl _ z) _ _ (fun _ h => h)
  have hzmid : SagMid quietKeys s z := by
    rw [hz, hu, hd]
    refine SagMid.upd (SagMid.upd (SagMid.trans ?_ (contactsShown_mid _ _ _ _ _)) _ fun _ => ⟨rfl, rfl, rfl, rfl⟩) _ fun _ => ⟨rfl, rfl, rfl, rfl⟩
    exact SagMid.upd (.refl _ s) _ fun _ => ⟨rfl, rfl, rfl, rfl⟩
  rw [hbefore]
  refine ⟨hzmid.trans (hmid.mono (by decide)), ?_, ?_⟩
  · rw [hmid.get _ (by decide) (by decide) (by decide), hz, get_of_regs (State.updSag_regs _ _), get_of_regs (State.updSag_regs _ _), hu,
      contactsShown, get_of_regs (State.updSag_regs _ _), State.get_set_off _ (by decide), State.get_set_self]
    refine low_of_lt ?_
    change 15 - 0 + senc % 4 * 16 < 64
    omega
  · rw [htsag, hz, hu]
    rfl

end

/-- The outputs do not change the Sagger's state. -/
theorem sagOutputs_state (s : State) : (sagOutputs s).sagState = s.sagState := sagState_of (sagOutputs_out s) (by decide)

/-- The requests are served and gone (R522, R523). -/
theorem requestsServed (t : State) : (sagOutputs (sagRequests t)).sag.start = false ∧ (sagOutputs (sagRequests t)).sag.stop = false ∧
    (sagOutputs (sagRequests t)).sag.reset = none ∧ (sagOutputs (sagRequests t)).sag.openNow = t.sag.openNow := by
  obtain ⟨⟨-, hstart, hstop, hreset, -⟩, hopen⟩ := sagRequests_mid t
  rw [sagOutputs_sag]
  exact ⟨hstart, hstop, hreset, hopen⟩

/-- A field that neither the requests nor the outputs write. -/
theorem requests_get (t : State) {f : Fld} (hf : f.off + 0 * f.stride < 4096) (hl : f.lo < 32)
    (hreq : (f.off + 0 * f.stride) * 32 + f.lo ∉ sagReqKeys) (hout : (f.off + 0 * f.stride) * 32 + f.lo ∉ sagOutKeys) :
    (sagOutputs (sagRequests t)).get f pgSag = t.get f pgSag :=
  ((sagOutputs_out _).get f hf hl hout).trans ((sagRequests_mid t).1.get f hf hl hreq)

/-! ### The ADC round -/

/-- The references of a round lie in their windows (R526). -/
def refsGood (r3 r12 : Nat) : Prop := natDist r3 819 ≤ 16 ∧ natDist r12 3276 ≤ 16

section
variable {s : State} {codes : List Nat} {r3 r12 : Nat}

theorem execSaggerAdcRound_not (h : s.sag.up ≠ 2 ∨ codes.length ≠ 16) : exec (.saggerAdcRound codes r3 r12) s = .next s :=
  congrArg Host.Outcome.next (if_pos h)

/-- A round with bad references counts (R526). -/
def roundFailed (s : State) : State := sagDiag 8 0 (s.updSag (fun x => { x with adcBad := true }))

theorem roundFailed_facts (s : State) : (roundFailed s).sag.adcBad = true ∧ (roundFailed s).sag.tempBad = s.sag.tempBad ∧
    (roundFailed s).get F.Sag.DIAG_FAULTS pgSag = low 32 (min (s.get F.Sag.DIAG_FAULTS pgSag + 1) (2 ^ 32 - 1)) ∧
    (roundFailed s).sagState = s.sagState := by
  unfold roundFailed
  refine ⟨by rw [sagDiag_sag]; rfl, by rw [sagDiag_sag]; rfl, ?_, ?_⟩
  · unfold sagDiag
    rw [((SagMid.refl [512] _).raise _ _ (by decide)).get _ (by decide) (by decide) (by decide), sat_self]
    rfl
  · exact sagState_of (sagDiag_mid (.refl [3712, 512] _) 8 0 (fun _ h => h)) (by decide)

variable (hup : s.sag.up = 2) (hlength : codes.length = 16)
include hup hlength

theorem execSaggerAdcRound_bad (h : 16 < natDist r3 819 ∨ 16 < natDist r12 3276) : exec (.saggerAdcRound codes r3 r12) s =
    .next (if s.sag.adcBad then sagOutputs (enterSafe 6 (roundFailed s)) else roundFailed s) :=
  congrArg Host.Outcome.next ((if_neg (by simp [hup, hlength])).trans (if_pos h))

/-- The codes of a round shown (R526). -/
def codesShown (codes : List Nat) (s : State) : State :=
  forAll (List.range 8) s (fun j s =>
    (s.setI F.Sag.TEMP_CODE_EVEN pgSag j (codes.getD (2 * j) 0)).setI F.Sag.TEMP_CODE_ODD pgSag j (codes.getD (2 * j + 1) 0))

/-- The actions of a round latched (R526). -/
def actionsLatched (act : Nat) (s : State) : State :=
  latchTrip F.Sag.STOP_TEMP_TRIP (bits act 14 1) 1
    (latchTrip F.Sag.CURE_TEMP_TRIP (bits act 12 2) 1 (latchTrip F.Sag.DRIVE_TEMP_TRIP (act % 4096) 1 s))

/-- The inputs of a round that lie beyond their limits (R526). -/
def State.hotInputs (s : State) (codes : List Nat) : List Nat := (List.range 16).filter (fun i => s.sagHot i (low 12 (codes.getD i 0)))

/-- The actions of the inputs that have been beyond their limits twice (R526). -/
def State.hotActions (s : State) (hot : List Nat) : Nat := (hot.filter (bitAt s.sag.tempBad)).foldl (fun a i => a ||| s.sagAction i) 0

/-- A good round's codes taken. -/
def roundTaken (codes hot : List Nat) (s : State) : State :=
  (codesShown codes s).updSag (fun x => { x with adcBad := false, tempBad := hot.foldl setBit 0 })

theorem execSaggerAdcRound_good (h3 : natDist r3 819 ≤ 16) (h12 : natDist r12 3276 ≤ 16) : exec (.saggerAdcRound codes r3 r12) s =
    .next (sagOutputs (actionsLatched (s.hotActions (s.hotInputs codes)) (roundTaken codes (s.hotInputs codes) s))) :=
  congrArg Host.Outcome.next ((if_neg (by simp [hup, hlength])).trans (if_neg (by omega)))

end

/-- The codes of one pair of inputs stand where they are shown. -/
theorem codesShown_code (codes : List Nat) (s : State) {j : Nat} (hj : j < 8) :
    (codesShown codes s).getI F.Sag.TEMP_CODE_EVEN pgSag j = low 12 (codes.getD (2 * j) 0) ∧
    (codesShown codes s).getI F.Sag.TEMP_CODE_ODD pgSag j = low 12 (codes.getD (2 * j + 1) 0) := by
  have heven (i : Nat) : (F.Sag.TEMP_CODE_EVEN.off + i * F.Sag.TEMP_CODE_EVEN.stride) * 32 + F.Sag.TEMP_CODE_EVEN.lo = (0x54 + i * 4) * 32 + 0 := rfl
  have hodd (i : Nat) : (F.Sag.TEMP_CODE_ODD.off + i * F.Sag.TEMP_CODE_ODD.stride) * 32 + F.Sag.TEMP_CODE_ODD.lo = (0x54 + i * 4) * 32 + 16 := rfl
  unfold codesShown
  refine forAll_est (List.range 8) s _ (fun u => u.getI F.Sag.TEMP_CODE_EVEN pgSag j = low 12 (codes.getD (2 * j) 0) ∧
    u.getI F.Sag.TEMP_CODE_ODD pgSag j = low 12 (codes.getD (2 * j + 1) 0)) j (List.mem_range.mpr hj) (fun u => ⟨?_, ?_⟩)
    fun i _ u hu => ?_
  · rw [State.getI_setI_off _ (by rw [heven, hodd]; omega)]
    exact State.getI_setI_self _ _ _ _ _
  · exact State.getI_setI_self _ _ _ _ _
  · by_cases hi : i = j
    · subst hi
      exact ⟨(State.getI_setI_off _ (by rw [heven, hodd]; omega)).trans (State.getI_setI_self _ _ _ _ _), State.getI_setI_self _ _ _ _ _⟩
    · obtain ⟨h1, h2⟩ := hu
      constructor
      · rw [State.getI_setI_off _ (by rw [heven, hodd]; omega), State.getI_setI_off _ (by rw [heven, heven]; omega), h1]
      · rw [State.getI_setI_off _ (by rw [hodd, hodd]; omega), State.getI_setI_off _ (by rw [heven, hodd]; omega), h2]

/-- What the latched actions write. -/
def actionKeys : List Nat := [2304, 2332, 2319, 3840, 512]

theorem actionsLatched_mid (act : Nat) (s : State) : SagMid actionKeys s (actionsLatched act s) :=
  latchTrip_mid (latchTrip_mid (latchTrip_mid (.refl _ s) _ _ _ (by decide) (by decide)) _ _ _ (by decide) (by decide)) _ _ _
    (by decide) (by decide)

theorem actionsLatched_sag (act : Nat) (s : State) : (actionsLatched act s).sag = s.sag := by
  unfold actionsLatched
  rw [latchTrip_sag, latchTrip_sag, latchTrip_sag]

/-- The bits of an action latch in the trip field that they name (R526). -/
theorem actionsLatched_trips (act : Nat) (s : State) :
    (∀ c < 12, bitAt act c = true → bitAt ((actionsLatched act s).get F.Sag.DRIVE_TEMP_TRIP pgSag) c = true) ∧
    (∀ k < 2, bitAt act (12 + k) = true → bitAt ((actionsLatched act s).get F.Sag.CURE_TEMP_TRIP pgSag) k = true) ∧
    (bitAt act 14 = true → bitAt ((actionsLatched act s).get F.Sag.STOP_TEMP_TRIP pgSag) 0 = true) := by
  obtain ⟨t, ht⟩ : ∃ t, t = latchTrip F.Sag.DRIVE_TEMP_TRIP (act % 4096) 1 s := ⟨_, rfl⟩
  obtain ⟨u, hu⟩ : ∃ u, u = latchTrip F.Sag.CURE_TEMP_TRIP (bits act 12 2) 1 t := ⟨_, rfl⟩
  have htu : SagMid [2332, 3840, 512] t u := by
    rw [hu]
    exact latchTrip_mid (.refl _ t) _ _ _ (by decide) (by decide)
  have hlast : SagMid [2319, 3840, 512] u (actionsLatched act s) := by
    unfold actionsLatched
    rw [← ht, ← hu]
    exact latchTrip_mid (.refl _ u) _ _ _ (by decide) (by decide)
  refine ⟨fun c hc hbit => ?_, fun k hk hbit => ?_, fun hbit => ?_⟩
  · rw [hlast.get _ (by decide) (by decide) (by decide), htu.get _ (by decide) (by decide) (by decide), ht]
    exact latchTrip_bit _ _ _ c s hc hc (by decide) (by decide) (by decide) ((bitAt_low (w := 12) hc).trans hbit)
  · rw [hlast.get _ (by decide) (by decide) (by decide), hu]
    exact latchTrip_bit _ _ _ k t (by omega) hk (by decide) (by decide) (by decide) ((bitAt_bits act 12 2 k hk).trans hbit)
  · unfold actionsLatched
    rw [← ht, ← hu]
    exact latchTrip_bit _ _ _ 0 u (by decide) (by decide) (by decide) (by decide) (by decide) ((bitAt_bits act 14 1 0 (by decide)).trans hbit)

theorem updSag_getI (s : State) (f : SagX → SagX) (g : Fld) (pg i : Nat) : (s.updSag f).getI g pg i = s.getI g pg i := rfl

/-- What a good round leaves (R526). -/
theorem goodRound_facts (act : Nat) (codes hot : List Nat) (s : State) {t : State}
    (ht : t = sagOutputs (actionsLatched act (roundTaken codes hot s))) :
    t.sag.adcBad = false ∧ t.sag.tempBad = hot.foldl setBit 0 ∧
    (∀ j < 8, t.getI F.Sag.TEMP_CODE_EVEN pgSag j = low 12 (codes.getD (2 * j) 0) ∧
      t.getI F.Sag.TEMP_CODE_ODD pgSag j = low 12 (codes.getD (2 * j + 1) 0)) ∧
    (∀ c < 12, bitAt act c = true → bitAt (t.get F.Sag.DRIVE_TEMP_TRIP pgSag) c = true) ∧
    (∀ k < 2, bitAt act (12 + k) = true → bitAt (t.get F.Sag.CURE_TEMP_TRIP pgSag) k = true) ∧
    (bitAt act 14 = true → bitAt (t.get F.Sag.STOP_TEMP_TRIP pgSag) 0 = true) := by
  have hsag : t.sag = (roundTaken codes hot s).sag := by rw [ht, sagOutputs_sag, actionsLatched_sag]
  have hout : SagMid sagOutKeys (actionsLatched act (roundTaken codes hot s)) t := ht ▸ sagOutputs_out _
  have hall : SagMid (actionKeys ++ sagOutKeys) (roundTaken codes hot s) t :=
    ((actionsLatched_mid act _).mono fun _ h => List.mem_append_left _ h).trans (hout.mono fun _ h => List.mem_append_right _ h)
  have heven : ∀ j < 8, F.Sag.TEMP_CODE_EVEN.off + j * F.Sag.TEMP_CODE_EVEN.stride < 4096 ∧
      (F.Sag.TEMP_CODE_EVEN.off + j * F.Sag.TEMP_CODE_EVEN.stride) * 32 + F.Sag.TEMP_CODE_EVEN.lo ∉ actionKeys ++ sagOutKeys := by decide
  have hodd : ∀ j < 8, F.Sag.TEMP_CODE_ODD.off + j * F.Sag.TEMP_CODE_ODD.stride < 4096 ∧
      (F.Sag.TEMP_CODE_ODD.off + j * F.Sag.TEMP_CODE_ODD.stride) * 32 + F.Sag.TEMP_CODE_ODD.lo ∉ actionKeys ++ sagOutKeys := by decide
  obtain ⟨hdrive, hcure, hstop⟩ := actionsLatched_trips act (roundTaken codes hot s)
  refine ⟨by rw [hsag]; rfl, by rw [hsag]; rfl, fun j hj => ⟨?_, ?_⟩, fun c hc hbit => ?_, fun k hk hbit => ?_, fun hbit => ?_⟩
  · rw [hall.1 F.Sag.TEMP_CODE_EVEN j (heven j hj).1 (by decide) (heven j hj).2, roundTaken, updSag_getI, (codesShown_code codes s hj).1]
  · rw [hall.1 F.Sag.TEMP_CODE_ODD j (hodd j hj).1 (by decide) (hodd j hj).2, roundTaken, updSag_getI, (codesShown_code codes s hj).2]
  · rw [hout.get _ (by decide) (by decide) (by decide)]
    exact hdrive c hc hbit
  · rw [hout.get _ (by decide) (by decide) (by decide)]
    exact hcure k hk hbit
  · rw [hout.get _ (by decide) (by decide) (by decide)]
    exact hstop hbit

/-! ### Comparators and the channel watchdog -/

/-- A comparator of a cluster has latched (R528). -/
def comparatorLatched (c : Nat) (b : Bool) (s : State) : State :=
  s.updSag (fun x => if b then { x with ovB := setBit x.ovB c, ovHigh := setBit x.ovHigh c }
    else { x with ovA := setBit x.ovA c, ovHigh := setBit x.ovHigh c })

theorem comparatorLatched_bits (c : Nat) (b : Bool) (s : State) : bitAt (comparatorLatched c b s).sag.ovHigh c = true ∧
    bitAt (if b then (comparatorLatched c b s).sag.ovB else (comparatorLatched c b s).sag.ovA) c = true := by
  cases b <;> exact ⟨bitAt_setBit_self _ _, bitAt_setBit_self _ _⟩

section
variable {s : State} {c ch : Nat} {b : Bool}

theorem execOvComparatorTrip_not (h : s.sag.up = 0 ∨ 12 ≤ c) : exec (.ovComparatorTrip c b) s = .next s :=
  congrArg Host.Outcome.next (if_neg fun hdue => h.elim hdue.1 (Nat.not_le.mpr hdue.2))

theorem execOvComparatorTrip_latches (hup : s.sag.up ≠ 0) (hc : c < 12) : exec (.ovComparatorTrip c b) s =
    .next (sagOutputs (latchTrip F.Sag.OV_TRIP (2 ^ c) 3 (comparatorLatched c b s))) :=
  congrArg Host.Outcome.next (if_pos ⟨hup, hc⟩)

theorem execChannelWatchdog_not (h : s.sag.up ≠ 2) : exec (.channelWatchdogTimeout ch) s = .next s :=
  congrArg Host.Outcome.next (if_neg h)

theorem execChannelWatchdog_bites (h : s.sag.up = 2) : exec (.channelWatchdogTimeout ch) s = .next (sagOutputs (channelLost ch 2 s)) :=
  congrArg Host.Outcome.next (if_pos h)

/-- A channel that is out of service is lost to nobody (R532). -/
theorem channelLost_out (h : 3 ≤ ch ∨ bitAt (s.get F.Sag.CHANNELS_OK pgSag) ch = false) (row : Nat) : channelLost ch row s = s := by
  refine if_neg ?_
  rintro ⟨hch, hbit⟩
  exact h.elim (Nat.not_le.mpr hch) fun h => nomatch h.symm.trans hbit

end

/-! ### The obligation -/

/-- Settles O48, unit by unit: the state after each command is written out, and the lemmas on what trips, outputs and requests leave
give its fields. The cycle, the self-test and the rounds as commands are the model's choice (logs 96 and 98). -/
theorem saggerCycleTripsAndPower : Obligations.SaggerCycleTripsAndPower := by
  refine fun s => ⟨execSaggerPowerOn_not, execSaggerPowerOn_begins, ⟨_, execVddSagOutOfRange_eq s, ?supply⟩,
    fun passed h => execSelftestEnd_not h passed, fun passed hup => ⟨_, execSelftestEnd_ends hup passed, ?selftest⟩,
    fun chans senc resetN ov readback found => execSaggerCycle_not,
    fun chans senc resetN ov readback found hup hlength => ⟨_, execSaggerCycle_runs hup hlength, ?cycle⟩,
    fun codes r3 r12 => execSaggerAdcRound_not,
    fun codes r3 r12 hup hlength href => ⟨_, execSaggerAdcRound_bad hup hlength href, ?bad⟩,
    fun codes r3 r12 hot act hup hlength h3 h12 hhot hact => ?good,
    fun c b => execOvComparatorTrip_not, fun c b hup hc => ⟨_, execOvComparatorTrip_latches hup hc, ?comparator⟩,
    fun ch => execChannelWatchdog_not, fun ch hup hout => ?out,
    fun ch hup hch hbit => ⟨_, execChannelWatchdog_bites hup, ?watchdog⟩⟩
  case supply =>
    have hget {f : Fld} (hf : f ∈ [F.Sag.SAG_STATE_STATE, F.Sag.CAUSE, F.Sag.CHANNELS_OK, F.Sag.OPERATE, F.Sag.DRIVE_EN,
        F.Sag.CURE_EN, F.Sag.SAFE_STATE, F.Sag.PRESS_STOP_REQ]) := shownReset_get hf s
    exact ⟨sagLatch_sag _, hget (by decide), hget (by decide), hget (by decide), off_of_get (hget (by decide)), hget (by decide),
      hget (by decide), on_of_get (hget (by decide)), on_of_get (hget (by decide))⟩
  case selftest =>
    obtain ⟨hback, hchannels, hmode⟩ := selftested_back passed s
    obtain ⟨hfailed, hnone, hsome⟩ := selftested_cases passed s
    have hmid := selftestEnd_mid (selftested passed s)
    refine ⟨?_, ?_, fun h => ?_, fun h hrecord => ?_, fun w h hrecord => ?_, selftestEnd_ready hmode⟩
    · rw [hmid.2.2.2.2, hback]
    · rw [hmid.get _ (by decide) (by decide) (by decide), hchannels]
    · rw [sagState_of hmid (by decide), hmid.get _ (by decide) (by decide) (by decide), hfailed h]
      obtain ⟨hstate, hcause, -⟩ := setSagState_spec 1 1 (channelsBack s)
      exact ⟨hstate, hcause⟩
    · rw [sagState_of hmid (by decide), hmid.get _ (by decide) (by decide) (by decide), hnone h hrecord]
      obtain ⟨hstate, hcause, -⟩ := setSagState_spec 1 4 (channelsBack s)
      exact ⟨hstate, hcause⟩
    · obtain ⟨hstate, hcause, hvalid, hcrc, hparams⟩ := selftested_record w s (hsome w h hrecord)
      have hplace : ∀ i < 64, F.Sag.PARAM_ACTIVE.off + i * F.Sag.PARAM_ACTIVE.stride < 4096 ∧
          (F.Sag.PARAM_ACTIVE.off + i * F.Sag.PARAM_ACTIVE.stride) * 32 + F.Sag.PARAM_ACTIVE.lo ∉ selftestKeys := by decide
      refine ⟨(sagState_of hmid (by decide)).trans hstate, ?_, on_of_get ?_, ?_, fun i hi => ?_⟩
      · rw [hmid.get _ (by decide) (by decide) (by decide), hcause]
      · rw [hmid.get _ (by decide) (by decide) (by decide), hvalid]
      · rw [hmid.get _ (by decide) (by decide) (by decide), hcrc]
      · exact (hmid.1 F.Sag.PARAM_ACTIVE i (hplace i hi).1 (by decide) (hplace i hi).2).trans (hparams i hi)
  case cycle =>
    obtain ⟨hstart, hstop, hreset, hopen⟩ := requestsServed (cycleBefore chans senc resetN ov readback found s)
    obtain ⟨hstop', hstart', hreset'⟩ := cycleBefore_stop (s := s) (chans := chans) (senc := senc) (ov := ov) (resetN := resetN)
      (readback := readback) (found := found)
    refine ⟨hstart, hstop, hreset, ?_, fun h => ?_, ?_⟩
    · rw [requests_get _ (by decide) (by decide) (by decide) (by decide)]
      exact cycleBefore_resetN
    · rw [sagOutputs_state]
      exact sagRequests_stop _ (hstop'.trans h)
    · rintro rfl rfl hquiet hchannels hreplica
      obtain ⟨hmid, hcontacts, hclosed⟩ := cycleBefore_quiet hlength hquiet hchannels hreplica senc ov resetN
      refine ⟨?_, hopen.trans hclosed, fun h1 h2 h3 h4 h5 => ?_⟩
      · rw [requests_get _ (by decide) (by decide) (by decide) (by decide), hcontacts]
      · obtain ⟨hstate, hoperate⟩ := sagRequests_start _ (hstart'.trans h1) (hstop'.trans h2) (hreset'.trans h3)
          ((sagState_of hmid (by decide)).trans h4) ((sagTrips_of hmid (by decide)).trans h5) hclosed
        refine ⟨(sagOutputs_state _).trans hstate, on_of_get ?_⟩
        rw [(sagOutputs_out _).get _ (by decide) (by decide) (by decide), hoperate]
  case bad =>
    obtain ⟨hbad, htemp, hfaults, hstate⟩ := roundFailed_facts s
    cases hbefore : s.sag.adcBad with
    | false => exact ⟨hbad, htemp, hfaults, fun _ => hstate, nofun⟩
    | true =>
      have hsafe : SagMid [2064, 2072, 2048, 512] (roundFailed s) (enterSafe 6 (roundFailed s)) := enterSafe_mid (.refl _ _) 6 (fun _ h => h)
      refine ⟨?_, ?_, ?_, nofun, fun _ => ?_⟩
      · rw [if_pos rfl, sagOutputs_sag, enterSafe_sag, hbad]
      · rw [if_pos rfl, sagOutputs_sag, enterSafe_sag, htemp]
      · rw [if_pos rfl, (sagOutputs_out _).get _ (by decide) (by decide) (by decide), hsafe.get _ (by decide) (by decide) (by decide),
          hfaults]
      · rw [if_pos rfl, sagOutputs_state]
        exact enterSafe_state 6 _
  case good =>
    subst hhot
    subst hact
    exact ⟨_, execSaggerAdcRound_good hup hlength h3 h12, goodRound_facts _ codes _ s rfl⟩
  case comparator =>
    rw [sagOutputs_sag, latchTrip_sag, (sagOutputs_out _).get _ (by decide) (by decide) (by decide)]
    refine ⟨?_, comparatorLatched_bits c b s⟩
    refine latchTrip_bit _ _ _ c _ hc hc (by decide) (by decide) (by decide) ?_
    rw [bitAt_two_pow, decide_eq_true rfl]
  case out => rw [execChannelWatchdog_bites hup, channelLost_out hout]
  case watchdog =>
    obtain ⟨hchannels, hsag, hlost, hkept⟩ := channelLost_spec ch 2 s hch hbit
    have hout := sagOutputs_out (channelLost ch 2 s)
    rw [hout.get _ (by decide) (by decide) (by decide), sagOutputs_sag, sagChannels_of hout (by decide), sagOutputs_state]
    exact ⟨hchannels, hsag, hlost, hkept⟩

end Sys2Proof.Machine
end

section
/-! The rail sequencer: a step up, the rise timeout, and the way down. -/

-- One declaration after another, as in the files before: the text is also checked in one piece.
set_option Elab.async false

namespace Sys2Proof.Machine

/-! ### Readings that are shown -/

/-- Every reading that is there is shown: READ_MV and IN_WINDOW of the rails change on page 0x0AA, and nothing of the
sequencer's own record. -/
theorem showReadings_spec (readings : List (Nat × Nat)) (s : State) :
    PgMid pgSeq (railKey [1, 16]) s (showReadings readings s) ∧ (showReadings readings s).rail = s.rail ∧
      (showReadings readings s).now = s.now := by
  unfold showReadings
  refine forAll_over _ _ _ (fun u => PgMid pgSeq (railKey [1, 16]) s u ∧ u.rail = s.rail ∧ u.now = s.now) ⟨.refl _ _ _, rfl, rfl⟩ ?_
  rintro k hk u ⟨hmid, hrail, hnow⟩
  split
  · next mv _ =>
    split
    · obtain ⟨m, _, _, r⟩ := showReading_spec k mv (List.mem_range.mp hk) u
      refine ⟨hmid.trans m, r.trans hrail, ?_⟩
      refine Eq.trans ?_ hnow
      unfold showReading
      dsimp only
      split <;> rfl
    · exact ⟨hmid, hrail, hnow⟩
  · exact ⟨hmid, hrail, hnow⟩

/-! ### RAIL_STEP_DONE -/

section
variable {s v : State} {readings : List (Nat × Nat)}

theorem execRailStepDone_not (h : s.seqState ≠ 1 ∨ s.jrn.closing.isSome = true) : exec (.railStepDone readings) s = .next s :=
  congrArg Host.Outcome.next (if_neg (by cases hc : s.jrn.closing <;> simp_all))

/-- The state once the readings of a step in progress are shown. -/
def afterReadings (step : Nat) (v : State) : State :=
  if (v.stepRails step).all v.railUp then
    if v.rail.okAt.getD v.now + (v.stepRails step).foldl (fun a k => max a (v.railGet F.Seq.DELAY_US k)) 0 * 1000 ≤ v.now then
      rampFrom (step + 1) v
    else v.updRail (fun x => { x with okAt := some (v.rail.okAt.getD v.now) })
  else v.updRail (fun x => { x with okAt := none })

theorem execRailStepDone_shows (hs : s.seqState = 1) (hc : s.jrn.closing = none) :
    exec (.railStepDone readings) s = .next (afterReadings s.seqStep (showReadings readings s)) :=
  congrArg Host.Outcome.next (if_pos ⟨hs, by rw [hc]; rfl⟩)

/-- The ramp with no step left. -/
theorem rampFrom_ends {a : Nat} (h : v.stepsFrom (a + 1) = []) : (rampFrom (a + 1) v).seqState = 2 ∧ (rampFrom (a + 1) v).seqStep = low 4 a ∧
    bitAt ((rampFrom (a + 1) v).get F.Hdr.EVENT_STATUS pgSeq) Ev.pwrSeqDone.bit = true := by
  have e : rampFrom (a + 1) v = (setSeq 2 a (v.updRail (fun x => { x with okAt := none }))).raise Ev.pwrSeqDone pgSeq a := by
    unfold rampFrom; dsimp only; rw [h]; rfl
  obtain ⟨hstate, hstep, _⟩ := setSeq_spec 2 a (v.updRail (fun x => { x with okAt := none }))
  rw [e]
  refine ⟨?_, ?_, State.raise_bit _ _ _ (by decide) (by decide)⟩
  · exact (State.get_raise_off _ _ (by decide) (by decide) (by decide) (by decide)).trans hstate
  · exact (State.get_raise_off _ _ (by decide) (by decide) (by decide) (by decide)).trans hstep

theorem turnOn_all {l : List Nat} (hl : ∀ k ∈ l, k < 16) (u : State) :
    PgMid pgSeq (railKey [0]) u (forAll l u turnOn) ∧ ∀ k ∈ l, (forAll l u turnOn).railOn F.Seq.ON k = true := by
  refine ⟨.forAll _ _ _ (.refl _ _ _) fun k hk w hw => hw.trans (turnOn_mid k (hl k hk) w), fun k hk => ?_⟩
  have hon : (forAll l u turnOn).getI F.Seq.ON pgSeq k = 1 := by
    obtain ⟨a, b, rfl⟩ := List.append_of_mem hk
    rw [forAll_append, forAll_cons]
    exact forAll_over b _ turnOn (fun w => w.getI F.Seq.ON pgSeq k = 1) (turnOn_on k _) fun j _ w hw => turnOn_keeps j k w hw
  exact beq_iff_eq.mpr hon

/-- The ramp takes its next step. -/
theorem rampFrom_next {a n : Nat} {l : List Nat} (h : v.stepsFrom a = n :: l) : (rampFrom a v).seqState = 1 ∧ (rampFrom a v).seqStep = low 4 n ∧
    ∀ k ∈ v.stepRails n, (rampFrom a v).railOn F.Seq.ON k = true := by
  have e : rampFrom a v = forAll (v.stepRails n) (setSeq 1 n (v.updRail (fun x => { x with okAt := none }))) turnOn := by
    unfold rampFrom; dsimp only; rw [h]
  obtain ⟨hstate, hstep, _⟩ := setSeq_spec 1 n (v.updRail (fun x => { x with okAt := none }))
  obtain ⟨hmid, hon⟩ := turnOn_all (l := v.stepRails n) (fun k => stepRails_lt) (setSeq 1 n (v.updRail (fun x => { x with okAt := none })))
  rw [e]
  refine ⟨?_, ?_, hon⟩
  · exact (hmid.get F.Seq.SEQ_STATUS_STATE (by decide) (by decide) (railKey_low (by decide) (by decide))).trans hstate
  · exact (hmid.get F.Seq.SEQ_STATUS_STEP (by decide) (by decide) (railKey_low (by decide) (by decide))).trans hstep

end

/-! ### RAIL_RISE_TIMEOUT -/

/-- The first word of a rail's fields holds neither EVENT_STATUS nor FAULT. -/
theorem railConfig_key (k : Nat) {b : Nat} (hb : b < 32) : ¬ ((0x100 + k * 0x20) * 32 + b = 512 ∨ railKey [2] ((0x100 + k * 0x20) * 32 + b)) := by
  rintro (h | ⟨i, c, _, hc, h⟩)
  · omega
  · rw [List.mem_singleton.mp hc] at h
    omega

/-- A rail that misses RISE_MS while rails of its step are on is at fault, and the rails go down. -/
theorem riseTimeout_spec {s : State} {k : Nat} (hs : s.seqState = 1) (hk : k < 16) (hstep : s.seqStep < 16)
    (hon : s.onRails s.seqStep ≠ []) : (startFall 2 (railFails k 1 s)).seqState = 3 ∧ (startFall 2 (railFails k 1 s)).railOn F.Seq.FAULT k = true := by
  obtain ⟨hmid, hfault⟩ := railFails_mid k 1 hk s (by rw [hs]; decide)
  obtain ⟨w, hw⟩ : ∃ w, w = (railFails k 1 s).updRail (fun x => { x with why := 2, okAt := none }) := ⟨_, rfl⟩
  have hwregs : w.regs = (railFails k 1 s).regs := hw ▸ rfl
  have hkeep : w.onRails s.seqStep = s.onRails s.seqStep := onRails_of (hmid.keep hwregs) s.seqStep
    (fun j _ => ⟨railConfig_key j (b := 31) (by decide), railConfig_key j (b := 24) (by decide)⟩)
    fun j _ => not_or.mpr ⟨by show (0x10C + j * 0x20) * 32 + 0 ≠ 512; omega, railKey_not (b := 0) (by decide) (by decide) (by decide)⟩
  obtain ⟨hstate, hfall⟩ := fallFrom_some 15 w s.seqStep (by omega) hstep (hkeep ▸ hon)
  rw [startFall, ← hw]
  refine ⟨hstate, ?_⟩
  unfold State.railOn at hfault ⊢
  rw [hfall F.Seq.FAULT k (by show 0x10C + k * 0x20 < 4096; omega) (by decide)
    (not_or.mpr ⟨by show ¬((0x10C + k * 0x20) * 32 + 2 = 2176 ∨ (0x10C + k * 0x20) * 32 + 2 = 2192); omega, railKey_not (b := 2) (by decide) (by decide) (by decide)⟩),
    State.getI, hwregs]
  exact hfault

/-! ### RAIL_FALL_STEP -/

section
variable {s v : State} {readings : List (Nat × Nat)}

/-- The readings of the step that goes down are shown. -/
def fallReadings (readings : List (Nat × Nat)) (s : State) : State :=
  forAll (s.stepRails s.seqStep) s (fun k s => match s.reading readings k with
    | some mv => s.setI F.Seq.READ_MV pgSeq k mv
    | none => s)

theorem fallReadings_spec (readings : List (Nat × Nat)) (s : State) :
    PgMid pgSeq (railKey [16]) s (fallReadings readings s) ∧ (fallReadings readings s).rail = s.rail := by
  unfold fallReadings
  refine forAll_over _ _ _ (fun u => PgMid pgSeq (railKey [16]) s u ∧ u.rail = s.rail) ⟨.refl _ _ _, rfl⟩ ?_
  rintro k hk u ⟨hmid, hrail⟩
  split
  · exact ⟨hmid.setI F.Seq.READ_MV k _ (railKey_mk (stepRails_lt hk) (b := 16) (by decide) (by show (0x10C + k * 0x20) * 32 + 16 = _; omega)), hrail⟩
  · exact ⟨hmid, hrail⟩

/-- The rails of the step that goes down, each with what fallOver says. -/
def fallEnds (readings : List (Nat × Nat)) (step : Nat) (v : State) : List (Nat × Bool × Bool) :=
  (v.stepRails step).map (fun k => (k, v.fallOver readings k))

theorem fallEnds_all {step : Nat} : (fallEnds readings step v).all (fun e => e.2.1) = true ↔
    ∀ k ∈ v.stepRails step, (v.fallOver readings k).1 = true := by
  simp [fallEnds]

/-- The events of the rails that are late. -/
def lateEvents (readings : List (Nat × Nat)) (step : Nat) (v : State) : State :=
  forAll ((fallEnds readings step v).filter (fun e => e.2.2)) v (fun e => railEvent e.1 3)

theorem lateEvents_spec (readings : List (Nat × Nat)) (step : Nat) (v : State) :
    PgMid pgSeq (fun n => n = 512) v (lateEvents readings step v) ∧ (lateEvents readings step v).rail = v.rail :=
  forAll_over _ _ _ (fun u => PgMid pgSeq (fun n => n = 512) v u ∧ u.rail = v.rail) ⟨.refl _ _ _, rfl⟩
    fun _ _ _ hu => ⟨hu.1.raise _ _ rfl (by decide), (State.raise_rail _ _ _ _).trans hu.2⟩

theorem execRailFallStep_not (h : s.seqState ≠ 3) : exec (.railFallStep readings) s = .next s := congrArg Host.Outcome.next (if_neg h)

theorem execRailFallStep_waits (hs : s.seqState = 3) (hv : v = fallReadings readings s)
    (h : ∃ k ∈ v.stepRails s.seqStep, (v.fallOver readings k).1 = false) : exec (.railFallStep readings) s = .next v := by
  have hn : ¬ (fallEnds readings s.seqStep v).all (fun e => e.2.1) = true := by
    obtain ⟨k, hk, hlow⟩ := h
    exact fun hall => Bool.false_ne_true (hlow.symm.trans (fallEnds_all.mp hall k hk))
  subst hv
  exact congrArg Host.Outcome.next ((if_pos hs).trans (if_neg hn))

theorem execRailFallStep_goes (hs : s.seqState = 3) (hv : v = fallReadings readings s)
    (h : ∀ k ∈ v.stepRails s.seqStep, (v.fallOver readings k).1 = true) :
    exec (.railFallStep readings) s = .next (fallFrom s.seqStep (lateEvents readings s.seqStep v)) := by
  subst hv
  exact congrArg Host.Outcome.next ((if_pos hs).trans (if_pos (fallEnds_all.mpr h)))

theorem onRails_late (readings : List (Nat × Nat)) (step n : Nat) (v : State) : (lateEvents readings step v).onRails n = v.onRails n :=
  onRails_of (lateEvents_spec readings step v).1 n
    (fun k _ => ⟨by show (0x100 + k * 0x20) * 32 + 31 ≠ 512; omega, by show (0x100 + k * 0x20) * 32 + 24 ≠ 512; omega⟩)
    fun k _ => by show (0x10C + k * 0x20) * 32 + 0 ≠ 512; omega

theorem railOn_fallReadings {k : Nat} (hk : k < 16) : (fallReadings readings s).railOn F.Seq.ON k = s.railOn F.Seq.ON k := by
  unfold State.railOn
  rw [(fallReadings_spec readings s).1 F.Seq.ON k (by show 0x10C + k * 0x20 < 4096; omega) (by decide)
    (railKey_not (b := 0) (by decide) (by decide) (by decide))]

end

/-- Settles O49, with one lemma per outcome of a command; that the sequence goes on by commands of its own is the model's
choice (log 99). -/
theorem railSequence : Obligations.RailSequence := by
  unfold Obligations.RailSequence
  intro s
  refine ⟨fun _ => execRailStepDone_not, ?stepDone, ?riseNot, ?rise, fun _ => execRailFallStep_not, ?fall⟩
  case stepDone =>
    intro readings v t0 delay hs hc hv ht hd
    obtain ⟨hmid, hrail, hnow⟩ := showReadings_spec readings s
    rw [← hv] at hrail hnow
    have hexec : exec (.railStepDone readings) s = .next (afterReadings s.seqStep v) := hv ▸ execRailStepDone_shows hs hc
    have hok : v.rail.okAt.getD v.now = t0 := by rw [hrail, hnow, ht]
    have hup : (∀ k ∈ v.stepRails s.seqStep, v.railUp k = true) → t0 + delay * 1000 ≤ s.now →
        exec (.railStepDone readings) s = .next (rampFrom (s.seqStep + 1) v) := fun hall hle => by
      rw [hexec, afterReadings, if_pos (List.all_eq_true.mpr hall), hok, ← hd, hnow, if_pos hle]
    refine ⟨fun ⟨k, hk, hdown⟩ => ?_, fun hall hlt => ?_, fun hall hle hnone => ?_, fun n l hall hle hsome => ?_⟩
    · rw [hexec, afterReadings, if_neg fun hall => Bool.false_ne_true (hdown.symm.trans (List.all_eq_true.mp hall k hk))]
    · rw [hexec, afterReadings, if_pos (List.all_eq_true.mpr hall), hok, ← hd, hnow, if_neg (Nat.not_le.mpr hlt)]
    · exact ⟨_, hup hall hle, rampFrom_ends hnone⟩
    · exact ⟨_, hup hall hle, rampFrom_next hsome⟩
  case riseNot => exact fun k h => congrArg Host.Outcome.next (if_neg h)
  case rise =>
    intro k hs hk hon hread hwin hlate hstep
    refine ⟨_, congrArg Host.Outcome.next (if_pos ⟨hs, hk, hon, hread, hwin, hlate⟩), riseTimeout_spec hs hk hstep fun hnil => ?_⟩
    rw [hnil] at hon
    exact Bool.false_ne_true hon
  case fall =>
    intro readings v hs hv
    have hv : v = fallReadings readings s := hv
    refine ⟨execRailFallStep_waits hs hv, fun hall hoff => ⟨_, execRailFallStep_goes hs hv hall, ?_⟩, fun hall hex => ⟨_, execRailFallStep_goes hs hv hall, ?_⟩⟩
    · rw [fallFrom_none, (lateEvents_spec readings s.seqStep v).2, hv, (fallReadings_spec readings s).2]
      intro n _ _
      rw [onRails_late]
      refine List.filter_eq_nil_iff.mpr fun k hk => ?_
      rw [hv, railOn_fallReadings (stepRails_lt hk), hoff k (stepRails_lt hk)]
      exact Bool.false_ne_true
    · obtain ⟨n, hle, hlt, hne⟩ := hex
      exact (fallFrom_some s.seqStep _ n hle hlt (onRails_late readings s.seqStep n v ▸ hne)).1

end Sys2Proof.Machine
end

section
/-! The rails once they are up: polls, PMBus errors and alerts, CLEAR_FAULT, and the core regulator. -/

-- One declaration after another, as in the files before: the text is also checked in one piece.
set_option Elab.async false

namespace Sys2Proof.Machine

/-! ### PMBUS_POLL -/

section
variable {s : State} {k mv io : Nat}

/-- A reading and a current that PMBus gave are shown, and the transactions to the rail are no retries any more. -/
def pollShown (k mv io : Nat) (s : State) : State :=
  (showReading k mv (s.setI F.Seq.IOUT pgSeq k io)).updRail (fun x => { x with retry := x.retry.filter (fun r => r.1 != k) })

theorem pollShown_mid (hk : k < 16) : PgMid pgSeq (railKey [1, 3, 16]) s (pollShown k mv io s) := by
  have hiout : PgMid pgSeq (railKey [1, 3, 16]) s (s.setI F.Seq.IOUT pgSeq k io) :=
    (PgMid.refl _ _ s).setI F.Seq.IOUT k io (railKey_mk hk (b := 3) (by decide) (by show (0x10C + k * 0x20) * 32 + 3 = _; omega))
  refine (hiout.trans ((showReading_spec k mv hk _).1.mono ?_)).keep rfl
  rintro n ⟨j, b, hj, hb, e⟩
  exact ⟨j, b, hj, by simp only [List.mem_cons, List.not_mem_nil, or_false] at hb ⊢; omega, e⟩

/-- A setting of a rail that a shown current does not touch. -/
theorem inWindow_iout (j : Nat) (hk : k < 16) : (s.setI F.Seq.IOUT pgSeq k io).inWindow k j = s.inWindow k j := by
  refine inWindow_of (P := railKey [3]) ((PgMid.refl _ _ s).setI F.Seq.IOUT k io (railKey_mk hk (b := 3) (by decide) (by show (0x10C + k * 0x20) * 32 + 3 = _; omega))) k j hk ?_
  rintro b hb ⟨i, c, _, hc, e⟩
  rw [List.mem_singleton.mp hc] at e
  simp only [List.mem_cons, List.not_mem_nil, or_false] at hb
  omega

theorem inWindow_pollShown (j : Nat) (hk : k < 16) : (pollShown k mv io s).inWindow k j = s.inWindow k j := by
  refine inWindow_of (pollShown_mid hk) k j hk ?_
  rintro b hb ⟨i, c, _, hc, e⟩
  simp only [List.mem_cons, List.not_mem_nil, or_false] at hb hc
  omega

theorem pollShown_rail (hk : k < 16) : (pollShown k mv io s).rail.out = s.rail.out :=
  (congrArg RailX.out (showReading_spec k mv hk (s.setI F.Seq.IOUT pgSeq k io)).2.2.2 :)

theorem pollShown_seqState (hk : k < 16) : (pollShown k mv io s).seqState = s.seqState :=
  (pollShown_mid hk).get F.Seq.SEQ_STATUS_STATE (by decide) (by decide) (railKey_low (by decide) (by decide))

/-- FAULT and ON of a rail stay as a reading is shown. -/
theorem pollShown_railOn (hk : k < 16) : (pollShown k mv io s).railOn F.Seq.FAULT k = s.railOn F.Seq.FAULT k ∧
    (pollShown k mv io s).railOn F.Seq.ON k = s.railOn F.Seq.ON k := by
  unfold State.railOn
  rw [pollShown_mid hk F.Seq.FAULT k (by show 0x10C + k * 0x20 < 4096; omega) (by decide) (railKey_not (b := 2) (by decide) (by decide) (by decide)),
    pollShown_mid hk F.Seq.ON k (by show 0x10C + k * 0x20 < 4096; omega) (by decide) (railKey_not (b := 0) (by decide) (by decide) (by decide))]
  exact ⟨rfl, rfl⟩

/-- What every state shows that has the registers of a poll. -/
theorem pollShown_shows {u : State} (hk : k < 16) (hu : u.regs = (pollShown k mv io s).regs) :
    u.railGet F.Seq.IOUT k = low 13 io ∧ u.railGet F.Seq.READ_MV k = low 16 mv ∧ u.railOn F.Seq.IN_WINDOW k = s.inWindow k mv ∧
      u.seqState = s.seqState ∧ u.railOn F.Seq.FAULT k = s.railOn F.Seq.FAULT k := by
  obtain ⟨hmid, hread, hwin, _⟩ := showReading_spec k mv hk (s.setI F.Seq.IOUT pgSeq k io)
  have hI : ∀ f i, u.getI f pgSeq i = (pollShown k mv io s).getI f pgSeq i := fun f i => by unfold State.getI; rw [hu]
  have hiout : (pollShown k mv io s).railGet F.Seq.IOUT k = low 13 io :=
    (hmid F.Seq.IOUT k (by show 0x10C + k * 0x20 < 4096; omega) (by decide) (railKey_not (b := 3) (by decide) (by decide) (by decide))).trans
      (State.getI_setI_self _ _ _ _ _)
  refine ⟨(hI _ _).trans hiout, (hI _ _).trans hread, ?_, (hI _ _).trans (pollShown_seqState hk), ?_⟩
  · unfold State.railOn
    rw [hI]
    exact hwin.trans (inWindow_iout mv hk)
  · refine Eq.trans ?_ (pollShown_railOn (mv := mv) (io := io) hk).1
    unfold State.railOn
    rw [hI]

/-- The count of readings out of window of a rail. -/
def withOut (k n : Nat) (s : State) : State := s.updRail (fun x => { x with out := tputD x.out k n 0 })

theorem withOut_out (k n : Nat) (s : State) : tget (withOut k n s).rail.out k 0 = n := tget_tputD_self s.rail.out k n 0

/-- The state that a poll of one PMBus rail ends in. -/
def polled (k mv : Nat) (v : State) : State :=
  if v.seqState ≠ 2 ∨ v.railOn F.Seq.ON k = false then v
  else if v.inWindow k mv then withOut k 0 v
  else if 2 ≤ tget v.rail.out k 0 + 1 then railFails k 2 (withOut k (tget v.rail.out k 0 + 1) v)
  else withOut k (tget v.rail.out k 0 + 1) v

theorem execPmbusPoll_one (hp : s.mode.porst = false) (hm : s.modeNow ≠ 0) (hk : k < 16) (hen : s.railOn F.Seq.RAIL_EN k = true)
    (hpm : s.railPmbus k = true) : exec (.pmbusPoll [(k, mv, io)]) s = .next (polled k mv (pollShown k mv io s)) := by
  refine congrArg Host.Outcome.next ((if_pos ⟨hp, hm⟩).trans ?_)
  rw [forAll_cons, forAll_nil]
  exact (if_pos ⟨hk, hen, hpm⟩).trans rfl

theorem execPmbusPoll_not {readings : List (Nat × Nat × Nat)} (h : s.mode.porst = true ∨ s.modeNow = 0) : exec (.pmbusPoll readings) s = .next s :=
  congrArg Host.Outcome.next (if_neg fun ⟨hp, hm⟩ => h.elim (fun hp1 => Bool.false_ne_true (hp.symm.trans hp1)) hm)

/-- A poll without a reading of an enabled PMBus rail. -/
theorem execPmbusPoll_none {readings : List (Nat × Nat × Nat)} (hp : s.mode.porst = false) (hm : s.modeNow ≠ 0)
    (h : ∀ r ∈ readings, ¬ (r.1 < 16 ∧ s.railOn F.Seq.RAIL_EN r.1 = true ∧ s.railPmbus r.1 = true)) : exec (.pmbusPoll readings) s = .next s := by
  refine congrArg Host.Outcome.next ((if_pos ⟨hp, hm⟩).trans ?_)
  exact forAll_over readings s _ (fun u => u = s) rfl fun r hr u hu => by subst hu; exact if_neg (h r hr)

/-- The outcomes of a poll of one rail. -/
theorem execPmbusPoll_outcomes {n : Nat} (hp : s.mode.porst = false) (hm : s.modeNow ≠ 0) (hk : k < 16) (hen : s.railOn F.Seq.RAIL_EN k = true)
    (hpm : s.railPmbus k = true) (hn : n = tget s.rail.out k 0 + 1) :
    ∃ u, u.regs = (pollShown k mv io s).regs ∧
      ((s.seqState ≠ 2 ∨ s.railOn F.Seq.ON k = false) → exec (.pmbusPoll [(k, mv, io)]) s = .next u ∧ u.rail.out = s.rail.out) ∧
      (s.seqState = 2 → s.railOn F.Seq.ON k = true → s.inWindow k mv = true → exec (.pmbusPoll [(k, mv, io)]) s = .next u ∧ tget u.rail.out k 0 = 0) ∧
      (s.seqState = 2 → s.railOn F.Seq.ON k = true → s.inWindow k mv = false → n < 2 → exec (.pmbusPoll [(k, mv, io)]) s = .next u ∧ tget u.rail.out k 0 = n) ∧
      (s.seqState = 2 → s.railOn F.Seq.ON k = true → s.inWindow k mv = false → 2 ≤ n →
        exec (.pmbusPoll [(k, mv, io)]) s = .next (railFails k 2 u) ∧ tget u.rail.out k 0 = n) := by
  rw [execPmbusPoll_one hp hm hk hen hpm, polled, pollShown_seqState hk, (pollShown_railOn hk).2, inWindow_pollShown mv hk, pollShown_rail hk, ← hn]
  by_cases hoff : s.seqState ≠ 2 ∨ s.railOn F.Seq.ON k = false
  · have hno : ∀ {q : Prop}, s.seqState = 2 → s.railOn F.Seq.ON k = true → q := fun h2 hon =>
      (hoff.elim (fun h => h h2) fun h => Bool.false_ne_true (h.symm.trans hon)).elim
    rw [if_pos hoff]
    exact ⟨_, rfl, fun _ => ⟨rfl, pollShown_rail hk⟩, fun h2 hon _ => hno h2 hon, fun h2 hon _ _ => hno h2 hon, fun h2 hon _ _ => hno h2 hon⟩
  · rw [if_neg hoff]
    cases hw : s.inWindow k mv with
    | true =>
      exact ⟨withOut k 0 (pollShown k mv io s), rfl, fun h => absurd h hoff, fun _ _ _ => ⟨rfl, withOut_out _ _ _⟩, nofun, nofun⟩
    | false =>
      refine ⟨withOut k n (pollShown k mv io s), rfl, fun h => absurd h hoff, nofun, fun _ _ _ hlt => ⟨?_, withOut_out _ _ _⟩,
        fun _ _ _ hle => ⟨?_, withOut_out _ _ _⟩⟩
      · rw [if_neg Bool.false_ne_true, if_neg (Nat.not_le.mpr hlt)]
      · rw [if_neg Bool.false_ne_true, if_pos hle]

end

/-! ### PMBUS_TIMEOUT and PMB_ALERT -/

section
variable {s : State} {k cmd : Nat}

theorem execPmbusTimeout_not (h : 16 ≤ k ∨ s.railOn F.Seq.RAIL_EN k = false ∨ s.railPmbus k = false) : exec (.pmbusTimeout k cmd) s = .next s :=
  congrArg Host.Outcome.next (if_neg fun ⟨hk, hen, hpm⟩ => h.elim (Nat.not_le.mpr hk)
    fun h => h.elim (fun h => Bool.false_ne_true (h.symm.trans hen)) fun h => Bool.false_ne_true (h.symm.trans hpm))

variable (hk : k < 16) (hen : s.railOn F.Seq.RAIL_EN k = true) (hpm : s.railPmbus k = true)
include hk hen hpm

theorem execPmbusTimeout_first (h : s.rail.retry.contains (k, cmd) = false) :
    exec (.pmbusTimeout k cmd) s = .next (s.updRail (fun x => { x with retry := x.retry ++ [(k, cmd)] })) :=
  congrArg Host.Outcome.next ((if_pos ⟨hk, hen, hpm⟩).trans (if_neg (by rw [h]; exact Bool.false_ne_true)))

theorem execPmbusTimeout_again (h : s.rail.retry.contains (k, cmd) = true) : ∃ t, exec (.pmbusTimeout k cmd) s = .next t ∧
    t.rail.retry = s.rail.retry.filter (· != (k, cmd)) ∧
    t.get F.Seq.PMBUS_ERRORS pgSeq = low 32 (min (s.get F.Seq.PMBUS_ERRORS pgSeq + 1) (2 ^ 32 - 1)) ∧
    bitAt (t.get F.Hdr.EVENT_STATUS pgSeq) Ev.pwrPmbusError.bit = true := by
  refine ⟨_, congrArg Host.Outcome.next ((if_pos ⟨hk, hen, hpm⟩).trans (if_pos h)), ?_, ?_, State.raise_bit _ _ _ (by decide) (by decide)⟩
  · exact congrArg RailX.retry (State.raise_rail _ _ _ _)
  · rw [State.get_raise_off _ _ (by decide) (by decide) (by decide) (by decide), sat_self, get_of_regs (State.updRail_regs _ _)]
    rfl

end

/-- The STATUS_WORD of one rail is kept. -/
def keepStatus (w : Nat × Nat) (s : State) : State :=
  if w.1 < 16 ∧ s.railOn F.Seq.RAIL_EN w.1 ∧ s.railPmbus w.1 then s.updRail (fun x => { x with status := tput x.status w.1 (low 16 w.2) }) else s

theorem keepStatus_regs (w : Nat × Nat) (s : State) : (keepStatus w s).regs = s.regs := by unfold keepStatus; split <;> rfl

/-- A word of an alert counts for rail `k`. -/
def statusOf (s : State) (k : Nat) (w : Nat × Nat) : Bool :=
  w.1 == k && decide (k < 16) && s.railOn F.Seq.RAIL_EN k && s.railPmbus k

theorem statusOf_regs {s t : State} (h : t.regs = s.regs) : statusOf t = statusOf s := by
  funext k w
  unfold statusOf State.railPmbus State.railGet State.railOn State.getI
  rw [h]

theorem keepStatus_status (w : Nat × Nat) (s : State) (k : Nat) :
    tget (keepStatus w s).rail.status k 0 = if statusOf s k w = true then low 16 w.2 else tget s.rail.status k 0 := by
  unfold keepStatus
  by_cases hw : w.1 = k
  · subst hw
    have hiff : statusOf s w.1 w = true ↔ w.1 < 16 ∧ s.railOn F.Seq.RAIL_EN w.1 = true ∧ s.railPmbus w.1 = true := by simp [statusOf, and_assoc]
    by_cases hc : statusOf s w.1 w = true
    · rw [if_pos (hiff.mp hc), if_pos hc]; exact tget_tput_self s.rail.status w.1 _ 0
    · rw [if_neg fun h => hc (hiff.mpr h), if_neg hc]
  · have hno : ¬ statusOf s k w = true := by simp [statusOf, hw]
    rw [if_neg hno]
    split
    · exact tget_tput_ne s.rail.status _ 0 (Ne.symm hw)
    · rfl

/-- The last word of an alert that counts for a rail is kept. -/
theorem keepStatus_all (words : List (Nat × Nat)) (s : State) : (forAll words s keepStatus).regs = s.regs ∧
    ∀ k, tget (forAll words s keepStatus).rail.status k 0 =
      ((words.filter (statusOf s k)).getLast?.map (fun w => low 16 w.2)).getD (tget s.rail.status k 0) := by
  induction words generalizing s with
  | nil => exact ⟨rfl, fun _ => rfl⟩
  | cons w words ih =>
    obtain ⟨hregs, hlast⟩ := ih (keepStatus w s)
    rw [forAll_cons]
    refine ⟨hregs.trans (keepStatus_regs w s), fun k => ?_⟩
    rw [hlast k, statusOf_regs (keepStatus_regs w s), keepStatus_status]
    by_cases hw : statusOf s k w = true
    · rw [List.filter_cons_of_pos hw, List.getLast?_cons, if_pos hw]
      cases (words.filter (statusOf s k)).getLast? <;> rfl
    · rw [List.filter_cons_of_neg hw, if_neg hw]

/-! ### Faults and the core regulator -/

section
variable {s : State}

/-- A rail that fails while that does not take the part to Dormant shows FAULT and raises its event. -/
theorem railFails_shows {k kind : Nat} (hk : k < 16) (hf : s.railOn F.Seq.FAULT k = false)
    (h : s.seqState ≠ 2 ∨ s.on F.Seq.FAULT_DORMANT pgSeq = false) : (railFails k kind s).railOn F.Seq.FAULT k = true ∧
      bitAt ((railFails k kind s).get F.Hdr.EVENT_STATUS pgSeq) Ev.pwrRailFault.bit = true := by
  obtain ⟨u, hu⟩ : ∃ u, u = railEvent k kind (s.setI F.Seq.FAULT pgSeq k 1) := ⟨_, rfl⟩
  have hpages := setCause_pages 6 u
  have hmid : PgMid pgSeq (fun n => n = 512 ∨ railKey [2] n) s u := by
    rw [hu, railEvent]
    exact ((PgMid.refl _ _ s).setI F.Seq.FAULT k 1 (.inr (railKey_mk hk (b := 2) (by decide) (by show (0x10C + k * 0x20) * 32 + 2 = _; omega)))).raise _ _ (.inl rfl) (by decide)
  have hseq : (setCause 6 u).seqState = s.seqState :=
    (hmid.pages hpages (by decide)).get F.Seq.SEQ_STATUS_STATE (by decide) (by decide) (not_or.mpr ⟨by decide, railKey_low (by decide) (by decide)⟩)
  have hdorm : (setCause 6 u).get F.Seq.FAULT_DORMANT pgSeq = s.get F.Seq.FAULT_DORMANT pgSeq :=
    (hmid.pages hpages (by decide)).get F.Seq.FAULT_DORMANT (by decide) (by decide) (not_or.mpr ⟨by decide, railKey_low (by decide) (by decide)⟩)
  have hfault : u.getI F.Seq.FAULT pgSeq k = 1 := by
    rw [hu, railEvent, State.getI_raise_off _ _ (by decide) (by show (0x10C + k * 0x20) * 32 + 2 ≠ 512; omega) (by show 0x10C + k * 0x20 < 4096; omega) (by decide)]
    exact State.getI_setI_self _ _ _ _ _
  have he : railFails k kind s = setCause 6 u := by
    rw [hu, railFails, if_neg (by rw [hf]; exact Bool.false_ne_true)]
    refine if_neg ?_
    rw [← hu]
    rintro ⟨h2, hd⟩
    refine h.elim (fun hne => hne (hseq ▸ h2)) fun hd0 => ?_
    unfold State.on at hd hd0
    rw [hdorm, hd0] at hd
    exact Bool.false_ne_true hd
  rw [he]
  refine ⟨?_, ?_⟩
  · unfold State.railOn
    rw [hpages.getI (by decide) (by show 0x10C + k * 0x20 < 4096; omega) (by decide), hfault]
    rfl
  · rw [hpages.get (by decide) (by decide) (by decide), hu, railEvent]
    exact State.raise_bit _ _ _ (by decide) (by decide)

/-- The regulator as an overcurrent stops it. -/
def coreStops (s : State) : State :=
  ((s.set F.Core.PHASES pgCore 0).updRail (fun x => { x with coreStopped := true })).setI F.Seq.IN_WINDOW pgSeq 0 0

theorem execCoreOvercurrent_not {phase amps : Nat} (h : s.coreRuns = false ∨ 8 ≤ phase ∨ bitAt (s.get F.Core.PHASES pgCore) phase = false ∨
    amps ≤ s.get F.Core.PHASE_OC pgCore) : exec (.coreOvercurrent phase amps) s = .next s := by
  refine congrArg Host.Outcome.next (if_neg ?_)
  rintro ⟨hr, hp, hb, ha⟩
  rcases h with h | h | h | h
  · exact Bool.false_ne_true (h.symm.trans hr)
  · exact Nat.not_le.mpr hp h
  · exact Bool.false_ne_true (h.symm.trans hb)
  · exact Nat.not_le.mpr ha h

theorem execCoreOvercurrent_stops {phase amps : Nat} (hr : s.coreRuns = true) (hp : phase < 8)
    (hb : bitAt (s.get F.Core.PHASES pgCore) phase = true) (ha : s.get F.Core.PHASE_OC pgCore < amps) :
    ∃ u, exec (.coreOvercurrent phase amps) s = .next (railFails 0 2 u) ∧ u.get F.Core.PHASES pgCore = 0 ∧ u.rail.coreStopped = true ∧
      u.railOn F.Seq.IN_WINDOW 0 = false ∧ bitAt (u.get F.Hdr.EVENT_STATUS pgCore) Ev.pwrCoreFault.bit = true := by
  obtain ⟨u, heq, hmid, hpages, hrail, hbit⟩ := coreFault_eq 1 (s.get F.Core.IOUT pgCore) phase (coreStops s)
  refine ⟨u, (congrArg Host.Outcome.next (if_pos ⟨hr, hp, hb, ha⟩)).trans (congrArg Host.Outcome.next heq), ?_, ?_, ?_, hbit⟩
  · rw [hmid.get F.Core.PHASES (by decide) (by decide) (by decide), coreStops]
    have hoff : ∀ u : State, (u.setI F.Seq.IN_WINDOW pgSeq 0 0).get F.Core.PHASES pgCore = u.get F.Core.PHASES pgCore := fun u =>
      State.getI_setI_lo u (by decide) (by decide) (by decide)
    rw [hoff, get_of_regs (State.updRail_regs _ _), State.get_set_self]
    rfl
  · rw [hrail]; rfl
  · unfold State.railOn
    rw [hpages.getI (by decide) (by decide) (by decide), coreStops, State.getI_setI_self]
    rfl

theorem execCoreOutOfWindow_not {mv : Nat} (h : s.railOn F.Seq.ON 0 = false ∨ s.seqState ≠ 2 ∨ natDist mv (s.get F.Core.TARGET_MV pgCore) ≤ 30) :
    exec (.coreOutOfWindow mv) s = .next s := by
  refine congrArg Host.Outcome.next (if_neg ?_)
  rintro ⟨hon, h2, hd⟩
  rcases h with h | h | h
  · exact Bool.false_ne_true (h.symm.trans hon)
  · exact h h2
  · exact Nat.not_le.mpr hd h

theorem execCoreOutOfWindow_fails {mv : Nat} (hon : s.railOn F.Seq.ON 0 = true) (h2 : s.seqState = 2)
    (hd : 30 < natDist mv (s.get F.Core.TARGET_MV pgCore)) : ∃ u, exec (.coreOutOfWindow mv) s = .next (railFails 0 2 u) ∧
      u.get F.Core.VOUT_MV pgCore = low 10 mv ∧ bitAt (u.get F.Hdr.EVENT_STATUS pgCore) Ev.pwrCoreFault.bit = true := by
  obtain ⟨u, heq, hmid, _, _, hbit⟩ := coreFault_eq 2 mv 0 (s.set F.Core.VOUT_MV pgCore mv)
  refine ⟨u, (congrArg Host.Outcome.next (if_pos ⟨hon, h2, hd⟩)).trans (congrArg Host.Outcome.next heq), ?_, hbit⟩
  rw [hmid.get F.Core.VOUT_MV (by decide) (by decide) (by decide), State.get_set_self]
  rfl

theorem execPhaseShed_not {load : Nat} (h : s.coreRuns = false) : exec (.phaseShed load) s = .next s :=
  congrArg Host.Outcome.next (if_neg (by rw [h]; exact Bool.false_ne_true))

theorem execPhaseShed_runs {load n : Nat} (h : s.coreRuns = true)
    (hn : n = if s.on F.Core.SHED_EN pgCore = true then shedCount ((List.range 8).filter (bitAt (s.get F.Core.PHASES pgCore))).length load else 8) :
    ∃ t, exec (.phaseShed load) s = .next t ∧ t.get F.Core.IOUT pgCore = low 16 load ∧ t.get F.Core.PHASES pgCore = low 8 (s.phaseMask n) := by
  refine ⟨_, congrArg Host.Outcome.next (if_pos h), ?_, ?_⟩
  · exact (State.get_set_off _ (by decide)).trans (State.get_set_self _ _ _ _)
  · have hen : (s.set F.Core.IOUT pgCore load).get F.Core.PHASE_EN pgCore = s.get F.Core.PHASE_EN pgCore := State.get_set_off _ (by decide)
    rw [State.get_set_self, ← hn, State.phaseMask, hen]
    rfl

end

/-- Settles O50, with one lemma per outcome of a command; that polls and alerts are commands of their own, and what a
reading is, are the model's choice (logs 99 and 100). -/
theorem railPollsAndCoreRegulator : Obligations.RailPollsAndCoreRegulator := by
  unfold Obligations.RailPollsAndCoreRegulator
  intro s
  refine ⟨fun _ => execPmbusPoll_not, fun _ => execPmbusPoll_none, ?poll, fun _ _ => execPmbusTimeout_not,
    fun k cmd hk hen hpm => ⟨execPmbusTimeout_first hk hen hpm, execPmbusTimeout_again hk hen hpm⟩, ?alert, ?clear,
    fun _ _ => execCoreOvercurrent_not, fun _ _ => execCoreOvercurrent_stops, fun _ => execCoreOutOfWindow_not,
    fun _ => execCoreOutOfWindow_fails, fun _ _ => railFails_shows, fun _ => execPhaseShed_not, fun _ _ => execPhaseShed_runs⟩
  case poll =>
    intro k mv io n hp hm hk hen hpm hn
    obtain ⟨u, hregs, hout⟩ := execPmbusPoll_outcomes (mv := mv) (io := io) hp hm hk hen hpm hn
    obtain ⟨hiout, hread, hwin, hseq, hfault⟩ := pollShown_shows hk hregs
    exact ⟨u, hiout, hread, hwin, hseq, hfault, hout⟩
  case alert => exact fun words => ⟨forAll words s keepStatus, rfl, keepStatus_all words s⟩
  case clear =>
    intro readings owner v hpass hv
    exact ⟨clearFault readings s, congrArg Host.Outcome.next (gateReg_passes hpass _ _ _), clearFault_spec readings s v hv⟩

end Sys2Proof.Machine
end

section
/-! Housekeeping rounds, the acknowledge of head shutdowns, and the slow-down datagram. -/

-- One declaration after another, as in the files before: the text is also checked in one piece.
set_option Elab.async false

namespace Sys2Proof.Machine

/-! ### A round whose reference reads wrong -/

section
variable {s : State} {code : Nat}

/-- The state of a bad round before its third in a row acts: it is counted, ADC_OK falls and the event is raised. -/
def adcFault (code : Nat) (s : State) : State :=
  let s1 := ((s.sat F.Hk.BAD_ROUNDS pgHk).set F.Hk.ADC_OK pgHk 0).updHk (fun x => { x with bad := x.bad + 1 })
  s1.raise Ev.thermAdcFault pgHk (arg64 (s1.get F.Hk.BAD_ROUNDS pgHk) code)

/-- A die below throttle goes to throttle. -/
def atThrottle (d : Nat) (s : State) : State := if s.get (levelField d) pgThm < 2 ∧ s.ready pgThm then setLevel d 2 s else s

/-- VALID of every channel falls. -/
def valuesGone (s : State) : State := forAll (List.range 64) s (fun ch s => s.setI F.Hk.HK_VALUE_VALID pgHk ch 0)

theorem badRound_eq (code : Nat) (s : State) : badRound code s =
    if (adcFault code s).hk.bad < 3 then adcFault code s else forAll [0, 1, 2] (valuesGone (adcFault code s)) atThrottle := rfl

theorem badRound_few (h : s.hk.bad < 2) : (badRound code s).get F.Hk.BAD_ROUNDS pgHk = low 16 (min (s.get F.Hk.BAD_ROUNDS pgHk + 1) (2 ^ 16 - 1)) ∧
    (badRound code s).on F.Hk.ADC_OK pgHk = false ∧ (badRound code s).hk.bad = s.hk.bad + 1 ∧
    bitAt ((badRound code s).get F.Hdr.EVENT_STATUS pgHk) Ev.thermAdcFault.bit = true ∧
    ∀ ch < 64, (badRound code s).getI F.Hk.HK_VALUE_VALID pgHk ch = s.getI F.Hk.HK_VALUE_VALID pgHk ch := by
  obtain ⟨_, hbad, hmid, _, hcount, hok, hbit⟩ := badRound_start code s _ rfl (adcFault code s) rfl
  have he : badRound code s = adcFault code s := by rw [badRound_eq, if_pos (by omega)]
  rw [he]
  refine ⟨hcount, by rw [State.on, hok]; rfl, hbad, hbit, fun ch hch => ?_⟩
  have hplace : ∀ ch < 64, F.Hk.HK_VALUE_VALID.off + ch * F.Hk.HK_VALUE_VALID.stride < 4096 ∧
      ¬ ((F.Hk.HK_VALUE_VALID.off + ch * F.Hk.HK_VALUE_VALID.stride) * 32 + F.Hk.HK_VALUE_VALID.lo = 512 ∨
        (F.Hk.HK_VALUE_VALID.off + ch * F.Hk.HK_VALUE_VALID.stride) * 32 + F.Hk.HK_VALUE_VALID.lo = 2192 ∨
        (F.Hk.HK_VALUE_VALID.off + ch * F.Hk.HK_VALUE_VALID.stride) * 32 + F.Hk.HK_VALUE_VALID.lo = 2176) := by decide
  exact hmid _ ch (hplace ch hch).1 (by decide) (hplace ch hch).2

theorem valuesGone_pages (s : State) : s.OnPages (valuesGone s) [pgHk] := by
  have hplace : ∀ ch < 64, F.Hk.HK_VALUE_VALID.off + ch * F.Hk.HK_VALUE_VALID.stride < 4096 := by decide
  exact forAll_over _ s _ (fun u => s.OnPages u [pgHk]) (.refl _ _) fun ch hch u hu =>
    hu.setI _ (by decide) (hplace ch (List.mem_range.mp hch)) (by decide)

theorem valuesGone_valid (s : State) {ch : Nat} (hch : ch < 64) : (valuesGone s).getI F.Hk.HK_VALUE_VALID pgHk ch = 0 := by
  refine forAll_est _ s _ (fun u => u.getI F.Hk.HK_VALUE_VALID pgHk ch = 0) ch (List.mem_range.mpr hch)
    (fun u => State.getI_setI_self _ _ _ _ _) fun j _ u hu => ?_
  by_cases h : j = ch
  · rw [h]; exact State.getI_setI_self _ _ _ _ _
  · exact (State.getI_setI_off _ (by show (0x280 + ch * 4) * 32 + F.Hk.HK_VALUE_VALID.lo ≠ (0x280 + j * 4) * 32 + F.Hk.HK_VALUE_VALID.lo; omega)).trans hu

/-- READY of page 0x0A9 stays as a die goes to throttle. -/
theorem setLevel_two_ready {d : Nat} (hd : d < 3) (s : State) : (setLevel d 2 s).ready pgThm = s.ready pgThm := by
  have hplace : ∀ d < 3, (F.Hdr.READY.off + 0 * F.Hdr.READY.stride) * 32 + F.Hdr.READY.lo ≠
      ((levelField d).off + 0 * (levelField d).stride) * 32 + (levelField d).lo := by decide
  by_cases h : s.get (levelField d) pgThm = 2
  · exact congrArg (fun t : State => t.ready pgThm) (if_pos h)
  · have he : setLevel d 2 s = (s.set (levelField d) pgThm 2).raise Ev.thermDieLevel pgThm (unsext 16 (s.dieT d) * 2 ^ 16 + 2 * 16 + d) :=
      (if_neg h).trans (if_neg (by decide))
    rw [he]
    unfold State.ready State.on
    rw [State.get_raise_off _ _ (by decide) (by decide) (by decide) (by decide), State.get_set_off _ (hplace d hd)]

/-- What a die at throttle or above is, while the thermal page is READY. -/
theorem atThrottle_spec {d : Nat} (hd : d < 3) (s : State) (h : s.ready pgThm = true) : s.OnPages (atThrottle d s) [pgThm, pgLedger] ∧
    (atThrottle d s).ready pgThm = true ∧ 2 ≤ (atThrottle d s).get (levelField d) pgThm ∧
    ∀ e < 3, e ≠ d → (atThrottle d s).get (levelField e) pgThm = s.get (levelField e) pgThm := by
  obtain ⟨hpages, hlevel, hothers⟩ := setLevel_two d hd s
  by_cases hlow : s.get (levelField d) pgThm < 2
  · rw [atThrottle, if_pos ⟨hlow, h⟩]
    exact ⟨hpages, (setLevel_two_ready hd s).trans h, hlevel.ge, hothers⟩
  · rw [atThrottle, if_neg fun ⟨hl, _⟩ => hlow hl]
    exact ⟨.refl _ _, h, Nat.not_lt.mp hlow, fun _ _ _ => rfl⟩

theorem atThrottle_pages {d : Nat} (hd : d < 3) (s : State) : s.OnPages (atThrottle d s) [pgThm, pgLedger] := by
  unfold atThrottle
  split
  · exact (setLevel_two d hd s).1
  · exact .refl _ _

/-- The third bad round in a row puts every die at throttle or above. -/
theorem atThrottle_all (s : State) (h : s.ready pgThm = true) {d : Nat} (hd : d < 3) :
    2 ≤ (forAll [0, 1, 2] s atThrottle).get (levelField d) pgThm := by
  rw [forAll_cons, forAll_cons, forAll_cons, forAll_nil]
  obtain ⟨_, r0, l0, _⟩ := atThrottle_spec (d := 0) (by decide) s h
  obtain ⟨_, r1, l1, o1⟩ := atThrottle_spec (d := 1) (by decide) (atThrottle 0 s) r0
  obtain ⟨_, _, l2, o2⟩ := atThrottle_spec (d := 2) (by decide) (atThrottle 1 (atThrottle 0 s)) r1
  match d, hd with
  | 0, _ => rwa [o2 0 (by decide) (by decide), o1 0 (by decide) (by decide)]
  | 1, _ => rwa [o2 1 (by decide) (by decide)]
  | 2, _ => exact l2

theorem badRound_third (h : 2 ≤ s.hk.bad) : (∀ ch < 64, (badRound code s).getI F.Hk.HK_VALUE_VALID pgHk ch = 0) ∧
    (s.ready pgThm = true → ∀ d < 3, 2 ≤ (badRound code s).get (levelField d) pgThm) := by
  obtain ⟨_, hbad, _, hpages, _, _, _⟩ := badRound_start code s _ rfl (adcFault code s) rfl
  have he : badRound code s = forAll [0, 1, 2] (valuesGone (adcFault code s)) atThrottle := by rw [badRound_eq, if_neg (by omega)]
  rw [he]
  refine ⟨fun ch hch => ?_, fun hready d hd => atThrottle_all _ ?_ hd⟩
  · have hplace : ∀ ch < 64, F.Hk.HK_VALUE_VALID.off + ch * F.Hk.HK_VALUE_VALID.stride < 4096 := by decide
    have hlevels : (valuesGone (adcFault code s)).OnPages (forAll [0, 1, 2] (valuesGone (adcFault code s)) atThrottle) [pgThm, pgLedger] :=
      forAll_over _ _ _ (fun u => (valuesGone (adcFault code s)).OnPages u [pgThm, pgLedger]) (.refl _ _) fun d hd u hu =>
        hu.trans (atThrottle_pages ((by decide : ∀ d ∈ [0, 1, 2], d < 3) d hd) u)
    exact (hlevels.getI (by decide) (hplace ch hch) (by decide)).trans (valuesGone_valid _ hch)
  · refine Eq.trans ?_ hready
    unfold State.ready State.on
    rw [(valuesGone_pages _).get (by decide) (by decide) (by decide), hpages.get (by decide) (by decide) (by decide)]

end

/-! ### A round, values, and the datagram -/

section
variable {s : State}

theorem execHkRound_not {raw : List (List Nat)} (h : s.ready pgHk = false ∨ s.modeNow = 0 ∨ s.mode.porst = true) :
    exec (.hkRound raw) s = .next s := by
  refine congrArg Host.Outcome.next (if_neg ?_)
  rintro ⟨hr, hm, hp⟩
  rcases h with h | h | h
  · exact Bool.false_ne_true (h.symm.trans hr)
  · exact hm h
  · exact Bool.false_ne_true (hp.symm.trans h)

theorem execHkRound_runs {raw : List (List Nat)} {codes : List Nat} {u v w : State} (hr : s.ready pgHk = true) (hm : s.modeNow ≠ 0)
    (hp : s.mode.porst = false) (hcodes : codes = (List.range 64).map (fun ch => s.hkCode (raw.getD ch [])))
    (hu : u = if 16 < natDist (codes.getD 15 0) 2047 then badRound (codes.getD 15 0) (s.wrap F.Hk.HK_ROUNDS pgHk)
      else goodRound codes (s.wrap F.Hk.HK_ROUNDS pgHk))
    (hv : v = if u.ready pgThm = true then slowCheck (forAll (List.range Config.ports) (forAll (List.range 8) u typeCheck) headRound) else u)
    (hw : w = if v.ready pgDrv = true then driveRounds v else v) :
    exec (.hkRound raw) s =
      .next (if w.ready pgCore = true then avsUpdate (decide (w.dieT 0 < 0) || decide (w.dieT 1 < 0) || decide (w.dieT 2 < 0)) w else w) := by
  subst hw hv hu hcodes
  exact congrArg Host.Outcome.next (if_pos ⟨hr, hm, hp⟩)

/-- CODE of every channel after the values of a good round are taken. -/
theorem takeValue_all (codes : List Nat) (s : State) {ch : Nat} (hch : ch < 64) :
    (forAll (List.range 64) s (fun ch => takeValue ch (codes.getD ch 0))).getI F.Hk.CODE pgHk ch = low 12 (codes.getD ch 0) := by
  refine forAll_est _ s _ (fun u => u.getI F.Hk.CODE pgHk ch = low 12 (codes.getD ch 0)) ch (List.mem_range.mpr hch)
    (fun u => (takeValue_code ch hch _ u).1) fun j hj u hu => ?_
  by_cases h : ch = j
  · subst h; exact (takeValue_code ch hch _ u).1
  · exact ((takeValue_code j (List.mem_range.mp hj) _ u).2 ch hch h).trans hu

theorem execSlowdownSend_not (h : s.on F.Thm.SLOW_ACTIVE pgThm = false ∨ s.now < s.hk.slowAt + 100000000) : exec .slowdownSend s = .next s :=
  congrArg Host.Outcome.next (if_neg fun ⟨ha, ht⟩ => h.elim (fun h => Bool.false_ne_true (h.symm.trans ha)) (Nat.not_lt.mpr ht))

theorem execSlowdownSend_sends (ha : s.on F.Thm.SLOW_ACTIVE pgThm = true) (ht : s.hk.slowAt + 100000000 ≤ s.now) :
    exec .slowdownSend s = .next (slowSend s.slowFlags s) := congrArg Host.Outcome.next (if_pos ⟨ha, ht⟩)

end

/-- Settles O51, from what a bad round, a value taken, an acknowledge and a datagram each change; the order within a round
and the bytes of the datagram are the model's choice (log 101). -/
theorem housekeepingHeadsAndSlowdown : Obligations.HousekeepingHeadsAndSlowdown := by
  unfold Obligations.HousekeepingHeadsAndSlowdown
  intro s
  exact ⟨fun _ => execHkRound_not, fun _ _ _ _ _ => execHkRound_runs, fun _ => badRound_few, fun _ => badRound_third,
    fun codes _ => takeValue_all codes s,
    fun hi mask owner hpass => ⟨headAck hi mask s, congrArg Host.Outcome.next (gateReg_passes hpass _ _ _), headAck_spec hi mask s⟩,
    execSlowdownSend_not, fun ha ht => ⟨_, execSlowdownSend_sends ha ht, slowSend_hk s.slowFlags s⟩⟩

end Sys2Proof.Machine
end

section
/-! The journal at work, its closing, SAVE, and host operations on the NOR. -/

-- One declaration after another, as in the files before: the text is also checked in one piece.
set_option Elab.async false

namespace Sys2Proof.Machine

/-! ### Records and the next record -/

section
variable {s v : State} {o : JObj}

theorem execJournalRecordProgrammed_not {ok : Bool} (h : s.jrn.prog = none) : exec (.journalRecordProgrammed ok) s = .next s :=
  congrArg Host.Outcome.next (if_neg (by rw [h]; exact Bool.false_ne_true))

theorem execJournalRecordProgrammed_ends {ok : Bool} {r : JRec} (h : s.jrn.prog = some r) :
    exec (.journalRecordProgrammed ok) s = .next (journalNext (recordEnds ok s)) := congrArg Host.Outcome.next (if_pos (by rw [h]; rfl))

theorem objDone_save (ho : o.type = 1) (v : State) : (objDone o v).get F.Nor.SAVE_BUSY pgSto = 0 := by
  rw [objDone, if_pos ho, State.get_set_self]; rfl

theorem objFail_save (ho : o.type = 1) (why : Nat) (v : State) : (objFail why o v).get F.Nor.SAVE_BUSY pgSto = 0 ∧
    bitAt ((objFail why o v).get F.Hdr.EVENT_STATUS pgSto) Ev.bootSaveFail.bit = true := by
  rw [objFail, if_pos ho]
  refine ⟨?_, State.raise_bit _ _ _ (by decide) (by decide)⟩
  rw [State.get_raise_off _ _ (by decide) (by decide) (by decide) (by decide), State.get_set_self]; rfl

/-- The journal takes its next step where nothing programs and no area is being erased. -/
theorem journalNext_guard (hopen : v.journalOpen = true) (hprog : v.jrn.prog = none) (herase : v.jrn.erasing = false) :
    ¬ (!v.journalOpen || v.jrn.prog.isSome || v.jrn.erasing) = true := by
  rw [hopen, hprog, herase]; exact Bool.false_ne_true

theorem journalNext_continues {k : Nat} (hopen : v.journalOpen = true) (hprog : v.jrn.prog = none) (herase : v.jrn.erasing = false)
    (hcur : v.jrn.cur = some (o, k)) : (journalNext v).jrn.prog = some (o.record (v.get F.Nor.LAST_SEQ pgSto + 1) k) := by
  have hguard := journalNext_guard hopen hprog herase
  unfold journalNext
  dsimp only
  rw [if_neg hguard]
  split
  · next o' k' hsome =>
    obtain ⟨rfl, rfl⟩ : o = o' ∧ k = k' := by simpa [hcur] using hsome
    rfl
  · next hnone => exact absurd (hcur.symm.trans hnone) nofun

/-- The next object of the queue, after compaction where it does not fit. -/
theorem journalNext_takes {rest : List JObj} (hopen : v.journalOpen = true) (hprog : v.jrn.prog = none) (herase : v.jrn.erasing = false)
    (hcur : v.jrn.cur = none) (hq : v.jrn.queue = o :: rest) : journalNext v =
      if v.freeSlots < o.count + 10 then v.updJrn (fun j =>
        if v.on F.Nor.ACTIVE_AREA pgSto then { j with erasing := true, a := [] } else { j with erasing := true, b := [] })
      else v.updJrn (fun j => { j with
        queue := rest, cur := some (o, 0), prog := some (o.record (v.get F.Nor.LAST_SEQ pgSto + 1) 0) }) := by
  have hguard := journalNext_guard hopen hprog herase
  unfold journalNext
  dsimp only
  rw [if_neg hguard]
  split
  · next hsome => exact absurd (hcur.symm.trans hsome) nofun
  · split
    · next hnil => exact absurd (hq.symm.trans hnil) nofun
    · next o' rest' hcons =>
      obtain ⟨rfl, rfl⟩ : o = o' ∧ rest = rest' := by simpa [hq] using hcons
      rfl

theorem journalNext_erases {rest : List JObj} (hopen : v.journalOpen = true) (hprog : v.jrn.prog = none) (herase : v.jrn.erasing = false)
    (hcur : v.jrn.cur = none) (hq : v.jrn.queue = o :: rest) (hfull : v.freeSlots < o.count + 10) : (journalNext v).jrn.erasing = true := by
  rw [journalNext_takes hopen hprog herase hcur hq, if_pos hfull]
  show (if v.on F.Nor.ACTIVE_AREA pgSto = true then _ else _ : JournalX).erasing = true
  split <;> rfl

theorem journalNext_begins {rest : List JObj} (hopen : v.journalOpen = true) (hprog : v.jrn.prog = none) (herase : v.jrn.erasing = false)
    (hcur : v.jrn.cur = none) (hq : v.jrn.queue = o :: rest) (hfits : o.count + 10 ≤ v.freeSlots) :
    (journalNext v).jrn.prog = some (o.record (v.get F.Nor.LAST_SEQ pgSto + 1) 0) ∧ (journalNext v).jrn.queue = rest := by
  rw [journalNext_takes hopen hprog herase hcur hq, if_neg (Nat.not_lt.mpr hfits)]
  exact ⟨rfl, rfl⟩

end

/-! ### The end of an erase -/

section
variable {s u : State}

/-- What compaction leaves in the area that becomes active. -/
def compactResult (s : State) : List JSlot × Nat :=
  compacted ((s.get F.Nor.GENERATION pgSto + 1) % 2 ^ 32) (s.get F.Nor.LAST_SEQ pgSto) s.toCopy

/-- The registers once the compacted area is the active one. -/
def compactRegs (s : State) : State :=
  ((s.set F.Nor.ACTIVE_AREA pgSto (1 - s.get F.Nor.ACTIVE_AREA pgSto)).set F.Nor.GENERATION pgSto ((s.get F.Nor.GENERATION pgSto + 1) % 2 ^ 32)).set
    F.Nor.LAST_SEQ pgSto (compactResult s).2

/-- An area is written whole, and the erase is over. -/
def eraseOver (l : List JSlot) (s : State) : State := (setArea l s).updJrn (fun j => { j with erasing := false })

/-- The compacted area is the active one. -/
def compactDone (s : State) : State := eraseOver (compactResult s).1 (compactRegs s)

/-- The object that made the erase necessary is taken, or fails where it still does not fit. -/
def afterErase (u : State) : State :=
  match u.jrn.queue with
  | o :: rest =>
    if u.freeSlots < o.count + 10 then journalNext (objFail 1 o (u.updJrn (fun j => { j with queue := rest }))) else journalNext u
  | [] => u

theorem execJournalEraseDone_not (h : s.jrn.erasing = false) : exec .journalEraseDone s = .next s :=
  congrArg Host.Outcome.next (if_neg (by rw [h]; exact Bool.false_ne_true))

theorem execJournalEraseDone_ends (h : s.jrn.erasing = true) : exec .journalEraseDone s = .next (afterErase (compactDone s)) :=
  congrArg Host.Outcome.next (if_pos h)

theorem afterErase_nil (h : u.jrn.queue = []) : afterErase u = u := by rw [afterErase, h]

theorem afterErase_cons {o : JObj} {rest : List JObj} (h : u.jrn.queue = o :: rest) :
    afterErase u = if u.freeSlots < o.count + 10 then journalNext (objFail 1 o (u.updJrn (fun j => { j with queue := rest }))) else journalNext u := by
  rw [afterErase, h]

theorem eraseOver_regs (l : List JSlot) (s : State) : (eraseOver l s).regs = s.regs := setArea_regs l s

theorem eraseOver_area (l : List JSlot) (s : State) : (eraseOver l s).area = l := setArea_area l s

theorem eraseOver_queue (l : List JSlot) (s : State) : (eraseOver l s).jrn.queue = s.jrn.queue := (setArea_jrn l s).2.2.1

theorem compactDone_get (f : Fld) (s : State) : (compactDone s).get f pgSto = (compactRegs s).get f pgSto := by
  rw [compactDone, get_of_regs (eraseOver_regs _ _)]

theorem compactDone_regs (s : State) : (compactDone s).get F.Nor.ACTIVE_AREA pgSto = low 1 (1 - s.get F.Nor.ACTIVE_AREA pgSto) ∧
    (compactDone s).get F.Nor.GENERATION pgSto = (s.get F.Nor.GENERATION pgSto + 1) % 2 ^ 32 ∧
    (compactDone s).get F.Nor.LAST_SEQ pgSto = low 32 (compactResult s).2 := by
  rw [compactDone_get, compactDone_get, compactDone_get, compactRegs]
  refine ⟨?_, ?_, State.get_set_self _ _ _ _⟩
  · rw [State.get_set_off _ (by decide), State.get_set_off _ (by decide), State.get_set_self]; rfl
  · rw [State.get_set_off _ (by decide), State.get_set_self]
    exact low_of_lt (Nat.mod_lt _ (by decide))

theorem compactDone_area (s : State) : (compactDone s).area = (compactResult s).1 := by rw [compactDone, eraseOver_area]

theorem compactDone_queue (s : State) : (compactDone s).jrn.queue = s.jrn.queue := by rw [compactDone, eraseOver_queue]; rfl

end

/-! ### The closing, and SAVE -/

section
variable {s : State}

theorem execJournalClose_not (h : s.jrn.closing = none ∨ s.jrn.closed = true) : exec .journalClose s = .next s := by
  show execJournalClose s = _
  unfold execJournalClose
  split
  · next hsome => exact congrArg Host.Outcome.next (if_pos (h.resolve_left fun hnone => absurd (hnone.symm.trans hsome) nofun))
  · rfl

theorem execJournalClose_closes {cause : Nat} (h : s.jrn.closing = some cause) (hc : s.jrn.closed = false) :
    exec .journalClose s = .next (startFall (if cause = 2 then 3 else 1) (journalClose cause s)) := by
  show execJournalClose s = _
  unfold execJournalClose
  split
  · next c hsome =>
    obtain rfl : cause = c := by simpa [h] using hsome
    exact congrArg Host.Outcome.next (if_neg (by rw [hc]; exact Bool.false_ne_true))
  · next hnone => exact absurd (h.symm.trans hnone) nofun

/-- CLOSE of an idle journal takes the next slot. -/
theorem journalClose_area (cause : Nat) (hprog : s.jrn.prog = none) (hop : s.norOp ≠ 2) (hr : s.ready pgSto = true) (hf : 0 < s.freeSlots) :
    (journalClose cause s).area = s.area ++ [.good ⟨s.get F.Nor.LAST_SEQ pgSto + 1, 0x0F, 0, 0, true, s.closeBytes cause⟩] := by
  have he : journalClose cause s = (appendSlot (.good ⟨s.get F.Nor.LAST_SEQ pgSto + 1, 0x0F, 0, 0, true, s.closeBytes cause⟩)
      (s.get F.Nor.LAST_SEQ pgSto + 1) s).updJrn (fun j => { j with closed := true }) := by
    unfold journalClose
    dsimp only
    rw [if_neg hop, recordEnds_none true s hprog, if_pos ⟨hr, hf⟩]
  rw [he]
  exact (appendSlot_spec _ _ s).1

theorem execJournalSave_passes {pg owner : Nat} (h : s.passes pgSto owner = true) :
    exec (.journalSave pg owner) s = .next (journalSave (low 8 pg) (s.set F.Nor.SAVE_PAGE pgSto pg)) :=
  congrArg Host.Outcome.next (gateReg_passes h _ _ _)

variable {v : State} {pg : Nat}

theorem journalSave_ignored (h : v.on F.Nor.SAVE_BUSY pgSto = true ∨ v.retBytes pg = []) : journalSave pg v = v :=
  if_pos (h.imp_right List.isEmpty_iff.mpr)

/-- A save of a page with settings while none is in progress. -/
theorem journalSave_guard (hb : v.on F.Nor.SAVE_BUSY pgSto = false) (hd : v.retBytes pg ≠ []) :
    ¬ (v.on F.Nor.SAVE_BUSY pgSto = true ∨ (v.retBytes pg).isEmpty = true) := by
  rw [hb]
  exact not_or.mpr ⟨Bool.false_ne_true, fun h => hd (List.isEmpty_iff.mp h)⟩

theorem journalSave_asks (hb : v.on F.Nor.SAVE_BUSY pgSto = false) (hd : v.retBytes pg ≠ []) (ho : v.journalOpen = true) :
    journalSave pg v = journalAsk ⟨1, pg, v.retBytes pg⟩ (v.set F.Nor.SAVE_BUSY pgSto 1) := (if_neg (journalSave_guard hb hd)).trans (if_pos ho)

theorem journalSave_closed (hb : v.on F.Nor.SAVE_BUSY pgSto = false) (hd : v.retBytes pg ≠ []) (ho : v.journalOpen = false) :
    bitAt ((journalSave pg v).get F.Hdr.EVENT_STATUS pgSto) Ev.bootSaveFail.bit = true := by
  rw [show journalSave pg v = v.raise Ev.bootSaveFail pgSto (2 * 256 + pg) from
    (if_neg (journalSave_guard hb hd)).trans (if_neg (by rw [ho]; exact Bool.false_ne_true))]
  exact State.raise_bit _ _ _ (by decide) (by decide)

end

/-! ### Host operations on the NOR -/

section
variable {s : State} {op a : Nat}

/-- The three commands are the writes of NOR_CTRL with GO. -/
theorem exec_norGo {c : Instr} {owner : Nat} (h : s.passes pgSto owner = true)
    (hc : (op, c) ∈ [(1, Instr.norReadPage owner), (2, .norProgramPage owner), (3, .norEraseSector owner)]) :
    exec c s = .next (norGo op s) ∧ op ≠ 0 := by
  simp only [List.mem_cons, List.not_mem_nil, or_false, Prod.mk.injEq] at hc
  obtain ⟨rfl, rfl⟩ | ⟨rfl, rfl⟩ | ⟨rfl, rfl⟩ := hc
  · exact ⟨congrArg Host.Outcome.next (gateReg_passes h _ _ _), by decide⟩
  · exact ⟨congrArg Host.Outcome.next (gateReg_passes h _ _ _), by decide⟩
  · exact ⟨congrArg Host.Outcome.next (gateReg_passes h _ _ _), by decide⟩

theorem execNorOpDone_not (h1 : s.get F.Nor.NOR_STATUS_STATE pgSto ≠ 1) (h2 : s.get F.Nor.NOR_STATUS_STATE pgSto ≠ 2) :
    exec .norOpDone s = .next s := congrArg Host.Outcome.next ((if_neg h2).trans (if_neg fun h => h1 h.1))

theorem execNorOpDone_begins (h1 : s.get F.Nor.NOR_STATUS_STATE pgSto = 1) (hp : s.jrn.prog = none) (he : s.jrn.erasing = false) :
    exec .norOpDone s = .next (s.set F.Nor.NOR_STATUS_STATE pgSto 2) :=
  congrArg Host.Outcome.next ((if_neg (by rw [h1]; decide)).trans (if_pos ⟨h1, hp, he⟩))

theorem execNorOpDone_waits (h1 : s.get F.Nor.NOR_STATUS_STATE pgSto = 1) (h : s.jrn.prog ≠ none ∨ s.jrn.erasing = true) :
    exec .norOpDone s = .next s := by
  refine congrArg Host.Outcome.next ((if_neg (by rw [h1]; decide)).trans (if_neg ?_))
  rintro ⟨_, hp, he⟩
  exact h.elim (fun h => h hp) fun h => Bool.false_ne_true (he.symm.trans h)

theorem execNorOpDone_done (h2 : s.get F.Nor.NOR_STATUS_STATE pgSto = 2) : exec .norOpDone s = .next (norDone s) :=
  congrArg Host.Outcome.next (if_pos h2)

/-- The operation in progress, its page and its sector. -/
theorem norJob_parts (h2 : s.get F.Nor.NOR_STATUS_STATE pgSto = 2) (hj : s.cpu.norJob = some (op, a)) :
    s.norOp = op ∧ s.norPage = a / 256 * 256 ∧ s.norSector = a / 65536 * 65536 := by
  unfold State.norOp State.norPage State.norSector
  rw [if_pos h2, hj]
  exact ⟨rfl, rfl, rfl⟩

theorem norDone_read (h2 : s.get F.Nor.NOR_STATUS_STATE pgSto = 2) (hj : s.cpu.norJob = some (1, a)) :
    norDone s = setAptBytes pgSto 0 (s.norBytes (a / 256 * 256) 256) (s.set F.Nor.NOR_STATUS_STATE pgSto 3) := by
  obtain ⟨hop, hpage, _⟩ := norJob_parts h2 hj
  rw [norDone, hop, hpage]
  exact if_pos rfl

/-- The byte of the buffer that a program takes at a place of its page. -/
def bufferByte (s : State) (i : Nat) : Byte := BitVec.ofNat 8 (s.apt pgSto (i / 4 * 4) / 256 ^ (i % 4))

/-- What a byte of the NOR becomes as it is programmed. -/
def programmed (s : State) (old : Byte) (i : Nat) : Byte := if old = 0xFF then bufferByte s i else Config.norOver old (bufferByte s i)

/-- A byte of a page is programmed. -/
def programByte (a i : Nat) (s : State) : State :=
  { s with cpu := { s.cpu with nor := tputD s.cpu.nor (a + i) (programmed s (s.norByte (a + i)) i) 0xFF } }

theorem norProgram_eq (s : State) : norProgram s = forAll (List.range 256) s (programByte s.norPage) := rfl

theorem norDone_program (h2 : s.get F.Nor.NOR_STATUS_STATE pgSto = 2) (hj : s.cpu.norJob = some (2, a))
    (hout : a / 256 * 256 + 256 ≤ areaBase ∨ areaBase + 2 * areaBytes ≤ a / 256 * 256) : (norDone s).get F.Nor.NOR_STATUS_STATE pgSto = 3 ∧
      ∀ k, tget (norDone s).cpu.nor k 0xFF = if a / 256 * 256 ≤ k ∧ k < a / 256 * 256 + 256 then
        programmed s (tget s.cpu.nor k 0xFF) (k - a / 256 * 256) else tget s.cpu.nor k 0xFF := by
  obtain ⟨hop, hpage, _⟩ := norJob_parts h2 hj
  have he : norDone s = forAll (List.range 256) (s.set F.Nor.NOR_STATUS_STATE pgSto 3) (programByte (a / 256 * 256)) := by
    rw [norDone, hop]
    refine (if_neg (by decide)).trans ((if_pos rfl).trans ?_)
    rw [norProgram_eq]
    exact congrArg (fun p => forAll (List.range 256) (s.set F.Nor.NOR_STATUS_STATE pgSto 3) (programByte p)) hpage
  obtain ⟨N, hforAll, hN⟩ := norOverwrite (a / 256 * 256) (programmed s) (programByte (a / 256 * 256)) 256 (s.set F.Nor.NOR_STATUS_STATE pgSto 3)
    fun i hi t _ hapt _ => by
      have hbyte : t.norByte (a / 256 * 256 + i) = tget t.cpu.nor (a / 256 * 256 + i) 0xFF := if_pos (by omega)
      have hbuffer : bufferByte t = bufferByte s := by funext j; unfold bufferByte State.apt; rw [hapt]; rfl
      rw [programByte, hbyte]
      unfold programmed
      rw [hbuffer]
  rw [he, hforAll]
  exact ⟨(get_of_regs (s := s.set F.Nor.NOR_STATUS_STATE pgSto 3) rfl _ _).trans (State.get_set_self _ _ _ _), hN⟩

theorem norDone_erase (h2 : s.get F.Nor.NOR_STATUS_STATE pgSto = 2) (hj : s.cpu.norJob = some (3, a)) :
    (norDone s).get F.Nor.NOR_STATUS_STATE pgSto = 3 ∧
      ∀ k, tget (norDone s).cpu.nor k 0xFF = if a / 65536 * 65536 ≤ k ∧ k < a / 65536 * 65536 + 65536 then 0xFF else tget s.cpu.nor k 0xFF := by
  obtain ⟨hop, _, hsector⟩ := norJob_parts h2 hj
  have he : norDone s = forAll (List.range 65536) (s.set F.Nor.NOR_STATUS_STATE pgSto 3)
      (fun i s => { s with cpu := { s.cpu with nor := tputD s.cpu.nor (s.norSector + i) 0xFF 0xFF } }) := by
    rw [norDone, hop]
    exact (if_neg (by decide)).trans ((if_neg (by decide)).trans (if_pos rfl))
  obtain ⟨N, hforAll, hN⟩ := norOverwrite (a / 65536 * 65536) (fun _ _ => 0xFF)
    (fun i s => { s with cpu := { s.cpu with nor := tputD s.cpu.nor (s.norSector + i) 0xFF 0xFF } }) 65536 (s.set F.Nor.NOR_STATUS_STATE pgSto 3)
    fun i _ t _ _ hjob => by
      have : t.norSector = a / 65536 * 65536 := by
        rw [← hsector]; unfold State.norSector; rw [hjob]; rfl
      rw [this]
  rw [he, hforAll]
  exact ⟨(get_of_regs (s := s.set F.Nor.NOR_STATUS_STATE pgSto 3) rfl _ _).trans (State.get_set_self _ _ _ _), hN⟩

end

/-- Settles O55, from what one record, one compaction, one closing and one NOR operation change; that they end by commands
of their own is the model's choice (log 105). -/
theorem journalAndHostNor : Obligations.JournalAndHostNor := by
  unfold Obligations.JournalAndHostNor
  intro s
  refine ⟨fun _ => execJournalRecordProgrammed_not, ?record, ?next, execJournalEraseDone_not, ?erase, execJournalClose_not, ?close, ?save, ?norGo,
    execNorOpDone_not, execNorOpDone_begins, execNorOpDone_waits, ?norDone⟩
  case record =>
    intro ok r hprog
    obtain ⟨v, harea, hseq, hnoProg, hnoCur, hqueue, hnone, hsome⟩ := recordEnds_spec ok s r hprog
    rw [execJournalRecordProgrammed_ends hprog]
    refine ⟨v, harea, hseq, hnoProg, hnoCur, hqueue, fun hc => by rw [hnone hc], fun o k hc => ?_⟩
    obtain ⟨hfail, hdone, hgoes⟩ := hsome o k hc
    exact ⟨fun h => by rw [hfail h], fun h hl => by rw [hdone h hl], fun h hl => by rw [hgoes h hl]⟩
  case next =>
    exact fun v => ⟨fun o ho => ⟨objDone_save ho v, fun why => objFail_save ho why v⟩, fun _ _ => journalNext_continues,
      fun _ _ hopen hprog herase hcur hq => ⟨journalNext_erases hopen hprog herase hcur hq, journalNext_begins hopen hprog herase hcur hq⟩⟩
  case erase =>
    intro herase gen c hgen hc
    subst hgen
    obtain rfl : c = compactResult s := hc
    obtain ⟨hactive, hgeneration, hseq⟩ := compactDone_regs s
    rw [execJournalEraseDone_ends herase]
    refine ⟨compactDone s, hactive, hgeneration, hseq, compactDone_area s, rfl, compactDone_queue s, fun hq => ?_, fun o rest hq => ⟨fun hfull => ?_, fun hfits => ?_⟩⟩
    · rw [afterErase_nil ((compactDone_queue s).trans hq)]
    · rw [afterErase_cons ((compactDone_queue s).trans hq), if_pos hfull]
    · rw [afterErase_cons ((compactDone_queue s).trans hq), if_neg (Nat.not_lt.mpr hfits)]
  case close =>
    exact fun cause hc hn => ⟨journalClose cause s, execJournalClose_closes hc hn, rfl, journalClose_area cause⟩
  case save =>
    intro pg owner v hpass hv
    subst hv
    rw [execJournalSave_passes hpass]
    exact ⟨fun h => by rw [journalSave_ignored h], fun hb hd ho => by rw [journalSave_asks hb hd ho],
      fun hb hd ho => ⟨_, rfl, journalSave_closed hb hd ho⟩⟩
  case norGo =>
    intro op c owner hpass hc
    obtain ⟨hexec, hop⟩ := exec_norGo hpass hc
    rw [hexec]
    refine ⟨fun h => by rw [norGo_busy op s h], fun h1 h2 h3 => ?_⟩
    obtain ⟨hrefused, hruns⟩ := norGo_free op hop s h1 h2 h3
    refine ⟨fun hwhy => ?_, fun hwhy => ?_⟩
    · obtain ⟨t, ht, facts⟩ := hrefused hwhy
      exact ⟨t, by rw [ht], facts⟩
    · obtain ⟨t, ht, facts⟩ := hruns hwhy
      exact ⟨t, by rw [ht], facts⟩
  case norDone =>
    intro op a h2 hj
    rw [execNorOpDone_done h2]
    refine ⟨fun hop => ?_, fun hop hout => ?_, fun hop => ?_⟩
    · subst hop; rw [norDone_read h2 hj]
    · subst hop; exact ⟨_, rfl, norDone_program h2 hj hout⟩
    · subst hop; exact ⟨_, rfl, norDone_erase h2 hj⟩

end Sys2Proof.Machine
end

section
/-! Watchdogs, RELEASE and cache errors of the host cores; RUN and faults of the tender cores. -/

-- One declaration after another, as in the files before: the text is also checked in one piece.
set_option Elab.async false

namespace Sys2Proof.Machine

/-- Two tests that agree on the members of a list find one there alike. -/
theorem any_of_members {l : List Nat} {p q : Nat → Bool} (h : ∀ k ∈ l, p k = q k) : l.any p = l.any q := by
  rw [Bool.eq_iff_iff, List.any_eq_true, List.any_eq_true]
  exact exists_congr fun k => and_congr_right fun hk => by rw [h k hk]

/-! ### Host cores -/

section
variable {s : State}

theorem execCpuWatchdog_not {k : Nat} (h : 4 ≤ k ∨ s.getI F.Cpu.LIMIT pgCpu k = 0 ∨
    s.now < tget s.cpu.kickAt k 0 + s.getI F.Cpu.LIMIT pgCpu k * 1000000) : exec (.cpuWatchdog k) s = .next s := by
  refine congrArg Host.Outcome.next (if_neg ?_)
  rintro ⟨hk, hl, ht⟩
  rcases h with h | h | h
  · exact Nat.not_le.mpr hk h
  · exact hl h
  · exact Nat.not_lt.mpr ht h

/-- A bite before it acts on the core: the count restarts and the event is raised. -/
def coreBitten (k : Nat) (s : State) : State :=
  (s.updCpu (fun x => { x with kickAt := tput x.kickAt k s.now })).raise Ev.cpuWatchdog pgCpu (bit (s.onI F.Cpu.ACTION pgCpu k) * 256 + k)

theorem coreBitten_pages (k : Nat) (s : State) : s.OnPages (coreBitten k s) [pgCpu, pgLedger] :=
  (State.OnPages.of_regs (State.updCpu_regs s _)).raise _ _ (by decide) (by decide) (by decide)

theorem coreBitten_kickAt (k : Nat) (s : State) : tget (coreBitten k s).cpu.kickAt k 0 = s.now := by
  rw [coreBitten, State.raise_cpu]
  exact tget_tput_self s.cpu.kickAt k s.now 0

theorem coreBitten_bit (k : Nat) (s : State) : bitAt ((coreBitten k s).get F.Hdr.EVENT_STATUS pgCpu) Ev.cpuWatchdog.bit = true :=
  State.raise_bit _ _ _ (by decide) (by decide)

theorem execCpuWatchdog_bites {k : Nat} (hk : k < 4) (hl : s.getI F.Cpu.LIMIT pgCpu k ≠ 0)
    (ht : tget s.cpu.kickAt k 0 + s.getI F.Cpu.LIMIT pgCpu k * 1000000 ≤ s.now) :
    exec (.cpuWatchdog k) s = .next (if s.onI F.Cpu.ACTION pgCpu k then breakLocks (hostAgent k) (coreBitten k s) else coreBitten k s) :=
  congrArg Host.Outcome.next (if_pos ⟨hk, hl, ht⟩)

/-- What a bite changes: with ACTION 1 the core loses its locks. -/
theorem bite_spec {k : Nat} {t : State}
    (ht : t = if s.onI F.Cpu.ACTION pgCpu k then breakLocks (hostAgent k) (coreBitten k s) else coreBitten k s) :
    tget t.cpu.kickAt k 0 = s.now ∧ bitAt (t.get F.Hdr.EVENT_STATUS pgCpu) Ev.cpuWatchdog.bit = true ∧
      s.LosesLocks t (fun a => s.onI F.Cpu.ACTION pgCpu k && a == hostAgent k) := by
  have hlocks := locks_onPages (coreBitten_pages k s) (by decide)
  subst ht
  cases hact : s.onI F.Cpu.ACTION pgCpu k with
  | true =>
    obtain ⟨hpages, hcpu, _, hloses⟩ := breakLocks_spec (hostAgent k) (coreBitten k s)
    rw [if_pos rfl]
    refine ⟨by rw [hcpu, coreBitten_kickAt], by rw [hpages.get (by decide) (by decide) (by decide), coreBitten_bit], ?_⟩
    exact losesLocks_before hlocks hloses
  | false =>
    rw [if_neg Bool.false_ne_true]
    exact ⟨coreBitten_kickAt k s, coreBitten_bit k s, losesLocks_of_locks hlocks _ fun _ => rfl⟩

theorem execWatchdogKick_not {k owner : Nat} (h : 4 ≤ k) : exec (.watchdogKick k owner) s = .next s :=
  congrArg Host.Outcome.next (if_neg (Nat.not_lt.mpr h))

theorem execWatchdogKick_kicks {k owner : Nat} (hk : k < 4) (h : s.passes pgCpu owner = true) :
    exec (.watchdogKick k owner) s = .next (s.updCpu (fun x => { x with kickAt := tput x.kickAt k s.now })) :=
  congrArg Host.Outcome.next ((if_pos hk).trans (gateReg_passes h _ _ _))

/-- A core of RELEASE runs or is held, and one that is held again loses its locks. -/
theorem hostRelease_runs (mask : Nat) (s : State) : (hostRelease mask s).get F.Cpu.RELEASE pgCpu = low 3 (mask / 2) ∧
    (∀ k, bitAt (hostRelease mask s).cpu.running k = if k ∈ [1, 2, 3] then bitAt mask k else bitAt s.cpu.running k) ∧
    s.LosesLocks (hostRelease mask s) (fun a => [1, 2, 3].any (fun k => bitAt s.cpu.running k && !bitAt mask k && a == hostAgent k)) := by
  obtain ⟨hpages, hrunning, hloses⟩ := hostRelease_spec mask [1, 2, 3] (by decide) _ rfl (s.set F.Cpu.RELEASE pgCpu (mask / 2))
  have hset : s.OnPages (s.set F.Cpu.RELEASE pgCpu (mask / 2)) [pgCpu] := (State.OnPages.refl s _).set _ (by decide) (by decide) (by decide)
  exact ⟨(hpages.get (by decide) (by decide) (by decide)).trans (State.get_set_self _ _ _ _), hrunning,
    losesLocks_before (locks_onPages hset (by decide)) hloses⟩

theorem execHostCoreRelease_passes {mask owner : Nat} (h : s.passes pgCpu owner = true) :
    exec (.hostCoreRelease mask owner) s = .next (hostRelease (low 4 mask) s) := congrArg Host.Outcome.next (gateReg_passes h _ _ _)

/-- A dirty L2 line with an error is remembered. -/
def lineBad (core addr : Nat) (dirty : Bool) (s : State) : State :=
  if core = 4 ∧ dirty then s.updCpu (fun x => { x with l2Bad := execCacheError.putLine x.l2Bad (low 40 addr / 64) }) else s

theorem lineBad_mem (core addr l : Nat) (dirty : Bool) (s : State) :
    l ∈ (lineBad core addr dirty s).cpu.l2Bad ↔ l ∈ s.cpu.l2Bad ∨ (core = 4 ∧ dirty = true ∧ l = low 40 addr / 64) := by
  unfold lineBad
  split
  · next h => exact (putLine_mem s.cpu.l2Bad _ l).trans (or_congr_right ⟨fun hl => ⟨h.1, h.2, hl⟩, fun hl => hl.2.2⟩)
  · next h => exact ⟨.inl, fun hl => hl.resolve_right fun hl => h ⟨hl.1, hl.2.1⟩⟩

theorem execCacheError_not {core addr : Nat} {dirty : Bool} (h : 4 < core) : exec (.cacheError core addr dirty) s = .next s :=
  congrArg Host.Outcome.next (if_neg (Nat.not_le.mpr h))

theorem execCacheError_raises {core addr : Nat} {dirty : Bool} (h : core ≤ 4) : exec (.cacheError core addr dirty) s =
    .next ((lineBad core addr dirty s).raise Ev.cpuCacheError pgCpu (low 40 addr * 2 ^ 24 + core)) := congrArg Host.Outcome.next (if_pos h)

end

/-! ### Tender cores -/

section
variable {s : State}

theorem execTenderRun_passes {mask owner : Nat} (h : s.passes pgCpu owner = true) :
    exec (.tenderRun mask owner) s = .next (tenderRun (low 4 mask) s) := congrArg Host.Outcome.next (gateReg_passes h _ _ _)

/-- What a write of RUN changes at every tender core. -/
theorem tenderRun_runs (mask : Nat) (s : State) : (tenderRun mask s).get F.Cpu.RUN pgCpu = low 4 mask ∧
    (∀ r, if r ∈ List.range Config.regions ∧ bitAt (s.get F.Cpu.RUN pgCpu) r ≠ bitAt mask r then
        (∀ d < 2, (tenderRun mask s).mbox r d = []) ∧ bitAt (tenderRun mask s).cpu.halted r = (bitAt s.cpu.halted r && !bitAt mask r)
      else (∀ d < 2, (tenderRun mask s).mbox r d = s.mbox r d) ∧ bitAt (tenderRun mask s).cpu.halted r = bitAt s.cpu.halted r) ∧
    s.LosesLocks (tenderRun mask s) (fun a => (List.range Config.regions).any (fun r =>
      bitAt (s.get F.Cpu.RUN pgCpu) r && !bitAt mask r && a == tenderAgent r)) := by
  obtain ⟨hpages, hcores, hloses⟩ := tenderRun_spec (s.get F.Cpu.RUN pgCpu) mask (List.range Config.regions) List.nodup_range _ rfl
    (s.set F.Cpu.RUN pgCpu mask)
  have hset : s.OnPages (s.set F.Cpu.RUN pgCpu mask) [pgCpu] := (State.OnPages.refl s _).set _ (by decide) (by decide) (by decide)
  exact ⟨(hpages.get (by decide) (by decide) (by decide)).trans (State.get_set_self _ _ _ _), hcores,
    losesLocks_before (locks_onPages hset (by decide)) hloses⟩

theorem execTenderFault_not {r kind addr : Nat} (h : 4 ≤ r ∨ s.tenderRuns r = false ∨ (kind ≠ 1 ∧ kind ≠ 2)) :
    exec (.tenderFault r kind addr) s = .next s := by
  refine congrArg Host.Outcome.next (if_neg ?_)
  rintro ⟨hr, hruns, hkind⟩
  rcases h with h | h | ⟨h1, h2⟩
  · exact Nat.not_lt.mpr h hr
  · exact Bool.false_ne_true (h.symm.trans hruns)
  · exact hkind.elim h1 h2

/-- A tender halts and its event is raised. -/
def tenderHalts (r a : Nat) (s : State) : State :=
  (s.updCpu (fun x => { x with halted := setBit x.halted r })).raise Ev.cpuTenderFault pgCpu a

/-- A tender that halts loses its locks and the messages of its mailbox, and its phase is abandoned. -/
def tenderFaulted (r a : Nat) (s : State) : State := trkFault r (mboxClear r (breakLocks (tenderAgent r) (tenderHalts r a s)))

theorem execTenderFault_halts {r kind addr : Nat} (hr : r < 4) (hruns : s.tenderRuns r = true) (hkind : kind = 1 ∨ kind = 2) :
    exec (.tenderFault r kind addr) s = .next (tenderFaulted r (arg64 addr (kind * 16 + r)) s) :=
  congrArg Host.Outcome.next (if_pos ⟨hr, hruns, hkind⟩)

theorem tenderFaulted_spec (r a : Nat) (s : State) : bitAt (tenderFaulted r a s).cpu.halted r = true ∧
    (tenderFaulted r a s).mbox r 0 = [] ∧ (tenderFaulted r a s).mbox r 1 = [] ∧ (∀ p ∈ (tenderFaulted r a s).trk.pend, regionOf p ≠ r) ∧
    bitAt ((tenderFaulted r a s).get F.Hdr.EVENT_STATUS pgCpu) Ev.cpuTenderFault.bit = true ∧
    s.LosesLocks (tenderFaulted r a s) (fun b => b == tenderAgent r) := by
  have hhalts : s.OnPages (tenderHalts r a s) [pgCpu, pgLedger] :=
    (State.OnPages.of_regs (State.updCpu_regs s _)).raise _ _ (by decide) (by decide) (by decide)
  obtain ⟨hbreak, hbreakCpu, _, hloses⟩ := breakLocks_spec (tenderAgent r) (tenderHalts r a s)
  obtain ⟨hclear, _, hclearHalted, hclearMbox⟩ := mboxClear_spec r (breakLocks (tenderAgent r) (tenderHalts r a s))
  obtain ⟨hfault, hfaultCpu, hpend⟩ := trkFault_spec r (mboxClear r (breakLocks (tenderAgent r) (tenderHalts r a s)))
  have hmbox : ∀ d < 2, (tenderFaulted r a s).mbox r d = [] := fun d hd => by
    rw [State.mbox, tenderFaulted, hfaultCpu]
    exact (hclearMbox r d hd).trans (if_pos rfl)
  refine ⟨?_, hmbox 0 (by decide), hmbox 1 (by decide), by rw [tenderFaulted]; exact hpend, ?_, ?_⟩
  · rw [tenderFaulted, hfaultCpu, hclearHalted, hbreakCpu, tenderHalts, State.raise_cpu]
    exact bitAt_setBit_self s.cpu.halted r
  · rw [tenderFaulted, hfault.get (by decide) (by decide) (by decide), get_of_regs hclear, hbreak.get (by decide) (by decide) (by decide), tenderHalts]
    exact State.raise_bit _ _ _ (by decide) (by decide)
  · have hlost := losesLocks_after (losesLocks_before (locks_onPages hhalts (by decide)) hloses)
      (locks_onPages (State.OnPages.of_regs (ps := []) hclear) List.not_mem_nil)
    exact losesLocks_after hlost (locks_onPages hfault (by decide))

end

/-- Settles O56, with one lemma per command and what breaking the locks of an agent does; that cores run and fault by
commands of their own is the model's choice (log 108). -/
theorem coresTendersAndWatchdogs : Obligations.CoresTendersAndWatchdogs := by
  unfold Obligations.CoresTendersAndWatchdogs
  intro s
  refine ⟨fun _ => execCpuWatchdog_not, fun k hk hl ht => ⟨_, execCpuWatchdog_bites hk hl ht, bite_spec rfl⟩, fun _ _ => execWatchdogKick_not,
    fun _ _ => execWatchdogKick_kicks, ?release, fun _ _ _ => execCacheError_not, ?cache, ?run, fun _ _ _ => execTenderFault_not,
    fun r kind addr hr hruns hkind => ⟨_, execTenderFault_halts hr hruns hkind, tenderFaulted_spec r _ s⟩⟩
  case release =>
    intro mask owner hpass
    obtain ⟨hget, hrunning, hloses⟩ := hostRelease_runs (low 4 mask) s
    have hbit : ∀ k ∈ [1, 2, 3], bitAt (low 4 mask) k = bitAt mask k := fun k hk => bitAt_low ((by decide : ∀ k ∈ [1, 2, 3], k < 4) k hk)
    refine ⟨_, execHostCoreRelease_passes hpass, ?_, fun k => ?_, losesLocks_congr hloses fun a => ?_⟩
    · rw [hget]
      exact low_of_lt (Nat.div_lt_of_lt_mul (low_lt 4 mask))
    · rw [hrunning k]
      exact ite_congr rfl (fun hk => hbit k hk) fun _ => rfl
    · exact any_of_members fun k hk => by rw [hbit k hk]
  case cache =>
    intro core addr dirty hcore
    refine ⟨_, execCacheError_raises hcore, State.raise_bit _ _ _ (by decide) (by decide), fun l => ?_⟩
    rw [State.raise_cpu]
    exact lineBad_mem core addr l dirty s
  case run =>
    intro mask owner hpass
    obtain ⟨hget, hcores, hloses⟩ := tenderRun_runs (low 4 mask) s
    have hbit : ∀ r < 4, bitAt (low 4 mask) r = bitAt mask r := fun r hr => bitAt_low hr
    refine ⟨_, execTenderRun_passes hpass, hget.trans (low_of_lt (low_lt 4 mask)), fun r hr hne => ?_, fun r hr he => ?_, losesLocks_congr hloses fun a => ?_⟩
    · have hcore := hcores r
      rw [hbit r hr, if_pos ⟨List.mem_range.mpr hr, hne⟩] at hcore
      exact ⟨hcore.1 0 (by decide), hcore.1 1 (by decide), hcore.2⟩
    · have hcore := hcores r
      rw [hbit r hr, if_neg fun h => h.2 he] at hcore
      exact ⟨hcore.1 0 (by decide), hcore.1 1 (by decide), hcore.2⟩
    · exact any_of_members fun r hr => by rw [hbit r (List.mem_range.mp hr)]

end Sys2Proof.Machine
end

section
/-! The boot ROM and its candidates; the start and the end of L2 maintenance. -/

-- One declaration after another, as in the files before: the text is also checked in one piece.
set_option Elab.async false

namespace Sys2Proof.Machine

/-! ### The headers -/

section
variable {s : State} {unread : Nat}

/-- The header of a slot is read. -/
def readHeader (unread k : Nat) (s : State) : State :=
  if bitAt unread k = true then imageFail k 7 s else if s.headerOk k = true then s else imageFail k 1 s

/-- The slots that are candidates, the newer first. -/
def bootOrder (unread : Nat) (s : State) : List Nat :=
  let good := [0, 1].filter (fun k => !bitAt unread k && s.headerOk k)
  if good = [0, 1] ∧ decide (0 < sext 32 (s.bootField 1 8 4 + 2 ^ 32 - s.bootField 0 8 4)) = true then [1, 0] else good

theorem execBootStart_not (h : s.ready pgSto = false ∨ s.cpu.boot ≠ 0) : exec (.bootStart unread) s = .next s :=
  congrArg Host.Outcome.next (if_neg fun ⟨hr, hb⟩ => h.elim (fun h => Bool.false_ne_true (h.symm.trans hr)) fun h => h hb)

theorem execBootStart_reads (hr : s.ready pgSto = true) (hb : s.cpu.boot = 0) :
    exec (.bootStart unread) s = .next (nextCandidate (bootOrder unread s) (readHeader unread 1 (readHeader unread 0 s))) :=
  congrArg Host.Outcome.next (if_pos ⟨hr, hb⟩)

/-- What reading both headers leaves: the reasons of the slots that fail. -/
theorem readHeader_both (unread : Nat) (s : State) : (readHeader unread 1 (readHeader unread 0 s)).cpu = s.cpu ∧
    (readHeader unread 1 (readHeader unread 0 s)).get F.Cpu.BOOT_FAIL_A pgCpu =
      (if bitAt unread 0 = true then 7 else if s.headerOk 0 = true then s.get F.Cpu.BOOT_FAIL_A pgCpu else 1) ∧
    (readHeader unread 1 (readHeader unread 0 s)).get F.Cpu.BOOT_FAIL_B pgCpu =
      (if bitAt unread 1 = true then 7 else if s.headerOk 1 = true then s.get F.Cpu.BOOT_FAIL_B pgCpu else 1) := by
  obtain ⟨cpu0, jrn0, own0, other0⟩ := headerStep unread 0 (by decide) s (readHeader unread 0 s) rfl
  obtain ⟨cpu1, _, own1, other1⟩ := headerStep unread 1 (by decide) (readHeader unread 0 s) (readHeader unread 1 (readHeader unread 0 s)) rfl
  rw [headerOk_congr cpu0 jrn0] at own1
  simp only [if_true, Nat.one_ne_zero, if_false] at own0 other0 own1 other1
  rw [other0] at own1
  exact ⟨cpu1.trans cpu0, other1.trans own0, own1⟩

theorem nextCandidate_none (s : State) : (nextCandidate [] s).cpu.boot = 3 ∧
    bitAt ((nextCandidate [] s).get F.Hdr.EVENT_STATUS pgCpu) Ev.bootNoImage.bit = true := by
  refine ⟨?_, State.raise_bit _ _ _ (by decide) (by decide)⟩
  rw [nextCandidate, State.raise_cpu]
  rfl

end

/-! ### A candidate -/

section
variable {s : State} {k n : Nat}

/-- A candidate fails with a reason, and the next is tried. -/
def candidateFails (k why : Nat) (s : State) : State := nextCandidate s.cpu.left (imageFail k why s)

/-- Loading sections changes none of the candidates that are left. -/
theorem candidateFails_bootLoad (k why n : Nat) (s : State) :
    candidateFails k why (bootLoad k n s) = nextCandidate s.cpu.left (imageFail k why (bootLoad k n s)) := by
  rw [candidateFails, bootLoad_cpu]

theorem execBootCandidateEnd_not {errAt : Option Nat} (h : s.cpu.boot ≠ 1 ∨ s.ready pgSto = false) :
    exec (.bootCandidateEnd errAt) s = .next s :=
  congrArg Host.Outcome.next (if_neg fun ⟨hb, hr⟩ => h.elim (fun h => h hb) fun h => Bool.false_ne_true (h.symm.trans hr))

variable (hb : s.cpu.boot = 1) (hr : s.ready pgSto = true) (hk : k = s.cpu.slot)
include hb hr hk

theorem execBootCandidateEnd_header {errAt : Option Nat} (h : s.bootReason k ≠ 0) :
    exec (.bootCandidateEnd errAt) s = .next (nextCandidate s.cpu.left (imageFail k (s.bootReason k) s)) := by
  subst hk
  exact congrArg Host.Outcome.next ((if_pos ⟨hb, hr⟩).trans (if_pos h))

theorem execBootCandidateEnd_read (h : s.bootReason k = 0) :
    exec (.bootCandidateEnd (some n)) s = .next (nextCandidate s.cpu.left (imageFail k 7 (bootLoad k n s))) := by
  rw [← candidateFails_bootLoad]
  subst hk
  exact congrArg Host.Outcome.next ((if_pos ⟨hb, hr⟩).trans (if_neg (not_not.mpr h)))

/-- A candidate whose sections were read: the digest, then the signature. -/
theorem execBootCandidateEnd_loaded (h : s.bootReason k = 0) : exec (.bootCandidateEnd none) s =
    .next (if s.bootSum k ≠ s.bootDigest k then candidateFails k 5 (bootLoad k (2 ^ 25) s)
      else if s.on F.Colo.SECURE_BOOT 1 ∧ s.bootSigOk k = false then candidateFails k 6 (bootLoad k (2 ^ 25) s)
      else bootPass k (bootLoad k (2 ^ 25) s)) := by
  subst hk
  exact congrArg Host.Outcome.next ((if_pos ⟨hb, hr⟩).trans (if_neg (not_not.mpr h)))

theorem execBootCandidateEnd_digest (h : s.bootReason k = 0) (hd : s.bootSum k ≠ s.bootDigest k) :
    exec (.bootCandidateEnd none) s = .next (nextCandidate s.cpu.left (imageFail k 5 (bootLoad k (2 ^ 25) s))) := by
  rw [execBootCandidateEnd_loaded hb hr hk h, if_pos hd, candidateFails_bootLoad]

theorem execBootCandidateEnd_signature (h : s.bootReason k = 0) (hd : s.bootSum k = s.bootDigest k) (hs : s.on F.Colo.SECURE_BOOT 1 = true)
    (hsig : s.bootSigOk k = false) : exec (.bootCandidateEnd none) s = .next (nextCandidate s.cpu.left (imageFail k 6 (bootLoad k (2 ^ 25) s))) := by
  rw [execBootCandidateEnd_loaded hb hr hk h, if_neg fun hne => hne hd, if_pos ⟨hs, hsig⟩, candidateFails_bootLoad]

theorem execBootCandidateEnd_passes (h : s.bootReason k = 0) (hd : s.bootSum k = s.bootDigest k)
    (hs : s.on F.Colo.SECURE_BOOT 1 = false ∨ s.bootSigOk k = true) :
    exec (.bootCandidateEnd none) s = .next (bootPass k (bootLoad k (2 ^ 25) s)) := by
  rw [execBootCandidateEnd_loaded hb hr hk h, if_neg fun hne => hne hd, if_neg fun ⟨hs1, hsig⟩ =>
    hs.elim (fun h0 => Bool.false_ne_true (h0.symm.trans hs1)) fun h1 => Bool.false_ne_true (hsig.symm.trans h1)]

end

/-! ### Maintenance of the L2 -/

section
variable {s : State}

/-- The three commands are the writes of L2_MAINT with GO. -/
theorem exec_l2Go {op owner : Nat} {c : Instr} (h : s.passes pgCpu owner = true)
    (hc : (op, c) ∈ [(1, Instr.l2Clean owner), (2, .l2Invalidate owner), (3, .l2CleanInvalidate owner)]) :
    exec c s = .next (l2Go op s) ∧ op ≠ 0 ∧ op < 4 := by
  simp only [List.mem_cons, List.not_mem_nil, or_false, Prod.mk.injEq] at hc
  obtain ⟨rfl, rfl⟩ | ⟨rfl, rfl⟩ | ⟨rfl, rfl⟩ := hc
  · exact ⟨congrArg Host.Outcome.next (gateReg_passes h _ _ _), by decide, by decide⟩
  · exact ⟨congrArg Host.Outcome.next (gateReg_passes h _ _ _), by decide, by decide⟩
  · exact ⟨congrArg Host.Outcome.next (gateReg_passes h _ _ _), by decide, by decide⟩

theorem execL2MaintDone_not {lines : List (Nat × List Nat)} (h : s.on F.Cpu.L2_MAINT_BUSY pgCpu = false) :
    exec (.l2MaintDone lines) s = .next s := congrArg Host.Outcome.next (if_neg (by rw [h]; exact Bool.false_ne_true))

/-- The dirty lines of the range are written back, where the operation cleans. -/
def maintWritten (op a n : Nat) (lines : List (Nat × List Nat)) (s : State) : State :=
  if op = 2 then s else forAll (lines.filter (fun l => decide (a ≤ l.1 ∧ l.1 < a + n))) s (fun l => writeBack l.1 l.2)

/-- The operation is over: BUSY falls, and the lines that `gone` names hold no error any more. -/
def maintOver (gone : Nat → Bool) (s : State) : State :=
  (s.set F.Cpu.L2_MAINT_BUSY pgCpu 0).updCpu (fun x => { x with l2Job := none, l2Bad := x.l2Bad.filter (fun l => !gone l) })

theorem maintOver_busy (gone : Nat → Bool) (s : State) : (maintOver gone s).get F.Cpu.L2_MAINT_BUSY pgCpu = 0 := by
  rw [maintOver, get_of_regs (State.updCpu_regs _ _), State.get_set_self]
  rfl

variable {op a n : Nat}

theorem inRange_iff (hj : s.cpu.l2Job = some (op, a, n)) (l : Nat) : s.inRange l = decide (a ≤ l ∧ l < a + n) := by
  rw [State.inRange, hj, Bool.decide_and]

theorem execL2MaintDone_ends {lines : List (Nat × List Nat)} (h : s.on F.Cpu.L2_MAINT_BUSY pgCpu = true) (hj : s.cpu.l2Job = some (op, a, n)) :
    exec (.l2MaintDone lines) s = .next (maintOver s.inRange (maintWritten op a n lines s)) := by
  have hwritten : (if s.cpu.l2Job.any (fun j => j.1 == 2) then s else forAll (lines.filter (fun l => s.inRange l.1)) s (fun l => writeBack l.1 l.2)) =
      maintWritten op a n lines s := by
    have hop : s.cpu.l2Job.any (fun j => j.1 == 2) = true ↔ op = 2 := by rw [hj]; exact beq_iff_eq
    simp only [hop, inRange_iff hj]
    rfl
  rw [← hwritten]
  exact congrArg Host.Outcome.next (if_pos h)

/-- The words of a line join those that are bad. -/
def poisonLine (p : Nat → Nat) (l : List Nat) : List Nat := (List.range 16).foldl (fun l i => if l.contains (p i) then l else l ++ [p i]) l

theorem poisonLine_mem (p : Nat → Nat) {i : Nat} (hi : i < 16) (l : List Nat) : p i ∈ poisonLine p l :=
  (foldl_mem_kept (List.range 16) p l).2 i (List.mem_range.mpr hi)

/-- A line with an uncorrectable word is written poisoned. -/
theorem writeBack_poisons {line i : Nat} {data : List Nat} (hbad : line ∈ s.cpu.l2Bad) (hbase : sdramBase ≤ 64 * line) (hi : i < 16) :
    (64 * line - sdramBase) / 4 + i ∈ (writeBack line data s).memBad := by
  unfold writeBack
  dsimp only
  rw [if_pos ⟨List.contains_iff_mem.mpr hbad, hbase⟩]
  generalize sysWrite 0 (64 * line) _ s = t
  dsimp only
  exact poisonLine_mem (fun i => (64 * line - sdramBase) / 4 + i) hi t.memBad

end

/-- Settles O57, from the two headers, the checks of one candidate, and one maintenance operation; the ROM's steps as
commands and what an L2 line holds are the model's choice (logs 107 and 108). -/
theorem bootAndMaintenance : Obligations.BootAndMaintenance := by
  unfold Obligations.BootAndMaintenance
  intro s
  refine ⟨fun _ => execBootStart_not, ?start, fun _ _ => ⟨rfl, rfl, rfl⟩, nextCandidate_none s, fun _ => execBootCandidateEnd_not, ?candidate,
    fun k => bootPass_spec k s, ?fail, ?go, fun _ => execL2MaintDone_not, ?done, fun _ _ hbad hbase _ hi => writeBack_poisons hbad hbase hi⟩
  case start =>
    intro unread good newer hr hb hgood hnewer
    obtain ⟨hcpu, hfailA, hfailB⟩ := readHeader_both unread s
    subst hgood hnewer
    exact ⟨_, execBootStart_reads hr hb, hcpu, hfailA, hfailB⟩
  case candidate =>
    intro errAt k hb hr hk
    refine ⟨execBootCandidateEnd_header hb hr hk, fun n h he => ?_, fun h he => ?_, fun h he => ?_, fun h he => ?_⟩ <;> subst he
    · exact execBootCandidateEnd_read hb hr hk h
    · exact execBootCandidateEnd_digest hb hr hk h
    · exact execBootCandidateEnd_signature hb hr hk h
    · exact execBootCandidateEnd_passes hb hr hk h
  case fail =>
    intro k why hk
    obtain ⟨_, _, hreason, _, hbit⟩ := imageFail_spec k why hk s
    exact ⟨hreason, hbit⟩
  case go =>
    intro op c owner hpass hc
    obtain ⟨hexec, hne, hlt⟩ := exec_l2Go hpass hc
    obtain ⟨hbusy, hfree⟩ := l2Go_spec op hne hlt s
    rw [hexec]
    refine ⟨fun h => by rw [hbusy h], fun h => ?_⟩
    obtain ⟨t, ht, facts⟩ := hfree h
    exact ⟨t, by rw [ht], facts⟩
  case done =>
    intro lines op a n h hj
    refine ⟨maintWritten op a n lines s, _, rfl, execL2MaintDone_ends h hj, maintOver_busy _ _, rfl, rfl, rfl, rfl, fun l hl hin => ?_⟩
    have hgone := (List.mem_filter.mp (show l ∈ (maintWritten op a n lines s).cpu.l2Bad.filter (fun l => !s.inRange l) from hl)).2
    rw [inRange_iff hj, decide_eq_true hin] at hgone
    exact Bool.false_ne_true hgone

end Sys2Proof.Machine
end

section
/-! PUSH and POP of the mailboxes; CLAIM and COMPLETE of the interrupt router. -/

-- One declaration after another, as in the files before: the text is also checked in one piece.
set_option Elab.async false

namespace Sys2Proof.Machine

/-! ### Pushes -/

section
variable {s : State} {m d hi owner : Nat}

theorem execMboxPush_not (h : 8 ≤ m ∨ 2 ≤ d) : exec (.mboxPush m d hi owner) s = .next s :=
  congrArg Host.Outcome.next (if_neg fun ⟨hm, hd⟩ => h.elim (Nat.not_le.mpr hm) (Nat.not_le.mpr hd))

theorem execMboxPush_passes (hm : m < 8) (hd : d < 2) (h : s.passes pgMbox owner = true) :
    exec (.mboxPush m d hi owner) s = .next (pushHiWrite m d hi owner s) :=
  congrArg Host.Outcome.next ((if_pos ⟨hm, hd⟩).trans (gateReg_passes h _ _ _))

/-- The message that a write of PUSH_HI completes. -/
def pushedWord (m d hi owner : Nat) (s : State) : Nat := tget s.cpu.pushLo (pushKey m d owner) 0 + low 32 hi * 2 ^ 32

theorem pushHiWrite_denied (h : onSide m d (agentOf owner) = false) :
    pushHiWrite m d hi owner s = s.raise Ev.cpuMboxDenied pgMbox (low 8 owner * 256 + d * 8 + m) := if_pos (by rw [h]; rfl)

theorem pushHiWrite_puts (h : onSide m d (agentOf owner) = true) (hn : ¬ (m = 4 ∧ d = 1)) :
    pushHiWrite m d hi owner s = mboxPut m d (pushedWord m d hi owner s) s :=
  (if_neg (by rw [h]; exact Bool.false_ne_true)).trans (if_neg hn)

theorem pushHiWrite_sagger (h : onSide 4 1 (agentOf owner) = true) :
    pushHiWrite 4 1 hi owner s = sagPush (owner % 16) (pushedWord 4 1 hi owner s) s :=
  (if_neg (by rw [h]; exact Bool.false_ne_true)).trans (if_pos ⟨rfl, rfl⟩)

theorem mboxPut_room {v : Nat} (h : (s.mbox m d).length < 16) : mboxPut m d v s = setMbox m d (s.mbox m d ++ [v]) s := if_pos h

theorem mboxPut_full {v : Nat} (h : 16 ≤ (s.mbox m d).length) : (mboxPut m d v s).cpu = s.cpu ∧
    bitAt ((mboxPut m d v s).get F.Hdr.EVENT_STATUS pgMbox) Ev.cpuMboxFull.bit = true := by
  rw [show mboxPut m d v s = s.raise Ev.cpuMboxFull pgMbox (d * 8 + m) from if_neg (Nat.not_lt.mpr h)]
  exact ⟨State.raise_cpu _ _ _ _, State.raise_bit _ _ _ (by decide) (by decide)⟩

end

/-! ### A message of the Sagger -/

section
variable {s w : State} {ch v : Nat} (hw : w = sagMsgExpire s)
include hw

theorem sagPush_notInService (h : ch ∉ w.sagChannels) : sagPush ch v s = w := by
  subst hw
  exact if_pos (by rw [Bool.not_eq_true', Bool.eq_false_iff]; exact fun hc => h (List.contains_iff_mem.mp hc))

omit hw in
/-- The waiting message is written by a further channel. -/
def sagAgain (e : SagMsg) (ch : Nat) (w : State) : State :=
  w.updCpu (fun x => { x with sagOut := x.sagOut.map (fun q => if q = e then { e with chans := setBit e.chans ch, pushed := true } else q) })

/-- A message of a channel in service: the first of two waits, the second of two equal ones pushes. -/
theorem sagPush_inService (h : ch ∈ w.sagChannels) {same : Option SagMsg}
    (hsame : same = w.cpu.sagOut.find? (fun e => e.data == v && !bitAt e.chans ch)) :
    (same = none → sagPush ch v s = w.updCpu (fun x => { x with sagOut := x.sagOut ++ [⟨v, s.now, 2 ^ ch, false⟩] })) ∧
    (∀ e, same = some e → sagPush ch v s = if e.pushed then sagAgain e ch w else mboxPut 4 1 v (sagAgain e ch w)) := by
  have hin : ¬ (!w.sagChannels.contains ch) = true := by
    rw [List.contains_iff_mem.mpr h]
    exact Bool.false_ne_true
  subst hw
  unfold sagPush
  dsimp only
  rw [if_neg hin]
  refine ⟨fun hnone => ?_, fun e hsome => ?_⟩
  · split
    · rfl
    · next e he => exact absurd ((hsame.symm.trans hnone).symm.trans he) nofun
  · split
    · next he => exact absurd ((hsame.symm.trans hsome).symm.trans he) nofun
    · next e' he =>
      obtain rfl : e = e' := Option.some.inj ((hsame.symm.trans hsome).symm.trans he)
      rfl

end

/-! ### Pops -/

section
variable {s : State} {m d owner : Nat}

theorem execMboxPop_not (h : 8 ≤ m ∨ 2 ≤ d ∨ s.silent = true) : exec (.mboxPop m d owner) s = .next s := by
  refine congrArg Host.Outcome.next (if_neg ?_)
  rintro ⟨hm, hd, hs⟩
  rcases h with h | h | h
  · exact Nat.not_le.mpr hm h
  · exact Nat.not_le.mpr hd h
  · rw [h] at hs
    exact Bool.false_ne_true hs

variable (hm : m < 8) (hd : d < 2) (hs : s.silent = false)
include hm hd hs

theorem execMboxPop_nothing (h : onSide m (1 - d) (agentOf owner) = false ∨ s.mbox m d = []) :
    exec (.mboxPop m d owner) s = .next { s with resp := .data 0 } := by
  refine congrArg Host.Outcome.next ((if_pos ⟨hm, hd, by rw [hs]; rfl⟩).trans ?_)
  cases hside : onSide m (1 - d) (agentOf owner) with
  | false => rfl
  | true => rw [h.resolve_left (by rw [hside]; exact Bool.noConfusion)]; rfl

theorem execMboxPop_takes {v : Nat} {l : List Nat} (hside : onSide m (1 - d) (agentOf owner) = true) (h : s.mbox m d = v :: l) :
    exec (.mboxPop m d owner) s = .next { setMbox m d l s with resp := .data (v / 2 ^ 32) } := by
  refine congrArg Host.Outcome.next ((if_pos ⟨hm, hd, by rw [hs]; rfl⟩).trans ?_)
  rw [hside, h]
  rfl

end

/-- A FIFO that is set holds what it was set to. -/
theorem mbox_set_same {m d : Nat} (hd : d < 2) (l : List Nat) (s : State) : (setMbox m d l s).mbox m d = l := by
  rw [mbox_setMbox m d m d l s hd hd, if_pos ⟨rfl, rfl⟩]

/-! ### CLAIM and COMPLETE -/

section
variable {s : State} {k i : Nat}

theorem execClaim_not (h : 8 ≤ k ∨ s.silent = true) : exec (.claim k) s = .next s := by
  refine congrArg Host.Outcome.next (if_neg ?_)
  rintro ⟨hk, hs⟩
  refine h.elim (Nat.not_le.mpr hk) fun h => ?_
  rw [h] at hs
  exact Bool.false_ne_true hs

theorem execClaim_none (hk : k < 8) (hs : s.silent = false) (h : s.bestFor k = none) : exec (.claim k) s = .next { s with resp := .data 0x1FF } := by
  refine congrArg Host.Outcome.next ((if_pos ⟨hk, by rw [hs]; rfl⟩).trans ?_)
  rw [h]

theorem execClaim_some (hk : k < 8) (hs : s.silent = false) (h : s.bestFor k = some i) :
    exec (.claim k) s = .next { claimInput k i s with resp := .data i } := by
  refine congrArg Host.Outcome.next ((if_pos ⟨hk, by rw [hs]; rfl⟩).trans ?_)
  rw [h]

theorem claimInput_claims (k i j : Nat) (s : State) : tget (claimInput k i s).cpu.claims j [] =
    if j = k then tget s.cpu.claims k [] ++ [i] else tget s.cpu.claims j [] := by
  show tget (tput s.cpu.claims k (tget s.cpu.claims k [] ++ [i])) j [] = _
  split
  · next h => rw [h, tget_tput_self]
  · next h => rw [tget_tput_ne _ _ _ h]

theorem execComplete_not {owner : Nat} (h : 8 ≤ k) : exec (.complete k i owner) s = .next s :=
  congrArg Host.Outcome.next (if_neg (Nat.not_lt.mpr h))

theorem execComplete_passes {owner : Nat} (hk : k < 8) (h : s.passes pgIrq owner = true) :
    exec (.complete k i owner) s = .next (complete k i s) := congrArg Host.Outcome.next ((if_pos hk).trans (gateReg_passes h _ _ _))

theorem complete_claims (k i : Nat) (s : State) : (∀ j, j ∈ tget (complete k i s).cpu.claims k [] ↔ j ∈ tget s.cpu.claims k [] ∧ j ≠ low 9 i) ∧
    ∀ c, c ≠ k → tget (complete k i s).cpu.claims c [] = tget s.cpu.claims c [] := by
  refine ⟨fun j => ?_, fun c hc => tget_tputD_ne s.cpu.claims _ _ _ hc⟩
  show j ∈ tget (tputD s.cpu.claims k ((tget s.cpu.claims k []).filter (· != low 9 i)) []) k [] ↔ _
  rw [tget_tputD_self, List.mem_filter, bne_iff_ne]

end

/-- Settles O58, with one lemma per outcome of a push, a pop, a claim and a complete; how two channels' messages pair and how
a claim of the same cycle counts are the model's choice (log 109). -/
theorem mailboxesAndRouter : Obligations.MailboxesAndRouter := by
  unfold Obligations.MailboxesAndRouter
  intro s
  refine ⟨fun _ _ _ _ => execMboxPush_not, ?push, fun m d _ hd l => mbox_set_same hd l s, fun _ _ _ => execMboxPop_not, ?pop, fun _ => execClaim_not, ?claim,
    fun k => (bestFor_spec s k).1, fun k => (bestFor_spec s k).2, fun _ _ _ => execComplete_not, ?complete⟩
  case push =>
    intro m d hi owner v hm hd hpass hv
    obtain rfl : v = pushedWord m d hi owner s := hv
    rw [execMboxPush_passes hm hd hpass]
    refine ⟨fun h => ?_, fun h hn hroom => ?_, fun h hn hfull => ?_, ?_⟩
    · rw [pushHiWrite_denied h]
      exact ⟨_, rfl, State.raise_cpu _ _ _ _, State.raise_bit _ _ _ (by decide) (by decide)⟩
    · rw [pushHiWrite_puts h hn, mboxPut_room hroom]
    · rw [pushHiWrite_puts h hn]
      exact ⟨_, rfl, mboxPut_full hfull⟩
    · rintro rfl rfl h ch w same rfl hw hsame
      rw [pushHiWrite_sagger h]
      refine ⟨fun hout => by rw [sagPush_notInService hw hout], fun hin hnone => by rw [(sagPush_inService hw hin hsame).1 hnone], fun e hin hsome => ?_⟩
      have hpush := (sagPush_inService hw hin hsame).2 e hsome
      refine ⟨sagAgain e (owner % 16) w, fun q hq => List.mem_map_of_mem hq, rfl, fun hp => ?_, fun hp => ?_⟩
      · rw [hpush, if_pos hp]
      · rw [hpush, if_neg (by rw [hp]; exact Bool.false_ne_true)]
  case pop =>
    exact fun m d owner hm hd hs => ⟨execMboxPop_nothing hm hd hs, fun v l hside h =>
      ⟨_, execMboxPop_takes hm hd hs hside h, rfl, mbox_set_same hd l s, rfl⟩⟩
  case claim =>
    refine fun k hk hs => ⟨execClaim_none hk hs, fun i h => ⟨_, execClaim_some hk hs h, rfl, ?_, fun j hj => ?_, rfl⟩⟩
    · exact (claimInput_claims k i k s).trans (if_pos rfl)
    · exact (claimInput_claims k i j s).trans (if_neg hj)
  case complete =>
    intro k i owner hk hpass
    obtain ⟨hown, hothers⟩ := complete_claims k i s
    exact ⟨_, execComplete_passes hk hpass, hown, hothers, rfl⟩

end Sys2Proof.Machine
end
